-- ==== Sys2Proof/Word.lean ====
section
/-!
DEFINITION. The words of the S96 (R5 to R7) and the shape of a sparse table.
-/
set_option autoImplicit false
namespace Sys2Proof

/-- One byte. -/
abbrev Byte := BitVec 8
/-- A 32-bit register or F32 encoding. -/
abbrev W32 := BitVec 32
/-- A 64-bit register. -/
abbrev W64 := BitVec 64

/-- A sparse table: index and value pairs with strictly rising indices, in which an index that is not
listed holds the table's default. No entry equals the default, so equal tables are equal lists. -/
abbrev Tab (α : Type) := List (Nat × α)

end Sys2Proof
end

