-- ==== Sys2Proof/Config.lean ====
section
/-!
DEFINITION. What the manual leaves open or fixes outside itself: every constant here is OPAQUE, so that no
proof can rest on a value of it. A claim that names one holds for every value the constant could have.
-/
set_option autoImplicit false
namespace Sys2Proof.Config

/-- The k-th open value (a value the manual does not state); `State.free` counts how many were used. -/
opaque freeValue : Nat → Nat

/-- exp on F32 inputs that the special-value table of R117 does not cover (log entry 3). -/
opaque expBits : W32 → W32
/-- log, as `expBits` (R117). -/
opaque logBits : W32 → W32
/-- rsqrt, as `expBits` (R117). -/
opaque rsqrtBits : W32 → W32
/-- tanh, as `expBits` (R117). -/
opaque tanhBits : W32 → W32
/-- erf, as `expBits` (R117). -/
opaque erfBits : W32 → W32
/-- sigmoid, as `expBits` (R117). -/
opaque sigmoidBits : W32 → W32

/-- The element that a TE compare writes where it holds, and where it does not: R116 names compare and select and
gives no encoding of the outcome (log entry 3). -/
opaque compareTrue : W32
opaque compareFalse : W32

/-- Whether an HSS signature (RFC 8554, R542) of `message` verifies: public key, signature, message. -/
opaque hssVerifies : List Byte → List Byte → List Byte → Bool
/-- The identity key's 8,120-byte signature with a leaf over a message (R554, R555). -/
opaque hssSign : Nat → List Byte → List Byte
/-- The identity certificate written at manufacture (R554). -/
opaque identityCertificate : List Byte
/-- The identity key's 60-byte public key (R542, R555). -/
opaque identityPublicKey : List Byte
/-- SHA-256 of the boot ROM (R553, slot 0). -/
opaque bootRomHash : List Byte

/-- Rank, bank, row and column that the controller of a channel drives for a byte offset within its module
(R207 leaves the mapping open). -/
opaque dramLocation : Nat → Nat → Nat × Nat × Nat × Nat

/-- How the private broadcast stream (R175) divides a layer's tiles: from layer tag, set size and tile index to
the index within the reached set that takes the tile. No result depends on it (R84, R134). -/
opaque tileShare : Nat → Nat → Nat → Nat

/-- Words M, S, LSE and LOSS of the statistics record of a row in a layer without a row operation: R139 has the record
written and states these words for softmax and loss alone (log entry 57). From the LCB, the row's values and the word. -/
opaque rowStat : List Byte → List W32 → Nat → W32

end Sys2Proof.Config
end

