-- ==== Sys2Proof/Machine/Types.lean ====
section
/-!
DEFINITION. The data types that the commands and the state share: number formats, flags, statuses, units,
packets, frames and descriptors, named as the manual names them.
-/
set_option autoImplicit false
namespace Sys2Proof.Machine

/-- The stored number formats of R39 (E8M0 is the block scale and has its own functions). -/
inductive Format where
  | f32 | b16 | h16 | e4m3 | e5m2 | e2m1 | l48
deriving DecidableEq, Repr, Inhabited

/-- The five arithmetic flags of R70, in the bit order of TE_FLAGS (R130). -/
structure Flags where
  inv : Bool := false
  dz  : Bool := false
  ovf : Bool := false
  unf : Bool := false
  sat : Bool := false
deriving DecidableEq, Repr, Inhabited

/-- A number before rounding: a NaN, a signed infinity, or ±m·2^e (a zero keeps its sign). -/
inductive Val where
  | nan
  | inf (neg : Bool)
  | fin (neg : Bool) (m : Nat) (e : Int)
deriving DecidableEq, Repr, Inhabited

/-- An F32 value together with the flags raised on the way to it (flags are sticky, R70). -/
structure FV where
  bits : W32 := 0
  fl   : Flags := {}
deriving DecidableEq, Repr, Inhabited

/-- The MXE accumulator of one output element (R65): empty, or a value. -/
inductive Acc where
  | empty
  | val (v : Val)
deriving DecidableEq, Repr, Inhabited

/-- Rounding mode of a conversion (R57). -/
inductive RMode where
  | nearest
  | stochastic
deriving DecidableEq, Repr, Inhabited

/-- Completion statuses (R451). -/
inductive Status where
  | ok | unitAbsent | lcbFormatMismatch | hazard | waitTimeout | voidCoin | linkAbsent | sliceDegraded
  | stepSkew | settleAbortedNonfinite | frozenSkipped | stateMismatch | poisoned | cdcTimeout | preempted
  | denied | malformed
deriving DecidableEq, Repr, Inhabited

/-- Severities of Day Book entries (R491). -/
inductive Severity where
  | info | corrected | deferred | contained | fatal
deriving DecidableEq, Repr, Inhabited

/-- Event classes, in the code order of R504, R541, R562 and R581. -/
inductive EventClass where
  | programNote | ringIndexFault | malformed | denied | unitAbsent | stateMismatch | hazard | addressFault
  | hostAddrFault | hostPoisonRead | hostLinkCorrected | hostLinkUncorrected | preemptNoContext
  | vaultCorrected | vaultUncorrected | vaultBankSpared | vaultSpareExhausted | dimmMismatch | dramDegraded
  | dramCorrected | dramUncorrected | dramErasure | dramChannelLost | dramTrackFail | dramMarginLow
  | pprApplied | pprExhausted | remoteAddrFault
  | settleLandingDropped | settlePoisoned | settleRecordMismatch | settleResultNonfinite | settleHostWrite
  | settleStatementFailed | settleAbortedNonfinite | stepSkew | guardPolicySkew | gradNonfiniteSkipped
  | dormant | lossSpike | lossSpikeReseed | lossSampleInvalid | settleEngineFault
  | linkTrainFail | linkPartnerLost | linkReplayExhausted | linkLaneSpared | linkWidthDegraded
  | linkMarginLow | timeLocked | timeHoldover | timeSet
  | strapInvalid | planMissing | planStrapMismatch | portQuarantine | portActive | gnoemVersionNegotiated
  | gnoemFwDiffers | partnerMissing | partnerReturned | pktMalformed | pktFailedDropped | pktFailedPoisoned
  | routeNoPort | routeStall | routeTableRefused | sliceFence | fabricMemCorrected | fabricMemUncorrected
  | collectiveFault
  | coinOverflow | coinWaitTimeout | coinReplyLate | coinDroppedReset | coinDroppedPreempt
  | thermalThrottle | thermalTrip | powerBrake | paceRoundMissed | regulatorSilent | avsFail | cdcTimeout
  | railTransient | railFault
  | reset | doubleFault | injectDenied | coreWatchdog | seqWatchdog | tileParity | seqMemCorrected
  | seqMemUncorrected | bucelRestart | securityAlarm | ledgerWriteRetry
  | ledgerFull | ledgerTorn | ledgerChainBroken | permissionSet | powerLimitSet | fwUpdateActivated
  | fwUpdateFailed
  | bootFallback | rollbackFuseBlown | egiSignatureRejected | tokenRejected | debugUnlocked
  | maintenanceEntered | maintenanceLeft | identityBlocked
  | deviceReady | refclkMissing | railEnableFail | dramTrainFail | dramRelayout
deriving DecidableEq, Repr, Inhabited

/-- Permission words (R25), coded 0 to 3 in QUERY 0x03 (R445). -/
inductive Perm where
  | enabled | fenced | absent | powerOff
deriving DecidableEq, Repr, Inhabited

/-- Execution words (R25), coded 0 to 2 in QUERY 0x03 (R445). -/
inductive ExecWord where
  | idle | busy | faulted
deriving DecidableEq, Repr, Inhabited

/-- The kinds of unit that have state words (R25, R445). -/
inductive UnitKind where
  | core | array | cluster | ddr | engine | port
deriving DecidableEq, Repr, Inhabited

/-- A unit's name: its kind and index (R445). -/
structure UnitName where
  kind  : UnitKind
  index : Nat
deriving DecidableEq, Repr, Inhabited

/-- A coordinate (w, x, y, z) (R9). -/
structure Coord where
  w : Nat := 0
  x : Nat := 0
  y : Nat := 0
  z : Nat := 0
deriving DecidableEq, Repr, Inhabited

/-- The grades of R1. -/
inductive Grade where
  | s96 | s90 | s84
deriving DecidableEq, Repr, Inhabited

/-- Kinds of reset, with the codes of R572. -/
inductive ResetKind where
  | cold | warm | functionLevel | slice | cluster | core | port
deriving DecidableEq, Repr, Inhabited

/-- A descriptor as the ring engine fetched it (R22, R442): its ring, its fetch number over all rings
(the order that a FENCE with ALL_RINGS waits for), and its 64 bytes. -/
structure Desc where
  ring : Nat
  num  : Nat
  raw  : List Byte
deriving DecidableEq, Repr, Inhabited

/-- The rings of R433: a submission ring with its completion ring, the event ring and the statement ring. -/
inductive RingName where
  | sub (n : Nat)
  | evt
  | stm
deriving DecidableEq, Repr

/-- What the ECC of a read reported (R190, R207, R208): an input of the commands that read storage. A corrected error names the
DRAM device that it lies in, and whether it is of one bit. -/
inductive EccResult where
  | clean
  | corrected (device : Nat) (single : Bool)
  | uncorrectable
deriving DecidableEq, Repr, Inhabited

/-- What the ECC of the buffers that a packet passes through reports (R499): an input of PACKET_FRAME. -/
inductive BufferEcc where
  | clean
  | corrected
  | payload (units : List Nat)
  | header
deriving DecidableEq, Repr, Inhabited

/-- A block of a link direction: the start bit and 32 bytes (R283). -/
abbrev Block := BitVec 257

/-- A packet (R336 to R338). `poison` is the poison map, and is empty when PMAP = 0. -/
structure Packet where
  channel : Nat
  kind    : Nat
  dest    : Coord
  src     : Coord
  addr    : Nat
  payload : List Byte
  sealExt : Option (Nat × Nat × Nat) := none   -- coin, queue, and the 24 bits from CLUSTER on
  poison  : List Nat := []                     -- poisoned payload units
  pmap    : Bool := false                      -- a map precedes the payload although it marks no unit
  failed  : Bool := false
  badHcrc : Option Nat := none                 -- the HCRC received, where it is wrong
  lenOk   : Bool := true                       -- LEN agrees with the payload that the frame delivered
deriving DecidableEq, Repr, Inhabited

/-- A frame as it crosses a port (R284 to R286). The body of a control frame is its 24 bytes. -/
inductive Frame where
  | packet (vc seq : Nat) (ack : Option Nat) (p : Packet)
  | control (type vc : Nat) (ack : Option Nat) (body : List Byte)
deriving DecidableEq, Repr, Inhabited

/-- Who waits on a coin queue (R405, R414). `remote` names the requesting device and its TAG. -/
inductive Requester where
  | sequencer
  | context (position ctx : Nat)
  | outside (src : Coord) (cluster : Nat) (tag : Nat)
deriving DecidableEq, Repr, Inhabited

/-- The coin operations of R407. -/
inductive CoinOp where
  | deposit (coin : W32)
  | take
  | takeN (n : Nat)
  | peek
  | bell (coin : W32) (n : Nat)
deriving DecidableEq, Repr, Inhabited

/-- An output tile of a layer: batch entry, row tile, column tile and chain link (R79, R81, R92). -/
structure TileName where
  batch : Nat := 0
  rt    : Nat := 0
  ct    : Nat := 0
  link  : Nat := 0
deriving DecidableEq, Repr

/-- What a store or a start of a sequencer addresses: one core by its position, one by its logical number, or a broadcast window
(R107, R109, R160). -/
inductive Target where
  | core (pos : Nat)
  | logical (n : Nat)
  | matrix
  | vector
  | all
deriving DecidableEq, Repr

/-- How far a cluster's sequencer has come when it issues the instruction of a command: CCLK and instructions since its
previous command, its PC, and the single-bit errors that its memories corrected on the way. The private instructions in
between change nothing else (R158, R175). -/
structure Tick where
  cclk   : Nat := 0
  instrs : Nat := 1
  pc     : Nat := 0
  fixed  : Nat := 0
deriving DecidableEq, Repr, Inhabited

/-- Who accesses a register: the host through BAR0, or the sequencer of a cluster in its own map, with the general register that
a load fills (R160, R596). -/
inductive Accessor where
  | host
  | seq (cluster : Nat) (t : Tick) (g : Nat)
deriving DecidableEq, Repr

/-- Functions that a lane computes (R116, R117): on F32 elements, and the I32 arithmetic. -/
inductive LaneFn where
  | add | sub | mul | fma | lt | le | eq | select | min | max
  | iadd | isub | imul | imin | imax
  | div | sqrt | recip
  | exp | log | rsqrt | tanh | erf | sigmoid
deriving DecidableEq, Repr

/-- A source of a lane operation: a tile register or a sub-tile of the head queue entry (R114, R120). -/
inductive TeSrc where
  | reg (n : Nat)
  | sub (q : Nat)
deriving DecidableEq, Repr

/-- What a tree computes (R132). -/
inductive TreeFn where
  | sum | max | min | argmax
deriving DecidableEq, Repr

/-- A vault by its owner (R187). -/
inductive VaultName where
  | core (p : Nat)
  | cluster (c : Nat)
deriving DecidableEq, Repr

/-- How a load expands stored elements to F32 (R49, R116): format, number of elements, block-size code, scale array and tensor
scale. -/
structure Expansion where
  fmt    : Format
  n      : Nat
  blk    : Nat := 0
  scale  : Nat := 0
  tscale : W32 := 0x3F800000#32
deriving DecidableEq, Repr

/-- What a tile context issues (R16, R92, R104, R116, R120, R125, R129, R150, R176, R177). `early` marks an intended
early read (R181). A load names a register, the byte offset in it, and its source, and may expand stored elements. A store names the
registers that hold its region, row by row of registers, and the link, batch entry, row and column it goes to. -/
inductive TeOp where
  | lane (fn : LaneFn) (dst : Nat) (srcs : List TeSrc) (early : Bool)
  | tree (fn : TreeFn) (byRow : Bool) (dst : Nat) (src : TeSrc) (early : Bool)
  | clrFlags (reg : Nat)
  | load (reg off addr bytes : Nat) (form : Option Expansion)
  | loadRemote (dev : Coord) (reg off addr bytes : Nat)
  | store (regs : List Nat) (link e row col rows cols : Nat) (early : Bool)
  | storeRemote (dev : Coord) (reg off addr bytes : Nat) (sealed : Option (Nat × Nat × Nat)) (early : Bool)
  | enqueue
  | epilogue
  | rows (e rt : Nat)
  | tile (t : TileName)
  | waitLoads
  | waitBuffer (b : Nat)
  | free
deriving DecidableEq, Repr

/-- A landing (R233): group, block, micro-step, elements and scale, poisoned units. -/
structure Land where
  group  : Nat
  block  : Nat
  micro  : Nat
  elems  : List (BitVec 16)
  scale  : Byte
  poison : Bool
deriving DecidableEq, Repr

/-- One copy of a firmware image (R544): header, payload, signer's key and signature. -/
structure FwCopy where
  header  : List Byte := []
  payload : List Byte := []
  key     : List Byte := []
  sig     : List Byte := []
deriving DecidableEq, Repr, Inhabited

/-- A module as its SPD and training report it (R196 to R198). -/
structure Module where
  gb     : Nat
  x4     : Bool
  ecc    : Bool
  ranks  : Nat
  fast   : Bool                         -- supports 12,800 MT/s
  trains : Bool
  pprLeft : Nat
deriving DecidableEq, Repr, Inhabited

end Sys2Proof.Machine
end

