-- ==== Sys2Proof/Syntax.lean ====
section
/-!
DEFINITION. The commands of the S96: one constructor for each row of opcode_table.json, in the table's order. Operands carry what
the environment decides: who acts and on which unit, what arrived, what a read found, and how much time passed on a sequencer.
-/
set_option autoImplicit false
namespace Sys2Proof

open Sys2Proof.Machine in
/-- The commands. -/
inductive Instr where
  /-- COLD_RESET (R568): VDD_AO enters its operating range with the 25 MHz reference running, AO reset is released after 2 ms, and cold bring-up begins. -/
  | coldReset (pins : List (List Nat)) (linkRef : Bool) (altered : List Nat)
  /-- RAIL_POWER_GOOD (R568): A regulator reports power good during bring-up and the next rail in the order is enabled. -/
  | railPowerGood (r : Nat)
  /-- RAIL_ENABLE_TIMEOUT (R569): A rail gives no power-good report within 10 ms, so bring-up stops with RAIL_ENABLE_FAIL and STALLED. -/
  | railEnableTimeout (r : Nat)
  /-- PLL_LOCK (R568): The fabric, DDR and SerDes PLLs lock, PHY and RING firmware is loaded and on-die memories are zeroed. -/
  | pllLock
  /-- REFCLK_CHECK (R567): A missing reference is checked again every 10 ms until it appears. -/
  | refclkCheck (ref : Nat) (present : Bool)
  /-- DRAM_TRAINING_DONE (R199): DRAM training ends, hard repairs are applied, and the channel list, interleave and DRAM_TOP are fixed. -/
  | dramTrainingDone (xs : List (Nat × Module))
  /-- DRAM_ZERO_DONE (R202): Every DRAM line has been written with zero and valid check bits. -/
  | dramZeroDone
  /-- DEVICE_READY (R568): READY is set 10 µs after DRAM zeroing and DEVICE_READY is logged. -/
  | deviceReady
  /-- ROLLBACK_FUSE_BLOW (R546): After READY, the Bucel controller blows the rollback fuses of each class up to its active SVN. -/
  | rollbackFuseBlow (cls : Nat)
  /-- PERST_DEASSERT (R568): PERST# is deasserted, and the PCIe function begins answering configuration requests. -/
  | perstDeassert (pcieRef : Bool)
  /-- WARM_RESET (R573): A warm reset from PERST#, HIF_RESET_CTRL.WARM or the end of the fatal state resets all non-AO domains and retrains DRAM. -/
  | warmReset (perst : Bool)
  /-- FUNCTION_LEVEL_RESET (R574): A PCIe FLR, hot reset or link disable clears the job and slice and resets the PCIe function. -/
  | functionLevelReset
  /-- FLR_SCRUB_DONE (R574): The DRAM scrub after a function-level reset ends, SCRUBBING clears and READY returns. -/
  | flrScrubDone
  /-- SLICE_RESET (R575): HIF_RESET_CTRL.SLICE brings the slice back to one consistent point and sends a RESET slice notice. -/
  | sliceReset
  /-- CLUSTER_RESET (R576): A cluster is reset: its command ends POISONED, its queues are owner-reset, and its execution words become IDLE. -/
  | clusterReset (c : Nat)
  /-- CORE_RESET (R576): One core is reset, its layer completes POISONED, and its execution word becomes IDLE. -/
  | coreReset (p : Nat)
  /-- PORT_RESET (R576): A port is retrained, and its spare use and discovery state are cleared. -/
  | portReset (n : Nat)
  /-- DOORBELL_POLL (R439): The ring watcher's poll interval expires, it reads a doorbell line, and it judges SQ_PI and CQ_CI. -/
  | doorbellPoll (x : RingName) (pi : Nat) (ci : Nat)
  /-- LN_MESSAGE (R440): A lightweight notification arrives, and the watcher reads the line at once and re-registers it. -/
  | lnMessage (x : RingName) (pi : Nat) (ci : Nat)
  /-- DESCRIPTOR_FETCH (R22): The ring engine fetches a descriptor that a producer index now covers. -/
  | descriptorFetch (n : Nat) (raw : List Byte)
  /-- DISPATCH (R441): A waiting descriptor becomes dispatchable and is dispatched to its clusters or its unit. -/
  | dispatch (n : Nat)
  /-- MSIX_AGE_EXPIRY (R453): The oldest pending entry of a vector exceeds TIME_US and the vector fires. -/
  | msixAgeExpiry (v : Nat)
  /-- RING_ENABLE (R458): A write of ENABLE starts or stops a ring, subject to its size and base checks. -/
  | ringEnable (x : RingName) (v : Bool)
  /-- RING_RESET (R438): A write of 1 to RESET zeroes a DISABLED ring's indices and sets its phase to 1. -/
  | ringReset (x : RingName)
  /-- BAR2_READ (R431): A host read through BAR2 reaches device DRAM or completes with Unsupported Request. -/
  | bar2Read (off : Nat) (n : Nat) (ecc : List (Nat × EccResult))
  /-- BAR2_WRITE (R431): A host write through BAR2 is applied to device DRAM or dropped. -/
  | bar2Write (off : Nat) (data : List Byte) (poisoned : Bool)
  /-- REGISTER_WRITE (R596): A BAR0 write to a register without behaviour of its own updates fields by their access codes. -/
  | registerWrite (agent : Accessor) (a : Nat) (n : Nat) (v : Nat)
  /-- JOB_LOAD (R174): An EGI image is checked and loaded. -/
  | jobLoad (d : Desc) (image : List Byte) (ecc : List (Nat × EccResult))
  /-- JOB_UNLOAD (R446): The loaded job is cleared and the selected scrub is performed. -/
  | jobUnload (d : Desc)
  /-- SLICE_SET (R355): A slice's identifier, origin and extent are checked and put in force. -/
  | sliceSet (d : Desc)
  /-- RUN_STEP (R451): A training-step command runs on its clusters and completes with the settlement decision's status. -/
  | runStep (d : Desc)
  /-- RUN_LAYERS (R165): A layers command runs on its clusters and completes when every cluster has ended it. -/
  | runLayers (d : Desc)
  /-- DMA_COPY (R444): Data is copied between host, local and remote spaces, with an optional seal. -/
  | dmaCopy (d : Desc) (data : List Byte) (poison : List Nat) (ecc : List (Nat × EccResult))
  /-- SETTLE_CONFIG_JOB (R229): The settlement job settings are loaded. -/
  | settleConfigJob (d : Desc) (data : List Byte) (ecc : List (Nat × EccResult))
  /-- SETTLE_CONFIG_ROWS (R230): A range of coefficient rows is loaded, and the presence bitmaps and counters of valid rows are cleared. -/
  | settleConfigRows (d : Desc) (data : List Byte) (ecc : List (Nat × EccResult))
  /-- SETTLE_CONFIG_INVALIDATE (R230): VALID is set to 0 for a range of coefficient rows. -/
  | settleConfigInvalidate (d : Desc)
  /-- SETTLE_CONFIG_REFRESH (R249): The working copy of every block of one group is rewritten from W. -/
  | settleConfigRefresh (d : Desc) (ecc : List (Nat × EccResult))
  /-- COLLECTIVE_PLAN (R381): A collective plan is checked and loaded, or cleared. -/
  | collectivePlan (d : Desc) (data : List Byte) (ecc : List (Nat × EccResult))
  /-- FENCE (R441): A fence descriptor waits for earlier descriptors of its ring, or of all rings, to complete. -/
  | fence (d : Desc)
  /-- PREEMPT (R456): A pre-emption is requested for the slice or for the device. -/
  | preempt (d : Desc)
  /-- PREEMPT_TAKE_EFFECT (R456): A pending pre-emption reaches its point or boundary, and the job state is saved. -/
  | preemptTakeEffect (ecc : List (Nat × EccResult))
  /-- RESUME (R457): A saved context is restored, its waiters are reissued, and any pre-empted command restarts. -/
  | resume (d : Desc) (ecc : List (Nat × EccResult))
  /-- RECONCILE_ACCEPT (R447): A unit's state-word mismatch is cleared if its words are now consistent. -/
  | reconcileAccept (d : Desc)
  /-- RECONCILE_FENCE (R447): A unit is fenced, and its mismatch is cleared once its running work has ended. -/
  | reconcileFence (d : Desc)
  /-- RECONCILE_ENABLE (R447): A unit's permission is set to ENABLED unless management withholds it. -/
  | reconcileEnable (d : Desc)
  /-- QUERY (R445): A selected record is written to host memory, locally or through a remote proxy. -/
  | query (d : Desc)
  /-- STATEMENT_REQ (R528): A statement is taken at once and/or the statement period is changed. -/
  | statementReq (d : Desc)
  /-- PROXY_REQUEST (R445): A PROXY query packet from a slice member is served and answered on C6. -/
  | proxyRequest (p : Packet)
  /-- PROXY_RESPONSE (R445): A PROXY response arrives, and the requesting query writes its record or times out. -/
  | proxyResponse (tag : Nat) (arrived : Option Packet)
  /-- LCB_STORE (R162): A sequencer store to a core or broadcast window lands in configuration registers after the retire distance. -/
  | lcbStore (c : Nat) (t : Tick) (target : Target) (word : Nat) (v : W64)
  /-- LAYER_START (R163): A write of 1 to GO checks the LCB, waits for a pending slot and purse, and places the start. -/
  | layerStart (c : Nat) (t : Tick) (target : Target) (buffers : List Nat) (ahead : List (Nat × Nat)) (ecc : List (Nat × EccResult))
  /-- LAYER_WAIT (R164): A write of a position mask makes the sequencer wait until the masked cores are idle. -/
  | layerWait (c : Nat) (t : Tick) (mask : Nat)
  /-- MXE_ISSUE (R79): The MXE runs an issue on a subarray, forming and summing products into accumulators. -/
  | mxeIssue (p : Nat) (dt : Nat) (ecc : List (Nat × EccResult)) (parity : List (Nat × Nat))
  /-- FINISHED_TILE_DRAIN (R68): The accumulators are drained with tensor scales and C into a finished-tile queue entry. -/
  | finishedTileDrain (p : Nat) (i : Nat) (ecc : List (Nat × EccResult)) (parity : List (Nat × Nat))
  /-- TILE_OPERATION (R178): A tile context issues a TE operation whose result retires at its fixed distance. -/
  | tileOperation (p : Nat) (i : Nat) (dt : Nat) (op : TeOp) (ecc : List (Nat × EccResult)) (parity : List Nat)
  /-- LOAD_LAND (R176): A load from the cluster vault, DRAM, a landing buffer or a remote device lands in a tile register. -/
  | loadLand (p : Nat) (i : Nat) (dt : Nat) (j : Nat) (ecc : List (Nat × EccResult))
  /-- LAYER_COMPLETE (R607): A layer completes with its status, which frees its pending slot and may end the command on a non-OK status. -/
  | layerComplete (p : Nat)
  /-- HWM_CLEAR (R55): A write of CLEAR resets a high-water register. -/
  | hwmClear (c : Nat) (t : Tick) (i : Nat) (v : W64)
  /-- SEQ_TABLE_WRITE (R143): A sequencer writes a slot of the shadow sequence-table bank in all eight mirrors. -/
  | seqTableWrite (c : Nat) (t : Tick) (slot : Nat) (high : Bool) (v : W64)
  /-- SEQ_TABLE_COMMIT (R145): The shadow bank is checked and copied to the active bank of every mirror, or refused. -/
  | seqTableCommit (c : Nat) (t : Tick) (v : W64)
  /-- LOSS_READ (R149): The eight clusters' loss accumulators of a slot are summed and returned. -/
  | lossRead (c : Nat) (t : Tick) (slot : Nat)
  /-- LOSS_CLEAR (R147): A write of CLEAR clears a slot's loss accumulator in all clusters. -/
  | lossClear (c : Nat) (t : Tick) (slot : Nat) (v : W64)
  /-- TIMER_WAIT (R164): The sequencer stores a timer compare value and waits on it. -/
  | timerWait (c : Nat) (t : Tick) (n : Nat) (v : W64)
  /-- TIMER_EXPIRY (R164): Device time reaches a timer's compare value and the waiting sequencer resumes. -/
  | timerExpiry (c : Nat)
  /-- SEQ_COMPLETION (R164): The program writes the completion word, ending the command on its cluster. -/
  | seqCompletion (c : Nat) (t : Tick) (word : W64)
  /-- PROGRAM_NOTE (R503): The program posts a Day Book entry of the program-note class. -/
  | programNote (c : Nat) (t : Tick) (bytes : List Byte)
  /-- SEQ_ADDRESS_FAULT (R159): A sequencer load or store outside its map halts it, and the command ends MALFORMED. -/
  | seqAddressFault (c : Nat) (t : Tick)
  /-- SEQ_INSTRUCTION_FAULT (R159): An undecodable instruction halts the sequencer, and the command ends MALFORMED. -/
  | seqInstructionFault (c : Nat) (t : Tick)
  /-- DEBUG_HALT (R157): A debug request halts the sequencer at an instruction boundary. -/
  | debugHalt (c : Nat)
  /-- DEBUG_RESUME (R157): A debug resume continues the halted command. -/
  | debugResume (c : Nat)
  /-- DEPOSIT (R407): A coin is appended to a queue and waiters are released. -/
  | deposit (c : Nat) (who : Requester) (t : Tick) (q : Nat) (coin : W32)
  /-- TAKE (R407): A requester joins a queue's waiter list for one coin. -/
  | take (c : Nat) (who : Requester) (t : Tick) (q : Nat)
  /-- TAKE_N_ARM (R411): The sequencer arms the count n for its next TAKE_N load. -/
  | takeNArm (c : Nat) (t : Tick) (q : Nat) (n : Nat)
  /-- TAKE_N (R407): A requester joins a queue's waiter list for n coins taken at once. -/
  | takeN (c : Nat) (who : Requester) (t : Tick) (q : Nat) (n : Nat)
  /-- PEEK (R407): The oldest coin, the coin count and the waiter count of a queue are returned. -/
  | peek (c : Nat) (who : Requester) (t : Tick) (q : Nat)
  /-- BELL (R407): n copies of a coin are appended as one operation and waiters are released. -/
  | bell (c : Nat) (who : Requester) (t : Tick) (q : Nat) (coin : W32) (n : Nat)
  /-- REMOTE_COIN_GO (R412): A write to the remote window's GO issues a coin operation to another cluster or device. -/
  | remoteCoinGo (c : Nat) (who : Requester) (t : Tick) (target : W64) (coin : W32) (load : Bool)
  /-- COIN_PACKET (R415): A COIN request packet arrives and is applied at the target queue, with a REPLY where needed. -/
  | coinPacket (p : Packet)
  /-- COIN_REPLY (R415): A coin REPLY arrives and completes the waiting requester, or is dropped as late. -/
  | coinReply (p : Packet)
  /-- COIN_WAIT_TIMEOUT (R421): A waiter's deadline expires, and it leaves the list with WAIT_TIMEOUT. -/
  | coinWaitTimeout (c : Nat) (q : Nat) (j : Nat)
  /-- COIN_GUARD_EXPIRY (R421): A remote wait's requester guard expires with no REPLY, and the wait completes WAIT_TIMEOUT. -/
  | coinGuardExpiry (j : Nat)
  /-- SEAL_DEPOSIT (R418): Once a sealed transfer's payloads are accepted, the seal is deposited into its queue. -/
  | sealDeposit (src : Coord) (channel : Nat)
  /-- VAULT_SCRUB (R190): The periodic scrub reads vault words, corrects them and counts errors per bank. -/
  | vaultScrub (v : VaultName) (reports : List (Nat × EccResult))
  /-- VAULT_SPARE_DONE (R191): The copy into a spare bank ends and accesses to the bank resume. -/
  | vaultSpareDone (v : VaultName) (bad : List Nat)
  /-- DRAM_PATROL_SCRUB (R209): The patrol scrub reads and corrects DRAM lines, marking uncorrectable ones poisoned. -/
  | dramPatrolScrub (n : Nat) (lines : Nat) (reports : List (Nat × EccResult))
  /-- DRAM_TRACKING_UPDATE (R214): A channel runs its periodic read-Vref and strobe tracking update. -/
  | dramTrackingUpdate (n : Nat) (margins : List Nat) (low : Bool) (found : Bool)
  /-- SOFT_PPR (R210): Pending repair candidates are repaired when the channel reaches a point with no outstanding job command. -/
  | softPpr (n : Nat) (exhausted : List Nat) (left : Nat)
  /-- REMOTE_WRITE (R220): A WRITE packet arrives at its target and is applied or refused. -/
  | remoteWrite (p : Packet)
  /-- READ_REQ (R220): A READ_REQ arrives at its target and is answered with READ_RSP or READ_ERR. -/
  | readReq (p : Packet) (ecc : List (Nat × EccResult))
  /-- READ_RSP (R610): A read response arrives and its data is placed, or it is dropped as late. -/
  | readRsp (p : Packet)
  /-- READ_ERR (R353): A read error response ends the read with its cause. -/
  | readErr (p : Packet)
  /-- READ_TIMEOUT (R353): A READ_REQ has no response within READ_TIMEOUT and ends as LINK_ABSENT. -/
  | readTimeout (handle : Nat)
  /-- LANDING (R234): A gradient landing is stored or accumulated into its slot, and the totals are updated. -/
  | landing (l : Land) (ecc : List (Nat × EccResult))
  /-- SETTLE_CONTRIBUTION (R237): After the last micro-step, the coordinator forms the device's settlement statement contribution. -/
  | settleContribution (faults : List Nat) (ecc : List (Nat × EccResult))
  /-- SETTLE_WALK_END (R244): A settlement pass or abort walk ends on the device, and held landings and waiting SETTLE_CONFIGs proceed. -/
  | settleWalkEnd (ecc : List (Nat × EccResult))
  /-- STMT_TIMEOUT (R395): No broadcast arrives within STMT_TIMEOUT, so the fused reduction fails and presence bits are cleared. -/
  | stmtTimeout
  /-- SPIKE_RESET (R265): A write of 1 to SPIKE_RESET resets the loss-spike detector. -/
  | spikeReset
  /-- COLLECTIVE_START (R382): A sequencer starts a collective plan entry, which is checked and runs. -/
  | collectiveStart (c : Nat) (t : Tick) (i : Nat) (micro : Nat) (last : Bool) (ecc : List (Nat × EccResult))
  /-- REDUCE_SEGMENT (R385): A REDUCE segment arrives, is reduced with the local contribution, and is forwarded or landed. -/
  | reduceSegment (p : Packet) (fault : Bool) (ecc : List (Nat × EccResult))
  /-- GATHER_SEGMENT (R376): A GATHER segment arrives, is copied into place and is forwarded along the ring. -/
  | gatherSegment (p : Packet)
  /-- COLLECTIVE_END (R380): An entry ends on the device and deposits its completion coin. -/
  | collectiveEnd (i : Nat) (ecc : List (Nat × EccResult))
  /-- STATEMENT_COMBINE (R392): A child's statement arrives and is combined, and it is sent upward once all children are held. -/
  | statementCombine (p : Packet) (faults : List Nat) (ecc : List (Nat × EccResult))
  /-- STATEMENT_BROADCAST (R393): The final statement arrives from the parent and is kept and forwarded down the tree. -/
  | statementBroadcast (p : Packet) (faults : List Nat) (ecc : List (Nat × EccResult))
  /-- POINT_BARRIER_COMBINE (R455): A point-barrier combine packet arrives and PENDING is ORed up the tree. -/
  | pointBarrierCombine (n : Nat) (arrived : Option Packet)
  /-- POINT_BARRIER_BROADCAST (R455): The point-barrier broadcast arrives and clusters stop at the point if PENDING is set. -/
  | pointBarrierBroadcast (p : Packet)
  /-- PACKET_FRAME (R289): A PACKET frame is received, checked in sequence, and accepted or NAKed. -/
  | packetFrame (n : Nat) (blocks : List Block) (fecOk : Bool) (mem : BufferEcc)
  /-- ACK (R290): A cumulative acknowledgement frees replay buffer entries. -/
  | ack (n : Nat) (ack : Option Nat)
  /-- NAK (R290): A NAK starts a replay from the first unacknowledged frame. -/
  | nak (n : Nat) (expected : Nat) (ack : Option Nat)
  /-- ACK_TIMEOUT (R290): The acknowledgement deadline expires and the transmitter replays. -/
  | ackTimeout (n : Nat)
  /-- CREDIT (R291): A CREDIT frame updates a VC's credit running totals. -/
  | credit (n : Nat) (vc : Nat) (totals : List Nat) (ack : Option Nat)
  /-- CREDIT_QUERY (R291): A CREDIT_QUERY is answered with CREDIT frames for both VCs. -/
  | creditQuery (n : Nat) (ack : Option Nat)
  /-- CREDIT_LATE (R291): Waiting traffic sees no credit update for 1 µs, so a CREDIT_QUERY is sent. -/
  | creditLate (n : Nat)
  /-- KEEPALIVE (R286): A KEEPALIVE frame arrives with the partner's time and discovery state. -/
  | keepalive (n : Nat) (ack : Option Nat)
  /-- KEEPALIVE_SEND (R292): The keepalive interval expires and a KEEPALIVE frame is sent. -/
  | keepaliveSend (n : Nat)
  /-- LINK_PARTNER_LOST (R293): No valid frame for 30 µs, so the port goes to LINK_DOWN and its execution word is FAULTED. -/
  | linkPartnerLost (n : Nat)
  /-- SIGNAL_DETECT (R294): Signal from the partner is detected and the port starts TRAINING. -/
  | signalDetect (n : Nat)
  /-- LINK_UP (R287): Training completes on all lanes and the link state starts fresh. -/
  | linkUp (n : Nat) (mode : Nat) (half : Nat) (floors : List Nat) (calTx : Nat) (calRx : Nat)
  /-- TRAINING_TIMEOUT (R294): Training does not complete in 100 ms, so LINK_TRAIN_FAIL is logged and a retry is scheduled. -/
  | trainingTimeout (n : Nat)
  /-- TRAINING_RETRY (R294): Training is retried 10 ms after a failure. -/
  | trainingRetry (n : Nat)
  /-- RETRAIN (R294): A write of RETRAIN makes the port retrain. -/
  | retrain (n : Nat)
  /-- FORCE_KEEPALIVE (R295): A write of FORCE_KEEPALIVE requests KEEPALIVE on the port. -/
  | forceKeepalive (n : Nat) (v : Bool)
  /-- KEEPALIVE_IDLE (R295): A port that has carried no non-C0 traffic for 10 ms proposes KEEPALIVE. -/
  | keepaliveIdle (n : Nat)
  /-- POWER (R295): A POWER frame requests or acknowledges entry into or exit from KEEPALIVE. -/
  | power (n : Nat) (request : Nat) (ack : Option Nat)
  /-- KEEPALIVE_EXIT (R295): The idle lanes finish retraining and the port returns to LINK_UP. -/
  | keepaliveExit (n : Nat)
  /-- LANE_SAMPLE (R302): Each lane's margins and error counts are sampled once per millisecond. -/
  | laneSample (n : Nat) (xs : List (Nat × Nat × Nat × W32 × Nat × Nat))
  /-- LANE_FAIL (R296): A receive lane fails and sparing or width degrade begins. -/
  | laneFail (n : Nat) (l : Nat) (cause : Nat)
  /-- SPARE_REQ (R298): A SPARE_REQ makes the transmitter stop new frames and answer with a switch boundary. -/
  | spareReq (n : Nat) (l : Nat) (ack : Option Nat)
  /-- SPARE_ACK (R298): A SPARE_ACK names the boundary at which the spare takes over the failed lane. -/
  | spareAck (n : Nat) (l : Nat) (cw : Nat) (ack : Option Nat)
  /-- SPARE_SWITCH (R298): The switching boundary is reached and the spare lane carries the failed lane's stream. -/
  | spareSwitch (n : Nat)
  /-- SPARING_DONE (R298): The spare lane is locked and deskewed, replay runs, and traffic flows again. -/
  | sparingDone (n : Nat)
  /-- SPARING_TIMEOUT (R299): Sparing has not completed within 25 µs and the port retrains. -/
  | sparingTimeout (n : Nat)
  /-- WIDTH (R300): A WIDTH frame requests or acknowledges degrade to the 8-lane mode. -/
  | width (n : Nat) (mode : Nat) (half : Nat) (isAck : Bool) (cw : Nat) (ack : Option Nat)
  /-- EQ (R301): An EQ frame requests or reports a transmitter tap change. -/
  | eq (n : Nat) (l : Nat) (request : Nat) (tap : Nat) (ack : Option Nat)
  /-- EQ_STEP (R301): The equalisation loop adjusts a tap by at most one step per 100 µs. -/
  | eqStep (n : Nat) (l : Nat) (tap : Nat) (up : Bool) (own : Bool)
  /-- TIME_EXCHANGE (R304): Every 100 µs, the child sends TIME_REQ on its parent port. -/
  | timeExchange (at16 : Nat)
  /-- TIME_REQ (R304): A parent answers a TIME_REQ with TIME_RSP carrying t2 and t3. -/
  | timeReq (n : Nat) (exchange : Nat) (at16 : Nat) (send16 : Nat) (ack : Option Nat)
  /-- TIME_RSP (R305): A TIME_RSP gives offset and delay, and sets, slews or locks device time. -/
  | timeRsp (n : Nat) (exchange : Nat) (t2 : Nat) (t3 : Nat) (at16 : Nat) (ack : Option Nat)
  /-- IDENTITY (R326): An identity message is received and judged, making the port ACTIVE or QUARANTINE. -/
  | identity (n : Nat) (p : Packet)
  /-- IDENTITY_REPEAT (R324): The identity repeat interval expires and identity is sent again. -/
  | identityRepeat (n : Nat)
  /-- IDENTITY_TIMEOUT (R324): No valid identity arrives within 10 ms of LINK_UP, so the port is quarantined with NO_IDENTITY. -/
  | identityTimeout (n : Nat)
  /-- REIDENTIFY (R328): A write of REIDENTIFY re-identifies a port according to its discovery state. -/
  | reidentify (n : Nat)
  /-- PARTNER_MISSING (R329): A planned neighbour stays missing for 1 s, or falls to MISSING, and slices become degraded. -/
  | partnerMissing (n : Nat)
  /-- SLICE_NOTICE (R358): A slice notice arrives, and a new one marks the slice degraded or resets it and is passed on. -/
  | sliceNotice (n : Nat) (p : Packet)
  /-- ROUTE_STALL (R354): An output channel and VC sends nothing for STALL_LIMIT, and ROUTE_STALL is logged. -/
  | routeStall (n : Nat) (ch : Nat) (vc : Nat)
  /-- DRAIN (R361): A write of DRAIN starts or ends draining of the device's injection. -/
  | drain (v : Bool)
  /-- DETOUR_WRITE (R362): A write to a detour entry is applied while DRAINED is 1, and refused otherwise. -/
  | detourWrite (t : Nat) (e : Nat) (v : Nat)
  /-- PURSE_REFILL_TICK (R467): Once per microsecond, a purse pays DUE and refills BALANCE, and waiting admissions are retested. -/
  | purseRefillTick
  /-- RATE_RECOMPUTE (R470): Every millisecond, the Bucel controller recomputes each cluster's refill RATE. -/
  | rateRecompute
  /-- THERMAL_SAMPLE (R477): The temperature sensors are read and P_therm is stepped. -/
  | thermalSample (ts : List Int)
  /-- PACE_ROUND (R471): At every 100 µs of device time, a pacing round starts and the device sends its pacing statement. -/
  | paceRound
  /-- PACE_COMBINE (R471): A pacing combine packet arrives and is combined with MIN and sum. -/
  | paceCombine (p : Packet)
  /-- PACE_BROADCAST (R471): The pacing broadcast arrives, and q_slice is applied at the next tick. -/
  | paceBroadcast (p : Packet)
  /-- POWER_BRAKE (R479): POWER_BRAKE# is asserted and every cluster divides its CCLK by BRAKE_DIV. -/
  | powerBrake
  /-- POWER_BRAKE_RELEASE (R479): POWER_BRAKE# has been deasserted for 100 µs and clusters may return to their frequency. -/
  | powerBrakeRelease
  /-- CLOCK_GATE (R465): A cluster idle for CG_DELAY enters CLOCK_GATED. -/
  | clockGate (c : Nat)
  /-- POWER_GATE (R465): A cluster CLOCK_GATED for PG_DELAY enters POWER_GATED. -/
  | powerGate (c : Nat)
  /-- CLUSTER_WAKE (R465): A request wakes a gated cluster, which returns to RUN once its PLL has locked. -/
  | clusterWake (c : Nat)
  /-- HOLD_RUN (R484): A write of HOLD_RUN keeps a cluster in RUN or releases it. -/
  | holdRun (c : Nat) (v : Bool)
  /-- DEEP_IDLE_ENTRY (R466): The device has been IDLE for DEEP_DELAY and enters DEEP_IDLE. -/
  | deepIdleEntry
  /-- DEEP_IDLE_EXIT (R466): A fetch, a BAR2 access or non-C0 traffic brings the device out of DEEP_IDLE. -/
  | deepIdleExit
  /-- AVS_UPDATE (R475): Every 10 µs, the AVS loop adjusts a cluster rail over AVSBus. -/
  | avsUpdate (c : Nat) (up : Option Bool) (margin : Nat) (ok : Bool)
  /-- DROOP_DETECT (R475): A droop is detected and CCLK is stretched until it clears. -/
  | droopDetect (c : Nat)
  /-- REGULATOR_READ (R476): Every millisecond, the regulators' telemetry is read over PMBus. -/
  | regulatorRead (xs : List (Nat × Option (Nat × Nat)))
  /-- RAIL_UNDERVOLTAGE (R499): A rail falls below its operating minimum and the clusters on it stop. -/
  | railUndervoltage (r : Nat)
  /-- RAIL_FAULT (R499): A rail has not recovered within 20 µs, so its cluster is powered off or the device goes fatal. -/
  | railFault (r : Nat) (report : Bool)
  /-- CDC_TIMEOUT (R482): An access to a stopped domain completes after 4 µs with all ones or a dropped write. -/
  | cdcTimeout (domain : Nat) (addr : Nat) (cmd : Option Desc)
  /-- STATE_COMPARE (R26): Every millisecond, the comparator samples both state words of every unit and flags disagreements. -/
  | stateCompare
  /-- CORE_WATCHDOG (R500): A busy core issues and retires nothing for WDOG_CORE_US and is reset and contained. -/
  | coreWatchdog (p : Nat)
  /-- SEQ_WATCHDOG (R500): A running sequencer retires nothing for WDOG_SEQ_US and its cluster is reset and contained. -/
  | seqWatchdog (c : Nat)
  /-- BUCEL_RESTART (R515): The Bucel watchdog or an uncorrectable AO memory error restarts the controller firmware. -/
  | bucelRestart
  /-- SECURITY_ALARM (R561): A tamper or glitch sensor fires, and secrets are discarded before the fatal state. -/
  | securityAlarm (sensor : Nat)
  /-- INJECT_ARM (R506): A write to ERR_INJ_CTRL arms an error injection in maintenance mode, or is refused. -/
  | injectArm (ctrl : Nat) (addr : W64)
  /-- STATEMENT_TAKE (R528): At every multiple of PERIOD, a statement is taken and written to the statement ring. -/
  | statementTake
  /-- LEDGER_COUNTERS (R537): Every 3,600 power-on seconds, a COUNTERS record is appended. -/
  | ledgerCounters (fails : Nat)
  /-- LEDGER_DAILY (R538): Every 86,400 power-on seconds, HISTOGRAM and MARGINS records are appended. -/
  | ledgerDaily (fails : Nat)
  /-- SET_ENDPOINT_ID (R517): The bus owner assigns the device's MCTP EID. -/
  | setEndpointId (b : Nat) (waiting : Nat) (eid : Nat)
  /-- DYNAMIC_ADDRESS_ASSIGN (R516): An I3C controller assigns a dynamic address, and the port then speaks I3C only. -/
  | dynamicAddressAssign (addr : Nat)
  /-- STATEMENT_GET (R524): A vendor message returns bytes of the newest statement. -/
  | statementGet (b : Nat) (waiting : Nat) (body : List Byte)
  /-- DAYBOOK_READ (R524): A vendor message returns Day Book entries from a given SEQ. -/
  | daybookRead (b : Nat) (waiting : Nat) (body : List Byte)
  /-- LEDGER_READ (R524): A vendor message returns bytes of one Life Ledger record. -/
  | ledgerRead (b : Nat) (waiting : Nat) (body : List Byte)
  /-- LEDGER_STATUS (R524): A vendor message returns the Life Ledger head and state. -/
  | ledgerStatus (b : Nat) (waiting : Nat) (body : List Byte)
  /-- UNIT_STATE_READ (R524): A vendor message returns a unit's state words and HOLD. -/
  | unitStateRead (b : Nat) (waiting : Nat) (body : List Byte)
  /-- SET_PERMISSION (R526): Management sets a unit's permission and HOLD, subject to the gate of R526. -/
  | setPermission (b : Nat) (waiting : Nat) (body : List Byte)
  /-- SET_POWER_LIMIT (R524): Management writes the board power limit P_board. -/
  | setPowerLimit (b : Nat) (waiting : Nat) (body : List Byte)
  /-- SET_PURSE_DEPTH (R524): Management writes a cluster's purse DEPTH. -/
  | setPurseDepth (b : Nat) (waiting : Nat) (body : List Byte)
  /-- PLAN_WRITE (R319): An installation plan is checked, written to the Life Ledger and put in force. -/
  | planWrite (b : Nat) (waiting : Nat) (body : List Byte)
  /-- PLAN_RETIRE (R320): In maintenance mode, the plan in force is retired. -/
  | planRetire (b : Nat) (waiting : Nat) (body : List Byte)
  /-- REG_READ (R524): A vendor message returns 8 bytes of a BAR0 register. -/
  | regRead (b : Nat) (waiting : Nat) (body : List Byte)
  /-- ATTEST_GET (R554): A signed attestation statement is returned over a nonce. -/
  | attestGet (b : Nat) (waiting : Nat) (body : List Byte)
  /-- TREE_BUILD_DONE (R557): The background build of the next bottom tree finishes, and waiting signatures proceed. -/
  | treeBuildDone
  /-- CHALLENGE (R558): The TOKEN command returns a fresh nonce and the serial. -/
  | challenge (b : Nat) (waiting : Nat)
  /-- PRESENT (R559): A signed token is judged, and debug or maintenance rights take effect if it is accepted. -/
  | present (b : Nat) (waiting : Nat) (token : List Byte) (key : List Byte) (sig : List Byte)
  /-- RELINQUISH (R558): Every right in force ends. -/
  | relinquish (b : Nat) (waiting : Nat)
  /-- NONCE_EXPIRY (R558): A challenge nonce expires after 300 s. -/
  | nonceExpiry
  /-- RIGHT_EXPIRY (R560): A debug or maintenance right reaches the end of its duration and ends. -/
  | rightExpiry (maintenance : Bool)
  /-- SET_EVENT_RECEIVER (R520): The BMC registers as PLDM event receiver. -/
  | setEventReceiver (b : Nat) (waiting : Nat) (mask : Nat)
  /-- PLATFORM_EVENT_RETRY (R520): A PlatformEventMessage not acknowledged within 1 s is sent again once and then dropped. -/
  | platformEventRetry (i : Nat)
  /-- GET_SENSOR_READING (R519): A PLDM sensor read returns the value from the newest statement. -/
  | getSensorReading (b : Nat) (waiting : Nat) (id : Nat)
  /-- REQUEST_UPDATE (R521): A PLDM firmware update begins, or is refused if one is already in progress. -/
  | requestUpdate (b : Nat) (waiting : Nat) (cls : Nat)
  /-- VERIFY_COMPLETE (R521): The written inactive copy is verified, and the update succeeds or fails. -/
  | verifyComplete (b : Nat) (waiting : Nat) (image : FwCopy)
  /-- ACTIVATE_FIRMWARE (R522): Verified copies are made active, either by a Bucel restart or at the next cold reset. -/
  | activateFirmware (b : Nat) (waiting : Nat)
  /-- AO_POWER_LOSS (R588): VDD_AO leaves its operating range, the AO reset asserts, isolation clamps every other domain off and the outputs are released. -/
  | aoPowerLoss (torn : Bool)
  /-- RAIL_RECOVERY (R499): A rail that fell below its operating minimum recovers within 20 µs, the stopped cluster clocks restart and the RAIL_TRANSIENT window closes. -/
  | railRecovery (r : Nat)
  /-- SEQ_MEM_UNCORRECTED (R159): An uncorrectable ECC error in IMEM or DMEM halts the sequencer with HALT_CAUSE 5, contains the cluster and ends the command POISONED. -/
  | seqMemUncorrected (c : Nat)
  /-- BUCEL_RESTART_COMPLETE (R515): The restarted Bucel firmware comes up, appends held Life Ledger records in order, reports skipped statements and answers management again. -/
  | bucelRestartComplete
  /-- WIDTH_SWITCH (R300): At the agreed codeword boundary only the kept half of the lanes carries blocks, the port runs in mode 1 or 3 and traffic resumes. -/
  | widthSwitch (n : Nat)
  /-- REGISTER_READ (R597): A BAR0 read, or a sequencer load, of a register clears its RC fields, latches a wide register at word 0 or waits out a crossing timeout. -/
  | registerRead (agent : Accessor) (a : Nat) (n : Nat)
  /-- MSIX_VECTOR_UNMASK (R453): The host unmasks an MSI-X vector whose pending bit is set and the device sends the held message. -/
  | msixVectorUnmask (v : Nat)
  /-- PLATFORM_EVENT_ACK (R520): The event receiver acknowledges a PlatformEventMessage, so it is not sent again. -/
  | platformEventAck (i : Nat)
  /-- HOST_LINK_ERROR (R499): AER detects a PCIe correctable or uncorrectable error on the host link, including a completion timeout on a device read. -/
  | hostLinkError (corrected : Bool)
deriving DecidableEq, Repr

end Sys2Proof
end

