-- ==== Sys2Proof/Decode.lean ====
section
/-!
DEFINITION. The table of commands gives no row any bits: a command is an operation or an event, not a word.
-/
set_option autoImplicit false
namespace Sys2Proof

/-- No word spells a command. DESIGN CHOICE, log entry 9. -/
def decodeTableWord (_nbits _w : Nat) : Option Instr := none

end Sys2Proof
end

