-- ==== Sys2Proof/Machine/Bits.lean ====
section
/-!
DEFINITION. Bit fields, little-endian byte order (R7) and the operations on sparse tables.
-/
set_option autoImplicit false
namespace Sys2Proof.Machine

/-- Bits [lo+w-1:lo] of x (R6). -/
def fld (x lo w : Nat) : Nat := (x >>> lo) % 2 ^ w

/-- Bit i of x. -/
def bit (x i : Nat) : Bool := (x >>> i) % 2 == 1

/-- x with bits [lo+w-1:lo] replaced by v. -/
def putf (x lo w v : Nat) : Nat := x - (fld x lo w <<< lo) + ((v % 2 ^ w) <<< lo)

/-- 1 for true, shifted to bit i. -/
def bnum (b : Bool) (i : Nat := 0) : Nat := if b then 1 <<< i else 0

/-- The last n elements of a list. -/
def keepLast {α : Type} (n : Nat) (l : List α) : List α := l.drop (l.length - n)

/-- The value of little-endian bytes (R7). -/
def leNat : List Byte → Nat
  | [] => 0
  | b :: bs => b.toNat + 256 * leNat bs

/-- The n low bytes of x, little-endian (R7). -/
def leBytes : Nat → Nat → List Byte
  | 0, _ => []
  | n + 1, x => BitVec.ofNat 8 x :: leBytes n (x / 256)

/-- The n bytes of bs from offset off, as a little-endian number; bytes past the end read 0. -/
def leAt (bs : List Byte) (off n : Nat) : Nat := leNat ((bs.drop off).take n)

/-- bs padded with zero bytes, or cut, to n bytes. -/
def padTo (n : Nat) (bs : List Byte) : List Byte := (bs ++ List.replicate (n - bs.length) 0).take n

/-- bs with the bytes v stored from offset off on. -/
def storeAt (bs : List Byte) (off : Nat) (v : List Byte) : List Byte :=
  padTo off bs ++ v ++ bs.drop (off + v.length)

/-- Fields placed in a word: position, width, value. -/
def pack (l : List (Nat × Nat × Nat)) : Nat := l.foldl (fun a x => a + (x.2.2 % 2 ^ x.2.1) * 2 ^ x.1) 0

/-- x rounded up to a multiple of m. -/
def roundUp (m x : Nat) : Nat := (x + m - 1) / m * m

/-- The larger counter value, stopping at its limit. -/
def satAdd (limit a b : Nat) : Nat := min limit (a + b)

/-- Numbers 0 to n − 1 for which p holds. -/
def whichBits (n : Nat) (p : Nat → Bool) : Nat :=
  (List.range n).foldl (fun a i => a + bnum (p i) i) 0

section Table
variable {α : Type}

/-- The value at index i: the listed one, or the default d. -/
def tget (t : Tab α) (d : α) (i : Nat) : α :=
  match t with
  | [] => d
  | (j, v) :: r => if j = i then v else tget r d i

/-- t without an entry for i. -/
def tdel (t : Tab α) (i : Nat) : Tab α := t.filter (fun p => p.1 != i)

/-- t with v listed at i, in index order. -/
def tput (t : Tab α) (i : Nat) (v : α) : Tab α :=
  match t with
  | [] => [(i, v)]
  | (j, w) :: r =>
    if j = i then (i, v) :: r else if i < j then (i, v) :: (j, w) :: r else (j, w) :: tput r i v

/-- t with v at i; storing the default removes the entry, so the form stays canonical. -/
def tset [DecidableEq α] (t : Tab α) (d : α) (i : Nat) (v : α) : Tab α :=
  if v = d then tdel t i else tput t i v

/-- t with the value at i changed by f. -/
def tmod [DecidableEq α] (t : Tab α) (d : α) (i : Nat) (f : α → α) : Tab α :=
  tset t d i (f (tget t d i))

/-- t with f applied at every index of is. -/
def tmods [DecidableEq α] (t : Tab α) (d : α) (is : List Nat) (f : Nat → α → α) : Tab α :=
  is.foldl (fun t i => tmod t d i (f i)) t

/-- Every index of the tail lies above i, and no value is the default. -/
def tabFrom [DecidableEq α] (d : α) (lo : Option Nat) : Tab α → Bool
  | [] => true
  | (j, v) :: r => (match lo with | none => true | some i => decide (i < j)) && decide (v ≠ d) && tabFrom d (some j) r

/-- The canonical form of a sparse table. -/
def tabWf [DecidableEq α] (d : α) (t : Tab α) : Bool := tabFrom d none t

end Table

/-- The list with element i replaced by v (unchanged when i is past its end). -/
def lset {α : Type} (l : List α) (i : Nat) (v : α) : List α := l.set i v

end Sys2Proof.Machine
end

