-- ==== Sys2Proof/Machine/Float.lean ====
section
/-!
DEFINITION. Number formats and F32 arithmetic (02_number_formats.md): decoding, exact values, the single
rounding step that every operation uses, and the operations of the tile and settlement engines.
-/
set_option autoImplicit false
namespace Sys2Proof.Machine

/-! ### Flags (R70) -/

/-- The union of two flag words; flags are sticky (R70). -/
def Flags.or (a b : Flags) : Flags :=
  ⟨a.inv || b.inv, a.dz || b.dz, a.ovf || b.ovf, a.unf || b.unf, a.sat || b.sat⟩

/-- No flag. -/
def Flags.none : Flags := {}
/-- The flag word in the bit order of TE_FLAGS (R130). -/
def Flags.toNat (f : Flags) : Nat := bnum f.inv 0 + bnum f.dz 1 + bnum f.ovf 2 + bnum f.unf 3 + bnum f.sat 4
/-- The flag word whose bits are x (R130). -/
def Flags.ofNat (x : Nat) : Flags := ⟨bit x 0, bit x 1, bit x 2, bit x 3, bit x 4⟩
/-- Whether any flag is raised. -/
def Flags.any (f : Flags) : Bool := f.inv || f.dz || f.ovf || f.unf || f.sat
/-- Flags whose bits a W1C write of x leaves standing (R10). -/
def Flags.clearBits (f : Flags) (x : Nat) : Flags :=
  ⟨f.inv && !bit x 0, f.dz && !bit x 1, f.ovf && !bit x 2, f.unf && !bit x 3, f.sat && !bit x 4⟩

def flINV : Flags := { inv := true }
def flDZ  : Flags := { dz := true }
def flOVF : Flags := { ovf := true }
def flUNF : Flags := { unf := true }
def flSAT : Flags := { sat := true }

/-! ### Format parameters (R39, R40) -/

/-- Fraction bits (R39). -/
def Format.frac : Format → Nat
  | .f32 => 23 | .b16 => 7 | .h16 => 10 | .e4m3 => 3 | .e5m2 => 2 | .e2m1 => 1 | .l48 => 39
/-- Exponent bits (R39). -/
def Format.exp : Format → Nat
  | .f32 => 8 | .b16 => 8 | .h16 => 5 | .e4m3 => 4 | .e5m2 => 5 | .e2m1 => 2 | .l48 => 8
/-- Exponent bias (R39). -/
def Format.bias : Format → Int
  | .f32 => 127 | .b16 => 127 | .h16 => 15 | .e4m3 => 7 | .e5m2 => 15 | .e2m1 => 1 | .l48 => 127
/-- Width in bits (R39). -/
def Format.width (f : Format) : Nat := 1 + f.exp + f.frac
/-- The minimum normal exponent, 1 − bias (R64). -/
def Format.emin (f : Format) : Int := 1 - f.bias
/-- Subnormals of E4M3, E5M2 and E2M1 are honoured; those of every other format are flushed (R40, R72). -/
def Format.honoursSubnormals : Format → Bool
  | .e4m3 | .e5m2 | .e2m1 => true
  | _ => false
/-- The largest finite magnitude as significand and exponent of its last bit (R40). -/
def Format.maxMag : Format → Nat × Int
  | .f32 => (2 ^ 24 - 1, 104) | .b16 => (2 ^ 8 - 1, 120) | .h16 => (2 ^ 11 - 1, 5)
  | .e4m3 => (14, 5) | .e5m2 => (7, 13) | .e2m1 => (3, 1) | .l48 => (2 ^ 40 - 1, 88)
/-- The canonical NaN (R40); E2M1 encodes none (R44). -/
def Format.canonicalNaN : Format → Nat
  | .f32 => 0x7FC00000 | .b16 => 0x7FC0 | .h16 => 0x7E00 | .e4m3 => 0x7F | .e5m2 => 0x7E | .e2m1 => 0
  | .l48 => 0x7FC000000000
/-- emax of the block-scale rule (R50). Unscaled formats have none. -/
def Format.emax : Format → Int
  | .e2m1 => 2 | .e4m3 => 8 | .e5m2 => 15 | .h16 => 14 | _ => 0
/-- Whether ±∞ is encodable (R40). -/
def Format.hasInf : Format → Bool
  | .e4m3 | .e2m1 => false
  | _ => true
/-- The sign bit of an encoding with magnitude bits below it. -/
def Format.signed (f : Format) (neg : Bool) (x : Nat) : Nat := bnum neg (f.exp + f.frac) + x
/-- The encoding of ±∞ (R40); used only where `hasInf`. -/
def Format.infCode (f : Format) (neg : Bool) : Nat := f.signed neg ((2 ^ f.exp - 1) <<< f.frac)

/-- Format of a 4-bit format code (R97). -/
def Format.ofCode : Nat → Option Format
  | 0 => some .f32 | 1 => some .b16 | 2 => some .h16 | 3 => some .e4m3 | 4 => some .e5m2 | 5 => some .e2m1
  | _ => none

/-- Stored bits per element (R42 packs two E2M1 elements to a byte). -/
def Format.bits : Format → Nat
  | .f32 => 32 | .b16 => 16 | .h16 => 16 | .e4m3 => 8 | .e5m2 => 8 | .e2m1 => 4 | .l48 => 48

/-! ### Decoding (R39 to R45) -/

/-- The value of an element code, subnormals of flushed formats as signed zero, with UNF for a flush
(R40, R67, R72). -/
def decodeElem (f : Format) (code : Nat) : Val × Flags :=
  let neg := bit code (f.exp + f.frac)
  let ex := fld code f.frac f.exp
  let fr := fld code 0 f.frac
  let top := 2 ^ f.exp - 1
  if f = .e4m3 ∧ ex = top ∧ fr = 7 then (.nan, {})
  else if f.hasInf ∧ ex = top then (if fr = 0 then (.inf neg, {}) else (.nan, {}))
  else if ex = 0 then
    if fr = 0 then (.fin neg 0 0, {})
    else if f.honoursSubnormals then (.fin neg fr (f.emin - f.frac), {})
    else (.fin neg 0 0, flUNF)
  else (.fin neg (2 ^ f.frac + fr) (Int.ofNat ex - f.bias - f.frac), {})

/-- The unbiased exponent of a nonzero finite magnitude: floor(log2(m·2^e)). -/
def magExp (m : Nat) (e : Int) : Int := Int.ofNat (Nat.log2 m) + e

/-! ### Rounding -/

/-- m·2^e (with a further positive amount below the last bit when `sticky`) rounded to a multiple of 2^q, to
nearest, ties to even (R57). The result counts multiples of 2^q. -/
def roundNearest (m : Nat) (e q : Int) (sticky : Bool) : Nat :=
  if q ≤ e then m <<< (e - q).toNat
  else
    let d := (q - e).toNat
    let hi := m >>> d
    let rem := m % 2 ^ d
    let half := 2 ^ (d - 1)
    if rem > half ∨ (rem = half ∧ (sticky ∨ hi % 2 = 1)) then hi + 1 else hi

/-- m·2^e truncated toward zero to a multiple of 2^q. -/
def truncTo (m : Nat) (e q : Int) : Nat :=
  if q ≤ e then m <<< (e - q).toNat else m >>> (q - e).toNat

/-- Comparison of two magnitudes n·2^a and m·2^b. -/
def magLt (n : Nat) (a : Int) (m : Nat) (b : Int) : Bool :=
  if a ≤ b then decide (n < m <<< (b - a).toNat) else decide (n <<< (a - b).toNat < m)

/-- The code of a magnitude n·2^q that the format represents exactly (q at or above its last-bit weight). -/
def encodeMag (f : Format) (n : Nat) (q : Int) : Nat :=
  if n = 0 then 0
  else
    let x := magExp n q
    if x < f.emin then truncTo n q (f.emin - f.frac)
    else ((x + f.bias).toNat <<< f.frac) + (truncTo n q (x - f.frac) - 2 ^ f.frac)

/-- Stochastic rounding of m·2^e (R58): the multiple of 2^q and q itself. -/
def roundStochastic (f : Format) (m : Nat) (e : Int) (r : Nat) : Nat × Int :=
  let q := max (magExp m e) f.emin - f.frac
  ((truncTo m e (q - 16) + r) / 2 ^ 16, q)

/-- `round_elem` of R53 on a value, rounded to nearest, or stochastically with r (R54). `sticky` says that the
exact magnitude lies a little above m·2^e. -/
def roundElem (f : Format) (x : Val) (r : Option Nat) (clamped : Bool) (sticky : Bool := false) : Nat × Flags :=
  match x with
  | .nan => (f.canonicalNaN, flINV)
  | .inf neg =>
    if f.hasInf then (f.infCode neg, {})
    else (f.signed neg (encodeMag f f.maxMag.1 f.maxMag.2), flSAT)
  | .fin neg m e =>
    if m = 0 ∧ !sticky then (f.signed neg 0, {})
    else
      let p := magExp m e - f.frac
      let n := roundNearest m e p sticky
      let big := magLt f.maxMag.1 f.maxMag.2 n p
      if big then
        if clamped ∨ !f.honoursSubnormals then
          (if f.hasInf then (f.infCode neg, flOVF)
           else (f.signed neg (encodeMag f f.maxMag.1 f.maxMag.2), { ovf := true, sat := true }))
        else (f.signed neg (encodeMag f f.maxMag.1 f.maxMag.2), {})
      else
        match r with
        | none =>
          if magExp n p < f.emin then
            if f.honoursSubnormals then
              let k := roundNearest m e (f.emin - f.frac) sticky
              (f.signed neg (encodeMag f k (f.emin - f.frac)), if k = 0 then flUNF else {})
            else (f.signed neg 0, flUNF)
          else (f.signed neg (encodeMag f n p), {})
        | some r =>
          let (k, q) := roundStochastic f m e r
          if k = 0 then (f.signed neg 0, flUNF)
          else if magExp k q < f.emin ∧ !f.honoursSubnormals then (f.signed neg 0, flUNF)
          else if magLt f.maxMag.1 f.maxMag.2 k q then
            (f.signed neg (encodeMag f f.maxMag.1 f.maxMag.2), {})
          else (f.signed neg (encodeMag f k q), {})

/-- Rounding of an exact value to F32 (R49, R68): overflow gives ±∞ with OVF, underflow ±0 with UNF. -/
def roundF32 (x : Val) (sticky : Bool := false) : FV :=
  let r := roundElem .f32 x none true sticky
  ⟨BitVec.ofNat 32 r.1, r.2⟩

/-! ### Exact arithmetic on values -/

/-- The sign of a value. -/
def Val.isNeg : Val → Bool
  | .nan => false | .inf n => n | .fin n _ _ => n
/-- Whether the value is a NaN. -/
def Val.isNaN : Val → Bool
  | .nan => true | _ => false
/-- Whether the value is an infinity. -/
def Val.isInf : Val → Bool
  | .inf _ => true | _ => false
/-- Whether the value is ±0. -/
def Val.isZero : Val → Bool
  | .fin _ m _ => m == 0 | _ => false
/-- Whether the value is finite. -/
def Val.isFinite : Val → Bool
  | .fin _ _ _ => true | _ => false
/-- The value with its sign turned. -/
def Val.neg : Val → Val
  | .nan => .nan | .inf n => .inf (!n) | .fin n m e => .fin (!n) m e
/-- The absolute value. -/
def Val.abs : Val → Val
  | .nan => .nan | .inf _ => .inf false | .fin _ m e => .fin false m e
/-- The value times 2^k. -/
def Val.scale (k : Int) : Val → Val
  | .fin n m e => .fin n m (e + k)
  | v => v

/-- A signed integer count of 2^e as a value; an exact zero takes the sign given. -/
def Val.ofInt (i : Int) (e : Int) (zeroNeg : Bool := false) : Val :=
  if i = 0 then .fin zeroNeg 0 0 else .fin (decide (i < 0)) i.natAbs e

/-- The signed significand of a finite value. -/
def Val.signed (n : Bool) (m : Nat) : Int := if n then - Int.ofNat m else Int.ofNat m

/-- Exact sum. A sum of unlike infinities is a NaN (R67). An exact zero sum is +0 unless both terms are −0. -/
def Val.add : Val → Val → Val
  | .nan, _ => .nan
  | _, .nan => .nan
  | .inf a, .inf b => if a = b then .inf a else .nan
  | .inf a, .fin _ _ _ => .inf a
  | .fin _ _ _, .inf b => .inf b
  | .fin a m e, .fin b n g =>
    let l := min e g
    let x := Val.signed a (m <<< (e - l).toNat)
    let y := Val.signed b (n <<< (g - l).toNat)
    Val.ofInt (x + y) l (a && b)

/-- Exact product. 0 × ∞ is a NaN (R67). -/
def Val.mul : Val → Val → Val
  | .nan, _ => .nan
  | _, .nan => .nan
  | .inf a, .inf b => .inf (a != b)
  | .inf a, .fin b n _ => if n = 0 then .nan else .inf (a != b)
  | .fin a m _, .inf b => if m = 0 then .nan else .inf (a != b)
  | .fin a m e, .fin b n g => .fin (a != b) (m * n) (e + g)

/-- Order of two values that are not NaN: a < b. -/
def Val.lt : Val → Val → Bool
  | .nan, _ => false
  | _, .nan => false
  | .inf a, .inf b => a && !b
  | .inf a, .fin _ _ _ => a
  | .fin _ _ _, .inf b => !b
  | .fin a m e, .fin b n g =>
    let l := min e g
    decide (Val.signed a (m <<< (e - l).toNat) < Val.signed b (n <<< (g - l).toNat))

/-- a ≤ b for two values that are not NaN. -/
def Val.le (a b : Val) : Bool := !a.isNaN && !b.isNaN && !(b.lt a)

/-- The extra quotient and root bits that make one later rounding exact. -/
def guardBits : Nat := 96

/-- Quotient of magnitudes to `guardBits` bits beyond the divisor's, and whether it is inexact. -/
def quotMag (m : Nat) (e : Int) (n : Nat) (g : Int) : Nat × Int × Bool :=
  let k := guardBits + Nat.log2 n
  ((m <<< k) / n, e - g - Int.ofNat k, decide ((m <<< k) % n ≠ 0))

/-- Integer square root by bits, from bit b downward (R241). -/
def isqrtFrom (x : Nat) : Nat → Nat → Nat
  | 0, r => r
  | b + 1, r => if (r + 2 ^ b) * (r + 2 ^ b) ≤ x then isqrtFrom x b (r + 2 ^ b) else isqrtFrom x b r

/-- The integer square root of x. -/
def isqrt (x : Nat) : Nat := isqrtFrom x (Nat.log2 x / 2 + 1) 0

/-! ### F32 operations (R72) -/

/-- The value of an F32 encoding; a subnormal is flushed with UNF. -/
def f32Val (a : W32) : Val × Flags := decodeElem .f32 a.toNat

/-- An F32 encoding as an operand that has raised nothing yet. -/
def FV.of (a : W32) : FV := ⟨a, {}⟩
/-- The value of the operand, flushed. -/
def FV.val (a : FV) : Val := (f32Val a.bits).1
/-- Flags of the operand together with the flush of reading it. -/
def FV.flags (a : FV) : Flags := a.fl.or (f32Val a.bits).2

/-- The F32 canonical NaN (R40). -/
def qnan : W32 := 0x7FC00000#32
/-- +∞. -/
def finf : W32 := 0x7F800000#32
/-- −∞. -/
def fninf : W32 := 0xFF800000#32
/-- 1.0. -/
def fone : W32 := 0x3F800000#32

/-- A result rounded once to F32, carrying flags raised before it. -/
def FV.round (fl : Flags) (v : Val) (sticky : Bool := false) : FV :=
  let r := roundF32 v sticky
  ⟨r.bits, fl.or r.fl⟩

/-- F32 addition (R116 add class). -/
def FV.add (a b : FV) : FV := FV.round (a.flags.or b.flags) (a.val.add b.val)
/-- F32 subtraction. -/
def FV.sub (a b : FV) : FV := FV.round (a.flags.or b.flags) (a.val.add b.val.neg)
/-- F32 multiplication. -/
def FV.mul (a b : FV) : FV := FV.round (a.flags.or b.flags) (a.val.mul b.val)
/-- Fused multiply-add: x·y + z rounded once (R240). -/
def FV.fma (x y z : FV) : FV :=
  FV.round ((x.flags.or y.flags).or z.flags) ((x.val.mul y.val).add z.val)
/-- F32 with its sign turned. -/
def FV.neg (a : FV) : FV := ⟨a.bits ^^^ 0x80000000#32, a.fl⟩
/-- F32 absolute value. -/
def FV.abs (a : FV) : FV := ⟨a.bits &&& 0x7FFFFFFF#32, a.fl⟩

/-- Correctly rounded division (R117). A zero divisor of a finite nonzero operand gives ±∞ with DZ (R70). -/
def FV.div (a b : FV) : FV :=
  let fl := a.flags.or b.flags
  match a.val, b.val with
  | .nan, _ => FV.round fl .nan
  | _, .nan => FV.round fl .nan
  | .inf _, .inf _ => FV.round fl .nan
  | .inf x, .fin y _ _ => FV.round fl (.inf (x != y))
  | .fin x _ _, .inf y => FV.round fl (.fin (x != y) 0 0)
  | .fin x m e, .fin y n g =>
    if n = 0 then (if m = 0 then FV.round fl .nan else FV.round (fl.or flDZ) (.inf (x != y)))
    else if m = 0 then FV.round fl (.fin (x != y) 0 0)
    else
      let (q, qe, st) := quotMag m e n g
      FV.round fl (.fin (x != y) q qe) st

/-- Correctly rounded square root; of a negative value NaN, of −0 the value −0 (R117, R241). -/
def FV.sqrt (a : FV) : FV :=
  let fl := a.flags
  match a.val with
  | .nan => FV.round fl .nan
  | .inf n => if n then FV.round fl .nan else FV.round fl (.inf false)
  | .fin n m e =>
    if m = 0 then FV.round fl (.fin n 0 0)
    else if n then FV.round fl .nan
    else
      let k := 2 * guardBits + (if (e - 2 * guardBits) % 2 = 0 then 0 else 1)
      let x := m <<< k
      let r := isqrt x
      FV.round fl (.fin false r ((e - Int.ofNat k) / 2)) (decide (r * r ≠ x))

/-- F32 maximum of two operands under the rules of R135. -/
def FV.max (a b : FV) : FV :=
  let fl := a.flags.or b.flags
  if a.val.isNaN || b.val.isNaN then FV.round fl .nan
  else if a.val.isZero && b.val.isZero then FV.round fl (.fin (a.val.isNeg && b.val.isNeg) 0 0)
  else if a.val.lt b.val then FV.round fl b.val else FV.round fl a.val

/-- F32 minimum of two operands under the rules of R135. -/
def FV.min (a b : FV) : FV :=
  let fl := a.flags.or b.flags
  if a.val.isNaN || b.val.isNaN then FV.round fl .nan
  else if a.val.isZero && b.val.isZero then FV.round fl (.fin (a.val.isNeg || b.val.isNeg) 0 0)
  else if b.val.lt a.val then FV.round fl b.val else FV.round fl a.val

/-- An F32 encoding of a natural number, rounded once. -/
def FV.ofNat (n : Nat) : FV := roundF32 (.fin false n 0)

/-! ### The functions whose result bits R117 leaves open -/

/-- The operand as the functions below see it: a subnormal is a zero of its sign (R72). -/
def FV.flushed (a : FV) : W32 := if a.val.isZero then a.bits &&& 0x80000000#32 else a.bits

/-- A special-function result with the flags raised before it: a subnormal result is flushed to zero with UNF (R72), and a zero
that stands for a nonzero exact result is such a flush too (R70). DESIGN CHOICE, log entry 3. -/
def FV.openResult (a : FV) (bits : W32) (exactZero : Bool := false) : FV :=
  let r := f32Val bits
  FV.round (a.flags.or (if r.1.isZero && !exactZero then flUNF else r.2)) r.1

/-- Whether e^a exceeds F32: ln(2^128) lies just below the F32 value 0x42B17218 (R117). -/
def FV.expExceeds (a : FV) : Bool := !a.val.isNeg && decide (0x42B17218 ≤ a.flushed.toNat)

/-- Whether e^a lies below 2^-126: ln(2^-126) lies just above the F32 value 0xC2AEAC50 (R72). -/
def FV.expVanishes (a : FV) : Bool := a.val.isNeg && decide (0xC2AEAC50 ≤ a.flushed.toNat)

/-- exp (R117). DESIGN CHOICE, log entry 3. -/
def FV.exp (a : FV) : FV :=
  match a.val with
  | .nan => FV.round a.flags .nan
  | .inf n => ⟨if n then 0 else finf, a.flags⟩
  | .fin _ _ _ =>
    if a.expExceeds then ⟨finf, a.flags.or flOVF⟩
    else if a.expVanishes then ⟨0, a.flags.or flUNF⟩
    else FV.openResult a (Config.expBits a.flushed)

/-- log (R117). DESIGN CHOICE, log entry 3. -/
def FV.log (a : FV) : FV :=
  match a.val with
  | .nan => FV.round a.flags .nan
  | .inf n => if n then FV.round a.flags .nan else ⟨finf, a.flags⟩
  | .fin n m _ =>
    if m = 0 then ⟨fninf, a.flags.or flDZ⟩
    else if n then FV.round a.flags .nan
    else FV.openResult a (Config.logBits a.bits) (a.bits == fone)

/-- rsqrt (R117). DESIGN CHOICE, log entry 3. -/
def FV.rsqrt (a : FV) : FV :=
  match a.val with
  | .nan => FV.round a.flags .nan
  | .inf n => if n then FV.round a.flags .nan else FV.openResult a 0 true
  | .fin n m _ =>
    if m = 0 then ⟨if n then fninf else finf, a.flags.or flDZ⟩
    else if n then FV.round a.flags .nan
    else FV.openResult a (Config.rsqrtBits a.bits)

/-- tanh (R117). DESIGN CHOICE, log entry 3. -/
def FV.tanh (a : FV) : FV :=
  match a.val with
  | .nan => FV.round a.flags .nan
  | .inf n => ⟨if n then 0xBF800000#32 else fone, a.flags⟩
  | .fin _ _ _ => FV.openResult a (Config.tanhBits a.flushed) a.val.isZero

/-- erf (R117). DESIGN CHOICE, log entry 3. -/
def FV.erf (a : FV) : FV :=
  match a.val with
  | .nan => FV.round a.flags .nan
  | .inf n => ⟨if n then 0xBF800000#32 else fone, a.flags⟩
  | .fin _ _ _ => FV.openResult a (Config.erfBits a.flushed) a.val.isZero

/-- sigmoid (R117). DESIGN CHOICE, log entry 3. -/
def FV.sigmoid (a : FV) : FV :=
  match a.val with
  | .nan => FV.round a.flags .nan
  | .inf n => ⟨if n then 0 else fone, a.flags⟩
  | .fin _ _ _ =>
    if a.expVanishes then ⟨0, a.flags.or flUNF⟩ else FV.openResult a (Config.sigmoidBits a.flushed)

/-! ### Stochastic rounding (R59) -/

/-- mix64 of R59, modulo 2^64. -/
def mix64 (z : W64) : W64 :=
  let z := (z ^^^ (z >>> 30)) * 0xBF58476D1CE4E5B9#64
  let z := (z ^^^ (z >>> 27)) * 0x94D049BB133111EB#64
  z ^^^ (z >>> 31)

/-- The 16-bit random integer of element i in block b of a tensor at a step (R59). -/
def srRandom (step tensorId b i : Nat) : Nat :=
  let seed := mix64 (mix64 (BitVec.ofNat 64 step) ^^^ (BitVec.ofNat 64 (tensorId <<< 40)) ^^^ BitVec.ofNat 64 b)
  (mix64 (seed + BitVec.ofNat 64 (i + 1) * 0x9E3779B97F4A7C15#64) >>> 48).toNat

/-! ### L48 (R45) -/

/-- The value of an L48 encoding. -/
def l48Val (x : Nat) : Val × Flags := decodeElem .l48 x

/-- The F32 encoding of an L48 value truncated toward zero (R45). -/
def l48Trunc (x : Nat) : W32 := BitVec.ofNat 32 (x >>> 16)

end Sys2Proof.Machine
end

