-- ==== Sys2Proof/Machine/State.lean ====
section
/-!
DEFINITION. The state of one S96. Every structure's field defaults are its reset values (INVENTORY.md, '## State',
lists each with its rule); `State.reset` is the structure of defaults. Arrays of units are sparse tables (`Tab`) whose
unlisted entries are the unit's reset value.
-/
set_option autoImplicit false
namespace Sys2Proof.Machine

/-- Why the machine stops. No command of the table stops the S96: every fault the manual describes is an event, a
status or a counter of the state (16_errors_and_day_book.md), so nothing raises this one. Safe. -/
inductive Fault where
  | none
deriving DecidableEq, Repr

/-- Why a command has no meaning. -/
inductive Refusal where
  /-- Raised by an arm of `exec` whose command has no meaning yet. Safe. -/
  | notModelled (mnemonic : String)
deriving DecidableEq, Repr

/-! ### Memory -/

/-- Byte memory with a poison bit for each 64-byte unit (R18, R114, R212). Unlisted bytes read 0 and unlisted units
are clean (R192, R202). `poison` holds (unit number, true). `minted` holds, for a unit that the mint is rewriting in pieces, the
bytes written so far as a 64-bit mask and, in bit 64, whether a piece was poisoned (R151, R154). DESIGN CHOICE, log entry 57. -/
structure Memory where
  cells  : List Host.Cell := []
  poison : Tab Bool := []
  minted : Tab Nat := []
deriving DecidableEq, Repr

/-! ### Fuses and flash -/

/-- What the fuses hold (R107, R487, R543, R546). The reset value is an S96-grade device (log entry 2). -/
structure Fuses where
  grade    : Grade := .s96
  absent   : List Nat := []             -- physical cores whose array failed test
  serial   : W64 := 0
  vendor0  : List Byte := List.replicate 32 0
  vendor1  : List Byte := List.replicate 32 0
  revoke0  : Bool := false
  rollback : Tab Nat := []              -- blown rollback fuses per class 1 to 4
  vmin     : Tab Nat := []              -- fused VMIN and VMAX per cluster: mV above 600 and below 950 (R475, R586)
  vmax     : Tab Nat := []
deriving DecidableEq, Repr

/-- The two copies of one image class (R521): which is active, and whether the inactive one verified and waits for
activation (R522). DESIGN CHOICE, log entry 2. -/
structure FwClass where
  a         : FwCopy := {}
  b         : FwCopy := {}
  activeB   : Bool := false
  verified  : Bool := false
  nextCold  : Bool := false
deriving DecidableEq, Repr

/-- A Life Ledger record (R534). -/
structure LedgerRecord where
  kind    : Nat
  seq     : Nat
  lifeS   : Nat
  time    : Nat
  prev    : List Byte
  payload : List Byte
  hash    : List Byte
  off     : Nat := 0                    -- byte offset in the flash
  live    : Bool := true
deriving DecidableEq, Repr

/-- The Life Ledger (R533 to R540). `offset` is the next free byte in flash. DESIGN CHOICE, log entry 2. -/
structure Ledger where
  records   : List LedgerRecord := []
  offset    : Nat := 0
  state     : Nat := 0                  -- 0 OK, 1 GENERAL_FULL, 2 FULL, 3 BROKEN
  fullLogged : Bool := false
  heldRecs  : List (Nat × List Byte) := []   -- held in AO SRAM during a Bucel restart (R515)
  droppedBoot : Nat := 0
deriving DecidableEq, Repr

/-! ### Errors and the Day Book -/

/-- A Day Book entry (R502). -/
structure Event where
  cls      : EventClass
  sev      : Severity
  time     : Nat
  source   : Nat
  seq      : Nat
  nested   : Bool := false
  unsync   : Bool := false
  injected : Bool := false
  ledger   : Bool := false
  data     : List Byte := []
deriving DecidableEq, Repr

/-- An open error window (R494): class, source. -/
structure Window where
  cls    : EventClass
  source : Nat
deriving DecidableEq, Repr

/-- The primary error record (R496, R509). -/
structure Primary where
  time   : Nat
  cls    : EventClass
  sev    : Severity
  source : Nat
deriving DecidableEq, Repr

/-- The error scheme's registers and the Day Book (R496 to R513). DESIGN CHOICE, log entry 36. -/
structure Errors where
  dayBook   : List Event := []          -- oldest first, at most 8,192
  nextSeq   : Nat := 0
  total     : Nat := 0
  lost      : Nat := 0
  primary   : Option Primary := none
  valid     : Bool := false
  windows   : List Window := []
  double    : Bool := false
  nested    : Nat := 0
  displaced : Nat := 0
  fatal     : Bool := false
  errorMin  : Nat := 3
  errorDouble : Bool := true
  wdogCore  : Nat := 20
  wdogSeq   : Nat := 100
  lock      : Bool := false
  injCls    : Nat := 0
  injUnit   : Nat := 0
  injArm    : Bool := false
  injCont   : Bool := false
  injFired  : Bool := false
  injBits   : Nat := 0
  injAddr   : W64 := 0
  lastLogged : Tab Nat := []            -- AO time plus 1 of the last entry of a rate-limited event, by class code and key (R407, R499)
deriving DecidableEq, Repr

/-! ### Rings -/

/-- A completion entry (R448), before its phase bit is chosen. -/
structure Completion where
  tag     : Nat
  status  : Status
  opcode  : Nat
  cluster : Nat := 0
  result  : Nat := 0
  guard   : Nat := 0
  detail  : Nat := 0
  time    : Nat := 0
  irq     : Bool := false
deriving DecidableEq, Repr

/-- A ring's state (R460); HELD is read off a full completion ring (R437). -/
inductive RingState where
  | disabled | running | stopped
deriving DecidableEq, Repr

/-- A submission ring with its completion ring, or a device ring (R433, R434, R458 to R460). DESIGN CHOICE, log entry 8. -/
structure Ring where
  enable   : Bool := false
  st       : RingState := .disabled
  logSq    : Nat := 0
  logCq    : Nat := 0
  vector   : Nat := 0
  minSev   : Nat := 0
  sqBase   : Nat := 0
  cqBase   : Nat := 0
  dbAddr   : Nat := 0
  dropped  : Nat := 0
  fetched  : Nat := 0
  lastPi   : Nat := 0
  written  : Nat := 0
  lastCi   : Nat := 0
  waiting  : List Desc := []            -- fetched and not dispatched (R441)
  heldComps : List Completion := []     -- completions held while the ring is full (R437)
  interval : Nat := 1000                -- current poll interval in ns (R439)
  empties  : Nat := 0                   -- consecutive reads without an index change
  lnRegistered : Bool := false          -- R440
  faulted  : Bool := false              -- a producer index was refused since the last RESET (R23)
deriving DecidableEq, Repr

/-- One MSI-X vector (R453, R462): its moderation and its pending state. PRESUMED, log entry 7. -/
structure Vector where
  count   : Nat := 1
  timeUs  : Nat := 0
  pending : Nat := 0
  oldest  : Nat := 0
  masked  : Bool := true                -- as PCI Express resets it (log entry 7)
  pba     : Bool := false
  addr    : W64 := 0
  data    : W32 := 0
deriving DecidableEq, Repr

/-- What leaves the device (the model's own record of its pins, in order; log entry 5). -/
inductive Out where
  | hostWrite (addr : Nat) (bytes : List Byte) (poisoned : Bool)
  | msix (vector : Nat)
  | frame (port first : Nat) (lanes : List (Nat × Block))   -- its blocks from block number `first` on, each with its lane
  | readData (value : Nat) (poisoned : Bool)
  | unsupportedRequest
  | response (binding : Nat) (command : Nat) (status : Nat) (body : List Byte)
  | lnRead (addr : Nat)
  | avs (cluster mv : Nat)
  | pmbusEnable (rail : Nat)
  | platformEvent (entry : List Byte)
deriving DecidableEq, Repr

/-- A DMA_COPY whose packets are on their way (R444): its descriptor, the bytes written so far, and whether it writes to another
device (or else reads from one). -/
structure DmaRun where
  desc   : Desc
  bytes  : Nat := 0
  writes : Bool := false
deriving DecidableEq, Repr

/-- How a command ended on a cluster that has since taken another command (R165, R441). -/
structure EndRec where
  desc     : Desc
  cluster  : Nat
  status   : Status
  reported : Bool
  result   : W32
deriving DecidableEq, Repr

/-- The host interface outside its rings (R429 to R463). -/
structure HostIf where
  rings    : Tab Ring := []             -- submission rings 0 to 31
  evt      : Ring := {}
  stm      : Ring := {}
  vectors  : Tab Vector := []
  pollNs   : Nat := 1000
  backoff  : Bool := true
  lnEn     : Bool := false
  backoffAfter : Nat := 64
  maxPollNs : Nat := 64000
  bar2Gib  : Nat := 0
  fetchNum : Nat := 0                   -- descriptors fetched from any ring, in order (R441)
  fetchFrom : Nat := 0                  -- the ring whose turn to be fetched from comes next (R441)
  inflight : List Desc := []            -- dispatched and not completed
  pcieUp   : Bool := false              -- the function answers configuration requests (R568 row 7)
  dmas     : List DmaRun := []          -- DMA_COPYs that wait for packets (R444)
  endedOn  : List EndRec := []          -- ends of commands whose clusters run another one already
  resumed  : Option (Desc × Desc) := none   -- a RESUME and the command that it restarted (R457)
deriving DecidableEq, Repr

/-! ### Sequencers and coin queues -/

/-- A waiter of a coin queue (R406): who waits, for how many coins (none: TAKE), until when, and whether its deadline
stands still for a debug halt (R428). -/
structure Waiter where
  who      : Requester
  n        : Option Nat
  deadline : Nat
deriving DecidableEq, Repr

/-- One coin queue (R404, R409): its coins, oldest first, and its waiters in order. -/
structure Queue where
  coins   : List W32 := []
  waiters : List Waiter := []
deriving DecidableEq, Repr

/-- The result of a coin operation as its requester sees it (R411). -/
structure CoinResult where
  status : Status := .ok
  first  : W32 := 0
  last   : W32 := 0
  all    : W32 := 0
  count  : Nat := 0
  many   : Bool := false                -- the result of a TAKE_N
deriving DecidableEq, Repr

/-- A remote coin operation that awaits its REPLY (R412, R415, R421). -/
structure CoinWait where
  who     : Requester
  cluster : Nat
  target  : Coord
  tcluster : Nat
  queue   : Nat
  guard   : Nat
deriving DecidableEq, Repr

/-- A cluster's counters of R427. -/
structure CoinCounts where
  overflow   : Nat := 0
  timeouts   : Nat := 0
  droppedReset : Nat := 0
  droppedPreempt : Nat := 0
  replyLate  : Nat := 0
  remoteFull : Nat := 0
deriving DecidableEq, Repr

/-- Sequencer states (R157). -/
inductive SeqSt where
  | idle | running | waiting | halted
deriving DecidableEq, Repr

/-- What a WAITING sequencer waits on (R157, WAIT_ON). -/
inductive WaitOn where
  | none | startSlot | purse | coin | timer | layers | service
deriving DecidableEq, Repr

/-- The hazard report of R182. -/
structure HazReport where
  pc      : Nat := 0
  core    : Nat := 0
  kind    : Nat := 0
  reg     : Nat := 0
  dist    : Nat := 0
  retire  : Nat := 0
  context : Nat := 0
  valid   : Bool := false
  cycle   : Nat := 0
deriving DecidableEq, Repr

/-- The hazard monitor of R181 and R182. -/
structure Hazards where
  mode    : Nat := 1
  modeInForce : Nat := 1
  stale   : Nat := 0
  collide : Nat := 0
  cross   : Nat := 0
  report  : HazReport := {}
deriving DecidableEq, Repr

/-- A configuration-register store on its way (R162, R178): the CCLK in which it lands. -/
structure CfgWrite where
  land : Nat
  issue : Nat
  core : Nat
  word : Nat
  val  : W64
deriving DecidableEq, Repr

/-- A layer start that waits for a pending slot or the purse (R163 steps 4 and 5). -/
structure WaitingStart where
  cores : List Nat
  broadcast : Bool
  pc    : Nat := 0
  lcbs  : List (List Byte)
  buffers : List Nat
  ahead : List (Nat × Nat)
deriving DecidableEq, Repr

/-- A sequencer (R156 to R165). DESIGN CHOICE, log entry 8. -/
structure Sequencer where
  st       : SeqSt := .idle
  waitOn   : WaitOn := .none
  haltCause : Nat := 0
  ring     : Nat := 0
  active   : Bool := false
  pc       : Nat := 0
  cycles   : Nat := 0
  retired  : Nat := 0
  g        : Tab W64 := []              -- G0 to G31
  imem     : List Host.Cell := []
  dmem     : List Host.Cell := []
  imemBad  : List Nat := []             -- 64-byte units of IMEM and of DMEM that hold poisoned data (R211, R213)
  dmemBad  : List Nat := []
  timers   : Tab W64 := []
  timerOn  : Option Nat := none
  cmd      : Option Desc := none        -- the command parameter window (R160)
  step     : W64 := 0
  ended    : Option Status := none      -- how the command ended on this cluster (R165)
  reported : Bool := false              -- it ended by a status that R165 reports, not by the completion word
  finish   : Option (Status × W32) := none   -- a completion word that waits for the layers (R164)
  stop     : Bool := false              -- the command stops here at the next layer boundary (R165)
  result   : W32 := 0
  layerMask : Nat := 0                  -- positions of the last LAYER_WAIT
  commitStatus : Status := .ok
  commitDone : Bool := false
  lossSlot : Option Nat := none
  lossF32  : W32 := 0
  lossTokens : Nat := 0
  lossBits : Nat := 0
  cfg      : List CfgWrite := []
  waitingStart : Option WaitingStart := none
  resume   : SeqSt := .idle             -- state before a debug halt
  remainder : Nat := 0                  -- coin deadline left at a debug halt, ns
deriving DecidableEq, Repr

/-- A sequencer's coin view (R411, R412). -/
structure CoinView where
  arm      : Tab Nat := []              -- TAKE_N_ARM per queue: n plus 1, 0 when not armed
  takenOr  : Tab CoinResult := []       -- last completed TAKE_N per queue
  result   : CoinResult := {}           -- result of the last local wait
  target   : W64 := 0
  coin     : W64 := 0
  remote   : CoinResult := {}
  outstanding : Bool := false
deriving DecidableEq, Repr

/-- The loss accumulator of a slot in one cluster (R147). `sum` counts 2^-64. -/
structure LossAcc where
  sum       : Int := 0
  tokens    : Nat := 0
  nonfinite : Bool := false
  saturated : Bool := false
  poisoned  : Bool := false
deriving DecidableEq, Repr

/-- A landing buffer's state (R216). -/
inductive LbState where
  | empty | filling | valid | committed
deriving DecidableEq, Repr

/-- A landing buffer (R216 to R218, R387 to R390): its range, the units still to land, and the plan entry. -/
structure LandingBuf where
  st    : LbState := .empty
  base  : Nat := 0
  size  : Nat := 0
  left  : Nat := 0                      -- bytes not yet landed
  entry : Nat := 0
  commit : Bool := false                -- the consuming layer has committed (R388)
  fault : Option Status := none
deriving DecidableEq, Repr

/-- A vault's scrub and spare state (R190, R191): corrected errors per bank in the scrub period, the bank in the
spare, and a copy under way. -/
structure VaultState where
  corrected : Tab Nat := []
  spared    : Option Nat := none
  copying   : Option Nat := none
deriving DecidableEq, Repr

/-- A cluster's purse and its settings (R467 to R474, R484, R485). DESIGN CHOICE, log entry 8. -/
structure Purse where
  balance  : Nat := 12000000
  due      : Nat := 0
  rate     : Nat := 0                   -- mW
  depth    : Nat := 12000               -- µJ
  policy   : Nat := 1
  div      : Nat := 0
  share    : Nat := 200000
  reduced  : Bool := false
  rowThree : Nat := 0
  waitNs   : Nat := 0
  waitFrom : Option Nat := none
  demand   : Nat := 0
deriving DecidableEq, Repr

/-- A cluster's clock and rail state (R465, R475, R488). -/
structure ClockSt where
  cstate   : Nat := 1                   -- 0 RUN, 1 CLOCK_GATED, 2 POWER_GATED
  div      : Nat := 3
  braked   : Bool := false
  holdRun  : Bool := false
  volt2    : Nat := 0                   -- VDD_CLc set point in half mV (R475 steps by 2.5 mV)
  marginPs : Nat := 0
  stretches : Nat := 0
  avsFails : Nat := 0
  avsHeld  : Bool := false
  stopped  : Bool := false              -- clock stopped by a rail below its minimum (R499)
  since    : Nat := 0                   -- AO time at which the present state began
  used     : Nat := 0                   -- AO time at which something last needed the cluster (R464, R465)
  avsPend  : Option Nat := none         -- a set point in half mV whose AVSBus write failed (R476)
deriving DecidableEq, Repr

/-- One cluster (R15): sequencer, coin queues, sequence-table mirror, landing buffers, purse, clock. -/
structure Cluster where
  seq      : Sequencer := {}
  haz      : Hazards := {}
  queues   : Tab Queue := []
  coinTimeout : Nat := 10000
  counts   : CoinCounts := {}
  coin     : CoinView := {}
  resetWindow : Bool := false           -- R422
  droppedInWindow : Nat := 0
  saved    : Bool := false              -- queues are saved by a pre-emption (R424)
  slots    : Tab Nat := []              -- active sequence-table bank, 128-bit slots (R144)
  shadow   : Tab Nat := []              -- shadow bank
  commitPending : Bool := false         -- a commit is applied at the next layer start (R145)
  pendingBank : Tab Nat := []
  loss     : Tab LossAcc := []
  lbs      : Tab LandingBuf := []
  vault    : VaultState := {}
  purse    : Purse := {}
  clock    : ClockSt := {}
  tags     : Tab Nat := []              -- starts of each LAYER_TAG since JOB_LOAD (R183)
deriving DecidableEq, Repr

/-! ### Cores -/

/-- A tile register (R114): 1,024 elements in row order, its flag word and its 64 poison bits. -/
structure TileReg where
  elems  : Tab W32 := []
  fl     : Flags := {}
  poison : Tab Bool := []
deriving DecidableEq, Repr

/-- A write to a tile register that has not retired (R178): the elements and poison bits that it writes, and the
register's flag word. `raised` are the flags that the operation itself raised, which reach TE_FLAGS when it ends (R128). -/
structure RegWrite where
  land  : Nat
  issue : Nat
  reg   : Nat
  ctx   : Nat
  elems : List (Nat × W32)
  units : List (Nat × Bool)
  fl    : Flags
  raised : Flags := {}
deriving DecidableEq, Repr

/-- Tile context states (R176). -/
inductive CtxState where
  | free | ready | running | stalled
deriving DecidableEq, Repr

/-- A load that a tile context waits for (R176, R177): the register and byte offset it fills, its local address and
length, the read handle of a load from another device, how it expands stored elements (R49), and the CCLK of its issue (R179). -/
structure LoadReq where
  reg    : Nat
  off    : Nat
  addr   : Nat
  bytes  : Nat
  handle : Option Nat := none
  form   : Option Expansion := none
  issue  : Nat := 0
deriving DecidableEq, Repr

/-- What a STALLED tile context waits for (R176, R405). -/
inductive StallOn where
  | nothing
  | loads
  | buffer (b : Nat)
  | issueQueue
  | finishedQueue
  | coin
deriving DecidableEq, Repr

/-- A tile context (R176, R177): its state, what it waits for, its outstanding loads, and the coin wait result. -/
structure Context where
  st    : CtxState := .free
  on    : StallOn := .nothing
  loads : List LoadReq := []
  barrier : Nat := 0                    -- first CCLK at which its next operation may issue (R180)
  coin  : CoinResult := {}
deriving DecidableEq, Repr

/-- A sub-tile of a finished-tile queue entry (R119). -/
structure SubTile where
  slot   : Nat                          -- Q0 to Q15
  batch  : Nat
  row    : Nat
  col    : Nat
  rows   : Nat
  cols   : Nat
  elems  : List W32
  fl     : Flags := {}
  poison : List Bool := []              -- per element
  link   : Nat := 0
deriving DecidableEq, Repr

/-- The accumulators of one subarray for the output tile it works on (R79, R85). -/
structure AccTile where
  tile   : TileName
  rows   : Nat
  cols   : Nat
  kNext  : Nat := 0
  accs   : List Acc := []               -- rows × cols elements, row-major
  fls    : List Flags := []             -- flags raised by each element's products and sums
  poison : List Bool := []
deriving DecidableEq, Repr

/-- An operand element as stored, with its block's scale code and its poison (R48, R105). -/
structure StoredElem where
  code   : Nat
  scale  : Option Nat := none
  poison : Bool := false
deriving DecidableEq, Repr

/-- An operand block held in the cells of a subarray (R85, R87): what it is named by (R89), and its elements, by column of B or
row of A. -/
structure HeldBlock where
  key   : List Nat
  elems : List (List StoredElem)
deriving DecidableEq, Repr

/-- A layer as latched at its start (R21, R163): its LCB, set index and set size, the index whose tiles the core takes (R183), and
the PC of the sequencer instruction that started its stream (R182). -/
structure Layer where
  lcb    : List Byte
  j      : Nat := 0
  n      : Nat := 1
  share  : Nat := 0
  pc     : Nat := 0
  step   : W64 := 0
  started : Nat := 0                    -- core CCLK at the start
  div    : Nat := 3                     -- divider that the admission selects (R468, R469)
  status : Status := .ok
  bank   : Tab Nat := []                -- sequence-table bank in force (R145)
  buffers : List Nat := []              -- landing buffers that the layer consumes (R217, R388)
deriving DecidableEq, Repr

/-- One core (R15). DESIGN CHOICE, log entry 8. -/
structure Core where
  lcb      : List Byte := List.replicate 512 0   -- configuration registers (R161, R167)
  pending  : Option Layer := none
  running  : Option Layer := none
  lastStatus : Status := .ok
  layers   : Nat := 0
  teFlags  : Flags := {}
  layerFlags : Flags := {}
  nowFlags : Flags := {}                -- raised in the running layer
  emptyRows : Nat := 0
  regs     : Tab TileReg := []
  owners   : Tab Nat := []              -- context that owns each register in the layer, plus 1
  writes   : List RegWrite := []
  ctxs     : Tab Context := []
  landed   : List RegWrite := []        -- writes that landed in the present CCLK (R179)
  raisedAt : Nat := 0                   -- the CCLK of `raisedNow`, plus 1
  raisedNow : Flags := {}               -- flags raised in that CCLK (R131)
  emptyAt  : Nat := 0                   -- the CCLK of `emptyNow`, plus 1
  emptyNow : Nat := 0                   -- empty rows counted in that CCLK (R131)
  issueQ   : List Nat := []             -- the MXE issue queue: the contexts that issued, oldest first, at most 8 (R104)
  dealt    : Nat := 0                   -- the layer's output tiles dealt or passed over, in order (R81)
  accs     : Tab (Option AccTile) := []
  draining : Tab (Option AccTile) := [] -- output-stationary: the tile that drains while the next accumulates (R86)
  blocks   : Tab (Option HeldBlock) := []   -- the stationary block in the cells of each subarray (R85, R87, R89)
  shadow   : Tab (Option HeldBlock) := []   -- the next block, in the shadow registers (R85, R87)
  held     : Option (List SubTile × Nat) := none   -- drained elements that the foot holds, and since which CCLK (R94)
  busy     : Nat := 0                   -- CCLK occupied by issues (R82)
  stalls   : Nat := 0
  ftq      : List (List SubTile) := []
  chain    : Tab Nat := []              -- operand staging: forwarded rows of the previous link (R155)
  fwd      : Tab Nat := []              -- links whose rows were forwarded, by batch entry and row tile (R92)
  vault    : VaultState := {}
  powered  : Bool := true
deriving DecidableEq, Repr

/-- A unit's words beyond its derived execution word (R25, R27, R492, R525, R526). -/
structure UnitWords where
  perm     : Perm := .enabled
  faulted  : Bool := false
  mismatch : Bool := false
  hold     : Bool := false
  fencing  : Option Desc := none        -- a RECONCILE FENCE that waits for the running work (R447, R463)
deriving DecidableEq, Repr

/-! ### DRAM -/

/-- A DRAM channel (R206 to R210, R214, R215). -/
structure Channel where
  st       : Nat := 0                   -- 0 ABSENT, 1 ACTIVE, 2 ERASURE, 3 LOST
  erased   : Nat := 0
  pprList  : List Nat := []             -- rows awaiting repair
  pprLeft  : Nat := 0
  uncorrected : Nat := 0
  dropped  : Nat := 0
  erasing  : Bool := false              -- the last cold reset's erasure mode holds, with the channel in use or not (R208)
  corrected : List (Nat × Nat) := []    -- device and offset of each line with a corrected error in the patrol period
  rowErrs  : Tab Nat := []              -- corrected errors per row in the patrol period
  hardRepairs : List Nat := []          -- soft repairs to be made hard at the next cold boot (R210)
  marginLow : Bool := false
  patrol   : Nat := 0                   -- next line of the patrol
  unlogged : Nat := 0                   -- corrected errors since the last DRAM_CORRECTED entry
deriving DecidableEq, Repr

/-- The DRAM system (R196 to R210). DEDUCED, log entry 23. -/
structure Dram where
  used     : List Nat := []             -- channels of the interleave, rising
  moduleGb : Nat := 0
  fast     : Bool := false
  channels : Tab Channel := []
  speedCap : Bool := false
  cap      : Bool := false              -- SPEED_CAP as the last warm reset found it, for the training that follows (R205)
  scrubHours : Nat := 24
  pprThresh : Nat := 16
  eraseThresh : Nat := 64
  lock     : Bool := false
  selfRefresh : Bool := false
  pprApplied : Nat := 0
deriving DecidableEq, Repr

/-! ### Settlement -/

/-- A coefficient row as loaded: its 256 bytes (R228). P1, P2 and STEP advance in place. -/
abbrev Row := List Byte

/-- A group's counter record (R256). -/
structure GroupCounts where
  settled : Nat := 0
  frozen  : Nat := 0
  poison  : Nat := 0
  mismatch : Nat := 0
  gradNf  : Nat := 0
  resultNf : Nat := 0
  dropped : Nat := 0
  normW   : W32 := 0
  normM   : W32 := 0
  normV   : W32 := 0
  normG   : W32 := 0
deriving DecidableEq, Repr

/-- A group's guard record (R258) with the engines' counts not yet added into it (R257). -/
structure GroupGuard where
  nfElems : Nat := 0
  nfSteps : Nat := 0
  flushLand : Nat := 0
  flushSettle : Nat := 0
  flushWc : Nat := 0
  dormantRun : Nat := 0
  dormantEvents : Nat := 0
  lastLive : Nat := 0
  dormant : Bool := false
  nfLast  : Bool := false
  nfNow   : Nat := 0
  landNow : Nat := 0
  settleNow : Nat := 0
  wcNow   : Nat := 0
  nonzero : Nat := 0
deriving DecidableEq, Repr

/-- The loss-spike detector (R263 to R267). -/
structure Spike where
  n      : Nat := 0
  mu     : W32 := 0
  var    : W32 := 0
  consec : Nat := 0
  last   : W32 := 0
  spiked : Bool := false
deriving DecidableEq, Repr

/-- A settlement statement (R391). -/
structure Stmt where
  sumsq    : W32 := 0
  nonfinite : Nat := 0
  stepMin  : Nat := 0
  stepMax  : Nat := 0
  dormant  : Nat := 0
  spike    : Bool := false
  pAbort   : Bool := false
  pSkip    : Bool := false
  devices  : Nat := 0
  slice    : Nat := 0
deriving DecidableEq, Repr

/-- One entry of the gradient-norm history (R268). -/
structure NormEntry where
  step     : Nat := 0
  sumsq    : W32 := 0
  nrm      : W32 := 0
  clip     : W32 := 0
  nonfinite : Nat := 0
  outcome  : Nat := 0
  spike    : Bool := false
deriving DecidableEq, Repr

/-- Phases of settlement (R255). -/
inductive Phase where
  | idle | landing | deciding | pass
deriving DecidableEq, Repr

/-- What one stored gradient block adds to the totals: its sum of squares in units of 2^-302, its non-finite elements, whether an element
is nonzero, and the elements that its landings flushed (R235, R257). -/
structure BlockShare where
  sumsq   : Int := 0
  nonfin  : Nat := 0
  nonzero : Bool := false
  flushed : Nat := 0
deriving DecidableEq, Repr

/-- The settlement coordinator and engines (07_settlement_engine.md, 08_run_health.md). -/
structure Settle where
  phase    : Phase := .idle
  mode     : Nat := 0
  accum    : Nat := 1
  clipNorm : W32 := 0
  setStep  : Nat := 0
  lastAborted : Bool := false
  interrupted : Bool := false
  rows     : Tab Row := []
  counts   : Tab GroupCounts := []
  guards   : Tab GroupGuard := []
  sumsq    : Int := 0                   -- counts 2^-302 (R235)
  nonfin   : Nat := 0
  shares   : Tab BlockShare := []       -- what each stored block adds to the totals, by group·2^40 + block (R235)
  landed   : Tab Nat := []              -- micro-steps that landed on a block, as a mask, by group·2^40 + block (R236)
  microDone : Nat := 0                  -- micro-steps whose reduce-scatter has ended (R386)
  heldLands : List Land := []
  cfgDue   : Bool := false              -- the walk has ended and a SETTLE_CONFIG that waited for it comes before any landing (R232)
  dropLogged : List Nat := []           -- group and cause already logged this step (R236)
  ctrlPolicy : Nat := 0
  spikeEn  : Bool := true
  reseed   : Nat := 16
  warmup   : Nat := 200
  alpha    : W32 := 0x3C800000#32
  bandK    : W32 := 0x40C00000#32
  spike    : Spike := {}
  own      : Option Stmt := none        -- this device's contribution
  final    : Option Stmt := none        -- the broadcast statement
  sampled  : Nat := 0                   -- NF_POLICY sampled at the contribution
  skipNonfinite : Nat := 0
  skipSkew : Nat := 0
  spikes   : Nat := 0
  dormantGroups : Nat := 0
deriving DecidableEq, Repr

/-- The rest of the run-health and decision state of a step (R268, R276, R611). -/
structure Decision where
  hist      : Tab NormEntry := []
  histNext  : Nat := 0
  histWrapped : Bool := false
  spikeLocal : Bool := false
  spikeSlice : Bool := false
  dormantNew : Bool := false
  dormantAny : Bool := false
  nfSkipped : Bool := false
  clipped   : Bool := false
  aborted   : Bool := false
  status    : Option Status := none     -- what the decision and the pass give RUN_STEP (R239, R246, R395)
  decided   : Bool := false             -- the step's broadcast statement was decided on (R611)
  warm      : Bool := false             -- WARMUP by the detector and the settings that the contribution sampled (R276, R278)
  degraded  : Bool := false             -- the slice became DEGRADED while the command ran (R357)
  stmtState : Nat := 0                  -- FAB_COL_STATUS.STMT_STATE
  children  : List (Nat × Bool × Stmt) := []   -- axis, from +A, child's statement (R392)
  stage     : Nat := 0
  sentUp    : Bool := false
  formedAt  : Nat := 0
deriving DecidableEq, Repr

/-! ### Collectives -/

/-- One unit of a collective's data (R371): its bytes, its scale byte where it has one, its poison. -/
structure WorkUnit where
  data   : List Byte
  scale  : Nat := 0
  poison : Bool := false
deriving DecidableEq, Repr

/-- A running collective entry (R373, R380, R382): micro-step for GRAD_LAND, the stages that remain (whether each
reduces, and its axis; the head runs), the units that have yet to arrive in it, and the units held, by chunk × units
per chunk + unit. -/
structure RunEntry where
  index  : Nat
  micro  : Nat := 0
  last   : Bool := false                -- the stream marked it the last GRAD_LAND start of its micro-step (R386)
  stages : List (Bool × Nat) := []
  need   : Nat := 0
  work   : Tab (Option WorkUnit) := []
  sent   : List Nat := []               -- GRAD_LAND blocks already passed on or landed in the stage
  per    : Nat := 0                     -- units per chunk and bytes per unit, as they were at the start (R383)
  ub     : Nat := 0
deriving DecidableEq, Repr

/-- The collective unit (12_collectives.md). -/
structure Collect where
  plan     : List (List Byte) := []
  loaded   : Bool := false
  running  : List RunEntry := []
  runahead : Nat := 2
  stmtTimeout : Nat := 10000
  flags    : Flags := {}
  issued   : Nat := 0
  cancelled : Nat := 0
  lastMarked : List Nat := []           -- micro-steps whose last GRAD_LAND start is marked (R386)
  heldSegs : List Packet := []          -- segments held for a later micro-step or walk (R252, R386)
  points   : List (Nat × Bool × Nat × Bool) := []   -- held point-barrier combines: axis, from +A, point, PENDING
  pointNo  : Nat := 0
  pointOwn : Bool := false              -- this device's clusters have reached the point and its combine is to be sent
  pointWait : Bool := false             -- the clusters wait at the point
  pointAt  : Nat := 0                   -- AO time at which they reached it
  pointStop : Bool := false
deriving DecidableEq, Repr

/-! ### Links -/

/-- A lane of a port (R296, R302): counters since the last sample, and its last sample. -/
structure Lane where
  unc      : Nat := 0                   -- uncorrectable codewords in the millisecond
  highSer  : Nat := 0                   -- consecutive samples above 2e-4
  lowMargin : Nat := 0                  -- consecutive samples below the floor
  marginLogged : Bool := false
  floor    : Nat := 0
  veye     : Nat := 0
  heye     : Nat := 0
  ser      : W32 := 0
  corr     : Nat := 0
  failed   : Bool := false
  taps     : Tab Int := []              -- this end's transmitter taps
  tapAt    : Tab Nat := []              -- AO time + 1 of the last step of each
  askAt    : Tab Nat := []              -- AO time + 1 of the last step asked of each tap of the partner
  rxEq     : Tab Int := []              -- receiver equaliser taps (R301)
  rxAt     : Tab Nat := []
deriving DecidableEq, Repr

/-- Link states (R294). -/
inductive LState where
  | down | training | up | retrain | keepalive
deriving DecidableEq, Repr

/-- Discovery states (R325). -/
inductive DState where
  | none | missing | identifying | active | quarantine
deriving DecidableEq, Repr

/-- A packet queued for a port: the VC of its hop, and the input port and VC whose buffer it still holds. -/
structure Queued where
  vc     : Nat
  packet : Packet
  held   : Option (Nat × Nat) := none
deriving DecidableEq, Repr

/-- A port's link layer (R279 to R302, R312, R313). -/
structure Link where
  maxMode  : Nat := 0
  trainMode : Nat := 0                  -- MAX_MODE when the training began (R312)
  enable   : Bool := true
  spareEn  : Bool := true
  forceKa  : Bool := false
  replayLimit : Nat := 8
  laneFailUnc : Nat := 4
  st       : LState := .down
  mode     : Nat := 0
  spareTx  : Bool := false
  spareRx  : Bool := false
  sparedLane : Nat := 0
  half     : Nat := 0
  delayNs  : Nat := 0
  replays  : Nat := 0
  creditLate : Nat := 0
  badCtrl  : Nat := 0
  txSeq    : Nat := 0
  rxSeq    : Nat := 0
  rxAny    : Bool := false              -- a PACKET frame was accepted since LINK_UP (ACK_VALID)
  replay   : List Frame := []           -- unacknowledged PACKET frames, oldest first
  replayRuns : Nat := 0                 -- replays of the oldest frame in a row
  naked    : Bool := false              -- a NAK is out for rxSeq
  failCount : Nat := 0                  -- failing arrivals of rxSeq in a row (R290)
  freed    : Tab Nat := []              -- running totals sent, by vc·8 + channel
  granted  : Tab Nat := []              -- running totals received
  usedCr   : Tab Nat := []              -- units sent since LINK_UP
  txq      : List Queued := []          -- packets queued for the port, in order
  rr       : Nat := 2                   -- channel of C2 to C7 served next (R346)
  rrIn     : Tab Nat := []              -- input served next, 8 for the device's own injection, by vc·8 + channel (R346)
  kaCount  : Nat := 0
  kaSent   : Bool := false              -- we have sent POWER enter
  kaGot    : Bool := false
  lastTraffic : Nat := 0                -- AO time of the last frame of a channel other than C0
  lastValid : Nat := 0                  -- AO time of the last valid frame
  cwFrom   : Nat := 0                   -- AO time at which TRAINING ended: lanes count codewords from here (R287)
  txBlock  : Nat := 0                   -- number of the transmit stream's next block (R283)
deriving DecidableEq, Repr

/-- A port's repair sequences and time exchange (R298 to R305). -/
structure Repair where
  sparing  : Option Nat := none         -- receive lane being spared
  txSwitch : Option (Nat × Nat) := none -- lane and codeword at which we switch to the spare
  rxSwitch : Option (Nat × Nat) := none
  suspended : Bool := false             -- partner-lost timer suspended
  stopped  : Bool := false              -- transmitter sends no new frame
  widthReq : Option (Nat × Nat × Nat) := none   -- mode, half, codeword
  lanes    : Tab Lane := []
  exchange : Nat := 0
  t1       : Option Nat := none
  calTx    : Nat := 0                   -- fixed path delays calibrated at training, in 1/16 ns (R304)
  calRx    : Nat := 0
  trainedAt : Nat := 0
deriving DecidableEq, Repr

/-- A port's discovery (R324 to R334). -/
structure Disc where
  st       : DState := .none
  cause    : Nat := 0
  lowered  : Bool := false
  pos      : Nat := 0
  pport    : Nat := 0
  seen     : Bool := false
  serial   : Option Nat := none         -- serial last seen on the port
  wasActive : Bool := false
  missingLogged : Bool := false
  gone     : Bool := false              -- MISSING since it was ACTIVE (R330)
  quarDropped : Nat := 0
  since    : Nat := 0                   -- AO time at which IDENTIFYING or MISSING began
deriving DecidableEq, Repr

/-- One Gnoem port. -/
structure Port where
  link : Link := {}
  rep  : Repair := {}
  disc : Disc := {}
deriving DecidableEq, Repr

/-- The time base (R303 to R309, R314). -/
structure TimeBase where
  tstate   : Nat := 0                   -- 0 FREE, 1 ACQUIRING, 2 LOCKED, 3 HOLDOVER
  parent   : Nat := 0
  root     : Bool := false
  depth    : Nat := 0
  offsetPs : Int := 0
  isSet    : Bool := false
  good     : Nat := 0                   -- exchanges in a row with |offset| < 2 ns
  filter   : List Int := []             -- the last 256 offsets
  slew     : Int := 0                   -- rate in parts per 10^9, within ±200,000
  slewFrom : Nat := 0                   -- AO time from which the rate holds
  slewRem  : Int := 0                   -- ns · 10^9 that it had gained by then beside devOff
  wait     : Option Int := none         -- a setting that waits for the running command (R306)
deriving DecidableEq, Repr

/-! ### Routing -/

/-- An outstanding read of this device (R353, R610). -/
structure ReadWait where
  handle   : Nat
  bytes    : Nat
  got      : Nat := 0
  deadline : Nat
  dest     : Nat                        -- 0 landing buffer, 1 tile load, 2 DMA_COPY, 3 a cancelled fill
  cluster  : Nat := 0
  unit     : Nat := 0                   -- landing buffer, core or descriptor number
  addr     : Nat := 0                   -- local address the data goes to
deriving DecidableEq, Repr

/-- The slice in force (R355 to R358, R365). -/
structure Slice where
  st     : Nat := 0                     -- 0 NONE, 1 WHOLE, 2 DEGRADED
  id     : Nat := 0
  origin : Coord := {}
  extent : Coord := {}
  axes   : Nat := 0                     -- DEGRADED_AXES
  seen   : List (List Nat) := []        -- notices that have arrived (R358)
  resetNo : Nat := 0
  resets : List Nat := []               -- reset numbers applied
deriving DecidableEq, Repr

/-- A packet that a unit of the device holds back while the device drains, with the port of its stream where the collective unit
sends it (R361, R369). -/
structure Waiting where
  port   : Option Nat := none
  packet : Packet
deriving DecidableEq, Repr

/-- A segment that the collective unit has taken and whose router buffer it still fills: the packet as queued and as the unit holds
it, and whether a landing of it is held (R252, R291). -/
structure KeptBuffer where
  queued : Queued
  packet : Packet
  lands  : Bool := false
deriving DecidableEq, Repr

/-- The router (11_routing_and_slices.md). -/
structure Router where
  readTimeout : Nat := 1000
  stallLimit : Nat := 10
  drain    : Bool := false
  moved    : Nat := 0
  slice    : Slice := {}
  fenceOut : Nat := 0
  fenceIn  : Nat := 0
  noPort   : Nat := 0
  badPkt   : Nat := 0
  failedDropped : Nat := 0
  failedDelivered : Nat := 0
  remoteRefused : Nat := 0
  late     : Nat := 0
  detours  : Tab Nat := []              -- entry 16t + e, 128 bits
  reads    : List ReadWait := []
  nextHandle : Nat := 0
  coinWaits : List CoinWait := []
  proxies  : List (Nat × Desc × Nat) := []    -- tag, query, deadline
  seals    : List Packet := []          -- sealed packets whose payload is accepted, seal not yet deposited
  injectQ  : List Waiting := []         -- packets that wait while the device drains (R361)
  inbox    : List Queued := []          -- packets delivered to this device and not yet consumed, with their buffers
  kept     : List KeptBuffer := []            -- segments taken, whose buffers the collective unit still fills (R252)
deriving DecidableEq, Repr

/-! ### Power -/

/-- Device power state (R466 to R489). -/
structure Power where
  cgDelay  : Nat := 10
  pgDelay  : Nat := 1000
  pgEn     : Bool := true
  deepEn   : Bool := false
  brakeDiv : Nat := 2
  deepDelay : Nat := 100
  boardW   : Nat := 2000
  thermMw  : Nat := 2000000             -- P_therm in mW
  fixedMw  : Nat := 0                   -- P_fixed in mW
  paceEn   : Bool := true
  qLocal   : Nat := 1024
  qSlice   : Nat := 1024
  qHeld    : Bool := false              -- a q_slice is held (R472)
  qUsed    : Nat := 1024
  qNext    : Option Nat := none         -- a broadcast q, applied at the next tick (R471)
  missed   : Nat := 0
  demand   : Nat := 0
  round    : Nat := 0
  roundOpen : Bool := false
  paceKids : List (Nat × Bool × Nat × Nat × Nat) := []   -- held pacing combines: axis, from +A, round, q, demand
  paceOwn  : Option (Nat × Nat) := none
  throttleC : Nat := 100
  tripC    : Nat := 115
  tmax     : Nat := 0
  tmaxSensor : Nat := 0
  lock     : Bool := false
  overTrip : List Nat := []             -- sensors at or above TRIP_C at the last reading
  throttled : Bool := false
  thermtrip : Bool := false             -- THERMTRIP# asserted
  brake    : Bool := false              -- POWER_BRAKE# latched low
  deepIdle : Bool := false
  idleFrom : Nat := 0                   -- AO time since which the device may be IDLE (R466)
deriving DecidableEq, Repr

/-- An access of the host in a clock crossing whose far side has its clock stopped: the stopped cluster, the BAR0 offset, the bytes
that a read asks for (0: a write), and the AO time at which it completes (R481, R482). DESIGN CHOICE, log entry 78. -/
structure Crossing where
  domain   : Nat
  addr     : Nat
  bytes    : Nat
  deadline : Nat
deriving DecidableEq, Repr

/-- Regulators and crossings (R476, R482, R489). -/
structure Rails where
  enabled  : List Nat := []             -- rails enabled so far, in order
  good     : List Nat := []             -- rails that reported power good
  silent   : Tab Nat := []              -- consecutive reads without an answer, per rail
  mv       : Tab Nat := []
  da       : Tab Nat := []
  low      : List Nat := []             -- rails below their operating minimum
  flushed  : Nat := 0
  cdcTimeouts : Nat := 0
  crossing : List Crossing := []        -- accesses in flight to a stopped domain, oldest first (R481, R482)
deriving DecidableEq, Repr

/-! ### Management and security -/

/-- A pending PlatformEventMessage (R520). -/
structure PldmEvent where
  entry  : List Byte
  resent : Bool := false
deriving DecidableEq, Repr

/-- The management plane (17_management_and_life_ledger.md). -/
structure Mgmt where
  eid      : Nat := 0
  i3c      : Bool := false
  dynAddr  : Nat := 0
  dropped  : Nat := 0
  ledgerDropped : Nat := 0
  bucelDown : Bool := false             -- the controller restarts and answers nothing (R515)
  skipped  : Nat := 0
  periodUs : Nat := 10000
  nextPeriod : Option Nat := none       -- new PERIOD, in force after the next statement (R528)
  stmtSeq  : Nat := 0
  lastStmt : List Byte := []
  lastTaken : Nat := 0                  -- device time of the last statement
  takenAo  : Nat := 0                   -- AO time of the last statement
  lastDue  : Nat := 0                   -- device time at which the last periodic statement was due
  receiver : Bool := false
  receiverMask : Nat := 0
  pldmEvents : List PldmEvent := []
  updating : Option Nat := none         -- image class of the update in progress
  lifeS    : Nat := 0                   -- lifetime power-on seconds before this cold reset of the AO domain
  totals   : Tab Nat := []              -- cumulative totals of R537, by offset ÷ 8
deriving DecidableEq, Repr

/-- What statements and the ledger's histograms keep (R528, R531, R532, R538, R539): span counters and sums by the keys
of `Ops`, the values of the day, and the last temperature readings in 1/16 °C. -/
structure Telemetry where
  span     : Tab Nat := []
  day      : Tab Nat := []
  temps    : Tab Int := []
  prevMw   : Nat := 0                   -- device power of the last regulator read
  prevBusy : Nat := 0                   -- MXE_BUSY at the last regulator read
deriving DecidableEq, Repr

/-- The security block (18_security.md). -/
structure Security where
  fallback : Bool := false
  halt     : Bool := false              -- BOOT_HALT
  haltClass : Nat := 0
  debugEnd : Option Nat := none         -- AO time at which DEBUG ends, while it is in force
  maintEnd : Option Nat := none
  blocked  : Bool := false              -- IDENTITY_BLOCKED
  blockedLogged : Bool := false
  requireSigned : Bool := false
  minScrub : Nat := 0
  lock     : Bool := false
  ownerKey : Tab W64 := []
  slots    : Tab (List Byte) := []      -- measurement slots; an unlisted slot is 32 zero bytes
  unchecked : Bool := false             -- bit 0 of slot 9's qualifier (R551)
  nonce    : Option (List Byte × Nat) := none   -- challenge nonce and its expiry
  nextLeaf : Nat := 0
  leafEnd  : Nat := 0                   -- end of the reserved batch
  treeReady : Bool := true
  treeWait : List (Nat × List Byte) := []       -- signatures that wait for the next bottom tree
  phyRingBad : Bool := false
  booted   : Tab (List Byte) := []      -- headers of the copies that were active at the last cold boot (R546)
deriving DecidableEq, Repr

/-! ### Device -/

/-- Bring-up and position (R316 to R335, R568 to R579). DEDUCED, log entry 13. -/
structure Device where
  ready    : Bool := false
  stage    : Nat := 0
  stalled  : Bool := false
  scrubbing : Bool := false
  lastReset : Nat := 1
  readyMs  : Nat := 0
  resetAt  : Nat := 0                   -- AO time at which the last reset began
  position : Nat := 0
  posState : Nat := 1                   -- 0 PLACED, 1 NO_PLAN, 2 STRAP_FAULT, 3 MOVED
  strapBad : Bool := false              -- the strap reading is invalid (R317)
  badPin   : Nat := 0
  plan     : Option (List Byte) := none -- the plan in force
  refMissing : List Nat := []
  perst    : Bool := true               -- PERST# asserted
  warm     : Bool := false              -- a warm reset's retraining is under way (R573)
  prevDram : Option (List Nat × Nat × Bool) := none
  passInterrupted : Bool := false
  tally    : Nat × Nat × Nat := (0, 0, 0)   -- tile-queue entries, coins and crossing entries of a cold or warm reset (R505)
  lnkLock  : Bool := false              -- LNK_LOCK.LOCK (R312, R601)
  railFailed : Bool := false            -- a rail gave no power-good report: bring-up stays at stage 2 (R569)
  firstTrain : Option Nat := none       -- AO time of the device's first link training (R329)
  zeroed   : Bool := false              -- row 9 of R568 is done, or is not needed (R202, R573)
deriving DecidableEq, Repr

/-- The loaded job (R171 to R174, R454 to R457). -/
structure Job where
  loaded   : Bool := false
  id       : Nat := 0
  ctxAddr  : Nat := 0
  seed     : W64 := 0
  hash     : List Byte := []
  symbols  : List Byte := []
deriving DecidableEq, Repr

/-- What a pre-emption saves (R424, R456). DESIGN CHOICE, log entry 35. -/
structure SavedContext where
  job      : Job
  clusters : Tab Cluster
  hwm      : Tab Nat
  settle   : Settle
  decision : Decision
  vaults   : List Host.Cell
  vaultPoison : Tab Bool
  slice    : Slice
  cmd      : Option Desc
  point    : Nat
deriving DecidableEq, Repr

/-- The state of one S96, with the queue of commands that wait. -/
structure State where
  pending  : List Sys2Proof.Instr := []
  aoNs     : Nat := 0                   -- AO time in ns since the AO domain's cold reset
  devOff   : Int := 0                   -- device time minus AO time, ns
  free     : Nat := 0                   -- open values used so far (the model's own field, log entry 4)
  out      : List Out := []
  fuses    : Fuses := {}
  flash    : Tab FwClass := []
  ledger   : Ledger := {}
  dev      : Device := {}
  err      : Errors := {}
  host     : HostIf := {}
  job      : Job := {}
  saved    : Option SavedContext := none
  preempt  : Bool := false              -- PENDING of R456
  preempts : List Desc := []
  clusters : Tab Cluster := []
  cores    : Tab Core := []
  units    : Tab UnitWords := []
  hwm      : Tab Nat := []              -- high-water registers, 64 bits each (R55)
  mem      : Memory := {}
  dram     : Dram := {}
  settle   : Settle := {}
  dec      : Decision := {}
  col      : Collect := {}
  ports    : Tab Port := []
  time     : TimeBase := {}
  rtr      : Router := {}
  pwr      : Power := {}
  rails    : Rails := {}
  mgmt     : Mgmt := {}
  tel      : Telemetry := {}
  sec      : Security := {}
  latches  : Tab Nat := []              -- latched images of registers wider than 64 bits, by offset (R597)
deriving DecidableEq, Repr

/-- The machine right after reset: every field at its reset value, no command waiting. DESIGN CHOICE, log entry 2. DESIGN CHOICE, log entry 8. -/
def State.reset : State := {}

end Sys2Proof.Machine
end

