-- ==== Sys2Proof/Machine/Ops.lean ====
section
/-!
DEFINITION. The named reads and updates of the state's tables: clusters, cores, ports, rings, channels, unit words.
-/
set_option autoImplicit false
namespace Sys2Proof.Machine

/-- Cluster c. -/
def State.cluster (s : State) (c : Nat) : Cluster := tget s.clusters {} c
/-- Cluster c changed by f. -/
def State.modCluster (s : State) (c : Nat) (f : Cluster → Cluster) : State :=
  { s with clusters := tmod s.clusters {} c f }
/-- Every cluster changed by f. -/
def State.modClusters (s : State) (f : Nat → Cluster → Cluster) : State :=
  { s with clusters := tmods s.clusters {} (List.range 8) f }
/-- The sequencer of cluster c changed by f. -/
def State.modSeq (s : State) (c : Nat) (f : Sequencer → Sequencer) : State :=
  s.modCluster c (fun k => { k with seq := f k.seq })
/-- The clock of cluster c changed by f. -/
def State.modClock (s : State) (c : Nat) (f : ClockSt → ClockSt) : State :=
  s.modCluster c (fun k => { k with clock := f k.clock })
/-- The purse of cluster c changed by f. -/
def State.modPurse (s : State) (c : Nat) (f : Purse → Purse) : State :=
  s.modCluster c (fun k => { k with purse := f k.purse })

/-- Physical core p. -/
def State.core (s : State) (p : Nat) : Core := tget s.cores {} p
/-- Core p changed by f. -/
def State.modCore (s : State) (p : Nat) (f : Core → Core) : State := { s with cores := tmod s.cores {} p f }
/-- Physical cores of cluster c (R106). -/
def coresOf (c : Nat) : List Nat := (List.range 12).map (fun i => c * 12 + i)

/-- Port n. -/
def State.port (s : State) (n : Nat) : Port := tget s.ports {} n
/-- Port n changed by f. -/
def State.modPort (s : State) (n : Nat) (f : Port → Port) : State := { s with ports := tmod s.ports {} n f }
/-- The link layer of port n changed by f. -/
def State.modLink (s : State) (n : Nat) (f : Link → Link) : State := s.modPort n (fun p => { p with link := f p.link })
/-- The repair state of port n changed by f. -/
def State.modRep (s : State) (n : Nat) (f : Repair → Repair) : State := s.modPort n (fun p => { p with rep := f p.rep })
/-- The discovery state of port n changed by f. -/
def State.modDisc (s : State) (n : Nat) (f : Disc → Disc) : State := s.modPort n (fun p => { p with disc := f p.disc })

/-- Submission ring n. -/
def State.ring (s : State) (n : Nat) : Ring := tget s.host.rings {} n
/-- Submission ring n changed by f. -/
def State.modRing (s : State) (n : Nat) (f : Ring → Ring) : State :=
  { s with host := { s.host with rings := tmod s.host.rings {} n f } }
/-- The host interface changed by f. -/
def State.modHost (s : State) (f : HostIf → HostIf) : State := { s with host := f s.host }

/-- DRAM channel n. -/
def State.channel (s : State) (n : Nat) : Channel := tget s.dram.channels {} n
/-- DRAM channel n changed by f. -/
def State.modChannel (s : State) (n : Nat) (f : Channel → Channel) : State :=
  { s with dram := { s.dram with channels := tmod s.dram.channels {} n f } }

/-- The state words of the unit with code u (R445). -/
def State.unit (s : State) (u : Nat) : UnitWords := tget s.units {} u
/-- Those words changed by f. -/
def State.modUnit (s : State) (u : Nat) (f : UnitWords → UnitWords) : State :=
  { s with units := tmod s.units {} u f }

/-- The error scheme changed by f. -/
def State.modErr (s : State) (f : Errors → Errors) : State := { s with err := f s.err }
/-- The settlement coordinator changed by f. -/
def State.modSet (s : State) (f : Settle → Settle) : State := { s with settle := f s.settle }
/-- The decision state changed by f. -/
def State.modDec (s : State) (f : Decision → Decision) : State := { s with dec := f s.dec }
/-- The collective unit changed by f. -/
def State.modCol (s : State) (f : Collect → Collect) : State := { s with col := f s.col }
/-- The router changed by f. -/
def State.modRtr (s : State) (f : Router → Router) : State := { s with rtr := f s.rtr }
/-- The slice changed by f. -/
def State.modSlice (s : State) (f : Slice → Slice) : State := s.modRtr (fun r => { r with slice := f r.slice })
/-- The time base changed by f. -/
def State.modTime (s : State) (f : TimeBase → TimeBase) : State := { s with time := f s.time }
/-- Device power changed by f. -/
def State.modPwr (s : State) (f : Power → Power) : State := { s with pwr := f s.pwr }
/-- The management plane changed by f. -/
def State.modMgmt (s : State) (f : Mgmt → Mgmt) : State := { s with mgmt := f s.mgmt }
/-- The security block changed by f. -/
def State.modSec (s : State) (f : Security → Security) : State := { s with sec := f s.sec }
/-- Bring-up state changed by f. -/
def State.modDev (s : State) (f : Device → Device) : State := { s with dev := f s.dev }

/-- What leaves the device is appended (the model's own record, log entry 5). -/
def State.emit (s : State) (o : Out) : State := { s with out := s.out ++ [o] }
/-- Several outputs in order. DESIGN CHOICE, log entry 5. -/
def State.emits (s : State) (os : List Out) : State := { s with out := s.out ++ os }

/-! ### Telemetry keys and counters (R528, R531, R532, R537) -/

/-- Span counters of cluster c: 0 stretches, 1 ns waited in R468, 2 CCLK in RUN, 3 MXE_BUSY, 4 MXE_STALL, 5 WAIT,
6 overruns, 7 vault corrected, 8 hazards, 9 row-3 admissions, 10 smallest margin plus 1. -/
def ctClu (c k : Nat) : Nat := c * 16 + k
/-- Of rail r: 0 sum of mV, 1 readings, 2 smallest mV plus 1, 3 sum of 0.1 A, 4 transient, 5 silent. -/
def ctRail (r k : Nat) : Nat := 1000 + r * 8 + k
/-- Of lane l of port p: 0 corrected symbols, 1 uncorrectable codewords, 2 and 3 smallest openings plus 1. -/
def ctLane (p l k : Nat) : Nat := 2000 + (17 * p + l) * 8 + k
/-- Of port p: 0 replays, 1 late credits, 2 quarantine drops, 3 bad control frames. -/
def ctPort (p k : Nat) : Nat := 4000 + p * 8 + k
/-- Of DIMM n: 0 to 3 smallest margins plus 1, 4 corrected, 5 uncorrectable lines. -/
def ctDimm (n k : Nat) : Nat := 5000 + n * 8 + k
/-- Of the device: 0 sum of mW, 1 readings, 2 energy in µJ, 3 PCIe corrected, 4 missed rounds, 5 fabric corrected,
6 tile parity, 7 crossing timeouts, 8 detections lost. -/
def ctDev (k : Nat) : Nat := 6000 + k

/-- A span counter advances by n. -/
def State.span (s : State) (key n : Nat) : State := { s with tel := { s.tel with span := tmod s.tel.span 0 key (· + n) } }
/-- The smallest value seen in the span and in the day is kept, plus 1. -/
def minKeep (x v : Nat) : Nat := if x = 0 then v + 1 else min x (v + 1)
def State.spanMin (s : State) (key v : Nat) : State :=
  { s with tel := { s.tel with span := tmod s.tel.span 0 key (fun x => minKeep x v), day := tmod s.tel.day 0 key (fun x => minKeep x v) } }
/-- A value of the day advances by n (R538, R539). -/
def State.day (s : State) (key n : Nat) : State := { s with tel := { s.tel with day := tmod s.tel.day 0 key (· + n) } }
/-- Keys of the day's histograms in ms: bin b of Tmax, of the set point of cluster c, of device power, of utilisation; then the
sum of the set points of cluster c in mV, and the readings. -/
def dayTmax (b : Nat) : Nat := 10000 + b
def dayVolt (c b : Nat) : Nat := 10100 + 16 * c + b
def dayPower (b : Nat) : Nat := 10300 + b
def dayUse (b : Nat) : Nat := 10400 + b
def dayMv (c : Nat) : Nat := 10500 + c
def dayReads : Nat := 10600
/-- Bin of x among n bins of width w from lo; the end bins take what lies outside (R538). -/
def binOf (n lo w x : Nat) : Nat := min ((x - lo) / w) (n - 1)
/-- Lifetime total i of R537 advances by n. -/
def State.total (s : State) (i n : Nat) : State := { s with mgmt := { s.mgmt with totals := tmod s.mgmt.totals 0 i (· + n) } }

/-- What the slew in force has added to device time when AO time is x in units of 1/u ns, in 1/u ns · 10^9 (R305). -/
def TimeBase.slewed (t : TimeBase) (u x : Nat) : Int := t.slew * (Int.ofNat x - Int.ofNat (u * t.slewFrom)) + Int.ofNat u * t.slewRem

/-- Device time when AO time is x, both in units of 1/u ns (R303 to R305). -/
def State.timeAt (s : State) (u x : Nat) : Int := Int.ofNat x + Int.ofNat u * s.devOff + s.time.slewed u x / 1000000000

/-- Device time in ns (R8, R303). -/
def State.now (s : State) : Nat := (s.timeAt 1 s.aoNs).toNat

/-- Device time runs at rate `r` parts per 10^9 beside AO time from now on (R305). -/
def State.slewAt (s : State) (r : Int) : State :=
  let a := s.time.slewed 1 s.aoNs
  { s with devOff := s.devOff + a / 1000000000
           time := { s.time with slew := r, slewFrom := s.aoNs, slewRem := a % 1000000000 } }

/-- Lifetime power-on seconds (R534, R537). -/
def State.lifeNow (s : State) : Nat := s.mgmt.lifeS + s.aoNs / 1000000000

/-- AO time reaches t ns, if it has not yet. The time with a cluster in RUN, and under thermal throttle, is kept in ns
for COUNTERS (R537). DESIGN CHOICE, log entry 10. -/
def State.reach (s : State) (t : Nat) : State :=
  let d := t - s.aoNs
  let s := if (List.range 8).any (fun c => (tget s.clusters {} c).clock.cstate == 0) then s.total 4 d else s
  let s := if s.pwr.throttled then s.total 6 d else s
  { s with aoNs := max s.aoNs t }

/-- What a command answers. -/
abbrev Result := Host.Outcome State Fault Refusal

/-- f applied in turn for each element. -/
def State.each {α : Type} (s : State) (l : List α) (f : State → α → State) : State := l.foldl f s

/-- A fresh open value below 2^w, and the state that has used it (log entry 4). -/
def State.fresh (s : State) (w : Nat) : Nat × State := (Config.freeValue s.free % 2 ^ w, { s with free := s.free + 1 })

end Sys2Proof.Machine
end

