-- ==== Sys2Proof/Machine/Mem.lean ====
section
/-!
DEFINITION. Memory: the local address map (R193 to R195), the channel interleave (R199), reads and writes of bytes
and of poison (R186, R200, R211, R212).
-/
set_option autoImplicit false
namespace Sys2Proof.Machine

/-! ### Bytes and poison of one memory -/

/-- The canonical form of a memory: rising addresses and units, no entry at its default. -/
def Memory.wf (m : Memory) : Bool := tabWf (0 : Byte) m.cells && tabWf false m.poison && tabWf 0 m.minted

/-- One byte (unlisted bytes read 0). -/
def Memory.byte (m : Memory) (a : Nat) : Byte := tget m.cells 0 a

/-- Whether the 64-byte unit that holds address a is poisoned. -/
def Memory.poisoned (m : Memory) (a : Nat) : Bool := tget m.poison false (a / 64)

/-- n bytes from address a on. -/
def Memory.bytes (m : Memory) (a n : Nat) : List Byte := (List.range n).map (fun i => m.byte (a + i))

/-- Listed bytes stored from address a on. -/
def cellsPut (c : List Host.Cell) (a : Nat) : List Byte → List Host.Cell
  | [] => c
  | b :: bs => cellsPut (tset c 0 a b) (a + 1) bs

/-- Numbers of the 64-byte units that n bytes from a touch. -/
def unitsOf (a n : Nat) : List Nat :=
  if n = 0 then [] else (List.range ((a + n - 1) / 64 + 1 - a / 64)).map (· + a / 64)

/-- The poison bit of unit u after a write of n bytes at a: a full write gives the source's poison, a shorter one
leaves a poisoned unit poisoned (R212). -/
def poisonAfter (old src : Bool) (a n u : Nat) : Bool :=
  if a ≤ u * 64 ∧ u * 64 + 64 ≤ a + n then src else old || src

/-- A write of bytes, with the poison of each unit of the source by address (R186, R212). -/
def Memory.store (m : Memory) (a : Nat) (bs : List Byte) (src : Nat → Bool := fun _ => false) : Memory :=
  { cells := cellsPut m.cells a bs
    minted := m.minted.filter (fun x => !(unitsOf a bs.length).contains x.1)
    poison := (unitsOf a bs.length).foldl (fun p u => tset p false u (poisonAfter (tget p false u) (src u) a bs.length u)) m.poison }

/-- The unit that holds a, marked poisoned with its stored data kept (R190, R207, R209). -/
def Memory.mark (m : Memory) (a : Nat) : Memory :=
  { m with poison := tset m.poison false (a / 64) true, minted := tdel m.minted (a / 64) }

/-- Listed bytes and poison of [lo, hi) taken away, so that the range reads zero with valid check bits (R202). -/
def Memory.zero (m : Memory) (lo hi : Nat) : Memory :=
  { cells := m.cells.filter (fun c => !(decide (lo ≤ c.1) && decide (c.1 < hi)))
    poison := m.poison.filter (fun c => !(decide (lo ≤ c.1 * 64) && decide (c.1 * 64 < hi)))
    minted := m.minted.filter (fun c => !(decide (lo ≤ c.1 * 64) && decide (c.1 * 64 < hi))) }

/-! ### The local address map (R193) -/

/-- Where DRAM ends in the decode window. -/
def dramWindow : Nat := 0x080000000000
def clusterVaultBase : Nat := 0x800000000000
def clusterVaultSize : Nat := 0x01000000
def coreVaultBase : Nat := 0x800010000000
def coreVaultSlot : Nat := 0x00400000
def coreVaultSize : Nat := 0x00300000
def ownClusterBase : Nat := 0x800040000000
def ownCoreBase : Nat := 0x800041000000
def deviceRegBase : Nat := 0xFF0000000000

/-- What an address range reaches (R193, R195). -/
inductive Region where
  | dram
  | clusterVault (c : Nat)
  | coreVault (p : Nat)
  | other
deriving DecidableEq, Repr

/-- Bytes of one module of the interleave (R196). -/
def Dram.moduleBytes (d : Dram) : Nat :=
  if d.moduleGb = 64 then 2 ^ 36 else if d.moduleGb = 128 then 2 ^ 37 else if d.moduleGb = 256 then 2 ^ 38 else 0

/-- DRAM_TOP (R199). -/
def Dram.top (d : Dram) : Nat := d.used.length * d.moduleBytes

/-- The region that holds all of [a, a + n), aliases not resolved (R195). -/
def regionOf (top a n : Nat) : Region :=
  if a + n ≤ top ∧ a < dramWindow then .dram
  else if clusterVaultBase ≤ a ∧ a + n ≤ clusterVaultBase + 8 * clusterVaultSize ∧
      (a - clusterVaultBase) % clusterVaultSize + n ≤ clusterVaultSize then
    .clusterVault ((a - clusterVaultBase) / clusterVaultSize)
  else if coreVaultBase ≤ a ∧ a + n ≤ coreVaultBase + 96 * coreVaultSlot ∧
      (a - coreVaultBase) % coreVaultSlot + n ≤ coreVaultSize then
    .coreVault ((a - coreVaultBase) / coreVaultSlot)
  else .other

/-- The physical address of the vault byte that an alias of core P in cluster c names; any other address is
itself (R194). -/
def aliasOf (c : Nat) (core : Option Nat) (a : Nat) : Nat :=
  if ownClusterBase ≤ a ∧ a < ownClusterBase + clusterVaultSize then
    clusterVaultBase + c * clusterVaultSize + (a - ownClusterBase)
  else match core with
    | some p => if ownCoreBase ≤ a ∧ a < ownCoreBase + coreVaultSize then
        coreVaultBase + p * coreVaultSlot + (a - ownCoreBase) else a
    | none => a

/-! ### The interleave (R199) -/

/-- Channel and byte offset within the module of a DRAM address (R199). -/
def Dram.locate (d : Dram) (a : Nat) : Nat × Nat :=
  let u := a / 4096
  let nc := d.used.length
  ((d.used[u % nc]?).getD 0, (u / nc) * 4096 + a % 4096)

/-- Whether the channel that owns DRAM address a is LOST (R200). -/
def State.lostAt (s : State) (a : Nat) : Bool :=
  decide (a < dramWindow) && ((tget s.dram.channels {} (s.dram.locate a).1).st == 3)

/-- One byte at a local physical address: a unit of a lost channel reads zero (R200). -/
def State.byteAt (s : State) (a : Nat) : Byte := if s.lostAt a then 0 else s.mem.byte a

/-- Poison of the unit that holds a: a unit of a lost channel is poisoned (R200). -/
def State.poisonAt (s : State) (a : Nat) : Bool := s.lostAt a || s.mem.poisoned a

/-- n bytes at local physical address a (R186). -/
def State.readMem (s : State) (a n : Nat) : List Byte := (List.range n).map (fun i => s.byteAt (a + i))

/-- Whether any unit of [a, a + n) is poisoned. -/
def State.poisonIn (s : State) (a n : Nat) : Bool := (unitsOf a n).any (fun u => s.poisonAt (u * 64))

/-- Poison of each unit of [a, a + n), in unit order. -/
def State.poisonList (s : State) (a n : Nat) : List Bool := (unitsOf a n).map (fun u => s.poisonAt (u * 64))

/-- The 64-byte pieces of a write: address, bytes. -/
def pieces (a : Nat) (bs : List Byte) : List (Nat × List Byte) :=
  (unitsOf a bs.length).map (fun u =>
    let lo := max a (u * 64)
    (lo, (bs.drop (lo - a)).take (u * 64 + 64 - lo)))

/-- One piece of a write, dropped and counted where its channel is LOST (R200). -/
def State.storePiece (s : State) (p : Nat × List Byte) (src : Nat → Bool) : State :=
  if s.lostAt p.1 then
    s.modChannel (s.dram.locate p.1).1 (fun c => { c with dropped := satAdd 0xFFFF c.dropped 1 })
  else { s with mem := s.mem.store p.1 p.2 src }

/-- A write at a local physical address; `src` gives the poison of each unit written, by unit number (R186, R200,
R212). -/
def State.writeMem (s : State) (a : Nat) (bs : List Byte) (src : Nat → Bool := fun _ => false) : State :=
  (pieces a bs).foldl (fun s p => s.storePiece p src) s

/-- Poison by unit number, from a list that starts at the unit of a. -/
def poisonFrom (a : Nat) (l : List Bool) : Nat → Bool := fun u => (l[u - a / 64]?).getD false

/-- A copy of n bytes within the device, with the poison of every source unit that a destination unit takes data
from (R18, R444). Ranges are multiples of 64 apart in this model's uses. -/
def State.copyMem (s : State) (src dst n : Nat) : State :=
  let ps := s.poisonList src n
  s.writeMem dst (s.readMem src n) (poisonFrom dst ps)

end Sys2Proof.Machine
end

