-- ==== Sys2Proof/Machine/Convert.lean ====
section
/-!
DEFINITION. Expansion of stored elements to F32 and the converter (R42 to R56): block scales, rounding, high-water
registers, and the element arrays in memory (R606).
-/
set_option autoImplicit false
namespace Sys2Proof.Machine

/-- The value of an element under a block scale code, tensor scale apart; a scale of 0xFF makes it NaN (R44, R48). -/
def scaledVal (f : Format) (scale : Option Nat) (code : Nat) : Val × Flags :=
  match scale with
  | none => decodeElem f code
  | some e => if e = 0xFF then (.nan, {}) else
      let d := decodeElem f code
      (d.1.scale (Int.ofNat e - 127), d.2)

/-- Expansion of a stored element to F32 (R49). -/
def expand (f : Format) (scale : Option Nat) (t : W32) (code : Nat) : FV :=
  let d := scaledVal f scale code
  FV.round d.2 (d.1.mul (f32Val t).1)

/-- Block size of a block-size code (R98). -/
def blkSize (c : Nat) : Nat := match c with | 1 => 16 | 2 => 32 | 3 => 64 | 4 => 128 | _ => 0

/-- What the converter writes for one block: scale code, element codes and flags. -/
structure BlockOut where
  scale : Nat := 0
  codes : List Nat := []
  fl    : Flags := {}
deriving DecidableEq, Repr

/-- The union of the flags of a list. -/
def flagsOf (l : List Flags) : Flags := l.foldl Flags.or {}

/-- Formats for which stochastic rounding is honoured (R57). -/
def Format.stochastic : Format → Bool
  | .b16 | .h16 | .e4m3 | .e5m2 => true
  | _ => false

/-- The scale parameter s of a block, and whether it was clamped (R51, R53). -/
def blockScale (f : Format) (us : List Val) : Int × Bool :=
  if us.any Val.isInf then (127, true)
  else
    let es := us.filterMap (fun u => match u with | .fin _ m e => if m = 0 then none else some (magExp m e) | _ => none)
    match es with
    | [] => (-127, false)
    | e :: r =>
      let s0 := r.foldl max e - f.emax
      let s := max (-127) (min 127 s0)
      (s, decide (s ≠ s0))

/-- `convert_block` of R53: F32 inputs, element format, whether blocks carry scales, tensor scale, and the random
integer of each position when rounding is stochastic (R57, R59). -/
def convertBlock (f : Format) (blocked : Bool) (t : W32) (rand : Nat → Option Nat) (vs : List W32) : BlockOut :=
  let us := vs.map (fun v => FV.div (FV.of v) (FV.of t))
  let fl0 := flagsOf (us.map (·.fl))
  let r (i : Nat) : Option Nat := if f.stochastic then rand i else none
  let idx := us.zip (List.range us.length)
  if !blocked then
    let o := idx.map (fun x => roundElem f x.1.val (r x.2) false)
    { codes := o.map (·.1), fl := fl0.or (flagsOf (o.map (·.2))) }
  else if f = .e2m1 ∧ us.any (·.val.isNaN) then
    { scale := 0xFF, codes := us.map (fun _ => 0), fl := fl0.or flINV }
  else
    let (s, clamped) := blockScale f (us.map (·.val))
    let o := idx.map (fun x => roundElem f (x.1.val.scale (-s)) (r x.2) clamped)
    { scale := (s + 127).toNat, codes := o.map (·.1), fl := fl0.or (flagsOf (o.map (·.2))) }

/-! ### High-water registers (R55, R56) -/

/-- A register after a conversion of the values vs: AMAX in [31:0], NONFINITE in [32], WRITTEN in [33]. -/
def hwmUpdate (h : Nat) (vs : List W32) : Nat :=
  let mags := vs.filterMap (fun v => match (f32Val v).1 with
    | .fin _ m _ => some (if m = 0 then 0 else (v &&& 0x7FFFFFFF#32).toNat)
    | _ => none)
  let amax := mags.foldl max (fld h 0 32)
  let nf := bit h 32 || vs.any (fun v => !(f32Val v).1.isFinite)
  amax + bnum nf 32 + bnum (bit h 33 || !vs.isEmpty) 33

/-! ### Element arrays (R42, R606) -/

/-- Bytes that n elements of a row take (R42, R606). -/
def Format.rowBytes (f : Format) (n : Nat) : Nat := (n * f.bits + 7) / 8

/-- Address of the byte where element j of a row starts (R42). -/
def Format.elemAddr (f : Format) (row j : Nat) : Nat := row + j * f.bits / 8

/-- The code of element j of the row at address `row`. -/
def State.elem (s : State) (f : Format) (row j : Nat) : Nat :=
  let a := f.elemAddr row j
  if f.bits = 4 then fld (s.byteAt a).toNat (4 * (j % 2)) 4 else leNat (s.readMem a (f.bits / 8))

/-- The bytes of a row of element codes; two E2M1 elements to a byte (R42). -/
def packCodes (f : Format) : List Nat → List Byte
  | [] => []
  | [x] => if f.bits = 4 then leBytes 1 (x % 16) else leBytes (f.bits / 8) x
  | x :: y :: r =>
    if f.bits = 4 then leBytes 1 (x % 16 + 16 * (y % 16)) ++ packCodes f r
    else leBytes (f.bits / 8) x ++ leBytes (f.bits / 8) y ++ packCodes f r

end Sys2Proof.Machine
end

