-- ==== Sys2Proof/Machine/Hash.lean ====
section
/-!
DEFINITION. SHA-256, and the CRCs of the link and packet layers (R284, R337, R340).
-/
set_option autoImplicit false
namespace Sys2Proof.Machine

/-! ### SHA-256

The hash that the manual names in R521 to R555. It is written as two recurrences: each round makes one new word of the
first working sequence and one of the second, and the eight working variables are the last four words of each. -/

/-- The n-th root (n = 2 or 3) of x, by bits from bit b downward. -/
def rootFrom (n x : Nat) : Nat → Nat → Nat
  | 0, r => r
  | b + 1, r => rootFrom n x b (if (r + 2 ^ b) ^ n ≤ x then r + 2 ^ b else r)

/-- The first 32 fraction bits of the n-th root of p: SHA-256 takes its constants so from the first primes. -/
def rootBits (n p : Nat) : W32 := BitVec.ofNat 32 (rootFrom n (p * 2 ^ (32 * n)) 37 0)

/-- The primes below 312, of which there are 64. -/
def primes64 : List Nat :=
  (List.range 312).filter (fun p => decide (2 ≤ p) && (List.range 18).all (fun d => decide (d < 2 ∨ p ≤ d) || p % d != 0))

/-- x rotated right by each of the amounts, all XORed together. -/
def rotXor (x : W32) (amounts : List Nat) : W32 := amounts.foldl (fun (a : W32) n => a ^^^ x.rotateRight n) 0

/-- Word number t of a list that is held newest first and whose newest word has number n. -/
def backWord (l : List W32) (k : Nat) : W32 := l.getD k 0

/-- The message schedule, newest word first: m words more. -/
def schedule (m : Nat) (words : List W32) : List W32 :=
  (List.range m).foldl (fun (l : List W32) _ =>
    let x := backWord l 14
    let y := backWord l 1
    (backWord l 15 + (rotXor x [7, 18] ^^^ (x >>> 3)) + backWord l 6 + (rotXor y [17, 19] ^^^ (y >>> 10))) :: l) words

/-- One round on the two working sequences, newest word first, with the round's constant plus its schedule word. -/
def hashRound (v : List W32 × List W32) (kw : W32) : List W32 × List W32 :=
  let p := backWord v.1
  let q := backWord v.2
  let choose := (q 0 &&& q 1) ||| (~~~ (q 0) &&& q 2)
  let common := (p 0 &&& (p 1 ||| p 2)) ||| (p 1 &&& p 2)
  let t := q 3 + rotXor (q 0) [6, 11, 25] + choose + kw
  ((t + rotXor (p 0) [2, 13, 22] + common) :: v.1, (p 3 + t) :: v.2)

/-- The 32-bit words of a block, first byte most significant. -/
def blockWords (bs : List Byte) : List W32 :=
  (List.range 16).map (fun i => BitVec.ofNat 32 (leNat ((bs.drop (4 * i)).take 4).reverse))

/-- The chaining value after one 64-byte block. -/
def hashBlock (ks : List W32) (h : List W32) (block : List Byte) : List W32 :=
  let w := (schedule 48 (blockWords block).reverse).reverse
  let kw := List.zipWith (fun (k x : W32) => k + x) ks w
  let v := kw.foldl hashRound (h.take 4, h.drop 4)
  List.zipWith (fun (x y : W32) => x + y) h (v.1.take 4 ++ v.2.take 4)

/-- A message with the bit 1, zeros to a whole number of blocks, and its length in bits as the last eight bytes. -/
def hashPad (bs : List Byte) : List Byte :=
  let n := bs.length
  padTo (roundUp 64 (n + 9) - 8) (bs ++ [0x80]) ++ (leBytes 8 (8 * n)).reverse

/-- SHA-256 of a byte list: 32 bytes. -/
def sha256 (bs : List Byte) : List Byte :=
  let p := hashPad bs
  let ks := primes64.map (rootBits 3)
  let h := (List.range (p.length / 64)).foldl (fun (h : List W32) i => hashBlock ks h ((p.drop (64 * i)).take 64))
    ((primes64.take 8).map (rootBits 2))
  (h.map (fun (w : W32) => (leBytes 4 w.toNat).reverse)).flatten

/-- One bit of a CRC, most significant bit first, with polynomial poly of width w. -/
def crcStep (w poly : Nat) (crc : Nat) (b : Bool) : Nat :=
  let top := bit crc (w - 1) != b
  let c := (crc <<< 1) % 2 ^ w
  if top then c ^^^ poly else c

/-- CRC-8, polynomial 0x07, initial value 0x00, over bytes taken most significant bit first (R284, R337). -/
def crc8 (bs : List Byte) : Nat :=
  bs.foldl (fun c b => [7, 6, 5, 4, 3, 2, 1, 0].foldl (fun c i => crcStep 8 0x07 c (bit b.toNat i)) c) 0

/-- One bit of the reflected CRC-32C. -/
def crc32cBit (c : W32) : W32 := if bit c.toNat 0 then (c >>> 1) ^^^ 0x82F63B78#32 else c >>> 1

/-- CRC-32C (Castagnoli, as RFC 3720 uses it; R340). -/
def crc32c (bs : List Byte) : W32 :=
  ~~~ (bs.foldl (fun c b =>
    (List.range 8).foldl (fun c _ => crc32cBit c) (c ^^^ (b.zeroExtend 32))) 0xFFFFFFFF#32)

end Sys2Proof.Machine
end

