-- ==== Sys2Proof/Machine/Topology.lean ====
section
/-!
DEFINITION. Coordinates, the plan in force, planned neighbours, slices and their shapes (R9, R279, R316, R318, R322,
R355, R356), and the next hop of a route (R343 to R345, R362).
-/
set_option autoImplicit false
namespace Sys2Proof.Machine

/-- Axis a (0 W to 3 Z) of a coordinate. -/
def Coord.axis (c : Coord) (a : Nat) : Nat :=
  match a with | 0 => c.w | 1 => c.x | 2 => c.y | _ => c.z
/-- The coordinate with axis a set to v. -/
def Coord.setAxis (c : Coord) (a v : Nat) : Coord :=
  match a with | 0 => { c with w := v } | 1 => { c with x := v } | 2 => { c with y := v } | _ => { c with z := v }
/-- A coordinate from a position word, W in [5:0] (R316). -/
def Coord.ofNat (x : Nat) : Coord := ⟨fld x 0 6, fld x 6 6, fld x 12 6, fld x 18 6⟩
/-- The position word's coordinate bits (R316). -/
def Coord.toNat (c : Coord) : Nat := c.w % 64 + (c.x % 64) * 2 ^ 6 + (c.y % 64) * 2 ^ 12 + (c.z % 64) * 2 ^ 18

/-- The axis of a port: ports 0 and 1 are ±W, to 6 and 7 ±Z (R279). -/
def portAxis (p : Nat) : Nat := p / 2
/-- Whether a port faces the + direction of its axis. -/
def portPlus (p : Nat) : Bool := p % 2 == 0
/-- The opposite port of the same axis. -/
def portOpp (p : Nat) : Nat := if p % 2 = 0 then p + 1 else p - 1
/-- The port of an axis and direction. -/
def portOf (a : Nat) (plus : Bool) : Nat := 2 * a + (if plus then 0 else 1)

/-! ### The plan (R318) -/

/-- Axis length of the plan in force; 1 without a plan. -/
def State.len (s : State) (a : Nat) : Nat :=
  match s.dev.plan with | some p => leAt p a 1 | none => 1
/-- Whether the plan in force wraps axis a. -/
def State.wraps (s : State) (a : Nat) : Bool :=
  match s.dev.plan with | some p => bit (leAt p 4 1) a | none => false
/-- The plan hash, SHA-256 of bytes 0 to 31; all zero under NO_PLAN (R318, R323). -/
def planHash (p : Option (List Byte)) : List Byte :=
  match p with | some p => sha256 (padTo 32 p) | none => List.replicate 32 0
/-- The device's own coordinate (R316). -/
def State.here (s : State) : Coord := Coord.ofNat s.dev.position
/-- Whether the position state is PLACED (R321). -/
def State.placed (s : State) : Bool := s.dev.posState == 0

/-- The coordinate one hop from c along axis a: modulo the axis length where the axis wraps, and else only inside it (R322). -/
def hop (c : Coord) (a len : Nat) (wrap plus : Bool) : Option Coord :=
  let v : Int := Int.ofNat (c.axis a) + (if plus then 1 else -1)
  if len ≤ 1 then none
  else if wrap then some (c.setAxis a (v % Int.ofNat len).toNat)
  else if 0 ≤ v ∧ v < Int.ofNat len then some (c.setAxis a v.toNat)
  else none

/-- The planned neighbour on a port (R322). -/
def State.neighbour (s : State) (p : Nat) : Option Coord :=
  match s.dev.plan with
  | none => none
  | some _ => hop s.here (portAxis p) (s.len (portAxis p)) (s.wraps (portAxis p)) (portPlus p)

/-- Whether the port is ACTIVE (R325). -/
def State.active (s : State) (p : Nat) : Bool := (s.port p).disc.st == .active

/-! ### Slices (R355, R356) -/

/-- Whether axis a of the slice is a ring (R355). -/
def State.sliceRing (s : State) (a : Nat) : Bool :=
  s.rtr.slice.extent.axis a == s.len a && s.wraps a

/-- Position of coordinate v on slice axis a, counted from the origin modulo the axis length. -/
def State.slicePos (s : State) (a v : Nat) : Nat :=
  (v + s.len a - s.rtr.slice.origin.axis a % s.len a) % s.len a

/-- Whether the slice in force exists. -/
def State.hasSlice (s : State) : Bool := s.rtr.slice.st != 0

/-- Whether a coordinate lies in the slice in force. -/
def State.inSlice (s : State) (c : Coord) : Bool :=
  s.hasSlice && (List.range 4).all (fun a => decide (s.slicePos a (c.axis a) < s.rtr.slice.extent.axis a) &&
    decide (c.axis a < s.len a))

/-- Whether port p faces another member of the slice along a slice axis (R356). -/
def State.sliceLink (s : State) (p : Nat) : Bool :=
  let a := portAxis p
  s.hasSlice && decide (1 < s.rtr.slice.extent.axis a) &&
    (match s.neighbour p with
     | some n => s.inSlice n &&
        (s.sliceRing a ||
          (if portPlus p then decide (s.slicePos a (s.here.axis a) + 1 = s.slicePos a (n.axis a))
           else decide (s.slicePos a (n.axis a) + 1 = s.slicePos a (s.here.axis a))))
     | none => false)

/-- Ports that are slice links. -/
def State.sliceLinks (s : State) : List Nat := (List.range 8).filter s.sliceLink

/-! ### Routing (R343 to R345) -/

/-- Direction on axis a from c to d: the shorter way on a ring, a tie to +; straight on a line, with positions
counted from `base` (R344). -/
def goPlus (ring : Bool) (len base c d : Nat) : Bool :=
  if ring then decide ((d + len - c) % len ≤ (c + len - d) % len)
  else decide ((c + len - base) % len < (d + len - base) % len)

/-- The axis on which a route from c to d goes first (R343 step 4). -/
def firstAxis (c d : Coord) : Nat := ((List.range 4).find? (fun a => c.axis a != d.axis a)).getD 0

/-- Output port and VC of a packet without a detour entry; `from?` is the port and VC on which it arrived
(R343 to R345). -/
def State.plainHop (s : State) (p : Packet) (arrived : Option (Nat × Nat)) : Nat × Nat :=
  let a := firstAxis s.here p.dest
  let inSl := p.channel != 0 && s.inSlice p.src && s.inSlice p.dest
  let ring := if inSl then s.sliceRing a else s.wraps a
  let base := if inSl then s.rtr.slice.origin.axis a else 0
  let port := match arrived with
    | some (q, _) => if portAxis q = a then portOpp q else portOf a (goPlus ring (s.len a) base (s.here.axis a) (p.dest.axis a))
    | none => portOf a (goPlus ring (s.len a) base (s.here.axis a) (p.dest.axis a))
  let crosses := s.wraps a &&
    (if portPlus port then s.here.axis a == s.len a - 1 else s.here.axis a == 0)
  let vc := if crosses then 1 else match arrived with
    | some (q, v) => if portAxis q = a then v else 0
    | none => 0
  (port, vc)

/-- The lowest matching detour entry of table t (R367): its port and VC. -/
def State.detour (s : State) (t : Nat) (p : Packet) : Option (Nat × Nat) :=
  ((List.range 16).map (fun e => tget s.rtr.detours 0 (16 * t + e))).findSome? (fun x =>
    if bit x 0 && bit x (8 + p.channel) &&
       (p.dest.toNat &&& fld x 40 24) == (fld x 16 24 &&& fld x 40 24) then
      some (fld x 1 3, fld x 4 1) else none)

/-- Output port and VC of a packet that is neither LOCAL nor for this device (R343 steps 3 and 4). -/
def State.nextHop (s : State) (p : Packet) (arrived : Option (Nat × Nat)) : Nat × Nat :=
  match s.detour (match arrived with | some (q, _) => q | none => 8) p with
  | some h => h
  | none => s.plainHop p arrived

end Sys2Proof.Machine
end

