-- ==== Sys2Proof/Machine/Events.lean ====
section
/-!
DEFINITION. What every detection does (16_errors_and_day_book.md): class codes, severities, the Day Book, the event
ring, interrupts, PLDM events, the Life Ledger's appends and the error record.
-/
set_option autoImplicit false
namespace Sys2Proof.Machine

/-! ### Codes -/

/-- The class groups of R504, R541, R562 and R581: base, and classes in code order. -/
def classGroups : List (Nat × List EventClass) :=
  [(0x0100, [.programNote, .ringIndexFault, .malformed, .denied, .unitAbsent, .stateMismatch, .hazard, .addressFault,
      .hostAddrFault, .hostPoisonRead, .hostLinkCorrected, .hostLinkUncorrected, .preemptNoContext]),
   (0x0200, [.vaultCorrected, .vaultUncorrected, .vaultBankSpared, .vaultSpareExhausted, .dimmMismatch, .dramDegraded,
      .dramCorrected, .dramUncorrected, .dramErasure, .dramChannelLost, .dramTrackFail, .dramMarginLow, .pprApplied,
      .pprExhausted, .remoteAddrFault]),
   (0x0300, [.settleLandingDropped, .settlePoisoned, .settleRecordMismatch, .settleResultNonfinite, .settleHostWrite,
      .settleStatementFailed, .settleAbortedNonfinite, .stepSkew, .guardPolicySkew, .gradNonfiniteSkipped, .dormant,
      .lossSpike, .lossSpikeReseed, .lossSampleInvalid, .settleEngineFault]),
   (0x0400, [.linkTrainFail, .linkPartnerLost, .linkReplayExhausted, .linkLaneSpared, .linkWidthDegraded,
      .linkMarginLow, .timeLocked, .timeHoldover, .timeSet]),
   (0x0500, [.strapInvalid, .planMissing, .planStrapMismatch, .portQuarantine, .portActive, .gnoemVersionNegotiated,
      .gnoemFwDiffers, .partnerMissing, .partnerReturned, .pktMalformed, .pktFailedDropped, .pktFailedPoisoned,
      .routeNoPort, .routeStall, .routeTableRefused, .sliceFence, .fabricMemCorrected, .fabricMemUncorrected,
      .collectiveFault]),
   (0x0600, [.coinOverflow, .coinWaitTimeout, .coinReplyLate, .coinDroppedReset, .coinDroppedPreempt]),
   (0x0700, [.thermalThrottle, .thermalTrip, .powerBrake, .paceRoundMissed, .regulatorSilent, .avsFail, .cdcTimeout,
      .railTransient, .railFault]),
   (0x0800, [.reset, .doubleFault, .injectDenied, .coreWatchdog, .seqWatchdog, .tileParity, .seqMemCorrected,
      .seqMemUncorrected, .bucelRestart, .securityAlarm, .ledgerWriteRetry]),
   (0x0900, [.ledgerFull, .ledgerTorn, .ledgerChainBroken, .permissionSet, .powerLimitSet, .fwUpdateActivated,
      .fwUpdateFailed]),
   (0x0A00, [.bootFallback, .rollbackFuseBlown, .egiSignatureRejected, .tokenRejected, .debugUnlocked,
      .maintenanceEntered, .maintenanceLeft, .identityBlocked]),
   (0x0B00, [.deviceReady, .refclkMissing, .railEnableFail, .dramTrainFail, .dramRelayout])]

/-- The code of a class (R504). -/
def EventClass.code (c : EventClass) : Nat :=
  (classGroups.findSome? (fun g => (g.2.idxOf? c).map (fun i => g.1 + i + 1))).getD 0

/-- Severity codes (R491). -/
def Severity.code : Severity → Nat
  | .info => 0 | .corrected => 1 | .deferred => 2 | .contained => 3 | .fatal => 4
/-- The more serious of two severities. -/
def Severity.max (a b : Severity) : Severity := if a.code < b.code then b else a

/-- Status codes (R451). -/
def Status.code : Status → Nat
  | .ok => 0 | .unitAbsent => 1 | .lcbFormatMismatch => 2 | .hazard => 3 | .waitTimeout => 4 | .voidCoin => 5
  | .linkAbsent => 6 | .sliceDegraded => 7 | .stepSkew => 8 | .settleAbortedNonfinite => 9 | .frozenSkipped => 10
  | .stateMismatch => 11 | .poisoned => 12 | .cdcTimeout => 13 | .preempted => 14 | .denied => 15 | .malformed => 16
/-- The status with a code; codes above 0x10 are MALFORMED (R451). -/
def Status.ofCode (n : Nat) : Status :=
  (([.ok, .unitAbsent, .lcbFormatMismatch, .hazard, .waitTimeout, .voidCoin, .linkAbsent, .sliceDegraded, .stepSkew,
    .settleAbortedNonfinite, .frozenSkipped, .stateMismatch, .poisoned, .cdcTimeout, .preempted, .denied,
    .malformed] : List Status)[n]?).getD .malformed

/-- Unit kinds of R445. -/
def UnitKind.code : UnitKind → Nat
  | .core => 0 | .array => 1 | .cluster => 2 | .ddr => 3 | .engine => 4 | .port => 5
/-- A unit's 16-bit name (R445). -/
def UnitName.code (u : UnitName) : Nat := u.kind.code * 256 + u.index
/-- How many units a kind has (R445). -/
def UnitKind.count : UnitKind → Nat
  | .core => 96 | .array => 96 | .cluster => 8 | .ddr => 24 | .engine => 24 | .port => 8
/-- The unit that 16 bits name, if its kind and index exist (R445); other bits are reserved. -/
def unitOf (x : Nat) : Option UnitName :=
  let k? : Option UnitKind := match fld x 8 3 with
    | 0 => some .core | 1 => some .array | 2 => some .cluster | 3 => some .ddr | 4 => some .engine | 5 => some .port
    | _ => none
  k?.bind (fun k => if fld x 0 8 < k.count then some ⟨k, fld x 0 8⟩ else none)

/-- SOURCE of a core, cluster, channel, engine and port (R445, R502). -/
def srcCore (p : Nat) : Nat := p
def srcCluster (c : Nat) : Nat := 2 * 256 + c
def srcDdr (n : Nat) : Nat := 3 * 256 + n
def srcEngine (n : Nat) : Nat := 4 * 256 + n
def srcPort (n : Nat) : Nat := 5 * 256 + n
/-- SOURCE of a device block: 0 router to 7 AO domain (R502). DESIGN CHOICE, log entry 38. -/
def srcBlock (n : Nat) : Nat := 6 * 256 + n
/-- SOURCE of a supply rail (R502, R586). -/
def srcRail (n : Nat) : Nat := 7 * 256 + n

/-- The severity that the catalogue gives a class reported from a source; INFO where it lists none (R493, R499). -/
def severityOf (c : EventClass) (source : Nat) : Severity :=
  match c with
  | .dramCorrected | .dramErasure | .vaultCorrected | .vaultBankSpared | .seqMemCorrected | .fabricMemCorrected
  | .linkLaneSpared | .linkWidthDegraded | .railTransient | .hostLinkCorrected | .ledgerWriteRetry => .corrected
  | .dramUncorrected | .vaultUncorrected | .tileParity | .fabricMemUncorrected | .collectiveFault
  | .linkReplayExhausted | .pktMalformed | .hostLinkUncorrected => .deferred
  | .dramChannelLost | .vaultSpareExhausted | .seqMemUncorrected | .coreWatchdog | .seqWatchdog
  | .settleEngineFault | .linkPartnerLost | .bucelRestart => .contained
  | .railFault => if 7 * 256 + 3 ≤ source ∧ source ≤ 7 * 256 + 10 then .contained else .fatal
  | .thermalTrip | .securityAlarm => .fatal
  | _ => .info

/-- Classes whose catalogue row has a window (R494, R499). DEDUCED, log entry 37. -/
def windowed (c : EventClass) : Bool :=
  match c with
  | .dramErasure | .dramChannelLost | .vaultBankSpared | .vaultSpareExhausted | .seqMemUncorrected | .coreWatchdog
  | .seqWatchdog | .settleEngineFault | .linkLaneSpared | .linkWidthDegraded | .linkPartnerLost | .railTransient
  | .railFault => true
  | _ => false

/-- DATA: each (width, value) at the next offset that is a multiple of its width; a value that would pass byte 15 is
omitted (R505). -/
def packData (l : List (Nat × Nat)) : List Byte :=
  padTo 16 (l.foldl (fun bs x =>
    let o := roundUp x.1 bs.length
    if o + x.1 ≤ 16 then padTo o bs ++ leBytes x.1 x.2 else bs) [])

/-- The 32 bytes of an entry, with the given PHASE bit (R502). -/
def Event.bytes (e : Event) (phase : Bool := false) : List Byte :=
  leBytes 8 e.time ++ leBytes 2 e.cls.code ++
  leBytes 1 (e.sev.code + bnum e.nested 3 + bnum phase 4 + bnum e.unsync 5 + bnum e.injected 6 + bnum e.ledger 7) ++
  [0] ++ leBytes 2 e.source ++ leBytes 2 (e.seq % 65536) ++ padTo 16 e.data

/-! ### Interrupts (R453) -/

/-- A vector fires: its pending count is reset, and its message is sent or, while it is masked, its pending bit is
set (R453). DEDUCED, log entry 34. -/
def State.fire (s : State) (v : Nat) : State :=
  let x := tget s.host.vectors {} v
  let s' := s.modHost (fun h => { h with vectors := tset h.vectors {} v { x with pending := 0, pba := x.pba || x.masked } })
  if x.masked then s' else s'.emit (.msix v)

/-- An entry was written on a ring of vector v; `now` fires the vector regardless of moderation (R453). -/
def State.signal (s : State) (v : Nat) (atOnce : Bool) : State :=
  let x := tget s.host.vectors {} v
  let x' := { x with pending := x.pending + 1, oldest := if x.pending = 0 then s.aoNs else x.oldest }
  let s' := s.modHost (fun h => { h with vectors := tset h.vectors {} v x' })
  if atOnce || decide (x.count ≤ x'.pending) then s'.fire v else s'

/-! ### Rings that the device writes (R434, R437, R450) -/

/-- Entries of a ring with logarithm k. -/
def entries (k : Nat) : Nat := 2 ^ k
/-- Entries written and not yet consumed (R436). -/
def Ring.unconsumed (r : Ring) : Nat := (r.written + 2 ^ 32 - r.lastCi) % 2 ^ 32
/-- Whether the ring that the device writes is full (R437). -/
def Ring.full (r : Ring) : Bool := decide (entries r.logCq ≤ r.unconsumed)
/-- PHASE of the entry that WRITTEN names next: 1 on the first pass, inverting at every wrap (R450). -/
def Ring.phase (r : Ring) : Bool := (r.written / entries r.logCq) % 2 == 0
/-- Host address of the next entry of size n. -/
def Ring.slot (r : Ring) (n : Nat) : Nat := r.cqBase + (r.written % entries r.logCq) * n
/-- WRITTEN advanced. -/
def Ring.wrote (r : Ring) : Ring := { r with written := (r.written + 1) % 2 ^ 32 }

/-! ### The Day Book (R501, R502) -/

/-- The PLDM message for an entry (R520). -/
def State.pldmEvent (s : State) (e : Event) : State :=
  if s.mgmt.receiver && (decide (3 ≤ e.sev.code) || ((e.sev == .corrected || e.sev == .deferred) && bit s.mgmt.receiverMask 0)) then
    (s.modMgmt (fun m => { m with pldmEvents := m.pldmEvents ++ [{ entry := e.bytes }] })).emit (.platformEvent e.bytes)
  else s

/-- The copy of an entry to the event ring, or its drop when the ring is full (R437, R449, R501). -/
def State.eventRing (s : State) (e : Event) : State :=
  let r := s.host.evt
  if r.st == .running && decide (r.minSev ≤ e.sev.code) then
    if r.full then s.modHost (fun h => { h with evt := { r with dropped := satAdd 0xFFFF r.dropped 1 } })
    else
      let s := s.emit (.hostWrite (r.slot 32) (e.bytes r.phase) false)
      let s := s.modHost (fun h => { h with evt := r.wrote })
      s.signal r.vector (decide (3 ≤ e.sev.code))
  else s

/-- An entry is written to the Day Book and passed on. The ledger's EVENT record is `State.log`'s (R501, R502). -/
def State.logEntry (s : State) (c : EventClass) (source : Nat) (data : List Byte) (sev : Severity)
    (nested injected : Bool) : State :=
  let e : Event :=
    { cls := c, sev := sev, time := s.now, source := source, seq := s.err.nextSeq, nested := nested,
      unsync := s.time.tstate != 2, injected := injected, ledger := decide (3 ≤ sev.code), data := data }
  let s := s.modErr (fun r => { r with dayBook := keepLast 8192 (r.dayBook ++ [e]), nextSeq := (r.nextSeq + 1) % 65536, total := r.total + 1 })
  (s.eventRing e).pldmEvent e

/-! ### The Life Ledger (R533 to R540) -/

/-- First byte of the reserved region, and the end of the flash (R533). -/
def ledgerGeneralEnd : Nat := 16128 * 4096
def ledgerEnd : Nat := 16384 * 4096

/-- The 64-byte header of a record (R534). -/
def LedgerRecord.header (r : LedgerRecord) : List Byte :=
  leBytes 2 (if r.live then 0x4C52 else 0) ++ leBytes 2 r.kind ++ leBytes 4 r.payload.length ++ leBytes 8 r.seq ++
  leBytes 8 r.lifeS ++ leBytes 8 r.time ++ padTo 32 r.prev
/-- All bytes of a record (R534). -/
def LedgerRecord.bytes (r : LedgerRecord) : List Byte := r.header ++ r.payload ++ r.hash

/-- The head: the last live record (R536). -/
def Ledger.head (l : Ledger) : Option LedgerRecord := l.records.reverse.find? (·.live)
/-- SEQ of the next record. -/
def Ledger.nextSeq (l : Ledger) : Nat := match l.head with | some r => r.seq + 1 | none => 0
/-- HASH of the head, or 32 zero bytes (R534). -/
def Ledger.headHash (l : Ledger) : List Byte := match l.head with | some r => r.hash | none => List.replicate 32 0

/-- Where a record of n bytes starts: the next 64-byte boundary, or the next sector when it would not fit (R534). -/
def ledgerPlace (off n : Nat) : Nat :=
  let o := roundUp 64 off
  if o % 4096 + n ≤ 4096 then o else roundUp 4096 (o + 1)

/-- Kinds that the reserved region takes (R533). -/
def reservedKind (k : Nat) : Bool := k == 3 || k == 4 || k == 10

/-- Drop of a record (R515, R540). -/
def State.ledgerDrop (s : State) : State :=
  let s := s.modMgmt (fun m => { m with ledgerDropped := satAdd 0xFFFF m.ledgerDropped 1 })
  { s with ledger := { s.ledger with droppedBoot := satAdd 0xFFFF s.ledger.droppedBoot 1 } }

/-- One copy of a record programmed at an offset (R534, R536). -/
def State.ledgerPut (s : State) (kind : Nat) (payload : List Byte) (off : Nat) (live : Bool) : State :=
  let r : LedgerRecord :=
    { kind := kind, seq := s.ledger.nextSeq, lifeS := s.lifeNow, time := s.now,
      prev := s.ledger.headHash, payload := payload, hash := [], off := off, live := true }
  let r := { r with hash := sha256 (r.header ++ payload), live := live }
  { s with ledger := { s.ledger with records := s.ledger.records ++ [r], offset := off + 96 + payload.length } }

/-- Where the next copy goes, and the ledger's state after it is placed, if a region takes it (R533, R540). -/
def Ledger.place (l : Ledger) (kind n off : Nat) : Option (Nat × Nat) :=
  let o := ledgerPlace off n
  if (l.state = 0 ∨ l.state = 3) ∧ o + n ≤ ledgerGeneralEnd then some (o, l.state)
  else if l.state ≠ 2 ∧ reservedKind kind ∧ ledgerPlace (max ledgerGeneralEnd off) n + n ≤ ledgerEnd then
    some (ledgerPlace (max ledgerGeneralEnd off) n, if l.state = 3 then 3 else 1)
  else none

/-- What happens when no region takes a record (R540). DESIGN CHOICE, log entry 20. -/
def State.ledgerNoRoom (s : State) (kind : Nat) : State :=
  let s := s.ledgerDrop
  let s := { s with ledger := { s.ledger with state := if s.ledger.state = 3 then 3 else if reservedKind kind then 2 else max 1 s.ledger.state } }
  if s.ledger.fullLogged then s
  else { s with ledger := { s.ledger with fullLogged := true } }.logEntry .ledgerFull (srcBlock 6) [] .info false false

/-- Failed copies of a record, each marked dead, logged and followed by the next sector (R536). -/
def State.ledgerRetry (s : State) (kind : Nat) (payload : List Byte) (injected : Bool) : Nat → State
  | 0 => s
  | n + 1 =>
    match s.ledger.place kind (96 + payload.length) s.ledger.offset with
    | none => s
    | some (o, st) =>
      let s := s.ledgerPut kind payload o false
      let s := { s with ledger := { s.ledger with state := st, offset := roundUp 4096 s.ledger.offset } }
      let s := s.logEntry .ledgerWriteRetry (srcBlock 6) [] .corrected false injected
      s.ledgerRetry kind payload injected n

/-- An armed injection of class c at a unit fires (R506). Answers whether it did. DEDUCED, log entry 34. -/
def State.injection (s : State) (c : EventClass) (unit : Nat) : Bool × State :=
  if s.err.injArm && s.err.injCls == c.code && s.err.injUnit == unit then
    (true, s.modErr (fun e => { e with injFired := true, injArm := e.injCont }))
  else (false, s)

/-- A record appended by a running controller; `fails` copies do not verify (R536, R540). -/
def State.ledgerWrite (s : State) (kind : Nat) (payload : List Byte) (fails : Nat) : State :=
  let (inj, s) := s.injection .ledgerWriteRetry (srcBlock 6)
  let s := s.ledgerRetry kind payload false fails
  let s := s.ledgerRetry kind payload true (if inj then 1 else 0)
  match s.ledger.place kind (96 + payload.length) s.ledger.offset with
  | none => s.ledgerNoRoom kind
  | some (o, st) =>
    let s := s.ledgerPut kind payload o true
    { s with ledger := { s.ledger with state := st } }

/-- An append to the Life Ledger. While the controller restarts, up to 64 records wait in AO SRAM (R515, R536). DESIGN CHOICE, log entry 19. -/
def State.ledgerAppend (s : State) (kind : Nat) (payload : List Byte) (fails : Nat := 0) : State :=
  if s.mgmt.bucelDown then
    if s.ledger.heldRecs.length < 64 then
      { s with ledger := { s.ledger with heldRecs := s.ledger.heldRecs ++ [(kind, payload)] } }
    else s.ledgerDrop
  else s.ledgerWrite kind payload fails

/-! ### Logging -/

/-- A detection reaches the Day Book, and from CONTAINED upward the Life Ledger and the lifetime totals
(R501, R502, R507, R537). -/
def State.logAs (s : State) (c : EventClass) (source : Nat) (data : List Byte) (sev : Severity)
    (nested injected : Bool) : State :=
  let s := s.logEntry c source data sev nested injected
  if 3 ≤ sev.code then
    let s := s.ledgerAppend 0x0009 (match s.err.dayBook.getLast? with | some e => e.bytes | none => [])
    if injected then s
    else s.modMgmt (fun m => { m with totals := tmod m.totals 0 (if sev == .fatal then 15 else 14) (· + 1) })
  else s

/-- An event with the severity of its class (R493). -/
def State.log (s : State) (c : EventClass) (source : Nat) (data : List (Nat × Nat)) : State :=
  s.logAs c source (packData data) (severityOf c source) false false

/-- An event that is logged at most once per `period` ns for a key (R407, R431, R499). DESIGN CHOICE, log entry 39. -/
def State.logLimited (s : State) (c : EventClass) (key period : Nat) (source : Nat) (data : List (Nat × Nat)) : State :=
  let k := c.code * 65536 + key
  let last := tget s.err.lastLogged 0 k
  if last = 0 ∨ last - 1 + period ≤ s.aoNs then
    (s.modErr (fun e => { e with lastLogged := tset e.lastLogged 0 k (s.aoNs + 1) })).log c source data
  else s

/-- One second in ns. -/
def second : Nat := 1000000000

/-- ACTIVE: some window is open (R496). -/
def Errors.active (e : Errors) : Bool := e.windows != []

/-- A detection of the catalogue with DATA as bytes: an armed injection marks it, and a windowed error takes or
nests into the primary record (R496, R499, R507). DEDUCED, log entry 37. -/
def State.detectWith (s : State) (c : EventClass) (source : Nat) (data : List Byte) : State :=
  let (inj, s) := s.injection c source
  let sev := severityOf c source
  if windowed c then
    if s.err.fatal then s.logAs c source data sev true inj
    else
      let rec1 : Primary := { time := s.now, cls := c, sev := sev, source := source }
      let open1 := s.err.windows ++ [{ cls := c, source := source : Window }]
      match s.err.active, s.err.primary with
      | true, some p =>
        let up := decide (p.sev.code < sev.code)
        let s := s.modErr (fun e => { e with windows := open1, nested := satAdd 0xFF e.nested 1, double := true })
        let s := s.logAs c source data sev true inj
        let s := s.logAs .doubleFault source
          (packData [(2, p.cls.code), (2, c.code), (2, source)]) (p.sev.max sev) false inj
        if up then s.modErr (fun e => { e with displaced := p.cls.code, primary := some rec1, valid := true }) else s
      | _, _ =>
        let s := s.modErr (fun e => { e with windows := open1, primary := some rec1, valid := true })
        s.logAs c source data sev false inj
  else s.logAs c source data sev (s.err.fatal && decide (1 ≤ sev.code)) inj

/-- A detection with DATA as values (R505). -/
def State.detect (s : State) (c : EventClass) (source : Nat) (data : List (Nat × Nat)) : State :=
  s.detectWith c source (packData data)

/-- A detection that is logged at most once per second for a key: an armed injection marks its entry (R499, R507). DESIGN CHOICE, log entry 39. -/
def State.detectLimited (s : State) (c : EventClass) (key source : Nat) (data : List (Nat × Nat)) : State :=
  let k := c.code * 65536 + key
  let last := tget s.err.lastLogged 0 k
  if last = 0 ∨ last - 1 + second ≤ s.aoNs then
    (s.modErr (fun e => { e with lastLogged := tset e.lastLogged 0 k (s.aoNs + 1) })).detect c source data
  else s

/-- The window of an error closes when its containment has finished (R494, R496). DEDUCED, log entry 37. -/
def State.closeWindow (s : State) (c : EventClass) (source : Nat) : State :=
  s.modErr (fun e => { e with windows := e.windows.erase ⟨c, source⟩ })

/-- ERROR# (R498): asserted while the held record or DOUBLE meets ERR_CTRL, in the fatal state, in BOOT_HALT and
after a thermal trip. -/
def State.errorPin (s : State) : Bool :=
  (s.err.valid && (match s.err.primary with | some p => decide (s.err.errorMin ≤ p.sev.code) | none => false)) ||
  (s.err.double && s.err.errorDouble) || s.err.fatal || s.sec.halt || s.pwr.thermtrip

end Sys2Proof.Machine
end

