-- ==== Sys2Proof/Machine/Operands.lean ====
section
/-!
DEFINITION. The operand forms of the block: the Layer Configuration Block and its load checks (R99, R126, R166 to
R170, R609), descriptors and their bodies (R442, R443), presence of arrays (R106 to R113).
-/
set_option autoImplicit false
namespace Sys2Proof.Machine

/-! ### Fields of an LCB (R166, R167) -/

/-- The 8-byte word at a byte offset of an LCB. -/
def lw (l : List Byte) (off : Nat) : Nat := leAt l off 8
/-- A field of the word at an offset. -/
def lf (l : List Byte) (off lo w : Nat) : Nat := fld (lw l off) lo w
/-- A 32-bit field at an offset. -/
def l32 (l : List Byte) (off : Nat) : Nat := leAt l off 4
/-- A 48-bit address or stride; bits [63:48] are reserved (R166). -/
def l48 (l : List Byte) (off : Nat) : Nat := lf l off 0 48

def lcbVersion (l : List Byte) : Nat := lf l 0x000 0 8
def mxEn (l : List Byte) : Bool := bit (lw l 0) 8
def igseig (l : List Byte) : Bool := bit (lw l 0) 9
def mxStationary (l : List Byte) : Nat := lf l 0 10 2
def mxShape (l : List Byte) : Nat := lf l 0 12 2
def mxAccumulate (l : List Byte) : Bool := bit (lw l 0) 14
def mxBTranspose (l : List Byte) : Bool := bit (lw l 0) 15
def mxChainLen (l : List Byte) : Nat := lf l 0 16 16
def mxCoreBind (l : List Byte) : Bool := bit (lw l 0) 32
def mxPhysCore (l : List Byte) : Nat := lf l 0 33 7
def mxBatch (l : List Byte) : Nat := lf l 0 40 16
def admitPolicy (l : List Byte) : Nat := lf l 0 56 2
def placeFixed (l : List Byte) : Bool := bit (lw l 0) 58
def lcbPrice (l : List Byte) : Nat := lf l 0x008 0 32
def lcbDuration (l : List Byte) : Nat := lf l 0x008 32 32
def tensorId (l : List Byte) : Nat := lf l 0x010 0 24
def layerTag (l : List Byte) : Nat := lf l 0x010 32 32
def mxM (l : List Byte) : Nat := lf l 0x018 0 24
def mxN (l : List Byte) : Nat := lf l 0x018 24 24
def mxK (l : List Byte) : Nat := lf l 0x020 0 40
def aFmt (l : List Byte) : Nat := lf l 0x028 0 4
def aBlk (l : List Byte) : Nat := lf l 0x028 4 3
def bFmt (l : List Byte) : Nat := lf l 0x028 8 4
def bBlk (l : List Byte) : Nat := lf l 0x028 12 3
def outFmt (l : List Byte) : Nat := lf l 0x028 16 4
def outBlk (l : List Byte) : Nat := lf l 0x028 20 3
def outAxis (l : List Byte) : Nat := lf l 0x028 23 1
def resFmt (l : List Byte) : Nat := lf l 0x028 24 4
def resBlk (l : List Byte) : Nat := lf l 0x028 28 3
def resEn (l : List Byte) : Bool := bit (lw l 0x028) 31
def biasFmt (l : List Byte) : Nat := lf l 0x028 32 4
def biasMode (l : List Byte) : Nat := lf l 0x028 36 2
def teAct (l : List Byte) : Nat := lf l 0x028 38 4
def teNorm (l : List Byte) : Nat := lf l 0x028 42 2
def teRowop (l : List Byte) : Nat := lf l 0x028 44 2
def teMaskEn (l : List Byte) : Bool := bit (lw l 0x028) 46
def teLossGrad (l : List Byte) : Bool := bit (lw l 0x028) 47
def teStatsEn (l : List Byte) : Bool := bit (lw l 0x028) 48
def outRound (l : List Byte) : Bool := bit (lw l 0x028) 49
def hwmEn (l : List Byte) : Bool := bit (lw l 0x028) 50
def hwmIndex (l : List Byte) : Nat := lf l 0x028 51 10

/-- The cell count D of the layer's shape; 128 for a TE-only layer (R80, R127). -/
def lcbD (l : List Byte) : Nat :=
  if !mxEn l then 128 else match mxShape l with | 1 => 64 | 2 => 32 | _ => 128
/-- Products per cell and CCLK (R77). -/
def Format.rate : Format → Nat
  | .e4m3 | .e5m2 => 2 | .e2m1 => 4 | _ => 1
/-- A format code's format; reserved codes are refused before use (R97). -/
def fmtOf (c : Nat) : Format := (Format.ofCode c).getD .f32
/-- Chain links of a layer; a TE-only layer has one (R92, R99). -/
def links (l : List Byte) : Nat := if mxEn l then max 1 (mxChainLen l) else 1
/-- Whether the layer finishes whole rows in a second phase (R125). -/
def twoPhase (l : List Byte) : Bool := teNorm l != 0 || teRowop l != 0
/-- Whether the layer is empty (R101). -/
def lcbEmpty (l : List Byte) : Bool := mxM l == 0 || mxN l == 0 || mxBatch l == 0

/-! ### Output tiles (R79, R81, R92, R183) -/

/-- Row tiles and column tiles of an output of the layer. -/
def rowTiles (l : List Byte) : Nat := (mxM l + lcbD l - 1) / lcbD l
def colTiles (l : List Byte) : Nat := (mxN l + lcbD l - 1) / lcbD l
/-- Output tiles of one chain link. -/
def linkTiles (l : List Byte) : Nat := mxBatch l * rowTiles l * colTiles l
/-- Output tiles of the layer. -/
def tileCount (l : List Byte) : Nat := links l * linkTiles l
/-- Output tile number i, in order of (batch entry, row tile, column tile), one link after another (R81, R92). -/
def tileOf (l : List Byte) (i : Nat) : TileName :=
  let x := i % linkTiles l
  { link := i / linkTiles l, batch := x / (rowTiles l * colTiles l), rt := x / colTiles l % rowTiles l, ct := x % colTiles l }
/-- Whether the layer has such a tile: an empty layer has none (R101, R151). -/
def tileExists (l : List Byte) (t : TileName) : Bool :=
  decide (t.batch < mxBatch l) && decide (t.rt < rowTiles l) && decide (t.ct < colTiles l) && decide (t.link < links l)
/-- Number of what placement moves as one: a tile, or a whole row tile where rows are finished whole (R125) or forwarded along a
chain (R92). -/
def shareIx (l : List Byte) (t : TileName) : Nat :=
  let r := t.batch * rowTiles l + t.rt
  if twoPhase l || decide (2 ≤ links l) then r else r * colTiles l + t.ct
/-- Whether a core's layer takes a tile: the broadcast stream divides the tiles by set index and set size, and placement has given
the core the tiles of index `share` (R163, R183). -/
def Layer.takes (ly : Layer) (t : TileName) : Bool :=
  tileExists ly.lcb t && (decide (ly.n ≤ 1) || Config.tileShare (layerTag ly.lcb) ly.n (shareIx ly.lcb t) % ly.n == ly.share)
/-- The first of the next tiles, from number i on, that the layer takes on its core. -/
def Layer.nextTile (ly : Layer) : Nat → Nat → Option Nat
  | 0, _ => none
  | n + 1, i => if ly.takes (tileOf ly.lcb i) then some i else ly.nextTile n (i + 1)

/-! ### Presence of arrays (R106 to R113) -/

/-- Whether physical core p has a working array (R106). -/
def State.arrayPresent (s : State) (p : Nat) : Bool := decide (p < 96) && !s.fuses.absent.contains p
/-- Physical core of a logical core number (R107). -/
def State.physOf (s : State) (logical : Nat) : Option Nat := ((List.range 96).filter s.arrayPresent)[logical]?
/-- Working arrays of cluster c (R113). -/
def State.clusterArrays (s : State) (c : Nat) : Nat := ((coresOf c).filter s.arrayPresent).length

/-! ### Load checks (R47, R74, R100, R127, R170, R609) -/

/-- A legal tensor scale: positive, finite and normal (R47). -/
def tscaleOk (x : Nat) : Bool := decide (0 < fld x 23 8) && decide (fld x 23 8 < 255) && !bit x 31
/-- An F32 that is NaN or infinite. -/
def nonFinite32 (x : Nat) : Bool := fld x 23 8 == 255
/-- A reserved format code (R97). -/
def badFmt (c : Nat) : Bool := decide (5 < c)
/-- A reserved block-size code (R98). -/
def badBlk (c : Nat) : Bool := decide (4 < c)

/-- The vault windows of core p of cluster c: base and size (R194). -/
def vaultWindows (c p : Nat) : List (Nat × Nat) :=
  [(ownCoreBase, coreVaultSize), (coreVaultBase + p * coreVaultSlot, coreVaultSize),
   (ownClusterBase, clusterVaultSize), (clusterVaultBase + c * clusterVaultSize, clusterVaultSize)]
/-- Whether [a, a + n) lies wholly in one window; an empty range does when its start does (R100 row 11). -/
def inWindow (c p a n : Nat) : Bool :=
  (vaultWindows c p).any (fun w => decide (w.1 ≤ a) && decide (a < w.1 + w.2) && decide (a + n ≤ w.1 + w.2))

/-- Bytes from the first to past the last byte of a tensor of rows. -/
def spanOf (batch bstride rows ld rowBytes : Nat) : Nat :=
  if batch = 0 ∨ rows = 0 ∨ rowBytes = 0 then 0 else (batch - 1) * bstride + (rows - 1) * ld + rowBytes

/-- The address and stride fields that the MXE checks cover, and each operand's start and span (R100 row 11,
R606, R609). -/
def mxAddrs (l : List Byte) : List Nat × List (Nat × Nat) :=
  let b := mxBatch l
  let fa := fmtOf (aFmt l)
  let aRows := mxM l
  let aLen := if mxEn l then mxK l else mxN l
  let aS := if aBlk l = 0 then [] else [(l48 l 0x088, b * aRows * ((aLen + blkSize (aBlk l) - 1) / blkSize (aBlk l)))]
  let strideA := if 2 ≤ b then [l48 l 0x100] else []
  let one := ([l48 l 0x080, l32 l 0x058] ++ strideA ++ aS.map (·.1),
    (l48 l 0x080, spanOf b (l48 l 0x100) aRows (l32 l 0x058) (fa.rowBytes aLen)) :: aS)
  if !mxEn l then one
  else
    let fb := fmtOf (bFmt l)
    let bRows := if mxBTranspose l then mxK l else mxN l
    let bLen := if mxBTranspose l then mxN l else mxK l
    let bS := if bBlk l = 0 then [] else [(l48 l 0x098, b * bRows * ((bLen + blkSize (bBlk l) - 1) / blkSize (bBlk l)))]
    let strideB := if 2 ≤ b then [l48 l 0x108] else []
    let cA := if mxAccumulate l then
        [l48 l 0x0A0, l32 l 0x060] ++ (if 2 ≤ b then [l48 l 0x110] else []) ++ (if 2 ≤ links l then [l48 l 0x128] else [])
      else []
    let cO := if mxAccumulate l then
        [(l48 l 0x0A0, (if lcbEmpty l then 0 else (links l - 1) * l48 l 0x128) + spanOf b (l48 l 0x110) (mxM l) (l32 l 0x060) (4 * mxN l))]
      else []
    (one.1 ++ [l48 l 0x090, l32 l 0x05C] ++ strideB ++ bS.map (·.1) ++ cA,
     one.2 ++ [(l48 l 0x090, spanOf b (l48 l 0x108) bRows (l32 l 0x05C) (fb.rowBytes bLen))] ++ bS ++ cO)

/-- Bytes of an output scale row (R150). -/
def outScaleRow (l : List Byte) : Nat :=
  if outAxis l = 0 then (mxN l + blkSize (outBlk l) - 1) / blkSize (outBlk l) else mxN l
/-- Output scale rows of a batch entry (R150). -/
def outScaleRows (l : List Byte) : Nat :=
  if outAxis l = 0 then mxM l else (mxM l + blkSize (outBlk l) - 1) / blkSize (outBlk l)
/-- The staging row stride SL (R125). -/
def stageStride (l : List Byte) : Nat := roundUp 64 (4 * mxN l)

/-- The address and stride fields that the TE checks cover, and each operand's start and span (R127 row 6). DEDUCED, log entry 77. -/
def teAddrs (l : List Byte) : List Nat × List (Nat × Nat) :=
  let b := mxBatch l
  let many := decide (2 ≤ b)
  let ch := decide (2 ≤ links l)
  let opt (c : Bool) (x : List Nat) : List Nat := if c then x else []
  let optR (c : Bool) (x : List (Nat × Nat)) : List (Nat × Nat) := if c then x else []
  let chSpan (st : Nat) : Nat := if lcbEmpty l then 0 else (links l - 1) * st
  let sc := outBlk l != 0
  let rb := resBlk l != 0
  (opt true [l48 l 0x0A8, l32 l 0x064] ++ opt many [l48 l 0x118] ++ opt ch [l48 l 0x130] ++
   opt sc [l48 l 0x0B0, l32 l 0x068] ++ opt (sc && many) [l48 l 0x120] ++ opt (sc && ch) [l48 l 0x138] ++
   opt (biasMode l != 0) [l48 l 0x0B8] ++
   opt (resEn l) [l48 l 0x0C0, l32 l 0x06C] ++ opt (resEn l && many) [l48 l 0x140] ++ opt (resEn l && rb) [l48 l 0x0C8] ++
   opt (teNorm l != 0) [l48 l 0x0D0] ++ opt (teNorm l == 1) [l48 l 0x0D8] ++ opt (teRowop l == 2) [l48 l 0x0E0] ++
   opt (teNorm l != 0 || teRowop l != 0) [l48 l 0x0E8] ++ opt (teStatsEn l) [l48 l 0x0F0],
   [(l48 l 0x0A8, chSpan (l48 l 0x130) + spanOf b (l48 l 0x118) (mxM l) (l32 l 0x064) ((fmtOf (outFmt l)).rowBytes (mxN l)))] ++
   optR sc [(l48 l 0x0B0, chSpan (l48 l 0x138) + spanOf b (l48 l 0x120) (outScaleRows l) (l32 l 0x068) (outScaleRow l))] ++
   optR (biasMode l != 0) [(l48 l 0x0B8, (fmtOf (biasFmt l)).rowBytes (if biasMode l = 1 then mxN l else mxM l))] ++
   optR (resEn l) [(l48 l 0x0C0, spanOf b (l48 l 0x140) (mxM l) (l32 l 0x06C) ((fmtOf (resFmt l)).rowBytes (mxN l)))] ++
   optR (resEn l && rb) [(l48 l 0x0C8, b * mxM l * ((mxN l + blkSize (resBlk l) - 1) / blkSize (resBlk l)))] ++
   optR (teNorm l != 0) [(l48 l 0x0D0, 4 * mxN l)] ++ optR (teNorm l == 1) [(l48 l 0x0D8, 4 * mxN l)] ++
   optR (teRowop l == 2) [(l48 l 0x0E0, 4 * b * mxM l)] ++
   optR (teNorm l != 0 || teRowop l != 0) [(l48 l 0x0E8, lcbD l * stageStride l)] ++
   optR (teStatsEn l) [(l48 l 0x0F0, 32 * b * mxM l)])

/-- Whether every address and stride is a multiple of 64 and every operand lies in the core's windows. -/
def addrsOk (c p : Nat) (x : List Nat × List (Nat × Nat)) : Bool :=
  x.1.all (fun a => a % 64 == 0) && x.2.all (fun r => inWindow c p r.1 r.2)

/-- Formats that Igseig-exact arithmetic takes (R74). An F32 operand does not meet that rule, and a block-scaled H16 output is H16s and
so another format than H16. DEDUCED, log entry 77. -/
def igseigOk (l : List Byte) : Bool :=
  decide (1 ≤ aFmt l ∧ aFmt l ≤ 4) && aBlk l == 0 && bBlk l == 0 && aFmt l == bFmt l && decide (outFmt l ≤ 2) && !(outFmt l == 2 && outBlk l != 0)

/-- A format and block size that native arithmetic refuses together (R100 row 6). -/
def badScaling (f b : Nat) : Bool := (decide (3 ≤ f) && b == 0) || (decide (f ≤ 1) && b != 0)

/-- R100: the first condition that holds, in order. `addr` says whether row 11 passes. DEDUCED, log entry 77. -/
def mxCheck (s : State) (l : List Byte) (addr : Bool) : Option Status :=
  let en := mxEn l
  let ig := igseig l
  if mxStationary l = 3 ∨ badFmt (aFmt l) ∨ badFmt (bFmt l) ∨ badBlk (aBlk l) ∨ badBlk (bBlk l) then some .malformed
  else if en ∧ mxCoreBind l ∧ ¬ s.arrayPresent (mxPhysCore l) then some .unitAbsent
  else if en ∧ aFmt l ≠ bFmt l then some .lcbFormatMismatch
  else if en ∧ ig ∧ ¬ igseigOk l then some .lcbFormatMismatch
  else if en ∧ (aFmt l = 0 ∨ bFmt l = 0) then some .malformed
  else if ¬ (en ∧ ig) ∧ (badScaling (aFmt l) (aBlk l) ∨ (en ∧ badScaling (bFmt l) (bBlk l))) then some .malformed
  else if ¬ tscaleOk (l32 l 0x030) ∨ (en ∧ ¬ tscaleOk (l32 l 0x034)) then some .malformed
  else if en ∧ mxShape l = 3 ∧ (mxStationary l ≠ 0 ∨ 8 < mxM l) then some .malformed
  else if en ∧ mxBTranspose l ∧ (bBlk l ≠ 0 ∨ 3 ≤ bFmt l) then some .malformed
  else if en ∧ 2 ≤ mxChainLen l ∧ (mxK l ≠ mxN l ∨ lcbD l < mxN l) then some .malformed
  else if ¬ addr then some .malformed
  else none

/-- R127 conditions 1 to 5, in order. -/
def teCheck (l : List Byte) : Option Status :=
  if badFmt (outFmt l) ∨ badBlk (outBlk l) ∨ badFmt (resFmt l) ∨ badBlk (resBlk l) ∨ 2 < biasFmt l ∨ biasMode l = 3 ∨
     7 < teAct l ∨ teNorm l = 3 ∨ teRowop l = 3 then some .malformed
  else if badScaling (outFmt l) (outBlk l) then some .malformed
  else if lcbD l < blkSize (outBlk l) then some .malformed
  else if 2 ≤ mxChainLen l ∧ mxEn l ∧ (l32 l 0x040 ≠ 0x3F800000 ∨ biasMode l ≠ 0 ∨ resEn l ∨ teAct l ≠ 0 ∨ teNorm l ≠ 0 ∨
     teRowop l ≠ 0) then some .malformed
  else if nonFinite32 (l32 l 0x040) ∨ nonFinite32 (l32 l 0x044) ∨ nonFinite32 (l32 l 0x048) ∨ nonFinite32 (l32 l 0x04C) ∨
     ¬ tscaleOk (l32 l 0x038) ∨ (resEn l ∧ ¬ tscaleOk (l32 l 0x03C)) then some .malformed
  else none

/-- Steps 4 and 5 of R170. -/
def chainCheck (l : List Byte) : Option Status :=
  if admitPolicy l = 3 then some .malformed
  else if 2 ≤ mxChainLen l ∧ mxEn l ∧ (outFmt l ≠ aFmt l ∨ outBlk l ≠ aBlk l ∨ outAxis l ≠ 0 ∨ l32 l 0x038 ≠ l32 l 0x030) then
    some .malformed
  else none

/-- The checks of R170 that JOB_LOAD makes: steps 1, 3, 4 and 5. -/
def lcbLoadCheck (l : List Byte) : Option Status :=
  if lcbVersion l ≠ 1 then some .malformed
  else (teCheck l).or (chainCheck l)

/-- R127 row 6: alignment, windows, and row strides that hold their rows. -/
def teAddrCheck (c p : Nat) (l : List Byte) : Bool :=
  addrsOk c p (teAddrs l) &&
  decide (roundUp 64 ((fmtOf (outFmt l)).rowBytes (mxN l)) ≤ l32 l 0x064) &&
  (outBlk l == 0 || decide (roundUp 64 (outScaleRow l) ≤ l32 l 0x068))

/-- Whether any address the layer uses lies in the core's own vault window (R170 step 7). -/
def usesCoreVault (p : Nat) (l : List Byte) : Bool :=
  ((mxAddrs l).2 ++ (teAddrs l).2).any (fun r =>
    (decide (ownCoreBase ≤ r.1) && decide (r.1 < ownCoreBase + coreVaultSize)) ||
    (decide (coreVaultBase + p * coreVaultSlot ≤ r.1) && decide (r.1 < coreVaultBase + p * coreVaultSlot + coreVaultSize)))

/-- The load checks of a start on core p of cluster c, steps 1 to 7 of R170. -/
def lcbCheck (s : State) (c p : Nat) (l : List Byte) : Option Status :=
  if lcbVersion l ≠ 1 then some .malformed
  else
    (mxCheck s l (addrsOk c p (mxAddrs l))).or <|
    (teCheck l).or <|
    (chainCheck l).or <|
    if ¬ teAddrCheck c p l then some .malformed
    else if ¬ placeFixed l ∧ usesCoreVault p l then some .malformed
    else none

/-! ### Descriptors (R442, R443) -/

/-- A little-endian field of a descriptor. -/
def Desc.at (d : Desc) (off n : Nat) : Nat := leAt d.raw off n
def Desc.opcode (d : Desc) : Nat := d.at 0 1
def Desc.irq (d : Desc) : Bool := bit (d.at 1 1) 0
def Desc.waitPrior (d : Desc) : Bool := bit (d.at 1 1) 1
def Desc.tag (d : Desc) : Nat := d.at 4 4
/-- STEP of RUN_STEP and RUN_LAYERS. -/
def Desc.step (d : Desc) : Nat := d.at 0x08 8
/-- CLUSTER_MASK of RUN_STEP and RUN_LAYERS; a bit per cluster. -/
def Desc.mask (d : Desc) : Nat := d.at 0x10 1
/-- The clusters that a mask names, rising. -/
def maskList (n m : Nat) : List Nat := (List.range n).filter (bit m)

end Sys2Proof.Machine
end

