-- ==== Sys2Proof/Machine/Wire.lean ====
section
/-!
DEFINITION. What crosses a port: blocks (R283), the link tag (R284), frames (R285), and the bytes of a packet (R336 to R340).
-/
set_option autoImplicit false
namespace Sys2Proof.Machine

/-! ### Blocks (R283) -/

/-- A block with its start bit and 32 bytes. -/
def blockOf (start : Bool) (bs : List Byte) : Block := BitVec.ofNat 257 (bnum start + 2 * leNat (bs.take 32))
/-- The 32 bytes of a block. -/
def blockBytes (b : Block) : List Byte := leBytes 32 (b.toNat / 2)
/-- Whether a block begins a frame. -/
def blockStart (b : Block) : Bool := b.getLsbD 0
/-- The blocks of a frame's bytes, the last one padded with zero bytes (R283, R285). -/
def blocksOf (bs : List Byte) : List Block :=
  (List.range ((bs.length + 31) / 32)).map (fun i => blockOf (i == 0) (padTo 32 (bs.drop (32 * i))))

/-! ### Packets (R336 to R340) -/

/-- PMAP: a poison map precedes the payload (R337, R338, R351). -/
def Packet.hasMap (p : Packet) : Bool := p.pmap || !p.poison.isEmpty
/-- Bytes of a packet: header, seal extension, poison map, payload and trailer (R336). -/
def Packet.bytes (p : Packet) : Nat :=
  16 + (if p.sealExt.isSome then 8 else 0) + (if p.hasMap then 16 else 0) + p.payload.length + 4
/-- Blocks of the frame that carries it (R283, R285). -/
def Packet.blocks (p : Packet) : Nat := (8 + p.bytes + 31) / 32
/-- Buffer units of 64 bytes that it takes (R291). -/
def Packet.units (p : Packet) : Nat := (p.bytes + 63) / 64

/-- Bits [119:0] of the header (R337). -/
def Packet.fields (p : Packet) : Nat :=
  pack [(0, 3, p.channel), (3, 1, bnum p.sealExt.isSome), (4, 1, bnum p.hasMap), (5, 1, bnum p.failed), (6, 4, p.kind),
    (10, 24, p.dest.toNat), (34, 24, p.src.toNat), (58, 14, p.payload.length), (72, 48, p.addr)]
/-- The header: its fields and HCRC over them (R337). -/
def Packet.header (p : Packet) : List Byte :=
  let b := leBytes 15 p.fields
  b ++ leBytes 1 (p.badHcrc.getD (crc8 b))
/-- The seal extension (R338). -/
def Packet.extBytes (p : Packet) : List Byte :=
  match p.sealExt with | some (coin, q, c) => leBytes 4 coin ++ leBytes 1 q ++ leBytes 3 c | none => []
/-- The poison map (R338). -/
def Packet.mapBytes (p : Packet) : List Byte :=
  if p.hasMap then leBytes 16 (whichBits 128 (fun u => p.poison.contains u)) else []
/-- Every byte before the trailer (R336). -/
def Packet.body (p : Packet) : List Byte := p.header ++ p.extBytes ++ p.mapBytes ++ p.payload
/-- The bytes of a packet, with the CRC-32C of all before it as the trailer (R336, R340). -/
def Packet.wire (p : Packet) : List Byte := p.body ++ leBytes 4 (crc32c p.body).toNat

/-- The packet that a frame delivered, read where its header places the parts, and whether its trailer is right. LEN is held against
the blocks of the frame (R336 to R341). DESIGN CHOICE, log entry 80. -/
def Packet.ofWire (bs : List Byte) : Packet × Bool :=
  let w := leAt bs 0 16
  let ext := bit w 3
  let map := bit w 4
  let len := fld w 58 14
  let off := 16 + (if ext then 8 else 0) + (if map then 16 else 0)
  let marks := if map then leAt bs (off - 16) 16 else 0
  let size := off + len
  let crc := crc8 (bs.take 15)
  ({ channel := fld w 0 3, kind := fld w 6 4, dest := Coord.ofNat (fld w 10 24), src := Coord.ofNat (fld w 34 24), addr := fld w 72 48,
     payload := (bs.drop off).take len, sealExt := if ext then some (leAt bs 16 4, leAt bs 20 1, leAt bs 21 3) else none,
     poison := (List.range 128).filter (bit marks), pmap := map && marks == 0, failed := bit w 5,
     badHcrc := if fld w 120 8 = crc then none else some (fld w 120 8),
     lenOk := decide (len ≤ 8192) && (8 + size + 4 + 31) / 32 * 32 == 8 + bs.length },
   decide (size + 4 ≤ bs.length) && leAt bs size 4 == (crc32c (bs.take size)).toNat)

/-! ### Frames (R284 to R286) -/

/-- Bits [55:0] of the link tag (R284). -/
def tagFields (type vc seq blocks : Nat) (ack : Option Nat) : Nat :=
  pack [(0, 4, type), (4, 1, vc), (8, 16, seq), (24, 9, blocks), (33, 16, ack.getD 0), (49, 1, bnum ack.isSome)]
/-- The link tag (R284). -/
def tagBytes (type vc seq blocks : Nat) (ack : Option Nat) : List Byte :=
  let b := leBytes 7 (tagFields type vc seq blocks ack)
  b ++ leBytes 1 (crc8 b)
/-- The blocks that a frame is sent as (R283 to R286). -/
def Frame.blocks : Frame → List Block
  | .packet vc seq ack p => blocksOf (tagBytes 0 vc seq p.blocks ack ++ p.wire)
  | .control type vc ack body => blocksOf (tagBytes type vc 0 1 ack ++ padTo 24 body)

/-- What a receiver makes of the blocks that a frame came in: a frame, and for a packet whether its trailer is right; or one that
is discarded, and whether its TYPE reads as PACKET. -/
inductive Received where
  | frame (f : Frame) (crcOk : Bool)
  | bad (packet : Bool)
deriving DecidableEq, Repr

/-- Whether a run of blocks has its one start bit on the first (R283). -/
def oneStart : List Bool → Bool
  | [] => false
  | b :: rest => b && rest.all (!·)

/-- The frame that a run of blocks holds. It is bad when TAG_CRC is wrong, TYPE is reserved, or BLOCKS is out of range or is not
the number of blocks between one start bit and the next (R283 to R285). DESIGN CHOICE, log entry 80. -/
def readFrame (bs : List Block) : Received :=
  let bytes := bs.flatMap blockBytes
  let w := leAt bytes 0 8
  let type := fld w 0 4
  let len := fld w 24 9
  let ack := if bit w 49 then some (fld w 33 16) else none
  let whole := oneStart (bs.map blockStart)
  let range := if type = 0 then decide (1 ≤ len ∧ len ≤ 258) else len == 1
  if ¬ (whole && crc8 (bytes.take 7) == fld w 56 8 && decide (type ≤ 12) && range && len == bs.length) then .bad (type == 0)
  else if type = 0 then
    let (p, ok) := Packet.ofWire (bytes.drop 8)
    .frame (.packet (fld w 4 1) (fld w 8 16) ack p) ok
  else .frame (.control type (fld w 4 1) ack (bytes.drop 8)) true

/-! ### Lanes and codewords (R282, R283, R287) -/

/-- Active data lanes: 16 or 8, and lane 0 alone in KEEPALIVE (R280, R283, R295). -/
def Link.width (k : Link) : Nat := if k.st = .keepalive then 1 else if k.mode % 2 = 1 then 8 else 16
/-- The lane that block b of the transmit stream goes to: the spare in place of a spared lane (R283, R298). -/
def Port.laneOf (o : Port) (b : Nat) : Nat :=
  let l := (if o.link.mode % 2 = 1 ∧ o.link.st ≠ .keepalive then 8 * o.link.half else 0) + b % o.link.width
  match o.rep.txSwitch with | some (x, _) => if o.link.spareTx ∧ x = l then 16 else l | none => l
/-- Picoseconds that a lane takes for one block: a codeword of 5,440 bits carries twenty (R280, R282). -/
def Link.blockPs (k : Link) : Nat := if k.mode < 2 then 1280 else 2560
/-- Blocks that a lane has carried since TRAINING ended, when AO time is t (R287). -/
def Link.laneBlocks (k : Link) (t : Nat) : Nat := (t - k.cwFrom) * 1000 / k.blockPs
/-- Codewords that a lane has counted (R287). -/
def Link.codewords (k : Link) (t : Nat) : Nat := k.laneBlocks t / 20
/-- AO time of the end boundary of a codeword named modulo 2^32, seen at t: a number at or ahead of the count is still to come
(R286). DESIGN CHOICE, log entry 80. -/
def Link.boundary (k : Link) (t cw : Nat) : Nat :=
  let ahead := (cw + 2 ^ 32 - k.codewords t % 2 ^ 32) % 2 ^ 32
  if ahead < 2 ^ 31 then k.cwFrom + ((k.codewords t + ahead + 1) * 20 * k.blockPs + 999) / 1000 else t

end Sys2Proof.Machine
end

