-- ==== Sys2Proof/Machine/RouteOps.lean ====
section
/-!
DEFINITION. Packets on their way out: credits (R291), frames (R284 to R288), the fence (R359), injection
(R343, R352, R361) and the output queues of a port (R346).
-/
set_option autoImplicit false
namespace Sys2Proof.Machine

/-! ### Kinds -/

/-- A LOCAL packet is never routed (R339). -/
def Packet.isLocal (p : Packet) : Bool := p.kind == 0
/-- Packets that a drain holds back: C1 to C7 and MGMT, the responses to READ_REQ packets apart (R361). -/
def Packet.drains (p : Packet) : Bool := (p.channel != 0 && p.kind != 8 && p.kind != 9) || p.kind == 1

/-- Buffer of a channel per VC, in units of 64 bytes (R291). DESIGN CHOICE, log entry 61. -/
def bufferUnits (ch : Nat) : Nat := match ch with | 2 | 3 => 4096 | 4 | 6 => 2048 | 7 => 1024 | _ => 256

/-! ### Frames -/

/-- The cumulative acknowledgement that an outgoing frame's tag carries (R284). -/
def Link.ack (k : Link) : Option Nat := if k.rxAny then some ((k.rxSeq + 65535) % 65536) else none

/-- A frame leaves on port n: its blocks follow the last one sent, and each goes to its lane. Idle blocks fill the time before it
(R283). DESIGN CHOICE, log entry 80. -/
def State.sendFrame (s : State) (n : Nat) (f : Frame) : State :=
  let o := s.port n
  let bs := f.blocks
  let first := max o.link.txBlock (o.link.width * o.link.laneBlocks s.aoNs)
  let lanes := ((List.range bs.length).zip bs).map (fun x => (o.laneOf (first + x.1), x.2))
  (s.emit (.frame n first lanes)).modLink n (fun k => { k with txBlock := first + bs.length })

/-- A control frame leaves on port n (R284 to R286). -/
def State.sendCtl (s : State) (n type vc : Nat) (body : List Byte) : State :=
  s.sendFrame n (.control type vc (s.port n).link.ack (padTo 24 body))

/-- Bytes that the replay buffer holds (R288). -/
def Link.replayBytes (k : Link) : Nat :=
  k.replay.foldl (fun a f => match f with | .packet _ _ _ p => a + 32 * p.blocks | _ => a) 0

/-- Credit that the transmitter holds for a channel and VC (R287, R291). -/
def Link.credit (k : Link) (vc ch : Nat) : Nat :=
  bufferUnits ch - (tget k.usedCr 0 (vc * 8 + ch) + 65536 - tget k.granted 0 (vc * 8 + ch)) % 65536

/-- CREDIT's body: running totals of freed units for a VC, modulo 2^16 (R286, R291). -/
def Link.creditBody (k : Link) (vc : Nat) : List Byte :=
  (List.range 8).flatMap (fun ch => leBytes 2 (tget k.freed 0 (vc * 8 + ch) % 65536))

/-- The buffer that a packet held at input port n, VC vc, is freed, and a CREDIT frame is sent (R291). -/
def State.freeBuffer (s : State) (n vc : Nat) (p : Packet) : State :=
  let s := s.modLink n (fun k => { k with freed := tmod k.freed 0 (vc * 8 + p.channel) (fun x => (x + p.units) % 65536) })
  if (s.port n).link.st = .up ∨ (s.port n).link.st = .keepalive then s.sendCtl n 3 vc ((s.port n).link.creditBody vc) else s

/-- The replay buffer's size in bytes (R288). -/
def replayMax : Nat := 524288

/-- Whether a queued packet may be sent now (R288, R291, R294, R295, R298). -/
def Port.maySend (o : Port) (q : Queued) : Bool :=
  (o.link.st == .up || (o.link.st == .keepalive && q.packet.channel == 0)) && !o.rep.stopped &&
  decide (o.link.replayBytes + 32 * q.packet.blocks ≤ replayMax) &&
  decide (q.packet.units ≤ o.link.credit q.vc q.packet.channel)

/-- The order in which a port serves: C0, then C1, then C2 to C7 from the round-robin pointer; within a channel VC 1
before VC 0 (R346). -/
def serveOrder (rr : Nat) : List (Nat × Nat) :=
  ([0, 1] ++ (List.range 6).map (fun i => 2 + (rr - 2 + i) % 6)).flatMap (fun c => [(c, 1), (c, 0)])

/-- The input that a queued packet came in by: its port, or 8 for the device's own injection (R346). -/
def Queued.input (q : Queued) : Nat := match q.held with | some (i, _) => i | none => 8

/-- Of the packets queued for one channel and VC, the one that leaves next: the oldest of an input, the inputs in round-robin (R346). -/
def Port.nextOn (o : Port) (ch vc : Nat) : Option Queued :=
  let qs := o.link.txq.filter (fun q => q.packet.channel == ch && q.vc == vc)
  ((List.range 9).map (fun i => (tget o.link.rrIn 0 (vc * 8 + ch) + i) % 9)).findSome? (fun i =>
    match qs.find? (fun q => q.input == i) with
    | some q => if o.maySend q then some q else none
    | none => none)

/-- The queued packet that a port sends next: that of the first channel and VC that may send (R346). -/
def Port.nextOut (o : Port) : Option Queued := (serveOrder o.link.rr).findSome? (fun cv => o.nextOn cv.1 cv.2)

/-- One queued packet leaves port n as a PACKET frame (R287, R288). -/
def State.sendOne (s : State) (n : Nat) (q : Queued) : State :=
  let k := (s.port n).link
  let f := Frame.packet q.vc k.txSeq k.ack q.packet
  let ix := q.vc * 8 + q.packet.channel
  let s := s.modLink n (fun k =>
    { k with txq := k.txq.erase q, txSeq := (k.txSeq + 1) % 65536, replay := k.replay ++ [f],
             usedCr := tmod k.usedCr 0 ix (fun x => (x + q.packet.units) % 65536),
             rrIn := tset k.rrIn 0 ix ((q.input + 1) % 9), rr := if 2 ≤ q.packet.channel then 2 + (q.packet.channel - 1) % 6 else k.rr,
             lastTraffic := if q.packet.channel = 0 then k.lastTraffic else s.aoNs })
  let s := s.sendFrame n f
  match q.held with | some (i, v) => s.freeBuffer i v q.packet | none => s

/-- Port n sends what its credits and its replay buffer allow. -/
def State.pumpN (s : State) (n : Nat) : Nat → State
  | 0 => s
  | fuel + 1 => match (s.port n).nextOut with
    | some q => (s.sendOne n q).pumpN n fuel
    | none => s

/-- Port n sends until nothing more may go. Waiting traffic of other channels starts the exit from KEEPALIVE (R295). -/
def State.pump (s : State) (n : Nat) : State :=
  let s := s.pumpN n (s.port n).link.txq.length
  if (s.port n).link.st = .keepalive ∧ (s.port n).link.txq.any (fun q => q.packet.channel != 0) then
    s.sendCtl n 12 0 (leBytes 1 2)
  else s

/-! ### Injection -/

/-- What became of a packet that a unit of the device injects: a port whose unit words disagree takes no new work (R27, R352, R359). -/
inductive Sent where
  | sent | denied | noPort | mismatch
deriving DecidableEq, Repr

/-- The status of the work whose packet was not sent (R27, R352, R359). -/
def Sent.status : Sent → Status | .sent => .ok | .denied => .denied | .noPort => .linkAbsent | .mismatch => .stateMismatch

/-- A coordinate in the layout of R505 and R316. -/
def coordData (c : Coord) : Nat × Nat := (4, c.toNat)

/-- The fence stops a packet (R359). -/
def State.fenced (s : State) (p : Packet) (out : Bool) : State :=
  let s := s.modRtr (fun r => if out then { r with fenceOut := satAdd 0xFFFF r.fenceOut 1 }
    else { r with fenceIn := satAdd 0xFFFF r.fenceIn 1 })
  s.logLimited .sliceFence 0 second (srcBlock 0) [coordData p.src, coordData p.dest, (1, p.channel)]

/-- A packet is dropped because its next hop is not ACTIVE (R352). -/
def State.dropNoPort (s : State) (n : Nat) : State :=
  (s.modRtr (fun r => { r with noPort := satAdd 0xFFFF r.noPort 1 })).logLimited .routeNoPort n second (srcPort n) [(1, n)]

/-- Whether the neighbour on port n lies outside the slice in force. -/
def State.leavesSlice (s : State) (n : Nat) : Bool :=
  match s.neighbour n with | some c => !s.inSlice c | none => true

/-- One more routed packet received, forwarded or sent (R364). DESIGN CHOICE, log entry 72. -/
def State.moved (s : State) : State := s.modRtr (fun r => { r with moved := satAdd 0xFFFFFFFF r.moved 1 })

/-- A packet joins the output queue of port n. -/
def State.enqueue (s : State) (n : Nat) (q : Queued) : State :=
  (s.modLink n (fun k => { k with txq := k.txq ++ [q] })).pump n

/-- Whether the words of port n disagree, so that it takes no new packet of this device but the answers to requests
(R27). DESIGN CHOICE, log entry 79. -/
def State.portRefuses (s : State) (n : Nat) (p : Packet) : Bool :=
  p.channel != 0 && p.channel != 6 && (s.unit (UnitName.code ⟨.port, n⟩)).mismatch

/-- A packet for another device leaves by its next hop, after the fence (R27, R343, R352, R359). -/
def State.launch (s : State) (p : Packet) : Sent × State :=
  if p.channel ≠ 0 ∧ ¬ s.inSlice p.dest then (.denied, s.fenced p true)
  else
    let (n, vc) := s.nextHop p none
    if p.channel ≠ 0 ∧ s.leavesSlice n then (.denied, s.fenced p true)
    else if ¬ s.active n then (.noPort, s.dropNoPort n)
    else if s.portRefuses n p then (.mismatch, s)
    else (.sent, (s.moved).enqueue n { vc := vc, packet := p })

/-- The answer to a packet that the fence stopped leaves without being fenced itself (R359). -/
def State.launchAnswer (s : State) (p : Packet) : State :=
  let (n, vc) := s.nextHop p none
  if ¬ s.active n then s.dropNoPort n else (s.moved).enqueue n { vc := vc, packet := p }

/-- A unit of the device injects a packet for another device. While the device drains, it waits (R361). -/
def State.inject (s : State) (p : Packet) : Sent × State :=
  if s.rtr.drain ∧ p.drains then (.sent, s.modRtr (fun r => { r with injectQ := r.injectQ ++ [{ packet := p }] }))
  else s.launch p

/-- DRAINED (R361). -/
def State.isDrained (s : State) : Bool :=
  s.rtr.drain && s.rtr.injectQ.isEmpty && s.rtr.reads.isEmpty && s.rtr.inbox.all (fun q => q.packet.isLocal) && s.rtr.kept.isEmpty &&
  (List.range 8).all (fun n => (s.port n).link.replay.isEmpty && (s.port n).link.txq.all (fun q => q.packet.isLocal))

/-- A packet of this device. -/
def State.packet (s : State) (channel kind : Nat) (dest : Coord) (addr : Nat) (payload : List Byte) : Packet :=
  { channel := channel, kind := kind, dest := dest, src := s.here, addr := addr, payload := payload }

/-- A LOCAL packet on port n (R339, R358). It is consumed by the neighbour and never routed. -/
def State.sendLocal (s : State) (n addr : Nat) (payload : List Byte) : State :=
  s.enqueue n { vc := 0, packet := s.packet 0 0 ((s.neighbour n).getD s.here) addr payload }

end Sys2Proof.Machine
end

