-- ==== Sys2Proof/Machine/CoinOps.lean ====
section
/-!
DEFINITION. Coin queues (13_coin_queues.md): the queue unit's operations and its release rule, the delivery of results
to requesters, coin packets and the owner reset; and the scheduling of tile contexts (R176, R180), which waits stall.
-/
set_option autoImplicit false
namespace Sys2Proof.Machine

/-! ### Tile contexts (R176, R180) -/

/-- The first READY context counting upward, cyclically, from i (R176). -/
def Core.nextReady (k : Core) (i : Nat) : Option Nat :=
  ((List.range 48).map (fun n => (i + 1 + n) % 48)).find? (fun n => (tget k.ctxs {} n).st == .ready)

/-- Whether some context of the core is RUNNING. -/
def Core.hasRunning (k : Core) : Bool := k.ctxs.any (fun x => x.2.st == .running)

/-- Context i changed by f. -/
def Core.modCtx (k : Core) (i : Nat) (f : Context → Context) : Core := { k with ctxs := tmod k.ctxs {} i f }

/-- The next READY context after i runs, if none does (R176). DESIGN CHOICE, log entry 12. -/
def Core.select (k : Core) (i : Nat) : Core :=
  if k.hasRunning then k else
  match k.nextReady i with
  | some j => k.modCtx j (fun c => { c with st := .running })
  | none => k

/-- The latest retire cycle of the writes that context i has issued (R180). -/
def Core.retireOf (k : Core) (i : Nat) : Nat :=
  (k.writes.filter (fun w => w.ctx == i)).foldl (fun a w => max a w.land) 0

/-- Context i passes a point at which it can stall: its next operation issues no earlier than the retire cycle of every write it has
issued (R180). -/
def Core.barrierAt (k : Core) (i : Nat) : Core := k.modCtx i (fun c => { c with barrier := max c.barrier (k.retireOf i) })

/-- Context i stalls, which is a retire barrier, and the next READY context is selected (R176, R180). -/
def Core.stall (k : Core) (i : Nat) (on : StallOn) : Core :=
  (k.modCtx i (fun c => { c with st := .stalled, on := on, barrier := max c.barrier (k.retireOf i) })).select i

/-- A stalled context becomes READY, and runs if no other context does (R176). -/
def Core.unstall (k : Core) (i : Nat) : Core :=
  if (tget k.ctxs {} i).st = .stalled then
    (k.modCtx i (fun c => { c with st := .ready, on := .nothing })).select ((i + 47) % 48)
  else k

/-- The running layer of core p ends with a status other than OK unless it already has one (R165, R421). DEDUCED, log entry 60. -/
def State.spoil (s : State) (p : Nat) (st : Status) : State :=
  s.modCore p (fun k => { k with running := k.running.map (fun ly =>
    if ly.status = .ok then { ly with status := st } else ly) })

/-! ### Waking a cluster (R404, R464, R465) -/

/-- Something needs cluster c, or has needed it until now (R464, R465). -/
def State.using (s : State) (c : Nat) : State := s.modClock c (fun k => { k with used := s.aoNs })

/-- A request of cluster c: a gated one returns to RUN, and device time passes as R465 bounds it. -/
def State.wake (s : State) (c : Nat) : State :=
  let t := match (s.cluster c).clock.cstate with | 1 => 12000 | 2 => 40000 | _ => 0
  if t = 0 then s.using c
  else
    let s := s.reach (s.aoNs + t)
    s.modClock c (fun k => { k with cstate := 0, since := s.aoNs, used := s.aoNs })

/-! ### Results and requesters -/

/-- A result other than OK, of a TAKE_N or another operation; its coin field is 0 (R411). -/
def CoinResult.bad (st : Status) (many : Bool := false) : CoinResult := { status := st, many := many }

/-- The result word of R411. -/
def CoinResult.word (r : CoinResult) : Nat :=
  r.first.toNat + r.status.code * 2 ^ 32 + (r.count % 128) * 2 ^ 40

/-- Whether a result is that of an operation through the remote window or of a local wait. -/
inductive Via where
  | here (queue : Nat)
  | remote
deriving DecidableEq, Repr

/-- A result reaches the sequencer of cluster c: it is kept, and a wait on a coin ends; a halted one finds it at the
debug resume (R411, R412, R428). -/
def State.toSequencer (s : State) (c : Nat) (via : Via) (r : CoinResult) : State :=
  s.modCluster c (fun k =>
    let v := match via with
      | .here q => { k.coin with result := r, takenOr := if r.many then tset k.coin.takenOr {} q r else k.coin.takenOr }
      | .remote => { k.coin with remote := r, outstanding := false }
    let q := k.seq
    let q := if q.waitOn = .coin then
        (match q.st with
         | .waiting => { q with st := .running, waitOn := .none }
         | .halted => { q with resume := .running, waitOn := .none, remainder := 0 }
         | _ => q)
      else q
    { k with coin := v, seq := q })

/-- A result reaches a tile context, which becomes READY; a status other than OK ends its layer (R421). DEDUCED, log entry 60. -/
def State.toContext (s : State) (p i : Nat) (r : CoinResult) : State :=
  let s := s.modCore p (fun k => (k.modCtx i (fun c => { c with coin := r })).unstall i)
  if r.status = .ok then s else s.spoil p r.status

/-- A result reaches a requester of cluster c of this device. -/
def State.toRequester (s : State) (c : Nat) (who : Requester) (via : Via) (r : CoinResult) : State :=
  match who with
  | .sequencer => s.toSequencer c via r
  | .context pos i => s.toContext (c * 12 + pos) i r
  | .outside _ _ _ => s

/-- TAG of a requester of cluster c (R414). -/
def tagOf (c : Nat) : Requester → Nat
  | .sequencer => c + 15 * 8
  | .context pos i => c + pos * 8 + i * 128
  | .outside _ _ t => t
/-- The requester that a TAG names, with its cluster (R414). -/
def ofTag (t : Nat) : Nat × Requester :=
  (fld t 0 3, if fld t 3 4 = 15 then .sequencer else .context (fld t 3 4) (fld t 7 6))

/-- The REPLY's payload (R414). -/
def replyBytes (tag : Nat) (r : CoinResult) : List Byte :=
  leBytes 4 r.first.toNat ++ leBytes 4 r.last.toNat ++ leBytes 4 r.all.toNat ++ leBytes 2 tag ++
  leBytes 1 r.status.code ++ leBytes 1 (r.count % 128)
/-- The result that a REPLY's payload carries (R414). -/
def replyResult (bs : List Byte) : CoinResult :=
  { first := BitVec.ofNat 32 (leAt bs 0 4), last := BitVec.ofNat 32 (leAt bs 4 4), all := BitVec.ofNat 32 (leAt bs 8 4),
    status := Status.ofCode (leAt bs 14 1), count := fld (leAt bs 15 1) 0 7 }
/-- ADDR of a COIN packet (R413). -/
def coinAddr (q c op n : Nat) : Nat := q + c * 2 ^ 8 + op * 2 ^ 12 + n * 2 ^ 16

/-- A REPLY reaches this device: it is delivered to the wait that its TAG names, or dropped as late (R415). -/
def State.replyIn (s : State) (src : Coord) (q c tag : Nat) (r : CoinResult) : State :=
  let (rc, who) := ofTag tag
  match s.rtr.coinWaits.find? (fun w => w.cluster == rc && w.who == who && w.target == src && w.tcluster == c && w.queue == q) with
  | some w => (s.modRtr (fun x => { x with coinWaits := x.coinWaits.erase w })).toRequester rc who .remote r
  | none =>
    let s := s.modCluster rc (fun k => { k with counts := { k.counts with replyLate := satAdd 0xFFFF k.counts.replyLate 1 } })
    s.log .coinReplyLate (srcCluster rc) [(4, r.first.toNat), (4, r.last.toNat)]

/-- A result leaves the queue unit of cluster c for its requester: at once on this device, as a REPLY elsewhere
(R411, R415). -/
def State.answer (s : State) (c q : Nat) (who : Requester) (r : CoinResult) : State :=
  match who with
  | .outside src _ tag =>
    let r := if r.many then r else { r with last := 0, all := 0 }
    if src = s.here then s.replyIn s.here q c tag r
    else (s.inject (s.packet 6 2 src (coinAddr q c 5 0) (replyBytes tag r))).2
  | w => s.toRequester c w (.here q) r

/-! ### The queue unit (R406 to R409) -/

/-- Queue q of cluster c. -/
def State.queue (s : State) (c q : Nat) : Queue := tget (s.cluster c).queues {} q
/-- Queue q of cluster c changed by f. -/
def State.modQueue (s : State) (c q : Nat) (f : Queue → Queue) : State :=
  s.modCluster c (fun k => { k with queues := tmod k.queues {} q f })

/-- What a waiter needs (R409). -/
def Waiter.need (w : Waiter) : Nat := w.n.getD 1

/-- The result that released coins give (R407). -/
def takenResult (w : Waiter) (got : List W32) (left : Nat) : CoinResult :=
  match w.n with
  | none => { first := got.headD 0, count := left }
  | some _ => { first := got.headD 0, last := (got.getLast?).getD 0, all := got.foldl (· ||| ·) 0, count := left, many := true }

/-- R409: head waiters are released while the queue holds the coins they need. -/
def Queue.release (q : Queue) : Nat → List (Waiter × CoinResult) × Queue
  | 0 => ([], q)
  | n + 1 =>
    match q.waiters with
    | [] => ([], q)
    | w :: ws =>
      if w.need ≤ q.coins.length then
        let rest := q.coins.drop w.need
        let x := Queue.release { coins := rest, waiters := ws } n
        ((w, takenResult w (q.coins.take w.need) rest.length) :: x.1, x.2)
      else ([], q)

/-- R409 applied to queue q of cluster c, and the results delivered. -/
def State.release (s : State) (c q : Nat) : State :=
  let x := (s.queue c q).release (s.queue c q).waiters.length
  x.1.foldl (fun s r => s.answer c q r.1.who r.2) (s.modQueue c q (fun _ => x.2))

/-- Coins appended as one operation: waiters are released first, then coins are kept up to 64 and the rest dropped
(R407, R409, R428). -/
def State.putCoins (s : State) (c q : Nat) (coins : List W32) : State :=
  let s := (s.modQueue c q (fun x => { x with coins := x.coins ++ coins })).release c q
  let excess := (s.queue c q).coins.length - 64
  if excess = 0 then s
  else
    let s := s.modQueue c q (fun x => { x with coins := x.coins.take 64 })
    let s := s.modCluster c (fun k => { k with counts := { k.counts with overflow := satAdd 0xFFFF k.counts.overflow excess } })
    s.logLimited .coinOverflow (c * 256 + q) second (srcCluster c) [(1, q)]

/-- Deadline of a wait that begins now on a queue of cluster c (R421, R426). -/
def State.coinDeadline (s : State) (c : Nat) : Nat := s.aoNs + (s.cluster c).coinTimeout * 1000000

/-- Whether a requester lies outside the cluster of the queue. -/
def Requester.isOutside : Requester → Bool
  | .outside _ _ _ => true
  | _ => false

/-- Waiter entries that waits from outside cluster c hold (R406). -/
def State.outsideWaits (s : State) (c : Nat) : Nat :=
  (s.cluster c).queues.foldl (fun a q => a + (q.2.waiters.filter (·.who.isOutside)).length) 0

/-- A wait joins the list of queue q (R406, R409). -/
def State.joinQueue (s : State) (c q : Nat) (who : Requester) (n : Option Nat) : State :=
  if who.isOutside ∧ 447 ≤ s.outsideWaits c then
    (s.modCluster c (fun k => { k with counts := { k.counts with remoteFull := satAdd 0xFFFF k.counts.remoteFull 1 } })).answer c q who
      (.bad .denied n.isSome)
  else
    (s.modQueue c q (fun x => { x with waiters := x.waiters ++ [⟨who, n, s.coinDeadline c⟩] })).release c q

/-- What PEEK returns: the oldest coin, the coins and, in `all`, the waiters (R407). -/
def Queue.peek (q : Queue) : CoinResult :=
  { first := q.coins.headD 0, all := BitVec.ofNat 32 q.waiters.length, count := q.coins.length }

/-- A coin dropped during a reset window (R423) or while the queues are saved (R424). -/
def State.dropCoin (s : State) (c : Nat) : State :=
  let k := s.cluster c
  if k.resetWindow then
    s.modCluster c (fun k => { k with
      counts := { k.counts with droppedReset := satAdd 0xFFFF k.counts.droppedReset 1 }, droppedInWindow := k.droppedInWindow + 1 })
  else
    let s' := s.modCluster c (fun k => { k with
      counts := { k.counts with droppedPreempt := satAdd 0xFFFF k.counts.droppedPreempt 1 }, droppedInWindow := k.droppedInWindow + 1 })
    if k.droppedInWindow = 0 then s'.log .coinDroppedPreempt (srcCluster c) [] else s'

/-- n of TAKE_N and BELL is 1 to 64 (R407). -/
def CoinOp.legal : CoinOp → Bool
  | .takeN n | .bell _ n => decide (1 ≤ n ∧ n ≤ 64)
  | _ => true

/-- Whether an operation is answered. -/
def CoinOp.waits : CoinOp → Bool
  | .take | .takeN _ | .peek => true
  | _ => false

/-- Whether an operation is a TAKE_N. -/
def CoinOp.isTakeN : CoinOp → Bool | .takeN _ => true | _ => false

/-- An operation applied by the queue unit of cluster c; a gated cluster wakes for it (R404, R407, R409, R422 to R424). -/
def State.coinApply (s : State) (c q : Nat) (who : Requester) (op : CoinOp) : State :=
  let s := s.wake c
  let k := s.cluster c
  if ¬ op.legal then s.answer c q who (.bad .malformed op.isTakeN)
  else if k.resetWindow then
    if op.waits then s.answer c q who (.bad .voidCoin op.isTakeN) else s.dropCoin c
  else if k.saved then
    if op.waits then s else s.dropCoin c
  else match op with
    | .deposit v => s.putCoins c q [v]
    | .bell v n => s.putCoins c q (List.replicate n v)
    | .take => s.joinQueue c q who none
    | .takeN n => s.joinQueue c q who (some n)
    | .peek => s.answer c q who (s.queue c q).peek

/-- A completion coin of the collective unit (R380, R405). -/
def State.collectiveCoin (s : State) (c q : Nat) (v : W32) : State :=
  s.coinApply c q (.outside s.here c 0) (.deposit v)

/-! ### Local operations -/

/-- Whether a requester of cluster c can issue an operation: its sequencer or its context is RUNNING. DESIGN CHOICE, log entry 12. -/
def State.canIssue (s : State) (c : Nat) : Requester → Bool
  | .sequencer => (s.cluster c).seq.st == .running
  | .context pos i => (tget (s.core (c * 12 + pos)).ctxs {} i).st == .running
  | .outside _ _ _ => true

/-- A requester begins to wait on a coin (R157, R405). -/
def State.waitCoin (s : State) (c : Nat) : Requester → State
  | .sequencer => s.modSeq c (fun q => { q with st := .waiting, waitOn := .coin })
  | .context pos i => s.modCore (c * 12 + pos) (fun k => k.stall i .coin)
  | .outside _ _ _ => s

/-- An operation that a requester of cluster c issues to a queue of its own cluster. -/
def State.coinLocal (s : State) (c q : Nat) (who : Requester) (op : CoinOp) : State :=
  if decide (c < 8) && decide (q < 256) && s.canIssue c who then
    (match op with
     | .take => (s.waitCoin c who).coinApply c q who op
     | .takeN _ => if op.legal then (s.waitCoin c who).coinApply c q who op else s.coinApply c q who op
     | _ => s.coinApply c q who op)
  else s

/-! ### Remote operations (R412 to R416) -/

/-- The operation of a COIN packet's OP and N with its coin. -/
def coinOpOf (op n : Nat) (v : W32) : Option CoinOp :=
  match op with
  | 0 => some (.deposit v) | 1 => some .take | 2 => some (.takeN n) | 3 => some .peek | 4 => some (.bell v n)
  | _ => none
/-- OP, N and coin of an operation (R413). -/
def CoinOp.fields : CoinOp → Nat × Nat × W32
  | .deposit v => (0, 0, v) | .take => (1, 0, 0) | .takeN n => (2, n, 0) | .peek => (3, 0, 0) | .bell v n => (4, n, v)

/-- An operation of a requester of cluster c on a queue outside the cluster (R412, R416). -/
def State.coinRemote (s : State) (c : Nat) (who : Requester) (dest : Coord) (tc q : Nat) (op : CoinOp) : State :=
  if ¬ op.legal then s.toRequester c who .remote (.bad .malformed)
  else
    let tag := tagOf c who
    let wait : CoinWait := { who := who, cluster := c, target := dest, tcluster := tc, queue := q, guard := s.coinDeadline c + 100000000 }
    let s1 := if op.waits then s.modRtr (fun r => { r with coinWaits := r.coinWaits ++ [wait] }) else s
    if dest = s.here then
      let s2 := s1.coinApply tc q (.outside s.here c tag) op
      if op.waits then s2 else s2.toRequester c who .remote {}
    else
      let (o, n, v) := op.fields
      let p := s.packet 1 2 dest (coinAddr q tc o n) (leBytes 4 v.toNat ++ List.replicate 8 0 ++ leBytes 2 tag ++ [0, 0])
      match s1.inject p with
      | (.denied, s2) => (s2.modRtr (fun r => { r with coinWaits := r.coinWaits.erase wait })).toRequester c who .remote (.bad .denied)
      | (.mismatch, s2) => (s2.modRtr (fun r => { r with coinWaits := r.coinWaits.erase wait })).toRequester c who .remote (.bad .stateMismatch)
      | (_, s2) => if op.waits then s2 else s2.toRequester c who .remote {}

/-- Whether a delivered packet is the first of its source and channel in the router's buffers; a packet that is not in
them came through the die fabric (R221, R350). DESIGN CHOICE, log entry 12. DESIGN CHOICE, log entry 72. -/
def State.inTurn (s : State) (p : Packet) : Bool :=
  match s.rtr.inbox.find? (fun q => q.packet.src == p.src && q.packet.channel == p.channel && q.packet.kind != 0) with
  | some q => q.packet == p || !s.rtr.inbox.any (fun q => q.packet == p)
  | none => true

/-- A packet that this device has delivered to a unit is consumed: its buffer is freed (R291). A packet that is not in
the router's buffers came through the die fabric. -/
def State.consumed (s : State) (p : Packet) : State :=
  match s.rtr.inbox.find? (fun q => q.packet == p) with
  | some q =>
    let s := s.modRtr (fun r => { r with inbox := r.inbox.erase q })
    match q.held with | some (n, v) => s.freeBuffer n v p | none => s
  | none => s

/-- A segment is taken from the router; `q` is the packet as the collective unit uses it. Its buffer stays filled until `freeKept`
(R252, R291). -/
def State.takeIn (s : State) (p q : Packet) : State :=
  match s.rtr.inbox.find? (fun x => x.packet == p) with
  | some x => s.modRtr (fun r => { r with inbox := r.inbox.erase x, kept := r.kept ++ [{ queued := x, packet := q }] })
  | none => s

/-- Whether the collective unit still holds a segment, or a landing of it. DESIGN CHOICE, log entry 61. -/
def State.keeps (s : State) (k : KeptBuffer) : Bool :=
  s.col.heldSegs.contains k.packet || (k.lands && s.settle.heldLands != [])

/-- The buffers of segments that the collective unit no longer holds are freed, so credits flow back to the sender (R252, R291). -/
def State.freeKept (s : State) : State :=
  let out := s.rtr.kept.filter (fun k => !s.keeps k)
  out.foldl (fun s k => match k.queued.held with | some (n, v) => s.freeBuffer n v k.queued.packet | none => s)
    (s.modRtr (fun r => { r with kept := r.kept.filter (fun k => s.keeps k) }))

/-- A packet that no unit can take is dropped and counted (R366). -/
def State.badPacket (s : State) : State := s.modRtr (fun r => { r with badPkt := satAdd 0xFFFF r.badPkt 1 })

/-- Whether a COIN request packet is well formed (R413). -/
def coinPacketOk (p : Packet) : Bool :=
  decide (fld p.addr 12 4 ≤ 4) && !bit p.addr 11 && fld p.addr 23 25 == 0 && !bit (leAt p.payload 15 1) 7 &&
  (match fld p.addr 12 4 with
   | 2 | 4 => decide (1 ≤ fld p.addr 16 7 ∧ fld p.addr 16 7 ≤ 64)
   | _ => true)

/-- A COIN request from another cluster is applied (R413 to R415). -/
def State.coinRequest (s : State) (p : Packet) : State :=
  let s := s.consumed p
  if coinPacketOk p then
    match coinOpOf (fld p.addr 12 4) (fld p.addr 16 7) (BitVec.ofNat 32 (leAt p.payload 0 4)) with
    | some op => s.coinApply (fld p.addr 8 3) (fld p.addr 0 8) (.outside p.src (fld (leAt p.payload 12 2) 0 3) (leAt p.payload 12 2)) op
    | none => s.badPacket
  else s.badPacket

/-! ### Deadlines (R421) -/

/-- A wait of cluster c on queue q ends at its deadline (R421). -/
def State.coinTimedOut (s : State) (c q : Nat) (who : Requester) (deadline : Nat) (w : Option Waiter) : State :=
  let s := s.reach deadline
  let s := s.modCluster c (fun k => { k with counts := { k.counts with timeouts := satAdd 0xFFFF k.counts.timeouts 1 } })
  let s := s.logLimited .coinWaitTimeout (c * 256 + q) second (srcCluster c) [(1, q), (2, tagOf c who)]
  match w with
  | some w => ((s.modQueue c q (fun x => { x with waiters := x.waiters.erase w })).answer c q who (.bad .waitTimeout w.n.isSome)).release c q
  | none => s.toRequester c who .remote (.bad .waitTimeout)

/-- Whether a waiter's deadline stands still for a debug halt (R428). DEDUCED, log entry 56. -/
def State.deadlineStopped (s : State) (c : Nat) (w : Waiter) : Bool :=
  w.who == .sequencer && (s.cluster c).seq.st == .halted

/-! ### Reset and pre-emption (R422 to R425) -/

/-- A cluster's own waits are forgotten: waiters in its queues and its remote operations (R422). -/
def State.dropOwnWaits (s : State) (c : Nat) : State :=
  (s.modCluster c (fun k => { k with
     queues := tmods k.queues {} (List.range 256) (fun _ q => { q with waiters := q.waiters.filter (·.who.isOutside) }),
     coin := { k.coin with outstanding := false } })).modRtr
    (fun r => { r with coinWaits := r.coinWaits.filter (fun w => w.cluster != c) })

/-- Coins that cluster c's queues hold. -/
def State.coinsHeld (s : State) (c : Nat) : Nat := (s.cluster c).queues.foldl (fun a q => a + q.2.coins.length) 0

/-- The owner reset of a cluster's queues: outside waiters wake with VOID_COIN, unless the device resets, and every
queue empties (R422). Answers how many coins were discarded. DESIGN CHOICE, log entry 62. -/
def State.ownerReset (s : State) (c : Nat) (wake : Bool) : Nat × State :=
  let coins := s.coinsHeld c
  let ws := (s.cluster c).queues.flatMap (fun q => (q.2.waiters.filter (·.who.isOutside)).map (fun w => (q.1, w.who)))
  let s := (s.dropOwnWaits c).modCluster c (fun k => { k with queues := [], resetWindow := true, droppedInWindow := 0 })
  (coins, if wake then ws.foldl (fun s w => s.answer c w.1 w.2 (.bad .voidCoin)) s else s)

/-- The reset window of cluster c ends (R422, R423). DESIGN CHOICE, log entry 62. -/
def State.endWindow (s : State) (c : Nat) : State :=
  let k := s.cluster c
  if k.resetWindow then
    let s := s.modCluster c (fun k => { k with resetWindow := false, droppedInWindow := 0 })
    if k.droppedInWindow = 0 then s else s.log .coinDroppedReset (srcCluster c) [(4, k.droppedInWindow)]
  else s

/-- The save of a cluster's queues (R424): they are emptied, and operations are dropped until RESUME. -/
def State.saveQueues (s : State) (c : Nat) : State :=
  s.modCluster c (fun k => { k with queues := [], saved := true, droppedInWindow := 0 })

/-- RESUME reissues the saved waiters in order, each with a fresh deadline (R425). -/
def State.restoreQueues (s : State) (c : Nat) (saved : Tab Queue) : State :=
  let dl := s.coinDeadline c
  let fresh := saved.map (fun q => (q.1, { q.2 with waiters := q.2.waiters.map (fun w => { w with deadline := dl }) }))
  let s := s.modCluster c (fun k => { k with queues := fresh, saved := false, droppedInWindow := 0 })
  fresh.foldl (fun s q => s.release c q.1) s

end Sys2Proof.Machine
end

