-- ==== Sys2Proof/Machine/HostOps.lean ====
section
/-!
DEFINITION. Completions and rings (R434 to R438, R448 to R453, R460), and the unit state words (R25 to R27, R447,
R492, R525, R526).
-/
set_option autoImplicit false
namespace Sys2Proof.Machine

/-! ### Completion entries (R448 to R452) -/

/-- The 32 bytes of a completion entry (R448). DESIGN CHOICE, log entry 43. -/
def Completion.bytes (c : Completion) (fetched : Nat) (phase : Bool) : List Byte :=
  leBytes 4 c.tag ++ leBytes 4 fetched ++ leBytes 1 c.status.code ++ leBytes 1 c.opcode ++
  leBytes 1 (bnum phase + (c.cluster % 8) * 2) ++ [0] ++ leBytes 4 c.result ++ leBytes 4 c.guard ++ leBytes 4 c.detail ++
  leBytes 8 c.time

/-- Whether ring n still has a fetched descriptor without its completion entry (R438). -/
def State.ringBusy (s : State) (n : Nat) : Bool :=
  (s.ring n).waiting != [] || (s.ring n).heldComps != [] || s.host.inflight.any (fun d => d.ring == n) ||
  s.preempts.any (fun d => d.ring == n)

/-- A ring that is no longer enabled becomes DISABLED when every fetched descriptor has its entry (R438). -/
def State.settleRing (s : State) (n : Nat) : State :=
  if ¬ (s.ring n).enable ∧ ¬ s.ringBusy n then s.modRing n (fun r => { r with st := .disabled }) else s

/-- A completion entry is written to host memory, and its vector is signalled (R449, R453). -/
def State.writeEntry (s : State) (n : Nat) (c : Completion) : State :=
  let r := s.ring n
  let s := s.emit (.hostWrite (r.slot 32) (c.bytes r.fetched r.phase) false)
  let s := s.modRing n Ring.wrote
  s.signal r.vector c.irq

/-- A completion goes to its ring, or waits in order while the ring is full (R437). -/
def State.postEntry (s : State) (n : Nat) (c : Completion) : State :=
  if (s.ring n).full ∨ (s.ring n).heldComps ≠ [] then
    s.modRing n (fun r => { r with heldComps := r.heldComps ++ [c] })
  else (s.writeEntry n c).settleRing n

/-- Held completions leave in order while the ring has space (R437). -/
def State.flushHeld (s : State) (n : Nat) : Nat → State
  | 0 => s.settleRing n
  | k + 1 =>
    match (s.ring n).heldComps with
    | [] => s.settleRing n
    | c :: r =>
      if (s.ring n).full then s
      else ((s.modRing n (fun x => { x with heldComps := r })).writeEntry n c).flushHeld n k

/-- A descriptor completes (R441, R448, R452). DESIGN CHOICE, log entry 43. -/
def State.complete (s : State) (d : Desc) (st : Status) (result : Nat := 0) (detail : Nat := 0) (guard : Nat := 0)
    (cluster : Nat := 0) : State :=
  let s := s.modHost (fun h => { h with inflight := h.inflight.erase d })
  let c : Completion :=
    { tag := d.tag, status := st, opcode := d.opcode, cluster := cluster, result := result,
      guard := guard, detail := detail, time := s.now, irq := d.irq }
  s.postEntry d.ring c

/-! ### Descriptors that have not completed (R232, R441) -/

/-- Every fetched descriptor that has no completion entry, in fetch order. -/
def State.fetchedDescs (s : State) : List Desc :=
  ((s.host.rings.flatMap (fun x => x.2.waiting)) ++ s.host.inflight ++ s.preempts).mergeSort
    (fun a b => decide (a.num ≤ b.num))

/-- Whether a descriptor that was fetched earlier, of the same ring or of any, has not completed (R441). -/
def State.priorLeft (s : State) (d : Desc) (anyRing : Bool) : Bool :=
  s.fetchedDescs.any (fun x => decide (x.num < d.num) && (anyRing || x.ring == d.ring))

/-- Whether a SETTLE_CONFIG waits for PHASE IDLE and for nothing else: it is dispatched, or it is the first of its ring and no earlier
descriptor holds it back (R232, R441). -/
def State.cfgReady (s : State) : Bool :=
  s.host.inflight.any (fun d => d.opcode == 7) ||
  s.host.rings.any (fun x => match x.2.waiting with
    | d :: _ => d.opcode == 7 && !(d.waitPrior && s.priorLeft d false)
    | [] => false)

/-- Whether a RUN_STEP that was fetched before x, one that a RESUME restarted among them, has not completed. -/
def State.olderStep (s : State) (x : Desc) : Bool :=
  s.host.inflight.any (fun d => d.opcode == 4 && decide (d.num < x.num)) ||
  (match s.host.resumed with | some (_, y) => y.opcode == 4 && decide (y.num < x.num) | none => false)
/-- Whether a RUN_STEP is dispatched, or restarted by a RESUME, and has not completed. -/
def State.stepHeld (s : State) : Bool :=
  s.host.inflight.any (fun d => d.opcode == 4) || (match s.host.resumed with | some (_, y) => y.opcode == 4 | none => false)

/-! ### DMA_COPYs on their way (R352, R444) -/

/-- What a descriptor has under way is forgotten: its packets' count, its reads, its remote query. -/
def State.forgetDesc (s : State) (d : Desc) : State :=
  let s := s.modHost (fun h => { h with dmas := h.dmas.filter (fun y => y.desc != d) })
  s.modRtr (fun r => { r with reads := r.reads.filter (fun w => !(w.dest == 2 && w.unit == d.num)), proxies := r.proxies.filter (fun x => x.2.1 != d) })

/-- A DMA_COPY that waits for packets ends (R444, R452). DESIGN CHOICE, log entry 67. -/
def State.dmaEnd (s : State) (x : DmaRun) (st : Status) : State := (s.forgetDesc x.desc).complete x.desc st (x.bytes % 2 ^ 32)

/-- Packets that a link's queue and replay buffer hold (R288). -/
def Link.packets (k : Link) : List Packet :=
  k.txq.map (·.packet) ++ k.replay.filterMap (fun f => match f with | .packet _ _ _ p => some p | _ => none)
/-- Packets that have yet to be accepted by a next hop (R288, R361). -/
def State.leaving (s : State) : List Packet := s.ports.flatMap (fun x => x.2.link.packets) ++ s.rtr.injectQ.map (·.packet)
/-- Whether a packet is a WRITE of a DMA_COPY of this device. -/
def DmaRun.owns (x : DmaRun) (here : Coord) (p : Packet) : Bool :=
  x.writes && p.kind == 6 && p.src == here && p.dest == Coord.ofNat (fld (x.desc.at 0x28 4) 0 24) &&
  decide (x.desc.at 0x10 8 ≤ p.addr) && decide (p.addr < x.desc.at 0x10 8 + x.desc.at 0x18 8)

/-- Copies whose last packet has been accepted by the next hop complete (R444). -/
def State.dmasDone (s : State) : State :=
  let ds := s.host.dmas.filter (fun x => x.writes && !s.leaving.any (x.owns s.here))
  ds.foldl (fun s x => s.dmaEnd x .ok) s

/-- Bytes of a copy whose packets the next hop has accepted (R444). -/
def State.sentOf (s : State) (x : DmaRun) : Nat :=
  x.bytes - s.leaving.foldl (fun a p => if x.owns s.here p then a + p.payload.length else a) 0

/-- Copies of which packets are dropped at this device end with LINK_ABSENT; RESULT counts what had been accepted (R352, R444). -/
def State.dmasDrop (s : State) (out : List Packet) : State :=
  (s.host.dmas.filter (fun x => out.any (x.owns s.here))).foldl (fun s x =>
    let lost := (s.leaving ++ out).foldl (fun a p => if x.owns s.here p then a + p.payload.length else a) 0
    s.dmaEnd { x with bytes := x.bytes - lost } .linkAbsent) s

/-- STATE of a ring (R460). -/
def Ring.stateCode (r : Ring) : Nat :=
  match r.st with
  | .disabled => 0
  | .stopped => 2
  | .running => if r.full || r.heldComps != [] then 3 else 1

/-! ### Unit state words (R25 to R27, R525) -/

/-- Whether a DRAM channel is in the interleave. -/
def State.inUse (s : State) (n : Nat) : Bool := s.dram.used.contains n

/-- The execution word of a unit (R525). An array works exactly while its core runs a layer of the matrix engine. -/
def State.execWord (s : State) (u : UnitName) : ExecWord :=
  if (s.unit u.code).faulted || ((u.kind == .ddr || u.kind == .engine) && (s.channel u.index).st == 3) then .faulted
  else
    let busy : Bool := match u.kind with
      | .core => (s.core u.index).running.isSome || (s.core u.index).pending.isSome
      | .array => (match (s.core u.index).running with | some ly => mxEn ly.lcb | none => false)
      | .cluster => (s.cluster u.index).seq.active
      | .ddr => s.job.loaded && s.inUse u.index
      | .engine => s.settle.phase != .idle && s.inUse u.index
      | .port => s.sliceLink u.index && s.active u.index
    if busy then .busy else .idle

/-- The cluster that a unit belongs to. -/
def UnitName.cluster (u : UnitName) : Option Nat :=
  match u.kind with
  | .core | .array => some (u.index / 12)
  | .cluster => some u.index
  | _ => none

/-- The permission word of a unit (R525): absent arrays and channels are ABSENT, and the cores and arrays of a cluster
that is POWER_OFF read POWER_OFF too. -/
def State.permWord (s : State) (u : UnitName) : Perm :=
  let absent : Bool := match u.kind with
    | .array => !s.arrayPresent u.index
    | .ddr | .engine => !s.inUse u.index
    | _ => false
  if absent then .absent
  else match u.kind with
    | .core | .array =>
      if (s.unit (UnitName.code ⟨.cluster, u.index / 12⟩)).perm = .powerOff then .powerOff else (s.unit u.code).perm
    | _ => (s.unit u.code).perm

/-- Whether a pair of words is consistent (R26). -/
def consistent (p : Perm) (x : ExecWord) : Bool :=
  match p, x with
  | .enabled, _ => true
  | .fenced, .busy => false
  | .fenced, _ => true
  | _, .idle => true
  | _, _ => false

/-- Codes of the words (R445). -/
def Perm.code : Perm → Nat | .enabled => 0 | .fenced => 1 | .absent => 2 | .powerOff => 3
def ExecWord.code : ExecWord → Nat | .idle => 0 | .busy => 1 | .faulted => 2

/-- The 8-byte record of QUERY 0x03 (R445). -/
def State.unitRecord (s : State) (u : UnitName) (hold : Bool) : List Byte :=
  leBytes 1 (s.permWord u).code ++ leBytes 1 (s.execWord u).code ++
  leBytes 1 (bnum (s.unit u.code).mismatch + bnum (hold && (s.unit u.code).hold) 1) ++ List.replicate 5 0

/-- Every unit of the device (R445). -/
def allUnits : List UnitName :=
  ([.core, .array, .cluster, .ddr, .engine, .port] : List UnitKind).flatMap (fun k => (List.range k.count).map (fun i => ⟨k, i⟩))

/-- Why a unit refuses new work: its words disagree (R27), or its permission is not ENABLED, or it is contained
(R492). -/
def State.refuses (s : State) (u : UnitName) : Option Status :=
  if (s.unit u.code).mismatch then some .stateMismatch
  else if s.permWord u ≠ .enabled then some .denied
  else if s.execWord u = .faulted then some .denied
  else none

/-- Whether the words of a unit that settlement needs disagree: an engine in use (R27). DESIGN CHOICE, log entry 79. -/
def State.engineMismatch (s : State) : Bool := s.dram.used.any (fun n => (s.unit (UnitName.code ⟨.engine, n⟩)).mismatch)
/-- Whether the words of a DRAM channel in use disagree (R27). -/
def State.ddrMismatch (s : State) : Bool := s.dram.used.any (fun n => (s.unit (UnitName.code ⟨.ddr, n⟩)).mismatch)
/-- Whether a local range lies partly on a DRAM channel whose words disagree (R27, R201). -/
def State.dramMismatch (s : State) (a n : Nat) : Bool :=
  s.ddrMismatch && decide (a < s.dram.top) && decide (0 < n) &&
  (List.range ((a + n - 1) / 4096 - a / 4096 + 1)).any (fun k =>
    (s.unit (UnitName.code ⟨.ddr, (s.dram.locate ((a / 4096 + k) * 4096)).1⟩)).mismatch)
/-- Whether the words of a slice link on one of these axes disagree (R27). DESIGN CHOICE, log entry 79. -/
def State.linkMismatch (s : State) (axes : List Nat) : Bool :=
  (List.range 8).any (fun n => axes.contains (portAxis n) && s.sliceLink n && (s.unit (UnitName.code ⟨.port, n⟩)).mismatch)

/-- A unit is contained (R492): FENCED and FAULTED. A link port keeps its permission. -/
def State.contain (s : State) (u : UnitName) : State :=
  s.modUnit u.code (fun w => { w with faulted := true, perm := if u.kind = .port then w.perm else .fenced })

/-- Whether management withholds ENABLED from a unit (R526). -/
def State.withheld (s : State) (u : UnitName) : Bool :=
  s.permWord u == .absent || s.execWord u == .faulted || (s.unit u.code).hold ||
  (match u.cluster with
   | some c => (s.unit (UnitName.code ⟨.cluster, c⟩)).perm == .powerOff && !s.rails.good.contains (3 + c)
   | none => false)

/-- Running work on a unit has ended: a RECONCILE FENCE that waited for it completes (R447, R463). -/
def State.fenceDone (s : State) (u : UnitName) : State :=
  match (s.unit u.code).fencing with
  | some d =>
    if s.execWord u = .busy then s
    else (s.modUnit u.code (fun w => { w with fencing := none, mismatch := false })).complete d .ok
  | none => s

/-- Every RECONCILE FENCE whose unit has become idle completes. -/
def State.fencesDone (s : State) : State :=
  (s.units.filterMap (fun x => if x.2.fencing.isSome then unitOf x.1 else none)).foldl (fun s u => s.fenceDone u) s

end Sys2Proof.Machine
end

