-- ==== Sys2Proof/Machine/PlanOps.lean ====
section
/-!
DEFINITION. The collective plan's entries and positions (R370, R371, R378 to R382, R387), the device's own reads of other
devices (R353, R387, R610), and the fills of landing buffers (R216 to R218, R387 to R390).
-/
set_option autoImplicit false
namespace Sys2Proof.Machine

/-! ### Plan entries (R378) -/

/-- A field of an entry. -/
def pe (e : List Byte) (off n : Nat) : Nat := leAt e off n
/-- An address slot of an entry; bits [63:48] are reserved. -/
def pa48 (e : List Byte) (off : Nat) : Nat := fld (leAt e off 8) 0 48
def peOp (e : List Byte) : Nat := pe e 0 1
def peAxes (e : List Byte) : List Nat := (List.range 4).filter (bit (pe e 1 1))
def peFmt (e : List Byte) : Nat := fld (pe e 2 1) 0 4
def peBlk (e : List Byte) : Nat := fld (pe e 2 1) 4 3
def peMax (e : List Byte) : Bool := bit (pe e 2 1) 7
def peDoneEn (e : List Byte) : Bool := bit (pe e 3 1) 7
def peDone (e : List Byte) : Nat := fld (pe e 3 1) 0 3
def peQueue (e : List Byte) : Nat := pe e 4 1
def peLbCluster (e : List Byte) : Nat := fld (pe e 5 1) 0 3
def peLb (e : List Byte) : Nat := fld (pe e 6 1) 0 6
def peGroup (e : List Byte) : Nat := fld (pe e 8 2) 0 12
def peSrc (e : List Byte) : Nat := pa48 e 0x10
def peSrcScale (e : List Byte) : Nat := pa48 e 0x18
def peDst (e : List Byte) : Nat := pa48 e 0x20
def peDstScale (e : List Byte) : Nat := pa48 e 0x28
def peChunk (e : List Byte) : Nat := fld (leAt e 0x30 8) 0 40
def pePres (e : List Byte) : Nat := pa48 e 0x38

/-- Entry i of the plan in force. -/
def State.planEntry (s : State) (i : Nat) : Option (List Byte) := s.col.plan[i]?

/-- Bytes of a unit: a block, or a 64-byte unit of elements (R371). -/
def peUnit (e : List Byte) : Nat :=
  if peBlk e = 0 then 64 else blkSize (peBlk e) * (fmtOf (peFmt e)).bits / 8
/-- Units of a chunk. -/
def peUnits (e : List Byte) : Nat := peChunk e / peUnit e
/-- Bytes of a chunk past its last whole block: ALL_GATHER and ALL_TO_ALL copy them as one more unit, which has no scale (R379).
DESIGN CHOICE, log entry 66. -/
def peTail (e : List Byte) : Nat := if peOp e = 1 ∨ peOp e = 3 then peChunk e % peUnit e else 0
/-- The stride of a scale chunk (R379). -/
def peScaleStride (e : List Byte) : Nat := if peBlk e = 0 then 0 else roundUp 64 (peUnits e)

/-! ### Ring positions (R370) -/

/-- Extent of the slice on an axis. -/
def State.ext (s : State) (a : Nat) : Nat := s.rtr.slice.extent.axis a
/-- This device's ring position on an axis (R370). -/
def State.ringPos (s : State) (a : Nat) : Nat := s.slicePos a (s.here.axis a)
/-- P, the product of the extents of an axis set (R370). -/
def State.product (s : State) (axes : List Nat) : Nat := axes.foldl (fun p a => p * s.ext a) 1
/-- The composite position of this device (R370). -/
def State.composite (s : State) (axes : List Nat) : Nat :=
  (axes.foldr (fun a (r : Nat) => s.ringPos a + s.ext a * r) 0)
/-- The position on axis a of a composite position R (R370). -/
def State.posOn (s : State) : List Nat → Nat → Nat → Nat
  | [], _, _ => 0
  | b :: bs, a, r => if a = b then r % s.ext b else s.posOn bs a (r / s.ext b)
/-- The coordinate of a slice position on axis a. -/
def State.coordAt (s : State) (a pos : Nat) : Nat := (s.rtr.slice.origin.axis a + pos) % max 1 (s.len a)
/-- The device at composite position R of the axis set. -/
def State.deviceAt (s : State) (axes : List Nat) (r : Nat) : Coord :=
  axes.foldl (fun c a => c.setAxis a (s.coordAt a (s.posOn axes a r))) s.here

/-! ### Plan checks (R381, R382) -/

/-- Whether an address starts in populated DRAM or in a physical cluster vault (R381 row 7). -/
def State.servable (s : State) (a n : Nat) : Bool :=
  match regionOf s.dram.top a n with
  | .dram | .clusterVault _ => true
  | _ => false

/-- Address slots that an entry's OP uses (R379, R381 row 7). -/
def peUses (e : List Byte) : List Nat :=
  let sc := peBlk e != 0
  match peOp e with
  | 4 => [peSrc e, peSrcScale e, pePres e]
  | 5 => [peDst e]
  | _ => [peSrc e, peDst e] ++ (if sc then [peSrcScale e, peDstScale e] else [])

/-- Nonzero reserved fields of an entry (R378). -/
def peReserved (e : List Byte) : Bool :=
  fld (pe e 1 1) 4 4 != 0 || fld (pe e 3 1) 3 4 != 0 || fld (pe e 5 1) 3 5 != 0 || fld (pe e 6 1) 6 2 != 0 ||
  pe e 7 1 != 0 || fld (pe e 8 2) 12 4 != 0 || (List.range 6).any (fun i => pe e (0x0A + i) 1 != 0) ||
  [0x10, 0x18, 0x20, 0x28, 0x38].any (fun o => fld (leAt e o 8) 48 16 != 0) || fld (leAt e 0x30 8) 40 24 != 0 ||
  (peOp e != 4 && leAt e 0x38 8 != 0)

/-- The row of R381 that refuses an entry, rows 2 to 7. DESIGN CHOICE, log entry 66. DEDUCED, log entry 77. -/
def State.planRow (s : State) (e : List Byte) : Option Nat :=
  let f := peFmt e
  let b := peBlk e
  if 5 < peOp e ∨ badFmt f ∨ badBlk b ∨ peReserved e then some 2
  else if peAxes e = [] then some 3
  else if (peOp e = 0 ∨ peOp e = 2) ∧ ¬ ((f ≤ 1 ∧ b = 0) ∨ f = 2) then some 4
  else if peOp e = 4 ∧ (f ≠ 2 ∨ b = 0) then some 4
  else if peOp e = 5 ∧ ¬ ((f = 1 ∧ b = 0) ∨ ((f = 3 ∨ f = 4) ∧ b ≠ 0)) then some 4
  else if [peSrc e, peSrcScale e, peDst e, peDstScale e, pePres e].any (fun a => a % 64 != 0) then some 5
  else if peChunk e % 64 ≠ 0 ∨ (peOp e ≠ 4 ∧ peChunk e = 0) then some 5
  else if f = 2 ∧ b ≠ 0 ∧ peChunk e % (2 * blkSize b) ≠ 0 then some 5
  else if peOp e = 5 ∧ regionOf 0 (peDst e) 1 ≠ .clusterVault (peLbCluster e) then some 6
  else if (peUses e).any (fun a => !s.servable a 1) then some 7
  else none

/-! ### Reads of other devices (R353, R387, R610) -/

/-- A READ_REQ leaves for another device, and the read is recorded under a fresh handle (R339, R610). -/
def State.sendRead (s : State) (dest : Coord) (src : Nat) (w : ReadWait) : Sent × State :=
  let h := s.rtr.nextHandle
  let s := s.modRtr (fun r => { r with nextHandle := (h + 1) % 2 ^ 48 })
  let p := s.packet 5 7 dest src (leBytes 8 h ++ leBytes 8 w.bytes)
  match s.inject p with
  | (.sent, s) => (.sent, s.modRtr (fun r => { r with reads := r.reads ++ [{ w with handle := h, deadline := s.aoNs + r.readTimeout * 1000 }] }))
  | x => x

/-- The pieces of a read of n bytes, each of at most 8 KiB: offset, length (R387, R444). -/
def readPieces (n : Nat) : List (Nat × Nat) :=
  (List.range ((n + 8191) / 8192)).map (fun i => (i * 8192, min 8192 (n - i * 8192)))

/-! ### Landing buffers (R216 to R218, R353, R390) -/

/-- Landing buffer b of cluster c. -/
def State.lb (s : State) (c b : Nat) : LandingBuf := tget (s.cluster c).lbs {} b
/-- Landing buffer b of cluster c changed by f. -/
def State.modLb (s : State) (c b : Nat) (f : LandingBuf → LandingBuf) : State :=
  s.modCluster c (fun k => { k with lbs := tmod k.lbs {} b f })

/-- Contexts of cluster c that wait for landing buffer b become READY (R176). -/
def State.wakeBuffer (s : State) (c b : Nat) : State :=
  (coresOf c).foldl (fun s p =>
    let is := ((s.core p).ctxs.filter (fun x => x.2.on == .buffer b)).map (·.1)
    is.foldl (fun s i => s.modCore p (·.unstall i)) s) s

/-- A landing buffer returns to EMPTY (R217). -/
def State.emptyBuffer (s : State) (c b : Nat) : State :=
  (s.modLb c b (fun _ => {})).wakeBuffer c b

/-- n bytes of a fill have landed; with its last unit the buffer becomes VALID, or COMMITTED when its layer has committed (R216, R217). -/
def State.filled (s : State) (c b n : Nat) : State :=
  let s := (s.using c).modLb c b (fun x => { x with left := x.left - n })
  if (s.lb c b).left = 0 ∧ (s.lb c b).st = .filling then
    (s.modLb c b (fun x => { x with st := if x.commit then .committed else .valid })).wakeBuffer c b
  else s

/-- A layer that consumes buffer b takes the status of a fill that failed, unless it has one (R218, R390). -/
def Layer.faulted (b : Nat) (st : Status) (l : Layer) : Layer :=
  if l.buffers.contains b ∧ l.status = .ok then { l with status := st } else l

/-- A fill fails: its reads are forgotten, and the buffer stays FILLING until the layer that consumes it has completed with the fill's
status: a running or pending layer takes it now, a later one at its start (R218, R353, R390). DEDUCED, log entry 70. -/
def State.fillFailed (s : State) (c b : Nat) (st : Status) : State :=
  let s := s.modRtr (fun r => { r with reads := r.reads.filter (fun w => !(w.dest == 0 && w.cluster == c && w.unit == b)) })
  let s := s.modLb c b (fun x => { x with fault := some (x.fault.getD st) })
  (coresOf c).foldl (fun s p =>
    s.modCore p (fun k => { k with running := k.running.map (Layer.faulted b st), pending := k.pending.map (Layer.faulted b st) })) s

/-- One piece of a fill, read from a device: through the die fabric when it is this one (R220, R221, R387). -/
def State.fillPiece (s : State) (c b : Nat) (dest : Coord) (src dst n : Nat) : State :=
  if (s.lb c b).st ≠ .filling ∨ (s.lb c b).fault.isSome then s
  else if dest = s.here then
    if s.servable src n then (s.copyMem src dst n).filled c b n
    else (s.log .remoteAddrFault (srcBlock 0) [coordData dest, (8, src)]).fillFailed c b .malformed
  else
    match s.sendRead dest src { handle := 0, bytes := n, deadline := 0, dest := 0, cluster := c, unit := b, addr := dst } with
    | (.sent, s) => s
    | (x, s) => s.fillFailed c b x.status

/-- The reads of a fill, in the order of R387: source device, source address, destination, length. -/
def State.fillReads (s : State) (e : List Byte) : List (Coord × Nat × Nat × Nat) :=
  let axes := peAxes e
  let p := s.product axes
  let sc := peScaleStride e
  (List.range p).flatMap (fun r =>
    let d := s.deviceAt axes r
    (readPieces (peChunk e)).map (fun x => (d, peSrc e + x.1, peDst e + r * peChunk e + x.1, x.2)) ++
    (if sc = 0 then [] else
      (readPieces sc).map (fun x => (d, peSrcScale e + x.1, peDst e + p * peChunk e + r * sc + x.1, x.2))))

/-- A read of a cancelled fill: its response is still to come and is dropped without counting in LATE (R366, R389). DEDUCED, log entry 70. -/
def cancelRead (c b : Nat) (w : ReadWait) : ReadWait :=
  if w.dest = 0 ∧ w.cluster = c ∧ w.unit = b then { w with dest := 3 } else w

/-- A landing buffer returns to EMPTY, and what is still to come for it is dropped (R217, R389). -/
def State.cancelBuffer (s : State) (c b : Nat) : State :=
  (s.emptyBuffer c b).modRtr (fun r => { r with reads := r.reads.map (cancelRead c b) })

/-- Why a JIT_GATHER's start is refused: rows 2, 3 and 5 of R382. -/
def State.fillStatus (s : State) (e : List Byte) (size : Nat) : Option Status :=
  if ¬ s.hasSlice ∨ ¬ s.placed then some .denied
  else if (peAxes e).any (bit s.rtr.slice.axes) then some .linkAbsent
  else if ¬ s.servable (peDst e) size then some .malformed
  else none

/-- A JIT_GATHER fill is issued unless its buffer already has a fill (R382, R387, R388). -/
def State.issueFill (s : State) (i : Nat) : State :=
  match s.planEntry i with
  | none => s
  | some e =>
    let c := peLbCluster e
    let b := peLb e
    if peOp e ≠ 5 ∨ ((s.lb c b).st ≠ .empty ∧ (s.lb c b).entry = i) ∨ (s.lb c b).commit then s
    else
      let size := s.product (peAxes e) * (peChunk e + peScaleStride e)
      -- the stream names a different entry for the buffer's layer: the earlier fill is cancelled (R389)
      let s := if (s.lb c b).st = .empty then s else
        (s.modCol (fun k => { k with cancelled := k.cancelled + (s.lb c b).size })).cancelBuffer c b
      let s := s.modCol (fun k => { k with issued := k.issued + size })
      let s := s.modLb c b (fun _ => { st := .filling, base := peDst e, size := size, left := size, entry := i })
      match s.fillStatus e size with
      | some st => s.fillFailed c b st
      | none => (s.fillReads e).foldl (fun s x => s.fillPiece c b x.1 x.2.1 x.2.2.1 x.2.2.2) s

/-- Fills of the layers that follow a start, up to the run-ahead depth (R388): `ahead` gives each entry with the
distance of the layer that consumes it. -/
def State.runAhead (s : State) (ahead : List (Nat × Nat)) : State :=
  (ahead.filter (fun x => decide (1 ≤ x.1 ∧ x.1 ≤ s.col.runahead))).foldl (fun s x => s.issueFill x.2) s

/-- The fills of cluster c that no layer has consumed are cancelled: their buffers are EMPTY, their reads are forgotten
and their bytes counted (R389, R403). DEDUCED, log entry 70. -/
def State.cancelFills (s : State) (c : Nat) : State :=
  let bs := (s.cluster c).lbs.filter (fun x => (x.2.st == .filling || x.2.st == .valid) && !x.2.commit)
  bs.foldl (fun s x => (s.modCol (fun k => { k with cancelled := k.cancelled + x.2.size })).cancelBuffer c x.1) s

end Sys2Proof.Machine
end

