-- ==== Sys2Proof/Machine/MxeOps.lean ====
section
/-!
DEFINITION. The matrix engine's arithmetic (R63 to R68, R75), its issues (R77 to R89, R103, R105) and the drain into
the finished-tile queue (R68, R81, R119).
-/
set_option autoImplicit false
namespace Sys2Proof.Machine

/-! ### Operands -/

/-- An operand element of a product: its value with the block scale, its exponent in the sense of R64, the flags of
reading it and its poison (R67, R105). -/
structure Opnd where
  val    : Val
  exp    : Int
  fl     : Flags := {}
  poison : Bool := false
deriving DecidableEq, Repr

/-- The operand that a code and its block scale give; Igseig-exact arithmetic flushes 8-bit subnormals
(R64, R67, R75). -/
def opndOf (f : Format) (ig : Bool) (scale : Option Nat) (code : Nat) (poison : Bool) : Opnd :=
  let ex := fld code f.frac f.exp
  let flush := ig && f.honoursSubnormals && ex == 0 && fld code 0 f.frac != 0
  let d := scaledVal f scale code
  let e0 : Int := if ex = 0 then f.emin else Int.ofNat ex - f.bias
  { val := if flush then .fin (bit code (f.exp + f.frac)) 0 0 else d.1
    exp := e0 + (match scale with | some x => Int.ofNat x - 127 | none => 0)
    fl := if flush then flUNF else d.2
    poison := poison }

/-- A local address as core p of cluster c issues it (R194). -/
def pa (p a : Nat) : Nat := aliasOf (p / 12) (some p) a

/-- Element j of stored row i of batch entry e, of an operand with `rows` rows of `len` elements (R606). -/
def State.stored (s : State) (p : Nat) (f : Format) (addr bstride ld blk scaleAddr rows len e i j : Nat) : StoredElem :=
  let row := pa p addr + e * bstride + i * ld
  let sa := pa p scaleAddr + (e * rows + i) * ((len + blkSize blk - 1) / blkSize blk) + j / blkSize blk
  { code := s.elem f row j, scale := if blk = 0 then none else some (s.byteAt sa).toNat
    poison := s.poisonAt (f.elemAddr row j) || (blk != 0 && s.poisonAt sa) }

/-- A stored element as the cells take it. -/
def StoredElem.opnd (f : Format) (ig : Bool) (x : StoredElem) : Opnd := opndOf f ig x.scale x.code x.poison

/-- Key of a forwarded element or scale in the operand staging of a chain (R92, R155). -/
def chainKey (e r c : Nat) : Nat := (e * 2 ^ 24 + r) * 256 + c
/-- Key of a batch entry's row tile. -/
def fwdKey (e rt : Nat) : Nat := e * 2 ^ 24 + rt

/-- Element A(i, k) of batch entry e in chain link t: from memory, or as forwarded from the link before
(R92, R155, R606). -/
def State.storedA (s : State) (p : Nat) (l : List Byte) (t e i k : Nat) : StoredElem :=
  if t = 0 then
    s.stored p (fmtOf (aFmt l)) (l48 l 0x080) (l48 l 0x100) (l32 l 0x058) (aBlk l) (l48 l 0x088) (mxM l) (mxK l) e i k
  else
    let ch := (s.core p).chain
    let x := tget ch 0 (chainKey e i k)
    { code := fld x 0 32, poison := bit x 32
      scale := if aBlk l = 0 then none else some (fld (tget ch 0 (chainKey e i (128 + k / blkSize (aBlk l)))) 0 8) }

/-- Element B(k, n) of batch entry e (R95, R606). -/
def State.storedB (s : State) (p : Nat) (l : List Byte) (e k n : Nat) : StoredElem :=
  let tr := mxBTranspose l
  s.stored p (fmtOf (bFmt l)) (l48 l 0x090) (l48 l 0x108) (l32 l 0x05C) (bBlk l) (l48 l 0x098)
    (if tr then mxK l else mxN l) (if tr then mxN l else mxK l) e (if tr then k else n) (if tr then n else k)

/-! ### Group sums and the accumulator (R63 to R67, R75) -/

/-- The window's lowest bit weight below Emax, and products per group (R63, R64, R75). -/
def windowLow (ig : Bool) : Nat := if ig then 35 else 42
def groupLen (ig : Bool) : Nat := if ig then 8 else 16

/-- A group's value and its sticky amount, or none when every product is zero (R64, R65, R67). -/
def groupSum (ig : Bool) (ps : List (Val × Int)) : Option (Val × Val × Flags) :=
  if ps.any (·.1.isNaN) then some (.nan, .fin false 0 0, flINV)
  else
    let pinf := ps.any (fun x => x.1.isInf && !x.1.isNeg)
    let ninf := ps.any (fun x => x.1.isInf && x.1.isNeg)
    if pinf && ninf then some (.nan, .fin false 0 0, flINV)
    else if pinf || ninf then some (.inf ninf, .fin false 0 0, {})
    else
      let nz := ps.filterMap (fun x => match x.1 with | .fin n m e => if m = 0 then none else some (n, m, e, x.2) | _ => none)
      match nz with
      | [] => none
      | x :: r =>
        let emax := r.foldl (fun a y => max a y.2.2.2) x.2.2.2
        let w := emax - Int.ofNat (windowLow ig)
        let sum := nz.foldl (fun (a : Int) y => a + Val.signed y.1 (truncTo y.2.1 y.2.2.1 w)) 0
        let sticky := nz.any (fun y => decide (y.2.2.1 < w) && decide (y.2.1 % 2 ^ (w - y.2.2.1).toNat ≠ 0))
        let sig : Val := if sticky ∧ sum ≠ 0 then .fin (decide (sum < 0)) 1 (w - 1) else .fin false 0 0
        some (Val.ofInt sum w, sig, {})

/-- A value rounded to the accumulator's 24 significand bits, nearest-even (R65). -/
def round24 (v : Val) : Val :=
  match v with
  | .fin n m e =>
    if m = 0 then .fin false 0 0
    else
      let q := magExp m e - 23
      .fin n (roundNearest m e q false) q
  | v => v

/-- The rounding of an accumulator: 24 bits, in Igseig-exact arithmetic with the F32 range (R65, R75). -/
def accRound (ig : Bool) (v : Val) : Val × Flags :=
  if ig then
    let r := roundF32 v
    ((f32Val r.bits).1, r.fl)
  else (round24 v, if v.isNaN then flINV else {})

/-- One group added into an accumulator (R65, R67, R75). -/
def accGroup (ig : Bool) (a : Acc × Flags) (g : Option (Val × Val × Flags)) : Acc × Flags :=
  match g with
  | none => a
  | some (v, sig, fl) =>
    let sum := match a.1 with
      | .empty => v.add sig
      | .val x => (x.add v).add sig
    let r := accRound ig sum
    (.val r.1, (a.2.or fl).or r.2)

/-- The products of positions [k, k + n) added into an accumulator in groups (R63, R79). -/
def accRun (ig : Bool) (a : Acc × Flags) (ops : List (Opnd × Opnd)) : Nat → Acc × Flags
  | 0 => a
  | fuel + 1 =>
    match ops with
    | [] => a
    | _ =>
      let g := ops.take (groupLen ig)
      let fl := flagsOf (g.map (fun x => x.1.fl.or x.2.fl))
      let a' := accGroup ig (a.1, a.2.or fl) (groupSum ig (g.map (fun x => (x.1.val.mul x.2.val, x.1.exp + x.2.exp))))
      accRun ig a' (ops.drop (groupLen ig)) fuel

/-- `out` of R68 (R75 in Igseig-exact arithmetic) for an accumulator, tensor scales and C; C is none when accumulate is
off. -/
def drainElem (ig : Bool) (a : Acc) (ta tb : W32) (c : Option W32) : FV :=
  match a with
  | .empty => ⟨c.getD 0, {}⟩
  | .val v =>
    let x := (v.mul (f32Val ta).1).mul (f32Val tb).1
    let cv : FV := FV.of (c.getD 0)
    if ig then
      let r := roundF32 x
      FV.round (r.fl.or cv.flags) ((f32Val r.bits).1.add cv.val)
    else FV.round cv.flags (x.add cv.val)

/-! ### Issues (R79 to R89) -/

/-- Subarrays of a shape (R80, R81). -/
def subarrays (l : List Byte) : Nat := match mxShape l with | 1 => 4 | 2 => 16 | _ => 1
/-- Reduction positions of a K-step, D·p (R79). -/
def kStep (l : List Byte) : Nat := lcbD l * (fmtOf (aFmt l)).rate

/-- An output tile taken by a subarray, its accumulators empty (R65, R79). -/
def newTile (l : List Byte) (t : TileName) : AccTile :=
  let rows := min (lcbD l) (mxM l - t.rt * lcbD l)
  let cols := min (lcbD l) (mxN l - t.ct * lcbD l)
  { tile := t, rows := rows, cols := cols, accs := List.replicate (rows * cols) .empty
    fls := List.replicate (rows * cols) {}, poison := List.replicate (rows * cols) false }

/-- Whether every K-step of a tile has run. -/
def AccTile.complete (t : AccTile) (l : List Byte) : Bool := decide (mxK l ≤ t.kNext)

/-- Reduction positions of a tile's K-step that starts at position k. -/
def stepKs (l : List Byte) (k : Nat) : List Nat := (List.range (min (kStep l) (mxK l - k))).map (· + k)
/-- The rows of A, and the columns of B, that a tile's K-step at position k multiplies. -/
def State.rowsA (s : State) (p : Nat) (l : List Byte) (t : AccTile) (k : Nat) : List (List StoredElem) :=
  (List.range t.rows).map (fun i => (stepKs l k).map (fun k => s.storedA p l t.tile.link t.tile.batch (t.tile.rt * lcbD l + i) k))
def State.colsB (s : State) (p : Nat) (l : List Byte) (t : AccTile) (k : Nat) : List (List StoredElem) :=
  (List.range t.cols).map (fun j => (stepKs l k).map (fun k => s.storedB p l t.tile.batch k (t.tile.ct * lcbD l + j)))

/-- What names the stationary block of a tile's K-step at position k: its address, its scale address, and its extent (R89). The
leading dimension, transposition, format, block size and tensor scale are the LCB's own. A block that a chain has forwarded is
named by its link. -/
def blockKey (l : List Byte) (t : AccTile) (k : Nat) : List Nat :=
  let e := t.tile.batch
  let n := min (kStep l) (mxK l - k)
  if mxStationary l = 2 then
    let r := t.tile.rt * lcbD l
    let nb := (mxK l + blkSize (aBlk l) - 1) / blkSize (aBlk l)
    [t.tile.link, l48 l 0x080 + e * l48 l 0x100 + r * l32 l 0x058, k, if aBlk l = 0 then 0 else l48 l 0x088 + (e * mxM l + r) * nb,
      t.rows, n] ++ (if t.tile.link = 0 then [] else [e, r])
  else
    let c := t.tile.ct * lcbD l
    let r := if mxBTranspose l then k else c
    let nb := (mxK l + blkSize (bBlk l) - 1) / blkSize (bBlk l)
    [0, l48 l 0x090 + e * l48 l 0x108 + r * l32 l 0x05C, if mxBTranspose l then c else k,
      if bBlk l = 0 then 0 else l48 l 0x098 + (e * mxN l + c) * nb, t.cols, n]

/-- The stationary block of a tile's K-step at position k, as loaded into the cells: of A in input-stationary mode, else of B
(R85, R87). -/
def State.loadBlock (s : State) (p : Nat) (l : List Byte) (t : AccTile) (k : Nat) : HeldBlock :=
  { key := blockKey l t k, elems := if mxStationary l = 2 then s.rowsA p l t k else s.colsB p l t k }

/-- One K-step of a tile on its rows of A and columns of B (R79, R105). -/
def AccTile.step (t : AccTile) (l : List Byte) (as bs : List (List StoredElem)) : AccTile :=
  let rowsA := as.map (fun x => x.map (StoredElem.opnd (fmtOf (aFmt l)) (igseig l)))
  let colsB := bs.map (fun x => x.map (StoredElem.opnd (fmtOf (bFmt l)) (igseig l)))
  let cells := rowsA.flatMap (fun x => colsB.map (fun y => x.zip y))
  let old := t.accs.zip t.fls
  let new := (old.zip cells).map (fun x => accRun (igseig l) x.1 x.2 (x.2.length + 1))
  let pois := (t.poison.zip cells).map (fun x => x.1 || x.2.any (fun y => y.1.poison || y.2.poison))
  { t with kNext := t.kNext + min (kStep l) (mxK l - t.kNext), accs := new.map (·.1), fls := new.map (·.2), poison := pois }

/-- Bytes that a K-step of a tile moves: stationary and streamed (R82, R86, R89). -/
def stepBytes (l : List Byte) (t : AccTile) (resident : Bool) : Nat :=
  let f := fmtOf (aFmt l)
  let n := min (kStep l) (mxK l - t.kNext)
  let a := t.rows * f.rowBytes n
  let b := t.cols * f.rowBytes n
  match mxStationary l with
  | 1 => a + b
  | 2 => b + (if resident then 0 else a)
  | _ => a + (if resident then 0 else b)

/-- Whether the rows that a tile of a chain's later link takes as its A have been forwarded (R92). -/
def Core.forwarded (k : Core) (t : TileName) : Bool := t.link == 0 || tget k.fwd 0 (fwdKey t.batch t.rt) == t.link

/-- Subarray i, when it is free, takes the next tile of the core's share: in output-stationary mode a finished tile makes way into
the second accumulators (R81, R86). A tile whose A has not been forwarded yet waits, and those after it with it. DESIGN CHOICE,
log entry 33. -/
def Core.dealTo (k : Core) (ly : Layer) (i : Nat) : Core :=
  let l := ly.lcb
  let k := match tget k.accs none i, tget k.draining none i with
    | some t, none =>
      if mxStationary l = 1 ∧ t.complete l then { k with accs := tset k.accs none i none, draining := tset k.draining none i (some t) } else k
    | _, _ => k
  match tget k.accs none i, ly.nextTile (tileCount l - k.dealt) k.dealt with
  | none, some x =>
    if k.forwarded (tileOf l x) then { k with accs := tset k.accs none i (some (newTile l (tileOf l x))), dealt := x + 1 } else k
  | _, _ => k

/-- Free subarrays take the next tiles, in order (R81). DESIGN CHOICE, log entry 33. -/
def Core.deal (k : Core) (ly : Layer) : Core := (List.range (subarrays ly.lcb)).foldl (fun k i => k.dealTo ly i) k

/-- The stationary block of the K-step of subarray i: the one that the cells hold, else the one in the shadow registers, else one that
is loaded (R85, R87, R89). DESIGN CHOICE, log entry 33. -/
def State.blockFor (s : State) (p : Nat) (l : List Byte) (i : Nat) (t : AccTile) : HeldBlock :=
  let held (b : Option HeldBlock) : Option HeldBlock := b.filter (fun b => b.key == blockKey l t t.kNext)
  ((held (tget (s.core p).blocks none i)).or (held (tget (s.core p).shadow none i))).getD (s.loadBlock p l t t.kNext)

/-- The tile of subarray i after its K-step (R79, R85, R87). -/
def State.stepOf (s : State) (p : Nat) (l : List Byte) (i : Nat) (t : AccTile) : AccTile :=
  if mxStationary l = 2 then t.step l (s.blockFor p l i t).elems (s.colsB p l t t.kNext)
  else t.step l (s.rowsA p l t t.kNext) (if mxStationary l = 1 then s.colsB p l t t.kNext else (s.blockFor p l i t).elems)

/-- The K-step of subarray i: its stationary block stays in the cells, and the tile's next block loads into the shadow registers
(R79, R85, R87, R89). -/
def State.mxeStep (s : State) (p : Nat) (l : List Byte) (i : Nat) (t : AccTile) : State :=
  let t' := s.stepOf p l i t
  if mxStationary l = 1 then s.modCore p (fun k => { k with accs := tset k.accs none i (some t') })
  else
    let b := s.blockFor p l i t
    let next := if t'.complete l then none else some (s.loadBlock p l t t'.kNext)
    s.modCore p (fun k =>
      { k with accs := tset k.accs none i (some t'), blocks := tset k.blocks none i (some b), shadow := tset k.shadow none i next })

/-- Whether the cells of subarray i hold the stationary block of tile t's next K-step (R89). -/
def Core.holdsBlock (k : Core) (l : List Byte) (i : Nat) (t : AccTile) : Bool :=
  mxStationary l != 1 && (match tget k.blocks none i with | some b => b.key == blockKey l t t.kNext | none => false)

/-- The issue at the head of core p's queue runs on its layer: free subarrays take tiles, each subarray runs a K-step, and the issue
occupies its CCLK (R79, R82, R89, R104). It waits while the foot holds drained elements (R94), and while every tile that is left waits
for an accumulator or for a row of the link before. -/
def State.mxeIssue (s : State) (p : Nat) : State :=
  match (s.core p).running, (s.core p).issueQ, (s.core p).held with
  | some ly, _ :: q, none =>
    let l := ly.lcb
    let k := (s.core p).deal ly
    let work := (List.range (subarrays l)).filterMap (fun i => match tget k.accs none i with
      | some t => if t.complete l then none else some (i, t)
      | none => none)
    if work = [] then
      if (ly.nextTile (tileCount l - k.dealt) k.dealt).isSome then s.modCore p (fun _ => k)
      else s.modCore p (fun _ => { k with issueQ := q })
    else
      let bytes := work.foldl (fun a x => a + stepBytes l x.2 (k.holdsBlock l x.1 x.2)) 0
      let occ := max (lcbD l) ((bytes + 1279) / 1280) * (if igseig l then 2 else 1)
      let s := work.foldl (fun (s : State) x => s.mxeStep p l x.1 x.2) (s.modCore p (fun _ => k))
      ((s.modCore p (fun k => { k with issueQ := q, busy := k.busy + occ })).span (ctClu (p / 12) 3) occ).total 5 occ
  | _, _, _ => s

/-! ### The drain (R68, R81, R119) -/

/-- C(i, j) of a tile (R92, R606), with its poison. -/
def State.elemC (s : State) (p : Nat) (l : List Byte) (t : TileName) (i j : Nat) : W32 × Bool :=
  let row := pa p (l48 l 0x0A0) + t.link * l48 l 0x128 + t.batch * l48 l 0x110 + i * l32 l 0x060
  (BitVec.ofNat 32 (s.elem .f32 row j), s.poisonAt (row + 4 * j))

/-- The drained elements of a tile: values, flags, poison, row-major (R68, R105). -/
def State.drained (s : State) (p : Nat) (l : List Byte) (t : AccTile) : List (FV × Bool) :=
  let idx := (List.range t.rows).flatMap (fun i => (List.range t.cols).map (fun j => (i, j)))
  (((t.accs.zip t.fls).zip t.poison).zip idx).map (fun x =>
    let c := if mxAccumulate l then
        some (s.elemC p l t.tile (t.tile.rt * lcbD l + x.2.1) (t.tile.ct * lcbD l + x.2.2))
      else none
    let o := drainElem (igseig l) x.1.1.1 (BitVec.ofNat 32 (l32 l 0x030)) (BitVec.ofNat 32 (l32 l 0x034)) (c.map (·.1))
    (⟨o.bits, o.fl.or x.1.1.2⟩, x.1.2 || (match c with | some c => c.2 | none => false)))

/-- The slots of a queue entry that subarray i fills: slot number, row block and column block of the tile
(R81, R119). -/
def slotsOf (l : List Byte) (i : Nat) : List (Nat × Nat × Nat) :=
  match mxShape l with
  | 1 => (List.range 4).map (fun x => ((2 * (i / 2) + x / 2) * 4 + 2 * (i % 2) + x % 2, x / 2, x % 2))
  | 2 => [(i, 0, 0)]
  | _ => (List.range 16).map (fun x => (x, x / 4, x % 4))

/-- Poison spread to the 64-byte unit (16 columns of a sub-tile row) that holds it (R105, R114). -/
def spreadPoison (cols : Nat) (ps : List Bool) : List Bool :=
  (List.range ps.length).map (fun i =>
    let r := i / cols
    let h := i % cols / 16
    (List.range 16).any (fun x => decide (h * 16 + x < cols) && (ps[r * cols + h * 16 + x]?).getD false))

/-- The sub-tiles of a drained tile (R119). -/
def subTiles (l : List Byte) (i : Nat) (t : AccTile) (es : List (FV × Bool)) : List SubTile :=
  (slotsOf l i).filterMap (fun x =>
    let r0 := x.2.1 * 32
    let c0 := x.2.2 * 32
    let rows := min 32 (t.rows - r0)
    let cols := min 32 (t.cols - c0)
    if t.rows ≤ r0 ∨ t.cols ≤ c0 then none
    else
      let es := (List.range rows).flatMap (fun r => (List.range cols).filterMap (fun c => es[(r0 + r) * t.cols + c0 + c]?))
      some
        { slot := x.1, batch := t.tile.batch, row := t.tile.rt * lcbD l + r0, col := t.tile.ct * lcbD l + c0
          rows := rows, cols := cols, elems := es.map (·.1.bits), fl := flagsOf (es.map (·.1.fl))
          poison := spreadPoison cols (es.map (·.2)), link := t.tile.link })

/-- The queue with sub-tiles added to the entry being filled, or to a new one; none when it is full (R81, R94, R119). In S64Q and
S32H a tile joins the newest entry when its slots there are free, and the TE may take an entry whose other slots no tile has filled:
the manual does not say when such an entry is complete. DESIGN CHOICE, log entry 33. -/
def ftqAdd (q : List (List SubTile)) (ts : List SubTile) : Option (List (List SubTile)) :=
  match q.reverse with
  | last :: front =>
    if ts.all (fun t => last.all (fun u => u.slot != t.slot)) then some (((last ++ ts) :: front).reverse)
    else if q.length < 4 then some (q ++ [ts]) else none
  | [] => some [ts]

/-- Parity errors of queue entries: the named elements (slot, element) of a tile's sub-tiles are poisoned (R119, R211). -/
def parityTiles (bad : List (Nat × Nat)) (ts : List SubTile) : List SubTile :=
  ts.map (fun t => { t with
    poison := spreadPoison t.cols ((t.poison.zip (List.range t.poison.length)).map (fun x => x.1 || bad.contains (t.slot, x.2))) })

/-- The complete tile of subarray i: the one in the second accumulators first (R86). With K = 0 a tile is complete as it is dealt
(R103). -/
def Core.finished (k : Core) (l : List Byte) (i : Nat) : Option (AccTile × Core) :=
  match tget k.draining none i, tget k.accs none i with
  | some t, _ => some (t, { k with draining := tset k.draining none i none })
  | none, some t => if t.complete l then some (t, { k with accs := tset k.accs none i none }) else none
  | none, none => none

/-- The drain of subarray i of core p: its complete tile enters the queue; when the queue is full the foot holds the drained elements
and the array stalls (R68, R94, R119). -/
def State.mxeDrain (s : State) (p i : Nat) (parity : List (Nat × Nat)) : State :=
  match (s.core p).running, (s.core p).held with
  | some ly, none =>
    let l := ly.lcb
    match (if mxK l = 0 ∧ mxEn l then (s.core p).deal ly else s.core p).finished l i with
    | some (t, k) =>
      let ts := parityTiles parity (subTiles l i t (s.drained p l t))
      s.modCore p (fun _ => match ftqAdd k.ftq ts with
        | some q => { k with ftq := q }
        | none => { k with held := some (ts, (s.cluster (p / 12)).seq.cycles) })
    | none => s
  | _, _ => s

/-- An entry of the queue has been released: elements that the foot held enter the queue in the following CCLK, and the array's stall
is counted (R94, R121). -/
def State.footRelease (s : State) (p : Nat) : State :=
  match (s.core p).held with
  | some (ts, since) =>
    match ftqAdd (s.core p).ftq ts with
    | some q =>
      let n := (s.cluster (p / 12)).seq.cycles + 1 - since
      (s.modCore p (fun k => { k with ftq := q, held := none, stalls := k.stalls + n })).span (ctClu (p / 12) 4) n
    | none => s
  | none => s

end Sys2Proof.Machine
end

