-- ==== Sys2Proof/Machine/TeOps.lean ====
section
/-!
DEFINITION. The tile engine's arithmetic (04_tile_engine.md): reduction trees, the sequence table, softmax, loss,
normalisation, the epilogue's elementwise stages and the mint.
-/
set_option autoImplicit false
namespace Sys2Proof.Machine

/-! ### Reduction trees (R132 to R135) -/

/-- One level of a tree: neighbours combined in index order (R133). -/
def pairUp {α : Type} (op : α → α → α) : List α → List α
  | a :: b :: r => op a b :: pairUp op r
  | l => l

/-- The five levels of a tree over 32 inputs (R133). -/
def tree32 {α : Type} (op : α → α → α) (l : List α) : List α :=
  pairUp op (pairUp op (pairUp op (pairUp op (pairUp op l))))

/-- −0, the identity of a sum (R135). -/
def negZero : W32 := 0x80000000#32

/-- A sum over 32 positions; a position without a value takes no part (R132, R135). -/
def treeSum (l : List (Option FV)) : FV :=
  (tree32 FV.add (l.map (fun x => x.getD (FV.of negZero)))).headD (FV.of negZero)
/-- A maximum over 32 positions (R135). -/
def treeMax (l : List (Option FV)) : FV :=
  (tree32 FV.max (l.map (fun x => x.getD (FV.of fninf)))).headD (FV.of fninf)
/-- A minimum over 32 positions (R135). -/
def treeMin (l : List (Option FV)) : FV :=
  (tree32 FV.min (l.map (fun x => x.getD (FV.of finf)))).headD (FV.of finf)

/-- Whether value a comes before b as an argmax: larger, or +0 before −0, or equal with a lower index (R135). -/
def argBetter (a b : FV × Nat) : Bool :=
  b.1.val.lt a.1.val ||
  (!(a.1.val.lt b.1.val) &&
    (if a.1.val.isZero && b.1.val.isZero && a.1.val.isNeg != b.1.val.isNeg then b.1.val.isNeg else decide (a.2 ≤ b.2)))

/-- Argmax over 32 positions: an index, or 0xFFFF_FFFF with INV for a NaN and without a flag when no position takes
part (R132, R135). -/
def treeArg (l : List (Option FV)) : FV :=
  let xs := (l.zip (List.range l.length)).filterMap (fun x => x.1.map (fun v => (v, x.2)))
  let fl := flagsOf (xs.map (·.1.flags))
  if xs.any (·.1.val.isNaN) then ⟨0xFFFFFFFF#32, fl.or flINV⟩
  else match xs with
    | [] => ⟨0xFFFFFFFF#32, {}⟩
    | x :: r => ⟨BitVec.ofNat 32 (r.foldl (fun a b => if argBetter a b then a else b) x).2, fl⟩

/-- A row's values split into the 32-column pieces of its sub-tiles, padded to 32 positions. -/
def subTileRows (l : List (Option FV)) : Nat → List (List (Option FV))
  | 0 => []
  | n + 1 => match l with
    | [] => []
    | _ => ((l.take 32) ++ List.replicate (32 - l.length) none) :: subTileRows (l.drop 32) n

/-- The sub-tile rows of a whole row. -/
def rowPieces (l : List (Option FV)) : List (List (Option FV)) := subTileRows l (l.length + 1)

/-- Positions present in a piece. -/
def present (l : List (Option FV)) : Nat := (l.filter Option.isSome).length

/-! ### The sequence table (R144 to R146) -/

def slotLength (x : Nat) : Nat := fld x 0 21
def slotMask (x : Nat) : Nat := fld x 24 2
def slotValid (x : Nat) : Bool := bit x 26
def slotOffset (x : Nat) : Nat := fld x 32 32
def slotPad (x : Nat) : Nat := fld x 64 21
def slotGroup (x : Nat) : Nat := fld x 88 8
/-- Extent of a slot (R144). -/
def slotExtent (x : Nat) : Nat := if slotMask x = 2 then slotPad x else slotLength x
/-- The valid slot whose extent holds packed position q (R146). -/
def slotAt (bank : Tab Nat) (q : Nat) : Option (Nat × Nat) :=
  bank.find? (fun x => slotValid x.2 && decide (slotOffset x.2 ≤ q) && decide (q < slotOffset x.2 + slotExtent x.2))
/-- Whether q lies in the padding of a padded slot (R146). -/
def inPadding (x q : Nat) : Bool := slotMask x == 2 && decide (slotOffset x + slotLength x ≤ q)

/-- Whether key k is live for query q (R146). -/
def keyLive (bank : Tab Nat) (q k : Nat) : Bool :=
  match slotAt bank q with
  | none => false
  | some (iq, sq) =>
    if inPadding sq q then false
    else match slotAt bank k with
      | none => false
      | some (ik, sk) =>
        if inPadding sk k then false
        else match slotMask sq with
          | 0 | 2 => ik == iq
          | 3 => ik == iq && decide (k ≤ q)
          | _ => slotGroup sk == slotGroup sq && decide (k ≤ q)

/-! ### Softmax and loss (R136 to R142) -/

/-- Statistics of a row (R139). -/
structure RowStats where
  m    : W32 := 0
  s    : W32 := 0
  lse  : W32 := 0
  loss : W32 := 0
  empty : Bool := false
  inf  : Bool := false
  nan  : Bool := false
  ignored : Bool := false
deriving DecidableEq, Repr

/-- A finished row: its outputs, statistics, the flags that its decision raises, and the LSE as computed. -/
structure RowOut where
  outs  : List FV
  stats : RowStats := {}
  fl    : Flags := {}
  lse   : FV := {}
  infs  : Nat := 0
deriving DecidableEq, Repr

/-- A difference below the F32 range is −∞ without OVF in the softmax stage (R137). -/
def smDiff (y m : FV) : FV :=
  let d := FV.sub y m
  if d.val.isInf then ⟨d.bits, { d.fl with ovf := false }⟩ else d

/-- Phase 1 of case 4: the running maximum and sum (R137). -/
def smPhase1 (pieces : List (List (Option FV))) : FV × FV :=
  pieces.foldl (fun (a : FV × FV) p =>
    if present p = 0 then a
    else
      let mj := treeMax p
      let a := if a.1.val.lt mj.val then (mj, FV.mul a.2 (FV.exp (smDiff a.1 mj))) else a
      (a.1, FV.add a.2 (treeSum (p.map (fun x => x.map (fun y => FV.exp (smDiff y a.1)))))))
    (FV.of fninf, FV.of 0)

/-- Softmax of a row: scaled values, none where masked (R136, R137). -/
def softmaxRow (ys : List (Option FV)) : RowOut :=
  let live := ys.filterMap id
  let k := (live.filter (fun y => y.val.isInf && !y.val.isNeg)).length
  if live.any (·.val.isNaN) then
    { outs := ys.map (fun _ => FV.of qnan), stats := { m := qnan, s := qnan, lse := qnan, nan := true }, fl := flINV, lse := FV.of qnan }
  else if 0 < k then
    let share := FV.div (FV.of fone) (FV.ofNat k)
    { outs := ys.map (fun y => match y with | some v => if v.val.isInf && !v.val.isNeg then ⟨share.bits, {}⟩ else {} | none => {})
      stats := { m := finf, s := (FV.ofNat k).bits, lse := finf, inf := true }, fl := flSAT, lse := FV.of finf, infs := k }
  else if live.all (fun y => y.val.isInf) then
    { outs := ys.map (fun _ => {}), stats := { m := fninf, s := 0, lse := fninf, empty := true }, lse := FV.of fninf }
  else
    let f := ys.map (fun y => y.bind (fun v => if v.val.isFinite then some v else none))
    let (m, s) := smPhase1 (rowPieces f)
    let lse := FV.add m (FV.log s)
    { outs := f.map (fun y => match y with | some v => FV.div (FV.exp (smDiff v m)) s | none => {})
      stats := { m := m.bits, s := s.bits, lse := lse.bits }, fl := (m.fl.or s.fl).or lse.fl, lse := lse }

/-- Loss of a row of scaled logits (R140, R141): token loss if counted, and the stage's output. `slot` says whether
the query position lies in a valid slot outside padding. An ignored row has no token loss, and its record's LOSS is +0. DEDUCED,
log entry 73. -/
def lossRow (ys : List FV) (slot : Bool) (label n : Nat) (grad : Bool) (gscale : W32) : RowOut × Option FV :=
  let sm := softmaxRow (ys.map some)
  if !slot || label == 0xFFFFFFFF then
    ({ outs := ys.map (fun _ => {}), stats := { sm.stats with ignored := true } }, none)
  else
    let p := sm.outs
    let outs := if grad then
        (p.zip (List.range p.length)).map (fun x =>
          FV.mul (FV.sub x.1 (FV.of (if x.2 = label then fone else 0))) (FV.of gscale))
      else p
    let bad := decide (n ≤ label)      -- negative labels have bit 31 set and lie above every N
    let y := (ys[label]?).getD {}
    let loss : FV :=
      if bad then ⟨qnan, flINV⟩
      else if sm.stats.nan || sm.stats.empty then ⟨qnan, flINV⟩
      else if sm.stats.inf then
        (if y.val.isInf && !y.val.isNeg then ⟨(FV.log (FV.ofNat sm.infs)).bits, flSAT⟩ else ⟨finf, flSAT⟩)
      else if y.val.isInf then FV.of finf
      else FV.sub sm.lse y
    ({ sm with outs := outs, stats := { sm.stats with loss := loss.bits }, fl := sm.fl.or loss.fl }, some loss)

/-- The statistics record (R139). -/
def RowStats.bytes (x : RowStats) : List Byte :=
  leBytes 4 x.m.toNat ++ leBytes 4 x.s.toNat ++ leBytes 4 x.lse.toNat ++ leBytes 4 x.loss.toNat ++
  leBytes 4 (bnum x.empty 0 + bnum x.inf 1 + bnum x.nan 2 + bnum x.ignored 3) ++ List.replicate 12 0

/-- A loss accumulator with a counted token loss added (R142, R148). DEDUCED, log entry 63. -/
def LossAcc.addLoss (a : LossAcc) (loss : FV) (poisoned : Bool) : LossAcc :=
  if poisoned then { a with poisoned := true }
  else
    let a := { a with tokens := satAdd 0xFFFFFFFF a.tokens 1 }
    match loss.val with
    | .fin n m e =>
      let x := a.sum + Val.signed n (truncTo m e (-64))
      if 2 ^ 127 ≤ x.natAbs then { a with sum := Val.signed (decide (x < 0)) (2 ^ 127 - 1), saturated := true }
      else { a with sum := x }
    | _ => { a with nonfinite := true }

/-! ### Normalisation (R125) -/

/-- Layer statistics: mean, m2 and the count (R125). -/
def layerStats (pieces : List (List (Option FV))) : FV × FV × FV :=
  pieces.foldl (fun (a : FV × FV × FV) p =>
    let nj := FV.ofNat (present p)
    let mj := FV.div (treeSum p) nj
    let qj := treeSum (p.map (fun x => x.map (fun v => FV.mul (FV.sub v mj) (FV.sub v mj))))
    let d := FV.sub mj a.1
    let c2 := FV.add a.2.2 nj
    (FV.add a.1 (FV.div (FV.mul d nj) c2),
     FV.add (FV.add a.2.1 qj) (FV.div (FV.mul (FV.mul (FV.mul d d) a.2.2) nj) c2), c2))
    (FV.of 0, FV.of 0, FV.of 0)

/-- A normalised row: mode 1 layer, 2 RMS (R125). -/
def normRow (mode : Nat) (eps : W32) (gamma beta : List FV) (xs : List FV) : List FV :=
  let pieces := rowPieces (xs.map some)
  let g (i : Nat) := (gamma[i]?).getD {}
  let b (i : Nat) := (beta[i]?).getD {}
  let idx := xs.zip (List.range xs.length)
  match mode with
  | 1 =>
    let (mean, m2, cnt) := layerStats pieces
    let r := FV.rsqrt (FV.add (FV.div m2 cnt) (FV.of eps))
    idx.map (fun x => FV.add (FV.mul (FV.mul (FV.sub x.1 mean) r) (g x.2)) (b x.2))
  | 2 =>
    let sums := pieces.map (fun p => treeSum (p.map (fun x => x.map (fun v => FV.mul v v))))
    let s := match sums with | [] => FV.of 0 | x :: r => r.foldl FV.add x
    let r := FV.rsqrt (FV.add (FV.div s (FV.ofNat xs.length)) (FV.of eps))
    idx.map (fun x => FV.mul (FV.mul x.1 r) (g x.2))
  | _ => xs

/-! ### Flags (R128, R131) -/

/-- Flags raised by core k's TE at CCLK now for the running layer; those of one CCLK are remembered, because a clear that lands in the
same CCLK leaves them standing (R128, R131). -/
def Core.raise (k : Core) (now : Nat) (fl : Flags) : Core :=
  { k with teFlags := k.teFlags.or fl, nowFlags := k.nowFlags.or fl, raisedAt := now + 1,
           raisedNow := if k.raisedAt = now + 1 then k.raisedNow.or fl else fl }
/-- Flags raised by the TE of core p. -/
def State.raise (s : State) (p : Nat) (fl : Flags) : State :=
  if fl.any then s.modCore p (·.raise (s.cluster (p / 12)).seq.cycles fl) else s
/-- One more empty row on core k at CCLK now; those of one CCLK are remembered, because a read in the same CCLK leaves them counted
(R130, R131, R138). -/
def Core.emptyRow (k : Core) (now : Nat) : Core :=
  { k with emptyRows := satAdd 0xFFFFFFFF k.emptyRows 1, emptyAt := now + 1, emptyNow := if k.emptyAt = now + 1 then k.emptyNow + 1 else 1 }

/-! ### Stages 1 to 4 (R123, R124) -/

/-- Constants of R124: 0.044715, 0.7978846, 0.70710678 and 0.5. -/
def c044715 : W32 := 0x3D372713#32
def c079788 : W32 := 0x3F4C422A#32
def c070710 : W32 := 0x3F3504F3#32
def chalf : W32 := 0x3F000000#32

/-- Activations (R124). -/
def activation (code : Nat) (x : FV) : FV :=
  match code with
  | 1 => FV.max x (FV.of 0)
  | 2 =>
    let u := FV.mul (FV.mul x x) x
    let u := FV.mul (FV.of c044715) u
    let u := FV.add x u
    let u := FV.mul (FV.of c079788) u
    let u := FV.tanh u
    let u := FV.add (FV.of fone) u
    FV.mul (FV.mul (FV.of chalf) x) u
  | 3 =>
    let u := FV.add (FV.of fone) (FV.erf (FV.mul x (FV.of c070710)))
    FV.mul (FV.mul (FV.of chalf) x) u
  | 4 => FV.mul x (FV.sigmoid x)
  | 5 => FV.sigmoid x
  | 6 => FV.tanh x
  | 7 => let r := FV.max x (FV.of 0); FV.mul r r
  | _ => x

/-- Element j of an unscaled vector, expanded (R49, R123), with its poison. -/
def State.vecElem (s : State) (p : Nat) (f : Format) (addr j : Nat) : FV × Bool :=
  let a := pa p addr
  (expand f none fone (s.elem f a j), s.poisonAt (f.elemAddr a j))

/-- The residual at row r, column c of batch entry e (R123, R126, R606). A residual in a format and block size that R46 knows no tensor
of is read as its codes say. DESIGN CHOICE, log entry 57. -/
def State.residual (s : State) (p : Nat) (l : List Byte) (e r c : Nat) : FV × Bool :=
  let f := fmtOf (resFmt l)
  let row := pa p (l48 l 0x0C0) + e * l48 l 0x140 + r * l32 l 0x06C
  let bs := blkSize (resBlk l)
  let sa := pa p (l48 l 0x0C8) + (e * mxM l + r) * ((mxN l + bs - 1) / bs) + c / bs
  let scale := if resBlk l = 0 then none else some (s.byteAt sa).toNat
  (expand f scale (BitVec.ofNat 32 (l32 l 0x03C)) (s.elem f row c),
   s.poisonAt (f.elemAddr row c) || (resBlk l != 0 && s.poisonAt sa))

/-- Stages 1 to 4 on the element at row r, column c of batch entry e (R123). A stage that is not selected passes its
value unchanged. -/
def State.stages (s : State) (p : Nat) (l : List Byte) (e r c : Nat) (x : FV × Bool) : FV × Bool :=
  let v := if l32 l 0x040 = 0x3F800000 then x.1 else FV.mul x.1 (FV.of (BitVec.ofNat 32 (l32 l 0x040)))
  let (v, q) := if biasMode l = 0 then (v, x.2) else
    let b := s.vecElem p (fmtOf (biasFmt l)) (l48 l 0x0B8) (if biasMode l = 1 then c else r)
    (FV.add v b.1, x.2 || b.2)
  let (v, q) := if resEn l then
      let b := s.residual p l e r c
      (FV.add v b.1, q || b.2)
    else (v, q)
  (activation (teAct l) v, q)

/-! ### The mint (R150 to R155) -/

/-- The bytes of a unit that a piece of n bytes at a covers, as a 64-bit mask. -/
def unitMask (a n : Nat) : Nat := (2 ^ n - 1) <<< (a % 64)

/-- A piece of a unit that the TE writes. The mint rewrites every unit it writes in full (R151), but in pieces, and in an order that
no result may depend on (R84, R184): `minted` gathers the pieces, and with the last of them the unit's poison is that of the pieces
alone (R154, R211). Until then, and for any other piece shorter than a unit, a poisoned unit stays poisoned (R212). DESIGN CHOICE,
log entry 57. -/
def Memory.mintPiece (m : Memory) (a : Nat) (bs : List Byte) (poisoned : Bool) (whole : Bool := true) : Memory :=
  let u := a / 64
  let mask := unitMask a bs.length
  let old := tget m.minted 0 u
  let seen := (if !whole || old &&& mask != 0 then 0 else old) ||| mask ||| bnum poisoned 64
  let full := fld seen 0 64 == 2 ^ 64 - 1
  { cells := cellsPut m.cells a bs
    poison := tset m.poison false u (if full then bit seen 64 else m.poisoned a || poisoned)
    minted := tset m.minted 0 u (if full || !whole then 0 else seen) }

/-- A run of bytes that the TE writes, each with its poison; `whole` says that the mint writes it, in whole units
(R151, R154, R212). -/
def State.mintWrite (s : State) (a : Nat) (bs : List Byte) (ps : List Bool) (whole : Bool := true) : State :=
  (pieces a bs).foldl (fun s q =>
    let qs := (ps.drop (q.1 - a)).take q.2.length
    { s with mem := s.mem.mintPiece q.1 q.2 (qs.any id) whole }) s

/-- The random integer of the element at row r, column c of batch entry e, when rounding is stochastic (R57, R76,
R152). DEDUCED, log entry 77. -/
def mintRandom (l : List Byte) (step : Nat) (e r c : Nat) : Option Nat :=
  if outRound l && !(mxEn l && igseig l) then
    let bs := blkSize (outBlk l)
    let (b, i) :=
      if outBlk l = 0 then
        let x := (e * mxM l + r) * mxN l + c
        (x / 32, x % 32)
      else if outAxis l = 0 then
        let nr := (mxN l + bs - 1) / bs
        (e * mxM l * nr + r * nr + c / bs, c % bs)
      else
        let nc := (mxM l + bs - 1) / bs
        (e * mxN l * nc + c * nc + r / bs, r % bs)
    some (srRandom step (tensorId l) (b % 2 ^ 40) i)
  else none

/-- Elements of a region that the mint stores: F32 bits and poison at (row, column). -/
abbrev Region2 := List (List (FV × Bool))

/-- A region converted: for each row its codes with flags, and for each block its scale; blocks along rows
(R53, R150). -/
def mintRows (l : List Byte) (step e r0 c0 : Nat) (rows : Region2) : List (List BlockOut) :=
  let f := fmtOf (outFmt l)
  let bs := if outBlk l = 0 then 32 else blkSize (outBlk l)
  let t := BitVec.ofNat 32 (l32 l 0x038)
  (rows.zip (List.range rows.length)).map (fun x =>
    let n := (x.1.length + bs - 1) / bs
    (List.range n).map (fun b =>
      let vs := (x.1.drop (b * bs)).take bs
      convertBlock f (outBlk l != 0) t (fun i => mintRandom l step e (r0 + x.2) (c0 + b * bs + i)) (vs.map (·.1.bits))))

/-- Columns of a region. -/
def columns (rows : Region2) (n : Nat) : Region2 :=
  (List.range n).map (fun c => rows.filterMap (fun r => r[c]?))

/-- A region converted with blocks along columns: for each column its blocks (R53, R150). -/
def mintCols (l : List Byte) (step e r0 c0 : Nat) (rows : Region2) (n : Nat) : List (List BlockOut) :=
  let f := fmtOf (outFmt l)
  let bs := blkSize (outBlk l)
  let t := BitVec.ofNat 32 (l32 l 0x038)
  ((columns rows n).zip (List.range n)).map (fun x =>
    let m := (x.1.length + bs - 1) / bs
    (List.range m).map (fun b =>
      let vs := (x.1.drop (b * bs)).take bs
      convertBlock f true t (fun i => mintRandom l step e (r0 + b * bs + i) (c0 + x.2)) (vs.map (·.1.bits))))

/-- Poison of each byte of a row of packed elements. -/
def bytePoison (f : Format) (ps : List Bool) : List Bool :=
  (List.range (f.rowBytes ps.length)).map (fun b =>
    if f.bits = 4 then (ps[2 * b]?).getD false || (ps[2 * b + 1]?).getD false
    else (ps[b / (f.bits / 8)]?).getD false)

/-- A row segment written at column c0; the bytes past the row's end up to the end of its unit are zero (R151). -/
def State.mintRow (s : State) (f : Format) (row c0 n : Nat) (codes : List Nat) (ps : List Bool) : State :=
  let bs := packCodes f codes
  let a := f.elemAddr row c0
  let fill := if c0 + codes.length = n then roundUp 64 (f.rowBytes n) - f.rowBytes n else 0
  s.mintWrite a (bs ++ List.replicate fill 0) (bytePoison f ps)

/-- The mint stores a region whose first element is row r0, column c0 of batch entry e and link t (R150 to R155):
elements, scales, flags, the high-water register and, in a chain, the forwarded rows. -/
def State.mint (s : State) (p : Nat) (ly : Layer) (t e r0 c0 : Nat) (rows : Region2) : State :=
  let l := ly.lcb
  let f := fmtOf (outFmt l)
  let n := (rows.map List.length).foldl max 0
  let step := ly.step.toNat
  let byCol := outBlk l != 0 && outAxis l == 1
  let blocks := if byCol then mintCols l step e r0 c0 rows n else mintRows l step e r0 c0 rows
  let codesOf (r : Nat) : List Nat :=
    if byCol then blocks.filterMap (fun bl => (bl.flatMap (·.codes))[r]?)
    else ((blocks[r]?).getD []).flatMap (·.codes)
  let base := pa p (l48 l 0x0A8) + t * l48 l 0x130 + e * l48 l 0x118
  let sbase := pa p (l48 l 0x0B0) + t * l48 l 0x138 + e * l48 l 0x120
  let bs := blkSize (outBlk l)
  let sld := l32 l 0x068
  let s := (rows.zip (List.range rows.length)).foldl (fun (s : State) x =>
    s.mintRow f (base + (r0 + x.2) * l32 l 0x064) c0 (mxN l) (codesOf x.2) (x.1.map (·.2))) s
  let s :=
    if outBlk l = 0 then s
    else if byCol then
      let cols := columns rows n
      let nb := (rows.length + bs - 1) / bs
      (List.range nb).foldl (fun (s : State) b =>
        let sc := blocks.map (fun bl => ((bl[b]?).getD {}).scale)
        let ps := cols.map (fun col => ((col.drop (b * bs)).take bs).any (·.2))
        let fill := if c0 + n = mxN l then roundUp 64 (mxN l) - mxN l else 0
        s.mintWrite (sbase + (r0 / bs + b) * sld + c0) (sc.flatMap (leBytes 1) ++ List.replicate fill 0) ps) s
    else
      (rows.zip (List.range rows.length)).foldl (fun (s : State) x =>
        let bl := (blocks[x.2]?).getD []
        let ps := (List.range bl.length).map (fun b => ((x.1.drop (b * bs)).take bs).any (·.2))
        let fill := if c0 + x.1.length = mxN l then roundUp 64 (outScaleRow l) - outScaleRow l else 0
        s.mintWrite (sbase + (r0 + x.2) * sld + c0 / bs) (bl.flatMap (fun b => leBytes 1 b.scale) ++ List.replicate fill 0) ps) s
  let fl := flagsOf ((blocks.flatMap id).map (·.fl))
  let s := s.raise p fl
  let s := if hwmEn l then
      { s with hwm := tmod s.hwm 0 (hwmIndex l) (fun h => hwmUpdate h (rows.flatMap (fun r => r.map (·.1.bits)))) }
    else s
  if links l < 2 then s
  else
    let whole := r0 % lcbD l == 0 && c0 == 0 && n == mxN l && rows.length == min (lcbD l) (mxM l - r0)
    let s := if whole then s.modCore p (fun k => { k with fwd := tset k.fwd 0 (fwdKey e (r0 / lcbD l)) (t + 1) }) else s
    (rows.zip (List.range rows.length)).foldl (fun (s : State) x =>
      let cs := (codesOf x.2).zip (x.1.map (·.2))
      let bl := (blocks[x.2]?).getD []
      s.modCore p (fun k =>
        let ch := (cs.zip (List.range cs.length)).foldl (fun ch y =>
          tset ch 0 (chainKey e (r0 + x.2) (c0 + y.2)) (y.1.1 + bnum y.1.2 32)) k.chain
        { k with chain := if outBlk l = 0 then ch else
            (bl.zip (List.range bl.length)).foldl (fun ch y => tset ch 0 (chainKey e (r0 + x.2) (128 + c0 / bs + y.2)) y.1.scale) ch })) s

/-! ### Whole tiles and rows -/

/-- Phase 1: the values of a region leave stage 4 for the staging area (R125). DEDUCED, log entry 73. -/
def State.stageRows (s : State) (p : Nat) (l : List Byte) (r0 c0 : Nat) (rows : Region2) : State :=
  (rows.zip (List.range rows.length)).foldl (fun (s : State) x =>
    let a := pa p (l48 l 0x0E8) + ((r0 + x.2) % lcbD l) * stageStride l + 4 * c0
    s.mintWrite a (x.1.flatMap (fun v => leBytes 4 v.1.bits.toNat)) (x.1.flatMap (fun v => List.replicate 4 v.2)) false) s

/-- Flags of a region's values. -/
def regionFlags (rows : Region2) : Flags := flagsOf (rows.flatMap (fun r => r.map (·.1.fl)))

/-- The statistics record of a row in a layer without a row operation: the words that R139 states for softmax and loss
alone are open. DESIGN CHOICE, log entry 57. -/
def openStats (l : List Byte) (row : List (FV × Bool)) : List Byte :=
  (List.range 4).flatMap (fun k => leBytes 4 (Config.rowStat l (row.map (·.1.bits)) k).toNat) ++ List.replicate 16 0

/-- Statistics records of the rows whose last columns a region holds, in a layer of one phase (R139). DESIGN CHOICE, log entry 57. -/
def State.regionStats (s : State) (p : Nat) (l : List Byte) (e r0 c0 : Nat) (rows : Region2) : State :=
  if teStatsEn l ∧ mxN l ≤ c0 + (rows.map List.length).foldl max 0 then
    (rows.zip (List.range rows.length)).foldl (fun (s : State) x =>
      s.mintWrite (pa p (l48 l 0x0F0) + 32 * (e * mxM l + (r0 + x.2))) (openStats l x.1)
        (List.replicate 32 (x.1.any (·.2))) false) s
  else s

/-- A region that has passed stages 1 to 4 goes to the mint, or to the staging area of a two-phase layer
(R123, R125). -/
def State.finishRegion (s : State) (p : Nat) (ly : Layer) (t e r0 c0 : Nat) (rows : Region2) : State :=
  let s := s.raise p (regionFlags rows)
  if twoPhase ly.lcb then s.stageRows p ly.lcb r0 c0 rows
  else (s.mint p ly t e r0 c0 rows).regionStats p ly.lcb e r0 c0 rows

/-- A finished row of phase 2: outputs with poison, statistics, flags, what goes to a loss slot (slot, token loss, poisoned), and
whether it is an empty softmax row. -/
structure RowEnd where
  outs  : List (FV × Bool)
  stats : RowStats := {}
  fl    : Flags := {}
  loss  : Option (Nat × FV × Bool) := none
  empty : Bool := false

/-- The flags of a finished row: those of stage 5, and where the row operation decides with a flag or by arithmetic those of the
scaling too; an empty softmax row and an ignored loss row raise none of their own (R128, R136, R138, R140). -/
def rowFlags (ns ys : List FV) (o : RowOut) : Flags :=
  let stage5 := flagsOf (ns.map (·.fl))
  if o.stats.ignored then stage5
  else if o.stats.empty && !o.fl.inv then stage5
  else ((stage5.or o.fl).or (flagsOf (o.outs.map (·.fl)))).or (flagsOf (ys.map (·.fl)))

/-- One row of phase 2: normalisation, then softmax or loss (R125, R136 to R142). A loss row that is read poisoned marks its slot,
whether or not it would count (R142). -/
def State.finishRow (s : State) (p : Nat) (ly : Layer) (e r : Nat) : RowEnd :=
  let l := ly.lcb
  let n := mxN l
  let a := pa p (l48 l 0x0E8) + (r % lcbD l) * stageStride l
  let xs := (List.range n).map (fun c => FV.of (BitVec.ofNat 32 (s.elem .f32 a c)))
  let pois := (List.range n).any (fun c => s.poisonAt (a + 4 * c))
  let gamma := if teNorm l = 0 then [] else (List.range n).map (s.vecElem p .f32 (l48 l 0x0D0))
  let beta := if teNorm l = 1 then (List.range n).map (s.vecElem p .f32 (l48 l 0x0D8)) else []
  let ns := normRow (teNorm l) (BitVec.ofNat 32 (l32 l 0x04C)) (gamma.map (·.1)) (beta.map (·.1)) xs
  let gp (c : Nat) : Bool := (match gamma[c]? with | some g => g.2 | none => false) || (match beta[c]? with | some g => g.2 | none => false)
  let sc := FV.of (BitVec.ofNat 32 (l32 l 0x044))
  let q := l32 l 0x050 + r
  let bad := pois || (List.range n).any gp
  match teRowop l with
  | 1 =>
    let ys := (ns.zip (List.range n)).map (fun x =>
      if !teMaskEn l || keyLive ly.bank q (l32 l 0x054 + x.2) then some (FV.mul sc x.1) else none)
    let o := softmaxRow ys
    { outs := o.outs.map (fun v => (v, bad)), stats := o.stats, fl := rowFlags ns (ys.filterMap id) o, empty := o.stats.empty }
  | 2 =>
    let ys := ns.map (fun x => FV.mul sc x)
    let la := pa p (l48 l 0x0E0) + 4 * (e * mxM l + r)
    let label := leNat (s.readMem la 4)
    let slot := slotAt ly.bank q
    let ok := match slot with | some (_, x) => !inPadding x q | none => false
    let (o, loss) := lossRow ys ok label n (teLossGrad l) (BitVec.ofNat 32 (l32 l 0x048))
    let bad := bad || s.poisonAt la
    { outs := o.outs.map (fun v => (v, bad)), stats := o.stats, fl := rowFlags ns ys o
      loss := slot.bind (fun x => if bad then some (x.1, {}, true) else loss.map (fun v => (x.1, v, false))) }
  | _ => { outs := (ns.zip (List.range n)).map (fun x => (x.1, pois || gp x.2)), fl := flagsOf (ns.map (·.fl)) }

/-- The statistics record of a finished row is written, its flags are raised, and its loss counts (R128, R138, R139, R142). -/
def State.endRow (s : State) (p : Nat) (l : List Byte) (e r : Nat) (x : RowEnd) : State :=
  let s := s.raise p x.fl
  let s := if x.empty then s.modCore p (·.emptyRow (s.cluster (p / 12)).seq.cycles) else s
  let s := match x.loss with
    | some (i, v, bad) => s.modCluster (p / 12) (fun c => { c with loss := tmod c.loss {} i (fun a => a.addLoss v bad) })
    | none => s
  if teStatsEn l then
    s.mintWrite (pa p (l48 l 0x0F0) + 32 * (e * mxM l + r)) (if teRowop l = 0 then openStats l x.outs else x.stats.bytes)
      (List.replicate 32 (x.outs.any (·.2))) false
  else s

/-- Phase 2 of a row tile: rows finished, minted, their statistics written and their losses accumulated
(R125, R138, R139, R142). A row tile that the layer does not have, or that is not the core's, is left alone (R101, R183). -/
def State.finishRowTile (s : State) (p : Nat) (ly : Layer) (e rt : Nat) : State :=
  if ¬ ly.takes { batch := e, rt := rt } then s else
  let l := ly.lcb
  let r0 := rt * lcbD l
  let rs := (List.range (min (lcbD l) (mxM l - r0))).map (· + r0)
  let rows := rs.map (fun r => s.finishRow p ly e r)
  let s := (rs.zip rows).foldl (fun (s : State) x => s.endRow p l e x.1 x.2) s
  s.mint p ly 0 e r0 0 (rows.map (·.outs))

/-- The epilogue on the head entry of core p's queue: every sub-tile passes stages 1 to 4 and is finished, and the
entry is released, so that elements which the foot holds can follow (R94, R120, R121, R123). Sub-tiles of one output tile are taken together, so that every block lies in
one region (R150). -/
def State.epilogue (s : State) (p : Nat) : State :=
  let k := s.core p
  match k.running, k.ftq with
  | some ly, entry :: rest =>
    let l := ly.lcb
    let d := lcbD l
    let keys := (entry.map (fun t => (t.link, t.batch, t.row / d * d, t.col / d * d))).eraseDups
    let s := (s.modCore p (fun k => { k with ftq := rest })).footRelease p
    keys.foldl (fun (s : State) q =>
      let ts := entry.filter (fun t => (t.link, t.batch, t.row / d * d, t.col / d * d) == q)
      let (t, e, r0, c0) := q
      let nr := min d (mxM l - r0)
      let nc := min d (mxN l - c0)
      let at? (r c : Nat) : FV × Bool :=
        (ts.findSome? (fun u =>
          if u.row ≤ r ∧ r < u.row + u.rows ∧ u.col ≤ c ∧ c < u.col + u.cols then
            let i := (r - u.row) * u.cols + (c - u.col)
            some (FV.of ((u.elems[i]?).getD 0), (u.poison[i]?).getD false)
          else none)).getD ({}, false)
      let rows := (List.range nr).map (fun r => (List.range nc).map (fun c =>
        s.stages p l e (r0 + r) (c0 + c) (at? (r0 + r) (c0 + c))))
      (s.raise p (flagsOf (ts.map (·.fl)))).finishRegion p ly t e r0 c0 rows) s
  | _, _ => s

/-- One 128 × 128 tile of a TE-only layer: its input expanded and passed to stage 1 (R169). A tile that the layer does not have, or
that is not the core's, is left alone (R101, R183). -/
def State.teTile (s : State) (p : Nat) (t : TileName) : State :=
  match (s.core p).running with
  | none => s
  | some ly =>
    if mxEn ly.lcb ∨ ¬ ly.takes { t with link := 0 } then s else
    let l := ly.lcb
    let f := fmtOf (aFmt l)
    let r0 := t.rt * 128
    let c0 := t.ct * 128
    let nr := min 128 (mxM l - r0)
    let nc := min 128 (mxN l - c0)
    let inp (r c : Nat) : FV × Bool :=
      let row := pa p (l48 l 0x080) + t.batch * l48 l 0x100 + r * l32 l 0x058
      let bs := blkSize (aBlk l)
      let sa := pa p (l48 l 0x088) + (t.batch * mxM l + r) * ((mxN l + bs - 1) / bs) + c / bs
      let scale := if aBlk l = 0 then none else some (s.byteAt sa).toNat
      (expand f scale (BitVec.ofNat 32 (l32 l 0x030)) (s.elem f row c),
       s.poisonAt (f.elemAddr row c) || (aBlk l != 0 && s.poisonAt sa))
    let rows := (List.range nr).map (fun r => (List.range nc).map (fun c =>
      s.stages p l t.batch (r0 + r) (c0 + c) (inp (r0 + r) (c0 + c))))
    s.finishRegion p ly 0 t.batch r0 c0 rows

/-! ### Stores of tile contexts (R150, R151) -/

/-- The whole blocks of [a, b) in a row or column of n elements: blocks lie at multiples of bs, and the last ends with it (R150). Of an
unscaled output, all of it. DESIGN CHOICE, log entry 57. -/
def wholeBlocks (bs n a b : Nat) : Nat × Nat :=
  let b := min b n
  if bs = 0 then (a, b) else (roundUp bs a, if b = n then b else b / bs * bs)

/-- A context stores registers through the mint: `at?` gives the element of the registers' region at a row and column of it, with its
poison. Only positions that exist in the core's tiles are written, and a block only when the region holds all of it (R101, R150,
R151, R183). DESIGN CHOICE, log entry 57. -/
def State.storeRegion (s : State) (p : Nat) (ly : Layer) (t e row col rows cols : Nat) (at? : Nat → Nat → FV × Bool) : State :=
  let l := ly.lcb
  let bs := blkSize (outBlk l)
  let (r0, r1) := wholeBlocks (if outAxis l = 1 then bs else 0) (mxM l) row (row + rows)
  let (c0, c1) := wholeBlocks (if outAxis l = 1 then 0 else bs) (mxN l) col (col + cols)
  if r0 < r1 ∧ c0 < c1 ∧ ly.takes { link := t, batch := e, rt := r0 / lcbD l, ct := c0 / lcbD l } then
    s.mint p ly t e r0 c0 ((List.range (r1 - r0)).map (fun i => (List.range (c1 - c0)).map (fun j => at? (r0 + i - row) (c0 + j - col))))
  else s

end Sys2Proof.Machine
end

