-- ==== Sys2Proof/Machine/ClusterOps.lean ====
section
/-!
DEFINITION. What clusters and cores do outside a tile operation: the reached set and the checks of a start (R108 to R112,
R163, R170), the purse's admission (R468), layers that start and complete (R21, R163 to R165), the end of a command on a
cluster (R157, R159, R164, R165), hazards (R181, R182), landing buffers (R216, R217, R389), containment and the resets
of a core and of a cluster (R492, R576).
-/
set_option autoImplicit false
namespace Sys2Proof.Machine

def coreName (p : Nat) : UnitName := ⟨.core, p⟩
def arrayName (p : Nat) : UnitName := ⟨.array, p⟩
def clusterName (c : Nat) : UnitName := ⟨.cluster, c⟩

/-! ### Clocks of a cluster -/

/-- Configuration-register stores land (R162, R178). DESIGN CHOICE, log entry 11. -/
def landCfg (k : Core) (w : CfgWrite) : Core := { k with lcb := storeAt k.lcb (8 * w.word) (leBytes 8 w.val.toNat) }

/-- A tile register after a write lands (R114, R129, R178). -/
def TileReg.write (r : TileReg) (w : RegWrite) : TileReg :=
  { elems := w.elems.foldl (fun e x => tset e 0 x.1 x.2) r.elems, fl := w.fl, poison := w.units.foldl (fun e x => tset e false x.1 x.2) r.poison }

/-- Tile-register writes that have retired by CCLK t land, in the order of their retire cycles, and the flags that their operations
raised reach TE_FLAGS; of two in one cycle the later-issued holds, also against one that has landed in this CCLK already (R128,
R178, R179). DESIGN CHOICE, log entry 11. -/
def Core.landWrites (k : Core) (t : Nat) : Core :=
  let due := k.writes.filter (fun w => decide (w.land ≤ t))
  let again := k.landed.filter (fun w => decide (w.land = t))
  let order := (due ++ again).mergeSort (fun a b => decide (a.land < b.land ∨ (a.land = b.land ∧ a.issue ≤ b.issue)))
  let k := due.foldl (fun (k : Core) w => if w.raised.any then k.raise w.land w.raised else k) k
  { k with writes := k.writes.filter (fun w => decide (t < w.land)),
           landed := order.filter (fun w => decide (w.land = t)),
           regs := order.foldl (fun r w => tmod r {} w.reg (·.write w)) k.regs }

/-- The core has nothing left of a layer's work: contexts, queues, accumulators, operand blocks and forwarded rows are empty. -/
def Core.clearWork (k : Core) : Core :=
  { k with ctxs := [], ftq := [], issueQ := [], dealt := 0, accs := [], draining := [], blocks := [], shadow := [], held := none,
           chain := [], fwd := [] }

/-- The clock of cluster c advances by dt CCLK: stores and tile-register writes that are due land (R158, R178). DESIGN CHOICE, log entry 11. -/
def State.advance (s : State) (c dt : Nat) : State :=
  let t := (s.cluster c).seq.cycles + dt
  let due := (s.cluster c).seq.cfg.filter (fun w => decide (w.land ≤ t))
  let s := s.modSeq c (fun q => { q with cycles := t, cfg := q.cfg.filter (fun w => decide (t < w.land)) })
  let s := due.foldl (fun s w => s.modCore w.core (fun k => landCfg k w)) s
  let s := (coresOf c).foldl (fun s p => if (s.core p).writes = [] ∧ (s.core p).landed = [] then s else s.modCore p (·.landWrites t)) s
  let waiting := ((coresOf c).filter (fun p => (s.core p).running.isSome && !(s.core p).hasRunning)).length
  (s.span (ctClu c 2) dt).span (ctClu c 5) (dt * waiting)

/-! ### The end of a command on a cluster (R157, R165) -/

/-- Whether any core of cluster c runs a layer, or has a start pending. -/
def State.layersRun (s : State) (c : Nat) : Bool := (coresOf c).any (fun p => (s.core p).running.isSome)
def State.layersLeft (s : State) (c : Nat) : Bool :=
  (coresOf c).any (fun p => (s.core p).running.isSome || (s.core p).pending.isSome)

/-- Whether a pending pre-emption takes effect at the next layer boundary of each cluster, with no barrier (R456). -/
def State.stopsDevice (s : State) : Bool :=
  s.preempts.any (fun d => d.at 8 1 % 2 == 1 || !s.hasSlice) && (List.range 8).any (fun c => (s.cluster c).seq.active)

/-- The sequencer's own waits leave the queues of its cluster, and its remote operation is forgotten (R165). -/
def State.dropSeqWaits (s : State) (c : Nat) : State :=
  let qs := ((s.cluster c).queues.filter (fun q => q.2.waiters.any (·.who == .sequencer))).map (·.1)
  let s := qs.foldl (fun s q =>
    (s.modQueue c q (fun x => { x with waiters := x.waiters.filter (·.who != .sequencer) })).release c q) s
  (s.modCluster c (fun k => { k with coin := { k.coin with outstanding := false } })).modRtr
    (fun r => { r with coinWaits := r.coinWaits.filter (fun w => !(w.cluster == c && w.who == .sequencer)) })

/-- The landing buffers that a start or a running layer of a core consumes. -/
def Core.buffers (k : Core) : List Nat := ([k.running, k.pending].filterMap id).flatMap (·.buffers)

/-- Landing buffers whose layer has completed or is cancelled return to EMPTY, once no core of the cluster runs it or holds its start
(R217). -/
def State.releaseBuffers (s : State) (c : Nat) (bs : List Nat) : State :=
  let busy := (coresOf c).flatMap (fun p => (s.core p).buffers)
  (bs.filter (fun b => !busy.contains b)).eraseDups.foldl (fun s b => s.cancelBuffer c b) s

/-- Starts of cluster c that wait in pending slots are dropped: their layers are cancelled (R217). -/
def State.dropPending (s : State) (c : Nat) : State :=
  let bs := (coresOf c).flatMap (fun p => match (s.core p).pending with | some l => l.buffers | none => [])
  let s := (coresOf c).foldl (fun s p => if (s.core p).pending.isSome then s.modCore p (fun k => { k with pending := none }) else s) s
  s.releaseBuffers c bs

/-- Whether two clusters run the same command. -/
def State.sameCmd (s : State) (c d : Nat) : Bool :=
  (s.cluster c).seq.cmd.isSome && (s.cluster c).seq.cmd == (s.cluster d).seq.cmd

/-- The command ends on cluster c (R157, R159, R164, R165). -/
def State.endOn (s : State) (c : Nat) (st : Status) (cause : Nat) (reported : Bool) (word : W32) : State :=
  let s := ((s.using c).modPwr (fun p => { p with idleFrom := s.aoNs })).dropSeqWaits c
  let s := s.modSeq c (fun q =>
    { q with st := .idle, waitOn := .none, haltCause := cause, active := false, ended := some st, reported := reported,
             result := word, waitingStart := none, finish := none, timerOn := none, stop := false })
  (s.dropPending c).cancelFills c

/-- A cluster that is told to stop stops at its next layer boundary: at once when none of its layers runs (R165). -/
def State.stopAt (s : State) (c : Nat) : State :=
  if (s.cluster c).seq.active ∧ (s.cluster c).seq.stop ∧ ¬ s.layersRun c then s.endOn c .ok 0 false 0 else s

/-- The sequencer of cluster c halts and its command ends there with a status other than OK, which stops the command on
its other clusters at their next layer boundary (R165). -/
def State.haltSeq (s : State) (c : Nat) (st : Status) (cause : Nat) : State :=
  if (s.cluster c).seq.active then
    let others := (List.range 8).filter (fun d => d != c && (s.cluster d).seq.active && s.sameCmd c d)
    let s := s.endOn c st cause true 0
    others.foldl (fun s d =>
      (((s.dropSeqWaits d).modSeq d (fun q =>
        { q with stop := true, waitingStart := none, timerOn := none,
                 st := if q.st = .waiting then .running else q.st, waitOn := .none })).dropPending d).stopAt d) s
  else s

/-! ### Hazards (R181, R182) -/

/-- The 128 bits of SEQ_HAZ_REPORT (R182). -/
def HazReport.bytes (r : HazReport) : List Byte :=
  leBytes 8 (fld r.pc 0 18 + r.core * 2 ^ 18 + r.kind * 2 ^ 22 + r.reg * 2 ^ 24 + (min r.dist 255) * 2 ^ 32 + r.retire * 2 ^ 40 +
    r.context * 2 ^ 48 + bnum r.valid 63) ++ leBytes 8 r.cycle

/-- One more hazard of a kind: 1 STALE, 2 COLLIDE, 3 CROSS. -/
def Hazards.count (h : Hazards) (kind : Nat) : Hazards :=
  match kind with
  | 1 => { h with stale := satAdd 0xFFFFFFFF h.stale 1 }
  | 2 => { h with collide := satAdd 0xFFFFFFFF h.collide 1 }
  | _ => { h with cross := satAdd 0xFFFFFFFF h.cross 1 }

/-- The cores of cluster c issue nothing further: layers, their landing buffers and queues are discarded, and writes in flight retire
(R182, R217). -/
def State.stopCores (s : State) (c : Nat) : State :=
  let bs := (coresOf c).flatMap (fun p => (s.core p).buffers)
  let s := (coresOf c).foldl (fun s p => s.modCore p (fun k =>
    let k := k.landWrites (k.writes.foldl (fun a w => max a w.land) 0)
    { k.clearWork with running := none, pending := none })) s
  s.releaseBuffers c bs

/-- The hazard monitor of cluster c sees a hazard of a stream that the sequencer instruction at `pc` issued (R181, R182). -/
def State.hazardAt (s : State) (c pc kind p reg dist retire ctx : Nat) : State :=
  let k := s.cluster c
  if k.haz.modeInForce = 0 then s
  else
    let r : HazReport :=
      { pc := pc, core := p % 12, kind := kind, reg := reg, dist := min dist 255, retire := retire, context := ctx,
        valid := true, cycle := k.seq.cycles }
    let h := k.haz.count kind
    let cur := k.haz.report
    -- of two hazards in one CCLK the report keeps the lower core position, then the lower register
    let better := cur.valid && cur.cycle == r.cycle && (decide (r.core < cur.core) || (r.core == cur.core && decide (r.reg < cur.reg)))
    let keep := if cur.valid && !better then cur else r
    let s := (s.modCluster c (fun k => { k with haz := { h with report := keep } })).span (ctClu c 8) 1
    if k.haz.modeInForce = 2 ∧ k.seq.active then
      ((s.logAs .hazard (srcCluster c) keep.bytes .info false false).stopCores c).haltSeq c .hazard 2
    else s

/-- A hazard of the sequencer's own accesses (R181, R182). -/
def State.hazard (s : State) (c kind p reg dist retire ctx : Nat) : State := s.hazardAt c (s.cluster c).seq.pc kind p reg dist retire ctx

/-! ### Starts (R108 to R112, R163, R170) -/

/-- Whether a target is a broadcast window. -/
def Target.isBroadcast : Target → Bool | .core _ | .logical _ => false | _ => true

/-- The cores that a target addresses, in physical order; a logical number names a core with a working array, of this cluster
(R107 to R109). DESIGN CHOICE, log entry 58. -/
def State.addressed (s : State) (c : Nat) : Target → List Nat
  | .core pos => if pos < 12 then [c * 12 + pos] else []
  | .logical n => match s.physOf n with | some p => if p / 12 = c then [p] else [] | none => []
  | .matrix => (coresOf c).filter s.arrayPresent
  | .vector => (coresOf c).filter (fun p => !s.arrayPresent p)
  | .all => coresOf c

/-- The LCB that a GO on core p latches (R21, R178). DESIGN CHOICE, log entry 58. -/
def State.latched (s : State) (p : Nat) : List Byte := (s.core p).lcb

/-- The cores whose words let a start reach them: for a core window the core itself, for a broadcast the present cores that
accept work, and of these only matrix cores for a layer of the matrix engine (R109, R163 step 1). DESIGN CHOICE, log entry 58. -/
def State.reached (s : State) (c : Nat) (t : Target) : List Nat :=
  if t.isBroadcast then
    (s.addressed c t).filter (fun p => (s.refuses (coreName p)).isNone && (!mxEn (s.latched p) || s.arrayPresent p))
  else s.addressed c t

/-- Whether a broadcast goes to a cluster that has no matrix core to take it (R109). DESIGN CHOICE, log entry 58. -/
def State.noMatrix (s : State) (c : Nat) (t : Target) : Bool :=
  t == .matrix && s.clusterArrays c == 0 ||
  t == .all && s.clusterArrays c == 0 && (coresOf c).all (fun p => mxEn (s.latched p))

/-- Of the cores reached by a broadcast, those whose array accepts the layer; a bound layer runs on the core it names
(R99, R111). DESIGN CHOICE, log entry 58. -/
def State.admits (s : State) (p : Nat) : Bool :=
  let l := s.latched p
  !mxEn l || ((s.refuses (arrayName p)).isNone && (!mxCoreBind l || mxPhysCore l == p))

/-- The refusal event of R110: cluster, requested number, and whether it is a physical one. -/
def State.absentEvent (s : State) (c number : Nat) (physical : Bool) : State :=
  s.log .unitAbsent (srcCluster c) [(1, c), (2, number), (1, bnum physical)]
/-- The physical number that a start on core p requests: the bound one, or the core it is addressed to (R99, R110). -/
def State.requested (s : State) (p : Nat) : Nat :=
  let l := s.latched p
  if mxEn l && mxCoreBind l then mxPhysCore l else p

/-- The permission and agreement checks of a single core (R110, R111, R163 step 3). -/
def State.permitCore (s : State) (p : Nat) (l : List Byte) : Option Status :=
  if mxEn l ∧ ¬ s.arrayPresent p then some .unitAbsent
  else if mxEn l ∧ (s.permWord (arrayName p) = .fenced ∨ s.permWord (arrayName p) = .powerOff) then some .denied
  else if s.permWord (coreName p) ≠ .enabled then some .denied
  else if (s.unit (coreName p).code).mismatch ∨ (mxEn l ∧ (s.unit (arrayName p).code).mismatch) then some .stateMismatch
  else if mxEn l ∧ mxCoreBind l ∧ mxPhysCore l ≠ p then some .denied
  else none

/-- A start refused under R163: the cores' last status, and the end of the command (R165). -/
def State.refuseStart (s : State) (c : Nat) (ps : List Nat) (st : Status) (absent : Option Nat) : State :=
  let s := ps.foldl (fun s p => s.modCore p (fun k => { k with lastStatus := st })) s
  let s := match st, absent with
    | .unitAbsent, some p => s.absentEvent c (s.requested p) true
    | .denied, some p => s.log .denied (srcCore p) [(2, (arrayName p).code)]
    | _, _ => s
  s.haltSeq c st 6

/-- The purse of cluster c admits a layer of cost E, or makes it wait (R468, R469). DEDUCED, log entry 53. -/
def Purse.admits (p : Purse) (policy e : Nat) : Option (Purse × Bool) :=
  let cap := min e (1000 * p.depth)
  if p.due = 0 ∧ cap ≤ p.balance then
    some ({ p with balance := p.balance - cap, due := p.due + (e - cap), reduced := false }, false)
  else if policy = 2 ∧ p.due + e - min p.balance e ≤ 1000 * p.depth then
    let b := min p.balance e
    some ({ p with balance := p.balance - b, due := p.due + (e - b), reduced := true, rowThree := (p.rowThree + 1) % 65536 }, true)
  else none

/-- The cost and policy of a start on n cores (R468). DEDUCED, log entry 53. -/
def Purse.cost (p : Purse) (l : List Byte) (n : Nat) : Nat × Nat :=
  (if admitPolicy l = 0 then p.policy else admitPolicy l, 1000 * n * lcbPrice l)

/-- Whether cluster c stands at its last layer boundary: its command is told to stop, or a device-wide pre-emption is pending, so that no
further layer begins (R24, R165, R456). -/
def State.holdsStarts (s : State) (c : Nat) : Bool := s.stopsDevice || ((s.cluster c).seq.active && (s.cluster c).seq.stop)

/-- A pending start begins when its core runs nothing and its cluster is not to stop: the sequence-table commit and the hazard mode take
effect, the divider of its admission is selected and a brake that has ended is released, and the layer starts empty (R21, R24, R65, R89,
R145, R165, R182, R469, R479). DEDUCED, log entry 74. DESIGN CHOICE, log entry 83. -/
def State.beginLayer (s : State) (p : Nat) : State :=
  let c := p / 12
  match (s.core p).running, (s.core p).pending with
  | none, some ly =>
    if s.holdsStarts c then s else
    let s := s.modCluster c (fun k =>
      let slots := if k.commitPending then k.pendingBank else k.slots
      { k with slots := slots, commitPending := false, pendingBank := [], haz := { k.haz with modeInForce := k.haz.mode },
               clock := { k.clock with div := ly.div, braked := s.pwr.brake && k.clock.braked } })
    s.modCore p (fun k =>
      { k with pending := none, running := some { ly with bank := (s.cluster c).slots, started := (s.cluster c).seq.cycles },
               ctxs := [], nowFlags := {}, owners := [], accs := [], draining := [], blocks := [], shadow := [], held := none, dealt := 0,
               issueQ := [], chain := [], fwd := [], busy := 0 })
  | _, _ => s

/-- The thermal offset of a broadcast start within a set of n cores (R183). DEDUCED, log entry 73. -/
def State.placement (s : State) (c : Nat) (l : List Byte) (n : Nat) : Nat :=
  let inv := tget (s.cluster c).tags 0 (layerTag l)
  if n = 0 then 0 else (mix64 (BitVec.ofNat 64 (s.job.seed.toNat ^^^ (layerTag l * 2 ^ 32) ^^^ inv))).toNat % n

/-- Whether a start is never rotated: it is not a broadcast, or it is bound, or it is fixed (R183). -/
def neverRotated (w : WaitingStart) : Bool :=
  let l := w.lcbs.headD []
  !w.broadcast || placeFixed l || (mxEn l && mxCoreBind l)

/-- The index whose tiles the core with set index j takes: matrix cores rotate among matrix cores, and vector cores among vector
cores (R112, R183). -/
def State.shareOf (s : State) (c : Nat) (w : WaitingStart) (j : Nat) : Nat :=
  if neverRotated w then j
  else
    let kind (i : Nat) : Bool := s.arrayPresent ((w.cores[i]?).getD 0)
    let set := (List.range w.cores.length).filter (fun i => kind i == kind j)
    (set[((set.idxOf j) + s.placement c (w.lcbs.headD []) set.length) % set.length]?).getD j

/-- The landing buffers that a layer consumes are committed (R216, R388): a buffer that is still FILLING becomes COMMITTED with its
last unit. -/
def LandingBuf.committed (x : LandingBuf) : LandingBuf :=
  { x with commit := x.st != .empty, st := if x.st = .valid then .committed else x.st }

/-- Step 6 of R163: the start is placed on every reached core, with its set index, and the layer commits (R388). -/
def State.place (s : State) (c : Nat) (w : WaitingStart) (div : Nat) : State :=
  let n := w.cores.length
  let step := (s.cluster c).seq.step
  let fault := (w.buffers.filterMap (fun b => (tget (s.cluster c).lbs {} b).fault)).head?
  let l0 := w.lcbs.headD []
  let s := (w.cores.zip (w.lcbs.zip (List.range n))).foldl (fun (t : State) x =>
    let ly : Layer :=
      { lcb := x.2.1, j := x.2.2, n := n, share := s.shareOf c w x.2.2, pc := w.pc, step := step, status := fault.getD .ok,
        buffers := w.buffers, div := div }
    (t.modCore x.1 (fun k => { k with pending := some ly })).beginLayer x.1) s
  let s := s.modCluster c (fun k => { k with tags := tmod k.tags 0 (layerTag l0) (· + 1) })
  let s := w.buffers.foldl (fun s b => s.modLb c b (·.committed)) s
  s.runAhead w.ahead

/-- What a start adds to its cluster's admission demand when it waits for the purse (R473). -/
def WaitingStart.demand (w : WaitingStart) : Nat :=
  let l := w.lcbs.headD []
  if lcbDuration l = 0 then 0 else 1000000 * w.cores.length * lcbPrice l / lcbDuration l

/-- Steps 4 to 6 of R163: the start waits for pending slots, then for the purse, adding once to the admission demand (R473), and is
placed. -/
def State.tryStart (s : State) (c : Nat) (w : WaitingStart) : Bool × State :=
  if w.cores.any (fun p => (s.core p).pending.isSome) then
    (false, s.modSeq c (fun q => { q with st := .waiting, waitOn := .startSlot, waitingStart := some w }))
  else
    let u := (s.cluster c).purse
    let l := w.lcbs.headD []
    let pc := u.cost l w.cores.length
    match u.admits pc.1 pc.2 with
    | none =>
      let s := s.modPurse c (fun u =>
        { u with waitFrom := some (u.waitFrom.getD s.aoNs), demand := if u.waitFrom.isNone then u.demand + w.demand else u.demand })
      (false, s.modSeq c (fun q => { q with st := .waiting, waitOn := .purse, waitingStart := some w }))
    | some (u, red) =>
      let waited := match u.waitFrom with | some t => s.aoNs - t | none => 0
      let s := s.modPurse c (fun _ => { u with waitFrom := none, waitNs := u.waitNs + waited })
      let s := (s.span (ctClu c 1) (match u.waitFrom with | some t => s.aoNs - max t s.mgmt.takenAo | none => 0)).span (ctClu c 9) (if red then 1 else 0)
      let s := s.modSeq c (fun q => { q with st := .running, waitOn := .none, waitingStart := none })
      (true, s.place c w (if red then u.div else 3))

/-- A start that waits is tried again, unless its cluster is to stop; a halted sequencer waits for its debug resume (R24, R157,
R163). -/
def State.retryStart (s : State) (c : Nat) : State :=
  match (s.cluster c).seq.waitingStart with
  | some w => if (s.cluster c).seq.st = .waiting ∧ ¬ s.holdsStarts c then (s.tryStart c w).2 else s
  | none => s

/-! ### Layers that complete (R21, R122, R164, R165) -/

/-- Whether every present core of a position mask is idle with an empty pending slot (R164). -/
def State.idleMask (s : State) (c mask : Nat) : Bool :=
  (maskList 12 mask).all (fun i => (s.core (c * 12 + i)).running.isNone && (s.core (c * 12 + i)).pending.isNone)

/-- LAYER_WAIT and the completion service go on when the layers they wait for have completed (R164). -/
def State.serviceLayers (s : State) (c : Nat) : State :=
  let q := (s.cluster c).seq
  match q.finish with
  | some (st, w) => if s.layersLeft c then s else s.endOn c st 0 false w
  | none =>
    if q.waitOn = .layers ∧ s.idleMask c q.layerMask then
      s.modSeq c (fun q => if q.st = .waiting then { q with st := .running, waitOn := .none }
        else { q with resume := .running, waitOn := .none })
    else s

/-- Whether the layer on core p can complete: it has been ended by a status, or its contexts are FREE and its tile queue
is empty (R122, R177). -/
def Core.canComplete (k : Core) : Bool :=
  match k.running with
  | none => false
  | some ly => ly.status != .ok ||
      (k.ctxs.all (fun x => x.2.st == .free) && k.ftq.isEmpty && k.issueQ.isEmpty && k.accs.isEmpty && k.draining.isEmpty && k.held.isNone)

/-- The layer of core p ends with a status: flags, status and buffers (R130, R161, R177, R217). -/
def State.retireLayer (s : State) (p : Nat) (st : Status) : State :=
  let c := p / 12
  match (s.core p).running with
  | none => s
  | some ly =>
    let s := s.modCore p (fun k =>
      let k := k.landWrites (k.writes.foldl (fun a w => max a w.land) 0)
      { k.clearWork with
          running := none, lastStatus := st, layers := (k.layers + 1) % 65536, layerFlags := k.nowFlags, nowFlags := {},
          landed := [], owners := [] })
    -- waits of the core's contexts end with the layer
    let s := s.modCluster c (fun k => { k with
      queues := tmods k.queues {} (k.queues.map (·.1)) (fun _ q =>
        { q with waiters := q.waiters.filter (fun w => match w.who with | .context pos _ => c * 12 + pos != p | _ => true) }) })
    let s := s.modRtr (fun r => { r with
      reads := r.reads.filter (fun w => !(w.dest == 1 && w.unit / 48 == p)),
      coinWaits := r.coinWaits.filter (fun w => !(w.cluster == c && (match w.who with | .context pos _ => c * 12 + pos == p | _ => false))) })
    s.releaseBuffers c ly.buffers

/-- What follows a layer's end on core p: a refusal of the sequencer, the end of a command that is to stop at this boundary, or the next
pending start (R21, R164, R165). -/
def State.afterLayer (s : State) (p : Nat) (st : Status) : State :=
  let c := p / 12
  let s := if st = .ok then s else s.haltSeq c st 6
  let s := (s.stopAt c).beginLayer p
  let s := if (s.cluster c).seq.waitOn = .startSlot then s.retryStart c else s
  (s.serviceLayers c).fencesDone

/-! ### Containment and resets of cores and clusters (R422, R492, R576) -/

/-- An access to a stopped domain has ended: counted, and logged at most once per domain per second (R482, R489). -/
def State.cdcTimeout (s : State) (domain addr : Nat) : State :=
  let s : State := { s with rails := { s.rails with cdcTimeouts := satAdd 0xFFFF s.rails.cdcTimeouts 1 } }
  (s.span (ctDev 7) 1).detectLimited .cdcTimeout domain (srcBlock 7) [(1, domain), (8, addr)]

/-- An access of the host enters the crossing to a stopped domain, where it waits 4 µs (R432, R482). DESIGN CHOICE, log entry 78. -/
def State.crosses (s : State) (domain addr bytes : Nat) : State :=
  { s with rails := { s.rails with crossing := s.rails.crossing ++ [{ domain := domain, addr := addr, bytes := bytes, deadline := s.aoNs + 4000 }] } }

/-- A waiting access completes: a read with all ones, a write dropped (R432, R482). -/
def State.crossed (s : State) (x : Crossing) : State :=
  let s := s.cdcTimeout x.domain x.addr
  if x.bytes = 0 then s else s.emit (.readData (2 ^ (8 * x.bytes) - 1) false)

/-- A reset of some clusters is signalled across their crossings: what is in flight there is discarded and counted, and each waiting
access completes at once. Answers the number discarded (R481, R489). DESIGN CHOICE, log entry 78. -/
def State.flushCrossings (s : State) (hit : Nat → Bool) : Nat × State :=
  let xs := s.rails.crossing.filter (fun x => hit x.domain)
  let s : State := { s with rails := { s.rails with crossing := s.rails.crossing.filter (fun x => !hit x.domain),
                                                    flushed := satAdd 0xFFFF s.rails.flushed xs.length } }
  (xs.length, xs.foldl State.crossed s)

/-- The RESET entry (R505, R572), with LAST_RESET (R579): kind, PASS_INTERRUPTED, tile-queue entries, coins and crossing entries. -/
def State.resetEvent (s : State) (kind source : Nat) (interrupted : Bool) (entries coins flushed : Nat) : State :=
  let s := if kind ≤ 4 then s.modDev (fun d => { d with lastReset := kind }) else s
  s.logAs .reset source
    (leBytes 1 kind ++ leBytes 1 (bnum interrupted) ++ leBytes 2 entries ++ leBytes 4 coins ++ leBytes 4 flushed ++ List.replicate 4 0)
    .info false false

/-- A core as its reset leaves it: no work, no write in flight, and configuration registers of 0 (R122, R167, R576). -/
def Core.wiped (k : Core) : Core := { k.clearWork with writes := [], landed := [], lcb := List.replicate 512 0 }

/-- Core p is reset: tile queue and contexts are discarded, its layer completes POISONED, and its configuration registers are 0
(R122, R167, R576). Answers the
queue entries discarded. -/
def State.resetCore (s : State) (p : Nat) : Nat × State :=
  let n := (s.core p).ftq.length
  let ran := (s.core p).running.isSome
  let bs := (s.core p).buffers
  let s := s.modCore p (fun k => { k with pending := none })
  let s := (s.retireLayer p .poisoned).releaseBuffers (p / 12) bs
  let s := (s.modCore p (·.wiped)).modUnit (coreName p).code (fun w => { w with faulted := false })
  let s := s.modUnit (arrayName p).code (fun w => { w with faulted := false })
  (n, if ran then s.afterLayer p .poisoned else s)

/-- Cluster c is reset (R576): its command ends POISONED, its queues are owner-reset, its cores' queues and contexts are
discarded. Answers tile-queue entries and coins discarded. -/
def State.resetCluster (s : State) (c : Nat) (wake : Bool) : Nat × Nat × State :=
  let entries := (coresOf c).foldl (fun a p => a + (s.core p).ftq.length) 0
  let bs := (coresOf c).flatMap (fun p => (s.core p).buffers)
  let s := s.haltSeq c .poisoned 0
  let s := (coresOf c).foldl (fun s p =>
    let s := s.modCore p (fun k => { k with pending := none })
    let s := (s.retireLayer p .poisoned).modCore p (·.wiped)
    (s.modUnit (coreName p).code (fun w => { w with faulted := false })).modUnit (arrayName p).code (fun w => { w with faulted := false })) s
  let s := s.releaseBuffers c bs
  let (coins, s) := s.ownerReset c wake
  let s := s.modUnit (clusterName c).code (fun w => { w with faulted := false })
  let s := s.modSeq c (fun q => { q with st := .idle, waitOn := .none, cfg := [], stop := false, waitingStart := none, finish := none })
  (entries, coins, (s.endWindow c).fencesDone)

end Sys2Proof.Machine
end

