-- ==== Sys2Proof/Machine/SettleOps.lean ====
section
/-!
DEFINITION. Settlement (07_settlement_engine.md) and the run-health guards (08_run_health.md): coefficient rows, landings,
the device's contribution, the decision, the recurrence, the pass and the working copy.
-/
set_option autoImplicit false
namespace Sys2Proof.Machine

/-! ### Coefficient rows (R228) -/

/-- A 32-bit coefficient of a row. -/
def rw32 (r : Row) (off : Nat) : W32 := BitVec.ofNat 32 (leAt r off 4)
/-- A coefficient as an F32 operand. -/
def rf (r : Row) (off : Nat) : FV := FV.of (rw32 r off)
def rowCtrl (r : Row) : Nat := leAt r 0x60 8
def rowValid (r : Row) : Bool := bit (rowCtrl r) 0
def rowFrozen (r : Row) : Bool := bit (rowCtrl r) 1
def rowNorm (r : Row) : Bool := bit (rowCtrl r) 2
def rowBlk (r : Row) : Nat := fld (rowCtrl r) 3 3
def rowSlot (r : Row) (k : Nat) : Nat := fld (rowCtrl r) (6 + 2 * k) 2
def rowWcFmt (r : Row) : Nat := fld (rowCtrl r) 12 4
def rowWcRound (r : Row) : Bool := bit (rowCtrl r) 16
def rowStateRound (r : Row) : Bool := bit (rowCtrl r) 17
def rowHwmEn (r : Row) : Bool := bit (rowCtrl r) 18
def rowHwm (r : Row) : Nat := fld (rowCtrl r) 19 10
def rowRec (r : Row) : Nat := leAt r 0x68 8
def rowCount (r : Row) : Nat := fld (leAt r 0x70 8) 0 40
def rowG (r : Row) : Nat := leAt r 0x78 8
def rowGs (r : Row) : Nat := leAt r 0x80 8
def rowPres (r : Row) : Nat := leAt r 0x88 8
def rowWc (r : Row) : Nat := leAt r 0x90 8
def rowWcs (r : Row) : Nat := leAt r 0x98 8
def rowTensor (r : Row) : Nat := fld (leAt r 0xA0 4) 0 24
def rowStep (r : Row) : Nat := leAt r 0x50 8
/-- Elements of a block (R224). -/
def rowN (r : Row) : Nat := blkSize (rowBlk r)
/-- Bytes per element of a slot format (R224). -/
def slotBytes (f : Nat) : Nat := match f with | 1 => 4 | 2 => 2 | _ => 0
/-- U, the used size of a record (R224). -/
def rowUsed (r : Row) : Nat :=
  16 + rowN r * (6 + slotBytes (rowSlot r 0) + slotBytes (rowSlot r 1) + slotBytes (rowSlot r 2))
/-- The least power of two that is at least x, doubling from p. -/
def pow2From (p x : Nat) : Nat → Nat
  | 0 => p
  | k + 1 => if x ≤ p then p else pow2From (2 * p) x k
/-- Rs, the record size (R224). -/
def rowSize (r : Row) : Nat := pow2From 64 (rowUsed r) 16
/-- Offset of slot k (0 M, 1 V, 2 E) in a record (R224). -/
def slotOff (r : Row) (k : Nat) : Nat :=
  16 + rowN r * (6 + ((List.range k).foldl (fun a i => a + slotBytes (rowSlot r i)) 0))
/-- Whether the working copy has scales (R247). -/
def rowWcScaled (r : Row) : Bool := rowWcFmt r != 1
/-- Bytes of a working-copy element. -/
def rowWcBytes (r : Row) : Nat := if rowWcFmt r = 1 then 2 else 1
/-- Row of group g. -/
def State.row (s : State) (g : Nat) : Row := tget s.settle.rows [] g
/-- Groups whose row is valid, rising. -/
def State.validGroups (s : State) : List Nat := (s.settle.rows.filter (fun x => rowValid x.2)).map (·.1)
/-- Regions of a group: start and size (R231 rows 5 and 6). -/
def rowRegions (r : Row) : List (Nat × Nat) :=
  let c := rowCount r
  [(rowRec r, c * rowSize r), (rowG r, c * 2 * rowN r), (rowGs r, c), (rowPres r, (c + 7) / 8),
   (rowWc r, c * rowN r * rowWcBytes r)] ++ (if rowWcScaled r then [(rowWcs r, c)] else [])
/-- The engine that owns block i (R222). -/
def State.engineOf (s : State) (r : Row) (i : Nat) : Nat := (s.dram.locate (rowRec r + i * rowSize r)).1
/-- Whether engine n is FAULTED. -/
def State.engineFaulted (s : State) (n : Nat) : Bool := s.execWord ⟨.engine, n⟩ == .faulted
/-- Whether a group counts in SUMSQ and NONFIN (R235). -/
def rowCounted (r : Row) : Bool := !rowFrozen r || rowNorm r
/-- MODE 1 (R229). -/
def Settle.compat (s : Settle) : Bool := s.mode == 1

/-- A group's counter record changed by f. -/
def State.modCounts (s : State) (g : Nat) (f : GroupCounts → GroupCounts) : State :=
  s.modSet (fun t => { t with counts := tmod t.counts {} g f })
/-- A group's guard record changed by f. -/
def State.modGuard (s : State) (g : Nat) (f : GroupGuard → GroupGuard) : State :=
  s.modSet (fun t => { t with guards := tmod t.guards {} g f })
/-- 32-bit counters (R256, R258). -/
def sat32 (a b : Nat) : Nat := satAdd 0xFFFFFFFF a b

/-! ### Gradient slots (R226, R234, R235) -/

/-- The exact value of an H16s element (R46, R48). DEDUCED, log entry 64. -/
def h16sVal (scale : Nat) (code : Nat) : Val := (scaledVal .h16 (some scale) code).1

/-- Whether presence bit i is set. -/
def State.presentBit (s : State) (r : Row) (i : Nat) : Bool := bit (s.byteAt (rowPres r + i / 8)).toNat (i % 8)
/-- Presence bit i written (R227). -/
def State.setPresent (s : State) (r : Row) (i : Nat) (b : Bool) : State :=
  let a := rowPres r + i / 8
  s.writeMem a [BitVec.ofNat 8 (putf (s.byteAt a).toNat (i % 8) 1 (bnum b))]
/-- Blocks of a group whose presence bit is 1, rising. -/
def State.presentBlocks (s : State) (r : Row) : List Nat :=
  (s.mem.cells.filter (fun c => decide (rowPres r ≤ c.1) && decide (c.1 < rowPres r + (rowCount r + 7) / 8) && !s.lostAt c.1)).flatMap
    (fun c => (List.range 8).filterMap (fun k =>
      let i := 8 * (c.1 - rowPres r) + k
      if bit c.2.toNat k && decide (i < rowCount r) then some i else none))
/-- Element codes and scale of gradient slot i, and its poison: that of its element units or of the unit of its scale (R226, R234, R245). -/
def State.gradSlot (s : State) (r : Row) (i : Nat) : List Nat × Nat × Bool :=
  let a := rowG r + i * 2 * rowN r
  ((List.range (rowN r)).map (fun j => leNat (s.readMem (a + 2 * j) 2)), (s.byteAt (rowGs r + i)).toNat, 
   s.poisonIn a (2 * rowN r) || s.poisonAt (rowGs r + i))

/-- What a stored block contributes (R235, R257). -/
def blockShare (codes : List Nat) (scale flushed : Nat) : BlockShare :=
  let vs := codes.map (h16sVal scale)
  { sumsq := vs.foldl (fun (a : Int) v => match v with
      | .fin _ m e => if m = 0 then a else a + Int.ofNat (truncTo (m * m) (2 * e) (-302))
      | _ => a) 0
    nonfin := (vs.filter (fun v => !v.isFinite)).length, nonzero := vs.any (fun v => !v.isZero), flushed := flushed }

/-- The key of block i of group g in the tables of the engines. -/
def slotKey (g i : Nat) : Nat := g * 2 ^ 40 + i

/-- What block i of group g adds to the totals becomes n: its former contribution is taken away (R235, R257). -/
def State.setShare (s : State) (g i : Nat) (n : BlockShare) : State :=
  let o := tget s.settle.shares {} (slotKey g i)
  let s := s.modGuard g (fun x =>
    { x with nfNow := x.nfNow - o.nonfin + n.nonfin, landNow := x.landNow - o.flushed + n.flushed
             nonzero := if s.settle.compat then x.nonzero else x.nonzero - bnum o.nonzero + bnum n.nonzero })
  let counted := rowCounted (s.row g)
  s.modSet (fun t =>
    { t with shares := tset t.shares {} (slotKey g i) n
             nonfin := if counted then t.nonfin - o.nonfin + n.nonfin else t.nonfin
             sumsq := if counted && !t.compat then t.sumsq - o.sumsq + n.sumsq else t.sumsq })

/-- A block that is poisoned now adds nothing to any total (R234, R235, R257). -/
def State.dropShare (s : State) (g i : Nat) : State := if (s.gradSlot (s.row g) i).2.2 then s.setShare g i {} else s

/-- The block whose slot lies in the same 64-byte unit as that of block i (R234). -/
def unitMate (r : Row) (i : Nat) : Option Nat := if rowN r = 16 then some (if i % 2 = 0 then i + 1 else i - 1) else none

/-- Why a landing is dropped, with a number per cause (R236). -/
def State.landDrop (s : State) (l : Land) : Option Nat :=
  let r := s.row l.group
  if ¬ rowValid r then some 0
  else if rowCount r ≤ l.block then some 1
  else if s.settle.accum ≤ l.micro then some 2
  else if bit (tget s.settle.landed 0 (slotKey l.group l.block)) l.micro then some 3
  else if s.engineFaulted (s.engineOf r l.block) then some 4
  else none

/-- A dropped landing: counted, and logged once per group, step and cause (R236). -/
def State.dropLanding (s : State) (l : Land) (cause : Nat) : State :=
  let s := if l.group < 4096 then s.modCounts l.group (fun c => { c with dropped := sat32 c.dropped 1 }) else s
  let k := l.group * 8 + cause
  if s.settle.dropLogged.contains k then s
  else (s.modSet (fun t => { t with dropLogged := t.dropLogged ++ [k] })).log .settleLandingDropped (srcBlock 4) [(2, l.group), (4, l.block)]

/-- A landing stored or accumulated (R234, R235, R257). -/
def State.applyLanding (s : State) (l : Land) : State :=
  let r := s.row l.group
  let i := l.block
  let s := s.modSet (fun t =>
    { t with landed := tmod t.landed 0 (slotKey l.group i) (fun m => putf m l.micro 1 1), phase := if t.phase = .idle then .landing else t.phase })
  let had := s.presentBit r i
  let (old, oldScale, oldPois) := s.gradSlot r i
  let codes := l.elems.map BitVec.toNat
  let sums := (old.zip codes).map (fun x => FV.add (expand .h16 (some oldScale) fone x.1) (expand .h16 (some l.scale.toNat) fone x.2))
  let out := convertBlock .h16 true fone (fun _ => none) (sums.map (·.bits))
  let conv := sums.map (fun v => roundElem .h16 ((FV.val v).scale (127 - Int.ofNat out.scale)) none false)
  let flushed := ((sums.zip conv).filter (fun x => x.1.fl.unf || x.2.2.unf)).length
  let new := if had then out.codes else codes
  let scale := if had then out.scale else l.scale.toNat
  let pois := l.poison || (had && oldPois)
  let s := s.writeMem (rowG r + i * 2 * rowN r) (new.flatMap (leBytes 2)) (fun _ => pois)
  let s := s.writeMem (rowGs r + i) (leBytes 1 scale)
  let s := s.setPresent r i true
  let before := (tget s.settle.shares {} (slotKey l.group i)).flushed
  let s := s.setShare l.group i (if (s.gradSlot r i).2.2 then {} else blockShare new scale (if had then before + flushed else 0))
  match unitMate r i with
  | some k => s.dropShare l.group k
  | none => s

/-- Whether a landing is held at the collective unit: in DECIDING and PASS, while a SETTLE_CONFIG that waited for the end of the walk
comes first, and before its micro-step (R232, R234, R252, R386). -/
def State.landHeld (s : State) (l : Land) : Bool :=
  s.settle.phase == .deciding || s.settle.phase == .pass || s.settle.cfgDue ||
  (decide (s.settle.microDone < l.micro) && decide (l.micro < s.settle.accum))

/-- A landing reaches its engine (R233, R234, R236, R252). -/
def State.land (s : State) (l : Land) : State :=
  if s.landHeld l then s.modSet (fun t => { t with heldLands := t.heldLands ++ [l] })
  else match s.landDrop l with
    | some c => s.dropLanding l c
    | none => s.applyLanding l

/-- Held landings are offered again, and the buffers that they kept filled are freed (R252, R386). -/
def State.releaseLands (s : State) : State :=
  let l := s.settle.heldLands
  (l.foldl (fun s x => s.land x) (s.modSet (fun t => { t with heldLands := [] }))).freeKept

/-! ### The contribution (R237, R250, R260 to R265, R270) -/

/-- The weights of a record: L48 codes. -/
def State.weights (s : State) (r : Row) (i : Nat) : List Nat :=
  (List.range (rowN r)).map (fun j => leNat (s.readMem (rowRec r + i * rowSize r + 16 + 6 * j) 6))
/-- A slot of a record as F32 operands; an absent slot reads +0 (R241). -/
def State.slotVals (s : State) (r : Row) (i k : Nat) : List FV :=
  let a := rowRec r + i * rowSize r + slotOff r k
  (List.range (rowN r)).map (fun j => match rowSlot r k with
    | 1 => FV.of (BitVec.ofNat 32 (leNat (s.readMem (a + 4 * j) 4)))
    | 2 => expand .b16 none fone (leNat (s.readMem (a + 2 * j) 2))
    | _ => FV.of 0)
/-- Whether the used units of a record are poisoned. -/
def State.recPoisoned (s : State) (r : Row) (i : Nat) : Bool := s.poisonIn (rowRec r + i * rowSize r) (rowUsed r)

/-- An L48 value rounded to F32, nearest-even (R240). -/
def f32OfL48 (x : Nat) : FV := let d := l48Val x; FV.round d.2 d.1

/-- A sequential F32 sum of squares (R250). DEDUCED, log entry 64. -/
def seqSquares (vs : List FV) : FV := vs.foldl (fun a x => FV.add a (FV.mul x x)) (FV.of 0)

/-- The norm pass of a group: sums over W, M, V and G, by interleave unit in address order (R250). Units of FAULTED
engines and poisoned blocks take no part. DEDUCED, log entry 64. -/
def State.normPass (s : State) (r : Row) : FV × FV × FV × FV :=
  let per := max 1 (4096 / rowSize r)
  let first := rowRec r % 4096 / rowSize r
  let units := (rowCount r + first + per - 1) / per
  let quad (u : Nat) : FV × FV × FV × FV :=
    let is := ((List.range per).map (fun k => u * per + k)).filterMap (fun k =>
      if first ≤ k ∧ k - first < rowCount r ∧ ¬ s.engineFaulted (s.engineOf r (k - first)) then some (k - first) else none)
    let ok := is.filter (fun i => !s.recPoisoned r i)
    let gs := is.flatMap (fun i =>
      let (cs, sc, bad) := s.gradSlot r i
      if s.presentBit r i && !bad then cs.map (expand .h16 (some sc) fone) else [])
    (seqSquares (ok.flatMap (fun i => (s.weights r i).map f32OfL48)), seqSquares (ok.flatMap (fun i => s.slotVals r i 0)),
     seqSquares (ok.flatMap (fun i => s.slotVals r i 1)), seqSquares gs)
  ((List.range units).map quad).foldl (fun a x => (FV.add a.1 x.1, FV.add a.2.1 x.2.1, FV.add a.2.2.1 x.2.2.1, FV.add a.2.2.2 x.2.2.2))
    (FV.of 0, FV.of 0, FV.of 0, FV.of 0)

/-- The threshold of the dormant counter (R228, R261). -/
def rowDormant (r : Row) : Nat := if leAt r 0x58 4 = 0 then 1000 else leAt r 0x58 4

/-- A group judged dormant or live (R260, R261); `live` by NONZERO or, in compatible mode, by its G sum (R262). -/
def State.judgeDormant (s : State) (g : Nat) (live : Bool) : State :=
  let r := s.row g
  let x := tget s.settle.guards {} g
  if live then
    s.modGuard g (fun x => { x with dormantRun := 0, dormant := false, lastLive := s.settle.setStep % 2 ^ 32 })
  else
    let n := sat32 x.dormantRun 1
    if n = rowDormant r ∧ x.dormantRun ≠ n then
      let s := s.modGuard g (fun x => { x with dormantRun := n, dormant := true, dormantEvents := sat32 x.dormantEvents 1 })
      (s.modDec (fun d => { d with dormantNew := true })).log .dormant (srcBlock 4) [(2, g), (4, rowDormant r), (4, x.lastLive)]
    else s.modGuard g (fun x => { x with dormantRun := n })

/-- The loss accumulator of a slot in cluster c. -/
def State.lossAcc (s : State) (c i : Nat) : LossAcc := tget (s.cluster c).loss {} i
/-- Every loss accumulator of the device. -/
def State.allLoss (s : State) : List LossAcc := (List.range 8).flatMap (fun c => ((s.cluster c).loss).map (·.2))

/-- One sample processed by the detector (R264): the new detector and whether it spiked. -/
def Spike.sample (d : Spike) (alpha k : W32) (warmup : Nat) (x : FV) : Spike × Bool :=
  let mu := FV.of d.mu
  let var := FV.of d.var
  let al := FV.of alpha
  if x.val.isInf then ({ d with last := x.bits, spiked := true, consec := d.consec + 1 }, true)
  else if d.n = 0 then ({ n := 1, mu := x.bits, var := 0, consec := 0, last := x.bits, spiked := false }, false)
  else
    let dd := FV.sub x mu
    let spike := decide (warmup ≤ d.n) && (FV.fma (FV.of k) (FV.sqrt var) mu).val.lt x.val
    if spike then ({ d with last := x.bits, spiked := true, consec := d.consec + 1 }, true)
    else
      ({ n := min (d.n + 1) 0xFFFF, mu := (FV.fma al dd mu).bits,
         var := (FV.mul (FV.sub (FV.of fone) al) (FV.fma (FV.mul al dd) dd var)).bits,
         consec := 0, last := x.bits, spiked := false }, false)

/-- The detector takes its sample (R263 to R265). DEDUCED, log entry 77. -/
def State.lossSample (s : State) : State :=
  let accs := s.allLoss
  let tokens := accs.foldl (fun a x => a + x.tokens) 0
  if ¬ s.settle.spikeEn ∨ tokens = 0 then s
  else if ¬ accs.any (·.nonfinite) ∧ accs.any (fun a => a.poisoned || a.saturated || a.tokens == 0xFFFFFFFF) then
    s.log .lossSampleInvalid (srcBlock 4) [(4, s.settle.setStep % 2 ^ 32)]
  else
    let sum := accs.foldl (fun (a : Int) x => a + x.sum) 0
    let x : FV := if accs.any (·.nonfinite) then FV.of finf else
      (if sum = 0 then FV.of 0 else
        let (q, e, st) := quotMag sum.natAbs (-64) tokens 0
        FV.round {} (.fin (decide (sum < 0)) q e) st)
    let d0 := s.settle.spike
    let (d, spiked) := d0.sample s.settle.alpha s.settle.bandK s.settle.warmup x
    let reseed := spiked && s.settle.reseed != 0 && decide (s.settle.reseed ≤ d.consec)
    let d' : Spike := if reseed then
        (if x.val.isInf then { d with n := 0, mu := 0, var := 0, consec := 0 } else { d with n := 1, mu := x.bits, var := 0, consec := 0 })
      else { d with consec := min d.consec 255 }
    let s := (s.modSet (fun t => { t with spike := d', spikes := if spiked then sat32 t.spikes 1 else t.spikes })).modDec
      (fun c => { c with spikeLocal := spiked })
    let s := if spiked then
        s.log .lossSpike (srcBlock 4) [(4, x.bits.toNat), (4, d0.mu.toNat), (4, (FV.sqrt (FV.of d0.var)).bits.toNat), (4, s.settle.setStep % 2 ^ 32)]
      else s
    if reseed then s.log .lossSpikeReseed (srcBlock 4) [(4, s.settle.setStep % 2 ^ 32)] else s

/-- The guard records take the landing counts of the step (R257, R258). -/
def State.guardsAtContribution (s : State) : State :=
  s.validGroups.foldl (fun s g => s.modGuard g (fun x =>
    { x with nfElems := sat32 x.nfElems x.nfNow, nfSteps := if x.nfNow = 0 then x.nfSteps else sat32 x.nfSteps 1,
             nfLast := x.nfNow != 0, flushLand := sat32 x.flushLand x.landNow, landNow := 0 })) s

/-- Blocks that became poisoned after they landed add nothing to the totals (R235, R257). -/
def State.dropShares (s : State) : State := s.settle.shares.foldl (fun s x => s.dropShare (x.1 / 2 ^ 40) (x.1 % 2 ^ 40)) s

/-- Groups of valid rows whose guard record has DORMANT set (R270, R274). -/
def State.dormantCount (s : State) : Nat := (s.validGroups.filter (fun g => (tget s.settle.guards {} g).dormant)).length

/-- WARMUP of R276 by the settings and the detector as they stand. -/
def Settle.warming (t : Settle) : Bool := t.spikeEn && decide (0 < t.spike.n) && decide (t.spike.n < t.warmup)

/-- The device's statement is formed, and PHASE becomes DECIDING (R237, R250, R260, R263, R270). -/
def State.contribute (s : State) : State :=
  let s := s.dropShares
  let s := s.modDec (fun d => { d with spikeLocal := false, dormantNew := false })
  let s := s.guardsAtContribution
  let norms := if s.settle.compat then s.validGroups.map (fun g => (g, s.normPass (s.row g))) else []
  let s := norms.foldl (fun s x => s.modCounts x.1 (fun c =>
    { c with normW := x.2.1.bits, normM := x.2.2.1.bits, normV := x.2.2.2.1.bits, normG := x.2.2.2.2.bits })) s
  let s := (s.validGroups.filter (fun g => !rowFrozen (s.row g))).foldl (fun s g =>
    let live := match norms.find? (·.1 == g) with
      | some x => x.2.2.2.2.bits != 0
      | none => (tget s.settle.guards {} g).nonzero != 0
    s.judgeDormant g live) s
  let s := s.lossSample
  let total : FV := if s.settle.compat then
      (norms.filter (fun x => rowCounted (s.row x.1))).foldl (fun a x => FV.add a x.2.2.2.2) (FV.of 0)
    else roundF32 (.fin false s.settle.sumsq.toNat (-302))
  let nf := sat32 s.settle.nonfin (if ¬ s.settle.compat ∧ total.val.isInf then 1 else 0)
  let dorm := s.dormantCount
  let st : Stmt :=
    { sumsq := total.bits, nonfinite := nf, stepMin := s.settle.setStep, stepMax := s.settle.setStep, dormant := dorm,
      spike := s.dec.spikeLocal, pAbort := s.settle.ctrlPolicy == 0, pSkip := s.settle.ctrlPolicy == 1, devices := 1,
      slice := s.rtr.slice.id }
  (s.modSet (fun t => { t with own := some st, final := none, sampled := t.ctrlPolicy, phase := .deciding, dormantGroups := min dorm 0xFFFF })).modDec
    (fun d => { d with formedAt := s.aoNs, stage := 0, sentUp := false, stmtState := 1, spikeSlice := false, dormantAny := false,
                       nfSkipped := false, clipped := false, aborted := false, status := none, decided := false, warm := s.settle.warming })

/-! ### The working copy (R247 to R249) -/

/-- The quotient of an L48 value and the tensor scale, with its sticky part (R247). -/
def wcQuot (t : W32) (w : Nat) : Val × Bool :=
  match (l48Val w).1, (f32Val t).1 with
  | .fin x m e, .fin y n g =>
    if m = 0 ∨ n = 0 then (.fin (x != y) 0 0, false)
    else let (q, qe, st) := quotMag m e n g; (.fin (x != y) q qe, st)
  | v, _ => (v, false)

/-- The working copy of a block: codes, scale, and how many elements raised a flag (R247). -/
def wcConvert (r : Row) (rand : Nat → Option Nat) (ws : List Nat) : List Nat × Nat × Nat :=
  let f := fmtOf (rowWcFmt r)
  let us := ws.map (wcQuot (rw32 r 0x5C))
  let (sh, clamped) := if rowWcScaled r then blockScale f (us.map (·.1)) else (0, false)
  let o := (us.zip (List.range us.length)).map (fun x => roundElem f (x.1.1.scale (-sh)) (rand x.2) clamped x.1.2)
  (o.map (·.1), (sh + 127).toNat, ((o.zip ws).filter (fun x => x.1.2.any || (l48Val x.2).2.unf)).length)

/-- The working copy of block i written (R247, R249). -/
def State.writeWc (s : State) (r : Row) (i : Nat) (c : List Nat × Nat × Nat) (pois : Bool) : State :=
  let n := rowN r * rowWcBytes r
  let s := s.writeMem (rowWc r + i * n) (c.1.flatMap (leBytes (rowWcBytes r))) (fun _ => pois)
  if rowWcScaled r then s.writeMem (rowWcs r + i) (leBytes 1 c.2.1) else s

/-- REFRESH of one block (R249). -/
def State.refreshBlock (s : State) (r : Row) (i : Nat) : State :=
  let a := rowRec r + i * rowSize r + 16
  s.writeWc r i (wcConvert r (fun _ => none) (s.weights r i)) (s.poisonIn a (6 * rowN r))

/-! ### The recurrence (R240 to R242, R251) -/

/-- sign(x) of R241. -/
def fvSign (x : FV) : FV :=
  match x.val with
  | .nan => ⟨qnan, x.flags⟩
  | .inf n => ⟨if n then 0xBF800000#32 else fone, x.flags⟩
  | .fin n m _ => ⟨if m = 0 then 0 else if n then 0xBF800000#32 else fone, x.flags⟩

/-- fma of R240, or the rounded multiply and add of R251. -/
def fmaOf (compat : Bool) (x y z : FV) : FV := if compat then FV.add (FV.mul x y) z else FV.fma x y z

/-- A new element: L48 weight with its flags, and the new m, v, e (R240, R251). -/
structure NewElem where
  w  : Nat
  wf : Flags
  m  : FV
  v  : FV
  e  : FV
  fl : Flags

/-- The group constants of a step: k1, k2, dec (R238). -/
structure StepConst where
  c   : FV
  k1  : FV
  k2  : FV
  dec : FV

/-- One element of the recurrence (R240, R241, R251). -/
def recur (compat : Bool) (r : Row) (k : StepConst) (w : Nat) (m v e g0 : FV) : NewElem :=
  let fm := fmaOf compat
  let g := FV.mul k.c g0
  let sgn := FV.mul (rf r 0x24) (fvSign (fm (rf r 0x28) m (FV.mul (rf r 0x2C) g)))
  let m' := fm (rf r 0x00) m (FV.mul (rf r 0x04) g)
  let v' := fm (rf r 0x08) v (fm (rf r 0x0C) (FV.mul g g) (FV.mul (rf r 0x10) (FV.abs g)))
  let num := fm (FV.mul (rf r 0x14) m') k.k1 (FV.mul (rf r 0x18) g)
  let den := fm (rf r 0x20) (FV.sqrt (FV.mul v' k.k2)) (rf r 0x1C)
  let u := FV.add (FV.div num den) sgn
  let wv := l48Val w
  let lr := rf r 0x34
  let w' := if compat then
      let a := roundElem .l48 (wv.1.mul k.dec.val) none true
      let b := roundElem .l48 ((l48Val a.1).1.add (FV.mul lr u).val.neg) none true
      (b.1, ((wv.2.or a.2).or b.2).or (FV.mul lr u).fl)
    else
      let b := roundElem .l48 ((wv.1.mul k.dec.val).add (lr.val.mul u.val).neg) none true
      (b.1, ((wv.2.or b.2).or lr.flags).or u.fl)
  let e' := fm (rf r 0x38) e (FV.mul (rf r 0x3C) (f32OfL48 w'.1))
  { w := w'.1, wf := w'.2, m := m', v := v', e := e', fl := (((w'.2.or m'.fl).or v'.fl).or u.fl).or (if rowSlot r 2 = 0 then {} else e'.fl) }

/-- A new slot value in the slot's format: its code, and its value as stored (R241, R248). -/
def slotCode (r : Row) (k : Nat) (rand : Nat → Option Nat) (j : Nat) (x : FV) : Nat × Val × Flags :=
  match rowSlot r k with
  | 1 => (x.bits.toNat, x.val, {})
  | 2 =>
    let c := roundElem .b16 x.val (if rowStateRound r then rand (j + 128 * (k + 1)) else none) true
    (c.1, (decodeElem .b16 c.1).1, c.2)
  | _ => (0, .fin false 0 0, {})

/-- Outcome of a visited block, 1 to 6 (R245), and the machine after it. `absent` blocks settle with g = +0 (R250). -/
def State.settleBlock (s : State) (g : Nat) (r : Row) (k : StepConst) (step i : Nat) (absent : Bool) : Nat × State :=
  let compat := s.settle.compat
  let a := rowRec r + i * rowSize r
  let n := rowN r
  let clear (s : State) : State := if absent then s else s.setPresent r i false
  let (cs, sc, gp) := s.gradSlot r i
  let gpois := !absent && gp
  if rowFrozen r then (1, clear s)
  else if s.recPoisoned r i || gpois then (2, clear s)
  else if leNat (s.readMem a 2) ≠ g then (3, clear s)
  else if !absent && cs.any (fun c => !(h16sVal sc c).isFinite) then (4, clear s)
  else
    let rnd (j : Nat) : Option Nat := if compat then none else some (srRandom step (rowTensor r) i j)
    let gs := if absent then List.replicate n (FV.of 0) else cs.map (expand .h16 (some sc) fone)
    let ins := (((s.weights r i).zip (s.slotVals r i 0)).zip ((s.slotVals r i 1).zip (s.slotVals r i 2))).zip gs
    let ns := ins.map (fun x => recur compat r k x.1.1.1 x.1.1.2 x.1.2.1 x.1.2.2 x.2)
    let slot (q : Nat) (f : NewElem → FV) := (ns.zip (List.range n)).map (fun x => slotCode r q rnd x.2 (f x.1))
    let ms := slot 0 (·.m)
    let vs := slot 1 (·.v)
    let es := slot 2 (·.e)
    let flushed := ((ns.zip (ms.zip (vs.zip es))).filter (fun x =>
      x.1.fl.unf || x.2.1.2.2.unf || x.2.2.1.2.2.unf || x.2.2.2.2.2.unf)).length
    let s := s.modGuard g (fun x => { x with settleNow := x.settleNow + flushed })
    if ns.any (fun x => !(l48Val x.w).1.isFinite) || (ms ++ vs ++ es).any (fun x => !x.2.1.isFinite) then (5, clear s)
    else
      let bytes := leBytes 2 g ++ [0, 0] ++ leBytes 4 (rowStep r % 2 ^ 32) ++ List.replicate 8 0 ++ ns.flatMap (fun x => leBytes 6 x.w) ++
        ms.flatMap (fun x => leBytes (slotBytes (rowSlot r 0)) x.1) ++ vs.flatMap (fun x => leBytes (slotBytes (rowSlot r 1)) x.1) ++
        es.flatMap (fun x => leBytes (slotBytes (rowSlot r 2)) x.1)
      let wc := wcConvert r (fun j => if rowWcRound r && !compat then rnd j else none) (ns.map (·.w))
      let s := (s.writeMem a bytes).writeWc r i wc false
      let s := if rowHwmEn r then
          { s with hwm := tmod s.hwm 0 (rowHwm r) (fun h => hwmUpdate h (ns.map (fun x => l48Trunc x.w &&& 0x7FFFFFFF#32))) }
        else s
      (6, clear (s.modGuard g (fun x => { x with wcNow := x.wcNow + wc.2.2 })))

/-- A counter record after an outcome (R245, R256). -/
def GroupCounts.add (c : GroupCounts) : Nat → GroupCounts
  | 1 => { c with frozen := sat32 c.frozen 1 }
  | 2 => { c with poison := sat32 c.poison 1 }
  | 3 => { c with mismatch := sat32 c.mismatch 1 }
  | 4 => { c with gradNf := sat32 c.gradNf 1 }
  | 5 => { c with resultNf := sat32 c.resultNf 1 }
  | _ => { c with settled := sat32 c.settled 1 }

/-- Blocks of a group that the pass visits: the present ones, or all in compatible mode; with whether each is absent
(R243, R250). -/
def State.visited (s : State) (r : Row) : List (Nat × Bool) :=
  if s.settle.compat then (List.range (rowCount r)).map (fun i => (i, !s.presentBit r i))
  else (s.presentBlocks r).map (fun i => (i, false))

/-- The pass over one group (R243 to R245): outcomes, and whether a FAULTED engine left present blocks. -/
def State.passGroup (s : State) (g : Nat) (k : StepConst) (step : Nat) : List Nat × Bool × State :=
  let r := s.row g
  let todo := s.visited r
  let left := todo.any (fun x => !x.2 && s.engineFaulted (s.engineOf r x.1))
  let run := (todo.filter (fun x => !s.engineFaulted (s.engineOf r x.1))).foldl (fun (a : List (Nat × Nat) × State) x =>
    let o := a.2.settleBlock g r k step x.1 x.2
    (a.1 ++ [(o.1, x.1)], o.2.modCounts g (fun c => c.add o.1))) ([], s)
  let s := ([(2, .settlePoisoned), (3, .settleRecordMismatch), (5, .settleResultNonfinite)] : List (Nat × EventClass)).foldl (fun (s : State) q =>
    match run.1.filter (fun x => x.1 == q.1) with
    | [] => s
    | x :: xs => s.log q.2 (srcBlock 4) [(2, g), (4, x.2), (4, xs.length + 1)]) run.2
  (run.1.map (·.1), left, s)

/-- The totals of the step are set to zero (R239). -/
def State.clearTotals (s : State) : State :=
  s.modSet (fun t =>
    { t with sumsq := 0, nonfin := 0, shares := [], landed := [], microDone := 0, dropLogged := [],
             guards := tmods t.guards {} (t.guards.map (·.1)) (fun _ x => { x with nfNow := 0, nonzero := 0, landNow := 0 }) })

/-- Every engine that works clears the presence bits it owns (R239). -/
def State.clearPresence (s : State) : State :=
  s.validGroups.foldl (fun s g =>
    let r := s.row g
    (s.presentBlocks r).foldl (fun s i => if s.engineFaulted (s.engineOf r i) then s else s.setPresent r i false) s) s

/-- The walk of a failed statement (R395): presence bits are cleared, no counter advances, and PHASE reads PASS until
the walk ends. DESIGN CHOICE, log entry 65. -/
def State.failWalk (s : State) : State :=
  ((s.clearPresence.clearTotals).modSet (fun t => { t with phase := .pass, own := none, final := none })).modCol (fun c => { c with lastMarked := [] })

/-! ### The decision (R238, R239, R246, R268, R271) -/

/-- The row of R271 that decides, 1 to 5. -/
def Stmt.row (st : Stmt) : Nat :=
  let v := FV.val (FV.of st.sumsq)
  if st.stepMin ≠ st.stepMax then 1
  else if st.pAbort ∧ st.pSkip then 2
  else if v.isNaN ∨ v.isInf then 3
  else if 0 < st.nonfinite ∧ st.pAbort then 4
  else 5

/-- Constants of a valid group that is not frozen advance (R238). -/
def advanceRow (r : Row) : Row :=
  if rowValid r && !rowFrozen r then
    let p1 := FV.mul (rf r 0x48) (rf r 0x40)
    let p2 := FV.mul (rf r 0x4C) (rf r 0x44)
    storeAt (storeAt (storeAt r 0x48 (leBytes 4 p1.bits.toNat)) 0x4C (leBytes 4 p2.bits.toNat)) 0x50 (leBytes 8 (rowStep r + 1))
  else r

/-- k1 or k2 of R238, from the coefficient and the advanced power. -/
def biasOf (b p : FV) : FV :=
  if b.val.isZero then FV.of fone else FV.div (FV.of fone) (FV.sub (FV.of fone) p)

/-- The group constants after the advance, as F32 bits (R238); `dec` is one fma in either mode (R250). -/
def stepConst (r : Row) (c : W32) : StepConst :=
  { c := FV.of c, k1 := FV.of (biasOf (rf r 0x40) (rf r 0x48)).bits, k2 := FV.of (biasOf (rf r 0x44) (rf r 0x4C)).bits
    dec := FV.of (FV.fma (FV.neg (rf r 0x34)) (rf r 0x30) (FV.of fone)).bits }

/-- The settlement pass (R243 to R246): the machine after it and the status it gives. -/
def State.settlePass (s : State) (c : W32) (step : Nat) : State :=
  let run := s.validGroups.foldl (fun (a : List Nat × Bool × State) g =>
    let x := a.2.2.passGroup g (stepConst (a.2.2.row g) c) step
    (a.1 ++ x.1, a.2.1 || x.2.1, x.2.2)) ([], false, s)
  let st : Status :=
    if run.1.contains 2 || run.2.1 then .poisoned
    else if run.1.contains 3 then .malformed
    else if run.1 ≠ [] && run.1.all (· == 1) then .frozenSkipped
    else .ok
  run.2.2.modDec (fun d => { d with status := some st })

/-- The coordinator decides from the broadcast statement (R238, R239, R268, R271, R276). -/
def State.judgeStmt (s : State) (st : Stmt) : State :=
  let t := s.settle
  let row := st.row
  let step := t.setStep
  let inva := FV.div (FV.of fone) (FV.ofNat t.accum)
  let nrm := FV.mul (FV.sqrt (FV.of st.sumsq)) inva
  let lim := FV.of t.clipNorm
  let clip := if lim.val.isZero || nrm.val.le lim.val then FV.of fone else FV.div lim nrm
  let abort := decide (row ≤ 4)
  let outcome := match row with | 1 => 3 | 2 => 4 | 3 | 4 => 2 | _ => if 0 < st.nonfinite then 1 else 0
  let e : NormEntry :=
    { step := step, sumsq := st.sumsq, nrm := nrm.bits, clip := if abort then 0 else clip.bits, nonfinite := st.nonfinite,
      outcome := outcome, spike := st.spike }
  let s := s.modDec (fun d =>
    { d with hist := tset d.hist {} d.histNext e, histNext := (d.histNext + 1) % 64, histWrapped := d.histWrapped || d.histNext == 63,
             spikeSlice := st.spike, dormantAny := decide (0 < st.dormant), aborted := abort,
             nfSkipped := !abort && decide (0 < st.nonfinite), clipped := !abort && clip.val.lt (FV.of fone).val, stmtState := 0,
             decided := true })
  let s := match row with
    | 1 => s.log .stepSkew (srcBlock 4) [(4, st.stepMin % 2 ^ 32), (4, st.stepMax % 2 ^ 32), (4, step % 2 ^ 32)]
    | 2 => s.log .guardPolicySkew (srcBlock 4) [(4, step % 2 ^ 32)]
    | 3 | 4 => s.log .settleAbortedNonfinite (srcBlock 4) [(4, st.nonfinite), (4, step % 2 ^ 32)]
    | _ => if 0 < st.nonfinite then s.log .gradNonfiniteSkipped (srcBlock 4) [(4, step % 2 ^ 32)] else s
  let s := s.modSet (fun t => { t with final := some st, phase := .pass, lastAborted := abort, setStep := (t.setStep + 1) % 2 ^ 64 })
  let s := if abort then
      let s := s.clearPresence.modDec (fun d => { d with status := some (if row ≤ 2 then .stepSkew else .settleAbortedNonfinite) })
      s.modSet (fun t => if row ≤ 2 then { t with skipSkew := sat32 t.skipSkew 1 } else { t with skipNonfinite := sat32 t.skipNonfinite 1 })
    else
      let s := s.modSet (fun t => { t with rows := t.rows.map (fun x => (x.1, advanceRow x.2)) })
      s.settlePass (FV.mul clip inva).bits step
  (s.clearTotals.modCol (fun c => { c with lastMarked := [] })).total (if abort then 17 else 16) 1

/-- The guard summary word of a step's decision; without a broadcast statement WARMUP and DORMANT_LOCAL are those of the detector
and the guard records as they stand (R276, R278, R611). -/
def State.guardWordOf (s : State) (d : Decision) : Nat :=
  bnum d.spikeLocal 0 + bnum d.spikeSlice 1 + bnum d.dormantNew 2 + bnum d.dormantAny 3 + bnum d.nfSkipped 4 + bnum d.clipped 5 +
  bnum d.aborted 6 + bnum (if d.decided then d.warm else s.settle.warming) 7 +
  (min (if d.decided then s.settle.dormantGroups else s.dormantCount) 0xFFFF) * 2 ^ 16
/-- The guard summary word of the RUN_STEP in progress (R276). -/
def State.guardWord (s : State) : Nat := s.guardWordOf s.dec

/-- A RUN_STEP is posted: nothing of its decision is left (R276, R611). -/
def State.stepPosted (s : State) : State :=
  s.modDec (fun d => { d with status := none, decided := false, spikeLocal := false, spikeSlice := false, dormantNew := false, dormantAny := false,
                              nfSkipped := false, clipped := false, aborted := false, warm := false })

/-- The guard records take the pass's counts (R257, R258). -/
def Settle.passCounts (t : Settle) : Settle :=
  { t with guards := tmods t.guards {} (t.guards.map (·.1)) (fun _ x =>
      { x with flushSettle := sat32 x.flushSettle x.settleNow, flushWc := sat32 x.flushWc x.wcNow, settleNow := 0, wcNow := 0 }) }

/-- A walk or pass ends: PHASE is IDLE and the guard records take its counts; a SETTLE_CONFIG that waited comes next, and then the
held landings (R232, R244, R252, R258). -/
def State.endWalk (s : State) : State :=
  let s := s.modSet (fun t => { t.passCounts with phase := .idle, own := none })
  if s.cfgReady then s.modSet (fun t => { t with cfgDue := true }) else s.releaseLands

/-- A SETTLE_CONFIG has ended: the held landings follow once none waits any more (R232). -/
def State.cfgEnds (s : State) : State :=
  if s.settle.cfgDue ∧ ¬ s.cfgReady then (s.modSet (fun t => { t with cfgDue := false })).releaseLands else s

/-- The detector reset (R265). -/
def Spike.reset (d : Spike) : Spike := { d with n := 0, mu := 0, var := 0, consec := 0 }

end Sys2Proof.Machine
end

