-- ==== Sys2Proof/Machine/CollectOps.lean ====
section
/-!
DEFINITION. The collective unit (12_collectives.md): streams, in-line reduction, the stages of a collective, gradient
landings, and the combining trees of the settlement statement and of the point barrier.
-/
set_option autoImplicit false
namespace Sys2Proof.Machine

/-! ### Streams (R369) -/

/-- The VC of a packet that the device sends on a port (R345). -/
def State.streamVc (s : State) (n : Nat) : Nat :=
  let a := portAxis n
  if s.wraps a && (if portPlus n then s.here.axis a == s.len a - 1 else s.here.axis a == 0) then 1 else 0

/-- A packet of the collective unit leaves on the port of its stream, after the fence (R352, R359, R369). -/
def State.streamLaunch (s : State) (n : Nat) (p : Packet) : Sent × State :=
  if p.channel ≠ 0 ∧ (¬ s.inSlice p.dest ∨ s.leavesSlice n) then (.denied, s.fenced p true)
  else if ¬ s.active n then (.noPort, s.dropNoPort n)
  else (.sent, (s.moved).enqueue n { vc := s.streamVc n, packet := p })

/-- A packet of a stream is injected. While the device drains, it waits (R361, R369). -/
def State.streamSend (s : State) (n : Nat) (p : Packet) : Sent × State :=
  if s.rtr.drain ∧ p.drains then (.sent, s.modRtr (fun r => { r with injectQ := r.injectQ ++ [{ port := some n, packet := p }] }))
  else s.streamLaunch n p

/-- The axis on which a source differs from this device. -/
def State.srcAxis (s : State) (c : Coord) : Nat := firstAxis s.here c

/-! ### Combining trees (R392) -/

/-- Whether position r of a stage sends toward r − 1 (true) or r + 1 (R392). -/
def sendsDown (ring : Bool) (l r : Nat) : Bool := !ring || decide (r ≤ l / 2)

/-- The children of this device in the stage of axis a: whether each lies on +A, and its coordinate (R392). -/
def State.treeKids (s : State) (a : Nat) : List (Bool × Coord) :=
  let l := s.ext a
  let r := s.ringPos a
  let ring := s.sliceRing a
  let plus := if r + 1 < l && sendsDown ring l (r + 1) then [(true, s.here.setAxis a (s.coordAt a (r + 1)))] else []
  let m := (r + l - 1) % max 1 l
  let minus := if ring && decide (1 < l) && decide (m ≠ 0) && !sendsDown ring l m then [(false, s.here.setAxis a (s.coordAt a m))] else []
  plus ++ minus

/-- The stages that this device takes part in: axes up to the first on which its position is not 0 (R392). -/
def State.treeAxes (s : State) : List Nat :=
  match (List.range 4).find? (fun a => s.ringPos a != 0) with
  | some a => List.range (a + 1)
  | none => List.range 4

/-- Where this device sends its combined value: axis, port, parent; none at the root (R392). -/
def State.treeUp (s : State) : Option (Nat × Nat × Coord) :=
  ((List.range 4).find? (fun a => s.ringPos a != 0)).map (fun a =>
    let l := s.ext a
    let r := s.ringPos a
    if sendsDown (s.sliceRing a) l r then (a, portOf a false, s.here.setAxis a (s.coordAt a (r - 1)))
    else (a, portOf a true, s.here.setAxis a (s.coordAt a ((r + 1) % max 1 l))))

/-- The children of all stages, with their axes and ports, in broadcast order: Z, Y, X, W (R393). -/
def State.treeDown (s : State) : List (Nat × Nat × Coord) :=
  (s.treeAxes.reverse).flatMap (fun a => (s.treeKids a).map (fun k => (a, portOf a k.1, k.2)))

/-- Whether a child's value came from +A (R392). -/
def State.fromPlus (s : State) (a : Nat) (src : Coord) : Bool := (s.treeKids a).any (fun k => k.1 && k.2 == src)

/-- The value combined up the stages from the children held: none while a child is missing (R392). -/
def combineTree {α : Type} (s : State) (op : α → α → α) (held : Nat → Bool → Option α) (own : α) : Option α :=
  s.treeAxes.foldl (fun (v : Option α) a =>
    (s.treeKids a).foldl (fun v k => match v, held a k.1 with
      | some x, some y => some (op x y)
      | _, _ => none) v) (some own)

/-! ### The settlement statement (R391 to R395) -/

/-- The combination rule of R391. -/
def Stmt.combine (a b : Stmt) : Stmt :=
  { sumsq := (FV.add (FV.of a.sumsq) (FV.of b.sumsq)).bits, nonfinite := sat32 a.nonfinite b.nonfinite,
    stepMin := min a.stepMin b.stepMin, stepMax := max a.stepMax b.stepMax, dormant := sat32 a.dormant b.dormant,
    spike := a.spike || b.spike, pAbort := a.pAbort || b.pAbort, pSkip := a.pSkip || b.pSkip,
    devices := (a.devices + b.devices) % 2 ^ 32, slice := a.slice }

/-- The 64 bytes of a statement (R391). -/
def Stmt.bytes (t : Stmt) : List Byte :=
  leBytes 4 t.sumsq.toNat ++ leBytes 4 t.nonfinite ++ leBytes 8 t.stepMin ++ leBytes 8 t.stepMax ++ leBytes 4 t.dormant ++
  leBytes 4 (bnum t.spike 0 + bnum t.pAbort 1 + bnum t.pSkip 2) ++ leBytes 4 t.devices ++ leBytes 4 t.slice ++ List.replicate 24 0
/-- The statement that 64 bytes hold (R391). -/
def Stmt.ofBytes (b : List Byte) : Stmt :=
  { sumsq := BitVec.ofNat 32 (leAt b 0 4), nonfinite := leAt b 4 4, stepMin := leAt b 8 8, stepMax := leAt b 16 8,
    dormant := leAt b 24 4, spike := bit (leAt b 28 4) 0, pAbort := bit (leAt b 28 4) 1, pSkip := bit (leAt b 28 4) 2,
    devices := leAt b 32 4, slice := leAt b 36 4 }
/-- ADDR of a STATEMENT packet (R394). DESIGN CHOICE, log entry 6. -/
def stmtAddr (bc : Bool) (axis slice : Nat) : Nat := bnum bc + axis * 2 + (slice % 2 ^ 32) * 2 ^ 16

/-- The fused reduction fails on this device (R395). -/
def State.stmtFail (s : State) (st : Status) : State :=
  let s := s.modDec (fun d => { d with stmtState := 3, status := some st, children := [] })
  (s.log .settleStatementFailed (srcBlock 4) []).failWalk

/-- The 64 bytes of the broadcast statement are forwarded unchanged down the tree and decided on (R393). -/
def State.stmtFinal (s : State) (bs : List Byte) : State :=
  let s := s.treeDown.foldl (fun s k =>
    (s.streamSend k.2.1 (s.packet 1 3 k.2.2 (stmtAddr true k.1 s.rtr.slice.id) bs)).2) s
  (s.modDec (fun d => { d with children := [] })).judgeStmt (Stmt.ofBytes bs)

/-- The statement goes up once this device holds its own and every child's (R392). -/
def State.stmtAdvance (s : State) : State :=
  match s.settle.own with
  | none => s
  | some own =>
    if s.dec.sentUp ∨ s.settle.phase ≠ .deciding then s
    else
      let held (a : Nat) (p : Bool) : Option Stmt := (s.dec.children.find? (fun c => c.1 == a && c.2.1 == p)).map (·.2.2)
      match combineTree s Stmt.combine held own with
      | none => s
      | some v =>
        match s.treeUp with
        | none => (s.modDec (fun d => { d with sentUp := true })).stmtFinal v.bytes
        | some (a, n, c) =>
          match s.streamSend n (s.packet 1 3 c (stmtAddr false a s.rtr.slice.id) v.bytes) with
          | (.sent, s) => s.modDec (fun d => { d with sentUp := true, stmtState := 2 })
          | (_, s) => s.stmtFail .sliceDegraded

/-- The reduction starts after the contribution: without a slice the own statement is the broadcast, and a slice that
is DEGRADED fails it (R395, R451). -/
def State.stmtStart (s : State) : State :=
  match s.settle.own with
  | none => s
  | some own =>
    if ¬ s.hasSlice then s.judgeStmt own
    else if s.rtr.slice.st = 2 then s.stmtFail .sliceDegraded
    else s.stmtAdvance

/-! ### Point barriers (R455) -/

/-- ADDR of a point-barrier packet (R455). DESIGN CHOICE, log entry 6. -/
def pointAddr (bc : Bool) (slice : Nat) : Nat := (if bc then 2 else 1) + (slice % 2 ^ 32) * 2 ^ 16
/-- Payload of a point-barrier packet (R455). DESIGN CHOICE, log entry 6. -/
def pointBytes (n : Nat) (pending : Bool) : List Byte := leBytes 4 n ++ leBytes 1 (bnum pending) ++ List.replicate 11 0

/-- The barrier's broadcast is forwarded, and the clusters go on, or stop when PENDING is set (R455, R456). DEDUCED, log entry 69. -/
def State.pointFinal (s : State) (n : Nat) (pending : Bool) : State :=
  let s := s.treeDown.foldl (fun s k =>
    (s.streamSend k.2.1 (s.packet 0 1 k.2.2 (pointAddr true s.rtr.slice.id) (pointBytes n pending))).2) s
  s.modCol (fun c => { c with points := [], pointOwn := false, pointWait := false, pointNo := n, pointStop := c.pointStop || pending })

/-- The barrier goes up once the clusters of this device and every child have reached the point (R455). -/
def State.pointAdvance (s : State) : State :=
  if ¬ s.col.pointOwn then s
  else
    let n := s.col.pointNo
    let held (a : Nat) (p : Bool) : Option Bool := (s.col.points.find? (fun c => c.1 == a && c.2.1 == p && c.2.2.1 == n)).map (·.2.2.2)
    match combineTree s or held s.preempt with
    | none => s
    | some v =>
      match s.treeUp with
      | none => s.pointFinal n v
      | some (_, port, c) =>
        (s.streamSend port (s.packet 0 1 c (pointAddr false s.rtr.slice.id) (pointBytes n v))).2.modCol
          (fun k => { k with pointOwn := false, points := [] })

/-! ### In-line reduction (R374, R375) -/

/-- Codes of a unit's elements. -/
def unitCodes (f : Format) (d : List Byte) : List Nat :=
  (List.range (d.length * 8 / f.bits)).map (fun i => leAt d (i * f.bits / 8) (f.bits / 8))

/-- ⊕ of two units, with the flags it raises (R374, R375). -/
def reduceUnit (e : List Byte) (a b : WorkUnit) : WorkUnit × Flags :=
  let f := fmtOf (peFmt e)
  let blocked := peBlk e != 0
  let dec (u : WorkUnit) := (unitCodes f u.data).map (fun c => expand f (if blocked then some u.scale else none) fone c)
  let sums := ((dec a).zip (dec b)).map (fun x => if peMax e then FV.max x.1 x.2 else FV.add x.1 x.2)
  let o := convertBlock f blocked fone (fun _ => none) (sums.map (·.bits))
  ({ data := packCodes f o.codes, scale := o.scale, poison := a.poison || b.poison }, o.fl.or (flagsOf (sums.map (·.fl))))

/-! ### Entries and their units (R371 to R373, R379, R383) -/

/-- Units per chunk at a start, for GRAD_LAND the blocks of a position (R371, R383). -/
def State.perChunk (s : State) (e : List Byte) : Nat :=
  if peOp e = 4 then rowCount (s.row (peGroup e)) else peUnits e + (if peTail e = 0 then 0 else 1)
/-- Bytes of a unit at a start; for GRAD_LAND of a gradient block (R383). -/
def State.unitBytes (s : State) (e : List Byte) : Nat := if peOp e = 4 then 2 * rowN (s.row (peGroup e)) else peUnit e
/-- Whether unit k of a chunk is its tail, which no whole block fills. -/
def peIsTail (e : List Byte) (k : Nat) : Bool := peTail e != 0 && k == peUnits e

/-- A unit at an address, with its scale. -/
def State.readUnit (s : State) (data n scale : Nat) (scaled : Bool) : WorkUnit :=
  { data := s.readMem data n, scale := if scaled then (s.byteAt scale).toNat else 0,
    poison := s.poisonIn data n || (scaled && s.poisonAt scale) }

/-- The local contribution to unit k of chunk R (R379, R383). -/
def State.sourceUnit (s : State) (e : List Byte) (r k : Nat) : Option WorkUnit :=
  let n := s.unitBytes e
  if peOp e = 4 then
    let g := r * s.perChunk e + k
    if bit (s.byteAt (pePres e + g / 8)).toNat (g % 8) then some (s.readUnit (peSrc e + g * n) n (peSrcScale e + g) true) else none
  else
    let base := if peOp e = 1 then 0 else r
    if peIsTail e k then some (s.readUnit (peSrc e + base * peChunk e + k * n) (peTail e) 0 false)
    else some (s.readUnit (peSrc e + base * peChunk e + k * n) n (peSrcScale e + base * peScaleStride e + k) (peBlk e != 0))

/-- A result unit stored, its scale byte with the poison of the unit (R211, R213, R379). -/
def State.storeUnit (s : State) (e : List Byte) (slot k : Nat) (u : WorkUnit) : State :=
  let s := s.writeMem (peDst e + slot * peChunk e + k * peUnit e) u.data (fun _ => u.poison)
  if peBlk e = 0 ∨ peIsTail e k then s else s.writeMem (peDstScale e + slot * peScaleStride e + k) (leBytes 1 u.scale) (fun _ => u.poison)

/-- Whether unit k of a chunk of n units travels the + ring (R371, R383). -/
def State.onPlus (s : State) (n a k : Nat) : Bool := !s.sliceRing a || decide (k < (n + 1) / 2)

/-- The next position of a logical ring: on the + ring r + 1, on the − ring r − 1 (R371). -/
def State.nextOn (s : State) (a : Nat) (plus : Bool) : Nat × Coord :=
  let l := s.ext a
  let r := s.ringPos a
  if plus then
    if r + 1 < l then (portOf a true, s.here.setAxis a (s.coordAt a (r + 1)))
    else (portOf a (s.sliceRing a), s.here.setAxis a (s.coordAt a 0))
  else (portOf a false, s.here.setAxis a (s.coordAt a ((r + l - 1) % max 1 l)))

/-- Chunks that take part in a stage over axis a of a reduce: earlier axes of the set agree with this device; of a
gather: later axes agree (R373, R376). -/
def State.stageChunks (s : State) (axes : List Nat) (reduce : Bool) (a : Nat) : List Nat :=
  let own := s.composite axes
  (List.range (s.product axes)).filter (fun r => axes.all (fun b =>
    (if reduce then decide (a ≤ b) else decide (b ≤ a)) || s.posOn axes b r == s.posOn axes b own))

/-- A running entry changed. -/
def State.modRun (s : State) (i : Nat) (f : RunEntry → RunEntry) : State :=
  s.modCol (fun c => { c with running := c.running.map (fun x => if x.index = i then f x else x) })
/-- The running entry with an index. DESIGN CHOICE, log entry 12. -/
def State.runOf (s : State) (i : Nat) : Option RunEntry := s.col.running.find? (fun x => x.index == i)

/-- ADDR of a data segment: the entry in [9:0], the first unit in [47:10] (the model's own field, log entry 6). -/
def segAddr (i u : Nat) : Nat := i + (u % 2 ^ 38) * 2 ^ 10

/-- Poison map of a payload whose units have n bytes each. -/
def segPoison (n : Nat) (us : List WorkUnit) : List Nat :=
  ((us.zip (List.range us.length)).flatMap (fun x => if x.1.poison then (unitsOf (x.2 * n) n) else [])).eraseDups

/-- Units packed as a payload: elements, then scale bytes. DESIGN CHOICE, log entry 6. -/
def segBytes (scaled : Bool) (us : List WorkUnit) : List Byte :=
  us.flatMap (·.data) ++ (if scaled then us.flatMap (fun u => leBytes 1 u.scale) else [])

/-- Units of a payload. -/
def segUnits (n : Nat) (scaled : Bool) (p : Packet) : List WorkUnit :=
  let m := p.payload.length / (n + (if scaled then 1 else 0))
  (List.range m).map (fun i =>
    { data := (p.payload.drop (i * n)).take n, scale := if scaled then leAt p.payload (m * n + i) 1 else 0
      poison := (unitsOf (i * n) n).any (fun u => p.poison.contains u) })

/-- The payload of a gradient segment (R384). -/
def gradBytes (group micro first : Nat) (us : List (Option WorkUnit)) : List Byte :=
  let pres := us.filterMap id
  let sc := pres.flatMap (fun u => leBytes 1 u.scale)
  leBytes 2 group ++ leBytes 2 micro ++ leBytes 5 first ++ leBytes 1 us.length ++ List.replicate 6 0 ++
  leBytes 16 (whichBits us.length (fun k => ((us[k]?).getD none).isSome)) ++ List.replicate 32 0 ++
  sc ++ List.replicate (roundUp 64 sc.length - sc.length) 0 ++ pres.flatMap (·.data)

/-- The blocks of a gradient segment: first block and each position's unit (R384). -/
def gradUnits (n : Nat) (p : Packet) : Nat × List (Option WorkUnit) :=
  let b := p.payload
  let m := leAt b 9 1
  let pres := (List.range m).filter (bit (leAt b 16 16))
  let off := 64 + roundUp 64 pres.length
  (leAt b 4 5, (List.range m).map (fun k => (pres.idxOf? k).map (fun j =>
    { data := (b.drop (off + j * n)).take n, scale := leAt b (64 + j) 1
      poison := (unitsOf (off + j * n) n).any (fun u => p.poison.contains u) || p.poison.contains ((64 + j) / 64) })))

/-- Runs of consecutive numbers, each of at most m, none of which goes past a number of `cut`. -/
def runsOf (cut : Nat → Bool) (m : Nat) : List Nat → List (List Nat)
  | [] => []
  | x :: xs =>
    match runsOf cut m xs with
    | (y :: ys) :: rest => if y = x + 1 ∧ ys.length + 1 < m ∧ ¬ cut y then (x :: y :: ys) :: rest else [x] :: (y :: ys) :: rest
    | rest => [x] :: rest

/-- Where a segment must begin: at a chunk, so that it has one owner, and at a chunk's tail (R379, R384). -/
def segCut (e : List Byte) (n k : Nat) : Bool := k % max 1 n == 0 || peIsTail e (k % max 1 n)
/-- The most units of a segment, so that its payload has at most 8,192 bytes (R339, R384). -/
def segMax (e : List Byte) (ub : Nat) : Nat :=
  if peOp e = 4 then min 128 (8000 / max 1 ub) else max 1 (8192 / (ub + bnum (peBlk e != 0)))

/-- The entry ends on this device: its completion coin is deposited (R380, R396). DEDUCED, log entry 68. -/
def State.entryEnd (s : State) (i : Nat) (st : Status) : State :=
  match s.planEntry i with
  | none => s
  | some e =>
    let s := s.modCol (fun c => { c with running := c.running.filter (fun x => x.index != i) })
    if peDoneEn e ∧ peOp e ≠ 5 then s.collectiveCoin (peDone e) (peQueue e) (BitVec.ofNat 32 (i + st.code * 2 ^ 24)) else s

/-- A packet of an entry is sent on a stream; a drop or a fence ends the entry (R352, R359, R396). -/
def State.segSend (s : State) (i port : Nat) (p : Packet) : State :=
  if (s.runOf i).isNone then s
  else match s.streamSend port p with
    | (.sent, s) => s
    | (x, s) => s.entryEnd i x.status

/-- Units (chunk R, unit k) of an entry sent to the next position on axis a (R369, R384). -/
def State.sendUnits (s : State) (e : List Byte) (x : RunEntry) (reduce : Bool) (a : Nat) (plus : Bool)
    (us : List ((Nat × Nat) × WorkUnit)) : State :=
  let grad := peOp e = 4
  let keyed := us.map (fun y => (y.1.1 * x.per + y.1.2, y.2))
  let (port, dest) := s.nextOn a plus
  (runsOf (segCut e x.per) (segMax e x.ub) (keyed.map (·.1))).foldl (fun s ks =>
    let vs := ks.filterMap (fun k => (keyed.find? (·.1 == k)).map (·.2))
    let first := ks.headD 0
    let scaled := peBlk e != 0 && !peIsTail e (first % max 1 x.per)
    let body := if grad then gradBytes (peGroup e) x.micro first (vs.map some) else segBytes scaled vs
    let pois := if grad then segPoison x.ub vs |>.map (· + (64 + roundUp 64 vs.length) / 64) else segPoison x.ub vs
    let p := { s.packet (if reduce then 2 else 3) (if reduce then 4 else 5) dest (segAddr x.index first) body with poison := pois }
    s.segSend x.index port p) s

/-- A gradient block of the owner becomes a landing (R233, R385). -/
def State.landUnit (s : State) (e : List Byte) (micro k : Nat) (u : WorkUnit) : State :=
  s.land { group := peGroup e, block := k, micro := micro, elems := (unitCodes .h16 u.data).map (BitVec.ofNat 16),
           scale := BitVec.ofNat 8 u.scale, poison := u.poison }

/-- The working unit of an entry. -/
def RunEntry.unit (x : RunEntry) (key : Nat) : Option WorkUnit := tget x.work none key

/-- What the head stage sends first: in a reduce the chunk of the next position, in a gather the chunks held
(R372, R376). -/
def State.stageSends (s : State) (e : List Byte) (x : RunEntry) (reduce : Bool) (a : Nat) : State :=
  let axes := peAxes e
  let n := x.per
  let l := s.ext a
  let r := s.ringPos a
  let chunks := s.stageChunks axes reduce a
  let pick (plus : Bool) : List ((Nat × Nat) × WorkUnit) :=
    (chunks.filter (fun c =>
      let q := s.posOn axes a c
      if reduce then q == (if plus then (r + l - 1) % l else (r + 1) % l) else q == r)).flatMap (fun c =>
        (List.range n).filterMap (fun k =>
          if s.onPlus n a k = plus then (x.unit (c * n + k)).map (fun u => ((c, k), u)) else none))
  let s := s.sendUnits e x reduce a true (pick true)
  if s.sliceRing a then s.sendUnits e x reduce a false (pick false) else s

/-- How many units the head stage waits for (R372, R376). -/
def State.stageNeed (s : State) (e : List Byte) (n : Nat) (reduce : Bool) (a : Nat) : Nat :=
  let axes := peAxes e
  let l := s.ext a
  let r := s.ringPos a
  if peOp e = 4 then 0
  else (s.stageChunks axes reduce a).foldl (fun t c =>
    let q := s.posOn axes a c
    t + ((List.range n).filter (fun k =>
      if reduce then q != (if s.onPlus n a k then (r + l - 1) % l else (r + 1) % l) else q != r)).length) 0

/-- This device's chunk of a reduce is stored or landed, unit by unit (R371, R373, R376, R385). -/
def State.storeChunk (s : State) (x : RunEntry) (e : List Byte) (n own : Nat) : State :=
  (List.range n).foldl (fun s k => match x.unit (own * n + k) with
    | some u =>
      if peOp e ≠ 4 then s.storeUnit e (if peOp e = 0 then 0 else own) k u
      else if x.sent.contains k then s else s.landUnit e x.micro k u
    | none => s) s

/-- Stages that need no packets are passed over; this device's chunk is complete when the last reducing stage has ended, and the
next stage starts (R371, R373, R376, R385). -/
def State.nextStage (s : State) (i : Nat) : Nat → State
  | 0 => s
  | fuel + 1 =>
    match s.runOf i, s.planEntry i with
    | some x, some e =>
      match x.stages with
      | (red, _) :: rest =>
        let s := s.modRun i (fun x => { x with stages := rest, sent := [] })
        let s := if red ∧ ¬ rest.any (·.1) then s.storeChunk x e x.per (s.composite (peAxes e)) else s
        (match rest with
        | (red', b) :: _ =>
          let s := s.modRun i (fun x => { x with need := s.stageNeed e x.per red' b })
          if s.ext b ≤ 1 then s.nextStage i fuel
          else (match s.runOf i with | some x => s.stageSends e x red' b | none => s)
        | [] => s)
      | [] => s
    | _, _ => s

/-- The arrived units of a segment are applied at this hop (R372, R374, R376, R385). -/
def State.applyUnits (s : State) (i : Nat) (e : List Byte) (reduce : Bool) (a : Nat) (us : List (Nat × Option WorkUnit)) : State :=
  let axes := peAxes e
  let l := s.ext a
  let r := s.ringPos a
  let grad := peOp e = 4
  us.foldl (fun (s : State) u =>
    match s.runOf i with
    | none => s
    | some x =>
      let c := u.1 / x.per
      let k := u.1 % x.per
      let q := s.posOn axes a c
      let plus := s.onPlus x.per a k
      if reduce then
        let own := x.unit u.1
        let v : Option (WorkUnit × Flags) := match u.2, own with
          | some y, some o => some (reduceUnit e y o)
          | some y, none => some (y, {})
          | none, some o => some (o, {})
          | none, none => none
        match v with
        | none => s
        | some (w, fl) =>
          let s := s.modCol (fun c => { c with flags := c.flags.or { fl with dz := false, sat := false } })
          let last := !(x.stages.drop 1).any (·.1)
          if q = r then
            let s := s.modRun i (fun x => { x with work := tset x.work none u.1 (some w), need := x.need - 1 })
            if grad ∧ last then (s.modRun i (fun x => { x with sent := x.sent ++ [k] })).landUnit e x.micro k w else s
          else
            let s := s.modRun i (fun x => { x with need := x.need - 1, sent := if grad then x.sent ++ [u.1] else x.sent })
            s.sendUnits e x true a plus [((c, k), w)]
      else
        match u.2 with
        | none => s
        | some w =>
          let s := s.modRun i (fun x => { x with work := tset x.work none u.1 (some w), need := x.need - 1 })
          let s := s.storeUnit e c k w
          let nextPos := if plus then (r + 1) % l else (r + l - 1) % l
          if nextPos = q then s else s.sendUnits e x false a plus [((c, k), w)]) s

/-- The running entry that takes a segment, by the entry in its ADDR and for GRAD_LAND by group and micro-step, and its head stage
(R377, R384). -/
def State.segFits (s : State) (p : Packet) : Option (Nat × List Byte × RunEntry) :=
  let i := fld p.addr 0 10
  match s.runOf i, s.planEntry i with
  | some x, some e =>
    if peOp e = 4 ∧ ¬ (64 ≤ p.payload.length ∧ leAt p.payload 0 2 = peGroup e ∧ leAt p.payload 2 2 = x.micro) then none
    else if peOp e = 3 then some (i, e, x)
    else (match x.stages.head? with
      | some (red, a) => if red = (p.kind == 4) ∧ s.srcAxis p.src = a then some (i, e, x) else none
      | none => none)
  | _, _ => none

/-- The units that a segment of an entry other than GRAD_LAND carries; a tail has no scale (R379). -/
def tailUnits (e : List Byte) (n ub : Nat) (p : Packet) : List WorkUnit :=
  if peIsTail e (fld p.addr 10 38 % max 1 n) then segUnits (peTail e) false p else segUnits ub (peBlk e != 0) p

/-- A segment is applied to the entry and stage that take it (R372, R376, R379, R384). -/
def State.takeSegment (s : State) (p : Packet) (i : Nat) (e : List Byte) (x : RunEntry) : State :=
  let a := s.srcAxis p.src
  if peOp e = 3 then
    -- all-to-all: the chunk of the source's position
    let r := (peAxes e).foldr (fun b (t : Nat) => s.slicePos b (p.src.axis b) + s.ext b * t) 0
    let us := tailUnits e x.per x.ub p
    let k0 := fld p.addr 10 38
    let s := (us.zip (List.range us.length)).foldl (fun (s : State) u => s.storeUnit e r (k0 % max 1 x.per + u.2) u.1) s
    s.modRun i (fun y => { y with need := y.need - us.length })
  else if peOp e = 4 then
    let (first, us) := gradUnits x.ub p
    s.applyUnits i e true a ((us.zip (List.range us.length)).map (fun u => (first + u.2, u.1)))
  else
    let us := tailUnits e x.per x.ub p
    let k0 := fld p.addr 10 38
    let s := s.applyUnits i e (p.kind == 4) a ((us.zip (List.range us.length)).map (fun u => (k0 + u.2, some u.1)))
    match s.runOf i with
    | some y => if y.need = 0 ∧ x.stages ≠ [] then s.nextStage i 9 else s
    | none => s

/-- A REDUCE or GATHER segment is applied to its running entry, or held until that entry and stage run; its buffer stays filled while a
landing of it is held (R252, R376, R385, R386). -/
def State.segmentOne (s : State) (p : Packet) : State :=
  match s.segFits p with
  | none => s.modCol (fun c => { c with heldSegs := c.heldSegs ++ [p] })
  | some (i, e, x) =>
    let t := s.takeSegment p i e x
    if s.settle.heldLands.length < t.settle.heldLands.length then
      t.modRtr (fun r => { r with kept := r.kept.map (fun k => if k.packet = p then { k with lands := true } else k) })
    else t

/-- Held segments are offered again, until none of them is taken. -/
def State.offerSegs (s : State) : Nat → State
  | 0 => s
  | fuel + 1 =>
    let t := s.col.heldSegs.foldl (fun s p => s.segmentOne p) (s.modCol (fun c => { c with heldSegs := [] }))
    if t.col.heldSegs.length = s.col.heldSegs.length then t else t.offerSegs fuel

/-- Held segments are offered again, and the buffers of those taken are freed (R252, R376, R386). -/
def State.releaseSegs (s : State) : State := (s.offerSegs (s.col.heldSegs.length + 1)).freeKept

/-- A segment arrives; what was held for a stage that begins with it follows (R373, R376). -/
def State.segment (s : State) (p : Packet) : State := (s.segmentOne p).releaseSegs

/-- Local regions of an entry with their extents (R382 row 5). -/
def State.entryRegions (s : State) (e : List Byte) : List (Nat × Nat) :=
  let p := s.product (peAxes e)
  let c := peChunk e
  let sc := peScaleStride e
  let sreg (a n : Nat) : List (Nat × Nat) := if peBlk e = 0 then [] else [(a, n * sc)]
  match peOp e with
  | 0 => [(peSrc e, p * c), (peDst e, c)] ++ sreg (peSrcScale e) p ++ sreg (peDstScale e) 1
  | 1 => [(peSrc e, c), (peDst e, p * c)] ++ sreg (peSrcScale e) 1 ++ sreg (peDstScale e) p
  | 2 | 3 => [(peSrc e, p * c), (peDst e, p * c)] ++ sreg (peSrcScale e) p ++ sreg (peDstScale e) p
  | 4 =>
    let b := p * rowCount (s.row (peGroup e))
    [(peSrc e, b * 2 * rowN (s.row (peGroup e))), (peSrcScale e, b), (pePres e, (b + 7) / 8)]
  | _ => [(peDst e, p * (c + sc))]

/-- The status with which a start is refused (R27, R382, R397). DESIGN CHOICE, log entry 79. -/
def State.startStatus (s : State) (i : Nat) : Option Status :=
  match s.planEntry i with
  | none => some .malformed
  | some e =>
    if (s.runOf i).isSome then some .denied
    else if ¬ s.hasSlice ∨ ¬ s.placed then some .denied
    else if (peAxes e).any (bit s.rtr.slice.axes) then some .linkAbsent
    else if peOp e = 4 ∧ 2 ^ 40 < s.product (peAxes e) * rowCount (s.row (peGroup e)) then some .malformed
    else if (s.entryRegions e).any (fun r => r.2 != 0 && !s.servable r.1 r.2) then some .malformed
    else if s.linkMismatch (peAxes e) ∨ (peOp e = 4 ∧ s.engineMismatch) then some .stateMismatch
    else none

/-- An entry starts running: its units are taken up and its first stage sends (R371 to R373, R376, R379, R383). -/
def State.entryRun (s : State) (i micro : Nat) (last : Bool) (e : List Byte) : State :=
  let axes := peAxes e
  let n := s.perChunk e
  let own := s.composite axes
  let p := s.product axes
  let op := peOp e
  let chunks := if op = 1 then [own] else List.range p
  let work := chunks.foldl (fun t r => (List.range n).foldl (fun t k => tset t none (r * n + k) (s.sourceUnit e r k)) t) ([] : Tab (Option WorkUnit))
  let red := axes.map (fun a => (true, a))
  let gat := axes.map (fun a => (false, a))
  let stages := match op with | 0 | 4 => red | 1 => gat | 2 => red ++ gat | _ => []
  let x : RunEntry := { index := i, micro := micro, last := last, stages := (false, 9) :: stages, work := work, per := n, ub := s.unitBytes e }
  if op = 3 then
    let s := s.modCol (fun c => { c with running := c.running ++ [{ x with stages := [], need := (p - 1) * n }] })
    (List.range p).foldl (fun s r =>
      let us := (List.range n).filterMap (fun k => (x.unit (r * n + k)).map (fun u => (k, u)))
      if r = own then us.foldl (fun s u => s.storeUnit e own u.1 u.2) s
      else
        (runsOf (segCut e n) (segMax e x.ub) (us.map (·.1))).foldl (fun s ks =>
          let vs := ks.filterMap (fun k => (us.find? (·.1 == k)).map (·.2))
          let body := segBytes (peBlk e != 0 && !peIsTail e (ks.headD 0)) vs
          let q := { s.packet 3 5 (s.deviceAt axes r) (segAddr i (ks.headD 0)) body with poison := segPoison x.ub vs }
          if (s.runOf i).isNone then s
          else match s.inject q with
            | (.sent, s) => s
            | (x, s) => s.entryEnd i x.status) s) s |>.releaseSegs
  else
    let s := s.modCol (fun c => { c with running := c.running ++ [x] })
    let s := if op = 1 then
        (List.range n).foldl (fun s k => match x.unit (own * n + k) with | some u => s.storeUnit e own k u | none => s) s
      else s
    (s.nextStage i 9).releaseSegs

/-- A stage of GRAD_LAND ends: blocks that only this device contributed are passed on, and the next stage starts (R385). DEDUCED, log entry 68. -/
def State.gradStageEnd (s : State) (i : Nat) (e : List Byte) (x : RunEntry) : State :=
  match x.stages.head? with
  | none => s
  | some (_, a) =>
    let axes := peAxes e
    let n := x.per
    let l := s.ext a
    let r := s.ringPos a
    let left := (s.stageChunks axes true a).flatMap (fun c => (List.range n).filterMap (fun k =>
      let q := s.posOn axes a c
      let plus := s.onPlus n a k
      if q = r ∨ q = (if plus then (r + l - 1) % max 1 l else (r + 1) % max 1 l) ∨ x.sent.contains (c * n + k) then none
      else (x.unit (c * n + k)).map (fun u => ((c, k), u))))
    let s := if l ≤ 1 then s else
      (s.sendUnits e x true a true (left.filter (fun u => s.onPlus n a u.1.2))).sendUnits e x true a false
        (left.filter (fun u => !s.onPlus n a u.1.2))
    (s.nextStage i 9).releaseSegs

/-- Whether every packet of an entry has been accepted by its next hop: none waits for the end of a drain, in a queue or in a replay
buffer (R361, R380). -/
def State.segsGone (s : State) (i : Nat) : Bool :=
  s.rtr.injectQ.all (fun w =>
    !((w.packet.channel == 2 || w.packet.channel == 3) && w.packet.src == s.here && fld w.packet.addr 0 10 == i)) &&
  (List.range 8).all (fun n => (s.port n).link.txq.all (fun q =>
    !((q.packet.channel == 2 || q.packet.channel == 3) && q.packet.src == s.here && fld q.packet.addr 0 10 == i)) &&
    (s.port n).link.replay.all (fun f => match f with
      | .packet _ _ _ p => !((p.channel == 2 || p.channel == 3) && p.src == s.here && fld p.addr 0 10 == i)
      | _ => true))

/-- The reduce-scatter of a micro-step ends when its last start is marked and every GRAD_LAND of it has ended (R386). DEDUCED, log entry 68. -/
def State.microEnd (s : State) : State :=
  let j := s.settle.microDone
  let running := s.col.running.any (fun x => x.micro == j && (match s.planEntry x.index with | some e => peOp e == 4 | none => false))
  if s.col.lastMarked.contains j ∧ ¬ running ∧ j < s.settle.accum then
    (s.modSet (fun t => { t with microDone := j + 1 })).releaseLands
  else s

/-- Running entries on an axis that became DEGRADED end with LINK_ABSENT, and what they hold is discarded (R396). -/
def State.failEntries (s : State) (a : Nat) : State :=
  let is := (s.col.running.filter (fun x => match s.planEntry x.index with | some e => (peAxes e).contains a | none => false)).map (·.index)
  (is.foldl (fun s i =>
    (s.modCol (fun c => { c with heldSegs := c.heldSegs.filter (fun p => fld p.addr 0 10 != i) })).entryEnd i .linkAbsent) s).freeKept

end Sys2Proof.Machine
end

