-- ==== Sys2Proof/Machine/LinkOps.lean ====
section
/-!
DEFINITION. A port's link and discovery (09_gnoem_link.md, 10_discovery_and_plan.md): link states, replay, lane repair,
identity, the loss of a slice link (R356 to R358) and the time base (R303 to R309).
-/
set_option autoImplicit false
namespace Sys2Proof.Machine

/-! ### Codes -/

/-- LSTATE (R313). -/
def LState.code : LState → Nat | .down => 0 | .training => 1 | .up => 2 | .retrain => 3 | .keepalive => 4
/-- DSTATE (R325). -/
def DState.code : DState → Nat | .none => 0 | .missing => 1 | .identifying => 2 | .active => 3 | .quarantine => 4
/-- GRADE and working arrays (R323, R604). -/
def Grade.code : Grade → Nat | .s96 => 0x60 | .s90 => 0x5A | .s84 => 0x54

/-- Whether the link carries frames. -/
def State.linkUp (s : State) (n : Nat) : Bool := (s.port n).link.st == .up || (s.port n).link.st == .keepalive

/-- The active copy of an image class (R521, R544). -/
def State.activeCopy (s : State) (cls : Nat) : FwCopy :=
  let f := tget s.flash {} cls
  if f.activeB then f.b else f.a
/-- BUILD of a class's active image (R544). -/
def State.build (s : State) (cls : Nat) : Nat := leAt (s.activeCopy cls).header 8 4

/-! ### Identity (R323, R324) -/

/-- The position word as it is reported: all ones when the reading is invalid (R323, R332). -/
def State.posWord (s : State) : Nat := if s.dev.strapBad then 0xFFFFFFFF else s.dev.position
/-- DSTATE as a frame carries it: 0xFF before any identity has been received (R286, R323). -/
def Disc.sentState (d : Disc) : Nat := if d.seen then d.st.code else 0xFF

/-- The identity payload of port n (R323). -/
def State.identityBytes (s : State) (n : Nat) : List Byte :=
  leBytes 1 1 ++ leBytes 1 n ++ leBytes 1 1 ++ leBytes 1 0 ++ leBytes 4 s.posWord ++ leBytes 4 (s.build 2) ++
  leBytes 8 s.fuses.serial.toNat ++ leBytes 1 0xB1 ++ leBytes 1 s.fuses.grade.code ++ leBytes 1 (s.port n).disc.sentState ++
  leBytes 1 s.dev.posState ++ List.replicate 8 0 ++ planHash s.dev.plan

/-- Identity is sent on port n (R324). -/
def State.sendIdentity (s : State) (n : Nat) : State := if s.linkUp n then s.sendLocal n 0x01 (s.identityBytes n) else s

/-! ### The time base (R303, R309) -/

/-- Hops from 0 to d on an axis (R303, R344). -/
def axisHops (wraps : Bool) (len d : Nat) : Nat := if wraps then min d (len - d) else d
/-- Depth of a coordinate (R303). -/
def State.depthOf (s : State) (c : Coord) : Nat :=
  (List.range 4).foldl (fun a i => a + axisHops (s.wraps i) (s.len i) (c.axis i)) 0
/-- The port that leads to the preceding device on the route from the root (R303). -/
def State.parentPort (s : State) : Nat :=
  match (List.range 4).reverse.find? (fun a => s.here.axis a != 0) with
  | some a => portOf a (!goPlus (s.wraps a) (s.len a) 0 0 (s.here.axis a))
  | none => 0

/-- The device no longer follows its parent: HOLDOVER, in which time runs on the device's own reference without steering (R309). -/
def State.holdover (s : State) (n : Nat) : State :=
  ((s.slewAt 0).modTime (fun t => { t with tstate := 3, good := 0 })).log .timeHoldover (srcPort n) [(1, n)]

/-- DELAY_NS of port n: 0 when no time exchange runs on it (R304, R313). -/
def State.delayOf (s : State) (n : Nat) : Nat :=
  if ¬ s.time.root ∧ s.time.tstate ≠ 0 ∧ s.time.parent = n ∧ s.active n then (s.port n).link.delayNs else 0

/-- The time state that a plan check leaves: the root is LOCKED, another placed device waits in HOLDOVER for its parent
port, and without a plan time stays FREE (R303, R307, R314, R321). -/
def State.placeTime (s : State) : State :=
  match s.dev.plan with
  | none => s.modTime (fun t => { t with tstate := 0, parent := 0, root := false, depth := 0 })
  | some _ =>
    if ¬ s.placed then s.modTime (fun t => { t with tstate := 3, parent := 0, root := false, depth := 0 })
    else if s.here.axis 0 + s.here.axis 1 + s.here.axis 2 + s.here.axis 3 = 0 then
      s.modTime (fun t => { t with tstate := 2, root := true, depth := 0, parent := 0 })
    else s.modTime (fun t => { t with tstate := if s.active s.parentPort then 1 else 3, root := false, parent := s.parentPort, depth := s.depthOf s.here })

/-- The parent port stops carrying traffic: HOLDOVER, and another ACTIVE port toward a smaller depth is followed, the
first in port order (R309). -/
def State.timeLost (s : State) (n : Nat) : State :=
  if s.time.root ∨ s.time.parent ≠ n ∨ s.time.tstate = 0 ∨ s.time.tstate = 3 then s
  else
    let s := s.holdover n
    match (List.range 8).find? (fun p => p != n && s.active p &&
        (match s.neighbour p with | some c => decide (s.depthOf c < s.time.depth) | none => false)) with
    | some p => s.modTime (fun t => { t with tstate := 1, parent := p, depth := (match s.neighbour p with | some c => s.depthOf c + 1 | none => t.depth) })
    | none => s

/-- A port that becomes ACTIVE ends a HOLDOVER that waits for it (R309, R314). -/
def State.timeFound (s : State) (n : Nat) : State :=
  if s.time.tstate = 3 ∧ ¬ s.time.root ∧ s.placed then
    if n = s.parentPort then s.modTime (fun t => { t with tstate := 1, parent := n, depth := s.depthOf s.here, good := 0 })
    else match s.neighbour n with
      | some c => if s.time.isSet ∧ s.depthOf c < s.time.depth then
          s.modTime (fun t => { t with tstate := 1, parent := n, depth := s.depthOf c + 1, good := 0 }) else s
      | none => s
  else s

/-- Device time is set or stepped by ns (R306). DEDUCED, log entry 71. -/
def State.setTime (s : State) (step : Int) : State :=
  (({ s with devOff := s.devOff + step } : State).modTime (fun t => { t with isSet := true, wait := none })).log .timeSet (srcBlock 7)
    [(8, (step % 2 ^ 64).toNat)]

/-- Whether a RUN_STEP or RUN_LAYERS is dispatched on the device and has not completed. -/
def State.commandRuns (s : State) : Bool := (List.range 8).any (fun c => (s.cluster c).seq.cmd.isSome)

/-- A time setting that waited for the running command is made (R306). -/
def State.timeSettles (s : State) : State :=
  match s.time.wait with
  | some step => if s.commandRuns then s else s.setTime step
  | none => s
/-- Whether a RUN_STEP or RUN_LAYERS waits for the time base (R307). A setting that only waited for the running command is made
before the next dispatch, and then holds nothing back (R306). -/
def State.timeHolds (s : State) : Bool := s.time.tstate == 1 && !s.time.isSet && (s.time.wait.isNone || s.commandRuns)

/-! ### Slices that lose a link (R356 to R358) -/

/-- The payload of a slice notice (R358). -/
def noticeBytes (id kind axis port : Nat) (reporter : Coord) (resetNo : Nat) : List Byte :=
  leBytes 4 id ++ leBytes 1 kind ++ leBytes 1 axis ++ leBytes 1 port ++ [0] ++ leBytes 4 reporter.toNat ++ leBytes 2 resetNo ++
  List.replicate 18 0

/-- A notice leaves on every ACTIVE slice link (R357). -/
def State.sendNotice (s : State) (payload : List Byte) : State :=
  (s.sliceLinks.filter s.active).foldl (fun s n => s.sendLocal n 0x02 payload) s

/-- The key by which a notice is new to a member (R358). -/
def noticeKey (b : List Byte) : List Nat :=
  if leAt b 4 1 = 0 then [leAt b 0 4, 0, leAt b 8 4, leAt b 6 1] else [leAt b 0 4, 1, leAt b 12 2]

/-- The slice becomes DEGRADED on an axis: a running command will complete SLICE_DEGRADED, the axis's collectives fail
and a statement reduction in progress fails (R356, R357, R395, R396). -/
def State.degrade (s : State) (axis : Nat) : State :=
  let s := s.modSlice (fun x => { x with st := 2, axes := if bit x.axes axis then x.axes else x.axes + 2 ^ axis })
  let s := s.failEntries axis
  let s := if s.commandRuns then s.modDec (fun d => { d with degraded := true }) else s
  if s.settle.phase = .deciding ∧ (s.dec.stmtState = 1 ∨ s.dec.stmtState = 2) then s.stmtFail .sliceDegraded else s

/-- A slice link of this device is no longer ACTIVE (R356, R357). -/
def State.sliceLinkLost (s : State) (n : Nat) : State :=
  if s.sliceLink n then
    let b := noticeBytes s.rtr.slice.id 0 (portAxis n) n s.here 0
    ((s.modSlice (fun x => { x with seen := x.seen ++ [noticeKey b] })).sendNotice b).degrade (portAxis n)
  else s

/-! ### Discovery (R324 to R330) -/

/-- Whether a packet may stay queued on a port that is not ACTIVE: identity alone (R325, R327). -/
def Packet.isIdentity (p : Packet) : Bool := p.kind == 0 && p.addr == 1

/-- Packets queued for a port are discarded and counted in NO_PORT, and the buffers that they held are freed. While the link stays up,
identity is still sent (R327, R368). -/
def State.dropQueue (s : State) (n : Nat) (linkStays : Bool) : State :=
  let out := (s.port n).link.txq.filter (fun q => !(linkStays && q.packet.isIdentity))
  let unsent := out.map (·.packet) ++ (if linkStays then [] else { (s.port n).link with txq := [] }.packets)
  let s := s.modLink n (fun k =>
    { k with txq := k.txq.filter (fun q => linkStays && q.packet.isIdentity), replay := if linkStays then k.replay else [] })
  let s := s.dmasDrop unsent
  let s := s.modRtr (fun r => { r with noPort := satAdd 0xFFFF r.noPort out.length })
  out.foldl (fun (s : State) q => match q.held with | some (i, v) => s.freeBuffer i v q.packet | none => s) s

/-- A port leaves ACTIVE (R309, R327, R356). -/
def State.leftActive (s : State) (n : Nat) : State := (((s.dropQueue n true).timeLost n).sliceLinkLost n)

/-- A port takes a discovery state, at AO time t. A port that was ACTIVE and falls to MISSING is gone until it is ACTIVE again
(R325, R330). -/
def Disc.enter (x : Disc) (d : DState) (cause t : Nat) : Disc :=
  { x with st := d, cause := cause, since := if x.st = .missing ∧ d = .missing then x.since else t,
           wasActive := x.wasActive || d == .active, gone := (x.gone || (x.wasActive && d == .missing)) && d != .active,
           missingLogged := x.missingLogged && d != .active }

/-- The discovery state of a port changes; a change sends identity (R324, R325). -/
def State.setDisc (s : State) (n : Nat) (d : DState) (cause : Nat) : State :=
  let old := (s.port n).disc.st
  let s := s.modDisc n (fun x => x.enter d cause s.aoNs)
  let s := if old = .active ∧ d ≠ .active then s.leftActive n else s
  if old = d then s else s.sendIdentity n

/-- The event of R326, with the port, the cause and the observed partner. -/
def State.discEvent (s : State) (c : EventClass) (n cause : Nat) (b : List Byte) : State :=
  s.log c (srcPort n) [(1, n), (1, cause), (4, leAt b 4 4), (1, leAt b 1 1), (1, leAt b 2 1), (1, leAt b 3 1), (4, leAt b 8 4), (8, leAt b 12 8)]

/-- The row of R326 that judges an identity: 0 for check 10, else the check's number. -/
def State.identityRow (s : State) (n : Nat) (b : List Byte) : Nat :=
  let d := Coord.ofNat (leAt b 4 4)
  if ¬ s.placed then 1
  else match s.neighbour n with
    | none => 2
    | some c =>
      if leAt b 2 1 ≠ 1 then 3
      else if padTo 32 (b.drop 32) ≠ planHash s.dev.plan then 4
      else if d ≠ c ∨ leAt b 4 4 = 0xFFFFFFFF then 5
      else if leAt b 1 1 ≠ portOpp n then 6
      else if leAt b 22 1 = 4 then 7
      else if leAt b 3 1 ≠ 0 then 8
      else if leAt b 8 4 ≠ s.build 2 then 9
      else 0

/-- CAUSE of a check that quarantines (R326, R334). DEDUCED, log entry 71. -/
def State.causeOf (s : State) (row : Nat) : Nat :=
  match row with | 1 => if s.dev.posState = 1 then 1 else 2 | 2 => 3 | 3 => 4 | 4 => 5 | 5 => 6 | 6 => 7 | _ => 8

/-- A valid identity is judged (R324, R326, R328, R330). DEDUCED, log entry 71. -/
def State.identity (s : State) (n : Nat) (b : List Byte) : State :=
  if leAt b 0 1 ≠ 1 ∨ ¬ s.linkUp n then s
  else
    let old := (s.port n).disc
    let s := s.modDisc n (fun d => { d with pos := leAt b 4 3, pport := fld (leAt b 1 1) 0 3, seen := true })
    if old.st = .quarantine then s
    else
      let row := s.identityRow n b
      let s := s.modDisc n (fun d => { d with serial := some (leAt b 12 8) })
      if 1 ≤ row ∧ row ≤ 7 then
        (s.discEvent .portQuarantine n (s.causeOf row) b).setDisc n .quarantine (s.causeOf row)
      else
        let s := s.modDisc n (fun d => { d with lowered := row == 8 })
        if old.st = .active then s
        else
          let s := s.discEvent (match row with | 8 => .gnoemVersionNegotiated | 9 => .gnoemFwDiffers | _ => .portActive) n 0 b
          let s := if old.gone then
              s.log .partnerReturned (srcPort n) [(1, n), (1, bnum (old.serial == some (leAt b 12 8)))] else s
          let s := s.setDisc n .active 0
          (s.timeFound n).pump n

/-- A port returns to IDENTIFYING (R325, R328). -/
def State.reidentify (s : State) (n : Nat) : State :=
  match (s.port n).disc.st with
  | .quarantine => s.setDisc n .identifying 0
  | .identifying => (s.modDisc n (fun d => { d with since := s.aoNs })).sendIdentity n
  | .active => s.sendIdentity n
  | _ => s

/-- Every ACTIVE port leaves ACTIVE, under the plan that is still in force: what crosses it ends (R327, R328). -/
def State.leavePorts (s : State) : State :=
  let ns := (List.range 8).filter s.active
  let s := ns.foldl (fun (s : State) n => s.modDisc n (fun x => x.enter .identifying 0 s.aoNs)) s
  ns.foldl State.leftActive s

/-- Every port re-identifies when the plan in force changes (R319, R328, R331). -/
def State.reidentifyAll (s : State) : State :=
  (List.range 8).foldl (fun (s : State) n =>
    if s.linkUp n then (s.modDisc n (fun x => x.enter .identifying 0 s.aoNs)).sendIdentity n
    else s.modDisc n (fun x => x.enter (if (s.neighbour n).isSome then .missing else .none) 0 s.aoNs)) s

/-! ### Links (R287, R293, R294) -/

/-- The link state of R287: nothing sent, nothing held. -/
def Link.start (k : Link) : Link :=
  { k with txSeq := 0, rxSeq := 0, rxAny := false, replay := [], replayRuns := 0, naked := false, failCount := 0, freed := [],
           granted := [], usedCr := [], txq := [], rr := 2, rrIn := [], kaCount := 0, kaSent := false, kaGot := false }

/-- Buffers that packets of this device's queues hold at input port n are forgotten with its link state (R287). -/
def State.forgetHeld (s : State) (n : Nat) : State :=
  let strip (q : Queued) : Queued := match q.held with | some (i, _) => if i = n then { q with held := none } else q | none => q
  let s := (List.range 8).foldl (fun s p =>
    if (s.port p).link.txq.any (fun q => (q.held.map (·.1)) == some n) then s.modLink p (fun k => { k with txq := k.txq.map strip }) else s) s
  s.modRtr (fun r => { r with inbox := r.inbox.map strip, kept := r.kept.map (fun k => { k with queued := strip k.queued }) })

/-- The link of port n takes state `st`; its lanes are fresh, and discovery falls to NONE or MISSING (R293, R294, R325). -/
def State.linkFalls (s : State) (n : Nat) (st : LState) : State :=
  let s := s.modLink n (fun k => { k with st := st, spareTx := false, spareRx := false, sparedLane := 0, half := 0, delayNs := 0 })
  let s := s.modRep n (fun r => { exchange := 0, lanes := r.lanes.map (fun x => (x.1, { x.2 with failed := false })), trainedAt := s.aoNs })
  s.modDisc n (fun d => { d.enter (if (s.neighbour n).isSome then .missing else .none) 0 s.aoNs with seen := false })
/-- The partner of a port that was ACTIVE is gone; a port with a planned neighbour says so (R325, R329). -/
def State.partnerGone (s : State) (n : Nat) : State :=
  let s := s.leftActive n
  if (s.neighbour n).isSome then (s.modDisc n (fun d => { d with missingLogged := true })).log .partnerMissing (srcPort n) [(1, n)] else s
/-- The link state of port n starts again: nothing sent, nothing held (R287). -/
def State.linkFresh (s : State) (n : Nat) : State := ((s.dropQueue n false).modLink n Link.start).forgetHeld n
/-- The link of port n leaves LINK_UP or KEEPALIVE for `st`: its frames are discarded, discovery falls to NONE or
MISSING (R287, R293, R294, R325, R329). -/
def State.linkLeaves (s : State) (n : Nat) (st : LState) : State :=
  let t := s.linkFalls n st
  let t := if (s.port n).disc.st = .active then t.partnerGone n else t
  if s.linkUp n then t.linkFresh n else t

/-- Training begins, under the MAX_MODE of now; the device's first training is kept (R294, R312, R329). -/
def State.train (s : State) (n : Nat) : State :=
  let s := s.modDev (fun d => { d with firstTrain := some (d.firstTrain.getD s.aoNs) })
  (s.linkLeaves n .training).modLink n (fun k => { k with trainMode := k.maxMode })
/-- RETRAIN: from LINK_UP or KEEPALIVE the port goes to TRAINING at once (R294). -/
def State.retrain (s : State) (n : Nat) : State := if s.linkUp n then (s.total 12 1).train n else s

/-- Whether ports may leave LINK_DOWN: their PLLs have locked and PHY firmware is loaded, and the device is not in the
fatal state (R294, R497, R568). DESIGN CHOICE, log entry 14. -/
def State.linksAllowed (s : State) : Bool := decide (4 ≤ s.dev.stage) && !s.err.fatal && !s.pwr.thermtrip

/-! ### Acknowledgement and replay (R288 to R290) -/

/-- Whether a sequence number is covered by a cumulative acknowledgement (16-bit arithmetic). -/
def covered (seq ack : Nat) : Bool := decide ((ack + 65536 - seq) % 65536 < 32768)

/-- Whether a frame of the replay buffer is a PACKET frame that a cumulative acknowledgement leaves there (R288). -/
def Frame.unacked (a : Nat) (f : Frame) : Bool := match f with | .packet _ q _ _ => !covered q a | _ => false
/-- Whether a frame is the PACKET frame with a sequence number. -/
def Frame.hasSeq (e : Nat) (f : Frame) : Bool := match f with | .packet _ q _ _ => q == e | _ => false
/-- A frame of the replay buffer as it is sent again, with the acknowledgement of now (R290). -/
def Frame.again (ack : Option Nat) (f : Frame) : Frame :=
  match f with | .packet v q _ p => .packet v q ack p | f => f

/-- A cumulative acknowledgement frees replay buffer entries (R288). -/
def State.acked (s : State) (n : Nat) (ack : Option Nat) : State :=
  match ack with
  | none => s
  | some a =>
    let k := (s.port n).link
    let rest := k.replay.filter (Frame.unacked a)
    if rest.length = k.replay.length then s
    else ((s.modLink n (fun k => { k with replay := rest, replayRuns := 0 })).pump n).dmasDone

/-- The transmitter replays from the first unacknowledged frame; while a repair holds it, the replay waits for the repair's end
(R290, R298, R315). -/
def State.replay (s : State) (n : Nat) : State :=
  let k := (s.port n).link
  if k.replay = [] ∨ (s.port n).rep.stopped then s
  else
    let runs := if k.replayLimit ≤ k.replayRuns then 1 else k.replayRuns + 1
    let s := s.modLink n (fun k => { k with replays := satAdd 0xFFFF k.replays 1, replayRuns := runs })
    let s := s.span (ctPort n 0) 1
    k.replay.foldl (fun s f => s.sendFrame n (f.again k.ack)) s

/-! ### Lane failures (R296, R298, R300) -/

/-- Lane l of port n. -/
def State.lane (s : State) (n l : Nat) : Lane := tget (s.port n).rep.lanes {} l
/-- Lane l of port n changed by f. -/
def State.modLane (s : State) (n l : Nat) (f : Lane → Lane) : State :=
  s.modRep n (fun r => { r with lanes := tmod r.lanes {} l f })

/-- Whether the half of an 8-lane mode holds a lane that fails in either direction (R300). -/
def Port.halfBad (o : Port) (half : Nat) : Bool :=
  (List.range 8).any (fun i =>
    let l := 8 * half + i
    (tget o.rep.lanes {} l).failed || (match o.rep.txSwitch with | some (x, _) => x == l | none => false))

/-- A codeword number for SWITCH_CW: the next codewords of a lane, at most `ns` ahead; which of them is an open value (R286, R298,
R300). DESIGN CHOICE, log entry 4. -/
def State.switchCw (s : State) (n ns : Nat) : Nat × State :=
  let k := (s.port n).link
  let (r, s) := s.fresh 32
  ((k.codewords s.aoNs + 1 + r % (ns * 1000 / (20 * k.blockPs))) % 2 ^ 32, s)

/-- The port takes the 8-lane mode of its rate on a half without a failed lane, lanes 0 to 7 for choice, or retrains (R300). -/
def State.degradeWidth (s : State) (n l : Nat) : State :=
  let s := s.detect .linkWidthDegraded (srcPort n) [(1, n), (1, l)]
  let o := s.port n
  match ([0, 1] : List Nat).find? (fun h => !o.halfBad h && (o.link.mode % 2 == 0 || h == o.link.half)) with
  | some h =>
    let m := if o.link.mode < 2 then 1 else 3
    let (cw, s) := s.switchCw n 28000
    let s := s.modRep n (fun r => { r with stopped := true, widthReq := some (m, h, cw) })
    s.sendCtl n 11 0 (leBytes 1 m ++ leBytes 1 h ++ leBytes 1 0 ++ [0] ++ leBytes 4 cw)
  | none => (s.closeWindow .linkWidthDegraded (srcPort n)).retrain n

/-- A lane carries data while its port is in LINK_UP, unless it lies in the unused half or is replaced; the spare carries data
while it is in use (R296, R298, R300). -/
def Link.carries (k : Link) (l : Nat) : Bool :=
  if l = 16 then k.spareRx else (k.mode % 2 == 0 || l / 8 == k.half) && !(k.spareRx && k.sparedLane == l)
/-- Whether the failure of receive lane l is repaired: it carries data, or is being brought in as the spare (R297, R300, R315). DEDUCED,
log entry 71. -/
def Port.needs (o : Port) (l : Nat) : Bool := o.link.carries l || (l == 16 && o.rep.sparing.isSome)

/-- A receive lane fails: it is spared, or the port degrades to half its width, or it retrains. A second failure abandons the sparing
under way (R296, R298, R300, R315). -/
def State.laneFail (s : State) (n l cause : Nat) : State :=
  let o := s.port n
  if o.link.st ≠ .up ∨ (s.lane n l).failed then s
  else
    let s := s.modLane n l (fun x => { x with failed := true })
    if ¬ o.needs l then s
    else if o.link.spareEn ∧ ¬ o.link.spareRx ∧ o.rep.sparing = none then
      let s := s.detect .linkLaneSpared (srcPort n) [(1, n), (1, l)]
      (s.modRep n (fun r => { r with sparing := some l })).sendCtl n 8 0 (leBytes 1 l ++ leBytes 1 cause)
    else if o.rep.sparing.isSome then
      let s := s.modRep n (fun r => { r with sparing := none, rxSwitch := none, suspended := false })
      (s.closeWindow .linkLaneSpared (srcPort n)).degradeWidth n l
    else s.degradeWidth n l

/-! ### Arrivals (R289, R290) -/

/-- The one lane whose uncorrectable codewords identify it as the cause of a failing frame (R290). -/
def Port.guiltyLane (o : Port) : Option Nat :=
  match o.rep.lanes.filter (fun x => x.2.unc != 0 && !x.2.failed) with
  | [x] => some x.1
  | _ => none

end Sys2Proof.Machine
end

