-- ==== Sys2Proof/Machine/ReceiveOps.lean ====
section
/-!
DEFINITION. What the router does with a packet that a port delivers: failed packets (R351), malformed ones (R341), quarantine
(R327), the fence (R359), forwarding (R343, R352) and delivery; and the exit from DEEP_IDLE (R466).
-/
set_option autoImplicit false
namespace Sys2Proof.Machine

/-- The device leaves DEEP_IDLE: DRAM leaves self-refresh, and device time passes as R466 bounds it. -/
def State.deepExit (s : State) : State :=
  if s.pwr.deepIdle then
    let s := s.reach (s.aoNs + 60000)
    let s := { s with dram := { s.dram with selfRefresh := false } }
    s.modPwr (fun p => { p with deepIdle := false, idleFrom := s.aoNs })
  else s

/-- Whether a packet's KIND is allowed on its channel: COIN REPLYs and PROXY responses travel on C6, as their ADDR tells them
(R339, R413, R445). -/
def Packet.kindOk (p : Packet) : Bool :=
  let ch := p.channel
  match p.kind with
  | 0 | 1 => ch == 0
  | 2 => ch == (if fld p.addr 12 4 = 5 then 6 else 1)
  | 3 => ch == 1
  | 4 => ch == 2
  | 5 => ch == 3
  | 6 => ch == 4 || ch == 7
  | 7 => ch == 5
  | 8 | 9 => ch == 6
  | 10 => ch == (if bit p.addr 32 then 6 else 7)
  | _ => false

/-- Whether a KIND takes a seal (R339). -/
def sealOk (kind : Nat) : Bool := kind == 4 || kind == 5 || kind == 6 || kind == 8

/-- Whether a READ_REQ's payload follows R339. -/
def readReqOk (p : Packet) : Bool :=
  p.payload.length == 16 && fld (leAt p.payload 6 2) 0 16 == 0 && decide (1 ≤ fld (leAt p.payload 8 2) 0 14) &&
  decide (fld (leAt p.payload 8 2) 0 14 ≤ 8192) && fld (leAt p.payload 8 2) 14 2 == 0 && leAt p.payload 10 6 == 0

/-- Whether a LOCAL packet follows R358. -/
def localOk (p : Packet) : Bool :=
  (p.addr == 1 && p.payload.length == 64) ||
  (p.addr == 2 && p.payload.length == 32 && decide (leAt p.payload 4 1 ≤ 1))

/-- Whether a packet is malformed (R341, R358). -/
def Packet.malformed (p : Packet) : Bool :=
  decide (10 < p.kind) || !p.kindOk || (p.sealExt.isSome && !sealOk p.kind) ||
  (p.payload.isEmpty && (p.kind == 4 || p.kind == 5 || p.kind == 6 || p.kind == 8)) || !p.lenOk ||
  (p.kind == 7 && !readReqOk p) || (p.kind == 0 && !localOk p)

/-- The READ_ERR that answers a READ_REQ: cause 1 ADDRESS_FAULT, 2 FENCED, 3 LINK_ABSENT (R339). The answer to a fenced request is
not fenced (R359). -/
def State.readErr (s : State) (p : Packet) (cause : Nat) : State :=
  let ret := leAt p.payload 0 6
  let body := leBytes 1 cause ++ leBytes 2 (fld (leAt p.payload 8 2) 0 14) ++ List.replicate 13 0
  let r := s.packet 6 9 p.src ret body
  if cause = 2 then s.launchAnswer r else (s.inject r).2

/-- A READ_REQ that this device drops is answered (R352, R359); any other packet is not. -/
def State.answerDrop (s : State) (p : Packet) (cause : Nat) : State := if p.kind = 7 then s.readErr p cause else s

/-- A packet with FAILED and PMAP set and every payload unit poisoned; a seal it carries is discarded, and HCRC and the trailer are formed
anew (R340, R351). -/
def Packet.fail (p : Packet) : Packet :=
  { p with failed := true, sealExt := none, badHcrc := none, pmap := p.payload.isEmpty, poison := List.range ((p.payload.length + 63) / 64) }

/-- A packet received on port n, VC vc is handled by the router (R327, R341, R343, R352, R359). -/
def State.routeIn (s : State) (n vc : Nat) (p : Packet) : State :=
  if p.malformed then
    let s := s.freeBuffer n vc p
    s.badPacket.detectLimited .pktMalformed n (srcPort n) [(1, n)]
  else if ¬ s.active n ∧ ¬ (p.kind = 0 ∧ p.addr = 1) then
    (s.freeBuffer n vc p).modDisc n (fun d => { d with quarDropped := satAdd 0xFFFF d.quarDropped 1 }) |>.span (ctPort n 2) 1
  else if p.isLocal then s.modRtr (fun r => { r with inbox := r.inbox ++ [{ vc := vc, packet := p, held := some (n, vc) }] })
  else if p.channel ≠ 0 ∧ s.leavesSlice n then ((s.freeBuffer n vc p).fenced p false).answerDrop p 2
  else
    let s := s.moved
    if p.dest = s.here then
      s.modRtr (fun r => { r with inbox := r.inbox ++ [{ vc := vc, packet := p, held := some (n, vc) }] })
    else
      let (o, v) := s.nextHop p (some (n, vc))
      if p.channel ≠ 0 ∧ s.leavesSlice o then ((s.freeBuffer n vc p).fenced p true).answerDrop p 2
      else if ¬ s.active o then ((s.freeBuffer n vc p).dropNoPort o).answerDrop p 3
      else s.enqueue o { vc := v, packet := p, held := some (n, vc) }

/-- The ECC of the router's buffers on a packet: corrected, its payload units poisoned, or its header damaged (R499). -/
def State.bufferEcc (s : State) (p : Packet) : BufferEcc → Option Packet × State
  | .clean => (some p, s)
  | .corrected => (some p, (s.detect .fabricMemCorrected (srcBlock 0) []).span (ctDev 5) 1)
  | .payload us =>
    (some { p with poison := (List.range ((p.payload.length + 63) / 64)).filter (fun u => p.poison.contains u || us.contains u) },
      s.detect .fabricMemUncorrected (srcBlock 0) [])
  | .header => (none, (s.detect .fabricMemUncorrected (srcBlock 0) []).badPacket)

/-- What the router does with a packet of the link, failing or not: a failing one is dropped, or goes on poisoned (R290, R351). -/
def State.routerJudges (s : State) (n vc : Nat) (p : Packet) (failing : Bool) : State :=
  if ¬ failing then s.routeIn n vc p
  else if p.badHcrc.isSome ∨ p.channel = 0 ∨ p.channel = 1 ∨ p.channel = 5 then
    ((s.freeBuffer n vc p).modRtr (fun r => { r with failedDropped := satAdd 0xFFFF r.failedDropped 1 })).log .pktFailedDropped (srcPort n) [(1, n)]
  else
    let s := (s.modRtr (fun r => { r with failedDelivered := satAdd 0xFFFF r.failedDelivered 1 })).log .pktFailedPoisoned (srcPort n) [(1, n)]
    s.routeIn n vc p.fail

/-- A packet that the link accepts reaches the router through its buffer (R351). -/
def State.routerTakes (s : State) (n vc : Nat) (p : Packet) (failing : Bool) (mem : BufferEcc) : State :=
  let s := if p.channel = 0 then s else s.deepExit
  match s.bufferEcc p mem with
  | (none, s) => s.freeBuffer n vc p
  | (some p, s) => s.routerJudges n vc p failing

end Sys2Proof.Machine
end

