-- ==== Sys2Proof/Machine/Link.lean ====
section
/-!
DEFINITION. The commands of the Gnoem links (09_gnoem_link.md): frames received and sent, link states, lane repair,
equalisation and the time exchange.
-/
set_option autoImplicit false
namespace Sys2Proof.Machine

/-- A valid frame arrived on port n, with its tag's acknowledgement (R284, R292). -/
def State.validFrame (s : State) (n : Nat) (ack : Option Nat) : State :=
  (s.modLink n (fun k => { k with lastValid := s.aoNs })).acked n ack

/-- The frame is accepted in sequence and passed to the router (R289, R290). -/
def State.acceptFrame (s : State) (n vc : Nat) (p : Packet) (failing : Bool) (mem : BufferEcc) : State :=
  let s := s.modLink n (fun k =>
    { k with rxSeq := (k.rxSeq + 1) % 65536, rxAny := true, naked := false, failCount := 0,
             lastTraffic := if p.channel = 0 then k.lastTraffic else s.aoNs })
  (s.sendCtl n 1 0 []).routerTakes n vc p failing mem

/-- One NAK names the expected SEQ (R289). -/
def State.sendNak (s : State) (n cause : Nat) : State :=
  let k := (s.port n).link
  if k.naked then s
  else (s.modLink n (fun k => { k with naked := true })).sendCtl n 2 0 (leBytes 2 k.rxSeq ++ leBytes 1 cause)

/-- A PACKET frame arrives. Its first failing arrival is its transmission, and the later ones are its replays; after sparing the
count starts afresh with the next replay (R289, R290). DEDUCED, log entry 71. -/
def State.packetFrame (s : State) (n vc seq : Nat) (ack : Option Nat) (p : Packet) (fecOk crcOk : Bool) (mem : BufferEcc) : State :=
  if ¬ s.linkUp n then s
  else
    let s := s.validFrame n ack
    let k := (s.port n).link
    if seq ≠ k.rxSeq then s.sendNak n 1
    else if fecOk ∧ crcOk then s.acceptFrame n vc p false mem
    else if k.replayLimit < k.failCount then
      (s.detect .linkReplayExhausted (srcPort n) [(1, n)]).acceptFrame n vc p true mem
    else
      let fails := k.failCount + 1
      match if k.replayLimit < fails then (s.port n).guiltyLane else none with
      | some l => ((s.modLink n (fun k => { k with failCount := 1 })).sendNak n (if fecOk then 3 else 2)).laneFail n l 2
      | none => (s.modLink n (fun k => { k with failCount := fails, naked := false })).sendNak n (if fecOk then 3 else 2)

/-- ACK: a cumulative acknowledgement (R288, R290). -/
def execAck (n : Nat) (ack : Option Nat) (s : State) : Result :=
  .next (if s.linkUp n then s.validFrame n ack else s)

/-- NAK: replay, unless the SEQ is already covered (R290). -/
def execNak (n expected : Nat) (ack : Option Nat) (s : State) : Result :=
  .next (if s.linkUp n then
    let s := s.validFrame n ack
    if (s.port n).link.replay.any (Frame.hasSeq expected) then s.replay n else s
  else s)

/-- ACK_TIMEOUT: the acknowledgement deadline expires (R290, R292). -/
def execAckTimeout (n : Nat) (s : State) : Result := .next (if s.linkUp n then s.replay n else s)

/-- A received total is applied when it lies ahead of the total held (R291). -/
def creditStep (vc : Nat) (g : Tab Nat) (x : Nat × Nat) : Tab Nat :=
  let ix := vc * 8 + x.1
  let held := tget g 0 ix
  let d := (x.2 % 65536 + 65536 - held) % 65536
  if 0 < d ∧ d < 32768 then tset g 0 ix (x.2 % 65536) else g

/-- CREDIT: running totals of a VC (R291). -/
def execCredit (n vc : Nat) (totals : List Nat) (ack : Option Nat) (s : State) : Result :=
  .next (if s.linkUp n then
    let s := s.validFrame n ack
    let xs := ((List.range totals.length).zip totals).take 8
    (s.modLink n (fun k => { k with granted := xs.foldl (creditStep vc) k.granted })).pump n
  else s)

/-- CREDIT_QUERY is answered with CREDIT frames for both VCs (R291). -/
def execCreditQuery (n : Nat) (ack : Option Nat) (s : State) : Result :=
  .next (if s.linkUp n then
    let s := s.validFrame n ack
    (s.sendCtl n 3 0 ((s.port n).link.creditBody 0)).sendCtl n 3 1 ((s.port n).link.creditBody 1)
  else s)

/-- CREDIT_LATE: waiting traffic has seen no credit for 1 µs (R291). -/
def execCreditLate (n : Nat) (s : State) : Result :=
  let k := (s.port n).link
  let late := k.txq.filter (fun q => !decide (q.packet.units ≤ k.credit q.vc q.packet.channel))
  .next (if s.linkUp n ∧ late ≠ [] then
    let s := (s.modLink n (fun k => { k with creditLate := satAdd 0xFF k.creditLate 1 })).span (ctPort n 1) 1
    s.sendCtl n 4 0 (leBytes 1 (whichBits 8 (fun c => late.any (fun q => q.packet.channel == c))))
  else s)

/-- KEEPALIVE: a valid frame of the partner (R286, R292). DEDUCED, log entry 71. -/
def execKeepalive (n : Nat) (ack : Option Nat) (s : State) : Result :=
  .next (if s.linkUp n then s.validFrame n ack else s)

/-- KEEPALIVE_SEND: every 10 µs, with time and discovery state (R286, R292). DEDUCED, log entry 71. -/
def execKeepaliveSend (n : Nat) (s : State) : Result :=
  .next (if s.linkUp n then
    let s := s.modLink n (fun k => { k with kaCount := (k.kaCount + 1) % 2 ^ 32 })
    let depth := if s.time.tstate = 0 ∨ ¬ s.placed then 0xFF else s.time.depth
    s.sendCtl n 5 0 (leBytes 1 s.time.tstate ++ leBytes 1 depth ++ leBytes 1 (s.port n).disc.sentState ++ [0] ++
      leBytes 4 (s.port n).link.kaCount)
  else s)

/-- A discarded frame: a TAG_CRC error, a reserved TYPE or a BLOCKS value out of range. Where it stands for a PACKET frame it is an
error of the sequence (R285, R289). DESIGN CHOICE, log entry 80. -/
def State.badFrame (s : State) (n : Nat) (packet : Bool) : State :=
  if ¬ s.linkUp n then s
  else if packet then s.sendNak n 1
  else (s.modLink n (fun k => { k with badCtrl := satAdd 0xFF k.badCtrl 1 })).span (ctPort n 3) 1

/-- LINK_PARTNER_LOST: no valid frame for 30 µs (R293, R492). -/
def execLinkPartnerLost (n : Nat) (s : State) : Result :=
  .next (if s.linkUp n ∧ ¬ (s.port n).rep.suspended then
    let k := (s.port n).link
    let s := s.reach (k.lastValid + 30000)
    let s := s.detect .linkPartnerLost (srcPort n) [(1, n), (4, k.replay.length)]
    let s := (s.modUnit (UnitName.code ⟨.port, n⟩) (fun w => { w with faulted := true })).linkLeaves n .down
    s.closeWindow .linkPartnerLost (srcPort n)
  else s)

/-- SIGNAL_DETECT: the port starts TRAINING (R294). DESIGN CHOICE, log entry 14. -/
def execSignalDetect (n : Nat) (s : State) : Result :=
  let k := (s.port n).link
  .next (if n < 8 ∧ k.st = .down ∧ k.enable ∧ s.linksAllowed then s.train n else s)

/-- Both partners have asked for KEEPALIVE (R295). -/
def State.enterKeepalive (s : State) (n : Nat) : State :=
  let k := (s.port n).link
  if k.st = .up ∧ k.kaSent ∧ k.kaGot then s.modLink n (fun k => { k with st := .keepalive, kaSent := false, kaGot := false }) else s

/-- The port asks for KEEPALIVE (R295). -/
def State.askKeepalive (s : State) (n : Nat) : State :=
  if (s.port n).link.st = .up then ((s.sendCtl n 12 0 (leBytes 1 1)).modLink n (fun k => { k with kaSent := true })).enterKeepalive n else s

/-- The port asks for KEEPALIVE while FORCE_KEEPALIVE is 1 (R295, R312). -/
def State.heldKeepalive (s : State) (n : Nat) : State := if (s.port n).link.forceKa then s.askKeepalive n else s

/-- LINK_UP: training completes in a mode that was allowed when it began; the link starts fresh and discovery begins (R280, R287, R293,
R312, R324). `floors` gives the vertical floor of each lane (R302), and `calTx` and `calRx` the path delays (R304). -/
def execLinkUp (n mode half : Nat) (floors : List Nat) (calTx calRx : Nat) (s : State) : Result :=
  let k := (s.port n).link
  .next (if k.st = .training ∧ k.trainMode ≤ mode ∧ mode ≤ 3 then
    let s := s.modLink n (fun k =>
      { k.start with st := .up, mode := mode, half := if mode % 2 = 1 then half % 2 else 0, lastValid := s.aoNs, lastTraffic := s.aoNs,
                     cwFrom := s.aoNs, txBlock := 0 })
    let s := s.modRep n (fun r => { r with calTx := calTx, calRx := calRx })
    let lanes := (List.range 17).zip (floors ++ List.replicate 17 0)
    let s := lanes.foldl (fun (s : State) x => s.modLane n x.1 (fun _ => { floor := x.2 })) s
    let s := s.modUnit (UnitName.code ⟨.port, n⟩) (fun w => { w with faulted := false })
    (s.setDisc n .identifying 0).heldKeepalive n
  else s)

/-- TRAINING_TIMEOUT: training has not completed in 100 ms (R294). -/
def execTrainingTimeout (n : Nat) (s : State) : Result :=
  .next (if (s.port n).link.st = .training then
    let s := s.reach ((s.port n).rep.trainedAt + 100000000)
    (s.modLink n (fun k => { k with st := .down })).log .linkTrainFail (srcPort n) [(1, n)]
  else s)

/-- TRAINING_RETRY: 10 ms after a failure (R294). -/
def execTrainingRetry (n : Nat) (s : State) : Result :=
  let k := (s.port n).link
  .next (if n < 8 ∧ k.st = .down ∧ k.enable ∧ s.linksAllowed then s.train n else s)

/-- RETRAIN is written for port n (R294, R312). -/
def execRetrain (n : Nat) (s : State) : Result := .next (s.retrain n)

/-- FORCE_KEEPALIVE is written (R295, R312). -/
def execForceKeepalive (n : Nat) (v : Bool) (s : State) : Result :=
  let s := s.modLink n (fun k => { k with forceKa := v })
  .next (if v then s.askKeepalive n else s)

/-- KEEPALIVE_IDLE: no frame of a channel other than C0 for 10 ms, and no running slice crosses the port (R295). -/
def execKeepaliveIdle (n : Nat) (s : State) : Result :=
  .next (if (s.port n).link.st = .up ∧ ¬ (s.sliceLink n ∧ s.commandRuns) then
    (s.reach ((s.port n).link.lastTraffic + 10000000)).askKeepalive n
  else s)

/-- POWER: the partner asks to enter or to leave KEEPALIVE; `request` is the body's REQUEST byte (R286, R295). -/
def execPower (n request : Nat) (ack : Option Nat) (s : State) : Result :=
  .next (if s.linkUp n then
    let s := s.validFrame n ack
    let s := if bit request 0 ∧ (s.port n).link.st = .up then
        let s := s.modLink n (fun k => { k with kaGot := true })
        (if bit request 2 then s else s.sendCtl n 12 0 (leBytes 1 4)).enterKeepalive n
      else s
    if bit request 1 ∧ ¬ bit request 2 ∧ (s.port n).link.st = .keepalive then s.sendCtl n 12 0 (leBytes 1 6) else s
  else s)

/-- KEEPALIVE_EXIT: the idle lanes have retrained (R295). -/
def execKeepaliveExit (n : Nat) (s : State) : Result :=
  .next (if (s.port n).link.st = .keepalive then
    ((s.modLink n (fun k => { k with st := .up, kaSent := false, kaGot := false, lastTraffic := s.aoNs })).pump n).heldKeepalive n
  else s)

/-- What one lane's sample reports (R302). -/
def Lane.sample (x : Lane) (v h : Nat) (ser : W32) (corr unc : Nat) : Lane :=
  let high := (FV.of 0x3951B717#32).val.lt (FV.of ser).val
  { x with veye := v, heye := h, ser := ser, corr := corr, unc := unc, highSer := if high then x.highSer + 1 else 0,
           lowMargin := if v < x.floor then x.lowMargin + 1 else 0 }

/-- One lane's sample is taken, and a lane that meets a condition of R296 fails (R296, R302). -/
def State.laneSample (s : State) (n l v h : Nat) (ser : W32) (corr unc : Nat) : State :=
  let s := s.modLane n l (fun x => x.sample v h ser corr unc)
  let s := ((s.span (ctLane n l 0) corr).span (ctLane n l 1) unc).spanMin (ctLane n l 2) v
  let s := s.spanMin (ctLane n l 3) h
  let x := s.lane n l
  let s := if x.lowMargin = 100 ∧ ¬ x.marginLogged then
      (s.modLane n l (fun x => { x with marginLogged := true })).log .linkMarginLow (srcPort n) [(1, n), (1, l)]
    else s
  if x.failed then s
  else if (s.port n).link.laneFailUnc ≤ unc then s.laneFail n l 2
  else if 3 ≤ x.highSer then s.laneFail n l 3
  else s

/-- LANE_SAMPLE: the millisecond sample of a port's lanes: lane, openings, symbol error ratio, corrected symbols and
uncorrectable codewords (R302). -/
def execLaneSample (n : Nat) (xs : List (Nat × Nat × Nat × W32 × Nat × Nat)) (s : State) : Result :=
  .next (xs.foldl (fun (s : State) x =>
    if x.1 < 17 ∧ (s.port n).link.st = .up then s.laneSample n x.1 x.2.1 x.2.2.1 x.2.2.2.1 x.2.2.2.2.1 x.2.2.2.2.2 else s) s)

/-- LANE_FAIL: a receive lane fails; cause 1 block lock lost, 2 uncorrectable codewords, 3 symbol error ratio (R296,
R298, R300). -/
def execLaneFail (n l cause : Nat) (s : State) : Result := .next (s.laneFail n l cause)

/-- SPARE_REQ: the transmitter stops new frames and names its switching boundary (R298). DESIGN CHOICE, log entry 4. -/
def execSpareReq (n l : Nat) (ack : Option Nat) (s : State) : Result :=
  .next (if s.linkUp n then
    let s := s.validFrame n ack
    let (cw, s) := s.switchCw n 1000
    let s := s.modRep n (fun r => { r with stopped := true, txSwitch := some (l, cw) })
    s.sendCtl n 9 0 (leBytes 1 l ++ [0, 0, 0] ++ leBytes 4 cw)
  else s)

/-- SPARE_ACK: the receiver learns the switching boundary (R298). -/
def execSpareAck (n l cw : Nat) (ack : Option Nat) (s : State) : Result :=
  .next (if s.linkUp n then
    let s := s.validFrame n ack
    if (s.port n).rep.sparing = some l then s.modRep n (fun r => { r with rxSwitch := some (l, cw) }) else s
  else s)

/-- AO time reaches the end of the codeword that a switch names (R286, R298, R300). -/
def State.reachCw (s : State) (n cw : Nat) : State := s.reach ((s.port n).link.boundary s.aoNs cw)

/-- SPARE_SWITCH: at the boundary the spare takes over the lane; the receiver's partner-lost timer is suspended
(R298). -/
def execSpareSwitch (n : Nat) (s : State) : Result :=
  let r := (s.port n).rep
  let s := match r.txSwitch with
    | some (_, cw) => if (s.port n).link.spareTx then s else (s.reachCw n cw).modLink n (fun k => { k with spareTx := true })
    | none => s
  .next (match r.rxSwitch with
    | some (_, cw) => (s.reachCw n cw).modRep n (fun r => { r with suspended := true })
    | none => s)

/-- SPARING_DONE: the spare is locked and deskewed, replay runs and traffic flows (R298, R494). -/
def execSparingDone (n : Nat) (s : State) : Result :=
  let r := (s.port n).rep
  let s := match r.rxSwitch with
    | some (l, _) =>
      let s := s.modLink n (fun k => { k with spareRx := true, sparedLane := l })
      let s := s.modRep n (fun r => { r with sparing := none, rxSwitch := none, suspended := false })
      (s.closeWindow .linkLaneSpared (srcPort n)).total 13 1
    | none => s
  .next (if r.txSwitch.isSome ∧ (s.port n).link.spareTx ∧ r.stopped then
    ((s.modRep n (fun r => { r with stopped := false })).replay n).pump n
  else s)

/-- SPARING_TIMEOUT: sparing has not completed within 25 µs (R299). -/
def execSparingTimeout (n : Nat) (s : State) : Result :=
  .next (if (s.port n).rep.sparing.isSome then (s.closeWindow .linkLaneSpared (srcPort n)).retrain n else s)

/-- WIDTH: a request is acknowledged with this end's boundary; an acknowledgement is recorded (R300). DESIGN CHOICE, log entry 4. -/
def execWidth (n mode half : Nat) (isAck : Bool) (cw : Nat) (ack : Option Nat) (s : State) : Result :=
  .next (if s.linkUp n ∧ (mode = 1 ∨ mode = 3) then
    let s := s.validFrame n ack
    if isAck then
      s.modRep n (fun r => { r with widthReq := some (mode, half % 2, cw) })
    else
      let (mine, s) := s.switchCw n 28000
      let s := s.modRep n (fun r => { r with stopped := true, widthReq := some (mode, half % 2, cw) })
      s.sendCtl n 11 0 (leBytes 1 mode ++ leBytes 1 (half % 2) ++ leBytes 1 1 ++ [0] ++ leBytes 4 mine)
  else s)

/-- WIDTH_SWITCH: at the boundary only the kept half carries blocks, and traffic resumes (R300, R494). -/
def execWidthSwitch (n : Nat) (s : State) : Result :=
  match (s.port n).rep.widthReq with
  | some (m, h, cw) =>
    let s := (s.reachCw n cw).modLink n (fun k => { k with mode := m, half := h })
    let s := s.modRep n (fun r => { r with stopped := false, widthReq := none })
    .next (((s.closeWindow .linkWidthDegraded (srcPort n)).replay n).pump n)
  | none => .next s

/-- A tap moves by one step. -/
def tapStep (t : Tab Int) (tap : Nat) (up : Bool) : Tab Int := tmod t 0 tap (fun x => if up then x + 1 else x - 1)
/-- AO time reaches the instant from which a tap, last stepped as `t` says, may be stepped again: 100 µs later (R301). -/
def State.reachTap (s : State) (t : Tab Nat) (tap : Nat) : State :=
  match tget t 0 tap with | 0 => s | x + 1 => s.reach (x + 100000)

/-- EQ: a request to move a transmitter tap is answered, after it has moved or stands at its limit, which is an open value. A request
that comes early waits until the tap may move. A reply changes nothing here (R286, R301). DESIGN CHOICE, log entry 4. -/
def execEq (n l request tap : Nat) (ack : Option Nat) (s : State) : Result :=
  .next (if s.linkUp n then
    let s := s.validFrame n ack
    if bit request 7 then s
    else
      let reply (s : State) (r : Nat) : State := s.sendCtl n 10 0 (leBytes 1 l ++ leBytes 1 (request + 128) ++ leBytes 1 tap ++ leBytes 1 r)
      if 16 < l ∨ 3 < tap ∨ 3 < request then reply s 2
      else if request = 1 ∨ request = 2 then
        let s := s.reachTap (s.lane n l).tapAt tap
        let (lim, s) := s.fresh 1
        if lim = 1 then reply s 1
        else reply (s.modLane n l (fun x => { x with taps := tapStep x.taps tap (request == 1), tapAt := tset x.tapAt 0 tap (s.aoNs + 1) })) 0
      else reply s 0
  else s)

/-- EQ_STEP: the loop moves a tap of the lane's receiver equaliser (`own`), or asks the partner to move a transmitter tap; each tap
moves by at most one step per 100 µs (R301). DESIGN CHOICE, log entry 80. -/
def execEqStep (n l tap : Nat) (up own : Bool) (s : State) : Result :=
  .next (if s.linkUp n ∧ l ≤ 16 ∧ (own ∨ tap ≤ 3) then
    if own then
      let s := s.reachTap (s.lane n l).rxAt tap
      s.modLane n l (fun x => { x with rxEq := tapStep x.rxEq tap up, rxAt := tset x.rxAt 0 tap (s.aoNs + 1) })
    else
      let s := s.reachTap (s.lane n l).askAt tap
      (s.modLane n l (fun x => { x with askAt := tset x.askAt 0 tap (s.aoNs + 1) })).sendCtl n 10 0
        (leBytes 1 l ++ leBytes 1 (if up then 1 else 2) ++ leBytes 1 tap)
  else s)

/-! ### The time base (R303 to R309) -/

/-- Device time in 1/16 ns, modulo 2^64, at an instant of AO time in 1/16 ns that is not past, and the state at that instant
(R286, R304). -/
def State.stamp (s : State) (at16 : Nat) : Nat × State :=
  let x := max at16 (16 * s.aoNs)
  ((s.timeAt 16 x % 2 ^ 64).toNat, s.reach (x / 16))

/-- Device time in 1/16 ns (R304). -/
def State.now16 (s : State) : Nat := (s.stamp 0).1

/-- Whether a repair of port n is under way, in which exchanges are skipped (R315). -/
def Port.repairs (o : Port) : Bool := o.rep.stopped || o.rep.sparing.isSome

/-- TIME_EXCHANGE: the child sends TIME_REQ on its parent port. Its first block crosses the serialiser at `at16`, and the time stamp
is corrected by the path delay (R304, R315, R325). DESIGN CHOICE, log entry 80. -/
def execTimeExchange (at16 : Nat) (s : State) : Result :=
  .next (let n := s.time.parent
  if ¬ s.time.root ∧ s.active n ∧ ¬ (s.port n).repairs then
    let e := (s.port n).rep.exchange
    let (t1, s) := s.stamp at16
    let s := s.modRep n (fun r => { r with exchange := (e + 1) % 65536, t1 := some (t1 + r.calTx) })
    s.sendCtl n 6 0 (leBytes 2 e)
  else s)

/-- TIME_REQ: the parent answers with T2 and T3, which are its times at the instants `at16` and `send16` (R304, R315, R325). DESIGN CHOICE, log entry 80. -/
def execTimeReq (n exchange at16 send16 : Nat) (ack : Option Nat) (s : State) : Result :=
  .next (if s.linkUp n then
    let s := s.validFrame n ack
    if s.active n ∧ ¬ (s.port n).repairs then
      let (t2, s) := s.stamp at16
      let (t3, s) := s.stamp send16
      let r := (s.port n).rep
      s.sendCtl n 7 0 (leBytes 2 exchange ++ leBytes 1 s.time.tstate ++ leBytes 1 s.time.depth ++ List.replicate 4 0 ++
        leBytes 8 ((t2 + 2 ^ 64 - r.calRx) % 2 ^ 64) ++ leBytes 8 ((t3 + r.calTx) % 2 ^ 64))
    else s
  else s)

/-- The servo after an exchange: the filter, the slew that it gives (an open value within ±200 ppm) and LOCKED
(R305). DESIGN CHOICE, log entry 4. -/
def State.servo (s : State) (offset : Int) : State :=
  let (r, s) := s.fresh 64
  let good := if offset.natAbs < 32 then s.time.good + 1 else 0
  let s := (s.slewAt (Int.ofNat (r % 400001) - 200000)).modTime (fun t => { t with filter := keepLast 256 (t.filter ++ [offset]), good := good })
  if 16 ≤ good ∧ s.time.tstate = 1 then (s.modTime (fun t => { t with tstate := 2 })).log .timeLocked (srcBlock 7) [] else s

/-- The difference of two times modulo 2^64, the nearer way. -/
def timeDiff (a b : Nat) : Int := (Int.ofNat a - Int.ofNat b + 2 ^ 63) % 2 ^ 64 - 2 ^ 63

/-- TIME_RSP arrives at the instant `at16`; T2 and T3 are in 1/16 ns: offset and delay, the one setting of device time, or the servo
(R304 to R306, R315, R325). -/
def execTimeRsp (n exchange t2 t3 at16 : Nat) (ack : Option Nat) (s : State) : Result :=
  .next (if s.linkUp n then
    let s := s.validFrame n ack
    let r := (s.port n).rep
    match r.t1 with
    | none => s
    | some t1 =>
      if exchange ≠ (r.exchange + 65535) % 65536 ∨ n ≠ s.time.parent ∨ s.time.root ∨ ¬ s.active n ∨ (s.port n).repairs then s
      else
        let (now, s) := s.stamp at16
        let t4 := (now + 2 ^ 64 - r.calRx) % 2 ^ 64
        let d1 := timeDiff t2 t1
        let d2 := timeDiff t4 t3
        let offset := (d1 - d2) / 2
        let delay := (d1 + d2) / 2
        let s := s.modRep n (fun r => { r with t1 := none })
        let s := s.modLink n (fun k => { k with delayNs := ((delay.toNat + 8) / 16) % 65536 })
        let ps := offset * 125 / 2
        let s := s.modTime (fun t => { t with offsetPs := max (-2147483647) (min 2147483647 ps) })
        if s.time.isSet then s.servo offset
        else
          let step := (timeDiff t3 t4 + delay) / 16
          if s.commandRuns then s.modTime (fun t => { t with wait := some step }) else s.setTime step
  else s)

/-! ### Frames that arrive (R284 to R290) -/

/-- PACKET_FRAME: the blocks of a frame arrive on port n, with the decoder's verdict and what the buffers' ECC reports on its packet.
A frame of another TYPE has the effect of its own command (R283 to R290, R499). DESIGN CHOICE, log entry 72. DESIGN CHOICE, log entry 80. -/
def execPacketFrame (n : Nat) (blocks : List Block) (fecOk : Bool) (mem : BufferEcc) (s : State) : Result :=
  match readFrame blocks with
  | .bad packet => .next (s.badFrame n packet)
  | .frame (.packet vc seq ack p) crcOk => .next (s.packetFrame n vc seq ack p fecOk crcOk mem)
  | .frame (.control type vc ack b) _ =>
    if ¬ fecOk then .next s
    else match type with
      | 1 => execAck n ack s
      | 2 => execNak n (leAt b 0 2) ack s
      | 3 => execCredit n vc ((List.range 8).map (fun i => leAt b (2 * i) 2)) ack s
      | 4 => execCreditQuery n ack s
      | 5 => execKeepalive n ack s
      | 6 => execTimeReq n (leAt b 0 2) 0 0 ack s
      | 7 => execTimeRsp n (leAt b 0 2) (leAt b 8 8) (leAt b 16 8) 0 ack s
      | 8 => execSpareReq n (leAt b 0 1) ack s
      | 9 => execSpareAck n (leAt b 0 1) (leAt b 4 4) ack s
      | 10 => execEq n (leAt b 0 1) (leAt b 1 1) (leAt b 2 1) ack s
      | 11 => execWidth n (leAt b 0 1) (leAt b 1 1) (leAt b 2 1 == 1) (leAt b 4 4) ack s
      | _ => execPower n (leAt b 0 1) ack s

end Sys2Proof.Machine
end

