-- ==== Sys2Proof/Machine/Flags.lean ====
section
/-!
DEFINITION. The flag registers of a core (R128 to R131) as its sequencer reads and writes them.
-/
set_option autoImplicit false
namespace Sys2Proof.Machine

/-- TE_FLAGS of core p (R130). -/
def State.teFlagsWord (s : State) (p : Nat) : Nat := (s.core p).teFlags.toNat
/-- A write to TE_FLAGS clears the flags whose bits are 1; a flag that was raised in the same CCLK stays 1 (R130, R131). -/
def State.clearTeFlags (s : State) (p v : Nat) : State :=
  s.modCore p (fun k =>
    { k with teFlags := (k.teFlags.clearBits v).or (if k.raisedAt = (s.cluster (p / 12)).seq.cycles + 1 then k.raisedNow else {}) })
/-- TE_LAYER_FLAGS of core p (R130). -/
def State.layerFlagsWord (s : State) (p : Nat) : Nat := (s.core p).layerFlags.toNat
/-- Rows that TE_EMPTY_ROWS of core p counted in the present CCLK (R131). -/
def State.emptyJust (s : State) (p : Nat) : Nat :=
  if (s.core p).emptyAt = (s.cluster (p / 12)).seq.cycles + 1 then min (s.core p).emptyNow (s.core p).emptyRows else 0
/-- A read of TE_EMPTY_ROWS answers the count without the rows of the present CCLK, which it then holds (R130, R131). -/
def State.readEmptyRows (s : State) (p : Nat) : Nat × State :=
  ((s.core p).emptyRows - s.emptyJust p, s.modCore p (fun k => { k with emptyRows := s.emptyJust p, emptyNow := s.emptyJust p }))

end Sys2Proof.Machine
end

