-- ==== Sys2Proof/Machine/MemoryOps.lean ====
section
/-!
DEFINITION. What the ECC of vaults and DRAM reports, and what follows: correction counts, poison, spare banks, erasure mode, row
repair and the loss of a channel (R190, R191, R200, R206 to R210, R215).
-/
set_option autoImplicit false
namespace Sys2Proof.Machine

/-- A REPAIR record: kind (1 vault bank, 2 soft repair, 3 erasure device), unit, bank or row, device (R535). DESIGN CHOICE, log entry 19. -/
def repairBytes (kind unit place device : Nat) : List Byte :=
  leBytes 1 kind ++ [0] ++ leBytes 2 unit ++ leBytes 4 place ++ leBytes 1 device ++ List.replicate 7 0

/-! ### Vaults (R187, R190, R191) -/

/-- The unit that owns a vault. -/
def VaultName.unit : VaultName → UnitName
  | .core p => coreName p
  | .cluster c => clusterName c
/-- Cluster of a vault. -/
def VaultName.clusterOf : VaultName → Nat
  | .core p => p / 12
  | .cluster c => c
/-- The scrub and spare state of a vault. -/
def State.vault (s : State) : VaultName → VaultState
  | .core p => (s.core p).vault
  | .cluster c => (s.cluster c).vault
/-- That state changed by f. -/
def State.modVault (s : State) (v : VaultName) (f : VaultState → VaultState) : State :=
  match v with
  | .core p => s.modCore p (fun k => { k with vault := f k.vault })
  | .cluster c => s.modCluster c (fun k => { k with vault := f k.vault })
/-- Bank of a local address within its vault (R187). -/
def VaultName.bank (v : VaultName) (a : Nat) : Nat :=
  match v with
  | .core p => (a - (coreVaultBase + p * coreVaultSlot)) / 64 % 32
  | .cluster c => (a - (clusterVaultBase + c * clusterVaultSize)) / 64 % 64

/-- Work on a contained core or cluster ends POISONED (R191, R492, R494). -/
def State.poisonWork (s : State) : VaultName → State
  | .core p => s.spoil p .poisoned
  | .cluster c => s.haltSeq c .poisoned 0

/-- A bank fails: it is copied into the spare bank, or its vault's owner is contained (R191, R499). -/
def State.bankFails (s : State) (v : VaultName) (bank : Nat) : State :=
  let x := s.vault v
  if x.copying = some bank then s
  else match x.spared with
    | none =>
      let s := s.detect .vaultBankSpared v.unit.code [(1, bank)]
      (s.modVault v (fun x => { x with spared := some bank, copying := some bank, corrected := tset x.corrected 0 bank 0 })).ledgerAppend
        0x0008 (repairBytes 1 v.unit.code bank 0)
    | some _ =>
      let s := s.detect .vaultSpareExhausted v.unit.code [(1, bank)]
      let s := (s.contain v.unit).poisonWork v
      (s.modVault v (fun x => { x with corrected := tset x.corrected 0 bank 0 })).closeWindow .vaultSpareExhausted v.unit.code

/-- A single-bit error of a vault word is corrected and counted (R190, R191). -/
def State.vaultCorrectedAt (s : State) (v : VaultName) (a : Nat) : State :=
  let b := v.bank a
  let s := (s.total 11 1).span (ctClu v.clusterOf 7) 1
  let s := s.detectLimited .vaultCorrected v.unit.code v.unit.code [(8, a)]
  let s := s.modVault v (fun x => { x with corrected := tmod x.corrected 0 b (· + 1) })
  if 8 < tget (s.vault v).corrected 0 b then s.bankFails v b else s

/-- A double-bit error poisons its unit and fails its bank; a unit that is already poisoned reads quietly (R190, R191). -/
def State.vaultLostAt (s : State) (v : VaultName) (a : Nat) : State :=
  if s.mem.poisoned a then s
  else
    let s := { s with mem := s.mem.mark a }
    (s.detect .vaultUncorrected v.unit.code [(8, a)]).bankFails v (v.bank a)

/-! ### DRAM (R200, R206 to R210) -/

/-- Rank, bank and row of a line as one number (R207). DESIGN CHOICE, log entry 32. -/
def rowName (n off : Nat) : Nat :=
  let (r, b, w, _) := Config.dramLocation n off
  (r % 256 * 256 + b % 256) * 2 ^ 32 + w % 2 ^ 32

/-- A row joins the repair candidates of its channel (R210). -/
def State.candidate (s : State) (n row : Nat) : State :=
  s.modChannel n (fun c => if c.pprList.contains row then c else { c with pprList := c.pprList ++ [row] })

/-- A channel enters erasure mode for a device (R208). -/
def State.erase (s : State) (n device : Nat) : State :=
  let s := s.modChannel n (fun c => { c with st := 2, erased := device, erasing := true })
  let s := s.detect .dramErasure (srcDdr n) [(1, n), (1, device)]
  (s.ledgerAppend 0x0008 (repairBytes 3 (srcDdr n) 0 device)).closeWindow .dramErasure (srcDdr n)

/-- The distinct lines of a channel with a corrected error in one device, in the patrol period (R205, R208). -/
def Channel.lines (c : Channel) (device : Nat) : Nat := (c.corrected.filter (fun x => x.1 == device)).length

/-- A line with an error confined to one device (R207, R208, R210). DESIGN CHOICE, log entry 32. -/
def State.dramCorrectedAt (s : State) (a device : Nat) : State :=
  let (n, off) := s.dram.locate a
  let row := rowName n off
  let s := (s.total 9 1).span (ctDimm n 4) 1
  let s := s.modChannel n (fun c => { c with
    corrected := if c.corrected.contains (device, off / 64) then c.corrected else c.corrected ++ [(device, off / 64)], rowErrs := tmod c.rowErrs 0 row (· + 1), unlogged := c.unlogged + 1 })
  let before := s.err.total
  let s := s.detectLimited .dramCorrected n (srcDdr n) [(4, (s.channel n).unlogged)]
  let s := if s.err.total = before then s else s.modChannel n (fun c => { c with unlogged := 0 })
  let s := if s.dram.pprThresh ≠ 0 ∧ s.dram.pprThresh ≤ tget (s.channel n).rowErrs 0 row then s.candidate n row else s
  if (s.channel n).st = 1 ∧ s.dram.eraseThresh ≤ (s.channel n).lines device then s.erase n device else s

/-- An uncorrectable line (R207, R210): poisoned, logged and counted once. DESIGN CHOICE, log entry 32. -/
def State.dramLostAt (s : State) (a : Nat) : State :=
  if s.poisonAt a then s
  else
    let (n, off) := s.dram.locate a
    let (r, b, w, col) := Config.dramLocation n off
    let s := { s with mem := s.mem.mark a }
    let s := (s.total 10 1).span (ctDimm n 5) 1
    let s := s.modChannel n (fun c => { c with uncorrected := satAdd 0xFFFF c.uncorrected 1 })
    let s := s.detectWith .dramUncorrected (srcDdr n)
      (padTo 16 (leBytes 1 n ++ leBytes 1 r ++ leBytes 1 b ++ [0] ++ leBytes 4 w ++ leBytes 2 col))
    s.candidate n (rowName n off)

/-- A channel is lost at run time (R200, R246, R492). -/
def State.loseChannel (s : State) (n : Nat) : State :=
  if (s.channel n).st = 1 ∨ (s.channel n).st = 2 then
    let s := s.detect .dramChannelLost (srcDdr n) [(1, n)]
    let s := s.modChannel n (fun c => { c with st := 3 })
    ((s.contain ⟨.ddr, n⟩).contain ⟨.engine, n⟩).closeWindow .dramChannelLost (srcDdr n)
  else s

/-- An error confined to one device. In erasure mode the erased device's bits are no error, a further single-bit error is
corrected, and any other error in a second device is uncorrectable (R207, R208). -/
def State.dramErrorAt (s : State) (a device : Nat) (single : Bool) : State :=
  let c := s.channel (s.dram.locate a).1
  if c.st ≠ 2 then s.dramCorrectedAt a device
  else if device = c.erased then s
  else if single then s.dramCorrectedAt a device
  else s.dramLostAt a

/-! ### Any storage -/

/-- What the ECC reported of a read at a local physical address takes effect (R190, R207). DEDUCED, log entry 34. -/
def State.ecc (s : State) (x : Nat × EccResult) : State :=
  match regionOf s.dram.top x.1 1, x.2 with
  | _, .clean => s
  | .dram, .corrected d single => if s.lostAt x.1 then s else s.dramErrorAt x.1 d single
  | .dram, .uncorrectable => if s.lostAt x.1 then s else s.dramLostAt x.1
  | .coreVault p, .corrected _ _ => s.vaultCorrectedAt (.core p) x.1
  | .coreVault p, .uncorrectable => s.vaultLostAt (.core p) x.1
  | .clusterVault c, .corrected _ _ => s.vaultCorrectedAt (.cluster c) x.1
  | .clusterVault c, .uncorrectable => s.vaultLostAt (.cluster c) x.1
  | .other, _ => s

/-- Every report of a command. DEDUCED, log entry 34. -/
def State.eccAll (s : State) (xs : List (Nat × EccResult)) : State := xs.foldl State.ecc s

end Sys2Proof.Machine
end

