-- ==== Sys2Proof/Machine/Seq.lean ====
section
/-!
DEFINITION. What a sequencer does (05_program_model.md): stores to core windows, layer starts and waits, the sequence table, the
loss service, timers, the completion word, faults and debug halts.
-/
set_option autoImplicit false
namespace Sys2Proof.Machine

/-! ### Shared operations -/

/-- The sequencer of cluster c has come to the instruction of a command (R158). DESIGN CHOICE, log entry 11. -/
def State.tick (s : State) (c : Nat) (t : Tick) : State :=
  let s := (s.advance c t.cclk).modSeq c (fun q => { q with retired := q.retired + t.instrs, pc := t.pc % 2 ^ 18 })
  s.each (List.range t.fixed) (fun s _ => s.detect .seqMemCorrected (srcCluster c) [])

/-- The sequencer of cluster c reads an uncorrectable word of IMEM or DMEM: it halts and its cluster is contained and reset
(R159, R492, R499). DESIGN CHOICE, log entry 62. -/
def State.seqMemLost (s : State) (c : Nat) : State :=
  let s := s.detect .seqMemUncorrected (srcCluster c) []
  let s := (s.haltSeq c .poisoned 5).contain (clusterName c)
  let (flushed, s) := s.flushCrossings (· == c)
  let (entries, coins, s) := s.resetCluster c true
  let s := s.resetEvent 5 (srcCluster c) false entries coins flushed
  s.closeWindow .seqMemUncorrected (srcCluster c)

/-- Whether the IMEM unit that cluster c's PC lies in holds poisoned data (R159, R213). -/
def State.fetchLost (s : State) (c : Nat) : Bool := (s.cluster c).seq.imemBad.contains ((s.cluster c).seq.pc / 64)

/-- f, if cluster c's sequencer is RUNNING, waits neither at a point barrier nor at the layer boundary of a device-wide
pre-emption, and has a clock: only then does it issue an instruction. A poisoned instruction halts it (R157, R159, R213, R455, R456,
R497, R499). -/
def State.onSeq (s : State) (c : Nat) (t : Tick) (f : State → State) : State :=
  if c < 8 ∧ (s.cluster c).seq.st = .running ∧ ¬ s.col.pointWait ∧ ¬ (s.cluster c).clock.stopped ∧
    ¬ (s.stopsDevice ∧ ¬ s.layersRun c) then
    (if (s.tick c t).fetchLost c then (s.tick c t).seqMemLost c else f (s.tick c t))
  else s

/-- A store to a configuration register is on its way to core p; two that retire together collide (R162, R178, R181). -/
def State.sendCfg (s : State) (c p word : Nat) (v : W64) : State :=
  let now := (s.cluster c).seq.cycles
  let hit := (s.cluster c).seq.cfg.any (fun w => w.core == p && w.word == word && w.land == now + 6)
  let s := s.modSeq c (fun q => { q with cfg := q.cfg ++ [{ land := now + 6, issue := now, core := p, word := word, val := v }] })
  if hit then s.hazard c 2 p (0x40 + word) 0 6 0 else s

/-- GO reads the configuration registers of core p: a store that has not retired makes a stale read (R178, R181). DEDUCED, log entry 55. -/
def State.goReads (s : State) (c p : Nat) : State :=
  let now := (s.cluster c).seq.cycles
  let late := ((s.cluster c).seq.cfg.filter (fun w => w.core == p)).mergeSort (fun a b => decide (a.word ≤ b.word))
  late.foldl (fun s w => s.hazard c 1 p (0x40 + w.word) (now - w.issue) 6 0) s

/-- The first core of a list whose LCB the load checks refuse, with the status (R170). -/
def State.firstRefused (s : State) (c : Nat) (ps : List Nat) : Option Status :=
  ps.findSome? (fun p => lcbCheck s c p (s.latched p))

/-- A start refused under R163 for a target whose first core is named by the event. -/
def State.refuse (s : State) (c : Nat) (ps : List Nat) (st : Status) : State := s.refuseStart c ps st ps.head?

/-- Steps 2 to 6 of R163 on the cores `ps` of a core or broadcast window. DESIGN CHOICE, log entry 58. -/
def State.startOn (s : State) (c : Nat) (broadcast : Bool) (ps : List Nat) (buffers : List Nat) (ahead : List (Nat × Nat)) : State :=
  match s.firstRefused c ps with
  | some st => s.refuse c ps st
  | none =>
    let go (s : State) (qs : List Nat) : State :=
      (s.tryStart c { cores := qs, broadcast := broadcast, pc := (s.cluster c).seq.pc, lcbs := qs.map s.latched, buffers := buffers, ahead := ahead }).2
    if broadcast then
      match ps.filter s.admits with
      | [] => s.refuse c ps .denied
      | qs => go s qs
    else match ps with
      | p :: _ => match s.permitCore p (s.latched p) with
        | some st => s.refuse c ps st
        | none => go s ps
      | [] => s

/-! ### Stores and layers (R162 to R165) -/

/-- LCB_STORE: a store of 8 bytes at word `word` of a core or broadcast window; word 66 of a core window is TE_FLAGS
(R130, R161, R162, R178). -/
def execLcbStore (c : Nat) (t : Tick) (target : Target) (word : Nat) (v : W64) (s : State) : Result :=
  .next (s.onSeq c t (fun s =>
    if word < 64 then (s.addressed c target).foldl (fun s p => s.sendCfg c p word v) s
    else match target with
      | .core _ | .logical _ => if word = 66 then (s.addressed c target).foldl (fun s p => s.clearTeFlags p v.toNat) s else s
      | _ => s))

/-- A start on a logical core number that the grade does not have (R107, R110). -/
def State.refuseLogical (s : State) (c n : Nat) : State := (s.absentEvent c n false).haltSeq c .unitAbsent 6

/-- LAYER_START: a write of 1 to GO. `buffers` are the landing buffers that the layer consumes, `ahead` the JIT_GATHER
entries of the layers that follow, with their distance, `ecc` what the storage reports of the fills that begin. A command that is told to stop starts no further layer
(R163, R165, R190, R207, R388). -/
def execLayerStart (c : Nat) (t : Tick) (target : Target) (buffers : List Nat) (ahead : List (Nat × Nat))
    (ecc : List (Nat × EccResult)) (s : State) : Result :=
  .next (s.onSeq c t (fun s =>
    let s := (s.addressed c target).foldl (fun s p => s.goReads c p) (s.eccAll ecc)
    if ¬ (s.cluster c).seq.active ∨ (s.cluster c).seq.stop then s
    else match (match target with | .logical n => if (s.physOf n).isNone then some n else none | _ => none) with
    | some n => s.refuseLogical c n
    | none => match s.reached c target with
      | [] => if target.isBroadcast ∧ ¬ s.noMatrix c target then s.refuse c [] .denied else s
      | ps => s.startOn c target.isBroadcast ps buffers ahead))

/-- LAYER_WAIT: the sequencer waits for the masked cores (R164). -/
def execLayerWait (c : Nat) (t : Tick) (mask : Nat) (s : State) : Result :=
  .next (s.onSeq c t (fun s =>
    let s := s.modSeq c (fun q => { q with layerMask := mask % 4096 })
    if s.idleMask c (mask % 4096) then s else s.modSeq c (fun q => { q with st := .waiting, waitOn := .layers })))

/-- Quarters of full CCLK that a cluster runs at (R469, R479). DEDUCED, log entry 53. -/
def State.quarters (s : State) (c : Nat) : Nat :=
  let k := (s.cluster c).clock
  let q (d : Nat) : Nat := if d = 3 then 4 else 3 - d
  if k.braked then min (q k.div) (q s.pwr.brakeDiv) else q k.div

/-- Whether the running layer of core p has run longer than twice its DURATION (R168). DEDUCED, log entry 53. -/
def State.overran (s : State) (p : Nat) (ly : Layer) : Bool :=
  let c := p / 12
  decide (2 * lcbDuration ly.lcb * 19 * s.quarters c < ((s.cluster c).seq.cycles - ly.started) * 40)

/-- LAYER_COMPLETE: the layer of core p completes with its status (R21, R101, R122, R164, R165, R177, R607). -/
def execLayerComplete (p : Nat) (s : State) : Result :=
  match (s.core p).running with
  | none => .next s
  | some ly =>
    if p < 96 ∧ (s.core p).canComplete then
      let excess := s.overran p ly
      let s := if excess then s.span (ctClu (p / 12) 6) 1 else s
      let s := s.retireLayer p ly.status
      .next (s.afterLayer p ly.status)
    else .next s

/-! ### High-water registers, sequence table, loss (R55, R143 to R149) -/

/-- HWM_CLEAR: a store to high-water register i (R55, R56). -/
def execHwmClear (c : Nat) (t : Tick) (i : Nat) (v : W64) (s : State) : Result :=
  .next (s.onSeq c t (fun s => if i < 1024 ∧ bit v.toNat 63 then { s with hwm := tset s.hwm 0 i 0 } else s))

/-- Writable bits of the two words of a slot (R144). -/
def slotBits (high : Bool) : Nat := if high then 0xFF1FFFFF else 0xFFFFFFFF071FFFFF
/-- A slot's 128 bits after a store of 8 bytes. -/
def slotStore (x : Nat) (high : Bool) (v : W64) : Nat := putf x (if high then 64 else 0) 64 (v.toNat &&& slotBits high)

/-- SEQ_TABLE_WRITE: a store to the low or high word of a shadow slot lands in all eight mirrors (R143, R144). -/
def execSeqTableWrite (c : Nat) (t : Tick) (slot : Nat) (high : Bool) (v : W64) (s : State) : Result :=
  .next (s.onSeq c t (fun s =>
    if slot < 256 then s.modClusters (fun _ k => { k with shadow := tmod k.shadow 0 slot (fun x => slotStore x high v) }) else s))

/-- End of a slot's extent (R144). -/
def slotEnd (x : Nat) : Nat := slotOffset x + slotExtent x
/-- Whether a valid slot keeps the rules of R145 beside the valid slots before it. -/
def slotLegal (before : List Nat) (x : Nat) : Bool :=
  decide (slotLength x ≤ 1048576) && (slotMask x != 2 || (decide (slotLength x ≤ slotPad x) && decide (slotPad x ≤ 1048576))) &&
  decide (slotEnd x ≤ 2 ^ 32) && before.all (fun y => decide (slotEnd x ≤ slotOffset y) || decide (slotEnd y ≤ slotOffset x))
/-- The first slot of a bank that breaks a rule of R145. Of two slots that overlap, the higher-numbered one breaks the rule, for a slot
is held against those before it. DESIGN CHOICE, log entry 62. -/
def firstBadSlot : List (Nat × Nat) → List Nat → Option Nat
  | [], _ => none
  | (i, x) :: r, seen => if slotValid x then (if slotLegal seen x then firstBadSlot r (x :: seen) else some i) else firstBadSlot r seen

/-- SEQ_TABLE_COMMIT: the shadow bank is checked, and every cluster takes it at its next layer start (R145, R164). -/
def execSeqTableCommit (c : Nat) (t : Tick) (v : W64) (s : State) : Result :=
  .next (s.onSeq c t (fun s =>
    if ¬ bit v.toNat 0 then s
    else match firstBadSlot (s.cluster c).shadow [] with
      | some i =>
        (s.modSeq c (fun q => { q with commitDone := true, commitStatus := .malformed })).log .malformed (srcCluster c) [(2, i)]
      | none =>
        let s := s.modClusters (fun _ k => { k with commitPending := true, pendingBank := k.shadow })
        s.modSeq c (fun q => { q with commitDone := true, commitStatus := .ok })))

/-- The sum of the eight clusters' accumulators of a slot: F32 loss, tokens, and the status bits 0 NONFINITE, 1 SATURATED,
2 POISONED (R147, R149). DEDUCED, log entry 63. -/
def State.lossTotal (s : State) (slot : Nat) : W32 × Nat × Nat :=
  let as := (List.range 8).map (fun c => tget (s.cluster c).loss {} slot)
  let sum := as.foldl (fun x a => x + a.sum) 0
  ((roundF32 (Val.ofInt sum (-64))).bits, min 0xFFFFFFFF (as.foldl (fun x a => x + a.tokens) 0),
   bnum (as.any (·.nonfinite)) + bnum (as.any (·.saturated)) 1 + bnum (as.any (·.poisoned)) 2)

/-- LOSS_READ: a store of a slot number to the loss-read service (R149, R164). -/
def execLossRead (c : Nat) (t : Tick) (slot : Nat) (s : State) : Result :=
  .next (s.onSeq c t (fun s =>
    if slot < 256 then
      let x := s.lossTotal slot
      s.modSeq c (fun q => { q with lossSlot := some slot, lossF32 := x.1, lossTokens := x.2.1, lossBits := x.2.2 })
    else s))

/-- LOSS_CLEAR: a store to the last word of a slot's accumulator, whose bit 63 is CLEAR (R147). DESIGN CHOICE, log entry 62. -/
def execLossClear (c : Nat) (t : Tick) (slot : Nat) (v : W64) (s : State) : Result :=
  .next (s.onSeq c t (fun s =>
    if slot < 256 ∧ bit v.toNat 63 then s.modClusters (fun _ k => { k with loss := tset k.loss {} slot {} }) else s))

/-! ### Timers, completion and notes (R164, R503) -/

/-- TIMER_WAIT: a compare value is stored in timer n, and the sequencer waits for it (R164). -/
def execTimerWait (c : Nat) (t : Tick) (n : Nat) (v : W64) (s : State) : Result :=
  .next (s.onSeq c t (fun s =>
    if n < 4 then
      let s := s.modSeq c (fun q => { q with timers := tset q.timers 0 n v })
      if v.toNat ≤ s.now then s else s.modSeq c (fun q => { q with st := .waiting, waitOn := .timer, timerOn := some n })
    else s))

/-- AO time moves to the first instant at which device time is t, at the rate in force (R303, R305). -/
def State.atDevice (s : State) (t : Nat) : State :=
  let left := (Int.ofNat t - Int.ofNat s.aoNs - s.devOff) * 1000000000 - s.time.slewed 1 s.aoNs
  let rate := 1000000000 + s.time.slew
  s.reach (s.aoNs + ((left + rate - 1) / rate).toNat)

/-- A wait of the sequencer ends; a halted one goes on at its debug resume (R157). -/
def Sequencer.goOn (q : Sequencer) : Sequencer :=
  match q.st with
  | .waiting => { q with st := .running, waitOn := .none }
  | .halted => { q with resume := .running, waitOn := .none }
  | _ => q

/-- TIMER_EXPIRY: device time reaches the compare value (R164). -/
def execTimerExpiry (c : Nat) (s : State) : Result :=
  match (s.cluster c).seq.timerOn with
  | some n => .next ((s.atDevice (tget (s.cluster c).seq.timers 0 n).toNat).modSeq c (fun q => { q.goOn with timerOn := none }))
  | none => .next s

/-- SEQ_COMPLETION: the completion word ends the command on its cluster once every layer it started has completed
(R164, R451, R452). -/
def execSeqCompletion (c : Nat) (t : Tick) (word : W64) (s : State) : Result :=
  .next (s.onSeq c t (fun s =>
    let st := Status.ofCode (fld word.toNat 0 8)
    let r := BitVec.ofNat 32 (fld word.toNat 32 32)
    if s.layersLeft c then s.modSeq c (fun q => { q with st := .waiting, waitOn := .layers, finish := some (st, r) })
    else s.endOn c st 0 false r))

/-- PROGRAM_NOTE: the program posts an entry (R503). -/
def execProgramNote (c : Nat) (t : Tick) (bytes : List Byte) (s : State) : Result :=
  .next (s.onSeq c t (fun s => s.logAs .programNote (srcCluster c) (padTo 16 bytes) .info false false))

/-! ### Faults and debug (R157, R159, R428, R492) -/

/-- SEQ_ADDRESS_FAULT: a load or store outside the map (R159, R195). -/
def execSeqAddressFault (c : Nat) (t : Tick) (s : State) : Result := .next (s.onSeq c t (fun s => s.haltSeq c .malformed 3))
/-- SEQ_INSTRUCTION_FAULT: an instruction that cannot be decoded (R159). -/
def execSeqInstructionFault (c : Nat) (t : Tick) (s : State) : Result := .next (s.onSeq c t (fun s => s.haltSeq c .malformed 4))
/-- SEQ_MEM_UNCORRECTED: the sequencer halts and its cluster is contained (R159, R492, R499). -/
def execSeqMemUncorrected (c : Nat) (s : State) : Result := if c < 8 then .next (s.seqMemLost c) else .next s

/-- The sequencer's waiters in the queues of its cluster, changed by f. -/
def State.modSeqWaits (s : State) (c : Nat) (f : Waiter → Waiter) : State :=
  s.modCluster c (fun k => { k with
    queues := tmods k.queues {} (k.queues.map (·.1)) (fun _ q =>
      { q with waiters := q.waiters.map (fun w => if w.who == .sequencer then f w else w) }) })

/-- Time left of the sequencer's own coin wait. DEDUCED, log entry 56. -/
def State.seqWaitLeft (s : State) (c : Nat) : Nat :=
  ((s.cluster c).queues.findSome? (fun q => (q.2.waiters.find? (·.who == .sequencer)).map (·.deadline))).getD s.aoNs - s.aoNs

/-- DEBUG_HALT: while debug is in force, a debug request halts a sequencer at an instruction boundary, and the deadline of its
coin wait stands still (R157, R428, R560). DEDUCED, log entry 56. -/
def execDebugHalt (c : Nat) (s : State) : Result :=
  let q := (s.cluster c).seq
  if c < 8 ∧ s.sec.debugEnd.isSome ∧ (q.st = .running ∨ q.st = .waiting) then
    .next (s.modSeq c (fun q => { q with st := .halted, haltCause := 1, resume := q.st, remainder := s.seqWaitLeft c }))
  else .next s

/-- DEBUG_RESUME: the halted command continues; a start that waited is tried again (R157, R428). DEDUCED, log entry 56. -/
def execDebugResume (c : Nat) (s : State) : Result :=
  let q := (s.cluster c).seq
  if c < 8 ∧ q.st = .halted then
    let s := s.modSeqWaits c (fun w => { w with deadline := s.aoNs + q.remainder })
    let s := s.modSeq c (fun q => { q with st := q.resume, haltCause := 0, resume := .idle, remainder := 0 })
    .next (s.retryStart c)
  else .next s

end Sys2Proof.Machine
end

