-- ==== Sys2Proof/Machine/TileOps.lean ====
section
/-!
DEFINITION. What tile contexts issue: lane operations, trees and loads on tile registers (R114 to R118, R128, R129, R132,
R176 to R182), and the hazards they meet.
-/
set_option autoImplicit false
namespace Sys2Proof.Machine

/-! ### Elements (R114, R116, R117, R120) -/

/-- The 1,024 elements of a source with its flag word and its 64 poison bits; elements that are not read are none. -/
structure TeOpnd where
  elems  : List (Option W32)
  fl     : Flags := {}
  poison : List Bool

/-- A tile register as a source. -/
def TileReg.opnd (r : TileReg) : TeOpnd :=
  { elems := (List.range 1024).map (fun i => some (tget r.elems 0 i)), fl := r.fl, poison := (List.range 64).map (tget r.poison false) }

/-- Poison unit of element i of a register (R114). -/
def unitIx (i : Nat) : Nat := i / 16

/-- A sub-tile of the head entry as a source (R119, R120). -/
def SubTile.opnd (t : SubTile) : TeOpnd :=
  let at? (i : Nat) : Option Nat := if i / 32 < t.rows ∧ i % 32 < t.cols then some (i / 32 * t.cols + i % 32) else none
  { elems := (List.range 1024).map (fun i => (at? i).bind (fun j => t.elems[j]?)), fl := t.fl,
    poison := (List.range 64).map (fun u => (List.range 16).any (fun x =>
      match at? (u * 16 + x) with | some j => (t.poison[j]?).getD false | none => false)) }

/-- A source of an operation on core k. -/
def Core.opnd (k : Core) : TeSrc → TeOpnd
  | .reg n => (tget k.regs {} n).opnd
  | .sub q => match (k.ftq.headD []).find? (fun t => t.slot == q) with
    | some t => t.opnd
    | none => { elems := List.replicate 1024 none, poison := List.replicate 64 false }

/-- CCLK until the result of a lane function retires (R116, R178). -/
def LaneFn.distance : LaneFn → Nat
  | .div | .sqrt | .recip => 12
  | .exp | .log | .rsqrt | .tanh | .erf | .sigmoid => 14
  | _ => 4

/-- The element that a compare writes (log entry 3). -/
def truth (b : Bool) : FV := FV.of (if b then Config.compareTrue else Config.compareFalse)
/-- An F32 compare: a NaN operand holds for none and raises INV (R70, R72). -/
def compareFV (rel : Val → Val → Bool) (a b : FV) : FV :=
  ⟨(truth (rel a.val b.val)).bits, (a.flags.or b.flags).or (if a.val.isNaN || b.val.isNaN then flINV else {})⟩

/-- One element of a lane function (R116, R117). DESIGN CHOICE, log entry 3. -/
def LaneFn.eval (f : LaneFn) (x y z : W32) : FV :=
  let a := FV.of x
  let b := FV.of y
  match f with
  | .add => FV.add a b
  | .sub => FV.sub a b
  | .mul => FV.mul a b
  | .fma => FV.fma a b (FV.of z)
  | .lt => compareFV Val.lt a b
  | .le => compareFV Val.le a b
  | .eq => compareFV (fun u v => Val.le u v && Val.le v u) a b
  -- select passes the bits of an operand with no flag: the manual does not define it further
  | .select => FV.of (if x = Config.compareTrue then y else z)
  | .min => FV.min a b
  | .max => FV.max a b
  | .iadd => FV.of (x + y)
  | .isub => FV.of (x - y)
  | .imul => FV.of (x * y)
  | .imin => FV.of (if x.slt y then x else y)
  | .imax => FV.of (if x.slt y then y else x)
  | .div => FV.div a b
  | .sqrt => FV.sqrt a
  | .recip => FV.div (FV.of fone) a
  | .exp => FV.exp a
  | .log => FV.log a
  | .rsqrt => FV.rsqrt a
  | .tanh => FV.tanh a
  | .erf => FV.erf a
  | .sigmoid => FV.sigmoid a

/-- Operands that a function takes. -/
def LaneFn.arity : LaneFn → Nat
  | .fma | .select => 3
  | .sqrt | .recip | .exp | .log | .rsqrt | .tanh | .erf | .sigmoid => 1
  | _ => 2

/-- The results of a lane operation, by element, where every source element is read (R115, R120). DESIGN CHOICE, log entry 57. -/
def laneResults (f : LaneFn) (xs : List TeOpnd) : List (Nat × FV) :=
  let get (k i : Nat) : Option W32 := match xs[k]? with | some o => (o.elems[i]?).getD none | none => some 0
  (List.range 1024).filterMap (fun i =>
    match get 0 i, get 1 i, get 2 i with
    | some x, some y, some z => some (i, f.eval x y z)
    | _, _, _ => none)

/-- One tree over 32 positions (R132, R135). -/
def TreeFn.eval : TreeFn → List (Option FV) → FV
  | .sum => treeSum
  | .max => treeMax
  | .min => treeMin
  | .argmax => treeArg

/-- The results of a tree: of row i at element (i, 0), of column j at element (0, j) (R132). DESIGN CHOICE, log entry 57. -/
def treeResults (f : TreeFn) (byRow : Bool) (x : TeOpnd) : List (Nat × FV) :=
  (List.range 32).map (fun a =>
    let line := (List.range 32).map (fun b => ((x.elems[if byRow then a * 32 + b else b * 32 + a]?).getD none).map FV.of)
    (if byRow then a * 32 else a, f.eval line))

/-- Poison of the units that results fall in: the sources' poison of the same unit for a lane operation, any poison of the
line for a tree; a unit that is written in part keeps its own (R114, R154, R212). DESIGN CHOICE, log entry 57. -/
def resultUnits (old : TileReg) (rs : List (Nat × FV)) (src : Nat → Bool) : List (Nat × Bool) :=
  ((rs.map (fun r => unitIx r.1)).eraseDups).map (fun u =>
    let n := (rs.filter (fun r => unitIx r.1 == u)).length
    (u, (rs.any (fun r => unitIx r.1 == u && src r.1)) || (n != 16 && tget old.poison false u)))

/-! ### Hazards (R178 to R182) -/

/-- A hazard: kind, register, distance, retire distance. -/
abbrev Haz := Nat × Nat × Nat × Nat

/-- Hazards of context i's reads and writes of registers at CCLK t: stale reads, then accesses to another context's
registers (R181). DEDUCED, log entry 55. -/
def Core.accessHaz (k : Core) (i t : Nat) (reads writes : List Nat) (early : Bool) : List Haz :=
  (if early then [] else
    reads.flatMap (fun r => (k.writes.filter (fun w => w.reg == r && decide (t < w.land))).map (fun w => ((1, r, t - w.issue, w.land - w.issue) : Haz)))) ++
  ((reads ++ writes).eraseDups.filterMap (fun r =>
    let o := tget k.owners 0 r
    if o = 0 ∨ o = i + 1 then none else some ((3, r, 0, 0) : Haz)))

/-- Hazards of a write that lands at `land` (R179, R181). DEDUCED, log entry 55. -/
def Core.collideHaz (k : Core) (t land reg : Nat) : List Haz :=
  ((k.landed ++ k.writes).filter (fun w => w.reg == reg && w.land == land)).map (fun w => ((2, reg, t - w.issue, land - t) : Haz))

/-- Registers that context i has touched become its own (R180). -/
def Core.own (k : Core) (i : Nat) (rs : List Nat) : Core :=
  { k with owners := rs.foldl (fun o r => tmod o 0 r (fun x => if x = 0 then i + 1 else x)) k.owners }

/-- The hazards of an operation, in register order, reach the monitor; its stream is the one that the layer's start issued (R182). DEDUCED, log entry 55. -/
def State.hazards (s : State) (p i : Nat) (hs : List Haz) : State :=
  let pc := match (s.core p).running with | some ly => ly.pc | none => 0
  (hs.mergeSort (fun a b => decide (a.2.1 ≤ b.2.1))).foldl (fun s h => s.hazardAt (p / 12) pc h.1 p h.2.1 h.2.2.1 h.2.2.2 i) s

/-- Whether a register waits for a load of context i. -/
def Context.waitsFor (x : Context) (rs : List Nat) : Bool := x.loads.any (fun l => rs.contains l.reg)

/-- Parity errors: the units of a write are poisoned, and TILE_PARITY is logged (R114, R211, R499). -/
def parityUnits (us : List (Nat × Bool)) (bad : List Nat) : List (Nat × Bool) := us.map (fun u => (u.1, u.2 || bad.contains u.1))
def State.tileParity (s : State) (p : Nat) (bad : Bool) : State := if bad then (s.detect .tileParity (srcCore p) []).span (ctDev 6) 1 else s

/-- Results are written to a register: flags, poison and hazards. The operation's own flags reach TE_FLAGS with the write, at its end
(R128, R129, R178 to R182). -/
def State.writeResults (s : State) (p i dst dist : Nat) (reads : List Nat) (early : Bool) (srcFl : Flags) (rs : List (Nat × FV))
    (units : List (Nat × Bool)) (parity : List Nat) : State :=
  let k := s.core p
  let t := (s.cluster (p / 12)).seq.cycles
  let hs := k.accessHaz i t reads [dst] early ++ k.collideHaz t (t + dist) dst
  let fl := flagsOf (rs.map (·.2.fl))
  let w : RegWrite :=
    { land := t + dist, issue := t, reg := dst, ctx := i, elems := rs.map (fun r => (r.1, r.2.bits)),
      units := parityUnits units parity, fl := srcFl.or fl, raised := fl }
  let s := s.modCore p (fun k => { k.own i (dst :: reads) with writes := k.writes ++ [w] })
  (s.tileParity p (parity != [])).hazards p i hs

/-- Registers among the sources. -/
def srcRegs (xs : List TeSrc) : List Nat := xs.filterMap (fun x => match x with | .reg n => some n | .sub _ => none)
/-- Whether a source is a sub-tile. -/
def usesQueue (xs : List TeSrc) : Bool := xs.any (fun x => match x with | .sub _ => true | .reg _ => false)

/-- A lane operation (R116 to R118). DESIGN CHOICE, log entry 57. -/
def State.laneOp (s : State) (p i : Nat) (f : LaneFn) (dst : Nat) (srcs : List TeSrc) (early : Bool) (parity : List Nat) : State :=
  let k := s.core p
  let xs := (srcs.take f.arity).map k.opnd
  let rs := laneResults f xs
  let src (e : Nat) : Bool := xs.any (fun o => (o.poison[unitIx e]?).getD false)
  s.writeResults p i dst f.distance (srcRegs srcs) early (flagsOf (xs.map (·.fl))) rs (resultUnits (tget k.regs {} dst) rs src) parity

/-- A tree (R132 to R135). DESIGN CHOICE, log entry 57. -/
def State.treeOp (s : State) (p i : Nat) (f : TreeFn) (byRow : Bool) (dst : Nat) (src : TeSrc) (early : Bool) (parity : List Nat) : State :=
  let k := s.core p
  let x := k.opnd src
  let rs := treeResults f byRow x
  let bad (e : Nat) : Bool :=
    if byRow then (x.poison[2 * (e / 32)]?).getD false || (x.poison[2 * (e / 32) + 1]?).getD false
    else (List.range 32).any (fun r => (x.poison[2 * r + e / 16]?).getD false)
  s.writeResults p i dst 8 (srcRegs [src]) early x.fl rs (resultUnits (tget k.regs {} dst) rs bad) parity

/-! ### Loads (R176 to R178, R195, R216) -/

/-- The layer on core p ends MALFORMED for an address fault of a tile context (R195). -/
def State.tileFault (s : State) (p a : Nat) : State :=
  let tag := match (s.core p).running with | some ly => layerTag ly.lcb | none => 0
  (s.log .addressFault (srcCore p) [(8, a), (4, tag)]).spoil p .malformed

/-- The landing buffer of cluster c that is FILLING and holds some byte of [a, a + n) (R216). -/
def State.fillingAt (s : State) (c a n : Nat) : Option Nat :=
  ((s.cluster c).lbs.find? (fun x => x.2.st == .filling && decide (x.2.base < a + n) && decide (a < x.2.base + x.2.size))).map (·.1)

/-- What a load brings into a register: by element its value, with the flags of expanding it, and its poison. -/
abbrev Loaded := List (Nat × FV × Bool)

/-- Bytes as they stand, from byte offset `off` of a register on; `ps` gives the poison of a byte. -/
def rawLoad (off : Nat) (bs : List Byte) (ps : Nat → Bool) : Loaded :=
  (List.range (bs.length / 4)).map (fun j => (off / 4 + j, FV.of (BitVec.ofNat 32 (leAt bs (4 * j) 4)), ps (4 * j) || ps (4 * j + 3)))

/-- Element j of an array at address a that a load expands, with its poison (R49, R154). -/
def State.expandElem (s : State) (x : Expansion) (a j : Nat) : FV × Bool :=
  let sa := x.scale + j / blkSize x.blk
  let scale := if x.blk = 0 then none else some (s.byteAt sa).toNat
  (expand x.fmt scale x.tscale (s.elem x.fmt a j), s.poisonAt (x.fmt.elemAddr a j) || (x.blk != 0 && s.poisonAt sa))

/-- What a load from local storage brings: the bytes as they stand, or stored elements expanded to F32 (R49, R116). DESIGN CHOICE,
log entry 57. -/
def State.loaded (s : State) (l : LoadReq) : Loaded :=
  match l.form with
  | none => rawLoad l.off (s.readMem l.addr l.bytes) (fun j => s.poisonAt (l.addr + j))
  | some x => (List.range x.n).map (fun j => (l.off / 4 + j, s.expandElem x l.addr j))

/-- Data of a load retires into its register `dist` CCLK from now: the register's flag word is that of expanding them, for nothing
that they are read from has a flag word (R128, R129, R178). A load with no fixed distance lands now: a write of the same CCLK that
was issued later holds against it (R179). -/
def State.loadWrite (s : State) (p i dist : Nat) (l : LoadReq) (x : Loaded) : State :=
  let k := s.core p
  let t := (s.cluster (p / 12)).seq.cycles
  let fl := flagsOf (x.map (·.2.1.fl))
  let bad (e : Nat) : Bool := x.any (fun y => y.1 == e && y.2.2)
  let w : RegWrite :=
    { land := t + dist, issue := if dist = 0 then l.issue else t, reg := l.reg, ctx := i, elems := x.map (fun e => (e.1, e.2.1.bits)),
      units := resultUnits (tget k.regs {} l.reg) (x.map (fun e => (e.1, e.2.1))) bad, fl := fl, raised := fl }
  let hs := k.accessHaz i t [] [l.reg] true ++ k.collideHaz t (t + dist) l.reg
  let s := s.modCore p (fun k => let k := { k.own i [l.reg] with writes := k.writes ++ [w] }; if dist = 0 then k.landWrites t else k)
  s.hazards p i hs

/-! ### Remote writes (R220, R221, R417) -/

/-- A sealed packet's payload has been accepted: its seal waits for R350 (R351, R418). DESIGN CHOICE, log entry 61. -/
def State.accepted (s : State) (p : Packet) : State :=
  if p.sealExt.isSome && !p.failed then s.modRtr (fun r => { r with seals := r.seals ++ [p] }) else s

/-- Poison by memory unit of a payload written at address a: a unit is poisoned when a poisoned payload unit overlaps it. -/
def Packet.poisonAt (p : Packet) (a : Nat) : Nat → Bool := fun u =>
  p.poison.any (fun i => decide (a + 64 * i < u * 64 + 64) && decide (u * 64 < a + 64 * i + 64))

/-- A refused remote access: the target logs the source and the address (R220). -/
def State.remoteFault (s : State) (p : Packet) : State := s.log .remoteAddrFault (srcBlock 0) [coordData p.src, (8, p.addr)]

/-- A served address wakes the cluster whose vault it reaches (R464). -/
def State.wakeAt (s : State) (a : Nat) : State :=
  match regionOf s.dram.top a 1 with
  | .clusterVault c => s.wake c
  | _ => s

/-- A WRITE packet reaches its target; the seal of a refused one is never deposited, as its payload is not accepted (R211, R212,
R220, R350). DESIGN CHOICE, log entry 61. -/
def State.remoteWrite (s : State) (p : Packet) : State :=
  if s.servable p.addr p.payload.length then
    ((s.wakeAt p.addr).writeMem p.addr p.payload (p.poisonAt p.addr)).accepted p
  else
    (s.modRtr (fun r => { r with remoteRefused := satAdd 0xFFFF r.remoteRefused 1 })).remoteFault p

/-- The words of a tile register that a remote write carries, and its payload's poisoned units. -/
def TileReg.piece (r : TileReg) (off bytes : Nat) : List Byte × List Nat :=
  ((List.range (bytes / 4)).flatMap (fun j => leBytes 4 (tget r.elems 0 (off / 4 + j)).toNat),
   (List.range ((bytes + 63) / 64)).filter (fun u =>
     (List.range 16).any (fun j => decide (64 * u + 4 * j < bytes) && tget r.poison false (unitIx (off / 4 + 16 * u + j)))))

/-- A write issued by a context's stream: one WRITE packet on C4, to the own coordinate through the die fabric. The spec gives such a
write no encoding. DESIGN CHOICE, log entry 81. -/
def State.streamWrite (s : State) (p : Nat) (dev : Coord) (reg off addr bytes : Nat) (sealed : Option (Nat × Nat × Nat)) : State :=
  let x := (tget (s.core p).regs {} reg).piece off bytes
  let k : Packet := { s.packet 4 6 dev addr x.1 with poison := x.2, sealExt := sealed }
  if dev = s.here then s.remoteWrite k
  else match s.inject k with
    | (.denied, t) => t.spoil p .denied
    | (.mismatch, t) => t.spoil p .stateMismatch
    | (_, t) => t

/-- A load issued by context i from a local address (R176 to R178, R195, R216). -/
def State.localLoad (s : State) (p i reg off addr bytes : Nat) (form : Option Expansion) : State :=
  let a := pa p addr
  let form := form.map (fun x => { x with scale := pa p x.scale })
  let l : LoadReq := { reg := reg, off := off, addr := a, bytes := bytes, form := form, issue := (s.cluster (p / 12)).seq.cycles }
  let scales := match form with | some x => if x.blk = 0 then none else some (x.scale, (x.n + blkSize x.blk - 1) / blkSize x.blk) | none => none
  match regionOf s.dram.top a bytes, scales.map (fun x => regionOf s.dram.top x.1 x.2) with
  | .other, _ => s.tileFault p addr
  | _, some .other => s.tileFault p ((scales.getD (0, 0)).1)
  | r, r' =>
    if r = .coreVault p ∧ (r'.getD r = r) then s.loadWrite p i 10 l (s.loaded l)
    else match s.fillingAt (p / 12) a bytes with
      | some b => s.modCore p (·.stall i (.buffer b))
      | none => s.modCore p (fun k => (k.own i [reg]).modCtx i (fun x => { x with loads := x.loads ++ [l] }))

/-- A load issued by context i from a device (R219 to R221, R339, R359). -/
def State.deviceLoad (s : State) (p i : Nat) (dev : Coord) (reg off addr bytes : Nat) : State :=
  let join (s : State) (h : Option Nat) : State :=
    s.modCore p (fun k => (k.own i [reg]).modCtx i (fun x => { x with
      loads := x.loads ++ [{ reg := reg, off := off, addr := addr, bytes := bytes, handle := h, issue := (s.cluster (p / 12)).seq.cycles }] }))
  if dev = s.here then
    (if s.servable addr bytes then join s none
     else (s.log .remoteAddrFault (srcBlock 0) [coordData dev, (8, addr)]).spoil p .malformed)
  else
    match s.sendRead dev addr { handle := 0, bytes := bytes, deadline := 0, dest := 1, cluster := p / 12, unit := p * 48 + i, addr := off } with
    | (.sent, t) => join t (some s.rtr.nextHandle)
    | (x, t) => t.spoil p x.status

/-- A load has left context i's list; a context that waits for loads becomes READY with its last one, or when it waits to issue a
fifth (R176, R177). -/
def State.loadDone (s : State) (p i : Nat) (l : LoadReq) : State :=
  s.modCore p (fun k =>
    let k := k.modCtx i (fun x => { x with loads := x.loads.erase l })
    if (tget k.ctxs {} i).on = .loads then k.unstall i else k)

/-! ### Issue of an operation (R176, R180) -/

/-- Context i of core p runs: it is RUNNING, or FREE while no context of the core runs (R176). -/
def Core.takes (k : Core) (i : Nat) : Bool :=
  (tget k.ctxs {} i).st == .running || ((tget k.ctxs {} i).st == .free && !k.hasRunning)

/-- Registers that an operation touches. -/
def TeOp.regs : TeOp → List Nat
  | .lane _ d xs _ => d :: srcRegs xs
  | .tree _ _ d x _ => d :: srcRegs [x]
  | .clrFlags r => [r]
  | .load r _ _ _ _ => [r]
  | .loadRemote _ r _ _ _ => [r]
  | .store rs _ _ _ _ _ _ _ => rs
  | .storeRemote _ r _ _ _ _ _ => [r]
  | _ => []

/-- Whether an operation is one that a context can issue: it names tile registers T0 to T31 and sub-tiles Q0 to Q15, and a load brings
at most 4 KiB, inside its register (R114, R119, R177). -/
def TeOp.legal (o : TeOp) : Bool :=
  o.regs.all (fun r => decide (r < 32)) &&
  (match o with
   | .lane _ _ xs _ => xs.all (fun x => match x with | .sub q => decide (q < 16) | .reg _ => true)
   | .tree _ _ _ x _ => (match x with | .sub q => decide (q < 16) | .reg _ => true)
   | .load _ off _ n none => decide (off + n ≤ 4096 ∧ off % 4 = 0 ∧ n % 4 = 0)
   | .load _ off _ n (some x) => decide (off + 4 * x.n ≤ 4096 ∧ off % 4 = 0 ∧ n = x.fmt.rowBytes x.n ∧ n ≤ 4096 ∧ x.blk ≤ 4)
   | .loadRemote _ _ off _ n => decide (off + n ≤ 4096 ∧ off % 4 = 0 ∧ n % 4 = 0)
   | .storeRemote _ _ off _ n sealed _ => decide (0 < n ∧ off + n ≤ 4096 ∧ off % 4 = 0 ∧ n % 4 = 0) &&
     (match sealed with | some (coin, q, c) => decide (coin < 2 ^ 32 ∧ q < 256 ∧ c < 8) | none => true)
   | .store rs _ _ _ _ nr nc _ => decide (rs.length = (nr + 31) / 32 * ((nc + 31) / 32))
   | _ => true)

/-- Whether an operation is a point at which a context can stall, and so a retire barrier (R176, R180). -/
def TeOp.canStall (o : TeOp) : Bool :=
  match o with
  | .lane _ _ xs _ => usesQueue xs
  | .tree _ _ _ s _ => usesQueue [s]
  | .load _ _ _ _ _ | .loadRemote _ _ _ _ _ | .enqueue | .epilogue | .waitLoads | .waitBuffer _ | .free => true
  | _ => false

/-- What an operation must wait for before it issues: a load of a register it touches, a free load, an entry of the
finished-tile queue, or room in the issue queue (R104, R122, R176, R177). -/
def TeOp.stallsOn (o : TeOp) (k : Core) (i : Nat) : Option StallOn :=
  let x := tget k.ctxs {} i
  if x.waitsFor o.regs then some .loads
  else match o with
    | .lane _ _ xs _ => if usesQueue xs && k.ftq.isEmpty then some .finishedQueue else none
    | .tree _ _ _ s _ => if usesQueue [s] && k.ftq.isEmpty then some .finishedQueue else none
    | .load _ _ _ _ _ | .loadRemote _ _ _ _ _ => if 4 ≤ x.loads.length then some .loads else none
    | .enqueue => if 8 ≤ k.issueQ.length then some .issueQueue else none
    | .epilogue => if k.ftq.isEmpty then some .finishedQueue else none
    | .waitLoads | .free => if x.loads.isEmpty then none else some .loads
    | _ => none

/-- The element at a row and column of a region held in registers, row by row of registers, with its poison (R114, R120). -/
def Core.regionAt (k : Core) (rs : List Nat) (cols r c : Nat) : FV × Bool :=
  let reg := tget k.regs {} ((rs[r / 32 * ((cols + 31) / 32) + c / 32]?).getD 0)
  let i := r % 32 * 32 + c % 32
  (⟨tget reg.elems 0 i, {}⟩, tget reg.poison false (unitIx i))

/-- The effect of an operation that issues (R16). DESIGN CHOICE, log entry 57. -/
def State.teEffect (s : State) (p i : Nat) (ly : Layer) (o : TeOp) (parity : List Nat) : State :=
  match o with
  | .lane f d xs early => s.laneOp p i f d xs early parity
  | .tree f byRow d x early => s.treeOp p i f byRow d x early parity
  | .clrFlags r =>
    let hs := (s.core p).accessHaz i (s.cluster (p / 12)).seq.cycles [] [r] true
    (s.modCore p (fun k => { k.own i [r] with regs := tmod k.regs {} r (fun x => { x with fl := {} }) })).hazards p i hs
  | .load r off a n form => s.localLoad p i r off a n form
  | .loadRemote dev r off a n => s.deviceLoad p i dev r off a n
  | .store rs t e row col rows cols early =>
    let k := s.core p
    let hs := k.accessHaz i (s.cluster (p / 12)).seq.cycles rs [] early
    ((s.modCore p (·.own i rs)).storeRegion p ly t e row col rows cols (k.regionAt rs cols)).hazards p i hs
  | .storeRemote dev r off a n sealed early =>
    let hs := (s.core p).accessHaz i (s.cluster (p / 12)).seq.cycles [r] [] early
    ((s.modCore p (·.own i [r])).streamWrite p dev r off a n sealed).hazards p i hs
  | .enqueue => s.modCore p (fun k => { k with issueQ := k.issueQ ++ [i] })
  | .epilogue => s.epilogue p
  | .rows e rt => s.finishRowTile p ly e rt
  | .tile t => s.teTile p t
  | .waitLoads => s
  | .waitBuffer b => if (s.lb (p / 12) b).st = .filling then s.modCore p (·.stall i (.buffer b)) else s
  | .free => s.modCore p (fun k => (k.modCtx i (fun _ => {})).select i)

/-- Contexts of core p that wait for something become READY. -/
def State.wakeStalled (s : State) (p : Nat) (on : StallOn) : State :=
  (((s.core p).ctxs.filter (fun x => x.2.st == .stalled && x.2.on == on)).map (·.1)).foldl (fun s i => s.modCore p (·.unstall i)) s

end Sys2Proof.Machine
end

