-- ==== Sys2Proof/Machine/Tile.lean ====
section
/-!
DEFINITION. The matrix engine's issues and drains, the operations of tile contexts, and loads that land (R68, R79, R104, R119,
R176, R178).
-/
set_option autoImplicit false
namespace Sys2Proof.Machine

/-- Whether core p runs a layer that no status has ended, and its cluster's clock runs (R497, R499).
DESIGN CHOICE, log entry 12. DESIGN CHOICE, log entry 33. -/
def State.works (s : State) (p : Nat) : Bool :=
  decide (p < 96) && !(s.cluster (p / 12)).clock.stopped && (match (s.core p).running with | some ly => ly.status == .ok | none => false)

/-- Parity errors of operand staging mark elements of subarrays' accumulators: subarray, element (R211). -/
def State.poisonAccs (s : State) (p : Nat) (bad : List (Nat × Nat)) : State :=
  s.modCore p (fun k => { k with accs := bad.foldl (fun t x => tmod t none x.1 (fun a =>
    a.map (fun a => { a with poison := a.poison.set x.2 true }))) k.accs })

/-- MXE_ISSUE: the MXE of core p runs an issue dt CCLK later; `ecc` reports its vault reads, `parity` its operand staging
(R79, R89, R104, R105, R190, R211). -/
def execMxeIssue (p dt : Nat) (ecc : List (Nat × EccResult)) (parity : List (Nat × Nat)) (s : State) : Result :=
  if s.works p then
    let s := ((s.advance (p / 12) dt).eccAll ecc).mxeIssue p
    let s := (s.poisonAccs p parity).tileParity p (parity != [])
    .next (if (s.core p).issueQ.length < 8 then s.wakeStalled p .issueQueue else s)
  else .next s

/-- FINISHED_TILE_DRAIN: subarray i of core p drains its complete tile into the queue; `ecc` reports the reads of C, and `parity` names
elements of the new entries (slot, element) whose parity fails (R68, R94, R119, R190, R211). -/
def execFinishedTileDrain (p i : Nat) (ecc : List (Nat × EccResult)) (parity : List (Nat × Nat)) (s : State) : Result :=
  if s.works p then
    let s := ((s.eccAll ecc).mxeDrain p i parity).tileParity p (parity != [])
    .next (if (s.core p).ftq.isEmpty then s else s.wakeStalled p .finishedQueue)
  else .next s

/-- The CCLK by which an operation of context i comes later than asked, for its retire barrier (R180). -/
def State.barrierWait (s : State) (p i dt : Nat) : Nat :=
  max dt ((tget (s.core p).ctxs {} i).barrier - (s.cluster (p / 12)).seq.cycles)

/-- TILE_OPERATION: context i of core p issues an operation dt CCLK later (R16, R116, R176 to R182). A point at which it could stall is
a retire barrier although it does not (R180). -/
def execTileOperation (p i dt : Nat) (o : TeOp) (ecc : List (Nat × EccResult)) (parity : List Nat) (s : State) : Result :=
  match s.works p && decide (i < 48) && o.legal && (s.core p).takes i, (s.core p).running with
  | true, some ly =>
    let s := (s.advance (p / 12) (s.barrierWait p i dt)).eccAll ecc
    let s := s.modCore p (·.modCtx i (fun x => { x with st := .running, on := .nothing }))
    match o.stallsOn (s.core p) i with
    | some on => .next (s.modCore p (·.stall i on))
    | none => .next ((if o.canStall then s.modCore p (·.barrierAt i) else s).teEffect p i ly o parity)
  | _, _ => .next s

/-- LOAD_LAND: load j of context i of core p, from this device's storage, lands in its register; `ecc` reports the read
(R176 to R178, R190, R207). -/
def execLoadLand (p i dt j : Nat) (ecc : List (Nat × EccResult)) (s : State) : Result :=
  match (tget (s.core p).ctxs {} i).loads[j]? with
  | none => .next s
  | some l =>
    if s.works p ∧ l.handle = none then
      let s := (s.advance (p / 12) dt).eccAll ecc
      .next ((s.loadWrite p i 0 l (s.loaded l)).loadDone p i l)
    else .next s

end Sys2Proof.Machine
end

