-- ==== Sys2Proof/Machine/Coins.lean ====
section
/-!
DEFINITION. Coin operations as sequencers and tile contexts issue them, coin packets, deadlines and seals (13_coin_queues.md).
-/
set_option autoImplicit false
namespace Sys2Proof.Machine

/-- The clock of cluster c has come to an operation of a requester (R158, R180). DESIGN CHOICE, log entry 12. -/
def State.reqTick (s : State) (c : Nat) (who : Requester) (t : Tick) : State :=
  match who with
  | .sequencer => s.tick c t
  | .context pos i => s.advance c (s.barrierWait (c * 12 + pos) i t.cclk)
  | .outside _ _ _ => s

/-- A requester of cluster c's own that can issue now: its cluster has a clock, and a sequencer waits neither at a point barrier nor
at the layer boundary of a device-wide pre-emption (R157, R176, R405, R455, R456, R499). DESIGN CHOICE, log entry 12. DEDUCED, log entry 74. -/
def State.ownIssues (s : State) (c : Nat) (who : Requester) : Bool :=
  decide (c < 8) && !who.isOutside && s.canIssue c who && !(s.cluster c).clock.stopped &&
  (who != .sequencer || (!s.col.pointWait && (!s.stopsDevice || s.layersRun c)))

/-- An operation on a queue of the requester's own cluster; a poisoned instruction halts the sequencer (R159, R213). -/
def State.ownCoin (s : State) (c : Nat) (who : Requester) (t : Tick) (q : Nat) (op : CoinOp) : State :=
  if s.ownIssues c who then
    let s := s.reqTick c who t
    if who = .sequencer ∧ s.fetchLost c then s.seqMemLost c else s.coinLocal c q who op
  else s

/-- DEPOSIT (R407, R409 to R411). -/
def execDeposit (c : Nat) (who : Requester) (t : Tick) (q : Nat) (coin : W32) (s : State) : Result := .next (s.ownCoin c who t q (.deposit coin))
/-- TAKE (R407, R409, R411). -/
def execTake (c : Nat) (who : Requester) (t : Tick) (q : Nat) (s : State) : Result := .next (s.ownCoin c who t q .take)
/-- PEEK (R407, R411). -/
def execPeek (c : Nat) (who : Requester) (t : Tick) (q : Nat) (s : State) : Result := .next (s.ownCoin c who t q .peek)
/-- BELL (R407, R409, R411). -/
def execBell (c : Nat) (who : Requester) (t : Tick) (q : Nat) (coin : W32) (n : Nat) (s : State) : Result :=
  .next (s.ownCoin c who t q (.bell coin n))

/-- TAKE_N_ARM: the sequencer arms n for its next TAKE_N load of queue q (R411). -/
def execTakeNArm (c : Nat) (t : Tick) (q n : Nat) (s : State) : Result :=
  .next (s.onSeq c t (fun s =>
    if q < 256 then s.modCluster c (fun k => { k with coin := { k.coin with arm := tset k.coin.arm 0 q (n % 128 + 1) } }) else s))

/-- TAKE_N: a context names n; the sequencer takes the armed n, and without an arm its load faults (R159, R407, R411).
DESIGN CHOICE, log entry 59. -/
def execTakeN (c : Nat) (who : Requester) (t : Tick) (q n : Nat) (s : State) : Result :=
  match who with
  | .sequencer => .next (s.onSeq c t (fun s =>
      match tget (s.cluster c).coin.arm 0 q with
      | 0 => s.haltSeq c .malformed 3
      | k + 1 => (s.modCluster c (fun x => { x with coin := { x.coin with arm := tset x.coin.arm 0 q 0 } })).coinLocal c q .sequencer (.takeN k)))
  | _ => .next (s.ownCoin c who t q (.takeN n))

/-! ### Remote operations (R412 to R416) -/

/-- Cluster, queue, operation code and n of TARGET (R412). -/
def targetFields (x : W64) : Nat × Nat × Nat × Nat := (fld x.toNat 24 3, fld x.toNat 32 8, fld x.toNat 40 4, fld x.toNat 48 7)

/-- The operation that TARGET and COIN name goes out for a requester of cluster c (R412). -/
def State.goRemote (s : State) (c : Nat) (who : Requester) (target : W64) (coin : W32) : State :=
  let (tc, q, o, n) := targetFields target
  match coinOpOf o n coin with
  | none => s.toRequester c who .remote (.bad .malformed)
  | some op =>
    let s := match who with | .context _ _ => if op.waits && op.legal then s.waitCoin c who else s | _ => s
    s.coinRemote c who (Coord.ofNat target.toNat) tc q op

/-- REMOTE_COIN_GO: GO with TARGET and COIN as stored before it; `load` says that the sequencer then loads RESULT. With an
operation outstanding the write waits, and is issued again; a poisoned instruction halts the sequencer (R159, R213, R412). -/
def execRemoteCoinGo (c : Nat) (who : Requester) (t : Tick) (target : W64) (coin : W32) (load : Bool) (s : State) : Result :=
  if s.ownIssues c who then
    let s := s.reqTick c who t
    match who with
    | .sequencer =>
      if s.fetchLost c then .next (s.seqMemLost c)
      else if (s.cluster c).coin.outstanding then .next (s.waitCoin c who)
      else
        let s := s.modCluster c (fun k => { k with coin := { k.coin with
          target := target, coin := BitVec.ofNat 64 coin.toNat, outstanding := true } })
        let s := s.goRemote c who target coin
        .next (if load && (s.cluster c).coin.outstanding then s.waitCoin c who else s)
    | _ => .next (s.goRemote c who target coin)
  else .next s

/-- COIN_PACKET: a request arrives and is applied at its queue, in the order of its source and channel (R339, R350, R408, R413 to R415). -/
def execCoinPacket (p : Packet) (s : State) : Result :=
  if p.kind = 2 ∧ p.channel = 1 ∧ s.inTurn p then .next (s.coinRequest p) else .next s

/-- Whether a REPLY packet is well formed (R413, R414). -/
def replyOk (p : Packet) : Bool :=
  fld p.addr 12 4 == 5 && !bit p.addr 11 && fld p.addr 23 25 == 0 && !bit (leAt p.payload 15 1) 7

/-- COIN_REPLY: a REPLY completes the wait that its TAG names, or is dropped as late (R339, R350, R415). -/
def execCoinReply (p : Packet) (s : State) : Result :=
  if ¬ (p.kind = 2 ∧ p.channel = 6 ∧ s.inTurn p) then .next s else
  let s := s.consumed p
  if replyOk p then .next (s.replyIn p.src (fld p.addr 0 8) (fld p.addr 8 3) (leAt p.payload 12 2) (replyResult p.payload))
  else .next s.badPacket

/-! ### Deadlines (R421) -/

/-- COIN_WAIT_TIMEOUT: waiter j of a queue reaches its deadline (R409, R421, R428). -/
def execCoinWaitTimeout (c q j : Nat) (s : State) : Result :=
  match (s.queue c q).waiters[j]? with
  | some w => .next (if s.deadlineStopped c w then s else s.coinTimedOut c q w.who w.deadline (some w))
  | none => .next s

/-- COIN_GUARD_EXPIRY: remote wait j of this device reaches its guard with no REPLY (R421). -/
def execCoinGuardExpiry (j : Nat) (s : State) : Result :=
  match s.rtr.coinWaits[j]? with
  | some w => .next ((s.modRtr (fun r => { r with coinWaits := r.coinWaits.erase w })).coinTimedOut w.cluster w.queue w.who w.guard none)
  | none => .next s

/-! ### Seals (R350, R417 to R419) -/

/-- Whether some earlier payload of a source and channel is still held by the collective unit (R252, R350). DESIGN CHOICE, log entry 61. -/
def State.sealHeld (s : State) (src : Coord) (channel : Nat) : Bool :=
  s.col.heldSegs.any (fun p => p.src == src && p.channel == channel) || (channel == 2 && s.settle.heldLands != [])

/-- SEAL_DEPOSIT: the oldest seal of a source and channel is deposited once every payload up to it has been accepted
(R350, R418, R419). -/
def execSealDeposit (src : Coord) (channel : Nat) (s : State) : Result :=
  match s.rtr.seals.find? (fun p => p.src == src && p.channel == channel) with
  | some p =>
    if s.sealHeld src channel then .next s
    else match p.sealExt with
      | some (coin, q, c) =>
        let s := s.modRtr (fun r => { r with seals := r.seals.erase p })
        .next (s.coinApply (c % 8) (q % 256) (.outside src (c % 8) 0) (.deposit (BitVec.ofNat 32 coin)))
      | none => .next s
  | none => .next s

end Sys2Proof.Machine
end

