-- ==== Sys2Proof/Machine/Memory.lean ====
section
/-!
DEFINITION. Memory's own events and remote accesses: scrubs, tracking and repair (R190, R191, R209, R210, R214, R215), and the
WRITE, READ_REQ, READ_RSP and READ_ERR packets (R220, R221, R339, R350, R353, R610).
-/
set_option autoImplicit false
namespace Sys2Proof.Machine

/-! ### Vaults -/

/-- Whether a local address lies in a vault. -/
def State.inVault (s : State) (v : VaultName) (a : Nat) : Bool :=
  match v, regionOf s.dram.top a 1 with
  | .core p, .coreVault q => p == q
  | .cluster c, .clusterVault d => c == d
  | _, _ => false

/-- VAULT_SCRUB: one scrub of a vault, with what its ECC reported; the counts of corrected errors per bank begin again
(R190, R191). -/
def execVaultScrub (v : VaultName) (reports : List (Nat × EccResult)) (s : State) : Result :=
  .next ((s.eccAll (reports.filter (fun x => s.inVault v x.1))).modVault v (fun x => { x with corrected := [] }))

/-- VAULT_SPARE_DONE: the copy into the spare bank ends; units that were uncorrectable arrive poisoned, and the window of
VAULT_BANK_SPARED closes (R191, R494). -/
def execVaultSpareDone (v : VaultName) (bad : List Nat) (s : State) : Result :=
  match (s.vault v).copying with
  | none => .next s
  | some b =>
    let hit := bad.filter (fun a => s.inVault v a && v.bank a == b)
    let s : State := { s with mem := hit.foldl (fun (m : Memory) a => m.mark a) s.mem }
    .next ((s.modVault v (fun x => { x with copying := none })).closeWindow .vaultBankSpared v.unit.code)

/-! ### DRAM -/

/-- Whether channel n carries data: ACTIVE or ERASURE. -/
def State.channelWorks (s : State) (n : Nat) : Bool := (s.channel n).st == 1 || (s.channel n).st == 2

/-- DRAM_PATROL_SCRUB: the patrol reads `lines` more lines of channel n, with what their ECC reported; a patrol period ends
when it has read every line (R206, R208 to R210). -/
def execDramPatrolScrub (n lines : Nat) (reports : List (Nat × EccResult)) (s : State) : Result :=
  if s.channelWorks n ∧ s.dram.scrubHours ≠ 0 ∧ ¬ s.dram.selfRefresh then
    let s := s.eccAll (reports.filter (fun x => decide (x.1 < s.dram.top) && (s.dram.locate x.1).1 == n))
    let all := s.dram.moduleBytes / 64
    let next := (s.channel n).patrol + lines
    .next (s.modChannel n (fun c =>
      if all ≤ next then { c with patrol := 0, corrected := [], rowErrs := [] } else { c with patrol := next }))
  else .next s

/-- DRAM_TRACKING_UPDATE: a channel's margins after its update, whether one is below its floor, and whether a working
setting was found (R200, R214, R215). -/
def execDramTrackingUpdate (n : Nat) (margins : List Nat) (low found : Bool) (s : State) : Result :=
  if ¬ s.channelWorks n ∨ s.dram.selfRefresh then .next s
  else if ¬ found then .next ((s.log .dramTrackFail (srcDdr n) [(1, n)]).loseChannel n)
  else
    let s := (margins.zip (List.range 4)).foldl (fun (s : State) x => s.spanMin (ctDimm n x.2) x.1) s
    let s := if low ∧ ¬ (s.channel n).marginLow then s.log .dramMarginLow (srcDdr n) [(1, n)] else s
    .next (s.modChannel n (fun c => { c with marginLow := low }))

/-- SOFT_PPR: with no job loaded, the waiting candidates of a channel are repaired, but for the rows whose bank group has no
repair row left; `left` is the channel's PPR_LEFT afterwards (R210). DEDUCED, log entry 73. -/
def execSoftPpr (n : Nat) (exhausted : List Nat) (left : Nat) (s : State) : Result :=
  if s.job.loaded ∨ ¬ s.channelWorks n ∨ (s.channel n).pprList = [] then .next s
  else
    let rows := (s.channel n).pprList
    let s := rows.foldl (fun (s : State) r =>
      if exhausted.contains r then s.log .pprExhausted (srcDdr n) [(1, n)]
      else
        let s := (s.ledgerAppend 0x0008 (repairBytes 2 (srcDdr n) (r % 2 ^ 32) 0)).log .pprApplied (srcDdr n) [(1, n)]
        let s : State := { s with dram := { s.dram with pprApplied := satAdd 0xFFFF s.dram.pprApplied 1 } }
        s.modChannel n (fun c => { c with hardRepairs := c.hardRepairs ++ [r] })) s
    .next (s.modChannel n (fun c => { c with pprList := [], pprLeft := left }))

/-! ### Remote accesses (R220, R221, R339) -/

/-- REMOTE_WRITE: a WRITE packet is applied or refused (R220). -/
def execRemoteWrite (p : Packet) (s : State) : Result :=
  if p.kind = 6 ∧ s.inTurn p then .next ((s.consumed p).remoteWrite p) else .next s

/-- A READ_RSP with its data and the poison of its units (R213, R339). -/
def State.readRsp (s : State) (p : Packet) : State :=
  let n := fld (leAt p.payload 8 2) 0 14
  let map := (List.range ((n + 63) / 64)).filter (fun i => s.poisonIn (p.addr + 64 * i) (min 64 (n - 64 * i)))
  (s.inject { s.packet 6 8 p.src (leAt p.payload 0 6) (s.readMem p.addr n) with poison := map }).2

/-- READ_REQ: a read request is answered with its data, or with ADDRESS_FAULT; `ecc` is what the storage's ECC reported of
the read (R190, R207, R220). -/
def execReadReq (p : Packet) (ecc : List (Nat × EccResult)) (s : State) : Result :=
  if p.kind = 7 ∧ readReqOk p ∧ s.inTurn p then
    let s := s.consumed p
    let n := fld (leAt p.payload 8 2) 0 14
    if s.servable p.addr n then
      .next (((s.wakeAt p.addr).eccAll (ecc.filter (fun x => decide (p.addr ≤ x.1 ∧ x.1 < p.addr + n)))).readRsp p)
    else .next ((s.remoteFault p).readErr p 1)
  else .next s

/-! ### Responses (R353, R387, R444, R610) -/

/-- A read is no longer outstanding. -/
def State.readGone (s : State) (w : ReadWait) : State := s.modRtr (fun r => { r with reads := r.reads.erase w })

/-- The DMA_COPY that an outstanding read belongs to. -/
def State.dmaOf (s : State) (w : ReadWait) : Option DmaRun := s.host.dmas.find? (fun x => x.desc.num == w.unit)

/-- A read of a tile load by its handle: context and load. -/
def State.loadOf (s : State) (w : ReadWait) : Option LoadReq :=
  (tget (s.core (w.unit / 48)).ctxs {} (w.unit % 48)).loads.find? (fun l => l.handle == some w.handle)

/-- A read ends without data (R218, R353, R390). -/
def State.readFailed (s : State) (w : ReadWait) (st : Status) : State :=
  let s := s.readGone w
  match w.dest with
  | 0 => s.fillFailed w.cluster w.unit st
  | 1 =>
    let p := w.unit / 48
    let s := s.spoil p st
    (match s.loadOf w with | some l => s.loadDone p (w.unit % 48) l | none => s)
  | 2 => (match s.dmaOf w with | some x => s.dmaEnd x st | none => s)
  | _ => s

/-- The data of a response is placed (R176, R217, R387, R444, R610). -/
def State.readLanded (s : State) (w : ReadWait) (p : Packet) : State :=
  let s := s.readGone w
  match w.dest with
  | 0 => (s.writeMem w.addr p.payload (p.poisonAt w.addr)).filled w.cluster w.unit w.bytes
  | 1 =>
    let c := w.unit / 48
    (match s.loadOf w with
     | some l => (s.loadWrite c (w.unit % 48) 0 l (rawLoad l.off p.payload (fun j => p.poison.contains (j / 64)))).loadDone c (w.unit % 48) l
     | none => s)
  | 2 =>
    let s := s.writeMem w.addr p.payload (p.poisonAt w.addr)
    (match s.dmaOf w with
    | some x =>
      let y := { x with bytes := x.bytes + w.bytes }
      let s := s.modHost (fun h => { h with dmas := h.dmas.map (fun z => if z = x then y else z) })
      if s.rtr.reads.any (fun v => v.dest == 2 && v.unit == x.desc.num) then s else s.dmaEnd y .ok
    | none => s)
  | _ => s

/-- The outstanding read that a response answers (R610). -/
def State.readFor (s : State) (p : Packet) : Option ReadWait := s.rtr.reads.find? (fun w => w.handle == p.addr)

/-- A response that no outstanding read expects (R353, R610). DEDUCED, log entry 70. -/
def State.lateRsp (s : State) : State := s.modRtr (fun r => { r with late := satAdd 0xFFFF r.late 1 })

/-- READ_RSP: a read response is placed, or dropped as late (R610). DESIGN CHOICE, log entry 61. -/
def execReadRsp (p : Packet) (s : State) : Result :=
  if p.kind = 8 ∧ s.inTurn p then
    let s := s.consumed p
    match s.readFor p with
    | some w => .next (if w.dest = 3 then s.readGone w else (s.readLanded w p).accepted p)
    | none => .next s.lateRsp
  else .next s

/-- READ_ERR: a read ends with its cause (R339, R353). -/
def execReadErr (p : Packet) (s : State) : Result :=
  if p.kind = 9 ∧ s.inTurn p then
    let s := s.consumed p
    match s.readFor p with
    | some w => .next (s.readFailed w (match leAt p.payload 0 1 with | 1 => .malformed | 2 => .denied | _ => .linkAbsent))
    | none => .next s.lateRsp
  else .next s

/-- READ_TIMEOUT: the read with a handle has had no response within READ_TIMEOUT (R353). -/
def execReadTimeout (handle : Nat) (s : State) : Result :=
  match s.rtr.reads.find? (fun w => w.handle == handle) with
  | some w => .next ((s.reach w.deadline).readFailed w .linkAbsent)
  | none => .next s

end Sys2Proof.Machine
end

