-- ==== Sys2Proof/Machine/Collect.lean ====
section
/-!
DEFINITION. The commands of settlement and of the collective unit: landings, the device's contribution, collective entries
and their segments, the combining trees of the settlement statement and of the point barrier. `ecc` is what the ECC of vaults and DRAM reported of the reads that a command makes (R190, R207, R234 to R237, R244, R265, R376,
R380, R382, R385, R392 to R395, R455).
-/
set_option autoImplicit false
namespace Sys2Proof.Machine

/-! ### Settlement -/

/-- The residue check of an engine fails in the pass: the engine is contained, and R246 gives POISONED (R492, R499). -/
def State.engineFault (s : State) (n : Nat) : State :=
  if n < 24 ∧ s.inUse n ∧ ¬ s.engineFaulted n then
    ((s.detect .settleEngineFault (srcEngine n) []).contain ⟨.engine, n⟩).closeWindow .settleEngineFault (srcEngine n)
  else s

/-- Whether cluster c has ended a RUN_STEP with a status that forbids a contribution: one that R165 reports, or a completion
word other than OK on the lowest cluster of the command (R165, R451). -/
def State.stepFailed (s : State) (c : Nat) : Bool :=
  let q := (s.cluster c).seq
  match q.cmd, q.ended with
  | some d, some st => d.opcode == 4 && st != .ok && (q.reported || (maskList 8 d.mask).head? == some c)
  | _, _ => false

/-- Whether a cluster of the running RUN_STEP has failed. -/
def State.commandFailed (s : State) : Bool := (List.range 8).any s.stepFailed

/-- Whether a RUN_STEP is dispatched and has not completed. -/
def State.stepRuns (s : State) : Bool :=
  (List.range 8).any (fun c => match (s.cluster c).seq.cmd with | some d => d.opcode == 4 | none => false)

/-- Whether the last micro-step's reduce-scatter has ended; a RUN_STEP in which nothing lands has none (R237, R386). -/
def State.microsDone (s : State) : Bool :=
  decide (s.settle.accum ≤ s.settle.microDone) ||
  (s.stepRuns && s.settle.microDone == 0 && s.settle.landed.isEmpty && s.settle.heldLands.isEmpty &&
   !s.col.running.any (fun x => match s.planEntry x.index with | some e => peOp e == 4 | none => false))

/-- LANDING: the collective unit delivers a landing to its engine (R233, R234, R236, R252). -/
def execLanding (l : Land) (ecc : List (Nat × EccResult)) (s : State) : Result :=
  let n := rowN (s.row l.group)
  .next ((s.eccAll ecc).land { l with elems := (l.elems ++ List.replicate n 0).take n })

/-- SETTLE_CONTRIBUTION: after the last micro-step the device forms its contribution, and the reduction starts; `faults`
names the engines whose residue check fails in a pass that follows at once. The contribution of the next step waits until the RUN_STEP
of the decision has been posted (R237, R239, R246, R250, R260, R264, R395). DESIGN CHOICE, log entry 65. -/
def execSettleContribution (faults : List Nat) (ecc : List (Nat × EccResult)) (s : State) : Result :=
  if s.settle.phase ≠ .deciding ∧ s.settle.phase ≠ .pass ∧ s.settle.own = none ∧ s.microsDone ∧ ¬ s.commandFailed ∧
      (s.dec.status = none ∨ ¬ s.stepHeld) then
    .next (((s.eccAll ecc).contribute.each faults State.engineFault).stmtStart)
  else .next s

/-- SETTLE_WALK_END: a pass or walk has ended on every engine; PHASE is IDLE, and held landings and waiting SETTLE_CONFIGs
proceed (R232, R244, R252). DEDUCED, log entry 75. -/
def execSettleWalkEnd (ecc : List (Nat × EccResult)) (s : State) : Result :=
  if s.settle.phase = .pass then .next ((s.eccAll ecc).endWalk.releaseSegs) else .next s

/-- A point barrier fails: the command ends on every cluster that waits (R395, R455). DEDUCED, log entry 69. -/
def State.pointFail (s : State) (st : Status) : State :=
  let s := s.modCol (fun c => { c with points := [], pointOwn := false, pointWait := false })
  (List.range 8).foldl (fun s c => s.haltSeq c st 0) s

/-- STMT_TIMEOUT: no broadcast within STMT_TIMEOUT of the contribution, or of reaching a point (R395, R455). -/
def execStmtTimeout (s : State) : Result :=
  let late (t : Nat) : State := s.reach (t + s.col.stmtTimeout * 1000000)
  if s.settle.phase = .deciding ∧ s.settle.own.isSome then .next ((late s.dec.formedAt).stmtFail .waitTimeout)
  else if s.col.pointWait then .next ((late s.col.pointAt).pointFail .waitTimeout)
  else .next s

/-- SPIKE_RESET: the loss-spike detector is reset (R265, R266). -/
def execSpikeReset (s : State) : Result := .next (s.modSet (fun t => { t with spike := t.spike.reset }))

/-! ### Collective entries -/

/-- A refused start deposits its completion coin with the status (R380, R382, R397). -/
def State.refuseEntry (s : State) (i : Nat) (st : Status) : State :=
  match s.planEntry i with
  | some e => if peDoneEn e ∧ peOp e ≠ 5 then s.collectiveCoin (peDone e) (peQueue e) (BitVec.ofNat 32 (i + st.code * 2 ^ 24)) else s
  | none => s

/-- A start of entry i (R371, R382, R386, R388, R397). -/
def State.startEntry (s : State) (i micro : Nat) (last : Bool) : State :=
  let s := if last then s.modCol (fun c => { c with lastMarked := if c.lastMarked.contains micro then c.lastMarked else c.lastMarked ++ [micro] }) else s
  match s.planEntry i with
  | none => s
  | some e =>
    let s := if peOp e = 5 then s.issueFill i
      else match s.startStatus i with
        | some st => s.refuseEntry i st
        | none => s.entryRun i micro last e
    s.microEnd

/-- COLLECTIVE_START: the sequencer of cluster c starts a plan entry; a GRAD_LAND start names its micro-step and whether it is
the last of it (R382, R383, R386). -/
def execCollectiveStart (c : Nat) (t : Tick) (i micro : Nat) (last : Bool) (ecc : List (Nat × EccResult)) (s : State) : Result :=
  .next (s.onSeq c t (fun s => (s.eccAll ecc).startEntry i micro last))

/-- The residue check of an in-line reducer fails: the units of the result are poisoned (R211, R375, R499). -/
def Packet.poisonAll (p : Packet) : Packet := { p with poison := List.range ((p.payload.length + 63) / 64) }

/-- REDUCE_SEGMENT: a segment is reduced with the local contribution and passed on, or lands; `fault` is a failed residue check
of the reducer (R372 to R375, R385, R499). -/
def execReduceSegment (p : Packet) (fault : Bool) (ecc : List (Nat × EccResult)) (s : State) : Result :=
  if p.kind = 4 ∧ s.inTurn p then
    let q := if fault then p.poisonAll else p
    let s := (s.takeIn p q).eccAll ecc
    let s := if fault then s.detect .collectiveFault (srcBlock 1) [] else s
    .next ((s.segment q).accepted p)
  else .next s

/-- GATHER_SEGMENT: a segment is copied into place and passed on (R376). -/
def execGatherSegment (p : Packet) (s : State) : Result :=
  if p.kind = 5 ∧ s.inTurn p then .next (((s.takeIn p p).segment p).accepted p) else .next s

/-- COLLECTIVE_END: a GRAD_LAND's stage ends and passes on what only this device held; an entry whose packets and writes are
all accepted ends, with its completion coin (R380, R385, R386). DEDUCED, log entry 68. -/
def execCollectiveEnd (i : Nat) (ecc : List (Nat × EccResult)) (s : State) : Result :=
  match s.runOf i, s.planEntry i with
  | some x, some e =>
    let s := s.eccAll ecc
    let s := if peOp e = 4 ∧ x.stages ≠ [] then s.gradStageEnd i e x else s
    (match s.runOf i with
     | some y => if y.stages = [] ∧ y.need = 0 ∧ s.segsGone i then .next (s.entryEnd i .ok).microEnd else .next s
     | none => .next s.microEnd)
  | _, _ => .next s

/-! ### The settlement statement -/

/-- Whether a STATEMENT packet is well formed and of this slice (R394). -/
def State.stmtOk (s : State) (p : Packet) (bc : Bool) : Bool :=
  p.kind == 3 && p.payload.length == 64 && bit p.addr 0 == bc && fld p.addr 3 13 == 0 && s.hasSlice &&
  fld p.addr 16 32 == s.rtr.slice.id

/-- STATEMENT_COMBINE: a child's statement is held, and the sum goes up, or the root decides, once every child's is there
(R391, R392, R397). DESIGN CHOICE, log entry 72. -/
def execStatementCombine (p : Packet) (faults : List Nat) (ecc : List (Nat × EccResult)) (s : State) : Result :=
  if ¬ s.inTurn p ∨ p.kind ≠ 3 then .next s
  else
    let s := s.consumed p
    let a := fld p.addr 1 2
    let plus := s.fromPlus a p.src
    if ¬ s.stmtOk p false ∨ (s.dec.stmtState = 3 ∧ s.dec.status.isSome) ∨ ¬ (s.treeKids a).any (fun k => k.2 == p.src) then .next s.badPacket
    else
      let s := s.modDec (fun d => { d with children := d.children.filter (fun c => !(c.1 == a && c.2.1 == plus)) ++ [(a, plus, Stmt.ofBytes p.payload)] })
      if s.settle.phase = .deciding then .next (((s.eccAll ecc).each faults State.engineFault).stmtAdvance) else .next s

/-- STATEMENT_BROADCAST: the final statement is kept and forwarded, and the device decides from it; `faults` names the engines
whose residue check fails in the pass (R271, R393, R499). -/
def execStatementBroadcast (p : Packet) (faults : List Nat) (ecc : List (Nat × EccResult)) (s : State) : Result :=
  if ¬ s.inTurn p ∨ p.kind ≠ 3 then .next s
  else
    let s := s.consumed p
    if ¬ s.stmtOk p true ∨ s.settle.phase ≠ .deciding ∨ ¬ s.dec.sentUp then .next s.badPacket
    else .next (((s.eccAll ecc).each faults State.engineFault).stmtFinal p.payload)

/-! ### Point barriers -/

/-- Whether a point-barrier packet is well formed and of this slice (R455). -/
def State.pointOk (s : State) (p : Packet) (bc : Bool) : Bool :=
  p.kind == 1 && p.payload.length == 16 && fld p.addr 0 8 == (if bc then 2 else 1) && s.hasSlice && fld p.addr 16 32 == s.rtr.slice.id

/-- The clusters of this device reach point n (R455). DEDUCED, log entry 69. -/
def State.reachPoint (s : State) (n : Nat) : State :=
  if ¬ s.commandRuns ∨ s.col.pointWait ∨ (List.range 8).any (fun c => s.layersLeft c) then s
  else
    let s := s.modCol (fun c => { c with pointOwn := true, pointWait := true, pointNo := n, pointAt := s.aoNs })
    if ¬ s.hasSlice then s.pointFinal n s.preempt
    else if s.rtr.slice.st = 2 then s.pointFail .sliceDegraded
    else s.pointAdvance

/-- POINT_BARRIER_COMBINE: this device's clusters reach point n, or a child's combine packet arrives (R455). -/
def execPointBarrierCombine (n : Nat) (arrived : Option Packet) (s : State) : Result :=
  match arrived with
  | none => .next (s.reachPoint n)
  | some p =>
    if ¬ s.inTurn p ∨ p.kind ≠ 1 then .next s
    else
      let s := s.consumed p
      let a := s.srcAxis p.src
      if ¬ s.pointOk p false ∨ ¬ (s.treeKids a).any (fun k => k.2 == p.src) then .next s.badPacket
      else
        .next ((s.modCol (fun c => { c with points := c.points ++ [(a, s.fromPlus a p.src, leAt p.payload 0 4, bit (leAt p.payload 4 1) 0)] })).pointAdvance)

/-- POINT_BARRIER_BROADCAST: the clusters go on, or stop at the point when PENDING is set (R455, R456). -/
def execPointBarrierBroadcast (p : Packet) (s : State) : Result :=
  if ¬ s.inTurn p ∨ p.kind ≠ 1 then .next s
  else
    let s := s.consumed p
    if ¬ s.pointOk p true ∨ ¬ s.col.pointWait ∨ leAt p.payload 0 4 ≠ s.col.pointNo then .next s.badPacket
    else .next (s.pointFinal (leAt p.payload 0 4) (bit (leAt p.payload 4 1) 0))

end Sys2Proof.Machine
end

