-- ==== Sys2Proof/Machine/JobOps.lean ====
section
/-!
DEFINITION. The loaded job: the image and its checks (R171 to R174), clearing and scrubbing (R446), the save and the restore of
a pre-empted job (R424, R425, R456, R457), and the completion of a running command (R165, R451, R452).
-/
set_option autoImplicit false
namespace Sys2Proof.Machine

/-! ### Measurement slots (R553) -/

/-- Measurement slot i. -/
def Security.slot (x : Security) (i : Nat) : List Byte := tget x.slots (List.replicate 32 0) i
/-- Slot i replaced. -/
def State.setSlot (s : State) (i : Nat) (v : List Byte) : State :=
  s.modSec (fun x => { x with slots := tset x.slots (List.replicate 32 0) i v })
/-- Slot i extended with x. -/
def State.extendSlot (s : State) (i : Nat) (x : List Byte) : State := s.setSlot i (sha256 (s.sec.slot i ++ x))

/-! ### Clearing a job (R446) -/

/-- IMEM and DMEM hold zero. -/
def Sequencer.clearMems (q : Sequencer) : Sequencer := { q with imem := [], dmem := [], imemBad := [], dmemBad := [] }

/-- Sequencer memories, queues, the sequence table and loss of a cluster are cleared. -/
def Cluster.clearJob (k : Cluster) : Cluster :=
  { k with seq := k.seq.clearMems, queues := [], saved := false, slots := [], shadow := [],
           commitPending := false, pendingBank := [], loss := [], tags := [], coin := {} }

/-- The job is cleared: its memories, the collective plan, the job settings, every row, the sequence table, the coin queues
and the guard state; a saved context is discarded (R446, R553). -/
def State.clearJob (s : State) : State :=
  let s := s.modClusters (fun _ k => k.clearJob)
  let s := { s with job := {}, saved := none, preempt := false, settle := { interrupted := s.settle.interrupted }, dec := {} }
  let s := s.modCol (fun c => { runahead := c.runahead, stmtTimeout := c.stmtTimeout, flags := c.flags, issued := c.issued, cancelled := c.cancelled })
  (s.modSec (fun x => { x with unchecked := false })).setSlot 9 (List.replicate 32 0)

/-- What SCRUB overwrites with zero (R446). -/
def State.scrub (s : State) (level : Nat) : State :=
  if level = 0 then s
  else
    let s := { s with mem := s.mem.zero dramWindow (2 ^ 48), cores := s.cores.map (fun (x : Nat × Core) => (x.1, ({ x.2 with regs := [] } : Core))) }
    let s := s.modClusters (fun _ k => { k with seq := k.seq.clearMems })
    if level = 2 then { s with mem := s.mem.zero 0 dramWindow } else s

/-! ### The image (R171 to R174) -/

/-- A section of an image (R172). -/
structure Section where
  type    : Nat
  cluster : Nat
  zero    : Bool
  off     : Nat
  size    : Nat
  dest    : Nat

/-- Section i of an image. -/
def sectionOf (img : List Byte) (i : Nat) : Section :=
  let b := (img.drop (leAt img 0x18 8 + 32 * i)).take 32
  { type := leAt b 0 2, cluster := leAt b 2 1, zero := bit (leAt b 3 1) 0, off := leAt b 8 8, size := leAt b 16 8, dest := leAt b 24 8 }

def imgCount (img : List Byte) : Nat := leAt img 0x0A 2
def imgSize (img : List Byte) : Nat := leAt img 0x10 8
def imgSigned (img : List Byte) : Bool := bit (leAt img 0x0C 4) 0
/-- The sections of an image, in table order. -/
def imgSections (img : List Byte) : List Section := (List.range (imgCount img)).map (sectionOf img)
/-- The bytes that a section loads. -/
def Section.bytes (x : Section) (img : List Byte) : List Byte := if x.zero then List.replicate x.size 0 else (img.drop x.off).take x.size

/-- The LCBs of a section of type LCB_TABLE. -/
def Section.lcbs (x : Section) (img : List Byte) : List (List Byte) :=
  let b := x.bytes img
  (List.range (leAt b 0 4)).map (fun i => (b.drop (64 + 512 * i)).take 512)

/-- Whether a local address range lies in populated DRAM or in one cluster vault. DESIGN CHOICE, log entry 66. -/
def State.inDramOrClusterVault (s : State) (a n : Nat) : Bool :=
  match regionOf s.dram.top a n with | .dram | .clusterVault _ => true | _ => false

/-- Whether a section keeps the sizes, places and types of R172. DEDUCED, log entry 77. -/
def State.sectionOk (s : State) (img : List Byte) (x : Section) : Bool :=
  x.off % 64 == 0 && (x.zero || (decide (128 ≤ x.off) && decide (x.off + x.size ≤ imgSize img))) &&
  (decide (x.cluster < 8) || x.cluster == 0xFF) &&
  (if x.type = 1 then decide (x.dest + x.size ≤ 0x40000)
   else if x.type = 2 then decide (x.dest + x.size ≤ 0x80000)
   else if x.type = 3 then
     decide (64 ≤ x.size) && x.size == 64 + 512 * leAt (x.bytes img) 0 4 &&
     (if bit x.dest 63 then s.inDramOrClusterVault (fld x.dest 0 48) x.size else decide (x.dest + x.size ≤ 0x80000))
   else if x.type = 4 then (match regionOf s.dram.top x.dest x.size with | .other => false | _ => true)
   else if x.type = 5 then x.size % 32 == 0 && x.cluster == 0xFF
   else x.type == 0xFF || decide (0x8000 ≤ x.type))

/-- Whether two byte ranges overlap. -/
def overlaps (a n b m : Nat) : Bool := decide (a < b + m) && decide (b < a + n) && decide (0 < n) && decide (0 < m)

/-- Ranges of the image that its table and sections take. -/
def imgRanges (img : List Byte) : List (Nat × Nat) :=
  (leAt img 0x18 8, 32 * imgCount img) :: ((imgSections img).filter (fun x => !x.zero)).map (fun x => (x.off, x.size))

/-- Whether no two ranges of a list overlap. -/
def disjoint : List (Nat × Nat) → Bool
  | [] => true
  | x :: xs => xs.all (fun y => !overlaps x.1 x.2 y.1 y.2) && disjoint xs

/-- Row 3 of R174 passes: every section is well placed, SIGNATURE stands last exactly when SIGNED = 1. -/
def State.tableOk (s : State) (img : List Byte) : Bool :=
  let n := imgCount img
  let t := leAt img 0x18 8
  let xs := imgSections img
  decide (1 ≤ n) && decide (n ≤ 1024) && imgSize img % 64 == 0 && decide (imgSize img ≤ img.length) && t % 64 == 0 && decide (128 ≤ t) &&
  decide (t + 32 * n ≤ imgSize img) && xs.all (s.sectionOk img) && disjoint (imgRanges img) &&
  ((xs.filter (fun x => x.type == 0xFF)).length == (if imgSigned img then 1 else 0)) &&
  (!imgSigned img || (match xs.getLast? with | some x => x.type == 0xFF | none => false))

/-- Where the hashed bytes of an image end (R171). -/
def imgHashEnd (img : List Byte) : Nat :=
  match (imgSections img).find? (fun x => x.type == 0xFF) with | some x => x.off | none => imgSize img
/-- CONTENT_HASH as computed (R171). -/
def imgHash (img : List Byte) : List Byte := sha256 (img.take 64 ++ (img.drop 128).take (imgHashEnd img - 128))
/-- CONTENT_HASH as the header gives it. -/
def imgContentHash (img : List Byte) : List Byte := padTo 32 (img.drop 0x40)

/-- The owner key hash (R564). -/
def Security.owner (x : Security) : List Byte := (List.range 4).flatMap (fun i => leBytes 8 (tget x.ownerKey 0 i).toNat)
/-- Whether an owner key is set. -/
def Security.hasOwner (x : Security) : Bool := x.owner.any (· != 0)

/-- Whether a vendor signature verifies (R542, R543). DESIGN CHOICE, log entry 31. -/
def State.vendorSigned (s : State) (key sig msg : List Byte) : Bool :=
  let h := sha256 key
  (h == s.fuses.vendor1 || (h == s.fuses.vendor0 && !s.fuses.revoke0)) && Config.hssVerifies key sig msg
/-- Whether a signature verifies under the owner key (R542, R550). DESIGN CHOICE, log entry 31. -/
def State.ownerSigned (s : State) (key sig msg : List Byte) : Bool :=
  s.sec.hasOwner && sha256 key == s.sec.owner && Config.hssVerifies key sig msg

/-- Row 5 of R174 (R551): whether the image is refused, and whether a signature was rejected. -/
def State.imgRefused (s : State) (img : List Byte) : Bool × Bool :=
  if imgSigned img then
    if s.sec.hasOwner then
      let b := match (imgSections img).find? (fun x => x.type == 0xFF) with | some x => x.bytes img | none => []
      let ok := s.ownerSigned (b.take 60) (b.drop 60) (imgContentHash img) || s.vendorSigned (b.take 60) (b.drop 60) (imgContentHash img)
      (!ok, !ok)
    else (false, false)
  else (s.sec.requireSigned, false)

/-- Whether a guard symbol's index is in range and its KIND is not reserved (R14, R173, R174 row 8). DEDUCED, log entry 77. -/
def symbolOk (b : List Byte) : Bool :=
  let i := leAt b 4 4
  match leAt b 0 1 with
  | 1 => decide (i < 1024)
  | 2 => decide (i < 4096)
  | 3 => decide (i < 256)
  | 4 => decide (i < 256) && decide (leAt b 1 1 ≤ 7)
  | 5 => true
  | 6 => decide (i < 2 ^ 24)
  | _ => false

/-- Guard symbols of an image, as 32-byte entries in order. -/
def imgSymbols (img : List Byte) : List (List Byte) :=
  ((imgSections img).filter (fun x => x.type == 5)).flatMap (fun x =>
    (List.range (x.size / 32)).map (fun i => ((x.bytes img).drop (32 * i)).take 32))

/-- LCBs of an image, in section order. -/
def imgLcbs (img : List Byte) : List (List Byte) := ((imgSections img).filter (fun x => x.type == 3)).flatMap (fun x => x.lcbs img)

/-- The first element that fails a check, with its index. -/
def firstBad {α β : Type} (f : α → Option β) (l : List α) : Option (Nat × β) :=
  (l.zip (List.range l.length)).findSome? (fun x => (f x.1).map (fun r => (x.2, r)))

/-- The deciding row of R174: row number, index of the LCB, section or symbol concerned, status. -/
def State.imgCheck (s : State) (img : List Byte) : Option (Nat × Nat × Status) :=
  if leAt img 0 4 ≠ 0x1A494745 ∨ leAt img 4 2 ≠ 1 ∨ leAt img 8 2 ≠ 128 ∨ leAt img 0x20 2 ≠ 0x0096 ∨ 0xB1 < leAt img 0x22 1 then some (1, 0, .malformed)
  else if leAt img 0x28 4 ≠ 0x00960001 then some (2, 0, .malformed)
  else if ¬ s.tableOk img then
    some (3, (match firstBad (fun x => if s.sectionOk img x then none else some ()) (imgSections img) with | some x => x.1 | none => 0), .malformed)
  else if imgHash img ≠ imgContentHash img then some (4, 0, .malformed)
  else if (s.imgRefused img).1 then some (5, 0, .denied)
  else if (List.range 8).any (fun c => decide (s.clusterArrays c < fld (leAt img 0x24 4) (4 * c) 4)) then some (6, 0, .unitAbsent)
  else match firstBad lcbLoadCheck (imgLcbs img) with
    | some (i, st) => some (7, i, st)
    | none => match firstBad (fun b => if symbolOk b then none else some ()) (imgSymbols img) with
      | some (i, _) => some (8, i, .malformed)
      | none => none

/-- DETAIL of a status that a checking table decides (R452). -/
def detailOf (row index : Nat) : Nat := row + (index % 2 ^ 24) * 256

/-- The poisoned units of a sequencer memory after n bytes are loaded at a, with the poison of each unit of the source (R211 to R213). -/
def badAfter (bad : List Nat) (a n : Nat) (src : Nat → Bool) : List Nat :=
  bad.filter (fun u => !(unitsOf a n).contains u || poisonAfter true (src u) a n u) ++
  (unitsOf a n).filter (fun u => src u && !bad.contains u)
/-- Bytes loaded into DMEM. -/
def Sequencer.loadDmem (q : Sequencer) (a : Nat) (b : List Byte) (src : Nat → Bool) : Sequencer :=
  { q with dmem := cellsPut q.dmem a b, dmemBad := badAfter q.dmemBad a b.length src }
/-- Bytes loaded into IMEM. -/
def Sequencer.loadImem (q : Sequencer) (a : Nat) (b : List Byte) (src : Nat → Bool) : Sequencer :=
  { q with imem := cellsPut q.imem a b, imemBad := badAfter q.imemBad a b.length src }

/-- Clusters that a section names. -/
def Section.targets (x : Section) : List Nat := if x.cluster = 0xFF then List.range 8 else [x.cluster]

/-- One section is loaded (R172). `src` is the local address of the image when it lies in local storage; poison of that image goes
into IMEM and DMEM with the data, where R159 meets it (R213). -/
def State.loadSection (s : State) (img : List Byte) (src : Option Nat) (x : Section) : State :=
  let b := x.bytes img
  let bad : List Bool := match src with | some i => if x.zero then [] else s.poisonList (i + x.off) x.size | none => []
  let toDmem (s : State) (off : Nat) : State :=
    x.targets.foldl (fun s c => s.modSeq c (fun q => q.loadDmem off b (poisonFrom off bad))) s
  let toMem (s : State) (a : Nat) : State :=
    match src with
    | some i => if x.zero then s.writeMem a b else s.copyMem (i + x.off) a x.size
    | none => s.writeMem a b
  if x.type = 1 then x.targets.foldl (fun s c => s.modSeq c (fun q => q.loadImem x.dest b (poisonFrom x.dest bad))) s
  else if x.type = 2 then toDmem s x.dest
  else if x.type = 3 then (if bit x.dest 63 then toMem s (fld x.dest 0 48) else toDmem s x.dest)
  else if x.type = 4 then toMem s x.dest
  else s

/-- A checked image is loaded (R172 to R174, R183, R551, R553). DESIGN CHOICE, log entry 35. -/
def State.loadImage (s : State) (d : Desc) (img : List Byte) (src : Option Nat) : State :=
  let s := (imgSections img).foldl (fun s x => s.loadSection img src x) s
  let s := s.modClusters (fun _ k => { k with tags := [] })
  let s := { s with job := { loaded := true, id := d.at 0x20 4, ctxAddr := d.at 0x18 8, seed := BitVec.ofNat 64 (leAt img 0x30 8),
                             hash := imgContentHash img, symbols := (imgSymbols img).flatten } }
  let s := s.modSec (fun x => { x with unchecked := imgSigned img && !x.hasOwner })
  (s.setSlot 9 (imgContentHash img)).extendSlot 10 (imgContentHash img)

/-- Whether loading an image writes DRAM on a channel whose words disagree (R27, R172). DESIGN CHOICE, log entry 79. -/
def State.imgMismatch (s : State) (img : List Byte) : Bool :=
  (imgSections img).any (fun x =>
    (x.type == 4 || (x.type == 3 && bit x.dest 63)) && s.dramMismatch (fld x.dest 0 48) x.size)

/-- Sections that loading takes up (R452). -/
def imgLoaded (img : List Byte) : Nat := ((imgSections img).filter (fun x => decide (1 ≤ x.type ∧ x.type ≤ 5))).length

/-! ### The end of a command (R165, R451, R452) -/

/-- How command d ended on cluster c, once it has and no layer of it runs there. -/
def State.endOf (s : State) (d : Desc) (c : Nat) : Option EndRec :=
  let q := (s.cluster c).seq
  if q.cmd = some d then
    if q.active || s.layersRun c then none
    else some { desc := d, cluster := c, status := q.ended.getD .ok, reported := q.reported, result := q.result }
  else s.host.endedOn.find? (fun r => r.desc == d && r.cluster == c)

/-- How command d ended on each cluster of its mask, in cluster order. -/
def State.endsOf (s : State) (d : Desc) : List EndRec := (maskList 8 d.mask).filterMap (s.endOf d)

/-- Whether every cluster of a command has ended it and no layer of it runs. -/
def State.cmdEnded (s : State) (d : Desc) : Bool := (maskList 8 d.mask).all (fun c => (s.endOf d c).isSome)

/-- The status of R165: the non-OK status of the lowest-numbered cluster that reported one, or else the completion word of the
lowest-numbered cluster of the mask; and the cluster that decided. -/
def State.clustersStatus (s : State) (d : Desc) : Status × Nat :=
  let es := s.endsOf d
  match es.find? (fun e => e.reported && e.status != .ok) with
  | some e => (e.status, e.cluster)
  | none => match es with
    | e :: _ => if e.status = .ok then (.ok, 0) else (e.status, e.cluster)
    | [] => (.ok, 0)

/-- The status of a command that every cluster has ended, and the cluster that decided: the clusters' status, SLICE_DEGRADED,
then for a RUN_STEP the decision's (R165, R357, R451). -/
def State.cmdStatus (s : State) (d : Desc) (step : Bool) : Status × Nat :=
  let x := s.clustersStatus d
  if x.1 ≠ .ok then x
  else if s.dec.degraded then (.sliceDegraded, 0)
  else ((if step then s.dec.status.getD .ok else .ok), 0)

/-- RESULT of a command: the word of cluster 0, or of the lowest cluster in the mask (R452). -/
def State.cmdResult (s : State) (d : Desc) : Nat := match s.endsOf d with | e :: _ => e.result.toNat | [] => 0

/-- The command leaves its clusters, which are then ready for the next; nothing is left of a RUN_STEP's decision (R441, R611). -/
def State.cmdGone (s : State) (d : Desc) : State :=
  let s := (maskList 8 d.mask).foldl (fun s c => s.modSeq c (fun q =>
    if q.cmd = some d then { q with cmd := none, ended := none, reported := false } else q)) s
  let s := s.modHost (fun h => { h with endedOn := h.endedOn.filter (fun r => r.desc != d) })
  let s := if d.opcode = 4 then s.stepPosted else s
  (if s.commandRuns then s else s.modDec (fun x => { x with degraded := false })).timeSettles

/-! ### Pre-emption (R424, R425, R454 to R457) -/

/-- Whether the loaded job has a context region (R454). -/
def State.hasContext (s : State) : Bool := s.job.loaded && s.job.ctxAddr != 0

/-- The command that runs on some cluster. -/
def State.runningCmd (s : State) : Option Desc := (List.range 8).findSome? (fun c => if (s.cluster c).seq.active then (s.cluster c).seq.cmd else none)

/-- Vault bytes and poison. -/
def State.vaultCells (s : State) : List Host.Cell := s.mem.cells.filter (fun c => decide (dramWindow ≤ c.1))
def State.vaultPoison (s : State) : Tab Bool := s.mem.poison.filter (fun c => decide (dramWindow ≤ c.1 * 64))

/-- The state of the job is saved, and its queues are emptied (R424, R456). DESIGN CHOICE, log entry 35. -/
def State.saveJob (s : State) (point : Nat) : State :=
  let ctx : SavedContext :=
    { job := s.job, clusters := s.clusters, hwm := s.hwm, settle := s.settle, decision := s.dec, vaults := s.vaultCells,
      vaultPoison := s.vaultPoison, slice := s.rtr.slice, cmd := s.runningCmd, point := point }
  (List.range 8).foldl (fun s c => s.saveQueues c) { s with saved := some ctx }

/-- The running command ends on every cluster, PREEMPTED (R456). -/
def State.stopCommand (s : State) : State :=
  (List.range 8).foldl (fun s c => if (s.cluster c).seq.active then s.endOn c .preempted 0 true 0 else s.cancelFills c) s

/-- Whether a pending pre-emption takes effect now (R252, R397, R456). DEDUCED, log entry 74. -/
def State.preemptDue (s : State) : Bool :=
  let still := s.settle.phase != .deciding && s.settle.phase != .pass && s.col.running.isEmpty && (List.range 8).all (fun c => !s.layersRun c)
  still && (s.preempt || s.col.pointStop || s.preempts != []) &&
  (!s.commandRuns || s.col.pointStop || s.stopsDevice)

/-- The commands that run on some cluster, by cluster. -/
def State.runningCmds (s : State) : List Desc :=
  ((List.range 8).filterMap (fun c => if (s.cluster c).seq.active then (s.cluster c).seq.cmd else none)).eraseDups

/-- A running command that a pre-emption has stopped completes PREEMPTED, with the point number as its RESULT; a command that a
RESUME restarted completes as the RESUME (R276, R452, R456, R457). -/
def State.preempted (s : State) (point : Nat) (d : Desc) : State :=
  let guard := if d.opcode = 4 then s.guardWord else 0
  match s.host.resumed with
  | some (r, x) =>
    if x = d then ((s.cmdGone d).modHost (fun h => { h with resumed := none })).complete r .preempted point 0 guard
    else (s.cmdGone d).complete d .preempted point 0 guard
  | none => (s.cmdGone d).complete d .preempted point 0 guard

/-- The pre-emption takes effect: the state is saved, the running commands complete PREEMPTED, and every PREEMPT completes
(R456, R463). DEDUCED, log entry 74. -/
def State.takePreempt (s : State) : State :=
  let point := if s.col.pointStop then s.col.pointNo else 0
  let cmds := s.runningCmds
  let ok := s.hasContext
  let s := if ok then s.saveJob point else s.log .preemptNoContext (srcBlock 3) []
  let s := cmds.foldl (fun s d => s.preempted point d) s.stopCommand
  let ds := s.preempts
  let s := { s with preempts := [], preempt := false }
  let s := s.modCol (fun c => { c with pointStop := false, pointOwn := false, pointWait := false })
  ds.foldl (fun s d => s.complete d (if ok then .ok else .denied)) s

/-- The saved parts of a cluster put back: sequencer, sequence table, loss, hazards and coin view (R457). -/
def Cluster.restore (k old : Cluster) : Cluster :=
  { k with seq := old.seq, slots := old.slots, shadow := old.shadow, commitPending := old.commitPending, pendingBank := old.pendingBank,
           loss := old.loss, coin := old.coin, tags := old.tags, haz := old.haz }

/-- The saved context is restored, but for the guard settings, which are registers of the host (R278); its waiters are reissued, and the pre-empted command stands at its saved point
(R425, R457). DESIGN CHOICE, log entry 35. -/
def State.restoreJob (s : State) (x : SavedContext) : State :=
  let t := s.settle
  let kept : Settle := { x.settle with ctrlPolicy := t.ctrlPolicy, spikeEn := t.spikeEn, reseed := t.reseed, warmup := t.warmup,
                                       alpha := t.alpha, bandK := t.bandK, cfgDue := t.cfgDue }
  let s := { s with saved := none, hwm := x.hwm, settle := kept, dec := x.decision, mem :=
    { cells := s.mem.cells.filter (fun (c : Host.Cell) => decide (c.1 < dramWindow)) ++ x.vaults.filter (fun (c : Host.Cell) => decide (dramWindow ≤ c.1))
      poison := s.mem.poison.filter (fun (c : Nat × Bool) => decide (c.1 * 64 < dramWindow)) ++ x.vaultPoison.filter (fun (c : Nat × Bool) => decide (dramWindow ≤ c.1 * 64)) } }
  let s := s.modClusters (fun c k => k.restore (tget x.clusters {} c))
  (List.range 8).foldl (fun s c => s.restoreQueues c (tget x.clusters {} c).queues) s

end Sys2Proof.Machine
end

