-- ==== Sys2Proof/Machine/ResetOps.lean ====
section
/-!
DEFINITION. The fatal state (R497) and what each kind of reset clears and keeps (R422, R481, R497, R572 to R580, R599).
-/
set_option autoImplicit false
namespace Sys2Proof.Machine

/-! ### The fatal state (R497) -/

/-- Every ring becomes STOPPED, and every fetched descriptor completes POISONED (R276, R497). -/
def State.stopRings (s : State) : State :=
  let ds := s.fetchedDescs
  let s := s.modHost (fun h => { h with rings := h.rings.map (fun x =>
    (x.1, { x.2 with waiting := [], st := if x.2.st = .disabled then .disabled else .stopped })), dmas := [], endedOn := [], resumed := none })
  let s : State := { s with preempts := [], units := tmods s.units {} (s.units.map (·.1)) (fun _ w => { w with fencing := none }) }
  let s := s.modRtr (fun r => { r with proxies := [], reads := r.reads.filter (fun w => w.dest != 2) })
  let guard (d : Desc) : Nat := if d.opcode = 4 then (if (List.range 8).any (fun c => (s.cluster c).seq.cmd == some d) then s.guardWord else s.guardWordOf {}) else 0
  ds.foldl (fun s d => s.complete d .poisoned 0 0 (guard d)) s

/-- The device enters the fatal state: clocks stop, DRAM enters self-refresh, rings stop, ports go down (R497). DESIGN CHOICE, log entry 45. -/
def State.enterFatal (s : State) : State :=
  if s.err.fatal then s
  else
    let s := s.modErr (fun e => { e with fatal := true })
    let s := s.modClusters (fun _ k => { k with clock := { k.clock with stopped := true } })
    let s : State := { s with dram := { s.dram with selfRefresh := true } }
    (List.range 8).foldl (fun s n => if (s.port n).link.st = .down then s else s.linkLeaves n .down) s.stopRings

/-! ### Parts of resets -/

/-- Tile-queue entries of the device (R122). -/
def State.tileEntries (s : State) : Nat := s.cores.foldl (fun a x => a + x.2.ftq.length) 0
/-- Coins in the queues of the device (R422). -/
def State.allCoins (s : State) : Nat := (List.range 8).foldl (fun a c => a + s.coinsHeld c) 0

/-- The execution words of some kinds of unit become IDLE (R577). -/
def State.unfault (s : State) (ks : List UnitKind) : State :=
  { s with units := tmods s.units {} (s.units.map (·.1)) (fun u w =>
      match unitOf u with | some n => if ks.contains n.kind then { w with faulted := false } else w | none => w) }

/-- Layers, queues and contexts of every core of cluster c end (R576, R577). -/
def State.clearCores (s : State) (c : Nat) : State :=
  let bs := (coresOf c).flatMap (fun p => (s.core p).buffers)
  let s := (coresOf c).foldl (fun s p =>
    let s := (s.modCore p (fun k => { k with pending := none })).retireLayer p .poisoned
    s.modCore p (fun k => { k.clearWork with writes := [], landed := [] })) s
  s.releaseBuffers c bs

/-- A pass or walk in progress ends before the reset goes on (R574, R575). DEDUCED, log entry 75. -/
def State.waitPass (s : State) : State := if s.settle.phase = .pass then s.endWalk else s

/-! ### The narrower resets (R575, R576) -/

/-- A slice reset on this device, without its notice (R575). DESIGN CHOICE, log entry 62. -/
def State.sliceReset (s : State) : State :=
  let (flushed, s) := s.flushCrossings (fun _ => true)
  let entries := s.tileEntries
  let s := s.waitPass
  let s := (List.range 8).foldl (fun s c => s.haltSeq c .poisoned 0) s
  let s := (List.range 8).foldl (fun s c => s.clearCores c) s
  let run := (List.range 8).foldl (fun (a : Nat × State) c =>
    let x := a.2.ownerReset c true
    (a.1 + x.1, x.2.endWindow c)) (0, s)
  let s := run.2.modCol (fun c => { c with running := [], heldSegs := [], points := [], pointOwn := false, pointWait := false, pointStop := false })
  let s := (s.modSet (fun t => { t with heldLands := [] })).clearPresence.clearTotals
  let s := s.modSet (fun t => { t with phase := .idle, own := none, final := none })
  let s := s.modDec (fun d => { d with stmtState := 0, children := [], sentUp := false })
  let s := ((s.modCol (fun c => { c with lastMarked := [] })).modSet (fun t => { t with cfgDue := false })).freeKept.unfault [.core, .array, .cluster, .engine]
  (s.resetEvent 4 (srcBlock 7) false entries run.1 flushed).fencesDone

/-- A slice reset that starts here: a new reset number, and the notice on every ACTIVE slice link (R575). DESIGN CHOICE, log entry 62. -/
def State.sliceResetHere (s : State) : State :=
  let n := (s.rtr.slice.resetNo + 1) % 65536
  let s := s.sliceReset
  if s.hasSlice then
    let s := s.modSlice (fun x => { x with resetNo := n, resets := x.resets ++ [n] })
    s.sendNotice (noticeBytes s.rtr.slice.id 1 0 0 s.here n)
  else s

/-- A cluster reset by its owner (R576); a gated cluster is woken for it. -/
def State.clusterReset (s : State) (c : Nat) : State :=
  let (flushed, s) := s.flushCrossings (· == c)
  let (entries, coins, s) := (s.wake c).resetCluster c true
  s.resetEvent 5 (srcCluster c) false entries coins flushed

/-- A core reset (R576). -/
def State.coreReset (s : State) (p : Nat) : State :=
  let (entries, s) := s.resetCore p
  s.resetEvent 6 (srcCore p) false entries 0 0

/-- A port reset: the port retrains, its spare use and discovery state are cleared, and its execution word is IDLE (R576). -/
def State.portReset (s : State) (n : Nat) : State :=
  let s := if (s.port n).link.enable ∧ s.linksAllowed then s.retrain n else s
  let s := s.modLink n (fun k => { k with spareTx := false, spareRx := false, sparedLane := 0 })
  let s := s.modDisc n (fun d => { d with cause := 0, lowered := false, pos := 0, pport := 0, seen := false, serial := none, quarDropped := 0 })
  let s := s.modUnit (UnitName.code ⟨.port, n⟩) (fun w => { w with faulted := false })
  s.resetEvent 7 (srcPort n) false 0 0 0

/-! ### The function-level reset (R574) -/

/-- A cluster after a function-level reset: what R577 clears, with its registers kept (R599). -/
def Cluster.afterFlr (k : Cluster) : Cluster :=
  { k with seq := { g := k.seq.g, imem := k.seq.imem, dmem := k.seq.dmem, imemBad := k.seq.imemBad, dmemBad := k.seq.dmemBad, timers := k.seq.timers, cycles := k.seq.cycles },
           lbs := [], saved := false, resetWindow := false }

/-- A function-level reset: the job is cleared at MIN_SCRUB, the slice is gone, and the PCI Express function is in its reset
state; at level 2 the DRAM scrub goes on (R574, R577, R599). DEDUCED, log entry 25. DESIGN CHOICE, log entry 62. -/
def State.flr (s : State) : State :=
  let (flushed, s) := s.flushCrossings (fun _ => true)
  let level := s.sec.minScrub
  let entries := s.tileEntries
  let s := s.waitPass
  let s := (List.range 8).foldl (fun s c => s.clearCores c) s
  let run := (List.range 8).foldl (fun (a : Nat × State) c =>
    let x := a.2.ownerReset c true
    (a.1 + x.1, x.2.endWindow c)) (0, s)
  let s := (run.2.modClusters (fun _ k => k.afterFlr)).clearJob.freeKept
  let s := (s.scrub (min level 1)).extendSlot 10 (leBytes 1 level)
  let s : State := { s with host := { pcieUp := s.host.pcieUp, fetchNum := s.host.fetchNum }, preempts := [] }
  let s := s.modRtr (fun r => { r with slice := {}, reads := [], coinWaits := [], proxies := [], seals := [] })
  let s := s.unfault [.core, .array, .cluster, .engine, .ddr, .port]
  let s : State := { s with units := tmods s.units {} (s.units.map (·.1)) (fun _ w => { w with fencing := none }) }
  let s := s.modDev (fun d => { d with scrubbing := level == 2, ready := if level = 2 then false else d.ready })
  s.resetEvent 3 (srcBlock 7) false entries run.1 flushed

/-! ### The warm reset (R573, R577, R599) -/

/-- A vault after a warm reset: its spare bank stays in use until the next cold reset (R191). -/
def VaultState.afterWarm (v : VaultState) : VaultState := { spared := v.spared }

/-- A cluster after a warm reset: full purse, RATE and set point kept (R191, R467, R573). DEDUCED, log entry 26. -/
def Cluster.afterWarm (k : Cluster) (brake : Bool) : Cluster :=
  { purse := { rate := k.purse.rate }, clock := { volt2 := k.clock.volt2, braked := brake }, vault := k.vault.afterWarm }

/-- A core after a warm reset (R191, R577). -/
def Core.afterWarm (k : Core) : Core := { vault := k.vault.afterWarm }

/-- The security block after a warm reset: rights and locks end, the owner's policy is cleared (R11, R553, R560, R577). DEDUCED, log entry 26. -/
def Security.afterWarm (x : Security) : Security :=
  { x with debugEnd := none, maintEnd := none, requireSigned := false, minScrub := 0, lock := false, ownerKey := [], unchecked := false,
           slots := tset (tset x.slots (List.replicate 32 0) 7 (List.replicate 32 0)) (List.replicate 32 0) 9 (List.replicate 32 0) }

/-- Maintenance ends: an armed injection is disarmed, and MAINTENANCE_LEFT is logged (R506, R560). -/
def State.leaveMaintenance (s : State) : State :=
  if s.sec.maintEnd.isSome then
    ((s.modSec (fun x => { x with maintEnd := none })).modErr (fun e => { e with injArm := false })).log .maintenanceLeft (srcBlock 5) []
  else s

/-- The error registers after a reset; the Day Book and its sequence numbers stay (R508 to R512, R577, R599).
DEDUCED, log entry 23. DEDUCED, log entry 26. -/
def Errors.afterWarm (e : Errors) : Errors :=
  { dayBook := e.dayBook, nextSeq := e.nextSeq, total := e.total, lastLogged := e.lastLogged }

/-- The ports after a warm reset: in training order again, with every setting at its reset value (R573, R577). DEDUCED, log entry 26. -/
def State.portsAfterWarm (s : State) : Tab Port :=
  (List.range 8).foldl (fun t n => tset t {} n
    { disc := { st := if (s.neighbour n).isSome then .missing else .none, since := s.aoNs, serial := (s.port n).disc.serial } }) ([] : Tab Port)

/-- The time base when every port drops: HOLDOVER unless this device is the root or time is FREE (R309, R573). DEDUCED, log entry 26. -/
def State.timeDrops (s : State) : State :=
  if s.time.root ∨ s.time.tstate = 0 ∨ s.time.tstate = 3 then s
  else s.holdover s.time.parent

/-- Whether a cold bring-up is under way, which absorbs every narrower reset (R578). -/
def State.coldBringUp (s : State) : Bool := !s.dev.ready && !s.dev.warm && !s.dev.scrubbing && !s.err.fatal

/-- A warm reset: every domain but AO is reset, and bring-up goes on from its stage 3 (R573, R577). DEDUCED, log entry 25. DEDUCED, log entry 26. -/
def State.warmReset (s : State) : State :=
  if s.coldBringUp ∨ s.dev.stage < 3 then s else
  let pass := s.settle.phase == .pass
  let (flushed, s) := s.flushCrossings (fun _ => true)
  let tally := (s.tileEntries, s.allCoins, flushed)
  let s := ((s.leaveMaintenance.timeDrops).slewAt 0).total 3 1
  { pending := s.pending, aoNs := s.aoNs + 1000000, devOff := s.devOff, free := s.free, out := s.out, fuses := s.fuses, flash := s.flash,
    ledger := s.ledger, latches := []
    dev := { s.dev with ready := false, stage := 3, stalled := s.dev.refMissing.contains 1, scrubbing := false, lastReset := 2, readyMs := 0,
                        resetAt := s.aoNs, refMissing := s.dev.refMissing.filter (· == 1), warm := true,
                        prevDram := some (s.dram.used, s.dram.moduleGb, s.dram.fast), passInterrupted := pass, tally := tally, lnkLock := false, zeroed := false }
    err := s.err.afterWarm
    host := { pcieUp := !s.dev.perst && !s.dev.refMissing.contains 1, fetchNum := s.host.fetchNum }
    clusters := (List.range 8).foldl (fun t c => tset t {} c ((s.cluster c).afterWarm s.pwr.brake)) ([] : Tab Cluster)
    cores := (s.cores.map (fun x => (x.1, x.2.afterWarm))).filter (fun x => x.2 != {})
    units := (s.units.map (fun x => (x.1, ({ perm := x.2.perm, hold := x.2.hold } : UnitWords)))).filter (fun x => x.2 != {})
    mem := { cells := s.mem.cells.filter (fun (c : Host.Cell) => decide (c.1 < dramWindow)),
             poison := s.mem.poison.filter (fun (c : Nat × Bool) => decide (c.1 * 64 < dramWindow)) }
    dram := { cap := s.dram.speedCap, used := s.dram.used, moduleGb := s.dram.moduleGb, fast := s.dram.fast, selfRefresh := true,
              channels := s.dram.channels.map (fun x => (x.1, { x.2 with uncorrected := 0, dropped := 0, marginLow := false, patrol := 0 })) }
    settle := { interrupted := pass }
    ports := s.portsAfterWarm
    time := { s.time with wait := none, offsetPs := 0 }
    rtr := { nextHandle := s.rtr.nextHandle }
    pwr := { brake := s.pwr.brake, thermtrip := s.pwr.thermtrip }
    rails := { s.rails with flushed := 0, cdcTimeouts := 0, crossing := [] }
    mgmt := s.mgmt, tel := s.tel, sec := s.sec.afterWarm }

end Sys2Proof.Machine
end

