-- ==== Sys2Proof/Machine/Discovery.lean ====
section
/-!
DEFINITION. Discovery's commands (R324, R326, R328, R329), slice notices (R357, R358, R575), stalls (R354), draining (R361, R364)
and detour tables (R362, R367).
-/
set_option autoImplicit false
namespace Sys2Proof.Machine

/-- Whether a LOCAL packet is the oldest that port n has delivered and the router has not consumed (R350). DESIGN CHOICE, log entry 12. -/
def State.localTurn (s : State) (n : Nat) (p : Packet) : Bool :=
  match s.rtr.inbox.find? (fun q => q.packet.kind == 0 && (q.held.map (·.1)) == some n) with
  | some q => q.packet == p || !s.rtr.inbox.any (fun q => q.packet == p)
  | none => true

/-- IDENTITY: an identity packet on port n is judged (R324, R326, R328). -/
def execIdentity (n : Nat) (p : Packet) (s : State) : Result :=
  if n < 8 ∧ p.kind = 0 ∧ p.addr = 1 ∧ p.payload.length = 64 ∧ s.localTurn n p then .next ((s.consumed p).identity n p.payload)
  else .next s

/-- IDENTITY_REPEAT: port n sends its identity again (R324). -/
def execIdentityRepeat (n : Nat) (s : State) : Result :=
  if n < 8 then .next (s.sendIdentity n) else .next s

/-- IDENTITY_TIMEOUT: 10 ms without a valid identity quarantine port n with NO_IDENTITY (R324, R327, R334). -/
def execIdentityTimeout (n : Nat) (s : State) : Result :=
  let d := (s.port n).disc
  if n < 8 ∧ d.st = .identifying then
    let s := s.reach (d.since + 10000000)
    .next ((s.discEvent .portQuarantine n 9 []).setDisc n .quarantine 9)
  else .next s

/-- REIDENTIFY: the host re-identifies port n (R328, R331, R335). -/
def execReidentify (n : Nat) (s : State) : Result := if n < 8 then .next (s.reidentify n) else .next s

/-- PARTNER_MISSING: after the device's first link training, the planned neighbour of port n has been MISSING for 1 s (R329, R356). -/
def execPartnerMissing (n : Nat) (s : State) : Result :=
  let d := (s.port n).disc
  match s.dev.firstTrain with
  | some t =>
    if n < 8 ∧ d.st = .missing ∧ ¬ d.missingLogged then
      let s := s.reach (max t d.since + second)
      .next (((s.modDisc n (fun d => { d with missingLogged := true })).log .partnerMissing (srcPort n) [(1, n)]).sliceLinkLost n)
    else .next s
  | none => .next s

/-- A new notice is applied and passed on (R357, R358, R575, R578). -/
def State.notice (s : State) (b : List Byte) : State :=
  if leAt b 0 4 ≠ s.rtr.slice.id ∨ ¬ s.hasSlice then s.badPacket
  else if s.rtr.slice.seen.contains (noticeKey b) then s
  else
    let s := s.modSlice (fun x => { x with seen := x.seen ++ [noticeKey b] })
    if leAt b 4 1 = 0 then (s.sendNotice b).degrade (leAt b 5 1 % 4)
    else if s.rtr.slice.resets.contains (leAt b 12 2) then s
    else
      let s := s.sliceReset
      (s.modSlice (fun x => { x with resetNo := leAt b 12 2, resets := x.resets ++ [leAt b 12 2] })).sendNotice b

/-- SLICE_NOTICE: a slice notice arrives on port n (R358). -/
def execSliceNotice (n : Nat) (p : Packet) (s : State) : Result :=
  if n < 8 ∧ p.kind = 0 ∧ localOk p ∧ p.addr = 2 ∧ s.localTurn n p then .next ((s.consumed p).notice p.payload) else .next s

/-- ROUTE_STALL: a channel and VC of output port n hold packets and have sent none for STALL_LIMIT (R354). -/
def execRouteStall (n ch vc : Nat) (s : State) : Result :=
  if n < 8 ∧ s.rtr.stallLimit ≠ 0 ∧ (s.port n).link.txq.any (fun q => q.packet.channel == ch && q.vc == vc) then
    .next (s.logLimited .routeStall (n * 16 + ch * 2 + vc) (s.rtr.stallLimit * 1000000) (srcPort n) [(1, n), (1, ch), (1, vc)])
  else .next s

/-- The work of this device that a packet belonged to ends with the status of a packet that was not sent after all: a copy, a read, a
query, a collective entry, the statement's reduction or a coin operation (R352, R359, R395, R396, R412). -/
def State.undone (s : State) (p : Packet) (x : Sent) : State :=
  match p.kind with
  | 2 => (match x, s.rtr.coinWaits.find? (fun w => w.target == p.dest && tagOf w.cluster w.who == leAt p.payload 12 2) with
    | .noPort, _ => s
    | _, some w => if p.channel = 1 then
        (s.modRtr (fun r => { r with coinWaits := r.coinWaits.erase w })).toRequester w.cluster w.who .remote (.bad x.status) else s
    | _, none => s)
  | 3 => s.stmtFail .sliceDegraded
  | 4 | 5 => s.entryEnd (fld p.addr 0 10) x.status
  | 6 => (match s.host.dmas.find? (fun d => d.owns s.here p) with | some d => s.dmaEnd { d with bytes := s.sentOf d - p.payload.length } x.status | none => s)
  | 7 => (match s.rtr.reads.find? (fun w => w.handle == leAt p.payload 0 6) with | some w => s.readFailed w x.status | none => s)
  | 10 => (match s.rtr.proxies.find? (fun q => p.channel == 7 && q.1 == fld p.addr 33 15) with
    | some (_, d, _) => (s.modRtr (fun r => { r with proxies := r.proxies.filter (fun q => q.2.1 != d) })).complete d x.status
    | none => s)
  | _ => s

/-- A packet that waited is sent on its stream's port, or by its next hop; one of a copy or an entry that has ended is not sent
(R352, R361, R369). -/
def State.releaseOne (s : State) (w : Waiting) : State :=
  let p := w.packet
  if (p.kind = 6 ∧ ¬ s.host.dmas.any (fun d => d.owns s.here p)) ∨ ((p.kind = 4 ∨ p.kind = 5) ∧ (s.runOf (fld p.addr 0 10)).isNone) then s
  else match (match w.port with | some n => s.streamLaunch n p | none => s.launch p) with
    | (.sent, s) => s
    | (x, s) => s.undone p x

/-- Packets that waited for the end of a drain are injected in order; what has not left yet still waits (R361). -/
def State.releaseDrain (s : State) : State :=
  s.rtr.injectQ.foldl (fun s w => (s.modRtr (fun r => { r with injectQ := r.injectQ.drop 1 })).releaseOne w) s

/-- FAB_DRAIN.DRAIN written (R361, R364). -/
def State.setDrain (s : State) (v : Bool) : State :=
  if v = s.rtr.drain then s
  else if v then s.modRtr (fun r => { r with drain := true, moved := 0 })
  else (s.modRtr (fun r => { r with drain := false })).releaseDrain.dmasDone

/-- DRAIN: a write of FAB_DRAIN.DRAIN (R361, R364). -/
def execDrain (v : Bool) (s : State) : Result := .next (s.setDrain v)

/-- The bits that a detour entry holds; the others are reserved (R367). -/
def detourMask (v : Nat) : Nat := fld v 0 5 + fld v 8 56 * 2 ^ 8

/-- A detour entry is written while the device is DRAINED, and refused otherwise (R362). -/
def State.writeDetour (s : State) (t e v : Nat) : State :=
  if s.isDrained then s.modRtr (fun r => { r with detours := tset r.detours 0 (16 * t + e) (detourMask v) })
  else s.log .routeTableRefused (srcBlock 0) []

/-- DETOUR_WRITE: a write to FAB_DETOURt_e (R362, R367, R368). -/
def execDetourWrite (t e v : Nat) (s : State) : Result :=
  if t < 9 ∧ e < 16 then .next (s.writeDetour t e v) else .next s

end Sys2Proof.Machine
end

