-- ==== Sys2Proof/Machine/Power.lean ====
section
/-!
DEFINITION. Power and clocks (15_power_and_clocks.md): the purse's ticks and RATEs, thermal control, slice pacing, the brake, the
states of clusters and of the device, AVS and droops, regulators, rail faults and stopped domains.
-/
set_option autoImplicit false
namespace Sys2Proof.Machine

/-! ### Purses and RATEs (R467, R470 to R473) -/

/-- One refill tick of a purse (R467). -/
def Purse.tick (p : Purse) : Purse :=
  let pay := min p.due p.rate
  { p with due := p.due - pay, balance := min (p.balance + p.rate - pay) (1000 * p.depth) }

/-- Whether cluster c is ENABLED. -/
def State.clusterOn (s : State) (c : Nat) : Bool := s.permWord (clusterName c) == .enabled

/-- q_local of R470: powers in mW. DEDUCED, log entry 53. -/
def State.qLocalNow (s : State) : Nat :=
  let a := min (s.pwr.boardW * 1000) s.pwr.thermMw - s.pwr.fixedMw
  let sum := ((List.range 8).filter s.clusterOn).foldl (fun t c => t + (s.cluster c).purse.share) 0
  if sum = 0 then 1024 else min 1024 (1024 * a / sum)

/-- Every RATE is computed again, from the q in use (R470, R472). DEDUCED, log entry 53. -/
def State.rateRecompute (s : State) : State :=
  let ql := s.qLocalNow
  let q := if s.pwr.qHeld then min s.pwr.qSlice ql else ql
  let s := s.modPwr (fun p => { p with qLocal := ql, qUsed := q })
  (List.range 8).foldl (fun s c => s.modPurse c (fun u => { u with rate := if s.clusterOn c then u.share * q / 1024 else 0 })) s

/-- PURSE_REFILL_TICK: the next microsecond of AO time. Every purse is refilled, a broadcast q takes effect, and waiting
admissions are tested again (R30, R467, R468, R471). DESIGN CHOICE, log entry 10. -/
def execPurseRefillTick (s : State) : Result :=
  let s := s.reach ((s.aoNs / 1000 + 1) * 1000)
  let s := s.modClusters (fun _ k => { k with purse := k.purse.tick })
  let s := if s.pwr.qNext.isSome then (s.modPwr (fun p => { p with qNext := none })).rateRecompute else s
  .next ((List.range 8).foldl (fun s c => if (s.cluster c).seq.waitOn = .purse then s.retryStart c else s) s)

/-- RATE_RECOMPUTE: the recomputation of every millisecond, once the cluster rails report power good (R470). -/
def execRateRecompute (s : State) : Result :=
  if (List.range 8).all (fun c => s.rails.good.contains (3 + c) || !s.clusterOn c) ∧ 2 ≤ s.dev.stage then .next s.rateRecompute else .next s

/-! ### Thermal control (R477, R478) -/

/-- Highest of the sensors' readings in 1/16 °C, with the lowest sensor that holds it. -/
def hottest (ts : List Int) : Int × Nat :=
  (ts.zip (List.range ts.length)).foldl (fun a x => if a.1 < x.1 then x else a) (-100000, 0)

/-- P_therm steps by Tmax (R477). DEDUCED, log entry 53. -/
def State.thermStep (s : State) (tmax : Int) : State :=
  let board := s.pwr.boardW * 1000
  let p := s.pwr.thermMw
  let next := if 16 * (s.pwr.throttleC : Int) ≤ tmax then p * 98 / 100
    else if tmax < 16 * ((s.pwr.throttleC : Int) - 3) then min (p * 101 / 100) board else p
  let s := s.modPwr (fun w => { w with thermMw := next })
  if next < board ∧ ¬ s.pwr.throttled then
    (s.modPwr (fun w => { w with throttled := true })).log .thermalThrottle (srcBlock 6) []
  else if board ≤ next then s.modPwr (fun w => { w with throttled := false }) else s

/-- A thermal trip (R478, R497). -/
def State.trip (s : State) (sensor : Nat) : State :=
  let s := s.modPwr (fun w => { w with thermtrip := true })
  ((s.detect .thermalTrip (srcBlock 7) [(1, sensor)]).total 8 1).enterFatal

/-- THERMAL_SAMPLE: all 64 sensors are read, in 1/16 °C; P_therm is stepped, and two readings in succession at TRIP_C trip the
device (R477, R478). -/
def execThermalSample (ts : List Int) (s : State) : Result :=
  if ts.length = 64 ∧ 1 ≤ s.dev.stage then
    let (t, i) := hottest ts
    let s : State := { s with tel := { s.tel with temps := ts.zip (List.range 64) |>.map (fun x => (x.2, x.1)) } }
    let s := (s.modPwr (fun w => { w with tmax := (max t 0).toNat / 16 % 256, tmaxSensor := i })).thermStep t
    let excess := (List.range 64).filter (fun k => decide (16 * (s.pwr.tripC : Int) ≤ (ts[k]?).getD 0))
    let twice := excess.filter (fun k => s.pwr.overTrip.contains k)
    let s := s.modPwr (fun w => { w with overTrip := excess })
    (match twice with
     | k :: _ => if s.pwr.thermtrip then .next s else .next (s.trip k)
     | [] => .next s)
  else .next s

/-! ### Slice pacing (R471 to R473) -/

/-- ADDR and payload of a pacing statement (R471). DESIGN CHOICE, log entry 6. -/
def paceAddr (bc : Bool) (slice : Nat) : Nat := (if bc then 0x11 else 0x10) + (slice % 2 ^ 32) * 2 ^ 16
def paceBytes (q round demand : Nat) : List Byte := leBytes 4 q ++ leBytes 4 (round % 2 ^ 32) ++ leBytes 4 (min demand 0xFFFFFFFF) ++ List.replicate 4 0

/-- Whether the device takes part in pacing rounds. -/
def State.paces (s : State) : Bool := s.pwr.paceEn && s.rtr.slice.st == 1 && s.placed

/-- A pacing broadcast is kept and forwarded, and ends its round; its q applies at the next tick (R471). DEDUCED, log entry 69. -/
def State.paceFinal (s : State) (q round demand : Nat) : State :=
  let s := s.treeDown.foldl (fun s k => (s.streamSend k.2.1 (s.packet 0 1 k.2.2 (paceAddr true s.rtr.slice.id) (paceBytes q round demand))).2) s
  let old := round % 2 ^ 32 != s.pwr.round % 2 ^ 32
  s.modPwr (fun p => { p with qSlice := q, qHeld := true, demand := demand, qNext := some q, roundOpen := p.roundOpen && old,
                              paceOwn := if old then p.paceOwn else none,
                              paceKids := p.paceKids.filter (fun k => old && k.2.2.1 == p.round % 2 ^ 32) })

/-- The pacing statements held for the round go up once every child's is there (R392, R471). -/
def State.paceAdvance (s : State) : State :=
  match s.pwr.paceOwn with
  | none => s
  | some own =>
    let op (a b : Nat × Nat) : Nat × Nat := (min a.1 b.1, min (a.2 + b.2) 0xFFFFFFFF)
    let held (a : Nat) (p : Bool) : Option (Nat × Nat) :=
      (s.pwr.paceKids.find? (fun k => k.1 == a && k.2.1 == p && k.2.2.1 == s.pwr.round % 2 ^ 32)).map (fun k => k.2.2.2)
    match combineTree s op held own with
    | none => s
    | some v =>
      match s.treeUp with
      | none => s.paceFinal v.1 s.pwr.round v.2
      | some (_, n, c) =>
        (s.streamSend n (s.packet 0 1 c (paceAddr false s.rtr.slice.id) (paceBytes v.1 s.pwr.round v.2))).2.modPwr
          (fun p => { p with paceOwn := none })

/-- A round that no broadcast has ended fails (R472). -/
def State.roundMissed (s : State) : State :=
  if s.pwr.roundOpen then
    ((s.modPwr (fun p => { p with missed := satAdd 0xFFFF p.missed 1, roundOpen := false })).span (ctDev 4) 1).logLimited
      .paceRoundMissed 0 second (srcBlock 6) []
  else s

/-- The demand of the round that begins: that of a layer which still waits for the purse (R473). -/
def Cluster.demandNow (k : Cluster) : Nat :=
  if k.seq.waitOn = .purse then (match k.seq.waitingStart with | some w => w.demand | none => 0) else 0

/-- PACE_ROUND: a round starts at a multiple of 100 µs of device time, with the demand of the last round (R471 to R473). -/
def execPaceRound (s : State) : Result :=
  let demand := (List.range 8).foldl (fun t c => t + (s.cluster c).purse.demand) 0
  let s := s.roundMissed.modClusters (fun _ k => { k with purse := { k.purse with demand := k.demandNow } })
  if s.paces then
    let round := s.now / 100000
    let s := s.modPwr (fun p => { p with round := round, roundOpen := true, paceOwn := some (p.qLocal, min demand 0xFFFFFFFF),
                                         paceKids := p.paceKids.filter (fun k => k.2.2.1 == round % 2 ^ 32) })
    .next s.paceAdvance
  else .next s

/-- Whether a pacing packet is well formed and of this slice (R471). -/
def State.paceOk (s : State) (p : Packet) (bc : Bool) : Bool :=
  p.kind == 1 && p.payload.length == 16 && fld p.addr 0 16 == (if bc then 0x11 else 0x10) && s.hasSlice && fld p.addr 16 32 == s.rtr.slice.id

/-- PACE_COMBINE: a child's pacing statement (R471). -/
def execPaceCombine (p : Packet) (s : State) : Result :=
  if ¬ s.inTurn p ∨ p.kind ≠ 1 then .next s
  else
    let s := s.consumed p
    let a := s.srcAxis p.src
    if ¬ s.paceOk p false ∨ ¬ (s.treeKids a).any (fun k => k.2 == p.src) then .next s.badPacket
    else
      let plus := s.fromPlus a p.src
      let v := (a, plus, leAt p.payload 4 4, fld (leAt p.payload 0 4) 0 11, leAt p.payload 8 4)
      .next ((s.modPwr (fun w => { w with paceKids := w.paceKids.filter (fun k => !(k.1 == a && k.2.1 == plus && k.2.2.1 == v.2.2.1)) ++ [v] })).paceAdvance)

/-- PACE_BROADCAST: the slice's q arrives (R471, R472). -/
def execPaceBroadcast (p : Packet) (s : State) : Result :=
  if ¬ s.inTurn p ∨ p.kind ≠ 1 then .next s
  else
    let s := s.consumed p
    if ¬ s.paceOk p true then .next s.badPacket
    else if ¬ s.paces then .next s
    else .next (s.paceFinal (fld (leAt p.payload 0 4) 0 11) (leAt p.payload 4 4) (leAt p.payload 8 4))

/-! ### The brake (R479) -/

/-- POWER_BRAKE: POWER_BRAKE# is asserted (R479, R594). -/
def execPowerBrake (s : State) : Result :=
  if s.pwr.brake then .next s
  else
    let s := (s.modPwr (fun p => { p with brake := true })).modClusters (fun _ k => { k with clock := { k.clock with braked := true } })
    .next ((s.log .powerBrake (srcBlock 7) []).total 7 1)

/-- POWER_BRAKE_RELEASE: POWER_BRAKE# has been deasserted for 100 µs; each cluster's brake ends at its next layer start
(R479). -/
def execPowerBrakeRelease (s : State) : Result := .next (s.modPwr (fun p => { p with brake := false }))

/-! ### States of clusters and of the device (R464 to R466) -/

/-- Whether nothing keeps cluster c in RUN: no command, no layer, no HOLD_RUN, no landing (R465). -/
def State.clusterQuiet (s : State) (c : Nat) : Bool :=
  !(s.cluster c).seq.active && !s.layersLeft c && !(s.cluster c).clock.holdRun && (s.cluster c).lbs.all (fun b => b.2.st != .filling)

/-- CLOCK_GATE: cluster c has been quiet for CG_DELAY (R465, R488). -/
def execClockGate (c : Nat) (s : State) : Result :=
  if c < 8 ∧ (s.cluster c).clock.cstate = 0 ∧ s.clusterQuiet c then
    let s := s.reach ((max (s.cluster c).clock.since (s.cluster c).clock.used) + s.pwr.cgDelay * 1000)
    .next (s.modClock c (fun k => { k with cstate := 1, div := 3, since := s.aoNs }))
  else .next s

/-- POWER_GATE: cluster c has been CLOCK_GATED for PG_DELAY (R465). -/
def execPowerGate (c : Nat) (s : State) : Result :=
  if c < 8 ∧ (s.cluster c).clock.cstate = 1 ∧ s.pwr.pgEn ∧ s.dev.ready then
    let s := s.reach ((s.cluster c).clock.since + s.pwr.pgDelay * 1000)
    .next (s.modClock c (fun k => { k with cstate := 2, since := s.aoNs }))
  else .next s

/-- Whether cluster c has power and a clock to return to. -/
def State.canWake (s : State) (c : Nat) : Bool :=
  s.permWord (clusterName c) != .powerOff && !(s.cluster c).clock.stopped

/-- CLUSTER_WAKE: a request of R464 brings a gated cluster back to RUN (R465). DESIGN CHOICE, log entry 10. -/
def execClusterWake (c : Nat) (s : State) : Result := if c < 8 ∧ s.canWake c then .next (s.wake c) else .next s

/-- HOLD_RUN written (R464, R484). -/
def State.setHoldRun (s : State) (c : Nat) (v : Bool) : State :=
  let s := (s.modClock c (fun k => { k with holdRun := v })).using c
  if v ∧ s.canWake c then s.wake c else s

/-- HOLD_RUN: a write of HOLD_RUN of cluster c (R484). -/
def execHoldRun (c : Nat) (v : Bool) (s : State) : Result := if c < 8 then .next (s.setHoldRun c v) else .next s

/-- DEEP_IDLE_ENTRY: the device has been IDLE for DEEP_DELAY (R466). -/
def execDeepIdleEntry (s : State) : Result :=
  if s.pwr.deepEn ∧ s.dev.ready ∧ ¬ s.pwr.deepIdle ∧ ¬ s.commandRuns ∧ (List.range 8).all (fun c => (s.cluster c).clock.cstate == 2) ∧
      ¬ s.sliceLinks.any s.active then
    let s := s.reach (s.pwr.idleFrom + s.pwr.deepDelay * 1000000)
    let s : State := { s with dram := { s.dram with selfRefresh := true } }
    .next (s.modPwr (fun p => { p with deepIdle := true }))
  else .next s

/-- DEEP_IDLE_EXIT: a fetch, a BAR2 access or traffic of another channel ends DEEP_IDLE (R466). DESIGN CHOICE, log entry 10. -/
def execDeepIdleExit (s : State) : Result := .next s.deepExit

/-! ### AVS and droops (R475, R476) -/

/-- Set point limits of cluster c, in half mV (R475, R586). -/
def State.vmin2 (s : State) (c : Nat) : Nat := 2 * (600 + tget s.fuses.vmin 0 c)
def State.vmax2 (s : State) (c : Nat) : Nat := 2 * (950 - tget s.fuses.vmax 0 c)

/-- AVS_UPDATE: the loop's update of cluster c, with its margin: up, down (`none`: no change), and whether the AVSBus write
succeeded. A failed write is repeated, and after 100 failures the loop holds its set point (R475, R476). DESIGN CHOICE, log
entry 83. -/
def execAvsUpdate (c : Nat) (up : Option Bool) (margin : Nat) (ok : Bool) (s : State) : Result :=
  if c < 8 ∧ (s.cluster c).clock.cstate = 0 then
    let k := (s.cluster c).clock
    let want := match up with | some true => k.volt2 + 5 | some false => k.volt2 - 5 | none => k.volt2
    let next := k.avsPend.getD (max (s.vmin2 c) (min (s.vmax2 c) want))
    let s := (s.modClock c (fun k => { k with marginPs := margin % 65536 })).spanMin (ctClu c 10) margin
    if k.avsHeld then .next s
    else if ok then
      .next ((s.modClock c (fun k => { k with volt2 := next, avsFails := 0, avsPend := none })).emit (.avs c (next / 2)))
    else
      let s := s.modClock c (fun k => { k with avsFails := k.avsFails + 1, avsPend := some next })
      if (s.cluster c).clock.avsFails = 100 then
        .next ((s.modClock c (fun k => { k with avsHeld := true })).log .avsFail (srcRail (3 + c)) [])
      else .next s
  else .next s

/-- DROOP_DETECT: cluster c stretches its clock (R475, R488). -/
def execDroopDetect (c : Nat) (s : State) : Result :=
  if c < 8 ∧ (s.cluster c).clock.cstate = 0 then
    .next ((s.modClock c (fun k => { k with stretches := satAdd 0xFFFF k.stretches 1 })).span (ctClu c 0) 1)
  else .next s

/-! ### Regulators (R476, R586) -/

/-- The limit at which a rail is counted, in mW (R586). -/
def railLimit (r : Nat) : Nat :=
  match r with
  | 0 => 3000 | 1 => 195000 | 2 => 14000 | 11 => 181000 | 12 => 68000 | 13 => 8000
  | _ => if 3 ≤ r ∧ r ≤ 10 then 266000 else 0

/-- Power of a rail in mW, at its last reading, or at its limit where telemetry is missing (R476). DESIGN CHOICE, log entry 49. -/
def State.railMw (s : State) (r : Nat) : Nat :=
  if 10 ≤ tget s.rails.silent 0 r ∨ tget s.rails.mv 0 r = 0 then railLimit r
  else tget s.rails.mv 0 r * tget s.rails.da 0 r / 10

/-- The reading of one rail: mV and units of 0.1 A, or no answer (R476). -/
def State.railRead (s : State) (x : Nat × Option (Nat × Nat)) : State :=
  let r := x.1
  match x.2 with
  | some (mv, da) =>
    let s : State := { s with rails := { s.rails with silent := tset s.rails.silent 0 r 0, mv := tset s.rails.mv 0 r mv, da := tset s.rails.da 0 r da } }
    (((s.span (ctRail r 0) mv).span (ctRail r 1) 1).spanMin (ctRail r 2) mv).span (ctRail r 3) da
  | none =>
    let n := satAdd 0xFFFF (tget s.rails.silent 0 r) 1
    let s : State := { s with rails := { s.rails with silent := tset s.rails.silent 0 r n } }
    if n = 10 then (s.log .regulatorSilent (srcRail r) []).span (ctRail r 5) 1 else s

/-- P_fixed: everything outside the clusters, and the rail of a cluster on which no layer runs (R470). DEDUCED, log entry 53. -/
def State.fixedNow (s : State) : Nat :=
  ([0, 1, 2, 11, 12, 13] : List Nat).foldl (fun a r => a + s.railMw r) 0 +
  (List.range 8).foldl (fun a c => if s.layersRun c then a else a + (if tget s.rails.mv 0 (3 + c) = 0 then 0 else s.railMw (3 + c))) 0

/-- The set point of cluster c as a sample of the day (R538, R539). -/
def State.dayMilli (s : State) (c : Nat) : State :=
  let mv := (s.cluster c).clock.volt2 / 2
  (s.day (dayVolt c (binOf 16 600 25 mv)) 1).day (dayMv c) mv

/-- Bin of the millisecond's utilisation: busy cycles against those of the arrays present (R538, R539). -/
def State.useBin (s : State) (busy : Nat) : Nat :=
  binOf 16 0 (((List.range 96).filter s.arrayPresent).length * 1900000) (16 * (busy - s.tel.prevBusy))

/-- The millisecond's samples of the day's histograms: Tmax, set points, device power and utilisation (R538, R539). -/
def State.daySample (s : State) (mw : Nat) : State :=
  let s := (s.day (dayTmax (binOf 32 0 4 s.pwr.tmax)) 1).day (dayPower (binOf 16 0 125000 mw)) 1
  let s := (List.range 8).foldl State.dayMilli s
  let busy := tget s.mgmt.totals 0 5
  let s := (s.day (dayUse (s.useBin busy)) 1).day dayReads 1
  { s with tel := { s.tel with prevMw := mw, prevBusy := busy } }

/-- The millisecond's readings in order (R476). -/
def State.railReads (s : State) (xs : List (Nat × Option (Nat × Nat))) : State :=
  (xs.filter (fun x => decide (x.1 < 18))).foldl State.railRead s
/-- Device power: the sum over the rails that have been read (R476). -/
def State.deviceMw (s : State) : Nat := (List.range 14).foldl (fun a r => a + (if tget s.rails.mv 0 r = 0 then 0 else s.railMw r)) 0
/-- What the device makes of its readings: sums of the span, energy, the day's samples and P_fixed (R470, R476, R531, R537). -/
def State.powerRead (s : State) : State :=
  let mw := s.deviceMw
  let s := (((s.span (ctDev 0) mw).span (ctDev 1) 1).span (ctDev 2) mw).total 1 mw
  let s := s.daySample mw
  s.modPwr (fun p => { p with fixedMw := s.fixedNow })

/-- REGULATOR_READ: the millisecond's telemetry over PMBus: per rail an answer or none (R476). -/
def execRegulatorRead (xs : List (Nat × Option (Nat × Nat))) (s : State) : Result := .next (s.railReads xs).powerRead

/-! ### Rail faults (R494, R499, R586) -/

/-- Whether a rail supplies a cluster. DEDUCED, log entry 54. -/
def isClusterRail (r : Nat) : Bool := decide (3 ≤ r ∧ r ≤ 10)

/-- RAIL_UNDERVOLTAGE: a rail falls below its operating minimum; the clock of the cluster on it stops (R499). DEDUCED, log entry 54. -/
def execRailUndervoltage (r : Nat) (s : State) : Result :=
  if r < 14 ∧ s.rails.enabled.contains r ∧ ¬ s.rails.low.contains r then
    let s : State := { s with rails := { s.rails with low := s.rails.low ++ [r] } }
    if isClusterRail r then
      let s := (s.detect .railTransient (srcRail r) []).span (ctRail r 4) 1
      .next (s.modClock (r - 3) (fun k => { k with stopped := true }))
    else .next s
  else .next s

/-- RAIL_RECOVERY: the rail is back in range within its window, and its cluster's clock runs again (R494, R499). DEDUCED, log entry 54. -/
def execRailRecovery (r : Nat) (s : State) : Result :=
  if s.rails.low.contains r then
    let s : State := { s with rails := { s.rails with low := s.rails.low.filter (· != r) } }
    let s := s.closeWindow .railTransient (srcRail r)
    if isClusterRail r ∧ ¬ s.err.fatal then .next (s.modClock (r - 3) (fun k => { k with stopped := false })) else .next s
  else .next s

/-- A cluster loses its power: its command ends POISONED and its cores hold nothing (R499, R525). -/
def State.clusterOff (s : State) (c : Nat) : State :=
  let s := (s.haltSeq c .poisoned 0).clearCores c
  let s := s.modUnit (clusterName c).code (fun w => { w with perm := .powerOff })
  let s : State := { s with rails := { s.rails with good := s.rails.good.filter (· != 3 + c) } }
  (s.modClock c (fun k => { k with stopped := true })).fencesDone

/-- RAIL_FAULT: a rail has not recovered within 20 µs, or PMBus reports a fault (`report`): its cluster is powered off, or the
device enters the fatal state (R499, R586). -/
def execRailFault (r : Nat) (report : Bool) (s : State) : Result :=
  if r < 14 ∧ (s.rails.low.contains r ∨ (report ∧ s.rails.enabled.contains r)) then
    let s : State := { s with rails := { s.rails with low := s.rails.low.filter (· != r) } }
    let s := s.closeWindow .railTransient (srcRail r)
    let s := s.detect .railFault (srcRail r) []
    let s := if isClusterRail r then s.clusterOff (r - 3) else s.enterFatal
    .next (s.closeWindow .railFault (srcRail r))
  else .next s

/-! ### Stopped domains (R432, R482) -/

/-- The command whose access met a stopped domain ends with CDC_TIMEOUT (R482). -/
def State.cdcEnds (s : State) (d : Desc) : State :=
  let on := (List.range 8).filter (fun c => (s.cluster c).seq.cmd == some d)
  if on = [] then (if s.host.inflight.contains d then (s.forgetDesc d).complete d .cdcTimeout else s)
  else on.foldl (fun s c => s.haltSeq c .cdcTimeout 0) s

/-- CDC_TIMEOUT: the host's access to an address that waits in a crossing completes 4 µs after its issue; or, where none waits there, an
access by a command has met a stopped domain (R482). DESIGN CHOICE, log entry 10. DESIGN CHOICE, log entry 78. -/
def execCdcTimeout (domain addr : Nat) (cmd : Option Desc) (s : State) : Result :=
  match s.rails.crossing.find? (fun x => x.domain == domain && x.addr == addr) with
  | some x =>
    let s := s.reach x.deadline
    .next (({ s with rails := { s.rails with crossing := s.rails.crossing.erase x } } : State).crossed x)
  | none =>
    let s := (s.reach (s.aoNs + 4000)).cdcTimeout domain addr
    .next (match cmd with | some d => s.cdcEnds d | none => s)

end Sys2Proof.Machine
end

