-- ==== Sys2Proof/Machine/Errors.lean ====
section
/-!
DEFINITION. The state-word comparator (R26, R27), watchdogs (R500), the controller's restart (R515), tamper alarms (R561), injection
(R506) and PCI Express errors (R499).
-/
set_option autoImplicit false
namespace Sys2Proof.Machine

/-- A disagreement of a unit's words is latched and logged with both words (R27). -/
def State.compareUnit (s : State) (u : UnitName) : State :=
  if consistent (s.permWord u) (s.execWord u) ∨ (s.unit u.code).mismatch then s
  else
    (s.modUnit u.code (fun w => { w with mismatch := true })).log .stateMismatch u.code
      [(1, (s.permWord u).code), (1, (s.execWord u).code)]

/-- STATE_COMPARE: the comparator samples both words of every unit (R26, R27). -/
def execStateCompare (s : State) : Result := .next (allUnits.foldl State.compareUnit s)

/-- Whether a wait with its own timeout holds core p: a coin wait, a remote load, a FILLING landing buffer, or an empty tile
queue whose MXE is issuing (R500). -/
def Core.timedWait (k : Core) : Bool :=
  k.ctxs.any (fun x => x.2.on == .coin || (match x.2.on with | .buffer _ => true | _ => false) || x.2.loads.any (·.handle.isSome) ||
    (x.2.on == .finishedQueue && (k.accs != [] || k.issueQ != [] || k.draining != [])))

/-- CORE_WATCHDOG: a BUSY core has neither issued nor retired anything for WDOG_CORE_US: it is contained and reset, and its
layer completes POISONED (R492, R499, R500). -/
def execCoreWatchdog (p : Nat) (s : State) : Result :=
  if p < 96 ∧ (s.core p).running.isSome ∧ ¬ (s.core p).timedWait then
    let s := ((s.detect .coreWatchdog (srcCore p) []).contain (coreName p)).coreReset p
    .next (s.closeWindow .coreWatchdog (srcCore p))
  else .next s

/-- SEQ_WATCHDOG: a RUNNING sequencer has retired nothing for WDOG_SEQ_US: its cluster is contained and reset (R422, R492, R499,
R500). -/
def execSeqWatchdog (c : Nat) (s : State) : Result :=
  if c < 8 ∧ (s.cluster c).seq.st = .running then
    let s := ((s.detect .seqWatchdog (srcCluster c) []).contain (clusterName c)).clusterReset c
    .next (s.closeWindow .seqWatchdog (srcCluster c))
  else .next s

/-- BUCEL_RESTART: the controller restarts and answers nothing until it has (R499, R515). -/
def execBucelRestart (s : State) : Result :=
  .next ((s.modMgmt (fun m => { m with bucelDown := true })).detect .bucelRestart (srcBlock 6) [])

/-- BUCEL_RESTART_COMPLETE: the controller runs again, and the records held for the Life Ledger are appended in order (R515). -/
def execBucelRestartComplete (s : State) : Result :=
  if s.mgmt.bucelDown then
    let held := s.ledger.heldRecs
    let s : State := ({ s with ledger := { s.ledger with heldRecs := [] } } : State).modMgmt (fun m => { m with bucelDown := false })
    .next (held.foldl (fun s r => s.ledgerAppend r.1 r.2) s)
  else .next s

/-- Every right ends (R560). -/
def State.endRights (s : State) : State := (s.modSec (fun x => { x with debugEnd := none })).leaveMaintenance

/-- SECURITY_ALARM: a tamper sensor fires; nonces, rights and unreleased signatures are discarded, and the device enters the
fatal state (R497, R499, R561). -/
def execSecurityAlarm (sensor : Nat) (s : State) : Result :=
  let s := (s.modSec (fun x => { x with nonce := none, treeWait := [] })).endRights
  .next ((s.detect .securityAlarm (srcBlock 5) [(1, sensor)]).enterFatal)

/-- Whether maintenance is unlocked. -/
def State.maintenance (s : State) : Bool := s.sec.maintEnd.isSome

/-- INJECT_DENIED, at most once per second (R506). -/
def State.injectDenied (s : State) : State := s.logLimited .injectDenied 0 second (srcBlock 7) []

/-- A write of ERR_INJ_CTRL (R506, R512). -/
def State.writeInjCtrl (s : State) (v : Nat) : State :=
  if s.maintenance then
    s.modErr (fun e => { e with injCls := fld v 0 16, injUnit := fld v 16 16, injArm := bit v 32, injCont := bit v 33,
                                injFired := e.injFired && !bit v 34, injBits := fld v 40 8 })
  else s.injectDenied

/-- A write of ERR_INJ_ADDR (R506, R512). -/
def State.writeInjAddr (s : State) (v : W64) : State :=
  if s.maintenance then s.modErr (fun e => { e with injAddr := v }) else s.injectDenied

/-- INJECT_ARM: ERR_INJ_CTRL is written, after ERR_INJ_ADDR (R506, R512). -/
def execInjectArm (ctrl : Nat) (addr : W64) (s : State) : Result := .next ((s.writeInjAddr addr).writeInjCtrl ctrl)

/-- HOST_LINK_ERROR: PCI Express reports correctable or uncorrectable errors (R499). -/
def execHostLinkError (corrected : Bool) (s : State) : Result :=
  if corrected then .next ((s.detect .hostLinkCorrected (srcBlock 2) []).span (ctDev 3) 1)
  else .next (s.detect .hostLinkUncorrected (srcBlock 2) [])

end Sys2Proof.Machine
end

