-- ==== Sys2Proof/Machine/Host.lean ====
section
/-!
DEFINITION. The host interface (14_host_interface.md): the ring watcher, the fetch and the dispatch of descriptors, the rings'
control, interrupts and BAR2.
-/
set_option autoImplicit false
namespace Sys2Proof.Machine

/-! ### Rings by name -/

/-- Whether a ring of that name exists (R433). -/
def RingName.ok : RingName → Bool | .sub n => decide (n < 32) | _ => true
/-- The ring of that name. -/
def State.ringOf (s : State) : RingName → Ring | .sub n => s.ring n | .evt => s.host.evt | .stm => s.host.stm
/-- That ring changed by f. -/
def State.modRingOf (s : State) (x : RingName) (f : Ring → Ring) : State :=
  match x with
  | .sub n => s.modRing n f
  | .evt => s.modHost (fun h => { h with evt := f h.evt })
  | .stm => s.modHost (fun h => { h with stm := f h.stm })

/-! ### The ring watcher (R436, R439, R440) -/

/-- Whether the watcher reads a ring's doorbell line: until the ring is DISABLED, so that completions can still be consumed. -/
def Ring.watched (r : Ring) : Bool := r.enable || r.st != .disabled

/-- The poll interval after a read (R439). DESIGN CHOICE, log entry 42. -/
def Ring.polled (r : Ring) (h : HostIf) (changed : Bool) : Ring :=
  if changed || !h.backoff then { r with interval := h.pollNs, empties := 0 }
  else if 16 * h.backoffAfter ≤ r.empties + 1 then { r with interval := min h.maxPollNs (2 * r.interval), empties := 0 }
  else { r with empties := r.empties + 1 }

/-- a − b of two 32-bit counts (R436). -/
def countSub (a b : Nat) : Nat := (a + (2 ^ 32 - b % 2 ^ 32)) % 2 ^ 32

/-- A producer index is judged (R23, R436). DESIGN CHOICE, log entry 42. -/
def State.judgeSq (s : State) (n pi : Nat) : State :=
  let r := s.ring n
  if ¬ r.enable ∨ r.st ≠ .running then s
  else if 2 ^ 31 ≤ countSub pi r.lastPi ∨ entries r.logSq < countSub pi r.fetched then
    (s.modRing n (fun r => { r with st := .stopped, faulted := true })).log .ringIndexFault (srcBlock 3) []
  else s.modRing n (fun r => { r with lastPi := pi % 2 ^ 32 })

/-- A consumer index is judged; completions that were held for space leave (R436, R437). DESIGN CHOICE, log entry 42. -/
def State.judgeCq (s : State) (x : RingName) (ci : Nat) : State :=
  let r := s.ringOf x
  let d := countSub ci r.lastCi
  if d < 2 ^ 31 ∧ d ≤ r.unconsumed then
    let s := s.modRingOf x (fun r => { r with lastCi := ci % 2 ^ 32 })
    match x with
    | .sub n => s.flushHeld n ((s.ring n).heldComps.length + 1)
    | _ => s
  else s.log .ringIndexFault (srcBlock 3) []

/-- A doorbell line has been read (R435, R436, R439). -/
def State.lineRead (s : State) (x : RingName) (pi ci : Nat) : State :=
  let r := s.ringOf x
  let changed := countSub ci r.lastCi != 0 || (match x with | .sub _ => r.st == .running && countSub pi r.lastPi != 0 | _ => false)
  let s := s.modRingOf x (fun r => r.polled s.host changed)
  let s := match x with | .sub n => s.judgeSq n pi | _ => s
  s.judgeCq x ci

/-- DOORBELL_POLL: the watcher reads a doorbell line that holds SQ_PI and CQ_CI (R439). DESIGN CHOICE, log entry 42. -/
def execDoorbellPoll (x : RingName) (pi ci : Nat) (s : State) : Result :=
  .next (if x.ok ∧ (s.ringOf x).watched then s.lineRead x pi ci else s)

/-- LN_MESSAGE: a notification of a registered line; the line is read at once and registered again (R440). -/
def execLnMessage (x : RingName) (pi ci : Nat) (s : State) : Result :=
  .next (if x.ok ∧ s.host.lnEn ∧ (s.ringOf x).watched ∧ (s.ringOf x).lnRegistered then
      (s.lineRead x pi ci).emit (.lnRead (s.ringOf x).dbAddr) else s)

/-! ### Fetch and dispatch (R22, R441, R443) -/

/-- Whether ring n may fetch its next descriptor (R23, R437, R438, R571). -/
def State.mayFetch (s : State) (n : Nat) : Bool :=
  let r := s.ring n
  s.dev.ready && r.enable && r.st == .running && !r.full && r.heldComps == [] && countSub r.lastPi r.fetched != 0

/-- Whether ring n is the next that the engine fetches from: rings with fetchable descriptors take turns in ring-number order (R441). -/
def State.fetchTurn (s : State) (n : Nat) : Bool :=
  ((List.range 32).map (fun k => (s.host.fetchFrom + k) % 32)).find? s.mayFetch == some n

/-- DESCRIPTOR_FETCH: the ring engine fetches the descriptor that FETCHED names; `raw` is its 64 bytes (R22, R441, R466). -/
def execDescriptorFetch (n : Nat) (raw : List Byte) (s : State) : Result :=
  .next (if s.fetchTurn n then
      let s := s.deepExit
      let d : Desc := { ring := n, num := s.host.fetchNum, raw := padTo 64 raw }
      (s.modHost (fun h => { h with fetchNum := h.fetchNum + 1, fetchFrom := (n + 1) % 32 })).modRing n
        (fun r => { r with fetched := (r.fetched + 1) % 2 ^ 32, waiting := r.waiting ++ [d] })
    else s)

/-- Whether the descriptor is a RUN_STEP or a RUN_LAYERS. -/
def Desc.isRun (d : Desc) : Bool := d.opcode == 4 || d.opcode == 5

/-- Whether every cluster of a mask is IDLE (R157, R441). -/
def State.clustersIdle (s : State) (mask : Nat) : Bool := (maskList 8 mask).all (fun c => (s.cluster c).seq.st == .idle)

/-- Whether a waiting descriptor need wait no longer (R232, R307, R441). A RUN_STEP or RUN_LAYERS also waits for a pre-emption that
is pending. DESIGN CHOICE, log entry 44. -/
def State.dispatchable (s : State) (d : Desc) : Bool :=
  (!(d.opcode == 9 || d.waitPrior) || !s.priorLeft d false) &&
  !(d.opcode == 9 && bit (d.at 8 1) 0 && s.priorLeft d true) &&
  !(d.opcode == 7 && s.settle.phase != .idle) &&
  !(d.isRun && (!s.clustersIdle d.mask || s.timeHolds || s.preempt || s.preempts != []))

/-- Whether the descriptor holds a reserved encoding: an opcode, an ACTION (R14, R443, R447). DESIGN CHOICE, log entry 82. -/
def Desc.reserved (d : Desc) : Bool :=
  d.opcode == 0 || decide (0x0F ≤ d.opcode) || (d.opcode == 7 && decide (3 < d.at 8 2)) || (d.opcode == 0x0C && decide (2 < d.at 0x0A 2))

/-- Why a RUN_STEP or RUN_LAYERS is refused (R27, R443). DESIGN CHOICE, log entry 79. -/
def State.runRefused (s : State) (d : Desc) : Option Status :=
  if d.mask = 0 then some .malformed
  else if ¬ s.job.loaded ∨ s.saved.isSome then some .denied
  else match (maskList 8 d.mask).findSome? (fun c => s.refuses (clusterName c)) with
    | some st => some st
    | none =>
      if s.ddrMismatch ∨ (d.opcode = 4 ∧ s.engineMismatch ∧ s.validGroups ≠ []) ∨ (d.opcode = 4 ∧ s.hasSlice ∧ s.linkMismatch (List.range 4))
      then some .stateMismatch else none

/-- A command begins on cluster c (R33, R157, R158, R441). DESIGN CHOICE, log entry 44. -/
def State.beginOn (s : State) (d : Desc) (c : Nat) : State :=
  let s := s.wake c
  let q := (s.cluster c).seq
  let s := match q.cmd with
    | some old =>
      let e : EndRec := { desc := old, cluster := c, status := q.ended.getD .ok, reported := q.reported, result := q.result }
      s.modHost (fun h => { h with endedOn := h.endedOn ++ [e] })
    | none => s
  let s := s.advance c (q.cfg.foldl (fun (a : Nat) (w : CfgWrite) => max a w.land) 0 - q.cycles)
  let s := (coresOf c).foldl (fun s p => s.modCore p (fun k =>
    { k.landWrites (k.writes.foldl (fun (a : Nat) (w : RegWrite) => max a w.land) 0) with layers := 0 })) s
  let s := s.modPurse c (fun u => { u with rowThree := 0, waitNs := 0, waitFrom := none })
  s.modSeq c (fun q =>
    { q with st := .running, waitOn := .none, haltCause := 0, ring := d.ring, active := true, pc := 0, cycles := 0, retired := 0,
             cmd := some d, step := BitVec.ofNat 64 d.step, ended := none, reported := false, finish := none, stop := false,
             result := 0, waitingStart := none, timerOn := none })

/-- Whether the first descriptor of a lower ring is ready for a cluster of d too: of two that are ready together the lower ring goes
first (R441). DESIGN CHOICE, log entry 44. -/
def State.lowerRingFirst (s : State) (n : Nat) (d : Desc) : Bool :=
  d.isRun && (List.range n).any (fun m => match (s.ring m).waiting with
    | e :: _ => e.isRun && s.dispatchable e && (maskList 8 e.mask).any (maskList 8 d.mask).contains
    | [] => false)

/-- DISPATCH: the first waiting descriptor of ring n goes to its clusters or its unit, once it need wait no longer
(R232, R276, R306, R307, R441, R443). -/
def execDispatch (n : Nat) (s : State) : Result :=
  match (s.ring n).waiting with
  | [] => .next s
  | d :: ds =>
    if n < 32 ∧ s.dispatchable d ∧ ¬ s.lowerRingFirst n d then
      let s := s.timeSettles
      let s := (s.modRing n (fun r => { r with waiting := ds })).modHost (fun h => { h with inflight := h.inflight ++ [d] })
      if d.reserved then .next (s.complete d .malformed).cfgEnds
      else if d.isRun then
        (match s.runRefused d with
         | some st => .next (s.complete d st 0 0 (if d.opcode = 4 then s.guardWordOf {} else 0))
         | none => .next ((maskList 8 d.mask).foldl (fun s c => s.beginOn d c) s))
      else .next s
    else .next s

/-! ### Interrupts (R453) -/

/-- MSIX_AGE_EXPIRY: the oldest pending entry of vector v is older than TIME_US (R453). -/
def execMsixAgeExpiry (v : Nat) (s : State) : Result :=
  let x := tget s.host.vectors {} v
  .next (if v < 64 ∧ x.timeUs ≠ 0 ∧ x.pending ≠ 0 then
      (s.reach (x.oldest + 1000 * x.timeUs)).fire v else s)

/-- The mask bit of vector v is written; an unmasked vector sends its held message (R453). PRESUMED, log entry 7. -/
def State.maskVector (s : State) (v : Nat) (m : Bool) : State :=
  let x := tget s.host.vectors {} v
  let s := s.modHost (fun h => { h with vectors := tset h.vectors {} v { x with masked := m, pba := x.pba && m } })
  if x.pba ∧ ¬ m then s.emit (.msix v) else s

/-- MSIX_VECTOR_UNMASK: the host unmasks vector v (R453). PRESUMED, log entry 7. -/
def execMsixVectorUnmask (v : Nat) (s : State) : Result := .next (if v < 64 then s.maskVector v false else s)

/-! ### Ring control (R438, R458, R459) -/

/-- Whether a ring's size and base fields let it be enabled (R458, R459). -/
def Ring.sizesOk (r : Ring) (x : RingName) : Bool :=
  let cq := match x with | .stm => decide (6 ≤ r.logCq ∧ r.logCq ≤ 10) | _ => decide (6 ≤ r.logCq ∧ r.logCq ≤ 16)
  let sq := match x with | .sub _ => decide (6 ≤ r.logSq ∧ r.logSq ≤ 16 ∧ r.logSq ≤ r.logCq) && r.sqBase % 4096 == 0 | _ => true
  cq && sq && r.cqBase % 4096 == 0

/-- A ring becomes DISABLED once it is not enabled and every fetched descriptor has its entry (R438). -/
def State.settleRingOf (s : State) : RingName → State
  | .sub n => s.settleRing n
  | x => if (s.ringOf x).enable then s else s.modRingOf x (fun r => { r with st := .disabled })

/-- ENABLE of a ring is written (R23, R438, R440, R458). DESIGN CHOICE, log entry 41. -/
def State.writeEnable (s : State) (x : RingName) (v : Bool) : State :=
  let r := s.ringOf x
  if v then
    if r.enable ∨ ¬ r.sizesOk x then s
    else
      let s := s.modRingOf x (fun r =>
        { r with enable := true, st := if r.st = .disabled then (if r.faulted || s.err.fatal then .stopped else .running) else r.st,
                 interval := s.host.pollNs, empties := 0, lnRegistered := s.host.lnEn })
      if s.host.lnEn then s.emit (.lnRead r.dbAddr) else s
  else (s.modRingOf x (fun r => { r with enable := false, lnRegistered := false })).settleRingOf x

/-- 1 is written to RESET of a ring (R438). DESIGN CHOICE, log entry 41. -/
def State.writeRingReset (s : State) (x : RingName) : State :=
  s.modRingOf x (fun r =>
    if r.st = .disabled then { r with fetched := 0, lastPi := 0, written := 0, lastCi := 0, faulted := false } else r)

/-- RING_ENABLE: ENABLE of a ring is written (R438, R458). DESIGN CHOICE, log entry 42. -/
def execRingEnable (x : RingName) (v : Bool) (s : State) : Result := .next (if x.ok then s.writeEnable x v else s)

/-- RING_RESET: 1 is written to RESET of a ring (R438). -/
def execRingReset (x : RingName) (s : State) : Result := .next (if x.ok then s.writeRingReset x else s)

/-! ### BAR2 (R211, R213, R252, R430, R431, R571) -/

/-- Bytes of the BAR2 window (R430). -/
def bar2Size : Nat := 2 ^ 34

/-- An access at or above DRAM_TOP is logged at most once per second (R431). -/
def State.hostAddrFault (s : State) : State := s.logLimited .hostAddrFault 0 second (srcBlock 2) []

/-- Poisoned data leaves for the host (R213). -/
def State.hostPoison (s : State) (a : Nat) : State := s.log .hostPoisonRead (srcBlock 2) [(8, a)]

/-- BAR2_READ: n bytes at an offset; `ecc` is what the storage's ECC reported (R207, R213, R431, R571).
DESIGN CHOICE, log entry 4. DEDUCED, log entry 27. DESIGN CHOICE, log entry 45. -/
def execBar2Read (off n : Nat) (ecc : List (Nat × EccResult)) (s : State) : Result :=
  if bar2Size < off + n then .next s
  else if ¬ s.dev.ready then .next (s.emit (.readData 0 false))
  else if s.err.fatal then .next (let x := s.fresh (8 * n); x.2.emit (.readData x.1 false))
  else
    let a := s.host.bar2Gib * 2 ^ 30 + off
    if s.dram.top < a + n then .next (s.hostAddrFault.emit .unsupportedRequest)
    else
      let s := s.deepExit.eccAll (ecc.filter (fun x => decide (a ≤ x.1 ∧ x.1 < a + n)))
      let p := s.poisonIn a n
      .next ((if p then s.hostPoison a else s).emit (.readData (leNat (s.readMem a n)) p))

/-- Whether [a, a + n) touches a region of a valid group (R252). -/
def State.inSettleRegion (s : State) (a n : Nat) : Bool :=
  s.validGroups.any (fun g => (rowRegions (s.row g)).any (fun r => overlaps a n r.1 r.2))

/-- BAR2_WRITE: bytes at an offset, from a TLP that may be poisoned (R211, R212, R252, R431, R571).
DEDUCED, log entry 27. DESIGN CHOICE, log entry 45. -/
def execBar2Write (off : Nat) (data : List Byte) (poisoned : Bool) (s : State) : Result :=
  let n := data.length
  if bar2Size < off + n ∨ ¬ s.dev.ready ∨ s.err.fatal then .next s
  else
    let a := s.host.bar2Gib * 2 ^ 30 + off
    if s.dram.top < a + n then .next s.hostAddrFault
    else
      let s := s.deepExit
      let s := if s.settle.phase ≠ .idle ∧ s.inSettleRegion a n then s.log .settleHostWrite (srcBlock 4) [] else s
      .next (s.writeMem a data (fun _ => poisoned))

end Sys2Proof.Machine
end

