-- ==== Sys2Proof/Machine/Registers.lean ====
section
/-!
DEFINITION. The registers of BAR0: where they lie (R595, R602), what a read of each returns (the field maps of their chapters), and
the RC fields that a read clears (R597, R598, R603).
-/
set_option autoImplicit false
namespace Sys2Proof.Machine

/-- A register of R602. -/
inductive Reg where
  | hifId | hifSerial | devStatus | resetCtrl | watch | bar2
  | msixMod (v : Nat) | msixEntry (v : Nat) | msixPba
  | ringCtrl (x : RingName) | ringStatus (x : RingName) | sqBase (n : Nat) | cqBase (x : RingName) | dbAddr (x : RingName)
  | fabCtrl | fabDrain | fabSlice | fabCounts | colCtrl | colStatus | colFlags | colRunahead | detour (t e : Nat)
  | portCtrl (n : Nat) | portStatus (n : Nat) | lnkLock | discCtrl | position | timeStatus | plan | disc (n : Nat)
  | setStatus | setStep | guardCtrl | spikeParam | spikeState | guardCounts | normHead | normHist (i : Nat)
  | arrays (i : Nat) | clusterArrays
  | pwrCtrl | pwrLimit | paceCtrl | paceStatus | therm | clusterCtrl (c : Nat) | share (c : Nat)
  | clk (c : Nat) | cdc
  | seqStatus (c : Nat) | seqPc (c : Nat) | seqCycles (c : Nat) | seqRetired (c : Nat) | greg (c g : Nat)
  | hazCtrl (c : Nat) | haz (c kind : Nat) | hazReport (c : Nat) | coinCtrl (c : Nat) | coinCounts (c : Nat)
  | imem (c a : Nat) | dmem (c a : Nat)
  | ddrConfig | ddrCtrl | ddrLock | ddrChannel (n : Nat)
  | errStatus | errPrimary | errCtrl | dayBook | injCtrl | injAddr
  | mgtStatus | secStatus | secPolicy | ownerKey (n : Nat) | telStatus
deriving DecidableEq, Repr

/-- The register and its 8-byte word in the slot at an offset of the HIF_ block (R602). -/
def hifAt (o : Nat) : Option (Reg × Nat) :=
  if o = 0 then some (.hifId, 0)
  else if o = 8 then some (.hifSerial, 0)
  else if o = 0x10 then some (.devStatus, 0)
  else if o = 0x18 then some (.resetCtrl, 0)
  else if o = 0x20 then some (.watch, 0)
  else if o = 0x28 then some (.bar2, 0)
  else if 0x100 ≤ o ∧ o < 0x300 then some (.msixMod ((o - 0x100) / 8), 0)
  else if 0x1000 ≤ o ∧ o < 0x1800 then
    let n := (o - 0x1000) / 0x40
    match (o - 0x1000) % 0x40 with
    | 0 => some (.ringCtrl (.sub n), 0) | 8 => some (.ringStatus (.sub n), 0) | 0x10 => some (.sqBase n, 0)
    | 0x18 => some (.cqBase (.sub n), 0) | 0x20 => some (.dbAddr (.sub n), 0) | _ => none
  else if 0x1800 ≤ o ∧ o < 0x1880 then
    let x : RingName := if o < 0x1840 then .evt else .stm
    match o % 0x40 with
    | 0 => some (.ringCtrl x, 0) | 8 => some (.ringStatus x, 0) | 0x10 => some (.cqBase x, 0) | 0x20 => some (.dbAddr x, 0) | _ => none
  else none

/-- As `hifAt`, for the FAB_ block. -/
def fabAt (o : Nat) : Option (Reg × Nat) :=
  if o = 0 then some (.fabCtrl, 0)
  else if o = 8 then some (.fabDrain, 0)
  else if o = 0x10 ∨ o = 0x18 then some (.fabSlice, (o - 0x10) / 8)
  else if o = 0x20 ∨ o = 0x28 then some (.fabCounts, (o - 0x20) / 8)
  else if o = 0x30 then some (.colCtrl, 0)
  else if o = 0x38 then some (.colStatus, 0)
  else if o = 0x40 then some (.colFlags, 0)
  else if o = 0x50 ∨ o = 0x58 then some (.colRunahead, (o - 0x50) / 8)
  else if 0x1000 ≤ o ∧ o < 0x1900 then some (.detour ((o - 0x1000) / 0x100) (o % 0x100 / 0x10), o % 0x10 / 8)
  else none

/-- As `hifAt`, for the LNK_ block. -/
def lnkAt (o : Nat) : Option (Reg × Nat) :=
  if o < 0x80 then some (if o % 0x10 = 0 then .portCtrl (o / 0x10) else .portStatus (o / 0x10), 0)
  else if o = 0x80 then some (.lnkLock, 0)
  else if o = 0x88 then some (.discCtrl, 0)
  else if o = 0x90 then some (.position, 0)
  else if o = 0x98 then some (.timeStatus, 0)
  else if o = 0xA0 ∨ o = 0xA8 then some (.plan, (o - 0xA0) / 8)
  else if 0x100 ≤ o ∧ o < 0x140 then some (.disc ((o - 0x100) / 8), 0)
  else none

/-- As `hifAt`, for the SET_ block. -/
def setAt (o : Nat) : Option (Reg × Nat) :=
  if o = 0 then some (.setStatus, 0)
  else if o = 8 then some (.setStep, 0)
  else if o = 0x10 then some (.guardCtrl, 0)
  else if o = 0x18 then some (.spikeParam, 0)
  else if o = 0x20 ∨ o = 0x28 then some (.spikeState, (o - 0x20) / 8)
  else if o = 0x30 ∨ o = 0x38 then some (.guardCounts, (o - 0x30) / 8)
  else if o = 0x40 then some (.normHead, 0)
  else if 0x800 ≤ o ∧ o < 0x1000 then some (.normHist ((o - 0x800) / 0x20), o % 0x20 / 8)
  else none

/-- As `hifAt`, for the PWR_ and CLK_ blocks. -/
def pwrAt (o : Nat) : Option (Reg × Nat) :=
  if o = 0 then some (.pwrCtrl, 0)
  else if o = 8 then some (.pwrLimit, 0)
  else if o = 0x10 then some (.paceCtrl, 0)
  else if o = 0x20 ∨ o = 0x28 then some (.paceStatus, (o - 0x20) / 8)
  else if o = 0x30 then some (.therm, 0)
  else if 0x100 ≤ o ∧ o < 0x180 then some (if o % 0x10 = 0 then .clusterCtrl ((o - 0x100) / 0x10) else .share ((o - 0x100) / 0x10), 0)
  else none
def clkAt (o : Nat) : Option (Reg × Nat) :=
  if o < 0x40 then some (.clk (o / 8), 0) else if o = 0x40 then some (.cdc, 0) else none

/-- As `hifAt`, for the SEQ_ instance of cluster c. -/
def seqAt (c o : Nat) : Option (Reg × Nat) :=
  if o = 0 then some (.seqStatus c, 0)
  else if o = 8 then some (.seqPc c, 0)
  else if o = 0x10 then some (.seqCycles c, 0)
  else if o = 0x18 then some (.seqRetired c, 0)
  else if 0x100 ≤ o ∧ o < 0x200 then some (.greg c ((o - 0x100) / 8), 0)
  else if o = 0x200 then some (.hazCtrl c, 0)
  else if 0x208 ≤ o ∧ o < 0x220 then some (.haz c ((o - 0x200) / 8), 0)
  else if o = 0x220 ∨ o = 0x228 then some (.hazReport c, (o - 0x220) / 8)
  else if o = 0x300 then some (.coinCtrl c, 0)
  else if o = 0x310 ∨ o = 0x318 then some (.coinCounts c, (o - 0x310) / 8)
  else if 0x40000 ≤ o ∧ o < 0x80000 then some (.imem c (o - 0x40000), 0)
  else if 0x80000 ≤ o then some (.dmem c (o - 0x80000), 0)
  else none

/-- As `hifAt`, for the DDR_, ERR_ and SEC_ blocks. -/
def ddrAt (o : Nat) : Option (Reg × Nat) :=
  if o = 0 then some (.ddrConfig, 0)
  else if o = 8 then some (.ddrCtrl, 0)
  else if o = 0x10 then some (.ddrLock, 0)
  else if 0x100 ≤ o ∧ o < 0x1C0 then some (.ddrChannel ((o - 0x100) / 8), 0)
  else none
def errAt (o : Nat) : Option (Reg × Nat) :=
  if o = 0 then some (.errStatus, 0)
  else if o = 0x10 ∨ o = 0x18 then some (.errPrimary, (o - 0x10) / 8)
  else if o = 0x20 then some (.errCtrl, 0)
  else if o = 0x28 then some (.dayBook, 0)
  else if o = 0x30 then some (.injCtrl, 0)
  else if o = 0x38 then some (.injAddr, 0)
  else none
def secAt (o : Nat) : Option (Reg × Nat) :=
  if o = 0 then some (.secStatus, 0)
  else if o = 8 then some (.secPolicy, 0)
  else if 0x10 ≤ o ∧ o < 0x30 then some (.ownerKey ((o - 0x10) / 8), 0)
  else none

/-- The register, and its 8-byte word, in the slot of BAR0 that starts at offset a, a multiple of 8; none where the address is
reserved (R12, R595, R602). -/
def regAt (a : Nat) : Option (Reg × Nat) :=
  let o := a % 0x100000
  match a / 0x100000 with
  | 0 => hifAt o
  | 1 => if o < 0x400 then some (.msixEntry (o / 0x10), o % 0x10 / 8) else if o = 0x1000 then some (.msixPba, 0) else none
  | 2 => fabAt o
  | 3 => lnkAt o
  | 4 => setAt o
  | 5 => if o < 0x18 then some (.arrays (o / 8), 0) else if o = 0x18 then some (.clusterArrays, 0) else none
  | 6 => pwrAt o
  | 7 => clkAt o
  | 16 => ddrAt o
  | 17 => errAt o
  | 18 => if o = 0 then some (.mgtStatus, 0) else none
  | 19 => secAt o
  | 20 => if o = 0 then some (.telStatus, 0) else none
  | k => if 8 ≤ k ∧ k < 16 then seqAt (k - 8) o else none

/-! ### Images -/

/-- A ring's HIF_RING_CTRL, HIF_EVT_CTRL or HIF_STM_CTRL (R458). DESIGN CHOICE, log entry 42. -/
def Ring.ctrl (r : Ring) (x : RingName) : Nat :=
  pack [(0, 1, bnum r.enable), (8, 5, match x with | .sub _ => r.logSq | _ => 0), (16, 5, r.logCq), (24, 6, r.vector),
        (32, 3, if x = .evt then r.minSev else 0)]
/-- A ring's status register (R460). -/
def Ring.status (r : Ring) (x : RingName) : Nat :=
  pack [(0, 2, r.stateCode), (16, 16, r.dropped), (32, 32, match x with | .sub _ => r.fetched | _ => r.written)]

/-- FAB_SLICE (R365). -/
def State.sliceImage (s : State) : Nat :=
  let x := s.rtr.slice
  let e : Coord := if s.hasSlice then ⟨x.extent.w - 1, x.extent.x - 1, x.extent.y - 1, x.extent.z - 1⟩ else {}
  if s.hasSlice then
    pack [(0, 24, x.origin.toNat), (24, 24, e.toNat), (48, 4, whichBits 4 s.sliceRing), (52, 2, x.st), (54, 4, x.axes), (64, 32, x.id)]
  else 0

/-- FAB_COUNTS (R366). -/
def Router.countsImage (r : Router) : Nat :=
  pack [(0, 16, r.fenceOut), (16, 16, r.fenceIn), (32, 16, r.noPort), (48, 16, r.badPkt), (64, 16, r.failedDropped),
        (80, 16, r.failedDelivered), (96, 16, r.remoteRefused), (112, 16, r.late)]

/-- LNK_PORTn_CTRL and LNK_PORTn_STATUS (R312, R313). -/
def Link.ctrl (k : Link) : Nat :=
  pack [(0, 2, k.maxMode), (2, 1, bnum k.enable), (3, 1, bnum k.spareEn), (4, 1, bnum k.forceKa), (8, 4, k.replayLimit), (12, 4, k.laneFailUnc)]
def Link.status (k : Link) (delay : Nat) : Nat :=
  pack [(0, 3, k.st.code), (3, 2, k.mode), (5, 1, bnum k.spareTx), (6, 1, bnum k.spareRx), (7, 4, k.sparedLane), (11, 1, k.half),
        (16, 16, delay), (32, 16, k.replays), (48, 8, k.creditLate), (56, 8, k.badCtrl)]

/-- LNK_TIME_STATUS (R314). -/
def TimeBase.status (t : TimeBase) : Nat :=
  pack [(0, 2, t.tstate), (2, 3, t.parent), (5, 1, bnum t.root), (8, 8, t.depth),
        (32, 32, (max (-2147483647) (min 2147483647 t.offsetPs) % 2 ^ 32).toNat)]

/-- LNK_PLAN (R333). -/
def planImage (p : Option (List Byte)) : Nat :=
  match p with
  | some b => pack [(0, 32, leAt b 0 4), (32, 4, leAt b 4 1), (64, 32, leAt b 8 4)]
  | none => 0

/-- LNK_DISCn (R334). -/
def Disc.image (d : Disc) : Nat :=
  pack [(0, 3, d.st.code), (3, 4, d.cause), (7, 1, bnum d.lowered), (8, 24, d.pos), (32, 3, d.pport), (35, 1, bnum d.seen), (48, 16, d.quarDropped)]

/-- PHASE codes (R255). -/
def Phase.code : Phase → Nat | .idle => 0 | .landing => 1 | .deciding => 2 | .pass => 3

/-- SET_STATUS (R255). -/
def State.setStatus (s : State) : Nat :=
  pack [(0, 2, s.settle.phase.code), (2, 1, s.settle.mode), (3, 1, bnum s.settle.lastAborted), (4, 1, bnum s.settle.interrupted),
        (6, 24, whichBits 24 s.engineFaulted)]

/-- SET_SPIKE_STATE and SET_GUARD_COUNTS (R267, R274). -/
def Settle.spikeImage (t : Settle) : Nat :=
  pack [(0, 32, t.spike.mu.toNat), (32, 32, t.spike.var.toNat), (64, 32, t.spike.last.toNat), (96, 16, min t.spike.n 0xFFFF),
        (112, 8, min t.spike.consec 255), (120, 1, bnum t.spike.spiked), (121, 1, bnum (decide (t.warmup ≤ t.spike.n)))]
def Settle.countsImage (t : Settle) : Nat :=
  pack [(0, 32, t.skipNonfinite), (32, 32, t.skipSkew), (64, 32, t.spikes), (96, 16, t.dormantGroups)]

/-- An entry of SET_NORM_HIST (R268). -/
def NormEntry.image (e : NormEntry) : Nat :=
  pack [(0, 64, e.step), (64, 32, e.sumsq.toNat), (96, 32, e.nrm.toNat), (128, 32, e.clip.toNat), (160, 32, e.nonfinite), (192, 8, e.outcome),
        (200, 1, bnum e.spike)]

/-- PWR_PACE_STATUS (R486). -/
def Power.paceImage (p : Power) : Nat :=
  pack [(0, 11, p.qLocal), (11, 11, p.qSlice), (22, 11, p.qUsed), (48, 16, p.missed), (64, 32, p.demand)]
/-- PWR_LIMIT (R485). -/
def Power.limitImage (p : Power) : Nat := pack [(0, 16, p.boardW), (16, 16, p.thermMw / 1000), (32, 16, p.fixedMw / 1000)]

/-- The slower of two dividers: 0 ×3/4, 1 ×1/2, 2 ×1/4, 3 full (R488, R490). -/
def slower (a b : Nat) : Nat := if a = 3 then b else if b = 3 then a else max a b
/-- The divider in force in RUN: under the brake, the slower of the layer's and BRAKE_DIV (R479, R488, R490). -/
def ClockSt.divNow (k : ClockSt) (brakeDiv : Nat) : Nat := if k.cstate ≠ 0 then 3 else if k.braked then slower k.div brakeDiv else k.div

/-- CLK_CLUSTER_STATUSc (R488). -/
def ClockSt.image (k : ClockSt) (brakeDiv : Nat) : Nat :=
  pack [(0, 2, k.cstate), (2, 2, k.divNow brakeDiv), (4, 1, bnum k.braked), (16, 12, k.volt2 / 2), (32, 16, k.marginPs),
        (48, 16, min k.stretches 0xFFFF)]

/-- SEQ_STATUS (R157). -/
def Sequencer.status (q : Sequencer) : Nat :=
  let st := match q.st with | .idle => 0 | .running => 1 | .waiting => 2 | .halted => 3
  let on := match q.waitOn with | .none => 0 | .startSlot => 1 | .purse => 2 | .coin => 3 | .timer => 4 | .layers => 5 | .service => 6
  pack [(0, 3, st), (3, 4, on), (7, 4, q.haltCause), (16, 5, q.ring), (21, 1, bnum q.active)]

/-- SEQ_COIN_COUNTS (R427). -/
def CoinCounts.image (k : CoinCounts) : Nat :=
  pack [(0, 16, k.overflow), (16, 16, k.timeouts), (32, 16, k.droppedReset), (48, 16, k.droppedPreempt), (64, 16, k.replyLate), (80, 16, k.remoteFull)]

/-- DDR_CONFIG, DDR_CTRL and DDR_CHn_STATUS (R204 to R206). -/
def Dram.config (d : Dram) : Nat :=
  pack [(0, 5, d.used.length), (5, 1, bnum d.fast), (6, 2, match d.moduleGb with | 64 => 0 | 128 => 1 | 256 => 2 | _ => 3),
        (8, 24, whichBits 24 (fun i => d.used.contains i)), (32, 16, d.top / 2 ^ 30)]
def Dram.ctrl (d : Dram) : Nat := pack [(0, 1, bnum d.speedCap), (8, 8, d.scrubHours), (16, 8, d.pprThresh), (24, 8, d.eraseThresh)]
def Channel.status (k : Channel) : Nat :=
  pack [(0, 2, k.st), (2, 6, if k.st = 2 then k.erased else 0), (8, 8, min k.pprList.length 0xFF), (16, 8, min k.pprLeft 0xFF),
        (32, 16, k.uncorrected), (48, 16, k.dropped)]

/-- ERR_STATUS, ERR_PRIMARY, ERR_CTRL, ERR_DAYBOOK_STATUS and ERR_INJ_CTRL (R508 to R512). -/
def State.errStatus (s : State) : Nat :=
  pack [(0, 1, bnum s.err.active), (1, 1, bnum s.err.valid), (2, 1, bnum s.err.double), (3, 1, bnum s.err.fatal), (4, 1, bnum s.errorPin),
        (8, 8, s.err.nested), (32, 16, s.err.displaced)]
def Errors.primaryImage (e : Errors) : Nat :=
  match e.primary with
  | some p => pack [(0, 64, p.time), (64, 16, p.cls.code), (80, 3, p.sev.code), (96, 16, p.source)]
  | none => 0
def Errors.ctrl (e : Errors) : Nat :=
  pack [(0, 3, e.errorMin), (3, 1, bnum e.errorDouble), (8, 16, e.wdogCore), (24, 16, e.wdogSeq), (63, 1, bnum e.lock)]
def Errors.dayBookStatus (e : Errors) : Nat := pack [(0, 16, e.nextSeq), (16, 1, bnum (decide (8192 ≤ e.total))), (32, 16, e.lost)]
def Errors.injImage (e : Errors) : Nat :=
  pack [(0, 16, e.injCls), (16, 16, e.injUnit), (32, 1, bnum e.injArm), (33, 1, bnum e.injCont), (34, 1, bnum e.injFired), (40, 8, e.injBits)]

/-- MGT_STATUS (R518) and TEL_STATUS (R605). -/
def Mgmt.status (m : Mgmt) : Nat :=
  pack [(0, 8, m.eid), (8, 1, bnum m.i3c), (9, 7, m.dynAddr), (16, 16, m.dropped), (32, 16, m.ledgerDropped)]
def Mgmt.telStatus (m : Mgmt) : Nat := pack [(0, 20, m.periodUs), (20, 1, bnum m.nextPeriod.isSome), (32, 32, m.stmtSeq)]

/-- Blown rollback fuses of a class. -/
def Fuses.svn (f : Fuses) (cls : Nat) : Nat := tget f.rollback 0 cls
/-- SEC_STATUS and SEC_POLICY (R563, R564). -/
def State.secStatus (s : State) : Nat :=
  pack [(0, 4, whichBits 4 (fun i => (tget s.flash {} (i + 1)).activeB)), (4, 1, bnum s.sec.fallback), (5, 1, bnum s.sec.debugEnd.isSome),
        (6, 1, bnum s.sec.maintEnd.isSome), (7, 1, bnum s.sec.blocked), (8, 1, bnum s.fuses.revoke0), (9, 1, bnum s.sec.halt),
        (16, 7, s.fuses.svn 1), (23, 7, s.fuses.svn 2), (30, 7, s.fuses.svn 3), (37, 7, s.fuses.svn 4)]
def Security.policy (x : Security) : Nat := pack [(0, 1, bnum x.requireSigned), (1, 2, x.minScrub), (63, 1, bnum x.lock)]

/-- Number of working arrays of a grade (R107). -/
def Grade.arrays : Grade → Nat | .s96 => 96 | .s90 => 90 | .s84 => 84

/-- HIF_ID and HIF_DEV_STATUS (R579, R604). -/
def Fuses.id (f : Fuses) : Nat := pack [(0, 16, 0x0096), (16, 8, 0xB1), (24, 8, f.grade.code), (32, 7, f.grade.arrays), (40, 8, 0x10)]
def Device.status (d : Device) : Nat :=
  pack [(0, 1, bnum d.ready), (1, 3, d.stage), (4, 1, bnum d.stalled), (5, 1, bnum d.scrubbing), (8, 3, d.lastReset), (32, 32, d.readyMs)]

/-- Whether the private state of cluster c's sequencer is open to debug (R158, R560). -/
def State.debugOpen (s : State) (c : Nat) : Bool := (s.cluster c).seq.st == .halted && s.sec.debugEnd.isSome

/-- The whole image of a register; a WO field reads 0 (R596, R602). -/
def State.regImage (s : State) (r : Reg) : Nat :=
  match r with
  | .hifId => s.fuses.id
  | .hifSerial => s.fuses.serial.toNat
  | .devStatus => s.dev.status
  | .resetCtrl | .discCtrl => 0
  | .watch => pack [(0, 20, s.host.pollNs), (20, 1, bnum s.host.backoff), (21, 1, bnum s.host.lnEn), (24, 8, s.host.backoffAfter), (32, 20, s.host.maxPollNs)]
  | .bar2 => s.host.bar2Gib * 2 ^ 30
  | .msixMod v => let x := tget s.host.vectors {} v; pack [(0, 8, x.count), (8, 16, x.timeUs)]
  | .msixEntry v => let x := tget s.host.vectors {} v; pack [(0, 64, x.addr.toNat), (64, 32, x.data.toNat), (96, 1, bnum x.masked)]
  | .msixPba => whichBits 64 (fun v => (tget s.host.vectors {} v).pba)
  | .ringCtrl x => (s.ringOf x).ctrl x
  | .ringStatus x => (s.ringOf x).status x
  | .sqBase n => (s.ring n).sqBase
  | .cqBase x => (s.ringOf x).cqBase
  | .dbAddr x => (s.ringOf x).dbAddr
  | .fabCtrl => pack [(0, 16, s.rtr.readTimeout), (16, 16, s.rtr.stallLimit)]
  | .fabDrain => pack [(0, 1, bnum s.rtr.drain), (1, 1, bnum s.isDrained), (32, 32, s.rtr.moved)]
  | .fabSlice => s.sliceImage
  | .fabCounts => s.rtr.countsImage
  | .colCtrl => pack [(0, 3, s.col.runahead), (16, 16, s.col.stmtTimeout)]
  | .colStatus => pack [(0, 11, s.col.running.length), (11, 1, bnum s.col.loaded), (12, 2, s.dec.stmtState), (32, 11, s.col.plan.length)]
  | .colFlags => pack [(0, 1, bnum s.col.flags.inv), (1, 1, bnum s.col.flags.ovf), (2, 1, bnum s.col.flags.unf)]
  | .colRunahead => pack [(0, 64, s.col.issued), (64, 64, s.col.cancelled)]
  | .detour t e => tget s.rtr.detours 0 (16 * t + e)
  | .portCtrl n => (s.port n).link.ctrl
  | .portStatus n => (s.port n).link.status (s.delayOf n)
  | .lnkLock => bnum s.dev.lnkLock
  | .position => pack [(0, 32, s.posWord), (32, 2, s.dev.posState), (34, 4, s.dev.badPin)]
  | .timeStatus => s.time.status
  | .plan => planImage s.dev.plan
  | .disc n => (s.port n).disc.image
  | .setStatus => s.setStatus
  | .setStep => s.settle.setStep
  | .guardCtrl => pack [(0, 2, s.settle.ctrlPolicy), (2, 1, bnum s.settle.spikeEn), (8, 8, s.settle.reseed), (16, 16, s.settle.warmup)]
  | .spikeParam => pack [(0, 32, s.settle.alpha.toNat), (32, 32, s.settle.bandK.toNat)]
  | .spikeState => s.settle.spikeImage
  | .guardCounts => s.settle.countsImage
  | .normHead => pack [(0, 6, s.dec.histNext), (6, 1, bnum s.dec.histWrapped)]
  | .normHist i => (tget s.dec.hist {} i).image
  | .arrays i => whichBits 32 (fun j => s.arrayPresent (32 * i + j))
  | .clusterArrays => pack ((List.range 8).map (fun c => (4 * c, 4, s.clusterArrays c)))
  | .pwrCtrl => pack [(0, 16, s.pwr.cgDelay), (16, 16, s.pwr.pgDelay), (32, 1, bnum s.pwr.pgEn), (33, 1, bnum s.pwr.deepEn),
      (34, 2, s.pwr.brakeDiv), (48, 16, s.pwr.deepDelay)]
  | .pwrLimit => s.pwr.limitImage
  | .paceCtrl => bnum s.pwr.paceEn
  | .paceStatus => s.pwr.paceImage
  | .therm => pack [(0, 8, s.pwr.throttleC), (8, 8, s.pwr.tripC), (16, 8, s.pwr.tmax), (24, 6, s.pwr.tmaxSensor), (31, 1, bnum s.pwr.lock)]
  | .clusterCtrl c => let k := s.cluster c
      pack [(0, 2, k.purse.policy), (2, 2, k.purse.div), (4, 1, bnum k.clock.holdRun), (32, 32, k.purse.depth)]
  | .share c => (s.cluster c).purse.share
  | .clk c => (s.cluster c).clock.image s.pwr.brakeDiv
  | .cdc => pack [(0, 16, s.rails.flushed), (16, 16, s.rails.cdcTimeouts)]
  | .seqStatus c => (s.cluster c).seq.status
  | .seqPc c => (s.cluster c).seq.pc % 2 ^ 18
  | .seqCycles c => (s.cluster c).seq.cycles % 2 ^ 64
  | .seqRetired c => (s.cluster c).seq.retired % 2 ^ 64
  | .greg c g => if s.debugOpen c then (tget (s.cluster c).seq.g 0 g).toNat else 0
  | .hazCtrl c => (s.cluster c).haz.mode
  | .haz c k => let h := (s.cluster c).haz; match k with | 1 => h.stale | 2 => h.collide | _ => h.cross
  | .hazReport c => leNat (s.cluster c).haz.report.bytes
  | .coinCtrl c => (s.cluster c).coinTimeout
  | .coinCounts c => (s.cluster c).counts.image
  | .imem c a => if s.debugOpen c then leNat ((List.range 8).map (fun i => tget (s.cluster c).seq.imem 0 (a + i))) else 0
  | .dmem c a => if s.debugOpen c then leNat ((List.range 8).map (fun i => tget (s.cluster c).seq.dmem 0 (a + i))) else 0
  | .ddrConfig => s.dram.config
  | .ddrCtrl => s.dram.ctrl
  | .ddrLock => bnum s.dram.lock
  | .ddrChannel n => (s.channel n).status
  | .errStatus => s.errStatus
  | .errPrimary => s.err.primaryImage
  | .errCtrl => s.err.ctrl
  | .dayBook => s.err.dayBookStatus
  | .injCtrl => s.err.injImage
  | .injAddr => s.err.injAddr.toNat
  | .mgtStatus => s.mgmt.status
  | .secStatus => s.secStatus
  | .secPolicy => s.sec.policy
  | .ownerKey n => (tget s.sec.ownerKey 0 n).toNat
  | .telStatus => s.mgmt.telStatus

/-- Whether a register is wider than 64 bits (R602). DESIGN CHOICE, log entry 40. -/
def Reg.wide : Reg → Bool
  | .fabSlice | .fabCounts | .colRunahead | .detour _ _ | .plan | .spikeState | .guardCounts | .normHist _ | .paceStatus
  | .hazReport _ | .coinCounts _ | .errPrimary => true
  | _ => false

/-- The RC fields of a register whose lowest bit satisfies `on` clear (R597, R603). DESIGN CHOICE, log entry 40. -/
def State.clearRc (s : State) (r : Reg) (on : Nat → Bool) : State :=
  match r with
  | .ringStatus x => if on 16 then s.modRingOf x (fun r => { r with dropped := 0 }) else s
  | .fabCounts => s.modRtr (fun r => { r with fenceOut := 0, fenceIn := 0, noPort := 0, badPkt := 0, failedDropped := 0, failedDelivered := 0,
                                              remoteRefused := 0, late := 0 })
  | .colRunahead => s.modCol (fun c => { c with issued := 0, cancelled := 0 })
  | .portStatus n => s.modLink n (fun k => { k with replays := if on 32 then 0 else k.replays, creditLate := if on 48 then 0 else k.creditLate,
                                                    badCtrl := if on 56 then 0 else k.badCtrl })
  | .disc n => if on 48 then s.modDisc n (fun d => { d with quarDropped := 0 }) else s
  | .paceStatus => s.modPwr (fun p => { p with missed := 0 })
  | .clk c => if on 48 then s.modClock c (fun k => { k with stretches := 0 }) else s
  | .cdc => { s with rails := { s.rails with flushed := if on 0 then 0 else s.rails.flushed, cdcTimeouts := if on 16 then 0 else s.rails.cdcTimeouts } }
  | .haz c k => if on 0 then s.modCluster c (fun x => { x with haz :=
      match k with | 1 => { x.haz with stale := 0 } | 2 => { x.haz with collide := 0 } | _ => { x.haz with cross := 0 } }) else s
  | .coinCounts c => s.modCluster c (fun x => { x with counts := {} })
  | .ddrChannel n => s.modChannel n (fun k => { k with uncorrected := if on 32 then 0 else k.uncorrected, dropped := if on 48 then 0 else k.dropped })
  | .errStatus => if on 8 then s.modErr (fun e => { e with nested := 0 }) else s
  | .dayBook => if on 32 then s.modErr (fun e => { e with lost := 0 }) else s
  | .mgtStatus => if on 16 then s.modMgmt (fun m => { m with dropped := 0 }) else s
  | _ => s

/-- The cluster whose clock an access to a register needs; none where the AO domain holds the register or a shadow (R158, R600). -/
def Reg.needs : Reg → Option Nat
  | .greg c _ | .hazCtrl c | .haz c _ | .hazReport c | .coinCtrl c | .coinCounts c | .imem c _ | .dmem c _ => some c
  | _ => none

/-- Whether an access to a register meets a stopped clock (R482, R600). -/
def State.regAsleep (s : State) (r : Reg) : Bool :=
  match r.needs with
  | some c => (s.cluster c).clock.cstate != 0 || (s.cluster c).clock.stopped
  | none => false

/-- The clock domain of a stopped cluster in a CDC_TIMEOUT entry (R482). -/
def Reg.domain (r : Reg) : Nat := (r.needs).getD 0

/-- Whether an access is of a form that BAR0 accepts (R596). DEDUCED, log entry 27. -/
def accessOk (off n : Nat) : Bool := (n == 4 || n == 8) && off % n == 0 && decide (off + n ≤ 2 ^ 26)

/-- A read of a register's word: the value, and the machine after the fields that it clears (R596, R597). -/
def State.regWord (s : State) (slot : Nat) (r : Reg) (w : Nat) (on : Nat → Bool) : Nat × State :=
  if r.wide then
    if w = 0 then
      let x := s.regImage r
      (fld x 0 64, ({ s with latches := tset s.latches 0 slot x } : State).clearRc r (fun _ => true))
    else (fld (tget s.latches 0 (slot - 8 * w)) (64 * w) 64, s)
  else (fld (s.regImage r) (64 * w) 64, s.clearRc r on)

/-- The stopped domain that an access of n bytes at an offset of BAR0 meets (R482, R600). -/
def State.stoppedAt (s : State) (off n : Nat) : Option Nat :=
  match regAt (off - off % 8) with
  | some (r, _) => if accessOk off n && s.regAsleep r then some r.domain else none
  | none => none

/-- A read of n bytes at an offset of BAR0: the value, and the machine after it (R12, R432, R482, R596, R597, R600). DESIGN CHOICE, log entry 40. -/
def State.readReg (s : State) (off n : Nat) : Nat × State :=
  if ¬ accessOk off n then (0, s)
  else
    let slot := off - off % 8
    let lo := 8 * (off % 8)
    match regAt slot with
    | none => (0, s)
    | some (r, w) =>
      if s.regAsleep r then (2 ^ (8 * n) - 1, (s.reach (s.aoNs + 4000)).cdcTimeout r.domain off)
      else
        let x := s.regWord slot r w (fun b => decide (lo ≤ b) && decide (b < lo + 8 * n))
        (fld x.1 lo (8 * n), x.2)

end Sys2Proof.Machine
end

