-- ==== Sys2Proof/Machine/RegisterWrites.lean ====
section
/-!
DEFINITION. Writes of the registers of BAR0 (R11 to R13, R596, R598, R601), and the loads and stores of a sequencer in its own map
(R160, R161, R411, R412, R474). In every write `n` is the word with the written bytes in place, and `hit` holds the bits written as 1.
-/
set_option autoImplicit false
namespace Sys2Proof.Machine

/-- A field's new value where it is legal, and its old value where it is reserved (R13). -/
def keepIf (ok : Bool) (new old : Nat) : Nat := if ok then new else old

/-! ### HIF_ (R438, R453, R458, R459, R461, R462, R571, R580) -/

/-- HIF_RING_CTRL, HIF_EVT_CTRL and HIF_STM_CTRL: fields, then RESET, then ENABLE (R13, R458, R491). DESIGN CHOICE, log entry 41. -/
def State.writeRingCtrl (s : State) (x : RingName) (n hit : Nat) : State :=
  let s := s.modRingOf x (fun r =>
    let r := if r.enable then r else { r with logSq := fld n 8 5, logCq := fld n 16 5, vector := fld n 24 6 }
    { r with minSev := keepIf (decide (fld n 32 3 ≤ 4)) (fld n 32 3) r.minSev })
  let s := if bit hit 1 then s.writeRingReset x else s
  if bit n 0 = (s.ringOf x).enable then s else s.writeEnable x (bit n 0)

/-- A base or doorbell register: ignored while the ring is enabled (R458, R459). -/
def State.writeBase (s : State) (x : RingName) (f : Ring → Ring) : State := if (s.ringOf x).enable then s else s.modRingOf x f

/-- The names of every ring (R433). -/
def allRings : List RingName := (List.range 32).map RingName.sub ++ [.evt, .stm]

/-- LN_EN is written: with 1, every enabled line is registered (R440). -/
def State.writeLn (s : State) (v : Bool) : State :=
  if v = s.host.lnEn then s
  else
    let s := s.modHost (fun h => { h with lnEn := v })
    (allRings.filter (fun x => (s.ringOf x).enable)).foldl (fun s x =>
      let s := s.modRingOf x (fun r => { r with lnRegistered := v })
      if v then s.emit (.lnRead (s.ringOf x).dbAddr) else s) s

/-- HIF_WATCH_CTRL (R461). -/
def State.writeWatch (s : State) (n : Nat) : State :=
  let p := fld n 0 20
  let s := s.modHost (fun h => { h with pollNs := keepIf (decide (250 ≤ p ∧ p ≤ 1000000)) p h.pollNs, backoff := bit n 20,
                                        backoffAfter := keepIf (fld n 24 8 != 0) (fld n 24 8) h.backoffAfter })
  let m := fld n 32 20
  (s.modHost (fun h => { h with maxPollNs := keepIf (decide (h.pollNs ≤ m ∧ m ≤ 1000000)) m h.maxPollNs })).writeLn (bit n 21)

/-- HIF_MSIX_MODv: a vector that has reached its new COUNT fires (R453, R462). DESIGN CHOICE, log entry 46. -/
def State.writeMsixMod (s : State) (v n : Nat) : State :=
  let s := s.modHost (fun h => { h with vectors := tmod h.vectors {} v (fun x =>
    { x with count := keepIf (fld n 0 8 != 0) (fld n 0 8) x.count, timeUs := fld n 8 16 }) })
  let x := tget s.host.vectors {} v
  if x.pending ≠ 0 ∧ x.count ≤ x.pending then s.fire v else s

/-- A word of the MSI-X table: message address, or message data and mask bit (R429, R453). PRESUMED, log entry 7. -/
def State.writeMsixEntry (s : State) (v w n : Nat) : State :=
  if w = 0 then s.modHost (fun h => { h with vectors := tmod h.vectors {} v (fun x => { x with addr := BitVec.ofNat 64 n }) })
  else
    let s := s.modHost (fun h => { h with vectors := tmod h.vectors {} v (fun x => { x with data := BitVec.ofNat 32 n }) })
    s.maskVector v (bit n 32)

/-- HIF_RESET_CTRL: until READY only WARM acts (R571, R580). -/
def State.writeResetCtrl (s : State) (hit : Nat) : State :=
  if bit hit 0 then s.warmReset
  else if ¬ s.dev.ready then s
  else
    let s := if bit hit 1 then s.sliceResetHere else s
    let s := ((List.range 8).filter (fun c => bit hit (8 + c))).foldl (fun s c => s.clusterReset c) s
    let s := if bit hit 23 ∧ fld hit 16 7 < 96 then s.coreReset (fld hit 16 7) else s
    ((List.range 8).filter (fun p => bit hit (24 + p))).foldl (fun s p => s.portReset p) s

/-! ### LNK_, SET_, PWR_ (R266, R294, R295, R312, R335, R483 to R487) -/

/-- ENABLE of a port: 0 holds it in LINK_DOWN (R294, R312). -/
def State.enablePort (s : State) (p : Nat) (v : Bool) : State :=
  if v = (s.port p).link.enable then s
  else
    let s := s.modLink p (fun k => { k with enable := v })
    if v ∨ (s.port p).link.st = .down then s else s.linkLeaves p .down

/-- FORCE_KEEPALIVE of a port (R295, R312). -/
def State.setForceKa (s : State) (p : Nat) (v : Bool) : State :=
  let s := s.modLink p (fun k => { k with forceKa := v })
  if v then s.askKeepalive p else s

/-- LNK_PORTn_CTRL (R312, R601). -/
def State.writePort (s : State) (p n hit : Nat) : State :=
  let s := if s.dev.lnkLock then s
    else (s.modLink p (fun k =>
      { k with maxMode := fld n 0 2, spareEn := bit n 3, replayLimit := keepIf (fld n 8 4 != 0) (fld n 8 4) k.replayLimit,
               laneFailUnc := keepIf (fld n 12 4 != 0) (fld n 12 4) k.laneFailUnc })).enablePort p (bit n 2)
  let s := if bit n 4 = (s.port p).link.forceKa then s else s.setForceKa p (bit n 4)
  if bit hit 5 then s.retrain p else s

/-- Whether an F32 value lies in (0, 1) (R266). -/
def unitF32 (x : W32) : Bool := !x.getLsbD 31 && decide (0 < x.toNat) && decide (x.toNat < 0x3F800000)
/-- Whether an F32 value is positive and finite (R266). -/
def posF32 (x : W32) : Bool := !x.getLsbD 31 && decide (0 < x.toNat) && decide (x.toNat < 0x7F800000)

/-- SET_GUARD_CTRL (R265, R266). -/
def State.writeGuardCtrl (s : State) (n hit : Nat) : State :=
  s.modSet (fun t =>
    { t with ctrlPolicy := keepIf (decide (fld n 0 2 ≤ 1)) (fld n 0 2) t.ctrlPolicy, spikeEn := bit n 2, reseed := fld n 8 8,
             warmup := fld n 16 16, spike := if bit hit 3 then t.spike.reset else t.spike })

/-- SET_SPIKE_PARAM (R266). -/
def State.writeSpikeParam (s : State) (n : Nat) : State :=
  let a := BitVec.ofNat 32 (fld n 0 32)
  let k := BitVec.ofNat 32 (fld n 32 32)
  s.modSet (fun t => { t with alpha := if unitF32 a then a else t.alpha, bandK := if posF32 k then k else t.bandK })

/-- PWR_CTRL (R483). -/
def State.writePwrCtrl (s : State) (n : Nat) : State :=
  s.modPwr (fun p =>
    { p with cgDelay := fld n 0 16, pgDelay := fld n 16 16, pgEn := bit n 32, deepEn := bit n 33,
             brakeDiv := keepIf (fld n 34 2 != 3) (fld n 34 2) p.brakeDiv, deepDelay := keepIf (fld n 48 16 != 0) (fld n 48 16) p.deepDelay })

/-- PWR_THERM_CTRL (R487, R601). -/
def State.writeTherm (s : State) (n hit : Nat) : State :=
  let s := if s.pwr.lock then s
    else s.modPwr (fun p => { p with throttleC := fld n 0 8, tripC := keepIf (decide (fld n 0 8 < fld n 8 8)) (fld n 8 8) p.tripC })
  s.modPwr (fun p => { p with lock := p.lock || bit hit 31 })

/-- PWR_CLUSTER_CTRLc: DEPTH is read-only through BAR0 (R484, R598). -/
def State.writeClusterCtrl (s : State) (c n : Nat) : State :=
  let s := s.modPurse c (fun u =>
    { u with policy := keepIf (fld n 0 2 == 1 || fld n 0 2 == 2) (fld n 0 2) u.policy, div := keepIf (fld n 2 2 != 3) (fld n 2 2) u.div })
  if bit n 4 = (s.cluster c).clock.holdRun then s else s.setHoldRun c (bit n 4)

/-! ### SEQ_ (R158, R182, R426) -/

/-- VALID of SEQ_HAZ_REPORT is written with 1 (R182). -/
def State.clearReport (s : State) (c hit : Nat) : State :=
  if bit hit 63 then s.modCluster c (fun k => { k with haz := { k.haz with report := {} } }) else s
/-- MODE of SEQ_HAZ_CTRL (R182). -/
def State.writeHazMode (s : State) (c n : Nat) : State :=
  if fld n 0 2 = 3 then s else s.modCluster c (fun k => { k with haz := { k.haz with mode := fld n 0 2 } })
/-- A debug write of a sequencer's private state (R158). -/
def State.debugWrite (s : State) (c : Nat) (f : Sequencer → Sequencer) : State := if s.debugOpen c then s.modSeq c f else s

/-! ### DDR_, ERR_, SEC_ (R205, R508, R510, R550, R553, R564) -/

/-- DDR_CTRL (R205). -/
def State.writeDdrCtrl (s : State) (n : Nat) : State :=
  if s.dram.lock then s
  else { s with dram := { s.dram with speedCap := bit n 0, scrubHours := fld n 8 8, pprThresh := fld n 16 8, eraseThresh := fld n 24 8 } }

/-- VALID and DOUBLE of ERR_STATUS (R508). -/
def State.writeErrStatus (s : State) (hit : Nat) : State :=
  s.modErr (fun e => { e with valid := e.valid && !(bit hit 1 && !e.active), double := e.double && !bit hit 2 })

/-- ERR_CTRL (R510). -/
def State.writeErrCtrl (s : State) (n hit : Nat) : State :=
  let s := if s.err.lock then s
    else s.modErr (fun e =>
      { e with errorMin := keepIf (decide (fld n 0 3 ≤ 4)) (fld n 0 3) e.errorMin, errorDouble := bit n 3,
               wdogCore := keepIf (decide (5 ≤ fld n 8 16 ∧ fld n 8 16 ≤ 1000)) (fld n 8 16) e.wdogCore,
               wdogSeq := keepIf (decide (20 ≤ fld n 24 16 ∧ fld n 24 16 ≤ 10000)) (fld n 24 16) e.wdogSeq })
  s.modErr (fun e => { e with lock := e.lock || bit hit 63 })

/-- Slot 7 is measured when the security policy locks (R553). DESIGN CHOICE, log entry 28. -/
def State.measurePolicy (s : State) : State := s.setSlot 7 (sha256 (leBytes 8 s.sec.policy ++ s.sec.owner))

/-- SEC_POLICY (R550, R553, R564). -/
def State.writePolicy (s : State) (n hit : Nat) : State :=
  if s.sec.lock then s
  else
    let s := s.modSec (fun x => { x with requireSigned := if bit n 0 && !x.hasOwner then false else bit n 0,
                                         minScrub := keepIf (fld n 1 2 != 3) (fld n 1 2) x.minScrub })
    if bit hit 63 then (s.modSec (fun x => { x with lock := true })).measurePolicy else s

/-! ### A write of any register -/

/-- A word of a register is written (R12, R596, R598, R602). -/
def State.writeWord (s : State) (r : Reg) (w n hit : Nat) : State :=
  match r with
  | .resetCtrl => s.writeResetCtrl hit
  | .watch => s.writeWatch n
  | .bar2 => s.modHost (fun h => { h with bar2Gib := keepIf (decide (fld n 30 13 ≤ 8176)) (fld n 30 13) h.bar2Gib })
  | .msixMod v => s.writeMsixMod v n
  | .msixEntry v => s.writeMsixEntry v w n
  | .ringCtrl x => s.writeRingCtrl x n hit
  | .sqBase k => s.writeBase (.sub k) (fun r => { r with sqBase := n / 64 * 64 })
  | .cqBase x => s.writeBase x (fun r => { r with cqBase := n / 64 * 64 })
  | .dbAddr x => s.writeBase x (fun r => { r with dbAddr := n / 64 * 64 })
  | .fabCtrl => s.modRtr (fun r => { r with readTimeout := keepIf (fld n 0 16 != 0) (fld n 0 16) r.readTimeout, stallLimit := fld n 16 16 })
  | .fabDrain => s.setDrain (bit n 0)
  | .colCtrl => s.modCol (fun c => { c with runahead := keepIf (decide (1 ≤ fld n 0 3 ∧ fld n 0 3 ≤ 4)) (fld n 0 3) c.runahead,
                                            stmtTimeout := keepIf (fld n 16 16 != 0) (fld n 16 16) c.stmtTimeout })
  | .colFlags =>
    s.modCol (fun c =>
      let g := c.flags
      { c with flags := { g with inv := g.inv && !bit hit 0, ovf := g.ovf && !bit hit 1, unf := g.unf && !bit hit 2 } })
  | .detour t e => s.writeDetour t e (if w = 0 then n else tget s.rtr.detours 0 (16 * t + e))
  | .portCtrl p => s.writePort p n hit
  | .lnkLock => s.modDev (fun d => { d with lnkLock := d.lnkLock || bit hit 0 })
  | .discCtrl => ((List.range 8).filter (bit hit)).foldl (fun s p => s.reidentify p) s
  | .guardCtrl => s.writeGuardCtrl n hit
  | .spikeParam => s.writeSpikeParam n
  | .pwrCtrl => s.writePwrCtrl n
  | .paceCtrl => s.modPwr (fun p => { p with paceEn := bit n 0 })
  | .therm => s.writeTherm n hit
  | .clusterCtrl c => s.writeClusterCtrl c n
  | .share c => s.modPurse c (fun u => { u with share := fld n 0 32 })
  | .seqPc c => s.debugWrite c (fun q => { q with pc := fld n 0 18 })
  | .greg c g => s.debugWrite c (fun q => { q with g := tset q.g 0 g (BitVec.ofNat 64 n) })
  | .hazCtrl c => s.writeHazMode c n
  | .hazReport c => if w = 0 then s.clearReport c hit else s
  | .coinCtrl c => s.modCluster c (fun k => { k with coinTimeout := keepIf (fld n 0 16 != 0) (fld n 0 16) k.coinTimeout })
  | .imem c a => s.debugWrite c (fun q => { q with imem := cellsPut q.imem a (leBytes 8 n) })
  | .dmem c a => s.debugWrite c (fun q => { q with dmem := cellsPut q.dmem a (leBytes 8 n) })
  | .ddrCtrl => s.writeDdrCtrl n
  | .ddrLock => { s with dram := { s.dram with lock := s.dram.lock || bit hit 0 } }
  | .errStatus => s.writeErrStatus hit
  | .errCtrl => s.writeErrCtrl n hit
  | .injCtrl => s.writeInjCtrl (n - (if bit n 34 then 2 ^ 34 else 0) + (if bit hit 34 then 2 ^ 34 else 0))
  | .injAddr => s.writeInjAddr (BitVec.ofNat 64 n)
  | .secPolicy => s.writePolicy n hit
  | .ownerKey k => if s.sec.lock then s else s.modSec (fun x => { x with ownerKey := tset x.ownerKey 0 k (BitVec.ofNat 64 n) })
  | _ => s

/-- A write of the low n bytes of v at an offset of BAR0 (R12, R432, R482, R596). -/
def State.writeReg (s : State) (off n v : Nat) : State :=
  if ¬ accessOk off n then s
  else
    let lo := 8 * (off % 8)
    match regAt (off - off % 8) with
    | none => s
    | some (r, w) =>
      if s.regAsleep r then s.crosses r.domain off 0
      else s.writeWord r w (putf (fld (s.regImage r) (64 * w) 64) lo (8 * n) v) (v % 2 ^ (8 * n) * 2 ^ lo)

/-! ### The sequencer's map (R160, R161) -/

/-- CORE_STATUS (R161). -/
def State.coreStatus (s : State) (p : Nat) : Nat :=
  let k := s.core p
  pack [(0, 2, (s.execWord (coreName p)).code), (2, 1, bnum k.pending.isSome), (3, 1, bnum (s.arrayPresent p)), (8, 8, k.lastStatus.code), (16, 16, k.layers)]

/-- The flag word of R130. -/
def Flags.word (f : Flags) : Nat := bnum f.inv + bnum f.dz 1 + bnum f.ovf 2 + bnum f.unf 3 + bnum f.sat 4

/-- A loss accumulator's 32 bytes (R147). -/
def LossAcc.image (a : LossAcc) : Nat :=
  pack [(0, 128, (a.sum % 2 ^ 128).toNat), (128, 32, a.tokens), (160, 1, bnum a.nonfinite), (161, 1, bnum a.saturated), (162, 1, bnum a.poisoned)]

/-- The 8-byte word at offset o of the window of the core at position pos of cluster c (R130, R161). -/
def State.coreWindow (s : State) (c pos o : Nat) : Nat :=
  let p := c * 12 + pos
  let k := s.core p
  if o < 0x200 then leAt k.lcb o 8
  else if o = 0x208 then s.coreStatus p
  else if o = 0x210 then k.teFlags.word + k.layerFlags.word * 2 ^ 32
  else if o = 0x218 then (s.readEmptyRows p).1
  else 0

/-- The 8-byte word at an offset of the sequencer's coin windows (R411, R412). -/
def State.coinWindow (s : State) (c o : Nat) : Nat :=
  let v := (s.cluster c).coin
  if o < 0x10000 then
    let r := tget v.takenOr {} (o / 0x100)
    let x := s.queue c (o / 0x100)
    match o % 0x100 with
    | 0x28 => r.all.toNat + r.status.code * 2 ^ 32
    | 0x30 => (x.coins.headD 0).toNat + x.coins.length * 2 ^ 32 + x.waiters.length * 2 ^ 40
    | _ => 0
  else match o - 0x10000 with
    | 0x00 => v.target.toNat
    | 0x08 => v.coin.toNat
    | 0x18 => v.remote.word
    | 0x20 => v.remote.last.toNat + v.remote.all.toNat * 2 ^ 32
    | _ => 0

/-- A word of the purse interface (R474). -/
def State.purseWord (s : State) (c o : Nat) : Nat :=
  let u := (s.cluster c).purse
  match o with
  | 0x00 => u.balance % 2 ^ 48
  | 0x08 => u.due % 2 ^ 48
  | 0x10 => u.rate % 2 ^ 32
  | 0x18 => u.depth % 2 ^ 32
  | 0x20 => pack [(0, 1, bnum u.reduced), (1, 1, bnum u.waitFrom.isSome), (2, 11, s.pwr.qUsed), (16, 16, u.rowThree)]
  | 0x28 => (u.waitNs + (match u.waitFrom with | some t => s.aoNs - t | none => 0)) % 2 ^ 64
  | _ => 0

/-- The 8-byte word at a sequencer address that is a multiple of 8 and that no wait belongs to; none outside the map (R160). -/
def State.seqWord (s : State) (c a : Nat) : Option Nat :=
  let k := s.cluster c
  let q := k.seq
  if a < 0x80000 then some (leNat ((List.range 8).map (fun i => tget q.dmem 0 (a + i))))
  else if a < 0x80040 then some (match q.cmd with | some d => d.at (a - 0x80000) 8 | none => 0)
  else if a = 0x80040 then some q.step.toNat
  else if a = 0x80048 then some (pack [(0, 3, c), (8, 4, s.clusterArrays c), (12, 4, 12 - s.clusterArrays c)])
  else if 0x100000 ≤ a ∧ a < 0x10C000 then some (s.coreWindow c ((a - 0x100000) / 0x1000) (a % 0x1000))
  else if 0x110000 ≤ a ∧ a < 0x113000 then some 0
  else if a = 0x120000 then
    some (whichBits 12 (fun i => bit q.layerMask i && (s.core (c * 12 + i)).lastStatus != .ok))
  else if 0x200000 ≤ a ∧ a < 0x202000 then some (tget s.hwm 0 ((a - 0x200000) / 8))
  else if 0x210000 ≤ a ∧ a < 0x210018 then some (s.regImage (.arrays ((a - 0x210000) / 8)))
  else if a = 0x210018 then some (s.regImage .clusterArrays)
  else if 0x300000 ≤ a ∧ a < 0x301000 then some (fld (tget k.shadow 0 ((a - 0x300000) / 16)) (8 * (a % 16)) 64)
  else if a = 0x301000 then some (bnum q.commitDone + q.commitStatus.code * 2 ^ 8)
  else if 0x302000 ≤ a ∧ a < 0x304000 then some (fld (tget k.loss {} ((a - 0x302000) / 32)).image (8 * (a % 32)) 64)
  else if 0x304000 ≤ a ∧ a < 0x304020 then
    some (match a - 0x304000 with
      | 0 => (match q.lossSlot with | some i => i + 2 ^ 63 | none => 0)
      | 8 => q.lossF32.toNat | 16 => q.lossTokens | _ => q.lossBits)
  else if 0x400000 ≤ a ∧ a < 0x420000 then some (s.coinWindow c (a - 0x400000))
  else if 0x500000 ≤ a ∧ a < 0x500100 then some (s.purseWord c (a - 0x500000))
  else if a = 0x600000 then some s.now
  else if 0x600010 ≤ a ∧ a < 0x600030 then some (tget q.timers 0 ((a - 0x600010) / 8)).toNat
  else if 0x700000 ≤ a ∧ a < 0x700028 then some 0
  else if 0x800000 ≤ a ∧ a < 0x800040 then
    some (match a - 0x800000 with
      | 0 => k.haz.mode | 8 => k.haz.stale | 16 => k.haz.collide | 24 => k.haz.cross
      | 32 => fld (leNat k.haz.report.bytes) 0 64
      | 40 => fld (tget s.latches 0 (0x800220 + c * 0x100000)) 64 64
      | _ => 0)
  else none

/-- What a sequencer's load of n bytes clears or latches: the hazard counters, the hazard report and the empty-row count. A field that is
not read is not cleared (R10, R130, R182, R597, R603). -/
def State.seqClear (s : State) (c a n : Nat) : State :=
  let word := a - a % 8
  let on (i : Nat) : Bool := decide (8 * (a % 8) ≤ i ∧ i < 8 * (a % 8) + 8 * n)
  if word = 0x800008 then s.clearRc (.haz c 1) on
  else if word = 0x800010 then s.clearRc (.haz c 2) on
  else if word = 0x800018 then s.clearRc (.haz c 3) on
  else if word = 0x800020 then { s with latches := tset s.latches 0 (0x800220 + c * 0x100000) (leNat (s.cluster c).haz.report.bytes) }
  else if 0x100000 ≤ a ∧ a < 0x10C000 ∧ word % 0x1000 = 0x218 ∧ on 0 then (s.readEmptyRows (c * 12 + (a - 0x100000) / 0x1000)).2
  else s

/-- A load of a configuration word before a store to it has retired is a stale read (R178, R181). -/
def State.seqStale (s : State) (c a : Nat) : State :=
  if 0x100000 ≤ a ∧ a < 0x10C000 ∧ a % 0x1000 < 0x200 then
    let p := c * 12 + (a - 0x100000) / 0x1000
    let word := a % 0x1000 / 8
    let now := (s.cluster c).seq.cycles
    ((s.cluster c).seq.cfg.filter (fun w => w.core == p && w.word == word)).foldl
      (fun s w => s.hazard c 1 p (0x40 + word) (now - w.issue) 6 0) s
  else s

/-- Whether a load at a is a TAKE or a TAKE_N, which are commands of their own (R411). -/
def takesCoin (a : Nat) : Bool := decide (0x400000 ≤ a ∧ a < 0x410000) && (a % 0x100 == 0x10 || a % 0x100 == 0x20)

/-- A load of n bytes into general register g. A load of the remote window's RESULT waits while its operation is outstanding, and one of
a poisoned word of DMEM halts the sequencer (R156, R159, R160, R213, R412). -/
def State.seqLoad (s : State) (c g a n : Nat) : State :=
  if takesCoin (a - a % 8) then s
  else if a - a % 8 = 0x410018 ∧ (s.cluster c).coin.outstanding then s.modSeq c (fun q => { q with st := .waiting, waitOn := .coin })
  else match (if n = 0 ∨ 8 < n ∨ a % n ≠ 0 then none else s.seqWord c (a - a % 8)) with
  | some x =>
    if a < 0x80000 ∧ (s.cluster c).seq.dmemBad.contains (a / 64) then s.seqMemLost c else
    let v := fld x (8 * (a % 8)) (8 * n)
    let s := s.modSeq c (fun q => { q with g := tset q.g 0 (g % 32) (BitVec.ofNat 64 v) })
    (s.seqClear c a n).seqStale c a
  | none => s.haltSeq c .malformed 3

/-- A store of n bytes to DMEM, a timer's compare value, the remote window or the hazard monitor. Stores with effects of their own
are commands of their own; a store to a word that is only read is ignored, and one outside the map faults (R159, R160, R412).
DESIGN CHOICE, log entry 82. -/
def State.seqStore (s : State) (c a n v : Nat) : State :=
  if n = 0 ∨ 8 < n ∨ a % n ≠ 0 then s.haltSeq c .malformed 3
  else if a < 0x80000 then s.modSeq c (fun q => { q with dmem := cellsPut q.dmem a (leBytes n v) })
  else match s.seqWord c (a - a % 8) with
    | none => s.haltSeq c .malformed 3
    | some x =>
      let w := putf x (8 * (a % 8)) (8 * n) v
      let b := a - a % 8
      if 0x600010 ≤ b ∧ b < 0x600030 then s.modSeq c (fun q => { q with timers := tset q.timers 0 ((b - 0x600010) / 8) (BitVec.ofNat 64 w) })
      else if b = 0x410000 then s.modCluster c (fun k => { k with coin := { k.coin with target := BitVec.ofNat 64 w } })
      else if b = 0x410008 then s.modCluster c (fun k => { k with coin := { k.coin with coin := BitVec.ofNat 64 w } })
      else if b = 0x800000 then s.writeHazMode c w
      else if b = 0x800020 then s.clearReport c (v % 2 ^ (8 * n) * 2 ^ (8 * (a % 8)))
      else s

/-! ### REGISTER_WRITE and REGISTER_READ -/

/-- REGISTER_WRITE: the host writes n bytes of BAR0, or a sequencer stores n bytes in its map (R12, R13, R160, R596, R601).
DEDUCED, log entry 27. -/
def execRegisterWrite (by' : Accessor) (a n v : Nat) (s : State) : Result :=
  match by' with
  | .host => .next (s.writeReg a n v)
  | .seq c t _ => .next (s.onSeq c t (fun s => s.seqStore c a n v))

/-- Whether the slot of BAR0 at offset a is a readable word of IMEM or DMEM that holds poisoned data, which the read carries onward
(R213, R428). -/
def State.regPoison (s : State) (a : Nat) : Bool :=
  match regAt (a - a % 8) with
  | some (.imem c o, _) => s.debugOpen c && (s.cluster c).seq.imemBad.contains (o / 64)
  | some (.dmem c o, _) => s.debugOpen c && (s.cluster c).seq.dmemBad.contains (o / 64)
  | _ => false

/-- REGISTER_READ: the host reads n bytes of BAR0, or a sequencer loads n bytes of its map into a general register
(R160, R482, R597, R600, R603). A read that meets a stopped clock waits for its CDC_TIMEOUT. DEDUCED, log entry 27. -/
def execRegisterRead (by' : Accessor) (a n : Nat) (s : State) : Result :=
  match by' with
  | .host =>
    match s.stoppedAt a n with
    | some c => .next (s.crosses c a n)
    | none => let x := s.readReg a n; .next (x.2.emit (.readData x.1 (s.regPoison a)))
  | .seq c t g => .next (s.onSeq c t (fun s => s.seqLoad c g a n))

end Sys2Proof.Machine
end

