-- ==== Sys2Proof/Machine/StmtOps.lean ====
section
/-!
DEFINITION. Statements (R528 to R532): what a statement holds, how it is taken, and where it goes.
-/
set_option autoImplicit false
namespace Sys2Proof.Machine

/-- Fields in a row, each a number of bytes and its value (R7). -/
def fields (l : List (Nat × Nat)) : List Byte := l.flatMap (fun x => leBytes x.1 x.2)
/-- A counter of n bytes that stops at its maximum (R528). -/
def upTo (n x : Nat) : Nat × Nat := (n, min x (256 ^ n - 1))
/-- A smallest value of the span, which is kept plus 1; 0xFFFF where none was seen (R532). -/
def least (x : Nat) : Nat × Nat := (2, if x = 0 then 0xFFFF else min (x - 1) 0xFFFF)
/-- A span counter. -/
def State.spanOf (s : State) (key : Nat) : Nat := tget s.tel.span 0 key

/-- Device state of R466: 0 ACTIVE, 1 IDLE, 2 DEEP_IDLE. -/
def State.deviceState (s : State) : Nat := if s.pwr.deepIdle then 2 else if s.commandRuns then 0 else 1

/-- Whether rail r gave no reading in the span (R532, R586). DESIGN CHOICE, log entry 49. -/
def State.railSilent (s : State) (r : Nat) : Bool := s.spanOf (ctRail r 1) == 0
/-- Whether sensor k has no reading. -/
def State.tempMissing (s : State) (k : Nat) : Bool := (s.tel.temps.find? (fun x => x.1 == k)).isNone
/-- A lane's eye fields are unavailable in electrical idle, or while its port is not in LINK_UP (R532). -/
def State.laneDark (s : State) (p l : Nat) : Bool := (s.port p).link.st != .up || !(s.port p).link.carries l
/-- Whether a channel is in the interleave and so reports a module. -/
def State.dimmDark (s : State) (n : Nat) : Bool := (s.channel n).st == 0

/-- The header (R531). DEDUCED, log entry 47. -/
def State.stmtHeader (s : State) (onReq part : Bool) : List Byte :=
  padTo 64 (fields [(2, 0x5354), (1, 1), (1, bnum (s.time.tstate != 2) 1 + bnum onReq 2 + bnum part 3), (4, s.mgmt.periodUs),
    (8, s.mgmt.stmtSeq), (8, s.now), (8, s.now - s.mgmt.lastTaken), (4, s.posWord), (4, s.rtr.slice.id), (8, s.settle.setStep),
    (2, s.err.nextSeq), upTo 2 (s.spanOf (ctDev 8)), (4, s.mgmt.skipped)])

/-- A temperature in 1/16 °C (R530, R532). -/
def State.stmtTemp (s : State) (k : Nat) : List Byte :=
  leBytes 2 (if s.tempMissing k then 0x8000 else ((tget s.tel.temps 0 k) % 65536).toNat)

/-- A rail's entry (R531). DESIGN CHOICE, log entry 48. -/
def State.stmtRail (s : State) (r : Nat) : List Byte :=
  let n := s.spanOf (ctRail r 1)
  let silent := bnum (decide (10 ≤ tget s.rails.silent 0 r) || s.spanOf (ctRail r 5) != 0) 2
  let fl := bnum (s.spanOf (ctRail r 4) != 0) 1 + silent
  if n = 0 then fields [(2, 0xFFFF), (2, 0xFFFF), (2, 0xFFFF), (2, 1 + fl)]
  else fields [upTo 2 (s.spanOf (ctRail r 0) / n), least (s.spanOf (ctRail r 2)), upTo 2 (s.spanOf (ctRail r 3) / n), (2, fl)]

/-- A cluster's entry; a sleeping cluster's values are its AO shadows, and its span counters are 0 (R28, R488, R528, R531).
DESIGN CHOICE, log entry 48. -/
def State.stmtCluster (s : State) (c : Nat) : List Byte :=
  let k := s.cluster c
  let at' (i : Nat) : Nat := if k.clock.cstate = 0 then s.spanOf (ctClu c i) else 0
  let margin := tget s.tel.span 0 (ctClu c 10)
  let wait := at' 1 + (match k.purse.waitFrom with | some t => s.aoNs - max t s.mgmt.takenAo | none => 0)
  fields [(1, k.clock.image s.pwr.brakeDiv % 32), (1, 0), (2, k.clock.volt2 / 2), if margin = 0 then (2, k.clock.marginPs) else least margin,
    upTo 2 (at' 0), (8, k.purse.balance), (8, k.purse.due), (4, k.purse.rate), upTo 4 (wait / 1000), upTo 8 (at' 2), upTo 8 (at' 3),
    upTo 4 (at' 4 / 1024), upTo 4 (at' 5 / 1024), upTo 2 (at' 6), upTo 2 (at' 7), upTo 2 (at' 8), upTo 2 (at' 9)]

/-- The device section (R531). -/
def State.stmtDevice (s : State) : List Byte :=
  let n := s.spanOf (ctDev 1)
  padTo 64 (fields [(8, s.pwr.limitImage), (16, Power.paceImage { s.pwr with missed := min (s.spanOf (ctDev 4)) 0xFFFF }),
    upTo 4 (if n = 0 then s.tel.prevMw else s.spanOf (ctDev 0) / n), upTo 4 (s.spanOf (ctDev 2)), (1, s.pwr.tmax), (1, s.pwr.tmaxSensor),
    (1, s.deviceState), (1, 0), upTo 4 (s.spanOf (ctDev 3)), (8, s.errStatus)])

/-- A lane's entry (R532). -/
def State.stmtLane (s : State) (p l : Nat) : List Byte :=
  let k := (s.port p).link
  let x := tget (s.port p).rep.lanes {} l
  let dark := s.laneDark p l
  let eye (i : Nat) : Nat × Nat := if dark then (2, 0xFFFF) else least (s.spanOf (ctLane p l i))
  let missing := dark || s.spanOf (ctLane p l 2) == 0
  let fl := bnum (k.st == .up && k.carries l) + bnum (l == 16) 1 + bnum (k.spareRx && k.sparedLane == l && l != 16) 2 +
    bnum x.marginLogged 3 + bnum missing 4
  fields [eye 2, eye 3, (4, x.ser.toNat), upTo 4 (s.spanOf (ctLane p l 0)), upTo 2 (s.spanOf (ctLane p l 1)), (2, fl)]

/-- A port's entry (R532). -/
def State.stmtPort (s : State) (p : Nat) : List Byte :=
  let o := s.port p
  padTo 16 (fields [(1, o.link.st.code), (1, o.link.mode), (1, o.disc.st.code), (1, o.disc.cause), upTo 2 (s.spanOf (ctPort p 0)),
    upTo 2 (s.spanOf (ctPort p 1)), upTo 2 (s.spanOf (ctPort p 2)), upTo 2 (s.spanOf (ctPort p 3)), (2, s.delayOf p)])

/-- A DIMM's entry (R532). DESIGN CHOICE, log entry 48. -/
def State.stmtDimm (s : State) (n : Nat) : List Byte :=
  let k := s.channel n
  fields ((List.range 4).map (fun i => if s.dimmDark n then (2, 0xFFFF) else least (s.spanOf (ctDimm n i))) ++
    [upTo 4 (s.spanOf (ctDimm n 4)), upTo 2 (s.spanOf (ctDimm n 5)), (1, min k.pprLeft 0xFF), (1, k.st)])

/-- The guard section (R532). -/
def State.stmtGuards (s : State) : List Byte :=
  let sum (f : GroupGuard → Nat) : Nat := s.validGroups.foldl (fun a g => a + f (tget s.settle.guards {} g)) 0
  padTo 128 (fields [(16, s.settle.countsImage), (16, s.settle.spikeImage), (32, (tget s.dec.hist {} ((s.dec.histNext + 63) % 64)).image),
    (8, sum (·.nfElems)), (8, sum (·.flushLand)), (8, sum (·.flushSettle)), (8, sum (·.flushWc)), (4, s.setStatus)])

/-- The error section (R532). -/
def State.stmtErrors (s : State) : List Byte :=
  let used := ((List.range 96).filter (fun p => (s.core p).vault.spared.isSome)).length + ((List.range 8).filter (fun c => (s.cluster c).vault.spared.isSome)).length
  let waits := (List.range 24).foldl (fun a n => a + (s.channel n).pprList.length) 0
  padTo 64 (fields [(4, whichBits 24 (fun n => (s.channel n).st == 2)), (2, used), upTo 2 waits, (4, s.dram.pprApplied),
    upTo 4 (s.spanOf (ctDev 5)), upTo 4 (s.spanOf (ctDev 6)), upTo 4 (s.spanOf (ctDev 7))])

/-- Whether any field of a statement is unavailable. Rails 18 to 31 always are (R531, R532, R586). DESIGN CHOICE, log entry 48. -/
def State.partStmt (s : State) : Bool :=
  (List.range 32).any s.railSilent || (List.range 64).any s.tempMissing ||
  (List.range 8).any (fun p => (List.range 17).any (fun l => s.laneDark p l || s.spanOf (ctLane p l 2) == 0))

/-- The 4,096 bytes of a statement, with PHASE 0 (R530). -/
def State.stmtBytes (s : State) (onReq : Bool) : List Byte :=
  padTo 4096 (s.stmtHeader onReq s.partStmt ++ (List.range 64).flatMap s.stmtTemp ++ (List.range 32).flatMap s.stmtRail ++
    (List.range 8).flatMap s.stmtCluster ++ s.stmtDevice ++ (List.range 8).flatMap (fun p => (List.range 17).flatMap (s.stmtLane p)) ++
    (List.range 8).flatMap s.stmtPort ++ (List.range 24).flatMap s.stmtDimm ++ s.stmtGuards ++ s.stmtErrors)

/-- The statement goes to the statement ring, or is dropped there when the ring is full (R437, R449, R450, R529). -/
def State.stmtRing (s : State) (b : List Byte) : State :=
  let r := s.host.stm
  if r.st == .running then
    if r.full then s.modHost (fun h => { h with stm := { r with dropped := satAdd 0xFFFF r.dropped 1 } })
    else
      let s := s.emit (.hostWrite (r.slot 4096) (b.take 3 ++ leBytes 1 (leAt b 3 1 + bnum r.phase) ++ b.drop 4) false)
      (s.modHost (fun h => { h with stm := r.wrote })).signal r.vector false
  else s

/-- A new PERIOD applies from the statement after the next one (R528). -/
def Mgmt.stepPeriod (m : Mgmt) : Mgmt :=
  match m.nextPeriod with
  | some p => { m with periodUs := p, nextPeriod := none }
  | none => m

/-- A statement is taken (R528, R529). SEQ counts it. DEDUCED, log entry 47. DESIGN CHOICE, log entry 48. -/
def State.takeStmt (s : State) (onReq : Bool) : State :=
  let s := s.modMgmt (fun m => { m with stmtSeq := m.stmtSeq + 1 })
  let b := s.stmtBytes onReq
  let s := s.stmtRing b
  let s := s.modMgmt (fun m => Mgmt.stepPeriod { m with lastStmt := b, lastTaken := s.now, takenAo := s.aoNs, skipped := 0 })
  { s with tel := { s.tel with span := [] } }

/-- A statement asked for at once; while the controller restarts it is only counted (R515, R528). DESIGN CHOICE, log entry 48. -/
def State.stmtNow (s : State) : State :=
  if s.mgmt.bucelDown then s.modMgmt (fun m => { m with skipped := min (m.skipped + 1) 0xFFFFFFFF }) else s.takeStmt true

end Sys2Proof.Machine
end

