-- ==== Sys2Proof/Machine/Jobs.lean ====
section
/-!
DEFINITION. The descriptors that load and unload a job, set the slice, run commands, pre-empt and resume them, order and
reconcile, and ask for statements (R171 to R174, R355, R441 to R447, R451 to R457, R528). A meaning acts on a descriptor that has
been dispatched and has not completed; on any other it has no effect.
-/
set_option autoImplicit false
namespace Sys2Proof.Machine

/-- Whether a descriptor of an opcode has been dispatched and has not completed (R441). -/
def State.holds (s : State) (d : Desc) (op : Nat) : Bool := s.host.inflight.contains d && d.opcode == op

/-! ### JOB_LOAD and JOB_UNLOAD (R174, R446, R454, R551, R552, R560) -/

/-- Whether CONTEXT_ADDR names no region, or one that lies wholly in populated DRAM (R454). -/
def State.contextOk (s : State) (a : Nat) : Bool := a == 0 || (a % 4096 == 0 && decide (a + 469762048 ≤ s.dram.top))

/-- JOB_LOAD of an image: its bytes and, where it lies in local DRAM, its address (R27, R174, R443, R454). -/
def State.jobLoad (s : State) (d : Desc) (img : List Byte) (src : Option Nat) : State :=
  if s.job.loaded ∨ s.commandRuns ∨ s.sec.debugEnd.isSome then s.complete d .denied
  else if d.at 8 8 % 64 ≠ 0 ∨ ¬ s.contextOk (d.at 0x18 8) then s.complete d .malformed
  else match s.imgCheck img with
    | some (row, index, st) =>
      let s := if row = 5 ∧ (s.imgRefused img).2 then s.log .egiSignatureRejected (srcBlock 5) [] else s
      s.complete d st 0 (detailOf row index)
    | none =>
      if s.imgMismatch img || src.any (fun a => s.dramMismatch a img.length) then s.complete d .stateMismatch
      else (s.loadImage d img src).complete d .ok (imgLoaded img)

/-- JOB_LOAD: the image's bytes are an input where it lies in host memory (R443). -/
def execJobLoad (d : Desc) (image : List Byte) (ecc : List (Nat × EccResult)) (s : State) : Result :=
  if s.holds d 1 then
    let s := s.eccAll ecc
    let n := d.at 0x10 8
    if bit (d.at 0x24 1) 0 then
      (if s.inDramOrClusterVault (d.at 8 8) n then .next (s.jobLoad d (s.readMem (d.at 8 8) n) (some (d.at 8 8)))
       else .next (if s.job.loaded ∨ s.commandRuns ∨ s.sec.debugEnd.isSome then s.complete d .denied else s.complete d .malformed))
    else .next (s.jobLoad d (image.take n) none)
  else .next s

/-- JOB_UNLOAD: the job is cleared, and what SCRUB and SEC_POLICY.MIN_SCRUB name is overwritten (R446, R552, R553). DESIGN CHOICE, log entry 82. -/
def execJobUnload (d : Desc) (s : State) : Result :=
  if s.holds d 2 then
    let scrub := fld (d.at 8 1) 0 2
    if s.commandRuns then .next (s.complete d .denied)
    else if scrub = 3 then .next (s.complete d .malformed)
    else
      let level := max scrub s.sec.minScrub
      .next (((s.clearJob.scrub level).extendSlot 10 (leBytes 1 level)).complete d .ok)
  else .next s

/-! ### SLICE_SET (R355, R356, R472) -/

/-- Coordinate of four bytes in the order w, x, y, z (R443). -/
def bytesCoord (d : Desc) (off : Nat) : Coord := { w := d.at off 1, x := d.at (off + 1) 1, y := d.at (off + 2) 1, z := d.at (off + 3) 1 }

/-- The row of R355 that decides a SLICE_SET. -/
def State.sliceRow (s : State) (o e : Coord) : Nat :=
  let axes := List.range 4
  if s.commandRuns then 1
  else if ¬ s.placed then 2
  else if axes.all (fun a => e.axis a == 0) then 3
  else if axes.any (fun a => e.axis a == 0 || decide (s.len a < e.axis a) || decide (s.len a ≤ o.axis a)) then 4
  else if axes.any (fun a => decide (s.len a < o.axis a + e.axis a) && !s.wraps a) then 5
  else if axes.any (fun a => decide (e.axis a ≤ (s.here.axis a + s.len a - o.axis a) % s.len a)) then 6
  else 7

/-- What one slice leaves behind is forgotten: held statements, point barriers and pacing statements, and q_slice (R472).
DESIGN CHOICE, log entry 62. -/
def State.forgetSlice (s : State) : State :=
  let s := (s.modDec (fun d => { d with children := [] })).modCol (fun c => { c with points := [] })
  s.modPwr (fun p => { p with qHeld := false, paceKids := [], paceOwn := none, roundOpen := false })

/-- The slice is in force; it is DEGRADED from the start where a slice link is not ACTIVE (R355, R356). -/
def State.sliceInForce (s : State) (id : Nat) (o e : Coord) : State :=
  let s := s.forgetSlice.modSlice (fun x => { st := 1, id := id, origin := o, extent := e, resetNo := x.resetNo })
  let bad := s.sliceLinks.filter (fun n => !s.active n)
  if bad = [] then s
  else s.modSlice (fun x => { x with st := 2, axes := whichBits 4 (fun a => bad.any (fun n => portAxis n == a)) })

/-- SLICE_SET (R355). -/
def execSliceSet (d : Desc) (s : State) : Result :=
  if s.holds d 3 then
    let o := bytesCoord d 0x0C
    let e := bytesCoord d 0x10
    match s.sliceRow o e with
    | 1 => .next (s.complete d .denied 0 1)
    | 2 => .next (s.complete d .denied 0 2)
    | 3 => .next ((s.forgetSlice.modSlice (fun x => { resetNo := x.resetNo })).complete d .ok)
    | 7 => .next ((s.sliceInForce (d.at 8 4) o e).complete d .ok)
    | k => .next (s.complete d .malformed 0 k)
  else .next s

/-! ### RUN_STEP and RUN_LAYERS (R165, R451, R452) -/

/-- Command x, as descriptor d submitted it, completes: its status, RESULT, guard word and deciding cluster (R451, R452).
DESIGN CHOICE, log entry 43. DESIGN CHOICE, log entry 65. -/
def State.finishRun (s : State) (d x : Desc) (detail : Nat) : State :=
  let step := x.opcode == 4
  let st := s.cmdStatus x step
  let word := s.cmdResult x
  let guard := if step then s.guardWord else 0
  (s.cmdGone x).complete d st.1 word detail guard st.2

/-- Whether a RUN_STEP still waits: for a RUN_STEP before it, and for the settlement decision and the end of the walk (R239, R246, R451).
DESIGN CHOICE, log entry 65. -/
def State.stepOpen (s : State) (x : Desc) : Bool :=
  s.olderStep x || ((s.clustersStatus x).1 = .ok && s.dec.status.isNone) || s.settle.phase == .deciding || s.settle.phase == .pass

/-- A RUN_STEP that a cluster failed forms no contribution: its engines clear their presence bits (R395, R451). DESIGN CHOICE, log entry 65. -/
def State.stepFails (s : State) (x : Desc) : State :=
  if (s.clustersStatus x).1 ≠ .ok ∧ s.settle.phase = .landing then s.failWalk else s

/-- The end of a running command, once its clusters, and for a RUN_STEP the settlement, have ended (R165, R451). -/
def State.runEnds (s : State) (d x : Desc) (detail : Nat) : State :=
  if ¬ s.cmdEnded x ∨ (x.opcode = 4 ∧ s.stepOpen x) then s
  else if x.opcode = 4 then (s.stepFails x).finishRun d x detail else s.finishRun d x detail

/-- RUN_STEP: the command completes (R451). -/
def execRunStep (d : Desc) (s : State) : Result := if s.holds d 4 then .next (s.runEnds d d 0) else .next s

/-- RUN_LAYERS: the command completes (R165). -/
def execRunLayers (d : Desc) (s : State) : Result := if s.holds d 5 then .next (s.runEnds d d 0) else .next s

/-! ### FENCE, PREEMPT and RESUME (R441, R456, R457) -/

/-- FENCE: dispatched once what it waits for has completed, it completes (R441). -/
def execFence (d : Desc) (s : State) : Result := if s.holds d 9 then .next (s.complete d .ok) else .next s

/-- PREEMPT: at once where the state is saved already; else it waits for its effect (R456). -/
def execPreempt (d : Desc) (s : State) : Result :=
  if s.holds d 0x0A then
    if s.saved.isSome then .next (s.complete d .ok)
    else
      let s := s.modHost (fun h => { h with inflight := h.inflight.erase d })
      let s : State := { s with preempts := s.preempts ++ [d] }
      .next (if bit (d.at 8 1) 0 = false ∧ s.hasSlice then { s with preempt := true } else s)
  else .next s

/-- PREEMPT_TAKE_EFFECT: a pending pre-emption takes effect at its point or layer boundary (R456). -/
def execPreemptTakeEffect (ecc : List (Nat × EccResult)) (s : State) : Result :=
  if s.preemptDue then .next (s.eccAll ecc).takePreempt else .next s

/-- Whether RESUME may restore the saved context x (R457). -/
def State.mayResume (s : State) (x : SavedContext) : Bool :=
  s.job.loaded && x.job == s.job && !s.commandRuns && x.slice.id == s.rtr.slice.id && x.slice.origin == s.rtr.slice.origin &&
  x.slice.extent == s.rtr.slice.extent && (x.slice.st == 0) == (s.rtr.slice.st == 0)

/-- The context is restored, and a pre-empted command stands at its point, whose barrier it runs first (R457). -/
def State.resume (s : State) (d : Desc) (x : SavedContext) : State :=
  let s := s.restoreJob x
  match x.cmd with
  | none => s.complete d .ok
  | some orig =>
    let s := (s.modHost (fun h => { h with resumed := some (d, orig) }))
    let s := (List.range 8).foldl (fun s c => if (s.cluster c).seq.active then s.wake c else s) s
    if x.point ≠ 0 ∧ s.hasSlice then s.reachPoint x.point else s

/-- Commands that stand on clusters beside x. -/
def State.otherCmds (s : State) (x : Desc) : List Desc :=
  ((List.range 8).filterMap (fun c => (s.cluster c).seq.cmd)).eraseDups.filter (· != x)

/-- The end of the command that a RESUME restarted, with the TAG of that command (R452, R457). -/
def State.resumeEnds (s : State) (d x : Desc) : State :=
  let others := s.otherCmds x
  if ¬ s.cmdEnded x ∨ ¬ others.all s.cmdEnded ∨ (x.opcode = 4 ∧ s.stepOpen x) then s
  else
    let s := (s.runEnds d x x.tag).modHost (fun h => { h with resumed := none })
    others.foldl (fun s y => s.cmdGone y) s

/-- RESUME (R457). -/
def execResume (d : Desc) (ecc : List (Nat × EccResult)) (s : State) : Result :=
  if s.holds d 0x0B then
    match s.host.resumed with
    | some (r, x) => if r = d then .next (s.resumeEnds d x) else .next (s.complete d .denied)
    | none =>
      (match s.saved with
       | some x => if s.mayResume x then .next ((s.eccAll ecc).resume d x) else .next (s.complete d .denied)
       | none => .next (s.complete d .denied))
  else .next s

/-! ### RECONCILE (R447, R526) -/

/-- The unit that a RECONCILE names, or why it completes at once; bits [15:11] of the name are reserved and ignored (R14, R445, R447). -/
def State.reconcileUnit (s : State) (d : Desc) : UnitName ⊕ Status :=
  match unitOf (d.at 8 2) with
  | none => .inr .malformed
  | some u => if s.permWord u = .absent then .inr .unitAbsent else .inl u

/-- RECONCILE ACCEPT (R447). DESIGN CHOICE, log entry 82. -/
def execReconcileAccept (d : Desc) (s : State) : Result :=
  if s.holds d 0x0C ∧ d.at 0x0A 2 = 0 then
    match s.reconcileUnit d with
    | .inr st => .next (s.complete d st)
    | .inl u =>
      if ¬ (s.unit u.code).mismatch then .next (s.complete d .ok)
      else if consistent (s.permWord u) (s.execWord u) then .next ((s.modUnit u.code (fun w => { w with mismatch := false })).complete d .ok)
      else .next (s.complete d .stateMismatch)
  else .next s

/-- RECONCILE FENCE: it completes once running work on the unit has ended (R200, R447). -/
def execReconcileFence (d : Desc) (s : State) : Result :=
  if s.holds d 0x0C ∧ d.at 0x0A 2 = 1 then
    match s.reconcileUnit d with
    | .inr st => .next (s.complete d st)
    | .inl u =>
      let w := (s.unit u.code).fencing
      if w ≠ none ∧ w ≠ some d then .next s
      else
        let s := s.modUnit u.code (fun x => { x with perm := .fenced, fencing := some d })
        .next ((if u.kind = .ddr then s.loseChannel u.index else s).fenceDone u)
  else .next s

/-- RECONCILE ENABLE (R447, R526). -/
def execReconcileEnable (d : Desc) (s : State) : Result :=
  if s.holds d 0x0C ∧ d.at 0x0A 2 = 2 then
    match s.reconcileUnit d with
    | .inr st => .next (s.complete d st)
    | .inl u =>
      if s.withheld u then .next (s.complete d .denied)
      else .next ((s.modUnit u.code (fun w => { w with perm := .enabled, mismatch := false })).complete d .ok)
  else .next s

/-! ### STATEMENT_REQ (R528) -/

/-- STATEMENT_REQ: NOW takes a statement at once; a new PERIOD applies from the statement after the next one (R443, R528).
DESIGN CHOICE, log entry 48. -/
def execStatementReq (d : Desc) (s : State) : Result :=
  if s.holds d 0x0E then
    let period := d.at 0x0C 4
    if period ≠ 0 ∧ (period < 1000 ∨ 1000000 < period) then .next (s.complete d .malformed)
    else
      let s := if ¬ bit (d.at 8 1) 0 then s else s.stmtNow
      let s := if period = 0 then s else s.modMgmt (fun m => { m with nextPeriod := some period })
      .next (s.complete d .ok)
  else .next s

end Sys2Proof.Machine
end

