-- ==== Sys2Proof/Machine/Copies.lean ====
section
/-!
DEFINITION. The descriptors that move data: DMA_COPY, SETTLE_CONFIG, COLLECTIVE_PLAN and QUERY with its proxy packets (R195, R228
to R232, R249, R252, R274, R381, R443 to R445, R452).
-/
set_option autoImplicit false
namespace Sys2Proof.Machine

/-! ### DMA_COPY (R195, R213, R252, R352, R359, R443, R444) -/

/-- The fields of a DMA_COPY (R443): spaces are 0 host, 1 local, 2 remote. -/
def dmaSrc (d : Desc) : Nat := d.at 0x08 8
def dmaDst (d : Desc) : Nat := d.at 0x10 8
def dmaLen (d : Desc) : Nat := d.at 0x18 8
def dmaFrom (d : Desc) : Nat := fld (d.at 0x20 1) 0 2
def dmaTo (d : Desc) : Nat := fld (d.at 0x20 1) 2 2
def dmaChannel (d : Desc) : Nat := if bit (d.at 0x21 1) 0 then 7 else 4
def dmaSeal (d : Desc) : Bool := bit (d.at 0x21 1) 1
def dmaSrcCoord (d : Desc) : Coord := Coord.ofNat (fld (d.at 0x24 4) 0 24)
def dmaDstCoord (d : Desc) : Coord := Coord.ofNat (fld (d.at 0x28 4) 0 24)
def dmaCoin (d : Desc) : Nat × Nat × Nat := (d.at 0x2C 4, d.at 0x30 1, fld (d.at 0x31 1) 0 3)

/-- Whether a local range may be copied from or to (R195). -/
def State.dmaLocal (s : State) (a n : Nat) : Bool := match regionOf s.dram.top a n with | .other => false | _ => true

/-- Whether source or destination lies in this device's own memory: local, or remote at its own coordinate (R221). -/
def State.dmaHereFrom (s : State) (d : Desc) : Bool := dmaFrom d == 1 || (dmaFrom d == 2 && dmaSrcCoord d == s.here)
def State.dmaHereTo (s : State) (d : Desc) : Bool := dmaTo d == 1 || (dmaTo d == 2 && dmaDstCoord d == s.here)

/-- Whether a DMA_COPY is malformed (R443, R444). DESIGN CHOICE, log entry 66. -/
def State.dmaBad (s : State) (d : Desc) : Bool :=
  let n := dmaLen d
  !([(0, 1), (1, 0), (1, 1), (0, 2), (1, 2), (2, 1)].contains (dmaFrom d, dmaTo d)) || decide (n < 64) || decide (2 ^ 40 < n) ||
  dmaSrc d % 64 != 0 || dmaDst d % 64 != 0 || (dmaSeal d && dmaTo d != 2) ||
  (dmaFrom d == 1 && !s.dmaLocal (dmaSrc d) n) || (dmaTo d == 1 && !s.dmaLocal (dmaDst d) n) ||
  (s.dmaHereFrom d && s.dmaHereTo d && overlaps (dmaSrc d) n (dmaDst d) n)

/-- The source's bytes, and its poison by 64-byte unit: an input where it is host memory. DESIGN CHOICE, log entry 67. -/
def State.dmaData (s : State) (d : Desc) (data : List Byte) (poison : List Nat) : List Byte × List Bool :=
  let n := dmaLen d
  if dmaFrom d = 0 then (padTo n data, (List.range ((n + 63) / 64)).map poison.contains)
  else (s.readMem (dmaSrc d) n, s.poisonList (dmaSrc d) n)

/-- Host writes of a copy, unit by unit, each poisoned where its data is (R213). -/
def State.dmaToHost (s : State) (d : Desc) (bs : List Byte) (ps : List Bool) : State :=
  let s := (List.range ((bs.length + 63) / 64)).foldl (fun s i =>
    s.emit (.hostWrite (dmaDst d + 64 * i) ((bs.drop (64 * i)).take 64) ((ps[i]?).getD false))) s
  if ps.any id then (s.hostPoison (dmaSrc d)).complete d .poisoned (bs.length % 2 ^ 32) else s.complete d .ok (bs.length % 2 ^ 32)

/-- The WRITE packets of a copy to another device, the seal on the last (R339, R417, R444). -/
def State.dmaPackets (s : State) (d : Desc) (bs : List Byte) (ps : List Bool) : List Packet :=
  let xs := readPieces bs.length
  xs.map (fun x =>
    let map := (List.range ((x.2 + 63) / 64)).filter (fun i => (ps[x.1 / 64 + i]?).getD false)
    { s.packet (dmaChannel d) 6 (dmaDstCoord d) (dmaDst d + x.1) ((bs.drop x.1).take x.2) with
      poison := map, sealExt := if dmaSeal d && x.1 + x.2 == bs.length then some (dmaCoin d) else none })

/-- The packets of a copy are injected until one is stopped: what became of them, and the bytes that left. -/
def State.dmaSend (s : State) : List Packet → Nat → Sent × Nat × State
  | [], n => (.sent, n, s)
  | p :: ps, n =>
    match s.inject p with
    | (.sent, s) => s.dmaSend ps (n + p.payload.length)
    | (x, s) => (x, n, s)

/-- A copy to another device; to the own coordinate it goes through the die fabric (R220, R221, R444). -/
def State.dmaToRemote (s : State) (d : Desc) (bs : List Byte) (ps : List Bool) : State :=
  let out := s.dmaPackets d bs ps
  if dmaDstCoord d = s.here then (out.foldl (fun s p => s.remoteWrite p) s).complete d .ok (bs.length % 2 ^ 32)
  else match s.dmaSend out 0 with
    | (.sent, n, s) => (s.modHost (fun h => { h with dmas := h.dmas ++ [{ desc := d, bytes := n, writes := true }] })).dmasDone
    | (x, n, s) => s.complete d x.status (n % 2 ^ 32)

/-- The READ_REQs of a copy from another device (R353, R444). -/
def State.dmaReads (s : State) (d : Desc) : List (Nat × Nat) → State
  | [] => s
  | x :: xs =>
    match s.sendRead (dmaSrcCoord d) (dmaSrc d + x.1)
      { handle := 0, bytes := x.2, deadline := 0, dest := 2, unit := d.num, addr := dmaDst d + x.1 } with
    | (.sent, s) => s.dmaReads d xs
    | (x, s) => s.dmaEnd { desc := d } x.status

/-- A copy from another device; from the own coordinate it goes through the die fabric (R220, R221, R444). -/
def State.dmaFromRemote (s : State) (d : Desc) : State :=
  let n := dmaLen d
  if dmaSrcCoord d = s.here then
    if s.servable (dmaSrc d) n then (s.copyMem (dmaSrc d) (dmaDst d) n).complete d .ok (n % 2 ^ 32)
    else (s.log .remoteAddrFault (srcBlock 0) [coordData s.here, (8, dmaSrc d)]).complete d .malformed
  else (s.modHost (fun h => { h with dmas := h.dmas ++ [{ desc := d }] })).dmaReads d (readPieces n)

/-- DMA_COPY: the bytes and the poisoned units of a host source are inputs, and so is what the ECC of a local source reports (R190, R207, R211, R213, R444). DESIGN CHOICE, log entry 67. -/
def execDmaCopy (d : Desc) (data : List Byte) (poison : List Nat) (ecc : List (Nat × EccResult)) (s : State) : Result :=
  if ¬ s.holds d 6 ∨ s.host.dmas.any (fun x => x.desc == d) then .next s
  else if s.dmaBad d then .next (s.complete d .malformed)
  else if (s.dmaHereFrom d ∧ s.dramMismatch (dmaSrc d) (dmaLen d)) ∨ (s.dmaHereTo d ∧ s.dramMismatch (dmaDst d) (dmaLen d)) then
    .next (s.complete d .stateMismatch)
  else if s.dmaHereTo d ∧ s.settle.phase ≠ .idle ∧ s.inSettleRegion (dmaDst d) (dmaLen d) then .next (s.complete d .denied)
  else
    let s := s.eccAll ecc
    if dmaFrom d = 2 then .next (s.dmaFromRemote d) else
    let (bs, ps) := s.dmaData d data poison
    if dmaTo d = 0 then .next (s.dmaToHost d bs ps)
    else if dmaTo d = 2 then .next (s.dmaToRemote d bs ps)
    else .next ((s.writeMem (dmaDst d) bs (poisonFrom (dmaDst d) ps)).complete d .ok (bs.length % 2 ^ 32))

/-! ### SETTLE_CONFIG (R228 to R232, R249, R274) -/

/-- Whether an F32 encoding is finite, and its value. -/
def finiteVal (x : W32) : Option Val := let v := (FV.of x).val; if v.isFinite then some v else none
/-- Whether an F32 encoding lies in [0, 1), or in [0, 1] when `closed`. -/
def inUnit (x : W32) (closed : Bool) : Bool :=
  match finiteVal x with
  | some v => (v.isZero || !v.isNeg) && (Val.lt v (.fin false 1 0) || (closed && Val.le v (.fin false 1 0)))
  | none => false

/-- Row 2 of R231: a reserved code. -/
def rowCodesBad (r : Row) : Bool :=
  rowBlk r == 0 || decide (4 < rowBlk r) || (List.range 3).any (fun k => rowSlot r k == 3) || !(rowWcFmt r == 1 || rowWcFmt r == 3 || rowWcFmt r == 4)
/-- Row 3: a coefficient out of range. -/
def rowCoefBad (r : Row) : Bool :=
  (List.range 18).any (fun i => (finiteVal (rw32 r (4 * i))).isNone) || !inUnit (rw32 r 0x40) false || !inUnit (rw32 r 0x44) false ||
  !inUnit (rw32 r 0x48) true || !inUnit (rw32 r 0x4C) true
/-- Row 5: an address or a region. -/
def State.rowAddrBad (s : State) (r : Row) : Bool :=
  rowRec r % rowSize r != 0 || ([rowG r, rowGs r, rowPres r, rowWc r] ++ (if rowWcScaled r then [rowWcs r] else [])).any (fun a => a % 64 != 0) ||
  rowCount r == 0 || (rowRegions r).any (fun x => regionOf s.dram.top x.1 x.2 != .dram)
/-- Row 7: a row that MODE 1 does not take. -/
def rowNotCompat (r : Row) : Bool := rowWcFmt r != 1 || (List.range 3).any (fun k => rowSlot r k == 2)

/-- SETTLE_CONFIG's fields (R443). -/
def cfgFirst (d : Desc) : Nat := d.at 0x0A 2
def cfgCount (d : Desc) : Nat := d.at 0x0C 4
def cfgGroups (d : Desc) : List Nat := (List.range (cfgCount d)).map (cfgFirst d + ·)

/-- Row 1 of R231: COUNT and the group numbers, with the group that DETAIL names. -/
def cfgRange (d : Desc) (one : Bool) : Option Nat :=
  let n := cfgCount d
  if n = 0 ∨ 4096 < n ∨ (one ∧ n ≠ 1) then some 0
  else if 4096 < cfgFirst d + n then some (max 4096 (cfgFirst d))
  else none

/-- The rows that a ROWS action loads, with their groups. -/
def cfgRows (d : Desc) (data : List Byte) : List (Nat × Row) := (cfgGroups d).zip ((List.range (cfgCount d)).map (fun i => (padTo (256 * cfgCount d) data).drop (256 * i) |>.take 256))

/-- Whether a region of group g overlaps another region of a valid group (row 6). -/
def overlapBad (valid : List (Nat × Row)) (x : Nat × Row) : Bool :=
  !disjoint (rowRegions x.2) ||
  valid.any (fun y => y.1 != x.1 && (rowRegions x.2).any (fun a => (rowRegions y.2).any (fun b => overlaps a.1 a.2 b.1 b.2)))

/-- The row of R231 that refuses a ROWS action, and the group concerned. DESIGN CHOICE, log entry 66. -/
def State.rowsCheck (s : State) (d : Desc) (data : List Byte) : Option (Nat × Nat) :=
  match cfgRange d false with
  | some g => some (1, g)
  | none =>
    let new := (cfgRows d data).filter (fun x => rowValid x.2)
    let valid := new ++ (s.settle.rows.filter (fun x => rowValid x.2 && !(cfgGroups d).contains x.1))
    let row (k : Nat) (bad : Nat × Row → Bool) : Option (Nat × Nat) := (new.find? bad).map (fun x => (k, x.1))
    (((((row 2 (fun x => rowCodesBad x.2)).or (row 3 (fun x => rowCoefBad x.2))).or (row 4 (fun x => !tscaleOk (leAt x.2 0x5C 4)))).or
      (row 5 (fun x => s.rowAddrBad x.2))).or (row 6 (overlapBad valid))).or (row 7 (fun x => s.settle.compat && rowNotCompat x.2))

/-- Whether a SETTLE_CONFIG of an action may execute now (R232). -/
def State.cfgNow (s : State) (d : Desc) (action : Nat) : Bool := s.holds d 7 && d.at 8 2 == action && s.settle.phase == .idle

/-- The bytes that SRC_ADDR holds: an input where they lie in host memory; none where the address is not readable (R443). DEDUCED, log entry 77. -/
def State.cfgData (s : State) (d : Desc) (n : Nat) (data : List Byte) : Option (List Byte) :=
  let a := d.at 0x10 8
  if a % 64 ≠ 0 then none
  else if ¬ bit (d.at 0x18 1) 0 then some (padTo n data)
  else if s.dmaLocal a n then some (s.readMem a n) else none

/-- The job settings of R229 are loaded; the step counts, the detector and the history are cleared (R253, R274). -/
def State.loadSettings (s : State) (b : List Byte) : State :=
  let s := s.modSet (fun t =>
    { t with mode := fld (leAt b 0 4) 0 1, accum := leAt b 4 4, clipNorm := BitVec.ofNat 32 (leAt b 8 4), setStep := leAt b 0x10 8,
             skipNonfinite := 0, skipSkew := 0, spikes := 0, dormantGroups := 0, interrupted := false, spike := t.spike.reset })
  s.modDec (fun x => { x with hist := [], histNext := 0, histWrapped := false })

/-- The row of R231 that refuses a JOB action, and the group concerned. DESIGN CHOICE, log entry 66. -/
def State.jobCheck (s : State) (b : List Byte) : Option (Nat × Nat) :=
  let clip := BitVec.ofNat 32 (leAt b 8 4)
  let bad : Bool := match finiteVal clip with | some v => v.isNeg && !v.isZero | none => true
  if bad ∨ leAt b 4 4 = 0 ∨ 65535 < leAt b 4 4 then some (3, 0)
  else if fld (leAt b 0 4) 0 1 = 1 then (s.validGroups.find? (fun g => rowNotCompat (s.row g))).map (fun g => (7, g))
  else none

/-- SETTLE_CONFIG JOB (R229 to R232, R274). -/
def execSettleConfigJob (d : Desc) (data : List Byte) (ecc : List (Nat × EccResult)) (s : State) : Result :=
  if s.cfgNow d 0 then
    let s := s.eccAll ecc
    match s.cfgData d 64 data with
    | none => .next (s.complete d .malformed).cfgEnds
    | some b =>
      (match s.jobCheck b with
       | some (row, g) => .next (s.complete d .malformed 0 (detailOf row g)).cfgEnds
       | none => .next ((s.loadSettings b).complete d .ok).cfgEnds)
  else .next s

/-- A row is loaded; a valid one clears its group's presence bitmap, counter record and guard record (R230, R256, R258).
DESIGN CHOICE, log entry 66. -/
def State.loadRow (s : State) (x : Nat × Row) : State :=
  let s := s.modSet (fun t => { t with rows := tset t.rows [] x.1 x.2 })
  if rowValid x.2 then
    (s.writeMem (rowPres x.2) (List.replicate ((rowCount x.2 + 7) / 8) 0)).modSet
      (fun t => { t with counts := tset t.counts {} x.1 {}, guards := tset t.guards {} x.1 {} })
  else s

/-- SETTLE_CONFIG ROWS (R228, R230 to R232). -/
def execSettleConfigRows (d : Desc) (data : List Byte) (ecc : List (Nat × EccResult)) (s : State) : Result :=
  if s.cfgNow d 1 then
    let s := s.eccAll ecc
    match cfgRange d false, s.cfgData d (256 * min (cfgCount d) 4096) data with
    | some g, _ => .next (s.complete d .malformed 0 (detailOf 1 g)).cfgEnds
    | none, none => .next (s.complete d .malformed).cfgEnds
    | none, some b =>
      (match s.rowsCheck d b with
       | some (row, g) => .next (s.complete d .malformed 0 (detailOf row g)).cfgEnds
       | none => .next (((cfgRows d b).foldl State.loadRow s).complete d .ok).cfgEnds)
  else .next s

/-- VALID of a group's row is set to 0 (R230). -/
def State.invalidate (s : State) (g : Nat) : State :=
  let r := s.row g
  if rowValid r then s.modSet (fun t => { t with rows := tset t.rows [] g (storeAt r 0x60 (leBytes 8 (rowCtrl r - 1))) }) else s

/-- SETTLE_CONFIG INVALIDATE (R230 to R232). -/
def execSettleConfigInvalidate (d : Desc) (s : State) : Result :=
  if s.cfgNow d 2 then
    match cfgRange d false with
    | some g => .next (s.complete d .malformed 0 (detailOf 1 g)).cfgEnds
    | none => .next (((cfgGroups d).foldl State.invalidate s).complete d .ok).cfgEnds
  else .next s

/-- SETTLE_CONFIG REFRESH: the working copy of every block of a group is rewritten from W, unless the words of an engine disagree (R27, R230 to
R232, R249). DESIGN CHOICE, log entry 79. -/
def execSettleConfigRefresh (d : Desc) (ecc : List (Nat × EccResult)) (s : State) : Result :=
  if s.cfgNow d 3 then
    match cfgRange d true with
    | some g => .next (s.complete d .malformed 0 (detailOf 1 g)).cfgEnds
    | none =>
      let r := s.row (cfgFirst d)
      if ¬ rowValid r then .next (s.complete d .malformed 0 (detailOf 8 (cfgFirst d))).cfgEnds
      else if s.engineMismatch then .next (s.complete d .stateMismatch).cfgEnds
      else .next (((List.range (rowCount r)).foldl (fun s i => s.refreshBlock r i) (s.eccAll ecc)).complete d .ok).cfgEnds
  else .next s

/-! ### COLLECTIVE_PLAN (R381) -/

/-- The 64-byte entries of a plan. -/
def planEntries (n : Nat) (b : List Byte) : List (List Byte) := (List.range n).map (fun i => ((padTo (64 * n) b).drop (64 * i)).take 64)

/-- COLLECTIVE_PLAN: a checked plan replaces the plan in force; ENTRIES of 0 clears it (R381, R443). DESIGN CHOICE, log entry 66. -/
def execCollectivePlan (d : Desc) (data : List Byte) (ecc : List (Nat × EccResult)) (s : State) : Result :=
  if s.holds d 8 then
    let s := s.eccAll ecc
    let n := d.at 0x10 8
    let src := d.at 8 8
    let ok := src % 64 == 0 && (!bit (d.at 0x18 1) 0 || n == 0 || s.dmaLocal src (64 * n))
    if s.col.running ≠ [] ∨ (List.range 8).any (fun c => (s.cluster c).lbs.any (fun x => x.2.st == .filling)) then .next (s.complete d .denied 0 1)
    else if 1024 < n ∨ ¬ ok then .next (s.complete d .malformed)
    else
      let es := planEntries n (if bit (d.at 0x18 1) 0 then s.readMem src (64 * n) else data)
      (match firstBad s.planRow es with
       | some (i, row) => .next (s.complete d .malformed 0 (detailOf row i))
       | none => .next ((s.modCol (fun c => { c with plan := es, loaded := n != 0 })).complete d .ok))
  else .next s

/-! ### QUERY and the host proxy (R339, R359, R445) -/

/-- A group's counter record; the norm sums read +0 in native mode (R256). -/
def GroupCounts.bytes (c : GroupCounts) (compat : Bool) : List Byte :=
  let c := if compat then c else { c with normW := 0, normM := 0, normV := 0, normG := 0 }
  padTo 64 (fields [(4, c.settled), (4, c.frozen), (4, c.poison), (4, c.mismatch), (4, c.gradNf), (4, c.resultNf), (4, c.dropped),
    (4, c.normW.toNat), (4, c.normM.toNat), (4, c.normV.toNat), (4, c.normG.toNat)])
/-- A group's guard record (R258). -/
def GroupGuard.bytes (g : GroupGuard) : List Byte :=
  padTo 64 (fields [(4, g.nfElems), (4, g.nfSteps), (4, g.flushLand), (4, g.flushSettle), (4, g.flushWc), (4, g.dormantRun), (4, g.dormantEvents),
    (4, g.lastLive), (1, bnum g.dormant + bnum g.nfLast 1)])
/-- The job settings (R229). -/
def Settle.bytes (t : Settle) : List Byte :=
  padTo 64 (fields [(4, t.mode), (4, t.accum), (4, t.clipNorm.toNat), (4, 0), (8, t.setStep)])
/-- The history, oldest entry first (R268). -/
def Decision.history (x : Decision) : List Byte :=
  (List.range 64).flatMap (fun i => leBytes 32 (tget x.hist {} (((if x.histWrapped then x.histNext else 0) + i) % 64)).image)

/-- Whether a SELECTOR and INDEX name a record (R445). -/
def queryOk (sel ix : Nat) : Bool :=
  match sel with
  | 1 | 2 => decide (ix < 4096)
  | 3 => (unitOf ix).isSome
  | 4 | 5 | 6 | 7 | 8 => ix == 0
  | _ => false

/-- The record of a SELECTOR; 0x07 takes a statement (R445, R528). DESIGN CHOICE, log entry 44. -/
def State.queryRecord (s : State) (sel ix : Nat) : List Byte × State :=
  match sel with
  | 1 => ((tget s.settle.counts {} ix).bytes s.settle.compat, s)
  | 2 => ((tget s.settle.guards {} ix).bytes, s)
  | 3 => ((match unitOf ix with | some u => s.unitRecord u false | none => []), s)
  | 4 => (s.dec.history, s)
  | 5 => (s.job.symbols, s)
  | 6 => ((List.range 256).flatMap (fun i => leBytes 16 (tget (s.cluster 0).slots 0 i)), s)
  | 7 => let s := s.stmtNow; (padTo 4096 s.mgmt.lastStmt, s)
  | _ => (s.settle.bytes, s)

def querySel (d : Desc) : Nat := d.at 8 2
def queryIx (d : Desc) : Nat := d.at 0x0A 2

/-- A record reaches the host, or is larger than DST_LEN (R445); a response that failed on its way arrives poisoned (R351). -/
def State.queryWrite (s : State) (d : Desc) (b : List Byte) (poisoned : Bool) : State :=
  if d.at 0x18 4 < b.length then s.complete d .malformed
  else (s.emit (.hostWrite (d.at 0x10 8) b poisoned)).complete d .ok b.length

/-- The PROXY ADDR (R445). DESIGN CHOICE, log entry 6. -/
def proxyAddr (sel ix status tag : Nat) (response : Bool) : Nat :=
  sel % 256 + (ix % 65536) * 2 ^ 8 + (status % 256) * 2 ^ 24 + bnum response 32 + (tag % 32768) * 2 ^ 33

/-- A remote query leaves as a PROXY packet (R445). -/
def State.querySend (s : State) (d : Desc) (dest : Coord) : State :=
  let tag := d.num % 32768
  match s.inject (s.packet 7 10 dest (proxyAddr (querySel d) (queryIx d) 0 tag false) []) with
  | (.sent, s) => s.modRtr (fun r => { r with proxies := r.proxies ++ [(tag, d, s.aoNs + r.readTimeout * 1000)] })
  | (x, s) => s.complete d x.status

/-- QUERY (R445). -/
def execQuery (d : Desc) (s : State) : Result :=
  if ¬ s.holds d 0x0D ∨ s.rtr.proxies.any (fun x => x.2.1 == d) then .next s
  else if ¬ queryOk (querySel d) (queryIx d) ∨ d.at 0x10 8 % 64 ≠ 0 then .next (s.complete d .malformed)
  else
    let dest := Coord.ofNat (fld (d.at 0x20 4) 0 24)
    let remote := bit (d.at 0x1C 1) 0
    if remote ∧ dest ≠ s.here then .next (s.querySend d dest)
    else
      let (b, t) := s.queryRecord (querySel d) (queryIx d)
      if d.at 0x18 4 < b.length ∨ (remote ∧ 8192 < b.length) then .next (s.complete d .malformed) else .next (t.queryWrite d b false)

/-- PROXY_REQUEST: a query of another device is answered on C6 (R339, R445). -/
def execProxyRequest (p : Packet) (s : State) : Result :=
  if p.kind = 10 ∧ p.channel = 7 ∧ s.inTurn p then
    let s := s.consumed p
    let sel := fld p.addr 0 8
    let ix := fld p.addr 8 16
    let tag := fld p.addr 33 15
    let ok := queryOk sel ix
    let (b, t) := if ok then s.queryRecord sel ix else ([], s)
    let bad := !ok || decide (8192 < b.length)
    let (st, body, s) := if bad then (Status.malformed, [], s) else (Status.ok, b, t)
    .next (s.inject (s.packet 6 10 p.src (proxyAddr sel ix st.code tag true) body)).2
  else .next s

/-- PROXY_RESPONSE: the response of a remote query arrives, or READ_TIMEOUT passes without one (R445). DESIGN CHOICE, log entry 67. -/
def execProxyResponse (tag : Nat) (arrived : Option Packet) (s : State) : Result :=
  match arrived with
  | none =>
    (match s.rtr.proxies.find? (fun x => x.1 == tag) with
     | some (_, d, t) => .next (((s.reach t).modRtr (fun r => { r with proxies := r.proxies.filter (fun x => x.2.1 != d) })).complete d .linkAbsent)
     | none => .next s)
  | some p =>
    if p.kind = 10 ∧ p.channel = 6 ∧ fld p.addr 33 15 = tag ∧ s.inTurn p then
      let s := s.consumed p
      match s.rtr.proxies.find? (fun x => x.1 == tag) with
      | some (_, d, _) =>
        let s := s.modRtr (fun r => { r with proxies := r.proxies.filter (fun x => x.2.1 != d) })
        let st := Status.ofCode (fld p.addr 24 8)
        if st = .ok then .next (s.queryWrite d p.payload (p.poison != [])) else .next (s.complete d st)
      | none => .next s
    else .next s

end Sys2Proof.Machine
end

