-- ==== Sys2Proof/Machine/Mgmt.lean ====
section
/-!
DEFINITION. The management plane (17_management_and_life_ledger.md): statements taken, the ledger's periodic records, the ports and
their requests, PLDM monitoring and firmware update. A request names its binding (0 I3C or SMBus, 1 PCIe VDM, 2 DOE) and how many
requests wait on that binding before it (R517, R518).
-/
set_option autoImplicit false
namespace Sys2Proof.Machine

/-! ### Statements and the ledger's periods (R515, R528, R537 to R539) -/

/-- Whether the Bucel controller's firmware runs (R515, R548, R568). -/
def State.bucelRuns (s : State) : Bool := !s.mgmt.bucelDown && !s.sec.halt && decide (1 ≤ s.dev.stage)

/-- STATEMENT_TAKE: the statement of the next device time that is a multiple of PERIOD; while the controller restarts it is only
counted (R515, R528). DESIGN CHOICE, log entry 10. -/
def execStatementTake (s : State) : Result :=
  if s.sec.halt ∨ s.dev.stage = 0 then .next s
  else
    let m := s.mgmt
    let p := 1000 * m.periodUs
    let due := (max m.lastTaken m.lastDue / p + 1) * p
    let s := (s.atDevice due).modMgmt (fun m => { m with lastDue := due })
    if s.mgmt.bucelDown then .next (s.modMgmt (fun m => { m with skipped := min (m.skipped + 1) 0xFFFFFFFF })) else .next (s.takeStmt false)

/-- LIFE_S at the last record of a kind. -/
def Ledger.lastLife (l : Ledger) (kind : Nat) : Nat := match (l.records.filter (fun r => r.live && r.kind == kind)).getLast? with | some r => r.lifeS | none => 0

/-- The power-on second at which the next record of a kind and period is due (R535). -/
def State.reachLife (s : State) (kind period : Nat) : State :=
  s.reach (((s.ledger.lastLife kind / period + 1) * period - s.mgmt.lifeS) * 1000000000)

/-- A COUNTERS payload (R537): energy is kept in µJ, and times in ns. DESIGN CHOICE, log entry 49. -/
def State.countersBytes (s : State) : List Byte :=
  let t := fun i => tget s.mgmt.totals 0 i
  padTo 256 (fields ([(8, s.lifeNow), (8, t 1 / 1000000), (8, t 2), (8, t 3), (8, t 4 / 1000000000), (8, t 5 / 2 ^ 20), (8, t 6 / 1000000000)] ++
    (List.range 11).map (fun i => (8, t (7 + i)))))

/-- LEDGER_COUNTERS: the COUNTERS record of the hour; `fails` copies do not verify (R536, R537). DESIGN CHOICE, log entry 10. -/
def execLedgerCounters (fails : Nat) (s : State) : Result :=
  if s.sec.halt ∨ s.dev.stage = 0 then .next s
  else
    let s := s.reachLife 5 3600
    .next (s.ledgerAppend 5 s.countersBytes fails)

/-- A value of the day. -/
def State.dayOf (s : State) (key : Nat) : Nat := tget s.tel.day 0 key

/-- A HISTOGRAM payload (R538). -/
def State.histogramBytes (s : State) : List Byte :=
  let m (key : Nat) : Nat × Nat := (2, min (s.dayOf key / 60000) 0xFFFF)
  padTo 512 (fields ((List.range 32).map (fun b => (4, s.dayOf (dayTmax b) / 1000)) ++
    (List.range 8).flatMap (fun c => (List.range 16).map (fun b => m (dayVolt c b))) ++
    (List.range 16).map (fun b => m (dayPower b)) ++ (List.range 16).map (fun b => m (dayUse b))))

/-- A MARGINS payload (R539). -/
def State.marginsBytes (s : State) : List Byte :=
  let n := s.dayOf dayReads
  padTo 768 (fields ((List.range 8).flatMap (fun p => (List.range 17).flatMap (fun l => [least (s.dayOf (ctLane p l 2)), least (s.dayOf (ctLane p l 3))])) ++
    (List.range 24).flatMap (fun d => (List.range 4).map (fun i => least (s.dayOf (ctDimm d i)))) ++
    (List.range 8).flatMap (fun c => [least (s.dayOf (ctClu c 10)), if n = 0 then (2, 0xFFFF) else (2, s.dayOf (dayMv c) / n)])))

/-- LEDGER_DAILY: the HISTOGRAM and MARGINS records of the day (R536, R538, R539). DESIGN CHOICE, log entry 10. -/
def execLedgerDaily (fails : Nat) (s : State) : Result :=
  if s.sec.halt ∨ s.dev.stage = 0 then .next s
  else
    let s := s.reachLife 6 86400
    let s := (s.ledgerAppend 6 s.histogramBytes fails).ledgerAppend 7 s.marginsBytes
    .next { s with tel := { s.tel with day := [] } }

/-! ### Ports and endpoints (R516 to R518) -/

/-- Codes that the model gives the answers to MCTP control and PLDM messages, beyond the vendor commands of R524 (log entry 5). -/
def ansEndpoint : Nat := 0x100
def ansReceiver : Nat := 0x101
def ansSensor : Nat := 0x102
def ansUpdate : Nat := 0x103
def ansVerify : Nat := 0x104
def ansActivate : Nat := 0x105

/-- A request on a binding: a fifth is dropped and counted, and the controller answers while it runs and has an EID (R515, R517,
R518). PRESUMED, log entry 50. -/
def State.request (s : State) (b waiting : Nat) (f : State → State) : State :=
  if ¬ s.bucelRuns then s
  else if b < 3 ∧ 4 ≤ waiting then s.modMgmt (fun m => { m with dropped := satAdd 0xFFFF m.dropped 1 })
  else if 3 ≤ b ∨ s.mgmt.eid = 0 then s
  else f s

/-- SET_ENDPOINT_ID: the bus owner sets the EID; in BOOT_HALT the recovery responder answers over SMBus and DOE (R517, R548). -/
def execSetEndpointId (b waiting eid : Nat) (s : State) : Result :=
  if s.sec.halt then
    (if b = 0 ∨ b = 2 then .next ((s.modMgmt (fun m => { m with eid := eid % 256 })).emit (.response b ansEndpoint 0 [])) else .next s)
  else if ¬ s.bucelRuns ∨ 3 ≤ b then .next s
  else if 4 ≤ waiting then .next (s.modMgmt (fun m => { m with dropped := satAdd 0xFFFF m.dropped 1 }))
  else .next ((s.modMgmt (fun m => { m with eid := eid % 256 })).emit (.response b ansEndpoint 0 []))

/-- DYNAMIC_ADDRESS_ASSIGN: an I3C controller assigns a dynamic address, and the port speaks I3C only (R516). -/
def execDynamicAddressAssign (addr : Nat) (s : State) : Result := .next (s.modMgmt (fun m => { m with i3c := true, dynAddr := addr % 128 }))

/-! ### Vendor messages (R523, R524) -/

/-- The response of a vendor command: the command, the status, two bytes of 0, and its body (R523). DESIGN CHOICE, log entry 5. -/
def State.respond (s : State) (b code : Nat) (st : Status) (body : List Byte) : State :=
  s.emit (.response b code st.code (leBytes 1 code ++ leBytes 1 st.code ++ [0, 0] ++ body))

/-- A vendor command whose body has n bytes; a body of another length gives MALFORMED (R523). -/
def State.vendor (s : State) (b waiting code n : Nat) (body : List Byte) (f : State → Status × List Byte × State) : Result :=
  .next (s.request b waiting (fun s =>
    if body.length ≠ n then s.respond b code .malformed []
    else
      let (st, out, s) := f s
      s.respond b code st out))

/-- STATEMENT_GET (R524, R529). -/
def execStatementGet (b waiting : Nat) (body : List Byte) (s : State) : Result :=
  s.vendor b waiting 1 4 body (fun s =>
    let off := 64 * leAt body 0 2
    let n := 64 * leAt body 2 2
    if 1024 < n ∨ 4096 < off + n then (.malformed, [], s) else (.ok, ((padTo 4096 s.mgmt.lastStmt).drop off).take n, s))

/-- DAYBOOK_READ (R524). -/
def execDaybookRead (b waiting : Nat) (body : List Byte) (s : State) : Result :=
  s.vendor b waiting 2 3 body (fun s =>
    let count := leAt body 2 1
    let d := (s.err.nextSeq + 65536 - leAt body 0 2) % 65536
    let held := s.err.dayBook.length
    if count = 0 ∨ 32 < count then (.malformed, [], s)
    else if d = 0 ∨ 32768 < d ∨ held = 0 then (.ok, fields [(2, s.err.nextSeq), (1, 0)], s)
    else
      let es := (s.err.dayBook.drop (held - min d held)).take count
      (.ok, fields [(2, (s.err.nextSeq + 65536 - min d held) % 65536), (1, es.length)] ++ es.flatMap (fun e => e.bytes), s))

/-- LEDGER_READ: bytes past a record's end read as erased flash (R524, R534). PRESUMED, log entry 50. -/
def execLedgerRead (b waiting : Nat) (body : List Byte) (s : State) : Result :=
  s.vendor b waiting 3 12 body (fun s =>
    let off := 64 * leAt body 8 2
    let n := 64 * leAt body 10 2
    match (s.ledger.records.filter (fun r => r.live && r.seq == leAt body 0 8)).getLast? with
    | some r =>
      let bs := r.bytes
      if 1024 < n ∨ roundUp 64 bs.length < off + n then (.malformed, [], s)
      else (.ok, ((bs ++ List.replicate 64 0xFF#8).drop off).take n, s)
    | none => (.malformed, [], s))

/-- LEDGER_STATUS (R524, R536). -/
def execLedgerStatus (b waiting : Nat) (body : List Byte) (s : State) : Result :=
  s.vendor b waiting 4 0 body (fun s =>
    let l := s.ledger
    let seq := match l.head with | some r => r.seq | none => 0
    (.ok, fields [(8, seq)] ++ padTo 32 l.headHash ++ fields [(2, (l.offset + 4095) / 4096), (1, l.state), (1, 0), (2, l.droppedBoot)], s))

/-- UNIT_STATE_READ (R445, R524). -/
def execUnitStateRead (b waiting : Nat) (body : List Byte) (s : State) : Result :=
  s.vendor b waiting 5 2 body (fun s =>
    match unitOf (leAt body 0 2) with
    | some u => (.ok, s.unitRecord u true, s)
    | none => (.malformed, [], s))

/-- The permission that a SET_PERMISSION writes (R524). DESIGN CHOICE, log entry 52. -/
def permOf (x : Nat) : Option Perm := match x with | 0 => some .enabled | 1 => some .fenced | 3 => some .powerOff | _ => none

/-- SET_PERMISSION first writes HOLD and then judges its gate; it is logged in every case (R200, R524, R526). DESIGN CHOICE, log entry 52. -/
def State.setPermission (s : State) (u : UnitName) (p : Perm) (hold : Bool) : Status × State :=
  let s := s.modUnit u.code (fun w => { w with hold := hold })
  let old := s.permWord u
  let denied := old == .absent || (p == .enabled && s.withheld u)
  let s := if denied then s else
    let s := s.modUnit u.code (fun w => { w with perm := p })
    if u.kind = .ddr ∧ p = .fenced then s.loseChannel u.index else s
  let s := s.log .permissionSet (srcBlock 6) [(2, u.code), (1, old.code), (1, (s.permWord u).code), (1, bnum hold)]
  (if denied then .denied else .ok, s)

/-- SET_PERMISSION: POWER_OFF is for clusters only (R524 to R526). -/
def execSetPermission (b waiting : Nat) (body : List Byte) (s : State) : Result :=
  s.vendor b waiting 6 4 body (fun s =>
    match unitOf (leAt body 0 2), permOf (leAt body 2 1) with
    | some u, some p =>
      if p = .powerOff ∧ u.kind ≠ .cluster then (.malformed, [], s)
      else
        let (st, s) := s.setPermission u p (bit (leAt body 3 1) 0)
        (st, [], s)
    | _, _ => (.malformed, [], s))

/-- SET_POWER_LIMIT (R470, R524). -/
def execSetPowerLimit (b waiting : Nat) (body : List Byte) (s : State) : Result :=
  s.vendor b waiting 7 2 body (fun s =>
    let w := leAt body 0 2
    if w < 300 ∨ 2000 < w then (.malformed, [], s)
    else (.ok, [], (s.modPwr (fun p => { p with boardW := w })).log .powerLimitSet (srcBlock 6) []))

/-- SET_PURSE_DEPTH (R467, R524). -/
def execSetPurseDepth (b waiting : Nat) (body : List Byte) (s : State) : Result :=
  s.vendor b waiting 8 8 body (fun s =>
    let c := leAt body 0 1
    let depth := leAt body 4 4
    if 7 < c ∨ depth < 1000 ∨ 100000 < depth then (.malformed, [], s)
    else (.ok, [], s.modPurse c (fun u => { u with depth := depth })))

/-- The row of R319 that decides a PLAN_WRITE. -/
def State.planWriteRow (s : State) (p : List Byte) : Nat :=
  let len (i : Nat) : Nat := leAt p i 1
  let zero (off n : Nat) : Bool := leAt p off n == 0
  let pos := leAt p 32 4
  if s.dev.plan.isSome then 1
  else if (List.range 4).any (fun i => len i == 0 || decide (64 < len i) || decide (4 < leAt p (8 + i) 1)) ∨ 16 ≤ leAt p 4 1 ∨
      ¬ zero 5 3 ∨ ¬ zero 12 4 ∨ ¬ zero 24 8 ∨ ¬ zero 44 20 then 2
  else if (List.range 4).any (fun i => bit (leAt p 4 1) i && decide (len i < 3)) then 3
  else if (List.range 4).any (fun i => decide (len i ≤ fld pos (6 * i) 6)) then 4
  else if s.dev.strapBad ∨ fld pos 0 24 ≠ fld s.dev.position 0 24 then 5
  else 6

/-- A plan comes into force: the ledger, the position state, the time base, slot 6, and every port re-identifies (R319, R328, R553). -/
def State.planSet (s : State) (p : List Byte) : State :=
  let s := s.ledgerAppend 3 (p ++ planHash (some p))
  let s := s.modDev (fun d => { d with plan := some p, posState := 0 })
  (s.placeTime.setSlot 6 (planHash (some p))).reidentifyAll

/-- PLAN_WRITE (R319, R524). -/
def execPlanWrite (b waiting : Nat) (body : List Byte) (s : State) : Result :=
  s.vendor b waiting 9 64 body (fun s =>
    match s.planWriteRow body with
    | 6 => (.ok, [], s.planSet body)
    | 1 | 5 => (.denied, [], s)
    | _ => (.malformed, [], s))

/-- The plan leaves force (R320, R321, R328). -/
def State.planLeave (s : State) : State :=
  let s := (s.ledgerAppend 4 (planHash s.dev.plan)).leavePorts
  let s := s.modDev (fun d => { d with plan := none, posState := 1 })
  (s.placeTime.setSlot 6 (List.replicate 32 0)).reidentifyAll

/-- PLAN_RETIRE: in maintenance mode, and with the hash of the plan in force (R320, R524). -/
def execPlanRetire (b waiting : Nat) (body : List Byte) (s : State) : Result :=
  s.vendor b waiting 10 32 body (fun s =>
    if s.maintenance ∧ s.dev.plan.isSome ∧ planHash s.dev.plan = body then (.ok, [], s.planLeave) else (.denied, [], s))

/-- REG_READ: 8 bytes at an offset of BAR0; all ones with CDC_TIMEOUT from a stopped domain (R482, R524). -/
def execRegRead (b waiting : Nat) (body : List Byte) (s : State) : Result :=
  s.vendor b waiting 11 4 body (fun s =>
    let off := leAt body 0 4
    if off % 8 ≠ 0 ∨ 2 ^ 26 ≤ off then (.malformed, [], s)
    else
      let asleep : Bool := match regAt off with | some (r, _) => s.regAsleep r | none => false
      let (v, s) := s.readReg off 8
      (if asleep then .cdcTimeout else .ok, leBytes 8 v, s))

/-! ### PLDM monitoring (R519, R520) -/

/-- A field of the newest statement. -/
def State.stmtAt (s : State) (off n : Nat) : Nat := leAt s.mgmt.lastStmt off n

/-- A 16-bit field, unavailable when it reads 0xFFFF (R532). -/
def State.stmt16 (s : State) (off : Nat) : Option Nat := if s.stmtAt off 2 = 0xFFFF then none else some (s.stmtAt off 2)

/-- The reading of a numeric sensor: none when unavailable; `some none` names no sensor (R519, R530 to R532). -/
def State.sensor (s : State) (id : Nat) : Option (Option Nat) :=
  if 1 ≤ id ∧ id ≤ 64 then
    let x := s.stmtAt (0x40 + 2 * (id - 1)) 2
    some (if x = 0x8000 then none else some x)
  else if id = 65 then some (some (s.stmtAt 0x3E0 1))
  else if 101 ≤ id ∧ id ≤ 132 then some (s.stmt16 (0xC0 + 8 * (id - 101)))
  else if 201 ≤ id ∧ id ≤ 232 then some (s.stmt16 (0xC0 + 8 * (id - 201) + 4))
  else if id = 301 then some (some (s.stmtAt 0x3D8 4))
  else if 311 ≤ id ∧ id ≤ 318 then some (some (s.stmtAt (0x1C0 + 64 * (id - 311) + 0x18) 4))
  else if id = 321 then some (some (fld (s.stmtAt 0x3C8 8) 22 11))
  else if 1001 ≤ id ∧ id < 1137 then some (s.stmt16 (0x400 + 16 * (id - 1001)))
  else if 2001 ≤ id ∧ id ≤ 2024 then some (s.stmt16 (0xD00 + 16 * (id - 2001)))
  else if 2101 ≤ id ∧ id ≤ 2124 then some (s.stmt16 (0xD00 + 16 * (id - 2101) + 4))
  else none

/-- Whether a sensor belongs to a unit that is ABSENT (R519). -/
def State.sensorAbsent (s : State) (id : Nat) : Bool :=
  (decide (2001 ≤ id ∧ id ≤ 2024) && s.permWord ⟨.ddr, id - 2001⟩ == .absent) || (decide (2101 ≤ id ∧ id ≤ 2124) && s.permWord ⟨.ddr, id - 2101⟩ == .absent)

/-- GET_SENSOR_READING: operational state (0 enabled, 1 disabled, 2 unavailable) and reading; a state sensor gives the unit's
permission and execution words (R519, R524). PRESUMED, log entry 50. -/
def execGetSensorReading (b waiting id : Nat) (s : State) : Result :=
  .next (s.request b waiting (fun s =>
    match (if 5000 ≤ id ∧ id < 5000 + 2048 then unitOf (id - 5000) else none) with
    | some u => s.emit (.response b ansSensor 0 [0, BitVec.ofNat 8 (s.permWord u).code, BitVec.ofNat 8 (s.execWord u).code])
    | none =>
      match s.sensor id with
      | none => s.emit (.response b ansSensor 0x80 [])
      | some x =>
        if s.sensorAbsent id then s.emit (.response b ansSensor 0 (1 :: leBytes 4 0))
        else match x with
          | some v => if s.mgmt.lastStmt = [] then s.emit (.response b ansSensor 0 (2 :: leBytes 4 0)) else s.emit (.response b ansSensor 0 (0 :: leBytes 4 v))
          | none => s.emit (.response b ansSensor 0 (2 :: leBytes 4 0))))

/-- SET_EVENT_RECEIVER: the BMC becomes the event receiver, with its OEM class mask (R520). -/
def execSetEventReceiver (b waiting mask : Nat) (s : State) : Result :=
  .next (s.request b waiting (fun s =>
    (s.modMgmt (fun m => { m with receiver := true, receiverMask := mask })).emit (.response b ansReceiver 0 [])))

/-- PLATFORM_EVENT_RETRY: the i-th event has not been acknowledged within 1 s: it is sent again once, and then dropped (R520). -/
def execPlatformEventRetry (i : Nat) (s : State) : Result :=
  match s.mgmt.pldmEvents[i]? with
  | none => .next s
  | some e =>
    if s.mgmt.bucelDown then .next s
    else if e.resent then .next (s.modMgmt (fun m => { m with pldmEvents := m.pldmEvents.eraseIdx i }))
    else .next ((s.modMgmt (fun m => { m with pldmEvents := lset m.pldmEvents i { e with resent := true } })).emit (.platformEvent e.entry))

/-- PLATFORM_EVENT_ACK: the receiver acknowledges the i-th event (R520). -/
def execPlatformEventAck (i : Nat) (s : State) : Result := .next (s.modMgmt (fun m => { m with pldmEvents := m.pldmEvents.eraseIdx i }))

/-! ### Firmware update (R521, R522, R545, R548) -/

/-- Payload limit of an image class in bytes (R544). -/
def classLimit (cls : Nat) : Nat := match cls with | 1 => 524288 | 2 => 4194304 | 3 => 2097152 | 4 => 1048576 | _ => 0

/-- Whether a copy verifies as an image of a class (R543, R545). -/
def State.fwVerifies (s : State) (cls : Nat) (x : FwCopy) : Bool :=
  let h := x.header
  h.length == 128 && leAt h 0 4 == 0x1A574659 && leAt h 4 2 == cls && decide (leAt h 7 1 ≤ 1) && leAt h 0x0C 4 == 0 && leAt h 0x38 72 == 0 &&
  decide (leAt h 0x10 8 ≤ classLimit cls) && leAt h 0x10 8 == x.payload.length && decide (leAt h 6 1 ≤ 64) &&
  decide (s.fuses.svn cls ≤ leAt h 6 1) && (h.drop 0x18).take 32 == sha256 x.payload && s.vendorSigned x.key x.sig h

/-- Whether updates of a class are accepted: in BOOT_HALT only of the class that failed (R521, R548). -/
def State.updatable (s : State) (b cls : Nat) : Bool := if s.sec.halt then cls == s.sec.haltClass && (b == 0 || b == 2) else true

/-- An update request on a binding; the recovery responder takes it in BOOT_HALT (R518, R521, R548). -/
def State.updateRequest (s : State) (b waiting : Nat) (f : State → State) : State := if s.sec.halt then f s else s.request b waiting f

/-- REQUEST_UPDATE of an image class: one update at a time (R521). PRESUMED, log entry 50. -/
def execRequestUpdate (b waiting cls : Nat) (s : State) : Result :=
  .next (s.updateRequest b waiting (fun s =>
    if ¬ (1 ≤ cls ∧ cls ≤ 4) ∨ ¬ s.updatable b cls then s.emit (.response b ansUpdate 1 [])
    else if s.mgmt.updating.isSome then s.emit (.response b ansUpdate 0x81 [])
    else (s.modMgmt (fun m => { m with updating := some cls })).emit (.response b ansUpdate 0 [])))

/-- The inactive copy of a class is written. -/
def FwClass.put (f : FwClass) (x : FwCopy) (ok : Bool) : FwClass :=
  if f.activeB then { f with a := x, verified := ok, nextCold := false } else { f with b := x, verified := ok, nextCold := false }

/-- VERIFY_COMPLETE: the transferred image stands in the inactive copy and is verified; a failure ends the update (R521, R545).
PRESUMED, log entry 50. -/
def execVerifyComplete (b waiting : Nat) (image : FwCopy) (s : State) : Result :=
  .next (s.updateRequest b waiting (fun s =>
    match s.mgmt.updating with
    | none => s
    | some cls =>
      let ok := s.fwVerifies cls image
      let s : State := { s with flash := tset s.flash {} cls ((tget s.flash {} cls).put image ok) }
      if ok then s.emit (.response b ansVerify 0 [])
      else
        let s := s.modMgmt (fun m => { m with updating := none })
        ((if s.sec.halt then s else s.log .fwUpdateFailed (srcBlock 6) [(1, cls)])).emit (.response b ansVerify 1 [])))

/-- The FIRMWARE record of a class whose new copy is x (R535). DESIGN CHOICE, log entry 19. -/
def firmwareBytes (cls : Nat) (x : FwCopy) : List Byte := fields [(4, cls), (4, leAt x.header 8 4)] ++ sha256 x.header

/-- A verified copy is activated: BUCEL takes over through a restart, every other class at the next cold reset (R522, R549, R553).
DEDUCED, log entry 51. -/
def State.activate (s : State) (cls : Nat) : State :=
  let f := tget s.flash {} cls
  if ¬ f.verified then s
  else
    let x := if f.activeB then f.a else f.b
    let s := if s.sec.halt then s else s.ledgerAppend 0x0B (firmwareBytes cls x)
    if cls = 2 ∧ ¬ s.sec.halt then
      let s : State := { s with flash := tset s.flash {} cls { f with activeB := !f.activeB, verified := false, nextCold := false } }
      ((s.setSlot 2 (sha256 x.header)).log .fwUpdateActivated (srcBlock 6) []).modMgmt (fun m => { m with bucelDown := true })
    else { s with flash := tset s.flash {} cls { f with verified := false, nextCold := true } }

/-- ACTIVATE_FIRMWARE: the BUCEL class goes last, since its restart ends the answers; the answer's body tells whether the
activation is self-contained (R522). PRESUMED, log entry 50. -/
def execActivateFirmware (b waiting : Nat) (s : State) : Result :=
  .next (s.updateRequest b waiting (fun s =>
    let self := (tget s.flash {} 2).verified && !s.sec.halt
    let s := (s.modMgmt (fun m => { m with updating := none })).emit (.response b ansActivate 0 [BitVec.ofNat 8 (bnum self)])
    ([1, 3, 4, 2] : List Nat).foldl (fun s cls => s.activate cls) s))

end Sys2Proof.Machine
end

