-- ==== Sys2Proof/Machine/Security.lean ====
section
/-!
DEFINITION. The security block's commands (18_security.md): attestation and the reservation of leaves (R554 to R557), and tokens
(R558 to R560).
-/
set_option autoImplicit false
namespace Sys2Proof.Machine

/-! ### Leaves of the identity key (R555 to R557) -/

/-- Number of leaves, leaves in a batch, and leaves under a bottom tree (R555, R556). -/
def leafCount : Nat := 2 ^ 45
def leafBatch : Nat := 1024
def bottomLeaves : Nat := 2 ^ 15

/-- The LMS_RESERVE payload of a batch (R556). DESIGN CHOICE, log entry 19. -/
def reserveBytes (first : Nat) : List Byte := fields [(8, first), (4, leafBatch), (4, 0), (16, 0)]

/-- Whether a live LMS_RESERVE record with this payload stands in the ledger (R556). DEDUCED, log entry 30. -/
def Ledger.reserved (l : Ledger) (payload : List Byte) : Bool := l.records.any (fun r => r.live && r.kind == 0x0A && r.payload == payload)

/-- Signing stops, with its event once (R557). DEDUCED, log entry 30. -/
def State.blockIdentity (s : State) : State :=
  let logged := s.sec.blockedLogged
  let s := s.modSec (fun x => { x with blocked := true, blockedLogged := true })
  if logged then s else s.log .identityBlocked (srcBlock 5) []

/-- The leaf of the next signature: the next batch is reserved when 64 leaves are left, and a leaf counts once it lies in a
verified batch (R555, R556). None when signing stops (R557). DEDUCED, log entry 30. -/
def State.takeLeaf (s : State) : Option Nat × State :=
  let q := s.sec.nextLeaf
  if s.sec.blocked ∨ leafCount ≤ q then (none, s.blockIdentity)
  else
    let first := max s.sec.leafEnd q
    let due : Bool := decide (s.sec.leafEnd ≤ q + 64 ∧ first < leafCount)
    let s := if due then s.ledgerAppend 0x0A (reserveBytes first) else s
    if due ∧ ¬ s.ledger.reserved (reserveBytes first) then (none, s.blockIdentity)
    else
      (some q, s.modSec (fun x => { x with nextLeaf := q + 1, leafEnd := if due then first + leafBatch else x.leafEnd,
                                           treeReady := (q + 1) % bottomLeaves != 0 }))

/-! ### ATTEST_GET (R554) -/

/-- The rights in force: bit 0 DEBUG, bit 1 MAINTENANCE. -/
def Security.rights (x : Security) : Nat := bnum x.debugEnd.isSome + 2 * bnum x.maintEnd.isSome

/-- The attestation statement over a nonce (R554). -/
def State.attestBytes (s : State) (nonce : List Byte) : List Byte :=
  let seq := match s.ledger.head with | some r => r.seq | none => 0
  fields [(4, 0x41545354), (1, 1), (1, 0xB1), (1, s.fuses.grade.code), (1, s.sec.rights), (8, s.fuses.serial.toNat), (4, s.posWord),
    (4, bnum s.sec.unchecked), (8, s.now), (8, s.lifeNow), (8, seq)] ++ padTo 32 s.ledger.headHash ++ padTo 32 nonce ++ List.replicate 16 0 ++
  (List.range 16).flatMap (fun i => padTo 32 (s.sec.slot i))

/-- A request is signed and answered (R554 to R557). DESIGN CHOICE, log entry 31. -/
def State.attest (s : State) (b : Nat) (body : List Byte) : State :=
  match s.takeLeaf with
  | (none, s) => s.respond b 12 .denied []
  | (some q, s) =>
    let st := s.attestBytes (body.take 32)
    let cert := if bit (leAt body 32 1) 0 then Config.identityCertificate else []
    s.respond b 12 .ok (st ++ Config.hssSign q st ++ cert)

/-- ATTEST_GET: a request that finds the bottom tree unfinished waits for it (R554, R557). -/
def execAttestGet (b waiting : Nat) (body : List Byte) (s : State) : Result :=
  .next (s.request b waiting (fun s =>
    if body.length ≠ 33 then s.respond b 12 .malformed []
    else if s.sec.treeReady then s.attest b body
    else s.modSec (fun x => { x with treeWait := x.treeWait ++ [(b, body)] })))

/-- TREE_BUILD_DONE: the next bottom tree is built, and the signatures that wait for it proceed in order (R557). -/
def execTreeBuildDone (s : State) : Result :=
  let wait := s.sec.treeWait
  let s := s.modSec (fun x => { x with treeReady := true, treeWait := [] })
  .next (wait.foldl (fun s w => s.attest w.1 w.2) s)

/-! ### Tokens (R558 to R560) -/

/-- CHALLENGE: a fresh nonce, valid for 300 s of AO time, and the serial (R558). DESIGN CHOICE, log entry 4. -/
def execChallenge (b waiting : Nat) (s : State) : Result :=
  .next (s.request b waiting (fun s =>
    let (v, s) := s.fresh 256
    let nonce := leBytes 32 v
    (s.modSec (fun x => { x with nonce := some (nonce, s.aoNs + 300 * second) })).respond b 13 .ok (nonce ++ leBytes 8 s.fuses.serial.toNat)))

/-- Fields of a token (R558). DESIGN CHOICE, log entry 29. -/
def tokenRights (t : List Byte) : Nat := leAt t 40 4
def tokenSeconds (t : List Byte) : Nat := leAt t 44 4

/-- Bytes of an HSS signature with L levels (R542). -/
def sigBytes (l : Nat) : Nat := match l with | 1 => 2672 | 2 => 5396 | 3 => 8120 | _ => 0

/-- Whether the vendor signed a token (L = 2), and whether the owner did (R542, R543). DESIGN CHOICE, log entry 29. -/
def State.tokenByVendor (s : State) (t key sig : List Byte) : Bool := sig.length == sigBytes 2 && s.vendorSigned key sig t
def State.tokenByOwner (s : State) (t key sig : List Byte) : Bool := s.ownerSigned key sig t

/-- The row of R559 that judges a token, with the nonce that was valid when it came. DESIGN CHOICE, log entry 29. -/
def State.tokenRow (s : State) (nonce : Option (List Byte)) (t key sig : List Byte) : Nat :=
  if leAt t 48 16 ≠ 0 ∨ tokenRights t = 0 ∨ 3 < tokenRights t ∨ tokenSeconds t = 0 ∨ 86400 < tokenSeconds t then 1
  else if leAt t 0 8 ≠ s.fuses.serial.toNat ∨ nonce ≠ some ((t.drop 8).take 32) then 2
  else if ¬ s.tokenByVendor t key sig ∧ ¬ s.tokenByOwner t key sig then 3
  else if bit (tokenRights t) 0 ∧ ¬ s.tokenByVendor t key sig then 4
  else if bit (tokenRights t) 0 ∧ s.job.loaded then 5
  else 6

/-- Status of a row of R559. DESIGN CHOICE, log entry 29. -/
def tokenStatus (row : Nat) : Status := match row with | 1 => .malformed | 6 => .ok | _ => .denied

/-- The rights of an accepted token take effect (R553, R559, R560). -/
def State.grant (s : State) (t : List Byte) : State :=
  let till := s.aoNs + tokenSeconds t * second
  let s := s.extendSlot 8 (sha256 t)
  let s := if bit (tokenRights t) 0 then (s.modSec (fun x => { x with debugEnd := some till })).log .debugUnlocked (srcBlock 5) [] else s
  if bit (tokenRights t) 1 then (s.modSec (fun x => { x with maintEnd := some till })).log .maintenanceEntered (srcBlock 5) [] else s

/-- PRESENT: a 64-byte token, its signer's key and signature; the nonce serves one PRESENT (R558, R559). DESIGN CHOICE, log entry 29. -/
def execPresent (b waiting : Nat) (token key sig : List Byte) (s : State) : Result :=
  .next (s.request b waiting (fun s =>
    if token.length ≠ 64 ∨ key.length ≠ 60 ∨ ¬ ([sigBytes 1, sigBytes 2, sigBytes 3] : List Nat).contains sig.length then s.respond b 13 .malformed []
    else
      let nonce : Option (List Byte) := match s.sec.nonce with
        | some (n, t) => if s.aoNs < t then some n else none
        | none => none
      let s := s.modSec (fun x => { x with nonce := none })
      let row := s.tokenRow nonce token key sig
      let s := if row = 6 then s.grant token else s.log .tokenRejected (srcBlock 5) [(1, row)]
      s.respond b 13 (tokenStatus row) []))

/-- RELINQUISH: every right in force ends (R558). -/
def execRelinquish (b waiting : Nat) (s : State) : Result :=
  .next (s.request b waiting (fun s => s.endRights.respond b 13 .ok []))

/-- NONCE_EXPIRY: 300 s after its CHALLENGE a nonce is no longer valid (R558). -/
def execNonceExpiry (s : State) : Result :=
  match s.sec.nonce with
  | some (_, t) => .next ((s.reach t).modSec (fun x => { x with nonce := none }))
  | none => .next s

/-- RIGHT_EXPIRY: DEBUG, or MAINTENANCE, reaches the end of its duration; an injection that is armed is disarmed (R506, R560,
R565). -/
def execRightExpiry (maintenance : Bool) (s : State) : Result :=
  if maintenance then
    (match s.sec.maintEnd with
     | some t => .next (s.reach t).leaveMaintenance
     | none => .next s)
  else
    match s.sec.debugEnd with
    | some t => .next ((s.reach t).modSec (fun x => { x with debugEnd := none }))
    | none => .next s

end Sys2Proof.Machine
end

