-- ==== Sys2Proof/Machine/StartUp.lean ====
section
/-!
DEFINITION. Power-up, bring-up and the resets (19_start_up.md), with the boot flow (R547 to R549), the straps and the position
check (R317, R321), the scan of the Life Ledger (R536), and DRAM training (R196 to R199).
-/
set_option autoImplicit false
namespace Sys2Proof.Machine

/-! ### Loss of VDD_AO (R577, R578, R588) -/

/-- What survives without VDD_AO: fuses, flash and ledger, lifetime totals, the soft repairs that the ledger holds, and what the
RESET entry of the next boot reports (R210, R253, R505, R577). Every other domain is clamped off and the outputs are released.
DESIGN CHOICE, log entry 15. -/
def State.powerLoss (s : State) : State :=
  let pass := s.settle.phase == .pass
  { pending := s.pending, free := s.free, out := s.out, fuses := s.fuses, flash := s.flash
    ledger := { s.ledger with heldRecs := [], droppedBoot := 0 }
    dev := { passInterrupted := s.dev.passInterrupted || pass, tally := if s.dev.stage = 0 then s.dev.tally else (s.tileEntries, s.allCoins, 0) }
    dram := { channels := (s.dram.channels.map (fun x => (x.1, ({ hardRepairs := x.2.hardRepairs } : Channel)))).filter (fun x => x.2 != {}) }
    mgmt := { lifeS := s.lifeNow, totals := s.mgmt.totals } }

/-- The last record of the ledger was still being programmed when the power went: its HASH does not verify (R536). DESIGN CHOICE, log entry 15. -/
def Ledger.tear (l : Ledger) : Ledger :=
  match l.records.getLast? with
  | some r => { l with records := lset l.records (l.records.length - 1) { r with hash := List.replicate 32 0xFF } }
  | none => l

/-- AO_POWER_LOSS: VDD_AO leaves its operating range; `torn` tells whether an append was under way (R536, R588). DESIGN CHOICE, log entry 15. -/
def execAoPowerLoss (torn : Bool) (s : State) : Result :=
  let s := s.powerLoss
  .next (if torn then { s with ledger := s.ledger.tear } else s)

/-! ### Straps (R316, R317) -/

/-- Level of a pin voltage in thousandths of VDD_AO (R317). DESIGN CHOICE, log entry 16. -/
def strapLevel (v : Nat) : Option Nat :=
  if v ≤ 125 then some 0 else if 250 ≤ v ∧ v ≤ 417 then some 1 else if 583 ≤ v ∧ v ≤ 750 then some 2 else if 875 ≤ v then some 3 else none

/-- Level of a pin over its three samples. DESIGN CHOICE, log entry 16. -/
def pinLevel (xs : List Nat) : Option Nat :=
  match xs.map strapLevel with
  | [some a, some b, some c] => if a = b ∧ b = c then some a else none
  | _ => none

/-- The straps are read: the position word, or an invalid reading with its lowest invalid pin (R316, R317). DESIGN CHOICE, log entry 16. -/
def State.readStraps (s : State) (pins : List (List Nat)) : State :=
  let ls := (List.range 16).map (fun i => pinLevel (pins.getD i []))
  match (List.range 16).find? (fun i => (ls.getD i none).isNone) with
  | some i => s.modDev (fun d => { d with strapBad := true, badPin := i, position := 0 })
  | none => s.modDev (fun d => { d with position := (List.range 16).foldl (fun a i => a + ((ls.getD i none).getD 0) * 4 ^ i) 0 })

/-! ### The boot flow (R544 to R549, R553) -/

/-- Which condition of R545 a copy fails first: 0 none, 1 MAGIC, CLASS or a reserved byte, 2 SIZE, 3 SVN, 4 PAYLOAD_HASH,
5 the signature. DESIGN CHOICE, log entry 17. -/
def State.fwFailure (s : State) (cls : Nat) (x : FwCopy) : Nat :=
  let h := x.header
  if s.fwVerifies cls x then 0
  else if h.length ≠ 128 ∨ leAt h 0 4 ≠ 0x1A574659 ∨ leAt h 4 2 ≠ cls ∨ 1 < leAt h 7 1 ∨ leAt h 0x0C 4 ≠ 0 ∨ leAt h 0x38 72 ≠ 0 then 1
  else if classLimit cls < leAt h 0x10 8 ∨ leAt h 0x10 8 ≠ x.payload.length then 2
  else if leAt h 6 1 < s.fuses.svn cls ∨ 64 < leAt h 6 1 then 3
  else if (h.drop 0x18).take 32 ≠ sha256 x.payload then 4
  else 5

/-- The copy that an update made the next one is active from a cold reset on (R522). DESIGN CHOICE, log entry 24. -/
def FwClass.cold (f : FwClass) : FwClass := if f.nextCold then { f with activeB := !f.activeB, nextCold := false } else f

/-- Verification of one class: the active copy, then the inactive one, with the fallback of R548. Answers whether a copy
verified, and the failure of the active copy where the device fell back. DESIGN CHOICE, log entry 17. -/
def State.bootClass (s : State) (cls : Nat) : Bool × Option Nat × State :=
  let f := tget s.flash {} cls
  let active := if f.activeB then f.b else f.a
  let other := if f.activeB then f.a else f.b
  if s.fwVerifies cls active then (true, none, s)
  else if s.fwVerifies cls other then
    (true, some (s.fwFailure cls active),
      { s with flash := tset s.flash {} cls { f with activeB := !f.activeB }, sec := { s.sec with fallback := true } })
  else (false, none, s)

/-- Slot 5: both vendor key hashes, REVOKE0 and the four rollback fuse counts (R553). -/
def Fuses.measure (f : Fuses) : List Byte :=
  sha256 (padTo 32 f.vendor0 ++ padTo 32 f.vendor1 ++ leBytes 1 (bnum f.revoke0) ++ (List.range 4).flatMap (fun i => leBytes 1 (f.svn (i + 1))))

/-- A class is verified and measured: SECURITY and BUCEL before the controller runs, PHY and RING before they are loaded (R547 to
R549). -/
def State.bootStep (a : List (Nat × Nat) × State) (cls : Nat) : List (Nat × Nat) × State :=
  let s := a.2
  if s.sec.halt then a
  else
    let (ok, fell, s) := s.bootClass cls
    if ok then
      (match fell with | some x => a.1 ++ [(cls, x)] | none => a.1,
        (s.setSlot cls (sha256 (s.activeCopy cls).header)).modSec (fun x => { x with booted := tset x.booted [] cls (s.activeCopy cls).header }))
    else if cls ≤ 2 then (a.1, s.modSec (fun x => { x with halt := true, haltClass := cls }))
    else (a.1, s.modSec (fun x => { x with phyRingBad := true }))

/-- The boot stages of R547; answers the classes that fell back and why. DESIGN CHOICE, log entry 31. -/
def State.boot (s : State) : List (Nat × Nat) × State :=
  let s : State := { s with flash := tmods s.flash {} (s.flash.map (·.1)) (fun _ f => f.cold) }
  let s := (s.setSlot 0 (padTo 32 Config.bootRomHash)).setSlot 5 s.fuses.measure
  ([1, 2, 3, 4] : List Nat).foldl State.bootStep ([], s)

/-! ### The scan of the Life Ledger (R536) -/

/-- Whether a record's own HASH is correct (R534). DEDUCED, log entry 18. -/
def LedgerRecord.hashOk (r : LedgerRecord) : Bool := r.hash == sha256 (({ r with live := true } : LedgerRecord).header ++ r.payload)

/-- How a scan ends: at erased flash, at a torn record, or at a failure with records after it (R536). -/
inductive ScanEnd where
  | erased
  | torn (i off : Nat)
  | broken (off : Nat)
deriving DecidableEq, Repr

/-- The scan from record i on, after a live record with HASH `prev`; dead records and those that a TORN record names are
skipped. DEDUCED, log entry 18. -/
def scanLedger (tornAt : List Nat) : Nat → List Byte → List LedgerRecord → ScanEnd
  | _, _, [] => .erased
  | i, prev, r :: rs =>
    if ¬ r.live ∨ tornAt.contains r.off then scanLedger tornAt (i + 1) prev rs
    else if r.hashOk ∧ r.prev = prev then scanLedger tornAt (i + 1) r.hash rs
    else if rs = [] ∧ ¬ r.hashOk then .torn i r.off
    else .broken r.off

/-- Offsets that TORN records name. DEDUCED, log entry 18. -/
def Ledger.tornAt (l : Ledger) : List Nat := (l.records.filter (fun r => r.live && r.kind == 0x0C && r.hashOk)).map (fun r => leAt r.payload 0 8)

/-- The plan in force: the last PLAN that no later PLAN_RETIRE names (R320). -/
def Ledger.plan (l : Ledger) : Option (List Byte) :=
  (l.records.filter (fun r => r.live && r.hashOk)).foldl (fun (p : Option (List Byte)) r =>
    if r.kind = 3 then some (r.payload.take 64) else if r.kind = 4 ∧ p.isSome ∧ r.payload.take 32 = planHash p then none else p) none

/-- The next leaf: the largest FIRST + COUNT among LMS_RESERVE records whose own HASH is correct (R556). -/
def Ledger.nextLeaf (l : Ledger) : Nat :=
  (l.records.filter (fun r => r.kind == 0x0A && r.hashOk)).foldl (fun m r => max m (leAt r.payload 0 8 + leAt r.payload 8 4)) 0

/-- The scan of a cold boot: head, torn records, a broken chain, and the ledger's state (R536, R540).
DEDUCED, log entry 18. DESIGN CHOICE, log entry 20. -/
def State.scan (s : State) : State :=
  let l := s.ledger
  let base := if l.records.any (fun r => decide (ledgerGeneralEnd ≤ r.off)) then 1 else 0
  let l := { l with state := base, fullLogged := false }
  match scanLedger l.tornAt 0 (List.replicate 32 0) l.records with
  | .erased => { s with ledger := l }
  | .torn i off =>
    let records := match l.records[i]? with | some r => lset l.records i { r with live := false } | none => l.records
    let s : State := { s with ledger := { l with records := records, offset := roundUp 4096 (off + 1) } }
    (s.ledgerAppend 0x0C (fields [(8, off)])).log .ledgerTorn (srcBlock 6) []
  | .broken off => ({ s with ledger := { l with state := 3 } } : State).log .ledgerChainBroken (srcBlock 6) [(8, off)]

/-- Records whose stored bytes have been altered outside the controller no longer verify (R536). -/
def Ledger.alter (l : Ledger) (is : List Nat) : Ledger :=
  { l with records := is.foldl (fun rs i => match rs[i]? with | some r => lset rs i { r with hash := List.replicate 32 0xFF } | none => rs) l.records }

/-! ### The position check (R321) -/

/-- The position state and its event (R317, R321). -/
def State.checkPosition (s : State) : State :=
  let s := if s.dev.strapBad then s.log .strapInvalid (srcBlock 7) [(1, s.dev.badPin)] else s
  let plan := s.ledger.plan
  let s := s.modDev (fun d => { d with plan := plan })
  match plan with
  | none => (s.modDev (fun d => { d with posState := 1 })).log .planMissing (srcBlock 7) []
  | some p =>
    if s.dev.strapBad then s.modDev (fun d => { d with posState := 2 })
    else if fld s.dev.position 0 24 ≠ fld (leAt p 32 4) 0 24 then
      (s.modDev (fun d => { d with posState := 3 })).log .planStrapMismatch (srcBlock 7) [(4, s.dev.position), (4, leAt p 32 4)]
    else s.modDev (fun d => { d with posState := 0 })

/-! ### Rails (R476, R567 to R569) -/

/-- The order in which rails are enabled (R568). -/
def railOrder : List Nat := [1, 2, 3, 4, 5, 6, 7, 8, 9, 10, 11, 12, 13]

/-- A rail's set point is written and its output enabled; the set point of a cluster rail is its fused VMAX (R475, R568).
DESIGN CHOICE, log entry 21. -/
def State.enableRail (s : State) (r : Nat) : State :=
  let s := if isClusterRail r then
      (s.modClock (r - 3) (fun k => { k with volt2 := s.vmax2 (r - 3) })).emit (.avs (r - 3) (s.vmax2 (r - 3) / 2)) else s
  let s : State := { s with rails := { s.rails with enabled := s.rails.enabled ++ [r] } }
  s.emit (.pmbusEnable r)

/-- A reference is missing when its stage needs it: 0 the link reference, 1 the PCIe reference (R567). DEDUCED, log entry 22. -/
def State.refMissing (s : State) (ref : Nat) : State :=
  (s.modDev (fun d => { d with refMissing := d.refMissing ++ [ref], stalled := true })).log .refclkMissing (srcBlock 7) []

/-- Whether every rail of the order has reported power good. -/
def State.railsUp (s : State) : Bool := railOrder.all s.rails.good.contains

/-- Row 7 of R568: the PCIe function answers once PERST# is deasserted, its reference runs and the rails are up. -/
def State.pcieCheck (s : State) : State :=
  if ¬ s.dev.perst ∧ s.railsUp ∧ ¬ s.dev.refMissing.contains 1 then s.modHost (fun h => { h with pcieUp := true }) else s

/-- All rails are up: stage 3, which stops there when neither copy of PHY or RING verified (R548, R568, R570).
DEDUCED, log entry 13. DESIGN CHOICE, log entry 21. -/
def State.railsDone (s : State) : State :=
  (s.modDev (fun d => { d with stage := 3, stalled := s.sec.phyRingBad || !d.refMissing.isEmpty })).pcieCheck

/-- Stage 2 begins: VDD_FAB waits for the link reference (R567). DEDUCED, log entry 13. -/
def State.startRails (s : State) (linkRef : Bool) : State :=
  let s := s.modDev (fun d => { d with stage := 2 })
  if linkRef then s.enableRail 1 else s.refMissing 0

/-! ### Cold reset (R568) -/

/-- COLD_RESET: VDD_AO enters its operating range. `pins` are the three samples of each strap pin in thousandths of VDD_AO,
`linkRef` tells whether the link reference runs, and `altered` names ledger records that no longer verify (R317, R321, R536,
R547, R568). DESIGN CHOICE, log entry 15. -/
def execColdReset (pins : List (List Nat)) (linkRef : Bool) (altered : List Nat) (s : State) : Result :=
  let s := (s.powerLoss.readStraps pins).total 2 1
  let s : State := { s with ledger := s.ledger.alter altered, settle := { s.settle with interrupted := s.dev.passInterrupted } }
  let (fell, s) := s.boot
  if s.sec.halt then .next s
  else
    let s := fell.foldl (fun s x => s.log .bootFallback (srcBlock 5) [(1, x.1), (1, x.2)]) s
    let s := (s.modDev (fun d => { d with stage := 1 })).scan
    let s := s.modSec (fun x => { x with nextLeaf := s.ledger.nextLeaf, leafEnd := s.ledger.nextLeaf })
    let s := s.ledgerAppend 2 (fields ([(4, 0xB1)] ++ (List.range 4).map (fun i => (4, s.build (i + 1))) ++ [(4, s.posWord), (4, 1)]))
    let s := s.checkPosition
    let s := (s.setSlot 6 (planHash s.dev.plan)).placeTime.reidentifyAll
    .next (s.startRails linkRef)

/-! ### Rails, references and PLLs -/

/-- RAIL_POWER_GOOD: the regulator of rail r reports power good; the report of a rail that is below its range is ignored (R594). In bring-up the next rail is enabled (R568); after a
RAIL_FAULT, the cluster's rail is good again and its clock may run (R526). -/
def execRailPowerGood (r : Nat) (s : State) : Result :=
  if s.rails.low.contains r then .next s
  else if s.dev.stage = 2 ∧ ¬ s.dev.railFailed ∧ s.rails.enabled.getLast? = some r ∧ ¬ s.rails.good.contains r then
    let s : State := { s with rails := { s.rails with good := s.rails.good ++ [r] } }
    .next (match railOrder.find? (fun x => !s.rails.enabled.contains x) with | some x => s.enableRail x | none => s.railsDone)
  else if 3 ≤ s.dev.stage ∧ isClusterRail r ∧ s.rails.enabled.contains r ∧ ¬ s.rails.good.contains r then
    let s : State := { s with rails := { s.rails with good := s.rails.good ++ [r] } }
    .next (if s.err.fatal then s else s.modClock (r - 3) (fun k => { k with stopped := false }))
  else .next s

/-- RAIL_ENABLE_TIMEOUT: rail r has not reported power good within 10 ms of its enable, and bring-up stops at stage 2 (R569). -/
def execRailEnableTimeout (r : Nat) (s : State) : Result :=
  if s.dev.stage = 2 ∧ ¬ s.dev.railFailed ∧ s.rails.enabled.getLast? = some r ∧ ¬ s.rails.good.contains r then
    .next ((s.modDev (fun d => { d with railFailed := true, stalled := true })).log .railEnableFail (srcRail r) [(1, r)])
  else .next s

/-- REFCLK_CHECK: a missing reference is checked again; once it runs, the stage that needs it goes on (R567). -/
def execRefclkCheck (ref : Nat) (present : Bool) (s : State) : Result :=
  if present ∧ s.dev.refMissing.contains ref then
    let s := s.modDev (fun d =>
      let left := d.refMissing.filter (· != ref)
      { d with refMissing := left, stalled := d.railFailed || !left.isEmpty || (d.stage == 3 && s.sec.phyRingBad) })
    .next (if ref = 0 ∧ s.dev.stage = 2 ∧ s.rails.enabled = [] then s.enableRail 1 else s.pcieCheck)
  else .next s

/-- PLL_LOCK: the PLLs lock, PHY and RING firmware is loaded, and every vault, IMEM and DMEM word is zero; it stops here without a
verified copy of PHY and of RING (R192, R547, R548, R568, R570). DEDUCED, log entry 13. -/
def execPllLock (s : State) : Result :=
  if s.dev.stage = 3 ∧ ¬ s.sec.phyRingBad then
    let s : State := { s with mem := s.mem.zero dramWindow (2 ^ 48) }
    let s := s.modClusters (fun _ k => { k with seq := k.seq.clearMems })
    .next (s.modDev (fun d => { d with stage := 4 }))
  else .next s

/-! ### DRAM (R196 to R202, R210, R573) -/

/-- Whether a module is of a kind that the device uses (R196). DEDUCED, log entry 22. -/
def Module.supported (m : Module) : Bool := m.x4 && m.ecc && (m.gb == 64 || m.gb == 128 || m.gb == 256)
/-- Whether a module differs from the reference (R197). DEDUCED, log entry 22. -/
def Module.differs (m ref : Module) : Bool := m.gb != ref.gb || m.ranks != ref.ranks || m.fast != ref.fast

/-- What becomes of channel n with module m: used, or ABSENT with its event (R197, R569). DEDUCED, log entry 22. -/
def State.judgeModule (s : State) (ref : Option Module) (n : Nat) (m : Module) : State :=
  if m.supported ∧ ¬ m.trains then s.log .dramTrainFail (srcDdr n) [(1, n)]
  else match ref with
    | some r => if m.differs r then s.log .dimmMismatch (srcDdr n) [(1, n)] else s
    | none => s

/-- The channels of the interleave: the reference module's kind, in rising order (R197, R199). DEDUCED, log entry 23. -/
def usedChannels (ref : Option Module) (xs : List (Nat × Module)) : List Nat :=
  (List.range 24).filter (fun n => xs.any (fun x => x.1 == n && x.2.supported && x.2.trains &&
    (match ref with | some r => !x.2.differs r | none => false)))

/-- A channel after its training: ABSENT outside the interleave; erasure mode holds through a warm reset, and soft repairs have
become hard ones (R206, R208, R210). -/
def Channel.trained (k : Channel) (use warm : Bool) (left : Nat) : Channel :=
  let held := warm && k.erasing
  if use then
    { k with st := if held then 2 else 1, erasing := held, erased := if held then k.erased else 0, pprLeft := left,
             hardRepairs := if warm then k.hardRepairs else [] }
  else { hardRepairs := k.hardRepairs, erasing := held, erased := if held then k.erased else 0 }

/-- The results of training fix the channel list, the module size and the rate (R197 to R199, R204, R205). -/
def State.fixDram (s : State) (xs : List (Nat × Module)) : State :=
  let ref := ((List.range 24).findSome? (fun n => xs.find? (fun x => x.1 == n && x.2.supported && x.2.trains))).map (·.2)
  let s := (List.range 24).foldl (fun (s : State) n =>
    match xs.find? (fun x => x.1 == n) with | some x => s.judgeModule ref n x.2 | none => s) s
  let used := usedChannels ref xs
  let fast := !s.dram.speedCap && !s.dram.cap && used.all (fun n => xs.any (fun x => x.1 == n && x.2.fast)) && !used.isEmpty
  let s := (List.range 24).foldl (fun (s : State) n =>
    s.modChannel n (fun k => k.trained (used.contains n) s.dev.warm (match xs.find? (fun x => x.1 == n) with | some x => x.2.pprLeft | none => 0))) s
  let gb := match ref with | some r => if used.isEmpty then 0 else r.gb | none => 0
  let s : State := { s with dram := { s.dram with used := used, moduleGb := gb, fast := fast, cap := false, selfRefresh := false } }
  if used.length < 24 then s.log .dramDegraded (srcBlock 7) [] else s

/-- DRAM_TRAINING_DONE: every channel has been trained; `xs` gives the module that each occupied channel's SPD and training
report. After a warm reset, DRAM keeps its contents when nothing has changed (R196 to R199, R569, R573). DEDUCED, log entry 13. -/
def execDramTrainingDone (xs : List (Nat × Module)) (s : State) : Result :=
  if s.dev.stage = 4 then
    let s := s.fixDram xs
    let same : Bool := s.dev.warm && decide (s.dev.prevDram = some (s.dram.used, s.dram.moduleGb, s.dram.fast))
    let s := if s.dev.warm ∧ ¬ same then s.log .dramRelayout (srcBlock 7) [] else s
    .next (s.modDev (fun d => { d with stage := 5, zeroed := same || s.dram.used.isEmpty }))
  else .next s

/-- DRAM_ZERO_DONE: every DRAM line has been written with zero and valid check bits (R202). -/
def execDramZeroDone (s : State) : Result :=
  if s.dev.stage = 5 ∧ ¬ s.dev.zeroed then .next (({ s with mem := s.mem.zero 0 dramWindow } : State).modDev (fun d => { d with zeroed := true }))
  else .next s

/-! ### READY (R568, R570) -/

/-- DEVICE_READY: 10 µs after row 9, READY is set and logged, and the reset that ends here logs its entry (R465, R568, R572).
DESIGN CHOICE, log entry 10. DEDUCED, log entry 13. -/
def execDeviceReady (s : State) : Result :=
  if s.dev.stage = 5 ∧ s.dev.zeroed ∧ ¬ s.dev.ready then
    let s := s.reach (s.aoNs + 10000)
    let ms := (s.aoNs - s.dev.resetAt) / 1000000
    let d := s.dev
    let s := s.modDev (fun d => { d with stage := 6, ready := true, readyMs := ms, warm := false, prevDram := none, passInterrupted := false, tally := (0, 0, 0) })
    let s := (s.modClusters (fun _ k => { k with clock := { k.clock with since := s.aoNs } })).modPwr (fun p => { p with idleFrom := s.aoNs })
    let s := (s.modPwr (fun p => { p with lock := true })).log .deviceReady (srcBlock 7) [(4, ms)]
    .next (s.resetEvent (if d.warm then 2 else 1) (srcBlock 7) d.passInterrupted d.tally.1 d.tally.2.1 d.tally.2.2)
  else .next s

/-- ROLLBACK_FUSE_BLOW: after READY, the fuses of a class are blown up to the SVN with which it booted, and REVOKE0 when that
image carries REVOKE (R543, R546). DESIGN CHOICE, log entry 24. -/
def execRollbackFuseBlow (cls : Nat) (s : State) : Result :=
  let h := tget s.sec.booted [] cls
  let svn := leAt h 6 1
  if s.dev.ready ∧ h ≠ [] then
    let s : State := if bit (leAt h 7 1) 0 then { s with fuses := { s.fuses with revoke0 := true } } else s
    if s.fuses.svn cls < svn then
      .next (({ s with fuses := { s.fuses with rollback := tset s.fuses.rollback 0 cls svn } } : State).log .rollbackFuseBlown (srcBlock 5) [(1, cls), (4, svn)])
    else .next s
  else .next s

/-- PERST_DEASSERT: PERST# is deasserted; the function answers once the rails are up, or waits for the PCIe reference (R567,
R568). DEDUCED, log entry 25. -/
def execPerstDeassert (pcieRef : Bool) (s : State) : Result :=
  let s := s.modDev (fun d => { d with perst := false })
  if pcieRef then .next s.pcieCheck else if s.dev.refMissing.contains 1 then .next s else .next (s.refMissing 1)

/-! ### Resets (R572 to R580) -/

/-- WARM_RESET: PERST# is asserted, or WARM is written, or the host ends the fatal state (R572, R573). DEDUCED, log entry 25. -/
def execWarmReset (perst : Bool) (s : State) : Result :=
  let s := if perst then (s.modDev (fun d => { d with perst := true })).modHost (fun h => { h with pcieUp := false }) else s
  .next s.warmReset

/-- FUNCTION_LEVEL_RESET (R574); a wider reset in progress absorbs it (R578). DEDUCED, log entry 25. -/
def execFunctionLevelReset (s : State) : Result := if s.dev.ready ∨ s.dev.scrubbing then .next s.flr else .next s

/-- FLR_SCRUB_DONE: the DRAM scrub of a function-level reset has ended (R446, R574). -/
def execFlrScrubDone (s : State) : Result :=
  if s.dev.scrubbing then .next (({ s with mem := s.mem.zero 0 dramWindow } : State).modDev (fun d => { d with scrubbing := false, ready := true })) else .next s

/-- SLICE_RESET: SLICE in HIF_RESET_CTRL (R575, R580). -/
def execSliceReset (s : State) : Result := if s.dev.ready then .next s.sliceResetHere else .next s

/-- CLUSTER_RESET of cluster c (R576, R580). -/
def execClusterReset (c : Nat) (s : State) : Result := if s.dev.ready ∧ c < 8 then .next (s.clusterReset c) else .next s

/-- CORE_RESET of physical core p (R576, R580). -/
def execCoreReset (p : Nat) (s : State) : Result := if s.dev.ready ∧ p < 96 then .next (s.coreReset p) else .next s

/-- PORT_RESET of port n (R576, R580). -/
def execPortReset (n : Nat) (s : State) : Result := if s.dev.ready ∧ n < 8 then .next (s.portReset n) else .next s

end Sys2Proof.Machine
end

