-- ==== Sys2Proof/Machine/Dispatch.lean ====
section
/-!
DEFINITION. One arm per command: a direct call of its meaning.
-/
namespace Sys2Proof.Machine

/-- The effect of a command on everything but the queue. -/
def exec (i : Instr) (s : State) : Host.Outcome State Fault Refusal :=
  match i with
  | .coldReset pins linkRef altered => Sys2Proof.Machine.execColdReset pins linkRef altered s
  | .railPowerGood r => Sys2Proof.Machine.execRailPowerGood r s
  | .railEnableTimeout r => Sys2Proof.Machine.execRailEnableTimeout r s
  | .pllLock => Sys2Proof.Machine.execPllLock s
  | .refclkCheck ref present => Sys2Proof.Machine.execRefclkCheck ref present s
  | .dramTrainingDone xs => Sys2Proof.Machine.execDramTrainingDone xs s
  | .dramZeroDone => Sys2Proof.Machine.execDramZeroDone s
  | .deviceReady => Sys2Proof.Machine.execDeviceReady s
  | .rollbackFuseBlow cls => Sys2Proof.Machine.execRollbackFuseBlow cls s
  | .perstDeassert pcieRef => Sys2Proof.Machine.execPerstDeassert pcieRef s
  | .warmReset perst => Sys2Proof.Machine.execWarmReset perst s
  | .functionLevelReset => Sys2Proof.Machine.execFunctionLevelReset s
  | .flrScrubDone => Sys2Proof.Machine.execFlrScrubDone s
  | .sliceReset => Sys2Proof.Machine.execSliceReset s
  | .clusterReset c => Sys2Proof.Machine.execClusterReset c s
  | .coreReset p => Sys2Proof.Machine.execCoreReset p s
  | .portReset n => Sys2Proof.Machine.execPortReset n s
  | .doorbellPoll x pi ci => Sys2Proof.Machine.execDoorbellPoll x pi ci s
  | .lnMessage x pi ci => Sys2Proof.Machine.execLnMessage x pi ci s
  | .descriptorFetch n raw => Sys2Proof.Machine.execDescriptorFetch n raw s
  | .dispatch n => Sys2Proof.Machine.execDispatch n s
  | .msixAgeExpiry v => Sys2Proof.Machine.execMsixAgeExpiry v s
  | .ringEnable x v => Sys2Proof.Machine.execRingEnable x v s
  | .ringReset x => Sys2Proof.Machine.execRingReset x s
  | .bar2Read off n ecc => Sys2Proof.Machine.execBar2Read off n ecc s
  | .bar2Write off data poisoned => Sys2Proof.Machine.execBar2Write off data poisoned s
  | .registerWrite agent a n v => Sys2Proof.Machine.execRegisterWrite agent a n v s
  | .jobLoad d image ecc => Sys2Proof.Machine.execJobLoad d image ecc s
  | .jobUnload d => Sys2Proof.Machine.execJobUnload d s
  | .sliceSet d => Sys2Proof.Machine.execSliceSet d s
  | .runStep d => Sys2Proof.Machine.execRunStep d s
  | .runLayers d => Sys2Proof.Machine.execRunLayers d s
  | .dmaCopy d data poison ecc => Sys2Proof.Machine.execDmaCopy d data poison ecc s
  | .settleConfigJob d data ecc => Sys2Proof.Machine.execSettleConfigJob d data ecc s
  | .settleConfigRows d data ecc => Sys2Proof.Machine.execSettleConfigRows d data ecc s
  | .settleConfigInvalidate d => Sys2Proof.Machine.execSettleConfigInvalidate d s
  | .settleConfigRefresh d ecc => Sys2Proof.Machine.execSettleConfigRefresh d ecc s
  | .collectivePlan d data ecc => Sys2Proof.Machine.execCollectivePlan d data ecc s
  | .fence d => Sys2Proof.Machine.execFence d s
  | .preempt d => Sys2Proof.Machine.execPreempt d s
  | .preemptTakeEffect ecc => Sys2Proof.Machine.execPreemptTakeEffect ecc s
  | .resume d ecc => Sys2Proof.Machine.execResume d ecc s
  | .reconcileAccept d => Sys2Proof.Machine.execReconcileAccept d s
  | .reconcileFence d => Sys2Proof.Machine.execReconcileFence d s
  | .reconcileEnable d => Sys2Proof.Machine.execReconcileEnable d s
  | .query d => Sys2Proof.Machine.execQuery d s
  | .statementReq d => Sys2Proof.Machine.execStatementReq d s
  | .proxyRequest p => Sys2Proof.Machine.execProxyRequest p s
  | .proxyResponse tag arrived => Sys2Proof.Machine.execProxyResponse tag arrived s
  | .lcbStore c t target word v => Sys2Proof.Machine.execLcbStore c t target word v s
  | .layerStart c t target buffers ahead ecc => Sys2Proof.Machine.execLayerStart c t target buffers ahead ecc s
  | .layerWait c t mask => Sys2Proof.Machine.execLayerWait c t mask s
  | .mxeIssue p dt ecc parity => Sys2Proof.Machine.execMxeIssue p dt ecc parity s
  | .finishedTileDrain p j ecc parity => Sys2Proof.Machine.execFinishedTileDrain p j ecc parity s
  | .tileOperation p k dt op ecc parity => Sys2Proof.Machine.execTileOperation p k dt op ecc parity s
  | .loadLand p k dt j ecc => Sys2Proof.Machine.execLoadLand p k dt j ecc s
  | .layerComplete p => Sys2Proof.Machine.execLayerComplete p s
  | .hwmClear c t k v => Sys2Proof.Machine.execHwmClear c t k v s
  | .seqTableWrite c t slot high v => Sys2Proof.Machine.execSeqTableWrite c t slot high v s
  | .seqTableCommit c t v => Sys2Proof.Machine.execSeqTableCommit c t v s
  | .lossRead c t slot => Sys2Proof.Machine.execLossRead c t slot s
  | .lossClear c t slot v => Sys2Proof.Machine.execLossClear c t slot v s
  | .timerWait c t n v => Sys2Proof.Machine.execTimerWait c t n v s
  | .timerExpiry c => Sys2Proof.Machine.execTimerExpiry c s
  | .seqCompletion c t word => Sys2Proof.Machine.execSeqCompletion c t word s
  | .programNote c t bytes => Sys2Proof.Machine.execProgramNote c t bytes s
  | .seqAddressFault c t => Sys2Proof.Machine.execSeqAddressFault c t s
  | .seqInstructionFault c t => Sys2Proof.Machine.execSeqInstructionFault c t s
  | .debugHalt c => Sys2Proof.Machine.execDebugHalt c s
  | .debugResume c => Sys2Proof.Machine.execDebugResume c s
  | .deposit c who t q coin => Sys2Proof.Machine.execDeposit c who t q coin s
  | .take c who t q => Sys2Proof.Machine.execTake c who t q s
  | .takeNArm c t q n => Sys2Proof.Machine.execTakeNArm c t q n s
  | .takeN c who t q n => Sys2Proof.Machine.execTakeN c who t q n s
  | .peek c who t q => Sys2Proof.Machine.execPeek c who t q s
  | .bell c who t q coin n => Sys2Proof.Machine.execBell c who t q coin n s
  | .remoteCoinGo c who t target coin load => Sys2Proof.Machine.execRemoteCoinGo c who t target coin load s
  | .coinPacket p => Sys2Proof.Machine.execCoinPacket p s
  | .coinReply p => Sys2Proof.Machine.execCoinReply p s
  | .coinWaitTimeout c q j => Sys2Proof.Machine.execCoinWaitTimeout c q j s
  | .coinGuardExpiry j => Sys2Proof.Machine.execCoinGuardExpiry j s
  | .sealDeposit src channel => Sys2Proof.Machine.execSealDeposit src channel s
  | .vaultScrub v reports => Sys2Proof.Machine.execVaultScrub v reports s
  | .vaultSpareDone v bad => Sys2Proof.Machine.execVaultSpareDone v bad s
  | .dramPatrolScrub n lines reports => Sys2Proof.Machine.execDramPatrolScrub n lines reports s
  | .dramTrackingUpdate n margins low found => Sys2Proof.Machine.execDramTrackingUpdate n margins low found s
  | .softPpr n exhausted left => Sys2Proof.Machine.execSoftPpr n exhausted left s
  | .remoteWrite p => Sys2Proof.Machine.execRemoteWrite p s
  | .readReq p ecc => Sys2Proof.Machine.execReadReq p ecc s
  | .readRsp p => Sys2Proof.Machine.execReadRsp p s
  | .readErr p => Sys2Proof.Machine.execReadErr p s
  | .readTimeout handle => Sys2Proof.Machine.execReadTimeout handle s
  | .landing l ecc => Sys2Proof.Machine.execLanding l ecc s
  | .settleContribution faults ecc => Sys2Proof.Machine.execSettleContribution faults ecc s
  | .settleWalkEnd ecc => Sys2Proof.Machine.execSettleWalkEnd ecc s
  | .stmtTimeout => Sys2Proof.Machine.execStmtTimeout s
  | .spikeReset => Sys2Proof.Machine.execSpikeReset s
  | .collectiveStart c t j micro last ecc => Sys2Proof.Machine.execCollectiveStart c t j micro last ecc s
  | .reduceSegment p fault ecc => Sys2Proof.Machine.execReduceSegment p fault ecc s
  | .gatherSegment p => Sys2Proof.Machine.execGatherSegment p s
  | .collectiveEnd j ecc => Sys2Proof.Machine.execCollectiveEnd j ecc s
  | .statementCombine p faults ecc => Sys2Proof.Machine.execStatementCombine p faults ecc s
  | .statementBroadcast p faults ecc => Sys2Proof.Machine.execStatementBroadcast p faults ecc s
  | .pointBarrierCombine n arrived => Sys2Proof.Machine.execPointBarrierCombine n arrived s
  | .pointBarrierBroadcast p => Sys2Proof.Machine.execPointBarrierBroadcast p s
  | .packetFrame n blocks fecOk mem => Sys2Proof.Machine.execPacketFrame n blocks fecOk mem s
  | .ack n ack => Sys2Proof.Machine.execAck n ack s
  | .nak n expected ack => Sys2Proof.Machine.execNak n expected ack s
  | .ackTimeout n => Sys2Proof.Machine.execAckTimeout n s
  | .credit n vc totals ack => Sys2Proof.Machine.execCredit n vc totals ack s
  | .creditQuery n ack => Sys2Proof.Machine.execCreditQuery n ack s
  | .creditLate n => Sys2Proof.Machine.execCreditLate n s
  | .keepalive n ack => Sys2Proof.Machine.execKeepalive n ack s
  | .keepaliveSend n => Sys2Proof.Machine.execKeepaliveSend n s
  | .linkPartnerLost n => Sys2Proof.Machine.execLinkPartnerLost n s
  | .signalDetect n => Sys2Proof.Machine.execSignalDetect n s
  | .linkUp n mode half floors calTx calRx => Sys2Proof.Machine.execLinkUp n mode half floors calTx calRx s
  | .trainingTimeout n => Sys2Proof.Machine.execTrainingTimeout n s
  | .trainingRetry n => Sys2Proof.Machine.execTrainingRetry n s
  | .retrain n => Sys2Proof.Machine.execRetrain n s
  | .forceKeepalive n v => Sys2Proof.Machine.execForceKeepalive n v s
  | .keepaliveIdle n => Sys2Proof.Machine.execKeepaliveIdle n s
  | .power n request ack => Sys2Proof.Machine.execPower n request ack s
  | .keepaliveExit n => Sys2Proof.Machine.execKeepaliveExit n s
  | .laneSample n xs => Sys2Proof.Machine.execLaneSample n xs s
  | .laneFail n l cause => Sys2Proof.Machine.execLaneFail n l cause s
  | .spareReq n l ack => Sys2Proof.Machine.execSpareReq n l ack s
  | .spareAck n l cw ack => Sys2Proof.Machine.execSpareAck n l cw ack s
  | .spareSwitch n => Sys2Proof.Machine.execSpareSwitch n s
  | .sparingDone n => Sys2Proof.Machine.execSparingDone n s
  | .sparingTimeout n => Sys2Proof.Machine.execSparingTimeout n s
  | .width n mode half isAck cw ack => Sys2Proof.Machine.execWidth n mode half isAck cw ack s
  | .eq n l request tap ack => Sys2Proof.Machine.execEq n l request tap ack s
  | .eqStep n l tap up own => Sys2Proof.Machine.execEqStep n l tap up own s
  | .timeExchange at16 => Sys2Proof.Machine.execTimeExchange at16 s
  | .timeReq n exchange at16 send16 ack => Sys2Proof.Machine.execTimeReq n exchange at16 send16 ack s
  | .timeRsp n exchange t2 t3 t4 ack => Sys2Proof.Machine.execTimeRsp n exchange t2 t3 t4 ack s
  | .identity n p => Sys2Proof.Machine.execIdentity n p s
  | .identityRepeat n => Sys2Proof.Machine.execIdentityRepeat n s
  | .identityTimeout n => Sys2Proof.Machine.execIdentityTimeout n s
  | .reidentify n => Sys2Proof.Machine.execReidentify n s
  | .partnerMissing n => Sys2Proof.Machine.execPartnerMissing n s
  | .sliceNotice n p => Sys2Proof.Machine.execSliceNotice n p s
  | .routeStall n ch vc => Sys2Proof.Machine.execRouteStall n ch vc s
  | .drain v => Sys2Proof.Machine.execDrain v s
  | .detourWrite t e v => Sys2Proof.Machine.execDetourWrite t e v s
  | .purseRefillTick => Sys2Proof.Machine.execPurseRefillTick s
  | .rateRecompute => Sys2Proof.Machine.execRateRecompute s
  | .thermalSample ts => Sys2Proof.Machine.execThermalSample ts s
  | .paceRound => Sys2Proof.Machine.execPaceRound s
  | .paceCombine p => Sys2Proof.Machine.execPaceCombine p s
  | .paceBroadcast p => Sys2Proof.Machine.execPaceBroadcast p s
  | .powerBrake => Sys2Proof.Machine.execPowerBrake s
  | .powerBrakeRelease => Sys2Proof.Machine.execPowerBrakeRelease s
  | .clockGate c => Sys2Proof.Machine.execClockGate c s
  | .powerGate c => Sys2Proof.Machine.execPowerGate c s
  | .clusterWake c => Sys2Proof.Machine.execClusterWake c s
  | .holdRun c v => Sys2Proof.Machine.execHoldRun c v s
  | .deepIdleEntry => Sys2Proof.Machine.execDeepIdleEntry s
  | .deepIdleExit => Sys2Proof.Machine.execDeepIdleExit s
  | .avsUpdate c up margin ok => Sys2Proof.Machine.execAvsUpdate c up margin ok s
  | .droopDetect c => Sys2Proof.Machine.execDroopDetect c s
  | .regulatorRead xs => Sys2Proof.Machine.execRegulatorRead xs s
  | .railUndervoltage r => Sys2Proof.Machine.execRailUndervoltage r s
  | .railFault r report => Sys2Proof.Machine.execRailFault r report s
  | .cdcTimeout domain addr cmd => Sys2Proof.Machine.execCdcTimeout domain addr cmd s
  | .stateCompare => Sys2Proof.Machine.execStateCompare s
  | .coreWatchdog p => Sys2Proof.Machine.execCoreWatchdog p s
  | .seqWatchdog c => Sys2Proof.Machine.execSeqWatchdog c s
  | .bucelRestart => Sys2Proof.Machine.execBucelRestart s
  | .securityAlarm sensor => Sys2Proof.Machine.execSecurityAlarm sensor s
  | .injectArm ctrl addr => Sys2Proof.Machine.execInjectArm ctrl addr s
  | .statementTake => Sys2Proof.Machine.execStatementTake s
  | .ledgerCounters fails => Sys2Proof.Machine.execLedgerCounters fails s
  | .ledgerDaily fails => Sys2Proof.Machine.execLedgerDaily fails s
  | .setEndpointId b waiting eid => Sys2Proof.Machine.execSetEndpointId b waiting eid s
  | .dynamicAddressAssign addr => Sys2Proof.Machine.execDynamicAddressAssign addr s
  | .statementGet b waiting body => Sys2Proof.Machine.execStatementGet b waiting body s
  | .daybookRead b waiting body => Sys2Proof.Machine.execDaybookRead b waiting body s
  | .ledgerRead b waiting body => Sys2Proof.Machine.execLedgerRead b waiting body s
  | .ledgerStatus b waiting body => Sys2Proof.Machine.execLedgerStatus b waiting body s
  | .unitStateRead b waiting body => Sys2Proof.Machine.execUnitStateRead b waiting body s
  | .setPermission b waiting body => Sys2Proof.Machine.execSetPermission b waiting body s
  | .setPowerLimit b waiting body => Sys2Proof.Machine.execSetPowerLimit b waiting body s
  | .setPurseDepth b waiting body => Sys2Proof.Machine.execSetPurseDepth b waiting body s
  | .planWrite b waiting body => Sys2Proof.Machine.execPlanWrite b waiting body s
  | .planRetire b waiting body => Sys2Proof.Machine.execPlanRetire b waiting body s
  | .regRead b waiting body => Sys2Proof.Machine.execRegRead b waiting body s
  | .attestGet b waiting body => Sys2Proof.Machine.execAttestGet b waiting body s
  | .treeBuildDone => Sys2Proof.Machine.execTreeBuildDone s
  | .challenge b waiting => Sys2Proof.Machine.execChallenge b waiting s
  | .present b waiting token key sig => Sys2Proof.Machine.execPresent b waiting token key sig s
  | .relinquish b waiting => Sys2Proof.Machine.execRelinquish b waiting s
  | .nonceExpiry => Sys2Proof.Machine.execNonceExpiry s
  | .rightExpiry maintenance => Sys2Proof.Machine.execRightExpiry maintenance s
  | .setEventReceiver b waiting mask => Sys2Proof.Machine.execSetEventReceiver b waiting mask s
  | .platformEventRetry k => Sys2Proof.Machine.execPlatformEventRetry k s
  | .getSensorReading b waiting id => Sys2Proof.Machine.execGetSensorReading b waiting id s
  | .requestUpdate b waiting cls => Sys2Proof.Machine.execRequestUpdate b waiting cls s
  | .verifyComplete b waiting image => Sys2Proof.Machine.execVerifyComplete b waiting image s
  | .activateFirmware b waiting => Sys2Proof.Machine.execActivateFirmware b waiting s
  | .aoPowerLoss torn => Sys2Proof.Machine.execAoPowerLoss torn s
  | .railRecovery r => Sys2Proof.Machine.execRailRecovery r s
  | .seqMemUncorrected c => Sys2Proof.Machine.execSeqMemUncorrected c s
  | .bucelRestartComplete => Sys2Proof.Machine.execBucelRestartComplete s
  | .widthSwitch n => Sys2Proof.Machine.execWidthSwitch n s
  | .registerRead agent a n => Sys2Proof.Machine.execRegisterRead agent a n s
  | .msixVectorUnmask v => Sys2Proof.Machine.execMsixVectorUnmask v s
  | .platformEventAck k => Sys2Proof.Machine.execPlatformEventAck k s
  | .hostLinkError corrected => Sys2Proof.Machine.execHostLinkError corrected s

end Sys2Proof.Machine
end

