-- ==== Sys2Proof/Machine/Step.lean ====
section
/-!
DEFINITION. One step of the block: the command at the front of the queue, or idling on an empty queue.
-/
set_option autoImplicit false
namespace Sys2Proof.Machine

/-- The front command runs with the rest of the queue; an empty queue idles (DESIGN CHOICE, log entry 1). DESIGN CHOICE, log entry 76. -/
def step (s : State) : Host.Outcome State Fault Refusal :=
  match s.pending with
  | [] => .next s
  | c :: rest => exec c { s with pending := rest }

/-- The command that a word of the table spells, put at the front of the queue. DESIGN CHOICE, log entry 9. -/
def State.withFetchWord (s : State) (nbits w : Nat) : State :=
  match decodeTableWord nbits w with
  | some c => { s with pending := c :: s.pending }
  | none => s

end Sys2Proof.Machine
end

