-- ==== Sys2Proof/Safety.lean ====
section
/-!
DEFINITION. What the statements about the whole machine are made of: a command that completes, memories in canonical form, and a
ledger that only grows.
-/
set_option autoImplicit false
namespace Sys2Proof.Machine

/-- The result is a next state, and that state satisfies P. -/
def Answers (r : Host.Outcome State Fault Refusal) (P : State → Prop) : Prop := ∃ t, r = .next t ∧ P t

/-- The memory, and the vaults of a saved context, are in their canonical form. -/
def State.memoryOk (s : State) : Prop :=
  s.mem.wf = true ∧ ∀ x, s.saved = some x → tabWf (0 : Byte) x.vaults = true ∧ tabWf false x.vaultPoison = true

/-- What a ledger record says, apart from its HASH and its MARK (R534). -/
structure RecordCore where
  kind    : Nat
  seq     : Nat
  lifeS   : Nat
  time    : Nat
  prev    : List Byte
  payload : List Byte
  off     : Nat
deriving DecidableEq, Repr

def LedgerRecord.core (r : LedgerRecord) : RecordCore := ⟨r.kind, r.seq, r.lifeS, r.time, r.prev, r.payload, r.off⟩
/-- The records of a ledger, in the order in which they were written. -/
def Ledger.cores (l : Ledger) : List RecordCore := l.records.map LedgerRecord.core

/-- The fields of State, as names. -/
inductive Part where
  | pending | aoNs | devOff | free | out | fuses | flash | ledger | dev | err | host | job | saved | preempt | preempts | clusters | cores | units | hwm | mem | dram | settle | dec | col | ports | time | rtr | pwr | rails | mgmt | tel | sec | latches
deriving DecidableEq, Repr

/-- One field is the same in two states. -/
def Part.same (p : Part) (s t : State) : Prop :=
  match p with
  | .pending => t.pending = s.pending
  | .aoNs => t.aoNs = s.aoNs
  | .devOff => t.devOff = s.devOff
  | .free => t.free = s.free
  | .out => t.out = s.out
  | .fuses => t.fuses = s.fuses
  | .flash => t.flash = s.flash
  | .ledger => t.ledger = s.ledger
  | .dev => t.dev = s.dev
  | .err => t.err = s.err
  | .host => t.host = s.host
  | .job => t.job = s.job
  | .saved => t.saved = s.saved
  | .preempt => t.preempt = s.preempt
  | .preempts => t.preempts = s.preempts
  | .clusters => t.clusters = s.clusters
  | .cores => t.cores = s.cores
  | .units => t.units = s.units
  | .hwm => t.hwm = s.hwm
  | .mem => t.mem = s.mem
  | .dram => t.dram = s.dram
  | .settle => t.settle = s.settle
  | .dec => t.dec = s.dec
  | .col => t.col = s.col
  | .ports => t.ports = s.ports
  | .time => t.time = s.time
  | .rtr => t.rtr = s.rtr
  | .pwr => t.pwr = s.pwr
  | .rails => t.rails = s.rails
  | .mgmt => t.mgmt = s.mgmt
  | .tel => t.tel = s.tel
  | .sec => t.sec = s.sec
  | .latches => t.latches = s.latches

/-- Nothing has changed outside the listed fields. -/
def SameBut (ps : List Part) (s t : State) : Prop := ∀ p, p ∉ ps → p.same s t

/-- The sequencer of cluster c issues the instruction of a command: it runs, it waits at no point barrier and at no pre-emption
boundary, it has a clock, and the instruction is not poisoned (R157, R159, R213, R455, R456, R497, R499). -/
abbrev SeqIssues (s : State) (c : Nat) (t : Tick) : Prop :=
  c < 8 ∧ (s.cluster c).seq.st = .running ∧ s.col.pointWait = false ∧ (s.cluster c).clock.stopped = false ∧
    (s.stopsDevice = true → s.layersRun c = true) ∧ (s.cluster c).seq.imemBad.contains (t.pc % 2 ^ 18 / 64) = false

/-- A requester of cluster c issues a coin operation, and the instruction of a sequencer's is not poisoned (R157, R159, R176, R213, R405). -/
abbrev ReqIssues (s : State) (c : Nat) (who : Requester) (t : Tick) : Prop :=
  s.ownIssues c who = true ∧ (who = .sequencer → (s.cluster c).seq.imemBad.contains (t.pc % 2 ^ 18 / 64) = false)

/-- The controller takes a request on a binding: it runs, fewer than four requests wait there, and it has an EID (R515, R517, R518). -/
abbrev Served (s : State) (b waiting : Nat) : Prop := s.bucelRuns = true ∧ b < 3 ∧ waiting < 4 ∧ s.mgmt.eid ≠ 0

/-- The blocks of a frame that left on port n, whatever block number it began at and whichever lanes it took (R283). -/
def blocksOn (n : Nat) : Out → Option (List Block)
  | .frame k _ lanes => if k = n then some (lanes.map (·.2)) else none
  | _ => none
/-- Outputs are these frames on port n, in order. -/
def FramesOn (n : Nat) (fs : List Frame) (os : List Out) : Prop := os.map (blocksOn n) = fs.map (fun f => some f.blocks)
/-- The last thing that left the device are the blocks of a frame on port n, and nothing that had left before is taken back. -/
def SendsFrame (n : Nat) (f : Frame) (s t : State) : Prop := ∃ before os, t.out = s.out ++ before ++ os ∧ FramesOn n [f] os
/-- The last thing that left the device is a control frame of a type on port n, and nothing that had left before is taken back. -/
def SendsCtl (n type : Nat) (s t : State) : Prop := ∃ vc ack body, SendsFrame n (.control type vc ack body) s t

/-- A coordinate whose four parts fit the position word (R316). -/
def Coord.fits (c : Coord) : Bool := decide (c.w < 64 ∧ c.x < 64 ∧ c.y < 64 ∧ c.z < 64)

/-- A packet as a device forms it: each field within its width, LEN at most 8,192, a map exactly where it marks a unit, and HCRC
right (R337, R338). -/
def Packet.sendable (p : Packet) : Bool :=
  decide (p.channel < 8 ∧ p.kind < 16 ∧ p.addr < 2 ^ 48 ∧ p.payload.length ≤ 8192) && p.dest.fits && p.src.fits &&
  (match p.sealExt with | some (coin, q, c) => decide (coin < 2 ^ 32 ∧ q < 256 ∧ c < 2 ^ 24) | none => true) &&
  p.poison == (List.range 128).filter (fun u => p.poison.contains u) && !p.pmap && p.badHcrc.isNone && p.lenOk

/-- The last entry of the Day Book is one of class c and source src, written since s: the Day Book's next number has gone up by one
(R501, R502). -/
def Logged (s t : State) (c : EventClass) (src : Nat) : Prop :=
  ∃ e, t.err.dayBook.getLast? = some e ∧ e.cls = c ∧ e.source = src ∧ e.seq = s.err.nextSeq ∧ t.err.nextSeq = (s.err.nextSeq + 1) % 65536

/-- A queue after coins are appended as one operation: head waiters are released, then up to 64 coins are kept (R407, R409). -/
def Queue.put (q : Queue) (coins : List W32) : Queue :=
  let x := ({ q with coins := q.coins ++ coins } : Queue).release q.waiters.length
  { x.2 with coins := x.2.coins.take 64 }
/-- The queues of cluster c take operations: no reset window is open and they are not saved (R422 to R424). -/
abbrev QueuesOpen (s : State) (c : Nat) : Prop := (s.cluster c).resetWindow = false ∧ (s.cluster c).saved = false
/-- The last result that a requester of cluster c got from a queue of its own cluster (R411). -/
def State.coinResult (s : State) (c : Nat) : Requester → CoinResult
  | .sequencer => (s.cluster c).coin.result
  | .context pos i => (tget (s.core (c * 12 + pos)).ctxs {} i).coin
  | .outside _ _ _ => {}

/-- From state u on, descriptor d has completed with a status, a RESULT and a DETAIL: it is in flight no more, and its completion entry has
gone to host memory, or waits in order while its ring is full (R437, R441, R448, R449, R452). -/
def Completed (u t : State) (d : Desc) (st : Status) (result detail : Nat) : Prop :=
  ∃ c : Completion, c.tag = d.tag ∧ c.status = st ∧ c.opcode = d.opcode ∧ c.result = result ∧ c.detail = detail ∧
    t.host.inflight = u.host.inflight.erase d ∧
    if (u.ring d.ring).full = true ∨ (u.ring d.ring).heldComps ≠ [] then (t.ring d.ring).heldComps = (u.ring d.ring).heldComps ++ [c] ∧ t.out = u.out
    else ∃ after, t.out = u.out ++ .hostWrite ((u.ring d.ring).slot 32) (c.bytes (u.ring d.ring).fetched (u.ring d.ring).phase) false :: after

/-- The fields that an event changes: the Day Book, the ledger, the event ring and the management plane, and what leaves the device
(R501, R502, R534). -/
def eventParts : List Part := [.out, .ledger, .err, .host, .mgmt]

/-- The fields of State that a command may change; it changes no other. -/
def touches (c : Instr) : List Part :=
  match c with
  | .coldReset .. => eventParts ++ [.aoNs, .devOff, .flash, .dev, .job, .saved, .preempt, .preempts, .clusters, .cores, .units, .hwm, .mem, .dram, .settle, .dec, .col, .ports, .time, .rtr, .pwr, .rails, .tel, .sec, .latches]
  | .railPowerGood .. | .refclkCheck .. => [.out, .dev, .host, .clusters, .rails]
  | .railEnableTimeout .. | .perstDeassert .. => eventParts ++ [.dev]
  | .pllLock .. => [.dev, .clusters, .mem]
  | .dramTrainingDone .. => eventParts ++ [.dev, .dram]
  | .dramZeroDone .. | .flrScrubDone .. => [.dev, .mem]
  | .deviceReady .. => eventParts ++ [.aoNs, .dev, .clusters, .pwr]
  | .rollbackFuseBlow .. => eventParts ++ [.fuses]
  | .warmReset .. | .registerWrite .. => eventParts ++ [.aoNs, .devOff, .dev, .job, .saved, .preempt, .preempts, .clusters, .cores, .units, .hwm, .mem, .dram, .settle, .dec, .col, .ports, .time, .rtr, .pwr, .rails, .tel, .sec, .latches]
  | .functionLevelReset .. => eventParts ++ [.dev, .job, .saved, .preempt, .preempts, .clusters, .cores, .units, .mem, .dram, .settle, .dec, .col, .ports, .rtr, .rails, .tel, .sec]
  | .sliceReset .. => eventParts ++ [.dev, .clusters, .cores, .units, .mem, .dram, .settle, .dec, .col, .ports, .rtr, .pwr, .rails, .tel]
  | .clusterReset .. | .deposit .. | .take .. | .takeN .. | .peek .. | .bell .. | .remoteCoinGo .. | .seqWatchdog .. => eventParts ++ [.aoNs, .dev, .clusters, .cores, .units, .col, .ports, .rtr, .pwr, .rails, .tel]
  | .coreReset .. | .coreWatchdog .. => eventParts ++ [.dev, .clusters, .cores, .units, .mem, .dram, .col, .ports, .rtr, .pwr, .tel]
  | .portReset .. => eventParts ++ [.aoNs, .devOff, .dev, .clusters, .cores, .units, .mem, .dram, .settle, .dec, .col, .ports, .time, .rtr]
  | .doorbellPoll .. | .lnMessage .. | .routeStall .. | .bucelRestart .. | .injectArm .. | .bucelRestartComplete .. => eventParts
  | .descriptorFetch .. => [.aoNs, .host, .dram, .pwr, .mgmt]
  | .dispatch .. => eventParts ++ [.aoNs, .devOff, .clusters, .cores, .mem, .dram, .settle, .ports, .time, .rtr, .tel]
  | .msixAgeExpiry .. => [.aoNs, .out, .host, .mgmt]
  | .ringEnable .. | .fence .. | .msixVectorUnmask .. => [.out, .host]
  | .ringReset .. => [.host]
  | .bar2Read .. => eventParts ++ [.aoNs, .free, .clusters, .cores, .units, .mem, .dram, .col, .ports, .rtr, .pwr, .tel]
  | .bar2Write .. => eventParts ++ [.aoNs, .mem, .dram, .pwr]
  | .jobLoad .. => eventParts ++ [.job, .clusters, .cores, .units, .mem, .dram, .col, .ports, .rtr, .pwr, .tel, .sec]
  | .jobUnload .. => [.out, .host, .job, .saved, .preempt, .clusters, .cores, .mem, .settle, .dec, .col, .sec]
  | .sliceSet .. => [.out, .host, .dec, .col, .rtr, .pwr]
  | .runStep .. | .runLayers .. => eventParts ++ [.devOff, .clusters, .mem, .dram, .settle, .dec, .col, .time]
  | .dmaCopy .. | .readReq .. => eventParts ++ [.aoNs, .clusters, .cores, .units, .mem, .dram, .col, .ports, .rtr, .pwr, .tel]
  | .settleConfigJob .. => eventParts ++ [.clusters, .cores, .units, .mem, .dram, .settle, .dec, .col, .ports, .rtr, .pwr, .tel]
  | .settleConfigRows .. | .settleConfigRefresh .. | .landing .. => eventParts ++ [.clusters, .cores, .units, .mem, .dram, .settle, .col, .ports, .rtr, .pwr, .tel]
  | .settleConfigInvalidate .. => eventParts ++ [.mem, .dram, .settle, .ports, .rtr]
  | .collectivePlan .. | .mxeIssue .. | .finishedTileDrain .. | .loadLand .. | .layerComplete .. | .vaultScrub .. | .dramPatrolScrub .. => eventParts ++ [.clusters, .cores, .units, .mem, .dram, .col, .ports, .rtr, .pwr, .tel]
  | .preempt .. => [.out, .host, .preempt, .preempts]
  | .preemptTakeEffect .. => eventParts ++ [.devOff, .saved, .preempt, .preempts, .clusters, .cores, .units, .mem, .dram, .dec, .col, .ports, .time, .rtr, .pwr, .tel]
  | .resume .. => eventParts ++ [.aoNs, .devOff, .saved, .clusters, .cores, .units, .hwm, .mem, .dram, .settle, .dec, .col, .ports, .time, .rtr, .pwr, .tel]
  | .reconcileAccept .. | .reconcileEnable .. => [.out, .host, .units]
  | .reconcileFence .. | .setPermission .. => eventParts ++ [.units, .dram]
  | .query .. | .proxyRequest .. => eventParts ++ [.ports, .rtr, .tel]
  | .statementReq .. => [.out, .host, .mgmt, .tel]
  | .proxyResponse .. | .timeReq .. => [.aoNs, .out, .host, .ports, .rtr, .mgmt]
  | .lcbStore .. | .layerWait .. | .seqTableWrite .. | .seqTableCommit .. | .lossRead .. | .lossClear .. | .timerWait .. | .seqCompletion .. | .programNote .. | .seqAddressFault .. | .seqInstructionFault .. | .takeNArm .. | .seqMemUncorrected .. => eventParts ++ [.dev, .clusters, .cores, .units, .col, .ports, .rtr, .pwr, .rails, .tel]
  | .layerStart .. => eventParts ++ [.dev, .clusters, .cores, .units, .mem, .dram, .col, .ports, .rtr, .pwr, .rails, .tel]
  | .tileOperation .. => eventParts ++ [.aoNs, .clusters, .cores, .units, .hwm, .mem, .dram, .col, .ports, .rtr, .pwr, .tel]
  | .hwmClear .. => eventParts ++ [.dev, .clusters, .cores, .units, .hwm, .col, .ports, .rtr, .pwr, .rails, .tel]
  | .timerExpiry .. | .clockGate .. | .powerGate .. | .clusterWake .. | .holdRun .. => [.aoNs, .clusters, .mgmt]
  | .debugHalt .. => [.clusters]
  | .debugResume .. => eventParts ++ [.clusters, .cores, .mem, .dram, .col, .ports, .rtr, .tel]
  | .coinPacket .. | .coinWaitTimeout .. | .coinGuardExpiry .. | .sealDeposit .. => eventParts ++ [.aoNs, .clusters, .cores, .ports, .rtr]
  | .coinReply .. => eventParts ++ [.clusters, .cores, .ports, .rtr]
  | .vaultSpareDone .. => [.err, .clusters, .cores, .mem]
  | .dramTrackingUpdate .. => eventParts ++ [.units, .dram, .tel]
  | .softPpr .. => eventParts ++ [.dram]
  | .remoteWrite .. => eventParts ++ [.aoNs, .clusters, .mem, .dram, .ports, .rtr]
  | .readRsp .. => eventParts ++ [.clusters, .cores, .mem, .dram, .col, .ports, .rtr, .pwr, .tel]
  | .readErr .. => [.out, .host, .clusters, .cores, .ports, .rtr]
  | .readTimeout .. => [.aoNs, .out, .host, .clusters, .cores, .rtr, .mgmt]
  | .settleContribution .. | .statementCombine .. | .statementBroadcast .. => eventParts ++ [.clusters, .cores, .units, .hwm, .mem, .dram, .settle, .dec, .col, .ports, .rtr, .pwr, .tel]
  | .settleWalkEnd .. | .reduceSegment .. | .collectiveEnd .. => eventParts ++ [.aoNs, .clusters, .cores, .units, .mem, .dram, .settle, .col, .ports, .rtr, .pwr, .tel]
  | .stmtTimeout .. => eventParts ++ [.aoNs, .clusters, .cores, .mem, .dram, .settle, .dec, .col, .ports, .rtr, .pwr]
  | .spikeReset .. => [.settle]
  | .collectiveStart .. => eventParts ++ [.aoNs, .dev, .clusters, .cores, .units, .mem, .dram, .settle, .col, .ports, .rtr, .pwr, .rails, .tel]
  | .gatherSegment .. => eventParts ++ [.aoNs, .clusters, .cores, .mem, .dram, .settle, .col, .ports, .rtr]
  | .pointBarrierCombine .. => eventParts ++ [.clusters, .cores, .col, .ports, .rtr, .pwr]
  | .pointBarrierBroadcast .. => eventParts ++ [.col, .ports, .rtr]
  | .packetFrame .. => eventParts ++ [.aoNs, .devOff, .free, .dev, .clusters, .cores, .mem, .dram, .settle, .dec, .col, .ports, .time, .rtr, .pwr, .tel]
  | .ack .. | .credit .. | .creditQuery .. | .keepalive .. | .power .. | .spareAck .. => [.out, .host, .ports, .rtr]
  | .nak .. => [.out, .host, .ports, .rtr, .tel]
  | .ackTimeout .. | .creditLate .. => [.out, .ports, .tel]
  | .keepaliveSend .. | .forceKeepalive .. | .keepaliveExit .. | .identityRepeat .. => [.out, .ports]
  | .linkPartnerLost .. | .linkUp .. => eventParts ++ [.aoNs, .devOff, .clusters, .cores, .units, .mem, .dram, .settle, .dec, .col, .ports, .time, .rtr]
  | .signalDetect .. | .trainingRetry .. | .retrain .. | .sparingTimeout .. => eventParts ++ [.aoNs, .devOff, .dev, .clusters, .cores, .mem, .dram, .settle, .dec, .col, .ports, .time, .rtr]
  | .trainingTimeout .. => eventParts ++ [.aoNs, .ports]
  | .keepaliveIdle .. | .eqStep .. | .timeExchange .. => [.aoNs, .out, .ports, .mgmt]
  | .laneSample .. => eventParts ++ [.aoNs, .devOff, .free, .dev, .clusters, .cores, .mem, .dram, .settle, .dec, .col, .ports, .time, .rtr, .tel]
  | .laneFail .. => eventParts ++ [.aoNs, .devOff, .free, .dev, .clusters, .cores, .mem, .dram, .settle, .dec, .col, .ports, .time, .rtr]
  | .spareReq .. | .width .. => [.free, .out, .host, .ports, .rtr]
  | .spareSwitch .. => [.aoNs, .ports, .mgmt]
  | .sparingDone .. => [.out, .err, .ports, .mgmt, .tel]
  | .eq .. => [.aoNs, .free, .out, .host, .ports, .rtr, .mgmt]
  | .timeRsp .. => eventParts ++ [.aoNs, .devOff, .free, .ports, .time, .rtr]
  | .identity .. | .identityTimeout .. | .reidentify .. => eventParts ++ [.aoNs, .devOff, .clusters, .cores, .mem, .dram, .settle, .dec, .col, .ports, .time, .rtr]
  | .partnerMissing .. | .drain .. => eventParts ++ [.aoNs, .clusters, .cores, .mem, .dram, .settle, .dec, .col, .ports, .rtr]
  | .sliceNotice .. => eventParts ++ [.aoNs, .dev, .clusters, .cores, .units, .mem, .dram, .settle, .dec, .col, .ports, .rtr, .pwr, .rails, .tel]
  | .detourWrite .. => eventParts ++ [.rtr]
  | .purseRefillTick .. => eventParts ++ [.aoNs, .clusters, .cores, .mem, .dram, .col, .ports, .rtr, .pwr, .tel]
  | .rateRecompute .. => [.clusters, .pwr]
  | .thermalSample .. => eventParts ++ [.aoNs, .devOff, .preempts, .clusters, .cores, .units, .mem, .dram, .settle, .dec, .col, .ports, .time, .rtr, .pwr, .tel]
  | .paceRound .. => eventParts ++ [.clusters, .ports, .rtr, .pwr, .tel]
  | .paceCombine .. | .paceBroadcast .. => eventParts ++ [.ports, .rtr, .pwr]
  | .powerBrake .. => eventParts ++ [.clusters, .pwr]
  | .powerBrakeRelease .. => [.pwr]
  | .deepIdleEntry .. | .deepIdleExit .. => [.aoNs, .dram, .pwr, .mgmt]
  | .avsUpdate .. => eventParts ++ [.clusters, .tel]
  | .droopDetect .. => [.clusters, .tel]
  | .regulatorRead .. => eventParts ++ [.pwr, .rails, .tel]
  | .railUndervoltage .. => eventParts ++ [.clusters, .rails, .tel]
  | .railFault .. => eventParts ++ [.aoNs, .devOff, .preempts, .clusters, .cores, .units, .mem, .dram, .settle, .dec, .col, .ports, .time, .rtr, .pwr, .rails]
  | .cdcTimeout .. => eventParts ++ [.aoNs, .clusters, .cores, .col, .ports, .rtr, .pwr, .rails, .tel]
  | .stateCompare .. => eventParts ++ [.units]
  | .securityAlarm .. => eventParts ++ [.aoNs, .devOff, .preempts, .clusters, .cores, .units, .mem, .dram, .settle, .dec, .col, .ports, .time, .rtr, .sec]
  | .statementTake .. => [.aoNs, .out, .host, .mgmt, .tel]
  | .ledgerCounters .. => eventParts ++ [.aoNs]
  | .ledgerDaily .. => eventParts ++ [.aoNs, .tel]
  | .setEndpointId .. | .statementGet .. | .daybookRead .. | .ledgerRead .. | .ledgerStatus .. | .unitStateRead .. | .setEventReceiver .. | .platformEventRetry .. | .getSensorReading .. | .requestUpdate .. => [.out, .mgmt]
  | .dynamicAddressAssign .. | .platformEventAck .. => [.mgmt]
  | .setPowerLimit .. => eventParts ++ [.pwr]
  | .setPurseDepth .. => [.out, .clusters, .mgmt]
  | .planWrite .. => eventParts ++ [.dev, .ports, .time, .sec]
  | .planRetire .. => eventParts ++ [.aoNs, .devOff, .dev, .clusters, .cores, .mem, .dram, .settle, .dec, .col, .ports, .time, .rtr, .sec]
  | .regRead .. => eventParts ++ [.aoNs, .clusters, .dram, .col, .ports, .rtr, .pwr, .rails, .tel, .latches]
  | .attestGet .. | .treeBuildDone .. | .present .. | .relinquish .. => eventParts ++ [.sec]
  | .challenge .. => [.free, .out, .mgmt, .sec]
  | .nonceExpiry .. => [.aoNs, .mgmt, .sec]
  | .rightExpiry .. => eventParts ++ [.aoNs, .sec]
  | .verifyComplete .. => eventParts ++ [.flash]
  | .activateFirmware .. => eventParts ++ [.flash, .sec]
  | .aoPowerLoss .. => [.aoNs, .devOff, .ledger, .dev, .err, .host, .job, .saved, .preempt, .preempts, .clusters, .cores, .units, .hwm, .mem, .dram, .settle, .dec, .col, .ports, .time, .rtr, .pwr, .rails, .mgmt, .tel, .sec, .latches]
  | .railRecovery .. => [.err, .clusters, .rails]
  | .widthSwitch .. => [.aoNs, .out, .err, .ports, .mgmt, .tel]
  | .registerRead .. => eventParts ++ [.aoNs, .dev, .clusters, .cores, .units, .dram, .col, .ports, .rtr, .pwr, .rails, .tel, .latches]
  | .hostLinkError .. => eventParts ++ [.tel]

/-- A vendor command's response as it leaves on its binding: command code, status code and two zero bytes stand before its body
(R515). -/
def vendorOut (b code : Nat) (st : Status) (body : List Byte) : Out :=
  .response b code st.code (leBytes 1 code ++ leBytes 1 st.code ++ [0, 0] ++ body)

/-- Whether a command is a cold or warm reset of the device, or the loss of VDD_AO, which a cold reset follows (R11, R568, R573, R580). -/
def resetsDevice (c : Instr) : Bool :=
  match c with
  | .coldReset .. | .warmReset .. | .aoPowerLoss .. => true
  | .registerWrite .host a n v =>
    match regAt (a - a % 8) with
    | some (.resetCtrl, _) => bit (v % 2 ^ (8 * n) * 2 ^ (8 * (a % 8))) 0
    | _ => false
  | _ => false

/-- Every lock bit that is set in s is set in t (R11, R601). -/
def LocksHold (s t : State) : Prop :=
  (s.dram.lock = true → t.dram.lock = true) ∧ (s.dev.lnkLock = true → t.dev.lnkLock = true) ∧ (s.pwr.lock = true → t.pwr.lock = true) ∧
    (s.err.lock = true → t.err.lock = true) ∧ (s.sec.lock = true → t.sec.lock = true)

end Sys2Proof.Machine
end

