-- ==== Sys2Proof/Certificates/Slice0/Obligations.lean ====
section
/-!
DEFINITION. The statements for the provers: first what holds of every command, then the commands family by family.

Answers r P says that r is a next state of which P holds, so every statement of the form Answers (exec c s) P is also a statement that
the command c completes in s. State.reset and every State that the fields can hold are meant by a state: nothing is assumed reachable.
-/
set_option autoImplicit false
open Sys2Proof Sys2Proof.Machine

/-- A step runs the command at the front of the queue. -/
def Obligations.FrontCommandRuns : Prop :=
  ∀ (c : Instr) (rest : List Instr) (s : State), s.pending = c :: rest → step s = exec c { s with pending := rest }

/-- With an empty queue a step changes nothing (the model's choice, log entry 1). -/
def Obligations.EmptyQueueIdles : Prop := ∀ s : State, s.pending = [] → step s = .next s

/-- The state after reset has a canonical memory, an empty queue and the reset values that the register tables give. It rests on R205, R266,
R363, R401, R426, R483, R487, R510. It also rests on the model's choices of log entry 8. -/
def Obligations.ResetState : Prop :=
  State.reset.memoryOk ∧ State.reset.pending = [] ∧ State.reset.rtr.readTimeout = 1000 ∧ State.reset.rtr.stallLimit = 10 ∧
  (∀ c, c < 8 → (State.reset.cluster c).coinTimeout = 10000 ∧ (State.reset.cluster c).seq.st = .idle) ∧
  State.reset.err.errorMin = 3 ∧ State.reset.err.errorDouble = true ∧ State.reset.err.wdogCore = 20 ∧ State.reset.err.wdogSeq = 100 ∧
  State.reset.pwr.throttleC = 100 ∧ State.reset.pwr.tripC = 115 ∧ State.reset.dram.lock = false ∧ State.reset.dev.lnkLock = false ∧
  State.reset.pwr.lock = false ∧ State.reset.err.lock = false ∧ State.reset.sec.lock = false

/-- Every step keeps the memory and a saved context in canonical form. It rests on R189, R207. -/
def Obligations.MemoryStaysCanonical : Prop := ∀ s t : State, s.memoryOk → step s = .next t → t.memoryOk

/-- Every command completes and changes only the fields of the state that the table touches lists for it. It rests on R501. It also rests on
the model's choices of log entries 12 and 76. -/
def Obligations.CommandsChangeOnlyTheirParts : Prop := ∀ (c : Instr) (s : State), Answers (exec c s) (SameBut (touches c) s)

/-- Only ROLLBACK_FUSE_BLOW changes a fuse, and no count or revocation ever goes back. It rests on R543, R546. It also rests on the model's
choices of log entry 24. -/
def Obligations.FusesOnlyRise : Prop :=
  ∀ (c : Instr) (s : State), Answers (exec c s) (fun t => ((∀ k, c ≠ .rollbackFuseBlow k) → t.fuses = s.fuses) ∧
    t.fuses.vendor0 = s.fuses.vendor0 ∧ t.fuses.vendor1 = s.fuses.vendor1 ∧
    (s.fuses.revoke0 = true → t.fuses.revoke0 = true) ∧ ∀ k, s.fuses.svn k ≤ t.fuses.svn k)

/-- No command takes back what left the device or alters a record of the Life Ledger, and none touches the queue. It rests on R533, R534,
R537. It also rests on the model's choices of log entries 5 and 15. -/
def Obligations.NothingTakenBack : Prop :=
  ∀ (c : Instr) (s : State), Answers (exec c s) (fun t => s.out <+: t.out ∧ s.ledger.cores <+: t.ledger.cores ∧ t.pending = s.pending)

/-- A set lock bit stays set through every command that is not a reset of the device. It rests on R11, R601. It also rests on the model's
choices of log entry 26. -/
def Obligations.LocksHoldUntilReset : Prop := ∀ (c : Instr) (s : State), resetsDevice c = false → Answers (exec c s) (LocksHold s)

/-- A host write of a locked register changes nothing. It rests on R205, R312, R487, R510, R601. -/
def Obligations.LockedFieldsKeep : Prop :=
  ∀ (a v : Nat) (s : State), accessOk a 8 = true →
    (regAt a = some (.therm, 0) → s.pwr.lock = true → Answers (exec (.registerWrite .host a 8 v) s) (fun t => t = s)) ∧
    (regAt a = some (.ddrCtrl, 0) → s.dram.lock = true → Answers (exec (.registerWrite .host a 8 v) s) (fun t => t = s)) ∧
    (regAt a = some (.errCtrl, 0) → s.err.lock = true → Answers (exec (.registerWrite .host a 8 v) s) (fun t => t = s)) ∧
    (∀ n, regAt a = some (.portCtrl n, 0) → s.dev.lnkLock = true → bit v 4 = (s.port n).link.forceKa → bit v 5 = false →
      Answers (exec (.registerWrite .host a 8 v) s) (fun t => t = s))

/-- JOB_UNLOAD scrubs at the larger of its own level and the owner's minimum, and measures the level. It states R552. -/
def Obligations.UnloadScrubs : Prop :=
  ∀ (d : Desc) (n : Nat) (s : State), s.holds d 2 = true → s.commandRuns = false → fld (d.at 8 1) 0 2 ≠ 3 → n = max (fld (d.at 8 1) 0 2) s.sec.minScrub →
    Answers (exec (.jobUnload d) s) (fun t => t.sec.slot 10 = sha256 (s.sec.slot 10 ++ [BitVec.ofNat 8 n]) ∧
      (n = 0 → t.mem = s.mem) ∧
      (1 ≤ n → (∀ a, dramWindow ≤ a → a < 2 ^ 48 → t.mem.byte a = 0 ∧ t.mem.poisoned a = false) ∧ (∀ p, (t.core p).regs = []) ∧
        ∀ c, c < 8 → (t.cluster c).seq.imem = [] ∧ (t.cluster c).seq.dmem = []) ∧
      (n = 1 → ∀ a, a < dramWindow → t.mem.byte a = s.mem.byte a) ∧
      (2 ≤ n → n < 3 → ∀ a, a < dramWindow → t.mem.byte a = 0 ∧ t.mem.poisoned a = false))

/-- A program note takes the first 16 of the 32 posted bytes as its DATA and the posting cluster as its SOURCE. It states R503. -/
def Obligations.ProgramNotes : Prop :=
  (∀ (c : Nat) (k : Tick) (bytes : List Byte) (s : State), SeqIssues s c k → bytes.length = 32 →
    Answers (exec (.programNote c k bytes) s) (fun t => ∃ e, t.err.dayBook.getLast? = some e ∧ e.cls = .programNote ∧ e.source = srcCluster c ∧ e.data = bytes.take 16)) ∧
  ∀ (c : Nat) (k : Tick) (bytes bytes' : List Byte) (s : State), bytes.length = 32 → bytes'.length = 32 → bytes'.take 16 = bytes.take 16 →
    exec (.programNote c k bytes') s = exec (.programNote c k bytes) s

/-- The sixteen E2M1 codes have the values of the table, and two elements are packed into each byte. It states R41, R42. -/
def Obligations.E2m1Elements : Prop :=
  (∀ code, code < 16 → ∃ (m : Nat) (e : Int), decodeElem .e2m1 code = (.fin (decide (8 ≤ code)) m e, {}) ∧ -1 ≤ e ∧
    some (m * 2 ^ (e + 1).toNat) = ([0, 1, 2, 3, 4, 6, 8, 12] : List Nat)[code % 8]?) ∧
  (∀ (row i : Nat) (s : State), s.elem .e2m1 row (2 * i) = fld (s.byteAt (row + i)).toNat 0 4 ∧ s.elem .e2m1 row (2 * i + 1) = fld (s.byteAt (row + i)).toNat 4 4) ∧
  (∀ (i x y : Nat) (codes : List Nat), codes[2 * i]? = some x → codes[2 * i + 1]? = some y → x < 16 → y < 16 →
    ∃ b, (packCodes .e2m1 codes)[i]? = some b ∧ fld b.toNat 0 4 = x ∧ fld b.toNat 4 4 = y)

/-- A block with scale 0xFF decodes to NaN throughout, and an E2M1 element is NaN only so. It states R44. -/
def Obligations.NanScales : Prop :=
  (∀ (f : Format) (code : Nat), (scaledVal f (some 0xFF) code).1 = .nan) ∧
  ∀ (scale : Option Nat) (code : Nat), (scaledVal .e2m1 scale code).1 = .nan → scale = some 0xFF

/-- SEC_POLICY and SEC_OWNER_KEY take host writes until LOCK is set, and REQUIRE_SIGNED needs an owner key. It states R550. -/
def Obligations.OwnerPolicy : Prop :=
  ∀ (r : Reg) (a v : Nat) (s : State), accessOk a 8 = true → regAt a = some (r, 0) →
    (s.sec.lock = true → r = .secPolicy ∨ (∃ k, r = .ownerKey k) → Answers (exec (.registerWrite .host a 8 v) s) (fun t => t = s)) ∧
    (s.sec.lock = false → r = .secPolicy →
      Answers (exec (.registerWrite .host a 8 v) s) (fun t => t.sec.requireSigned = (bit v 0 && s.sec.hasOwner) ∧
        t.sec.minScrub = (if fld v 1 2 = 3 then s.sec.minScrub else fld v 1 2) ∧ t.sec.lock = bit v 63 ∧ t.sec.ownerKey = s.sec.ownerKey)) ∧
    (∀ k, s.sec.lock = false → r = .ownerKey k →
      Answers (exec (.registerWrite .host a 8 v) s) (fun t => tget t.sec.ownerKey 0 k = BitVec.ofNat 64 v ∧ (∀ j, j ≠ k → tget t.sec.ownerKey 0 j = tget s.sec.ownerKey 0 j) ∧
        t.sec.requireSigned = s.sec.requireSigned ∧ t.sec.minScrub = s.sec.minScrub ∧ t.sec.lock = false))

/-- FAB_CTRL has the reset values, the accesses and the disabling 0 that its table gives. It states R363. -/
def Obligations.FabricControl : Prop :=
  State.reset.rtr.readTimeout = 1000 ∧ State.reset.rtr.stallLimit = 10 ∧
  (∀ (a v : Nat) (s : State), accessOk a 8 = true → regAt a = some (.fabCtrl, 0) →
    Answers (exec (.registerWrite .host a 8 v) s) (fun t => t.rtr.readTimeout = (if fld v 0 16 = 0 then s.rtr.readTimeout else fld v 0 16) ∧ t.rtr.stallLimit = fld v 16 16)) ∧
  (∀ (a : Nat) (s : State), accessOk a 8 = true → regAt a = some (.fabCtrl, 0) → s.rtr.readTimeout < 65536 → s.rtr.stallLimit < 65536 →
    Answers (exec (.registerRead .host a 8) s) (fun t => t.out = s.out ++ [.readData (s.rtr.readTimeout + 65536 * s.rtr.stallLimit) false])) ∧
  ∀ (n ch vc : Nat) (s : State), s.rtr.stallLimit = 0 → exec (.routeStall n ch vc) s = .next s

/-- What a sequencer does to itself leaves every other cluster alone. It rests on R156, R160, R428. -/
def Obligations.SequencersKeepToTheirCluster : Prop :=
  ∀ (c k : Nat) (x : Tick) (n : Nat) (v : W64) (bytes : List Byte) (s : State), k ≠ c → (s.cluster c).seq.imemBad.contains (x.pc % 2 ^ 18 / 64) = false →
    let keeps : Host.Outcome State Fault Refusal → Prop := fun r => Answers r (fun t => t.cluster k = s.cluster k)
    keeps (exec (.lossRead c x n) s) ∧ keeps (exec (.hwmClear c x n v) s) ∧ keeps (exec (.timerWait c x n v) s) ∧
    keeps (exec (.layerWait c x n) s) ∧ keeps (exec (.programNote c x bytes) s) ∧ keeps (exec (.timerExpiry c) s) ∧ keeps (exec (.debugHalt c) s)

/-- What a port sends as blocks is read back as the frame that it was, and tag, header and trailer have the bits of their tables. It rests
on R283, R284, R285, R336, R337, R338, R340. It also rests on the model's choices of log entry 80. -/
def Obligations.FramesRoundTrip : Prop :=
  (∀ (type vc : Nat) (ack : Option Nat) (body : List Byte), 1 ≤ type → type ≤ 12 → vc < 2 → (∀ a, ack = some a → a < 65536) → body.length = 24 →
    readFrame (Frame.control type vc ack body).blocks = .frame (.control type vc ack body) true) ∧
  (∀ (vc seq : Nat) (ack : Option Nat) (p : Packet), vc < 2 → seq < 65536 → (∀ a, ack = some a → a < 65536) → p.sendable = true →
    readFrame (Frame.packet vc seq ack p).blocks = .frame (.packet vc seq ack p) true) ∧
  (∀ (type vc seq n : Nat) (ack : Option Nat), type < 16 → vc < 2 → seq < 65536 → n < 512 → (∀ a, ack = some a → a < 65536) →
    let w := leNat (tagBytes type vc seq n ack)
    fld w 0 4 = type ∧ fld w 4 1 = vc ∧ fld w 5 3 = 0 ∧ fld w 8 16 = seq ∧ fld w 24 9 = n ∧ fld w 33 16 = ack.getD 0 ∧
    fld w 49 1 = bnum ack.isSome ∧ fld w 50 6 = 0 ∧ fld w 56 8 = crc8 ((tagBytes type vc seq n ack).take 7)) ∧
  (∀ p : Packet, p.sendable = true →
    let w := leNat p.header
    fld w 0 3 = p.channel ∧ bit w 3 = p.sealExt.isSome ∧ bit w 4 = p.hasMap ∧ bit w 5 = p.failed ∧ fld w 6 4 = p.kind ∧
    fld w 10 24 = p.dest.toNat ∧ fld w 34 24 = p.src.toNat ∧ fld w 58 14 = p.payload.length ∧ fld w 72 48 = p.addr ∧
    fld w 120 8 = crc8 (p.header.take 15)) ∧
  (∀ p : Packet, p.wire.length = p.bytes ∧ leNat (p.wire.drop (p.bytes - 4)) = (crc32c (p.wire.take (p.bytes - 4))).toNat)

/-- ACK and KEEPALIVE frames refresh the link; ACK, NAK and the acknowledgement timeout act on the replay buffer. It rests on R283, R288,
R290, R292. It also rests on the model's choices of log entries 10, 12 and 80. -/
def Obligations.LinkFramesArrive : Prop :=
  (∀ (n a : Nat) (s : State), s.linkUp n = true → (s.port n).link.txq = [] →
    Answers (exec (.ack n (some a)) s) (fun t => (t.port n).link.lastValid = s.aoNs ∧
      (t.port n).link.replay = (s.port n).link.replay.filter (Frame.unacked a))) ∧
  (∀ (n : Nat) (ack : Option Nat) (s : State), s.linkUp n = true →
    Answers (exec (.keepalive n ack) s) (fun t => (t.port n).link.lastValid = s.aoNs)) ∧
  (∀ (n e : Nat) (s : State), s.linkUp n = true → (s.port n).link.replay.any (Frame.hasSeq e) = true → (s.port n).rep.stopped = false →
    Answers (exec (.nak n e none) s) (fun t => (∃ os, t.out = s.out ++ os ∧ FramesOn n ((s.port n).link.replay.map (Frame.again (s.port n).link.ack)) os) ∧
      (t.port n).link.replays = satAdd 0xFFFF (s.port n).link.replays 1)) ∧
  (∀ (n : Nat) (s : State), s.linkUp n = true → (s.port n).link.replay ≠ [] → (s.port n).rep.stopped = false →
    Answers (exec (.ackTimeout n) s) (fun t => (∃ os, t.out = s.out ++ os ∧ FramesOn n ((s.port n).link.replay.map (Frame.again (s.port n).link.ack)) os) ∧
      (t.port n).link.replays = satAdd 0xFFFF (s.port n).link.replays 1)) ∧
  (∀ (n e : Nat) (s : State), (s.port n).rep.stopped = true →
    Answers (exec (.nak n e none) s) (fun t => t.out = s.out) ∧ Answers (exec (.ackTimeout n) s) (fun t => t = s))

/-- Cumulative credit totals only move forward; a credit query is answered for both virtual channels; a late credit asks; a keepalive
counts. It rests on R283, R286, R291, R292. It also rests on the model's choices of log entries 12, 71 and 80. -/
def Obligations.LinkCreditsAndKeepalives : Prop :=
  (∀ (n vc ch : Nat) (totals : List Nat) (ack : Option Nat) (s : State), s.linkUp n = true → (hc : ch < totals.length) → ch < 8 →
    Answers (exec (.credit n vc totals ack) s) (fun t =>
      let held := tget (s.port n).link.granted 0 (vc * 8 + ch)
      let ahead := (totals[ch] % 65536 + 65536 - held) % 65536
      tget (t.port n).link.granted 0 (vc * 8 + ch) = if 0 < ahead ∧ ahead < 32768 then totals[ch] % 65536 else held)) ∧
  (∀ (n : Nat) (ack : Option Nat) (s : State), s.linkUp n = true →
    Answers (exec (.creditQuery n ack) s) (fun t => ∃ before os, t.out = before ++ os ∧
      FramesOn n [.control 3 0 (t.port n).link.ack (padTo 24 ((t.port n).link.creditBody 0)),
        .control 3 1 (t.port n).link.ack (padTo 24 ((t.port n).link.creditBody 1))] os)) ∧
  (∀ (n : Nat) (s : State) (q : Queued), s.linkUp n = true → q ∈ (s.port n).link.txq →
    (s.port n).link.credit q.vc q.packet.channel < q.packet.units →
    Answers (exec (.creditLate n) s) (fun t => (t.port n).link.creditLate = satAdd 0xFF (s.port n).link.creditLate 1 ∧ SendsCtl n 4 s t)) ∧
  (∀ (n : Nat) (s : State), s.linkUp n = true →
    Answers (exec (.keepaliveSend n) s) (fun t => (t.port n).link.kaCount = ((s.port n).link.kaCount + 1) % 2 ^ 32 ∧ SendsCtl n 5 s t))

/-- Which events move a link between DOWN, TRAINING and UP. It rests on R293, R294, R295, R312, R325, R492. It also rests on the model's
choices of log entries 12 and 14. -/
def Obligations.LinkStates : Prop :=
  (∀ (n : Nat) (s : State), n < 8 → (s.port n).link.st = .down → (s.port n).link.enable = true → s.linksAllowed = true →
    Answers (exec (.signalDetect n) s) (fun t => (t.port n).link.st = .training) ∧
    Answers (exec (.trainingRetry n) s) (fun t => (t.port n).link.st = .training)) ∧
  (∀ (n : Nat) (s : State), s.linkUp n = true → Answers (exec (.retrain n) s) (fun t => (t.port n).link.st = .training)) ∧
  (∀ (n : Nat) (s : State), (s.port n).link.st = .training →
    Answers (exec (.trainingTimeout n) s) (fun t => (t.port n).link.st = .down ∧ Logged s t .linkTrainFail (srcPort n))) ∧
  (∀ (n mode half calTx calRx : Nat) (floors : List Nat) (s : State), (s.port n).link.st = .training → (s.port n).link.trainMode ≤ mode → mode ≤ 3 →
    Answers (exec (.linkUp n mode half floors calTx calRx) s) (fun t => (t.port n).link.st = .up ∧ (t.port n).link.mode = mode ∧ (t.port n).disc.st = .identifying)) ∧
  (∀ (n : Nat) (s : State), s.linkUp n = true → (s.port n).rep.suspended = false →
    Answers (exec (.linkPartnerLost n) s) (fun t => (t.port n).link.st = .down ∧ ∀ m, m ≠ n → (t.port m).link.st = (s.port m).link.st))

/-- How a link enters and leaves the KEEPALIVE state. It rests on R295. It also rests on the model's choices of log entry 12. -/
def Obligations.KeepaliveStates : Prop :=
  (∀ (n : Nat) (v : Bool) (s : State), Answers (exec (.forceKeepalive n v) s) (fun t => (t.port n).link.forceKa = v)) ∧
  (∀ (n : Nat) (s : State), (s.port n).link.st = .up → s.commandRuns = false →
    Answers (exec (.keepaliveIdle n) s) (fun t => SendsCtl n 12 s t ∧
      (t.port n).link.st = if (s.port n).link.kaGot then .keepalive else .up)) ∧
  (∀ (n request : Nat) (ack : Option Nat) (s : State), (s.port n).link.st = .up → bit request 0 = true →
    Answers (exec (.power n request ack) s) (fun t => (t.port n).link.st = if (s.port n).link.kaSent then .keepalive else .up)) ∧
  (∀ (n : Nat) (s : State), (s.port n).link.st = .keepalive → Answers (exec (.keepaliveExit n) s) (fun t => (t.port n).link.st = .up))

/-- A frame in sequence is taken, one out of sequence is answered once by NAK, and none is taken on a link that is not up. It rests on R284,
R285, R289, R290. It also rests on the model's choices of log entries 12, 71 and 80. -/
def Obligations.PacketFrames : Prop :=
  (∀ (n vc seq : Nat) (ack : Option Nat) (p : Packet) (blocks : List Block) (mem : BufferEcc) (s : State),
    readFrame blocks = .frame (.packet vc seq ack p) true → s.linkUp n = true → seq = (s.port n).link.rxSeq →
    Answers (exec (.packetFrame n blocks true mem) s) (fun t =>
      (t.port n).link.rxSeq = (seq + 1) % 65536 ∧ (t.port n).link.rxAny = true ∧ (t.port n).link.naked = false)) ∧
  (∀ (n vc seq : Nat) (ack : Option Nat) (p : Packet) (blocks : List Block) (fecOk crcOk : Bool) (mem : BufferEcc) (s : State),
    readFrame blocks = .frame (.packet vc seq ack p) crcOk → s.linkUp n = true → seq ≠ (s.port n).link.rxSeq →
    Answers (exec (.packetFrame n blocks fecOk mem) s) (fun t =>
      (t.port n).link.rxSeq = (s.port n).link.rxSeq ∧ (t.port n).link.naked = true ∧ ((s.port n).link.naked = false → SendsCtl n 2 s t))) ∧
  (∀ (n : Nat) (blocks : List Block) (fecOk : Bool) (mem : BufferEcc) (s : State), readFrame blocks = .bad true → s.linkUp n = true →
    Answers (exec (.packetFrame n blocks fecOk mem) s) (fun t =>
      (t.port n).link.rxSeq = (s.port n).link.rxSeq ∧ (t.port n).link.naked = true ∧ ((s.port n).link.naked = false → SendsCtl n 2 s t))) ∧
  (∀ (n : Nat) (blocks : List Block) (fecOk : Bool) (mem : BufferEcc) (s : State), readFrame blocks = .bad false → s.linkUp n = true →
    Answers (exec (.packetFrame n blocks fecOk mem) s) (fun t =>
      (t.port n).link.badCtrl = satAdd 0xFF (s.port n).link.badCtrl 1 ∧ t.out = s.out)) ∧
  (∀ (n vc : Nat) (ack : Option Nat) (b : List Byte) (crcOk : Bool) (blocks : List Block) (mem : BufferEcc) (s : State),
    (readFrame blocks = .frame (.control 1 vc ack b) crcOk → exec (.packetFrame n blocks true mem) s = exec (.ack n ack) s) ∧
    (readFrame blocks = .frame (.control 5 vc ack b) crcOk → exec (.packetFrame n blocks true mem) s = exec (.keepalive n ack) s)) ∧
  (∀ (n vc seq : Nat) (ack : Option Nat) (p : Packet) (blocks : List Block) (fecOk crcOk : Bool) (mem : BufferEcc) (s : State),
    readFrame blocks = .frame (.packet vc seq ack p) crcOk → s.linkUp n = false → exec (.packetFrame n blocks fecOk mem) s = .next s)

/-- A lane sample is recorded; a failing lane asks for the spare; the partner's request stops the sender and is acknowledged; the
acknowledgement sets the switch. It rests on R296, R298, R300, R302. It also rests on the model's choices of log entries 4 and 12. -/
def Obligations.LaneRepair : Prop :=
  (∀ (n l v h corr unc : Nat) (ser : W32) (s : State), l < 17 → (s.port n).link.st = .up →
    Answers (exec (.laneSample n [(l, v, h, ser, corr, unc)]) s) (fun t => (t.lane n l).veye = v ∧ (t.lane n l).heye = h ∧
      (t.lane n l).ser = ser ∧ (t.lane n l).corr = corr ∧ (t.lane n l).unc = unc)) ∧
  (∀ (n l cause : Nat) (s : State), (s.port n).link.st = .up → (s.lane n l).failed = false → (s.port n).link.carries l = true →
    (s.port n).link.spareEn = true → (s.port n).link.spareRx = false → (s.port n).rep.sparing = none →
    Answers (exec (.laneFail n l cause) s) (fun t => (t.port n).rep.sparing = some l ∧ (t.lane n l).failed = true ∧ SendsCtl n 8 s t)) ∧
  (∀ (n l cause : Nat) (s : State), (s.port n).link.st = .up → (s.port n).needs l = false →
    Answers (exec (.laneFail n l cause) s) (fun t => (t.lane n l).failed = true ∧ t.out = s.out ∧ (t.port n).link = (s.port n).link ∧
      (t.port n).rep.sparing = (s.port n).rep.sparing)) ∧
  (∀ (n l : Nat) (ack : Option Nat) (s : State), s.linkUp n = true →
    Answers (exec (.spareReq n l ack) s) (fun t => (t.port n).rep.stopped = true ∧ (∃ cw, (t.port n).rep.txSwitch = some (l, cw)) ∧ SendsCtl n 9 s t)) ∧
  (∀ (n l cw : Nat) (ack : Option Nat) (s : State), s.linkUp n = true → (s.port n).rep.sparing = some l →
    Answers (exec (.spareAck n l cw ack) s) (fun t => (t.port n).rep.rxSwitch = some (l, cw)))

/-- The spare lane takes over, the sparing ends, and a sparing that takes too long retrains the link. It rests on R298, R299. It also rests
on the model's choices of log entry 12. -/
def Obligations.SpareTakesOver : Prop :=
  (∀ (n : Nat) (s : State), Answers (exec (.spareSwitch n) s) (fun t =>
    (t.port n).link.spareTx = ((s.port n).rep.txSwitch.isSome || (s.port n).link.spareTx) ∧
    (t.port n).rep.suspended = ((s.port n).rep.rxSwitch.isSome || (s.port n).rep.suspended))) ∧
  (∀ (n l cw : Nat) (s : State), (s.port n).rep.rxSwitch = some (l, cw) →
    Answers (exec (.sparingDone n) s) (fun t => (t.port n).link.spareRx = true ∧ (t.port n).link.sparedLane = l ∧
      (t.port n).rep.sparing = none ∧ (t.port n).rep.rxSwitch = none ∧ (t.port n).rep.suspended = false)) ∧
  (∀ (n : Nat) (s : State), (s.port n).rep.txSwitch.isSome = true → (s.port n).link.spareTx = true →
    Answers (exec (.sparingDone n) s) (fun t => (t.port n).rep.stopped = false)) ∧
  (∀ (n : Nat) (s : State), (s.port n).rep.sparing.isSome = true → s.linkUp n = true →
    Answers (exec (.sparingTimeout n) s) (fun t => (t.port n).link.st = .training))

/-- Width changes are requested, acknowledged and taken; equaliser taps move one step at a time. It rests on R286, R300, R301. It also rests
on the model's choices of log entries 4, 10, 12 and 80. -/
def Obligations.WidthAndTaps : Prop :=
  (∀ (n mode half cw : Nat) (isAck : Bool) (ack : Option Nat) (s : State), s.linkUp n = true → mode = 1 ∨ mode = 3 →
    Answers (exec (.width n mode half isAck cw ack) s) (fun t => (t.port n).rep.widthReq = some (mode, half % 2, cw) ∧
      (isAck = false → (t.port n).rep.stopped = true ∧ SendsCtl n 11 s t))) ∧
  (∀ (n m h cw : Nat) (s : State), (s.port n).rep.widthReq = some (m, h, cw) →
    Answers (exec (.widthSwitch n) s) (fun t => (t.port n).link.mode = m ∧ (t.port n).link.half = h ∧ (t.port n).rep.stopped = false ∧
      (t.port n).rep.widthReq = none)) ∧
  (∀ (n l request tap : Nat) (ack : Option Nat) (s : State), s.linkUp n = true → bit request 7 = false →
    Answers (exec (.eq n l request tap ack) s) (fun t => SendsCtl n 10 s t)) ∧
  (∀ (n l tap : Nat) (up : Bool) (s : State), s.linkUp n = true → l ≤ 16 →
    Answers (exec (.eqStep n l tap up true) s) (fun t => (t.lane n l).rxEq = tapStep (s.lane n l).rxEq tap up ∧
      (tget (s.lane n l).rxAt 0 tap ≠ 0 → tget (s.lane n l).rxAt 0 tap + 99999 ≤ t.aoNs) ∧ tget (t.lane n l).rxAt 0 tap = t.aoNs + 1) ∧
    (tap ≤ 3 → Answers (exec (.eqStep n l tap up false) s) (fun t =>
      (tget (s.lane n l).askAt 0 tap ≠ 0 → tget (s.lane n l).askAt 0 tap + 99999 ≤ t.aoNs) ∧ tget (t.lane n l).askAt 0 tap = t.aoNs + 1 ∧ SendsCtl n 10 s t)))

/-- Time exchanges with the parent measure the offset, and a device whose time is not set plans to set it. It rests on R304, R305, R315,
R325. It also rests on the model's choices of log entries 5, 10 and 80. -/
def Obligations.TimeExchanges : Prop :=
  (∀ (at16 : Nat) (s : State), s.time.root = false → s.active s.time.parent = true → (s.port s.time.parent).repairs = false →
    Answers (exec (.timeExchange at16) s) (fun t => (t.port s.time.parent).rep.exchange = ((s.port s.time.parent).rep.exchange + 1) % 65536 ∧
      (t.port s.time.parent).rep.t1 = some ((s.stamp at16).1 + (s.port s.time.parent).rep.calTx) ∧ SendsCtl s.time.parent 6 s t)) ∧
  (∀ (n exchange at16 send16 : Nat) (ack : Option Nat) (s : State), s.linkUp n = true → s.active n = true → (s.port n).repairs = false →
    Answers (exec (.timeReq n exchange at16 send16 ack) s) (fun t => SendsCtl n 7 s t)) ∧
  (∀ (n exchange t1 t2 t3 t4 now at16 : Nat) (ack : Option Nat) (s : State), s.linkUp n = true → s.active n = true → (s.port n).repairs = false →
    (s.port n).rep.t1 = some t1 → exchange = ((s.port n).rep.exchange + 65535) % 65536 → n = s.time.parent → s.time.root = false →
    now = (s.stamp at16).1 → t4 = (now + 2 ^ 64 - (s.port n).rep.calRx) % 2 ^ 64 →
    Answers (exec (.timeRsp n exchange t2 t3 at16 ack) s) (fun t =>
      (t.port n).rep.t1 = none ∧ t.time.offsetPs = max (-2147483647) (min 2147483647 ((timeDiff t2 t1 - timeDiff t4 t3) / 2 * 125 / 2)) ∧
      (s.time.isSet = false → s.commandRuns = true → ∃ step, t.time.wait = some step)))

/-- An identity is judged by the rows of the table; a timeout quarantines; REIDENTIFY starts again; a missing partner is logged once. It
rests on R324, R325, R326, R327, R328, R329, R334. It also rests on the model's choices of log entries 12, 71 and 72. -/
def Obligations.IdentityJudged : Prop :=
  (∀ (n : Nat) (p : Packet) (s : State), n < 8 → p.kind = 0 → p.addr = 1 → p.payload.length = 64 → s.localTurn n p = true →
    leAt p.payload 0 1 = 1 → s.linkUp n = true →
    Answers (exec (.identity n p) s) (fun t =>
      (t.port n).disc.seen = true ∧ (t.port n).disc.pos = leAt p.payload 4 3 ∧
      (t.port n).disc.st = (if (s.port n).disc.st = .quarantine ∨ 1 ≤ s.identityRow n p.payload ∧ s.identityRow n p.payload ≤ 7
        then .quarantine else .active) ∧
      ((s.port n).disc.st ≠ .quarantine → 1 ≤ s.identityRow n p.payload → s.identityRow n p.payload ≤ 7 →
        (t.port n).disc.cause = s.causeOf (s.identityRow n p.payload)))) ∧
  (∀ (n : Nat) (s : State), n < 8 → (s.port n).disc.st = .identifying →
    Answers (exec (.identityTimeout n) s) (fun t => (t.port n).disc.st = .quarantine ∧ (t.port n).disc.cause = 9)) ∧
  (∀ (n : Nat) (s : State), n < 8 → (s.port n).disc.st = .quarantine →
    Answers (exec (.reidentify n) s) (fun t => (t.port n).disc.st = .identifying)) ∧
  (∀ (n b : Nat) (s : State), n < 8 → s.dev.firstTrain = some b → (s.port n).disc.st = .missing → (s.port n).disc.missingLogged = false →
    Answers (exec (.partnerMissing n) s) (fun t => (t.port n).disc.missingLogged = true ∧ (t.port n).disc.st = .missing)) ∧
  (∀ (n : Nat) (s : State), s.dev.firstTrain = none → exec (.partnerMissing n) s = .next s)

/-- Identity repeats, slice notices, route stalls, the drain and detours. It rests on R323, R324, R354, R358, R361, R362, R364. It also
rests on the model's choices of log entries 12 and 72. -/
def Obligations.RouterCommands : Prop :=
  (∀ (n : Nat) (s : State), n < 8 → s.linkUp n = true →
    Answers (exec (.identityRepeat n) s) (fun t => t = s.sendLocal n 1 (s.identityBytes n))) ∧
  (∀ (n : Nat) (p : Packet) (s : State), n < 8 → p.kind = 0 → localOk p = true → p.addr = 2 → s.localTurn n p = true →
    leAt p.payload 0 4 = s.rtr.slice.id → s.hasSlice = true → s.rtr.slice.seen.contains (noticeKey p.payload) = false →
    leAt p.payload 4 1 = 0 →
    Answers (exec (.sliceNotice n p) s) (fun t => t.rtr.slice.st = 2 ∧ bit t.rtr.slice.axes (leAt p.payload 5 1 % 4) = true ∧
      t.rtr.slice.seen = s.rtr.slice.seen ++ [noticeKey p.payload])) ∧
  (∀ (n ch vc : Nat) (s : State), n < 8 → s.rtr.stallLimit ≠ 0 →
    (s.port n).link.txq.any (fun q => q.packet.channel == ch && q.vc == vc) = true →
    tget s.err.lastLogged 0 (EventClass.routeStall.code * 65536 + (n * 16 + ch * 2 + vc)) = 0 →
    Answers (exec (.routeStall n ch vc) s) (fun t => Logged s t .routeStall (srcPort n))) ∧
  (∀ (v : Bool) (s : State), Answers (exec (.drain v) s) (fun t => t.rtr.drain = v ∧ (s.rtr.drain = false → v = true → t.rtr.moved = 0))) ∧
  (∀ (t e v : Nat) (s : State), t < 9 → e < 16 →
    Answers (exec (.detourWrite t e v) s) (fun u => if s.isDrained then u.rtr.detours = tset s.rtr.detours 0 (16 * t + e) (detourMask v)
      else u.rtr.detours = s.rtr.detours ∧ Logged s u .routeTableRefused (srcBlock 0)))

/-- State compares, watchdogs, Bucel restarts, the alarm, armed injections and host link errors. It rests on R26, R27, R422, R499, R500,
R506, R515, R561, R576. It also rests on the model's choices of log entries 12, 34 and 37. -/
def Obligations.ErrorCommands : Prop :=
  (∀ (u : UnitName) (s : State), u ∈ allUnits → consistent (s.permWord u) (s.execWord u) = false →
    Answers (exec .stateCompare s) (fun t => (t.unit u.code).mismatch = true)) ∧
  (∀ (p : Nat) (s : State), p < 96 → (s.core p).running.isSome = true → (s.core p).timedWait = false →
    Answers (exec (.coreWatchdog p) s) (fun t => (t.unit (coreName p).code).perm = .fenced ∧ (t.core p).lcb = List.replicate 512 0)) ∧
  (∀ (c : Nat) (s : State), c < 8 → (s.cluster c).seq.st = .running →
    Answers (exec (.seqWatchdog c) s) (fun t => (t.unit (clusterName c).code).perm = .fenced ∧ (t.cluster c).seq.st = .idle)) ∧
  (∀ (s : State), Answers (exec .bucelRestart s) (fun t => t.mgmt.bucelDown = true)) ∧
  (∀ (s : State), s.mgmt.bucelDown = true →
    Answers (exec .bucelRestartComplete s) (fun t => t.mgmt.bucelDown = false)) ∧
  (∀ (x : Nat) (s : State),
    Answers (exec (.securityAlarm x) s) (fun t => t.err.fatal = true ∧ t.sec.nonce = none ∧ t.sec.treeWait = [] ∧ t.sec.debugEnd = none ∧ t.sec.maintEnd = none)) ∧
  (∀ (ctrl : Nat) (addr : W64) (s : State), s.sec.maintEnd.isSome = true →
    Answers (exec (.injectArm ctrl addr) s) (fun t => t.err.injAddr = addr ∧ t.err.injCls = fld ctrl 0 16 ∧ t.err.injUnit = fld ctrl 16 16 ∧
      t.err.injArm = bit ctrl 32 ∧ t.err.injCont = bit ctrl 33 ∧ t.err.injBits = fld ctrl 40 8 ∧ (bit ctrl 34 = true → t.err.injFired = false))) ∧
  (∀ (s : State), Answers (exec (.hostLinkError true) s) (fun t => Logged s t .hostLinkCorrected (srcBlock 2) ∧ tget t.tel.span 0 (ctDev 3) = tget s.tel.span 0 (ctDev 3) + 1))

/-- Doorbells, descriptor fetches, dispatches, MSI-X vectors and the enabling, disabling and reset of rings. It rests on R33, R436, R438,
R439, R440, R441, R453, R458. It also rests on the model's choices of log entries 12, 42 and 44. -/
def Obligations.RingCommands : Prop :=
  (∀ (n pi ci : Nat) (s : State), n < 32 → (s.ring n).enable = true → (s.ring n).st = .running → pi < 2 ^ 32 → ci < 2 ^ 32 →
    countSub pi (s.ring n).lastPi < 2 ^ 31 → countSub pi (s.ring n).fetched ≤ entries (s.ring n).logSq →
    countSub ci (s.ring n).lastCi < 2 ^ 31 → countSub ci (s.ring n).lastCi ≤ (s.ring n).unconsumed →
    Answers (exec (.doorbellPoll (.sub n) pi ci) s) (fun t => (t.ring n).lastPi = pi ∧ (t.ring n).lastCi = ci) ∧
    (s.host.lnEn = true → (s.ring n).lnRegistered = true →
      Answers (exec (.lnMessage (.sub n) pi ci) s) (fun t => (t.ring n).lastPi = pi ∧ (t.ring n).lastCi = ci ∧
        ∃ before, t.out = before ++ [.lnRead (s.ring n).dbAddr]))) ∧
  (∀ (n : Nat) (raw : List Byte) (s : State), s.fetchTurn n = true →
    Answers (exec (.descriptorFetch n raw) s) (fun t => (t.ring n).fetched = ((s.ring n).fetched + 1) % 2 ^ 32 ∧
      (t.ring n).waiting = (s.ring n).waiting ++ [{ ring := n, num := s.host.fetchNum, raw := padTo 64 raw }] ∧
      t.host.fetchNum = s.host.fetchNum + 1 ∧ t.host.fetchFrom = (n + 1) % 32)) ∧
  (∀ (n : Nat) (d : Desc) (ds : List Desc) (s : State), n < 32 → (s.ring n).waiting = d :: ds → s.dispatchable d = true →
    s.lowerRingFirst n d = false → d.reserved = false →
    (d.isRun = false → Answers (exec (.dispatch n) s) (fun t => (t.ring n).waiting = ds ∧ t.host.inflight = s.host.inflight ++ [d])) ∧
    (d.isRun = true → s.runRefused d = none →
      Answers (exec (.dispatch n) s) (fun t => ∀ c, c ∈ maskList 8 d.mask → (t.cluster c).seq.st = .running ∧ (t.cluster c).seq.cmd = some d ∧
        (t.cluster c).seq.pc = 0 ∧ (t.cluster c).seq.step = BitVec.ofNat 64 d.step))) ∧
  (∀ (v : Nat) (s : State), v < 64 → (tget s.host.vectors {} v).timeUs ≠ 0 → (tget s.host.vectors {} v).pending ≠ 0 →
    Answers (exec (.msixAgeExpiry v) s) (fun t => (tget t.host.vectors {} v).pending = 0 ∧
      ((tget s.host.vectors {} v).masked = false → t.out = s.out ++ [.msix v]) ∧
      ((tget s.host.vectors {} v).masked = true → (tget t.host.vectors {} v).pba = true))) ∧
  (∀ (v : Nat) (s : State), v < 64 →
    Answers (exec (.msixVectorUnmask v) s) (fun t => (tget t.host.vectors {} v).masked = false ∧ (tget t.host.vectors {} v).pba = false ∧
      ((tget s.host.vectors {} v).pba = true → t.out = s.out ++ [.msix v]))) ∧
  (∀ (x : RingName) (s : State), x.ok = true → (s.ringOf x).enable = false → (s.ringOf x).st = .disabled → (s.ringOf x).faulted = false →
    s.err.fatal = false → (s.ringOf x).sizesOk x = true →
    Answers (exec (.ringEnable x true) s) (fun t => (t.ringOf x).enable = true ∧ (t.ringOf x).st = .running)) ∧
  (∀ (x : RingName) (s : State), x.ok = true → (∀ n, x = .sub n → s.ringBusy n = false) →
    Answers (exec (.ringEnable x false) s) (fun t => (t.ringOf x).enable = false ∧ (t.ringOf x).st = .disabled)) ∧
  (∀ (x : RingName) (s : State), x.ok = true → (s.ringOf x).st = .disabled →
    Answers (exec (.ringReset x) s) (fun t => (t.ringOf x).fetched = 0 ∧ (t.ringOf x).written = 0 ∧ (t.ringOf x).lastPi = 0 ∧
      (t.ringOf x).lastCi = 0 ∧ (t.ringOf x).faulted = false))

/-- BAR2 reads and writes reach the window of memory; illegal register accesses change nothing; registers are written and read by their
maps. It rests on R12, R160, R207, R213, R430, R431, R482, R550, R553, R571, R596, R598. It also rests on the model's choices of log
entries 5, 27, 40 and 78. -/
def Obligations.HostAccesses : Prop :=
  (∀ (off n : Nat) (s : State), off + n ≤ bar2Size → s.dev.ready = true → s.err.fatal = false → s.host.bar2Gib * 2 ^ 30 + off + n ≤ s.dram.top →
    Answers (exec (.bar2Read off n []) s) (fun t => (∃ before, t.out = before ++
        [.readData (leNat (s.readMem (s.host.bar2Gib * 2 ^ 30 + off) n)) (s.poisonIn (s.host.bar2Gib * 2 ^ 30 + off) n)]) ∧ t.mem = s.mem)) ∧
  (∀ (off : Nat) (data : List Byte) (p : Bool) (s : State), off + data.length ≤ bar2Size → s.dev.ready = true → s.err.fatal = false →
    s.host.bar2Gib * 2 ^ 30 + off + data.length ≤ s.dram.top →
    Answers (exec (.bar2Write off data p) s) (fun t =>
      ((∀ k, s.host.bar2Gib * 2 ^ 30 + off ≤ k → k < s.host.bar2Gib * 2 ^ 30 + off + data.length → s.lostAt k = false) →
        ∀ (i : Nat) (hi : i < data.length), t.byteAt (s.host.bar2Gib * 2 ^ 30 + off + i) = data[i]) ∧
      (∀ k, (k < s.host.bar2Gib * 2 ^ 30 + off ∨ s.host.bar2Gib * 2 ^ 30 + off + data.length ≤ k) → t.byteAt k = s.byteAt k))) ∧
  (∀ (a n v : Nat) (s : State), accessOk a n = false ∨ regAt (a - a % 8) = none → exec (.registerWrite .host a n v) s = .next s) ∧
  (∀ (a v c : Nat) (s : State), c < 8 → accessOk a 8 = true → regAt (a - a % 8) = some (.share c, 0) →
    Answers (exec (.registerWrite .host a 8 v) s) (fun t => (t.cluster c).purse.share = v % 2 ^ 32)) ∧
  (∀ (a v k : Nat) (s : State), accessOk a 8 = true → regAt (a - a % 8) = some (.ownerKey k, 0) →
    (s.sec.lock = true → exec (.registerWrite .host a 8 v) s = .next s) ∧
    (s.sec.lock = false → Answers (exec (.registerWrite .host a 8 v) s) (fun t => (tget t.sec.ownerKey 0 k).toNat = v % 2 ^ 64))) ∧
  (∀ (c a n v g : Nat) (t : Tick) (s : State), SeqIssues s c t → 0 < n → n ≤ 8 → a % n = 0 → a + n ≤ 0x80000 →
    Answers (exec (.registerWrite (.seq c t g) a n v) s) (fun u => ∀ (i : Nat) (hi : i < (leBytes n v).length),
      tget (u.cluster c).seq.dmem 0 (a + i) = (leBytes n v)[i]) ∧
    ((s.cluster c).seq.dmemBad.contains (a / 64) = false → Answers (exec (.registerRead (.seq c t g) a n) s) (fun u => tget (u.cluster c).seq.g 0 (g % 32) =
      BitVec.ofNat 64 (fld (leNat ((List.range 8).map (fun i => tget (s.cluster c).seq.dmem 0 (a - a % 8 + i)))) (8 * (a % 8)) (8 * n))))) ∧
  (∀ (a : Nat) (r : Reg) (w : Nat) (s : State), accessOk a 8 = true → regAt (a - a % 8) = some (r, w) → r.wide = false → s.regAsleep r = false →
    Answers (exec (.registerRead .host a 8) s) (fun t => ∃ before, t.out = before ++ [.readData (fld (s.regImage r) (64 * w) 64) (s.regPoison a)])) ∧
  (∀ (a : Nat) (r : Reg) (w : Nat) (s : State), accessOk a 8 = true → regAt (a - a % 8) = some (r, w) → s.regAsleep r = true →
    Answers (exec (.registerRead .host a 8) s) (fun t => t.out = s.out ∧
      t.rails.crossing = s.rails.crossing ++ [{ domain := r.domain, addr := a, bytes := 8, deadline := s.aoNs + 4000 }]))

/-- Loading and unloading a job, slices, RUN completions, fences, pre-emption and resumption. It rests on R27, R171, R172, R173, R174, R278,
R355, R425, R441, R443, R446, R447, R451, R452, R456, R457, R528, R552. It also rests on the model's choices of log entries 5, 34, 35,
43, 62, 65, 77, 79 and 82. -/
def Obligations.JobLifecycle : Prop :=
  (∀ (d : Desc) (image : List Byte) (ecc : List (Nat × EccResult)) (s u : State), u = s.eccAll ecc → s.holds d 1 = true → bit (d.at 0x24 1) 0 = false →
    u.job.loaded = false → u.commandRuns = false → u.sec.debugEnd = none →
    d.at 8 8 % 64 = 0 → u.contextOk (d.at 0x18 8) = true → u.imgCheck (image.take (d.at 0x10 8)) = none → u.imgMismatch (image.take (d.at 0x10 8)) = false →
    Answers (exec (.jobLoad d image ecc) s) (fun t => Completed u t d .ok (imgLoaded (image.take (d.at 0x10 8))) 0 ∧ t.job.loaded = true ∧ t.job.id = d.at 0x20 4 ∧
      t.job.ctxAddr = d.at 0x18 8 ∧ t.job.hash = imgContentHash (image.take (d.at 0x10 8)) ∧ t.sec.slot 9 = imgContentHash (image.take (d.at 0x10 8)))) ∧
  (∀ (d : Desc) (image : List Byte) (ecc : List (Nat × EccResult)) (row ix : Nat) (st : Status) (s u : State), u = s.eccAll ecc → s.holds d 1 = true →
    bit (d.at 0x24 1) 0 = false → u.job.loaded = false → u.commandRuns = false → u.sec.debugEnd = none →
    d.at 8 8 % 64 = 0 → u.contextOk (d.at 0x18 8) = true → u.imgCheck (image.take (d.at 0x10 8)) = some (row, ix, st) → row ≠ 5 →
    Answers (exec (.jobLoad d image ecc) s) (fun t => Completed u t d st 0 (detailOf row ix) ∧ t.job = u.job ∧ t.mem = u.mem ∧ t.clusters = u.clusters)) ∧
  (∀ (d : Desc) (n : Nat) (s : State), s.holds d 2 = true → s.commandRuns = false → fld (d.at 8 1) 0 2 ≠ 3 → n = max (fld (d.at 8 1) 0 2) s.sec.minScrub →
    Answers (exec (.jobUnload d) s) (fun t => Completed s t d .ok 0 0 ∧ t.job.loaded = false ∧ t.saved = none ∧ t.col.plan = [] ∧ t.settle.rows = [] ∧
      (∀ c, c < 8 → (t.cluster c).queues = [] ∧ (t.cluster c).slots = [] ∧ (t.cluster c).seq.imem = [] ∧ (t.cluster c).seq.dmem = []) ∧
      (1 ≤ n → ∀ a, dramWindow ≤ a → a < 2 ^ 48 → t.mem.byte a = 0) ∧ (n = 2 → ∀ a, a < dramWindow → t.mem.byte a = 0))) ∧
  (∀ (d : Desc) (s : State), s.holds d 3 = true → s.sliceRow (bytesCoord d 0x0C) (bytesCoord d 0x10) = 3 →
    Answers (exec (.sliceSet d) s) (fun t => Completed s t d .ok 0 0 ∧ t.hasSlice = false)) ∧
  (∀ (d : Desc) (s : State), s.holds d 3 = true → s.sliceRow (bytesCoord d 0x0C) (bytesCoord d 0x10) = 7 →
    Answers (exec (.sliceSet d) s) (fun t => Completed s t d .ok 0 0 ∧ t.hasSlice = true ∧ t.rtr.slice.id = d.at 8 4 ∧ t.rtr.slice.origin = bytesCoord d 0x0C ∧
      t.rtr.slice.extent = bytesCoord d 0x10 ∧ t.rtr.slice.resetNo = s.rtr.slice.resetNo)) ∧
  (∀ (d : Desc) (s u : State), s.holds d 4 = true → s.cmdEnded d = true → s.stepOpen d = false → u = (s.stepFails d).cmdGone d →
    Answers (exec (.runStep d) s) (fun t => Completed u t d ((s.stepFails d).cmdStatus d true).1 ((s.stepFails d).cmdResult d) 0 ∧
      ∀ c, c ∈ maskList 8 d.mask → (t.cluster c).seq.cmd ≠ some d)) ∧
  (∀ (d : Desc) (s u : State), s.holds d 5 = true → s.cmdEnded d = true → u = s.cmdGone d →
    Answers (exec (.runLayers d) s) (fun t => Completed u t d (s.cmdStatus d false).1 (s.cmdResult d) 0 ∧
      ∀ c, c ∈ maskList 8 d.mask → (t.cluster c).seq.cmd ≠ some d)) ∧
  (∀ (d : Desc) (s : State), s.holds d 9 = true → Answers (exec (.fence d) s) (fun t => Completed s t d .ok 0 0)) ∧
  (∀ (d : Desc) (s : State), s.holds d 0x0A = true → s.saved = none →
    Answers (exec (.preempt d) s) (fun t => t.preempts = s.preempts ++ [d] ∧ t.host.inflight = s.host.inflight.erase d ∧ t.out = s.out)) ∧
  (∀ (ecc : List (Nat × EccResult)) (s : State), s.preemptDue = true →
    Answers (exec (.preemptTakeEffect ecc) s) (fun t => t.preempts = [] ∧ t.preempt = false ∧ t.col.pointStop = false ∧ t.col.pointWait = false ∧
      ((s.eccAll ecc).hasContext = true → t.saved.isSome) ∧ ((s.eccAll ecc).hasContext = false → t.saved = (s.eccAll ecc).saved))) ∧
  (∀ (d : Desc) (x : SavedContext) (ecc : List (Nat × EccResult)) (s u : State), s.holds d 0x0B = true → s.host.resumed = none → s.saved = some x →
    s.mayResume x = true → x.cmd = none → u = (s.eccAll ecc).restoreJob x →
    Answers (exec (.resume d ecc) s) (fun t => Completed u t d .ok 0 0 ∧ t.saved = none ∧ t.hwm = x.hwm ∧ t.settle.rows = x.settle.rows ∧
      t.settle.setStep = x.settle.setStep ∧ t.settle.spikeEn = (s.eccAll ecc).settle.spikeEn))

/-- RECONCILE accepts, fences and enables a unit; STATEMENT_REQ plans a period. It rests on R25, R26, R27, R447, R526, R528. It also rests
on the model's choices of log entry 48. -/
def Obligations.ReconcileAndRequest : Prop :=
  (∀ (d : Desc) (u : UnitName) (s : State), s.holds d 0x0C = true → d.at 0x0A 2 = 0 → s.reconcileUnit d = .inl u → (s.unit u.code).mismatch = true →
    consistent (s.permWord u) (s.execWord u) = true →
    Answers (exec (.reconcileAccept d) s) (fun t => Completed s t d .ok 0 0 ∧ (t.unit u.code).mismatch = false ∧ (t.unit u.code).perm = (s.unit u.code).perm)) ∧
  (∀ (d : Desc) (u : UnitName) (s : State), s.holds d 0x0C = true → d.at 0x0A 2 = 0 → s.reconcileUnit d = .inl u → (s.unit u.code).mismatch = true →
    consistent (s.permWord u) (s.execWord u) = false →
    Answers (exec (.reconcileAccept d) s) (fun t => Completed s t d .stateMismatch 0 0 ∧ t.units = s.units)) ∧
  (∀ (d : Desc) (u : UnitName) (s : State), s.holds d 0x0C = true → d.at 0x0A 2 = 1 → s.reconcileUnit d = .inl u → (s.unit u.code).fencing = none →
    Answers (exec (.reconcileFence d) s) (fun t => (t.unit u.code).perm = .fenced)) ∧
  (∀ (d : Desc) (u : UnitName) (s : State), s.holds d 0x0C = true → d.at 0x0A 2 = 2 → s.reconcileUnit d = .inl u → s.withheld u = false →
    Answers (exec (.reconcileEnable d) s) (fun t => Completed s t d .ok 0 0 ∧ (t.unit u.code).perm = .enabled ∧ (t.unit u.code).mismatch = false)) ∧
  (∀ (d : Desc) (s : State), s.holds d 0x0E = true → bit (d.at 8 1) 0 = false → d.at 0x0C 4 = 0 ∨ (1000 ≤ d.at 0x0C 4 ∧ d.at 0x0C 4 ≤ 1000000) →
    Answers (exec (.statementReq d) s) (fun t => Completed s t d .ok 0 0 ∧ t.mgmt.nextPeriod = if d.at 0x0C 4 = 0 then s.mgmt.nextPeriod else some (d.at 0x0C 4)))

/-- Scrubs, spare banks, patrol scrubbing, tracking and row repair. It rests on R190, R191, R208, R209, R210, R214, R215, R494. It also
rests on the model's choices of log entries 32 and 34. -/
def Obligations.StorageEvents : Prop :=
  (∀ (v : VaultName) (rs : List (Nat × EccResult)) (s : State),
    Answers (exec (.vaultScrub v rs) s) (fun t => (t.vault v).corrected = [])) ∧
  (∀ (v : VaultName) (b : Nat) (bad : List Nat) (s : State), (s.vault v).copying = some b →
    Answers (exec (.vaultSpareDone v bad) s) (fun t => (t.vault v).copying = none ∧ (t.vault v).spared = (s.vault v).spared ∧
      (∀ k, t.mem.byte k = s.mem.byte k) ∧
      ∀ k, t.mem.poisoned k = (s.mem.poisoned k || bad.any (fun a => s.inVault v a && v.bank a == b && a / 64 == k / 64)))) ∧
  (∀ (n lines : Nat) (s : State), s.channelWorks n = true → s.dram.scrubHours ≠ 0 → s.dram.selfRefresh = false →
    Answers (exec (.dramPatrolScrub n lines []) s) (fun t =>
      if s.dram.moduleBytes / 64 ≤ (s.channel n).patrol + lines then (t.channel n).patrol = 0 ∧ (t.channel n).corrected = [] ∧ (t.channel n).rowErrs = []
      else (t.channel n).patrol = (s.channel n).patrol + lines ∧ (t.channel n).corrected = (s.channel n).corrected)) ∧
  (∀ (n : Nat) (margins : List Nat) (low : Bool) (s : State), s.channelWorks n = true → s.dram.selfRefresh = false →
    Answers (exec (.dramTrackingUpdate n margins low true) s) (fun t => (t.channel n).marginLow = low ∧ (t.channel n).st = (s.channel n).st)) ∧
  (∀ (n : Nat) (exhausted : List Nat) (left : Nat) (s : State), s.job.loaded = false → s.channelWorks n = true → (s.channel n).pprList ≠ [] →
    Answers (exec (.softPpr n exhausted left) s) (fun t => (t.channel n).pprList = [] ∧ (t.channel n).pprLeft = left ∧
      (t.channel n).hardRepairs = (s.channel n).hardRepairs ++ (s.channel n).pprList.filter (fun r => !exhausted.contains r)))

/-- Remote writes and reads reach memory, and a response, an error or a timeout ends the read that waits for it. It rests on R176, R213,
R217, R220, R221, R339, R350, R353, R610. It also rests on the model's choices of log entries 61, 70 and 72. -/
def Obligations.RemoteAccesses : Prop :=
  (∀ (p : Packet) (s : State), p.kind = 6 → s.inTurn p = true → s.servable p.addr p.payload.length = true →
    (∀ k, p.addr ≤ k → k < p.addr + p.payload.length → s.lostAt k = false) →
    Answers (exec (.remoteWrite p) s) (fun t => (∀ i (h : i < p.payload.length), t.byteAt (p.addr + i) = p.payload[i]) ∧
      ∀ k, k < p.addr ∨ p.addr + p.payload.length ≤ k → t.byteAt k = s.byteAt k)) ∧
  (∀ (p : Packet) (s : State), p.kind = 7 → readReqOk p = true → s.inTurn p = true → s.servable p.addr (fld (leAt p.payload 8 2) 0 14) = true →
    Answers (exec (.readReq p []) s) (fun t => ∃ (u : State) (r : Packet), t = (u.inject r).2 ∧ u.mem = s.mem ∧ r.kind = 8 ∧ r.dest = p.src ∧ r.addr = leAt p.payload 0 6 ∧
      r.payload = s.readMem p.addr (fld (leAt p.payload 8 2) 0 14))) ∧
  (∀ (p : Packet) (w : ReadWait) (s : State), p.kind = 8 → s.inTurn p = true → (s.consumed p).readFor p = some w → w.dest = 0 →
    (∀ k, w.addr ≤ k → k < w.addr + p.payload.length → s.lostAt k = false) →
    Answers (exec (.readRsp p) s) (fun t => t.rtr.reads = (s.consumed p).rtr.reads.erase w ∧
      (∀ i (h : i < p.payload.length), t.byteAt (w.addr + i) = p.payload[i]) ∧
      ∀ k, k < w.addr ∨ w.addr + p.payload.length ≤ k → t.byteAt k = s.byteAt k)) ∧
  (∀ (p : Packet) (w : ReadWait) (ly : Layer) (s : State), p.kind = 9 → s.inTurn p = true → (s.consumed p).readFor p = some w → w.dest = 1 →
    (s.core (w.unit / 48)).running = some ly → ly.status = .ok →
    Answers (exec (.readErr p) s) (fun t => t.rtr.reads = (s.consumed p).rtr.reads.erase w ∧ ∃ ly', (t.core (w.unit / 48)).running = some ly' ∧ ly'.lcb = ly.lcb ∧
      ly'.status = (match leAt p.payload 0 1 with | 1 => .malformed | 2 => .denied | _ => .linkAbsent))) ∧
  (∀ (h : Nat) (w : ReadWait) (ly : Layer) (s : State), s.rtr.reads.find? (fun w => w.handle == h) = some w → w.dest = 1 →
    (s.core (w.unit / 48)).running = some ly → ly.status = .ok →
    Answers (exec (.readTimeout h) s) (fun t => t.rtr.reads = s.rtr.reads.erase w ∧ t.aoNs = max s.aoNs w.deadline ∧
      ∃ ly', (t.core (w.unit / 48)).running = some ly' ∧ ly'.lcb = ly.lcb ∧ ly'.status = .linkAbsent))

/-- DMA_COPY moves bytes between host and local memory. It rests on R27, R195, R211, R213, R443, R444. It also rests on the model's choices
of log entries 5, 34, 66, 67 and 79. -/
def Obligations.HostCopies : Prop :=
  (∀ (d : Desc) (data : List Byte) (poison : List Nat) (ecc : List (Nat × EccResult)) (s u : State), u = s.eccAll ecc → s.holds d 6 = true →
    s.host.dmas.any (fun x => x.desc == d) = false → s.dmaBad d = false → s.dramMismatch (dmaDst d) (dmaLen d) = false → s.settle.phase = .idle →
    dmaFrom d = 0 → dmaTo d = 1 → (∀ k, u.lostAt k = false) →
    Answers (exec (.dmaCopy d data poison ecc) s) (fun t => Completed u t d .ok (dmaLen d % 2 ^ 32) 0 ∧
      t.readMem (dmaDst d) (dmaLen d) = padTo (dmaLen d) data ∧ ∀ k, k < dmaDst d ∨ dmaDst d + dmaLen d ≤ k → t.byteAt k = u.byteAt k)) ∧
  (∀ (d : Desc) (data : List Byte) (poison : List Nat) (ecc : List (Nat × EccResult)) (s v u : State), v = s.eccAll ecc → s.holds d 6 = true →
    s.host.dmas.any (fun x => x.desc == d) = false → s.dmaBad d = false → s.dramMismatch (dmaSrc d) (dmaLen d) = false →
    dmaFrom d = 1 → dmaTo d = 0 → (v.poisonList (dmaSrc d) (dmaLen d)).any id = false →
    u = { v with out := v.out ++ (List.range ((dmaLen d + 63) / 64)).map (fun i => .hostWrite (dmaDst d + 64 * i) (((v.readMem (dmaSrc d) (dmaLen d)).drop (64 * i)).take 64) false) } →
    Answers (exec (.dmaCopy d data poison ecc) s) (fun t => Completed u t d .ok (dmaLen d % 2 ^ 32) 0)) ∧
  (∀ (d : Desc) (data : List Byte) (poison : List Nat) (ecc : List (Nat × EccResult)) (s : State), s.holds d 6 = true →
    s.host.dmas.any (fun x => x.desc == d) = false → s.dmaBad d = false → (s.dmaHereFrom d = true ∧ s.dramMismatch (dmaSrc d) (dmaLen d) = true) ∨
      (s.dmaHereTo d = true ∧ s.dramMismatch (dmaDst d) (dmaLen d) = true) →
    Answers (exec (.dmaCopy d data poison ecc) s) (fun t => Completed s t d .stateMismatch 0 0 ∧ t.mem = s.mem))

/-- SETTLE_CONFIG takes a job block, loads rows, invalidates rows and refreshes working copies. It rests on R228, R229, R230, R231, R232,
R247, R249, R253, R256, R258, R274. It also rests on the model's choices of log entries 34, 66, 77 and 79. -/
def Obligations.SettleSettings : Prop :=
  (∀ (d : Desc) (data b : List Byte) (ecc : List (Nat × EccResult)) (s u : State), u = s.eccAll ecc → s.cfgNow d 0 = true → u.cfgData d 64 data = some b →
    u.jobCheck b = none →
    Answers (exec (.settleConfigJob d data ecc) s) (fun v => ∃ t : State, v = t.cfgEnds ∧ Completed u t d .ok 0 0 ∧ t.settle.mode = fld (leAt b 0 4) 0 1 ∧
      t.settle.accum = leAt b 4 4 ∧
      t.settle.clipNorm = BitVec.ofNat 32 (leAt b 8 4) ∧ t.settle.setStep = leAt b 0x10 8 ∧ t.settle.skipNonfinite = 0 ∧ t.settle.skipSkew = 0 ∧ t.settle.spikes = 0 ∧
      t.settle.interrupted = false ∧ t.dec.hist = [] ∧ t.settle.rows = u.settle.rows)) ∧
  (∀ (d : Desc) (data b : List Byte) (ecc : List (Nat × EccResult)) (s u : State), u = s.eccAll ecc → s.cfgNow d 1 = true → cfgRange d false = none →
    u.cfgData d (256 * min (cfgCount d) 4096) data = some b → u.rowsCheck d b = none → (∀ k, u.lostAt k = false) →
    Answers (exec (.settleConfigRows d data ecc) s) (fun v => ∃ t : State, v = t.cfgEnds ∧ Completed u t d .ok 0 0 ∧ (∀ x ∈ cfgRows d b, t.row x.1 = x.2 ∧ (rowValid x.2 = true →
        tget t.settle.counts {} x.1 = {} ∧ tget t.settle.guards {} x.1 = {} ∧ ∀ i, i < (rowCount x.2 + 7) / 8 → t.byteAt (rowPres x.2 + i) = 0)) ∧
      ∀ g, g ∉ cfgGroups d → t.row g = u.row g)) ∧
  (∀ (d : Desc) (s : State), s.cfgNow d 2 = true → cfgRange d false = none →
    Answers (exec (.settleConfigInvalidate d) s) (fun v => ∃ t : State, v = t.cfgEnds ∧ Completed s t d .ok 0 0 ∧ (∀ g ∈ cfgGroups d, rowValid (t.row g) = false) ∧
      ∀ g, g ∉ cfgGroups d → t.row g = s.row g)) ∧
  (∀ (d : Desc) (r : Row) (code : List Nat × Nat × Nat) (b : List Byte) (ecc : List (Nat × EccResult)) (s u : State), u = s.eccAll ecc → s.cfgNow d 3 = true →
    cfgRange d true = none → r = s.row (cfgFirst d) → rowValid r = true → rowCount r = 1 → s.engineMismatch = false →
    code = wcConvert r (fun _ => none) (u.weights r 0) → b = code.1.flatMap (leBytes (rowWcBytes r)) → (∀ k, u.lostAt k = false) →
    (rowWcScaled r = true → rowWcs r < rowWc r ∨ rowWc r + b.length ≤ rowWcs r) →
    Answers (exec (.settleConfigRefresh d ecc) s) (fun v => ∃ t : State, v = t.cfgEnds ∧ Completed u t d .ok 0 0 ∧ t.readMem (rowWc r) b.length = b ∧
      (rowWcScaled r = true → t.byteAt (rowWcs r) = BitVec.ofNat 8 code.2.1) ∧ t.settle = u.settle)) ∧
  (∀ s : State, s.settle.cfgDue = false → s.cfgEnds = s)

/-- COLLECTIVE_PLAN takes a good plan and refuses a bad one; QUERY and its proxies answer records. It rests on R339, R345, R359, R381, R443,
R445. It also rests on the model's choices of log entries 6, 66, 67, 72 and 77. -/
def Obligations.PlansAndQueries : Prop :=
  (∀ (d : Desc) (data : List Byte) (ecc : List (Nat × EccResult)) (s u : State), u = s.eccAll ecc → s.holds d 8 = true → u.col.running = [] →
    (List.range 8).any (fun c => (u.cluster c).lbs.any (fun x => x.2.st == .filling)) = false →
    d.at 0x10 8 ≤ 1024 → d.at 8 8 % 64 = 0 → bit (d.at 0x18 1) 0 = false → firstBad u.planRow (planEntries (d.at 0x10 8) data) = none →
    Answers (exec (.collectivePlan d data ecc) s) (fun t => Completed u t d .ok 0 0 ∧ t.col.plan = planEntries (d.at 0x10 8) data ∧ t.col.loaded = (d.at 0x10 8 != 0))) ∧
  (∀ (d : Desc) (data : List Byte) (i row : Nat) (ecc : List (Nat × EccResult)) (s u : State), u = s.eccAll ecc → s.holds d 8 = true → u.col.running = [] →
    (List.range 8).any (fun c => (u.cluster c).lbs.any (fun x => x.2.st == .filling)) = false →
    d.at 0x10 8 ≤ 1024 → d.at 8 8 % 64 = 0 → bit (d.at 0x18 1) 0 = false → firstBad u.planRow (planEntries (d.at 0x10 8) data) = some (i, row) →
    Answers (exec (.collectivePlan d data ecc) s) (fun t => Completed u t d .malformed 0 (detailOf row i) ∧ t.col = u.col)) ∧
  (∀ (d : Desc) (b : List Byte) (s u : State), s.holds d 0x0D = true → s.rtr.proxies.any (fun x => x.2.1 == d) = false → queryOk (querySel d) (queryIx d) = true → d.at 0x10 8 % 64 = 0 →
    bit (d.at 0x1C 1) 0 = false → querySel d ≠ 7 → b = (s.queryRecord (querySel d) (queryIx d)).1 → b.length ≤ d.at 0x18 4 → u = { s with out := s.out ++ [.hostWrite (d.at 0x10 8) b false] } →
    Answers (exec (.query d) s) (fun t => Completed u t d .ok b.length 0)) ∧
  (∀ (p : Packet) (s : State), p.kind = 10 → p.channel = 7 → s.inTurn p = true → queryOk (fld p.addr 0 8) (fld p.addr 8 16) = true → fld p.addr 0 8 ≠ 7 →
    ((s.consumed p).queryRecord (fld p.addr 0 8) (fld p.addr 8 16)).1.length ≤ 8192 →
    Answers (exec (.proxyRequest p) s) (fun t => ∃ (u : State) (r : Packet), t = (u.inject r).2 ∧ r.kind = 10 ∧ r.channel = 6 ∧ r.dest = p.src ∧ fld r.addr 33 15 = fld p.addr 33 15 ∧
      fld r.addr 24 8 = Status.ok.code ∧ bit r.addr 32 = true ∧ r.payload = ((s.consumed p).queryRecord (fld p.addr 0 8) (fld p.addr 8 16)).1)) ∧
  (∀ (tag : Nat) (d : Desc) (due : Nat) (s u : State), s.rtr.proxies.find? (fun x => x.1 == tag) = some (tag, d, due) → u = s.reach due →
    Answers (exec (.proxyResponse tag none) s) (fun t => Completed u t d .linkAbsent 0 0 ∧ t.aoNs = max s.aoNs due ∧ ∀ x ∈ t.rtr.proxies, x.2.1 ≠ d)) ∧
  (∀ (tag : Nat) (d : Desc) (due : Nat) (p : Packet) (s u : State), p.kind = 10 → p.channel = 6 → fld p.addr 33 15 = tag → s.inTurn p = true → fld p.addr 24 8 = 0 → p.poison = [] →
    (s.consumed p).rtr.proxies.find? (fun x => x.1 == tag) = some (tag, d, due) → p.payload.length ≤ d.at 0x18 4 →
    u = { s.consumed p with out := (s.consumed p).out ++ [.hostWrite (d.at 0x10 8) p.payload false] } →
    Answers (exec (.proxyResponse tag (some p)) s) (fun t => Completed u t d .ok p.payload.length 0 ∧ ∀ x ∈ t.rtr.proxies, x.2.1 ≠ d))

/-- Landings, the decision, the pass and statements of a settlement. It rests on R233, R234, R235, R236, R237, R238, R239, R244, R252, R265,
R271, R391, R395. It also rests on the model's choices of log entries 6, 10, 34, 65 and 72. -/
def Obligations.Settlement : Prop :=
  (∀ (l : Land) (ecc : List (Nat × EccResult)) (s u : State), u = s.eccAll ecc → l.elems.length = rowN (s.row l.group) → s.landHeld l = false →
    u.landDrop l = none → u.presentBit (s.row l.group) l.block = false → (∀ k, u.lostAt k = false) →
    (∀ r, r = s.row l.group → ∀ k, rowG r + l.block * 2 * rowN r ≤ k → k < rowG r + (l.block + 1) * 2 * rowN r →
      k ≠ rowGs r + l.block ∧ k ≠ rowPres r + l.block / 8 ∧ rowGs r + l.block ≠ rowPres r + l.block / 8) →
    Answers (exec (.landing l ecc) s) (fun t => (s.settle.phase = .idle ∨ s.settle.phase = .landing → t.settle.phase = .landing) ∧
      bit (tget t.settle.landed 0 (l.group * 2 ^ 40 + l.block)) l.micro = true ∧
      ∀ r, r = s.row l.group → t.row l.group = r ∧ t.presentBit r l.block = true ∧
        t.readMem (rowG r + l.block * 2 * rowN r) (2 * rowN r) = l.elems.flatMap (fun e => leBytes 2 e.toNat) ∧
        (0 < rowN r → t.byteAt (rowGs r + l.block) = l.scale))) ∧
  (∀ (l : Land) (ecc : List (Nat × EccResult)) (s : State), l.elems.length = rowN (s.row l.group) → s.landHeld l = true →
    Answers (exec (.landing l ecc) s) (fun t => t.settle.heldLands = s.settle.heldLands ++ [l] ∧ t.mem = (s.eccAll ecc).mem)) ∧
  (∀ (ecc : List (Nat × EccResult)) (s : State), s.settle.phase ≠ .deciding → s.settle.phase ≠ .pass → s.settle.own = none → s.microsDone = true →
    s.commandFailed = false → s.dec.status = none ∨ s.stepHeld = false → (s.eccAll ecc).hasSlice = false →
    Answers (exec (.settleContribution [] ecc) s) (fun t => t.settle.phase = .pass ∧ t.settle.setStep = (s.settle.setStep + 1) % 2 ^ 64 ∧ t.settle.own.isSome ∧
      t.settle.final = t.settle.own)) ∧
  (∀ (ecc : List (Nat × EccResult)) (s : State), s.settle.phase = .pass → s.settle.heldLands = [] → (s.eccAll ecc).col.heldSegs = [] →
    Answers (exec (.settleWalkEnd ecc) s) (fun t => t.settle.phase = .idle ∧ t.settle.own = none ∧ t.mem = (s.eccAll ecc).mem)) ∧
  (∀ (s : State), s.settle.phase = .deciding → s.settle.own.isSome →
    Answers (exec .stmtTimeout s) (fun t => t.settle.phase = .pass ∧ t.dec.status = some .waitTimeout ∧ t.settle.setStep = s.settle.setStep ∧
      t.aoNs = max s.aoNs (s.dec.formedAt + s.col.stmtTimeout * 1000000))) ∧
  (∀ (s : State), Answers (exec .spikeReset s) (fun t => t.settle.spike.n = 0 ∧ t.settle.spike.mu = 0 ∧ t.settle.spike.var = 0 ∧ t.settle.spike.consec = 0)) ∧
  (∀ (p : Packet) (faults : List Nat) (ecc : List (Nat × EccResult)) (s : State), s.inTurn p = true → p.kind = 3 → (s.consumed p).stmtOk p false = true → s.settle.phase ≠ .deciding → s.dec.stmtState ≠ 3 →
    (((s.consumed p).treeKids (fld p.addr 1 2)).any (fun k => k.2 == p.src)) = true →
    Answers (exec (.statementCombine p faults ecc) s) (fun t => (fld p.addr 1 2, (s.consumed p).fromPlus (fld p.addr 1 2) p.src, Stmt.ofBytes p.payload) ∈ t.dec.children)) ∧
  (∀ (p : Packet) (faults : List Nat) (ecc : List (Nat × EccResult)) (s : State), s.inTurn p = true → p.kind = 3 → (s.consumed p).stmtOk p true = true → s.settle.phase = .deciding → s.dec.sentUp = true →
    Answers (exec (.statementBroadcast p faults ecc) s) (fun t => t.settle.phase = .pass ∧ t.settle.final = some (Stmt.ofBytes p.payload) ∧
      t.settle.setStep = (s.settle.setStep + 1) % 2 ^ 64 ∧ (t.settle.lastAborted = true ↔ (Stmt.ofBytes p.payload).row ≤ 4)))

/-- Collectives start, reduce, gather and end. It rests on R371, R372, R373, R374, R375, R376, R380, R382, R385, R386, R387, R388. It also
rests on the model's choices of log entries 6, 34, 61, 68 and 72. -/
def Obligations.Collectives : Prop :=
  (∀ (c i micro : Nat) (t : Tick) (ecc : List (Nat × EccResult)) (e : List Byte) (s v : State), SeqIssues s c t → v = (s.tick c t).eccAll ecc → v.planEntry i = some e →
    peOp e = 5 → (v.lb (peLbCluster e) (peLb e)).st = .empty → (v.lb (peLbCluster e) (peLb e)).commit = false →
    Answers (exec (.collectiveStart c t i micro false ecc) s) (fun u => u.col.issued = v.col.issued + v.product (peAxes e) * (peChunk e + peScaleStride e))) ∧
  (∀ (c i micro : Nat) (t : Tick) (ecc : List (Nat × EccResult)) (e : List Byte) (s v : State), SeqIssues s c t → v = (s.tick c t).eccAll ecc → v.planEntry i = some e →
    peOp e ≤ 2 → v.startStatus i = none → (peAxes e).length ≤ 4 → (∀ a ∈ peAxes e, v.ext a ≤ 1) → v.col.heldSegs = [] →
    Answers (exec (.collectiveStart c t i micro false ecc) s) (fun u => (u.runOf i).map (fun x => x.stages) = some [] ∧ (u.runOf i).map (fun x => x.micro) = some micro)) ∧
  (∀ (p q : Packet) (fault : Bool) (ecc : List (Nat × EccResult)) (s u : State), p.kind = 4 → s.inTurn p = true → q = (if fault then p.poisonAll else p) →
    u = (if fault then ((s.takeIn p q).eccAll ecc).detect .collectiveFault (srcBlock 1) [] else (s.takeIn p q).eccAll ecc) → (∀ x ∈ u.col.heldSegs ++ [q], u.segFits x = none) →
    Answers (exec (.reduceSegment p fault ecc) s) (fun t => t.col.heldSegs = u.col.heldSegs ++ [q] ∧ t.mem = u.mem)) ∧
  (∀ (p q : Packet) (fault : Bool) (ecc : List (Nat × EccResult)) (i k : Nat) (e : List Byte) (x : RunEntry) (o y : WorkUnit) (s u : State), p.kind = 4 → s.inTurn p = true →
    q = (if fault then p.poisonAll else p) →
    u = (if fault then ((s.takeIn p q).eccAll ecc).detect .collectiveFault (srcBlock 1) [] else (s.takeIn p q).eccAll ecc) → u.segFits q = some (i, e, x) → peOp e ≤ 2 →
    u.runOf i = some x → k = fld p.addr 10 38 → tailUnits e x.per x.ub q = [y] → x.unit k = some o →
    u.posOn (peAxes e) (u.srcAxis p.src) (k / x.per) = u.ringPos (u.srcAxis p.src) → 2 ≤ x.need →
    Answers (exec (.reduceSegment p fault ecc) s) (fun t => ∃ v : State, t = v.releaseSegs.accepted p ∧
      (v.runOf i).map (fun x => (x.unit k, x.need)) = some (some (reduceUnit e y o).1, x.need - 1))) ∧
  (∀ (p : Packet) (i k a l : Nat) (e : List Byte) (x : RunEntry) (y : WorkUnit) (s u : State), p.kind = 5 → s.inTurn p = true → u = s.takeIn p p → u.segFits p = some (i, e, x) → peOp e ≤ 2 → peBlk e = 0 →
    u.runOf i = some x → k = fld p.addr 10 38 → tailUnits e x.per x.ub p = [y] → (∀ a, s.lostAt a = false) → a = u.srcAxis p.src → l = u.ext a →
    (if u.onPlus x.per a (k % x.per) then (u.ringPos a + 1) % l else (u.ringPos a + l - 1) % l) = u.posOn (peAxes e) a (k / x.per) → 2 ≤ x.need →
    Answers (exec (.gatherSegment p) s) (fun t => ∃ v : State, t = v.releaseSegs.accepted p ∧
      v.readMem (peDst e + k / x.per * peChunk e + k % x.per * peUnit e) y.data.length = y.data ∧
      (v.runOf i).map (fun x => (x.unit k, x.need)) = some (some y, x.need - 1))) ∧
  (∀ s : State, s.col.heldSegs = [] → s.releaseSegs.col = s.col ∧ s.releaseSegs.mem = s.mem) ∧
  (∀ (i : Nat) (ecc : List (Nat × EccResult)) (e : List Byte) (x z : RunEntry) (s u : State), s.runOf i = some z → s.planEntry i = some e → peOp e ≠ 4 → peOp e ≠ 5 → u = s.eccAll ecc →
    u.runOf i = some x → u.planEntry i = some e → x.stages = [] → x.need = 0 → u.segsGone i = true → peDoneEn e = true → QueuesOpen u (peDone e) →
    Answers (exec (.collectiveEnd i ecc) s) (fun t => t.runOf i = none ∧
      t.queue (peDone e) (peQueue e) = (u.queue (peDone e) (peQueue e)).put [BitVec.ofNat 32 (i + Status.ok.code * 2 ^ 24)]))

/-- Point barriers combine up the tree and are broadcast down. It rests on R455, R456. It also rests on the model's choices of log entries 6
and 69. -/
def Obligations.PointBarriers : Prop :=
  (∀ (n : Nat) (s : State), s.commandRuns = true → s.col.pointWait = false → (∀ c, c < 8 → s.layersLeft c = false) → s.hasSlice = false →
    Answers (exec (.pointBarrierCombine n none) s) (fun t => t.col.pointWait = false ∧ t.col.pointNo = n ∧ t.col.pointStop = (s.col.pointStop || s.preempt))) ∧
  (∀ (n a : Nat) (k : Bool × Coord) (s : State), s.commandRuns = true → s.col.pointWait = false → (∀ c, c < 8 → s.layersLeft c = false) → s.hasSlice = true → s.rtr.slice.st ≠ 2 →
    a ∈ s.treeAxes → k ∈ s.treeKids a → s.col.points = [] →
    Answers (exec (.pointBarrierCombine n none) s) (fun t => t.col.pointWait = true ∧ t.col.pointOwn = true ∧ t.col.pointNo = n ∧ t.col.pointAt = s.aoNs ∧ t.out = s.out)) ∧
  (∀ (n : Nat) (p : Packet) (s : State), s.inTurn p = true → p.kind = 1 → (s.consumed p).pointOk p false = true → s.col.pointOwn = false →
    (((s.consumed p).treeKids ((s.consumed p).srcAxis p.src)).any (fun k => k.2 == p.src)) = true →
    Answers (exec (.pointBarrierCombine n (some p)) s) (fun t => t.col.points = s.col.points ++
      [((s.consumed p).srcAxis p.src, (s.consumed p).fromPlus ((s.consumed p).srcAxis p.src) p.src, leAt p.payload 0 4, bit (leAt p.payload 4 1) 0)])) ∧
  (∀ (p : Packet) (s : State), s.inTurn p = true → p.kind = 1 → (s.consumed p).pointOk p true = true → s.col.pointWait = true → leAt p.payload 0 4 = s.col.pointNo →
    Answers (exec (.pointBarrierBroadcast p) s) (fun t => t.col.pointWait = false ∧ t.col.pointOwn = false ∧ t.col.points = [] ∧
      t.col.pointStop = (s.col.pointStop || bit (leAt p.payload 4 1) 0)))

/-- DEPOSIT, BELL, TAKE, PEEK, TAKE_N and its arming on the queues of the cluster. It rests on R157, R404, R405, R406, R407, R408, R409,
R410, R411. It also rests on the model's choices of log entries 12, 35 and 74. -/
def Obligations.LocalCoins : Prop :=
  (∀ (c q : Nat) (who : Requester) (t : Tick) (v : W32) (s : State), ReqIssues s c who t → q < 256 →
    (s.reqTick c who t).canIssue c who = true → QueuesOpen s c →
    Answers (exec (.deposit c who t q v) s) (fun u => u.queue c q = (s.queue c q).put [v])) ∧
  (∀ (c q n : Nat) (who : Requester) (t : Tick) (v : W32) (s : State), ReqIssues s c who t → q < 256 → 1 ≤ n → n ≤ 64 →
    (s.reqTick c who t).canIssue c who = true → QueuesOpen s c →
    Answers (exec (.bell c who t q v n) s) (fun u => u.queue c q = (s.queue c q).put (List.replicate n v))) ∧
  (∀ (c q : Nat) (who : Requester) (t : Tick) (v : W32) (vs : List W32) (s : State), ReqIssues s c who t → q < 256 →
    (s.reqTick c who t).canIssue c who = true → QueuesOpen s c → s.queue c q = ⟨v :: vs, []⟩ →
    Answers (exec (.take c who t q) s) (fun u => u.queue c q = ⟨vs, []⟩ ∧ u.coinResult c who = { first := v, count := vs.length })) ∧
  (∀ (c q : Nat) (who : Requester) (t : Tick) (s : State), ReqIssues s c who t → q < 256 →
    (s.reqTick c who t).canIssue c who = true → QueuesOpen s c → s.queue c q = {} →
    Answers (exec (.take c who t q) s) (fun u => ∃ w, u.queue c q = ⟨[], [w]⟩ ∧ w.who = who ∧ w.n = none)) ∧
  (∀ (c q : Nat) (who : Requester) (t : Tick) (s : State), ReqIssues s c who t → q < 256 →
    (s.reqTick c who t).canIssue c who = true → QueuesOpen s c →
    Answers (exec (.peek c who t q) s) (fun u => u.queue c q = s.queue c q ∧ u.coinResult c who = (s.queue c q).peek)) ∧
  (∀ (c q n : Nat) (t : Tick) (s : State), SeqIssues s c t → q < 256 →
    Answers (exec (.takeNArm c t q n) s) (fun u => tget (u.cluster c).coin.arm 0 q = n % 128 + 1)) ∧
  (∀ (c q n pos i : Nat) (t : Tick) (vs : List W32) (s : State), ReqIssues s c (.context pos i) t → q < 256 → 1 ≤ n → n ≤ 64 →
    (s.reqTick c (.context pos i) t).canIssue c (.context pos i) = true → QueuesOpen s c → s.queue c q = ⟨vs, []⟩ → n ≤ vs.length →
    Answers (exec (.takeN c (.context pos i) t q n) s) (fun u => u.queue c q = ⟨vs.drop n, []⟩ ∧ u.coinResult c (.context pos i) =
      { first := vs.headD 0, last := ((vs.take n).getLast?).getD 0, all := (vs.take n).foldl (· ||| ·) 0, count := vs.length - n, many := true })) ∧
  (∀ (c q k n : Nat) (t : Tick) (vs : List W32) (s : State), SeqIssues s c t → q < 256 → tget ((s.tick c t).cluster c).coin.arm 0 q = k + 1 → 1 ≤ k → k ≤ 64 →
    (s.tick c t).canIssue c .sequencer = true → QueuesOpen s c → s.queue c q = ⟨vs, []⟩ → k ≤ vs.length →
    Answers (exec (.takeN c .sequencer t q n) s) (fun u => u.queue c q = ⟨vs.drop k, []⟩ ∧ u.coinResult c .sequencer =
      { first := vs.headD 0, last := ((vs.take k).getLast?).getD 0, all := (vs.take k).foldl (· ||| ·) 0, count := vs.length - k, many := true }))

/-- Remote coins, their replies, timeouts and guards, and sealed deposits. It rests on R408, R412, R413, R414, R415, R416, R417, R418, R419,
R421. It also rests on the model's choices of log entries 10, 12 and 61. -/
def Obligations.RemoteCoins : Prop :=
  (∀ (c : Nat) (t : Tick) (target : W64) (v : W32) (s : State), ReqIssues s c .sequencer t → ((s.tick c t).cluster c).coin.outstanding = false →
    (targetFields target).2.2.1 = 0 → Coord.ofNat target.toNat = s.here → QueuesOpen s (targetFields target).1 →
    Answers (exec (.remoteCoinGo c .sequencer t target v false) s) (fun u =>
      u.queue (targetFields target).1 (targetFields target).2.1 = (s.queue (targetFields target).1 (targetFields target).2.1).put [v] ∧
      (u.cluster c).coin.outstanding = false ∧ (u.cluster c).coin.remote = {})) ∧
  (∀ (p : Packet) (s : State), coinPacketOk p = true → p.kind = 2 → p.channel = 1 → s.inTurn p = true → fld p.addr 12 4 = 0 → QueuesOpen s (fld p.addr 8 3) →
    Answers (exec (.coinPacket p) s) (fun u => u.queue (fld p.addr 8 3) (fld p.addr 0 8) =
      (s.queue (fld p.addr 8 3) (fld p.addr 0 8)).put [BitVec.ofNat 32 (leAt p.payload 0 4)])) ∧
  (∀ (p : Packet) (w : CoinWait) (s : State), replyOk p = true → p.kind = 2 → p.channel = 6 → s.inTurn p = true →
    (s.consumed p).rtr.coinWaits.find? (fun w => w.cluster == (ofTag (leAt p.payload 12 2)).1 && w.who == (ofTag (leAt p.payload 12 2)).2 && w.target == p.src &&
      w.tcluster == fld p.addr 8 3 && w.queue == fld p.addr 0 8) = some w →
    Answers (exec (.coinReply p) s) (fun u => u.rtr.coinWaits = (s.consumed p).rtr.coinWaits.erase w ∧
      (w.who = .sequencer → (u.cluster w.cluster).coin.remote = replyResult p.payload ∧ (u.cluster w.cluster).coin.outstanding = false))) ∧
  (∀ (c q j : Nat) (w : Waiter) (s : State), (s.queue c q).waiters[j]? = some w → s.deadlineStopped c w = false →
    Answers (exec (.coinWaitTimeout c q j) s) (fun u => u.aoNs = max s.aoNs w.deadline ∧
      u.queue c q = ({ s.queue c q with waiters := (s.queue c q).waiters.erase w }.release ((s.queue c q).waiters.erase w).length).2)) ∧
  (∀ (j : Nat) (w : CoinWait) (s : State), s.rtr.coinWaits[j]? = some w →
    Answers (exec (.coinGuardExpiry j) s) (fun u => u.rtr.coinWaits = s.rtr.coinWaits.erase w ∧ u.aoNs = max s.aoNs w.guard ∧
      (w.who = .sequencer → (u.cluster w.cluster).coin.remote = .bad .waitTimeout ∧ (u.cluster w.cluster).coin.outstanding = false))) ∧
  (∀ (src : Coord) (ch coin q c : Nat) (p : Packet) (s : State), s.rtr.seals.find? (fun p => p.src == src && p.channel == ch) = some p →
    s.sealHeld src ch = false → p.sealExt = some (coin, q, c) → QueuesOpen s (c % 8) →
    Answers (exec (.sealDeposit src ch) s) (fun u => u.queue (c % 8) (q % 256) = (s.queue (c % 8) (q % 256)).put [BitVec.ofNat 32 coin]))

/-- Matrix issues, tile drains, tile operations and loads do what their rules give. It rests on R68, R79, R81, R87, R89, R94, R104, R114,
R116, R119, R128, R129, R176, R177, R178. It also rests on the model's choices of log entries 11, 33, 57 and 74. -/
def Obligations.TileCommands : Prop :=
  (∀ (p dt : Nat) (ly : Layer) (s : State), s.works p = true → (s.core p).running = some ly → (s.core p).held = none → (s.core p).issueQ ≠ [] →
    Answers (exec (.mxeIssue p dt [] []) s) (fun t => ∀ u, u = (s.advance (p / 12) dt).modCore p (·.deal ly) →
      (t.core p).dealt = (u.core p).dealt ∧
      ∀ i a, i < subarrays ly.lcb → tget (u.core p).accs none i = some a →
        tget (t.core p).accs none i = some (if a.complete ly.lcb then a else u.stepOf p ly.lcb i a) ∧
        (a.complete ly.lcb = false → (t.core p).issueQ = (s.core p).issueQ.tail))) ∧
  (∀ (p i : Nat) (ly : Layer) (a : AccTile) (k : Core) (s : State), s.works p = true → (s.core p).running = some ly → (s.core p).held = none →
    (if mxK ly.lcb = 0 ∧ mxEn ly.lcb then (s.core p).deal ly else s.core p).finished ly.lcb i = some (a, k) →
    Answers (exec (.finishedTileDrain p i [] []) s) (fun t => (t.core p).accs = k.accs ∧ (t.core p).draining = k.draining ∧
      ∀ ts, ts = parityTiles [] (subTiles ly.lcb i a (s.drained p ly.lcb a)) → match ftqAdd k.ftq ts with
        | some q => (t.core p).ftq = q ∧ (t.core p).held = k.held
        | none => (t.core p).ftq = k.ftq ∧ (t.core p).held = some (ts, (s.cluster (p / 12)).seq.cycles))) ∧
  (∀ (p i dt : Nat) (s : State), s.works p = true → i < 48 → (s.core p).takes i = true → (tget (s.core p).ctxs {} i).loads = [] →
    Answers (exec (.tileOperation p i dt .free [] []) s) (fun t => (tget (t.core p).ctxs {} i).st = .free)) ∧
  (∀ (p i dt d : Nat) (f : LaneFn) (xs : List TeSrc) (early : Bool) (s : State), s.works p = true → i < 48 → (s.core p).takes i = true →
    (TeOp.lane f d xs early).legal = true → (tget (s.core p).ctxs {} i).loads = [] → usesQueue xs = false → (s.cluster (p / 12)).haz.modeInForce = 0 →
    Answers (exec (.tileOperation p i dt (.lane f d xs early) [] []) s) (fun t => ∀ u, u = s.advance (p / 12) (s.barrierWait p i dt) →
      ∃ w, w ∈ (t.core p).writes ∧ w.reg = d ∧ w.ctx = i ∧ w.issue = (u.cluster (p / 12)).seq.cycles ∧ w.land = w.issue + f.distance ∧
        w.elems = (laneResults f ((xs.take f.arity).map (u.core p).opnd)).map (fun r => (r.1, r.2.bits)) ∧
        w.raised = flagsOf ((laneResults f ((xs.take f.arity).map (u.core p).opnd)).map (·.2.fl)) ∧
        w.fl = (flagsOf (((xs.take f.arity).map (u.core p).opnd).map (·.fl))).or w.raised)) ∧
  (∀ (p i dt j : Nat) (l : LoadReq) (s : State), s.works p = true → (tget (s.core p).ctxs {} i).loads[j]? = some l → l.handle = none → l.form = none →
    (s.cluster (p / 12)).haz.modeInForce = 0 →
    Answers (exec (.loadLand p i dt j []) s) (fun t => (tget (t.core p).ctxs {} i).loads = (tget (s.core p).ctxs {} i).loads.erase l ∧
      (((s.advance (p / 12) dt).core p).writes = [] → ((s.advance (p / 12) dt).core p).landed = [] →
        (tget (t.core p).regs {} l.reg).fl = {} ∧ ∀ k, k < l.bytes / 4 →
        tget (tget (t.core p).regs {} l.reg).elems 0 (l.off / 4 + k) = BitVec.ofNat 32 (leAt (s.readMem l.addr l.bytes) (4 * k) 4))))

/-- LCB stores, high-water marks, the sequencer table, its commit, and loss slots. It rests on R55, R56, R143, R144, R145, R147, R149, R158,
R162, R164, R178. It also rests on the model's choices of log entries 11, 62 and 74. -/
def Obligations.SequencerTables : Prop :=
  (∀ (c pos word : Nat) (t : Tick) (v : W64) (s : State), SeqIssues s c t → pos < 12 → word < 64 →
    Answers (exec (.lcbStore c t (.core pos) word v) s) (fun u => ∀ w : CfgWrite, w.core = c * 12 + pos → w.word = word → w.val = v →
      w.issue = (s.cluster c).seq.cycles + t.cclk → w.land = w.issue + 6 → w ∈ (u.cluster c).seq.cfg)) ∧
  (∀ (c i : Nat) (t : Tick) (v : W64) (s : State), SeqIssues s c t → i < 1024 →
    Answers (exec (.hwmClear c t i v) s) (fun u => tget u.hwm 0 i = if bit v.toNat 63 then 0 else tget s.hwm 0 i)) ∧
  (∀ (c slot : Nat) (high : Bool) (t : Tick) (v : W64) (s : State), SeqIssues s c t → slot < 256 →
    Answers (exec (.seqTableWrite c t slot high v) s) (fun u => ∀ k, k < 8 →
      tget (u.cluster k).shadow 0 slot = slotStore (tget (s.cluster k).shadow 0 slot) high v)) ∧
  (∀ (c : Nat) (t : Tick) (v : W64) (s : State), SeqIssues s c t → bit v.toNat 0 = true →
    Answers (exec (.seqTableCommit c t v) s) (fun u => (u.cluster c).seq.commitDone = true ∧
      (firstBadSlot (s.cluster c).shadow [] = none → (u.cluster c).seq.commitStatus = .ok ∧
        ∀ k, k < 8 → (u.cluster k).commitPending = true ∧ (u.cluster k).pendingBank = (s.cluster k).shadow) ∧
      (firstBadSlot (s.cluster c).shadow [] ≠ none → (u.cluster c).seq.commitStatus = .malformed ∧
        ∀ k, (u.cluster k).commitPending = (s.cluster k).commitPending ∧ (u.cluster k).slots = (s.cluster k).slots))) ∧
  (∀ (c slot : Nat) (t : Tick) (s : State), SeqIssues s c t → slot < 256 →
    Answers (exec (.lossRead c t slot) s) (fun u => (u.cluster c).seq.lossF32 = (s.lossTotal slot).1 ∧
      (u.cluster c).seq.lossTokens = (s.lossTotal slot).2.1 ∧ (u.cluster c).seq.lossBits = (s.lossTotal slot).2.2)) ∧
  (∀ (c slot : Nat) (t : Tick) (v : W64) (s : State), SeqIssues s c t → slot < 256 → bit v.toNat 63 = true →
    Answers (exec (.lossClear c t slot v) s) (fun u => ∀ k, k < 8 → tget (u.cluster k).loss {} slot = {}))

/-- Layer starts and waits, timers, completion, notes, faults, and the debug halt. It rests on R21, R110, R157, R159, R163, R164, R165,
R213, R428, R468, R469, R492, R502, R503, R560. It also rests on the model's choices of log entries 10, 11, 35, 53, 56, 58, 74, 77 and
83. -/
def Obligations.SequencerControl : Prop :=
  (∀ (c pos : Nat) (t : Tick) (bs : List Nat) (q : Purse) (red : Bool) (s : State), SeqIssues s c t → pos < 12 →
    (∀ u, u = s.tick c t →
      (u.cluster c).seq.active = true ∧ (u.cluster c).seq.stop = false ∧ u.stopsDevice = false ∧ (u.cluster c).seq.cfg = [] ∧
      lcbCheck u c (c * 12 + pos) (u.core (c * 12 + pos)).lcb = none ∧ u.permitCore (c * 12 + pos) (u.core (c * 12 + pos)).lcb = none ∧
      (u.core (c * 12 + pos)).pending = none ∧ (u.core (c * 12 + pos)).running = none ∧
      (u.cluster c).purse.admits ((u.cluster c).purse.cost (u.core (c * 12 + pos)).lcb 1).1 ((u.cluster c).purse.cost (u.core (c * 12 + pos)).lcb 1).2 = some (q, red)) →
    Answers (exec (.layerStart c t (.core pos) bs [] []) s) (fun u =>
      (∃ ly, (u.core (c * 12 + pos)).running = some ly ∧ ly.lcb = ((s.tick c t).core (c * 12 + pos)).lcb ∧ ly.n = 1 ∧
        ly.div = (if red = true then q.div else 3) ∧ ly.pc = ((s.tick c t).cluster c).seq.pc) ∧
      (u.cluster c).purse.balance = q.balance ∧ (u.cluster c).purse.due = q.due)) ∧
  (∀ (c n : Nat) (t : Tick) (bs : List Nat) (ahead : List (Nat × Nat)) (s : State), SeqIssues s c t → (s.tick c t).physOf n = none →
    (s.cluster c).seq.active = true → ((s.tick c t).cluster c).seq.stop = false →
    Answers (exec (.layerStart c t (.logical n) bs ahead []) s) (fun u => (u.cluster c).seq.active = false ∧
      (u.cluster c).seq.ended = some .unitAbsent ∧ (u.cluster c).seq.haltCause = 6)) ∧
  (∀ (c mask : Nat) (t : Tick) (s : State), SeqIssues s c t →
    Answers (exec (.layerWait c t mask) s) (fun u => (u.cluster c).seq.layerMask = mask % 4096 ∧
      ((s.tick c t).idleMask c (mask % 4096) = false → (u.cluster c).seq.st = .waiting ∧ (u.cluster c).seq.waitOn = .layers))) ∧
  (∀ (p : Nat) (ly : Layer) (s : State), p < 96 → (s.core p).running = some ly → (s.core p).canComplete = true →
    Answers (exec (.layerComplete p) s) (fun t => (t.core p).lastStatus = ly.status ∧ (t.core p).layers = ((s.core p).layers + 1) % 65536)) ∧
  (∀ (c n : Nat) (t : Tick) (v : W64) (s : State), SeqIssues s c t → n < 4 →
    Answers (exec (.timerWait c t n v) s) (fun u => tget (u.cluster c).seq.timers 0 n = v ∧
      (s.now < v.toNat → (u.cluster c).seq.st = .waiting ∧ (u.cluster c).seq.waitOn = .timer ∧ (u.cluster c).seq.timerOn = some n))) ∧
  (∀ (c n : Nat) (s : State), (s.cluster c).seq.timerOn = some n → (s.cluster c).seq.st = .waiting →
    Answers (exec (.timerExpiry c) s) (fun t => (t.cluster c).seq.st = .running ∧ (t.cluster c).seq.timerOn = none)) ∧
  (∀ (c : Nat) (t : Tick) (w : W64) (s : State), SeqIssues s c t →
    ((s.tick c t).layersLeft c = false → Answers (exec (.seqCompletion c t w) s) (fun u => (u.cluster c).seq.active = false ∧
      (u.cluster c).seq.ended = some (Status.ofCode (fld w.toNat 0 8)) ∧ (u.cluster c).seq.result = BitVec.ofNat 32 (fld w.toNat 32 32))) ∧
    ((s.tick c t).layersLeft c = true → Answers (exec (.seqCompletion c t w) s) (fun u => (u.cluster c).seq.st = .waiting ∧
      (u.cluster c).seq.finish = some (Status.ofCode (fld w.toNat 0 8), BitVec.ofNat 32 (fld w.toNat 32 32))))) ∧
  (∀ (c : Nat) (t : Tick) (bs : List Byte) (s : State), SeqIssues s c t →
    Answers (exec (.programNote c t bs) s) (fun u => Logged (s.tick c t) u .programNote (srcCluster c))) ∧
  (∀ (c : Nat) (t : Tick) (s : State), SeqIssues s c t → (s.cluster c).seq.active = true →
    Answers (exec (.seqAddressFault c t) s) (fun u => (u.cluster c).seq.active = false ∧ (u.cluster c).seq.ended = some .malformed ∧
      (u.cluster c).seq.haltCause = 3) ∧
    Answers (exec (.seqInstructionFault c t) s) (fun u => (u.cluster c).seq.active = false ∧ (u.cluster c).seq.ended = some .malformed ∧
      (u.cluster c).seq.haltCause = 4)) ∧
  (∀ (c : Nat) (s : State), c < 8 →
    Answers (exec (.seqMemUncorrected c) s) (fun t => (t.unit (clusterName c).code).perm = .fenced ∧ (t.cluster c).seq.st = .idle)) ∧
  (∀ (c : Nat) (x : Tick) (n : Nat) (v : W64) (bs : List Byte) (s : State), c < 8 → (s.cluster c).seq.st = .running → s.col.pointWait = false →
    (s.cluster c).clock.stopped = false → s.stopsDevice = false → (s.cluster c).seq.imemBad.contains (x.pc % 2 ^ 18 / 64) = true →
    let lost := exec (.seqMemUncorrected c) (s.tick c x)
    exec (.programNote c x bs) s = lost ∧ exec (.lossRead c x n) s = lost ∧ exec (.hwmClear c x n v) s = lost ∧
    exec (.timerWait c x n v) s = lost ∧ exec (.layerWait c x n) s = lost ∧ exec (.seqCompletion c x v) s = lost) ∧
  (∀ (c : Nat) (s : State), c < 8 → s.sec.debugEnd.isSome = true → ((s.cluster c).seq.st = .running ∨ (s.cluster c).seq.st = .waiting) →
    Answers (exec (.debugHalt c) s) (fun t => (t.cluster c).seq.st = .halted ∧ (t.cluster c).seq.haltCause = 1 ∧
      (t.cluster c).seq.resume = (s.cluster c).seq.st)) ∧
  (∀ (c : Nat) (s : State), c < 8 → (s.cluster c).seq.st = .halted → (s.cluster c).seq.waitingStart = none →
    Answers (exec (.debugResume c) s) (fun t => (t.cluster c).seq.st = (s.cluster c).seq.resume ∧ (t.cluster c).seq.haltCause = 0))

/-- Purse ticks, the rate of the device, droops and adaptive voltage. It rests on R467, R470, R475. It also rests on the model's choices of
log entries 10, 53 and 83. -/
def Obligations.PursesFill : Prop :=
  (∀ s : State, (∀ c, c < 8 → (s.cluster c).seq.waitOn ≠ .purse) →
    Answers (exec .purseRefillTick s) (fun t => t.aoNs = (s.aoNs / 1000 + 1) * 1000 ∧ t.pwr.qNext = none ∧
      ∀ c, c < 8 → (t.cluster c).purse.balance = (s.cluster c).purse.tick.balance ∧ (t.cluster c).purse.due = (s.cluster c).purse.tick.due)) ∧
  (∀ s : State, (∀ c, c < 8 → s.clusterOn c = true → s.rails.good.contains (3 + c) = true) → 2 ≤ s.dev.stage →
    Answers (exec .rateRecompute s) (fun t => t.pwr.qLocal = s.qLocalNow ∧
      t.pwr.qUsed = (if s.pwr.qHeld then min s.pwr.qSlice s.qLocalNow else s.qLocalNow) ∧
      ∀ c, c < 8 → (t.cluster c).purse.rate = if s.clusterOn c then (s.cluster c).purse.share * t.pwr.qUsed / 1024 else 0)) ∧
  (∀ (c : Nat) (s : State), c < 8 → (s.cluster c).clock.cstate = 0 →
    Answers (exec (.droopDetect c) s) (fun t => (t.cluster c).clock.stretches = satAdd 0xFFFF (s.cluster c).clock.stretches 1)) ∧
  (∀ (c margin : Nat) (up : Option Bool) (ok : Bool) (s : State), c < 8 → (s.cluster c).clock.cstate = 0 →
    Answers (exec (.avsUpdate c up margin ok) s) (fun t => ∀ next, next = (s.cluster c).clock.avsPend.getD (max (s.vmin2 c) (min (s.vmax2 c)
        (if up = some true then (s.cluster c).clock.volt2 + 5 else if up = some false then (s.cluster c).clock.volt2 - 5 else (s.cluster c).clock.volt2))) →
      (t.cluster c).clock.marginPs = margin % 65536 ∧
      ((s.cluster c).clock.avsHeld = true → (t.cluster c).clock.volt2 = (s.cluster c).clock.volt2 ∧ t.out = s.out) ∧
      ((s.cluster c).clock.avsHeld = false → ok = false → (t.cluster c).clock.volt2 = (s.cluster c).clock.volt2 ∧
        (t.cluster c).clock.avsPend = some next ∧ (t.cluster c).clock.avsFails = (s.cluster c).clock.avsFails + 1 ∧
        ((t.cluster c).clock.avsHeld = true ↔ (s.cluster c).clock.avsFails = 99)) ∧
      ((s.cluster c).clock.avsHeld = false → ok = true → (t.cluster c).clock.volt2 = next ∧ (t.cluster c).clock.avsPend = none ∧
        (t.cluster c).clock.avsFails = 0 ∧ t.out = s.out ++ [.avs c (next / 2)])))

/-- Thermal control, the pace rounds of a slice and the power brake. It rests on R471, R472, R477, R478, R479. It also rests on the model's
choices of log entries 6, 53 and 69. -/
def Obligations.HeatAndPace : Prop :=
  (∀ (ts : List Int) (s : State), ts.length = 64 → 1 ≤ s.dev.stage → s.pwr.overTrip = [] →
    Answers (exec (.thermalSample ts) s) (fun t => t.pwr.tmax = (max (hottest ts).1 0).toNat / 16 % 256 ∧ t.pwr.tmaxSensor = (hottest ts).2 ∧
      t.pwr.thermMw = (if 16 * (s.pwr.throttleC : Int) ≤ (hottest ts).1 then s.pwr.thermMw * 98 / 100
        else if (hottest ts).1 < 16 * ((s.pwr.throttleC : Int) - 3) then min (s.pwr.thermMw * 101 / 100) (s.pwr.boardW * 1000)
        else s.pwr.thermMw))) ∧
  (∀ (s : State), s.paces = true →
    Answers (exec .paceRound s) (fun t => t.pwr.round = s.now / 100000 ∧
      t.pwr.missed = (if s.pwr.roundOpen then satAdd 0xFFFF s.pwr.missed 1 else s.pwr.missed) ∧
      ∀ c, c < 8 → (t.cluster c).purse.demand = (s.cluster c).demandNow)) ∧
  (∀ (p : Packet) (s : State), s.inTurn p = true → p.kind = 1 → s.paceOk p false = true →
    (s.treeKids (s.srcAxis p.src)).any (fun k => k.2 == p.src) = true → s.pwr.paceOwn = none →
    Answers (exec (.paceCombine p) s) (fun t => t.pwr.paceKids.getLast? =
      some (s.srcAxis p.src, s.fromPlus (s.srcAxis p.src) p.src, leAt p.payload 4 4, fld (leAt p.payload 0 4) 0 11, leAt p.payload 8 4))) ∧
  (∀ (p : Packet) (s : State), s.inTurn p = true → p.kind = 1 → s.paceOk p true = true → s.paces = true →
    Answers (exec (.paceBroadcast p) s) (fun t => t.pwr.qSlice = fld (leAt p.payload 0 4) 0 11 ∧ t.pwr.qHeld = true ∧
      t.pwr.qNext = some (fld (leAt p.payload 0 4) 0 11) ∧ t.pwr.demand = leAt p.payload 8 4 ∧
      t.pwr.roundOpen = (s.pwr.roundOpen && leAt p.payload 4 4 % 2 ^ 32 != s.pwr.round % 2 ^ 32))) ∧
  (∀ s : State, s.pwr.brake = false →
    Answers (exec .powerBrake s) (fun t => t.pwr.brake = true ∧ (∀ c, c < 8 → (t.cluster c).clock.braked = true) ∧ Logged s t .powerBrake (srcBlock 7))) ∧
  (∀ s : State, Answers (exec .powerBrakeRelease s) (fun t => t.pwr.brake = false))

/-- Clock gating, power gating, waking, HOLD_RUN and deep idle. It rests on R464, R465, R466. It also rests on the model's choices of log
entry 10. -/
def Obligations.ClusterStates : Prop :=
  (∀ (c : Nat) (s : State), c < 8 → (s.cluster c).clock.cstate = 0 → s.clusterQuiet c = true →
    Answers (exec (.clockGate c) s) (fun t => (t.cluster c).clock.cstate = 1 ∧ (t.cluster c).clock.div = 3 ∧
      t.aoNs = max s.aoNs (max (s.cluster c).clock.since (s.cluster c).clock.used + s.pwr.cgDelay * 1000))) ∧
  (∀ (c : Nat) (s : State), c < 8 → (s.cluster c).clock.cstate = 1 → s.pwr.pgEn = true → s.dev.ready = true →
    Answers (exec (.powerGate c) s) (fun t => (t.cluster c).clock.cstate = 2 ∧
      t.aoNs = max s.aoNs ((s.cluster c).clock.since + s.pwr.pgDelay * 1000))) ∧
  (∀ (c : Nat) (s : State), c < 8 → s.canWake c = true → (s.cluster c).clock.cstate ≤ 2 →
    Answers (exec (.clusterWake c) s) (fun t => (t.cluster c).clock.cstate = 0) ∧
    Answers (exec (.holdRun c true) s) (fun t => (t.cluster c).clock.cstate = 0)) ∧
  (∀ (c : Nat) (v : Bool) (s : State), c < 8 → Answers (exec (.holdRun c v) s) (fun t => (t.cluster c).clock.holdRun = v)) ∧
  (∀ s : State, s.pwr.deepEn = true → s.dev.ready = true → s.pwr.deepIdle = false → s.commandRuns = false →
    (∀ c, c < 8 → (s.cluster c).clock.cstate = 2) → s.sliceLinks.any s.active = false →
    Answers (exec .deepIdleEntry s) (fun t => t.pwr.deepIdle = true ∧ t.dram.selfRefresh = true ∧
      t.aoNs = max s.aoNs (s.pwr.idleFrom + s.pwr.deepDelay * 1000000))) ∧
  (∀ s : State, s.pwr.deepIdle = true →
    Answers (exec .deepIdleExit s) (fun t => t.pwr.deepIdle = false ∧ t.dram.selfRefresh = false ∧ t.aoNs = s.aoNs + 60000))

/-- Regulator readings, undervoltages, rail faults and clock-domain timeouts. It rests on R476, R481, R482, R494, R499. It also rests on the
model's choices of log entries 10, 53, 54 and 78. -/
def Obligations.RailEvents : Prop :=
  (∀ (r mv da : Nat) (s : State), r < 18 →
    Answers (exec (.regulatorRead [(r, some (mv, da))]) s) (fun t => tget t.rails.mv 0 r = mv ∧ tget t.rails.da 0 r = da ∧
      tget t.rails.silent 0 r = 0 ∧ t.pwr.fixedMw = t.fixedNow) ∧
    Answers (exec (.regulatorRead [(r, none)]) s) (fun t => tget t.rails.silent 0 r = satAdd 0xFFFF (tget s.rails.silent 0 r) 1)) ∧
  (∀ (r : Nat) (s : State), r < 14 → s.rails.enabled.contains r = true → s.rails.low.contains r = false →
    Answers (exec (.railUndervoltage r) s) (fun t => t.rails.low = s.rails.low ++ [r] ∧
      (isClusterRail r = true → (t.cluster (r - 3)).clock.stopped = true))) ∧
  (∀ (r : Nat) (s : State), s.rails.low.contains r = true →
    Answers (exec (.railRecovery r) s) (fun t => t.rails.low.contains r = false ∧
      (isClusterRail r = true → s.err.fatal = false → (t.cluster (r - 3)).clock.stopped = false))) ∧
  (∀ (r : Nat) (s : State), r < 14 → s.rails.low.contains r = true →
    Answers (exec (.railFault r false) s) (fun t => t.rails.low.contains r = false ∧
      (isClusterRail r = true → (t.unit (clusterName (r - 3)).code).perm = .powerOff ∧ (t.cluster (r - 3)).clock.stopped = true) ∧
      (isClusterRail r = false → t.err.fatal = true))) ∧
  (∀ (domain addr : Nat) (s : State), s.rails.crossing.find? (fun x => x.domain == domain && x.addr == addr) = none →
    Answers (exec (.cdcTimeout domain addr none) s) (fun t => t.rails.cdcTimeouts = satAdd 0xFFFF s.rails.cdcTimeouts 1 ∧ t.aoNs = s.aoNs + 4000)) ∧
  (∀ (domain addr : Nat) (cmd : Option Desc) (x : Crossing) (s : State),
    s.rails.crossing.find? (fun x => x.domain == domain && x.addr == addr) = some x →
    Answers (exec (.cdcTimeout domain addr cmd) s) (fun t => t.rails.cdcTimeouts = satAdd 0xFFFF s.rails.cdcTimeouts 1 ∧
      t.aoNs = max s.aoNs x.deadline ∧ t.rails.crossing = s.rails.crossing.erase x ∧
      (x.bytes ≠ 0 → ∃ before, t.out = before ++ [.readData (2 ^ (8 * x.bytes) - 1) false])))

/-- Management reads of statements, the Day Book, the ledger, unit states and registers answer what the rules give. It rests on R445, R515,
R517, R523, R524, R529, R534, R536. It also rests on the model's choices of log entries 5 and 50. -/
def Obligations.ReadsAnswered : Prop :=
  (∀ (b w : Nat) (body : List Byte) (s : State), Served s b w → body.length = 4 → 64 * leAt body 2 2 ≤ 1024 →
    64 * leAt body 0 2 + 64 * leAt body 2 2 ≤ 4096 →
    exec (.statementGet b w body) s =
      .next (s.respond b 1 .ok (((padTo 4096 s.mgmt.lastStmt).drop (64 * leAt body 0 2)).take (64 * leAt body 2 2)))) ∧
  (∀ (b w : Nat) (body : List Byte) (s : State), Served s b w → body.length = 3 → 1 ≤ leAt body 2 1 → leAt body 2 1 ≤ 32 →
    s.err.dayBook = [] ∨ (s.err.nextSeq + 65536 - leAt body 0 2) % 65536 = 0 →
    exec (.daybookRead b w body) s = .next (s.respond b 2 .ok (fields [(2, s.err.nextSeq), (1, 0)]))) ∧
  (∀ (b w : Nat) (body : List Byte) (s : State) (d : Nat), Served s b w → body.length = 3 → 1 ≤ leAt body 2 1 → leAt body 2 1 ≤ 32 →
    d = (s.err.nextSeq + 65536 - leAt body 0 2) % 65536 → 1 ≤ d → d ≤ s.err.dayBook.length → d ≤ 32768 →
    exec (.daybookRead b w body) s = .next (s.respond b 2 .ok
      (fields [(2, (s.err.nextSeq + 65536 - d) % 65536), (1, min (leAt body 2 1) d)] ++
        ((s.err.dayBook.drop (s.err.dayBook.length - d)).take (leAt body 2 1)).flatMap (fun e => e.bytes)))) ∧
  (∀ (b w : Nat) (body : List Byte) (s : State) (r : LedgerRecord), Served s b w → body.length = 12 →
    (s.ledger.records.filter (fun r => r.live && r.seq == leAt body 0 8)).getLast? = some r → 64 * leAt body 10 2 ≤ 1024 →
    64 * leAt body 8 2 + 64 * leAt body 10 2 ≤ roundUp 64 r.bytes.length →
    exec (.ledgerRead b w body) s =
      .next (s.respond b 3 .ok (((r.bytes ++ List.replicate 64 0xFF#8).drop (64 * leAt body 8 2)).take (64 * leAt body 10 2)))) ∧
  (∀ (b w : Nat) (s : State), Served s b w →
    exec (.ledgerStatus b w []) s = .next (s.respond b 4 .ok (fields [(8, ((s.ledger.head).map (·.seq)).getD 0)] ++ padTo 32 s.ledger.headHash ++
      fields [(2, (s.ledger.offset + 4095) / 4096), (1, s.ledger.state), (1, 0), (2, s.ledger.droppedBoot)]))) ∧
  (∀ (b w : Nat) (body : List Byte) (s : State) (u : UnitName), Served s b w → body.length = 2 → unitOf (leAt body 0 2) = some u →
    exec (.unitStateRead b w body) s = .next (s.respond b 5 .ok (s.unitRecord u true))) ∧
  (∀ (b w : Nat) (body : List Byte) (s : State), Served s b w → body.length = 4 → leAt body 0 4 % 8 = 0 → leAt body 0 4 < 2 ^ 26 →
    (∀ r, regAt (leAt body 0 4) = some r → s.regAsleep r.1 = false) →
    exec (.regRead b w body) s = .next ((s.readReg (leAt body 0 4) 8).2.respond b 11 .ok (leBytes 8 (s.readReg (leAt body 0 4) 8).1)))

/-- Management requests set the endpoint, addresses, permissions, the power limit, purse depths and the event receiver. It rests on R467,
R470, R516, R517, R520, R524, R526. It also rests on the model's choices of log entries 5, 50 and 52. -/
def Obligations.ManagementSettings : Prop :=
  (∀ (b w eid : Nat) (s : State), s.bucelRuns = true → b < 3 → w < 4 →
    Answers (exec (.setEndpointId b w eid) s) (fun t => t.mgmt.eid = eid % 256 ∧ t.out = s.out ++ [.response b ansEndpoint 0 []])) ∧
  (∀ (addr : Nat) (s : State), Answers (exec (.dynamicAddressAssign addr) s) (fun t => t.mgmt.i3c = true ∧ t.mgmt.dynAddr = addr % 128)) ∧
  (∀ (b w : Nat) (body : List Byte) (s : State) (u : UnitName) (p : Perm), Served s b w → body.length = 4 →
    unitOf (leAt body 0 2) = some u → permOf (leAt body 2 1) = some p → (p = .powerOff → u.kind = .cluster) →
    s.permWord u ≠ .absent → (p = .enabled → (s.modUnit u.code (fun w => { w with hold := bit (leAt body 3 1) 0 })).withheld u = false) →
    Answers (exec (.setPermission b w body) s) (fun t => (t.unit u.code).perm = p ∧ (t.unit u.code).hold = bit (leAt body 3 1) 0)) ∧
  (∀ (b w : Nat) (body : List Byte) (s : State), Served s b w → body.length = 2 → 300 ≤ leAt body 0 2 → leAt body 0 2 ≤ 2000 →
    Answers (exec (.setPowerLimit b w body) s) (fun t => t.pwr.boardW = leAt body 0 2 ∧ Logged s t .powerLimitSet (srcBlock 6))) ∧
  (∀ (b w : Nat) (body : List Byte) (s : State), Served s b w → body.length = 8 → leAt body 0 1 ≤ 7 → 1000 ≤ leAt body 4 4 → leAt body 4 4 ≤ 100000 →
    Answers (exec (.setPurseDepth b w body) s) (fun t => (t.cluster (leAt body 0 1)).purse.depth = leAt body 4 4)) ∧
  (∀ (b w mask : Nat) (s : State), Served s b w →
    Answers (exec (.setEventReceiver b w mask) s) (fun t => t.mgmt.receiver = true ∧ t.mgmt.receiverMask = mask))

/-- Plans are written and retired, sensors read, and platform events repeated once and acknowledged. It rests on R319, R320, R519, R520. It
also rests on the model's choices of log entries 5 and 50. -/
def Obligations.PlanAndEvents : Prop :=
  (∀ (b w : Nat) (body : List Byte) (s : State), Served s b w → body.length = 64 → s.planWriteRow body = 6 →
    Answers (exec (.planWrite b w body) s) (fun t => t.dev.plan = some body ∧ t.dev.posState = 0)) ∧
  (∀ (b w : Nat) (body : List Byte) (s : State), Served s b w → body.length = 64 → s.planWriteRow body = 1 ∨ s.planWriteRow body = 5 →
    exec (.planWrite b w body) s = .next (s.respond b 9 .denied [])) ∧
  (∀ (b w : Nat) (body : List Byte) (s : State), Served s b w → body.length = 32 → s.maintenance = true → s.dev.plan.isSome = true →
    planHash s.dev.plan = body →
    Answers (exec (.planRetire b w body) s) (fun t => t.dev.plan = none ∧ t.dev.posState = 1)) ∧
  (∀ (b w id v : Nat) (s : State), Served s b w → id < 5000 → s.sensor id = some (some v) → s.sensorAbsent id = false → s.mgmt.lastStmt ≠ [] →
    exec (.getSensorReading b w id) s = .next (s.emit (.response b ansSensor 0 (0 :: leBytes 4 v)))) ∧
  (∀ (i : Nat) (e : PldmEvent) (s : State), s.mgmt.pldmEvents[i]? = some e → s.mgmt.bucelDown = false →
    Answers (exec (.platformEventRetry i) s) (fun t =>
      if e.resent then t.mgmt.pldmEvents = s.mgmt.pldmEvents.eraseIdx i ∧ t.out = s.out
      else t.out = s.out ++ [.platformEvent e.entry] ∧ t.mgmt.pldmEvents = lset s.mgmt.pldmEvents i { e with resent := true })) ∧
  (∀ (i : Nat) (s : State), Answers (exec (.platformEventAck i) s) (fun t => t.mgmt.pldmEvents = s.mgmt.pldmEvents.eraseIdx i))

/-- Firmware updates are requested, verified and activated. It rests on R521, R522, R545. It also rests on the model's choices of log
entries 5, 50 and 51. -/
def Obligations.FirmwareUpdate : Prop :=
  (∀ (b w cls : Nat) (s : State), Served s b w → s.sec.halt = false → 1 ≤ cls → cls ≤ 4 →
    Answers (exec (.requestUpdate b w cls) s) (fun t =>
      (s.mgmt.updating = none → t.mgmt.updating = some cls ∧ t.out = s.out ++ [.response b ansUpdate 0 []]) ∧
      (s.mgmt.updating.isSome = true → t = s.emit (.response b ansUpdate 0x81 [])))) ∧
  (∀ (b w cls : Nat) (image : FwCopy) (s : State), Served s b w → s.sec.halt = false → s.mgmt.updating = some cls →
    Answers (exec (.verifyComplete b w image) s) (fun t =>
      tget t.flash {} cls = (tget s.flash {} cls).put image (s.fwVerifies cls image) ∧
      t.mgmt.updating = if s.fwVerifies cls image then some cls else none)) ∧
  (∀ (b w : Nat) (s : State), Served s b w → s.sec.halt = false →
    Answers (exec (.activateFirmware b w) s) (fun t => t.mgmt.updating = none ∧
      (∀ cls, cls = 1 ∨ cls = 3 ∨ cls = 4 → (tget s.flash {} cls).verified = true →
        (tget t.flash {} cls).nextCold = true ∧ (tget t.flash {} cls).activeB = (tget s.flash {} cls).activeB) ∧
      ((tget s.flash {} 2).verified = true → (tget t.flash {} 2).activeB = (!(tget s.flash {} 2).activeB) ∧ t.mgmt.bucelDown = true)))

/-- Statements are taken at each period or skipped during a Bucel restart; counter and daily records are written. It rests on R528, R529,
R535, R536, R537, R538, R539. It also rests on the model's choices of log entries 10 and 48. -/
def Obligations.PeriodicRecords : Prop :=
  (∀ s : State, s.sec.halt = false → s.dev.stage ≠ 0 → s.mgmt.bucelDown = false →
    Answers (exec .statementTake s) (fun t => t.mgmt.stmtSeq = s.mgmt.stmtSeq + 1 ∧ t.mgmt.skipped = 0 ∧
      t.mgmt.lastDue = (max s.mgmt.lastTaken s.mgmt.lastDue / (1000 * s.mgmt.periodUs) + 1) * (1000 * s.mgmt.periodUs) ∧ t.tel.span = [])) ∧
  (∀ s : State, s.sec.halt = false → s.dev.stage ≠ 0 → s.mgmt.bucelDown = true →
    Answers (exec .statementTake s) (fun t => t.mgmt.stmtSeq = s.mgmt.stmtSeq ∧ t.mgmt.skipped = min (s.mgmt.skipped + 1) 0xFFFFFFFF)) ∧
  (∀ (s : State) (o st : Nat), s.sec.halt = false → s.dev.stage ≠ 0 → s.mgmt.bucelDown = false → s.err.injArm = false →
    s.ledger.place 5 (96 + (s.reachLife 5 3600).countersBytes.length) s.ledger.offset = some (o, st) →
    Answers (exec (.ledgerCounters 0) s) (fun t => ∃ r : LedgerRecord, t.ledger.records = s.ledger.records ++ [r] ∧ r.kind = 5 ∧
      r.seq = s.ledger.nextSeq ∧ r.prev = s.ledger.headHash ∧ r.payload = (s.reachLife 5 3600).countersBytes ∧ r.off = o ∧ r.live = true)) ∧
  (∀ (s : State) (fails : Nat), s.sec.halt = false → s.dev.stage ≠ 0 →
    Answers (exec (.ledgerDaily fails) s) (fun t => t.tel.day = []))

/-- ATTEST_GET signs once with each leaf, refuses when blocked, and waits for the tree. It rests on R554, R555, R556, R557. It also rests on
the model's choices of log entries 5, 30 and 31. -/
def Obligations.Attestation : Prop :=
  (∀ (b w : Nat) (body : List Byte) (s : State), Served s b w → body.length = 33 → s.sec.treeReady = true → s.sec.blocked = false →
    s.sec.nextLeaf + 64 < s.sec.leafEnd → s.sec.nextLeaf < leafCount →
    Answers (exec (.attestGet b w body) s) (fun t => t.sec.nextLeaf = s.sec.nextLeaf + 1 ∧
      t.out = s.out ++ [vendorOut b 12 .ok (t.attestBytes (body.take 32) ++ Config.hssSign s.sec.nextLeaf (t.attestBytes (body.take 32)) ++
        if bit (leAt body 32 1) 0 then Config.identityCertificate else [])] ∧
      t.sec.treeReady = ((s.sec.nextLeaf + 1) % bottomLeaves != 0))) ∧
  (∀ (b w : Nat) (body : List Byte) (s : State), Served s b w → body.length = 33 → s.sec.treeReady = true → s.sec.blocked = true →
    Answers (exec (.attestGet b w body) s) (fun t => t.sec.nextLeaf = s.sec.nextLeaf ∧ ∃ before, t.out = before ++ [vendorOut b 12 .denied []])) ∧
  (∀ (b w : Nat) (body : List Byte) (s : State), Served s b w → body.length = 33 → s.sec.treeReady = false →
    exec (.attestGet b w body) s = .next (s.modSec (fun x => { x with treeWait := x.treeWait ++ [(b, body)] }))) ∧
  (∀ s : State, Answers (exec .treeBuildDone s) (fun t => t.sec.treeWait = [] ∧ (s.sec.treeWait = [] → t.sec.treeReady = true)))

/-- Challenges, tokens, the rights they grant and how those end. It rests on R558, R559, R560. It also rests on the model's choices of log
entries 4 and 29. -/
def Obligations.Tokens : Prop :=
  (∀ (b w : Nat) (s : State), Served s b w →
    Answers (exec (.challenge b w) s) (fun t => ∃ n : List Byte, n.length = 32 ∧ t.sec.nonce = some (n, s.aoNs + 300 * second) ∧
      t.out = s.out ++ [vendorOut b 13 .ok (n ++ leBytes 8 s.fuses.serial.toNat)])) ∧
  (∀ (b w : Nat) (token key sig n : List Byte) (till : Nat) (s : State), Served s b w → token.length = 64 → key.length = 60 →
    ([sigBytes 1, sigBytes 2, sigBytes 3] : List Nat).contains sig.length = true → s.sec.nonce = some (n, till) → s.aoNs < till →
    Answers (exec (.present b w token key sig) s) (fun t => t.sec.nonce = none ∧
      (∃ before, t.out = before ++ [vendorOut b 13 (tokenStatus (s.tokenRow (some n) token key sig)) []]) ∧
      (s.tokenRow (some n) token key sig = 6 →
        (bit (tokenRights token) 0 = true → t.sec.debugEnd = some (s.aoNs + tokenSeconds token * second)) ∧
        (bit (tokenRights token) 1 = true → t.sec.maintEnd = some (s.aoNs + tokenSeconds token * second))) ∧
      (s.tokenRow (some n) token key sig ≠ 6 → t.sec.debugEnd = s.sec.debugEnd ∧ t.sec.maintEnd = s.sec.maintEnd))) ∧
  (∀ (b w : Nat) (s : State), Served s b w →
    Answers (exec (.relinquish b w) s) (fun t => t.sec.debugEnd = none ∧ t.sec.maintEnd = none)) ∧
  (∀ (n : List Byte) (till : Nat) (s : State), s.sec.nonce = some (n, till) →
    Answers (exec .nonceExpiry s) (fun t => t.sec.nonce = none ∧ t.aoNs = max s.aoNs till)) ∧
  (∀ (till : Nat) (s : State), s.sec.debugEnd = some till →
    Answers (exec (.rightExpiry false) s) (fun t => t.sec.debugEnd = none ∧ t.sec.maintEnd = s.sec.maintEnd ∧ t.aoNs = max s.aoNs till)) ∧
  (∀ (till : Nat) (s : State), s.sec.maintEnd = some till →
    Answers (exec (.rightExpiry true) s) (fun t => t.sec.maintEnd = none ∧ t.sec.debugEnd = s.sec.debugEnd ∧ t.err.injArm = false ∧
      Logged s t .maintenanceLeft (srcBlock 5)))

/-- The start-up stages follow one another as their events complete. It rests on R202, R316, R317, R543, R546, R547, R567, R568, R569, R572.
It also rests on the model's choices of log entries 10, 13, 21, 22 and 24. -/
def Obligations.BringUp : Prop :=
  (∀ (pins : List (List Nat)) (ref : Bool) (alt : List Nat) (s : State),
    Answers (exec (.coldReset pins ref alt) s) (fun t => t.fuses = s.fuses ∧ t.units = [] ∧ t.job = {} ∧ (t.sec.halt = true ∨ t.dev.stage = 2) ∧
      (∀ ls : Nat → Nat, (∀ i, i < 16 → pinLevel (pins.getD i []) = some (ls i)) →
        t.dev.position = (List.range 16).foldl (fun a i => a + ls i * 4 ^ i) 0))) ∧
  (∀ (r : Nat) (s : State), s.dev.stage = 2 → s.dev.railFailed = false → s.rails.enabled.getLast? = some r → s.rails.good.contains r = false →
    s.rails.low.contains r = false → Answers (exec (.railPowerGood r) s) (fun t => t.rails.good = s.rails.good ++ [r] ∧
      (∀ x, railOrder.find? (fun x => !s.rails.enabled.contains x) = some x → t.rails.enabled = s.rails.enabled ++ [x]) ∧
      (railOrder.all s.rails.enabled.contains = true → t.dev.stage = 3)) ∧
    Answers (exec (.railEnableTimeout r) s) (fun t => t.dev.railFailed = true ∧ t.dev.stage = 2 ∧ Logged s t .railEnableFail (srcRail r))) ∧
  (∀ (r : Nat) (s : State), 3 ≤ s.dev.stage → isClusterRail r = true → s.rails.enabled.contains r = true → s.rails.good.contains r = false →
    s.rails.low.contains r = false →
    Answers (exec (.railPowerGood r) s) (fun t => t.rails.good = s.rails.good ++ [r] ∧
      (s.err.fatal = false → (t.cluster (r - 3)).clock.stopped = false))) ∧
  (∀ (ref : Nat) (s : State), s.dev.refMissing.contains ref = true →
    Answers (exec (.refclkCheck ref true) s) (fun t => t.dev.refMissing.contains ref = false)) ∧
  (∀ s : State, s.dev.stage = 3 → s.sec.phyRingBad = false →
    Answers (exec .pllLock s) (fun t => t.dev.stage = 4 ∧ (∀ c, c < 8 → (t.cluster c).seq.imem = [] ∧ (t.cluster c).seq.dmem = []) ∧
      (∀ a, dramWindow ≤ a → a < 2 ^ 48 → t.mem.byte a = 0))) ∧
  (∀ (xs : List (Nat × Module)) (s : State), s.dev.stage = 4 →
    Answers (exec (.dramTrainingDone xs) s) (fun t => t.dev.stage = 5 ∧ t.dram.selfRefresh = false ∧
      (∀ n, t.dram.used.contains n = true → ∃ m, (n, m) ∈ xs ∧ m.supported = true ∧ m.trains = true))) ∧
  (∀ s : State, s.dev.stage = 5 → s.dev.zeroed = false →
    Answers (exec .dramZeroDone s) (fun t => t.dev.zeroed = true ∧ ∀ a, a < dramWindow → t.mem.byte a = 0)) ∧
  (∀ s : State, s.dev.stage = 5 → s.dev.zeroed = true → s.dev.ready = false →
    Answers (exec .deviceReady s) (fun t => t.dev.ready = true ∧ t.dev.stage = 6 ∧ t.aoNs = s.aoNs + 10000 ∧
      t.dev.lastReset = (if s.dev.warm then 2 else 1))) ∧
  (∀ (cls : Nat) (s : State), s.dev.ready = true → tget s.sec.booted [] cls ≠ [] →
    Answers (exec (.rollbackFuseBlow cls) s) (fun t => t.fuses.svn cls = max (s.fuses.svn cls) (leAt (tget s.sec.booted [] cls) 6 1) ∧
      t.fuses.revoke0 = (s.fuses.revoke0 || bit (leAt (tget s.sec.booted [] cls) 7 1) 0))) ∧
  (∀ s : State, Answers (exec (.perstDeassert true) s) (fun t => t.dev.perst = false ∧
      (s.railsUp = true → s.dev.refMissing.contains 1 = false → t.host.pcieUp = true)))

/-- What each reset clears and what it keeps. It rests on R422, R446, R573, R574, R575, R576, R577, R578, R588. It also rests on the model's
choices of log entries 10, 15, 25, 26 and 62. -/
def Obligations.Resets : Prop :=
  (∀ s : State, Answers (exec (.aoPowerLoss false) s) (fun t => t.fuses = s.fuses ∧ t.flash = s.flash ∧ t.ledger.records = s.ledger.records ∧
      t.clusters = [] ∧ t.cores = [] ∧ t.units = [] ∧ t.ports = [] ∧ t.mem = {} ∧ t.job = {} ∧ t.host = {} ∧ t.sec = {} ∧ t.err = {})) ∧
  (∀ (p : Bool) (s : State), s.coldBringUp = false → 3 ≤ s.dev.stage →
    Answers (exec (.warmReset p) s) (fun t => t.dev.stage = 3 ∧ t.dev.ready = false ∧ t.dev.lastReset = 2 ∧ (∀ p, t.core p = { vault := (t.core p).vault }) ∧ t.job = {} ∧
      t.err.fatal = false ∧ t.aoNs = s.aoNs + 1000000 ∧ t.rails.crossing = [] ∧ (∀ a, a < dramWindow → t.mem.byte a = s.mem.byte a) ∧ (∀ a, dramWindow ≤ a → t.mem.byte a = 0))) ∧
  (∀ s : State, s.dev.ready = true →
    Answers (exec .functionLevelReset s) (fun t => t.job = {} ∧ t.rtr.slice = {} ∧ t.preempts = [] ∧ (s.sec.minScrub = 2 → t.dev.ready = false) ∧
      t.dev.scrubbing = (s.sec.minScrub == 2) ∧ t.dev.lastReset = 3)) ∧
  (∀ s : State, s.dev.scrubbing = true →
    Answers (exec .flrScrubDone s) (fun t => t.dev.ready = true ∧ t.dev.scrubbing = false ∧ ∀ a, a < dramWindow → t.mem.byte a = 0)) ∧
  (∀ s : State, s.dev.ready = true →
    Answers (exec .sliceReset s) (fun t => t.settle.phase = .idle ∧ t.dec.stmtState = 0 ∧ t.dev.lastReset = 4 ∧
      (s.hasSlice = true → t.rtr.slice.resetNo = (s.rtr.slice.resetNo + 1) % 65536))) ∧
  (∀ (c : Nat) (s : State), s.dev.ready = true → c < 8 → Answers (exec (.clusterReset c) s) (fun t => (t.cluster c).seq.st = .idle)) ∧
  (∀ (p : Nat) (s : State), s.dev.ready = true → p < 96 → Answers (exec (.coreReset p) s) (fun t => (t.core p).lcb = List.replicate 512 0)) ∧
  (∀ (n : Nat) (s : State), s.dev.ready = true → n < 8 →
    Answers (exec (.portReset n) s) (fun t => (t.port n).link.spareTx = false ∧ (t.port n).link.spareRx = false ∧ (t.port n).disc.cause = 0 ∧
      (t.unit (UnitName.code ⟨.port, n⟩)).faulted = false))
end

