-- ==== Sys2Proof/Laws/Answers.lean ====
section
/-!
SUPPORT. How a command completes: the ways to show that a result is a next state with a property.
-/
set_option autoImplicit false
namespace Sys2Proof.Machine

namespace Answers

theorem next {t : State} {P : State → Prop} (h : P t) : Answers (.next t) P := ⟨t, rfl, h⟩

theorem ite {c : Prop} [Decidable c] {a a' : Host.Outcome State Fault Refusal} {P : State → Prop} (h : Answers a P) (h' : Answers a' P) :
    Answers (if c then a else a') P := by split <;> assumption

theorem imp {r : Host.Outcome State Fault Refusal} {P Q : State → Prop} (h : Answers r P) (k : ∀ t, P t → Q t) : Answers r Q :=
  match h with | ⟨t, e, p⟩ => ⟨t, e, k t p⟩

end Answers

end Sys2Proof.Machine
end

