-- ==== Sys2Proof/Laws/Tables.lean ====
section
/-!
SUPPORT. Sparse tables: what a read gives after an update, and that every update keeps the canonical form.
-/
set_option autoImplicit false
namespace Sys2Proof.Machine

section Table
variable {α : Type}

/-- Whether every index of the table lies above a bound. -/
def tabAbove (lo : Option Nat) (i : Nat) : Bool := match lo with | none => true | some k => decide (k < i)

theorem tabFrom_cons [DecidableEq α] (d : α) (lo : Option Nat) (j : Nat) (v : α) (r : Tab α) :
    tabFrom d lo ((j, v) :: r) = (tabAbove lo j && decide (v ≠ d) && tabFrom d (some j) r) := by cases lo <;> rfl

@[simp] theorem tget_nil (d : α) (i : Nat) : tget ([] : Tab α) d i = d := rfl

@[simp] theorem tget_tput (t : Tab α) (d : α) (i k : Nat) (v : α) : tget (tput t i v) d k = if k = i then v else tget t d k := by
  induction t with
  | nil => simp only [tput, tget]; split <;> split <;> first | rfl | omega
  | cons p r ih =>
    obtain ⟨j, w⟩ := p
    simp only [tput]
    by_cases h : j = i
    · subst h; simp only [↓reduceIte, tget]; by_cases h' : k = j
      · subst h'; simp
      · simp only [if_neg (Ne.symm h'), if_neg h']
    · simp only [if_neg h]
      by_cases h2 : i < j
      · simp only [if_pos h2, tget]; by_cases h' : k = i
        · subst h'; simp
        · simp only [if_neg (Ne.symm h'), if_neg h']
      · simp only [if_neg h2, tget, ih]
        by_cases h3 : j = k
        · subst h3; simp [h]
        · simp [h3]

/-- A canonical table with a lower bound holds the default below it. -/
theorem tget_below [DecidableEq α] (d : α) (t : Tab α) (k i : Nat) (h : tabFrom d (some k) t = true) (hi : i ≤ k) : tget t d i = d := by
  induction t generalizing k with
  | nil => rfl
  | cons p r ih =>
    obtain ⟨j, v⟩ := p
    simp only [tabFrom_cons, tabAbove, Bool.and_eq_true, decide_eq_true_eq] at h
    have : ¬ j = i := by omega
    simp only [tget, if_neg this]
    exact ih j h.2 (by omega)

theorem tabFrom_weaken [DecidableEq α] (d : α) (t : Tab α) (a b : Nat) (hab : a ≤ b) (h : tabFrom d (some b) t = true) : tabFrom d (some a) t = true := by
  cases t with
  | nil => rfl
  | cons p r =>
    obtain ⟨j, v⟩ := p
    simp only [tabFrom_cons, tabAbove, Bool.and_eq_true, decide_eq_true_eq] at h ⊢
    exact ⟨⟨by omega, h.1.2⟩, h.2⟩

theorem tabFrom_none [DecidableEq α] (d : α) (t : Tab α) (lo : Option Nat) (h : tabFrom d lo t = true) : tabFrom d none t = true := by
  cases t with
  | nil => rfl
  | cons p r =>
    obtain ⟨j, v⟩ := p
    simp only [tabFrom_cons, Bool.and_eq_true] at h ⊢
    exact ⟨⟨rfl, h.1.2⟩, h.2⟩

theorem tabFrom_tput [DecidableEq α] (d : α) (t : Tab α) (lo : Option Nat) (i : Nat) (v : α) (hv : v ≠ d) (hi : tabAbove lo i = true)
    (h : tabFrom d lo t = true) : tabFrom d lo (tput t i v) = true := by
  induction t generalizing lo with
  | nil => simp [tput, tabFrom_cons, hi, hv, tabFrom]
  | cons p r ih =>
    obtain ⟨j, w⟩ := p
    simp only [tabFrom_cons, Bool.and_eq_true, decide_eq_true_eq] at h
    simp only [tput]
    by_cases e : j = i
    · subst e; simp only [↓reduceIte, tabFrom_cons, Bool.and_eq_true, decide_eq_true_eq]; exact ⟨⟨hi, hv⟩, h.2⟩
    · simp only [if_neg e]
      by_cases l : i < j
      · simp only [if_pos l, tabFrom_cons, Bool.and_eq_true, decide_eq_true_eq, tabAbove]; exact ⟨⟨hi, hv⟩, ⟨l, h.1.2⟩, h.2⟩
      · simp only [if_neg l, tabFrom_cons, Bool.and_eq_true, decide_eq_true_eq]
        exact ⟨h.1, ih (some j) (by simp only [tabAbove, decide_eq_true_eq]; omega) h.2⟩

theorem tabFrom_filter [DecidableEq α] (d : α) (p : Nat × α → Bool) (t : Tab α) (lo : Option Nat) (h : tabFrom d lo t = true) :
    tabFrom d lo (t.filter p) = true := by
  induction t generalizing lo with
  | nil => rfl
  | cons q r ih =>
    obtain ⟨j, v⟩ := q
    simp only [tabFrom_cons, Bool.and_eq_true] at h
    simp only [List.filter_cons]
    split
    · simp only [tabFrom_cons, Bool.and_eq_true]; exact ⟨h.1, ih (some j) h.2⟩
    · cases lo with
      | none => exact tabFrom_none d _ (some j) (ih (some j) h.2)
      | some k =>
        have hk := h.1.1; simp only [tabAbove, decide_eq_true_eq] at hk
        exact tabFrom_weaken d _ k j (by omega) (ih (some j) h.2)

/-- Taking entries away keeps the canonical form. -/
theorem tabWf_filter [DecidableEq α] (d : α) (p : Nat × α → Bool) (t : Tab α) (h : tabWf d t = true) : tabWf d (t.filter p) = true :=
  tabFrom_filter d p t none h

/-- Storing keeps the canonical form. -/
theorem tabWf_tset [DecidableEq α] (d : α) (t : Tab α) (i : Nat) (v : α) (h : tabWf d t = true) : tabWf d (tset t d i v) = true := by
  unfold tabWf tset at *
  split
  · exact tabFrom_filter d _ t none h
  · exact tabFrom_tput d t none i v ‹_› rfl h

theorem tabWf_tmod [DecidableEq α] (d : α) (t : Tab α) (i : Nat) (f : α → α) (h : tabWf d t = true) : tabWf d (tmod t d i f) = true :=
  tabWf_tset d t i _ h

theorem tabWf_tmods [DecidableEq α] (d : α) (is : List Nat) (f : Nat → α → α) (t : Tab α) (h : tabWf d t = true) :
    tabWf d (tmods t d is f) = true := by
  unfold tmods
  induction is generalizing t with
  | nil => exact h
  | cons i is ih => exact ih _ (tabWf_tmod d t i _ h)

@[simp] theorem tget_tdel (d : α) (t : Tab α) (i k : Nat) : tget (tdel t i) d k = if k = i then d else tget t d k := by
  induction t with
  | nil => simp [tdel, tget]
  | cons p r ih =>
    obtain ⟨j, v⟩ := p
    simp only [tdel] at ih ⊢
    by_cases e : j = i
    · subst e
      rw [List.filter_cons_of_neg (by simp), ih]
      by_cases h' : k = j
      · simp [h']
      · simp [h', tget, Ne.symm h']
    · rw [List.filter_cons_of_pos (by simpa using e)]
      simp only [tget, ih]
      by_cases h3 : j = k
      · subst h3; simp [e]
      · simp [h3]

/-- A read after a store. -/
@[simp] theorem tget_tset [DecidableEq α] (d : α) (t : Tab α) (i k : Nat) (v : α) : tget (tset t d i v) d k = if k = i then v else tget t d k := by
  unfold tset
  by_cases e : v = d
  · subst e; simp
  · simp [e]

/-- A read after a change. -/
@[simp] theorem tget_tmod [DecidableEq α] (d : α) (t : Tab α) (i k : Nat) (f : α → α) :
    tget (tmod t d i f) d k = if k = i then f (tget t d i) else tget t d k := by unfold tmod; rw [tget_tset]

/-- A read after changes at several different indices. -/
theorem tget_tmods [DecidableEq α] (d : α) (is : List Nat) (f : Nat → α → α) (t : Tab α) (k : Nat) (h : is.Nodup) :
    tget (tmods t d is f) d k = if k ∈ is then f k (tget t d k) else tget t d k := by
  unfold tmods
  induction is generalizing t with
  | nil => simp
  | cons i is ih =>
    simp only [List.nodup_cons] at h
    rw [List.foldl_cons, ih _ h.2, tget_tmod]
    by_cases e : k = i
    · subst e; simp [h.1]
    · simp [e]

end Table

end Sys2Proof.Machine
end

