-- ==== Sys2Proof/Laws/Keeps.lean ====
section
/-!
SUPPORT. What no command does: it leaves the queue alone, takes nothing back that has left the device, erases no ledger record, and
keeps memories canonical. `Keeps b s t` says so of a passage from s to t; with b it says that t has the memory of s too. Every
operation on the state has one lemma, with the operation's name followed by `_keeps`.
-/
set_option autoImplicit false
namespace Sys2Proof.Machine

/-- The fields that `Keeps` speaks of. -/
structure Kept where
  pending : List Instr
  fuses   : Fuses
  out     : List Out
  ledger  : Ledger
  mem     : Memory
  saved   : Option SavedContext

@[reducible] def State.kept (s : State) : Kept := ⟨s.pending, s.fuses, s.out, s.ledger, s.mem, s.saved⟩

def Kept.memoryOk (k : Kept) : Prop :=
  k.mem.wf = true ∧ ∀ x, k.saved = some x → tabWf (0 : Byte) x.vaults = true ∧ tabWf false x.vaultPoison = true

/-- From s to a state with the fields t: the queue and the fuses are the same, outputs and ledger records stay where they are,
memories stay canonical, and with b the memory is the same. -/
def KeepsF (b : Bool) (s : State) (t : Kept) : Prop :=
  t.pending = s.pending ∧ t.fuses = s.fuses ∧ s.out <+: t.out ∧ s.ledger.cores <+: t.ledger.cores ∧ (s.memoryOk → t.memoryOk) ∧
    (b = true → t.mem = s.mem)

def Keeps (b : Bool) (s t : State) : Prop := KeepsF b s t.kept

namespace Keeps
variable {b : Bool} {s t u : State}

theorem refl (b : Bool) (s : State) : Keeps b s s := ⟨rfl, rfl, List.prefix_refl _, List.prefix_refl _, id, fun _ => rfl⟩

theorem trans (h : Keeps b s t) (k : Keeps b t u) : Keeps b s u :=
  ⟨k.1.trans h.1, k.2.1.trans h.2.1, h.2.2.1.trans k.2.2.1, h.2.2.2.1.trans k.2.2.2.1, k.2.2.2.2.1 ∘ h.2.2.2.2.1,
    fun e => (k.2.2.2.2.2 e).trans (h.2.2.2.2.2 e)⟩

theorem weaken (h : Keeps b s t) : Keeps false s t := ⟨h.1, h.2.1, h.2.2.1, h.2.2.2.1, h.2.2.2.2.1, fun e => nomatch e⟩

theorem lit (h : KeepsF b s t.kept) : Keeps b s t := h

/-- A state that differs in other fields only. -/
theorem same (t : State) (h1 : u.kept = t.kept) (h : Keeps b s t) : Keeps b s u := by unfold Keeps at *; rw [h1]; exact h

theorem unlit (h : Keeps b s t) : KeepsF b s ⟨t.pending, t.fuses, t.out, t.ledger, t.mem, t.saved⟩ := h

/-- Something leaves the device. -/
theorem sent {p f o l m v} (x : List Out) (h : KeepsF b s ⟨p, f, o, l, m, v⟩) : KeepsF b s ⟨p, f, o ++ x, l, m, v⟩ :=
  ⟨h.1, h.2.1, h.2.2.1.trans (List.prefix_append _ _), h.2.2.2⟩

/-- The ledger's records stay where they are. -/
theorem record (t : State) (l : Ledger) (hl : t.ledger.cores <+: l.cores) (h : Keeps b s t) : Keeps b s { t with ledger := l } :=
  ⟨h.1, h.2.1, h.2.2.1, h.2.2.2.1.trans hl, h.2.2.2.2⟩

/-- A memory in its canonical form takes the place of the memory. -/
theorem memory (t : State) (m : Memory) (hm : t.mem.wf = true → m.wf = true) (h : Keeps false s t) : Keeps false s { t with mem := m } :=
  ⟨h.1, h.2.1, h.2.2.1, h.2.2.2.1, fun e => ⟨hm (h.2.2.2.2.1 e).1, (h.2.2.2.2.1 e).2⟩, fun e => nomatch e⟩

/-- A context is saved in canonical form. -/
theorem context (t : State) (v : Option SavedContext)
    (hv : t.mem.wf = true → ∀ x, v = some x → tabWf (0 : Byte) x.vaults = true ∧ tabWf false x.vaultPoison = true)
    (h : Keeps b s t) : Keeps b s { t with saved := v } :=
  ⟨h.1, h.2.1, h.2.2.1, h.2.2.2.1, fun e => ⟨(h.2.2.2.2.1 e).1, hv (h.2.2.2.2.1 e).1⟩, h.2.2.2.2.2⟩

/-- Memory and context are replaced. -/
theorem whole (h1 : u.pending = t.pending) (h2 : u.fuses = t.fuses) (h3 : u.out = t.out) (h4 : u.ledger.cores <+: t.ledger.cores)
    (h5 : u.memoryOk → t.memoryOk) (h : Keeps false s u) : Keeps false s t :=
  ⟨h1.symm.trans h.1, h2.symm.trans h.2.1, (show s.out <+: t.out from h3 ▸ h.2.2.1), h.2.2.2.1.trans h4, fun e => h5 (h.2.2.2.2.1 e), fun e => nomatch e⟩

theorem ite {c : Prop} [Decidable c] {a a' : State} (ha : Keeps b s a) (ha' : Keeps b s a') : Keeps b s (if c then a else a') := by
  split <;> assumption

theorem ite2 {α : Type} {c : Prop} [Decidable c] {a a' : α × State} (ha : Keeps b s a.2) (ha' : Keeps b s a'.2) :
    Keeps b s (if c then a else a').2 := by split <;> assumption

theorem ite3 {α β : Type} {c : Prop} [Decidable c] {a a' : α × β × State} (ha : Keeps b s a.2.2) (ha' : Keeps b s a'.2.2) :
    Keeps b s (if c then a else a').2.2 := by split <;> assumption

theorem pair {α : Type} {p : α × State} {a : α} (h : p = (a, t)) (hp : Keeps b s p.2) : Keeps b s t := by subst h; exact hp

theorem triple {α β : Type} {p : α × β × State} {a : α} {a' : β} (h : p = (a, a', t)) (hp : Keeps b s p.2.2) : Keeps b s t := by
  subst h; exact hp

theorem foldl {α : Type} {f : State → α → State} {l : List α} (h : ∀ t x, Keeps b s t → Keeps b s (f t x)) (h0 : Keeps b s t) :
    Keeps b s (l.foldl f t) := by
  induction l generalizing t with
  | nil => exact h0
  | cons x l ih => exact ih (h _ _ h0)

theorem foldl2 {α β : Type} {f : β × State → α → β × State} {l : List α} {a : β × State}
    (h : ∀ a x, Keeps b s a.2 → Keeps b s (f a x).2) (h0 : Keeps b s a.2) : Keeps b s (l.foldl f a).2 := by
  induction l generalizing a with
  | nil => exact h0
  | cons x l ih => exact ih (h _ _ h0)

theorem foldl3 {α β γ : Type} {f : β × γ × State → α → β × γ × State} {l : List α} {a : β × γ × State}
    (h : ∀ a x, Keeps b s a.2.2 → Keeps b s (f a x).2.2) (h0 : Keeps b s a.2.2) : Keeps b s (l.foldl f a).2.2 := by
  induction l generalizing a with
  | nil => exact h0
  | cons x l ih => exact ih (h _ _ h0)

end Keeps

/-- An entry is replaced by one that reads alike. -/
theorem map_lset_same {α β : Type} (f : α → β) (l : List α) (i : Nat) (v : α) {x : α} (h : l[i]? = some x) (e : f v = f x) :
    (lset l i v).map f = l.map f := by
  induction l generalizing i with
  | nil => cases i <;> rfl
  | cons a r ih =>
    cases i with
    | zero => simp only [List.getElem?_cons_zero, Option.some.injEq] at h; subst h; simp [lset, e]
    | succ j => simp only [List.getElem?_cons_succ] at h; simpa [lset] using ih j h

theorem cores_lset {l : List LedgerRecord} (i : Nat) (v x : LedgerRecord) (h : l[i]? = some x) (e : v.core = x.core) :
    l.map LedgerRecord.core <+: (lset l i v).map LedgerRecord.core := by
  simpa only [map_lset_same LedgerRecord.core l i v h e] using List.prefix_refl _

theorem Ledger.alter_cores (l : Ledger) (is : List Nat) : (l.alter is).cores = l.cores := by
  unfold Ledger.alter Ledger.cores; dsimp only
  generalize l.records = rs
  induction is generalizing rs with
  | nil => rfl
  | cons i r ih =>
    rw [List.foldl_cons, ih]
    split
    · rename_i h; exact map_lset_same _ _ _ _ h rfl
    · rfl


end Sys2Proof.Machine
end

