-- ==== Sys2Proof/Laws/Memory.lean ====
section
/-!
SUPPORT. The memory: every operation keeps its canonical form, a byte just written reads as written, and every other byte and unit
reads as before.
-/
set_option autoImplicit false
namespace Sys2Proof.Machine

/-! ### Runs of bytes -/

theorem cellsPut_wf (bs : List Byte) : ∀ (c : List Host.Cell) (a : Nat), tabWf (0 : Byte) c = true → tabWf (0 : Byte) (cellsPut c a bs) = true := by
  induction bs with
  | nil => intro c a h; exact h
  | cons b r ih => intro c a h; exact ih _ _ (tabWf_tset _ _ _ _ h)

theorem cellsPut_below (bs : List Byte) : ∀ (c : List Host.Cell) (a k : Nat), k < a → tget (cellsPut c a bs) (0 : Byte) k = tget c 0 k := by
  induction bs with
  | nil => intro c a k _; rfl
  | cons b r ih => intro c a k h; show tget (cellsPut (tset c 0 a b) (a + 1) r) 0 k = _; rw [ih _ _ _ (by omega), tget_tset, if_neg (by omega)]

theorem cellsPut_above (bs : List Byte) : ∀ (c : List Host.Cell) (a k : Nat), a + bs.length ≤ k → tget (cellsPut c a bs) (0 : Byte) k = tget c 0 k := by
  induction bs with
  | nil => intro c a k _; rfl
  | cons b r ih =>
    intro c a k h; simp only [List.length_cons] at h
    show tget (cellsPut (tset c 0 a b) (a + 1) r) 0 k = _; rw [ih _ _ _ (by omega), tget_tset, if_neg (by omega)]

theorem cellsPut_in (bs : List Byte) : ∀ (c : List Host.Cell) (a i : Nat) (h : i < bs.length), tget (cellsPut c a bs) (0 : Byte) (a + i) = bs[i] := by
  induction bs with
  | nil => intro c a i h; simp at h
  | cons b r ih =>
    intro c a i h
    show tget (cellsPut (tset c 0 a b) (a + 1) r) 0 (a + i) = _
    cases i with
    | zero => rw [cellsPut_below _ _ _ _ (by omega), tget_tset]; simp
    | succ j => rw [show a + (j + 1) = a + 1 + j by omega, ih _ _ _ (by simpa using h)]; rfl

/-! ### Memory -/

theorem Memory.wf_iff (m : Memory) : m.wf = true ↔ tabWf (0 : Byte) m.cells = true ∧ tabWf false m.poison = true ∧ tabWf 0 m.minted = true := by
  unfold Memory.wf; simp [and_assoc]

theorem Memory.wf_store (m : Memory) (a : Nat) (bs : List Byte) (src : Nat → Bool) (h : m.wf = true) : (m.store a bs src).wf = true := by
  rw [Memory.wf_iff] at *
  refine ⟨cellsPut_wf _ _ _ h.1, ?_, tabWf_filter _ _ _ h.2.2⟩
  have hp := h.2.1
  unfold Memory.store; dsimp only
  generalize m.poison = p at hp
  clear h
  induction unitsOf a bs.length generalizing p with
  | nil => exact hp
  | cons u r ih => exact ih _ (tabWf_tset _ _ _ _ hp)

theorem Memory.wf_mark (m : Memory) (a : Nat) (h : m.wf = true) : (m.mark a).wf = true := by
  rw [Memory.wf_iff] at *; exact ⟨h.1, tabWf_tset false m.poison (a / 64) true h.2.1, tabWf_filter _ _ _ h.2.2⟩

theorem Memory.wf_marks (l : List Nat) (m : Memory) (h : m.wf = true) : (l.foldl (fun (m : Memory) a => m.mark a) m).wf = true := by
  induction l generalizing m with
  | nil => exact h
  | cons a r ih => exact ih _ (m.wf_mark a h)

theorem Memory.wf_zero (m : Memory) (lo hi : Nat) (h : m.wf = true) : (m.zero lo hi).wf = true := by
  rw [Memory.wf_iff] at *; exact ⟨tabWf_filter _ _ _ h.1, tabWf_filter _ _ _ h.2.1, tabWf_filter _ _ _ h.2.2⟩

theorem Memory.wf_mintPiece (m : Memory) (a : Nat) (bs : List Byte) (q w : Bool) (h : m.wf = true) : (m.mintPiece a bs q w).wf = true := by
  rw [Memory.wf_iff] at *; exact ⟨cellsPut_wf _ _ _ h.1, tabWf_tset _ _ _ _ h.2.1, tabWf_tset _ _ _ _ h.2.2⟩

/-- A byte just stored reads as it was stored. -/
theorem Memory.byte_store_in (m : Memory) (a i : Nat) (bs : List Byte) (src : Nat → Bool) (h : i < bs.length) :
    (m.store a bs src).byte (a + i) = bs[i] := cellsPut_in bs m.cells a i h

/-- A byte outside the stored range reads as before. -/
theorem Memory.byte_store_out (m : Memory) (a k : Nat) (bs : List Byte) (src : Nat → Bool) (h : k < a ∨ a + bs.length ≤ k) :
    (m.store a bs src).byte k = m.byte k := by
  rcases h with h | h
  · exact cellsPut_below bs m.cells a k h
  · exact cellsPut_above bs m.cells a k h

@[simp] theorem Memory.byte_mark (m : Memory) (a k : Nat) : (m.mark a).byte k = m.byte k := rfl

@[simp] theorem Memory.poisoned_mark (m : Memory) (a k : Nat) :
    (m.mark a).poisoned k = if k / 64 = a / 64 then true else m.poisoned k := by
  unfold Memory.mark Memory.poisoned; dsimp only; rw [tget_tset]

/-- A cleared range reads zero. -/
@[simp] theorem Memory.byte_zero (m : Memory) (lo hi k : Nat) : (m.zero lo hi).byte k = if lo ≤ k ∧ k < hi then 0 else m.byte k := by
  unfold Memory.zero Memory.byte; dsimp only
  generalize m.cells = c
  induction c with
  | nil => simp
  | cons p r ih =>
    obtain ⟨j, v⟩ := p
    by_cases hj : lo ≤ j ∧ j < hi
    · rw [List.filter_cons_of_neg (by simp only [Bool.not_eq_true', Bool.and_eq_true, decide_eq_true_eq, Bool.not_eq_false]; simp [hj.1, hj.2]), ih]
      split
      · rfl
      · rename_i hn; simp only [tget]; split
        · rename_i e; subst e; exact absurd hj hn
        · rfl
    · rw [List.filter_cons_of_pos (by simp; omega)]
      simp only [tget]; split
      · rename_i e; subst e; rw [if_neg hj]
      · exact ih

/-- Entries with indices below a border, followed by entries from the border on, are in canonical form. -/
theorem tabFrom_border {α : Type} [DecidableEq α] (d : α) (b : Nat) (r : Tab α) (hr : tabFrom d none r = true) (hb : ∀ x ∈ r, b ≤ x.1) :
    ∀ (l : Tab α) (lo : Option Nat), tabFrom d lo l = true → (∀ x ∈ l, x.1 < b) → (∀ n, lo = some n → n < b) → tabFrom d lo (l ++ r) = true := by
  intro l
  induction l with
  | nil =>
    intro lo _ _ hlo
    cases r with
    | nil => rfl
    | cons p q =>
      obtain ⟨j, v⟩ := p
      have hj := hb (j, v) (by simp)
      rw [List.nil_append, tabFrom_cons]; rw [tabFrom_cons] at hr
      simp only [Bool.and_eq_true] at *
      refine ⟨⟨?_, hr.1.2⟩, hr.2⟩
      cases lo with
      | none => rfl
      | some n => have := hlo n rfl; simp only [tabAbove, decide_eq_true_eq]; have hj' : b ≤ j := hj; omega
  | cons p q ih =>
    intro lo h hl hlo
    obtain ⟨j, v⟩ := p
    rw [List.cons_append, tabFrom_cons]; rw [tabFrom_cons] at h
    simp only [Bool.and_eq_true] at *
    refine ⟨h.1, ih _ h.2 (fun x hx => hl x (by simp [hx])) ?_⟩
    intro n hn; cases hn; exact hl (j, v) (by simp)

/-- The two parts of a table, either side of a border. -/
theorem tabWf_border {α : Type} [DecidableEq α] (d : α) (b k : Nat) (hk : 0 < k) (l r : Tab α) (hl : tabWf d l = true) (hr : tabWf d r = true) :
    tabWf d (l.filter (fun x => decide (x.1 * k < b)) ++ r.filter (fun x => decide (b ≤ x.1 * k))) = true := by
  refine tabFrom_border d ((b + k - 1) / k) _ (tabWf_filter d _ r hr) ?_ _ none (tabWf_filter d _ l hl) ?_ (fun n h => nomatch h)
  · intro x hx
    have := (List.mem_filter.mp hx).2
    have h : b ≤ x.1 * k := by simpa using this
    refine Nat.le_of_lt_succ ((Nat.div_lt_iff_lt_mul hk).mpr ?_); rw [Nat.succ_mul]; omega
  · intro x hx
    have := (List.mem_filter.mp hx).2
    have h : x.1 * k < b := by simpa using this
    exact (Nat.le_div_iff_mul_le hk).mpr (by rw [Nat.succ_mul]; omega)

end Sys2Proof.Machine
end

