-- ==== Sys2Proof/Laws/KeepsBase.lean ====
section
/-!
SUPPORT. `Keeps` of every operation on the state, part: memory, events, routing, coins, host rings.
-/
set_option autoImplicit false
set_option linter.unusedVariables false
namespace Sys2Proof.Machine

theorem State.modCluster_keeps {kb : Bool} {s₀ : State} (s : State) (c : Nat) (f : Cluster → Cluster) (hk : Keeps kb s₀ s) :
    Keeps kb s₀ (State.modCluster s c f) := by
  unfold State.modCluster
  repeat' (first
    | with_reducible assumption
    | (with_reducible refine Keeps.lit ?_; dsimp only [State.kept]; with_reducible refine Keeps.unlit ?_))

theorem State.modClusters_keeps {kb : Bool} {s₀ : State} (s : State) (f : Nat → Cluster → Cluster) (hk : Keeps kb s₀ s) :
    Keeps kb s₀ (State.modClusters s f) := by
  unfold State.modClusters
  repeat' (first
    | with_reducible assumption
    | (with_reducible refine Keeps.lit ?_; dsimp only [State.kept]; with_reducible refine Keeps.unlit ?_))

theorem State.modSeq_keeps {kb : Bool} {s₀ : State} (s : State) (c : Nat) (f : Sequencer → Sequencer) (hk : Keeps kb s₀ s) :
    Keeps kb s₀ (State.modSeq s c f) := by
  unfold State.modSeq
  repeat' (first
    | with_reducible assumption
    | with_reducible refine State.modCluster_keeps (hk := ?_) ..
    | split
    | (with_reducible refine Keeps.lit ?_; dsimp only [State.kept]; with_reducible refine Keeps.unlit ?_))

theorem State.modClock_keeps {kb : Bool} {s₀ : State} (s : State) (c : Nat) (f : ClockSt → ClockSt) (hk : Keeps kb s₀ s) :
    Keeps kb s₀ (State.modClock s c f) := by
  unfold State.modClock
  repeat' (first
    | with_reducible assumption
    | with_reducible refine State.modCluster_keeps (hk := ?_) ..
    | split
    | (with_reducible refine Keeps.lit ?_; dsimp only [State.kept]; with_reducible refine Keeps.unlit ?_))

theorem State.modPurse_keeps {kb : Bool} {s₀ : State} (s : State) (c : Nat) (f : Purse → Purse) (hk : Keeps kb s₀ s) :
    Keeps kb s₀ (State.modPurse s c f) := by
  unfold State.modPurse
  repeat' (first
    | with_reducible assumption
    | with_reducible refine State.modCluster_keeps (hk := ?_) ..
    | split
    | (with_reducible refine Keeps.lit ?_; dsimp only [State.kept]; with_reducible refine Keeps.unlit ?_))

theorem State.modCore_keeps {kb : Bool} {s₀ : State} (s : State) (p : Nat) (f : Core → Core) (hk : Keeps kb s₀ s) :
    Keeps kb s₀ (State.modCore s p f) := by
  unfold State.modCore
  repeat' (first
    | with_reducible assumption
    | (with_reducible refine Keeps.lit ?_; dsimp only [State.kept]; with_reducible refine Keeps.unlit ?_))

theorem State.modPort_keeps {kb : Bool} {s₀ : State} (s : State) (n : Nat) (f : Port → Port) (hk : Keeps kb s₀ s) :
    Keeps kb s₀ (State.modPort s n f) := by
  unfold State.modPort
  repeat' (first
    | with_reducible assumption
    | (with_reducible refine Keeps.lit ?_; dsimp only [State.kept]; with_reducible refine Keeps.unlit ?_))

theorem State.modLink_keeps {kb : Bool} {s₀ : State} (s : State) (n : Nat) (f : Link → Link) (hk : Keeps kb s₀ s) :
    Keeps kb s₀ (State.modLink s n f) := by
  unfold State.modLink
  repeat' (first
    | with_reducible assumption
    | with_reducible refine State.modPort_keeps (hk := ?_) ..
    | split
    | (with_reducible refine Keeps.lit ?_; dsimp only [State.kept]; with_reducible refine Keeps.unlit ?_))

theorem State.modRep_keeps {kb : Bool} {s₀ : State} (s : State) (n : Nat) (f : Repair → Repair) (hk : Keeps kb s₀ s) :
    Keeps kb s₀ (State.modRep s n f) := by
  unfold State.modRep
  repeat' (first
    | with_reducible assumption
    | with_reducible refine State.modPort_keeps (hk := ?_) ..
    | split
    | (with_reducible refine Keeps.lit ?_; dsimp only [State.kept]; with_reducible refine Keeps.unlit ?_))

theorem State.modDisc_keeps {kb : Bool} {s₀ : State} (s : State) (n : Nat) (f : Disc → Disc) (hk : Keeps kb s₀ s) :
    Keeps kb s₀ (State.modDisc s n f) := by
  unfold State.modDisc
  repeat' (first
    | with_reducible assumption
    | with_reducible refine State.modPort_keeps (hk := ?_) ..
    | split
    | (with_reducible refine Keeps.lit ?_; dsimp only [State.kept]; with_reducible refine Keeps.unlit ?_))

theorem State.modRing_keeps {kb : Bool} {s₀ : State} (s : State) (n : Nat) (f : Ring → Ring) (hk : Keeps kb s₀ s) :
    Keeps kb s₀ (State.modRing s n f) := by
  unfold State.modRing
  repeat' (first
    | with_reducible assumption
    | (with_reducible refine Keeps.lit ?_; dsimp only [State.kept]; with_reducible refine Keeps.unlit ?_))

theorem State.modHost_keeps {kb : Bool} {s₀ : State} (s : State) (f : HostIf → HostIf) (hk : Keeps kb s₀ s) :
    Keeps kb s₀ (State.modHost s f) := by
  unfold State.modHost
  repeat' (first
    | with_reducible assumption
    | (with_reducible refine Keeps.lit ?_; dsimp only [State.kept]; with_reducible refine Keeps.unlit ?_))

theorem State.modChannel_keeps {kb : Bool} {s₀ : State} (s : State) (n : Nat) (f : Channel → Channel) (hk : Keeps kb s₀ s) :
    Keeps kb s₀ (State.modChannel s n f) := by
  unfold State.modChannel
  repeat' (first
    | with_reducible assumption
    | (with_reducible refine Keeps.lit ?_; dsimp only [State.kept]; with_reducible refine Keeps.unlit ?_))

theorem State.modUnit_keeps {kb : Bool} {s₀ : State} (s : State) (u : Nat) (f : UnitWords → UnitWords) (hk : Keeps kb s₀ s) :
    Keeps kb s₀ (State.modUnit s u f) := by
  unfold State.modUnit
  repeat' (first
    | with_reducible assumption
    | (with_reducible refine Keeps.lit ?_; dsimp only [State.kept]; with_reducible refine Keeps.unlit ?_))

theorem State.modErr_keeps {kb : Bool} {s₀ : State} (s : State) (f : Errors → Errors) (hk : Keeps kb s₀ s) :
    Keeps kb s₀ (State.modErr s f) := by
  unfold State.modErr
  repeat' (first
    | with_reducible assumption
    | (with_reducible refine Keeps.lit ?_; dsimp only [State.kept]; with_reducible refine Keeps.unlit ?_))

theorem State.modSet_keeps {kb : Bool} {s₀ : State} (s : State) (f : Settle → Settle) (hk : Keeps kb s₀ s) :
    Keeps kb s₀ (State.modSet s f) := by
  unfold State.modSet
  repeat' (first
    | with_reducible assumption
    | (with_reducible refine Keeps.lit ?_; dsimp only [State.kept]; with_reducible refine Keeps.unlit ?_))

theorem State.modDec_keeps {kb : Bool} {s₀ : State} (s : State) (f : Decision → Decision) (hk : Keeps kb s₀ s) :
    Keeps kb s₀ (State.modDec s f) := by
  unfold State.modDec
  repeat' (first
    | with_reducible assumption
    | (with_reducible refine Keeps.lit ?_; dsimp only [State.kept]; with_reducible refine Keeps.unlit ?_))

theorem State.modCol_keeps {kb : Bool} {s₀ : State} (s : State) (f : Collect → Collect) (hk : Keeps kb s₀ s) :
    Keeps kb s₀ (State.modCol s f) := by
  unfold State.modCol
  repeat' (first
    | with_reducible assumption
    | (with_reducible refine Keeps.lit ?_; dsimp only [State.kept]; with_reducible refine Keeps.unlit ?_))

theorem State.modRtr_keeps {kb : Bool} {s₀ : State} (s : State) (f : Router → Router) (hk : Keeps kb s₀ s) :
    Keeps kb s₀ (State.modRtr s f) := by
  unfold State.modRtr
  repeat' (first
    | with_reducible assumption
    | (with_reducible refine Keeps.lit ?_; dsimp only [State.kept]; with_reducible refine Keeps.unlit ?_))

theorem State.modSlice_keeps {kb : Bool} {s₀ : State} (s : State) (f : Slice → Slice) (hk : Keeps kb s₀ s) :
    Keeps kb s₀ (State.modSlice s f) := by
  unfold State.modSlice
  repeat' (first
    | with_reducible assumption
    | with_reducible refine State.modRtr_keeps (hk := ?_) ..
    | split
    | (with_reducible refine Keeps.lit ?_; dsimp only [State.kept]; with_reducible refine Keeps.unlit ?_))

theorem State.modTime_keeps {kb : Bool} {s₀ : State} (s : State) (f : TimeBase → TimeBase) (hk : Keeps kb s₀ s) :
    Keeps kb s₀ (State.modTime s f) := by
  unfold State.modTime
  repeat' (first
    | with_reducible assumption
    | (with_reducible refine Keeps.lit ?_; dsimp only [State.kept]; with_reducible refine Keeps.unlit ?_))

theorem State.modPwr_keeps {kb : Bool} {s₀ : State} (s : State) (f : Power → Power) (hk : Keeps kb s₀ s) :
    Keeps kb s₀ (State.modPwr s f) := by
  unfold State.modPwr
  repeat' (first
    | with_reducible assumption
    | (with_reducible refine Keeps.lit ?_; dsimp only [State.kept]; with_reducible refine Keeps.unlit ?_))

theorem State.modMgmt_keeps {kb : Bool} {s₀ : State} (s : State) (f : Mgmt → Mgmt) (hk : Keeps kb s₀ s) :
    Keeps kb s₀ (State.modMgmt s f) := by
  unfold State.modMgmt
  repeat' (first
    | with_reducible assumption
    | (with_reducible refine Keeps.lit ?_; dsimp only [State.kept]; with_reducible refine Keeps.unlit ?_))

theorem State.modSec_keeps {kb : Bool} {s₀ : State} (s : State) (f : Security → Security) (hk : Keeps kb s₀ s) :
    Keeps kb s₀ (State.modSec s f) := by
  unfold State.modSec
  repeat' (first
    | with_reducible assumption
    | (with_reducible refine Keeps.lit ?_; dsimp only [State.kept]; with_reducible refine Keeps.unlit ?_))

theorem State.modDev_keeps {kb : Bool} {s₀ : State} (s : State) (f : Device → Device) (hk : Keeps kb s₀ s) :
    Keeps kb s₀ (State.modDev s f) := by
  unfold State.modDev
  repeat' (first
    | with_reducible assumption
    | (with_reducible refine Keeps.lit ?_; dsimp only [State.kept]; with_reducible refine Keeps.unlit ?_))

theorem State.emit_keeps {kb : Bool} {s₀ : State} (s : State) (o : Out) (hk : Keeps kb s₀ s) : Keeps kb s₀ (s.emit o) := Keeps.sent [o] (Keeps.unlit hk)

theorem State.emits_keeps {kb : Bool} {s₀ : State} (s : State) (os : List Out) (hk : Keeps kb s₀ s) : Keeps kb s₀ (s.emits os) := Keeps.sent os (Keeps.unlit hk)

theorem State.span_keeps {kb : Bool} {s₀ : State} (s : State) (key n : Nat) (hk : Keeps kb s₀ s) :
    Keeps kb s₀ (State.span s key n) := by
  unfold State.span
  repeat' (first
    | with_reducible assumption
    | (with_reducible refine Keeps.lit ?_; dsimp only [State.kept]; with_reducible refine Keeps.unlit ?_))

theorem State.spanMin_keeps {kb : Bool} {s₀ : State} (s : State) (key v : Nat) (hk : Keeps kb s₀ s) :
    Keeps kb s₀ (State.spanMin s key v) := by
  unfold State.spanMin
  repeat' (first
    | with_reducible assumption
    | split
    | (with_reducible refine Keeps.lit ?_; dsimp only [State.kept]; with_reducible refine Keeps.unlit ?_))

theorem State.day_keeps {kb : Bool} {s₀ : State} (s : State) (key n : Nat) (hk : Keeps kb s₀ s) :
    Keeps kb s₀ (State.day s key n) := by
  unfold State.day
  repeat' (first
    | with_reducible assumption
    | (with_reducible refine Keeps.lit ?_; dsimp only [State.kept]; with_reducible refine Keeps.unlit ?_))

theorem State.total_keeps {kb : Bool} {s₀ : State} (s : State) (i n : Nat) (hk : Keeps kb s₀ s) :
    Keeps kb s₀ (State.total s i n) := by
  unfold State.total
  repeat' (first
    | with_reducible assumption
    | (with_reducible refine Keeps.lit ?_; dsimp only [State.kept]; with_reducible refine Keeps.unlit ?_))

theorem State.slewAt_keeps {kb : Bool} {s₀ : State} (s : State) (r : Int) (hk : Keeps kb s₀ s) :
    Keeps kb s₀ (State.slewAt s r) := by
  unfold State.slewAt
  repeat' (first
    | with_reducible assumption
    | (with_reducible refine Keeps.lit ?_; dsimp only [State.kept]; with_reducible refine Keeps.unlit ?_)
    | dsimp only)

theorem State.reach_keeps {kb : Bool} {s₀ : State} (s : State) (t : Nat) (hk : Keeps kb s₀ s) :
    Keeps kb s₀ (State.reach s t) := by
  unfold State.reach
  repeat' (first
    | with_reducible assumption
    | with_reducible refine State.total_keeps (hk := ?_) ..
    | with_reducible refine Keeps.ite ?_ ?_
    | split
    | (with_reducible refine Keeps.lit ?_; dsimp only [State.kept]; with_reducible refine Keeps.unlit ?_)
    | dsimp only)

theorem State.each_keeps {kb : Bool} {s₀ : State} {α : Type} (s : State) (l : List α) (f : State → α → State) (hf : ∀ t x, Keeps kb s₀ t → Keeps kb s₀ (f t x)) (hk : Keeps kb s₀ s) :
    Keeps kb s₀ (State.each s l f) := by
  unfold State.each
  repeat' (first
    | with_reducible assumption
    | with_reducible refine hf _ _ ?_
    | with_reducible refine Keeps.foldl (fun _ _ _ => ?_) ?_)

theorem State.fresh_keeps {kb : Bool} {s₀ : State} (s : State) (w : Nat) (hk : Keeps kb s₀ s) :
    Keeps kb s₀ (State.fresh s w).2 := by
  unfold State.fresh
  repeat' (first
    | with_reducible assumption
    | (with_reducible refine Keeps.lit ?_; dsimp only [State.kept]; with_reducible refine Keeps.unlit ?_)
    | dsimp only)

theorem State.storePiece_keeps {s₀ : State} (s : State) (p : Nat × List Byte) (src : Nat → Bool) (hk : Keeps false s₀ s) :
    Keeps false s₀ (s.storePiece p src) := by
  unfold State.storePiece
  split
  · exact State.modChannel_keeps _ _ _ hk
  · exact Keeps.memory s _ (Memory.wf_store _ _ _ _) hk

theorem State.writeMem_keeps {s₀ : State} (s : State) (a : Nat) (bs : List Byte) (src : Nat → Bool) (hk : Keeps false s₀ s) :
    Keeps false s₀ (State.writeMem s a bs src) := by
  unfold State.writeMem
  repeat' (first
    | with_reducible assumption
    | with_reducible refine State.storePiece_keeps (hk := ?_) ..
    | with_reducible refine Keeps.foldl (fun _ _ _ => ?_) ?_
    | split)

theorem State.copyMem_keeps {s₀ : State} (s : State) (src dst n : Nat) (hk : Keeps false s₀ s) :
    Keeps false s₀ (State.copyMem s src dst n) := by
  unfold State.copyMem
  repeat' (first
    | with_reducible assumption
    | with_reducible refine State.writeMem_keeps (hk := ?_) ..
    | dsimp only)

theorem State.fire_keeps {kb : Bool} {s₀ : State} (s : State) (v : Nat) (hk : Keeps kb s₀ s) :
    Keeps kb s₀ (State.fire s v) := by
  unfold State.fire
  repeat' (first
    | with_reducible assumption
    | with_reducible first | refine State.modHost_keeps (hk := ?_) .. | refine State.emit_keeps (hk := ?_) ..
    | with_reducible refine Keeps.ite ?_ ?_
    | split
    | (with_reducible refine Keeps.lit ?_; dsimp only [State.kept]; with_reducible refine Keeps.unlit ?_)
    | dsimp only)

theorem State.signal_keeps {kb : Bool} {s₀ : State} (s : State) (v : Nat) (atOnce : Bool) (hk : Keeps kb s₀ s) :
    Keeps kb s₀ (State.signal s v atOnce) := by
  unfold State.signal
  repeat' (first
    | with_reducible assumption
    | with_reducible first | refine State.modHost_keeps (hk := ?_) .. | refine State.fire_keeps (hk := ?_) ..
    | with_reducible refine Keeps.ite ?_ ?_
    | split
    | (with_reducible refine Keeps.lit ?_; dsimp only [State.kept]; with_reducible refine Keeps.unlit ?_)
    | dsimp only)

theorem State.pldmEvent_keeps {kb : Bool} {s₀ : State} (s : State) (e : Event) (hk : Keeps kb s₀ s) :
    Keeps kb s₀ (State.pldmEvent s e) := by
  unfold State.pldmEvent
  repeat' (first
    | with_reducible assumption
    | with_reducible first | refine State.modMgmt_keeps (hk := ?_) .. | refine State.emit_keeps (hk := ?_) ..
    | with_reducible refine Keeps.ite ?_ ?_
    | split
    | (with_reducible refine Keeps.lit ?_; dsimp only [State.kept]; with_reducible refine Keeps.unlit ?_))

theorem State.eventRing_keeps {kb : Bool} {s₀ : State} (s : State) (e : Event) (hk : Keeps kb s₀ s) :
    Keeps kb s₀ (State.eventRing s e) := by
  unfold State.eventRing
  repeat' (first
    | with_reducible assumption
    | with_reducible first | refine State.modHost_keeps (hk := ?_) .. | refine State.emit_keeps (hk := ?_) .. | refine State.signal_keeps (hk := ?_) ..
    | with_reducible refine Keeps.ite ?_ ?_
    | split
    | (with_reducible refine Keeps.lit ?_; dsimp only [State.kept]; with_reducible refine Keeps.unlit ?_)
    | dsimp only)

theorem State.logEntry_keeps {kb : Bool} {s₀ : State} (s : State) (c : EventClass) (source : Nat) (data : List Byte) (sev : Severity) (nested injected : Bool) (hk : Keeps kb s₀ s) :
    Keeps kb s₀ (State.logEntry s c source data sev nested injected) := by
  unfold State.logEntry
  repeat' (first
    | with_reducible assumption
    | with_reducible first | refine State.modErr_keeps (hk := ?_) .. | refine State.pldmEvent_keeps (hk := ?_) .. | refine State.eventRing_keeps (hk := ?_) ..
    | split
    | (with_reducible refine Keeps.lit ?_; dsimp only [State.kept]; with_reducible refine Keeps.unlit ?_)
    | dsimp only)

theorem State.ledgerDrop_keeps {kb : Bool} {s₀ : State} (s : State) (hk : Keeps kb s₀ s) : Keeps kb s₀ s.ledgerDrop :=
  Keeps.record _ _ (List.prefix_refl _) (State.modMgmt_keeps s (fun m => { m with ledgerDropped := satAdd 0xFFFF m.ledgerDropped 1 }) hk)

theorem State.ledgerPut_keeps {kb : Bool} {s₀ : State} (s : State) (kind : Nat) (payload : List Byte) (off : Nat) (live : Bool) (hk : Keeps kb s₀ s) :
    Keeps kb s₀ (s.ledgerPut kind payload off live) := by
  refine Keeps.record s _ ?_ hk
  unfold Ledger.cores; dsimp only; rw [List.map_append]; exact List.prefix_append _ _

theorem State.ledgerNoRoom_keeps {kb : Bool} {s₀ : State} (s : State) (kind : Nat) (hk : Keeps kb s₀ s) : Keeps kb s₀ (s.ledgerNoRoom kind) := by
  have h : ∀ (t : State) (l : Ledger), Keeps kb s₀ t → l.records = t.ledger.records → Keeps kb s₀ { t with ledger := l } := fun t l h e =>
    Keeps.record t l (by unfold Ledger.cores; simpa only [e] using List.prefix_refl _) h
  unfold State.ledgerNoRoom
  have k := State.ledgerDrop_keeps s hk
  dsimp only
  split
  · exact h s.ledgerDrop _ k rfl
  · exact State.logEntry_keeps _ _ _ _ _ _ _ (h _ { s.ledgerDrop.ledger with state := if s.ledgerDrop.ledger.state = 3 then 3 else if reservedKind kind then 2 else max 1 s.ledgerDrop.ledger.state, fullLogged := true } k rfl)

theorem State.ledgerRetry_keeps {kb : Bool} {s₀ : State} (s : State) (kind : Nat) (payload : List Byte) (injected : Bool) (arr0 : Nat)
    (hk : Keeps kb s₀ s) : Keeps kb s₀ (s.ledgerRetry kind payload injected arr0) := by
  induction arr0 generalizing s with
  | zero => exact hk
  | succ n ih =>
    unfold State.ledgerRetry
    split
    · exact hk
    · refine ih _ (State.logEntry_keeps _ _ _ _ _ _ _ ?_)
      exact Keeps.record _ _ (by unfold Ledger.cores; exact List.prefix_refl _) (State.ledgerPut_keeps s kind payload _ false hk)

theorem State.injection_keeps {kb : Bool} {s₀ : State} (s : State) (c : EventClass) (unit : Nat) (hk : Keeps kb s₀ s) :
    Keeps kb s₀ (State.injection s c unit).2 := by
  unfold State.injection
  repeat' (first
    | with_reducible assumption
    | with_reducible refine State.modErr_keeps (hk := ?_) ..
    | with_reducible refine Keeps.ite2 ?_ ?_
    | split
    | (with_reducible refine Keeps.lit ?_; dsimp only [State.kept]; with_reducible refine Keeps.unlit ?_)
    | dsimp only)

theorem State.ledgerWrite_keeps {kb : Bool} {s₀ : State} (s : State) (kind : Nat) (payload : List Byte) (fails : Nat) (hk : Keeps kb s₀ s) :
    Keeps kb s₀ (s.ledgerWrite kind payload fails) := by
  unfold State.ledgerWrite
  have hi := State.injection_keeps s .ledgerWriteRetry (srcBlock 6) hk
  generalize s.injection .ledgerWriteRetry (srcBlock 6) = p at hi
  obtain ⟨inj, t⟩ := p
  dsimp only at hi ⊢
  have hr := State.ledgerRetry_keeps _ kind payload true (if inj = true then 1 else 0) (State.ledgerRetry_keeps t kind payload false fails hi)
  split
  · exact State.ledgerNoRoom_keeps _ _ hr
  · exact Keeps.record _ _ (by unfold Ledger.cores; exact List.prefix_refl _) (State.ledgerPut_keeps _ kind payload _ true hr)

theorem State.ledgerAppend_keeps {kb : Bool} {s₀ : State} (s : State) (kind : Nat) (payload : List Byte) (fails : Nat) (hk : Keeps kb s₀ s) :
    Keeps kb s₀ (s.ledgerAppend kind payload fails) := by
  unfold State.ledgerAppend
  split
  · split
    · exact Keeps.record _ _ (by unfold Ledger.cores; exact List.prefix_refl _) hk
    · exact State.ledgerDrop_keeps _ hk
  · exact State.ledgerWrite_keeps _ _ _ _ hk

theorem State.logAs_keeps {kb : Bool} {s₀ : State} (s : State) (c : EventClass) (source : Nat) (data : List Byte) (sev : Severity) (nested injected : Bool) (hk : Keeps kb s₀ s) :
    Keeps kb s₀ (State.logAs s c source data sev nested injected) := by
  unfold State.logAs
  repeat' (first
    | with_reducible assumption
    | with_reducible first | refine State.modMgmt_keeps (hk := ?_) .. | refine State.logEntry_keeps (hk := ?_) .. | refine State.ledgerAppend_keeps (hk := ?_) ..
    | with_reducible refine Keeps.ite ?_ ?_
    | split
    | (with_reducible refine Keeps.lit ?_; dsimp only [State.kept]; with_reducible refine Keeps.unlit ?_)
    | dsimp only)

theorem State.log_keeps {kb : Bool} {s₀ : State} (s : State) (c : EventClass) (source : Nat) (data : List (Nat × Nat)) (hk : Keeps kb s₀ s) :
    Keeps kb s₀ (State.log s c source data) := by
  unfold State.log
  repeat' (first
    | with_reducible assumption
    | with_reducible refine State.logAs_keeps (hk := ?_) ..)

theorem State.logLimited_keeps {kb : Bool} {s₀ : State} (s : State) (c : EventClass) (key period : Nat) (source : Nat) (data : List (Nat × Nat)) (hk : Keeps kb s₀ s) :
    Keeps kb s₀ (State.logLimited s c key period source data) := by
  unfold State.logLimited
  repeat' (first
    | with_reducible assumption
    | with_reducible first | refine State.modErr_keeps (hk := ?_) .. | refine State.log_keeps (hk := ?_) ..
    | with_reducible refine Keeps.ite ?_ ?_
    | split
    | (with_reducible refine Keeps.lit ?_; dsimp only [State.kept]; with_reducible refine Keeps.unlit ?_)
    | dsimp only)

theorem State.detectWith_keeps {kb : Bool} {s₀ : State} (s : State) (c : EventClass) (source : Nat) (data : List Byte) (hk : Keeps kb s₀ s) :
    Keeps kb s₀ (State.detectWith s c source data) := by
  unfold State.detectWith
  repeat' (first
    | with_reducible assumption
    | with_reducible first | refine State.modErr_keeps (hk := ?_) .. | refine State.injection_keeps (hk := ?_) .. | refine State.logAs_keeps (hk := ?_) ..
    | with_reducible refine Keeps.ite ?_ ?_
    | split
    | (with_reducible refine Keeps.lit ?_; dsimp only [State.kept]; with_reducible refine Keeps.unlit ?_)
    | dsimp only)

theorem State.detect_keeps {kb : Bool} {s₀ : State} (s : State) (c : EventClass) (source : Nat) (data : List (Nat × Nat)) (hk : Keeps kb s₀ s) :
    Keeps kb s₀ (State.detect s c source data) := by
  unfold State.detect
  repeat' (first
    | with_reducible assumption
    | with_reducible refine State.detectWith_keeps (hk := ?_) ..)

theorem State.detectLimited_keeps {kb : Bool} {s₀ : State} (s : State) (c : EventClass) (key source : Nat) (data : List (Nat × Nat)) (hk : Keeps kb s₀ s) :
    Keeps kb s₀ (State.detectLimited s c key source data) := by
  unfold State.detectLimited
  repeat' (first
    | with_reducible assumption
    | with_reducible first | refine State.modErr_keeps (hk := ?_) .. | refine State.detect_keeps (hk := ?_) ..
    | with_reducible refine Keeps.ite ?_ ?_
    | split
    | (with_reducible refine Keeps.lit ?_; dsimp only [State.kept]; with_reducible refine Keeps.unlit ?_)
    | dsimp only)

theorem State.closeWindow_keeps {kb : Bool} {s₀ : State} (s : State) (c : EventClass) (source : Nat) (hk : Keeps kb s₀ s) :
    Keeps kb s₀ (State.closeWindow s c source) := by
  unfold State.closeWindow
  repeat' (first
    | with_reducible assumption
    | with_reducible refine State.modErr_keeps (hk := ?_) ..
    | split
    | (with_reducible refine Keeps.lit ?_; dsimp only [State.kept]; with_reducible refine Keeps.unlit ?_))

theorem State.mxeStep_keeps {kb : Bool} {s₀ : State} (s : State) (p : Nat) (l : List Byte) (i : Nat) (t : AccTile) (hk : Keeps kb s₀ s) :
    Keeps kb s₀ (State.mxeStep s p l i t) := by
  unfold State.mxeStep
  repeat' (first
    | with_reducible assumption
    | with_reducible refine State.modCore_keeps (hk := ?_) ..
    | with_reducible refine Keeps.ite ?_ ?_
    | split
    | (with_reducible refine Keeps.lit ?_; dsimp only [State.kept]; with_reducible refine Keeps.unlit ?_)
    | dsimp only)

theorem State.mxeIssue_keeps {kb : Bool} {s₀ : State} (s : State) (p : Nat) (hk : Keeps kb s₀ s) :
    Keeps kb s₀ (State.mxeIssue s p) := by
  unfold State.mxeIssue
  repeat' (first
    | with_reducible assumption
    | with_reducible first | refine State.modCore_keeps (hk := ?_) .. | refine State.span_keeps (hk := ?_) .. | refine State.total_keeps (hk := ?_) .. | refine State.mxeStep_keeps (hk := ?_) ..
    | with_reducible refine Keeps.ite ?_ ?_
    | with_reducible refine Keeps.foldl (fun _ _ _ => ?_) ?_
    | split
    | (with_reducible refine Keeps.lit ?_; dsimp only [State.kept]; with_reducible refine Keeps.unlit ?_)
    | dsimp only)

theorem State.mxeDrain_keeps {kb : Bool} {s₀ : State} (s : State) (p i : Nat) (parity : List (Nat × Nat)) (hk : Keeps kb s₀ s) :
    Keeps kb s₀ (State.mxeDrain s p i parity) := by
  unfold State.mxeDrain
  repeat' (first
    | with_reducible assumption
    | with_reducible refine State.modCore_keeps (hk := ?_) ..
    | split
    | (with_reducible refine Keeps.lit ?_; dsimp only [State.kept]; with_reducible refine Keeps.unlit ?_)
    | dsimp only)

theorem State.footRelease_keeps {kb : Bool} {s₀ : State} (s : State) (p : Nat) (hk : Keeps kb s₀ s) :
    Keeps kb s₀ (State.footRelease s p) := by
  unfold State.footRelease
  repeat' (first
    | with_reducible assumption
    | with_reducible first | refine State.modCore_keeps (hk := ?_) .. | refine State.span_keeps (hk := ?_) ..
    | split
    | (with_reducible refine Keeps.lit ?_; dsimp only [State.kept]; with_reducible refine Keeps.unlit ?_)
    | dsimp only)

theorem State.raise_keeps {kb : Bool} {s₀ : State} (s : State) (p : Nat) (fl : Flags) (hk : Keeps kb s₀ s) :
    Keeps kb s₀ (State.raise s p fl) := by
  unfold State.raise
  repeat' (first
    | with_reducible assumption
    | with_reducible refine State.modCore_keeps (hk := ?_) ..
    | with_reducible refine Keeps.ite ?_ ?_)

theorem State.mintWrite_keeps {s₀ : State} (s : State) (a : Nat) (bs : List Byte) (ps : List Bool) (whole : Bool) (hk : Keeps false s₀ s) :
    Keeps false s₀ (s.mintWrite a bs ps whole) := by
  unfold State.mintWrite
  exact Keeps.foldl (fun t q h => Keeps.memory t _ (Memory.wf_mintPiece _ _ _ _ _) h) hk

theorem State.mintRow_keeps {s₀ : State} (s : State) (f : Format) (row c0 n : Nat) (codes : List Nat) (ps : List Bool) (hk : Keeps false s₀ s) :
    Keeps false s₀ (State.mintRow s f row c0 n codes ps) := by
  unfold State.mintRow
  repeat' (first
    | with_reducible assumption
    | with_reducible refine State.mintWrite_keeps (hk := ?_) ..
    | dsimp only)

theorem State.mint_keeps {s₀ : State} (s : State) (p : Nat) (ly : Layer) (t e r0 c0 : Nat) (rows : Region2) (hk : Keeps false s₀ s) :
    Keeps false s₀ (State.mint s p ly t e r0 c0 rows) := by
  unfold State.mint
  repeat' (first
    | with_reducible assumption
    | with_reducible first | refine State.modCore_keeps (hk := ?_) .. | refine State.raise_keeps (hk := ?_) .. | refine State.mintWrite_keeps (hk := ?_) .. | refine State.mintRow_keeps (hk := ?_) ..
    | with_reducible refine Keeps.ite ?_ ?_
    | with_reducible refine Keeps.foldl (fun _ _ _ => ?_) ?_
    | split
    | (with_reducible refine Keeps.lit ?_; dsimp only [State.kept]; with_reducible refine Keeps.unlit ?_)
    | dsimp only)

theorem State.stageRows_keeps {s₀ : State} (s : State) (p : Nat) (l : List Byte) (r0 c0 : Nat) (rows : Region2) (hk : Keeps false s₀ s) :
    Keeps false s₀ (State.stageRows s p l r0 c0 rows) := by
  unfold State.stageRows
  repeat' (first
    | with_reducible assumption
    | with_reducible refine State.mintWrite_keeps (hk := ?_) ..
    | with_reducible refine Keeps.foldl (fun _ _ _ => ?_) ?_
    | split
    | dsimp only)

theorem State.regionStats_keeps {s₀ : State} (s : State) (p : Nat) (l : List Byte) (e r0 c0 : Nat) (rows : Region2) (hk : Keeps false s₀ s) :
    Keeps false s₀ (State.regionStats s p l e r0 c0 rows) := by
  unfold State.regionStats
  repeat' (first
    | with_reducible assumption
    | with_reducible refine State.mintWrite_keeps (hk := ?_) ..
    | with_reducible refine Keeps.ite ?_ ?_
    | with_reducible refine Keeps.foldl (fun _ _ _ => ?_) ?_
    | split)

theorem State.finishRegion_keeps {s₀ : State} (s : State) (p : Nat) (ly : Layer) (t e r0 c0 : Nat) (rows : Region2) (hk : Keeps false s₀ s) :
    Keeps false s₀ (State.finishRegion s p ly t e r0 c0 rows) := by
  unfold State.finishRegion
  repeat' (first
    | with_reducible assumption
    | with_reducible first | refine State.raise_keeps (hk := ?_) .. | refine State.mint_keeps (hk := ?_) .. | refine State.stageRows_keeps (hk := ?_) .. | refine State.regionStats_keeps (hk := ?_) ..
    | with_reducible refine Keeps.ite ?_ ?_
    | dsimp only)

theorem State.endRow_keeps {s₀ : State} (s : State) (p : Nat) (l : List Byte) (e r : Nat) (x : RowEnd) (hk : Keeps false s₀ s) :
    Keeps false s₀ (State.endRow s p l e r x) := by
  unfold State.endRow
  repeat' (first
    | with_reducible assumption
    | with_reducible first | refine State.modCluster_keeps (hk := ?_) .. | refine State.modCore_keeps (hk := ?_) .. | refine State.raise_keeps (hk := ?_) .. | refine State.mintWrite_keeps (hk := ?_) ..
    | with_reducible refine Keeps.ite ?_ ?_
    | split
    | (with_reducible refine Keeps.lit ?_; dsimp only [State.kept]; with_reducible refine Keeps.unlit ?_)
    | dsimp only)

theorem State.finishRowTile_keeps {s₀ : State} (s : State) (p : Nat) (ly : Layer) (e rt : Nat) (hk : Keeps false s₀ s) :
    Keeps false s₀ (State.finishRowTile s p ly e rt) := by
  unfold State.finishRowTile
  repeat' (first
    | with_reducible assumption
    | with_reducible first | refine State.mint_keeps (hk := ?_) .. | refine State.endRow_keeps (hk := ?_) ..
    | with_reducible refine Keeps.ite ?_ ?_
    | with_reducible refine Keeps.foldl (fun _ _ _ => ?_) ?_
    | split
    | dsimp only)

theorem State.epilogue_keeps {s₀ : State} (s : State) (p : Nat) (hk : Keeps false s₀ s) :
    Keeps false s₀ (State.epilogue s p) := by
  unfold State.epilogue
  repeat' (first
    | with_reducible assumption
    | with_reducible first | refine State.modCore_keeps (hk := ?_) .. | refine State.footRelease_keeps (hk := ?_) .. | refine State.raise_keeps (hk := ?_) .. | refine State.finishRegion_keeps (hk := ?_) ..
    | with_reducible refine Keeps.foldl (fun _ _ _ => ?_) ?_
    | split
    | (with_reducible refine Keeps.lit ?_; dsimp only [State.kept]; with_reducible refine Keeps.unlit ?_)
    | dsimp only)

theorem State.teTile_keeps {s₀ : State} (s : State) (p : Nat) (t : TileName) (hk : Keeps false s₀ s) :
    Keeps false s₀ (State.teTile s p t) := by
  unfold State.teTile
  repeat' (first
    | with_reducible assumption
    | with_reducible refine State.finishRegion_keeps (hk := ?_) ..
    | with_reducible refine Keeps.ite ?_ ?_
    | split
    | (with_reducible refine Keeps.lit ?_; dsimp only [State.kept]; with_reducible refine Keeps.unlit ?_)
    | dsimp only)

theorem State.storeRegion_keeps {s₀ : State} (s : State) (p : Nat) (ly : Layer) (t e row col rows cols : Nat) (at? : Nat → Nat → FV × Bool) (hk : Keeps false s₀ s) :
    Keeps false s₀ (State.storeRegion s p ly t e row col rows cols at?) := by
  unfold State.storeRegion
  repeat' (first
    | with_reducible assumption
    | with_reducible refine State.mint_keeps (hk := ?_) ..
    | with_reducible refine Keeps.ite ?_ ?_
    | split
    | dsimp only)

theorem State.sendFrame_keeps {kb : Bool} {s₀ : State} (s : State) (n : Nat) (f : Frame) (hk : Keeps kb s₀ s) :
    Keeps kb s₀ (State.sendFrame s n f) := by
  unfold State.sendFrame
  repeat' (first
    | with_reducible assumption
    | with_reducible first | refine State.modLink_keeps (hk := ?_) .. | refine State.emit_keeps (hk := ?_) ..
    | split
    | (with_reducible refine Keeps.lit ?_; dsimp only [State.kept]; with_reducible refine Keeps.unlit ?_)
    | dsimp only)

theorem State.sendCtl_keeps {kb : Bool} {s₀ : State} (s : State) (n type vc : Nat) (body : List Byte) (hk : Keeps kb s₀ s) :
    Keeps kb s₀ (State.sendCtl s n type vc body) := by
  unfold State.sendCtl
  repeat' (first
    | with_reducible assumption
    | with_reducible refine State.sendFrame_keeps (hk := ?_) ..)

theorem State.freeBuffer_keeps {kb : Bool} {s₀ : State} (s : State) (n vc : Nat) (p : Packet) (hk : Keeps kb s₀ s) :
    Keeps kb s₀ (State.freeBuffer s n vc p) := by
  unfold State.freeBuffer
  repeat' (first
    | with_reducible assumption
    | with_reducible first | refine State.modLink_keeps (hk := ?_) .. | refine State.sendCtl_keeps (hk := ?_) ..
    | with_reducible refine Keeps.ite ?_ ?_
    | split
    | (with_reducible refine Keeps.lit ?_; dsimp only [State.kept]; with_reducible refine Keeps.unlit ?_)
    | dsimp only)

theorem State.sendOne_keeps {kb : Bool} {s₀ : State} (s : State) (n : Nat) (q : Queued) (hk : Keeps kb s₀ s) :
    Keeps kb s₀ (State.sendOne s n q) := by
  unfold State.sendOne
  repeat' (first
    | with_reducible assumption
    | with_reducible first | refine State.modLink_keeps (hk := ?_) .. | refine State.sendFrame_keeps (hk := ?_) .. | refine State.freeBuffer_keeps (hk := ?_) ..
    | split
    | (with_reducible refine Keeps.lit ?_; dsimp only [State.kept]; with_reducible refine Keeps.unlit ?_)
    | dsimp only)

theorem State.pumpN_keeps {kb : Bool} {s₀ : State} (s : State) (n : Nat) (arr0 : Nat) (hk : Keeps kb s₀ s) : Keeps kb s₀ (s.pumpN n arr0) := by
  induction arr0 generalizing s with
  | zero => exact hk
  | succ k ih =>
    unfold State.pumpN
    split
    · exact ih _ (State.sendOne_keeps _ _ _ hk)
    · exact hk

theorem State.pump_keeps {kb : Bool} {s₀ : State} (s : State) (n : Nat) (hk : Keeps kb s₀ s) :
    Keeps kb s₀ (State.pump s n) := by
  unfold State.pump
  repeat' (first
    | with_reducible assumption
    | with_reducible first | refine State.sendCtl_keeps (hk := ?_) .. | refine State.pumpN_keeps (hk := ?_) ..
    | with_reducible refine Keeps.ite ?_ ?_
    | split
    | dsimp only)

theorem State.fenced_keeps {kb : Bool} {s₀ : State} (s : State) (p : Packet) (out : Bool) (hk : Keeps kb s₀ s) :
    Keeps kb s₀ (State.fenced s p out) := by
  unfold State.fenced
  repeat' (first
    | with_reducible assumption
    | with_reducible first | refine State.modRtr_keeps (hk := ?_) .. | refine State.logLimited_keeps (hk := ?_) ..
    | split
    | (with_reducible refine Keeps.lit ?_; dsimp only [State.kept]; with_reducible refine Keeps.unlit ?_)
    | dsimp only)

theorem State.dropNoPort_keeps {kb : Bool} {s₀ : State} (s : State) (n : Nat) (hk : Keeps kb s₀ s) :
    Keeps kb s₀ (State.dropNoPort s n) := by
  unfold State.dropNoPort
  repeat' (first
    | with_reducible assumption
    | with_reducible first | refine State.modRtr_keeps (hk := ?_) .. | refine State.logLimited_keeps (hk := ?_) ..
    | split
    | (with_reducible refine Keeps.lit ?_; dsimp only [State.kept]; with_reducible refine Keeps.unlit ?_))

theorem State.moved_keeps {kb : Bool} {s₀ : State} (s : State) (hk : Keeps kb s₀ s) :
    Keeps kb s₀ (State.moved s) := by
  unfold State.moved
  repeat' (first
    | with_reducible assumption
    | with_reducible refine State.modRtr_keeps (hk := ?_) ..
    | split
    | (with_reducible refine Keeps.lit ?_; dsimp only [State.kept]; with_reducible refine Keeps.unlit ?_))

theorem State.enqueue_keeps {kb : Bool} {s₀ : State} (s : State) (n : Nat) (q : Queued) (hk : Keeps kb s₀ s) :
    Keeps kb s₀ (State.enqueue s n q) := by
  unfold State.enqueue
  repeat' (first
    | with_reducible assumption
    | with_reducible first | refine State.modLink_keeps (hk := ?_) .. | refine State.pump_keeps (hk := ?_) ..
    | split
    | (with_reducible refine Keeps.lit ?_; dsimp only [State.kept]; with_reducible refine Keeps.unlit ?_))

theorem State.launch_keeps {kb : Bool} {s₀ : State} (s : State) (p : Packet) (hk : Keeps kb s₀ s) :
    Keeps kb s₀ (State.launch s p).2 := by
  unfold State.launch
  repeat' (first
    | with_reducible assumption
    | with_reducible first | refine State.fenced_keeps (hk := ?_) .. | refine State.dropNoPort_keeps (hk := ?_) .. | refine State.moved_keeps (hk := ?_) .. | refine State.enqueue_keeps (hk := ?_) ..
    | with_reducible refine Keeps.ite2 ?_ ?_
    | split
    | dsimp only)

theorem State.launchAnswer_keeps {kb : Bool} {s₀ : State} (s : State) (p : Packet) (hk : Keeps kb s₀ s) :
    Keeps kb s₀ (State.launchAnswer s p) := by
  unfold State.launchAnswer
  repeat' (first
    | with_reducible assumption
    | with_reducible first | refine State.dropNoPort_keeps (hk := ?_) .. | refine State.moved_keeps (hk := ?_) .. | refine State.enqueue_keeps (hk := ?_) ..
    | with_reducible refine Keeps.ite ?_ ?_
    | split
    | dsimp only)

theorem State.inject_keeps {kb : Bool} {s₀ : State} (s : State) (p : Packet) (hk : Keeps kb s₀ s) :
    Keeps kb s₀ (State.inject s p).2 := by
  unfold State.inject
  repeat' (first
    | with_reducible assumption
    | with_reducible first | refine State.modRtr_keeps (hk := ?_) .. | refine State.launch_keeps (hk := ?_) ..
    | with_reducible refine Keeps.ite2 ?_ ?_
    | split
    | (with_reducible refine Keeps.lit ?_; dsimp only [State.kept]; with_reducible refine Keeps.unlit ?_)
    | dsimp only)

theorem State.sendLocal_keeps {kb : Bool} {s₀ : State} (s : State) (n addr : Nat) (payload : List Byte) (hk : Keeps kb s₀ s) :
    Keeps kb s₀ (State.sendLocal s n addr payload) := by
  unfold State.sendLocal
  repeat' (first
    | with_reducible assumption
    | with_reducible refine State.enqueue_keeps (hk := ?_) ..)

theorem State.spoil_keeps {kb : Bool} {s₀ : State} (s : State) (p : Nat) (st : Status) (hk : Keeps kb s₀ s) :
    Keeps kb s₀ (State.spoil s p st) := by
  unfold State.spoil
  repeat' (first
    | with_reducible assumption
    | with_reducible refine State.modCore_keeps (hk := ?_) ..
    | split
    | (with_reducible refine Keeps.lit ?_; dsimp only [State.kept]; with_reducible refine Keeps.unlit ?_))

theorem State.using_keeps {kb : Bool} {s₀ : State} (s : State) (c : Nat) (hk : Keeps kb s₀ s) :
    Keeps kb s₀ (State.using s c) := by
  unfold State.using
  repeat' (first
    | with_reducible assumption
    | with_reducible refine State.modClock_keeps (hk := ?_) ..
    | split
    | (with_reducible refine Keeps.lit ?_; dsimp only [State.kept]; with_reducible refine Keeps.unlit ?_))

theorem State.wake_keeps {kb : Bool} {s₀ : State} (s : State) (c : Nat) (hk : Keeps kb s₀ s) :
    Keeps kb s₀ (State.wake s c) := by
  unfold State.wake
  repeat' (first
    | with_reducible assumption
    | with_reducible first | refine State.modClock_keeps (hk := ?_) .. | refine State.reach_keeps (hk := ?_) .. | refine State.using_keeps (hk := ?_) ..
    | with_reducible refine Keeps.ite ?_ ?_
    | split
    | (with_reducible refine Keeps.lit ?_; dsimp only [State.kept]; with_reducible refine Keeps.unlit ?_)
    | dsimp only)

theorem State.toSequencer_keeps {kb : Bool} {s₀ : State} (s : State) (c : Nat) (via : Via) (r : CoinResult) (hk : Keeps kb s₀ s) :
    Keeps kb s₀ (State.toSequencer s c via r) := by
  unfold State.toSequencer
  repeat' (first
    | with_reducible assumption
    | with_reducible refine State.modCluster_keeps (hk := ?_) ..
    | split
    | (with_reducible refine Keeps.lit ?_; dsimp only [State.kept]; with_reducible refine Keeps.unlit ?_)
    | dsimp only)

theorem State.toContext_keeps {kb : Bool} {s₀ : State} (s : State) (p i : Nat) (r : CoinResult) (hk : Keeps kb s₀ s) :
    Keeps kb s₀ (State.toContext s p i r) := by
  unfold State.toContext
  repeat' (first
    | with_reducible assumption
    | with_reducible first | refine State.modCore_keeps (hk := ?_) .. | refine State.spoil_keeps (hk := ?_) ..
    | with_reducible refine Keeps.ite ?_ ?_
    | split
    | (with_reducible refine Keeps.lit ?_; dsimp only [State.kept]; with_reducible refine Keeps.unlit ?_)
    | dsimp only)

theorem State.toRequester_keeps {kb : Bool} {s₀ : State} (s : State) (c : Nat) (who : Requester) (via : Via) (r : CoinResult) (hk : Keeps kb s₀ s) :
    Keeps kb s₀ (State.toRequester s c who via r) := by
  unfold State.toRequester
  repeat' (first
    | with_reducible assumption
    | with_reducible first | refine State.toSequencer_keeps (hk := ?_) .. | refine State.toContext_keeps (hk := ?_) ..
    | split)

theorem State.replyIn_keeps {kb : Bool} {s₀ : State} (s : State) (src : Coord) (q c tag : Nat) (r : CoinResult) (hk : Keeps kb s₀ s) :
    Keeps kb s₀ (State.replyIn s src q c tag r) := by
  unfold State.replyIn
  repeat' (first
    | with_reducible assumption
    | with_reducible first | refine State.modCluster_keeps (hk := ?_) .. | refine State.modRtr_keeps (hk := ?_) .. | refine State.log_keeps (hk := ?_) .. | refine State.toRequester_keeps (hk := ?_) ..
    | split
    | (with_reducible refine Keeps.lit ?_; dsimp only [State.kept]; with_reducible refine Keeps.unlit ?_)
    | dsimp only)

theorem State.answer_keeps {kb : Bool} {s₀ : State} (s : State) (c q : Nat) (who : Requester) (r : CoinResult) (hk : Keeps kb s₀ s) :
    Keeps kb s₀ (State.answer s c q who r) := by
  unfold State.answer
  repeat' (first
    | with_reducible assumption
    | with_reducible first | refine State.inject_keeps (hk := ?_) .. | refine State.toRequester_keeps (hk := ?_) .. | refine State.replyIn_keeps (hk := ?_) ..
    | with_reducible refine Keeps.ite ?_ ?_
    | split
    | (with_reducible refine Keeps.lit ?_; dsimp only [State.kept]; with_reducible refine Keeps.unlit ?_)
    | dsimp only)

theorem State.modQueue_keeps {kb : Bool} {s₀ : State} (s : State) (c q : Nat) (f : Queue → Queue) (hk : Keeps kb s₀ s) :
    Keeps kb s₀ (State.modQueue s c q f) := by
  unfold State.modQueue
  repeat' (first
    | with_reducible assumption
    | with_reducible refine State.modCluster_keeps (hk := ?_) ..
    | split
    | (with_reducible refine Keeps.lit ?_; dsimp only [State.kept]; with_reducible refine Keeps.unlit ?_))

theorem State.release_keeps {kb : Bool} {s₀ : State} (s : State) (c q : Nat) (hk : Keeps kb s₀ s) :
    Keeps kb s₀ (State.release s c q) := by
  unfold State.release
  repeat' (first
    | with_reducible assumption
    | with_reducible first | refine State.answer_keeps (hk := ?_) .. | refine State.modQueue_keeps (hk := ?_) ..
    | with_reducible refine Keeps.foldl (fun _ _ _ => ?_) ?_
    | split
    | dsimp only)

theorem State.putCoins_keeps {kb : Bool} {s₀ : State} (s : State) (c q : Nat) (coins : List W32) (hk : Keeps kb s₀ s) :
    Keeps kb s₀ (State.putCoins s c q coins) := by
  unfold State.putCoins
  repeat' (first
    | with_reducible assumption
    | with_reducible first | refine State.modCluster_keeps (hk := ?_) .. | refine State.logLimited_keeps (hk := ?_) .. | refine State.modQueue_keeps (hk := ?_) .. | refine State.release_keeps (hk := ?_) ..
    | with_reducible refine Keeps.ite ?_ ?_
    | split
    | (with_reducible refine Keeps.lit ?_; dsimp only [State.kept]; with_reducible refine Keeps.unlit ?_)
    | dsimp only)

theorem State.joinQueue_keeps {kb : Bool} {s₀ : State} (s : State) (c q : Nat) (who : Requester) (n : Option Nat) (hk : Keeps kb s₀ s) :
    Keeps kb s₀ (State.joinQueue s c q who n) := by
  unfold State.joinQueue
  repeat' (first
    | with_reducible assumption
    | with_reducible first | refine State.modCluster_keeps (hk := ?_) .. | refine State.answer_keeps (hk := ?_) .. | refine State.modQueue_keeps (hk := ?_) .. | refine State.release_keeps (hk := ?_) ..
    | with_reducible refine Keeps.ite ?_ ?_
    | split
    | (with_reducible refine Keeps.lit ?_; dsimp only [State.kept]; with_reducible refine Keeps.unlit ?_))

theorem State.dropCoin_keeps {kb : Bool} {s₀ : State} (s : State) (c : Nat) (hk : Keeps kb s₀ s) :
    Keeps kb s₀ (State.dropCoin s c) := by
  unfold State.dropCoin
  repeat' (first
    | with_reducible assumption
    | with_reducible first | refine State.modCluster_keeps (hk := ?_) .. | refine State.log_keeps (hk := ?_) ..
    | with_reducible refine Keeps.ite ?_ ?_
    | split
    | (with_reducible refine Keeps.lit ?_; dsimp only [State.kept]; with_reducible refine Keeps.unlit ?_)
    | dsimp only)

theorem State.coinApply_keeps {kb : Bool} {s₀ : State} (s : State) (c q : Nat) (who : Requester) (op : CoinOp) (hk : Keeps kb s₀ s) :
    Keeps kb s₀ (State.coinApply s c q who op) := by
  unfold State.coinApply
  repeat' (first
    | with_reducible assumption
    | with_reducible first | refine State.wake_keeps (hk := ?_) .. | refine State.answer_keeps (hk := ?_) .. | refine State.putCoins_keeps (hk := ?_) .. | refine State.joinQueue_keeps (hk := ?_) .. | refine State.dropCoin_keeps (hk := ?_) ..
    | with_reducible refine Keeps.ite ?_ ?_
    | split
    | dsimp only)

theorem State.collectiveCoin_keeps {kb : Bool} {s₀ : State} (s : State) (c q : Nat) (v : W32) (hk : Keeps kb s₀ s) :
    Keeps kb s₀ (State.collectiveCoin s c q v) := by
  unfold State.collectiveCoin
  repeat' (first
    | with_reducible assumption
    | with_reducible refine State.coinApply_keeps (hk := ?_) ..)

theorem State.waitCoin_keeps {kb : Bool} {s₀ : State} (s : State) (c : Nat) (arr0 : Requester) (hk : Keeps kb s₀ s) :
    Keeps kb s₀ (State.waitCoin s c arr0) := by
  unfold State.waitCoin
  repeat' (first
    | with_reducible assumption
    | with_reducible first | refine State.modSeq_keeps (hk := ?_) .. | refine State.modCore_keeps (hk := ?_) ..
    | split
    | (with_reducible refine Keeps.lit ?_; dsimp only [State.kept]; with_reducible refine Keeps.unlit ?_))

theorem State.coinLocal_keeps {kb : Bool} {s₀ : State} (s : State) (c q : Nat) (who : Requester) (op : CoinOp) (hk : Keeps kb s₀ s) :
    Keeps kb s₀ (State.coinLocal s c q who op) := by
  unfold State.coinLocal
  repeat' (first
    | with_reducible assumption
    | with_reducible first | refine State.coinApply_keeps (hk := ?_) .. | refine State.waitCoin_keeps (hk := ?_) ..
    | with_reducible refine Keeps.ite ?_ ?_
    | split)

theorem State.coinRemote_keeps {kb : Bool} {s₀ : State} (s : State) (c : Nat) (who : Requester) (dest : Coord) (tc q : Nat) (op : CoinOp) (hk : Keeps kb s₀ s) :
    Keeps kb s₀ (State.coinRemote s c who dest tc q op) := by
  unfold State.coinRemote
  repeat' (first
    | with_reducible assumption
    | with_reducible first | refine State.modRtr_keeps (hk := ?_) .. | refine State.inject_keeps (hk := ?_) .. | refine State.toRequester_keeps (hk := ?_) .. | refine State.coinApply_keeps (hk := ?_) ..
    | with_reducible refine Keeps.ite ?_ ?_
    | with_reducible refine Keeps.pair (by assumption) ?_
    | split
    | (with_reducible refine Keeps.lit ?_; dsimp only [State.kept]; with_reducible refine Keeps.unlit ?_)
    | dsimp only)

theorem State.consumed_keeps {kb : Bool} {s₀ : State} (s : State) (p : Packet) (hk : Keeps kb s₀ s) :
    Keeps kb s₀ (State.consumed s p) := by
  unfold State.consumed
  repeat' (first
    | with_reducible assumption
    | with_reducible first | refine State.modRtr_keeps (hk := ?_) .. | refine State.freeBuffer_keeps (hk := ?_) ..
    | split
    | (with_reducible refine Keeps.lit ?_; dsimp only [State.kept]; with_reducible refine Keeps.unlit ?_)
    | dsimp only)

theorem State.takeIn_keeps {kb : Bool} {s₀ : State} (s : State) (p q : Packet) (hk : Keeps kb s₀ s) :
    Keeps kb s₀ (State.takeIn s p q) := by
  unfold State.takeIn
  repeat' (first
    | with_reducible assumption
    | with_reducible refine State.modRtr_keeps (hk := ?_) ..
    | split
    | (with_reducible refine Keeps.lit ?_; dsimp only [State.kept]; with_reducible refine Keeps.unlit ?_))

theorem State.freeKept_keeps {kb : Bool} {s₀ : State} (s : State) (hk : Keeps kb s₀ s) :
    Keeps kb s₀ (State.freeKept s) := by
  unfold State.freeKept
  repeat' (first
    | with_reducible assumption
    | with_reducible first | refine State.modRtr_keeps (hk := ?_) .. | refine State.freeBuffer_keeps (hk := ?_) ..
    | with_reducible refine Keeps.foldl (fun _ _ _ => ?_) ?_
    | split
    | (with_reducible refine Keeps.lit ?_; dsimp only [State.kept]; with_reducible refine Keeps.unlit ?_)
    | dsimp only)

theorem State.badPacket_keeps {kb : Bool} {s₀ : State} (s : State) (hk : Keeps kb s₀ s) :
    Keeps kb s₀ (State.badPacket s) := by
  unfold State.badPacket
  repeat' (first
    | with_reducible assumption
    | with_reducible refine State.modRtr_keeps (hk := ?_) ..
    | split
    | (with_reducible refine Keeps.lit ?_; dsimp only [State.kept]; with_reducible refine Keeps.unlit ?_))

theorem State.coinRequest_keeps {kb : Bool} {s₀ : State} (s : State) (p : Packet) (hk : Keeps kb s₀ s) :
    Keeps kb s₀ (State.coinRequest s p) := by
  unfold State.coinRequest
  repeat' (first
    | with_reducible assumption
    | with_reducible first | refine State.coinApply_keeps (hk := ?_) .. | refine State.consumed_keeps (hk := ?_) .. | refine State.badPacket_keeps (hk := ?_) ..
    | with_reducible refine Keeps.ite ?_ ?_
    | split
    | dsimp only)

theorem State.coinTimedOut_keeps {kb : Bool} {s₀ : State} (s : State) (c q : Nat) (who : Requester) (deadline : Nat) (w : Option Waiter) (hk : Keeps kb s₀ s) :
    Keeps kb s₀ (State.coinTimedOut s c q who deadline w) := by
  unfold State.coinTimedOut
  repeat' (first
    | with_reducible assumption
    | with_reducible first | refine State.modCluster_keeps (hk := ?_) .. | refine State.reach_keeps (hk := ?_) .. | refine State.logLimited_keeps (hk := ?_) .. | refine State.toRequester_keeps (hk := ?_) .. | refine State.answer_keeps (hk := ?_) .. | refine State.modQueue_keeps (hk := ?_) .. | refine State.release_keeps (hk := ?_) ..
    | split
    | (with_reducible refine Keeps.lit ?_; dsimp only [State.kept]; with_reducible refine Keeps.unlit ?_)
    | dsimp only)

theorem State.dropOwnWaits_keeps {kb : Bool} {s₀ : State} (s : State) (c : Nat) (hk : Keeps kb s₀ s) :
    Keeps kb s₀ (State.dropOwnWaits s c) := by
  unfold State.dropOwnWaits
  repeat' (first
    | with_reducible assumption
    | with_reducible first | refine State.modCluster_keeps (hk := ?_) .. | refine State.modRtr_keeps (hk := ?_) ..
    | split
    | (with_reducible refine Keeps.lit ?_; dsimp only [State.kept]; with_reducible refine Keeps.unlit ?_))

theorem State.ownerReset_keeps {kb : Bool} {s₀ : State} (s : State) (c : Nat) (wake : Bool) (hk : Keeps kb s₀ s) :
    Keeps kb s₀ (State.ownerReset s c wake).2 := by
  unfold State.ownerReset
  repeat' (first
    | with_reducible assumption
    | with_reducible first | refine State.modCluster_keeps (hk := ?_) .. | refine State.answer_keeps (hk := ?_) .. | refine State.dropOwnWaits_keeps (hk := ?_) ..
    | with_reducible refine Keeps.ite ?_ ?_
    | with_reducible refine Keeps.foldl (fun _ _ _ => ?_) ?_
    | split
    | (with_reducible refine Keeps.lit ?_; dsimp only [State.kept]; with_reducible refine Keeps.unlit ?_)
    | dsimp only)

theorem State.endWindow_keeps {kb : Bool} {s₀ : State} (s : State) (c : Nat) (hk : Keeps kb s₀ s) :
    Keeps kb s₀ (State.endWindow s c) := by
  unfold State.endWindow
  repeat' (first
    | with_reducible assumption
    | with_reducible first | refine State.modCluster_keeps (hk := ?_) .. | refine State.log_keeps (hk := ?_) ..
    | with_reducible refine Keeps.ite ?_ ?_
    | split
    | (with_reducible refine Keeps.lit ?_; dsimp only [State.kept]; with_reducible refine Keeps.unlit ?_)
    | dsimp only)

theorem State.saveQueues_keeps {kb : Bool} {s₀ : State} (s : State) (c : Nat) (hk : Keeps kb s₀ s) :
    Keeps kb s₀ (State.saveQueues s c) := by
  unfold State.saveQueues
  repeat' (first
    | with_reducible assumption
    | with_reducible refine State.modCluster_keeps (hk := ?_) ..
    | split
    | (with_reducible refine Keeps.lit ?_; dsimp only [State.kept]; with_reducible refine Keeps.unlit ?_))

theorem State.restoreQueues_keeps {kb : Bool} {s₀ : State} (s : State) (c : Nat) (saved : Tab Queue) (hk : Keeps kb s₀ s) :
    Keeps kb s₀ (State.restoreQueues s c saved) := by
  unfold State.restoreQueues
  repeat' (first
    | with_reducible assumption
    | with_reducible first | refine State.modCluster_keeps (hk := ?_) .. | refine State.release_keeps (hk := ?_) ..
    | with_reducible refine Keeps.foldl (fun _ _ _ => ?_) ?_
    | split
    | (with_reducible refine Keeps.lit ?_; dsimp only [State.kept]; with_reducible refine Keeps.unlit ?_)
    | dsimp only)

theorem State.settleRing_keeps {kb : Bool} {s₀ : State} (s : State) (n : Nat) (hk : Keeps kb s₀ s) :
    Keeps kb s₀ (State.settleRing s n) := by
  unfold State.settleRing
  repeat' (first
    | with_reducible assumption
    | with_reducible refine State.modRing_keeps (hk := ?_) ..
    | with_reducible refine Keeps.ite ?_ ?_
    | split
    | (with_reducible refine Keeps.lit ?_; dsimp only [State.kept]; with_reducible refine Keeps.unlit ?_))

theorem State.writeEntry_keeps {kb : Bool} {s₀ : State} (s : State) (n : Nat) (c : Completion) (hk : Keeps kb s₀ s) :
    Keeps kb s₀ (State.writeEntry s n c) := by
  unfold State.writeEntry
  repeat' (first
    | with_reducible assumption
    | with_reducible first | refine State.modRing_keeps (hk := ?_) .. | refine State.emit_keeps (hk := ?_) .. | refine State.signal_keeps (hk := ?_) ..
    | dsimp only)

theorem State.postEntry_keeps {kb : Bool} {s₀ : State} (s : State) (n : Nat) (c : Completion) (hk : Keeps kb s₀ s) :
    Keeps kb s₀ (State.postEntry s n c) := by
  unfold State.postEntry
  repeat' (first
    | with_reducible assumption
    | with_reducible first | refine State.modRing_keeps (hk := ?_) .. | refine State.settleRing_keeps (hk := ?_) .. | refine State.writeEntry_keeps (hk := ?_) ..
    | with_reducible refine Keeps.ite ?_ ?_
    | split
    | (with_reducible refine Keeps.lit ?_; dsimp only [State.kept]; with_reducible refine Keeps.unlit ?_))

theorem State.flushHeld_keeps {kb : Bool} {s₀ : State} (s : State) (n : Nat) (arr0 : Nat) (hk : Keeps kb s₀ s) : Keeps kb s₀ (s.flushHeld n arr0) := by
  induction arr0 generalizing s with
  | zero => unfold State.flushHeld; exact State.settleRing_keeps _ _ hk
  | succ k ih =>
    unfold State.flushHeld
    split
    · exact State.settleRing_keeps _ _ hk
    · split
      · exact hk
      · exact ih _ (State.writeEntry_keeps _ _ _ (State.modRing_keeps _ _ _ hk))

theorem State.complete_keeps {kb : Bool} {s₀ : State} (s : State) (d : Desc) (st : Status) (result : Nat) (detail : Nat) (guard : Nat) (cluster : Nat) (hk : Keeps kb s₀ s) :
    Keeps kb s₀ (State.complete s d st result detail guard cluster) := by
  unfold State.complete
  repeat' (first
    | with_reducible assumption
    | with_reducible first | refine State.modHost_keeps (hk := ?_) .. | refine State.postEntry_keeps (hk := ?_) ..
    | split
    | (with_reducible refine Keeps.lit ?_; dsimp only [State.kept]; with_reducible refine Keeps.unlit ?_)
    | dsimp only)

theorem State.forgetDesc_keeps {kb : Bool} {s₀ : State} (s : State) (d : Desc) (hk : Keeps kb s₀ s) :
    Keeps kb s₀ (State.forgetDesc s d) := by
  unfold State.forgetDesc
  repeat' (first
    | with_reducible assumption
    | with_reducible first | refine State.modHost_keeps (hk := ?_) .. | refine State.modRtr_keeps (hk := ?_) ..
    | split
    | (with_reducible refine Keeps.lit ?_; dsimp only [State.kept]; with_reducible refine Keeps.unlit ?_)
    | dsimp only)

theorem State.dmaEnd_keeps {kb : Bool} {s₀ : State} (s : State) (x : DmaRun) (st : Status) (hk : Keeps kb s₀ s) :
    Keeps kb s₀ (State.dmaEnd s x st) := by
  unfold State.dmaEnd
  repeat' (first
    | with_reducible assumption
    | with_reducible first | refine State.complete_keeps (hk := ?_) .. | refine State.forgetDesc_keeps (hk := ?_) ..)

theorem State.dmasDone_keeps {kb : Bool} {s₀ : State} (s : State) (hk : Keeps kb s₀ s) :
    Keeps kb s₀ (State.dmasDone s) := by
  unfold State.dmasDone
  repeat' (first
    | with_reducible assumption
    | with_reducible refine State.dmaEnd_keeps (hk := ?_) ..
    | with_reducible refine Keeps.foldl (fun _ _ _ => ?_) ?_
    | split
    | dsimp only)

theorem State.dmasDrop_keeps {kb : Bool} {s₀ : State} (s : State) (out : List Packet) (hk : Keeps kb s₀ s) :
    Keeps kb s₀ (State.dmasDrop s out) := by
  unfold State.dmasDrop
  repeat' (first
    | with_reducible assumption
    | with_reducible refine State.dmaEnd_keeps (hk := ?_) ..
    | with_reducible refine Keeps.foldl (fun _ _ _ => ?_) ?_
    | split
    | (with_reducible refine Keeps.lit ?_; dsimp only [State.kept]; with_reducible refine Keeps.unlit ?_)
    | dsimp only)

theorem State.contain_keeps {kb : Bool} {s₀ : State} (s : State) (u : UnitName) (hk : Keeps kb s₀ s) :
    Keeps kb s₀ (State.contain s u) := by
  unfold State.contain
  repeat' (first
    | with_reducible assumption
    | with_reducible refine State.modUnit_keeps (hk := ?_) ..
    | split
    | (with_reducible refine Keeps.lit ?_; dsimp only [State.kept]; with_reducible refine Keeps.unlit ?_))

theorem State.fenceDone_keeps {kb : Bool} {s₀ : State} (s : State) (u : UnitName) (hk : Keeps kb s₀ s) :
    Keeps kb s₀ (State.fenceDone s u) := by
  unfold State.fenceDone
  repeat' (first
    | with_reducible assumption
    | with_reducible first | refine State.modUnit_keeps (hk := ?_) .. | refine State.complete_keeps (hk := ?_) ..
    | with_reducible refine Keeps.ite ?_ ?_
    | split
    | (with_reducible refine Keeps.lit ?_; dsimp only [State.kept]; with_reducible refine Keeps.unlit ?_))

theorem State.fencesDone_keeps {kb : Bool} {s₀ : State} (s : State) (hk : Keeps kb s₀ s) :
    Keeps kb s₀ (State.fencesDone s) := by
  unfold State.fencesDone
  repeat' (first
    | with_reducible assumption
    | with_reducible refine State.fenceDone_keeps (hk := ?_) ..
    | with_reducible refine Keeps.foldl (fun _ _ _ => ?_) ?_
    | split)

end Sys2Proof.Machine
end

