-- ==== Sys2Proof/Laws/KeepsCluster.lean ====
section
/-!
SUPPORT. `Keeps` of every operation on the state, part: the clusters: plans, sequencers, storage errors, tiles, coins.
-/
set_option autoImplicit false
set_option linter.unusedVariables false
namespace Sys2Proof.Machine

theorem State.sendRead_keeps {kb : Bool} {s₀ : State} (s : State) (dest : Coord) (src : Nat) (w : ReadWait) (hk : Keeps kb s₀ s) :
    Keeps kb s₀ (State.sendRead s dest src w).2 := by
  unfold State.sendRead
  repeat' (first
    | with_reducible assumption
    | with_reducible first | refine State.modRtr_keeps (hk := ?_) .. | refine State.inject_keeps (hk := ?_) ..
    | with_reducible refine Keeps.pair (by assumption) ?_
    | split
    | (with_reducible refine Keeps.lit ?_; dsimp only [State.kept]; with_reducible refine Keeps.unlit ?_)
    | dsimp only)

theorem State.modLb_keeps {kb : Bool} {s₀ : State} (s : State) (c b : Nat) (f : LandingBuf → LandingBuf) (hk : Keeps kb s₀ s) :
    Keeps kb s₀ (State.modLb s c b f) := by
  unfold State.modLb
  repeat' (first
    | with_reducible assumption
    | with_reducible refine State.modCluster_keeps (hk := ?_) ..
    | split
    | (with_reducible refine Keeps.lit ?_; dsimp only [State.kept]; with_reducible refine Keeps.unlit ?_))

theorem State.wakeBuffer_keeps {kb : Bool} {s₀ : State} (s : State) (c b : Nat) (hk : Keeps kb s₀ s) :
    Keeps kb s₀ (State.wakeBuffer s c b) := by
  unfold State.wakeBuffer
  repeat' (first
    | with_reducible assumption
    | with_reducible refine State.modCore_keeps (hk := ?_) ..
    | with_reducible refine Keeps.foldl (fun _ _ _ => ?_) ?_
    | split
    | dsimp only)

theorem State.emptyBuffer_keeps {kb : Bool} {s₀ : State} (s : State) (c b : Nat) (hk : Keeps kb s₀ s) :
    Keeps kb s₀ (State.emptyBuffer s c b) := by
  unfold State.emptyBuffer
  repeat' (first
    | with_reducible assumption
    | with_reducible first | refine State.modLb_keeps (hk := ?_) .. | refine State.wakeBuffer_keeps (hk := ?_) ..
    | split)

theorem State.filled_keeps {kb : Bool} {s₀ : State} (s : State) (c b n : Nat) (hk : Keeps kb s₀ s) :
    Keeps kb s₀ (State.filled s c b n) := by
  unfold State.filled
  repeat' (first
    | with_reducible assumption
    | with_reducible first | refine State.using_keeps (hk := ?_) .. | refine State.modLb_keeps (hk := ?_) .. | refine State.wakeBuffer_keeps (hk := ?_) ..
    | with_reducible refine Keeps.ite ?_ ?_
    | split
    | (with_reducible refine Keeps.lit ?_; dsimp only [State.kept]; with_reducible refine Keeps.unlit ?_)
    | dsimp only)

theorem State.fillFailed_keeps {kb : Bool} {s₀ : State} (s : State) (c b : Nat) (st : Status) (hk : Keeps kb s₀ s) :
    Keeps kb s₀ (State.fillFailed s c b st) := by
  unfold State.fillFailed
  repeat' (first
    | with_reducible assumption
    | with_reducible first | refine State.modCore_keeps (hk := ?_) .. | refine State.modRtr_keeps (hk := ?_) .. | refine State.modLb_keeps (hk := ?_) ..
    | with_reducible refine Keeps.foldl (fun _ _ _ => ?_) ?_
    | split
    | (with_reducible refine Keeps.lit ?_; dsimp only [State.kept]; with_reducible refine Keeps.unlit ?_)
    | dsimp only)

theorem State.fillPiece_keeps {s₀ : State} (s : State) (c b : Nat) (dest : Coord) (src dst n : Nat) (hk : Keeps false s₀ s) :
    Keeps false s₀ (State.fillPiece s c b dest src dst n) := by
  unfold State.fillPiece
  repeat' (first
    | with_reducible assumption
    | with_reducible first | refine State.copyMem_keeps (hk := ?_) .. | refine State.log_keeps (hk := ?_) .. | refine State.sendRead_keeps (hk := ?_) .. | refine State.filled_keeps (hk := ?_) .. | refine State.fillFailed_keeps (hk := ?_) ..
    | with_reducible refine Keeps.ite ?_ ?_
    | with_reducible refine Keeps.pair (by assumption) ?_
    | split)

theorem State.cancelBuffer_keeps {kb : Bool} {s₀ : State} (s : State) (c b : Nat) (hk : Keeps kb s₀ s) :
    Keeps kb s₀ (State.cancelBuffer s c b) := by
  unfold State.cancelBuffer
  repeat' (first
    | with_reducible assumption
    | with_reducible first | refine State.modRtr_keeps (hk := ?_) .. | refine State.emptyBuffer_keeps (hk := ?_) ..
    | split
    | (with_reducible refine Keeps.lit ?_; dsimp only [State.kept]; with_reducible refine Keeps.unlit ?_))

theorem State.issueFill_keeps {s₀ : State} (s : State) (i : Nat) (hk : Keeps false s₀ s) :
    Keeps false s₀ (State.issueFill s i) := by
  unfold State.issueFill
  repeat' (first
    | with_reducible assumption
    | with_reducible first | refine State.modCol_keeps (hk := ?_) .. | refine State.modLb_keeps (hk := ?_) .. | refine State.fillFailed_keeps (hk := ?_) .. | refine State.fillPiece_keeps (hk := ?_) .. | refine State.cancelBuffer_keeps (hk := ?_) ..
    | with_reducible refine Keeps.ite ?_ ?_
    | with_reducible refine Keeps.foldl (fun _ _ _ => ?_) ?_
    | split
    | (with_reducible refine Keeps.lit ?_; dsimp only [State.kept]; with_reducible refine Keeps.unlit ?_)
    | dsimp only)

theorem State.runAhead_keeps {s₀ : State} (s : State) (ahead : List (Nat × Nat)) (hk : Keeps false s₀ s) :
    Keeps false s₀ (State.runAhead s ahead) := by
  unfold State.runAhead
  repeat' (first
    | with_reducible assumption
    | with_reducible refine State.issueFill_keeps (hk := ?_) ..
    | with_reducible refine Keeps.foldl (fun _ _ _ => ?_) ?_
    | split)

theorem State.cancelFills_keeps {kb : Bool} {s₀ : State} (s : State) (c : Nat) (hk : Keeps kb s₀ s) :
    Keeps kb s₀ (State.cancelFills s c) := by
  unfold State.cancelFills
  repeat' (first
    | with_reducible assumption
    | with_reducible first | refine State.modCol_keeps (hk := ?_) .. | refine State.cancelBuffer_keeps (hk := ?_) ..
    | with_reducible refine Keeps.foldl (fun _ _ _ => ?_) ?_
    | split
    | (with_reducible refine Keeps.lit ?_; dsimp only [State.kept]; with_reducible refine Keeps.unlit ?_)
    | dsimp only)

theorem State.advance_keeps {kb : Bool} {s₀ : State} (s : State) (c dt : Nat) (hk : Keeps kb s₀ s) :
    Keeps kb s₀ (State.advance s c dt) := by
  unfold State.advance
  repeat' (first
    | with_reducible assumption
    | with_reducible first | refine State.modSeq_keeps (hk := ?_) .. | refine State.modCore_keeps (hk := ?_) .. | refine State.span_keeps (hk := ?_) ..
    | with_reducible refine Keeps.ite ?_ ?_
    | with_reducible refine Keeps.foldl (fun _ _ _ => ?_) ?_
    | split
    | (with_reducible refine Keeps.lit ?_; dsimp only [State.kept]; with_reducible refine Keeps.unlit ?_)
    | dsimp only)

theorem State.dropSeqWaits_keeps {kb : Bool} {s₀ : State} (s : State) (c : Nat) (hk : Keeps kb s₀ s) :
    Keeps kb s₀ (State.dropSeqWaits s c) := by
  unfold State.dropSeqWaits
  repeat' (first
    | with_reducible assumption
    | with_reducible first | refine State.modCluster_keeps (hk := ?_) .. | refine State.modRtr_keeps (hk := ?_) .. | refine State.modQueue_keeps (hk := ?_) .. | refine State.release_keeps (hk := ?_) ..
    | with_reducible refine Keeps.foldl (fun _ _ _ => ?_) ?_
    | split
    | (with_reducible refine Keeps.lit ?_; dsimp only [State.kept]; with_reducible refine Keeps.unlit ?_)
    | dsimp only)

theorem State.releaseBuffers_keeps {kb : Bool} {s₀ : State} (s : State) (c : Nat) (bs : List Nat) (hk : Keeps kb s₀ s) :
    Keeps kb s₀ (State.releaseBuffers s c bs) := by
  unfold State.releaseBuffers
  repeat' (first
    | with_reducible assumption
    | with_reducible refine State.cancelBuffer_keeps (hk := ?_) ..
    | with_reducible refine Keeps.foldl (fun _ _ _ => ?_) ?_
    | split
    | dsimp only)

theorem State.dropPending_keeps {kb : Bool} {s₀ : State} (s : State) (c : Nat) (hk : Keeps kb s₀ s) :
    Keeps kb s₀ (State.dropPending s c) := by
  unfold State.dropPending
  repeat' (first
    | with_reducible assumption
    | with_reducible first | refine State.modCore_keeps (hk := ?_) .. | refine State.releaseBuffers_keeps (hk := ?_) ..
    | with_reducible refine Keeps.ite ?_ ?_
    | with_reducible refine Keeps.foldl (fun _ _ _ => ?_) ?_
    | split
    | (with_reducible refine Keeps.lit ?_; dsimp only [State.kept]; with_reducible refine Keeps.unlit ?_)
    | dsimp only)

theorem State.endOn_keeps {kb : Bool} {s₀ : State} (s : State) (c : Nat) (st : Status) (cause : Nat) (reported : Bool) (word : W32) (hk : Keeps kb s₀ s) :
    Keeps kb s₀ (State.endOn s c st cause reported word) := by
  unfold State.endOn
  repeat' (first
    | with_reducible assumption
    | with_reducible first | refine State.modSeq_keeps (hk := ?_) .. | refine State.modPwr_keeps (hk := ?_) .. | refine State.using_keeps (hk := ?_) .. | refine State.cancelFills_keeps (hk := ?_) .. | refine State.dropSeqWaits_keeps (hk := ?_) .. | refine State.dropPending_keeps (hk := ?_) ..
    | split
    | (with_reducible refine Keeps.lit ?_; dsimp only [State.kept]; with_reducible refine Keeps.unlit ?_)
    | dsimp only)

theorem State.stopAt_keeps {kb : Bool} {s₀ : State} (s : State) (c : Nat) (hk : Keeps kb s₀ s) :
    Keeps kb s₀ (State.stopAt s c) := by
  unfold State.stopAt
  repeat' (first
    | with_reducible assumption
    | with_reducible refine State.endOn_keeps (hk := ?_) ..
    | with_reducible refine Keeps.ite ?_ ?_)

theorem State.haltSeq_keeps {kb : Bool} {s₀ : State} (s : State) (c : Nat) (st : Status) (cause : Nat) (hk : Keeps kb s₀ s) :
    Keeps kb s₀ (State.haltSeq s c st cause) := by
  unfold State.haltSeq
  repeat' (first
    | with_reducible assumption
    | with_reducible first | refine State.modSeq_keeps (hk := ?_) .. | refine State.dropSeqWaits_keeps (hk := ?_) .. | refine State.dropPending_keeps (hk := ?_) .. | refine State.endOn_keeps (hk := ?_) .. | refine State.stopAt_keeps (hk := ?_) ..
    | with_reducible refine Keeps.ite ?_ ?_
    | with_reducible refine Keeps.foldl (fun _ _ _ => ?_) ?_
    | split
    | (with_reducible refine Keeps.lit ?_; dsimp only [State.kept]; with_reducible refine Keeps.unlit ?_)
    | dsimp only)

theorem State.stopCores_keeps {kb : Bool} {s₀ : State} (s : State) (c : Nat) (hk : Keeps kb s₀ s) :
    Keeps kb s₀ (State.stopCores s c) := by
  unfold State.stopCores
  repeat' (first
    | with_reducible assumption
    | with_reducible first | refine State.modCore_keeps (hk := ?_) .. | refine State.releaseBuffers_keeps (hk := ?_) ..
    | with_reducible refine Keeps.foldl (fun _ _ _ => ?_) ?_
    | split
    | (with_reducible refine Keeps.lit ?_; dsimp only [State.kept]; with_reducible refine Keeps.unlit ?_)
    | dsimp only)

theorem State.hazardAt_keeps {kb : Bool} {s₀ : State} (s : State) (c pc kind p reg dist retire ctx : Nat) (hk : Keeps kb s₀ s) :
    Keeps kb s₀ (State.hazardAt s c pc kind p reg dist retire ctx) := by
  unfold State.hazardAt
  repeat' (first
    | with_reducible assumption
    | with_reducible first | refine State.modCluster_keeps (hk := ?_) .. | refine State.span_keeps (hk := ?_) .. | refine State.logAs_keeps (hk := ?_) .. | refine State.haltSeq_keeps (hk := ?_) .. | refine State.stopCores_keeps (hk := ?_) ..
    | with_reducible refine Keeps.ite ?_ ?_
    | split
    | (with_reducible refine Keeps.lit ?_; dsimp only [State.kept]; with_reducible refine Keeps.unlit ?_)
    | dsimp only)

theorem State.hazard_keeps {kb : Bool} {s₀ : State} (s : State) (c kind p reg dist retire ctx : Nat) (hk : Keeps kb s₀ s) :
    Keeps kb s₀ (State.hazard s c kind p reg dist retire ctx) := by
  unfold State.hazard
  repeat' (first
    | with_reducible assumption
    | with_reducible refine State.hazardAt_keeps (hk := ?_) ..)

theorem State.absentEvent_keeps {kb : Bool} {s₀ : State} (s : State) (c number : Nat) (physical : Bool) (hk : Keeps kb s₀ s) :
    Keeps kb s₀ (State.absentEvent s c number physical) := by
  unfold State.absentEvent
  repeat' (first
    | with_reducible assumption
    | with_reducible refine State.log_keeps (hk := ?_) ..)

theorem State.refuseStart_keeps {kb : Bool} {s₀ : State} (s : State) (c : Nat) (ps : List Nat) (st : Status) (absent : Option Nat) (hk : Keeps kb s₀ s) :
    Keeps kb s₀ (State.refuseStart s c ps st absent) := by
  unfold State.refuseStart
  repeat' (first
    | with_reducible assumption
    | with_reducible first | refine State.modCore_keeps (hk := ?_) .. | refine State.log_keeps (hk := ?_) .. | refine State.haltSeq_keeps (hk := ?_) .. | refine State.absentEvent_keeps (hk := ?_) ..
    | with_reducible refine Keeps.foldl (fun _ _ _ => ?_) ?_
    | split
    | (with_reducible refine Keeps.lit ?_; dsimp only [State.kept]; with_reducible refine Keeps.unlit ?_)
    | dsimp only)

theorem State.beginLayer_keeps {kb : Bool} {s₀ : State} (s : State) (p : Nat) (hk : Keeps kb s₀ s) :
    Keeps kb s₀ (State.beginLayer s p) := by
  unfold State.beginLayer
  repeat' (first
    | with_reducible assumption
    | with_reducible first | refine State.modCluster_keeps (hk := ?_) .. | refine State.modCore_keeps (hk := ?_) ..
    | with_reducible refine Keeps.ite ?_ ?_
    | split
    | (with_reducible refine Keeps.lit ?_; dsimp only [State.kept]; with_reducible refine Keeps.unlit ?_)
    | dsimp only)

theorem State.place_keeps {s₀ : State} (s : State) (c : Nat) (w : WaitingStart) (div : Nat) (hk : Keeps false s₀ s) :
    Keeps false s₀ (State.place s c w div) := by
  unfold State.place
  repeat' (first
    | with_reducible assumption
    | with_reducible first | refine State.modCluster_keeps (hk := ?_) .. | refine State.modCore_keeps (hk := ?_) .. | refine State.modLb_keeps (hk := ?_) .. | refine State.runAhead_keeps (hk := ?_) .. | refine State.beginLayer_keeps (hk := ?_) ..
    | with_reducible refine Keeps.foldl (fun _ _ _ => ?_) ?_
    | split
    | (with_reducible refine Keeps.lit ?_; dsimp only [State.kept]; with_reducible refine Keeps.unlit ?_)
    | dsimp only)

theorem State.tryStart_keeps {s₀ : State} (s : State) (c : Nat) (w : WaitingStart) (hk : Keeps false s₀ s) :
    Keeps false s₀ (State.tryStart s c w).2 := by
  unfold State.tryStart
  repeat' (first
    | with_reducible assumption
    | with_reducible first | refine State.modSeq_keeps (hk := ?_) .. | refine State.modPurse_keeps (hk := ?_) .. | refine State.span_keeps (hk := ?_) .. | refine State.place_keeps (hk := ?_) ..
    | with_reducible refine Keeps.ite2 ?_ ?_
    | split
    | (with_reducible refine Keeps.lit ?_; dsimp only [State.kept]; with_reducible refine Keeps.unlit ?_)
    | dsimp only)

theorem State.retryStart_keeps {s₀ : State} (s : State) (c : Nat) (hk : Keeps false s₀ s) :
    Keeps false s₀ (State.retryStart s c) := by
  unfold State.retryStart
  repeat' (first
    | with_reducible assumption
    | with_reducible refine State.tryStart_keeps (hk := ?_) ..
    | with_reducible refine Keeps.ite ?_ ?_
    | split)

theorem State.serviceLayers_keeps {kb : Bool} {s₀ : State} (s : State) (c : Nat) (hk : Keeps kb s₀ s) :
    Keeps kb s₀ (State.serviceLayers s c) := by
  unfold State.serviceLayers
  repeat' (first
    | with_reducible assumption
    | with_reducible first | refine State.modSeq_keeps (hk := ?_) .. | refine State.endOn_keeps (hk := ?_) ..
    | with_reducible refine Keeps.ite ?_ ?_
    | split
    | (with_reducible refine Keeps.lit ?_; dsimp only [State.kept]; with_reducible refine Keeps.unlit ?_)
    | dsimp only)

theorem State.retireLayer_keeps {kb : Bool} {s₀ : State} (s : State) (p : Nat) (st : Status) (hk : Keeps kb s₀ s) :
    Keeps kb s₀ (State.retireLayer s p st) := by
  unfold State.retireLayer
  repeat' (first
    | with_reducible assumption
    | with_reducible first | refine State.modCluster_keeps (hk := ?_) .. | refine State.modCore_keeps (hk := ?_) .. | refine State.modRtr_keeps (hk := ?_) .. | refine State.releaseBuffers_keeps (hk := ?_) ..
    | split
    | (with_reducible refine Keeps.lit ?_; dsimp only [State.kept]; with_reducible refine Keeps.unlit ?_)
    | dsimp only)

theorem State.afterLayer_keeps {s₀ : State} (s : State) (p : Nat) (st : Status) (hk : Keeps false s₀ s) :
    Keeps false s₀ (State.afterLayer s p st) := by
  unfold State.afterLayer
  repeat' (first
    | with_reducible assumption
    | with_reducible first | refine State.fencesDone_keeps (hk := ?_) .. | refine State.stopAt_keeps (hk := ?_) .. | refine State.haltSeq_keeps (hk := ?_) .. | refine State.beginLayer_keeps (hk := ?_) .. | refine State.retryStart_keeps (hk := ?_) .. | refine State.serviceLayers_keeps (hk := ?_) ..
    | with_reducible refine Keeps.ite ?_ ?_
    | dsimp only)

theorem State.cdcTimeout_keeps {kb : Bool} {s₀ : State} (s : State) (domain addr : Nat) (hk : Keeps kb s₀ s) :
    Keeps kb s₀ (State.cdcTimeout s domain addr) := by
  unfold State.cdcTimeout
  repeat' (first
    | with_reducible assumption
    | with_reducible first | refine State.span_keeps (hk := ?_) .. | refine State.detectLimited_keeps (hk := ?_) ..
    | (with_reducible refine Keeps.lit ?_; dsimp only [State.kept]; with_reducible refine Keeps.unlit ?_)
    | dsimp only)

theorem State.crosses_keeps {kb : Bool} {s₀ : State} (s : State) (domain addr bytes : Nat) (hk : Keeps kb s₀ s) :
    Keeps kb s₀ (State.crosses s domain addr bytes) := by
  unfold State.crosses
  repeat' (first
    | with_reducible assumption
    | (with_reducible refine Keeps.lit ?_; dsimp only [State.kept]; with_reducible refine Keeps.unlit ?_))

theorem State.crossed_keeps {kb : Bool} {s₀ : State} (s : State) (x : Crossing) (hk : Keeps kb s₀ s) :
    Keeps kb s₀ (State.crossed s x) := by
  unfold State.crossed
  repeat' (first
    | with_reducible assumption
    | with_reducible first | refine State.emit_keeps (hk := ?_) .. | refine State.cdcTimeout_keeps (hk := ?_) ..
    | with_reducible refine Keeps.ite ?_ ?_
    | dsimp only)

theorem State.flushCrossings_keeps {kb : Bool} {s₀ : State} (s : State) (hit : Nat → Bool) (hk : Keeps kb s₀ s) :
    Keeps kb s₀ (State.flushCrossings s hit).2 := by
  unfold State.flushCrossings
  repeat' (first
    | with_reducible assumption
    | with_reducible refine State.crossed_keeps (hk := ?_) ..
    | with_reducible refine Keeps.foldl (fun _ _ _ => ?_) ?_
    | split
    | (with_reducible refine Keeps.lit ?_; dsimp only [State.kept]; with_reducible refine Keeps.unlit ?_)
    | dsimp only)

theorem State.resetEvent_keeps {kb : Bool} {s₀ : State} (s : State) (kind source : Nat) (interrupted : Bool) (entries coins flushed : Nat) (hk : Keeps kb s₀ s) :
    Keeps kb s₀ (State.resetEvent s kind source interrupted entries coins flushed) := by
  unfold State.resetEvent
  repeat' (first
    | with_reducible assumption
    | with_reducible first | refine State.modDev_keeps (hk := ?_) .. | refine State.logAs_keeps (hk := ?_) ..
    | with_reducible refine Keeps.ite ?_ ?_
    | split
    | (with_reducible refine Keeps.lit ?_; dsimp only [State.kept]; with_reducible refine Keeps.unlit ?_)
    | dsimp only)

theorem State.resetCore_keeps {s₀ : State} (s : State) (p : Nat) (hk : Keeps false s₀ s) :
    Keeps false s₀ (State.resetCore s p).2 := by
  unfold State.resetCore
  repeat' (first
    | with_reducible assumption
    | with_reducible first | refine State.modCore_keeps (hk := ?_) .. | refine State.modUnit_keeps (hk := ?_) .. | refine State.releaseBuffers_keeps (hk := ?_) .. | refine State.retireLayer_keeps (hk := ?_) .. | refine State.afterLayer_keeps (hk := ?_) ..
    | with_reducible refine Keeps.ite ?_ ?_
    | split
    | (with_reducible refine Keeps.lit ?_; dsimp only [State.kept]; with_reducible refine Keeps.unlit ?_)
    | dsimp only)

theorem State.resetCluster_keeps {kb : Bool} {s₀ : State} (s : State) (c : Nat) (wake : Bool) (hk : Keeps kb s₀ s) :
    Keeps kb s₀ (State.resetCluster s c wake).2.2 := by
  unfold State.resetCluster
  repeat' (first
    | with_reducible assumption
    | with_reducible first | refine State.modSeq_keeps (hk := ?_) .. | refine State.modCore_keeps (hk := ?_) .. | refine State.modUnit_keeps (hk := ?_) .. | refine State.ownerReset_keeps (hk := ?_) .. | refine State.endWindow_keeps (hk := ?_) .. | refine State.fencesDone_keeps (hk := ?_) .. | refine State.releaseBuffers_keeps (hk := ?_) .. | refine State.haltSeq_keeps (hk := ?_) .. | refine State.retireLayer_keeps (hk := ?_) ..
    | with_reducible refine Keeps.foldl (fun _ _ _ => ?_) ?_
    | split
    | (with_reducible refine Keeps.lit ?_; dsimp only [State.kept]; with_reducible refine Keeps.unlit ?_)
    | dsimp only)

theorem State.clearTeFlags_keeps {kb : Bool} {s₀ : State} (s : State) (p v : Nat) (hk : Keeps kb s₀ s) :
    Keeps kb s₀ (State.clearTeFlags s p v) := by
  unfold State.clearTeFlags
  repeat' (first
    | with_reducible assumption
    | with_reducible refine State.modCore_keeps (hk := ?_) ..
    | split
    | (with_reducible refine Keeps.lit ?_; dsimp only [State.kept]; with_reducible refine Keeps.unlit ?_))

theorem State.readEmptyRows_keeps {kb : Bool} {s₀ : State} (s : State) (p : Nat) (hk : Keeps kb s₀ s) :
    Keeps kb s₀ (State.readEmptyRows s p).2 := by
  unfold State.readEmptyRows
  repeat' (first
    | with_reducible assumption
    | with_reducible refine State.modCore_keeps (hk := ?_) ..
    | split
    | (with_reducible refine Keeps.lit ?_; dsimp only [State.kept]; with_reducible refine Keeps.unlit ?_)
    | dsimp only)

theorem State.modVault_keeps {kb : Bool} {s₀ : State} (s : State) (v : VaultName) (f : VaultState → VaultState) (hk : Keeps kb s₀ s) :
    Keeps kb s₀ (State.modVault s v f) := by
  unfold State.modVault
  repeat' (first
    | with_reducible assumption
    | with_reducible first | refine State.modCluster_keeps (hk := ?_) .. | refine State.modCore_keeps (hk := ?_) ..
    | split
    | (with_reducible refine Keeps.lit ?_; dsimp only [State.kept]; with_reducible refine Keeps.unlit ?_))

theorem State.poisonWork_keeps {kb : Bool} {s₀ : State} (s : State) (arr0 : VaultName) (hk : Keeps kb s₀ s) : Keeps kb s₀ (s.poisonWork arr0) := by
  cases arr0
  · exact State.spoil_keeps _ _ _ hk
  · exact State.haltSeq_keeps _ _ _ _ hk

theorem State.bankFails_keeps {kb : Bool} {s₀ : State} (s : State) (v : VaultName) (bank : Nat) (hk : Keeps kb s₀ s) :
    Keeps kb s₀ (State.bankFails s v bank) := by
  unfold State.bankFails
  repeat' (first
    | with_reducible assumption
    | with_reducible first | refine State.ledgerAppend_keeps (hk := ?_) .. | refine State.detect_keeps (hk := ?_) .. | refine State.closeWindow_keeps (hk := ?_) .. | refine State.contain_keeps (hk := ?_) .. | refine State.modVault_keeps (hk := ?_) .. | refine State.poisonWork_keeps (hk := ?_) ..
    | with_reducible refine Keeps.ite ?_ ?_
    | split
    | (with_reducible refine Keeps.lit ?_; dsimp only [State.kept]; with_reducible refine Keeps.unlit ?_)
    | dsimp only)

theorem State.vaultCorrectedAt_keeps {kb : Bool} {s₀ : State} (s : State) (v : VaultName) (a : Nat) (hk : Keeps kb s₀ s) :
    Keeps kb s₀ (State.vaultCorrectedAt s v a) := by
  unfold State.vaultCorrectedAt
  repeat' (first
    | with_reducible assumption
    | with_reducible first | refine State.span_keeps (hk := ?_) .. | refine State.total_keeps (hk := ?_) .. | refine State.detectLimited_keeps (hk := ?_) .. | refine State.modVault_keeps (hk := ?_) .. | refine State.bankFails_keeps (hk := ?_) ..
    | with_reducible refine Keeps.ite ?_ ?_
    | split
    | (with_reducible refine Keeps.lit ?_; dsimp only [State.kept]; with_reducible refine Keeps.unlit ?_)
    | dsimp only)

theorem State.vaultLostAt_keeps {s₀ : State} (s : State) (v : VaultName) (a : Nat) (hk : Keeps false s₀ s) : Keeps false s₀ (s.vaultLostAt v a) := by
  unfold State.vaultLostAt
  split
  · exact hk
  · exact State.bankFails_keeps _ _ _ (State.detect_keeps _ _ _ _ (Keeps.memory s (s.mem.mark a) (Memory.wf_mark _ _) hk))

theorem State.candidate_keeps {kb : Bool} {s₀ : State} (s : State) (n row : Nat) (hk : Keeps kb s₀ s) :
    Keeps kb s₀ (State.candidate s n row) := by
  unfold State.candidate
  repeat' (first
    | with_reducible assumption
    | with_reducible refine State.modChannel_keeps (hk := ?_) ..
    | split
    | (with_reducible refine Keeps.lit ?_; dsimp only [State.kept]; with_reducible refine Keeps.unlit ?_))

theorem State.erase_keeps {kb : Bool} {s₀ : State} (s : State) (n device : Nat) (hk : Keeps kb s₀ s) :
    Keeps kb s₀ (State.erase s n device) := by
  unfold State.erase
  repeat' (first
    | with_reducible assumption
    | with_reducible first | refine State.modChannel_keeps (hk := ?_) .. | refine State.ledgerAppend_keeps (hk := ?_) .. | refine State.detect_keeps (hk := ?_) .. | refine State.closeWindow_keeps (hk := ?_) ..
    | split
    | (with_reducible refine Keeps.lit ?_; dsimp only [State.kept]; with_reducible refine Keeps.unlit ?_)
    | dsimp only)

theorem State.dramCorrectedAt_keeps {kb : Bool} {s₀ : State} (s : State) (a device : Nat) (hk : Keeps kb s₀ s) :
    Keeps kb s₀ (State.dramCorrectedAt s a device) := by
  unfold State.dramCorrectedAt
  repeat' (first
    | with_reducible assumption
    | with_reducible first | refine State.modChannel_keeps (hk := ?_) .. | refine State.span_keeps (hk := ?_) .. | refine State.total_keeps (hk := ?_) .. | refine State.detectLimited_keeps (hk := ?_) .. | refine State.candidate_keeps (hk := ?_) .. | refine State.erase_keeps (hk := ?_) ..
    | with_reducible refine Keeps.ite ?_ ?_
    | split
    | (with_reducible refine Keeps.lit ?_; dsimp only [State.kept]; with_reducible refine Keeps.unlit ?_)
    | dsimp only)

theorem State.dramLostAt_keeps {s₀ : State} (s : State) (a : Nat) (hk : Keeps false s₀ s) : Keeps false s₀ (s.dramLostAt a) := by
  unfold State.dramLostAt
  split
  · exact hk
  · dsimp only
    refine State.candidate_keeps _ _ _ (State.detectWith_keeps _ _ _ _ (State.modChannel_keeps _ _ _ (State.span_keeps _ _ _ (State.total_keeps _ _ _ ?_))))
    exact Keeps.memory s _ (Memory.wf_mark _ _) hk

theorem State.loseChannel_keeps {kb : Bool} {s₀ : State} (s : State) (n : Nat) (hk : Keeps kb s₀ s) :
    Keeps kb s₀ (State.loseChannel s n) := by
  unfold State.loseChannel
  repeat' (first
    | with_reducible assumption
    | with_reducible first | refine State.modChannel_keeps (hk := ?_) .. | refine State.detect_keeps (hk := ?_) .. | refine State.closeWindow_keeps (hk := ?_) .. | refine State.contain_keeps (hk := ?_) ..
    | with_reducible refine Keeps.ite ?_ ?_
    | split
    | (with_reducible refine Keeps.lit ?_; dsimp only [State.kept]; with_reducible refine Keeps.unlit ?_)
    | dsimp only)

theorem State.dramErrorAt_keeps {s₀ : State} (s : State) (a device : Nat) (single : Bool) (hk : Keeps false s₀ s) :
    Keeps false s₀ (State.dramErrorAt s a device single) := by
  unfold State.dramErrorAt
  repeat' (first
    | with_reducible assumption
    | with_reducible first | refine State.dramCorrectedAt_keeps (hk := ?_) .. | refine State.dramLostAt_keeps (hk := ?_) ..
    | with_reducible refine Keeps.ite ?_ ?_
    | dsimp only)

theorem State.ecc_keeps {s₀ : State} (s : State) (x : Nat × EccResult) (hk : Keeps false s₀ s) :
    Keeps false s₀ (State.ecc s x) := by
  unfold State.ecc
  repeat' (first
    | with_reducible assumption
    | with_reducible first | refine State.vaultCorrectedAt_keeps (hk := ?_) .. | refine State.vaultLostAt_keeps (hk := ?_) .. | refine State.dramLostAt_keeps (hk := ?_) .. | refine State.dramErrorAt_keeps (hk := ?_) ..
    | with_reducible refine Keeps.ite ?_ ?_
    | split)

theorem State.eccAll_keeps {s₀ : State} (s : State) (xs : List (Nat × EccResult)) (hk : Keeps false s₀ s) :
    Keeps false s₀ (State.eccAll s xs) := by
  unfold State.eccAll
  repeat' (first
    | with_reducible assumption
    | with_reducible refine State.ecc_keeps (hk := ?_) ..
    | with_reducible refine Keeps.foldl (fun _ _ _ => ?_) ?_)

theorem State.tick_keeps {kb : Bool} {s₀ : State} (s : State) (c : Nat) (t : Tick) (hk : Keeps kb s₀ s) :
    Keeps kb s₀ (State.tick s c t) := by
  unfold State.tick
  repeat' (first
    | with_reducible assumption
    | with_reducible first | refine State.modSeq_keeps (hk := ?_) .. | refine State.each_keeps (hk := ?_) (hf := ?_) .. | refine State.detect_keeps (hk := ?_) .. | refine State.advance_keeps (hk := ?_) ..
    | (intros; with_reducible assumption)
    | intro _ _ _
    | intro _ _
    | split
    | (with_reducible refine Keeps.lit ?_; dsimp only [State.kept]; with_reducible refine Keeps.unlit ?_)
    | dsimp only)

theorem State.seqMemLost_keeps {kb : Bool} {s₀ : State} (s : State) (c : Nat) (hk : Keeps kb s₀ s) :
    Keeps kb s₀ (State.seqMemLost s c) := by
  unfold State.seqMemLost
  repeat' (first
    | with_reducible assumption
    | with_reducible first | refine State.detect_keeps (hk := ?_) .. | refine State.closeWindow_keeps (hk := ?_) .. | refine State.contain_keeps (hk := ?_) .. | refine State.haltSeq_keeps (hk := ?_) .. | refine State.flushCrossings_keeps (hk := ?_) .. | refine State.resetEvent_keeps (hk := ?_) .. | refine State.resetCluster_keeps (hk := ?_) ..
    | split
    | dsimp only)

theorem State.onSeq_keeps {kb : Bool} {s₀ : State} (s : State) (c : Nat) (t : Tick) (f : State → State) (hf : ∀ t, Keeps kb s₀ t → Keeps kb s₀ (f t)) (hk : Keeps kb s₀ s) :
    Keeps kb s₀ (State.onSeq s c t f) := by
  unfold State.onSeq
  repeat' (first
    | with_reducible assumption
    | with_reducible refine hf _ ?_
    | with_reducible first | refine State.tick_keeps (hk := ?_) .. | refine State.seqMemLost_keeps (hk := ?_) ..
    | with_reducible refine Keeps.ite ?_ ?_)

theorem State.sendCfg_keeps {kb : Bool} {s₀ : State} (s : State) (c p word : Nat) (v : W64) (hk : Keeps kb s₀ s) :
    Keeps kb s₀ (State.sendCfg s c p word v) := by
  unfold State.sendCfg
  repeat' (first
    | with_reducible assumption
    | with_reducible first | refine State.modSeq_keeps (hk := ?_) .. | refine State.hazard_keeps (hk := ?_) ..
    | with_reducible refine Keeps.ite ?_ ?_
    | split
    | (with_reducible refine Keeps.lit ?_; dsimp only [State.kept]; with_reducible refine Keeps.unlit ?_)
    | dsimp only)

theorem State.goReads_keeps {kb : Bool} {s₀ : State} (s : State) (c p : Nat) (hk : Keeps kb s₀ s) :
    Keeps kb s₀ (State.goReads s c p) := by
  unfold State.goReads
  repeat' (first
    | with_reducible assumption
    | with_reducible refine State.hazard_keeps (hk := ?_) ..
    | with_reducible refine Keeps.foldl (fun _ _ _ => ?_) ?_
    | split
    | dsimp only)

theorem State.refuse_keeps {kb : Bool} {s₀ : State} (s : State) (c : Nat) (ps : List Nat) (st : Status) (hk : Keeps kb s₀ s) :
    Keeps kb s₀ (State.refuse s c ps st) := by
  unfold State.refuse
  repeat' (first
    | with_reducible assumption
    | with_reducible refine State.refuseStart_keeps (hk := ?_) ..)

theorem State.startOn_keeps {s₀ : State} (s : State) (c : Nat) (broadcast : Bool) (ps : List Nat) (buffers : List Nat) (ahead : List (Nat × Nat)) (hk : Keeps false s₀ s) :
    Keeps false s₀ (State.startOn s c broadcast ps buffers ahead) := by
  unfold State.startOn
  repeat' (first
    | with_reducible assumption
    | with_reducible first | refine State.tryStart_keeps (hk := ?_) .. | refine State.refuse_keeps (hk := ?_) ..
    | with_reducible refine Keeps.ite ?_ ?_
    | split
    | dsimp only)

theorem execLcbStore_keeps {kb : Bool} {s₀ : State} (c : Nat) (t : Tick) (target : Target) (word : Nat) (v : W64) (s : State) (hk : Keeps kb s₀ s) :
    Answers (execLcbStore c t target word v s) (Keeps kb s₀) := by
  unfold execLcbStore
  repeat' (first
    | with_reducible assumption
    | with_reducible refine Answers.next ?_
    | with_reducible first | refine State.clearTeFlags_keeps (hk := ?_) .. | refine State.onSeq_keeps (hk := ?_) (hf := ?_) .. | refine State.sendCfg_keeps (hk := ?_) ..
    | with_reducible refine Keeps.ite ?_ ?_
    | with_reducible refine Keeps.foldl (fun _ _ _ => ?_) ?_
    | intro _ _
    | split
    | dsimp only)

theorem State.refuseLogical_keeps {kb : Bool} {s₀ : State} (s : State) (c n : Nat) (hk : Keeps kb s₀ s) :
    Keeps kb s₀ (State.refuseLogical s c n) := by
  unfold State.refuseLogical
  repeat' (first
    | with_reducible assumption
    | with_reducible first | refine State.haltSeq_keeps (hk := ?_) .. | refine State.absentEvent_keeps (hk := ?_) ..)

theorem execLayerStart_keeps {s₀ : State} (c : Nat) (t : Tick) (target : Target) (buffers : List Nat) (ahead : List (Nat × Nat)) (ecc : List (Nat × EccResult)) (s : State) (hk : Keeps false s₀ s) :
    Answers (execLayerStart c t target buffers ahead ecc s) (Keeps false s₀) := by
  unfold execLayerStart
  repeat' (first
    | with_reducible assumption
    | with_reducible refine Answers.next ?_
    | with_reducible first | refine State.eccAll_keeps (hk := ?_) .. | refine State.onSeq_keeps (hk := ?_) (hf := ?_) .. | refine State.goReads_keeps (hk := ?_) .. | refine State.refuse_keeps (hk := ?_) .. | refine State.startOn_keeps (hk := ?_) .. | refine State.refuseLogical_keeps (hk := ?_) ..
    | with_reducible refine Keeps.ite ?_ ?_
    | with_reducible refine Keeps.foldl (fun _ _ _ => ?_) ?_
    | intro _ _
    | split
    | (with_reducible refine Keeps.lit ?_; dsimp only [State.kept]; with_reducible refine Keeps.unlit ?_)
    | dsimp only)

theorem execLayerWait_keeps {kb : Bool} {s₀ : State} (c : Nat) (t : Tick) (mask : Nat) (s : State) (hk : Keeps kb s₀ s) :
    Answers (execLayerWait c t mask s) (Keeps kb s₀) := by
  unfold execLayerWait
  repeat' (first
    | with_reducible assumption
    | with_reducible refine Answers.next ?_
    | with_reducible first | refine State.modSeq_keeps (hk := ?_) .. | refine State.onSeq_keeps (hk := ?_) (hf := ?_) ..
    | with_reducible refine Keeps.ite ?_ ?_
    | intro _ _
    | split
    | (with_reducible refine Keeps.lit ?_; dsimp only [State.kept]; with_reducible refine Keeps.unlit ?_)
    | dsimp only)

theorem execLayerComplete_keeps {s₀ : State} (p : Nat) (s : State) (hk : Keeps false s₀ s) :
    Answers (execLayerComplete p s) (Keeps false s₀) := by
  unfold execLayerComplete
  repeat' (first
    | with_reducible assumption
    | with_reducible refine Answers.next ?_
    | with_reducible refine Answers.ite ?_ ?_
    | with_reducible first | refine State.span_keeps (hk := ?_) .. | refine State.retireLayer_keeps (hk := ?_) .. | refine State.afterLayer_keeps (hk := ?_) ..
    | with_reducible refine Keeps.ite ?_ ?_
    | split
    | dsimp only)

theorem execHwmClear_keeps {kb : Bool} {s₀ : State} (c : Nat) (t : Tick) (i : Nat) (v : W64) (s : State) (hk : Keeps kb s₀ s) :
    Answers (execHwmClear c t i v s) (Keeps kb s₀) := by
  unfold execHwmClear
  repeat' (first
    | with_reducible assumption
    | with_reducible refine Answers.next ?_
    | with_reducible refine State.onSeq_keeps (hk := ?_) (hf := ?_) ..
    | with_reducible refine Keeps.ite ?_ ?_
    | intro _ _
    | split
    | (with_reducible refine Keeps.lit ?_; dsimp only [State.kept]; with_reducible refine Keeps.unlit ?_)
    | dsimp only)

theorem execSeqTableWrite_keeps {kb : Bool} {s₀ : State} (c : Nat) (t : Tick) (slot : Nat) (high : Bool) (v : W64) (s : State) (hk : Keeps kb s₀ s) :
    Answers (execSeqTableWrite c t slot high v s) (Keeps kb s₀) := by
  unfold execSeqTableWrite
  repeat' (first
    | with_reducible assumption
    | with_reducible refine Answers.next ?_
    | with_reducible first | refine State.modClusters_keeps (hk := ?_) .. | refine State.onSeq_keeps (hk := ?_) (hf := ?_) ..
    | with_reducible refine Keeps.ite ?_ ?_
    | intro _ _
    | split
    | (with_reducible refine Keeps.lit ?_; dsimp only [State.kept]; with_reducible refine Keeps.unlit ?_)
    | dsimp only)

theorem execSeqTableCommit_keeps {kb : Bool} {s₀ : State} (c : Nat) (t : Tick) (v : W64) (s : State) (hk : Keeps kb s₀ s) :
    Answers (execSeqTableCommit c t v s) (Keeps kb s₀) := by
  unfold execSeqTableCommit
  repeat' (first
    | with_reducible assumption
    | with_reducible refine Answers.next ?_
    | with_reducible first | refine State.modClusters_keeps (hk := ?_) .. | refine State.modSeq_keeps (hk := ?_) .. | refine State.log_keeps (hk := ?_) .. | refine State.onSeq_keeps (hk := ?_) (hf := ?_) ..
    | with_reducible refine Keeps.ite ?_ ?_
    | intro _ _
    | split
    | (with_reducible refine Keeps.lit ?_; dsimp only [State.kept]; with_reducible refine Keeps.unlit ?_)
    | dsimp only)

theorem execLossRead_keeps {kb : Bool} {s₀ : State} (c : Nat) (t : Tick) (slot : Nat) (s : State) (hk : Keeps kb s₀ s) :
    Answers (execLossRead c t slot s) (Keeps kb s₀) := by
  unfold execLossRead
  repeat' (first
    | with_reducible assumption
    | with_reducible refine Answers.next ?_
    | with_reducible first | refine State.modSeq_keeps (hk := ?_) .. | refine State.onSeq_keeps (hk := ?_) (hf := ?_) ..
    | with_reducible refine Keeps.ite ?_ ?_
    | intro _ _
    | split
    | (with_reducible refine Keeps.lit ?_; dsimp only [State.kept]; with_reducible refine Keeps.unlit ?_)
    | dsimp only)

theorem execLossClear_keeps {kb : Bool} {s₀ : State} (c : Nat) (t : Tick) (slot : Nat) (v : W64) (s : State) (hk : Keeps kb s₀ s) :
    Answers (execLossClear c t slot v s) (Keeps kb s₀) := by
  unfold execLossClear
  repeat' (first
    | with_reducible assumption
    | with_reducible refine Answers.next ?_
    | with_reducible first | refine State.modClusters_keeps (hk := ?_) .. | refine State.onSeq_keeps (hk := ?_) (hf := ?_) ..
    | with_reducible refine Keeps.ite ?_ ?_
    | intro _ _
    | split
    | (with_reducible refine Keeps.lit ?_; dsimp only [State.kept]; with_reducible refine Keeps.unlit ?_)
    | dsimp only)

theorem execTimerWait_keeps {kb : Bool} {s₀ : State} (c : Nat) (t : Tick) (n : Nat) (v : W64) (s : State) (hk : Keeps kb s₀ s) :
    Answers (execTimerWait c t n v s) (Keeps kb s₀) := by
  unfold execTimerWait
  repeat' (first
    | with_reducible assumption
    | with_reducible refine Answers.next ?_
    | with_reducible first | refine State.modSeq_keeps (hk := ?_) .. | refine State.onSeq_keeps (hk := ?_) (hf := ?_) ..
    | with_reducible refine Keeps.ite ?_ ?_
    | intro _ _
    | split
    | (with_reducible refine Keeps.lit ?_; dsimp only [State.kept]; with_reducible refine Keeps.unlit ?_)
    | dsimp only)

theorem State.atDevice_keeps {kb : Bool} {s₀ : State} (s : State) (t : Nat) (hk : Keeps kb s₀ s) :
    Keeps kb s₀ (State.atDevice s t) := by
  unfold State.atDevice
  repeat' (first
    | with_reducible assumption
    | with_reducible refine State.reach_keeps (hk := ?_) ..
    | dsimp only)

theorem execTimerExpiry_keeps {kb : Bool} {s₀ : State} (c : Nat) (s : State) (hk : Keeps kb s₀ s) :
    Answers (execTimerExpiry c s) (Keeps kb s₀) := by
  unfold execTimerExpiry
  repeat' (first
    | with_reducible assumption
    | with_reducible refine Answers.next ?_
    | with_reducible first | refine State.modSeq_keeps (hk := ?_) .. | refine State.atDevice_keeps (hk := ?_) ..
    | split
    | (with_reducible refine Keeps.lit ?_; dsimp only [State.kept]; with_reducible refine Keeps.unlit ?_)
    | dsimp only)

theorem execSeqCompletion_keeps {kb : Bool} {s₀ : State} (c : Nat) (t : Tick) (word : W64) (s : State) (hk : Keeps kb s₀ s) :
    Answers (execSeqCompletion c t word s) (Keeps kb s₀) := by
  unfold execSeqCompletion
  repeat' (first
    | with_reducible assumption
    | with_reducible refine Answers.next ?_
    | with_reducible first | refine State.modSeq_keeps (hk := ?_) .. | refine State.endOn_keeps (hk := ?_) .. | refine State.onSeq_keeps (hk := ?_) (hf := ?_) ..
    | with_reducible refine Keeps.ite ?_ ?_
    | intro _ _
    | split
    | (with_reducible refine Keeps.lit ?_; dsimp only [State.kept]; with_reducible refine Keeps.unlit ?_)
    | dsimp only)

theorem execProgramNote_keeps {kb : Bool} {s₀ : State} (c : Nat) (t : Tick) (bytes : List Byte) (s : State) (hk : Keeps kb s₀ s) :
    Answers (execProgramNote c t bytes s) (Keeps kb s₀) := by
  unfold execProgramNote
  repeat' (first
    | with_reducible assumption
    | with_reducible refine Answers.next ?_
    | with_reducible first | refine State.logAs_keeps (hk := ?_) .. | refine State.onSeq_keeps (hk := ?_) (hf := ?_) ..
    | intro _ _
    | split
    | dsimp only)

theorem execSeqAddressFault_keeps {kb : Bool} {s₀ : State} (c : Nat) (t : Tick) (s : State) (hk : Keeps kb s₀ s) :
    Answers (execSeqAddressFault c t s) (Keeps kb s₀) := by
  unfold execSeqAddressFault
  repeat' (first
    | with_reducible assumption
    | with_reducible refine Answers.next ?_
    | with_reducible first | refine State.haltSeq_keeps (hk := ?_) .. | refine State.onSeq_keeps (hk := ?_) (hf := ?_) ..
    | intro _ _
    | split
    | dsimp only)

theorem execSeqInstructionFault_keeps {kb : Bool} {s₀ : State} (c : Nat) (t : Tick) (s : State) (hk : Keeps kb s₀ s) :
    Answers (execSeqInstructionFault c t s) (Keeps kb s₀) := by
  unfold execSeqInstructionFault
  repeat' (first
    | with_reducible assumption
    | with_reducible refine Answers.next ?_
    | with_reducible first | refine State.haltSeq_keeps (hk := ?_) .. | refine State.onSeq_keeps (hk := ?_) (hf := ?_) ..
    | intro _ _
    | split
    | dsimp only)

theorem execSeqMemUncorrected_keeps {kb : Bool} {s₀ : State} (c : Nat) (s : State) (hk : Keeps kb s₀ s) :
    Answers (execSeqMemUncorrected c s) (Keeps kb s₀) := by
  unfold execSeqMemUncorrected
  repeat' (first
    | with_reducible assumption
    | with_reducible refine Answers.next ?_
    | with_reducible refine Answers.ite ?_ ?_
    | with_reducible refine State.seqMemLost_keeps (hk := ?_) ..
    | dsimp only)

theorem State.modSeqWaits_keeps {kb : Bool} {s₀ : State} (s : State) (c : Nat) (f : Waiter → Waiter) (hk : Keeps kb s₀ s) :
    Keeps kb s₀ (State.modSeqWaits s c f) := by
  unfold State.modSeqWaits
  repeat' (first
    | with_reducible assumption
    | with_reducible refine State.modCluster_keeps (hk := ?_) ..
    | split
    | (with_reducible refine Keeps.lit ?_; dsimp only [State.kept]; with_reducible refine Keeps.unlit ?_))

theorem execDebugHalt_keeps {kb : Bool} {s₀ : State} (c : Nat) (s : State) (hk : Keeps kb s₀ s) :
    Answers (execDebugHalt c s) (Keeps kb s₀) := by
  unfold execDebugHalt
  repeat' (first
    | with_reducible assumption
    | with_reducible refine Answers.next ?_
    | with_reducible refine Answers.ite ?_ ?_
    | with_reducible refine State.modSeq_keeps (hk := ?_) ..
    | split
    | (with_reducible refine Keeps.lit ?_; dsimp only [State.kept]; with_reducible refine Keeps.unlit ?_)
    | dsimp only)

theorem execDebugResume_keeps {s₀ : State} (c : Nat) (s : State) (hk : Keeps false s₀ s) :
    Answers (execDebugResume c s) (Keeps false s₀) := by
  unfold execDebugResume
  repeat' (first
    | with_reducible assumption
    | with_reducible refine Answers.next ?_
    | with_reducible refine Answers.ite ?_ ?_
    | with_reducible first | refine State.modSeq_keeps (hk := ?_) .. | refine State.retryStart_keeps (hk := ?_) .. | refine State.modSeqWaits_keeps (hk := ?_) ..
    | split
    | (with_reducible refine Keeps.lit ?_; dsimp only [State.kept]; with_reducible refine Keeps.unlit ?_)
    | dsimp only)

theorem State.hazards_keeps {kb : Bool} {s₀ : State} (s : State) (p i : Nat) (hs : List Haz) (hk : Keeps kb s₀ s) :
    Keeps kb s₀ (State.hazards s p i hs) := by
  unfold State.hazards
  repeat' (first
    | with_reducible assumption
    | with_reducible refine State.hazardAt_keeps (hk := ?_) ..
    | with_reducible refine Keeps.foldl (fun _ _ _ => ?_) ?_
    | split
    | (with_reducible refine Keeps.lit ?_; dsimp only [State.kept]; with_reducible refine Keeps.unlit ?_)
    | dsimp only)

theorem State.tileParity_keeps {kb : Bool} {s₀ : State} (s : State) (p : Nat) (bad : Bool) (hk : Keeps kb s₀ s) :
    Keeps kb s₀ (State.tileParity s p bad) := by
  unfold State.tileParity
  repeat' (first
    | with_reducible assumption
    | with_reducible first | refine State.span_keeps (hk := ?_) .. | refine State.detect_keeps (hk := ?_) ..
    | with_reducible refine Keeps.ite ?_ ?_)

theorem State.writeResults_keeps {kb : Bool} {s₀ : State} (s : State) (p i dst dist : Nat) (reads : List Nat) (early : Bool) (srcFl : Flags) (rs : List (Nat × FV)) (units : List (Nat × Bool)) (parity : List Nat) (hk : Keeps kb s₀ s) :
    Keeps kb s₀ (State.writeResults s p i dst dist reads early srcFl rs units parity) := by
  unfold State.writeResults
  repeat' (first
    | with_reducible assumption
    | with_reducible first | refine State.modCore_keeps (hk := ?_) .. | refine State.hazards_keeps (hk := ?_) .. | refine State.tileParity_keeps (hk := ?_) ..
    | split
    | (with_reducible refine Keeps.lit ?_; dsimp only [State.kept]; with_reducible refine Keeps.unlit ?_)
    | dsimp only)

theorem State.laneOp_keeps {kb : Bool} {s₀ : State} (s : State) (p i : Nat) (f : LaneFn) (dst : Nat) (srcs : List TeSrc) (early : Bool) (parity : List Nat) (hk : Keeps kb s₀ s) :
    Keeps kb s₀ (State.laneOp s p i f dst srcs early parity) := by
  unfold State.laneOp
  repeat' (first
    | with_reducible assumption
    | with_reducible refine State.writeResults_keeps (hk := ?_) ..
    | split
    | dsimp only)

theorem State.treeOp_keeps {kb : Bool} {s₀ : State} (s : State) (p i : Nat) (f : TreeFn) (byRow : Bool) (dst : Nat) (src : TeSrc) (early : Bool) (parity : List Nat) (hk : Keeps kb s₀ s) :
    Keeps kb s₀ (State.treeOp s p i f byRow dst src early parity) := by
  unfold State.treeOp
  repeat' (first
    | with_reducible assumption
    | with_reducible refine State.writeResults_keeps (hk := ?_) ..
    | split
    | dsimp only)

theorem State.tileFault_keeps {kb : Bool} {s₀ : State} (s : State) (p a : Nat) (hk : Keeps kb s₀ s) :
    Keeps kb s₀ (State.tileFault s p a) := by
  unfold State.tileFault
  repeat' (first
    | with_reducible assumption
    | with_reducible first | refine State.log_keeps (hk := ?_) .. | refine State.spoil_keeps (hk := ?_) ..
    | split
    | (with_reducible refine Keeps.lit ?_; dsimp only [State.kept]; with_reducible refine Keeps.unlit ?_)
    | dsimp only)

theorem State.loadWrite_keeps {kb : Bool} {s₀ : State} (s : State) (p i dist : Nat) (l : LoadReq) (x : Loaded) (hk : Keeps kb s₀ s) :
    Keeps kb s₀ (State.loadWrite s p i dist l x) := by
  unfold State.loadWrite
  repeat' (first
    | with_reducible assumption
    | with_reducible first | refine State.modCore_keeps (hk := ?_) .. | refine State.hazards_keeps (hk := ?_) ..
    | split
    | (with_reducible refine Keeps.lit ?_; dsimp only [State.kept]; with_reducible refine Keeps.unlit ?_)
    | dsimp only)

theorem State.accepted_keeps {kb : Bool} {s₀ : State} (s : State) (p : Packet) (hk : Keeps kb s₀ s) :
    Keeps kb s₀ (State.accepted s p) := by
  unfold State.accepted
  repeat' (first
    | with_reducible assumption
    | with_reducible refine State.modRtr_keeps (hk := ?_) ..
    | with_reducible refine Keeps.ite ?_ ?_
    | split
    | (with_reducible refine Keeps.lit ?_; dsimp only [State.kept]; with_reducible refine Keeps.unlit ?_))

theorem State.remoteFault_keeps {kb : Bool} {s₀ : State} (s : State) (p : Packet) (hk : Keeps kb s₀ s) :
    Keeps kb s₀ (State.remoteFault s p) := by
  unfold State.remoteFault
  repeat' (first
    | with_reducible assumption
    | with_reducible refine State.log_keeps (hk := ?_) ..)

theorem State.wakeAt_keeps {kb : Bool} {s₀ : State} (s : State) (a : Nat) (hk : Keeps kb s₀ s) :
    Keeps kb s₀ (State.wakeAt s a) := by
  unfold State.wakeAt
  repeat' (first
    | with_reducible assumption
    | with_reducible refine State.wake_keeps (hk := ?_) ..
    | split)

theorem State.remoteWrite_keeps {s₀ : State} (s : State) (p : Packet) (hk : Keeps false s₀ s) :
    Keeps false s₀ (State.remoteWrite s p) := by
  unfold State.remoteWrite
  repeat' (first
    | with_reducible assumption
    | with_reducible first | refine State.modRtr_keeps (hk := ?_) .. | refine State.writeMem_keeps (hk := ?_) .. | refine State.accepted_keeps (hk := ?_) .. | refine State.remoteFault_keeps (hk := ?_) .. | refine State.wakeAt_keeps (hk := ?_) ..
    | with_reducible refine Keeps.ite ?_ ?_
    | split
    | (with_reducible refine Keeps.lit ?_; dsimp only [State.kept]; with_reducible refine Keeps.unlit ?_))

theorem State.streamWrite_keeps {s₀ : State} (s : State) (p : Nat) (dev : Coord) (reg off addr bytes : Nat) (sealed : Option (Nat × Nat × Nat)) (hk : Keeps false s₀ s) :
    Keeps false s₀ (State.streamWrite s p dev reg off addr bytes sealed) := by
  unfold State.streamWrite
  repeat' (first
    | with_reducible assumption
    | with_reducible first | refine State.inject_keeps (hk := ?_) .. | refine State.spoil_keeps (hk := ?_) .. | refine State.remoteWrite_keeps (hk := ?_) ..
    | with_reducible refine Keeps.ite ?_ ?_
    | with_reducible refine Keeps.pair (by assumption) ?_
    | split
    | (with_reducible refine Keeps.lit ?_; dsimp only [State.kept]; with_reducible refine Keeps.unlit ?_)
    | dsimp only)

theorem State.localLoad_keeps {kb : Bool} {s₀ : State} (s : State) (p i reg off addr bytes : Nat) (form : Option Expansion) (hk : Keeps kb s₀ s) :
    Keeps kb s₀ (State.localLoad s p i reg off addr bytes form) := by
  unfold State.localLoad
  repeat' (first
    | with_reducible assumption
    | with_reducible first | refine State.modCore_keeps (hk := ?_) .. | refine State.tileFault_keeps (hk := ?_) .. | refine State.loadWrite_keeps (hk := ?_) ..
    | with_reducible refine Keeps.ite ?_ ?_
    | split
    | (with_reducible refine Keeps.lit ?_; dsimp only [State.kept]; with_reducible refine Keeps.unlit ?_)
    | dsimp only)

theorem State.deviceLoad_keeps {kb : Bool} {s₀ : State} (s : State) (p i : Nat) (dev : Coord) (reg off addr bytes : Nat) (hk : Keeps kb s₀ s) :
    Keeps kb s₀ (State.deviceLoad s p i dev reg off addr bytes) := by
  unfold State.deviceLoad
  repeat' (first
    | with_reducible assumption
    | with_reducible first | refine State.modCore_keeps (hk := ?_) .. | refine State.log_keeps (hk := ?_) .. | refine State.spoil_keeps (hk := ?_) .. | refine State.sendRead_keeps (hk := ?_) ..
    | with_reducible refine Keeps.ite ?_ ?_
    | with_reducible refine Keeps.pair (by assumption) ?_
    | split
    | (with_reducible refine Keeps.lit ?_; dsimp only [State.kept]; with_reducible refine Keeps.unlit ?_)
    | dsimp only)

theorem State.loadDone_keeps {kb : Bool} {s₀ : State} (s : State) (p i : Nat) (l : LoadReq) (hk : Keeps kb s₀ s) :
    Keeps kb s₀ (State.loadDone s p i l) := by
  unfold State.loadDone
  repeat' (first
    | with_reducible assumption
    | with_reducible refine State.modCore_keeps (hk := ?_) ..
    | split
    | (with_reducible refine Keeps.lit ?_; dsimp only [State.kept]; with_reducible refine Keeps.unlit ?_)
    | dsimp only)

theorem State.teEffect_keeps {s₀ : State} (s : State) (p i : Nat) (ly : Layer) (o : TeOp) (parity : List Nat) (hk : Keeps false s₀ s) :
    Keeps false s₀ (State.teEffect s p i ly o parity) := by
  unfold State.teEffect
  repeat' (first
    | with_reducible assumption
    | with_reducible first | refine State.modCore_keeps (hk := ?_) .. | refine State.finishRowTile_keeps (hk := ?_) .. | refine State.epilogue_keeps (hk := ?_) .. | refine State.teTile_keeps (hk := ?_) .. | refine State.storeRegion_keeps (hk := ?_) .. | refine State.hazards_keeps (hk := ?_) .. | refine State.laneOp_keeps (hk := ?_) .. | refine State.treeOp_keeps (hk := ?_) .. | refine State.streamWrite_keeps (hk := ?_) .. | refine State.localLoad_keeps (hk := ?_) .. | refine State.deviceLoad_keeps (hk := ?_) ..
    | with_reducible refine Keeps.ite ?_ ?_
    | split
    | (with_reducible refine Keeps.lit ?_; dsimp only [State.kept]; with_reducible refine Keeps.unlit ?_)
    | dsimp only)

theorem State.wakeStalled_keeps {kb : Bool} {s₀ : State} (s : State) (p : Nat) (on : StallOn) (hk : Keeps kb s₀ s) :
    Keeps kb s₀ (State.wakeStalled s p on) := by
  unfold State.wakeStalled
  repeat' (first
    | with_reducible assumption
    | with_reducible refine State.modCore_keeps (hk := ?_) ..
    | with_reducible refine Keeps.foldl (fun _ _ _ => ?_) ?_
    | split)

theorem State.poisonAccs_keeps {kb : Bool} {s₀ : State} (s : State) (p : Nat) (bad : List (Nat × Nat)) (hk : Keeps kb s₀ s) :
    Keeps kb s₀ (State.poisonAccs s p bad) := by
  unfold State.poisonAccs
  repeat' (first
    | with_reducible assumption
    | with_reducible refine State.modCore_keeps (hk := ?_) ..
    | split
    | (with_reducible refine Keeps.lit ?_; dsimp only [State.kept]; with_reducible refine Keeps.unlit ?_))

theorem execMxeIssue_keeps {s₀ : State} (p dt : Nat) (ecc : List (Nat × EccResult)) (parity : List (Nat × Nat)) (s : State) (hk : Keeps false s₀ s) :
    Answers (execMxeIssue p dt ecc parity s) (Keeps false s₀) := by
  unfold execMxeIssue
  repeat' (first
    | with_reducible assumption
    | with_reducible refine Answers.next ?_
    | with_reducible refine Answers.ite ?_ ?_
    | with_reducible first | refine State.mxeIssue_keeps (hk := ?_) .. | refine State.advance_keeps (hk := ?_) .. | refine State.eccAll_keeps (hk := ?_) .. | refine State.tileParity_keeps (hk := ?_) .. | refine State.wakeStalled_keeps (hk := ?_) .. | refine State.poisonAccs_keeps (hk := ?_) ..
    | with_reducible refine Keeps.ite ?_ ?_
    | dsimp only)

theorem execFinishedTileDrain_keeps {s₀ : State} (p i : Nat) (ecc : List (Nat × EccResult)) (parity : List (Nat × Nat)) (s : State) (hk : Keeps false s₀ s) :
    Answers (execFinishedTileDrain p i ecc parity s) (Keeps false s₀) := by
  unfold execFinishedTileDrain
  repeat' (first
    | with_reducible assumption
    | with_reducible refine Answers.next ?_
    | with_reducible refine Answers.ite ?_ ?_
    | with_reducible first | refine State.mxeDrain_keeps (hk := ?_) .. | refine State.eccAll_keeps (hk := ?_) .. | refine State.tileParity_keeps (hk := ?_) .. | refine State.wakeStalled_keeps (hk := ?_) ..
    | with_reducible refine Keeps.ite ?_ ?_
    | dsimp only)

theorem execTileOperation_keeps {s₀ : State} (p i dt : Nat) (o : TeOp) (ecc : List (Nat × EccResult)) (parity : List Nat) (s : State) (hk : Keeps false s₀ s) :
    Answers (execTileOperation p i dt o ecc parity s) (Keeps false s₀) := by
  unfold execTileOperation
  repeat' (first
    | with_reducible assumption
    | with_reducible refine Answers.next ?_
    | with_reducible first | refine State.modCore_keeps (hk := ?_) .. | refine State.advance_keeps (hk := ?_) .. | refine State.eccAll_keeps (hk := ?_) .. | refine State.teEffect_keeps (hk := ?_) ..
    | split
    | (with_reducible refine Keeps.lit ?_; dsimp only [State.kept]; with_reducible refine Keeps.unlit ?_)
    | dsimp only)

theorem execLoadLand_keeps {s₀ : State} (p i dt j : Nat) (ecc : List (Nat × EccResult)) (s : State) (hk : Keeps false s₀ s) :
    Answers (execLoadLand p i dt j ecc s) (Keeps false s₀) := by
  unfold execLoadLand
  repeat' (first
    | with_reducible assumption
    | with_reducible refine Answers.next ?_
    | with_reducible refine Answers.ite ?_ ?_
    | with_reducible first | refine State.advance_keeps (hk := ?_) .. | refine State.eccAll_keeps (hk := ?_) .. | refine State.loadWrite_keeps (hk := ?_) .. | refine State.loadDone_keeps (hk := ?_) ..
    | split
    | dsimp only)

theorem State.reqTick_keeps {kb : Bool} {s₀ : State} (s : State) (c : Nat) (who : Requester) (t : Tick) (hk : Keeps kb s₀ s) :
    Keeps kb s₀ (State.reqTick s c who t) := by
  unfold State.reqTick
  repeat' (first
    | with_reducible assumption
    | with_reducible first | refine State.advance_keeps (hk := ?_) .. | refine State.tick_keeps (hk := ?_) ..
    | split)

theorem State.ownCoin_keeps {kb : Bool} {s₀ : State} (s : State) (c : Nat) (who : Requester) (t : Tick) (q : Nat) (op : CoinOp) (hk : Keeps kb s₀ s) :
    Keeps kb s₀ (State.ownCoin s c who t q op) := by
  unfold State.ownCoin
  repeat' (first
    | with_reducible assumption
    | with_reducible first | refine State.coinLocal_keeps (hk := ?_) .. | refine State.seqMemLost_keeps (hk := ?_) .. | refine State.reqTick_keeps (hk := ?_) ..
    | with_reducible refine Keeps.ite ?_ ?_
    | dsimp only)

theorem execDeposit_keeps {kb : Bool} {s₀ : State} (c : Nat) (who : Requester) (t : Tick) (q : Nat) (coin : W32) (s : State) (hk : Keeps kb s₀ s) :
    Answers (execDeposit c who t q coin s) (Keeps kb s₀) := by
  unfold execDeposit
  repeat' (first
    | with_reducible assumption
    | with_reducible refine Answers.next ?_
    | with_reducible refine State.ownCoin_keeps (hk := ?_) ..
    | dsimp only)

theorem execTake_keeps {kb : Bool} {s₀ : State} (c : Nat) (who : Requester) (t : Tick) (q : Nat) (s : State) (hk : Keeps kb s₀ s) :
    Answers (execTake c who t q s) (Keeps kb s₀) := by
  unfold execTake
  repeat' (first
    | with_reducible assumption
    | with_reducible refine Answers.next ?_
    | with_reducible refine State.ownCoin_keeps (hk := ?_) ..
    | dsimp only)

theorem execPeek_keeps {kb : Bool} {s₀ : State} (c : Nat) (who : Requester) (t : Tick) (q : Nat) (s : State) (hk : Keeps kb s₀ s) :
    Answers (execPeek c who t q s) (Keeps kb s₀) := by
  unfold execPeek
  repeat' (first
    | with_reducible assumption
    | with_reducible refine Answers.next ?_
    | with_reducible refine State.ownCoin_keeps (hk := ?_) ..
    | dsimp only)

theorem execBell_keeps {kb : Bool} {s₀ : State} (c : Nat) (who : Requester) (t : Tick) (q : Nat) (coin : W32) (n : Nat) (s : State) (hk : Keeps kb s₀ s) :
    Answers (execBell c who t q coin n s) (Keeps kb s₀) := by
  unfold execBell
  repeat' (first
    | with_reducible assumption
    | with_reducible refine Answers.next ?_
    | with_reducible refine State.ownCoin_keeps (hk := ?_) ..
    | dsimp only)

theorem execTakeNArm_keeps {kb : Bool} {s₀ : State} (c : Nat) (t : Tick) (q n : Nat) (s : State) (hk : Keeps kb s₀ s) :
    Answers (execTakeNArm c t q n s) (Keeps kb s₀) := by
  unfold execTakeNArm
  repeat' (first
    | with_reducible assumption
    | with_reducible refine Answers.next ?_
    | with_reducible first | refine State.modCluster_keeps (hk := ?_) .. | refine State.onSeq_keeps (hk := ?_) (hf := ?_) ..
    | with_reducible refine Keeps.ite ?_ ?_
    | intro _ _
    | split
    | (with_reducible refine Keeps.lit ?_; dsimp only [State.kept]; with_reducible refine Keeps.unlit ?_)
    | dsimp only)

theorem execTakeN_keeps {kb : Bool} {s₀ : State} (c : Nat) (who : Requester) (t : Tick) (q n : Nat) (s : State) (hk : Keeps kb s₀ s) :
    Answers (execTakeN c who t q n s) (Keeps kb s₀) := by
  unfold execTakeN
  repeat' (first
    | with_reducible assumption
    | with_reducible refine Answers.next ?_
    | with_reducible first | refine State.modCluster_keeps (hk := ?_) .. | refine State.coinLocal_keeps (hk := ?_) .. | refine State.haltSeq_keeps (hk := ?_) .. | refine State.onSeq_keeps (hk := ?_) (hf := ?_) .. | refine State.ownCoin_keeps (hk := ?_) ..
    | intro _ _
    | split
    | (with_reducible refine Keeps.lit ?_; dsimp only [State.kept]; with_reducible refine Keeps.unlit ?_)
    | dsimp only)

theorem State.goRemote_keeps {kb : Bool} {s₀ : State} (s : State) (c : Nat) (who : Requester) (target : W64) (coin : W32) (hk : Keeps kb s₀ s) :
    Keeps kb s₀ (State.goRemote s c who target coin) := by
  unfold State.goRemote
  repeat' (first
    | with_reducible assumption
    | with_reducible first | refine State.toRequester_keeps (hk := ?_) .. | refine State.waitCoin_keeps (hk := ?_) .. | refine State.coinRemote_keeps (hk := ?_) ..
    | with_reducible refine Keeps.ite ?_ ?_
    | split
    | (with_reducible refine Keeps.lit ?_; dsimp only [State.kept]; with_reducible refine Keeps.unlit ?_)
    | dsimp only)

theorem execRemoteCoinGo_keeps {kb : Bool} {s₀ : State} (c : Nat) (who : Requester) (t : Tick) (target : W64) (coin : W32) (load : Bool) (s : State) (hk : Keeps kb s₀ s) :
    Answers (execRemoteCoinGo c who t target coin load s) (Keeps kb s₀) := by
  unfold execRemoteCoinGo
  repeat' (first
    | with_reducible assumption
    | with_reducible refine Answers.next ?_
    | with_reducible refine Answers.ite ?_ ?_
    | with_reducible first | refine State.modCluster_keeps (hk := ?_) .. | refine State.waitCoin_keeps (hk := ?_) .. | refine State.seqMemLost_keeps (hk := ?_) .. | refine State.reqTick_keeps (hk := ?_) .. | refine State.goRemote_keeps (hk := ?_) ..
    | with_reducible refine Keeps.ite ?_ ?_
    | split
    | (with_reducible refine Keeps.lit ?_; dsimp only [State.kept]; with_reducible refine Keeps.unlit ?_)
    | dsimp only)

theorem execCoinPacket_keeps {kb : Bool} {s₀ : State} (p : Packet) (s : State) (hk : Keeps kb s₀ s) :
    Answers (execCoinPacket p s) (Keeps kb s₀) := by
  unfold execCoinPacket
  repeat' (first
    | with_reducible assumption
    | with_reducible refine Answers.next ?_
    | with_reducible refine Answers.ite ?_ ?_
    | with_reducible refine State.coinRequest_keeps (hk := ?_) ..
    | dsimp only)

theorem execCoinReply_keeps {kb : Bool} {s₀ : State} (p : Packet) (s : State) (hk : Keeps kb s₀ s) :
    Answers (execCoinReply p s) (Keeps kb s₀) := by
  unfold execCoinReply
  repeat' (first
    | with_reducible assumption
    | with_reducible refine Answers.next ?_
    | with_reducible refine Answers.ite ?_ ?_
    | with_reducible first | refine State.replyIn_keeps (hk := ?_) .. | refine State.consumed_keeps (hk := ?_) .. | refine State.badPacket_keeps (hk := ?_) ..
    | dsimp only)

theorem execCoinWaitTimeout_keeps {kb : Bool} {s₀ : State} (c q j : Nat) (s : State) (hk : Keeps kb s₀ s) :
    Answers (execCoinWaitTimeout c q j s) (Keeps kb s₀) := by
  unfold execCoinWaitTimeout
  repeat' (first
    | with_reducible assumption
    | with_reducible refine Answers.next ?_
    | with_reducible refine State.coinTimedOut_keeps (hk := ?_) ..
    | with_reducible refine Keeps.ite ?_ ?_
    | split
    | dsimp only)

theorem execCoinGuardExpiry_keeps {kb : Bool} {s₀ : State} (j : Nat) (s : State) (hk : Keeps kb s₀ s) :
    Answers (execCoinGuardExpiry j s) (Keeps kb s₀) := by
  unfold execCoinGuardExpiry
  repeat' (first
    | with_reducible assumption
    | with_reducible refine Answers.next ?_
    | with_reducible first | refine State.modRtr_keeps (hk := ?_) .. | refine State.coinTimedOut_keeps (hk := ?_) ..
    | split
    | (with_reducible refine Keeps.lit ?_; dsimp only [State.kept]; with_reducible refine Keeps.unlit ?_)
    | dsimp only)

theorem execSealDeposit_keeps {kb : Bool} {s₀ : State} (src : Coord) (channel : Nat) (s : State) (hk : Keeps kb s₀ s) :
    Answers (execSealDeposit src channel s) (Keeps kb s₀) := by
  unfold execSealDeposit
  repeat' (first
    | with_reducible assumption
    | with_reducible refine Answers.next ?_
    | with_reducible refine Answers.ite ?_ ?_
    | with_reducible first | refine State.modRtr_keeps (hk := ?_) .. | refine State.coinApply_keeps (hk := ?_) ..
    | split
    | (with_reducible refine Keeps.lit ?_; dsimp only [State.kept]; with_reducible refine Keeps.unlit ?_)
    | dsimp only)

end Sys2Proof.Machine
end

