-- ==== Sys2Proof/Laws/KeepsStep.lean ====
section
/-!
SUPPORT. `Keeps` of every operation on the state, part: decisions, collectives, links and packets.
-/
set_option autoImplicit false
set_option linter.unusedVariables false
namespace Sys2Proof.Machine

theorem State.modCounts_keeps {kb : Bool} {s₀ : State} (s : State) (g : Nat) (f : GroupCounts → GroupCounts) (hk : Keeps kb s₀ s) :
    Keeps kb s₀ (State.modCounts s g f) := by
  unfold State.modCounts
  repeat' (first
    | with_reducible assumption
    | with_reducible refine State.modSet_keeps (hk := ?_) ..
    | split
    | (with_reducible refine Keeps.lit ?_; dsimp only [State.kept]; with_reducible refine Keeps.unlit ?_))

theorem State.modGuard_keeps {kb : Bool} {s₀ : State} (s : State) (g : Nat) (f : GroupGuard → GroupGuard) (hk : Keeps kb s₀ s) :
    Keeps kb s₀ (State.modGuard s g f) := by
  unfold State.modGuard
  repeat' (first
    | with_reducible assumption
    | with_reducible refine State.modSet_keeps (hk := ?_) ..
    | split
    | (with_reducible refine Keeps.lit ?_; dsimp only [State.kept]; with_reducible refine Keeps.unlit ?_))

theorem State.setPresent_keeps {s₀ : State} (s : State) (r : Row) (i : Nat) (b : Bool) (hk : Keeps false s₀ s) :
    Keeps false s₀ (State.setPresent s r i b) := by
  unfold State.setPresent
  repeat' (first
    | with_reducible assumption
    | with_reducible refine State.writeMem_keeps (hk := ?_) ..
    | dsimp only)

theorem State.setShare_keeps {kb : Bool} {s₀ : State} (s : State) (g i : Nat) (n : BlockShare) (hk : Keeps kb s₀ s) :
    Keeps kb s₀ (State.setShare s g i n) := by
  unfold State.setShare
  repeat' (first
    | with_reducible assumption
    | with_reducible first | refine State.modSet_keeps (hk := ?_) .. | refine State.modGuard_keeps (hk := ?_) ..
    | split
    | (with_reducible refine Keeps.lit ?_; dsimp only [State.kept]; with_reducible refine Keeps.unlit ?_)
    | dsimp only)

theorem State.dropShare_keeps {kb : Bool} {s₀ : State} (s : State) (g i : Nat) (hk : Keeps kb s₀ s) :
    Keeps kb s₀ (State.dropShare s g i) := by
  unfold State.dropShare
  repeat' (first
    | with_reducible assumption
    | with_reducible refine State.setShare_keeps (hk := ?_) ..
    | with_reducible refine Keeps.ite ?_ ?_)

theorem State.dropLanding_keeps {kb : Bool} {s₀ : State} (s : State) (l : Land) (cause : Nat) (hk : Keeps kb s₀ s) :
    Keeps kb s₀ (State.dropLanding s l cause) := by
  unfold State.dropLanding
  repeat' (first
    | with_reducible assumption
    | with_reducible first | refine State.modSet_keeps (hk := ?_) .. | refine State.log_keeps (hk := ?_) .. | refine State.modCounts_keeps (hk := ?_) ..
    | with_reducible refine Keeps.ite ?_ ?_
    | split
    | (with_reducible refine Keeps.lit ?_; dsimp only [State.kept]; with_reducible refine Keeps.unlit ?_)
    | dsimp only)

theorem State.applyLanding_keeps {s₀ : State} (s : State) (l : Land) (hk : Keeps false s₀ s) :
    Keeps false s₀ (State.applyLanding s l) := by
  unfold State.applyLanding
  repeat' (first
    | with_reducible assumption
    | with_reducible first | refine State.modSet_keeps (hk := ?_) .. | refine State.writeMem_keeps (hk := ?_) .. | refine State.setPresent_keeps (hk := ?_) .. | refine State.setShare_keeps (hk := ?_) .. | refine State.dropShare_keeps (hk := ?_) ..
    | split
    | (with_reducible refine Keeps.lit ?_; dsimp only [State.kept]; with_reducible refine Keeps.unlit ?_)
    | dsimp only)

theorem State.land_keeps {s₀ : State} (s : State) (l : Land) (hk : Keeps false s₀ s) :
    Keeps false s₀ (State.land s l) := by
  unfold State.land
  repeat' (first
    | with_reducible assumption
    | with_reducible first | refine State.modSet_keeps (hk := ?_) .. | refine State.dropLanding_keeps (hk := ?_) .. | refine State.applyLanding_keeps (hk := ?_) ..
    | with_reducible refine Keeps.ite ?_ ?_
    | split
    | (with_reducible refine Keeps.lit ?_; dsimp only [State.kept]; with_reducible refine Keeps.unlit ?_))

theorem State.releaseLands_keeps {s₀ : State} (s : State) (hk : Keeps false s₀ s) :
    Keeps false s₀ (State.releaseLands s) := by
  unfold State.releaseLands
  repeat' (first
    | with_reducible assumption
    | with_reducible first | refine State.modSet_keeps (hk := ?_) .. | refine State.freeKept_keeps (hk := ?_) .. | refine State.land_keeps (hk := ?_) ..
    | with_reducible refine Keeps.foldl (fun _ _ _ => ?_) ?_
    | split
    | (with_reducible refine Keeps.lit ?_; dsimp only [State.kept]; with_reducible refine Keeps.unlit ?_)
    | dsimp only)

theorem State.judgeDormant_keeps {kb : Bool} {s₀ : State} (s : State) (g : Nat) (live : Bool) (hk : Keeps kb s₀ s) :
    Keeps kb s₀ (State.judgeDormant s g live) := by
  unfold State.judgeDormant
  repeat' (first
    | with_reducible assumption
    | with_reducible first | refine State.modDec_keeps (hk := ?_) .. | refine State.log_keeps (hk := ?_) .. | refine State.modGuard_keeps (hk := ?_) ..
    | with_reducible refine Keeps.ite ?_ ?_
    | split
    | (with_reducible refine Keeps.lit ?_; dsimp only [State.kept]; with_reducible refine Keeps.unlit ?_)
    | dsimp only)

theorem State.lossSample_keeps {kb : Bool} {s₀ : State} (s : State) (hk : Keeps kb s₀ s) :
    Keeps kb s₀ (State.lossSample s) := by
  unfold State.lossSample
  repeat' (first
    | with_reducible assumption
    | with_reducible first | refine State.modSet_keeps (hk := ?_) .. | refine State.modDec_keeps (hk := ?_) .. | refine State.log_keeps (hk := ?_) ..
    | with_reducible refine Keeps.ite ?_ ?_
    | split
    | (with_reducible refine Keeps.lit ?_; dsimp only [State.kept]; with_reducible refine Keeps.unlit ?_)
    | dsimp only)

theorem State.guardsAtContribution_keeps {kb : Bool} {s₀ : State} (s : State) (hk : Keeps kb s₀ s) :
    Keeps kb s₀ (State.guardsAtContribution s) := by
  unfold State.guardsAtContribution
  repeat' (first
    | with_reducible assumption
    | with_reducible refine State.modGuard_keeps (hk := ?_) ..
    | with_reducible refine Keeps.foldl (fun _ _ _ => ?_) ?_
    | split
    | (with_reducible refine Keeps.lit ?_; dsimp only [State.kept]; with_reducible refine Keeps.unlit ?_))

theorem State.dropShares_keeps {kb : Bool} {s₀ : State} (s : State) (hk : Keeps kb s₀ s) :
    Keeps kb s₀ (State.dropShares s) := by
  unfold State.dropShares
  repeat' (first
    | with_reducible assumption
    | with_reducible refine State.dropShare_keeps (hk := ?_) ..
    | with_reducible refine Keeps.foldl (fun _ _ _ => ?_) ?_
    | split)

theorem State.contribute_keeps {kb : Bool} {s₀ : State} (s : State) (hk : Keeps kb s₀ s) :
    Keeps kb s₀ (State.contribute s) := by
  unfold State.contribute
  repeat' (first
    | with_reducible assumption
    | with_reducible first | refine State.modSet_keeps (hk := ?_) .. | refine State.modDec_keeps (hk := ?_) .. | refine State.modCounts_keeps (hk := ?_) .. | refine State.judgeDormant_keeps (hk := ?_) .. | refine State.lossSample_keeps (hk := ?_) .. | refine State.guardsAtContribution_keeps (hk := ?_) .. | refine State.dropShares_keeps (hk := ?_) ..
    | with_reducible refine Keeps.foldl (fun _ _ _ => ?_) ?_
    | split
    | (with_reducible refine Keeps.lit ?_; dsimp only [State.kept]; with_reducible refine Keeps.unlit ?_)
    | dsimp only)

theorem State.writeWc_keeps {s₀ : State} (s : State) (r : Row) (i : Nat) (c : List Nat × Nat × Nat) (pois : Bool) (hk : Keeps false s₀ s) :
    Keeps false s₀ (State.writeWc s r i c pois) := by
  unfold State.writeWc
  repeat' (first
    | with_reducible assumption
    | with_reducible refine State.writeMem_keeps (hk := ?_) ..
    | with_reducible refine Keeps.ite ?_ ?_
    | split
    | dsimp only)

theorem State.refreshBlock_keeps {s₀ : State} (s : State) (r : Row) (i : Nat) (hk : Keeps false s₀ s) :
    Keeps false s₀ (State.refreshBlock s r i) := by
  unfold State.refreshBlock
  repeat' (first
    | with_reducible assumption
    | with_reducible refine State.writeWc_keeps (hk := ?_) ..
    | split
    | dsimp only)

theorem State.settleBlock_keeps {s₀ : State} (s : State) (g : Nat) (r : Row) (k : StepConst) (step i : Nat) (absent : Bool) (hk : Keeps false s₀ s) :
    Keeps false s₀ (State.settleBlock s g r k step i absent).2 := by
  unfold State.settleBlock
  repeat' (first
    | with_reducible assumption
    | with_reducible first | refine State.writeMem_keeps (hk := ?_) .. | refine State.modGuard_keeps (hk := ?_) .. | refine State.setPresent_keeps (hk := ?_) .. | refine State.writeWc_keeps (hk := ?_) ..
    | with_reducible refine Keeps.ite ?_ ?_
    | with_reducible refine Keeps.ite2 ?_ ?_
    | split
    | (with_reducible refine Keeps.lit ?_; dsimp only [State.kept]; with_reducible refine Keeps.unlit ?_)
    | dsimp only)

theorem State.passGroup_keeps {s₀ : State} (s : State) (g : Nat) (k : StepConst) (step : Nat) (hk : Keeps false s₀ s) :
    Keeps false s₀ (State.passGroup s g k step).2.2 := by
  unfold State.passGroup
  repeat' (first
    | with_reducible assumption
    | with_reducible first | refine State.log_keeps (hk := ?_) .. | refine State.modCounts_keeps (hk := ?_) .. | refine State.settleBlock_keeps (hk := ?_) ..
    | with_reducible refine Keeps.foldl (fun _ _ _ => ?_) ?_
    | with_reducible refine Keeps.foldl2 (fun _ _ _ => ?_) ?_
    | split
    | dsimp only)

theorem State.clearTotals_keeps {kb : Bool} {s₀ : State} (s : State) (hk : Keeps kb s₀ s) :
    Keeps kb s₀ (State.clearTotals s) := by
  unfold State.clearTotals
  repeat' (first
    | with_reducible assumption
    | with_reducible refine State.modSet_keeps (hk := ?_) ..
    | split
    | (with_reducible refine Keeps.lit ?_; dsimp only [State.kept]; with_reducible refine Keeps.unlit ?_))

theorem State.clearPresence_keeps {s₀ : State} (s : State) (hk : Keeps false s₀ s) :
    Keeps false s₀ (State.clearPresence s) := by
  unfold State.clearPresence
  repeat' (first
    | with_reducible assumption
    | with_reducible refine State.setPresent_keeps (hk := ?_) ..
    | with_reducible refine Keeps.ite ?_ ?_
    | with_reducible refine Keeps.foldl (fun _ _ _ => ?_) ?_
    | split
    | dsimp only)

theorem State.failWalk_keeps {s₀ : State} (s : State) (hk : Keeps false s₀ s) :
    Keeps false s₀ (State.failWalk s) := by
  unfold State.failWalk
  repeat' (first
    | with_reducible assumption
    | with_reducible first | refine State.modSet_keeps (hk := ?_) .. | refine State.modCol_keeps (hk := ?_) .. | refine State.clearTotals_keeps (hk := ?_) .. | refine State.clearPresence_keeps (hk := ?_) ..
    | split
    | (with_reducible refine Keeps.lit ?_; dsimp only [State.kept]; with_reducible refine Keeps.unlit ?_))

theorem State.settlePass_keeps {s₀ : State} (s : State) (c : W32) (step : Nat) (hk : Keeps false s₀ s) :
    Keeps false s₀ (State.settlePass s c step) := by
  unfold State.settlePass
  repeat' (first
    | with_reducible assumption
    | with_reducible first | refine State.modDec_keeps (hk := ?_) .. | refine State.passGroup_keeps (hk := ?_) ..
    | with_reducible refine Keeps.foldl3 (fun _ _ _ => ?_) ?_
    | split
    | (with_reducible refine Keeps.lit ?_; dsimp only [State.kept]; with_reducible refine Keeps.unlit ?_)
    | dsimp only)

theorem State.judgeStmt_keeps {s₀ : State} (s : State) (st : Stmt) (hk : Keeps false s₀ s) :
    Keeps false s₀ (State.judgeStmt s st) := by
  unfold State.judgeStmt
  repeat' (first
    | with_reducible assumption
    | with_reducible first | refine State.modSet_keeps (hk := ?_) .. | refine State.modDec_keeps (hk := ?_) .. | refine State.modCol_keeps (hk := ?_) .. | refine State.total_keeps (hk := ?_) .. | refine State.log_keeps (hk := ?_) .. | refine State.clearTotals_keeps (hk := ?_) .. | refine State.clearPresence_keeps (hk := ?_) .. | refine State.settlePass_keeps (hk := ?_) ..
    | with_reducible refine Keeps.ite ?_ ?_
    | split
    | (with_reducible refine Keeps.lit ?_; dsimp only [State.kept]; with_reducible refine Keeps.unlit ?_)
    | dsimp only)

theorem State.stepPosted_keeps {kb : Bool} {s₀ : State} (s : State) (hk : Keeps kb s₀ s) :
    Keeps kb s₀ (State.stepPosted s) := by
  unfold State.stepPosted
  repeat' (first
    | with_reducible assumption
    | with_reducible refine State.modDec_keeps (hk := ?_) ..
    | split
    | (with_reducible refine Keeps.lit ?_; dsimp only [State.kept]; with_reducible refine Keeps.unlit ?_))

theorem State.endWalk_keeps {s₀ : State} (s : State) (hk : Keeps false s₀ s) :
    Keeps false s₀ (State.endWalk s) := by
  unfold State.endWalk
  repeat' (first
    | with_reducible assumption
    | with_reducible first | refine State.modSet_keeps (hk := ?_) .. | refine State.releaseLands_keeps (hk := ?_) ..
    | with_reducible refine Keeps.ite ?_ ?_
    | split
    | (with_reducible refine Keeps.lit ?_; dsimp only [State.kept]; with_reducible refine Keeps.unlit ?_)
    | dsimp only)

theorem State.cfgEnds_keeps {s₀ : State} (s : State) (hk : Keeps false s₀ s) :
    Keeps false s₀ (State.cfgEnds s) := by
  unfold State.cfgEnds
  repeat' (first
    | with_reducible assumption
    | with_reducible first | refine State.modSet_keeps (hk := ?_) .. | refine State.releaseLands_keeps (hk := ?_) ..
    | with_reducible refine Keeps.ite ?_ ?_
    | split
    | (with_reducible refine Keeps.lit ?_; dsimp only [State.kept]; with_reducible refine Keeps.unlit ?_))

theorem State.streamLaunch_keeps {kb : Bool} {s₀ : State} (s : State) (n : Nat) (p : Packet) (hk : Keeps kb s₀ s) :
    Keeps kb s₀ (State.streamLaunch s n p).2 := by
  unfold State.streamLaunch
  repeat' (first
    | with_reducible assumption
    | with_reducible first | refine State.fenced_keeps (hk := ?_) .. | refine State.dropNoPort_keeps (hk := ?_) .. | refine State.moved_keeps (hk := ?_) .. | refine State.enqueue_keeps (hk := ?_) ..
    | with_reducible refine Keeps.ite2 ?_ ?_
    | dsimp only)

theorem State.streamSend_keeps {kb : Bool} {s₀ : State} (s : State) (n : Nat) (p : Packet) (hk : Keeps kb s₀ s) :
    Keeps kb s₀ (State.streamSend s n p).2 := by
  unfold State.streamSend
  repeat' (first
    | with_reducible assumption
    | with_reducible first | refine State.modRtr_keeps (hk := ?_) .. | refine State.streamLaunch_keeps (hk := ?_) ..
    | with_reducible refine Keeps.ite2 ?_ ?_
    | split
    | (with_reducible refine Keeps.lit ?_; dsimp only [State.kept]; with_reducible refine Keeps.unlit ?_)
    | dsimp only)

theorem State.stmtFail_keeps {s₀ : State} (s : State) (st : Status) (hk : Keeps false s₀ s) :
    Keeps false s₀ (State.stmtFail s st) := by
  unfold State.stmtFail
  repeat' (first
    | with_reducible assumption
    | with_reducible first | refine State.modDec_keeps (hk := ?_) .. | refine State.log_keeps (hk := ?_) .. | refine State.failWalk_keeps (hk := ?_) ..
    | split
    | (with_reducible refine Keeps.lit ?_; dsimp only [State.kept]; with_reducible refine Keeps.unlit ?_)
    | dsimp only)

theorem State.stmtFinal_keeps {s₀ : State} (s : State) (bs : List Byte) (hk : Keeps false s₀ s) :
    Keeps false s₀ (State.stmtFinal s bs) := by
  unfold State.stmtFinal
  repeat' (first
    | with_reducible assumption
    | with_reducible first | refine State.modDec_keeps (hk := ?_) .. | refine State.judgeStmt_keeps (hk := ?_) .. | refine State.streamSend_keeps (hk := ?_) ..
    | with_reducible refine Keeps.foldl (fun _ _ _ => ?_) ?_
    | split
    | (with_reducible refine Keeps.lit ?_; dsimp only [State.kept]; with_reducible refine Keeps.unlit ?_)
    | dsimp only)

theorem State.stmtAdvance_keeps {s₀ : State} (s : State) (hk : Keeps false s₀ s) :
    Keeps false s₀ (State.stmtAdvance s) := by
  unfold State.stmtAdvance
  repeat' (first
    | with_reducible assumption
    | with_reducible first | refine State.modDec_keeps (hk := ?_) .. | refine State.streamSend_keeps (hk := ?_) .. | refine State.stmtFail_keeps (hk := ?_) .. | refine State.stmtFinal_keeps (hk := ?_) ..
    | with_reducible refine Keeps.ite ?_ ?_
    | with_reducible refine Keeps.pair (by assumption) ?_
    | split
    | (with_reducible refine Keeps.lit ?_; dsimp only [State.kept]; with_reducible refine Keeps.unlit ?_)
    | dsimp only)

theorem State.stmtStart_keeps {s₀ : State} (s : State) (hk : Keeps false s₀ s) :
    Keeps false s₀ (State.stmtStart s) := by
  unfold State.stmtStart
  repeat' (first
    | with_reducible assumption
    | with_reducible first | refine State.judgeStmt_keeps (hk := ?_) .. | refine State.stmtFail_keeps (hk := ?_) .. | refine State.stmtAdvance_keeps (hk := ?_) ..
    | with_reducible refine Keeps.ite ?_ ?_
    | split)

theorem State.pointFinal_keeps {kb : Bool} {s₀ : State} (s : State) (n : Nat) (pending : Bool) (hk : Keeps kb s₀ s) :
    Keeps kb s₀ (State.pointFinal s n pending) := by
  unfold State.pointFinal
  repeat' (first
    | with_reducible assumption
    | with_reducible first | refine State.modCol_keeps (hk := ?_) .. | refine State.streamSend_keeps (hk := ?_) ..
    | with_reducible refine Keeps.foldl (fun _ _ _ => ?_) ?_
    | split
    | (with_reducible refine Keeps.lit ?_; dsimp only [State.kept]; with_reducible refine Keeps.unlit ?_)
    | dsimp only)

theorem State.pointAdvance_keeps {kb : Bool} {s₀ : State} (s : State) (hk : Keeps kb s₀ s) :
    Keeps kb s₀ (State.pointAdvance s) := by
  unfold State.pointAdvance
  repeat' (first
    | with_reducible assumption
    | with_reducible first | refine State.modCol_keeps (hk := ?_) .. | refine State.streamSend_keeps (hk := ?_) .. | refine State.pointFinal_keeps (hk := ?_) ..
    | with_reducible refine Keeps.ite ?_ ?_
    | split
    | (with_reducible refine Keeps.lit ?_; dsimp only [State.kept]; with_reducible refine Keeps.unlit ?_)
    | dsimp only)

theorem State.storeUnit_keeps {s₀ : State} (s : State) (e : List Byte) (slot k : Nat) (u : WorkUnit) (hk : Keeps false s₀ s) :
    Keeps false s₀ (State.storeUnit s e slot k u) := by
  unfold State.storeUnit
  repeat' (first
    | with_reducible assumption
    | with_reducible refine State.writeMem_keeps (hk := ?_) ..
    | with_reducible refine Keeps.ite ?_ ?_
    | split
    | dsimp only)

theorem State.modRun_keeps {kb : Bool} {s₀ : State} (s : State) (i : Nat) (f : RunEntry → RunEntry) (hk : Keeps kb s₀ s) :
    Keeps kb s₀ (State.modRun s i f) := by
  unfold State.modRun
  repeat' (first
    | with_reducible assumption
    | with_reducible refine State.modCol_keeps (hk := ?_) ..
    | split
    | (with_reducible refine Keeps.lit ?_; dsimp only [State.kept]; with_reducible refine Keeps.unlit ?_))

theorem State.entryEnd_keeps {kb : Bool} {s₀ : State} (s : State) (i : Nat) (st : Status) (hk : Keeps kb s₀ s) :
    Keeps kb s₀ (State.entryEnd s i st) := by
  unfold State.entryEnd
  repeat' (first
    | with_reducible assumption
    | with_reducible first | refine State.modCol_keeps (hk := ?_) .. | refine State.collectiveCoin_keeps (hk := ?_) ..
    | with_reducible refine Keeps.ite ?_ ?_
    | split
    | (with_reducible refine Keeps.lit ?_; dsimp only [State.kept]; with_reducible refine Keeps.unlit ?_)
    | dsimp only)

theorem State.segSend_keeps {kb : Bool} {s₀ : State} (s : State) (i port : Nat) (p : Packet) (hk : Keeps kb s₀ s) :
    Keeps kb s₀ (State.segSend s i port p) := by
  unfold State.segSend
  repeat' (first
    | with_reducible assumption
    | with_reducible first | refine State.streamSend_keeps (hk := ?_) .. | refine State.entryEnd_keeps (hk := ?_) ..
    | with_reducible refine Keeps.ite ?_ ?_
    | with_reducible refine Keeps.pair (by assumption) ?_
    | split)

theorem State.sendUnits_keeps {kb : Bool} {s₀ : State} (s : State) (e : List Byte) (x : RunEntry) (reduce : Bool) (a : Nat) (plus : Bool) (us : List ((Nat × Nat) × WorkUnit)) (hk : Keeps kb s₀ s) :
    Keeps kb s₀ (State.sendUnits s e x reduce a plus us) := by
  unfold State.sendUnits
  repeat' (first
    | with_reducible assumption
    | with_reducible refine State.segSend_keeps (hk := ?_) ..
    | with_reducible refine Keeps.foldl (fun _ _ _ => ?_) ?_
    | split
    | (with_reducible refine Keeps.lit ?_; dsimp only [State.kept]; with_reducible refine Keeps.unlit ?_)
    | dsimp only)

theorem State.landUnit_keeps {s₀ : State} (s : State) (e : List Byte) (micro k : Nat) (u : WorkUnit) (hk : Keeps false s₀ s) :
    Keeps false s₀ (State.landUnit s e micro k u) := by
  unfold State.landUnit
  repeat' (first
    | with_reducible assumption
    | with_reducible refine State.land_keeps (hk := ?_) ..)

theorem State.stageSends_keeps {kb : Bool} {s₀ : State} (s : State) (e : List Byte) (x : RunEntry) (reduce : Bool) (a : Nat) (hk : Keeps kb s₀ s) :
    Keeps kb s₀ (State.stageSends s e x reduce a) := by
  unfold State.stageSends
  repeat' (first
    | with_reducible assumption
    | with_reducible refine State.sendUnits_keeps (hk := ?_) ..
    | with_reducible refine Keeps.ite ?_ ?_
    | split
    | dsimp only)

theorem State.storeChunk_keeps {s₀ : State} (s : State) (x : RunEntry) (e : List Byte) (n own : Nat) (hk : Keeps false s₀ s) :
    Keeps false s₀ (State.storeChunk s x e n own) := by
  unfold State.storeChunk
  repeat' (first
    | with_reducible assumption
    | with_reducible first | refine State.storeUnit_keeps (hk := ?_) .. | refine State.landUnit_keeps (hk := ?_) ..
    | with_reducible refine Keeps.ite ?_ ?_
    | with_reducible refine Keeps.foldl (fun _ _ _ => ?_) ?_
    | split)

theorem State.nextStage_keeps {s₀ : State} (s : State) (i : Nat) (arr0 : Nat) (hk : Keeps false s₀ s) : Keeps false s₀ (s.nextStage i arr0) := by
  induction arr0 generalizing s with
  | zero => exact hk
  | succ fuel ih =>
    unfold State.nextStage
    repeat' (first
      | with_reducible assumption
      | with_reducible first | refine State.modRun_keeps (hk := ?_) .. | refine State.stageSends_keeps (hk := ?_) .. | refine State.storeChunk_keeps (hk := ?_) .. | refine ih _ ?_
      | with_reducible refine Keeps.ite ?_ ?_
      | dsimp only
      | split)

theorem State.applyUnits_keeps {s₀ : State} (s : State) (i : Nat) (e : List Byte) (reduce : Bool) (a : Nat) (us : List (Nat × Option WorkUnit)) (hk : Keeps false s₀ s) :
    Keeps false s₀ (State.applyUnits s i e reduce a us) := by
  unfold State.applyUnits
  repeat' (first
    | with_reducible assumption
    | with_reducible first | refine State.modCol_keeps (hk := ?_) .. | refine State.storeUnit_keeps (hk := ?_) .. | refine State.modRun_keeps (hk := ?_) .. | refine State.sendUnits_keeps (hk := ?_) .. | refine State.landUnit_keeps (hk := ?_) ..
    | with_reducible refine Keeps.ite ?_ ?_
    | with_reducible refine Keeps.foldl (fun _ _ _ => ?_) ?_
    | split
    | (with_reducible refine Keeps.lit ?_; dsimp only [State.kept]; with_reducible refine Keeps.unlit ?_)
    | dsimp only)

theorem State.takeSegment_keeps {s₀ : State} (s : State) (p : Packet) (i : Nat) (e : List Byte) (x : RunEntry) (hk : Keeps false s₀ s) :
    Keeps false s₀ (State.takeSegment s p i e x) := by
  unfold State.takeSegment
  repeat' (first
    | with_reducible assumption
    | with_reducible first | refine State.storeUnit_keeps (hk := ?_) .. | refine State.modRun_keeps (hk := ?_) .. | refine State.nextStage_keeps (hk := ?_) .. | refine State.applyUnits_keeps (hk := ?_) ..
    | with_reducible refine Keeps.ite ?_ ?_
    | with_reducible refine Keeps.foldl (fun _ _ _ => ?_) ?_
    | split
    | (with_reducible refine Keeps.lit ?_; dsimp only [State.kept]; with_reducible refine Keeps.unlit ?_)
    | dsimp only)

theorem State.segmentOne_keeps {s₀ : State} (s : State) (p : Packet) (hk : Keeps false s₀ s) :
    Keeps false s₀ (State.segmentOne s p) := by
  unfold State.segmentOne
  repeat' (first
    | with_reducible assumption
    | with_reducible first | refine State.modCol_keeps (hk := ?_) .. | refine State.modRtr_keeps (hk := ?_) .. | refine State.takeSegment_keeps (hk := ?_) ..
    | with_reducible refine Keeps.ite ?_ ?_
    | split
    | (with_reducible refine Keeps.lit ?_; dsimp only [State.kept]; with_reducible refine Keeps.unlit ?_)
    | dsimp only)

theorem State.offerSegs_keeps {s₀ : State} (s : State) (arr0 : Nat) (hk : Keeps false s₀ s) : Keeps false s₀ (s.offerSegs arr0) := by
  induction arr0 generalizing s with
  | zero => exact hk
  | succ fuel ih =>
    unfold State.offerSegs
    have h := Keeps.foldl (f := fun (s : State) p => s.segmentOne p) (l := s.col.heldSegs) (fun t p h => State.segmentOne_keeps t p h)
      (State.modCol_keeps s (fun c => { c with heldSegs := [] }) hk)
    dsimp only
    split
    · exact h
    · exact ih _ h

theorem State.releaseSegs_keeps {s₀ : State} (s : State) (hk : Keeps false s₀ s) :
    Keeps false s₀ (State.releaseSegs s) := by
  unfold State.releaseSegs
  repeat' (first
    | with_reducible assumption
    | with_reducible first | refine State.freeKept_keeps (hk := ?_) .. | refine State.offerSegs_keeps (hk := ?_) ..)

theorem State.segment_keeps {s₀ : State} (s : State) (p : Packet) (hk : Keeps false s₀ s) :
    Keeps false s₀ (State.segment s p) := by
  unfold State.segment
  repeat' (first
    | with_reducible assumption
    | with_reducible first | refine State.segmentOne_keeps (hk := ?_) .. | refine State.releaseSegs_keeps (hk := ?_) ..)

theorem State.entryRun_keeps {s₀ : State} (s : State) (i micro : Nat) (last : Bool) (e : List Byte) (hk : Keeps false s₀ s) :
    Keeps false s₀ (State.entryRun s i micro last e) := by
  unfold State.entryRun
  repeat' (first
    | with_reducible assumption
    | with_reducible first | refine State.modCol_keeps (hk := ?_) .. | refine State.inject_keeps (hk := ?_) .. | refine State.storeUnit_keeps (hk := ?_) .. | refine State.entryEnd_keeps (hk := ?_) .. | refine State.nextStage_keeps (hk := ?_) .. | refine State.releaseSegs_keeps (hk := ?_) ..
    | with_reducible refine Keeps.ite ?_ ?_
    | with_reducible refine Keeps.foldl (fun _ _ _ => ?_) ?_
    | with_reducible refine Keeps.pair (by assumption) ?_
    | split
    | (with_reducible refine Keeps.lit ?_; dsimp only [State.kept]; with_reducible refine Keeps.unlit ?_)
    | dsimp only)

theorem State.gradStageEnd_keeps {s₀ : State} (s : State) (i : Nat) (e : List Byte) (x : RunEntry) (hk : Keeps false s₀ s) :
    Keeps false s₀ (State.gradStageEnd s i e x) := by
  unfold State.gradStageEnd
  repeat' (first
    | with_reducible assumption
    | with_reducible first | refine State.sendUnits_keeps (hk := ?_) .. | refine State.nextStage_keeps (hk := ?_) .. | refine State.releaseSegs_keeps (hk := ?_) ..
    | with_reducible refine Keeps.ite ?_ ?_
    | split
    | dsimp only)

theorem State.microEnd_keeps {s₀ : State} (s : State) (hk : Keeps false s₀ s) :
    Keeps false s₀ (State.microEnd s) := by
  unfold State.microEnd
  repeat' (first
    | with_reducible assumption
    | with_reducible first | refine State.modSet_keeps (hk := ?_) .. | refine State.releaseLands_keeps (hk := ?_) ..
    | with_reducible refine Keeps.ite ?_ ?_
    | split
    | (with_reducible refine Keeps.lit ?_; dsimp only [State.kept]; with_reducible refine Keeps.unlit ?_)
    | dsimp only)

theorem State.failEntries_keeps {kb : Bool} {s₀ : State} (s : State) (a : Nat) (hk : Keeps kb s₀ s) :
    Keeps kb s₀ (State.failEntries s a) := by
  unfold State.failEntries
  repeat' (first
    | with_reducible assumption
    | with_reducible first | refine State.modCol_keeps (hk := ?_) .. | refine State.freeKept_keeps (hk := ?_) .. | refine State.entryEnd_keeps (hk := ?_) ..
    | with_reducible refine Keeps.foldl (fun _ _ _ => ?_) ?_
    | split
    | (with_reducible refine Keeps.lit ?_; dsimp only [State.kept]; with_reducible refine Keeps.unlit ?_)
    | dsimp only)

theorem State.sendIdentity_keeps {kb : Bool} {s₀ : State} (s : State) (n : Nat) (hk : Keeps kb s₀ s) :
    Keeps kb s₀ (State.sendIdentity s n) := by
  unfold State.sendIdentity
  repeat' (first
    | with_reducible assumption
    | with_reducible refine State.sendLocal_keeps (hk := ?_) ..
    | with_reducible refine Keeps.ite ?_ ?_)

theorem State.holdover_keeps {kb : Bool} {s₀ : State} (s : State) (n : Nat) (hk : Keeps kb s₀ s) :
    Keeps kb s₀ (State.holdover s n) := by
  unfold State.holdover
  repeat' (first
    | with_reducible assumption
    | with_reducible first | refine State.modTime_keeps (hk := ?_) .. | refine State.slewAt_keeps (hk := ?_) .. | refine State.log_keeps (hk := ?_) ..
    | split
    | (with_reducible refine Keeps.lit ?_; dsimp only [State.kept]; with_reducible refine Keeps.unlit ?_))

theorem State.placeTime_keeps {kb : Bool} {s₀ : State} (s : State) (hk : Keeps kb s₀ s) :
    Keeps kb s₀ (State.placeTime s) := by
  unfold State.placeTime
  repeat' (first
    | with_reducible assumption
    | with_reducible refine State.modTime_keeps (hk := ?_) ..
    | with_reducible refine Keeps.ite ?_ ?_
    | split
    | (with_reducible refine Keeps.lit ?_; dsimp only [State.kept]; with_reducible refine Keeps.unlit ?_))

theorem State.timeLost_keeps {kb : Bool} {s₀ : State} (s : State) (n : Nat) (hk : Keeps kb s₀ s) :
    Keeps kb s₀ (State.timeLost s n) := by
  unfold State.timeLost
  repeat' (first
    | with_reducible assumption
    | with_reducible first | refine State.modTime_keeps (hk := ?_) .. | refine State.holdover_keeps (hk := ?_) ..
    | with_reducible refine Keeps.ite ?_ ?_
    | split
    | (with_reducible refine Keeps.lit ?_; dsimp only [State.kept]; with_reducible refine Keeps.unlit ?_)
    | dsimp only)

theorem State.timeFound_keeps {kb : Bool} {s₀ : State} (s : State) (n : Nat) (hk : Keeps kb s₀ s) :
    Keeps kb s₀ (State.timeFound s n) := by
  unfold State.timeFound
  repeat' (first
    | with_reducible assumption
    | with_reducible refine State.modTime_keeps (hk := ?_) ..
    | with_reducible refine Keeps.ite ?_ ?_
    | split
    | (with_reducible refine Keeps.lit ?_; dsimp only [State.kept]; with_reducible refine Keeps.unlit ?_))

theorem State.setTime_keeps {kb : Bool} {s₀ : State} (s : State) (step : Int) (hk : Keeps kb s₀ s) :
    Keeps kb s₀ (State.setTime s step) := by
  unfold State.setTime
  repeat' (first
    | with_reducible assumption
    | with_reducible first | refine State.modTime_keeps (hk := ?_) .. | refine State.log_keeps (hk := ?_) ..
    | split
    | (with_reducible refine Keeps.lit ?_; dsimp only [State.kept]; with_reducible refine Keeps.unlit ?_))

theorem State.timeSettles_keeps {kb : Bool} {s₀ : State} (s : State) (hk : Keeps kb s₀ s) :
    Keeps kb s₀ (State.timeSettles s) := by
  unfold State.timeSettles
  repeat' (first
    | with_reducible assumption
    | with_reducible refine State.setTime_keeps (hk := ?_) ..
    | with_reducible refine Keeps.ite ?_ ?_
    | split)

theorem State.sendNotice_keeps {kb : Bool} {s₀ : State} (s : State) (payload : List Byte) (hk : Keeps kb s₀ s) :
    Keeps kb s₀ (State.sendNotice s payload) := by
  unfold State.sendNotice
  repeat' (first
    | with_reducible assumption
    | with_reducible refine State.sendLocal_keeps (hk := ?_) ..
    | with_reducible refine Keeps.foldl (fun _ _ _ => ?_) ?_
    | split)

theorem State.degrade_keeps {s₀ : State} (s : State) (axis : Nat) (hk : Keeps false s₀ s) :
    Keeps false s₀ (State.degrade s axis) := by
  unfold State.degrade
  repeat' (first
    | with_reducible assumption
    | with_reducible first | refine State.modDec_keeps (hk := ?_) .. | refine State.modSlice_keeps (hk := ?_) .. | refine State.stmtFail_keeps (hk := ?_) .. | refine State.failEntries_keeps (hk := ?_) ..
    | with_reducible refine Keeps.ite ?_ ?_
    | split
    | (with_reducible refine Keeps.lit ?_; dsimp only [State.kept]; with_reducible refine Keeps.unlit ?_)
    | dsimp only)

theorem State.sliceLinkLost_keeps {s₀ : State} (s : State) (n : Nat) (hk : Keeps false s₀ s) :
    Keeps false s₀ (State.sliceLinkLost s n) := by
  unfold State.sliceLinkLost
  repeat' (first
    | with_reducible assumption
    | with_reducible first | refine State.modSlice_keeps (hk := ?_) .. | refine State.sendNotice_keeps (hk := ?_) .. | refine State.degrade_keeps (hk := ?_) ..
    | with_reducible refine Keeps.ite ?_ ?_
    | split
    | (with_reducible refine Keeps.lit ?_; dsimp only [State.kept]; with_reducible refine Keeps.unlit ?_)
    | dsimp only)

theorem State.dropQueue_keeps {kb : Bool} {s₀ : State} (s : State) (n : Nat) (linkStays : Bool) (hk : Keeps kb s₀ s) :
    Keeps kb s₀ (State.dropQueue s n linkStays) := by
  unfold State.dropQueue
  repeat' (first
    | with_reducible assumption
    | with_reducible first | refine State.modLink_keeps (hk := ?_) .. | refine State.modRtr_keeps (hk := ?_) .. | refine State.freeBuffer_keeps (hk := ?_) .. | refine State.dmasDrop_keeps (hk := ?_) ..
    | with_reducible refine Keeps.foldl (fun _ _ _ => ?_) ?_
    | split
    | (with_reducible refine Keeps.lit ?_; dsimp only [State.kept]; with_reducible refine Keeps.unlit ?_)
    | dsimp only)

theorem State.leftActive_keeps {s₀ : State} (s : State) (n : Nat) (hk : Keeps false s₀ s) :
    Keeps false s₀ (State.leftActive s n) := by
  unfold State.leftActive
  repeat' (first
    | with_reducible assumption
    | with_reducible first | refine State.timeLost_keeps (hk := ?_) .. | refine State.sliceLinkLost_keeps (hk := ?_) .. | refine State.dropQueue_keeps (hk := ?_) ..)

theorem State.setDisc_keeps {s₀ : State} (s : State) (n : Nat) (d : DState) (cause : Nat) (hk : Keeps false s₀ s) :
    Keeps false s₀ (State.setDisc s n d cause) := by
  unfold State.setDisc
  repeat' (first
    | with_reducible assumption
    | with_reducible first | refine State.modDisc_keeps (hk := ?_) .. | refine State.sendIdentity_keeps (hk := ?_) .. | refine State.leftActive_keeps (hk := ?_) ..
    | with_reducible refine Keeps.ite ?_ ?_
    | split
    | dsimp only)

theorem State.discEvent_keeps {kb : Bool} {s₀ : State} (s : State) (c : EventClass) (n cause : Nat) (b : List Byte) (hk : Keeps kb s₀ s) :
    Keeps kb s₀ (State.discEvent s c n cause b) := by
  unfold State.discEvent
  repeat' (first
    | with_reducible assumption
    | with_reducible refine State.log_keeps (hk := ?_) ..)

theorem State.identity_keeps {s₀ : State} (s : State) (n : Nat) (b : List Byte) (hk : Keeps false s₀ s) :
    Keeps false s₀ (State.identity s n b) := by
  unfold State.identity
  repeat' (first
    | with_reducible assumption
    | with_reducible first | refine State.modDisc_keeps (hk := ?_) .. | refine State.log_keeps (hk := ?_) .. | refine State.pump_keeps (hk := ?_) .. | refine State.timeFound_keeps (hk := ?_) .. | refine State.setDisc_keeps (hk := ?_) .. | refine State.discEvent_keeps (hk := ?_) ..
    | with_reducible refine Keeps.ite ?_ ?_
    | split
    | (with_reducible refine Keeps.lit ?_; dsimp only [State.kept]; with_reducible refine Keeps.unlit ?_)
    | dsimp only)

theorem State.reidentify_keeps {s₀ : State} (s : State) (n : Nat) (hk : Keeps false s₀ s) :
    Keeps false s₀ (State.reidentify s n) := by
  unfold State.reidentify
  repeat' (first
    | with_reducible assumption
    | with_reducible first | refine State.modDisc_keeps (hk := ?_) .. | refine State.sendIdentity_keeps (hk := ?_) .. | refine State.setDisc_keeps (hk := ?_) ..
    | split
    | (with_reducible refine Keeps.lit ?_; dsimp only [State.kept]; with_reducible refine Keeps.unlit ?_))

theorem State.leavePorts_keeps {s₀ : State} (s : State) (hk : Keeps false s₀ s) :
    Keeps false s₀ (State.leavePorts s) := by
  unfold State.leavePorts
  repeat' (first
    | with_reducible assumption
    | with_reducible first | refine State.modDisc_keeps (hk := ?_) .. | refine State.leftActive_keeps (hk := ?_) ..
    | with_reducible refine Keeps.foldl (fun _ _ _ => ?_) ?_
    | split
    | dsimp only)

theorem State.reidentifyAll_keeps {kb : Bool} {s₀ : State} (s : State) (hk : Keeps kb s₀ s) :
    Keeps kb s₀ (State.reidentifyAll s) := by
  unfold State.reidentifyAll
  repeat' (first
    | with_reducible assumption
    | with_reducible first | refine State.modDisc_keeps (hk := ?_) .. | refine State.sendIdentity_keeps (hk := ?_) ..
    | with_reducible refine Keeps.ite ?_ ?_
    | with_reducible refine Keeps.foldl (fun _ _ _ => ?_) ?_
    | split)

theorem State.forgetHeld_keeps {kb : Bool} {s₀ : State} (s : State) (n : Nat) (hk : Keeps kb s₀ s) :
    Keeps kb s₀ (State.forgetHeld s n) := by
  unfold State.forgetHeld
  repeat' (first
    | with_reducible assumption
    | with_reducible first | refine State.modLink_keeps (hk := ?_) .. | refine State.modRtr_keeps (hk := ?_) ..
    | with_reducible refine Keeps.ite ?_ ?_
    | with_reducible refine Keeps.foldl (fun _ _ _ => ?_) ?_
    | split
    | (with_reducible refine Keeps.lit ?_; dsimp only [State.kept]; with_reducible refine Keeps.unlit ?_)
    | dsimp only)

theorem State.linkFalls_keeps {kb : Bool} {s₀ : State} (s : State) (n : Nat) (st : LState) (hk : Keeps kb s₀ s) :
    Keeps kb s₀ (State.linkFalls s n st) := by
  unfold State.linkFalls
  repeat' (first
    | with_reducible assumption
    | with_reducible first | refine State.modLink_keeps (hk := ?_) .. | refine State.modRep_keeps (hk := ?_) .. | refine State.modDisc_keeps (hk := ?_) ..
    | split
    | (with_reducible refine Keeps.lit ?_; dsimp only [State.kept]; with_reducible refine Keeps.unlit ?_)
    | dsimp only)

theorem State.partnerGone_keeps {s₀ : State} (s : State) (n : Nat) (hk : Keeps false s₀ s) :
    Keeps false s₀ (State.partnerGone s n) := by
  unfold State.partnerGone
  repeat' (first
    | with_reducible assumption
    | with_reducible first | refine State.modDisc_keeps (hk := ?_) .. | refine State.log_keeps (hk := ?_) .. | refine State.leftActive_keeps (hk := ?_) ..
    | with_reducible refine Keeps.ite ?_ ?_
    | split
    | (with_reducible refine Keeps.lit ?_; dsimp only [State.kept]; with_reducible refine Keeps.unlit ?_)
    | dsimp only)

theorem State.linkFresh_keeps {kb : Bool} {s₀ : State} (s : State) (n : Nat) (hk : Keeps kb s₀ s) :
    Keeps kb s₀ (State.linkFresh s n) := by
  unfold State.linkFresh
  repeat' (first
    | with_reducible assumption
    | with_reducible first | refine State.modLink_keeps (hk := ?_) .. | refine State.dropQueue_keeps (hk := ?_) .. | refine State.forgetHeld_keeps (hk := ?_) ..)

theorem State.linkLeaves_keeps {s₀ : State} (s : State) (n : Nat) (st : LState) (hk : Keeps false s₀ s) :
    Keeps false s₀ (State.linkLeaves s n st) := by
  unfold State.linkLeaves
  repeat' (first
    | with_reducible assumption
    | with_reducible first | refine State.linkFalls_keeps (hk := ?_) .. | refine State.partnerGone_keeps (hk := ?_) .. | refine State.linkFresh_keeps (hk := ?_) ..
    | with_reducible refine Keeps.ite ?_ ?_
    | dsimp only)

theorem State.train_keeps {s₀ : State} (s : State) (n : Nat) (hk : Keeps false s₀ s) :
    Keeps false s₀ (State.train s n) := by
  unfold State.train
  repeat' (first
    | with_reducible assumption
    | with_reducible first | refine State.modLink_keeps (hk := ?_) .. | refine State.modDev_keeps (hk := ?_) .. | refine State.linkLeaves_keeps (hk := ?_) ..
    | split
    | (with_reducible refine Keeps.lit ?_; dsimp only [State.kept]; with_reducible refine Keeps.unlit ?_)
    | dsimp only)

theorem State.retrain_keeps {s₀ : State} (s : State) (n : Nat) (hk : Keeps false s₀ s) :
    Keeps false s₀ (State.retrain s n) := by
  unfold State.retrain
  repeat' (first
    | with_reducible assumption
    | with_reducible first | refine State.total_keeps (hk := ?_) .. | refine State.train_keeps (hk := ?_) ..
    | with_reducible refine Keeps.ite ?_ ?_)

theorem State.acked_keeps {kb : Bool} {s₀ : State} (s : State) (n : Nat) (ack : Option Nat) (hk : Keeps kb s₀ s) :
    Keeps kb s₀ (State.acked s n ack) := by
  unfold State.acked
  repeat' (first
    | with_reducible assumption
    | with_reducible first | refine State.modLink_keeps (hk := ?_) .. | refine State.pump_keeps (hk := ?_) .. | refine State.dmasDone_keeps (hk := ?_) ..
    | with_reducible refine Keeps.ite ?_ ?_
    | split
    | (with_reducible refine Keeps.lit ?_; dsimp only [State.kept]; with_reducible refine Keeps.unlit ?_)
    | dsimp only)

theorem State.replay_keeps {kb : Bool} {s₀ : State} (s : State) (n : Nat) (hk : Keeps kb s₀ s) :
    Keeps kb s₀ (State.replay s n) := by
  unfold State.replay
  repeat' (first
    | with_reducible assumption
    | with_reducible first | refine State.modLink_keeps (hk := ?_) .. | refine State.span_keeps (hk := ?_) .. | refine State.sendFrame_keeps (hk := ?_) ..
    | with_reducible refine Keeps.ite ?_ ?_
    | with_reducible refine Keeps.foldl (fun _ _ _ => ?_) ?_
    | split
    | (with_reducible refine Keeps.lit ?_; dsimp only [State.kept]; with_reducible refine Keeps.unlit ?_)
    | dsimp only)

theorem State.modLane_keeps {kb : Bool} {s₀ : State} (s : State) (n l : Nat) (f : Lane → Lane) (hk : Keeps kb s₀ s) :
    Keeps kb s₀ (State.modLane s n l f) := by
  unfold State.modLane
  repeat' (first
    | with_reducible assumption
    | with_reducible refine State.modRep_keeps (hk := ?_) ..
    | split
    | (with_reducible refine Keeps.lit ?_; dsimp only [State.kept]; with_reducible refine Keeps.unlit ?_))

theorem State.switchCw_keeps {kb : Bool} {s₀ : State} (s : State) (n ns : Nat) (hk : Keeps kb s₀ s) :
    Keeps kb s₀ (State.switchCw s n ns).2 := by
  unfold State.switchCw
  repeat' (first
    | with_reducible assumption
    | with_reducible refine State.fresh_keeps (hk := ?_) ..
    | split
    | dsimp only)

theorem State.degradeWidth_keeps {s₀ : State} (s : State) (n l : Nat) (hk : Keeps false s₀ s) :
    Keeps false s₀ (State.degradeWidth s n l) := by
  unfold State.degradeWidth
  repeat' (first
    | with_reducible assumption
    | with_reducible first | refine State.modRep_keeps (hk := ?_) .. | refine State.detect_keeps (hk := ?_) .. | refine State.closeWindow_keeps (hk := ?_) .. | refine State.sendCtl_keeps (hk := ?_) .. | refine State.retrain_keeps (hk := ?_) .. | refine State.switchCw_keeps (hk := ?_) ..
    | split
    | (with_reducible refine Keeps.lit ?_; dsimp only [State.kept]; with_reducible refine Keeps.unlit ?_)
    | dsimp only)

theorem State.laneFail_keeps {s₀ : State} (s : State) (n l cause : Nat) (hk : Keeps false s₀ s) :
    Keeps false s₀ (State.laneFail s n l cause) := by
  unfold State.laneFail
  repeat' (first
    | with_reducible assumption
    | with_reducible first | refine State.modRep_keeps (hk := ?_) .. | refine State.detect_keeps (hk := ?_) .. | refine State.closeWindow_keeps (hk := ?_) .. | refine State.sendCtl_keeps (hk := ?_) .. | refine State.modLane_keeps (hk := ?_) .. | refine State.degradeWidth_keeps (hk := ?_) ..
    | with_reducible refine Keeps.ite ?_ ?_
    | split
    | (with_reducible refine Keeps.lit ?_; dsimp only [State.kept]; with_reducible refine Keeps.unlit ?_)
    | dsimp only)

theorem State.deepExit_keeps {kb : Bool} {s₀ : State} (s : State) (hk : Keeps kb s₀ s) :
    Keeps kb s₀ (State.deepExit s) := by
  unfold State.deepExit
  repeat' (first
    | with_reducible assumption
    | with_reducible first | refine State.modPwr_keeps (hk := ?_) .. | refine State.reach_keeps (hk := ?_) ..
    | with_reducible refine Keeps.ite ?_ ?_
    | split
    | (with_reducible refine Keeps.lit ?_; dsimp only [State.kept]; with_reducible refine Keeps.unlit ?_)
    | dsimp only)

theorem State.readErr_keeps {kb : Bool} {s₀ : State} (s : State) (p : Packet) (cause : Nat) (hk : Keeps kb s₀ s) :
    Keeps kb s₀ (State.readErr s p cause) := by
  unfold State.readErr
  repeat' (first
    | with_reducible assumption
    | with_reducible first | refine State.launchAnswer_keeps (hk := ?_) .. | refine State.inject_keeps (hk := ?_) ..
    | with_reducible refine Keeps.ite ?_ ?_
    | dsimp only)

theorem State.answerDrop_keeps {kb : Bool} {s₀ : State} (s : State) (p : Packet) (cause : Nat) (hk : Keeps kb s₀ s) :
    Keeps kb s₀ (State.answerDrop s p cause) := by
  unfold State.answerDrop
  repeat' (first
    | with_reducible assumption
    | with_reducible refine State.readErr_keeps (hk := ?_) ..
    | with_reducible refine Keeps.ite ?_ ?_)

theorem State.routeIn_keeps {kb : Bool} {s₀ : State} (s : State) (n vc : Nat) (p : Packet) (hk : Keeps kb s₀ s) :
    Keeps kb s₀ (State.routeIn s n vc p) := by
  unfold State.routeIn
  repeat' (first
    | with_reducible assumption
    | with_reducible first | refine State.modDisc_keeps (hk := ?_) .. | refine State.modRtr_keeps (hk := ?_) .. | refine State.span_keeps (hk := ?_) .. | refine State.detectLimited_keeps (hk := ?_) .. | refine State.freeBuffer_keeps (hk := ?_) .. | refine State.fenced_keeps (hk := ?_) .. | refine State.dropNoPort_keeps (hk := ?_) .. | refine State.moved_keeps (hk := ?_) .. | refine State.enqueue_keeps (hk := ?_) .. | refine State.badPacket_keeps (hk := ?_) .. | refine State.answerDrop_keeps (hk := ?_) ..
    | with_reducible refine Keeps.ite ?_ ?_
    | split
    | (with_reducible refine Keeps.lit ?_; dsimp only [State.kept]; with_reducible refine Keeps.unlit ?_)
    | dsimp only)

theorem State.bufferEcc_keeps {kb : Bool} {s₀ : State} (s : State) (p : Packet) (arr0 : BufferEcc) (hk : Keeps kb s₀ s) :
    Keeps kb s₀ (State.bufferEcc s p arr0).2 := by
  unfold State.bufferEcc
  repeat' (first
    | with_reducible assumption
    | with_reducible first | refine State.span_keeps (hk := ?_) .. | refine State.detect_keeps (hk := ?_) .. | refine State.badPacket_keeps (hk := ?_) ..
    | split
    | (with_reducible refine Keeps.lit ?_; dsimp only [State.kept]; with_reducible refine Keeps.unlit ?_)
    | dsimp only)

theorem State.routerJudges_keeps {kb : Bool} {s₀ : State} (s : State) (n vc : Nat) (p : Packet) (failing : Bool) (hk : Keeps kb s₀ s) :
    Keeps kb s₀ (State.routerJudges s n vc p failing) := by
  unfold State.routerJudges
  repeat' (first
    | with_reducible assumption
    | with_reducible first | refine State.modRtr_keeps (hk := ?_) .. | refine State.log_keeps (hk := ?_) .. | refine State.freeBuffer_keeps (hk := ?_) .. | refine State.routeIn_keeps (hk := ?_) ..
    | with_reducible refine Keeps.ite ?_ ?_
    | split
    | (with_reducible refine Keeps.lit ?_; dsimp only [State.kept]; with_reducible refine Keeps.unlit ?_)
    | dsimp only)

theorem State.routerTakes_keeps {kb : Bool} {s₀ : State} (s : State) (n vc : Nat) (p : Packet) (failing : Bool) (mem : BufferEcc) (hk : Keeps kb s₀ s) :
    Keeps kb s₀ (State.routerTakes s n vc p failing mem) := by
  unfold State.routerTakes
  repeat' (first
    | with_reducible assumption
    | with_reducible first | refine State.freeBuffer_keeps (hk := ?_) .. | refine State.deepExit_keeps (hk := ?_) .. | refine State.bufferEcc_keeps (hk := ?_) .. | refine State.routerJudges_keeps (hk := ?_) ..
    | with_reducible refine Keeps.pair (by assumption) ?_
    | split
    | dsimp only)

theorem execVaultScrub_keeps {s₀ : State} (v : VaultName) (reports : List (Nat × EccResult)) (s : State) (hk : Keeps false s₀ s) :
    Answers (execVaultScrub v reports s) (Keeps false s₀) := by
  unfold execVaultScrub
  repeat' (first
    | with_reducible assumption
    | with_reducible refine Answers.next ?_
    | with_reducible first | refine State.modVault_keeps (hk := ?_) .. | refine State.eccAll_keeps (hk := ?_) ..
    | split
    | (with_reducible refine Keeps.lit ?_; dsimp only [State.kept]; with_reducible refine Keeps.unlit ?_)
    | dsimp only)

theorem execVaultSpareDone_keeps {s₀ : State} (v : VaultName) (bad : List Nat) (s : State) (hk : Keeps false s₀ s) :
    Answers (execVaultSpareDone v bad s) (Keeps false s₀) := by
  unfold execVaultSpareDone
  split
  · exact Answers.next hk
  · refine Answers.next (State.closeWindow_keeps _ _ _ (State.modVault_keeps _ _ _ ?_))
    exact Keeps.memory s _ (Memory.wf_marks _ _) hk

theorem execDramPatrolScrub_keeps {s₀ : State} (n lines : Nat) (reports : List (Nat × EccResult)) (s : State) (hk : Keeps false s₀ s) :
    Answers (execDramPatrolScrub n lines reports s) (Keeps false s₀) := by
  unfold execDramPatrolScrub
  repeat' (first
    | with_reducible assumption
    | with_reducible refine Answers.next ?_
    | with_reducible refine Answers.ite ?_ ?_
    | with_reducible first | refine State.modChannel_keeps (hk := ?_) .. | refine State.eccAll_keeps (hk := ?_) ..
    | split
    | (with_reducible refine Keeps.lit ?_; dsimp only [State.kept]; with_reducible refine Keeps.unlit ?_)
    | dsimp only)

theorem execDramTrackingUpdate_keeps {kb : Bool} {s₀ : State} (n : Nat) (margins : List Nat) (low found : Bool) (s : State) (hk : Keeps kb s₀ s) :
    Answers (execDramTrackingUpdate n margins low found s) (Keeps kb s₀) := by
  unfold execDramTrackingUpdate
  repeat' (first
    | with_reducible assumption
    | with_reducible refine Answers.next ?_
    | with_reducible refine Answers.ite ?_ ?_
    | with_reducible first | refine State.modChannel_keeps (hk := ?_) .. | refine State.spanMin_keeps (hk := ?_) .. | refine State.log_keeps (hk := ?_) .. | refine State.loseChannel_keeps (hk := ?_) ..
    | with_reducible refine Keeps.ite ?_ ?_
    | with_reducible refine Keeps.foldl (fun _ _ _ => ?_) ?_
    | split
    | (with_reducible refine Keeps.lit ?_; dsimp only [State.kept]; with_reducible refine Keeps.unlit ?_)
    | dsimp only)

theorem execSoftPpr_keeps {kb : Bool} {s₀ : State} (n : Nat) (exhausted : List Nat) (left : Nat) (s : State) (hk : Keeps kb s₀ s) :
    Answers (execSoftPpr n exhausted left s) (Keeps kb s₀) := by
  unfold execSoftPpr
  repeat' (first
    | with_reducible assumption
    | with_reducible refine Answers.next ?_
    | with_reducible refine Answers.ite ?_ ?_
    | with_reducible first | refine State.modChannel_keeps (hk := ?_) .. | refine State.ledgerAppend_keeps (hk := ?_) .. | refine State.log_keeps (hk := ?_) ..
    | with_reducible refine Keeps.ite ?_ ?_
    | with_reducible refine Keeps.foldl (fun _ _ _ => ?_) ?_
    | split
    | (with_reducible refine Keeps.lit ?_; dsimp only [State.kept]; with_reducible refine Keeps.unlit ?_)
    | dsimp only)

theorem execRemoteWrite_keeps {s₀ : State} (p : Packet) (s : State) (hk : Keeps false s₀ s) :
    Answers (execRemoteWrite p s) (Keeps false s₀) := by
  unfold execRemoteWrite
  repeat' (first
    | with_reducible assumption
    | with_reducible refine Answers.next ?_
    | with_reducible refine Answers.ite ?_ ?_
    | with_reducible first | refine State.consumed_keeps (hk := ?_) .. | refine State.remoteWrite_keeps (hk := ?_) ..
    | dsimp only)

theorem State.readRsp_keeps {kb : Bool} {s₀ : State} (s : State) (p : Packet) (hk : Keeps kb s₀ s) :
    Keeps kb s₀ (State.readRsp s p) := by
  unfold State.readRsp
  repeat' (first
    | with_reducible assumption
    | with_reducible refine State.inject_keeps (hk := ?_) ..
    | split
    | (with_reducible refine Keeps.lit ?_; dsimp only [State.kept]; with_reducible refine Keeps.unlit ?_)
    | dsimp only)

theorem execReadReq_keeps {s₀ : State} (p : Packet) (ecc : List (Nat × EccResult)) (s : State) (hk : Keeps false s₀ s) :
    Answers (execReadReq p ecc s) (Keeps false s₀) := by
  unfold execReadReq
  repeat' (first
    | with_reducible assumption
    | with_reducible refine Answers.next ?_
    | with_reducible refine Answers.ite ?_ ?_
    | with_reducible first | refine State.consumed_keeps (hk := ?_) .. | refine State.eccAll_keeps (hk := ?_) .. | refine State.remoteFault_keeps (hk := ?_) .. | refine State.wakeAt_keeps (hk := ?_) .. | refine State.readErr_keeps (hk := ?_) .. | refine State.readRsp_keeps (hk := ?_) ..
    | split
    | dsimp only)

theorem State.readGone_keeps {kb : Bool} {s₀ : State} (s : State) (w : ReadWait) (hk : Keeps kb s₀ s) :
    Keeps kb s₀ (State.readGone s w) := by
  unfold State.readGone
  repeat' (first
    | with_reducible assumption
    | with_reducible refine State.modRtr_keeps (hk := ?_) ..
    | split
    | (with_reducible refine Keeps.lit ?_; dsimp only [State.kept]; with_reducible refine Keeps.unlit ?_))

theorem State.readFailed_keeps {kb : Bool} {s₀ : State} (s : State) (w : ReadWait) (st : Status) (hk : Keeps kb s₀ s) :
    Keeps kb s₀ (State.readFailed s w st) := by
  unfold State.readFailed
  repeat' (first
    | with_reducible assumption
    | with_reducible first | refine State.spoil_keeps (hk := ?_) .. | refine State.dmaEnd_keeps (hk := ?_) .. | refine State.fillFailed_keeps (hk := ?_) .. | refine State.loadDone_keeps (hk := ?_) .. | refine State.readGone_keeps (hk := ?_) ..
    | split
    | (with_reducible refine Keeps.lit ?_; dsimp only [State.kept]; with_reducible refine Keeps.unlit ?_)
    | dsimp only)

theorem State.readLanded_keeps {s₀ : State} (s : State) (w : ReadWait) (p : Packet) (hk : Keeps false s₀ s) :
    Keeps false s₀ (State.readLanded s w p) := by
  unfold State.readLanded
  repeat' (first
    | with_reducible assumption
    | with_reducible first | refine State.modHost_keeps (hk := ?_) .. | refine State.writeMem_keeps (hk := ?_) .. | refine State.dmaEnd_keeps (hk := ?_) .. | refine State.filled_keeps (hk := ?_) .. | refine State.loadWrite_keeps (hk := ?_) .. | refine State.loadDone_keeps (hk := ?_) .. | refine State.readGone_keeps (hk := ?_) ..
    | with_reducible refine Keeps.ite ?_ ?_
    | split
    | (with_reducible refine Keeps.lit ?_; dsimp only [State.kept]; with_reducible refine Keeps.unlit ?_)
    | dsimp only)

theorem State.lateRsp_keeps {kb : Bool} {s₀ : State} (s : State) (hk : Keeps kb s₀ s) :
    Keeps kb s₀ (State.lateRsp s) := by
  unfold State.lateRsp
  repeat' (first
    | with_reducible assumption
    | with_reducible refine State.modRtr_keeps (hk := ?_) ..
    | split
    | (with_reducible refine Keeps.lit ?_; dsimp only [State.kept]; with_reducible refine Keeps.unlit ?_))

theorem execReadRsp_keeps {s₀ : State} (p : Packet) (s : State) (hk : Keeps false s₀ s) :
    Answers (execReadRsp p s) (Keeps false s₀) := by
  unfold execReadRsp
  repeat' (first
    | with_reducible assumption
    | with_reducible refine Answers.next ?_
    | with_reducible refine Answers.ite ?_ ?_
    | with_reducible first | refine State.consumed_keeps (hk := ?_) .. | refine State.accepted_keeps (hk := ?_) .. | refine State.readGone_keeps (hk := ?_) .. | refine State.readLanded_keeps (hk := ?_) .. | refine State.lateRsp_keeps (hk := ?_) ..
    | with_reducible refine Keeps.ite ?_ ?_
    | split
    | dsimp only)

theorem execReadErr_keeps {kb : Bool} {s₀ : State} (p : Packet) (s : State) (hk : Keeps kb s₀ s) :
    Answers (execReadErr p s) (Keeps kb s₀) := by
  unfold execReadErr
  repeat' (first
    | with_reducible assumption
    | with_reducible refine Answers.next ?_
    | with_reducible refine Answers.ite ?_ ?_
    | with_reducible first | refine State.consumed_keeps (hk := ?_) .. | refine State.readFailed_keeps (hk := ?_) .. | refine State.lateRsp_keeps (hk := ?_) ..
    | split
    | (with_reducible refine Keeps.lit ?_; dsimp only [State.kept]; with_reducible refine Keeps.unlit ?_)
    | dsimp only)

theorem execReadTimeout_keeps {kb : Bool} {s₀ : State} (handle : Nat) (s : State) (hk : Keeps kb s₀ s) :
    Answers (execReadTimeout handle s) (Keeps kb s₀) := by
  unfold execReadTimeout
  repeat' (first
    | with_reducible assumption
    | with_reducible refine Answers.next ?_
    | with_reducible first | refine State.reach_keeps (hk := ?_) .. | refine State.readFailed_keeps (hk := ?_) ..
    | split
    | dsimp only)

theorem State.engineFault_keeps {kb : Bool} {s₀ : State} (s : State) (n : Nat) (hk : Keeps kb s₀ s) :
    Keeps kb s₀ (State.engineFault s n) := by
  unfold State.engineFault
  repeat' (first
    | with_reducible assumption
    | with_reducible first | refine State.detect_keeps (hk := ?_) .. | refine State.closeWindow_keeps (hk := ?_) .. | refine State.contain_keeps (hk := ?_) ..
    | with_reducible refine Keeps.ite ?_ ?_)

theorem execLanding_keeps {s₀ : State} (l : Land) (ecc : List (Nat × EccResult)) (s : State) (hk : Keeps false s₀ s) :
    Answers (execLanding l ecc s) (Keeps false s₀) := by
  unfold execLanding
  repeat' (first
    | with_reducible assumption
    | with_reducible refine Answers.next ?_
    | with_reducible first | refine State.eccAll_keeps (hk := ?_) .. | refine State.land_keeps (hk := ?_) ..
    | (with_reducible refine Keeps.lit ?_; dsimp only [State.kept]; with_reducible refine Keeps.unlit ?_)
    | dsimp only)

theorem execSettleContribution_keeps {s₀ : State} (faults : List Nat) (ecc : List (Nat × EccResult)) (s : State) (hk : Keeps false s₀ s) :
    Answers (execSettleContribution faults ecc s) (Keeps false s₀) := by
  unfold execSettleContribution
  repeat' (first
    | with_reducible assumption
    | with_reducible refine Answers.next ?_
    | with_reducible refine Answers.ite ?_ ?_
    | with_reducible first | refine State.each_keeps (hk := ?_) (hf := ?_) .. | refine State.eccAll_keeps (hk := ?_) .. | refine State.contribute_keeps (hk := ?_) .. | refine State.stmtStart_keeps (hk := ?_) .. | refine State.engineFault_keeps (hk := ?_) ..
    | (intros; with_reducible assumption)
    | intro _ _ _
    | intro _ _
    | dsimp only)

theorem execSettleWalkEnd_keeps {s₀ : State} (ecc : List (Nat × EccResult)) (s : State) (hk : Keeps false s₀ s) :
    Answers (execSettleWalkEnd ecc s) (Keeps false s₀) := by
  unfold execSettleWalkEnd
  repeat' (first
    | with_reducible assumption
    | with_reducible refine Answers.next ?_
    | with_reducible refine Answers.ite ?_ ?_
    | with_reducible first | refine State.eccAll_keeps (hk := ?_) .. | refine State.endWalk_keeps (hk := ?_) .. | refine State.releaseSegs_keeps (hk := ?_) ..
    | dsimp only)

theorem State.pointFail_keeps {kb : Bool} {s₀ : State} (s : State) (st : Status) (hk : Keeps kb s₀ s) :
    Keeps kb s₀ (State.pointFail s st) := by
  unfold State.pointFail
  repeat' (first
    | with_reducible assumption
    | with_reducible first | refine State.modCol_keeps (hk := ?_) .. | refine State.haltSeq_keeps (hk := ?_) ..
    | with_reducible refine Keeps.foldl (fun _ _ _ => ?_) ?_
    | split
    | (with_reducible refine Keeps.lit ?_; dsimp only [State.kept]; with_reducible refine Keeps.unlit ?_)
    | dsimp only)

theorem execStmtTimeout_keeps {s₀ : State} (s : State) (hk : Keeps false s₀ s) :
    Answers (execStmtTimeout s) (Keeps false s₀) := by
  unfold execStmtTimeout
  repeat' (first
    | with_reducible assumption
    | with_reducible refine Answers.next ?_
    | with_reducible refine Answers.ite ?_ ?_
    | with_reducible first | refine State.reach_keeps (hk := ?_) .. | refine State.stmtFail_keeps (hk := ?_) .. | refine State.pointFail_keeps (hk := ?_) ..
    | dsimp only)

theorem execSpikeReset_keeps {kb : Bool} {s₀ : State} (s : State) (hk : Keeps kb s₀ s) :
    Answers (execSpikeReset s) (Keeps kb s₀) := by
  unfold execSpikeReset
  repeat' (first
    | with_reducible assumption
    | with_reducible refine Answers.next ?_
    | with_reducible refine State.modSet_keeps (hk := ?_) ..
    | split
    | (with_reducible refine Keeps.lit ?_; dsimp only [State.kept]; with_reducible refine Keeps.unlit ?_)
    | dsimp only)

theorem State.refuseEntry_keeps {kb : Bool} {s₀ : State} (s : State) (i : Nat) (st : Status) (hk : Keeps kb s₀ s) :
    Keeps kb s₀ (State.refuseEntry s i st) := by
  unfold State.refuseEntry
  repeat' (first
    | with_reducible assumption
    | with_reducible refine State.collectiveCoin_keeps (hk := ?_) ..
    | with_reducible refine Keeps.ite ?_ ?_
    | split)

theorem State.startEntry_keeps {s₀ : State} (s : State) (i micro : Nat) (last : Bool) (hk : Keeps false s₀ s) :
    Keeps false s₀ (State.startEntry s i micro last) := by
  unfold State.startEntry
  repeat' (first
    | with_reducible assumption
    | with_reducible first | refine State.modCol_keeps (hk := ?_) .. | refine State.issueFill_keeps (hk := ?_) .. | refine State.entryRun_keeps (hk := ?_) .. | refine State.microEnd_keeps (hk := ?_) .. | refine State.refuseEntry_keeps (hk := ?_) ..
    | with_reducible refine Keeps.ite ?_ ?_
    | split
    | (with_reducible refine Keeps.lit ?_; dsimp only [State.kept]; with_reducible refine Keeps.unlit ?_)
    | dsimp only)

theorem execCollectiveStart_keeps {s₀ : State} (c : Nat) (t : Tick) (i micro : Nat) (last : Bool) (ecc : List (Nat × EccResult)) (s : State) (hk : Keeps false s₀ s) :
    Answers (execCollectiveStart c t i micro last ecc s) (Keeps false s₀) := by
  unfold execCollectiveStart
  repeat' (first
    | with_reducible assumption
    | with_reducible refine Answers.next ?_
    | with_reducible first | refine State.eccAll_keeps (hk := ?_) .. | refine State.onSeq_keeps (hk := ?_) (hf := ?_) .. | refine State.startEntry_keeps (hk := ?_) ..
    | intro _ _
    | split
    | dsimp only)

theorem execReduceSegment_keeps {s₀ : State} (p : Packet) (fault : Bool) (ecc : List (Nat × EccResult)) (s : State) (hk : Keeps false s₀ s) :
    Answers (execReduceSegment p fault ecc s) (Keeps false s₀) := by
  unfold execReduceSegment
  repeat' (first
    | with_reducible assumption
    | with_reducible refine Answers.next ?_
    | with_reducible refine Answers.ite ?_ ?_
    | with_reducible first | refine State.detect_keeps (hk := ?_) .. | refine State.takeIn_keeps (hk := ?_) .. | refine State.eccAll_keeps (hk := ?_) .. | refine State.accepted_keeps (hk := ?_) .. | refine State.segment_keeps (hk := ?_) ..
    | with_reducible refine Keeps.ite ?_ ?_
    | dsimp only)

theorem execGatherSegment_keeps {s₀ : State} (p : Packet) (s : State) (hk : Keeps false s₀ s) :
    Answers (execGatherSegment p s) (Keeps false s₀) := by
  unfold execGatherSegment
  repeat' (first
    | with_reducible assumption
    | with_reducible refine Answers.next ?_
    | with_reducible refine Answers.ite ?_ ?_
    | with_reducible first | refine State.takeIn_keeps (hk := ?_) .. | refine State.accepted_keeps (hk := ?_) .. | refine State.segment_keeps (hk := ?_) ..
    | dsimp only)

theorem execCollectiveEnd_keeps {s₀ : State} (i : Nat) (ecc : List (Nat × EccResult)) (s : State) (hk : Keeps false s₀ s) :
    Answers (execCollectiveEnd i ecc s) (Keeps false s₀) := by
  unfold execCollectiveEnd
  repeat' (first
    | with_reducible assumption
    | with_reducible refine Answers.next ?_
    | with_reducible refine Answers.ite ?_ ?_
    | with_reducible first | refine State.eccAll_keeps (hk := ?_) .. | refine State.entryEnd_keeps (hk := ?_) .. | refine State.gradStageEnd_keeps (hk := ?_) .. | refine State.microEnd_keeps (hk := ?_) ..
    | split
    | dsimp only)

theorem execStatementCombine_keeps {s₀ : State} (p : Packet) (faults : List Nat) (ecc : List (Nat × EccResult)) (s : State) (hk : Keeps false s₀ s) :
    Answers (execStatementCombine p faults ecc s) (Keeps false s₀) := by
  unfold execStatementCombine
  repeat' (first
    | with_reducible assumption
    | with_reducible refine Answers.next ?_
    | with_reducible refine Answers.ite ?_ ?_
    | with_reducible first | refine State.modDec_keeps (hk := ?_) .. | refine State.each_keeps (hk := ?_) (hf := ?_) .. | refine State.consumed_keeps (hk := ?_) .. | refine State.badPacket_keeps (hk := ?_) .. | refine State.eccAll_keeps (hk := ?_) .. | refine State.stmtAdvance_keeps (hk := ?_) .. | refine State.engineFault_keeps (hk := ?_) ..
    | (intros; with_reducible assumption)
    | intro _ _ _
    | intro _ _
    | split
    | (with_reducible refine Keeps.lit ?_; dsimp only [State.kept]; with_reducible refine Keeps.unlit ?_)
    | dsimp only)

theorem execStatementBroadcast_keeps {s₀ : State} (p : Packet) (faults : List Nat) (ecc : List (Nat × EccResult)) (s : State) (hk : Keeps false s₀ s) :
    Answers (execStatementBroadcast p faults ecc s) (Keeps false s₀) := by
  unfold execStatementBroadcast
  repeat' (first
    | with_reducible assumption
    | with_reducible refine Answers.next ?_
    | with_reducible refine Answers.ite ?_ ?_
    | with_reducible first | refine State.each_keeps (hk := ?_) (hf := ?_) .. | refine State.consumed_keeps (hk := ?_) .. | refine State.badPacket_keeps (hk := ?_) .. | refine State.eccAll_keeps (hk := ?_) .. | refine State.stmtFinal_keeps (hk := ?_) .. | refine State.engineFault_keeps (hk := ?_) ..
    | (intros; with_reducible assumption)
    | intro _ _ _
    | intro _ _
    | dsimp only)

theorem State.reachPoint_keeps {kb : Bool} {s₀ : State} (s : State) (n : Nat) (hk : Keeps kb s₀ s) :
    Keeps kb s₀ (State.reachPoint s n) := by
  unfold State.reachPoint
  repeat' (first
    | with_reducible assumption
    | with_reducible first | refine State.modCol_keeps (hk := ?_) .. | refine State.pointFinal_keeps (hk := ?_) .. | refine State.pointAdvance_keeps (hk := ?_) .. | refine State.pointFail_keeps (hk := ?_) ..
    | with_reducible refine Keeps.ite ?_ ?_
    | split
    | (with_reducible refine Keeps.lit ?_; dsimp only [State.kept]; with_reducible refine Keeps.unlit ?_)
    | dsimp only)

theorem execPointBarrierCombine_keeps {kb : Bool} {s₀ : State} (n : Nat) (arrived : Option Packet) (s : State) (hk : Keeps kb s₀ s) :
    Answers (execPointBarrierCombine n arrived s) (Keeps kb s₀) := by
  unfold execPointBarrierCombine
  repeat' (first
    | with_reducible assumption
    | with_reducible refine Answers.next ?_
    | with_reducible refine Answers.ite ?_ ?_
    | with_reducible first | refine State.modCol_keeps (hk := ?_) .. | refine State.consumed_keeps (hk := ?_) .. | refine State.badPacket_keeps (hk := ?_) .. | refine State.pointAdvance_keeps (hk := ?_) .. | refine State.reachPoint_keeps (hk := ?_) ..
    | split
    | (with_reducible refine Keeps.lit ?_; dsimp only [State.kept]; with_reducible refine Keeps.unlit ?_)
    | dsimp only)

theorem execPointBarrierBroadcast_keeps {kb : Bool} {s₀ : State} (p : Packet) (s : State) (hk : Keeps kb s₀ s) :
    Answers (execPointBarrierBroadcast p s) (Keeps kb s₀) := by
  unfold execPointBarrierBroadcast
  repeat' (first
    | with_reducible assumption
    | with_reducible refine Answers.next ?_
    | with_reducible refine Answers.ite ?_ ?_
    | with_reducible first | refine State.consumed_keeps (hk := ?_) .. | refine State.badPacket_keeps (hk := ?_) .. | refine State.pointFinal_keeps (hk := ?_) ..
    | dsimp only)

end Sys2Proof.Machine
end

