-- ==== Sys2Proof/Laws/KeepsJob.lean ====
section
/-!
SUPPORT. `Keeps` of every operation on the state, part: jobs, resets, discovery, power, errors.
-/
set_option autoImplicit false
set_option linter.unusedVariables false
namespace Sys2Proof.Machine

theorem State.setSlot_keeps {kb : Bool} {s₀ : State} (s : State) (i : Nat) (v : List Byte) (hk : Keeps kb s₀ s) :
    Keeps kb s₀ (State.setSlot s i v) := by
  unfold State.setSlot
  repeat' (first
    | with_reducible assumption
    | with_reducible refine State.modSec_keeps (hk := ?_) ..
    | split
    | (with_reducible refine Keeps.lit ?_; dsimp only [State.kept]; with_reducible refine Keeps.unlit ?_))

theorem State.extendSlot_keeps {kb : Bool} {s₀ : State} (s : State) (i : Nat) (x : List Byte) (hk : Keeps kb s₀ s) :
    Keeps kb s₀ (State.extendSlot s i x) := by
  unfold State.extendSlot
  repeat' (first
    | with_reducible assumption
    | with_reducible refine State.setSlot_keeps (hk := ?_) ..)

theorem State.clearJob_keeps {kb : Bool} {s₀ : State} (s : State) (hk : Keeps kb s₀ s) : Keeps kb s₀ s.clearJob := by
  unfold State.clearJob
  refine State.setSlot_keeps _ _ _ (State.modSec_keeps _ _ (State.modCol_keeps _ _ ?_))
  exact Keeps.same { s.modClusters (fun _ k => k.clearJob) with saved := none } rfl (Keeps.context _ none (fun _ _ e => nomatch e) (State.modClusters_keeps s (fun _ k => k.clearJob) hk))

theorem State.scrub_keeps {s₀ : State} (s : State) (level : Nat) (hk : Keeps false s₀ s) : Keeps false s₀ (s.scrub level) := by
  unfold State.scrub
  split
  · exact hk
  · have h : Keeps false s₀ { s with mem := s.mem.zero dramWindow (2 ^ 48), cores := s.cores.map (fun (x : Nat × Core) => (x.1, ({ x.2 with regs := [] } : Core))) } :=
      Keeps.same { s with mem := s.mem.zero dramWindow (2 ^ 48) } rfl (Keeps.memory s _ (Memory.wf_zero _ _ _) hk)
    have k := State.modClusters_keeps _ (fun _ k => { k with seq := k.seq.clearMems }) h
    dsimp only
    split
    · exact Keeps.memory _ _ (Memory.wf_zero _ _ _) k
    · exact k

theorem State.loadSection_keeps {s₀ : State} (s : State) (img : List Byte) (src : Option Nat) (x : Section) (hk : Keeps false s₀ s) :
    Keeps false s₀ (State.loadSection s img src x) := by
  unfold State.loadSection
  repeat' (first
    | with_reducible assumption
    | with_reducible first | refine State.modSeq_keeps (hk := ?_) .. | refine State.writeMem_keeps (hk := ?_) .. | refine State.copyMem_keeps (hk := ?_) ..
    | with_reducible refine Keeps.ite ?_ ?_
    | with_reducible refine Keeps.foldl (fun _ _ _ => ?_) ?_
    | split
    | (with_reducible refine Keeps.lit ?_; dsimp only [State.kept]; with_reducible refine Keeps.unlit ?_)
    | dsimp only)

theorem State.loadImage_keeps {s₀ : State} (s : State) (d : Desc) (img : List Byte) (src : Option Nat) (hk : Keeps false s₀ s) :
    Keeps false s₀ (State.loadImage s d img src) := by
  unfold State.loadImage
  repeat' (first
    | with_reducible assumption
    | with_reducible first | refine State.modClusters_keeps (hk := ?_) .. | refine State.modSec_keeps (hk := ?_) .. | refine State.setSlot_keeps (hk := ?_) .. | refine State.extendSlot_keeps (hk := ?_) .. | refine State.loadSection_keeps (hk := ?_) ..
    | with_reducible refine Keeps.foldl (fun _ _ _ => ?_) ?_
    | split
    | (with_reducible refine Keeps.lit ?_; dsimp only [State.kept]; with_reducible refine Keeps.unlit ?_)
    | dsimp only)

theorem State.cmdGone_keeps {kb : Bool} {s₀ : State} (s : State) (d : Desc) (hk : Keeps kb s₀ s) :
    Keeps kb s₀ (State.cmdGone s d) := by
  unfold State.cmdGone
  repeat' (first
    | with_reducible assumption
    | with_reducible first | refine State.modSeq_keeps (hk := ?_) .. | refine State.modHost_keeps (hk := ?_) .. | refine State.modDec_keeps (hk := ?_) .. | refine State.stepPosted_keeps (hk := ?_) .. | refine State.timeSettles_keeps (hk := ?_) ..
    | with_reducible refine Keeps.ite ?_ ?_
    | with_reducible refine Keeps.foldl (fun _ _ _ => ?_) ?_
    | split
    | (with_reducible refine Keeps.lit ?_; dsimp only [State.kept]; with_reducible refine Keeps.unlit ?_)
    | dsimp only)

theorem State.saveJob_keeps {kb : Bool} {s₀ : State} (s : State) (point : Nat) (hk : Keeps kb s₀ s) : Keeps kb s₀ (s.saveJob point) := by
  unfold State.saveJob
  refine Keeps.foldl (fun t c h => State.saveQueues_keeps _ _ h) ?_
  refine Keeps.context s _ ?_ hk
  intro h x e
  cases e
  exact ⟨tabWf_filter _ _ _ ((Memory.wf_iff _).mp h).1, tabWf_filter _ _ _ ((Memory.wf_iff _).mp h).2.1⟩

theorem State.stopCommand_keeps {kb : Bool} {s₀ : State} (s : State) (hk : Keeps kb s₀ s) :
    Keeps kb s₀ (State.stopCommand s) := by
  unfold State.stopCommand
  repeat' (first
    | with_reducible assumption
    | with_reducible first | refine State.cancelFills_keeps (hk := ?_) .. | refine State.endOn_keeps (hk := ?_) ..
    | with_reducible refine Keeps.ite ?_ ?_
    | with_reducible refine Keeps.foldl (fun _ _ _ => ?_) ?_
    | split)

theorem State.preempted_keeps {kb : Bool} {s₀ : State} (s : State) (point : Nat) (d : Desc) (hk : Keeps kb s₀ s) :
    Keeps kb s₀ (State.preempted s point d) := by
  unfold State.preempted
  repeat' (first
    | with_reducible assumption
    | with_reducible first | refine State.modHost_keeps (hk := ?_) .. | refine State.complete_keeps (hk := ?_) .. | refine State.cmdGone_keeps (hk := ?_) ..
    | with_reducible refine Keeps.ite ?_ ?_
    | split
    | (with_reducible refine Keeps.lit ?_; dsimp only [State.kept]; with_reducible refine Keeps.unlit ?_)
    | dsimp only)

theorem State.takePreempt_keeps {kb : Bool} {s₀ : State} (s : State) (hk : Keeps kb s₀ s) :
    Keeps kb s₀ (State.takePreempt s) := by
  unfold State.takePreempt
  repeat' (first
    | with_reducible assumption
    | with_reducible first | refine State.modCol_keeps (hk := ?_) .. | refine State.log_keeps (hk := ?_) .. | refine State.complete_keeps (hk := ?_) .. | refine State.saveJob_keeps (hk := ?_) .. | refine State.stopCommand_keeps (hk := ?_) .. | refine State.preempted_keeps (hk := ?_) ..
    | with_reducible refine Keeps.foldl (fun _ _ _ => ?_) ?_
    | split
    | (with_reducible refine Keeps.lit ?_; dsimp only [State.kept]; with_reducible refine Keeps.unlit ?_)
    | dsimp only)

theorem State.restoreJob_keeps {s₀ : State} (s : State) (x : SavedContext) (hx : s₀.memoryOk → tabWf (0 : Byte) x.vaults = true ∧ tabWf false x.vaultPoison = true)
    (hk : Keeps false s₀ s) : Keeps false s₀ (s.restoreJob x) := by
  unfold State.restoreJob
  refine Keeps.foldl (fun t c h => State.restoreQueues_keeps _ _ _ h) (State.modClusters_keeps _ _ ?_)
  refine ⟨hk.1, hk.2.1, hk.2.2.1, hk.2.2.2.1, fun h => ?_, fun e => nomatch e⟩
  have hm := (Memory.wf_iff _).mp (hk.2.2.2.2.1 h).1
  refine ⟨(Memory.wf_iff _).mpr ⟨?_, ?_, rfl⟩, fun _ e => nomatch e⟩
  · have := tabWf_border (0 : Byte) dramWindow 1 (by decide) s.mem.cells x.vaults hm.1 (hx h).1
    simpa only [Nat.mul_one] using this
  · exact tabWf_border false dramWindow 64 (by decide) s.mem.poison x.vaultPoison hm.2.1 (hx h).2

theorem State.stopRings_keeps {kb : Bool} {s₀ : State} (s : State) (hk : Keeps kb s₀ s) :
    Keeps kb s₀ (State.stopRings s) := by
  unfold State.stopRings
  repeat' (first
    | with_reducible assumption
    | with_reducible first | refine State.modHost_keeps (hk := ?_) .. | refine State.modRtr_keeps (hk := ?_) .. | refine State.complete_keeps (hk := ?_) ..
    | with_reducible refine Keeps.foldl (fun _ _ _ => ?_) ?_
    | split
    | (with_reducible refine Keeps.lit ?_; dsimp only [State.kept]; with_reducible refine Keeps.unlit ?_)
    | dsimp only)

theorem State.enterFatal_keeps {s₀ : State} (s : State) (hk : Keeps false s₀ s) :
    Keeps false s₀ (State.enterFatal s) := by
  unfold State.enterFatal
  repeat' (first
    | with_reducible assumption
    | with_reducible first | refine State.modClusters_keeps (hk := ?_) .. | refine State.modErr_keeps (hk := ?_) .. | refine State.linkLeaves_keeps (hk := ?_) .. | refine State.stopRings_keeps (hk := ?_) ..
    | with_reducible refine Keeps.ite ?_ ?_
    | with_reducible refine Keeps.foldl (fun _ _ _ => ?_) ?_
    | split
    | (with_reducible refine Keeps.lit ?_; dsimp only [State.kept]; with_reducible refine Keeps.unlit ?_)
    | dsimp only)

theorem State.unfault_keeps {kb : Bool} {s₀ : State} (s : State) (ks : List UnitKind) (hk : Keeps kb s₀ s) :
    Keeps kb s₀ (State.unfault s ks) := by
  unfold State.unfault
  repeat' (first
    | with_reducible assumption
    | split
    | (with_reducible refine Keeps.lit ?_; dsimp only [State.kept]; with_reducible refine Keeps.unlit ?_))

theorem State.clearCores_keeps {kb : Bool} {s₀ : State} (s : State) (c : Nat) (hk : Keeps kb s₀ s) :
    Keeps kb s₀ (State.clearCores s c) := by
  unfold State.clearCores
  repeat' (first
    | with_reducible assumption
    | with_reducible first | refine State.modCore_keeps (hk := ?_) .. | refine State.releaseBuffers_keeps (hk := ?_) .. | refine State.retireLayer_keeps (hk := ?_) ..
    | with_reducible refine Keeps.foldl (fun _ _ _ => ?_) ?_
    | split
    | (with_reducible refine Keeps.lit ?_; dsimp only [State.kept]; with_reducible refine Keeps.unlit ?_)
    | dsimp only)

theorem State.waitPass_keeps {s₀ : State} (s : State) (hk : Keeps false s₀ s) :
    Keeps false s₀ (State.waitPass s) := by
  unfold State.waitPass
  repeat' (first
    | with_reducible assumption
    | with_reducible refine State.endWalk_keeps (hk := ?_) ..
    | with_reducible refine Keeps.ite ?_ ?_)

theorem State.sliceReset_keeps {s₀ : State} (s : State) (hk : Keeps false s₀ s) :
    Keeps false s₀ (State.sliceReset s) := by
  unfold State.sliceReset
  repeat' (first
    | with_reducible assumption
    | with_reducible first | refine State.modSet_keeps (hk := ?_) .. | refine State.modDec_keeps (hk := ?_) .. | refine State.modCol_keeps (hk := ?_) .. | refine State.freeKept_keeps (hk := ?_) .. | refine State.ownerReset_keeps (hk := ?_) .. | refine State.endWindow_keeps (hk := ?_) .. | refine State.fencesDone_keeps (hk := ?_) .. | refine State.haltSeq_keeps (hk := ?_) .. | refine State.flushCrossings_keeps (hk := ?_) .. | refine State.resetEvent_keeps (hk := ?_) .. | refine State.clearTotals_keeps (hk := ?_) .. | refine State.clearPresence_keeps (hk := ?_) .. | refine State.unfault_keeps (hk := ?_) .. | refine State.clearCores_keeps (hk := ?_) .. | refine State.waitPass_keeps (hk := ?_) ..
    | with_reducible refine Keeps.foldl (fun _ _ _ => ?_) ?_
    | with_reducible refine Keeps.foldl2 (fun _ _ _ => ?_) ?_
    | split
    | (with_reducible refine Keeps.lit ?_; dsimp only [State.kept]; with_reducible refine Keeps.unlit ?_)
    | dsimp only)

theorem State.sliceResetHere_keeps {s₀ : State} (s : State) (hk : Keeps false s₀ s) :
    Keeps false s₀ (State.sliceResetHere s) := by
  unfold State.sliceResetHere
  repeat' (first
    | with_reducible assumption
    | with_reducible first | refine State.modSlice_keeps (hk := ?_) .. | refine State.sendNotice_keeps (hk := ?_) .. | refine State.sliceReset_keeps (hk := ?_) ..
    | with_reducible refine Keeps.ite ?_ ?_
    | split
    | (with_reducible refine Keeps.lit ?_; dsimp only [State.kept]; with_reducible refine Keeps.unlit ?_)
    | dsimp only)

theorem State.clusterReset_keeps {kb : Bool} {s₀ : State} (s : State) (c : Nat) (hk : Keeps kb s₀ s) :
    Keeps kb s₀ (State.clusterReset s c) := by
  unfold State.clusterReset
  repeat' (first
    | with_reducible assumption
    | with_reducible first | refine State.wake_keeps (hk := ?_) .. | refine State.flushCrossings_keeps (hk := ?_) .. | refine State.resetEvent_keeps (hk := ?_) .. | refine State.resetCluster_keeps (hk := ?_) ..
    | split
    | dsimp only)

theorem State.coreReset_keeps {s₀ : State} (s : State) (p : Nat) (hk : Keeps false s₀ s) :
    Keeps false s₀ (State.coreReset s p) := by
  unfold State.coreReset
  repeat' (first
    | with_reducible assumption
    | with_reducible first | refine State.resetEvent_keeps (hk := ?_) .. | refine State.resetCore_keeps (hk := ?_) ..
    | split
    | dsimp only)

theorem State.portReset_keeps {s₀ : State} (s : State) (n : Nat) (hk : Keeps false s₀ s) :
    Keeps false s₀ (State.portReset s n) := by
  unfold State.portReset
  repeat' (first
    | with_reducible assumption
    | with_reducible first | refine State.modLink_keeps (hk := ?_) .. | refine State.modDisc_keeps (hk := ?_) .. | refine State.modUnit_keeps (hk := ?_) .. | refine State.resetEvent_keeps (hk := ?_) .. | refine State.retrain_keeps (hk := ?_) ..
    | with_reducible refine Keeps.ite ?_ ?_
    | split
    | (with_reducible refine Keeps.lit ?_; dsimp only [State.kept]; with_reducible refine Keeps.unlit ?_)
    | dsimp only)

theorem State.flr_keeps {s₀ : State} (s : State) (hk : Keeps false s₀ s) :
    Keeps false s₀ (State.flr s) := by
  unfold State.flr
  repeat' (first
    | with_reducible assumption
    | with_reducible first | refine State.modClusters_keeps (hk := ?_) .. | refine State.modRtr_keeps (hk := ?_) .. | refine State.modDev_keeps (hk := ?_) .. | refine State.freeKept_keeps (hk := ?_) .. | refine State.ownerReset_keeps (hk := ?_) .. | refine State.endWindow_keeps (hk := ?_) .. | refine State.flushCrossings_keeps (hk := ?_) .. | refine State.resetEvent_keeps (hk := ?_) .. | refine State.extendSlot_keeps (hk := ?_) .. | refine State.clearJob_keeps (hk := ?_) .. | refine State.scrub_keeps (hk := ?_) .. | refine State.unfault_keeps (hk := ?_) .. | refine State.clearCores_keeps (hk := ?_) .. | refine State.waitPass_keeps (hk := ?_) ..
    | with_reducible refine Keeps.foldl (fun _ _ _ => ?_) ?_
    | with_reducible refine Keeps.foldl2 (fun _ _ _ => ?_) ?_
    | split
    | (with_reducible refine Keeps.lit ?_; dsimp only [State.kept]; with_reducible refine Keeps.unlit ?_)
    | dsimp only)

theorem State.leaveMaintenance_keeps {kb : Bool} {s₀ : State} (s : State) (hk : Keeps kb s₀ s) :
    Keeps kb s₀ (State.leaveMaintenance s) := by
  unfold State.leaveMaintenance
  repeat' (first
    | with_reducible assumption
    | with_reducible first | refine State.modErr_keeps (hk := ?_) .. | refine State.modSec_keeps (hk := ?_) .. | refine State.log_keeps (hk := ?_) ..
    | with_reducible refine Keeps.ite ?_ ?_
    | split
    | (with_reducible refine Keeps.lit ?_; dsimp only [State.kept]; with_reducible refine Keeps.unlit ?_))

theorem State.timeDrops_keeps {kb : Bool} {s₀ : State} (s : State) (hk : Keeps kb s₀ s) :
    Keeps kb s₀ (State.timeDrops s) := by
  unfold State.timeDrops
  repeat' (first
    | with_reducible assumption
    | with_reducible refine State.holdover_keeps (hk := ?_) ..
    | with_reducible refine Keeps.ite ?_ ?_)

theorem State.warmReset_keeps {s₀ : State} (s : State) (hk : Keeps false s₀ s) : Keeps false s₀ s.warmReset := by
  unfold State.warmReset
  split
  · exact hk
  · have k := State.flushCrossings_keeps s (fun _ => true) hk
    dsimp only
    generalize s.flushCrossings (fun _ => true) = p at k
    obtain ⟨n, s⟩ := p
    have k := State.total_keeps _ 3 1 (State.slewAt_keeps _ 0 (State.timeDrops_keeps _ (State.leaveMaintenance_keeps s k)))
    dsimp only
    refine Keeps.whole (u := (s.leaveMaintenance.timeDrops.slewAt 0).total 3 1) rfl rfl rfl (List.prefix_refl _) ?_ k
    intro h
    have hm := (Memory.wf_iff _).mp h.1
    exact ⟨(Memory.wf_iff _).mpr ⟨tabWf_filter _ _ _ hm.1, tabWf_filter _ _ _ hm.2.1, rfl⟩, fun _ e => nomatch e⟩

theorem execIdentity_keeps {s₀ : State} (n : Nat) (p : Packet) (s : State) (hk : Keeps false s₀ s) :
    Answers (execIdentity n p s) (Keeps false s₀) := by
  unfold execIdentity
  repeat' (first
    | with_reducible assumption
    | with_reducible refine Answers.next ?_
    | with_reducible refine Answers.ite ?_ ?_
    | with_reducible first | refine State.consumed_keeps (hk := ?_) .. | refine State.identity_keeps (hk := ?_) ..
    | dsimp only)

theorem execIdentityRepeat_keeps {kb : Bool} {s₀ : State} (n : Nat) (s : State) (hk : Keeps kb s₀ s) :
    Answers (execIdentityRepeat n s) (Keeps kb s₀) := by
  unfold execIdentityRepeat
  repeat' (first
    | with_reducible assumption
    | with_reducible refine Answers.next ?_
    | with_reducible refine Answers.ite ?_ ?_
    | with_reducible refine State.sendIdentity_keeps (hk := ?_) ..
    | dsimp only)

theorem execIdentityTimeout_keeps {s₀ : State} (n : Nat) (s : State) (hk : Keeps false s₀ s) :
    Answers (execIdentityTimeout n s) (Keeps false s₀) := by
  unfold execIdentityTimeout
  repeat' (first
    | with_reducible assumption
    | with_reducible refine Answers.next ?_
    | with_reducible refine Answers.ite ?_ ?_
    | with_reducible first | refine State.reach_keeps (hk := ?_) .. | refine State.setDisc_keeps (hk := ?_) .. | refine State.discEvent_keeps (hk := ?_) ..
    | dsimp only)

theorem execReidentify_keeps {s₀ : State} (n : Nat) (s : State) (hk : Keeps false s₀ s) :
    Answers (execReidentify n s) (Keeps false s₀) := by
  unfold execReidentify
  repeat' (first
    | with_reducible assumption
    | with_reducible refine Answers.next ?_
    | with_reducible refine Answers.ite ?_ ?_
    | with_reducible refine State.reidentify_keeps (hk := ?_) ..
    | dsimp only)

theorem execPartnerMissing_keeps {s₀ : State} (n : Nat) (s : State) (hk : Keeps false s₀ s) :
    Answers (execPartnerMissing n s) (Keeps false s₀) := by
  unfold execPartnerMissing
  repeat' (first
    | with_reducible assumption
    | with_reducible refine Answers.next ?_
    | with_reducible refine Answers.ite ?_ ?_
    | with_reducible first | refine State.modDisc_keeps (hk := ?_) .. | refine State.reach_keeps (hk := ?_) .. | refine State.log_keeps (hk := ?_) .. | refine State.sliceLinkLost_keeps (hk := ?_) ..
    | split
    | (with_reducible refine Keeps.lit ?_; dsimp only [State.kept]; with_reducible refine Keeps.unlit ?_)
    | dsimp only)

theorem State.notice_keeps {s₀ : State} (s : State) (b : List Byte) (hk : Keeps false s₀ s) :
    Keeps false s₀ (State.notice s b) := by
  unfold State.notice
  repeat' (first
    | with_reducible assumption
    | with_reducible first | refine State.modSlice_keeps (hk := ?_) .. | refine State.badPacket_keeps (hk := ?_) .. | refine State.sendNotice_keeps (hk := ?_) .. | refine State.degrade_keeps (hk := ?_) .. | refine State.sliceReset_keeps (hk := ?_) ..
    | with_reducible refine Keeps.ite ?_ ?_
    | split
    | (with_reducible refine Keeps.lit ?_; dsimp only [State.kept]; with_reducible refine Keeps.unlit ?_)
    | dsimp only)

theorem execSliceNotice_keeps {s₀ : State} (n : Nat) (p : Packet) (s : State) (hk : Keeps false s₀ s) :
    Answers (execSliceNotice n p s) (Keeps false s₀) := by
  unfold execSliceNotice
  repeat' (first
    | with_reducible assumption
    | with_reducible refine Answers.next ?_
    | with_reducible refine Answers.ite ?_ ?_
    | with_reducible first | refine State.consumed_keeps (hk := ?_) .. | refine State.notice_keeps (hk := ?_) ..
    | dsimp only)

theorem execRouteStall_keeps {kb : Bool} {s₀ : State} (n ch vc : Nat) (s : State) (hk : Keeps kb s₀ s) :
    Answers (execRouteStall n ch vc s) (Keeps kb s₀) := by
  unfold execRouteStall
  repeat' (first
    | with_reducible assumption
    | with_reducible refine Answers.next ?_
    | with_reducible refine Answers.ite ?_ ?_
    | with_reducible refine State.logLimited_keeps (hk := ?_) ..
    | split
    | dsimp only)

theorem State.undone_keeps {s₀ : State} (s : State) (p : Packet) (x : Sent) (hk : Keeps false s₀ s) :
    Keeps false s₀ (State.undone s p x) := by
  unfold State.undone
  repeat' (first
    | with_reducible assumption
    | with_reducible first | refine State.modRtr_keeps (hk := ?_) .. | refine State.toRequester_keeps (hk := ?_) .. | refine State.complete_keeps (hk := ?_) .. | refine State.dmaEnd_keeps (hk := ?_) .. | refine State.stmtFail_keeps (hk := ?_) .. | refine State.entryEnd_keeps (hk := ?_) .. | refine State.readFailed_keeps (hk := ?_) ..
    | with_reducible refine Keeps.ite ?_ ?_
    | split
    | (with_reducible refine Keeps.lit ?_; dsimp only [State.kept]; with_reducible refine Keeps.unlit ?_))

theorem State.releaseOne_keeps {s₀ : State} (s : State) (w : Waiting) (hk : Keeps false s₀ s) :
    Keeps false s₀ (State.releaseOne s w) := by
  unfold State.releaseOne
  repeat' (first
    | with_reducible assumption
    | with_reducible first | refine State.launch_keeps (hk := ?_) .. | refine State.streamLaunch_keeps (hk := ?_) .. | refine State.undone_keeps (hk := ?_) ..
    | with_reducible refine Keeps.ite ?_ ?_
    | with_reducible refine Keeps.pair (by assumption) ?_
    | split
    | (with_reducible refine Keeps.lit ?_; dsimp only [State.kept]; with_reducible refine Keeps.unlit ?_)
    | dsimp only)

theorem State.releaseDrain_keeps {s₀ : State} (s : State) (hk : Keeps false s₀ s) :
    Keeps false s₀ (State.releaseDrain s) := by
  unfold State.releaseDrain
  repeat' (first
    | with_reducible assumption
    | with_reducible first | refine State.modRtr_keeps (hk := ?_) .. | refine State.releaseOne_keeps (hk := ?_) ..
    | with_reducible refine Keeps.foldl (fun _ _ _ => ?_) ?_
    | split
    | (with_reducible refine Keeps.lit ?_; dsimp only [State.kept]; with_reducible refine Keeps.unlit ?_))

theorem State.setDrain_keeps {s₀ : State} (s : State) (v : Bool) (hk : Keeps false s₀ s) :
    Keeps false s₀ (State.setDrain s v) := by
  unfold State.setDrain
  repeat' (first
    | with_reducible assumption
    | with_reducible first | refine State.modRtr_keeps (hk := ?_) .. | refine State.dmasDone_keeps (hk := ?_) .. | refine State.releaseDrain_keeps (hk := ?_) ..
    | with_reducible refine Keeps.ite ?_ ?_
    | split
    | (with_reducible refine Keeps.lit ?_; dsimp only [State.kept]; with_reducible refine Keeps.unlit ?_))

theorem execDrain_keeps {s₀ : State} (v : Bool) (s : State) (hk : Keeps false s₀ s) :
    Answers (execDrain v s) (Keeps false s₀) := by
  unfold execDrain
  repeat' (first
    | with_reducible assumption
    | with_reducible refine Answers.next ?_
    | with_reducible refine State.setDrain_keeps (hk := ?_) ..
    | dsimp only)

theorem State.writeDetour_keeps {kb : Bool} {s₀ : State} (s : State) (t e v : Nat) (hk : Keeps kb s₀ s) :
    Keeps kb s₀ (State.writeDetour s t e v) := by
  unfold State.writeDetour
  repeat' (first
    | with_reducible assumption
    | with_reducible first | refine State.modRtr_keeps (hk := ?_) .. | refine State.log_keeps (hk := ?_) ..
    | with_reducible refine Keeps.ite ?_ ?_
    | split
    | (with_reducible refine Keeps.lit ?_; dsimp only [State.kept]; with_reducible refine Keeps.unlit ?_))

theorem execDetourWrite_keeps {kb : Bool} {s₀ : State} (t e v : Nat) (s : State) (hk : Keeps kb s₀ s) :
    Answers (execDetourWrite t e v s) (Keeps kb s₀) := by
  unfold execDetourWrite
  repeat' (first
    | with_reducible assumption
    | with_reducible refine Answers.next ?_
    | with_reducible refine Answers.ite ?_ ?_
    | with_reducible refine State.writeDetour_keeps (hk := ?_) ..
    | dsimp only)

theorem State.rateRecompute_keeps {kb : Bool} {s₀ : State} (s : State) (hk : Keeps kb s₀ s) :
    Keeps kb s₀ (State.rateRecompute s) := by
  unfold State.rateRecompute
  repeat' (first
    | with_reducible assumption
    | with_reducible first | refine State.modPurse_keeps (hk := ?_) .. | refine State.modPwr_keeps (hk := ?_) ..
    | with_reducible refine Keeps.foldl (fun _ _ _ => ?_) ?_
    | split
    | (with_reducible refine Keeps.lit ?_; dsimp only [State.kept]; with_reducible refine Keeps.unlit ?_)
    | dsimp only)

theorem execPurseRefillTick_keeps {s₀ : State} (s : State) (hk : Keeps false s₀ s) :
    Answers (execPurseRefillTick s) (Keeps false s₀) := by
  unfold execPurseRefillTick
  repeat' (first
    | with_reducible assumption
    | with_reducible refine Answers.next ?_
    | with_reducible first | refine State.modClusters_keeps (hk := ?_) .. | refine State.modPwr_keeps (hk := ?_) .. | refine State.reach_keeps (hk := ?_) .. | refine State.retryStart_keeps (hk := ?_) .. | refine State.rateRecompute_keeps (hk := ?_) ..
    | with_reducible refine Keeps.ite ?_ ?_
    | with_reducible refine Keeps.foldl (fun _ _ _ => ?_) ?_
    | split
    | (with_reducible refine Keeps.lit ?_; dsimp only [State.kept]; with_reducible refine Keeps.unlit ?_)
    | dsimp only)

theorem execRateRecompute_keeps {kb : Bool} {s₀ : State} (s : State) (hk : Keeps kb s₀ s) :
    Answers (execRateRecompute s) (Keeps kb s₀) := by
  unfold execRateRecompute
  repeat' (first
    | with_reducible assumption
    | with_reducible refine Answers.next ?_
    | with_reducible refine Answers.ite ?_ ?_
    | with_reducible refine State.rateRecompute_keeps (hk := ?_) ..
    | split
    | dsimp only)

theorem State.thermStep_keeps {kb : Bool} {s₀ : State} (s : State) (tmax : Int) (hk : Keeps kb s₀ s) :
    Keeps kb s₀ (State.thermStep s tmax) := by
  unfold State.thermStep
  repeat' (first
    | with_reducible assumption
    | with_reducible first | refine State.modPwr_keeps (hk := ?_) .. | refine State.log_keeps (hk := ?_) ..
    | with_reducible refine Keeps.ite ?_ ?_
    | split
    | (with_reducible refine Keeps.lit ?_; dsimp only [State.kept]; with_reducible refine Keeps.unlit ?_)
    | dsimp only)

theorem State.trip_keeps {s₀ : State} (s : State) (sensor : Nat) (hk : Keeps false s₀ s) :
    Keeps false s₀ (State.trip s sensor) := by
  unfold State.trip
  repeat' (first
    | with_reducible assumption
    | with_reducible first | refine State.modPwr_keeps (hk := ?_) .. | refine State.total_keeps (hk := ?_) .. | refine State.detect_keeps (hk := ?_) .. | refine State.enterFatal_keeps (hk := ?_) ..
    | split
    | (with_reducible refine Keeps.lit ?_; dsimp only [State.kept]; with_reducible refine Keeps.unlit ?_)
    | dsimp only)

theorem execThermalSample_keeps {s₀ : State} (ts : List Int) (s : State) (hk : Keeps false s₀ s) :
    Answers (execThermalSample ts s) (Keeps false s₀) := by
  unfold execThermalSample
  repeat' (first
    | with_reducible assumption
    | with_reducible refine Answers.next ?_
    | with_reducible refine Answers.ite ?_ ?_
    | with_reducible first | refine State.modPwr_keeps (hk := ?_) .. | refine State.thermStep_keeps (hk := ?_) .. | refine State.trip_keeps (hk := ?_) ..
    | split
    | (with_reducible refine Keeps.lit ?_; dsimp only [State.kept]; with_reducible refine Keeps.unlit ?_)
    | dsimp only)

theorem State.paceFinal_keeps {kb : Bool} {s₀ : State} (s : State) (q round demand : Nat) (hk : Keeps kb s₀ s) :
    Keeps kb s₀ (State.paceFinal s q round demand) := by
  unfold State.paceFinal
  repeat' (first
    | with_reducible assumption
    | with_reducible first | refine State.modPwr_keeps (hk := ?_) .. | refine State.streamSend_keeps (hk := ?_) ..
    | with_reducible refine Keeps.foldl (fun _ _ _ => ?_) ?_
    | split
    | (with_reducible refine Keeps.lit ?_; dsimp only [State.kept]; with_reducible refine Keeps.unlit ?_)
    | dsimp only)

theorem State.paceAdvance_keeps {kb : Bool} {s₀ : State} (s : State) (hk : Keeps kb s₀ s) :
    Keeps kb s₀ (State.paceAdvance s) := by
  unfold State.paceAdvance
  repeat' (first
    | with_reducible assumption
    | with_reducible first | refine State.modPwr_keeps (hk := ?_) .. | refine State.streamSend_keeps (hk := ?_) .. | refine State.paceFinal_keeps (hk := ?_) ..
    | split
    | (with_reducible refine Keeps.lit ?_; dsimp only [State.kept]; with_reducible refine Keeps.unlit ?_)
    | dsimp only)

theorem State.roundMissed_keeps {kb : Bool} {s₀ : State} (s : State) (hk : Keeps kb s₀ s) :
    Keeps kb s₀ (State.roundMissed s) := by
  unfold State.roundMissed
  repeat' (first
    | with_reducible assumption
    | with_reducible first | refine State.modPwr_keeps (hk := ?_) .. | refine State.span_keeps (hk := ?_) .. | refine State.logLimited_keeps (hk := ?_) ..
    | with_reducible refine Keeps.ite ?_ ?_
    | split
    | (with_reducible refine Keeps.lit ?_; dsimp only [State.kept]; with_reducible refine Keeps.unlit ?_))

theorem execPaceRound_keeps {kb : Bool} {s₀ : State} (s : State) (hk : Keeps kb s₀ s) :
    Answers (execPaceRound s) (Keeps kb s₀) := by
  unfold execPaceRound
  repeat' (first
    | with_reducible assumption
    | with_reducible refine Answers.next ?_
    | with_reducible refine Answers.ite ?_ ?_
    | with_reducible first | refine State.modClusters_keeps (hk := ?_) .. | refine State.modPwr_keeps (hk := ?_) .. | refine State.paceAdvance_keeps (hk := ?_) .. | refine State.roundMissed_keeps (hk := ?_) ..
    | split
    | (with_reducible refine Keeps.lit ?_; dsimp only [State.kept]; with_reducible refine Keeps.unlit ?_)
    | dsimp only)

theorem execPaceCombine_keeps {kb : Bool} {s₀ : State} (p : Packet) (s : State) (hk : Keeps kb s₀ s) :
    Answers (execPaceCombine p s) (Keeps kb s₀) := by
  unfold execPaceCombine
  repeat' (first
    | with_reducible assumption
    | with_reducible refine Answers.next ?_
    | with_reducible refine Answers.ite ?_ ?_
    | with_reducible first | refine State.modPwr_keeps (hk := ?_) .. | refine State.consumed_keeps (hk := ?_) .. | refine State.badPacket_keeps (hk := ?_) .. | refine State.paceAdvance_keeps (hk := ?_) ..
    | split
    | (with_reducible refine Keeps.lit ?_; dsimp only [State.kept]; with_reducible refine Keeps.unlit ?_)
    | dsimp only)

theorem execPaceBroadcast_keeps {kb : Bool} {s₀ : State} (p : Packet) (s : State) (hk : Keeps kb s₀ s) :
    Answers (execPaceBroadcast p s) (Keeps kb s₀) := by
  unfold execPaceBroadcast
  repeat' (first
    | with_reducible assumption
    | with_reducible refine Answers.next ?_
    | with_reducible refine Answers.ite ?_ ?_
    | with_reducible first | refine State.consumed_keeps (hk := ?_) .. | refine State.badPacket_keeps (hk := ?_) .. | refine State.paceFinal_keeps (hk := ?_) ..
    | dsimp only)

theorem execPowerBrake_keeps {kb : Bool} {s₀ : State} (s : State) (hk : Keeps kb s₀ s) :
    Answers (execPowerBrake s) (Keeps kb s₀) := by
  unfold execPowerBrake
  repeat' (first
    | with_reducible assumption
    | with_reducible refine Answers.next ?_
    | with_reducible refine Answers.ite ?_ ?_
    | with_reducible first | refine State.modClusters_keeps (hk := ?_) .. | refine State.modPwr_keeps (hk := ?_) .. | refine State.total_keeps (hk := ?_) .. | refine State.log_keeps (hk := ?_) ..
    | split
    | (with_reducible refine Keeps.lit ?_; dsimp only [State.kept]; with_reducible refine Keeps.unlit ?_)
    | dsimp only)

theorem execPowerBrakeRelease_keeps {kb : Bool} {s₀ : State} (s : State) (hk : Keeps kb s₀ s) :
    Answers (execPowerBrakeRelease s) (Keeps kb s₀) := by
  unfold execPowerBrakeRelease
  repeat' (first
    | with_reducible assumption
    | with_reducible refine Answers.next ?_
    | with_reducible refine State.modPwr_keeps (hk := ?_) ..
    | split
    | (with_reducible refine Keeps.lit ?_; dsimp only [State.kept]; with_reducible refine Keeps.unlit ?_)
    | dsimp only)

theorem execClockGate_keeps {kb : Bool} {s₀ : State} (c : Nat) (s : State) (hk : Keeps kb s₀ s) :
    Answers (execClockGate c s) (Keeps kb s₀) := by
  unfold execClockGate
  repeat' (first
    | with_reducible assumption
    | with_reducible refine Answers.next ?_
    | with_reducible refine Answers.ite ?_ ?_
    | with_reducible first | refine State.modClock_keeps (hk := ?_) .. | refine State.reach_keeps (hk := ?_) ..
    | split
    | (with_reducible refine Keeps.lit ?_; dsimp only [State.kept]; with_reducible refine Keeps.unlit ?_)
    | dsimp only)

theorem execPowerGate_keeps {kb : Bool} {s₀ : State} (c : Nat) (s : State) (hk : Keeps kb s₀ s) :
    Answers (execPowerGate c s) (Keeps kb s₀) := by
  unfold execPowerGate
  repeat' (first
    | with_reducible assumption
    | with_reducible refine Answers.next ?_
    | with_reducible refine Answers.ite ?_ ?_
    | with_reducible first | refine State.modClock_keeps (hk := ?_) .. | refine State.reach_keeps (hk := ?_) ..
    | split
    | (with_reducible refine Keeps.lit ?_; dsimp only [State.kept]; with_reducible refine Keeps.unlit ?_)
    | dsimp only)

theorem execClusterWake_keeps {kb : Bool} {s₀ : State} (c : Nat) (s : State) (hk : Keeps kb s₀ s) :
    Answers (execClusterWake c s) (Keeps kb s₀) := by
  unfold execClusterWake
  repeat' (first
    | with_reducible assumption
    | with_reducible refine Answers.next ?_
    | with_reducible refine Answers.ite ?_ ?_
    | with_reducible refine State.wake_keeps (hk := ?_) ..
    | dsimp only)

theorem State.setHoldRun_keeps {kb : Bool} {s₀ : State} (s : State) (c : Nat) (v : Bool) (hk : Keeps kb s₀ s) :
    Keeps kb s₀ (State.setHoldRun s c v) := by
  unfold State.setHoldRun
  repeat' (first
    | with_reducible assumption
    | with_reducible first | refine State.modClock_keeps (hk := ?_) .. | refine State.using_keeps (hk := ?_) .. | refine State.wake_keeps (hk := ?_) ..
    | with_reducible refine Keeps.ite ?_ ?_
    | split
    | (with_reducible refine Keeps.lit ?_; dsimp only [State.kept]; with_reducible refine Keeps.unlit ?_)
    | dsimp only)

theorem execHoldRun_keeps {kb : Bool} {s₀ : State} (c : Nat) (v : Bool) (s : State) (hk : Keeps kb s₀ s) :
    Answers (execHoldRun c v s) (Keeps kb s₀) := by
  unfold execHoldRun
  repeat' (first
    | with_reducible assumption
    | with_reducible refine Answers.next ?_
    | with_reducible refine Answers.ite ?_ ?_
    | with_reducible refine State.setHoldRun_keeps (hk := ?_) ..
    | dsimp only)

theorem execDeepIdleEntry_keeps {kb : Bool} {s₀ : State} (s : State) (hk : Keeps kb s₀ s) :
    Answers (execDeepIdleEntry s) (Keeps kb s₀) := by
  unfold execDeepIdleEntry
  repeat' (first
    | with_reducible assumption
    | with_reducible refine Answers.next ?_
    | with_reducible refine Answers.ite ?_ ?_
    | with_reducible first | refine State.modPwr_keeps (hk := ?_) .. | refine State.reach_keeps (hk := ?_) ..
    | split
    | (with_reducible refine Keeps.lit ?_; dsimp only [State.kept]; with_reducible refine Keeps.unlit ?_)
    | dsimp only)

theorem execDeepIdleExit_keeps {kb : Bool} {s₀ : State} (s : State) (hk : Keeps kb s₀ s) :
    Answers (execDeepIdleExit s) (Keeps kb s₀) := by
  unfold execDeepIdleExit
  repeat' (first
    | with_reducible assumption
    | with_reducible refine Answers.next ?_
    | with_reducible refine State.deepExit_keeps (hk := ?_) ..
    | dsimp only)

theorem execAvsUpdate_keeps {kb : Bool} {s₀ : State} (c : Nat) (up : Option Bool) (margin : Nat) (ok : Bool) (s : State) (hk : Keeps kb s₀ s) :
    Answers (execAvsUpdate c up margin ok s) (Keeps kb s₀) := by
  unfold execAvsUpdate
  repeat' (first
    | with_reducible assumption
    | with_reducible refine Answers.next ?_
    | with_reducible refine Answers.ite ?_ ?_
    | with_reducible first | refine State.modClock_keeps (hk := ?_) .. | refine State.emit_keeps (hk := ?_) .. | refine State.spanMin_keeps (hk := ?_) .. | refine State.log_keeps (hk := ?_) ..
    | split
    | (with_reducible refine Keeps.lit ?_; dsimp only [State.kept]; with_reducible refine Keeps.unlit ?_)
    | dsimp only)

theorem execDroopDetect_keeps {kb : Bool} {s₀ : State} (c : Nat) (s : State) (hk : Keeps kb s₀ s) :
    Answers (execDroopDetect c s) (Keeps kb s₀) := by
  unfold execDroopDetect
  repeat' (first
    | with_reducible assumption
    | with_reducible refine Answers.next ?_
    | with_reducible refine Answers.ite ?_ ?_
    | with_reducible first | refine State.modClock_keeps (hk := ?_) .. | refine State.span_keeps (hk := ?_) ..
    | split
    | (with_reducible refine Keeps.lit ?_; dsimp only [State.kept]; with_reducible refine Keeps.unlit ?_)
    | dsimp only)

theorem State.railRead_keeps {kb : Bool} {s₀ : State} (s : State) (x : Nat × Option (Nat × Nat)) (hk : Keeps kb s₀ s) :
    Keeps kb s₀ (State.railRead s x) := by
  unfold State.railRead
  repeat' (first
    | with_reducible assumption
    | with_reducible first | refine State.span_keeps (hk := ?_) .. | refine State.spanMin_keeps (hk := ?_) .. | refine State.log_keeps (hk := ?_) ..
    | with_reducible refine Keeps.ite ?_ ?_
    | split
    | (with_reducible refine Keeps.lit ?_; dsimp only [State.kept]; with_reducible refine Keeps.unlit ?_)
    | dsimp only)

theorem State.dayMilli_keeps {kb : Bool} {s₀ : State} (s : State) (c : Nat) (hk : Keeps kb s₀ s) :
    Keeps kb s₀ (State.dayMilli s c) := by
  unfold State.dayMilli
  repeat' (first
    | with_reducible assumption
    | with_reducible refine State.day_keeps (hk := ?_) ..
    | dsimp only)

theorem State.daySample_keeps {kb : Bool} {s₀ : State} (s : State) (mw : Nat) (hk : Keeps kb s₀ s) :
    Keeps kb s₀ (State.daySample s mw) := by
  unfold State.daySample
  repeat' (first
    | with_reducible assumption
    | with_reducible first | refine State.day_keeps (hk := ?_) .. | refine State.dayMilli_keeps (hk := ?_) ..
    | with_reducible refine Keeps.foldl (fun _ _ _ => ?_) ?_
    | (with_reducible refine Keeps.lit ?_; dsimp only [State.kept]; with_reducible refine Keeps.unlit ?_)
    | dsimp only)

theorem State.railReads_keeps {kb : Bool} {s₀ : State} (s : State) (xs : List (Nat × Option (Nat × Nat))) (hk : Keeps kb s₀ s) :
    Keeps kb s₀ (State.railReads s xs) := by
  unfold State.railReads
  repeat' (first
    | with_reducible assumption
    | with_reducible refine State.railRead_keeps (hk := ?_) ..
    | with_reducible refine Keeps.foldl (fun _ _ _ => ?_) ?_
    | split)

theorem State.powerRead_keeps {kb : Bool} {s₀ : State} (s : State) (hk : Keeps kb s₀ s) :
    Keeps kb s₀ (State.powerRead s) := by
  unfold State.powerRead
  repeat' (first
    | with_reducible assumption
    | with_reducible first | refine State.modPwr_keeps (hk := ?_) .. | refine State.span_keeps (hk := ?_) .. | refine State.total_keeps (hk := ?_) .. | refine State.daySample_keeps (hk := ?_) ..
    | split
    | (with_reducible refine Keeps.lit ?_; dsimp only [State.kept]; with_reducible refine Keeps.unlit ?_)
    | dsimp only)

theorem execRegulatorRead_keeps {kb : Bool} {s₀ : State} (xs : List (Nat × Option (Nat × Nat))) (s : State) (hk : Keeps kb s₀ s) :
    Answers (execRegulatorRead xs s) (Keeps kb s₀) := by
  unfold execRegulatorRead
  repeat' (first
    | with_reducible assumption
    | with_reducible refine Answers.next ?_
    | with_reducible first | refine State.railReads_keeps (hk := ?_) .. | refine State.powerRead_keeps (hk := ?_) ..
    | dsimp only)

theorem execRailUndervoltage_keeps {kb : Bool} {s₀ : State} (r : Nat) (s : State) (hk : Keeps kb s₀ s) :
    Answers (execRailUndervoltage r s) (Keeps kb s₀) := by
  unfold execRailUndervoltage
  repeat' (first
    | with_reducible assumption
    | with_reducible refine Answers.next ?_
    | with_reducible refine Answers.ite ?_ ?_
    | with_reducible first | refine State.modClock_keeps (hk := ?_) .. | refine State.span_keeps (hk := ?_) .. | refine State.detect_keeps (hk := ?_) ..
    | split
    | (with_reducible refine Keeps.lit ?_; dsimp only [State.kept]; with_reducible refine Keeps.unlit ?_)
    | dsimp only)

theorem execRailRecovery_keeps {kb : Bool} {s₀ : State} (r : Nat) (s : State) (hk : Keeps kb s₀ s) :
    Answers (execRailRecovery r s) (Keeps kb s₀) := by
  unfold execRailRecovery
  repeat' (first
    | with_reducible assumption
    | with_reducible refine Answers.next ?_
    | with_reducible refine Answers.ite ?_ ?_
    | with_reducible first | refine State.modClock_keeps (hk := ?_) .. | refine State.closeWindow_keeps (hk := ?_) ..
    | split
    | (with_reducible refine Keeps.lit ?_; dsimp only [State.kept]; with_reducible refine Keeps.unlit ?_)
    | dsimp only)

theorem State.clusterOff_keeps {kb : Bool} {s₀ : State} (s : State) (c : Nat) (hk : Keeps kb s₀ s) :
    Keeps kb s₀ (State.clusterOff s c) := by
  unfold State.clusterOff
  repeat' (first
    | with_reducible assumption
    | with_reducible first | refine State.modClock_keeps (hk := ?_) .. | refine State.modUnit_keeps (hk := ?_) .. | refine State.fencesDone_keeps (hk := ?_) .. | refine State.haltSeq_keeps (hk := ?_) .. | refine State.clearCores_keeps (hk := ?_) ..
    | split
    | (with_reducible refine Keeps.lit ?_; dsimp only [State.kept]; with_reducible refine Keeps.unlit ?_)
    | dsimp only)

theorem execRailFault_keeps {s₀ : State} (r : Nat) (report : Bool) (s : State) (hk : Keeps false s₀ s) :
    Answers (execRailFault r report s) (Keeps false s₀) := by
  unfold execRailFault
  repeat' (first
    | with_reducible assumption
    | with_reducible refine Answers.next ?_
    | with_reducible refine Answers.ite ?_ ?_
    | with_reducible first | refine State.detect_keeps (hk := ?_) .. | refine State.closeWindow_keeps (hk := ?_) .. | refine State.enterFatal_keeps (hk := ?_) .. | refine State.clusterOff_keeps (hk := ?_) ..
    | with_reducible refine Keeps.ite ?_ ?_
    | (with_reducible refine Keeps.lit ?_; dsimp only [State.kept]; with_reducible refine Keeps.unlit ?_)
    | dsimp only)

theorem State.cdcEnds_keeps {kb : Bool} {s₀ : State} (s : State) (d : Desc) (hk : Keeps kb s₀ s) :
    Keeps kb s₀ (State.cdcEnds s d) := by
  unfold State.cdcEnds
  repeat' (first
    | with_reducible assumption
    | with_reducible first | refine State.complete_keeps (hk := ?_) .. | refine State.forgetDesc_keeps (hk := ?_) .. | refine State.haltSeq_keeps (hk := ?_) ..
    | with_reducible refine Keeps.ite ?_ ?_
    | with_reducible refine Keeps.foldl (fun _ _ _ => ?_) ?_
    | split
    | dsimp only)

theorem execCdcTimeout_keeps {kb : Bool} {s₀ : State} (domain addr : Nat) (cmd : Option Desc) (s : State) (hk : Keeps kb s₀ s) :
    Answers (execCdcTimeout domain addr cmd s) (Keeps kb s₀) := by
  unfold execCdcTimeout
  repeat' (first
    | with_reducible assumption
    | with_reducible refine Answers.next ?_
    | with_reducible first | refine State.reach_keeps (hk := ?_) .. | refine State.cdcTimeout_keeps (hk := ?_) .. | refine State.crossed_keeps (hk := ?_) .. | refine State.cdcEnds_keeps (hk := ?_) ..
    | split
    | (with_reducible refine Keeps.lit ?_; dsimp only [State.kept]; with_reducible refine Keeps.unlit ?_)
    | dsimp only)

theorem State.compareUnit_keeps {kb : Bool} {s₀ : State} (s : State) (u : UnitName) (hk : Keeps kb s₀ s) :
    Keeps kb s₀ (State.compareUnit s u) := by
  unfold State.compareUnit
  repeat' (first
    | with_reducible assumption
    | with_reducible first | refine State.modUnit_keeps (hk := ?_) .. | refine State.log_keeps (hk := ?_) ..
    | with_reducible refine Keeps.ite ?_ ?_
    | split
    | (with_reducible refine Keeps.lit ?_; dsimp only [State.kept]; with_reducible refine Keeps.unlit ?_))

theorem execStateCompare_keeps {kb : Bool} {s₀ : State} (s : State) (hk : Keeps kb s₀ s) :
    Answers (execStateCompare s) (Keeps kb s₀) := by
  unfold execStateCompare
  repeat' (first
    | with_reducible assumption
    | with_reducible refine Answers.next ?_
    | with_reducible refine State.compareUnit_keeps (hk := ?_) ..
    | with_reducible refine Keeps.foldl (fun _ _ _ => ?_) ?_
    | dsimp only)

theorem execCoreWatchdog_keeps {s₀ : State} (p : Nat) (s : State) (hk : Keeps false s₀ s) :
    Answers (execCoreWatchdog p s) (Keeps false s₀) := by
  unfold execCoreWatchdog
  repeat' (first
    | with_reducible assumption
    | with_reducible refine Answers.next ?_
    | with_reducible refine Answers.ite ?_ ?_
    | with_reducible first | refine State.detect_keeps (hk := ?_) .. | refine State.closeWindow_keeps (hk := ?_) .. | refine State.contain_keeps (hk := ?_) .. | refine State.coreReset_keeps (hk := ?_) ..
    | dsimp only)

theorem execSeqWatchdog_keeps {kb : Bool} {s₀ : State} (c : Nat) (s : State) (hk : Keeps kb s₀ s) :
    Answers (execSeqWatchdog c s) (Keeps kb s₀) := by
  unfold execSeqWatchdog
  repeat' (first
    | with_reducible assumption
    | with_reducible refine Answers.next ?_
    | with_reducible refine Answers.ite ?_ ?_
    | with_reducible first | refine State.detect_keeps (hk := ?_) .. | refine State.closeWindow_keeps (hk := ?_) .. | refine State.contain_keeps (hk := ?_) .. | refine State.clusterReset_keeps (hk := ?_) ..
    | dsimp only)

theorem execBucelRestart_keeps {kb : Bool} {s₀ : State} (s : State) (hk : Keeps kb s₀ s) :
    Answers (execBucelRestart s) (Keeps kb s₀) := by
  unfold execBucelRestart
  repeat' (first
    | with_reducible assumption
    | with_reducible refine Answers.next ?_
    | with_reducible first | refine State.modMgmt_keeps (hk := ?_) .. | refine State.detect_keeps (hk := ?_) ..
    | split
    | (with_reducible refine Keeps.lit ?_; dsimp only [State.kept]; with_reducible refine Keeps.unlit ?_)
    | dsimp only)

theorem execBucelRestartComplete_keeps {kb : Bool} {s₀ : State} (s : State) (hk : Keeps kb s₀ s) : Answers (execBucelRestartComplete s) (Keeps kb s₀) := by
  unfold execBucelRestartComplete
  split
  · refine Answers.next (Keeps.foldl (fun t r h => State.ledgerAppend_keeps _ _ _ _ h) (State.modMgmt_keeps _ _ ?_))
    exact Keeps.record _ _ (by unfold Ledger.cores; exact List.prefix_refl _) hk
  · exact Answers.next hk

theorem State.endRights_keeps {kb : Bool} {s₀ : State} (s : State) (hk : Keeps kb s₀ s) :
    Keeps kb s₀ (State.endRights s) := by
  unfold State.endRights
  repeat' (first
    | with_reducible assumption
    | with_reducible first | refine State.modSec_keeps (hk := ?_) .. | refine State.leaveMaintenance_keeps (hk := ?_) ..
    | split
    | (with_reducible refine Keeps.lit ?_; dsimp only [State.kept]; with_reducible refine Keeps.unlit ?_))

theorem execSecurityAlarm_keeps {s₀ : State} (sensor : Nat) (s : State) (hk : Keeps false s₀ s) :
    Answers (execSecurityAlarm sensor s) (Keeps false s₀) := by
  unfold execSecurityAlarm
  repeat' (first
    | with_reducible assumption
    | with_reducible refine Answers.next ?_
    | with_reducible first | refine State.modSec_keeps (hk := ?_) .. | refine State.detect_keeps (hk := ?_) .. | refine State.enterFatal_keeps (hk := ?_) .. | refine State.endRights_keeps (hk := ?_) ..
    | split
    | (with_reducible refine Keeps.lit ?_; dsimp only [State.kept]; with_reducible refine Keeps.unlit ?_)
    | dsimp only)

theorem State.injectDenied_keeps {kb : Bool} {s₀ : State} (s : State) (hk : Keeps kb s₀ s) :
    Keeps kb s₀ (State.injectDenied s) := by
  unfold State.injectDenied
  repeat' (first
    | with_reducible assumption
    | with_reducible refine State.logLimited_keeps (hk := ?_) ..)

theorem State.writeInjCtrl_keeps {kb : Bool} {s₀ : State} (s : State) (v : Nat) (hk : Keeps kb s₀ s) :
    Keeps kb s₀ (State.writeInjCtrl s v) := by
  unfold State.writeInjCtrl
  repeat' (first
    | with_reducible assumption
    | with_reducible first | refine State.modErr_keeps (hk := ?_) .. | refine State.injectDenied_keeps (hk := ?_) ..
    | with_reducible refine Keeps.ite ?_ ?_
    | split
    | (with_reducible refine Keeps.lit ?_; dsimp only [State.kept]; with_reducible refine Keeps.unlit ?_))

theorem State.writeInjAddr_keeps {kb : Bool} {s₀ : State} (s : State) (v : W64) (hk : Keeps kb s₀ s) :
    Keeps kb s₀ (State.writeInjAddr s v) := by
  unfold State.writeInjAddr
  repeat' (first
    | with_reducible assumption
    | with_reducible first | refine State.modErr_keeps (hk := ?_) .. | refine State.injectDenied_keeps (hk := ?_) ..
    | with_reducible refine Keeps.ite ?_ ?_
    | split
    | (with_reducible refine Keeps.lit ?_; dsimp only [State.kept]; with_reducible refine Keeps.unlit ?_))

theorem execInjectArm_keeps {kb : Bool} {s₀ : State} (ctrl : Nat) (addr : W64) (s : State) (hk : Keeps kb s₀ s) :
    Answers (execInjectArm ctrl addr s) (Keeps kb s₀) := by
  unfold execInjectArm
  repeat' (first
    | with_reducible assumption
    | with_reducible refine Answers.next ?_
    | with_reducible first | refine State.writeInjCtrl_keeps (hk := ?_) .. | refine State.writeInjAddr_keeps (hk := ?_) ..
    | dsimp only)

theorem execHostLinkError_keeps {kb : Bool} {s₀ : State} (corrected : Bool) (s : State) (hk : Keeps kb s₀ s) :
    Answers (execHostLinkError corrected s) (Keeps kb s₀) := by
  unfold execHostLinkError
  repeat' (first
    | with_reducible assumption
    | with_reducible refine Answers.next ?_
    | with_reducible refine Answers.ite ?_ ?_
    | with_reducible first | refine State.span_keeps (hk := ?_) .. | refine State.detect_keeps (hk := ?_) ..
    | dsimp only)

end Sys2Proof.Machine
end

