-- ==== Sys2Proof/Laws/KeepsHost.lean ====
section
/-!
SUPPORT. `Keeps` of every operation on the state, part: the host interface and its registers, link commands.
-/
set_option autoImplicit false
set_option linter.unusedVariables false
namespace Sys2Proof.Machine

theorem State.modRingOf_keeps {kb : Bool} {s₀ : State} (s : State) (x : RingName) (f : Ring → Ring) (hk : Keeps kb s₀ s) :
    Keeps kb s₀ (State.modRingOf s x f) := by
  unfold State.modRingOf
  repeat' (first
    | with_reducible assumption
    | with_reducible first | refine State.modRing_keeps (hk := ?_) .. | refine State.modHost_keeps (hk := ?_) ..
    | split
    | (with_reducible refine Keeps.lit ?_; dsimp only [State.kept]; with_reducible refine Keeps.unlit ?_))

theorem State.judgeSq_keeps {kb : Bool} {s₀ : State} (s : State) (n pi : Nat) (hk : Keeps kb s₀ s) :
    Keeps kb s₀ (State.judgeSq s n pi) := by
  unfold State.judgeSq
  repeat' (first
    | with_reducible assumption
    | with_reducible first | refine State.modRing_keeps (hk := ?_) .. | refine State.log_keeps (hk := ?_) ..
    | with_reducible refine Keeps.ite ?_ ?_
    | split
    | (with_reducible refine Keeps.lit ?_; dsimp only [State.kept]; with_reducible refine Keeps.unlit ?_)
    | dsimp only)

theorem State.judgeCq_keeps {kb : Bool} {s₀ : State} (s : State) (x : RingName) (ci : Nat) (hk : Keeps kb s₀ s) :
    Keeps kb s₀ (State.judgeCq s x ci) := by
  unfold State.judgeCq
  repeat' (first
    | with_reducible assumption
    | with_reducible first | refine State.log_keeps (hk := ?_) .. | refine State.flushHeld_keeps (hk := ?_) .. | refine State.modRingOf_keeps (hk := ?_) ..
    | with_reducible refine Keeps.ite ?_ ?_
    | split
    | (with_reducible refine Keeps.lit ?_; dsimp only [State.kept]; with_reducible refine Keeps.unlit ?_)
    | dsimp only)

theorem State.lineRead_keeps {kb : Bool} {s₀ : State} (s : State) (x : RingName) (pi ci : Nat) (hk : Keeps kb s₀ s) :
    Keeps kb s₀ (State.lineRead s x pi ci) := by
  unfold State.lineRead
  repeat' (first
    | with_reducible assumption
    | with_reducible first | refine State.modRingOf_keeps (hk := ?_) .. | refine State.judgeSq_keeps (hk := ?_) .. | refine State.judgeCq_keeps (hk := ?_) ..
    | split
    | (with_reducible refine Keeps.lit ?_; dsimp only [State.kept]; with_reducible refine Keeps.unlit ?_)
    | dsimp only)

theorem execDoorbellPoll_keeps {kb : Bool} {s₀ : State} (x : RingName) (pi ci : Nat) (s : State) (hk : Keeps kb s₀ s) :
    Answers (execDoorbellPoll x pi ci s) (Keeps kb s₀) := by
  unfold execDoorbellPoll
  repeat' (first
    | with_reducible assumption
    | with_reducible refine Answers.next ?_
    | with_reducible refine State.lineRead_keeps (hk := ?_) ..
    | with_reducible refine Keeps.ite ?_ ?_
    | dsimp only)

theorem execLnMessage_keeps {kb : Bool} {s₀ : State} (x : RingName) (pi ci : Nat) (s : State) (hk : Keeps kb s₀ s) :
    Answers (execLnMessage x pi ci s) (Keeps kb s₀) := by
  unfold execLnMessage
  repeat' (first
    | with_reducible assumption
    | with_reducible refine Answers.next ?_
    | with_reducible first | refine State.emit_keeps (hk := ?_) .. | refine State.lineRead_keeps (hk := ?_) ..
    | with_reducible refine Keeps.ite ?_ ?_
    | dsimp only)

theorem execDescriptorFetch_keeps {kb : Bool} {s₀ : State} (n : Nat) (raw : List Byte) (s : State) (hk : Keeps kb s₀ s) :
    Answers (execDescriptorFetch n raw s) (Keeps kb s₀) := by
  unfold execDescriptorFetch
  repeat' (first
    | with_reducible assumption
    | with_reducible refine Answers.next ?_
    | with_reducible first | refine State.modRing_keeps (hk := ?_) .. | refine State.modHost_keeps (hk := ?_) .. | refine State.deepExit_keeps (hk := ?_) ..
    | with_reducible refine Keeps.ite ?_ ?_
    | split
    | (with_reducible refine Keeps.lit ?_; dsimp only [State.kept]; with_reducible refine Keeps.unlit ?_)
    | dsimp only)

theorem State.beginOn_keeps {kb : Bool} {s₀ : State} (s : State) (d : Desc) (c : Nat) (hk : Keeps kb s₀ s) :
    Keeps kb s₀ (State.beginOn s d c) := by
  unfold State.beginOn
  repeat' (first
    | with_reducible assumption
    | with_reducible first | refine State.modSeq_keeps (hk := ?_) .. | refine State.modPurse_keeps (hk := ?_) .. | refine State.modCore_keeps (hk := ?_) .. | refine State.modHost_keeps (hk := ?_) .. | refine State.wake_keeps (hk := ?_) .. | refine State.advance_keeps (hk := ?_) ..
    | with_reducible refine Keeps.foldl (fun _ _ _ => ?_) ?_
    | split
    | (with_reducible refine Keeps.lit ?_; dsimp only [State.kept]; with_reducible refine Keeps.unlit ?_)
    | dsimp only)

theorem execDispatch_keeps {s₀ : State} (n : Nat) (s : State) (hk : Keeps false s₀ s) :
    Answers (execDispatch n s) (Keeps false s₀) := by
  unfold execDispatch
  repeat' (first
    | with_reducible assumption
    | with_reducible refine Answers.next ?_
    | with_reducible refine Answers.ite ?_ ?_
    | with_reducible first | refine State.modRing_keeps (hk := ?_) .. | refine State.modHost_keeps (hk := ?_) .. | refine State.complete_keeps (hk := ?_) .. | refine State.cfgEnds_keeps (hk := ?_) .. | refine State.timeSettles_keeps (hk := ?_) .. | refine State.beginOn_keeps (hk := ?_) ..
    | with_reducible refine Keeps.foldl (fun _ _ _ => ?_) ?_
    | split
    | (with_reducible refine Keeps.lit ?_; dsimp only [State.kept]; with_reducible refine Keeps.unlit ?_)
    | dsimp only)

theorem execMsixAgeExpiry_keeps {kb : Bool} {s₀ : State} (v : Nat) (s : State) (hk : Keeps kb s₀ s) :
    Answers (execMsixAgeExpiry v s) (Keeps kb s₀) := by
  unfold execMsixAgeExpiry
  repeat' (first
    | with_reducible assumption
    | with_reducible refine Answers.next ?_
    | with_reducible first | refine State.reach_keeps (hk := ?_) .. | refine State.fire_keeps (hk := ?_) ..
    | with_reducible refine Keeps.ite ?_ ?_
    | dsimp only)

theorem State.maskVector_keeps {kb : Bool} {s₀ : State} (s : State) (v : Nat) (m : Bool) (hk : Keeps kb s₀ s) :
    Keeps kb s₀ (State.maskVector s v m) := by
  unfold State.maskVector
  repeat' (first
    | with_reducible assumption
    | with_reducible first | refine State.modHost_keeps (hk := ?_) .. | refine State.emit_keeps (hk := ?_) ..
    | with_reducible refine Keeps.ite ?_ ?_
    | split
    | (with_reducible refine Keeps.lit ?_; dsimp only [State.kept]; with_reducible refine Keeps.unlit ?_)
    | dsimp only)

theorem execMsixVectorUnmask_keeps {kb : Bool} {s₀ : State} (v : Nat) (s : State) (hk : Keeps kb s₀ s) :
    Answers (execMsixVectorUnmask v s) (Keeps kb s₀) := by
  unfold execMsixVectorUnmask
  repeat' (first
    | with_reducible assumption
    | with_reducible refine Answers.next ?_
    | with_reducible refine State.maskVector_keeps (hk := ?_) ..
    | with_reducible refine Keeps.ite ?_ ?_
    | dsimp only)

theorem State.settleRingOf_keeps {kb : Bool} {s₀ : State} (s : State) (arr0 : RingName) (hk : Keeps kb s₀ s) :
    Keeps kb s₀ (State.settleRingOf s arr0) := by
  unfold State.settleRingOf
  repeat' (first
    | with_reducible assumption
    | with_reducible first | refine State.settleRing_keeps (hk := ?_) .. | refine State.modRingOf_keeps (hk := ?_) ..
    | with_reducible refine Keeps.ite ?_ ?_
    | split
    | (with_reducible refine Keeps.lit ?_; dsimp only [State.kept]; with_reducible refine Keeps.unlit ?_))

theorem State.writeEnable_keeps {kb : Bool} {s₀ : State} (s : State) (x : RingName) (v : Bool) (hk : Keeps kb s₀ s) :
    Keeps kb s₀ (State.writeEnable s x v) := by
  unfold State.writeEnable
  repeat' (first
    | with_reducible assumption
    | with_reducible first | refine State.emit_keeps (hk := ?_) .. | refine State.modRingOf_keeps (hk := ?_) .. | refine State.settleRingOf_keeps (hk := ?_) ..
    | with_reducible refine Keeps.ite ?_ ?_
    | split
    | (with_reducible refine Keeps.lit ?_; dsimp only [State.kept]; with_reducible refine Keeps.unlit ?_)
    | dsimp only)

theorem State.writeRingReset_keeps {kb : Bool} {s₀ : State} (s : State) (x : RingName) (hk : Keeps kb s₀ s) :
    Keeps kb s₀ (State.writeRingReset s x) := by
  unfold State.writeRingReset
  repeat' (first
    | with_reducible assumption
    | with_reducible refine State.modRingOf_keeps (hk := ?_) ..
    | split
    | (with_reducible refine Keeps.lit ?_; dsimp only [State.kept]; with_reducible refine Keeps.unlit ?_))

theorem execRingEnable_keeps {kb : Bool} {s₀ : State} (x : RingName) (v : Bool) (s : State) (hk : Keeps kb s₀ s) :
    Answers (execRingEnable x v s) (Keeps kb s₀) := by
  unfold execRingEnable
  repeat' (first
    | with_reducible assumption
    | with_reducible refine Answers.next ?_
    | with_reducible refine State.writeEnable_keeps (hk := ?_) ..
    | with_reducible refine Keeps.ite ?_ ?_
    | dsimp only)

theorem execRingReset_keeps {kb : Bool} {s₀ : State} (x : RingName) (s : State) (hk : Keeps kb s₀ s) :
    Answers (execRingReset x s) (Keeps kb s₀) := by
  unfold execRingReset
  repeat' (first
    | with_reducible assumption
    | with_reducible refine Answers.next ?_
    | with_reducible refine State.writeRingReset_keeps (hk := ?_) ..
    | with_reducible refine Keeps.ite ?_ ?_
    | dsimp only)

theorem State.hostAddrFault_keeps {kb : Bool} {s₀ : State} (s : State) (hk : Keeps kb s₀ s) :
    Keeps kb s₀ (State.hostAddrFault s) := by
  unfold State.hostAddrFault
  repeat' (first
    | with_reducible assumption
    | with_reducible refine State.logLimited_keeps (hk := ?_) ..)

theorem State.hostPoison_keeps {kb : Bool} {s₀ : State} (s : State) (a : Nat) (hk : Keeps kb s₀ s) :
    Keeps kb s₀ (State.hostPoison s a) := by
  unfold State.hostPoison
  repeat' (first
    | with_reducible assumption
    | with_reducible refine State.log_keeps (hk := ?_) ..)

theorem execBar2Read_keeps {s₀ : State} (off n : Nat) (ecc : List (Nat × EccResult)) (s : State) (hk : Keeps false s₀ s) :
    Answers (execBar2Read off n ecc s) (Keeps false s₀) := by
  unfold execBar2Read
  repeat' (first
    | with_reducible assumption
    | with_reducible refine Answers.next ?_
    | with_reducible refine Answers.ite ?_ ?_
    | with_reducible first | refine State.emit_keeps (hk := ?_) .. | refine State.fresh_keeps (hk := ?_) .. | refine State.eccAll_keeps (hk := ?_) .. | refine State.deepExit_keeps (hk := ?_) .. | refine State.hostAddrFault_keeps (hk := ?_) .. | refine State.hostPoison_keeps (hk := ?_) ..
    | with_reducible refine Keeps.ite ?_ ?_
    | split
    | dsimp only)

theorem execBar2Write_keeps {s₀ : State} (off : Nat) (data : List Byte) (poisoned : Bool) (s : State) (hk : Keeps false s₀ s) :
    Answers (execBar2Write off data poisoned s) (Keeps false s₀) := by
  unfold execBar2Write
  repeat' (first
    | with_reducible assumption
    | with_reducible refine Answers.next ?_
    | with_reducible refine Answers.ite ?_ ?_
    | with_reducible first | refine State.writeMem_keeps (hk := ?_) .. | refine State.log_keeps (hk := ?_) .. | refine State.deepExit_keeps (hk := ?_) .. | refine State.hostAddrFault_keeps (hk := ?_) ..
    | with_reducible refine Keeps.ite ?_ ?_
    | split
    | dsimp only)

theorem State.clearRc_keeps {kb : Bool} {s₀ : State} (s : State) (r : Reg) (on : Nat → Bool) (hk : Keeps kb s₀ s) :
    Keeps kb s₀ (State.clearRc s r on) := by
  unfold State.clearRc
  repeat' (first
    | with_reducible assumption
    | with_reducible first | refine State.modCluster_keeps (hk := ?_) .. | refine State.modClock_keeps (hk := ?_) .. | refine State.modLink_keeps (hk := ?_) .. | refine State.modDisc_keeps (hk := ?_) .. | refine State.modChannel_keeps (hk := ?_) .. | refine State.modErr_keeps (hk := ?_) .. | refine State.modCol_keeps (hk := ?_) .. | refine State.modRtr_keeps (hk := ?_) .. | refine State.modPwr_keeps (hk := ?_) .. | refine State.modMgmt_keeps (hk := ?_) .. | refine State.modRingOf_keeps (hk := ?_) ..
    | with_reducible refine Keeps.ite ?_ ?_
    | split
    | (with_reducible refine Keeps.lit ?_; dsimp only [State.kept]; with_reducible refine Keeps.unlit ?_))

theorem State.regWord_keeps {kb : Bool} {s₀ : State} (s : State) (slot : Nat) (r : Reg) (w : Nat) (on : Nat → Bool) (hk : Keeps kb s₀ s) :
    Keeps kb s₀ (State.regWord s slot r w on).2 := by
  unfold State.regWord
  repeat' (first
    | with_reducible assumption
    | with_reducible refine State.clearRc_keeps (hk := ?_) ..
    | with_reducible refine Keeps.ite2 ?_ ?_
    | split
    | (with_reducible refine Keeps.lit ?_; dsimp only [State.kept]; with_reducible refine Keeps.unlit ?_)
    | dsimp only)

theorem State.readReg_keeps {kb : Bool} {s₀ : State} (s : State) (off n : Nat) (hk : Keeps kb s₀ s) :
    Keeps kb s₀ (State.readReg s off n).2 := by
  unfold State.readReg
  repeat' (first
    | with_reducible assumption
    | with_reducible first | refine State.reach_keeps (hk := ?_) .. | refine State.cdcTimeout_keeps (hk := ?_) .. | refine State.regWord_keeps (hk := ?_) ..
    | with_reducible refine Keeps.ite2 ?_ ?_
    | split
    | dsimp only)

theorem State.validFrame_keeps {kb : Bool} {s₀ : State} (s : State) (n : Nat) (ack : Option Nat) (hk : Keeps kb s₀ s) :
    Keeps kb s₀ (State.validFrame s n ack) := by
  unfold State.validFrame
  repeat' (first
    | with_reducible assumption
    | with_reducible first | refine State.modLink_keeps (hk := ?_) .. | refine State.acked_keeps (hk := ?_) ..
    | split
    | (with_reducible refine Keeps.lit ?_; dsimp only [State.kept]; with_reducible refine Keeps.unlit ?_))

theorem State.acceptFrame_keeps {kb : Bool} {s₀ : State} (s : State) (n vc : Nat) (p : Packet) (failing : Bool) (mem : BufferEcc) (hk : Keeps kb s₀ s) :
    Keeps kb s₀ (State.acceptFrame s n vc p failing mem) := by
  unfold State.acceptFrame
  repeat' (first
    | with_reducible assumption
    | with_reducible first | refine State.modLink_keeps (hk := ?_) .. | refine State.sendCtl_keeps (hk := ?_) .. | refine State.routerTakes_keeps (hk := ?_) ..
    | split
    | (with_reducible refine Keeps.lit ?_; dsimp only [State.kept]; with_reducible refine Keeps.unlit ?_)
    | dsimp only)

theorem State.sendNak_keeps {kb : Bool} {s₀ : State} (s : State) (n cause : Nat) (hk : Keeps kb s₀ s) :
    Keeps kb s₀ (State.sendNak s n cause) := by
  unfold State.sendNak
  repeat' (first
    | with_reducible assumption
    | with_reducible first | refine State.modLink_keeps (hk := ?_) .. | refine State.sendCtl_keeps (hk := ?_) ..
    | with_reducible refine Keeps.ite ?_ ?_
    | split
    | (with_reducible refine Keeps.lit ?_; dsimp only [State.kept]; with_reducible refine Keeps.unlit ?_)
    | dsimp only)

theorem State.packetFrame_keeps {s₀ : State} (s : State) (n vc seq : Nat) (ack : Option Nat) (p : Packet) (fecOk crcOk : Bool) (mem : BufferEcc) (hk : Keeps false s₀ s) :
    Keeps false s₀ (State.packetFrame s n vc seq ack p fecOk crcOk mem) := by
  unfold State.packetFrame
  repeat' (first
    | with_reducible assumption
    | with_reducible first | refine State.modLink_keeps (hk := ?_) .. | refine State.detect_keeps (hk := ?_) .. | refine State.laneFail_keeps (hk := ?_) .. | refine State.validFrame_keeps (hk := ?_) .. | refine State.acceptFrame_keeps (hk := ?_) .. | refine State.sendNak_keeps (hk := ?_) ..
    | with_reducible refine Keeps.ite ?_ ?_
    | split
    | (with_reducible refine Keeps.lit ?_; dsimp only [State.kept]; with_reducible refine Keeps.unlit ?_)
    | dsimp only)

theorem execAck_keeps {kb : Bool} {s₀ : State} (n : Nat) (ack : Option Nat) (s : State) (hk : Keeps kb s₀ s) :
    Answers (execAck n ack s) (Keeps kb s₀) := by
  unfold execAck
  repeat' (first
    | with_reducible assumption
    | with_reducible refine Answers.next ?_
    | with_reducible refine State.validFrame_keeps (hk := ?_) ..
    | with_reducible refine Keeps.ite ?_ ?_
    | dsimp only)

theorem execNak_keeps {kb : Bool} {s₀ : State} (n expected : Nat) (ack : Option Nat) (s : State) (hk : Keeps kb s₀ s) :
    Answers (execNak n expected ack s) (Keeps kb s₀) := by
  unfold execNak
  repeat' (first
    | with_reducible assumption
    | with_reducible refine Answers.next ?_
    | with_reducible first | refine State.replay_keeps (hk := ?_) .. | refine State.validFrame_keeps (hk := ?_) ..
    | with_reducible refine Keeps.ite ?_ ?_
    | dsimp only)

theorem execAckTimeout_keeps {kb : Bool} {s₀ : State} (n : Nat) (s : State) (hk : Keeps kb s₀ s) :
    Answers (execAckTimeout n s) (Keeps kb s₀) := by
  unfold execAckTimeout
  repeat' (first
    | with_reducible assumption
    | with_reducible refine Answers.next ?_
    | with_reducible refine State.replay_keeps (hk := ?_) ..
    | with_reducible refine Keeps.ite ?_ ?_
    | dsimp only)

theorem execCredit_keeps {kb : Bool} {s₀ : State} (n vc : Nat) (totals : List Nat) (ack : Option Nat) (s : State) (hk : Keeps kb s₀ s) :
    Answers (execCredit n vc totals ack s) (Keeps kb s₀) := by
  unfold execCredit
  repeat' (first
    | with_reducible assumption
    | with_reducible refine Answers.next ?_
    | with_reducible first | refine State.modLink_keeps (hk := ?_) .. | refine State.pump_keeps (hk := ?_) .. | refine State.validFrame_keeps (hk := ?_) ..
    | with_reducible refine Keeps.ite ?_ ?_
    | split
    | (with_reducible refine Keeps.lit ?_; dsimp only [State.kept]; with_reducible refine Keeps.unlit ?_)
    | dsimp only)

theorem execCreditQuery_keeps {kb : Bool} {s₀ : State} (n : Nat) (ack : Option Nat) (s : State) (hk : Keeps kb s₀ s) :
    Answers (execCreditQuery n ack s) (Keeps kb s₀) := by
  unfold execCreditQuery
  repeat' (first
    | with_reducible assumption
    | with_reducible refine Answers.next ?_
    | with_reducible first | refine State.sendCtl_keeps (hk := ?_) .. | refine State.validFrame_keeps (hk := ?_) ..
    | with_reducible refine Keeps.ite ?_ ?_
    | dsimp only)

theorem execCreditLate_keeps {kb : Bool} {s₀ : State} (n : Nat) (s : State) (hk : Keeps kb s₀ s) :
    Answers (execCreditLate n s) (Keeps kb s₀) := by
  unfold execCreditLate
  repeat' (first
    | with_reducible assumption
    | with_reducible refine Answers.next ?_
    | with_reducible first | refine State.modLink_keeps (hk := ?_) .. | refine State.span_keeps (hk := ?_) .. | refine State.sendCtl_keeps (hk := ?_) ..
    | with_reducible refine Keeps.ite ?_ ?_
    | split
    | (with_reducible refine Keeps.lit ?_; dsimp only [State.kept]; with_reducible refine Keeps.unlit ?_)
    | dsimp only)

theorem execKeepalive_keeps {kb : Bool} {s₀ : State} (n : Nat) (ack : Option Nat) (s : State) (hk : Keeps kb s₀ s) :
    Answers (execKeepalive n ack s) (Keeps kb s₀) := by
  unfold execKeepalive
  repeat' (first
    | with_reducible assumption
    | with_reducible refine Answers.next ?_
    | with_reducible refine State.validFrame_keeps (hk := ?_) ..
    | with_reducible refine Keeps.ite ?_ ?_
    | dsimp only)

theorem execKeepaliveSend_keeps {kb : Bool} {s₀ : State} (n : Nat) (s : State) (hk : Keeps kb s₀ s) :
    Answers (execKeepaliveSend n s) (Keeps kb s₀) := by
  unfold execKeepaliveSend
  repeat' (first
    | with_reducible assumption
    | with_reducible refine Answers.next ?_
    | with_reducible first | refine State.modLink_keeps (hk := ?_) .. | refine State.sendCtl_keeps (hk := ?_) ..
    | with_reducible refine Keeps.ite ?_ ?_
    | split
    | (with_reducible refine Keeps.lit ?_; dsimp only [State.kept]; with_reducible refine Keeps.unlit ?_)
    | dsimp only)

theorem State.badFrame_keeps {kb : Bool} {s₀ : State} (s : State) (n : Nat) (packet : Bool) (hk : Keeps kb s₀ s) :
    Keeps kb s₀ (State.badFrame s n packet) := by
  unfold State.badFrame
  repeat' (first
    | with_reducible assumption
    | with_reducible first | refine State.modLink_keeps (hk := ?_) .. | refine State.span_keeps (hk := ?_) .. | refine State.sendNak_keeps (hk := ?_) ..
    | with_reducible refine Keeps.ite ?_ ?_
    | split
    | (with_reducible refine Keeps.lit ?_; dsimp only [State.kept]; with_reducible refine Keeps.unlit ?_))

theorem execLinkPartnerLost_keeps {s₀ : State} (n : Nat) (s : State) (hk : Keeps false s₀ s) :
    Answers (execLinkPartnerLost n s) (Keeps false s₀) := by
  unfold execLinkPartnerLost
  repeat' (first
    | with_reducible assumption
    | with_reducible refine Answers.next ?_
    | with_reducible first | refine State.modUnit_keeps (hk := ?_) .. | refine State.reach_keeps (hk := ?_) .. | refine State.detect_keeps (hk := ?_) .. | refine State.closeWindow_keeps (hk := ?_) .. | refine State.linkLeaves_keeps (hk := ?_) ..
    | with_reducible refine Keeps.ite ?_ ?_
    | split
    | (with_reducible refine Keeps.lit ?_; dsimp only [State.kept]; with_reducible refine Keeps.unlit ?_)
    | dsimp only)

theorem execSignalDetect_keeps {s₀ : State} (n : Nat) (s : State) (hk : Keeps false s₀ s) :
    Answers (execSignalDetect n s) (Keeps false s₀) := by
  unfold execSignalDetect
  repeat' (first
    | with_reducible assumption
    | with_reducible refine Answers.next ?_
    | with_reducible refine State.train_keeps (hk := ?_) ..
    | with_reducible refine Keeps.ite ?_ ?_
    | dsimp only)

theorem State.enterKeepalive_keeps {kb : Bool} {s₀ : State} (s : State) (n : Nat) (hk : Keeps kb s₀ s) :
    Keeps kb s₀ (State.enterKeepalive s n) := by
  unfold State.enterKeepalive
  repeat' (first
    | with_reducible assumption
    | with_reducible refine State.modLink_keeps (hk := ?_) ..
    | with_reducible refine Keeps.ite ?_ ?_
    | split
    | (with_reducible refine Keeps.lit ?_; dsimp only [State.kept]; with_reducible refine Keeps.unlit ?_)
    | dsimp only)

theorem State.askKeepalive_keeps {kb : Bool} {s₀ : State} (s : State) (n : Nat) (hk : Keeps kb s₀ s) :
    Keeps kb s₀ (State.askKeepalive s n) := by
  unfold State.askKeepalive
  repeat' (first
    | with_reducible assumption
    | with_reducible first | refine State.modLink_keeps (hk := ?_) .. | refine State.sendCtl_keeps (hk := ?_) .. | refine State.enterKeepalive_keeps (hk := ?_) ..
    | with_reducible refine Keeps.ite ?_ ?_
    | split
    | (with_reducible refine Keeps.lit ?_; dsimp only [State.kept]; with_reducible refine Keeps.unlit ?_))

theorem State.heldKeepalive_keeps {kb : Bool} {s₀ : State} (s : State) (n : Nat) (hk : Keeps kb s₀ s) :
    Keeps kb s₀ (State.heldKeepalive s n) := by
  unfold State.heldKeepalive
  repeat' (first
    | with_reducible assumption
    | with_reducible refine State.askKeepalive_keeps (hk := ?_) ..
    | with_reducible refine Keeps.ite ?_ ?_)

theorem execLinkUp_keeps {s₀ : State} (n mode half : Nat) (floors : List Nat) (calTx calRx : Nat) (s : State) (hk : Keeps false s₀ s) :
    Answers (execLinkUp n mode half floors calTx calRx s) (Keeps false s₀) := by
  unfold execLinkUp
  repeat' (first
    | with_reducible assumption
    | with_reducible refine Answers.next ?_
    | with_reducible first | refine State.modLink_keeps (hk := ?_) .. | refine State.modRep_keeps (hk := ?_) .. | refine State.modUnit_keeps (hk := ?_) .. | refine State.setDisc_keeps (hk := ?_) .. | refine State.modLane_keeps (hk := ?_) .. | refine State.heldKeepalive_keeps (hk := ?_) ..
    | with_reducible refine Keeps.ite ?_ ?_
    | with_reducible refine Keeps.foldl (fun _ _ _ => ?_) ?_
    | split
    | (with_reducible refine Keeps.lit ?_; dsimp only [State.kept]; with_reducible refine Keeps.unlit ?_)
    | dsimp only)

theorem execTrainingTimeout_keeps {kb : Bool} {s₀ : State} (n : Nat) (s : State) (hk : Keeps kb s₀ s) :
    Answers (execTrainingTimeout n s) (Keeps kb s₀) := by
  unfold execTrainingTimeout
  repeat' (first
    | with_reducible assumption
    | with_reducible refine Answers.next ?_
    | with_reducible first | refine State.modLink_keeps (hk := ?_) .. | refine State.reach_keeps (hk := ?_) .. | refine State.log_keeps (hk := ?_) ..
    | with_reducible refine Keeps.ite ?_ ?_
    | split
    | (with_reducible refine Keeps.lit ?_; dsimp only [State.kept]; with_reducible refine Keeps.unlit ?_)
    | dsimp only)

theorem execTrainingRetry_keeps {s₀ : State} (n : Nat) (s : State) (hk : Keeps false s₀ s) :
    Answers (execTrainingRetry n s) (Keeps false s₀) := by
  unfold execTrainingRetry
  repeat' (first
    | with_reducible assumption
    | with_reducible refine Answers.next ?_
    | with_reducible refine State.train_keeps (hk := ?_) ..
    | with_reducible refine Keeps.ite ?_ ?_
    | dsimp only)

theorem execRetrain_keeps {s₀ : State} (n : Nat) (s : State) (hk : Keeps false s₀ s) :
    Answers (execRetrain n s) (Keeps false s₀) := by
  unfold execRetrain
  repeat' (first
    | with_reducible assumption
    | with_reducible refine Answers.next ?_
    | with_reducible refine State.retrain_keeps (hk := ?_) ..
    | dsimp only)

theorem execForceKeepalive_keeps {kb : Bool} {s₀ : State} (n : Nat) (v : Bool) (s : State) (hk : Keeps kb s₀ s) :
    Answers (execForceKeepalive n v s) (Keeps kb s₀) := by
  unfold execForceKeepalive
  repeat' (first
    | with_reducible assumption
    | with_reducible refine Answers.next ?_
    | with_reducible first | refine State.modLink_keeps (hk := ?_) .. | refine State.askKeepalive_keeps (hk := ?_) ..
    | with_reducible refine Keeps.ite ?_ ?_
    | split
    | (with_reducible refine Keeps.lit ?_; dsimp only [State.kept]; with_reducible refine Keeps.unlit ?_)
    | dsimp only)

theorem execKeepaliveIdle_keeps {kb : Bool} {s₀ : State} (n : Nat) (s : State) (hk : Keeps kb s₀ s) :
    Answers (execKeepaliveIdle n s) (Keeps kb s₀) := by
  unfold execKeepaliveIdle
  repeat' (first
    | with_reducible assumption
    | with_reducible refine Answers.next ?_
    | with_reducible first | refine State.reach_keeps (hk := ?_) .. | refine State.askKeepalive_keeps (hk := ?_) ..
    | with_reducible refine Keeps.ite ?_ ?_
    | dsimp only)

theorem execPower_keeps {kb : Bool} {s₀ : State} (n request : Nat) (ack : Option Nat) (s : State) (hk : Keeps kb s₀ s) :
    Answers (execPower n request ack s) (Keeps kb s₀) := by
  unfold execPower
  repeat' (first
    | with_reducible assumption
    | with_reducible refine Answers.next ?_
    | with_reducible first | refine State.modLink_keeps (hk := ?_) .. | refine State.sendCtl_keeps (hk := ?_) .. | refine State.validFrame_keeps (hk := ?_) .. | refine State.enterKeepalive_keeps (hk := ?_) ..
    | with_reducible refine Keeps.ite ?_ ?_
    | split
    | (with_reducible refine Keeps.lit ?_; dsimp only [State.kept]; with_reducible refine Keeps.unlit ?_)
    | dsimp only)

theorem execKeepaliveExit_keeps {kb : Bool} {s₀ : State} (n : Nat) (s : State) (hk : Keeps kb s₀ s) :
    Answers (execKeepaliveExit n s) (Keeps kb s₀) := by
  unfold execKeepaliveExit
  repeat' (first
    | with_reducible assumption
    | with_reducible refine Answers.next ?_
    | with_reducible first | refine State.modLink_keeps (hk := ?_) .. | refine State.pump_keeps (hk := ?_) .. | refine State.heldKeepalive_keeps (hk := ?_) ..
    | with_reducible refine Keeps.ite ?_ ?_
    | split
    | (with_reducible refine Keeps.lit ?_; dsimp only [State.kept]; with_reducible refine Keeps.unlit ?_)
    | dsimp only)

theorem State.laneSample_keeps {s₀ : State} (s : State) (n l v h : Nat) (ser : W32) (corr unc : Nat) (hk : Keeps false s₀ s) :
    Keeps false s₀ (State.laneSample s n l v h ser corr unc) := by
  unfold State.laneSample
  repeat' (first
    | with_reducible assumption
    | with_reducible first | refine State.span_keeps (hk := ?_) .. | refine State.spanMin_keeps (hk := ?_) .. | refine State.log_keeps (hk := ?_) .. | refine State.modLane_keeps (hk := ?_) .. | refine State.laneFail_keeps (hk := ?_) ..
    | with_reducible refine Keeps.ite ?_ ?_
    | split
    | (with_reducible refine Keeps.lit ?_; dsimp only [State.kept]; with_reducible refine Keeps.unlit ?_)
    | dsimp only)

theorem execLaneSample_keeps {s₀ : State} (n : Nat) (xs : List (Nat × Nat × Nat × W32 × Nat × Nat)) (s : State) (hk : Keeps false s₀ s) :
    Answers (execLaneSample n xs s) (Keeps false s₀) := by
  unfold execLaneSample
  repeat' (first
    | with_reducible assumption
    | with_reducible refine Answers.next ?_
    | with_reducible refine State.laneSample_keeps (hk := ?_) ..
    | with_reducible refine Keeps.ite ?_ ?_
    | with_reducible refine Keeps.foldl (fun _ _ _ => ?_) ?_
    | split
    | dsimp only)

theorem execLaneFail_keeps {s₀ : State} (n l cause : Nat) (s : State) (hk : Keeps false s₀ s) :
    Answers (execLaneFail n l cause s) (Keeps false s₀) := by
  unfold execLaneFail
  repeat' (first
    | with_reducible assumption
    | with_reducible refine Answers.next ?_
    | with_reducible refine State.laneFail_keeps (hk := ?_) ..
    | dsimp only)

theorem execSpareReq_keeps {kb : Bool} {s₀ : State} (n l : Nat) (ack : Option Nat) (s : State) (hk : Keeps kb s₀ s) :
    Answers (execSpareReq n l ack s) (Keeps kb s₀) := by
  unfold execSpareReq
  repeat' (first
    | with_reducible assumption
    | with_reducible refine Answers.next ?_
    | with_reducible first | refine State.modRep_keeps (hk := ?_) .. | refine State.sendCtl_keeps (hk := ?_) .. | refine State.switchCw_keeps (hk := ?_) .. | refine State.validFrame_keeps (hk := ?_) ..
    | with_reducible refine Keeps.ite ?_ ?_
    | split
    | (with_reducible refine Keeps.lit ?_; dsimp only [State.kept]; with_reducible refine Keeps.unlit ?_)
    | dsimp only)

theorem execSpareAck_keeps {kb : Bool} {s₀ : State} (n l cw : Nat) (ack : Option Nat) (s : State) (hk : Keeps kb s₀ s) :
    Answers (execSpareAck n l cw ack s) (Keeps kb s₀) := by
  unfold execSpareAck
  repeat' (first
    | with_reducible assumption
    | with_reducible refine Answers.next ?_
    | with_reducible first | refine State.modRep_keeps (hk := ?_) .. | refine State.validFrame_keeps (hk := ?_) ..
    | with_reducible refine Keeps.ite ?_ ?_
    | split
    | (with_reducible refine Keeps.lit ?_; dsimp only [State.kept]; with_reducible refine Keeps.unlit ?_)
    | dsimp only)

theorem State.reachCw_keeps {kb : Bool} {s₀ : State} (s : State) (n cw : Nat) (hk : Keeps kb s₀ s) :
    Keeps kb s₀ (State.reachCw s n cw) := by
  unfold State.reachCw
  repeat' (first
    | with_reducible assumption
    | with_reducible refine State.reach_keeps (hk := ?_) ..)

theorem execSpareSwitch_keeps {kb : Bool} {s₀ : State} (n : Nat) (s : State) (hk : Keeps kb s₀ s) :
    Answers (execSpareSwitch n s) (Keeps kb s₀) := by
  unfold execSpareSwitch
  repeat' (first
    | with_reducible assumption
    | with_reducible refine Answers.next ?_
    | with_reducible first | refine State.modLink_keeps (hk := ?_) .. | refine State.modRep_keeps (hk := ?_) .. | refine State.reachCw_keeps (hk := ?_) ..
    | with_reducible refine Keeps.ite ?_ ?_
    | split
    | (with_reducible refine Keeps.lit ?_; dsimp only [State.kept]; with_reducible refine Keeps.unlit ?_)
    | dsimp only)

theorem execSparingDone_keeps {kb : Bool} {s₀ : State} (n : Nat) (s : State) (hk : Keeps kb s₀ s) :
    Answers (execSparingDone n s) (Keeps kb s₀) := by
  unfold execSparingDone
  repeat' (first
    | with_reducible assumption
    | with_reducible refine Answers.next ?_
    | with_reducible first | refine State.modLink_keeps (hk := ?_) .. | refine State.modRep_keeps (hk := ?_) .. | refine State.total_keeps (hk := ?_) .. | refine State.closeWindow_keeps (hk := ?_) .. | refine State.pump_keeps (hk := ?_) .. | refine State.replay_keeps (hk := ?_) ..
    | with_reducible refine Keeps.ite ?_ ?_
    | split
    | (with_reducible refine Keeps.lit ?_; dsimp only [State.kept]; with_reducible refine Keeps.unlit ?_)
    | dsimp only)

theorem execSparingTimeout_keeps {s₀ : State} (n : Nat) (s : State) (hk : Keeps false s₀ s) :
    Answers (execSparingTimeout n s) (Keeps false s₀) := by
  unfold execSparingTimeout
  repeat' (first
    | with_reducible assumption
    | with_reducible refine Answers.next ?_
    | with_reducible first | refine State.closeWindow_keeps (hk := ?_) .. | refine State.retrain_keeps (hk := ?_) ..
    | with_reducible refine Keeps.ite ?_ ?_
    | dsimp only)

theorem execWidth_keeps {kb : Bool} {s₀ : State} (n mode half : Nat) (isAck : Bool) (cw : Nat) (ack : Option Nat) (s : State) (hk : Keeps kb s₀ s) :
    Answers (execWidth n mode half isAck cw ack s) (Keeps kb s₀) := by
  unfold execWidth
  repeat' (first
    | with_reducible assumption
    | with_reducible refine Answers.next ?_
    | with_reducible first | refine State.modRep_keeps (hk := ?_) .. | refine State.sendCtl_keeps (hk := ?_) .. | refine State.switchCw_keeps (hk := ?_) .. | refine State.validFrame_keeps (hk := ?_) ..
    | with_reducible refine Keeps.ite ?_ ?_
    | split
    | (with_reducible refine Keeps.lit ?_; dsimp only [State.kept]; with_reducible refine Keeps.unlit ?_)
    | dsimp only)

theorem execWidthSwitch_keeps {kb : Bool} {s₀ : State} (n : Nat) (s : State) (hk : Keeps kb s₀ s) :
    Answers (execWidthSwitch n s) (Keeps kb s₀) := by
  unfold execWidthSwitch
  repeat' (first
    | with_reducible assumption
    | with_reducible refine Answers.next ?_
    | with_reducible first | refine State.modLink_keeps (hk := ?_) .. | refine State.modRep_keeps (hk := ?_) .. | refine State.closeWindow_keeps (hk := ?_) .. | refine State.pump_keeps (hk := ?_) .. | refine State.replay_keeps (hk := ?_) .. | refine State.reachCw_keeps (hk := ?_) ..
    | split
    | (with_reducible refine Keeps.lit ?_; dsimp only [State.kept]; with_reducible refine Keeps.unlit ?_)
    | dsimp only)

theorem State.reachTap_keeps {kb : Bool} {s₀ : State} (s : State) (t : Tab Nat) (tap : Nat) (hk : Keeps kb s₀ s) :
    Keeps kb s₀ (State.reachTap s t tap) := by
  unfold State.reachTap
  repeat' (first
    | with_reducible assumption
    | with_reducible refine State.reach_keeps (hk := ?_) ..
    | split
    | (with_reducible refine Keeps.lit ?_; dsimp only [State.kept]; with_reducible refine Keeps.unlit ?_))

theorem execEq_keeps {kb : Bool} {s₀ : State} (n l request tap : Nat) (ack : Option Nat) (s : State) (hk : Keeps kb s₀ s) :
    Answers (execEq n l request tap ack s) (Keeps kb s₀) := by
  unfold execEq
  repeat' (first
    | with_reducible assumption
    | with_reducible refine Answers.next ?_
    | with_reducible first | refine State.fresh_keeps (hk := ?_) .. | refine State.sendCtl_keeps (hk := ?_) .. | refine State.modLane_keeps (hk := ?_) .. | refine State.validFrame_keeps (hk := ?_) .. | refine State.reachTap_keeps (hk := ?_) ..
    | with_reducible refine Keeps.ite ?_ ?_
    | split
    | (with_reducible refine Keeps.lit ?_; dsimp only [State.kept]; with_reducible refine Keeps.unlit ?_)
    | dsimp only)

theorem execEqStep_keeps {kb : Bool} {s₀ : State} (n l tap : Nat) (up own : Bool) (s : State) (hk : Keeps kb s₀ s) :
    Answers (execEqStep n l tap up own s) (Keeps kb s₀) := by
  unfold execEqStep
  repeat' (first
    | with_reducible assumption
    | with_reducible refine Answers.next ?_
    | with_reducible first | refine State.sendCtl_keeps (hk := ?_) .. | refine State.modLane_keeps (hk := ?_) .. | refine State.reachTap_keeps (hk := ?_) ..
    | with_reducible refine Keeps.ite ?_ ?_
    | split
    | (with_reducible refine Keeps.lit ?_; dsimp only [State.kept]; with_reducible refine Keeps.unlit ?_)
    | dsimp only)

theorem State.stamp_keeps {kb : Bool} {s₀ : State} (s : State) (at16 : Nat) (hk : Keeps kb s₀ s) :
    Keeps kb s₀ (State.stamp s at16).2 := by
  unfold State.stamp
  repeat' (first
    | with_reducible assumption
    | with_reducible refine State.reach_keeps (hk := ?_) ..
    | dsimp only)

theorem execTimeExchange_keeps {kb : Bool} {s₀ : State} (at16 : Nat) (s : State) (hk : Keeps kb s₀ s) :
    Answers (execTimeExchange at16 s) (Keeps kb s₀) := by
  unfold execTimeExchange
  repeat' (first
    | with_reducible assumption
    | with_reducible refine Answers.next ?_
    | with_reducible first | refine State.modRep_keeps (hk := ?_) .. | refine State.sendCtl_keeps (hk := ?_) .. | refine State.stamp_keeps (hk := ?_) ..
    | with_reducible refine Keeps.ite ?_ ?_
    | split
    | (with_reducible refine Keeps.lit ?_; dsimp only [State.kept]; with_reducible refine Keeps.unlit ?_)
    | dsimp only)

theorem execTimeReq_keeps {kb : Bool} {s₀ : State} (n exchange at16 send16 : Nat) (ack : Option Nat) (s : State) (hk : Keeps kb s₀ s) :
    Answers (execTimeReq n exchange at16 send16 ack s) (Keeps kb s₀) := by
  unfold execTimeReq
  repeat' (first
    | with_reducible assumption
    | with_reducible refine Answers.next ?_
    | with_reducible first | refine State.sendCtl_keeps (hk := ?_) .. | refine State.validFrame_keeps (hk := ?_) .. | refine State.stamp_keeps (hk := ?_) ..
    | with_reducible refine Keeps.ite ?_ ?_
    | split
    | dsimp only)

theorem State.servo_keeps {kb : Bool} {s₀ : State} (s : State) (offset : Int) (hk : Keeps kb s₀ s) :
    Keeps kb s₀ (State.servo s offset) := by
  unfold State.servo
  repeat' (first
    | with_reducible assumption
    | with_reducible first | refine State.modTime_keeps (hk := ?_) .. | refine State.slewAt_keeps (hk := ?_) .. | refine State.fresh_keeps (hk := ?_) .. | refine State.log_keeps (hk := ?_) ..
    | with_reducible refine Keeps.ite ?_ ?_
    | split
    | (with_reducible refine Keeps.lit ?_; dsimp only [State.kept]; with_reducible refine Keeps.unlit ?_)
    | dsimp only)

theorem execTimeRsp_keeps {kb : Bool} {s₀ : State} (n exchange t2 t3 at16 : Nat) (ack : Option Nat) (s : State) (hk : Keeps kb s₀ s) :
    Answers (execTimeRsp n exchange t2 t3 at16 ack s) (Keeps kb s₀) := by
  unfold execTimeRsp
  repeat' (first
    | with_reducible assumption
    | with_reducible refine Answers.next ?_
    | with_reducible first | refine State.modLink_keeps (hk := ?_) .. | refine State.modRep_keeps (hk := ?_) .. | refine State.modTime_keeps (hk := ?_) .. | refine State.setTime_keeps (hk := ?_) .. | refine State.validFrame_keeps (hk := ?_) .. | refine State.stamp_keeps (hk := ?_) .. | refine State.servo_keeps (hk := ?_) ..
    | with_reducible refine Keeps.ite ?_ ?_
    | split
    | (with_reducible refine Keeps.lit ?_; dsimp only [State.kept]; with_reducible refine Keeps.unlit ?_)
    | dsimp only)

theorem execPacketFrame_keeps {s₀ : State} (n : Nat) (blocks : List Block) (fecOk : Bool) (mem : BufferEcc) (s : State) (hk : Keeps false s₀ s) :
    Answers (execPacketFrame n blocks fecOk mem s) (Keeps false s₀) := by
  unfold execPacketFrame
  repeat' (first
    | with_reducible assumption
    | with_reducible refine Answers.next ?_
    | with_reducible refine Answers.ite ?_ ?_
    | with_reducible first | refine State.packetFrame_keeps (hk := ?_) .. | refine execAck_keeps (hk := ?_) .. | refine execNak_keeps (hk := ?_) .. | refine execCredit_keeps (hk := ?_) .. | refine execCreditQuery_keeps (hk := ?_) .. | refine execKeepalive_keeps (hk := ?_) .. | refine State.badFrame_keeps (hk := ?_) .. | refine execPower_keeps (hk := ?_) .. | refine execSpareReq_keeps (hk := ?_) .. | refine execSpareAck_keeps (hk := ?_) .. | refine execWidth_keeps (hk := ?_) .. | refine execEq_keeps (hk := ?_) .. | refine execTimeReq_keeps (hk := ?_) .. | refine execTimeRsp_keeps (hk := ?_) ..
    | split
    | dsimp only)

theorem State.writeRingCtrl_keeps {kb : Bool} {s₀ : State} (s : State) (x : RingName) (n hit : Nat) (hk : Keeps kb s₀ s) :
    Keeps kb s₀ (State.writeRingCtrl s x n hit) := by
  unfold State.writeRingCtrl
  repeat' (first
    | with_reducible assumption
    | with_reducible first | refine State.modRingOf_keeps (hk := ?_) .. | refine State.writeEnable_keeps (hk := ?_) .. | refine State.writeRingReset_keeps (hk := ?_) ..
    | with_reducible refine Keeps.ite ?_ ?_
    | split
    | (with_reducible refine Keeps.lit ?_; dsimp only [State.kept]; with_reducible refine Keeps.unlit ?_)
    | dsimp only)

theorem State.writeBase_keeps {kb : Bool} {s₀ : State} (s : State) (x : RingName) (f : Ring → Ring) (hk : Keeps kb s₀ s) :
    Keeps kb s₀ (State.writeBase s x f) := by
  unfold State.writeBase
  repeat' (first
    | with_reducible assumption
    | with_reducible refine State.modRingOf_keeps (hk := ?_) ..
    | with_reducible refine Keeps.ite ?_ ?_)

theorem State.writeLn_keeps {kb : Bool} {s₀ : State} (s : State) (v : Bool) (hk : Keeps kb s₀ s) :
    Keeps kb s₀ (State.writeLn s v) := by
  unfold State.writeLn
  repeat' (first
    | with_reducible assumption
    | with_reducible first | refine State.modHost_keeps (hk := ?_) .. | refine State.emit_keeps (hk := ?_) .. | refine State.modRingOf_keeps (hk := ?_) ..
    | with_reducible refine Keeps.ite ?_ ?_
    | with_reducible refine Keeps.foldl (fun _ _ _ => ?_) ?_
    | split
    | (with_reducible refine Keeps.lit ?_; dsimp only [State.kept]; with_reducible refine Keeps.unlit ?_)
    | dsimp only)

theorem State.writeWatch_keeps {kb : Bool} {s₀ : State} (s : State) (n : Nat) (hk : Keeps kb s₀ s) :
    Keeps kb s₀ (State.writeWatch s n) := by
  unfold State.writeWatch
  repeat' (first
    | with_reducible assumption
    | with_reducible first | refine State.modHost_keeps (hk := ?_) .. | refine State.writeLn_keeps (hk := ?_) ..
    | split
    | (with_reducible refine Keeps.lit ?_; dsimp only [State.kept]; with_reducible refine Keeps.unlit ?_)
    | dsimp only)

theorem State.writeMsixMod_keeps {kb : Bool} {s₀ : State} (s : State) (v n : Nat) (hk : Keeps kb s₀ s) :
    Keeps kb s₀ (State.writeMsixMod s v n) := by
  unfold State.writeMsixMod
  repeat' (first
    | with_reducible assumption
    | with_reducible first | refine State.modHost_keeps (hk := ?_) .. | refine State.fire_keeps (hk := ?_) ..
    | with_reducible refine Keeps.ite ?_ ?_
    | split
    | (with_reducible refine Keeps.lit ?_; dsimp only [State.kept]; with_reducible refine Keeps.unlit ?_)
    | dsimp only)

theorem State.writeMsixEntry_keeps {kb : Bool} {s₀ : State} (s : State) (v w n : Nat) (hk : Keeps kb s₀ s) :
    Keeps kb s₀ (State.writeMsixEntry s v w n) := by
  unfold State.writeMsixEntry
  repeat' (first
    | with_reducible assumption
    | with_reducible first | refine State.modHost_keeps (hk := ?_) .. | refine State.maskVector_keeps (hk := ?_) ..
    | with_reducible refine Keeps.ite ?_ ?_
    | split
    | (with_reducible refine Keeps.lit ?_; dsimp only [State.kept]; with_reducible refine Keeps.unlit ?_)
    | dsimp only)

theorem State.writeResetCtrl_keeps {s₀ : State} (s : State) (hit : Nat) (hk : Keeps false s₀ s) :
    Keeps false s₀ (State.writeResetCtrl s hit) := by
  unfold State.writeResetCtrl
  repeat' (first
    | with_reducible assumption
    | with_reducible first | refine State.sliceResetHere_keeps (hk := ?_) .. | refine State.clusterReset_keeps (hk := ?_) .. | refine State.coreReset_keeps (hk := ?_) .. | refine State.portReset_keeps (hk := ?_) .. | refine State.warmReset_keeps (hk := ?_) ..
    | with_reducible refine Keeps.ite ?_ ?_
    | with_reducible refine Keeps.foldl (fun _ _ _ => ?_) ?_
    | split
    | dsimp only)

theorem State.enablePort_keeps {s₀ : State} (s : State) (p : Nat) (v : Bool) (hk : Keeps false s₀ s) :
    Keeps false s₀ (State.enablePort s p v) := by
  unfold State.enablePort
  repeat' (first
    | with_reducible assumption
    | with_reducible first | refine State.modLink_keeps (hk := ?_) .. | refine State.linkLeaves_keeps (hk := ?_) ..
    | with_reducible refine Keeps.ite ?_ ?_
    | split
    | (with_reducible refine Keeps.lit ?_; dsimp only [State.kept]; with_reducible refine Keeps.unlit ?_)
    | dsimp only)

theorem State.setForceKa_keeps {kb : Bool} {s₀ : State} (s : State) (p : Nat) (v : Bool) (hk : Keeps kb s₀ s) :
    Keeps kb s₀ (State.setForceKa s p v) := by
  unfold State.setForceKa
  repeat' (first
    | with_reducible assumption
    | with_reducible first | refine State.modLink_keeps (hk := ?_) .. | refine State.askKeepalive_keeps (hk := ?_) ..
    | with_reducible refine Keeps.ite ?_ ?_
    | split
    | (with_reducible refine Keeps.lit ?_; dsimp only [State.kept]; with_reducible refine Keeps.unlit ?_)
    | dsimp only)

theorem State.writePort_keeps {s₀ : State} (s : State) (p n hit : Nat) (hk : Keeps false s₀ s) :
    Keeps false s₀ (State.writePort s p n hit) := by
  unfold State.writePort
  repeat' (first
    | with_reducible assumption
    | with_reducible first | refine State.modLink_keeps (hk := ?_) .. | refine State.retrain_keeps (hk := ?_) .. | refine State.enablePort_keeps (hk := ?_) .. | refine State.setForceKa_keeps (hk := ?_) ..
    | with_reducible refine Keeps.ite ?_ ?_
    | split
    | (with_reducible refine Keeps.lit ?_; dsimp only [State.kept]; with_reducible refine Keeps.unlit ?_)
    | dsimp only)

theorem State.writeGuardCtrl_keeps {kb : Bool} {s₀ : State} (s : State) (n hit : Nat) (hk : Keeps kb s₀ s) :
    Keeps kb s₀ (State.writeGuardCtrl s n hit) := by
  unfold State.writeGuardCtrl
  repeat' (first
    | with_reducible assumption
    | with_reducible refine State.modSet_keeps (hk := ?_) ..
    | split
    | (with_reducible refine Keeps.lit ?_; dsimp only [State.kept]; with_reducible refine Keeps.unlit ?_))

theorem State.writeSpikeParam_keeps {kb : Bool} {s₀ : State} (s : State) (n : Nat) (hk : Keeps kb s₀ s) :
    Keeps kb s₀ (State.writeSpikeParam s n) := by
  unfold State.writeSpikeParam
  repeat' (first
    | with_reducible assumption
    | with_reducible refine State.modSet_keeps (hk := ?_) ..
    | split
    | (with_reducible refine Keeps.lit ?_; dsimp only [State.kept]; with_reducible refine Keeps.unlit ?_)
    | dsimp only)

theorem State.writePwrCtrl_keeps {kb : Bool} {s₀ : State} (s : State) (n : Nat) (hk : Keeps kb s₀ s) :
    Keeps kb s₀ (State.writePwrCtrl s n) := by
  unfold State.writePwrCtrl
  repeat' (first
    | with_reducible assumption
    | with_reducible refine State.modPwr_keeps (hk := ?_) ..
    | split
    | (with_reducible refine Keeps.lit ?_; dsimp only [State.kept]; with_reducible refine Keeps.unlit ?_))

theorem State.writeTherm_keeps {kb : Bool} {s₀ : State} (s : State) (n hit : Nat) (hk : Keeps kb s₀ s) :
    Keeps kb s₀ (State.writeTherm s n hit) := by
  unfold State.writeTherm
  repeat' (first
    | with_reducible assumption
    | with_reducible refine State.modPwr_keeps (hk := ?_) ..
    | with_reducible refine Keeps.ite ?_ ?_
    | split
    | (with_reducible refine Keeps.lit ?_; dsimp only [State.kept]; with_reducible refine Keeps.unlit ?_)
    | dsimp only)

theorem State.writeClusterCtrl_keeps {kb : Bool} {s₀ : State} (s : State) (c n : Nat) (hk : Keeps kb s₀ s) :
    Keeps kb s₀ (State.writeClusterCtrl s c n) := by
  unfold State.writeClusterCtrl
  repeat' (first
    | with_reducible assumption
    | with_reducible first | refine State.modPurse_keeps (hk := ?_) .. | refine State.setHoldRun_keeps (hk := ?_) ..
    | with_reducible refine Keeps.ite ?_ ?_
    | split
    | (with_reducible refine Keeps.lit ?_; dsimp only [State.kept]; with_reducible refine Keeps.unlit ?_)
    | dsimp only)

theorem State.clearReport_keeps {kb : Bool} {s₀ : State} (s : State) (c hit : Nat) (hk : Keeps kb s₀ s) :
    Keeps kb s₀ (State.clearReport s c hit) := by
  unfold State.clearReport
  repeat' (first
    | with_reducible assumption
    | with_reducible refine State.modCluster_keeps (hk := ?_) ..
    | with_reducible refine Keeps.ite ?_ ?_
    | split
    | (with_reducible refine Keeps.lit ?_; dsimp only [State.kept]; with_reducible refine Keeps.unlit ?_))

theorem State.writeHazMode_keeps {kb : Bool} {s₀ : State} (s : State) (c n : Nat) (hk : Keeps kb s₀ s) :
    Keeps kb s₀ (State.writeHazMode s c n) := by
  unfold State.writeHazMode
  repeat' (first
    | with_reducible assumption
    | with_reducible refine State.modCluster_keeps (hk := ?_) ..
    | with_reducible refine Keeps.ite ?_ ?_
    | split
    | (with_reducible refine Keeps.lit ?_; dsimp only [State.kept]; with_reducible refine Keeps.unlit ?_))

theorem State.debugWrite_keeps {kb : Bool} {s₀ : State} (s : State) (c : Nat) (f : Sequencer → Sequencer) (hk : Keeps kb s₀ s) :
    Keeps kb s₀ (State.debugWrite s c f) := by
  unfold State.debugWrite
  repeat' (first
    | with_reducible assumption
    | with_reducible refine State.modSeq_keeps (hk := ?_) ..
    | with_reducible refine Keeps.ite ?_ ?_)

theorem State.writeDdrCtrl_keeps {kb : Bool} {s₀ : State} (s : State) (n : Nat) (hk : Keeps kb s₀ s) :
    Keeps kb s₀ (State.writeDdrCtrl s n) := by
  unfold State.writeDdrCtrl
  repeat' (first
    | with_reducible assumption
    | with_reducible refine Keeps.ite ?_ ?_
    | (with_reducible refine Keeps.lit ?_; dsimp only [State.kept]; with_reducible refine Keeps.unlit ?_))

theorem State.writeErrStatus_keeps {kb : Bool} {s₀ : State} (s : State) (hit : Nat) (hk : Keeps kb s₀ s) :
    Keeps kb s₀ (State.writeErrStatus s hit) := by
  unfold State.writeErrStatus
  repeat' (first
    | with_reducible assumption
    | with_reducible refine State.modErr_keeps (hk := ?_) ..
    | split
    | (with_reducible refine Keeps.lit ?_; dsimp only [State.kept]; with_reducible refine Keeps.unlit ?_))

theorem State.writeErrCtrl_keeps {kb : Bool} {s₀ : State} (s : State) (n hit : Nat) (hk : Keeps kb s₀ s) :
    Keeps kb s₀ (State.writeErrCtrl s n hit) := by
  unfold State.writeErrCtrl
  repeat' (first
    | with_reducible assumption
    | with_reducible refine State.modErr_keeps (hk := ?_) ..
    | with_reducible refine Keeps.ite ?_ ?_
    | split
    | (with_reducible refine Keeps.lit ?_; dsimp only [State.kept]; with_reducible refine Keeps.unlit ?_)
    | dsimp only)

theorem State.measurePolicy_keeps {kb : Bool} {s₀ : State} (s : State) (hk : Keeps kb s₀ s) :
    Keeps kb s₀ (State.measurePolicy s) := by
  unfold State.measurePolicy
  repeat' (first
    | with_reducible assumption
    | with_reducible refine State.setSlot_keeps (hk := ?_) ..)

theorem State.writePolicy_keeps {kb : Bool} {s₀ : State} (s : State) (n hit : Nat) (hk : Keeps kb s₀ s) :
    Keeps kb s₀ (State.writePolicy s n hit) := by
  unfold State.writePolicy
  repeat' (first
    | with_reducible assumption
    | with_reducible first | refine State.modSec_keeps (hk := ?_) .. | refine State.measurePolicy_keeps (hk := ?_) ..
    | with_reducible refine Keeps.ite ?_ ?_
    | split
    | (with_reducible refine Keeps.lit ?_; dsimp only [State.kept]; with_reducible refine Keeps.unlit ?_)
    | dsimp only)

theorem State.writeWord_keeps {s₀ : State} (s : State) (r : Reg) (w n hit : Nat) (hk : Keeps false s₀ s) :
    Keeps false s₀ (State.writeWord s r w n hit) := by
  unfold State.writeWord
  repeat' (first
    | with_reducible assumption
    | with_reducible first | refine State.modCluster_keeps (hk := ?_) .. | refine State.modPurse_keeps (hk := ?_) .. | refine State.modHost_keeps (hk := ?_) .. | refine State.modCol_keeps (hk := ?_) .. | refine State.modRtr_keeps (hk := ?_) .. | refine State.modPwr_keeps (hk := ?_) .. | refine State.modSec_keeps (hk := ?_) .. | refine State.modDev_keeps (hk := ?_) .. | refine State.reidentify_keeps (hk := ?_) .. | refine State.setDrain_keeps (hk := ?_) .. | refine State.writeDetour_keeps (hk := ?_) .. | refine State.writeInjCtrl_keeps (hk := ?_) .. | refine State.writeInjAddr_keeps (hk := ?_) .. | refine State.writeRingCtrl_keeps (hk := ?_) .. | refine State.writeBase_keeps (hk := ?_) .. | refine State.writeWatch_keeps (hk := ?_) .. | refine State.writeMsixMod_keeps (hk := ?_) .. | refine State.writeMsixEntry_keeps (hk := ?_) .. | refine State.writeResetCtrl_keeps (hk := ?_) .. | refine State.writePort_keeps (hk := ?_) .. | refine State.writeGuardCtrl_keeps (hk := ?_) .. | refine State.writeSpikeParam_keeps (hk := ?_) .. | refine State.writePwrCtrl_keeps (hk := ?_) .. | refine State.writeTherm_keeps (hk := ?_) .. | refine State.writeClusterCtrl_keeps (hk := ?_) .. | refine State.clearReport_keeps (hk := ?_) .. | refine State.writeHazMode_keeps (hk := ?_) .. | refine State.debugWrite_keeps (hk := ?_) .. | refine State.writeDdrCtrl_keeps (hk := ?_) .. | refine State.writeErrStatus_keeps (hk := ?_) .. | refine State.writeErrCtrl_keeps (hk := ?_) .. | refine State.writePolicy_keeps (hk := ?_) ..
    | with_reducible refine Keeps.ite ?_ ?_
    | with_reducible refine Keeps.foldl (fun _ _ _ => ?_) ?_
    | split
    | (with_reducible refine Keeps.lit ?_; dsimp only [State.kept]; with_reducible refine Keeps.unlit ?_)
    | dsimp only)

theorem State.writeReg_keeps {s₀ : State} (s : State) (off n v : Nat) (hk : Keeps false s₀ s) :
    Keeps false s₀ (State.writeReg s off n v) := by
  unfold State.writeReg
  repeat' (first
    | with_reducible assumption
    | with_reducible first | refine State.crosses_keeps (hk := ?_) .. | refine State.writeWord_keeps (hk := ?_) ..
    | with_reducible refine Keeps.ite ?_ ?_
    | split
    | dsimp only)

theorem State.seqClear_keeps {kb : Bool} {s₀ : State} (s : State) (c a n : Nat) (hk : Keeps kb s₀ s) :
    Keeps kb s₀ (State.seqClear s c a n) := by
  unfold State.seqClear
  repeat' (first
    | with_reducible assumption
    | with_reducible first | refine State.readEmptyRows_keeps (hk := ?_) .. | refine State.clearRc_keeps (hk := ?_) ..
    | with_reducible refine Keeps.ite ?_ ?_
    | (with_reducible refine Keeps.lit ?_; dsimp only [State.kept]; with_reducible refine Keeps.unlit ?_)
    | dsimp only)

theorem State.seqStale_keeps {kb : Bool} {s₀ : State} (s : State) (c a : Nat) (hk : Keeps kb s₀ s) :
    Keeps kb s₀ (State.seqStale s c a) := by
  unfold State.seqStale
  repeat' (first
    | with_reducible assumption
    | with_reducible refine State.hazard_keeps (hk := ?_) ..
    | with_reducible refine Keeps.ite ?_ ?_
    | with_reducible refine Keeps.foldl (fun _ _ _ => ?_) ?_
    | split
    | dsimp only)

theorem State.seqLoad_keeps {kb : Bool} {s₀ : State} (s : State) (c g a n : Nat) (hk : Keeps kb s₀ s) :
    Keeps kb s₀ (State.seqLoad s c g a n) := by
  unfold State.seqLoad
  repeat' (first
    | with_reducible assumption
    | with_reducible first | refine State.modSeq_keeps (hk := ?_) .. | refine State.haltSeq_keeps (hk := ?_) .. | refine State.seqMemLost_keeps (hk := ?_) .. | refine State.seqClear_keeps (hk := ?_) .. | refine State.seqStale_keeps (hk := ?_) ..
    | with_reducible refine Keeps.ite ?_ ?_
    | split
    | (with_reducible refine Keeps.lit ?_; dsimp only [State.kept]; with_reducible refine Keeps.unlit ?_)
    | dsimp only)

theorem State.seqStore_keeps {kb : Bool} {s₀ : State} (s : State) (c a n v : Nat) (hk : Keeps kb s₀ s) :
    Keeps kb s₀ (State.seqStore s c a n v) := by
  unfold State.seqStore
  repeat' (first
    | with_reducible assumption
    | with_reducible first | refine State.modCluster_keeps (hk := ?_) .. | refine State.modSeq_keeps (hk := ?_) .. | refine State.haltSeq_keeps (hk := ?_) .. | refine State.clearReport_keeps (hk := ?_) .. | refine State.writeHazMode_keeps (hk := ?_) ..
    | with_reducible refine Keeps.ite ?_ ?_
    | split
    | (with_reducible refine Keeps.lit ?_; dsimp only [State.kept]; with_reducible refine Keeps.unlit ?_)
    | dsimp only)

theorem execRegisterWrite_keeps {s₀ : State} (by' : Accessor) (a n v : Nat) (s : State) (hk : Keeps false s₀ s) :
    Answers (execRegisterWrite by' a n v s) (Keeps false s₀) := by
  unfold execRegisterWrite
  repeat' (first
    | with_reducible assumption
    | with_reducible refine Answers.next ?_
    | with_reducible first | refine State.onSeq_keeps (hk := ?_) (hf := ?_) .. | refine State.writeReg_keeps (hk := ?_) .. | refine State.seqStore_keeps (hk := ?_) ..
    | intro _ _
    | split
    | dsimp only)

theorem execRegisterRead_keeps {kb : Bool} {s₀ : State} (by' : Accessor) (a n : Nat) (s : State) (hk : Keeps kb s₀ s) :
    Answers (execRegisterRead by' a n s) (Keeps kb s₀) := by
  unfold execRegisterRead
  repeat' (first
    | with_reducible assumption
    | with_reducible refine Answers.next ?_
    | with_reducible first | refine State.emit_keeps (hk := ?_) .. | refine State.crosses_keeps (hk := ?_) .. | refine State.onSeq_keeps (hk := ?_) (hf := ?_) .. | refine State.readReg_keeps (hk := ?_) .. | refine State.seqLoad_keeps (hk := ?_) ..
    | intro _ _
    | split
    | dsimp only)

end Sys2Proof.Machine
end

