-- ==== Sys2Proof/Laws/KeepsDevice.lean ====
section
/-!
SUPPORT. `Keeps` of every operation on the state, part: statements, jobs, copies, management, security, start-up.
-/
set_option autoImplicit false
set_option linter.unusedVariables false
namespace Sys2Proof.Machine

theorem State.stmtRing_keeps {kb : Bool} {s₀ : State} (s : State) (b : List Byte) (hk : Keeps kb s₀ s) :
    Keeps kb s₀ (State.stmtRing s b) := by
  unfold State.stmtRing
  repeat' (first
    | with_reducible assumption
    | with_reducible first | refine State.modHost_keeps (hk := ?_) .. | refine State.emit_keeps (hk := ?_) .. | refine State.signal_keeps (hk := ?_) ..
    | with_reducible refine Keeps.ite ?_ ?_
    | split
    | (with_reducible refine Keeps.lit ?_; dsimp only [State.kept]; with_reducible refine Keeps.unlit ?_)
    | dsimp only)

theorem State.takeStmt_keeps {kb : Bool} {s₀ : State} (s : State) (onReq : Bool) (hk : Keeps kb s₀ s) :
    Keeps kb s₀ (State.takeStmt s onReq) := by
  unfold State.takeStmt
  repeat' (first
    | with_reducible assumption
    | with_reducible first | refine State.modMgmt_keeps (hk := ?_) .. | refine State.stmtRing_keeps (hk := ?_) ..
    | split
    | (with_reducible refine Keeps.lit ?_; dsimp only [State.kept]; with_reducible refine Keeps.unlit ?_)
    | dsimp only)

theorem State.stmtNow_keeps {kb : Bool} {s₀ : State} (s : State) (hk : Keeps kb s₀ s) :
    Keeps kb s₀ (State.stmtNow s) := by
  unfold State.stmtNow
  repeat' (first
    | with_reducible assumption
    | with_reducible first | refine State.modMgmt_keeps (hk := ?_) .. | refine State.takeStmt_keeps (hk := ?_) ..
    | with_reducible refine Keeps.ite ?_ ?_
    | split
    | (with_reducible refine Keeps.lit ?_; dsimp only [State.kept]; with_reducible refine Keeps.unlit ?_))

theorem State.jobLoad_keeps {s₀ : State} (s : State) (d : Desc) (img : List Byte) (src : Option Nat) (hk : Keeps false s₀ s) :
    Keeps false s₀ (State.jobLoad s d img src) := by
  unfold State.jobLoad
  repeat' (first
    | with_reducible assumption
    | with_reducible first | refine State.log_keeps (hk := ?_) .. | refine State.complete_keeps (hk := ?_) .. | refine State.loadImage_keeps (hk := ?_) ..
    | with_reducible refine Keeps.ite ?_ ?_
    | split
    | dsimp only)

theorem execJobLoad_keeps {s₀ : State} (d : Desc) (image : List Byte) (ecc : List (Nat × EccResult)) (s : State) (hk : Keeps false s₀ s) :
    Answers (execJobLoad d image ecc s) (Keeps false s₀) := by
  unfold execJobLoad
  repeat' (first
    | with_reducible assumption
    | with_reducible refine Answers.next ?_
    | with_reducible refine Answers.ite ?_ ?_
    | with_reducible first | refine State.complete_keeps (hk := ?_) .. | refine State.eccAll_keeps (hk := ?_) .. | refine State.jobLoad_keeps (hk := ?_) ..
    | with_reducible refine Keeps.ite ?_ ?_
    | dsimp only)

theorem execJobUnload_keeps {s₀ : State} (d : Desc) (s : State) (hk : Keeps false s₀ s) :
    Answers (execJobUnload d s) (Keeps false s₀) := by
  unfold execJobUnload
  repeat' (first
    | with_reducible assumption
    | with_reducible refine Answers.next ?_
    | with_reducible refine Answers.ite ?_ ?_
    | with_reducible first | refine State.complete_keeps (hk := ?_) .. | refine State.extendSlot_keeps (hk := ?_) .. | refine State.clearJob_keeps (hk := ?_) .. | refine State.scrub_keeps (hk := ?_) ..
    | dsimp only)

theorem State.forgetSlice_keeps {kb : Bool} {s₀ : State} (s : State) (hk : Keeps kb s₀ s) :
    Keeps kb s₀ (State.forgetSlice s) := by
  unfold State.forgetSlice
  repeat' (first
    | with_reducible assumption
    | with_reducible first | refine State.modDec_keeps (hk := ?_) .. | refine State.modCol_keeps (hk := ?_) .. | refine State.modPwr_keeps (hk := ?_) ..
    | split
    | (with_reducible refine Keeps.lit ?_; dsimp only [State.kept]; with_reducible refine Keeps.unlit ?_)
    | dsimp only)

theorem State.sliceInForce_keeps {kb : Bool} {s₀ : State} (s : State) (id : Nat) (o e : Coord) (hk : Keeps kb s₀ s) :
    Keeps kb s₀ (State.sliceInForce s id o e) := by
  unfold State.sliceInForce
  repeat' (first
    | with_reducible assumption
    | with_reducible first | refine State.modSlice_keeps (hk := ?_) .. | refine State.forgetSlice_keeps (hk := ?_) ..
    | with_reducible refine Keeps.ite ?_ ?_
    | split
    | (with_reducible refine Keeps.lit ?_; dsimp only [State.kept]; with_reducible refine Keeps.unlit ?_)
    | dsimp only)

theorem execSliceSet_keeps {kb : Bool} {s₀ : State} (d : Desc) (s : State) (hk : Keeps kb s₀ s) :
    Answers (execSliceSet d s) (Keeps kb s₀) := by
  unfold execSliceSet
  repeat' (first
    | with_reducible assumption
    | with_reducible refine Answers.next ?_
    | with_reducible refine Answers.ite ?_ ?_
    | with_reducible first | refine State.modSlice_keeps (hk := ?_) .. | refine State.complete_keeps (hk := ?_) .. | refine State.forgetSlice_keeps (hk := ?_) .. | refine State.sliceInForce_keeps (hk := ?_) ..
    | split
    | dsimp only)

theorem State.finishRun_keeps {kb : Bool} {s₀ : State} (s : State) (d x : Desc) (detail : Nat) (hk : Keeps kb s₀ s) :
    Keeps kb s₀ (State.finishRun s d x detail) := by
  unfold State.finishRun
  repeat' (first
    | with_reducible assumption
    | with_reducible first | refine State.complete_keeps (hk := ?_) .. | refine State.cmdGone_keeps (hk := ?_) ..
    | dsimp only)

theorem State.stepFails_keeps {s₀ : State} (s : State) (x : Desc) (hk : Keeps false s₀ s) :
    Keeps false s₀ (State.stepFails s x) := by
  unfold State.stepFails
  repeat' (first
    | with_reducible assumption
    | with_reducible refine State.failWalk_keeps (hk := ?_) ..
    | with_reducible refine Keeps.ite ?_ ?_)

theorem State.runEnds_keeps {s₀ : State} (s : State) (d x : Desc) (detail : Nat) (hk : Keeps false s₀ s) :
    Keeps false s₀ (State.runEnds s d x detail) := by
  unfold State.runEnds
  repeat' (first
    | with_reducible assumption
    | with_reducible first | refine State.finishRun_keeps (hk := ?_) .. | refine State.stepFails_keeps (hk := ?_) ..
    | with_reducible refine Keeps.ite ?_ ?_)

theorem execRunStep_keeps {s₀ : State} (d : Desc) (s : State) (hk : Keeps false s₀ s) :
    Answers (execRunStep d s) (Keeps false s₀) := by
  unfold execRunStep
  repeat' (first
    | with_reducible assumption
    | with_reducible refine Answers.next ?_
    | with_reducible refine Answers.ite ?_ ?_
    | with_reducible refine State.runEnds_keeps (hk := ?_) ..
    | dsimp only)

theorem execRunLayers_keeps {s₀ : State} (d : Desc) (s : State) (hk : Keeps false s₀ s) :
    Answers (execRunLayers d s) (Keeps false s₀) := by
  unfold execRunLayers
  repeat' (first
    | with_reducible assumption
    | with_reducible refine Answers.next ?_
    | with_reducible refine Answers.ite ?_ ?_
    | with_reducible refine State.runEnds_keeps (hk := ?_) ..
    | dsimp only)

theorem execFence_keeps {kb : Bool} {s₀ : State} (d : Desc) (s : State) (hk : Keeps kb s₀ s) :
    Answers (execFence d s) (Keeps kb s₀) := by
  unfold execFence
  repeat' (first
    | with_reducible assumption
    | with_reducible refine Answers.next ?_
    | with_reducible refine Answers.ite ?_ ?_
    | with_reducible refine State.complete_keeps (hk := ?_) ..
    | dsimp only)

theorem execPreempt_keeps {kb : Bool} {s₀ : State} (d : Desc) (s : State) (hk : Keeps kb s₀ s) :
    Answers (execPreempt d s) (Keeps kb s₀) := by
  unfold execPreempt
  repeat' (first
    | with_reducible assumption
    | with_reducible refine Answers.next ?_
    | with_reducible refine Answers.ite ?_ ?_
    | with_reducible first | refine State.modHost_keeps (hk := ?_) .. | refine State.complete_keeps (hk := ?_) ..
    | with_reducible refine Keeps.ite ?_ ?_
    | split
    | (with_reducible refine Keeps.lit ?_; dsimp only [State.kept]; with_reducible refine Keeps.unlit ?_)
    | dsimp only)

theorem execPreemptTakeEffect_keeps {s₀ : State} (ecc : List (Nat × EccResult)) (s : State) (hk : Keeps false s₀ s) :
    Answers (execPreemptTakeEffect ecc s) (Keeps false s₀) := by
  unfold execPreemptTakeEffect
  repeat' (first
    | with_reducible assumption
    | with_reducible refine Answers.next ?_
    | with_reducible refine Answers.ite ?_ ?_
    | with_reducible first | refine State.eccAll_keeps (hk := ?_) .. | refine State.takePreempt_keeps (hk := ?_) ..
    | dsimp only)

theorem State.resume_keeps {s₀ : State} (s : State) (d : Desc) (x : SavedContext)
    (hx : s₀.memoryOk → tabWf (0 : Byte) x.vaults = true ∧ tabWf false x.vaultPoison = true) (hk : Keeps false s₀ s) :
    Keeps false s₀ (s.resume d x) := by
  unfold State.resume
  have h := State.restoreJob_keeps s x hx hk
  dsimp only
  generalize s.restoreJob x = t at h
  split
  · exact State.complete_keeps _ _ _ _ _ _ _ h
  · rename_i orig _
    have k := Keeps.foldl (f := fun (s : State) c => if (s.cluster c).seq.active then s.wake c else s) (l := List.range 8)
      (fun t c h => Keeps.ite (State.wake_keeps _ _ h) h) (State.modHost_keeps t (fun h => { h with resumed := some (d, orig) }) h)
    split
    · exact State.reachPoint_keeps _ _ k
    · exact k

theorem State.resumeEnds_keeps {s₀ : State} (s : State) (d x : Desc) (hk : Keeps false s₀ s) :
    Keeps false s₀ (State.resumeEnds s d x) := by
  unfold State.resumeEnds
  repeat' (first
    | with_reducible assumption
    | with_reducible first | refine State.modHost_keeps (hk := ?_) .. | refine State.cmdGone_keeps (hk := ?_) .. | refine State.runEnds_keeps (hk := ?_) ..
    | with_reducible refine Keeps.ite ?_ ?_
    | with_reducible refine Keeps.foldl (fun _ _ _ => ?_) ?_
    | split
    | (with_reducible refine Keeps.lit ?_; dsimp only [State.kept]; with_reducible refine Keeps.unlit ?_)
    | dsimp only)

theorem execResume_keeps {s₀ : State} (d : Desc) (ecc : List (Nat × EccResult)) (s : State) (hk : Keeps false s₀ s) : Answers (execResume d ecc s) (Keeps false s₀) := by
  unfold execResume
  split
  · split
    · split
      · exact Answers.next (State.resumeEnds_keeps _ _ _ hk)
      · exact Answers.next (State.complete_keeps _ _ _ _ _ _ _ hk)
    · split
      · rename_i x hx
        split
        · exact Answers.next (State.resume_keeps _ d x (fun h => (hk.2.2.2.2.1 h).2 x hx) (State.eccAll_keeps s ecc hk))
        · exact Answers.next (State.complete_keeps _ _ _ _ _ _ _ hk)
      · exact Answers.next (State.complete_keeps _ _ _ _ _ _ _ hk)
  · exact Answers.next hk

theorem execReconcileAccept_keeps {kb : Bool} {s₀ : State} (d : Desc) (s : State) (hk : Keeps kb s₀ s) :
    Answers (execReconcileAccept d s) (Keeps kb s₀) := by
  unfold execReconcileAccept
  repeat' (first
    | with_reducible assumption
    | with_reducible refine Answers.next ?_
    | with_reducible refine Answers.ite ?_ ?_
    | with_reducible first | refine State.modUnit_keeps (hk := ?_) .. | refine State.complete_keeps (hk := ?_) ..
    | split
    | (with_reducible refine Keeps.lit ?_; dsimp only [State.kept]; with_reducible refine Keeps.unlit ?_)
    | dsimp only)

theorem execReconcileFence_keeps {kb : Bool} {s₀ : State} (d : Desc) (s : State) (hk : Keeps kb s₀ s) :
    Answers (execReconcileFence d s) (Keeps kb s₀) := by
  unfold execReconcileFence
  repeat' (first
    | with_reducible assumption
    | with_reducible refine Answers.next ?_
    | with_reducible refine Answers.ite ?_ ?_
    | with_reducible first | refine State.modUnit_keeps (hk := ?_) .. | refine State.complete_keeps (hk := ?_) .. | refine State.fenceDone_keeps (hk := ?_) .. | refine State.loseChannel_keeps (hk := ?_) ..
    | with_reducible refine Keeps.ite ?_ ?_
    | split
    | (with_reducible refine Keeps.lit ?_; dsimp only [State.kept]; with_reducible refine Keeps.unlit ?_)
    | dsimp only)

theorem execReconcileEnable_keeps {kb : Bool} {s₀ : State} (d : Desc) (s : State) (hk : Keeps kb s₀ s) :
    Answers (execReconcileEnable d s) (Keeps kb s₀) := by
  unfold execReconcileEnable
  repeat' (first
    | with_reducible assumption
    | with_reducible refine Answers.next ?_
    | with_reducible refine Answers.ite ?_ ?_
    | with_reducible first | refine State.modUnit_keeps (hk := ?_) .. | refine State.complete_keeps (hk := ?_) ..
    | split
    | (with_reducible refine Keeps.lit ?_; dsimp only [State.kept]; with_reducible refine Keeps.unlit ?_)
    | dsimp only)

theorem execStatementReq_keeps {kb : Bool} {s₀ : State} (d : Desc) (s : State) (hk : Keeps kb s₀ s) :
    Answers (execStatementReq d s) (Keeps kb s₀) := by
  unfold execStatementReq
  repeat' (first
    | with_reducible assumption
    | with_reducible refine Answers.next ?_
    | with_reducible refine Answers.ite ?_ ?_
    | with_reducible first | refine State.modMgmt_keeps (hk := ?_) .. | refine State.complete_keeps (hk := ?_) .. | refine State.stmtNow_keeps (hk := ?_) ..
    | with_reducible refine Keeps.ite ?_ ?_
    | split
    | (with_reducible refine Keeps.lit ?_; dsimp only [State.kept]; with_reducible refine Keeps.unlit ?_)
    | dsimp only)

theorem State.dmaToHost_keeps {kb : Bool} {s₀ : State} (s : State) (d : Desc) (bs : List Byte) (ps : List Bool) (hk : Keeps kb s₀ s) :
    Keeps kb s₀ (State.dmaToHost s d bs ps) := by
  unfold State.dmaToHost
  repeat' (first
    | with_reducible assumption
    | with_reducible first | refine State.emit_keeps (hk := ?_) .. | refine State.complete_keeps (hk := ?_) .. | refine State.hostPoison_keeps (hk := ?_) ..
    | with_reducible refine Keeps.ite ?_ ?_
    | with_reducible refine Keeps.foldl (fun _ _ _ => ?_) ?_
    | split
    | dsimp only)

theorem State.dmaSend_keeps {kb : Bool} {s₀ : State} (s : State) (arr0 : List Packet) (arr1 : Nat) (hk : Keeps kb s₀ s) : Keeps kb s₀ (s.dmaSend arr0 arr1).2.2 := by
  induction arr0 generalizing s arr1 with
  | nil => exact hk
  | cons p ps ih =>
    unfold State.dmaSend
    split
    · exact ih _ _ (Keeps.pair (by assumption) (State.inject_keeps _ _ hk))
    · exact Keeps.pair (by assumption) (State.inject_keeps _ _ hk)

theorem State.dmaToRemote_keeps {s₀ : State} (s : State) (d : Desc) (bs : List Byte) (ps : List Bool) (hk : Keeps false s₀ s) :
    Keeps false s₀ (s.dmaToRemote d bs ps) := by
  unfold State.dmaToRemote
  dsimp only
  split
  · exact State.complete_keeps _ _ _ _ _ _ _ (Keeps.foldl (fun t p h => State.remoteWrite_keeps _ _ h) hk)
  · have h := State.dmaSend_keeps s (s.dmaPackets d bs ps) 0 hk
    split
    · exact State.dmasDone_keeps _ (State.modHost_keeps _ _ (Keeps.triple (by assumption) h))
    · exact State.complete_keeps _ _ _ _ _ _ _ (Keeps.triple (by assumption) h)

theorem State.dmaReads_keeps {kb : Bool} {s₀ : State} (s : State) (d : Desc) (arr0 : List (Nat × Nat)) (hk : Keeps kb s₀ s) : Keeps kb s₀ (s.dmaReads d arr0) := by
  induction arr0 generalizing s with
  | nil => exact hk
  | cons x xs ih =>
    unfold State.dmaReads
    have h := State.sendRead_keeps s (dmaSrcCoord d) (dmaSrc d + x.1) { handle := 0, bytes := x.2, deadline := 0, dest := 2, unit := d.num, addr := dmaDst d + x.1 } hk
    split
    · exact ih _ (Keeps.pair (by assumption) h)
    · exact State.dmaEnd_keeps _ _ _ (Keeps.pair (by assumption) h)

theorem State.dmaFromRemote_keeps {s₀ : State} (s : State) (d : Desc) (hk : Keeps false s₀ s) :
    Keeps false s₀ (State.dmaFromRemote s d) := by
  unfold State.dmaFromRemote
  repeat' (first
    | with_reducible assumption
    | with_reducible first | refine State.modHost_keeps (hk := ?_) .. | refine State.copyMem_keeps (hk := ?_) .. | refine State.log_keeps (hk := ?_) .. | refine State.complete_keeps (hk := ?_) .. | refine State.dmaReads_keeps (hk := ?_) ..
    | with_reducible refine Keeps.ite ?_ ?_
    | split
    | (with_reducible refine Keeps.lit ?_; dsimp only [State.kept]; with_reducible refine Keeps.unlit ?_)
    | dsimp only)

theorem execDmaCopy_keeps {s₀ : State} (d : Desc) (data : List Byte) (poison : List Nat) (ecc : List (Nat × EccResult)) (s : State) (hk : Keeps false s₀ s) :
    Answers (execDmaCopy d data poison ecc s) (Keeps false s₀) := by
  unfold execDmaCopy
  repeat' (first
    | with_reducible assumption
    | with_reducible refine Answers.next ?_
    | with_reducible refine Answers.ite ?_ ?_
    | with_reducible first | refine State.writeMem_keeps (hk := ?_) .. | refine State.complete_keeps (hk := ?_) .. | refine State.eccAll_keeps (hk := ?_) .. | refine State.dmaToHost_keeps (hk := ?_) .. | refine State.dmaToRemote_keeps (hk := ?_) .. | refine State.dmaFromRemote_keeps (hk := ?_) ..
    | split
    | dsimp only)

theorem State.loadSettings_keeps {kb : Bool} {s₀ : State} (s : State) (b : List Byte) (hk : Keeps kb s₀ s) :
    Keeps kb s₀ (State.loadSettings s b) := by
  unfold State.loadSettings
  repeat' (first
    | with_reducible assumption
    | with_reducible first | refine State.modSet_keeps (hk := ?_) .. | refine State.modDec_keeps (hk := ?_) ..
    | split
    | (with_reducible refine Keeps.lit ?_; dsimp only [State.kept]; with_reducible refine Keeps.unlit ?_)
    | dsimp only)

theorem execSettleConfigJob_keeps {s₀ : State} (d : Desc) (data : List Byte) (ecc : List (Nat × EccResult)) (s : State) (hk : Keeps false s₀ s) :
    Answers (execSettleConfigJob d data ecc s) (Keeps false s₀) := by
  unfold execSettleConfigJob
  repeat' (first
    | with_reducible assumption
    | with_reducible refine Answers.next ?_
    | with_reducible refine Answers.ite ?_ ?_
    | with_reducible first | refine State.complete_keeps (hk := ?_) .. | refine State.eccAll_keeps (hk := ?_) .. | refine State.cfgEnds_keeps (hk := ?_) .. | refine State.loadSettings_keeps (hk := ?_) ..
    | split
    | dsimp only)

theorem State.loadRow_keeps {s₀ : State} (s : State) (x : Nat × Row) (hk : Keeps false s₀ s) :
    Keeps false s₀ (State.loadRow s x) := by
  unfold State.loadRow
  repeat' (first
    | with_reducible assumption
    | with_reducible first | refine State.modSet_keeps (hk := ?_) .. | refine State.writeMem_keeps (hk := ?_) ..
    | with_reducible refine Keeps.ite ?_ ?_
    | split
    | (with_reducible refine Keeps.lit ?_; dsimp only [State.kept]; with_reducible refine Keeps.unlit ?_)
    | dsimp only)

theorem execSettleConfigRows_keeps {s₀ : State} (d : Desc) (data : List Byte) (ecc : List (Nat × EccResult)) (s : State) (hk : Keeps false s₀ s) :
    Answers (execSettleConfigRows d data ecc s) (Keeps false s₀) := by
  unfold execSettleConfigRows
  repeat' (first
    | with_reducible assumption
    | with_reducible refine Answers.next ?_
    | with_reducible refine Answers.ite ?_ ?_
    | with_reducible first | refine State.complete_keeps (hk := ?_) .. | refine State.eccAll_keeps (hk := ?_) .. | refine State.cfgEnds_keeps (hk := ?_) .. | refine State.loadRow_keeps (hk := ?_) ..
    | with_reducible refine Keeps.foldl (fun _ _ _ => ?_) ?_
    | split
    | dsimp only)

theorem State.invalidate_keeps {kb : Bool} {s₀ : State} (s : State) (g : Nat) (hk : Keeps kb s₀ s) :
    Keeps kb s₀ (State.invalidate s g) := by
  unfold State.invalidate
  repeat' (first
    | with_reducible assumption
    | with_reducible refine State.modSet_keeps (hk := ?_) ..
    | with_reducible refine Keeps.ite ?_ ?_
    | split
    | (with_reducible refine Keeps.lit ?_; dsimp only [State.kept]; with_reducible refine Keeps.unlit ?_)
    | dsimp only)

theorem execSettleConfigInvalidate_keeps {s₀ : State} (d : Desc) (s : State) (hk : Keeps false s₀ s) :
    Answers (execSettleConfigInvalidate d s) (Keeps false s₀) := by
  unfold execSettleConfigInvalidate
  repeat' (first
    | with_reducible assumption
    | with_reducible refine Answers.next ?_
    | with_reducible refine Answers.ite ?_ ?_
    | with_reducible first | refine State.complete_keeps (hk := ?_) .. | refine State.cfgEnds_keeps (hk := ?_) .. | refine State.invalidate_keeps (hk := ?_) ..
    | with_reducible refine Keeps.foldl (fun _ _ _ => ?_) ?_
    | split
    | dsimp only)

theorem execSettleConfigRefresh_keeps {s₀ : State} (d : Desc) (ecc : List (Nat × EccResult)) (s : State) (hk : Keeps false s₀ s) :
    Answers (execSettleConfigRefresh d ecc s) (Keeps false s₀) := by
  unfold execSettleConfigRefresh
  repeat' (first
    | with_reducible assumption
    | with_reducible refine Answers.next ?_
    | with_reducible refine Answers.ite ?_ ?_
    | with_reducible first | refine State.complete_keeps (hk := ?_) .. | refine State.eccAll_keeps (hk := ?_) .. | refine State.refreshBlock_keeps (hk := ?_) .. | refine State.cfgEnds_keeps (hk := ?_) ..
    | with_reducible refine Keeps.foldl (fun _ _ _ => ?_) ?_
    | split
    | dsimp only)

theorem execCollectivePlan_keeps {s₀ : State} (d : Desc) (data : List Byte) (ecc : List (Nat × EccResult)) (s : State) (hk : Keeps false s₀ s) :
    Answers (execCollectivePlan d data ecc s) (Keeps false s₀) := by
  unfold execCollectivePlan
  repeat' (first
    | with_reducible assumption
    | with_reducible refine Answers.next ?_
    | with_reducible refine Answers.ite ?_ ?_
    | with_reducible first | refine State.modCol_keeps (hk := ?_) .. | refine State.complete_keeps (hk := ?_) .. | refine State.eccAll_keeps (hk := ?_) ..
    | split
    | (with_reducible refine Keeps.lit ?_; dsimp only [State.kept]; with_reducible refine Keeps.unlit ?_)
    | dsimp only)

theorem State.queryRecord_keeps {kb : Bool} {s₀ : State} (s : State) (sel ix : Nat) (hk : Keeps kb s₀ s) :
    Keeps kb s₀ (State.queryRecord s sel ix).2 := by
  unfold State.queryRecord
  repeat' (first
    | with_reducible assumption
    | with_reducible refine State.stmtNow_keeps (hk := ?_) ..
    | split
    | (with_reducible refine Keeps.lit ?_; dsimp only [State.kept]; with_reducible refine Keeps.unlit ?_)
    | dsimp only)

theorem State.queryWrite_keeps {kb : Bool} {s₀ : State} (s : State) (d : Desc) (b : List Byte) (poisoned : Bool) (hk : Keeps kb s₀ s) :
    Keeps kb s₀ (State.queryWrite s d b poisoned) := by
  unfold State.queryWrite
  repeat' (first
    | with_reducible assumption
    | with_reducible first | refine State.emit_keeps (hk := ?_) .. | refine State.complete_keeps (hk := ?_) ..
    | with_reducible refine Keeps.ite ?_ ?_)

theorem State.querySend_keeps {kb : Bool} {s₀ : State} (s : State) (d : Desc) (dest : Coord) (hk : Keeps kb s₀ s) :
    Keeps kb s₀ (State.querySend s d dest) := by
  unfold State.querySend
  repeat' (first
    | with_reducible assumption
    | with_reducible first | refine State.modRtr_keeps (hk := ?_) .. | refine State.inject_keeps (hk := ?_) .. | refine State.complete_keeps (hk := ?_) ..
    | with_reducible refine Keeps.pair (by assumption) ?_
    | split
    | (with_reducible refine Keeps.lit ?_; dsimp only [State.kept]; with_reducible refine Keeps.unlit ?_)
    | dsimp only)

theorem execQuery_keeps {kb : Bool} {s₀ : State} (d : Desc) (s : State) (hk : Keeps kb s₀ s) :
    Answers (execQuery d s) (Keeps kb s₀) := by
  unfold execQuery
  repeat' (first
    | with_reducible assumption
    | with_reducible refine Answers.next ?_
    | with_reducible refine Answers.ite ?_ ?_
    | with_reducible first | refine State.complete_keeps (hk := ?_) .. | refine State.queryRecord_keeps (hk := ?_) .. | refine State.queryWrite_keeps (hk := ?_) .. | refine State.querySend_keeps (hk := ?_) ..
    | split
    | dsimp only)

theorem execProxyRequest_keeps {kb : Bool} {s₀ : State} (p : Packet) (s : State) (hk : Keeps kb s₀ s) :
    Answers (execProxyRequest p s) (Keeps kb s₀) := by
  unfold execProxyRequest
  repeat' (first
    | with_reducible assumption
    | with_reducible refine Answers.next ?_
    | with_reducible refine Answers.ite ?_ ?_
    | with_reducible first | refine State.inject_keeps (hk := ?_) .. | refine State.consumed_keeps (hk := ?_) .. | refine State.queryRecord_keeps (hk := ?_) ..
    | split
    | dsimp only)

theorem execProxyResponse_keeps {kb : Bool} {s₀ : State} (tag : Nat) (arrived : Option Packet) (s : State) (hk : Keeps kb s₀ s) :
    Answers (execProxyResponse tag arrived s) (Keeps kb s₀) := by
  unfold execProxyResponse
  repeat' (first
    | with_reducible assumption
    | with_reducible refine Answers.next ?_
    | with_reducible refine Answers.ite ?_ ?_
    | with_reducible first | refine State.modRtr_keeps (hk := ?_) .. | refine State.reach_keeps (hk := ?_) .. | refine State.consumed_keeps (hk := ?_) .. | refine State.complete_keeps (hk := ?_) .. | refine State.queryWrite_keeps (hk := ?_) ..
    | split
    | (with_reducible refine Keeps.lit ?_; dsimp only [State.kept]; with_reducible refine Keeps.unlit ?_)
    | dsimp only)

theorem execStatementTake_keeps {kb : Bool} {s₀ : State} (s : State) (hk : Keeps kb s₀ s) :
    Answers (execStatementTake s) (Keeps kb s₀) := by
  unfold execStatementTake
  repeat' (first
    | with_reducible assumption
    | with_reducible refine Answers.next ?_
    | with_reducible refine Answers.ite ?_ ?_
    | with_reducible first | refine State.modMgmt_keeps (hk := ?_) .. | refine State.atDevice_keeps (hk := ?_) .. | refine State.takeStmt_keeps (hk := ?_) ..
    | split
    | (with_reducible refine Keeps.lit ?_; dsimp only [State.kept]; with_reducible refine Keeps.unlit ?_)
    | dsimp only)

theorem State.reachLife_keeps {kb : Bool} {s₀ : State} (s : State) (kind period : Nat) (hk : Keeps kb s₀ s) :
    Keeps kb s₀ (State.reachLife s kind period) := by
  unfold State.reachLife
  repeat' (first
    | with_reducible assumption
    | with_reducible refine State.reach_keeps (hk := ?_) ..)

theorem execLedgerCounters_keeps {kb : Bool} {s₀ : State} (fails : Nat) (s : State) (hk : Keeps kb s₀ s) :
    Answers (execLedgerCounters fails s) (Keeps kb s₀) := by
  unfold execLedgerCounters
  repeat' (first
    | with_reducible assumption
    | with_reducible refine Answers.next ?_
    | with_reducible refine Answers.ite ?_ ?_
    | with_reducible first | refine State.ledgerAppend_keeps (hk := ?_) .. | refine State.reachLife_keeps (hk := ?_) ..
    | dsimp only)

theorem execLedgerDaily_keeps {kb : Bool} {s₀ : State} (fails : Nat) (s : State) (hk : Keeps kb s₀ s) :
    Answers (execLedgerDaily fails s) (Keeps kb s₀) := by
  unfold execLedgerDaily
  repeat' (first
    | with_reducible assumption
    | with_reducible refine Answers.next ?_
    | with_reducible refine Answers.ite ?_ ?_
    | with_reducible first | refine State.ledgerAppend_keeps (hk := ?_) .. | refine State.reachLife_keeps (hk := ?_) ..
    | (with_reducible refine Keeps.lit ?_; dsimp only [State.kept]; with_reducible refine Keeps.unlit ?_)
    | dsimp only)

theorem State.request_keeps {kb : Bool} {s₀ : State} (s : State) (b waiting : Nat) (f : State → State) (hf : ∀ t, Keeps kb s₀ t → Keeps kb s₀ (f t)) (hk : Keeps kb s₀ s) :
    Keeps kb s₀ (State.request s b waiting f) := by
  unfold State.request
  repeat' (first
    | with_reducible assumption
    | with_reducible refine hf _ ?_
    | with_reducible refine State.modMgmt_keeps (hk := ?_) ..
    | with_reducible refine Keeps.ite ?_ ?_
    | split
    | (with_reducible refine Keeps.lit ?_; dsimp only [State.kept]; with_reducible refine Keeps.unlit ?_))

theorem execSetEndpointId_keeps {kb : Bool} {s₀ : State} (b waiting eid : Nat) (s : State) (hk : Keeps kb s₀ s) :
    Answers (execSetEndpointId b waiting eid s) (Keeps kb s₀) := by
  unfold execSetEndpointId
  repeat' (first
    | with_reducible assumption
    | with_reducible refine Answers.next ?_
    | with_reducible refine Answers.ite ?_ ?_
    | with_reducible first | refine State.modMgmt_keeps (hk := ?_) .. | refine State.emit_keeps (hk := ?_) ..
    | split
    | (with_reducible refine Keeps.lit ?_; dsimp only [State.kept]; with_reducible refine Keeps.unlit ?_)
    | dsimp only)

theorem execDynamicAddressAssign_keeps {kb : Bool} {s₀ : State} (addr : Nat) (s : State) (hk : Keeps kb s₀ s) :
    Answers (execDynamicAddressAssign addr s) (Keeps kb s₀) := by
  unfold execDynamicAddressAssign
  repeat' (first
    | with_reducible assumption
    | with_reducible refine Answers.next ?_
    | with_reducible refine State.modMgmt_keeps (hk := ?_) ..
    | split
    | (with_reducible refine Keeps.lit ?_; dsimp only [State.kept]; with_reducible refine Keeps.unlit ?_)
    | dsimp only)

theorem State.respond_keeps {kb : Bool} {s₀ : State} (s : State) (b code : Nat) (st : Status) (body : List Byte) (hk : Keeps kb s₀ s) :
    Keeps kb s₀ (State.respond s b code st body) := by
  unfold State.respond
  repeat' (first
    | with_reducible assumption
    | with_reducible refine State.emit_keeps (hk := ?_) ..)

theorem State.vendor_keeps {kb : Bool} {s₀ : State} (s : State) (b waiting code n : Nat) (body : List Byte) (f : State → Status × List Byte × State) (hf : ∀ t, Keeps kb s₀ t → Keeps kb s₀ (f t).2.2) (hk : Keeps kb s₀ s) :
    Answers (State.vendor s b waiting code n body f) (Keeps kb s₀) := by
  unfold State.vendor
  repeat' (first
    | with_reducible assumption
    | with_reducible refine hf _ ?_
    | with_reducible refine Answers.next ?_
    | with_reducible first | refine State.request_keeps (hk := ?_) (hf := ?_) .. | refine State.respond_keeps (hk := ?_) ..
    | with_reducible refine Keeps.ite ?_ ?_
    | intro _ _
    | split
    | dsimp only)

theorem execStatementGet_keeps {kb : Bool} {s₀ : State} (b waiting : Nat) (body : List Byte) (s : State) (hk : Keeps kb s₀ s) :
    Answers (execStatementGet b waiting body s) (Keeps kb s₀) := by
  unfold execStatementGet
  repeat' (first
    | with_reducible assumption
    | with_reducible refine State.vendor_keeps (hk := ?_) (hf := ?_) ..
    | intro _ _
    | split
    | dsimp only)

theorem execDaybookRead_keeps {kb : Bool} {s₀ : State} (b waiting : Nat) (body : List Byte) (s : State) (hk : Keeps kb s₀ s) :
    Answers (execDaybookRead b waiting body s) (Keeps kb s₀) := by
  unfold execDaybookRead
  repeat' (first
    | with_reducible assumption
    | with_reducible refine State.vendor_keeps (hk := ?_) (hf := ?_) ..
    | intro _ _
    | split
    | dsimp only)

theorem execLedgerRead_keeps {kb : Bool} {s₀ : State} (b waiting : Nat) (body : List Byte) (s : State) (hk : Keeps kb s₀ s) :
    Answers (execLedgerRead b waiting body s) (Keeps kb s₀) := by
  unfold execLedgerRead
  repeat' (first
    | with_reducible assumption
    | with_reducible refine State.vendor_keeps (hk := ?_) (hf := ?_) ..
    | intro _ _
    | split
    | dsimp only)

theorem execLedgerStatus_keeps {kb : Bool} {s₀ : State} (b waiting : Nat) (body : List Byte) (s : State) (hk : Keeps kb s₀ s) :
    Answers (execLedgerStatus b waiting body s) (Keeps kb s₀) := by
  unfold execLedgerStatus
  repeat' (first
    | with_reducible assumption
    | with_reducible refine State.vendor_keeps (hk := ?_) (hf := ?_) ..
    | intro _ _
    | split
    | (with_reducible refine Keeps.lit ?_; dsimp only [State.kept]; with_reducible refine Keeps.unlit ?_)
    | dsimp only)

theorem execUnitStateRead_keeps {kb : Bool} {s₀ : State} (b waiting : Nat) (body : List Byte) (s : State) (hk : Keeps kb s₀ s) :
    Answers (execUnitStateRead b waiting body s) (Keeps kb s₀) := by
  unfold execUnitStateRead
  repeat' (first
    | with_reducible assumption
    | with_reducible refine State.vendor_keeps (hk := ?_) (hf := ?_) ..
    | intro _ _
    | split
    | dsimp only)

theorem State.setPermission_keeps {kb : Bool} {s₀ : State} (s : State) (u : UnitName) (p : Perm) (hold : Bool) (hk : Keeps kb s₀ s) :
    Keeps kb s₀ (State.setPermission s u p hold).2 := by
  unfold State.setPermission
  repeat' (first
    | with_reducible assumption
    | with_reducible first | refine State.modUnit_keeps (hk := ?_) .. | refine State.log_keeps (hk := ?_) .. | refine State.loseChannel_keeps (hk := ?_) ..
    | with_reducible refine Keeps.ite ?_ ?_
    | split
    | (with_reducible refine Keeps.lit ?_; dsimp only [State.kept]; with_reducible refine Keeps.unlit ?_)
    | dsimp only)

theorem execSetPermission_keeps {kb : Bool} {s₀ : State} (b waiting : Nat) (body : List Byte) (s : State) (hk : Keeps kb s₀ s) :
    Answers (execSetPermission b waiting body s) (Keeps kb s₀) := by
  unfold execSetPermission
  repeat' (first
    | with_reducible assumption
    | with_reducible first | refine State.vendor_keeps (hk := ?_) (hf := ?_) .. | refine State.setPermission_keeps (hk := ?_) ..
    | intro _ _
    | split
    | dsimp only)

theorem execSetPowerLimit_keeps {kb : Bool} {s₀ : State} (b waiting : Nat) (body : List Byte) (s : State) (hk : Keeps kb s₀ s) :
    Answers (execSetPowerLimit b waiting body s) (Keeps kb s₀) := by
  unfold execSetPowerLimit
  repeat' (first
    | with_reducible assumption
    | with_reducible first | refine State.modPwr_keeps (hk := ?_) .. | refine State.log_keeps (hk := ?_) .. | refine State.vendor_keeps (hk := ?_) (hf := ?_) ..
    | intro _ _
    | split
    | (with_reducible refine Keeps.lit ?_; dsimp only [State.kept]; with_reducible refine Keeps.unlit ?_)
    | dsimp only)

theorem execSetPurseDepth_keeps {kb : Bool} {s₀ : State} (b waiting : Nat) (body : List Byte) (s : State) (hk : Keeps kb s₀ s) :
    Answers (execSetPurseDepth b waiting body s) (Keeps kb s₀) := by
  unfold execSetPurseDepth
  repeat' (first
    | with_reducible assumption
    | with_reducible first | refine State.modPurse_keeps (hk := ?_) .. | refine State.vendor_keeps (hk := ?_) (hf := ?_) ..
    | intro _ _
    | split
    | (with_reducible refine Keeps.lit ?_; dsimp only [State.kept]; with_reducible refine Keeps.unlit ?_)
    | dsimp only)

theorem State.planSet_keeps {kb : Bool} {s₀ : State} (s : State) (p : List Byte) (hk : Keeps kb s₀ s) :
    Keeps kb s₀ (State.planSet s p) := by
  unfold State.planSet
  repeat' (first
    | with_reducible assumption
    | with_reducible first | refine State.modDev_keeps (hk := ?_) .. | refine State.ledgerAppend_keeps (hk := ?_) .. | refine State.placeTime_keeps (hk := ?_) .. | refine State.reidentifyAll_keeps (hk := ?_) .. | refine State.setSlot_keeps (hk := ?_) ..
    | split
    | (with_reducible refine Keeps.lit ?_; dsimp only [State.kept]; with_reducible refine Keeps.unlit ?_)
    | dsimp only)

theorem execPlanWrite_keeps {kb : Bool} {s₀ : State} (b waiting : Nat) (body : List Byte) (s : State) (hk : Keeps kb s₀ s) :
    Answers (execPlanWrite b waiting body s) (Keeps kb s₀) := by
  unfold execPlanWrite
  repeat' (first
    | with_reducible assumption
    | with_reducible first | refine State.vendor_keeps (hk := ?_) (hf := ?_) .. | refine State.planSet_keeps (hk := ?_) ..
    | intro _ _
    | split
    | dsimp only)

theorem State.planLeave_keeps {s₀ : State} (s : State) (hk : Keeps false s₀ s) :
    Keeps false s₀ (State.planLeave s) := by
  unfold State.planLeave
  repeat' (first
    | with_reducible assumption
    | with_reducible first | refine State.modDev_keeps (hk := ?_) .. | refine State.ledgerAppend_keeps (hk := ?_) .. | refine State.placeTime_keeps (hk := ?_) .. | refine State.leavePorts_keeps (hk := ?_) .. | refine State.reidentifyAll_keeps (hk := ?_) .. | refine State.setSlot_keeps (hk := ?_) ..
    | split
    | (with_reducible refine Keeps.lit ?_; dsimp only [State.kept]; with_reducible refine Keeps.unlit ?_)
    | dsimp only)

theorem execPlanRetire_keeps {s₀ : State} (b waiting : Nat) (body : List Byte) (s : State) (hk : Keeps false s₀ s) :
    Answers (execPlanRetire b waiting body s) (Keeps false s₀) := by
  unfold execPlanRetire
  repeat' (first
    | with_reducible assumption
    | with_reducible first | refine State.vendor_keeps (hk := ?_) (hf := ?_) .. | refine State.planLeave_keeps (hk := ?_) ..
    | intro _ _
    | split
    | dsimp only)

theorem execRegRead_keeps {kb : Bool} {s₀ : State} (b waiting : Nat) (body : List Byte) (s : State) (hk : Keeps kb s₀ s) :
    Answers (execRegRead b waiting body s) (Keeps kb s₀) := by
  unfold execRegRead
  repeat' (first
    | with_reducible assumption
    | with_reducible first | refine State.readReg_keeps (hk := ?_) .. | refine State.vendor_keeps (hk := ?_) (hf := ?_) ..
    | intro _ _
    | split
    | (with_reducible refine Keeps.lit ?_; dsimp only [State.kept]; with_reducible refine Keeps.unlit ?_)
    | dsimp only)

theorem execGetSensorReading_keeps {kb : Bool} {s₀ : State} (b waiting id : Nat) (s : State) (hk : Keeps kb s₀ s) :
    Answers (execGetSensorReading b waiting id s) (Keeps kb s₀) := by
  unfold execGetSensorReading
  repeat' (first
    | with_reducible assumption
    | with_reducible refine Answers.next ?_
    | with_reducible first | refine State.emit_keeps (hk := ?_) .. | refine State.request_keeps (hk := ?_) (hf := ?_) ..
    | with_reducible refine Keeps.ite ?_ ?_
    | intro _ _
    | split
    | dsimp only)

theorem execSetEventReceiver_keeps {kb : Bool} {s₀ : State} (b waiting mask : Nat) (s : State) (hk : Keeps kb s₀ s) :
    Answers (execSetEventReceiver b waiting mask s) (Keeps kb s₀) := by
  unfold execSetEventReceiver
  repeat' (first
    | with_reducible assumption
    | with_reducible refine Answers.next ?_
    | with_reducible first | refine State.modMgmt_keeps (hk := ?_) .. | refine State.emit_keeps (hk := ?_) .. | refine State.request_keeps (hk := ?_) (hf := ?_) ..
    | intro _ _
    | split
    | (with_reducible refine Keeps.lit ?_; dsimp only [State.kept]; with_reducible refine Keeps.unlit ?_)
    | dsimp only)

theorem execPlatformEventRetry_keeps {kb : Bool} {s₀ : State} (i : Nat) (s : State) (hk : Keeps kb s₀ s) :
    Answers (execPlatformEventRetry i s) (Keeps kb s₀) := by
  unfold execPlatformEventRetry
  repeat' (first
    | with_reducible assumption
    | with_reducible refine Answers.next ?_
    | with_reducible refine Answers.ite ?_ ?_
    | with_reducible first | refine State.modMgmt_keeps (hk := ?_) .. | refine State.emit_keeps (hk := ?_) ..
    | split
    | (with_reducible refine Keeps.lit ?_; dsimp only [State.kept]; with_reducible refine Keeps.unlit ?_)
    | dsimp only)

theorem execPlatformEventAck_keeps {kb : Bool} {s₀ : State} (i : Nat) (s : State) (hk : Keeps kb s₀ s) :
    Answers (execPlatformEventAck i s) (Keeps kb s₀) := by
  unfold execPlatformEventAck
  repeat' (first
    | with_reducible assumption
    | with_reducible refine Answers.next ?_
    | with_reducible refine State.modMgmt_keeps (hk := ?_) ..
    | split
    | (with_reducible refine Keeps.lit ?_; dsimp only [State.kept]; with_reducible refine Keeps.unlit ?_)
    | dsimp only)

theorem State.updateRequest_keeps {kb : Bool} {s₀ : State} (s : State) (b waiting : Nat) (f : State → State) (hf : ∀ t, Keeps kb s₀ t → Keeps kb s₀ (f t)) (hk : Keeps kb s₀ s) :
    Keeps kb s₀ (State.updateRequest s b waiting f) := by
  unfold State.updateRequest
  repeat' (first
    | with_reducible assumption
    | with_reducible refine hf _ ?_
    | with_reducible refine State.request_keeps (hk := ?_) (hf := ?_) ..
    | with_reducible refine Keeps.ite ?_ ?_
    | intro _ _)

theorem execRequestUpdate_keeps {kb : Bool} {s₀ : State} (b waiting cls : Nat) (s : State) (hk : Keeps kb s₀ s) :
    Answers (execRequestUpdate b waiting cls s) (Keeps kb s₀) := by
  unfold execRequestUpdate
  repeat' (first
    | with_reducible assumption
    | with_reducible refine Answers.next ?_
    | with_reducible first | refine State.modMgmt_keeps (hk := ?_) .. | refine State.emit_keeps (hk := ?_) .. | refine State.updateRequest_keeps (hk := ?_) (hf := ?_) ..
    | with_reducible refine Keeps.ite ?_ ?_
    | intro _ _
    | split
    | (with_reducible refine Keeps.lit ?_; dsimp only [State.kept]; with_reducible refine Keeps.unlit ?_)
    | dsimp only)

theorem execVerifyComplete_keeps {kb : Bool} {s₀ : State} (b waiting : Nat) (image : FwCopy) (s : State) (hk : Keeps kb s₀ s) :
    Answers (execVerifyComplete b waiting image s) (Keeps kb s₀) := by
  unfold execVerifyComplete
  repeat' (first
    | with_reducible assumption
    | with_reducible refine Answers.next ?_
    | with_reducible first | refine State.modMgmt_keeps (hk := ?_) .. | refine State.emit_keeps (hk := ?_) .. | refine State.log_keeps (hk := ?_) .. | refine State.updateRequest_keeps (hk := ?_) (hf := ?_) ..
    | with_reducible refine Keeps.ite ?_ ?_
    | intro _ _
    | split
    | (with_reducible refine Keeps.lit ?_; dsimp only [State.kept]; with_reducible refine Keeps.unlit ?_)
    | dsimp only)

theorem State.activate_keeps {kb : Bool} {s₀ : State} (s : State) (cls : Nat) (hk : Keeps kb s₀ s) :
    Keeps kb s₀ (State.activate s cls) := by
  unfold State.activate
  repeat' (first
    | with_reducible assumption
    | with_reducible first | refine State.modMgmt_keeps (hk := ?_) .. | refine State.ledgerAppend_keeps (hk := ?_) .. | refine State.log_keeps (hk := ?_) .. | refine State.setSlot_keeps (hk := ?_) ..
    | with_reducible refine Keeps.ite ?_ ?_
    | split
    | (with_reducible refine Keeps.lit ?_; dsimp only [State.kept]; with_reducible refine Keeps.unlit ?_)
    | dsimp only)

theorem execActivateFirmware_keeps {kb : Bool} {s₀ : State} (b waiting : Nat) (s : State) (hk : Keeps kb s₀ s) :
    Answers (execActivateFirmware b waiting s) (Keeps kb s₀) := by
  unfold execActivateFirmware
  repeat' (first
    | with_reducible assumption
    | with_reducible refine Answers.next ?_
    | with_reducible first | refine State.modMgmt_keeps (hk := ?_) .. | refine State.emit_keeps (hk := ?_) .. | refine State.updateRequest_keeps (hk := ?_) (hf := ?_) .. | refine State.activate_keeps (hk := ?_) ..
    | with_reducible refine Keeps.foldl (fun _ _ _ => ?_) ?_
    | intro _ _
    | split
    | (with_reducible refine Keeps.lit ?_; dsimp only [State.kept]; with_reducible refine Keeps.unlit ?_)
    | dsimp only)

theorem State.blockIdentity_keeps {kb : Bool} {s₀ : State} (s : State) (hk : Keeps kb s₀ s) :
    Keeps kb s₀ (State.blockIdentity s) := by
  unfold State.blockIdentity
  repeat' (first
    | with_reducible assumption
    | with_reducible first | refine State.modSec_keeps (hk := ?_) .. | refine State.log_keeps (hk := ?_) ..
    | with_reducible refine Keeps.ite ?_ ?_
    | split
    | (with_reducible refine Keeps.lit ?_; dsimp only [State.kept]; with_reducible refine Keeps.unlit ?_)
    | dsimp only)

theorem State.takeLeaf_keeps {kb : Bool} {s₀ : State} (s : State) (hk : Keeps kb s₀ s) :
    Keeps kb s₀ (State.takeLeaf s).2 := by
  unfold State.takeLeaf
  repeat' (first
    | with_reducible assumption
    | with_reducible first | refine State.modSec_keeps (hk := ?_) .. | refine State.ledgerAppend_keeps (hk := ?_) .. | refine State.blockIdentity_keeps (hk := ?_) ..
    | with_reducible refine Keeps.ite ?_ ?_
    | with_reducible refine Keeps.ite2 ?_ ?_
    | split
    | (with_reducible refine Keeps.lit ?_; dsimp only [State.kept]; with_reducible refine Keeps.unlit ?_)
    | dsimp only)

theorem State.attest_keeps {kb : Bool} {s₀ : State} (s : State) (b : Nat) (body : List Byte) (hk : Keeps kb s₀ s) :
    Keeps kb s₀ (State.attest s b body) := by
  unfold State.attest
  repeat' (first
    | with_reducible assumption
    | with_reducible first | refine State.respond_keeps (hk := ?_) .. | refine State.takeLeaf_keeps (hk := ?_) ..
    | with_reducible refine Keeps.pair (by assumption) ?_
    | split
    | dsimp only)

theorem execAttestGet_keeps {kb : Bool} {s₀ : State} (b waiting : Nat) (body : List Byte) (s : State) (hk : Keeps kb s₀ s) :
    Answers (execAttestGet b waiting body s) (Keeps kb s₀) := by
  unfold execAttestGet
  repeat' (first
    | with_reducible assumption
    | with_reducible refine Answers.next ?_
    | with_reducible first | refine State.modSec_keeps (hk := ?_) .. | refine State.request_keeps (hk := ?_) (hf := ?_) .. | refine State.respond_keeps (hk := ?_) .. | refine State.attest_keeps (hk := ?_) ..
    | with_reducible refine Keeps.ite ?_ ?_
    | intro _ _
    | split
    | (with_reducible refine Keeps.lit ?_; dsimp only [State.kept]; with_reducible refine Keeps.unlit ?_)
    | dsimp only)

theorem execTreeBuildDone_keeps {kb : Bool} {s₀ : State} (s : State) (hk : Keeps kb s₀ s) :
    Answers (execTreeBuildDone s) (Keeps kb s₀) := by
  unfold execTreeBuildDone
  repeat' (first
    | with_reducible assumption
    | with_reducible refine Answers.next ?_
    | with_reducible first | refine State.modSec_keeps (hk := ?_) .. | refine State.attest_keeps (hk := ?_) ..
    | with_reducible refine Keeps.foldl (fun _ _ _ => ?_) ?_
    | split
    | (with_reducible refine Keeps.lit ?_; dsimp only [State.kept]; with_reducible refine Keeps.unlit ?_)
    | dsimp only)

theorem execChallenge_keeps {kb : Bool} {s₀ : State} (b waiting : Nat) (s : State) (hk : Keeps kb s₀ s) :
    Answers (execChallenge b waiting s) (Keeps kb s₀) := by
  unfold execChallenge
  repeat' (first
    | with_reducible assumption
    | with_reducible refine Answers.next ?_
    | with_reducible first | refine State.modSec_keeps (hk := ?_) .. | refine State.fresh_keeps (hk := ?_) .. | refine State.request_keeps (hk := ?_) (hf := ?_) .. | refine State.respond_keeps (hk := ?_) ..
    | intro _ _
    | split
    | (with_reducible refine Keeps.lit ?_; dsimp only [State.kept]; with_reducible refine Keeps.unlit ?_)
    | dsimp only)

theorem State.grant_keeps {kb : Bool} {s₀ : State} (s : State) (t : List Byte) (hk : Keeps kb s₀ s) :
    Keeps kb s₀ (State.grant s t) := by
  unfold State.grant
  repeat' (first
    | with_reducible assumption
    | with_reducible first | refine State.modSec_keeps (hk := ?_) .. | refine State.log_keeps (hk := ?_) .. | refine State.extendSlot_keeps (hk := ?_) ..
    | with_reducible refine Keeps.ite ?_ ?_
    | split
    | (with_reducible refine Keeps.lit ?_; dsimp only [State.kept]; with_reducible refine Keeps.unlit ?_)
    | dsimp only)

theorem execPresent_keeps {kb : Bool} {s₀ : State} (b waiting : Nat) (token key sig : List Byte) (s : State) (hk : Keeps kb s₀ s) :
    Answers (execPresent b waiting token key sig s) (Keeps kb s₀) := by
  unfold execPresent
  repeat' (first
    | with_reducible assumption
    | with_reducible refine Answers.next ?_
    | with_reducible first | refine State.modSec_keeps (hk := ?_) .. | refine State.log_keeps (hk := ?_) .. | refine State.request_keeps (hk := ?_) (hf := ?_) .. | refine State.respond_keeps (hk := ?_) .. | refine State.grant_keeps (hk := ?_) ..
    | with_reducible refine Keeps.ite ?_ ?_
    | intro _ _
    | split
    | (with_reducible refine Keeps.lit ?_; dsimp only [State.kept]; with_reducible refine Keeps.unlit ?_)
    | dsimp only)

theorem execRelinquish_keeps {kb : Bool} {s₀ : State} (b waiting : Nat) (s : State) (hk : Keeps kb s₀ s) :
    Answers (execRelinquish b waiting s) (Keeps kb s₀) := by
  unfold execRelinquish
  repeat' (first
    | with_reducible assumption
    | with_reducible refine Answers.next ?_
    | with_reducible first | refine State.endRights_keeps (hk := ?_) .. | refine State.request_keeps (hk := ?_) (hf := ?_) .. | refine State.respond_keeps (hk := ?_) ..
    | intro _ _
    | split
    | dsimp only)

theorem execNonceExpiry_keeps {kb : Bool} {s₀ : State} (s : State) (hk : Keeps kb s₀ s) :
    Answers (execNonceExpiry s) (Keeps kb s₀) := by
  unfold execNonceExpiry
  repeat' (first
    | with_reducible assumption
    | with_reducible refine Answers.next ?_
    | with_reducible first | refine State.modSec_keeps (hk := ?_) .. | refine State.reach_keeps (hk := ?_) ..
    | split
    | (with_reducible refine Keeps.lit ?_; dsimp only [State.kept]; with_reducible refine Keeps.unlit ?_)
    | dsimp only)

theorem execRightExpiry_keeps {kb : Bool} {s₀ : State} (maintenance : Bool) (s : State) (hk : Keeps kb s₀ s) :
    Answers (execRightExpiry maintenance s) (Keeps kb s₀) := by
  unfold execRightExpiry
  repeat' (first
    | with_reducible assumption
    | with_reducible refine Answers.next ?_
    | with_reducible refine Answers.ite ?_ ?_
    | with_reducible first | refine State.modSec_keeps (hk := ?_) .. | refine State.reach_keeps (hk := ?_) .. | refine State.leaveMaintenance_keeps (hk := ?_) ..
    | split
    | (with_reducible refine Keeps.lit ?_; dsimp only [State.kept]; with_reducible refine Keeps.unlit ?_)
    | dsimp only)

theorem State.powerLoss_keeps {s₀ : State} (s : State) (hk : Keeps false s₀ s) : Keeps false s₀ s.powerLoss := by
  unfold State.powerLoss
  refine Keeps.whole (u := s) rfl rfl rfl ?_ (fun _ => ⟨rfl, fun _ e => nomatch e⟩) hk
  exact List.prefix_refl _

theorem execAoPowerLoss_keeps {s₀ : State} (torn : Bool) (s : State) (hk : Keeps false s₀ s) : Answers (execAoPowerLoss torn s) (Keeps false s₀) := by
  unfold execAoPowerLoss
  have k := State.powerLoss_keeps s hk
  refine Answers.next ?_
  split
  · refine Keeps.record _ _ ?_ k
    unfold Ledger.tear; split
    · unfold Ledger.cores; dsimp only
      rename_i h; rw [List.getLast?_eq_getElem?] at h; exact cores_lset _ _ _ h rfl
    · exact List.prefix_refl _
  · exact k

theorem State.readStraps_keeps {kb : Bool} {s₀ : State} (s : State) (pins : List (List Nat)) (hk : Keeps kb s₀ s) :
    Keeps kb s₀ (State.readStraps s pins) := by
  unfold State.readStraps
  repeat' (first
    | with_reducible assumption
    | with_reducible refine State.modDev_keeps (hk := ?_) ..
    | split
    | (with_reducible refine Keeps.lit ?_; dsimp only [State.kept]; with_reducible refine Keeps.unlit ?_)
    | dsimp only)

theorem State.bootClass_keeps {kb : Bool} {s₀ : State} (s : State) (cls : Nat) (hk : Keeps kb s₀ s) :
    Keeps kb s₀ (State.bootClass s cls).2.2 := by
  unfold State.bootClass
  repeat' (first
    | with_reducible assumption
    | with_reducible refine Keeps.ite3 ?_ ?_
    | (with_reducible refine Keeps.lit ?_; dsimp only [State.kept]; with_reducible refine Keeps.unlit ?_)
    | dsimp only)

theorem State.bootStep_keeps {kb : Bool} {s₀ : State} (a : List (Nat × Nat) × State) (cls : Nat) (hk : Keeps kb s₀ a.2) : Keeps kb s₀ (State.bootStep a cls).2 := by
  unfold State.bootStep
  have h := State.bootClass_keeps a.2 cls hk
  dsimp only
  generalize a.2.bootClass cls = p at h
  obtain ⟨ok, fell, t⟩ := p
  dsimp only at h ⊢
  split
  · exact hk
  · split
    · exact State.modSec_keeps _ _ (State.setSlot_keeps _ _ _ h)
    · split
      · exact State.modSec_keeps _ _ h
      · exact State.modSec_keeps _ _ h

theorem State.boot_keeps {kb : Bool} {s₀ : State} (s : State) (hk : Keeps kb s₀ s) : Keeps kb s₀ s.boot.2 := by
  unfold State.boot
  refine Keeps.foldl2 (fun a x h => State.bootStep_keeps a x h) ?_
  exact State.setSlot_keeps _ _ _ (State.setSlot_keeps _ _ _ hk)

theorem State.scan_keeps {kb : Bool} {s₀ : State} (s : State) (hk : Keeps kb s₀ s) : Keeps kb s₀ s.scan := by
  unfold State.scan
  dsimp only
  split
  · exact Keeps.record _ _ (by unfold Ledger.cores; exact List.prefix_refl _) hk
  · refine State.log_keeps _ _ _ _ (State.ledgerAppend_keeps _ _ _ _ (Keeps.record s _ ?_ hk))
    unfold Ledger.cores; dsimp only
    split
    · rename_i h; exact cores_lset _ _ _ h rfl
    · exact List.prefix_refl _
  · exact State.log_keeps _ _ _ _ (Keeps.record _ _ (by unfold Ledger.cores; exact List.prefix_refl _) hk)

theorem State.checkPosition_keeps {kb : Bool} {s₀ : State} (s : State) (hk : Keeps kb s₀ s) :
    Keeps kb s₀ (State.checkPosition s) := by
  unfold State.checkPosition
  repeat' (first
    | with_reducible assumption
    | with_reducible first | refine State.modDev_keeps (hk := ?_) .. | refine State.log_keeps (hk := ?_) ..
    | with_reducible refine Keeps.ite ?_ ?_
    | split
    | (with_reducible refine Keeps.lit ?_; dsimp only [State.kept]; with_reducible refine Keeps.unlit ?_)
    | dsimp only)

theorem State.enableRail_keeps {kb : Bool} {s₀ : State} (s : State) (r : Nat) (hk : Keeps kb s₀ s) :
    Keeps kb s₀ (State.enableRail s r) := by
  unfold State.enableRail
  repeat' (first
    | with_reducible assumption
    | with_reducible first | refine State.modClock_keeps (hk := ?_) .. | refine State.emit_keeps (hk := ?_) ..
    | split
    | (with_reducible refine Keeps.lit ?_; dsimp only [State.kept]; with_reducible refine Keeps.unlit ?_)
    | dsimp only)

theorem State.refMissing_keeps {kb : Bool} {s₀ : State} (s : State) (ref : Nat) (hk : Keeps kb s₀ s) :
    Keeps kb s₀ (State.refMissing s ref) := by
  unfold State.refMissing
  repeat' (first
    | with_reducible assumption
    | with_reducible first | refine State.modDev_keeps (hk := ?_) .. | refine State.log_keeps (hk := ?_) ..
    | split
    | (with_reducible refine Keeps.lit ?_; dsimp only [State.kept]; with_reducible refine Keeps.unlit ?_))

theorem State.pcieCheck_keeps {kb : Bool} {s₀ : State} (s : State) (hk : Keeps kb s₀ s) :
    Keeps kb s₀ (State.pcieCheck s) := by
  unfold State.pcieCheck
  repeat' (first
    | with_reducible assumption
    | with_reducible refine State.modHost_keeps (hk := ?_) ..
    | with_reducible refine Keeps.ite ?_ ?_
    | split
    | (with_reducible refine Keeps.lit ?_; dsimp only [State.kept]; with_reducible refine Keeps.unlit ?_))

theorem State.railsDone_keeps {kb : Bool} {s₀ : State} (s : State) (hk : Keeps kb s₀ s) :
    Keeps kb s₀ (State.railsDone s) := by
  unfold State.railsDone
  repeat' (first
    | with_reducible assumption
    | with_reducible first | refine State.modDev_keeps (hk := ?_) .. | refine State.pcieCheck_keeps (hk := ?_) ..
    | split
    | (with_reducible refine Keeps.lit ?_; dsimp only [State.kept]; with_reducible refine Keeps.unlit ?_))

theorem State.startRails_keeps {kb : Bool} {s₀ : State} (s : State) (linkRef : Bool) (hk : Keeps kb s₀ s) :
    Keeps kb s₀ (State.startRails s linkRef) := by
  unfold State.startRails
  repeat' (first
    | with_reducible assumption
    | with_reducible first | refine State.modDev_keeps (hk := ?_) .. | refine State.enableRail_keeps (hk := ?_) .. | refine State.refMissing_keeps (hk := ?_) ..
    | with_reducible refine Keeps.ite ?_ ?_
    | split
    | (with_reducible refine Keeps.lit ?_; dsimp only [State.kept]; with_reducible refine Keeps.unlit ?_)
    | dsimp only)

theorem execColdReset_keeps {s₀ : State} (pins : List (List Nat)) (linkRef : Bool) (altered : List Nat) (s : State) (hk : Keeps false s₀ s) :
    Answers (execColdReset pins linkRef altered s) (Keeps false s₀) := by
  unfold execColdReset
  have k := State.total_keeps _ 2 1 (State.readStraps_keeps _ pins (State.powerLoss_keeps s hk))
  generalize ((s.powerLoss.readStraps pins).total 2 1) = t at k
  have b : Keeps false s₀ ({ t with ledger := t.ledger.alter altered, settle := { t.settle with interrupted := t.dev.passInterrupted } } : State) :=
    Keeps.same { t with ledger := t.ledger.alter altered } rfl (Keeps.record t _ (by simpa only [Ledger.alter_cores] using List.prefix_refl _) k)
  have b := State.boot_keeps _ b
  dsimp only
  generalize State.boot _ = p at b
  obtain ⟨fell, u⟩ := p
  dsimp only at b ⊢
  split
  · exact Answers.next b
  · refine Answers.next (State.startRails_keeps _ _ (State.reidentifyAll_keeps _ (State.placeTime_keeps _ (State.setSlot_keeps _ _ _ ?_))))
    refine State.checkPosition_keeps _ (State.ledgerAppend_keeps _ _ _ _ (State.modSec_keeps _ _ (State.scan_keeps _ (State.modDev_keeps _ _ ?_))))
    exact Keeps.foldl (fun v x h => State.log_keeps _ _ _ _ h) b

theorem execRailPowerGood_keeps {kb : Bool} {s₀ : State} (r : Nat) (s : State) (hk : Keeps kb s₀ s) :
    Answers (execRailPowerGood r s) (Keeps kb s₀) := by
  unfold execRailPowerGood
  repeat' (first
    | with_reducible assumption
    | with_reducible refine Answers.next ?_
    | with_reducible refine Answers.ite ?_ ?_
    | with_reducible first | refine State.modClock_keeps (hk := ?_) .. | refine State.enableRail_keeps (hk := ?_) .. | refine State.railsDone_keeps (hk := ?_) ..
    | with_reducible refine Keeps.ite ?_ ?_
    | split
    | (with_reducible refine Keeps.lit ?_; dsimp only [State.kept]; with_reducible refine Keeps.unlit ?_)
    | dsimp only)

theorem execRailEnableTimeout_keeps {kb : Bool} {s₀ : State} (r : Nat) (s : State) (hk : Keeps kb s₀ s) :
    Answers (execRailEnableTimeout r s) (Keeps kb s₀) := by
  unfold execRailEnableTimeout
  repeat' (first
    | with_reducible assumption
    | with_reducible refine Answers.next ?_
    | with_reducible refine Answers.ite ?_ ?_
    | with_reducible first | refine State.modDev_keeps (hk := ?_) .. | refine State.log_keeps (hk := ?_) ..
    | split
    | (with_reducible refine Keeps.lit ?_; dsimp only [State.kept]; with_reducible refine Keeps.unlit ?_)
    | dsimp only)

theorem execRefclkCheck_keeps {kb : Bool} {s₀ : State} (ref : Nat) (present : Bool) (s : State) (hk : Keeps kb s₀ s) :
    Answers (execRefclkCheck ref present s) (Keeps kb s₀) := by
  unfold execRefclkCheck
  repeat' (first
    | with_reducible assumption
    | with_reducible refine Answers.next ?_
    | with_reducible refine Answers.ite ?_ ?_
    | with_reducible first | refine State.modDev_keeps (hk := ?_) .. | refine State.enableRail_keeps (hk := ?_) .. | refine State.pcieCheck_keeps (hk := ?_) ..
    | with_reducible refine Keeps.ite ?_ ?_
    | split
    | (with_reducible refine Keeps.lit ?_; dsimp only [State.kept]; with_reducible refine Keeps.unlit ?_)
    | dsimp only)

theorem execPllLock_keeps {s₀ : State} (s : State) (hk : Keeps false s₀ s) : Answers (execPllLock s) (Keeps false s₀) := by
  unfold execPllLock
  split
  · refine Answers.next (State.modDev_keeps _ _ (State.modClusters_keeps _ _ ?_))
    exact Keeps.memory s _ (Memory.wf_zero _ _ _) hk
  · exact Answers.next hk

theorem State.judgeModule_keeps {kb : Bool} {s₀ : State} (s : State) (ref : Option Module) (n : Nat) (m : Module) (hk : Keeps kb s₀ s) :
    Keeps kb s₀ (State.judgeModule s ref n m) := by
  unfold State.judgeModule
  repeat' (first
    | with_reducible assumption
    | with_reducible refine State.log_keeps (hk := ?_) ..
    | with_reducible refine Keeps.ite ?_ ?_
    | split)

theorem State.fixDram_keeps {kb : Bool} {s₀ : State} (s : State) (xs : List (Nat × Module)) (hk : Keeps kb s₀ s) :
    Keeps kb s₀ (State.fixDram s xs) := by
  unfold State.fixDram
  repeat' (first
    | with_reducible assumption
    | with_reducible first | refine State.modChannel_keeps (hk := ?_) .. | refine State.log_keeps (hk := ?_) .. | refine State.judgeModule_keeps (hk := ?_) ..
    | with_reducible refine Keeps.ite ?_ ?_
    | with_reducible refine Keeps.foldl (fun _ _ _ => ?_) ?_
    | split
    | (with_reducible refine Keeps.lit ?_; dsimp only [State.kept]; with_reducible refine Keeps.unlit ?_)
    | dsimp only)

theorem execDramTrainingDone_keeps {kb : Bool} {s₀ : State} (xs : List (Nat × Module)) (s : State) (hk : Keeps kb s₀ s) :
    Answers (execDramTrainingDone xs s) (Keeps kb s₀) := by
  unfold execDramTrainingDone
  repeat' (first
    | with_reducible assumption
    | with_reducible refine Answers.next ?_
    | with_reducible refine Answers.ite ?_ ?_
    | with_reducible first | refine State.modDev_keeps (hk := ?_) .. | refine State.log_keeps (hk := ?_) .. | refine State.fixDram_keeps (hk := ?_) ..
    | with_reducible refine Keeps.ite ?_ ?_
    | split
    | (with_reducible refine Keeps.lit ?_; dsimp only [State.kept]; with_reducible refine Keeps.unlit ?_)
    | dsimp only)

theorem execDramZeroDone_keeps {s₀ : State} (s : State) (hk : Keeps false s₀ s) : Answers (execDramZeroDone s) (Keeps false s₀) := by
  unfold execDramZeroDone
  split
  · exact Answers.next (State.modDev_keeps _ _ (Keeps.memory s _ (Memory.wf_zero _ _ _) hk))
  · exact Answers.next hk

theorem execDeviceReady_keeps {kb : Bool} {s₀ : State} (s : State) (hk : Keeps kb s₀ s) :
    Answers (execDeviceReady s) (Keeps kb s₀) := by
  unfold execDeviceReady
  repeat' (first
    | with_reducible assumption
    | with_reducible refine Answers.next ?_
    | with_reducible refine Answers.ite ?_ ?_
    | with_reducible first | refine State.modClusters_keeps (hk := ?_) .. | refine State.modPwr_keeps (hk := ?_) .. | refine State.modDev_keeps (hk := ?_) .. | refine State.reach_keeps (hk := ?_) .. | refine State.log_keeps (hk := ?_) .. | refine State.resetEvent_keeps (hk := ?_) ..
    | split
    | (with_reducible refine Keeps.lit ?_; dsimp only [State.kept]; with_reducible refine Keeps.unlit ?_)
    | dsimp only)

theorem execRollbackFuseBlow_keeps {kb : Bool} {s₀ : State} (cls : Nat) (s : State) (hk : Keeps kb s₀ s) :
    Answers (execRollbackFuseBlow cls s) (fun t => Keeps kb { s₀ with fuses := t.fuses } t ∧ ∀ c, s.fuses.svn c ≤ t.fuses.svn c) := by
  unfold execRollbackFuseBlow
  have g : ∀ (u : State) (f : Fuses), Keeps kb s₀ u → Keeps kb { s₀ with fuses := f } { u with fuses := f } := fun u f h =>
    ⟨h.1, rfl, h.2.2⟩
  dsimp only
  split
  · have h1 : ∃ f : Fuses, (if bit (leAt (tget s.sec.booted [] cls) 7 1) 0 = true then { s with fuses := { s.fuses with revoke0 := true } } else s)
        = { s with fuses := f } ∧ f.rollback = s.fuses.rollback := by split <;> exact ⟨_, rfl, rfl⟩
    obtain ⟨f, e, hf⟩ := h1
    rw [e]
    dsimp only
    split
    · refine Answers.next ?_
      rename_i hlt
      have l := State.log_keeps _ EventClass.rollbackFuseBlown (srcBlock 5) [(1, cls), (4, leAt (tget s.sec.booted [] cls) 6 1)]
        (g s { f with rollback := tset f.rollback 0 cls (leAt (tget s.sec.booted [] cls) 6 1) } hk)
      have e2 := l.2.1
      refine ⟨?_, fun c => ?_⟩
      · have : ∀ (t : State) (x : Fuses), Keeps kb { s₀ with fuses := x } t → Keeps kb { s₀ with fuses := t.fuses } t := fun t x h =>
          ⟨h.1, rfl, h.2.2⟩
        exact this _ _ l
      · refine Nat.le_trans ?_ (Nat.le_of_eq (congrArg (fun (q : Fuses) => q.svn c) e2.symm))
        simp only [Fuses.svn] at hlt ⊢
        rw [tget_tset, hf]; rw [hf] at hlt
        split
        · subst c; exact Nat.le_of_lt hlt
        · exact Nat.le_refl _
    · refine Answers.next ⟨g s f hk, fun c => ?_⟩
      simp only [Fuses.svn]; exact Nat.le_of_eq (by rw [hf])
  · exact Answers.next ⟨⟨hk.1, rfl, hk.2.2⟩, fun c => Nat.le_refl _⟩

theorem execPerstDeassert_keeps {kb : Bool} {s₀ : State} (pcieRef : Bool) (s : State) (hk : Keeps kb s₀ s) :
    Answers (execPerstDeassert pcieRef s) (Keeps kb s₀) := by
  unfold execPerstDeassert
  repeat' (first
    | with_reducible assumption
    | with_reducible refine Answers.next ?_
    | with_reducible refine Answers.ite ?_ ?_
    | with_reducible first | refine State.modDev_keeps (hk := ?_) .. | refine State.refMissing_keeps (hk := ?_) .. | refine State.pcieCheck_keeps (hk := ?_) ..
    | split
    | (with_reducible refine Keeps.lit ?_; dsimp only [State.kept]; with_reducible refine Keeps.unlit ?_)
    | dsimp only)

theorem execWarmReset_keeps {s₀ : State} (perst : Bool) (s : State) (hk : Keeps false s₀ s) :
    Answers (execWarmReset perst s) (Keeps false s₀) := by
  unfold execWarmReset
  repeat' (first
    | with_reducible assumption
    | with_reducible refine Answers.next ?_
    | with_reducible first | refine State.modHost_keeps (hk := ?_) .. | refine State.modDev_keeps (hk := ?_) .. | refine State.warmReset_keeps (hk := ?_) ..
    | with_reducible refine Keeps.ite ?_ ?_
    | split
    | (with_reducible refine Keeps.lit ?_; dsimp only [State.kept]; with_reducible refine Keeps.unlit ?_)
    | dsimp only)

theorem execFunctionLevelReset_keeps {s₀ : State} (s : State) (hk : Keeps false s₀ s) :
    Answers (execFunctionLevelReset s) (Keeps false s₀) := by
  unfold execFunctionLevelReset
  repeat' (first
    | with_reducible assumption
    | with_reducible refine Answers.next ?_
    | with_reducible refine Answers.ite ?_ ?_
    | with_reducible refine State.flr_keeps (hk := ?_) ..
    | dsimp only)

theorem execFlrScrubDone_keeps {s₀ : State} (s : State) (hk : Keeps false s₀ s) : Answers (execFlrScrubDone s) (Keeps false s₀) := by
  unfold execFlrScrubDone
  split
  · exact Answers.next (State.modDev_keeps _ _ (Keeps.memory s _ (Memory.wf_zero _ _ _) hk))
  · exact Answers.next hk

theorem execSliceReset_keeps {s₀ : State} (s : State) (hk : Keeps false s₀ s) :
    Answers (execSliceReset s) (Keeps false s₀) := by
  unfold execSliceReset
  repeat' (first
    | with_reducible assumption
    | with_reducible refine Answers.next ?_
    | with_reducible refine Answers.ite ?_ ?_
    | with_reducible refine State.sliceResetHere_keeps (hk := ?_) ..
    | dsimp only)

theorem execClusterReset_keeps {kb : Bool} {s₀ : State} (c : Nat) (s : State) (hk : Keeps kb s₀ s) :
    Answers (execClusterReset c s) (Keeps kb s₀) := by
  unfold execClusterReset
  repeat' (first
    | with_reducible assumption
    | with_reducible refine Answers.next ?_
    | with_reducible refine Answers.ite ?_ ?_
    | with_reducible refine State.clusterReset_keeps (hk := ?_) ..
    | dsimp only)

theorem execCoreReset_keeps {s₀ : State} (p : Nat) (s : State) (hk : Keeps false s₀ s) :
    Answers (execCoreReset p s) (Keeps false s₀) := by
  unfold execCoreReset
  repeat' (first
    | with_reducible assumption
    | with_reducible refine Answers.next ?_
    | with_reducible refine Answers.ite ?_ ?_
    | with_reducible refine State.coreReset_keeps (hk := ?_) ..
    | dsimp only)

theorem execPortReset_keeps {s₀ : State} (n : Nat) (s : State) (hk : Keeps false s₀ s) :
    Answers (execPortReset n s) (Keeps false s₀) := by
  unfold execPortReset
  repeat' (first
    | with_reducible assumption
    | with_reducible refine Answers.next ?_
    | with_reducible refine Answers.ite ?_ ?_
    | with_reducible refine State.portReset_keeps (hk := ?_) ..
    | dsimp only)

end Sys2Proof.Machine
end

