-- ==== Sys2Proof/Laws/State.lean ====
section
/-!
SUPPORT. One lemma per field of State per named update: what the update makes of its own field, and that every other field is as it
was. With them no proof needs to unfold a record update.
-/
set_option autoImplicit false
namespace Sys2Proof.Machine

/-! ### modCluster -/

@[simp] theorem State.modCluster_pending (s : State) (c : Nat) (f : Cluster → Cluster) : (s.modCluster c f).pending = s.pending := rfl
@[simp] theorem State.modCluster_aoNs (s : State) (c : Nat) (f : Cluster → Cluster) : (s.modCluster c f).aoNs = s.aoNs := rfl
@[simp] theorem State.modCluster_devOff (s : State) (c : Nat) (f : Cluster → Cluster) : (s.modCluster c f).devOff = s.devOff := rfl
@[simp] theorem State.modCluster_free (s : State) (c : Nat) (f : Cluster → Cluster) : (s.modCluster c f).free = s.free := rfl
@[simp] theorem State.modCluster_out (s : State) (c : Nat) (f : Cluster → Cluster) : (s.modCluster c f).out = s.out := rfl
@[simp] theorem State.modCluster_fuses (s : State) (c : Nat) (f : Cluster → Cluster) : (s.modCluster c f).fuses = s.fuses := rfl
@[simp] theorem State.modCluster_flash (s : State) (c : Nat) (f : Cluster → Cluster) : (s.modCluster c f).flash = s.flash := rfl
@[simp] theorem State.modCluster_ledger (s : State) (c : Nat) (f : Cluster → Cluster) : (s.modCluster c f).ledger = s.ledger := rfl
@[simp] theorem State.modCluster_dev (s : State) (c : Nat) (f : Cluster → Cluster) : (s.modCluster c f).dev = s.dev := rfl
@[simp] theorem State.modCluster_err (s : State) (c : Nat) (f : Cluster → Cluster) : (s.modCluster c f).err = s.err := rfl
@[simp] theorem State.modCluster_host (s : State) (c : Nat) (f : Cluster → Cluster) : (s.modCluster c f).host = s.host := rfl
@[simp] theorem State.modCluster_job (s : State) (c : Nat) (f : Cluster → Cluster) : (s.modCluster c f).job = s.job := rfl
@[simp] theorem State.modCluster_saved (s : State) (c : Nat) (f : Cluster → Cluster) : (s.modCluster c f).saved = s.saved := rfl
@[simp] theorem State.modCluster_preempt (s : State) (c : Nat) (f : Cluster → Cluster) : (s.modCluster c f).preempt = s.preempt := rfl
@[simp] theorem State.modCluster_preempts (s : State) (c : Nat) (f : Cluster → Cluster) : (s.modCluster c f).preempts = s.preempts := rfl
@[simp] theorem State.modCluster_clusters (s : State) (c : Nat) (f : Cluster → Cluster) : (s.modCluster c f).clusters = tmod s.clusters {} c f := rfl
@[simp] theorem State.modCluster_cores (s : State) (c : Nat) (f : Cluster → Cluster) : (s.modCluster c f).cores = s.cores := rfl
@[simp] theorem State.modCluster_units (s : State) (c : Nat) (f : Cluster → Cluster) : (s.modCluster c f).units = s.units := rfl
@[simp] theorem State.modCluster_hwm (s : State) (c : Nat) (f : Cluster → Cluster) : (s.modCluster c f).hwm = s.hwm := rfl
@[simp] theorem State.modCluster_mem (s : State) (c : Nat) (f : Cluster → Cluster) : (s.modCluster c f).mem = s.mem := rfl
@[simp] theorem State.modCluster_dram (s : State) (c : Nat) (f : Cluster → Cluster) : (s.modCluster c f).dram = s.dram := rfl
@[simp] theorem State.modCluster_settle (s : State) (c : Nat) (f : Cluster → Cluster) : (s.modCluster c f).settle = s.settle := rfl
@[simp] theorem State.modCluster_dec (s : State) (c : Nat) (f : Cluster → Cluster) : (s.modCluster c f).dec = s.dec := rfl
@[simp] theorem State.modCluster_col (s : State) (c : Nat) (f : Cluster → Cluster) : (s.modCluster c f).col = s.col := rfl
@[simp] theorem State.modCluster_ports (s : State) (c : Nat) (f : Cluster → Cluster) : (s.modCluster c f).ports = s.ports := rfl
@[simp] theorem State.modCluster_time (s : State) (c : Nat) (f : Cluster → Cluster) : (s.modCluster c f).time = s.time := rfl
@[simp] theorem State.modCluster_rtr (s : State) (c : Nat) (f : Cluster → Cluster) : (s.modCluster c f).rtr = s.rtr := rfl
@[simp] theorem State.modCluster_pwr (s : State) (c : Nat) (f : Cluster → Cluster) : (s.modCluster c f).pwr = s.pwr := rfl
@[simp] theorem State.modCluster_rails (s : State) (c : Nat) (f : Cluster → Cluster) : (s.modCluster c f).rails = s.rails := rfl
@[simp] theorem State.modCluster_mgmt (s : State) (c : Nat) (f : Cluster → Cluster) : (s.modCluster c f).mgmt = s.mgmt := rfl
@[simp] theorem State.modCluster_tel (s : State) (c : Nat) (f : Cluster → Cluster) : (s.modCluster c f).tel = s.tel := rfl
@[simp] theorem State.modCluster_sec (s : State) (c : Nat) (f : Cluster → Cluster) : (s.modCluster c f).sec = s.sec := rfl
@[simp] theorem State.modCluster_latches (s : State) (c : Nat) (f : Cluster → Cluster) : (s.modCluster c f).latches = s.latches := rfl

/-! ### modClusters -/

@[simp] theorem State.modClusters_pending (s : State) (f : Nat → Cluster → Cluster) : (s.modClusters f).pending = s.pending := rfl
@[simp] theorem State.modClusters_aoNs (s : State) (f : Nat → Cluster → Cluster) : (s.modClusters f).aoNs = s.aoNs := rfl
@[simp] theorem State.modClusters_devOff (s : State) (f : Nat → Cluster → Cluster) : (s.modClusters f).devOff = s.devOff := rfl
@[simp] theorem State.modClusters_free (s : State) (f : Nat → Cluster → Cluster) : (s.modClusters f).free = s.free := rfl
@[simp] theorem State.modClusters_out (s : State) (f : Nat → Cluster → Cluster) : (s.modClusters f).out = s.out := rfl
@[simp] theorem State.modClusters_fuses (s : State) (f : Nat → Cluster → Cluster) : (s.modClusters f).fuses = s.fuses := rfl
@[simp] theorem State.modClusters_flash (s : State) (f : Nat → Cluster → Cluster) : (s.modClusters f).flash = s.flash := rfl
@[simp] theorem State.modClusters_ledger (s : State) (f : Nat → Cluster → Cluster) : (s.modClusters f).ledger = s.ledger := rfl
@[simp] theorem State.modClusters_dev (s : State) (f : Nat → Cluster → Cluster) : (s.modClusters f).dev = s.dev := rfl
@[simp] theorem State.modClusters_err (s : State) (f : Nat → Cluster → Cluster) : (s.modClusters f).err = s.err := rfl
@[simp] theorem State.modClusters_host (s : State) (f : Nat → Cluster → Cluster) : (s.modClusters f).host = s.host := rfl
@[simp] theorem State.modClusters_job (s : State) (f : Nat → Cluster → Cluster) : (s.modClusters f).job = s.job := rfl
@[simp] theorem State.modClusters_saved (s : State) (f : Nat → Cluster → Cluster) : (s.modClusters f).saved = s.saved := rfl
@[simp] theorem State.modClusters_preempt (s : State) (f : Nat → Cluster → Cluster) : (s.modClusters f).preempt = s.preempt := rfl
@[simp] theorem State.modClusters_preempts (s : State) (f : Nat → Cluster → Cluster) : (s.modClusters f).preempts = s.preempts := rfl
@[simp] theorem State.modClusters_clusters (s : State) (f : Nat → Cluster → Cluster) : (s.modClusters f).clusters = tmods s.clusters {} (List.range 8) f := rfl
@[simp] theorem State.modClusters_cores (s : State) (f : Nat → Cluster → Cluster) : (s.modClusters f).cores = s.cores := rfl
@[simp] theorem State.modClusters_units (s : State) (f : Nat → Cluster → Cluster) : (s.modClusters f).units = s.units := rfl
@[simp] theorem State.modClusters_hwm (s : State) (f : Nat → Cluster → Cluster) : (s.modClusters f).hwm = s.hwm := rfl
@[simp] theorem State.modClusters_mem (s : State) (f : Nat → Cluster → Cluster) : (s.modClusters f).mem = s.mem := rfl
@[simp] theorem State.modClusters_dram (s : State) (f : Nat → Cluster → Cluster) : (s.modClusters f).dram = s.dram := rfl
@[simp] theorem State.modClusters_settle (s : State) (f : Nat → Cluster → Cluster) : (s.modClusters f).settle = s.settle := rfl
@[simp] theorem State.modClusters_dec (s : State) (f : Nat → Cluster → Cluster) : (s.modClusters f).dec = s.dec := rfl
@[simp] theorem State.modClusters_col (s : State) (f : Nat → Cluster → Cluster) : (s.modClusters f).col = s.col := rfl
@[simp] theorem State.modClusters_ports (s : State) (f : Nat → Cluster → Cluster) : (s.modClusters f).ports = s.ports := rfl
@[simp] theorem State.modClusters_time (s : State) (f : Nat → Cluster → Cluster) : (s.modClusters f).time = s.time := rfl
@[simp] theorem State.modClusters_rtr (s : State) (f : Nat → Cluster → Cluster) : (s.modClusters f).rtr = s.rtr := rfl
@[simp] theorem State.modClusters_pwr (s : State) (f : Nat → Cluster → Cluster) : (s.modClusters f).pwr = s.pwr := rfl
@[simp] theorem State.modClusters_rails (s : State) (f : Nat → Cluster → Cluster) : (s.modClusters f).rails = s.rails := rfl
@[simp] theorem State.modClusters_mgmt (s : State) (f : Nat → Cluster → Cluster) : (s.modClusters f).mgmt = s.mgmt := rfl
@[simp] theorem State.modClusters_tel (s : State) (f : Nat → Cluster → Cluster) : (s.modClusters f).tel = s.tel := rfl
@[simp] theorem State.modClusters_sec (s : State) (f : Nat → Cluster → Cluster) : (s.modClusters f).sec = s.sec := rfl
@[simp] theorem State.modClusters_latches (s : State) (f : Nat → Cluster → Cluster) : (s.modClusters f).latches = s.latches := rfl

/-! ### modSeq -/

@[simp] theorem State.modSeq_pending (s : State) (c : Nat) (f : Sequencer → Sequencer) : (s.modSeq c f).pending = s.pending := rfl
@[simp] theorem State.modSeq_aoNs (s : State) (c : Nat) (f : Sequencer → Sequencer) : (s.modSeq c f).aoNs = s.aoNs := rfl
@[simp] theorem State.modSeq_devOff (s : State) (c : Nat) (f : Sequencer → Sequencer) : (s.modSeq c f).devOff = s.devOff := rfl
@[simp] theorem State.modSeq_free (s : State) (c : Nat) (f : Sequencer → Sequencer) : (s.modSeq c f).free = s.free := rfl
@[simp] theorem State.modSeq_out (s : State) (c : Nat) (f : Sequencer → Sequencer) : (s.modSeq c f).out = s.out := rfl
@[simp] theorem State.modSeq_fuses (s : State) (c : Nat) (f : Sequencer → Sequencer) : (s.modSeq c f).fuses = s.fuses := rfl
@[simp] theorem State.modSeq_flash (s : State) (c : Nat) (f : Sequencer → Sequencer) : (s.modSeq c f).flash = s.flash := rfl
@[simp] theorem State.modSeq_ledger (s : State) (c : Nat) (f : Sequencer → Sequencer) : (s.modSeq c f).ledger = s.ledger := rfl
@[simp] theorem State.modSeq_dev (s : State) (c : Nat) (f : Sequencer → Sequencer) : (s.modSeq c f).dev = s.dev := rfl
@[simp] theorem State.modSeq_err (s : State) (c : Nat) (f : Sequencer → Sequencer) : (s.modSeq c f).err = s.err := rfl
@[simp] theorem State.modSeq_host (s : State) (c : Nat) (f : Sequencer → Sequencer) : (s.modSeq c f).host = s.host := rfl
@[simp] theorem State.modSeq_job (s : State) (c : Nat) (f : Sequencer → Sequencer) : (s.modSeq c f).job = s.job := rfl
@[simp] theorem State.modSeq_saved (s : State) (c : Nat) (f : Sequencer → Sequencer) : (s.modSeq c f).saved = s.saved := rfl
@[simp] theorem State.modSeq_preempt (s : State) (c : Nat) (f : Sequencer → Sequencer) : (s.modSeq c f).preempt = s.preempt := rfl
@[simp] theorem State.modSeq_preempts (s : State) (c : Nat) (f : Sequencer → Sequencer) : (s.modSeq c f).preempts = s.preempts := rfl
@[simp] theorem State.modSeq_clusters (s : State) (c : Nat) (f : Sequencer → Sequencer) : (s.modSeq c f).clusters = tmod s.clusters {} c (fun k => { k with seq := f k.seq }) := rfl
@[simp] theorem State.modSeq_cores (s : State) (c : Nat) (f : Sequencer → Sequencer) : (s.modSeq c f).cores = s.cores := rfl
@[simp] theorem State.modSeq_units (s : State) (c : Nat) (f : Sequencer → Sequencer) : (s.modSeq c f).units = s.units := rfl
@[simp] theorem State.modSeq_hwm (s : State) (c : Nat) (f : Sequencer → Sequencer) : (s.modSeq c f).hwm = s.hwm := rfl
@[simp] theorem State.modSeq_mem (s : State) (c : Nat) (f : Sequencer → Sequencer) : (s.modSeq c f).mem = s.mem := rfl
@[simp] theorem State.modSeq_dram (s : State) (c : Nat) (f : Sequencer → Sequencer) : (s.modSeq c f).dram = s.dram := rfl
@[simp] theorem State.modSeq_settle (s : State) (c : Nat) (f : Sequencer → Sequencer) : (s.modSeq c f).settle = s.settle := rfl
@[simp] theorem State.modSeq_dec (s : State) (c : Nat) (f : Sequencer → Sequencer) : (s.modSeq c f).dec = s.dec := rfl
@[simp] theorem State.modSeq_col (s : State) (c : Nat) (f : Sequencer → Sequencer) : (s.modSeq c f).col = s.col := rfl
@[simp] theorem State.modSeq_ports (s : State) (c : Nat) (f : Sequencer → Sequencer) : (s.modSeq c f).ports = s.ports := rfl
@[simp] theorem State.modSeq_time (s : State) (c : Nat) (f : Sequencer → Sequencer) : (s.modSeq c f).time = s.time := rfl
@[simp] theorem State.modSeq_rtr (s : State) (c : Nat) (f : Sequencer → Sequencer) : (s.modSeq c f).rtr = s.rtr := rfl
@[simp] theorem State.modSeq_pwr (s : State) (c : Nat) (f : Sequencer → Sequencer) : (s.modSeq c f).pwr = s.pwr := rfl
@[simp] theorem State.modSeq_rails (s : State) (c : Nat) (f : Sequencer → Sequencer) : (s.modSeq c f).rails = s.rails := rfl
@[simp] theorem State.modSeq_mgmt (s : State) (c : Nat) (f : Sequencer → Sequencer) : (s.modSeq c f).mgmt = s.mgmt := rfl
@[simp] theorem State.modSeq_tel (s : State) (c : Nat) (f : Sequencer → Sequencer) : (s.modSeq c f).tel = s.tel := rfl
@[simp] theorem State.modSeq_sec (s : State) (c : Nat) (f : Sequencer → Sequencer) : (s.modSeq c f).sec = s.sec := rfl
@[simp] theorem State.modSeq_latches (s : State) (c : Nat) (f : Sequencer → Sequencer) : (s.modSeq c f).latches = s.latches := rfl

/-! ### modClock -/

@[simp] theorem State.modClock_pending (s : State) (c : Nat) (f : ClockSt → ClockSt) : (s.modClock c f).pending = s.pending := rfl
@[simp] theorem State.modClock_aoNs (s : State) (c : Nat) (f : ClockSt → ClockSt) : (s.modClock c f).aoNs = s.aoNs := rfl
@[simp] theorem State.modClock_devOff (s : State) (c : Nat) (f : ClockSt → ClockSt) : (s.modClock c f).devOff = s.devOff := rfl
@[simp] theorem State.modClock_free (s : State) (c : Nat) (f : ClockSt → ClockSt) : (s.modClock c f).free = s.free := rfl
@[simp] theorem State.modClock_out (s : State) (c : Nat) (f : ClockSt → ClockSt) : (s.modClock c f).out = s.out := rfl
@[simp] theorem State.modClock_fuses (s : State) (c : Nat) (f : ClockSt → ClockSt) : (s.modClock c f).fuses = s.fuses := rfl
@[simp] theorem State.modClock_flash (s : State) (c : Nat) (f : ClockSt → ClockSt) : (s.modClock c f).flash = s.flash := rfl
@[simp] theorem State.modClock_ledger (s : State) (c : Nat) (f : ClockSt → ClockSt) : (s.modClock c f).ledger = s.ledger := rfl
@[simp] theorem State.modClock_dev (s : State) (c : Nat) (f : ClockSt → ClockSt) : (s.modClock c f).dev = s.dev := rfl
@[simp] theorem State.modClock_err (s : State) (c : Nat) (f : ClockSt → ClockSt) : (s.modClock c f).err = s.err := rfl
@[simp] theorem State.modClock_host (s : State) (c : Nat) (f : ClockSt → ClockSt) : (s.modClock c f).host = s.host := rfl
@[simp] theorem State.modClock_job (s : State) (c : Nat) (f : ClockSt → ClockSt) : (s.modClock c f).job = s.job := rfl
@[simp] theorem State.modClock_saved (s : State) (c : Nat) (f : ClockSt → ClockSt) : (s.modClock c f).saved = s.saved := rfl
@[simp] theorem State.modClock_preempt (s : State) (c : Nat) (f : ClockSt → ClockSt) : (s.modClock c f).preempt = s.preempt := rfl
@[simp] theorem State.modClock_preempts (s : State) (c : Nat) (f : ClockSt → ClockSt) : (s.modClock c f).preempts = s.preempts := rfl
@[simp] theorem State.modClock_clusters (s : State) (c : Nat) (f : ClockSt → ClockSt) : (s.modClock c f).clusters = tmod s.clusters {} c (fun k => { k with clock := f k.clock }) := rfl
@[simp] theorem State.modClock_cores (s : State) (c : Nat) (f : ClockSt → ClockSt) : (s.modClock c f).cores = s.cores := rfl
@[simp] theorem State.modClock_units (s : State) (c : Nat) (f : ClockSt → ClockSt) : (s.modClock c f).units = s.units := rfl
@[simp] theorem State.modClock_hwm (s : State) (c : Nat) (f : ClockSt → ClockSt) : (s.modClock c f).hwm = s.hwm := rfl
@[simp] theorem State.modClock_mem (s : State) (c : Nat) (f : ClockSt → ClockSt) : (s.modClock c f).mem = s.mem := rfl
@[simp] theorem State.modClock_dram (s : State) (c : Nat) (f : ClockSt → ClockSt) : (s.modClock c f).dram = s.dram := rfl
@[simp] theorem State.modClock_settle (s : State) (c : Nat) (f : ClockSt → ClockSt) : (s.modClock c f).settle = s.settle := rfl
@[simp] theorem State.modClock_dec (s : State) (c : Nat) (f : ClockSt → ClockSt) : (s.modClock c f).dec = s.dec := rfl
@[simp] theorem State.modClock_col (s : State) (c : Nat) (f : ClockSt → ClockSt) : (s.modClock c f).col = s.col := rfl
@[simp] theorem State.modClock_ports (s : State) (c : Nat) (f : ClockSt → ClockSt) : (s.modClock c f).ports = s.ports := rfl
@[simp] theorem State.modClock_time (s : State) (c : Nat) (f : ClockSt → ClockSt) : (s.modClock c f).time = s.time := rfl
@[simp] theorem State.modClock_rtr (s : State) (c : Nat) (f : ClockSt → ClockSt) : (s.modClock c f).rtr = s.rtr := rfl
@[simp] theorem State.modClock_pwr (s : State) (c : Nat) (f : ClockSt → ClockSt) : (s.modClock c f).pwr = s.pwr := rfl
@[simp] theorem State.modClock_rails (s : State) (c : Nat) (f : ClockSt → ClockSt) : (s.modClock c f).rails = s.rails := rfl
@[simp] theorem State.modClock_mgmt (s : State) (c : Nat) (f : ClockSt → ClockSt) : (s.modClock c f).mgmt = s.mgmt := rfl
@[simp] theorem State.modClock_tel (s : State) (c : Nat) (f : ClockSt → ClockSt) : (s.modClock c f).tel = s.tel := rfl
@[simp] theorem State.modClock_sec (s : State) (c : Nat) (f : ClockSt → ClockSt) : (s.modClock c f).sec = s.sec := rfl
@[simp] theorem State.modClock_latches (s : State) (c : Nat) (f : ClockSt → ClockSt) : (s.modClock c f).latches = s.latches := rfl

/-! ### modPurse -/

@[simp] theorem State.modPurse_pending (s : State) (c : Nat) (f : Purse → Purse) : (s.modPurse c f).pending = s.pending := rfl
@[simp] theorem State.modPurse_aoNs (s : State) (c : Nat) (f : Purse → Purse) : (s.modPurse c f).aoNs = s.aoNs := rfl
@[simp] theorem State.modPurse_devOff (s : State) (c : Nat) (f : Purse → Purse) : (s.modPurse c f).devOff = s.devOff := rfl
@[simp] theorem State.modPurse_free (s : State) (c : Nat) (f : Purse → Purse) : (s.modPurse c f).free = s.free := rfl
@[simp] theorem State.modPurse_out (s : State) (c : Nat) (f : Purse → Purse) : (s.modPurse c f).out = s.out := rfl
@[simp] theorem State.modPurse_fuses (s : State) (c : Nat) (f : Purse → Purse) : (s.modPurse c f).fuses = s.fuses := rfl
@[simp] theorem State.modPurse_flash (s : State) (c : Nat) (f : Purse → Purse) : (s.modPurse c f).flash = s.flash := rfl
@[simp] theorem State.modPurse_ledger (s : State) (c : Nat) (f : Purse → Purse) : (s.modPurse c f).ledger = s.ledger := rfl
@[simp] theorem State.modPurse_dev (s : State) (c : Nat) (f : Purse → Purse) : (s.modPurse c f).dev = s.dev := rfl
@[simp] theorem State.modPurse_err (s : State) (c : Nat) (f : Purse → Purse) : (s.modPurse c f).err = s.err := rfl
@[simp] theorem State.modPurse_host (s : State) (c : Nat) (f : Purse → Purse) : (s.modPurse c f).host = s.host := rfl
@[simp] theorem State.modPurse_job (s : State) (c : Nat) (f : Purse → Purse) : (s.modPurse c f).job = s.job := rfl
@[simp] theorem State.modPurse_saved (s : State) (c : Nat) (f : Purse → Purse) : (s.modPurse c f).saved = s.saved := rfl
@[simp] theorem State.modPurse_preempt (s : State) (c : Nat) (f : Purse → Purse) : (s.modPurse c f).preempt = s.preempt := rfl
@[simp] theorem State.modPurse_preempts (s : State) (c : Nat) (f : Purse → Purse) : (s.modPurse c f).preempts = s.preempts := rfl
@[simp] theorem State.modPurse_clusters (s : State) (c : Nat) (f : Purse → Purse) : (s.modPurse c f).clusters = tmod s.clusters {} c (fun k => { k with purse := f k.purse }) := rfl
@[simp] theorem State.modPurse_cores (s : State) (c : Nat) (f : Purse → Purse) : (s.modPurse c f).cores = s.cores := rfl
@[simp] theorem State.modPurse_units (s : State) (c : Nat) (f : Purse → Purse) : (s.modPurse c f).units = s.units := rfl
@[simp] theorem State.modPurse_hwm (s : State) (c : Nat) (f : Purse → Purse) : (s.modPurse c f).hwm = s.hwm := rfl
@[simp] theorem State.modPurse_mem (s : State) (c : Nat) (f : Purse → Purse) : (s.modPurse c f).mem = s.mem := rfl
@[simp] theorem State.modPurse_dram (s : State) (c : Nat) (f : Purse → Purse) : (s.modPurse c f).dram = s.dram := rfl
@[simp] theorem State.modPurse_settle (s : State) (c : Nat) (f : Purse → Purse) : (s.modPurse c f).settle = s.settle := rfl
@[simp] theorem State.modPurse_dec (s : State) (c : Nat) (f : Purse → Purse) : (s.modPurse c f).dec = s.dec := rfl
@[simp] theorem State.modPurse_col (s : State) (c : Nat) (f : Purse → Purse) : (s.modPurse c f).col = s.col := rfl
@[simp] theorem State.modPurse_ports (s : State) (c : Nat) (f : Purse → Purse) : (s.modPurse c f).ports = s.ports := rfl
@[simp] theorem State.modPurse_time (s : State) (c : Nat) (f : Purse → Purse) : (s.modPurse c f).time = s.time := rfl
@[simp] theorem State.modPurse_rtr (s : State) (c : Nat) (f : Purse → Purse) : (s.modPurse c f).rtr = s.rtr := rfl
@[simp] theorem State.modPurse_pwr (s : State) (c : Nat) (f : Purse → Purse) : (s.modPurse c f).pwr = s.pwr := rfl
@[simp] theorem State.modPurse_rails (s : State) (c : Nat) (f : Purse → Purse) : (s.modPurse c f).rails = s.rails := rfl
@[simp] theorem State.modPurse_mgmt (s : State) (c : Nat) (f : Purse → Purse) : (s.modPurse c f).mgmt = s.mgmt := rfl
@[simp] theorem State.modPurse_tel (s : State) (c : Nat) (f : Purse → Purse) : (s.modPurse c f).tel = s.tel := rfl
@[simp] theorem State.modPurse_sec (s : State) (c : Nat) (f : Purse → Purse) : (s.modPurse c f).sec = s.sec := rfl
@[simp] theorem State.modPurse_latches (s : State) (c : Nat) (f : Purse → Purse) : (s.modPurse c f).latches = s.latches := rfl

/-! ### modCore -/

@[simp] theorem State.modCore_pending (s : State) (p : Nat) (f : Core → Core) : (s.modCore p f).pending = s.pending := rfl
@[simp] theorem State.modCore_aoNs (s : State) (p : Nat) (f : Core → Core) : (s.modCore p f).aoNs = s.aoNs := rfl
@[simp] theorem State.modCore_devOff (s : State) (p : Nat) (f : Core → Core) : (s.modCore p f).devOff = s.devOff := rfl
@[simp] theorem State.modCore_free (s : State) (p : Nat) (f : Core → Core) : (s.modCore p f).free = s.free := rfl
@[simp] theorem State.modCore_out (s : State) (p : Nat) (f : Core → Core) : (s.modCore p f).out = s.out := rfl
@[simp] theorem State.modCore_fuses (s : State) (p : Nat) (f : Core → Core) : (s.modCore p f).fuses = s.fuses := rfl
@[simp] theorem State.modCore_flash (s : State) (p : Nat) (f : Core → Core) : (s.modCore p f).flash = s.flash := rfl
@[simp] theorem State.modCore_ledger (s : State) (p : Nat) (f : Core → Core) : (s.modCore p f).ledger = s.ledger := rfl
@[simp] theorem State.modCore_dev (s : State) (p : Nat) (f : Core → Core) : (s.modCore p f).dev = s.dev := rfl
@[simp] theorem State.modCore_err (s : State) (p : Nat) (f : Core → Core) : (s.modCore p f).err = s.err := rfl
@[simp] theorem State.modCore_host (s : State) (p : Nat) (f : Core → Core) : (s.modCore p f).host = s.host := rfl
@[simp] theorem State.modCore_job (s : State) (p : Nat) (f : Core → Core) : (s.modCore p f).job = s.job := rfl
@[simp] theorem State.modCore_saved (s : State) (p : Nat) (f : Core → Core) : (s.modCore p f).saved = s.saved := rfl
@[simp] theorem State.modCore_preempt (s : State) (p : Nat) (f : Core → Core) : (s.modCore p f).preempt = s.preempt := rfl
@[simp] theorem State.modCore_preempts (s : State) (p : Nat) (f : Core → Core) : (s.modCore p f).preempts = s.preempts := rfl
@[simp] theorem State.modCore_clusters (s : State) (p : Nat) (f : Core → Core) : (s.modCore p f).clusters = s.clusters := rfl
@[simp] theorem State.modCore_cores (s : State) (p : Nat) (f : Core → Core) : (s.modCore p f).cores = tmod s.cores {} p f := rfl
@[simp] theorem State.modCore_units (s : State) (p : Nat) (f : Core → Core) : (s.modCore p f).units = s.units := rfl
@[simp] theorem State.modCore_hwm (s : State) (p : Nat) (f : Core → Core) : (s.modCore p f).hwm = s.hwm := rfl
@[simp] theorem State.modCore_mem (s : State) (p : Nat) (f : Core → Core) : (s.modCore p f).mem = s.mem := rfl
@[simp] theorem State.modCore_dram (s : State) (p : Nat) (f : Core → Core) : (s.modCore p f).dram = s.dram := rfl
@[simp] theorem State.modCore_settle (s : State) (p : Nat) (f : Core → Core) : (s.modCore p f).settle = s.settle := rfl
@[simp] theorem State.modCore_dec (s : State) (p : Nat) (f : Core → Core) : (s.modCore p f).dec = s.dec := rfl
@[simp] theorem State.modCore_col (s : State) (p : Nat) (f : Core → Core) : (s.modCore p f).col = s.col := rfl
@[simp] theorem State.modCore_ports (s : State) (p : Nat) (f : Core → Core) : (s.modCore p f).ports = s.ports := rfl
@[simp] theorem State.modCore_time (s : State) (p : Nat) (f : Core → Core) : (s.modCore p f).time = s.time := rfl
@[simp] theorem State.modCore_rtr (s : State) (p : Nat) (f : Core → Core) : (s.modCore p f).rtr = s.rtr := rfl
@[simp] theorem State.modCore_pwr (s : State) (p : Nat) (f : Core → Core) : (s.modCore p f).pwr = s.pwr := rfl
@[simp] theorem State.modCore_rails (s : State) (p : Nat) (f : Core → Core) : (s.modCore p f).rails = s.rails := rfl
@[simp] theorem State.modCore_mgmt (s : State) (p : Nat) (f : Core → Core) : (s.modCore p f).mgmt = s.mgmt := rfl
@[simp] theorem State.modCore_tel (s : State) (p : Nat) (f : Core → Core) : (s.modCore p f).tel = s.tel := rfl
@[simp] theorem State.modCore_sec (s : State) (p : Nat) (f : Core → Core) : (s.modCore p f).sec = s.sec := rfl
@[simp] theorem State.modCore_latches (s : State) (p : Nat) (f : Core → Core) : (s.modCore p f).latches = s.latches := rfl

/-! ### modPort -/

@[simp] theorem State.modPort_pending (s : State) (n : Nat) (f : Port → Port) : (s.modPort n f).pending = s.pending := rfl
@[simp] theorem State.modPort_aoNs (s : State) (n : Nat) (f : Port → Port) : (s.modPort n f).aoNs = s.aoNs := rfl
@[simp] theorem State.modPort_devOff (s : State) (n : Nat) (f : Port → Port) : (s.modPort n f).devOff = s.devOff := rfl
@[simp] theorem State.modPort_free (s : State) (n : Nat) (f : Port → Port) : (s.modPort n f).free = s.free := rfl
@[simp] theorem State.modPort_out (s : State) (n : Nat) (f : Port → Port) : (s.modPort n f).out = s.out := rfl
@[simp] theorem State.modPort_fuses (s : State) (n : Nat) (f : Port → Port) : (s.modPort n f).fuses = s.fuses := rfl
@[simp] theorem State.modPort_flash (s : State) (n : Nat) (f : Port → Port) : (s.modPort n f).flash = s.flash := rfl
@[simp] theorem State.modPort_ledger (s : State) (n : Nat) (f : Port → Port) : (s.modPort n f).ledger = s.ledger := rfl
@[simp] theorem State.modPort_dev (s : State) (n : Nat) (f : Port → Port) : (s.modPort n f).dev = s.dev := rfl
@[simp] theorem State.modPort_err (s : State) (n : Nat) (f : Port → Port) : (s.modPort n f).err = s.err := rfl
@[simp] theorem State.modPort_host (s : State) (n : Nat) (f : Port → Port) : (s.modPort n f).host = s.host := rfl
@[simp] theorem State.modPort_job (s : State) (n : Nat) (f : Port → Port) : (s.modPort n f).job = s.job := rfl
@[simp] theorem State.modPort_saved (s : State) (n : Nat) (f : Port → Port) : (s.modPort n f).saved = s.saved := rfl
@[simp] theorem State.modPort_preempt (s : State) (n : Nat) (f : Port → Port) : (s.modPort n f).preempt = s.preempt := rfl
@[simp] theorem State.modPort_preempts (s : State) (n : Nat) (f : Port → Port) : (s.modPort n f).preempts = s.preempts := rfl
@[simp] theorem State.modPort_clusters (s : State) (n : Nat) (f : Port → Port) : (s.modPort n f).clusters = s.clusters := rfl
@[simp] theorem State.modPort_cores (s : State) (n : Nat) (f : Port → Port) : (s.modPort n f).cores = s.cores := rfl
@[simp] theorem State.modPort_units (s : State) (n : Nat) (f : Port → Port) : (s.modPort n f).units = s.units := rfl
@[simp] theorem State.modPort_hwm (s : State) (n : Nat) (f : Port → Port) : (s.modPort n f).hwm = s.hwm := rfl
@[simp] theorem State.modPort_mem (s : State) (n : Nat) (f : Port → Port) : (s.modPort n f).mem = s.mem := rfl
@[simp] theorem State.modPort_dram (s : State) (n : Nat) (f : Port → Port) : (s.modPort n f).dram = s.dram := rfl
@[simp] theorem State.modPort_settle (s : State) (n : Nat) (f : Port → Port) : (s.modPort n f).settle = s.settle := rfl
@[simp] theorem State.modPort_dec (s : State) (n : Nat) (f : Port → Port) : (s.modPort n f).dec = s.dec := rfl
@[simp] theorem State.modPort_col (s : State) (n : Nat) (f : Port → Port) : (s.modPort n f).col = s.col := rfl
@[simp] theorem State.modPort_ports (s : State) (n : Nat) (f : Port → Port) : (s.modPort n f).ports = tmod s.ports {} n f := rfl
@[simp] theorem State.modPort_time (s : State) (n : Nat) (f : Port → Port) : (s.modPort n f).time = s.time := rfl
@[simp] theorem State.modPort_rtr (s : State) (n : Nat) (f : Port → Port) : (s.modPort n f).rtr = s.rtr := rfl
@[simp] theorem State.modPort_pwr (s : State) (n : Nat) (f : Port → Port) : (s.modPort n f).pwr = s.pwr := rfl
@[simp] theorem State.modPort_rails (s : State) (n : Nat) (f : Port → Port) : (s.modPort n f).rails = s.rails := rfl
@[simp] theorem State.modPort_mgmt (s : State) (n : Nat) (f : Port → Port) : (s.modPort n f).mgmt = s.mgmt := rfl
@[simp] theorem State.modPort_tel (s : State) (n : Nat) (f : Port → Port) : (s.modPort n f).tel = s.tel := rfl
@[simp] theorem State.modPort_sec (s : State) (n : Nat) (f : Port → Port) : (s.modPort n f).sec = s.sec := rfl
@[simp] theorem State.modPort_latches (s : State) (n : Nat) (f : Port → Port) : (s.modPort n f).latches = s.latches := rfl

/-! ### modLink -/

@[simp] theorem State.modLink_pending (s : State) (n : Nat) (f : Link → Link) : (s.modLink n f).pending = s.pending := rfl
@[simp] theorem State.modLink_aoNs (s : State) (n : Nat) (f : Link → Link) : (s.modLink n f).aoNs = s.aoNs := rfl
@[simp] theorem State.modLink_devOff (s : State) (n : Nat) (f : Link → Link) : (s.modLink n f).devOff = s.devOff := rfl
@[simp] theorem State.modLink_free (s : State) (n : Nat) (f : Link → Link) : (s.modLink n f).free = s.free := rfl
@[simp] theorem State.modLink_out (s : State) (n : Nat) (f : Link → Link) : (s.modLink n f).out = s.out := rfl
@[simp] theorem State.modLink_fuses (s : State) (n : Nat) (f : Link → Link) : (s.modLink n f).fuses = s.fuses := rfl
@[simp] theorem State.modLink_flash (s : State) (n : Nat) (f : Link → Link) : (s.modLink n f).flash = s.flash := rfl
@[simp] theorem State.modLink_ledger (s : State) (n : Nat) (f : Link → Link) : (s.modLink n f).ledger = s.ledger := rfl
@[simp] theorem State.modLink_dev (s : State) (n : Nat) (f : Link → Link) : (s.modLink n f).dev = s.dev := rfl
@[simp] theorem State.modLink_err (s : State) (n : Nat) (f : Link → Link) : (s.modLink n f).err = s.err := rfl
@[simp] theorem State.modLink_host (s : State) (n : Nat) (f : Link → Link) : (s.modLink n f).host = s.host := rfl
@[simp] theorem State.modLink_job (s : State) (n : Nat) (f : Link → Link) : (s.modLink n f).job = s.job := rfl
@[simp] theorem State.modLink_saved (s : State) (n : Nat) (f : Link → Link) : (s.modLink n f).saved = s.saved := rfl
@[simp] theorem State.modLink_preempt (s : State) (n : Nat) (f : Link → Link) : (s.modLink n f).preempt = s.preempt := rfl
@[simp] theorem State.modLink_preempts (s : State) (n : Nat) (f : Link → Link) : (s.modLink n f).preempts = s.preempts := rfl
@[simp] theorem State.modLink_clusters (s : State) (n : Nat) (f : Link → Link) : (s.modLink n f).clusters = s.clusters := rfl
@[simp] theorem State.modLink_cores (s : State) (n : Nat) (f : Link → Link) : (s.modLink n f).cores = s.cores := rfl
@[simp] theorem State.modLink_units (s : State) (n : Nat) (f : Link → Link) : (s.modLink n f).units = s.units := rfl
@[simp] theorem State.modLink_hwm (s : State) (n : Nat) (f : Link → Link) : (s.modLink n f).hwm = s.hwm := rfl
@[simp] theorem State.modLink_mem (s : State) (n : Nat) (f : Link → Link) : (s.modLink n f).mem = s.mem := rfl
@[simp] theorem State.modLink_dram (s : State) (n : Nat) (f : Link → Link) : (s.modLink n f).dram = s.dram := rfl
@[simp] theorem State.modLink_settle (s : State) (n : Nat) (f : Link → Link) : (s.modLink n f).settle = s.settle := rfl
@[simp] theorem State.modLink_dec (s : State) (n : Nat) (f : Link → Link) : (s.modLink n f).dec = s.dec := rfl
@[simp] theorem State.modLink_col (s : State) (n : Nat) (f : Link → Link) : (s.modLink n f).col = s.col := rfl
@[simp] theorem State.modLink_ports (s : State) (n : Nat) (f : Link → Link) : (s.modLink n f).ports = tmod s.ports {} n (fun p => { p with link := f p.link }) := rfl
@[simp] theorem State.modLink_time (s : State) (n : Nat) (f : Link → Link) : (s.modLink n f).time = s.time := rfl
@[simp] theorem State.modLink_rtr (s : State) (n : Nat) (f : Link → Link) : (s.modLink n f).rtr = s.rtr := rfl
@[simp] theorem State.modLink_pwr (s : State) (n : Nat) (f : Link → Link) : (s.modLink n f).pwr = s.pwr := rfl
@[simp] theorem State.modLink_rails (s : State) (n : Nat) (f : Link → Link) : (s.modLink n f).rails = s.rails := rfl
@[simp] theorem State.modLink_mgmt (s : State) (n : Nat) (f : Link → Link) : (s.modLink n f).mgmt = s.mgmt := rfl
@[simp] theorem State.modLink_tel (s : State) (n : Nat) (f : Link → Link) : (s.modLink n f).tel = s.tel := rfl
@[simp] theorem State.modLink_sec (s : State) (n : Nat) (f : Link → Link) : (s.modLink n f).sec = s.sec := rfl
@[simp] theorem State.modLink_latches (s : State) (n : Nat) (f : Link → Link) : (s.modLink n f).latches = s.latches := rfl

/-! ### modRep -/

@[simp] theorem State.modRep_pending (s : State) (n : Nat) (f : Repair → Repair) : (s.modRep n f).pending = s.pending := rfl
@[simp] theorem State.modRep_aoNs (s : State) (n : Nat) (f : Repair → Repair) : (s.modRep n f).aoNs = s.aoNs := rfl
@[simp] theorem State.modRep_devOff (s : State) (n : Nat) (f : Repair → Repair) : (s.modRep n f).devOff = s.devOff := rfl
@[simp] theorem State.modRep_free (s : State) (n : Nat) (f : Repair → Repair) : (s.modRep n f).free = s.free := rfl
@[simp] theorem State.modRep_out (s : State) (n : Nat) (f : Repair → Repair) : (s.modRep n f).out = s.out := rfl
@[simp] theorem State.modRep_fuses (s : State) (n : Nat) (f : Repair → Repair) : (s.modRep n f).fuses = s.fuses := rfl
@[simp] theorem State.modRep_flash (s : State) (n : Nat) (f : Repair → Repair) : (s.modRep n f).flash = s.flash := rfl
@[simp] theorem State.modRep_ledger (s : State) (n : Nat) (f : Repair → Repair) : (s.modRep n f).ledger = s.ledger := rfl
@[simp] theorem State.modRep_dev (s : State) (n : Nat) (f : Repair → Repair) : (s.modRep n f).dev = s.dev := rfl
@[simp] theorem State.modRep_err (s : State) (n : Nat) (f : Repair → Repair) : (s.modRep n f).err = s.err := rfl
@[simp] theorem State.modRep_host (s : State) (n : Nat) (f : Repair → Repair) : (s.modRep n f).host = s.host := rfl
@[simp] theorem State.modRep_job (s : State) (n : Nat) (f : Repair → Repair) : (s.modRep n f).job = s.job := rfl
@[simp] theorem State.modRep_saved (s : State) (n : Nat) (f : Repair → Repair) : (s.modRep n f).saved = s.saved := rfl
@[simp] theorem State.modRep_preempt (s : State) (n : Nat) (f : Repair → Repair) : (s.modRep n f).preempt = s.preempt := rfl
@[simp] theorem State.modRep_preempts (s : State) (n : Nat) (f : Repair → Repair) : (s.modRep n f).preempts = s.preempts := rfl
@[simp] theorem State.modRep_clusters (s : State) (n : Nat) (f : Repair → Repair) : (s.modRep n f).clusters = s.clusters := rfl
@[simp] theorem State.modRep_cores (s : State) (n : Nat) (f : Repair → Repair) : (s.modRep n f).cores = s.cores := rfl
@[simp] theorem State.modRep_units (s : State) (n : Nat) (f : Repair → Repair) : (s.modRep n f).units = s.units := rfl
@[simp] theorem State.modRep_hwm (s : State) (n : Nat) (f : Repair → Repair) : (s.modRep n f).hwm = s.hwm := rfl
@[simp] theorem State.modRep_mem (s : State) (n : Nat) (f : Repair → Repair) : (s.modRep n f).mem = s.mem := rfl
@[simp] theorem State.modRep_dram (s : State) (n : Nat) (f : Repair → Repair) : (s.modRep n f).dram = s.dram := rfl
@[simp] theorem State.modRep_settle (s : State) (n : Nat) (f : Repair → Repair) : (s.modRep n f).settle = s.settle := rfl
@[simp] theorem State.modRep_dec (s : State) (n : Nat) (f : Repair → Repair) : (s.modRep n f).dec = s.dec := rfl
@[simp] theorem State.modRep_col (s : State) (n : Nat) (f : Repair → Repair) : (s.modRep n f).col = s.col := rfl
@[simp] theorem State.modRep_ports (s : State) (n : Nat) (f : Repair → Repair) : (s.modRep n f).ports = tmod s.ports {} n (fun p => { p with rep := f p.rep }) := rfl
@[simp] theorem State.modRep_time (s : State) (n : Nat) (f : Repair → Repair) : (s.modRep n f).time = s.time := rfl
@[simp] theorem State.modRep_rtr (s : State) (n : Nat) (f : Repair → Repair) : (s.modRep n f).rtr = s.rtr := rfl
@[simp] theorem State.modRep_pwr (s : State) (n : Nat) (f : Repair → Repair) : (s.modRep n f).pwr = s.pwr := rfl
@[simp] theorem State.modRep_rails (s : State) (n : Nat) (f : Repair → Repair) : (s.modRep n f).rails = s.rails := rfl
@[simp] theorem State.modRep_mgmt (s : State) (n : Nat) (f : Repair → Repair) : (s.modRep n f).mgmt = s.mgmt := rfl
@[simp] theorem State.modRep_tel (s : State) (n : Nat) (f : Repair → Repair) : (s.modRep n f).tel = s.tel := rfl
@[simp] theorem State.modRep_sec (s : State) (n : Nat) (f : Repair → Repair) : (s.modRep n f).sec = s.sec := rfl
@[simp] theorem State.modRep_latches (s : State) (n : Nat) (f : Repair → Repair) : (s.modRep n f).latches = s.latches := rfl

/-! ### modDisc -/

@[simp] theorem State.modDisc_pending (s : State) (n : Nat) (f : Disc → Disc) : (s.modDisc n f).pending = s.pending := rfl
@[simp] theorem State.modDisc_aoNs (s : State) (n : Nat) (f : Disc → Disc) : (s.modDisc n f).aoNs = s.aoNs := rfl
@[simp] theorem State.modDisc_devOff (s : State) (n : Nat) (f : Disc → Disc) : (s.modDisc n f).devOff = s.devOff := rfl
@[simp] theorem State.modDisc_free (s : State) (n : Nat) (f : Disc → Disc) : (s.modDisc n f).free = s.free := rfl
@[simp] theorem State.modDisc_out (s : State) (n : Nat) (f : Disc → Disc) : (s.modDisc n f).out = s.out := rfl
@[simp] theorem State.modDisc_fuses (s : State) (n : Nat) (f : Disc → Disc) : (s.modDisc n f).fuses = s.fuses := rfl
@[simp] theorem State.modDisc_flash (s : State) (n : Nat) (f : Disc → Disc) : (s.modDisc n f).flash = s.flash := rfl
@[simp] theorem State.modDisc_ledger (s : State) (n : Nat) (f : Disc → Disc) : (s.modDisc n f).ledger = s.ledger := rfl
@[simp] theorem State.modDisc_dev (s : State) (n : Nat) (f : Disc → Disc) : (s.modDisc n f).dev = s.dev := rfl
@[simp] theorem State.modDisc_err (s : State) (n : Nat) (f : Disc → Disc) : (s.modDisc n f).err = s.err := rfl
@[simp] theorem State.modDisc_host (s : State) (n : Nat) (f : Disc → Disc) : (s.modDisc n f).host = s.host := rfl
@[simp] theorem State.modDisc_job (s : State) (n : Nat) (f : Disc → Disc) : (s.modDisc n f).job = s.job := rfl
@[simp] theorem State.modDisc_saved (s : State) (n : Nat) (f : Disc → Disc) : (s.modDisc n f).saved = s.saved := rfl
@[simp] theorem State.modDisc_preempt (s : State) (n : Nat) (f : Disc → Disc) : (s.modDisc n f).preempt = s.preempt := rfl
@[simp] theorem State.modDisc_preempts (s : State) (n : Nat) (f : Disc → Disc) : (s.modDisc n f).preempts = s.preempts := rfl
@[simp] theorem State.modDisc_clusters (s : State) (n : Nat) (f : Disc → Disc) : (s.modDisc n f).clusters = s.clusters := rfl
@[simp] theorem State.modDisc_cores (s : State) (n : Nat) (f : Disc → Disc) : (s.modDisc n f).cores = s.cores := rfl
@[simp] theorem State.modDisc_units (s : State) (n : Nat) (f : Disc → Disc) : (s.modDisc n f).units = s.units := rfl
@[simp] theorem State.modDisc_hwm (s : State) (n : Nat) (f : Disc → Disc) : (s.modDisc n f).hwm = s.hwm := rfl
@[simp] theorem State.modDisc_mem (s : State) (n : Nat) (f : Disc → Disc) : (s.modDisc n f).mem = s.mem := rfl
@[simp] theorem State.modDisc_dram (s : State) (n : Nat) (f : Disc → Disc) : (s.modDisc n f).dram = s.dram := rfl
@[simp] theorem State.modDisc_settle (s : State) (n : Nat) (f : Disc → Disc) : (s.modDisc n f).settle = s.settle := rfl
@[simp] theorem State.modDisc_dec (s : State) (n : Nat) (f : Disc → Disc) : (s.modDisc n f).dec = s.dec := rfl
@[simp] theorem State.modDisc_col (s : State) (n : Nat) (f : Disc → Disc) : (s.modDisc n f).col = s.col := rfl
@[simp] theorem State.modDisc_ports (s : State) (n : Nat) (f : Disc → Disc) : (s.modDisc n f).ports = tmod s.ports {} n (fun p => { p with disc := f p.disc }) := rfl
@[simp] theorem State.modDisc_time (s : State) (n : Nat) (f : Disc → Disc) : (s.modDisc n f).time = s.time := rfl
@[simp] theorem State.modDisc_rtr (s : State) (n : Nat) (f : Disc → Disc) : (s.modDisc n f).rtr = s.rtr := rfl
@[simp] theorem State.modDisc_pwr (s : State) (n : Nat) (f : Disc → Disc) : (s.modDisc n f).pwr = s.pwr := rfl
@[simp] theorem State.modDisc_rails (s : State) (n : Nat) (f : Disc → Disc) : (s.modDisc n f).rails = s.rails := rfl
@[simp] theorem State.modDisc_mgmt (s : State) (n : Nat) (f : Disc → Disc) : (s.modDisc n f).mgmt = s.mgmt := rfl
@[simp] theorem State.modDisc_tel (s : State) (n : Nat) (f : Disc → Disc) : (s.modDisc n f).tel = s.tel := rfl
@[simp] theorem State.modDisc_sec (s : State) (n : Nat) (f : Disc → Disc) : (s.modDisc n f).sec = s.sec := rfl
@[simp] theorem State.modDisc_latches (s : State) (n : Nat) (f : Disc → Disc) : (s.modDisc n f).latches = s.latches := rfl

/-! ### modRing -/

@[simp] theorem State.modRing_pending (s : State) (n : Nat) (f : Ring → Ring) : (s.modRing n f).pending = s.pending := rfl
@[simp] theorem State.modRing_aoNs (s : State) (n : Nat) (f : Ring → Ring) : (s.modRing n f).aoNs = s.aoNs := rfl
@[simp] theorem State.modRing_devOff (s : State) (n : Nat) (f : Ring → Ring) : (s.modRing n f).devOff = s.devOff := rfl
@[simp] theorem State.modRing_free (s : State) (n : Nat) (f : Ring → Ring) : (s.modRing n f).free = s.free := rfl
@[simp] theorem State.modRing_out (s : State) (n : Nat) (f : Ring → Ring) : (s.modRing n f).out = s.out := rfl
@[simp] theorem State.modRing_fuses (s : State) (n : Nat) (f : Ring → Ring) : (s.modRing n f).fuses = s.fuses := rfl
@[simp] theorem State.modRing_flash (s : State) (n : Nat) (f : Ring → Ring) : (s.modRing n f).flash = s.flash := rfl
@[simp] theorem State.modRing_ledger (s : State) (n : Nat) (f : Ring → Ring) : (s.modRing n f).ledger = s.ledger := rfl
@[simp] theorem State.modRing_dev (s : State) (n : Nat) (f : Ring → Ring) : (s.modRing n f).dev = s.dev := rfl
@[simp] theorem State.modRing_err (s : State) (n : Nat) (f : Ring → Ring) : (s.modRing n f).err = s.err := rfl
@[simp] theorem State.modRing_host (s : State) (n : Nat) (f : Ring → Ring) : (s.modRing n f).host = { s.host with rings := tmod s.host.rings {} n f } := rfl
@[simp] theorem State.modRing_job (s : State) (n : Nat) (f : Ring → Ring) : (s.modRing n f).job = s.job := rfl
@[simp] theorem State.modRing_saved (s : State) (n : Nat) (f : Ring → Ring) : (s.modRing n f).saved = s.saved := rfl
@[simp] theorem State.modRing_preempt (s : State) (n : Nat) (f : Ring → Ring) : (s.modRing n f).preempt = s.preempt := rfl
@[simp] theorem State.modRing_preempts (s : State) (n : Nat) (f : Ring → Ring) : (s.modRing n f).preempts = s.preempts := rfl
@[simp] theorem State.modRing_clusters (s : State) (n : Nat) (f : Ring → Ring) : (s.modRing n f).clusters = s.clusters := rfl
@[simp] theorem State.modRing_cores (s : State) (n : Nat) (f : Ring → Ring) : (s.modRing n f).cores = s.cores := rfl
@[simp] theorem State.modRing_units (s : State) (n : Nat) (f : Ring → Ring) : (s.modRing n f).units = s.units := rfl
@[simp] theorem State.modRing_hwm (s : State) (n : Nat) (f : Ring → Ring) : (s.modRing n f).hwm = s.hwm := rfl
@[simp] theorem State.modRing_mem (s : State) (n : Nat) (f : Ring → Ring) : (s.modRing n f).mem = s.mem := rfl
@[simp] theorem State.modRing_dram (s : State) (n : Nat) (f : Ring → Ring) : (s.modRing n f).dram = s.dram := rfl
@[simp] theorem State.modRing_settle (s : State) (n : Nat) (f : Ring → Ring) : (s.modRing n f).settle = s.settle := rfl
@[simp] theorem State.modRing_dec (s : State) (n : Nat) (f : Ring → Ring) : (s.modRing n f).dec = s.dec := rfl
@[simp] theorem State.modRing_col (s : State) (n : Nat) (f : Ring → Ring) : (s.modRing n f).col = s.col := rfl
@[simp] theorem State.modRing_ports (s : State) (n : Nat) (f : Ring → Ring) : (s.modRing n f).ports = s.ports := rfl
@[simp] theorem State.modRing_time (s : State) (n : Nat) (f : Ring → Ring) : (s.modRing n f).time = s.time := rfl
@[simp] theorem State.modRing_rtr (s : State) (n : Nat) (f : Ring → Ring) : (s.modRing n f).rtr = s.rtr := rfl
@[simp] theorem State.modRing_pwr (s : State) (n : Nat) (f : Ring → Ring) : (s.modRing n f).pwr = s.pwr := rfl
@[simp] theorem State.modRing_rails (s : State) (n : Nat) (f : Ring → Ring) : (s.modRing n f).rails = s.rails := rfl
@[simp] theorem State.modRing_mgmt (s : State) (n : Nat) (f : Ring → Ring) : (s.modRing n f).mgmt = s.mgmt := rfl
@[simp] theorem State.modRing_tel (s : State) (n : Nat) (f : Ring → Ring) : (s.modRing n f).tel = s.tel := rfl
@[simp] theorem State.modRing_sec (s : State) (n : Nat) (f : Ring → Ring) : (s.modRing n f).sec = s.sec := rfl
@[simp] theorem State.modRing_latches (s : State) (n : Nat) (f : Ring → Ring) : (s.modRing n f).latches = s.latches := rfl

/-! ### modHost -/

@[simp] theorem State.modHost_pending (s : State) (f : HostIf → HostIf) : (s.modHost f).pending = s.pending := rfl
@[simp] theorem State.modHost_aoNs (s : State) (f : HostIf → HostIf) : (s.modHost f).aoNs = s.aoNs := rfl
@[simp] theorem State.modHost_devOff (s : State) (f : HostIf → HostIf) : (s.modHost f).devOff = s.devOff := rfl
@[simp] theorem State.modHost_free (s : State) (f : HostIf → HostIf) : (s.modHost f).free = s.free := rfl
@[simp] theorem State.modHost_out (s : State) (f : HostIf → HostIf) : (s.modHost f).out = s.out := rfl
@[simp] theorem State.modHost_fuses (s : State) (f : HostIf → HostIf) : (s.modHost f).fuses = s.fuses := rfl
@[simp] theorem State.modHost_flash (s : State) (f : HostIf → HostIf) : (s.modHost f).flash = s.flash := rfl
@[simp] theorem State.modHost_ledger (s : State) (f : HostIf → HostIf) : (s.modHost f).ledger = s.ledger := rfl
@[simp] theorem State.modHost_dev (s : State) (f : HostIf → HostIf) : (s.modHost f).dev = s.dev := rfl
@[simp] theorem State.modHost_err (s : State) (f : HostIf → HostIf) : (s.modHost f).err = s.err := rfl
@[simp] theorem State.modHost_host (s : State) (f : HostIf → HostIf) : (s.modHost f).host = f s.host := rfl
@[simp] theorem State.modHost_job (s : State) (f : HostIf → HostIf) : (s.modHost f).job = s.job := rfl
@[simp] theorem State.modHost_saved (s : State) (f : HostIf → HostIf) : (s.modHost f).saved = s.saved := rfl
@[simp] theorem State.modHost_preempt (s : State) (f : HostIf → HostIf) : (s.modHost f).preempt = s.preempt := rfl
@[simp] theorem State.modHost_preempts (s : State) (f : HostIf → HostIf) : (s.modHost f).preempts = s.preempts := rfl
@[simp] theorem State.modHost_clusters (s : State) (f : HostIf → HostIf) : (s.modHost f).clusters = s.clusters := rfl
@[simp] theorem State.modHost_cores (s : State) (f : HostIf → HostIf) : (s.modHost f).cores = s.cores := rfl
@[simp] theorem State.modHost_units (s : State) (f : HostIf → HostIf) : (s.modHost f).units = s.units := rfl
@[simp] theorem State.modHost_hwm (s : State) (f : HostIf → HostIf) : (s.modHost f).hwm = s.hwm := rfl
@[simp] theorem State.modHost_mem (s : State) (f : HostIf → HostIf) : (s.modHost f).mem = s.mem := rfl
@[simp] theorem State.modHost_dram (s : State) (f : HostIf → HostIf) : (s.modHost f).dram = s.dram := rfl
@[simp] theorem State.modHost_settle (s : State) (f : HostIf → HostIf) : (s.modHost f).settle = s.settle := rfl
@[simp] theorem State.modHost_dec (s : State) (f : HostIf → HostIf) : (s.modHost f).dec = s.dec := rfl
@[simp] theorem State.modHost_col (s : State) (f : HostIf → HostIf) : (s.modHost f).col = s.col := rfl
@[simp] theorem State.modHost_ports (s : State) (f : HostIf → HostIf) : (s.modHost f).ports = s.ports := rfl
@[simp] theorem State.modHost_time (s : State) (f : HostIf → HostIf) : (s.modHost f).time = s.time := rfl
@[simp] theorem State.modHost_rtr (s : State) (f : HostIf → HostIf) : (s.modHost f).rtr = s.rtr := rfl
@[simp] theorem State.modHost_pwr (s : State) (f : HostIf → HostIf) : (s.modHost f).pwr = s.pwr := rfl
@[simp] theorem State.modHost_rails (s : State) (f : HostIf → HostIf) : (s.modHost f).rails = s.rails := rfl
@[simp] theorem State.modHost_mgmt (s : State) (f : HostIf → HostIf) : (s.modHost f).mgmt = s.mgmt := rfl
@[simp] theorem State.modHost_tel (s : State) (f : HostIf → HostIf) : (s.modHost f).tel = s.tel := rfl
@[simp] theorem State.modHost_sec (s : State) (f : HostIf → HostIf) : (s.modHost f).sec = s.sec := rfl
@[simp] theorem State.modHost_latches (s : State) (f : HostIf → HostIf) : (s.modHost f).latches = s.latches := rfl

/-! ### modChannel -/

@[simp] theorem State.modChannel_pending (s : State) (n : Nat) (f : Channel → Channel) : (s.modChannel n f).pending = s.pending := rfl
@[simp] theorem State.modChannel_aoNs (s : State) (n : Nat) (f : Channel → Channel) : (s.modChannel n f).aoNs = s.aoNs := rfl
@[simp] theorem State.modChannel_devOff (s : State) (n : Nat) (f : Channel → Channel) : (s.modChannel n f).devOff = s.devOff := rfl
@[simp] theorem State.modChannel_free (s : State) (n : Nat) (f : Channel → Channel) : (s.modChannel n f).free = s.free := rfl
@[simp] theorem State.modChannel_out (s : State) (n : Nat) (f : Channel → Channel) : (s.modChannel n f).out = s.out := rfl
@[simp] theorem State.modChannel_fuses (s : State) (n : Nat) (f : Channel → Channel) : (s.modChannel n f).fuses = s.fuses := rfl
@[simp] theorem State.modChannel_flash (s : State) (n : Nat) (f : Channel → Channel) : (s.modChannel n f).flash = s.flash := rfl
@[simp] theorem State.modChannel_ledger (s : State) (n : Nat) (f : Channel → Channel) : (s.modChannel n f).ledger = s.ledger := rfl
@[simp] theorem State.modChannel_dev (s : State) (n : Nat) (f : Channel → Channel) : (s.modChannel n f).dev = s.dev := rfl
@[simp] theorem State.modChannel_err (s : State) (n : Nat) (f : Channel → Channel) : (s.modChannel n f).err = s.err := rfl
@[simp] theorem State.modChannel_host (s : State) (n : Nat) (f : Channel → Channel) : (s.modChannel n f).host = s.host := rfl
@[simp] theorem State.modChannel_job (s : State) (n : Nat) (f : Channel → Channel) : (s.modChannel n f).job = s.job := rfl
@[simp] theorem State.modChannel_saved (s : State) (n : Nat) (f : Channel → Channel) : (s.modChannel n f).saved = s.saved := rfl
@[simp] theorem State.modChannel_preempt (s : State) (n : Nat) (f : Channel → Channel) : (s.modChannel n f).preempt = s.preempt := rfl
@[simp] theorem State.modChannel_preempts (s : State) (n : Nat) (f : Channel → Channel) : (s.modChannel n f).preempts = s.preempts := rfl
@[simp] theorem State.modChannel_clusters (s : State) (n : Nat) (f : Channel → Channel) : (s.modChannel n f).clusters = s.clusters := rfl
@[simp] theorem State.modChannel_cores (s : State) (n : Nat) (f : Channel → Channel) : (s.modChannel n f).cores = s.cores := rfl
@[simp] theorem State.modChannel_units (s : State) (n : Nat) (f : Channel → Channel) : (s.modChannel n f).units = s.units := rfl
@[simp] theorem State.modChannel_hwm (s : State) (n : Nat) (f : Channel → Channel) : (s.modChannel n f).hwm = s.hwm := rfl
@[simp] theorem State.modChannel_mem (s : State) (n : Nat) (f : Channel → Channel) : (s.modChannel n f).mem = s.mem := rfl
@[simp] theorem State.modChannel_dram (s : State) (n : Nat) (f : Channel → Channel) : (s.modChannel n f).dram = { s.dram with channels := tmod s.dram.channels {} n f } := rfl
@[simp] theorem State.modChannel_settle (s : State) (n : Nat) (f : Channel → Channel) : (s.modChannel n f).settle = s.settle := rfl
@[simp] theorem State.modChannel_dec (s : State) (n : Nat) (f : Channel → Channel) : (s.modChannel n f).dec = s.dec := rfl
@[simp] theorem State.modChannel_col (s : State) (n : Nat) (f : Channel → Channel) : (s.modChannel n f).col = s.col := rfl
@[simp] theorem State.modChannel_ports (s : State) (n : Nat) (f : Channel → Channel) : (s.modChannel n f).ports = s.ports := rfl
@[simp] theorem State.modChannel_time (s : State) (n : Nat) (f : Channel → Channel) : (s.modChannel n f).time = s.time := rfl
@[simp] theorem State.modChannel_rtr (s : State) (n : Nat) (f : Channel → Channel) : (s.modChannel n f).rtr = s.rtr := rfl
@[simp] theorem State.modChannel_pwr (s : State) (n : Nat) (f : Channel → Channel) : (s.modChannel n f).pwr = s.pwr := rfl
@[simp] theorem State.modChannel_rails (s : State) (n : Nat) (f : Channel → Channel) : (s.modChannel n f).rails = s.rails := rfl
@[simp] theorem State.modChannel_mgmt (s : State) (n : Nat) (f : Channel → Channel) : (s.modChannel n f).mgmt = s.mgmt := rfl
@[simp] theorem State.modChannel_tel (s : State) (n : Nat) (f : Channel → Channel) : (s.modChannel n f).tel = s.tel := rfl
@[simp] theorem State.modChannel_sec (s : State) (n : Nat) (f : Channel → Channel) : (s.modChannel n f).sec = s.sec := rfl
@[simp] theorem State.modChannel_latches (s : State) (n : Nat) (f : Channel → Channel) : (s.modChannel n f).latches = s.latches := rfl

/-! ### modUnit -/

@[simp] theorem State.modUnit_pending (s : State) (u : Nat) (f : UnitWords → UnitWords) : (s.modUnit u f).pending = s.pending := rfl
@[simp] theorem State.modUnit_aoNs (s : State) (u : Nat) (f : UnitWords → UnitWords) : (s.modUnit u f).aoNs = s.aoNs := rfl
@[simp] theorem State.modUnit_devOff (s : State) (u : Nat) (f : UnitWords → UnitWords) : (s.modUnit u f).devOff = s.devOff := rfl
@[simp] theorem State.modUnit_free (s : State) (u : Nat) (f : UnitWords → UnitWords) : (s.modUnit u f).free = s.free := rfl
@[simp] theorem State.modUnit_out (s : State) (u : Nat) (f : UnitWords → UnitWords) : (s.modUnit u f).out = s.out := rfl
@[simp] theorem State.modUnit_fuses (s : State) (u : Nat) (f : UnitWords → UnitWords) : (s.modUnit u f).fuses = s.fuses := rfl
@[simp] theorem State.modUnit_flash (s : State) (u : Nat) (f : UnitWords → UnitWords) : (s.modUnit u f).flash = s.flash := rfl
@[simp] theorem State.modUnit_ledger (s : State) (u : Nat) (f : UnitWords → UnitWords) : (s.modUnit u f).ledger = s.ledger := rfl
@[simp] theorem State.modUnit_dev (s : State) (u : Nat) (f : UnitWords → UnitWords) : (s.modUnit u f).dev = s.dev := rfl
@[simp] theorem State.modUnit_err (s : State) (u : Nat) (f : UnitWords → UnitWords) : (s.modUnit u f).err = s.err := rfl
@[simp] theorem State.modUnit_host (s : State) (u : Nat) (f : UnitWords → UnitWords) : (s.modUnit u f).host = s.host := rfl
@[simp] theorem State.modUnit_job (s : State) (u : Nat) (f : UnitWords → UnitWords) : (s.modUnit u f).job = s.job := rfl
@[simp] theorem State.modUnit_saved (s : State) (u : Nat) (f : UnitWords → UnitWords) : (s.modUnit u f).saved = s.saved := rfl
@[simp] theorem State.modUnit_preempt (s : State) (u : Nat) (f : UnitWords → UnitWords) : (s.modUnit u f).preempt = s.preempt := rfl
@[simp] theorem State.modUnit_preempts (s : State) (u : Nat) (f : UnitWords → UnitWords) : (s.modUnit u f).preempts = s.preempts := rfl
@[simp] theorem State.modUnit_clusters (s : State) (u : Nat) (f : UnitWords → UnitWords) : (s.modUnit u f).clusters = s.clusters := rfl
@[simp] theorem State.modUnit_cores (s : State) (u : Nat) (f : UnitWords → UnitWords) : (s.modUnit u f).cores = s.cores := rfl
@[simp] theorem State.modUnit_units (s : State) (u : Nat) (f : UnitWords → UnitWords) : (s.modUnit u f).units = tmod s.units {} u f := rfl
@[simp] theorem State.modUnit_hwm (s : State) (u : Nat) (f : UnitWords → UnitWords) : (s.modUnit u f).hwm = s.hwm := rfl
@[simp] theorem State.modUnit_mem (s : State) (u : Nat) (f : UnitWords → UnitWords) : (s.modUnit u f).mem = s.mem := rfl
@[simp] theorem State.modUnit_dram (s : State) (u : Nat) (f : UnitWords → UnitWords) : (s.modUnit u f).dram = s.dram := rfl
@[simp] theorem State.modUnit_settle (s : State) (u : Nat) (f : UnitWords → UnitWords) : (s.modUnit u f).settle = s.settle := rfl
@[simp] theorem State.modUnit_dec (s : State) (u : Nat) (f : UnitWords → UnitWords) : (s.modUnit u f).dec = s.dec := rfl
@[simp] theorem State.modUnit_col (s : State) (u : Nat) (f : UnitWords → UnitWords) : (s.modUnit u f).col = s.col := rfl
@[simp] theorem State.modUnit_ports (s : State) (u : Nat) (f : UnitWords → UnitWords) : (s.modUnit u f).ports = s.ports := rfl
@[simp] theorem State.modUnit_time (s : State) (u : Nat) (f : UnitWords → UnitWords) : (s.modUnit u f).time = s.time := rfl
@[simp] theorem State.modUnit_rtr (s : State) (u : Nat) (f : UnitWords → UnitWords) : (s.modUnit u f).rtr = s.rtr := rfl
@[simp] theorem State.modUnit_pwr (s : State) (u : Nat) (f : UnitWords → UnitWords) : (s.modUnit u f).pwr = s.pwr := rfl
@[simp] theorem State.modUnit_rails (s : State) (u : Nat) (f : UnitWords → UnitWords) : (s.modUnit u f).rails = s.rails := rfl
@[simp] theorem State.modUnit_mgmt (s : State) (u : Nat) (f : UnitWords → UnitWords) : (s.modUnit u f).mgmt = s.mgmt := rfl
@[simp] theorem State.modUnit_tel (s : State) (u : Nat) (f : UnitWords → UnitWords) : (s.modUnit u f).tel = s.tel := rfl
@[simp] theorem State.modUnit_sec (s : State) (u : Nat) (f : UnitWords → UnitWords) : (s.modUnit u f).sec = s.sec := rfl
@[simp] theorem State.modUnit_latches (s : State) (u : Nat) (f : UnitWords → UnitWords) : (s.modUnit u f).latches = s.latches := rfl

/-! ### modErr -/

@[simp] theorem State.modErr_pending (s : State) (f : Errors → Errors) : (s.modErr f).pending = s.pending := rfl
@[simp] theorem State.modErr_aoNs (s : State) (f : Errors → Errors) : (s.modErr f).aoNs = s.aoNs := rfl
@[simp] theorem State.modErr_devOff (s : State) (f : Errors → Errors) : (s.modErr f).devOff = s.devOff := rfl
@[simp] theorem State.modErr_free (s : State) (f : Errors → Errors) : (s.modErr f).free = s.free := rfl
@[simp] theorem State.modErr_out (s : State) (f : Errors → Errors) : (s.modErr f).out = s.out := rfl
@[simp] theorem State.modErr_fuses (s : State) (f : Errors → Errors) : (s.modErr f).fuses = s.fuses := rfl
@[simp] theorem State.modErr_flash (s : State) (f : Errors → Errors) : (s.modErr f).flash = s.flash := rfl
@[simp] theorem State.modErr_ledger (s : State) (f : Errors → Errors) : (s.modErr f).ledger = s.ledger := rfl
@[simp] theorem State.modErr_dev (s : State) (f : Errors → Errors) : (s.modErr f).dev = s.dev := rfl
@[simp] theorem State.modErr_err (s : State) (f : Errors → Errors) : (s.modErr f).err = f s.err := rfl
@[simp] theorem State.modErr_host (s : State) (f : Errors → Errors) : (s.modErr f).host = s.host := rfl
@[simp] theorem State.modErr_job (s : State) (f : Errors → Errors) : (s.modErr f).job = s.job := rfl
@[simp] theorem State.modErr_saved (s : State) (f : Errors → Errors) : (s.modErr f).saved = s.saved := rfl
@[simp] theorem State.modErr_preempt (s : State) (f : Errors → Errors) : (s.modErr f).preempt = s.preempt := rfl
@[simp] theorem State.modErr_preempts (s : State) (f : Errors → Errors) : (s.modErr f).preempts = s.preempts := rfl
@[simp] theorem State.modErr_clusters (s : State) (f : Errors → Errors) : (s.modErr f).clusters = s.clusters := rfl
@[simp] theorem State.modErr_cores (s : State) (f : Errors → Errors) : (s.modErr f).cores = s.cores := rfl
@[simp] theorem State.modErr_units (s : State) (f : Errors → Errors) : (s.modErr f).units = s.units := rfl
@[simp] theorem State.modErr_hwm (s : State) (f : Errors → Errors) : (s.modErr f).hwm = s.hwm := rfl
@[simp] theorem State.modErr_mem (s : State) (f : Errors → Errors) : (s.modErr f).mem = s.mem := rfl
@[simp] theorem State.modErr_dram (s : State) (f : Errors → Errors) : (s.modErr f).dram = s.dram := rfl
@[simp] theorem State.modErr_settle (s : State) (f : Errors → Errors) : (s.modErr f).settle = s.settle := rfl
@[simp] theorem State.modErr_dec (s : State) (f : Errors → Errors) : (s.modErr f).dec = s.dec := rfl
@[simp] theorem State.modErr_col (s : State) (f : Errors → Errors) : (s.modErr f).col = s.col := rfl
@[simp] theorem State.modErr_ports (s : State) (f : Errors → Errors) : (s.modErr f).ports = s.ports := rfl
@[simp] theorem State.modErr_time (s : State) (f : Errors → Errors) : (s.modErr f).time = s.time := rfl
@[simp] theorem State.modErr_rtr (s : State) (f : Errors → Errors) : (s.modErr f).rtr = s.rtr := rfl
@[simp] theorem State.modErr_pwr (s : State) (f : Errors → Errors) : (s.modErr f).pwr = s.pwr := rfl
@[simp] theorem State.modErr_rails (s : State) (f : Errors → Errors) : (s.modErr f).rails = s.rails := rfl
@[simp] theorem State.modErr_mgmt (s : State) (f : Errors → Errors) : (s.modErr f).mgmt = s.mgmt := rfl
@[simp] theorem State.modErr_tel (s : State) (f : Errors → Errors) : (s.modErr f).tel = s.tel := rfl
@[simp] theorem State.modErr_sec (s : State) (f : Errors → Errors) : (s.modErr f).sec = s.sec := rfl
@[simp] theorem State.modErr_latches (s : State) (f : Errors → Errors) : (s.modErr f).latches = s.latches := rfl

/-! ### modSet -/

@[simp] theorem State.modSet_pending (s : State) (f : Settle → Settle) : (s.modSet f).pending = s.pending := rfl
@[simp] theorem State.modSet_aoNs (s : State) (f : Settle → Settle) : (s.modSet f).aoNs = s.aoNs := rfl
@[simp] theorem State.modSet_devOff (s : State) (f : Settle → Settle) : (s.modSet f).devOff = s.devOff := rfl
@[simp] theorem State.modSet_free (s : State) (f : Settle → Settle) : (s.modSet f).free = s.free := rfl
@[simp] theorem State.modSet_out (s : State) (f : Settle → Settle) : (s.modSet f).out = s.out := rfl
@[simp] theorem State.modSet_fuses (s : State) (f : Settle → Settle) : (s.modSet f).fuses = s.fuses := rfl
@[simp] theorem State.modSet_flash (s : State) (f : Settle → Settle) : (s.modSet f).flash = s.flash := rfl
@[simp] theorem State.modSet_ledger (s : State) (f : Settle → Settle) : (s.modSet f).ledger = s.ledger := rfl
@[simp] theorem State.modSet_dev (s : State) (f : Settle → Settle) : (s.modSet f).dev = s.dev := rfl
@[simp] theorem State.modSet_err (s : State) (f : Settle → Settle) : (s.modSet f).err = s.err := rfl
@[simp] theorem State.modSet_host (s : State) (f : Settle → Settle) : (s.modSet f).host = s.host := rfl
@[simp] theorem State.modSet_job (s : State) (f : Settle → Settle) : (s.modSet f).job = s.job := rfl
@[simp] theorem State.modSet_saved (s : State) (f : Settle → Settle) : (s.modSet f).saved = s.saved := rfl
@[simp] theorem State.modSet_preempt (s : State) (f : Settle → Settle) : (s.modSet f).preempt = s.preempt := rfl
@[simp] theorem State.modSet_preempts (s : State) (f : Settle → Settle) : (s.modSet f).preempts = s.preempts := rfl
@[simp] theorem State.modSet_clusters (s : State) (f : Settle → Settle) : (s.modSet f).clusters = s.clusters := rfl
@[simp] theorem State.modSet_cores (s : State) (f : Settle → Settle) : (s.modSet f).cores = s.cores := rfl
@[simp] theorem State.modSet_units (s : State) (f : Settle → Settle) : (s.modSet f).units = s.units := rfl
@[simp] theorem State.modSet_hwm (s : State) (f : Settle → Settle) : (s.modSet f).hwm = s.hwm := rfl
@[simp] theorem State.modSet_mem (s : State) (f : Settle → Settle) : (s.modSet f).mem = s.mem := rfl
@[simp] theorem State.modSet_dram (s : State) (f : Settle → Settle) : (s.modSet f).dram = s.dram := rfl
@[simp] theorem State.modSet_settle (s : State) (f : Settle → Settle) : (s.modSet f).settle = f s.settle := rfl
@[simp] theorem State.modSet_dec (s : State) (f : Settle → Settle) : (s.modSet f).dec = s.dec := rfl
@[simp] theorem State.modSet_col (s : State) (f : Settle → Settle) : (s.modSet f).col = s.col := rfl
@[simp] theorem State.modSet_ports (s : State) (f : Settle → Settle) : (s.modSet f).ports = s.ports := rfl
@[simp] theorem State.modSet_time (s : State) (f : Settle → Settle) : (s.modSet f).time = s.time := rfl
@[simp] theorem State.modSet_rtr (s : State) (f : Settle → Settle) : (s.modSet f).rtr = s.rtr := rfl
@[simp] theorem State.modSet_pwr (s : State) (f : Settle → Settle) : (s.modSet f).pwr = s.pwr := rfl
@[simp] theorem State.modSet_rails (s : State) (f : Settle → Settle) : (s.modSet f).rails = s.rails := rfl
@[simp] theorem State.modSet_mgmt (s : State) (f : Settle → Settle) : (s.modSet f).mgmt = s.mgmt := rfl
@[simp] theorem State.modSet_tel (s : State) (f : Settle → Settle) : (s.modSet f).tel = s.tel := rfl
@[simp] theorem State.modSet_sec (s : State) (f : Settle → Settle) : (s.modSet f).sec = s.sec := rfl
@[simp] theorem State.modSet_latches (s : State) (f : Settle → Settle) : (s.modSet f).latches = s.latches := rfl

/-! ### modDec -/

@[simp] theorem State.modDec_pending (s : State) (f : Decision → Decision) : (s.modDec f).pending = s.pending := rfl
@[simp] theorem State.modDec_aoNs (s : State) (f : Decision → Decision) : (s.modDec f).aoNs = s.aoNs := rfl
@[simp] theorem State.modDec_devOff (s : State) (f : Decision → Decision) : (s.modDec f).devOff = s.devOff := rfl
@[simp] theorem State.modDec_free (s : State) (f : Decision → Decision) : (s.modDec f).free = s.free := rfl
@[simp] theorem State.modDec_out (s : State) (f : Decision → Decision) : (s.modDec f).out = s.out := rfl
@[simp] theorem State.modDec_fuses (s : State) (f : Decision → Decision) : (s.modDec f).fuses = s.fuses := rfl
@[simp] theorem State.modDec_flash (s : State) (f : Decision → Decision) : (s.modDec f).flash = s.flash := rfl
@[simp] theorem State.modDec_ledger (s : State) (f : Decision → Decision) : (s.modDec f).ledger = s.ledger := rfl
@[simp] theorem State.modDec_dev (s : State) (f : Decision → Decision) : (s.modDec f).dev = s.dev := rfl
@[simp] theorem State.modDec_err (s : State) (f : Decision → Decision) : (s.modDec f).err = s.err := rfl
@[simp] theorem State.modDec_host (s : State) (f : Decision → Decision) : (s.modDec f).host = s.host := rfl
@[simp] theorem State.modDec_job (s : State) (f : Decision → Decision) : (s.modDec f).job = s.job := rfl
@[simp] theorem State.modDec_saved (s : State) (f : Decision → Decision) : (s.modDec f).saved = s.saved := rfl
@[simp] theorem State.modDec_preempt (s : State) (f : Decision → Decision) : (s.modDec f).preempt = s.preempt := rfl
@[simp] theorem State.modDec_preempts (s : State) (f : Decision → Decision) : (s.modDec f).preempts = s.preempts := rfl
@[simp] theorem State.modDec_clusters (s : State) (f : Decision → Decision) : (s.modDec f).clusters = s.clusters := rfl
@[simp] theorem State.modDec_cores (s : State) (f : Decision → Decision) : (s.modDec f).cores = s.cores := rfl
@[simp] theorem State.modDec_units (s : State) (f : Decision → Decision) : (s.modDec f).units = s.units := rfl
@[simp] theorem State.modDec_hwm (s : State) (f : Decision → Decision) : (s.modDec f).hwm = s.hwm := rfl
@[simp] theorem State.modDec_mem (s : State) (f : Decision → Decision) : (s.modDec f).mem = s.mem := rfl
@[simp] theorem State.modDec_dram (s : State) (f : Decision → Decision) : (s.modDec f).dram = s.dram := rfl
@[simp] theorem State.modDec_settle (s : State) (f : Decision → Decision) : (s.modDec f).settle = s.settle := rfl
@[simp] theorem State.modDec_dec (s : State) (f : Decision → Decision) : (s.modDec f).dec = f s.dec := rfl
@[simp] theorem State.modDec_col (s : State) (f : Decision → Decision) : (s.modDec f).col = s.col := rfl
@[simp] theorem State.modDec_ports (s : State) (f : Decision → Decision) : (s.modDec f).ports = s.ports := rfl
@[simp] theorem State.modDec_time (s : State) (f : Decision → Decision) : (s.modDec f).time = s.time := rfl
@[simp] theorem State.modDec_rtr (s : State) (f : Decision → Decision) : (s.modDec f).rtr = s.rtr := rfl
@[simp] theorem State.modDec_pwr (s : State) (f : Decision → Decision) : (s.modDec f).pwr = s.pwr := rfl
@[simp] theorem State.modDec_rails (s : State) (f : Decision → Decision) : (s.modDec f).rails = s.rails := rfl
@[simp] theorem State.modDec_mgmt (s : State) (f : Decision → Decision) : (s.modDec f).mgmt = s.mgmt := rfl
@[simp] theorem State.modDec_tel (s : State) (f : Decision → Decision) : (s.modDec f).tel = s.tel := rfl
@[simp] theorem State.modDec_sec (s : State) (f : Decision → Decision) : (s.modDec f).sec = s.sec := rfl
@[simp] theorem State.modDec_latches (s : State) (f : Decision → Decision) : (s.modDec f).latches = s.latches := rfl

/-! ### modCol -/

@[simp] theorem State.modCol_pending (s : State) (f : Collect → Collect) : (s.modCol f).pending = s.pending := rfl
@[simp] theorem State.modCol_aoNs (s : State) (f : Collect → Collect) : (s.modCol f).aoNs = s.aoNs := rfl
@[simp] theorem State.modCol_devOff (s : State) (f : Collect → Collect) : (s.modCol f).devOff = s.devOff := rfl
@[simp] theorem State.modCol_free (s : State) (f : Collect → Collect) : (s.modCol f).free = s.free := rfl
@[simp] theorem State.modCol_out (s : State) (f : Collect → Collect) : (s.modCol f).out = s.out := rfl
@[simp] theorem State.modCol_fuses (s : State) (f : Collect → Collect) : (s.modCol f).fuses = s.fuses := rfl
@[simp] theorem State.modCol_flash (s : State) (f : Collect → Collect) : (s.modCol f).flash = s.flash := rfl
@[simp] theorem State.modCol_ledger (s : State) (f : Collect → Collect) : (s.modCol f).ledger = s.ledger := rfl
@[simp] theorem State.modCol_dev (s : State) (f : Collect → Collect) : (s.modCol f).dev = s.dev := rfl
@[simp] theorem State.modCol_err (s : State) (f : Collect → Collect) : (s.modCol f).err = s.err := rfl
@[simp] theorem State.modCol_host (s : State) (f : Collect → Collect) : (s.modCol f).host = s.host := rfl
@[simp] theorem State.modCol_job (s : State) (f : Collect → Collect) : (s.modCol f).job = s.job := rfl
@[simp] theorem State.modCol_saved (s : State) (f : Collect → Collect) : (s.modCol f).saved = s.saved := rfl
@[simp] theorem State.modCol_preempt (s : State) (f : Collect → Collect) : (s.modCol f).preempt = s.preempt := rfl
@[simp] theorem State.modCol_preempts (s : State) (f : Collect → Collect) : (s.modCol f).preempts = s.preempts := rfl
@[simp] theorem State.modCol_clusters (s : State) (f : Collect → Collect) : (s.modCol f).clusters = s.clusters := rfl
@[simp] theorem State.modCol_cores (s : State) (f : Collect → Collect) : (s.modCol f).cores = s.cores := rfl
@[simp] theorem State.modCol_units (s : State) (f : Collect → Collect) : (s.modCol f).units = s.units := rfl
@[simp] theorem State.modCol_hwm (s : State) (f : Collect → Collect) : (s.modCol f).hwm = s.hwm := rfl
@[simp] theorem State.modCol_mem (s : State) (f : Collect → Collect) : (s.modCol f).mem = s.mem := rfl
@[simp] theorem State.modCol_dram (s : State) (f : Collect → Collect) : (s.modCol f).dram = s.dram := rfl
@[simp] theorem State.modCol_settle (s : State) (f : Collect → Collect) : (s.modCol f).settle = s.settle := rfl
@[simp] theorem State.modCol_dec (s : State) (f : Collect → Collect) : (s.modCol f).dec = s.dec := rfl
@[simp] theorem State.modCol_col (s : State) (f : Collect → Collect) : (s.modCol f).col = f s.col := rfl
@[simp] theorem State.modCol_ports (s : State) (f : Collect → Collect) : (s.modCol f).ports = s.ports := rfl
@[simp] theorem State.modCol_time (s : State) (f : Collect → Collect) : (s.modCol f).time = s.time := rfl
@[simp] theorem State.modCol_rtr (s : State) (f : Collect → Collect) : (s.modCol f).rtr = s.rtr := rfl
@[simp] theorem State.modCol_pwr (s : State) (f : Collect → Collect) : (s.modCol f).pwr = s.pwr := rfl
@[simp] theorem State.modCol_rails (s : State) (f : Collect → Collect) : (s.modCol f).rails = s.rails := rfl
@[simp] theorem State.modCol_mgmt (s : State) (f : Collect → Collect) : (s.modCol f).mgmt = s.mgmt := rfl
@[simp] theorem State.modCol_tel (s : State) (f : Collect → Collect) : (s.modCol f).tel = s.tel := rfl
@[simp] theorem State.modCol_sec (s : State) (f : Collect → Collect) : (s.modCol f).sec = s.sec := rfl
@[simp] theorem State.modCol_latches (s : State) (f : Collect → Collect) : (s.modCol f).latches = s.latches := rfl

/-! ### modRtr -/

@[simp] theorem State.modRtr_pending (s : State) (f : Router → Router) : (s.modRtr f).pending = s.pending := rfl
@[simp] theorem State.modRtr_aoNs (s : State) (f : Router → Router) : (s.modRtr f).aoNs = s.aoNs := rfl
@[simp] theorem State.modRtr_devOff (s : State) (f : Router → Router) : (s.modRtr f).devOff = s.devOff := rfl
@[simp] theorem State.modRtr_free (s : State) (f : Router → Router) : (s.modRtr f).free = s.free := rfl
@[simp] theorem State.modRtr_out (s : State) (f : Router → Router) : (s.modRtr f).out = s.out := rfl
@[simp] theorem State.modRtr_fuses (s : State) (f : Router → Router) : (s.modRtr f).fuses = s.fuses := rfl
@[simp] theorem State.modRtr_flash (s : State) (f : Router → Router) : (s.modRtr f).flash = s.flash := rfl
@[simp] theorem State.modRtr_ledger (s : State) (f : Router → Router) : (s.modRtr f).ledger = s.ledger := rfl
@[simp] theorem State.modRtr_dev (s : State) (f : Router → Router) : (s.modRtr f).dev = s.dev := rfl
@[simp] theorem State.modRtr_err (s : State) (f : Router → Router) : (s.modRtr f).err = s.err := rfl
@[simp] theorem State.modRtr_host (s : State) (f : Router → Router) : (s.modRtr f).host = s.host := rfl
@[simp] theorem State.modRtr_job (s : State) (f : Router → Router) : (s.modRtr f).job = s.job := rfl
@[simp] theorem State.modRtr_saved (s : State) (f : Router → Router) : (s.modRtr f).saved = s.saved := rfl
@[simp] theorem State.modRtr_preempt (s : State) (f : Router → Router) : (s.modRtr f).preempt = s.preempt := rfl
@[simp] theorem State.modRtr_preempts (s : State) (f : Router → Router) : (s.modRtr f).preempts = s.preempts := rfl
@[simp] theorem State.modRtr_clusters (s : State) (f : Router → Router) : (s.modRtr f).clusters = s.clusters := rfl
@[simp] theorem State.modRtr_cores (s : State) (f : Router → Router) : (s.modRtr f).cores = s.cores := rfl
@[simp] theorem State.modRtr_units (s : State) (f : Router → Router) : (s.modRtr f).units = s.units := rfl
@[simp] theorem State.modRtr_hwm (s : State) (f : Router → Router) : (s.modRtr f).hwm = s.hwm := rfl
@[simp] theorem State.modRtr_mem (s : State) (f : Router → Router) : (s.modRtr f).mem = s.mem := rfl
@[simp] theorem State.modRtr_dram (s : State) (f : Router → Router) : (s.modRtr f).dram = s.dram := rfl
@[simp] theorem State.modRtr_settle (s : State) (f : Router → Router) : (s.modRtr f).settle = s.settle := rfl
@[simp] theorem State.modRtr_dec (s : State) (f : Router → Router) : (s.modRtr f).dec = s.dec := rfl
@[simp] theorem State.modRtr_col (s : State) (f : Router → Router) : (s.modRtr f).col = s.col := rfl
@[simp] theorem State.modRtr_ports (s : State) (f : Router → Router) : (s.modRtr f).ports = s.ports := rfl
@[simp] theorem State.modRtr_time (s : State) (f : Router → Router) : (s.modRtr f).time = s.time := rfl
@[simp] theorem State.modRtr_rtr (s : State) (f : Router → Router) : (s.modRtr f).rtr = f s.rtr := rfl
@[simp] theorem State.modRtr_pwr (s : State) (f : Router → Router) : (s.modRtr f).pwr = s.pwr := rfl
@[simp] theorem State.modRtr_rails (s : State) (f : Router → Router) : (s.modRtr f).rails = s.rails := rfl
@[simp] theorem State.modRtr_mgmt (s : State) (f : Router → Router) : (s.modRtr f).mgmt = s.mgmt := rfl
@[simp] theorem State.modRtr_tel (s : State) (f : Router → Router) : (s.modRtr f).tel = s.tel := rfl
@[simp] theorem State.modRtr_sec (s : State) (f : Router → Router) : (s.modRtr f).sec = s.sec := rfl
@[simp] theorem State.modRtr_latches (s : State) (f : Router → Router) : (s.modRtr f).latches = s.latches := rfl

/-! ### modSlice -/

@[simp] theorem State.modSlice_pending (s : State) (f : Slice → Slice) : (s.modSlice f).pending = s.pending := rfl
@[simp] theorem State.modSlice_aoNs (s : State) (f : Slice → Slice) : (s.modSlice f).aoNs = s.aoNs := rfl
@[simp] theorem State.modSlice_devOff (s : State) (f : Slice → Slice) : (s.modSlice f).devOff = s.devOff := rfl
@[simp] theorem State.modSlice_free (s : State) (f : Slice → Slice) : (s.modSlice f).free = s.free := rfl
@[simp] theorem State.modSlice_out (s : State) (f : Slice → Slice) : (s.modSlice f).out = s.out := rfl
@[simp] theorem State.modSlice_fuses (s : State) (f : Slice → Slice) : (s.modSlice f).fuses = s.fuses := rfl
@[simp] theorem State.modSlice_flash (s : State) (f : Slice → Slice) : (s.modSlice f).flash = s.flash := rfl
@[simp] theorem State.modSlice_ledger (s : State) (f : Slice → Slice) : (s.modSlice f).ledger = s.ledger := rfl
@[simp] theorem State.modSlice_dev (s : State) (f : Slice → Slice) : (s.modSlice f).dev = s.dev := rfl
@[simp] theorem State.modSlice_err (s : State) (f : Slice → Slice) : (s.modSlice f).err = s.err := rfl
@[simp] theorem State.modSlice_host (s : State) (f : Slice → Slice) : (s.modSlice f).host = s.host := rfl
@[simp] theorem State.modSlice_job (s : State) (f : Slice → Slice) : (s.modSlice f).job = s.job := rfl
@[simp] theorem State.modSlice_saved (s : State) (f : Slice → Slice) : (s.modSlice f).saved = s.saved := rfl
@[simp] theorem State.modSlice_preempt (s : State) (f : Slice → Slice) : (s.modSlice f).preempt = s.preempt := rfl
@[simp] theorem State.modSlice_preempts (s : State) (f : Slice → Slice) : (s.modSlice f).preempts = s.preempts := rfl
@[simp] theorem State.modSlice_clusters (s : State) (f : Slice → Slice) : (s.modSlice f).clusters = s.clusters := rfl
@[simp] theorem State.modSlice_cores (s : State) (f : Slice → Slice) : (s.modSlice f).cores = s.cores := rfl
@[simp] theorem State.modSlice_units (s : State) (f : Slice → Slice) : (s.modSlice f).units = s.units := rfl
@[simp] theorem State.modSlice_hwm (s : State) (f : Slice → Slice) : (s.modSlice f).hwm = s.hwm := rfl
@[simp] theorem State.modSlice_mem (s : State) (f : Slice → Slice) : (s.modSlice f).mem = s.mem := rfl
@[simp] theorem State.modSlice_dram (s : State) (f : Slice → Slice) : (s.modSlice f).dram = s.dram := rfl
@[simp] theorem State.modSlice_settle (s : State) (f : Slice → Slice) : (s.modSlice f).settle = s.settle := rfl
@[simp] theorem State.modSlice_dec (s : State) (f : Slice → Slice) : (s.modSlice f).dec = s.dec := rfl
@[simp] theorem State.modSlice_col (s : State) (f : Slice → Slice) : (s.modSlice f).col = s.col := rfl
@[simp] theorem State.modSlice_ports (s : State) (f : Slice → Slice) : (s.modSlice f).ports = s.ports := rfl
@[simp] theorem State.modSlice_time (s : State) (f : Slice → Slice) : (s.modSlice f).time = s.time := rfl
@[simp] theorem State.modSlice_rtr (s : State) (f : Slice → Slice) : (s.modSlice f).rtr = { s.rtr with slice := f s.rtr.slice } := rfl
@[simp] theorem State.modSlice_pwr (s : State) (f : Slice → Slice) : (s.modSlice f).pwr = s.pwr := rfl
@[simp] theorem State.modSlice_rails (s : State) (f : Slice → Slice) : (s.modSlice f).rails = s.rails := rfl
@[simp] theorem State.modSlice_mgmt (s : State) (f : Slice → Slice) : (s.modSlice f).mgmt = s.mgmt := rfl
@[simp] theorem State.modSlice_tel (s : State) (f : Slice → Slice) : (s.modSlice f).tel = s.tel := rfl
@[simp] theorem State.modSlice_sec (s : State) (f : Slice → Slice) : (s.modSlice f).sec = s.sec := rfl
@[simp] theorem State.modSlice_latches (s : State) (f : Slice → Slice) : (s.modSlice f).latches = s.latches := rfl

/-! ### modTime -/

@[simp] theorem State.modTime_pending (s : State) (f : TimeBase → TimeBase) : (s.modTime f).pending = s.pending := rfl
@[simp] theorem State.modTime_aoNs (s : State) (f : TimeBase → TimeBase) : (s.modTime f).aoNs = s.aoNs := rfl
@[simp] theorem State.modTime_devOff (s : State) (f : TimeBase → TimeBase) : (s.modTime f).devOff = s.devOff := rfl
@[simp] theorem State.modTime_free (s : State) (f : TimeBase → TimeBase) : (s.modTime f).free = s.free := rfl
@[simp] theorem State.modTime_out (s : State) (f : TimeBase → TimeBase) : (s.modTime f).out = s.out := rfl
@[simp] theorem State.modTime_fuses (s : State) (f : TimeBase → TimeBase) : (s.modTime f).fuses = s.fuses := rfl
@[simp] theorem State.modTime_flash (s : State) (f : TimeBase → TimeBase) : (s.modTime f).flash = s.flash := rfl
@[simp] theorem State.modTime_ledger (s : State) (f : TimeBase → TimeBase) : (s.modTime f).ledger = s.ledger := rfl
@[simp] theorem State.modTime_dev (s : State) (f : TimeBase → TimeBase) : (s.modTime f).dev = s.dev := rfl
@[simp] theorem State.modTime_err (s : State) (f : TimeBase → TimeBase) : (s.modTime f).err = s.err := rfl
@[simp] theorem State.modTime_host (s : State) (f : TimeBase → TimeBase) : (s.modTime f).host = s.host := rfl
@[simp] theorem State.modTime_job (s : State) (f : TimeBase → TimeBase) : (s.modTime f).job = s.job := rfl
@[simp] theorem State.modTime_saved (s : State) (f : TimeBase → TimeBase) : (s.modTime f).saved = s.saved := rfl
@[simp] theorem State.modTime_preempt (s : State) (f : TimeBase → TimeBase) : (s.modTime f).preempt = s.preempt := rfl
@[simp] theorem State.modTime_preempts (s : State) (f : TimeBase → TimeBase) : (s.modTime f).preempts = s.preempts := rfl
@[simp] theorem State.modTime_clusters (s : State) (f : TimeBase → TimeBase) : (s.modTime f).clusters = s.clusters := rfl
@[simp] theorem State.modTime_cores (s : State) (f : TimeBase → TimeBase) : (s.modTime f).cores = s.cores := rfl
@[simp] theorem State.modTime_units (s : State) (f : TimeBase → TimeBase) : (s.modTime f).units = s.units := rfl
@[simp] theorem State.modTime_hwm (s : State) (f : TimeBase → TimeBase) : (s.modTime f).hwm = s.hwm := rfl
@[simp] theorem State.modTime_mem (s : State) (f : TimeBase → TimeBase) : (s.modTime f).mem = s.mem := rfl
@[simp] theorem State.modTime_dram (s : State) (f : TimeBase → TimeBase) : (s.modTime f).dram = s.dram := rfl
@[simp] theorem State.modTime_settle (s : State) (f : TimeBase → TimeBase) : (s.modTime f).settle = s.settle := rfl
@[simp] theorem State.modTime_dec (s : State) (f : TimeBase → TimeBase) : (s.modTime f).dec = s.dec := rfl
@[simp] theorem State.modTime_col (s : State) (f : TimeBase → TimeBase) : (s.modTime f).col = s.col := rfl
@[simp] theorem State.modTime_ports (s : State) (f : TimeBase → TimeBase) : (s.modTime f).ports = s.ports := rfl
@[simp] theorem State.modTime_time (s : State) (f : TimeBase → TimeBase) : (s.modTime f).time = f s.time := rfl
@[simp] theorem State.modTime_rtr (s : State) (f : TimeBase → TimeBase) : (s.modTime f).rtr = s.rtr := rfl
@[simp] theorem State.modTime_pwr (s : State) (f : TimeBase → TimeBase) : (s.modTime f).pwr = s.pwr := rfl
@[simp] theorem State.modTime_rails (s : State) (f : TimeBase → TimeBase) : (s.modTime f).rails = s.rails := rfl
@[simp] theorem State.modTime_mgmt (s : State) (f : TimeBase → TimeBase) : (s.modTime f).mgmt = s.mgmt := rfl
@[simp] theorem State.modTime_tel (s : State) (f : TimeBase → TimeBase) : (s.modTime f).tel = s.tel := rfl
@[simp] theorem State.modTime_sec (s : State) (f : TimeBase → TimeBase) : (s.modTime f).sec = s.sec := rfl
@[simp] theorem State.modTime_latches (s : State) (f : TimeBase → TimeBase) : (s.modTime f).latches = s.latches := rfl

/-! ### modPwr -/

@[simp] theorem State.modPwr_pending (s : State) (f : Power → Power) : (s.modPwr f).pending = s.pending := rfl
@[simp] theorem State.modPwr_aoNs (s : State) (f : Power → Power) : (s.modPwr f).aoNs = s.aoNs := rfl
@[simp] theorem State.modPwr_devOff (s : State) (f : Power → Power) : (s.modPwr f).devOff = s.devOff := rfl
@[simp] theorem State.modPwr_free (s : State) (f : Power → Power) : (s.modPwr f).free = s.free := rfl
@[simp] theorem State.modPwr_out (s : State) (f : Power → Power) : (s.modPwr f).out = s.out := rfl
@[simp] theorem State.modPwr_fuses (s : State) (f : Power → Power) : (s.modPwr f).fuses = s.fuses := rfl
@[simp] theorem State.modPwr_flash (s : State) (f : Power → Power) : (s.modPwr f).flash = s.flash := rfl
@[simp] theorem State.modPwr_ledger (s : State) (f : Power → Power) : (s.modPwr f).ledger = s.ledger := rfl
@[simp] theorem State.modPwr_dev (s : State) (f : Power → Power) : (s.modPwr f).dev = s.dev := rfl
@[simp] theorem State.modPwr_err (s : State) (f : Power → Power) : (s.modPwr f).err = s.err := rfl
@[simp] theorem State.modPwr_host (s : State) (f : Power → Power) : (s.modPwr f).host = s.host := rfl
@[simp] theorem State.modPwr_job (s : State) (f : Power → Power) : (s.modPwr f).job = s.job := rfl
@[simp] theorem State.modPwr_saved (s : State) (f : Power → Power) : (s.modPwr f).saved = s.saved := rfl
@[simp] theorem State.modPwr_preempt (s : State) (f : Power → Power) : (s.modPwr f).preempt = s.preempt := rfl
@[simp] theorem State.modPwr_preempts (s : State) (f : Power → Power) : (s.modPwr f).preempts = s.preempts := rfl
@[simp] theorem State.modPwr_clusters (s : State) (f : Power → Power) : (s.modPwr f).clusters = s.clusters := rfl
@[simp] theorem State.modPwr_cores (s : State) (f : Power → Power) : (s.modPwr f).cores = s.cores := rfl
@[simp] theorem State.modPwr_units (s : State) (f : Power → Power) : (s.modPwr f).units = s.units := rfl
@[simp] theorem State.modPwr_hwm (s : State) (f : Power → Power) : (s.modPwr f).hwm = s.hwm := rfl
@[simp] theorem State.modPwr_mem (s : State) (f : Power → Power) : (s.modPwr f).mem = s.mem := rfl
@[simp] theorem State.modPwr_dram (s : State) (f : Power → Power) : (s.modPwr f).dram = s.dram := rfl
@[simp] theorem State.modPwr_settle (s : State) (f : Power → Power) : (s.modPwr f).settle = s.settle := rfl
@[simp] theorem State.modPwr_dec (s : State) (f : Power → Power) : (s.modPwr f).dec = s.dec := rfl
@[simp] theorem State.modPwr_col (s : State) (f : Power → Power) : (s.modPwr f).col = s.col := rfl
@[simp] theorem State.modPwr_ports (s : State) (f : Power → Power) : (s.modPwr f).ports = s.ports := rfl
@[simp] theorem State.modPwr_time (s : State) (f : Power → Power) : (s.modPwr f).time = s.time := rfl
@[simp] theorem State.modPwr_rtr (s : State) (f : Power → Power) : (s.modPwr f).rtr = s.rtr := rfl
@[simp] theorem State.modPwr_pwr (s : State) (f : Power → Power) : (s.modPwr f).pwr = f s.pwr := rfl
@[simp] theorem State.modPwr_rails (s : State) (f : Power → Power) : (s.modPwr f).rails = s.rails := rfl
@[simp] theorem State.modPwr_mgmt (s : State) (f : Power → Power) : (s.modPwr f).mgmt = s.mgmt := rfl
@[simp] theorem State.modPwr_tel (s : State) (f : Power → Power) : (s.modPwr f).tel = s.tel := rfl
@[simp] theorem State.modPwr_sec (s : State) (f : Power → Power) : (s.modPwr f).sec = s.sec := rfl
@[simp] theorem State.modPwr_latches (s : State) (f : Power → Power) : (s.modPwr f).latches = s.latches := rfl

/-! ### modMgmt -/

@[simp] theorem State.modMgmt_pending (s : State) (f : Mgmt → Mgmt) : (s.modMgmt f).pending = s.pending := rfl
@[simp] theorem State.modMgmt_aoNs (s : State) (f : Mgmt → Mgmt) : (s.modMgmt f).aoNs = s.aoNs := rfl
@[simp] theorem State.modMgmt_devOff (s : State) (f : Mgmt → Mgmt) : (s.modMgmt f).devOff = s.devOff := rfl
@[simp] theorem State.modMgmt_free (s : State) (f : Mgmt → Mgmt) : (s.modMgmt f).free = s.free := rfl
@[simp] theorem State.modMgmt_out (s : State) (f : Mgmt → Mgmt) : (s.modMgmt f).out = s.out := rfl
@[simp] theorem State.modMgmt_fuses (s : State) (f : Mgmt → Mgmt) : (s.modMgmt f).fuses = s.fuses := rfl
@[simp] theorem State.modMgmt_flash (s : State) (f : Mgmt → Mgmt) : (s.modMgmt f).flash = s.flash := rfl
@[simp] theorem State.modMgmt_ledger (s : State) (f : Mgmt → Mgmt) : (s.modMgmt f).ledger = s.ledger := rfl
@[simp] theorem State.modMgmt_dev (s : State) (f : Mgmt → Mgmt) : (s.modMgmt f).dev = s.dev := rfl
@[simp] theorem State.modMgmt_err (s : State) (f : Mgmt → Mgmt) : (s.modMgmt f).err = s.err := rfl
@[simp] theorem State.modMgmt_host (s : State) (f : Mgmt → Mgmt) : (s.modMgmt f).host = s.host := rfl
@[simp] theorem State.modMgmt_job (s : State) (f : Mgmt → Mgmt) : (s.modMgmt f).job = s.job := rfl
@[simp] theorem State.modMgmt_saved (s : State) (f : Mgmt → Mgmt) : (s.modMgmt f).saved = s.saved := rfl
@[simp] theorem State.modMgmt_preempt (s : State) (f : Mgmt → Mgmt) : (s.modMgmt f).preempt = s.preempt := rfl
@[simp] theorem State.modMgmt_preempts (s : State) (f : Mgmt → Mgmt) : (s.modMgmt f).preempts = s.preempts := rfl
@[simp] theorem State.modMgmt_clusters (s : State) (f : Mgmt → Mgmt) : (s.modMgmt f).clusters = s.clusters := rfl
@[simp] theorem State.modMgmt_cores (s : State) (f : Mgmt → Mgmt) : (s.modMgmt f).cores = s.cores := rfl
@[simp] theorem State.modMgmt_units (s : State) (f : Mgmt → Mgmt) : (s.modMgmt f).units = s.units := rfl
@[simp] theorem State.modMgmt_hwm (s : State) (f : Mgmt → Mgmt) : (s.modMgmt f).hwm = s.hwm := rfl
@[simp] theorem State.modMgmt_mem (s : State) (f : Mgmt → Mgmt) : (s.modMgmt f).mem = s.mem := rfl
@[simp] theorem State.modMgmt_dram (s : State) (f : Mgmt → Mgmt) : (s.modMgmt f).dram = s.dram := rfl
@[simp] theorem State.modMgmt_settle (s : State) (f : Mgmt → Mgmt) : (s.modMgmt f).settle = s.settle := rfl
@[simp] theorem State.modMgmt_dec (s : State) (f : Mgmt → Mgmt) : (s.modMgmt f).dec = s.dec := rfl
@[simp] theorem State.modMgmt_col (s : State) (f : Mgmt → Mgmt) : (s.modMgmt f).col = s.col := rfl
@[simp] theorem State.modMgmt_ports (s : State) (f : Mgmt → Mgmt) : (s.modMgmt f).ports = s.ports := rfl
@[simp] theorem State.modMgmt_time (s : State) (f : Mgmt → Mgmt) : (s.modMgmt f).time = s.time := rfl
@[simp] theorem State.modMgmt_rtr (s : State) (f : Mgmt → Mgmt) : (s.modMgmt f).rtr = s.rtr := rfl
@[simp] theorem State.modMgmt_pwr (s : State) (f : Mgmt → Mgmt) : (s.modMgmt f).pwr = s.pwr := rfl
@[simp] theorem State.modMgmt_rails (s : State) (f : Mgmt → Mgmt) : (s.modMgmt f).rails = s.rails := rfl
@[simp] theorem State.modMgmt_mgmt (s : State) (f : Mgmt → Mgmt) : (s.modMgmt f).mgmt = f s.mgmt := rfl
@[simp] theorem State.modMgmt_tel (s : State) (f : Mgmt → Mgmt) : (s.modMgmt f).tel = s.tel := rfl
@[simp] theorem State.modMgmt_sec (s : State) (f : Mgmt → Mgmt) : (s.modMgmt f).sec = s.sec := rfl
@[simp] theorem State.modMgmt_latches (s : State) (f : Mgmt → Mgmt) : (s.modMgmt f).latches = s.latches := rfl

/-! ### modSec -/

@[simp] theorem State.modSec_pending (s : State) (f : Security → Security) : (s.modSec f).pending = s.pending := rfl
@[simp] theorem State.modSec_aoNs (s : State) (f : Security → Security) : (s.modSec f).aoNs = s.aoNs := rfl
@[simp] theorem State.modSec_devOff (s : State) (f : Security → Security) : (s.modSec f).devOff = s.devOff := rfl
@[simp] theorem State.modSec_free (s : State) (f : Security → Security) : (s.modSec f).free = s.free := rfl
@[simp] theorem State.modSec_out (s : State) (f : Security → Security) : (s.modSec f).out = s.out := rfl
@[simp] theorem State.modSec_fuses (s : State) (f : Security → Security) : (s.modSec f).fuses = s.fuses := rfl
@[simp] theorem State.modSec_flash (s : State) (f : Security → Security) : (s.modSec f).flash = s.flash := rfl
@[simp] theorem State.modSec_ledger (s : State) (f : Security → Security) : (s.modSec f).ledger = s.ledger := rfl
@[simp] theorem State.modSec_dev (s : State) (f : Security → Security) : (s.modSec f).dev = s.dev := rfl
@[simp] theorem State.modSec_err (s : State) (f : Security → Security) : (s.modSec f).err = s.err := rfl
@[simp] theorem State.modSec_host (s : State) (f : Security → Security) : (s.modSec f).host = s.host := rfl
@[simp] theorem State.modSec_job (s : State) (f : Security → Security) : (s.modSec f).job = s.job := rfl
@[simp] theorem State.modSec_saved (s : State) (f : Security → Security) : (s.modSec f).saved = s.saved := rfl
@[simp] theorem State.modSec_preempt (s : State) (f : Security → Security) : (s.modSec f).preempt = s.preempt := rfl
@[simp] theorem State.modSec_preempts (s : State) (f : Security → Security) : (s.modSec f).preempts = s.preempts := rfl
@[simp] theorem State.modSec_clusters (s : State) (f : Security → Security) : (s.modSec f).clusters = s.clusters := rfl
@[simp] theorem State.modSec_cores (s : State) (f : Security → Security) : (s.modSec f).cores = s.cores := rfl
@[simp] theorem State.modSec_units (s : State) (f : Security → Security) : (s.modSec f).units = s.units := rfl
@[simp] theorem State.modSec_hwm (s : State) (f : Security → Security) : (s.modSec f).hwm = s.hwm := rfl
@[simp] theorem State.modSec_mem (s : State) (f : Security → Security) : (s.modSec f).mem = s.mem := rfl
@[simp] theorem State.modSec_dram (s : State) (f : Security → Security) : (s.modSec f).dram = s.dram := rfl
@[simp] theorem State.modSec_settle (s : State) (f : Security → Security) : (s.modSec f).settle = s.settle := rfl
@[simp] theorem State.modSec_dec (s : State) (f : Security → Security) : (s.modSec f).dec = s.dec := rfl
@[simp] theorem State.modSec_col (s : State) (f : Security → Security) : (s.modSec f).col = s.col := rfl
@[simp] theorem State.modSec_ports (s : State) (f : Security → Security) : (s.modSec f).ports = s.ports := rfl
@[simp] theorem State.modSec_time (s : State) (f : Security → Security) : (s.modSec f).time = s.time := rfl
@[simp] theorem State.modSec_rtr (s : State) (f : Security → Security) : (s.modSec f).rtr = s.rtr := rfl
@[simp] theorem State.modSec_pwr (s : State) (f : Security → Security) : (s.modSec f).pwr = s.pwr := rfl
@[simp] theorem State.modSec_rails (s : State) (f : Security → Security) : (s.modSec f).rails = s.rails := rfl
@[simp] theorem State.modSec_mgmt (s : State) (f : Security → Security) : (s.modSec f).mgmt = s.mgmt := rfl
@[simp] theorem State.modSec_tel (s : State) (f : Security → Security) : (s.modSec f).tel = s.tel := rfl
@[simp] theorem State.modSec_sec (s : State) (f : Security → Security) : (s.modSec f).sec = f s.sec := rfl
@[simp] theorem State.modSec_latches (s : State) (f : Security → Security) : (s.modSec f).latches = s.latches := rfl

/-! ### modDev -/

@[simp] theorem State.modDev_pending (s : State) (f : Device → Device) : (s.modDev f).pending = s.pending := rfl
@[simp] theorem State.modDev_aoNs (s : State) (f : Device → Device) : (s.modDev f).aoNs = s.aoNs := rfl
@[simp] theorem State.modDev_devOff (s : State) (f : Device → Device) : (s.modDev f).devOff = s.devOff := rfl
@[simp] theorem State.modDev_free (s : State) (f : Device → Device) : (s.modDev f).free = s.free := rfl
@[simp] theorem State.modDev_out (s : State) (f : Device → Device) : (s.modDev f).out = s.out := rfl
@[simp] theorem State.modDev_fuses (s : State) (f : Device → Device) : (s.modDev f).fuses = s.fuses := rfl
@[simp] theorem State.modDev_flash (s : State) (f : Device → Device) : (s.modDev f).flash = s.flash := rfl
@[simp] theorem State.modDev_ledger (s : State) (f : Device → Device) : (s.modDev f).ledger = s.ledger := rfl
@[simp] theorem State.modDev_dev (s : State) (f : Device → Device) : (s.modDev f).dev = f s.dev := rfl
@[simp] theorem State.modDev_err (s : State) (f : Device → Device) : (s.modDev f).err = s.err := rfl
@[simp] theorem State.modDev_host (s : State) (f : Device → Device) : (s.modDev f).host = s.host := rfl
@[simp] theorem State.modDev_job (s : State) (f : Device → Device) : (s.modDev f).job = s.job := rfl
@[simp] theorem State.modDev_saved (s : State) (f : Device → Device) : (s.modDev f).saved = s.saved := rfl
@[simp] theorem State.modDev_preempt (s : State) (f : Device → Device) : (s.modDev f).preempt = s.preempt := rfl
@[simp] theorem State.modDev_preempts (s : State) (f : Device → Device) : (s.modDev f).preempts = s.preempts := rfl
@[simp] theorem State.modDev_clusters (s : State) (f : Device → Device) : (s.modDev f).clusters = s.clusters := rfl
@[simp] theorem State.modDev_cores (s : State) (f : Device → Device) : (s.modDev f).cores = s.cores := rfl
@[simp] theorem State.modDev_units (s : State) (f : Device → Device) : (s.modDev f).units = s.units := rfl
@[simp] theorem State.modDev_hwm (s : State) (f : Device → Device) : (s.modDev f).hwm = s.hwm := rfl
@[simp] theorem State.modDev_mem (s : State) (f : Device → Device) : (s.modDev f).mem = s.mem := rfl
@[simp] theorem State.modDev_dram (s : State) (f : Device → Device) : (s.modDev f).dram = s.dram := rfl
@[simp] theorem State.modDev_settle (s : State) (f : Device → Device) : (s.modDev f).settle = s.settle := rfl
@[simp] theorem State.modDev_dec (s : State) (f : Device → Device) : (s.modDev f).dec = s.dec := rfl
@[simp] theorem State.modDev_col (s : State) (f : Device → Device) : (s.modDev f).col = s.col := rfl
@[simp] theorem State.modDev_ports (s : State) (f : Device → Device) : (s.modDev f).ports = s.ports := rfl
@[simp] theorem State.modDev_time (s : State) (f : Device → Device) : (s.modDev f).time = s.time := rfl
@[simp] theorem State.modDev_rtr (s : State) (f : Device → Device) : (s.modDev f).rtr = s.rtr := rfl
@[simp] theorem State.modDev_pwr (s : State) (f : Device → Device) : (s.modDev f).pwr = s.pwr := rfl
@[simp] theorem State.modDev_rails (s : State) (f : Device → Device) : (s.modDev f).rails = s.rails := rfl
@[simp] theorem State.modDev_mgmt (s : State) (f : Device → Device) : (s.modDev f).mgmt = s.mgmt := rfl
@[simp] theorem State.modDev_tel (s : State) (f : Device → Device) : (s.modDev f).tel = s.tel := rfl
@[simp] theorem State.modDev_sec (s : State) (f : Device → Device) : (s.modDev f).sec = s.sec := rfl
@[simp] theorem State.modDev_latches (s : State) (f : Device → Device) : (s.modDev f).latches = s.latches := rfl

/-! ### emit -/

@[simp] theorem State.emit_pending (s : State) (o : Out) : (s.emit o).pending = s.pending := rfl
@[simp] theorem State.emit_aoNs (s : State) (o : Out) : (s.emit o).aoNs = s.aoNs := rfl
@[simp] theorem State.emit_devOff (s : State) (o : Out) : (s.emit o).devOff = s.devOff := rfl
@[simp] theorem State.emit_free (s : State) (o : Out) : (s.emit o).free = s.free := rfl
@[simp] theorem State.emit_out (s : State) (o : Out) : (s.emit o).out = s.out ++ [o] := rfl
@[simp] theorem State.emit_fuses (s : State) (o : Out) : (s.emit o).fuses = s.fuses := rfl
@[simp] theorem State.emit_flash (s : State) (o : Out) : (s.emit o).flash = s.flash := rfl
@[simp] theorem State.emit_ledger (s : State) (o : Out) : (s.emit o).ledger = s.ledger := rfl
@[simp] theorem State.emit_dev (s : State) (o : Out) : (s.emit o).dev = s.dev := rfl
@[simp] theorem State.emit_err (s : State) (o : Out) : (s.emit o).err = s.err := rfl
@[simp] theorem State.emit_host (s : State) (o : Out) : (s.emit o).host = s.host := rfl
@[simp] theorem State.emit_job (s : State) (o : Out) : (s.emit o).job = s.job := rfl
@[simp] theorem State.emit_saved (s : State) (o : Out) : (s.emit o).saved = s.saved := rfl
@[simp] theorem State.emit_preempt (s : State) (o : Out) : (s.emit o).preempt = s.preempt := rfl
@[simp] theorem State.emit_preempts (s : State) (o : Out) : (s.emit o).preempts = s.preempts := rfl
@[simp] theorem State.emit_clusters (s : State) (o : Out) : (s.emit o).clusters = s.clusters := rfl
@[simp] theorem State.emit_cores (s : State) (o : Out) : (s.emit o).cores = s.cores := rfl
@[simp] theorem State.emit_units (s : State) (o : Out) : (s.emit o).units = s.units := rfl
@[simp] theorem State.emit_hwm (s : State) (o : Out) : (s.emit o).hwm = s.hwm := rfl
@[simp] theorem State.emit_mem (s : State) (o : Out) : (s.emit o).mem = s.mem := rfl
@[simp] theorem State.emit_dram (s : State) (o : Out) : (s.emit o).dram = s.dram := rfl
@[simp] theorem State.emit_settle (s : State) (o : Out) : (s.emit o).settle = s.settle := rfl
@[simp] theorem State.emit_dec (s : State) (o : Out) : (s.emit o).dec = s.dec := rfl
@[simp] theorem State.emit_col (s : State) (o : Out) : (s.emit o).col = s.col := rfl
@[simp] theorem State.emit_ports (s : State) (o : Out) : (s.emit o).ports = s.ports := rfl
@[simp] theorem State.emit_time (s : State) (o : Out) : (s.emit o).time = s.time := rfl
@[simp] theorem State.emit_rtr (s : State) (o : Out) : (s.emit o).rtr = s.rtr := rfl
@[simp] theorem State.emit_pwr (s : State) (o : Out) : (s.emit o).pwr = s.pwr := rfl
@[simp] theorem State.emit_rails (s : State) (o : Out) : (s.emit o).rails = s.rails := rfl
@[simp] theorem State.emit_mgmt (s : State) (o : Out) : (s.emit o).mgmt = s.mgmt := rfl
@[simp] theorem State.emit_tel (s : State) (o : Out) : (s.emit o).tel = s.tel := rfl
@[simp] theorem State.emit_sec (s : State) (o : Out) : (s.emit o).sec = s.sec := rfl
@[simp] theorem State.emit_latches (s : State) (o : Out) : (s.emit o).latches = s.latches := rfl

/-! ### emits -/

@[simp] theorem State.emits_pending (s : State) (os : List Out) : (s.emits os).pending = s.pending := rfl
@[simp] theorem State.emits_aoNs (s : State) (os : List Out) : (s.emits os).aoNs = s.aoNs := rfl
@[simp] theorem State.emits_devOff (s : State) (os : List Out) : (s.emits os).devOff = s.devOff := rfl
@[simp] theorem State.emits_free (s : State) (os : List Out) : (s.emits os).free = s.free := rfl
@[simp] theorem State.emits_out (s : State) (os : List Out) : (s.emits os).out = s.out ++ os := rfl
@[simp] theorem State.emits_fuses (s : State) (os : List Out) : (s.emits os).fuses = s.fuses := rfl
@[simp] theorem State.emits_flash (s : State) (os : List Out) : (s.emits os).flash = s.flash := rfl
@[simp] theorem State.emits_ledger (s : State) (os : List Out) : (s.emits os).ledger = s.ledger := rfl
@[simp] theorem State.emits_dev (s : State) (os : List Out) : (s.emits os).dev = s.dev := rfl
@[simp] theorem State.emits_err (s : State) (os : List Out) : (s.emits os).err = s.err := rfl
@[simp] theorem State.emits_host (s : State) (os : List Out) : (s.emits os).host = s.host := rfl
@[simp] theorem State.emits_job (s : State) (os : List Out) : (s.emits os).job = s.job := rfl
@[simp] theorem State.emits_saved (s : State) (os : List Out) : (s.emits os).saved = s.saved := rfl
@[simp] theorem State.emits_preempt (s : State) (os : List Out) : (s.emits os).preempt = s.preempt := rfl
@[simp] theorem State.emits_preempts (s : State) (os : List Out) : (s.emits os).preempts = s.preempts := rfl
@[simp] theorem State.emits_clusters (s : State) (os : List Out) : (s.emits os).clusters = s.clusters := rfl
@[simp] theorem State.emits_cores (s : State) (os : List Out) : (s.emits os).cores = s.cores := rfl
@[simp] theorem State.emits_units (s : State) (os : List Out) : (s.emits os).units = s.units := rfl
@[simp] theorem State.emits_hwm (s : State) (os : List Out) : (s.emits os).hwm = s.hwm := rfl
@[simp] theorem State.emits_mem (s : State) (os : List Out) : (s.emits os).mem = s.mem := rfl
@[simp] theorem State.emits_dram (s : State) (os : List Out) : (s.emits os).dram = s.dram := rfl
@[simp] theorem State.emits_settle (s : State) (os : List Out) : (s.emits os).settle = s.settle := rfl
@[simp] theorem State.emits_dec (s : State) (os : List Out) : (s.emits os).dec = s.dec := rfl
@[simp] theorem State.emits_col (s : State) (os : List Out) : (s.emits os).col = s.col := rfl
@[simp] theorem State.emits_ports (s : State) (os : List Out) : (s.emits os).ports = s.ports := rfl
@[simp] theorem State.emits_time (s : State) (os : List Out) : (s.emits os).time = s.time := rfl
@[simp] theorem State.emits_rtr (s : State) (os : List Out) : (s.emits os).rtr = s.rtr := rfl
@[simp] theorem State.emits_pwr (s : State) (os : List Out) : (s.emits os).pwr = s.pwr := rfl
@[simp] theorem State.emits_rails (s : State) (os : List Out) : (s.emits os).rails = s.rails := rfl
@[simp] theorem State.emits_mgmt (s : State) (os : List Out) : (s.emits os).mgmt = s.mgmt := rfl
@[simp] theorem State.emits_tel (s : State) (os : List Out) : (s.emits os).tel = s.tel := rfl
@[simp] theorem State.emits_sec (s : State) (os : List Out) : (s.emits os).sec = s.sec := rfl
@[simp] theorem State.emits_latches (s : State) (os : List Out) : (s.emits os).latches = s.latches := rfl

/-! ### span -/

@[simp] theorem State.span_pending (s : State) (key n : Nat) : (s.span key n).pending = s.pending := rfl
@[simp] theorem State.span_aoNs (s : State) (key n : Nat) : (s.span key n).aoNs = s.aoNs := rfl
@[simp] theorem State.span_devOff (s : State) (key n : Nat) : (s.span key n).devOff = s.devOff := rfl
@[simp] theorem State.span_free (s : State) (key n : Nat) : (s.span key n).free = s.free := rfl
@[simp] theorem State.span_out (s : State) (key n : Nat) : (s.span key n).out = s.out := rfl
@[simp] theorem State.span_fuses (s : State) (key n : Nat) : (s.span key n).fuses = s.fuses := rfl
@[simp] theorem State.span_flash (s : State) (key n : Nat) : (s.span key n).flash = s.flash := rfl
@[simp] theorem State.span_ledger (s : State) (key n : Nat) : (s.span key n).ledger = s.ledger := rfl
@[simp] theorem State.span_dev (s : State) (key n : Nat) : (s.span key n).dev = s.dev := rfl
@[simp] theorem State.span_err (s : State) (key n : Nat) : (s.span key n).err = s.err := rfl
@[simp] theorem State.span_host (s : State) (key n : Nat) : (s.span key n).host = s.host := rfl
@[simp] theorem State.span_job (s : State) (key n : Nat) : (s.span key n).job = s.job := rfl
@[simp] theorem State.span_saved (s : State) (key n : Nat) : (s.span key n).saved = s.saved := rfl
@[simp] theorem State.span_preempt (s : State) (key n : Nat) : (s.span key n).preempt = s.preempt := rfl
@[simp] theorem State.span_preempts (s : State) (key n : Nat) : (s.span key n).preempts = s.preempts := rfl
@[simp] theorem State.span_clusters (s : State) (key n : Nat) : (s.span key n).clusters = s.clusters := rfl
@[simp] theorem State.span_cores (s : State) (key n : Nat) : (s.span key n).cores = s.cores := rfl
@[simp] theorem State.span_units (s : State) (key n : Nat) : (s.span key n).units = s.units := rfl
@[simp] theorem State.span_hwm (s : State) (key n : Nat) : (s.span key n).hwm = s.hwm := rfl
@[simp] theorem State.span_mem (s : State) (key n : Nat) : (s.span key n).mem = s.mem := rfl
@[simp] theorem State.span_dram (s : State) (key n : Nat) : (s.span key n).dram = s.dram := rfl
@[simp] theorem State.span_settle (s : State) (key n : Nat) : (s.span key n).settle = s.settle := rfl
@[simp] theorem State.span_dec (s : State) (key n : Nat) : (s.span key n).dec = s.dec := rfl
@[simp] theorem State.span_col (s : State) (key n : Nat) : (s.span key n).col = s.col := rfl
@[simp] theorem State.span_ports (s : State) (key n : Nat) : (s.span key n).ports = s.ports := rfl
@[simp] theorem State.span_time (s : State) (key n : Nat) : (s.span key n).time = s.time := rfl
@[simp] theorem State.span_rtr (s : State) (key n : Nat) : (s.span key n).rtr = s.rtr := rfl
@[simp] theorem State.span_pwr (s : State) (key n : Nat) : (s.span key n).pwr = s.pwr := rfl
@[simp] theorem State.span_rails (s : State) (key n : Nat) : (s.span key n).rails = s.rails := rfl
@[simp] theorem State.span_mgmt (s : State) (key n : Nat) : (s.span key n).mgmt = s.mgmt := rfl
@[simp] theorem State.span_tel (s : State) (key n : Nat) : (s.span key n).tel = { s.tel with span := tmod s.tel.span 0 key (· + n) } := rfl
@[simp] theorem State.span_sec (s : State) (key n : Nat) : (s.span key n).sec = s.sec := rfl
@[simp] theorem State.span_latches (s : State) (key n : Nat) : (s.span key n).latches = s.latches := rfl

/-! ### day -/

@[simp] theorem State.day_pending (s : State) (key n : Nat) : (s.day key n).pending = s.pending := rfl
@[simp] theorem State.day_aoNs (s : State) (key n : Nat) : (s.day key n).aoNs = s.aoNs := rfl
@[simp] theorem State.day_devOff (s : State) (key n : Nat) : (s.day key n).devOff = s.devOff := rfl
@[simp] theorem State.day_free (s : State) (key n : Nat) : (s.day key n).free = s.free := rfl
@[simp] theorem State.day_out (s : State) (key n : Nat) : (s.day key n).out = s.out := rfl
@[simp] theorem State.day_fuses (s : State) (key n : Nat) : (s.day key n).fuses = s.fuses := rfl
@[simp] theorem State.day_flash (s : State) (key n : Nat) : (s.day key n).flash = s.flash := rfl
@[simp] theorem State.day_ledger (s : State) (key n : Nat) : (s.day key n).ledger = s.ledger := rfl
@[simp] theorem State.day_dev (s : State) (key n : Nat) : (s.day key n).dev = s.dev := rfl
@[simp] theorem State.day_err (s : State) (key n : Nat) : (s.day key n).err = s.err := rfl
@[simp] theorem State.day_host (s : State) (key n : Nat) : (s.day key n).host = s.host := rfl
@[simp] theorem State.day_job (s : State) (key n : Nat) : (s.day key n).job = s.job := rfl
@[simp] theorem State.day_saved (s : State) (key n : Nat) : (s.day key n).saved = s.saved := rfl
@[simp] theorem State.day_preempt (s : State) (key n : Nat) : (s.day key n).preempt = s.preempt := rfl
@[simp] theorem State.day_preempts (s : State) (key n : Nat) : (s.day key n).preempts = s.preempts := rfl
@[simp] theorem State.day_clusters (s : State) (key n : Nat) : (s.day key n).clusters = s.clusters := rfl
@[simp] theorem State.day_cores (s : State) (key n : Nat) : (s.day key n).cores = s.cores := rfl
@[simp] theorem State.day_units (s : State) (key n : Nat) : (s.day key n).units = s.units := rfl
@[simp] theorem State.day_hwm (s : State) (key n : Nat) : (s.day key n).hwm = s.hwm := rfl
@[simp] theorem State.day_mem (s : State) (key n : Nat) : (s.day key n).mem = s.mem := rfl
@[simp] theorem State.day_dram (s : State) (key n : Nat) : (s.day key n).dram = s.dram := rfl
@[simp] theorem State.day_settle (s : State) (key n : Nat) : (s.day key n).settle = s.settle := rfl
@[simp] theorem State.day_dec (s : State) (key n : Nat) : (s.day key n).dec = s.dec := rfl
@[simp] theorem State.day_col (s : State) (key n : Nat) : (s.day key n).col = s.col := rfl
@[simp] theorem State.day_ports (s : State) (key n : Nat) : (s.day key n).ports = s.ports := rfl
@[simp] theorem State.day_time (s : State) (key n : Nat) : (s.day key n).time = s.time := rfl
@[simp] theorem State.day_rtr (s : State) (key n : Nat) : (s.day key n).rtr = s.rtr := rfl
@[simp] theorem State.day_pwr (s : State) (key n : Nat) : (s.day key n).pwr = s.pwr := rfl
@[simp] theorem State.day_rails (s : State) (key n : Nat) : (s.day key n).rails = s.rails := rfl
@[simp] theorem State.day_mgmt (s : State) (key n : Nat) : (s.day key n).mgmt = s.mgmt := rfl
@[simp] theorem State.day_tel (s : State) (key n : Nat) : (s.day key n).tel = { s.tel with day := tmod s.tel.day 0 key (· + n) } := rfl
@[simp] theorem State.day_sec (s : State) (key n : Nat) : (s.day key n).sec = s.sec := rfl
@[simp] theorem State.day_latches (s : State) (key n : Nat) : (s.day key n).latches = s.latches := rfl

/-! ### total -/

@[simp] theorem State.total_pending (s : State) (i n : Nat) : (s.total i n).pending = s.pending := rfl
@[simp] theorem State.total_aoNs (s : State) (i n : Nat) : (s.total i n).aoNs = s.aoNs := rfl
@[simp] theorem State.total_devOff (s : State) (i n : Nat) : (s.total i n).devOff = s.devOff := rfl
@[simp] theorem State.total_free (s : State) (i n : Nat) : (s.total i n).free = s.free := rfl
@[simp] theorem State.total_out (s : State) (i n : Nat) : (s.total i n).out = s.out := rfl
@[simp] theorem State.total_fuses (s : State) (i n : Nat) : (s.total i n).fuses = s.fuses := rfl
@[simp] theorem State.total_flash (s : State) (i n : Nat) : (s.total i n).flash = s.flash := rfl
@[simp] theorem State.total_ledger (s : State) (i n : Nat) : (s.total i n).ledger = s.ledger := rfl
@[simp] theorem State.total_dev (s : State) (i n : Nat) : (s.total i n).dev = s.dev := rfl
@[simp] theorem State.total_err (s : State) (i n : Nat) : (s.total i n).err = s.err := rfl
@[simp] theorem State.total_host (s : State) (i n : Nat) : (s.total i n).host = s.host := rfl
@[simp] theorem State.total_job (s : State) (i n : Nat) : (s.total i n).job = s.job := rfl
@[simp] theorem State.total_saved (s : State) (i n : Nat) : (s.total i n).saved = s.saved := rfl
@[simp] theorem State.total_preempt (s : State) (i n : Nat) : (s.total i n).preempt = s.preempt := rfl
@[simp] theorem State.total_preempts (s : State) (i n : Nat) : (s.total i n).preempts = s.preempts := rfl
@[simp] theorem State.total_clusters (s : State) (i n : Nat) : (s.total i n).clusters = s.clusters := rfl
@[simp] theorem State.total_cores (s : State) (i n : Nat) : (s.total i n).cores = s.cores := rfl
@[simp] theorem State.total_units (s : State) (i n : Nat) : (s.total i n).units = s.units := rfl
@[simp] theorem State.total_hwm (s : State) (i n : Nat) : (s.total i n).hwm = s.hwm := rfl
@[simp] theorem State.total_mem (s : State) (i n : Nat) : (s.total i n).mem = s.mem := rfl
@[simp] theorem State.total_dram (s : State) (i n : Nat) : (s.total i n).dram = s.dram := rfl
@[simp] theorem State.total_settle (s : State) (i n : Nat) : (s.total i n).settle = s.settle := rfl
@[simp] theorem State.total_dec (s : State) (i n : Nat) : (s.total i n).dec = s.dec := rfl
@[simp] theorem State.total_col (s : State) (i n : Nat) : (s.total i n).col = s.col := rfl
@[simp] theorem State.total_ports (s : State) (i n : Nat) : (s.total i n).ports = s.ports := rfl
@[simp] theorem State.total_time (s : State) (i n : Nat) : (s.total i n).time = s.time := rfl
@[simp] theorem State.total_rtr (s : State) (i n : Nat) : (s.total i n).rtr = s.rtr := rfl
@[simp] theorem State.total_pwr (s : State) (i n : Nat) : (s.total i n).pwr = s.pwr := rfl
@[simp] theorem State.total_rails (s : State) (i n : Nat) : (s.total i n).rails = s.rails := rfl
@[simp] theorem State.total_mgmt (s : State) (i n : Nat) : (s.total i n).mgmt = { s.mgmt with totals := tmod s.mgmt.totals 0 i (· + n) } := rfl
@[simp] theorem State.total_tel (s : State) (i n : Nat) : (s.total i n).tel = s.tel := rfl
@[simp] theorem State.total_sec (s : State) (i n : Nat) : (s.total i n).sec = s.sec := rfl
@[simp] theorem State.total_latches (s : State) (i n : Nat) : (s.total i n).latches = s.latches := rfl

/-! ### Reads of a table entry after an update of one -/

@[simp] theorem State.cluster_modCluster (s : State) (c : Nat) (f : Cluster → Cluster) (k : Nat) : (s.modCluster c f).cluster k = if k = c then f (s.cluster c) else s.cluster k := tget_tmod _ _ _ _ _
@[simp] theorem State.core_modCore (s : State) (c : Nat) (f : Core → Core) (k : Nat) : (s.modCore c f).core k = if k = c then f (s.core c) else s.core k := tget_tmod _ _ _ _ _
@[simp] theorem State.port_modPort (s : State) (c : Nat) (f : Port → Port) (k : Nat) : (s.modPort c f).port k = if k = c then f (s.port c) else s.port k := tget_tmod _ _ _ _ _
@[simp] theorem State.ring_modRing (s : State) (c : Nat) (f : Ring → Ring) (k : Nat) : (s.modRing c f).ring k = if k = c then f (s.ring c) else s.ring k := tget_tmod _ _ _ _ _
@[simp] theorem State.channel_modChannel (s : State) (c : Nat) (f : Channel → Channel) (k : Nat) : (s.modChannel c f).channel k = if k = c then f (s.channel c) else s.channel k := tget_tmod _ _ _ _ _
@[simp] theorem State.unit_modUnit (s : State) (c : Nat) (f : UnitWords → UnitWords) (k : Nat) : (s.modUnit c f).unit k = if k = c then f (s.unit c) else s.unit k := tget_tmod _ _ _ _ _
@[simp] theorem State.cluster_modSeq (s : State) (c : Nat) (f : Sequencer → Sequencer) (k : Nat) : (s.modSeq c f).cluster k = if k = c then { s.cluster c with seq := f (s.cluster c).seq } else s.cluster k := State.cluster_modCluster s c (fun x => { x with seq := f x.seq }) k
@[simp] theorem State.cluster_modClock (s : State) (c : Nat) (f : ClockSt → ClockSt) (k : Nat) : (s.modClock c f).cluster k = if k = c then { s.cluster c with clock := f (s.cluster c).clock } else s.cluster k := State.cluster_modCluster s c (fun x => { x with clock := f x.clock }) k
@[simp] theorem State.cluster_modPurse (s : State) (c : Nat) (f : Purse → Purse) (k : Nat) : (s.modPurse c f).cluster k = if k = c then { s.cluster c with purse := f (s.cluster c).purse } else s.cluster k := State.cluster_modCluster s c (fun x => { x with purse := f x.purse }) k
@[simp] theorem State.port_modLink (s : State) (c : Nat) (f : Link → Link) (k : Nat) : (s.modLink c f).port k = if k = c then { s.port c with link := f (s.port c).link } else s.port k := State.port_modPort s c (fun x => { x with link := f x.link }) k
@[simp] theorem State.port_modRep (s : State) (c : Nat) (f : Repair → Repair) (k : Nat) : (s.modRep c f).port k = if k = c then { s.port c with rep := f (s.port c).rep } else s.port k := State.port_modPort s c (fun x => { x with rep := f x.rep }) k
@[simp] theorem State.port_modDisc (s : State) (c : Nat) (f : Disc → Disc) (k : Nat) : (s.modDisc c f).port k = if k = c then { s.port c with disc := f (s.port c).disc } else s.port k := State.port_modPort s c (fun x => { x with disc := f x.disc }) k
@[simp] theorem State.core_modCluster (s : State) (c : Nat) (f : Cluster → Cluster) (k : Nat) : (s.modCluster c f).core k = s.core k := rfl
@[simp] theorem State.port_modCluster (s : State) (c : Nat) (f : Cluster → Cluster) (k : Nat) : (s.modCluster c f).port k = s.port k := rfl
@[simp] theorem State.ring_modCluster (s : State) (c : Nat) (f : Cluster → Cluster) (k : Nat) : (s.modCluster c f).ring k = s.ring k := rfl
@[simp] theorem State.channel_modCluster (s : State) (c : Nat) (f : Cluster → Cluster) (k : Nat) : (s.modCluster c f).channel k = s.channel k := rfl
@[simp] theorem State.unit_modCluster (s : State) (c : Nat) (f : Cluster → Cluster) (k : Nat) : (s.modCluster c f).unit k = s.unit k := rfl
@[simp] theorem State.core_modClusters (s : State) (f : Nat → Cluster → Cluster) (k : Nat) : (s.modClusters f).core k = s.core k := rfl
@[simp] theorem State.port_modClusters (s : State) (f : Nat → Cluster → Cluster) (k : Nat) : (s.modClusters f).port k = s.port k := rfl
@[simp] theorem State.ring_modClusters (s : State) (f : Nat → Cluster → Cluster) (k : Nat) : (s.modClusters f).ring k = s.ring k := rfl
@[simp] theorem State.channel_modClusters (s : State) (f : Nat → Cluster → Cluster) (k : Nat) : (s.modClusters f).channel k = s.channel k := rfl
@[simp] theorem State.unit_modClusters (s : State) (f : Nat → Cluster → Cluster) (k : Nat) : (s.modClusters f).unit k = s.unit k := rfl
@[simp] theorem State.core_modSeq (s : State) (c : Nat) (f : Sequencer → Sequencer) (k : Nat) : (s.modSeq c f).core k = s.core k := rfl
@[simp] theorem State.port_modSeq (s : State) (c : Nat) (f : Sequencer → Sequencer) (k : Nat) : (s.modSeq c f).port k = s.port k := rfl
@[simp] theorem State.ring_modSeq (s : State) (c : Nat) (f : Sequencer → Sequencer) (k : Nat) : (s.modSeq c f).ring k = s.ring k := rfl
@[simp] theorem State.channel_modSeq (s : State) (c : Nat) (f : Sequencer → Sequencer) (k : Nat) : (s.modSeq c f).channel k = s.channel k := rfl
@[simp] theorem State.unit_modSeq (s : State) (c : Nat) (f : Sequencer → Sequencer) (k : Nat) : (s.modSeq c f).unit k = s.unit k := rfl
@[simp] theorem State.core_modClock (s : State) (c : Nat) (f : ClockSt → ClockSt) (k : Nat) : (s.modClock c f).core k = s.core k := rfl
@[simp] theorem State.port_modClock (s : State) (c : Nat) (f : ClockSt → ClockSt) (k : Nat) : (s.modClock c f).port k = s.port k := rfl
@[simp] theorem State.ring_modClock (s : State) (c : Nat) (f : ClockSt → ClockSt) (k : Nat) : (s.modClock c f).ring k = s.ring k := rfl
@[simp] theorem State.channel_modClock (s : State) (c : Nat) (f : ClockSt → ClockSt) (k : Nat) : (s.modClock c f).channel k = s.channel k := rfl
@[simp] theorem State.unit_modClock (s : State) (c : Nat) (f : ClockSt → ClockSt) (k : Nat) : (s.modClock c f).unit k = s.unit k := rfl
@[simp] theorem State.core_modPurse (s : State) (c : Nat) (f : Purse → Purse) (k : Nat) : (s.modPurse c f).core k = s.core k := rfl
@[simp] theorem State.port_modPurse (s : State) (c : Nat) (f : Purse → Purse) (k : Nat) : (s.modPurse c f).port k = s.port k := rfl
@[simp] theorem State.ring_modPurse (s : State) (c : Nat) (f : Purse → Purse) (k : Nat) : (s.modPurse c f).ring k = s.ring k := rfl
@[simp] theorem State.channel_modPurse (s : State) (c : Nat) (f : Purse → Purse) (k : Nat) : (s.modPurse c f).channel k = s.channel k := rfl
@[simp] theorem State.unit_modPurse (s : State) (c : Nat) (f : Purse → Purse) (k : Nat) : (s.modPurse c f).unit k = s.unit k := rfl
@[simp] theorem State.cluster_modCore (s : State) (p : Nat) (f : Core → Core) (k : Nat) : (s.modCore p f).cluster k = s.cluster k := rfl
@[simp] theorem State.port_modCore (s : State) (p : Nat) (f : Core → Core) (k : Nat) : (s.modCore p f).port k = s.port k := rfl
@[simp] theorem State.ring_modCore (s : State) (p : Nat) (f : Core → Core) (k : Nat) : (s.modCore p f).ring k = s.ring k := rfl
@[simp] theorem State.channel_modCore (s : State) (p : Nat) (f : Core → Core) (k : Nat) : (s.modCore p f).channel k = s.channel k := rfl
@[simp] theorem State.unit_modCore (s : State) (p : Nat) (f : Core → Core) (k : Nat) : (s.modCore p f).unit k = s.unit k := rfl
@[simp] theorem State.cluster_modPort (s : State) (n : Nat) (f : Port → Port) (k : Nat) : (s.modPort n f).cluster k = s.cluster k := rfl
@[simp] theorem State.core_modPort (s : State) (n : Nat) (f : Port → Port) (k : Nat) : (s.modPort n f).core k = s.core k := rfl
@[simp] theorem State.ring_modPort (s : State) (n : Nat) (f : Port → Port) (k : Nat) : (s.modPort n f).ring k = s.ring k := rfl
@[simp] theorem State.channel_modPort (s : State) (n : Nat) (f : Port → Port) (k : Nat) : (s.modPort n f).channel k = s.channel k := rfl
@[simp] theorem State.unit_modPort (s : State) (n : Nat) (f : Port → Port) (k : Nat) : (s.modPort n f).unit k = s.unit k := rfl
@[simp] theorem State.cluster_modLink (s : State) (n : Nat) (f : Link → Link) (k : Nat) : (s.modLink n f).cluster k = s.cluster k := rfl
@[simp] theorem State.core_modLink (s : State) (n : Nat) (f : Link → Link) (k : Nat) : (s.modLink n f).core k = s.core k := rfl
@[simp] theorem State.ring_modLink (s : State) (n : Nat) (f : Link → Link) (k : Nat) : (s.modLink n f).ring k = s.ring k := rfl
@[simp] theorem State.channel_modLink (s : State) (n : Nat) (f : Link → Link) (k : Nat) : (s.modLink n f).channel k = s.channel k := rfl
@[simp] theorem State.unit_modLink (s : State) (n : Nat) (f : Link → Link) (k : Nat) : (s.modLink n f).unit k = s.unit k := rfl
@[simp] theorem State.cluster_modRep (s : State) (n : Nat) (f : Repair → Repair) (k : Nat) : (s.modRep n f).cluster k = s.cluster k := rfl
@[simp] theorem State.core_modRep (s : State) (n : Nat) (f : Repair → Repair) (k : Nat) : (s.modRep n f).core k = s.core k := rfl
@[simp] theorem State.ring_modRep (s : State) (n : Nat) (f : Repair → Repair) (k : Nat) : (s.modRep n f).ring k = s.ring k := rfl
@[simp] theorem State.channel_modRep (s : State) (n : Nat) (f : Repair → Repair) (k : Nat) : (s.modRep n f).channel k = s.channel k := rfl
@[simp] theorem State.unit_modRep (s : State) (n : Nat) (f : Repair → Repair) (k : Nat) : (s.modRep n f).unit k = s.unit k := rfl
@[simp] theorem State.cluster_modDisc (s : State) (n : Nat) (f : Disc → Disc) (k : Nat) : (s.modDisc n f).cluster k = s.cluster k := rfl
@[simp] theorem State.core_modDisc (s : State) (n : Nat) (f : Disc → Disc) (k : Nat) : (s.modDisc n f).core k = s.core k := rfl
@[simp] theorem State.ring_modDisc (s : State) (n : Nat) (f : Disc → Disc) (k : Nat) : (s.modDisc n f).ring k = s.ring k := rfl
@[simp] theorem State.channel_modDisc (s : State) (n : Nat) (f : Disc → Disc) (k : Nat) : (s.modDisc n f).channel k = s.channel k := rfl
@[simp] theorem State.unit_modDisc (s : State) (n : Nat) (f : Disc → Disc) (k : Nat) : (s.modDisc n f).unit k = s.unit k := rfl
@[simp] theorem State.cluster_modRing (s : State) (n : Nat) (f : Ring → Ring) (k : Nat) : (s.modRing n f).cluster k = s.cluster k := rfl
@[simp] theorem State.core_modRing (s : State) (n : Nat) (f : Ring → Ring) (k : Nat) : (s.modRing n f).core k = s.core k := rfl
@[simp] theorem State.port_modRing (s : State) (n : Nat) (f : Ring → Ring) (k : Nat) : (s.modRing n f).port k = s.port k := rfl
@[simp] theorem State.channel_modRing (s : State) (n : Nat) (f : Ring → Ring) (k : Nat) : (s.modRing n f).channel k = s.channel k := rfl
@[simp] theorem State.unit_modRing (s : State) (n : Nat) (f : Ring → Ring) (k : Nat) : (s.modRing n f).unit k = s.unit k := rfl
@[simp] theorem State.cluster_modHost (s : State) (f : HostIf → HostIf) (k : Nat) : (s.modHost f).cluster k = s.cluster k := rfl
@[simp] theorem State.core_modHost (s : State) (f : HostIf → HostIf) (k : Nat) : (s.modHost f).core k = s.core k := rfl
@[simp] theorem State.port_modHost (s : State) (f : HostIf → HostIf) (k : Nat) : (s.modHost f).port k = s.port k := rfl
@[simp] theorem State.channel_modHost (s : State) (f : HostIf → HostIf) (k : Nat) : (s.modHost f).channel k = s.channel k := rfl
@[simp] theorem State.unit_modHost (s : State) (f : HostIf → HostIf) (k : Nat) : (s.modHost f).unit k = s.unit k := rfl
@[simp] theorem State.cluster_modChannel (s : State) (n : Nat) (f : Channel → Channel) (k : Nat) : (s.modChannel n f).cluster k = s.cluster k := rfl
@[simp] theorem State.core_modChannel (s : State) (n : Nat) (f : Channel → Channel) (k : Nat) : (s.modChannel n f).core k = s.core k := rfl
@[simp] theorem State.port_modChannel (s : State) (n : Nat) (f : Channel → Channel) (k : Nat) : (s.modChannel n f).port k = s.port k := rfl
@[simp] theorem State.ring_modChannel (s : State) (n : Nat) (f : Channel → Channel) (k : Nat) : (s.modChannel n f).ring k = s.ring k := rfl
@[simp] theorem State.unit_modChannel (s : State) (n : Nat) (f : Channel → Channel) (k : Nat) : (s.modChannel n f).unit k = s.unit k := rfl
@[simp] theorem State.cluster_modUnit (s : State) (u : Nat) (f : UnitWords → UnitWords) (k : Nat) : (s.modUnit u f).cluster k = s.cluster k := rfl
@[simp] theorem State.core_modUnit (s : State) (u : Nat) (f : UnitWords → UnitWords) (k : Nat) : (s.modUnit u f).core k = s.core k := rfl
@[simp] theorem State.port_modUnit (s : State) (u : Nat) (f : UnitWords → UnitWords) (k : Nat) : (s.modUnit u f).port k = s.port k := rfl
@[simp] theorem State.ring_modUnit (s : State) (u : Nat) (f : UnitWords → UnitWords) (k : Nat) : (s.modUnit u f).ring k = s.ring k := rfl
@[simp] theorem State.channel_modUnit (s : State) (u : Nat) (f : UnitWords → UnitWords) (k : Nat) : (s.modUnit u f).channel k = s.channel k := rfl
@[simp] theorem State.cluster_modErr (s : State) (f : Errors → Errors) (k : Nat) : (s.modErr f).cluster k = s.cluster k := rfl
@[simp] theorem State.core_modErr (s : State) (f : Errors → Errors) (k : Nat) : (s.modErr f).core k = s.core k := rfl
@[simp] theorem State.port_modErr (s : State) (f : Errors → Errors) (k : Nat) : (s.modErr f).port k = s.port k := rfl
@[simp] theorem State.ring_modErr (s : State) (f : Errors → Errors) (k : Nat) : (s.modErr f).ring k = s.ring k := rfl
@[simp] theorem State.channel_modErr (s : State) (f : Errors → Errors) (k : Nat) : (s.modErr f).channel k = s.channel k := rfl
@[simp] theorem State.unit_modErr (s : State) (f : Errors → Errors) (k : Nat) : (s.modErr f).unit k = s.unit k := rfl
@[simp] theorem State.cluster_modSet (s : State) (f : Settle → Settle) (k : Nat) : (s.modSet f).cluster k = s.cluster k := rfl
@[simp] theorem State.core_modSet (s : State) (f : Settle → Settle) (k : Nat) : (s.modSet f).core k = s.core k := rfl
@[simp] theorem State.port_modSet (s : State) (f : Settle → Settle) (k : Nat) : (s.modSet f).port k = s.port k := rfl
@[simp] theorem State.ring_modSet (s : State) (f : Settle → Settle) (k : Nat) : (s.modSet f).ring k = s.ring k := rfl
@[simp] theorem State.channel_modSet (s : State) (f : Settle → Settle) (k : Nat) : (s.modSet f).channel k = s.channel k := rfl
@[simp] theorem State.unit_modSet (s : State) (f : Settle → Settle) (k : Nat) : (s.modSet f).unit k = s.unit k := rfl
@[simp] theorem State.cluster_modDec (s : State) (f : Decision → Decision) (k : Nat) : (s.modDec f).cluster k = s.cluster k := rfl
@[simp] theorem State.core_modDec (s : State) (f : Decision → Decision) (k : Nat) : (s.modDec f).core k = s.core k := rfl
@[simp] theorem State.port_modDec (s : State) (f : Decision → Decision) (k : Nat) : (s.modDec f).port k = s.port k := rfl
@[simp] theorem State.ring_modDec (s : State) (f : Decision → Decision) (k : Nat) : (s.modDec f).ring k = s.ring k := rfl
@[simp] theorem State.channel_modDec (s : State) (f : Decision → Decision) (k : Nat) : (s.modDec f).channel k = s.channel k := rfl
@[simp] theorem State.unit_modDec (s : State) (f : Decision → Decision) (k : Nat) : (s.modDec f).unit k = s.unit k := rfl
@[simp] theorem State.cluster_modCol (s : State) (f : Collect → Collect) (k : Nat) : (s.modCol f).cluster k = s.cluster k := rfl
@[simp] theorem State.core_modCol (s : State) (f : Collect → Collect) (k : Nat) : (s.modCol f).core k = s.core k := rfl
@[simp] theorem State.port_modCol (s : State) (f : Collect → Collect) (k : Nat) : (s.modCol f).port k = s.port k := rfl
@[simp] theorem State.ring_modCol (s : State) (f : Collect → Collect) (k : Nat) : (s.modCol f).ring k = s.ring k := rfl
@[simp] theorem State.channel_modCol (s : State) (f : Collect → Collect) (k : Nat) : (s.modCol f).channel k = s.channel k := rfl
@[simp] theorem State.unit_modCol (s : State) (f : Collect → Collect) (k : Nat) : (s.modCol f).unit k = s.unit k := rfl
@[simp] theorem State.cluster_modRtr (s : State) (f : Router → Router) (k : Nat) : (s.modRtr f).cluster k = s.cluster k := rfl
@[simp] theorem State.core_modRtr (s : State) (f : Router → Router) (k : Nat) : (s.modRtr f).core k = s.core k := rfl
@[simp] theorem State.port_modRtr (s : State) (f : Router → Router) (k : Nat) : (s.modRtr f).port k = s.port k := rfl
@[simp] theorem State.ring_modRtr (s : State) (f : Router → Router) (k : Nat) : (s.modRtr f).ring k = s.ring k := rfl
@[simp] theorem State.channel_modRtr (s : State) (f : Router → Router) (k : Nat) : (s.modRtr f).channel k = s.channel k := rfl
@[simp] theorem State.unit_modRtr (s : State) (f : Router → Router) (k : Nat) : (s.modRtr f).unit k = s.unit k := rfl
@[simp] theorem State.cluster_modSlice (s : State) (f : Slice → Slice) (k : Nat) : (s.modSlice f).cluster k = s.cluster k := rfl
@[simp] theorem State.core_modSlice (s : State) (f : Slice → Slice) (k : Nat) : (s.modSlice f).core k = s.core k := rfl
@[simp] theorem State.port_modSlice (s : State) (f : Slice → Slice) (k : Nat) : (s.modSlice f).port k = s.port k := rfl
@[simp] theorem State.ring_modSlice (s : State) (f : Slice → Slice) (k : Nat) : (s.modSlice f).ring k = s.ring k := rfl
@[simp] theorem State.channel_modSlice (s : State) (f : Slice → Slice) (k : Nat) : (s.modSlice f).channel k = s.channel k := rfl
@[simp] theorem State.unit_modSlice (s : State) (f : Slice → Slice) (k : Nat) : (s.modSlice f).unit k = s.unit k := rfl
@[simp] theorem State.cluster_modTime (s : State) (f : TimeBase → TimeBase) (k : Nat) : (s.modTime f).cluster k = s.cluster k := rfl
@[simp] theorem State.core_modTime (s : State) (f : TimeBase → TimeBase) (k : Nat) : (s.modTime f).core k = s.core k := rfl
@[simp] theorem State.port_modTime (s : State) (f : TimeBase → TimeBase) (k : Nat) : (s.modTime f).port k = s.port k := rfl
@[simp] theorem State.ring_modTime (s : State) (f : TimeBase → TimeBase) (k : Nat) : (s.modTime f).ring k = s.ring k := rfl
@[simp] theorem State.channel_modTime (s : State) (f : TimeBase → TimeBase) (k : Nat) : (s.modTime f).channel k = s.channel k := rfl
@[simp] theorem State.unit_modTime (s : State) (f : TimeBase → TimeBase) (k : Nat) : (s.modTime f).unit k = s.unit k := rfl
@[simp] theorem State.cluster_modPwr (s : State) (f : Power → Power) (k : Nat) : (s.modPwr f).cluster k = s.cluster k := rfl
@[simp] theorem State.core_modPwr (s : State) (f : Power → Power) (k : Nat) : (s.modPwr f).core k = s.core k := rfl
@[simp] theorem State.port_modPwr (s : State) (f : Power → Power) (k : Nat) : (s.modPwr f).port k = s.port k := rfl
@[simp] theorem State.ring_modPwr (s : State) (f : Power → Power) (k : Nat) : (s.modPwr f).ring k = s.ring k := rfl
@[simp] theorem State.channel_modPwr (s : State) (f : Power → Power) (k : Nat) : (s.modPwr f).channel k = s.channel k := rfl
@[simp] theorem State.unit_modPwr (s : State) (f : Power → Power) (k : Nat) : (s.modPwr f).unit k = s.unit k := rfl
@[simp] theorem State.cluster_modMgmt (s : State) (f : Mgmt → Mgmt) (k : Nat) : (s.modMgmt f).cluster k = s.cluster k := rfl
@[simp] theorem State.core_modMgmt (s : State) (f : Mgmt → Mgmt) (k : Nat) : (s.modMgmt f).core k = s.core k := rfl
@[simp] theorem State.port_modMgmt (s : State) (f : Mgmt → Mgmt) (k : Nat) : (s.modMgmt f).port k = s.port k := rfl
@[simp] theorem State.ring_modMgmt (s : State) (f : Mgmt → Mgmt) (k : Nat) : (s.modMgmt f).ring k = s.ring k := rfl
@[simp] theorem State.channel_modMgmt (s : State) (f : Mgmt → Mgmt) (k : Nat) : (s.modMgmt f).channel k = s.channel k := rfl
@[simp] theorem State.unit_modMgmt (s : State) (f : Mgmt → Mgmt) (k : Nat) : (s.modMgmt f).unit k = s.unit k := rfl
@[simp] theorem State.cluster_modSec (s : State) (f : Security → Security) (k : Nat) : (s.modSec f).cluster k = s.cluster k := rfl
@[simp] theorem State.core_modSec (s : State) (f : Security → Security) (k : Nat) : (s.modSec f).core k = s.core k := rfl
@[simp] theorem State.port_modSec (s : State) (f : Security → Security) (k : Nat) : (s.modSec f).port k = s.port k := rfl
@[simp] theorem State.ring_modSec (s : State) (f : Security → Security) (k : Nat) : (s.modSec f).ring k = s.ring k := rfl
@[simp] theorem State.channel_modSec (s : State) (f : Security → Security) (k : Nat) : (s.modSec f).channel k = s.channel k := rfl
@[simp] theorem State.unit_modSec (s : State) (f : Security → Security) (k : Nat) : (s.modSec f).unit k = s.unit k := rfl
@[simp] theorem State.cluster_modDev (s : State) (f : Device → Device) (k : Nat) : (s.modDev f).cluster k = s.cluster k := rfl
@[simp] theorem State.core_modDev (s : State) (f : Device → Device) (k : Nat) : (s.modDev f).core k = s.core k := rfl
@[simp] theorem State.port_modDev (s : State) (f : Device → Device) (k : Nat) : (s.modDev f).port k = s.port k := rfl
@[simp] theorem State.ring_modDev (s : State) (f : Device → Device) (k : Nat) : (s.modDev f).ring k = s.ring k := rfl
@[simp] theorem State.channel_modDev (s : State) (f : Device → Device) (k : Nat) : (s.modDev f).channel k = s.channel k := rfl
@[simp] theorem State.unit_modDev (s : State) (f : Device → Device) (k : Nat) : (s.modDev f).unit k = s.unit k := rfl
@[simp] theorem State.cluster_emit (s : State) (o : Out) (k : Nat) : (s.emit o).cluster k = s.cluster k := rfl
@[simp] theorem State.core_emit (s : State) (o : Out) (k : Nat) : (s.emit o).core k = s.core k := rfl
@[simp] theorem State.port_emit (s : State) (o : Out) (k : Nat) : (s.emit o).port k = s.port k := rfl
@[simp] theorem State.ring_emit (s : State) (o : Out) (k : Nat) : (s.emit o).ring k = s.ring k := rfl
@[simp] theorem State.channel_emit (s : State) (o : Out) (k : Nat) : (s.emit o).channel k = s.channel k := rfl
@[simp] theorem State.unit_emit (s : State) (o : Out) (k : Nat) : (s.emit o).unit k = s.unit k := rfl
@[simp] theorem State.cluster_emits (s : State) (os : List Out) (k : Nat) : (s.emits os).cluster k = s.cluster k := rfl
@[simp] theorem State.core_emits (s : State) (os : List Out) (k : Nat) : (s.emits os).core k = s.core k := rfl
@[simp] theorem State.port_emits (s : State) (os : List Out) (k : Nat) : (s.emits os).port k = s.port k := rfl
@[simp] theorem State.ring_emits (s : State) (os : List Out) (k : Nat) : (s.emits os).ring k = s.ring k := rfl
@[simp] theorem State.channel_emits (s : State) (os : List Out) (k : Nat) : (s.emits os).channel k = s.channel k := rfl
@[simp] theorem State.unit_emits (s : State) (os : List Out) (k : Nat) : (s.emits os).unit k = s.unit k := rfl
@[simp] theorem State.cluster_span (s : State) (key n : Nat) (k : Nat) : (s.span key n).cluster k = s.cluster k := rfl
@[simp] theorem State.core_span (s : State) (key n : Nat) (k : Nat) : (s.span key n).core k = s.core k := rfl
@[simp] theorem State.port_span (s : State) (key n : Nat) (k : Nat) : (s.span key n).port k = s.port k := rfl
@[simp] theorem State.ring_span (s : State) (key n : Nat) (k : Nat) : (s.span key n).ring k = s.ring k := rfl
@[simp] theorem State.channel_span (s : State) (key n : Nat) (k : Nat) : (s.span key n).channel k = s.channel k := rfl
@[simp] theorem State.unit_span (s : State) (key n : Nat) (k : Nat) : (s.span key n).unit k = s.unit k := rfl
@[simp] theorem State.cluster_day (s : State) (key n : Nat) (k : Nat) : (s.day key n).cluster k = s.cluster k := rfl
@[simp] theorem State.core_day (s : State) (key n : Nat) (k : Nat) : (s.day key n).core k = s.core k := rfl
@[simp] theorem State.port_day (s : State) (key n : Nat) (k : Nat) : (s.day key n).port k = s.port k := rfl
@[simp] theorem State.ring_day (s : State) (key n : Nat) (k : Nat) : (s.day key n).ring k = s.ring k := rfl
@[simp] theorem State.channel_day (s : State) (key n : Nat) (k : Nat) : (s.day key n).channel k = s.channel k := rfl
@[simp] theorem State.unit_day (s : State) (key n : Nat) (k : Nat) : (s.day key n).unit k = s.unit k := rfl
@[simp] theorem State.cluster_total (s : State) (i n : Nat) (k : Nat) : (s.total i n).cluster k = s.cluster k := rfl
@[simp] theorem State.core_total (s : State) (i n : Nat) (k : Nat) : (s.total i n).core k = s.core k := rfl
@[simp] theorem State.port_total (s : State) (i n : Nat) (k : Nat) : (s.total i n).port k = s.port k := rfl
@[simp] theorem State.ring_total (s : State) (i n : Nat) (k : Nat) : (s.total i n).ring k = s.ring k := rfl
@[simp] theorem State.channel_total (s : State) (i n : Nat) (k : Nat) : (s.total i n).channel k = s.channel k := rfl
@[simp] theorem State.unit_total (s : State) (i n : Nat) (k : Nat) : (s.total i n).unit k = s.unit k := rfl

theorem State.cluster_modClusters (s : State) (f : Nat → Cluster → Cluster) (k : Nat) (h : k < 8) :
    (s.modClusters f).cluster k = f k (s.cluster k) := by
  show tget (tmods s.clusters {} (List.range 8) f) {} k = _
  rw [tget_tmods _ _ _ _ _ List.nodup_range, if_pos (by simpa using h)]; rfl

end Sys2Proof.Machine
end

