-- ==== Sys2Proof/Laws/Only.lean ====
section
/-!
SUPPORT. Which parts of the state an operation may change. `Only m s t` says that t agrees with s in every field whose bit is not in
the mask m (bit i is the i-th field of State). Every operation on the state has one lemma, with the operation's name followed by
`_only`: if the mask m holds the operation's own mask, then what has changed only m before it has changed only m after it.
-/
set_option autoImplicit false
namespace Sys2Proof.Machine

/-- Two values agree unless bit i is in the mask. -/
def Agree {α : Type} (m i : Nat) (a b : α) : Prop := m.testBit i = false → b = a

structure Only (m : Nat) (s t : State) : Prop where
  pending : Agree m 0 s.pending t.pending
  aoNs : Agree m 1 s.aoNs t.aoNs
  devOff : Agree m 2 s.devOff t.devOff
  free : Agree m 3 s.free t.free
  out : Agree m 4 s.out t.out
  fuses : Agree m 5 s.fuses t.fuses
  flash : Agree m 6 s.flash t.flash
  ledger : Agree m 7 s.ledger t.ledger
  dev : Agree m 8 s.dev t.dev
  err : Agree m 9 s.err t.err
  host : Agree m 10 s.host t.host
  job : Agree m 11 s.job t.job
  saved : Agree m 12 s.saved t.saved
  preempt : Agree m 13 s.preempt t.preempt
  preempts : Agree m 14 s.preempts t.preempts
  clusters : Agree m 15 s.clusters t.clusters
  cores : Agree m 16 s.cores t.cores
  units : Agree m 17 s.units t.units
  hwm : Agree m 18 s.hwm t.hwm
  mem : Agree m 19 s.mem t.mem
  dram : Agree m 20 s.dram t.dram
  settle : Agree m 21 s.settle t.settle
  dec : Agree m 22 s.dec t.dec
  col : Agree m 23 s.col t.col
  ports : Agree m 24 s.ports t.ports
  time : Agree m 25 s.time t.time
  rtr : Agree m 26 s.rtr t.rtr
  pwr : Agree m 27 s.pwr t.pwr
  rails : Agree m 28 s.rails t.rails
  mgmt : Agree m 29 s.mgmt t.mgmt
  tel : Agree m 30 s.tel t.tel
  sec : Agree m 31 s.sec t.sec
  latches : Agree m 32 s.latches t.latches

theorem Agree.refl {α : Type} (m i : Nat) (a : α) : Agree m i a a := fun _ => rfl
theorem Agree.trans {α : Type} {m i : Nat} {a b c : α} (h : Agree m i a b) (k : Agree m i b c) : Agree m i a c := fun e => (k e).trans (h e)
theorem Agree.set {α : Type} {m i : Nat} (h : m.testBit i = true) (a b : α) : Agree m i a b := fun e => absurd (h.symm.trans e) (by decide)

namespace Only
variable {m : Nat} {s t : State}

theorem refl (m : Nat) (s : State) : Only m s s :=
  ⟨Agree.refl _ _ _, Agree.refl _ _ _, Agree.refl _ _ _, Agree.refl _ _ _, Agree.refl _ _ _, Agree.refl _ _ _, Agree.refl _ _ _, Agree.refl _ _ _, Agree.refl _ _ _, Agree.refl _ _ _, Agree.refl _ _ _, Agree.refl _ _ _, Agree.refl _ _ _, Agree.refl _ _ _, Agree.refl _ _ _, Agree.refl _ _ _, Agree.refl _ _ _, Agree.refl _ _ _, Agree.refl _ _ _, Agree.refl _ _ _, Agree.refl _ _ _, Agree.refl _ _ _, Agree.refl _ _ _, Agree.refl _ _ _, Agree.refl _ _ _, Agree.refl _ _ _, Agree.refl _ _ _, Agree.refl _ _ _, Agree.refl _ _ _, Agree.refl _ _ _, Agree.refl _ _ _, Agree.refl _ _ _, Agree.refl _ _ _⟩

theorem trans {u : State} (h : Only m s t) (k : Only m t u) : Only m s u :=
  ⟨h.pending.trans k.pending, h.aoNs.trans k.aoNs, h.devOff.trans k.devOff, h.free.trans k.free, h.out.trans k.out, h.fuses.trans k.fuses, h.flash.trans k.flash, h.ledger.trans k.ledger, h.dev.trans k.dev, h.err.trans k.err, h.host.trans k.host, h.job.trans k.job, h.saved.trans k.saved, h.preempt.trans k.preempt, h.preempts.trans k.preempts, h.clusters.trans k.clusters, h.cores.trans k.cores, h.units.trans k.units, h.hwm.trans k.hwm, h.mem.trans k.mem, h.dram.trans k.dram, h.settle.trans k.settle, h.dec.trans k.dec, h.col.trans k.col, h.ports.trans k.ports, h.time.trans k.time, h.rtr.trans k.rtr, h.pwr.trans k.pwr, h.rails.trans k.rails, h.mgmt.trans k.mgmt, h.tel.trans k.tel, h.sec.trans k.sec, h.latches.trans k.latches⟩

/-- A mask within a mask within a mask. -/
theorem sub {a b c : Nat} (h : a &&& b = a) (k : b &&& c = b) : a &&& c = a := by
  calc a &&& c = (a &&& b) &&& c := by rw [h]
    _ = a &&& (b &&& c) := Nat.and_assoc a b c
    _ = a := by rw [k, h]

theorem bit {a i : Nat} (h : a &&& m = a) (k : a.testBit i = true) : m.testBit i = true := by
  rw [← h, Nat.testBit_and] at k; simp only [Bool.and_eq_true] at k; exact k.2

/-- The fields outside a wider mask are unchanged too. -/
theorem weaken {a : Nat} (h : a &&& m = a) (k : Only a s t) : Only m s t := by
  have g : ∀ i, m.testBit i = false → a.testBit i = false := fun i e => by
    cases ha : a.testBit i
    · rfl
    · exact absurd ((bit h ha).symm.trans e) (by decide)
  exact ⟨fun e => k.pending (g 0 e), fun e => k.aoNs (g 1 e), fun e => k.devOff (g 2 e), fun e => k.free (g 3 e), fun e => k.out (g 4 e), fun e => k.fuses (g 5 e), fun e => k.flash (g 6 e), fun e => k.ledger (g 7 e), fun e => k.dev (g 8 e), fun e => k.err (g 9 e), fun e => k.host (g 10 e), fun e => k.job (g 11 e), fun e => k.saved (g 12 e), fun e => k.preempt (g 13 e), fun e => k.preempts (g 14 e), fun e => k.clusters (g 15 e), fun e => k.cores (g 16 e), fun e => k.units (g 17 e), fun e => k.hwm (g 18 e), fun e => k.mem (g 19 e), fun e => k.dram (g 20 e), fun e => k.settle (g 21 e), fun e => k.dec (g 22 e), fun e => k.col (g 23 e), fun e => k.ports (g 24 e), fun e => k.time (g 25 e), fun e => k.rtr (g 26 e), fun e => k.pwr (g 27 e), fun e => k.rails (g 28 e), fun e => k.mgmt (g 29 e), fun e => k.tel (g 30 e), fun e => k.sec (g 31 e), fun e => k.latches (g 32 e)⟩

theorem set_pending (pending : List Sys2Proof.Instr) (hm : 1 &&& m = 1) (h : Only m s t) : Only m s { t with pending := pending } :=
  ⟨Agree.set (bit hm (by decide)) _ _, h.aoNs, h.devOff, h.free, h.out, h.fuses, h.flash, h.ledger, h.dev, h.err, h.host, h.job, h.saved, h.preempt, h.preempts, h.clusters, h.cores, h.units, h.hwm, h.mem, h.dram, h.settle, h.dec, h.col, h.ports, h.time, h.rtr, h.pwr, h.rails, h.mgmt, h.tel, h.sec, h.latches⟩
theorem set_aoNs (aoNs : Nat) (hm : 2 &&& m = 2) (h : Only m s t) : Only m s { t with aoNs := aoNs } :=
  ⟨h.pending, Agree.set (bit hm (by decide)) _ _, h.devOff, h.free, h.out, h.fuses, h.flash, h.ledger, h.dev, h.err, h.host, h.job, h.saved, h.preempt, h.preempts, h.clusters, h.cores, h.units, h.hwm, h.mem, h.dram, h.settle, h.dec, h.col, h.ports, h.time, h.rtr, h.pwr, h.rails, h.mgmt, h.tel, h.sec, h.latches⟩
theorem set_devOff (devOff : Int) (hm : 4 &&& m = 4) (h : Only m s t) : Only m s { t with devOff := devOff } :=
  ⟨h.pending, h.aoNs, Agree.set (bit hm (by decide)) _ _, h.free, h.out, h.fuses, h.flash, h.ledger, h.dev, h.err, h.host, h.job, h.saved, h.preempt, h.preempts, h.clusters, h.cores, h.units, h.hwm, h.mem, h.dram, h.settle, h.dec, h.col, h.ports, h.time, h.rtr, h.pwr, h.rails, h.mgmt, h.tel, h.sec, h.latches⟩
theorem set_free (free : Nat) (hm : 8 &&& m = 8) (h : Only m s t) : Only m s { t with free := free } :=
  ⟨h.pending, h.aoNs, h.devOff, Agree.set (bit hm (by decide)) _ _, h.out, h.fuses, h.flash, h.ledger, h.dev, h.err, h.host, h.job, h.saved, h.preempt, h.preempts, h.clusters, h.cores, h.units, h.hwm, h.mem, h.dram, h.settle, h.dec, h.col, h.ports, h.time, h.rtr, h.pwr, h.rails, h.mgmt, h.tel, h.sec, h.latches⟩
theorem set_out (out : List Out) (hm : 16 &&& m = 16) (h : Only m s t) : Only m s { t with out := out } :=
  ⟨h.pending, h.aoNs, h.devOff, h.free, Agree.set (bit hm (by decide)) _ _, h.fuses, h.flash, h.ledger, h.dev, h.err, h.host, h.job, h.saved, h.preempt, h.preempts, h.clusters, h.cores, h.units, h.hwm, h.mem, h.dram, h.settle, h.dec, h.col, h.ports, h.time, h.rtr, h.pwr, h.rails, h.mgmt, h.tel, h.sec, h.latches⟩
theorem set_fuses (fuses : Fuses) (hm : 32 &&& m = 32) (h : Only m s t) : Only m s { t with fuses := fuses } :=
  ⟨h.pending, h.aoNs, h.devOff, h.free, h.out, Agree.set (bit hm (by decide)) _ _, h.flash, h.ledger, h.dev, h.err, h.host, h.job, h.saved, h.preempt, h.preempts, h.clusters, h.cores, h.units, h.hwm, h.mem, h.dram, h.settle, h.dec, h.col, h.ports, h.time, h.rtr, h.pwr, h.rails, h.mgmt, h.tel, h.sec, h.latches⟩
theorem set_flash (flash : Tab FwClass) (hm : 64 &&& m = 64) (h : Only m s t) : Only m s { t with flash := flash } :=
  ⟨h.pending, h.aoNs, h.devOff, h.free, h.out, h.fuses, Agree.set (bit hm (by decide)) _ _, h.ledger, h.dev, h.err, h.host, h.job, h.saved, h.preempt, h.preempts, h.clusters, h.cores, h.units, h.hwm, h.mem, h.dram, h.settle, h.dec, h.col, h.ports, h.time, h.rtr, h.pwr, h.rails, h.mgmt, h.tel, h.sec, h.latches⟩
theorem set_ledger (ledger : Ledger) (hm : 128 &&& m = 128) (h : Only m s t) : Only m s { t with ledger := ledger } :=
  ⟨h.pending, h.aoNs, h.devOff, h.free, h.out, h.fuses, h.flash, Agree.set (bit hm (by decide)) _ _, h.dev, h.err, h.host, h.job, h.saved, h.preempt, h.preempts, h.clusters, h.cores, h.units, h.hwm, h.mem, h.dram, h.settle, h.dec, h.col, h.ports, h.time, h.rtr, h.pwr, h.rails, h.mgmt, h.tel, h.sec, h.latches⟩
theorem set_dev (dev : Device) (hm : 256 &&& m = 256) (h : Only m s t) : Only m s { t with dev := dev } :=
  ⟨h.pending, h.aoNs, h.devOff, h.free, h.out, h.fuses, h.flash, h.ledger, Agree.set (bit hm (by decide)) _ _, h.err, h.host, h.job, h.saved, h.preempt, h.preempts, h.clusters, h.cores, h.units, h.hwm, h.mem, h.dram, h.settle, h.dec, h.col, h.ports, h.time, h.rtr, h.pwr, h.rails, h.mgmt, h.tel, h.sec, h.latches⟩
theorem set_err (err : Errors) (hm : 512 &&& m = 512) (h : Only m s t) : Only m s { t with err := err } :=
  ⟨h.pending, h.aoNs, h.devOff, h.free, h.out, h.fuses, h.flash, h.ledger, h.dev, Agree.set (bit hm (by decide)) _ _, h.host, h.job, h.saved, h.preempt, h.preempts, h.clusters, h.cores, h.units, h.hwm, h.mem, h.dram, h.settle, h.dec, h.col, h.ports, h.time, h.rtr, h.pwr, h.rails, h.mgmt, h.tel, h.sec, h.latches⟩
theorem set_host (host : HostIf) (hm : 1024 &&& m = 1024) (h : Only m s t) : Only m s { t with host := host } :=
  ⟨h.pending, h.aoNs, h.devOff, h.free, h.out, h.fuses, h.flash, h.ledger, h.dev, h.err, Agree.set (bit hm (by decide)) _ _, h.job, h.saved, h.preempt, h.preempts, h.clusters, h.cores, h.units, h.hwm, h.mem, h.dram, h.settle, h.dec, h.col, h.ports, h.time, h.rtr, h.pwr, h.rails, h.mgmt, h.tel, h.sec, h.latches⟩
theorem set_job (job : Job) (hm : 2048 &&& m = 2048) (h : Only m s t) : Only m s { t with job := job } :=
  ⟨h.pending, h.aoNs, h.devOff, h.free, h.out, h.fuses, h.flash, h.ledger, h.dev, h.err, h.host, Agree.set (bit hm (by decide)) _ _, h.saved, h.preempt, h.preempts, h.clusters, h.cores, h.units, h.hwm, h.mem, h.dram, h.settle, h.dec, h.col, h.ports, h.time, h.rtr, h.pwr, h.rails, h.mgmt, h.tel, h.sec, h.latches⟩
theorem set_saved (saved : Option SavedContext) (hm : 4096 &&& m = 4096) (h : Only m s t) : Only m s { t with saved := saved } :=
  ⟨h.pending, h.aoNs, h.devOff, h.free, h.out, h.fuses, h.flash, h.ledger, h.dev, h.err, h.host, h.job, Agree.set (bit hm (by decide)) _ _, h.preempt, h.preempts, h.clusters, h.cores, h.units, h.hwm, h.mem, h.dram, h.settle, h.dec, h.col, h.ports, h.time, h.rtr, h.pwr, h.rails, h.mgmt, h.tel, h.sec, h.latches⟩
theorem set_preempt (preempt : Bool) (hm : 8192 &&& m = 8192) (h : Only m s t) : Only m s { t with preempt := preempt } :=
  ⟨h.pending, h.aoNs, h.devOff, h.free, h.out, h.fuses, h.flash, h.ledger, h.dev, h.err, h.host, h.job, h.saved, Agree.set (bit hm (by decide)) _ _, h.preempts, h.clusters, h.cores, h.units, h.hwm, h.mem, h.dram, h.settle, h.dec, h.col, h.ports, h.time, h.rtr, h.pwr, h.rails, h.mgmt, h.tel, h.sec, h.latches⟩
theorem set_preempts (preempts : List Desc) (hm : 16384 &&& m = 16384) (h : Only m s t) : Only m s { t with preempts := preempts } :=
  ⟨h.pending, h.aoNs, h.devOff, h.free, h.out, h.fuses, h.flash, h.ledger, h.dev, h.err, h.host, h.job, h.saved, h.preempt, Agree.set (bit hm (by decide)) _ _, h.clusters, h.cores, h.units, h.hwm, h.mem, h.dram, h.settle, h.dec, h.col, h.ports, h.time, h.rtr, h.pwr, h.rails, h.mgmt, h.tel, h.sec, h.latches⟩
theorem set_clusters (clusters : Tab Cluster) (hm : 32768 &&& m = 32768) (h : Only m s t) : Only m s { t with clusters := clusters } :=
  ⟨h.pending, h.aoNs, h.devOff, h.free, h.out, h.fuses, h.flash, h.ledger, h.dev, h.err, h.host, h.job, h.saved, h.preempt, h.preempts, Agree.set (bit hm (by decide)) _ _, h.cores, h.units, h.hwm, h.mem, h.dram, h.settle, h.dec, h.col, h.ports, h.time, h.rtr, h.pwr, h.rails, h.mgmt, h.tel, h.sec, h.latches⟩
theorem set_cores (cores : Tab Core) (hm : 65536 &&& m = 65536) (h : Only m s t) : Only m s { t with cores := cores } :=
  ⟨h.pending, h.aoNs, h.devOff, h.free, h.out, h.fuses, h.flash, h.ledger, h.dev, h.err, h.host, h.job, h.saved, h.preempt, h.preempts, h.clusters, Agree.set (bit hm (by decide)) _ _, h.units, h.hwm, h.mem, h.dram, h.settle, h.dec, h.col, h.ports, h.time, h.rtr, h.pwr, h.rails, h.mgmt, h.tel, h.sec, h.latches⟩
theorem set_units (units : Tab UnitWords) (hm : 131072 &&& m = 131072) (h : Only m s t) : Only m s { t with units := units } :=
  ⟨h.pending, h.aoNs, h.devOff, h.free, h.out, h.fuses, h.flash, h.ledger, h.dev, h.err, h.host, h.job, h.saved, h.preempt, h.preempts, h.clusters, h.cores, Agree.set (bit hm (by decide)) _ _, h.hwm, h.mem, h.dram, h.settle, h.dec, h.col, h.ports, h.time, h.rtr, h.pwr, h.rails, h.mgmt, h.tel, h.sec, h.latches⟩
theorem set_hwm (hwm : Tab Nat) (hm : 262144 &&& m = 262144) (h : Only m s t) : Only m s { t with hwm := hwm } :=
  ⟨h.pending, h.aoNs, h.devOff, h.free, h.out, h.fuses, h.flash, h.ledger, h.dev, h.err, h.host, h.job, h.saved, h.preempt, h.preempts, h.clusters, h.cores, h.units, Agree.set (bit hm (by decide)) _ _, h.mem, h.dram, h.settle, h.dec, h.col, h.ports, h.time, h.rtr, h.pwr, h.rails, h.mgmt, h.tel, h.sec, h.latches⟩
theorem set_mem (mem : Memory) (hm : 524288 &&& m = 524288) (h : Only m s t) : Only m s { t with mem := mem } :=
  ⟨h.pending, h.aoNs, h.devOff, h.free, h.out, h.fuses, h.flash, h.ledger, h.dev, h.err, h.host, h.job, h.saved, h.preempt, h.preempts, h.clusters, h.cores, h.units, h.hwm, Agree.set (bit hm (by decide)) _ _, h.dram, h.settle, h.dec, h.col, h.ports, h.time, h.rtr, h.pwr, h.rails, h.mgmt, h.tel, h.sec, h.latches⟩
theorem set_dram (dram : Dram) (hm : 1048576 &&& m = 1048576) (h : Only m s t) : Only m s { t with dram := dram } :=
  ⟨h.pending, h.aoNs, h.devOff, h.free, h.out, h.fuses, h.flash, h.ledger, h.dev, h.err, h.host, h.job, h.saved, h.preempt, h.preempts, h.clusters, h.cores, h.units, h.hwm, h.mem, Agree.set (bit hm (by decide)) _ _, h.settle, h.dec, h.col, h.ports, h.time, h.rtr, h.pwr, h.rails, h.mgmt, h.tel, h.sec, h.latches⟩
theorem set_settle (settle : Settle) (hm : 2097152 &&& m = 2097152) (h : Only m s t) : Only m s { t with settle := settle } :=
  ⟨h.pending, h.aoNs, h.devOff, h.free, h.out, h.fuses, h.flash, h.ledger, h.dev, h.err, h.host, h.job, h.saved, h.preempt, h.preempts, h.clusters, h.cores, h.units, h.hwm, h.mem, h.dram, Agree.set (bit hm (by decide)) _ _, h.dec, h.col, h.ports, h.time, h.rtr, h.pwr, h.rails, h.mgmt, h.tel, h.sec, h.latches⟩
theorem set_dec (dec : Decision) (hm : 4194304 &&& m = 4194304) (h : Only m s t) : Only m s { t with dec := dec } :=
  ⟨h.pending, h.aoNs, h.devOff, h.free, h.out, h.fuses, h.flash, h.ledger, h.dev, h.err, h.host, h.job, h.saved, h.preempt, h.preempts, h.clusters, h.cores, h.units, h.hwm, h.mem, h.dram, h.settle, Agree.set (bit hm (by decide)) _ _, h.col, h.ports, h.time, h.rtr, h.pwr, h.rails, h.mgmt, h.tel, h.sec, h.latches⟩
theorem set_col (col : Collect) (hm : 8388608 &&& m = 8388608) (h : Only m s t) : Only m s { t with col := col } :=
  ⟨h.pending, h.aoNs, h.devOff, h.free, h.out, h.fuses, h.flash, h.ledger, h.dev, h.err, h.host, h.job, h.saved, h.preempt, h.preempts, h.clusters, h.cores, h.units, h.hwm, h.mem, h.dram, h.settle, h.dec, Agree.set (bit hm (by decide)) _ _, h.ports, h.time, h.rtr, h.pwr, h.rails, h.mgmt, h.tel, h.sec, h.latches⟩
theorem set_ports (ports : Tab Port) (hm : 16777216 &&& m = 16777216) (h : Only m s t) : Only m s { t with ports := ports } :=
  ⟨h.pending, h.aoNs, h.devOff, h.free, h.out, h.fuses, h.flash, h.ledger, h.dev, h.err, h.host, h.job, h.saved, h.preempt, h.preempts, h.clusters, h.cores, h.units, h.hwm, h.mem, h.dram, h.settle, h.dec, h.col, Agree.set (bit hm (by decide)) _ _, h.time, h.rtr, h.pwr, h.rails, h.mgmt, h.tel, h.sec, h.latches⟩
theorem set_time (time : TimeBase) (hm : 33554432 &&& m = 33554432) (h : Only m s t) : Only m s { t with time := time } :=
  ⟨h.pending, h.aoNs, h.devOff, h.free, h.out, h.fuses, h.flash, h.ledger, h.dev, h.err, h.host, h.job, h.saved, h.preempt, h.preempts, h.clusters, h.cores, h.units, h.hwm, h.mem, h.dram, h.settle, h.dec, h.col, h.ports, Agree.set (bit hm (by decide)) _ _, h.rtr, h.pwr, h.rails, h.mgmt, h.tel, h.sec, h.latches⟩
theorem set_rtr (rtr : Router) (hm : 67108864 &&& m = 67108864) (h : Only m s t) : Only m s { t with rtr := rtr } :=
  ⟨h.pending, h.aoNs, h.devOff, h.free, h.out, h.fuses, h.flash, h.ledger, h.dev, h.err, h.host, h.job, h.saved, h.preempt, h.preempts, h.clusters, h.cores, h.units, h.hwm, h.mem, h.dram, h.settle, h.dec, h.col, h.ports, h.time, Agree.set (bit hm (by decide)) _ _, h.pwr, h.rails, h.mgmt, h.tel, h.sec, h.latches⟩
theorem set_pwr (pwr : Power) (hm : 134217728 &&& m = 134217728) (h : Only m s t) : Only m s { t with pwr := pwr } :=
  ⟨h.pending, h.aoNs, h.devOff, h.free, h.out, h.fuses, h.flash, h.ledger, h.dev, h.err, h.host, h.job, h.saved, h.preempt, h.preempts, h.clusters, h.cores, h.units, h.hwm, h.mem, h.dram, h.settle, h.dec, h.col, h.ports, h.time, h.rtr, Agree.set (bit hm (by decide)) _ _, h.rails, h.mgmt, h.tel, h.sec, h.latches⟩
theorem set_rails (rails : Rails) (hm : 268435456 &&& m = 268435456) (h : Only m s t) : Only m s { t with rails := rails } :=
  ⟨h.pending, h.aoNs, h.devOff, h.free, h.out, h.fuses, h.flash, h.ledger, h.dev, h.err, h.host, h.job, h.saved, h.preempt, h.preempts, h.clusters, h.cores, h.units, h.hwm, h.mem, h.dram, h.settle, h.dec, h.col, h.ports, h.time, h.rtr, h.pwr, Agree.set (bit hm (by decide)) _ _, h.mgmt, h.tel, h.sec, h.latches⟩
theorem set_mgmt (mgmt : Mgmt) (hm : 536870912 &&& m = 536870912) (h : Only m s t) : Only m s { t with mgmt := mgmt } :=
  ⟨h.pending, h.aoNs, h.devOff, h.free, h.out, h.fuses, h.flash, h.ledger, h.dev, h.err, h.host, h.job, h.saved, h.preempt, h.preempts, h.clusters, h.cores, h.units, h.hwm, h.mem, h.dram, h.settle, h.dec, h.col, h.ports, h.time, h.rtr, h.pwr, h.rails, Agree.set (bit hm (by decide)) _ _, h.tel, h.sec, h.latches⟩
theorem set_tel (tel : Telemetry) (hm : 1073741824 &&& m = 1073741824) (h : Only m s t) : Only m s { t with tel := tel } :=
  ⟨h.pending, h.aoNs, h.devOff, h.free, h.out, h.fuses, h.flash, h.ledger, h.dev, h.err, h.host, h.job, h.saved, h.preempt, h.preempts, h.clusters, h.cores, h.units, h.hwm, h.mem, h.dram, h.settle, h.dec, h.col, h.ports, h.time, h.rtr, h.pwr, h.rails, h.mgmt, Agree.set (bit hm (by decide)) _ _, h.sec, h.latches⟩
theorem set_sec (sec : Security) (hm : 2147483648 &&& m = 2147483648) (h : Only m s t) : Only m s { t with sec := sec } :=
  ⟨h.pending, h.aoNs, h.devOff, h.free, h.out, h.fuses, h.flash, h.ledger, h.dev, h.err, h.host, h.job, h.saved, h.preempt, h.preempts, h.clusters, h.cores, h.units, h.hwm, h.mem, h.dram, h.settle, h.dec, h.col, h.ports, h.time, h.rtr, h.pwr, h.rails, h.mgmt, h.tel, Agree.set (bit hm (by decide)) _ _, h.latches⟩
theorem set_latches (latches : Tab Nat) (hm : 4294967296 &&& m = 4294967296) (h : Only m s t) : Only m s { t with latches := latches } :=
  ⟨h.pending, h.aoNs, h.devOff, h.free, h.out, h.fuses, h.flash, h.ledger, h.dev, h.err, h.host, h.job, h.saved, h.preempt, h.preempts, h.clusters, h.cores, h.units, h.hwm, h.mem, h.dram, h.settle, h.dec, h.col, h.ports, h.time, h.rtr, h.pwr, h.rails, h.mgmt, h.tel, h.sec, Agree.set (bit hm (by decide)) _ _⟩
theorem set_preempt_preempts (preempt : Bool) (preempts : List Desc) (hm : 24576 &&& m = 24576) (h : Only m s t) : Only m s { t with preempt := preempt, preempts := preempts } :=
  ⟨h.pending, h.aoNs, h.devOff, h.free, h.out, h.fuses, h.flash, h.ledger, h.dev, h.err, h.host, h.job, h.saved, Agree.set (bit hm (by decide)) _ _, Agree.set (bit hm (by decide)) _ _, h.clusters, h.cores, h.units, h.hwm, h.mem, h.dram, h.settle, h.dec, h.col, h.ports, h.time, h.rtr, h.pwr, h.rails, h.mgmt, h.tel, h.sec, h.latches⟩
theorem set_preempts_units (preempts : List Desc) (units : Tab UnitWords) (hm : 147456 &&& m = 147456) (h : Only m s t) : Only m s { t with preempts := preempts, units := units } :=
  ⟨h.pending, h.aoNs, h.devOff, h.free, h.out, h.fuses, h.flash, h.ledger, h.dev, h.err, h.host, h.job, h.saved, h.preempt, Agree.set (bit hm (by decide)) _ _, h.clusters, h.cores, Agree.set (bit hm (by decide)) _ _, h.hwm, h.mem, h.dram, h.settle, h.dec, h.col, h.ports, h.time, h.rtr, h.pwr, h.rails, h.mgmt, h.tel, h.sec, h.latches⟩
theorem set_job_saved_preempt_settle_dec (job : Job) (saved : Option SavedContext) (preempt : Bool) (settle : Settle) (dec : Decision) (hm : 6305792 &&& m = 6305792) (h : Only m s t) : Only m s { t with job := job, saved := saved, preempt := preempt, settle := settle, dec := dec } :=
  ⟨h.pending, h.aoNs, h.devOff, h.free, h.out, h.fuses, h.flash, h.ledger, h.dev, h.err, h.host, Agree.set (bit hm (by decide)) _ _, Agree.set (bit hm (by decide)) _ _, Agree.set (bit hm (by decide)) _ _, h.preempts, h.clusters, h.cores, h.units, h.hwm, h.mem, h.dram, Agree.set (bit hm (by decide)) _ _, Agree.set (bit hm (by decide)) _ _, h.col, h.ports, h.time, h.rtr, h.pwr, h.rails, h.mgmt, h.tel, h.sec, h.latches⟩
theorem set_cores_mem (cores : Tab Core) (mem : Memory) (hm : 589824 &&& m = 589824) (h : Only m s t) : Only m s { t with cores := cores, mem := mem } :=
  ⟨h.pending, h.aoNs, h.devOff, h.free, h.out, h.fuses, h.flash, h.ledger, h.dev, h.err, h.host, h.job, h.saved, h.preempt, h.preempts, h.clusters, Agree.set (bit hm (by decide)) _ _, h.units, h.hwm, Agree.set (bit hm (by decide)) _ _, h.dram, h.settle, h.dec, h.col, h.ports, h.time, h.rtr, h.pwr, h.rails, h.mgmt, h.tel, h.sec, h.latches⟩
theorem set_ledger_settle (ledger : Ledger) (settle : Settle) (hm : 2097280 &&& m = 2097280) (h : Only m s t) : Only m s { t with ledger := ledger, settle := settle } :=
  ⟨h.pending, h.aoNs, h.devOff, h.free, h.out, h.fuses, h.flash, Agree.set (bit hm (by decide)) _ _, h.dev, h.err, h.host, h.job, h.saved, h.preempt, h.preempts, h.clusters, h.cores, h.units, h.hwm, h.mem, h.dram, Agree.set (bit hm (by decide)) _ _, h.dec, h.col, h.ports, h.time, h.rtr, h.pwr, h.rails, h.mgmt, h.tel, h.sec, h.latches⟩
theorem set_saved_hwm_mem_settle_dec (saved : Option SavedContext) (hwm : Tab Nat) (mem : Memory) (settle : Settle) (dec : Decision) (hm : 7081984 &&& m = 7081984) (h : Only m s t) : Only m s { t with saved := saved, hwm := hwm, mem := mem, settle := settle, dec := dec } :=
  ⟨h.pending, h.aoNs, h.devOff, h.free, h.out, h.fuses, h.flash, h.ledger, h.dev, h.err, h.host, h.job, Agree.set (bit hm (by decide)) _ _, h.preempt, h.preempts, h.clusters, h.cores, h.units, Agree.set (bit hm (by decide)) _ _, Agree.set (bit hm (by decide)) _ _, h.dram, Agree.set (bit hm (by decide)) _ _, Agree.set (bit hm (by decide)) _ _, h.col, h.ports, h.time, h.rtr, h.pwr, h.rails, h.mgmt, h.tel, h.sec, h.latches⟩
theorem set_host_preempts (host : HostIf) (preempts : List Desc) (hm : 17408 &&& m = 17408) (h : Only m s t) : Only m s { t with host := host, preempts := preempts } :=
  ⟨h.pending, h.aoNs, h.devOff, h.free, h.out, h.fuses, h.flash, h.ledger, h.dev, h.err, Agree.set (bit hm (by decide)) _ _, h.job, h.saved, h.preempt, Agree.set (bit hm (by decide)) _ _, h.clusters, h.cores, h.units, h.hwm, h.mem, h.dram, h.settle, h.dec, h.col, h.ports, h.time, h.rtr, h.pwr, h.rails, h.mgmt, h.tel, h.sec, h.latches⟩
theorem set_flash_sec (flash : Tab FwClass) (sec : Security) (hm : 2147483712 &&& m = 2147483712) (h : Only m s t) : Only m s { t with flash := flash, sec := sec } :=
  ⟨h.pending, h.aoNs, h.devOff, h.free, h.out, h.fuses, Agree.set (bit hm (by decide)) _ _, h.ledger, h.dev, h.err, h.host, h.job, h.saved, h.preempt, h.preempts, h.clusters, h.cores, h.units, h.hwm, h.mem, h.dram, h.settle, h.dec, h.col, h.ports, h.time, h.rtr, h.pwr, h.rails, h.mgmt, h.tel, Agree.set (bit hm (by decide)) _ _, h.latches⟩
theorem set_devOff_time (devOff : Int) (time : TimeBase) (hm : 33554436 &&& m = 33554436) (h : Only m s t) : Only m s { t with devOff := devOff, time := time } :=
  ⟨h.pending, h.aoNs, Agree.set (bit hm (by decide)) _ _, h.free, h.out, h.fuses, h.flash, h.ledger, h.dev, h.err, h.host, h.job, h.saved, h.preempt, h.preempts, h.clusters, h.cores, h.units, h.hwm, h.mem, h.dram, h.settle, h.dec, h.col, h.ports, Agree.set (bit hm (by decide)) _ _, h.rtr, h.pwr, h.rails, h.mgmt, h.tel, h.sec, h.latches⟩

theorem ite {c : Prop} [Decidable c] {a a' : State} (ha : Only m s a) (ha' : Only m s a') : Only m s (if c then a else a') := by
  split <;> assumption

theorem ite2 {α : Type} {c : Prop} [Decidable c] {a a' : α × State} (ha : Only m s a.2) (ha' : Only m s a'.2) :
    Only m s (if c then a else a').2 := by split <;> assumption

theorem ite3 {α β : Type} {c : Prop} [Decidable c] {a a' : α × β × State} (ha : Only m s a.2.2) (ha' : Only m s a'.2.2) :
    Only m s (if c then a else a').2.2 := by split <;> assumption

theorem pair {α : Type} {p : α × State} {a : α} (h : p = (a, t)) (hp : Only m s p.2) : Only m s t := by subst h; exact hp

theorem triple {α β : Type} {p : α × β × State} {a : α} {a' : β} (h : p = (a, a', t)) (hp : Only m s p.2.2) : Only m s t := by
  subst h; exact hp

theorem foldl {α : Type} {f : State → α → State} {l : List α} (h : ∀ t x, Only m s t → Only m s (f t x)) (h0 : Only m s t) :
    Only m s (l.foldl f t) := by
  induction l generalizing t with
  | nil => exact h0
  | cons x l ih => exact ih (h _ _ h0)

theorem foldl2 {α β : Type} {f : β × State → α → β × State} {l : List α} {a : β × State}
    (h : ∀ a x, Only m s a.2 → Only m s (f a x).2) (h0 : Only m s a.2) : Only m s (l.foldl f a).2 := by
  induction l generalizing a with
  | nil => exact h0
  | cons x l ih => exact ih (h _ _ h0)

theorem foldl3 {α β γ : Type} {f : β × γ × State → α → β × γ × State} {l : List α} {a : β × γ × State}
    (h : ∀ a x, Only m s a.2.2 → Only m s (f a x).2.2) (h0 : Only m s a.2.2) : Only m s (l.foldl f a).2.2 := by
  induction l generalizing a with
  | nil => exact h0
  | cons x l ih => exact ih (h _ _ h0)

end Only

end Sys2Proof.Machine
end

