-- ==== Sys2Proof/Laws/OnlyBase.lean ====
section
/-!
SUPPORT. `Only` of every operation on the state, part: memory, events, routing, coins, host rings.
-/
set_option autoImplicit false
set_option linter.unusedVariables false
namespace Sys2Proof.Machine

theorem State.modCluster_only {M : Nat} {s₀ : State} (s : State) (c : Nat) (f : Cluster → Cluster) (hm : 32768 &&& M = 32768)
    (hk : Only M s₀ s) : Only M s₀ (State.modCluster s c f) := by
  unfold State.modCluster
  repeat' (first
    | with_reducible assumption
    | with_reducible refine Only.set_clusters (hm := Only.sub (by decide) hm) (h := ?_) ..)

theorem State.modClusters_only {M : Nat} {s₀ : State} (s : State) (f : Nat → Cluster → Cluster) (hm : 32768 &&& M = 32768)
    (hk : Only M s₀ s) : Only M s₀ (State.modClusters s f) := by
  unfold State.modClusters
  repeat' (first
    | with_reducible assumption
    | with_reducible refine Only.set_clusters (hm := Only.sub (by decide) hm) (h := ?_) ..)

theorem State.modSeq_only {M : Nat} {s₀ : State} (s : State) (c : Nat) (f : Sequencer → Sequencer) (hm : 32768 &&& M = 32768)
    (hk : Only M s₀ s) : Only M s₀ (State.modSeq s c f) := by
  unfold State.modSeq
  repeat' (first
    | with_reducible assumption
    | with_reducible refine State.modCluster_only (hm := Only.sub (by decide) hm) (hk := ?_) ..
    | split)

theorem State.modClock_only {M : Nat} {s₀ : State} (s : State) (c : Nat) (f : ClockSt → ClockSt) (hm : 32768 &&& M = 32768)
    (hk : Only M s₀ s) : Only M s₀ (State.modClock s c f) := by
  unfold State.modClock
  repeat' (first
    | with_reducible assumption
    | with_reducible refine State.modCluster_only (hm := Only.sub (by decide) hm) (hk := ?_) ..
    | split)

theorem State.modPurse_only {M : Nat} {s₀ : State} (s : State) (c : Nat) (f : Purse → Purse) (hm : 32768 &&& M = 32768)
    (hk : Only M s₀ s) : Only M s₀ (State.modPurse s c f) := by
  unfold State.modPurse
  repeat' (first
    | with_reducible assumption
    | with_reducible refine State.modCluster_only (hm := Only.sub (by decide) hm) (hk := ?_) ..
    | split)

theorem State.modCore_only {M : Nat} {s₀ : State} (s : State) (p : Nat) (f : Core → Core) (hm : 65536 &&& M = 65536)
    (hk : Only M s₀ s) : Only M s₀ (State.modCore s p f) := by
  unfold State.modCore
  repeat' (first
    | with_reducible assumption
    | with_reducible refine Only.set_cores (hm := Only.sub (by decide) hm) (h := ?_) ..)

theorem State.modPort_only {M : Nat} {s₀ : State} (s : State) (n : Nat) (f : Port → Port) (hm : 16777216 &&& M = 16777216)
    (hk : Only M s₀ s) : Only M s₀ (State.modPort s n f) := by
  unfold State.modPort
  repeat' (first
    | with_reducible assumption
    | with_reducible refine Only.set_ports (hm := Only.sub (by decide) hm) (h := ?_) ..)

theorem State.modLink_only {M : Nat} {s₀ : State} (s : State) (n : Nat) (f : Link → Link) (hm : 16777216 &&& M = 16777216)
    (hk : Only M s₀ s) : Only M s₀ (State.modLink s n f) := by
  unfold State.modLink
  repeat' (first
    | with_reducible assumption
    | with_reducible refine State.modPort_only (hm := Only.sub (by decide) hm) (hk := ?_) ..
    | split)

theorem State.modRep_only {M : Nat} {s₀ : State} (s : State) (n : Nat) (f : Repair → Repair) (hm : 16777216 &&& M = 16777216)
    (hk : Only M s₀ s) : Only M s₀ (State.modRep s n f) := by
  unfold State.modRep
  repeat' (first
    | with_reducible assumption
    | with_reducible refine State.modPort_only (hm := Only.sub (by decide) hm) (hk := ?_) ..
    | split)

theorem State.modDisc_only {M : Nat} {s₀ : State} (s : State) (n : Nat) (f : Disc → Disc) (hm : 16777216 &&& M = 16777216)
    (hk : Only M s₀ s) : Only M s₀ (State.modDisc s n f) := by
  unfold State.modDisc
  repeat' (first
    | with_reducible assumption
    | with_reducible refine State.modPort_only (hm := Only.sub (by decide) hm) (hk := ?_) ..
    | split)

theorem State.modRing_only {M : Nat} {s₀ : State} (s : State) (n : Nat) (f : Ring → Ring) (hm : 1024 &&& M = 1024)
    (hk : Only M s₀ s) : Only M s₀ (State.modRing s n f) := by
  unfold State.modRing
  repeat' (first
    | with_reducible assumption
    | with_reducible refine Only.set_host (hm := Only.sub (by decide) hm) (h := ?_) ..)

theorem State.modHost_only {M : Nat} {s₀ : State} (s : State) (f : HostIf → HostIf) (hm : 1024 &&& M = 1024)
    (hk : Only M s₀ s) : Only M s₀ (State.modHost s f) := by
  unfold State.modHost
  repeat' (first
    | with_reducible assumption
    | with_reducible refine Only.set_host (hm := Only.sub (by decide) hm) (h := ?_) ..)

theorem State.modChannel_only {M : Nat} {s₀ : State} (s : State) (n : Nat) (f : Channel → Channel) (hm : 1048576 &&& M = 1048576)
    (hk : Only M s₀ s) : Only M s₀ (State.modChannel s n f) := by
  unfold State.modChannel
  repeat' (first
    | with_reducible assumption
    | with_reducible refine Only.set_dram (hm := Only.sub (by decide) hm) (h := ?_) ..)

theorem State.modUnit_only {M : Nat} {s₀ : State} (s : State) (u : Nat) (f : UnitWords → UnitWords) (hm : 131072 &&& M = 131072)
    (hk : Only M s₀ s) : Only M s₀ (State.modUnit s u f) := by
  unfold State.modUnit
  repeat' (first
    | with_reducible assumption
    | with_reducible refine Only.set_units (hm := Only.sub (by decide) hm) (h := ?_) ..)

theorem State.modErr_only {M : Nat} {s₀ : State} (s : State) (f : Errors → Errors) (hm : 512 &&& M = 512)
    (hk : Only M s₀ s) : Only M s₀ (State.modErr s f) := by
  unfold State.modErr
  repeat' (first
    | with_reducible assumption
    | with_reducible refine Only.set_err (hm := Only.sub (by decide) hm) (h := ?_) ..)

theorem State.modSet_only {M : Nat} {s₀ : State} (s : State) (f : Settle → Settle) (hm : 2097152 &&& M = 2097152)
    (hk : Only M s₀ s) : Only M s₀ (State.modSet s f) := by
  unfold State.modSet
  repeat' (first
    | with_reducible assumption
    | with_reducible refine Only.set_settle (hm := Only.sub (by decide) hm) (h := ?_) ..)

theorem State.modDec_only {M : Nat} {s₀ : State} (s : State) (f : Decision → Decision) (hm : 4194304 &&& M = 4194304)
    (hk : Only M s₀ s) : Only M s₀ (State.modDec s f) := by
  unfold State.modDec
  repeat' (first
    | with_reducible assumption
    | with_reducible refine Only.set_dec (hm := Only.sub (by decide) hm) (h := ?_) ..)

theorem State.modCol_only {M : Nat} {s₀ : State} (s : State) (f : Collect → Collect) (hm : 8388608 &&& M = 8388608)
    (hk : Only M s₀ s) : Only M s₀ (State.modCol s f) := by
  unfold State.modCol
  repeat' (first
    | with_reducible assumption
    | with_reducible refine Only.set_col (hm := Only.sub (by decide) hm) (h := ?_) ..)

theorem State.modRtr_only {M : Nat} {s₀ : State} (s : State) (f : Router → Router) (hm : 67108864 &&& M = 67108864)
    (hk : Only M s₀ s) : Only M s₀ (State.modRtr s f) := by
  unfold State.modRtr
  repeat' (first
    | with_reducible assumption
    | with_reducible refine Only.set_rtr (hm := Only.sub (by decide) hm) (h := ?_) ..)

theorem State.modSlice_only {M : Nat} {s₀ : State} (s : State) (f : Slice → Slice) (hm : 67108864 &&& M = 67108864)
    (hk : Only M s₀ s) : Only M s₀ (State.modSlice s f) := by
  unfold State.modSlice
  repeat' (first
    | with_reducible assumption
    | with_reducible refine State.modRtr_only (hm := Only.sub (by decide) hm) (hk := ?_) ..
    | split)

theorem State.modTime_only {M : Nat} {s₀ : State} (s : State) (f : TimeBase → TimeBase) (hm : 33554432 &&& M = 33554432)
    (hk : Only M s₀ s) : Only M s₀ (State.modTime s f) := by
  unfold State.modTime
  repeat' (first
    | with_reducible assumption
    | with_reducible refine Only.set_time (hm := Only.sub (by decide) hm) (h := ?_) ..)

theorem State.modPwr_only {M : Nat} {s₀ : State} (s : State) (f : Power → Power) (hm : 134217728 &&& M = 134217728)
    (hk : Only M s₀ s) : Only M s₀ (State.modPwr s f) := by
  unfold State.modPwr
  repeat' (first
    | with_reducible assumption
    | with_reducible refine Only.set_pwr (hm := Only.sub (by decide) hm) (h := ?_) ..)

theorem State.modMgmt_only {M : Nat} {s₀ : State} (s : State) (f : Mgmt → Mgmt) (hm : 536870912 &&& M = 536870912)
    (hk : Only M s₀ s) : Only M s₀ (State.modMgmt s f) := by
  unfold State.modMgmt
  repeat' (first
    | with_reducible assumption
    | with_reducible refine Only.set_mgmt (hm := Only.sub (by decide) hm) (h := ?_) ..)

theorem State.modSec_only {M : Nat} {s₀ : State} (s : State) (f : Security → Security) (hm : 2147483648 &&& M = 2147483648)
    (hk : Only M s₀ s) : Only M s₀ (State.modSec s f) := by
  unfold State.modSec
  repeat' (first
    | with_reducible assumption
    | with_reducible refine Only.set_sec (hm := Only.sub (by decide) hm) (h := ?_) ..)

theorem State.modDev_only {M : Nat} {s₀ : State} (s : State) (f : Device → Device) (hm : 256 &&& M = 256)
    (hk : Only M s₀ s) : Only M s₀ (State.modDev s f) := by
  unfold State.modDev
  repeat' (first
    | with_reducible assumption
    | with_reducible refine Only.set_dev (hm := Only.sub (by decide) hm) (h := ?_) ..)

theorem State.emit_only {M : Nat} {s₀ : State} (s : State) (o : Out) (hm : 16 &&& M = 16)
    (hk : Only M s₀ s) : Only M s₀ (State.emit s o) := by
  unfold State.emit
  repeat' (first
    | with_reducible assumption
    | with_reducible refine Only.set_out (hm := Only.sub (by decide) hm) (h := ?_) ..)

theorem State.emits_only {M : Nat} {s₀ : State} (s : State) (os : List Out) (hm : 16 &&& M = 16)
    (hk : Only M s₀ s) : Only M s₀ (State.emits s os) := by
  unfold State.emits
  repeat' (first
    | with_reducible assumption
    | with_reducible refine Only.set_out (hm := Only.sub (by decide) hm) (h := ?_) ..)

theorem State.span_only {M : Nat} {s₀ : State} (s : State) (key n : Nat) (hm : 1073741824 &&& M = 1073741824)
    (hk : Only M s₀ s) : Only M s₀ (State.span s key n) := by
  unfold State.span
  repeat' (first
    | with_reducible assumption
    | with_reducible refine Only.set_tel (hm := Only.sub (by decide) hm) (h := ?_) ..)

theorem State.spanMin_only {M : Nat} {s₀ : State} (s : State) (key v : Nat) (hm : 1073741824 &&& M = 1073741824)
    (hk : Only M s₀ s) : Only M s₀ (State.spanMin s key v) := by
  unfold State.spanMin
  repeat' (first
    | with_reducible assumption
    | split
    | with_reducible refine Only.set_tel (hm := Only.sub (by decide) hm) (h := ?_) ..)

theorem State.day_only {M : Nat} {s₀ : State} (s : State) (key n : Nat) (hm : 1073741824 &&& M = 1073741824)
    (hk : Only M s₀ s) : Only M s₀ (State.day s key n) := by
  unfold State.day
  repeat' (first
    | with_reducible assumption
    | with_reducible refine Only.set_tel (hm := Only.sub (by decide) hm) (h := ?_) ..)

theorem State.total_only {M : Nat} {s₀ : State} (s : State) (i n : Nat) (hm : 536870912 &&& M = 536870912)
    (hk : Only M s₀ s) : Only M s₀ (State.total s i n) := by
  unfold State.total
  repeat' (first
    | with_reducible assumption
    | with_reducible refine Only.set_mgmt (hm := Only.sub (by decide) hm) (h := ?_) ..)

theorem State.slewAt_only {M : Nat} {s₀ : State} (s : State) (r : Int) (hm : 33554436 &&& M = 33554436)
    (hk : Only M s₀ s) : Only M s₀ (State.slewAt s r) := by
  unfold State.slewAt
  repeat' (first
    | with_reducible assumption
    | with_reducible refine Only.set_devOff_time (hm := Only.sub (by decide) hm) (h := ?_) ..
    | dsimp only)

theorem State.reach_only {M : Nat} {s₀ : State} (s : State) (t : Nat) (hm : 536870914 &&& M = 536870914)
    (hk : Only M s₀ s) : Only M s₀ (State.reach s t) := by
  unfold State.reach
  repeat' (first
    | with_reducible assumption
    | with_reducible refine State.total_only (hm := Only.sub (by decide) hm) (hk := ?_) ..
    | with_reducible refine Only.ite ?_ ?_
    | split
    | with_reducible refine Only.set_aoNs (hm := Only.sub (by decide) hm) (h := ?_) ..
    | dsimp only)

theorem State.each_only {M : Nat} {s₀ : State} {α : Type} (s : State) (l : List α) (f : State → α → State) (hf : ∀ t x, Only M s₀ t → Only M s₀ (f t x)) (hm : 0 &&& M = 0)
    (hk : Only M s₀ s) : Only M s₀ (State.each s l f) := by
  unfold State.each
  repeat' (first
    | with_reducible assumption
    | with_reducible refine hf _ _ ?_
    | with_reducible refine Only.foldl (fun _ _ _ => ?_) ?_)

theorem State.fresh_only {M : Nat} {s₀ : State} (s : State) (w : Nat) (hm : 8 &&& M = 8)
    (hk : Only M s₀ s) : Only M s₀ (State.fresh s w).2 := by
  unfold State.fresh
  repeat' (first
    | with_reducible assumption
    | with_reducible refine Only.set_free (hm := Only.sub (by decide) hm) (h := ?_) ..
    | dsimp only)

theorem State.storePiece_only {M : Nat} {s₀ : State} (s : State) (p : Nat × List Byte) (src : Nat → Bool) (hm : 1572864 &&& M = 1572864)
    (hk : Only M s₀ s) : Only M s₀ (State.storePiece s p src) := by
  unfold State.storePiece
  repeat' (first
    | with_reducible assumption
    | with_reducible refine State.modChannel_only (hm := Only.sub (by decide) hm) (hk := ?_) ..
    | with_reducible refine Only.ite ?_ ?_
    | split
    | with_reducible refine Only.set_mem (hm := Only.sub (by decide) hm) (h := ?_) ..)

theorem State.writeMem_only {M : Nat} {s₀ : State} (s : State) (a : Nat) (bs : List Byte) (src : Nat → Bool) (hm : 1572864 &&& M = 1572864)
    (hk : Only M s₀ s) : Only M s₀ (State.writeMem s a bs src) := by
  unfold State.writeMem
  repeat' (first
    | with_reducible assumption
    | with_reducible refine State.storePiece_only (hm := Only.sub (by decide) hm) (hk := ?_) ..
    | with_reducible refine Only.foldl (fun _ _ _ => ?_) ?_
    | split)

theorem State.copyMem_only {M : Nat} {s₀ : State} (s : State) (src dst n : Nat) (hm : 1572864 &&& M = 1572864)
    (hk : Only M s₀ s) : Only M s₀ (State.copyMem s src dst n) := by
  unfold State.copyMem
  repeat' (first
    | with_reducible assumption
    | with_reducible refine State.writeMem_only (hm := Only.sub (by decide) hm) (hk := ?_) ..
    | dsimp only)

theorem State.fire_only {M : Nat} {s₀ : State} (s : State) (v : Nat) (hm : 1040 &&& M = 1040)
    (hk : Only M s₀ s) : Only M s₀ (State.fire s v) := by
  unfold State.fire
  repeat' (first
    | with_reducible assumption
    | with_reducible first | refine State.modHost_only (hm := Only.sub (by decide) hm) (hk := ?_) .. | refine State.emit_only (hm := Only.sub (by decide) hm) (hk := ?_) ..
    | with_reducible refine Only.ite ?_ ?_
    | split
    | dsimp only)

theorem State.signal_only {M : Nat} {s₀ : State} (s : State) (v : Nat) (atOnce : Bool) (hm : 1040 &&& M = 1040)
    (hk : Only M s₀ s) : Only M s₀ (State.signal s v atOnce) := by
  unfold State.signal
  repeat' (first
    | with_reducible assumption
    | with_reducible first | refine State.modHost_only (hm := Only.sub (by decide) hm) (hk := ?_) .. | refine State.fire_only (hm := Only.sub (by decide) hm) (hk := ?_) ..
    | with_reducible refine Only.ite ?_ ?_
    | split
    | dsimp only)

theorem State.pldmEvent_only {M : Nat} {s₀ : State} (s : State) (e : Event) (hm : 536870928 &&& M = 536870928)
    (hk : Only M s₀ s) : Only M s₀ (State.pldmEvent s e) := by
  unfold State.pldmEvent
  repeat' (first
    | with_reducible assumption
    | with_reducible first | refine State.modMgmt_only (hm := Only.sub (by decide) hm) (hk := ?_) .. | refine State.emit_only (hm := Only.sub (by decide) hm) (hk := ?_) ..
    | with_reducible refine Only.ite ?_ ?_
    | split)

theorem State.eventRing_only {M : Nat} {s₀ : State} (s : State) (e : Event) (hm : 1040 &&& M = 1040)
    (hk : Only M s₀ s) : Only M s₀ (State.eventRing s e) := by
  unfold State.eventRing
  repeat' (first
    | with_reducible assumption
    | with_reducible first | refine State.modHost_only (hm := Only.sub (by decide) hm) (hk := ?_) .. | refine State.emit_only (hm := Only.sub (by decide) hm) (hk := ?_) .. | refine State.signal_only (hm := Only.sub (by decide) hm) (hk := ?_) ..
    | with_reducible refine Only.ite ?_ ?_
    | split
    | dsimp only)

theorem State.logEntry_only {M : Nat} {s₀ : State} (s : State) (c : EventClass) (source : Nat) (data : List Byte) (sev : Severity) (nested injected : Bool) (hm : 536872464 &&& M = 536872464)
    (hk : Only M s₀ s) : Only M s₀ (State.logEntry s c source data sev nested injected) := by
  unfold State.logEntry
  repeat' (first
    | with_reducible assumption
    | with_reducible first | refine State.modErr_only (hm := Only.sub (by decide) hm) (hk := ?_) .. | refine State.pldmEvent_only (hm := Only.sub (by decide) hm) (hk := ?_) .. | refine State.eventRing_only (hm := Only.sub (by decide) hm) (hk := ?_) ..
    | split
    | dsimp only)

theorem State.ledgerDrop_only {M : Nat} {s₀ : State} (s : State) (hm : 536871040 &&& M = 536871040)
    (hk : Only M s₀ s) : Only M s₀ (State.ledgerDrop s) := by
  unfold State.ledgerDrop
  repeat' (first
    | with_reducible assumption
    | with_reducible refine State.modMgmt_only (hm := Only.sub (by decide) hm) (hk := ?_) ..
    | split
    | with_reducible refine Only.set_ledger (hm := Only.sub (by decide) hm) (h := ?_) ..
    | dsimp only)

theorem State.ledgerPut_only {M : Nat} {s₀ : State} (s : State) (kind : Nat) (payload : List Byte) (off : Nat) (live : Bool) (hm : 128 &&& M = 128)
    (hk : Only M s₀ s) : Only M s₀ (State.ledgerPut s kind payload off live) := by
  unfold State.ledgerPut
  repeat' (first
    | with_reducible assumption
    | with_reducible refine Only.set_ledger (hm := Only.sub (by decide) hm) (h := ?_) ..
    | dsimp only)

theorem State.ledgerNoRoom_only {M : Nat} {s₀ : State} (s : State) (kind : Nat) (hm : 536872592 &&& M = 536872592)
    (hk : Only M s₀ s) : Only M s₀ (State.ledgerNoRoom s kind) := by
  unfold State.ledgerNoRoom
  repeat' (first
    | with_reducible assumption
    | with_reducible first | refine State.logEntry_only (hm := Only.sub (by decide) hm) (hk := ?_) .. | refine State.ledgerDrop_only (hm := Only.sub (by decide) hm) (hk := ?_) ..
    | with_reducible refine Only.ite ?_ ?_
    | with_reducible refine Only.set_ledger (hm := Only.sub (by decide) hm) (h := ?_) ..
    | dsimp only)

theorem State.ledgerRetry_only {M : Nat} {s₀ : State} (s : State) (kind : Nat) (payload : List Byte) (injected : Bool) (arr0 : Nat) (hm : 536872592 &&& M = 536872592)
    (hk : Only M s₀ s) : Only M s₀ (s.ledgerRetry kind payload injected arr0) := by
  induction arr0 generalizing s with
  | zero => exact hk
  | succ n ih =>
    unfold State.ledgerRetry
    split
    · exact hk
    · refine ih _ (State.logEntry_only _ _ _ _ _ _ _ (hm := Only.sub (by decide) hm) ?_)
      exact Only.set_ledger _ (Only.sub (by decide) hm) (State.ledgerPut_only s kind payload _ false (hm := Only.sub (by decide) hm) hk)

theorem State.injection_only {M : Nat} {s₀ : State} (s : State) (c : EventClass) (unit : Nat) (hm : 512 &&& M = 512)
    (hk : Only M s₀ s) : Only M s₀ (State.injection s c unit).2 := by
  unfold State.injection
  repeat' (first
    | with_reducible assumption
    | with_reducible refine State.modErr_only (hm := Only.sub (by decide) hm) (hk := ?_) ..
    | with_reducible refine Only.ite2 ?_ ?_
    | split
    | dsimp only)

theorem State.ledgerWrite_only {M : Nat} {s₀ : State} (s : State) (kind : Nat) (payload : List Byte) (fails : Nat) (hm : 536872592 &&& M = 536872592)
    (hk : Only M s₀ s) : Only M s₀ (State.ledgerWrite s kind payload fails) := by
  unfold State.ledgerWrite
  repeat' (first
    | with_reducible assumption
    | with_reducible first | refine State.ledgerPut_only (hm := Only.sub (by decide) hm) (hk := ?_) .. | refine State.ledgerNoRoom_only (hm := Only.sub (by decide) hm) (hk := ?_) .. | refine State.ledgerRetry_only (hm := Only.sub (by decide) hm) (hk := ?_) .. | refine State.injection_only (hm := Only.sub (by decide) hm) (hk := ?_) ..
    | with_reducible refine Only.pair (by assumption) ?_
    | split
    | with_reducible refine Only.set_ledger (hm := Only.sub (by decide) hm) (h := ?_) ..
    | dsimp only)

theorem State.ledgerAppend_only {M : Nat} {s₀ : State} (s : State) (kind : Nat) (payload : List Byte) (fails : Nat) (hm : 536872592 &&& M = 536872592)
    (hk : Only M s₀ s) : Only M s₀ (State.ledgerAppend s kind payload fails) := by
  unfold State.ledgerAppend
  repeat' (first
    | with_reducible assumption
    | with_reducible first | refine State.ledgerDrop_only (hm := Only.sub (by decide) hm) (hk := ?_) .. | refine State.ledgerWrite_only (hm := Only.sub (by decide) hm) (hk := ?_) ..
    | with_reducible refine Only.ite ?_ ?_
    | with_reducible refine Only.set_ledger (hm := Only.sub (by decide) hm) (h := ?_) ..)

theorem State.logAs_only {M : Nat} {s₀ : State} (s : State) (c : EventClass) (source : Nat) (data : List Byte) (sev : Severity) (nested injected : Bool) (hm : 536872592 &&& M = 536872592)
    (hk : Only M s₀ s) : Only M s₀ (State.logAs s c source data sev nested injected) := by
  unfold State.logAs
  repeat' (first
    | with_reducible assumption
    | with_reducible first | refine State.modMgmt_only (hm := Only.sub (by decide) hm) (hk := ?_) .. | refine State.logEntry_only (hm := Only.sub (by decide) hm) (hk := ?_) .. | refine State.ledgerAppend_only (hm := Only.sub (by decide) hm) (hk := ?_) ..
    | with_reducible refine Only.ite ?_ ?_
    | split
    | dsimp only)

theorem State.log_only {M : Nat} {s₀ : State} (s : State) (c : EventClass) (source : Nat) (data : List (Nat × Nat)) (hm : 536872592 &&& M = 536872592)
    (hk : Only M s₀ s) : Only M s₀ (State.log s c source data) := by
  unfold State.log
  repeat' (first
    | with_reducible assumption
    | with_reducible refine State.logAs_only (hm := Only.sub (by decide) hm) (hk := ?_) ..)

theorem State.logLimited_only {M : Nat} {s₀ : State} (s : State) (c : EventClass) (key period : Nat) (source : Nat) (data : List (Nat × Nat)) (hm : 536872592 &&& M = 536872592)
    (hk : Only M s₀ s) : Only M s₀ (State.logLimited s c key period source data) := by
  unfold State.logLimited
  repeat' (first
    | with_reducible assumption
    | with_reducible first | refine State.modErr_only (hm := Only.sub (by decide) hm) (hk := ?_) .. | refine State.log_only (hm := Only.sub (by decide) hm) (hk := ?_) ..
    | with_reducible refine Only.ite ?_ ?_
    | split
    | dsimp only)

theorem State.detectWith_only {M : Nat} {s₀ : State} (s : State) (c : EventClass) (source : Nat) (data : List Byte) (hm : 536872592 &&& M = 536872592)
    (hk : Only M s₀ s) : Only M s₀ (State.detectWith s c source data) := by
  unfold State.detectWith
  repeat' (first
    | with_reducible assumption
    | with_reducible first | refine State.modErr_only (hm := Only.sub (by decide) hm) (hk := ?_) .. | refine State.injection_only (hm := Only.sub (by decide) hm) (hk := ?_) .. | refine State.logAs_only (hm := Only.sub (by decide) hm) (hk := ?_) ..
    | with_reducible refine Only.ite ?_ ?_
    | split
    | dsimp only)

theorem State.detect_only {M : Nat} {s₀ : State} (s : State) (c : EventClass) (source : Nat) (data : List (Nat × Nat)) (hm : 536872592 &&& M = 536872592)
    (hk : Only M s₀ s) : Only M s₀ (State.detect s c source data) := by
  unfold State.detect
  repeat' (first
    | with_reducible assumption
    | with_reducible refine State.detectWith_only (hm := Only.sub (by decide) hm) (hk := ?_) ..)

theorem State.detectLimited_only {M : Nat} {s₀ : State} (s : State) (c : EventClass) (key source : Nat) (data : List (Nat × Nat)) (hm : 536872592 &&& M = 536872592)
    (hk : Only M s₀ s) : Only M s₀ (State.detectLimited s c key source data) := by
  unfold State.detectLimited
  repeat' (first
    | with_reducible assumption
    | with_reducible first | refine State.modErr_only (hm := Only.sub (by decide) hm) (hk := ?_) .. | refine State.detect_only (hm := Only.sub (by decide) hm) (hk := ?_) ..
    | with_reducible refine Only.ite ?_ ?_
    | split
    | dsimp only)

theorem State.closeWindow_only {M : Nat} {s₀ : State} (s : State) (c : EventClass) (source : Nat) (hm : 512 &&& M = 512)
    (hk : Only M s₀ s) : Only M s₀ (State.closeWindow s c source) := by
  unfold State.closeWindow
  repeat' (first
    | with_reducible assumption
    | with_reducible refine State.modErr_only (hm := Only.sub (by decide) hm) (hk := ?_) ..
    | split)

theorem State.mxeStep_only {M : Nat} {s₀ : State} (s : State) (p : Nat) (l : List Byte) (i : Nat) (t : AccTile) (hm : 65536 &&& M = 65536)
    (hk : Only M s₀ s) : Only M s₀ (State.mxeStep s p l i t) := by
  unfold State.mxeStep
  repeat' (first
    | with_reducible assumption
    | with_reducible refine State.modCore_only (hm := Only.sub (by decide) hm) (hk := ?_) ..
    | with_reducible refine Only.ite ?_ ?_
    | split
    | dsimp only)

theorem State.mxeIssue_only {M : Nat} {s₀ : State} (s : State) (p : Nat) (hm : 1610678272 &&& M = 1610678272)
    (hk : Only M s₀ s) : Only M s₀ (State.mxeIssue s p) := by
  unfold State.mxeIssue
  repeat' (first
    | with_reducible assumption
    | with_reducible first | refine State.modCore_only (hm := Only.sub (by decide) hm) (hk := ?_) .. | refine State.span_only (hm := Only.sub (by decide) hm) (hk := ?_) .. | refine State.total_only (hm := Only.sub (by decide) hm) (hk := ?_) .. | refine State.mxeStep_only (hm := Only.sub (by decide) hm) (hk := ?_) ..
    | with_reducible refine Only.ite ?_ ?_
    | with_reducible refine Only.foldl (fun _ _ _ => ?_) ?_
    | split
    | dsimp only)

theorem State.mxeDrain_only {M : Nat} {s₀ : State} (s : State) (p i : Nat) (parity : List (Nat × Nat)) (hm : 65536 &&& M = 65536)
    (hk : Only M s₀ s) : Only M s₀ (State.mxeDrain s p i parity) := by
  unfold State.mxeDrain
  repeat' (first
    | with_reducible assumption
    | with_reducible refine State.modCore_only (hm := Only.sub (by decide) hm) (hk := ?_) ..
    | split
    | dsimp only)

theorem State.footRelease_only {M : Nat} {s₀ : State} (s : State) (p : Nat) (hm : 1073807360 &&& M = 1073807360)
    (hk : Only M s₀ s) : Only M s₀ (State.footRelease s p) := by
  unfold State.footRelease
  repeat' (first
    | with_reducible assumption
    | with_reducible first | refine State.modCore_only (hm := Only.sub (by decide) hm) (hk := ?_) .. | refine State.span_only (hm := Only.sub (by decide) hm) (hk := ?_) ..
    | split
    | dsimp only)

theorem State.raise_only {M : Nat} {s₀ : State} (s : State) (p : Nat) (fl : Flags) (hm : 65536 &&& M = 65536)
    (hk : Only M s₀ s) : Only M s₀ (State.raise s p fl) := by
  unfold State.raise
  repeat' (first
    | with_reducible assumption
    | with_reducible refine State.modCore_only (hm := Only.sub (by decide) hm) (hk := ?_) ..
    | with_reducible refine Only.ite ?_ ?_)

theorem State.mintWrite_only {M : Nat} {s₀ : State} (s : State) (a : Nat) (bs : List Byte) (ps : List Bool) (whole : Bool) (hm : 524288 &&& M = 524288)
    (hk : Only M s₀ s) : Only M s₀ (State.mintWrite s a bs ps whole) := by
  unfold State.mintWrite
  repeat' (first
    | with_reducible assumption
    | with_reducible refine Only.foldl (fun _ _ _ => ?_) ?_
    | split
    | with_reducible refine Only.set_mem (hm := Only.sub (by decide) hm) (h := ?_) ..
    | dsimp only)

theorem State.mintRow_only {M : Nat} {s₀ : State} (s : State) (f : Format) (row c0 n : Nat) (codes : List Nat) (ps : List Bool) (hm : 524288 &&& M = 524288)
    (hk : Only M s₀ s) : Only M s₀ (State.mintRow s f row c0 n codes ps) := by
  unfold State.mintRow
  repeat' (first
    | with_reducible assumption
    | with_reducible refine State.mintWrite_only (hm := Only.sub (by decide) hm) (hk := ?_) ..
    | dsimp only)

theorem State.mint_only {M : Nat} {s₀ : State} (s : State) (p : Nat) (ly : Layer) (t e r0 c0 : Nat) (rows : Region2) (hm : 851968 &&& M = 851968)
    (hk : Only M s₀ s) : Only M s₀ (State.mint s p ly t e r0 c0 rows) := by
  unfold State.mint
  repeat' (first
    | with_reducible assumption
    | with_reducible first | refine State.modCore_only (hm := Only.sub (by decide) hm) (hk := ?_) .. | refine State.raise_only (hm := Only.sub (by decide) hm) (hk := ?_) .. | refine State.mintWrite_only (hm := Only.sub (by decide) hm) (hk := ?_) .. | refine State.mintRow_only (hm := Only.sub (by decide) hm) (hk := ?_) ..
    | with_reducible refine Only.ite ?_ ?_
    | with_reducible refine Only.foldl (fun _ _ _ => ?_) ?_
    | split
    | with_reducible refine Only.set_hwm (hm := Only.sub (by decide) hm) (h := ?_) ..
    | dsimp only)

theorem State.stageRows_only {M : Nat} {s₀ : State} (s : State) (p : Nat) (l : List Byte) (r0 c0 : Nat) (rows : Region2) (hm : 524288 &&& M = 524288)
    (hk : Only M s₀ s) : Only M s₀ (State.stageRows s p l r0 c0 rows) := by
  unfold State.stageRows
  repeat' (first
    | with_reducible assumption
    | with_reducible refine State.mintWrite_only (hm := Only.sub (by decide) hm) (hk := ?_) ..
    | with_reducible refine Only.foldl (fun _ _ _ => ?_) ?_
    | split
    | dsimp only)

theorem State.regionStats_only {M : Nat} {s₀ : State} (s : State) (p : Nat) (l : List Byte) (e r0 c0 : Nat) (rows : Region2) (hm : 524288 &&& M = 524288)
    (hk : Only M s₀ s) : Only M s₀ (State.regionStats s p l e r0 c0 rows) := by
  unfold State.regionStats
  repeat' (first
    | with_reducible assumption
    | with_reducible refine State.mintWrite_only (hm := Only.sub (by decide) hm) (hk := ?_) ..
    | with_reducible refine Only.ite ?_ ?_
    | with_reducible refine Only.foldl (fun _ _ _ => ?_) ?_
    | split)

theorem State.finishRegion_only {M : Nat} {s₀ : State} (s : State) (p : Nat) (ly : Layer) (t e r0 c0 : Nat) (rows : Region2) (hm : 851968 &&& M = 851968)
    (hk : Only M s₀ s) : Only M s₀ (State.finishRegion s p ly t e r0 c0 rows) := by
  unfold State.finishRegion
  repeat' (first
    | with_reducible assumption
    | with_reducible first | refine State.raise_only (hm := Only.sub (by decide) hm) (hk := ?_) .. | refine State.mint_only (hm := Only.sub (by decide) hm) (hk := ?_) .. | refine State.stageRows_only (hm := Only.sub (by decide) hm) (hk := ?_) .. | refine State.regionStats_only (hm := Only.sub (by decide) hm) (hk := ?_) ..
    | with_reducible refine Only.ite ?_ ?_
    | dsimp only)

theorem State.endRow_only {M : Nat} {s₀ : State} (s : State) (p : Nat) (l : List Byte) (e r : Nat) (x : RowEnd) (hm : 622592 &&& M = 622592)
    (hk : Only M s₀ s) : Only M s₀ (State.endRow s p l e r x) := by
  unfold State.endRow
  repeat' (first
    | with_reducible assumption
    | with_reducible first | refine State.modCluster_only (hm := Only.sub (by decide) hm) (hk := ?_) .. | refine State.modCore_only (hm := Only.sub (by decide) hm) (hk := ?_) .. | refine State.raise_only (hm := Only.sub (by decide) hm) (hk := ?_) .. | refine State.mintWrite_only (hm := Only.sub (by decide) hm) (hk := ?_) ..
    | with_reducible refine Only.ite ?_ ?_
    | split
    | dsimp only)

theorem State.finishRowTile_only {M : Nat} {s₀ : State} (s : State) (p : Nat) (ly : Layer) (e rt : Nat) (hm : 884736 &&& M = 884736)
    (hk : Only M s₀ s) : Only M s₀ (State.finishRowTile s p ly e rt) := by
  unfold State.finishRowTile
  repeat' (first
    | with_reducible assumption
    | with_reducible first | refine State.mint_only (hm := Only.sub (by decide) hm) (hk := ?_) .. | refine State.endRow_only (hm := Only.sub (by decide) hm) (hk := ?_) ..
    | with_reducible refine Only.ite ?_ ?_
    | with_reducible refine Only.foldl (fun _ _ _ => ?_) ?_
    | split
    | dsimp only)

theorem State.epilogue_only {M : Nat} {s₀ : State} (s : State) (p : Nat) (hm : 1074593792 &&& M = 1074593792)
    (hk : Only M s₀ s) : Only M s₀ (State.epilogue s p) := by
  unfold State.epilogue
  repeat' (first
    | with_reducible assumption
    | with_reducible first | refine State.modCore_only (hm := Only.sub (by decide) hm) (hk := ?_) .. | refine State.footRelease_only (hm := Only.sub (by decide) hm) (hk := ?_) .. | refine State.raise_only (hm := Only.sub (by decide) hm) (hk := ?_) .. | refine State.finishRegion_only (hm := Only.sub (by decide) hm) (hk := ?_) ..
    | with_reducible refine Only.foldl (fun _ _ _ => ?_) ?_
    | split
    | dsimp only)

theorem State.teTile_only {M : Nat} {s₀ : State} (s : State) (p : Nat) (t : TileName) (hm : 851968 &&& M = 851968)
    (hk : Only M s₀ s) : Only M s₀ (State.teTile s p t) := by
  unfold State.teTile
  repeat' (first
    | with_reducible assumption
    | with_reducible refine State.finishRegion_only (hm := Only.sub (by decide) hm) (hk := ?_) ..
    | with_reducible refine Only.ite ?_ ?_
    | split
    | dsimp only)

theorem State.storeRegion_only {M : Nat} {s₀ : State} (s : State) (p : Nat) (ly : Layer) (t e row col rows cols : Nat) (at? : Nat → Nat → FV × Bool) (hm : 851968 &&& M = 851968)
    (hk : Only M s₀ s) : Only M s₀ (State.storeRegion s p ly t e row col rows cols at?) := by
  unfold State.storeRegion
  repeat' (first
    | with_reducible assumption
    | with_reducible refine State.mint_only (hm := Only.sub (by decide) hm) (hk := ?_) ..
    | with_reducible refine Only.ite ?_ ?_
    | split
    | dsimp only)

theorem State.sendFrame_only {M : Nat} {s₀ : State} (s : State) (n : Nat) (f : Frame) (hm : 16777232 &&& M = 16777232)
    (hk : Only M s₀ s) : Only M s₀ (State.sendFrame s n f) := by
  unfold State.sendFrame
  repeat' (first
    | with_reducible assumption
    | with_reducible first | refine State.modLink_only (hm := Only.sub (by decide) hm) (hk := ?_) .. | refine State.emit_only (hm := Only.sub (by decide) hm) (hk := ?_) ..
    | split
    | dsimp only)

theorem State.sendCtl_only {M : Nat} {s₀ : State} (s : State) (n type vc : Nat) (body : List Byte) (hm : 16777232 &&& M = 16777232)
    (hk : Only M s₀ s) : Only M s₀ (State.sendCtl s n type vc body) := by
  unfold State.sendCtl
  repeat' (first
    | with_reducible assumption
    | with_reducible refine State.sendFrame_only (hm := Only.sub (by decide) hm) (hk := ?_) ..)

theorem State.freeBuffer_only {M : Nat} {s₀ : State} (s : State) (n vc : Nat) (p : Packet) (hm : 16777232 &&& M = 16777232)
    (hk : Only M s₀ s) : Only M s₀ (State.freeBuffer s n vc p) := by
  unfold State.freeBuffer
  repeat' (first
    | with_reducible assumption
    | with_reducible first | refine State.modLink_only (hm := Only.sub (by decide) hm) (hk := ?_) .. | refine State.sendCtl_only (hm := Only.sub (by decide) hm) (hk := ?_) ..
    | with_reducible refine Only.ite ?_ ?_
    | split
    | dsimp only)

theorem State.sendOne_only {M : Nat} {s₀ : State} (s : State) (n : Nat) (q : Queued) (hm : 16777232 &&& M = 16777232)
    (hk : Only M s₀ s) : Only M s₀ (State.sendOne s n q) := by
  unfold State.sendOne
  repeat' (first
    | with_reducible assumption
    | with_reducible first | refine State.modLink_only (hm := Only.sub (by decide) hm) (hk := ?_) .. | refine State.sendFrame_only (hm := Only.sub (by decide) hm) (hk := ?_) .. | refine State.freeBuffer_only (hm := Only.sub (by decide) hm) (hk := ?_) ..
    | split
    | dsimp only)

theorem State.pumpN_only {M : Nat} {s₀ : State} (s : State) (n : Nat) (arr0 : Nat) (hm : 16777232 &&& M = 16777232) (hk : Only M s₀ s) : Only M s₀ (s.pumpN n arr0) := by
  induction arr0 generalizing s with
  | zero => exact hk
  | succ k ih =>
    unfold State.pumpN
    split
    · exact ih _ (State.sendOne_only _ _ _ (hm := Only.sub (by decide) hm) hk)
    · exact hk

theorem State.pump_only {M : Nat} {s₀ : State} (s : State) (n : Nat) (hm : 16777232 &&& M = 16777232)
    (hk : Only M s₀ s) : Only M s₀ (State.pump s n) := by
  unfold State.pump
  repeat' (first
    | with_reducible assumption
    | with_reducible first | refine State.sendCtl_only (hm := Only.sub (by decide) hm) (hk := ?_) .. | refine State.pumpN_only (hm := Only.sub (by decide) hm) (hk := ?_) ..
    | with_reducible refine Only.ite ?_ ?_
    | split
    | dsimp only)

theorem State.fenced_only {M : Nat} {s₀ : State} (s : State) (p : Packet) (out : Bool) (hm : 603981456 &&& M = 603981456)
    (hk : Only M s₀ s) : Only M s₀ (State.fenced s p out) := by
  unfold State.fenced
  repeat' (first
    | with_reducible assumption
    | with_reducible first | refine State.modRtr_only (hm := Only.sub (by decide) hm) (hk := ?_) .. | refine State.logLimited_only (hm := Only.sub (by decide) hm) (hk := ?_) ..
    | split
    | dsimp only)

theorem State.dropNoPort_only {M : Nat} {s₀ : State} (s : State) (n : Nat) (hm : 603981456 &&& M = 603981456)
    (hk : Only M s₀ s) : Only M s₀ (State.dropNoPort s n) := by
  unfold State.dropNoPort
  repeat' (first
    | with_reducible assumption
    | with_reducible first | refine State.modRtr_only (hm := Only.sub (by decide) hm) (hk := ?_) .. | refine State.logLimited_only (hm := Only.sub (by decide) hm) (hk := ?_) ..
    | split)

theorem State.moved_only {M : Nat} {s₀ : State} (s : State) (hm : 67108864 &&& M = 67108864)
    (hk : Only M s₀ s) : Only M s₀ (State.moved s) := by
  unfold State.moved
  repeat' (first
    | with_reducible assumption
    | with_reducible refine State.modRtr_only (hm := Only.sub (by decide) hm) (hk := ?_) ..
    | split)

theorem State.enqueue_only {M : Nat} {s₀ : State} (s : State) (n : Nat) (q : Queued) (hm : 16777232 &&& M = 16777232)
    (hk : Only M s₀ s) : Only M s₀ (State.enqueue s n q) := by
  unfold State.enqueue
  repeat' (first
    | with_reducible assumption
    | with_reducible first | refine State.modLink_only (hm := Only.sub (by decide) hm) (hk := ?_) .. | refine State.pump_only (hm := Only.sub (by decide) hm) (hk := ?_) ..
    | split)

theorem State.launch_only {M : Nat} {s₀ : State} (s : State) (p : Packet) (hm : 620758672 &&& M = 620758672)
    (hk : Only M s₀ s) : Only M s₀ (State.launch s p).2 := by
  unfold State.launch
  repeat' (first
    | with_reducible assumption
    | with_reducible first | refine State.fenced_only (hm := Only.sub (by decide) hm) (hk := ?_) .. | refine State.dropNoPort_only (hm := Only.sub (by decide) hm) (hk := ?_) .. | refine State.moved_only (hm := Only.sub (by decide) hm) (hk := ?_) .. | refine State.enqueue_only (hm := Only.sub (by decide) hm) (hk := ?_) ..
    | with_reducible refine Only.ite2 ?_ ?_
    | split
    | dsimp only)

theorem State.launchAnswer_only {M : Nat} {s₀ : State} (s : State) (p : Packet) (hm : 620758672 &&& M = 620758672)
    (hk : Only M s₀ s) : Only M s₀ (State.launchAnswer s p) := by
  unfold State.launchAnswer
  repeat' (first
    | with_reducible assumption
    | with_reducible first | refine State.dropNoPort_only (hm := Only.sub (by decide) hm) (hk := ?_) .. | refine State.moved_only (hm := Only.sub (by decide) hm) (hk := ?_) .. | refine State.enqueue_only (hm := Only.sub (by decide) hm) (hk := ?_) ..
    | with_reducible refine Only.ite ?_ ?_
    | split
    | dsimp only)

theorem State.inject_only {M : Nat} {s₀ : State} (s : State) (p : Packet) (hm : 620758672 &&& M = 620758672)
    (hk : Only M s₀ s) : Only M s₀ (State.inject s p).2 := by
  unfold State.inject
  repeat' (first
    | with_reducible assumption
    | with_reducible first | refine State.modRtr_only (hm := Only.sub (by decide) hm) (hk := ?_) .. | refine State.launch_only (hm := Only.sub (by decide) hm) (hk := ?_) ..
    | with_reducible refine Only.ite2 ?_ ?_
    | split
    | dsimp only)

theorem State.sendLocal_only {M : Nat} {s₀ : State} (s : State) (n addr : Nat) (payload : List Byte) (hm : 16777232 &&& M = 16777232)
    (hk : Only M s₀ s) : Only M s₀ (State.sendLocal s n addr payload) := by
  unfold State.sendLocal
  repeat' (first
    | with_reducible assumption
    | with_reducible refine State.enqueue_only (hm := Only.sub (by decide) hm) (hk := ?_) ..)

theorem State.spoil_only {M : Nat} {s₀ : State} (s : State) (p : Nat) (st : Status) (hm : 65536 &&& M = 65536)
    (hk : Only M s₀ s) : Only M s₀ (State.spoil s p st) := by
  unfold State.spoil
  repeat' (first
    | with_reducible assumption
    | with_reducible refine State.modCore_only (hm := Only.sub (by decide) hm) (hk := ?_) ..
    | split)

theorem State.using_only {M : Nat} {s₀ : State} (s : State) (c : Nat) (hm : 32768 &&& M = 32768)
    (hk : Only M s₀ s) : Only M s₀ (State.using s c) := by
  unfold State.using
  repeat' (first
    | with_reducible assumption
    | with_reducible refine State.modClock_only (hm := Only.sub (by decide) hm) (hk := ?_) ..
    | split)

theorem State.wake_only {M : Nat} {s₀ : State} (s : State) (c : Nat) (hm : 536903682 &&& M = 536903682)
    (hk : Only M s₀ s) : Only M s₀ (State.wake s c) := by
  unfold State.wake
  repeat' (first
    | with_reducible assumption
    | with_reducible first | refine State.modClock_only (hm := Only.sub (by decide) hm) (hk := ?_) .. | refine State.reach_only (hm := Only.sub (by decide) hm) (hk := ?_) .. | refine State.using_only (hm := Only.sub (by decide) hm) (hk := ?_) ..
    | with_reducible refine Only.ite ?_ ?_
    | split
    | dsimp only)

theorem State.toSequencer_only {M : Nat} {s₀ : State} (s : State) (c : Nat) (via : Via) (r : CoinResult) (hm : 32768 &&& M = 32768)
    (hk : Only M s₀ s) : Only M s₀ (State.toSequencer s c via r) := by
  unfold State.toSequencer
  repeat' (first
    | with_reducible assumption
    | with_reducible refine State.modCluster_only (hm := Only.sub (by decide) hm) (hk := ?_) ..
    | split
    | dsimp only)

theorem State.toContext_only {M : Nat} {s₀ : State} (s : State) (p i : Nat) (r : CoinResult) (hm : 65536 &&& M = 65536)
    (hk : Only M s₀ s) : Only M s₀ (State.toContext s p i r) := by
  unfold State.toContext
  repeat' (first
    | with_reducible assumption
    | with_reducible first | refine State.modCore_only (hm := Only.sub (by decide) hm) (hk := ?_) .. | refine State.spoil_only (hm := Only.sub (by decide) hm) (hk := ?_) ..
    | with_reducible refine Only.ite ?_ ?_
    | split
    | dsimp only)

theorem State.toRequester_only {M : Nat} {s₀ : State} (s : State) (c : Nat) (who : Requester) (via : Via) (r : CoinResult) (hm : 98304 &&& M = 98304)
    (hk : Only M s₀ s) : Only M s₀ (State.toRequester s c who via r) := by
  unfold State.toRequester
  repeat' (first
    | with_reducible assumption
    | with_reducible first | refine State.toSequencer_only (hm := Only.sub (by decide) hm) (hk := ?_) .. | refine State.toContext_only (hm := Only.sub (by decide) hm) (hk := ?_) ..
    | split)

theorem State.replyIn_only {M : Nat} {s₀ : State} (s : State) (src : Coord) (q c tag : Nat) (r : CoinResult) (hm : 604079760 &&& M = 604079760)
    (hk : Only M s₀ s) : Only M s₀ (State.replyIn s src q c tag r) := by
  unfold State.replyIn
  repeat' (first
    | with_reducible assumption
    | with_reducible first | refine State.modCluster_only (hm := Only.sub (by decide) hm) (hk := ?_) .. | refine State.modRtr_only (hm := Only.sub (by decide) hm) (hk := ?_) .. | refine State.log_only (hm := Only.sub (by decide) hm) (hk := ?_) .. | refine State.toRequester_only (hm := Only.sub (by decide) hm) (hk := ?_) ..
    | split
    | dsimp only)

theorem State.answer_only {M : Nat} {s₀ : State} (s : State) (c q : Nat) (who : Requester) (r : CoinResult) (hm : 620856976 &&& M = 620856976)
    (hk : Only M s₀ s) : Only M s₀ (State.answer s c q who r) := by
  unfold State.answer
  repeat' (first
    | with_reducible assumption
    | with_reducible first | refine State.inject_only (hm := Only.sub (by decide) hm) (hk := ?_) .. | refine State.toRequester_only (hm := Only.sub (by decide) hm) (hk := ?_) .. | refine State.replyIn_only (hm := Only.sub (by decide) hm) (hk := ?_) ..
    | with_reducible refine Only.ite ?_ ?_
    | split
    | dsimp only)

theorem State.modQueue_only {M : Nat} {s₀ : State} (s : State) (c q : Nat) (f : Queue → Queue) (hm : 32768 &&& M = 32768)
    (hk : Only M s₀ s) : Only M s₀ (State.modQueue s c q f) := by
  unfold State.modQueue
  repeat' (first
    | with_reducible assumption
    | with_reducible refine State.modCluster_only (hm := Only.sub (by decide) hm) (hk := ?_) ..
    | split)

theorem State.release_only {M : Nat} {s₀ : State} (s : State) (c q : Nat) (hm : 620856976 &&& M = 620856976)
    (hk : Only M s₀ s) : Only M s₀ (State.release s c q) := by
  unfold State.release
  repeat' (first
    | with_reducible assumption
    | with_reducible first | refine State.answer_only (hm := Only.sub (by decide) hm) (hk := ?_) .. | refine State.modQueue_only (hm := Only.sub (by decide) hm) (hk := ?_) ..
    | with_reducible refine Only.foldl (fun _ _ _ => ?_) ?_
    | split
    | dsimp only)

theorem State.putCoins_only {M : Nat} {s₀ : State} (s : State) (c q : Nat) (coins : List W32) (hm : 620856976 &&& M = 620856976)
    (hk : Only M s₀ s) : Only M s₀ (State.putCoins s c q coins) := by
  unfold State.putCoins
  repeat' (first
    | with_reducible assumption
    | with_reducible first | refine State.modCluster_only (hm := Only.sub (by decide) hm) (hk := ?_) .. | refine State.logLimited_only (hm := Only.sub (by decide) hm) (hk := ?_) .. | refine State.modQueue_only (hm := Only.sub (by decide) hm) (hk := ?_) .. | refine State.release_only (hm := Only.sub (by decide) hm) (hk := ?_) ..
    | with_reducible refine Only.ite ?_ ?_
    | split
    | dsimp only)

theorem State.joinQueue_only {M : Nat} {s₀ : State} (s : State) (c q : Nat) (who : Requester) (n : Option Nat) (hm : 620856976 &&& M = 620856976)
    (hk : Only M s₀ s) : Only M s₀ (State.joinQueue s c q who n) := by
  unfold State.joinQueue
  repeat' (first
    | with_reducible assumption
    | with_reducible first | refine State.modCluster_only (hm := Only.sub (by decide) hm) (hk := ?_) .. | refine State.answer_only (hm := Only.sub (by decide) hm) (hk := ?_) .. | refine State.modQueue_only (hm := Only.sub (by decide) hm) (hk := ?_) .. | refine State.release_only (hm := Only.sub (by decide) hm) (hk := ?_) ..
    | with_reducible refine Only.ite ?_ ?_
    | split)

theorem State.dropCoin_only {M : Nat} {s₀ : State} (s : State) (c : Nat) (hm : 536905360 &&& M = 536905360)
    (hk : Only M s₀ s) : Only M s₀ (State.dropCoin s c) := by
  unfold State.dropCoin
  repeat' (first
    | with_reducible assumption
    | with_reducible first | refine State.modCluster_only (hm := Only.sub (by decide) hm) (hk := ?_) .. | refine State.log_only (hm := Only.sub (by decide) hm) (hk := ?_) ..
    | with_reducible refine Only.ite ?_ ?_
    | split
    | dsimp only)

theorem State.coinApply_only {M : Nat} {s₀ : State} (s : State) (c q : Nat) (who : Requester) (op : CoinOp) (hm : 620856978 &&& M = 620856978)
    (hk : Only M s₀ s) : Only M s₀ (State.coinApply s c q who op) := by
  unfold State.coinApply
  repeat' (first
    | with_reducible assumption
    | with_reducible first | refine State.wake_only (hm := Only.sub (by decide) hm) (hk := ?_) .. | refine State.answer_only (hm := Only.sub (by decide) hm) (hk := ?_) .. | refine State.putCoins_only (hm := Only.sub (by decide) hm) (hk := ?_) .. | refine State.joinQueue_only (hm := Only.sub (by decide) hm) (hk := ?_) .. | refine State.dropCoin_only (hm := Only.sub (by decide) hm) (hk := ?_) ..
    | with_reducible refine Only.ite ?_ ?_
    | split
    | dsimp only)

theorem State.collectiveCoin_only {M : Nat} {s₀ : State} (s : State) (c q : Nat) (v : W32) (hm : 620856978 &&& M = 620856978)
    (hk : Only M s₀ s) : Only M s₀ (State.collectiveCoin s c q v) := by
  unfold State.collectiveCoin
  repeat' (first
    | with_reducible assumption
    | with_reducible refine State.coinApply_only (hm := Only.sub (by decide) hm) (hk := ?_) ..)

theorem State.waitCoin_only {M : Nat} {s₀ : State} (s : State) (c : Nat) (arr0 : Requester) (hm : 98304 &&& M = 98304)
    (hk : Only M s₀ s) : Only M s₀ (State.waitCoin s c arr0) := by
  unfold State.waitCoin
  repeat' (first
    | with_reducible assumption
    | with_reducible first | refine State.modSeq_only (hm := Only.sub (by decide) hm) (hk := ?_) .. | refine State.modCore_only (hm := Only.sub (by decide) hm) (hk := ?_) ..
    | split)

theorem State.coinLocal_only {M : Nat} {s₀ : State} (s : State) (c q : Nat) (who : Requester) (op : CoinOp) (hm : 620856978 &&& M = 620856978)
    (hk : Only M s₀ s) : Only M s₀ (State.coinLocal s c q who op) := by
  unfold State.coinLocal
  repeat' (first
    | with_reducible assumption
    | with_reducible first | refine State.coinApply_only (hm := Only.sub (by decide) hm) (hk := ?_) .. | refine State.waitCoin_only (hm := Only.sub (by decide) hm) (hk := ?_) ..
    | with_reducible refine Only.ite ?_ ?_
    | split)

theorem State.coinRemote_only {M : Nat} {s₀ : State} (s : State) (c : Nat) (who : Requester) (dest : Coord) (tc q : Nat) (op : CoinOp) (hm : 620856978 &&& M = 620856978)
    (hk : Only M s₀ s) : Only M s₀ (State.coinRemote s c who dest tc q op) := by
  unfold State.coinRemote
  repeat' (first
    | with_reducible assumption
    | with_reducible first | refine State.modRtr_only (hm := Only.sub (by decide) hm) (hk := ?_) .. | refine State.inject_only (hm := Only.sub (by decide) hm) (hk := ?_) .. | refine State.toRequester_only (hm := Only.sub (by decide) hm) (hk := ?_) .. | refine State.coinApply_only (hm := Only.sub (by decide) hm) (hk := ?_) ..
    | with_reducible refine Only.ite ?_ ?_
    | with_reducible refine Only.pair (by assumption) ?_
    | split
    | dsimp only)

theorem State.consumed_only {M : Nat} {s₀ : State} (s : State) (p : Packet) (hm : 83886096 &&& M = 83886096)
    (hk : Only M s₀ s) : Only M s₀ (State.consumed s p) := by
  unfold State.consumed
  repeat' (first
    | with_reducible assumption
    | with_reducible first | refine State.modRtr_only (hm := Only.sub (by decide) hm) (hk := ?_) .. | refine State.freeBuffer_only (hm := Only.sub (by decide) hm) (hk := ?_) ..
    | split
    | dsimp only)

theorem State.takeIn_only {M : Nat} {s₀ : State} (s : State) (p q : Packet) (hm : 67108864 &&& M = 67108864)
    (hk : Only M s₀ s) : Only M s₀ (State.takeIn s p q) := by
  unfold State.takeIn
  repeat' (first
    | with_reducible assumption
    | with_reducible refine State.modRtr_only (hm := Only.sub (by decide) hm) (hk := ?_) ..
    | split)

theorem State.freeKept_only {M : Nat} {s₀ : State} (s : State) (hm : 83886096 &&& M = 83886096)
    (hk : Only M s₀ s) : Only M s₀ (State.freeKept s) := by
  unfold State.freeKept
  repeat' (first
    | with_reducible assumption
    | with_reducible first | refine State.modRtr_only (hm := Only.sub (by decide) hm) (hk := ?_) .. | refine State.freeBuffer_only (hm := Only.sub (by decide) hm) (hk := ?_) ..
    | with_reducible refine Only.foldl (fun _ _ _ => ?_) ?_
    | split
    | dsimp only)

theorem State.badPacket_only {M : Nat} {s₀ : State} (s : State) (hm : 67108864 &&& M = 67108864)
    (hk : Only M s₀ s) : Only M s₀ (State.badPacket s) := by
  unfold State.badPacket
  repeat' (first
    | with_reducible assumption
    | with_reducible refine State.modRtr_only (hm := Only.sub (by decide) hm) (hk := ?_) ..
    | split)

theorem State.coinRequest_only {M : Nat} {s₀ : State} (s : State) (p : Packet) (hm : 620856978 &&& M = 620856978)
    (hk : Only M s₀ s) : Only M s₀ (State.coinRequest s p) := by
  unfold State.coinRequest
  repeat' (first
    | with_reducible assumption
    | with_reducible first | refine State.coinApply_only (hm := Only.sub (by decide) hm) (hk := ?_) .. | refine State.consumed_only (hm := Only.sub (by decide) hm) (hk := ?_) .. | refine State.badPacket_only (hm := Only.sub (by decide) hm) (hk := ?_) ..
    | with_reducible refine Only.ite ?_ ?_
    | split
    | dsimp only)

theorem State.coinTimedOut_only {M : Nat} {s₀ : State} (s : State) (c q : Nat) (who : Requester) (deadline : Nat) (w : Option Waiter) (hm : 620856978 &&& M = 620856978)
    (hk : Only M s₀ s) : Only M s₀ (State.coinTimedOut s c q who deadline w) := by
  unfold State.coinTimedOut
  repeat' (first
    | with_reducible assumption
    | with_reducible first | refine State.modCluster_only (hm := Only.sub (by decide) hm) (hk := ?_) .. | refine State.reach_only (hm := Only.sub (by decide) hm) (hk := ?_) .. | refine State.logLimited_only (hm := Only.sub (by decide) hm) (hk := ?_) .. | refine State.toRequester_only (hm := Only.sub (by decide) hm) (hk := ?_) .. | refine State.answer_only (hm := Only.sub (by decide) hm) (hk := ?_) .. | refine State.modQueue_only (hm := Only.sub (by decide) hm) (hk := ?_) .. | refine State.release_only (hm := Only.sub (by decide) hm) (hk := ?_) ..
    | split
    | dsimp only)

theorem State.dropOwnWaits_only {M : Nat} {s₀ : State} (s : State) (c : Nat) (hm : 67141632 &&& M = 67141632)
    (hk : Only M s₀ s) : Only M s₀ (State.dropOwnWaits s c) := by
  unfold State.dropOwnWaits
  repeat' (first
    | with_reducible assumption
    | with_reducible first | refine State.modCluster_only (hm := Only.sub (by decide) hm) (hk := ?_) .. | refine State.modRtr_only (hm := Only.sub (by decide) hm) (hk := ?_) ..
    | split)

theorem State.ownerReset_only {M : Nat} {s₀ : State} (s : State) (c : Nat) (wake : Bool) (hm : 620856976 &&& M = 620856976)
    (hk : Only M s₀ s) : Only M s₀ (State.ownerReset s c wake).2 := by
  unfold State.ownerReset
  repeat' (first
    | with_reducible assumption
    | with_reducible first | refine State.modCluster_only (hm := Only.sub (by decide) hm) (hk := ?_) .. | refine State.answer_only (hm := Only.sub (by decide) hm) (hk := ?_) .. | refine State.dropOwnWaits_only (hm := Only.sub (by decide) hm) (hk := ?_) ..
    | with_reducible refine Only.ite ?_ ?_
    | with_reducible refine Only.foldl (fun _ _ _ => ?_) ?_
    | split
    | dsimp only)

theorem State.endWindow_only {M : Nat} {s₀ : State} (s : State) (c : Nat) (hm : 536905360 &&& M = 536905360)
    (hk : Only M s₀ s) : Only M s₀ (State.endWindow s c) := by
  unfold State.endWindow
  repeat' (first
    | with_reducible assumption
    | with_reducible first | refine State.modCluster_only (hm := Only.sub (by decide) hm) (hk := ?_) .. | refine State.log_only (hm := Only.sub (by decide) hm) (hk := ?_) ..
    | with_reducible refine Only.ite ?_ ?_
    | split
    | dsimp only)

theorem State.saveQueues_only {M : Nat} {s₀ : State} (s : State) (c : Nat) (hm : 32768 &&& M = 32768)
    (hk : Only M s₀ s) : Only M s₀ (State.saveQueues s c) := by
  unfold State.saveQueues
  repeat' (first
    | with_reducible assumption
    | with_reducible refine State.modCluster_only (hm := Only.sub (by decide) hm) (hk := ?_) ..
    | split)

theorem State.restoreQueues_only {M : Nat} {s₀ : State} (s : State) (c : Nat) (saved : Tab Queue) (hm : 620856976 &&& M = 620856976)
    (hk : Only M s₀ s) : Only M s₀ (State.restoreQueues s c saved) := by
  unfold State.restoreQueues
  repeat' (first
    | with_reducible assumption
    | with_reducible first | refine State.modCluster_only (hm := Only.sub (by decide) hm) (hk := ?_) .. | refine State.release_only (hm := Only.sub (by decide) hm) (hk := ?_) ..
    | with_reducible refine Only.foldl (fun _ _ _ => ?_) ?_
    | split
    | dsimp only)

theorem State.settleRing_only {M : Nat} {s₀ : State} (s : State) (n : Nat) (hm : 1024 &&& M = 1024)
    (hk : Only M s₀ s) : Only M s₀ (State.settleRing s n) := by
  unfold State.settleRing
  repeat' (first
    | with_reducible assumption
    | with_reducible refine State.modRing_only (hm := Only.sub (by decide) hm) (hk := ?_) ..
    | with_reducible refine Only.ite ?_ ?_
    | split)

theorem State.writeEntry_only {M : Nat} {s₀ : State} (s : State) (n : Nat) (c : Completion) (hm : 1040 &&& M = 1040)
    (hk : Only M s₀ s) : Only M s₀ (State.writeEntry s n c) := by
  unfold State.writeEntry
  repeat' (first
    | with_reducible assumption
    | with_reducible first | refine State.modRing_only (hm := Only.sub (by decide) hm) (hk := ?_) .. | refine State.emit_only (hm := Only.sub (by decide) hm) (hk := ?_) .. | refine State.signal_only (hm := Only.sub (by decide) hm) (hk := ?_) ..
    | dsimp only)

theorem State.postEntry_only {M : Nat} {s₀ : State} (s : State) (n : Nat) (c : Completion) (hm : 1040 &&& M = 1040)
    (hk : Only M s₀ s) : Only M s₀ (State.postEntry s n c) := by
  unfold State.postEntry
  repeat' (first
    | with_reducible assumption
    | with_reducible first | refine State.modRing_only (hm := Only.sub (by decide) hm) (hk := ?_) .. | refine State.settleRing_only (hm := Only.sub (by decide) hm) (hk := ?_) .. | refine State.writeEntry_only (hm := Only.sub (by decide) hm) (hk := ?_) ..
    | with_reducible refine Only.ite ?_ ?_
    | split)

theorem State.flushHeld_only {M : Nat} {s₀ : State} (s : State) (n : Nat) (arr0 : Nat) (hm : 1040 &&& M = 1040) (hk : Only M s₀ s) : Only M s₀ (s.flushHeld n arr0) := by
  induction arr0 generalizing s with
  | zero => unfold State.flushHeld; exact State.settleRing_only _ _ (hm := Only.sub (by decide) hm) hk
  | succ k ih =>
    unfold State.flushHeld
    split
    · exact State.settleRing_only _ _ (hm := Only.sub (by decide) hm) hk
    · split
      · exact hk
      · exact ih _ (State.writeEntry_only _ _ _ (hm := Only.sub (by decide) hm) (State.modRing_only _ _ _ (hm := Only.sub (by decide) hm) hk))

theorem State.complete_only {M : Nat} {s₀ : State} (s : State) (d : Desc) (st : Status) (result : Nat) (detail : Nat) (guard : Nat) (cluster : Nat) (hm : 1040 &&& M = 1040)
    (hk : Only M s₀ s) : Only M s₀ (State.complete s d st result detail guard cluster) := by
  unfold State.complete
  repeat' (first
    | with_reducible assumption
    | with_reducible first | refine State.modHost_only (hm := Only.sub (by decide) hm) (hk := ?_) .. | refine State.postEntry_only (hm := Only.sub (by decide) hm) (hk := ?_) ..
    | split
    | dsimp only)

theorem State.forgetDesc_only {M : Nat} {s₀ : State} (s : State) (d : Desc) (hm : 67109888 &&& M = 67109888)
    (hk : Only M s₀ s) : Only M s₀ (State.forgetDesc s d) := by
  unfold State.forgetDesc
  repeat' (first
    | with_reducible assumption
    | with_reducible first | refine State.modHost_only (hm := Only.sub (by decide) hm) (hk := ?_) .. | refine State.modRtr_only (hm := Only.sub (by decide) hm) (hk := ?_) ..
    | split
    | dsimp only)

theorem State.dmaEnd_only {M : Nat} {s₀ : State} (s : State) (x : DmaRun) (st : Status) (hm : 67109904 &&& M = 67109904)
    (hk : Only M s₀ s) : Only M s₀ (State.dmaEnd s x st) := by
  unfold State.dmaEnd
  repeat' (first
    | with_reducible assumption
    | with_reducible first | refine State.complete_only (hm := Only.sub (by decide) hm) (hk := ?_) .. | refine State.forgetDesc_only (hm := Only.sub (by decide) hm) (hk := ?_) ..)

theorem State.dmasDone_only {M : Nat} {s₀ : State} (s : State) (hm : 67109904 &&& M = 67109904)
    (hk : Only M s₀ s) : Only M s₀ (State.dmasDone s) := by
  unfold State.dmasDone
  repeat' (first
    | with_reducible assumption
    | with_reducible refine State.dmaEnd_only (hm := Only.sub (by decide) hm) (hk := ?_) ..
    | with_reducible refine Only.foldl (fun _ _ _ => ?_) ?_
    | split
    | dsimp only)

theorem State.dmasDrop_only {M : Nat} {s₀ : State} (s : State) (out : List Packet) (hm : 67109904 &&& M = 67109904)
    (hk : Only M s₀ s) : Only M s₀ (State.dmasDrop s out) := by
  unfold State.dmasDrop
  repeat' (first
    | with_reducible assumption
    | with_reducible refine State.dmaEnd_only (hm := Only.sub (by decide) hm) (hk := ?_) ..
    | with_reducible refine Only.foldl (fun _ _ _ => ?_) ?_
    | split
    | dsimp only)

theorem State.contain_only {M : Nat} {s₀ : State} (s : State) (u : UnitName) (hm : 131072 &&& M = 131072)
    (hk : Only M s₀ s) : Only M s₀ (State.contain s u) := by
  unfold State.contain
  repeat' (first
    | with_reducible assumption
    | with_reducible refine State.modUnit_only (hm := Only.sub (by decide) hm) (hk := ?_) ..
    | split)

theorem State.fenceDone_only {M : Nat} {s₀ : State} (s : State) (u : UnitName) (hm : 132112 &&& M = 132112)
    (hk : Only M s₀ s) : Only M s₀ (State.fenceDone s u) := by
  unfold State.fenceDone
  repeat' (first
    | with_reducible assumption
    | with_reducible first | refine State.modUnit_only (hm := Only.sub (by decide) hm) (hk := ?_) .. | refine State.complete_only (hm := Only.sub (by decide) hm) (hk := ?_) ..
    | with_reducible refine Only.ite ?_ ?_
    | split)

theorem State.fencesDone_only {M : Nat} {s₀ : State} (s : State) (hm : 132112 &&& M = 132112)
    (hk : Only M s₀ s) : Only M s₀ (State.fencesDone s) := by
  unfold State.fencesDone
  repeat' (first
    | with_reducible assumption
    | with_reducible refine State.fenceDone_only (hm := Only.sub (by decide) hm) (hk := ?_) ..
    | with_reducible refine Only.foldl (fun _ _ _ => ?_) ?_
    | split)

end Sys2Proof.Machine
end

