-- ==== Sys2Proof/Laws/OnlyCluster.lean ====
section
/-!
SUPPORT. `Only` of every operation on the state, part: the clusters: plans, sequencers, storage errors, tiles, coins.
-/
set_option autoImplicit false
set_option linter.unusedVariables false
namespace Sys2Proof.Machine

theorem State.sendRead_only {M : Nat} {s₀ : State} (s : State) (dest : Coord) (src : Nat) (w : ReadWait) (hm : 620758672 &&& M = 620758672)
    (hk : Only M s₀ s) : Only M s₀ (State.sendRead s dest src w).2 := by
  unfold State.sendRead
  repeat' (first
    | with_reducible assumption
    | with_reducible first | refine State.modRtr_only (hm := Only.sub (by decide) hm) (hk := ?_) .. | refine State.inject_only (hm := Only.sub (by decide) hm) (hk := ?_) ..
    | with_reducible refine Only.pair (by assumption) ?_
    | split
    | dsimp only)

theorem State.modLb_only {M : Nat} {s₀ : State} (s : State) (c b : Nat) (f : LandingBuf → LandingBuf) (hm : 32768 &&& M = 32768)
    (hk : Only M s₀ s) : Only M s₀ (State.modLb s c b f) := by
  unfold State.modLb
  repeat' (first
    | with_reducible assumption
    | with_reducible refine State.modCluster_only (hm := Only.sub (by decide) hm) (hk := ?_) ..
    | split)

theorem State.wakeBuffer_only {M : Nat} {s₀ : State} (s : State) (c b : Nat) (hm : 65536 &&& M = 65536)
    (hk : Only M s₀ s) : Only M s₀ (State.wakeBuffer s c b) := by
  unfold State.wakeBuffer
  repeat' (first
    | with_reducible assumption
    | with_reducible refine State.modCore_only (hm := Only.sub (by decide) hm) (hk := ?_) ..
    | with_reducible refine Only.foldl (fun _ _ _ => ?_) ?_
    | split
    | dsimp only)

theorem State.emptyBuffer_only {M : Nat} {s₀ : State} (s : State) (c b : Nat) (hm : 98304 &&& M = 98304)
    (hk : Only M s₀ s) : Only M s₀ (State.emptyBuffer s c b) := by
  unfold State.emptyBuffer
  repeat' (first
    | with_reducible assumption
    | with_reducible first | refine State.modLb_only (hm := Only.sub (by decide) hm) (hk := ?_) .. | refine State.wakeBuffer_only (hm := Only.sub (by decide) hm) (hk := ?_) ..
    | split)

theorem State.filled_only {M : Nat} {s₀ : State} (s : State) (c b n : Nat) (hm : 98304 &&& M = 98304)
    (hk : Only M s₀ s) : Only M s₀ (State.filled s c b n) := by
  unfold State.filled
  repeat' (first
    | with_reducible assumption
    | with_reducible first | refine State.using_only (hm := Only.sub (by decide) hm) (hk := ?_) .. | refine State.modLb_only (hm := Only.sub (by decide) hm) (hk := ?_) .. | refine State.wakeBuffer_only (hm := Only.sub (by decide) hm) (hk := ?_) ..
    | with_reducible refine Only.ite ?_ ?_
    | split
    | dsimp only)

theorem State.fillFailed_only {M : Nat} {s₀ : State} (s : State) (c b : Nat) (st : Status) (hm : 67207168 &&& M = 67207168)
    (hk : Only M s₀ s) : Only M s₀ (State.fillFailed s c b st) := by
  unfold State.fillFailed
  repeat' (first
    | with_reducible assumption
    | with_reducible first | refine State.modCore_only (hm := Only.sub (by decide) hm) (hk := ?_) .. | refine State.modRtr_only (hm := Only.sub (by decide) hm) (hk := ?_) .. | refine State.modLb_only (hm := Only.sub (by decide) hm) (hk := ?_) ..
    | with_reducible refine Only.foldl (fun _ _ _ => ?_) ?_
    | split
    | dsimp only)

theorem State.fillPiece_only {M : Nat} {s₀ : State} (s : State) (c b : Nat) (dest : Coord) (src dst n : Nat) (hm : 622429840 &&& M = 622429840)
    (hk : Only M s₀ s) : Only M s₀ (State.fillPiece s c b dest src dst n) := by
  unfold State.fillPiece
  repeat' (first
    | with_reducible assumption
    | with_reducible first | refine State.copyMem_only (hm := Only.sub (by decide) hm) (hk := ?_) .. | refine State.log_only (hm := Only.sub (by decide) hm) (hk := ?_) .. | refine State.sendRead_only (hm := Only.sub (by decide) hm) (hk := ?_) .. | refine State.filled_only (hm := Only.sub (by decide) hm) (hk := ?_) .. | refine State.fillFailed_only (hm := Only.sub (by decide) hm) (hk := ?_) ..
    | with_reducible refine Only.ite ?_ ?_
    | with_reducible refine Only.pair (by assumption) ?_
    | split)

theorem State.cancelBuffer_only {M : Nat} {s₀ : State} (s : State) (c b : Nat) (hm : 67207168 &&& M = 67207168)
    (hk : Only M s₀ s) : Only M s₀ (State.cancelBuffer s c b) := by
  unfold State.cancelBuffer
  repeat' (first
    | with_reducible assumption
    | with_reducible first | refine State.modRtr_only (hm := Only.sub (by decide) hm) (hk := ?_) .. | refine State.emptyBuffer_only (hm := Only.sub (by decide) hm) (hk := ?_) ..
    | split)

theorem State.issueFill_only {M : Nat} {s₀ : State} (s : State) (i : Nat) (hm : 630818448 &&& M = 630818448)
    (hk : Only M s₀ s) : Only M s₀ (State.issueFill s i) := by
  unfold State.issueFill
  repeat' (first
    | with_reducible assumption
    | with_reducible first | refine State.modCol_only (hm := Only.sub (by decide) hm) (hk := ?_) .. | refine State.modLb_only (hm := Only.sub (by decide) hm) (hk := ?_) .. | refine State.fillFailed_only (hm := Only.sub (by decide) hm) (hk := ?_) .. | refine State.fillPiece_only (hm := Only.sub (by decide) hm) (hk := ?_) .. | refine State.cancelBuffer_only (hm := Only.sub (by decide) hm) (hk := ?_) ..
    | with_reducible refine Only.ite ?_ ?_
    | with_reducible refine Only.foldl (fun _ _ _ => ?_) ?_
    | split
    | dsimp only)

theorem State.runAhead_only {M : Nat} {s₀ : State} (s : State) (ahead : List (Nat × Nat)) (hm : 630818448 &&& M = 630818448)
    (hk : Only M s₀ s) : Only M s₀ (State.runAhead s ahead) := by
  unfold State.runAhead
  repeat' (first
    | with_reducible assumption
    | with_reducible refine State.issueFill_only (hm := Only.sub (by decide) hm) (hk := ?_) ..
    | with_reducible refine Only.foldl (fun _ _ _ => ?_) ?_
    | split)

theorem State.cancelFills_only {M : Nat} {s₀ : State} (s : State) (c : Nat) (hm : 75595776 &&& M = 75595776)
    (hk : Only M s₀ s) : Only M s₀ (State.cancelFills s c) := by
  unfold State.cancelFills
  repeat' (first
    | with_reducible assumption
    | with_reducible first | refine State.modCol_only (hm := Only.sub (by decide) hm) (hk := ?_) .. | refine State.cancelBuffer_only (hm := Only.sub (by decide) hm) (hk := ?_) ..
    | with_reducible refine Only.foldl (fun _ _ _ => ?_) ?_
    | split
    | dsimp only)

theorem State.advance_only {M : Nat} {s₀ : State} (s : State) (c dt : Nat) (hm : 1073840128 &&& M = 1073840128)
    (hk : Only M s₀ s) : Only M s₀ (State.advance s c dt) := by
  unfold State.advance
  repeat' (first
    | with_reducible assumption
    | with_reducible first | refine State.modSeq_only (hm := Only.sub (by decide) hm) (hk := ?_) .. | refine State.modCore_only (hm := Only.sub (by decide) hm) (hk := ?_) .. | refine State.span_only (hm := Only.sub (by decide) hm) (hk := ?_) ..
    | with_reducible refine Only.ite ?_ ?_
    | with_reducible refine Only.foldl (fun _ _ _ => ?_) ?_
    | split
    | dsimp only)

theorem State.dropSeqWaits_only {M : Nat} {s₀ : State} (s : State) (c : Nat) (hm : 620856976 &&& M = 620856976)
    (hk : Only M s₀ s) : Only M s₀ (State.dropSeqWaits s c) := by
  unfold State.dropSeqWaits
  repeat' (first
    | with_reducible assumption
    | with_reducible first | refine State.modCluster_only (hm := Only.sub (by decide) hm) (hk := ?_) .. | refine State.modRtr_only (hm := Only.sub (by decide) hm) (hk := ?_) .. | refine State.modQueue_only (hm := Only.sub (by decide) hm) (hk := ?_) .. | refine State.release_only (hm := Only.sub (by decide) hm) (hk := ?_) ..
    | with_reducible refine Only.foldl (fun _ _ _ => ?_) ?_
    | split
    | dsimp only)

theorem State.releaseBuffers_only {M : Nat} {s₀ : State} (s : State) (c : Nat) (bs : List Nat) (hm : 67207168 &&& M = 67207168)
    (hk : Only M s₀ s) : Only M s₀ (State.releaseBuffers s c bs) := by
  unfold State.releaseBuffers
  repeat' (first
    | with_reducible assumption
    | with_reducible refine State.cancelBuffer_only (hm := Only.sub (by decide) hm) (hk := ?_) ..
    | with_reducible refine Only.foldl (fun _ _ _ => ?_) ?_
    | split
    | dsimp only)

theorem State.dropPending_only {M : Nat} {s₀ : State} (s : State) (c : Nat) (hm : 67207168 &&& M = 67207168)
    (hk : Only M s₀ s) : Only M s₀ (State.dropPending s c) := by
  unfold State.dropPending
  repeat' (first
    | with_reducible assumption
    | with_reducible first | refine State.modCore_only (hm := Only.sub (by decide) hm) (hk := ?_) .. | refine State.releaseBuffers_only (hm := Only.sub (by decide) hm) (hk := ?_) ..
    | with_reducible refine Only.ite ?_ ?_
    | with_reducible refine Only.foldl (fun _ _ _ => ?_) ?_
    | split
    | dsimp only)

theorem State.endOn_only {M : Nat} {s₀ : State} (s : State) (c : Nat) (st : Status) (cause : Nat) (reported : Bool) (word : W32) (hm : 763463312 &&& M = 763463312)
    (hk : Only M s₀ s) : Only M s₀ (State.endOn s c st cause reported word) := by
  unfold State.endOn
  repeat' (first
    | with_reducible assumption
    | with_reducible first | refine State.modSeq_only (hm := Only.sub (by decide) hm) (hk := ?_) .. | refine State.modPwr_only (hm := Only.sub (by decide) hm) (hk := ?_) .. | refine State.using_only (hm := Only.sub (by decide) hm) (hk := ?_) .. | refine State.cancelFills_only (hm := Only.sub (by decide) hm) (hk := ?_) .. | refine State.dropSeqWaits_only (hm := Only.sub (by decide) hm) (hk := ?_) .. | refine State.dropPending_only (hm := Only.sub (by decide) hm) (hk := ?_) ..
    | split
    | dsimp only)

theorem State.stopAt_only {M : Nat} {s₀ : State} (s : State) (c : Nat) (hm : 763463312 &&& M = 763463312)
    (hk : Only M s₀ s) : Only M s₀ (State.stopAt s c) := by
  unfold State.stopAt
  repeat' (first
    | with_reducible assumption
    | with_reducible refine State.endOn_only (hm := Only.sub (by decide) hm) (hk := ?_) ..
    | with_reducible refine Only.ite ?_ ?_)

theorem State.haltSeq_only {M : Nat} {s₀ : State} (s : State) (c : Nat) (st : Status) (cause : Nat) (hm : 763463312 &&& M = 763463312)
    (hk : Only M s₀ s) : Only M s₀ (State.haltSeq s c st cause) := by
  unfold State.haltSeq
  repeat' (first
    | with_reducible assumption
    | with_reducible first | refine State.modSeq_only (hm := Only.sub (by decide) hm) (hk := ?_) .. | refine State.dropSeqWaits_only (hm := Only.sub (by decide) hm) (hk := ?_) .. | refine State.dropPending_only (hm := Only.sub (by decide) hm) (hk := ?_) .. | refine State.endOn_only (hm := Only.sub (by decide) hm) (hk := ?_) .. | refine State.stopAt_only (hm := Only.sub (by decide) hm) (hk := ?_) ..
    | with_reducible refine Only.ite ?_ ?_
    | with_reducible refine Only.foldl (fun _ _ _ => ?_) ?_
    | split
    | dsimp only)

theorem State.stopCores_only {M : Nat} {s₀ : State} (s : State) (c : Nat) (hm : 67207168 &&& M = 67207168)
    (hk : Only M s₀ s) : Only M s₀ (State.stopCores s c) := by
  unfold State.stopCores
  repeat' (first
    | with_reducible assumption
    | with_reducible first | refine State.modCore_only (hm := Only.sub (by decide) hm) (hk := ?_) .. | refine State.releaseBuffers_only (hm := Only.sub (by decide) hm) (hk := ?_) ..
    | with_reducible refine Only.foldl (fun _ _ _ => ?_) ?_
    | split
    | dsimp only)

theorem State.hazardAt_only {M : Nat} {s₀ : State} (s : State) (c pc kind p reg dist retire ctx : Nat) (hm : 1837205136 &&& M = 1837205136)
    (hk : Only M s₀ s) : Only M s₀ (State.hazardAt s c pc kind p reg dist retire ctx) := by
  unfold State.hazardAt
  repeat' (first
    | with_reducible assumption
    | with_reducible first | refine State.modCluster_only (hm := Only.sub (by decide) hm) (hk := ?_) .. | refine State.span_only (hm := Only.sub (by decide) hm) (hk := ?_) .. | refine State.logAs_only (hm := Only.sub (by decide) hm) (hk := ?_) .. | refine State.haltSeq_only (hm := Only.sub (by decide) hm) (hk := ?_) .. | refine State.stopCores_only (hm := Only.sub (by decide) hm) (hk := ?_) ..
    | with_reducible refine Only.ite ?_ ?_
    | split
    | dsimp only)

theorem State.hazard_only {M : Nat} {s₀ : State} (s : State) (c kind p reg dist retire ctx : Nat) (hm : 1837205136 &&& M = 1837205136)
    (hk : Only M s₀ s) : Only M s₀ (State.hazard s c kind p reg dist retire ctx) := by
  unfold State.hazard
  repeat' (first
    | with_reducible assumption
    | with_reducible refine State.hazardAt_only (hm := Only.sub (by decide) hm) (hk := ?_) ..)

theorem State.absentEvent_only {M : Nat} {s₀ : State} (s : State) (c number : Nat) (physical : Bool) (hm : 536872592 &&& M = 536872592)
    (hk : Only M s₀ s) : Only M s₀ (State.absentEvent s c number physical) := by
  unfold State.absentEvent
  repeat' (first
    | with_reducible assumption
    | with_reducible refine State.log_only (hm := Only.sub (by decide) hm) (hk := ?_) ..)

theorem State.refuseStart_only {M : Nat} {s₀ : State} (s : State) (c : Nat) (ps : List Nat) (st : Status) (absent : Option Nat) (hm : 763463312 &&& M = 763463312)
    (hk : Only M s₀ s) : Only M s₀ (State.refuseStart s c ps st absent) := by
  unfold State.refuseStart
  repeat' (first
    | with_reducible assumption
    | with_reducible first | refine State.modCore_only (hm := Only.sub (by decide) hm) (hk := ?_) .. | refine State.log_only (hm := Only.sub (by decide) hm) (hk := ?_) .. | refine State.haltSeq_only (hm := Only.sub (by decide) hm) (hk := ?_) .. | refine State.absentEvent_only (hm := Only.sub (by decide) hm) (hk := ?_) ..
    | with_reducible refine Only.foldl (fun _ _ _ => ?_) ?_
    | split
    | dsimp only)

theorem State.beginLayer_only {M : Nat} {s₀ : State} (s : State) (p : Nat) (hm : 98304 &&& M = 98304)
    (hk : Only M s₀ s) : Only M s₀ (State.beginLayer s p) := by
  unfold State.beginLayer
  repeat' (first
    | with_reducible assumption
    | with_reducible first | refine State.modCluster_only (hm := Only.sub (by decide) hm) (hk := ?_) .. | refine State.modCore_only (hm := Only.sub (by decide) hm) (hk := ?_) ..
    | with_reducible refine Only.ite ?_ ?_
    | split
    | dsimp only)

theorem State.place_only {M : Nat} {s₀ : State} (s : State) (c : Nat) (w : WaitingStart) (div : Nat) (hm : 630818448 &&& M = 630818448)
    (hk : Only M s₀ s) : Only M s₀ (State.place s c w div) := by
  unfold State.place
  repeat' (first
    | with_reducible assumption
    | with_reducible first | refine State.modCluster_only (hm := Only.sub (by decide) hm) (hk := ?_) .. | refine State.modCore_only (hm := Only.sub (by decide) hm) (hk := ?_) .. | refine State.modLb_only (hm := Only.sub (by decide) hm) (hk := ?_) .. | refine State.runAhead_only (hm := Only.sub (by decide) hm) (hk := ?_) .. | refine State.beginLayer_only (hm := Only.sub (by decide) hm) (hk := ?_) ..
    | with_reducible refine Only.foldl (fun _ _ _ => ?_) ?_
    | split
    | dsimp only)

theorem State.tryStart_only {M : Nat} {s₀ : State} (s : State) (c : Nat) (w : WaitingStart) (hm : 1704560272 &&& M = 1704560272)
    (hk : Only M s₀ s) : Only M s₀ (State.tryStart s c w).2 := by
  unfold State.tryStart
  repeat' (first
    | with_reducible assumption
    | with_reducible first | refine State.modSeq_only (hm := Only.sub (by decide) hm) (hk := ?_) .. | refine State.modPurse_only (hm := Only.sub (by decide) hm) (hk := ?_) .. | refine State.span_only (hm := Only.sub (by decide) hm) (hk := ?_) .. | refine State.place_only (hm := Only.sub (by decide) hm) (hk := ?_) ..
    | with_reducible refine Only.ite2 ?_ ?_
    | split
    | dsimp only)

theorem State.retryStart_only {M : Nat} {s₀ : State} (s : State) (c : Nat) (hm : 1704560272 &&& M = 1704560272)
    (hk : Only M s₀ s) : Only M s₀ (State.retryStart s c) := by
  unfold State.retryStart
  repeat' (first
    | with_reducible assumption
    | with_reducible refine State.tryStart_only (hm := Only.sub (by decide) hm) (hk := ?_) ..
    | with_reducible refine Only.ite ?_ ?_
    | split)

theorem State.serviceLayers_only {M : Nat} {s₀ : State} (s : State) (c : Nat) (hm : 763463312 &&& M = 763463312)
    (hk : Only M s₀ s) : Only M s₀ (State.serviceLayers s c) := by
  unfold State.serviceLayers
  repeat' (first
    | with_reducible assumption
    | with_reducible first | refine State.modSeq_only (hm := Only.sub (by decide) hm) (hk := ?_) .. | refine State.endOn_only (hm := Only.sub (by decide) hm) (hk := ?_) ..
    | with_reducible refine Only.ite ?_ ?_
    | split
    | dsimp only)

theorem State.retireLayer_only {M : Nat} {s₀ : State} (s : State) (p : Nat) (st : Status) (hm : 67207168 &&& M = 67207168)
    (hk : Only M s₀ s) : Only M s₀ (State.retireLayer s p st) := by
  unfold State.retireLayer
  repeat' (first
    | with_reducible assumption
    | with_reducible first | refine State.modCluster_only (hm := Only.sub (by decide) hm) (hk := ?_) .. | refine State.modCore_only (hm := Only.sub (by decide) hm) (hk := ?_) .. | refine State.modRtr_only (hm := Only.sub (by decide) hm) (hk := ?_) .. | refine State.releaseBuffers_only (hm := Only.sub (by decide) hm) (hk := ?_) ..
    | split
    | dsimp only)

theorem State.afterLayer_only {M : Nat} {s₀ : State} (s : State) (p : Nat) (st : Status) (hm : 1838909072 &&& M = 1838909072)
    (hk : Only M s₀ s) : Only M s₀ (State.afterLayer s p st) := by
  unfold State.afterLayer
  repeat' (first
    | with_reducible assumption
    | with_reducible first | refine State.fencesDone_only (hm := Only.sub (by decide) hm) (hk := ?_) .. | refine State.stopAt_only (hm := Only.sub (by decide) hm) (hk := ?_) .. | refine State.haltSeq_only (hm := Only.sub (by decide) hm) (hk := ?_) .. | refine State.beginLayer_only (hm := Only.sub (by decide) hm) (hk := ?_) .. | refine State.retryStart_only (hm := Only.sub (by decide) hm) (hk := ?_) .. | refine State.serviceLayers_only (hm := Only.sub (by decide) hm) (hk := ?_) ..
    | with_reducible refine Only.ite ?_ ?_
    | dsimp only)

theorem State.cdcTimeout_only {M : Nat} {s₀ : State} (s : State) (domain addr : Nat) (hm : 1879049872 &&& M = 1879049872)
    (hk : Only M s₀ s) : Only M s₀ (State.cdcTimeout s domain addr) := by
  unfold State.cdcTimeout
  repeat' (first
    | with_reducible assumption
    | with_reducible first | refine State.span_only (hm := Only.sub (by decide) hm) (hk := ?_) .. | refine State.detectLimited_only (hm := Only.sub (by decide) hm) (hk := ?_) ..
    | with_reducible refine Only.set_rails (hm := Only.sub (by decide) hm) (h := ?_) ..
    | dsimp only)

theorem State.crosses_only {M : Nat} {s₀ : State} (s : State) (domain addr bytes : Nat) (hm : 268435456 &&& M = 268435456)
    (hk : Only M s₀ s) : Only M s₀ (State.crosses s domain addr bytes) := by
  unfold State.crosses
  repeat' (first
    | with_reducible assumption
    | with_reducible refine Only.set_rails (hm := Only.sub (by decide) hm) (h := ?_) ..)

theorem State.crossed_only {M : Nat} {s₀ : State} (s : State) (x : Crossing) (hm : 1879049872 &&& M = 1879049872)
    (hk : Only M s₀ s) : Only M s₀ (State.crossed s x) := by
  unfold State.crossed
  repeat' (first
    | with_reducible assumption
    | with_reducible first | refine State.emit_only (hm := Only.sub (by decide) hm) (hk := ?_) .. | refine State.cdcTimeout_only (hm := Only.sub (by decide) hm) (hk := ?_) ..
    | with_reducible refine Only.ite ?_ ?_
    | dsimp only)

theorem State.flushCrossings_only {M : Nat} {s₀ : State} (s : State) (hit : Nat → Bool) (hm : 1879049872 &&& M = 1879049872)
    (hk : Only M s₀ s) : Only M s₀ (State.flushCrossings s hit).2 := by
  unfold State.flushCrossings
  repeat' (first
    | with_reducible assumption
    | with_reducible refine State.crossed_only (hm := Only.sub (by decide) hm) (hk := ?_) ..
    | with_reducible refine Only.foldl (fun _ _ _ => ?_) ?_
    | split
    | with_reducible refine Only.set_rails (hm := Only.sub (by decide) hm) (h := ?_) ..
    | dsimp only)

theorem State.resetEvent_only {M : Nat} {s₀ : State} (s : State) (kind source : Nat) (interrupted : Bool) (entries coins flushed : Nat) (hm : 536872848 &&& M = 536872848)
    (hk : Only M s₀ s) : Only M s₀ (State.resetEvent s kind source interrupted entries coins flushed) := by
  unfold State.resetEvent
  repeat' (first
    | with_reducible assumption
    | with_reducible first | refine State.modDev_only (hm := Only.sub (by decide) hm) (hk := ?_) .. | refine State.logAs_only (hm := Only.sub (by decide) hm) (hk := ?_) ..
    | with_reducible refine Only.ite ?_ ?_
    | split
    | dsimp only)

theorem State.resetCore_only {M : Nat} {s₀ : State} (s : State) (p : Nat) (hm : 1838909072 &&& M = 1838909072)
    (hk : Only M s₀ s) : Only M s₀ (State.resetCore s p).2 := by
  unfold State.resetCore
  repeat' (first
    | with_reducible assumption
    | with_reducible first | refine State.modCore_only (hm := Only.sub (by decide) hm) (hk := ?_) .. | refine State.modUnit_only (hm := Only.sub (by decide) hm) (hk := ?_) .. | refine State.releaseBuffers_only (hm := Only.sub (by decide) hm) (hk := ?_) .. | refine State.retireLayer_only (hm := Only.sub (by decide) hm) (hk := ?_) .. | refine State.afterLayer_only (hm := Only.sub (by decide) hm) (hk := ?_) ..
    | with_reducible refine Only.ite ?_ ?_
    | split
    | dsimp only)

theorem State.resetCluster_only {M : Nat} {s₀ : State} (s : State) (c : Nat) (wake : Bool) (hm : 763594384 &&& M = 763594384)
    (hk : Only M s₀ s) : Only M s₀ (State.resetCluster s c wake).2.2 := by
  unfold State.resetCluster
  repeat' (first
    | with_reducible assumption
    | with_reducible first | refine State.modSeq_only (hm := Only.sub (by decide) hm) (hk := ?_) .. | refine State.modCore_only (hm := Only.sub (by decide) hm) (hk := ?_) .. | refine State.modUnit_only (hm := Only.sub (by decide) hm) (hk := ?_) .. | refine State.ownerReset_only (hm := Only.sub (by decide) hm) (hk := ?_) .. | refine State.endWindow_only (hm := Only.sub (by decide) hm) (hk := ?_) .. | refine State.fencesDone_only (hm := Only.sub (by decide) hm) (hk := ?_) .. | refine State.releaseBuffers_only (hm := Only.sub (by decide) hm) (hk := ?_) .. | refine State.haltSeq_only (hm := Only.sub (by decide) hm) (hk := ?_) .. | refine State.retireLayer_only (hm := Only.sub (by decide) hm) (hk := ?_) ..
    | with_reducible refine Only.foldl (fun _ _ _ => ?_) ?_
    | split
    | dsimp only)

theorem State.clearTeFlags_only {M : Nat} {s₀ : State} (s : State) (p v : Nat) (hm : 65536 &&& M = 65536)
    (hk : Only M s₀ s) : Only M s₀ (State.clearTeFlags s p v) := by
  unfold State.clearTeFlags
  repeat' (first
    | with_reducible assumption
    | with_reducible refine State.modCore_only (hm := Only.sub (by decide) hm) (hk := ?_) ..
    | split)

theorem State.readEmptyRows_only {M : Nat} {s₀ : State} (s : State) (p : Nat) (hm : 65536 &&& M = 65536)
    (hk : Only M s₀ s) : Only M s₀ (State.readEmptyRows s p).2 := by
  unfold State.readEmptyRows
  repeat' (first
    | with_reducible assumption
    | with_reducible refine State.modCore_only (hm := Only.sub (by decide) hm) (hk := ?_) ..
    | split
    | dsimp only)

theorem State.modVault_only {M : Nat} {s₀ : State} (s : State) (v : VaultName) (f : VaultState → VaultState) (hm : 98304 &&& M = 98304)
    (hk : Only M s₀ s) : Only M s₀ (State.modVault s v f) := by
  unfold State.modVault
  repeat' (first
    | with_reducible assumption
    | with_reducible first | refine State.modCluster_only (hm := Only.sub (by decide) hm) (hk := ?_) .. | refine State.modCore_only (hm := Only.sub (by decide) hm) (hk := ?_) ..
    | split)

theorem State.poisonWork_only {M : Nat} {s₀ : State} (s : State) (arr0 : VaultName) (hm : 763463312 &&& M = 763463312) (hk : Only M s₀ s) : Only M s₀ (s.poisonWork arr0) := by
  cases arr0
  · exact State.spoil_only _ _ _ (hm := Only.sub (by decide) hm) hk
  · exact State.haltSeq_only _ _ _ _ (hm := Only.sub (by decide) hm) hk

theorem State.bankFails_only {M : Nat} {s₀ : State} (s : State) (v : VaultName) (bank : Nat) (hm : 763594384 &&& M = 763594384)
    (hk : Only M s₀ s) : Only M s₀ (State.bankFails s v bank) := by
  unfold State.bankFails
  repeat' (first
    | with_reducible assumption
    | with_reducible first | refine State.ledgerAppend_only (hm := Only.sub (by decide) hm) (hk := ?_) .. | refine State.detect_only (hm := Only.sub (by decide) hm) (hk := ?_) .. | refine State.closeWindow_only (hm := Only.sub (by decide) hm) (hk := ?_) .. | refine State.contain_only (hm := Only.sub (by decide) hm) (hk := ?_) .. | refine State.modVault_only (hm := Only.sub (by decide) hm) (hk := ?_) .. | refine State.poisonWork_only (hm := Only.sub (by decide) hm) (hk := ?_) ..
    | with_reducible refine Only.ite ?_ ?_
    | split
    | dsimp only)

theorem State.vaultCorrectedAt_only {M : Nat} {s₀ : State} (s : State) (v : VaultName) (a : Nat) (hm : 1837336208 &&& M = 1837336208)
    (hk : Only M s₀ s) : Only M s₀ (State.vaultCorrectedAt s v a) := by
  unfold State.vaultCorrectedAt
  repeat' (first
    | with_reducible assumption
    | with_reducible first | refine State.span_only (hm := Only.sub (by decide) hm) (hk := ?_) .. | refine State.total_only (hm := Only.sub (by decide) hm) (hk := ?_) .. | refine State.detectLimited_only (hm := Only.sub (by decide) hm) (hk := ?_) .. | refine State.modVault_only (hm := Only.sub (by decide) hm) (hk := ?_) .. | refine State.bankFails_only (hm := Only.sub (by decide) hm) (hk := ?_) ..
    | with_reducible refine Only.ite ?_ ?_
    | split
    | dsimp only)

theorem State.vaultLostAt_only {M : Nat} {s₀ : State} (s : State) (v : VaultName) (a : Nat) (hm : 764118672 &&& M = 764118672)
    (hk : Only M s₀ s) : Only M s₀ (State.vaultLostAt s v a) := by
  unfold State.vaultLostAt
  repeat' (first
    | with_reducible assumption
    | with_reducible first | refine State.detect_only (hm := Only.sub (by decide) hm) (hk := ?_) .. | refine State.bankFails_only (hm := Only.sub (by decide) hm) (hk := ?_) ..
    | with_reducible refine Only.ite ?_ ?_
    | with_reducible refine Only.set_mem (hm := Only.sub (by decide) hm) (h := ?_) ..
    | dsimp only)

theorem State.candidate_only {M : Nat} {s₀ : State} (s : State) (n row : Nat) (hm : 1048576 &&& M = 1048576)
    (hk : Only M s₀ s) : Only M s₀ (State.candidate s n row) := by
  unfold State.candidate
  repeat' (first
    | with_reducible assumption
    | with_reducible refine State.modChannel_only (hm := Only.sub (by decide) hm) (hk := ?_) ..
    | split)

theorem State.erase_only {M : Nat} {s₀ : State} (s : State) (n device : Nat) (hm : 537921168 &&& M = 537921168)
    (hk : Only M s₀ s) : Only M s₀ (State.erase s n device) := by
  unfold State.erase
  repeat' (first
    | with_reducible assumption
    | with_reducible first | refine State.modChannel_only (hm := Only.sub (by decide) hm) (hk := ?_) .. | refine State.ledgerAppend_only (hm := Only.sub (by decide) hm) (hk := ?_) .. | refine State.detect_only (hm := Only.sub (by decide) hm) (hk := ?_) .. | refine State.closeWindow_only (hm := Only.sub (by decide) hm) (hk := ?_) ..
    | split
    | dsimp only)

theorem State.dramCorrectedAt_only {M : Nat} {s₀ : State} (s : State) (a device : Nat) (hm : 1611662992 &&& M = 1611662992)
    (hk : Only M s₀ s) : Only M s₀ (State.dramCorrectedAt s a device) := by
  unfold State.dramCorrectedAt
  repeat' (first
    | with_reducible assumption
    | with_reducible first | refine State.modChannel_only (hm := Only.sub (by decide) hm) (hk := ?_) .. | refine State.span_only (hm := Only.sub (by decide) hm) (hk := ?_) .. | refine State.total_only (hm := Only.sub (by decide) hm) (hk := ?_) .. | refine State.detectLimited_only (hm := Only.sub (by decide) hm) (hk := ?_) .. | refine State.candidate_only (hm := Only.sub (by decide) hm) (hk := ?_) .. | refine State.erase_only (hm := Only.sub (by decide) hm) (hk := ?_) ..
    | with_reducible refine Only.ite ?_ ?_
    | split
    | dsimp only)

theorem State.dramLostAt_only {M : Nat} {s₀ : State} (s : State) (a : Nat) (hm : 1612187280 &&& M = 1612187280)
    (hk : Only M s₀ s) : Only M s₀ (State.dramLostAt s a) := by
  unfold State.dramLostAt
  repeat' (first
    | with_reducible assumption
    | with_reducible first | refine State.modChannel_only (hm := Only.sub (by decide) hm) (hk := ?_) .. | refine State.span_only (hm := Only.sub (by decide) hm) (hk := ?_) .. | refine State.total_only (hm := Only.sub (by decide) hm) (hk := ?_) .. | refine State.detectWith_only (hm := Only.sub (by decide) hm) (hk := ?_) .. | refine State.candidate_only (hm := Only.sub (by decide) hm) (hk := ?_) ..
    | with_reducible refine Only.ite ?_ ?_
    | split
    | with_reducible refine Only.set_mem (hm := Only.sub (by decide) hm) (h := ?_) ..
    | dsimp only)

theorem State.loseChannel_only {M : Nat} {s₀ : State} (s : State) (n : Nat) (hm : 538052240 &&& M = 538052240)
    (hk : Only M s₀ s) : Only M s₀ (State.loseChannel s n) := by
  unfold State.loseChannel
  repeat' (first
    | with_reducible assumption
    | with_reducible first | refine State.modChannel_only (hm := Only.sub (by decide) hm) (hk := ?_) .. | refine State.detect_only (hm := Only.sub (by decide) hm) (hk := ?_) .. | refine State.closeWindow_only (hm := Only.sub (by decide) hm) (hk := ?_) .. | refine State.contain_only (hm := Only.sub (by decide) hm) (hk := ?_) ..
    | with_reducible refine Only.ite ?_ ?_
    | split
    | dsimp only)

theorem State.dramErrorAt_only {M : Nat} {s₀ : State} (s : State) (a device : Nat) (single : Bool) (hm : 1612187280 &&& M = 1612187280)
    (hk : Only M s₀ s) : Only M s₀ (State.dramErrorAt s a device single) := by
  unfold State.dramErrorAt
  repeat' (first
    | with_reducible assumption
    | with_reducible first | refine State.dramCorrectedAt_only (hm := Only.sub (by decide) hm) (hk := ?_) .. | refine State.dramLostAt_only (hm := Only.sub (by decide) hm) (hk := ?_) ..
    | with_reducible refine Only.ite ?_ ?_
    | dsimp only)

theorem State.ecc_only {M : Nat} {s₀ : State} (s : State) (x : Nat × EccResult) (hm : 1838909072 &&& M = 1838909072)
    (hk : Only M s₀ s) : Only M s₀ (State.ecc s x) := by
  unfold State.ecc
  repeat' (first
    | with_reducible assumption
    | with_reducible first | refine State.vaultCorrectedAt_only (hm := Only.sub (by decide) hm) (hk := ?_) .. | refine State.vaultLostAt_only (hm := Only.sub (by decide) hm) (hk := ?_) .. | refine State.dramLostAt_only (hm := Only.sub (by decide) hm) (hk := ?_) .. | refine State.dramErrorAt_only (hm := Only.sub (by decide) hm) (hk := ?_) ..
    | with_reducible refine Only.ite ?_ ?_
    | split)

theorem State.eccAll_only {M : Nat} {s₀ : State} (s : State) (xs : List (Nat × EccResult)) (hm : 1838909072 &&& M = 1838909072)
    (hk : Only M s₀ s) : Only M s₀ (State.eccAll s xs) := by
  unfold State.eccAll
  repeat' (first
    | with_reducible assumption
    | with_reducible refine State.ecc_only (hm := Only.sub (by decide) hm) (hk := ?_) ..
    | with_reducible refine Only.foldl (fun _ _ _ => ?_) ?_)

theorem State.tick_only {M : Nat} {s₀ : State} (s : State) (c : Nat) (t : Tick) (hm : 1610712720 &&& M = 1610712720)
    (hk : Only M s₀ s) : Only M s₀ (State.tick s c t) := by
  unfold State.tick
  repeat' (first
    | with_reducible assumption
    | with_reducible first | refine State.modSeq_only (hm := Only.sub (by decide) hm) (hk := ?_) .. | refine State.each_only (hm := Only.sub (by decide) hm) (hk := ?_) (hf := ?_) .. | refine State.detect_only (hm := Only.sub (by decide) hm) (hk := ?_) .. | refine State.advance_only (hm := Only.sub (by decide) hm) (hk := ?_) ..
    | (intros; with_reducible assumption)
    | intro _ _ _
    | intro _ _
    | split
    | dsimp only)

theorem State.seqMemLost_only {M : Nat} {s₀ : State} (s : State) (c : Nat) (hm : 2105771920 &&& M = 2105771920)
    (hk : Only M s₀ s) : Only M s₀ (State.seqMemLost s c) := by
  unfold State.seqMemLost
  repeat' (first
    | with_reducible assumption
    | with_reducible first | refine State.detect_only (hm := Only.sub (by decide) hm) (hk := ?_) .. | refine State.closeWindow_only (hm := Only.sub (by decide) hm) (hk := ?_) .. | refine State.contain_only (hm := Only.sub (by decide) hm) (hk := ?_) .. | refine State.haltSeq_only (hm := Only.sub (by decide) hm) (hk := ?_) .. | refine State.flushCrossings_only (hm := Only.sub (by decide) hm) (hk := ?_) .. | refine State.resetEvent_only (hm := Only.sub (by decide) hm) (hk := ?_) .. | refine State.resetCluster_only (hm := Only.sub (by decide) hm) (hk := ?_) ..
    | split
    | dsimp only)

theorem State.onSeq_only {M : Nat} {s₀ : State} (s : State) (c : Nat) (t : Tick) (f : State → State) (hf : ∀ t, Only M s₀ t → Only M s₀ (f t)) (hm : 2105771920 &&& M = 2105771920)
    (hk : Only M s₀ s) : Only M s₀ (State.onSeq s c t f) := by
  unfold State.onSeq
  repeat' (first
    | with_reducible assumption
    | with_reducible refine hf _ ?_
    | with_reducible first | refine State.tick_only (hm := Only.sub (by decide) hm) (hk := ?_) .. | refine State.seqMemLost_only (hm := Only.sub (by decide) hm) (hk := ?_) ..
    | with_reducible refine Only.ite ?_ ?_)

theorem State.sendCfg_only {M : Nat} {s₀ : State} (s : State) (c p word : Nat) (v : W64) (hm : 1837205136 &&& M = 1837205136)
    (hk : Only M s₀ s) : Only M s₀ (State.sendCfg s c p word v) := by
  unfold State.sendCfg
  repeat' (first
    | with_reducible assumption
    | with_reducible first | refine State.modSeq_only (hm := Only.sub (by decide) hm) (hk := ?_) .. | refine State.hazard_only (hm := Only.sub (by decide) hm) (hk := ?_) ..
    | with_reducible refine Only.ite ?_ ?_
    | split
    | dsimp only)

theorem State.goReads_only {M : Nat} {s₀ : State} (s : State) (c p : Nat) (hm : 1837205136 &&& M = 1837205136)
    (hk : Only M s₀ s) : Only M s₀ (State.goReads s c p) := by
  unfold State.goReads
  repeat' (first
    | with_reducible assumption
    | with_reducible refine State.hazard_only (hm := Only.sub (by decide) hm) (hk := ?_) ..
    | with_reducible refine Only.foldl (fun _ _ _ => ?_) ?_
    | split
    | dsimp only)

theorem State.refuse_only {M : Nat} {s₀ : State} (s : State) (c : Nat) (ps : List Nat) (st : Status) (hm : 763463312 &&& M = 763463312)
    (hk : Only M s₀ s) : Only M s₀ (State.refuse s c ps st) := by
  unfold State.refuse
  repeat' (first
    | with_reducible assumption
    | with_reducible refine State.refuseStart_only (hm := Only.sub (by decide) hm) (hk := ?_) ..)

theorem State.startOn_only {M : Nat} {s₀ : State} (s : State) (c : Nat) (broadcast : Bool) (ps : List Nat) (buffers : List Nat) (ahead : List (Nat × Nat)) (hm : 1838778000 &&& M = 1838778000)
    (hk : Only M s₀ s) : Only M s₀ (State.startOn s c broadcast ps buffers ahead) := by
  unfold State.startOn
  repeat' (first
    | with_reducible assumption
    | with_reducible first | refine State.tryStart_only (hm := Only.sub (by decide) hm) (hk := ?_) .. | refine State.refuse_only (hm := Only.sub (by decide) hm) (hk := ?_) ..
    | with_reducible refine Only.ite ?_ ?_
    | split
    | dsimp only)

theorem execLcbStore_only {M : Nat} {s₀ : State} (c : Nat) (t : Tick) (target : Target) (word : Nat) (v : W64) (s : State) (hm : 2105771920 &&& M = 2105771920)
    (hk : Only M s₀ s) : Answers (execLcbStore c t target word v s) (Only M s₀) := by
  unfold execLcbStore
  repeat' (first
    | with_reducible assumption
    | with_reducible refine Answers.next ?_
    | with_reducible first | refine State.clearTeFlags_only (hm := Only.sub (by decide) hm) (hk := ?_) .. | refine State.onSeq_only (hm := Only.sub (by decide) hm) (hk := ?_) (hf := ?_) .. | refine State.sendCfg_only (hm := Only.sub (by decide) hm) (hk := ?_) ..
    | with_reducible refine Only.ite ?_ ?_
    | with_reducible refine Only.foldl (fun _ _ _ => ?_) ?_
    | intro _ _
    | split
    | dsimp only)

theorem State.refuseLogical_only {M : Nat} {s₀ : State} (s : State) (c n : Nat) (hm : 763463312 &&& M = 763463312)
    (hk : Only M s₀ s) : Only M s₀ (State.refuseLogical s c n) := by
  unfold State.refuseLogical
  repeat' (first
    | with_reducible assumption
    | with_reducible first | refine State.haltSeq_only (hm := Only.sub (by decide) hm) (hk := ?_) .. | refine State.absentEvent_only (hm := Only.sub (by decide) hm) (hk := ?_) ..)

theorem execLayerStart_only {M : Nat} {s₀ : State} (c : Nat) (t : Tick) (target : Target) (buffers : List Nat) (ahead : List (Nat × Nat)) (ecc : List (Nat × EccResult)) (s : State) (hm : 2107344784 &&& M = 2107344784)
    (hk : Only M s₀ s) : Answers (execLayerStart c t target buffers ahead ecc s) (Only M s₀) := by
  unfold execLayerStart
  repeat' (first
    | with_reducible assumption
    | with_reducible refine Answers.next ?_
    | with_reducible first | refine State.eccAll_only (hm := Only.sub (by decide) hm) (hk := ?_) .. | refine State.onSeq_only (hm := Only.sub (by decide) hm) (hk := ?_) (hf := ?_) .. | refine State.goReads_only (hm := Only.sub (by decide) hm) (hk := ?_) .. | refine State.refuse_only (hm := Only.sub (by decide) hm) (hk := ?_) .. | refine State.startOn_only (hm := Only.sub (by decide) hm) (hk := ?_) .. | refine State.refuseLogical_only (hm := Only.sub (by decide) hm) (hk := ?_) ..
    | with_reducible refine Only.ite ?_ ?_
    | with_reducible refine Only.foldl (fun _ _ _ => ?_) ?_
    | intro _ _
    | split
    | dsimp only)

theorem execLayerWait_only {M : Nat} {s₀ : State} (c : Nat) (t : Tick) (mask : Nat) (s : State) (hm : 2105771920 &&& M = 2105771920)
    (hk : Only M s₀ s) : Answers (execLayerWait c t mask s) (Only M s₀) := by
  unfold execLayerWait
  repeat' (first
    | with_reducible assumption
    | with_reducible refine Answers.next ?_
    | with_reducible first | refine State.modSeq_only (hm := Only.sub (by decide) hm) (hk := ?_) .. | refine State.onSeq_only (hm := Only.sub (by decide) hm) (hk := ?_) (hf := ?_) ..
    | with_reducible refine Only.ite ?_ ?_
    | intro _ _
    | split
    | dsimp only)

theorem execLayerComplete_only {M : Nat} {s₀ : State} (p : Nat) (s : State) (hm : 1838909072 &&& M = 1838909072)
    (hk : Only M s₀ s) : Answers (execLayerComplete p s) (Only M s₀) := by
  unfold execLayerComplete
  repeat' (first
    | with_reducible assumption
    | with_reducible refine Answers.next ?_
    | with_reducible refine Answers.ite ?_ ?_
    | with_reducible first | refine State.span_only (hm := Only.sub (by decide) hm) (hk := ?_) .. | refine State.retireLayer_only (hm := Only.sub (by decide) hm) (hk := ?_) .. | refine State.afterLayer_only (hm := Only.sub (by decide) hm) (hk := ?_) ..
    | with_reducible refine Only.ite ?_ ?_
    | split
    | dsimp only)

theorem execHwmClear_only {M : Nat} {s₀ : State} (c : Nat) (t : Tick) (i : Nat) (v : W64) (s : State) (hm : 2106034064 &&& M = 2106034064)
    (hk : Only M s₀ s) : Answers (execHwmClear c t i v s) (Only M s₀) := by
  unfold execHwmClear
  repeat' (first
    | with_reducible assumption
    | with_reducible refine Answers.next ?_
    | with_reducible refine State.onSeq_only (hm := Only.sub (by decide) hm) (hk := ?_) (hf := ?_) ..
    | with_reducible refine Only.ite ?_ ?_
    | intro _ _
    | split
    | with_reducible refine Only.set_hwm (hm := Only.sub (by decide) hm) (h := ?_) ..
    | dsimp only)

theorem execSeqTableWrite_only {M : Nat} {s₀ : State} (c : Nat) (t : Tick) (slot : Nat) (high : Bool) (v : W64) (s : State) (hm : 2105771920 &&& M = 2105771920)
    (hk : Only M s₀ s) : Answers (execSeqTableWrite c t slot high v s) (Only M s₀) := by
  unfold execSeqTableWrite
  repeat' (first
    | with_reducible assumption
    | with_reducible refine Answers.next ?_
    | with_reducible first | refine State.modClusters_only (hm := Only.sub (by decide) hm) (hk := ?_) .. | refine State.onSeq_only (hm := Only.sub (by decide) hm) (hk := ?_) (hf := ?_) ..
    | with_reducible refine Only.ite ?_ ?_
    | intro _ _
    | split
    | dsimp only)

theorem execSeqTableCommit_only {M : Nat} {s₀ : State} (c : Nat) (t : Tick) (v : W64) (s : State) (hm : 2105771920 &&& M = 2105771920)
    (hk : Only M s₀ s) : Answers (execSeqTableCommit c t v s) (Only M s₀) := by
  unfold execSeqTableCommit
  repeat' (first
    | with_reducible assumption
    | with_reducible refine Answers.next ?_
    | with_reducible first | refine State.modClusters_only (hm := Only.sub (by decide) hm) (hk := ?_) .. | refine State.modSeq_only (hm := Only.sub (by decide) hm) (hk := ?_) .. | refine State.log_only (hm := Only.sub (by decide) hm) (hk := ?_) .. | refine State.onSeq_only (hm := Only.sub (by decide) hm) (hk := ?_) (hf := ?_) ..
    | with_reducible refine Only.ite ?_ ?_
    | intro _ _
    | split
    | dsimp only)

theorem execLossRead_only {M : Nat} {s₀ : State} (c : Nat) (t : Tick) (slot : Nat) (s : State) (hm : 2105771920 &&& M = 2105771920)
    (hk : Only M s₀ s) : Answers (execLossRead c t slot s) (Only M s₀) := by
  unfold execLossRead
  repeat' (first
    | with_reducible assumption
    | with_reducible refine Answers.next ?_
    | with_reducible first | refine State.modSeq_only (hm := Only.sub (by decide) hm) (hk := ?_) .. | refine State.onSeq_only (hm := Only.sub (by decide) hm) (hk := ?_) (hf := ?_) ..
    | with_reducible refine Only.ite ?_ ?_
    | intro _ _
    | split
    | dsimp only)

theorem execLossClear_only {M : Nat} {s₀ : State} (c : Nat) (t : Tick) (slot : Nat) (v : W64) (s : State) (hm : 2105771920 &&& M = 2105771920)
    (hk : Only M s₀ s) : Answers (execLossClear c t slot v s) (Only M s₀) := by
  unfold execLossClear
  repeat' (first
    | with_reducible assumption
    | with_reducible refine Answers.next ?_
    | with_reducible first | refine State.modClusters_only (hm := Only.sub (by decide) hm) (hk := ?_) .. | refine State.onSeq_only (hm := Only.sub (by decide) hm) (hk := ?_) (hf := ?_) ..
    | with_reducible refine Only.ite ?_ ?_
    | intro _ _
    | split
    | dsimp only)

theorem execTimerWait_only {M : Nat} {s₀ : State} (c : Nat) (t : Tick) (n : Nat) (v : W64) (s : State) (hm : 2105771920 &&& M = 2105771920)
    (hk : Only M s₀ s) : Answers (execTimerWait c t n v s) (Only M s₀) := by
  unfold execTimerWait
  repeat' (first
    | with_reducible assumption
    | with_reducible refine Answers.next ?_
    | with_reducible first | refine State.modSeq_only (hm := Only.sub (by decide) hm) (hk := ?_) .. | refine State.onSeq_only (hm := Only.sub (by decide) hm) (hk := ?_) (hf := ?_) ..
    | with_reducible refine Only.ite ?_ ?_
    | intro _ _
    | split
    | dsimp only)

theorem State.atDevice_only {M : Nat} {s₀ : State} (s : State) (t : Nat) (hm : 536870914 &&& M = 536870914)
    (hk : Only M s₀ s) : Only M s₀ (State.atDevice s t) := by
  unfold State.atDevice
  repeat' (first
    | with_reducible assumption
    | with_reducible refine State.reach_only (hm := Only.sub (by decide) hm) (hk := ?_) ..
    | dsimp only)

theorem execTimerExpiry_only {M : Nat} {s₀ : State} (c : Nat) (s : State) (hm : 536903682 &&& M = 536903682)
    (hk : Only M s₀ s) : Answers (execTimerExpiry c s) (Only M s₀) := by
  unfold execTimerExpiry
  repeat' (first
    | with_reducible assumption
    | with_reducible refine Answers.next ?_
    | with_reducible first | refine State.modSeq_only (hm := Only.sub (by decide) hm) (hk := ?_) .. | refine State.atDevice_only (hm := Only.sub (by decide) hm) (hk := ?_) ..
    | split
    | dsimp only)

theorem execSeqCompletion_only {M : Nat} {s₀ : State} (c : Nat) (t : Tick) (word : W64) (s : State) (hm : 2105771920 &&& M = 2105771920)
    (hk : Only M s₀ s) : Answers (execSeqCompletion c t word s) (Only M s₀) := by
  unfold execSeqCompletion
  repeat' (first
    | with_reducible assumption
    | with_reducible refine Answers.next ?_
    | with_reducible first | refine State.modSeq_only (hm := Only.sub (by decide) hm) (hk := ?_) .. | refine State.endOn_only (hm := Only.sub (by decide) hm) (hk := ?_) .. | refine State.onSeq_only (hm := Only.sub (by decide) hm) (hk := ?_) (hf := ?_) ..
    | with_reducible refine Only.ite ?_ ?_
    | intro _ _
    | split
    | dsimp only)

theorem execProgramNote_only {M : Nat} {s₀ : State} (c : Nat) (t : Tick) (bytes : List Byte) (s : State) (hm : 2105771920 &&& M = 2105771920)
    (hk : Only M s₀ s) : Answers (execProgramNote c t bytes s) (Only M s₀) := by
  unfold execProgramNote
  repeat' (first
    | with_reducible assumption
    | with_reducible refine Answers.next ?_
    | with_reducible first | refine State.logAs_only (hm := Only.sub (by decide) hm) (hk := ?_) .. | refine State.onSeq_only (hm := Only.sub (by decide) hm) (hk := ?_) (hf := ?_) ..
    | intro _ _
    | split
    | dsimp only)

theorem execSeqAddressFault_only {M : Nat} {s₀ : State} (c : Nat) (t : Tick) (s : State) (hm : 2105771920 &&& M = 2105771920)
    (hk : Only M s₀ s) : Answers (execSeqAddressFault c t s) (Only M s₀) := by
  unfold execSeqAddressFault
  repeat' (first
    | with_reducible assumption
    | with_reducible refine Answers.next ?_
    | with_reducible first | refine State.haltSeq_only (hm := Only.sub (by decide) hm) (hk := ?_) .. | refine State.onSeq_only (hm := Only.sub (by decide) hm) (hk := ?_) (hf := ?_) ..
    | intro _ _
    | split
    | dsimp only)

theorem execSeqInstructionFault_only {M : Nat} {s₀ : State} (c : Nat) (t : Tick) (s : State) (hm : 2105771920 &&& M = 2105771920)
    (hk : Only M s₀ s) : Answers (execSeqInstructionFault c t s) (Only M s₀) := by
  unfold execSeqInstructionFault
  repeat' (first
    | with_reducible assumption
    | with_reducible refine Answers.next ?_
    | with_reducible first | refine State.haltSeq_only (hm := Only.sub (by decide) hm) (hk := ?_) .. | refine State.onSeq_only (hm := Only.sub (by decide) hm) (hk := ?_) (hf := ?_) ..
    | intro _ _
    | split
    | dsimp only)

theorem execSeqMemUncorrected_only {M : Nat} {s₀ : State} (c : Nat) (s : State) (hm : 2105771920 &&& M = 2105771920)
    (hk : Only M s₀ s) : Answers (execSeqMemUncorrected c s) (Only M s₀) := by
  unfold execSeqMemUncorrected
  repeat' (first
    | with_reducible assumption
    | with_reducible refine Answers.next ?_
    | with_reducible refine Answers.ite ?_ ?_
    | with_reducible refine State.seqMemLost_only (hm := Only.sub (by decide) hm) (hk := ?_) ..
    | dsimp only)

theorem State.modSeqWaits_only {M : Nat} {s₀ : State} (s : State) (c : Nat) (f : Waiter → Waiter) (hm : 32768 &&& M = 32768)
    (hk : Only M s₀ s) : Only M s₀ (State.modSeqWaits s c f) := by
  unfold State.modSeqWaits
  repeat' (first
    | with_reducible assumption
    | with_reducible refine State.modCluster_only (hm := Only.sub (by decide) hm) (hk := ?_) ..
    | split)

theorem execDebugHalt_only {M : Nat} {s₀ : State} (c : Nat) (s : State) (hm : 32768 &&& M = 32768)
    (hk : Only M s₀ s) : Answers (execDebugHalt c s) (Only M s₀) := by
  unfold execDebugHalt
  repeat' (first
    | with_reducible assumption
    | with_reducible refine Answers.next ?_
    | with_reducible refine Answers.ite ?_ ?_
    | with_reducible refine State.modSeq_only (hm := Only.sub (by decide) hm) (hk := ?_) ..
    | split
    | dsimp only)

theorem execDebugResume_only {M : Nat} {s₀ : State} (c : Nat) (s : State) (hm : 1704560272 &&& M = 1704560272)
    (hk : Only M s₀ s) : Answers (execDebugResume c s) (Only M s₀) := by
  unfold execDebugResume
  repeat' (first
    | with_reducible assumption
    | with_reducible refine Answers.next ?_
    | with_reducible refine Answers.ite ?_ ?_
    | with_reducible first | refine State.modSeq_only (hm := Only.sub (by decide) hm) (hk := ?_) .. | refine State.retryStart_only (hm := Only.sub (by decide) hm) (hk := ?_) .. | refine State.modSeqWaits_only (hm := Only.sub (by decide) hm) (hk := ?_) ..
    | split
    | dsimp only)

theorem State.hazards_only {M : Nat} {s₀ : State} (s : State) (p i : Nat) (hs : List Haz) (hm : 1837205136 &&& M = 1837205136)
    (hk : Only M s₀ s) : Only M s₀ (State.hazards s p i hs) := by
  unfold State.hazards
  repeat' (first
    | with_reducible assumption
    | with_reducible refine State.hazardAt_only (hm := Only.sub (by decide) hm) (hk := ?_) ..
    | with_reducible refine Only.foldl (fun _ _ _ => ?_) ?_
    | split
    | dsimp only)

theorem State.tileParity_only {M : Nat} {s₀ : State} (s : State) (p : Nat) (bad : Bool) (hm : 1610614416 &&& M = 1610614416)
    (hk : Only M s₀ s) : Only M s₀ (State.tileParity s p bad) := by
  unfold State.tileParity
  repeat' (first
    | with_reducible assumption
    | with_reducible first | refine State.span_only (hm := Only.sub (by decide) hm) (hk := ?_) .. | refine State.detect_only (hm := Only.sub (by decide) hm) (hk := ?_) ..
    | with_reducible refine Only.ite ?_ ?_)

theorem State.writeResults_only {M : Nat} {s₀ : State} (s : State) (p i dst dist : Nat) (reads : List Nat) (early : Bool) (srcFl : Flags) (rs : List (Nat × FV)) (units : List (Nat × Bool)) (parity : List Nat) (hm : 1837205136 &&& M = 1837205136)
    (hk : Only M s₀ s) : Only M s₀ (State.writeResults s p i dst dist reads early srcFl rs units parity) := by
  unfold State.writeResults
  repeat' (first
    | with_reducible assumption
    | with_reducible first | refine State.modCore_only (hm := Only.sub (by decide) hm) (hk := ?_) .. | refine State.hazards_only (hm := Only.sub (by decide) hm) (hk := ?_) .. | refine State.tileParity_only (hm := Only.sub (by decide) hm) (hk := ?_) ..
    | split
    | dsimp only)

theorem State.laneOp_only {M : Nat} {s₀ : State} (s : State) (p i : Nat) (f : LaneFn) (dst : Nat) (srcs : List TeSrc) (early : Bool) (parity : List Nat) (hm : 1837205136 &&& M = 1837205136)
    (hk : Only M s₀ s) : Only M s₀ (State.laneOp s p i f dst srcs early parity) := by
  unfold State.laneOp
  repeat' (first
    | with_reducible assumption
    | with_reducible refine State.writeResults_only (hm := Only.sub (by decide) hm) (hk := ?_) ..
    | split
    | dsimp only)

theorem State.treeOp_only {M : Nat} {s₀ : State} (s : State) (p i : Nat) (f : TreeFn) (byRow : Bool) (dst : Nat) (src : TeSrc) (early : Bool) (parity : List Nat) (hm : 1837205136 &&& M = 1837205136)
    (hk : Only M s₀ s) : Only M s₀ (State.treeOp s p i f byRow dst src early parity) := by
  unfold State.treeOp
  repeat' (first
    | with_reducible assumption
    | with_reducible refine State.writeResults_only (hm := Only.sub (by decide) hm) (hk := ?_) ..
    | split
    | dsimp only)

theorem State.tileFault_only {M : Nat} {s₀ : State} (s : State) (p a : Nat) (hm : 536938128 &&& M = 536938128)
    (hk : Only M s₀ s) : Only M s₀ (State.tileFault s p a) := by
  unfold State.tileFault
  repeat' (first
    | with_reducible assumption
    | with_reducible first | refine State.log_only (hm := Only.sub (by decide) hm) (hk := ?_) .. | refine State.spoil_only (hm := Only.sub (by decide) hm) (hk := ?_) ..
    | split
    | dsimp only)

theorem State.loadWrite_only {M : Nat} {s₀ : State} (s : State) (p i dist : Nat) (l : LoadReq) (x : Loaded) (hm : 1837205136 &&& M = 1837205136)
    (hk : Only M s₀ s) : Only M s₀ (State.loadWrite s p i dist l x) := by
  unfold State.loadWrite
  repeat' (first
    | with_reducible assumption
    | with_reducible first | refine State.modCore_only (hm := Only.sub (by decide) hm) (hk := ?_) .. | refine State.hazards_only (hm := Only.sub (by decide) hm) (hk := ?_) ..
    | split
    | dsimp only)

theorem State.accepted_only {M : Nat} {s₀ : State} (s : State) (p : Packet) (hm : 67108864 &&& M = 67108864)
    (hk : Only M s₀ s) : Only M s₀ (State.accepted s p) := by
  unfold State.accepted
  repeat' (first
    | with_reducible assumption
    | with_reducible refine State.modRtr_only (hm := Only.sub (by decide) hm) (hk := ?_) ..
    | with_reducible refine Only.ite ?_ ?_
    | split)

theorem State.remoteFault_only {M : Nat} {s₀ : State} (s : State) (p : Packet) (hm : 536872592 &&& M = 536872592)
    (hk : Only M s₀ s) : Only M s₀ (State.remoteFault s p) := by
  unfold State.remoteFault
  repeat' (first
    | with_reducible assumption
    | with_reducible refine State.log_only (hm := Only.sub (by decide) hm) (hk := ?_) ..)

theorem State.wakeAt_only {M : Nat} {s₀ : State} (s : State) (a : Nat) (hm : 536903682 &&& M = 536903682)
    (hk : Only M s₀ s) : Only M s₀ (State.wakeAt s a) := by
  unfold State.wakeAt
  repeat' (first
    | with_reducible assumption
    | with_reducible refine State.wake_only (hm := Only.sub (by decide) hm) (hk := ?_) ..
    | split)

theorem State.remoteWrite_only {M : Nat} {s₀ : State} (s : State) (p : Packet) (hm : 605587090 &&& M = 605587090)
    (hk : Only M s₀ s) : Only M s₀ (State.remoteWrite s p) := by
  unfold State.remoteWrite
  repeat' (first
    | with_reducible assumption
    | with_reducible first | refine State.modRtr_only (hm := Only.sub (by decide) hm) (hk := ?_) .. | refine State.writeMem_only (hm := Only.sub (by decide) hm) (hk := ?_) .. | refine State.accepted_only (hm := Only.sub (by decide) hm) (hk := ?_) .. | refine State.remoteFault_only (hm := Only.sub (by decide) hm) (hk := ?_) .. | refine State.wakeAt_only (hm := Only.sub (by decide) hm) (hk := ?_) ..
    | with_reducible refine Only.ite ?_ ?_
    | split)

theorem State.streamWrite_only {M : Nat} {s₀ : State} (s : State) (p : Nat) (dev : Coord) (reg off addr bytes : Nat) (sealed : Option (Nat × Nat × Nat)) (hm : 622429842 &&& M = 622429842)
    (hk : Only M s₀ s) : Only M s₀ (State.streamWrite s p dev reg off addr bytes sealed) := by
  unfold State.streamWrite
  repeat' (first
    | with_reducible assumption
    | with_reducible first | refine State.inject_only (hm := Only.sub (by decide) hm) (hk := ?_) .. | refine State.spoil_only (hm := Only.sub (by decide) hm) (hk := ?_) .. | refine State.remoteWrite_only (hm := Only.sub (by decide) hm) (hk := ?_) ..
    | with_reducible refine Only.ite ?_ ?_
    | with_reducible refine Only.pair (by assumption) ?_
    | split
    | dsimp only)

theorem State.localLoad_only {M : Nat} {s₀ : State} (s : State) (p i reg off addr bytes : Nat) (form : Option Expansion) (hm : 1837205136 &&& M = 1837205136)
    (hk : Only M s₀ s) : Only M s₀ (State.localLoad s p i reg off addr bytes form) := by
  unfold State.localLoad
  repeat' (first
    | with_reducible assumption
    | with_reducible first | refine State.modCore_only (hm := Only.sub (by decide) hm) (hk := ?_) .. | refine State.tileFault_only (hm := Only.sub (by decide) hm) (hk := ?_) .. | refine State.loadWrite_only (hm := Only.sub (by decide) hm) (hk := ?_) ..
    | with_reducible refine Only.ite ?_ ?_
    | split
    | dsimp only)

theorem State.deviceLoad_only {M : Nat} {s₀ : State} (s : State) (p i : Nat) (dev : Coord) (reg off addr bytes : Nat) (hm : 620824208 &&& M = 620824208)
    (hk : Only M s₀ s) : Only M s₀ (State.deviceLoad s p i dev reg off addr bytes) := by
  unfold State.deviceLoad
  repeat' (first
    | with_reducible assumption
    | with_reducible first | refine State.modCore_only (hm := Only.sub (by decide) hm) (hk := ?_) .. | refine State.log_only (hm := Only.sub (by decide) hm) (hk := ?_) .. | refine State.spoil_only (hm := Only.sub (by decide) hm) (hk := ?_) .. | refine State.sendRead_only (hm := Only.sub (by decide) hm) (hk := ?_) ..
    | with_reducible refine Only.ite ?_ ?_
    | with_reducible refine Only.pair (by assumption) ?_
    | split
    | dsimp only)

theorem State.loadDone_only {M : Nat} {s₀ : State} (s : State) (p i : Nat) (l : LoadReq) (hm : 65536 &&& M = 65536)
    (hk : Only M s₀ s) : Only M s₀ (State.loadDone s p i l) := by
  unfold State.loadDone
  repeat' (first
    | with_reducible assumption
    | with_reducible refine State.modCore_only (hm := Only.sub (by decide) hm) (hk := ?_) ..
    | split
    | dsimp only)

theorem State.teEffect_only {M : Nat} {s₀ : State} (s : State) (p i : Nat) (ly : Layer) (o : TeOp) (parity : List Nat) (hm : 1839040146 &&& M = 1839040146)
    (hk : Only M s₀ s) : Only M s₀ (State.teEffect s p i ly o parity) := by
  unfold State.teEffect
  repeat' (first
    | with_reducible assumption
    | with_reducible first | refine State.modCore_only (hm := Only.sub (by decide) hm) (hk := ?_) .. | refine State.finishRowTile_only (hm := Only.sub (by decide) hm) (hk := ?_) .. | refine State.epilogue_only (hm := Only.sub (by decide) hm) (hk := ?_) .. | refine State.teTile_only (hm := Only.sub (by decide) hm) (hk := ?_) .. | refine State.storeRegion_only (hm := Only.sub (by decide) hm) (hk := ?_) .. | refine State.hazards_only (hm := Only.sub (by decide) hm) (hk := ?_) .. | refine State.laneOp_only (hm := Only.sub (by decide) hm) (hk := ?_) .. | refine State.treeOp_only (hm := Only.sub (by decide) hm) (hk := ?_) .. | refine State.streamWrite_only (hm := Only.sub (by decide) hm) (hk := ?_) .. | refine State.localLoad_only (hm := Only.sub (by decide) hm) (hk := ?_) .. | refine State.deviceLoad_only (hm := Only.sub (by decide) hm) (hk := ?_) ..
    | with_reducible refine Only.ite ?_ ?_
    | split
    | dsimp only)

theorem State.wakeStalled_only {M : Nat} {s₀ : State} (s : State) (p : Nat) (on : StallOn) (hm : 65536 &&& M = 65536)
    (hk : Only M s₀ s) : Only M s₀ (State.wakeStalled s p on) := by
  unfold State.wakeStalled
  repeat' (first
    | with_reducible assumption
    | with_reducible refine State.modCore_only (hm := Only.sub (by decide) hm) (hk := ?_) ..
    | with_reducible refine Only.foldl (fun _ _ _ => ?_) ?_
    | split)

theorem State.poisonAccs_only {M : Nat} {s₀ : State} (s : State) (p : Nat) (bad : List (Nat × Nat)) (hm : 65536 &&& M = 65536)
    (hk : Only M s₀ s) : Only M s₀ (State.poisonAccs s p bad) := by
  unfold State.poisonAccs
  repeat' (first
    | with_reducible assumption
    | with_reducible refine State.modCore_only (hm := Only.sub (by decide) hm) (hk := ?_) ..
    | split)

theorem execMxeIssue_only {M : Nat} {s₀ : State} (p dt : Nat) (ecc : List (Nat × EccResult)) (parity : List (Nat × Nat)) (s : State) (hm : 1838909072 &&& M = 1838909072)
    (hk : Only M s₀ s) : Answers (execMxeIssue p dt ecc parity s) (Only M s₀) := by
  unfold execMxeIssue
  repeat' (first
    | with_reducible assumption
    | with_reducible refine Answers.next ?_
    | with_reducible refine Answers.ite ?_ ?_
    | with_reducible first | refine State.mxeIssue_only (hm := Only.sub (by decide) hm) (hk := ?_) .. | refine State.advance_only (hm := Only.sub (by decide) hm) (hk := ?_) .. | refine State.eccAll_only (hm := Only.sub (by decide) hm) (hk := ?_) .. | refine State.tileParity_only (hm := Only.sub (by decide) hm) (hk := ?_) .. | refine State.wakeStalled_only (hm := Only.sub (by decide) hm) (hk := ?_) .. | refine State.poisonAccs_only (hm := Only.sub (by decide) hm) (hk := ?_) ..
    | with_reducible refine Only.ite ?_ ?_
    | dsimp only)

theorem execFinishedTileDrain_only {M : Nat} {s₀ : State} (p i : Nat) (ecc : List (Nat × EccResult)) (parity : List (Nat × Nat)) (s : State) (hm : 1838909072 &&& M = 1838909072)
    (hk : Only M s₀ s) : Answers (execFinishedTileDrain p i ecc parity s) (Only M s₀) := by
  unfold execFinishedTileDrain
  repeat' (first
    | with_reducible assumption
    | with_reducible refine Answers.next ?_
    | with_reducible refine Answers.ite ?_ ?_
    | with_reducible first | refine State.mxeDrain_only (hm := Only.sub (by decide) hm) (hk := ?_) .. | refine State.eccAll_only (hm := Only.sub (by decide) hm) (hk := ?_) .. | refine State.tileParity_only (hm := Only.sub (by decide) hm) (hk := ?_) .. | refine State.wakeStalled_only (hm := Only.sub (by decide) hm) (hk := ?_) ..
    | with_reducible refine Only.ite ?_ ?_
    | dsimp only)

theorem execTileOperation_only {M : Nat} {s₀ : State} (p i dt : Nat) (o : TeOp) (ecc : List (Nat × EccResult)) (parity : List Nat) (s : State) (hm : 1839171218 &&& M = 1839171218)
    (hk : Only M s₀ s) : Answers (execTileOperation p i dt o ecc parity s) (Only M s₀) := by
  unfold execTileOperation
  repeat' (first
    | with_reducible assumption
    | with_reducible refine Answers.next ?_
    | with_reducible first | refine State.modCore_only (hm := Only.sub (by decide) hm) (hk := ?_) .. | refine State.advance_only (hm := Only.sub (by decide) hm) (hk := ?_) .. | refine State.eccAll_only (hm := Only.sub (by decide) hm) (hk := ?_) .. | refine State.teEffect_only (hm := Only.sub (by decide) hm) (hk := ?_) ..
    | split
    | dsimp only)

theorem execLoadLand_only {M : Nat} {s₀ : State} (p i dt j : Nat) (ecc : List (Nat × EccResult)) (s : State) (hm : 1838909072 &&& M = 1838909072)
    (hk : Only M s₀ s) : Answers (execLoadLand p i dt j ecc s) (Only M s₀) := by
  unfold execLoadLand
  repeat' (first
    | with_reducible assumption
    | with_reducible refine Answers.next ?_
    | with_reducible refine Answers.ite ?_ ?_
    | with_reducible first | refine State.advance_only (hm := Only.sub (by decide) hm) (hk := ?_) .. | refine State.eccAll_only (hm := Only.sub (by decide) hm) (hk := ?_) .. | refine State.loadWrite_only (hm := Only.sub (by decide) hm) (hk := ?_) .. | refine State.loadDone_only (hm := Only.sub (by decide) hm) (hk := ?_) ..
    | split
    | dsimp only)

theorem State.reqTick_only {M : Nat} {s₀ : State} (s : State) (c : Nat) (who : Requester) (t : Tick) (hm : 1610712720 &&& M = 1610712720)
    (hk : Only M s₀ s) : Only M s₀ (State.reqTick s c who t) := by
  unfold State.reqTick
  repeat' (first
    | with_reducible assumption
    | with_reducible first | refine State.advance_only (hm := Only.sub (by decide) hm) (hk := ?_) .. | refine State.tick_only (hm := Only.sub (by decide) hm) (hk := ?_) ..
    | split)

theorem State.ownCoin_only {M : Nat} {s₀ : State} (s : State) (c : Nat) (who : Requester) (t : Tick) (q : Nat) (op : CoinOp) (hm : 2105771922 &&& M = 2105771922)
    (hk : Only M s₀ s) : Only M s₀ (State.ownCoin s c who t q op) := by
  unfold State.ownCoin
  repeat' (first
    | with_reducible assumption
    | with_reducible first | refine State.coinLocal_only (hm := Only.sub (by decide) hm) (hk := ?_) .. | refine State.seqMemLost_only (hm := Only.sub (by decide) hm) (hk := ?_) .. | refine State.reqTick_only (hm := Only.sub (by decide) hm) (hk := ?_) ..
    | with_reducible refine Only.ite ?_ ?_
    | dsimp only)

theorem execDeposit_only {M : Nat} {s₀ : State} (c : Nat) (who : Requester) (t : Tick) (q : Nat) (coin : W32) (s : State) (hm : 2105771922 &&& M = 2105771922)
    (hk : Only M s₀ s) : Answers (execDeposit c who t q coin s) (Only M s₀) := by
  unfold execDeposit
  repeat' (first
    | with_reducible assumption
    | with_reducible refine Answers.next ?_
    | with_reducible refine State.ownCoin_only (hm := Only.sub (by decide) hm) (hk := ?_) ..
    | dsimp only)

theorem execTake_only {M : Nat} {s₀ : State} (c : Nat) (who : Requester) (t : Tick) (q : Nat) (s : State) (hm : 2105771922 &&& M = 2105771922)
    (hk : Only M s₀ s) : Answers (execTake c who t q s) (Only M s₀) := by
  unfold execTake
  repeat' (first
    | with_reducible assumption
    | with_reducible refine Answers.next ?_
    | with_reducible refine State.ownCoin_only (hm := Only.sub (by decide) hm) (hk := ?_) ..
    | dsimp only)

theorem execPeek_only {M : Nat} {s₀ : State} (c : Nat) (who : Requester) (t : Tick) (q : Nat) (s : State) (hm : 2105771922 &&& M = 2105771922)
    (hk : Only M s₀ s) : Answers (execPeek c who t q s) (Only M s₀) := by
  unfold execPeek
  repeat' (first
    | with_reducible assumption
    | with_reducible refine Answers.next ?_
    | with_reducible refine State.ownCoin_only (hm := Only.sub (by decide) hm) (hk := ?_) ..
    | dsimp only)

theorem execBell_only {M : Nat} {s₀ : State} (c : Nat) (who : Requester) (t : Tick) (q : Nat) (coin : W32) (n : Nat) (s : State) (hm : 2105771922 &&& M = 2105771922)
    (hk : Only M s₀ s) : Answers (execBell c who t q coin n s) (Only M s₀) := by
  unfold execBell
  repeat' (first
    | with_reducible assumption
    | with_reducible refine Answers.next ?_
    | with_reducible refine State.ownCoin_only (hm := Only.sub (by decide) hm) (hk := ?_) ..
    | dsimp only)

theorem execTakeNArm_only {M : Nat} {s₀ : State} (c : Nat) (t : Tick) (q n : Nat) (s : State) (hm : 2105771920 &&& M = 2105771920)
    (hk : Only M s₀ s) : Answers (execTakeNArm c t q n s) (Only M s₀) := by
  unfold execTakeNArm
  repeat' (first
    | with_reducible assumption
    | with_reducible refine Answers.next ?_
    | with_reducible first | refine State.modCluster_only (hm := Only.sub (by decide) hm) (hk := ?_) .. | refine State.onSeq_only (hm := Only.sub (by decide) hm) (hk := ?_) (hf := ?_) ..
    | with_reducible refine Only.ite ?_ ?_
    | intro _ _
    | split
    | dsimp only)

theorem execTakeN_only {M : Nat} {s₀ : State} (c : Nat) (who : Requester) (t : Tick) (q n : Nat) (s : State) (hm : 2105771922 &&& M = 2105771922)
    (hk : Only M s₀ s) : Answers (execTakeN c who t q n s) (Only M s₀) := by
  unfold execTakeN
  repeat' (first
    | with_reducible assumption
    | with_reducible refine Answers.next ?_
    | with_reducible first | refine State.modCluster_only (hm := Only.sub (by decide) hm) (hk := ?_) .. | refine State.coinLocal_only (hm := Only.sub (by decide) hm) (hk := ?_) .. | refine State.haltSeq_only (hm := Only.sub (by decide) hm) (hk := ?_) .. | refine State.onSeq_only (hm := Only.sub (by decide) hm) (hk := ?_) (hf := ?_) .. | refine State.ownCoin_only (hm := Only.sub (by decide) hm) (hk := ?_) ..
    | intro _ _
    | split
    | dsimp only)

theorem State.goRemote_only {M : Nat} {s₀ : State} (s : State) (c : Nat) (who : Requester) (target : W64) (coin : W32) (hm : 620856978 &&& M = 620856978)
    (hk : Only M s₀ s) : Only M s₀ (State.goRemote s c who target coin) := by
  unfold State.goRemote
  repeat' (first
    | with_reducible assumption
    | with_reducible first | refine State.toRequester_only (hm := Only.sub (by decide) hm) (hk := ?_) .. | refine State.waitCoin_only (hm := Only.sub (by decide) hm) (hk := ?_) .. | refine State.coinRemote_only (hm := Only.sub (by decide) hm) (hk := ?_) ..
    | with_reducible refine Only.ite ?_ ?_
    | split
    | dsimp only)

theorem execRemoteCoinGo_only {M : Nat} {s₀ : State} (c : Nat) (who : Requester) (t : Tick) (target : W64) (coin : W32) (load : Bool) (s : State) (hm : 2105771922 &&& M = 2105771922)
    (hk : Only M s₀ s) : Answers (execRemoteCoinGo c who t target coin load s) (Only M s₀) := by
  unfold execRemoteCoinGo
  repeat' (first
    | with_reducible assumption
    | with_reducible refine Answers.next ?_
    | with_reducible refine Answers.ite ?_ ?_
    | with_reducible first | refine State.modCluster_only (hm := Only.sub (by decide) hm) (hk := ?_) .. | refine State.waitCoin_only (hm := Only.sub (by decide) hm) (hk := ?_) .. | refine State.seqMemLost_only (hm := Only.sub (by decide) hm) (hk := ?_) .. | refine State.reqTick_only (hm := Only.sub (by decide) hm) (hk := ?_) .. | refine State.goRemote_only (hm := Only.sub (by decide) hm) (hk := ?_) ..
    | with_reducible refine Only.ite ?_ ?_
    | split
    | dsimp only)

theorem execCoinPacket_only {M : Nat} {s₀ : State} (p : Packet) (s : State) (hm : 620856978 &&& M = 620856978)
    (hk : Only M s₀ s) : Answers (execCoinPacket p s) (Only M s₀) := by
  unfold execCoinPacket
  repeat' (first
    | with_reducible assumption
    | with_reducible refine Answers.next ?_
    | with_reducible refine Answers.ite ?_ ?_
    | with_reducible refine State.coinRequest_only (hm := Only.sub (by decide) hm) (hk := ?_) ..
    | dsimp only)

theorem execCoinReply_only {M : Nat} {s₀ : State} (p : Packet) (s : State) (hm : 620856976 &&& M = 620856976)
    (hk : Only M s₀ s) : Answers (execCoinReply p s) (Only M s₀) := by
  unfold execCoinReply
  repeat' (first
    | with_reducible assumption
    | with_reducible refine Answers.next ?_
    | with_reducible refine Answers.ite ?_ ?_
    | with_reducible first | refine State.replyIn_only (hm := Only.sub (by decide) hm) (hk := ?_) .. | refine State.consumed_only (hm := Only.sub (by decide) hm) (hk := ?_) .. | refine State.badPacket_only (hm := Only.sub (by decide) hm) (hk := ?_) ..
    | dsimp only)

theorem execCoinWaitTimeout_only {M : Nat} {s₀ : State} (c q j : Nat) (s : State) (hm : 620856978 &&& M = 620856978)
    (hk : Only M s₀ s) : Answers (execCoinWaitTimeout c q j s) (Only M s₀) := by
  unfold execCoinWaitTimeout
  repeat' (first
    | with_reducible assumption
    | with_reducible refine Answers.next ?_
    | with_reducible refine State.coinTimedOut_only (hm := Only.sub (by decide) hm) (hk := ?_) ..
    | with_reducible refine Only.ite ?_ ?_
    | split
    | dsimp only)

theorem execCoinGuardExpiry_only {M : Nat} {s₀ : State} (j : Nat) (s : State) (hm : 620856978 &&& M = 620856978)
    (hk : Only M s₀ s) : Answers (execCoinGuardExpiry j s) (Only M s₀) := by
  unfold execCoinGuardExpiry
  repeat' (first
    | with_reducible assumption
    | with_reducible refine Answers.next ?_
    | with_reducible first | refine State.modRtr_only (hm := Only.sub (by decide) hm) (hk := ?_) .. | refine State.coinTimedOut_only (hm := Only.sub (by decide) hm) (hk := ?_) ..
    | split
    | dsimp only)

theorem execSealDeposit_only {M : Nat} {s₀ : State} (src : Coord) (channel : Nat) (s : State) (hm : 620856978 &&& M = 620856978)
    (hk : Only M s₀ s) : Answers (execSealDeposit src channel s) (Only M s₀) := by
  unfold execSealDeposit
  repeat' (first
    | with_reducible assumption
    | with_reducible refine Answers.next ?_
    | with_reducible refine Answers.ite ?_ ?_
    | with_reducible first | refine State.modRtr_only (hm := Only.sub (by decide) hm) (hk := ?_) .. | refine State.coinApply_only (hm := Only.sub (by decide) hm) (hk := ?_) ..
    | split
    | dsimp only)

end Sys2Proof.Machine
end

