-- ==== Sys2Proof/Laws/OnlyStep.lean ====
section
/-!
SUPPORT. `Only` of every operation on the state, part: decisions, collectives, links and packets.
-/
set_option autoImplicit false
set_option linter.unusedVariables false
namespace Sys2Proof.Machine

theorem State.modCounts_only {M : Nat} {s₀ : State} (s : State) (g : Nat) (f : GroupCounts → GroupCounts) (hm : 2097152 &&& M = 2097152)
    (hk : Only M s₀ s) : Only M s₀ (State.modCounts s g f) := by
  unfold State.modCounts
  repeat' (first
    | with_reducible assumption
    | with_reducible refine State.modSet_only (hm := Only.sub (by decide) hm) (hk := ?_) ..
    | split)

theorem State.modGuard_only {M : Nat} {s₀ : State} (s : State) (g : Nat) (f : GroupGuard → GroupGuard) (hm : 2097152 &&& M = 2097152)
    (hk : Only M s₀ s) : Only M s₀ (State.modGuard s g f) := by
  unfold State.modGuard
  repeat' (first
    | with_reducible assumption
    | with_reducible refine State.modSet_only (hm := Only.sub (by decide) hm) (hk := ?_) ..
    | split)

theorem State.setPresent_only {M : Nat} {s₀ : State} (s : State) (r : Row) (i : Nat) (b : Bool) (hm : 1572864 &&& M = 1572864)
    (hk : Only M s₀ s) : Only M s₀ (State.setPresent s r i b) := by
  unfold State.setPresent
  repeat' (first
    | with_reducible assumption
    | with_reducible refine State.writeMem_only (hm := Only.sub (by decide) hm) (hk := ?_) ..
    | dsimp only)

theorem State.setShare_only {M : Nat} {s₀ : State} (s : State) (g i : Nat) (n : BlockShare) (hm : 2097152 &&& M = 2097152)
    (hk : Only M s₀ s) : Only M s₀ (State.setShare s g i n) := by
  unfold State.setShare
  repeat' (first
    | with_reducible assumption
    | with_reducible first | refine State.modSet_only (hm := Only.sub (by decide) hm) (hk := ?_) .. | refine State.modGuard_only (hm := Only.sub (by decide) hm) (hk := ?_) ..
    | split
    | dsimp only)

theorem State.dropShare_only {M : Nat} {s₀ : State} (s : State) (g i : Nat) (hm : 2097152 &&& M = 2097152)
    (hk : Only M s₀ s) : Only M s₀ (State.dropShare s g i) := by
  unfold State.dropShare
  repeat' (first
    | with_reducible assumption
    | with_reducible refine State.setShare_only (hm := Only.sub (by decide) hm) (hk := ?_) ..
    | with_reducible refine Only.ite ?_ ?_)

theorem State.dropLanding_only {M : Nat} {s₀ : State} (s : State) (l : Land) (cause : Nat) (hm : 538969744 &&& M = 538969744)
    (hk : Only M s₀ s) : Only M s₀ (State.dropLanding s l cause) := by
  unfold State.dropLanding
  repeat' (first
    | with_reducible assumption
    | with_reducible first | refine State.modSet_only (hm := Only.sub (by decide) hm) (hk := ?_) .. | refine State.log_only (hm := Only.sub (by decide) hm) (hk := ?_) .. | refine State.modCounts_only (hm := Only.sub (by decide) hm) (hk := ?_) ..
    | with_reducible refine Only.ite ?_ ?_
    | split
    | dsimp only)

theorem State.applyLanding_only {M : Nat} {s₀ : State} (s : State) (l : Land) (hm : 3670016 &&& M = 3670016)
    (hk : Only M s₀ s) : Only M s₀ (State.applyLanding s l) := by
  unfold State.applyLanding
  repeat' (first
    | with_reducible assumption
    | with_reducible first | refine State.modSet_only (hm := Only.sub (by decide) hm) (hk := ?_) .. | refine State.writeMem_only (hm := Only.sub (by decide) hm) (hk := ?_) .. | refine State.setPresent_only (hm := Only.sub (by decide) hm) (hk := ?_) .. | refine State.setShare_only (hm := Only.sub (by decide) hm) (hk := ?_) .. | refine State.dropShare_only (hm := Only.sub (by decide) hm) (hk := ?_) ..
    | split
    | dsimp only)

theorem State.land_only {M : Nat} {s₀ : State} (s : State) (l : Land) (hm : 540542608 &&& M = 540542608)
    (hk : Only M s₀ s) : Only M s₀ (State.land s l) := by
  unfold State.land
  repeat' (first
    | with_reducible assumption
    | with_reducible first | refine State.modSet_only (hm := Only.sub (by decide) hm) (hk := ?_) .. | refine State.dropLanding_only (hm := Only.sub (by decide) hm) (hk := ?_) .. | refine State.applyLanding_only (hm := Only.sub (by decide) hm) (hk := ?_) ..
    | with_reducible refine Only.ite ?_ ?_
    | split)

theorem State.releaseLands_only {M : Nat} {s₀ : State} (s : State) (hm : 624428688 &&& M = 624428688)
    (hk : Only M s₀ s) : Only M s₀ (State.releaseLands s) := by
  unfold State.releaseLands
  repeat' (first
    | with_reducible assumption
    | with_reducible first | refine State.modSet_only (hm := Only.sub (by decide) hm) (hk := ?_) .. | refine State.freeKept_only (hm := Only.sub (by decide) hm) (hk := ?_) .. | refine State.land_only (hm := Only.sub (by decide) hm) (hk := ?_) ..
    | with_reducible refine Only.foldl (fun _ _ _ => ?_) ?_
    | split
    | dsimp only)

theorem State.judgeDormant_only {M : Nat} {s₀ : State} (s : State) (g : Nat) (live : Bool) (hm : 543164048 &&& M = 543164048)
    (hk : Only M s₀ s) : Only M s₀ (State.judgeDormant s g live) := by
  unfold State.judgeDormant
  repeat' (first
    | with_reducible assumption
    | with_reducible first | refine State.modDec_only (hm := Only.sub (by decide) hm) (hk := ?_) .. | refine State.log_only (hm := Only.sub (by decide) hm) (hk := ?_) .. | refine State.modGuard_only (hm := Only.sub (by decide) hm) (hk := ?_) ..
    | with_reducible refine Only.ite ?_ ?_
    | split
    | dsimp only)

theorem State.lossSample_only {M : Nat} {s₀ : State} (s : State) (hm : 543164048 &&& M = 543164048)
    (hk : Only M s₀ s) : Only M s₀ (State.lossSample s) := by
  unfold State.lossSample
  repeat' (first
    | with_reducible assumption
    | with_reducible first | refine State.modSet_only (hm := Only.sub (by decide) hm) (hk := ?_) .. | refine State.modDec_only (hm := Only.sub (by decide) hm) (hk := ?_) .. | refine State.log_only (hm := Only.sub (by decide) hm) (hk := ?_) ..
    | with_reducible refine Only.ite ?_ ?_
    | split
    | dsimp only)

theorem State.guardsAtContribution_only {M : Nat} {s₀ : State} (s : State) (hm : 2097152 &&& M = 2097152)
    (hk : Only M s₀ s) : Only M s₀ (State.guardsAtContribution s) := by
  unfold State.guardsAtContribution
  repeat' (first
    | with_reducible assumption
    | with_reducible refine State.modGuard_only (hm := Only.sub (by decide) hm) (hk := ?_) ..
    | with_reducible refine Only.foldl (fun _ _ _ => ?_) ?_
    | split)

theorem State.dropShares_only {M : Nat} {s₀ : State} (s : State) (hm : 2097152 &&& M = 2097152)
    (hk : Only M s₀ s) : Only M s₀ (State.dropShares s) := by
  unfold State.dropShares
  repeat' (first
    | with_reducible assumption
    | with_reducible refine State.dropShare_only (hm := Only.sub (by decide) hm) (hk := ?_) ..
    | with_reducible refine Only.foldl (fun _ _ _ => ?_) ?_
    | split)

theorem State.contribute_only {M : Nat} {s₀ : State} (s : State) (hm : 543164048 &&& M = 543164048)
    (hk : Only M s₀ s) : Only M s₀ (State.contribute s) := by
  unfold State.contribute
  repeat' (first
    | with_reducible assumption
    | with_reducible first | refine State.modSet_only (hm := Only.sub (by decide) hm) (hk := ?_) .. | refine State.modDec_only (hm := Only.sub (by decide) hm) (hk := ?_) .. | refine State.modCounts_only (hm := Only.sub (by decide) hm) (hk := ?_) .. | refine State.judgeDormant_only (hm := Only.sub (by decide) hm) (hk := ?_) .. | refine State.lossSample_only (hm := Only.sub (by decide) hm) (hk := ?_) .. | refine State.guardsAtContribution_only (hm := Only.sub (by decide) hm) (hk := ?_) .. | refine State.dropShares_only (hm := Only.sub (by decide) hm) (hk := ?_) ..
    | with_reducible refine Only.foldl (fun _ _ _ => ?_) ?_
    | split
    | dsimp only)

theorem State.writeWc_only {M : Nat} {s₀ : State} (s : State) (r : Row) (i : Nat) (c : List Nat × Nat × Nat) (pois : Bool) (hm : 1572864 &&& M = 1572864)
    (hk : Only M s₀ s) : Only M s₀ (State.writeWc s r i c pois) := by
  unfold State.writeWc
  repeat' (first
    | with_reducible assumption
    | with_reducible refine State.writeMem_only (hm := Only.sub (by decide) hm) (hk := ?_) ..
    | with_reducible refine Only.ite ?_ ?_
    | split
    | dsimp only)

theorem State.refreshBlock_only {M : Nat} {s₀ : State} (s : State) (r : Row) (i : Nat) (hm : 1572864 &&& M = 1572864)
    (hk : Only M s₀ s) : Only M s₀ (State.refreshBlock s r i) := by
  unfold State.refreshBlock
  repeat' (first
    | with_reducible assumption
    | with_reducible refine State.writeWc_only (hm := Only.sub (by decide) hm) (hk := ?_) ..
    | split
    | dsimp only)

theorem State.settleBlock_only {M : Nat} {s₀ : State} (s : State) (g : Nat) (r : Row) (k : StepConst) (step i : Nat) (absent : Bool) (hm : 3932160 &&& M = 3932160)
    (hk : Only M s₀ s) : Only M s₀ (State.settleBlock s g r k step i absent).2 := by
  unfold State.settleBlock
  repeat' (first
    | with_reducible assumption
    | with_reducible first | refine State.writeMem_only (hm := Only.sub (by decide) hm) (hk := ?_) .. | refine State.modGuard_only (hm := Only.sub (by decide) hm) (hk := ?_) .. | refine State.setPresent_only (hm := Only.sub (by decide) hm) (hk := ?_) .. | refine State.writeWc_only (hm := Only.sub (by decide) hm) (hk := ?_) ..
    | with_reducible refine Only.ite ?_ ?_
    | with_reducible refine Only.ite2 ?_ ?_
    | split
    | with_reducible refine Only.set_hwm (hm := Only.sub (by decide) hm) (h := ?_) ..
    | dsimp only)

theorem State.passGroup_only {M : Nat} {s₀ : State} (s : State) (g : Nat) (k : StepConst) (step : Nat) (hm : 540804752 &&& M = 540804752)
    (hk : Only M s₀ s) : Only M s₀ (State.passGroup s g k step).2.2 := by
  unfold State.passGroup
  repeat' (first
    | with_reducible assumption
    | with_reducible first | refine State.log_only (hm := Only.sub (by decide) hm) (hk := ?_) .. | refine State.modCounts_only (hm := Only.sub (by decide) hm) (hk := ?_) .. | refine State.settleBlock_only (hm := Only.sub (by decide) hm) (hk := ?_) ..
    | with_reducible refine Only.foldl (fun _ _ _ => ?_) ?_
    | with_reducible refine Only.foldl2 (fun _ _ _ => ?_) ?_
    | split
    | dsimp only)

theorem State.clearTotals_only {M : Nat} {s₀ : State} (s : State) (hm : 2097152 &&& M = 2097152)
    (hk : Only M s₀ s) : Only M s₀ (State.clearTotals s) := by
  unfold State.clearTotals
  repeat' (first
    | with_reducible assumption
    | with_reducible refine State.modSet_only (hm := Only.sub (by decide) hm) (hk := ?_) ..
    | split)

theorem State.clearPresence_only {M : Nat} {s₀ : State} (s : State) (hm : 1572864 &&& M = 1572864)
    (hk : Only M s₀ s) : Only M s₀ (State.clearPresence s) := by
  unfold State.clearPresence
  repeat' (first
    | with_reducible assumption
    | with_reducible refine State.setPresent_only (hm := Only.sub (by decide) hm) (hk := ?_) ..
    | with_reducible refine Only.ite ?_ ?_
    | with_reducible refine Only.foldl (fun _ _ _ => ?_) ?_
    | split
    | dsimp only)

theorem State.failWalk_only {M : Nat} {s₀ : State} (s : State) (hm : 12058624 &&& M = 12058624)
    (hk : Only M s₀ s) : Only M s₀ (State.failWalk s) := by
  unfold State.failWalk
  repeat' (first
    | with_reducible assumption
    | with_reducible first | refine State.modSet_only (hm := Only.sub (by decide) hm) (hk := ?_) .. | refine State.modCol_only (hm := Only.sub (by decide) hm) (hk := ?_) .. | refine State.clearTotals_only (hm := Only.sub (by decide) hm) (hk := ?_) .. | refine State.clearPresence_only (hm := Only.sub (by decide) hm) (hk := ?_) ..
    | split)

theorem State.settlePass_only {M : Nat} {s₀ : State} (s : State) (c : W32) (step : Nat) (hm : 544999056 &&& M = 544999056)
    (hk : Only M s₀ s) : Only M s₀ (State.settlePass s c step) := by
  unfold State.settlePass
  repeat' (first
    | with_reducible assumption
    | with_reducible first | refine State.modDec_only (hm := Only.sub (by decide) hm) (hk := ?_) .. | refine State.passGroup_only (hm := Only.sub (by decide) hm) (hk := ?_) ..
    | with_reducible refine Only.foldl3 (fun _ _ _ => ?_) ?_
    | split
    | dsimp only)

theorem State.judgeStmt_only {M : Nat} {s₀ : State} (s : State) (st : Stmt) (hm : 553387664 &&& M = 553387664)
    (hk : Only M s₀ s) : Only M s₀ (State.judgeStmt s st) := by
  unfold State.judgeStmt
  repeat' (first
    | with_reducible assumption
    | with_reducible first | refine State.modSet_only (hm := Only.sub (by decide) hm) (hk := ?_) .. | refine State.modDec_only (hm := Only.sub (by decide) hm) (hk := ?_) .. | refine State.modCol_only (hm := Only.sub (by decide) hm) (hk := ?_) .. | refine State.total_only (hm := Only.sub (by decide) hm) (hk := ?_) .. | refine State.log_only (hm := Only.sub (by decide) hm) (hk := ?_) .. | refine State.clearTotals_only (hm := Only.sub (by decide) hm) (hk := ?_) .. | refine State.clearPresence_only (hm := Only.sub (by decide) hm) (hk := ?_) .. | refine State.settlePass_only (hm := Only.sub (by decide) hm) (hk := ?_) ..
    | with_reducible refine Only.ite ?_ ?_
    | split
    | dsimp only)

theorem State.stepPosted_only {M : Nat} {s₀ : State} (s : State) (hm : 4194304 &&& M = 4194304)
    (hk : Only M s₀ s) : Only M s₀ (State.stepPosted s) := by
  unfold State.stepPosted
  repeat' (first
    | with_reducible assumption
    | with_reducible refine State.modDec_only (hm := Only.sub (by decide) hm) (hk := ?_) ..
    | split)

theorem State.endWalk_only {M : Nat} {s₀ : State} (s : State) (hm : 624428688 &&& M = 624428688)
    (hk : Only M s₀ s) : Only M s₀ (State.endWalk s) := by
  unfold State.endWalk
  repeat' (first
    | with_reducible assumption
    | with_reducible first | refine State.modSet_only (hm := Only.sub (by decide) hm) (hk := ?_) .. | refine State.releaseLands_only (hm := Only.sub (by decide) hm) (hk := ?_) ..
    | with_reducible refine Only.ite ?_ ?_
    | split
    | dsimp only)

theorem State.cfgEnds_only {M : Nat} {s₀ : State} (s : State) (hm : 624428688 &&& M = 624428688)
    (hk : Only M s₀ s) : Only M s₀ (State.cfgEnds s) := by
  unfold State.cfgEnds
  repeat' (first
    | with_reducible assumption
    | with_reducible first | refine State.modSet_only (hm := Only.sub (by decide) hm) (hk := ?_) .. | refine State.releaseLands_only (hm := Only.sub (by decide) hm) (hk := ?_) ..
    | with_reducible refine Only.ite ?_ ?_
    | split)

theorem State.streamLaunch_only {M : Nat} {s₀ : State} (s : State) (n : Nat) (p : Packet) (hm : 620758672 &&& M = 620758672)
    (hk : Only M s₀ s) : Only M s₀ (State.streamLaunch s n p).2 := by
  unfold State.streamLaunch
  repeat' (first
    | with_reducible assumption
    | with_reducible first | refine State.fenced_only (hm := Only.sub (by decide) hm) (hk := ?_) .. | refine State.dropNoPort_only (hm := Only.sub (by decide) hm) (hk := ?_) .. | refine State.moved_only (hm := Only.sub (by decide) hm) (hk := ?_) .. | refine State.enqueue_only (hm := Only.sub (by decide) hm) (hk := ?_) ..
    | with_reducible refine Only.ite2 ?_ ?_
    | dsimp only)

theorem State.streamSend_only {M : Nat} {s₀ : State} (s : State) (n : Nat) (p : Packet) (hm : 620758672 &&& M = 620758672)
    (hk : Only M s₀ s) : Only M s₀ (State.streamSend s n p).2 := by
  unfold State.streamSend
  repeat' (first
    | with_reducible assumption
    | with_reducible first | refine State.modRtr_only (hm := Only.sub (by decide) hm) (hk := ?_) .. | refine State.streamLaunch_only (hm := Only.sub (by decide) hm) (hk := ?_) ..
    | with_reducible refine Only.ite2 ?_ ?_
    | split
    | dsimp only)

theorem State.stmtFail_only {M : Nat} {s₀ : State} (s : State) (st : Status) (hm : 553125520 &&& M = 553125520)
    (hk : Only M s₀ s) : Only M s₀ (State.stmtFail s st) := by
  unfold State.stmtFail
  repeat' (first
    | with_reducible assumption
    | with_reducible first | refine State.modDec_only (hm := Only.sub (by decide) hm) (hk := ?_) .. | refine State.log_only (hm := Only.sub (by decide) hm) (hk := ?_) .. | refine State.failWalk_only (hm := Only.sub (by decide) hm) (hk := ?_) ..
    | split
    | dsimp only)

theorem State.stmtFinal_only {M : Nat} {s₀ : State} (s : State) (bs : List Byte) (hm : 637273744 &&& M = 637273744)
    (hk : Only M s₀ s) : Only M s₀ (State.stmtFinal s bs) := by
  unfold State.stmtFinal
  repeat' (first
    | with_reducible assumption
    | with_reducible first | refine State.modDec_only (hm := Only.sub (by decide) hm) (hk := ?_) .. | refine State.judgeStmt_only (hm := Only.sub (by decide) hm) (hk := ?_) .. | refine State.streamSend_only (hm := Only.sub (by decide) hm) (hk := ?_) ..
    | with_reducible refine Only.foldl (fun _ _ _ => ?_) ?_
    | split
    | dsimp only)

theorem State.stmtAdvance_only {M : Nat} {s₀ : State} (s : State) (hm : 637273744 &&& M = 637273744)
    (hk : Only M s₀ s) : Only M s₀ (State.stmtAdvance s) := by
  unfold State.stmtAdvance
  repeat' (first
    | with_reducible assumption
    | with_reducible first | refine State.modDec_only (hm := Only.sub (by decide) hm) (hk := ?_) .. | refine State.streamSend_only (hm := Only.sub (by decide) hm) (hk := ?_) .. | refine State.stmtFail_only (hm := Only.sub (by decide) hm) (hk := ?_) .. | refine State.stmtFinal_only (hm := Only.sub (by decide) hm) (hk := ?_) ..
    | with_reducible refine Only.ite ?_ ?_
    | with_reducible refine Only.pair (by assumption) ?_
    | split
    | dsimp only)

theorem State.stmtStart_only {M : Nat} {s₀ : State} (s : State) (hm : 637273744 &&& M = 637273744)
    (hk : Only M s₀ s) : Only M s₀ (State.stmtStart s) := by
  unfold State.stmtStart
  repeat' (first
    | with_reducible assumption
    | with_reducible first | refine State.judgeStmt_only (hm := Only.sub (by decide) hm) (hk := ?_) .. | refine State.stmtFail_only (hm := Only.sub (by decide) hm) (hk := ?_) .. | refine State.stmtAdvance_only (hm := Only.sub (by decide) hm) (hk := ?_) ..
    | with_reducible refine Only.ite ?_ ?_
    | split)

theorem State.pointFinal_only {M : Nat} {s₀ : State} (s : State) (n : Nat) (pending : Bool) (hm : 629147280 &&& M = 629147280)
    (hk : Only M s₀ s) : Only M s₀ (State.pointFinal s n pending) := by
  unfold State.pointFinal
  repeat' (first
    | with_reducible assumption
    | with_reducible first | refine State.modCol_only (hm := Only.sub (by decide) hm) (hk := ?_) .. | refine State.streamSend_only (hm := Only.sub (by decide) hm) (hk := ?_) ..
    | with_reducible refine Only.foldl (fun _ _ _ => ?_) ?_
    | split
    | dsimp only)

theorem State.pointAdvance_only {M : Nat} {s₀ : State} (s : State) (hm : 629147280 &&& M = 629147280)
    (hk : Only M s₀ s) : Only M s₀ (State.pointAdvance s) := by
  unfold State.pointAdvance
  repeat' (first
    | with_reducible assumption
    | with_reducible first | refine State.modCol_only (hm := Only.sub (by decide) hm) (hk := ?_) .. | refine State.streamSend_only (hm := Only.sub (by decide) hm) (hk := ?_) .. | refine State.pointFinal_only (hm := Only.sub (by decide) hm) (hk := ?_) ..
    | with_reducible refine Only.ite ?_ ?_
    | split
    | dsimp only)

theorem State.storeUnit_only {M : Nat} {s₀ : State} (s : State) (e : List Byte) (slot k : Nat) (u : WorkUnit) (hm : 1572864 &&& M = 1572864)
    (hk : Only M s₀ s) : Only M s₀ (State.storeUnit s e slot k u) := by
  unfold State.storeUnit
  repeat' (first
    | with_reducible assumption
    | with_reducible refine State.writeMem_only (hm := Only.sub (by decide) hm) (hk := ?_) ..
    | with_reducible refine Only.ite ?_ ?_
    | split
    | dsimp only)

theorem State.modRun_only {M : Nat} {s₀ : State} (s : State) (i : Nat) (f : RunEntry → RunEntry) (hm : 8388608 &&& M = 8388608)
    (hk : Only M s₀ s) : Only M s₀ (State.modRun s i f) := by
  unfold State.modRun
  repeat' (first
    | with_reducible assumption
    | with_reducible refine State.modCol_only (hm := Only.sub (by decide) hm) (hk := ?_) ..
    | split)

theorem State.entryEnd_only {M : Nat} {s₀ : State} (s : State) (i : Nat) (st : Status) (hm : 629245586 &&& M = 629245586)
    (hk : Only M s₀ s) : Only M s₀ (State.entryEnd s i st) := by
  unfold State.entryEnd
  repeat' (first
    | with_reducible assumption
    | with_reducible first | refine State.modCol_only (hm := Only.sub (by decide) hm) (hk := ?_) .. | refine State.collectiveCoin_only (hm := Only.sub (by decide) hm) (hk := ?_) ..
    | with_reducible refine Only.ite ?_ ?_
    | split
    | dsimp only)

theorem State.segSend_only {M : Nat} {s₀ : State} (s : State) (i port : Nat) (p : Packet) (hm : 629245586 &&& M = 629245586)
    (hk : Only M s₀ s) : Only M s₀ (State.segSend s i port p) := by
  unfold State.segSend
  repeat' (first
    | with_reducible assumption
    | with_reducible first | refine State.streamSend_only (hm := Only.sub (by decide) hm) (hk := ?_) .. | refine State.entryEnd_only (hm := Only.sub (by decide) hm) (hk := ?_) ..
    | with_reducible refine Only.ite ?_ ?_
    | with_reducible refine Only.pair (by assumption) ?_
    | split)

theorem State.sendUnits_only {M : Nat} {s₀ : State} (s : State) (e : List Byte) (x : RunEntry) (reduce : Bool) (a : Nat) (plus : Bool) (us : List ((Nat × Nat) × WorkUnit)) (hm : 629245586 &&& M = 629245586)
    (hk : Only M s₀ s) : Only M s₀ (State.sendUnits s e x reduce a plus us) := by
  unfold State.sendUnits
  repeat' (first
    | with_reducible assumption
    | with_reducible refine State.segSend_only (hm := Only.sub (by decide) hm) (hk := ?_) ..
    | with_reducible refine Only.foldl (fun _ _ _ => ?_) ?_
    | split
    | dsimp only)

theorem State.landUnit_only {M : Nat} {s₀ : State} (s : State) (e : List Byte) (micro k : Nat) (u : WorkUnit) (hm : 540542608 &&& M = 540542608)
    (hk : Only M s₀ s) : Only M s₀ (State.landUnit s e micro k u) := by
  unfold State.landUnit
  repeat' (first
    | with_reducible assumption
    | with_reducible refine State.land_only (hm := Only.sub (by decide) hm) (hk := ?_) ..)

theorem State.stageSends_only {M : Nat} {s₀ : State} (s : State) (e : List Byte) (x : RunEntry) (reduce : Bool) (a : Nat) (hm : 629245586 &&& M = 629245586)
    (hk : Only M s₀ s) : Only M s₀ (State.stageSends s e x reduce a) := by
  unfold State.stageSends
  repeat' (first
    | with_reducible assumption
    | with_reducible refine State.sendUnits_only (hm := Only.sub (by decide) hm) (hk := ?_) ..
    | with_reducible refine Only.ite ?_ ?_
    | split
    | dsimp only)

theorem State.storeChunk_only {M : Nat} {s₀ : State} (s : State) (x : RunEntry) (e : List Byte) (n own : Nat) (hm : 540542608 &&& M = 540542608)
    (hk : Only M s₀ s) : Only M s₀ (State.storeChunk s x e n own) := by
  unfold State.storeChunk
  repeat' (first
    | with_reducible assumption
    | with_reducible first | refine State.storeUnit_only (hm := Only.sub (by decide) hm) (hk := ?_) .. | refine State.landUnit_only (hm := Only.sub (by decide) hm) (hk := ?_) ..
    | with_reducible refine Only.ite ?_ ?_
    | with_reducible refine Only.foldl (fun _ _ _ => ?_) ?_
    | split)

theorem State.nextStage_only {M : Nat} {s₀ : State} (s : State) (i : Nat) (arr0 : Nat) (hm : 632915602 &&& M = 632915602) (hk : Only M s₀ s) : Only M s₀ (s.nextStage i arr0) := by
  induction arr0 generalizing s with
  | zero => exact hk
  | succ fuel ih =>
    unfold State.nextStage
    repeat' (first
      | with_reducible assumption
      | with_reducible first | refine State.modRun_only (hm := Only.sub (by decide) hm) (hk := ?_) .. | refine State.stageSends_only (hm := Only.sub (by decide) hm) (hk := ?_) .. | refine State.storeChunk_only (hm := Only.sub (by decide) hm) (hk := ?_) .. | refine ih _ ?_
      | with_reducible refine Only.ite ?_ ?_
      | dsimp only
      | split)

theorem State.applyUnits_only {M : Nat} {s₀ : State} (s : State) (i : Nat) (e : List Byte) (reduce : Bool) (a : Nat) (us : List (Nat × Option WorkUnit)) (hm : 632915602 &&& M = 632915602)
    (hk : Only M s₀ s) : Only M s₀ (State.applyUnits s i e reduce a us) := by
  unfold State.applyUnits
  repeat' (first
    | with_reducible assumption
    | with_reducible first | refine State.modCol_only (hm := Only.sub (by decide) hm) (hk := ?_) .. | refine State.storeUnit_only (hm := Only.sub (by decide) hm) (hk := ?_) .. | refine State.modRun_only (hm := Only.sub (by decide) hm) (hk := ?_) .. | refine State.sendUnits_only (hm := Only.sub (by decide) hm) (hk := ?_) .. | refine State.landUnit_only (hm := Only.sub (by decide) hm) (hk := ?_) ..
    | with_reducible refine Only.ite ?_ ?_
    | with_reducible refine Only.foldl (fun _ _ _ => ?_) ?_
    | split
    | dsimp only)

theorem State.takeSegment_only {M : Nat} {s₀ : State} (s : State) (p : Packet) (i : Nat) (e : List Byte) (x : RunEntry) (hm : 632915602 &&& M = 632915602)
    (hk : Only M s₀ s) : Only M s₀ (State.takeSegment s p i e x) := by
  unfold State.takeSegment
  repeat' (first
    | with_reducible assumption
    | with_reducible first | refine State.storeUnit_only (hm := Only.sub (by decide) hm) (hk := ?_) .. | refine State.modRun_only (hm := Only.sub (by decide) hm) (hk := ?_) .. | refine State.nextStage_only (hm := Only.sub (by decide) hm) (hk := ?_) .. | refine State.applyUnits_only (hm := Only.sub (by decide) hm) (hk := ?_) ..
    | with_reducible refine Only.ite ?_ ?_
    | with_reducible refine Only.foldl (fun _ _ _ => ?_) ?_
    | split
    | dsimp only)

theorem State.segmentOne_only {M : Nat} {s₀ : State} (s : State) (p : Packet) (hm : 632915602 &&& M = 632915602)
    (hk : Only M s₀ s) : Only M s₀ (State.segmentOne s p) := by
  unfold State.segmentOne
  repeat' (first
    | with_reducible assumption
    | with_reducible first | refine State.modCol_only (hm := Only.sub (by decide) hm) (hk := ?_) .. | refine State.modRtr_only (hm := Only.sub (by decide) hm) (hk := ?_) .. | refine State.takeSegment_only (hm := Only.sub (by decide) hm) (hk := ?_) ..
    | with_reducible refine Only.ite ?_ ?_
    | split
    | dsimp only)

theorem State.offerSegs_only {M : Nat} {s₀ : State} (s : State) (arr0 : Nat) (hm : 632915602 &&& M = 632915602) (hk : Only M s₀ s) : Only M s₀ (s.offerSegs arr0) := by
  induction arr0 generalizing s with
  | zero => exact hk
  | succ fuel ih =>
    unfold State.offerSegs
    have h := Only.foldl (f := fun (s : State) p => s.segmentOne p) (l := s.col.heldSegs) (fun t p h => State.segmentOne_only t p (hm := Only.sub (by decide) hm) h)
      (State.modCol_only s (fun c => { c with heldSegs := [] }) (hm := Only.sub (by decide) hm) hk)
    dsimp only
    split
    · exact h
    · exact ih _ h

theorem State.releaseSegs_only {M : Nat} {s₀ : State} (s : State) (hm : 632915602 &&& M = 632915602)
    (hk : Only M s₀ s) : Only M s₀ (State.releaseSegs s) := by
  unfold State.releaseSegs
  repeat' (first
    | with_reducible assumption
    | with_reducible first | refine State.freeKept_only (hm := Only.sub (by decide) hm) (hk := ?_) .. | refine State.offerSegs_only (hm := Only.sub (by decide) hm) (hk := ?_) ..)

theorem State.segment_only {M : Nat} {s₀ : State} (s : State) (p : Packet) (hm : 632915602 &&& M = 632915602)
    (hk : Only M s₀ s) : Only M s₀ (State.segment s p) := by
  unfold State.segment
  repeat' (first
    | with_reducible assumption
    | with_reducible first | refine State.segmentOne_only (hm := Only.sub (by decide) hm) (hk := ?_) .. | refine State.releaseSegs_only (hm := Only.sub (by decide) hm) (hk := ?_) ..)

theorem State.entryRun_only {M : Nat} {s₀ : State} (s : State) (i micro : Nat) (last : Bool) (e : List Byte) (hm : 632915602 &&& M = 632915602)
    (hk : Only M s₀ s) : Only M s₀ (State.entryRun s i micro last e) := by
  unfold State.entryRun
  repeat' (first
    | with_reducible assumption
    | with_reducible first | refine State.modCol_only (hm := Only.sub (by decide) hm) (hk := ?_) .. | refine State.inject_only (hm := Only.sub (by decide) hm) (hk := ?_) .. | refine State.storeUnit_only (hm := Only.sub (by decide) hm) (hk := ?_) .. | refine State.entryEnd_only (hm := Only.sub (by decide) hm) (hk := ?_) .. | refine State.nextStage_only (hm := Only.sub (by decide) hm) (hk := ?_) .. | refine State.releaseSegs_only (hm := Only.sub (by decide) hm) (hk := ?_) ..
    | with_reducible refine Only.ite ?_ ?_
    | with_reducible refine Only.foldl (fun _ _ _ => ?_) ?_
    | with_reducible refine Only.pair (by assumption) ?_
    | split
    | dsimp only)

theorem State.gradStageEnd_only {M : Nat} {s₀ : State} (s : State) (i : Nat) (e : List Byte) (x : RunEntry) (hm : 632915602 &&& M = 632915602)
    (hk : Only M s₀ s) : Only M s₀ (State.gradStageEnd s i e x) := by
  unfold State.gradStageEnd
  repeat' (first
    | with_reducible assumption
    | with_reducible first | refine State.sendUnits_only (hm := Only.sub (by decide) hm) (hk := ?_) .. | refine State.nextStage_only (hm := Only.sub (by decide) hm) (hk := ?_) .. | refine State.releaseSegs_only (hm := Only.sub (by decide) hm) (hk := ?_) ..
    | with_reducible refine Only.ite ?_ ?_
    | split
    | dsimp only)

theorem State.microEnd_only {M : Nat} {s₀ : State} (s : State) (hm : 624428688 &&& M = 624428688)
    (hk : Only M s₀ s) : Only M s₀ (State.microEnd s) := by
  unfold State.microEnd
  repeat' (first
    | with_reducible assumption
    | with_reducible first | refine State.modSet_only (hm := Only.sub (by decide) hm) (hk := ?_) .. | refine State.releaseLands_only (hm := Only.sub (by decide) hm) (hk := ?_) ..
    | with_reducible refine Only.ite ?_ ?_
    | split
    | dsimp only)

theorem State.failEntries_only {M : Nat} {s₀ : State} (s : State) (a : Nat) (hm : 629245586 &&& M = 629245586)
    (hk : Only M s₀ s) : Only M s₀ (State.failEntries s a) := by
  unfold State.failEntries
  repeat' (first
    | with_reducible assumption
    | with_reducible first | refine State.modCol_only (hm := Only.sub (by decide) hm) (hk := ?_) .. | refine State.freeKept_only (hm := Only.sub (by decide) hm) (hk := ?_) .. | refine State.entryEnd_only (hm := Only.sub (by decide) hm) (hk := ?_) ..
    | with_reducible refine Only.foldl (fun _ _ _ => ?_) ?_
    | split
    | dsimp only)

theorem State.sendIdentity_only {M : Nat} {s₀ : State} (s : State) (n : Nat) (hm : 16777232 &&& M = 16777232)
    (hk : Only M s₀ s) : Only M s₀ (State.sendIdentity s n) := by
  unfold State.sendIdentity
  repeat' (first
    | with_reducible assumption
    | with_reducible refine State.sendLocal_only (hm := Only.sub (by decide) hm) (hk := ?_) ..
    | with_reducible refine Only.ite ?_ ?_)

theorem State.holdover_only {M : Nat} {s₀ : State} (s : State) (n : Nat) (hm : 570427028 &&& M = 570427028)
    (hk : Only M s₀ s) : Only M s₀ (State.holdover s n) := by
  unfold State.holdover
  repeat' (first
    | with_reducible assumption
    | with_reducible first | refine State.modTime_only (hm := Only.sub (by decide) hm) (hk := ?_) .. | refine State.slewAt_only (hm := Only.sub (by decide) hm) (hk := ?_) .. | refine State.log_only (hm := Only.sub (by decide) hm) (hk := ?_) ..
    | split)

theorem State.placeTime_only {M : Nat} {s₀ : State} (s : State) (hm : 33554432 &&& M = 33554432)
    (hk : Only M s₀ s) : Only M s₀ (State.placeTime s) := by
  unfold State.placeTime
  repeat' (first
    | with_reducible assumption
    | with_reducible refine State.modTime_only (hm := Only.sub (by decide) hm) (hk := ?_) ..
    | with_reducible refine Only.ite ?_ ?_
    | split)

theorem State.timeLost_only {M : Nat} {s₀ : State} (s : State) (n : Nat) (hm : 570427028 &&& M = 570427028)
    (hk : Only M s₀ s) : Only M s₀ (State.timeLost s n) := by
  unfold State.timeLost
  repeat' (first
    | with_reducible assumption
    | with_reducible first | refine State.modTime_only (hm := Only.sub (by decide) hm) (hk := ?_) .. | refine State.holdover_only (hm := Only.sub (by decide) hm) (hk := ?_) ..
    | with_reducible refine Only.ite ?_ ?_
    | split
    | dsimp only)

theorem State.timeFound_only {M : Nat} {s₀ : State} (s : State) (n : Nat) (hm : 33554432 &&& M = 33554432)
    (hk : Only M s₀ s) : Only M s₀ (State.timeFound s n) := by
  unfold State.timeFound
  repeat' (first
    | with_reducible assumption
    | with_reducible refine State.modTime_only (hm := Only.sub (by decide) hm) (hk := ?_) ..
    | with_reducible refine Only.ite ?_ ?_
    | split)

theorem State.setTime_only {M : Nat} {s₀ : State} (s : State) (step : Int) (hm : 570427028 &&& M = 570427028)
    (hk : Only M s₀ s) : Only M s₀ (State.setTime s step) := by
  unfold State.setTime
  repeat' (first
    | with_reducible assumption
    | with_reducible first | refine State.modTime_only (hm := Only.sub (by decide) hm) (hk := ?_) .. | refine State.log_only (hm := Only.sub (by decide) hm) (hk := ?_) ..
    | split
    | with_reducible refine Only.set_devOff (hm := Only.sub (by decide) hm) (h := ?_) ..)

theorem State.timeSettles_only {M : Nat} {s₀ : State} (s : State) (hm : 570427028 &&& M = 570427028)
    (hk : Only M s₀ s) : Only M s₀ (State.timeSettles s) := by
  unfold State.timeSettles
  repeat' (first
    | with_reducible assumption
    | with_reducible refine State.setTime_only (hm := Only.sub (by decide) hm) (hk := ?_) ..
    | with_reducible refine Only.ite ?_ ?_
    | split)

theorem State.sendNotice_only {M : Nat} {s₀ : State} (s : State) (payload : List Byte) (hm : 16777232 &&& M = 16777232)
    (hk : Only M s₀ s) : Only M s₀ (State.sendNotice s payload) := by
  unfold State.sendNotice
  repeat' (first
    | with_reducible assumption
    | with_reducible refine State.sendLocal_only (hm := Only.sub (by decide) hm) (hk := ?_) ..
    | with_reducible refine Only.foldl (fun _ _ _ => ?_) ?_
    | split)

theorem State.degrade_only {M : Nat} {s₀ : State} (s : State) (axis : Nat) (hm : 637109906 &&& M = 637109906)
    (hk : Only M s₀ s) : Only M s₀ (State.degrade s axis) := by
  unfold State.degrade
  repeat' (first
    | with_reducible assumption
    | with_reducible first | refine State.modDec_only (hm := Only.sub (by decide) hm) (hk := ?_) .. | refine State.modSlice_only (hm := Only.sub (by decide) hm) (hk := ?_) .. | refine State.stmtFail_only (hm := Only.sub (by decide) hm) (hk := ?_) .. | refine State.failEntries_only (hm := Only.sub (by decide) hm) (hk := ?_) ..
    | with_reducible refine Only.ite ?_ ?_
    | split
    | dsimp only)

theorem State.sliceLinkLost_only {M : Nat} {s₀ : State} (s : State) (n : Nat) (hm : 637109906 &&& M = 637109906)
    (hk : Only M s₀ s) : Only M s₀ (State.sliceLinkLost s n) := by
  unfold State.sliceLinkLost
  repeat' (first
    | with_reducible assumption
    | with_reducible first | refine State.modSlice_only (hm := Only.sub (by decide) hm) (hk := ?_) .. | refine State.sendNotice_only (hm := Only.sub (by decide) hm) (hk := ?_) .. | refine State.degrade_only (hm := Only.sub (by decide) hm) (hk := ?_) ..
    | with_reducible refine Only.ite ?_ ?_
    | split
    | dsimp only)

theorem State.dropQueue_only {M : Nat} {s₀ : State} (s : State) (n : Nat) (linkStays : Bool) (hm : 83887120 &&& M = 83887120)
    (hk : Only M s₀ s) : Only M s₀ (State.dropQueue s n linkStays) := by
  unfold State.dropQueue
  repeat' (first
    | with_reducible assumption
    | with_reducible first | refine State.modLink_only (hm := Only.sub (by decide) hm) (hk := ?_) .. | refine State.modRtr_only (hm := Only.sub (by decide) hm) (hk := ?_) .. | refine State.freeBuffer_only (hm := Only.sub (by decide) hm) (hk := ?_) .. | refine State.dmasDrop_only (hm := Only.sub (by decide) hm) (hk := ?_) ..
    | with_reducible refine Only.foldl (fun _ _ _ => ?_) ?_
    | split
    | dsimp only)

theorem State.leftActive_only {M : Nat} {s₀ : State} (s : State) (n : Nat) (hm : 670664342 &&& M = 670664342)
    (hk : Only M s₀ s) : Only M s₀ (State.leftActive s n) := by
  unfold State.leftActive
  repeat' (first
    | with_reducible assumption
    | with_reducible first | refine State.timeLost_only (hm := Only.sub (by decide) hm) (hk := ?_) .. | refine State.sliceLinkLost_only (hm := Only.sub (by decide) hm) (hk := ?_) .. | refine State.dropQueue_only (hm := Only.sub (by decide) hm) (hk := ?_) ..)

theorem State.setDisc_only {M : Nat} {s₀ : State} (s : State) (n : Nat) (d : DState) (cause : Nat) (hm : 670664342 &&& M = 670664342)
    (hk : Only M s₀ s) : Only M s₀ (State.setDisc s n d cause) := by
  unfold State.setDisc
  repeat' (first
    | with_reducible assumption
    | with_reducible first | refine State.modDisc_only (hm := Only.sub (by decide) hm) (hk := ?_) .. | refine State.sendIdentity_only (hm := Only.sub (by decide) hm) (hk := ?_) .. | refine State.leftActive_only (hm := Only.sub (by decide) hm) (hk := ?_) ..
    | with_reducible refine Only.ite ?_ ?_
    | split
    | dsimp only)

theorem State.discEvent_only {M : Nat} {s₀ : State} (s : State) (c : EventClass) (n cause : Nat) (b : List Byte) (hm : 536872592 &&& M = 536872592)
    (hk : Only M s₀ s) : Only M s₀ (State.discEvent s c n cause b) := by
  unfold State.discEvent
  repeat' (first
    | with_reducible assumption
    | with_reducible refine State.log_only (hm := Only.sub (by decide) hm) (hk := ?_) ..)

theorem State.identity_only {M : Nat} {s₀ : State} (s : State) (n : Nat) (b : List Byte) (hm : 670664342 &&& M = 670664342)
    (hk : Only M s₀ s) : Only M s₀ (State.identity s n b) := by
  unfold State.identity
  repeat' (first
    | with_reducible assumption
    | with_reducible first | refine State.modDisc_only (hm := Only.sub (by decide) hm) (hk := ?_) .. | refine State.log_only (hm := Only.sub (by decide) hm) (hk := ?_) .. | refine State.pump_only (hm := Only.sub (by decide) hm) (hk := ?_) .. | refine State.timeFound_only (hm := Only.sub (by decide) hm) (hk := ?_) .. | refine State.setDisc_only (hm := Only.sub (by decide) hm) (hk := ?_) .. | refine State.discEvent_only (hm := Only.sub (by decide) hm) (hk := ?_) ..
    | with_reducible refine Only.ite ?_ ?_
    | split
    | dsimp only)

theorem State.reidentify_only {M : Nat} {s₀ : State} (s : State) (n : Nat) (hm : 670664342 &&& M = 670664342)
    (hk : Only M s₀ s) : Only M s₀ (State.reidentify s n) := by
  unfold State.reidentify
  repeat' (first
    | with_reducible assumption
    | with_reducible first | refine State.modDisc_only (hm := Only.sub (by decide) hm) (hk := ?_) .. | refine State.sendIdentity_only (hm := Only.sub (by decide) hm) (hk := ?_) .. | refine State.setDisc_only (hm := Only.sub (by decide) hm) (hk := ?_) ..
    | split)

theorem State.leavePorts_only {M : Nat} {s₀ : State} (s : State) (hm : 670664342 &&& M = 670664342)
    (hk : Only M s₀ s) : Only M s₀ (State.leavePorts s) := by
  unfold State.leavePorts
  repeat' (first
    | with_reducible assumption
    | with_reducible first | refine State.modDisc_only (hm := Only.sub (by decide) hm) (hk := ?_) .. | refine State.leftActive_only (hm := Only.sub (by decide) hm) (hk := ?_) ..
    | with_reducible refine Only.foldl (fun _ _ _ => ?_) ?_
    | split
    | dsimp only)

theorem State.reidentifyAll_only {M : Nat} {s₀ : State} (s : State) (hm : 16777232 &&& M = 16777232)
    (hk : Only M s₀ s) : Only M s₀ (State.reidentifyAll s) := by
  unfold State.reidentifyAll
  repeat' (first
    | with_reducible assumption
    | with_reducible first | refine State.modDisc_only (hm := Only.sub (by decide) hm) (hk := ?_) .. | refine State.sendIdentity_only (hm := Only.sub (by decide) hm) (hk := ?_) ..
    | with_reducible refine Only.ite ?_ ?_
    | with_reducible refine Only.foldl (fun _ _ _ => ?_) ?_
    | split)

theorem State.forgetHeld_only {M : Nat} {s₀ : State} (s : State) (n : Nat) (hm : 83886080 &&& M = 83886080)
    (hk : Only M s₀ s) : Only M s₀ (State.forgetHeld s n) := by
  unfold State.forgetHeld
  repeat' (first
    | with_reducible assumption
    | with_reducible first | refine State.modLink_only (hm := Only.sub (by decide) hm) (hk := ?_) .. | refine State.modRtr_only (hm := Only.sub (by decide) hm) (hk := ?_) ..
    | with_reducible refine Only.ite ?_ ?_
    | with_reducible refine Only.foldl (fun _ _ _ => ?_) ?_
    | split
    | dsimp only)

theorem State.linkFalls_only {M : Nat} {s₀ : State} (s : State) (n : Nat) (st : LState) (hm : 16777216 &&& M = 16777216)
    (hk : Only M s₀ s) : Only M s₀ (State.linkFalls s n st) := by
  unfold State.linkFalls
  repeat' (first
    | with_reducible assumption
    | with_reducible first | refine State.modLink_only (hm := Only.sub (by decide) hm) (hk := ?_) .. | refine State.modRep_only (hm := Only.sub (by decide) hm) (hk := ?_) .. | refine State.modDisc_only (hm := Only.sub (by decide) hm) (hk := ?_) ..
    | split
    | dsimp only)

theorem State.partnerGone_only {M : Nat} {s₀ : State} (s : State) (n : Nat) (hm : 670664342 &&& M = 670664342)
    (hk : Only M s₀ s) : Only M s₀ (State.partnerGone s n) := by
  unfold State.partnerGone
  repeat' (first
    | with_reducible assumption
    | with_reducible first | refine State.modDisc_only (hm := Only.sub (by decide) hm) (hk := ?_) .. | refine State.log_only (hm := Only.sub (by decide) hm) (hk := ?_) .. | refine State.leftActive_only (hm := Only.sub (by decide) hm) (hk := ?_) ..
    | with_reducible refine Only.ite ?_ ?_
    | split
    | dsimp only)

theorem State.linkFresh_only {M : Nat} {s₀ : State} (s : State) (n : Nat) (hm : 83887120 &&& M = 83887120)
    (hk : Only M s₀ s) : Only M s₀ (State.linkFresh s n) := by
  unfold State.linkFresh
  repeat' (first
    | with_reducible assumption
    | with_reducible first | refine State.modLink_only (hm := Only.sub (by decide) hm) (hk := ?_) .. | refine State.dropQueue_only (hm := Only.sub (by decide) hm) (hk := ?_) .. | refine State.forgetHeld_only (hm := Only.sub (by decide) hm) (hk := ?_) ..)

theorem State.linkLeaves_only {M : Nat} {s₀ : State} (s : State) (n : Nat) (st : LState) (hm : 670664342 &&& M = 670664342)
    (hk : Only M s₀ s) : Only M s₀ (State.linkLeaves s n st) := by
  unfold State.linkLeaves
  repeat' (first
    | with_reducible assumption
    | with_reducible first | refine State.linkFalls_only (hm := Only.sub (by decide) hm) (hk := ?_) .. | refine State.partnerGone_only (hm := Only.sub (by decide) hm) (hk := ?_) .. | refine State.linkFresh_only (hm := Only.sub (by decide) hm) (hk := ?_) ..
    | with_reducible refine Only.ite ?_ ?_
    | dsimp only)

theorem State.train_only {M : Nat} {s₀ : State} (s : State) (n : Nat) (hm : 670664598 &&& M = 670664598)
    (hk : Only M s₀ s) : Only M s₀ (State.train s n) := by
  unfold State.train
  repeat' (first
    | with_reducible assumption
    | with_reducible first | refine State.modLink_only (hm := Only.sub (by decide) hm) (hk := ?_) .. | refine State.modDev_only (hm := Only.sub (by decide) hm) (hk := ?_) .. | refine State.linkLeaves_only (hm := Only.sub (by decide) hm) (hk := ?_) ..
    | split
    | dsimp only)

theorem State.retrain_only {M : Nat} {s₀ : State} (s : State) (n : Nat) (hm : 670664598 &&& M = 670664598)
    (hk : Only M s₀ s) : Only M s₀ (State.retrain s n) := by
  unfold State.retrain
  repeat' (first
    | with_reducible assumption
    | with_reducible first | refine State.total_only (hm := Only.sub (by decide) hm) (hk := ?_) .. | refine State.train_only (hm := Only.sub (by decide) hm) (hk := ?_) ..
    | with_reducible refine Only.ite ?_ ?_)

theorem State.acked_only {M : Nat} {s₀ : State} (s : State) (n : Nat) (ack : Option Nat) (hm : 83887120 &&& M = 83887120)
    (hk : Only M s₀ s) : Only M s₀ (State.acked s n ack) := by
  unfold State.acked
  repeat' (first
    | with_reducible assumption
    | with_reducible first | refine State.modLink_only (hm := Only.sub (by decide) hm) (hk := ?_) .. | refine State.pump_only (hm := Only.sub (by decide) hm) (hk := ?_) .. | refine State.dmasDone_only (hm := Only.sub (by decide) hm) (hk := ?_) ..
    | with_reducible refine Only.ite ?_ ?_
    | split
    | dsimp only)

theorem State.replay_only {M : Nat} {s₀ : State} (s : State) (n : Nat) (hm : 1090519056 &&& M = 1090519056)
    (hk : Only M s₀ s) : Only M s₀ (State.replay s n) := by
  unfold State.replay
  repeat' (first
    | with_reducible assumption
    | with_reducible first | refine State.modLink_only (hm := Only.sub (by decide) hm) (hk := ?_) .. | refine State.span_only (hm := Only.sub (by decide) hm) (hk := ?_) .. | refine State.sendFrame_only (hm := Only.sub (by decide) hm) (hk := ?_) ..
    | with_reducible refine Only.ite ?_ ?_
    | with_reducible refine Only.foldl (fun _ _ _ => ?_) ?_
    | split
    | dsimp only)

theorem State.modLane_only {M : Nat} {s₀ : State} (s : State) (n l : Nat) (f : Lane → Lane) (hm : 16777216 &&& M = 16777216)
    (hk : Only M s₀ s) : Only M s₀ (State.modLane s n l f) := by
  unfold State.modLane
  repeat' (first
    | with_reducible assumption
    | with_reducible refine State.modRep_only (hm := Only.sub (by decide) hm) (hk := ?_) ..
    | split)

theorem State.switchCw_only {M : Nat} {s₀ : State} (s : State) (n ns : Nat) (hm : 8 &&& M = 8)
    (hk : Only M s₀ s) : Only M s₀ (State.switchCw s n ns).2 := by
  unfold State.switchCw
  repeat' (first
    | with_reducible assumption
    | with_reducible refine State.fresh_only (hm := Only.sub (by decide) hm) (hk := ?_) ..
    | split
    | dsimp only)

theorem State.degradeWidth_only {M : Nat} {s₀ : State} (s : State) (n l : Nat) (hm : 670664606 &&& M = 670664606)
    (hk : Only M s₀ s) : Only M s₀ (State.degradeWidth s n l) := by
  unfold State.degradeWidth
  repeat' (first
    | with_reducible assumption
    | with_reducible first | refine State.modRep_only (hm := Only.sub (by decide) hm) (hk := ?_) .. | refine State.detect_only (hm := Only.sub (by decide) hm) (hk := ?_) .. | refine State.closeWindow_only (hm := Only.sub (by decide) hm) (hk := ?_) .. | refine State.sendCtl_only (hm := Only.sub (by decide) hm) (hk := ?_) .. | refine State.retrain_only (hm := Only.sub (by decide) hm) (hk := ?_) .. | refine State.switchCw_only (hm := Only.sub (by decide) hm) (hk := ?_) ..
    | split
    | dsimp only)

theorem State.laneFail_only {M : Nat} {s₀ : State} (s : State) (n l cause : Nat) (hm : 670664606 &&& M = 670664606)
    (hk : Only M s₀ s) : Only M s₀ (State.laneFail s n l cause) := by
  unfold State.laneFail
  repeat' (first
    | with_reducible assumption
    | with_reducible first | refine State.modRep_only (hm := Only.sub (by decide) hm) (hk := ?_) .. | refine State.detect_only (hm := Only.sub (by decide) hm) (hk := ?_) .. | refine State.closeWindow_only (hm := Only.sub (by decide) hm) (hk := ?_) .. | refine State.sendCtl_only (hm := Only.sub (by decide) hm) (hk := ?_) .. | refine State.modLane_only (hm := Only.sub (by decide) hm) (hk := ?_) .. | refine State.degradeWidth_only (hm := Only.sub (by decide) hm) (hk := ?_) ..
    | with_reducible refine Only.ite ?_ ?_
    | split
    | dsimp only)

theorem State.deepExit_only {M : Nat} {s₀ : State} (s : State) (hm : 672137218 &&& M = 672137218)
    (hk : Only M s₀ s) : Only M s₀ (State.deepExit s) := by
  unfold State.deepExit
  repeat' (first
    | with_reducible assumption
    | with_reducible first | refine State.modPwr_only (hm := Only.sub (by decide) hm) (hk := ?_) .. | refine State.reach_only (hm := Only.sub (by decide) hm) (hk := ?_) ..
    | with_reducible refine Only.ite ?_ ?_
    | split
    | with_reducible refine Only.set_dram (hm := Only.sub (by decide) hm) (h := ?_) ..
    | dsimp only)

theorem State.readErr_only {M : Nat} {s₀ : State} (s : State) (p : Packet) (cause : Nat) (hm : 620758672 &&& M = 620758672)
    (hk : Only M s₀ s) : Only M s₀ (State.readErr s p cause) := by
  unfold State.readErr
  repeat' (first
    | with_reducible assumption
    | with_reducible first | refine State.launchAnswer_only (hm := Only.sub (by decide) hm) (hk := ?_) .. | refine State.inject_only (hm := Only.sub (by decide) hm) (hk := ?_) ..
    | with_reducible refine Only.ite ?_ ?_
    | dsimp only)

theorem State.answerDrop_only {M : Nat} {s₀ : State} (s : State) (p : Packet) (cause : Nat) (hm : 620758672 &&& M = 620758672)
    (hk : Only M s₀ s) : Only M s₀ (State.answerDrop s p cause) := by
  unfold State.answerDrop
  repeat' (first
    | with_reducible assumption
    | with_reducible refine State.readErr_only (hm := Only.sub (by decide) hm) (hk := ?_) ..
    | with_reducible refine Only.ite ?_ ?_)

theorem State.routeIn_only {M : Nat} {s₀ : State} (s : State) (n vc : Nat) (p : Packet) (hm : 1694500496 &&& M = 1694500496)
    (hk : Only M s₀ s) : Only M s₀ (State.routeIn s n vc p) := by
  unfold State.routeIn
  repeat' (first
    | with_reducible assumption
    | with_reducible first | refine State.modDisc_only (hm := Only.sub (by decide) hm) (hk := ?_) .. | refine State.modRtr_only (hm := Only.sub (by decide) hm) (hk := ?_) .. | refine State.span_only (hm := Only.sub (by decide) hm) (hk := ?_) .. | refine State.detectLimited_only (hm := Only.sub (by decide) hm) (hk := ?_) .. | refine State.freeBuffer_only (hm := Only.sub (by decide) hm) (hk := ?_) .. | refine State.fenced_only (hm := Only.sub (by decide) hm) (hk := ?_) .. | refine State.dropNoPort_only (hm := Only.sub (by decide) hm) (hk := ?_) .. | refine State.moved_only (hm := Only.sub (by decide) hm) (hk := ?_) .. | refine State.enqueue_only (hm := Only.sub (by decide) hm) (hk := ?_) .. | refine State.badPacket_only (hm := Only.sub (by decide) hm) (hk := ?_) .. | refine State.answerDrop_only (hm := Only.sub (by decide) hm) (hk := ?_) ..
    | with_reducible refine Only.ite ?_ ?_
    | split
    | dsimp only)

theorem State.bufferEcc_only {M : Nat} {s₀ : State} (s : State) (p : Packet) (arr0 : BufferEcc) (hm : 1677723280 &&& M = 1677723280)
    (hk : Only M s₀ s) : Only M s₀ (State.bufferEcc s p arr0).2 := by
  unfold State.bufferEcc
  repeat' (first
    | with_reducible assumption
    | with_reducible first | refine State.span_only (hm := Only.sub (by decide) hm) (hk := ?_) .. | refine State.detect_only (hm := Only.sub (by decide) hm) (hk := ?_) .. | refine State.badPacket_only (hm := Only.sub (by decide) hm) (hk := ?_) ..
    | split
    | dsimp only)

theorem State.routerJudges_only {M : Nat} {s₀ : State} (s : State) (n vc : Nat) (p : Packet) (failing : Bool) (hm : 1694500496 &&& M = 1694500496)
    (hk : Only M s₀ s) : Only M s₀ (State.routerJudges s n vc p failing) := by
  unfold State.routerJudges
  repeat' (first
    | with_reducible assumption
    | with_reducible first | refine State.modRtr_only (hm := Only.sub (by decide) hm) (hk := ?_) .. | refine State.log_only (hm := Only.sub (by decide) hm) (hk := ?_) .. | refine State.freeBuffer_only (hm := Only.sub (by decide) hm) (hk := ?_) .. | refine State.routeIn_only (hm := Only.sub (by decide) hm) (hk := ?_) ..
    | with_reducible refine Only.ite ?_ ?_
    | split
    | dsimp only)

theorem State.routerTakes_only {M : Nat} {s₀ : State} (s : State) (n vc : Nat) (p : Packet) (failing : Bool) (mem : BufferEcc) (hm : 1829766802 &&& M = 1829766802)
    (hk : Only M s₀ s) : Only M s₀ (State.routerTakes s n vc p failing mem) := by
  unfold State.routerTakes
  repeat' (first
    | with_reducible assumption
    | with_reducible first | refine State.freeBuffer_only (hm := Only.sub (by decide) hm) (hk := ?_) .. | refine State.deepExit_only (hm := Only.sub (by decide) hm) (hk := ?_) .. | refine State.bufferEcc_only (hm := Only.sub (by decide) hm) (hk := ?_) .. | refine State.routerJudges_only (hm := Only.sub (by decide) hm) (hk := ?_) ..
    | with_reducible refine Only.pair (by assumption) ?_
    | split
    | dsimp only)

theorem execVaultScrub_only {M : Nat} {s₀ : State} (v : VaultName) (reports : List (Nat × EccResult)) (s : State) (hm : 1838909072 &&& M = 1838909072)
    (hk : Only M s₀ s) : Answers (execVaultScrub v reports s) (Only M s₀) := by
  unfold execVaultScrub
  repeat' (first
    | with_reducible assumption
    | with_reducible refine Answers.next ?_
    | with_reducible first | refine State.modVault_only (hm := Only.sub (by decide) hm) (hk := ?_) .. | refine State.eccAll_only (hm := Only.sub (by decide) hm) (hk := ?_) ..
    | split
    | dsimp only)

theorem execVaultSpareDone_only {M : Nat} {s₀ : State} (v : VaultName) (bad : List Nat) (s : State) (hm : 623104 &&& M = 623104)
    (hk : Only M s₀ s) : Answers (execVaultSpareDone v bad s) (Only M s₀) := by
  unfold execVaultSpareDone
  repeat' (first
    | with_reducible assumption
    | with_reducible refine Answers.next ?_
    | with_reducible first | refine State.closeWindow_only (hm := Only.sub (by decide) hm) (hk := ?_) .. | refine State.modVault_only (hm := Only.sub (by decide) hm) (hk := ?_) ..
    | split
    | with_reducible refine Only.set_mem (hm := Only.sub (by decide) hm) (h := ?_) ..
    | dsimp only)

theorem execDramPatrolScrub_only {M : Nat} {s₀ : State} (n lines : Nat) (reports : List (Nat × EccResult)) (s : State) (hm : 1838909072 &&& M = 1838909072)
    (hk : Only M s₀ s) : Answers (execDramPatrolScrub n lines reports s) (Only M s₀) := by
  unfold execDramPatrolScrub
  repeat' (first
    | with_reducible assumption
    | with_reducible refine Answers.next ?_
    | with_reducible refine Answers.ite ?_ ?_
    | with_reducible first | refine State.modChannel_only (hm := Only.sub (by decide) hm) (hk := ?_) .. | refine State.eccAll_only (hm := Only.sub (by decide) hm) (hk := ?_) ..
    | split
    | dsimp only)

theorem execDramTrackingUpdate_only {M : Nat} {s₀ : State} (n : Nat) (margins : List Nat) (low found : Bool) (s : State) (hm : 1611794064 &&& M = 1611794064)
    (hk : Only M s₀ s) : Answers (execDramTrackingUpdate n margins low found s) (Only M s₀) := by
  unfold execDramTrackingUpdate
  repeat' (first
    | with_reducible assumption
    | with_reducible refine Answers.next ?_
    | with_reducible refine Answers.ite ?_ ?_
    | with_reducible first | refine State.modChannel_only (hm := Only.sub (by decide) hm) (hk := ?_) .. | refine State.spanMin_only (hm := Only.sub (by decide) hm) (hk := ?_) .. | refine State.log_only (hm := Only.sub (by decide) hm) (hk := ?_) .. | refine State.loseChannel_only (hm := Only.sub (by decide) hm) (hk := ?_) ..
    | with_reducible refine Only.ite ?_ ?_
    | with_reducible refine Only.foldl (fun _ _ _ => ?_) ?_
    | split
    | dsimp only)

theorem execSoftPpr_only {M : Nat} {s₀ : State} (n : Nat) (exhausted : List Nat) (left : Nat) (s : State) (hm : 537921168 &&& M = 537921168)
    (hk : Only M s₀ s) : Answers (execSoftPpr n exhausted left s) (Only M s₀) := by
  unfold execSoftPpr
  repeat' (first
    | with_reducible assumption
    | with_reducible refine Answers.next ?_
    | with_reducible refine Answers.ite ?_ ?_
    | with_reducible first | refine State.modChannel_only (hm := Only.sub (by decide) hm) (hk := ?_) .. | refine State.ledgerAppend_only (hm := Only.sub (by decide) hm) (hk := ?_) .. | refine State.log_only (hm := Only.sub (by decide) hm) (hk := ?_) ..
    | with_reducible refine Only.ite ?_ ?_
    | with_reducible refine Only.foldl (fun _ _ _ => ?_) ?_
    | split
    | with_reducible refine Only.set_dram (hm := Only.sub (by decide) hm) (h := ?_) ..
    | dsimp only)

theorem execRemoteWrite_only {M : Nat} {s₀ : State} (p : Packet) (s : State) (hm : 622364306 &&& M = 622364306)
    (hk : Only M s₀ s) : Answers (execRemoteWrite p s) (Only M s₀) := by
  unfold execRemoteWrite
  repeat' (first
    | with_reducible assumption
    | with_reducible refine Answers.next ?_
    | with_reducible refine Answers.ite ?_ ?_
    | with_reducible first | refine State.consumed_only (hm := Only.sub (by decide) hm) (hk := ?_) .. | refine State.remoteWrite_only (hm := Only.sub (by decide) hm) (hk := ?_) ..
    | dsimp only)

theorem State.readRsp_only {M : Nat} {s₀ : State} (s : State) (p : Packet) (hm : 620758672 &&& M = 620758672)
    (hk : Only M s₀ s) : Only M s₀ (State.readRsp s p) := by
  unfold State.readRsp
  repeat' (first
    | with_reducible assumption
    | with_reducible refine State.inject_only (hm := Only.sub (by decide) hm) (hk := ?_) ..
    | split
    | dsimp only)

theorem execReadReq_only {M : Nat} {s₀ : State} (p : Packet) (ecc : List (Nat × EccResult)) (s : State) (hm : 1838909074 &&& M = 1838909074)
    (hk : Only M s₀ s) : Answers (execReadReq p ecc s) (Only M s₀) := by
  unfold execReadReq
  repeat' (first
    | with_reducible assumption
    | with_reducible refine Answers.next ?_
    | with_reducible refine Answers.ite ?_ ?_
    | with_reducible first | refine State.consumed_only (hm := Only.sub (by decide) hm) (hk := ?_) .. | refine State.eccAll_only (hm := Only.sub (by decide) hm) (hk := ?_) .. | refine State.remoteFault_only (hm := Only.sub (by decide) hm) (hk := ?_) .. | refine State.wakeAt_only (hm := Only.sub (by decide) hm) (hk := ?_) .. | refine State.readErr_only (hm := Only.sub (by decide) hm) (hk := ?_) .. | refine State.readRsp_only (hm := Only.sub (by decide) hm) (hk := ?_) ..
    | split
    | dsimp only)

theorem State.readGone_only {M : Nat} {s₀ : State} (s : State) (w : ReadWait) (hm : 67108864 &&& M = 67108864)
    (hk : Only M s₀ s) : Only M s₀ (State.readGone s w) := by
  unfold State.readGone
  repeat' (first
    | with_reducible assumption
    | with_reducible refine State.modRtr_only (hm := Only.sub (by decide) hm) (hk := ?_) ..
    | split)

theorem State.readFailed_only {M : Nat} {s₀ : State} (s : State) (w : ReadWait) (st : Status) (hm : 67208208 &&& M = 67208208)
    (hk : Only M s₀ s) : Only M s₀ (State.readFailed s w st) := by
  unfold State.readFailed
  repeat' (first
    | with_reducible assumption
    | with_reducible first | refine State.spoil_only (hm := Only.sub (by decide) hm) (hk := ?_) .. | refine State.dmaEnd_only (hm := Only.sub (by decide) hm) (hk := ?_) .. | refine State.fillFailed_only (hm := Only.sub (by decide) hm) (hk := ?_) .. | refine State.loadDone_only (hm := Only.sub (by decide) hm) (hk := ?_) .. | refine State.readGone_only (hm := Only.sub (by decide) hm) (hk := ?_) ..
    | split
    | dsimp only)

theorem State.readLanded_only {M : Nat} {s₀ : State} (s : State) (w : ReadWait) (p : Packet) (hm : 1838778000 &&& M = 1838778000)
    (hk : Only M s₀ s) : Only M s₀ (State.readLanded s w p) := by
  unfold State.readLanded
  repeat' (first
    | with_reducible assumption
    | with_reducible first | refine State.modHost_only (hm := Only.sub (by decide) hm) (hk := ?_) .. | refine State.writeMem_only (hm := Only.sub (by decide) hm) (hk := ?_) .. | refine State.dmaEnd_only (hm := Only.sub (by decide) hm) (hk := ?_) .. | refine State.filled_only (hm := Only.sub (by decide) hm) (hk := ?_) .. | refine State.loadWrite_only (hm := Only.sub (by decide) hm) (hk := ?_) .. | refine State.loadDone_only (hm := Only.sub (by decide) hm) (hk := ?_) .. | refine State.readGone_only (hm := Only.sub (by decide) hm) (hk := ?_) ..
    | with_reducible refine Only.ite ?_ ?_
    | split
    | dsimp only)

theorem State.lateRsp_only {M : Nat} {s₀ : State} (s : State) (hm : 67108864 &&& M = 67108864)
    (hk : Only M s₀ s) : Only M s₀ (State.lateRsp s) := by
  unfold State.lateRsp
  repeat' (first
    | with_reducible assumption
    | with_reducible refine State.modRtr_only (hm := Only.sub (by decide) hm) (hk := ?_) ..
    | split)

theorem execReadRsp_only {M : Nat} {s₀ : State} (p : Packet) (s : State) (hm : 1838778000 &&& M = 1838778000)
    (hk : Only M s₀ s) : Answers (execReadRsp p s) (Only M s₀) := by
  unfold execReadRsp
  repeat' (first
    | with_reducible assumption
    | with_reducible refine Answers.next ?_
    | with_reducible refine Answers.ite ?_ ?_
    | with_reducible first | refine State.consumed_only (hm := Only.sub (by decide) hm) (hk := ?_) .. | refine State.accepted_only (hm := Only.sub (by decide) hm) (hk := ?_) .. | refine State.readGone_only (hm := Only.sub (by decide) hm) (hk := ?_) .. | refine State.readLanded_only (hm := Only.sub (by decide) hm) (hk := ?_) .. | refine State.lateRsp_only (hm := Only.sub (by decide) hm) (hk := ?_) ..
    | with_reducible refine Only.ite ?_ ?_
    | split
    | dsimp only)

theorem execReadErr_only {M : Nat} {s₀ : State} (p : Packet) (s : State) (hm : 83985424 &&& M = 83985424)
    (hk : Only M s₀ s) : Answers (execReadErr p s) (Only M s₀) := by
  unfold execReadErr
  repeat' (first
    | with_reducible assumption
    | with_reducible refine Answers.next ?_
    | with_reducible refine Answers.ite ?_ ?_
    | with_reducible first | refine State.consumed_only (hm := Only.sub (by decide) hm) (hk := ?_) .. | refine State.readFailed_only (hm := Only.sub (by decide) hm) (hk := ?_) .. | refine State.lateRsp_only (hm := Only.sub (by decide) hm) (hk := ?_) ..
    | split
    | dsimp only)

theorem execReadTimeout_only {M : Nat} {s₀ : State} (handle : Nat) (s : State) (hm : 604079122 &&& M = 604079122)
    (hk : Only M s₀ s) : Answers (execReadTimeout handle s) (Only M s₀) := by
  unfold execReadTimeout
  repeat' (first
    | with_reducible assumption
    | with_reducible refine Answers.next ?_
    | with_reducible first | refine State.reach_only (hm := Only.sub (by decide) hm) (hk := ?_) .. | refine State.readFailed_only (hm := Only.sub (by decide) hm) (hk := ?_) ..
    | split
    | dsimp only)

theorem State.engineFault_only {M : Nat} {s₀ : State} (s : State) (n : Nat) (hm : 537003664 &&& M = 537003664)
    (hk : Only M s₀ s) : Only M s₀ (State.engineFault s n) := by
  unfold State.engineFault
  repeat' (first
    | with_reducible assumption
    | with_reducible first | refine State.detect_only (hm := Only.sub (by decide) hm) (hk := ?_) .. | refine State.closeWindow_only (hm := Only.sub (by decide) hm) (hk := ?_) .. | refine State.contain_only (hm := Only.sub (by decide) hm) (hk := ?_) ..
    | with_reducible refine Only.ite ?_ ?_)

theorem execLanding_only {M : Nat} {s₀ : State} (l : Land) (ecc : List (Nat × EccResult)) (s : State) (hm : 1841006224 &&& M = 1841006224)
    (hk : Only M s₀ s) : Answers (execLanding l ecc s) (Only M s₀) := by
  unfold execLanding
  repeat' (first
    | with_reducible assumption
    | with_reducible refine Answers.next ?_
    | with_reducible first | refine State.eccAll_only (hm := Only.sub (by decide) hm) (hk := ?_) .. | refine State.land_only (hm := Only.sub (by decide) hm) (hk := ?_) ..
    | dsimp only)

theorem execSettleContribution_only {M : Nat} {s₀ : State} (faults : List Nat) (ecc : List (Nat × EccResult)) (s : State) (hm : 1845462672 &&& M = 1845462672)
    (hk : Only M s₀ s) : Answers (execSettleContribution faults ecc s) (Only M s₀) := by
  unfold execSettleContribution
  repeat' (first
    | with_reducible assumption
    | with_reducible refine Answers.next ?_
    | with_reducible refine Answers.ite ?_ ?_
    | with_reducible first | refine State.each_only (hm := Only.sub (by decide) hm) (hk := ?_) (hf := ?_) .. | refine State.eccAll_only (hm := Only.sub (by decide) hm) (hk := ?_) .. | refine State.contribute_only (hm := Only.sub (by decide) hm) (hk := ?_) .. | refine State.stmtStart_only (hm := Only.sub (by decide) hm) (hk := ?_) .. | refine State.engineFault_only (hm := Only.sub (by decide) hm) (hk := ?_) ..
    | (intros; with_reducible assumption)
    | intro _ _ _
    | intro _ _
    | dsimp only)

theorem execSettleWalkEnd_only {M : Nat} {s₀ : State} (ecc : List (Nat × EccResult)) (s : State) (hm : 1841006226 &&& M = 1841006226)
    (hk : Only M s₀ s) : Answers (execSettleWalkEnd ecc s) (Only M s₀) := by
  unfold execSettleWalkEnd
  repeat' (first
    | with_reducible assumption
    | with_reducible refine Answers.next ?_
    | with_reducible refine Answers.ite ?_ ?_
    | with_reducible first | refine State.eccAll_only (hm := Only.sub (by decide) hm) (hk := ?_) .. | refine State.endWalk_only (hm := Only.sub (by decide) hm) (hk := ?_) .. | refine State.releaseSegs_only (hm := Only.sub (by decide) hm) (hk := ?_) ..
    | dsimp only)

theorem State.pointFail_only {M : Nat} {s₀ : State} (s : State) (st : Status) (hm : 763463312 &&& M = 763463312)
    (hk : Only M s₀ s) : Only M s₀ (State.pointFail s st) := by
  unfold State.pointFail
  repeat' (first
    | with_reducible assumption
    | with_reducible first | refine State.modCol_only (hm := Only.sub (by decide) hm) (hk := ?_) .. | refine State.haltSeq_only (hm := Only.sub (by decide) hm) (hk := ?_) ..
    | with_reducible refine Only.foldl (fun _ _ _ => ?_) ?_
    | split
    | dsimp only)

theorem execStmtTimeout_only {M : Nat} {s₀ : State} (s : State) (hm : 771327634 &&& M = 771327634)
    (hk : Only M s₀ s) : Answers (execStmtTimeout s) (Only M s₀) := by
  unfold execStmtTimeout
  repeat' (first
    | with_reducible assumption
    | with_reducible refine Answers.next ?_
    | with_reducible refine Answers.ite ?_ ?_
    | with_reducible first | refine State.reach_only (hm := Only.sub (by decide) hm) (hk := ?_) .. | refine State.stmtFail_only (hm := Only.sub (by decide) hm) (hk := ?_) .. | refine State.pointFail_only (hm := Only.sub (by decide) hm) (hk := ?_) ..
    | dsimp only)

theorem execSpikeReset_only {M : Nat} {s₀ : State} (s : State) (hm : 2097152 &&& M = 2097152)
    (hk : Only M s₀ s) : Answers (execSpikeReset s) (Only M s₀) := by
  unfold execSpikeReset
  repeat' (first
    | with_reducible assumption
    | with_reducible refine Answers.next ?_
    | with_reducible refine State.modSet_only (hm := Only.sub (by decide) hm) (hk := ?_) ..
    | split
    | dsimp only)

theorem State.refuseEntry_only {M : Nat} {s₀ : State} (s : State) (i : Nat) (st : Status) (hm : 620856978 &&& M = 620856978)
    (hk : Only M s₀ s) : Only M s₀ (State.refuseEntry s i st) := by
  unfold State.refuseEntry
  repeat' (first
    | with_reducible assumption
    | with_reducible refine State.collectiveCoin_only (hm := Only.sub (by decide) hm) (hk := ?_) ..
    | with_reducible refine Only.ite ?_ ?_
    | split)

theorem State.startEntry_only {M : Nat} {s₀ : State} (s : State) (i micro : Nat) (last : Bool) (hm : 632915602 &&& M = 632915602)
    (hk : Only M s₀ s) : Only M s₀ (State.startEntry s i micro last) := by
  unfold State.startEntry
  repeat' (first
    | with_reducible assumption
    | with_reducible first | refine State.modCol_only (hm := Only.sub (by decide) hm) (hk := ?_) .. | refine State.issueFill_only (hm := Only.sub (by decide) hm) (hk := ?_) .. | refine State.entryRun_only (hm := Only.sub (by decide) hm) (hk := ?_) .. | refine State.microEnd_only (hm := Only.sub (by decide) hm) (hk := ?_) .. | refine State.refuseEntry_only (hm := Only.sub (by decide) hm) (hk := ?_) ..
    | with_reducible refine Only.ite ?_ ?_
    | split
    | dsimp only)

theorem execCollectiveStart_only {M : Nat} {s₀ : State} (c : Nat) (t : Tick) (i micro : Nat) (last : Bool) (ecc : List (Nat × EccResult)) (s : State) (hm : 2109441938 &&& M = 2109441938)
    (hk : Only M s₀ s) : Answers (execCollectiveStart c t i micro last ecc s) (Only M s₀) := by
  unfold execCollectiveStart
  repeat' (first
    | with_reducible assumption
    | with_reducible refine Answers.next ?_
    | with_reducible first | refine State.eccAll_only (hm := Only.sub (by decide) hm) (hk := ?_) .. | refine State.onSeq_only (hm := Only.sub (by decide) hm) (hk := ?_) (hf := ?_) .. | refine State.startEntry_only (hm := Only.sub (by decide) hm) (hk := ?_) ..
    | intro _ _
    | split
    | dsimp only)

theorem execReduceSegment_only {M : Nat} {s₀ : State} (p : Packet) (fault : Bool) (ecc : List (Nat × EccResult)) (s : State) (hm : 1841006226 &&& M = 1841006226)
    (hk : Only M s₀ s) : Answers (execReduceSegment p fault ecc s) (Only M s₀) := by
  unfold execReduceSegment
  repeat' (first
    | with_reducible assumption
    | with_reducible refine Answers.next ?_
    | with_reducible refine Answers.ite ?_ ?_
    | with_reducible first | refine State.detect_only (hm := Only.sub (by decide) hm) (hk := ?_) .. | refine State.takeIn_only (hm := Only.sub (by decide) hm) (hk := ?_) .. | refine State.eccAll_only (hm := Only.sub (by decide) hm) (hk := ?_) .. | refine State.accepted_only (hm := Only.sub (by decide) hm) (hk := ?_) .. | refine State.segment_only (hm := Only.sub (by decide) hm) (hk := ?_) ..
    | with_reducible refine Only.ite ?_ ?_
    | dsimp only)

theorem execGatherSegment_only {M : Nat} {s₀ : State} (p : Packet) (s : State) (hm : 632915602 &&& M = 632915602)
    (hk : Only M s₀ s) : Answers (execGatherSegment p s) (Only M s₀) := by
  unfold execGatherSegment
  repeat' (first
    | with_reducible assumption
    | with_reducible refine Answers.next ?_
    | with_reducible refine Answers.ite ?_ ?_
    | with_reducible first | refine State.takeIn_only (hm := Only.sub (by decide) hm) (hk := ?_) .. | refine State.accepted_only (hm := Only.sub (by decide) hm) (hk := ?_) .. | refine State.segment_only (hm := Only.sub (by decide) hm) (hk := ?_) ..
    | dsimp only)

theorem execCollectiveEnd_only {M : Nat} {s₀ : State} (i : Nat) (ecc : List (Nat × EccResult)) (s : State) (hm : 1841006226 &&& M = 1841006226)
    (hk : Only M s₀ s) : Answers (execCollectiveEnd i ecc s) (Only M s₀) := by
  unfold execCollectiveEnd
  repeat' (first
    | with_reducible assumption
    | with_reducible refine Answers.next ?_
    | with_reducible refine Answers.ite ?_ ?_
    | with_reducible first | refine State.eccAll_only (hm := Only.sub (by decide) hm) (hk := ?_) .. | refine State.entryEnd_only (hm := Only.sub (by decide) hm) (hk := ?_) .. | refine State.gradStageEnd_only (hm := Only.sub (by decide) hm) (hk := ?_) .. | refine State.microEnd_only (hm := Only.sub (by decide) hm) (hk := ?_) ..
    | split
    | dsimp only)

theorem execStatementCombine_only {M : Nat} {s₀ : State} (p : Packet) (faults : List Nat) (ecc : List (Nat × EccResult)) (s : State) (hm : 1845462672 &&& M = 1845462672)
    (hk : Only M s₀ s) : Answers (execStatementCombine p faults ecc s) (Only M s₀) := by
  unfold execStatementCombine
  repeat' (first
    | with_reducible assumption
    | with_reducible refine Answers.next ?_
    | with_reducible refine Answers.ite ?_ ?_
    | with_reducible first | refine State.modDec_only (hm := Only.sub (by decide) hm) (hk := ?_) .. | refine State.each_only (hm := Only.sub (by decide) hm) (hk := ?_) (hf := ?_) .. | refine State.consumed_only (hm := Only.sub (by decide) hm) (hk := ?_) .. | refine State.badPacket_only (hm := Only.sub (by decide) hm) (hk := ?_) .. | refine State.eccAll_only (hm := Only.sub (by decide) hm) (hk := ?_) .. | refine State.stmtAdvance_only (hm := Only.sub (by decide) hm) (hk := ?_) .. | refine State.engineFault_only (hm := Only.sub (by decide) hm) (hk := ?_) ..
    | (intros; with_reducible assumption)
    | intro _ _ _
    | intro _ _
    | split
    | dsimp only)

theorem execStatementBroadcast_only {M : Nat} {s₀ : State} (p : Packet) (faults : List Nat) (ecc : List (Nat × EccResult)) (s : State) (hm : 1845462672 &&& M = 1845462672)
    (hk : Only M s₀ s) : Answers (execStatementBroadcast p faults ecc s) (Only M s₀) := by
  unfold execStatementBroadcast
  repeat' (first
    | with_reducible assumption
    | with_reducible refine Answers.next ?_
    | with_reducible refine Answers.ite ?_ ?_
    | with_reducible first | refine State.each_only (hm := Only.sub (by decide) hm) (hk := ?_) (hf := ?_) .. | refine State.consumed_only (hm := Only.sub (by decide) hm) (hk := ?_) .. | refine State.badPacket_only (hm := Only.sub (by decide) hm) (hk := ?_) .. | refine State.eccAll_only (hm := Only.sub (by decide) hm) (hk := ?_) .. | refine State.stmtFinal_only (hm := Only.sub (by decide) hm) (hk := ?_) .. | refine State.engineFault_only (hm := Only.sub (by decide) hm) (hk := ?_) ..
    | (intros; with_reducible assumption)
    | intro _ _ _
    | intro _ _
    | dsimp only)

theorem State.reachPoint_only {M : Nat} {s₀ : State} (s : State) (n : Nat) (hm : 763463312 &&& M = 763463312)
    (hk : Only M s₀ s) : Only M s₀ (State.reachPoint s n) := by
  unfold State.reachPoint
  repeat' (first
    | with_reducible assumption
    | with_reducible first | refine State.modCol_only (hm := Only.sub (by decide) hm) (hk := ?_) .. | refine State.pointFinal_only (hm := Only.sub (by decide) hm) (hk := ?_) .. | refine State.pointAdvance_only (hm := Only.sub (by decide) hm) (hk := ?_) .. | refine State.pointFail_only (hm := Only.sub (by decide) hm) (hk := ?_) ..
    | with_reducible refine Only.ite ?_ ?_
    | split
    | dsimp only)

theorem execPointBarrierCombine_only {M : Nat} {s₀ : State} (n : Nat) (arrived : Option Packet) (s : State) (hm : 763463312 &&& M = 763463312)
    (hk : Only M s₀ s) : Answers (execPointBarrierCombine n arrived s) (Only M s₀) := by
  unfold execPointBarrierCombine
  repeat' (first
    | with_reducible assumption
    | with_reducible refine Answers.next ?_
    | with_reducible refine Answers.ite ?_ ?_
    | with_reducible first | refine State.modCol_only (hm := Only.sub (by decide) hm) (hk := ?_) .. | refine State.consumed_only (hm := Only.sub (by decide) hm) (hk := ?_) .. | refine State.badPacket_only (hm := Only.sub (by decide) hm) (hk := ?_) .. | refine State.pointAdvance_only (hm := Only.sub (by decide) hm) (hk := ?_) .. | refine State.reachPoint_only (hm := Only.sub (by decide) hm) (hk := ?_) ..
    | split
    | dsimp only)

theorem execPointBarrierBroadcast_only {M : Nat} {s₀ : State} (p : Packet) (s : State) (hm : 629147280 &&& M = 629147280)
    (hk : Only M s₀ s) : Answers (execPointBarrierBroadcast p s) (Only M s₀) := by
  unfold execPointBarrierBroadcast
  repeat' (first
    | with_reducible assumption
    | with_reducible refine Answers.next ?_
    | with_reducible refine Answers.ite ?_ ?_
    | with_reducible first | refine State.consumed_only (hm := Only.sub (by decide) hm) (hk := ?_) .. | refine State.badPacket_only (hm := Only.sub (by decide) hm) (hk := ?_) .. | refine State.pointFinal_only (hm := Only.sub (by decide) hm) (hk := ?_) ..
    | dsimp only)

end Sys2Proof.Machine
end

