-- ==== Sys2Proof/Laws/OnlyJob.lean ====
section
/-!
SUPPORT. `Only` of every operation on the state, part: jobs, resets, discovery, power, errors.
-/
set_option autoImplicit false
set_option linter.unusedVariables false
namespace Sys2Proof.Machine

theorem State.setSlot_only {M : Nat} {s₀ : State} (s : State) (i : Nat) (v : List Byte) (hm : 2147483648 &&& M = 2147483648)
    (hk : Only M s₀ s) : Only M s₀ (State.setSlot s i v) := by
  unfold State.setSlot
  repeat' (first
    | with_reducible assumption
    | with_reducible refine State.modSec_only (hm := Only.sub (by decide) hm) (hk := ?_) ..
    | split)

theorem State.extendSlot_only {M : Nat} {s₀ : State} (s : State) (i : Nat) (x : List Byte) (hm : 2147483648 &&& M = 2147483648)
    (hk : Only M s₀ s) : Only M s₀ (State.extendSlot s i x) := by
  unfold State.extendSlot
  repeat' (first
    | with_reducible assumption
    | with_reducible refine State.setSlot_only (hm := Only.sub (by decide) hm) (hk := ?_) ..)

theorem State.clearJob_only {M : Nat} {s₀ : State} (s : State) (hm : 2162210816 &&& M = 2162210816)
    (hk : Only M s₀ s) : Only M s₀ (State.clearJob s) := by
  unfold State.clearJob
  repeat' (first
    | with_reducible assumption
    | with_reducible first | refine State.modClusters_only (hm := Only.sub (by decide) hm) (hk := ?_) .. | refine State.modCol_only (hm := Only.sub (by decide) hm) (hk := ?_) .. | refine State.modSec_only (hm := Only.sub (by decide) hm) (hk := ?_) .. | refine State.setSlot_only (hm := Only.sub (by decide) hm) (hk := ?_) ..
    | split
    | with_reducible refine Only.set_job_saved_preempt_settle_dec (hm := Only.sub (by decide) hm) (h := ?_) ..
    | dsimp only)

theorem State.scrub_only {M : Nat} {s₀ : State} (s : State) (level : Nat) (hm : 622592 &&& M = 622592)
    (hk : Only M s₀ s) : Only M s₀ (State.scrub s level) := by
  unfold State.scrub
  repeat' (first
    | with_reducible assumption
    | with_reducible refine State.modClusters_only (hm := Only.sub (by decide) hm) (hk := ?_) ..
    | with_reducible refine Only.ite ?_ ?_
    | split
    | with_reducible refine Only.set_mem (hm := Only.sub (by decide) hm) (h := ?_) ..
    | with_reducible refine Only.set_cores_mem (hm := Only.sub (by decide) hm) (h := ?_) ..
    | dsimp only)

theorem State.loadSection_only {M : Nat} {s₀ : State} (s : State) (img : List Byte) (src : Option Nat) (x : Section) (hm : 1605632 &&& M = 1605632)
    (hk : Only M s₀ s) : Only M s₀ (State.loadSection s img src x) := by
  unfold State.loadSection
  repeat' (first
    | with_reducible assumption
    | with_reducible first | refine State.modSeq_only (hm := Only.sub (by decide) hm) (hk := ?_) .. | refine State.writeMem_only (hm := Only.sub (by decide) hm) (hk := ?_) .. | refine State.copyMem_only (hm := Only.sub (by decide) hm) (hk := ?_) ..
    | with_reducible refine Only.ite ?_ ?_
    | with_reducible refine Only.foldl (fun _ _ _ => ?_) ?_
    | split
    | dsimp only)

theorem State.loadImage_only {M : Nat} {s₀ : State} (s : State) (d : Desc) (img : List Byte) (src : Option Nat) (hm : 2149091328 &&& M = 2149091328)
    (hk : Only M s₀ s) : Only M s₀ (State.loadImage s d img src) := by
  unfold State.loadImage
  repeat' (first
    | with_reducible assumption
    | with_reducible first | refine State.modClusters_only (hm := Only.sub (by decide) hm) (hk := ?_) .. | refine State.modSec_only (hm := Only.sub (by decide) hm) (hk := ?_) .. | refine State.setSlot_only (hm := Only.sub (by decide) hm) (hk := ?_) .. | refine State.extendSlot_only (hm := Only.sub (by decide) hm) (hk := ?_) .. | refine State.loadSection_only (hm := Only.sub (by decide) hm) (hk := ?_) ..
    | with_reducible refine Only.foldl (fun _ _ _ => ?_) ?_
    | split
    | with_reducible refine Only.set_job (hm := Only.sub (by decide) hm) (h := ?_) ..
    | dsimp only)

theorem State.cmdGone_only {M : Nat} {s₀ : State} (s : State) (d : Desc) (hm : 574654100 &&& M = 574654100)
    (hk : Only M s₀ s) : Only M s₀ (State.cmdGone s d) := by
  unfold State.cmdGone
  repeat' (first
    | with_reducible assumption
    | with_reducible first | refine State.modSeq_only (hm := Only.sub (by decide) hm) (hk := ?_) .. | refine State.modHost_only (hm := Only.sub (by decide) hm) (hk := ?_) .. | refine State.modDec_only (hm := Only.sub (by decide) hm) (hk := ?_) .. | refine State.stepPosted_only (hm := Only.sub (by decide) hm) (hk := ?_) .. | refine State.timeSettles_only (hm := Only.sub (by decide) hm) (hk := ?_) ..
    | with_reducible refine Only.ite ?_ ?_
    | with_reducible refine Only.foldl (fun _ _ _ => ?_) ?_
    | split
    | dsimp only)

theorem State.saveJob_only {M : Nat} {s₀ : State} (s : State) (point : Nat) (hm : 36864 &&& M = 36864)
    (hk : Only M s₀ s) : Only M s₀ (State.saveJob s point) := by
  unfold State.saveJob
  repeat' (first
    | with_reducible assumption
    | with_reducible refine State.saveQueues_only (hm := Only.sub (by decide) hm) (hk := ?_) ..
    | with_reducible refine Only.foldl (fun _ _ _ => ?_) ?_
    | split
    | with_reducible refine Only.set_saved (hm := Only.sub (by decide) hm) (h := ?_) ..
    | dsimp only)

theorem State.stopCommand_only {M : Nat} {s₀ : State} (s : State) (hm : 763463312 &&& M = 763463312)
    (hk : Only M s₀ s) : Only M s₀ (State.stopCommand s) := by
  unfold State.stopCommand
  repeat' (first
    | with_reducible assumption
    | with_reducible first | refine State.cancelFills_only (hm := Only.sub (by decide) hm) (hk := ?_) .. | refine State.endOn_only (hm := Only.sub (by decide) hm) (hk := ?_) ..
    | with_reducible refine Only.ite ?_ ?_
    | with_reducible refine Only.foldl (fun _ _ _ => ?_) ?_
    | split)

theorem State.preempted_only {M : Nat} {s₀ : State} (s : State) (point : Nat) (d : Desc) (hm : 574654100 &&& M = 574654100)
    (hk : Only M s₀ s) : Only M s₀ (State.preempted s point d) := by
  unfold State.preempted
  repeat' (first
    | with_reducible assumption
    | with_reducible first | refine State.modHost_only (hm := Only.sub (by decide) hm) (hk := ?_) .. | refine State.complete_only (hm := Only.sub (by decide) hm) (hk := ?_) .. | refine State.cmdGone_only (hm := Only.sub (by decide) hm) (hk := ?_) ..
    | with_reducible refine Only.ite ?_ ?_
    | split
    | dsimp only)

theorem State.takePreempt_only {M : Nat} {s₀ : State} (s : State) (hm : 801240724 &&& M = 801240724)
    (hk : Only M s₀ s) : Only M s₀ (State.takePreempt s) := by
  unfold State.takePreempt
  repeat' (first
    | with_reducible assumption
    | with_reducible first | refine State.modCol_only (hm := Only.sub (by decide) hm) (hk := ?_) .. | refine State.log_only (hm := Only.sub (by decide) hm) (hk := ?_) .. | refine State.complete_only (hm := Only.sub (by decide) hm) (hk := ?_) .. | refine State.saveJob_only (hm := Only.sub (by decide) hm) (hk := ?_) .. | refine State.stopCommand_only (hm := Only.sub (by decide) hm) (hk := ?_) .. | refine State.preempted_only (hm := Only.sub (by decide) hm) (hk := ?_) ..
    | with_reducible refine Only.foldl (fun _ _ _ => ?_) ?_
    | split
    | with_reducible refine Only.set_preempt_preempts (hm := Only.sub (by decide) hm) (h := ?_) ..
    | dsimp only)

theorem State.restoreJob_only {M : Nat} {s₀ : State} (s : State) (x : SavedContext) (hm : 627938960 &&& M = 627938960)
    (hk : Only M s₀ s) : Only M s₀ (State.restoreJob s x) := by
  unfold State.restoreJob
  repeat' (first
    | with_reducible assumption
    | with_reducible first | refine State.modClusters_only (hm := Only.sub (by decide) hm) (hk := ?_) .. | refine State.restoreQueues_only (hm := Only.sub (by decide) hm) (hk := ?_) ..
    | with_reducible refine Only.foldl (fun _ _ _ => ?_) ?_
    | split
    | with_reducible refine Only.set_saved_hwm_mem_settle_dec (hm := Only.sub (by decide) hm) (h := ?_) ..
    | dsimp only)

theorem State.stopRings_only {M : Nat} {s₀ : State} (s : State) (hm : 67257360 &&& M = 67257360)
    (hk : Only M s₀ s) : Only M s₀ (State.stopRings s) := by
  unfold State.stopRings
  repeat' (first
    | with_reducible assumption
    | with_reducible first | refine State.modHost_only (hm := Only.sub (by decide) hm) (hk := ?_) .. | refine State.modRtr_only (hm := Only.sub (by decide) hm) (hk := ?_) .. | refine State.complete_only (hm := Only.sub (by decide) hm) (hk := ?_) ..
    | with_reducible refine Only.foldl (fun _ _ _ => ?_) ?_
    | split
    | with_reducible refine Only.set_preempts_units (hm := Only.sub (by decide) hm) (h := ?_) ..
    | dsimp only)

theorem State.enterFatal_only {M : Nat} {s₀ : State} (s : State) (hm : 670811798 &&& M = 670811798)
    (hk : Only M s₀ s) : Only M s₀ (State.enterFatal s) := by
  unfold State.enterFatal
  repeat' (first
    | with_reducible assumption
    | with_reducible first | refine State.modClusters_only (hm := Only.sub (by decide) hm) (hk := ?_) .. | refine State.modErr_only (hm := Only.sub (by decide) hm) (hk := ?_) .. | refine State.linkLeaves_only (hm := Only.sub (by decide) hm) (hk := ?_) .. | refine State.stopRings_only (hm := Only.sub (by decide) hm) (hk := ?_) ..
    | with_reducible refine Only.ite ?_ ?_
    | with_reducible refine Only.foldl (fun _ _ _ => ?_) ?_
    | split
    | with_reducible refine Only.set_dram (hm := Only.sub (by decide) hm) (h := ?_) ..
    | dsimp only)

theorem State.unfault_only {M : Nat} {s₀ : State} (s : State) (ks : List UnitKind) (hm : 131072 &&& M = 131072)
    (hk : Only M s₀ s) : Only M s₀ (State.unfault s ks) := by
  unfold State.unfault
  repeat' (first
    | with_reducible assumption
    | split
    | with_reducible refine Only.set_units (hm := Only.sub (by decide) hm) (h := ?_) ..)

theorem State.clearCores_only {M : Nat} {s₀ : State} (s : State) (c : Nat) (hm : 67207168 &&& M = 67207168)
    (hk : Only M s₀ s) : Only M s₀ (State.clearCores s c) := by
  unfold State.clearCores
  repeat' (first
    | with_reducible assumption
    | with_reducible first | refine State.modCore_only (hm := Only.sub (by decide) hm) (hk := ?_) .. | refine State.releaseBuffers_only (hm := Only.sub (by decide) hm) (hk := ?_) .. | refine State.retireLayer_only (hm := Only.sub (by decide) hm) (hk := ?_) ..
    | with_reducible refine Only.foldl (fun _ _ _ => ?_) ?_
    | split
    | dsimp only)

theorem State.waitPass_only {M : Nat} {s₀ : State} (s : State) (hm : 624428688 &&& M = 624428688)
    (hk : Only M s₀ s) : Only M s₀ (State.waitPass s) := by
  unfold State.waitPass
  repeat' (first
    | with_reducible assumption
    | with_reducible refine State.endWalk_only (hm := Only.sub (by decide) hm) (hk := ?_) ..
    | with_reducible refine Only.ite ?_ ?_)

theorem State.sliceReset_only {M : Nat} {s₀ : State} (s : State) (hm : 2113636240 &&& M = 2113636240)
    (hk : Only M s₀ s) : Only M s₀ (State.sliceReset s) := by
  unfold State.sliceReset
  repeat' (first
    | with_reducible assumption
    | with_reducible first | refine State.modSet_only (hm := Only.sub (by decide) hm) (hk := ?_) .. | refine State.modDec_only (hm := Only.sub (by decide) hm) (hk := ?_) .. | refine State.modCol_only (hm := Only.sub (by decide) hm) (hk := ?_) .. | refine State.freeKept_only (hm := Only.sub (by decide) hm) (hk := ?_) .. | refine State.ownerReset_only (hm := Only.sub (by decide) hm) (hk := ?_) .. | refine State.endWindow_only (hm := Only.sub (by decide) hm) (hk := ?_) .. | refine State.fencesDone_only (hm := Only.sub (by decide) hm) (hk := ?_) .. | refine State.haltSeq_only (hm := Only.sub (by decide) hm) (hk := ?_) .. | refine State.flushCrossings_only (hm := Only.sub (by decide) hm) (hk := ?_) .. | refine State.resetEvent_only (hm := Only.sub (by decide) hm) (hk := ?_) .. | refine State.clearTotals_only (hm := Only.sub (by decide) hm) (hk := ?_) .. | refine State.clearPresence_only (hm := Only.sub (by decide) hm) (hk := ?_) .. | refine State.unfault_only (hm := Only.sub (by decide) hm) (hk := ?_) .. | refine State.clearCores_only (hm := Only.sub (by decide) hm) (hk := ?_) .. | refine State.waitPass_only (hm := Only.sub (by decide) hm) (hk := ?_) ..
    | with_reducible refine Only.foldl (fun _ _ _ => ?_) ?_
    | with_reducible refine Only.foldl2 (fun _ _ _ => ?_) ?_
    | split
    | dsimp only)

theorem State.sliceResetHere_only {M : Nat} {s₀ : State} (s : State) (hm : 2113636240 &&& M = 2113636240)
    (hk : Only M s₀ s) : Only M s₀ (State.sliceResetHere s) := by
  unfold State.sliceResetHere
  repeat' (first
    | with_reducible assumption
    | with_reducible first | refine State.modSlice_only (hm := Only.sub (by decide) hm) (hk := ?_) .. | refine State.sendNotice_only (hm := Only.sub (by decide) hm) (hk := ?_) .. | refine State.sliceReset_only (hm := Only.sub (by decide) hm) (hk := ?_) ..
    | with_reducible refine Only.ite ?_ ?_
    | split
    | dsimp only)

theorem State.clusterReset_only {M : Nat} {s₀ : State} (s : State) (c : Nat) (hm : 2105771922 &&& M = 2105771922)
    (hk : Only M s₀ s) : Only M s₀ (State.clusterReset s c) := by
  unfold State.clusterReset
  repeat' (first
    | with_reducible assumption
    | with_reducible first | refine State.wake_only (hm := Only.sub (by decide) hm) (hk := ?_) .. | refine State.flushCrossings_only (hm := Only.sub (by decide) hm) (hk := ?_) .. | refine State.resetEvent_only (hm := Only.sub (by decide) hm) (hk := ?_) .. | refine State.resetCluster_only (hm := Only.sub (by decide) hm) (hk := ?_) ..
    | split
    | dsimp only)

theorem State.coreReset_only {M : Nat} {s₀ : State} (s : State) (p : Nat) (hm : 1838909328 &&& M = 1838909328)
    (hk : Only M s₀ s) : Only M s₀ (State.coreReset s p) := by
  unfold State.coreReset
  repeat' (first
    | with_reducible assumption
    | with_reducible first | refine State.resetEvent_only (hm := Only.sub (by decide) hm) (hk := ?_) .. | refine State.resetCore_only (hm := Only.sub (by decide) hm) (hk := ?_) ..
    | split
    | dsimp only)

theorem State.portReset_only {M : Nat} {s₀ : State} (s : State) (n : Nat) (hm : 670795670 &&& M = 670795670)
    (hk : Only M s₀ s) : Only M s₀ (State.portReset s n) := by
  unfold State.portReset
  repeat' (first
    | with_reducible assumption
    | with_reducible first | refine State.modLink_only (hm := Only.sub (by decide) hm) (hk := ?_) .. | refine State.modDisc_only (hm := Only.sub (by decide) hm) (hk := ?_) .. | refine State.modUnit_only (hm := Only.sub (by decide) hm) (hk := ?_) .. | refine State.resetEvent_only (hm := Only.sub (by decide) hm) (hk := ?_) .. | refine State.retrain_only (hm := Only.sub (by decide) hm) (hk := ?_) ..
    | with_reducible refine Only.ite ?_ ?_
    | split
    | dsimp only)

theorem State.flr_only {M : Nat} {s₀ : State} (s : State) (hm : 4126932880 &&& M = 4126932880)
    (hk : Only M s₀ s) : Only M s₀ (State.flr s) := by
  unfold State.flr
  repeat' (first
    | with_reducible assumption
    | with_reducible first | refine State.modClusters_only (hm := Only.sub (by decide) hm) (hk := ?_) .. | refine State.modRtr_only (hm := Only.sub (by decide) hm) (hk := ?_) .. | refine State.modDev_only (hm := Only.sub (by decide) hm) (hk := ?_) .. | refine State.freeKept_only (hm := Only.sub (by decide) hm) (hk := ?_) .. | refine State.ownerReset_only (hm := Only.sub (by decide) hm) (hk := ?_) .. | refine State.endWindow_only (hm := Only.sub (by decide) hm) (hk := ?_) .. | refine State.flushCrossings_only (hm := Only.sub (by decide) hm) (hk := ?_) .. | refine State.resetEvent_only (hm := Only.sub (by decide) hm) (hk := ?_) .. | refine State.extendSlot_only (hm := Only.sub (by decide) hm) (hk := ?_) .. | refine State.clearJob_only (hm := Only.sub (by decide) hm) (hk := ?_) .. | refine State.scrub_only (hm := Only.sub (by decide) hm) (hk := ?_) .. | refine State.unfault_only (hm := Only.sub (by decide) hm) (hk := ?_) .. | refine State.clearCores_only (hm := Only.sub (by decide) hm) (hk := ?_) .. | refine State.waitPass_only (hm := Only.sub (by decide) hm) (hk := ?_) ..
    | with_reducible refine Only.foldl (fun _ _ _ => ?_) ?_
    | with_reducible refine Only.foldl2 (fun _ _ _ => ?_) ?_
    | split
    | with_reducible refine Only.set_units (hm := Only.sub (by decide) hm) (h := ?_) ..
    | with_reducible refine Only.set_host_preempts (hm := Only.sub (by decide) hm) (h := ?_) ..
    | dsimp only)

theorem State.leaveMaintenance_only {M : Nat} {s₀ : State} (s : State) (hm : 2684356240 &&& M = 2684356240)
    (hk : Only M s₀ s) : Only M s₀ (State.leaveMaintenance s) := by
  unfold State.leaveMaintenance
  repeat' (first
    | with_reducible assumption
    | with_reducible first | refine State.modErr_only (hm := Only.sub (by decide) hm) (hk := ?_) .. | refine State.modSec_only (hm := Only.sub (by decide) hm) (hk := ?_) .. | refine State.log_only (hm := Only.sub (by decide) hm) (hk := ?_) ..
    | with_reducible refine Only.ite ?_ ?_
    | split)

theorem State.timeDrops_only {M : Nat} {s₀ : State} (s : State) (hm : 570427028 &&& M = 570427028)
    (hk : Only M s₀ s) : Only M s₀ (State.timeDrops s) := by
  unfold State.timeDrops
  repeat' (first
    | with_reducible assumption
    | with_reducible refine State.holdover_only (hm := Only.sub (by decide) hm) (hk := ?_) ..
    | with_reducible refine Only.ite ?_ ?_)

theorem State.warmReset_only {M : Nat} {s₀ : State} (s : State) (hm : 8589934486 &&& M = 8589934486) (hk : Only M s₀ s) : Only M s₀ s.warmReset := by
  unfold State.warmReset
  split
  · exact hk
  · have k := State.flushCrossings_only s (fun _ => true) (hm := Only.sub (by decide) hm) hk
    dsimp only
    generalize s.flushCrossings (fun _ => true) = p at k
    obtain ⟨n, s⟩ := p
    have k := State.total_only _ 3 1 (hm := Only.sub (by decide) hm) (State.slewAt_only _ 0 (hm := Only.sub (by decide) hm) (State.timeDrops_only _ (hm := Only.sub (by decide) hm) (State.leaveMaintenance_only s (hm := Only.sub (by decide) hm) k)))
    refine Only.trans k (Only.weaken hm ?_)
    constructor <;> first | exact fun _ => rfl | exact Agree.set (by decide) _ _

theorem execIdentity_only {M : Nat} {s₀ : State} (n : Nat) (p : Packet) (s : State) (hm : 670664342 &&& M = 670664342)
    (hk : Only M s₀ s) : Answers (execIdentity n p s) (Only M s₀) := by
  unfold execIdentity
  repeat' (first
    | with_reducible assumption
    | with_reducible refine Answers.next ?_
    | with_reducible refine Answers.ite ?_ ?_
    | with_reducible first | refine State.consumed_only (hm := Only.sub (by decide) hm) (hk := ?_) .. | refine State.identity_only (hm := Only.sub (by decide) hm) (hk := ?_) ..
    | dsimp only)

theorem execIdentityRepeat_only {M : Nat} {s₀ : State} (n : Nat) (s : State) (hm : 16777232 &&& M = 16777232)
    (hk : Only M s₀ s) : Answers (execIdentityRepeat n s) (Only M s₀) := by
  unfold execIdentityRepeat
  repeat' (first
    | with_reducible assumption
    | with_reducible refine Answers.next ?_
    | with_reducible refine Answers.ite ?_ ?_
    | with_reducible refine State.sendIdentity_only (hm := Only.sub (by decide) hm) (hk := ?_) ..
    | dsimp only)

theorem execIdentityTimeout_only {M : Nat} {s₀ : State} (n : Nat) (s : State) (hm : 670664342 &&& M = 670664342)
    (hk : Only M s₀ s) : Answers (execIdentityTimeout n s) (Only M s₀) := by
  unfold execIdentityTimeout
  repeat' (first
    | with_reducible assumption
    | with_reducible refine Answers.next ?_
    | with_reducible refine Answers.ite ?_ ?_
    | with_reducible first | refine State.reach_only (hm := Only.sub (by decide) hm) (hk := ?_) .. | refine State.setDisc_only (hm := Only.sub (by decide) hm) (hk := ?_) .. | refine State.discEvent_only (hm := Only.sub (by decide) hm) (hk := ?_) ..
    | dsimp only)

theorem execReidentify_only {M : Nat} {s₀ : State} (n : Nat) (s : State) (hm : 670664342 &&& M = 670664342)
    (hk : Only M s₀ s) : Answers (execReidentify n s) (Only M s₀) := by
  unfold execReidentify
  repeat' (first
    | with_reducible assumption
    | with_reducible refine Answers.next ?_
    | with_reducible refine Answers.ite ?_ ?_
    | with_reducible refine State.reidentify_only (hm := Only.sub (by decide) hm) (hk := ?_) ..
    | dsimp only)

theorem execPartnerMissing_only {M : Nat} {s₀ : State} (n : Nat) (s : State) (hm : 637109906 &&& M = 637109906)
    (hk : Only M s₀ s) : Answers (execPartnerMissing n s) (Only M s₀) := by
  unfold execPartnerMissing
  repeat' (first
    | with_reducible assumption
    | with_reducible refine Answers.next ?_
    | with_reducible refine Answers.ite ?_ ?_
    | with_reducible first | refine State.modDisc_only (hm := Only.sub (by decide) hm) (hk := ?_) .. | refine State.reach_only (hm := Only.sub (by decide) hm) (hk := ?_) .. | refine State.log_only (hm := Only.sub (by decide) hm) (hk := ?_) .. | refine State.sliceLinkLost_only (hm := Only.sub (by decide) hm) (hk := ?_) ..
    | split
    | dsimp only)

theorem State.notice_only {M : Nat} {s₀ : State} (s : State) (b : List Byte) (hm : 2113636242 &&& M = 2113636242)
    (hk : Only M s₀ s) : Only M s₀ (State.notice s b) := by
  unfold State.notice
  repeat' (first
    | with_reducible assumption
    | with_reducible first | refine State.modSlice_only (hm := Only.sub (by decide) hm) (hk := ?_) .. | refine State.badPacket_only (hm := Only.sub (by decide) hm) (hk := ?_) .. | refine State.sendNotice_only (hm := Only.sub (by decide) hm) (hk := ?_) .. | refine State.degrade_only (hm := Only.sub (by decide) hm) (hk := ?_) .. | refine State.sliceReset_only (hm := Only.sub (by decide) hm) (hk := ?_) ..
    | with_reducible refine Only.ite ?_ ?_
    | split
    | dsimp only)

theorem execSliceNotice_only {M : Nat} {s₀ : State} (n : Nat) (p : Packet) (s : State) (hm : 2113636242 &&& M = 2113636242)
    (hk : Only M s₀ s) : Answers (execSliceNotice n p s) (Only M s₀) := by
  unfold execSliceNotice
  repeat' (first
    | with_reducible assumption
    | with_reducible refine Answers.next ?_
    | with_reducible refine Answers.ite ?_ ?_
    | with_reducible first | refine State.consumed_only (hm := Only.sub (by decide) hm) (hk := ?_) .. | refine State.notice_only (hm := Only.sub (by decide) hm) (hk := ?_) ..
    | dsimp only)

theorem execRouteStall_only {M : Nat} {s₀ : State} (n ch vc : Nat) (s : State) (hm : 536872592 &&& M = 536872592)
    (hk : Only M s₀ s) : Answers (execRouteStall n ch vc s) (Only M s₀) := by
  unfold execRouteStall
  repeat' (first
    | with_reducible assumption
    | with_reducible refine Answers.next ?_
    | with_reducible refine Answers.ite ?_ ?_
    | with_reducible refine State.logLimited_only (hm := Only.sub (by decide) hm) (hk := ?_) ..
    | split
    | dsimp only)

theorem State.undone_only {M : Nat} {s₀ : State} (s : State) (p : Packet) (x : Sent) (hm : 637109906 &&& M = 637109906)
    (hk : Only M s₀ s) : Only M s₀ (State.undone s p x) := by
  unfold State.undone
  repeat' (first
    | with_reducible assumption
    | with_reducible first | refine State.modRtr_only (hm := Only.sub (by decide) hm) (hk := ?_) .. | refine State.toRequester_only (hm := Only.sub (by decide) hm) (hk := ?_) .. | refine State.complete_only (hm := Only.sub (by decide) hm) (hk := ?_) .. | refine State.dmaEnd_only (hm := Only.sub (by decide) hm) (hk := ?_) .. | refine State.stmtFail_only (hm := Only.sub (by decide) hm) (hk := ?_) .. | refine State.entryEnd_only (hm := Only.sub (by decide) hm) (hk := ?_) .. | refine State.readFailed_only (hm := Only.sub (by decide) hm) (hk := ?_) ..
    | with_reducible refine Only.ite ?_ ?_
    | split)

theorem State.releaseOne_only {M : Nat} {s₀ : State} (s : State) (w : Waiting) (hm : 637109906 &&& M = 637109906)
    (hk : Only M s₀ s) : Only M s₀ (State.releaseOne s w) := by
  unfold State.releaseOne
  repeat' (first
    | with_reducible assumption
    | with_reducible first | refine State.launch_only (hm := Only.sub (by decide) hm) (hk := ?_) .. | refine State.streamLaunch_only (hm := Only.sub (by decide) hm) (hk := ?_) .. | refine State.undone_only (hm := Only.sub (by decide) hm) (hk := ?_) ..
    | with_reducible refine Only.ite ?_ ?_
    | with_reducible refine Only.pair (by assumption) ?_
    | split
    | dsimp only)

theorem State.releaseDrain_only {M : Nat} {s₀ : State} (s : State) (hm : 637109906 &&& M = 637109906)
    (hk : Only M s₀ s) : Only M s₀ (State.releaseDrain s) := by
  unfold State.releaseDrain
  repeat' (first
    | with_reducible assumption
    | with_reducible first | refine State.modRtr_only (hm := Only.sub (by decide) hm) (hk := ?_) .. | refine State.releaseOne_only (hm := Only.sub (by decide) hm) (hk := ?_) ..
    | with_reducible refine Only.foldl (fun _ _ _ => ?_) ?_
    | split)

theorem State.setDrain_only {M : Nat} {s₀ : State} (s : State) (v : Bool) (hm : 637109906 &&& M = 637109906)
    (hk : Only M s₀ s) : Only M s₀ (State.setDrain s v) := by
  unfold State.setDrain
  repeat' (first
    | with_reducible assumption
    | with_reducible first | refine State.modRtr_only (hm := Only.sub (by decide) hm) (hk := ?_) .. | refine State.dmasDone_only (hm := Only.sub (by decide) hm) (hk := ?_) .. | refine State.releaseDrain_only (hm := Only.sub (by decide) hm) (hk := ?_) ..
    | with_reducible refine Only.ite ?_ ?_
    | split)

theorem execDrain_only {M : Nat} {s₀ : State} (v : Bool) (s : State) (hm : 637109906 &&& M = 637109906)
    (hk : Only M s₀ s) : Answers (execDrain v s) (Only M s₀) := by
  unfold execDrain
  repeat' (first
    | with_reducible assumption
    | with_reducible refine Answers.next ?_
    | with_reducible refine State.setDrain_only (hm := Only.sub (by decide) hm) (hk := ?_) ..
    | dsimp only)

theorem State.writeDetour_only {M : Nat} {s₀ : State} (s : State) (t e v : Nat) (hm : 603981456 &&& M = 603981456)
    (hk : Only M s₀ s) : Only M s₀ (State.writeDetour s t e v) := by
  unfold State.writeDetour
  repeat' (first
    | with_reducible assumption
    | with_reducible first | refine State.modRtr_only (hm := Only.sub (by decide) hm) (hk := ?_) .. | refine State.log_only (hm := Only.sub (by decide) hm) (hk := ?_) ..
    | with_reducible refine Only.ite ?_ ?_
    | split)

theorem execDetourWrite_only {M : Nat} {s₀ : State} (t e v : Nat) (s : State) (hm : 603981456 &&& M = 603981456)
    (hk : Only M s₀ s) : Answers (execDetourWrite t e v s) (Only M s₀) := by
  unfold execDetourWrite
  repeat' (first
    | with_reducible assumption
    | with_reducible refine Answers.next ?_
    | with_reducible refine Answers.ite ?_ ?_
    | with_reducible refine State.writeDetour_only (hm := Only.sub (by decide) hm) (hk := ?_) ..
    | dsimp only)

theorem State.rateRecompute_only {M : Nat} {s₀ : State} (s : State) (hm : 134250496 &&& M = 134250496)
    (hk : Only M s₀ s) : Only M s₀ (State.rateRecompute s) := by
  unfold State.rateRecompute
  repeat' (first
    | with_reducible assumption
    | with_reducible first | refine State.modPurse_only (hm := Only.sub (by decide) hm) (hk := ?_) .. | refine State.modPwr_only (hm := Only.sub (by decide) hm) (hk := ?_) ..
    | with_reducible refine Only.foldl (fun _ _ _ => ?_) ?_
    | split
    | dsimp only)

theorem execPurseRefillTick_only {M : Nat} {s₀ : State} (s : State) (hm : 1838778002 &&& M = 1838778002)
    (hk : Only M s₀ s) : Answers (execPurseRefillTick s) (Only M s₀) := by
  unfold execPurseRefillTick
  repeat' (first
    | with_reducible assumption
    | with_reducible refine Answers.next ?_
    | with_reducible first | refine State.modClusters_only (hm := Only.sub (by decide) hm) (hk := ?_) .. | refine State.modPwr_only (hm := Only.sub (by decide) hm) (hk := ?_) .. | refine State.reach_only (hm := Only.sub (by decide) hm) (hk := ?_) .. | refine State.retryStart_only (hm := Only.sub (by decide) hm) (hk := ?_) .. | refine State.rateRecompute_only (hm := Only.sub (by decide) hm) (hk := ?_) ..
    | with_reducible refine Only.ite ?_ ?_
    | with_reducible refine Only.foldl (fun _ _ _ => ?_) ?_
    | split
    | dsimp only)

theorem execRateRecompute_only {M : Nat} {s₀ : State} (s : State) (hm : 134250496 &&& M = 134250496)
    (hk : Only M s₀ s) : Answers (execRateRecompute s) (Only M s₀) := by
  unfold execRateRecompute
  repeat' (first
    | with_reducible assumption
    | with_reducible refine Answers.next ?_
    | with_reducible refine Answers.ite ?_ ?_
    | with_reducible refine State.rateRecompute_only (hm := Only.sub (by decide) hm) (hk := ?_) ..
    | split
    | dsimp only)

theorem State.thermStep_only {M : Nat} {s₀ : State} (s : State) (tmax : Int) (hm : 671090320 &&& M = 671090320)
    (hk : Only M s₀ s) : Only M s₀ (State.thermStep s tmax) := by
  unfold State.thermStep
  repeat' (first
    | with_reducible assumption
    | with_reducible first | refine State.modPwr_only (hm := Only.sub (by decide) hm) (hk := ?_) .. | refine State.log_only (hm := Only.sub (by decide) hm) (hk := ?_) ..
    | with_reducible refine Only.ite ?_ ?_
    | split
    | dsimp only)

theorem State.trip_only {M : Nat} {s₀ : State} (s : State) (sensor : Nat) (hm : 805029526 &&& M = 805029526)
    (hk : Only M s₀ s) : Only M s₀ (State.trip s sensor) := by
  unfold State.trip
  repeat' (first
    | with_reducible assumption
    | with_reducible first | refine State.modPwr_only (hm := Only.sub (by decide) hm) (hk := ?_) .. | refine State.total_only (hm := Only.sub (by decide) hm) (hk := ?_) .. | refine State.detect_only (hm := Only.sub (by decide) hm) (hk := ?_) .. | refine State.enterFatal_only (hm := Only.sub (by decide) hm) (hk := ?_) ..
    | split
    | dsimp only)

theorem execThermalSample_only {M : Nat} {s₀ : State} (ts : List Int) (s : State) (hm : 1878771350 &&& M = 1878771350)
    (hk : Only M s₀ s) : Answers (execThermalSample ts s) (Only M s₀) := by
  unfold execThermalSample
  repeat' (first
    | with_reducible assumption
    | with_reducible refine Answers.next ?_
    | with_reducible refine Answers.ite ?_ ?_
    | with_reducible first | refine State.modPwr_only (hm := Only.sub (by decide) hm) (hk := ?_) .. | refine State.thermStep_only (hm := Only.sub (by decide) hm) (hk := ?_) .. | refine State.trip_only (hm := Only.sub (by decide) hm) (hk := ?_) ..
    | split
    | with_reducible refine Only.set_tel (hm := Only.sub (by decide) hm) (h := ?_) ..
    | dsimp only)

theorem State.paceFinal_only {M : Nat} {s₀ : State} (s : State) (q round demand : Nat) (hm : 754976400 &&& M = 754976400)
    (hk : Only M s₀ s) : Only M s₀ (State.paceFinal s q round demand) := by
  unfold State.paceFinal
  repeat' (first
    | with_reducible assumption
    | with_reducible first | refine State.modPwr_only (hm := Only.sub (by decide) hm) (hk := ?_) .. | refine State.streamSend_only (hm := Only.sub (by decide) hm) (hk := ?_) ..
    | with_reducible refine Only.foldl (fun _ _ _ => ?_) ?_
    | split
    | dsimp only)

theorem State.paceAdvance_only {M : Nat} {s₀ : State} (s : State) (hm : 754976400 &&& M = 754976400)
    (hk : Only M s₀ s) : Only M s₀ (State.paceAdvance s) := by
  unfold State.paceAdvance
  repeat' (first
    | with_reducible assumption
    | with_reducible first | refine State.modPwr_only (hm := Only.sub (by decide) hm) (hk := ?_) .. | refine State.streamSend_only (hm := Only.sub (by decide) hm) (hk := ?_) .. | refine State.paceFinal_only (hm := Only.sub (by decide) hm) (hk := ?_) ..
    | split
    | dsimp only)

theorem State.roundMissed_only {M : Nat} {s₀ : State} (s : State) (hm : 1744832144 &&& M = 1744832144)
    (hk : Only M s₀ s) : Only M s₀ (State.roundMissed s) := by
  unfold State.roundMissed
  repeat' (first
    | with_reducible assumption
    | with_reducible first | refine State.modPwr_only (hm := Only.sub (by decide) hm) (hk := ?_) .. | refine State.span_only (hm := Only.sub (by decide) hm) (hk := ?_) .. | refine State.logLimited_only (hm := Only.sub (by decide) hm) (hk := ?_) ..
    | with_reducible refine Only.ite ?_ ?_
    | split)

theorem execPaceRound_only {M : Nat} {s₀ : State} (s : State) (hm : 1828750992 &&& M = 1828750992)
    (hk : Only M s₀ s) : Answers (execPaceRound s) (Only M s₀) := by
  unfold execPaceRound
  repeat' (first
    | with_reducible assumption
    | with_reducible refine Answers.next ?_
    | with_reducible refine Answers.ite ?_ ?_
    | with_reducible first | refine State.modClusters_only (hm := Only.sub (by decide) hm) (hk := ?_) .. | refine State.modPwr_only (hm := Only.sub (by decide) hm) (hk := ?_) .. | refine State.paceAdvance_only (hm := Only.sub (by decide) hm) (hk := ?_) .. | refine State.roundMissed_only (hm := Only.sub (by decide) hm) (hk := ?_) ..
    | split
    | dsimp only)

theorem execPaceCombine_only {M : Nat} {s₀ : State} (p : Packet) (s : State) (hm : 754976400 &&& M = 754976400)
    (hk : Only M s₀ s) : Answers (execPaceCombine p s) (Only M s₀) := by
  unfold execPaceCombine
  repeat' (first
    | with_reducible assumption
    | with_reducible refine Answers.next ?_
    | with_reducible refine Answers.ite ?_ ?_
    | with_reducible first | refine State.modPwr_only (hm := Only.sub (by decide) hm) (hk := ?_) .. | refine State.consumed_only (hm := Only.sub (by decide) hm) (hk := ?_) .. | refine State.badPacket_only (hm := Only.sub (by decide) hm) (hk := ?_) .. | refine State.paceAdvance_only (hm := Only.sub (by decide) hm) (hk := ?_) ..
    | split
    | dsimp only)

theorem execPaceBroadcast_only {M : Nat} {s₀ : State} (p : Packet) (s : State) (hm : 754976400 &&& M = 754976400)
    (hk : Only M s₀ s) : Answers (execPaceBroadcast p s) (Only M s₀) := by
  unfold execPaceBroadcast
  repeat' (first
    | with_reducible assumption
    | with_reducible refine Answers.next ?_
    | with_reducible refine Answers.ite ?_ ?_
    | with_reducible first | refine State.consumed_only (hm := Only.sub (by decide) hm) (hk := ?_) .. | refine State.badPacket_only (hm := Only.sub (by decide) hm) (hk := ?_) .. | refine State.paceFinal_only (hm := Only.sub (by decide) hm) (hk := ?_) ..
    | dsimp only)

theorem execPowerBrake_only {M : Nat} {s₀ : State} (s : State) (hm : 671123088 &&& M = 671123088)
    (hk : Only M s₀ s) : Answers (execPowerBrake s) (Only M s₀) := by
  unfold execPowerBrake
  repeat' (first
    | with_reducible assumption
    | with_reducible refine Answers.next ?_
    | with_reducible refine Answers.ite ?_ ?_
    | with_reducible first | refine State.modClusters_only (hm := Only.sub (by decide) hm) (hk := ?_) .. | refine State.modPwr_only (hm := Only.sub (by decide) hm) (hk := ?_) .. | refine State.total_only (hm := Only.sub (by decide) hm) (hk := ?_) .. | refine State.log_only (hm := Only.sub (by decide) hm) (hk := ?_) ..
    | split
    | dsimp only)

theorem execPowerBrakeRelease_only {M : Nat} {s₀ : State} (s : State) (hm : 134217728 &&& M = 134217728)
    (hk : Only M s₀ s) : Answers (execPowerBrakeRelease s) (Only M s₀) := by
  unfold execPowerBrakeRelease
  repeat' (first
    | with_reducible assumption
    | with_reducible refine Answers.next ?_
    | with_reducible refine State.modPwr_only (hm := Only.sub (by decide) hm) (hk := ?_) ..
    | split
    | dsimp only)

theorem execClockGate_only {M : Nat} {s₀ : State} (c : Nat) (s : State) (hm : 536903682 &&& M = 536903682)
    (hk : Only M s₀ s) : Answers (execClockGate c s) (Only M s₀) := by
  unfold execClockGate
  repeat' (first
    | with_reducible assumption
    | with_reducible refine Answers.next ?_
    | with_reducible refine Answers.ite ?_ ?_
    | with_reducible first | refine State.modClock_only (hm := Only.sub (by decide) hm) (hk := ?_) .. | refine State.reach_only (hm := Only.sub (by decide) hm) (hk := ?_) ..
    | split
    | dsimp only)

theorem execPowerGate_only {M : Nat} {s₀ : State} (c : Nat) (s : State) (hm : 536903682 &&& M = 536903682)
    (hk : Only M s₀ s) : Answers (execPowerGate c s) (Only M s₀) := by
  unfold execPowerGate
  repeat' (first
    | with_reducible assumption
    | with_reducible refine Answers.next ?_
    | with_reducible refine Answers.ite ?_ ?_
    | with_reducible first | refine State.modClock_only (hm := Only.sub (by decide) hm) (hk := ?_) .. | refine State.reach_only (hm := Only.sub (by decide) hm) (hk := ?_) ..
    | split
    | dsimp only)

theorem execClusterWake_only {M : Nat} {s₀ : State} (c : Nat) (s : State) (hm : 536903682 &&& M = 536903682)
    (hk : Only M s₀ s) : Answers (execClusterWake c s) (Only M s₀) := by
  unfold execClusterWake
  repeat' (first
    | with_reducible assumption
    | with_reducible refine Answers.next ?_
    | with_reducible refine Answers.ite ?_ ?_
    | with_reducible refine State.wake_only (hm := Only.sub (by decide) hm) (hk := ?_) ..
    | dsimp only)

theorem State.setHoldRun_only {M : Nat} {s₀ : State} (s : State) (c : Nat) (v : Bool) (hm : 536903682 &&& M = 536903682)
    (hk : Only M s₀ s) : Only M s₀ (State.setHoldRun s c v) := by
  unfold State.setHoldRun
  repeat' (first
    | with_reducible assumption
    | with_reducible first | refine State.modClock_only (hm := Only.sub (by decide) hm) (hk := ?_) .. | refine State.using_only (hm := Only.sub (by decide) hm) (hk := ?_) .. | refine State.wake_only (hm := Only.sub (by decide) hm) (hk := ?_) ..
    | with_reducible refine Only.ite ?_ ?_
    | split
    | dsimp only)

theorem execHoldRun_only {M : Nat} {s₀ : State} (c : Nat) (v : Bool) (s : State) (hm : 536903682 &&& M = 536903682)
    (hk : Only M s₀ s) : Answers (execHoldRun c v s) (Only M s₀) := by
  unfold execHoldRun
  repeat' (first
    | with_reducible assumption
    | with_reducible refine Answers.next ?_
    | with_reducible refine Answers.ite ?_ ?_
    | with_reducible refine State.setHoldRun_only (hm := Only.sub (by decide) hm) (hk := ?_) ..
    | dsimp only)

theorem execDeepIdleEntry_only {M : Nat} {s₀ : State} (s : State) (hm : 672137218 &&& M = 672137218)
    (hk : Only M s₀ s) : Answers (execDeepIdleEntry s) (Only M s₀) := by
  unfold execDeepIdleEntry
  repeat' (first
    | with_reducible assumption
    | with_reducible refine Answers.next ?_
    | with_reducible refine Answers.ite ?_ ?_
    | with_reducible first | refine State.modPwr_only (hm := Only.sub (by decide) hm) (hk := ?_) .. | refine State.reach_only (hm := Only.sub (by decide) hm) (hk := ?_) ..
    | split
    | with_reducible refine Only.set_dram (hm := Only.sub (by decide) hm) (h := ?_) ..
    | dsimp only)

theorem execDeepIdleExit_only {M : Nat} {s₀ : State} (s : State) (hm : 672137218 &&& M = 672137218)
    (hk : Only M s₀ s) : Answers (execDeepIdleExit s) (Only M s₀) := by
  unfold execDeepIdleExit
  repeat' (first
    | with_reducible assumption
    | with_reducible refine Answers.next ?_
    | with_reducible refine State.deepExit_only (hm := Only.sub (by decide) hm) (hk := ?_) ..
    | dsimp only)

theorem execAvsUpdate_only {M : Nat} {s₀ : State} (c : Nat) (up : Option Bool) (margin : Nat) (ok : Bool) (s : State) (hm : 1610647184 &&& M = 1610647184)
    (hk : Only M s₀ s) : Answers (execAvsUpdate c up margin ok s) (Only M s₀) := by
  unfold execAvsUpdate
  repeat' (first
    | with_reducible assumption
    | with_reducible refine Answers.next ?_
    | with_reducible refine Answers.ite ?_ ?_
    | with_reducible first | refine State.modClock_only (hm := Only.sub (by decide) hm) (hk := ?_) .. | refine State.emit_only (hm := Only.sub (by decide) hm) (hk := ?_) .. | refine State.spanMin_only (hm := Only.sub (by decide) hm) (hk := ?_) .. | refine State.log_only (hm := Only.sub (by decide) hm) (hk := ?_) ..
    | split
    | dsimp only)

theorem execDroopDetect_only {M : Nat} {s₀ : State} (c : Nat) (s : State) (hm : 1073774592 &&& M = 1073774592)
    (hk : Only M s₀ s) : Answers (execDroopDetect c s) (Only M s₀) := by
  unfold execDroopDetect
  repeat' (first
    | with_reducible assumption
    | with_reducible refine Answers.next ?_
    | with_reducible refine Answers.ite ?_ ?_
    | with_reducible first | refine State.modClock_only (hm := Only.sub (by decide) hm) (hk := ?_) .. | refine State.span_only (hm := Only.sub (by decide) hm) (hk := ?_) ..
    | split
    | dsimp only)

theorem State.railRead_only {M : Nat} {s₀ : State} (s : State) (x : Nat × Option (Nat × Nat)) (hm : 1879049872 &&& M = 1879049872)
    (hk : Only M s₀ s) : Only M s₀ (State.railRead s x) := by
  unfold State.railRead
  repeat' (first
    | with_reducible assumption
    | with_reducible first | refine State.span_only (hm := Only.sub (by decide) hm) (hk := ?_) .. | refine State.spanMin_only (hm := Only.sub (by decide) hm) (hk := ?_) .. | refine State.log_only (hm := Only.sub (by decide) hm) (hk := ?_) ..
    | with_reducible refine Only.ite ?_ ?_
    | split
    | with_reducible refine Only.set_rails (hm := Only.sub (by decide) hm) (h := ?_) ..
    | dsimp only)

theorem State.dayMilli_only {M : Nat} {s₀ : State} (s : State) (c : Nat) (hm : 1073741824 &&& M = 1073741824)
    (hk : Only M s₀ s) : Only M s₀ (State.dayMilli s c) := by
  unfold State.dayMilli
  repeat' (first
    | with_reducible assumption
    | with_reducible refine State.day_only (hm := Only.sub (by decide) hm) (hk := ?_) ..
    | dsimp only)

theorem State.daySample_only {M : Nat} {s₀ : State} (s : State) (mw : Nat) (hm : 1073741824 &&& M = 1073741824)
    (hk : Only M s₀ s) : Only M s₀ (State.daySample s mw) := by
  unfold State.daySample
  repeat' (first
    | with_reducible assumption
    | with_reducible first | refine State.day_only (hm := Only.sub (by decide) hm) (hk := ?_) .. | refine State.dayMilli_only (hm := Only.sub (by decide) hm) (hk := ?_) ..
    | with_reducible refine Only.foldl (fun _ _ _ => ?_) ?_
    | with_reducible refine Only.set_tel (hm := Only.sub (by decide) hm) (h := ?_) ..
    | dsimp only)

theorem State.railReads_only {M : Nat} {s₀ : State} (s : State) (xs : List (Nat × Option (Nat × Nat))) (hm : 1879049872 &&& M = 1879049872)
    (hk : Only M s₀ s) : Only M s₀ (State.railReads s xs) := by
  unfold State.railReads
  repeat' (first
    | with_reducible assumption
    | with_reducible refine State.railRead_only (hm := Only.sub (by decide) hm) (hk := ?_) ..
    | with_reducible refine Only.foldl (fun _ _ _ => ?_) ?_
    | split)

theorem State.powerRead_only {M : Nat} {s₀ : State} (s : State) (hm : 1744830464 &&& M = 1744830464)
    (hk : Only M s₀ s) : Only M s₀ (State.powerRead s) := by
  unfold State.powerRead
  repeat' (first
    | with_reducible assumption
    | with_reducible first | refine State.modPwr_only (hm := Only.sub (by decide) hm) (hk := ?_) .. | refine State.span_only (hm := Only.sub (by decide) hm) (hk := ?_) .. | refine State.total_only (hm := Only.sub (by decide) hm) (hk := ?_) .. | refine State.daySample_only (hm := Only.sub (by decide) hm) (hk := ?_) ..
    | split
    | dsimp only)

theorem execRegulatorRead_only {M : Nat} {s₀ : State} (xs : List (Nat × Option (Nat × Nat))) (s : State) (hm : 2013267600 &&& M = 2013267600)
    (hk : Only M s₀ s) : Answers (execRegulatorRead xs s) (Only M s₀) := by
  unfold execRegulatorRead
  repeat' (first
    | with_reducible assumption
    | with_reducible refine Answers.next ?_
    | with_reducible first | refine State.railReads_only (hm := Only.sub (by decide) hm) (hk := ?_) .. | refine State.powerRead_only (hm := Only.sub (by decide) hm) (hk := ?_) ..
    | dsimp only)

theorem execRailUndervoltage_only {M : Nat} {s₀ : State} (r : Nat) (s : State) (hm : 1879082640 &&& M = 1879082640)
    (hk : Only M s₀ s) : Answers (execRailUndervoltage r s) (Only M s₀) := by
  unfold execRailUndervoltage
  repeat' (first
    | with_reducible assumption
    | with_reducible refine Answers.next ?_
    | with_reducible refine Answers.ite ?_ ?_
    | with_reducible first | refine State.modClock_only (hm := Only.sub (by decide) hm) (hk := ?_) .. | refine State.span_only (hm := Only.sub (by decide) hm) (hk := ?_) .. | refine State.detect_only (hm := Only.sub (by decide) hm) (hk := ?_) ..
    | split
    | with_reducible refine Only.set_rails (hm := Only.sub (by decide) hm) (h := ?_) ..
    | dsimp only)

theorem execRailRecovery_only {M : Nat} {s₀ : State} (r : Nat) (s : State) (hm : 268468736 &&& M = 268468736)
    (hk : Only M s₀ s) : Answers (execRailRecovery r s) (Only M s₀) := by
  unfold execRailRecovery
  repeat' (first
    | with_reducible assumption
    | with_reducible refine Answers.next ?_
    | with_reducible refine Answers.ite ?_ ?_
    | with_reducible first | refine State.modClock_only (hm := Only.sub (by decide) hm) (hk := ?_) .. | refine State.closeWindow_only (hm := Only.sub (by decide) hm) (hk := ?_) ..
    | split
    | with_reducible refine Only.set_rails (hm := Only.sub (by decide) hm) (h := ?_) ..
    | dsimp only)

theorem State.clusterOff_only {M : Nat} {s₀ : State} (s : State) (c : Nat) (hm : 1032029840 &&& M = 1032029840)
    (hk : Only M s₀ s) : Only M s₀ (State.clusterOff s c) := by
  unfold State.clusterOff
  repeat' (first
    | with_reducible assumption
    | with_reducible first | refine State.modClock_only (hm := Only.sub (by decide) hm) (hk := ?_) .. | refine State.modUnit_only (hm := Only.sub (by decide) hm) (hk := ?_) .. | refine State.fencesDone_only (hm := Only.sub (by decide) hm) (hk := ?_) .. | refine State.haltSeq_only (hm := Only.sub (by decide) hm) (hk := ?_) .. | refine State.clearCores_only (hm := Only.sub (by decide) hm) (hk := ?_) ..
    | split
    | with_reducible refine Only.set_rails (hm := Only.sub (by decide) hm) (h := ?_) ..
    | dsimp only)

theorem execRailFault_only {M : Nat} {s₀ : State} (r : Nat) (report : Bool) (s : State) (hm : 1073464982 &&& M = 1073464982)
    (hk : Only M s₀ s) : Answers (execRailFault r report s) (Only M s₀) := by
  unfold execRailFault
  repeat' (first
    | with_reducible assumption
    | with_reducible refine Answers.next ?_
    | with_reducible refine Answers.ite ?_ ?_
    | with_reducible first | refine State.detect_only (hm := Only.sub (by decide) hm) (hk := ?_) .. | refine State.closeWindow_only (hm := Only.sub (by decide) hm) (hk := ?_) .. | refine State.enterFatal_only (hm := Only.sub (by decide) hm) (hk := ?_) .. | refine State.clusterOff_only (hm := Only.sub (by decide) hm) (hk := ?_) ..
    | with_reducible refine Only.ite ?_ ?_
    | with_reducible refine Only.set_rails (hm := Only.sub (by decide) hm) (h := ?_) ..
    | dsimp only)

theorem State.cdcEnds_only {M : Nat} {s₀ : State} (s : State) (d : Desc) (hm : 763463312 &&& M = 763463312)
    (hk : Only M s₀ s) : Only M s₀ (State.cdcEnds s d) := by
  unfold State.cdcEnds
  repeat' (first
    | with_reducible assumption
    | with_reducible first | refine State.complete_only (hm := Only.sub (by decide) hm) (hk := ?_) .. | refine State.forgetDesc_only (hm := Only.sub (by decide) hm) (hk := ?_) .. | refine State.haltSeq_only (hm := Only.sub (by decide) hm) (hk := ?_) ..
    | with_reducible refine Only.ite ?_ ?_
    | with_reducible refine Only.foldl (fun _ _ _ => ?_) ?_
    | split
    | dsimp only)

theorem execCdcTimeout_only {M : Nat} {s₀ : State} (domain addr : Nat) (cmd : Option Desc) (s : State) (hm : 2105640594 &&& M = 2105640594)
    (hk : Only M s₀ s) : Answers (execCdcTimeout domain addr cmd s) (Only M s₀) := by
  unfold execCdcTimeout
  repeat' (first
    | with_reducible assumption
    | with_reducible refine Answers.next ?_
    | with_reducible first | refine State.reach_only (hm := Only.sub (by decide) hm) (hk := ?_) .. | refine State.cdcTimeout_only (hm := Only.sub (by decide) hm) (hk := ?_) .. | refine State.crossed_only (hm := Only.sub (by decide) hm) (hk := ?_) .. | refine State.cdcEnds_only (hm := Only.sub (by decide) hm) (hk := ?_) ..
    | split
    | with_reducible refine Only.set_rails (hm := Only.sub (by decide) hm) (h := ?_) ..
    | dsimp only)

theorem State.compareUnit_only {M : Nat} {s₀ : State} (s : State) (u : UnitName) (hm : 537003664 &&& M = 537003664)
    (hk : Only M s₀ s) : Only M s₀ (State.compareUnit s u) := by
  unfold State.compareUnit
  repeat' (first
    | with_reducible assumption
    | with_reducible first | refine State.modUnit_only (hm := Only.sub (by decide) hm) (hk := ?_) .. | refine State.log_only (hm := Only.sub (by decide) hm) (hk := ?_) ..
    | with_reducible refine Only.ite ?_ ?_
    | split)

theorem execStateCompare_only {M : Nat} {s₀ : State} (s : State) (hm : 537003664 &&& M = 537003664)
    (hk : Only M s₀ s) : Answers (execStateCompare s) (Only M s₀) := by
  unfold execStateCompare
  repeat' (first
    | with_reducible assumption
    | with_reducible refine Answers.next ?_
    | with_reducible refine State.compareUnit_only (hm := Only.sub (by decide) hm) (hk := ?_) ..
    | with_reducible refine Only.foldl (fun _ _ _ => ?_) ?_
    | dsimp only)

theorem execCoreWatchdog_only {M : Nat} {s₀ : State} (p : Nat) (s : State) (hm : 1838909328 &&& M = 1838909328)
    (hk : Only M s₀ s) : Answers (execCoreWatchdog p s) (Only M s₀) := by
  unfold execCoreWatchdog
  repeat' (first
    | with_reducible assumption
    | with_reducible refine Answers.next ?_
    | with_reducible refine Answers.ite ?_ ?_
    | with_reducible first | refine State.detect_only (hm := Only.sub (by decide) hm) (hk := ?_) .. | refine State.closeWindow_only (hm := Only.sub (by decide) hm) (hk := ?_) .. | refine State.contain_only (hm := Only.sub (by decide) hm) (hk := ?_) .. | refine State.coreReset_only (hm := Only.sub (by decide) hm) (hk := ?_) ..
    | dsimp only)

theorem execSeqWatchdog_only {M : Nat} {s₀ : State} (c : Nat) (s : State) (hm : 2105771922 &&& M = 2105771922)
    (hk : Only M s₀ s) : Answers (execSeqWatchdog c s) (Only M s₀) := by
  unfold execSeqWatchdog
  repeat' (first
    | with_reducible assumption
    | with_reducible refine Answers.next ?_
    | with_reducible refine Answers.ite ?_ ?_
    | with_reducible first | refine State.detect_only (hm := Only.sub (by decide) hm) (hk := ?_) .. | refine State.closeWindow_only (hm := Only.sub (by decide) hm) (hk := ?_) .. | refine State.contain_only (hm := Only.sub (by decide) hm) (hk := ?_) .. | refine State.clusterReset_only (hm := Only.sub (by decide) hm) (hk := ?_) ..
    | dsimp only)

theorem execBucelRestart_only {M : Nat} {s₀ : State} (s : State) (hm : 536872592 &&& M = 536872592)
    (hk : Only M s₀ s) : Answers (execBucelRestart s) (Only M s₀) := by
  unfold execBucelRestart
  repeat' (first
    | with_reducible assumption
    | with_reducible refine Answers.next ?_
    | with_reducible first | refine State.modMgmt_only (hm := Only.sub (by decide) hm) (hk := ?_) .. | refine State.detect_only (hm := Only.sub (by decide) hm) (hk := ?_) ..
    | split
    | dsimp only)

theorem execBucelRestartComplete_only {M : Nat} {s₀ : State} (s : State) (hm : 536872592 &&& M = 536872592)
    (hk : Only M s₀ s) : Answers (execBucelRestartComplete s) (Only M s₀) := by
  unfold execBucelRestartComplete
  repeat' (first
    | with_reducible assumption
    | with_reducible refine Answers.next ?_
    | with_reducible refine Answers.ite ?_ ?_
    | with_reducible first | refine State.modMgmt_only (hm := Only.sub (by decide) hm) (hk := ?_) .. | refine State.ledgerAppend_only (hm := Only.sub (by decide) hm) (hk := ?_) ..
    | with_reducible refine Only.foldl (fun _ _ _ => ?_) ?_
    | split
    | with_reducible refine Only.set_ledger (hm := Only.sub (by decide) hm) (h := ?_) ..
    | dsimp only)

theorem State.endRights_only {M : Nat} {s₀ : State} (s : State) (hm : 2684356240 &&& M = 2684356240)
    (hk : Only M s₀ s) : Only M s₀ (State.endRights s) := by
  unfold State.endRights
  repeat' (first
    | with_reducible assumption
    | with_reducible first | refine State.modSec_only (hm := Only.sub (by decide) hm) (hk := ?_) .. | refine State.leaveMaintenance_only (hm := Only.sub (by decide) hm) (hk := ?_) ..
    | split)

theorem execSecurityAlarm_only {M : Nat} {s₀ : State} (sensor : Nat) (s : State) (hm : 2818295446 &&& M = 2818295446)
    (hk : Only M s₀ s) : Answers (execSecurityAlarm sensor s) (Only M s₀) := by
  unfold execSecurityAlarm
  repeat' (first
    | with_reducible assumption
    | with_reducible refine Answers.next ?_
    | with_reducible first | refine State.modSec_only (hm := Only.sub (by decide) hm) (hk := ?_) .. | refine State.detect_only (hm := Only.sub (by decide) hm) (hk := ?_) .. | refine State.enterFatal_only (hm := Only.sub (by decide) hm) (hk := ?_) .. | refine State.endRights_only (hm := Only.sub (by decide) hm) (hk := ?_) ..
    | split
    | dsimp only)

theorem State.injectDenied_only {M : Nat} {s₀ : State} (s : State) (hm : 536872592 &&& M = 536872592)
    (hk : Only M s₀ s) : Only M s₀ (State.injectDenied s) := by
  unfold State.injectDenied
  repeat' (first
    | with_reducible assumption
    | with_reducible refine State.logLimited_only (hm := Only.sub (by decide) hm) (hk := ?_) ..)

theorem State.writeInjCtrl_only {M : Nat} {s₀ : State} (s : State) (v : Nat) (hm : 536872592 &&& M = 536872592)
    (hk : Only M s₀ s) : Only M s₀ (State.writeInjCtrl s v) := by
  unfold State.writeInjCtrl
  repeat' (first
    | with_reducible assumption
    | with_reducible first | refine State.modErr_only (hm := Only.sub (by decide) hm) (hk := ?_) .. | refine State.injectDenied_only (hm := Only.sub (by decide) hm) (hk := ?_) ..
    | with_reducible refine Only.ite ?_ ?_
    | split)

theorem State.writeInjAddr_only {M : Nat} {s₀ : State} (s : State) (v : W64) (hm : 536872592 &&& M = 536872592)
    (hk : Only M s₀ s) : Only M s₀ (State.writeInjAddr s v) := by
  unfold State.writeInjAddr
  repeat' (first
    | with_reducible assumption
    | with_reducible first | refine State.modErr_only (hm := Only.sub (by decide) hm) (hk := ?_) .. | refine State.injectDenied_only (hm := Only.sub (by decide) hm) (hk := ?_) ..
    | with_reducible refine Only.ite ?_ ?_
    | split)

theorem execInjectArm_only {M : Nat} {s₀ : State} (ctrl : Nat) (addr : W64) (s : State) (hm : 536872592 &&& M = 536872592)
    (hk : Only M s₀ s) : Answers (execInjectArm ctrl addr s) (Only M s₀) := by
  unfold execInjectArm
  repeat' (first
    | with_reducible assumption
    | with_reducible refine Answers.next ?_
    | with_reducible first | refine State.writeInjCtrl_only (hm := Only.sub (by decide) hm) (hk := ?_) .. | refine State.writeInjAddr_only (hm := Only.sub (by decide) hm) (hk := ?_) ..
    | dsimp only)

theorem execHostLinkError_only {M : Nat} {s₀ : State} (corrected : Bool) (s : State) (hm : 1610614416 &&& M = 1610614416)
    (hk : Only M s₀ s) : Answers (execHostLinkError corrected s) (Only M s₀) := by
  unfold execHostLinkError
  repeat' (first
    | with_reducible assumption
    | with_reducible refine Answers.next ?_
    | with_reducible refine Answers.ite ?_ ?_
    | with_reducible first | refine State.span_only (hm := Only.sub (by decide) hm) (hk := ?_) .. | refine State.detect_only (hm := Only.sub (by decide) hm) (hk := ?_) ..
    | dsimp only)

end Sys2Proof.Machine
end

