-- ==== Sys2Proof/Laws/OnlyHost.lean ====
section
/-!
SUPPORT. `Only` of every operation on the state, part: the host interface and its registers, link commands.
-/
set_option autoImplicit false
set_option linter.unusedVariables false
namespace Sys2Proof.Machine

theorem State.modRingOf_only {M : Nat} {s₀ : State} (s : State) (x : RingName) (f : Ring → Ring) (hm : 1024 &&& M = 1024)
    (hk : Only M s₀ s) : Only M s₀ (State.modRingOf s x f) := by
  unfold State.modRingOf
  repeat' (first
    | with_reducible assumption
    | with_reducible first | refine State.modRing_only (hm := Only.sub (by decide) hm) (hk := ?_) .. | refine State.modHost_only (hm := Only.sub (by decide) hm) (hk := ?_) ..
    | split)

theorem State.judgeSq_only {M : Nat} {s₀ : State} (s : State) (n pi : Nat) (hm : 536872592 &&& M = 536872592)
    (hk : Only M s₀ s) : Only M s₀ (State.judgeSq s n pi) := by
  unfold State.judgeSq
  repeat' (first
    | with_reducible assumption
    | with_reducible first | refine State.modRing_only (hm := Only.sub (by decide) hm) (hk := ?_) .. | refine State.log_only (hm := Only.sub (by decide) hm) (hk := ?_) ..
    | with_reducible refine Only.ite ?_ ?_
    | split
    | dsimp only)

theorem State.judgeCq_only {M : Nat} {s₀ : State} (s : State) (x : RingName) (ci : Nat) (hm : 536872592 &&& M = 536872592)
    (hk : Only M s₀ s) : Only M s₀ (State.judgeCq s x ci) := by
  unfold State.judgeCq
  repeat' (first
    | with_reducible assumption
    | with_reducible first | refine State.log_only (hm := Only.sub (by decide) hm) (hk := ?_) .. | refine State.flushHeld_only (hm := Only.sub (by decide) hm) (hk := ?_) .. | refine State.modRingOf_only (hm := Only.sub (by decide) hm) (hk := ?_) ..
    | with_reducible refine Only.ite ?_ ?_
    | split
    | dsimp only)

theorem State.lineRead_only {M : Nat} {s₀ : State} (s : State) (x : RingName) (pi ci : Nat) (hm : 536872592 &&& M = 536872592)
    (hk : Only M s₀ s) : Only M s₀ (State.lineRead s x pi ci) := by
  unfold State.lineRead
  repeat' (first
    | with_reducible assumption
    | with_reducible first | refine State.modRingOf_only (hm := Only.sub (by decide) hm) (hk := ?_) .. | refine State.judgeSq_only (hm := Only.sub (by decide) hm) (hk := ?_) .. | refine State.judgeCq_only (hm := Only.sub (by decide) hm) (hk := ?_) ..
    | split
    | dsimp only)

theorem execDoorbellPoll_only {M : Nat} {s₀ : State} (x : RingName) (pi ci : Nat) (s : State) (hm : 536872592 &&& M = 536872592)
    (hk : Only M s₀ s) : Answers (execDoorbellPoll x pi ci s) (Only M s₀) := by
  unfold execDoorbellPoll
  repeat' (first
    | with_reducible assumption
    | with_reducible refine Answers.next ?_
    | with_reducible refine State.lineRead_only (hm := Only.sub (by decide) hm) (hk := ?_) ..
    | with_reducible refine Only.ite ?_ ?_
    | dsimp only)

theorem execLnMessage_only {M : Nat} {s₀ : State} (x : RingName) (pi ci : Nat) (s : State) (hm : 536872592 &&& M = 536872592)
    (hk : Only M s₀ s) : Answers (execLnMessage x pi ci s) (Only M s₀) := by
  unfold execLnMessage
  repeat' (first
    | with_reducible assumption
    | with_reducible refine Answers.next ?_
    | with_reducible first | refine State.emit_only (hm := Only.sub (by decide) hm) (hk := ?_) .. | refine State.lineRead_only (hm := Only.sub (by decide) hm) (hk := ?_) ..
    | with_reducible refine Only.ite ?_ ?_
    | dsimp only)

theorem execDescriptorFetch_only {M : Nat} {s₀ : State} (n : Nat) (raw : List Byte) (s : State) (hm : 672138242 &&& M = 672138242)
    (hk : Only M s₀ s) : Answers (execDescriptorFetch n raw s) (Only M s₀) := by
  unfold execDescriptorFetch
  repeat' (first
    | with_reducible assumption
    | with_reducible refine Answers.next ?_
    | with_reducible first | refine State.modRing_only (hm := Only.sub (by decide) hm) (hk := ?_) .. | refine State.modHost_only (hm := Only.sub (by decide) hm) (hk := ?_) .. | refine State.deepExit_only (hm := Only.sub (by decide) hm) (hk := ?_) ..
    | with_reducible refine Only.ite ?_ ?_
    | split
    | dsimp only)

theorem State.beginOn_only {M : Nat} {s₀ : State} (s : State) (d : Desc) (c : Nat) (hm : 1610712066 &&& M = 1610712066)
    (hk : Only M s₀ s) : Only M s₀ (State.beginOn s d c) := by
  unfold State.beginOn
  repeat' (first
    | with_reducible assumption
    | with_reducible first | refine State.modSeq_only (hm := Only.sub (by decide) hm) (hk := ?_) .. | refine State.modPurse_only (hm := Only.sub (by decide) hm) (hk := ?_) .. | refine State.modCore_only (hm := Only.sub (by decide) hm) (hk := ?_) .. | refine State.modHost_only (hm := Only.sub (by decide) hm) (hk := ?_) .. | refine State.wake_only (hm := Only.sub (by decide) hm) (hk := ?_) .. | refine State.advance_only (hm := Only.sub (by decide) hm) (hk := ?_) ..
    | with_reducible refine Only.foldl (fun _ _ _ => ?_) ?_
    | split
    | dsimp only)

theorem execDispatch_only {M : Nat} {s₀ : State} (n : Nat) (s : State) (hm : 1731823254 &&& M = 1731823254)
    (hk : Only M s₀ s) : Answers (execDispatch n s) (Only M s₀) := by
  unfold execDispatch
  repeat' (first
    | with_reducible assumption
    | with_reducible refine Answers.next ?_
    | with_reducible refine Answers.ite ?_ ?_
    | with_reducible first | refine State.modRing_only (hm := Only.sub (by decide) hm) (hk := ?_) .. | refine State.modHost_only (hm := Only.sub (by decide) hm) (hk := ?_) .. | refine State.complete_only (hm := Only.sub (by decide) hm) (hk := ?_) .. | refine State.cfgEnds_only (hm := Only.sub (by decide) hm) (hk := ?_) .. | refine State.timeSettles_only (hm := Only.sub (by decide) hm) (hk := ?_) .. | refine State.beginOn_only (hm := Only.sub (by decide) hm) (hk := ?_) ..
    | with_reducible refine Only.foldl (fun _ _ _ => ?_) ?_
    | split
    | dsimp only)

theorem execMsixAgeExpiry_only {M : Nat} {s₀ : State} (v : Nat) (s : State) (hm : 536871954 &&& M = 536871954)
    (hk : Only M s₀ s) : Answers (execMsixAgeExpiry v s) (Only M s₀) := by
  unfold execMsixAgeExpiry
  repeat' (first
    | with_reducible assumption
    | with_reducible refine Answers.next ?_
    | with_reducible first | refine State.reach_only (hm := Only.sub (by decide) hm) (hk := ?_) .. | refine State.fire_only (hm := Only.sub (by decide) hm) (hk := ?_) ..
    | with_reducible refine Only.ite ?_ ?_
    | dsimp only)

theorem State.maskVector_only {M : Nat} {s₀ : State} (s : State) (v : Nat) (m : Bool) (hm : 1040 &&& M = 1040)
    (hk : Only M s₀ s) : Only M s₀ (State.maskVector s v m) := by
  unfold State.maskVector
  repeat' (first
    | with_reducible assumption
    | with_reducible first | refine State.modHost_only (hm := Only.sub (by decide) hm) (hk := ?_) .. | refine State.emit_only (hm := Only.sub (by decide) hm) (hk := ?_) ..
    | with_reducible refine Only.ite ?_ ?_
    | split
    | dsimp only)

theorem execMsixVectorUnmask_only {M : Nat} {s₀ : State} (v : Nat) (s : State) (hm : 1040 &&& M = 1040)
    (hk : Only M s₀ s) : Answers (execMsixVectorUnmask v s) (Only M s₀) := by
  unfold execMsixVectorUnmask
  repeat' (first
    | with_reducible assumption
    | with_reducible refine Answers.next ?_
    | with_reducible refine State.maskVector_only (hm := Only.sub (by decide) hm) (hk := ?_) ..
    | with_reducible refine Only.ite ?_ ?_
    | dsimp only)

theorem State.settleRingOf_only {M : Nat} {s₀ : State} (s : State) (arr0 : RingName) (hm : 1024 &&& M = 1024)
    (hk : Only M s₀ s) : Only M s₀ (State.settleRingOf s arr0) := by
  unfold State.settleRingOf
  repeat' (first
    | with_reducible assumption
    | with_reducible first | refine State.settleRing_only (hm := Only.sub (by decide) hm) (hk := ?_) .. | refine State.modRingOf_only (hm := Only.sub (by decide) hm) (hk := ?_) ..
    | with_reducible refine Only.ite ?_ ?_
    | split)

theorem State.writeEnable_only {M : Nat} {s₀ : State} (s : State) (x : RingName) (v : Bool) (hm : 1040 &&& M = 1040)
    (hk : Only M s₀ s) : Only M s₀ (State.writeEnable s x v) := by
  unfold State.writeEnable
  repeat' (first
    | with_reducible assumption
    | with_reducible first | refine State.emit_only (hm := Only.sub (by decide) hm) (hk := ?_) .. | refine State.modRingOf_only (hm := Only.sub (by decide) hm) (hk := ?_) .. | refine State.settleRingOf_only (hm := Only.sub (by decide) hm) (hk := ?_) ..
    | with_reducible refine Only.ite ?_ ?_
    | split
    | dsimp only)

theorem State.writeRingReset_only {M : Nat} {s₀ : State} (s : State) (x : RingName) (hm : 1024 &&& M = 1024)
    (hk : Only M s₀ s) : Only M s₀ (State.writeRingReset s x) := by
  unfold State.writeRingReset
  repeat' (first
    | with_reducible assumption
    | with_reducible refine State.modRingOf_only (hm := Only.sub (by decide) hm) (hk := ?_) ..
    | split)

theorem execRingEnable_only {M : Nat} {s₀ : State} (x : RingName) (v : Bool) (s : State) (hm : 1040 &&& M = 1040)
    (hk : Only M s₀ s) : Answers (execRingEnable x v s) (Only M s₀) := by
  unfold execRingEnable
  repeat' (first
    | with_reducible assumption
    | with_reducible refine Answers.next ?_
    | with_reducible refine State.writeEnable_only (hm := Only.sub (by decide) hm) (hk := ?_) ..
    | with_reducible refine Only.ite ?_ ?_
    | dsimp only)

theorem execRingReset_only {M : Nat} {s₀ : State} (x : RingName) (s : State) (hm : 1024 &&& M = 1024)
    (hk : Only M s₀ s) : Answers (execRingReset x s) (Only M s₀) := by
  unfold execRingReset
  repeat' (first
    | with_reducible assumption
    | with_reducible refine Answers.next ?_
    | with_reducible refine State.writeRingReset_only (hm := Only.sub (by decide) hm) (hk := ?_) ..
    | with_reducible refine Only.ite ?_ ?_
    | dsimp only)

theorem State.hostAddrFault_only {M : Nat} {s₀ : State} (s : State) (hm : 536872592 &&& M = 536872592)
    (hk : Only M s₀ s) : Only M s₀ (State.hostAddrFault s) := by
  unfold State.hostAddrFault
  repeat' (first
    | with_reducible assumption
    | with_reducible refine State.logLimited_only (hm := Only.sub (by decide) hm) (hk := ?_) ..)

theorem State.hostPoison_only {M : Nat} {s₀ : State} (s : State) (a : Nat) (hm : 536872592 &&& M = 536872592)
    (hk : Only M s₀ s) : Only M s₀ (State.hostPoison s a) := by
  unfold State.hostPoison
  repeat' (first
    | with_reducible assumption
    | with_reducible refine State.log_only (hm := Only.sub (by decide) hm) (hk := ?_) ..)

theorem execBar2Read_only {M : Nat} {s₀ : State} (off n : Nat) (ecc : List (Nat × EccResult)) (s : State) (hm : 1838909082 &&& M = 1838909082)
    (hk : Only M s₀ s) : Answers (execBar2Read off n ecc s) (Only M s₀) := by
  unfold execBar2Read
  repeat' (first
    | with_reducible assumption
    | with_reducible refine Answers.next ?_
    | with_reducible refine Answers.ite ?_ ?_
    | with_reducible first | refine State.emit_only (hm := Only.sub (by decide) hm) (hk := ?_) .. | refine State.fresh_only (hm := Only.sub (by decide) hm) (hk := ?_) .. | refine State.eccAll_only (hm := Only.sub (by decide) hm) (hk := ?_) .. | refine State.deepExit_only (hm := Only.sub (by decide) hm) (hk := ?_) .. | refine State.hostAddrFault_only (hm := Only.sub (by decide) hm) (hk := ?_) .. | refine State.hostPoison_only (hm := Only.sub (by decide) hm) (hk := ?_) ..
    | with_reducible refine Only.ite ?_ ?_
    | split
    | dsimp only)

theorem execBar2Write_only {M : Nat} {s₀ : State} (off : Nat) (data : List Byte) (poisoned : Bool) (s : State) (hm : 672663186 &&& M = 672663186)
    (hk : Only M s₀ s) : Answers (execBar2Write off data poisoned s) (Only M s₀) := by
  unfold execBar2Write
  repeat' (first
    | with_reducible assumption
    | with_reducible refine Answers.next ?_
    | with_reducible refine Answers.ite ?_ ?_
    | with_reducible first | refine State.writeMem_only (hm := Only.sub (by decide) hm) (hk := ?_) .. | refine State.log_only (hm := Only.sub (by decide) hm) (hk := ?_) .. | refine State.deepExit_only (hm := Only.sub (by decide) hm) (hk := ?_) .. | refine State.hostAddrFault_only (hm := Only.sub (by decide) hm) (hk := ?_) ..
    | with_reducible refine Only.ite ?_ ?_
    | split
    | dsimp only)

theorem State.clearRc_only {M : Nat} {s₀ : State} (s : State) (r : Reg) (on : Nat → Bool) (hm : 1032881664 &&& M = 1032881664)
    (hk : Only M s₀ s) : Only M s₀ (State.clearRc s r on) := by
  unfold State.clearRc
  repeat' (first
    | with_reducible assumption
    | with_reducible first | refine State.modCluster_only (hm := Only.sub (by decide) hm) (hk := ?_) .. | refine State.modClock_only (hm := Only.sub (by decide) hm) (hk := ?_) .. | refine State.modLink_only (hm := Only.sub (by decide) hm) (hk := ?_) .. | refine State.modDisc_only (hm := Only.sub (by decide) hm) (hk := ?_) .. | refine State.modChannel_only (hm := Only.sub (by decide) hm) (hk := ?_) .. | refine State.modErr_only (hm := Only.sub (by decide) hm) (hk := ?_) .. | refine State.modCol_only (hm := Only.sub (by decide) hm) (hk := ?_) .. | refine State.modRtr_only (hm := Only.sub (by decide) hm) (hk := ?_) .. | refine State.modPwr_only (hm := Only.sub (by decide) hm) (hk := ?_) .. | refine State.modMgmt_only (hm := Only.sub (by decide) hm) (hk := ?_) .. | refine State.modRingOf_only (hm := Only.sub (by decide) hm) (hk := ?_) ..
    | with_reducible refine Only.ite ?_ ?_
    | split
    | with_reducible refine Only.set_rails (hm := Only.sub (by decide) hm) (h := ?_) ..)

theorem State.regWord_only {M : Nat} {s₀ : State} (s : State) (slot : Nat) (r : Reg) (w : Nat) (on : Nat → Bool) (hm : 5327848960 &&& M = 5327848960)
    (hk : Only M s₀ s) : Only M s₀ (State.regWord s slot r w on).2 := by
  unfold State.regWord
  repeat' (first
    | with_reducible assumption
    | with_reducible refine State.clearRc_only (hm := Only.sub (by decide) hm) (hk := ?_) ..
    | with_reducible refine Only.ite2 ?_ ?_
    | split
    | with_reducible refine Only.set_latches (hm := Only.sub (by decide) hm) (h := ?_) ..
    | dsimp only)

theorem State.readReg_only {M : Nat} {s₀ : State} (s : State) (off n : Nat) (hm : 6401590930 &&& M = 6401590930)
    (hk : Only M s₀ s) : Only M s₀ (State.readReg s off n).2 := by
  unfold State.readReg
  repeat' (first
    | with_reducible assumption
    | with_reducible first | refine State.reach_only (hm := Only.sub (by decide) hm) (hk := ?_) .. | refine State.cdcTimeout_only (hm := Only.sub (by decide) hm) (hk := ?_) .. | refine State.regWord_only (hm := Only.sub (by decide) hm) (hk := ?_) ..
    | with_reducible refine Only.ite2 ?_ ?_
    | split
    | dsimp only)

theorem State.validFrame_only {M : Nat} {s₀ : State} (s : State) (n : Nat) (ack : Option Nat) (hm : 83887120 &&& M = 83887120)
    (hk : Only M s₀ s) : Only M s₀ (State.validFrame s n ack) := by
  unfold State.validFrame
  repeat' (first
    | with_reducible assumption
    | with_reducible first | refine State.modLink_only (hm := Only.sub (by decide) hm) (hk := ?_) .. | refine State.acked_only (hm := Only.sub (by decide) hm) (hk := ?_) ..
    | split)

theorem State.acceptFrame_only {M : Nat} {s₀ : State} (s : State) (n vc : Nat) (p : Packet) (failing : Bool) (mem : BufferEcc) (hm : 1829766802 &&& M = 1829766802)
    (hk : Only M s₀ s) : Only M s₀ (State.acceptFrame s n vc p failing mem) := by
  unfold State.acceptFrame
  repeat' (first
    | with_reducible assumption
    | with_reducible first | refine State.modLink_only (hm := Only.sub (by decide) hm) (hk := ?_) .. | refine State.sendCtl_only (hm := Only.sub (by decide) hm) (hk := ?_) .. | refine State.routerTakes_only (hm := Only.sub (by decide) hm) (hk := ?_) ..
    | split
    | dsimp only)

theorem State.sendNak_only {M : Nat} {s₀ : State} (s : State) (n cause : Nat) (hm : 16777232 &&& M = 16777232)
    (hk : Only M s₀ s) : Only M s₀ (State.sendNak s n cause) := by
  unfold State.sendNak
  repeat' (first
    | with_reducible assumption
    | with_reducible first | refine State.modLink_only (hm := Only.sub (by decide) hm) (hk := ?_) .. | refine State.sendCtl_only (hm := Only.sub (by decide) hm) (hk := ?_) ..
    | with_reducible refine Only.ite ?_ ?_
    | split
    | dsimp only)

theorem State.packetFrame_only {M : Nat} {s₀ : State} (s : State) (n vc seq : Nat) (ack : Option Nat) (p : Packet) (fecOk crcOk : Bool) (mem : BufferEcc) (hm : 1878624158 &&& M = 1878624158)
    (hk : Only M s₀ s) : Only M s₀ (State.packetFrame s n vc seq ack p fecOk crcOk mem) := by
  unfold State.packetFrame
  repeat' (first
    | with_reducible assumption
    | with_reducible first | refine State.modLink_only (hm := Only.sub (by decide) hm) (hk := ?_) .. | refine State.detect_only (hm := Only.sub (by decide) hm) (hk := ?_) .. | refine State.laneFail_only (hm := Only.sub (by decide) hm) (hk := ?_) .. | refine State.validFrame_only (hm := Only.sub (by decide) hm) (hk := ?_) .. | refine State.acceptFrame_only (hm := Only.sub (by decide) hm) (hk := ?_) .. | refine State.sendNak_only (hm := Only.sub (by decide) hm) (hk := ?_) ..
    | with_reducible refine Only.ite ?_ ?_
    | split
    | dsimp only)

theorem execAck_only {M : Nat} {s₀ : State} (n : Nat) (ack : Option Nat) (s : State) (hm : 83887120 &&& M = 83887120)
    (hk : Only M s₀ s) : Answers (execAck n ack s) (Only M s₀) := by
  unfold execAck
  repeat' (first
    | with_reducible assumption
    | with_reducible refine Answers.next ?_
    | with_reducible refine State.validFrame_only (hm := Only.sub (by decide) hm) (hk := ?_) ..
    | with_reducible refine Only.ite ?_ ?_
    | dsimp only)

theorem execNak_only {M : Nat} {s₀ : State} (n expected : Nat) (ack : Option Nat) (s : State) (hm : 1157628944 &&& M = 1157628944)
    (hk : Only M s₀ s) : Answers (execNak n expected ack s) (Only M s₀) := by
  unfold execNak
  repeat' (first
    | with_reducible assumption
    | with_reducible refine Answers.next ?_
    | with_reducible first | refine State.replay_only (hm := Only.sub (by decide) hm) (hk := ?_) .. | refine State.validFrame_only (hm := Only.sub (by decide) hm) (hk := ?_) ..
    | with_reducible refine Only.ite ?_ ?_
    | dsimp only)

theorem execAckTimeout_only {M : Nat} {s₀ : State} (n : Nat) (s : State) (hm : 1090519056 &&& M = 1090519056)
    (hk : Only M s₀ s) : Answers (execAckTimeout n s) (Only M s₀) := by
  unfold execAckTimeout
  repeat' (first
    | with_reducible assumption
    | with_reducible refine Answers.next ?_
    | with_reducible refine State.replay_only (hm := Only.sub (by decide) hm) (hk := ?_) ..
    | with_reducible refine Only.ite ?_ ?_
    | dsimp only)

theorem execCredit_only {M : Nat} {s₀ : State} (n vc : Nat) (totals : List Nat) (ack : Option Nat) (s : State) (hm : 83887120 &&& M = 83887120)
    (hk : Only M s₀ s) : Answers (execCredit n vc totals ack s) (Only M s₀) := by
  unfold execCredit
  repeat' (first
    | with_reducible assumption
    | with_reducible refine Answers.next ?_
    | with_reducible first | refine State.modLink_only (hm := Only.sub (by decide) hm) (hk := ?_) .. | refine State.pump_only (hm := Only.sub (by decide) hm) (hk := ?_) .. | refine State.validFrame_only (hm := Only.sub (by decide) hm) (hk := ?_) ..
    | with_reducible refine Only.ite ?_ ?_
    | split
    | dsimp only)

theorem execCreditQuery_only {M : Nat} {s₀ : State} (n : Nat) (ack : Option Nat) (s : State) (hm : 83887120 &&& M = 83887120)
    (hk : Only M s₀ s) : Answers (execCreditQuery n ack s) (Only M s₀) := by
  unfold execCreditQuery
  repeat' (first
    | with_reducible assumption
    | with_reducible refine Answers.next ?_
    | with_reducible first | refine State.sendCtl_only (hm := Only.sub (by decide) hm) (hk := ?_) .. | refine State.validFrame_only (hm := Only.sub (by decide) hm) (hk := ?_) ..
    | with_reducible refine Only.ite ?_ ?_
    | dsimp only)

theorem execCreditLate_only {M : Nat} {s₀ : State} (n : Nat) (s : State) (hm : 1090519056 &&& M = 1090519056)
    (hk : Only M s₀ s) : Answers (execCreditLate n s) (Only M s₀) := by
  unfold execCreditLate
  repeat' (first
    | with_reducible assumption
    | with_reducible refine Answers.next ?_
    | with_reducible first | refine State.modLink_only (hm := Only.sub (by decide) hm) (hk := ?_) .. | refine State.span_only (hm := Only.sub (by decide) hm) (hk := ?_) .. | refine State.sendCtl_only (hm := Only.sub (by decide) hm) (hk := ?_) ..
    | with_reducible refine Only.ite ?_ ?_
    | split
    | dsimp only)

theorem execKeepalive_only {M : Nat} {s₀ : State} (n : Nat) (ack : Option Nat) (s : State) (hm : 83887120 &&& M = 83887120)
    (hk : Only M s₀ s) : Answers (execKeepalive n ack s) (Only M s₀) := by
  unfold execKeepalive
  repeat' (first
    | with_reducible assumption
    | with_reducible refine Answers.next ?_
    | with_reducible refine State.validFrame_only (hm := Only.sub (by decide) hm) (hk := ?_) ..
    | with_reducible refine Only.ite ?_ ?_
    | dsimp only)

theorem execKeepaliveSend_only {M : Nat} {s₀ : State} (n : Nat) (s : State) (hm : 16777232 &&& M = 16777232)
    (hk : Only M s₀ s) : Answers (execKeepaliveSend n s) (Only M s₀) := by
  unfold execKeepaliveSend
  repeat' (first
    | with_reducible assumption
    | with_reducible refine Answers.next ?_
    | with_reducible first | refine State.modLink_only (hm := Only.sub (by decide) hm) (hk := ?_) .. | refine State.sendCtl_only (hm := Only.sub (by decide) hm) (hk := ?_) ..
    | with_reducible refine Only.ite ?_ ?_
    | split
    | dsimp only)

theorem State.badFrame_only {M : Nat} {s₀ : State} (s : State) (n : Nat) (packet : Bool) (hm : 1090519056 &&& M = 1090519056)
    (hk : Only M s₀ s) : Only M s₀ (State.badFrame s n packet) := by
  unfold State.badFrame
  repeat' (first
    | with_reducible assumption
    | with_reducible first | refine State.modLink_only (hm := Only.sub (by decide) hm) (hk := ?_) .. | refine State.span_only (hm := Only.sub (by decide) hm) (hk := ?_) .. | refine State.sendNak_only (hm := Only.sub (by decide) hm) (hk := ?_) ..
    | with_reducible refine Only.ite ?_ ?_
    | split)

theorem execLinkPartnerLost_only {M : Nat} {s₀ : State} (n : Nat) (s : State) (hm : 670795414 &&& M = 670795414)
    (hk : Only M s₀ s) : Answers (execLinkPartnerLost n s) (Only M s₀) := by
  unfold execLinkPartnerLost
  repeat' (first
    | with_reducible assumption
    | with_reducible refine Answers.next ?_
    | with_reducible first | refine State.modUnit_only (hm := Only.sub (by decide) hm) (hk := ?_) .. | refine State.reach_only (hm := Only.sub (by decide) hm) (hk := ?_) .. | refine State.detect_only (hm := Only.sub (by decide) hm) (hk := ?_) .. | refine State.closeWindow_only (hm := Only.sub (by decide) hm) (hk := ?_) .. | refine State.linkLeaves_only (hm := Only.sub (by decide) hm) (hk := ?_) ..
    | with_reducible refine Only.ite ?_ ?_
    | split
    | dsimp only)

theorem execSignalDetect_only {M : Nat} {s₀ : State} (n : Nat) (s : State) (hm : 670664598 &&& M = 670664598)
    (hk : Only M s₀ s) : Answers (execSignalDetect n s) (Only M s₀) := by
  unfold execSignalDetect
  repeat' (first
    | with_reducible assumption
    | with_reducible refine Answers.next ?_
    | with_reducible refine State.train_only (hm := Only.sub (by decide) hm) (hk := ?_) ..
    | with_reducible refine Only.ite ?_ ?_
    | dsimp only)

theorem State.enterKeepalive_only {M : Nat} {s₀ : State} (s : State) (n : Nat) (hm : 16777216 &&& M = 16777216)
    (hk : Only M s₀ s) : Only M s₀ (State.enterKeepalive s n) := by
  unfold State.enterKeepalive
  repeat' (first
    | with_reducible assumption
    | with_reducible refine State.modLink_only (hm := Only.sub (by decide) hm) (hk := ?_) ..
    | with_reducible refine Only.ite ?_ ?_
    | split
    | dsimp only)

theorem State.askKeepalive_only {M : Nat} {s₀ : State} (s : State) (n : Nat) (hm : 16777232 &&& M = 16777232)
    (hk : Only M s₀ s) : Only M s₀ (State.askKeepalive s n) := by
  unfold State.askKeepalive
  repeat' (first
    | with_reducible assumption
    | with_reducible first | refine State.modLink_only (hm := Only.sub (by decide) hm) (hk := ?_) .. | refine State.sendCtl_only (hm := Only.sub (by decide) hm) (hk := ?_) .. | refine State.enterKeepalive_only (hm := Only.sub (by decide) hm) (hk := ?_) ..
    | with_reducible refine Only.ite ?_ ?_
    | split)

theorem State.heldKeepalive_only {M : Nat} {s₀ : State} (s : State) (n : Nat) (hm : 16777232 &&& M = 16777232)
    (hk : Only M s₀ s) : Only M s₀ (State.heldKeepalive s n) := by
  unfold State.heldKeepalive
  repeat' (first
    | with_reducible assumption
    | with_reducible refine State.askKeepalive_only (hm := Only.sub (by decide) hm) (hk := ?_) ..
    | with_reducible refine Only.ite ?_ ?_)

theorem execLinkUp_only {M : Nat} {s₀ : State} (n mode half : Nat) (floors : List Nat) (calTx calRx : Nat) (s : State) (hm : 670795414 &&& M = 670795414)
    (hk : Only M s₀ s) : Answers (execLinkUp n mode half floors calTx calRx s) (Only M s₀) := by
  unfold execLinkUp
  repeat' (first
    | with_reducible assumption
    | with_reducible refine Answers.next ?_
    | with_reducible first | refine State.modLink_only (hm := Only.sub (by decide) hm) (hk := ?_) .. | refine State.modRep_only (hm := Only.sub (by decide) hm) (hk := ?_) .. | refine State.modUnit_only (hm := Only.sub (by decide) hm) (hk := ?_) .. | refine State.setDisc_only (hm := Only.sub (by decide) hm) (hk := ?_) .. | refine State.modLane_only (hm := Only.sub (by decide) hm) (hk := ?_) .. | refine State.heldKeepalive_only (hm := Only.sub (by decide) hm) (hk := ?_) ..
    | with_reducible refine Only.ite ?_ ?_
    | with_reducible refine Only.foldl (fun _ _ _ => ?_) ?_
    | split
    | dsimp only)

theorem execTrainingTimeout_only {M : Nat} {s₀ : State} (n : Nat) (s : State) (hm : 553649810 &&& M = 553649810)
    (hk : Only M s₀ s) : Answers (execTrainingTimeout n s) (Only M s₀) := by
  unfold execTrainingTimeout
  repeat' (first
    | with_reducible assumption
    | with_reducible refine Answers.next ?_
    | with_reducible first | refine State.modLink_only (hm := Only.sub (by decide) hm) (hk := ?_) .. | refine State.reach_only (hm := Only.sub (by decide) hm) (hk := ?_) .. | refine State.log_only (hm := Only.sub (by decide) hm) (hk := ?_) ..
    | with_reducible refine Only.ite ?_ ?_
    | split
    | dsimp only)

theorem execTrainingRetry_only {M : Nat} {s₀ : State} (n : Nat) (s : State) (hm : 670664598 &&& M = 670664598)
    (hk : Only M s₀ s) : Answers (execTrainingRetry n s) (Only M s₀) := by
  unfold execTrainingRetry
  repeat' (first
    | with_reducible assumption
    | with_reducible refine Answers.next ?_
    | with_reducible refine State.train_only (hm := Only.sub (by decide) hm) (hk := ?_) ..
    | with_reducible refine Only.ite ?_ ?_
    | dsimp only)

theorem execRetrain_only {M : Nat} {s₀ : State} (n : Nat) (s : State) (hm : 670664598 &&& M = 670664598)
    (hk : Only M s₀ s) : Answers (execRetrain n s) (Only M s₀) := by
  unfold execRetrain
  repeat' (first
    | with_reducible assumption
    | with_reducible refine Answers.next ?_
    | with_reducible refine State.retrain_only (hm := Only.sub (by decide) hm) (hk := ?_) ..
    | dsimp only)

theorem execForceKeepalive_only {M : Nat} {s₀ : State} (n : Nat) (v : Bool) (s : State) (hm : 16777232 &&& M = 16777232)
    (hk : Only M s₀ s) : Answers (execForceKeepalive n v s) (Only M s₀) := by
  unfold execForceKeepalive
  repeat' (first
    | with_reducible assumption
    | with_reducible refine Answers.next ?_
    | with_reducible first | refine State.modLink_only (hm := Only.sub (by decide) hm) (hk := ?_) .. | refine State.askKeepalive_only (hm := Only.sub (by decide) hm) (hk := ?_) ..
    | with_reducible refine Only.ite ?_ ?_
    | split
    | dsimp only)

theorem execKeepaliveIdle_only {M : Nat} {s₀ : State} (n : Nat) (s : State) (hm : 553648146 &&& M = 553648146)
    (hk : Only M s₀ s) : Answers (execKeepaliveIdle n s) (Only M s₀) := by
  unfold execKeepaliveIdle
  repeat' (first
    | with_reducible assumption
    | with_reducible refine Answers.next ?_
    | with_reducible first | refine State.reach_only (hm := Only.sub (by decide) hm) (hk := ?_) .. | refine State.askKeepalive_only (hm := Only.sub (by decide) hm) (hk := ?_) ..
    | with_reducible refine Only.ite ?_ ?_
    | dsimp only)

theorem execPower_only {M : Nat} {s₀ : State} (n request : Nat) (ack : Option Nat) (s : State) (hm : 83887120 &&& M = 83887120)
    (hk : Only M s₀ s) : Answers (execPower n request ack s) (Only M s₀) := by
  unfold execPower
  repeat' (first
    | with_reducible assumption
    | with_reducible refine Answers.next ?_
    | with_reducible first | refine State.modLink_only (hm := Only.sub (by decide) hm) (hk := ?_) .. | refine State.sendCtl_only (hm := Only.sub (by decide) hm) (hk := ?_) .. | refine State.validFrame_only (hm := Only.sub (by decide) hm) (hk := ?_) .. | refine State.enterKeepalive_only (hm := Only.sub (by decide) hm) (hk := ?_) ..
    | with_reducible refine Only.ite ?_ ?_
    | split
    | dsimp only)

theorem execKeepaliveExit_only {M : Nat} {s₀ : State} (n : Nat) (s : State) (hm : 16777232 &&& M = 16777232)
    (hk : Only M s₀ s) : Answers (execKeepaliveExit n s) (Only M s₀) := by
  unfold execKeepaliveExit
  repeat' (first
    | with_reducible assumption
    | with_reducible refine Answers.next ?_
    | with_reducible first | refine State.modLink_only (hm := Only.sub (by decide) hm) (hk := ?_) .. | refine State.pump_only (hm := Only.sub (by decide) hm) (hk := ?_) .. | refine State.heldKeepalive_only (hm := Only.sub (by decide) hm) (hk := ?_) ..
    | with_reducible refine Only.ite ?_ ?_
    | split
    | dsimp only)

theorem State.laneSample_only {M : Nat} {s₀ : State} (s : State) (n l v h : Nat) (ser : W32) (corr unc : Nat) (hm : 1744406430 &&& M = 1744406430)
    (hk : Only M s₀ s) : Only M s₀ (State.laneSample s n l v h ser corr unc) := by
  unfold State.laneSample
  repeat' (first
    | with_reducible assumption
    | with_reducible first | refine State.span_only (hm := Only.sub (by decide) hm) (hk := ?_) .. | refine State.spanMin_only (hm := Only.sub (by decide) hm) (hk := ?_) .. | refine State.log_only (hm := Only.sub (by decide) hm) (hk := ?_) .. | refine State.modLane_only (hm := Only.sub (by decide) hm) (hk := ?_) .. | refine State.laneFail_only (hm := Only.sub (by decide) hm) (hk := ?_) ..
    | with_reducible refine Only.ite ?_ ?_
    | split
    | dsimp only)

theorem execLaneSample_only {M : Nat} {s₀ : State} (n : Nat) (xs : List (Nat × Nat × Nat × W32 × Nat × Nat)) (s : State) (hm : 1744406430 &&& M = 1744406430)
    (hk : Only M s₀ s) : Answers (execLaneSample n xs s) (Only M s₀) := by
  unfold execLaneSample
  repeat' (first
    | with_reducible assumption
    | with_reducible refine Answers.next ?_
    | with_reducible refine State.laneSample_only (hm := Only.sub (by decide) hm) (hk := ?_) ..
    | with_reducible refine Only.ite ?_ ?_
    | with_reducible refine Only.foldl (fun _ _ _ => ?_) ?_
    | split
    | dsimp only)

theorem execLaneFail_only {M : Nat} {s₀ : State} (n l cause : Nat) (s : State) (hm : 670664606 &&& M = 670664606)
    (hk : Only M s₀ s) : Answers (execLaneFail n l cause s) (Only M s₀) := by
  unfold execLaneFail
  repeat' (first
    | with_reducible assumption
    | with_reducible refine Answers.next ?_
    | with_reducible refine State.laneFail_only (hm := Only.sub (by decide) hm) (hk := ?_) ..
    | dsimp only)

theorem execSpareReq_only {M : Nat} {s₀ : State} (n l : Nat) (ack : Option Nat) (s : State) (hm : 83887128 &&& M = 83887128)
    (hk : Only M s₀ s) : Answers (execSpareReq n l ack s) (Only M s₀) := by
  unfold execSpareReq
  repeat' (first
    | with_reducible assumption
    | with_reducible refine Answers.next ?_
    | with_reducible first | refine State.modRep_only (hm := Only.sub (by decide) hm) (hk := ?_) .. | refine State.sendCtl_only (hm := Only.sub (by decide) hm) (hk := ?_) .. | refine State.switchCw_only (hm := Only.sub (by decide) hm) (hk := ?_) .. | refine State.validFrame_only (hm := Only.sub (by decide) hm) (hk := ?_) ..
    | with_reducible refine Only.ite ?_ ?_
    | split
    | dsimp only)

theorem execSpareAck_only {M : Nat} {s₀ : State} (n l cw : Nat) (ack : Option Nat) (s : State) (hm : 83887120 &&& M = 83887120)
    (hk : Only M s₀ s) : Answers (execSpareAck n l cw ack s) (Only M s₀) := by
  unfold execSpareAck
  repeat' (first
    | with_reducible assumption
    | with_reducible refine Answers.next ?_
    | with_reducible first | refine State.modRep_only (hm := Only.sub (by decide) hm) (hk := ?_) .. | refine State.validFrame_only (hm := Only.sub (by decide) hm) (hk := ?_) ..
    | with_reducible refine Only.ite ?_ ?_
    | split
    | dsimp only)

theorem State.reachCw_only {M : Nat} {s₀ : State} (s : State) (n cw : Nat) (hm : 536870914 &&& M = 536870914)
    (hk : Only M s₀ s) : Only M s₀ (State.reachCw s n cw) := by
  unfold State.reachCw
  repeat' (first
    | with_reducible assumption
    | with_reducible refine State.reach_only (hm := Only.sub (by decide) hm) (hk := ?_) ..)

theorem execSpareSwitch_only {M : Nat} {s₀ : State} (n : Nat) (s : State) (hm : 553648130 &&& M = 553648130)
    (hk : Only M s₀ s) : Answers (execSpareSwitch n s) (Only M s₀) := by
  unfold execSpareSwitch
  repeat' (first
    | with_reducible assumption
    | with_reducible refine Answers.next ?_
    | with_reducible first | refine State.modLink_only (hm := Only.sub (by decide) hm) (hk := ?_) .. | refine State.modRep_only (hm := Only.sub (by decide) hm) (hk := ?_) .. | refine State.reachCw_only (hm := Only.sub (by decide) hm) (hk := ?_) ..
    | with_reducible refine Only.ite ?_ ?_
    | split
    | dsimp only)

theorem execSparingDone_only {M : Nat} {s₀ : State} (n : Nat) (s : State) (hm : 1627390480 &&& M = 1627390480)
    (hk : Only M s₀ s) : Answers (execSparingDone n s) (Only M s₀) := by
  unfold execSparingDone
  repeat' (first
    | with_reducible assumption
    | with_reducible refine Answers.next ?_
    | with_reducible first | refine State.modLink_only (hm := Only.sub (by decide) hm) (hk := ?_) .. | refine State.modRep_only (hm := Only.sub (by decide) hm) (hk := ?_) .. | refine State.total_only (hm := Only.sub (by decide) hm) (hk := ?_) .. | refine State.closeWindow_only (hm := Only.sub (by decide) hm) (hk := ?_) .. | refine State.pump_only (hm := Only.sub (by decide) hm) (hk := ?_) .. | refine State.replay_only (hm := Only.sub (by decide) hm) (hk := ?_) ..
    | with_reducible refine Only.ite ?_ ?_
    | split
    | dsimp only)

theorem execSparingTimeout_only {M : Nat} {s₀ : State} (n : Nat) (s : State) (hm : 670664598 &&& M = 670664598)
    (hk : Only M s₀ s) : Answers (execSparingTimeout n s) (Only M s₀) := by
  unfold execSparingTimeout
  repeat' (first
    | with_reducible assumption
    | with_reducible refine Answers.next ?_
    | with_reducible first | refine State.closeWindow_only (hm := Only.sub (by decide) hm) (hk := ?_) .. | refine State.retrain_only (hm := Only.sub (by decide) hm) (hk := ?_) ..
    | with_reducible refine Only.ite ?_ ?_
    | dsimp only)

theorem execWidth_only {M : Nat} {s₀ : State} (n mode half : Nat) (isAck : Bool) (cw : Nat) (ack : Option Nat) (s : State) (hm : 83887128 &&& M = 83887128)
    (hk : Only M s₀ s) : Answers (execWidth n mode half isAck cw ack s) (Only M s₀) := by
  unfold execWidth
  repeat' (first
    | with_reducible assumption
    | with_reducible refine Answers.next ?_
    | with_reducible first | refine State.modRep_only (hm := Only.sub (by decide) hm) (hk := ?_) .. | refine State.sendCtl_only (hm := Only.sub (by decide) hm) (hk := ?_) .. | refine State.switchCw_only (hm := Only.sub (by decide) hm) (hk := ?_) .. | refine State.validFrame_only (hm := Only.sub (by decide) hm) (hk := ?_) ..
    | with_reducible refine Only.ite ?_ ?_
    | split
    | dsimp only)

theorem execWidthSwitch_only {M : Nat} {s₀ : State} (n : Nat) (s : State) (hm : 1627390482 &&& M = 1627390482)
    (hk : Only M s₀ s) : Answers (execWidthSwitch n s) (Only M s₀) := by
  unfold execWidthSwitch
  repeat' (first
    | with_reducible assumption
    | with_reducible refine Answers.next ?_
    | with_reducible first | refine State.modLink_only (hm := Only.sub (by decide) hm) (hk := ?_) .. | refine State.modRep_only (hm := Only.sub (by decide) hm) (hk := ?_) .. | refine State.closeWindow_only (hm := Only.sub (by decide) hm) (hk := ?_) .. | refine State.pump_only (hm := Only.sub (by decide) hm) (hk := ?_) .. | refine State.replay_only (hm := Only.sub (by decide) hm) (hk := ?_) .. | refine State.reachCw_only (hm := Only.sub (by decide) hm) (hk := ?_) ..
    | split
    | dsimp only)

theorem State.reachTap_only {M : Nat} {s₀ : State} (s : State) (t : Tab Nat) (tap : Nat) (hm : 536870914 &&& M = 536870914)
    (hk : Only M s₀ s) : Only M s₀ (State.reachTap s t tap) := by
  unfold State.reachTap
  repeat' (first
    | with_reducible assumption
    | with_reducible refine State.reach_only (hm := Only.sub (by decide) hm) (hk := ?_) ..
    | split)

theorem execEq_only {M : Nat} {s₀ : State} (n l request tap : Nat) (ack : Option Nat) (s : State) (hm : 620758042 &&& M = 620758042)
    (hk : Only M s₀ s) : Answers (execEq n l request tap ack s) (Only M s₀) := by
  unfold execEq
  repeat' (first
    | with_reducible assumption
    | with_reducible refine Answers.next ?_
    | with_reducible first | refine State.fresh_only (hm := Only.sub (by decide) hm) (hk := ?_) .. | refine State.sendCtl_only (hm := Only.sub (by decide) hm) (hk := ?_) .. | refine State.modLane_only (hm := Only.sub (by decide) hm) (hk := ?_) .. | refine State.validFrame_only (hm := Only.sub (by decide) hm) (hk := ?_) .. | refine State.reachTap_only (hm := Only.sub (by decide) hm) (hk := ?_) ..
    | with_reducible refine Only.ite ?_ ?_
    | split
    | dsimp only)

theorem execEqStep_only {M : Nat} {s₀ : State} (n l tap : Nat) (up own : Bool) (s : State) (hm : 553648146 &&& M = 553648146)
    (hk : Only M s₀ s) : Answers (execEqStep n l tap up own s) (Only M s₀) := by
  unfold execEqStep
  repeat' (first
    | with_reducible assumption
    | with_reducible refine Answers.next ?_
    | with_reducible first | refine State.sendCtl_only (hm := Only.sub (by decide) hm) (hk := ?_) .. | refine State.modLane_only (hm := Only.sub (by decide) hm) (hk := ?_) .. | refine State.reachTap_only (hm := Only.sub (by decide) hm) (hk := ?_) ..
    | with_reducible refine Only.ite ?_ ?_
    | split
    | dsimp only)

theorem State.stamp_only {M : Nat} {s₀ : State} (s : State) (at16 : Nat) (hm : 536870914 &&& M = 536870914)
    (hk : Only M s₀ s) : Only M s₀ (State.stamp s at16).2 := by
  unfold State.stamp
  repeat' (first
    | with_reducible assumption
    | with_reducible refine State.reach_only (hm := Only.sub (by decide) hm) (hk := ?_) ..
    | dsimp only)

theorem execTimeExchange_only {M : Nat} {s₀ : State} (at16 : Nat) (s : State) (hm : 553648146 &&& M = 553648146)
    (hk : Only M s₀ s) : Answers (execTimeExchange at16 s) (Only M s₀) := by
  unfold execTimeExchange
  repeat' (first
    | with_reducible assumption
    | with_reducible refine Answers.next ?_
    | with_reducible first | refine State.modRep_only (hm := Only.sub (by decide) hm) (hk := ?_) .. | refine State.sendCtl_only (hm := Only.sub (by decide) hm) (hk := ?_) .. | refine State.stamp_only (hm := Only.sub (by decide) hm) (hk := ?_) ..
    | with_reducible refine Only.ite ?_ ?_
    | split
    | dsimp only)

theorem execTimeReq_only {M : Nat} {s₀ : State} (n exchange at16 send16 : Nat) (ack : Option Nat) (s : State) (hm : 620758034 &&& M = 620758034)
    (hk : Only M s₀ s) : Answers (execTimeReq n exchange at16 send16 ack s) (Only M s₀) := by
  unfold execTimeReq
  repeat' (first
    | with_reducible assumption
    | with_reducible refine Answers.next ?_
    | with_reducible first | refine State.sendCtl_only (hm := Only.sub (by decide) hm) (hk := ?_) .. | refine State.validFrame_only (hm := Only.sub (by decide) hm) (hk := ?_) .. | refine State.stamp_only (hm := Only.sub (by decide) hm) (hk := ?_) ..
    | with_reducible refine Only.ite ?_ ?_
    | split
    | dsimp only)

theorem State.servo_only {M : Nat} {s₀ : State} (s : State) (offset : Int) (hm : 570427036 &&& M = 570427036)
    (hk : Only M s₀ s) : Only M s₀ (State.servo s offset) := by
  unfold State.servo
  repeat' (first
    | with_reducible assumption
    | with_reducible first | refine State.modTime_only (hm := Only.sub (by decide) hm) (hk := ?_) .. | refine State.slewAt_only (hm := Only.sub (by decide) hm) (hk := ?_) .. | refine State.fresh_only (hm := Only.sub (by decide) hm) (hk := ?_) .. | refine State.log_only (hm := Only.sub (by decide) hm) (hk := ?_) ..
    | with_reducible refine Only.ite ?_ ?_
    | split
    | dsimp only)

theorem execTimeRsp_only {M : Nat} {s₀ : State} (n exchange t2 t3 at16 : Nat) (ack : Option Nat) (s : State) (hm : 654313118 &&& M = 654313118)
    (hk : Only M s₀ s) : Answers (execTimeRsp n exchange t2 t3 at16 ack s) (Only M s₀) := by
  unfold execTimeRsp
  repeat' (first
    | with_reducible assumption
    | with_reducible refine Answers.next ?_
    | with_reducible first | refine State.modLink_only (hm := Only.sub (by decide) hm) (hk := ?_) .. | refine State.modRep_only (hm := Only.sub (by decide) hm) (hk := ?_) .. | refine State.modTime_only (hm := Only.sub (by decide) hm) (hk := ?_) .. | refine State.setTime_only (hm := Only.sub (by decide) hm) (hk := ?_) .. | refine State.validFrame_only (hm := Only.sub (by decide) hm) (hk := ?_) .. | refine State.stamp_only (hm := Only.sub (by decide) hm) (hk := ?_) .. | refine State.servo_only (hm := Only.sub (by decide) hm) (hk := ?_) ..
    | with_reducible refine Only.ite ?_ ?_
    | split
    | dsimp only)

theorem execPacketFrame_only {M : Nat} {s₀ : State} (n : Nat) (blocks : List Block) (fecOk : Bool) (mem : BufferEcc) (s : State) (hm : 1878624158 &&& M = 1878624158)
    (hk : Only M s₀ s) : Answers (execPacketFrame n blocks fecOk mem s) (Only M s₀) := by
  unfold execPacketFrame
  repeat' (first
    | with_reducible assumption
    | with_reducible refine Answers.next ?_
    | with_reducible refine Answers.ite ?_ ?_
    | with_reducible first | refine State.packetFrame_only (hm := Only.sub (by decide) hm) (hk := ?_) .. | refine execAck_only (hm := Only.sub (by decide) hm) (hk := ?_) .. | refine execNak_only (hm := Only.sub (by decide) hm) (hk := ?_) .. | refine execCredit_only (hm := Only.sub (by decide) hm) (hk := ?_) .. | refine execCreditQuery_only (hm := Only.sub (by decide) hm) (hk := ?_) .. | refine execKeepalive_only (hm := Only.sub (by decide) hm) (hk := ?_) .. | refine State.badFrame_only (hm := Only.sub (by decide) hm) (hk := ?_) .. | refine execPower_only (hm := Only.sub (by decide) hm) (hk := ?_) .. | refine execSpareReq_only (hm := Only.sub (by decide) hm) (hk := ?_) .. | refine execSpareAck_only (hm := Only.sub (by decide) hm) (hk := ?_) .. | refine execWidth_only (hm := Only.sub (by decide) hm) (hk := ?_) .. | refine execEq_only (hm := Only.sub (by decide) hm) (hk := ?_) .. | refine execTimeReq_only (hm := Only.sub (by decide) hm) (hk := ?_) .. | refine execTimeRsp_only (hm := Only.sub (by decide) hm) (hk := ?_) ..
    | split
    | dsimp only)

theorem State.writeRingCtrl_only {M : Nat} {s₀ : State} (s : State) (x : RingName) (n hit : Nat) (hm : 1040 &&& M = 1040)
    (hk : Only M s₀ s) : Only M s₀ (State.writeRingCtrl s x n hit) := by
  unfold State.writeRingCtrl
  repeat' (first
    | with_reducible assumption
    | with_reducible first | refine State.modRingOf_only (hm := Only.sub (by decide) hm) (hk := ?_) .. | refine State.writeEnable_only (hm := Only.sub (by decide) hm) (hk := ?_) .. | refine State.writeRingReset_only (hm := Only.sub (by decide) hm) (hk := ?_) ..
    | with_reducible refine Only.ite ?_ ?_
    | split
    | dsimp only)

theorem State.writeBase_only {M : Nat} {s₀ : State} (s : State) (x : RingName) (f : Ring → Ring) (hm : 1024 &&& M = 1024)
    (hk : Only M s₀ s) : Only M s₀ (State.writeBase s x f) := by
  unfold State.writeBase
  repeat' (first
    | with_reducible assumption
    | with_reducible refine State.modRingOf_only (hm := Only.sub (by decide) hm) (hk := ?_) ..
    | with_reducible refine Only.ite ?_ ?_)

theorem State.writeLn_only {M : Nat} {s₀ : State} (s : State) (v : Bool) (hm : 1040 &&& M = 1040)
    (hk : Only M s₀ s) : Only M s₀ (State.writeLn s v) := by
  unfold State.writeLn
  repeat' (first
    | with_reducible assumption
    | with_reducible first | refine State.modHost_only (hm := Only.sub (by decide) hm) (hk := ?_) .. | refine State.emit_only (hm := Only.sub (by decide) hm) (hk := ?_) .. | refine State.modRingOf_only (hm := Only.sub (by decide) hm) (hk := ?_) ..
    | with_reducible refine Only.ite ?_ ?_
    | with_reducible refine Only.foldl (fun _ _ _ => ?_) ?_
    | split
    | dsimp only)

theorem State.writeWatch_only {M : Nat} {s₀ : State} (s : State) (n : Nat) (hm : 1040 &&& M = 1040)
    (hk : Only M s₀ s) : Only M s₀ (State.writeWatch s n) := by
  unfold State.writeWatch
  repeat' (first
    | with_reducible assumption
    | with_reducible first | refine State.modHost_only (hm := Only.sub (by decide) hm) (hk := ?_) .. | refine State.writeLn_only (hm := Only.sub (by decide) hm) (hk := ?_) ..
    | split
    | dsimp only)

theorem State.writeMsixMod_only {M : Nat} {s₀ : State} (s : State) (v n : Nat) (hm : 1040 &&& M = 1040)
    (hk : Only M s₀ s) : Only M s₀ (State.writeMsixMod s v n) := by
  unfold State.writeMsixMod
  repeat' (first
    | with_reducible assumption
    | with_reducible first | refine State.modHost_only (hm := Only.sub (by decide) hm) (hk := ?_) .. | refine State.fire_only (hm := Only.sub (by decide) hm) (hk := ?_) ..
    | with_reducible refine Only.ite ?_ ?_
    | split
    | dsimp only)

theorem State.writeMsixEntry_only {M : Nat} {s₀ : State} (s : State) (v w n : Nat) (hm : 1040 &&& M = 1040)
    (hk : Only M s₀ s) : Only M s₀ (State.writeMsixEntry s v w n) := by
  unfold State.writeMsixEntry
  repeat' (first
    | with_reducible assumption
    | with_reducible first | refine State.modHost_only (hm := Only.sub (by decide) hm) (hk := ?_) .. | refine State.maskVector_only (hm := Only.sub (by decide) hm) (hk := ?_) ..
    | with_reducible refine Only.ite ?_ ?_
    | split
    | dsimp only)

theorem State.writeResetCtrl_only {M : Nat} {s₀ : State} (s : State) (hit : Nat) (hm : 8589934486 &&& M = 8589934486)
    (hk : Only M s₀ s) : Only M s₀ (State.writeResetCtrl s hit) := by
  unfold State.writeResetCtrl
  repeat' (first
    | with_reducible assumption
    | with_reducible first | refine State.sliceResetHere_only (hm := Only.sub (by decide) hm) (hk := ?_) .. | refine State.clusterReset_only (hm := Only.sub (by decide) hm) (hk := ?_) .. | refine State.coreReset_only (hm := Only.sub (by decide) hm) (hk := ?_) .. | refine State.portReset_only (hm := Only.sub (by decide) hm) (hk := ?_) .. | refine State.warmReset_only (hm := Only.sub (by decide) hm) (hk := ?_) ..
    | with_reducible refine Only.ite ?_ ?_
    | with_reducible refine Only.foldl (fun _ _ _ => ?_) ?_
    | split
    | dsimp only)

theorem State.enablePort_only {M : Nat} {s₀ : State} (s : State) (p : Nat) (v : Bool) (hm : 670664342 &&& M = 670664342)
    (hk : Only M s₀ s) : Only M s₀ (State.enablePort s p v) := by
  unfold State.enablePort
  repeat' (first
    | with_reducible assumption
    | with_reducible first | refine State.modLink_only (hm := Only.sub (by decide) hm) (hk := ?_) .. | refine State.linkLeaves_only (hm := Only.sub (by decide) hm) (hk := ?_) ..
    | with_reducible refine Only.ite ?_ ?_
    | split
    | dsimp only)

theorem State.setForceKa_only {M : Nat} {s₀ : State} (s : State) (p : Nat) (v : Bool) (hm : 16777232 &&& M = 16777232)
    (hk : Only M s₀ s) : Only M s₀ (State.setForceKa s p v) := by
  unfold State.setForceKa
  repeat' (first
    | with_reducible assumption
    | with_reducible first | refine State.modLink_only (hm := Only.sub (by decide) hm) (hk := ?_) .. | refine State.askKeepalive_only (hm := Only.sub (by decide) hm) (hk := ?_) ..
    | with_reducible refine Only.ite ?_ ?_
    | split
    | dsimp only)

theorem State.writePort_only {M : Nat} {s₀ : State} (s : State) (p n hit : Nat) (hm : 670664598 &&& M = 670664598)
    (hk : Only M s₀ s) : Only M s₀ (State.writePort s p n hit) := by
  unfold State.writePort
  repeat' (first
    | with_reducible assumption
    | with_reducible first | refine State.modLink_only (hm := Only.sub (by decide) hm) (hk := ?_) .. | refine State.retrain_only (hm := Only.sub (by decide) hm) (hk := ?_) .. | refine State.enablePort_only (hm := Only.sub (by decide) hm) (hk := ?_) .. | refine State.setForceKa_only (hm := Only.sub (by decide) hm) (hk := ?_) ..
    | with_reducible refine Only.ite ?_ ?_
    | split
    | dsimp only)

theorem State.writeGuardCtrl_only {M : Nat} {s₀ : State} (s : State) (n hit : Nat) (hm : 2097152 &&& M = 2097152)
    (hk : Only M s₀ s) : Only M s₀ (State.writeGuardCtrl s n hit) := by
  unfold State.writeGuardCtrl
  repeat' (first
    | with_reducible assumption
    | with_reducible refine State.modSet_only (hm := Only.sub (by decide) hm) (hk := ?_) ..
    | split)

theorem State.writeSpikeParam_only {M : Nat} {s₀ : State} (s : State) (n : Nat) (hm : 2097152 &&& M = 2097152)
    (hk : Only M s₀ s) : Only M s₀ (State.writeSpikeParam s n) := by
  unfold State.writeSpikeParam
  repeat' (first
    | with_reducible assumption
    | with_reducible refine State.modSet_only (hm := Only.sub (by decide) hm) (hk := ?_) ..
    | split
    | dsimp only)

theorem State.writePwrCtrl_only {M : Nat} {s₀ : State} (s : State) (n : Nat) (hm : 134217728 &&& M = 134217728)
    (hk : Only M s₀ s) : Only M s₀ (State.writePwrCtrl s n) := by
  unfold State.writePwrCtrl
  repeat' (first
    | with_reducible assumption
    | with_reducible refine State.modPwr_only (hm := Only.sub (by decide) hm) (hk := ?_) ..
    | split)

theorem State.writeTherm_only {M : Nat} {s₀ : State} (s : State) (n hit : Nat) (hm : 134217728 &&& M = 134217728)
    (hk : Only M s₀ s) : Only M s₀ (State.writeTherm s n hit) := by
  unfold State.writeTherm
  repeat' (first
    | with_reducible assumption
    | with_reducible refine State.modPwr_only (hm := Only.sub (by decide) hm) (hk := ?_) ..
    | with_reducible refine Only.ite ?_ ?_
    | split
    | dsimp only)

theorem State.writeClusterCtrl_only {M : Nat} {s₀ : State} (s : State) (c n : Nat) (hm : 536903682 &&& M = 536903682)
    (hk : Only M s₀ s) : Only M s₀ (State.writeClusterCtrl s c n) := by
  unfold State.writeClusterCtrl
  repeat' (first
    | with_reducible assumption
    | with_reducible first | refine State.modPurse_only (hm := Only.sub (by decide) hm) (hk := ?_) .. | refine State.setHoldRun_only (hm := Only.sub (by decide) hm) (hk := ?_) ..
    | with_reducible refine Only.ite ?_ ?_
    | split
    | dsimp only)

theorem State.clearReport_only {M : Nat} {s₀ : State} (s : State) (c hit : Nat) (hm : 32768 &&& M = 32768)
    (hk : Only M s₀ s) : Only M s₀ (State.clearReport s c hit) := by
  unfold State.clearReport
  repeat' (first
    | with_reducible assumption
    | with_reducible refine State.modCluster_only (hm := Only.sub (by decide) hm) (hk := ?_) ..
    | with_reducible refine Only.ite ?_ ?_
    | split)

theorem State.writeHazMode_only {M : Nat} {s₀ : State} (s : State) (c n : Nat) (hm : 32768 &&& M = 32768)
    (hk : Only M s₀ s) : Only M s₀ (State.writeHazMode s c n) := by
  unfold State.writeHazMode
  repeat' (first
    | with_reducible assumption
    | with_reducible refine State.modCluster_only (hm := Only.sub (by decide) hm) (hk := ?_) ..
    | with_reducible refine Only.ite ?_ ?_
    | split)

theorem State.debugWrite_only {M : Nat} {s₀ : State} (s : State) (c : Nat) (f : Sequencer → Sequencer) (hm : 32768 &&& M = 32768)
    (hk : Only M s₀ s) : Only M s₀ (State.debugWrite s c f) := by
  unfold State.debugWrite
  repeat' (first
    | with_reducible assumption
    | with_reducible refine State.modSeq_only (hm := Only.sub (by decide) hm) (hk := ?_) ..
    | with_reducible refine Only.ite ?_ ?_)

theorem State.writeDdrCtrl_only {M : Nat} {s₀ : State} (s : State) (n : Nat) (hm : 1048576 &&& M = 1048576)
    (hk : Only M s₀ s) : Only M s₀ (State.writeDdrCtrl s n) := by
  unfold State.writeDdrCtrl
  repeat' (first
    | with_reducible assumption
    | with_reducible refine Only.ite ?_ ?_
    | with_reducible refine Only.set_dram (hm := Only.sub (by decide) hm) (h := ?_) ..)

theorem State.writeErrStatus_only {M : Nat} {s₀ : State} (s : State) (hit : Nat) (hm : 512 &&& M = 512)
    (hk : Only M s₀ s) : Only M s₀ (State.writeErrStatus s hit) := by
  unfold State.writeErrStatus
  repeat' (first
    | with_reducible assumption
    | with_reducible refine State.modErr_only (hm := Only.sub (by decide) hm) (hk := ?_) ..
    | split)

theorem State.writeErrCtrl_only {M : Nat} {s₀ : State} (s : State) (n hit : Nat) (hm : 512 &&& M = 512)
    (hk : Only M s₀ s) : Only M s₀ (State.writeErrCtrl s n hit) := by
  unfold State.writeErrCtrl
  repeat' (first
    | with_reducible assumption
    | with_reducible refine State.modErr_only (hm := Only.sub (by decide) hm) (hk := ?_) ..
    | with_reducible refine Only.ite ?_ ?_
    | split
    | dsimp only)

theorem State.measurePolicy_only {M : Nat} {s₀ : State} (s : State) (hm : 2147483648 &&& M = 2147483648)
    (hk : Only M s₀ s) : Only M s₀ (State.measurePolicy s) := by
  unfold State.measurePolicy
  repeat' (first
    | with_reducible assumption
    | with_reducible refine State.setSlot_only (hm := Only.sub (by decide) hm) (hk := ?_) ..)

theorem State.writePolicy_only {M : Nat} {s₀ : State} (s : State) (n hit : Nat) (hm : 2147483648 &&& M = 2147483648)
    (hk : Only M s₀ s) : Only M s₀ (State.writePolicy s n hit) := by
  unfold State.writePolicy
  repeat' (first
    | with_reducible assumption
    | with_reducible first | refine State.modSec_only (hm := Only.sub (by decide) hm) (hk := ?_) .. | refine State.measurePolicy_only (hm := Only.sub (by decide) hm) (hk := ?_) ..
    | with_reducible refine Only.ite ?_ ?_
    | split
    | dsimp only)

theorem State.writeWord_only {M : Nat} {s₀ : State} (s : State) (r : Reg) (w n hit : Nat) (hm : 8589934486 &&& M = 8589934486)
    (hk : Only M s₀ s) : Only M s₀ (State.writeWord s r w n hit) := by
  unfold State.writeWord
  repeat' (first
    | with_reducible assumption
    | with_reducible first | refine State.modCluster_only (hm := Only.sub (by decide) hm) (hk := ?_) .. | refine State.modPurse_only (hm := Only.sub (by decide) hm) (hk := ?_) .. | refine State.modHost_only (hm := Only.sub (by decide) hm) (hk := ?_) .. | refine State.modCol_only (hm := Only.sub (by decide) hm) (hk := ?_) .. | refine State.modRtr_only (hm := Only.sub (by decide) hm) (hk := ?_) .. | refine State.modPwr_only (hm := Only.sub (by decide) hm) (hk := ?_) .. | refine State.modSec_only (hm := Only.sub (by decide) hm) (hk := ?_) .. | refine State.modDev_only (hm := Only.sub (by decide) hm) (hk := ?_) .. | refine State.reidentify_only (hm := Only.sub (by decide) hm) (hk := ?_) .. | refine State.setDrain_only (hm := Only.sub (by decide) hm) (hk := ?_) .. | refine State.writeDetour_only (hm := Only.sub (by decide) hm) (hk := ?_) .. | refine State.writeInjCtrl_only (hm := Only.sub (by decide) hm) (hk := ?_) .. | refine State.writeInjAddr_only (hm := Only.sub (by decide) hm) (hk := ?_) .. | refine State.writeRingCtrl_only (hm := Only.sub (by decide) hm) (hk := ?_) .. | refine State.writeBase_only (hm := Only.sub (by decide) hm) (hk := ?_) .. | refine State.writeWatch_only (hm := Only.sub (by decide) hm) (hk := ?_) .. | refine State.writeMsixMod_only (hm := Only.sub (by decide) hm) (hk := ?_) .. | refine State.writeMsixEntry_only (hm := Only.sub (by decide) hm) (hk := ?_) .. | refine State.writeResetCtrl_only (hm := Only.sub (by decide) hm) (hk := ?_) .. | refine State.writePort_only (hm := Only.sub (by decide) hm) (hk := ?_) .. | refine State.writeGuardCtrl_only (hm := Only.sub (by decide) hm) (hk := ?_) .. | refine State.writeSpikeParam_only (hm := Only.sub (by decide) hm) (hk := ?_) .. | refine State.writePwrCtrl_only (hm := Only.sub (by decide) hm) (hk := ?_) .. | refine State.writeTherm_only (hm := Only.sub (by decide) hm) (hk := ?_) .. | refine State.writeClusterCtrl_only (hm := Only.sub (by decide) hm) (hk := ?_) .. | refine State.clearReport_only (hm := Only.sub (by decide) hm) (hk := ?_) .. | refine State.writeHazMode_only (hm := Only.sub (by decide) hm) (hk := ?_) .. | refine State.debugWrite_only (hm := Only.sub (by decide) hm) (hk := ?_) .. | refine State.writeDdrCtrl_only (hm := Only.sub (by decide) hm) (hk := ?_) .. | refine State.writeErrStatus_only (hm := Only.sub (by decide) hm) (hk := ?_) .. | refine State.writeErrCtrl_only (hm := Only.sub (by decide) hm) (hk := ?_) .. | refine State.writePolicy_only (hm := Only.sub (by decide) hm) (hk := ?_) ..
    | with_reducible refine Only.ite ?_ ?_
    | with_reducible refine Only.foldl (fun _ _ _ => ?_) ?_
    | split
    | with_reducible refine Only.set_dram (hm := Only.sub (by decide) hm) (h := ?_) ..
    | dsimp only)

theorem State.writeReg_only {M : Nat} {s₀ : State} (s : State) (off n v : Nat) (hm : 8589934486 &&& M = 8589934486)
    (hk : Only M s₀ s) : Only M s₀ (State.writeReg s off n v) := by
  unfold State.writeReg
  repeat' (first
    | with_reducible assumption
    | with_reducible first | refine State.crosses_only (hm := Only.sub (by decide) hm) (hk := ?_) .. | refine State.writeWord_only (hm := Only.sub (by decide) hm) (hk := ?_) ..
    | with_reducible refine Only.ite ?_ ?_
    | split
    | dsimp only)

theorem State.seqClear_only {M : Nat} {s₀ : State} (s : State) (c a n : Nat) (hm : 5327914496 &&& M = 5327914496)
    (hk : Only M s₀ s) : Only M s₀ (State.seqClear s c a n) := by
  unfold State.seqClear
  repeat' (first
    | with_reducible assumption
    | with_reducible first | refine State.readEmptyRows_only (hm := Only.sub (by decide) hm) (hk := ?_) .. | refine State.clearRc_only (hm := Only.sub (by decide) hm) (hk := ?_) ..
    | with_reducible refine Only.ite ?_ ?_
    | with_reducible refine Only.set_latches (hm := Only.sub (by decide) hm) (h := ?_) ..
    | dsimp only)

theorem State.seqStale_only {M : Nat} {s₀ : State} (s : State) (c a : Nat) (hm : 1837205136 &&& M = 1837205136)
    (hk : Only M s₀ s) : Only M s₀ (State.seqStale s c a) := by
  unfold State.seqStale
  repeat' (first
    | with_reducible assumption
    | with_reducible refine State.hazard_only (hm := Only.sub (by decide) hm) (hk := ?_) ..
    | with_reducible refine Only.ite ?_ ?_
    | with_reducible refine Only.foldl (fun _ _ _ => ?_) ?_
    | split
    | dsimp only)

theorem State.seqLoad_only {M : Nat} {s₀ : State} (s : State) (c g a n : Nat) (hm : 6401787792 &&& M = 6401787792)
    (hk : Only M s₀ s) : Only M s₀ (State.seqLoad s c g a n) := by
  unfold State.seqLoad
  repeat' (first
    | with_reducible assumption
    | with_reducible first | refine State.modSeq_only (hm := Only.sub (by decide) hm) (hk := ?_) .. | refine State.haltSeq_only (hm := Only.sub (by decide) hm) (hk := ?_) .. | refine State.seqMemLost_only (hm := Only.sub (by decide) hm) (hk := ?_) .. | refine State.seqClear_only (hm := Only.sub (by decide) hm) (hk := ?_) .. | refine State.seqStale_only (hm := Only.sub (by decide) hm) (hk := ?_) ..
    | with_reducible refine Only.ite ?_ ?_
    | split
    | dsimp only)

theorem State.seqStore_only {M : Nat} {s₀ : State} (s : State) (c a n v : Nat) (hm : 763463312 &&& M = 763463312)
    (hk : Only M s₀ s) : Only M s₀ (State.seqStore s c a n v) := by
  unfold State.seqStore
  repeat' (first
    | with_reducible assumption
    | with_reducible first | refine State.modCluster_only (hm := Only.sub (by decide) hm) (hk := ?_) .. | refine State.modSeq_only (hm := Only.sub (by decide) hm) (hk := ?_) .. | refine State.haltSeq_only (hm := Only.sub (by decide) hm) (hk := ?_) .. | refine State.clearReport_only (hm := Only.sub (by decide) hm) (hk := ?_) .. | refine State.writeHazMode_only (hm := Only.sub (by decide) hm) (hk := ?_) ..
    | with_reducible refine Only.ite ?_ ?_
    | split
    | dsimp only)

theorem execRegisterWrite_only {M : Nat} {s₀ : State} (by' : Accessor) (a n v : Nat) (s : State) (hm : 8589934486 &&& M = 8589934486)
    (hk : Only M s₀ s) : Answers (execRegisterWrite by' a n v s) (Only M s₀) := by
  unfold execRegisterWrite
  repeat' (first
    | with_reducible assumption
    | with_reducible refine Answers.next ?_
    | with_reducible first | refine State.onSeq_only (hm := Only.sub (by decide) hm) (hk := ?_) (hf := ?_) .. | refine State.writeReg_only (hm := Only.sub (by decide) hm) (hk := ?_) .. | refine State.seqStore_only (hm := Only.sub (by decide) hm) (hk := ?_) ..
    | intro _ _
    | split
    | dsimp only)

theorem execRegisterRead_only {M : Nat} {s₀ : State} (by' : Accessor) (a n : Nat) (s : State) (hm : 6401787794 &&& M = 6401787794)
    (hk : Only M s₀ s) : Answers (execRegisterRead by' a n s) (Only M s₀) := by
  unfold execRegisterRead
  repeat' (first
    | with_reducible assumption
    | with_reducible refine Answers.next ?_
    | with_reducible first | refine State.emit_only (hm := Only.sub (by decide) hm) (hk := ?_) .. | refine State.crosses_only (hm := Only.sub (by decide) hm) (hk := ?_) .. | refine State.onSeq_only (hm := Only.sub (by decide) hm) (hk := ?_) (hf := ?_) .. | refine State.readReg_only (hm := Only.sub (by decide) hm) (hk := ?_) .. | refine State.seqLoad_only (hm := Only.sub (by decide) hm) (hk := ?_) ..
    | intro _ _
    | split
    | dsimp only)

end Sys2Proof.Machine
end

