-- ==== Sys2Proof/Laws/OnlyDevice.lean ====
section
/-!
SUPPORT. `Only` of every operation on the state, part: statements, jobs, copies, management, security, start-up.
-/
set_option autoImplicit false
set_option linter.unusedVariables false
namespace Sys2Proof.Machine

theorem State.stmtRing_only {M : Nat} {s₀ : State} (s : State) (b : List Byte) (hm : 1040 &&& M = 1040)
    (hk : Only M s₀ s) : Only M s₀ (State.stmtRing s b) := by
  unfold State.stmtRing
  repeat' (first
    | with_reducible assumption
    | with_reducible first | refine State.modHost_only (hm := Only.sub (by decide) hm) (hk := ?_) .. | refine State.emit_only (hm := Only.sub (by decide) hm) (hk := ?_) .. | refine State.signal_only (hm := Only.sub (by decide) hm) (hk := ?_) ..
    | with_reducible refine Only.ite ?_ ?_
    | split
    | dsimp only)

theorem State.takeStmt_only {M : Nat} {s₀ : State} (s : State) (onReq : Bool) (hm : 1610613776 &&& M = 1610613776)
    (hk : Only M s₀ s) : Only M s₀ (State.takeStmt s onReq) := by
  unfold State.takeStmt
  repeat' (first
    | with_reducible assumption
    | with_reducible first | refine State.modMgmt_only (hm := Only.sub (by decide) hm) (hk := ?_) .. | refine State.stmtRing_only (hm := Only.sub (by decide) hm) (hk := ?_) ..
    | split
    | with_reducible refine Only.set_tel (hm := Only.sub (by decide) hm) (h := ?_) ..
    | dsimp only)

theorem State.stmtNow_only {M : Nat} {s₀ : State} (s : State) (hm : 1610613776 &&& M = 1610613776)
    (hk : Only M s₀ s) : Only M s₀ (State.stmtNow s) := by
  unfold State.stmtNow
  repeat' (first
    | with_reducible assumption
    | with_reducible first | refine State.modMgmt_only (hm := Only.sub (by decide) hm) (hk := ?_) .. | refine State.takeStmt_only (hm := Only.sub (by decide) hm) (hk := ?_) ..
    | with_reducible refine Only.ite ?_ ?_
    | split)

theorem State.jobLoad_only {M : Nat} {s₀ : State} (s : State) (d : Desc) (img : List Byte) (src : Option Nat) (hm : 2685963920 &&& M = 2685963920)
    (hk : Only M s₀ s) : Only M s₀ (State.jobLoad s d img src) := by
  unfold State.jobLoad
  repeat' (first
    | with_reducible assumption
    | with_reducible first | refine State.log_only (hm := Only.sub (by decide) hm) (hk := ?_) .. | refine State.complete_only (hm := Only.sub (by decide) hm) (hk := ?_) .. | refine State.loadImage_only (hm := Only.sub (by decide) hm) (hk := ?_) ..
    | with_reducible refine Only.ite ?_ ?_
    | split
    | dsimp only)

theorem execJobLoad_only {M : Nat} {s₀ : State} (d : Desc) (image : List Byte) (ecc : List (Nat × EccResult)) (s : State) (hm : 3986394768 &&& M = 3986394768)
    (hk : Only M s₀ s) : Answers (execJobLoad d image ecc s) (Only M s₀) := by
  unfold execJobLoad
  repeat' (first
    | with_reducible assumption
    | with_reducible refine Answers.next ?_
    | with_reducible refine Answers.ite ?_ ?_
    | with_reducible first | refine State.complete_only (hm := Only.sub (by decide) hm) (hk := ?_) .. | refine State.eccAll_only (hm := Only.sub (by decide) hm) (hk := ?_) .. | refine State.jobLoad_only (hm := Only.sub (by decide) hm) (hk := ?_) ..
    | with_reducible refine Only.ite ?_ ?_
    | dsimp only)

theorem execJobUnload_only {M : Nat} {s₀ : State} (d : Desc) (s : State) (hm : 2162801680 &&& M = 2162801680)
    (hk : Only M s₀ s) : Answers (execJobUnload d s) (Only M s₀) := by
  unfold execJobUnload
  repeat' (first
    | with_reducible assumption
    | with_reducible refine Answers.next ?_
    | with_reducible refine Answers.ite ?_ ?_
    | with_reducible first | refine State.complete_only (hm := Only.sub (by decide) hm) (hk := ?_) .. | refine State.extendSlot_only (hm := Only.sub (by decide) hm) (hk := ?_) .. | refine State.clearJob_only (hm := Only.sub (by decide) hm) (hk := ?_) .. | refine State.scrub_only (hm := Only.sub (by decide) hm) (hk := ?_) ..
    | dsimp only)

theorem State.forgetSlice_only {M : Nat} {s₀ : State} (s : State) (hm : 146800640 &&& M = 146800640)
    (hk : Only M s₀ s) : Only M s₀ (State.forgetSlice s) := by
  unfold State.forgetSlice
  repeat' (first
    | with_reducible assumption
    | with_reducible first | refine State.modDec_only (hm := Only.sub (by decide) hm) (hk := ?_) .. | refine State.modCol_only (hm := Only.sub (by decide) hm) (hk := ?_) .. | refine State.modPwr_only (hm := Only.sub (by decide) hm) (hk := ?_) ..
    | split
    | dsimp only)

theorem State.sliceInForce_only {M : Nat} {s₀ : State} (s : State) (id : Nat) (o e : Coord) (hm : 213909504 &&& M = 213909504)
    (hk : Only M s₀ s) : Only M s₀ (State.sliceInForce s id o e) := by
  unfold State.sliceInForce
  repeat' (first
    | with_reducible assumption
    | with_reducible first | refine State.modSlice_only (hm := Only.sub (by decide) hm) (hk := ?_) .. | refine State.forgetSlice_only (hm := Only.sub (by decide) hm) (hk := ?_) ..
    | with_reducible refine Only.ite ?_ ?_
    | split
    | dsimp only)

theorem execSliceSet_only {M : Nat} {s₀ : State} (d : Desc) (s : State) (hm : 213910544 &&& M = 213910544)
    (hk : Only M s₀ s) : Answers (execSliceSet d s) (Only M s₀) := by
  unfold execSliceSet
  repeat' (first
    | with_reducible assumption
    | with_reducible refine Answers.next ?_
    | with_reducible refine Answers.ite ?_ ?_
    | with_reducible first | refine State.modSlice_only (hm := Only.sub (by decide) hm) (hk := ?_) .. | refine State.complete_only (hm := Only.sub (by decide) hm) (hk := ?_) .. | refine State.forgetSlice_only (hm := Only.sub (by decide) hm) (hk := ?_) .. | refine State.sliceInForce_only (hm := Only.sub (by decide) hm) (hk := ?_) ..
    | split
    | dsimp only)

theorem State.finishRun_only {M : Nat} {s₀ : State} (s : State) (d x : Desc) (detail : Nat) (hm : 574654100 &&& M = 574654100)
    (hk : Only M s₀ s) : Only M s₀ (State.finishRun s d x detail) := by
  unfold State.finishRun
  repeat' (first
    | with_reducible assumption
    | with_reducible first | refine State.complete_only (hm := Only.sub (by decide) hm) (hk := ?_) .. | refine State.cmdGone_only (hm := Only.sub (by decide) hm) (hk := ?_) ..
    | dsimp only)

theorem State.stepFails_only {M : Nat} {s₀ : State} (s : State) (x : Desc) (hm : 12058624 &&& M = 12058624)
    (hk : Only M s₀ s) : Only M s₀ (State.stepFails s x) := by
  unfold State.stepFails
  repeat' (first
    | with_reducible assumption
    | with_reducible refine State.failWalk_only (hm := Only.sub (by decide) hm) (hk := ?_) ..
    | with_reducible refine Only.ite ?_ ?_)

theorem State.runEnds_only {M : Nat} {s₀ : State} (s : State) (d x : Desc) (detail : Nat) (hm : 586712724 &&& M = 586712724)
    (hk : Only M s₀ s) : Only M s₀ (State.runEnds s d x detail) := by
  unfold State.runEnds
  repeat' (first
    | with_reducible assumption
    | with_reducible first | refine State.finishRun_only (hm := Only.sub (by decide) hm) (hk := ?_) .. | refine State.stepFails_only (hm := Only.sub (by decide) hm) (hk := ?_) ..
    | with_reducible refine Only.ite ?_ ?_)

theorem execRunStep_only {M : Nat} {s₀ : State} (d : Desc) (s : State) (hm : 586712724 &&& M = 586712724)
    (hk : Only M s₀ s) : Answers (execRunStep d s) (Only M s₀) := by
  unfold execRunStep
  repeat' (first
    | with_reducible assumption
    | with_reducible refine Answers.next ?_
    | with_reducible refine Answers.ite ?_ ?_
    | with_reducible refine State.runEnds_only (hm := Only.sub (by decide) hm) (hk := ?_) ..
    | dsimp only)

theorem execRunLayers_only {M : Nat} {s₀ : State} (d : Desc) (s : State) (hm : 586712724 &&& M = 586712724)
    (hk : Only M s₀ s) : Answers (execRunLayers d s) (Only M s₀) := by
  unfold execRunLayers
  repeat' (first
    | with_reducible assumption
    | with_reducible refine Answers.next ?_
    | with_reducible refine Answers.ite ?_ ?_
    | with_reducible refine State.runEnds_only (hm := Only.sub (by decide) hm) (hk := ?_) ..
    | dsimp only)

theorem execFence_only {M : Nat} {s₀ : State} (d : Desc) (s : State) (hm : 1040 &&& M = 1040)
    (hk : Only M s₀ s) : Answers (execFence d s) (Only M s₀) := by
  unfold execFence
  repeat' (first
    | with_reducible assumption
    | with_reducible refine Answers.next ?_
    | with_reducible refine Answers.ite ?_ ?_
    | with_reducible refine State.complete_only (hm := Only.sub (by decide) hm) (hk := ?_) ..
    | dsimp only)

theorem execPreempt_only {M : Nat} {s₀ : State} (d : Desc) (s : State) (hm : 25616 &&& M = 25616)
    (hk : Only M s₀ s) : Answers (execPreempt d s) (Only M s₀) := by
  unfold execPreempt
  repeat' (first
    | with_reducible assumption
    | with_reducible refine Answers.next ?_
    | with_reducible refine Answers.ite ?_ ?_
    | with_reducible first | refine State.modHost_only (hm := Only.sub (by decide) hm) (hk := ?_) .. | refine State.complete_only (hm := Only.sub (by decide) hm) (hk := ?_) ..
    | with_reducible refine Only.ite ?_ ?_
    | split
    | with_reducible refine Only.set_preempts (hm := Only.sub (by decide) hm) (h := ?_) ..
    | with_reducible refine Only.set_preempt (hm := Only.sub (by decide) hm) (h := ?_) ..
    | dsimp only)

theorem execPreemptTakeEffect_only {M : Nat} {s₀ : State} (ecc : List (Nat × EccResult)) (s : State) (hm : 1876686484 &&& M = 1876686484)
    (hk : Only M s₀ s) : Answers (execPreemptTakeEffect ecc s) (Only M s₀) := by
  unfold execPreemptTakeEffect
  repeat' (first
    | with_reducible assumption
    | with_reducible refine Answers.next ?_
    | with_reducible refine Answers.ite ?_ ?_
    | with_reducible first | refine State.eccAll_only (hm := Only.sub (by decide) hm) (hk := ?_) .. | refine State.takePreempt_only (hm := Only.sub (by decide) hm) (hk := ?_) ..
    | dsimp only)

theorem State.resume_only {M : Nat} {s₀ : State} (s : State) (d : Desc) (x : SavedContext) (hm : 770545298 &&& M = 770545298)
    (hk : Only M s₀ s) : Only M s₀ (State.resume s d x) := by
  unfold State.resume
  repeat' (first
    | with_reducible assumption
    | with_reducible first | refine State.modHost_only (hm := Only.sub (by decide) hm) (hk := ?_) .. | refine State.wake_only (hm := Only.sub (by decide) hm) (hk := ?_) .. | refine State.complete_only (hm := Only.sub (by decide) hm) (hk := ?_) .. | refine State.reachPoint_only (hm := Only.sub (by decide) hm) (hk := ?_) .. | refine State.restoreJob_only (hm := Only.sub (by decide) hm) (hk := ?_) ..
    | with_reducible refine Only.ite ?_ ?_
    | with_reducible refine Only.foldl (fun _ _ _ => ?_) ?_
    | split
    | dsimp only)

theorem State.resumeEnds_only {M : Nat} {s₀ : State} (s : State) (d x : Desc) (hm : 586712724 &&& M = 586712724)
    (hk : Only M s₀ s) : Only M s₀ (State.resumeEnds s d x) := by
  unfold State.resumeEnds
  repeat' (first
    | with_reducible assumption
    | with_reducible first | refine State.modHost_only (hm := Only.sub (by decide) hm) (hk := ?_) .. | refine State.cmdGone_only (hm := Only.sub (by decide) hm) (hk := ?_) .. | refine State.runEnds_only (hm := Only.sub (by decide) hm) (hk := ?_) ..
    | with_reducible refine Only.ite ?_ ?_
    | with_reducible refine Only.foldl (fun _ _ _ => ?_) ?_
    | split
    | dsimp only)

theorem execResume_only {M : Nat} {s₀ : State} (d : Desc) (ecc : List (Nat × EccResult)) (s : State) (hm : 1879021206 &&& M = 1879021206)
    (hk : Only M s₀ s) : Answers (execResume d ecc s) (Only M s₀) := by
  unfold execResume
  repeat' (first
    | with_reducible assumption
    | with_reducible refine Answers.next ?_
    | with_reducible refine Answers.ite ?_ ?_
    | with_reducible first | refine State.complete_only (hm := Only.sub (by decide) hm) (hk := ?_) .. | refine State.eccAll_only (hm := Only.sub (by decide) hm) (hk := ?_) .. | refine State.resume_only (hm := Only.sub (by decide) hm) (hk := ?_) .. | refine State.resumeEnds_only (hm := Only.sub (by decide) hm) (hk := ?_) ..
    | split
    | dsimp only)

theorem execReconcileAccept_only {M : Nat} {s₀ : State} (d : Desc) (s : State) (hm : 132112 &&& M = 132112)
    (hk : Only M s₀ s) : Answers (execReconcileAccept d s) (Only M s₀) := by
  unfold execReconcileAccept
  repeat' (first
    | with_reducible assumption
    | with_reducible refine Answers.next ?_
    | with_reducible refine Answers.ite ?_ ?_
    | with_reducible first | refine State.modUnit_only (hm := Only.sub (by decide) hm) (hk := ?_) .. | refine State.complete_only (hm := Only.sub (by decide) hm) (hk := ?_) ..
    | split
    | dsimp only)

theorem execReconcileFence_only {M : Nat} {s₀ : State} (d : Desc) (s : State) (hm : 538052240 &&& M = 538052240)
    (hk : Only M s₀ s) : Answers (execReconcileFence d s) (Only M s₀) := by
  unfold execReconcileFence
  repeat' (first
    | with_reducible assumption
    | with_reducible refine Answers.next ?_
    | with_reducible refine Answers.ite ?_ ?_
    | with_reducible first | refine State.modUnit_only (hm := Only.sub (by decide) hm) (hk := ?_) .. | refine State.complete_only (hm := Only.sub (by decide) hm) (hk := ?_) .. | refine State.fenceDone_only (hm := Only.sub (by decide) hm) (hk := ?_) .. | refine State.loseChannel_only (hm := Only.sub (by decide) hm) (hk := ?_) ..
    | with_reducible refine Only.ite ?_ ?_
    | split
    | dsimp only)

theorem execReconcileEnable_only {M : Nat} {s₀ : State} (d : Desc) (s : State) (hm : 132112 &&& M = 132112)
    (hk : Only M s₀ s) : Answers (execReconcileEnable d s) (Only M s₀) := by
  unfold execReconcileEnable
  repeat' (first
    | with_reducible assumption
    | with_reducible refine Answers.next ?_
    | with_reducible refine Answers.ite ?_ ?_
    | with_reducible first | refine State.modUnit_only (hm := Only.sub (by decide) hm) (hk := ?_) .. | refine State.complete_only (hm := Only.sub (by decide) hm) (hk := ?_) ..
    | split
    | dsimp only)

theorem execStatementReq_only {M : Nat} {s₀ : State} (d : Desc) (s : State) (hm : 1610613776 &&& M = 1610613776)
    (hk : Only M s₀ s) : Answers (execStatementReq d s) (Only M s₀) := by
  unfold execStatementReq
  repeat' (first
    | with_reducible assumption
    | with_reducible refine Answers.next ?_
    | with_reducible refine Answers.ite ?_ ?_
    | with_reducible first | refine State.modMgmt_only (hm := Only.sub (by decide) hm) (hk := ?_) .. | refine State.complete_only (hm := Only.sub (by decide) hm) (hk := ?_) .. | refine State.stmtNow_only (hm := Only.sub (by decide) hm) (hk := ?_) ..
    | with_reducible refine Only.ite ?_ ?_
    | split
    | dsimp only)

theorem State.dmaToHost_only {M : Nat} {s₀ : State} (s : State) (d : Desc) (bs : List Byte) (ps : List Bool) (hm : 536872592 &&& M = 536872592)
    (hk : Only M s₀ s) : Only M s₀ (State.dmaToHost s d bs ps) := by
  unfold State.dmaToHost
  repeat' (first
    | with_reducible assumption
    | with_reducible first | refine State.emit_only (hm := Only.sub (by decide) hm) (hk := ?_) .. | refine State.complete_only (hm := Only.sub (by decide) hm) (hk := ?_) .. | refine State.hostPoison_only (hm := Only.sub (by decide) hm) (hk := ?_) ..
    | with_reducible refine Only.ite ?_ ?_
    | with_reducible refine Only.foldl (fun _ _ _ => ?_) ?_
    | split
    | dsimp only)

theorem State.dmaSend_only {M : Nat} {s₀ : State} (s : State) (arr0 : List Packet) (arr1 : Nat) (hm : 620758672 &&& M = 620758672) (hk : Only M s₀ s) : Only M s₀ (s.dmaSend arr0 arr1).2.2 := by
  induction arr0 generalizing s arr1 with
  | nil => exact hk
  | cons p ps ih =>
    unfold State.dmaSend
    split
    · exact ih _ _ (Only.pair (by assumption) (State.inject_only _ _ (hm := Only.sub (by decide) hm) hk))
    · exact Only.pair (by assumption) (State.inject_only _ _ (hm := Only.sub (by decide) hm) hk)

theorem State.dmaToRemote_only {M : Nat} {s₀ : State} (s : State) (d : Desc) (bs : List Byte) (ps : List Bool) (hm : 622364306 &&& M = 622364306)
    (hk : Only M s₀ s) : Only M s₀ (State.dmaToRemote s d bs ps) := by
  unfold State.dmaToRemote
  repeat' (first
    | with_reducible assumption
    | with_reducible first | refine State.modHost_only (hm := Only.sub (by decide) hm) (hk := ?_) .. | refine State.complete_only (hm := Only.sub (by decide) hm) (hk := ?_) .. | refine State.dmasDone_only (hm := Only.sub (by decide) hm) (hk := ?_) .. | refine State.remoteWrite_only (hm := Only.sub (by decide) hm) (hk := ?_) .. | refine State.dmaSend_only (hm := Only.sub (by decide) hm) (hk := ?_) ..
    | with_reducible refine Only.ite ?_ ?_
    | with_reducible refine Only.foldl (fun _ _ _ => ?_) ?_
    | with_reducible refine Only.triple (by assumption) ?_
    | split
    | dsimp only)

theorem State.dmaReads_only {M : Nat} {s₀ : State} (s : State) (d : Desc) (arr0 : List (Nat × Nat)) (hm : 620758672 &&& M = 620758672) (hk : Only M s₀ s) : Only M s₀ (s.dmaReads d arr0) := by
  induction arr0 generalizing s with
  | nil => exact hk
  | cons x xs ih =>
    unfold State.dmaReads
    have h := State.sendRead_only s (dmaSrcCoord d) (dmaSrc d + x.1) { handle := 0, bytes := x.2, deadline := 0, dest := 2, unit := d.num, addr := dmaDst d + x.1 } (hm := Only.sub (by decide) hm) hk
    split
    · exact ih _ (Only.pair (by assumption) h)
    · exact State.dmaEnd_only _ _ _ (hm := Only.sub (by decide) hm) (Only.pair (by assumption) h)

theorem State.dmaFromRemote_only {M : Nat} {s₀ : State} (s : State) (d : Desc) (hm : 622331536 &&& M = 622331536)
    (hk : Only M s₀ s) : Only M s₀ (State.dmaFromRemote s d) := by
  unfold State.dmaFromRemote
  repeat' (first
    | with_reducible assumption
    | with_reducible first | refine State.modHost_only (hm := Only.sub (by decide) hm) (hk := ?_) .. | refine State.copyMem_only (hm := Only.sub (by decide) hm) (hk := ?_) .. | refine State.log_only (hm := Only.sub (by decide) hm) (hk := ?_) .. | refine State.complete_only (hm := Only.sub (by decide) hm) (hk := ?_) .. | refine State.dmaReads_only (hm := Only.sub (by decide) hm) (hk := ?_) ..
    | with_reducible refine Only.ite ?_ ?_
    | split
    | dsimp only)

theorem execDmaCopy_only {M : Nat} {s₀ : State} (d : Desc) (data : List Byte) (poison : List Nat) (ecc : List (Nat × EccResult)) (s : State) (hm : 1838909074 &&& M = 1838909074)
    (hk : Only M s₀ s) : Answers (execDmaCopy d data poison ecc s) (Only M s₀) := by
  unfold execDmaCopy
  repeat' (first
    | with_reducible assumption
    | with_reducible refine Answers.next ?_
    | with_reducible refine Answers.ite ?_ ?_
    | with_reducible first | refine State.writeMem_only (hm := Only.sub (by decide) hm) (hk := ?_) .. | refine State.complete_only (hm := Only.sub (by decide) hm) (hk := ?_) .. | refine State.eccAll_only (hm := Only.sub (by decide) hm) (hk := ?_) .. | refine State.dmaToHost_only (hm := Only.sub (by decide) hm) (hk := ?_) .. | refine State.dmaToRemote_only (hm := Only.sub (by decide) hm) (hk := ?_) .. | refine State.dmaFromRemote_only (hm := Only.sub (by decide) hm) (hk := ?_) ..
    | split
    | dsimp only)

theorem State.loadSettings_only {M : Nat} {s₀ : State} (s : State) (b : List Byte) (hm : 6291456 &&& M = 6291456)
    (hk : Only M s₀ s) : Only M s₀ (State.loadSettings s b) := by
  unfold State.loadSettings
  repeat' (first
    | with_reducible assumption
    | with_reducible first | refine State.modSet_only (hm := Only.sub (by decide) hm) (hk := ?_) .. | refine State.modDec_only (hm := Only.sub (by decide) hm) (hk := ?_) ..
    | split
    | dsimp only)

theorem execSettleConfigJob_only {M : Nat} {s₀ : State} (d : Desc) (data : List Byte) (ecc : List (Nat × EccResult)) (s : State) (hm : 1845200528 &&& M = 1845200528)
    (hk : Only M s₀ s) : Answers (execSettleConfigJob d data ecc s) (Only M s₀) := by
  unfold execSettleConfigJob
  repeat' (first
    | with_reducible assumption
    | with_reducible refine Answers.next ?_
    | with_reducible refine Answers.ite ?_ ?_
    | with_reducible first | refine State.complete_only (hm := Only.sub (by decide) hm) (hk := ?_) .. | refine State.eccAll_only (hm := Only.sub (by decide) hm) (hk := ?_) .. | refine State.cfgEnds_only (hm := Only.sub (by decide) hm) (hk := ?_) .. | refine State.loadSettings_only (hm := Only.sub (by decide) hm) (hk := ?_) ..
    | split
    | dsimp only)

theorem State.loadRow_only {M : Nat} {s₀ : State} (s : State) (x : Nat × Row) (hm : 3670016 &&& M = 3670016)
    (hk : Only M s₀ s) : Only M s₀ (State.loadRow s x) := by
  unfold State.loadRow
  repeat' (first
    | with_reducible assumption
    | with_reducible first | refine State.modSet_only (hm := Only.sub (by decide) hm) (hk := ?_) .. | refine State.writeMem_only (hm := Only.sub (by decide) hm) (hk := ?_) ..
    | with_reducible refine Only.ite ?_ ?_
    | split
    | dsimp only)

theorem execSettleConfigRows_only {M : Nat} {s₀ : State} (d : Desc) (data : List Byte) (ecc : List (Nat × EccResult)) (s : State) (hm : 1841006224 &&& M = 1841006224)
    (hk : Only M s₀ s) : Answers (execSettleConfigRows d data ecc s) (Only M s₀) := by
  unfold execSettleConfigRows
  repeat' (first
    | with_reducible assumption
    | with_reducible refine Answers.next ?_
    | with_reducible refine Answers.ite ?_ ?_
    | with_reducible first | refine State.complete_only (hm := Only.sub (by decide) hm) (hk := ?_) .. | refine State.eccAll_only (hm := Only.sub (by decide) hm) (hk := ?_) .. | refine State.cfgEnds_only (hm := Only.sub (by decide) hm) (hk := ?_) .. | refine State.loadRow_only (hm := Only.sub (by decide) hm) (hk := ?_) ..
    | with_reducible refine Only.foldl (fun _ _ _ => ?_) ?_
    | split
    | dsimp only)

theorem State.invalidate_only {M : Nat} {s₀ : State} (s : State) (g : Nat) (hm : 2097152 &&& M = 2097152)
    (hk : Only M s₀ s) : Only M s₀ (State.invalidate s g) := by
  unfold State.invalidate
  repeat' (first
    | with_reducible assumption
    | with_reducible refine State.modSet_only (hm := Only.sub (by decide) hm) (hk := ?_) ..
    | with_reducible refine Only.ite ?_ ?_
    | split
    | dsimp only)

theorem execSettleConfigInvalidate_only {M : Nat} {s₀ : State} (d : Desc) (s : State) (hm : 624428688 &&& M = 624428688)
    (hk : Only M s₀ s) : Answers (execSettleConfigInvalidate d s) (Only M s₀) := by
  unfold execSettleConfigInvalidate
  repeat' (first
    | with_reducible assumption
    | with_reducible refine Answers.next ?_
    | with_reducible refine Answers.ite ?_ ?_
    | with_reducible first | refine State.complete_only (hm := Only.sub (by decide) hm) (hk := ?_) .. | refine State.cfgEnds_only (hm := Only.sub (by decide) hm) (hk := ?_) .. | refine State.invalidate_only (hm := Only.sub (by decide) hm) (hk := ?_) ..
    | with_reducible refine Only.foldl (fun _ _ _ => ?_) ?_
    | split
    | dsimp only)

theorem execSettleConfigRefresh_only {M : Nat} {s₀ : State} (d : Desc) (ecc : List (Nat × EccResult)) (s : State) (hm : 1841006224 &&& M = 1841006224)
    (hk : Only M s₀ s) : Answers (execSettleConfigRefresh d ecc s) (Only M s₀) := by
  unfold execSettleConfigRefresh
  repeat' (first
    | with_reducible assumption
    | with_reducible refine Answers.next ?_
    | with_reducible refine Answers.ite ?_ ?_
    | with_reducible first | refine State.complete_only (hm := Only.sub (by decide) hm) (hk := ?_) .. | refine State.eccAll_only (hm := Only.sub (by decide) hm) (hk := ?_) .. | refine State.refreshBlock_only (hm := Only.sub (by decide) hm) (hk := ?_) .. | refine State.cfgEnds_only (hm := Only.sub (by decide) hm) (hk := ?_) ..
    | with_reducible refine Only.foldl (fun _ _ _ => ?_) ?_
    | split
    | dsimp only)

theorem execCollectivePlan_only {M : Nat} {s₀ : State} (d : Desc) (data : List Byte) (ecc : List (Nat × EccResult)) (s : State) (hm : 1838909072 &&& M = 1838909072)
    (hk : Only M s₀ s) : Answers (execCollectivePlan d data ecc s) (Only M s₀) := by
  unfold execCollectivePlan
  repeat' (first
    | with_reducible assumption
    | with_reducible refine Answers.next ?_
    | with_reducible refine Answers.ite ?_ ?_
    | with_reducible first | refine State.modCol_only (hm := Only.sub (by decide) hm) (hk := ?_) .. | refine State.complete_only (hm := Only.sub (by decide) hm) (hk := ?_) .. | refine State.eccAll_only (hm := Only.sub (by decide) hm) (hk := ?_) ..
    | split
    | dsimp only)

theorem State.queryRecord_only {M : Nat} {s₀ : State} (s : State) (sel ix : Nat) (hm : 1610613776 &&& M = 1610613776)
    (hk : Only M s₀ s) : Only M s₀ (State.queryRecord s sel ix).2 := by
  unfold State.queryRecord
  repeat' (first
    | with_reducible assumption
    | with_reducible refine State.stmtNow_only (hm := Only.sub (by decide) hm) (hk := ?_) ..
    | split
    | dsimp only)

theorem State.queryWrite_only {M : Nat} {s₀ : State} (s : State) (d : Desc) (b : List Byte) (poisoned : Bool) (hm : 1040 &&& M = 1040)
    (hk : Only M s₀ s) : Only M s₀ (State.queryWrite s d b poisoned) := by
  unfold State.queryWrite
  repeat' (first
    | with_reducible assumption
    | with_reducible first | refine State.emit_only (hm := Only.sub (by decide) hm) (hk := ?_) .. | refine State.complete_only (hm := Only.sub (by decide) hm) (hk := ?_) ..
    | with_reducible refine Only.ite ?_ ?_)

theorem State.querySend_only {M : Nat} {s₀ : State} (s : State) (d : Desc) (dest : Coord) (hm : 620758672 &&& M = 620758672)
    (hk : Only M s₀ s) : Only M s₀ (State.querySend s d dest) := by
  unfold State.querySend
  repeat' (first
    | with_reducible assumption
    | with_reducible first | refine State.modRtr_only (hm := Only.sub (by decide) hm) (hk := ?_) .. | refine State.inject_only (hm := Only.sub (by decide) hm) (hk := ?_) .. | refine State.complete_only (hm := Only.sub (by decide) hm) (hk := ?_) ..
    | with_reducible refine Only.pair (by assumption) ?_
    | split
    | dsimp only)

theorem execQuery_only {M : Nat} {s₀ : State} (d : Desc) (s : State) (hm : 1694500496 &&& M = 1694500496)
    (hk : Only M s₀ s) : Answers (execQuery d s) (Only M s₀) := by
  unfold execQuery
  repeat' (first
    | with_reducible assumption
    | with_reducible refine Answers.next ?_
    | with_reducible refine Answers.ite ?_ ?_
    | with_reducible first | refine State.complete_only (hm := Only.sub (by decide) hm) (hk := ?_) .. | refine State.queryRecord_only (hm := Only.sub (by decide) hm) (hk := ?_) .. | refine State.queryWrite_only (hm := Only.sub (by decide) hm) (hk := ?_) .. | refine State.querySend_only (hm := Only.sub (by decide) hm) (hk := ?_) ..
    | split
    | dsimp only)

theorem execProxyRequest_only {M : Nat} {s₀ : State} (p : Packet) (s : State) (hm : 1694500496 &&& M = 1694500496)
    (hk : Only M s₀ s) : Answers (execProxyRequest p s) (Only M s₀) := by
  unfold execProxyRequest
  repeat' (first
    | with_reducible assumption
    | with_reducible refine Answers.next ?_
    | with_reducible refine Answers.ite ?_ ?_
    | with_reducible first | refine State.inject_only (hm := Only.sub (by decide) hm) (hk := ?_) .. | refine State.consumed_only (hm := Only.sub (by decide) hm) (hk := ?_) .. | refine State.queryRecord_only (hm := Only.sub (by decide) hm) (hk := ?_) ..
    | split
    | dsimp only)

theorem execProxyResponse_only {M : Nat} {s₀ : State} (tag : Nat) (arrived : Option Packet) (s : State) (hm : 620758034 &&& M = 620758034)
    (hk : Only M s₀ s) : Answers (execProxyResponse tag arrived s) (Only M s₀) := by
  unfold execProxyResponse
  repeat' (first
    | with_reducible assumption
    | with_reducible refine Answers.next ?_
    | with_reducible refine Answers.ite ?_ ?_
    | with_reducible first | refine State.modRtr_only (hm := Only.sub (by decide) hm) (hk := ?_) .. | refine State.reach_only (hm := Only.sub (by decide) hm) (hk := ?_) .. | refine State.consumed_only (hm := Only.sub (by decide) hm) (hk := ?_) .. | refine State.complete_only (hm := Only.sub (by decide) hm) (hk := ?_) .. | refine State.queryWrite_only (hm := Only.sub (by decide) hm) (hk := ?_) ..
    | split
    | dsimp only)

theorem execStatementTake_only {M : Nat} {s₀ : State} (s : State) (hm : 1610613778 &&& M = 1610613778)
    (hk : Only M s₀ s) : Answers (execStatementTake s) (Only M s₀) := by
  unfold execStatementTake
  repeat' (first
    | with_reducible assumption
    | with_reducible refine Answers.next ?_
    | with_reducible refine Answers.ite ?_ ?_
    | with_reducible first | refine State.modMgmt_only (hm := Only.sub (by decide) hm) (hk := ?_) .. | refine State.atDevice_only (hm := Only.sub (by decide) hm) (hk := ?_) .. | refine State.takeStmt_only (hm := Only.sub (by decide) hm) (hk := ?_) ..
    | split
    | dsimp only)

theorem State.reachLife_only {M : Nat} {s₀ : State} (s : State) (kind period : Nat) (hm : 536870914 &&& M = 536870914)
    (hk : Only M s₀ s) : Only M s₀ (State.reachLife s kind period) := by
  unfold State.reachLife
  repeat' (first
    | with_reducible assumption
    | with_reducible refine State.reach_only (hm := Only.sub (by decide) hm) (hk := ?_) ..)

theorem execLedgerCounters_only {M : Nat} {s₀ : State} (fails : Nat) (s : State) (hm : 536872594 &&& M = 536872594)
    (hk : Only M s₀ s) : Answers (execLedgerCounters fails s) (Only M s₀) := by
  unfold execLedgerCounters
  repeat' (first
    | with_reducible assumption
    | with_reducible refine Answers.next ?_
    | with_reducible refine Answers.ite ?_ ?_
    | with_reducible first | refine State.ledgerAppend_only (hm := Only.sub (by decide) hm) (hk := ?_) .. | refine State.reachLife_only (hm := Only.sub (by decide) hm) (hk := ?_) ..
    | dsimp only)

theorem execLedgerDaily_only {M : Nat} {s₀ : State} (fails : Nat) (s : State) (hm : 1610614418 &&& M = 1610614418)
    (hk : Only M s₀ s) : Answers (execLedgerDaily fails s) (Only M s₀) := by
  unfold execLedgerDaily
  repeat' (first
    | with_reducible assumption
    | with_reducible refine Answers.next ?_
    | with_reducible refine Answers.ite ?_ ?_
    | with_reducible first | refine State.ledgerAppend_only (hm := Only.sub (by decide) hm) (hk := ?_) .. | refine State.reachLife_only (hm := Only.sub (by decide) hm) (hk := ?_) ..
    | with_reducible refine Only.set_tel (hm := Only.sub (by decide) hm) (h := ?_) ..
    | dsimp only)

theorem State.request_only {M : Nat} {s₀ : State} (s : State) (b waiting : Nat) (f : State → State) (hf : ∀ t, Only M s₀ t → Only M s₀ (f t)) (hm : 536870912 &&& M = 536870912)
    (hk : Only M s₀ s) : Only M s₀ (State.request s b waiting f) := by
  unfold State.request
  repeat' (first
    | with_reducible assumption
    | with_reducible refine hf _ ?_
    | with_reducible refine State.modMgmt_only (hm := Only.sub (by decide) hm) (hk := ?_) ..
    | with_reducible refine Only.ite ?_ ?_
    | split)

theorem execSetEndpointId_only {M : Nat} {s₀ : State} (b waiting eid : Nat) (s : State) (hm : 536870928 &&& M = 536870928)
    (hk : Only M s₀ s) : Answers (execSetEndpointId b waiting eid s) (Only M s₀) := by
  unfold execSetEndpointId
  repeat' (first
    | with_reducible assumption
    | with_reducible refine Answers.next ?_
    | with_reducible refine Answers.ite ?_ ?_
    | with_reducible first | refine State.modMgmt_only (hm := Only.sub (by decide) hm) (hk := ?_) .. | refine State.emit_only (hm := Only.sub (by decide) hm) (hk := ?_) ..
    | split
    | dsimp only)

theorem execDynamicAddressAssign_only {M : Nat} {s₀ : State} (addr : Nat) (s : State) (hm : 536870912 &&& M = 536870912)
    (hk : Only M s₀ s) : Answers (execDynamicAddressAssign addr s) (Only M s₀) := by
  unfold execDynamicAddressAssign
  repeat' (first
    | with_reducible assumption
    | with_reducible refine Answers.next ?_
    | with_reducible refine State.modMgmt_only (hm := Only.sub (by decide) hm) (hk := ?_) ..
    | split
    | dsimp only)

theorem State.respond_only {M : Nat} {s₀ : State} (s : State) (b code : Nat) (st : Status) (body : List Byte) (hm : 16 &&& M = 16)
    (hk : Only M s₀ s) : Only M s₀ (State.respond s b code st body) := by
  unfold State.respond
  repeat' (first
    | with_reducible assumption
    | with_reducible refine State.emit_only (hm := Only.sub (by decide) hm) (hk := ?_) ..)

theorem State.vendor_only {M : Nat} {s₀ : State} (s : State) (b waiting code n : Nat) (body : List Byte) (f : State → Status × List Byte × State) (hf : ∀ t, Only M s₀ t → Only M s₀ (f t).2.2) (hm : 536870928 &&& M = 536870928)
    (hk : Only M s₀ s) : Answers (State.vendor s b waiting code n body f) (Only M s₀) := by
  unfold State.vendor
  repeat' (first
    | with_reducible assumption
    | with_reducible refine hf _ ?_
    | with_reducible refine Answers.next ?_
    | with_reducible first | refine State.request_only (hm := Only.sub (by decide) hm) (hk := ?_) (hf := ?_) .. | refine State.respond_only (hm := Only.sub (by decide) hm) (hk := ?_) ..
    | with_reducible refine Only.ite ?_ ?_
    | intro _ _
    | split
    | dsimp only)

theorem execStatementGet_only {M : Nat} {s₀ : State} (b waiting : Nat) (body : List Byte) (s : State) (hm : 536870928 &&& M = 536870928)
    (hk : Only M s₀ s) : Answers (execStatementGet b waiting body s) (Only M s₀) := by
  unfold execStatementGet
  repeat' (first
    | with_reducible assumption
    | with_reducible refine State.vendor_only (hm := Only.sub (by decide) hm) (hk := ?_) (hf := ?_) ..
    | intro _ _
    | split
    | dsimp only)

theorem execDaybookRead_only {M : Nat} {s₀ : State} (b waiting : Nat) (body : List Byte) (s : State) (hm : 536870928 &&& M = 536870928)
    (hk : Only M s₀ s) : Answers (execDaybookRead b waiting body s) (Only M s₀) := by
  unfold execDaybookRead
  repeat' (first
    | with_reducible assumption
    | with_reducible refine State.vendor_only (hm := Only.sub (by decide) hm) (hk := ?_) (hf := ?_) ..
    | intro _ _
    | split
    | dsimp only)

theorem execLedgerRead_only {M : Nat} {s₀ : State} (b waiting : Nat) (body : List Byte) (s : State) (hm : 536870928 &&& M = 536870928)
    (hk : Only M s₀ s) : Answers (execLedgerRead b waiting body s) (Only M s₀) := by
  unfold execLedgerRead
  repeat' (first
    | with_reducible assumption
    | with_reducible refine State.vendor_only (hm := Only.sub (by decide) hm) (hk := ?_) (hf := ?_) ..
    | intro _ _
    | split
    | dsimp only)

theorem execLedgerStatus_only {M : Nat} {s₀ : State} (b waiting : Nat) (body : List Byte) (s : State) (hm : 536870928 &&& M = 536870928)
    (hk : Only M s₀ s) : Answers (execLedgerStatus b waiting body s) (Only M s₀) := by
  unfold execLedgerStatus
  repeat' (first
    | with_reducible assumption
    | with_reducible refine State.vendor_only (hm := Only.sub (by decide) hm) (hk := ?_) (hf := ?_) ..
    | intro _ _
    | split
    | dsimp only)

theorem execUnitStateRead_only {M : Nat} {s₀ : State} (b waiting : Nat) (body : List Byte) (s : State) (hm : 536870928 &&& M = 536870928)
    (hk : Only M s₀ s) : Answers (execUnitStateRead b waiting body s) (Only M s₀) := by
  unfold execUnitStateRead
  repeat' (first
    | with_reducible assumption
    | with_reducible refine State.vendor_only (hm := Only.sub (by decide) hm) (hk := ?_) (hf := ?_) ..
    | intro _ _
    | split
    | dsimp only)

theorem State.setPermission_only {M : Nat} {s₀ : State} (s : State) (u : UnitName) (p : Perm) (hold : Bool) (hm : 538052240 &&& M = 538052240)
    (hk : Only M s₀ s) : Only M s₀ (State.setPermission s u p hold).2 := by
  unfold State.setPermission
  repeat' (first
    | with_reducible assumption
    | with_reducible first | refine State.modUnit_only (hm := Only.sub (by decide) hm) (hk := ?_) .. | refine State.log_only (hm := Only.sub (by decide) hm) (hk := ?_) .. | refine State.loseChannel_only (hm := Only.sub (by decide) hm) (hk := ?_) ..
    | with_reducible refine Only.ite ?_ ?_
    | split
    | dsimp only)

theorem execSetPermission_only {M : Nat} {s₀ : State} (b waiting : Nat) (body : List Byte) (s : State) (hm : 538052240 &&& M = 538052240)
    (hk : Only M s₀ s) : Answers (execSetPermission b waiting body s) (Only M s₀) := by
  unfold execSetPermission
  repeat' (first
    | with_reducible assumption
    | with_reducible first | refine State.vendor_only (hm := Only.sub (by decide) hm) (hk := ?_) (hf := ?_) .. | refine State.setPermission_only (hm := Only.sub (by decide) hm) (hk := ?_) ..
    | intro _ _
    | split
    | dsimp only)

theorem execSetPowerLimit_only {M : Nat} {s₀ : State} (b waiting : Nat) (body : List Byte) (s : State) (hm : 671090320 &&& M = 671090320)
    (hk : Only M s₀ s) : Answers (execSetPowerLimit b waiting body s) (Only M s₀) := by
  unfold execSetPowerLimit
  repeat' (first
    | with_reducible assumption
    | with_reducible first | refine State.modPwr_only (hm := Only.sub (by decide) hm) (hk := ?_) .. | refine State.log_only (hm := Only.sub (by decide) hm) (hk := ?_) .. | refine State.vendor_only (hm := Only.sub (by decide) hm) (hk := ?_) (hf := ?_) ..
    | intro _ _
    | split
    | dsimp only)

theorem execSetPurseDepth_only {M : Nat} {s₀ : State} (b waiting : Nat) (body : List Byte) (s : State) (hm : 536903696 &&& M = 536903696)
    (hk : Only M s₀ s) : Answers (execSetPurseDepth b waiting body s) (Only M s₀) := by
  unfold execSetPurseDepth
  repeat' (first
    | with_reducible assumption
    | with_reducible first | refine State.modPurse_only (hm := Only.sub (by decide) hm) (hk := ?_) .. | refine State.vendor_only (hm := Only.sub (by decide) hm) (hk := ?_) (hf := ?_) ..
    | intro _ _
    | split
    | dsimp only)

theorem State.planSet_only {M : Nat} {s₀ : State} (s : State) (p : List Byte) (hm : 2734688144 &&& M = 2734688144)
    (hk : Only M s₀ s) : Only M s₀ (State.planSet s p) := by
  unfold State.planSet
  repeat' (first
    | with_reducible assumption
    | with_reducible first | refine State.modDev_only (hm := Only.sub (by decide) hm) (hk := ?_) .. | refine State.ledgerAppend_only (hm := Only.sub (by decide) hm) (hk := ?_) .. | refine State.placeTime_only (hm := Only.sub (by decide) hm) (hk := ?_) .. | refine State.reidentifyAll_only (hm := Only.sub (by decide) hm) (hk := ?_) .. | refine State.setSlot_only (hm := Only.sub (by decide) hm) (hk := ?_) ..
    | split
    | dsimp only)

theorem execPlanWrite_only {M : Nat} {s₀ : State} (b waiting : Nat) (body : List Byte) (s : State) (hm : 2734688144 &&& M = 2734688144)
    (hk : Only M s₀ s) : Answers (execPlanWrite b waiting body s) (Only M s₀) := by
  unfold execPlanWrite
  repeat' (first
    | with_reducible assumption
    | with_reducible first | refine State.vendor_only (hm := Only.sub (by decide) hm) (hk := ?_) (hf := ?_) .. | refine State.planSet_only (hm := Only.sub (by decide) hm) (hk := ?_) ..
    | intro _ _
    | split
    | dsimp only)

theorem State.planLeave_only {M : Nat} {s₀ : State} (s : State) (hm : 2818148246 &&& M = 2818148246)
    (hk : Only M s₀ s) : Only M s₀ (State.planLeave s) := by
  unfold State.planLeave
  repeat' (first
    | with_reducible assumption
    | with_reducible first | refine State.modDev_only (hm := Only.sub (by decide) hm) (hk := ?_) .. | refine State.ledgerAppend_only (hm := Only.sub (by decide) hm) (hk := ?_) .. | refine State.placeTime_only (hm := Only.sub (by decide) hm) (hk := ?_) .. | refine State.leavePorts_only (hm := Only.sub (by decide) hm) (hk := ?_) .. | refine State.reidentifyAll_only (hm := Only.sub (by decide) hm) (hk := ?_) .. | refine State.setSlot_only (hm := Only.sub (by decide) hm) (hk := ?_) ..
    | split
    | dsimp only)

theorem execPlanRetire_only {M : Nat} {s₀ : State} (b waiting : Nat) (body : List Byte) (s : State) (hm : 2818148246 &&& M = 2818148246)
    (hk : Only M s₀ s) : Answers (execPlanRetire b waiting body s) (Only M s₀) := by
  unfold execPlanRetire
  repeat' (first
    | with_reducible assumption
    | with_reducible first | refine State.vendor_only (hm := Only.sub (by decide) hm) (hk := ?_) (hf := ?_) .. | refine State.planLeave_only (hm := Only.sub (by decide) hm) (hk := ?_) ..
    | intro _ _
    | split
    | dsimp only)

theorem execRegRead_only {M : Nat} {s₀ : State} (b waiting : Nat) (body : List Byte) (s : State) (hm : 6401590930 &&& M = 6401590930)
    (hk : Only M s₀ s) : Answers (execRegRead b waiting body s) (Only M s₀) := by
  unfold execRegRead
  repeat' (first
    | with_reducible assumption
    | with_reducible first | refine State.readReg_only (hm := Only.sub (by decide) hm) (hk := ?_) .. | refine State.vendor_only (hm := Only.sub (by decide) hm) (hk := ?_) (hf := ?_) ..
    | intro _ _
    | split
    | dsimp only)

theorem execGetSensorReading_only {M : Nat} {s₀ : State} (b waiting id : Nat) (s : State) (hm : 536870928 &&& M = 536870928)
    (hk : Only M s₀ s) : Answers (execGetSensorReading b waiting id s) (Only M s₀) := by
  unfold execGetSensorReading
  repeat' (first
    | with_reducible assumption
    | with_reducible refine Answers.next ?_
    | with_reducible first | refine State.emit_only (hm := Only.sub (by decide) hm) (hk := ?_) .. | refine State.request_only (hm := Only.sub (by decide) hm) (hk := ?_) (hf := ?_) ..
    | with_reducible refine Only.ite ?_ ?_
    | intro _ _
    | split
    | dsimp only)

theorem execSetEventReceiver_only {M : Nat} {s₀ : State} (b waiting mask : Nat) (s : State) (hm : 536870928 &&& M = 536870928)
    (hk : Only M s₀ s) : Answers (execSetEventReceiver b waiting mask s) (Only M s₀) := by
  unfold execSetEventReceiver
  repeat' (first
    | with_reducible assumption
    | with_reducible refine Answers.next ?_
    | with_reducible first | refine State.modMgmt_only (hm := Only.sub (by decide) hm) (hk := ?_) .. | refine State.emit_only (hm := Only.sub (by decide) hm) (hk := ?_) .. | refine State.request_only (hm := Only.sub (by decide) hm) (hk := ?_) (hf := ?_) ..
    | intro _ _
    | split
    | dsimp only)

theorem execPlatformEventRetry_only {M : Nat} {s₀ : State} (i : Nat) (s : State) (hm : 536870928 &&& M = 536870928)
    (hk : Only M s₀ s) : Answers (execPlatformEventRetry i s) (Only M s₀) := by
  unfold execPlatformEventRetry
  repeat' (first
    | with_reducible assumption
    | with_reducible refine Answers.next ?_
    | with_reducible refine Answers.ite ?_ ?_
    | with_reducible first | refine State.modMgmt_only (hm := Only.sub (by decide) hm) (hk := ?_) .. | refine State.emit_only (hm := Only.sub (by decide) hm) (hk := ?_) ..
    | split
    | dsimp only)

theorem execPlatformEventAck_only {M : Nat} {s₀ : State} (i : Nat) (s : State) (hm : 536870912 &&& M = 536870912)
    (hk : Only M s₀ s) : Answers (execPlatformEventAck i s) (Only M s₀) := by
  unfold execPlatformEventAck
  repeat' (first
    | with_reducible assumption
    | with_reducible refine Answers.next ?_
    | with_reducible refine State.modMgmt_only (hm := Only.sub (by decide) hm) (hk := ?_) ..
    | split
    | dsimp only)

theorem State.updateRequest_only {M : Nat} {s₀ : State} (s : State) (b waiting : Nat) (f : State → State) (hf : ∀ t, Only M s₀ t → Only M s₀ (f t)) (hm : 536870912 &&& M = 536870912)
    (hk : Only M s₀ s) : Only M s₀ (State.updateRequest s b waiting f) := by
  unfold State.updateRequest
  repeat' (first
    | with_reducible assumption
    | with_reducible refine hf _ ?_
    | with_reducible refine State.request_only (hm := Only.sub (by decide) hm) (hk := ?_) (hf := ?_) ..
    | with_reducible refine Only.ite ?_ ?_
    | intro _ _)

theorem execRequestUpdate_only {M : Nat} {s₀ : State} (b waiting cls : Nat) (s : State) (hm : 536870928 &&& M = 536870928)
    (hk : Only M s₀ s) : Answers (execRequestUpdate b waiting cls s) (Only M s₀) := by
  unfold execRequestUpdate
  repeat' (first
    | with_reducible assumption
    | with_reducible refine Answers.next ?_
    | with_reducible first | refine State.modMgmt_only (hm := Only.sub (by decide) hm) (hk := ?_) .. | refine State.emit_only (hm := Only.sub (by decide) hm) (hk := ?_) .. | refine State.updateRequest_only (hm := Only.sub (by decide) hm) (hk := ?_) (hf := ?_) ..
    | with_reducible refine Only.ite ?_ ?_
    | intro _ _
    | split
    | dsimp only)

theorem execVerifyComplete_only {M : Nat} {s₀ : State} (b waiting : Nat) (image : FwCopy) (s : State) (hm : 536872656 &&& M = 536872656)
    (hk : Only M s₀ s) : Answers (execVerifyComplete b waiting image s) (Only M s₀) := by
  unfold execVerifyComplete
  repeat' (first
    | with_reducible assumption
    | with_reducible refine Answers.next ?_
    | with_reducible first | refine State.modMgmt_only (hm := Only.sub (by decide) hm) (hk := ?_) .. | refine State.emit_only (hm := Only.sub (by decide) hm) (hk := ?_) .. | refine State.log_only (hm := Only.sub (by decide) hm) (hk := ?_) .. | refine State.updateRequest_only (hm := Only.sub (by decide) hm) (hk := ?_) (hf := ?_) ..
    | with_reducible refine Only.ite ?_ ?_
    | intro _ _
    | split
    | with_reducible refine Only.set_flash (hm := Only.sub (by decide) hm) (h := ?_) ..
    | dsimp only)

theorem State.activate_only {M : Nat} {s₀ : State} (s : State) (cls : Nat) (hm : 2684356304 &&& M = 2684356304)
    (hk : Only M s₀ s) : Only M s₀ (State.activate s cls) := by
  unfold State.activate
  repeat' (first
    | with_reducible assumption
    | with_reducible first | refine State.modMgmt_only (hm := Only.sub (by decide) hm) (hk := ?_) .. | refine State.ledgerAppend_only (hm := Only.sub (by decide) hm) (hk := ?_) .. | refine State.log_only (hm := Only.sub (by decide) hm) (hk := ?_) .. | refine State.setSlot_only (hm := Only.sub (by decide) hm) (hk := ?_) ..
    | with_reducible refine Only.ite ?_ ?_
    | split
    | with_reducible refine Only.set_flash (hm := Only.sub (by decide) hm) (h := ?_) ..
    | dsimp only)

theorem execActivateFirmware_only {M : Nat} {s₀ : State} (b waiting : Nat) (s : State) (hm : 2684356304 &&& M = 2684356304)
    (hk : Only M s₀ s) : Answers (execActivateFirmware b waiting s) (Only M s₀) := by
  unfold execActivateFirmware
  repeat' (first
    | with_reducible assumption
    | with_reducible refine Answers.next ?_
    | with_reducible first | refine State.modMgmt_only (hm := Only.sub (by decide) hm) (hk := ?_) .. | refine State.emit_only (hm := Only.sub (by decide) hm) (hk := ?_) .. | refine State.updateRequest_only (hm := Only.sub (by decide) hm) (hk := ?_) (hf := ?_) .. | refine State.activate_only (hm := Only.sub (by decide) hm) (hk := ?_) ..
    | with_reducible refine Only.foldl (fun _ _ _ => ?_) ?_
    | intro _ _
    | split
    | dsimp only)

theorem State.blockIdentity_only {M : Nat} {s₀ : State} (s : State) (hm : 2684356240 &&& M = 2684356240)
    (hk : Only M s₀ s) : Only M s₀ (State.blockIdentity s) := by
  unfold State.blockIdentity
  repeat' (first
    | with_reducible assumption
    | with_reducible first | refine State.modSec_only (hm := Only.sub (by decide) hm) (hk := ?_) .. | refine State.log_only (hm := Only.sub (by decide) hm) (hk := ?_) ..
    | with_reducible refine Only.ite ?_ ?_
    | split
    | dsimp only)

theorem State.takeLeaf_only {M : Nat} {s₀ : State} (s : State) (hm : 2684356240 &&& M = 2684356240)
    (hk : Only M s₀ s) : Only M s₀ (State.takeLeaf s).2 := by
  unfold State.takeLeaf
  repeat' (first
    | with_reducible assumption
    | with_reducible first | refine State.modSec_only (hm := Only.sub (by decide) hm) (hk := ?_) .. | refine State.ledgerAppend_only (hm := Only.sub (by decide) hm) (hk := ?_) .. | refine State.blockIdentity_only (hm := Only.sub (by decide) hm) (hk := ?_) ..
    | with_reducible refine Only.ite ?_ ?_
    | with_reducible refine Only.ite2 ?_ ?_
    | split
    | dsimp only)

theorem State.attest_only {M : Nat} {s₀ : State} (s : State) (b : Nat) (body : List Byte) (hm : 2684356240 &&& M = 2684356240)
    (hk : Only M s₀ s) : Only M s₀ (State.attest s b body) := by
  unfold State.attest
  repeat' (first
    | with_reducible assumption
    | with_reducible first | refine State.respond_only (hm := Only.sub (by decide) hm) (hk := ?_) .. | refine State.takeLeaf_only (hm := Only.sub (by decide) hm) (hk := ?_) ..
    | with_reducible refine Only.pair (by assumption) ?_
    | split
    | dsimp only)

theorem execAttestGet_only {M : Nat} {s₀ : State} (b waiting : Nat) (body : List Byte) (s : State) (hm : 2684356240 &&& M = 2684356240)
    (hk : Only M s₀ s) : Answers (execAttestGet b waiting body s) (Only M s₀) := by
  unfold execAttestGet
  repeat' (first
    | with_reducible assumption
    | with_reducible refine Answers.next ?_
    | with_reducible first | refine State.modSec_only (hm := Only.sub (by decide) hm) (hk := ?_) .. | refine State.request_only (hm := Only.sub (by decide) hm) (hk := ?_) (hf := ?_) .. | refine State.respond_only (hm := Only.sub (by decide) hm) (hk := ?_) .. | refine State.attest_only (hm := Only.sub (by decide) hm) (hk := ?_) ..
    | with_reducible refine Only.ite ?_ ?_
    | intro _ _
    | split
    | dsimp only)

theorem execTreeBuildDone_only {M : Nat} {s₀ : State} (s : State) (hm : 2684356240 &&& M = 2684356240)
    (hk : Only M s₀ s) : Answers (execTreeBuildDone s) (Only M s₀) := by
  unfold execTreeBuildDone
  repeat' (first
    | with_reducible assumption
    | with_reducible refine Answers.next ?_
    | with_reducible first | refine State.modSec_only (hm := Only.sub (by decide) hm) (hk := ?_) .. | refine State.attest_only (hm := Only.sub (by decide) hm) (hk := ?_) ..
    | with_reducible refine Only.foldl (fun _ _ _ => ?_) ?_
    | split
    | dsimp only)

theorem execChallenge_only {M : Nat} {s₀ : State} (b waiting : Nat) (s : State) (hm : 2684354584 &&& M = 2684354584)
    (hk : Only M s₀ s) : Answers (execChallenge b waiting s) (Only M s₀) := by
  unfold execChallenge
  repeat' (first
    | with_reducible assumption
    | with_reducible refine Answers.next ?_
    | with_reducible first | refine State.modSec_only (hm := Only.sub (by decide) hm) (hk := ?_) .. | refine State.fresh_only (hm := Only.sub (by decide) hm) (hk := ?_) .. | refine State.request_only (hm := Only.sub (by decide) hm) (hk := ?_) (hf := ?_) .. | refine State.respond_only (hm := Only.sub (by decide) hm) (hk := ?_) ..
    | intro _ _
    | split
    | dsimp only)

theorem State.grant_only {M : Nat} {s₀ : State} (s : State) (t : List Byte) (hm : 2684356240 &&& M = 2684356240)
    (hk : Only M s₀ s) : Only M s₀ (State.grant s t) := by
  unfold State.grant
  repeat' (first
    | with_reducible assumption
    | with_reducible first | refine State.modSec_only (hm := Only.sub (by decide) hm) (hk := ?_) .. | refine State.log_only (hm := Only.sub (by decide) hm) (hk := ?_) .. | refine State.extendSlot_only (hm := Only.sub (by decide) hm) (hk := ?_) ..
    | with_reducible refine Only.ite ?_ ?_
    | split
    | dsimp only)

theorem execPresent_only {M : Nat} {s₀ : State} (b waiting : Nat) (token key sig : List Byte) (s : State) (hm : 2684356240 &&& M = 2684356240)
    (hk : Only M s₀ s) : Answers (execPresent b waiting token key sig s) (Only M s₀) := by
  unfold execPresent
  repeat' (first
    | with_reducible assumption
    | with_reducible refine Answers.next ?_
    | with_reducible first | refine State.modSec_only (hm := Only.sub (by decide) hm) (hk := ?_) .. | refine State.log_only (hm := Only.sub (by decide) hm) (hk := ?_) .. | refine State.request_only (hm := Only.sub (by decide) hm) (hk := ?_) (hf := ?_) .. | refine State.respond_only (hm := Only.sub (by decide) hm) (hk := ?_) .. | refine State.grant_only (hm := Only.sub (by decide) hm) (hk := ?_) ..
    | with_reducible refine Only.ite ?_ ?_
    | intro _ _
    | split
    | dsimp only)

theorem execRelinquish_only {M : Nat} {s₀ : State} (b waiting : Nat) (s : State) (hm : 2684356240 &&& M = 2684356240)
    (hk : Only M s₀ s) : Answers (execRelinquish b waiting s) (Only M s₀) := by
  unfold execRelinquish
  repeat' (first
    | with_reducible assumption
    | with_reducible refine Answers.next ?_
    | with_reducible first | refine State.endRights_only (hm := Only.sub (by decide) hm) (hk := ?_) .. | refine State.request_only (hm := Only.sub (by decide) hm) (hk := ?_) (hf := ?_) .. | refine State.respond_only (hm := Only.sub (by decide) hm) (hk := ?_) ..
    | intro _ _
    | split
    | dsimp only)

theorem execNonceExpiry_only {M : Nat} {s₀ : State} (s : State) (hm : 2684354562 &&& M = 2684354562)
    (hk : Only M s₀ s) : Answers (execNonceExpiry s) (Only M s₀) := by
  unfold execNonceExpiry
  repeat' (first
    | with_reducible assumption
    | with_reducible refine Answers.next ?_
    | with_reducible first | refine State.modSec_only (hm := Only.sub (by decide) hm) (hk := ?_) .. | refine State.reach_only (hm := Only.sub (by decide) hm) (hk := ?_) ..
    | split
    | dsimp only)

theorem execRightExpiry_only {M : Nat} {s₀ : State} (maintenance : Bool) (s : State) (hm : 2684356242 &&& M = 2684356242)
    (hk : Only M s₀ s) : Answers (execRightExpiry maintenance s) (Only M s₀) := by
  unfold execRightExpiry
  repeat' (first
    | with_reducible assumption
    | with_reducible refine Answers.next ?_
    | with_reducible refine Answers.ite ?_ ?_
    | with_reducible first | refine State.modSec_only (hm := Only.sub (by decide) hm) (hk := ?_) .. | refine State.reach_only (hm := Only.sub (by decide) hm) (hk := ?_) .. | refine State.leaveMaintenance_only (hm := Only.sub (by decide) hm) (hk := ?_) ..
    | split
    | dsimp only)

theorem State.powerLoss_only {M : Nat} {s₀ : State} (s : State) (hm : 8589934470 &&& M = 8589934470) (hk : Only M s₀ s) : Only M s₀ s.powerLoss := by
  refine Only.trans hk (Only.weaken hm ?_)
  unfold State.powerLoss
  constructor <;> first | exact fun _ => rfl | exact Agree.set (by decide) _ _

theorem execAoPowerLoss_only {M : Nat} {s₀ : State} (torn : Bool) (s : State) (hm : 8589934470 &&& M = 8589934470)
    (hk : Only M s₀ s) : Answers (execAoPowerLoss torn s) (Only M s₀) := by
  unfold execAoPowerLoss
  repeat' (first
    | with_reducible assumption
    | with_reducible refine Answers.next ?_
    | with_reducible refine State.powerLoss_only (hm := Only.sub (by decide) hm) (hk := ?_) ..
    | with_reducible refine Only.ite ?_ ?_
    | with_reducible refine Only.set_ledger (hm := Only.sub (by decide) hm) (h := ?_) ..
    | dsimp only)

theorem State.readStraps_only {M : Nat} {s₀ : State} (s : State) (pins : List (List Nat)) (hm : 256 &&& M = 256)
    (hk : Only M s₀ s) : Only M s₀ (State.readStraps s pins) := by
  unfold State.readStraps
  repeat' (first
    | with_reducible assumption
    | with_reducible refine State.modDev_only (hm := Only.sub (by decide) hm) (hk := ?_) ..
    | split
    | dsimp only)

theorem State.bootClass_only {M : Nat} {s₀ : State} (s : State) (cls : Nat) (hm : 2147483712 &&& M = 2147483712)
    (hk : Only M s₀ s) : Only M s₀ (State.bootClass s cls).2.2 := by
  unfold State.bootClass
  repeat' (first
    | with_reducible assumption
    | with_reducible refine Only.ite3 ?_ ?_
    | with_reducible refine Only.set_flash_sec (hm := Only.sub (by decide) hm) (h := ?_) ..
    | dsimp only)

theorem State.bootStep_only {M : Nat} {s₀ : State} (a : List (Nat × Nat) × State) (cls : Nat) (hm : 2147483712 &&& M = 2147483712) (hk : Only M s₀ a.2) : Only M s₀ (State.bootStep a cls).2 := by
  unfold State.bootStep
  have h := State.bootClass_only a.2 cls (hm := Only.sub (by decide) hm) hk
  dsimp only
  generalize a.2.bootClass cls = p at h
  obtain ⟨ok, fell, t⟩ := p
  dsimp only at h ⊢
  split
  · exact hk
  · split
    · dsimp only; exact State.modSec_only _ _ (hm := Only.sub (by decide) hm) (State.setSlot_only _ _ _ (hm := Only.sub (by decide) hm) h)
    · split
      · dsimp only; exact State.modSec_only _ _ (hm := Only.sub (by decide) hm) h
      · dsimp only; exact State.modSec_only _ _ (hm := Only.sub (by decide) hm) h

theorem State.boot_only {M : Nat} {s₀ : State} (s : State) (hm : 2147483712 &&& M = 2147483712) (hk : Only M s₀ s) : Only M s₀ s.boot.2 := by
  unfold State.boot
  refine Only.foldl2 (fun a x h => State.bootStep_only a x (hm := Only.sub (by decide) hm) h) ?_
  exact State.setSlot_only _ _ _ (hm := Only.sub (by decide) hm) (State.setSlot_only _ _ _ (hm := Only.sub (by decide) hm) (Only.set_flash _ (Only.sub (by decide) hm) hk))

theorem State.scan_only {M : Nat} {s₀ : State} (s : State) (hm : 536872592 &&& M = 536872592)
    (hk : Only M s₀ s) : Only M s₀ (State.scan s) := by
  unfold State.scan
  repeat' (first
    | with_reducible assumption
    | with_reducible first | refine State.ledgerAppend_only (hm := Only.sub (by decide) hm) (hk := ?_) .. | refine State.log_only (hm := Only.sub (by decide) hm) (hk := ?_) ..
    | split
    | with_reducible refine Only.set_ledger (hm := Only.sub (by decide) hm) (h := ?_) ..
    | dsimp only)

theorem State.checkPosition_only {M : Nat} {s₀ : State} (s : State) (hm : 536872848 &&& M = 536872848)
    (hk : Only M s₀ s) : Only M s₀ (State.checkPosition s) := by
  unfold State.checkPosition
  repeat' (first
    | with_reducible assumption
    | with_reducible first | refine State.modDev_only (hm := Only.sub (by decide) hm) (hk := ?_) .. | refine State.log_only (hm := Only.sub (by decide) hm) (hk := ?_) ..
    | with_reducible refine Only.ite ?_ ?_
    | split
    | dsimp only)

theorem State.enableRail_only {M : Nat} {s₀ : State} (s : State) (r : Nat) (hm : 268468240 &&& M = 268468240)
    (hk : Only M s₀ s) : Only M s₀ (State.enableRail s r) := by
  unfold State.enableRail
  repeat' (first
    | with_reducible assumption
    | with_reducible first | refine State.modClock_only (hm := Only.sub (by decide) hm) (hk := ?_) .. | refine State.emit_only (hm := Only.sub (by decide) hm) (hk := ?_) ..
    | split
    | with_reducible refine Only.set_rails (hm := Only.sub (by decide) hm) (h := ?_) ..
    | dsimp only)

theorem State.refMissing_only {M : Nat} {s₀ : State} (s : State) (ref : Nat) (hm : 536872848 &&& M = 536872848)
    (hk : Only M s₀ s) : Only M s₀ (State.refMissing s ref) := by
  unfold State.refMissing
  repeat' (first
    | with_reducible assumption
    | with_reducible first | refine State.modDev_only (hm := Only.sub (by decide) hm) (hk := ?_) .. | refine State.log_only (hm := Only.sub (by decide) hm) (hk := ?_) ..
    | split)

theorem State.pcieCheck_only {M : Nat} {s₀ : State} (s : State) (hm : 1024 &&& M = 1024)
    (hk : Only M s₀ s) : Only M s₀ (State.pcieCheck s) := by
  unfold State.pcieCheck
  repeat' (first
    | with_reducible assumption
    | with_reducible refine State.modHost_only (hm := Only.sub (by decide) hm) (hk := ?_) ..
    | with_reducible refine Only.ite ?_ ?_
    | split)

theorem State.railsDone_only {M : Nat} {s₀ : State} (s : State) (hm : 1280 &&& M = 1280)
    (hk : Only M s₀ s) : Only M s₀ (State.railsDone s) := by
  unfold State.railsDone
  repeat' (first
    | with_reducible assumption
    | with_reducible first | refine State.modDev_only (hm := Only.sub (by decide) hm) (hk := ?_) .. | refine State.pcieCheck_only (hm := Only.sub (by decide) hm) (hk := ?_) ..
    | split)

theorem State.startRails_only {M : Nat} {s₀ : State} (s : State) (linkRef : Bool) (hm : 805341072 &&& M = 805341072)
    (hk : Only M s₀ s) : Only M s₀ (State.startRails s linkRef) := by
  unfold State.startRails
  repeat' (first
    | with_reducible assumption
    | with_reducible first | refine State.modDev_only (hm := Only.sub (by decide) hm) (hk := ?_) .. | refine State.enableRail_only (hm := Only.sub (by decide) hm) (hk := ?_) .. | refine State.refMissing_only (hm := Only.sub (by decide) hm) (hk := ?_) ..
    | with_reducible refine Only.ite ?_ ?_
    | split
    | dsimp only)

theorem execColdReset_only {M : Nat} {s₀ : State} (pins : List (List Nat)) (linkRef : Bool) (altered : List Nat) (s : State) (hm : 8589934550 &&& M = 8589934550)
    (hk : Only M s₀ s) : Answers (execColdReset pins linkRef altered s) (Only M s₀) := by
  unfold execColdReset
  repeat' (first
    | with_reducible assumption
    | with_reducible refine Answers.next ?_
    | with_reducible refine Answers.ite ?_ ?_
    | with_reducible first | refine State.modSec_only (hm := Only.sub (by decide) hm) (hk := ?_) .. | refine State.modDev_only (hm := Only.sub (by decide) hm) (hk := ?_) .. | refine State.total_only (hm := Only.sub (by decide) hm) (hk := ?_) .. | refine State.ledgerAppend_only (hm := Only.sub (by decide) hm) (hk := ?_) .. | refine State.log_only (hm := Only.sub (by decide) hm) (hk := ?_) .. | refine State.placeTime_only (hm := Only.sub (by decide) hm) (hk := ?_) .. | refine State.reidentifyAll_only (hm := Only.sub (by decide) hm) (hk := ?_) .. | refine State.setSlot_only (hm := Only.sub (by decide) hm) (hk := ?_) .. | refine State.powerLoss_only (hm := Only.sub (by decide) hm) (hk := ?_) .. | refine State.readStraps_only (hm := Only.sub (by decide) hm) (hk := ?_) .. | refine State.boot_only (hm := Only.sub (by decide) hm) (hk := ?_) .. | refine State.scan_only (hm := Only.sub (by decide) hm) (hk := ?_) .. | refine State.checkPosition_only (hm := Only.sub (by decide) hm) (hk := ?_) .. | refine State.startRails_only (hm := Only.sub (by decide) hm) (hk := ?_) ..
    | with_reducible refine Only.foldl (fun _ _ _ => ?_) ?_
    | split
    | with_reducible refine Only.set_ledger_settle (hm := Only.sub (by decide) hm) (h := ?_) ..
    | dsimp only)

theorem execRailPowerGood_only {M : Nat} {s₀ : State} (r : Nat) (s : State) (hm : 268469520 &&& M = 268469520)
    (hk : Only M s₀ s) : Answers (execRailPowerGood r s) (Only M s₀) := by
  unfold execRailPowerGood
  repeat' (first
    | with_reducible assumption
    | with_reducible refine Answers.next ?_
    | with_reducible refine Answers.ite ?_ ?_
    | with_reducible first | refine State.modClock_only (hm := Only.sub (by decide) hm) (hk := ?_) .. | refine State.enableRail_only (hm := Only.sub (by decide) hm) (hk := ?_) .. | refine State.railsDone_only (hm := Only.sub (by decide) hm) (hk := ?_) ..
    | with_reducible refine Only.ite ?_ ?_
    | split
    | with_reducible refine Only.set_rails (hm := Only.sub (by decide) hm) (h := ?_) ..
    | dsimp only)

theorem execRailEnableTimeout_only {M : Nat} {s₀ : State} (r : Nat) (s : State) (hm : 536872848 &&& M = 536872848)
    (hk : Only M s₀ s) : Answers (execRailEnableTimeout r s) (Only M s₀) := by
  unfold execRailEnableTimeout
  repeat' (first
    | with_reducible assumption
    | with_reducible refine Answers.next ?_
    | with_reducible refine Answers.ite ?_ ?_
    | with_reducible first | refine State.modDev_only (hm := Only.sub (by decide) hm) (hk := ?_) .. | refine State.log_only (hm := Only.sub (by decide) hm) (hk := ?_) ..
    | split
    | dsimp only)

theorem execRefclkCheck_only {M : Nat} {s₀ : State} (ref : Nat) (present : Bool) (s : State) (hm : 268469520 &&& M = 268469520)
    (hk : Only M s₀ s) : Answers (execRefclkCheck ref present s) (Only M s₀) := by
  unfold execRefclkCheck
  repeat' (first
    | with_reducible assumption
    | with_reducible refine Answers.next ?_
    | with_reducible refine Answers.ite ?_ ?_
    | with_reducible first | refine State.modDev_only (hm := Only.sub (by decide) hm) (hk := ?_) .. | refine State.enableRail_only (hm := Only.sub (by decide) hm) (hk := ?_) .. | refine State.pcieCheck_only (hm := Only.sub (by decide) hm) (hk := ?_) ..
    | with_reducible refine Only.ite ?_ ?_
    | split
    | dsimp only)

theorem execPllLock_only {M : Nat} {s₀ : State} (s : State) (hm : 557312 &&& M = 557312)
    (hk : Only M s₀ s) : Answers (execPllLock s) (Only M s₀) := by
  unfold execPllLock
  repeat' (first
    | with_reducible assumption
    | with_reducible refine Answers.next ?_
    | with_reducible refine Answers.ite ?_ ?_
    | with_reducible first | refine State.modClusters_only (hm := Only.sub (by decide) hm) (hk := ?_) .. | refine State.modDev_only (hm := Only.sub (by decide) hm) (hk := ?_) ..
    | split
    | with_reducible refine Only.set_mem (hm := Only.sub (by decide) hm) (h := ?_) ..
    | dsimp only)

theorem State.judgeModule_only {M : Nat} {s₀ : State} (s : State) (ref : Option Module) (n : Nat) (m : Module) (hm : 536872592 &&& M = 536872592)
    (hk : Only M s₀ s) : Only M s₀ (State.judgeModule s ref n m) := by
  unfold State.judgeModule
  repeat' (first
    | with_reducible assumption
    | with_reducible refine State.log_only (hm := Only.sub (by decide) hm) (hk := ?_) ..
    | with_reducible refine Only.ite ?_ ?_
    | split)

theorem State.fixDram_only {M : Nat} {s₀ : State} (s : State) (xs : List (Nat × Module)) (hm : 537921168 &&& M = 537921168)
    (hk : Only M s₀ s) : Only M s₀ (State.fixDram s xs) := by
  unfold State.fixDram
  repeat' (first
    | with_reducible assumption
    | with_reducible first | refine State.modChannel_only (hm := Only.sub (by decide) hm) (hk := ?_) .. | refine State.log_only (hm := Only.sub (by decide) hm) (hk := ?_) .. | refine State.judgeModule_only (hm := Only.sub (by decide) hm) (hk := ?_) ..
    | with_reducible refine Only.ite ?_ ?_
    | with_reducible refine Only.foldl (fun _ _ _ => ?_) ?_
    | split
    | with_reducible refine Only.set_dram (hm := Only.sub (by decide) hm) (h := ?_) ..
    | dsimp only)

theorem execDramTrainingDone_only {M : Nat} {s₀ : State} (xs : List (Nat × Module)) (s : State) (hm : 537921424 &&& M = 537921424)
    (hk : Only M s₀ s) : Answers (execDramTrainingDone xs s) (Only M s₀) := by
  unfold execDramTrainingDone
  repeat' (first
    | with_reducible assumption
    | with_reducible refine Answers.next ?_
    | with_reducible refine Answers.ite ?_ ?_
    | with_reducible first | refine State.modDev_only (hm := Only.sub (by decide) hm) (hk := ?_) .. | refine State.log_only (hm := Only.sub (by decide) hm) (hk := ?_) .. | refine State.fixDram_only (hm := Only.sub (by decide) hm) (hk := ?_) ..
    | with_reducible refine Only.ite ?_ ?_
    | split
    | dsimp only)

theorem execDramZeroDone_only {M : Nat} {s₀ : State} (s : State) (hm : 524544 &&& M = 524544)
    (hk : Only M s₀ s) : Answers (execDramZeroDone s) (Only M s₀) := by
  unfold execDramZeroDone
  repeat' (first
    | with_reducible assumption
    | with_reducible refine Answers.next ?_
    | with_reducible refine Answers.ite ?_ ?_
    | with_reducible refine State.modDev_only (hm := Only.sub (by decide) hm) (hk := ?_) ..
    | split
    | with_reducible refine Only.set_mem (hm := Only.sub (by decide) hm) (h := ?_) ..
    | dsimp only)

theorem execDeviceReady_only {M : Nat} {s₀ : State} (s : State) (hm : 671123346 &&& M = 671123346)
    (hk : Only M s₀ s) : Answers (execDeviceReady s) (Only M s₀) := by
  unfold execDeviceReady
  repeat' (first
    | with_reducible assumption
    | with_reducible refine Answers.next ?_
    | with_reducible refine Answers.ite ?_ ?_
    | with_reducible first | refine State.modClusters_only (hm := Only.sub (by decide) hm) (hk := ?_) .. | refine State.modPwr_only (hm := Only.sub (by decide) hm) (hk := ?_) .. | refine State.modDev_only (hm := Only.sub (by decide) hm) (hk := ?_) .. | refine State.reach_only (hm := Only.sub (by decide) hm) (hk := ?_) .. | refine State.log_only (hm := Only.sub (by decide) hm) (hk := ?_) .. | refine State.resetEvent_only (hm := Only.sub (by decide) hm) (hk := ?_) ..
    | split
    | dsimp only)

theorem execRollbackFuseBlow_only {M : Nat} {s₀ : State} (cls : Nat) (s : State) (hm : 536872624 &&& M = 536872624)
    (hk : Only M s₀ s) : Answers (execRollbackFuseBlow cls s) (Only M s₀) := by
  unfold execRollbackFuseBlow
  repeat' (first
    | with_reducible assumption
    | with_reducible refine Answers.next ?_
    | with_reducible refine Answers.ite ?_ ?_
    | with_reducible refine State.log_only (hm := Only.sub (by decide) hm) (hk := ?_) ..
    | with_reducible refine Only.ite ?_ ?_
    | with_reducible refine Only.set_fuses (hm := Only.sub (by decide) hm) (h := ?_) ..
    | dsimp only)

theorem execPerstDeassert_only {M : Nat} {s₀ : State} (pcieRef : Bool) (s : State) (hm : 536872848 &&& M = 536872848)
    (hk : Only M s₀ s) : Answers (execPerstDeassert pcieRef s) (Only M s₀) := by
  unfold execPerstDeassert
  repeat' (first
    | with_reducible assumption
    | with_reducible refine Answers.next ?_
    | with_reducible refine Answers.ite ?_ ?_
    | with_reducible first | refine State.modDev_only (hm := Only.sub (by decide) hm) (hk := ?_) .. | refine State.refMissing_only (hm := Only.sub (by decide) hm) (hk := ?_) .. | refine State.pcieCheck_only (hm := Only.sub (by decide) hm) (hk := ?_) ..
    | split
    | dsimp only)

theorem execWarmReset_only {M : Nat} {s₀ : State} (perst : Bool) (s : State) (hm : 8589934486 &&& M = 8589934486)
    (hk : Only M s₀ s) : Answers (execWarmReset perst s) (Only M s₀) := by
  unfold execWarmReset
  repeat' (first
    | with_reducible assumption
    | with_reducible refine Answers.next ?_
    | with_reducible first | refine State.modHost_only (hm := Only.sub (by decide) hm) (hk := ?_) .. | refine State.modDev_only (hm := Only.sub (by decide) hm) (hk := ?_) .. | refine State.warmReset_only (hm := Only.sub (by decide) hm) (hk := ?_) ..
    | with_reducible refine Only.ite ?_ ?_
    | split
    | dsimp only)

theorem execFunctionLevelReset_only {M : Nat} {s₀ : State} (s : State) (hm : 4126932880 &&& M = 4126932880)
    (hk : Only M s₀ s) : Answers (execFunctionLevelReset s) (Only M s₀) := by
  unfold execFunctionLevelReset
  repeat' (first
    | with_reducible assumption
    | with_reducible refine Answers.next ?_
    | with_reducible refine Answers.ite ?_ ?_
    | with_reducible refine State.flr_only (hm := Only.sub (by decide) hm) (hk := ?_) ..
    | dsimp only)

theorem execFlrScrubDone_only {M : Nat} {s₀ : State} (s : State) (hm : 524544 &&& M = 524544)
    (hk : Only M s₀ s) : Answers (execFlrScrubDone s) (Only M s₀) := by
  unfold execFlrScrubDone
  repeat' (first
    | with_reducible assumption
    | with_reducible refine Answers.next ?_
    | with_reducible refine Answers.ite ?_ ?_
    | with_reducible refine State.modDev_only (hm := Only.sub (by decide) hm) (hk := ?_) ..
    | split
    | with_reducible refine Only.set_mem (hm := Only.sub (by decide) hm) (h := ?_) ..
    | dsimp only)

theorem execSliceReset_only {M : Nat} {s₀ : State} (s : State) (hm : 2113636240 &&& M = 2113636240)
    (hk : Only M s₀ s) : Answers (execSliceReset s) (Only M s₀) := by
  unfold execSliceReset
  repeat' (first
    | with_reducible assumption
    | with_reducible refine Answers.next ?_
    | with_reducible refine Answers.ite ?_ ?_
    | with_reducible refine State.sliceResetHere_only (hm := Only.sub (by decide) hm) (hk := ?_) ..
    | dsimp only)

theorem execClusterReset_only {M : Nat} {s₀ : State} (c : Nat) (s : State) (hm : 2105771922 &&& M = 2105771922)
    (hk : Only M s₀ s) : Answers (execClusterReset c s) (Only M s₀) := by
  unfold execClusterReset
  repeat' (first
    | with_reducible assumption
    | with_reducible refine Answers.next ?_
    | with_reducible refine Answers.ite ?_ ?_
    | with_reducible refine State.clusterReset_only (hm := Only.sub (by decide) hm) (hk := ?_) ..
    | dsimp only)

theorem execCoreReset_only {M : Nat} {s₀ : State} (p : Nat) (s : State) (hm : 1838909328 &&& M = 1838909328)
    (hk : Only M s₀ s) : Answers (execCoreReset p s) (Only M s₀) := by
  unfold execCoreReset
  repeat' (first
    | with_reducible assumption
    | with_reducible refine Answers.next ?_
    | with_reducible refine Answers.ite ?_ ?_
    | with_reducible refine State.coreReset_only (hm := Only.sub (by decide) hm) (hk := ?_) ..
    | dsimp only)

theorem execPortReset_only {M : Nat} {s₀ : State} (n : Nat) (s : State) (hm : 670795670 &&& M = 670795670)
    (hk : Only M s₀ s) : Answers (execPortReset n s) (Only M s₀) := by
  unfold execPortReset
  repeat' (first
    | with_reducible assumption
    | with_reducible refine Answers.next ?_
    | with_reducible refine Answers.ite ?_ ?_
    | with_reducible refine State.portReset_only (hm := Only.sub (by decide) hm) (hk := ?_) ..
    | dsimp only)

end Sys2Proof.Machine
end

