-- ==== Sys2Proof/Laws/Wire.lean ====
section
/-!
SUPPORT. Bytes, packed words and blocks: what is placed is read back, lengths, bounds.
-/
set_option autoImplicit false
namespace Sys2Proof.Machine

/-! ### Numbers and bytes -/

/-- One field of a packed word. -/
theorem pack_step (lo w v a : Nat) (l : List (Nat × Nat × Nat)) : List.foldl (fun a x => a + (x.2.2 % 2 ^ x.2.1) * 2 ^ x.1) a ((lo, w, v) :: l) =
    List.foldl (fun a x => a + (x.2.2 % 2 ^ x.2.1) * 2 ^ x.1) (a + v % 2 ^ w * 2 ^ lo) l := rfl

/-- The number that n bytes of v spell. -/
theorem leNat_leBytes (n v : Nat) : leNat (leBytes n v) = v % 256 ^ n := by
  induction n generalizing v with
  | zero => simp [leBytes, leNat]; omega
  | succ n ih =>
    rw [leBytes, leNat, ih]
    simp only [BitVec.toNat_ofNat]
    show v % 256 + 256 * (v / 256 % 256 ^ n) = v % 256 ^ (n + 1)
    rw [Nat.pow_succ, Nat.mul_comm (256 ^ n) 256, Nat.mod_mul]

theorem leBytes_length (n v : Nat) : (leBytes n v).length = n := by
  induction n generalizing v with
  | zero => rfl
  | succ n ih => rw [leBytes, List.length_cons, ih]

/-- Bytes are those of the number that they spell. -/
theorem leBytes_leNat (bs : List Byte) : leBytes bs.length (leNat bs) = bs := by
  induction bs with
  | nil => rfl
  | cons b r ih =>
    rw [List.length_cons, leNat, leBytes]
    have h := b.isLt
    have e1 : (b.toNat + 256 * leNat r) / 256 = leNat r := by omega
    rw [e1, ih]
    congr 1
    apply BitVec.eq_of_toNat_eq
    rw [BitVec.toNat_ofNat]; omega

theorem leNat_lt (bs : List Byte) : leNat bs < 256 ^ bs.length := by
  induction bs with
  | nil => simp [leNat]
  | cons b r ih =>
    rw [List.length_cons, leNat, Nat.pow_succ]
    have h := b.isLt
    omega

/-- The number that joined bytes spell. -/
theorem leNat_append (a b : List Byte) : leNat (a ++ b) = leNat a + 256 ^ a.length * leNat b := by
  induction a with
  | nil => simp [leNat]
  | cons x r ih =>
    have e : 256 ^ (r.length + 1) * leNat b = 256 * (256 ^ r.length * leNat b) := by rw [Nat.pow_succ, Nat.mul_comm (256 ^ r.length) 256, Nat.mul_assoc]
    rw [List.cons_append, leNat, leNat, ih, List.length_cons, e]
    omega

theorem leNat_byte (v : Nat) (h : v < 256) : leNat (leBytes 1 v) = v := by rw [leNat_leBytes]; omega

theorem leAt_front (a b : List Byte) (n : Nat) (h : a.length = n) : leAt (a ++ b) 0 n = leNat a := by
  unfold leAt; rw [List.drop_zero, List.take_append_of_le_length (by omega), List.take_of_length_le (by omega)]

/-- A field read where it was placed. -/
theorem leAt_middle (a b c : List Byte) (off n : Nat) (h1 : a.length = off) (h2 : b.length = n) : leAt (a ++ (b ++ c)) off n = leNat b := by
  unfold leAt
  subst h1; subst h2
  rw [List.drop_left, List.take_left]

/-! ### Padding -/

theorem padTo_length (n : Nat) (bs : List Byte) : (padTo n bs).length = n := by
  unfold padTo; rw [List.length_take, List.length_append, List.length_replicate]; omega

theorem padTo_short (n : Nat) (bs : List Byte) (h : bs.length ≤ n) : padTo n bs = bs ++ List.replicate (n - bs.length) 0 := by
  unfold padTo; rw [List.take_of_length_le]; rw [List.length_append, List.length_replicate]; omega

theorem padTo_cut (n : Nat) (bs : List Byte) (h : n ≤ bs.length) : padTo n bs = bs.take n := by
  unfold padTo; rw [List.take_append_of_le_length h]

/-- Padding to a + b bytes pads the first a and the rest apart. -/
theorem padTo_add (a b : Nat) (bs : List Byte) : padTo (a + b) bs = padTo a bs ++ padTo b (bs.drop a) := by
  by_cases h : bs.length ≤ a
  · rw [padTo_short _ _ (by omega), padTo_short _ _ h, List.drop_eq_nil_of_le h, padTo_short _ _ (Nat.zero_le _), List.nil_append, List.append_assoc, List.length_nil, List.replicate_append_replicate]
    congr 2; omega
  · rw [padTo_cut a bs (by omega)]
    unfold padTo
    have e : bs ++ List.replicate (a + b - bs.length) 0 = bs.take a ++ (bs.drop a ++ List.replicate (b - (bs.drop a).length) 0) := by
      rw [← List.append_assoc, List.take_append_drop, List.length_drop]; congr 2; omega
    have la : (bs.take a).length = a := by rw [List.length_take]; omega
    rw [e, List.take_append, la, List.take_of_length_le (by omega)]
    congr 2; omega

/-! ### Bits -/

theorem whichBits_lt (n : Nat) (p : Nat → Bool) : whichBits n p < 2 ^ n := by
  unfold whichBits
  induction n with
  | zero => simp
  | succ n ih =>
    rw [List.range_succ, List.foldl_append, List.foldl_cons, List.foldl_nil, Nat.pow_succ]
    have : bnum (p n) n ≤ 2 ^ n := by cases p n <;> simp [bnum, Nat.shiftLeft_eq]
    omega

/-- A bit of a word built bit by bit. -/
theorem bit_whichBits (n : Nat) (p : Nat → Bool) : ∀ i, i < n → bit (whichBits n p) i = p i := by
  induction n with
  | zero => intro i h; omega
  | succ n ih =>
    intro i h
    have e : whichBits (n + 1) p = whichBits n p + bnum (p n) n := by
      unfold whichBits; rw [List.range_succ, List.foldl_append, List.foldl_cons, List.foldl_nil]
    have hl := whichBits_lt n p
    have hb : bnum (p n) n = (if p n then 1 else 0) * 2 ^ n := by cases p n <;> simp [bnum, Nat.shiftLeft_eq]
    unfold bit
    rw [Nat.shiftRight_eq_div_pow, e, hb]
    by_cases hi : i = n
    · subst hi
      rw [Nat.add_mul_div_right _ _ (Nat.two_pow_pos i), Nat.div_eq_of_lt hl]
      cases p i <;> rfl
    · have hin : i < n := by omega
      have k := ih i hin
      unfold bit at k
      rw [Nat.shiftRight_eq_div_pow] at k
      rw [← k]
      have hp : (2 : Nat) ^ n = 2 ^ i * (2 * 2 ^ (n - i - 1)) := by rw [← Nat.pow_succ', ← Nat.pow_add]; congr 1; omega
      rw [hp, Nat.mul_left_comm, Nat.add_mul_div_left _ _ (Nat.two_pow_pos i), Nat.mul_left_comm, Nat.add_mul_mod_self_left]

/-! ### Blocks (R283) -/

theorem crc8_lt (bs : List Byte) : crc8 bs < 256 := by
  have step : ∀ c b, crcStep 8 7 c b < 256 := by
    intro c b
    unfold crcStep
    dsimp only
    split
    · exact Nat.xor_lt_two_pow (n := 8) (Nat.mod_lt _ (by decide)) (by decide)
    · exact Nat.mod_lt _ (by decide)
  unfold crc8
  have : ∀ (l : List Byte) (c : Nat), c < 256 → l.foldl (fun c b => [7, 6, 5, 4, 3, 2, 1, 0].foldl (fun c i => crcStep 8 0x07 c (bit b.toNat i)) c) c < 256 := by
    intro l
    induction l with
    | nil => intro c h; exact h
    | cons b r ih => intro c h; exact ih _ (step _ _)
  exact this bs 0 (by decide)

/-- A block gives back its bytes and its start bit. -/
theorem block_fields (st : Bool) (bs : List Byte) (h : bs.length = 32) : blockBytes (blockOf st bs) = bs ∧ blockStart (blockOf st bs) = st := by
  have hl := leNat_lt bs
  rw [h] at hl
  have e : (blockOf st bs).toNat = bnum st + 2 * leNat bs := by
    unfold blockOf
    rw [List.take_of_length_le (by omega), BitVec.toNat_ofNat, Nat.mod_eq_of_lt]
    have : bnum st ≤ 1 := by cases st <;> decide
    have : (2 : Nat) ^ 257 = 2 * 256 ^ 32 := by decide
    omega
  constructor
  · unfold blockBytes
    rw [e]
    have e2 : (bnum st + 2 * leNat bs) / 2 = leNat bs := by
      have : bnum st ≤ 1 := by cases st <;> decide
      omega
    rw [e2]
    have := leBytes_leNat bs
    rw [h] at this; exact this
  · unfold blockStart
    rw [← BitVec.testBit_toNat, e, Nat.testBit_zero]
    cases st
    · show decide ((0 + 2 * leNat bs) % 2 = 1) = false
      have : (0 + 2 * leNat bs) % 2 = 0 := by omega
      rw [this]; rfl
    · show decide ((1 + 2 * leNat bs) % 2 = 1) = true
      have : (1 + 2 * leNat bs) % 2 = 1 := by omega
      rw [this]; rfl

theorem chunks_bytes (bs : List Byte) (k : Nat) : ((List.range k).map (fun i => blockOf (i == 0) (padTo 32 (bs.drop (32 * i))))).flatMap blockBytes = padTo (32 * k) bs := by
  induction k with
  | zero => simp [padTo]
  | succ k ih =>
    rw [List.range_succ, List.map_append, List.flatMap_append, ih, Nat.mul_succ, padTo_add]
    congr 1
    rw [List.map_cons, List.map_nil, List.flatMap_cons, List.flatMap_nil, List.append_nil, (block_fields _ _ (padTo_length _ _)).1]

/-- The bytes of the blocks that a run of bytes is sent as. -/
theorem blocksOf_bytes (bs : List Byte) : (blocksOf bs).flatMap blockBytes = padTo (32 * ((bs.length + 31) / 32)) bs := chunks_bytes bs _

theorem blocksOf_length (bs : List Byte) : (blocksOf bs).length = (bs.length + 31) / 32 := by unfold blocksOf; simp

/-- Those blocks have one start bit, on the first. -/
theorem blocksOf_oneStart (bs : List Byte) (h : 0 < bs.length) : oneStart ((blocksOf bs).map blockStart) = true := by
  have e : (blocksOf bs).map blockStart = (List.range ((bs.length + 31) / 32)).map (fun i => i == 0) := by
    unfold blocksOf
    rw [List.map_map]
    apply List.map_congr_left
    intro i _
    exact (block_fields _ _ (padTo_length _ _)).2
  rw [e]
  obtain ⟨k, hk⟩ : ∃ k, (bs.length + 31) / 32 = k + 1 := ⟨(bs.length + 31) / 32 - 1, by omega⟩
  rw [hk, List.range_succ_eq_map, List.map_cons]
  unfold oneStart
  simp

end Sys2Proof.Machine
end

