-- ==== Sys2Proof/WellFormed.lean ====
section
/-!
DEFINITION. Well-formed commands: the units that a command names exist (R15, R279, R404, R433, R445, R586), and what it carries has the
size that the manual gives it.
-/
set_option autoImplicit false
namespace Sys2Proof

/-- A ring that exists (R433). -/
def ringNamed : Machine.RingName → Bool | .sub n => decide (n < 32) | .evt | .stm => true
/-- A vault that exists (R187). -/
def vaultNamed : Machine.VaultName → Bool | .core p => decide (p < 96) | .cluster c => decide (c < 8)
/-- A requester that exists: a position of a cluster and one of its 48 contexts (R16, R405). -/
def requesterNamed : Machine.Requester → Bool | .sequencer => true | .context p i => decide (p < 12 ∧ i < 48) | .outside _ c _ => decide (c < 8)
/-- A target that exists (R160). -/
def targetNamed : Machine.Target → Bool | .core p => decide (p < 12) | .logical n => decide (n < 96) | .matrix | .vector | .all => true
/-- An agent that exists (R596). -/
def accessorNamed : Machine.Accessor → Bool | .host => true | .seq c _ g => decide (c < 8 ∧ g < 32)

/-- Whether a command is well formed. -/
def Instr.wf (i : Instr) : Bool :=
  match i with
  | .coldReset pins _ _ => decide (pins.length = 16 ∧ pins.all (fun x => x.length == 3))
  | .railPowerGood r => decide (1 ≤ r ∧ r ≤ 13)
  | .railEnableTimeout r => decide (1 ≤ r ∧ r ≤ 13)
  | .pllLock => true
  | .refclkCheck ref _ => decide (ref < 2)
  | .dramTrainingDone xs => decide (xs.all (fun x => decide (x.1 < 24)))
  | .dramZeroDone => true
  | .deviceReady => true
  | .rollbackFuseBlow cls => decide (1 ≤ cls ∧ cls ≤ 4)
  | .perstDeassert _ => true
  | .warmReset _ => true
  | .functionLevelReset => true
  | .flrScrubDone => true
  | .sliceReset => true
  | .clusterReset c => decide (c < 8)
  | .coreReset p => decide (p < 96)
  | .portReset n => decide (n < 8)
  | .doorbellPoll x _ _ => ringNamed x
  | .lnMessage x _ _ => ringNamed x
  | .descriptorFetch n raw => decide (n < 32 ∧ raw.length = 64)
  | .dispatch n => decide (n < 32)
  | .msixAgeExpiry v => decide (v < 64)
  | .ringEnable x _ => ringNamed x
  | .ringReset x => ringNamed x
  | .bar2Read _ _ _ => true
  | .bar2Write _ _ _ => true
  | .registerWrite agent _ _ _ => accessorNamed agent
  | .jobLoad d _ _ => decide (d.ring < 32 ∧ d.raw.length = 64)
  | .jobUnload d => decide (d.ring < 32 ∧ d.raw.length = 64)
  | .sliceSet d => decide (d.ring < 32 ∧ d.raw.length = 64)
  | .runStep d => decide (d.ring < 32 ∧ d.raw.length = 64)
  | .runLayers d => decide (d.ring < 32 ∧ d.raw.length = 64)
  | .dmaCopy d _ _ _ => decide (d.ring < 32 ∧ d.raw.length = 64)
  | .settleConfigJob d _ _ => decide (d.ring < 32 ∧ d.raw.length = 64)
  | .settleConfigRows d _ _ => decide (d.ring < 32 ∧ d.raw.length = 64)
  | .settleConfigInvalidate d => decide (d.ring < 32 ∧ d.raw.length = 64)
  | .settleConfigRefresh d _ => decide (d.ring < 32 ∧ d.raw.length = 64)
  | .collectivePlan d _ _ => decide (d.ring < 32 ∧ d.raw.length = 64)
  | .fence d => decide (d.ring < 32 ∧ d.raw.length = 64)
  | .preempt d => decide (d.ring < 32 ∧ d.raw.length = 64)
  | .preemptTakeEffect _ => true
  | .resume d _ => decide (d.ring < 32 ∧ d.raw.length = 64)
  | .reconcileAccept d => decide (d.ring < 32 ∧ d.raw.length = 64)
  | .reconcileFence d => decide (d.ring < 32 ∧ d.raw.length = 64)
  | .reconcileEnable d => decide (d.ring < 32 ∧ d.raw.length = 64)
  | .query d => decide (d.ring < 32 ∧ d.raw.length = 64)
  | .statementReq d => decide (d.ring < 32 ∧ d.raw.length = 64)
  | .proxyRequest _ => true
  | .proxyResponse _ _ => true
  | .lcbStore c _ x word _ => targetNamed x && decide (c < 8 ∧ word < 64)
  | .layerStart c _ x _ _ _ => targetNamed x && decide (c < 8)
  | .layerWait c _ _ => decide (c < 8)
  | .mxeIssue p _ _ _ => decide (p < 96)
  | .finishedTileDrain p i _ _ => decide (p < 96 ∧ i < 16)
  | .tileOperation p i _ op _ _ => op.legal && decide (p < 96 ∧ i < 48)
  | .loadLand p i _ _ _ => decide (p < 96 ∧ i < 48)
  | .layerComplete p => decide (p < 96)
  | .hwmClear c _ i _ => decide (c < 8 ∧ i < 1024)
  | .seqTableWrite c _ slot _ _ => decide (c < 8 ∧ slot < 256)
  | .seqTableCommit c _ _ => decide (c < 8)
  | .lossRead c _ slot => decide (c < 8 ∧ slot < 256)
  | .lossClear c _ slot _ => decide (c < 8 ∧ slot < 256)
  | .timerWait c _ n _ => decide (c < 8 ∧ n < 4)
  | .timerExpiry c => decide (c < 8)
  | .seqCompletion c _ _ => decide (c < 8)
  | .programNote c _ bytes => decide (c < 8 ∧ bytes.length = 32)
  | .seqAddressFault c _ => decide (c < 8)
  | .seqInstructionFault c _ => decide (c < 8)
  | .debugHalt c => decide (c < 8)
  | .debugResume c => decide (c < 8)
  | .deposit c who _ q _ => requesterNamed who && decide (c < 8 ∧ q < 256)
  | .take c who _ q => requesterNamed who && decide (c < 8 ∧ q < 256)
  | .takeNArm c _ q _ => decide (c < 8 ∧ q < 256)
  | .takeN c who _ q _ => requesterNamed who && decide (c < 8 ∧ q < 256)
  | .peek c who _ q => requesterNamed who && decide (c < 8 ∧ q < 256)
  | .bell c who _ q _ _ => requesterNamed who && decide (c < 8 ∧ q < 256)
  | .remoteCoinGo c who _ _ _ _ => requesterNamed who && decide (c < 8)
  | .coinPacket _ => true
  | .coinReply _ => true
  | .coinWaitTimeout c q _ => decide (c < 8 ∧ q < 256)
  | .coinGuardExpiry _ => true
  | .sealDeposit _ _ => true
  | .vaultScrub v _ => vaultNamed v
  | .vaultSpareDone v _ => vaultNamed v
  | .dramPatrolScrub n _ _ => decide (n < 24)
  | .dramTrackingUpdate n _ _ _ => decide (n < 24)
  | .softPpr n _ _ => decide (n < 24)
  | .remoteWrite _ => true
  | .readReq _ _ => true
  | .readRsp _ => true
  | .readErr _ => true
  | .readTimeout _ => true
  | .landing l _ => decide (l.group < 4096 ∧ l.micro < 65536)
  | .settleContribution _ _ => true
  | .settleWalkEnd _ => true
  | .stmtTimeout => true
  | .spikeReset => true
  | .collectiveStart c _ _ _ _ _ => decide (c < 8)
  | .reduceSegment _ _ _ => true
  | .gatherSegment _ => true
  | .collectiveEnd _ _ => true
  | .statementCombine _ _ _ => true
  | .statementBroadcast _ _ _ => true
  | .pointBarrierCombine _ _ => true
  | .pointBarrierBroadcast _ => true
  | .packetFrame n _ _ _ => decide (n < 8)
  | .ack n _ => decide (n < 8)
  | .nak n _ _ => decide (n < 8)
  | .ackTimeout n => decide (n < 8)
  | .credit n vc _ _ => decide (n < 8 ∧ vc < 2)
  | .creditQuery n _ => decide (n < 8)
  | .creditLate n => decide (n < 8)
  | .keepalive n _ => decide (n < 8)
  | .keepaliveSend n => decide (n < 8)
  | .linkPartnerLost n => decide (n < 8)
  | .signalDetect n => decide (n < 8)
  | .linkUp n mode half _ _ _ => decide (n < 8 ∧ mode ≤ 3 ∧ half ≤ 1)
  | .trainingTimeout n => decide (n < 8)
  | .trainingRetry n => decide (n < 8)
  | .retrain n => decide (n < 8)
  | .forceKeepalive n _ => decide (n < 8)
  | .keepaliveIdle n => decide (n < 8)
  | .power n _ _ => decide (n < 8)
  | .keepaliveExit n => decide (n < 8)
  | .laneSample n xs => decide (n < 8) && xs.all (fun x => decide (x.1 < 17))
  | .laneFail n l _ => decide (n < 8 ∧ l < 17)
  | .spareReq n l _ => decide (n < 8 ∧ l < 17)
  | .spareAck n l _ _ => decide (n < 8 ∧ l < 17)
  | .spareSwitch n => decide (n < 8)
  | .sparingDone n => decide (n < 8)
  | .sparingTimeout n => decide (n < 8)
  | .width n _ _ _ _ _ => decide (n < 8)
  | .eq n l _ _ _ => decide (n < 8 ∧ l < 17)
  | .eqStep n l _ _ _ => decide (n < 8 ∧ l < 17)
  | .timeExchange _ => true
  | .timeReq n _ _ _ _ => decide (n < 8)
  | .timeRsp n _ _ _ _ _ => decide (n < 8)
  | .identity n _ => decide (n < 8)
  | .identityRepeat n => decide (n < 8)
  | .identityTimeout n => decide (n < 8)
  | .reidentify n => decide (n < 8)
  | .partnerMissing n => decide (n < 8)
  | .sliceNotice n _ => decide (n < 8)
  | .routeStall n _ vc => decide (n < 8 ∧ vc < 2)
  | .drain _ => true
  | .detourWrite t e _ => decide (t < 9 ∧ e < 16)
  | .purseRefillTick => true
  | .rateRecompute => true
  | .thermalSample ts => decide (ts.length = 64)
  | .paceRound => true
  | .paceCombine _ => true
  | .paceBroadcast _ => true
  | .powerBrake => true
  | .powerBrakeRelease => true
  | .clockGate c => decide (c < 8)
  | .powerGate c => decide (c < 8)
  | .clusterWake c => decide (c < 8)
  | .holdRun c _ => decide (c < 8)
  | .deepIdleEntry => true
  | .deepIdleExit => true
  | .avsUpdate c _ _ _ => decide (c < 8)
  | .droopDetect c => decide (c < 8)
  | .regulatorRead xs => xs.all (fun x => decide (x.1 < 18))
  | .railUndervoltage r => decide (r < 14)
  | .railFault r _ => decide (r < 14)
  | .cdcTimeout _ _ _ => true
  | .stateCompare => true
  | .coreWatchdog p => decide (p < 96)
  | .seqWatchdog c => decide (c < 8)
  | .bucelRestart => true
  | .securityAlarm sensor => decide (sensor < 8)
  | .injectArm _ _ => true
  | .statementTake => true
  | .ledgerCounters _ => true
  | .ledgerDaily _ => true
  | .setEndpointId b _ eid => decide (b < 3 ∧ eid < 256)
  | .dynamicAddressAssign _ => true
  | .statementGet b _ _ => decide (b < 3)
  | .daybookRead b _ _ => decide (b < 3)
  | .ledgerRead b _ _ => decide (b < 3)
  | .ledgerStatus b _ _ => decide (b < 3)
  | .unitStateRead b _ _ => decide (b < 3)
  | .setPermission b _ _ => decide (b < 3)
  | .setPowerLimit b _ _ => decide (b < 3)
  | .setPurseDepth b _ _ => decide (b < 3)
  | .planWrite b _ _ => decide (b < 3)
  | .planRetire b _ _ => decide (b < 3)
  | .regRead b _ _ => decide (b < 3)
  | .attestGet b _ _ => decide (b < 3)
  | .treeBuildDone => true
  | .challenge b _ => decide (b < 3)
  | .present b _ _ _ _ => decide (b < 3)
  | .relinquish b _ => decide (b < 3)
  | .nonceExpiry => true
  | .rightExpiry _ => true
  | .setEventReceiver b _ _ => decide (b < 3)
  | .platformEventRetry _ => true
  | .getSensorReading b _ _ => decide (b < 3)
  | .requestUpdate b _ _ => decide (b < 3)
  | .verifyComplete b _ _ => decide (b < 3)
  | .activateFirmware b _ => decide (b < 3)
  | .aoPowerLoss _ => true
  | .railRecovery r => decide (r < 14)
  | .seqMemUncorrected c => decide (c < 8)
  | .bucelRestartComplete => true
  | .widthSwitch n => decide (n < 8)
  | .registerRead agent _ _ => accessorNamed agent
  | .msixVectorUnmask v => decide (v < 64)
  | .platformEventAck _ => true
  | .hostLinkError _ => true

end Sys2Proof
end

