-- ==== Sys2Proof/Tests/Slice0.lean ====
section
/-!
SUPPORT. The author's own tests: ill-formed commands are refused, the hypotheses of every statement can be met clause by clause, at the
bounds of its operands, and the manual's worked examples come out as the manual prints them.
-/
set_option autoImplicit false
set_option maxRecDepth 20000
open Sys2Proof Sys2Proof.Machine

namespace Sys2Proof.Tests
-- One theorem at a time: a kernel evaluation waits for every earlier declaration, and each that waits would take a thread of its own.
set_option Elab.async false
/-! ### Small states -/

/-- Port 0 has an UP link, with the fields that k changes. -/
def linked (k : Link) : State := { ports := [(0, { link := if k.st = .down then { k with st := .up } else k })] }
/-- Cluster 0 has a sequencer that runs. -/
def issuing : State := { clusters := [(0, { seq := { st := .running } })] }
/-- A local packet with nothing in it. -/
def note : Packet := { channel := 0, kind := 0, dest := {}, src := {}, addr := 0, payload := [] }
/-- An identity packet of 64 bytes. -/
def identityNote : Packet := { note with addr := 1, payload := padTo 64 [1] }
/-- A descriptor of ring 0 with an opcode and some bytes. -/
def command (op : Nat) (bytes : List (Nat × Nat)) : Desc :=
  ⟨0, 0, (List.range 64).map (fun i => BitVec.ofNat 8 (if i = 0 then op else ((bytes.find? (fun x => x.1 == i)).map (·.2)).getD 0))⟩
/-- The same, in flight. -/
def holding (op : Nat) (bytes : List (Nat × Nat)) : State := { host := { inflight := [command op bytes] } }
/-- A job is loaded and ring 0 has a RUN_LAYERS of cluster 0 to dispatch. -/
def runnable : State :=
  { job := { loaded := true }, dev := { ready := true }, time := { tstate := 2, isSet := true }
    host := { rings := [(0, { enable := true, st := .running, waiting := [command 5 [(0x10, 1)]] })] } }
theorem reset_memory_ok : State.reset.memoryOk := ⟨by decide, fun _ h => by cases h⟩
/-- n bytes with little-endian fields (offset, length, value). -/
def layout (n : Nat) (l : List (Nat × Nat × Nat)) : List Byte :=
  (List.range n).map (fun i => match l.find? (fun x => decide (x.1 ≤ i) && decide (i < x.1 + x.2.1)) with
    | some x => BitVec.ofNat 8 (x.2.2 / 256 ^ (i - x.1))
    | none => 0)
/-- A descriptor of ring 0 with fields. -/
def descriptor (op : Nat) (l : List (Nat × Nat × Nat)) : Desc := ⟨0, 0, layout 64 ((0, 1, op) :: l)⟩
/-- The same, in flight in a device with one populated DRAM channel. -/
def flying (op : Nat) (l : List (Nat × Nat × Nat)) : State :=
  { host := { inflight := [descriptor op l] }, dram := { used := [0], moduleGb := 64 } }
/-- A job image with one section, of 64 zero bytes of IMEM (R171, R172). -/
def image : List Byte :=
  let head := layout 64 [(0, 4, 0x1A494745), (4, 2, 1), (8, 2, 128), (0x0A, 2, 1), (0x10, 8, 192), (0x18, 8, 128), (0x20, 2, 0x0096), (0x28, 4, 0x00960001)]
  let table := layout 64 [(0, 2, 1), (2, 1, 0xFF), (3, 1, 1), (16, 8, 64)]
  head ++ sha256 (head ++ table) ++ List.replicate 32 0 ++ table
/-- A placed device at position 0 of a slice of four devices on axis W. -/
def sliced : State :=
  { dev := { plan := some (layout 64 [(0, 4, 0x01010104)]), posState := 0 }
    rtr := { slice := { st := 1, id := 5, extent := ⟨4, 1, 1, 1⟩ } } }
/-- A packet of the slice from position 1 on axis W. -/
def fromOne (channel kind addr : Nat) (payload : List Byte) : Packet :=
  { channel := channel, kind := kind, dest := {}, src := ⟨1, 0, 0, 0⟩, addr := addr, payload := payload }
/-- A valid row of one group of 16 weights, with BF16 working copies. -/
def oneRow : Row := layout 256 [(0x60, 8, 0x1009), (0x70, 8, 1), (0x78, 8, 0x1000), (0x80, 8, 0x2000), (0x88, 8, 0x3000), (0x90, 8, 0x4000)]
/-- A plan entry: ALL_REDUCE of F32 on axis W, one unit in each chunk, with a completion coin. -/
def planEntryOf (op : Nat) : List Byte := layout 64 [(0, 1, op), (1, 1, 1), (3, 1, 0x80), (0x10, 8, 0x1000), (0x20, 8, 0x2000), (0x30, 8, 64)]
/-- A controller that runs and has an EID. -/
def managed : State := { dev := { stage := 1 }, mgmt := { eid := 8 } }
/-- An LCB of a core that computes nothing. -/
def idleLcb : List Byte := layout 512 [(0, 1, 1), (0x30, 4, 0x3F800000), (0x38, 4, 0x3F800000), (0x80, 8, clusterVaultBase), (0xA8, 8, clusterVaultBase)]
/-- Core 0 runs a layer. -/
def layered : State := { cores := [(0, { running := some { lcb := idleLcb } })], clusters := [(0, { haz := { modeInForce := 0 } })] }
theorem flying_lost (op : Nat) (l : List (Nat × Nat × Nat)) (k : Nat) : (flying op l).lostAt k = false := by
  simp [State.lostAt, flying, tget]
theorem row_apart (k : Nat) (h1 : rowG oneRow + 0 * 2 * rowN oneRow ≤ k) (h2 : k < rowG oneRow + (0 + 1) * 2 * rowN oneRow) :
    k ≠ rowGs oneRow + 0 ∧ k ≠ rowPres oneRow + 0 / 8 ∧ rowGs oneRow + 0 ≠ rowPres oneRow + 0 / 8 := by
  have a : rowG oneRow = 0x1000 := by decide +kernel
  have b : rowGs oneRow = 0x2000 := by decide +kernel
  have c : rowPres oneRow = 0x3000 := by decide +kernel
  have d : rowN oneRow = 16 := by decide +kernel
  omega

/-! ### Well-formed commands -/

def illFormed1 : List Instr := [
  .coldReset [] false [], .coldReset (List.replicate 16 []) false [], .railPowerGood 14,
  .railPowerGood 0, .railEnableTimeout 14, .railEnableTimeout 0,
  .refclkCheck 2 false, .dramTrainingDone [(24, ⟨0, false, false, 0, false, false, 0⟩)], .rollbackFuseBlow 5,
  .rollbackFuseBlow 0, .clusterReset 8, .coreReset 96,
  .portReset 8, .doorbellPoll (.sub 32) 0 0, .lnMessage (.sub 32) 0 0,
  .descriptorFetch 32 (List.replicate 64 0), .descriptorFetch 31 [], .dispatch 32,
  .msixAgeExpiry 64, .ringEnable (.sub 32) false, .ringReset (.sub 32),
  .registerWrite (.seq 8 {} 0) 0 0 0, .registerWrite (.seq 0 {} 32) 0 0 0, .jobLoad { command 0 [] with ring := 32 } [] [],
  .jobLoad { command 0 [] with raw := [] } [] [], .jobUnload { command 0 [] with ring := 32 }, .jobUnload { command 0 [] with raw := [] },
  .sliceSet { command 0 [] with ring := 32 }, .sliceSet { command 0 [] with raw := [] }, .runStep { command 0 [] with ring := 32 }]
def illFormed2 : List Instr := [
  .runStep { command 0 [] with raw := [] }, .runLayers { command 0 [] with ring := 32 }, .runLayers { command 0 [] with raw := [] },
  .dmaCopy { command 0 [] with ring := 32 } [] [] [], .dmaCopy { command 0 [] with raw := [] } [] [] [], .settleConfigJob { command 0 [] with ring := 32 } [] [],
  .settleConfigJob { command 0 [] with raw := [] } [] [], .settleConfigRows { command 0 [] with ring := 32 } [] [], .settleConfigRows { command 0 [] with raw := [] } [] [],
  .settleConfigInvalidate { command 0 [] with ring := 32 }, .settleConfigInvalidate { command 0 [] with raw := [] }, .settleConfigRefresh { command 0 [] with ring := 32 } [],
  .settleConfigRefresh { command 0 [] with raw := [] } [], .collectivePlan { command 0 [] with ring := 32 } [] [], .collectivePlan { command 0 [] with raw := [] } [] [],
  .fence { command 0 [] with ring := 32 }, .fence { command 0 [] with raw := [] }, .preempt { command 0 [] with ring := 32 },
  .preempt { command 0 [] with raw := [] }, .resume { command 0 [] with ring := 32 } [], .resume { command 0 [] with raw := [] } [],
  .reconcileAccept { command 0 [] with ring := 32 }, .reconcileAccept { command 0 [] with raw := [] }, .reconcileFence { command 0 [] with ring := 32 },
  .reconcileFence { command 0 [] with raw := [] }, .reconcileEnable { command 0 [] with ring := 32 }, .reconcileEnable { command 0 [] with raw := [] },
  .query { command 0 [] with ring := 32 }, .query { command 0 [] with raw := [] }, .statementReq { command 0 [] with ring := 32 }]
def illFormed3 : List Instr := [
  .statementReq { command 0 [] with raw := [] }, .lcbStore 8 {} (.core 11) 63 0, .lcbStore 7 {} (.core 12) 63 0,
  .lcbStore 7 {} (.logical 96) 63 0, .lcbStore 7 {} (.core 11) 64 0, .layerStart 8 {} (.core 11) [] [] [],
  .layerStart 7 {} (.core 12) [] [] [], .layerStart 7 {} (.logical 96) [] [] [], .layerWait 8 {} 0,
  .mxeIssue 96 0 [] [], .finishedTileDrain 96 15 [] [], .finishedTileDrain 95 16 [] [],
  .tileOperation 96 47 0 (.lane .add 31 [.sub 15, .reg 31] false) [] [], .tileOperation 95 48 0 (.lane .add 31 [.sub 15, .reg 31] false) [] [], .tileOperation 95 47 0 (.clrFlags 32) [] [],
  .tileOperation 95 47 0 (.lane .add 31 [.sub 16, .reg 0] false) [] [], .tileOperation 95 47 0 (.tree .sum true 0 (.sub 16) false) [] [], .tileOperation 95 47 0 (.load 0 4 0 4096 none) [] [],
  .tileOperation 95 47 0 (.load 0 2 0 4 none) [] [], .tileOperation 95 47 0 (.load 0 0 0 2 none) [] [], .tileOperation 95 47 0 (.load 0 0 0 64 (some ⟨.e4m3, 32, 0, 0, 0#32⟩)) [] [],
  .tileOperation 95 47 0 (.loadRemote {} 0 4 0 4096) [] [], .tileOperation 95 47 0 (.storeRemote {} 0 4 0 4096 none false) [] [], .tileOperation 95 47 0 (.storeRemote {} 0 0 0 0 none false) [] [],
  .tileOperation 95 47 0 (.storeRemote {} 0 0 0 4 (some (0, 256, 0)) false) [] [], .tileOperation 95 47 0 (.store [0] 0 0 0 0 33 1 false) [] [], .loadLand 96 47 0 0 [],
  .loadLand 95 48 0 0 [], .layerComplete 96, .hwmClear 8 {} 1023 0]
def illFormed4 : List Instr := [
  .hwmClear 7 {} 1024 0, .seqTableWrite 8 {} 255 false 0, .seqTableWrite 7 {} 256 false 0,
  .seqTableCommit 8 {} 0, .lossRead 8 {} 255, .lossRead 7 {} 256,
  .lossClear 8 {} 255 0, .lossClear 7 {} 256 0, .timerWait 8 {} 3 0,
  .timerWait 7 {} 4 0, .timerExpiry 8, .seqCompletion 8 {} 0,
  .programNote 8 {} (List.replicate 32 0), .programNote 7 {} [], .seqAddressFault 8 {},
  .seqInstructionFault 8 {}, .debugHalt 8, .debugResume 8,
  .deposit 8 (.context 11 47) {} 255 0, .deposit 7 (.context 12 0) {} 255 0, .deposit 7 (.context 0 48) {} 255 0,
  .deposit 7 (.context 11 47) {} 256 0, .take 8 (.context 11 47) {} 255, .take 7 (.context 12 0) {} 255,
  .take 7 (.context 0 48) {} 255, .take 7 (.context 11 47) {} 256, .takeNArm 8 {} 255 0,
  .takeNArm 7 {} 256 0, .takeN 8 (.context 11 47) {} 255 0, .takeN 7 (.context 12 0) {} 255 0]
def illFormed5 : List Instr := [
  .takeN 7 (.context 0 48) {} 255 0, .takeN 7 (.context 11 47) {} 256 0, .peek 8 (.context 11 47) {} 255,
  .peek 7 (.context 12 0) {} 255, .peek 7 (.context 0 48) {} 255, .peek 7 (.context 11 47) {} 256,
  .bell 8 (.context 11 47) {} 255 0 0, .bell 7 (.context 12 0) {} 255 0 0, .bell 7 (.context 0 48) {} 255 0 0,
  .bell 7 (.context 11 47) {} 256 0 0, .remoteCoinGo 8 (.context 11 47) {} 0 0 false, .remoteCoinGo 7 (.context 12 0) {} 0 0 false,
  .remoteCoinGo 7 (.context 0 48) {} 0 0 false, .coinWaitTimeout 8 255 0, .coinWaitTimeout 7 256 0,
  .vaultScrub (.core 96) [], .vaultScrub (.cluster 8) [], .vaultSpareDone (.core 96) [],
  .vaultSpareDone (.cluster 8) [], .dramPatrolScrub 24 0 [], .dramTrackingUpdate 24 [] false false,
  .softPpr 24 [] 0, .landing ⟨4096, 0, 0, [], 0, false⟩ [], .landing ⟨0, 0, 65536, [], 0, false⟩ [],
  .collectiveStart 8 {} 0 0 false [], .packetFrame 8 [] false .clean, .ack 8 none,
  .nak 8 0 none, .ackTimeout 8, .credit 8 1 [] none]
def illFormed6 : List Instr := [
  .credit 7 2 [] none, .creditQuery 8 none, .creditLate 8,
  .keepalive 8 none, .keepaliveSend 8, .linkPartnerLost 8,
  .signalDetect 8, .linkUp 8 3 1 [] 0 0, .linkUp 7 4 1 [] 0 0,
  .linkUp 7 3 2 [] 0 0, .trainingTimeout 8, .trainingRetry 8,
  .retrain 8, .forceKeepalive 8 false, .keepaliveIdle 8,
  .power 8 0 none, .keepaliveExit 8, .laneSample 8 [],
  .laneSample 7 [(17, 0, 0, 0, 0, 0)], .laneFail 8 16 0, .laneFail 7 17 0,
  .spareReq 8 16 none, .spareReq 7 17 none, .spareAck 8 16 0 none,
  .spareAck 7 17 0 none, .spareSwitch 8, .sparingDone 8,
  .sparingTimeout 8, .width 8 0 0 false 0 none, .eq 8 16 0 0 none]
def illFormed7 : List Instr := [
  .eq 7 17 0 0 none, .eqStep 8 16 0 false false, .eqStep 7 17 0 false false,
  .timeReq 8 0 0 0 none, .timeRsp 8 0 0 0 0 none, .identity 8 note,
  .identityRepeat 8, .identityTimeout 8, .reidentify 8,
  .partnerMissing 8, .sliceNotice 8 note, .routeStall 8 0 1,
  .routeStall 7 0 2, .detourWrite 9 15 0, .detourWrite 8 16 0,
  .thermalSample [], .clockGate 8, .powerGate 8,
  .clusterWake 8, .holdRun 8 false, .avsUpdate 8 none 0 false,
  .droopDetect 8, .regulatorRead [(18, none)], .railUndervoltage 14,
  .railFault 14 false, .coreWatchdog 96, .seqWatchdog 8,
  .securityAlarm 8, .setEndpointId 3 0 255, .setEndpointId 2 0 256]
def illFormed8 : List Instr := [
  .statementGet 3 0 [], .daybookRead 3 0 [], .ledgerRead 3 0 [],
  .ledgerStatus 3 0 [], .unitStateRead 3 0 [], .setPermission 3 0 [],
  .setPowerLimit 3 0 [], .setPurseDepth 3 0 [], .planWrite 3 0 [],
  .planRetire 3 0 [], .regRead 3 0 [], .attestGet 3 0 [],
  .challenge 3 0, .present 3 0 [] [] [], .relinquish 3 0,
  .setEventReceiver 3 0 0, .getSensorReading 3 0 0, .requestUpdate 3 0 0,
  .verifyComplete 3 0 {}, .activateFirmware 3 0, .railRecovery 14,
  .seqMemUncorrected 8, .widthSwitch 8, .registerRead (.seq 8 {} 0) 0 0,
  .registerRead (.seq 0 {} 32) 0 0, .msixVectorUnmask 64]
/-- For each check of Instr.wf, a command that breaks it and no other. -/
def illFormed : List Instr := illFormed1 ++ illFormed2 ++ illFormed3 ++ illFormed4 ++ illFormed5 ++ illFormed6 ++ illFormed7 ++ illFormed8
def bounds1 : List Instr := [
  .coldReset (List.replicate 16 [0, 0, 0]) false [], .railPowerGood 13, .railEnableTimeout 13,
  .refclkCheck 1 false, .dramTrainingDone [], .rollbackFuseBlow 4,
  .clusterReset 7, .coreReset 95, .portReset 7,
  .doorbellPoll (.sub 31) 0 0, .lnMessage (.sub 31) 0 0, .descriptorFetch 31 (List.replicate 64 0),
  .dispatch 31, .msixAgeExpiry 63, .ringEnable (.sub 31) false,
  .ringReset (.sub 31), .registerWrite (.seq 7 {} 31) 0 0 0, .jobLoad (command 0 []) [] [],
  .jobUnload (command 0 []), .sliceSet (command 0 []), .runStep (command 0 []),
  .runLayers (command 0 []), .dmaCopy (command 0 []) [] [] [], .settleConfigJob (command 0 []) [] [],
  .settleConfigRows (command 0 []) [] [], .settleConfigInvalidate (command 0 []), .settleConfigRefresh (command 0 []) [],
  .collectivePlan (command 0 []) [] [], .fence (command 0 []), .preempt (command 0 [])]
def bounds2 : List Instr := [
  .resume (command 0 []) [], .reconcileAccept (command 0 []), .reconcileFence (command 0 []),
  .reconcileEnable (command 0 []), .query (command 0 []), .statementReq (command 0 []),
  .lcbStore 7 {} (.core 11) 63 0, .layerStart 7 {} (.core 11) [] [] [], .layerWait 7 {} 0,
  .mxeIssue 95 0 [] [], .finishedTileDrain 95 15 [] [], .tileOperation 95 47 0 (.lane .add 31 [.sub 15, .reg 31] false) [] [],
  .loadLand 95 47 0 0 [], .layerComplete 95, .hwmClear 7 {} 1023 0,
  .seqTableWrite 7 {} 255 false 0, .seqTableCommit 7 {} 0, .lossRead 7 {} 255,
  .lossClear 7 {} 255 0, .timerWait 7 {} 3 0, .timerExpiry 7,
  .seqCompletion 7 {} 0, .programNote 7 {} (List.replicate 32 0), .seqAddressFault 7 {},
  .seqInstructionFault 7 {}, .debugHalt 7, .debugResume 7,
  .deposit 7 (.context 11 47) {} 255 0, .take 7 (.context 11 47) {} 255, .takeNArm 7 {} 255 0]
def bounds3 : List Instr := [
  .takeN 7 (.context 11 47) {} 255 0, .peek 7 (.context 11 47) {} 255, .bell 7 (.context 11 47) {} 255 0 0,
  .remoteCoinGo 7 (.context 11 47) {} 0 0 false, .coinWaitTimeout 7 255 0, .vaultScrub (.core 95) [],
  .vaultSpareDone (.core 95) [], .dramPatrolScrub 23 0 [], .dramTrackingUpdate 23 [] false false,
  .softPpr 23 [] 0, .landing ⟨0, 0, 0, [], 0, false⟩ [], .collectiveStart 7 {} 0 0 false [],
  .packetFrame 7 [] false .clean, .ack 7 none, .nak 7 0 none,
  .ackTimeout 7, .credit 7 1 [] none, .creditQuery 7 none,
  .creditLate 7, .keepalive 7 none, .keepaliveSend 7,
  .linkPartnerLost 7, .signalDetect 7, .linkUp 7 3 1 [] 0 0,
  .trainingTimeout 7, .trainingRetry 7, .retrain 7,
  .forceKeepalive 7 false, .keepaliveIdle 7, .power 7 0 none]
def bounds4 : List Instr := [
  .keepaliveExit 7, .laneSample 7 [], .laneFail 7 16 0,
  .spareReq 7 16 none, .spareAck 7 16 0 none, .spareSwitch 7,
  .sparingDone 7, .sparingTimeout 7, .width 7 0 0 false 0 none,
  .eq 7 16 0 0 none, .eqStep 7 16 0 false false, .timeReq 7 0 0 0 none,
  .timeRsp 7 0 0 0 0 none, .identity 7 note, .identityRepeat 7,
  .identityTimeout 7, .reidentify 7, .partnerMissing 7,
  .sliceNotice 7 note, .routeStall 7 0 1, .detourWrite 8 15 0,
  .thermalSample (List.replicate 64 0), .clockGate 7, .powerGate 7,
  .clusterWake 7, .holdRun 7 false, .avsUpdate 7 none 0 false,
  .droopDetect 7, .regulatorRead [], .railUndervoltage 13]
def bounds5 : List Instr := [
  .railFault 13 false, .coreWatchdog 95, .seqWatchdog 7,
  .securityAlarm 7, .setEndpointId 2 0 255, .statementGet 2 0 [],
  .daybookRead 2 0 [], .ledgerRead 2 0 [], .ledgerStatus 2 0 [],
  .unitStateRead 2 0 [], .setPermission 2 0 [], .setPowerLimit 2 0 [],
  .setPurseDepth 2 0 [], .planWrite 2 0 [], .planRetire 2 0 [],
  .regRead 2 0 [], .attestGet 2 0 [], .challenge 2 0,
  .present 2 0 [] [] [], .relinquish 2 0, .setEventReceiver 2 0 0,
  .getSensorReading 2 0 0, .requestUpdate 2 0 0, .verifyComplete 2 0 {},
  .activateFirmware 2 0, .railRecovery 13, .seqMemUncorrected 7,
  .widthSwitch 7, .registerRead (.seq 7 {} 31) 0 0, .msixVectorUnmask 63]
/-- The same commands with every checked operand at the last value that its check takes. -/
def bounds : List Instr := bounds1 ++ bounds2 ++ bounds3 ++ bounds4 ++ bounds5
/-- Every check refuses the term that breaks it. -/
theorem test_ill_formed_refused : illFormed.all (fun i => !i.wf) = true := by decide +kernel
/-- The bounds themselves are taken. -/
theorem test_bounds_taken : bounds.all Instr.wf = true := by decide +kernel

/-! ### The hypotheses of the statements

met_X names, for each clause of Obligations.X that has hypotheses, a state and operands that meet them all together. -/

theorem met_FrontCommandRuns :
    ∃ (c : Instr) (rest : List Instr) (s : State), s.pending = c :: rest :=
  ⟨.powerBrake, [], { pending := [.powerBrake] }, by decide +kernel⟩

theorem met_EmptyQueueIdles :
    ∃ (s : State), s.pending = [] :=
  ⟨.reset, by decide +kernel⟩

theorem met_MemoryStaysCanonical :
    ∃ (s t : State), s.memoryOk ∧ step s = .next t :=
  ⟨.reset, .reset, reset_memory_ok, rfl⟩

theorem met_LocksHoldUntilReset :
    ∃ (c : Instr), resetsDevice c = false :=
  ⟨.powerBrake, by decide +kernel⟩

theorem met_LockedFieldsKeep :
    (∃ (a : Nat) (s : State), accessOk a 8 = true ∧ regAt a = some (.therm, 0) ∧ s.pwr.lock = true) ∧
    (∃ (a : Nat) (s : State), accessOk a 8 = true ∧ regAt a = some (.ddrCtrl, 0) ∧ s.dram.lock = true) ∧
    (∃ (a : Nat) (s : State), accessOk a 8 = true ∧ regAt a = some (.errCtrl, 0) ∧ s.err.lock = true) ∧
    (∃ (a v : Nat) (s : State) (n : Nat), accessOk a 8 = true ∧ regAt a = some (.portCtrl n, 0) ∧ s.dev.lnkLock = true ∧ bit v 4 = (s.port n).link.forceKa ∧ bit v 5 = false) :=
  ⟨⟨0x600030, { pwr := { lock := true } }, by decide +kernel⟩,
    ⟨0x1000008, { dram := { lock := true } }, by decide +kernel⟩,
    ⟨0x1100020, { err := { lock := true } }, by decide +kernel⟩,
    ⟨0x300070, 0, { dev := { lnkLock := true } }, 7, by decide +kernel⟩⟩

theorem met_UnloadScrubs :
    ∃ (d : Desc) (n : Nat) (s : State), s.holds d 2 = true ∧ s.commandRuns = false ∧ fld (d.at 8 1) 0 2 ≠ 3 ∧ n = max (fld (d.at 8 1) 0 2) s.sec.minScrub :=
  ⟨command 2 [(8, 2)], 2, holding 2 [(8, 2)], by decide +kernel⟩

theorem met_ProgramNotes :
    (∃ (c : Nat) (k : Tick) (bytes : List Byte) (s : State), SeqIssues s c k ∧ bytes.length = 32) ∧
    (∃ (bytes bytes' : List Byte), bytes.length = 32 ∧ bytes'.length = 32 ∧ bytes'.take 16 = bytes.take 16) :=
  ⟨⟨0, {}, List.replicate 32 1, issuing, by decide +kernel⟩,
    ⟨List.replicate 32 1, List.replicate 16 1 ++ List.replicate 16 0, by decide +kernel⟩⟩

theorem met_OwnerPolicy :
    (∃ (r : Reg) (a : Nat) (s : State), accessOk a 8 = true ∧ regAt a = some (r, 0) ∧ s.sec.lock = true ∧ (r = .secPolicy ∨ (∃ k, r = .ownerKey k))) ∧
    (∃ (r : Reg) (a : Nat) (s : State), accessOk a 8 = true ∧ regAt a = some (r, 0) ∧ s.sec.lock = false ∧ r = .secPolicy) ∧
    (∃ (r : Reg) (a : Nat) (s : State) (k : Nat), accessOk a 8 = true ∧ regAt a = some (r, 0) ∧ s.sec.lock = false ∧ r = .ownerKey k) :=
  ⟨⟨.ownerKey 3, 0x1300028, { sec := { lock := true } }, by decide +kernel, by decide +kernel, rfl, .inr ⟨3, rfl⟩⟩,
    ⟨.secPolicy, 0x1300008, .reset, by decide +kernel⟩,
    ⟨.ownerKey 3, 0x1300028, .reset, 3, by decide +kernel⟩⟩

theorem met_FabricControl :
    (∃ (a : Nat), accessOk a 8 = true ∧ regAt a = some (.fabCtrl, 0)) ∧
    (∃ (a : Nat) (s : State), accessOk a 8 = true ∧ regAt a = some (.fabCtrl, 0) ∧ s.rtr.readTimeout < 65536 ∧ s.rtr.stallLimit < 65536) ∧
    (∃ (s : State), s.rtr.stallLimit = 0) :=
  ⟨⟨0x200000, by decide +kernel⟩,
    ⟨0x200000, .reset, by decide +kernel⟩,
    ⟨{ rtr := { stallLimit := 0 } }, by decide +kernel⟩⟩

theorem met_SequencersKeepToTheirCluster :
    ∃ (c k : Nat) (x : Tick) (s : State), k ≠ c ∧ (s.cluster c).seq.imemBad.contains (x.pc % 2 ^ 18 / 64) = false :=
  ⟨0, 7, {}, .reset, by decide +kernel⟩

theorem met_LinkFramesArrive :
    (∃ (n : Nat) (s : State), s.linkUp n = true ∧ (s.port n).link.txq = []) ∧
    (∃ (n : Nat) (s : State), s.linkUp n = true) ∧
    (∃ (n e : Nat) (s : State), s.linkUp n = true ∧ (s.port n).link.replay.any (Frame.hasSeq e) = true ∧ (s.port n).rep.stopped = false) ∧
    (∃ (n : Nat) (s : State), s.linkUp n = true ∧ (s.port n).link.replay ≠ [] ∧ (s.port n).rep.stopped = false) ∧
    (∃ (n : Nat) (s : State), (s.port n).rep.stopped = true) :=
  ⟨⟨0, linked {}, by decide +kernel⟩,
    ⟨7, { ports := [(7, { link := { st := .keepalive } })] }, by decide +kernel⟩,
    ⟨0, 65535, linked { replay := [.packet 0 65535 none note] }, by decide +kernel⟩,
    ⟨0, linked { replay := [.packet 0 0 none note] }, by decide +kernel⟩,
    ⟨0, { ports := [(0, { rep := { stopped := true } })] }, by decide +kernel⟩⟩

theorem met_LinkCreditsAndKeepalives :
    (∃ (n ch : Nat) (totals : List Nat) (s : State), s.linkUp n = true ∧ ch < totals.length ∧ ch < 8) ∧
    (∃ (n : Nat) (s : State), s.linkUp n = true) ∧
    (∃ (n : Nat) (s : State) (q : Queued), s.linkUp n = true ∧ q ∈ (s.port n).link.txq ∧ (s.port n).link.credit q.vc q.packet.channel < q.packet.units) ∧
    (∃ (n : Nat) (s : State), s.linkUp n = true) :=
  ⟨⟨0, 7, List.replicate 8 65535, linked {}, by decide +kernel⟩,
    ⟨0, linked {}, by decide +kernel⟩,
    ⟨0, linked { usedCr := [(7, 60000)], txq := [⟨0, { note with channel := 7 }, none⟩] }, ⟨0, { note with channel := 7 }, none⟩, by decide +kernel⟩,
    ⟨0, linked {}, by decide +kernel⟩⟩

theorem met_LinkStates :
    (∃ (n : Nat) (s : State), n < 8 ∧ (s.port n).link.st = .down ∧ (s.port n).link.enable = true ∧ s.linksAllowed = true) ∧
    (∃ (n : Nat) (s : State), s.linkUp n = true) ∧
    (∃ (n : Nat) (s : State), (s.port n).link.st = .training) ∧
    (∃ (n mode : Nat) (s : State), (s.port n).link.st = .training ∧ (s.port n).link.trainMode ≤ mode ∧ mode ≤ 3) ∧
    (∃ (n : Nat) (s : State), s.linkUp n = true ∧ (s.port n).rep.suspended = false) :=
  ⟨⟨7, { dev := { stage := 4 } }, by decide +kernel⟩,
    ⟨0, linked {}, by decide +kernel⟩,
    ⟨0, linked { st := .training }, by decide +kernel⟩,
    ⟨0, 3, linked { st := .training, trainMode := 3 }, by decide +kernel⟩,
    ⟨0, linked {}, by decide +kernel⟩⟩

theorem met_KeepaliveStates :
    (∃ (n : Nat) (s : State), (s.port n).link.st = .up ∧ s.commandRuns = false) ∧
    (∃ (n request : Nat) (s : State), (s.port n).link.st = .up ∧ bit request 0 = true) ∧
    (∃ (n : Nat) (s : State), (s.port n).link.st = .keepalive) :=
  ⟨⟨0, linked {}, by decide +kernel⟩,
    ⟨0, 1, linked {}, by decide +kernel⟩,
    ⟨0, linked { st := .keepalive }, by decide +kernel⟩⟩

theorem met_PacketFrames :
    (∃ (n vc seq : Nat) (ack : Option Nat) (p : Packet) (blocks : List Block) (s : State), readFrame blocks = .frame (.packet vc seq ack p) true ∧ s.linkUp n = true ∧ seq = (s.port n).link.rxSeq) ∧
    (∃ (n vc seq : Nat) (ack : Option Nat) (p : Packet) (blocks : List Block) (crcOk : Bool) (s : State), readFrame blocks = .frame (.packet vc seq ack p) crcOk ∧ s.linkUp n = true ∧ seq ≠ (s.port n).link.rxSeq) ∧
    (∃ (n : Nat) (blocks : List Block) (s : State), readFrame blocks = .bad true ∧ s.linkUp n = true) ∧
    (∃ (n : Nat) (blocks : List Block) (s : State), readFrame blocks = .bad false ∧ s.linkUp n = true) ∧
    (∃ (vc : Nat) (ack : Option Nat) (b : List Byte) (crcOk : Bool) (blocks : List Block), readFrame blocks = .frame (.control 1 vc ack b) crcOk) ∧
    (∃ (vc : Nat) (ack : Option Nat) (b : List Byte) (crcOk : Bool) (blocks : List Block), readFrame blocks = .frame (.control 5 vc ack b) crcOk) ∧
    (∃ (n vc seq : Nat) (ack : Option Nat) (p : Packet) (blocks : List Block) (crcOk : Bool) (s : State), readFrame blocks = .frame (.packet vc seq ack p) crcOk ∧ s.linkUp n = false) :=
  ⟨⟨0, 0, 65535, none, note, (Frame.packet 0 65535 none note).blocks, linked { rxSeq := 65535 }, by decide +kernel⟩,
    ⟨0, 0, 1, none, note, (Frame.packet 0 1 none note).blocks, true, linked {}, by decide +kernel⟩,
    ⟨0, [0, 0], linked {}, by decide +kernel⟩,
    ⟨0, [2, 2], linked {}, by decide +kernel⟩,
    ⟨1, none, List.replicate 24 0, true, (Frame.control 1 1 none (List.replicate 24 0)).blocks, by decide +kernel⟩,
    ⟨1, none, List.replicate 24 0, true, (Frame.control 5 1 none (List.replicate 24 0)).blocks, by decide +kernel⟩,
    ⟨0, 0, 0, none, note, (Frame.packet 0 0 none note).blocks, true, .reset, by decide +kernel⟩⟩

theorem met_LaneRepair :
    (∃ (n l : Nat) (s : State), l < 17 ∧ (s.port n).link.st = .up) ∧
    (∃ (n l : Nat) (s : State), (s.port n).link.st = .up ∧ (s.lane n l).failed = false ∧ (s.port n).link.carries l = true ∧ (s.port n).link.spareEn = true ∧ (s.port n).link.spareRx = false ∧ (s.port n).rep.sparing = none) ∧
    (∃ (n l : Nat) (s : State), (s.port n).link.st = .up ∧ (s.port n).needs l = false) ∧
    (∃ (n : Nat) (s : State), s.linkUp n = true) ∧
    (∃ (n l : Nat) (s : State), s.linkUp n = true ∧ (s.port n).rep.sparing = some l) :=
  ⟨⟨0, 16, linked {}, by decide +kernel⟩,
    ⟨0, 15, linked {}, by decide +kernel⟩,
    ⟨0, 16, linked {}, by decide +kernel⟩,
    ⟨0, linked {}, by decide +kernel⟩,
    ⟨0, 15, { ports := [(0, { link := { st := .up }, rep := { sparing := some 15 } })] }, by decide +kernel⟩⟩

theorem met_SpareTakesOver :
    (∃ (n l cw : Nat) (s : State), (s.port n).rep.rxSwitch = some (l, cw)) ∧
    (∃ (n : Nat) (s : State), (s.port n).rep.txSwitch.isSome = true ∧ (s.port n).link.spareTx = true) ∧
    (∃ (n : Nat) (s : State), (s.port n).rep.sparing.isSome = true ∧ s.linkUp n = true) :=
  ⟨⟨0, 15, 8, { ports := [(0, { rep := { rxSwitch := some (15, 8) } })] }, by decide +kernel⟩,
    ⟨0, { ports := [(0, { link := { spareTx := true }, rep := { txSwitch := some (15, 8) } })] }, by decide +kernel⟩,
    ⟨0, { ports := [(0, { link := { st := .up }, rep := { sparing := some 0 } })] }, by decide +kernel⟩⟩

theorem met_WidthAndTaps :
    (∃ (n mode : Nat) (s : State), s.linkUp n = true ∧ (mode = 1 ∨ mode = 3)) ∧
    (∃ (n m h cw : Nat) (s : State), (s.port n).rep.widthReq = some (m, h, cw)) ∧
    (∃ (n request : Nat) (s : State), s.linkUp n = true ∧ bit request 7 = false) ∧
    (∃ (n l : Nat) (s : State), s.linkUp n = true ∧ l ≤ 16) ∧
    (∃ (n l tap : Nat) (s : State), s.linkUp n = true ∧ l ≤ 16 ∧ tap ≤ 3) :=
  ⟨⟨0, 3, linked {}, by decide +kernel⟩,
    ⟨0, 1, 1, 8, { ports := [(0, { rep := { widthReq := some (1, 1, 8) } })] }, by decide +kernel⟩,
    ⟨0, 0x7F, linked {}, by decide +kernel⟩,
    ⟨0, 16, { linked {} with aoNs := 1000000000 }, by decide +kernel⟩,
    ⟨0, 16, 3, { linked {} with aoNs := 1000000000 }, by decide +kernel⟩⟩

theorem met_TimeExchanges :
    (∃ (s : State), s.time.root = false ∧ s.active s.time.parent = true ∧ (s.port s.time.parent).repairs = false) ∧
    (∃ (n : Nat) (s : State), s.linkUp n = true ∧ s.active n = true ∧ (s.port n).repairs = false) ∧
    (∃ (n exchange t1 t4 now at16 : Nat) (s : State), s.linkUp n = true ∧ s.active n = true ∧ (s.port n).repairs = false ∧ (s.port n).rep.t1 = some t1 ∧ exchange = ((s.port n).rep.exchange + 65535) % 65536 ∧ n = s.time.parent ∧ s.time.root = false ∧ now = (s.stamp at16).1 ∧ t4 = (now + 2 ^ 64 - (s.port n).rep.calRx) % 2 ^ 64) :=
  ⟨⟨{ ports := [(0, { disc := { st := .active } })] }, by decide +kernel⟩,
    ⟨0, { ports := [(0, { link := { st := .up }, disc := { st := .active } })] }, by decide +kernel⟩,
    ⟨0, 65535, 5, _, _, 0, { ports := [(0, { link := { st := .up }, rep := { t1 := some 5 }, disc := { st := .active } })] }, by decide +kernel, by decide +kernel, by decide +kernel, by decide +kernel, by decide +kernel, by decide +kernel, by decide +kernel, rfl, rfl⟩⟩

theorem met_IdentityJudged :
    (∃ (n : Nat) (p : Packet) (s : State), n < 8 ∧ p.kind = 0 ∧ p.addr = 1 ∧ p.payload.length = 64 ∧ s.localTurn n p = true ∧ leAt p.payload 0 1 = 1 ∧ s.linkUp n = true) ∧
    (∃ (n : Nat) (s : State), n < 8 ∧ (s.port n).disc.st = .identifying) ∧
    (∃ (n : Nat) (s : State), n < 8 ∧ (s.port n).disc.st = .quarantine) ∧
    (∃ (n b : Nat) (s : State), n < 8 ∧ s.dev.firstTrain = some b ∧ (s.port n).disc.st = .missing ∧ (s.port n).disc.missingLogged = false) ∧
    (∃ (s : State), s.dev.firstTrain = none) :=
  ⟨⟨0, identityNote, linked {}, by decide +kernel⟩,
    ⟨7, { ports := [(7, { disc := { st := .identifying } })] }, by decide +kernel⟩,
    ⟨7, { ports := [(7, { disc := { st := .quarantine } })] }, by decide +kernel⟩,
    ⟨7, 0, { dev := { firstTrain := some 0 }, ports := [(7, { disc := { st := .missing } })] }, by decide +kernel⟩,
    ⟨.reset, by decide +kernel⟩⟩

theorem met_RouterCommands :
    (∃ (n : Nat) (s : State), n < 8 ∧ s.linkUp n = true) ∧
    (∃ (n : Nat) (p : Packet) (s : State), n < 8 ∧ p.kind = 0 ∧ localOk p = true ∧ p.addr = 2 ∧ s.localTurn n p = true ∧ leAt p.payload 0 4 = s.rtr.slice.id ∧ s.hasSlice = true ∧ s.rtr.slice.seen.contains (noticeKey p.payload) = false ∧ leAt p.payload 4 1 = 0) ∧
    (∃ (n ch vc : Nat) (s : State), n < 8 ∧ s.rtr.stallLimit ≠ 0 ∧ (s.port n).link.txq.any (fun q => q.packet.channel == ch && q.vc == vc) = true ∧ tget s.err.lastLogged 0 (EventClass.routeStall.code * 65536 + (n * 16 + ch * 2 + vc)) = 0) ∧
    (∃ (t e : Nat), t < 9 ∧ e < 16) :=
  ⟨⟨0, linked {}, by decide +kernel⟩,
    ⟨7, { note with addr := 2, payload := padTo 32 [5] }, { rtr := { slice := { st := 1, id := 5 } } }, by decide +kernel⟩,
    ⟨0, 7, 0, linked { txq := [⟨0, { note with channel := 7 }, none⟩] }, by decide +kernel⟩,
    ⟨8, 15, by decide +kernel⟩⟩

theorem met_ErrorCommands :
    (∃ (u : UnitName) (s : State), u ∈ allUnits ∧ consistent (s.permWord u) (s.execWord u) = false) ∧
    (∃ (p : Nat) (s : State), p < 96 ∧ (s.core p).running.isSome = true ∧ (s.core p).timedWait = false) ∧
    (∃ (c : Nat) (s : State), c < 8 ∧ (s.cluster c).seq.st = .running) ∧
    (∃ (s : State), s.mgmt.bucelDown = true) ∧
    (∃ (s : State), s.sec.maintEnd.isSome = true) :=
  ⟨⟨⟨.core, 95⟩, { cores := [(95, { running := some { lcb := [] } })], units := [(UnitName.code ⟨.core, 95⟩, { perm := .fenced })] }, by decide +kernel⟩,
    ⟨95, { cores := [(95, { running := some { lcb := [] } })] }, by decide +kernel⟩,
    ⟨7, { clusters := [(7, { seq := { st := .running } })] }, by decide +kernel⟩,
    ⟨{ mgmt := { bucelDown := true } }, by decide +kernel⟩,
    ⟨{ sec := { maintEnd := some 1 } }, by decide +kernel⟩⟩

theorem met_RingCommands :
    (∃ (n pi ci : Nat) (s : State), n < 32 ∧ (s.ring n).enable = true ∧ (s.ring n).st = .running ∧ pi < 2 ^ 32 ∧ ci < 2 ^ 32 ∧ countSub pi (s.ring n).lastPi < 2 ^ 31 ∧ countSub pi (s.ring n).fetched ≤ entries (s.ring n).logSq ∧ countSub ci (s.ring n).lastCi < 2 ^ 31 ∧ countSub ci (s.ring n).lastCi ≤ (s.ring n).unconsumed) ∧
    (∃ (n pi ci : Nat) (s : State), n < 32 ∧ (s.ring n).enable = true ∧ (s.ring n).st = .running ∧ pi < 2 ^ 32 ∧ ci < 2 ^ 32 ∧ countSub pi (s.ring n).lastPi < 2 ^ 31 ∧ countSub pi (s.ring n).fetched ≤ entries (s.ring n).logSq ∧ countSub ci (s.ring n).lastCi < 2 ^ 31 ∧ countSub ci (s.ring n).lastCi ≤ (s.ring n).unconsumed ∧ s.host.lnEn = true ∧ (s.ring n).lnRegistered = true) ∧
    (∃ (n : Nat) (s : State), s.fetchTurn n = true) ∧
    (∃ (n : Nat) (d : Desc) (ds : List Desc) (s : State), n < 32 ∧ (s.ring n).waiting = d :: ds ∧ s.dispatchable d = true ∧ s.lowerRingFirst n d = false ∧ d.reserved = false ∧ d.isRun = false) ∧
    (∃ (n : Nat) (d : Desc) (ds : List Desc) (s : State), n < 32 ∧ (s.ring n).waiting = d :: ds ∧ s.dispatchable d = true ∧ s.lowerRingFirst n d = false ∧ d.reserved = false ∧ d.isRun = true ∧ s.runRefused d = none) ∧
    (∃ (v : Nat) (s : State), v < 64 ∧ (tget s.host.vectors {} v).timeUs ≠ 0 ∧ (tget s.host.vectors {} v).pending ≠ 0) ∧
    (∃ (v : Nat), v < 64) ∧
    (∃ (x : RingName) (s : State), x.ok = true ∧ (s.ringOf x).enable = false ∧ (s.ringOf x).st = .disabled ∧ (s.ringOf x).faulted = false ∧ s.err.fatal = false ∧ (s.ringOf x).sizesOk x = true) ∧
    (∃ (x : RingName) (s : State), x.ok = true ∧ (∀ n, x = .sub n → s.ringBusy n = false)) ∧
    (∃ (x : RingName) (s : State), x.ok = true ∧ (s.ringOf x).st = .disabled) :=
  ⟨⟨31, 64, 0, { host := { rings := [(31, { enable := true, st := .running, logSq := 6, logCq := 6 })] } }, by decide +kernel⟩,
    ⟨31, 64, 0, { host := { lnEn := true, rings := [(31, { enable := true, st := .running, logSq := 6, lnRegistered := true })] } }, by decide +kernel⟩,
    ⟨0, { dev := { ready := true }, host := { rings := [(0, { enable := true, st := .running, logSq := 6, lastPi := 1 })] } }, by decide +kernel⟩,
    ⟨0, command 9 [], [], { host := { rings := [(0, { enable := true, st := .running, waiting := [command 9 []] })] } }, by decide +kernel⟩,
    ⟨0, command 5 [(0x10, 1)], [], runnable, by decide +kernel⟩,
    ⟨63, { host := { vectors := [(63, { timeUs := 1, pending := 1 })] } }, by decide +kernel⟩,
    ⟨63, by decide +kernel⟩,
    ⟨.sub 31, { host := { rings := [(31, { logSq := 6, logCq := 6 })] } }, by decide +kernel⟩,
    ⟨.sub 31, .reset, by decide +kernel, fun n h => by cases h; decide +kernel⟩,
    ⟨.stm, .reset, by decide +kernel⟩⟩

theorem met_HostAccesses :
    (∃ (off n : Nat) (s : State), off + n ≤ bar2Size ∧ s.dev.ready = true ∧ s.err.fatal = false ∧ s.host.bar2Gib * 2 ^ 30 + off + n ≤ s.dram.top) ∧
    (∃ (off : Nat) (data : List Byte) (s : State), off + data.length ≤ bar2Size ∧ s.dev.ready = true ∧ s.err.fatal = false ∧ s.host.bar2Gib * 2 ^ 30 + off + data.length ≤ s.dram.top) ∧
    (∃ (a n : Nat), (accessOk a n = false ∨ regAt (a - a % 8) = none)) ∧
    (∃ (a c : Nat), c < 8 ∧ accessOk a 8 = true ∧ regAt (a - a % 8) = some (.share c, 0)) ∧
    (∃ (a k : Nat) (s : State), accessOk a 8 = true ∧ regAt (a - a % 8) = some (.ownerKey k, 0) ∧ s.sec.lock = true) ∧
    (∃ (a k : Nat) (s : State), accessOk a 8 = true ∧ regAt (a - a % 8) = some (.ownerKey k, 0) ∧ s.sec.lock = false) ∧
    (∃ (c a n : Nat) (t : Tick) (s : State), SeqIssues s c t ∧ 0 < n ∧ n ≤ 8 ∧ a % n = 0 ∧ a + n ≤ 0x80000) ∧
    (∃ (c a n : Nat) (t : Tick) (s : State), SeqIssues s c t ∧ 0 < n ∧ n ≤ 8 ∧ a % n = 0 ∧ a + n ≤ 0x80000 ∧ (s.cluster c).seq.dmemBad.contains (a / 64) = false) ∧
    (∃ (a : Nat) (r : Reg) (w : Nat) (s : State), accessOk a 8 = true ∧ regAt (a - a % 8) = some (r, w) ∧ r.wide = false ∧ s.regAsleep r = false) ∧
    (∃ (a : Nat) (r : Reg) (w : Nat) (s : State), accessOk a 8 = true ∧ regAt (a - a % 8) = some (r, w) ∧ s.regAsleep r = true) :=
  ⟨⟨bar2Size - 8, 8, { dev := { ready := true }, dram := { used := [0], moduleGb := 64 } }, by decide +kernel⟩,
    ⟨bar2Size - 1, [1], { dev := { ready := true }, dram := { used := [0], moduleGb := 64 } }, by decide +kernel⟩,
    ⟨2 ^ 26, 8, by decide +kernel⟩,
    ⟨0x600178, 7, by decide +kernel⟩,
    ⟨0x1300010, 0, { sec := { lock := true } }, by decide +kernel⟩,
    ⟨0x1300028, 3, .reset, by decide +kernel⟩,
    ⟨0, 0x7FFF8, 8, {}, issuing, by decide +kernel⟩,
    ⟨0, 0x7FFF8, 8, {}, issuing, by decide +kernel⟩,
    ⟨0x200000, .fabCtrl, 0, .reset, by decide +kernel⟩,
    ⟨0x800100, .greg 0 0, 0, { clusters := [(0, { clock := { stopped := true } })] }, by decide +kernel⟩⟩

theorem met_JobLifecycle :
    (∃ (d : Desc) (image : List Byte) (ecc : List (Nat × EccResult)) (s u : State), u = s.eccAll ecc ∧ s.holds d 1 = true ∧ bit (d.at 0x24 1) 0 = false ∧ u.job.loaded = false ∧ u.commandRuns = false ∧ u.sec.debugEnd = none ∧ d.at 8 8 % 64 = 0 ∧ u.contextOk (d.at 0x18 8) = true ∧ u.imgCheck (image.take (d.at 0x10 8)) = none ∧ u.imgMismatch (image.take (d.at 0x10 8)) = false) ∧
    (∃ (d : Desc) (image : List Byte) (ecc : List (Nat × EccResult)) (row ix : Nat) (st : Status) (s u : State), u = s.eccAll ecc ∧ s.holds d 1 = true ∧ bit (d.at 0x24 1) 0 = false ∧ u.job.loaded = false ∧ u.commandRuns = false ∧ u.sec.debugEnd = none ∧ d.at 8 8 % 64 = 0 ∧ u.contextOk (d.at 0x18 8) = true ∧ u.imgCheck (image.take (d.at 0x10 8)) = some (row, ix, st) ∧ row ≠ 5) ∧
    (∃ (d : Desc) (n : Nat) (s : State), s.holds d 2 = true ∧ s.commandRuns = false ∧ fld (d.at 8 1) 0 2 ≠ 3 ∧ n = max (fld (d.at 8 1) 0 2) s.sec.minScrub) ∧
    (∃ (d : Desc) (s : State), s.holds d 3 = true ∧ s.sliceRow (bytesCoord d 0x0C) (bytesCoord d 0x10) = 3) ∧
    (∃ (d : Desc) (s : State), s.holds d 3 = true ∧ s.sliceRow (bytesCoord d 0x0C) (bytesCoord d 0x10) = 7) ∧
    (∃ (d : Desc) (s u : State), s.holds d 4 = true ∧ s.cmdEnded d = true ∧ s.stepOpen d = false ∧ u = (s.stepFails d).cmdGone d) ∧
    (∃ (d : Desc) (s u : State), s.holds d 5 = true ∧ s.cmdEnded d = true ∧ u = s.cmdGone d) ∧
    (∃ (d : Desc) (s : State), s.holds d 9 = true) ∧
    (∃ (d : Desc) (s : State), s.holds d 0x0A = true ∧ s.saved = none) ∧
    (∃ (s : State), s.preemptDue = true) ∧
    (∃ (d : Desc) (x : SavedContext) (ecc : List (Nat × EccResult)) (s u : State), s.holds d 0x0B = true ∧ s.host.resumed = none ∧ s.saved = some x ∧ s.mayResume x = true ∧ x.cmd = none ∧ u = (s.eccAll ecc).restoreJob x) :=
  ⟨⟨descriptor 1 [(0x10, 8, 192)], image, [], flying 1 [(0x10, 8, 192)], _, rfl, by decide +kernel, by decide +kernel, by decide +kernel, by decide +kernel, by decide +kernel, by decide +kernel, by decide +kernel, by decide +kernel, by decide +kernel⟩,
    ⟨descriptor 1 [(0x10, 8, 192)], List.replicate 192 0, [], 1, 0, .malformed, flying 1 [(0x10, 8, 192)], _, rfl, by decide +kernel, by decide +kernel, by decide +kernel, by decide +kernel, by decide +kernel, by decide +kernel, by decide +kernel, by decide +kernel, by decide +kernel⟩,
    ⟨descriptor 2 [(8, 1, 2)], 2, flying 2 [(8, 1, 2)], by decide +kernel⟩,
    ⟨descriptor 3 [], { flying 3 [] with dev := sliced.dev }, by decide +kernel⟩,
    ⟨descriptor 3 [(0x10, 4, 0x01010104)], { flying 3 [(0x10, 4, 0x01010104)] with dev := sliced.dev }, by decide +kernel⟩,
    ⟨descriptor 4 [(0x10, 1, 0x80)], { flying 4 [(0x10, 1, 0x80)] with clusters := [(7, { seq := { cmd := some (descriptor 4 [(0x10, 1, 0x80)]) } })], dec := { status := some .ok } }, _, by decide +kernel, by decide +kernel, by decide +kernel, rfl⟩,
    ⟨descriptor 5 [(0x10, 1, 0x80)], { flying 5 [(0x10, 1, 0x80)] with clusters := [(7, { seq := { cmd := some (descriptor 5 [(0x10, 1, 0x80)]) } })] }, _, by decide +kernel, by decide +kernel, rfl⟩,
    ⟨descriptor 9 [], flying 9 [], by decide +kernel⟩,
    ⟨descriptor 10 [], flying 10 [], by decide +kernel⟩,
    ⟨{ preempt := true }, by decide +kernel⟩,
    ⟨descriptor 0x0B [], _, [], { flying 0x0B [] with job := { loaded := true }, saved := some { job := { loaded := true }, clusters := [], hwm := [], settle := {}, decision := {}, vaults := [], vaultPoison := [], slice := {}, cmd := none, point := 0 } }, _, by decide +kernel, rfl, rfl, by decide +kernel, rfl, rfl⟩⟩

theorem met_ReconcileAndRequest :
    (∃ (d : Desc) (u : UnitName) (s : State), s.holds d 0x0C = true ∧ d.at 0x0A 2 = 0 ∧ s.reconcileUnit d = .inl u ∧ (s.unit u.code).mismatch = true ∧ consistent (s.permWord u) (s.execWord u) = true) ∧
    (∃ (d : Desc) (u : UnitName) (s : State), s.holds d 0x0C = true ∧ d.at 0x0A 2 = 0 ∧ s.reconcileUnit d = .inl u ∧ (s.unit u.code).mismatch = true ∧ consistent (s.permWord u) (s.execWord u) = false) ∧
    (∃ (d : Desc) (u : UnitName) (s : State), s.holds d 0x0C = true ∧ d.at 0x0A 2 = 1 ∧ s.reconcileUnit d = .inl u ∧ (s.unit u.code).fencing = none) ∧
    (∃ (d : Desc) (u : UnitName) (s : State), s.holds d 0x0C = true ∧ d.at 0x0A 2 = 2 ∧ s.reconcileUnit d = .inl u ∧ s.withheld u = false) ∧
    (∃ (d : Desc) (s : State), s.holds d 0x0E = true ∧ bit (d.at 8 1) 0 = false ∧ (d.at 0x0C 4 = 0 ∨ (1000 ≤ d.at 0x0C 4 ∧ d.at 0x0C 4 ≤ 1000000))) :=
  ⟨⟨descriptor 0x0C [(8, 2, 0x207)], ⟨.cluster, 7⟩, { flying 0x0C [(8, 2, 0x207)] with units := [(UnitName.code ⟨.cluster, 7⟩, { mismatch := true })] }, by decide +kernel⟩,
    ⟨descriptor 0x0C [(8, 2, 0x207)], ⟨.cluster, 7⟩, { flying 0x0C [(8, 2, 0x207)] with units := [(UnitName.code ⟨.cluster, 7⟩, { mismatch := true, perm := .fenced })], clusters := [(7, { seq := { active := true } })] }, by decide +kernel⟩,
    ⟨descriptor 0x0C [(8, 2, 0x207), (0x0A, 2, 1)], ⟨.cluster, 7⟩, flying 0x0C [(8, 2, 0x207), (0x0A, 2, 1)], by decide +kernel⟩,
    ⟨descriptor 0x0C [(8, 2, 0x207), (0x0A, 2, 2)], ⟨.cluster, 7⟩, flying 0x0C [(8, 2, 0x207), (0x0A, 2, 2)], by decide +kernel⟩,
    ⟨descriptor 0x0E [(0x0C, 4, 1000000)], flying 0x0E [(0x0C, 4, 1000000)], by decide +kernel⟩⟩

theorem met_StorageEvents :
    (∃ (v : VaultName) (b : Nat) (s : State), (s.vault v).copying = some b) ∧
    (∃ (n : Nat) (s : State), s.channelWorks n = true ∧ s.dram.scrubHours ≠ 0 ∧ s.dram.selfRefresh = false) ∧
    (∃ (n : Nat) (s : State), s.channelWorks n = true ∧ s.dram.selfRefresh = false) ∧
    (∃ (n : Nat) (s : State), s.job.loaded = false ∧ s.channelWorks n = true ∧ (s.channel n).pprList ≠ []) :=
  ⟨⟨.core 95, 0, { cores := [(95, { vault := { copying := some 0 } })] }, by decide +kernel⟩,
    ⟨23, { dram := { used := [23], moduleGb := 64, channels := [(23, { st := 1 })] } }, by decide +kernel⟩,
    ⟨23, { dram := { used := [23], moduleGb := 64, channels := [(23, { st := 1 })] } }, by decide +kernel⟩,
    ⟨23, { dram := { used := [23], moduleGb := 64, channels := [(23, { st := 1, pprList := [1] })] } }, by decide +kernel⟩⟩

theorem met_RemoteAccesses :
    (∃ (p : Packet) (s : State), p.kind = 6 ∧ s.inTurn p = true ∧ s.servable p.addr p.payload.length = true ∧ (∀ k, p.addr ≤ k → k < p.addr + p.payload.length → s.lostAt k = false)) ∧
    (∃ (p : Packet) (s : State), p.kind = 7 ∧ readReqOk p = true ∧ s.inTurn p = true ∧ s.servable p.addr (fld (leAt p.payload 8 2) 0 14) = true) ∧
    (∃ (p : Packet) (w : ReadWait) (s : State), p.kind = 8 ∧ s.inTurn p = true ∧ (s.consumed p).readFor p = some w ∧ w.dest = 0 ∧ (∀ k, w.addr ≤ k → k < w.addr + p.payload.length → s.lostAt k = false)) ∧
    (∃ (p : Packet) (w : ReadWait) (ly : Layer) (s : State), p.kind = 9 ∧ s.inTurn p = true ∧ (s.consumed p).readFor p = some w ∧ w.dest = 1 ∧ (s.core (w.unit / 48)).running = some ly ∧ ly.status = .ok) ∧
    (∃ (h : Nat) (w : ReadWait) (ly : Layer) (s : State), s.rtr.reads.find? (fun w => w.handle == h) = some w ∧ w.dest = 1 ∧ (s.core (w.unit / 48)).running = some ly ∧ ly.status = .ok) :=
  ⟨⟨fromOne 4 6 0 (List.replicate 64 1), flying 0 [], rfl, by decide +kernel, by decide +kernel, fun k _ _ => flying_lost 0 [] k⟩,
    ⟨fromOne 5 7 0 (layout 16 [(8, 2, 8192)]), { dram := { used := [0], moduleGb := 64, channels := [(0, { st := 1 })] } }, by decide +kernel⟩,
    ⟨fromOne 6 8 0 (List.replicate 64 1), { handle := 0, bytes := 64, deadline := 9, dest := 0, addr := 64 }, { flying 0 [] with rtr := { reads := [{ handle := 0, bytes := 64, deadline := 9, dest := 0, addr := 64 }] } }, rfl, by decide +kernel, by decide +kernel, rfl, fun k _ _ => flying_lost 0 [] k⟩,
    ⟨fromOne 6 9 0 [1], { handle := 0, bytes := 64, deadline := 9, dest := 1, unit := 48 }, { lcb := [] }, { rtr := { reads := [{ handle := 0, bytes := 64, deadline := 9, dest := 1, unit := 48 }] }, cores := [(1, { running := some { lcb := [] } })] }, by decide +kernel⟩,
    ⟨0, { handle := 0, bytes := 64, deadline := 9, dest := 1, unit := 48 }, { lcb := [] }, { rtr := { reads := [{ handle := 0, bytes := 64, deadline := 9, dest := 1, unit := 48 }] }, cores := [(1, { running := some { lcb := [] } })] }, by decide +kernel⟩⟩

theorem met_HostCopies :
    (∃ (d : Desc) (ecc : List (Nat × EccResult)) (s u : State), u = s.eccAll ecc ∧ s.holds d 6 = true ∧ s.host.dmas.any (fun x => x.desc == d) = false ∧ s.dmaBad d = false ∧ s.dramMismatch (dmaDst d) (dmaLen d) = false ∧ s.settle.phase = .idle ∧ dmaFrom d = 0 ∧ dmaTo d = 1 ∧ (∀ k, u.lostAt k = false)) ∧
    (∃ (d : Desc) (ecc : List (Nat × EccResult)) (s v u : State), v = s.eccAll ecc ∧ s.holds d 6 = true ∧ s.host.dmas.any (fun x => x.desc == d) = false ∧ s.dmaBad d = false ∧ s.dramMismatch (dmaSrc d) (dmaLen d) = false ∧ dmaFrom d = 1 ∧ dmaTo d = 0 ∧ (v.poisonList (dmaSrc d) (dmaLen d)).any id = false ∧ u = { v with out := v.out ++ (List.range ((dmaLen d + 63) / 64)).map (fun i => .hostWrite (dmaDst d + 64 * i) (((v.readMem (dmaSrc d) (dmaLen d)).drop (64 * i)).take 64) false) }) ∧
    (∃ (d : Desc) (s : State), s.holds d 6 = true ∧ s.host.dmas.any (fun x => x.desc == d) = false ∧ s.dmaBad d = false ∧ ((s.dmaHereFrom d = true ∧ s.dramMismatch (dmaSrc d) (dmaLen d) = true) ∨ (s.dmaHereTo d = true ∧ s.dramMismatch (dmaDst d) (dmaLen d) = true))) :=
  ⟨⟨descriptor 6 [(0x10, 8, 0x1000), (0x18, 8, 64), (0x20, 1, 4)], [], flying 6 [(0x10, 8, 0x1000), (0x18, 8, 64), (0x20, 1, 4)], _, rfl, by decide +kernel, by decide +kernel, by decide +kernel, by decide +kernel, rfl, by decide +kernel, by decide +kernel, fun k => flying_lost 6 [(0x10, 8, 0x1000), (0x18, 8, 64), (0x20, 1, 4)] k⟩,
    ⟨descriptor 6 [(8, 8, 0x1000), (0x18, 8, 64), (0x20, 1, 1)], [], flying 6 [(8, 8, 0x1000), (0x18, 8, 64), (0x20, 1, 1)], _, _, rfl, by decide +kernel, by decide +kernel, by decide +kernel, by decide +kernel, by decide +kernel, by decide +kernel, by decide +kernel, rfl⟩,
    ⟨descriptor 6 [(0x10, 8, 0x1000), (0x18, 8, 64), (0x20, 1, 4)], { flying 6 [(0x10, 8, 0x1000), (0x18, 8, 64), (0x20, 1, 4)] with units := [(UnitName.code ⟨.ddr, 0⟩, { mismatch := true })] }, by decide +kernel⟩⟩

theorem met_SettleSettings :
    (∃ (d : Desc) (data b : List Byte) (ecc : List (Nat × EccResult)) (s u : State), u = s.eccAll ecc ∧ s.cfgNow d 0 = true ∧ u.cfgData d 64 data = some b ∧ u.jobCheck b = none) ∧
    (∃ (d : Desc) (data b : List Byte) (ecc : List (Nat × EccResult)) (s u : State), u = s.eccAll ecc ∧ s.cfgNow d 1 = true ∧ cfgRange d false = none ∧ u.cfgData d (256 * min (cfgCount d) 4096) data = some b ∧ u.rowsCheck d b = none ∧ (∀ k, u.lostAt k = false)) ∧
    (∃ (d : Desc) (s : State), s.cfgNow d 2 = true ∧ cfgRange d false = none) ∧
    (∃ (d : Desc) (r : Row) (code : List Nat × Nat × Nat) (b : List Byte) (ecc : List (Nat × EccResult)) (s u : State), u = s.eccAll ecc ∧ s.cfgNow d 3 = true ∧ cfgRange d true = none ∧ r = s.row (cfgFirst d) ∧ rowValid r = true ∧ rowCount r = 1 ∧ s.engineMismatch = false ∧ code = wcConvert r (fun _ => none) (u.weights r 0) ∧ b = code.1.flatMap (leBytes (rowWcBytes r)) ∧ (∀ k, u.lostAt k = false) ∧ (rowWcScaled r = true → rowWcs r < rowWc r ∨ rowWc r + b.length ≤ rowWcs r)) :=
  ⟨⟨descriptor 7 [], layout 64 [(4, 4, 65535)], layout 64 [(4, 4, 65535)], [], flying 7 [], _, rfl, by decide +kernel, by decide +kernel, by decide +kernel⟩,
    ⟨descriptor 7 [(8, 2, 1), (0x0A, 2, 4095), (0x0C, 4, 1)], List.replicate 256 0, List.replicate 256 0, [], flying 7 [(8, 2, 1), (0x0A, 2, 4095), (0x0C, 4, 1)], _, rfl, by decide +kernel, by decide +kernel, by decide +kernel, by decide +kernel, fun k => flying_lost 7 [(8, 2, 1), (0x0A, 2, 4095), (0x0C, 4, 1)] k⟩,
    ⟨descriptor 7 [(8, 2, 2), (0x0A, 2, 4095), (0x0C, 4, 1)], flying 7 [(8, 2, 2), (0x0A, 2, 4095), (0x0C, 4, 1)], by decide +kernel⟩,
    ⟨descriptor 7 [(8, 2, 3), (0x0C, 4, 1)], oneRow, _, _, [], { flying 7 [(8, 2, 3), (0x0C, 4, 1)] with settle := { rows := [(0, oneRow)] } }, _, rfl, by decide +kernel, by decide +kernel, by decide +kernel, by decide +kernel, by decide +kernel, by decide +kernel, rfl, rfl, fun k => flying_lost 7 [(8, 2, 3), (0x0C, 4, 1)] k, fun h => absurd h (by decide +kernel)⟩⟩

theorem met_PlansAndQueries :
    (∃ (d : Desc) (data : List Byte) (ecc : List (Nat × EccResult)) (s u : State), u = s.eccAll ecc ∧ s.holds d 8 = true ∧ u.col.running = [] ∧ (List.range 8).any (fun c => (u.cluster c).lbs.any (fun x => x.2.st == .filling)) = false ∧ d.at 0x10 8 ≤ 1024 ∧ d.at 8 8 % 64 = 0 ∧ bit (d.at 0x18 1) 0 = false ∧ firstBad u.planRow (planEntries (d.at 0x10 8) data) = none) ∧
    (∃ (d : Desc) (data : List Byte) (i row : Nat) (ecc : List (Nat × EccResult)) (s u : State), u = s.eccAll ecc ∧ s.holds d 8 = true ∧ u.col.running = [] ∧ (List.range 8).any (fun c => (u.cluster c).lbs.any (fun x => x.2.st == .filling)) = false ∧ d.at 0x10 8 ≤ 1024 ∧ d.at 8 8 % 64 = 0 ∧ bit (d.at 0x18 1) 0 = false ∧ firstBad u.planRow (planEntries (d.at 0x10 8) data) = some (i, row)) ∧
    (∃ (d : Desc) (b : List Byte) (s u : State), s.holds d 0x0D = true ∧ s.rtr.proxies.any (fun x => x.2.1 == d) = false ∧ queryOk (querySel d) (queryIx d) = true ∧ d.at 0x10 8 % 64 = 0 ∧ bit (d.at 0x1C 1) 0 = false ∧ querySel d ≠ 7 ∧ b = (s.queryRecord (querySel d) (queryIx d)).1 ∧ b.length ≤ d.at 0x18 4 ∧ u = { s with out := s.out ++ [.hostWrite (d.at 0x10 8) b false] }) ∧
    (∃ (p : Packet) (s : State), p.kind = 10 ∧ p.channel = 7 ∧ s.inTurn p = true ∧ queryOk (fld p.addr 0 8) (fld p.addr 8 16) = true ∧ fld p.addr 0 8 ≠ 7 ∧ ((s.consumed p).queryRecord (fld p.addr 0 8) (fld p.addr 8 16)).1.length ≤ 8192) ∧
    (∃ (tag : Nat) (d : Desc) (due : Nat) (s u : State), s.rtr.proxies.find? (fun x => x.1 == tag) = some (tag, d, due) ∧ u = s.reach due) ∧
    (∃ (tag : Nat) (d : Desc) (due : Nat) (p : Packet) (s u : State), p.kind = 10 ∧ p.channel = 6 ∧ fld p.addr 33 15 = tag ∧ s.inTurn p = true ∧ fld p.addr 24 8 = 0 ∧ p.poison = [] ∧ (s.consumed p).rtr.proxies.find? (fun x => x.1 == tag) = some (tag, d, due) ∧ p.payload.length ≤ d.at 0x18 4 ∧ u = { s.consumed p with out := (s.consumed p).out ++ [.hostWrite (d.at 0x10 8) p.payload false] }) :=
  ⟨⟨descriptor 8 [(0x10, 8, 1)], planEntryOf 1, [], flying 8 [(0x10, 8, 1)], _, rfl, by decide +kernel, by decide +kernel, by decide +kernel, by decide +kernel, by decide +kernel, by decide +kernel, by decide +kernel⟩,
    ⟨descriptor 8 [(0x10, 8, 1)], planEntryOf 6, 0, 2, [], flying 8 [(0x10, 8, 1)], _, rfl, by decide +kernel, by decide +kernel, by decide +kernel, by decide +kernel, by decide +kernel, by decide +kernel, by decide +kernel⟩,
    ⟨descriptor 0x0D [(8, 2, 4), (0x18, 4, 8192)], _, flying 0x0D [(8, 2, 4), (0x18, 4, 8192)], _, by decide +kernel, rfl, by decide +kernel, by decide +kernel, by decide +kernel, by decide +kernel, rfl, by decide +kernel, rfl⟩,
    ⟨fromOne 7 10 4 [], .reset, by decide +kernel⟩,
    ⟨5, descriptor 0x0D [], 9, { rtr := { proxies := [(5, descriptor 0x0D [], 9)] } }, _, by decide +kernel, rfl⟩,
    ⟨5, descriptor 0x0D [(0x18, 4, 1)], 9, fromOne 6 10 (5 * 2 ^ 33) [1], { rtr := { proxies := [(5, descriptor 0x0D [(0x18, 4, 1)], 9)] } }, _, rfl, rfl, by decide +kernel, by decide +kernel, by decide +kernel, rfl, by decide +kernel, by decide +kernel, rfl⟩⟩

theorem met_Settlement :
    (∃ (l : Land) (ecc : List (Nat × EccResult)) (s u : State), u = s.eccAll ecc ∧ l.elems.length = rowN (s.row l.group) ∧ s.landHeld l = false ∧ u.landDrop l = none ∧ u.presentBit (s.row l.group) l.block = false ∧ (∀ k, u.lostAt k = false) ∧ (∀ r, r = s.row l.group → ∀ k, rowG r + l.block * 2 * rowN r ≤ k → k < rowG r + (l.block + 1) * 2 * rowN r → k ≠ rowGs r + l.block ∧ k ≠ rowPres r + l.block / 8 ∧ rowGs r + l.block ≠ rowPres r + l.block / 8)) ∧
    (∃ (l : Land) (s : State), l.elems.length = rowN (s.row l.group) ∧ s.landHeld l = true) ∧
    (∃ (ecc : List (Nat × EccResult)) (s : State), s.settle.phase ≠ .deciding ∧ s.settle.phase ≠ .pass ∧ s.settle.own = none ∧ s.microsDone = true ∧ s.commandFailed = false ∧ (s.dec.status = none ∨ s.stepHeld = false) ∧ (s.eccAll ecc).hasSlice = false) ∧
    (∃ (ecc : List (Nat × EccResult)) (s : State), s.settle.phase = .pass ∧ s.settle.heldLands = [] ∧ (s.eccAll ecc).col.heldSegs = []) ∧
    (∃ (s : State), s.settle.phase = .deciding ∧ s.settle.own.isSome) ∧
    (∃ (p : Packet) (s : State), s.inTurn p = true ∧ p.kind = 3 ∧ (s.consumed p).stmtOk p false = true ∧ s.settle.phase ≠ .deciding ∧ s.dec.stmtState ≠ 3 ∧ (((s.consumed p).treeKids (fld p.addr 1 2)).any (fun k => k.2 == p.src)) = true) ∧
    (∃ (p : Packet) (s : State), s.inTurn p = true ∧ p.kind = 3 ∧ (s.consumed p).stmtOk p true = true ∧ s.settle.phase = .deciding ∧ s.dec.sentUp = true) :=
  ⟨⟨{ group := 0, block := 0, micro := 0, elems := List.replicate 16 1, scale := 127, poison := false }, [], { settle := { rows := [(0, oneRow)] } }, _, rfl, by decide +kernel, by decide +kernel, by decide +kernel, by decide +kernel, fun k => by simp [State.eccAll, State.lostAt, tget], fun r h k h1 h2 => by subst h; exact row_apart k h1 h2⟩,
    ⟨{ group := 0, block := 0, micro := 0, elems := List.replicate 16 1, scale := 127, poison := false }, { settle := { rows := [(0, oneRow)], phase := .pass } }, by decide +kernel⟩,
    ⟨[], { settle := { microDone := 1 } }, by decide +kernel⟩,
    ⟨[], { settle := { phase := .pass } }, by decide +kernel⟩,
    ⟨{ settle := { phase := .deciding, own := some {} } }, by decide +kernel⟩,
    ⟨fromOne 1 3 (5 * 2 ^ 16) (List.replicate 64 0), sliced, by decide +kernel⟩,
    ⟨fromOne 1 3 (5 * 2 ^ 16 + 1) (List.replicate 64 0), { sliced with settle := { phase := .deciding }, dec := { sentUp := true } }, by decide +kernel⟩⟩

theorem met_Collectives :
    (∃ (c i : Nat) (t : Tick) (ecc : List (Nat × EccResult)) (e : List Byte) (s v : State), SeqIssues s c t ∧ v = (s.tick c t).eccAll ecc ∧ v.planEntry i = some e ∧ peOp e = 5 ∧ (v.lb (peLbCluster e) (peLb e)).st = .empty ∧ (v.lb (peLbCluster e) (peLb e)).commit = false) ∧
    (∃ (c i : Nat) (t : Tick) (ecc : List (Nat × EccResult)) (e : List Byte) (s v : State), SeqIssues s c t ∧ v = (s.tick c t).eccAll ecc ∧ v.planEntry i = some e ∧ peOp e ≤ 2 ∧ v.startStatus i = none ∧ (peAxes e).length ≤ 4 ∧ (∀ a ∈ peAxes e, v.ext a ≤ 1) ∧ v.col.heldSegs = []) ∧
    (∃ (p q : Packet) (fault : Bool) (ecc : List (Nat × EccResult)) (s u : State), p.kind = 4 ∧ s.inTurn p = true ∧ q = (if fault then p.poisonAll else p) ∧ u = (if fault then ((s.takeIn p q).eccAll ecc).detect .collectiveFault (srcBlock 1) [] else (s.takeIn p q).eccAll ecc) ∧ (∀ x ∈ u.col.heldSegs ++ [q], u.segFits x = none)) ∧
    (∃ (p q : Packet) (fault : Bool) (ecc : List (Nat × EccResult)) (i k : Nat) (e : List Byte) (x : RunEntry) (o y : WorkUnit) (s u : State), p.kind = 4 ∧ s.inTurn p = true ∧ q = (if fault then p.poisonAll else p) ∧ u = (if fault then ((s.takeIn p q).eccAll ecc).detect .collectiveFault (srcBlock 1) [] else (s.takeIn p q).eccAll ecc) ∧ u.segFits q = some (i, e, x) ∧ peOp e ≤ 2 ∧ u.runOf i = some x ∧ k = fld p.addr 10 38 ∧ tailUnits e x.per x.ub q = [y] ∧ x.unit k = some o ∧ u.posOn (peAxes e) (u.srcAxis p.src) (k / x.per) = u.ringPos (u.srcAxis p.src) ∧ 2 ≤ x.need) ∧
    (∃ (p : Packet) (i k a l : Nat) (e : List Byte) (x : RunEntry) (y : WorkUnit) (s u : State), p.kind = 5 ∧ s.inTurn p = true ∧ u = s.takeIn p p ∧ u.segFits p = some (i, e, x) ∧ peOp e ≤ 2 ∧ peBlk e = 0 ∧ u.runOf i = some x ∧ k = fld p.addr 10 38 ∧ tailUnits e x.per x.ub p = [y] ∧ (∀ a, s.lostAt a = false) ∧ a = u.srcAxis p.src ∧ l = u.ext a ∧ (if u.onPlus x.per a (k % x.per) then (u.ringPos a + 1) % l else (u.ringPos a + l - 1) % l) = u.posOn (peAxes e) a (k / x.per) ∧ 2 ≤ x.need) ∧
    (∃ (i : Nat) (ecc : List (Nat × EccResult)) (e : List Byte) (x z : RunEntry) (s u : State), s.runOf i = some z ∧ s.planEntry i = some e ∧ peOp e ≠ 4 ∧ peOp e ≠ 5 ∧ u = s.eccAll ecc ∧ u.runOf i = some x ∧ u.planEntry i = some e ∧ x.stages = [] ∧ x.need = 0 ∧ u.segsGone i = true ∧ peDoneEn e = true ∧ QueuesOpen u (peDone e)) :=
  ⟨⟨0, 0, {}, [], planEntryOf 5, { issuing with col := { plan := [planEntryOf 5], loaded := true } }, _, by decide +kernel, rfl, by decide +kernel, by decide +kernel, by decide +kernel, by decide +kernel⟩,
    ⟨0, 0, {}, [], planEntryOf 2, { sliced with dram := { used := [0], moduleGb := 64 }, clusters := issuing.clusters, rtr := { slice := { st := 1, id := 5, extent := ⟨1, 1, 1, 1⟩ } }, col := { plan := [planEntryOf 2], loaded := true } }, _, by decide +kernel, rfl, by decide +kernel, by decide +kernel, by decide +kernel, by decide +kernel, by decide +kernel, by decide +kernel⟩,
    ⟨fromOne 2 4 1023 [], _, false, [], .reset, _, by decide +kernel, by decide +kernel, rfl, rfl, by decide +kernel⟩,
    ⟨fromOne 2 4 0 (List.replicate 64 0), _, false, [], 0, 0, planEntryOf 2, { index := 0, stages := [(true, 0), (false, 0)], need := 2, per := 1, ub := 64, work := [(0, some { data := List.replicate 64 0 })] }, { data := List.replicate 64 0 }, { data := List.replicate 64 0 }, { sliced with col := { plan := [planEntryOf 2], loaded := true, running := [{ index := 0, stages := [(true, 0), (false, 0)], need := 2, per := 1, ub := 64, work := [(0, some { data := List.replicate 64 0 })] }] } }, _, rfl, by decide +kernel, rfl, rfl, by decide +kernel, by decide +kernel, by decide +kernel, by decide +kernel, by decide +kernel, by decide +kernel, by decide +kernel, by decide +kernel⟩,
    ⟨fromOne 3 5 (1 * 2 ^ 10) (List.replicate 64 0), 0, 1, 0, 4, planEntryOf 2, { index := 0, stages := [(false, 0)], need := 2, per := 1, ub := 64 }, { data := List.replicate 64 0 }, { sliced with col := { plan := [planEntryOf 2], loaded := true, running := [{ index := 0, stages := [(false, 0)], need := 2, per := 1, ub := 64 }] } }, _, rfl, by decide +kernel, rfl, by decide +kernel, by decide +kernel, by decide +kernel, by decide +kernel, by decide +kernel, by decide +kernel, fun k => by simp [State.lostAt, sliced, tget], by decide +kernel, by decide +kernel, by decide +kernel, by decide +kernel⟩,
    ⟨0, [], planEntryOf 2, { index := 0 }, { index := 0 }, { sliced with col := { plan := [planEntryOf 2], loaded := true, running := [{ index := 0 }] } }, _, by decide +kernel, by decide +kernel, by decide +kernel, by decide +kernel, rfl, by decide +kernel, by decide +kernel, by decide +kernel, by decide +kernel, by decide +kernel, by decide +kernel, by decide +kernel⟩⟩

theorem met_PointBarriers :
    (∃ (s : State), s.commandRuns = true ∧ s.col.pointWait = false ∧ (∀ c, c < 8 → s.layersLeft c = false) ∧ s.hasSlice = false) ∧
    (∃ (a : Nat) (k : Bool × Coord) (s : State), s.commandRuns = true ∧ s.col.pointWait = false ∧ (∀ c, c < 8 → s.layersLeft c = false) ∧ s.hasSlice = true ∧ s.rtr.slice.st ≠ 2 ∧ a ∈ s.treeAxes ∧ k ∈ s.treeKids a ∧ s.col.points = []) ∧
    (∃ (p : Packet) (s : State), s.inTurn p = true ∧ p.kind = 1 ∧ (s.consumed p).pointOk p false = true ∧ s.col.pointOwn = false ∧ (((s.consumed p).treeKids ((s.consumed p).srcAxis p.src)).any (fun k => k.2 == p.src)) = true) ∧
    (∃ (p : Packet) (s : State), s.inTurn p = true ∧ p.kind = 1 ∧ (s.consumed p).pointOk p true = true ∧ s.col.pointWait = true ∧ leAt p.payload 0 4 = s.col.pointNo) :=
  ⟨⟨{ clusters := [(7, { seq := { cmd := some (descriptor 4 []) } })] }, by decide +kernel⟩,
    ⟨0, (true, ⟨1, 0, 0, 0⟩), { sliced with clusters := [(7, { seq := { cmd := some (descriptor 4 []) } })] }, by decide +kernel⟩,
    ⟨fromOne 0 1 (5 * 2 ^ 16 + 1) (List.replicate 16 0), sliced, by decide +kernel⟩,
    ⟨fromOne 0 1 (5 * 2 ^ 16 + 2) (List.replicate 16 0), { sliced with col := { pointWait := true } }, by decide +kernel⟩⟩

theorem met_LocalCoins :
    (∃ (c q : Nat) (who : Requester) (t : Tick) (s : State), ReqIssues s c who t ∧ q < 256 ∧ (s.reqTick c who t).canIssue c who = true ∧ QueuesOpen s c) ∧
    (∃ (c q n : Nat) (who : Requester) (t : Tick) (s : State), ReqIssues s c who t ∧ q < 256 ∧ 1 ≤ n ∧ n ≤ 64 ∧ (s.reqTick c who t).canIssue c who = true ∧ QueuesOpen s c) ∧
    (∃ (c q : Nat) (who : Requester) (t : Tick) (v : W32) (vs : List W32) (s : State), ReqIssues s c who t ∧ q < 256 ∧ (s.reqTick c who t).canIssue c who = true ∧ QueuesOpen s c ∧ s.queue c q = ⟨v :: vs, []⟩) ∧
    (∃ (c q : Nat) (who : Requester) (t : Tick) (s : State), ReqIssues s c who t ∧ q < 256 ∧ (s.reqTick c who t).canIssue c who = true ∧ QueuesOpen s c ∧ s.queue c q = {}) ∧
    (∃ (c q : Nat) (who : Requester) (t : Tick) (s : State), ReqIssues s c who t ∧ q < 256 ∧ (s.reqTick c who t).canIssue c who = true ∧ QueuesOpen s c) ∧
    (∃ (c q : Nat) (t : Tick) (s : State), SeqIssues s c t ∧ q < 256) ∧
    (∃ (c q n pos i : Nat) (t : Tick) (vs : List W32) (s : State), ReqIssues s c (.context pos i) t ∧ q < 256 ∧ 1 ≤ n ∧ n ≤ 64 ∧ (s.reqTick c (.context pos i) t).canIssue c (.context pos i) = true ∧ QueuesOpen s c ∧ s.queue c q = ⟨vs, []⟩ ∧ n ≤ vs.length) ∧
    (∃ (c q k : Nat) (t : Tick) (vs : List W32) (s : State), SeqIssues s c t ∧ q < 256 ∧ tget ((s.tick c t).cluster c).coin.arm 0 q = k + 1 ∧ 1 ≤ k ∧ k ≤ 64 ∧ (s.tick c t).canIssue c .sequencer = true ∧ QueuesOpen s c ∧ s.queue c q = ⟨vs, []⟩ ∧ k ≤ vs.length) :=
  ⟨⟨0, 255, .sequencer, {}, issuing, by decide +kernel⟩,
    ⟨7, 255, 64, .context 11 47, {}, { cores := [(95, { ctxs := [(47, { st := .running })] })] }, by decide +kernel⟩,
    ⟨0, 255, .sequencer, {}, 5, List.replicate 63 5, { clusters := [(0, { seq := { st := .running }, queues := [(255, ⟨5 :: List.replicate 63 5, []⟩)] })] }, by decide +kernel⟩,
    ⟨0, 255, .sequencer, {}, issuing, by decide +kernel⟩,
    ⟨0, 0, .sequencer, {}, issuing, by decide +kernel⟩,
    ⟨0, 255, {}, issuing, by decide +kernel⟩,
    ⟨7, 255, 64, 11, 47, {}, List.replicate 64 5, { cores := [(95, { ctxs := [(47, { st := .running })] })], clusters := [(7, { queues := [(255, ⟨List.replicate 64 5, []⟩)] })] }, by decide +kernel⟩,
    ⟨0, 255, 64, {}, List.replicate 64 5, { clusters := [(0, { seq := { st := .running }, coin := { arm := [(255, 65)] }, queues := [(255, ⟨List.replicate 64 5, []⟩)] })] }, by decide +kernel⟩⟩

theorem met_RemoteCoins :
    (∃ (c : Nat) (t : Tick) (target : W64) (s : State), ReqIssues s c .sequencer t ∧ ((s.tick c t).cluster c).coin.outstanding = false ∧ (targetFields target).2.2.1 = 0 ∧ Coord.ofNat target.toNat = s.here ∧ QueuesOpen s (targetFields target).1) ∧
    (∃ (p : Packet) (s : State), coinPacketOk p = true ∧ p.kind = 2 ∧ p.channel = 1 ∧ s.inTurn p = true ∧ fld p.addr 12 4 = 0 ∧ QueuesOpen s (fld p.addr 8 3)) ∧
    (∃ (p : Packet) (w : CoinWait) (s : State), replyOk p = true ∧ p.kind = 2 ∧ p.channel = 6 ∧ s.inTurn p = true ∧ (s.consumed p).rtr.coinWaits.find? (fun w => w.cluster == (ofTag (leAt p.payload 12 2)).1 && w.who == (ofTag (leAt p.payload 12 2)).2 && w.target == p.src && w.tcluster == fld p.addr 8 3 && w.queue == fld p.addr 0 8) = some w) ∧
    (∃ (c q j : Nat) (w : Waiter) (s : State), (s.queue c q).waiters[j]? = some w ∧ s.deadlineStopped c w = false) ∧
    (∃ (j : Nat) (w : CoinWait) (s : State), s.rtr.coinWaits[j]? = some w) ∧
    (∃ (src : Coord) (ch coin q c : Nat) (p : Packet) (s : State), s.rtr.seals.find? (fun p => p.src == src && p.channel == ch) = some p ∧ s.sealHeld src ch = false ∧ p.sealExt = some (coin, q, c) ∧ QueuesOpen s (c % 8)) :=
  ⟨⟨0, {}, 0, issuing, by decide +kernel⟩,
    ⟨fromOne 1 2 0x7FF [5, 0, 0, 0], .reset, by decide +kernel⟩,
    ⟨fromOne 6 2 0x5000 (List.replicate 12 0 ++ [0x78, 0]), { who := .sequencer, cluster := 0, target := ⟨1, 0, 0, 0⟩, tcluster := 0, queue := 0, guard := 9 }, { rtr := { coinWaits := [{ who := .sequencer, cluster := 0, target := ⟨1, 0, 0, 0⟩, tcluster := 0, queue := 0, guard := 9 }] } }, by decide +kernel⟩,
    ⟨7, 255, 0, { who := .sequencer, n := some 64, deadline := 9 }, { clusters := [(7, { queues := [(255, ⟨[], [{ who := .sequencer, n := some 64, deadline := 9 }]⟩)] })] }, by decide +kernel⟩,
    ⟨0, { who := .sequencer, cluster := 0, target := {}, tcluster := 0, queue := 0, guard := 9 }, { rtr := { coinWaits := [{ who := .sequencer, cluster := 0, target := {}, tcluster := 0, queue := 0, guard := 9 }] } }, by decide +kernel⟩,
    ⟨⟨1, 0, 0, 0⟩, 4, 1, 255, 7, { fromOne 4 6 0 [] with sealExt := some (1, 255, 7) }, { rtr := { seals := [{ fromOne 4 6 0 [] with sealExt := some (1, 255, 7) }] } }, by decide +kernel⟩⟩

theorem met_TileCommands :
    (∃ (p : Nat) (ly : Layer) (s : State), s.works p = true ∧ (s.core p).running = some ly ∧ (s.core p).held = none ∧ (s.core p).issueQ ≠ []) ∧
    (∃ (p i : Nat) (ly : Layer) (a : AccTile) (k : Core) (s : State), s.works p = true ∧ (s.core p).running = some ly ∧ (s.core p).held = none ∧ (if mxK ly.lcb = 0 ∧ mxEn ly.lcb then (s.core p).deal ly else s.core p).finished ly.lcb i = some (a, k)) ∧
    (∃ (p i : Nat) (s : State), s.works p = true ∧ i < 48 ∧ (s.core p).takes i = true ∧ (tget (s.core p).ctxs {} i).loads = []) ∧
    (∃ (p i d : Nat) (f : LaneFn) (xs : List TeSrc) (early : Bool) (s : State), s.works p = true ∧ i < 48 ∧ (s.core p).takes i = true ∧ (TeOp.lane f d xs early).legal = true ∧ (tget (s.core p).ctxs {} i).loads = [] ∧ usesQueue xs = false ∧ (s.cluster (p / 12)).haz.modeInForce = 0) ∧
    (∃ (p i j : Nat) (l : LoadReq) (s : State), s.works p = true ∧ (tget (s.core p).ctxs {} i).loads[j]? = some l ∧ l.handle = none ∧ l.form = none ∧ (s.cluster (p / 12)).haz.modeInForce = 0) :=
  ⟨⟨0, { lcb := idleLcb }, { layered with cores := [(0, { running := some { lcb := idleLcb }, issueQ := [47] })] }, by decide +kernel⟩,
    ⟨0, 0, { lcb := idleLcb }, { tile := {}, rows := 0, cols := 0, kNext := 0 }, _, { layered with cores := [(0, { running := some { lcb := idleLcb }, accs := [(0, some { tile := {}, rows := 0, cols := 0, kNext := 0 })] })] }, by decide +kernel, rfl, rfl, rfl⟩,
    ⟨0, 47, layered, by decide +kernel⟩,
    ⟨0, 47, 31, .add, [.reg 31, .reg 0], false, layered, by decide +kernel⟩,
    ⟨0, 47, 0, { reg := 0, off := 0, addr := 0, bytes := 64 }, { layered with cores := [(0, { running := some { lcb := idleLcb }, ctxs := [(47, { loads := [{ reg := 0, off := 0, addr := 0, bytes := 64 }] })] })] }, by decide +kernel⟩⟩

theorem met_SequencerTables :
    (∃ (c pos word : Nat) (t : Tick) (s : State), SeqIssues s c t ∧ pos < 12 ∧ word < 64) ∧
    (∃ (c i : Nat) (t : Tick) (s : State), SeqIssues s c t ∧ i < 1024) ∧
    (∃ (c slot : Nat) (t : Tick) (s : State), SeqIssues s c t ∧ slot < 256) ∧
    (∃ (c : Nat) (t : Tick) (v : W64) (s : State), SeqIssues s c t ∧ bit v.toNat 0 = true) ∧
    (∃ (c slot : Nat) (t : Tick) (s : State), SeqIssues s c t ∧ slot < 256) ∧
    (∃ (c slot : Nat) (t : Tick) (v : W64) (s : State), SeqIssues s c t ∧ slot < 256 ∧ bit v.toNat 63 = true) :=
  ⟨⟨0, 11, 63, {}, issuing, by decide +kernel⟩,
    ⟨0, 1023, {}, issuing, by decide +kernel⟩,
    ⟨0, 255, {}, issuing, by decide +kernel⟩,
    ⟨0, {}, 1, issuing, by decide +kernel⟩,
    ⟨0, 255, {}, issuing, by decide +kernel⟩,
    ⟨0, 255, {}, 0x8000000000000000, issuing, by decide +kernel⟩⟩

theorem met_SequencerControl :
    (∃ (c pos : Nat) (t : Tick) (q : Purse) (red : Bool) (s : State), SeqIssues s c t ∧ pos < 12 ∧ (∀ u, u = s.tick c t → (u.cluster c).seq.active = true ∧ (u.cluster c).seq.stop = false ∧ u.stopsDevice = false ∧ (u.cluster c).seq.cfg = [] ∧ lcbCheck u c (c * 12 + pos) (u.core (c * 12 + pos)).lcb = none ∧ u.permitCore (c * 12 + pos) (u.core (c * 12 + pos)).lcb = none ∧ (u.core (c * 12 + pos)).pending = none ∧ (u.core (c * 12 + pos)).running = none ∧ (u.cluster c).purse.admits ((u.cluster c).purse.cost (u.core (c * 12 + pos)).lcb 1).1 ((u.cluster c).purse.cost (u.core (c * 12 + pos)).lcb 1).2 = some (q, red))) ∧
    (∃ (c n : Nat) (t : Tick) (s : State), SeqIssues s c t ∧ (s.tick c t).physOf n = none ∧ (s.cluster c).seq.active = true ∧ ((s.tick c t).cluster c).seq.stop = false) ∧
    (∃ (c : Nat) (t : Tick) (s : State), SeqIssues s c t) ∧
    (∃ (p : Nat) (ly : Layer) (s : State), p < 96 ∧ (s.core p).running = some ly ∧ (s.core p).canComplete = true) ∧
    (∃ (c n : Nat) (t : Tick) (s : State), SeqIssues s c t ∧ n < 4) ∧
    (∃ (c n : Nat) (s : State), (s.cluster c).seq.timerOn = some n ∧ (s.cluster c).seq.st = .waiting) ∧
    (∃ (c : Nat) (t : Tick) (s : State), SeqIssues s c t ∧ (s.tick c t).layersLeft c = false) ∧
    (∃ (c : Nat) (t : Tick) (s : State), SeqIssues s c t ∧ (s.tick c t).layersLeft c = true) ∧
    (∃ (c : Nat) (t : Tick) (s : State), SeqIssues s c t) ∧
    (∃ (c : Nat) (t : Tick) (s : State), SeqIssues s c t ∧ (s.cluster c).seq.active = true) ∧
    (∃ (c : Nat), c < 8) ∧
    (∃ (c : Nat) (x : Tick) (s : State), c < 8 ∧ (s.cluster c).seq.st = .running ∧ s.col.pointWait = false ∧ (s.cluster c).clock.stopped = false ∧ s.stopsDevice = false ∧ (s.cluster c).seq.imemBad.contains (x.pc % 2 ^ 18 / 64) = true) ∧
    (∃ (c : Nat) (s : State), c < 8 ∧ s.sec.debugEnd.isSome = true ∧ ((s.cluster c).seq.st = .running ∨ (s.cluster c).seq.st = .waiting)) ∧
    (∃ (c : Nat) (s : State), c < 8 ∧ (s.cluster c).seq.st = .halted ∧ (s.cluster c).seq.waitingStart = none) :=
  ⟨⟨0, 11, {}, { due := 0 }, false, { clusters := [(0, { seq := { st := .running, active := true } })], cores := [(11, { lcb := idleLcb })] }, by decide +kernel, by decide, fun u h => by subst h; decide +kernel⟩,
    ⟨0, 95, {}, { clusters := [(0, { seq := { st := .running, active := true } })], fuses := { absent := [95] } }, by decide +kernel⟩,
    ⟨0, {}, issuing, by decide +kernel⟩,
    ⟨95, { lcb := [] }, { cores := [(95, { running := some { lcb := [] } })] }, by decide +kernel⟩,
    ⟨0, 3, {}, issuing, by decide +kernel⟩,
    ⟨7, 3, { clusters := [(7, { seq := { st := .waiting, timerOn := some 3 } })] }, by decide +kernel⟩,
    ⟨0, {}, issuing, by decide +kernel⟩,
    ⟨0, {}, { issuing with cores := [(11, { running := some { lcb := [] } })] }, by decide +kernel⟩,
    ⟨0, {}, issuing, by decide +kernel⟩,
    ⟨0, {}, { clusters := [(0, { seq := { st := .running, active := true } })] }, by decide +kernel⟩,
    ⟨7, by decide +kernel⟩,
    ⟨7, {}, { clusters := [(7, { seq := { st := .running, imemBad := [0] } })] }, by decide +kernel⟩,
    ⟨7, { sec := { debugEnd := some 1 }, clusters := [(7, { seq := { st := .waiting } })] }, by decide +kernel⟩,
    ⟨7, { clusters := [(7, { seq := { st := .halted } })] }, by decide +kernel⟩⟩

theorem met_PursesFill :
    (∃ (s : State), (∀ c, c < 8 → (s.cluster c).seq.waitOn ≠ .purse)) ∧
    (∃ (s : State), (∀ c, c < 8 → s.clusterOn c = true → s.rails.good.contains (3 + c) = true) ∧ 2 ≤ s.dev.stage) ∧
    (∃ (c : Nat) (s : State), c < 8 ∧ (s.cluster c).clock.cstate = 0) ∧
    (∃ (c : Nat) (s : State), c < 8 ∧ (s.cluster c).clock.cstate = 0) :=
  ⟨⟨.reset, by decide +kernel⟩,
    ⟨{ dev := { stage := 2 }, rails := { good := List.range 14 } }, by decide +kernel⟩,
    ⟨7, { clusters := [(7, { clock := { cstate := 0 } })] }, by decide +kernel⟩,
    ⟨7, { clusters := [(7, { clock := { cstate := 0 } })] }, by decide +kernel⟩⟩

theorem met_HeatAndPace :
    (∃ (ts : List Int) (s : State), ts.length = 64 ∧ 1 ≤ s.dev.stage ∧ s.pwr.overTrip = []) ∧
    (∃ (s : State), s.paces = true) ∧
    (∃ (p : Packet) (s : State), s.inTurn p = true ∧ p.kind = 1 ∧ s.paceOk p false = true ∧ (s.treeKids (s.srcAxis p.src)).any (fun k => k.2 == p.src) = true ∧ s.pwr.paceOwn = none) ∧
    (∃ (p : Packet) (s : State), s.inTurn p = true ∧ p.kind = 1 ∧ s.paceOk p true = true ∧ s.paces = true) ∧
    (∃ (s : State), s.pwr.brake = false) :=
  ⟨⟨List.replicate 64 1600, { dev := { stage := 1 } }, by decide +kernel⟩,
    ⟨sliced, by decide +kernel⟩,
    ⟨fromOne 0 1 (5 * 2 ^ 16 + 0x10) (List.replicate 16 0), sliced, by decide +kernel⟩,
    ⟨fromOne 0 1 (5 * 2 ^ 16 + 0x11) (List.replicate 16 0), sliced, by decide +kernel⟩,
    ⟨.reset, by decide +kernel⟩⟩

theorem met_ClusterStates :
    (∃ (c : Nat) (s : State), c < 8 ∧ (s.cluster c).clock.cstate = 0 ∧ s.clusterQuiet c = true) ∧
    (∃ (c : Nat) (s : State), c < 8 ∧ (s.cluster c).clock.cstate = 1 ∧ s.pwr.pgEn = true ∧ s.dev.ready = true) ∧
    (∃ (c : Nat) (s : State), c < 8 ∧ s.canWake c = true ∧ (s.cluster c).clock.cstate ≤ 2) ∧
    (∃ (c : Nat), c < 8) ∧
    (∃ (s : State), s.pwr.deepEn = true ∧ s.dev.ready = true ∧ s.pwr.deepIdle = false ∧ s.commandRuns = false ∧ (∀ c, c < 8 → (s.cluster c).clock.cstate = 2) ∧ s.sliceLinks.any s.active = false) ∧
    (∃ (s : State), s.pwr.deepIdle = true) :=
  ⟨⟨7, { clusters := [(7, { clock := { cstate := 0 } })] }, by decide +kernel⟩,
    ⟨7, { dev := { ready := true } }, by decide +kernel⟩,
    ⟨7, { clusters := [(7, { clock := { cstate := 2 } })] }, by decide +kernel⟩,
    ⟨7, by decide +kernel⟩,
    ⟨{ pwr := { deepEn := true }, dev := { ready := true }, clusters := (List.range 8).map (fun c => (c, { clock := { cstate := 2 } })) }, by decide +kernel⟩,
    ⟨{ pwr := { deepIdle := true } }, by decide +kernel⟩⟩

theorem met_RailEvents :
    (∃ (r : Nat), r < 18) ∧
    (∃ (r : Nat) (s : State), r < 14 ∧ s.rails.enabled.contains r = true ∧ s.rails.low.contains r = false) ∧
    (∃ (r : Nat) (s : State), s.rails.low.contains r = true) ∧
    (∃ (r : Nat) (s : State), r < 14 ∧ s.rails.low.contains r = true) ∧
    (∃ (domain addr : Nat) (s : State), s.rails.crossing.find? (fun x => x.domain == domain && x.addr == addr) = none) ∧
    (∃ (domain addr : Nat) (x : Crossing) (s : State), s.rails.crossing.find? (fun x => x.domain == domain && x.addr == addr) = some x) :=
  ⟨⟨17, by decide +kernel⟩,
    ⟨13, { rails := { enabled := [13] } }, by decide +kernel⟩,
    ⟨13, { rails := { low := [13] } }, by decide +kernel⟩,
    ⟨13, { rails := { low := [13] } }, by decide +kernel⟩,
    ⟨0, 0, .reset, by decide +kernel⟩,
    ⟨7, 8, { domain := 7, addr := 8, bytes := 8, deadline := 9 }, { rails := { crossing := [{ domain := 7, addr := 8, bytes := 8, deadline := 9 }] } }, by decide +kernel⟩⟩

theorem met_ReadsAnswered :
    (∃ (b w : Nat) (body : List Byte) (s : State), Served s b w ∧ body.length = 4 ∧ 64 * leAt body 2 2 ≤ 1024 ∧ 64 * leAt body 0 2 + 64 * leAt body 2 2 ≤ 4096) ∧
    (∃ (b w : Nat) (body : List Byte) (s : State), Served s b w ∧ body.length = 3 ∧ 1 ≤ leAt body 2 1 ∧ leAt body 2 1 ≤ 32 ∧ (s.err.dayBook = [] ∨ (s.err.nextSeq + 65536 - leAt body 0 2) % 65536 = 0)) ∧
    (∃ (b w : Nat) (body : List Byte) (s : State) (d : Nat), Served s b w ∧ body.length = 3 ∧ 1 ≤ leAt body 2 1 ∧ leAt body 2 1 ≤ 32 ∧ d = (s.err.nextSeq + 65536 - leAt body 0 2) % 65536 ∧ 1 ≤ d ∧ d ≤ s.err.dayBook.length ∧ d ≤ 32768) ∧
    (∃ (b w : Nat) (body : List Byte) (s : State) (r : LedgerRecord), Served s b w ∧ body.length = 12 ∧ (s.ledger.records.filter (fun r => r.live && r.seq == leAt body 0 8)).getLast? = some r ∧ 64 * leAt body 10 2 ≤ 1024 ∧ 64 * leAt body 8 2 + 64 * leAt body 10 2 ≤ roundUp 64 r.bytes.length) ∧
    (∃ (b w : Nat) (s : State), Served s b w) ∧
    (∃ (b w : Nat) (body : List Byte) (s : State) (u : UnitName), Served s b w ∧ body.length = 2 ∧ unitOf (leAt body 0 2) = some u) ∧
    (∃ (b w : Nat) (body : List Byte) (s : State), Served s b w ∧ body.length = 4 ∧ leAt body 0 4 % 8 = 0 ∧ leAt body 0 4 < 2 ^ 26 ∧ (∀ r, regAt (leAt body 0 4) = some r → s.regAsleep r.1 = false)) :=
  ⟨⟨2, 3, [48, 0, 16, 0], managed, by decide +kernel⟩,
    ⟨2, 3, [0, 0, 32], managed, by decide +kernel⟩,
    ⟨2, 3, [0, 0, 32], { managed with err := { nextSeq := 1, dayBook := [{ cls := .reset, sev := .info, time := 0, source := 0, seq := 0 }] } }, 1, by decide +kernel⟩,
    ⟨2, 3, layout 12 [(0, 8, 7), (10, 2, 1)], { managed with ledger := { records := [{ kind := 5, seq := 7, lifeS := 0, time := 0, prev := [], payload := [], hash := [] }] } }, { kind := 5, seq := 7, lifeS := 0, time := 0, prev := [], payload := [], hash := [] }, by decide +kernel⟩,
    ⟨2, 3, managed, by decide +kernel⟩,
    ⟨2, 3, [7, 5], managed, ⟨.port, 7⟩, by decide +kernel⟩,
    ⟨2, 3, [0x30, 0, 0x60, 0], managed, by decide +kernel, by decide +kernel, by decide +kernel, by decide +kernel, fun r h => by cases (show regAt (leAt [0x30, 0, 0x60, 0] 0 4) = some (.therm, 0) from by decide +kernel).symm.trans h; decide +kernel⟩⟩

theorem met_ManagementSettings :
    (∃ (b w : Nat) (s : State), s.bucelRuns = true ∧ b < 3 ∧ w < 4) ∧
    (∃ (b w : Nat) (body : List Byte) (s : State) (u : UnitName) (p : Perm), Served s b w ∧ body.length = 4 ∧ unitOf (leAt body 0 2) = some u ∧ permOf (leAt body 2 1) = some p ∧ (p = .powerOff → u.kind = .cluster) ∧ s.permWord u ≠ .absent ∧ (p = .enabled → (s.modUnit u.code (fun w => { w with hold := bit (leAt body 3 1) 0 })).withheld u = false)) ∧
    (∃ (b w : Nat) (body : List Byte) (s : State), Served s b w ∧ body.length = 2 ∧ 300 ≤ leAt body 0 2 ∧ leAt body 0 2 ≤ 2000) ∧
    (∃ (b w : Nat) (body : List Byte) (s : State), Served s b w ∧ body.length = 8 ∧ leAt body 0 1 ≤ 7 ∧ 1000 ≤ leAt body 4 4 ∧ leAt body 4 4 ≤ 100000) ∧
    (∃ (b w : Nat) (s : State), Served s b w) :=
  ⟨⟨2, 3, managed, by decide +kernel⟩,
    ⟨2, 3, [7, 2, 3, 1], managed, ⟨.cluster, 7⟩, .powerOff, by decide +kernel⟩,
    ⟨2, 3, [0xD0, 7], managed, by decide +kernel⟩,
    ⟨2, 3, layout 8 [(0, 1, 7), (4, 4, 100000)], managed, by decide +kernel⟩,
    ⟨2, 3, managed, by decide +kernel⟩⟩

theorem met_PlanAndEvents :
    (∃ (b w : Nat) (body : List Byte) (s : State), Served s b w ∧ body.length = 64 ∧ s.planWriteRow body = 6) ∧
    (∃ (b w : Nat) (body : List Byte) (s : State), Served s b w ∧ body.length = 64 ∧ (s.planWriteRow body = 1 ∨ s.planWriteRow body = 5)) ∧
    (∃ (b w : Nat) (body : List Byte) (s : State), Served s b w ∧ body.length = 32 ∧ s.maintenance = true ∧ s.dev.plan.isSome = true ∧ planHash s.dev.plan = body) ∧
    (∃ (b w id v : Nat) (s : State), Served s b w ∧ id < 5000 ∧ s.sensor id = some (some v) ∧ s.sensorAbsent id = false ∧ s.mgmt.lastStmt ≠ []) ∧
    (∃ (i : Nat) (e : PldmEvent) (s : State), s.mgmt.pldmEvents[i]? = some e ∧ s.mgmt.bucelDown = false) :=
  ⟨⟨2, 3, layout 64 [(0, 4, 0x40404040)], managed, by decide +kernel⟩,
    ⟨2, 3, layout 64 [(0, 4, 0x40404040)], { managed with dev := { stage := 1, position := 1 } }, by decide +kernel⟩,
    ⟨2, 3, sha256 (List.replicate 32 1), { managed with sec := { maintEnd := some 1 }, dev := { stage := 1, plan := some (List.replicate 64 1) } }, by decide +kernel⟩,
    ⟨2, 3, 64, 1, { managed with mgmt := { eid := 8, lastStmt := layout 4096 [(0xBE, 2, 1)] } }, by decide +kernel⟩,
    ⟨0, { entry := [] }, { mgmt := { pldmEvents := [{ entry := [] }] } }, by decide +kernel⟩⟩

theorem met_FirmwareUpdate :
    (∃ (b w cls : Nat) (s : State), Served s b w ∧ s.sec.halt = false ∧ 1 ≤ cls ∧ cls ≤ 4) ∧
    (∃ (b w cls : Nat) (s : State), Served s b w ∧ s.sec.halt = false ∧ s.mgmt.updating = some cls) ∧
    (∃ (b w : Nat) (s : State), Served s b w ∧ s.sec.halt = false) :=
  ⟨⟨2, 3, 4, managed, by decide +kernel⟩,
    ⟨2, 3, 4, { managed with mgmt := { eid := 8, updating := some 4 } }, by decide +kernel⟩,
    ⟨2, 3, managed, by decide +kernel⟩⟩

theorem met_PeriodicRecords :
    (∃ (s : State), s.sec.halt = false ∧ s.dev.stage ≠ 0 ∧ s.mgmt.bucelDown = false) ∧
    (∃ (s : State), s.sec.halt = false ∧ s.dev.stage ≠ 0 ∧ s.mgmt.bucelDown = true) ∧
    (∃ (s : State) (o st : Nat), s.sec.halt = false ∧ s.dev.stage ≠ 0 ∧ s.mgmt.bucelDown = false ∧ s.err.injArm = false ∧ s.ledger.place 5 (96 + (s.reachLife 5 3600).countersBytes.length) s.ledger.offset = some (o, st)) ∧
    (∃ (s : State), s.sec.halt = false ∧ s.dev.stage ≠ 0) :=
  ⟨⟨{ dev := { stage := 1 } }, by decide +kernel⟩,
    ⟨{ dev := { stage := 1 }, mgmt := { bucelDown := true } }, by decide +kernel⟩,
    ⟨{ dev := { stage := 1 } }, 0, 0, by decide +kernel⟩,
    ⟨{ dev := { stage := 6 } }, by decide +kernel⟩⟩

theorem met_Attestation :
    (∃ (b w : Nat) (body : List Byte) (s : State), Served s b w ∧ body.length = 33 ∧ s.sec.treeReady = true ∧ s.sec.blocked = false ∧ s.sec.nextLeaf + 64 < s.sec.leafEnd ∧ s.sec.nextLeaf < leafCount) ∧
    (∃ (b w : Nat) (body : List Byte) (s : State), Served s b w ∧ body.length = 33 ∧ s.sec.treeReady = true ∧ s.sec.blocked = true) ∧
    (∃ (b w : Nat) (body : List Byte) (s : State), Served s b w ∧ body.length = 33 ∧ s.sec.treeReady = false) :=
  ⟨⟨2, 3, List.replicate 33 0, { managed with sec := { leafEnd := 65 } }, by decide +kernel⟩,
    ⟨2, 3, List.replicate 33 0, { managed with sec := { blocked := true } }, by decide +kernel⟩,
    ⟨2, 3, List.replicate 33 0, { managed with sec := { treeReady := false } }, by decide +kernel⟩⟩

theorem met_Tokens :
    (∃ (b w : Nat) (s : State), Served s b w) ∧
    (∃ (b w : Nat) (token key sig n : List Byte) (till : Nat) (s : State), Served s b w ∧ token.length = 64 ∧ key.length = 60 ∧ ([sigBytes 1, sigBytes 2, sigBytes 3] : List Nat).contains sig.length = true ∧ s.sec.nonce = some (n, till) ∧ s.aoNs < till) ∧
    (∃ (n : List Byte) (till : Nat) (s : State), s.sec.nonce = some (n, till)) ∧
    (∃ (till : Nat) (s : State), s.sec.debugEnd = some till) ∧
    (∃ (till : Nat) (s : State), s.sec.maintEnd = some till) :=
  ⟨⟨2, 3, managed, by decide +kernel⟩,
    ⟨2, 3, List.replicate 64 0, List.replicate 60 0, List.replicate 8120 0, [], 1, { managed with sec := { nonce := some ([], 1) } }, by decide +kernel⟩,
    ⟨[], 1, { sec := { nonce := some ([], 1) } }, by decide +kernel⟩,
    ⟨1, { sec := { debugEnd := some 1 } }, by decide +kernel⟩,
    ⟨1, { sec := { maintEnd := some 1 } }, by decide +kernel⟩⟩

theorem met_BringUp :
    (∃ (r : Nat) (s : State), s.dev.stage = 2 ∧ s.dev.railFailed = false ∧ s.rails.enabled.getLast? = some r ∧ s.rails.good.contains r = false ∧ s.rails.low.contains r = false) ∧
    (∃ (r : Nat) (s : State), 3 ≤ s.dev.stage ∧ isClusterRail r = true ∧ s.rails.enabled.contains r = true ∧ s.rails.good.contains r = false ∧ s.rails.low.contains r = false) ∧
    (∃ (ref : Nat) (s : State), s.dev.refMissing.contains ref = true) ∧
    (∃ (s : State), s.dev.stage = 3 ∧ s.sec.phyRingBad = false) ∧
    (∃ (s : State), s.dev.stage = 4) ∧
    (∃ (s : State), s.dev.stage = 5 ∧ s.dev.zeroed = false) ∧
    (∃ (s : State), s.dev.stage = 5 ∧ s.dev.zeroed = true ∧ s.dev.ready = false) ∧
    (∃ (cls : Nat) (s : State), s.dev.ready = true ∧ tget s.sec.booted [] cls ≠ []) :=
  ⟨⟨13, { dev := { stage := 2 }, rails := { enabled := [13] } }, by decide +kernel⟩,
    ⟨10, { dev := { stage := 3 }, rails := { enabled := [10] } }, by decide +kernel⟩,
    ⟨1, { dev := { refMissing := [1] } }, by decide +kernel⟩,
    ⟨{ dev := { stage := 3 } }, by decide +kernel⟩,
    ⟨{ dev := { stage := 4 } }, by decide +kernel⟩,
    ⟨{ dev := { stage := 5 } }, by decide +kernel⟩,
    ⟨{ dev := { stage := 5, zeroed := true } }, by decide +kernel⟩,
    ⟨4, { dev := { ready := true }, sec := { booted := [(4, [1])] } }, by decide +kernel⟩⟩

theorem met_Resets :
    (∃ (s : State), s.coldBringUp = false ∧ 3 ≤ s.dev.stage) ∧
    (∃ (s : State), s.dev.ready = true) ∧
    (∃ (s : State), s.dev.scrubbing = true) ∧
    (∃ (c : Nat) (s : State), s.dev.ready = true ∧ c < 8) ∧
    (∃ (p : Nat) (s : State), s.dev.ready = true ∧ p < 96) ∧
    (∃ (n : Nat) (s : State), s.dev.ready = true ∧ n < 8) :=
  ⟨⟨{ dev := { ready := true, stage := 3 } }, by decide +kernel⟩,
    ⟨{ dev := { ready := true } }, by decide +kernel⟩,
    ⟨{ dev := { scrubbing := true } }, by decide +kernel⟩,
    ⟨7, { dev := { ready := true } }, by decide +kernel⟩,
    ⟨95, { dev := { ready := true } }, by decide +kernel⟩,
    ⟨7, { dev := { ready := true } }, by decide +kernel⟩⟩

/-! ### The manual's worked examples -/

/-- 02_number_formats.md, 'one E4M3 block': 3.7, 0.01, -0.0004, 0.00001 and 0 with T = 1.0 get the scale code 0x78 and these codes,
with no flag. -/
theorem test_convert_e4m3_block :
    convertBlock .e4m3 true 0x3F800000 (fun _ => none) [0x406CCCCD, 0x3C23D70A, 0xB9D1B717, 0x3727C5AC, 0] =
      { scale := 0x78, codes := [0x7E, 0x3A, 0x95, 0x01, 0x00], fl := {} } := by decide +kernel

/-- The operands of one product in native B16. -/
def b16Pair (a b : Nat) : Opnd × Opnd := (opndOf .b16 false none a false, opndOf .b16 false none b false)

/-- 02_number_formats.md, 'an infinite product and a NaN product': the element drains as 0x7FC0_0000 with INV and not OVF, and is
written to B16 as 0x7FC0. -/
theorem test_dot_infinite_and_nan :
    let ops := (List.range 128).map (fun k => if k = 0 then b16Pair 0x7F80 0x4000 else if k = 53 then b16Pair 0xFFC1 0x3F80 else b16Pair 0x3F80 0x3F80)
    let r := accRun false (.empty, {}) ops 8
    let d := drainElem false r.1 0x3F800000 0x3F800000 none
    d.bits = 0x7FC00000 ∧ r.2.or d.fl = { inv := true } ∧ (roundElem .b16 d.val none false).1 = 0x7FC0 := by decide +kernel

/-- The same example's two variants: with a finite value in its place the output is +∞ with no flag; with -∞ it is NaN with INV. -/
theorem test_dot_infinite_variants :
    let run (x : Nat) : W32 × Flags :=
      let ops := (List.range 128).map (fun k => if k = 0 then b16Pair 0x7F80 0x4000 else if k = 53 then b16Pair x 0x3F80 else b16Pair 0x3F80 0x3F80)
      let r := accRun false (.empty, {}) ops 8
      let d := drainElem false r.1 0x3F800000 0x3F800000 none
      (d.bits, r.2.or d.fl)
    run 0x3F80 = (0x7F800000, {}) ∧ run 0xFF80 = (0x7FC00000, { inv := true }) := by decide +kernel

/-- 02_number_formats.md, 'block-scale sums beyond range': 16 products of 448 × 448 under scales 0xF0 and 0xE8 drain as +∞ with OVF under
T = 1.0, and as 0x7744_0000 with no flag under two scales of 2^-64. -/
theorem test_dot_beyond_range :
    let ops := List.replicate 16 (opndOf .e4m3 false (some 0xF0) 0x7E false, opndOf .e4m3 false (some 0xE8) 0x7E false)
    let r := accRun false (.empty, {}) ops 1
    drainElem false r.1 0x3F800000 0x3F800000 none = ⟨0x7F800000, { ovf := true }⟩ ∧
      drainElem false r.1 0x1F800000 0x1F800000 none = ⟨0x77440000, {}⟩ ∧ r.2 = {} := by decide +kernel

/-- The same example: +∞ is written as scale 0xFE, element 0x7E, with SAT; 0x7744_0000 as scale 0xE6, element 0x7C, with no flag. -/
theorem test_convert_beyond_range :
    convertBlock .e4m3 true 0x3F800000 (fun _ => none) [0x7F800000] = { scale := 0xFE, codes := [0x7E], fl := { sat := true } } ∧
      convertBlock .e4m3 true 0x3F800000 (fun _ => none) [0x77440000] = { scale := 0xE6, codes := [0x7C], fl := {} } := by decide +kernel

/-- 06_memory.md, 'locating an address': with 24 modules a = 0x0040_0000_1800 lies in channel 17 at 0x0002_AAAA_A800; without channel 5
it lies in channel 18 at 0x0002_C859_0800. -/
theorem test_locate_address :
    ({ used := List.range 24, moduleGb := 256 } : Dram).locate 0x004000001800 = (17, 0x0002AAAAA800) ∧
      ({ used := (List.range 24).filter (· != 5), moduleGb := 256 } : Dram).locate 0x004000001800 = (18, 0x0002C8590800) := by decide +kernel

/-- The row of 07_settlement_engine.md, 'one adaptive-moment element', in F32: A1 = 0.9, 1 - A1, A2 = 0.95, 1 - A2, N1 = 1, EPS = 1e-8,
D1 = 1, LR = 3e-4, WD = 0.1, B1 = 0.9, B2 = 0.95, and the powers after nine steps. -/
def momentRow : Row := layout 256 [(0x00, 4, 0x3F666666), (0x04, 4, 0x3DCCCCCD), (0x08, 4, 0x3F733333), (0x0C, 4, 0x3D4CCCCD), (0x14, 4, 0x3F800000),
  (0x1C, 4, 0x322BCC77), (0x20, 4, 0x3F800000), (0x30, 4, 0x3DCCCCCD), (0x34, 4, 0x399D4952), (0x40, 4, 0x3F666666), (0x44, 4, 0x3F733333),
  (0x48, 4, 0x3EC65BFA), (0x4C, 4, 0x3F215806), (0x50, 8, 9), (0x5C, 4, 0x3F800000), (0x60, 8, 0x1001)]

/-- The same example: c = 0.6666667, w = 0.0125, m = 0.002, v = 1e-5 and g = 2^-8 give k1 = 1.535340, a weight of 0.01230797 whose working
copy is the B16 code 0x3C4A, and the step counter goes up by one. -/
theorem test_adaptive_moment_element :
    let r := advanceRow momentRow
    let x := recur false r (stepConst r 0x3F2AAAAB) 0x3C4CCCCD0000 (FV.of 0x3B03126F) (FV.of 0x3727C5AC) (FV.of 0) (FV.of 0x3B800000)
    rowStep r = 10 ∧ (wcConvert r (fun _ => none) [x.w]).1 = [0x3C4A] ∧ x.w / 2 ^ 20 = 0x3C49A75 ∧ x.m.bits.toNat / 256 = 0x3B0708 := by decide +kernel

/-- 11_routing_and_slices.md, 'one route with a dateline': the hops of a C4 packet from (3, 1, 2, 5) to (6, 3, 0, 14), by port and VC. -/
def routed (c : Coord) : State :=
  { dev := { position := c.toNat, posState := 0, plan := some (layout 64 [(0, 4, 0x10060408), (4, 1, 0xF)]) }
    rtr := { slice := { st := 1, extent := ⟨8, 4, 6, 16⟩ } } }
/-- The example's packet. -/
def routedPacket : Packet := { channel := 4, kind := 6, dest := ⟨6, 3, 0, 14⟩, src := ⟨3, 1, 2, 5⟩, addr := 0, payload := [] }

theorem test_route_with_a_dateline :
    (routed ⟨3, 1, 2, 5⟩).nextHop routedPacket none = (0, 0) ∧ (routed ⟨6, 1, 2, 5⟩).nextHop routedPacket (some (1, 0)) = (2, 0) ∧
      (routed ⟨6, 3, 2, 5⟩).nextHop routedPacket (some (3, 0)) = (5, 0) ∧ (routed ⟨6, 3, 0, 5⟩).nextHop routedPacket (some (4, 0)) = (7, 0) ∧
      (routed ⟨6, 3, 0, 0⟩).nextHop routedPacket (some (6, 0)) = (7, 1) ∧ (routed ⟨6, 3, 0, 15⟩).nextHop routedPacket (some (6, 1)) = (7, 1) := by
  decide +kernel

/-- 15_power_and_clocks.md, 'two admission policies', row 1: under policy 2 the layer starts reduced with DUE = 6,800,000 nJ and nothing
left; under policy 1 it waits. -/
theorem test_admission_policies :
    (({ balance := 4000000, rate := 169921 } : Purse).admits 2 10800000).map (fun x => (x.1.balance, x.1.due, x.2)) = some (0, 6800000, true) ∧
      ({ balance := 4000000, rate := 169921 } : Purse).admits 1 10800000 = none := by decide +kernel

/-- The same example, rows 2 and 3: after 40 ticks DUE is 3,160 nJ, and the 41st pays it and adds 166,761 nJ. -/
theorem test_purse_ticks :
    let p := (List.range 40).foldl (fun p _ => p.tick) ({ balance := 0, due := 6800000, rate := 169921 } : Purse)
    p.due = 3160 ∧ p.balance = 0 ∧ p.tick.due = 0 ∧ p.tick.balance = 166761 := by decide +kernel

/-- 20_package_and_electrical.md: the strap levels of position (3, 1, 2, 5) on board revision 2 give the position word 0x0214_2043. -/
theorem test_position_word :
    (State.reset.readStraps ([3, 0, 0, 1, 0, 0, 2, 0, 0, 1, 1, 0, 2, 0, 0, 0].map (fun l => List.replicate 3 (333 * l)))).dev.position = 0x02142043 := by
  decide +kernel

/-- 21_register_map.md: FAB_DETOUR3_5 lies at 0x0020_1350, and G7 of cluster 5 at 0x00D0_0138. -/
theorem test_register_addresses : regAt 0x00201350 = some (.detour 3 5, 0) ∧ regAt 0x00D00138 = some (.greg 5 7, 0) := by decide +kernel

/-- 02_number_formats.md, R59 and R44: a NaN scale decodes as NaN. -/
theorem test_nan_scale : (scaledVal .e2m1 (some 0xFF) 3).1 = .nan := by decide +kernel

/-! ### Hypotheses of statements that run no command -/

theorem met_FramesRoundTrip :
    let p : Packet := { fromOne 7 15 (2 ^ 48 - 1) (List.replicate 64 1) with sealExt := some (2 ^ 32 - 1, 255, 2 ^ 24 - 1), poison := [0] }
    note.sendable = true ∧ p.sendable = true ∧ (List.replicate 24 (0 : Byte)).length = 24 ∧
    readFrame (Frame.packet 1 65535 (some 65535) p).blocks = .frame (.packet 1 65535 (some 65535) p) true := by decide +kernel
theorem met_FusesOnlyRise : (∀ k, Instr.powerBrake ≠ .rollbackFuseBlow k) ∧ ({ fuses := { revoke0 := true } } : State).fuses.revoke0 = true :=
  ⟨fun _ h => Instr.noConfusion h, rfl⟩
theorem met_E2m1Elements : ∃ (codes : List Nat) (i x y code : Nat), codes[2 * i]? = some x ∧ codes[2 * i + 1]? = some y ∧ x < 16 ∧ y < 16 ∧ code < 16 :=
  ⟨[15, 0], 0, 15, 0, 15, by decide⟩
theorem met_NanScales : ∃ (scale : Option Nat) (code : Nat), (scaledVal .e2m1 scale code).1 = .nan := ⟨some 0xFF, 0, by decide +kernel⟩

end Sys2Proof.Tests
end

