-- ==== Sys2Proof/Proofs/NumberFormats.lean ====
section
/-!
PROOFS. Number formats (02_number_formats.md): the E2M1 code table, the packing of two elements to a byte, and the NaN block scale.
-/
set_option autoImplicit false
namespace Sys2Proof.Machine

/-! ### The value of an E2M1 code (R39, R41) -/

/-- The integer significand of an E2M1 code: the fraction bit, below a leading 1 when the exponent field is not 0. -/
def e2m1Sig (code : Nat) : Nat := if fld code 1 2 = 0 then fld code 0 1 else 2 + fld code 0 1

/-- The exponent of the last bit of that significand; `decodeElem` gives a zero the exponent 0. -/
def e2m1Exp (code : Nat) : Int :=
  if fld code 1 2 = 0 then (if fld code 0 1 = 0 then 0 else -1) else Int.ofNat (fld code 1 2) - 2

/-- E2M1 has neither NaN nor infinity and honours its subnormals, so every code is a finite number and raises no flag. -/
theorem decodeElem_e2m1 (code : Nat) : decodeElem .e2m1 code = (.fin (bit code 3) (e2m1Sig code) (e2m1Exp code), {}) := by
  unfold decodeElem e2m1Sig e2m1Exp
  simp only [Format.exp, Format.frac, Format.bias, Format.emin, Format.hasInf, Format.honoursSubnormals]
  by_cases hex : fld code 1 2 = 0
  · by_cases hfr : fld code 0 1 = 0 <;> simp [hex, hfr]
  · simp [hex, Int.sub_sub]

/-- The table of R41, in halves. -/
theorem e2m1_table : ∀ code < 16, bit code 3 = decide (8 ≤ code) ∧ -1 ≤ e2m1Exp code ∧
    some (e2m1Sig code * 2 ^ (e2m1Exp code + 1).toNat) = ([0, 1, 2, 3, 4, 6, 8, 12] : List Nat)[code % 8]? := by decide

/-! ### Two elements to a byte (R42) -/

/-- The low half of a byte of two four-bit codes. -/
theorem fld_low_of_pair {x : Nat} (y : Nat) (hx : x < 16) : fld (x + 16 * y) 0 4 = x := by
  simp only [fld, Nat.shiftRight_zero]; omega

/-- The high half of a byte of two four-bit codes. -/
theorem fld_high_of_pair {x y : Nat} (hx : x < 16) (hy : y < 16) : fld (x + 16 * y) 4 4 = y := by
  simp only [fld, Nat.shiftRight_eq_div_pow]; omega

/-- The address of an E2M1 element is that of the byte that it shares with its neighbour. -/
theorem elemAddr_e2m1 (row j : Nat) : Format.e2m1.elemAddr row j = row + j / 2 := by
  simp only [Format.elemAddr, Format.bits]; omega

/-- An E2M1 element read from memory is the half of byte j / 2 that the parity of j selects. -/
theorem elem_e2m1 (s : State) (row j : Nat) : s.elem .e2m1 row j = fld (s.byteAt (row + j / 2)).toNat (4 * (j % 2)) 4 := by
  rw [State.elem, elemAddr_e2m1]; rfl

theorem packCodes_e2m1_cons_cons (x y : Nat) (r : List Nat) :
    packCodes .e2m1 (x :: y :: r) = BitVec.ofNat 8 (x % 16 + 16 * (y % 16)) :: packCodes .e2m1 r := rfl

/-- Byte i of packed E2M1 codes holds elements 2i and 2i + 1. -/
theorem packCodes_e2m1_getElem? {i x y : Nat} {codes : List Nat} (hx : codes[2 * i]? = some x) (hy : codes[2 * i + 1]? = some y) :
    (packCodes .e2m1 codes)[i]? = some (BitVec.ofNat 8 (x % 16 + 16 * (y % 16))) := by
  induction i generalizing codes with
  | zero =>
    match codes, hx, hy with
    | a :: b :: r, hx, hy =>
      obtain rfl : a = x := by simpa using hx
      obtain rfl : b = y := by simpa using hy
      rw [packCodes_e2m1_cons_cons, List.getElem?_cons_zero]
  | succ i ih =>
    match codes, hx, hy with
    | a :: b :: r, hx, hy =>
      rw [packCodes_e2m1_cons_cons, List.getElem?_cons_succ]
      exact ih (by simpa [Nat.mul_succ] using hx) (by simpa [Nat.mul_succ] using hy)

/-- Settles O12: the table is evaluated on the closed form of `decodeElem_e2m1`, and the packing is read off byte i. -/
theorem e2m1Elements : Obligations.E2m1Elements := by
  unfold Obligations.E2m1Elements
  refine ⟨fun code hcode => ?_, fun row i s => ?_, fun i x y codes hx hy hx16 hy16 => ?_⟩
  · obtain ⟨hsign, hexp, hval⟩ := e2m1_table code hcode
    exact ⟨e2m1Sig code, e2m1Exp code, hsign ▸ decodeElem_e2m1 code, hexp, hval⟩
  · have hdiv : (2 * i + 1) / 2 = i := by omega
    simp [elem_e2m1, hdiv]
  · have hbyte : (BitVec.ofNat 8 (x % 16 + 16 * (y % 16))).toNat = x + 16 * y := by
      rw [BitVec.toNat_ofNat, Nat.mod_eq_of_lt hx16, Nat.mod_eq_of_lt hy16, Nat.mod_eq_of_lt (by omega)]
    refine ⟨_, packCodes_e2m1_getElem? hx hy, ?_, ?_⟩ <;> rw [hbyte]
    · exact fld_low_of_pair y hx16
    · exact fld_high_of_pair hx16 hy16

/-! ### The NaN block scale (R44) -/

/-- Under the scale code 0xFF the code of the element does not matter. -/
theorem scaledVal_nanScale (f : Format) (code : Nat) : scaledVal f (some 0xFF) code = (.nan, {}) := rfl

/-- Every other scale code moves the exponent of the element by the unbiased scale. -/
theorem scaledVal_some {e : Nat} (he : e ≠ 0xFF) (f : Format) (code : Nat) :
    scaledVal f (some e) code = ((decodeElem f code).1.scale (Int.ofNat e - 127), (decodeElem f code).2) := if_neg he

/-- Settles O13: an E2M1 code is a finite number, and a scale other than 0xFF keeps it one. -/
theorem nanScales : Obligations.NanScales := by
  unfold Obligations.NanScales
  refine ⟨fun f code => by rw [scaledVal_nanScale], fun scale code hnan => ?_⟩
  cases scale with
  | none => rw [scaledVal, decodeElem_e2m1] at hnan; cases hnan
  | some e =>
    by_cases hscale : e = 0xFF
    · rw [hscale]
    · rw [scaledVal_some hscale, decodeElem_e2m1] at hnan
      cases hnan

end Sys2Proof.Machine
end

