-- ==== Sys2Proof/Proofs/HostRegisters.lean ====
section
/-!
PROOFS. A host access of 8 bytes to a register of BAR0: which word is written, what a read answers, and the bit fields of both.
-/
set_option autoImplicit false
namespace Sys2Proof.Machine

/-! ### Bit fields -/

theorem fld_zero (x w : Nat) : fld x 0 w = x % 2 ^ w := rfl

/-- A field of a word does not see the bits above it. -/
theorem fld_mod_two_pow {lo w n : Nat} (x : Nat) (h : lo + w ≤ n) : fld (x % 2 ^ n) lo w = fld x lo w := by
  have hbit : ∀ i < w, lo + i < n := fun i hi => by omega
  refine Nat.eq_of_testBit_eq fun i => ?_
  by_cases hi : i < w <;> simp [fld, hi, hbit]

/-- A word whose only field is written anew keeps nothing of its old value. -/
theorem putf_fld_whole (x lo w v : Nat) : putf (fld x lo w) 0 w v = v % 2 ^ w := by
  have hfld : fld (fld x lo w) 0 w = fld x lo w := Nat.mod_mod _ _
  rw [putf, hfld, Nat.shiftLeft_zero, Nat.shiftLeft_zero, Nat.sub_self, Nat.zero_add]

/-! ### Accesses of 8 bytes (R596, R597) -/

theorem mod_eight_of_accessOk {a : Nat} (h : accessOk a 8 = true) : a % 8 = 0 := by
  simp only [accessOk, Bool.and_eq_true, beq_iff_eq] at h
  obtain ⟨⟨_, halign⟩, _⟩ := h
  exact halign

/-- A register that no cluster's clock holds is never asleep. -/
theorem State.regAsleep_of_needs_none {r : Reg} (s : State) (h : r.needs = none) : s.regAsleep r = false := by
  rw [State.regAsleep, h]

/-- Only IMEM and DMEM, which a cluster's clock holds, answer with poisoned data. -/
theorem State.regPoison_of_needs_none {a w : Nat} {r : Reg} (s : State) (hok : accessOk a 8 = true) (hreg : regAt a = some (r, w))
    (h : r.needs = none) : s.regPoison a = false := by
  rw [State.regPoison, mod_eight_of_accessOk hok, Nat.sub_zero, hreg]
  split
  case h_1 himem => cases himem; cases h
  case h_2 hdmem => cases hdmem; cases h
  case h_3 => rfl

/-- A host write of 8 bytes to a register whose clock runs writes a whole word of it. -/
theorem exec_registerWrite_host_word {a w : Nat} {r : Reg} (v : Nat) (s : State) (hok : accessOk a 8 = true) (hreg : regAt a = some (r, w))
    (hawake : s.regAsleep r = false) :
    exec (.registerWrite .host a 8 v) s = .next (s.writeWord r w (v % 2 ^ 64) (v % 2 ^ 64)) := by
  have hexec : exec (.registerWrite .host a 8 v) s = .next (s.writeReg a 8 v) := rfl
  have hword : putf (fld (s.regImage r) (64 * w) 64) 0 64 v = v % 2 ^ 64 := putf_fld_whole ..
  rw [hexec, State.writeReg]
  simp [hok, hreg, hawake, mod_eight_of_accessOk hok, hword]

/-- A host read of 8 bytes from a register of at most 64 bits whose clock runs answers a word of its image and clears the RC fields of
that word. -/
theorem exec_registerRead_host_word {a w : Nat} {r : Reg} (s : State) (hok : accessOk a 8 = true) (hreg : regAt a = some (r, w))
    (hawake : s.regAsleep r = false) (hnarrow : r.wide = false) :
    exec (.registerRead .host a 8) s =
      .next ((s.clearRc r (fun b => decide (b < 64))).emit (.readData (fld (s.regImage r) (64 * w) 64) (s.regPoison a))) := by
  have halign := mod_eight_of_accessOk hok
  have hrun : s.stoppedAt a 8 = none := by simp [State.stoppedAt, halign, hreg, hawake]
  have hread : s.readReg a 8 = (fld (s.regImage r) (64 * w) 64, s.clearRc r (fun b => decide (b < 64))) := by
    have hwhole (x : Nat) : fld (fld x (64 * w) 64) 0 64 = fld x (64 * w) 64 := Nat.mod_mod _ _
    simp [State.readReg, State.regWord, hok, halign, hreg, hawake, hnarrow, hwhole]
  have hexec : exec (.registerRead .host a 8) s = execRegisterRead .host a 8 s := rfl
  simp only [hexec, execRegisterRead, hrun, hread]

end Sys2Proof.Machine
end

