-- ==== Sys2Proof/Proofs/RoutingAndSlices.lean ====
section
/-!
PROOFS. Routing and slices (11_routing_and_slices.md): FAB_CTRL and the stall event that it disables.
-/
set_option autoImplicit false
namespace Sys2Proof.Machine

/-- A write of FAB_CTRL: READ_TIMEOUT keeps its value under the reserved 0 (R13, R363). -/
theorem State.writeWord_fabCtrl_rtr (s : State) (w n hit : Nat) :
    (s.writeWord .fabCtrl w n hit).rtr =
      { s.rtr with readTimeout := if fld n 0 16 = 0 then s.rtr.readTimeout else fld n 0 16, stallLimit := fld n 16 16 } := by
  rw [State.writeWord, State.modRtr_rtr, keepIf]
  by_cases hreserved : fld n 0 16 = 0 <;> simp [hreserved]

/-- The image of FAB_CTRL, for field values that fit their 16 bits. -/
theorem State.regImage_fabCtrl {s : State} (hread : s.rtr.readTimeout < 65536) (hstall : s.rtr.stallLimit < 65536) :
    s.regImage .fabCtrl = s.rtr.readTimeout + 65536 * s.rtr.stallLimit := by
  simp only [State.regImage, pack, List.foldl]
  omega

/-- FAB_CTRL has no RC field. -/
theorem State.clearRc_fabCtrl (s : State) (on : Nat → Bool) : s.clearRc .fabCtrl on = s := rfl

/-- STALL_LIMIT 0 disables the stall event (R354, R363). -/
theorem execRouteStall_disabled {s : State} (n ch vc : Nat) (h : s.rtr.stallLimit = 0) : execRouteStall n ch vc s = .next s :=
  if_neg fun ⟨_, hlimit, _⟩ => hlimit h

/-- Settles O15: the AO domain holds FAB_CTRL, so an access always reaches its one word, and the fields of that word are those of the
table. -/
theorem fabricControl : Obligations.FabricControl := by
  unfold Obligations.FabricControl
  refine ⟨rfl, rfl, fun a v s hok hreg => ?_, fun a s hok hreg hread hstall => ?_, fun n ch vc s h => execRouteStall_disabled n ch vc h⟩
  · rw [exec_registerWrite_host_word v s hok hreg (s.regAsleep_of_needs_none rfl)]
    refine Answers.next ?_
    rw [State.writeWord_fabCtrl_rtr, fld_mod_two_pow v (by decide), fld_mod_two_pow v (by decide)]
    exact ⟨rfl, rfl⟩
  · rw [exec_registerRead_host_word s hok hreg (s.regAsleep_of_needs_none rfl) rfl, s.regPoison_of_needs_none hok hreg rfl]
    refine Answers.next ?_
    have hword : fld (s.regImage .fabCtrl) (64 * 0) 64 = s.rtr.readTimeout + 65536 * s.rtr.stallLimit := by
      rw [State.regImage_fabCtrl hread hstall, Nat.mul_zero, fld_zero]
      omega
    rw [hword, State.clearRc_fabCtrl, State.emit_out]

end Sys2Proof.Machine
end

