-- ==== Sys2Proof/Proofs/SequencerIssue.lean ====
section
/-!
PROOFS. The issue of a sequencer's instruction (05_program_model.md): what `State.tick` keeps of the sequencer, and that a command
whose instruction is issued acts on the state after the tick.
-/
set_option autoImplicit false
namespace Sys2Proof.Machine

/-- An operation that changes no cluster keeps each of them. -/
theorem Only.cluster_eq {m : Nat} {s t : State} (h : Only m s t) (hm : m.testBit 15 = false) (k : Nat) : t.cluster k = s.cluster k := by
  rw [State.cluster, State.cluster, h.clusters hm]

/-- The passing of CCLK cycles changes the clusters only in the cycle count and the configuration stores of the sequencer. -/
theorem State.cluster_advance (s : State) (c dt k : Nat) :
    (s.advance c dt).cluster k = (s.modSeq c (fun q => { q with
      cycles := (s.cluster c).seq.cycles + dt
      cfg := q.cfg.filter (fun w => decide ((s.cluster c).seq.cycles + dt < w.land)) })).cluster k := by
  -- the mask of cores (bit 16) and tel (bit 30)
  refine Only.cluster_eq (m := 1073807360) ?_ rfl k
  unfold State.advance
  refine State.span_only (hm := rfl) (hk := State.span_only (hm := rfl) (hk := ?_) ..) ..
  refine Only.foldl (fun t p ht => Only.ite ht (State.modCore_only t p _ rfl ht)) ?_
  exact Only.foldl (fun t w ht => State.modCore_only t w.core _ rfl ht) (Only.refl _ _)

/-- A tick moves the PC to its instruction; the corrected errors that it reports leave the clusters as they are. -/
theorem State.cluster_tick (s : State) (c : Nat) (t : Tick) (k : Nat) :
    (s.tick c t).cluster k =
      ((s.advance c t.cclk).modSeq c (fun q => { q with retired := q.retired + t.instrs, pc := t.pc % 2 ^ 18 })).cluster k := by
  -- the mask of `State.detect_only`
  refine Only.cluster_eq (m := 536872592) ?_ rfl k
  unfold State.tick
  exact State.each_only (hf := fun u _ hu => State.detect_only u .seqMemCorrected (srcCluster c) [] rfl hu) (hm := rfl) (hk := Only.refl _ _) ..

/-- Whether the instruction of a tick is poisoned is known before the tick (R159, R213). -/
theorem State.tick_fetchLost (s : State) (c : Nat) (t : Tick) :
    (s.tick c t).fetchLost c = (s.cluster c).seq.imemBad.contains (t.pc % 2 ^ 18 / 64) := by
  simp only [State.fetchLost, State.cluster_tick, State.cluster_modSeq, if_pos, State.cluster_advance]

/-- An instruction that is issued acts on the state after the tick (R157, R159). -/
theorem State.onSeq_of_seqIssues {s : State} {c : Nat} {t : Tick} (f : State → State) (h : SeqIssues s c t) :
    s.onSeq c t f = f (s.tick c t) := by
  obtain ⟨hc, hrunning, hpoint, hclock, hlayers, hclean⟩ := h
  have hfetched : (s.tick c t).fetchLost c = false := (s.tick_fetchLost c t).trans hclean
  rw [State.onSeq, if_pos ⟨hc, hrunning, by simp [hpoint], by simp [hclock], fun ⟨hstops, hnone⟩ => hnone (hlayers hstops)⟩, hfetched]
  rfl

end Sys2Proof.Machine
end

