-- ==== Sys2Proof/Proofs/ErrorsAndDayBook.lean ====
section
/-!
PROOFS. Errors and the Day Book (16_errors_and_day_book.md): what an entry adds to the Day Book, and the program notes.
-/
set_option autoImplicit false
namespace Sys2Proof.Machine

/-! ### An entry of the Day Book (R501, R502) -/

/-- The newest element is among the last that are kept. -/
theorem keepLast_concat_getLast? {α : Type} {n : Nat} (hn : 0 < n) (l : List α) (x : α) : (keepLast n (l ++ [x])).getLast? = some x := by
  have hkept : ¬ (l ++ [x]).length ≤ (l ++ [x]).length - n := by simp; omega
  rw [keepLast, List.getLast?_drop, if_neg hkept, List.getLast?_concat]

/-- The copy to the event ring leaves the Day Book as it is. -/
@[simp] theorem State.eventRing_err (s : State) (e : Event) : (s.eventRing e).err = s.err :=
  (State.eventRing_only (M := 1040) s e rfl (Only.refl _ s)).err rfl

/-- The PLDM message leaves the Day Book as it is. -/
@[simp] theorem State.pldmEvent_err (s : State) (e : Event) : (s.pldmEvent e).err = s.err :=
  (State.pldmEvent_only (M := 536870928) s e rfl (Only.refl _ s)).err rfl

/-- The event that `State.logEntry` writes (R502). -/
def State.entryOf (s : State) (c : EventClass) (source : Nat) (data : List Byte) (sev : Severity) (nested injected : Bool) : Event :=
  { cls := c, sev := sev, time := s.now, source := source, seq := s.err.nextSeq, nested := nested,
    unsync := s.time.tstate != 2, injected := injected, ledger := decide (3 ≤ sev.code), data := data }

/-- An entry is written behind the others, and the newest 8,192 are kept (R501). -/
theorem State.logEntry_dayBook (s : State) (c : EventClass) (source : Nat) (data : List Byte) (sev : Severity) (nested injected : Bool) :
    (s.logEntry c source data sev nested injected).err.dayBook =
      keepLast 8192 (s.err.dayBook ++ [s.entryOf c source data sev nested injected]) := by
  rw [State.logEntry, State.pldmEvent_err, State.eventRing_err, State.modErr_err, State.entryOf]

/-- The last entry after an entry is written is that entry. -/
theorem State.logEntry_getLast? (s : State) (c : EventClass) (source : Nat) (data : List Byte) (sev : Severity) (nested injected : Bool) :
    (s.logEntry c source data sev nested injected).err.dayBook.getLast? = some (s.entryOf c source data sev nested injected) := by
  rw [State.logEntry_dayBook, keepLast_concat_getLast? (by omega)]

/-- Below CONTAINED an event is an entry of the Day Book and nothing more. -/
theorem State.logAs_of_code_lt_three (s : State) (c : EventClass) (source : Nat) (data : List Byte) {sev : Severity} (nested injected : Bool)
    (h : sev.code < 3) : s.logAs c source data sev nested injected = s.logEntry c source data sev nested injected :=
  if_neg (Nat.not_le.mpr h)

/-! ### Program notes (R503) -/

/-- PROGRAM_NOTE for 16 posted bytes or more: the entry is made of the first 16. -/
theorem exec_programNote {bytes : List Byte} (c : Nat) (t : Tick) (s : State) (h : 16 ≤ bytes.length) :
    exec (.programNote c t bytes) s =
      .next (s.onSeq c t (fun u => u.logEntry .programNote (srcCluster c) (bytes.take 16) .info false false)) := by
  have hexec : exec (.programNote c t bytes) s = execProgramNote c t bytes s := rfl
  simp only [hexec, execProgramNote, padTo_cut 16 bytes h, State.logAs_of_code_lt_three (sev := .info) (h := by decide)]

/-- Settles O11: an issued note is the last entry of the Day Book, and the bytes after the sixteenth do not reach it. -/
theorem programNotes : Obligations.ProgramNotes := by
  unfold Obligations.ProgramNotes
  refine ⟨fun c k bytes s hissues hlen => ?_, fun c k bytes bytes' s hlen hlen' hsame => ?_⟩
  · rw [exec_programNote c k s (by omega), State.onSeq_of_seqIssues _ hissues]
    exact Answers.next ⟨_, State.logEntry_getLast? .., rfl, rfl, rfl⟩
  · rw [exec_programNote c k s (by omega), exec_programNote c k s (by omega), hsame]

end Sys2Proof.Machine
end

