-- ==== Sys2Proof/Proofs/Security.lean ====
section
/-!
PROOFS. Security (18_security.md): the owner's policy and key under their lock, the measurement slots, and the scrub of JOB_UNLOAD.
-/
set_option autoImplicit false
namespace Sys2Proof.Machine

/-! ### The owner's policy and key (R550, R564) -/

/-- A bit of a word does not see the bits above it. -/
theorem bit_mod_two_pow {i n : Nat} (x : Nat) (h : i < n) : bit (x % 2 ^ n) i = bit x i :=
  congrArg (· == 1) (fld_mod_two_pow (lo := i) (w := 1) x h)

/-- The measurement of the policy changes slots only. -/
theorem State.measurePolicy_sec (s : State) :
    s.measurePolicy.sec =
      { s.sec with slots := tset s.sec.slots (List.replicate 32 0) 7 (sha256 (leBytes 8 s.sec.policy ++ s.sec.owner)) } := rfl

/-- SEC_POLICY takes no write under LOCK. -/
theorem State.writeWord_secPolicy_locked {s : State} (w n hit : Nat) (h : s.sec.lock = true) : s.writeWord .secPolicy w n hit = s :=
  if_pos h

/-- SEC_OWNER_KEYn takes no write under LOCK. -/
theorem State.writeWord_ownerKey_locked {s : State} (k w n hit : Nat) (h : s.sec.lock = true) :
    s.writeWord (.ownerKey k) w n hit = s :=
  if_pos h

/-- A write of SEC_POLICY before LOCK: REQUIRE_SIGNED needs an owner key, MIN_SCRUB keeps its value under the reserved 3 (R13), and the
key is kept whether or not the write also locks the policy. -/
theorem State.writeWord_secPolicy_unlocked {s : State} (w n hit : Nat) (h : s.sec.lock = false) :
    (s.writeWord .secPolicy w n hit).sec.requireSigned = (bit n 0 && s.sec.hasOwner) ∧
    (s.writeWord .secPolicy w n hit).sec.minScrub = (if fld n 1 2 = 3 then s.sec.minScrub else fld n 1 2) ∧
    (s.writeWord .secPolicy w n hit).sec.lock = bit hit 63 ∧
    (s.writeWord .secPolicy w n hit).sec.ownerKey = s.sec.ownerKey := by
  have hsigned : (if bit n 0 && !s.sec.hasOwner then false else bit n 0) = (bit n 0 && s.sec.hasOwner) := by
    cases bit n 0 <;> cases s.sec.hasOwner <;> rfl
  have hscrub : keepIf (fld n 1 2 != 3) (fld n 1 2) s.sec.minScrub = if fld n 1 2 = 3 then s.sec.minScrub else fld n 1 2 := by
    by_cases hreserved : fld n 1 2 = 3 <;> simp [keepIf, hreserved]
  simp only [State.writeWord, State.writePolicy, h, Bool.false_eq_true, if_false]
  by_cases hlocks : bit hit 63 = true
  · simp only [hlocks, if_true, State.measurePolicy_sec, State.modSec_sec, hsigned, hscrub, and_self]
  · simp only [hlocks, Bool.false_eq_true, if_false, State.modSec_sec, hsigned, hscrub, h, and_self]

/-- A write of a word of SEC_OWNER_KEY before LOCK changes the key only. -/
theorem State.writeWord_ownerKey_unlocked {s : State} (k w n hit : Nat) (h : s.sec.lock = false) :
    (s.writeWord (.ownerKey k) w n hit).sec = { s.sec with ownerKey := tset s.sec.ownerKey 0 k (BitVec.ofNat 64 n) } := by
  simp [State.writeWord, h]

/-- Settles O14: no clock of a cluster holds these registers, so a host write always reaches the word, and LOCK alone decides whether
the word takes it. -/
theorem ownerPolicy : Obligations.OwnerPolicy := by
  unfold Obligations.OwnerPolicy
  refine fun r a v s hok hreg => ⟨fun hlock hr => ?_, fun hlock hr => ?_, fun k hlock hr => ?_⟩
  · obtain rfl | ⟨k, rfl⟩ := hr
    · rw [exec_registerWrite_host_word v s hok hreg (s.regAsleep_of_needs_none rfl)]
      exact Answers.next (State.writeWord_secPolicy_locked _ _ _ hlock)
    · rw [exec_registerWrite_host_word v s hok hreg (s.regAsleep_of_needs_none rfl)]
      exact Answers.next (State.writeWord_ownerKey_locked _ _ _ _ hlock)
  · subst hr
    rw [exec_registerWrite_host_word v s hok hreg (s.regAsleep_of_needs_none rfl)]
    have hwrite := State.writeWord_secPolicy_unlocked 0 (v % 2 ^ 64) (v % 2 ^ 64) hlock
    rw [bit_mod_two_pow v (by decide), bit_mod_two_pow v (by decide), fld_mod_two_pow v (by decide)] at hwrite
    exact Answers.next hwrite
  · subst hr
    rw [exec_registerWrite_host_word v s hok hreg (s.regAsleep_of_needs_none rfl)]
    have hword : BitVec.ofNat 64 (v % 2 ^ 64) = BitVec.ofNat 64 v := BitVec.eq_of_toNat_eq (by simp)
    refine Answers.next ?_
    rw [State.writeWord_ownerKey_unlocked _ _ _ _ hlock, hword]
    exact ⟨by simp, fun j hj => by simp [hj], rfl, rfl, hlock⟩

/-! ### Measurement slots (R553) -/

/-- A slot read after a slot is replaced. -/
theorem State.slot_setSlot (s : State) (i j : Nat) (v : List Byte) :
    (s.setSlot i v).sec.slot j = if j = i then v else s.sec.slot j := tget_tset ..

/-- A slot read after a slot is extended. -/
theorem State.slot_extendSlot (s : State) (i j : Nat) (x : List Byte) :
    (s.extendSlot i x).sec.slot j = if j = i then sha256 (s.sec.slot i ++ x) else s.sec.slot j := State.slot_setSlot ..

/-- The clearing of a job resets slot 9, which measured its image, and keeps every other slot. -/
theorem State.slot_clearJob (s : State) (j : Nat) : s.clearJob.sec.slot j = if j = 9 then List.replicate 32 0 else s.sec.slot j := by
  rw [State.clearJob, State.slot_setSlot]
  simp only [Security.slot, State.modSec_sec, State.modCol_sec, State.modClusters_sec]

/-! ### Memory that is cleared -/

/-- A read of a table whose entries outside a set of indices are taken away. -/
theorem tget_filter_index {α : Type} (p : Nat → Bool) (d : α) (t : Tab α) (k : Nat) :
    tget (t.filter (fun x => p x.1)) d k = if p k then tget t d k else d := by
  induction t with
  | nil => simp
  | cons x r ih =>
    obtain ⟨j, v⟩ := x
    by_cases hjk : j = k
    · subst hjk
      by_cases hj : p j = true <;> simp [tget, hj, ih]
    · by_cases hj : p j = true <;> simp [tget, hj, hjk, ih]

/-- A unit of a cleared range is not poisoned. -/
theorem Memory.poisoned_zero (m : Memory) (lo hi k : Nat) :
    (m.zero lo hi).poisoned k = if lo ≤ k / 64 * 64 ∧ k / 64 * 64 < hi then false else m.poisoned k := by
  have hread : (m.zero lo hi).poisoned k =
      if !(decide (lo ≤ k / 64 * 64) && decide (k / 64 * 64 < hi)) then m.poisoned k else false :=
    tget_filter_index (fun u => !(decide (lo ≤ u * 64) && decide (u * 64 < hi))) false m.poison (k / 64)
  rw [hread, ← Bool.decide_and]
  by_cases hin : lo ≤ k / 64 * 64 ∧ k / 64 * 64 < hi
  · simp only [hin, and_self, decide_true, Bool.not_true, Bool.false_eq_true, if_false, if_true]
  · simp only [hin, decide_false, Bool.not_false, if_false, if_true]

/-- A range that begins at a 64-byte unit reads zero and unpoisoned once it is cleared. -/
theorem Memory.zero_clears {lo hi a : Nat} (m : Memory) (hunits : lo % 64 = 0) (hlo : lo ≤ a) (hhi : a < hi) :
    (m.zero lo hi).byte a = 0 ∧ (m.zero lo hi).poisoned a = false := by
  rw [Memory.byte_zero, Memory.poisoned_zero, if_pos ⟨hlo, hhi⟩, if_pos (by omega)]
  exact ⟨rfl, rfl⟩

/-- Clearing a further range leaves a clear address clear. -/
theorem Memory.zero_keeps_clear {m : Memory} {a : Nat} (lo hi : Nat) (h : m.byte a = 0 ∧ m.poisoned a = false) :
    (m.zero lo hi).byte a = 0 ∧ (m.zero lo hi).poisoned a = false := by
  rw [Memory.byte_zero, Memory.poisoned_zero, h.1, h.2, ite_self, ite_self]
  exact ⟨rfl, rfl⟩

/-! ### What a scrub overwrites (R446) -/

/-- A scrub measures nothing. -/
theorem State.scrub_sec (s : State) (n : Nat) : (s.scrub n).sec = s.sec :=
  (State.scrub_only (M := 622592) s n rfl (Only.refl _ s)).sec rfl

theorem State.scrub_zero (s : State) : s.scrub 0 = s := rfl

/-- A scrub of level 1 or above clears the vaults, and at level 2 DRAM as well. -/
theorem State.scrub_mem {n : Nat} (s : State) (h : 1 ≤ n) :
    (s.scrub n).mem =
      if n = 2 then (s.mem.zero dramWindow (2 ^ 48)).zero 0 dramWindow else s.mem.zero dramWindow (2 ^ 48) := by
  rw [State.scrub, if_neg (by omega)]
  split <;> rfl

/-- A scrub of level 1 or above empties the registers of every core that the table lists. -/
theorem State.scrub_cores {n : Nat} (s : State) (h : 1 ≤ n) :
    (s.scrub n).cores = s.cores.map (fun (x : Nat × Core) => (x.1, ({ x.2 with regs := [] } : Core))) := by
  rw [State.scrub, if_neg (by omega)]
  split <;> rfl

/-- A scrub of level 1 or above clears the memories of every sequencer and changes nothing else in the clusters. -/
theorem State.scrub_clusters {n : Nat} (s : State) (h : 1 ≤ n) :
    (s.scrub n).clusters = (s.modClusters fun _ k => { k with seq := k.seq.clearMems }).clusters := by
  rw [State.scrub, if_neg (by omega)]
  split <;> simp only [State.modClusters_clusters]

/-- After a scrub of level 1 or above no core holds a tile register. -/
theorem State.core_scrub_regs {n : Nat} (s : State) (h : 1 ≤ n) (p : Nat) : ((s.scrub n).core p).regs = [] := by
  rw [State.core, State.scrub_cores s h]
  induction s.cores with
  | nil => rfl
  | cons x r ih =>
    rw [List.map_cons, tget]
    by_cases hp : x.1 = p
    · rw [if_pos hp]
    · rw [if_neg hp, ih]

/-- After a scrub of level 1 or above no sequencer holds a program or data. -/
theorem State.cluster_scrub_seq {n c : Nat} (s : State) (h : 1 ≤ n) (hc : c < 8) :
    ((s.scrub n).cluster c).seq = (s.cluster c).seq.clearMems := by
  rw [State.cluster, State.scrub_clusters s h, ← State.cluster, State.cluster_modClusters _ _ _ hc]

/-! ### JOB_UNLOAD (R446, R552) -/

/-- A held JOB_UNLOAD that no command holds back completes OK once the job is cleared and scrubbed at the level that applies. -/
theorem exec_jobUnload {d : Desc} {n : Nat} {s : State} (hheld : s.holds d 2 = true) (hidle : s.commandRuns = false)
    (hfield : fld (d.at 8 1) 0 2 ≠ 3) (hn : n = max (fld (d.at 8 1) 0 2) s.sec.minScrub) :
    exec (.jobUnload d) s = .next (((s.clearJob.scrub n).extendSlot 10 (leBytes 1 n)).complete d .ok) := by
  have hexec : exec (.jobUnload d) s = execJobUnload d s := rfl
  simp only [hexec, execJobUnload, hheld, hidle, hfield, hn, if_true, if_false, Bool.false_eq_true]

/-- The completion entry touches only the host interface and what leaves the device (bits 10 and 4 of the mask, R448). -/
theorem State.complete_ok_only (s : State) (d : Desc) : Only 1040 s (s.complete d .ok) :=
  State.complete_only (hm := rfl) (hk := Only.refl _ s) ..

/-- The measurement adds the security block (bit 31), so memories, cores and clusters are as the scrub left them. -/
theorem State.extendSlot_complete_only (s : State) (i : Nat) (x : List Byte) (d : Desc) :
    Only 2147484688 s ((s.extendSlot i x).complete d .ok) :=
  State.complete_only (hm := rfl) (hk := State.extendSlot_only (hm := rfl) (hk := Only.refl _ s) ..) ..

/-- The memory of the device does not belong to the job that is cleared. -/
theorem State.clearJob_mem (s : State) : s.clearJob.mem = s.mem :=
  (State.clearJob_only (M := 2162210816) s rfl (Only.refl _ s)).mem rfl

/-- Settles O10: what JOB_UNLOAD leaves of memories, cores and clusters is what the scrub leaves, and the level is measured behind it. -/
theorem unloadScrubs : Obligations.UnloadScrubs := by
  unfold Obligations.UnloadScrubs
  intro d n s hheld hidle hfield hn
  rw [exec_jobUnload hheld hidle hfield hn]
  have hafter := (s.clearJob.scrub n).extendSlot_complete_only 10 (leBytes 1 n) d
  have hslot := (((s.clearJob.scrub n).extendSlot 10 (leBytes 1 n)).complete_ok_only d).sec rfl
  refine Answers.next ⟨?_, fun hnone => ?_, fun hlevel => ⟨fun a hlo hhi => ?_, fun p => ?_, fun c hc => ?_⟩, fun hvaults a ha => ?_,
    fun hall hle a ha => ?_⟩
  · rw [hslot, State.slot_extendSlot, if_pos rfl, State.scrub_sec, State.slot_clearJob, if_neg (by decide)]
    rfl
  · rw [hafter.mem rfl, hnone, State.scrub_zero, State.clearJob_mem]
  · have hvault := s.mem.zero_clears (lo := dramWindow) (by decide) hlo hhi
    rw [hafter.mem rfl, State.scrub_mem _ hlevel, State.clearJob_mem]
    split
    · exact Memory.zero_keeps_clear _ _ hvault
    · exact hvault
  · rw [State.core, hafter.cores rfl]
    exact State.core_scrub_regs _ hlevel p
  · rw [hafter.cluster_eq rfl, State.cluster_scrub_seq _ hlevel hc]
    exact ⟨rfl, rfl⟩
  · rw [hafter.mem rfl, State.scrub_mem _ (by omega), if_neg (by omega), State.clearJob_mem, Memory.byte_zero, if_neg (by omega)]
  · rw [hafter.mem rfl, State.scrub_mem _ (by omega), if_pos (by omega)]
    exact Memory.zero_clears _ (by decide) (Nat.zero_le a) ha

end Sys2Proof.Machine
end

