-- ==== Sys2Proof/Proofs/EveryCommand.lean ====
section
/-!
PROOFS. What holds of every command: the front of the queue runs, a command completes and changes only the parts listed for it, and
memory, fuses, outputs and the Life Ledger are kept as their rules say.
-/
set_option autoImplicit false
namespace Sys2Proof.Machine

/-! ### Two properties of one result -/

/-- A result that is a next state with each of two properties is one with both. -/
theorem Answers.and {r : Host.Outcome State Fault Refusal} {P Q : State → Prop} (h : Answers r P) (k : Answers r Q) :
    Answers r (fun t => P t ∧ Q t) := by
  obtain ⟨t, rfl, hp⟩ := h
  obtain ⟨u, hu, hq⟩ := k
  cases hu
  exact ⟨t, rfl, hp, hq⟩

/-- The state that a result answers has the property that the result is known to have. -/
theorem Answers.of_next {t : State} {P : State → Prop} (h : Answers (.next t) P) : P t := by
  obtain ⟨u, hu, hp⟩ := h
  cases hu
  exact hp

/-! ### Steps and the queue -/

theorem step_of_pending_nil {s : State} (h : s.pending = []) : step s = .next s := by rw [step, h]

theorem step_of_pending_cons {c : Instr} {rest : List Instr} {s : State} (h : s.pending = c :: rest) :
    step s = exec c { s with pending := rest } := by rw [step, h]

/-- Settles O1. -/
theorem frontCommandRuns : Obligations.FrontCommandRuns := by
  unfold Obligations.FrontCommandRuns
  exact fun _ _ _ h => step_of_pending_cons h

/-- Settles O2. -/
theorem emptyQueueIdles : Obligations.EmptyQueueIdles := by
  unfold Obligations.EmptyQueueIdles
  exact fun _ h => step_of_pending_nil h

/-- Settles O3: every field named is a reset value of its register table, and no memory byte or saved context stands after reset. -/
theorem resetState : Obligations.ResetState := by
  unfold Obligations.ResetState
  have hmem : State.reset.memoryOk := ⟨rfl, fun _ h => nomatch h⟩
  exact ⟨hmem, rfl, rfl, rfl, fun _ _ => ⟨rfl, rfl⟩, rfl, rfl, rfl, rfl, rfl, rfl, rfl, rfl, rfl, rfl, rfl⟩

/-! ### Masks and lists of parts -/

/-- The fields of State in the order of the bits of a mask. -/
def Part.all : List Part :=
  [.pending, .aoNs, .devOff, .free, .out, .fuses, .flash, .ledger, .dev, .err, .host, .job, .saved, .preempt, .preempts,
   .clusters, .cores, .units, .hwm, .mem, .dram, .settle, .dec, .col, .ports, .time, .rtr, .pwr, .rails, .mgmt, .tel, .sec,
   .latches]

/-- No bit of a mask stands for a field outside the list. -/
def maskWithin (m : Nat) (ps : List Part) : Bool := Part.all.zipIdx.all (fun x => ps.contains x.1 || !m.testBit x.2)

/-- A field whose bit is not in the mask is the same. -/
theorem Part.same_of_only {m : Nat} {s t : State} (h : Only m s t) : ∀ x ∈ Part.all.zipIdx, m.testBit x.2 = false → x.1.same s t := by
  simp only [Part.all, List.zipIdx_cons, List.zipIdx_nil, List.forall_mem_cons, Part.same]
  exact ⟨h.pending, h.aoNs, h.devOff, h.free, h.out, h.fuses, h.flash, h.ledger, h.dev, h.err, h.host, h.job, h.saved, h.preempt,
    h.preempts, h.clusters, h.cores, h.units, h.hwm, h.mem, h.dram, h.settle, h.dec, h.col, h.ports, h.time, h.rtr, h.pwr,
    h.rails, h.mgmt, h.tel, h.sec, h.latches, nofun⟩

/-- What changed only within a mask changed only the parts that the mask stands for. -/
theorem Only.sameBut {m : Nat} {ps : List Part} {s t : State} (h : Only m s t) (hm : maskWithin m ps = true) : SameBut ps s t := by
  intro p hp
  have hlisted : ∃ i, (p, i) ∈ Part.all.zipIdx := by cases p <;> simp [Part.all, List.zipIdx_cons]
  obtain ⟨i, hi⟩ := hlisted
  have hbit := List.all_eq_true.mp hm (p, i) hi
  exact Part.same_of_only h (p, i) hi (by simpa [hp] using hbit)

theorem Answers.sameBut {r : Host.Outcome State Fault Refusal} {m : Nat} {ps : List Part} {s : State} (h : Answers r (Only m s))
    (hm : maskWithin m ps = true) : Answers r (SameBut ps s) := h.imp fun _ ht => ht.sameBut hm

/-! ### Every command -/

/-- The mask of each command lies within the parts that `touches` lists for it. -/
theorem exec_sameBut (c : Instr) (s : State) : Answers (exec c s) (SameBut (touches c) s) :=
  match c with
  | .coldReset .. => .sameBut (execColdReset_only (hm := Nat.and_self _) (hk := .refl _ s) ..) rfl
  | .railPowerGood .. => .sameBut (execRailPowerGood_only (hm := Nat.and_self _) (hk := .refl _ s) ..) rfl
  | .railEnableTimeout .. => .sameBut (execRailEnableTimeout_only (hm := Nat.and_self _) (hk := .refl _ s) ..) rfl
  | .pllLock => .sameBut (execPllLock_only (hm := Nat.and_self _) (hk := .refl _ s) ..) rfl
  | .refclkCheck .. => .sameBut (execRefclkCheck_only (hm := Nat.and_self _) (hk := .refl _ s) ..) rfl
  | .dramTrainingDone .. => .sameBut (execDramTrainingDone_only (hm := Nat.and_self _) (hk := .refl _ s) ..) rfl
  | .dramZeroDone => .sameBut (execDramZeroDone_only (hm := Nat.and_self _) (hk := .refl _ s) ..) rfl
  | .deviceReady => .sameBut (execDeviceReady_only (hm := Nat.and_self _) (hk := .refl _ s) ..) rfl
  | .rollbackFuseBlow .. => .sameBut (execRollbackFuseBlow_only (hm := Nat.and_self _) (hk := .refl _ s) ..) rfl
  | .perstDeassert .. => .sameBut (execPerstDeassert_only (hm := Nat.and_self _) (hk := .refl _ s) ..) rfl
  | .warmReset .. => .sameBut (execWarmReset_only (hm := Nat.and_self _) (hk := .refl _ s) ..) rfl
  | .functionLevelReset => .sameBut (execFunctionLevelReset_only (hm := Nat.and_self _) (hk := .refl _ s) ..) rfl
  | .flrScrubDone => .sameBut (execFlrScrubDone_only (hm := Nat.and_self _) (hk := .refl _ s) ..) rfl
  | .sliceReset => .sameBut (execSliceReset_only (hm := Nat.and_self _) (hk := .refl _ s) ..) rfl
  | .clusterReset .. => .sameBut (execClusterReset_only (hm := Nat.and_self _) (hk := .refl _ s) ..) rfl
  | .coreReset .. => .sameBut (execCoreReset_only (hm := Nat.and_self _) (hk := .refl _ s) ..) rfl
  | .portReset .. => .sameBut (execPortReset_only (hm := Nat.and_self _) (hk := .refl _ s) ..) rfl
  | .doorbellPoll .. => .sameBut (execDoorbellPoll_only (hm := Nat.and_self _) (hk := .refl _ s) ..) rfl
  | .lnMessage .. => .sameBut (execLnMessage_only (hm := Nat.and_self _) (hk := .refl _ s) ..) rfl
  | .descriptorFetch .. => .sameBut (execDescriptorFetch_only (hm := Nat.and_self _) (hk := .refl _ s) ..) rfl
  | .dispatch .. => .sameBut (execDispatch_only (hm := Nat.and_self _) (hk := .refl _ s) ..) rfl
  | .msixAgeExpiry .. => .sameBut (execMsixAgeExpiry_only (hm := Nat.and_self _) (hk := .refl _ s) ..) rfl
  | .ringEnable .. => .sameBut (execRingEnable_only (hm := Nat.and_self _) (hk := .refl _ s) ..) rfl
  | .ringReset .. => .sameBut (execRingReset_only (hm := Nat.and_self _) (hk := .refl _ s) ..) rfl
  | .bar2Read .. => .sameBut (execBar2Read_only (hm := Nat.and_self _) (hk := .refl _ s) ..) rfl
  | .bar2Write .. => .sameBut (execBar2Write_only (hm := Nat.and_self _) (hk := .refl _ s) ..) rfl
  | .registerWrite .. => .sameBut (execRegisterWrite_only (hm := Nat.and_self _) (hk := .refl _ s) ..) rfl
  | .jobLoad .. => .sameBut (execJobLoad_only (hm := Nat.and_self _) (hk := .refl _ s) ..) rfl
  | .jobUnload .. => .sameBut (execJobUnload_only (hm := Nat.and_self _) (hk := .refl _ s) ..) rfl
  | .sliceSet .. => .sameBut (execSliceSet_only (hm := Nat.and_self _) (hk := .refl _ s) ..) rfl
  | .runStep .. => .sameBut (execRunStep_only (hm := Nat.and_self _) (hk := .refl _ s) ..) rfl
  | .runLayers .. => .sameBut (execRunLayers_only (hm := Nat.and_self _) (hk := .refl _ s) ..) rfl
  | .dmaCopy .. => .sameBut (execDmaCopy_only (hm := Nat.and_self _) (hk := .refl _ s) ..) rfl
  | .settleConfigJob .. => .sameBut (execSettleConfigJob_only (hm := Nat.and_self _) (hk := .refl _ s) ..) rfl
  | .settleConfigRows .. => .sameBut (execSettleConfigRows_only (hm := Nat.and_self _) (hk := .refl _ s) ..) rfl
  | .settleConfigInvalidate .. => .sameBut (execSettleConfigInvalidate_only (hm := Nat.and_self _) (hk := .refl _ s) ..) rfl
  | .settleConfigRefresh .. => .sameBut (execSettleConfigRefresh_only (hm := Nat.and_self _) (hk := .refl _ s) ..) rfl
  | .collectivePlan .. => .sameBut (execCollectivePlan_only (hm := Nat.and_self _) (hk := .refl _ s) ..) rfl
  | .fence .. => .sameBut (execFence_only (hm := Nat.and_self _) (hk := .refl _ s) ..) rfl
  | .preempt .. => .sameBut (execPreempt_only (hm := Nat.and_self _) (hk := .refl _ s) ..) rfl
  | .preemptTakeEffect .. => .sameBut (execPreemptTakeEffect_only (hm := Nat.and_self _) (hk := .refl _ s) ..) rfl
  | .resume .. => .sameBut (execResume_only (hm := Nat.and_self _) (hk := .refl _ s) ..) rfl
  | .reconcileAccept .. => .sameBut (execReconcileAccept_only (hm := Nat.and_self _) (hk := .refl _ s) ..) rfl
  | .reconcileFence .. => .sameBut (execReconcileFence_only (hm := Nat.and_self _) (hk := .refl _ s) ..) rfl
  | .reconcileEnable .. => .sameBut (execReconcileEnable_only (hm := Nat.and_self _) (hk := .refl _ s) ..) rfl
  | .query .. => .sameBut (execQuery_only (hm := Nat.and_self _) (hk := .refl _ s) ..) rfl
  | .statementReq .. => .sameBut (execStatementReq_only (hm := Nat.and_self _) (hk := .refl _ s) ..) rfl
  | .proxyRequest .. => .sameBut (execProxyRequest_only (hm := Nat.and_self _) (hk := .refl _ s) ..) rfl
  | .proxyResponse .. => .sameBut (execProxyResponse_only (hm := Nat.and_self _) (hk := .refl _ s) ..) rfl
  | .lcbStore .. => .sameBut (execLcbStore_only (hm := Nat.and_self _) (hk := .refl _ s) ..) rfl
  | .layerStart .. => .sameBut (execLayerStart_only (hm := Nat.and_self _) (hk := .refl _ s) ..) rfl
  | .layerWait .. => .sameBut (execLayerWait_only (hm := Nat.and_self _) (hk := .refl _ s) ..) rfl
  | .mxeIssue .. => .sameBut (execMxeIssue_only (hm := Nat.and_self _) (hk := .refl _ s) ..) rfl
  | .finishedTileDrain .. => .sameBut (execFinishedTileDrain_only (hm := Nat.and_self _) (hk := .refl _ s) ..) rfl
  | .tileOperation .. => .sameBut (execTileOperation_only (hm := Nat.and_self _) (hk := .refl _ s) ..) rfl
  | .loadLand .. => .sameBut (execLoadLand_only (hm := Nat.and_self _) (hk := .refl _ s) ..) rfl
  | .layerComplete .. => .sameBut (execLayerComplete_only (hm := Nat.and_self _) (hk := .refl _ s) ..) rfl
  | .hwmClear .. => .sameBut (execHwmClear_only (hm := Nat.and_self _) (hk := .refl _ s) ..) rfl
  | .seqTableWrite .. => .sameBut (execSeqTableWrite_only (hm := Nat.and_self _) (hk := .refl _ s) ..) rfl
  | .seqTableCommit .. => .sameBut (execSeqTableCommit_only (hm := Nat.and_self _) (hk := .refl _ s) ..) rfl
  | .lossRead .. => .sameBut (execLossRead_only (hm := Nat.and_self _) (hk := .refl _ s) ..) rfl
  | .lossClear .. => .sameBut (execLossClear_only (hm := Nat.and_self _) (hk := .refl _ s) ..) rfl
  | .timerWait .. => .sameBut (execTimerWait_only (hm := Nat.and_self _) (hk := .refl _ s) ..) rfl
  | .timerExpiry .. => .sameBut (execTimerExpiry_only (hm := Nat.and_self _) (hk := .refl _ s) ..) rfl
  | .seqCompletion .. => .sameBut (execSeqCompletion_only (hm := Nat.and_self _) (hk := .refl _ s) ..) rfl
  | .programNote .. => .sameBut (execProgramNote_only (hm := Nat.and_self _) (hk := .refl _ s) ..) rfl
  | .seqAddressFault .. => .sameBut (execSeqAddressFault_only (hm := Nat.and_self _) (hk := .refl _ s) ..) rfl
  | .seqInstructionFault .. => .sameBut (execSeqInstructionFault_only (hm := Nat.and_self _) (hk := .refl _ s) ..) rfl
  | .debugHalt .. => .sameBut (execDebugHalt_only (hm := Nat.and_self _) (hk := .refl _ s) ..) rfl
  | .debugResume .. => .sameBut (execDebugResume_only (hm := Nat.and_self _) (hk := .refl _ s) ..) rfl
  | .deposit .. => .sameBut (execDeposit_only (hm := Nat.and_self _) (hk := .refl _ s) ..) rfl
  | .take .. => .sameBut (execTake_only (hm := Nat.and_self _) (hk := .refl _ s) ..) rfl
  | .takeNArm .. => .sameBut (execTakeNArm_only (hm := Nat.and_self _) (hk := .refl _ s) ..) rfl
  | .takeN .. => .sameBut (execTakeN_only (hm := Nat.and_self _) (hk := .refl _ s) ..) rfl
  | .peek .. => .sameBut (execPeek_only (hm := Nat.and_self _) (hk := .refl _ s) ..) rfl
  | .bell .. => .sameBut (execBell_only (hm := Nat.and_self _) (hk := .refl _ s) ..) rfl
  | .remoteCoinGo .. => .sameBut (execRemoteCoinGo_only (hm := Nat.and_self _) (hk := .refl _ s) ..) rfl
  | .coinPacket .. => .sameBut (execCoinPacket_only (hm := Nat.and_self _) (hk := .refl _ s) ..) rfl
  | .coinReply .. => .sameBut (execCoinReply_only (hm := Nat.and_self _) (hk := .refl _ s) ..) rfl
  | .coinWaitTimeout .. => .sameBut (execCoinWaitTimeout_only (hm := Nat.and_self _) (hk := .refl _ s) ..) rfl
  | .coinGuardExpiry .. => .sameBut (execCoinGuardExpiry_only (hm := Nat.and_self _) (hk := .refl _ s) ..) rfl
  | .sealDeposit .. => .sameBut (execSealDeposit_only (hm := Nat.and_self _) (hk := .refl _ s) ..) rfl
  | .vaultScrub .. => .sameBut (execVaultScrub_only (hm := Nat.and_self _) (hk := .refl _ s) ..) rfl
  | .vaultSpareDone .. => .sameBut (execVaultSpareDone_only (hm := Nat.and_self _) (hk := .refl _ s) ..) rfl
  | .dramPatrolScrub .. => .sameBut (execDramPatrolScrub_only (hm := Nat.and_self _) (hk := .refl _ s) ..) rfl
  | .dramTrackingUpdate .. => .sameBut (execDramTrackingUpdate_only (hm := Nat.and_self _) (hk := .refl _ s) ..) rfl
  | .softPpr .. => .sameBut (execSoftPpr_only (hm := Nat.and_self _) (hk := .refl _ s) ..) rfl
  | .remoteWrite .. => .sameBut (execRemoteWrite_only (hm := Nat.and_self _) (hk := .refl _ s) ..) rfl
  | .readReq .. => .sameBut (execReadReq_only (hm := Nat.and_self _) (hk := .refl _ s) ..) rfl
  | .readRsp .. => .sameBut (execReadRsp_only (hm := Nat.and_self _) (hk := .refl _ s) ..) rfl
  | .readErr .. => .sameBut (execReadErr_only (hm := Nat.and_self _) (hk := .refl _ s) ..) rfl
  | .readTimeout .. => .sameBut (execReadTimeout_only (hm := Nat.and_self _) (hk := .refl _ s) ..) rfl
  | .landing .. => .sameBut (execLanding_only (hm := Nat.and_self _) (hk := .refl _ s) ..) rfl
  | .settleContribution .. => .sameBut (execSettleContribution_only (hm := Nat.and_self _) (hk := .refl _ s) ..) rfl
  | .settleWalkEnd .. => .sameBut (execSettleWalkEnd_only (hm := Nat.and_self _) (hk := .refl _ s) ..) rfl
  | .stmtTimeout => .sameBut (execStmtTimeout_only (hm := Nat.and_self _) (hk := .refl _ s) ..) rfl
  | .spikeReset => .sameBut (execSpikeReset_only (hm := Nat.and_self _) (hk := .refl _ s) ..) rfl
  | .collectiveStart .. => .sameBut (execCollectiveStart_only (hm := Nat.and_self _) (hk := .refl _ s) ..) rfl
  | .reduceSegment .. => .sameBut (execReduceSegment_only (hm := Nat.and_self _) (hk := .refl _ s) ..) rfl
  | .gatherSegment .. => .sameBut (execGatherSegment_only (hm := Nat.and_self _) (hk := .refl _ s) ..) rfl
  | .collectiveEnd .. => .sameBut (execCollectiveEnd_only (hm := Nat.and_self _) (hk := .refl _ s) ..) rfl
  | .statementCombine .. => .sameBut (execStatementCombine_only (hm := Nat.and_self _) (hk := .refl _ s) ..) rfl
  | .statementBroadcast .. => .sameBut (execStatementBroadcast_only (hm := Nat.and_self _) (hk := .refl _ s) ..) rfl
  | .pointBarrierCombine .. => .sameBut (execPointBarrierCombine_only (hm := Nat.and_self _) (hk := .refl _ s) ..) rfl
  | .pointBarrierBroadcast .. => .sameBut (execPointBarrierBroadcast_only (hm := Nat.and_self _) (hk := .refl _ s) ..) rfl
  | .packetFrame .. => .sameBut (execPacketFrame_only (hm := Nat.and_self _) (hk := .refl _ s) ..) rfl
  | .ack .. => .sameBut (execAck_only (hm := Nat.and_self _) (hk := .refl _ s) ..) rfl
  | .nak .. => .sameBut (execNak_only (hm := Nat.and_self _) (hk := .refl _ s) ..) rfl
  | .ackTimeout .. => .sameBut (execAckTimeout_only (hm := Nat.and_self _) (hk := .refl _ s) ..) rfl
  | .credit .. => .sameBut (execCredit_only (hm := Nat.and_self _) (hk := .refl _ s) ..) rfl
  | .creditQuery .. => .sameBut (execCreditQuery_only (hm := Nat.and_self _) (hk := .refl _ s) ..) rfl
  | .creditLate .. => .sameBut (execCreditLate_only (hm := Nat.and_self _) (hk := .refl _ s) ..) rfl
  | .keepalive .. => .sameBut (execKeepalive_only (hm := Nat.and_self _) (hk := .refl _ s) ..) rfl
  | .keepaliveSend .. => .sameBut (execKeepaliveSend_only (hm := Nat.and_self _) (hk := .refl _ s) ..) rfl
  | .linkPartnerLost .. => .sameBut (execLinkPartnerLost_only (hm := Nat.and_self _) (hk := .refl _ s) ..) rfl
  | .signalDetect .. => .sameBut (execSignalDetect_only (hm := Nat.and_self _) (hk := .refl _ s) ..) rfl
  | .linkUp .. => .sameBut (execLinkUp_only (hm := Nat.and_self _) (hk := .refl _ s) ..) rfl
  | .trainingTimeout .. => .sameBut (execTrainingTimeout_only (hm := Nat.and_self _) (hk := .refl _ s) ..) rfl
  | .trainingRetry .. => .sameBut (execTrainingRetry_only (hm := Nat.and_self _) (hk := .refl _ s) ..) rfl
  | .retrain .. => .sameBut (execRetrain_only (hm := Nat.and_self _) (hk := .refl _ s) ..) rfl
  | .forceKeepalive .. => .sameBut (execForceKeepalive_only (hm := Nat.and_self _) (hk := .refl _ s) ..) rfl
  | .keepaliveIdle .. => .sameBut (execKeepaliveIdle_only (hm := Nat.and_self _) (hk := .refl _ s) ..) rfl
  | .power .. => .sameBut (execPower_only (hm := Nat.and_self _) (hk := .refl _ s) ..) rfl
  | .keepaliveExit .. => .sameBut (execKeepaliveExit_only (hm := Nat.and_self _) (hk := .refl _ s) ..) rfl
  | .laneSample .. => .sameBut (execLaneSample_only (hm := Nat.and_self _) (hk := .refl _ s) ..) rfl
  | .laneFail .. => .sameBut (execLaneFail_only (hm := Nat.and_self _) (hk := .refl _ s) ..) rfl
  | .spareReq .. => .sameBut (execSpareReq_only (hm := Nat.and_self _) (hk := .refl _ s) ..) rfl
  | .spareAck .. => .sameBut (execSpareAck_only (hm := Nat.and_self _) (hk := .refl _ s) ..) rfl
  | .spareSwitch .. => .sameBut (execSpareSwitch_only (hm := Nat.and_self _) (hk := .refl _ s) ..) rfl
  | .sparingDone .. => .sameBut (execSparingDone_only (hm := Nat.and_self _) (hk := .refl _ s) ..) rfl
  | .sparingTimeout .. => .sameBut (execSparingTimeout_only (hm := Nat.and_self _) (hk := .refl _ s) ..) rfl
  | .width .. => .sameBut (execWidth_only (hm := Nat.and_self _) (hk := .refl _ s) ..) rfl
  | .eq .. => .sameBut (execEq_only (hm := Nat.and_self _) (hk := .refl _ s) ..) rfl
  | .eqStep .. => .sameBut (execEqStep_only (hm := Nat.and_self _) (hk := .refl _ s) ..) rfl
  | .timeExchange .. => .sameBut (execTimeExchange_only (hm := Nat.and_self _) (hk := .refl _ s) ..) rfl
  | .timeReq .. => .sameBut (execTimeReq_only (hm := Nat.and_self _) (hk := .refl _ s) ..) rfl
  | .timeRsp .. => .sameBut (execTimeRsp_only (hm := Nat.and_self _) (hk := .refl _ s) ..) rfl
  | .identity .. => .sameBut (execIdentity_only (hm := Nat.and_self _) (hk := .refl _ s) ..) rfl
  | .identityRepeat .. => .sameBut (execIdentityRepeat_only (hm := Nat.and_self _) (hk := .refl _ s) ..) rfl
  | .identityTimeout .. => .sameBut (execIdentityTimeout_only (hm := Nat.and_self _) (hk := .refl _ s) ..) rfl
  | .reidentify .. => .sameBut (execReidentify_only (hm := Nat.and_self _) (hk := .refl _ s) ..) rfl
  | .partnerMissing .. => .sameBut (execPartnerMissing_only (hm := Nat.and_self _) (hk := .refl _ s) ..) rfl
  | .sliceNotice .. => .sameBut (execSliceNotice_only (hm := Nat.and_self _) (hk := .refl _ s) ..) rfl
  | .routeStall .. => .sameBut (execRouteStall_only (hm := Nat.and_self _) (hk := .refl _ s) ..) rfl
  | .drain .. => .sameBut (execDrain_only (hm := Nat.and_self _) (hk := .refl _ s) ..) rfl
  | .detourWrite .. => .sameBut (execDetourWrite_only (hm := Nat.and_self _) (hk := .refl _ s) ..) rfl
  | .purseRefillTick => .sameBut (execPurseRefillTick_only (hm := Nat.and_self _) (hk := .refl _ s) ..) rfl
  | .rateRecompute => .sameBut (execRateRecompute_only (hm := Nat.and_self _) (hk := .refl _ s) ..) rfl
  | .thermalSample .. => .sameBut (execThermalSample_only (hm := Nat.and_self _) (hk := .refl _ s) ..) rfl
  | .paceRound => .sameBut (execPaceRound_only (hm := Nat.and_self _) (hk := .refl _ s) ..) rfl
  | .paceCombine .. => .sameBut (execPaceCombine_only (hm := Nat.and_self _) (hk := .refl _ s) ..) rfl
  | .paceBroadcast .. => .sameBut (execPaceBroadcast_only (hm := Nat.and_self _) (hk := .refl _ s) ..) rfl
  | .powerBrake => .sameBut (execPowerBrake_only (hm := Nat.and_self _) (hk := .refl _ s) ..) rfl
  | .powerBrakeRelease => .sameBut (execPowerBrakeRelease_only (hm := Nat.and_self _) (hk := .refl _ s) ..) rfl
  | .clockGate .. => .sameBut (execClockGate_only (hm := Nat.and_self _) (hk := .refl _ s) ..) rfl
  | .powerGate .. => .sameBut (execPowerGate_only (hm := Nat.and_self _) (hk := .refl _ s) ..) rfl
  | .clusterWake .. => .sameBut (execClusterWake_only (hm := Nat.and_self _) (hk := .refl _ s) ..) rfl
  | .holdRun .. => .sameBut (execHoldRun_only (hm := Nat.and_self _) (hk := .refl _ s) ..) rfl
  | .deepIdleEntry => .sameBut (execDeepIdleEntry_only (hm := Nat.and_self _) (hk := .refl _ s) ..) rfl
  | .deepIdleExit => .sameBut (execDeepIdleExit_only (hm := Nat.and_self _) (hk := .refl _ s) ..) rfl
  | .avsUpdate .. => .sameBut (execAvsUpdate_only (hm := Nat.and_self _) (hk := .refl _ s) ..) rfl
  | .droopDetect .. => .sameBut (execDroopDetect_only (hm := Nat.and_self _) (hk := .refl _ s) ..) rfl
  | .regulatorRead .. => .sameBut (execRegulatorRead_only (hm := Nat.and_self _) (hk := .refl _ s) ..) rfl
  | .railUndervoltage .. => .sameBut (execRailUndervoltage_only (hm := Nat.and_self _) (hk := .refl _ s) ..) rfl
  | .railFault .. => .sameBut (execRailFault_only (hm := Nat.and_self _) (hk := .refl _ s) ..) rfl
  | .cdcTimeout .. => .sameBut (execCdcTimeout_only (hm := Nat.and_self _) (hk := .refl _ s) ..) rfl
  | .stateCompare => .sameBut (execStateCompare_only (hm := Nat.and_self _) (hk := .refl _ s) ..) rfl
  | .coreWatchdog .. => .sameBut (execCoreWatchdog_only (hm := Nat.and_self _) (hk := .refl _ s) ..) rfl
  | .seqWatchdog .. => .sameBut (execSeqWatchdog_only (hm := Nat.and_self _) (hk := .refl _ s) ..) rfl
  | .bucelRestart => .sameBut (execBucelRestart_only (hm := Nat.and_self _) (hk := .refl _ s) ..) rfl
  | .securityAlarm .. => .sameBut (execSecurityAlarm_only (hm := Nat.and_self _) (hk := .refl _ s) ..) rfl
  | .injectArm .. => .sameBut (execInjectArm_only (hm := Nat.and_self _) (hk := .refl _ s) ..) rfl
  | .statementTake => .sameBut (execStatementTake_only (hm := Nat.and_self _) (hk := .refl _ s) ..) rfl
  | .ledgerCounters .. => .sameBut (execLedgerCounters_only (hm := Nat.and_self _) (hk := .refl _ s) ..) rfl
  | .ledgerDaily .. => .sameBut (execLedgerDaily_only (hm := Nat.and_self _) (hk := .refl _ s) ..) rfl
  | .setEndpointId .. => .sameBut (execSetEndpointId_only (hm := Nat.and_self _) (hk := .refl _ s) ..) rfl
  | .dynamicAddressAssign .. => .sameBut (execDynamicAddressAssign_only (hm := Nat.and_self _) (hk := .refl _ s) ..) rfl
  | .statementGet .. => .sameBut (execStatementGet_only (hm := Nat.and_self _) (hk := .refl _ s) ..) rfl
  | .daybookRead .. => .sameBut (execDaybookRead_only (hm := Nat.and_self _) (hk := .refl _ s) ..) rfl
  | .ledgerRead .. => .sameBut (execLedgerRead_only (hm := Nat.and_self _) (hk := .refl _ s) ..) rfl
  | .ledgerStatus .. => .sameBut (execLedgerStatus_only (hm := Nat.and_self _) (hk := .refl _ s) ..) rfl
  | .unitStateRead .. => .sameBut (execUnitStateRead_only (hm := Nat.and_self _) (hk := .refl _ s) ..) rfl
  | .setPermission .. => .sameBut (execSetPermission_only (hm := Nat.and_self _) (hk := .refl _ s) ..) rfl
  | .setPowerLimit .. => .sameBut (execSetPowerLimit_only (hm := Nat.and_self _) (hk := .refl _ s) ..) rfl
  | .setPurseDepth .. => .sameBut (execSetPurseDepth_only (hm := Nat.and_self _) (hk := .refl _ s) ..) rfl
  | .planWrite .. => .sameBut (execPlanWrite_only (hm := Nat.and_self _) (hk := .refl _ s) ..) rfl
  | .planRetire .. => .sameBut (execPlanRetire_only (hm := Nat.and_self _) (hk := .refl _ s) ..) rfl
  | .regRead .. => .sameBut (execRegRead_only (hm := Nat.and_self _) (hk := .refl _ s) ..) rfl
  | .attestGet .. => .sameBut (execAttestGet_only (hm := Nat.and_self _) (hk := .refl _ s) ..) rfl
  | .treeBuildDone => .sameBut (execTreeBuildDone_only (hm := Nat.and_self _) (hk := .refl _ s) ..) rfl
  | .challenge .. => .sameBut (execChallenge_only (hm := Nat.and_self _) (hk := .refl _ s) ..) rfl
  | .present .. => .sameBut (execPresent_only (hm := Nat.and_self _) (hk := .refl _ s) ..) rfl
  | .relinquish .. => .sameBut (execRelinquish_only (hm := Nat.and_self _) (hk := .refl _ s) ..) rfl
  | .nonceExpiry => .sameBut (execNonceExpiry_only (hm := Nat.and_self _) (hk := .refl _ s) ..) rfl
  | .rightExpiry .. => .sameBut (execRightExpiry_only (hm := Nat.and_self _) (hk := .refl _ s) ..) rfl
  | .setEventReceiver .. => .sameBut (execSetEventReceiver_only (hm := Nat.and_self _) (hk := .refl _ s) ..) rfl
  | .platformEventRetry .. => .sameBut (execPlatformEventRetry_only (hm := Nat.and_self _) (hk := .refl _ s) ..) rfl
  | .getSensorReading .. => .sameBut (execGetSensorReading_only (hm := Nat.and_self _) (hk := .refl _ s) ..) rfl
  | .requestUpdate .. => .sameBut (execRequestUpdate_only (hm := Nat.and_self _) (hk := .refl _ s) ..) rfl
  | .verifyComplete .. => .sameBut (execVerifyComplete_only (hm := Nat.and_self _) (hk := .refl _ s) ..) rfl
  | .activateFirmware .. => .sameBut (execActivateFirmware_only (hm := Nat.and_self _) (hk := .refl _ s) ..) rfl
  | .aoPowerLoss .. => .sameBut (execAoPowerLoss_only (hm := Nat.and_self _) (hk := .refl _ s) ..) rfl
  | .railRecovery .. => .sameBut (execRailRecovery_only (hm := Nat.and_self _) (hk := .refl _ s) ..) rfl
  | .seqMemUncorrected .. => .sameBut (execSeqMemUncorrected_only (hm := Nat.and_self _) (hk := .refl _ s) ..) rfl
  | .bucelRestartComplete => .sameBut (execBucelRestartComplete_only (hm := Nat.and_self _) (hk := .refl _ s) ..) rfl
  | .widthSwitch .. => .sameBut (execWidthSwitch_only (hm := Nat.and_self _) (hk := .refl _ s) ..) rfl
  | .registerRead .. => .sameBut (execRegisterRead_only (hm := Nat.and_self _) (hk := .refl _ s) ..) rfl
  | .msixVectorUnmask .. => .sameBut (execMsixVectorUnmask_only (hm := Nat.and_self _) (hk := .refl _ s) ..) rfl
  | .platformEventAck .. => .sameBut (execPlatformEventAck_only (hm := Nat.and_self _) (hk := .refl _ s) ..) rfl
  | .hostLinkError .. => .sameBut (execHostLinkError_only (hm := Nat.and_self _) (hk := .refl _ s) ..) rfl

/-- Every command but the one that blows fuses keeps the queue, the fuses, what has left, the ledger's records and canonical memory. -/
theorem exec_keeps {c : Instr} (s : State) (h : ∀ k, c ≠ .rollbackFuseBlow k) : Answers (exec c s) (Keeps false s) :=
  match c with
  | .coldReset .. => execColdReset_keeps (hk := .refl _ s) ..
  | .railPowerGood .. => execRailPowerGood_keeps (hk := .refl _ s) ..
  | .railEnableTimeout .. => execRailEnableTimeout_keeps (hk := .refl _ s) ..
  | .pllLock => execPllLock_keeps (hk := .refl _ s) ..
  | .refclkCheck .. => execRefclkCheck_keeps (hk := .refl _ s) ..
  | .dramTrainingDone .. => execDramTrainingDone_keeps (hk := .refl _ s) ..
  | .dramZeroDone => execDramZeroDone_keeps (hk := .refl _ s) ..
  | .deviceReady => execDeviceReady_keeps (hk := .refl _ s) ..
  | .rollbackFuseBlow k => absurd rfl (h k)
  | .perstDeassert .. => execPerstDeassert_keeps (hk := .refl _ s) ..
  | .warmReset .. => execWarmReset_keeps (hk := .refl _ s) ..
  | .functionLevelReset => execFunctionLevelReset_keeps (hk := .refl _ s) ..
  | .flrScrubDone => execFlrScrubDone_keeps (hk := .refl _ s) ..
  | .sliceReset => execSliceReset_keeps (hk := .refl _ s) ..
  | .clusterReset .. => execClusterReset_keeps (hk := .refl _ s) ..
  | .coreReset .. => execCoreReset_keeps (hk := .refl _ s) ..
  | .portReset .. => execPortReset_keeps (hk := .refl _ s) ..
  | .doorbellPoll .. => execDoorbellPoll_keeps (hk := .refl _ s) ..
  | .lnMessage .. => execLnMessage_keeps (hk := .refl _ s) ..
  | .descriptorFetch .. => execDescriptorFetch_keeps (hk := .refl _ s) ..
  | .dispatch .. => execDispatch_keeps (hk := .refl _ s) ..
  | .msixAgeExpiry .. => execMsixAgeExpiry_keeps (hk := .refl _ s) ..
  | .ringEnable .. => execRingEnable_keeps (hk := .refl _ s) ..
  | .ringReset .. => execRingReset_keeps (hk := .refl _ s) ..
  | .bar2Read .. => execBar2Read_keeps (hk := .refl _ s) ..
  | .bar2Write .. => execBar2Write_keeps (hk := .refl _ s) ..
  | .registerWrite .. => execRegisterWrite_keeps (hk := .refl _ s) ..
  | .jobLoad .. => execJobLoad_keeps (hk := .refl _ s) ..
  | .jobUnload .. => execJobUnload_keeps (hk := .refl _ s) ..
  | .sliceSet .. => execSliceSet_keeps (hk := .refl _ s) ..
  | .runStep .. => execRunStep_keeps (hk := .refl _ s) ..
  | .runLayers .. => execRunLayers_keeps (hk := .refl _ s) ..
  | .dmaCopy .. => execDmaCopy_keeps (hk := .refl _ s) ..
  | .settleConfigJob .. => execSettleConfigJob_keeps (hk := .refl _ s) ..
  | .settleConfigRows .. => execSettleConfigRows_keeps (hk := .refl _ s) ..
  | .settleConfigInvalidate .. => execSettleConfigInvalidate_keeps (hk := .refl _ s) ..
  | .settleConfigRefresh .. => execSettleConfigRefresh_keeps (hk := .refl _ s) ..
  | .collectivePlan .. => execCollectivePlan_keeps (hk := .refl _ s) ..
  | .fence .. => execFence_keeps (hk := .refl _ s) ..
  | .preempt .. => execPreempt_keeps (hk := .refl _ s) ..
  | .preemptTakeEffect .. => execPreemptTakeEffect_keeps (hk := .refl _ s) ..
  | .resume .. => execResume_keeps (hk := .refl _ s) ..
  | .reconcileAccept .. => execReconcileAccept_keeps (hk := .refl _ s) ..
  | .reconcileFence .. => execReconcileFence_keeps (hk := .refl _ s) ..
  | .reconcileEnable .. => execReconcileEnable_keeps (hk := .refl _ s) ..
  | .query .. => execQuery_keeps (hk := .refl _ s) ..
  | .statementReq .. => execStatementReq_keeps (hk := .refl _ s) ..
  | .proxyRequest .. => execProxyRequest_keeps (hk := .refl _ s) ..
  | .proxyResponse .. => execProxyResponse_keeps (hk := .refl _ s) ..
  | .lcbStore .. => execLcbStore_keeps (hk := .refl _ s) ..
  | .layerStart .. => execLayerStart_keeps (hk := .refl _ s) ..
  | .layerWait .. => execLayerWait_keeps (hk := .refl _ s) ..
  | .mxeIssue .. => execMxeIssue_keeps (hk := .refl _ s) ..
  | .finishedTileDrain .. => execFinishedTileDrain_keeps (hk := .refl _ s) ..
  | .tileOperation .. => execTileOperation_keeps (hk := .refl _ s) ..
  | .loadLand .. => execLoadLand_keeps (hk := .refl _ s) ..
  | .layerComplete .. => execLayerComplete_keeps (hk := .refl _ s) ..
  | .hwmClear .. => execHwmClear_keeps (hk := .refl _ s) ..
  | .seqTableWrite .. => execSeqTableWrite_keeps (hk := .refl _ s) ..
  | .seqTableCommit .. => execSeqTableCommit_keeps (hk := .refl _ s) ..
  | .lossRead .. => execLossRead_keeps (hk := .refl _ s) ..
  | .lossClear .. => execLossClear_keeps (hk := .refl _ s) ..
  | .timerWait .. => execTimerWait_keeps (hk := .refl _ s) ..
  | .timerExpiry .. => execTimerExpiry_keeps (hk := .refl _ s) ..
  | .seqCompletion .. => execSeqCompletion_keeps (hk := .refl _ s) ..
  | .programNote .. => execProgramNote_keeps (hk := .refl _ s) ..
  | .seqAddressFault .. => execSeqAddressFault_keeps (hk := .refl _ s) ..
  | .seqInstructionFault .. => execSeqInstructionFault_keeps (hk := .refl _ s) ..
  | .debugHalt .. => execDebugHalt_keeps (hk := .refl _ s) ..
  | .debugResume .. => execDebugResume_keeps (hk := .refl _ s) ..
  | .deposit .. => execDeposit_keeps (hk := .refl _ s) ..
  | .take .. => execTake_keeps (hk := .refl _ s) ..
  | .takeNArm .. => execTakeNArm_keeps (hk := .refl _ s) ..
  | .takeN .. => execTakeN_keeps (hk := .refl _ s) ..
  | .peek .. => execPeek_keeps (hk := .refl _ s) ..
  | .bell .. => execBell_keeps (hk := .refl _ s) ..
  | .remoteCoinGo .. => execRemoteCoinGo_keeps (hk := .refl _ s) ..
  | .coinPacket .. => execCoinPacket_keeps (hk := .refl _ s) ..
  | .coinReply .. => execCoinReply_keeps (hk := .refl _ s) ..
  | .coinWaitTimeout .. => execCoinWaitTimeout_keeps (hk := .refl _ s) ..
  | .coinGuardExpiry .. => execCoinGuardExpiry_keeps (hk := .refl _ s) ..
  | .sealDeposit .. => execSealDeposit_keeps (hk := .refl _ s) ..
  | .vaultScrub .. => execVaultScrub_keeps (hk := .refl _ s) ..
  | .vaultSpareDone .. => execVaultSpareDone_keeps (hk := .refl _ s) ..
  | .dramPatrolScrub .. => execDramPatrolScrub_keeps (hk := .refl _ s) ..
  | .dramTrackingUpdate .. => execDramTrackingUpdate_keeps (hk := .refl _ s) ..
  | .softPpr .. => execSoftPpr_keeps (hk := .refl _ s) ..
  | .remoteWrite .. => execRemoteWrite_keeps (hk := .refl _ s) ..
  | .readReq .. => execReadReq_keeps (hk := .refl _ s) ..
  | .readRsp .. => execReadRsp_keeps (hk := .refl _ s) ..
  | .readErr .. => execReadErr_keeps (hk := .refl _ s) ..
  | .readTimeout .. => execReadTimeout_keeps (hk := .refl _ s) ..
  | .landing .. => execLanding_keeps (hk := .refl _ s) ..
  | .settleContribution .. => execSettleContribution_keeps (hk := .refl _ s) ..
  | .settleWalkEnd .. => execSettleWalkEnd_keeps (hk := .refl _ s) ..
  | .stmtTimeout => execStmtTimeout_keeps (hk := .refl _ s) ..
  | .spikeReset => execSpikeReset_keeps (hk := .refl _ s) ..
  | .collectiveStart .. => execCollectiveStart_keeps (hk := .refl _ s) ..
  | .reduceSegment .. => execReduceSegment_keeps (hk := .refl _ s) ..
  | .gatherSegment .. => execGatherSegment_keeps (hk := .refl _ s) ..
  | .collectiveEnd .. => execCollectiveEnd_keeps (hk := .refl _ s) ..
  | .statementCombine .. => execStatementCombine_keeps (hk := .refl _ s) ..
  | .statementBroadcast .. => execStatementBroadcast_keeps (hk := .refl _ s) ..
  | .pointBarrierCombine .. => execPointBarrierCombine_keeps (hk := .refl _ s) ..
  | .pointBarrierBroadcast .. => execPointBarrierBroadcast_keeps (hk := .refl _ s) ..
  | .packetFrame .. => execPacketFrame_keeps (hk := .refl _ s) ..
  | .ack .. => execAck_keeps (hk := .refl _ s) ..
  | .nak .. => execNak_keeps (hk := .refl _ s) ..
  | .ackTimeout .. => execAckTimeout_keeps (hk := .refl _ s) ..
  | .credit .. => execCredit_keeps (hk := .refl _ s) ..
  | .creditQuery .. => execCreditQuery_keeps (hk := .refl _ s) ..
  | .creditLate .. => execCreditLate_keeps (hk := .refl _ s) ..
  | .keepalive .. => execKeepalive_keeps (hk := .refl _ s) ..
  | .keepaliveSend .. => execKeepaliveSend_keeps (hk := .refl _ s) ..
  | .linkPartnerLost .. => execLinkPartnerLost_keeps (hk := .refl _ s) ..
  | .signalDetect .. => execSignalDetect_keeps (hk := .refl _ s) ..
  | .linkUp .. => execLinkUp_keeps (hk := .refl _ s) ..
  | .trainingTimeout .. => execTrainingTimeout_keeps (hk := .refl _ s) ..
  | .trainingRetry .. => execTrainingRetry_keeps (hk := .refl _ s) ..
  | .retrain .. => execRetrain_keeps (hk := .refl _ s) ..
  | .forceKeepalive .. => execForceKeepalive_keeps (hk := .refl _ s) ..
  | .keepaliveIdle .. => execKeepaliveIdle_keeps (hk := .refl _ s) ..
  | .power .. => execPower_keeps (hk := .refl _ s) ..
  | .keepaliveExit .. => execKeepaliveExit_keeps (hk := .refl _ s) ..
  | .laneSample .. => execLaneSample_keeps (hk := .refl _ s) ..
  | .laneFail .. => execLaneFail_keeps (hk := .refl _ s) ..
  | .spareReq .. => execSpareReq_keeps (hk := .refl _ s) ..
  | .spareAck .. => execSpareAck_keeps (hk := .refl _ s) ..
  | .spareSwitch .. => execSpareSwitch_keeps (hk := .refl _ s) ..
  | .sparingDone .. => execSparingDone_keeps (hk := .refl _ s) ..
  | .sparingTimeout .. => execSparingTimeout_keeps (hk := .refl _ s) ..
  | .width .. => execWidth_keeps (hk := .refl _ s) ..
  | .eq .. => execEq_keeps (hk := .refl _ s) ..
  | .eqStep .. => execEqStep_keeps (hk := .refl _ s) ..
  | .timeExchange .. => execTimeExchange_keeps (hk := .refl _ s) ..
  | .timeReq .. => execTimeReq_keeps (hk := .refl _ s) ..
  | .timeRsp .. => execTimeRsp_keeps (hk := .refl _ s) ..
  | .identity .. => execIdentity_keeps (hk := .refl _ s) ..
  | .identityRepeat .. => execIdentityRepeat_keeps (hk := .refl _ s) ..
  | .identityTimeout .. => execIdentityTimeout_keeps (hk := .refl _ s) ..
  | .reidentify .. => execReidentify_keeps (hk := .refl _ s) ..
  | .partnerMissing .. => execPartnerMissing_keeps (hk := .refl _ s) ..
  | .sliceNotice .. => execSliceNotice_keeps (hk := .refl _ s) ..
  | .routeStall .. => execRouteStall_keeps (hk := .refl _ s) ..
  | .drain .. => execDrain_keeps (hk := .refl _ s) ..
  | .detourWrite .. => execDetourWrite_keeps (hk := .refl _ s) ..
  | .purseRefillTick => execPurseRefillTick_keeps (hk := .refl _ s) ..
  | .rateRecompute => execRateRecompute_keeps (hk := .refl _ s) ..
  | .thermalSample .. => execThermalSample_keeps (hk := .refl _ s) ..
  | .paceRound => execPaceRound_keeps (hk := .refl _ s) ..
  | .paceCombine .. => execPaceCombine_keeps (hk := .refl _ s) ..
  | .paceBroadcast .. => execPaceBroadcast_keeps (hk := .refl _ s) ..
  | .powerBrake => execPowerBrake_keeps (hk := .refl _ s) ..
  | .powerBrakeRelease => execPowerBrakeRelease_keeps (hk := .refl _ s) ..
  | .clockGate .. => execClockGate_keeps (hk := .refl _ s) ..
  | .powerGate .. => execPowerGate_keeps (hk := .refl _ s) ..
  | .clusterWake .. => execClusterWake_keeps (hk := .refl _ s) ..
  | .holdRun .. => execHoldRun_keeps (hk := .refl _ s) ..
  | .deepIdleEntry => execDeepIdleEntry_keeps (hk := .refl _ s) ..
  | .deepIdleExit => execDeepIdleExit_keeps (hk := .refl _ s) ..
  | .avsUpdate .. => execAvsUpdate_keeps (hk := .refl _ s) ..
  | .droopDetect .. => execDroopDetect_keeps (hk := .refl _ s) ..
  | .regulatorRead .. => execRegulatorRead_keeps (hk := .refl _ s) ..
  | .railUndervoltage .. => execRailUndervoltage_keeps (hk := .refl _ s) ..
  | .railFault .. => execRailFault_keeps (hk := .refl _ s) ..
  | .cdcTimeout .. => execCdcTimeout_keeps (hk := .refl _ s) ..
  | .stateCompare => execStateCompare_keeps (hk := .refl _ s) ..
  | .coreWatchdog .. => execCoreWatchdog_keeps (hk := .refl _ s) ..
  | .seqWatchdog .. => execSeqWatchdog_keeps (hk := .refl _ s) ..
  | .bucelRestart => execBucelRestart_keeps (hk := .refl _ s) ..
  | .securityAlarm .. => execSecurityAlarm_keeps (hk := .refl _ s) ..
  | .injectArm .. => execInjectArm_keeps (hk := .refl _ s) ..
  | .statementTake => execStatementTake_keeps (hk := .refl _ s) ..
  | .ledgerCounters .. => execLedgerCounters_keeps (hk := .refl _ s) ..
  | .ledgerDaily .. => execLedgerDaily_keeps (hk := .refl _ s) ..
  | .setEndpointId .. => execSetEndpointId_keeps (hk := .refl _ s) ..
  | .dynamicAddressAssign .. => execDynamicAddressAssign_keeps (hk := .refl _ s) ..
  | .statementGet .. => execStatementGet_keeps (hk := .refl _ s) ..
  | .daybookRead .. => execDaybookRead_keeps (hk := .refl _ s) ..
  | .ledgerRead .. => execLedgerRead_keeps (hk := .refl _ s) ..
  | .ledgerStatus .. => execLedgerStatus_keeps (hk := .refl _ s) ..
  | .unitStateRead .. => execUnitStateRead_keeps (hk := .refl _ s) ..
  | .setPermission .. => execSetPermission_keeps (hk := .refl _ s) ..
  | .setPowerLimit .. => execSetPowerLimit_keeps (hk := .refl _ s) ..
  | .setPurseDepth .. => execSetPurseDepth_keeps (hk := .refl _ s) ..
  | .planWrite .. => execPlanWrite_keeps (hk := .refl _ s) ..
  | .planRetire .. => execPlanRetire_keeps (hk := .refl _ s) ..
  | .regRead .. => execRegRead_keeps (hk := .refl _ s) ..
  | .attestGet .. => execAttestGet_keeps (hk := .refl _ s) ..
  | .treeBuildDone => execTreeBuildDone_keeps (hk := .refl _ s) ..
  | .challenge .. => execChallenge_keeps (hk := .refl _ s) ..
  | .present .. => execPresent_keeps (hk := .refl _ s) ..
  | .relinquish .. => execRelinquish_keeps (hk := .refl _ s) ..
  | .nonceExpiry => execNonceExpiry_keeps (hk := .refl _ s) ..
  | .rightExpiry .. => execRightExpiry_keeps (hk := .refl _ s) ..
  | .setEventReceiver .. => execSetEventReceiver_keeps (hk := .refl _ s) ..
  | .platformEventRetry .. => execPlatformEventRetry_keeps (hk := .refl _ s) ..
  | .getSensorReading .. => execGetSensorReading_keeps (hk := .refl _ s) ..
  | .requestUpdate .. => execRequestUpdate_keeps (hk := .refl _ s) ..
  | .verifyComplete .. => execVerifyComplete_keeps (hk := .refl _ s) ..
  | .activateFirmware .. => execActivateFirmware_keeps (hk := .refl _ s) ..
  | .aoPowerLoss .. => execAoPowerLoss_keeps (hk := .refl _ s) ..
  | .railRecovery .. => execRailRecovery_keeps (hk := .refl _ s) ..
  | .seqMemUncorrected .. => execSeqMemUncorrected_keeps (hk := .refl _ s) ..
  | .bucelRestartComplete => execBucelRestartComplete_keeps (hk := .refl _ s) ..
  | .widthSwitch .. => execWidthSwitch_keeps (hk := .refl _ s) ..
  | .registerRead .. => execRegisterRead_keeps (hk := .refl _ s) ..
  | .msixVectorUnmask .. => execMsixVectorUnmask_keeps (hk := .refl _ s) ..
  | .platformEventAck .. => execPlatformEventAck_keeps (hk := .refl _ s) ..
  | .hostLinkError .. => execHostLinkError_keeps (hk := .refl _ s) ..

/-- ROLLBACK_FUSE_BLOW keeps what every other command keeps, the fuses apart. -/
theorem exec_rollbackFuseBlow_keeps (k : Nat) (s : State) :
    Answers (exec (.rollbackFuseBlow k) s) (fun t => Keeps false { s with fuses := t.fuses } t ∧ ∀ j, s.fuses.svn j ≤ t.fuses.svn j) :=
  execRollbackFuseBlow_keeps k s (.refl false s)

/-- A command keeps the queue, what has left, the ledger's records and canonical memory; only the fuses may differ. -/
theorem exec_keeps_but_fuses (c : Instr) (s : State) : Answers (exec c s) (fun t => Keeps false { s with fuses := t.fuses } t) := by
  by_cases h : ∃ k, c = .rollbackFuseBlow k
  · obtain ⟨k, rfl⟩ := h
    exact (exec_rollbackFuseBlow_keeps k s).imp fun _ ht => ht.1
  · refine (exec_keeps s fun k hk => h ⟨k, hk⟩).imp fun t ht => ?_
    obtain ⟨hpending, _, hrest⟩ := ht
    exact ⟨hpending, rfl, hrest⟩

/-- Settles O4: a step idles or runs one command, and every command keeps the canonical form. -/
theorem memoryStaysCanonical : Obligations.MemoryStaysCanonical := by
  unfold Obligations.MemoryStaysCanonical
  intro s t hs hstep
  cases hp : s.pending with
  | nil =>
    rw [step_of_pending_nil hp] at hstep
    cases hstep
    exact hs
  | cons c rest =>
    rw [step_of_pending_cons hp] at hstep
    have hkeeps := exec_keeps_but_fuses c { s with pending := rest }
    rw [hstep] at hkeeps
    obtain ⟨_, _, _, _, hmemory, _⟩ := hkeeps.of_next
    exact hmemory hs

/-- Settles O5, by the mask of each command. -/
theorem commandsChangeOnlyTheirParts : Obligations.CommandsChangeOnlyTheirParts := by
  unfold Obligations.CommandsChangeOnlyTheirParts
  exact exec_sameBut

/-! ### Fuses (R543, R546) -/

/-- An event changes no fuse. -/
theorem State.log_fuses (s : State) (c : EventClass) (source : Nat) (data : List (Nat × Nat)) : (s.log c source data).fuses = s.fuses :=
  (State.log_only (hm := Nat.and_self _) (hk := .refl _ s) ..).fuses rfl

/-- ROLLBACK_FUSE_BLOW leaves the vendor keys' hashes and sets the revocation fuse at most. -/
theorem exec_rollbackFuseBlow_keys (k : Nat) (s : State) :
    Answers (exec (.rollbackFuseBlow k) s) (fun t => t.fuses.vendor0 = s.fuses.vendor0 ∧ t.fuses.vendor1 = s.fuses.vendor1 ∧
      (s.fuses.revoke0 = true → t.fuses.revoke0 = true)) := by
  have hexec : exec (.rollbackFuseBlow k) s = execRollbackFuseBlow k s := rfl
  rw [hexec, execRollbackFuseBlow]
  extract_lets fuses u fuses'
  split
  · have hu : u.fuses.vendor0 = s.fuses.vendor0 ∧ u.fuses.vendor1 = s.fuses.vendor1 ∧ (s.fuses.revoke0 = true → u.fuses.revoke0 = true) := by
      unfold u
      split <;> exact ⟨rfl, rfl, by simp⟩
    split
    · refine Answers.next ?_
      rw [State.log_fuses]
      exact hu
    · exact Answers.next hu
  · exact Answers.next ⟨rfl, rfl, id⟩

/-- Settles O6: ROLLBACK_FUSE_BLOW alone writes fuses, and it only sets one and raises a count. -/
theorem fusesOnlyRise : Obligations.FusesOnlyRise := by
  unfold Obligations.FusesOnlyRise
  intro c s
  by_cases h : ∃ k, c = .rollbackFuseBlow k
  · obtain ⟨k, rfl⟩ := h
    refine ((exec_rollbackFuseBlow_keeps k s).and (exec_rollbackFuseBlow_keys k s)).imp fun t ⟨⟨_, hcounts⟩, hvendor0, hvendor1, hrevoke⟩ => ?_
    exact ⟨fun hc => absurd rfl (hc k), hvendor0, hvendor1, hrevoke, hcounts⟩
  · refine (exec_keeps s fun k hk => h ⟨k, hk⟩).imp fun t ⟨_, hfuses, _⟩ => ?_
    have hf : t.fuses = s.fuses := hfuses
    exact ⟨fun _ => hf, by rw [hf], by rw [hf], by rw [hf]; exact id, fun _ => Nat.le_of_eq (by rw [hf])⟩

/-- Settles O7, by what every command keeps. -/
theorem nothingTakenBack : Obligations.NothingTakenBack := by
  unfold Obligations.NothingTakenBack
  exact fun c s => (exec_keeps_but_fuses c s).imp fun t ⟨hpending, _, hout, hcores, _⟩ => ⟨hout, hcores, hpending⟩

end Sys2Proof.Machine
end

