-- ==== Sys2Proof/Proofs/LockedRegisters.lean ====
section
/-!
PROOFS. Registers under a lock bit (21_register_map.md, R601): a host write of one changes nothing.
-/
set_option autoImplicit false
namespace Sys2Proof.Machine

/-! ### Updates that change nothing -/

theorem State.modPwr_eq_self {s : State} {f : Power → Power} (h : f s.pwr = s.pwr) : s.modPwr f = s := by rw [State.modPwr, h]
theorem State.modErr_eq_self {s : State} {f : Errors → Errors} (h : f s.err = s.err) : s.modErr f = s := by rw [State.modErr, h]

/-! ### Words under their lock -/

/-- PWR_THERM_CTRL under its lock: LOCK itself is set already (R487). -/
theorem State.writeWord_therm_locked {s : State} (w n hit : Nat) (h : s.pwr.lock = true) : s.writeWord .therm w n hit = s := by
  simp only [State.writeWord, State.writeTherm, h, if_true]
  exact State.modPwr_eq_self (by rw [h, Bool.true_or, ← h])

/-- DDR_CTRL under its lock (R205). -/
theorem State.writeWord_ddrCtrl_locked {s : State} (w n hit : Nat) (h : s.dram.lock = true) : s.writeWord .ddrCtrl w n hit = s := if_pos h

/-- ERR_CTRL under its lock: LOCK itself is set already (R510). -/
theorem State.writeWord_errCtrl_locked {s : State} (w n hit : Nat) (h : s.err.lock = true) : s.writeWord .errCtrl w n hit = s := by
  simp only [State.writeWord, State.writeErrCtrl, h, if_true]
  exact State.modErr_eq_self (by rw [h, Bool.true_or, ← h])

/-- LNK_PORTn_CTRL under the link lock, if the write leaves FORCE_KEEPALIVE and asks for no retraining (R312). -/
theorem State.writeWord_portCtrl_locked {s : State} {n v hit : Nat} (w : Nat) (h : s.dev.lnkLock = true)
    (hforce : bit v 4 = (s.port n).link.forceKa) (hretrain : bit hit 5 = false) : s.writeWord (.portCtrl n) w v hit = s := by
  simp only [State.writeWord, State.writePort, h, hforce, hretrain, if_true, Bool.false_eq_true, if_false]

/-- Settles O9: none of the registers is held by a cluster's clock, and each word is as it was under its lock. -/
theorem lockedFieldsKeep : Obligations.LockedFieldsKeep := by
  unfold Obligations.LockedFieldsKeep
  intro a v s hok
  have hword {r : Reg} (hreg : regAt a = some (r, 0)) (hneeds : r.needs = none) (h : s.writeWord r 0 (v % 2 ^ 64) (v % 2 ^ 64) = s) :
      Answers (exec (.registerWrite .host a 8 v) s) (fun t => t = s) := by
    rw [exec_registerWrite_host_word v s hok hreg (s.regAsleep_of_needs_none hneeds)]
    exact Answers.next h
  refine ⟨fun hreg hlock => ?_, fun hreg hlock => ?_, fun hreg hlock => ?_, fun n hreg hlock hforce hretrain => ?_⟩
  · exact hword hreg rfl (State.writeWord_therm_locked _ _ _ hlock)
  · exact hword hreg rfl (State.writeWord_ddrCtrl_locked _ _ _ hlock)
  · exact hword hreg rfl (State.writeWord_errCtrl_locked _ _ _ hlock)
  · refine hword hreg rfl (State.writeWord_portCtrl_locked _ hlock ?_ ?_)
    · rw [bit_mod_two_pow v (by decide), hforce]
    · rw [bit_mod_two_pow v (by decide), hretrain]

end Sys2Proof.Machine
end

