-- ==== Sys2Proof/Proofs/Frames.lean ====
section
/-!
PROOFS. What crosses a port (09_gnoem_link.md, Blocks and frames; 11_routing_and_slices.md, Packet format): the fields of tag and header,
the parts of a packet in their order, and that blocks are read back as the frame they were.
-/
set_option autoImplicit false
namespace Sys2Proof.Machine

/-! ### Packed words -/

theorem pack_nil : pack [] = 0 := rfl

theorem pack_foldl (l : List (Nat × Nat × Nat)) (a : Nat) :
    l.foldl (fun a x => a + (x.2.2 % 2 ^ x.2.1) * 2 ^ x.1) a = a + pack l := by
  induction l generalizing a with
  | nil => rfl
  | cons x r ih => rw [pack, List.foldl_cons, List.foldl_cons, ih, ih, Nat.zero_add, Nat.add_assoc]

theorem pack_cons (lo w v : Nat) (l : List (Nat × Nat × Nat)) : pack ((lo, w, v) :: l) = v % 2 ^ w * 2 ^ lo + pack l := by
  rw [pack, List.foldl_cons, pack_foldl, Nat.zero_add]

theorem bit_eq_fld (x i : Nat) : bit x i = (fld x i 1 == 1) := rfl

theorem bnum_lt_two (b : Bool) : bnum b < 2 := by cases b <;> decide

theorem bnum_beq_one (b : Bool) : (bnum b == 1) = b := by cases b <;> rfl

/-- A number in n bytes and a byte behind it. -/
theorem leNat_bytes_byte (n v b : Nat) (hb : b < 256) : leNat (leBytes n v ++ leBytes 1 b) = v % 256 ^ n + 256 ^ n * b := by
  rw [leNat_append, leNat_leBytes, leBytes_length, leNat_byte b hb]

/-! ### The link tag (R284) -/

theorem tagBytes_length (type vc seq n : Nat) (ack : Option Nat) : (tagBytes type vc seq n ack).length = 8 := by
  simp [tagBytes, leBytes_length]

/-- The first seven bytes of a tag are its fields. -/
theorem tagBytes_take (type vc seq n : Nat) (ack : Option Nat) :
    (tagBytes type vc seq n ack).take 7 = leBytes 7 (tagFields type vc seq n ack) := by
  rw [tagBytes, List.take_left' (leBytes_length _ _)]

theorem leNat_tagBytes (type vc seq n : Nat) (ack : Option Nat) :
    leNat (tagBytes type vc seq n ack) =
      tagFields type vc seq n ack % 256 ^ 7 + 256 ^ 7 * crc8 ((tagBytes type vc seq n ack).take 7) := by
  rw [tagBytes_take]
  exact leNat_bytes_byte _ _ _ (crc8_lt _)

/-- Every field of a tag stands at its bits, with zeros between. -/
theorem tag_fields {type vc seq n : Nat} {ack : Option Nat} (htype : type < 16) (hvc : vc < 2) (hseq : seq < 65536) (hn : n < 512)
    (hack : ∀ a, ack = some a → a < 65536) :
    let w := leNat (tagBytes type vc seq n ack)
    fld w 0 4 = type ∧ fld w 4 1 = vc ∧ fld w 5 3 = 0 ∧ fld w 8 16 = seq ∧ fld w 24 9 = n ∧ fld w 33 16 = ack.getD 0 ∧
      fld w 49 1 = bnum ack.isSome ∧ fld w 50 6 = 0 ∧ fld w 56 8 = crc8 ((tagBytes type vc seq n ack).take 7) := by
  have hnum : ack.getD 0 < 65536 := by
    cases ack with
    | none => decide
    | some a => exact hack a rfl
  have hvalid := bnum_lt_two ack.isSome
  have hcrc := crc8_lt ((tagBytes type vc seq n ack).take 7)
  rw [leNat_tagBytes]
  simp only [tagFields, pack_cons, pack_nil, fld, Nat.shiftRight_eq_div_pow]
  refine ⟨?_, ?_, ?_, ?_, ?_, ?_, ?_, ?_, ?_⟩ <;> omega

/-- ACK_VALID and ACK together give back the acknowledgement. -/
theorem tag_ack {w : Nat} {ack : Option Nat} (hnum : fld w 33 16 = ack.getD 0) (hvalid : fld w 49 1 = bnum ack.isSome) :
    (if bit w 49 then some (fld w 33 16) else none) = ack := by
  rw [bit_eq_fld, hvalid, bnum_beq_one, hnum]
  cases ack <;> rfl

/-! ### The header (R316, R337) -/

theorem Coord.toNat_lt (c : Coord) : c.toNat < 2 ^ 24 := by
  unfold Coord.toNat
  omega

/-- A coordinate that fits the position word is read back. -/
theorem Coord.ofNat_toNat {c : Coord} (h : c.fits = true) : Coord.ofNat c.toNat = c := by
  obtain ⟨hw, hx, hy, hz⟩ := of_decide_eq_true h
  obtain ⟨w, x, y, z⟩ := c
  simp only [Coord.ofNat, Coord.toNat, fld, Nat.shiftRight_eq_div_pow, Coord.mk.injEq] at *
  omega

/-- What `Packet.sendable` asks of a packet, part by part. -/
theorem Packet.sendable_iff (p : Packet) : p.sendable = true ↔
    (p.channel < 8 ∧ p.kind < 16 ∧ p.addr < 2 ^ 48 ∧ p.payload.length ≤ 8192) ∧ p.dest.fits = true ∧ p.src.fits = true ∧
    (∀ coin q c, p.sealExt = some (coin, q, c) → coin < 2 ^ 32 ∧ q < 256 ∧ c < 2 ^ 24) ∧
    p.poison = (List.range 128).filter (fun u => p.poison.contains u) ∧ p.pmap = false ∧ p.badHcrc = none ∧ p.lenOk = true := by
  unfold Packet.sendable
  cases p.sealExt with
  | none => simp [and_assoc]
  | some x =>
    have hseal : (∀ coin q c, some x = some (coin, q, c) → coin < 2 ^ 32 ∧ q < 256 ∧ c < 2 ^ 24) ↔ x.1 < 2 ^ 32 ∧ x.2.1 < 256 ∧ x.2.2 < 2 ^ 24 :=
      ⟨fun h => h _ _ _ rfl, fun h coin q c hx => by cases hx; exact h⟩
    simp only [hseal, Bool.and_eq_true, decide_eq_true_eq, beq_iff_eq, Bool.not_eq_true', Option.isNone_iff_eq_none, and_assoc]

theorem Packet.header_eq (p : Packet) : p.header = leBytes 15 p.fields ++ leBytes 1 (p.badHcrc.getD (crc8 (leBytes 15 p.fields))) := rfl

/-- A right HCRC is the CRC-8 of the other fields. -/
theorem Packet.header_of_hcrc {p : Packet} (h : p.badHcrc = none) : p.header = leBytes 15 p.fields ++ leBytes 1 (crc8 (leBytes 15 p.fields)) := by
  rw [Packet.header_eq, h, Option.getD_none]

theorem Packet.header_length (p : Packet) : p.header.length = 16 := by
  simp [Packet.header, leBytes_length]

theorem Packet.header_take (p : Packet) : p.header.take 15 = leBytes 15 p.fields := by
  rw [Packet.header, List.take_left' (leBytes_length _ _)]

/-- Every field of a header stands at its bits. -/
theorem Packet.header_fields {p : Packet} (h : p.sendable = true) :
    let w := leNat p.header
    fld w 0 3 = p.channel ∧ bit w 3 = p.sealExt.isSome ∧ bit w 4 = p.hasMap ∧ bit w 5 = p.failed ∧ fld w 6 4 = p.kind ∧
      fld w 10 24 = p.dest.toNat ∧ fld w 34 24 = p.src.toNat ∧ fld w 58 14 = p.payload.length ∧ fld w 72 48 = p.addr ∧
      fld w 120 8 = crc8 (p.header.take 15) := by
  obtain ⟨⟨hchannel, hkind, haddr, hlen⟩, _, _, _, _, _, hhcrc, _⟩ := p.sendable_iff.mp h
  have hext := bnum_lt_two p.sealExt.isSome
  have hmap := bnum_lt_two p.hasMap
  have hfailed := bnum_lt_two p.failed
  have hdest := p.dest.toNat_lt
  have hsrc := p.src.toNat_lt
  have hcrc := crc8_lt (p.header.take 15)
  have hw : leNat p.header = p.fields % 256 ^ 15 + 256 ^ 15 * crc8 (p.header.take 15) := by
    rw [Packet.header_take, Packet.header_of_hcrc hhcrc, leNat_bytes_byte _ _ _ (crc8_lt _)]
  rw [← bnum_beq_one p.sealExt.isSome, ← bnum_beq_one p.hasMap, ← bnum_beq_one p.failed, hw]
  simp only [bit_eq_fld, Packet.fields, pack_cons, pack_nil, fld, Nat.shiftRight_eq_div_pow]
  refine ⟨?_, congrArg (· == 1) ?_, congrArg (· == 1) ?_, congrArg (· == 1) ?_, ?_, ?_, ?_, ?_, ?_, ?_⟩ <;> omega

/-! ### The parts of a packet (R336, R338, R340) -/

theorem Packet.extBytes_length (p : Packet) : p.extBytes.length = if p.sealExt.isSome then 8 else 0 := by
  unfold Packet.extBytes
  cases p.sealExt <;> simp [leBytes_length]

theorem Packet.mapBytes_length (p : Packet) : p.mapBytes.length = if p.hasMap then 16 else 0 := by
  unfold Packet.mapBytes
  split <;> simp [leBytes_length]

theorem Packet.body_length (p : Packet) : p.body.length + 4 = p.bytes := by
  simp only [Packet.body, List.length_append, Packet.header_length, Packet.extBytes_length, Packet.mapBytes_length, Packet.bytes]

theorem Packet.wire_length (p : Packet) : p.wire.length = p.bytes := by
  rw [Packet.wire, List.length_append, leBytes_length, p.body_length]

/-- The trailer of a packet is the CRC-32C of all before it. -/
theorem Packet.wire_trailer (p : Packet) :
    leNat (p.wire.drop (p.bytes - 4)) = (crc32c (p.wire.take (p.bytes - 4))).toNat := by
  have hbody : p.body.length = p.bytes - 4 := by have := p.body_length; omega
  rw [Packet.wire, List.take_left' hbody, List.drop_left' hbody, leNat_leBytes, Nat.mod_eq_of_lt]
  exact (crc32c p.body).isLt

/-! ### Reading a packet back (R336 to R341) -/

/-- Bytes that stand behind bytes of a known number. -/
theorem leAt_behind {a b c : List Byte} {off n : Nat} (ha : a.length = off) (hb : b.length = n) : leAt (a ++ b ++ c) off n = leNat b := by
  rw [List.append_assoc, leAt_middle a b c off n ha hb]

/-- The seal extension, read behind the header. -/
theorem Packet.read_ext {p : Packet} {rest : List Byte} (h : p.sendable = true) :
    (if p.sealExt.isSome then some (leAt (p.header ++ p.extBytes ++ rest) 16 4, leAt (p.header ++ p.extBytes ++ rest) 20 1,
      leAt (p.header ++ p.extBytes ++ rest) 21 3) else none) = p.sealExt := by
  obtain ⟨_, _, _, hseal, _⟩ := p.sendable_iff.mp h
  cases hx : p.sealExt with
  | none => rfl
  | some x =>
    obtain ⟨coin, q, c⟩ := x
    obtain ⟨hcoin, hq, hc⟩ := hseal coin q c hx
    have hext : p.header ++ p.extBytes ++ rest = p.header ++ (leBytes 4 coin ++ (leBytes 1 q ++ (leBytes 3 c ++ rest))) := by
      simp [Packet.extBytes, hx]
    have h20 : (p.header ++ leBytes 4 coin).length = 20 := by rw [List.length_append, p.header_length, leBytes_length]
    have h21 : (p.header ++ leBytes 4 coin ++ leBytes 1 q).length = 21 := by rw [List.length_append, h20, leBytes_length]
    have ecoin : leAt (p.header ++ (leBytes 4 coin ++ (leBytes 1 q ++ (leBytes 3 c ++ rest)))) 16 4 = coin := by
      rw [leAt_middle _ _ _ _ _ p.header_length (leBytes_length _ _), leNat_leBytes]; omega
    have eq : leAt (p.header ++ (leBytes 4 coin ++ (leBytes 1 q ++ (leBytes 3 c ++ rest)))) 20 1 = q := by
      rw [← List.append_assoc, leAt_middle _ _ _ _ _ h20 (leBytes_length _ _), leNat_leBytes]; omega
    have ec : leAt (p.header ++ (leBytes 4 coin ++ (leBytes 1 q ++ (leBytes 3 c ++ rest)))) 21 3 = c := by
      rw [← List.append_assoc, ← List.append_assoc, leAt_middle _ _ _ _ _ h21 (leBytes_length _ _), leNat_leBytes]; omega
    rw [hext, ecoin, eq, ec]
    rfl

/-- The word of a packet's poison map, 0 without one. -/
def Packet.marks (p : Packet) : Nat := if p.hasMap then whichBits 128 (fun u => p.poison.contains u) else 0

/-- The marks name the poisoned units, and a map marks one at least. -/
theorem Packet.marks_spec {p : Packet} (h : p.sendable = true) :
    (List.range 128).filter (bit p.marks) = p.poison ∧ (p.hasMap && p.marks == 0) = false := by
  obtain ⟨_, _, _, _, hpoison, hpmap, _, _⟩ := p.sendable_iff.mp h
  have hmap : p.hasMap = !p.poison.isEmpty := by rw [Packet.hasMap, hpmap, Bool.false_or]
  cases hp : p.poison with
  | nil => simp [Packet.marks, hmap, hp, bit]
  | cons u us =>
    have hu : u ∈ (List.range 128).filter (fun u => p.poison.contains u) := by rw [← hpoison, hp]; exact List.mem_cons_self
    have hu128 : u < 128 := List.mem_range.mp (List.mem_filter.mp hu).1
    have hmarks : p.marks = whichBits 128 (fun u => p.poison.contains u) := by simp [Packet.marks, hmap, hp]
    have hbits : (List.range 128).filter (bit p.marks) = (List.range 128).filter (fun u => p.poison.contains u) := by
      refine List.filter_congr fun i hi => ?_
      rw [hmarks, bit_whichBits _ _ _ (List.mem_range.mp hi)]
    have hne : p.marks ≠ 0 := by
      intro h0
      have hbit : bit p.marks u = true := by rw [hmarks, bit_whichBits _ _ _ hu128]; exact (List.mem_filter.mp hu).2
      rw [h0] at hbit
      simp [bit] at hbit
    refine ⟨by rw [hbits, ← hpoison, hp], ?_⟩
    simp [hne]

/-- The poison map, read behind header and extension. -/
theorem Packet.read_map (p : Packet) (rest : List Byte) (off : Nat) (hoff : off = 16 + (if p.sealExt.isSome then 8 else 0) + (if p.hasMap then 16 else 0)) :
    (if p.hasMap then leAt (p.header ++ p.extBytes ++ p.mapBytes ++ rest) (off - 16) 16 else 0) = p.marks := by
  unfold Packet.marks
  by_cases hmap : p.hasMap = true
  · have hfront : (p.header ++ p.extBytes).length = off - 16 := by
      rw [List.length_append, p.header_length, p.extBytes_length, hoff, hmap, if_pos rfl]; omega
    have hlen : p.mapBytes.length = 16 := by rw [p.mapBytes_length, hmap, if_pos rfl]
    rw [if_pos hmap, if_pos hmap, leAt_behind hfront hlen, Packet.mapBytes, if_pos hmap, leNat_leBytes, Nat.mod_eq_of_lt]
    exact Nat.lt_of_lt_of_eq (whichBits_lt 128 _) (by decide)
  · rw [if_neg hmap, if_neg hmap]

/-- Bytes of the last block that a packet does not fill. -/
def Packet.slack (p : Packet) : Nat := 32 * p.blocks - 8 - p.bytes

/-- The bytes that a frame delivers give back the packet, with a right trailer. -/
theorem Packet.ofWire_wire {p : Packet} (h : p.sendable = true) : Packet.ofWire (p.wire ++ List.replicate p.slack 0) = (p, true) := by
  obtain ⟨⟨hchannel, hkind, haddr, hlen⟩, hdest, hsrc, _, _, hpmap, hhcrc, hlenOk⟩ := p.sendable_iff.mp h
  obtain ⟨echannel, eext, emap, efailed, ekind, edest, esrc, elen, eaddr, ehcrc⟩ := Packet.header_fields h
  obtain ⟨hpoison, hmapped⟩ := Packet.marks_spec h
  have hbody := p.body_length
  generalize hzeros : List.replicate p.slack (0 : Byte) = zeros
  have hzlen : zeros.length = p.slack := by rw [← hzeros, List.length_replicate]
  have hparts : p.wire ++ zeros = p.header ++ p.extBytes ++ p.mapBytes ++ (p.payload ++ (leBytes 4 (crc32c p.body).toNat ++ zeros)) := by
    simp [Packet.wire, Packet.body]
  have hword : leAt (p.wire ++ zeros) 0 16 = leNat p.header := by
    rw [hparts, List.append_assoc, List.append_assoc, leAt_front _ _ _ p.header_length]
  have hcrcs : (p.wire ++ zeros).take 15 = p.header.take 15 := by
    rw [hparts, List.append_assoc, List.append_assoc, List.take_append_of_le_length (by rw [p.header_length]; omega)]
  have hread : ∀ off n, leAt (p.wire ++ zeros) off n = leAt (p.header ++ p.extBytes ++ (p.mapBytes ++ (p.payload ++ (leBytes 4 (crc32c p.body).toNat ++ zeros)))) off n := by
    intro off n; rw [hparts]; simp only [List.append_assoc]
  have hoff : (p.header ++ p.extBytes ++ p.mapBytes).length = 16 + (if p.sealExt.isSome then 8 else 0) + (if p.hasMap then 16 else 0) := by
    rw [List.length_append, List.length_append, p.header_length, p.extBytes_length, p.mapBytes_length]
  have hsize : p.body.length = 16 + (if p.sealExt.isSome then 8 else 0) + (if p.hasMap then 16 else 0) + p.payload.length := by
    rw [Packet.body, List.length_append, hoff]
  have hpayload : ((p.wire ++ zeros).drop (16 + (if p.sealExt.isSome then 8 else 0) + (if p.hasMap then 16 else 0))).take p.payload.length = p.payload := by
    rw [hparts, List.drop_left' hoff, List.take_left]
  have hmarks : (if p.hasMap then leAt (p.wire ++ zeros) (16 + (if p.sealExt.isSome then 8 else 0) + (if p.hasMap then 16 else 0) - 16) 16 else 0) = p.marks := by
    rw [hparts]; exact p.read_map _ _ rfl
  have hext : (if p.sealExt.isSome then some (leAt (p.wire ++ zeros) 16 4, leAt (p.wire ++ zeros) 20 1, leAt (p.wire ++ zeros) 21 3) else none) = p.sealExt := by
    simp only [hread]; exact Packet.read_ext h
  have hall : (p.wire ++ zeros).length = p.bytes + p.slack := by rw [List.length_append, p.wire_length, hzlen]
  have hfill : (8 + (p.body.length) + 4 + 31) / 32 * 32 = 8 + (p.bytes + p.slack) := by
    have : p.blocks = (8 + p.bytes + 31) / 32 := rfl
    unfold Packet.slack
    omega
  have htrailer : leAt (p.wire ++ zeros) p.body.length 4 = (crc32c p.body).toNat := by
    have := (crc32c p.body).isLt
    rw [Packet.wire, leAt_behind rfl (leBytes_length _ _), leNat_leBytes]; omega
  have hbefore : (p.wire ++ zeros).take p.body.length = p.body := by
    rw [Packet.wire, List.append_assoc, List.take_left]
  unfold Packet.ofWire
  simp only [hword, echannel, eext, emap, efailed, ekind, edest, esrc, elen, eaddr, ehcrc, hcrcs, hpayload, hmarks, hext, hpoison, hmapped, hall,
    ← hsize, htrailer, hbefore, Coord.ofNat_toNat hdest, Coord.ofNat_toNat hsrc, hfill, if_true, decide_eq_true hlen, beq_self_eq_true, Bool.and_true]
  refine Prod.ext ?_ (decide_eq_true (by omega))
  rw [← hpmap, ← hhcrc, ← hlenOk]

/-! ### Reading a frame back (R283 to R286) -/

/-- The blocks of a frame's bytes: a tag whose CRC is right and whose BLOCKS counts them is taken, and the rest is read by its TYPE. -/
theorem readFrame_blocks {type vc seq n : Nat} {ack : Option Nat} {rest : List Byte} (htype : type ≤ 12) (hvc : vc < 2) (hseq : seq < 65536)
    (hack : ∀ a, ack = some a → a < 65536) (hn : n = (8 + rest.length + 31) / 32) (hrange : if type = 0 then 1 ≤ n ∧ n ≤ 258 else n = 1) :
    readFrame (blocksOf (tagBytes type vc seq n ack ++ rest)) =
      if type = 0 then
        .frame (.packet vc seq ack (Packet.ofWire (rest ++ List.replicate (32 * n - 8 - rest.length) 0)).1)
          (Packet.ofWire (rest ++ List.replicate (32 * n - 8 - rest.length) 0)).2
      else .frame (.control type vc ack (rest ++ List.replicate (32 * n - 8 - rest.length) 0)) true := by
  have hn512 : n < 512 := by split at hrange <;> omega
  obtain ⟨etype, evc, _, eseq, en, enum, evalid, _, ecrc⟩ := tag_fields (seq := seq) (by omega : type < 16) hvc hseq hn512 hack
  have hlen : (tagBytes type vc seq n ack ++ rest).length = 8 + rest.length := by rw [List.length_append, tagBytes_length]
  have hbytes : (blocksOf (tagBytes type vc seq n ack ++ rest)).flatMap blockBytes =
      tagBytes type vc seq n ack ++ (rest ++ List.replicate (32 * n - 8 - rest.length) 0) := by
    rw [blocksOf_bytes, hlen, ← hn, padTo_short _ _ (by rw [hlen]; omega), hlen, List.append_assoc, Nat.sub_add_eq]
  have hcount : (blocksOf (tagBytes type vc seq n ack ++ rest)).length = n := by rw [blocksOf_length, hlen, hn]
  have hrange' : (if type = 0 then decide (1 ≤ n ∧ n ≤ 258) else n == 1) = true := by
    split <;> simp_all
  have htake : ∀ x, (tagBytes type vc seq n ack ++ x).take 7 = (tagBytes type vc seq n ack).take 7 := fun x =>
    List.take_append_of_le_length (by rw [tagBytes_length]; omega)
  unfold readFrame
  simp only [hbytes, leAt_front _ _ _ (tagBytes_length type vc seq n ack), blocksOf_oneStart _ (by rw [hlen]; omega : 0 < (tagBytes type vc seq n ack ++ rest).length),
    htake, etype, evc, eseq, en, tag_ack enum evalid, ecrc, hcount, hrange', decide_eq_true htype, List.drop_left' (tagBytes_length type vc seq n ack),
    beq_self_eq_true, Bool.and_self, not_true, if_false]

/-- A control frame of 24 bytes takes one block and is read back. -/
theorem readFrame_control {type vc : Nat} {ack : Option Nat} {body : List Byte} (hlow : 1 ≤ type) (htype : type ≤ 12) (hvc : vc < 2)
    (hack : ∀ a, ack = some a → a < 65536) (hbody : body.length = 24) :
    readFrame (Frame.control type vc ack body).blocks = .frame (.control type vc ack body) true := by
  have hne : type ≠ 0 := by omega
  have hpad : padTo 24 body = body := by rw [padTo_short _ _ (by omega), hbody]; simp
  rw [Frame.blocks, hpad, readFrame_blocks htype hvc (by decide) hack (by rw [hbody]) (by rw [if_neg hne]), if_neg hne, hbody]
  simp

/-- A packet frame is read back with its packet and a right trailer. -/
theorem readFrame_packet {vc seq : Nat} {ack : Option Nat} {p : Packet} (hvc : vc < 2) (hseq : seq < 65536) (hack : ∀ a, ack = some a → a < 65536)
    (hp : p.sendable = true) : readFrame (Frame.packet vc seq ack p).blocks = .frame (.packet vc seq ack p) true := by
  obtain ⟨⟨_, _, _, hpay⟩, _⟩ := p.sendable_iff.mp hp
  have hblocks : p.blocks = (8 + p.wire.length + 31) / 32 := by rw [p.wire_length]; rfl
  have hrange : 1 ≤ p.blocks ∧ p.blocks ≤ 258 := by
    rw [hblocks, p.wire_length]
    unfold Packet.bytes
    split <;> split <;> omega
  rw [Frame.blocks, readFrame_blocks (by decide) hvc hseq hack hblocks (by rw [if_pos rfl]; exact hrange), if_pos rfl, p.wire_length]
  have hread := Packet.ofWire_wire hp
  unfold Packet.slack at hread
  rw [hread]

/-- Settles O17. -/
theorem framesRoundTrip : Obligations.FramesRoundTrip := by
  unfold Obligations.FramesRoundTrip
  exact ⟨fun type vc ack body hlow htype hvc hack hbody => readFrame_control hlow htype hvc hack hbody,
    fun vc seq ack p hvc hseq hack hp => readFrame_packet hvc hseq hack hp,
    fun type vc seq n ack htype hvc hseq hn hack => tag_fields htype hvc hseq hn hack,
    fun p hp => p.header_fields hp, fun p => ⟨p.wire_length, p.wire_trailer⟩⟩

end Sys2Proof.Machine
end

