-- ==== Sys2Proof/Proofs/SequencersApart.lean ====
section
/-!
PROOFS. What a sequencer does to itself (05_program_model.md): the issue of its instruction leaves the other clusters as they are.
-/
set_option autoImplicit false
namespace Sys2Proof.Machine

/-- A tick leaves every other cluster as it is. -/
theorem State.cluster_tick_of_ne {c k : Nat} (h : k ≠ c) (s : State) (t : Tick) : (s.tick c t).cluster k = s.cluster k := by
  simp only [State.cluster_tick, State.cluster_modSeq, State.cluster_advance, if_neg h]

/-- A command of a sequencer whose instruction is not poisoned leaves another cluster as it is, if its effect does. -/
theorem State.cluster_onSeq_of_ne {c k : Nat} {t : Tick} {s : State} (h : k ≠ c)
    (hclean : (s.cluster c).seq.imemBad.contains (t.pc % 2 ^ 18 / 64) = false) {f : State → State}
    (hf : ∀ u, (f u).cluster k = u.cluster k) : (s.onSeq c t f).cluster k = s.cluster k := by
  rw [State.onSeq]
  split
  · rw [State.tick_fetchLost, hclean]
    exact (hf _).trans (State.cluster_tick_of_ne h s t)
  · rfl

/-- A change of a sequencer leaves every other cluster as it is. -/
theorem State.cluster_modSeq_of_ne {c k : Nat} (h : k ≠ c) (s : State) (f : Sequencer → Sequencer) :
    (s.modSeq c f).cluster k = s.cluster k := by
  rw [State.cluster_modSeq, if_neg h]

/-- Settles O16: five of the commands act after the tick, and each changes its own sequencer, the high-water marks, time or the Day
Book. -/
theorem sequencersKeepToTheirCluster : Obligations.SequencersKeepToTheirCluster := by
  unfold Obligations.SequencersKeepToTheirCluster
  intro c k x n v bytes s hne hclean keeps
  have issued {f : State → State} (hf : ∀ u, (f u).cluster k = u.cluster k) : keeps (.next (s.onSeq c x f)) :=
    Answers.next (State.cluster_onSeq_of_ne hne hclean hf)
  have own (u : State) (f : Sequencer → Sequencer) : (u.modSeq c f).cluster k = u.cluster k := State.cluster_modSeq_of_ne hne u f
  refine ⟨issued fun u => ?_, issued fun u => ?_, issued fun u => ?_, issued fun u => ?_, issued fun u => ?_, ?_, ?_⟩
  case refine_1 => -- LOSS_READ
    split
    · exact own ..
    · rfl
  case refine_2 => -- HWM_CLEAR
    split <;> rfl
  case refine_3 => -- TIMER_WAIT
    split
    · dsimp only
      split
      · exact own ..
      · exact (own ..).trans (own ..)
    · rfl
  case refine_4 => -- LAYER_WAIT
    dsimp only
    split
    · exact own ..
    · exact (own ..).trans (own ..)
  case refine_5 => -- PROGRAM_NOTE
    exact Only.cluster_eq (State.logAs_only (hm := Nat.and_self _) (hk := .refl _ u) ..) rfl k
  case refine_6 => -- TIMER_EXPIRY
    have hexec : exec (.timerExpiry c) s = execTimerExpiry c s := rfl
    rw [hexec, execTimerExpiry]
    split
    · exact Answers.next ((own ..).trans (Only.cluster_eq (State.atDevice_only (hm := Nat.and_self _) (hk := .refl _ s) ..) rfl k))
    · exact Answers.next rfl
  case refine_7 => -- DEBUG_HALT
    have hexec : exec (.debugHalt c) s = execDebugHalt c s := rfl
    rw [hexec, execDebugHalt]
    split
    · exact Answers.next (own ..)
    · exact Answers.next rfl

end Sys2Proof.Machine
end

