-- ==== Sys2Proof/Proofs/Ports.lean ====
section
/-!
PROOFS. What sending and forwarding leave of a port: its counters of frames and credits, its queues and its replay buffer move, and
all the rest of the port stays (09_gnoem_link.md, 11_routing_and_slices.md).
-/
set_option autoImplicit false
namespace Sys2Proof.Machine

/-- A link without its transmit and replay queues, its transmit counters and its credits. -/
def Link.steady (k : Link) : Link :=
  { k with txSeq := 0, replay := [], replayRuns := 0, freed := [], usedCr := [], txq := [], rr := 0, rrIn := [], lastTraffic := 0,
           txBlock := 0 }

/-- A port without those, and without its count of quarantined packets. -/
def Port.steady (o : Port) : Port := { o with link := o.link.steady, disc := { o.disc with quarDropped := 0 } }

/-- Every port is the same in t as in s, but for what `Port.steady` leaves out. -/
def Steady (s t : State) : Prop := ∀ n, (t.port n).steady = (s.port n).steady

namespace Steady

variable {s t u : State}

theorem refl (s : State) : Steady s s := fun _ => rfl
theorem trans (h : Steady s t) (k : Steady t u) : Steady s u := fun n => (k n).trans (h n)

/-- What changes no port keeps each steady: the mask has every bit but that of the ports. -/
theorem only (h : Only 8573157375 t u) (hk : Steady s t) : Steady s u := by
  intro n
  rw [State.port, h.ports (by decide)]
  exact hk n

theorem ite {c : Prop} [Decidable c] (h : Steady s t) (k : Steady s u) : Steady s (if c then t else u) := by
  split
  · exact h
  · exact k

theorem ite2 {α : Type} {c : Prop} [Decidable c] {p q : α × State} (h : Steady s p.2) (k : Steady s q.2) :
    Steady s (if c then p else q).2 := by
  split
  · exact h
  · exact k

theorem pair {α : Type} {p : α × State} {a : α} (h : p = (a, t)) (hp : Steady s p.2) : Steady s t := by
  subst h
  exact hp

theorem foldl {α : Type} {f : State → α → State} {l : List α} (h : ∀ t x, Steady s t → Steady s (f t x)) (h0 : Steady s t) :
    Steady s (l.foldl f t) := by
  induction l generalizing t with
  | nil => exact h0
  | cons x l ih => exact ih (h _ _ h0)

/-- What is read of a link and does not depend on what moves is the same. -/
theorem link {α : Type} (h : Steady s t) (n : Nat) (f : Link → α) (hf : ∀ k, f k.steady = f k) :
    f (t.port n).link = f (s.port n).link := by
  calc f (t.port n).link = f (t.port n).steady.link := (hf _).symm
    _ = f (s.port n).steady.link := by rw [h n]
    _ = f (s.port n).link := hf _

theorem disc {α : Type} (h : Steady s t) (n : Nat) (f : Disc → α) (hf : ∀ d : Disc, f { d with quarDropped := 0 } = f d) :
    f (t.port n).disc = f (s.port n).disc := by
  calc f (t.port n).disc = f (t.port n).steady.disc := (hf _).symm
    _ = f (s.port n).steady.disc := by rw [h n]
    _ = f (s.port n).disc := hf _

theorem rep (h : Steady s t) (n : Nat) : (t.port n).rep = (s.port n).rep := by
  calc (t.port n).rep = (t.port n).steady.rep := rfl
    _ = (s.port n).steady.rep := by rw [h n]
    _ = (s.port n).rep := rfl

end Steady

/-! ### Updates of one port -/

theorem State.modPort_steady {s₀ : State} (s : State) (n : Nat) (f : Port → Port) (hf : ∀ o, (f o).steady = o.steady)
    (hk : Steady s₀ s) : Steady s₀ (s.modPort n f) := by
  intro m
  rw [State.port_modPort]
  split
  next h => rw [hf, h]; exact hk n
  next => exact hk m

theorem State.modLink_steady {s₀ : State} (s : State) (n : Nat) (f : Link → Link)
    (hf : ∀ o : Port, ({ o with link := f o.link } : Port).steady = o.steady) (hk : Steady s₀ s) : Steady s₀ (s.modLink n f) :=
  State.modPort_steady s n _ hf hk

theorem State.modDisc_steady {s₀ : State} (s : State) (n : Nat) (f : Disc → Disc)
    (hf : ∀ o : Port, ({ o with disc := f o.disc } : Port).steady = o.steady) (hk : Steady s₀ s) : Steady s₀ (s.modDisc n f) :=
  State.modPort_steady s n _ hf hk

/-! ### Operations that change no port -/

theorem State.emit_steady {s₀ : State} (s : State) (o : Out)
    (hk : Steady s₀ s) : Steady s₀ (State.emit s o) :=
  .only (State.emit_only (hm := by decide) (hk := .refl _ _) ..) hk

theorem State.dropNoPort_steady {s₀ : State} (s : State) (n : Nat)
    (hk : Steady s₀ s) : Steady s₀ (State.dropNoPort s n) :=
  .only (State.dropNoPort_only (hm := by decide) (hk := .refl _ _) ..) hk

theorem State.moved_steady {s₀ : State} (s : State)
    (hk : Steady s₀ s) : Steady s₀ (State.moved s) :=
  .only (State.moved_only (hm := by decide) (hk := .refl _ _) ..) hk

theorem State.fenced_steady {s₀ : State} (s : State) (p : Packet) (out : Bool)
    (hk : Steady s₀ s) : Steady s₀ (State.fenced s p out) :=
  .only (State.fenced_only (hm := by decide) (hk := .refl _ _) ..) hk

theorem State.modRtr_steady {s₀ : State} (s : State) (f : Router → Router)
    (hk : Steady s₀ s) : Steady s₀ (State.modRtr s f) :=
  .only (State.modRtr_only (hm := by decide) (hk := .refl _ _) ..) hk

theorem State.span_steady {s₀ : State} (s : State) (key n : Nat)
    (hk : Steady s₀ s) : Steady s₀ (State.span s key n) :=
  .only (State.span_only (hm := by decide) (hk := .refl _ _) ..) hk

theorem State.detectLimited_steady {s₀ : State} (s : State) (c : EventClass) (key source : Nat) (data : List (Nat × Nat))
    (hk : Steady s₀ s) : Steady s₀ (State.detectLimited s c key source data) :=
  .only (State.detectLimited_only (hm := by decide) (hk := .refl _ _) ..) hk

theorem State.badPacket_steady {s₀ : State} (s : State)
    (hk : Steady s₀ s) : Steady s₀ (State.badPacket s) :=
  .only (State.badPacket_only (hm := by decide) (hk := .refl _ _) ..) hk

theorem State.log_steady {s₀ : State} (s : State) (c : EventClass) (source : Nat) (data : List (Nat × Nat))
    (hk : Steady s₀ s) : Steady s₀ (State.log s c source data) :=
  .only (State.log_only (hm := by decide) (hk := .refl _ _) ..) hk

theorem State.deepExit_steady {s₀ : State} (s : State)
    (hk : Steady s₀ s) : Steady s₀ (State.deepExit s) :=
  .only (State.deepExit_only (hm := by decide) (hk := .refl _ _) ..) hk

theorem State.bufferEcc_steady {s₀ : State} (s : State) (p : Packet) (arr0 : BufferEcc)
    (hk : Steady s₀ s) : Steady s₀ (State.bufferEcc s p arr0).2 :=
  .only (State.bufferEcc_only (hm := by decide) (hk := .refl _ _) ..) hk

theorem State.toRequester_steady {s₀ : State} (s : State) (c : Nat) (who : Requester) (via : Via) (r : CoinResult)
    (hk : Steady s₀ s) : Steady s₀ (State.toRequester s c who via r) :=
  .only (State.toRequester_only (hm := by decide) (hk := .refl _ _) ..) hk

theorem State.replyIn_steady {s₀ : State} (s : State) (src : Coord) (q c tag : Nat) (r : CoinResult)
    (hk : Steady s₀ s) : Steady s₀ (State.replyIn s src q c tag r) :=
  .only (State.replyIn_only (hm := by decide) (hk := .refl _ _) ..) hk

theorem State.modQueue_steady {s₀ : State} (s : State) (c q : Nat) (f : Queue → Queue)
    (hk : Steady s₀ s) : Steady s₀ (State.modQueue s c q f) :=
  .only (State.modQueue_only (hm := by decide) (hk := .refl _ _) ..) hk

theorem State.modCluster_steady {s₀ : State} (s : State) (c : Nat) (f : Cluster → Cluster)
    (hk : Steady s₀ s) : Steady s₀ (State.modCluster s c f) :=
  .only (State.modCluster_only (hm := by decide) (hk := .refl _ _) ..) hk

theorem State.logLimited_steady {s₀ : State} (s : State) (c : EventClass) (key period : Nat) (source : Nat) (data : List (Nat × Nat))
    (hk : Steady s₀ s) : Steady s₀ (State.logLimited s c key period source data) :=
  .only (State.logLimited_only (hm := by decide) (hk := .refl _ _) ..) hk

theorem State.wake_steady {s₀ : State} (s : State) (c : Nat)
    (hk : Steady s₀ s) : Steady s₀ (State.wake s c) :=
  .only (State.wake_only (hm := by decide) (hk := .refl _ _) ..) hk

theorem State.dropCoin_steady {s₀ : State} (s : State) (c : Nat)
    (hk : Steady s₀ s) : Steady s₀ (State.dropCoin s c) :=
  .only (State.dropCoin_only (hm := by decide) (hk := .refl _ _) ..) hk

theorem State.modCol_steady {s₀ : State} (s : State) (f : Collect → Collect)
    (hk : Steady s₀ s) : Steady s₀ (State.modCol s f) :=
  .only (State.modCol_only (hm := by decide) (hk := .refl _ _) ..) hk

theorem State.modDec_steady {s₀ : State} (s : State) (f : Decision → Decision)
    (hk : Steady s₀ s) : Steady s₀ (State.modDec s f) :=
  .only (State.modDec_only (hm := by decide) (hk := .refl _ _) ..) hk

theorem State.modSlice_steady {s₀ : State} (s : State) (f : Slice → Slice)
    (hk : Steady s₀ s) : Steady s₀ (State.modSlice s f) :=
  .only (State.modSlice_only (hm := by decide) (hk := .refl _ _) ..) hk

theorem State.stmtFail_steady {s₀ : State} (s : State) (st : Status)
    (hk : Steady s₀ s) : Steady s₀ (State.stmtFail s st) :=
  .only (State.stmtFail_only (hm := by decide) (hk := .refl _ _) ..) hk

theorem State.dmasDrop_steady {s₀ : State} (s : State) (out : List Packet)
    (hk : Steady s₀ s) : Steady s₀ (State.dmasDrop s out) :=
  .only (State.dmasDrop_only (hm := by decide) (hk := .refl _ _) ..) hk

theorem State.timeLost_steady {s₀ : State} (s : State) (n : Nat)
    (hk : Steady s₀ s) : Steady s₀ (State.timeLost s n) :=
  .only (State.timeLost_only (hm := by decide) (hk := .refl _ _) ..) hk

theorem State.dmasDone_steady {s₀ : State} (s : State)
    (hk : Steady s₀ s) : Steady s₀ (State.dmasDone s) :=
  .only (State.dmasDone_only (hm := by decide) (hk := .refl _ _) ..) hk

/-! ### Sending, forwarding and coins -/

theorem State.sendFrame_steady {s₀ : State} (s : State) (n : Nat) (f : Frame)
    (hk : Steady s₀ s) : Steady s₀ (State.sendFrame s n f) := by
  unfold State.sendFrame
  repeat' (first
    | with_reducible assumption
    | with_reducible refine State.modLink_steady (hf := fun _ => rfl) (hk := ?_) ..
    | with_reducible refine State.emit_steady (hk := ?_) ..
    | split
    | dsimp only)

theorem State.sendCtl_steady {s₀ : State} (s : State) (n type vc : Nat) (body : List Byte)
    (hk : Steady s₀ s) : Steady s₀ (State.sendCtl s n type vc body) := by
  unfold State.sendCtl
  repeat' (first
    | with_reducible assumption
    | with_reducible refine State.sendFrame_steady (hk := ?_) ..)

theorem State.freeBuffer_steady {s₀ : State} (s : State) (n vc : Nat) (p : Packet)
    (hk : Steady s₀ s) : Steady s₀ (State.freeBuffer s n vc p) := by
  unfold State.freeBuffer
  repeat' (first
    | with_reducible assumption
    | with_reducible refine State.modLink_steady (hf := fun _ => rfl) (hk := ?_) ..
    | with_reducible refine State.sendCtl_steady (hk := ?_) ..
    | with_reducible refine Steady.ite ?_ ?_
    | split
    | dsimp only)

theorem State.sendOne_steady {s₀ : State} (s : State) (n : Nat) (q : Queued)
    (hk : Steady s₀ s) : Steady s₀ (State.sendOne s n q) := by
  unfold State.sendOne
  repeat' (first
    | with_reducible assumption
    | with_reducible refine State.modLink_steady (hf := fun _ => rfl) (hk := ?_) ..
    | with_reducible refine State.sendFrame_steady (hk := ?_) ..
    | with_reducible refine State.freeBuffer_steady (hk := ?_) ..
    | split
    | dsimp only)

theorem State.pumpN_steady {s₀ : State} (s : State) (n fuel : Nat) (hk : Steady s₀ s) : Steady s₀ (s.pumpN n fuel) := by
  induction fuel generalizing s with
  | zero => exact hk
  | succ fuel ih =>
    unfold State.pumpN
    split
    · exact ih _ (State.sendOne_steady _ _ _ hk)
    · exact hk

theorem State.pump_steady {s₀ : State} (s : State) (n : Nat)
    (hk : Steady s₀ s) : Steady s₀ (State.pump s n) := by
  unfold State.pump
  repeat' (first
    | with_reducible assumption
    | with_reducible refine State.sendCtl_steady (hk := ?_) ..
    | with_reducible refine State.pumpN_steady (hk := ?_) ..
    | with_reducible refine Steady.ite ?_ ?_
    | split
    | dsimp only)

theorem State.enqueue_steady {s₀ : State} (s : State) (n : Nat) (q : Queued)
    (hk : Steady s₀ s) : Steady s₀ (State.enqueue s n q) := by
  unfold State.enqueue
  repeat' (first
    | with_reducible assumption
    | with_reducible refine State.modLink_steady (hf := fun _ => rfl) (hk := ?_) ..
    | with_reducible refine State.pump_steady (hk := ?_) ..
    | split)

theorem State.launchAnswer_steady {s₀ : State} (s : State) (p : Packet)
    (hk : Steady s₀ s) : Steady s₀ (State.launchAnswer s p) := by
  unfold State.launchAnswer
  repeat' (first
    | with_reducible assumption
    | with_reducible refine State.dropNoPort_steady (hk := ?_) ..
    | with_reducible refine State.moved_steady (hk := ?_) ..
    | with_reducible refine State.enqueue_steady (hk := ?_) ..
    | with_reducible refine Steady.ite ?_ ?_
    | split
    | dsimp only)

theorem State.launch_steady {s₀ : State} (s : State) (p : Packet)
    (hk : Steady s₀ s) : Steady s₀ (State.launch s p).2 := by
  unfold State.launch
  repeat' (first
    | with_reducible assumption
    | with_reducible refine State.fenced_steady (hk := ?_) ..
    | with_reducible refine State.dropNoPort_steady (hk := ?_) ..
    | with_reducible refine State.moved_steady (hk := ?_) ..
    | with_reducible refine State.enqueue_steady (hk := ?_) ..
    | with_reducible refine Steady.ite2 ?_ ?_
    | split
    | dsimp only)

theorem State.inject_steady {s₀ : State} (s : State) (p : Packet)
    (hk : Steady s₀ s) : Steady s₀ (State.inject s p).2 := by
  unfold State.inject
  repeat' (first
    | with_reducible assumption
    | with_reducible refine State.modRtr_steady (hk := ?_) ..
    | with_reducible refine State.launch_steady (hk := ?_) ..
    | with_reducible refine Steady.ite2 ?_ ?_
    | split
    | dsimp only)

theorem State.readErr_steady {s₀ : State} (s : State) (p : Packet) (cause : Nat)
    (hk : Steady s₀ s) : Steady s₀ (State.readErr s p cause) := by
  unfold State.readErr
  repeat' (first
    | with_reducible assumption
    | with_reducible refine State.launchAnswer_steady (hk := ?_) ..
    | with_reducible refine State.inject_steady (hk := ?_) ..
    | with_reducible refine Steady.ite ?_ ?_
    | dsimp only)

theorem State.answerDrop_steady {s₀ : State} (s : State) (p : Packet) (cause : Nat)
    (hk : Steady s₀ s) : Steady s₀ (State.answerDrop s p cause) := by
  unfold State.answerDrop
  repeat' (first
    | with_reducible assumption
    | with_reducible refine State.readErr_steady (hk := ?_) ..
    | with_reducible refine Steady.ite ?_ ?_)

theorem State.routeIn_steady {s₀ : State} (s : State) (n vc : Nat) (p : Packet)
    (hk : Steady s₀ s) : Steady s₀ (State.routeIn s n vc p) := by
  unfold State.routeIn
  repeat' (first
    | with_reducible assumption
    | with_reducible refine State.modDisc_steady (hf := fun _ => rfl) (hk := ?_) ..
    | with_reducible refine State.modRtr_steady (hk := ?_) ..
    | with_reducible refine State.span_steady (hk := ?_) ..
    | with_reducible refine State.detectLimited_steady (hk := ?_) ..
    | with_reducible refine State.freeBuffer_steady (hk := ?_) ..
    | with_reducible refine State.fenced_steady (hk := ?_) ..
    | with_reducible refine State.dropNoPort_steady (hk := ?_) ..
    | with_reducible refine State.moved_steady (hk := ?_) ..
    | with_reducible refine State.enqueue_steady (hk := ?_) ..
    | with_reducible refine State.badPacket_steady (hk := ?_) ..
    | with_reducible refine State.answerDrop_steady (hk := ?_) ..
    | with_reducible refine Steady.ite ?_ ?_
    | split
    | dsimp only)

theorem State.routerJudges_steady {s₀ : State} (s : State) (n vc : Nat) (p : Packet) (failing : Bool)
    (hk : Steady s₀ s) : Steady s₀ (State.routerJudges s n vc p failing) := by
  unfold State.routerJudges
  repeat' (first
    | with_reducible assumption
    | with_reducible refine State.modRtr_steady (hk := ?_) ..
    | with_reducible refine State.log_steady (hk := ?_) ..
    | with_reducible refine State.freeBuffer_steady (hk := ?_) ..
    | with_reducible refine State.routeIn_steady (hk := ?_) ..
    | with_reducible refine Steady.ite ?_ ?_
    | split
    | dsimp only)

theorem State.routerTakes_steady {s₀ : State} (s : State) (n vc : Nat) (p : Packet) (failing : Bool) (mem : BufferEcc)
    (hk : Steady s₀ s) : Steady s₀ (State.routerTakes s n vc p failing mem) := by
  unfold State.routerTakes
  repeat' (first
    | with_reducible assumption
    | with_reducible refine State.freeBuffer_steady (hk := ?_) ..
    | with_reducible refine State.deepExit_steady (hk := ?_) ..
    | with_reducible refine State.bufferEcc_steady (hk := ?_) ..
    | with_reducible refine State.routerJudges_steady (hk := ?_) ..
    | with_reducible refine Steady.pair (by assumption) ?_
    | split
    | dsimp only)

theorem State.sendLocal_steady {s₀ : State} (s : State) (n addr : Nat) (payload : List Byte)
    (hk : Steady s₀ s) : Steady s₀ (State.sendLocal s n addr payload) := by
  unfold State.sendLocal
  repeat' (first
    | with_reducible assumption
    | with_reducible refine State.enqueue_steady (hk := ?_) ..)

theorem State.sendIdentity_steady {s₀ : State} (s : State) (n : Nat)
    (hk : Steady s₀ s) : Steady s₀ (State.sendIdentity s n) := by
  unfold State.sendIdentity
  repeat' (first
    | with_reducible assumption
    | with_reducible refine State.sendLocal_steady (hk := ?_) ..
    | with_reducible refine Steady.ite ?_ ?_)

theorem State.sendNotice_steady {s₀ : State} (s : State) (payload : List Byte)
    (hk : Steady s₀ s) : Steady s₀ (State.sendNotice s payload) := by
  unfold State.sendNotice
  repeat' (first
    | with_reducible assumption
    | with_reducible refine State.sendLocal_steady (hk := ?_) ..
    | with_reducible refine Steady.foldl (fun _ _ _ => ?_) ?_
    | split)

theorem State.freeKept_steady {s₀ : State} (s : State)
    (hk : Steady s₀ s) : Steady s₀ (State.freeKept s) := by
  unfold State.freeKept
  repeat' (first
    | with_reducible assumption
    | with_reducible refine State.modRtr_steady (hk := ?_) ..
    | with_reducible refine State.freeBuffer_steady (hk := ?_) ..
    | with_reducible refine Steady.foldl (fun _ _ _ => ?_) ?_
    | split
    | dsimp only)

theorem State.answer_steady {s₀ : State} (s : State) (c q : Nat) (who : Requester) (r : CoinResult)
    (hk : Steady s₀ s) : Steady s₀ (State.answer s c q who r) := by
  unfold State.answer
  repeat' (first
    | with_reducible assumption
    | with_reducible refine State.inject_steady (hk := ?_) ..
    | with_reducible refine State.toRequester_steady (hk := ?_) ..
    | with_reducible refine State.replyIn_steady (hk := ?_) ..
    | with_reducible refine Steady.ite ?_ ?_
    | split
    | dsimp only)

theorem State.release_steady {s₀ : State} (s : State) (c q : Nat)
    (hk : Steady s₀ s) : Steady s₀ (State.release s c q) := by
  unfold State.release
  repeat' (first
    | with_reducible assumption
    | with_reducible refine State.answer_steady (hk := ?_) ..
    | with_reducible refine State.modQueue_steady (hk := ?_) ..
    | with_reducible refine Steady.foldl (fun _ _ _ => ?_) ?_
    | split
    | dsimp only)

theorem State.putCoins_steady {s₀ : State} (s : State) (c q : Nat) (coins : List W32)
    (hk : Steady s₀ s) : Steady s₀ (State.putCoins s c q coins) := by
  unfold State.putCoins
  repeat' (first
    | with_reducible assumption
    | with_reducible refine State.modCluster_steady (hk := ?_) ..
    | with_reducible refine State.logLimited_steady (hk := ?_) ..
    | with_reducible refine State.modQueue_steady (hk := ?_) ..
    | with_reducible refine State.release_steady (hk := ?_) ..
    | with_reducible refine Steady.ite ?_ ?_
    | split
    | dsimp only)

theorem State.joinQueue_steady {s₀ : State} (s : State) (c q : Nat) (who : Requester) (n : Option Nat)
    (hk : Steady s₀ s) : Steady s₀ (State.joinQueue s c q who n) := by
  unfold State.joinQueue
  repeat' (first
    | with_reducible assumption
    | with_reducible refine State.modCluster_steady (hk := ?_) ..
    | with_reducible refine State.answer_steady (hk := ?_) ..
    | with_reducible refine State.modQueue_steady (hk := ?_) ..
    | with_reducible refine State.release_steady (hk := ?_) ..
    | with_reducible refine Steady.ite ?_ ?_
    | split)

theorem State.coinApply_steady {s₀ : State} (s : State) (c q : Nat) (who : Requester) (op : CoinOp)
    (hk : Steady s₀ s) : Steady s₀ (State.coinApply s c q who op) := by
  unfold State.coinApply
  repeat' (first
    | with_reducible assumption
    | with_reducible refine State.wake_steady (hk := ?_) ..
    | with_reducible refine State.answer_steady (hk := ?_) ..
    | with_reducible refine State.putCoins_steady (hk := ?_) ..
    | with_reducible refine State.joinQueue_steady (hk := ?_) ..
    | with_reducible refine State.dropCoin_steady (hk := ?_) ..
    | with_reducible refine Steady.ite ?_ ?_
    | split
    | dsimp only)

theorem State.collectiveCoin_steady {s₀ : State} (s : State) (c q : Nat) (v : W32)
    (hk : Steady s₀ s) : Steady s₀ (State.collectiveCoin s c q v) := by
  unfold State.collectiveCoin
  repeat' (first
    | with_reducible assumption
    | with_reducible refine State.coinApply_steady (hk := ?_) ..)

theorem State.entryEnd_steady {s₀ : State} (s : State) (i : Nat) (st : Status)
    (hk : Steady s₀ s) : Steady s₀ (State.entryEnd s i st) := by
  unfold State.entryEnd
  repeat' (first
    | with_reducible assumption
    | with_reducible refine State.modCol_steady (hk := ?_) ..
    | with_reducible refine State.collectiveCoin_steady (hk := ?_) ..
    | with_reducible refine Steady.ite ?_ ?_
    | split
    | dsimp only)

theorem State.failEntries_steady {s₀ : State} (s : State) (a : Nat)
    (hk : Steady s₀ s) : Steady s₀ (State.failEntries s a) := by
  unfold State.failEntries
  repeat' (first
    | with_reducible assumption
    | with_reducible refine State.modCol_steady (hk := ?_) ..
    | with_reducible refine State.freeKept_steady (hk := ?_) ..
    | with_reducible refine State.entryEnd_steady (hk := ?_) ..
    | with_reducible refine Steady.foldl (fun _ _ _ => ?_) ?_
    | split
    | dsimp only)

theorem State.degrade_steady {s₀ : State} (s : State) (axis : Nat)
    (hk : Steady s₀ s) : Steady s₀ (State.degrade s axis) := by
  unfold State.degrade
  repeat' (first
    | with_reducible assumption
    | with_reducible refine State.modDec_steady (hk := ?_) ..
    | with_reducible refine State.modSlice_steady (hk := ?_) ..
    | with_reducible refine State.stmtFail_steady (hk := ?_) ..
    | with_reducible refine State.failEntries_steady (hk := ?_) ..
    | with_reducible refine Steady.ite ?_ ?_
    | split
    | dsimp only)

theorem State.sliceLinkLost_steady {s₀ : State} (s : State) (n : Nat)
    (hk : Steady s₀ s) : Steady s₀ (State.sliceLinkLost s n) := by
  unfold State.sliceLinkLost
  repeat' (first
    | with_reducible assumption
    | with_reducible refine State.modSlice_steady (hk := ?_) ..
    | with_reducible refine State.sendNotice_steady (hk := ?_) ..
    | with_reducible refine State.degrade_steady (hk := ?_) ..
    | with_reducible refine Steady.ite ?_ ?_
    | split
    | dsimp only)

theorem State.dropQueue_steady {s₀ : State} (s : State) (n : Nat) (linkStays : Bool)
    (hk : Steady s₀ s) : Steady s₀ (State.dropQueue s n linkStays) := by
  unfold State.dropQueue
  repeat' (first
    | with_reducible assumption
    | with_reducible refine State.modLink_steady (hf := fun _ => rfl) (hk := ?_) ..
    | with_reducible refine State.modRtr_steady (hk := ?_) ..
    | with_reducible refine State.freeBuffer_steady (hk := ?_) ..
    | with_reducible refine State.dmasDrop_steady (hk := ?_) ..
    | with_reducible refine Steady.foldl (fun _ _ _ => ?_) ?_
    | split
    | dsimp only)

theorem State.leftActive_steady {s₀ : State} (s : State) (n : Nat)
    (hk : Steady s₀ s) : Steady s₀ (State.leftActive s n) := by
  unfold State.leftActive
  repeat' (first
    | with_reducible assumption
    | with_reducible refine State.timeLost_steady (hk := ?_) ..
    | with_reducible refine State.sliceLinkLost_steady (hk := ?_) ..
    | with_reducible refine State.dropQueue_steady (hk := ?_) ..)

theorem State.acked_steady {s₀ : State} (s : State) (n : Nat) (ack : Option Nat)
    (hk : Steady s₀ s) : Steady s₀ (State.acked s n ack) := by
  unfold State.acked
  repeat' (first
    | with_reducible assumption
    | with_reducible refine State.modLink_steady (hf := fun _ => rfl) (hk := ?_) ..
    | with_reducible refine State.pump_steady (hk := ?_) ..
    | with_reducible refine State.dmasDone_steady (hk := ?_) ..
    | with_reducible refine Steady.ite ?_ ?_
    | split
    | dsimp only)

end Sys2Proof.Machine
end

