-- ==== Sys2Proof/Proofs/LinkFrames.lean ====
section
/-!
PROOFS. Frames of a Gnoem link (09_gnoem_link.md): what leaves a port when a frame is sent, acknowledgement and replay, and credits.
-/
set_option autoImplicit false
namespace Sys2Proof.Machine

/-! ### What leaves the device -/

/-- What had left the device has left it still. -/
theorem Keeps.outPrefix {b : Bool} {s t : State} (h : Keeps b s t) : s.out <+: t.out := h.2.2.1

/-- A frame that is sent is the last thing that has left the device. -/
theorem State.sendFrame_out (s : State) (n : Nat) (f : Frame) :
    ∃ o, (s.sendFrame n f).out = s.out ++ [o] ∧ blocksOn n o = some f.blocks := by
  refine ⟨_, rfl, ?_⟩
  have hlen : f.blocks.length ≤ (List.range f.blocks.length).length := Nat.le_of_eq List.length_range.symm
  rw [blocksOn, if_pos rfl, List.map_map]
  exact congrArg some (List.map_snd_zip hlen)

/-- Frames that are sent one after another leave the device in their order. -/
theorem State.sendFrames_out {α : Type} (n : Nat) (g : α → Frame) (xs : List α) (s : State) :
    ∃ os, (xs.foldl (fun (s : State) x => s.sendFrame n (g x)) s).out = s.out ++ os ∧ FramesOn n (xs.map g) os := by
  induction xs generalizing s with
  | nil => exact ⟨[], (List.append_nil _).symm, rfl⟩
  | cons x xs ih =>
    obtain ⟨o, hout, ho⟩ := s.sendFrame_out n (g x)
    obtain ⟨os, houts, hos⟩ := ih (s.sendFrame n (g x))
    refine ⟨o :: os, ?_, ?_⟩
    · rw [List.foldl_cons, houts, hout, List.append_assoc, List.singleton_append]
    · rw [FramesOn, List.map_cons, List.map_cons, List.map_cons, ho, hos]

/-- A control frame is sent: nothing that had left before is taken back. -/
theorem SendsCtl.sendCtl {s u : State} (n type vc : Nat) (body : List Byte) (h : s.out <+: u.out) :
    SendsCtl n type s (u.sendCtl n type vc body) := by
  obtain ⟨before, hbefore⟩ := h
  obtain ⟨o, hout, ho⟩ := u.sendFrame_out n (.control type vc (u.port n).link.ack (padTo 24 body))
  refine ⟨vc, (u.port n).link.ack, padTo 24 body, before, [o], ?_, ?_⟩
  · rw [hbefore]; exact hout
  · rw [FramesOn, List.map_singleton, ho]; rfl

/-- What comes after the sending and sends nothing leaves it the last. -/
theorem SendsCtl.congr {n type : Nat} {s t u : State} (h : SendsCtl n type s t) (hout : u.out = t.out) : SendsCtl n type s u := by
  obtain ⟨vc, ack, body, before, os, heq, hos⟩ := h
  exact ⟨vc, ack, body, before, os, hout.trans heq, hos⟩

/-- What came before the sending took nothing back. -/
theorem SendsCtl.after {n type : Nat} {s t u : State} (hout : s.out <+: t.out) (h : SendsCtl n type t u) : SendsCtl n type s u := by
  obtain ⟨first, hfirst⟩ := hout
  obtain ⟨vc, ack, body, before, os, heq, hos⟩ := h
  refine ⟨vc, ack, body, first ++ before, os, ?_, hos⟩
  rw [heq, ← hfirst, List.append_assoc s.out]

/-! ### Ports and frames -/

/-- A frame that leaves changes of its port the number of the next block only. -/
theorem State.port_sendFrame (s : State) (n : Nat) (f : Frame) :
    ∃ b, (s.sendFrame n f).port n = { s.port n with link := { (s.port n).link with txBlock := b } } := by
  rw [State.sendFrame, State.port_modLink, if_pos rfl, State.port_emit]
  exact ⟨_, rfl⟩

/-- The acknowledgement and the credits that a port reports do not change as it sends. -/
theorem State.reports_sendCtl (s : State) (n type vc : Nat) (body : List Byte) :
    ((s.sendCtl n type vc body).port n).link.ack = (s.port n).link.ack ∧
      ∀ v, ((s.sendCtl n type vc body).port n).link.creditBody v = (s.port n).link.creditBody v := by
  obtain ⟨b, hb⟩ := s.port_sendFrame n (.control type vc (s.port n).link.ack (padTo 24 body))
  rw [State.sendCtl, hb]
  exact ⟨rfl, fun _ => rfl⟩

/-- A port with nothing queued sends nothing. -/
theorem State.pump_of_nothing_queued {s : State} {n : Nat} (h : (s.port n).link.txq = []) : s.pump n = s := by
  simp only [State.pump, h, List.length_nil, State.pumpN, List.any_nil, Bool.false_eq_true, and_false, if_false]

/-! ### Valid frames and acknowledgement (R288, R292) -/

/-- A valid frame refreshes the link. -/
theorem State.validFrame_steady (s : State) (n : Nat) (ack : Option Nat) :
    Steady (s.modLink n (fun k => { k with lastValid := s.aoNs })) (s.validFrame n ack) :=
  State.acked_steady _ n ack (.refl _)

theorem State.lastValid_validFrame (s : State) (n : Nat) (ack : Option Nat) :
    ((s.validFrame n ack).port n).link.lastValid = s.aoNs := by
  rw [(s.validFrame_steady n ack).link n (·.lastValid) (fun _ => rfl), State.port_modLink, if_pos rfl]

/-- A valid frame takes back nothing that has left the device. -/
theorem State.out_validFrame (s : State) (n : Nat) (ack : Option Nat) : s.out <+: (s.validFrame n ack).out :=
  (State.validFrame_keeps s n ack (.refl true s)).outPrefix

/-- With nothing queued, a cumulative acknowledgement leaves in the replay buffer what it does not cover. -/
theorem State.replay_acked {s : State} {n : Nat} (a : Nat) (h : (s.port n).link.txq = []) :
    ((s.acked n (some a)).port n).link.replay = (s.port n).link.replay.filter (Frame.unacked a) := by
  rw [State.acked]
  split
  case isTrue hsame => exact (List.filter_sublist.eq_of_length hsame).symm
  case isFalse =>
    rw [State.port, (State.dmasDone_only (hm := Nat.and_self _) (hk := .refl _ _) ..).ports rfl, ← State.port,
      State.pump_of_nothing_queued, State.port_modLink, if_pos rfl]
    rw [State.port_modLink, if_pos rfl]
    exact h

/-! ### Replay (R290) -/

/-- A replay sends the replay buffer again, in order, and is counted. -/
theorem State.replay_sends {s : State} {n : Nat} (hany : (s.port n).link.replay ≠ []) (hruns : (s.port n).rep.stopped = false) :
    (∃ os, (s.replay n).out = s.out ++ os ∧ FramesOn n ((s.port n).link.replay.map (Frame.again (s.port n).link.ack)) os) ∧
      ((s.replay n).port n).link.replays = satAdd 0xFFFF (s.port n).link.replays 1 := by
  have hreplay : ¬ ((s.port n).link.replay = [] ∨ (s.port n).rep.stopped = true) := by simp [hany, hruns]
  rw [State.replay, if_neg hreplay]
  dsimp only
  refine ⟨State.sendFrames_out n _ _ _, ?_⟩
  rw [(Steady.foldl (fun t f ht => State.sendFrame_steady t n _ ht) (.refl _)).link n (·.replays) (fun _ => rfl), State.port_span,
    State.port_modLink, if_pos rfl]

/-- While a repair holds the transmitter, a replay waits. -/
theorem State.replay_of_stopped {s : State} {n : Nat} (h : (s.port n).rep.stopped = true) : s.replay n = s := if_pos (Or.inr h)

/-- Settles O18: an acknowledgement changes the replay buffer and nothing is queued that could then leave; a replay sends the buffer. -/
theorem linkFramesArrive : Obligations.LinkFramesArrive := by
  unfold Obligations.LinkFramesArrive
  refine ⟨fun n a s hup hq => ?_, fun n ack s hup => ?_, fun n e s hup hhas hruns => ?_, fun n s hup hany hruns => ?_, fun n e s hstop => ?_⟩
  · refine Answers.next ?_
    rw [if_pos hup]
    refine ⟨s.lastValid_validFrame n _, ?_⟩
    rw [State.validFrame, State.replay_acked a (by rw [State.port_modLink, if_pos rfl, hq]), State.port_modLink, if_pos rfl]
  · refine Answers.next ?_
    rw [if_pos hup]
    exact s.lastValid_validFrame n ack
  · have hany : (s.port n).link.replay ≠ [] := fun h => by simp [h] at hhas
    have hport : ((s.validFrame n none).port n) = { s.port n with link := { (s.port n).link with lastValid := s.aoNs } } := by
      rw [State.validFrame, State.acked, State.port_modLink, if_pos rfl]
    refine Answers.next ?_
    rw [if_pos hup]
    dsimp only
    rw [if_pos (by rw [hport]; exact hhas)]
    have h := State.replay_sends (s := s.validFrame n none) (n := n) (by rw [hport]; exact hany) (by rw [hport]; exact hruns)
    rw [hport] at h
    exact h
  · refine Answers.next ?_
    rw [if_pos hup]
    exact State.replay_sends hany hruns
  · have hport : ((s.validFrame n none).port n).rep.stopped = true := by
      rw [State.validFrame, State.acked, State.port_modLink, if_pos rfl]
      exact hstop
    refine ⟨Answers.next ?_, Answers.next ?_⟩
    · dsimp only
      rw [State.replay_of_stopped hport, ite_self]
      split <;> rfl
    · rw [State.replay_of_stopped hstop, ite_self]

/-! ### Credits (R291) -/

/-- A received total moves its own channel, if it lies ahead. -/
theorem tget_creditStep (vc : Nat) (g : Tab Nat) (x : Nat × Nat) (ch : Nat) :
    tget (creditStep vc g x) 0 (vc * 8 + ch) =
      if x.1 = ch ∧ 0 < (x.2 % 65536 + 65536 - tget g 0 (vc * 8 + ch)) % 65536 ∧ (x.2 % 65536 + 65536 - tget g 0 (vc * 8 + ch)) % 65536 < 32768
      then x.2 % 65536 else tget g 0 (vc * 8 + ch) := by
  rw [creditStep]
  by_cases hch : x.1 = ch
  · subst hch
    simp only [true_and]
    split
    · rw [tget_tset, if_pos rfl]
    · rfl
  · simp only [hch, false_and, if_false]
    split
    · rw [tget_tset, if_neg (by omega)]
    · rfl

/-- Totals of other channels leave the total of a channel. -/
theorem tget_creditSteps_of_not_mem (vc : Nat) {xs : List (Nat × Nat)} {ch : Nat} (h : ch ∉ xs.map (·.1)) (g : Tab Nat) :
    tget (xs.foldl (creditStep vc) g) 0 (vc * 8 + ch) = tget g 0 (vc * 8 + ch) := by
  induction xs generalizing g with
  | nil => rfl
  | cons x xs ih =>
    rw [List.map_cons, List.mem_cons, not_or] at h
    rw [List.foldl_cons, ih h.2, tget_creditStep, if_neg (fun k => h.1 k.1.symm)]

/-- Of totals for different channels, each moves its own. -/
theorem tget_creditSteps (vc : Nat) {xs : List (Nat × Nat)} {ch y : Nat} (hnd : (xs.map (·.1)).Nodup) (h : (ch, y) ∈ xs) (g : Tab Nat) :
    tget (xs.foldl (creditStep vc) g) 0 (vc * 8 + ch) = tget (creditStep vc g (ch, y)) 0 (vc * 8 + ch) := by
  induction xs generalizing g with
  | nil => nomatch h
  | cons x xs ih =>
    rw [List.map_cons, List.nodup_cons] at hnd
    rw [List.foldl_cons]
    rcases List.mem_cons.mp h with hx | hxs
    · subst hx
      exact tget_creditSteps_of_not_mem vc hnd.1 _
    · have hne : x.1 ≠ ch := fun e => hnd.1 (e ▸ List.mem_map_of_mem (f := (·.1)) hxs)
      have hkept : tget (creditStep vc g x) 0 (vc * 8 + ch) = tget g 0 (vc * 8 + ch) := by
        rw [tget_creditStep, if_neg fun k => hne k.1]
      rw [ih hnd.2 hxs, tget_creditStep vc (creditStep vc g x), hkept, ← tget_creditStep]

/-- The totals of a CREDIT frame are numbered by their channels, at most eight. -/
theorem creditTotals_nodup (totals : List Nat) : ((((List.range totals.length).zip totals).take 8).map (·.1)).Nodup := by
  rw [List.map_take, List.map_fst_zip (Nat.le_of_eq List.length_range)]
  exact List.nodup_range.sublist (List.take_sublist _ _)

theorem mem_creditTotals {totals : List Nat} {ch : Nat} (hc : ch < totals.length) (h8 : ch < 8) :
    (ch, totals[ch]) ∈ ((List.range totals.length).zip totals).take 8 := by
  refine List.mem_iff_getElem.mpr ⟨ch, by simp; omega, ?_⟩
  simp

/-- Settles O19: each command ends with what its statement names, and sends nothing after the frame named. -/
theorem linkCreditsAndKeepalives : Obligations.LinkCreditsAndKeepalives := by
  unfold Obligations.LinkCreditsAndKeepalives
  refine ⟨fun n vc ch totals ack s hup hc h8 => ?_, fun n ack s hup => ?_, fun n s q hup hq hlate => ?_, fun n s hup => ?_⟩
  · refine Answers.next ?_
    have hgranted : ((s.validFrame n ack).port n).link.granted = (s.port n).link.granted := by
      rw [(s.validFrame_steady n ack).link n (·.granted) (fun _ => rfl), State.port_modLink, if_pos rfl]
    rw [if_pos hup]
    dsimp only
    rw [(State.pump_steady _ n (.refl _)).link n (·.granted) (fun _ => rfl), State.port_modLink, if_pos rfl, hgranted]
    dsimp only
    rw [tget_creditSteps vc (creditTotals_nodup totals) (mem_creditTotals hc h8), tget_creditStep]
    simp only [true_and]
  · refine Answers.next ?_
    rw [if_pos hup]
    dsimp only
    generalize s.validFrame n ack = u
    obtain ⟨hack0, hbody0⟩ := u.reports_sendCtl n 3 0 ((u.port n).link.creditBody 0)
    obtain ⟨o0, hout0, ho0⟩ := u.sendFrame_out n (.control 3 0 (u.port n).link.ack (padTo 24 ((u.port n).link.creditBody 0)))
    change (u.sendCtl n 3 0 ((u.port n).link.creditBody 0)).out = _ at hout0
    generalize u.sendCtl n 3 0 ((u.port n).link.creditBody 0) = v at hack0 hbody0 hout0 ⊢
    obtain ⟨hack1, hbody1⟩ := v.reports_sendCtl n 3 1 ((u.port n).link.creditBody 1)
    obtain ⟨o1, hout1, ho1⟩ := v.sendFrame_out n (.control 3 1 (v.port n).link.ack (padTo 24 ((u.port n).link.creditBody 1)))
    refine ⟨u.out, [o0, o1], ?_, ?_⟩
    · refine hout1.trans ?_
      rw [hout0, List.append_assoc, List.singleton_append]
    · rw [hack1, hbody1, hbody1, hack0, hbody0, hbody0, FramesOn]
      simp only [List.map_cons, List.map_nil, ho0, ho1, hack0]
  · have hfound : (s.port n).link.txq.filter
        (fun q => !decide (q.packet.units ≤ (s.port n).link.credit q.vc q.packet.channel)) ≠ [] :=
      List.ne_nil_of_mem (List.mem_filter.mpr ⟨hq, by simpa using hlate⟩)
    refine Answers.next ?_
    rw [if_pos ⟨hup, hfound⟩]
    dsimp only
    refine ⟨?_, SendsCtl.sendCtl n 4 0 _ (List.prefix_refl _)⟩
    rw [(State.sendCtl_steady _ n _ _ _ (.refl _)).link n (·.creditLate) (fun _ => rfl), State.port_span,
      State.port_modLink, if_pos rfl]
  · refine Answers.next ?_
    rw [if_pos hup]
    dsimp only
    refine ⟨?_, SendsCtl.sendCtl n 5 0 _ (List.prefix_refl _)⟩
    rw [(State.sendCtl_steady _ n _ _ _ (.refl _)).link n (·.kaCount) (fun _ => rfl), State.port_modLink, if_pos rfl]

end Sys2Proof.Machine
end

