-- ==== Sys2Proof/Proofs/Logging.lean ====
section
/-!
PROOFS. Entries of the Day Book (16_errors_and_day_book.md): an event below CONTAINED writes one entry, which is then the last.
-/
set_option autoImplicit false
namespace Sys2Proof.Machine

/-- An entry takes the next number (R502). -/
theorem State.nextSeq_logEntry (s : State) (c : EventClass) (source : Nat) (data : List Byte) (sev : Severity) (nested injected : Bool) :
    (s.logEntry c source data sev nested injected).err.nextSeq = (s.err.nextSeq + 1) % 65536 := by
  rw [State.logEntry, State.pldmEvent_err, State.eventRing_err, State.modErr_err]

/-- What comes before the entry writes none. -/
theorem Logged.before {s t u : State} {c : EventClass} {src : Nat} (h : Logged t u c src) (hs : t.err.nextSeq = s.err.nextSeq) :
    Logged s u c src := by
  obtain ⟨e, hlast, hcls, hsrc, hseq, hnext⟩ := h
  exact ⟨e, hlast, hcls, hsrc, by rw [hseq, hs], by rw [hnext, hs]⟩

/-- What comes after the entry leaves the Day Book. -/
theorem Logged.after {s t u : State} {c : EventClass} {src : Nat} (h : Logged s t c src) (ht : u.err = t.err) : Logged s u c src := by
  obtain ⟨e, hlast, hcls, hsrc, hseq, hnext⟩ := h
  exact ⟨e, by rw [ht, hlast], hcls, hsrc, hseq, by rw [ht, hnext]⟩

/-- An event below CONTAINED is written as one entry. -/
theorem Logged.logAs (s : State) (c : EventClass) (source : Nat) (data : List Byte) {sev : Severity} (nested injected : Bool)
    (h : sev.code < 3) : Logged s (s.logAs c source data sev nested injected) c source := by
  rw [State.logAs_of_code_lt_three s c source data nested injected h]
  exact ⟨_, s.logEntry_getLast? c source data sev nested injected, rfl, rfl, rfl, s.nextSeq_logEntry ..⟩

theorem Logged.log (s : State) (c : EventClass) (source : Nat) (data : List (Nat × Nat)) (h : (severityOf c source).code < 3) :
    Logged s (s.log c source data) c source := Logged.logAs s c source _ false false h

/-- An event that no entry of its key precedes is written (R407). -/
theorem Logged.logLimited {s : State} {c : EventClass} {key : Nat} (period source : Nat) (data : List (Nat × Nat))
    (hfirst : tget s.err.lastLogged 0 (c.code * 65536 + key) = 0) (h : (severityOf c source).code < 3) :
    Logged s (s.logLimited c key period source data) c source := by
  rw [State.logLimited, hfirst, if_pos (Or.inl rfl)]
  exact (Logged.log _ c source data h).before rfl

/-- A detection without a window is written as one entry, whether an injection marks it or not (R499, R507). -/
theorem Logged.detect (s : State) {c : EventClass} (source : Nat) (data : List (Nat × Nat)) (hwindow : windowed c = false)
    (h : (severityOf c source).code < 3) : Logged s (s.detect c source data) c source := by
  have hseq : (s.injection c source).2.err.nextSeq = s.err.nextSeq := by
    rw [State.injection]
    split <;> rfl
  rw [State.detect, State.detectWith]
  dsimp only
  rw [hwindow]
  exact (Logged.logAs _ c source _ _ _ h).before hseq

end Sys2Proof.Machine
end

