-- ==== Sys2Proof/Proofs/LinkStates.lean ====
section
/-!
PROOFS. States of a Gnoem link (09_gnoem_link.md): what brings a link up, down, into training and into KEEPALIVE, and the PACKET
frames that it takes.
-/
set_option autoImplicit false
namespace Sys2Proof.Machine

/-! ### A link that leaves its state (R287, R293, R294) -/

theorem State.closeWindow_steady {s₀ : State} (s : State) (c : EventClass) (source : Nat) (hk : Steady s₀ s) :
    Steady s₀ (s.closeWindow c source) := .only (State.closeWindow_only (hm := by decide) (hk := .refl _ _) ..) hk

theorem State.forgetHeld_steady {s₀ : State} (s : State) (n : Nat) (hk : Steady s₀ s) : Steady s₀ (s.forgetHeld n) := by
  rw [State.forgetHeld]
  refine State.modRtr_steady _ _ (Steady.foldl (fun t p ht => ?_) hk)
  exact Steady.ite (State.modLink_steady t p _ (fun _ => rfl) ht) ht

/-- The partner of a port is gone: no link changes its state. -/
theorem State.linkSt_partnerGone (s : State) (n m : Nat) : ((s.partnerGone n).port m).link.st = (s.port m).link.st := by
  have hleft := (State.leftActive_steady s n (.refl s)).link m (·.st) (fun _ => rfl)
  rw [State.partnerGone]
  split
  · rw [(State.log_steady _ _ _ _ (.refl _)).link m (·.st) (fun _ => rfl), State.port_modDisc]
    split
    next h => subst h; exact hleft
    next => exact hleft
  · exact hleft

/-- The link state starts again: LSTATE is no part of it. -/
theorem State.linkSt_linkFresh (s : State) (n m : Nat) : ((s.linkFresh n).port m).link.st = (s.port m).link.st := by
  have hdrop := (State.dropQueue_steady s n false (.refl s)).link m (·.st) (fun _ => rfl)
  rw [State.linkFresh, (State.forgetHeld_steady _ n (.refl _)).link m (·.st) (fun _ => rfl), State.port_modLink]
  split
  next h => subst h; exact hdrop
  next => exact hdrop

theorem State.linkSt_linkFalls (s : State) (n : Nat) (st : LState) (m : Nat) :
    ((s.linkFalls n st).port m).link.st = if m = n then st else (s.port m).link.st := by
  simp only [State.linkFalls, State.port_modDisc, State.port_modRep, State.port_modLink]
  by_cases h : m = n <;> simp only [h, if_true, if_false]

/-- A link that leaves its state takes the other, and no other link changes its state. -/
theorem State.linkSt_linkLeaves (s : State) (n : Nat) (st : LState) (m : Nat) :
    ((s.linkLeaves n st).port m).link.st = if m = n then st else (s.port m).link.st := by
  rw [State.linkLeaves, ← State.linkSt_linkFalls]
  split <;> split <;> simp only [State.linkSt_linkFresh, State.linkSt_partnerGone]

/-- Training begins. -/
theorem State.linkSt_train (s : State) (n : Nat) : ((s.train n).port n).link.st = .training := by
  rw [State.train, State.port_modLink, if_pos rfl]
  exact (State.linkSt_linkLeaves _ n .training n).trans (if_pos rfl)

/-- A change of a discovery state changes no more of the ports than that state. -/
theorem State.setDisc_steady (s : State) (n : Nat) (d : DState) (cause : Nat) :
    Steady (s.modDisc n (fun x => x.enter d cause s.aoNs)) (s.setDisc n d cause) := by
  rw [State.setDisc]
  have hleft : Steady (s.modDisc n (fun x => x.enter d cause s.aoNs))
      (if (s.port n).disc.st = .active ∧ d ≠ .active then (s.modDisc n (fun x => x.enter d cause s.aoNs)).leftActive n
        else s.modDisc n (fun x => x.enter d cause s.aoNs)) :=
    Steady.ite (State.leftActive_steady _ n (.refl _)) (.refl _)
  exact Steady.ite hleft (State.sendIdentity_steady _ n hleft)

theorem State.disc_setDisc (s : State) (n : Nat) (d : DState) (cause : Nat) :
    ((s.setDisc n d cause).port n).disc.st = d ∧ ((s.setDisc n d cause).port n).disc.cause = cause := by
  have h := s.setDisc_steady n d cause
  rw [h.disc n (·.st) (fun _ => rfl), h.disc n (·.cause) (fun _ => rfl), State.port_modDisc, if_pos rfl]
  exact ⟨rfl, rfl⟩

/-- A change of a discovery state leaves the link of every port, but for what moves as it sends. -/
theorem State.link_setDisc (s : State) (n : Nat) (d : DState) (cause m : Nat) {α : Type} (f : Link → α) (hf : ∀ k, f k.steady = f k) :
    f ((s.setDisc n d cause).port m).link = f (s.port m).link := by
  rw [(s.setDisc_steady n d cause).link m f hf, State.port_modDisc]
  split
  next h => rw [h]
  next => rfl

/-! ### KEEPALIVE (R295) -/

/-- The port enters KEEPALIVE when both partners have asked. -/
theorem State.linkSt_enterKeepalive {s : State} {n : Nat} (h : (s.port n).link.st = .up) :
    ((s.enterKeepalive n).port n).link.st = if (s.port n).link.kaSent && (s.port n).link.kaGot then .keepalive else .up := by
  rw [State.enterKeepalive]
  cases hs : (s.port n).link.kaSent <;> cases hg : (s.port n).link.kaGot <;> simp [h, State.port_modLink]

theorem State.out_enterKeepalive (s : State) (n : Nat) : (s.enterKeepalive n).out = s.out := by
  rw [State.enterKeepalive]
  split <;> rfl

/-- The port asks: it enters KEEPALIVE if the partner has asked. -/
theorem State.linkSt_askKeepalive {s : State} {n : Nat} (h : (s.port n).link.st = .up) :
    ((s.askKeepalive n).port n).link.st = if (s.port n).link.kaGot then .keepalive else .up := by
  have hsent := State.sendCtl_steady s n 12 0 (leBytes 1 1) (.refl s)
  have hup := hsent.link n (·.st) (fun _ => rfl)
  have hgot := hsent.link n (·.kaGot) (fun _ => rfl)
  rw [State.askKeepalive, if_pos h, State.linkSt_enterKeepalive]
  · rw [State.port_modLink, if_pos rfl, hgot, Bool.true_and]
  · rw [State.port_modLink, if_pos rfl, hup, h]

theorem State.askKeepalive_sends {s : State} {n : Nat} (h : (s.port n).link.st = .up) : SendsCtl n 12 s (s.askKeepalive n) := by
  rw [State.askKeepalive, if_pos h]
  refine (SendsCtl.sendCtl n 12 0 (leBytes 1 1) (List.prefix_refl s.out)).congr ?_
  rw [State.out_enterKeepalive, State.modLink_out]

/-- A port that holds FORCE_KEEPALIVE asks; it stays in LINK_UP until the partner has asked. -/
theorem State.linkSt_heldKeepalive {s : State} {n : Nat} (h : (s.port n).link.st = .up) (hgot : (s.port n).link.kaGot = false) :
    ((s.heldKeepalive n).port n).link.st = .up := by
  rw [State.heldKeepalive]
  split
  · rw [State.linkSt_askKeepalive h, hgot, if_neg (by decide)]
  · exact h

/-- Asking changes of a link no more than its state and the two requests, and nothing of discovery. -/
theorem State.port_askKeepalive (s : State) (n : Nat) {α : Type} (f : Link → α) (hf : ∀ k, f k.steady = f k)
    (hk : ∀ (k : Link) (st : LState) (a b : Bool), f { k with st := st, kaSent := a, kaGot := b } = f k) :
    f ((s.askKeepalive n).port n).link = f (s.port n).link ∧ ((s.askKeepalive n).port n).disc.st = (s.port n).disc.st := by
  have hsent := State.sendCtl_steady s n 12 0 (leBytes 1 1) (.refl s)
  rw [← hsent.link n f hf, ← hsent.disc n (·.st) (fun _ => rfl), State.askKeepalive]
  split
  · rw [State.enterKeepalive]
    split <;> simp only [State.port_modLink, if_true]
    · exact ⟨hk _ .keepalive false false, trivial⟩
    · exact ⟨hk _ _ true _, trivial⟩
  · exact ⟨(hsent.link n f hf).symm, (hsent.disc n (·.st) (fun _ => rfl)).symm⟩

theorem State.port_heldKeepalive (s : State) (n : Nat) {α : Type} (f : Link → α) (hf : ∀ k, f k.steady = f k)
    (hk : ∀ (k : Link) (st : LState) (a b : Bool), f { k with st := st, kaSent := a, kaGot := b } = f k) :
    f ((s.heldKeepalive n).port n).link = f (s.port n).link ∧ ((s.heldKeepalive n).port n).disc.st = (s.port n).disc.st := by
  rw [State.heldKeepalive]
  split
  · exact s.port_askKeepalive n f hf hk
  · exact ⟨rfl, rfl⟩

/-! ### Link states (R293, R294) -/

/-- Lanes that are set up are a matter of the port's repair state. -/
theorem State.port_modLanes {α : Type} (n : Nat) (l : α → Nat) (f : α → Lane → Lane) (xs : List α) (s : State) :
    ∃ r, (xs.foldl (fun (s : State) x => s.modLane n (l x) (f x)) s).port n = { s.port n with rep := r } := by
  induction xs generalizing s with
  | nil => exact ⟨_, rfl⟩
  | cons x xs ih =>
    obtain ⟨r, hr⟩ := ih (s.modLane n (l x) (f x))
    rw [State.modLane, State.port_modRep, if_pos rfl] at hr
    exact ⟨r, hr⟩

/-- Settles O20: the state that a link takes is the argument of the operation that each event ends in. -/
theorem linkStates : Obligations.LinkStates := by
  unfold Obligations.LinkStates
  refine ⟨fun n s h8 hdown hen hok => ?_, fun n s hup => ?_, fun n s htr => ?_, fun n mode half calTx calRx floors s htr hmin hmax => ?_,
    fun n s hup hrun => ?_⟩
  · have hstart : n < 8 ∧ (s.port n).link.st = .down ∧ (s.port n).link.enable = true ∧ s.linksAllowed = true := ⟨h8, hdown, hen, hok⟩
    refine ⟨Answers.next ?_, Answers.next ?_⟩
    · rw [if_pos hstart]; exact s.linkSt_train n
    · rw [if_pos hstart]; exact s.linkSt_train n
  · refine Answers.next ?_
    rw [State.retrain, if_pos hup]
    exact State.linkSt_train _ n
  · refine Answers.next ?_
    rw [if_pos htr]
    dsimp only
    refine ⟨?_, ?_⟩
    · rw [(State.log_steady _ _ _ _ (.refl _)).link n (·.st) (fun _ => rfl), State.port_modLink, if_pos rfl]
    · refine (Logged.log _ .linkTrainFail (srcPort n) _ (by simp [severityOf, Severity.code])).before ?_
      exact congrArg Errors.nextSeq ((State.reach_only (hm := Nat.and_self _) (hk := .refl _ s) ..).err rfl)
  · refine Answers.next ?_
    rw [if_pos ⟨htr, hmin, hmax⟩]
    extract_lets t₁ t₂ lanes t₃ t₄
    obtain ⟨r, hr⟩ := State.port_modLanes n (·.1) (fun x _ => { floor := x.2 }) lanes t₂
    have hlink : (t₄.port n).link = (t₁.port n).link := by
      rw [State.port_modUnit, hr, State.port_modRep, if_pos rfl]
    have hfresh : (t₁.port n).link.st = .up ∧ (t₁.port n).link.mode = mode ∧ (t₁.port n).link.kaGot = false := by
      rw [State.port_modLink, if_pos rfl]
      exact ⟨rfl, rfl, rfl⟩
    obtain ⟨hst, hmode, hgot⟩ := hfresh
    have hdisc {α : Type} (f : Link → α) (hf : ∀ k, f k.steady = f k) : f ((t₄.setDisc n .identifying 0).port n).link = f (t₁.port n).link := by
      rw [t₄.link_setDisc n .identifying 0 n f hf, hlink]
    have hup : ((t₄.setDisc n .identifying 0).port n).link.st = .up := (hdisc (·.st) fun _ => rfl).trans hst
    obtain ⟨hkeepsMode, hkeepsDisc⟩ := State.port_heldKeepalive (t₄.setDisc n .identifying 0) n (·.mode) (fun _ => rfl) (fun _ _ _ _ => rfl)
    exact ⟨State.linkSt_heldKeepalive hup ((hdisc (·.kaGot) fun _ => rfl).trans hgot),
      hkeepsMode.trans ((hdisc (·.mode) fun _ => rfl).trans hmode), hkeepsDisc.trans (t₄.disc_setDisc n .identifying 0).1⟩
  · refine Answers.next ?_
    rw [if_pos ⟨hup, by simp [hrun]⟩]
    extract_lets k t₁ t₂ t₃
    have hports : t₂.ports = s.ports := by
      refine ((State.detect_only (hm := Nat.and_self _) (hk := .refl _ t₁) ..).ports rfl).trans ?_
      exact (State.reach_only (hm := Nat.and_self _) (hk := .refl _ s) ..).ports rfl
    have hlast (m : Nat) : ((t₃.closeWindow .linkPartnerLost (srcPort n)).port m).link.st = if m = n then .down else (s.port m).link.st := by
      rw [(State.closeWindow_steady _ _ _ (.refl _)).link m (·.st) (fun _ => rfl), State.linkSt_linkLeaves, State.port_modUnit,
        State.port, State.port, hports]
    exact ⟨(hlast n).trans (if_pos rfl), fun m hm => (hlast m).trans (if_neg hm)⟩

/-- Settles O21: entering takes the requests of both sides, and leaving clears them. -/
theorem keepaliveStates : Obligations.KeepaliveStates := by
  unfold Obligations.KeepaliveStates
  refine ⟨fun n v s => ?_, fun n s hup hidle => ?_, fun n request ack s hup hreq => ?_, fun n s hka => ?_⟩
  · refine Answers.next ?_
    have hset : ((s.modLink n (fun k => { k with forceKa := v })).port n).link.forceKa = v := by rw [State.port_modLink, if_pos rfl]
    split
    · exact (State.port_askKeepalive _ n (·.forceKa) (fun _ => rfl) (fun _ _ _ _ => rfl)).1.trans hset
    · exact hset
  · refine Answers.next ?_
    rw [if_pos ⟨hup, by simp [hidle]⟩]
    have hreach := State.reach_only (hm := Nat.and_self _) (hk := .refl _ s) s ((s.port n).link.lastTraffic + 10000000)
    have hport : (s.reach ((s.port n).link.lastTraffic + 10000000)).port n = s.port n := by rw [State.port, hreach.ports rfl]; rfl
    have hst := hport ▸ hup
    refine ⟨(State.askKeepalive_sends hst).after (hreach.out rfl ▸ List.prefix_refl _), ?_⟩
    rw [State.linkSt_askKeepalive hst, hport]
  · have hvalid := s.validFrame_steady n ack
    have hst : ((s.validFrame n ack).port n).link.st = .up := by
      rw [hvalid.link n (·.st) (fun _ => rfl), State.port_modLink, if_pos rfl, hup]
    have hsent : ((s.validFrame n ack).port n).link.kaSent = (s.port n).link.kaSent := by
      rw [hvalid.link n (·.kaSent) (fun _ => rfl), State.port_modLink, if_pos rfl]
    refine Answers.next ?_
    rw [if_pos (by rw [State.linkUp, hup]; rfl)]
    extract_lets u asked entered
    have hasked : Steady asked (if bit request 2 = true then asked else asked.sendCtl n 12 0 (leBytes 1 4)) :=
      Steady.ite (.refl _) (State.sendCtl_steady _ n _ _ _ (.refl _))
    have hlink : (asked.port n).link = { (u.port n).link with kaGot := true } := by rw [State.port_modLink, if_pos rfl]
    have hentered : (entered.port n).link.st = if (s.port n).link.kaSent then .keepalive else .up := by
      rw [show entered = _ from if_pos ⟨hreq, hst⟩, State.linkSt_enterKeepalive]
      · rw [hasked.link n (·.kaSent) (fun _ => rfl), hasked.link n (·.kaGot) (fun _ => rfl), hlink, hsent, Bool.and_true]
      · rw [hasked.link n (·.st) (fun _ => rfl), hlink, hst]
    rw [← hentered]
    split
    · exact (State.sendCtl_steady _ n 12 0 _ (.refl _)).link n (·.st) (fun _ => rfl)
    · rfl
  · refine Answers.next ?_
    rw [if_pos hka]
    have hpump := State.pump_steady (s.modLink n (fun k => { k with st := .up, kaSent := false, kaGot := false, lastTraffic := s.aoNs })) n (.refl _)
    apply State.linkSt_heldKeepalive
    · rw [hpump.link n (·.st) (fun _ => rfl), State.port_modLink, if_pos rfl]
    · rw [hpump.link n (·.kaGot) (fun _ => rfl), State.port_modLink, if_pos rfl]

/-! ### PACKET frames (R284, R285, R289, R290) -/

/-- A NAK is out after a frame out of sequence; it is sent once. -/
theorem State.sendNak_leaves (s : State) (n cause : Nat) :
    ((s.sendNak n cause).port n).link.rxSeq = (s.port n).link.rxSeq ∧ ((s.sendNak n cause).port n).link.naked = true ∧
      ((s.port n).link.naked = false → SendsCtl n 2 s (s.sendNak n cause)) := by
  rw [State.sendNak]
  cases hn : (s.port n).link.naked
  case true => exact ⟨rfl, hn, nofun⟩
  case false =>
    have hsent := State.sendCtl_steady (s.modLink n (fun k => { k with naked := true })) n 2 0
      (leBytes 2 (s.port n).link.rxSeq ++ leBytes 1 cause) (.refl _)
    refine ⟨?_, ?_, fun _ => SendsCtl.sendCtl n 2 0 _ (List.prefix_refl _)⟩
    · exact (hsent.link n (·.rxSeq) (fun _ => rfl)).trans (by rw [State.port_modLink, if_pos rfl])
    · exact (hsent.link n (·.naked) (fun _ => rfl)).trans (by rw [State.port_modLink, if_pos rfl])

/-- A frame that is accepted moves the expected number on and ends the NAK state. -/
theorem State.acceptFrame_leaves (s : State) (n vc : Nat) (p : Packet) (failing : Bool) (mem : BufferEcc) :
    ((s.acceptFrame n vc p failing mem).port n).link.rxSeq = ((s.port n).link.rxSeq + 1) % 65536 ∧
      ((s.acceptFrame n vc p failing mem).port n).link.rxAny = true ∧ ((s.acceptFrame n vc p failing mem).port n).link.naked = false := by
  rw [State.acceptFrame]
  have hrest (t : State) : Steady t ((t.sendCtl n 1 0 []).routerTakes n vc p failing mem) :=
    State.routerTakes_steady _ n vc p failing mem (State.sendCtl_steady t n 1 0 [] (.refl t))
  rw [(hrest _).link n (·.rxSeq) (fun _ => rfl), (hrest _).link n (·.rxAny) (fun _ => rfl), (hrest _).link n (·.naked) (fun _ => rfl),
    State.port_modLink, if_pos rfl]
  exact ⟨rfl, rfl, rfl⟩

/-- Settles O22: the command does what the frame that its blocks are read as does. -/
theorem packetFrames : Obligations.PacketFrames := by
  unfold Obligations.PacketFrames
  have hexec (n : Nat) (blocks : List Block) (fecOk : Bool) (mem : BufferEcc) (s : State) :
      exec (.packetFrame n blocks fecOk mem) s = execPacketFrame n blocks fecOk mem s := rfl
  have hvalid (s : State) (n : Nat) (ack : Option Nat) :
      ((s.validFrame n ack).port n).link.rxSeq = (s.port n).link.rxSeq ∧ ((s.validFrame n ack).port n).link.naked = (s.port n).link.naked := by
    have h := s.validFrame_steady n ack
    rw [h.link n (·.rxSeq) (fun _ => rfl), h.link n (·.naked) (fun _ => rfl), State.port_modLink, if_pos rfl]
    exact ⟨rfl, rfl⟩
  refine ⟨fun n vc seq ack p blocks mem s hread hup hseq => ?_, fun n vc seq ack p blocks fecOk crcOk mem s hread hup hseq => ?_,
    fun n blocks fecOk mem s hread hup => ?_, fun n blocks fecOk mem s hread hup => ?_, fun n vc ack b crcOk blocks mem s => ⟨fun hread => ?_, fun hread => ?_⟩,
    fun n vc seq ack p blocks fecOk crcOk mem s hread hup => ?_⟩ <;> rw [hexec, execPacketFrame, hread]
  · obtain ⟨hrx, -⟩ := hvalid s n ack
    refine Answers.next ?_
    rw [State.packetFrame, if_neg (by simp [hup]), if_neg (by rw [hrx]; exact fun h => h hseq), if_pos ⟨rfl, rfl⟩, hseq, ← hrx]
    exact State.acceptFrame_leaves ..
  · obtain ⟨hrx, hnaked⟩ := hvalid s n ack
    refine Answers.next ?_
    rw [State.packetFrame, if_neg (by simp [hup]), if_pos (by rw [hrx]; exact hseq), ← hrx, ← hnaked]
    obtain ⟨hsame, hout, hsends⟩ := (s.validFrame n ack).sendNak_leaves n 1
    exact ⟨hsame, hout, fun h => (hsends h).after (s.out_validFrame n ack)⟩
  · refine Answers.next ?_
    rw [State.badFrame, if_neg (by simp [hup]), if_pos rfl]
    exact s.sendNak_leaves n 1
  · refine Answers.next ?_
    rw [State.badFrame, if_neg (by simp [hup]), if_neg (by decide), State.port_span, State.port_modLink, if_pos rfl]
    exact ⟨rfl, rfl⟩
  · rfl
  · rfl
  · exact congrArg Host.Outcome.next (if_pos (by simp [hup]))

end Sys2Proof.Machine
end

