-- ==== Sys2Proof/Proofs/LinkRepair.lean ====
section
/-!
PROOFS. Lane repair, equalisation and the time exchange of a Gnoem link (09_gnoem_link.md).
-/
set_option autoImplicit false
namespace Sys2Proof.Machine

/-! ### Tables and passing time -/

/-- A table whose entries are all changed alike, if the default stays. -/
theorem tget_map {α : Type} {d : α} {f : α → α} (hd : f d = d) (t : Tab α) (k : Nat) :
    tget (t.map (fun x => (x.1, f x.2))) d k = f (tget t d k) := by
  induction t with
  | nil => exact hd.symm
  | cons x t ih =>
    rw [List.map_cons, tget, tget]
    split
    · rfl
    · exact ih

/-- AO time reaches an instant, and the ports stay. -/
theorem State.port_reach (s : State) (t n : Nat) : (s.reach t).port n = s.port n := by
  rw [State.port, (State.reach_only (hm := Nat.and_self _) (hk := .refl _ s) ..).ports rfl]; rfl

theorem State.out_reach (s : State) (t : Nat) : (s.reach t).out = s.out :=
  (State.reach_only (hm := Nat.and_self _) (hk := .refl _ s) ..).out rfl

/-- AO time is past the instant that it reaches. -/
theorem State.le_aoNs_reach (s : State) (t : Nat) : t ≤ (s.reach t).aoNs := Nat.le_max_right _ _

theorem State.detect_steady {s₀ : State} (s : State) (c : EventClass) (source : Nat) (data : List (Nat × Nat)) (hk : Steady s₀ s) :
    Steady s₀ (s.detect c source data) := .only (State.detect_only (hm := by decide) (hk := .refl _ _) ..) hk

/-! ### Lanes and what a sample records (R302) -/

theorem State.lane_modLane (s : State) (n l : Nat) (f : Lane → Lane) (k : Nat) :
    (s.modLane n l f).lane n k = if k = l then f (s.lane n l) else s.lane n k := by
  rw [State.lane, State.modLane, State.port_modRep, if_pos rfl]
  exact tget_tmod _ _ _ _ _

/-- What the last sample of a lane recorded. -/
def Lane.sampled (x : Lane) : Nat × Nat × W32 × Nat × Nat := (x.veye, x.heye, x.ser, x.corr, x.unc)

/-- The samples of a port's lanes are the same in t as in s. -/
def SameSamples (n : Nat) (s t : State) : Prop := ∀ l, (t.lane n l).sampled = (s.lane n l).sampled

namespace SameSamples

variable {n : Nat} {s t u : State}

theorem refl (s : State) : SameSamples n s s := fun _ => rfl
theorem trans (h : SameSamples n s t) (k : SameSamples n t u) : SameSamples n s u := fun l => (k l).trans (h l)
theorem of_lanes (h : (t.port n).rep.lanes = (s.port n).rep.lanes) : SameSamples n s t := fun l => by rw [State.lane, h]; rfl
theorem of_ports (h : t.ports = s.ports) : SameSamples n s t := of_lanes (by rw [State.port, State.port, h])
theorem of_steady (h : Steady s t) : SameSamples n s t := of_lanes (by rw [h.rep])

theorem ite {c : Prop} [Decidable c] (h : SameSamples n s t) (k : SameSamples n s u) : SameSamples n s (if c then t else u) := by
  split
  · exact h
  · exact k

/-- A lane is changed in other fields. -/
theorem modLane (s : State) (l : Nat) (f : Lane → Lane) (hf : ∀ x, (f x).sampled = x.sampled) : SameSamples n s (s.modLane n l f) := by
  intro k
  rw [State.lane_modLane]
  split
  next h => rw [hf, h]
  next => rfl

end SameSamples

/-- A link that leaves its state keeps the samples. -/
theorem State.sampled_linkLeaves (s : State) (n : Nat) (st : LState) : SameSamples n s (s.linkLeaves n st) := by
  have hfalls : SameSamples n s (s.linkFalls n st) := by
    intro l
    simp only [State.lane, State.linkFalls, State.port_modDisc, State.port_modRep, State.port_modLink, if_true]
    rw [tget_map (f := fun x : Lane => { x with failed := false }) rfl]
    rfl
  have hgone (t : State) : SameSamples n t (t.partnerGone n) := by
    rw [State.partnerGone]
    refine (SameSamples.of_steady (State.leftActive_steady t n (.refl t))).trans ?_
    split
    · exact SameSamples.of_lanes (by rw [(State.log_steady _ _ _ _ (.refl _)).rep, State.port_modDisc, if_pos rfl])
    · exact .refl _
  have hfresh (t : State) : SameSamples n t (t.linkFresh n) := by
    rw [State.linkFresh]
    refine (SameSamples.of_steady (State.dropQueue_steady t n false (.refl t))).trans (SameSamples.of_lanes ?_)
    rw [(State.forgetHeld_steady _ n (.refl _)).rep, State.port_modLink, if_pos rfl]
  unfold State.linkLeaves
  extract_lets t u
  have hleft : SameSamples n t u := .ite (hgone t) (.refl t)
  exact hfalls.trans (hleft.trans (.ite (hfresh u) (.refl u)))

theorem State.sampled_train (s : State) (n : Nat) : SameSamples n s (s.train n) := by
  unfold State.train
  extract_lets t
  have hfirst : SameSamples n s t := .of_lanes rfl
  exact (hfirst.trans (t.sampled_linkLeaves n .training)).trans (.of_lanes (by rw [State.port_modLink, if_pos rfl]))

theorem State.sampled_retrain (s : State) (n : Nat) : SameSamples n s (s.retrain n) := by
  have hcounted : SameSamples n s (s.total 12 1) := .of_lanes rfl
  exact .ite (hcounted.trans ((s.total 12 1).sampled_train n)) (.refl s)

/-- A codeword is chosen: the ports stay. -/
theorem State.port_switchCw (s : State) (n ns m : Nat) : (s.switchCw n ns).2.port m = s.port m := rfl

theorem State.sampled_degradeWidth (s : State) (n l : Nat) : SameSamples n s (s.degradeWidth n l) := by
  rw [State.degradeWidth]
  dsimp only
  refine (SameSamples.of_steady (State.detect_steady s .linkWidthDegraded (srcPort n) [(1, n), (1, l)] (.refl s))).trans ?_
  split
  · refine SameSamples.of_lanes ?_
    rw [(State.sendCtl_steady _ n _ _ _ (.refl _)).rep, State.port_modRep, if_pos rfl]
    rfl
  · exact (SameSamples.of_steady (State.closeWindow_steady _ _ _ (.refl _))).trans (State.sampled_retrain _ n)

/-- The failure of a lane keeps the samples, whatever repairs it. -/
theorem State.sampled_laneFail (s : State) (n l cause : Nat) : SameSamples n s (s.laneFail n l cause) := by
  have hmark : SameSamples n s (s.modLane n l (fun x => { x with failed := true })) := .modLane s l _ fun _ => rfl
  have hrep (t : State) (f : Repair → Repair) (hf : ∀ r, (f r).lanes = r.lanes) : SameSamples n t (t.modRep n f) :=
    .of_lanes (by rw [State.port_modRep, if_pos rfl, hf])
  rw [State.laneFail]
  split
  case isTrue => exact .refl _
  case isFalse =>
    refine hmark.trans ?_
    split
    case isTrue => exact .refl _
    case isFalse =>
      split
      case isTrue =>
        refine (SameSamples.of_steady (State.detect_steady _ .linkLaneSpared (srcPort n) [(1, n), (1, l)] (.refl _))).trans ?_
        refine SameSamples.trans (hrep _ (fun r => { r with sparing := some l }) fun _ => rfl) ?_
        exact .of_steady (State.sendCtl_steady _ n 8 0 _ (.refl _))
      case isFalse =>
        split
        case isTrue =>
          refine SameSamples.trans (hrep _ (fun r => { r with sparing := none, rxSwitch := none, suspended := false }) fun _ => rfl) ?_
          exact (SameSamples.of_steady (State.closeWindow_steady _ _ _ (.refl _))).trans (State.sampled_degradeWidth _ n l)
        case isFalse => exact State.sampled_degradeWidth _ n l

/-- What a lane's sample reports is what the lane holds afterwards. -/
theorem State.sampled_laneSample (s : State) (n l v h : Nat) (ser : W32) (corr unc : Nat) :
    ((s.laneSample n l v h ser corr unc).lane n l).sampled = (v, h, ser, corr, unc) := by
  unfold State.laneSample
  extract_lets t₁ t₂ t₃ x t₄
  have htaken : (t₁.lane n l).sampled = (v, h, ser, corr, unc) := by
    rw [State.lane_modLane, if_pos rfl]
    rfl
  have hlogged : SameSamples n t₁ t₄ := by
    have hcounted : SameSamples n t₁ t₃ := .of_ports rfl
    have hmark := (SameSamples.modLane t₃ l (n := n) (fun x => { x with marginLogged := true }) fun _ => rfl).trans
      (.of_steady (State.log_steady _ .linkMarginLow (srcPort n) [(1, n), (1, l)] (.refl _)))
    exact hcounted.trans (.ite hmark (.refl t₃))
  rw [← htaken]
  exact (hlogged.trans (.ite (.refl t₄) (.ite (t₄.sampled_laneFail n l 2) (.ite (t₄.sampled_laneFail n l 3) (.refl t₄))))) l

/-- Settles O23: the sample outlives what the failure of its lane sets going, and each frame is the last thing sent. -/
theorem laneRepair : Obligations.LaneRepair := by
  unfold Obligations.LaneRepair
  refine ⟨fun n l v h corr unc ser s hl hup => ?_, fun n l cause s hup hgood hcarries hen hfree hidle => ?_, fun n l cause s hup hneeds => ?_,
    fun n l ack s hup => ?_, fun n l cw ack s hup hsparing => ?_⟩
  · refine Answers.next ?_
    rw [List.foldl_cons, List.foldl_nil, if_pos ⟨hl, hup⟩]
    have hsampled := s.sampled_laneSample n l v h ser corr unc
    simp only [Lane.sampled, Prod.mk.injEq] at hsampled
    exact hsampled
  · refine Answers.next ?_
    have hneeds : (s.port n).needs l = true := by rw [Port.needs, hcarries, Bool.true_or]
    rw [State.laneFail, if_neg (by simp [hup, hgood]), if_neg (by simp [hneeds]), if_pos ⟨hen, by simp [hfree], hidle⟩]
    have hdetect (t : State) : (t.detect .linkLaneSpared (srcPort n) [(1, n), (1, l)]).port n = t.port n := by
      rw [State.port, (State.detect_only (hm := Nat.and_self _) (hk := .refl _ t) ..).ports rfl]; rfl
    generalize ht₁ : s.modLane n l (fun x => { x with failed := true }) = t₁
    have hrep := (State.sendCtl_steady ((t₁.detect .linkLaneSpared (srcPort n) [(1, n), (1, l)]).modRep n (fun r => { r with sparing := some l })) n 8 0 (leBytes 1 l ++ leBytes 1 cause) (.refl _)).rep n
    rw [State.lane, hrep, State.port_modRep, if_pos rfl, hdetect]
    have hfailed := s.lane_modLane n l (fun x => { x with failed := true }) l
    rw [if_pos rfl, ht₁] at hfailed
    refine ⟨rfl, ?_, SendsCtl.sendCtl n 8 0 _ ?_⟩
    · exact congrArg Lane.failed hfailed
    · have hout : s.out = t₁.out := by rw [← ht₁]; rfl
      rw [hout]
      exact (State.detect_keeps t₁ .linkLaneSpared (srcPort n) [(1, n), (1, l)] (.refl true t₁)).outPrefix
  · refine Answers.next ?_
    rw [State.laneFail]
    split
    case isTrue h =>
      have hfailed := h.resolve_left (fun k => k hup)
      exact ⟨hfailed, rfl, rfl, rfl⟩
    case isFalse =>
      rw [if_pos (by simp [hneeds]), State.lane_modLane, if_pos rfl, State.modLane, State.port_modRep, if_pos rfl]
      exact ⟨rfl, rfl, rfl, rfl⟩
  · refine Answers.next ?_
    rw [if_pos hup]
    extract_lets u
    have hrep := (State.sendCtl_steady ((u.switchCw n 1000).2.modRep n (fun r => { r with stopped := true, txSwitch := some (l, (u.switchCw n 1000).1) }))
      n 9 0 (leBytes 1 l ++ [0, 0, 0] ++ leBytes 4 (u.switchCw n 1000).1) (.refl _)).rep n
    rw [State.port_modRep, if_pos rfl] at hrep
    refine ⟨congrArg Repair.stopped hrep, ⟨_, congrArg Repair.txSwitch hrep⟩, SendsCtl.sendCtl n 9 0 _ ?_⟩
    exact s.out_validFrame n ack
  · refine Answers.next ?_
    have hrep : ((s.validFrame n ack).port n).rep = (s.port n).rep := by
      rw [(s.validFrame_steady n ack).rep, State.port_modLink, if_pos rfl]
    rw [if_pos hup]
    dsimp only
    rw [if_pos (by rw [hrep, hsparing]), State.port_modRep, if_pos rfl]

/-! ### Replay as a repair ends (R290, R298, R300) -/

/-- A replay is counted, and moves no more of a port than the sending of its frames. -/
theorem State.replay_steady (s : State) (n : Nat) :
    ∃ (t : State) (a b : Nat), t.port n = { s.port n with link := { (s.port n).link with replays := a, replayRuns := b } } ∧
      Steady t (s.replay n) := by
  by_cases h : (s.port n).link.replay = [] ∨ (s.port n).rep.stopped = true
  · rw [State.replay, if_pos h]
    exact ⟨s, (s.port n).link.replays, (s.port n).link.replayRuns, rfl, .refl s⟩
  · rw [State.replay, if_neg h]
    refine ⟨_, satAdd 0xFFFF (s.port n).link.replays 1,
      if (s.port n).link.replayLimit ≤ (s.port n).link.replayRuns then 1 else (s.port n).link.replayRuns + 1, ?_, Steady.foldl (fun t f ht => State.sendFrame_steady t n _ ht) (.refl _)⟩
    rw [State.port_span, State.port_modLink, if_pos rfl]

/-- The sender starts again: the replay waits no more and what is queued may go. -/
theorem State.rep_replay_pump (s : State) (n : Nat) : (((s.replay n).pump n).port n).rep = (s.port n).rep := by
  obtain ⟨t, a, b, ht, hsteady⟩ := s.replay_steady n
  rw [(State.pump_steady _ n hsteady).rep, ht]

theorem State.link_replay_pump (s : State) (n : Nat) {α : Type} (f : Link → α) (hf : ∀ k, f k.steady = f k)
    (hr : ∀ (k : Link) (a b : Nat), f { k with replays := a, replayRuns := b } = f k) :
    f (((s.replay n).pump n).port n).link = f (s.port n).link := by
  obtain ⟨t, a, b, ht, hsteady⟩ := s.replay_steady n
  rw [(State.pump_steady _ n hsteady).link n f hf, ht, hr]

/-! ### Sparing (R298, R299) -/

theorem State.port_reachCw (s : State) (n cw m : Nat) : (s.reachCw n cw).port m = s.port m := s.port_reach _ m

/-- The receiver's part of the end of a sparing: the spare stands in for the lane. -/
def State.spareStands (s : State) (n : Nat) : State :=
  match (s.port n).rep.rxSwitch with
  | some (l, _) => (((s.modLink n (fun k => { k with spareRx := true, sparedLane := l })).modRep n
      (fun r => { r with sparing := none, rxSwitch := none, suspended := false })).closeWindow .linkLaneSpared (srcPort n)).total 13 1
  | none => s

/-- The transmitter's part: the sender starts again if it had stopped for its own switch. -/
theorem execSparingDone_eq (n : Nat) (s : State) :
    execSparingDone n s = .next (
      if (s.port n).rep.txSwitch.isSome = true ∧ ((s.spareStands n).port n).link.spareTx = true ∧ (s.port n).rep.stopped = true then
        (((s.spareStands n).modRep n (fun r => { r with stopped := false })).replay n).pump n
      else s.spareStands n) := rfl

theorem State.port_spareStands (s : State) (n : Nat) :
    ((s.spareStands n).port n).link.spareTx = (s.port n).link.spareTx ∧ ((s.spareStands n).port n).rep.stopped = (s.port n).rep.stopped ∧
      ∀ l cw, (s.port n).rep.rxSwitch = some (l, cw) →
        (s.spareStands n).port n = { s.port n with
          link := { (s.port n).link with spareRx := true, sparedLane := l }
          rep := { (s.port n).rep with sparing := none, rxSwitch := none, suspended := false } } := by
  rw [State.spareStands]
  cases hrx : (s.port n).rep.rxSwitch with
  | none => exact ⟨rfl, rfl, nofun⟩
  | some x =>
    have hport (t : State) (c : EventClass) (src : Nat) : ((t.closeWindow c src).total 13 1).port n = t.port n := rfl
    rw [hport, State.port_modRep, if_pos rfl, State.port_modLink, if_pos rfl]
    refine ⟨rfl, rfl, fun l cw h => ?_⟩
    cases h
    rfl

/-- Settles O24: the receiver's part and the transmitter's part of a sparing touch different fields of the port. -/
theorem spareTakesOver : Obligations.SpareTakesOver := by
  unfold Obligations.SpareTakesOver
  refine ⟨fun n s => ?_, fun n l cw s hrx => ?_, fun n s htx hspare => ?_, fun n s hsparing hup => ?_⟩
  · have hexec : exec (.spareSwitch n) s = execSpareSwitch n s := rfl
    rw [hexec, execSpareSwitch]
    refine Answers.next ?_
    cases htx : (s.port n).rep.txSwitch <;> cases hrx : (s.port n).rep.rxSwitch <;> cases hspare : (s.port n).link.spareTx <;>
      simp [State.port_reachCw, State.port_modLink, State.port_modRep, hspare]
  · have hexec : exec (.sparingDone n) s = execSparingDone n s := rfl
    obtain ⟨-, -, hport⟩ := s.port_spareStands n
    have hport := hport l cw hrx
    rw [hexec, execSparingDone_eq]
    refine Answers.next ?_
    split
    · rw [State.rep_replay_pump, State.link_replay_pump _ n (·.spareRx) (fun _ => rfl) (fun _ _ _ => rfl),
        State.link_replay_pump _ n (·.sparedLane) (fun _ => rfl) (fun _ _ _ => rfl), State.port_modRep, if_pos rfl, hport]
      exact ⟨rfl, rfl, rfl, rfl, rfl⟩
    · rw [hport]
      exact ⟨rfl, rfl, rfl, rfl, rfl⟩
  · have hexec : exec (.sparingDone n) s = execSparingDone n s := rfl
    obtain ⟨htxSpare, hstopped, -⟩ := s.port_spareStands n
    rw [hexec, execSparingDone_eq]
    refine Answers.next ?_
    rw [htxSpare]
    split
    case isTrue => rw [State.rep_replay_pump, State.port_modRep, if_pos rfl]
    case isFalse h => rw [hstopped]; simpa [htx, hspare] using h
  · refine Answers.next ?_
    have hup' : (s.closeWindow .linkLaneSpared (srcPort n)).linkUp n = true := hup
    rw [if_pos hsparing, State.retrain, if_pos hup']
    exact State.linkSt_train _ n

end Sys2Proof.Machine
end

