-- ==== Sys2Proof/Proofs/LinkTiming.lean ====
section
/-!
PROOFS. Width changes, equaliser taps and the time exchange of a Gnoem link (09_gnoem_link.md).
-/
set_option autoImplicit false
namespace Sys2Proof.Machine

/-! ### Width and taps (R300, R301) -/

/-- The instant from which a tap may be stepped again is reached: ports and outputs stay. -/
theorem State.reachTap_leaves (s : State) (t : Tab Nat) (tap : Nat) :
    (∀ n, (s.reachTap t tap).port n = s.port n) ∧ (s.reachTap t tap).out = s.out ∧
      (tget t 0 tap ≠ 0 → tget t 0 tap + 99999 ≤ (s.reachTap t tap).aoNs) := by
  cases h : tget t 0 tap with
  | zero =>
    have hstays : s.reachTap t tap = s := by rw [State.reachTap, h]
    rw [hstays]
    exact ⟨fun _ => rfl, rfl, fun k => absurd rfl k⟩
  | succ x =>
    have hreach : s.reachTap t tap = s.reach (x + 100000) := by rw [State.reachTap, h]
    have hsum : x + 1 + 99999 = x + 100000 := (Nat.add_assoc x 1 99999).trans (congrArg (x + ·) rfl)
    rw [hreach]
    exact ⟨s.port_reach _, s.out_reach _, fun _ => Nat.le_trans (Nat.le_of_eq hsum) (s.le_aoNs_reach _)⟩

/-- A lane is read from the repair state of its port. -/
theorem State.lane_of_rep {s t : State} {n : Nat} (h : (t.port n).rep = (s.port n).rep) (l : Nat) : t.lane n l = s.lane n l := by
  rw [State.lane, h]; rfl

/-- The tap of a lane is moved and the instant is kept. -/
theorem State.aoNs_modLane (s : State) (n l : Nat) (f : Lane → Lane) : (s.modLane n l f).aoNs = s.aoNs := rfl

theorem State.aoNs_sendCtl (s : State) (n type vc : Nat) (body : List Byte) : (s.sendCtl n type vc body).aoNs = s.aoNs := rfl

/-- Settles O25: a request is noted before it is answered, and a tap is stepped at or after its instant. -/
theorem widthAndTaps : Obligations.WidthAndTaps := by
  unfold Obligations.WidthAndTaps
  refine ⟨fun n mode half cw isAck ack s hup hmode => ?_, fun n m h cw s hreq => ?_, fun n l request tap ack s hup hreq => ?_,
    fun n l tap up s hup hl => ⟨?_, fun htap => ?_⟩⟩
  · refine Answers.next ?_
    rw [if_pos ⟨hup, hmode⟩]
    cases isAck with
    | true =>
      refine ⟨?_, nofun⟩
      rw [if_pos rfl, State.port_modRep, if_pos rfl]
    | false =>
      rw [if_neg (by decide)]
      dsimp only
      have hsent (t : State) (body : List Byte) := (State.sendCtl_steady t n 11 0 body (.refl t)).rep n
      rw [hsent, State.port_modRep, if_pos rfl]
      exact ⟨rfl, fun _ => ⟨rfl, SendsCtl.sendCtl n 11 0 _ (s.out_validFrame n ack)⟩⟩
  · have hexec : exec (.widthSwitch n) s = execWidthSwitch n s := rfl
    rw [hexec, execWidthSwitch, hreq]
    refine Answers.next ?_
    rw [State.rep_replay_pump, State.link_replay_pump _ n (·.mode) (fun _ => rfl) (fun _ _ _ => rfl),
      State.link_replay_pump _ n (·.half) (fun _ => rfl) (fun _ _ _ => rfl)]
    have hwindow (t : State) : (t.closeWindow .linkWidthDegraded (srcPort n)).port n = t.port n := rfl
    rw [hwindow, State.port_modRep, if_pos rfl, State.port_modLink, if_pos rfl]
    exact ⟨rfl, rfl, rfl, rfl⟩
  · refine Answers.next ?_
    have hvalid := s.out_validFrame n ack
    rw [if_pos hup]
    dsimp only
    rw [if_neg (by simp [hreq])]
    generalize s.validFrame n ack = u at hvalid ⊢
    split
    · exact SendsCtl.sendCtl n 10 0 _ hvalid
    split
    · have hreach := (u.reachTap_leaves (u.lane n l).tapAt tap).2.1
      split
      · exact SendsCtl.sendCtl n 10 0 _ (hvalid.trans (by rw [← hreach]; exact List.prefix_refl _))
      · exact SendsCtl.sendCtl n 10 0 _ (hvalid.trans (by rw [← hreach]; exact List.prefix_refl _))
    · exact SendsCtl.sendCtl n 10 0 _ hvalid
  · obtain ⟨hport, -, hdue⟩ := s.reachTap_leaves (s.lane n l).rxAt tap
    refine Answers.next ?_
    rw [if_pos ⟨hup, hl, Or.inl rfl⟩, if_pos rfl]
    dsimp only
    rw [State.lane_modLane, if_pos rfl, State.aoNs_modLane, State.lane_of_rep (s := s) (t := s.reachTap _ tap) (by rw [hport])]
    refine ⟨rfl, hdue, ?_⟩
    dsimp only
    rw [tget_tset, if_pos rfl]
  · obtain ⟨hport, hout, hdue⟩ := s.reachTap_leaves (s.lane n l).askAt tap
    refine Answers.next ?_
    rw [if_pos ⟨hup, hl, Or.inr htap⟩, if_neg (by decide)]
    dsimp only
    have hsent (t : State) (body : List Byte) : (t.sendCtl n 10 0 body).lane n l = t.lane n l :=
      State.lane_of_rep ((State.sendCtl_steady t n 10 0 body (.refl t)).rep n) l
    rw [State.aoNs_sendCtl, State.aoNs_modLane, hsent, State.lane_modLane, if_pos rfl]
    refine ⟨hdue, ?_, SendsCtl.sendCtl n 10 0 _ (by rw [← hout]; exact List.prefix_refl _)⟩
    dsimp only
    rw [tget_tset, if_pos rfl]

/-! ### The time exchange (R304 to R306) -/

/-- A port that makes no repair makes none as a valid frame arrives, and is ACTIVE if it was. -/
theorem State.validFrame_exchange (s : State) (n : Nat) (ack : Option Nat) :
    ((s.validFrame n ack).port n).rep = (s.port n).rep ∧ (s.validFrame n ack).active n = s.active n := by
  have h := s.validFrame_steady n ack
  refine ⟨by rw [h.rep, State.port_modLink, if_pos rfl], ?_⟩
  rw [State.active, h.disc n (·.st) (fun _ => rfl), State.port_modLink, if_pos rfl]
  rfl

theorem Port.repairs_of_rep {o p : Port} (h : o.rep = p.rep) : o.repairs = p.repairs := by rw [Port.repairs, Port.repairs, h]

/-- The stamp of an instant is that of device time, which a frame does not change. -/
theorem State.stamp_validFrame (s : State) (n : Nat) (ack : Option Nat) (at16 : Nat) :
    ((s.validFrame n ack).stamp at16).1 = (s.stamp at16).1 := by
  have h := State.validFrame_only (hm := Nat.and_self _) (hk := .refl _ s) s n ack
  simp only [State.stamp, State.timeAt, h.aoNs rfl, h.devOff rfl, h.time rfl]

theorem State.stamp_leaves (s : State) (at16 n : Nat) : (s.stamp at16).2.port n = s.port n ∧ (s.stamp at16).2.out = s.out :=
  ⟨s.port_reach _ n, s.out_reach _⟩

/-- The servo moves the rate of device time and its own counts. -/
theorem State.servo_leaves (s : State) (offset : Int) (n : Nat) :
    (s.servo offset).port n = s.port n ∧ (s.servo offset).time.offsetPs = s.time.offsetPs := by
  have hlog (t : State) : (t.log .timeLocked (srcBlock 7) []).time = t.time :=
    (State.log_only (hm := Nat.and_self _) (hk := .refl _ t) ..).time rfl
  refine ⟨by rw [State.port, (State.servo_only (hm := Nat.and_self _) (hk := .refl _ s) ..).ports rfl]; rfl, ?_⟩
  simp only [State.servo]
  rw [apply_ite State.time, hlog, apply_ite TimeBase.offsetPs]
  exact ite_self _

theorem State.setTime_leaves (s : State) (step : Int) (n : Nat) :
    (s.setTime step).port n = s.port n ∧ (s.setTime step).time.offsetPs = s.time.offsetPs := by
  refine ⟨by rw [State.port, (State.setTime_only (hm := Nat.and_self _) (hk := .refl _ s) ..).ports rfl]; rfl, ?_⟩
  rw [State.setTime, (State.log_only (hm := Nat.and_self _) (hk := .refl _ _) ..).time rfl]
  rfl

/-- What an exchange measures is kept: the delay of the port and the offset (R304). -/
def State.measured (s : State) (n : Nat) (offset delay : Int) : State :=
  ((s.modRep n (fun r => { r with t1 := none })).modLink n (fun k => { k with delayNs := ((delay.toNat + 8) / 16) % 65536 })).modTime
    (fun t => { t with offsetPs := max (-2147483647) (min 2147483647 (offset * 125 / 2)) })

/-- Device time follows the offset, or is set, or waits to be set (R305, R306). -/
def State.timeFollows (s : State) (offset step : Int) : State :=
  if s.time.isSet then s.servo offset
  else if s.commandRuns then s.modTime (fun t => { t with wait := some step })
  else s.setTime step

theorem State.timeFollows_leaves (s : State) (offset step : Int) (n : Nat) :
    (s.timeFollows offset step).port n = s.port n ∧ (s.timeFollows offset step).time.offsetPs = s.time.offsetPs := by
  rw [State.timeFollows]
  split
  · exact s.servo_leaves offset n
  split
  · exact ⟨rfl, rfl⟩
  · exact s.setTime_leaves step n

/-- The answer to the exchange under way is measured and followed. -/
theorem exec_timeRsp {n exchange t2 t3 t4 at16 t1 : Nat} {ack : Option Nat} {s u : State} (hu : u = s.validFrame n ack)
    (hup : s.linkUp n = true) (ht1 : (u.port n).rep.t1 = some t1) (hex : exchange = ((u.port n).rep.exchange + 65535) % 65536)
    (hn : n = u.time.parent) (hroot : u.time.root = false) (hactive : u.active n = true) (hrep : (u.port n).repairs = false)
    (ht4 : t4 = ((u.stamp at16).1 + 2 ^ 64 - (u.port n).rep.calRx) % 2 ^ 64) :
    exec (.timeRsp n exchange t2 t3 at16 ack) s =
      .next (((u.stamp at16).2.measured n ((timeDiff t2 t1 - timeDiff t4 t3) / 2) ((timeDiff t2 t1 + timeDiff t4 t3) / 2)).timeFollows
        ((timeDiff t2 t1 - timeDiff t4 t3) / 2) ((timeDiff t3 t4 + (timeDiff t2 t1 + timeDiff t4 t3) / 2) / 16)) := by
  have hexec : exec (.timeRsp n exchange t2 t3 at16 ack) s = execTimeRsp n exchange t2 t3 at16 ack s := rfl
  have hlegal : ¬ (exchange ≠ ((u.port n).rep.exchange + 65535) % 65536 ∨ n ≠ u.time.parent ∨ u.time.root = true ∨
      ¬ u.active n = true ∨ (u.port n).repairs = true) := by simp [← hex, ← hn, hroot, hactive, hrep]
  subst hu
  rw [hexec, execTimeRsp, if_pos hup]
  dsimp only
  rw [ht1]
  dsimp only
  rw [if_neg hlegal, ← ht4]
  rfl

/-- Settles O26: the exchange starts, is answered, and is measured; what follows it leaves the measure. -/
theorem timeExchanges : Obligations.TimeExchanges := by
  unfold Obligations.TimeExchanges
  refine ⟨fun at16 s hroot hactive hrep => ?_, fun n exchange at16 send16 ack s hup hactive hrep => ?_,
    fun n exchange t1 t2 t3 t4 now at16 ack s hup hactive hrep ht1 hex hn hroot hnow ht4 => ?_⟩
  · refine Answers.next ?_
    dsimp only
    rw [if_pos ⟨by simp [hroot], hactive, by simp [hrep]⟩]
    obtain ⟨hport, hout⟩ := s.stamp_leaves at16 s.time.parent
    have hsent (t : State) (body : List Byte) := (State.sendCtl_steady t s.time.parent 6 0 body (.refl t)).rep s.time.parent
    rw [hsent, State.port_modRep, if_pos rfl, hport]
    exact ⟨rfl, rfl, SendsCtl.sendCtl _ 6 0 _ (by rw [← hout]; exact List.prefix_refl _)⟩
  · refine Answers.next ?_
    obtain ⟨hvrep, hvactive⟩ := s.validFrame_exchange n ack
    rw [if_pos hup]
    dsimp only
    rw [if_pos ⟨by rw [hvactive, hactive], by rw [Port.repairs_of_rep hvrep, hrep]; decide⟩]
    refine SendsCtl.sendCtl n 7 0 _ ((s.out_validFrame n ack).trans ?_)
    have hout := (((s.validFrame n ack).stamp at16).2.stamp_leaves send16 n).2.trans ((s.validFrame n ack).stamp_leaves at16 n).2
    exact ⟨[], (List.append_nil _).trans hout.symm⟩
  · obtain ⟨hvrep, hvactive⟩ := s.validFrame_exchange n ack
    have hvalid := State.validFrame_only (hm := Nat.and_self _) (hk := .refl _ s) s n ack
    have hvtime := hvalid.time rfl
    rw [exec_timeRsp (t4 := t4) (t1 := t1) rfl hup (by rw [hvrep, ht1]) (by rw [hvrep, hex]) (by rw [hvtime, hn]) (by rw [hvtime, hroot])
      (by rw [hvactive, hactive]) (by rw [Port.repairs_of_rep hvrep, hrep]) (by rw [State.stamp_validFrame, ← hnow, hvrep, ht4])]
    refine Answers.next ?_
    generalize hoff : (timeDiff t2 t1 - timeDiff t4 t3) / 2 = offset
    generalize (timeDiff t2 t1 + timeDiff t4 t3) / 2 = delay
    have hstampTime (u : State) : (u.stamp at16).2.time = u.time :=
      (State.reach_only (hm := Nat.and_self _) (hk := .refl _ u) ..).time rfl
    have hstampClusters (u : State) : (u.stamp at16).2.clusters = u.clusters :=
      (State.reach_only (hm := Nat.and_self _) (hk := .refl _ u) ..).clusters rfl
    generalize hw : ((s.validFrame n ack).stamp at16).2 = w
    have hwtime : w.time = s.time := by rw [← hw, hstampTime, hvtime]
    have hwruns : w.commandRuns = s.commandRuns := by
      rw [← hw]; simp only [State.commandRuns, State.cluster, hstampClusters, hvalid.clusters rfl]
    obtain ⟨hport, hoffset⟩ := (w.measured n offset delay).timeFollows_leaves offset ((timeDiff t3 t4 + delay) / 16) n
    refine ⟨?_, hoffset, fun hset hruns => ⟨(timeDiff t3 t4 + delay) / 16, ?_⟩⟩
    · rw [hport, State.measured, State.port_modTime, State.port_modLink, if_pos rfl, State.port_modRep, if_pos rfl]
    · have hunset : (w.measured n offset delay).time.isSet = false := by
        rw [← hset, ← hwtime]; rfl
      have hmruns : (w.measured n offset delay).commandRuns = true := by rw [← hruns, ← hwruns]; rfl
      rw [State.timeFollows, if_neg (by simp [hunset]), if_pos hmruns]
      rfl

end Sys2Proof.Machine
end

