-- ==== Sys2Proof/Proofs/Routing.lean ====
section
/-!
PROOFS. What the router's traffic leaves of its settings: the slice, the drain bit, the detours and the limits stay as packets are
sent, delivered and dropped (11_routing_and_slices.md).
-/
set_option autoImplicit false
namespace Sys2Proof.Machine

/-- What the host and the slice notices set in the router. -/
def Router.settings (r : Router) : Slice × Bool × Tab Nat × Nat × Nat := (r.slice, r.drain, r.detours, r.readTimeout, r.stallLimit)

/-- The router's settings are the same in t as in s. -/
def SameRouting (s t : State) : Prop := t.rtr.settings = s.rtr.settings

namespace SameRouting

variable {s t u : State}

theorem refl (s : State) : SameRouting s s := rfl
theorem trans (h : SameRouting s t) (k : SameRouting t u) : SameRouting s u := Eq.trans k h

/-- The mask has every bit but that of the router. -/
theorem only (h : Only 8522825727 t u) (hk : SameRouting s t) : SameRouting s u := by
  rw [SameRouting, h.rtr (by decide)]
  exact hk

theorem ite {c : Prop} [Decidable c] (h : SameRouting s t) (k : SameRouting s u) : SameRouting s (if c then t else u) := by
  split
  · exact h
  · exact k

theorem ite2 {α : Type} {c : Prop} [Decidable c] {p q : α × State} (h : SameRouting s p.2) (k : SameRouting s q.2) :
    SameRouting s (if c then p else q).2 := by
  split
  · exact h
  · exact k

theorem pair {α : Type} {p : α × State} {a : α} (h : p = (a, t)) (hp : SameRouting s p.2) : SameRouting s t := by
  subst h
  exact hp

theorem foldl {α : Type} {f : State → α → State} {l : List α} (h : ∀ t x, SameRouting s t → SameRouting s (f t x))
    (h0 : SameRouting s t) : SameRouting s (l.foldl f t) := by
  induction l generalizing t with
  | nil => exact h0
  | cons x l ih => exact ih (h _ _ h0)

theorem slice (h : SameRouting s t) : t.rtr.slice = s.rtr.slice := congrArg (·.1) h
theorem drain (h : SameRouting s t) : t.rtr.drain = s.rtr.drain := congrArg (·.2.1) h

end SameRouting

theorem State.modRtr_routing {s₀ : State} (s : State) (f : Router → Router) (hf : ∀ r, (f r).settings = r.settings)
    (hk : SameRouting s₀ s) : SameRouting s₀ (s.modRtr f) := (hf s.rtr).trans hk

/-! ### Operations that leave the router alone -/

theorem State.freeBuffer_routing {s₀ : State} (s : State) (n vc : Nat) (p : Packet)
    (hk : SameRouting s₀ s) : SameRouting s₀ (State.freeBuffer s n vc p) :=
  .only (State.freeBuffer_only (hm := by decide) (hk := .refl _ _) ..) hk

theorem State.logLimited_routing {s₀ : State} (s : State) (c : EventClass) (key period : Nat) (source : Nat) (data : List (Nat × Nat))
    (hk : SameRouting s₀ s) : SameRouting s₀ (State.logLimited s c key period source data) :=
  .only (State.logLimited_only (hm := by decide) (hk := .refl _ _) ..) hk

theorem State.enqueue_routing {s₀ : State} (s : State) (n : Nat) (q : Queued)
    (hk : SameRouting s₀ s) : SameRouting s₀ (State.enqueue s n q) :=
  .only (State.enqueue_only (hm := by decide) (hk := .refl _ _) ..) hk

theorem State.modCluster_routing {s₀ : State} (s : State) (c : Nat) (f : Cluster → Cluster)
    (hk : SameRouting s₀ s) : SameRouting s₀ (State.modCluster s c f) :=
  .only (State.modCluster_only (hm := by decide) (hk := .refl _ _) ..) hk

theorem State.log_routing {s₀ : State} (s : State) (c : EventClass) (source : Nat) (data : List (Nat × Nat))
    (hk : SameRouting s₀ s) : SameRouting s₀ (State.log s c source data) :=
  .only (State.log_only (hm := by decide) (hk := .refl _ _) ..) hk

theorem State.toRequester_routing {s₀ : State} (s : State) (c : Nat) (who : Requester) (via : Via) (r : CoinResult)
    (hk : SameRouting s₀ s) : SameRouting s₀ (State.toRequester s c who via r) :=
  .only (State.toRequester_only (hm := by decide) (hk := .refl _ _) ..) hk

theorem State.modQueue_routing {s₀ : State} (s : State) (c q : Nat) (f : Queue → Queue)
    (hk : SameRouting s₀ s) : SameRouting s₀ (State.modQueue s c q f) :=
  .only (State.modQueue_only (hm := by decide) (hk := .refl _ _) ..) hk

theorem State.wake_routing {s₀ : State} (s : State) (c : Nat)
    (hk : SameRouting s₀ s) : SameRouting s₀ (State.wake s c) :=
  .only (State.wake_only (hm := by decide) (hk := .refl _ _) ..) hk

theorem State.dropCoin_routing {s₀ : State} (s : State) (c : Nat)
    (hk : SameRouting s₀ s) : SameRouting s₀ (State.dropCoin s c) :=
  .only (State.dropCoin_only (hm := by decide) (hk := .refl _ _) ..) hk

theorem State.modCol_routing {s₀ : State} (s : State) (f : Collect → Collect)
    (hk : SameRouting s₀ s) : SameRouting s₀ (State.modCol s f) :=
  .only (State.modCol_only (hm := by decide) (hk := .refl _ _) ..) hk

theorem State.modHost_routing {s₀ : State} (s : State) (f : HostIf → HostIf)
    (hk : SameRouting s₀ s) : SameRouting s₀ (State.modHost s f) :=
  .only (State.modHost_only (hm := by decide) (hk := .refl _ _) ..) hk

theorem State.complete_routing {s₀ : State} (s : State) (d : Desc) (st : Status) (result : Nat) (detail : Nat) (guard : Nat) (cluster : Nat)
    (hk : SameRouting s₀ s) : SameRouting s₀ (State.complete s d st result detail guard cluster) :=
  .only (State.complete_only (hm := by decide) (hk := .refl _ _) ..) hk

theorem State.modCore_routing {s₀ : State} (s : State) (p : Nat) (f : Core → Core)
    (hk : SameRouting s₀ s) : SameRouting s₀ (State.modCore s p f) :=
  .only (State.modCore_only (hm := by decide) (hk := .refl _ _) ..) hk

theorem State.modLb_routing {s₀ : State} (s : State) (c b : Nat) (f : LandingBuf → LandingBuf)
    (hk : SameRouting s₀ s) : SameRouting s₀ (State.modLb s c b f) :=
  .only (State.modLb_only (hm := by decide) (hk := .refl _ _) ..) hk

theorem State.spoil_routing {s₀ : State} (s : State) (p : Nat) (st : Status)
    (hk : SameRouting s₀ s) : SameRouting s₀ (State.spoil s p st) :=
  .only (State.spoil_only (hm := by decide) (hk := .refl _ _) ..) hk

theorem State.loadDone_routing {s₀ : State} (s : State) (p i : Nat) (l : LoadReq)
    (hk : SameRouting s₀ s) : SameRouting s₀ (State.loadDone s p i l) :=
  .only (State.loadDone_only (hm := by decide) (hk := .refl _ _) ..) hk

theorem State.stmtFail_routing {s₀ : State} (s : State) (st : Status)
    (hk : SameRouting s₀ s) : SameRouting s₀ (State.stmtFail s st) :=
  .only (State.stmtFail_only (hm := by decide) (hk := .refl _ _) ..) hk

theorem State.sendLocal_routing {s₀ : State} (s : State) (n addr : Nat) (payload : List Byte)
    (hk : SameRouting s₀ s) : SameRouting s₀ (State.sendLocal s n addr payload) :=
  .only (State.sendLocal_only (hm := by decide) (hk := .refl _ _) ..) hk

theorem State.modDec_routing {s₀ : State} (s : State) (f : Decision → Decision)
    (hk : SameRouting s₀ s) : SameRouting s₀ (State.modDec s f) :=
  .only (State.modDec_only (hm := by decide) (hk := .refl _ _) ..) hk

theorem State.sendNotice_routing {s₀ : State} (s : State) (payload : List Byte)
    (hk : SameRouting s₀ s) : SameRouting s₀ (State.sendNotice s payload) :=
  .only (State.sendNotice_only (hm := by decide) (hk := .refl _ _) ..) hk

/-! ### Packets, coins and copies -/

theorem State.freeKept_routing {s₀ : State} (s : State)
    (hk : SameRouting s₀ s) : SameRouting s₀ (State.freeKept s) := by
  unfold State.freeKept
  repeat' (first
    | with_reducible assumption
    | with_reducible refine State.modRtr_routing (hf := fun _ => rfl) (hk := ?_) ..
    | with_reducible refine State.freeBuffer_routing (hk := ?_) ..
    | with_reducible refine SameRouting.foldl (fun _ _ _ => ?_) ?_
    | split
    | dsimp only)

theorem State.fenced_routing {s₀ : State} (s : State) (p : Packet) (out : Bool)
    (hk : SameRouting s₀ s) : SameRouting s₀ (State.fenced s p out) := by
  unfold State.fenced
  repeat' (first
    | with_reducible assumption
    | with_reducible refine State.modRtr_routing (hf := fun _ => rfl) (hk := ?_) ..
    | with_reducible refine State.logLimited_routing (hk := ?_) ..
    | split
    | dsimp only)

theorem State.dropNoPort_routing {s₀ : State} (s : State) (n : Nat)
    (hk : SameRouting s₀ s) : SameRouting s₀ (State.dropNoPort s n) := by
  unfold State.dropNoPort
  repeat' (first
    | with_reducible assumption
    | with_reducible refine State.modRtr_routing (hf := fun _ => rfl) (hk := ?_) ..
    | with_reducible refine State.logLimited_routing (hk := ?_) ..
    | split)

theorem State.moved_routing {s₀ : State} (s : State)
    (hk : SameRouting s₀ s) : SameRouting s₀ (State.moved s) := by
  unfold State.moved
  repeat' (first
    | with_reducible assumption
    | with_reducible refine State.modRtr_routing (hf := fun _ => rfl) (hk := ?_) ..
    | split)

theorem State.launch_routing {s₀ : State} (s : State) (p : Packet)
    (hk : SameRouting s₀ s) : SameRouting s₀ (State.launch s p).2 := by
  unfold State.launch
  repeat' (first
    | with_reducible assumption
    | with_reducible refine State.fenced_routing (hk := ?_) ..
    | with_reducible refine State.dropNoPort_routing (hk := ?_) ..
    | with_reducible refine State.moved_routing (hk := ?_) ..
    | with_reducible refine State.enqueue_routing (hk := ?_) ..
    | with_reducible refine SameRouting.ite2 ?_ ?_
    | split
    | dsimp only)

theorem State.inject_routing {s₀ : State} (s : State) (p : Packet)
    (hk : SameRouting s₀ s) : SameRouting s₀ (State.inject s p).2 := by
  unfold State.inject
  repeat' (first
    | with_reducible assumption
    | with_reducible refine State.modRtr_routing (hf := fun _ => rfl) (hk := ?_) ..
    | with_reducible refine State.launch_routing (hk := ?_) ..
    | with_reducible refine SameRouting.ite2 ?_ ?_
    | split
    | dsimp only)

theorem State.replyIn_routing {s₀ : State} (s : State) (src : Coord) (q c tag : Nat) (r : CoinResult)
    (hk : SameRouting s₀ s) : SameRouting s₀ (State.replyIn s src q c tag r) := by
  unfold State.replyIn
  repeat' (first
    | with_reducible assumption
    | with_reducible refine State.modCluster_routing (hk := ?_) ..
    | with_reducible refine State.modRtr_routing (hf := fun _ => rfl) (hk := ?_) ..
    | with_reducible refine State.log_routing (hk := ?_) ..
    | with_reducible refine State.toRequester_routing (hk := ?_) ..
    | split
    | dsimp only)

theorem State.answer_routing {s₀ : State} (s : State) (c q : Nat) (who : Requester) (r : CoinResult)
    (hk : SameRouting s₀ s) : SameRouting s₀ (State.answer s c q who r) := by
  unfold State.answer
  repeat' (first
    | with_reducible assumption
    | with_reducible refine State.inject_routing (hk := ?_) ..
    | with_reducible refine State.toRequester_routing (hk := ?_) ..
    | with_reducible refine State.replyIn_routing (hk := ?_) ..
    | with_reducible refine SameRouting.ite ?_ ?_
    | split
    | dsimp only)

theorem State.release_routing {s₀ : State} (s : State) (c q : Nat)
    (hk : SameRouting s₀ s) : SameRouting s₀ (State.release s c q) := by
  unfold State.release
  repeat' (first
    | with_reducible assumption
    | with_reducible refine State.answer_routing (hk := ?_) ..
    | with_reducible refine State.modQueue_routing (hk := ?_) ..
    | with_reducible refine SameRouting.foldl (fun _ _ _ => ?_) ?_
    | split
    | dsimp only)

theorem State.putCoins_routing {s₀ : State} (s : State) (c q : Nat) (coins : List W32)
    (hk : SameRouting s₀ s) : SameRouting s₀ (State.putCoins s c q coins) := by
  unfold State.putCoins
  repeat' (first
    | with_reducible assumption
    | with_reducible refine State.modCluster_routing (hk := ?_) ..
    | with_reducible refine State.logLimited_routing (hk := ?_) ..
    | with_reducible refine State.modQueue_routing (hk := ?_) ..
    | with_reducible refine State.release_routing (hk := ?_) ..
    | with_reducible refine SameRouting.ite ?_ ?_
    | split
    | dsimp only)

theorem State.joinQueue_routing {s₀ : State} (s : State) (c q : Nat) (who : Requester) (n : Option Nat)
    (hk : SameRouting s₀ s) : SameRouting s₀ (State.joinQueue s c q who n) := by
  unfold State.joinQueue
  repeat' (first
    | with_reducible assumption
    | with_reducible refine State.modCluster_routing (hk := ?_) ..
    | with_reducible refine State.answer_routing (hk := ?_) ..
    | with_reducible refine State.modQueue_routing (hk := ?_) ..
    | with_reducible refine State.release_routing (hk := ?_) ..
    | with_reducible refine SameRouting.ite ?_ ?_
    | split)

theorem State.coinApply_routing {s₀ : State} (s : State) (c q : Nat) (who : Requester) (op : CoinOp)
    (hk : SameRouting s₀ s) : SameRouting s₀ (State.coinApply s c q who op) := by
  unfold State.coinApply
  repeat' (first
    | with_reducible assumption
    | with_reducible refine State.wake_routing (hk := ?_) ..
    | with_reducible refine State.answer_routing (hk := ?_) ..
    | with_reducible refine State.putCoins_routing (hk := ?_) ..
    | with_reducible refine State.joinQueue_routing (hk := ?_) ..
    | with_reducible refine State.dropCoin_routing (hk := ?_) ..
    | with_reducible refine SameRouting.ite ?_ ?_
    | split
    | dsimp only)

theorem State.collectiveCoin_routing {s₀ : State} (s : State) (c q : Nat) (v : W32)
    (hk : SameRouting s₀ s) : SameRouting s₀ (State.collectiveCoin s c q v) := by
  unfold State.collectiveCoin
  repeat' (first
    | with_reducible assumption
    | with_reducible refine State.coinApply_routing (hk := ?_) ..)

theorem State.entryEnd_routing {s₀ : State} (s : State) (i : Nat) (st : Status)
    (hk : SameRouting s₀ s) : SameRouting s₀ (State.entryEnd s i st) := by
  unfold State.entryEnd
  repeat' (first
    | with_reducible assumption
    | with_reducible refine State.modCol_routing (hk := ?_) ..
    | with_reducible refine State.collectiveCoin_routing (hk := ?_) ..
    | with_reducible refine SameRouting.ite ?_ ?_
    | split
    | dsimp only)

theorem State.failEntries_routing {s₀ : State} (s : State) (a : Nat)
    (hk : SameRouting s₀ s) : SameRouting s₀ (State.failEntries s a) := by
  unfold State.failEntries
  repeat' (first
    | with_reducible assumption
    | with_reducible refine State.modCol_routing (hk := ?_) ..
    | with_reducible refine State.freeKept_routing (hk := ?_) ..
    | with_reducible refine State.entryEnd_routing (hk := ?_) ..
    | with_reducible refine SameRouting.foldl (fun _ _ _ => ?_) ?_
    | split
    | dsimp only)

theorem State.consumed_routing {s₀ : State} (s : State) (p : Packet)
    (hk : SameRouting s₀ s) : SameRouting s₀ (State.consumed s p) := by
  unfold State.consumed
  repeat' (first
    | with_reducible assumption
    | with_reducible refine State.modRtr_routing (hf := fun _ => rfl) (hk := ?_) ..
    | with_reducible refine State.freeBuffer_routing (hk := ?_) ..
    | split
    | dsimp only)

theorem State.streamLaunch_routing {s₀ : State} (s : State) (n : Nat) (p : Packet)
    (hk : SameRouting s₀ s) : SameRouting s₀ (State.streamLaunch s n p).2 := by
  unfold State.streamLaunch
  repeat' (first
    | with_reducible assumption
    | with_reducible refine State.fenced_routing (hk := ?_) ..
    | with_reducible refine State.dropNoPort_routing (hk := ?_) ..
    | with_reducible refine State.moved_routing (hk := ?_) ..
    | with_reducible refine State.enqueue_routing (hk := ?_) ..
    | with_reducible refine SameRouting.ite2 ?_ ?_
    | dsimp only)

theorem State.forgetDesc_routing {s₀ : State} (s : State) (d : Desc)
    (hk : SameRouting s₀ s) : SameRouting s₀ (State.forgetDesc s d) := by
  unfold State.forgetDesc
  repeat' (first
    | with_reducible assumption
    | with_reducible refine State.modHost_routing (hk := ?_) ..
    | with_reducible refine State.modRtr_routing (hf := fun _ => rfl) (hk := ?_) ..
    | split
    | dsimp only)

theorem State.dmaEnd_routing {s₀ : State} (s : State) (x : DmaRun) (st : Status)
    (hk : SameRouting s₀ s) : SameRouting s₀ (State.dmaEnd s x st) := by
  unfold State.dmaEnd
  repeat' (first
    | with_reducible assumption
    | with_reducible refine State.complete_routing (hk := ?_) ..
    | with_reducible refine State.forgetDesc_routing (hk := ?_) ..)

theorem State.fillFailed_routing {s₀ : State} (s : State) (c b : Nat) (st : Status)
    (hk : SameRouting s₀ s) : SameRouting s₀ (State.fillFailed s c b st) := by
  unfold State.fillFailed
  repeat' (first
    | with_reducible assumption
    | with_reducible refine State.modCore_routing (hk := ?_) ..
    | with_reducible refine State.modRtr_routing (hf := fun _ => rfl) (hk := ?_) ..
    | with_reducible refine State.modLb_routing (hk := ?_) ..
    | with_reducible refine SameRouting.foldl (fun _ _ _ => ?_) ?_
    | split
    | dsimp only)

theorem State.readGone_routing {s₀ : State} (s : State) (w : ReadWait)
    (hk : SameRouting s₀ s) : SameRouting s₀ (State.readGone s w) := by
  unfold State.readGone
  repeat' (first
    | with_reducible assumption
    | with_reducible refine State.modRtr_routing (hf := fun _ => rfl) (hk := ?_) ..
    | split)

theorem State.readFailed_routing {s₀ : State} (s : State) (w : ReadWait) (st : Status)
    (hk : SameRouting s₀ s) : SameRouting s₀ (State.readFailed s w st) := by
  unfold State.readFailed
  repeat' (first
    | with_reducible assumption
    | with_reducible refine State.spoil_routing (hk := ?_) ..
    | with_reducible refine State.dmaEnd_routing (hk := ?_) ..
    | with_reducible refine State.fillFailed_routing (hk := ?_) ..
    | with_reducible refine State.loadDone_routing (hk := ?_) ..
    | with_reducible refine State.readGone_routing (hk := ?_) ..
    | split
    | dsimp only)

theorem State.undone_routing {s₀ : State} (s : State) (p : Packet) (x : Sent)
    (hk : SameRouting s₀ s) : SameRouting s₀ (State.undone s p x) := by
  unfold State.undone
  repeat' (first
    | with_reducible assumption
    | with_reducible refine State.modRtr_routing (hf := fun _ => rfl) (hk := ?_) ..
    | with_reducible refine State.toRequester_routing (hk := ?_) ..
    | with_reducible refine State.complete_routing (hk := ?_) ..
    | with_reducible refine State.dmaEnd_routing (hk := ?_) ..
    | with_reducible refine State.stmtFail_routing (hk := ?_) ..
    | with_reducible refine State.entryEnd_routing (hk := ?_) ..
    | with_reducible refine State.readFailed_routing (hk := ?_) ..
    | with_reducible refine SameRouting.ite ?_ ?_
    | split)

theorem State.releaseOne_routing {s₀ : State} (s : State) (w : Waiting)
    (hk : SameRouting s₀ s) : SameRouting s₀ (State.releaseOne s w) := by
  unfold State.releaseOne
  repeat' (first
    | with_reducible assumption
    | with_reducible refine State.launch_routing (hk := ?_) ..
    | with_reducible refine State.streamLaunch_routing (hk := ?_) ..
    | with_reducible refine State.undone_routing (hk := ?_) ..
    | with_reducible refine SameRouting.ite ?_ ?_
    | with_reducible refine SameRouting.pair (by assumption) ?_
    | split
    | dsimp only)

theorem State.releaseDrain_routing {s₀ : State} (s : State)
    (hk : SameRouting s₀ s) : SameRouting s₀ (State.releaseDrain s) := by
  unfold State.releaseDrain
  repeat' (first
    | with_reducible assumption
    | with_reducible refine State.modRtr_routing (hf := fun _ => rfl) (hk := ?_) ..
    | with_reducible refine State.releaseOne_routing (hk := ?_) ..
    | with_reducible refine SameRouting.foldl (fun _ _ _ => ?_) ?_
    | split)

theorem State.dmasDone_routing {s₀ : State} (s : State)
    (hk : SameRouting s₀ s) : SameRouting s₀ (State.dmasDone s) := by
  unfold State.dmasDone
  repeat' (first
    | with_reducible assumption
    | with_reducible refine State.dmaEnd_routing (hk := ?_) ..
    | with_reducible refine SameRouting.foldl (fun _ _ _ => ?_) ?_
    | split
    | dsimp only)

end Sys2Proof.Machine
end

