-- ==== Sys2Proof/Proofs/Discovery.lean ====
section
/-!
PROOFS. Discovery and the router's commands (10_discovery_and_plan.md, 11_routing_and_slices.md): what an identity makes of a port,
and notices, stalls, the drain and detours.
-/
set_option autoImplicit false
namespace Sys2Proof.Machine

/-! ### Identity (R324 to R330) -/

theorem State.consumed_steady (s : State) (p : Packet) : Steady s (s.consumed p) := by
  unfold State.consumed
  split
  · split
    · exact State.freeBuffer_steady _ _ _ _ (State.modRtr_steady _ _ (.refl s))
    · exact State.modRtr_steady _ _ (.refl s)
  · exact .refl s

/-- The judgement of an identity rests on the plan, the position and the firmware of this device. -/
theorem State.identityRow_congr {s t : State} (hdev : t.dev = s.dev) (hflash : t.flash = s.flash) (n : Nat) (b : List Byte) :
    t.identityRow n b = s.identityRow n b ∧ ∀ row, t.causeOf row = s.causeOf row := by
  cases s
  cases t
  subst hdev hflash
  exact ⟨rfl, fun _ => rfl⟩

/-- A change of discovery state keeps what it does not enter. -/
theorem State.disc_setDisc_keeps (s : State) (n : Nat) (d : DState) (cause : Nat) {α : Type} (f : Disc → α)
    (hf : ∀ x : Disc, f { x with quarDropped := 0 } = f x) (hk : ∀ (x : Disc) (t : Nat), f (x.enter d cause t) = f x) :
    f ((s.setDisc n d cause).port n).disc = f (s.port n).disc := by
  rw [(s.setDisc_steady n d cause).disc n f hf, State.port_modDisc, if_pos rfl, hk]

/-- An event leaves every port. -/
theorem State.port_log (s : State) (c : EventClass) (source : Nat) (data : List (Nat × Nat)) (n : Nat) :
    (s.log c source data).port n = s.port n := by
  rw [State.port, (State.log_only (hm := Nat.and_self _) (hk := .refl _ s) ..).ports rfl]; rfl

theorem State.port_discEvent (s : State) (c : EventClass) (n cause : Nat) (b : List Byte) (m : Nat) :
    (s.discEvent c n cause b).port m = s.port m := s.port_log ..

/-- What a judged identity leaves of the port: its position and state. -/
theorem State.identity_judges {s : State} {n : Nat} {b : List Byte} (hver : leAt b 0 1 = 1) (hup : s.linkUp n = true) :
    ((s.identity n b).port n).disc.seen = true ∧ ((s.identity n b).port n).disc.pos = leAt b 4 3 ∧
      ((s.identity n b).port n).disc.st = (if (s.port n).disc.st = .quarantine ∨ 1 ≤ s.identityRow n b ∧ s.identityRow n b ≤ 7
        then .quarantine else .active) ∧
      ((s.port n).disc.st ≠ .quarantine → 1 ≤ s.identityRow n b → s.identityRow n b ≤ 7 →
        ((s.identity n b).port n).disc.cause = s.causeOf (s.identityRow n b)) := by
  unfold State.identity
  rw [if_neg (by simp [hver, hup])]
  extract_lets old t row u v w x y
  obtain ⟨hrow, hcause⟩ := State.identityRow_congr (s := s) (t := t) rfl rfl n b
  have hu : (u.port n).disc.seen = true ∧ (u.port n).disc.pos = leAt b 4 3 ∧ (u.port n).disc.st = old.st := by
    rw [State.port_modDisc, if_pos rfl, State.port_modDisc, if_pos rfl]
    exact ⟨rfl, rfl, rfl⟩
  obtain ⟨hseen, hpos, hst⟩ := hu
  by_cases hquar : old.st = .quarantine
  · rw [if_pos hquar, if_pos (Or.inl hquar), State.port_modDisc, if_pos rfl]
    exact ⟨rfl, rfl, hquar, fun h => absurd hquar h⟩
  rw [if_neg hquar, ← hrow]
  by_cases hbad : 1 ≤ row ∧ row ≤ 7
  · rw [if_pos hbad, if_pos (Or.inr hbad)]
    obtain ⟨hentered, hcauses⟩ := (u.discEvent .portQuarantine n (u.causeOf row) b).disc_setDisc n .quarantine (u.causeOf row)
    rw [State.disc_setDisc_keeps _ n _ _ (·.seen) (fun _ => rfl) (fun _ _ => rfl),
      State.disc_setDisc_keeps _ n _ _ (·.pos) (fun _ => rfl) (fun _ _ => rfl), State.port_discEvent]
    exact ⟨hseen, hpos, hentered, fun _ _ _ => hcauses⟩
  · have hv : (v.port n).disc.seen = true ∧ (v.port n).disc.pos = leAt b 4 3 ∧ (v.port n).disc.st = old.st := by
      rw [State.port_modDisc, if_pos rfl]
      exact ⟨hseen, hpos, hst⟩
    obtain ⟨hvseen, hvpos, hvst⟩ := hv
    have hgood : ¬ ((s.port n).disc.st = .quarantine ∨ 1 ≤ row ∧ row ≤ 7) := fun h => h.elim hquar hbad
    have hcauseless {c : Nat} : (s.port n).disc.st ≠ .quarantine → 1 ≤ row → row ≤ 7 → c = s.causeOf row := fun _ h1 h7 => absurd ⟨h1, h7⟩ hbad
    rw [if_neg hbad, if_neg hgood]
    by_cases hactive : old.st = .active
    · rw [if_pos hactive]
      exact ⟨hvseen, hvpos, hvst.trans hactive, hcauseless⟩
    · rw [if_neg hactive]
      have hx : x.port n = v.port n := by
        have hw : w.port n = v.port n := v.port_discEvent ..
        rw [← hw, show x = if old.gone then _ else w from rfl]
        split
        · exact w.port_log ..
        · rfl
      have hlast : Steady y ((y.timeFound n).pump n) :=
        State.pump_steady _ n (.only (State.timeFound_only (hm := by decide) (hk := .refl _ y) ..) (.refl y))
      rw [hlast.disc n (·.seen) (fun _ => rfl), hlast.disc n (·.pos) (fun _ => rfl), hlast.disc n (·.st) (fun _ => rfl),
        State.disc_setDisc_keeps _ n _ _ (·.seen) (fun _ => rfl) (fun _ _ => rfl),
        State.disc_setDisc_keeps _ n _ _ (·.pos) (fun _ => rfl) (fun _ _ => rfl), (x.disc_setDisc n .active 0).1, hx]
      exact ⟨hvseen, hvpos, rfl, hcauseless⟩

/-- Settles O27: the packet's delivery changes nothing that the judgement rests on. -/
theorem identityJudged : Obligations.IdentityJudged := by
  unfold Obligations.IdentityJudged
  refine ⟨fun n p s h8 hkind haddr hlen hturn hver hup => ?_, fun n s h8 hst => ?_, fun n s h8 hst => ?_, fun n b s h8 hfirst hst hlog => ?_,
    fun n s hfirst => ?_⟩
  · have hexec : exec (.identity n p) s = execIdentity n p s := rfl
    have hsteady := s.consumed_steady p
    have honly := State.consumed_only (hm := Nat.and_self _) (hk := .refl _ s) s p
    obtain ⟨hrow, hcause⟩ := State.identityRow_congr (honly.dev rfl) (honly.flash rfl) n p.payload
    have hup' : (s.consumed p).linkUp n = true := by
      rw [State.linkUp, hsteady.link n (·.st) (fun _ => rfl)]
      exact hup
    have hjudged := State.identity_judges hver hup'
    rw [hrow, hsteady.disc n (·.st) (fun _ => rfl), hcause] at hjudged
    rw [hexec, execIdentity, if_pos ⟨h8, hkind, haddr, hlen, hturn⟩]
    exact Answers.next hjudged
  · have hexec : exec (.identityTimeout n) s = execIdentityTimeout n s := rfl
    rw [hexec, execIdentityTimeout]
    dsimp only
    rw [if_pos ⟨h8, hst⟩]
    exact Answers.next (State.disc_setDisc ..)
  · have hexec : exec (.reidentify n) s = execReidentify n s := rfl
    rw [hexec, execReidentify, if_pos h8, State.reidentify, hst]
    exact Answers.next (State.disc_setDisc ..).1
  · have hexec : exec (.partnerMissing n) s = execPartnerMissing n s := rfl
    rw [hexec, execPartnerMissing, hfirst]
    dsimp only
    rw [if_pos ⟨h8, hst, by simp [hlog]⟩]
    refine Answers.next ?_
    have hlost (t : State) := State.sliceLinkLost_steady t n (.refl t)
    rw [(hlost _).disc n (·.missingLogged) (fun _ => rfl), (hlost _).disc n (·.st) (fun _ => rfl), State.port_log, State.port_modDisc, if_pos rfl,
      State.port_reach]
    exact ⟨rfl, hst⟩
  · have hexec : exec (.partnerMissing n) s = execPartnerMissing n s := rfl
    rw [hexec, execPartnerMissing, hfirst]

/-! ### Slice notices and the drain (R357, R358, R361) -/

/-- The slice becomes DEGRADED: its collectives fail and its settings stay. -/
theorem State.degrade_routing (s : State) (axis : Nat) :
    SameRouting (s.modSlice (fun x => { x with st := 2, axes := if bit x.axes axis then x.axes else x.axes + 2 ^ axis })) (s.degrade axis) := by
  unfold State.degrade
  extract_lets t u v
  have hu : SameRouting t u := State.failEntries_routing t axis (.refl t)
  have hv : SameRouting t v := .ite (State.modDec_routing u _ hu) hu
  exact .ite (State.stmtFail_routing v _ hv) hv

/-- The axis of a notice is marked. -/
theorem bit_marked (x axis : Nat) : bit (if bit x axis then x else x + 2 ^ axis) axis = true := by
  split
  case isTrue h => exact h
  case isFalse h =>
    have hdiv : (x + 2 ^ axis) / 2 ^ axis = x / 2 ^ axis + 1 := Nat.add_div_right x (Nat.two_pow_pos axis)
    simp only [bit, Nat.shiftRight_eq_div_pow, beq_iff_eq] at h ⊢
    omega

/-- Settles O28: what follows the setting of each field leaves it. -/
theorem routerCommands : Obligations.RouterCommands := by
  unfold Obligations.RouterCommands
  refine ⟨fun n s h8 hup => ?_, fun n p s h8 hkind hok haddr hturn hid hslice hnew hzero => ?_, fun n ch vc s h8 hlimit hany hfirst => ?_,
    fun v s => ?_, fun t e v s ht he => ?_⟩
  · have hexec : exec (.identityRepeat n) s = execIdentityRepeat n s := rfl
    rw [hexec, execIdentityRepeat, if_pos h8, State.sendIdentity, if_pos hup]
    exact Answers.next rfl
  · have hexec : exec (.sliceNotice n p) s = execSliceNotice n p s := rfl
    have hkept := (State.consumed_routing s p (.refl s)).slice
    rw [hexec, execSliceNotice, if_pos ⟨h8, hkind, hok, haddr, hturn⟩]
    refine Answers.next ?_
    have hheld : (s.consumed p).hasSlice = true := by rw [State.hasSlice, hkept]; exact hslice
    unfold State.notice
    rw [if_neg (by rw [hkept, hheld, hid]; simp), if_neg (by rw [hkept, hnew]; decide)]
    extract_lets u
    rw [if_pos hzero]
    have hsent : SameRouting u (u.sendNotice p.payload) := State.sendNotice_routing u p.payload (.refl u)
    rw [(State.degrade_routing _ _).slice, State.modSlice_rtr, hsent.slice]
    exact ⟨rfl, bit_marked _ _, congrArg (fun x : Slice => x.seen ++ [noticeKey p.payload]) hkept⟩
  · have hexec : exec (.routeStall n ch vc) s = execRouteStall n ch vc s := rfl
    rw [hexec, execRouteStall, if_pos ⟨h8, hlimit, hany⟩]
    exact Answers.next (Logged.logLimited _ _ _ hfirst (show Severity.info.code < 3 by decide))
  · refine Answers.next ?_
    rw [State.setDrain]
    split
    case isTrue hsame => exact ⟨hsame.symm, fun hoff hon => absurd (hsame.symm.trans hon) (by rw [hoff]; decide)⟩
    case isFalse hchange =>
      cases v with
      | true => exact ⟨rfl, fun _ _ => rfl⟩
      | false =>
        refine ⟨?_, fun _ hon => nomatch hon⟩
        exact (State.dmasDone_routing _ (State.releaseDrain_routing _ (.refl (s.modRtr (fun r => { r with drain := false }))))).drain
  · have hexec : exec (.detourWrite t e v) s = execDetourWrite t e v s := rfl
    rw [hexec, execDetourWrite, if_pos ⟨ht, he⟩, State.writeDetour]
    refine Answers.next ?_
    cases hd : s.isDrained with
    | true => exact rfl
    | false =>
      refine ⟨?_, Logged.log s .routeTableRefused (srcBlock 0) [] (by decide)⟩
      exact congrArg Router.detours ((State.log_only (hm := Nat.and_self _) (hk := .refl _ s) ..).rtr rfl)

end Sys2Proof.Machine
end

