-- ==== Sys2Proof/Proofs/ManagementReads.lean ====
section
/-!
PROOFS. A served management request is answered at once, and what the read commands answer (17_management_and_life_ledger.md).
-/
set_option autoImplicit false
namespace Sys2Proof.Machine

/-- A controller that runs and has an EID serves a request of a binding with room (R515, R517, R518). -/
theorem State.request_served {s : State} {b w : Nat} (f : State → State) (h : Served s b w) : s.request b w f = f s := by
  obtain ⟨hruns, hb, hw, heid⟩ := h
  rw [State.request, if_neg (not_not_intro hruns), if_neg (by omega), if_neg (by omega)]

/-- A served vendor command of its length is answered by what it works out (R523). -/
theorem State.vendor_served {s : State} {b w n : Nat} (code : Nat) {body : List Byte} (f : State → Status × List Byte × State)
    (h : Served s b w) (hlen : body.length = n) :
    s.vendor b w code n body f = .next ((f s).2.2.respond b code (f s).1 (f s).2.1) := by
  rw [State.vendor, State.request_served _ h, if_neg (not_not_intro hlen)]

theorem execStatementGet_served {s : State} {b w : Nat} {body : List Byte} (h : Served s b w) (hlen : body.length = 4)
    (hmax : 64 * leAt body 2 2 ≤ 1024) (hend : 64 * leAt body 0 2 + 64 * leAt body 2 2 ≤ 4096) :
    execStatementGet b w body s =
      .next (s.respond b 1 .ok (((padTo 4096 s.mgmt.lastStmt).drop (64 * leAt body 0 2)).take (64 * leAt body 2 2))) := by
  rw [execStatementGet, State.vendor_served _ _ h hlen]
  dsimp only
  rw [if_neg (by omega)]

/-- No entry is newer than the number asked for, or there is none at all (R524). -/
theorem execDaybookRead_nothing {s : State} {b w : Nat} {body : List Byte} (h : Served s b w) (hlen : body.length = 3)
    (hmin : 1 ≤ leAt body 2 1) (hmax : leAt body 2 1 ≤ 32)
    (hnone : s.err.dayBook = [] ∨ (s.err.nextSeq + 65536 - leAt body 0 2) % 65536 = 0) :
    execDaybookRead b w body s = .next (s.respond b 2 .ok (fields [(2, s.err.nextSeq), (1, 0)])) := by
  rw [execDaybookRead, State.vendor_served _ _ h hlen]
  dsimp only
  rw [if_neg (by omega), if_pos]
  exact hnone.elim (fun h => Or.inr (Or.inr (by rw [h]; rfl))) Or.inl

/-- The entries from the number asked for, oldest first (R524). -/
theorem execDaybookRead_entries {s : State} {b w d : Nat} {body : List Byte} (h : Served s b w) (hlen : body.length = 3)
    (hmin : 1 ≤ leAt body 2 1) (hmax : leAt body 2 1 ≤ 32) (hd : d = (s.err.nextSeq + 65536 - leAt body 0 2) % 65536) (hd1 : 1 ≤ d)
    (hheld : d ≤ s.err.dayBook.length) (hnew : d ≤ 32768) :
    execDaybookRead b w body s = .next (s.respond b 2 .ok
      (fields [(2, (s.err.nextSeq + 65536 - d) % 65536), (1, min (leAt body 2 1) d)] ++
        ((s.err.dayBook.drop (s.err.dayBook.length - d)).take (leAt body 2 1)).flatMap (fun e => e.bytes))) := by
  rw [execDaybookRead, State.vendor_served _ _ h hlen]
  dsimp only
  rw [← hd, if_neg (by omega), if_neg (by omega), Nat.min_eq_left hheld, List.length_take, List.length_drop, Nat.sub_sub_self hheld]

theorem execLedgerRead_served {s : State} {b w : Nat} {body : List Byte} {r : LedgerRecord} (h : Served s b w) (hlen : body.length = 12)
    (hr : (s.ledger.records.filter (fun r => r.live && r.seq == leAt body 0 8)).getLast? = some r) (hmax : 64 * leAt body 10 2 ≤ 1024)
    (hend : 64 * leAt body 8 2 + 64 * leAt body 10 2 ≤ roundUp 64 r.bytes.length) :
    execLedgerRead b w body s =
      .next (s.respond b 3 .ok (((r.bytes ++ List.replicate 64 0xFF#8).drop (64 * leAt body 8 2)).take (64 * leAt body 10 2))) := by
  rw [execLedgerRead, State.vendor_served _ _ h hlen]
  dsimp only
  rw [hr]
  dsimp only
  rw [if_neg (by omega)]

theorem execLedgerStatus_served {s : State} {b w : Nat} (h : Served s b w) :
    execLedgerStatus b w [] s = .next (s.respond b 4 .ok (fields [(8, ((s.ledger.head).map (·.seq)).getD 0)] ++ padTo 32 s.ledger.headHash ++
      fields [(2, (s.ledger.offset + 4095) / 4096), (1, s.ledger.state), (1, 0), (2, s.ledger.droppedBoot)])) := by
  rw [execLedgerStatus, State.vendor_served (n := 0) _ _ h rfl]
  dsimp only
  cases s.ledger.head <;> rfl

theorem execUnitStateRead_served {s : State} {b w : Nat} {body : List Byte} {u : UnitName} (h : Served s b w) (hlen : body.length = 2)
    (hu : unitOf (leAt body 0 2) = some u) : execUnitStateRead b w body s = .next (s.respond b 5 .ok (s.unitRecord u true)) := by
  rw [execUnitStateRead, State.vendor_served _ _ h hlen, hu]

/-- A register whose domain runs is read without a timeout (R482, R524). -/
theorem execRegRead_awake {s : State} {b w : Nat} {body : List Byte} (h : Served s b w) (hlen : body.length = 4)
    (halign : leAt body 0 4 % 8 = 0) (hoff : leAt body 0 4 < 2 ^ 26)
    (hawake : ∀ r, regAt (leAt body 0 4) = some r → s.regAsleep r.1 = false) :
    execRegRead b w body s = .next ((s.readReg (leAt body 0 4) 8).2.respond b 11 .ok (leBytes 8 (s.readReg (leAt body 0 4) 8).1)) := by
  rw [execRegRead, State.vendor_served _ _ h hlen]
  dsimp only
  rw [if_neg (by omega), if_neg]
  cases hr : regAt (leAt body 0 4) with
  | none => exact Bool.false_ne_true
  | some r => exact Bool.eq_false_iff.1 (hawake r hr)

/-- Settles O51: a served request comes down to the answer that its command works out. -/
theorem readsAnswered : Obligations.ReadsAnswered := by
  unfold Obligations.ReadsAnswered
  refine ⟨fun b w body s => execStatementGet_served, fun b w body s => execDaybookRead_nothing, fun b w body s d => execDaybookRead_entries,
    fun b w body s r => execLedgerRead_served, fun b w s => execLedgerStatus_served, fun b w body s u => execUnitStateRead_served,
    fun b w body s => execRegRead_awake⟩

end Sys2Proof.Machine
end

