-- ==== Sys2Proof/Proofs/ManagementSettings.lean ====
section
/-!
PROOFS. What the management commands set: the endpoint, permissions, the power limit, purses and the event receiver
(17_management_and_life_ledger.md).
-/
set_option autoImplicit false
namespace Sys2Proof.Machine

/-! ### Unit state words -/

theorem State.unit_of_units {s t : State} (h : t.units = s.units) (k : Nat) : t.unit k = s.unit k := congrArg (fun us : Tab UnitWords => tget us {} k) h

/-- A unit's permission word does not depend on the other fields of its state words. -/
theorem State.permWord_modUnit {s : State} {k : Nat} {f : UnitWords → UnitWords} (hf : ∀ w, (f w).perm = w.perm) (u : UnitName) :
    (s.modUnit k f).permWord u = s.permWord u := by
  have hperm : ∀ j, ((s.modUnit k f).unit j).perm = (s.unit j).perm := fun j => by
    rw [State.unit_modUnit]
    split
    next hj => rw [hf, hj]
    · rfl
  simp only [State.permWord, hperm]
  rfl

/-- A unit is fenced with this HOLD. -/
def State.FencedHold (s : State) (k : Nat) (hold : Bool) : Prop := (s.unit k).perm = .fenced ∧ (s.unit k).hold = hold

/-- Containing a unit that is no link port fences no unit less and leaves every HOLD (R492). -/
theorem State.FencedHold.contain {s : State} {k : Nat} {hold : Bool} (h : s.FencedHold k hold) {u : UnitName} (hu : u.kind ≠ .port) :
    (s.contain u).FencedHold k hold := by
  rw [State.FencedHold, State.contain, State.unit_modUnit]
  by_cases hk : k = u.code
  · rw [if_pos hk, if_neg hu, ← hk]
    exact ⟨rfl, h.2⟩
  · rw [if_neg hk]
    exact h

theorem State.FencedHold.of_units {s t : State} {k : Nat} {hold : Bool} (h : s.FencedHold k hold) (ht : t.units = s.units) :
    t.FencedHold k hold := by
  rw [State.FencedHold, State.unit_of_units ht]
  exact h

/-- A channel that management fences stays fenced as it is lost (R200). -/
theorem State.FencedHold.loseChannel {s : State} {k : Nat} {hold : Bool} (h : s.FencedHold k hold) (n : Nat) :
    (s.loseChannel n).FencedHold k hold := by
  unfold State.loseChannel
  extract_lets s₁ s₂
  split
  · have h₁ : s₁.FencedHold k hold :=
      h.of_units ((State.detect_only (hm := Nat.and_self _) (hk := .refl _ s) ..).units rfl)
    have h₂ : s₂.FencedHold k hold := h₁.of_units rfl
    have h₃ := (h₂.contain (u := ⟨.ddr, n⟩) UnitKind.noConfusion).contain (u := ⟨.engine, n⟩) UnitKind.noConfusion
    exact h₃.of_units ((State.closeWindow_only (hm := Nat.and_self _) (hk := .refl _ _) ..).units rfl)
  · exact h

/-- A legal change of a unit's permission is made, with its HOLD (R524, R526). -/
theorem State.setPermission_unit {s : State} {u : UnitName} {p : Perm} {hold : Bool} (hpresent : s.permWord u ≠ .absent)
    (hfree : p = .enabled → (s.modUnit u.code (fun w => { w with hold := hold })).withheld u = false) :
    ((s.setPermission u p hold).2.unit u.code).perm = p ∧ ((s.setPermission u p hold).2.unit u.code).hold = hold := by
  unfold State.setPermission
  extract_lets s₁ old denied s₂ s₃ s₄
  have hold₁ : old = s.permWord u := State.permWord_modUnit (f := fun w => { w with hold := hold }) (fun _ => rfl) u
  have hdenied : denied = false := by
    have hold₂ : (old == .absent) = false := by
      rw [hold₁]
      exact beq_eq_false_iff_ne.2 hpresent
    by_cases hp : p = .enabled
    · simp [denied, hold₂, s₁, hfree hp]
    · simp [denied, hold₂, hp]
  have hunit : s₂.unit u.code = { s.unit u.code with perm := p, hold := hold } := by
    simp [s₂, s₁, State.unit_modUnit]
  have h₄ : (s₄.unit u.code) = s₃.unit u.code :=
    State.unit_of_units ((State.log_only (hm := Nat.and_self _) (hk := .refl _ s₃) ..).units rfl) _
  have h₃ : (s₃.unit u.code).perm = p ∧ (s₃.unit u.code).hold = hold := by
    have hs₃ : s₃ = if u.kind = .ddr ∧ p = .fenced then s₂.loseChannel u.index else s₂ := by
      simp only [s₃, hdenied]
      rfl
    rw [hs₃]
    split
    next hddr =>
      obtain ⟨-, rfl⟩ := hddr
      exact State.FencedHold.loseChannel (s := s₂) (by rw [State.FencedHold, hunit]; exact ⟨rfl, rfl⟩) u.index
    · rw [hunit]
      exact ⟨rfl, rfl⟩
  dsimp only
  rw [h₄]
  exact h₃

/-! ### Served requests -/

theorem execSetPermission_served {s : State} {b w : Nat} {body : List Byte} {u : UnitName} {p : Perm} (h : Served s b w)
    (hlen : body.length = 4) (hu : unitOf (leAt body 0 2) = some u) (hp : permOf (leAt body 2 1) = some p)
    (hoff : p = .powerOff → u.kind = .cluster) (hpresent : s.permWord u ≠ .absent)
    (hfree : p = .enabled → (s.modUnit u.code (fun w => { w with hold := bit (leAt body 3 1) 0 })).withheld u = false) :
    Answers (execSetPermission b w body s) (fun t => (t.unit u.code).perm = p ∧ (t.unit u.code).hold = bit (leAt body 3 1) 0) := by
  rw [execSetPermission, State.vendor_served _ _ h hlen, hu, hp]
  dsimp only
  rw [if_neg (fun hbad => hbad.2 (hoff hbad.1))]
  exact Answers.next (State.setPermission_unit hpresent hfree)

theorem execSetEndpointId_served {s : State} {b w : Nat} (eid : Nat) (hruns : s.bucelRuns = true) (hb : b < 3) (hw : w < 4) :
    Answers (execSetEndpointId b w eid s) (fun t => t.mgmt.eid = eid % 256 ∧ t.out = s.out ++ [.response b ansEndpoint 0 []]) := by
  have hhalt : s.sec.halt = false := by
    have := hruns
    simp only [State.bucelRuns, Bool.and_eq_true, Bool.not_eq_true'] at this
    exact this.1.2
  rw [execSetEndpointId, if_neg (by rw [hhalt]; exact Bool.false_ne_true), if_neg (fun hno => hno.elim (· hruns) (by omega)), if_neg (by omega)]
  exact Answers.next ⟨rfl, rfl⟩

theorem execSetPowerLimit_served {s : State} {b w : Nat} {body : List Byte} (h : Served s b w) (hlen : body.length = 2)
    (hmin : 300 ≤ leAt body 0 2) (hmax : leAt body 0 2 ≤ 2000) :
    Answers (execSetPowerLimit b w body s) (fun t => t.pwr.boardW = leAt body 0 2 ∧ Logged s t .powerLimitSet (srcBlock 6)) := by
  rw [execSetPowerLimit, State.vendor_served _ _ h hlen]
  dsimp only
  rw [if_neg (by omega)]
  refine Answers.next ⟨?_, ?_⟩
  · exact congrArg Power.boardW ((State.log_only (hm := Nat.and_self _) (hk := .refl _ _) ..).pwr rfl)
  · exact (Logged.log (s.modPwr (fun p => { p with boardW := leAt body 0 2 })) .powerLimitSet (srcBlock 6) []
      (show Severity.info.code < 3 by decide)).before rfl

theorem execSetPurseDepth_served {s : State} {b w : Nat} {body : List Byte} (h : Served s b w) (hlen : body.length = 8)
    (hc : leAt body 0 1 ≤ 7) (hmin : 1000 ≤ leAt body 4 4) (hmax : leAt body 4 4 ≤ 100000) :
    Answers (execSetPurseDepth b w body s) (fun t => (t.cluster (leAt body 0 1)).purse.depth = leAt body 4 4) := by
  rw [execSetPurseDepth, State.vendor_served _ _ h hlen]
  dsimp only
  rw [if_neg (by omega)]
  refine Answers.next ?_
  have hset : (s.modPurse (leAt body 0 1) (fun u => { u with depth := leAt body 4 4 })).cluster (leAt body 0 1) =
      { s.cluster (leAt body 0 1) with purse := { (s.cluster (leAt body 0 1)).purse with depth := leAt body 4 4 } } := by
    rw [State.modPurse, State.cluster_modCluster, if_pos rfl]
  exact congrArg (·.purse.depth) hset

/-- Settles O52: each request is served and its setting is what the state then holds. -/
theorem managementSettings : Obligations.ManagementSettings := by
  unfold Obligations.ManagementSettings
  refine ⟨fun b w eid s => execSetEndpointId_served eid, fun addr s => Answers.next ⟨rfl, rfl⟩, fun b w body s u p => execSetPermission_served,
    fun b w body s => execSetPowerLimit_served, fun b w body s => execSetPurseDepth_served, fun b w mask s h => ?_⟩
  refine Answers.next ?_
  rw [State.request_served _ h]
  exact ⟨rfl, rfl⟩

end Sys2Proof.Machine
end

