-- ==== Sys2Proof/Proofs/ManagementFrames.lean ====
section
/-!
PROOFS. What the Day Book, the Life Ledger and the passing of time leave of the controller's settings
(17_management_and_life_ledger.md).
-/
set_option autoImplicit false
namespace Sys2Proof.Machine

/-- What the controller keeps besides its totals, the records it dropped and the events it sends. -/
def Mgmt.settings (m : Mgmt) : Mgmt := { m with totals := [], ledgerDropped := 0, pldmEvents := [] }

/-- The controller's settings are the same in t as in s. -/
def SameMgmt (s t : State) : Prop := t.mgmt.settings = s.mgmt.settings

namespace SameMgmt

variable {s t u : State}

theorem refl (s : State) : SameMgmt s s := rfl
theorem trans (h : SameMgmt s t) (k : SameMgmt t u) : SameMgmt s u := Eq.trans k h

/-- The mask has every bit but that of the field. -/
theorem only (h : Only 8053063679 t u) (hk : SameMgmt s t) : SameMgmt s u := by
  rw [SameMgmt, h.mgmt (by decide)]
  exact hk

theorem ite {c : Prop} [Decidable c] (h : SameMgmt s t) (k : SameMgmt s u) : SameMgmt s (if c then t else u) := by
  split
  · exact h
  · exact k

theorem ite2 {α : Type} {c : Prop} [Decidable c] {p q : α × State} (h : SameMgmt s p.2) (k : SameMgmt s q.2) :
    SameMgmt s (if c then p else q).2 := by
  split
  · exact h
  · exact k

theorem pair {α : Type} {p : α × State} {a : α} (h : p = (a, t)) (hp : SameMgmt s p.2) : SameMgmt s t := by
  subst h
  exact hp

theorem foldl {α : Type} {f : State → α → State} {l : List α} (h : ∀ t x, SameMgmt s t → SameMgmt s (f t x))
    (h0 : SameMgmt s t) : SameMgmt s (l.foldl f t) := by
  induction l generalizing t with
  | nil => exact h0
  | cons x l ih => exact ih (h _ _ h0)

theorem set_ledger (ledger : Ledger) (h : SameMgmt s t) : SameMgmt s { t with ledger := ledger } := h
theorem set_aoNs (aoNs : Nat) (h : SameMgmt s t) : SameMgmt s { t with aoNs := aoNs } := h

theorem updating (h : SameMgmt s t) : t.mgmt.updating = s.mgmt.updating := congrArg (·.updating) h
theorem bucelDown (h : SameMgmt s t) : t.mgmt.bucelDown = s.mgmt.bucelDown := congrArg (·.bucelDown) h
theorem skipped (h : SameMgmt s t) : t.mgmt.skipped = s.mgmt.skipped := congrArg (·.skipped) h
theorem stmtSeq (h : SameMgmt s t) : t.mgmt.stmtSeq = s.mgmt.stmtSeq := congrArg (·.stmtSeq) h
theorem lastDue (h : SameMgmt s t) : t.mgmt.lastDue = s.mgmt.lastDue := congrArg (·.lastDue) h

end SameMgmt

theorem State.modMgmt_sameMgmt {s₀ : State} (s : State) (f : Mgmt → Mgmt) (hf : ∀ m, (f m).settings = m.settings)
    (hk : SameMgmt s₀ s) : SameMgmt s₀ (s.modMgmt f) := (hf s.mgmt).trans hk

theorem State.total_sameMgmt {s₀ : State} (s : State) (i n : Nat) (hk : SameMgmt s₀ s) : SameMgmt s₀ (s.total i n) := hk

/-! ### Operations that leave the controller alone -/

theorem State.emit_sameMgmt {s₀ : State} (s : State) (o : Out)
    (hk : SameMgmt s₀ s) : SameMgmt s₀ (State.emit s o) :=
  .only (State.emit_only (hm := by decide) (hk := .refl _ _) ..) hk

theorem State.modErr_sameMgmt {s₀ : State} (s : State) (f : Errors → Errors)
    (hk : SameMgmt s₀ s) : SameMgmt s₀ (State.modErr s f) :=
  .only (State.modErr_only (hm := by decide) (hk := .refl _ _) ..) hk

theorem State.eventRing_sameMgmt {s₀ : State} (s : State) (e : Event)
    (hk : SameMgmt s₀ s) : SameMgmt s₀ (State.eventRing s e) :=
  .only (State.eventRing_only (hm := by decide) (hk := .refl _ _) ..) hk

theorem State.ledgerPut_sameMgmt {s₀ : State} (s : State) (kind : Nat) (payload : List Byte) (off : Nat) (live : Bool)
    (hk : SameMgmt s₀ s) : SameMgmt s₀ (State.ledgerPut s kind payload off live) :=
  .only (State.ledgerPut_only (hm := by decide) (hk := .refl _ _) ..) hk

theorem State.injection_sameMgmt {s₀ : State} (s : State) (c : EventClass) (unit : Nat)
    (hk : SameMgmt s₀ s) : SameMgmt s₀ (State.injection s c unit).2 :=
  .only (State.injection_only (hm := by decide) (hk := .refl _ _) ..) hk

theorem State.stmtRing_sameMgmt {s₀ : State} (s : State) (b : List Byte)
    (hk : SameMgmt s₀ s) : SameMgmt s₀ (State.stmtRing s b) :=
  .only (State.stmtRing_only (hm := by decide) (hk := .refl _ _) ..) hk

theorem State.setSlot_sameMgmt {s₀ : State} (s : State) (i : Nat) (v : List Byte)
    (hk : SameMgmt s₀ s) : SameMgmt s₀ (State.setSlot s i v) :=
  .only (State.setSlot_only (hm := by decide) (hk := .refl _ _) ..) hk

/-! ### Entries, records and time -/

theorem State.pldmEvent_sameMgmt {s₀ : State} (s : State) (e : Event)
    (hk : SameMgmt s₀ s) : SameMgmt s₀ (State.pldmEvent s e) := by
  unfold State.pldmEvent
  repeat' (first
    | with_reducible assumption
    | with_reducible refine State.modMgmt_sameMgmt (hf := fun _ => rfl) (hk := ?_) ..
    | with_reducible refine State.emit_sameMgmt (hk := ?_) ..
    | with_reducible refine SameMgmt.ite ?_ ?_
    | split)

theorem State.logEntry_sameMgmt {s₀ : State} (s : State) (c : EventClass) (source : Nat) (data : List Byte) (sev : Severity) (nested injected : Bool)
    (hk : SameMgmt s₀ s) : SameMgmt s₀ (State.logEntry s c source data sev nested injected) := by
  unfold State.logEntry
  repeat' (first
    | with_reducible assumption
    | with_reducible refine State.modErr_sameMgmt (hk := ?_) ..
    | with_reducible refine State.pldmEvent_sameMgmt (hk := ?_) ..
    | with_reducible refine State.eventRing_sameMgmt (hk := ?_) ..
    | split
    | dsimp only)

theorem State.ledgerDrop_sameMgmt {s₀ : State} (s : State)
    (hk : SameMgmt s₀ s) : SameMgmt s₀ (State.ledgerDrop s) := by
  unfold State.ledgerDrop
  repeat' (first
    | with_reducible assumption
    | with_reducible refine State.modMgmt_sameMgmt (hf := fun _ => rfl) (hk := ?_) ..
    | split
    | with_reducible refine SameMgmt.set_ledger (h := ?_) ..
    | dsimp only)

theorem State.ledgerNoRoom_sameMgmt {s₀ : State} (s : State) (kind : Nat)
    (hk : SameMgmt s₀ s) : SameMgmt s₀ (State.ledgerNoRoom s kind) := by
  unfold State.ledgerNoRoom
  repeat' (first
    | with_reducible assumption
    | with_reducible refine State.logEntry_sameMgmt (hk := ?_) ..
    | with_reducible refine State.ledgerDrop_sameMgmt (hk := ?_) ..
    | with_reducible refine SameMgmt.ite ?_ ?_
    | with_reducible refine SameMgmt.set_ledger (h := ?_) ..
    | dsimp only)

theorem State.ledgerRetry_sameMgmt {s₀ : State} (s : State) (kind : Nat) (payload : List Byte) (injected : Bool) (arr0 : Nat)
    (hk : SameMgmt s₀ s) : SameMgmt s₀ (s.ledgerRetry kind payload injected arr0) := by
  induction arr0 generalizing s with
  | zero => exact hk
  | succ n ih =>
    unfold State.ledgerRetry
    split
    · exact hk
    · refine ih _ (State.logEntry_sameMgmt _ _ _ _ _ _ _ ?_)
      exact SameMgmt.set_ledger _ (State.ledgerPut_sameMgmt s kind payload _ false hk)

theorem State.ledgerWrite_sameMgmt {s₀ : State} (s : State) (kind : Nat) (payload : List Byte) (fails : Nat)
    (hk : SameMgmt s₀ s) : SameMgmt s₀ (State.ledgerWrite s kind payload fails) := by
  unfold State.ledgerWrite
  repeat' (first
    | with_reducible assumption
    | with_reducible refine State.ledgerPut_sameMgmt (hk := ?_) ..
    | with_reducible refine State.ledgerNoRoom_sameMgmt (hk := ?_) ..
    | with_reducible refine State.ledgerRetry_sameMgmt (hk := ?_) ..
    | with_reducible refine State.injection_sameMgmt (hk := ?_) ..
    | with_reducible refine SameMgmt.pair (by assumption) ?_
    | split
    | with_reducible refine SameMgmt.set_ledger (h := ?_) ..
    | dsimp only)

theorem State.ledgerAppend_sameMgmt {s₀ : State} (s : State) (kind : Nat) (payload : List Byte) (fails : Nat)
    (hk : SameMgmt s₀ s) : SameMgmt s₀ (State.ledgerAppend s kind payload fails) := by
  unfold State.ledgerAppend
  repeat' (first
    | with_reducible assumption
    | with_reducible refine State.ledgerDrop_sameMgmt (hk := ?_) ..
    | with_reducible refine State.ledgerWrite_sameMgmt (hk := ?_) ..
    | with_reducible refine SameMgmt.ite ?_ ?_
    | with_reducible refine SameMgmt.set_ledger (h := ?_) ..)

theorem State.logAs_sameMgmt {s₀ : State} (s : State) (c : EventClass) (source : Nat) (data : List Byte) (sev : Severity) (nested injected : Bool)
    (hk : SameMgmt s₀ s) : SameMgmt s₀ (State.logAs s c source data sev nested injected) := by
  unfold State.logAs
  repeat' (first
    | with_reducible assumption
    | with_reducible refine State.modMgmt_sameMgmt (hf := fun _ => rfl) (hk := ?_) ..
    | with_reducible refine State.logEntry_sameMgmt (hk := ?_) ..
    | with_reducible refine State.ledgerAppend_sameMgmt (hk := ?_) ..
    | with_reducible refine SameMgmt.ite ?_ ?_
    | split
    | dsimp only)

theorem State.log_sameMgmt {s₀ : State} (s : State) (c : EventClass) (source : Nat) (data : List (Nat × Nat))
    (hk : SameMgmt s₀ s) : SameMgmt s₀ (State.log s c source data) := by
  unfold State.log
  repeat' (first
    | with_reducible assumption
    | with_reducible refine State.logAs_sameMgmt (hk := ?_) ..)

theorem State.detectWith_sameMgmt {s₀ : State} (s : State) (c : EventClass) (source : Nat) (data : List Byte)
    (hk : SameMgmt s₀ s) : SameMgmt s₀ (State.detectWith s c source data) := by
  unfold State.detectWith
  repeat' (first
    | with_reducible assumption
    | with_reducible refine State.modErr_sameMgmt (hk := ?_) ..
    | with_reducible refine State.injection_sameMgmt (hk := ?_) ..
    | with_reducible refine State.logAs_sameMgmt (hk := ?_) ..
    | with_reducible refine SameMgmt.ite ?_ ?_
    | split
    | dsimp only)

theorem State.detect_sameMgmt {s₀ : State} (s : State) (c : EventClass) (source : Nat) (data : List (Nat × Nat))
    (hk : SameMgmt s₀ s) : SameMgmt s₀ (State.detect s c source data) := by
  unfold State.detect
  repeat' (first
    | with_reducible assumption
    | with_reducible refine State.detectWith_sameMgmt (hk := ?_) ..)

theorem State.reach_sameMgmt {s₀ : State} (s : State) (t : Nat)
    (hk : SameMgmt s₀ s) : SameMgmt s₀ (State.reach s t) := by
  unfold State.reach
  repeat' (first
    | with_reducible assumption
    | with_reducible refine State.total_sameMgmt (hk := ?_) ..
    | with_reducible refine SameMgmt.ite ?_ ?_
    | split
    | with_reducible refine SameMgmt.set_aoNs (h := ?_) ..
    | dsimp only)

theorem State.atDevice_sameMgmt {s₀ : State} (s : State) (t : Nat)
    (hk : SameMgmt s₀ s) : SameMgmt s₀ (State.atDevice s t) := by
  unfold State.atDevice
  repeat' (first
    | with_reducible assumption
    | with_reducible refine State.reach_sameMgmt (hk := ?_) ..
    | dsimp only)

theorem State.reachLife_sameMgmt {s₀ : State} (s : State) (kind period : Nat)
    (hk : SameMgmt s₀ s) : SameMgmt s₀ (State.reachLife s kind period) := by
  unfold State.reachLife
  repeat' (first
    | with_reducible assumption
    | with_reducible refine State.reach_sameMgmt (hk := ?_) ..)

end Sys2Proof.Machine
end

