-- ==== Sys2Proof/Proofs/PlansAndUpdates.lean ====
section
/-!
PROOFS. Plans written and retired, sensors and platform events, and firmware updates (17_management_and_life_ledger.md).
-/
set_option autoImplicit false
namespace Sys2Proof.Machine

/-! ### Plans (R319, R320) -/

/-- What follows a change of the plan leaves the device's own settings: the time base, slot 6 and the ports. -/
theorem State.dev_reidentify (s : State) (v : List Byte) : ((s.placeTime.setSlot 6 v).reidentifyAll).dev = s.dev := by
  rw [(State.reidentifyAll_only (hm := Nat.and_self _) (hk := .refl _ _) ..).dev rfl]
  exact (State.placeTime_only (hm := Nat.and_self _) (hk := .refl _ _) ..).dev rfl

theorem State.dev_planSet (s : State) (p : List Byte) : (s.planSet p).dev.plan = some p ∧ (s.planSet p).dev.posState = 0 := by
  rw [State.planSet]
  rw [State.dev_reidentify]
  exact ⟨rfl, rfl⟩

theorem State.dev_planLeave (s : State) : s.planLeave.dev.plan = none ∧ s.planLeave.dev.posState = 1 := by
  rw [State.planLeave]
  rw [State.dev_reidentify]
  exact ⟨rfl, rfl⟩

@[simp] theorem State.dev_respond (s : State) (b code : Nat) (st : Status) (body : List Byte) : (s.respond b code st body).dev = s.dev := rfl

theorem execPlanWrite_stored {s : State} {b w : Nat} {body : List Byte} (h : Served s b w) (hlen : body.length = 64)
    (hrow : s.planWriteRow body = 6) :
    Answers (execPlanWrite b w body s) (fun t => t.dev.plan = some body ∧ t.dev.posState = 0) := by
  rw [execPlanWrite, State.vendor_served _ _ h hlen, hrow]
  refine Answers.next ?_
  rw [State.dev_respond]
  simp only
  exact s.dev_planSet body

theorem execPlanWrite_denied {s : State} {b w : Nat} {body : List Byte} (h : Served s b w) (hlen : body.length = 64)
    (hrow : s.planWriteRow body = 1 ∨ s.planWriteRow body = 5) : execPlanWrite b w body s = .next (s.respond b 9 .denied []) := by
  rw [execPlanWrite, State.vendor_served _ _ h hlen]
  obtain hrow | hrow := hrow <;> rw [hrow] <;> rfl

theorem execPlanRetire_removed {s : State} {b w : Nat} {body : List Byte} (h : Served s b w) (hlen : body.length = 32)
    (hmaint : s.maintenance = true) (hplan : s.dev.plan.isSome = true) (hhash : planHash s.dev.plan = body) :
    Answers (execPlanRetire b w body s) (fun t => t.dev.plan = none ∧ t.dev.posState = 1) := by
  rw [execPlanRetire, State.vendor_served _ _ h hlen, if_pos ⟨hmaint, hplan, hhash⟩]
  refine Answers.next ?_
  rw [State.dev_respond]
  simp only
  exact s.dev_planLeave

/-! ### Sensors and platform events (R519, R520) -/

theorem execGetSensorReading_read {s : State} {b w id v : Nat} (h : Served s b w) (hid : id < 5000) (hv : s.sensor id = some (some v))
    (hpresent : s.sensorAbsent id = false) (hstmt : s.mgmt.lastStmt ≠ []) :
    execGetSensorReading b w id s = .next (s.emit (.response b ansSensor 0 (0 :: leBytes 4 v))) := by
  rw [execGetSensorReading, State.request_served _ h, if_neg (by omega)]
  dsimp only
  rw [hv]
  dsimp only
  rw [if_neg (Bool.eq_false_iff.1 hpresent), if_neg hstmt]

/-- An event is sent once more, and the second time dropped (R520). -/
theorem execPlatformEventRetry_once {s : State} {i : Nat} {e : PldmEvent} (he : s.mgmt.pldmEvents[i]? = some e)
    (hup : s.mgmt.bucelDown = false) :
    Answers (execPlatformEventRetry i s) (fun t =>
      if e.resent then t.mgmt.pldmEvents = s.mgmt.pldmEvents.eraseIdx i ∧ t.out = s.out
      else t.out = s.out ++ [.platformEvent e.entry] ∧ t.mgmt.pldmEvents = lset s.mgmt.pldmEvents i { e with resent := true }) := by
  rw [execPlatformEventRetry, he]
  dsimp only
  rw [if_neg (Bool.eq_false_iff.1 hup)]
  by_cases hsent : e.resent = true
  · rw [if_pos hsent]
    refine Answers.next ?_
    rw [if_pos hsent]
    exact ⟨rfl, rfl⟩
  · rw [if_neg hsent]
    refine Answers.next ?_
    rw [if_neg hsent]
    exact ⟨rfl, rfl⟩

/-- Settles O53: the rows of R319 select what a request does, and nothing after a change of the plan touches it. -/
theorem planAndEvents : Obligations.PlanAndEvents := by
  unfold Obligations.PlanAndEvents
  exact ⟨fun b w body s => execPlanWrite_stored, fun b w body s => execPlanWrite_denied, fun b w body s => execPlanRetire_removed,
    fun b w id v s => execGetSensorReading_read, fun i e s => execPlatformEventRetry_once, fun i s => Answers.next rfl⟩

/-! ### Firmware updates (R521, R522, R545) -/

/-- Outside BOOT_HALT an update request is served as any other (R518, R521). -/
theorem State.updateRequest_served {s : State} {b w : Nat} (f : State → State) (h : Served s b w) (hrun : s.sec.halt = false) :
    s.updateRequest b w f = f s := by
  rw [State.updateRequest, if_neg (Bool.eq_false_iff.1 hrun), State.request_served _ h]

theorem execRequestUpdate_served {s : State} {b w cls : Nat} (h : Served s b w) (hrun : s.sec.halt = false) (hmin : 1 ≤ cls) (hmax : cls ≤ 4) :
    Answers (execRequestUpdate b w cls s) (fun t =>
      (s.mgmt.updating = none → t.mgmt.updating = some cls ∧ t.out = s.out ++ [.response b ansUpdate 0 []]) ∧
      (s.mgmt.updating.isSome = true → t = s.emit (.response b ansUpdate 0x81 []))) := by
  have hclass : s.updatable b cls = true := by rw [State.updatable, if_neg (Bool.eq_false_iff.1 hrun)]
  rw [execRequestUpdate, State.updateRequest_served _ h hrun, if_neg (fun hno => hno.elim (· ⟨hmin, hmax⟩) (· hclass))]
  cases hup : s.mgmt.updating with
  | none => exact Answers.next ⟨fun _ => ⟨rfl, rfl⟩, nofun⟩
  | some c => exact Answers.next ⟨nofun, fun _ => rfl⟩

/-- Logging leaves the flash. -/
theorem State.flash_log (s : State) (c : EventClass) (source : Nat) (data : List (Nat × Nat)) : (s.log c source data).flash = s.flash :=
  (State.log_only (hm := Nat.and_self _) (hk := .refl _ s) ..).flash rfl

/-- The image goes into the inactive copy with its verdict, and the update goes on only if it verifies (R521, R545). -/
theorem execVerifyComplete_served {s : State} {b w cls : Nat} {image : FwCopy} (h : Served s b w) (hrun : s.sec.halt = false)
    (hup : s.mgmt.updating = some cls) :
    Answers (execVerifyComplete b w image s) (fun t =>
      tget t.flash {} cls = (tget s.flash {} cls).put image (s.fwVerifies cls image) ∧
      t.mgmt.updating = if s.fwVerifies cls image then some cls else none) := by
  rw [execVerifyComplete, State.updateRequest_served _ h hrun, hup]
  dsimp only
  by_cases hok : s.fwVerifies cls image = true
  · rw [if_pos hok]
    refine Answers.next ⟨?_, ?_⟩
    · exact (tget_tset ..).trans (if_pos rfl)
    · rw [if_pos hok]
      exact hup
  · rw [if_neg hok, if_neg (by simp [hrun])]
    refine Answers.next ⟨?_, ?_⟩
    · exact (congrArg (fun fl : Tab FwClass => tget fl {} cls) (State.flash_log _ _ _ _)).trans ((tget_tset ..).trans (if_pos rfl))
    · rw [if_neg hok]
      exact (State.log_sameMgmt (hk := .refl _) ..).updating

/-- What the activation of class cls makes of the class (R522, R549). -/
def FwClass.activated (f : FwClass) (cls : Nat) : FwClass :=
  if cls = 2 then { f with activeB := !f.activeB, verified := false, nextCold := false } else { f with verified := false, nextCold := true }

/-- Outside BOOT_HALT an activation changes the flash of its class alone, and only if a copy verified. -/
theorem State.flash_activate {s : State} (hrun : s.sec.halt = false) (cls : Nat) :
    (s.activate cls).flash =
      if (tget s.flash {} cls).verified then tset s.flash {} cls ((tget s.flash {} cls).activated cls) else s.flash := by
  unfold State.activate
  extract_lets f x s₁ s₂
  by_cases hv : f.verified = true
  · have hflash : s₁.flash = s.flash := by
      simp only [s₁, hrun, Bool.false_eq_true, if_false]
      exact (State.ledgerAppend_only (hm := Nat.and_self _) (hk := .refl _ s) ..).flash rfl
    have hhalt : s₁.sec.halt = false := by
      simp only [s₁, hrun, Bool.false_eq_true, if_false]
      rw [(State.ledgerAppend_only (hm := Nat.and_self _) (hk := .refl _ s) ..).sec rfl, hrun]
    rw [if_neg (not_not_intro hv), if_pos hv, FwClass.activated]
    by_cases hcls : cls = 2
    · rw [if_pos ⟨hcls, by simp [hhalt]⟩, if_pos hcls]
      exact (State.flash_log _ _ _ _).trans (congrArg (fun fl : Tab FwClass => tset fl {} cls _) hflash)
    · rw [if_neg (fun hc => hcls hc.1), if_neg hcls]
      exact congrArg (fun fl : Tab FwClass => tset fl {} cls _) hflash
  · rw [if_pos hv, if_neg hv]

/-- No activation enters or leaves BOOT_HALT. -/
theorem State.halt_activate (s : State) (cls : Nat) : (s.activate cls).sec.halt = s.sec.halt := by
  unfold State.activate
  extract_lets f x s₁ s₂
  have hsec : s₁.sec = s.sec := by
    simp only [s₁]
    split
    · rfl
    · exact (State.ledgerAppend_only (hm := Nat.and_self _) (hk := .refl _ s) ..).sec rfl
  split
  · rfl
  · split
    · have hlog := (State.log_only (s₂.setSlot 2 (sha256 x.header)) .fwUpdateActivated (srcBlock 6) [] (hm := Nat.and_self _) (hk := .refl _ _)).sec rfl
      exact (congrArg Security.halt hlog).trans (show s₁.sec.halt = s.sec.halt from congrArg Security.halt hsec)
    · exact congrArg Security.halt hsec

/-- An activation leaves the update under way; that of the controller's own firmware, if a copy verified, restarts it (R522). -/
theorem State.mgmt_activate {s : State} (hrun : s.sec.halt = false) (cls : Nat) :
    (s.activate cls).mgmt.updating = s.mgmt.updating ∧
      (cls = 2 → (tget s.flash {} 2).verified = true → (s.activate cls).mgmt.bucelDown = true) := by
  unfold State.activate
  extract_lets f x s₁ s₂
  have hsame : SameMgmt s s₁ := by
    simp only [s₁, hrun, Bool.false_eq_true, if_false]
    exact State.ledgerAppend_sameMgmt (hk := .refl s) ..
  have hhalt : s₁.sec.halt = false := by
    simp only [s₁, hrun, Bool.false_eq_true, if_false]
    rw [(State.ledgerAppend_only (hm := Nat.and_self _) (hk := .refl _ s) ..).sec rfl, hrun]
  split
  next hv => exact ⟨rfl, fun hcls hver => absurd (by rw [← hver]; exact congrArg (fun i => (tget s.flash {} i).verified) hcls) hv⟩
  · split
    · have hlog : SameMgmt s₂ ((s₂.setSlot 2 (sha256 x.header)).log .fwUpdateActivated (srcBlock 6) []) :=
        State.log_sameMgmt (hk := rfl) ..
      exact ⟨hlog.updating.trans hsame.updating, fun _ _ => rfl⟩
    next hno => exact ⟨hsame.updating, fun hcls => absurd ⟨hcls, by simp [hhalt]⟩ hno⟩

theorem State.flash_activate_of_ne {s : State} (hrun : s.sec.halt = false) {cls k : Nat} (hk : k ≠ cls) :
    tget (s.activate cls).flash {} k = tget s.flash {} k := by
  rw [State.flash_activate hrun]
  split
  · rw [tget_tset, if_neg hk]
  · rfl

theorem State.flash_activate_verified {s : State} (hrun : s.sec.halt = false) {cls : Nat} (hv : (tget s.flash {} cls).verified = true) :
    tget (s.activate cls).flash {} cls = (tget s.flash {} cls).activated cls := by
  rw [State.flash_activate hrun, if_pos hv, tget_tset, if_pos rfl]

/-- ACTIVATE_FIRMWARE activates the classes in turn, the controller's own last (R522). -/
theorem execActivateFirmware_served {s : State} {b w : Nat} (h : Served s b w) (hrun : s.sec.halt = false) :
    Answers (execActivateFirmware b w s) (fun t => t.mgmt.updating = none ∧
      (∀ cls, cls = 1 ∨ cls = 3 ∨ cls = 4 → (tget s.flash {} cls).verified = true →
        (tget t.flash {} cls).nextCold = true ∧ (tget t.flash {} cls).activeB = (tget s.flash {} cls).activeB) ∧
      ((tget s.flash {} 2).verified = true → (tget t.flash {} 2).activeB = (!(tget s.flash {} 2).activeB) ∧ t.mgmt.bucelDown = true)) := by
  rw [execActivateFirmware, State.updateRequest_served _ h hrun]
  dsimp only [List.foldl]
  generalize hs₀ : State.emit _ _ = s₀
  have hup₀ : s₀.mgmt.updating = none := by rw [← hs₀]; rfl
  have hrun₀ : s₀.sec.halt = false := by rw [← hs₀]; exact hrun
  have hflash₀ : s₀.flash = s.flash := by rw [← hs₀]; rfl
  have hrun₁ : (s₀.activate 1).sec.halt = false := (State.halt_activate ..).trans hrun₀
  have hrun₃ : ((s₀.activate 1).activate 3).sec.halt = false := (State.halt_activate ..).trans hrun₁
  have hrun₄ : (((s₀.activate 1).activate 3).activate 4).sec.halt = false := (State.halt_activate ..).trans hrun₃
  have hother : ∀ k, k ≠ 1 → k ≠ 3 → k ≠ 4 → tget (((s₀.activate 1).activate 3).activate 4).flash {} k = tget s.flash {} k := by
    intro k h1 h3 h4
    rw [State.flash_activate_of_ne hrun₃ h4, State.flash_activate_of_ne hrun₁ h3, State.flash_activate_of_ne hrun₀ h1, hflash₀]
  refine Answers.next ⟨?_, ?_, ?_⟩
  · rw [(State.mgmt_activate hrun₄ 2).1, (State.mgmt_activate hrun₃ 4).1, (State.mgmt_activate hrun₁ 3).1, (State.mgmt_activate hrun₀ 1).1, hup₀]
  · have hcold : ∀ cls, cls = 1 ∨ cls = 3 ∨ cls = 4 → (tget s.flash {} cls).verified = true →
        tget ((((s₀.activate 1).activate 3).activate 4).activate 2).flash {} cls = (tget s.flash {} cls).activated cls := by
      rintro cls (rfl | rfl | rfl) hv
      · rw [State.flash_activate_of_ne hrun₄ (by decide), State.flash_activate_of_ne hrun₃ (by decide),
          State.flash_activate_of_ne hrun₁ (by decide), State.flash_activate_verified hrun₀ (by rwa [hflash₀]), hflash₀]
      · have hk := State.flash_activate_of_ne hrun₀ (show 3 ≠ 1 by decide)
        rw [State.flash_activate_of_ne hrun₄ (by decide), State.flash_activate_of_ne hrun₃ (by decide),
          State.flash_activate_verified hrun₁ (by rwa [hk, hflash₀]), hk, hflash₀]
      · have hk := (State.flash_activate_of_ne hrun₁ (show 4 ≠ 3 by decide)).trans (State.flash_activate_of_ne hrun₀ (show 4 ≠ 1 by decide))
        rw [State.flash_activate_of_ne hrun₄ (by decide), State.flash_activate_verified hrun₃ (by rwa [hk, hflash₀]), hk, hflash₀]
    intro cls hcls hv
    rw [hcold cls hcls hv, FwClass.activated, if_neg (by omega)]
    exact ⟨rfl, rfl⟩
  · intro hv
    have hk := hother 2 (by decide) (by decide) (by decide)
    rw [State.flash_activate_verified hrun₄ (by rwa [hk]), hk]
    exact ⟨rfl, (State.mgmt_activate hrun₄ 2).2 rfl (by rwa [hk])⟩

/-- Settles O54: the classes are activated one after another, each in its own copy, and the controller restarts last. -/
theorem firmwareUpdate : Obligations.FirmwareUpdate := by
  unfold Obligations.FirmwareUpdate
  exact ⟨fun b w cls s => execRequestUpdate_served, fun b w cls image s => execVerifyComplete_served, fun b w s => execActivateFirmware_served⟩

end Sys2Proof.Machine
end

