-- ==== Sys2Proof/Proofs/PeriodicRecords.lean ====
section
/-!
PROOFS. The statements and the ledger records that come at their times (17_management_and_life_ledger.md, R528, R535 to R539).
-/
set_option autoImplicit false
namespace Sys2Proof.Machine

/-- A statement counts itself and leaves what the next one is due from (R528, R529). -/
theorem State.mgmt_takeStmt (s : State) (onReq : Bool) :
    (s.takeStmt onReq).mgmt.stmtSeq = s.mgmt.stmtSeq + 1 ∧ (s.takeStmt onReq).mgmt.skipped = 0 ∧
      (s.takeStmt onReq).mgmt.lastDue = s.mgmt.lastDue := by
  have hstep : ∀ m : Mgmt, m.stepPeriod.stmtSeq = m.stmtSeq ∧ m.stepPeriod.skipped = m.skipped ∧ m.stepPeriod.lastDue = m.lastDue := by
    intro m
    rw [Mgmt.stepPeriod]
    split <;> exact ⟨rfl, rfl, rfl⟩
  unfold State.takeStmt
  extract_lets s₁ b s₂ s₃
  have hring : s₂.mgmt = s₁.mgmt := (State.stmtRing_only (hm := Nat.and_self _) (hk := .refl _ s₁) ..).mgmt rfl
  obtain ⟨hseq, hskip, hdue⟩ := hstep { s₂.mgmt with lastStmt := b, lastTaken := s₂.now, takenAo := s₂.aoNs, skipped := 0 }
  exact ⟨hseq.trans (congrArg (·.stmtSeq) hring), hskip, hdue.trans (congrArg (·.lastDue) hring)⟩

theorem execStatementTake_due {s : State} (hrun : s.sec.halt = false) (hstage : s.dev.stage ≠ 0) (hup : s.mgmt.bucelDown = false) :
    Answers (execStatementTake s) (fun t => t.mgmt.stmtSeq = s.mgmt.stmtSeq + 1 ∧ t.mgmt.skipped = 0 ∧
      t.mgmt.lastDue = (max s.mgmt.lastTaken s.mgmt.lastDue / (1000 * s.mgmt.periodUs) + 1) * (1000 * s.mgmt.periodUs) ∧ t.tel.span = []) := by
  unfold execStatementTake
  extract_lets m p due s₁
  have htime : SameMgmt s (s.atDevice due) := State.atDevice_sameMgmt (hk := .refl s) ..
  have hdown : s₁.mgmt.bucelDown = false := htime.bucelDown.trans hup
  rw [if_neg (by simp [hrun, hstage]), if_neg (Bool.eq_false_iff.1 hdown)]
  obtain ⟨hseq, hskip, hdue⟩ := s₁.mgmt_takeStmt false
  exact Answers.next ⟨hseq.trans (congrArg (· + 1) htime.stmtSeq), hskip, hdue, rfl⟩

/-- While the controller restarts a statement is only counted (R515, R528). -/
theorem execStatementTake_restarting {s : State} (hrun : s.sec.halt = false) (hstage : s.dev.stage ≠ 0) (hdown : s.mgmt.bucelDown = true) :
    Answers (execStatementTake s) (fun t => t.mgmt.stmtSeq = s.mgmt.stmtSeq ∧ t.mgmt.skipped = min (s.mgmt.skipped + 1) 0xFFFFFFFF) := by
  unfold execStatementTake
  extract_lets m p due s₁
  have htime : SameMgmt s (s.atDevice due) := State.atDevice_sameMgmt (hk := .refl s) ..
  rw [if_neg (by simp [hrun, hstage]), if_pos (show s₁.mgmt.bucelDown = true from htime.bucelDown.trans hdown)]
  exact Answers.next ⟨htime.stmtSeq, congrArg (fun n => min (n + 1) 0xFFFFFFFF) htime.skipped⟩

/-- A controller that runs appends one live record, chained to the head, where the region has room (R533, R534, R536). -/
theorem State.ledgerAppend_record {s : State} {kind o st : Nat} {payload : List Byte} (hup : s.mgmt.bucelDown = false)
    (harm : s.err.injArm = false) (hroom : s.ledger.place kind (96 + payload.length) s.ledger.offset = some (o, st)) :
    ∃ r : LedgerRecord, (s.ledgerAppend kind payload).ledger.records = s.ledger.records ++ [r] ∧ r.kind = kind ∧
      r.seq = s.ledger.nextSeq ∧ r.prev = s.ledger.headHash ∧ r.payload = payload ∧ r.off = o ∧ r.live = true := by
  have hinj : s.injection .ledgerWriteRetry (srcBlock 6) = (false, s) := by
    rw [State.injection, harm]
    rfl
  rw [State.ledgerAppend, if_neg (Bool.eq_false_iff.1 hup), State.ledgerWrite, hinj]
  simp only [State.ledgerRetry, Bool.false_eq_true, if_false, hroom]
  exact ⟨_, rfl, rfl, rfl, rfl, rfl, rfl, rfl⟩

theorem execLedgerCounters_record {s : State} {o st : Nat} (hrun : s.sec.halt = false) (hstage : s.dev.stage ≠ 0)
    (hup : s.mgmt.bucelDown = false) (harm : s.err.injArm = false)
    (hroom : s.ledger.place 5 (96 + (s.reachLife 5 3600).countersBytes.length) s.ledger.offset = some (o, st)) :
    Answers (execLedgerCounters 0 s) (fun t => ∃ r : LedgerRecord, t.ledger.records = s.ledger.records ++ [r] ∧ r.kind = 5 ∧
      r.seq = s.ledger.nextSeq ∧ r.prev = s.ledger.headHash ∧ r.payload = (s.reachLife 5 3600).countersBytes ∧ r.off = o ∧ r.live = true) := by
  have hreach := State.reachLife_only s 5 3600 (hm := Nat.and_self _) (hk := .refl _ s)
  have hledger : (s.reachLife 5 3600).ledger = s.ledger := hreach.ledger rfl
  rw [execLedgerCounters, if_neg (by simp [hrun, hstage])]
  refine Answers.next ?_
  rw [← hledger] at hroom ⊢
  exact State.ledgerAppend_record ((State.reachLife_sameMgmt (hk := .refl s) ..).bucelDown.trans hup)
    ((congrArg Errors.injArm (hreach.err rfl)).trans harm) hroom

/-- Settles O55: the passage of time up to a record's moment leaves the controller, the ledger and what an injection needs. -/
theorem periodicRecords : Obligations.PeriodicRecords := by
  unfold Obligations.PeriodicRecords
  refine ⟨fun s => execStatementTake_due, fun s => execStatementTake_restarting, fun s o st => execLedgerCounters_record,
    fun s fails hrun hstage => ?_⟩
  rw [show exec (.ledgerDaily fails) s = execLedgerDaily fails s from rfl, execLedgerDaily, if_neg (by simp [hrun, hstage])]
  exact Answers.next rfl

end Sys2Proof.Machine
end

