-- ==== Sys2Proof/Proofs/IdentityAndTokens.lean ====
section
/-!
PROOFS. Signatures of the identity key and the rights that tokens grant (18_security.md, R554 to R560).
-/
set_option autoImplicit false
namespace Sys2Proof.Machine

/-- Logging leaves the security block. -/
@[simp] theorem State.sec_log (s : State) (c : EventClass) (source : Nat) (data : List (Nat × Nat)) : (s.log c source data).sec = s.sec :=
  (State.log_only (hm := Nat.and_self _) (hk := .refl _ s) ..).sec rfl

/-- The passage of time leaves the security block. -/
@[simp] theorem State.sec_reach (s : State) (t : Nat) : (s.reach t).sec = s.sec :=
  (State.reach_only (hm := Nat.and_self _) (hk := .refl _ s) ..).sec rfl

theorem State.aoNs_reach (s : State) (t : Nat) : (s.reach t).aoNs = max s.aoNs t := by
  unfold State.reach
  dsimp only
  split <;> split <;> rfl

/-! ### Leaves and statements (R554 to R557) -/

/-- Signing that stops leaves the leaves and the requests that wait. -/
theorem State.sec_blockIdentity (s : State) : s.blockIdentity.sec = { s.sec with blocked := true, blockedLogged := true } := by
  unfold State.blockIdentity
  extract_lets logged s₁
  split
  · rfl
  · rw [State.sec_log]
    rfl

/-- A leaf far from the end of its batch is taken without a reservation (R555, R556). -/
theorem State.takeLeaf_within {s : State} (hfree : s.sec.blocked = false) (hbatch : s.sec.nextLeaf + 64 < s.sec.leafEnd)
    (hleft : s.sec.nextLeaf < leafCount) :
    s.takeLeaf = (some s.sec.nextLeaf,
      s.modSec (fun x => { x with nextLeaf := s.sec.nextLeaf + 1, treeReady := (s.sec.nextLeaf + 1) % bottomLeaves != 0 })) := by
  unfold State.takeLeaf
  extract_lets q first due s₁
  have hdue : due = false := decide_eq_false (fun h => absurd h.1 (by omega))
  rw [if_neg (by rw [hfree]; simp; omega), if_neg (by simp [hdue])]
  simp only [s₁, hdue, Bool.false_eq_true, if_false]
  rfl

theorem State.takeLeaf_blocked {s : State} (hblocked : s.sec.blocked = true) : s.takeLeaf = (none, s.blockIdentity) := by
  rw [State.takeLeaf, if_pos (Or.inl hblocked)]

/-- A request is signed or refused at once, and the requests that wait stay as they are. -/
theorem State.treeWait_takeLeaf (s : State) : s.takeLeaf.2.sec.treeWait = s.sec.treeWait := by
  unfold State.takeLeaf
  extract_lets q first due s₁
  have hsec : s₁.sec = s.sec := by
    simp only [s₁]
    split
    · exact (State.ledgerAppend_only (hm := Nat.and_self _) (hk := .refl _ s) ..).sec rfl
    · rfl
  split
  · dsimp only
    rw [State.sec_blockIdentity]
  · split
    · dsimp only
      rw [State.sec_blockIdentity, hsec]
    · dsimp only
      rw [State.modSec_sec, hsec]

theorem State.treeWait_attest (s : State) (b : Nat) (body : List Byte) : (s.attest b body).sec.treeWait = s.sec.treeWait := by
  rw [← s.treeWait_takeLeaf, State.attest]
  split <;> next h => rw [h]; rfl

theorem State.treeWait_attests (l : List (Nat × List Byte)) (s : State) :
    (l.foldl (fun s w => s.attest w.1 w.2) s).sec.treeWait = s.sec.treeWait := by
  induction l generalizing s with
  | nil => rfl
  | cons w l ih => exact (ih _).trans (s.treeWait_attest ..)

theorem execAttestGet_signed {s : State} {b w : Nat} {body : List Byte} (h : Served s b w) (hlen : body.length = 33)
    (hready : s.sec.treeReady = true) (hfree : s.sec.blocked = false) (hbatch : s.sec.nextLeaf + 64 < s.sec.leafEnd)
    (hleft : s.sec.nextLeaf < leafCount) :
    Answers (execAttestGet b w body s) (fun t => t.sec.nextLeaf = s.sec.nextLeaf + 1 ∧
      t.out = s.out ++ [vendorOut b 12 .ok (t.attestBytes (body.take 32) ++ Config.hssSign s.sec.nextLeaf (t.attestBytes (body.take 32)) ++
        if bit (leAt body 32 1) 0 then Config.identityCertificate else [])] ∧
      t.sec.treeReady = ((s.sec.nextLeaf + 1) % bottomLeaves != 0)) := by
  rw [execAttestGet, State.request_served _ h, if_neg (not_not_intro hlen), if_pos hready, State.attest,
    State.takeLeaf_within hfree hbatch hleft]
  exact Answers.next ⟨rfl, rfl, rfl⟩

theorem execAttestGet_denied {s : State} {b w : Nat} {body : List Byte} (h : Served s b w) (hlen : body.length = 33)
    (hready : s.sec.treeReady = true) (hblocked : s.sec.blocked = true) :
    Answers (execAttestGet b w body s) (fun t => t.sec.nextLeaf = s.sec.nextLeaf ∧
      ∃ before, t.out = before ++ [vendorOut b 12 .denied []]) := by
  rw [execAttestGet, State.request_served _ h, if_neg (not_not_intro hlen), if_pos hready, State.attest, State.takeLeaf_blocked hblocked]
  have hsec : (s.blockIdentity.respond b 12 .denied []).sec.nextLeaf = s.sec.nextLeaf := by
    rw [State.respond, State.emit_sec, State.sec_blockIdentity]
  exact Answers.next ⟨hsec, _, rfl⟩

theorem execAttestGet_waits {s : State} {b w : Nat} {body : List Byte} (h : Served s b w) (hlen : body.length = 33)
    (hready : s.sec.treeReady = false) :
    execAttestGet b w body s = .next (s.modSec (fun x => { x with treeWait := x.treeWait ++ [(b, body)] })) := by
  rw [execAttestGet, State.request_served _ h, if_neg (not_not_intro hlen), if_neg (Bool.eq_false_iff.1 hready)]

/-- Settles O56: away from a reservation a leaf is used once, and the requests that waited for the tree are all answered. -/
theorem attestation : Obligations.Attestation := by
  unfold Obligations.Attestation
  refine ⟨fun b w body s => execAttestGet_signed, fun b w body s => execAttestGet_denied, fun b w body s => execAttestGet_waits, fun s => ?_⟩
  refine Answers.next ⟨State.treeWait_attests .., fun hnone => ?_⟩
  rw [hnone]
  rfl

/-! ### Rights (R558 to R560) -/

/-- An event below CONTAINED leaves the injection registers. -/
theorem State.injArm_log {s : State} {c : EventClass} {source : Nat} {data : List (Nat × Nat)} (h : (severityOf c source).code < 3) :
    (s.log c source data).err.injArm = s.err.injArm := by
  rw [State.log, State.logAs_of_code_lt_three _ _ _ _ _ _ h, State.logEntry, State.pldmEvent_err, State.eventRing_err, State.modErr_err]

/-- MAINTENANCE ends, DEBUG stays (R560). -/
theorem State.sec_leaveMaintenance (s : State) : s.leaveMaintenance.sec = { s.sec with maintEnd := none } := by
  rw [State.leaveMaintenance]
  split
  · rw [State.sec_log]
    rfl
  next h =>
    have hnone : s.sec.maintEnd = none := Option.not_isSome_iff_eq_none.1 h
    rw [← hnone]

/-- The rights that a token asks for, for the seconds that it asks for (R559, R560). -/
theorem State.sec_grant (s : State) (t : List Byte) :
    (s.grant t).sec = { (s.extendSlot 8 (sha256 t)).sec with
      debugEnd := if bit (tokenRights t) 0 then some (s.aoNs + tokenSeconds t * second) else s.sec.debugEnd
      maintEnd := if bit (tokenRights t) 1 then some (s.aoNs + tokenSeconds t * second) else s.sec.maintEnd } := by
  unfold State.grant
  extract_lets till s₁ s₂
  have h₂ : s₂.sec = { s₁.sec with debugEnd := if bit (tokenRights t) 0 then some till else s.sec.debugEnd } := by
    simp only [s₂]
    split
    · rw [State.sec_log]
      rfl
    · rfl
  split
  · rw [State.sec_log]
    exact congrArg (fun x : Security => { x with maintEnd := some till }) h₂
  · exact h₂

theorem execChallenge_served {s : State} {b w : Nat} (h : Served s b w) :
    Answers (execChallenge b w s) (fun t => ∃ n : List Byte, n.length = 32 ∧ t.sec.nonce = some (n, s.aoNs + 300 * second) ∧
      t.out = s.out ++ [vendorOut b 13 .ok (n ++ leBytes 8 s.fuses.serial.toNat)]) := by
  rw [execChallenge, State.request_served _ h]
  exact Answers.next ⟨_, leBytes_length 32 _, rfl, rfl⟩

/-- The row of R559 decides what a token grants (R558, R559). -/
theorem execPresent_served {s : State} {b w till : Nat} {token key sig n : List Byte} (h : Served s b w) (htoken : token.length = 64)
    (hkey : key.length = 60) (hsig : ([sigBytes 1, sigBytes 2, sigBytes 3] : List Nat).contains sig.length = true)
    (hnonce : s.sec.nonce = some (n, till)) (htime : s.aoNs < till) :
    Answers (execPresent b w token key sig s) (fun t => t.sec.nonce = none ∧
      (∃ before, t.out = before ++ [vendorOut b 13 (tokenStatus (s.tokenRow (some n) token key sig)) []]) ∧
      (s.tokenRow (some n) token key sig = 6 →
        (bit (tokenRights token) 0 = true → t.sec.debugEnd = some (s.aoNs + tokenSeconds token * second)) ∧
        (bit (tokenRights token) 1 = true → t.sec.maintEnd = some (s.aoNs + tokenSeconds token * second))) ∧
      (s.tokenRow (some n) token key sig ≠ 6 → t.sec.debugEnd = s.sec.debugEnd ∧ t.sec.maintEnd = s.sec.maintEnd)) := by
  rw [execPresent, State.request_served _ h]
  have hlegal : ¬ (token.length ≠ 64 ∨ key.length ≠ 60 ∨ ¬ ([sigBytes 1, sigBytes 2, sigBytes 3] : List Nat).contains sig.length) := by
    simp only [not_or, Classical.not_not]
    exact ⟨htoken, hkey, hsig⟩
  rw [if_neg hlegal, hnonce]
  dsimp only
  rw [if_pos htime]
  have hrow : (s.modSec (fun x => { x with nonce := none })).tokenRow (some n) token key sig = s.tokenRow (some n) token key sig := rfl
  rw [hrow]
  by_cases h6 : s.tokenRow (some n) token key sig = 6
  · rw [if_pos h6]
    have hsec := (s.modSec (fun x => { x with nonce := none })).sec_grant token
    refine Answers.next ⟨?_, ⟨_, rfl⟩, fun _ => ⟨fun hd => ?_, fun hm => ?_⟩, fun hne => absurd h6 hne⟩
    · exact (congrArg Security.nonce hsec)
    · exact (congrArg Security.debugEnd hsec).trans (if_pos hd)
    · exact (congrArg Security.maintEnd hsec).trans (if_pos hm)
  · rw [if_neg h6]
    refine Answers.next ⟨?_, ⟨_, rfl⟩, fun h => absurd h h6, fun _ => ?_⟩
    · simp only [State.respond, State.emit_sec, State.sec_log, State.modSec_sec]
    · simp only [State.respond, State.emit_sec, State.sec_log, State.modSec_sec, and_self]

theorem execRelinquish_served {s : State} {b w : Nat} (h : Served s b w) :
    Answers (execRelinquish b w s) (fun t => t.sec.debugEnd = none ∧ t.sec.maintEnd = none) := by
  rw [execRelinquish, State.request_served _ h]
  have hsec := (s.modSec (fun x => { x with debugEnd := none })).sec_leaveMaintenance
  exact Answers.next ⟨congrArg Security.debugEnd hsec, congrArg Security.maintEnd hsec⟩

theorem execNonceExpiry_due {s : State} {n : List Byte} {till : Nat} (hnonce : s.sec.nonce = some (n, till)) :
    Answers (execNonceExpiry s) (fun t => t.sec.nonce = none ∧ t.aoNs = max s.aoNs till) := by
  rw [execNonceExpiry, hnonce]
  exact Answers.next ⟨rfl, s.aoNs_reach till⟩

theorem execRightExpiry_debug {s : State} {till : Nat} (hend : s.sec.debugEnd = some till) :
    Answers (execRightExpiry false s) (fun t => t.sec.debugEnd = none ∧ t.sec.maintEnd = s.sec.maintEnd ∧ t.aoNs = max s.aoNs till) := by
  rw [execRightExpiry, if_neg Bool.false_ne_true, hend]
  exact Answers.next ⟨rfl, by rw [State.modSec_sec, State.sec_reach], s.aoNs_reach till⟩

/-- The end of MAINTENANCE disarms an injection and is logged (R506, R560). -/
theorem execRightExpiry_maintenance {s : State} {till : Nat} (hend : s.sec.maintEnd = some till) :
    Answers (execRightExpiry true s) (fun t => t.sec.maintEnd = none ∧ t.sec.debugEnd = s.sec.debugEnd ∧ t.err.injArm = false ∧
      Logged s t .maintenanceLeft (srcBlock 5)) := by
  rw [execRightExpiry, if_pos rfl, hend]
  have hsec := (s.reach till).sec_leaveMaintenance
  have herr : (s.reach till).err = s.err := (State.reach_only (hm := Nat.and_self _) (hk := .refl _ s) ..).err rfl
  refine Answers.next ⟨congrArg Security.maintEnd hsec, ?_, ?_, ?_⟩
  · rw [hsec, State.sec_reach]
  all_goals rw [State.leaveMaintenance, if_pos (by rw [State.sec_reach, hend]; rfl)]
  · exact State.injArm_log (show Severity.info.code < 3 by decide)
  · refine Logged.before (Logged.log _ .maintenanceLeft (srcBlock 5) [] (show Severity.info.code < 3 by decide)) ?_
    rw [State.modErr_err, State.modSec_err, herr]

/-- Settles O57: what each command leaves of the nonce and of the two rights. -/
theorem tokens : Obligations.Tokens := by
  unfold Obligations.Tokens
  exact ⟨fun b w s => execChallenge_served, fun b w token key sig n till s => execPresent_served, fun b w s => execRelinquish_served,
    fun n till s => execNonceExpiry_due, fun till s => execRightExpiry_debug, fun till s => execRightExpiry_maintenance⟩

end Sys2Proof.Machine
end

