-- ==== Sys2Proof/Proofs/LocksHeld.lean ====
section
/-!
PROOFS. No operation but a reset of the device takes back a lock bit or leaves the fatal state (00_scope.md, Access codes;
21_register_map.md, Access rules; R11, R497, R601).
-/
set_option autoImplicit false
namespace Sys2Proof.Machine

/-- Every lock bit that is set in s is set in t, and if s is fatal, so is t. -/
structure Held (s t : State) : Prop where
  dram : s.dram.lock ≤ t.dram.lock
  link : s.dev.lnkLock ≤ t.dev.lnkLock
  power : s.pwr.lock ≤ t.pwr.lock
  error : s.err.lock ≤ t.err.lock
  fatal : s.err.fatal ≤ t.err.fatal
  security : s.sec.lock ≤ t.sec.lock

namespace Held

variable {s t u : State}

theorem kept {b : Bool} : b ≤ b := Bool.le_refl b

/-- A bit that a write can only set. -/
theorem or_left (a b : Bool) : a ≤ (a || b) := fun h => by rw [h, Bool.true_or]

theorem refl (s : State) : Held s s := ⟨kept, kept, kept, kept, kept, kept⟩

theorem trans (h : Held s t) (k : Held t u) : Held s u :=
  ⟨Bool.le_trans h.dram k.dram, Bool.le_trans h.link k.link, Bool.le_trans h.power k.power, Bool.le_trans h.error k.error, Bool.le_trans h.fatal k.fatal,
    Bool.le_trans h.security k.security⟩

/-- The mask has every bit but those of the five parts that hold a lock. -/
theorem only (h : Only 6307183871 t u) (hk : Held s t) : Held s u :=
  hk.trans ⟨Bool.le_of_eq (congrArg Dram.lock (h.dram rfl)).symm, Bool.le_of_eq (congrArg Device.lnkLock (h.dev rfl)).symm, Bool.le_of_eq (congrArg Power.lock (h.pwr rfl)).symm,
    Bool.le_of_eq (congrArg Errors.lock (h.err rfl)).symm, Bool.le_of_eq (congrArg Errors.fatal (h.err rfl)).symm, Bool.le_of_eq (congrArg Security.lock (h.sec rfl)).symm⟩

theorem ite {c : Prop} [Decidable c] (h : Held s t) (k : Held s u) : Held s (if c then t else u) := by
  split
  · exact h
  · exact k

theorem ite2 {α : Type} {c : Prop} [Decidable c] {p q : α × State} (h : Held s p.2) (k : Held s q.2) : Held s (if c then p else q).2 := by
  split
  · exact h
  · exact k

theorem pair {α : Type} {p : α × State} {a : α} (h : p = (a, t)) (hp : Held s p.2) : Held s t := by
  subst h
  exact hp

theorem foldl {α : Type} {f : State → α → State} {l : List α} (h : ∀ t x, Held s t → Held s (f t x)) (h0 : Held s t) :
    Held s (l.foldl f t) := by
  induction l generalizing t with
  | nil => exact h0
  | cons x l ih => exact ih (h _ _ h0)

theorem ite3 {α β : Type} {c : Prop} [Decidable c] {p q : α × β × State} (h : Held s p.2.2) (k : Held s q.2.2) :
    Held s (if c then p else q).2.2 := by
  split
  · exact h
  · exact k

theorem triple {α β : Type} {p : α × β × State} {a : α} {b : β} (h : p = (a, b, t)) (hp : Held s p.2.2) : Held s t := by
  subst h
  exact hp

theorem foldl2 {α β : Type} {f : β × State → α → β × State} {l : List α} {a : β × State} (h : ∀ a x, Held s a.2 → Held s (f a x).2)
    (h0 : Held s a.2) : Held s (l.foldl f a).2 := by
  induction l generalizing a with
  | nil => exact h0
  | cons x l ih => exact ih (h _ _ h0)

theorem foldl3 {α β γ : Type} {f : β × γ × State → α → β × γ × State} {l : List α} {a : β × γ × State}
    (h : ∀ a x, Held s a.2.2 → Held s (f a x).2.2) (h0 : Held s a.2.2) : Held s (l.foldl f a).2.2 := by
  induction l generalizing a with
  | nil => exact h0
  | cons x l ih => exact ih (h _ _ h0)

theorem set_devOff (devOff : Int) (h : Held s t) : Held s { t with devOff := devOff } :=
  h.trans ⟨kept, kept, kept, kept, kept, kept⟩
theorem set_fuses (fuses : Fuses) (h : Held s t) : Held s { t with fuses := fuses } :=
  h.trans ⟨kept, kept, kept, kept, kept, kept⟩
theorem set_flash (flash : Tab FwClass) (h : Held s t) : Held s { t with flash := flash } :=
  h.trans ⟨kept, kept, kept, kept, kept, kept⟩
theorem set_ledger (ledger : Ledger) (h : Held s t) : Held s { t with ledger := ledger } :=
  h.trans ⟨kept, kept, kept, kept, kept, kept⟩
theorem set_job (job : Job) (h : Held s t) : Held s { t with job := job } :=
  h.trans ⟨kept, kept, kept, kept, kept, kept⟩
theorem set_units (units : Tab UnitWords) (h : Held s t) : Held s { t with units := units } :=
  h.trans ⟨kept, kept, kept, kept, kept, kept⟩
theorem set_hwm (hwm : Tab Nat) (h : Held s t) : Held s { t with hwm := hwm } :=
  h.trans ⟨kept, kept, kept, kept, kept, kept⟩
theorem set_mem (mem : Memory) (h : Held s t) : Held s { t with mem := mem } :=
  h.trans ⟨kept, kept, kept, kept, kept, kept⟩
theorem set_dram (dram : Dram) (hd : t.dram.lock ≤ dram.lock) (h : Held s t) : Held s { t with dram := dram } :=
  h.trans ⟨hd, kept, kept, kept, kept, kept⟩
theorem set_rails (rails : Rails) (h : Held s t) : Held s { t with rails := rails } :=
  h.trans ⟨kept, kept, kept, kept, kept, kept⟩
theorem set_tel (tel : Telemetry) (h : Held s t) : Held s { t with tel := tel } :=
  h.trans ⟨kept, kept, kept, kept, kept, kept⟩
theorem set_latches (latches : Tab Nat) (h : Held s t) : Held s { t with latches := latches } :=
  h.trans ⟨kept, kept, kept, kept, kept, kept⟩
theorem set_preempt_preempts (preempt : Bool) (preempts : List Desc) (h : Held s t) : Held s { t with preempt := preempt, preempts := preempts } :=
  h.trans ⟨kept, kept, kept, kept, kept, kept⟩
theorem set_job_saved_preempt_settle_dec (job : Job) (saved : Option SavedContext) (preempt : Bool) (settle : Settle) (dec : Decision) (h : Held s t) : Held s { t with job := job, saved := saved, preempt := preempt, settle := settle, dec := dec } :=
  h.trans ⟨kept, kept, kept, kept, kept, kept⟩
theorem set_saved_hwm_mem_settle_dec (saved : Option SavedContext) (hwm : Tab Nat) (mem : Memory) (settle : Settle) (dec : Decision) (h : Held s t) : Held s { t with saved := saved, hwm := hwm, mem := mem, settle := settle, dec := dec } :=
  h.trans ⟨kept, kept, kept, kept, kept, kept⟩
theorem set_host_preempts (host : HostIf) (preempts : List Desc) (h : Held s t) : Held s { t with host := host, preempts := preempts } :=
  h.trans ⟨kept, kept, kept, kept, kept, kept⟩

end Held

theorem State.modDev_held {s₀ : State} (s : State) (f : Device → Device) (hf : ∀ d, d.lnkLock ≤ (f d).lnkLock) (hk : Held s₀ s) :
    Held s₀ (s.modDev f) := hk.trans ⟨Held.kept, hf _, Held.kept, Held.kept, Held.kept, Held.kept⟩

theorem State.modErr_held {s₀ : State} (s : State) (f : Errors → Errors) (hf : ∀ e, e.lock ≤ (f e).lock ∧ e.fatal ≤ (f e).fatal)
    (hk : Held s₀ s) : Held s₀ (s.modErr f) := hk.trans ⟨Held.kept, Held.kept, Held.kept, (hf _).1, (hf _).2, Held.kept⟩

theorem State.modPwr_held {s₀ : State} (s : State) (f : Power → Power) (hf : ∀ p, p.lock ≤ (f p).lock) (hk : Held s₀ s) :
    Held s₀ (s.modPwr f) := hk.trans ⟨Held.kept, Held.kept, hf _, Held.kept, Held.kept, Held.kept⟩

theorem State.modSec_held {s₀ : State} (s : State) (f : Security → Security) (hf : ∀ x, x.lock ≤ (f x).lock) (hk : Held s₀ s) :
    Held s₀ (s.modSec f) := hk.trans ⟨Held.kept, Held.kept, Held.kept, Held.kept, Held.kept, hf _⟩

/-! ### Operations that leave the locks alone -/

theorem State.pldmEvent_held {s₀ : State} (s : State) (e : Event)
    (hk : Held s₀ s) : Held s₀ (State.pldmEvent s e) :=
  .only (State.pldmEvent_only (hm := by decide) (hk := .refl _ _) ..) hk

theorem State.eventRing_held {s₀ : State} (s : State) (e : Event)
    (hk : Held s₀ s) : Held s₀ (State.eventRing s e) :=
  .only (State.eventRing_only (hm := by decide) (hk := .refl _ _) ..) hk

theorem State.ledgerDrop_held {s₀ : State} (s : State)
    (hk : Held s₀ s) : Held s₀ (State.ledgerDrop s) :=
  .only (State.ledgerDrop_only (hm := by decide) (hk := .refl _ _) ..) hk

theorem State.ledgerPut_held {s₀ : State} (s : State) (kind : Nat) (payload : List Byte) (off : Nat) (live : Bool)
    (hk : Held s₀ s) : Held s₀ (State.ledgerPut s kind payload off live) :=
  .only (State.ledgerPut_only (hm := by decide) (hk := .refl _ _) ..) hk

theorem State.modMgmt_held {s₀ : State} (s : State) (f : Mgmt → Mgmt)
    (hk : Held s₀ s) : Held s₀ (State.modMgmt s f) :=
  .only (State.modMgmt_only (hm := by decide) (hk := .refl _ _) ..) hk

theorem State.modSeq_held {s₀ : State} (s : State) (c : Nat) (f : Sequencer → Sequencer)
    (hk : Held s₀ s) : Held s₀ (State.modSeq s c f) :=
  .only (State.modSeq_only (hm := by decide) (hk := .refl _ _) ..) hk

theorem State.advance_held {s₀ : State} (s : State) (c dt : Nat)
    (hk : Held s₀ s) : Held s₀ (State.advance s c dt) :=
  .only (State.advance_only (hm := by decide) (hk := .refl _ _) ..) hk

theorem State.modRtr_held {s₀ : State} (s : State) (f : Router → Router)
    (hk : Held s₀ s) : Held s₀ (State.modRtr s f) :=
  .only (State.modRtr_only (hm := by decide) (hk := .refl _ _) ..) hk

theorem State.moved_held {s₀ : State} (s : State)
    (hk : Held s₀ s) : Held s₀ (State.moved s) :=
  .only (State.moved_only (hm := by decide) (hk := .refl _ _) ..) hk

theorem State.enqueue_held {s₀ : State} (s : State) (n : Nat) (q : Queued)
    (hk : Held s₀ s) : Held s₀ (State.enqueue s n q) :=
  .only (State.enqueue_only (hm := by decide) (hk := .refl _ _) ..) hk

theorem State.modCluster_held {s₀ : State} (s : State) (c : Nat) (f : Cluster → Cluster)
    (hk : Held s₀ s) : Held s₀ (State.modCluster s c f) :=
  .only (State.modCluster_only (hm := by decide) (hk := .refl _ _) ..) hk

theorem State.toRequester_held {s₀ : State} (s : State) (c : Nat) (who : Requester) (via : Via) (r : CoinResult)
    (hk : Held s₀ s) : Held s₀ (State.toRequester s c who via r) :=
  .only (State.toRequester_only (hm := by decide) (hk := .refl _ _) ..) hk

theorem State.modQueue_held {s₀ : State} (s : State) (c q : Nat) (f : Queue → Queue)
    (hk : Held s₀ s) : Held s₀ (State.modQueue s c q f) :=
  .only (State.modQueue_only (hm := by decide) (hk := .refl _ _) ..) hk

theorem State.using_held {s₀ : State} (s : State) (c : Nat)
    (hk : Held s₀ s) : Held s₀ (State.using s c) :=
  .only (State.using_only (hm := by decide) (hk := .refl _ _) ..) hk

theorem State.cancelFills_held {s₀ : State} (s : State) (c : Nat)
    (hk : Held s₀ s) : Held s₀ (State.cancelFills s c) :=
  .only (State.cancelFills_only (hm := by decide) (hk := .refl _ _) ..) hk

theorem State.dropPending_held {s₀ : State} (s : State) (c : Nat)
    (hk : Held s₀ s) : Held s₀ (State.dropPending s c) :=
  .only (State.dropPending_only (hm := by decide) (hk := .refl _ _) ..) hk

theorem State.span_held {s₀ : State} (s : State) (key n : Nat)
    (hk : Held s₀ s) : Held s₀ (State.span s key n) :=
  .only (State.span_only (hm := by decide) (hk := .refl _ _) ..) hk

theorem State.emit_held {s₀ : State} (s : State) (o : Out)
    (hk : Held s₀ s) : Held s₀ (State.emit s o) :=
  .only (State.emit_only (hm := by decide) (hk := .refl _ _) ..) hk

theorem State.dropOwnWaits_held {s₀ : State} (s : State) (c : Nat)
    (hk : Held s₀ s) : Held s₀ (State.dropOwnWaits s c) :=
  .only (State.dropOwnWaits_only (hm := by decide) (hk := .refl _ _) ..) hk

theorem State.modCore_held {s₀ : State} (s : State) (p : Nat) (f : Core → Core)
    (hk : Held s₀ s) : Held s₀ (State.modCore s p f) :=
  .only (State.modCore_only (hm := by decide) (hk := .refl _ _) ..) hk

theorem State.modUnit_held {s₀ : State} (s : State) (u : Nat) (f : UnitWords → UnitWords)
    (hk : Held s₀ s) : Held s₀ (State.modUnit s u f) :=
  .only (State.modUnit_only (hm := by decide) (hk := .refl _ _) ..) hk

theorem State.fencesDone_held {s₀ : State} (s : State)
    (hk : Held s₀ s) : Held s₀ (State.fencesDone s) :=
  .only (State.fencesDone_only (hm := by decide) (hk := .refl _ _) ..) hk

theorem State.releaseBuffers_held {s₀ : State} (s : State) (c : Nat) (bs : List Nat)
    (hk : Held s₀ s) : Held s₀ (State.releaseBuffers s c bs) :=
  .only (State.releaseBuffers_only (hm := by decide) (hk := .refl _ _) ..) hk

theorem State.retireLayer_held {s₀ : State} (s : State) (p : Nat) (st : Status)
    (hk : Held s₀ s) : Held s₀ (State.retireLayer s p st) :=
  .only (State.retireLayer_only (hm := by decide) (hk := .refl _ _) ..) hk

theorem State.contain_held {s₀ : State} (s : State) (u : UnitName)
    (hk : Held s₀ s) : Held s₀ (State.contain s u) :=
  .only (State.contain_only (hm := by decide) (hk := .refl _ _) ..) hk

theorem State.stopCores_held {s₀ : State} (s : State) (c : Nat)
    (hk : Held s₀ s) : Held s₀ (State.stopCores s c) :=
  .only (State.stopCores_only (hm := by decide) (hk := .refl _ _) ..) hk

theorem State.clearTeFlags_held {s₀ : State} (s : State) (p v : Nat)
    (hk : Held s₀ s) : Held s₀ (State.clearTeFlags s p v) :=
  .only (State.clearTeFlags_only (hm := by decide) (hk := .refl _ _) ..) hk

theorem State.spoil_held {s₀ : State} (s : State) (p : Nat) (st : Status)
    (hk : Held s₀ s) : Held s₀ (State.spoil s p st) :=
  .only (State.spoil_only (hm := by decide) (hk := .refl _ _) ..) hk

theorem State.modVault_held {s₀ : State} (s : State) (v : VaultName) (f : VaultState → VaultState)
    (hk : Held s₀ s) : Held s₀ (State.modVault s v f) :=
  .only (State.modVault_only (hm := by decide) (hk := .refl _ _) ..) hk

theorem State.total_held {s₀ : State} (s : State) (i n : Nat)
    (hk : Held s₀ s) : Held s₀ (State.total s i n) :=
  .only (State.total_only (hm := by decide) (hk := .refl _ _) ..) hk

theorem State.filled_held {s₀ : State} (s : State) (c b n : Nat)
    (hk : Held s₀ s) : Held s₀ (State.filled s c b n) :=
  .only (State.filled_only (hm := by decide) (hk := .refl _ _) ..) hk

theorem State.fillFailed_held {s₀ : State} (s : State) (c b : Nat) (st : Status)
    (hk : Held s₀ s) : Held s₀ (State.fillFailed s c b st) :=
  .only (State.fillFailed_only (hm := by decide) (hk := .refl _ _) ..) hk

theorem State.modCol_held {s₀ : State} (s : State) (f : Collect → Collect)
    (hk : Held s₀ s) : Held s₀ (State.modCol s f) :=
  .only (State.modCol_only (hm := by decide) (hk := .refl _ _) ..) hk

theorem State.modLb_held {s₀ : State} (s : State) (c b : Nat) (f : LandingBuf → LandingBuf)
    (hk : Held s₀ s) : Held s₀ (State.modLb s c b f) :=
  .only (State.modLb_only (hm := by decide) (hk := .refl _ _) ..) hk

theorem State.cancelBuffer_held {s₀ : State} (s : State) (c b : Nat)
    (hk : Held s₀ s) : Held s₀ (State.cancelBuffer s c b) :=
  .only (State.cancelBuffer_only (hm := by decide) (hk := .refl _ _) ..) hk

theorem State.beginLayer_held {s₀ : State} (s : State) (p : Nat)
    (hk : Held s₀ s) : Held s₀ (State.beginLayer s p) :=
  .only (State.beginLayer_only (hm := by decide) (hk := .refl _ _) ..) hk

theorem State.modPurse_held {s₀ : State} (s : State) (c : Nat) (f : Purse → Purse)
    (hk : Held s₀ s) : Held s₀ (State.modPurse s c f) :=
  .only (State.modPurse_only (hm := by decide) (hk := .refl _ _) ..) hk

theorem State.modClusters_held {s₀ : State} (s : State) (f : Nat → Cluster → Cluster)
    (hk : Held s₀ s) : Held s₀ (State.modClusters s f) :=
  .only (State.modClusters_only (hm := by decide) (hk := .refl _ _) ..) hk

theorem State.modSeqWaits_held {s₀ : State} (s : State) (c : Nat) (f : Waiter → Waiter)
    (hk : Held s₀ s) : Held s₀ (State.modSeqWaits s c f) :=
  .only (State.modSeqWaits_only (hm := by decide) (hk := .refl _ _) ..) hk

theorem State.mxeIssue_held {s₀ : State} (s : State) (p : Nat)
    (hk : Held s₀ s) : Held s₀ (State.mxeIssue s p) :=
  .only (State.mxeIssue_only (hm := by decide) (hk := .refl _ _) ..) hk

theorem State.wakeStalled_held {s₀ : State} (s : State) (p : Nat) (on : StallOn)
    (hk : Held s₀ s) : Held s₀ (State.wakeStalled s p on) :=
  .only (State.wakeStalled_only (hm := by decide) (hk := .refl _ _) ..) hk

theorem State.poisonAccs_held {s₀ : State} (s : State) (p : Nat) (bad : List (Nat × Nat))
    (hk : Held s₀ s) : Held s₀ (State.poisonAccs s p bad) :=
  .only (State.poisonAccs_only (hm := by decide) (hk := .refl _ _) ..) hk

theorem State.mxeDrain_held {s₀ : State} (s : State) (p i : Nat) (parity : List (Nat × Nat))
    (hk : Held s₀ s) : Held s₀ (State.mxeDrain s p i parity) :=
  .only (State.mxeDrain_only (hm := by decide) (hk := .refl _ _) ..) hk

theorem State.accepted_held {s₀ : State} (s : State) (p : Packet)
    (hk : Held s₀ s) : Held s₀ (State.accepted s p) :=
  .only (State.accepted_only (hm := by decide) (hk := .refl _ _) ..) hk

theorem State.wakeAt_held {s₀ : State} (s : State) (a : Nat)
    (hk : Held s₀ s) : Held s₀ (State.wakeAt s a) :=
  .only (State.wakeAt_only (hm := by decide) (hk := .refl _ _) ..) hk

theorem State.finishRowTile_held {s₀ : State} (s : State) (p : Nat) (ly : Layer) (e rt : Nat)
    (hk : Held s₀ s) : Held s₀ (State.finishRowTile s p ly e rt) :=
  .only (State.finishRowTile_only (hm := by decide) (hk := .refl _ _) ..) hk

theorem State.epilogue_held {s₀ : State} (s : State) (p : Nat)
    (hk : Held s₀ s) : Held s₀ (State.epilogue s p) :=
  .only (State.epilogue_only (hm := by decide) (hk := .refl _ _) ..) hk

theorem State.teTile_held {s₀ : State} (s : State) (p : Nat) (t : TileName)
    (hk : Held s₀ s) : Held s₀ (State.teTile s p t) :=
  .only (State.teTile_only (hm := by decide) (hk := .refl _ _) ..) hk

theorem State.storeRegion_held {s₀ : State} (s : State) (p : Nat) (ly : Layer) (t e row col rows cols : Nat) (at? : Nat → Nat → FV × Bool)
    (hk : Held s₀ s) : Held s₀ (State.storeRegion s p ly t e row col rows cols at?) :=
  .only (State.storeRegion_only (hm := by decide) (hk := .refl _ _) ..) hk

theorem State.loadDone_held {s₀ : State} (s : State) (p i : Nat) (l : LoadReq)
    (hk : Held s₀ s) : Held s₀ (State.loadDone s p i l) :=
  .only (State.loadDone_only (hm := by decide) (hk := .refl _ _) ..) hk

theorem State.wake_held {s₀ : State} (s : State) (c : Nat)
    (hk : Held s₀ s) : Held s₀ (State.wake s c) :=
  .only (State.wake_only (hm := by decide) (hk := .refl _ _) ..) hk

theorem State.waitCoin_held {s₀ : State} (s : State) (c : Nat) (arr0 : Requester)
    (hk : Held s₀ s) : Held s₀ (State.waitCoin s c arr0) :=
  .only (State.waitCoin_only (hm := by decide) (hk := .refl _ _) ..) hk

theorem State.consumed_held {s₀ : State} (s : State) (p : Packet)
    (hk : Held s₀ s) : Held s₀ (State.consumed s p) :=
  .only (State.consumed_only (hm := by decide) (hk := .refl _ _) ..) hk

theorem State.badPacket_held {s₀ : State} (s : State)
    (hk : Held s₀ s) : Held s₀ (State.badPacket s) :=
  .only (State.badPacket_only (hm := by decide) (hk := .refl _ _) ..) hk

theorem State.reach_held {s₀ : State} (s : State) (t : Nat)
    (hk : Held s₀ s) : Held s₀ (State.reach s t) :=
  .only (State.reach_only (hm := by decide) (hk := .refl _ _) ..) hk

theorem State.spanMin_held {s₀ : State} (s : State) (key v : Nat)
    (hk : Held s₀ s) : Held s₀ (State.spanMin s key v) :=
  .only (State.spanMin_only (hm := by decide) (hk := .refl _ _) ..) hk

theorem State.modHost_held {s₀ : State} (s : State) (f : HostIf → HostIf)
    (hk : Held s₀ s) : Held s₀ (State.modHost s f) :=
  .only (State.modHost_only (hm := by decide) (hk := .refl _ _) ..) hk

theorem State.dmaEnd_held {s₀ : State} (s : State) (x : DmaRun) (st : Status)
    (hk : Held s₀ s) : Held s₀ (State.dmaEnd s x st) :=
  .only (State.dmaEnd_only (hm := by decide) (hk := .refl _ _) ..) hk

theorem State.readGone_held {s₀ : State} (s : State) (w : ReadWait)
    (hk : Held s₀ s) : Held s₀ (State.readGone s w) :=
  .only (State.readGone_only (hm := by decide) (hk := .refl _ _) ..) hk

theorem State.lateRsp_held {s₀ : State} (s : State)
    (hk : Held s₀ s) : Held s₀ (State.lateRsp s) :=
  .only (State.lateRsp_only (hm := by decide) (hk := .refl _ _) ..) hk

theorem State.modSet_held {s₀ : State} (s : State) (f : Settle → Settle)
    (hk : Held s₀ s) : Held s₀ (State.modSet s f) :=
  .only (State.modSet_only (hm := by decide) (hk := .refl _ _) ..) hk

theorem State.modCounts_held {s₀ : State} (s : State) (g : Nat) (f : GroupCounts → GroupCounts)
    (hk : Held s₀ s) : Held s₀ (State.modCounts s g f) :=
  .only (State.modCounts_only (hm := by decide) (hk := .refl _ _) ..) hk

theorem State.setShare_held {s₀ : State} (s : State) (g i : Nat) (n : BlockShare)
    (hk : Held s₀ s) : Held s₀ (State.setShare s g i n) :=
  .only (State.setShare_only (hm := by decide) (hk := .refl _ _) ..) hk

theorem State.dropShare_held {s₀ : State} (s : State) (g i : Nat)
    (hk : Held s₀ s) : Held s₀ (State.dropShare s g i) :=
  .only (State.dropShare_only (hm := by decide) (hk := .refl _ _) ..) hk

theorem State.modDec_held {s₀ : State} (s : State) (f : Decision → Decision)
    (hk : Held s₀ s) : Held s₀ (State.modDec s f) :=
  .only (State.modDec_only (hm := by decide) (hk := .refl _ _) ..) hk

theorem State.modGuard_held {s₀ : State} (s : State) (g : Nat) (f : GroupGuard → GroupGuard)
    (hk : Held s₀ s) : Held s₀ (State.modGuard s g f) :=
  .only (State.modGuard_only (hm := by decide) (hk := .refl _ _) ..) hk

theorem State.guardsAtContribution_held {s₀ : State} (s : State)
    (hk : Held s₀ s) : Held s₀ (State.guardsAtContribution s) :=
  .only (State.guardsAtContribution_only (hm := by decide) (hk := .refl _ _) ..) hk

theorem State.dropShares_held {s₀ : State} (s : State)
    (hk : Held s₀ s) : Held s₀ (State.dropShares s) :=
  .only (State.dropShares_only (hm := by decide) (hk := .refl _ _) ..) hk

theorem State.clearTotals_held {s₀ : State} (s : State)
    (hk : Held s₀ s) : Held s₀ (State.clearTotals s) :=
  .only (State.clearTotals_only (hm := by decide) (hk := .refl _ _) ..) hk

theorem State.freeKept_held {s₀ : State} (s : State)
    (hk : Held s₀ s) : Held s₀ (State.freeKept s) :=
  .only (State.freeKept_only (hm := by decide) (hk := .refl _ _) ..) hk

theorem State.modRun_held {s₀ : State} (s : State) (i : Nat) (f : RunEntry → RunEntry)
    (hk : Held s₀ s) : Held s₀ (State.modRun s i f) :=
  .only (State.modRun_only (hm := by decide) (hk := .refl _ _) ..) hk

theorem State.takeIn_held {s₀ : State} (s : State) (p q : Packet)
    (hk : Held s₀ s) : Held s₀ (State.takeIn s p q) :=
  .only (State.takeIn_only (hm := by decide) (hk := .refl _ _) ..) hk

theorem State.modTime_held {s₀ : State} (s : State) (f : TimeBase → TimeBase)
    (hk : Held s₀ s) : Held s₀ (State.modTime s f) :=
  .only (State.modTime_only (hm := by decide) (hk := .refl _ _) ..) hk

theorem State.slewAt_held {s₀ : State} (s : State) (r : Int)
    (hk : Held s₀ s) : Held s₀ (State.slewAt s r) :=
  .only (State.slewAt_only (hm := by decide) (hk := .refl _ _) ..) hk

theorem State.modSlice_held {s₀ : State} (s : State) (f : Slice → Slice)
    (hk : Held s₀ s) : Held s₀ (State.modSlice s f) :=
  .only (State.modSlice_only (hm := by decide) (hk := .refl _ _) ..) hk

theorem State.sendNotice_held {s₀ : State} (s : State) (payload : List Byte)
    (hk : Held s₀ s) : Held s₀ (State.sendNotice s payload) :=
  .only (State.sendNotice_only (hm := by decide) (hk := .refl _ _) ..) hk

theorem State.dropQueue_held {s₀ : State} (s : State) (n : Nat) (linkStays : Bool)
    (hk : Held s₀ s) : Held s₀ (State.dropQueue s n linkStays) :=
  .only (State.dropQueue_only (hm := by decide) (hk := .refl _ _) ..) hk

theorem State.modDisc_held {s₀ : State} (s : State) (n : Nat) (f : Disc → Disc)
    (hk : Held s₀ s) : Held s₀ (State.modDisc s n f) :=
  .only (State.modDisc_only (hm := by decide) (hk := .refl _ _) ..) hk

theorem State.sendIdentity_held {s₀ : State} (s : State) (n : Nat)
    (hk : Held s₀ s) : Held s₀ (State.sendIdentity s n) :=
  .only (State.sendIdentity_only (hm := by decide) (hk := .refl _ _) ..) hk

theorem State.pump_held {s₀ : State} (s : State) (n : Nat)
    (hk : Held s₀ s) : Held s₀ (State.pump s n) :=
  .only (State.pump_only (hm := by decide) (hk := .refl _ _) ..) hk

theorem State.timeFound_held {s₀ : State} (s : State) (n : Nat)
    (hk : Held s₀ s) : Held s₀ (State.timeFound s n) :=
  .only (State.timeFound_only (hm := by decide) (hk := .refl _ _) ..) hk

theorem State.unfault_held {s₀ : State} (s : State) (ks : List UnitKind)
    (hk : Held s₀ s) : Held s₀ (State.unfault s ks) :=
  .only (State.unfault_only (hm := by decide) (hk := .refl _ _) ..) hk

theorem State.clearCores_held {s₀ : State} (s : State) (c : Nat)
    (hk : Held s₀ s) : Held s₀ (State.clearCores s c) :=
  .only (State.clearCores_only (hm := by decide) (hk := .refl _ _) ..) hk

theorem State.complete_held {s₀ : State} (s : State) (d : Desc) (st : Status) (result : Nat) (detail : Nat) (guard : Nat) (cluster : Nat)
    (hk : Held s₀ s) : Held s₀ (State.complete s d st result detail guard cluster) :=
  .only (State.complete_only (hm := by decide) (hk := .refl _ _) ..) hk

theorem State.readFailed_held {s₀ : State} (s : State) (w : ReadWait) (st : Status)
    (hk : Held s₀ s) : Held s₀ (State.readFailed s w st) :=
  .only (State.readFailed_only (hm := by decide) (hk := .refl _ _) ..) hk

theorem State.dmasDone_held {s₀ : State} (s : State)
    (hk : Held s₀ s) : Held s₀ (State.dmasDone s) :=
  .only (State.dmasDone_only (hm := by decide) (hk := .refl _ _) ..) hk

theorem State.linkFalls_held {s₀ : State} (s : State) (n : Nat) (st : LState)
    (hk : Held s₀ s) : Held s₀ (State.linkFalls s n st) :=
  .only (State.linkFalls_only (hm := by decide) (hk := .refl _ _) ..) hk

theorem State.linkFresh_held {s₀ : State} (s : State) (n : Nat)
    (hk : Held s₀ s) : Held s₀ (State.linkFresh s n) :=
  .only (State.linkFresh_only (hm := by decide) (hk := .refl _ _) ..) hk

theorem State.stopRings_held {s₀ : State} (s : State)
    (hk : Held s₀ s) : Held s₀ (State.stopRings s) :=
  .only (State.stopRings_only (hm := by decide) (hk := .refl _ _) ..) hk

theorem State.modClock_held {s₀ : State} (s : State) (c : Nat) (f : ClockSt → ClockSt)
    (hk : Held s₀ s) : Held s₀ (State.modClock s c f) :=
  .only (State.modClock_only (hm := by decide) (hk := .refl _ _) ..) hk

theorem State.daySample_held {s₀ : State} (s : State) (mw : Nat)
    (hk : Held s₀ s) : Held s₀ (State.daySample s mw) :=
  .only (State.daySample_only (hm := by decide) (hk := .refl _ _) ..) hk

theorem State.forgetDesc_held {s₀ : State} (s : State) (d : Desc)
    (hk : Held s₀ s) : Held s₀ (State.forgetDesc s d) :=
  .only (State.forgetDesc_only (hm := by decide) (hk := .refl _ _) ..) hk

theorem State.modRing_held {s₀ : State} (s : State) (n : Nat) (f : Ring → Ring)
    (hk : Held s₀ s) : Held s₀ (State.modRing s n f) :=
  .only (State.modRing_only (hm := by decide) (hk := .refl _ _) ..) hk

theorem State.flushHeld_held {s₀ : State} (s : State) (n : Nat) (arr0 : Nat)
    (hk : Held s₀ s) : Held s₀ (s.flushHeld n arr0) :=
  .only (State.flushHeld_only (hm := by decide) (hk := .refl _ _) ..) hk

theorem State.modRingOf_held {s₀ : State} (s : State) (x : RingName) (f : Ring → Ring)
    (hk : Held s₀ s) : Held s₀ (State.modRingOf s x f) :=
  .only (State.modRingOf_only (hm := by decide) (hk := .refl _ _) ..) hk

theorem State.beginOn_held {s₀ : State} (s : State) (d : Desc) (c : Nat)
    (hk : Held s₀ s) : Held s₀ (State.beginOn s d c) :=
  .only (State.beginOn_only (hm := by decide) (hk := .refl _ _) ..) hk

theorem State.fresh_held {s₀ : State} (s : State) (w : Nat)
    (hk : Held s₀ s) : Held s₀ (State.fresh s w).2 :=
  .only (State.fresh_only (hm := by decide) (hk := .refl _ _) ..) hk

theorem State.modLink_held {s₀ : State} (s : State) (n : Nat) (f : Link → Link)
    (hk : Held s₀ s) : Held s₀ (State.modLink s n f) :=
  .only (State.modLink_only (hm := by decide) (hk := .refl _ _) ..) hk

theorem State.modRep_held {s₀ : State} (s : State) (n : Nat) (f : Repair → Repair)
    (hk : Held s₀ s) : Held s₀ (State.modRep s n f) :=
  .only (State.modRep_only (hm := by decide) (hk := .refl _ _) ..) hk

theorem State.modLane_held {s₀ : State} (s : State) (n l : Nat) (f : Lane → Lane)
    (hk : Held s₀ s) : Held s₀ (State.modLane s n l f) :=
  .only (State.modLane_only (hm := by decide) (hk := .refl _ _) ..) hk

theorem State.heldKeepalive_held {s₀ : State} (s : State) (n : Nat)
    (hk : Held s₀ s) : Held s₀ (State.heldKeepalive s n) :=
  .only (State.heldKeepalive_only (hm := by decide) (hk := .refl _ _) ..) hk

theorem State.sendCtl_held {s₀ : State} (s : State) (n type vc : Nat) (body : List Byte)
    (hk : Held s₀ s) : Held s₀ (State.sendCtl s n type vc body) :=
  .only (State.sendCtl_only (hm := by decide) (hk := .refl _ _) ..) hk

theorem State.switchCw_held {s₀ : State} (s : State) (n ns : Nat)
    (hk : Held s₀ s) : Held s₀ (State.switchCw s n ns).2 :=
  .only (State.switchCw_only (hm := by decide) (hk := .refl _ _) ..) hk

theorem State.replay_held {s₀ : State} (s : State) (n : Nat)
    (hk : Held s₀ s) : Held s₀ (State.replay s n) :=
  .only (State.replay_only (hm := by decide) (hk := .refl _ _) ..) hk

theorem State.reachCw_held {s₀ : State} (s : State) (n cw : Nat)
    (hk : Held s₀ s) : Held s₀ (State.reachCw s n cw) :=
  .only (State.reachCw_only (hm := by decide) (hk := .refl _ _) ..) hk

theorem State.validFrame_held {s₀ : State} (s : State) (n : Nat) (ack : Option Nat)
    (hk : Held s₀ s) : Held s₀ (State.validFrame s n ack) :=
  .only (State.validFrame_only (hm := by decide) (hk := .refl _ _) ..) hk

theorem State.stamp_held {s₀ : State} (s : State) (at16 : Nat)
    (hk : Held s₀ s) : Held s₀ (State.stamp s at16).2 :=
  .only (State.stamp_only (hm := by decide) (hk := .refl _ _) ..) hk

theorem State.freeBuffer_held {s₀ : State} (s : State) (n vc : Nat) (p : Packet)
    (hk : Held s₀ s) : Held s₀ (State.freeBuffer s n vc p) :=
  .only (State.freeBuffer_only (hm := by decide) (hk := .refl _ _) ..) hk

theorem State.sendNak_held {s₀ : State} (s : State) (n cause : Nat)
    (hk : Held s₀ s) : Held s₀ (State.sendNak s n cause) :=
  .only (State.sendNak_only (hm := by decide) (hk := .refl _ _) ..) hk

theorem execAck_held {s₀ : State} (n : Nat) (ack : Option Nat) (s : State)
    (hk : Held s₀ s) : Answers (execAck n ack s) (Held s₀) :=
  (execAck_only (hm := by decide) (hk := .refl _ _) ..).imp fun _ h => .only h hk

theorem execNak_held {s₀ : State} (n expected : Nat) (ack : Option Nat) (s : State)
    (hk : Held s₀ s) : Answers (execNak n expected ack s) (Held s₀) :=
  (execNak_only (hm := by decide) (hk := .refl _ _) ..).imp fun _ h => .only h hk

theorem execCredit_held {s₀ : State} (n vc : Nat) (totals : List Nat) (ack : Option Nat) (s : State)
    (hk : Held s₀ s) : Answers (execCredit n vc totals ack s) (Held s₀) :=
  (execCredit_only (hm := by decide) (hk := .refl _ _) ..).imp fun _ h => .only h hk

theorem execCreditQuery_held {s₀ : State} (n : Nat) (ack : Option Nat) (s : State)
    (hk : Held s₀ s) : Answers (execCreditQuery n ack s) (Held s₀) :=
  (execCreditQuery_only (hm := by decide) (hk := .refl _ _) ..).imp fun _ h => .only h hk

theorem execKeepalive_held {s₀ : State} (n : Nat) (ack : Option Nat) (s : State)
    (hk : Held s₀ s) : Answers (execKeepalive n ack s) (Held s₀) :=
  (execKeepalive_only (hm := by decide) (hk := .refl _ _) ..).imp fun _ h => .only h hk

theorem State.badFrame_held {s₀ : State} (s : State) (n : Nat) (packet : Bool)
    (hk : Held s₀ s) : Held s₀ (State.badFrame s n packet) :=
  .only (State.badFrame_only (hm := by decide) (hk := .refl _ _) ..) hk

theorem execPower_held {s₀ : State} (n request : Nat) (ack : Option Nat) (s : State)
    (hk : Held s₀ s) : Answers (execPower n request ack s) (Held s₀) :=
  (execPower_only (hm := by decide) (hk := .refl _ _) ..).imp fun _ h => .only h hk

theorem execSpareReq_held {s₀ : State} (n l : Nat) (ack : Option Nat) (s : State)
    (hk : Held s₀ s) : Answers (execSpareReq n l ack s) (Held s₀) :=
  (execSpareReq_only (hm := by decide) (hk := .refl _ _) ..).imp fun _ h => .only h hk

theorem execSpareAck_held {s₀ : State} (n l cw : Nat) (ack : Option Nat) (s : State)
    (hk : Held s₀ s) : Answers (execSpareAck n l cw ack s) (Held s₀) :=
  (execSpareAck_only (hm := by decide) (hk := .refl _ _) ..).imp fun _ h => .only h hk

theorem execWidth_held {s₀ : State} (n mode half : Nat) (isAck : Bool) (cw : Nat) (ack : Option Nat) (s : State)
    (hk : Held s₀ s) : Answers (execWidth n mode half isAck cw ack s) (Held s₀) :=
  (execWidth_only (hm := by decide) (hk := .refl _ _) ..).imp fun _ h => .only h hk

theorem execEq_held {s₀ : State} (n l request tap : Nat) (ack : Option Nat) (s : State)
    (hk : Held s₀ s) : Answers (execEq n l request tap ack s) (Held s₀) :=
  (execEq_only (hm := by decide) (hk := .refl _ _) ..).imp fun _ h => .only h hk

theorem execTimeReq_held {s₀ : State} (n exchange at16 send16 : Nat) (ack : Option Nat) (s : State)
    (hk : Held s₀ s) : Answers (execTimeReq n exchange at16 send16 ack s) (Held s₀) :=
  (execTimeReq_only (hm := by decide) (hk := .refl _ _) ..).imp fun _ h => .only h hk

theorem State.readEmptyRows_held {s₀ : State} (s : State) (p : Nat)
    (hk : Held s₀ s) : Held s₀ (State.readEmptyRows s p).2 :=
  .only (State.readEmptyRows_only (hm := by decide) (hk := .refl _ _) ..) hk

theorem State.crosses_held {s₀ : State} (s : State) (domain addr bytes : Nat)
    (hk : Held s₀ s) : Held s₀ (State.crosses s domain addr bytes) :=
  .only (State.crosses_only (hm := by decide) (hk := .refl _ _) ..) hk

theorem State.scrub_held {s₀ : State} (s : State) (level : Nat)
    (hk : Held s₀ s) : Held s₀ (State.scrub s level) :=
  .only (State.scrub_only (hm := by decide) (hk := .refl _ _) ..) hk

theorem State.stepPosted_held {s₀ : State} (s : State)
    (hk : Held s₀ s) : Held s₀ (State.stepPosted s) :=
  .only (State.stepPosted_only (hm := by decide) (hk := .refl _ _) ..) hk

theorem State.saveJob_held {s₀ : State} (s : State) (point : Nat)
    (hk : Held s₀ s) : Held s₀ (State.saveJob s point) :=
  .only (State.saveJob_only (hm := by decide) (hk := .refl _ _) ..) hk

theorem State.fenceDone_held {s₀ : State} (s : State) (u : UnitName)
    (hk : Held s₀ s) : Held s₀ (State.fenceDone s u) :=
  .only (State.fenceDone_only (hm := by decide) (hk := .refl _ _) ..) hk

theorem State.loadSettings_held {s₀ : State} (s : State) (b : List Byte)
    (hk : Held s₀ s) : Held s₀ (State.loadSettings s b) :=
  .only (State.loadSettings_only (hm := by decide) (hk := .refl _ _) ..) hk

theorem State.invalidate_held {s₀ : State} (s : State) (g : Nat)
    (hk : Held s₀ s) : Held s₀ (State.invalidate s g) :=
  .only (State.invalidate_only (hm := by decide) (hk := .refl _ _) ..) hk

theorem State.queryRecord_held {s₀ : State} (s : State) (sel ix : Nat)
    (hk : Held s₀ s) : Held s₀ (State.queryRecord s sel ix).2 :=
  .only (State.queryRecord_only (hm := by decide) (hk := .refl _ _) ..) hk

theorem State.queryWrite_held {s₀ : State} (s : State) (d : Desc) (b : List Byte) (poisoned : Bool)
    (hk : Held s₀ s) : Held s₀ (State.queryWrite s d b poisoned) :=
  .only (State.queryWrite_only (hm := by decide) (hk := .refl _ _) ..) hk

theorem State.reachLife_held {s₀ : State} (s : State) (kind period : Nat)
    (hk : Held s₀ s) : Held s₀ (State.reachLife s kind period) :=
  .only (State.reachLife_only (hm := by decide) (hk := .refl _ _) ..) hk

theorem State.placeTime_held {s₀ : State} (s : State)
    (hk : Held s₀ s) : Held s₀ (State.placeTime s) :=
  .only (State.placeTime_only (hm := by decide) (hk := .refl _ _) ..) hk

theorem State.reidentifyAll_held {s₀ : State} (s : State)
    (hk : Held s₀ s) : Held s₀ (State.reidentifyAll s) :=
  .only (State.reidentifyAll_only (hm := by decide) (hk := .refl _ _) ..) hk

theorem State.respond_held {s₀ : State} (s : State) (b code : Nat) (st : Status) (body : List Byte)
    (hk : Held s₀ s) : Held s₀ (State.respond s b code st body) :=
  .only (State.respond_only (hm := by decide) (hk := .refl _ _) ..) hk

theorem State.pcieCheck_held {s₀ : State} (s : State)
    (hk : Held s₀ s) : Held s₀ (State.pcieCheck s) :=
  .only (State.pcieCheck_only (hm := by decide) (hk := .refl _ _) ..) hk

theorem State.enableRail_held {s₀ : State} (s : State) (r : Nat)
    (hk : Held s₀ s) : Held s₀ (State.enableRail s r) :=
  .only (State.enableRail_only (hm := by decide) (hk := .refl _ _) ..) hk

theorem State.setForceKa_held {s₀ : State} (s : State) (p : Nat) (v : Bool)
    (hk : Held s₀ s) : Held s₀ (State.setForceKa s p v) :=
  .only (State.setForceKa_only (hm := by decide) (hk := .refl _ _) ..) hk

theorem State.clearReport_held {s₀ : State} (s : State) (c hit : Nat)
    (hk : Held s₀ s) : Held s₀ (State.clearReport s c hit) :=
  .only (State.clearReport_only (hm := by decide) (hk := .refl _ _) ..) hk

theorem State.writeHazMode_held {s₀ : State} (s : State) (c n : Nat)
    (hk : Held s₀ s) : Held s₀ (State.writeHazMode s c n) :=
  .only (State.writeHazMode_only (hm := by decide) (hk := .refl _ _) ..) hk

theorem State.writeRingCtrl_held {s₀ : State} (s : State) (x : RingName) (n hit : Nat)
    (hk : Held s₀ s) : Held s₀ (State.writeRingCtrl s x n hit) :=
  .only (State.writeRingCtrl_only (hm := by decide) (hk := .refl _ _) ..) hk

theorem State.writeBase_held {s₀ : State} (s : State) (x : RingName) (f : Ring → Ring)
    (hk : Held s₀ s) : Held s₀ (State.writeBase s x f) :=
  .only (State.writeBase_only (hm := by decide) (hk := .refl _ _) ..) hk

theorem State.writeWatch_held {s₀ : State} (s : State) (n : Nat)
    (hk : Held s₀ s) : Held s₀ (State.writeWatch s n) :=
  .only (State.writeWatch_only (hm := by decide) (hk := .refl _ _) ..) hk

theorem State.writeMsixMod_held {s₀ : State} (s : State) (v n : Nat)
    (hk : Held s₀ s) : Held s₀ (State.writeMsixMod s v n) :=
  .only (State.writeMsixMod_only (hm := by decide) (hk := .refl _ _) ..) hk

theorem State.writeMsixEntry_held {s₀ : State} (s : State) (v w n : Nat)
    (hk : Held s₀ s) : Held s₀ (State.writeMsixEntry s v w n) :=
  .only (State.writeMsixEntry_only (hm := by decide) (hk := .refl _ _) ..) hk

theorem State.writeGuardCtrl_held {s₀ : State} (s : State) (n hit : Nat)
    (hk : Held s₀ s) : Held s₀ (State.writeGuardCtrl s n hit) :=
  .only (State.writeGuardCtrl_only (hm := by decide) (hk := .refl _ _) ..) hk

theorem State.writeSpikeParam_held {s₀ : State} (s : State) (n : Nat)
    (hk : Held s₀ s) : Held s₀ (State.writeSpikeParam s n) :=
  .only (State.writeSpikeParam_only (hm := by decide) (hk := .refl _ _) ..) hk

theorem State.writeClusterCtrl_held {s₀ : State} (s : State) (c n : Nat)
    (hk : Held s₀ s) : Held s₀ (State.writeClusterCtrl s c n) :=
  .only (State.writeClusterCtrl_only (hm := by decide) (hk := .refl _ _) ..) hk

theorem State.debugWrite_held {s₀ : State} (s : State) (c : Nat) (f : Sequencer → Sequencer)
    (hk : Held s₀ s) : Held s₀ (State.debugWrite s c f) :=
  .only (State.debugWrite_only (hm := by decide) (hk := .refl _ _) ..) hk

theorem execTimerExpiry_held {s₀ : State} (c : Nat) (s : State)
    (hk : Held s₀ s) : Answers (execTimerExpiry c s) (Held s₀) :=
  (execTimerExpiry_only (hm := by decide) (hk := .refl _ _) ..).imp fun _ h => .only h hk

theorem execDebugHalt_held {s₀ : State} (c : Nat) (s : State)
    (hk : Held s₀ s) : Answers (execDebugHalt c s) (Held s₀) :=
  (execDebugHalt_only (hm := by decide) (hk := .refl _ _) ..).imp fun _ h => .only h hk

theorem execReadErr_held {s₀ : State} (p : Packet) (s : State)
    (hk : Held s₀ s) : Answers (execReadErr p s) (Held s₀) :=
  (execReadErr_only (hm := by decide) (hk := .refl _ _) ..).imp fun _ h => .only h hk

theorem execReadTimeout_held {s₀ : State} (handle : Nat) (s : State)
    (hk : Held s₀ s) : Answers (execReadTimeout handle s) (Held s₀) :=
  (execReadTimeout_only (hm := by decide) (hk := .refl _ _) ..).imp fun _ h => .only h hk

theorem execSpikeReset_held {s₀ : State} (s : State)
    (hk : Held s₀ s) : Answers (execSpikeReset s) (Held s₀) :=
  (execSpikeReset_only (hm := by decide) (hk := .refl _ _) ..).imp fun _ h => .only h hk

theorem execIdentityRepeat_held {s₀ : State} (n : Nat) (s : State)
    (hk : Held s₀ s) : Answers (execIdentityRepeat n s) (Held s₀) :=
  (execIdentityRepeat_only (hm := by decide) (hk := .refl _ _) ..).imp fun _ h => .only h hk

theorem execClockGate_held {s₀ : State} (c : Nat) (s : State)
    (hk : Held s₀ s) : Answers (execClockGate c s) (Held s₀) :=
  (execClockGate_only (hm := by decide) (hk := .refl _ _) ..).imp fun _ h => .only h hk

theorem execPowerGate_held {s₀ : State} (c : Nat) (s : State)
    (hk : Held s₀ s) : Answers (execPowerGate c s) (Held s₀) :=
  (execPowerGate_only (hm := by decide) (hk := .refl _ _) ..).imp fun _ h => .only h hk

theorem execClusterWake_held {s₀ : State} (c : Nat) (s : State)
    (hk : Held s₀ s) : Answers (execClusterWake c s) (Held s₀) :=
  (execClusterWake_only (hm := by decide) (hk := .refl _ _) ..).imp fun _ h => .only h hk

theorem execHoldRun_held {s₀ : State} (c : Nat) (v : Bool) (s : State)
    (hk : Held s₀ s) : Answers (execHoldRun c v s) (Held s₀) :=
  (execHoldRun_only (hm := by decide) (hk := .refl _ _) ..).imp fun _ h => .only h hk

theorem execDroopDetect_held {s₀ : State} (c : Nat) (s : State)
    (hk : Held s₀ s) : Answers (execDroopDetect c s) (Held s₀) :=
  (execDroopDetect_only (hm := by decide) (hk := .refl _ _) ..).imp fun _ h => .only h hk

theorem execMsixAgeExpiry_held {s₀ : State} (v : Nat) (s : State)
    (hk : Held s₀ s) : Answers (execMsixAgeExpiry v s) (Held s₀) :=
  (execMsixAgeExpiry_only (hm := by decide) (hk := .refl _ _) ..).imp fun _ h => .only h hk

theorem execMsixVectorUnmask_held {s₀ : State} (v : Nat) (s : State)
    (hk : Held s₀ s) : Answers (execMsixVectorUnmask v s) (Held s₀) :=
  (execMsixVectorUnmask_only (hm := by decide) (hk := .refl _ _) ..).imp fun _ h => .only h hk

theorem execRingEnable_held {s₀ : State} (x : RingName) (v : Bool) (s : State)
    (hk : Held s₀ s) : Answers (execRingEnable x v s) (Held s₀) :=
  (execRingEnable_only (hm := by decide) (hk := .refl _ _) ..).imp fun _ h => .only h hk

theorem execRingReset_held {s₀ : State} (x : RingName) (s : State)
    (hk : Held s₀ s) : Answers (execRingReset x s) (Held s₀) :=
  (execRingReset_only (hm := by decide) (hk := .refl _ _) ..).imp fun _ h => .only h hk

theorem execAckTimeout_held {s₀ : State} (n : Nat) (s : State)
    (hk : Held s₀ s) : Answers (execAckTimeout n s) (Held s₀) :=
  (execAckTimeout_only (hm := by decide) (hk := .refl _ _) ..).imp fun _ h => .only h hk

theorem execCreditLate_held {s₀ : State} (n : Nat) (s : State)
    (hk : Held s₀ s) : Answers (execCreditLate n s) (Held s₀) :=
  (execCreditLate_only (hm := by decide) (hk := .refl _ _) ..).imp fun _ h => .only h hk

theorem execKeepaliveSend_held {s₀ : State} (n : Nat) (s : State)
    (hk : Held s₀ s) : Answers (execKeepaliveSend n s) (Held s₀) :=
  (execKeepaliveSend_only (hm := by decide) (hk := .refl _ _) ..).imp fun _ h => .only h hk

theorem execForceKeepalive_held {s₀ : State} (n : Nat) (v : Bool) (s : State)
    (hk : Held s₀ s) : Answers (execForceKeepalive n v s) (Held s₀) :=
  (execForceKeepalive_only (hm := by decide) (hk := .refl _ _) ..).imp fun _ h => .only h hk

theorem execKeepaliveIdle_held {s₀ : State} (n : Nat) (s : State)
    (hk : Held s₀ s) : Answers (execKeepaliveIdle n s) (Held s₀) :=
  (execKeepaliveIdle_only (hm := by decide) (hk := .refl _ _) ..).imp fun _ h => .only h hk

theorem execKeepaliveExit_held {s₀ : State} (n : Nat) (s : State)
    (hk : Held s₀ s) : Answers (execKeepaliveExit n s) (Held s₀) :=
  (execKeepaliveExit_only (hm := by decide) (hk := .refl _ _) ..).imp fun _ h => .only h hk

theorem execSpareSwitch_held {s₀ : State} (n : Nat) (s : State)
    (hk : Held s₀ s) : Answers (execSpareSwitch n s) (Held s₀) :=
  (execSpareSwitch_only (hm := by decide) (hk := .refl _ _) ..).imp fun _ h => .only h hk

theorem execEqStep_held {s₀ : State} (n l tap : Nat) (up own : Bool) (s : State)
    (hk : Held s₀ s) : Answers (execEqStep n l tap up own s) (Held s₀) :=
  (execEqStep_only (hm := by decide) (hk := .refl _ _) ..).imp fun _ h => .only h hk

theorem execTimeExchange_held {s₀ : State} (at16 : Nat) (s : State)
    (hk : Held s₀ s) : Answers (execTimeExchange at16 s) (Held s₀) :=
  (execTimeExchange_only (hm := by decide) (hk := .refl _ _) ..).imp fun _ h => .only h hk

theorem execFence_held {s₀ : State} (d : Desc) (s : State)
    (hk : Held s₀ s) : Answers (execFence d s) (Held s₀) :=
  (execFence_only (hm := by decide) (hk := .refl _ _) ..).imp fun _ h => .only h hk

theorem execPreempt_held {s₀ : State} (d : Desc) (s : State)
    (hk : Held s₀ s) : Answers (execPreempt d s) (Held s₀) :=
  (execPreempt_only (hm := by decide) (hk := .refl _ _) ..).imp fun _ h => .only h hk

theorem execReconcileAccept_held {s₀ : State} (d : Desc) (s : State)
    (hk : Held s₀ s) : Answers (execReconcileAccept d s) (Held s₀) :=
  (execReconcileAccept_only (hm := by decide) (hk := .refl _ _) ..).imp fun _ h => .only h hk

theorem execReconcileEnable_held {s₀ : State} (d : Desc) (s : State)
    (hk : Held s₀ s) : Answers (execReconcileEnable d s) (Held s₀) :=
  (execReconcileEnable_only (hm := by decide) (hk := .refl _ _) ..).imp fun _ h => .only h hk

theorem execStatementReq_held {s₀ : State} (d : Desc) (s : State)
    (hk : Held s₀ s) : Answers (execStatementReq d s) (Held s₀) :=
  (execStatementReq_only (hm := by decide) (hk := .refl _ _) ..).imp fun _ h => .only h hk

theorem execProxyResponse_held {s₀ : State} (tag : Nat) (arrived : Option Packet) (s : State)
    (hk : Held s₀ s) : Answers (execProxyResponse tag arrived s) (Held s₀) :=
  (execProxyResponse_only (hm := by decide) (hk := .refl _ _) ..).imp fun _ h => .only h hk

theorem execStatementTake_held {s₀ : State} (s : State)
    (hk : Held s₀ s) : Answers (execStatementTake s) (Held s₀) :=
  (execStatementTake_only (hm := by decide) (hk := .refl _ _) ..).imp fun _ h => .only h hk

theorem execSetEndpointId_held {s₀ : State} (b waiting eid : Nat) (s : State)
    (hk : Held s₀ s) : Answers (execSetEndpointId b waiting eid s) (Held s₀) :=
  (execSetEndpointId_only (hm := by decide) (hk := .refl _ _) ..).imp fun _ h => .only h hk

theorem execDynamicAddressAssign_held {s₀ : State} (addr : Nat) (s : State)
    (hk : Held s₀ s) : Answers (execDynamicAddressAssign addr s) (Held s₀) :=
  (execDynamicAddressAssign_only (hm := by decide) (hk := .refl _ _) ..).imp fun _ h => .only h hk

theorem execStatementGet_held {s₀ : State} (b waiting : Nat) (body : List Byte) (s : State)
    (hk : Held s₀ s) : Answers (execStatementGet b waiting body s) (Held s₀) :=
  (execStatementGet_only (hm := by decide) (hk := .refl _ _) ..).imp fun _ h => .only h hk

theorem execDaybookRead_held {s₀ : State} (b waiting : Nat) (body : List Byte) (s : State)
    (hk : Held s₀ s) : Answers (execDaybookRead b waiting body s) (Held s₀) :=
  (execDaybookRead_only (hm := by decide) (hk := .refl _ _) ..).imp fun _ h => .only h hk

theorem execLedgerRead_held {s₀ : State} (b waiting : Nat) (body : List Byte) (s : State)
    (hk : Held s₀ s) : Answers (execLedgerRead b waiting body s) (Held s₀) :=
  (execLedgerRead_only (hm := by decide) (hk := .refl _ _) ..).imp fun _ h => .only h hk

theorem execLedgerStatus_held {s₀ : State} (b waiting : Nat) (body : List Byte) (s : State)
    (hk : Held s₀ s) : Answers (execLedgerStatus b waiting body s) (Held s₀) :=
  (execLedgerStatus_only (hm := by decide) (hk := .refl _ _) ..).imp fun _ h => .only h hk

theorem execUnitStateRead_held {s₀ : State} (b waiting : Nat) (body : List Byte) (s : State)
    (hk : Held s₀ s) : Answers (execUnitStateRead b waiting body s) (Held s₀) :=
  (execUnitStateRead_only (hm := by decide) (hk := .refl _ _) ..).imp fun _ h => .only h hk

theorem execSetPurseDepth_held {s₀ : State} (b waiting : Nat) (body : List Byte) (s : State)
    (hk : Held s₀ s) : Answers (execSetPurseDepth b waiting body s) (Held s₀) :=
  (execSetPurseDepth_only (hm := by decide) (hk := .refl _ _) ..).imp fun _ h => .only h hk

theorem execGetSensorReading_held {s₀ : State} (b waiting id : Nat) (s : State)
    (hk : Held s₀ s) : Answers (execGetSensorReading b waiting id s) (Held s₀) :=
  (execGetSensorReading_only (hm := by decide) (hk := .refl _ _) ..).imp fun _ h => .only h hk

theorem execSetEventReceiver_held {s₀ : State} (b waiting mask : Nat) (s : State)
    (hk : Held s₀ s) : Answers (execSetEventReceiver b waiting mask s) (Held s₀) :=
  (execSetEventReceiver_only (hm := by decide) (hk := .refl _ _) ..).imp fun _ h => .only h hk

theorem execPlatformEventRetry_held {s₀ : State} (i : Nat) (s : State)
    (hk : Held s₀ s) : Answers (execPlatformEventRetry i s) (Held s₀) :=
  (execPlatformEventRetry_only (hm := by decide) (hk := .refl _ _) ..).imp fun _ h => .only h hk

theorem execPlatformEventAck_held {s₀ : State} (i : Nat) (s : State)
    (hk : Held s₀ s) : Answers (execPlatformEventAck i s) (Held s₀) :=
  (execPlatformEventAck_only (hm := by decide) (hk := .refl _ _) ..).imp fun _ h => .only h hk

theorem execRequestUpdate_held {s₀ : State} (b waiting cls : Nat) (s : State)
    (hk : Held s₀ s) : Answers (execRequestUpdate b waiting cls s) (Held s₀) :=
  (execRequestUpdate_only (hm := by decide) (hk := .refl _ _) ..).imp fun _ h => .only h hk

theorem State.each_held {s₀ : State} {α : Type} (s : State) (l : List α) (f : State → α → State) (hf : ∀ t x, Held s₀ t → Held s₀ (f t x))
    (hk : Held s₀ s) : Held s₀ (State.each s l f) := by
  unfold State.each
  repeat' (first
    | with_reducible assumption
    | with_reducible refine hf _ _ ?_
    | with_reducible refine Held.foldl (fun _ _ _ => ?_) ?_)

theorem State.request_held {s₀ : State} (s : State) (b waiting : Nat) (f : State → State) (hf : ∀ t, Held s₀ t → Held s₀ (f t))
    (hk : Held s₀ s) : Held s₀ (State.request s b waiting f) := by
  unfold State.request
  repeat' (first
    | with_reducible assumption
    | with_reducible refine hf _ ?_
    | with_reducible refine State.modMgmt_held (hk := ?_) ..
    | with_reducible refine Held.ite ?_ ?_
    | split)

theorem State.updateRequest_held {s₀ : State} (s : State) (b waiting : Nat) (f : State → State) (hf : ∀ t, Held s₀ t → Held s₀ (f t))
    (hk : Held s₀ s) : Held s₀ (State.updateRequest s b waiting f) := by
  unfold State.updateRequest
  repeat' (first
    | with_reducible assumption
    | with_reducible refine hf _ ?_
    | with_reducible refine State.request_held (hk := ?_) (hf := ?_) ..
    | with_reducible refine Held.ite ?_ ?_
    | intro _ _)

theorem State.vendor_held {s₀ : State} (s : State) (b waiting code n : Nat) (body : List Byte) (f : State → Status × List Byte × State) (hf : ∀ t, Held s₀ t → Held s₀ (f t).2.2)
    (hk : Held s₀ s) : Answers (State.vendor s b waiting code n body f) (Held s₀) := by
  unfold State.vendor
  repeat' (first
    | with_reducible assumption
    | with_reducible refine hf _ ?_
    | with_reducible refine Answers.next ?_
    | with_reducible first | refine State.request_held (hk := ?_) (hf := ?_) .. | refine State.respond_held (hk := ?_) ..
    | with_reducible refine Held.ite ?_ ?_
    | intro _ _
    | split
    | dsimp only)

/-! ### Operations that set no lock back -/

theorem State.injection_held {s₀ : State} (s : State) (c : EventClass) (unit : Nat)
    (hk : Held s₀ s) : Held s₀ (State.injection s c unit).2 := by
  unfold State.injection
  repeat' (first
    | with_reducible assumption
    | with_reducible refine State.modErr_held (hf := fun _ => ⟨Held.kept, Held.kept⟩) (hk := ?_) ..
    | with_reducible refine Held.ite2 ?_ ?_
    | split
    | dsimp only)

theorem State.logEntry_held {s₀ : State} (s : State) (c : EventClass) (source : Nat) (data : List Byte) (sev : Severity) (nested injected : Bool)
    (hk : Held s₀ s) : Held s₀ (State.logEntry s c source data sev nested injected) := by
  unfold State.logEntry
  repeat' (first
    | with_reducible assumption
    | with_reducible first | refine State.modErr_held (hf := fun _ => ⟨Held.kept, Held.kept⟩) (hk := ?_) .. | refine State.pldmEvent_held (hk := ?_) .. | refine State.eventRing_held (hk := ?_) ..
    | split
    | dsimp only)

theorem State.ledgerNoRoom_held {s₀ : State} (s : State) (kind : Nat)
    (hk : Held s₀ s) : Held s₀ (State.ledgerNoRoom s kind) := by
  unfold State.ledgerNoRoom
  repeat' (first
    | with_reducible assumption
    | with_reducible first | refine State.logEntry_held (hk := ?_) .. | refine State.ledgerDrop_held (hk := ?_) ..
    | with_reducible refine Held.ite ?_ ?_
    | with_reducible refine Held.set_ledger (h := ?_) ..
    | dsimp only)

theorem State.ledgerRetry_held {s₀ : State} (s : State) (kind : Nat) (payload : List Byte) (injected : Bool) (arr0 : Nat)
    (hk : Held s₀ s) : Held s₀ (s.ledgerRetry kind payload injected arr0) := by
  induction arr0 generalizing s with
  | zero => exact hk
  | succ n ih =>
    unfold State.ledgerRetry
    split
    · exact hk
    · refine ih _ (State.logEntry_held _ _ _ _ _ _ _ ?_)
      exact Held.set_ledger _ (State.ledgerPut_held s kind payload _ false hk)

theorem State.ledgerWrite_held {s₀ : State} (s : State) (kind : Nat) (payload : List Byte) (fails : Nat)
    (hk : Held s₀ s) : Held s₀ (State.ledgerWrite s kind payload fails) := by
  unfold State.ledgerWrite
  repeat' (first
    | with_reducible assumption
    | with_reducible first | refine State.ledgerPut_held (hk := ?_) .. | refine State.ledgerNoRoom_held (hk := ?_) .. | refine State.ledgerRetry_held (hk := ?_) .. | refine State.injection_held (hk := ?_) ..
    | with_reducible refine Held.pair (by assumption) ?_
    | split
    | with_reducible refine Held.set_ledger (h := ?_) ..
    | dsimp only)

theorem State.ledgerAppend_held {s₀ : State} (s : State) (kind : Nat) (payload : List Byte) (fails : Nat)
    (hk : Held s₀ s) : Held s₀ (State.ledgerAppend s kind payload fails) := by
  unfold State.ledgerAppend
  repeat' (first
    | with_reducible assumption
    | with_reducible first | refine State.ledgerDrop_held (hk := ?_) .. | refine State.ledgerWrite_held (hk := ?_) ..
    | with_reducible refine Held.ite ?_ ?_
    | with_reducible refine Held.set_ledger (h := ?_) ..)

theorem State.logAs_held {s₀ : State} (s : State) (c : EventClass) (source : Nat) (data : List Byte) (sev : Severity) (nested injected : Bool)
    (hk : Held s₀ s) : Held s₀ (State.logAs s c source data sev nested injected) := by
  unfold State.logAs
  repeat' (first
    | with_reducible assumption
    | with_reducible first | refine State.modMgmt_held (hk := ?_) .. | refine State.logEntry_held (hk := ?_) .. | refine State.ledgerAppend_held (hk := ?_) ..
    | with_reducible refine Held.ite ?_ ?_
    | split
    | dsimp only)

theorem State.detectWith_held {s₀ : State} (s : State) (c : EventClass) (source : Nat) (data : List Byte)
    (hk : Held s₀ s) : Held s₀ (State.detectWith s c source data) := by
  unfold State.detectWith
  repeat' (first
    | with_reducible assumption
    | with_reducible first | refine State.modErr_held (hf := fun _ => ⟨Held.kept, Held.kept⟩) (hk := ?_) .. | refine State.injection_held (hk := ?_) .. | refine State.logAs_held (hk := ?_) ..
    | with_reducible refine Held.ite ?_ ?_
    | split
    | dsimp only)

theorem State.detect_held {s₀ : State} (s : State) (c : EventClass) (source : Nat) (data : List (Nat × Nat))
    (hk : Held s₀ s) : Held s₀ (State.detect s c source data) := by
  unfold State.detect
  repeat' (first
    | with_reducible assumption
    | with_reducible refine State.detectWith_held (hk := ?_) ..)

theorem State.tick_held {s₀ : State} (s : State) (c : Nat) (t : Tick)
    (hk : Held s₀ s) : Held s₀ (State.tick s c t) := by
  unfold State.tick
  repeat' (first
    | with_reducible assumption
    | with_reducible first | refine State.modSeq_held (hk := ?_) .. | refine State.each_held (hk := ?_) (hf := ?_) .. | refine State.detect_held (hk := ?_) .. | refine State.advance_held (hk := ?_) ..
    | (intros; with_reducible assumption)
    | intro _ _ _
    | intro _ _
    | split
    | dsimp only)

theorem State.closeWindow_held {s₀ : State} (s : State) (c : EventClass) (source : Nat)
    (hk : Held s₀ s) : Held s₀ (State.closeWindow s c source) := by
  unfold State.closeWindow
  repeat' (first
    | with_reducible assumption
    | with_reducible refine State.modErr_held (hf := fun _ => ⟨Held.kept, Held.kept⟩) (hk := ?_) ..
    | split)

theorem State.log_held {s₀ : State} (s : State) (c : EventClass) (source : Nat) (data : List (Nat × Nat))
    (hk : Held s₀ s) : Held s₀ (State.log s c source data) := by
  unfold State.log
  repeat' (first
    | with_reducible assumption
    | with_reducible refine State.logAs_held (hk := ?_) ..)

theorem State.logLimited_held {s₀ : State} (s : State) (c : EventClass) (key period : Nat) (source : Nat) (data : List (Nat × Nat))
    (hk : Held s₀ s) : Held s₀ (State.logLimited s c key period source data) := by
  unfold State.logLimited
  repeat' (first
    | with_reducible assumption
    | with_reducible first | refine State.modErr_held (hf := fun _ => ⟨Held.kept, Held.kept⟩) (hk := ?_) .. | refine State.log_held (hk := ?_) ..
    | with_reducible refine Held.ite ?_ ?_
    | split
    | dsimp only)

theorem State.fenced_held {s₀ : State} (s : State) (p : Packet) (out : Bool)
    (hk : Held s₀ s) : Held s₀ (State.fenced s p out) := by
  unfold State.fenced
  repeat' (first
    | with_reducible assumption
    | with_reducible first | refine State.modRtr_held (hk := ?_) .. | refine State.logLimited_held (hk := ?_) ..
    | split
    | dsimp only)

theorem State.dropNoPort_held {s₀ : State} (s : State) (n : Nat)
    (hk : Held s₀ s) : Held s₀ (State.dropNoPort s n) := by
  unfold State.dropNoPort
  repeat' (first
    | with_reducible assumption
    | with_reducible first | refine State.modRtr_held (hk := ?_) .. | refine State.logLimited_held (hk := ?_) ..
    | split)

theorem State.launch_held {s₀ : State} (s : State) (p : Packet)
    (hk : Held s₀ s) : Held s₀ (State.launch s p).2 := by
  unfold State.launch
  repeat' (first
    | with_reducible assumption
    | with_reducible first | refine State.fenced_held (hk := ?_) .. | refine State.dropNoPort_held (hk := ?_) .. | refine State.moved_held (hk := ?_) .. | refine State.enqueue_held (hk := ?_) ..
    | with_reducible refine Held.ite2 ?_ ?_
    | split
    | dsimp only)

theorem State.inject_held {s₀ : State} (s : State) (p : Packet)
    (hk : Held s₀ s) : Held s₀ (State.inject s p).2 := by
  unfold State.inject
  repeat' (first
    | with_reducible assumption
    | with_reducible first | refine State.modRtr_held (hk := ?_) .. | refine State.launch_held (hk := ?_) ..
    | with_reducible refine Held.ite2 ?_ ?_
    | split
    | dsimp only)

theorem State.replyIn_held {s₀ : State} (s : State) (src : Coord) (q c tag : Nat) (r : CoinResult)
    (hk : Held s₀ s) : Held s₀ (State.replyIn s src q c tag r) := by
  unfold State.replyIn
  repeat' (first
    | with_reducible assumption
    | with_reducible first | refine State.modCluster_held (hk := ?_) .. | refine State.modRtr_held (hk := ?_) .. | refine State.log_held (hk := ?_) .. | refine State.toRequester_held (hk := ?_) ..
    | split
    | dsimp only)

theorem State.answer_held {s₀ : State} (s : State) (c q : Nat) (who : Requester) (r : CoinResult)
    (hk : Held s₀ s) : Held s₀ (State.answer s c q who r) := by
  unfold State.answer
  repeat' (first
    | with_reducible assumption
    | with_reducible first | refine State.inject_held (hk := ?_) .. | refine State.toRequester_held (hk := ?_) .. | refine State.replyIn_held (hk := ?_) ..
    | with_reducible refine Held.ite ?_ ?_
    | split
    | dsimp only)

theorem State.release_held {s₀ : State} (s : State) (c q : Nat)
    (hk : Held s₀ s) : Held s₀ (State.release s c q) := by
  unfold State.release
  repeat' (first
    | with_reducible assumption
    | with_reducible first | refine State.answer_held (hk := ?_) .. | refine State.modQueue_held (hk := ?_) ..
    | with_reducible refine Held.foldl (fun _ _ _ => ?_) ?_
    | split
    | dsimp only)

theorem State.dropSeqWaits_held {s₀ : State} (s : State) (c : Nat)
    (hk : Held s₀ s) : Held s₀ (State.dropSeqWaits s c) := by
  unfold State.dropSeqWaits
  repeat' (first
    | with_reducible assumption
    | with_reducible first | refine State.modCluster_held (hk := ?_) .. | refine State.modRtr_held (hk := ?_) .. | refine State.modQueue_held (hk := ?_) .. | refine State.release_held (hk := ?_) ..
    | with_reducible refine Held.foldl (fun _ _ _ => ?_) ?_
    | split
    | dsimp only)

theorem State.endOn_held {s₀ : State} (s : State) (c : Nat) (st : Status) (cause : Nat) (reported : Bool) (word : W32)
    (hk : Held s₀ s) : Held s₀ (State.endOn s c st cause reported word) := by
  unfold State.endOn
  repeat' (first
    | with_reducible assumption
    | with_reducible first | refine State.modSeq_held (hk := ?_) .. | refine State.modPwr_held (hf := fun _ => Held.kept) (hk := ?_) .. | refine State.using_held (hk := ?_) .. | refine State.cancelFills_held (hk := ?_) .. | refine State.dropSeqWaits_held (hk := ?_) .. | refine State.dropPending_held (hk := ?_) ..
    | split
    | dsimp only)

theorem State.stopAt_held {s₀ : State} (s : State) (c : Nat)
    (hk : Held s₀ s) : Held s₀ (State.stopAt s c) := by
  unfold State.stopAt
  repeat' (first
    | with_reducible assumption
    | with_reducible refine State.endOn_held (hk := ?_) ..
    | with_reducible refine Held.ite ?_ ?_)

theorem State.haltSeq_held {s₀ : State} (s : State) (c : Nat) (st : Status) (cause : Nat)
    (hk : Held s₀ s) : Held s₀ (State.haltSeq s c st cause) := by
  unfold State.haltSeq
  repeat' (first
    | with_reducible assumption
    | with_reducible first | refine State.modSeq_held (hk := ?_) .. | refine State.dropSeqWaits_held (hk := ?_) .. | refine State.dropPending_held (hk := ?_) .. | refine State.endOn_held (hk := ?_) .. | refine State.stopAt_held (hk := ?_) ..
    | with_reducible refine Held.ite ?_ ?_
    | with_reducible refine Held.foldl (fun _ _ _ => ?_) ?_
    | split
    | dsimp only)

theorem State.detectLimited_held {s₀ : State} (s : State) (c : EventClass) (key source : Nat) (data : List (Nat × Nat))
    (hk : Held s₀ s) : Held s₀ (State.detectLimited s c key source data) := by
  unfold State.detectLimited
  repeat' (first
    | with_reducible assumption
    | with_reducible first | refine State.modErr_held (hf := fun _ => ⟨Held.kept, Held.kept⟩) (hk := ?_) .. | refine State.detect_held (hk := ?_) ..
    | with_reducible refine Held.ite ?_ ?_
    | split
    | dsimp only)

theorem State.cdcTimeout_held {s₀ : State} (s : State) (domain addr : Nat)
    (hk : Held s₀ s) : Held s₀ (State.cdcTimeout s domain addr) := by
  unfold State.cdcTimeout
  repeat' (first
    | with_reducible assumption
    | with_reducible first | refine State.span_held (hk := ?_) .. | refine State.detectLimited_held (hk := ?_) ..
    | with_reducible refine Held.set_rails (h := ?_) ..
    | dsimp only)

theorem State.crossed_held {s₀ : State} (s : State) (x : Crossing)
    (hk : Held s₀ s) : Held s₀ (State.crossed s x) := by
  unfold State.crossed
  repeat' (first
    | with_reducible assumption
    | with_reducible first | refine State.emit_held (hk := ?_) .. | refine State.cdcTimeout_held (hk := ?_) ..
    | with_reducible refine Held.ite ?_ ?_
    | dsimp only)

theorem State.flushCrossings_held {s₀ : State} (s : State) (hit : Nat → Bool)
    (hk : Held s₀ s) : Held s₀ (State.flushCrossings s hit).2 := by
  unfold State.flushCrossings
  repeat' (first
    | with_reducible assumption
    | with_reducible refine State.crossed_held (hk := ?_) ..
    | with_reducible refine Held.foldl (fun _ _ _ => ?_) ?_
    | split
    | with_reducible refine Held.set_rails (h := ?_) ..
    | dsimp only)

theorem State.resetEvent_held {s₀ : State} (s : State) (kind source : Nat) (interrupted : Bool) (entries coins flushed : Nat)
    (hk : Held s₀ s) : Held s₀ (State.resetEvent s kind source interrupted entries coins flushed) := by
  unfold State.resetEvent
  repeat' (first
    | with_reducible assumption
    | with_reducible first | refine State.modDev_held (hf := fun _ => Held.kept) (hk := ?_) .. | refine State.logAs_held (hk := ?_) ..
    | with_reducible refine Held.ite ?_ ?_
    | split
    | dsimp only)

theorem State.ownerReset_held {s₀ : State} (s : State) (c : Nat) (wake : Bool)
    (hk : Held s₀ s) : Held s₀ (State.ownerReset s c wake).2 := by
  unfold State.ownerReset
  repeat' (first
    | with_reducible assumption
    | with_reducible first | refine State.modCluster_held (hk := ?_) .. | refine State.answer_held (hk := ?_) .. | refine State.dropOwnWaits_held (hk := ?_) ..
    | with_reducible refine Held.ite ?_ ?_
    | with_reducible refine Held.foldl (fun _ _ _ => ?_) ?_
    | split
    | dsimp only)

theorem State.endWindow_held {s₀ : State} (s : State) (c : Nat)
    (hk : Held s₀ s) : Held s₀ (State.endWindow s c) := by
  unfold State.endWindow
  repeat' (first
    | with_reducible assumption
    | with_reducible first | refine State.modCluster_held (hk := ?_) .. | refine State.log_held (hk := ?_) ..
    | with_reducible refine Held.ite ?_ ?_
    | split
    | dsimp only)

theorem State.resetCluster_held {s₀ : State} (s : State) (c : Nat) (wake : Bool)
    (hk : Held s₀ s) : Held s₀ (State.resetCluster s c wake).2.2 := by
  unfold State.resetCluster
  repeat' (first
    | with_reducible assumption
    | with_reducible first | refine State.modSeq_held (hk := ?_) .. | refine State.modCore_held (hk := ?_) .. | refine State.modUnit_held (hk := ?_) .. | refine State.ownerReset_held (hk := ?_) .. | refine State.endWindow_held (hk := ?_) .. | refine State.fencesDone_held (hk := ?_) .. | refine State.releaseBuffers_held (hk := ?_) .. | refine State.haltSeq_held (hk := ?_) .. | refine State.retireLayer_held (hk := ?_) ..
    | with_reducible refine Held.foldl (fun _ _ _ => ?_) ?_
    | split
    | dsimp only)

theorem State.seqMemLost_held {s₀ : State} (s : State) (c : Nat)
    (hk : Held s₀ s) : Held s₀ (State.seqMemLost s c) := by
  unfold State.seqMemLost
  repeat' (first
    | with_reducible assumption
    | with_reducible first | refine State.detect_held (hk := ?_) .. | refine State.closeWindow_held (hk := ?_) .. | refine State.contain_held (hk := ?_) .. | refine State.haltSeq_held (hk := ?_) .. | refine State.flushCrossings_held (hk := ?_) .. | refine State.resetEvent_held (hk := ?_) .. | refine State.resetCluster_held (hk := ?_) ..
    | split
    | dsimp only)

theorem State.onSeq_held {s₀ : State} (s : State) (c : Nat) (t : Tick) (f : State → State) (hf : ∀ t, Held s₀ t → Held s₀ (f t))
    (hk : Held s₀ s) : Held s₀ (State.onSeq s c t f) := by
  unfold State.onSeq
  repeat' (first
    | with_reducible assumption
    | with_reducible refine hf _ ?_
    | with_reducible first | refine State.tick_held (hk := ?_) .. | refine State.seqMemLost_held (hk := ?_) ..
    | with_reducible refine Held.ite ?_ ?_)

theorem State.hazardAt_held {s₀ : State} (s : State) (c pc kind p reg dist retire ctx : Nat)
    (hk : Held s₀ s) : Held s₀ (State.hazardAt s c pc kind p reg dist retire ctx) := by
  unfold State.hazardAt
  repeat' (first
    | with_reducible assumption
    | with_reducible first | refine State.modCluster_held (hk := ?_) .. | refine State.span_held (hk := ?_) .. | refine State.logAs_held (hk := ?_) .. | refine State.haltSeq_held (hk := ?_) .. | refine State.stopCores_held (hk := ?_) ..
    | with_reducible refine Held.ite ?_ ?_
    | split
    | dsimp only)

theorem State.hazard_held {s₀ : State} (s : State) (c kind p reg dist retire ctx : Nat)
    (hk : Held s₀ s) : Held s₀ (State.hazard s c kind p reg dist retire ctx) := by
  unfold State.hazard
  repeat' (first
    | with_reducible assumption
    | with_reducible refine State.hazardAt_held (hk := ?_) ..)

theorem State.sendCfg_held {s₀ : State} (s : State) (c p word : Nat) (v : W64)
    (hk : Held s₀ s) : Held s₀ (State.sendCfg s c p word v) := by
  unfold State.sendCfg
  repeat' (first
    | with_reducible assumption
    | with_reducible first | refine State.modSeq_held (hk := ?_) .. | refine State.hazard_held (hk := ?_) ..
    | with_reducible refine Held.ite ?_ ?_
    | split
    | dsimp only)

theorem execLcbStore_held {s₀ : State} (c : Nat) (t : Tick) (target : Target) (word : Nat) (v : W64) (s : State)
    (hk : Held s₀ s) : Answers (execLcbStore c t target word v s) (Held s₀) := by
  unfold execLcbStore
  repeat' (first
    | with_reducible assumption
    | with_reducible refine Answers.next ?_
    | with_reducible first | refine State.clearTeFlags_held (hk := ?_) .. | refine State.onSeq_held (hk := ?_) (hf := ?_) .. | refine State.sendCfg_held (hk := ?_) ..
    | with_reducible refine Held.ite ?_ ?_
    | with_reducible refine Held.foldl (fun _ _ _ => ?_) ?_
    | intro _ _
    | split
    | dsimp only)

theorem State.poisonWork_held {s₀ : State} (s : State) (arr0 : VaultName)
    (hk : Held s₀ s) : Held s₀ (s.poisonWork arr0) := by
  cases arr0
  · exact State.spoil_held _ _ _ hk
  · exact State.haltSeq_held _ _ _ _ hk

theorem State.bankFails_held {s₀ : State} (s : State) (v : VaultName) (bank : Nat)
    (hk : Held s₀ s) : Held s₀ (State.bankFails s v bank) := by
  unfold State.bankFails
  repeat' (first
    | with_reducible assumption
    | with_reducible first | refine State.ledgerAppend_held (hk := ?_) .. | refine State.detect_held (hk := ?_) .. | refine State.closeWindow_held (hk := ?_) .. | refine State.contain_held (hk := ?_) .. | refine State.modVault_held (hk := ?_) .. | refine State.poisonWork_held (hk := ?_) ..
    | with_reducible refine Held.ite ?_ ?_
    | split
    | dsimp only)

theorem State.vaultCorrectedAt_held {s₀ : State} (s : State) (v : VaultName) (a : Nat)
    (hk : Held s₀ s) : Held s₀ (State.vaultCorrectedAt s v a) := by
  unfold State.vaultCorrectedAt
  repeat' (first
    | with_reducible assumption
    | with_reducible first | refine State.span_held (hk := ?_) .. | refine State.total_held (hk := ?_) .. | refine State.detectLimited_held (hk := ?_) .. | refine State.modVault_held (hk := ?_) .. | refine State.bankFails_held (hk := ?_) ..
    | with_reducible refine Held.ite ?_ ?_
    | split
    | dsimp only)

theorem State.vaultLostAt_held {s₀ : State} (s : State) (v : VaultName) (a : Nat)
    (hk : Held s₀ s) : Held s₀ (State.vaultLostAt s v a) := by
  unfold State.vaultLostAt
  repeat' (first
    | with_reducible assumption
    | with_reducible first | refine State.detect_held (hk := ?_) .. | refine State.bankFails_held (hk := ?_) ..
    | with_reducible refine Held.ite ?_ ?_
    | with_reducible refine Held.set_mem (h := ?_) ..
    | dsimp only)

theorem State.modChannel_held {s₀ : State} (s : State) (n : Nat) (f : Channel → Channel)
    (hk : Held s₀ s) : Held s₀ (State.modChannel s n f) := by
  unfold State.modChannel
  repeat' (first
    | with_reducible assumption
    | with_reducible refine Held.set_dram (hd := Held.kept) (h := ?_) ..)

theorem State.candidate_held {s₀ : State} (s : State) (n row : Nat)
    (hk : Held s₀ s) : Held s₀ (State.candidate s n row) := by
  unfold State.candidate
  repeat' (first
    | with_reducible assumption
    | with_reducible refine State.modChannel_held (hk := ?_) ..
    | split)

theorem State.dramLostAt_held {s₀ : State} (s : State) (a : Nat)
    (hk : Held s₀ s) : Held s₀ (State.dramLostAt s a) := by
  unfold State.dramLostAt
  repeat' (first
    | with_reducible assumption
    | with_reducible first | refine State.modChannel_held (hk := ?_) .. | refine State.span_held (hk := ?_) .. | refine State.total_held (hk := ?_) .. | refine State.detectWith_held (hk := ?_) .. | refine State.candidate_held (hk := ?_) ..
    | with_reducible refine Held.ite ?_ ?_
    | split
    | with_reducible refine Held.set_mem (h := ?_) ..
    | dsimp only)

theorem State.erase_held {s₀ : State} (s : State) (n device : Nat)
    (hk : Held s₀ s) : Held s₀ (State.erase s n device) := by
  unfold State.erase
  repeat' (first
    | with_reducible assumption
    | with_reducible first | refine State.modChannel_held (hk := ?_) .. | refine State.ledgerAppend_held (hk := ?_) .. | refine State.detect_held (hk := ?_) .. | refine State.closeWindow_held (hk := ?_) ..
    | split
    | dsimp only)

theorem State.dramCorrectedAt_held {s₀ : State} (s : State) (a device : Nat)
    (hk : Held s₀ s) : Held s₀ (State.dramCorrectedAt s a device) := by
  unfold State.dramCorrectedAt
  repeat' (first
    | with_reducible assumption
    | with_reducible first | refine State.modChannel_held (hk := ?_) .. | refine State.span_held (hk := ?_) .. | refine State.total_held (hk := ?_) .. | refine State.detectLimited_held (hk := ?_) .. | refine State.candidate_held (hk := ?_) .. | refine State.erase_held (hk := ?_) ..
    | with_reducible refine Held.ite ?_ ?_
    | split
    | dsimp only)

theorem State.dramErrorAt_held {s₀ : State} (s : State) (a device : Nat) (single : Bool)
    (hk : Held s₀ s) : Held s₀ (State.dramErrorAt s a device single) := by
  unfold State.dramErrorAt
  repeat' (first
    | with_reducible assumption
    | with_reducible first | refine State.dramCorrectedAt_held (hk := ?_) .. | refine State.dramLostAt_held (hk := ?_) ..
    | with_reducible refine Held.ite ?_ ?_
    | dsimp only)

theorem State.ecc_held {s₀ : State} (s : State) (x : Nat × EccResult)
    (hk : Held s₀ s) : Held s₀ (State.ecc s x) := by
  unfold State.ecc
  repeat' (first
    | with_reducible assumption
    | with_reducible first | refine State.vaultCorrectedAt_held (hk := ?_) .. | refine State.vaultLostAt_held (hk := ?_) .. | refine State.dramLostAt_held (hk := ?_) .. | refine State.dramErrorAt_held (hk := ?_) ..
    | with_reducible refine Held.ite ?_ ?_
    | split)

theorem State.eccAll_held {s₀ : State} (s : State) (xs : List (Nat × EccResult))
    (hk : Held s₀ s) : Held s₀ (State.eccAll s xs) := by
  unfold State.eccAll
  repeat' (first
    | with_reducible assumption
    | with_reducible refine State.ecc_held (hk := ?_) ..
    | with_reducible refine Held.foldl (fun _ _ _ => ?_) ?_)

theorem State.goReads_held {s₀ : State} (s : State) (c p : Nat)
    (hk : Held s₀ s) : Held s₀ (State.goReads s c p) := by
  unfold State.goReads
  repeat' (first
    | with_reducible assumption
    | with_reducible refine State.hazard_held (hk := ?_) ..
    | with_reducible refine Held.foldl (fun _ _ _ => ?_) ?_
    | split
    | dsimp only)

theorem State.absentEvent_held {s₀ : State} (s : State) (c number : Nat) (physical : Bool)
    (hk : Held s₀ s) : Held s₀ (State.absentEvent s c number physical) := by
  unfold State.absentEvent
  repeat' (first
    | with_reducible assumption
    | with_reducible refine State.log_held (hk := ?_) ..)

theorem State.refuseStart_held {s₀ : State} (s : State) (c : Nat) (ps : List Nat) (st : Status) (absent : Option Nat)
    (hk : Held s₀ s) : Held s₀ (State.refuseStart s c ps st absent) := by
  unfold State.refuseStart
  repeat' (first
    | with_reducible assumption
    | with_reducible first | refine State.modCore_held (hk := ?_) .. | refine State.log_held (hk := ?_) .. | refine State.haltSeq_held (hk := ?_) .. | refine State.absentEvent_held (hk := ?_) ..
    | with_reducible refine Held.foldl (fun _ _ _ => ?_) ?_
    | split
    | dsimp only)

theorem State.refuse_held {s₀ : State} (s : State) (c : Nat) (ps : List Nat) (st : Status)
    (hk : Held s₀ s) : Held s₀ (State.refuse s c ps st) := by
  unfold State.refuse
  repeat' (first
    | with_reducible assumption
    | with_reducible refine State.refuseStart_held (hk := ?_) ..)

theorem State.storePiece_held {s₀ : State} (s : State) (p : Nat × List Byte) (src : Nat → Bool)
    (hk : Held s₀ s) : Held s₀ (State.storePiece s p src) := by
  unfold State.storePiece
  repeat' (first
    | with_reducible assumption
    | with_reducible refine State.modChannel_held (hk := ?_) ..
    | with_reducible refine Held.ite ?_ ?_
    | split
    | with_reducible refine Held.set_mem (h := ?_) ..)

theorem State.writeMem_held {s₀ : State} (s : State) (a : Nat) (bs : List Byte) (src : Nat → Bool)
    (hk : Held s₀ s) : Held s₀ (State.writeMem s a bs src) := by
  unfold State.writeMem
  repeat' (first
    | with_reducible assumption
    | with_reducible refine State.storePiece_held (hk := ?_) ..
    | with_reducible refine Held.foldl (fun _ _ _ => ?_) ?_
    | split)

theorem State.copyMem_held {s₀ : State} (s : State) (src dst n : Nat)
    (hk : Held s₀ s) : Held s₀ (State.copyMem s src dst n) := by
  unfold State.copyMem
  repeat' (first
    | with_reducible assumption
    | with_reducible refine State.writeMem_held (hk := ?_) ..
    | dsimp only)

theorem State.sendRead_held {s₀ : State} (s : State) (dest : Coord) (src : Nat) (w : ReadWait)
    (hk : Held s₀ s) : Held s₀ (State.sendRead s dest src w).2 := by
  unfold State.sendRead
  repeat' (first
    | with_reducible assumption
    | with_reducible first | refine State.modRtr_held (hk := ?_) .. | refine State.inject_held (hk := ?_) ..
    | with_reducible refine Held.pair (by assumption) ?_
    | split
    | dsimp only)

theorem State.fillPiece_held {s₀ : State} (s : State) (c b : Nat) (dest : Coord) (src dst n : Nat)
    (hk : Held s₀ s) : Held s₀ (State.fillPiece s c b dest src dst n) := by
  unfold State.fillPiece
  repeat' (first
    | with_reducible assumption
    | with_reducible first | refine State.copyMem_held (hk := ?_) .. | refine State.log_held (hk := ?_) .. | refine State.sendRead_held (hk := ?_) .. | refine State.filled_held (hk := ?_) .. | refine State.fillFailed_held (hk := ?_) ..
    | with_reducible refine Held.ite ?_ ?_
    | with_reducible refine Held.pair (by assumption) ?_
    | split)

theorem State.issueFill_held {s₀ : State} (s : State) (i : Nat)
    (hk : Held s₀ s) : Held s₀ (State.issueFill s i) := by
  unfold State.issueFill
  repeat' (first
    | with_reducible assumption
    | with_reducible first | refine State.modCol_held (hk := ?_) .. | refine State.modLb_held (hk := ?_) .. | refine State.fillFailed_held (hk := ?_) .. | refine State.fillPiece_held (hk := ?_) .. | refine State.cancelBuffer_held (hk := ?_) ..
    | with_reducible refine Held.ite ?_ ?_
    | with_reducible refine Held.foldl (fun _ _ _ => ?_) ?_
    | split
    | dsimp only)

theorem State.runAhead_held {s₀ : State} (s : State) (ahead : List (Nat × Nat))
    (hk : Held s₀ s) : Held s₀ (State.runAhead s ahead) := by
  unfold State.runAhead
  repeat' (first
    | with_reducible assumption
    | with_reducible refine State.issueFill_held (hk := ?_) ..
    | with_reducible refine Held.foldl (fun _ _ _ => ?_) ?_
    | split)

theorem State.place_held {s₀ : State} (s : State) (c : Nat) (w : WaitingStart) (div : Nat)
    (hk : Held s₀ s) : Held s₀ (State.place s c w div) := by
  unfold State.place
  repeat' (first
    | with_reducible assumption
    | with_reducible first | refine State.modCluster_held (hk := ?_) .. | refine State.modCore_held (hk := ?_) .. | refine State.modLb_held (hk := ?_) .. | refine State.runAhead_held (hk := ?_) .. | refine State.beginLayer_held (hk := ?_) ..
    | with_reducible refine Held.foldl (fun _ _ _ => ?_) ?_
    | split
    | dsimp only)

theorem State.tryStart_held {s₀ : State} (s : State) (c : Nat) (w : WaitingStart)
    (hk : Held s₀ s) : Held s₀ (State.tryStart s c w).2 := by
  unfold State.tryStart
  repeat' (first
    | with_reducible assumption
    | with_reducible first | refine State.modSeq_held (hk := ?_) .. | refine State.modPurse_held (hk := ?_) .. | refine State.span_held (hk := ?_) .. | refine State.place_held (hk := ?_) ..
    | with_reducible refine Held.ite2 ?_ ?_
    | split
    | dsimp only)

theorem State.startOn_held {s₀ : State} (s : State) (c : Nat) (broadcast : Bool) (ps : List Nat) (buffers : List Nat) (ahead : List (Nat × Nat))
    (hk : Held s₀ s) : Held s₀ (State.startOn s c broadcast ps buffers ahead) := by
  unfold State.startOn
  repeat' (first
    | with_reducible assumption
    | with_reducible first | refine State.tryStart_held (hk := ?_) .. | refine State.refuse_held (hk := ?_) ..
    | with_reducible refine Held.ite ?_ ?_
    | split
    | dsimp only)

theorem State.refuseLogical_held {s₀ : State} (s : State) (c n : Nat)
    (hk : Held s₀ s) : Held s₀ (State.refuseLogical s c n) := by
  unfold State.refuseLogical
  repeat' (first
    | with_reducible assumption
    | with_reducible first | refine State.haltSeq_held (hk := ?_) .. | refine State.absentEvent_held (hk := ?_) ..)

theorem execLayerStart_held {s₀ : State} (c : Nat) (t : Tick) (target : Target) (buffers : List Nat) (ahead : List (Nat × Nat)) (ecc : List (Nat × EccResult)) (s : State)
    (hk : Held s₀ s) : Answers (execLayerStart c t target buffers ahead ecc s) (Held s₀) := by
  unfold execLayerStart
  repeat' (first
    | with_reducible assumption
    | with_reducible refine Answers.next ?_
    | with_reducible first | refine State.eccAll_held (hk := ?_) .. | refine State.onSeq_held (hk := ?_) (hf := ?_) .. | refine State.goReads_held (hk := ?_) .. | refine State.refuse_held (hk := ?_) .. | refine State.startOn_held (hk := ?_) .. | refine State.refuseLogical_held (hk := ?_) ..
    | with_reducible refine Held.ite ?_ ?_
    | with_reducible refine Held.foldl (fun _ _ _ => ?_) ?_
    | intro _ _
    | split
    | dsimp only)

theorem execLayerWait_held {s₀ : State} (c : Nat) (t : Tick) (mask : Nat) (s : State)
    (hk : Held s₀ s) : Answers (execLayerWait c t mask s) (Held s₀) := by
  unfold execLayerWait
  repeat' (first
    | with_reducible assumption
    | with_reducible refine Answers.next ?_
    | with_reducible first | refine State.modSeq_held (hk := ?_) .. | refine State.onSeq_held (hk := ?_) (hf := ?_) ..
    | with_reducible refine Held.ite ?_ ?_
    | intro _ _
    | split
    | dsimp only)

theorem State.retryStart_held {s₀ : State} (s : State) (c : Nat)
    (hk : Held s₀ s) : Held s₀ (State.retryStart s c) := by
  unfold State.retryStart
  repeat' (first
    | with_reducible assumption
    | with_reducible refine State.tryStart_held (hk := ?_) ..
    | with_reducible refine Held.ite ?_ ?_
    | split)

theorem State.serviceLayers_held {s₀ : State} (s : State) (c : Nat)
    (hk : Held s₀ s) : Held s₀ (State.serviceLayers s c) := by
  unfold State.serviceLayers
  repeat' (first
    | with_reducible assumption
    | with_reducible first | refine State.modSeq_held (hk := ?_) .. | refine State.endOn_held (hk := ?_) ..
    | with_reducible refine Held.ite ?_ ?_
    | split
    | dsimp only)

theorem State.afterLayer_held {s₀ : State} (s : State) (p : Nat) (st : Status)
    (hk : Held s₀ s) : Held s₀ (State.afterLayer s p st) := by
  unfold State.afterLayer
  repeat' (first
    | with_reducible assumption
    | with_reducible first | refine State.fencesDone_held (hk := ?_) .. | refine State.stopAt_held (hk := ?_) .. | refine State.haltSeq_held (hk := ?_) .. | refine State.beginLayer_held (hk := ?_) .. | refine State.retryStart_held (hk := ?_) .. | refine State.serviceLayers_held (hk := ?_) ..
    | with_reducible refine Held.ite ?_ ?_
    | dsimp only)

theorem execLayerComplete_held {s₀ : State} (p : Nat) (s : State)
    (hk : Held s₀ s) : Answers (execLayerComplete p s) (Held s₀) := by
  unfold execLayerComplete
  repeat' (first
    | with_reducible assumption
    | with_reducible refine Answers.next ?_
    | with_reducible refine Answers.ite ?_ ?_
    | with_reducible first | refine State.span_held (hk := ?_) .. | refine State.retireLayer_held (hk := ?_) .. | refine State.afterLayer_held (hk := ?_) ..
    | with_reducible refine Held.ite ?_ ?_
    | split
    | dsimp only)

theorem execHwmClear_held {s₀ : State} (c : Nat) (t : Tick) (i : Nat) (v : W64) (s : State)
    (hk : Held s₀ s) : Answers (execHwmClear c t i v s) (Held s₀) := by
  unfold execHwmClear
  repeat' (first
    | with_reducible assumption
    | with_reducible refine Answers.next ?_
    | with_reducible refine State.onSeq_held (hk := ?_) (hf := ?_) ..
    | with_reducible refine Held.ite ?_ ?_
    | intro _ _
    | split
    | with_reducible refine Held.set_hwm (h := ?_) ..
    | dsimp only)

theorem execSeqTableWrite_held {s₀ : State} (c : Nat) (t : Tick) (slot : Nat) (high : Bool) (v : W64) (s : State)
    (hk : Held s₀ s) : Answers (execSeqTableWrite c t slot high v s) (Held s₀) := by
  unfold execSeqTableWrite
  repeat' (first
    | with_reducible assumption
    | with_reducible refine Answers.next ?_
    | with_reducible first | refine State.modClusters_held (hk := ?_) .. | refine State.onSeq_held (hk := ?_) (hf := ?_) ..
    | with_reducible refine Held.ite ?_ ?_
    | intro _ _
    | split
    | dsimp only)

theorem execSeqTableCommit_held {s₀ : State} (c : Nat) (t : Tick) (v : W64) (s : State)
    (hk : Held s₀ s) : Answers (execSeqTableCommit c t v s) (Held s₀) := by
  unfold execSeqTableCommit
  repeat' (first
    | with_reducible assumption
    | with_reducible refine Answers.next ?_
    | with_reducible first | refine State.modClusters_held (hk := ?_) .. | refine State.modSeq_held (hk := ?_) .. | refine State.log_held (hk := ?_) .. | refine State.onSeq_held (hk := ?_) (hf := ?_) ..
    | with_reducible refine Held.ite ?_ ?_
    | intro _ _
    | split
    | dsimp only)

theorem execLossRead_held {s₀ : State} (c : Nat) (t : Tick) (slot : Nat) (s : State)
    (hk : Held s₀ s) : Answers (execLossRead c t slot s) (Held s₀) := by
  unfold execLossRead
  repeat' (first
    | with_reducible assumption
    | with_reducible refine Answers.next ?_
    | with_reducible first | refine State.modSeq_held (hk := ?_) .. | refine State.onSeq_held (hk := ?_) (hf := ?_) ..
    | with_reducible refine Held.ite ?_ ?_
    | intro _ _
    | split
    | dsimp only)

theorem execLossClear_held {s₀ : State} (c : Nat) (t : Tick) (slot : Nat) (v : W64) (s : State)
    (hk : Held s₀ s) : Answers (execLossClear c t slot v s) (Held s₀) := by
  unfold execLossClear
  repeat' (first
    | with_reducible assumption
    | with_reducible refine Answers.next ?_
    | with_reducible first | refine State.modClusters_held (hk := ?_) .. | refine State.onSeq_held (hk := ?_) (hf := ?_) ..
    | with_reducible refine Held.ite ?_ ?_
    | intro _ _
    | split
    | dsimp only)

theorem execTimerWait_held {s₀ : State} (c : Nat) (t : Tick) (n : Nat) (v : W64) (s : State)
    (hk : Held s₀ s) : Answers (execTimerWait c t n v s) (Held s₀) := by
  unfold execTimerWait
  repeat' (first
    | with_reducible assumption
    | with_reducible refine Answers.next ?_
    | with_reducible first | refine State.modSeq_held (hk := ?_) .. | refine State.onSeq_held (hk := ?_) (hf := ?_) ..
    | with_reducible refine Held.ite ?_ ?_
    | intro _ _
    | split
    | dsimp only)

theorem execSeqCompletion_held {s₀ : State} (c : Nat) (t : Tick) (word : W64) (s : State)
    (hk : Held s₀ s) : Answers (execSeqCompletion c t word s) (Held s₀) := by
  unfold execSeqCompletion
  repeat' (first
    | with_reducible assumption
    | with_reducible refine Answers.next ?_
    | with_reducible first | refine State.modSeq_held (hk := ?_) .. | refine State.endOn_held (hk := ?_) .. | refine State.onSeq_held (hk := ?_) (hf := ?_) ..
    | with_reducible refine Held.ite ?_ ?_
    | intro _ _
    | split
    | dsimp only)

theorem execProgramNote_held {s₀ : State} (c : Nat) (t : Tick) (bytes : List Byte) (s : State)
    (hk : Held s₀ s) : Answers (execProgramNote c t bytes s) (Held s₀) := by
  unfold execProgramNote
  repeat' (first
    | with_reducible assumption
    | with_reducible refine Answers.next ?_
    | with_reducible first | refine State.logAs_held (hk := ?_) .. | refine State.onSeq_held (hk := ?_) (hf := ?_) ..
    | intro _ _
    | split
    | dsimp only)

theorem execSeqAddressFault_held {s₀ : State} (c : Nat) (t : Tick) (s : State)
    (hk : Held s₀ s) : Answers (execSeqAddressFault c t s) (Held s₀) := by
  unfold execSeqAddressFault
  repeat' (first
    | with_reducible assumption
    | with_reducible refine Answers.next ?_
    | with_reducible first | refine State.haltSeq_held (hk := ?_) .. | refine State.onSeq_held (hk := ?_) (hf := ?_) ..
    | intro _ _
    | split
    | dsimp only)

theorem execSeqInstructionFault_held {s₀ : State} (c : Nat) (t : Tick) (s : State)
    (hk : Held s₀ s) : Answers (execSeqInstructionFault c t s) (Held s₀) := by
  unfold execSeqInstructionFault
  repeat' (first
    | with_reducible assumption
    | with_reducible refine Answers.next ?_
    | with_reducible first | refine State.haltSeq_held (hk := ?_) .. | refine State.onSeq_held (hk := ?_) (hf := ?_) ..
    | intro _ _
    | split
    | dsimp only)

theorem execSeqMemUncorrected_held {s₀ : State} (c : Nat) (s : State)
    (hk : Held s₀ s) : Answers (execSeqMemUncorrected c s) (Held s₀) := by
  unfold execSeqMemUncorrected
  repeat' (first
    | with_reducible assumption
    | with_reducible refine Answers.next ?_
    | with_reducible refine Answers.ite ?_ ?_
    | with_reducible refine State.seqMemLost_held (hk := ?_) ..
    | dsimp only)

theorem execDebugResume_held {s₀ : State} (c : Nat) (s : State)
    (hk : Held s₀ s) : Answers (execDebugResume c s) (Held s₀) := by
  unfold execDebugResume
  repeat' (first
    | with_reducible assumption
    | with_reducible refine Answers.next ?_
    | with_reducible refine Answers.ite ?_ ?_
    | with_reducible first | refine State.modSeq_held (hk := ?_) .. | refine State.retryStart_held (hk := ?_) .. | refine State.modSeqWaits_held (hk := ?_) ..
    | split
    | dsimp only)

theorem State.tileParity_held {s₀ : State} (s : State) (p : Nat) (bad : Bool)
    (hk : Held s₀ s) : Held s₀ (State.tileParity s p bad) := by
  unfold State.tileParity
  repeat' (first
    | with_reducible assumption
    | with_reducible first | refine State.span_held (hk := ?_) .. | refine State.detect_held (hk := ?_) ..
    | with_reducible refine Held.ite ?_ ?_)

theorem execMxeIssue_held {s₀ : State} (p dt : Nat) (ecc : List (Nat × EccResult)) (parity : List (Nat × Nat)) (s : State)
    (hk : Held s₀ s) : Answers (execMxeIssue p dt ecc parity s) (Held s₀) := by
  unfold execMxeIssue
  repeat' (first
    | with_reducible assumption
    | with_reducible refine Answers.next ?_
    | with_reducible refine Answers.ite ?_ ?_
    | with_reducible first | refine State.mxeIssue_held (hk := ?_) .. | refine State.advance_held (hk := ?_) .. | refine State.eccAll_held (hk := ?_) .. | refine State.tileParity_held (hk := ?_) .. | refine State.wakeStalled_held (hk := ?_) .. | refine State.poisonAccs_held (hk := ?_) ..
    | with_reducible refine Held.ite ?_ ?_
    | dsimp only)

theorem execFinishedTileDrain_held {s₀ : State} (p i : Nat) (ecc : List (Nat × EccResult)) (parity : List (Nat × Nat)) (s : State)
    (hk : Held s₀ s) : Answers (execFinishedTileDrain p i ecc parity s) (Held s₀) := by
  unfold execFinishedTileDrain
  repeat' (first
    | with_reducible assumption
    | with_reducible refine Answers.next ?_
    | with_reducible refine Answers.ite ?_ ?_
    | with_reducible first | refine State.mxeDrain_held (hk := ?_) .. | refine State.eccAll_held (hk := ?_) .. | refine State.tileParity_held (hk := ?_) .. | refine State.wakeStalled_held (hk := ?_) ..
    | with_reducible refine Held.ite ?_ ?_
    | dsimp only)

theorem State.hazards_held {s₀ : State} (s : State) (p i : Nat) (hs : List Haz)
    (hk : Held s₀ s) : Held s₀ (State.hazards s p i hs) := by
  unfold State.hazards
  repeat' (first
    | with_reducible assumption
    | with_reducible refine State.hazardAt_held (hk := ?_) ..
    | with_reducible refine Held.foldl (fun _ _ _ => ?_) ?_
    | split
    | dsimp only)

theorem State.writeResults_held {s₀ : State} (s : State) (p i dst dist : Nat) (reads : List Nat) (early : Bool) (srcFl : Flags) (rs : List (Nat × FV)) (units : List (Nat × Bool)) (parity : List Nat)
    (hk : Held s₀ s) : Held s₀ (State.writeResults s p i dst dist reads early srcFl rs units parity) := by
  unfold State.writeResults
  repeat' (first
    | with_reducible assumption
    | with_reducible first | refine State.modCore_held (hk := ?_) .. | refine State.hazards_held (hk := ?_) .. | refine State.tileParity_held (hk := ?_) ..
    | split
    | dsimp only)

theorem State.laneOp_held {s₀ : State} (s : State) (p i : Nat) (f : LaneFn) (dst : Nat) (srcs : List TeSrc) (early : Bool) (parity : List Nat)
    (hk : Held s₀ s) : Held s₀ (State.laneOp s p i f dst srcs early parity) := by
  unfold State.laneOp
  repeat' (first
    | with_reducible assumption
    | with_reducible refine State.writeResults_held (hk := ?_) ..
    | split
    | dsimp only)

theorem State.treeOp_held {s₀ : State} (s : State) (p i : Nat) (f : TreeFn) (byRow : Bool) (dst : Nat) (src : TeSrc) (early : Bool) (parity : List Nat)
    (hk : Held s₀ s) : Held s₀ (State.treeOp s p i f byRow dst src early parity) := by
  unfold State.treeOp
  repeat' (first
    | with_reducible assumption
    | with_reducible refine State.writeResults_held (hk := ?_) ..
    | split
    | dsimp only)

theorem State.remoteFault_held {s₀ : State} (s : State) (p : Packet)
    (hk : Held s₀ s) : Held s₀ (State.remoteFault s p) := by
  unfold State.remoteFault
  repeat' (first
    | with_reducible assumption
    | with_reducible refine State.log_held (hk := ?_) ..)

theorem State.remoteWrite_held {s₀ : State} (s : State) (p : Packet)
    (hk : Held s₀ s) : Held s₀ (State.remoteWrite s p) := by
  unfold State.remoteWrite
  repeat' (first
    | with_reducible assumption
    | with_reducible first | refine State.modRtr_held (hk := ?_) .. | refine State.writeMem_held (hk := ?_) .. | refine State.accepted_held (hk := ?_) .. | refine State.remoteFault_held (hk := ?_) .. | refine State.wakeAt_held (hk := ?_) ..
    | with_reducible refine Held.ite ?_ ?_
    | split)

theorem State.streamWrite_held {s₀ : State} (s : State) (p : Nat) (dev : Coord) (reg off addr bytes : Nat) (sealed : Option (Nat × Nat × Nat))
    (hk : Held s₀ s) : Held s₀ (State.streamWrite s p dev reg off addr bytes sealed) := by
  unfold State.streamWrite
  repeat' (first
    | with_reducible assumption
    | with_reducible first | refine State.inject_held (hk := ?_) .. | refine State.spoil_held (hk := ?_) .. | refine State.remoteWrite_held (hk := ?_) ..
    | with_reducible refine Held.ite ?_ ?_
    | with_reducible refine Held.pair (by assumption) ?_
    | split
    | dsimp only)

theorem State.tileFault_held {s₀ : State} (s : State) (p a : Nat)
    (hk : Held s₀ s) : Held s₀ (State.tileFault s p a) := by
  unfold State.tileFault
  repeat' (first
    | with_reducible assumption
    | with_reducible first | refine State.log_held (hk := ?_) .. | refine State.spoil_held (hk := ?_) ..
    | split
    | dsimp only)

theorem State.loadWrite_held {s₀ : State} (s : State) (p i dist : Nat) (l : LoadReq) (x : Loaded)
    (hk : Held s₀ s) : Held s₀ (State.loadWrite s p i dist l x) := by
  unfold State.loadWrite
  repeat' (first
    | with_reducible assumption
    | with_reducible first | refine State.modCore_held (hk := ?_) .. | refine State.hazards_held (hk := ?_) ..
    | split
    | dsimp only)

theorem State.localLoad_held {s₀ : State} (s : State) (p i reg off addr bytes : Nat) (form : Option Expansion)
    (hk : Held s₀ s) : Held s₀ (State.localLoad s p i reg off addr bytes form) := by
  unfold State.localLoad
  repeat' (first
    | with_reducible assumption
    | with_reducible first | refine State.modCore_held (hk := ?_) .. | refine State.tileFault_held (hk := ?_) .. | refine State.loadWrite_held (hk := ?_) ..
    | with_reducible refine Held.ite ?_ ?_
    | split
    | dsimp only)

theorem State.deviceLoad_held {s₀ : State} (s : State) (p i : Nat) (dev : Coord) (reg off addr bytes : Nat)
    (hk : Held s₀ s) : Held s₀ (State.deviceLoad s p i dev reg off addr bytes) := by
  unfold State.deviceLoad
  repeat' (first
    | with_reducible assumption
    | with_reducible first | refine State.modCore_held (hk := ?_) .. | refine State.log_held (hk := ?_) .. | refine State.spoil_held (hk := ?_) .. | refine State.sendRead_held (hk := ?_) ..
    | with_reducible refine Held.ite ?_ ?_
    | with_reducible refine Held.pair (by assumption) ?_
    | split
    | dsimp only)

theorem State.teEffect_held {s₀ : State} (s : State) (p i : Nat) (ly : Layer) (o : TeOp) (parity : List Nat)
    (hk : Held s₀ s) : Held s₀ (State.teEffect s p i ly o parity) := by
  unfold State.teEffect
  repeat' (first
    | with_reducible assumption
    | with_reducible first | refine State.modCore_held (hk := ?_) .. | refine State.finishRowTile_held (hk := ?_) .. | refine State.epilogue_held (hk := ?_) .. | refine State.teTile_held (hk := ?_) .. | refine State.storeRegion_held (hk := ?_) .. | refine State.hazards_held (hk := ?_) .. | refine State.laneOp_held (hk := ?_) .. | refine State.treeOp_held (hk := ?_) .. | refine State.streamWrite_held (hk := ?_) .. | refine State.localLoad_held (hk := ?_) .. | refine State.deviceLoad_held (hk := ?_) ..
    | with_reducible refine Held.ite ?_ ?_
    | split
    | dsimp only)

theorem execTileOperation_held {s₀ : State} (p i dt : Nat) (o : TeOp) (ecc : List (Nat × EccResult)) (parity : List Nat) (s : State)
    (hk : Held s₀ s) : Answers (execTileOperation p i dt o ecc parity s) (Held s₀) := by
  unfold execTileOperation
  repeat' (first
    | with_reducible assumption
    | with_reducible refine Answers.next ?_
    | with_reducible first | refine State.modCore_held (hk := ?_) .. | refine State.advance_held (hk := ?_) .. | refine State.eccAll_held (hk := ?_) .. | refine State.teEffect_held (hk := ?_) ..
    | split
    | dsimp only)

theorem execLoadLand_held {s₀ : State} (p i dt j : Nat) (ecc : List (Nat × EccResult)) (s : State)
    (hk : Held s₀ s) : Answers (execLoadLand p i dt j ecc s) (Held s₀) := by
  unfold execLoadLand
  repeat' (first
    | with_reducible assumption
    | with_reducible refine Answers.next ?_
    | with_reducible refine Answers.ite ?_ ?_
    | with_reducible first | refine State.advance_held (hk := ?_) .. | refine State.eccAll_held (hk := ?_) .. | refine State.loadWrite_held (hk := ?_) .. | refine State.loadDone_held (hk := ?_) ..
    | split
    | dsimp only)

theorem State.putCoins_held {s₀ : State} (s : State) (c q : Nat) (coins : List W32)
    (hk : Held s₀ s) : Held s₀ (State.putCoins s c q coins) := by
  unfold State.putCoins
  repeat' (first
    | with_reducible assumption
    | with_reducible first | refine State.modCluster_held (hk := ?_) .. | refine State.logLimited_held (hk := ?_) .. | refine State.modQueue_held (hk := ?_) .. | refine State.release_held (hk := ?_) ..
    | with_reducible refine Held.ite ?_ ?_
    | split
    | dsimp only)

theorem State.joinQueue_held {s₀ : State} (s : State) (c q : Nat) (who : Requester) (n : Option Nat)
    (hk : Held s₀ s) : Held s₀ (State.joinQueue s c q who n) := by
  unfold State.joinQueue
  repeat' (first
    | with_reducible assumption
    | with_reducible first | refine State.modCluster_held (hk := ?_) .. | refine State.answer_held (hk := ?_) .. | refine State.modQueue_held (hk := ?_) .. | refine State.release_held (hk := ?_) ..
    | with_reducible refine Held.ite ?_ ?_
    | split)

theorem State.dropCoin_held {s₀ : State} (s : State) (c : Nat)
    (hk : Held s₀ s) : Held s₀ (State.dropCoin s c) := by
  unfold State.dropCoin
  repeat' (first
    | with_reducible assumption
    | with_reducible first | refine State.modCluster_held (hk := ?_) .. | refine State.log_held (hk := ?_) ..
    | with_reducible refine Held.ite ?_ ?_
    | split
    | dsimp only)

theorem State.coinApply_held {s₀ : State} (s : State) (c q : Nat) (who : Requester) (op : CoinOp)
    (hk : Held s₀ s) : Held s₀ (State.coinApply s c q who op) := by
  unfold State.coinApply
  repeat' (first
    | with_reducible assumption
    | with_reducible first | refine State.wake_held (hk := ?_) .. | refine State.answer_held (hk := ?_) .. | refine State.putCoins_held (hk := ?_) .. | refine State.joinQueue_held (hk := ?_) .. | refine State.dropCoin_held (hk := ?_) ..
    | with_reducible refine Held.ite ?_ ?_
    | split
    | dsimp only)

theorem State.coinLocal_held {s₀ : State} (s : State) (c q : Nat) (who : Requester) (op : CoinOp)
    (hk : Held s₀ s) : Held s₀ (State.coinLocal s c q who op) := by
  unfold State.coinLocal
  repeat' (first
    | with_reducible assumption
    | with_reducible first | refine State.coinApply_held (hk := ?_) .. | refine State.waitCoin_held (hk := ?_) ..
    | with_reducible refine Held.ite ?_ ?_
    | split)

theorem State.reqTick_held {s₀ : State} (s : State) (c : Nat) (who : Requester) (t : Tick)
    (hk : Held s₀ s) : Held s₀ (State.reqTick s c who t) := by
  unfold State.reqTick
  repeat' (first
    | with_reducible assumption
    | with_reducible first | refine State.advance_held (hk := ?_) .. | refine State.tick_held (hk := ?_) ..
    | split)

theorem State.ownCoin_held {s₀ : State} (s : State) (c : Nat) (who : Requester) (t : Tick) (q : Nat) (op : CoinOp)
    (hk : Held s₀ s) : Held s₀ (State.ownCoin s c who t q op) := by
  unfold State.ownCoin
  repeat' (first
    | with_reducible assumption
    | with_reducible first | refine State.coinLocal_held (hk := ?_) .. | refine State.seqMemLost_held (hk := ?_) .. | refine State.reqTick_held (hk := ?_) ..
    | with_reducible refine Held.ite ?_ ?_
    | dsimp only)

theorem execDeposit_held {s₀ : State} (c : Nat) (who : Requester) (t : Tick) (q : Nat) (coin : W32) (s : State)
    (hk : Held s₀ s) : Answers (execDeposit c who t q coin s) (Held s₀) := by
  unfold execDeposit
  repeat' (first
    | with_reducible assumption
    | with_reducible refine Answers.next ?_
    | with_reducible refine State.ownCoin_held (hk := ?_) ..
    | dsimp only)

theorem execTake_held {s₀ : State} (c : Nat) (who : Requester) (t : Tick) (q : Nat) (s : State)
    (hk : Held s₀ s) : Answers (execTake c who t q s) (Held s₀) := by
  unfold execTake
  repeat' (first
    | with_reducible assumption
    | with_reducible refine Answers.next ?_
    | with_reducible refine State.ownCoin_held (hk := ?_) ..
    | dsimp only)

theorem execPeek_held {s₀ : State} (c : Nat) (who : Requester) (t : Tick) (q : Nat) (s : State)
    (hk : Held s₀ s) : Answers (execPeek c who t q s) (Held s₀) := by
  unfold execPeek
  repeat' (first
    | with_reducible assumption
    | with_reducible refine Answers.next ?_
    | with_reducible refine State.ownCoin_held (hk := ?_) ..
    | dsimp only)

theorem execBell_held {s₀ : State} (c : Nat) (who : Requester) (t : Tick) (q : Nat) (coin : W32) (n : Nat) (s : State)
    (hk : Held s₀ s) : Answers (execBell c who t q coin n s) (Held s₀) := by
  unfold execBell
  repeat' (first
    | with_reducible assumption
    | with_reducible refine Answers.next ?_
    | with_reducible refine State.ownCoin_held (hk := ?_) ..
    | dsimp only)

theorem execTakeNArm_held {s₀ : State} (c : Nat) (t : Tick) (q n : Nat) (s : State)
    (hk : Held s₀ s) : Answers (execTakeNArm c t q n s) (Held s₀) := by
  unfold execTakeNArm
  repeat' (first
    | with_reducible assumption
    | with_reducible refine Answers.next ?_
    | with_reducible first | refine State.modCluster_held (hk := ?_) .. | refine State.onSeq_held (hk := ?_) (hf := ?_) ..
    | with_reducible refine Held.ite ?_ ?_
    | intro _ _
    | split
    | dsimp only)

theorem execTakeN_held {s₀ : State} (c : Nat) (who : Requester) (t : Tick) (q n : Nat) (s : State)
    (hk : Held s₀ s) : Answers (execTakeN c who t q n s) (Held s₀) := by
  unfold execTakeN
  repeat' (first
    | with_reducible assumption
    | with_reducible refine Answers.next ?_
    | with_reducible first | refine State.modCluster_held (hk := ?_) .. | refine State.coinLocal_held (hk := ?_) .. | refine State.haltSeq_held (hk := ?_) .. | refine State.onSeq_held (hk := ?_) (hf := ?_) .. | refine State.ownCoin_held (hk := ?_) ..
    | intro _ _
    | split
    | dsimp only)

theorem State.coinRemote_held {s₀ : State} (s : State) (c : Nat) (who : Requester) (dest : Coord) (tc q : Nat) (op : CoinOp)
    (hk : Held s₀ s) : Held s₀ (State.coinRemote s c who dest tc q op) := by
  unfold State.coinRemote
  repeat' (first
    | with_reducible assumption
    | with_reducible first | refine State.modRtr_held (hk := ?_) .. | refine State.inject_held (hk := ?_) .. | refine State.toRequester_held (hk := ?_) .. | refine State.coinApply_held (hk := ?_) ..
    | with_reducible refine Held.ite ?_ ?_
    | with_reducible refine Held.pair (by assumption) ?_
    | split
    | dsimp only)

theorem State.goRemote_held {s₀ : State} (s : State) (c : Nat) (who : Requester) (target : W64) (coin : W32)
    (hk : Held s₀ s) : Held s₀ (State.goRemote s c who target coin) := by
  unfold State.goRemote
  repeat' (first
    | with_reducible assumption
    | with_reducible first | refine State.toRequester_held (hk := ?_) .. | refine State.waitCoin_held (hk := ?_) .. | refine State.coinRemote_held (hk := ?_) ..
    | with_reducible refine Held.ite ?_ ?_
    | split
    | dsimp only)

theorem execRemoteCoinGo_held {s₀ : State} (c : Nat) (who : Requester) (t : Tick) (target : W64) (coin : W32) (load : Bool) (s : State)
    (hk : Held s₀ s) : Answers (execRemoteCoinGo c who t target coin load s) (Held s₀) := by
  unfold execRemoteCoinGo
  repeat' (first
    | with_reducible assumption
    | with_reducible refine Answers.next ?_
    | with_reducible refine Answers.ite ?_ ?_
    | with_reducible first | refine State.modCluster_held (hk := ?_) .. | refine State.waitCoin_held (hk := ?_) .. | refine State.seqMemLost_held (hk := ?_) .. | refine State.reqTick_held (hk := ?_) .. | refine State.goRemote_held (hk := ?_) ..
    | with_reducible refine Held.ite ?_ ?_
    | split
    | dsimp only)

theorem State.coinRequest_held {s₀ : State} (s : State) (p : Packet)
    (hk : Held s₀ s) : Held s₀ (State.coinRequest s p) := by
  unfold State.coinRequest
  repeat' (first
    | with_reducible assumption
    | with_reducible first | refine State.coinApply_held (hk := ?_) .. | refine State.consumed_held (hk := ?_) .. | refine State.badPacket_held (hk := ?_) ..
    | with_reducible refine Held.ite ?_ ?_
    | split
    | dsimp only)

theorem execCoinPacket_held {s₀ : State} (p : Packet) (s : State)
    (hk : Held s₀ s) : Answers (execCoinPacket p s) (Held s₀) := by
  unfold execCoinPacket
  repeat' (first
    | with_reducible assumption
    | with_reducible refine Answers.next ?_
    | with_reducible refine Answers.ite ?_ ?_
    | with_reducible refine State.coinRequest_held (hk := ?_) ..
    | dsimp only)

theorem execCoinReply_held {s₀ : State} (p : Packet) (s : State)
    (hk : Held s₀ s) : Answers (execCoinReply p s) (Held s₀) := by
  unfold execCoinReply
  repeat' (first
    | with_reducible assumption
    | with_reducible refine Answers.next ?_
    | with_reducible refine Answers.ite ?_ ?_
    | with_reducible first | refine State.replyIn_held (hk := ?_) .. | refine State.consumed_held (hk := ?_) .. | refine State.badPacket_held (hk := ?_) ..
    | dsimp only)

theorem State.coinTimedOut_held {s₀ : State} (s : State) (c q : Nat) (who : Requester) (deadline : Nat) (w : Option Waiter)
    (hk : Held s₀ s) : Held s₀ (State.coinTimedOut s c q who deadline w) := by
  unfold State.coinTimedOut
  repeat' (first
    | with_reducible assumption
    | with_reducible first | refine State.modCluster_held (hk := ?_) .. | refine State.reach_held (hk := ?_) .. | refine State.logLimited_held (hk := ?_) .. | refine State.toRequester_held (hk := ?_) .. | refine State.answer_held (hk := ?_) .. | refine State.modQueue_held (hk := ?_) .. | refine State.release_held (hk := ?_) ..
    | split
    | dsimp only)

theorem execCoinWaitTimeout_held {s₀ : State} (c q j : Nat) (s : State)
    (hk : Held s₀ s) : Answers (execCoinWaitTimeout c q j s) (Held s₀) := by
  unfold execCoinWaitTimeout
  repeat' (first
    | with_reducible assumption
    | with_reducible refine Answers.next ?_
    | with_reducible refine State.coinTimedOut_held (hk := ?_) ..
    | with_reducible refine Held.ite ?_ ?_
    | split
    | dsimp only)

theorem execCoinGuardExpiry_held {s₀ : State} (j : Nat) (s : State)
    (hk : Held s₀ s) : Answers (execCoinGuardExpiry j s) (Held s₀) := by
  unfold execCoinGuardExpiry
  repeat' (first
    | with_reducible assumption
    | with_reducible refine Answers.next ?_
    | with_reducible first | refine State.modRtr_held (hk := ?_) .. | refine State.coinTimedOut_held (hk := ?_) ..
    | split
    | dsimp only)

theorem execSealDeposit_held {s₀ : State} (src : Coord) (channel : Nat) (s : State)
    (hk : Held s₀ s) : Answers (execSealDeposit src channel s) (Held s₀) := by
  unfold execSealDeposit
  repeat' (first
    | with_reducible assumption
    | with_reducible refine Answers.next ?_
    | with_reducible refine Answers.ite ?_ ?_
    | with_reducible first | refine State.modRtr_held (hk := ?_) .. | refine State.coinApply_held (hk := ?_) ..
    | split
    | dsimp only)

theorem execVaultScrub_held {s₀ : State} (v : VaultName) (reports : List (Nat × EccResult)) (s : State)
    (hk : Held s₀ s) : Answers (execVaultScrub v reports s) (Held s₀) := by
  unfold execVaultScrub
  repeat' (first
    | with_reducible assumption
    | with_reducible refine Answers.next ?_
    | with_reducible first | refine State.modVault_held (hk := ?_) .. | refine State.eccAll_held (hk := ?_) ..
    | split
    | dsimp only)

theorem execVaultSpareDone_held {s₀ : State} (v : VaultName) (bad : List Nat) (s : State)
    (hk : Held s₀ s) : Answers (execVaultSpareDone v bad s) (Held s₀) := by
  unfold execVaultSpareDone
  repeat' (first
    | with_reducible assumption
    | with_reducible refine Answers.next ?_
    | with_reducible first | refine State.closeWindow_held (hk := ?_) .. | refine State.modVault_held (hk := ?_) ..
    | split
    | with_reducible refine Held.set_mem (h := ?_) ..
    | dsimp only)

theorem execDramPatrolScrub_held {s₀ : State} (n lines : Nat) (reports : List (Nat × EccResult)) (s : State)
    (hk : Held s₀ s) : Answers (execDramPatrolScrub n lines reports s) (Held s₀) := by
  unfold execDramPatrolScrub
  repeat' (first
    | with_reducible assumption
    | with_reducible refine Answers.next ?_
    | with_reducible refine Answers.ite ?_ ?_
    | with_reducible first | refine State.modChannel_held (hk := ?_) .. | refine State.eccAll_held (hk := ?_) ..
    | split
    | dsimp only)

theorem State.loseChannel_held {s₀ : State} (s : State) (n : Nat)
    (hk : Held s₀ s) : Held s₀ (State.loseChannel s n) := by
  unfold State.loseChannel
  repeat' (first
    | with_reducible assumption
    | with_reducible first | refine State.modChannel_held (hk := ?_) .. | refine State.detect_held (hk := ?_) .. | refine State.closeWindow_held (hk := ?_) .. | refine State.contain_held (hk := ?_) ..
    | with_reducible refine Held.ite ?_ ?_
    | split
    | dsimp only)

theorem execDramTrackingUpdate_held {s₀ : State} (n : Nat) (margins : List Nat) (low found : Bool) (s : State)
    (hk : Held s₀ s) : Answers (execDramTrackingUpdate n margins low found s) (Held s₀) := by
  unfold execDramTrackingUpdate
  repeat' (first
    | with_reducible assumption
    | with_reducible refine Answers.next ?_
    | with_reducible refine Answers.ite ?_ ?_
    | with_reducible first | refine State.modChannel_held (hk := ?_) .. | refine State.spanMin_held (hk := ?_) .. | refine State.log_held (hk := ?_) .. | refine State.loseChannel_held (hk := ?_) ..
    | with_reducible refine Held.ite ?_ ?_
    | with_reducible refine Held.foldl (fun _ _ _ => ?_) ?_
    | split
    | dsimp only)

theorem execSoftPpr_held {s₀ : State} (n : Nat) (exhausted : List Nat) (left : Nat) (s : State)
    (hk : Held s₀ s) : Answers (execSoftPpr n exhausted left s) (Held s₀) := by
  unfold execSoftPpr
  repeat' (first
    | with_reducible assumption
    | with_reducible refine Answers.next ?_
    | with_reducible refine Answers.ite ?_ ?_
    | with_reducible first | refine State.modChannel_held (hk := ?_) .. | refine State.ledgerAppend_held (hk := ?_) .. | refine State.log_held (hk := ?_) ..
    | with_reducible refine Held.ite ?_ ?_
    | with_reducible refine Held.foldl (fun _ _ _ => ?_) ?_
    | split
    | with_reducible refine Held.set_dram (hd := Held.kept) (h := ?_) ..
    | dsimp only)

theorem execRemoteWrite_held {s₀ : State} (p : Packet) (s : State)
    (hk : Held s₀ s) : Answers (execRemoteWrite p s) (Held s₀) := by
  unfold execRemoteWrite
  repeat' (first
    | with_reducible assumption
    | with_reducible refine Answers.next ?_
    | with_reducible refine Answers.ite ?_ ?_
    | with_reducible first | refine State.consumed_held (hk := ?_) .. | refine State.remoteWrite_held (hk := ?_) ..
    | dsimp only)

theorem State.launchAnswer_held {s₀ : State} (s : State) (p : Packet)
    (hk : Held s₀ s) : Held s₀ (State.launchAnswer s p) := by
  unfold State.launchAnswer
  repeat' (first
    | with_reducible assumption
    | with_reducible first | refine State.dropNoPort_held (hk := ?_) .. | refine State.moved_held (hk := ?_) .. | refine State.enqueue_held (hk := ?_) ..
    | with_reducible refine Held.ite ?_ ?_
    | split
    | dsimp only)

theorem State.readErr_held {s₀ : State} (s : State) (p : Packet) (cause : Nat)
    (hk : Held s₀ s) : Held s₀ (State.readErr s p cause) := by
  unfold State.readErr
  repeat' (first
    | with_reducible assumption
    | with_reducible first | refine State.launchAnswer_held (hk := ?_) .. | refine State.inject_held (hk := ?_) ..
    | with_reducible refine Held.ite ?_ ?_
    | dsimp only)

theorem State.readRsp_held {s₀ : State} (s : State) (p : Packet)
    (hk : Held s₀ s) : Held s₀ (State.readRsp s p) := by
  unfold State.readRsp
  repeat' (first
    | with_reducible assumption
    | with_reducible refine State.inject_held (hk := ?_) ..
    | split
    | dsimp only)

theorem execReadReq_held {s₀ : State} (p : Packet) (ecc : List (Nat × EccResult)) (s : State)
    (hk : Held s₀ s) : Answers (execReadReq p ecc s) (Held s₀) := by
  unfold execReadReq
  repeat' (first
    | with_reducible assumption
    | with_reducible refine Answers.next ?_
    | with_reducible refine Answers.ite ?_ ?_
    | with_reducible first | refine State.consumed_held (hk := ?_) .. | refine State.eccAll_held (hk := ?_) .. | refine State.remoteFault_held (hk := ?_) .. | refine State.wakeAt_held (hk := ?_) .. | refine State.readErr_held (hk := ?_) .. | refine State.readRsp_held (hk := ?_) ..
    | split
    | dsimp only)

theorem State.readLanded_held {s₀ : State} (s : State) (w : ReadWait) (p : Packet)
    (hk : Held s₀ s) : Held s₀ (State.readLanded s w p) := by
  unfold State.readLanded
  repeat' (first
    | with_reducible assumption
    | with_reducible first | refine State.modHost_held (hk := ?_) .. | refine State.writeMem_held (hk := ?_) .. | refine State.dmaEnd_held (hk := ?_) .. | refine State.filled_held (hk := ?_) .. | refine State.loadWrite_held (hk := ?_) .. | refine State.loadDone_held (hk := ?_) .. | refine State.readGone_held (hk := ?_) ..
    | with_reducible refine Held.ite ?_ ?_
    | split
    | dsimp only)

theorem execReadRsp_held {s₀ : State} (p : Packet) (s : State)
    (hk : Held s₀ s) : Answers (execReadRsp p s) (Held s₀) := by
  unfold execReadRsp
  repeat' (first
    | with_reducible assumption
    | with_reducible refine Answers.next ?_
    | with_reducible refine Answers.ite ?_ ?_
    | with_reducible first | refine State.consumed_held (hk := ?_) .. | refine State.accepted_held (hk := ?_) .. | refine State.readGone_held (hk := ?_) .. | refine State.readLanded_held (hk := ?_) .. | refine State.lateRsp_held (hk := ?_) ..
    | with_reducible refine Held.ite ?_ ?_
    | split
    | dsimp only)

theorem State.dropLanding_held {s₀ : State} (s : State) (l : Land) (cause : Nat)
    (hk : Held s₀ s) : Held s₀ (State.dropLanding s l cause) := by
  unfold State.dropLanding
  repeat' (first
    | with_reducible assumption
    | with_reducible first | refine State.modSet_held (hk := ?_) .. | refine State.log_held (hk := ?_) .. | refine State.modCounts_held (hk := ?_) ..
    | with_reducible refine Held.ite ?_ ?_
    | split
    | dsimp only)

theorem State.setPresent_held {s₀ : State} (s : State) (r : Row) (i : Nat) (b : Bool)
    (hk : Held s₀ s) : Held s₀ (State.setPresent s r i b) := by
  unfold State.setPresent
  repeat' (first
    | with_reducible assumption
    | with_reducible refine State.writeMem_held (hk := ?_) ..
    | dsimp only)

theorem State.applyLanding_held {s₀ : State} (s : State) (l : Land)
    (hk : Held s₀ s) : Held s₀ (State.applyLanding s l) := by
  unfold State.applyLanding
  repeat' (first
    | with_reducible assumption
    | with_reducible first | refine State.modSet_held (hk := ?_) .. | refine State.writeMem_held (hk := ?_) .. | refine State.setPresent_held (hk := ?_) .. | refine State.setShare_held (hk := ?_) .. | refine State.dropShare_held (hk := ?_) ..
    | split
    | dsimp only)

theorem State.land_held {s₀ : State} (s : State) (l : Land)
    (hk : Held s₀ s) : Held s₀ (State.land s l) := by
  unfold State.land
  repeat' (first
    | with_reducible assumption
    | with_reducible first | refine State.modSet_held (hk := ?_) .. | refine State.dropLanding_held (hk := ?_) .. | refine State.applyLanding_held (hk := ?_) ..
    | with_reducible refine Held.ite ?_ ?_
    | split)

theorem execLanding_held {s₀ : State} (l : Land) (ecc : List (Nat × EccResult)) (s : State)
    (hk : Held s₀ s) : Answers (execLanding l ecc s) (Held s₀) := by
  unfold execLanding
  repeat' (first
    | with_reducible assumption
    | with_reducible refine Answers.next ?_
    | with_reducible first | refine State.eccAll_held (hk := ?_) .. | refine State.land_held (hk := ?_) ..
    | dsimp only)

theorem State.judgeDormant_held {s₀ : State} (s : State) (g : Nat) (live : Bool)
    (hk : Held s₀ s) : Held s₀ (State.judgeDormant s g live) := by
  unfold State.judgeDormant
  repeat' (first
    | with_reducible assumption
    | with_reducible first | refine State.modDec_held (hk := ?_) .. | refine State.log_held (hk := ?_) .. | refine State.modGuard_held (hk := ?_) ..
    | with_reducible refine Held.ite ?_ ?_
    | split
    | dsimp only)

theorem State.lossSample_held {s₀ : State} (s : State)
    (hk : Held s₀ s) : Held s₀ (State.lossSample s) := by
  unfold State.lossSample
  repeat' (first
    | with_reducible assumption
    | with_reducible first | refine State.modSet_held (hk := ?_) .. | refine State.modDec_held (hk := ?_) .. | refine State.log_held (hk := ?_) ..
    | with_reducible refine Held.ite ?_ ?_
    | split
    | dsimp only)

theorem State.contribute_held {s₀ : State} (s : State)
    (hk : Held s₀ s) : Held s₀ (State.contribute s) := by
  unfold State.contribute
  repeat' (first
    | with_reducible assumption
    | with_reducible first | refine State.modSet_held (hk := ?_) .. | refine State.modDec_held (hk := ?_) .. | refine State.modCounts_held (hk := ?_) .. | refine State.judgeDormant_held (hk := ?_) .. | refine State.lossSample_held (hk := ?_) .. | refine State.guardsAtContribution_held (hk := ?_) .. | refine State.dropShares_held (hk := ?_) ..
    | with_reducible refine Held.foldl (fun _ _ _ => ?_) ?_
    | split
    | dsimp only)

theorem State.clearPresence_held {s₀ : State} (s : State)
    (hk : Held s₀ s) : Held s₀ (State.clearPresence s) := by
  unfold State.clearPresence
  repeat' (first
    | with_reducible assumption
    | with_reducible refine State.setPresent_held (hk := ?_) ..
    | with_reducible refine Held.ite ?_ ?_
    | with_reducible refine Held.foldl (fun _ _ _ => ?_) ?_
    | split
    | dsimp only)

theorem State.writeWc_held {s₀ : State} (s : State) (r : Row) (i : Nat) (c : List Nat × Nat × Nat) (pois : Bool)
    (hk : Held s₀ s) : Held s₀ (State.writeWc s r i c pois) := by
  unfold State.writeWc
  repeat' (first
    | with_reducible assumption
    | with_reducible refine State.writeMem_held (hk := ?_) ..
    | with_reducible refine Held.ite ?_ ?_
    | split
    | dsimp only)

theorem State.settleBlock_held {s₀ : State} (s : State) (g : Nat) (r : Row) (k : StepConst) (step i : Nat) (absent : Bool)
    (hk : Held s₀ s) : Held s₀ (State.settleBlock s g r k step i absent).2 := by
  unfold State.settleBlock
  repeat' (first
    | with_reducible assumption
    | with_reducible first | refine State.writeMem_held (hk := ?_) .. | refine State.modGuard_held (hk := ?_) .. | refine State.setPresent_held (hk := ?_) .. | refine State.writeWc_held (hk := ?_) ..
    | with_reducible refine Held.ite ?_ ?_
    | with_reducible refine Held.ite2 ?_ ?_
    | split
    | with_reducible refine Held.set_hwm (h := ?_) ..
    | dsimp only)

theorem State.passGroup_held {s₀ : State} (s : State) (g : Nat) (k : StepConst) (step : Nat)
    (hk : Held s₀ s) : Held s₀ (State.passGroup s g k step).2.2 := by
  unfold State.passGroup
  repeat' (first
    | with_reducible assumption
    | with_reducible first | refine State.log_held (hk := ?_) .. | refine State.modCounts_held (hk := ?_) .. | refine State.settleBlock_held (hk := ?_) ..
    | with_reducible refine Held.foldl (fun _ _ _ => ?_) ?_
    | with_reducible refine Held.foldl2 (fun _ _ _ => ?_) ?_
    | split
    | dsimp only)

theorem State.settlePass_held {s₀ : State} (s : State) (c : W32) (step : Nat)
    (hk : Held s₀ s) : Held s₀ (State.settlePass s c step) := by
  unfold State.settlePass
  repeat' (first
    | with_reducible assumption
    | with_reducible first | refine State.modDec_held (hk := ?_) .. | refine State.passGroup_held (hk := ?_) ..
    | with_reducible refine Held.foldl3 (fun _ _ _ => ?_) ?_
    | split
    | dsimp only)

theorem State.judgeStmt_held {s₀ : State} (s : State) (st : Stmt)
    (hk : Held s₀ s) : Held s₀ (State.judgeStmt s st) := by
  unfold State.judgeStmt
  repeat' (first
    | with_reducible assumption
    | with_reducible first | refine State.modSet_held (hk := ?_) .. | refine State.modDec_held (hk := ?_) .. | refine State.modCol_held (hk := ?_) .. | refine State.total_held (hk := ?_) .. | refine State.log_held (hk := ?_) .. | refine State.clearTotals_held (hk := ?_) .. | refine State.clearPresence_held (hk := ?_) .. | refine State.settlePass_held (hk := ?_) ..
    | with_reducible refine Held.ite ?_ ?_
    | split
    | dsimp only)

theorem State.failWalk_held {s₀ : State} (s : State)
    (hk : Held s₀ s) : Held s₀ (State.failWalk s) := by
  unfold State.failWalk
  repeat' (first
    | with_reducible assumption
    | with_reducible first | refine State.modSet_held (hk := ?_) .. | refine State.modCol_held (hk := ?_) .. | refine State.clearTotals_held (hk := ?_) .. | refine State.clearPresence_held (hk := ?_) ..
    | split)

theorem State.stmtFail_held {s₀ : State} (s : State) (st : Status)
    (hk : Held s₀ s) : Held s₀ (State.stmtFail s st) := by
  unfold State.stmtFail
  repeat' (first
    | with_reducible assumption
    | with_reducible first | refine State.modDec_held (hk := ?_) .. | refine State.log_held (hk := ?_) .. | refine State.failWalk_held (hk := ?_) ..
    | split
    | dsimp only)

theorem State.streamLaunch_held {s₀ : State} (s : State) (n : Nat) (p : Packet)
    (hk : Held s₀ s) : Held s₀ (State.streamLaunch s n p).2 := by
  unfold State.streamLaunch
  repeat' (first
    | with_reducible assumption
    | with_reducible first | refine State.fenced_held (hk := ?_) .. | refine State.dropNoPort_held (hk := ?_) .. | refine State.moved_held (hk := ?_) .. | refine State.enqueue_held (hk := ?_) ..
    | with_reducible refine Held.ite2 ?_ ?_
    | dsimp only)

theorem State.streamSend_held {s₀ : State} (s : State) (n : Nat) (p : Packet)
    (hk : Held s₀ s) : Held s₀ (State.streamSend s n p).2 := by
  unfold State.streamSend
  repeat' (first
    | with_reducible assumption
    | with_reducible first | refine State.modRtr_held (hk := ?_) .. | refine State.streamLaunch_held (hk := ?_) ..
    | with_reducible refine Held.ite2 ?_ ?_
    | split
    | dsimp only)

theorem State.stmtFinal_held {s₀ : State} (s : State) (bs : List Byte)
    (hk : Held s₀ s) : Held s₀ (State.stmtFinal s bs) := by
  unfold State.stmtFinal
  repeat' (first
    | with_reducible assumption
    | with_reducible first | refine State.modDec_held (hk := ?_) .. | refine State.judgeStmt_held (hk := ?_) .. | refine State.streamSend_held (hk := ?_) ..
    | with_reducible refine Held.foldl (fun _ _ _ => ?_) ?_
    | split
    | dsimp only)

theorem State.stmtAdvance_held {s₀ : State} (s : State)
    (hk : Held s₀ s) : Held s₀ (State.stmtAdvance s) := by
  unfold State.stmtAdvance
  repeat' (first
    | with_reducible assumption
    | with_reducible first | refine State.modDec_held (hk := ?_) .. | refine State.streamSend_held (hk := ?_) .. | refine State.stmtFail_held (hk := ?_) .. | refine State.stmtFinal_held (hk := ?_) ..
    | with_reducible refine Held.ite ?_ ?_
    | with_reducible refine Held.pair (by assumption) ?_
    | split
    | dsimp only)

theorem State.stmtStart_held {s₀ : State} (s : State)
    (hk : Held s₀ s) : Held s₀ (State.stmtStart s) := by
  unfold State.stmtStart
  repeat' (first
    | with_reducible assumption
    | with_reducible first | refine State.judgeStmt_held (hk := ?_) .. | refine State.stmtFail_held (hk := ?_) .. | refine State.stmtAdvance_held (hk := ?_) ..
    | with_reducible refine Held.ite ?_ ?_
    | split)

theorem State.engineFault_held {s₀ : State} (s : State) (n : Nat)
    (hk : Held s₀ s) : Held s₀ (State.engineFault s n) := by
  unfold State.engineFault
  repeat' (first
    | with_reducible assumption
    | with_reducible first | refine State.detect_held (hk := ?_) .. | refine State.closeWindow_held (hk := ?_) .. | refine State.contain_held (hk := ?_) ..
    | with_reducible refine Held.ite ?_ ?_)

theorem execSettleContribution_held {s₀ : State} (faults : List Nat) (ecc : List (Nat × EccResult)) (s : State)
    (hk : Held s₀ s) : Answers (execSettleContribution faults ecc s) (Held s₀) := by
  unfold execSettleContribution
  repeat' (first
    | with_reducible assumption
    | with_reducible refine Answers.next ?_
    | with_reducible refine Answers.ite ?_ ?_
    | with_reducible first | refine State.each_held (hk := ?_) (hf := ?_) .. | refine State.eccAll_held (hk := ?_) .. | refine State.contribute_held (hk := ?_) .. | refine State.stmtStart_held (hk := ?_) .. | refine State.engineFault_held (hk := ?_) ..
    | (intros; with_reducible assumption)
    | intro _ _ _
    | intro _ _
    | dsimp only)

theorem State.releaseLands_held {s₀ : State} (s : State)
    (hk : Held s₀ s) : Held s₀ (State.releaseLands s) := by
  unfold State.releaseLands
  repeat' (first
    | with_reducible assumption
    | with_reducible first | refine State.modSet_held (hk := ?_) .. | refine State.freeKept_held (hk := ?_) .. | refine State.land_held (hk := ?_) ..
    | with_reducible refine Held.foldl (fun _ _ _ => ?_) ?_
    | split
    | dsimp only)

theorem State.endWalk_held {s₀ : State} (s : State)
    (hk : Held s₀ s) : Held s₀ (State.endWalk s) := by
  unfold State.endWalk
  repeat' (first
    | with_reducible assumption
    | with_reducible first | refine State.modSet_held (hk := ?_) .. | refine State.releaseLands_held (hk := ?_) ..
    | with_reducible refine Held.ite ?_ ?_
    | split
    | dsimp only)

theorem State.storeUnit_held {s₀ : State} (s : State) (e : List Byte) (slot k : Nat) (u : WorkUnit)
    (hk : Held s₀ s) : Held s₀ (State.storeUnit s e slot k u) := by
  unfold State.storeUnit
  repeat' (first
    | with_reducible assumption
    | with_reducible refine State.writeMem_held (hk := ?_) ..
    | with_reducible refine Held.ite ?_ ?_
    | split
    | dsimp only)

theorem State.collectiveCoin_held {s₀ : State} (s : State) (c q : Nat) (v : W32)
    (hk : Held s₀ s) : Held s₀ (State.collectiveCoin s c q v) := by
  unfold State.collectiveCoin
  repeat' (first
    | with_reducible assumption
    | with_reducible refine State.coinApply_held (hk := ?_) ..)

theorem State.entryEnd_held {s₀ : State} (s : State) (i : Nat) (st : Status)
    (hk : Held s₀ s) : Held s₀ (State.entryEnd s i st) := by
  unfold State.entryEnd
  repeat' (first
    | with_reducible assumption
    | with_reducible first | refine State.modCol_held (hk := ?_) .. | refine State.collectiveCoin_held (hk := ?_) ..
    | with_reducible refine Held.ite ?_ ?_
    | split
    | dsimp only)

theorem State.segSend_held {s₀ : State} (s : State) (i port : Nat) (p : Packet)
    (hk : Held s₀ s) : Held s₀ (State.segSend s i port p) := by
  unfold State.segSend
  repeat' (first
    | with_reducible assumption
    | with_reducible first | refine State.streamSend_held (hk := ?_) .. | refine State.entryEnd_held (hk := ?_) ..
    | with_reducible refine Held.ite ?_ ?_
    | with_reducible refine Held.pair (by assumption) ?_
    | split)

theorem State.sendUnits_held {s₀ : State} (s : State) (e : List Byte) (x : RunEntry) (reduce : Bool) (a : Nat) (plus : Bool) (us : List ((Nat × Nat) × WorkUnit))
    (hk : Held s₀ s) : Held s₀ (State.sendUnits s e x reduce a plus us) := by
  unfold State.sendUnits
  repeat' (first
    | with_reducible assumption
    | with_reducible refine State.segSend_held (hk := ?_) ..
    | with_reducible refine Held.foldl (fun _ _ _ => ?_) ?_
    | split
    | dsimp only)

theorem State.stageSends_held {s₀ : State} (s : State) (e : List Byte) (x : RunEntry) (reduce : Bool) (a : Nat)
    (hk : Held s₀ s) : Held s₀ (State.stageSends s e x reduce a) := by
  unfold State.stageSends
  repeat' (first
    | with_reducible assumption
    | with_reducible refine State.sendUnits_held (hk := ?_) ..
    | with_reducible refine Held.ite ?_ ?_
    | split
    | dsimp only)

theorem State.landUnit_held {s₀ : State} (s : State) (e : List Byte) (micro k : Nat) (u : WorkUnit)
    (hk : Held s₀ s) : Held s₀ (State.landUnit s e micro k u) := by
  unfold State.landUnit
  repeat' (first
    | with_reducible assumption
    | with_reducible refine State.land_held (hk := ?_) ..)

theorem State.storeChunk_held {s₀ : State} (s : State) (x : RunEntry) (e : List Byte) (n own : Nat)
    (hk : Held s₀ s) : Held s₀ (State.storeChunk s x e n own) := by
  unfold State.storeChunk
  repeat' (first
    | with_reducible assumption
    | with_reducible first | refine State.storeUnit_held (hk := ?_) .. | refine State.landUnit_held (hk := ?_) ..
    | with_reducible refine Held.ite ?_ ?_
    | with_reducible refine Held.foldl (fun _ _ _ => ?_) ?_
    | split)

theorem State.nextStage_held {s₀ : State} (s : State) (i : Nat) (arr0 : Nat)
    (hk : Held s₀ s) : Held s₀ (s.nextStage i arr0) := by
  induction arr0 generalizing s with
  | zero => exact hk
  | succ fuel ih =>
    unfold State.nextStage
    repeat' (first
      | with_reducible assumption
      | with_reducible first | refine State.modRun_held (hk := ?_) .. | refine State.stageSends_held (hk := ?_) .. | refine State.storeChunk_held (hk := ?_) .. | refine ih _ ?_
      | with_reducible refine Held.ite ?_ ?_
      | dsimp only
      | split)

theorem State.applyUnits_held {s₀ : State} (s : State) (i : Nat) (e : List Byte) (reduce : Bool) (a : Nat) (us : List (Nat × Option WorkUnit))
    (hk : Held s₀ s) : Held s₀ (State.applyUnits s i e reduce a us) := by
  unfold State.applyUnits
  repeat' (first
    | with_reducible assumption
    | with_reducible first | refine State.modCol_held (hk := ?_) .. | refine State.storeUnit_held (hk := ?_) .. | refine State.modRun_held (hk := ?_) .. | refine State.sendUnits_held (hk := ?_) .. | refine State.landUnit_held (hk := ?_) ..
    | with_reducible refine Held.ite ?_ ?_
    | with_reducible refine Held.foldl (fun _ _ _ => ?_) ?_
    | split
    | dsimp only)

theorem State.takeSegment_held {s₀ : State} (s : State) (p : Packet) (i : Nat) (e : List Byte) (x : RunEntry)
    (hk : Held s₀ s) : Held s₀ (State.takeSegment s p i e x) := by
  unfold State.takeSegment
  repeat' (first
    | with_reducible assumption
    | with_reducible first | refine State.storeUnit_held (hk := ?_) .. | refine State.modRun_held (hk := ?_) .. | refine State.nextStage_held (hk := ?_) .. | refine State.applyUnits_held (hk := ?_) ..
    | with_reducible refine Held.ite ?_ ?_
    | with_reducible refine Held.foldl (fun _ _ _ => ?_) ?_
    | split
    | dsimp only)

theorem State.segmentOne_held {s₀ : State} (s : State) (p : Packet)
    (hk : Held s₀ s) : Held s₀ (State.segmentOne s p) := by
  unfold State.segmentOne
  repeat' (first
    | with_reducible assumption
    | with_reducible first | refine State.modCol_held (hk := ?_) .. | refine State.modRtr_held (hk := ?_) .. | refine State.takeSegment_held (hk := ?_) ..
    | with_reducible refine Held.ite ?_ ?_
    | split
    | dsimp only)

theorem State.offerSegs_held {s₀ : State} (s : State) (arr0 : Nat)
    (hk : Held s₀ s) : Held s₀ (s.offerSegs arr0) := by
  induction arr0 generalizing s with
  | zero => exact hk
  | succ fuel ih =>
    unfold State.offerSegs
    have h := Held.foldl (f := fun (s : State) p => s.segmentOne p) (l := s.col.heldSegs) (fun t p h => State.segmentOne_held t p h)
      (State.modCol_held s (fun c => { c with heldSegs := [] }) hk)
    dsimp only
    split
    · exact h
    · exact ih _ h

theorem State.releaseSegs_held {s₀ : State} (s : State)
    (hk : Held s₀ s) : Held s₀ (State.releaseSegs s) := by
  unfold State.releaseSegs
  repeat' (first
    | with_reducible assumption
    | with_reducible first | refine State.freeKept_held (hk := ?_) .. | refine State.offerSegs_held (hk := ?_) ..)

theorem execSettleWalkEnd_held {s₀ : State} (ecc : List (Nat × EccResult)) (s : State)
    (hk : Held s₀ s) : Answers (execSettleWalkEnd ecc s) (Held s₀) := by
  unfold execSettleWalkEnd
  repeat' (first
    | with_reducible assumption
    | with_reducible refine Answers.next ?_
    | with_reducible refine Answers.ite ?_ ?_
    | with_reducible first | refine State.eccAll_held (hk := ?_) .. | refine State.endWalk_held (hk := ?_) .. | refine State.releaseSegs_held (hk := ?_) ..
    | dsimp only)

theorem State.pointFail_held {s₀ : State} (s : State) (st : Status)
    (hk : Held s₀ s) : Held s₀ (State.pointFail s st) := by
  unfold State.pointFail
  repeat' (first
    | with_reducible assumption
    | with_reducible first | refine State.modCol_held (hk := ?_) .. | refine State.haltSeq_held (hk := ?_) ..
    | with_reducible refine Held.foldl (fun _ _ _ => ?_) ?_
    | split
    | dsimp only)

theorem execStmtTimeout_held {s₀ : State} (s : State)
    (hk : Held s₀ s) : Answers (execStmtTimeout s) (Held s₀) := by
  unfold execStmtTimeout
  repeat' (first
    | with_reducible assumption
    | with_reducible refine Answers.next ?_
    | with_reducible refine Answers.ite ?_ ?_
    | with_reducible first | refine State.reach_held (hk := ?_) .. | refine State.stmtFail_held (hk := ?_) .. | refine State.pointFail_held (hk := ?_) ..
    | dsimp only)

theorem State.entryRun_held {s₀ : State} (s : State) (i micro : Nat) (last : Bool) (e : List Byte)
    (hk : Held s₀ s) : Held s₀ (State.entryRun s i micro last e) := by
  unfold State.entryRun
  repeat' (first
    | with_reducible assumption
    | with_reducible first | refine State.modCol_held (hk := ?_) .. | refine State.inject_held (hk := ?_) .. | refine State.storeUnit_held (hk := ?_) .. | refine State.entryEnd_held (hk := ?_) .. | refine State.nextStage_held (hk := ?_) .. | refine State.releaseSegs_held (hk := ?_) ..
    | with_reducible refine Held.ite ?_ ?_
    | with_reducible refine Held.foldl (fun _ _ _ => ?_) ?_
    | with_reducible refine Held.pair (by assumption) ?_
    | split
    | dsimp only)

theorem State.microEnd_held {s₀ : State} (s : State)
    (hk : Held s₀ s) : Held s₀ (State.microEnd s) := by
  unfold State.microEnd
  repeat' (first
    | with_reducible assumption
    | with_reducible first | refine State.modSet_held (hk := ?_) .. | refine State.releaseLands_held (hk := ?_) ..
    | with_reducible refine Held.ite ?_ ?_
    | split
    | dsimp only)

theorem State.refuseEntry_held {s₀ : State} (s : State) (i : Nat) (st : Status)
    (hk : Held s₀ s) : Held s₀ (State.refuseEntry s i st) := by
  unfold State.refuseEntry
  repeat' (first
    | with_reducible assumption
    | with_reducible refine State.collectiveCoin_held (hk := ?_) ..
    | with_reducible refine Held.ite ?_ ?_
    | split)

theorem State.startEntry_held {s₀ : State} (s : State) (i micro : Nat) (last : Bool)
    (hk : Held s₀ s) : Held s₀ (State.startEntry s i micro last) := by
  unfold State.startEntry
  repeat' (first
    | with_reducible assumption
    | with_reducible first | refine State.modCol_held (hk := ?_) .. | refine State.issueFill_held (hk := ?_) .. | refine State.entryRun_held (hk := ?_) .. | refine State.microEnd_held (hk := ?_) .. | refine State.refuseEntry_held (hk := ?_) ..
    | with_reducible refine Held.ite ?_ ?_
    | split
    | dsimp only)

theorem execCollectiveStart_held {s₀ : State} (c : Nat) (t : Tick) (i micro : Nat) (last : Bool) (ecc : List (Nat × EccResult)) (s : State)
    (hk : Held s₀ s) : Answers (execCollectiveStart c t i micro last ecc s) (Held s₀) := by
  unfold execCollectiveStart
  repeat' (first
    | with_reducible assumption
    | with_reducible refine Answers.next ?_
    | with_reducible first | refine State.eccAll_held (hk := ?_) .. | refine State.onSeq_held (hk := ?_) (hf := ?_) .. | refine State.startEntry_held (hk := ?_) ..
    | intro _ _
    | split
    | dsimp only)

theorem State.segment_held {s₀ : State} (s : State) (p : Packet)
    (hk : Held s₀ s) : Held s₀ (State.segment s p) := by
  unfold State.segment
  repeat' (first
    | with_reducible assumption
    | with_reducible first | refine State.segmentOne_held (hk := ?_) .. | refine State.releaseSegs_held (hk := ?_) ..)

theorem execReduceSegment_held {s₀ : State} (p : Packet) (fault : Bool) (ecc : List (Nat × EccResult)) (s : State)
    (hk : Held s₀ s) : Answers (execReduceSegment p fault ecc s) (Held s₀) := by
  unfold execReduceSegment
  repeat' (first
    | with_reducible assumption
    | with_reducible refine Answers.next ?_
    | with_reducible refine Answers.ite ?_ ?_
    | with_reducible first | refine State.detect_held (hk := ?_) .. | refine State.takeIn_held (hk := ?_) .. | refine State.eccAll_held (hk := ?_) .. | refine State.accepted_held (hk := ?_) .. | refine State.segment_held (hk := ?_) ..
    | with_reducible refine Held.ite ?_ ?_
    | dsimp only)

theorem execGatherSegment_held {s₀ : State} (p : Packet) (s : State)
    (hk : Held s₀ s) : Answers (execGatherSegment p s) (Held s₀) := by
  unfold execGatherSegment
  repeat' (first
    | with_reducible assumption
    | with_reducible refine Answers.next ?_
    | with_reducible refine Answers.ite ?_ ?_
    | with_reducible first | refine State.takeIn_held (hk := ?_) .. | refine State.accepted_held (hk := ?_) .. | refine State.segment_held (hk := ?_) ..
    | dsimp only)

theorem State.gradStageEnd_held {s₀ : State} (s : State) (i : Nat) (e : List Byte) (x : RunEntry)
    (hk : Held s₀ s) : Held s₀ (State.gradStageEnd s i e x) := by
  unfold State.gradStageEnd
  repeat' (first
    | with_reducible assumption
    | with_reducible first | refine State.sendUnits_held (hk := ?_) .. | refine State.nextStage_held (hk := ?_) .. | refine State.releaseSegs_held (hk := ?_) ..
    | with_reducible refine Held.ite ?_ ?_
    | split
    | dsimp only)

theorem execCollectiveEnd_held {s₀ : State} (i : Nat) (ecc : List (Nat × EccResult)) (s : State)
    (hk : Held s₀ s) : Answers (execCollectiveEnd i ecc s) (Held s₀) := by
  unfold execCollectiveEnd
  repeat' (first
    | with_reducible assumption
    | with_reducible refine Answers.next ?_
    | with_reducible refine Answers.ite ?_ ?_
    | with_reducible first | refine State.eccAll_held (hk := ?_) .. | refine State.entryEnd_held (hk := ?_) .. | refine State.gradStageEnd_held (hk := ?_) .. | refine State.microEnd_held (hk := ?_) ..
    | split
    | dsimp only)

theorem execStatementCombine_held {s₀ : State} (p : Packet) (faults : List Nat) (ecc : List (Nat × EccResult)) (s : State)
    (hk : Held s₀ s) : Answers (execStatementCombine p faults ecc s) (Held s₀) := by
  unfold execStatementCombine
  repeat' (first
    | with_reducible assumption
    | with_reducible refine Answers.next ?_
    | with_reducible refine Answers.ite ?_ ?_
    | with_reducible first | refine State.modDec_held (hk := ?_) .. | refine State.each_held (hk := ?_) (hf := ?_) .. | refine State.consumed_held (hk := ?_) .. | refine State.badPacket_held (hk := ?_) .. | refine State.eccAll_held (hk := ?_) .. | refine State.stmtAdvance_held (hk := ?_) .. | refine State.engineFault_held (hk := ?_) ..
    | (intros; with_reducible assumption)
    | intro _ _ _
    | intro _ _
    | split
    | dsimp only)

theorem execStatementBroadcast_held {s₀ : State} (p : Packet) (faults : List Nat) (ecc : List (Nat × EccResult)) (s : State)
    (hk : Held s₀ s) : Answers (execStatementBroadcast p faults ecc s) (Held s₀) := by
  unfold execStatementBroadcast
  repeat' (first
    | with_reducible assumption
    | with_reducible refine Answers.next ?_
    | with_reducible refine Answers.ite ?_ ?_
    | with_reducible first | refine State.each_held (hk := ?_) (hf := ?_) .. | refine State.consumed_held (hk := ?_) .. | refine State.badPacket_held (hk := ?_) .. | refine State.eccAll_held (hk := ?_) .. | refine State.stmtFinal_held (hk := ?_) .. | refine State.engineFault_held (hk := ?_) ..
    | (intros; with_reducible assumption)
    | intro _ _ _
    | intro _ _
    | dsimp only)

theorem State.pointFinal_held {s₀ : State} (s : State) (n : Nat) (pending : Bool)
    (hk : Held s₀ s) : Held s₀ (State.pointFinal s n pending) := by
  unfold State.pointFinal
  repeat' (first
    | with_reducible assumption
    | with_reducible first | refine State.modCol_held (hk := ?_) .. | refine State.streamSend_held (hk := ?_) ..
    | with_reducible refine Held.foldl (fun _ _ _ => ?_) ?_
    | split
    | dsimp only)

theorem State.pointAdvance_held {s₀ : State} (s : State)
    (hk : Held s₀ s) : Held s₀ (State.pointAdvance s) := by
  unfold State.pointAdvance
  repeat' (first
    | with_reducible assumption
    | with_reducible first | refine State.modCol_held (hk := ?_) .. | refine State.streamSend_held (hk := ?_) .. | refine State.pointFinal_held (hk := ?_) ..
    | with_reducible refine Held.ite ?_ ?_
    | split
    | dsimp only)

theorem State.reachPoint_held {s₀ : State} (s : State) (n : Nat)
    (hk : Held s₀ s) : Held s₀ (State.reachPoint s n) := by
  unfold State.reachPoint
  repeat' (first
    | with_reducible assumption
    | with_reducible first | refine State.modCol_held (hk := ?_) .. | refine State.pointFinal_held (hk := ?_) .. | refine State.pointAdvance_held (hk := ?_) .. | refine State.pointFail_held (hk := ?_) ..
    | with_reducible refine Held.ite ?_ ?_
    | split
    | dsimp only)

theorem execPointBarrierCombine_held {s₀ : State} (n : Nat) (arrived : Option Packet) (s : State)
    (hk : Held s₀ s) : Answers (execPointBarrierCombine n arrived s) (Held s₀) := by
  unfold execPointBarrierCombine
  repeat' (first
    | with_reducible assumption
    | with_reducible refine Answers.next ?_
    | with_reducible refine Answers.ite ?_ ?_
    | with_reducible first | refine State.modCol_held (hk := ?_) .. | refine State.consumed_held (hk := ?_) .. | refine State.badPacket_held (hk := ?_) .. | refine State.pointAdvance_held (hk := ?_) .. | refine State.reachPoint_held (hk := ?_) ..
    | split
    | dsimp only)

theorem execPointBarrierBroadcast_held {s₀ : State} (p : Packet) (s : State)
    (hk : Held s₀ s) : Answers (execPointBarrierBroadcast p s) (Held s₀) := by
  unfold execPointBarrierBroadcast
  repeat' (first
    | with_reducible assumption
    | with_reducible refine Answers.next ?_
    | with_reducible refine Answers.ite ?_ ?_
    | with_reducible first | refine State.consumed_held (hk := ?_) .. | refine State.badPacket_held (hk := ?_) .. | refine State.pointFinal_held (hk := ?_) ..
    | dsimp only)

theorem State.holdover_held {s₀ : State} (s : State) (n : Nat)
    (hk : Held s₀ s) : Held s₀ (State.holdover s n) := by
  unfold State.holdover
  repeat' (first
    | with_reducible assumption
    | with_reducible first | refine State.modTime_held (hk := ?_) .. | refine State.slewAt_held (hk := ?_) .. | refine State.log_held (hk := ?_) ..
    | split)

theorem State.timeLost_held {s₀ : State} (s : State) (n : Nat)
    (hk : Held s₀ s) : Held s₀ (State.timeLost s n) := by
  unfold State.timeLost
  repeat' (first
    | with_reducible assumption
    | with_reducible first | refine State.modTime_held (hk := ?_) .. | refine State.holdover_held (hk := ?_) ..
    | with_reducible refine Held.ite ?_ ?_
    | split
    | dsimp only)

theorem State.failEntries_held {s₀ : State} (s : State) (a : Nat)
    (hk : Held s₀ s) : Held s₀ (State.failEntries s a) := by
  unfold State.failEntries
  repeat' (first
    | with_reducible assumption
    | with_reducible first | refine State.modCol_held (hk := ?_) .. | refine State.freeKept_held (hk := ?_) .. | refine State.entryEnd_held (hk := ?_) ..
    | with_reducible refine Held.foldl (fun _ _ _ => ?_) ?_
    | split
    | dsimp only)

theorem State.degrade_held {s₀ : State} (s : State) (axis : Nat)
    (hk : Held s₀ s) : Held s₀ (State.degrade s axis) := by
  unfold State.degrade
  repeat' (first
    | with_reducible assumption
    | with_reducible first | refine State.modDec_held (hk := ?_) .. | refine State.modSlice_held (hk := ?_) .. | refine State.stmtFail_held (hk := ?_) .. | refine State.failEntries_held (hk := ?_) ..
    | with_reducible refine Held.ite ?_ ?_
    | split
    | dsimp only)

theorem State.sliceLinkLost_held {s₀ : State} (s : State) (n : Nat)
    (hk : Held s₀ s) : Held s₀ (State.sliceLinkLost s n) := by
  unfold State.sliceLinkLost
  repeat' (first
    | with_reducible assumption
    | with_reducible first | refine State.modSlice_held (hk := ?_) .. | refine State.sendNotice_held (hk := ?_) .. | refine State.degrade_held (hk := ?_) ..
    | with_reducible refine Held.ite ?_ ?_
    | split
    | dsimp only)

theorem State.leftActive_held {s₀ : State} (s : State) (n : Nat)
    (hk : Held s₀ s) : Held s₀ (State.leftActive s n) := by
  unfold State.leftActive
  repeat' (first
    | with_reducible assumption
    | with_reducible first | refine State.timeLost_held (hk := ?_) .. | refine State.sliceLinkLost_held (hk := ?_) .. | refine State.dropQueue_held (hk := ?_) ..)

theorem State.setDisc_held {s₀ : State} (s : State) (n : Nat) (d : DState) (cause : Nat)
    (hk : Held s₀ s) : Held s₀ (State.setDisc s n d cause) := by
  unfold State.setDisc
  repeat' (first
    | with_reducible assumption
    | with_reducible first | refine State.modDisc_held (hk := ?_) .. | refine State.sendIdentity_held (hk := ?_) .. | refine State.leftActive_held (hk := ?_) ..
    | with_reducible refine Held.ite ?_ ?_
    | split
    | dsimp only)

theorem State.discEvent_held {s₀ : State} (s : State) (c : EventClass) (n cause : Nat) (b : List Byte)
    (hk : Held s₀ s) : Held s₀ (State.discEvent s c n cause b) := by
  unfold State.discEvent
  repeat' (first
    | with_reducible assumption
    | with_reducible refine State.log_held (hk := ?_) ..)

theorem State.identity_held {s₀ : State} (s : State) (n : Nat) (b : List Byte)
    (hk : Held s₀ s) : Held s₀ (State.identity s n b) := by
  unfold State.identity
  repeat' (first
    | with_reducible assumption
    | with_reducible first | refine State.modDisc_held (hk := ?_) .. | refine State.log_held (hk := ?_) .. | refine State.pump_held (hk := ?_) .. | refine State.timeFound_held (hk := ?_) .. | refine State.setDisc_held (hk := ?_) .. | refine State.discEvent_held (hk := ?_) ..
    | with_reducible refine Held.ite ?_ ?_
    | split
    | dsimp only)

theorem execIdentity_held {s₀ : State} (n : Nat) (p : Packet) (s : State)
    (hk : Held s₀ s) : Answers (execIdentity n p s) (Held s₀) := by
  unfold execIdentity
  repeat' (first
    | with_reducible assumption
    | with_reducible refine Answers.next ?_
    | with_reducible refine Answers.ite ?_ ?_
    | with_reducible first | refine State.consumed_held (hk := ?_) .. | refine State.identity_held (hk := ?_) ..
    | dsimp only)

theorem execIdentityTimeout_held {s₀ : State} (n : Nat) (s : State)
    (hk : Held s₀ s) : Answers (execIdentityTimeout n s) (Held s₀) := by
  unfold execIdentityTimeout
  repeat' (first
    | with_reducible assumption
    | with_reducible refine Answers.next ?_
    | with_reducible refine Answers.ite ?_ ?_
    | with_reducible first | refine State.reach_held (hk := ?_) .. | refine State.setDisc_held (hk := ?_) .. | refine State.discEvent_held (hk := ?_) ..
    | dsimp only)

theorem State.reidentify_held {s₀ : State} (s : State) (n : Nat)
    (hk : Held s₀ s) : Held s₀ (State.reidentify s n) := by
  unfold State.reidentify
  repeat' (first
    | with_reducible assumption
    | with_reducible first | refine State.modDisc_held (hk := ?_) .. | refine State.sendIdentity_held (hk := ?_) .. | refine State.setDisc_held (hk := ?_) ..
    | split)

theorem execReidentify_held {s₀ : State} (n : Nat) (s : State)
    (hk : Held s₀ s) : Answers (execReidentify n s) (Held s₀) := by
  unfold execReidentify
  repeat' (first
    | with_reducible assumption
    | with_reducible refine Answers.next ?_
    | with_reducible refine Answers.ite ?_ ?_
    | with_reducible refine State.reidentify_held (hk := ?_) ..
    | dsimp only)

theorem execPartnerMissing_held {s₀ : State} (n : Nat) (s : State)
    (hk : Held s₀ s) : Answers (execPartnerMissing n s) (Held s₀) := by
  unfold execPartnerMissing
  repeat' (first
    | with_reducible assumption
    | with_reducible refine Answers.next ?_
    | with_reducible refine Answers.ite ?_ ?_
    | with_reducible first | refine State.modDisc_held (hk := ?_) .. | refine State.reach_held (hk := ?_) .. | refine State.log_held (hk := ?_) .. | refine State.sliceLinkLost_held (hk := ?_) ..
    | split
    | dsimp only)

theorem State.waitPass_held {s₀ : State} (s : State)
    (hk : Held s₀ s) : Held s₀ (State.waitPass s) := by
  unfold State.waitPass
  repeat' (first
    | with_reducible assumption
    | with_reducible refine State.endWalk_held (hk := ?_) ..
    | with_reducible refine Held.ite ?_ ?_)

theorem State.sliceReset_held {s₀ : State} (s : State)
    (hk : Held s₀ s) : Held s₀ (State.sliceReset s) := by
  unfold State.sliceReset
  repeat' (first
    | with_reducible assumption
    | with_reducible first | refine State.modSet_held (hk := ?_) .. | refine State.modDec_held (hk := ?_) .. | refine State.modCol_held (hk := ?_) .. | refine State.freeKept_held (hk := ?_) .. | refine State.ownerReset_held (hk := ?_) .. | refine State.endWindow_held (hk := ?_) .. | refine State.fencesDone_held (hk := ?_) .. | refine State.haltSeq_held (hk := ?_) .. | refine State.flushCrossings_held (hk := ?_) .. | refine State.resetEvent_held (hk := ?_) .. | refine State.clearTotals_held (hk := ?_) .. | refine State.clearPresence_held (hk := ?_) .. | refine State.unfault_held (hk := ?_) .. | refine State.clearCores_held (hk := ?_) .. | refine State.waitPass_held (hk := ?_) ..
    | with_reducible refine Held.foldl (fun _ _ _ => ?_) ?_
    | with_reducible refine Held.foldl2 (fun _ _ _ => ?_) ?_
    | split
    | dsimp only)

theorem State.notice_held {s₀ : State} (s : State) (b : List Byte)
    (hk : Held s₀ s) : Held s₀ (State.notice s b) := by
  unfold State.notice
  repeat' (first
    | with_reducible assumption
    | with_reducible first | refine State.modSlice_held (hk := ?_) .. | refine State.badPacket_held (hk := ?_) .. | refine State.sendNotice_held (hk := ?_) .. | refine State.degrade_held (hk := ?_) .. | refine State.sliceReset_held (hk := ?_) ..
    | with_reducible refine Held.ite ?_ ?_
    | split
    | dsimp only)

theorem execSliceNotice_held {s₀ : State} (n : Nat) (p : Packet) (s : State)
    (hk : Held s₀ s) : Answers (execSliceNotice n p s) (Held s₀) := by
  unfold execSliceNotice
  repeat' (first
    | with_reducible assumption
    | with_reducible refine Answers.next ?_
    | with_reducible refine Answers.ite ?_ ?_
    | with_reducible first | refine State.consumed_held (hk := ?_) .. | refine State.notice_held (hk := ?_) ..
    | dsimp only)

theorem execRouteStall_held {s₀ : State} (n ch vc : Nat) (s : State)
    (hk : Held s₀ s) : Answers (execRouteStall n ch vc s) (Held s₀) := by
  unfold execRouteStall
  repeat' (first
    | with_reducible assumption
    | with_reducible refine Answers.next ?_
    | with_reducible refine Answers.ite ?_ ?_
    | with_reducible refine State.logLimited_held (hk := ?_) ..
    | split
    | dsimp only)

theorem State.undone_held {s₀ : State} (s : State) (p : Packet) (x : Sent)
    (hk : Held s₀ s) : Held s₀ (State.undone s p x) := by
  unfold State.undone
  repeat' (first
    | with_reducible assumption
    | with_reducible first | refine State.modRtr_held (hk := ?_) .. | refine State.toRequester_held (hk := ?_) .. | refine State.complete_held (hk := ?_) .. | refine State.dmaEnd_held (hk := ?_) .. | refine State.stmtFail_held (hk := ?_) .. | refine State.entryEnd_held (hk := ?_) .. | refine State.readFailed_held (hk := ?_) ..
    | with_reducible refine Held.ite ?_ ?_
    | split)

theorem State.releaseOne_held {s₀ : State} (s : State) (w : Waiting)
    (hk : Held s₀ s) : Held s₀ (State.releaseOne s w) := by
  unfold State.releaseOne
  repeat' (first
    | with_reducible assumption
    | with_reducible first | refine State.launch_held (hk := ?_) .. | refine State.streamLaunch_held (hk := ?_) .. | refine State.undone_held (hk := ?_) ..
    | with_reducible refine Held.ite ?_ ?_
    | with_reducible refine Held.pair (by assumption) ?_
    | split
    | dsimp only)

theorem State.releaseDrain_held {s₀ : State} (s : State)
    (hk : Held s₀ s) : Held s₀ (State.releaseDrain s) := by
  unfold State.releaseDrain
  repeat' (first
    | with_reducible assumption
    | with_reducible first | refine State.modRtr_held (hk := ?_) .. | refine State.releaseOne_held (hk := ?_) ..
    | with_reducible refine Held.foldl (fun _ _ _ => ?_) ?_
    | split)

theorem State.setDrain_held {s₀ : State} (s : State) (v : Bool)
    (hk : Held s₀ s) : Held s₀ (State.setDrain s v) := by
  unfold State.setDrain
  repeat' (first
    | with_reducible assumption
    | with_reducible first | refine State.modRtr_held (hk := ?_) .. | refine State.dmasDone_held (hk := ?_) .. | refine State.releaseDrain_held (hk := ?_) ..
    | with_reducible refine Held.ite ?_ ?_
    | split)

theorem execDrain_held {s₀ : State} (v : Bool) (s : State)
    (hk : Held s₀ s) : Answers (execDrain v s) (Held s₀) := by
  unfold execDrain
  repeat' (first
    | with_reducible assumption
    | with_reducible refine Answers.next ?_
    | with_reducible refine State.setDrain_held (hk := ?_) ..
    | dsimp only)

theorem State.writeDetour_held {s₀ : State} (s : State) (t e v : Nat)
    (hk : Held s₀ s) : Held s₀ (State.writeDetour s t e v) := by
  unfold State.writeDetour
  repeat' (first
    | with_reducible assumption
    | with_reducible first | refine State.modRtr_held (hk := ?_) .. | refine State.log_held (hk := ?_) ..
    | with_reducible refine Held.ite ?_ ?_
    | split)

theorem execDetourWrite_held {s₀ : State} (t e v : Nat) (s : State)
    (hk : Held s₀ s) : Answers (execDetourWrite t e v s) (Held s₀) := by
  unfold execDetourWrite
  repeat' (first
    | with_reducible assumption
    | with_reducible refine Answers.next ?_
    | with_reducible refine Answers.ite ?_ ?_
    | with_reducible refine State.writeDetour_held (hk := ?_) ..
    | dsimp only)

theorem State.rateRecompute_held {s₀ : State} (s : State)
    (hk : Held s₀ s) : Held s₀ (State.rateRecompute s) := by
  unfold State.rateRecompute
  repeat' (first
    | with_reducible assumption
    | with_reducible first | refine State.modPurse_held (hk := ?_) .. | refine State.modPwr_held (hf := fun _ => Held.kept) (hk := ?_) ..
    | with_reducible refine Held.foldl (fun _ _ _ => ?_) ?_
    | split
    | dsimp only)

theorem execPurseRefillTick_held {s₀ : State} (s : State)
    (hk : Held s₀ s) : Answers (execPurseRefillTick s) (Held s₀) := by
  unfold execPurseRefillTick
  repeat' (first
    | with_reducible assumption
    | with_reducible refine Answers.next ?_
    | with_reducible first | refine State.modClusters_held (hk := ?_) .. | refine State.modPwr_held (hf := fun _ => Held.kept) (hk := ?_) .. | refine State.reach_held (hk := ?_) .. | refine State.retryStart_held (hk := ?_) .. | refine State.rateRecompute_held (hk := ?_) ..
    | with_reducible refine Held.ite ?_ ?_
    | with_reducible refine Held.foldl (fun _ _ _ => ?_) ?_
    | split
    | dsimp only)

theorem execRateRecompute_held {s₀ : State} (s : State)
    (hk : Held s₀ s) : Answers (execRateRecompute s) (Held s₀) := by
  unfold execRateRecompute
  repeat' (first
    | with_reducible assumption
    | with_reducible refine Answers.next ?_
    | with_reducible refine Answers.ite ?_ ?_
    | with_reducible refine State.rateRecompute_held (hk := ?_) ..
    | split
    | dsimp only)

theorem State.thermStep_held {s₀ : State} (s : State) (tmax : Int)
    (hk : Held s₀ s) : Held s₀ (State.thermStep s tmax) := by
  unfold State.thermStep
  repeat' (first
    | with_reducible assumption
    | with_reducible first | refine State.modPwr_held (hf := fun _ => Held.kept) (hk := ?_) .. | refine State.log_held (hk := ?_) ..
    | with_reducible refine Held.ite ?_ ?_
    | split
    | dsimp only)

theorem State.partnerGone_held {s₀ : State} (s : State) (n : Nat)
    (hk : Held s₀ s) : Held s₀ (State.partnerGone s n) := by
  unfold State.partnerGone
  repeat' (first
    | with_reducible assumption
    | with_reducible first | refine State.modDisc_held (hk := ?_) .. | refine State.log_held (hk := ?_) .. | refine State.leftActive_held (hk := ?_) ..
    | with_reducible refine Held.ite ?_ ?_
    | split
    | dsimp only)

theorem State.linkLeaves_held {s₀ : State} (s : State) (n : Nat) (st : LState)
    (hk : Held s₀ s) : Held s₀ (State.linkLeaves s n st) := by
  unfold State.linkLeaves
  repeat' (first
    | with_reducible assumption
    | with_reducible first | refine State.linkFalls_held (hk := ?_) .. | refine State.partnerGone_held (hk := ?_) .. | refine State.linkFresh_held (hk := ?_) ..
    | with_reducible refine Held.ite ?_ ?_
    | dsimp only)

theorem State.enterFatal_held {s₀ : State} (s : State) (hk : Held s₀ s) : Held s₀ (State.enterFatal s) := by
  unfold State.enterFatal
  refine .ite hk (.foldl (fun t n ht => .ite ht (State.linkLeaves_held (hk := ht) ..)) ?_)
  exact State.stopRings_held (hk := .set_dram (hd := Held.kept) (h := State.modClusters_held (hk :=
    State.modErr_held (hf := fun e => ⟨Held.kept, Bool.le_true _⟩) (hk := hk) ..) ..) ..) ..

theorem State.trip_held {s₀ : State} (s : State) (sensor : Nat)
    (hk : Held s₀ s) : Held s₀ (State.trip s sensor) := by
  unfold State.trip
  repeat' (first
    | with_reducible assumption
    | with_reducible first | refine State.modPwr_held (hf := fun _ => Held.kept) (hk := ?_) .. | refine State.total_held (hk := ?_) .. | refine State.detect_held (hk := ?_) .. | refine State.enterFatal_held (hk := ?_) ..
    | split
    | dsimp only)

theorem execThermalSample_held {s₀ : State} (ts : List Int) (s : State)
    (hk : Held s₀ s) : Answers (execThermalSample ts s) (Held s₀) := by
  unfold execThermalSample
  repeat' (first
    | with_reducible assumption
    | with_reducible refine Answers.next ?_
    | with_reducible refine Answers.ite ?_ ?_
    | with_reducible first | refine State.modPwr_held (hf := fun _ => Held.kept) (hk := ?_) .. | refine State.thermStep_held (hk := ?_) .. | refine State.trip_held (hk := ?_) ..
    | split
    | with_reducible refine Held.set_tel (h := ?_) ..
    | dsimp only)

theorem State.paceFinal_held {s₀ : State} (s : State) (q round demand : Nat)
    (hk : Held s₀ s) : Held s₀ (State.paceFinal s q round demand) := by
  unfold State.paceFinal
  repeat' (first
    | with_reducible assumption
    | with_reducible first | refine State.modPwr_held (hf := fun _ => Held.kept) (hk := ?_) .. | refine State.streamSend_held (hk := ?_) ..
    | with_reducible refine Held.foldl (fun _ _ _ => ?_) ?_
    | split
    | dsimp only)

theorem State.paceAdvance_held {s₀ : State} (s : State)
    (hk : Held s₀ s) : Held s₀ (State.paceAdvance s) := by
  unfold State.paceAdvance
  repeat' (first
    | with_reducible assumption
    | with_reducible first | refine State.modPwr_held (hf := fun _ => Held.kept) (hk := ?_) .. | refine State.streamSend_held (hk := ?_) .. | refine State.paceFinal_held (hk := ?_) ..
    | split
    | dsimp only)

theorem State.roundMissed_held {s₀ : State} (s : State)
    (hk : Held s₀ s) : Held s₀ (State.roundMissed s) := by
  unfold State.roundMissed
  repeat' (first
    | with_reducible assumption
    | with_reducible first | refine State.modPwr_held (hf := fun _ => Held.kept) (hk := ?_) .. | refine State.span_held (hk := ?_) .. | refine State.logLimited_held (hk := ?_) ..
    | with_reducible refine Held.ite ?_ ?_
    | split)

theorem execPaceRound_held {s₀ : State} (s : State)
    (hk : Held s₀ s) : Answers (execPaceRound s) (Held s₀) := by
  unfold execPaceRound
  repeat' (first
    | with_reducible assumption
    | with_reducible refine Answers.next ?_
    | with_reducible refine Answers.ite ?_ ?_
    | with_reducible first | refine State.modClusters_held (hk := ?_) .. | refine State.modPwr_held (hf := fun _ => Held.kept) (hk := ?_) .. | refine State.paceAdvance_held (hk := ?_) .. | refine State.roundMissed_held (hk := ?_) ..
    | split
    | dsimp only)

theorem execPaceCombine_held {s₀ : State} (p : Packet) (s : State)
    (hk : Held s₀ s) : Answers (execPaceCombine p s) (Held s₀) := by
  unfold execPaceCombine
  repeat' (first
    | with_reducible assumption
    | with_reducible refine Answers.next ?_
    | with_reducible refine Answers.ite ?_ ?_
    | with_reducible first | refine State.modPwr_held (hf := fun _ => Held.kept) (hk := ?_) .. | refine State.consumed_held (hk := ?_) .. | refine State.badPacket_held (hk := ?_) .. | refine State.paceAdvance_held (hk := ?_) ..
    | split
    | dsimp only)

theorem execPaceBroadcast_held {s₀ : State} (p : Packet) (s : State)
    (hk : Held s₀ s) : Answers (execPaceBroadcast p s) (Held s₀) := by
  unfold execPaceBroadcast
  repeat' (first
    | with_reducible assumption
    | with_reducible refine Answers.next ?_
    | with_reducible refine Answers.ite ?_ ?_
    | with_reducible first | refine State.consumed_held (hk := ?_) .. | refine State.badPacket_held (hk := ?_) .. | refine State.paceFinal_held (hk := ?_) ..
    | dsimp only)

theorem execPowerBrake_held {s₀ : State} (s : State)
    (hk : Held s₀ s) : Answers (execPowerBrake s) (Held s₀) := by
  unfold execPowerBrake
  repeat' (first
    | with_reducible assumption
    | with_reducible refine Answers.next ?_
    | with_reducible refine Answers.ite ?_ ?_
    | with_reducible first | refine State.modClusters_held (hk := ?_) .. | refine State.modPwr_held (hf := fun _ => Held.kept) (hk := ?_) .. | refine State.total_held (hk := ?_) .. | refine State.log_held (hk := ?_) ..
    | split
    | dsimp only)

theorem execPowerBrakeRelease_held {s₀ : State} (s : State)
    (hk : Held s₀ s) : Answers (execPowerBrakeRelease s) (Held s₀) := by
  unfold execPowerBrakeRelease
  repeat' (first
    | with_reducible assumption
    | with_reducible refine Answers.next ?_
    | with_reducible refine State.modPwr_held (hf := fun _ => Held.kept) (hk := ?_) ..
    | split
    | dsimp only)

theorem execDeepIdleEntry_held {s₀ : State} (s : State)
    (hk : Held s₀ s) : Answers (execDeepIdleEntry s) (Held s₀) := by
  unfold execDeepIdleEntry
  repeat' (first
    | with_reducible assumption
    | with_reducible refine Answers.next ?_
    | with_reducible refine Answers.ite ?_ ?_
    | with_reducible first | refine State.modPwr_held (hf := fun _ => Held.kept) (hk := ?_) .. | refine State.reach_held (hk := ?_) ..
    | split
    | with_reducible refine Held.set_dram (hd := Held.kept) (h := ?_) ..
    | dsimp only)

theorem State.deepExit_held {s₀ : State} (s : State)
    (hk : Held s₀ s) : Held s₀ (State.deepExit s) := by
  unfold State.deepExit
  repeat' (first
    | with_reducible assumption
    | with_reducible first | refine State.modPwr_held (hf := fun _ => Held.kept) (hk := ?_) .. | refine State.reach_held (hk := ?_) ..
    | with_reducible refine Held.ite ?_ ?_
    | split
    | with_reducible refine Held.set_dram (hd := Held.kept) (h := ?_) ..
    | dsimp only)

theorem execDeepIdleExit_held {s₀ : State} (s : State)
    (hk : Held s₀ s) : Answers (execDeepIdleExit s) (Held s₀) := by
  unfold execDeepIdleExit
  repeat' (first
    | with_reducible assumption
    | with_reducible refine Answers.next ?_
    | with_reducible refine State.deepExit_held (hk := ?_) ..
    | dsimp only)

theorem execAvsUpdate_held {s₀ : State} (c : Nat) (up : Option Bool) (margin : Nat) (ok : Bool) (s : State)
    (hk : Held s₀ s) : Answers (execAvsUpdate c up margin ok s) (Held s₀) := by
  unfold execAvsUpdate
  repeat' (first
    | with_reducible assumption
    | with_reducible refine Answers.next ?_
    | with_reducible refine Answers.ite ?_ ?_
    | with_reducible first | refine State.modClock_held (hk := ?_) .. | refine State.emit_held (hk := ?_) .. | refine State.spanMin_held (hk := ?_) .. | refine State.log_held (hk := ?_) ..
    | split
    | dsimp only)

theorem State.railRead_held {s₀ : State} (s : State) (x : Nat × Option (Nat × Nat))
    (hk : Held s₀ s) : Held s₀ (State.railRead s x) := by
  unfold State.railRead
  repeat' (first
    | with_reducible assumption
    | with_reducible first | refine State.span_held (hk := ?_) .. | refine State.spanMin_held (hk := ?_) .. | refine State.log_held (hk := ?_) ..
    | with_reducible refine Held.ite ?_ ?_
    | split
    | with_reducible refine Held.set_rails (h := ?_) ..
    | dsimp only)

theorem State.railReads_held {s₀ : State} (s : State) (xs : List (Nat × Option (Nat × Nat)))
    (hk : Held s₀ s) : Held s₀ (State.railReads s xs) := by
  unfold State.railReads
  repeat' (first
    | with_reducible assumption
    | with_reducible refine State.railRead_held (hk := ?_) ..
    | with_reducible refine Held.foldl (fun _ _ _ => ?_) ?_
    | split)

theorem State.powerRead_held {s₀ : State} (s : State)
    (hk : Held s₀ s) : Held s₀ (State.powerRead s) := by
  unfold State.powerRead
  repeat' (first
    | with_reducible assumption
    | with_reducible first | refine State.modPwr_held (hf := fun _ => Held.kept) (hk := ?_) .. | refine State.span_held (hk := ?_) .. | refine State.total_held (hk := ?_) .. | refine State.daySample_held (hk := ?_) ..
    | split
    | dsimp only)

theorem execRegulatorRead_held {s₀ : State} (xs : List (Nat × Option (Nat × Nat))) (s : State)
    (hk : Held s₀ s) : Answers (execRegulatorRead xs s) (Held s₀) := by
  unfold execRegulatorRead
  repeat' (first
    | with_reducible assumption
    | with_reducible refine Answers.next ?_
    | with_reducible first | refine State.railReads_held (hk := ?_) .. | refine State.powerRead_held (hk := ?_) ..
    | dsimp only)

theorem execRailUndervoltage_held {s₀ : State} (r : Nat) (s : State)
    (hk : Held s₀ s) : Answers (execRailUndervoltage r s) (Held s₀) := by
  unfold execRailUndervoltage
  repeat' (first
    | with_reducible assumption
    | with_reducible refine Answers.next ?_
    | with_reducible refine Answers.ite ?_ ?_
    | with_reducible first | refine State.modClock_held (hk := ?_) .. | refine State.span_held (hk := ?_) .. | refine State.detect_held (hk := ?_) ..
    | split
    | with_reducible refine Held.set_rails (h := ?_) ..
    | dsimp only)

theorem execRailRecovery_held {s₀ : State} (r : Nat) (s : State)
    (hk : Held s₀ s) : Answers (execRailRecovery r s) (Held s₀) := by
  unfold execRailRecovery
  repeat' (first
    | with_reducible assumption
    | with_reducible refine Answers.next ?_
    | with_reducible refine Answers.ite ?_ ?_
    | with_reducible first | refine State.modClock_held (hk := ?_) .. | refine State.closeWindow_held (hk := ?_) ..
    | split
    | with_reducible refine Held.set_rails (h := ?_) ..
    | dsimp only)

theorem State.clusterOff_held {s₀ : State} (s : State) (c : Nat)
    (hk : Held s₀ s) : Held s₀ (State.clusterOff s c) := by
  unfold State.clusterOff
  repeat' (first
    | with_reducible assumption
    | with_reducible first | refine State.modClock_held (hk := ?_) .. | refine State.modUnit_held (hk := ?_) .. | refine State.fencesDone_held (hk := ?_) .. | refine State.haltSeq_held (hk := ?_) .. | refine State.clearCores_held (hk := ?_) ..
    | split
    | with_reducible refine Held.set_rails (h := ?_) ..
    | dsimp only)

theorem execRailFault_held {s₀ : State} (r : Nat) (report : Bool) (s : State)
    (hk : Held s₀ s) : Answers (execRailFault r report s) (Held s₀) := by
  unfold execRailFault
  repeat' (first
    | with_reducible assumption
    | with_reducible refine Answers.next ?_
    | with_reducible refine Answers.ite ?_ ?_
    | with_reducible first | refine State.detect_held (hk := ?_) .. | refine State.closeWindow_held (hk := ?_) .. | refine State.enterFatal_held (hk := ?_) .. | refine State.clusterOff_held (hk := ?_) ..
    | with_reducible refine Held.ite ?_ ?_
    | with_reducible refine Held.set_rails (h := ?_) ..
    | dsimp only)

theorem State.cdcEnds_held {s₀ : State} (s : State) (d : Desc)
    (hk : Held s₀ s) : Held s₀ (State.cdcEnds s d) := by
  unfold State.cdcEnds
  repeat' (first
    | with_reducible assumption
    | with_reducible first | refine State.complete_held (hk := ?_) .. | refine State.forgetDesc_held (hk := ?_) .. | refine State.haltSeq_held (hk := ?_) ..
    | with_reducible refine Held.ite ?_ ?_
    | with_reducible refine Held.foldl (fun _ _ _ => ?_) ?_
    | split
    | dsimp only)

theorem execCdcTimeout_held {s₀ : State} (domain addr : Nat) (cmd : Option Desc) (s : State)
    (hk : Held s₀ s) : Answers (execCdcTimeout domain addr cmd s) (Held s₀) := by
  unfold execCdcTimeout
  repeat' (first
    | with_reducible assumption
    | with_reducible refine Answers.next ?_
    | with_reducible first | refine State.reach_held (hk := ?_) .. | refine State.cdcTimeout_held (hk := ?_) .. | refine State.crossed_held (hk := ?_) .. | refine State.cdcEnds_held (hk := ?_) ..
    | split
    | with_reducible refine Held.set_rails (h := ?_) ..
    | dsimp only)

theorem State.compareUnit_held {s₀ : State} (s : State) (u : UnitName)
    (hk : Held s₀ s) : Held s₀ (State.compareUnit s u) := by
  unfold State.compareUnit
  repeat' (first
    | with_reducible assumption
    | with_reducible first | refine State.modUnit_held (hk := ?_) .. | refine State.log_held (hk := ?_) ..
    | with_reducible refine Held.ite ?_ ?_
    | split)

theorem execStateCompare_held {s₀ : State} (s : State)
    (hk : Held s₀ s) : Answers (execStateCompare s) (Held s₀) := by
  unfold execStateCompare
  repeat' (first
    | with_reducible assumption
    | with_reducible refine Answers.next ?_
    | with_reducible refine State.compareUnit_held (hk := ?_) ..
    | with_reducible refine Held.foldl (fun _ _ _ => ?_) ?_
    | dsimp only)

theorem State.resetCore_held {s₀ : State} (s : State) (p : Nat)
    (hk : Held s₀ s) : Held s₀ (State.resetCore s p).2 := by
  unfold State.resetCore
  repeat' (first
    | with_reducible assumption
    | with_reducible first | refine State.modCore_held (hk := ?_) .. | refine State.modUnit_held (hk := ?_) .. | refine State.releaseBuffers_held (hk := ?_) .. | refine State.retireLayer_held (hk := ?_) .. | refine State.afterLayer_held (hk := ?_) ..
    | with_reducible refine Held.ite ?_ ?_
    | split
    | dsimp only)

theorem State.coreReset_held {s₀ : State} (s : State) (p : Nat)
    (hk : Held s₀ s) : Held s₀ (State.coreReset s p) := by
  unfold State.coreReset
  repeat' (first
    | with_reducible assumption
    | with_reducible first | refine State.resetEvent_held (hk := ?_) .. | refine State.resetCore_held (hk := ?_) ..
    | split
    | dsimp only)

theorem execCoreWatchdog_held {s₀ : State} (p : Nat) (s : State)
    (hk : Held s₀ s) : Answers (execCoreWatchdog p s) (Held s₀) := by
  unfold execCoreWatchdog
  repeat' (first
    | with_reducible assumption
    | with_reducible refine Answers.next ?_
    | with_reducible refine Answers.ite ?_ ?_
    | with_reducible first | refine State.detect_held (hk := ?_) .. | refine State.closeWindow_held (hk := ?_) .. | refine State.contain_held (hk := ?_) .. | refine State.coreReset_held (hk := ?_) ..
    | dsimp only)

theorem State.clusterReset_held {s₀ : State} (s : State) (c : Nat)
    (hk : Held s₀ s) : Held s₀ (State.clusterReset s c) := by
  unfold State.clusterReset
  repeat' (first
    | with_reducible assumption
    | with_reducible first | refine State.wake_held (hk := ?_) .. | refine State.flushCrossings_held (hk := ?_) .. | refine State.resetEvent_held (hk := ?_) .. | refine State.resetCluster_held (hk := ?_) ..
    | split
    | dsimp only)

theorem execSeqWatchdog_held {s₀ : State} (c : Nat) (s : State)
    (hk : Held s₀ s) : Answers (execSeqWatchdog c s) (Held s₀) := by
  unfold execSeqWatchdog
  repeat' (first
    | with_reducible assumption
    | with_reducible refine Answers.next ?_
    | with_reducible refine Answers.ite ?_ ?_
    | with_reducible first | refine State.detect_held (hk := ?_) .. | refine State.closeWindow_held (hk := ?_) .. | refine State.contain_held (hk := ?_) .. | refine State.clusterReset_held (hk := ?_) ..
    | dsimp only)

theorem execBucelRestart_held {s₀ : State} (s : State)
    (hk : Held s₀ s) : Answers (execBucelRestart s) (Held s₀) := by
  unfold execBucelRestart
  repeat' (first
    | with_reducible assumption
    | with_reducible refine Answers.next ?_
    | with_reducible first | refine State.modMgmt_held (hk := ?_) .. | refine State.detect_held (hk := ?_) ..
    | split
    | dsimp only)

theorem execBucelRestartComplete_held {s₀ : State} (s : State)
    (hk : Held s₀ s) : Answers (execBucelRestartComplete s) (Held s₀) := by
  unfold execBucelRestartComplete
  repeat' (first
    | with_reducible assumption
    | with_reducible refine Answers.next ?_
    | with_reducible refine Answers.ite ?_ ?_
    | with_reducible first | refine State.modMgmt_held (hk := ?_) .. | refine State.ledgerAppend_held (hk := ?_) ..
    | with_reducible refine Held.foldl (fun _ _ _ => ?_) ?_
    | split
    | with_reducible refine Held.set_ledger (h := ?_) ..
    | dsimp only)

theorem State.leaveMaintenance_held {s₀ : State} (s : State)
    (hk : Held s₀ s) : Held s₀ (State.leaveMaintenance s) := by
  unfold State.leaveMaintenance
  repeat' (first
    | with_reducible assumption
    | with_reducible first | refine State.modErr_held (hf := fun _ => ⟨Held.kept, Held.kept⟩) (hk := ?_) .. | refine State.modSec_held (hf := fun _ => Held.kept) (hk := ?_) .. | refine State.log_held (hk := ?_) ..
    | with_reducible refine Held.ite ?_ ?_
    | split)

theorem State.endRights_held {s₀ : State} (s : State)
    (hk : Held s₀ s) : Held s₀ (State.endRights s) := by
  unfold State.endRights
  repeat' (first
    | with_reducible assumption
    | with_reducible first | refine State.modSec_held (hf := fun _ => Held.kept) (hk := ?_) .. | refine State.leaveMaintenance_held (hk := ?_) ..
    | split)

theorem execSecurityAlarm_held {s₀ : State} (sensor : Nat) (s : State)
    (hk : Held s₀ s) : Answers (execSecurityAlarm sensor s) (Held s₀) := by
  unfold execSecurityAlarm
  repeat' (first
    | with_reducible assumption
    | with_reducible refine Answers.next ?_
    | with_reducible first | refine State.modSec_held (hf := fun _ => Held.kept) (hk := ?_) .. | refine State.detect_held (hk := ?_) .. | refine State.enterFatal_held (hk := ?_) .. | refine State.endRights_held (hk := ?_) ..
    | split
    | dsimp only)

theorem State.injectDenied_held {s₀ : State} (s : State)
    (hk : Held s₀ s) : Held s₀ (State.injectDenied s) := by
  unfold State.injectDenied
  repeat' (first
    | with_reducible assumption
    | with_reducible refine State.logLimited_held (hk := ?_) ..)

theorem State.writeInjCtrl_held {s₀ : State} (s : State) (v : Nat)
    (hk : Held s₀ s) : Held s₀ (State.writeInjCtrl s v) := by
  unfold State.writeInjCtrl
  repeat' (first
    | with_reducible assumption
    | with_reducible first | refine State.modErr_held (hf := fun _ => ⟨Held.kept, Held.kept⟩) (hk := ?_) .. | refine State.injectDenied_held (hk := ?_) ..
    | with_reducible refine Held.ite ?_ ?_
    | split)

theorem State.writeInjAddr_held {s₀ : State} (s : State) (v : W64)
    (hk : Held s₀ s) : Held s₀ (State.writeInjAddr s v) := by
  unfold State.writeInjAddr
  repeat' (first
    | with_reducible assumption
    | with_reducible first | refine State.modErr_held (hf := fun _ => ⟨Held.kept, Held.kept⟩) (hk := ?_) .. | refine State.injectDenied_held (hk := ?_) ..
    | with_reducible refine Held.ite ?_ ?_
    | split)

theorem execInjectArm_held {s₀ : State} (ctrl : Nat) (addr : W64) (s : State)
    (hk : Held s₀ s) : Answers (execInjectArm ctrl addr s) (Held s₀) := by
  unfold execInjectArm
  repeat' (first
    | with_reducible assumption
    | with_reducible refine Answers.next ?_
    | with_reducible first | refine State.writeInjCtrl_held (hk := ?_) .. | refine State.writeInjAddr_held (hk := ?_) ..
    | dsimp only)

theorem execHostLinkError_held {s₀ : State} (corrected : Bool) (s : State)
    (hk : Held s₀ s) : Answers (execHostLinkError corrected s) (Held s₀) := by
  unfold execHostLinkError
  repeat' (first
    | with_reducible assumption
    | with_reducible refine Answers.next ?_
    | with_reducible refine Answers.ite ?_ ?_
    | with_reducible first | refine State.span_held (hk := ?_) .. | refine State.detect_held (hk := ?_) ..
    | dsimp only)

theorem State.judgeSq_held {s₀ : State} (s : State) (n pi : Nat)
    (hk : Held s₀ s) : Held s₀ (State.judgeSq s n pi) := by
  unfold State.judgeSq
  repeat' (first
    | with_reducible assumption
    | with_reducible first | refine State.modRing_held (hk := ?_) .. | refine State.log_held (hk := ?_) ..
    | with_reducible refine Held.ite ?_ ?_
    | split
    | dsimp only)

theorem State.judgeCq_held {s₀ : State} (s : State) (x : RingName) (ci : Nat)
    (hk : Held s₀ s) : Held s₀ (State.judgeCq s x ci) := by
  unfold State.judgeCq
  repeat' (first
    | with_reducible assumption
    | with_reducible first | refine State.log_held (hk := ?_) .. | refine State.flushHeld_held (hk := ?_) .. | refine State.modRingOf_held (hk := ?_) ..
    | with_reducible refine Held.ite ?_ ?_
    | split
    | dsimp only)

theorem State.lineRead_held {s₀ : State} (s : State) (x : RingName) (pi ci : Nat)
    (hk : Held s₀ s) : Held s₀ (State.lineRead s x pi ci) := by
  unfold State.lineRead
  repeat' (first
    | with_reducible assumption
    | with_reducible first | refine State.modRingOf_held (hk := ?_) .. | refine State.judgeSq_held (hk := ?_) .. | refine State.judgeCq_held (hk := ?_) ..
    | split
    | dsimp only)

theorem execDoorbellPoll_held {s₀ : State} (x : RingName) (pi ci : Nat) (s : State)
    (hk : Held s₀ s) : Answers (execDoorbellPoll x pi ci s) (Held s₀) := by
  unfold execDoorbellPoll
  repeat' (first
    | with_reducible assumption
    | with_reducible refine Answers.next ?_
    | with_reducible refine State.lineRead_held (hk := ?_) ..
    | with_reducible refine Held.ite ?_ ?_
    | dsimp only)

theorem execLnMessage_held {s₀ : State} (x : RingName) (pi ci : Nat) (s : State)
    (hk : Held s₀ s) : Answers (execLnMessage x pi ci s) (Held s₀) := by
  unfold execLnMessage
  repeat' (first
    | with_reducible assumption
    | with_reducible refine Answers.next ?_
    | with_reducible first | refine State.emit_held (hk := ?_) .. | refine State.lineRead_held (hk := ?_) ..
    | with_reducible refine Held.ite ?_ ?_
    | dsimp only)

theorem execDescriptorFetch_held {s₀ : State} (n : Nat) (raw : List Byte) (s : State)
    (hk : Held s₀ s) : Answers (execDescriptorFetch n raw s) (Held s₀) := by
  unfold execDescriptorFetch
  repeat' (first
    | with_reducible assumption
    | with_reducible refine Answers.next ?_
    | with_reducible first | refine State.modRing_held (hk := ?_) .. | refine State.modHost_held (hk := ?_) .. | refine State.deepExit_held (hk := ?_) ..
    | with_reducible refine Held.ite ?_ ?_
    | split
    | dsimp only)

theorem State.cfgEnds_held {s₀ : State} (s : State)
    (hk : Held s₀ s) : Held s₀ (State.cfgEnds s) := by
  unfold State.cfgEnds
  repeat' (first
    | with_reducible assumption
    | with_reducible first | refine State.modSet_held (hk := ?_) .. | refine State.releaseLands_held (hk := ?_) ..
    | with_reducible refine Held.ite ?_ ?_
    | split)

theorem State.setTime_held {s₀ : State} (s : State) (step : Int)
    (hk : Held s₀ s) : Held s₀ (State.setTime s step) := by
  unfold State.setTime
  repeat' (first
    | with_reducible assumption
    | with_reducible first | refine State.modTime_held (hk := ?_) .. | refine State.log_held (hk := ?_) ..
    | split
    | with_reducible refine Held.set_devOff (h := ?_) ..)

theorem State.timeSettles_held {s₀ : State} (s : State)
    (hk : Held s₀ s) : Held s₀ (State.timeSettles s) := by
  unfold State.timeSettles
  repeat' (first
    | with_reducible assumption
    | with_reducible refine State.setTime_held (hk := ?_) ..
    | with_reducible refine Held.ite ?_ ?_
    | split)

theorem execDispatch_held {s₀ : State} (n : Nat) (s : State)
    (hk : Held s₀ s) : Answers (execDispatch n s) (Held s₀) := by
  unfold execDispatch
  repeat' (first
    | with_reducible assumption
    | with_reducible refine Answers.next ?_
    | with_reducible refine Answers.ite ?_ ?_
    | with_reducible first | refine State.modRing_held (hk := ?_) .. | refine State.modHost_held (hk := ?_) .. | refine State.complete_held (hk := ?_) .. | refine State.cfgEnds_held (hk := ?_) .. | refine State.timeSettles_held (hk := ?_) .. | refine State.beginOn_held (hk := ?_) ..
    | with_reducible refine Held.foldl (fun _ _ _ => ?_) ?_
    | split
    | dsimp only)

theorem State.hostAddrFault_held {s₀ : State} (s : State)
    (hk : Held s₀ s) : Held s₀ (State.hostAddrFault s) := by
  unfold State.hostAddrFault
  repeat' (first
    | with_reducible assumption
    | with_reducible refine State.logLimited_held (hk := ?_) ..)

theorem State.hostPoison_held {s₀ : State} (s : State) (a : Nat)
    (hk : Held s₀ s) : Held s₀ (State.hostPoison s a) := by
  unfold State.hostPoison
  repeat' (first
    | with_reducible assumption
    | with_reducible refine State.log_held (hk := ?_) ..)

theorem execBar2Read_held {s₀ : State} (off n : Nat) (ecc : List (Nat × EccResult)) (s : State)
    (hk : Held s₀ s) : Answers (execBar2Read off n ecc s) (Held s₀) := by
  unfold execBar2Read
  repeat' (first
    | with_reducible assumption
    | with_reducible refine Answers.next ?_
    | with_reducible refine Answers.ite ?_ ?_
    | with_reducible first | refine State.emit_held (hk := ?_) .. | refine State.fresh_held (hk := ?_) .. | refine State.eccAll_held (hk := ?_) .. | refine State.deepExit_held (hk := ?_) .. | refine State.hostAddrFault_held (hk := ?_) .. | refine State.hostPoison_held (hk := ?_) ..
    | with_reducible refine Held.ite ?_ ?_
    | split
    | dsimp only)

theorem execBar2Write_held {s₀ : State} (off : Nat) (data : List Byte) (poisoned : Bool) (s : State)
    (hk : Held s₀ s) : Answers (execBar2Write off data poisoned s) (Held s₀) := by
  unfold execBar2Write
  repeat' (first
    | with_reducible assumption
    | with_reducible refine Answers.next ?_
    | with_reducible refine Answers.ite ?_ ?_
    | with_reducible first | refine State.writeMem_held (hk := ?_) .. | refine State.log_held (hk := ?_) .. | refine State.deepExit_held (hk := ?_) .. | refine State.hostAddrFault_held (hk := ?_) ..
    | with_reducible refine Held.ite ?_ ?_
    | split
    | dsimp only)

theorem execLinkPartnerLost_held {s₀ : State} (n : Nat) (s : State)
    (hk : Held s₀ s) : Answers (execLinkPartnerLost n s) (Held s₀) := by
  unfold execLinkPartnerLost
  repeat' (first
    | with_reducible assumption
    | with_reducible refine Answers.next ?_
    | with_reducible first | refine State.modUnit_held (hk := ?_) .. | refine State.reach_held (hk := ?_) .. | refine State.detect_held (hk := ?_) .. | refine State.closeWindow_held (hk := ?_) .. | refine State.linkLeaves_held (hk := ?_) ..
    | with_reducible refine Held.ite ?_ ?_
    | split
    | dsimp only)

theorem State.train_held {s₀ : State} (s : State) (n : Nat)
    (hk : Held s₀ s) : Held s₀ (State.train s n) := by
  unfold State.train
  repeat' (first
    | with_reducible assumption
    | with_reducible first | refine State.modLink_held (hk := ?_) .. | refine State.modDev_held (hf := fun _ => Held.kept) (hk := ?_) .. | refine State.linkLeaves_held (hk := ?_) ..
    | split
    | dsimp only)

theorem execSignalDetect_held {s₀ : State} (n : Nat) (s : State)
    (hk : Held s₀ s) : Answers (execSignalDetect n s) (Held s₀) := by
  unfold execSignalDetect
  repeat' (first
    | with_reducible assumption
    | with_reducible refine Answers.next ?_
    | with_reducible refine State.train_held (hk := ?_) ..
    | with_reducible refine Held.ite ?_ ?_
    | dsimp only)

theorem execLinkUp_held {s₀ : State} (n mode half : Nat) (floors : List Nat) (calTx calRx : Nat) (s : State)
    (hk : Held s₀ s) : Answers (execLinkUp n mode half floors calTx calRx s) (Held s₀) := by
  unfold execLinkUp
  repeat' (first
    | with_reducible assumption
    | with_reducible refine Answers.next ?_
    | with_reducible first | refine State.modLink_held (hk := ?_) .. | refine State.modRep_held (hk := ?_) .. | refine State.modUnit_held (hk := ?_) .. | refine State.setDisc_held (hk := ?_) .. | refine State.modLane_held (hk := ?_) .. | refine State.heldKeepalive_held (hk := ?_) ..
    | with_reducible refine Held.ite ?_ ?_
    | with_reducible refine Held.foldl (fun _ _ _ => ?_) ?_
    | split
    | dsimp only)

theorem execTrainingTimeout_held {s₀ : State} (n : Nat) (s : State)
    (hk : Held s₀ s) : Answers (execTrainingTimeout n s) (Held s₀) := by
  unfold execTrainingTimeout
  repeat' (first
    | with_reducible assumption
    | with_reducible refine Answers.next ?_
    | with_reducible first | refine State.modLink_held (hk := ?_) .. | refine State.reach_held (hk := ?_) .. | refine State.log_held (hk := ?_) ..
    | with_reducible refine Held.ite ?_ ?_
    | split
    | dsimp only)

theorem execTrainingRetry_held {s₀ : State} (n : Nat) (s : State)
    (hk : Held s₀ s) : Answers (execTrainingRetry n s) (Held s₀) := by
  unfold execTrainingRetry
  repeat' (first
    | with_reducible assumption
    | with_reducible refine Answers.next ?_
    | with_reducible refine State.train_held (hk := ?_) ..
    | with_reducible refine Held.ite ?_ ?_
    | dsimp only)

theorem State.retrain_held {s₀ : State} (s : State) (n : Nat)
    (hk : Held s₀ s) : Held s₀ (State.retrain s n) := by
  unfold State.retrain
  repeat' (first
    | with_reducible assumption
    | with_reducible first | refine State.total_held (hk := ?_) .. | refine State.train_held (hk := ?_) ..
    | with_reducible refine Held.ite ?_ ?_)

theorem execRetrain_held {s₀ : State} (n : Nat) (s : State)
    (hk : Held s₀ s) : Answers (execRetrain n s) (Held s₀) := by
  unfold execRetrain
  repeat' (first
    | with_reducible assumption
    | with_reducible refine Answers.next ?_
    | with_reducible refine State.retrain_held (hk := ?_) ..
    | dsimp only)

theorem State.degradeWidth_held {s₀ : State} (s : State) (n l : Nat)
    (hk : Held s₀ s) : Held s₀ (State.degradeWidth s n l) := by
  unfold State.degradeWidth
  repeat' (first
    | with_reducible assumption
    | with_reducible first | refine State.modRep_held (hk := ?_) .. | refine State.detect_held (hk := ?_) .. | refine State.closeWindow_held (hk := ?_) .. | refine State.sendCtl_held (hk := ?_) .. | refine State.retrain_held (hk := ?_) .. | refine State.switchCw_held (hk := ?_) ..
    | split
    | dsimp only)

theorem State.laneFail_held {s₀ : State} (s : State) (n l cause : Nat)
    (hk : Held s₀ s) : Held s₀ (State.laneFail s n l cause) := by
  unfold State.laneFail
  repeat' (first
    | with_reducible assumption
    | with_reducible first | refine State.modRep_held (hk := ?_) .. | refine State.detect_held (hk := ?_) .. | refine State.closeWindow_held (hk := ?_) .. | refine State.sendCtl_held (hk := ?_) .. | refine State.modLane_held (hk := ?_) .. | refine State.degradeWidth_held (hk := ?_) ..
    | with_reducible refine Held.ite ?_ ?_
    | split
    | dsimp only)

theorem State.laneSample_held {s₀ : State} (s : State) (n l v h : Nat) (ser : W32) (corr unc : Nat)
    (hk : Held s₀ s) : Held s₀ (State.laneSample s n l v h ser corr unc) := by
  unfold State.laneSample
  repeat' (first
    | with_reducible assumption
    | with_reducible first | refine State.span_held (hk := ?_) .. | refine State.spanMin_held (hk := ?_) .. | refine State.log_held (hk := ?_) .. | refine State.modLane_held (hk := ?_) .. | refine State.laneFail_held (hk := ?_) ..
    | with_reducible refine Held.ite ?_ ?_
    | split
    | dsimp only)

theorem execLaneSample_held {s₀ : State} (n : Nat) (xs : List (Nat × Nat × Nat × W32 × Nat × Nat)) (s : State)
    (hk : Held s₀ s) : Answers (execLaneSample n xs s) (Held s₀) := by
  unfold execLaneSample
  repeat' (first
    | with_reducible assumption
    | with_reducible refine Answers.next ?_
    | with_reducible refine State.laneSample_held (hk := ?_) ..
    | with_reducible refine Held.ite ?_ ?_
    | with_reducible refine Held.foldl (fun _ _ _ => ?_) ?_
    | split
    | dsimp only)

theorem execLaneFail_held {s₀ : State} (n l cause : Nat) (s : State)
    (hk : Held s₀ s) : Answers (execLaneFail n l cause s) (Held s₀) := by
  unfold execLaneFail
  repeat' (first
    | with_reducible assumption
    | with_reducible refine Answers.next ?_
    | with_reducible refine State.laneFail_held (hk := ?_) ..
    | dsimp only)

theorem execSparingDone_held {s₀ : State} (n : Nat) (s : State)
    (hk : Held s₀ s) : Answers (execSparingDone n s) (Held s₀) := by
  unfold execSparingDone
  repeat' (first
    | with_reducible assumption
    | with_reducible refine Answers.next ?_
    | with_reducible first | refine State.modLink_held (hk := ?_) .. | refine State.modRep_held (hk := ?_) .. | refine State.total_held (hk := ?_) .. | refine State.closeWindow_held (hk := ?_) .. | refine State.pump_held (hk := ?_) .. | refine State.replay_held (hk := ?_) ..
    | with_reducible refine Held.ite ?_ ?_
    | split
    | dsimp only)

theorem execSparingTimeout_held {s₀ : State} (n : Nat) (s : State)
    (hk : Held s₀ s) : Answers (execSparingTimeout n s) (Held s₀) := by
  unfold execSparingTimeout
  repeat' (first
    | with_reducible assumption
    | with_reducible refine Answers.next ?_
    | with_reducible first | refine State.closeWindow_held (hk := ?_) .. | refine State.retrain_held (hk := ?_) ..
    | with_reducible refine Held.ite ?_ ?_
    | dsimp only)

theorem execWidthSwitch_held {s₀ : State} (n : Nat) (s : State)
    (hk : Held s₀ s) : Answers (execWidthSwitch n s) (Held s₀) := by
  unfold execWidthSwitch
  repeat' (first
    | with_reducible assumption
    | with_reducible refine Answers.next ?_
    | with_reducible first | refine State.modLink_held (hk := ?_) .. | refine State.modRep_held (hk := ?_) .. | refine State.closeWindow_held (hk := ?_) .. | refine State.pump_held (hk := ?_) .. | refine State.replay_held (hk := ?_) .. | refine State.reachCw_held (hk := ?_) ..
    | split
    | dsimp only)

theorem State.servo_held {s₀ : State} (s : State) (offset : Int)
    (hk : Held s₀ s) : Held s₀ (State.servo s offset) := by
  unfold State.servo
  repeat' (first
    | with_reducible assumption
    | with_reducible first | refine State.modTime_held (hk := ?_) .. | refine State.slewAt_held (hk := ?_) .. | refine State.fresh_held (hk := ?_) .. | refine State.log_held (hk := ?_) ..
    | with_reducible refine Held.ite ?_ ?_
    | split
    | dsimp only)

theorem execTimeRsp_held {s₀ : State} (n exchange t2 t3 at16 : Nat) (ack : Option Nat) (s : State)
    (hk : Held s₀ s) : Answers (execTimeRsp n exchange t2 t3 at16 ack s) (Held s₀) := by
  unfold execTimeRsp
  repeat' (first
    | with_reducible assumption
    | with_reducible refine Answers.next ?_
    | with_reducible first | refine State.modLink_held (hk := ?_) .. | refine State.modRep_held (hk := ?_) .. | refine State.modTime_held (hk := ?_) .. | refine State.setTime_held (hk := ?_) .. | refine State.validFrame_held (hk := ?_) .. | refine State.stamp_held (hk := ?_) .. | refine State.servo_held (hk := ?_) ..
    | with_reducible refine Held.ite ?_ ?_
    | split
    | dsimp only)

theorem State.bufferEcc_held {s₀ : State} (s : State) (p : Packet) (arr0 : BufferEcc)
    (hk : Held s₀ s) : Held s₀ (State.bufferEcc s p arr0).2 := by
  unfold State.bufferEcc
  repeat' (first
    | with_reducible assumption
    | with_reducible first | refine State.span_held (hk := ?_) .. | refine State.detect_held (hk := ?_) .. | refine State.badPacket_held (hk := ?_) ..
    | split
    | dsimp only)

theorem State.answerDrop_held {s₀ : State} (s : State) (p : Packet) (cause : Nat)
    (hk : Held s₀ s) : Held s₀ (State.answerDrop s p cause) := by
  unfold State.answerDrop
  repeat' (first
    | with_reducible assumption
    | with_reducible refine State.readErr_held (hk := ?_) ..
    | with_reducible refine Held.ite ?_ ?_)

theorem State.routeIn_held {s₀ : State} (s : State) (n vc : Nat) (p : Packet)
    (hk : Held s₀ s) : Held s₀ (State.routeIn s n vc p) := by
  unfold State.routeIn
  repeat' (first
    | with_reducible assumption
    | with_reducible first | refine State.modDisc_held (hk := ?_) .. | refine State.modRtr_held (hk := ?_) .. | refine State.span_held (hk := ?_) .. | refine State.detectLimited_held (hk := ?_) .. | refine State.freeBuffer_held (hk := ?_) .. | refine State.fenced_held (hk := ?_) .. | refine State.dropNoPort_held (hk := ?_) .. | refine State.moved_held (hk := ?_) .. | refine State.enqueue_held (hk := ?_) .. | refine State.badPacket_held (hk := ?_) .. | refine State.answerDrop_held (hk := ?_) ..
    | with_reducible refine Held.ite ?_ ?_
    | split
    | dsimp only)

theorem State.routerJudges_held {s₀ : State} (s : State) (n vc : Nat) (p : Packet) (failing : Bool)
    (hk : Held s₀ s) : Held s₀ (State.routerJudges s n vc p failing) := by
  unfold State.routerJudges
  repeat' (first
    | with_reducible assumption
    | with_reducible first | refine State.modRtr_held (hk := ?_) .. | refine State.log_held (hk := ?_) .. | refine State.freeBuffer_held (hk := ?_) .. | refine State.routeIn_held (hk := ?_) ..
    | with_reducible refine Held.ite ?_ ?_
    | split
    | dsimp only)

theorem State.routerTakes_held {s₀ : State} (s : State) (n vc : Nat) (p : Packet) (failing : Bool) (mem : BufferEcc)
    (hk : Held s₀ s) : Held s₀ (State.routerTakes s n vc p failing mem) := by
  unfold State.routerTakes
  repeat' (first
    | with_reducible assumption
    | with_reducible first | refine State.freeBuffer_held (hk := ?_) .. | refine State.deepExit_held (hk := ?_) .. | refine State.bufferEcc_held (hk := ?_) .. | refine State.routerJudges_held (hk := ?_) ..
    | with_reducible refine Held.pair (by assumption) ?_
    | split
    | dsimp only)

theorem State.acceptFrame_held {s₀ : State} (s : State) (n vc : Nat) (p : Packet) (failing : Bool) (mem : BufferEcc)
    (hk : Held s₀ s) : Held s₀ (State.acceptFrame s n vc p failing mem) := by
  unfold State.acceptFrame
  repeat' (first
    | with_reducible assumption
    | with_reducible first | refine State.modLink_held (hk := ?_) .. | refine State.sendCtl_held (hk := ?_) .. | refine State.routerTakes_held (hk := ?_) ..
    | split
    | dsimp only)

theorem State.packetFrame_held {s₀ : State} (s : State) (n vc seq : Nat) (ack : Option Nat) (p : Packet) (fecOk crcOk : Bool) (mem : BufferEcc)
    (hk : Held s₀ s) : Held s₀ (State.packetFrame s n vc seq ack p fecOk crcOk mem) := by
  unfold State.packetFrame
  repeat' (first
    | with_reducible assumption
    | with_reducible first | refine State.modLink_held (hk := ?_) .. | refine State.detect_held (hk := ?_) .. | refine State.laneFail_held (hk := ?_) .. | refine State.validFrame_held (hk := ?_) .. | refine State.acceptFrame_held (hk := ?_) .. | refine State.sendNak_held (hk := ?_) ..
    | with_reducible refine Held.ite ?_ ?_
    | split
    | dsimp only)

theorem execPacketFrame_held {s₀ : State} (n : Nat) (blocks : List Block) (fecOk : Bool) (mem : BufferEcc) (s : State)
    (hk : Held s₀ s) : Answers (execPacketFrame n blocks fecOk mem s) (Held s₀) := by
  unfold execPacketFrame
  repeat' (first
    | with_reducible assumption
    | with_reducible refine Answers.next ?_
    | with_reducible refine Answers.ite ?_ ?_
    | with_reducible first | refine State.packetFrame_held (hk := ?_) .. | refine execAck_held (hk := ?_) .. | refine execNak_held (hk := ?_) .. | refine execCredit_held (hk := ?_) .. | refine execCreditQuery_held (hk := ?_) .. | refine execKeepalive_held (hk := ?_) .. | refine State.badFrame_held (hk := ?_) .. | refine execPower_held (hk := ?_) .. | refine execSpareReq_held (hk := ?_) .. | refine execSpareAck_held (hk := ?_) .. | refine execWidth_held (hk := ?_) .. | refine execEq_held (hk := ?_) .. | refine execTimeReq_held (hk := ?_) .. | refine execTimeRsp_held (hk := ?_) ..
    | split
    | dsimp only)

theorem State.clearRc_held {s₀ : State} (s : State) (r : Reg) (on : Nat → Bool)
    (hk : Held s₀ s) : Held s₀ (State.clearRc s r on) := by
  unfold State.clearRc
  repeat' (first
    | with_reducible assumption
    | with_reducible first | refine State.modCluster_held (hk := ?_) .. | refine State.modClock_held (hk := ?_) .. | refine State.modLink_held (hk := ?_) .. | refine State.modDisc_held (hk := ?_) .. | refine State.modChannel_held (hk := ?_) .. | refine State.modErr_held (hf := fun _ => ⟨Held.kept, Held.kept⟩) (hk := ?_) .. | refine State.modCol_held (hk := ?_) .. | refine State.modRtr_held (hk := ?_) .. | refine State.modPwr_held (hf := fun _ => Held.kept) (hk := ?_) .. | refine State.modMgmt_held (hk := ?_) .. | refine State.modRingOf_held (hk := ?_) ..
    | with_reducible refine Held.ite ?_ ?_
    | split
    | with_reducible refine Held.set_rails (h := ?_) ..)

theorem State.regWord_held {s₀ : State} (s : State) (slot : Nat) (r : Reg) (w : Nat) (on : Nat → Bool)
    (hk : Held s₀ s) : Held s₀ (State.regWord s slot r w on).2 := by
  unfold State.regWord
  repeat' (first
    | with_reducible assumption
    | with_reducible refine State.clearRc_held (hk := ?_) ..
    | with_reducible refine Held.ite2 ?_ ?_
    | split
    | with_reducible refine Held.set_latches (h := ?_) ..
    | dsimp only)

theorem State.readReg_held {s₀ : State} (s : State) (off n : Nat)
    (hk : Held s₀ s) : Held s₀ (State.readReg s off n).2 := by
  unfold State.readReg
  repeat' (first
    | with_reducible assumption
    | with_reducible first | refine State.reach_held (hk := ?_) .. | refine State.cdcTimeout_held (hk := ?_) .. | refine State.regWord_held (hk := ?_) ..
    | with_reducible refine Held.ite2 ?_ ?_
    | split
    | dsimp only)

theorem State.seqClear_held {s₀ : State} (s : State) (c a n : Nat)
    (hk : Held s₀ s) : Held s₀ (State.seqClear s c a n) := by
  unfold State.seqClear
  repeat' (first
    | with_reducible assumption
    | with_reducible first | refine State.readEmptyRows_held (hk := ?_) .. | refine State.clearRc_held (hk := ?_) ..
    | with_reducible refine Held.ite ?_ ?_
    | with_reducible refine Held.set_latches (h := ?_) ..
    | dsimp only)

theorem State.seqStale_held {s₀ : State} (s : State) (c a : Nat)
    (hk : Held s₀ s) : Held s₀ (State.seqStale s c a) := by
  unfold State.seqStale
  repeat' (first
    | with_reducible assumption
    | with_reducible refine State.hazard_held (hk := ?_) ..
    | with_reducible refine Held.ite ?_ ?_
    | with_reducible refine Held.foldl (fun _ _ _ => ?_) ?_
    | split
    | dsimp only)

theorem State.seqLoad_held {s₀ : State} (s : State) (c g a n : Nat)
    (hk : Held s₀ s) : Held s₀ (State.seqLoad s c g a n) := by
  unfold State.seqLoad
  repeat' (first
    | with_reducible assumption
    | with_reducible first | refine State.modSeq_held (hk := ?_) .. | refine State.haltSeq_held (hk := ?_) .. | refine State.seqMemLost_held (hk := ?_) .. | refine State.seqClear_held (hk := ?_) .. | refine State.seqStale_held (hk := ?_) ..
    | with_reducible refine Held.ite ?_ ?_
    | split
    | dsimp only)

theorem execRegisterRead_held {s₀ : State} (by' : Accessor) (a n : Nat) (s : State)
    (hk : Held s₀ s) : Answers (execRegisterRead by' a n s) (Held s₀) := by
  unfold execRegisterRead
  repeat' (first
    | with_reducible assumption
    | with_reducible refine Answers.next ?_
    | with_reducible first | refine State.emit_held (hk := ?_) .. | refine State.crosses_held (hk := ?_) .. | refine State.onSeq_held (hk := ?_) (hf := ?_) .. | refine State.readReg_held (hk := ?_) .. | refine State.seqLoad_held (hk := ?_) ..
    | intro _ _
    | split
    | dsimp only)

theorem State.setSlot_held {s₀ : State} (s : State) (i : Nat) (v : List Byte)
    (hk : Held s₀ s) : Held s₀ (State.setSlot s i v) := by
  unfold State.setSlot
  repeat' (first
    | with_reducible assumption
    | with_reducible refine State.modSec_held (hf := fun _ => Held.kept) (hk := ?_) ..
    | split)

theorem State.extendSlot_held {s₀ : State} (s : State) (i : Nat) (x : List Byte)
    (hk : Held s₀ s) : Held s₀ (State.extendSlot s i x) := by
  unfold State.extendSlot
  repeat' (first
    | with_reducible assumption
    | with_reducible refine State.setSlot_held (hk := ?_) ..)

theorem State.loadSection_held {s₀ : State} (s : State) (img : List Byte) (src : Option Nat) (x : Section)
    (hk : Held s₀ s) : Held s₀ (State.loadSection s img src x) := by
  unfold State.loadSection
  repeat' (first
    | with_reducible assumption
    | with_reducible first | refine State.modSeq_held (hk := ?_) .. | refine State.writeMem_held (hk := ?_) .. | refine State.copyMem_held (hk := ?_) ..
    | with_reducible refine Held.ite ?_ ?_
    | with_reducible refine Held.foldl (fun _ _ _ => ?_) ?_
    | split
    | dsimp only)

theorem State.loadImage_held {s₀ : State} (s : State) (d : Desc) (img : List Byte) (src : Option Nat)
    (hk : Held s₀ s) : Held s₀ (State.loadImage s d img src) := by
  unfold State.loadImage
  repeat' (first
    | with_reducible assumption
    | with_reducible first | refine State.modClusters_held (hk := ?_) .. | refine State.modSec_held (hf := fun _ => Held.kept) (hk := ?_) .. | refine State.setSlot_held (hk := ?_) .. | refine State.extendSlot_held (hk := ?_) .. | refine State.loadSection_held (hk := ?_) ..
    | with_reducible refine Held.foldl (fun _ _ _ => ?_) ?_
    | split
    | with_reducible refine Held.set_job (h := ?_) ..
    | dsimp only)

theorem State.jobLoad_held {s₀ : State} (s : State) (d : Desc) (img : List Byte) (src : Option Nat)
    (hk : Held s₀ s) : Held s₀ (State.jobLoad s d img src) := by
  unfold State.jobLoad
  repeat' (first
    | with_reducible assumption
    | with_reducible first | refine State.log_held (hk := ?_) .. | refine State.complete_held (hk := ?_) .. | refine State.loadImage_held (hk := ?_) ..
    | with_reducible refine Held.ite ?_ ?_
    | split
    | dsimp only)

theorem execJobLoad_held {s₀ : State} (d : Desc) (image : List Byte) (ecc : List (Nat × EccResult)) (s : State)
    (hk : Held s₀ s) : Answers (execJobLoad d image ecc s) (Held s₀) := by
  unfold execJobLoad
  repeat' (first
    | with_reducible assumption
    | with_reducible refine Answers.next ?_
    | with_reducible refine Answers.ite ?_ ?_
    | with_reducible first | refine State.complete_held (hk := ?_) .. | refine State.eccAll_held (hk := ?_) .. | refine State.jobLoad_held (hk := ?_) ..
    | with_reducible refine Held.ite ?_ ?_
    | dsimp only)

theorem State.clearJob_held {s₀ : State} (s : State)
    (hk : Held s₀ s) : Held s₀ (State.clearJob s) := by
  unfold State.clearJob
  repeat' (first
    | with_reducible assumption
    | with_reducible first | refine State.modClusters_held (hk := ?_) .. | refine State.modCol_held (hk := ?_) .. | refine State.modSec_held (hf := fun _ => Held.kept) (hk := ?_) .. | refine State.setSlot_held (hk := ?_) ..
    | split
    | with_reducible refine Held.set_job_saved_preempt_settle_dec (h := ?_) ..
    | dsimp only)

theorem execJobUnload_held {s₀ : State} (d : Desc) (s : State)
    (hk : Held s₀ s) : Answers (execJobUnload d s) (Held s₀) := by
  unfold execJobUnload
  repeat' (first
    | with_reducible assumption
    | with_reducible refine Answers.next ?_
    | with_reducible refine Answers.ite ?_ ?_
    | with_reducible first | refine State.complete_held (hk := ?_) .. | refine State.extendSlot_held (hk := ?_) .. | refine State.clearJob_held (hk := ?_) .. | refine State.scrub_held (hk := ?_) ..
    | dsimp only)

theorem State.forgetSlice_held {s₀ : State} (s : State)
    (hk : Held s₀ s) : Held s₀ (State.forgetSlice s) := by
  unfold State.forgetSlice
  repeat' (first
    | with_reducible assumption
    | with_reducible first | refine State.modDec_held (hk := ?_) .. | refine State.modCol_held (hk := ?_) .. | refine State.modPwr_held (hf := fun _ => Held.kept) (hk := ?_) ..
    | split
    | dsimp only)

theorem State.sliceInForce_held {s₀ : State} (s : State) (id : Nat) (o e : Coord)
    (hk : Held s₀ s) : Held s₀ (State.sliceInForce s id o e) := by
  unfold State.sliceInForce
  repeat' (first
    | with_reducible assumption
    | with_reducible first | refine State.modSlice_held (hk := ?_) .. | refine State.forgetSlice_held (hk := ?_) ..
    | with_reducible refine Held.ite ?_ ?_
    | split
    | dsimp only)

theorem execSliceSet_held {s₀ : State} (d : Desc) (s : State)
    (hk : Held s₀ s) : Answers (execSliceSet d s) (Held s₀) := by
  unfold execSliceSet
  repeat' (first
    | with_reducible assumption
    | with_reducible refine Answers.next ?_
    | with_reducible refine Answers.ite ?_ ?_
    | with_reducible first | refine State.modSlice_held (hk := ?_) .. | refine State.complete_held (hk := ?_) .. | refine State.forgetSlice_held (hk := ?_) .. | refine State.sliceInForce_held (hk := ?_) ..
    | split
    | dsimp only)

theorem State.cmdGone_held {s₀ : State} (s : State) (d : Desc)
    (hk : Held s₀ s) : Held s₀ (State.cmdGone s d) := by
  unfold State.cmdGone
  repeat' (first
    | with_reducible assumption
    | with_reducible first | refine State.modSeq_held (hk := ?_) .. | refine State.modHost_held (hk := ?_) .. | refine State.modDec_held (hk := ?_) .. | refine State.stepPosted_held (hk := ?_) .. | refine State.timeSettles_held (hk := ?_) ..
    | with_reducible refine Held.ite ?_ ?_
    | with_reducible refine Held.foldl (fun _ _ _ => ?_) ?_
    | split
    | dsimp only)

theorem State.finishRun_held {s₀ : State} (s : State) (d x : Desc) (detail : Nat)
    (hk : Held s₀ s) : Held s₀ (State.finishRun s d x detail) := by
  unfold State.finishRun
  repeat' (first
    | with_reducible assumption
    | with_reducible first | refine State.complete_held (hk := ?_) .. | refine State.cmdGone_held (hk := ?_) ..
    | dsimp only)

theorem State.stepFails_held {s₀ : State} (s : State) (x : Desc)
    (hk : Held s₀ s) : Held s₀ (State.stepFails s x) := by
  unfold State.stepFails
  repeat' (first
    | with_reducible assumption
    | with_reducible refine State.failWalk_held (hk := ?_) ..
    | with_reducible refine Held.ite ?_ ?_)

theorem State.runEnds_held {s₀ : State} (s : State) (d x : Desc) (detail : Nat)
    (hk : Held s₀ s) : Held s₀ (State.runEnds s d x detail) := by
  unfold State.runEnds
  repeat' (first
    | with_reducible assumption
    | with_reducible first | refine State.finishRun_held (hk := ?_) .. | refine State.stepFails_held (hk := ?_) ..
    | with_reducible refine Held.ite ?_ ?_)

theorem execRunStep_held {s₀ : State} (d : Desc) (s : State)
    (hk : Held s₀ s) : Answers (execRunStep d s) (Held s₀) := by
  unfold execRunStep
  repeat' (first
    | with_reducible assumption
    | with_reducible refine Answers.next ?_
    | with_reducible refine Answers.ite ?_ ?_
    | with_reducible refine State.runEnds_held (hk := ?_) ..
    | dsimp only)

theorem execRunLayers_held {s₀ : State} (d : Desc) (s : State)
    (hk : Held s₀ s) : Answers (execRunLayers d s) (Held s₀) := by
  unfold execRunLayers
  repeat' (first
    | with_reducible assumption
    | with_reducible refine Answers.next ?_
    | with_reducible refine Answers.ite ?_ ?_
    | with_reducible refine State.runEnds_held (hk := ?_) ..
    | dsimp only)

theorem State.stopCommand_held {s₀ : State} (s : State)
    (hk : Held s₀ s) : Held s₀ (State.stopCommand s) := by
  unfold State.stopCommand
  repeat' (first
    | with_reducible assumption
    | with_reducible first | refine State.cancelFills_held (hk := ?_) .. | refine State.endOn_held (hk := ?_) ..
    | with_reducible refine Held.ite ?_ ?_
    | with_reducible refine Held.foldl (fun _ _ _ => ?_) ?_
    | split)

theorem State.preempted_held {s₀ : State} (s : State) (point : Nat) (d : Desc)
    (hk : Held s₀ s) : Held s₀ (State.preempted s point d) := by
  unfold State.preempted
  repeat' (first
    | with_reducible assumption
    | with_reducible first | refine State.modHost_held (hk := ?_) .. | refine State.complete_held (hk := ?_) .. | refine State.cmdGone_held (hk := ?_) ..
    | with_reducible refine Held.ite ?_ ?_
    | split
    | dsimp only)

theorem State.takePreempt_held {s₀ : State} (s : State)
    (hk : Held s₀ s) : Held s₀ (State.takePreempt s) := by
  unfold State.takePreempt
  repeat' (first
    | with_reducible assumption
    | with_reducible first | refine State.modCol_held (hk := ?_) .. | refine State.log_held (hk := ?_) .. | refine State.complete_held (hk := ?_) .. | refine State.saveJob_held (hk := ?_) .. | refine State.stopCommand_held (hk := ?_) .. | refine State.preempted_held (hk := ?_) ..
    | with_reducible refine Held.foldl (fun _ _ _ => ?_) ?_
    | split
    | with_reducible refine Held.set_preempt_preempts (h := ?_) ..
    | dsimp only)

theorem execPreemptTakeEffect_held {s₀ : State} (ecc : List (Nat × EccResult)) (s : State)
    (hk : Held s₀ s) : Answers (execPreemptTakeEffect ecc s) (Held s₀) := by
  unfold execPreemptTakeEffect
  repeat' (first
    | with_reducible assumption
    | with_reducible refine Answers.next ?_
    | with_reducible refine Answers.ite ?_ ?_
    | with_reducible first | refine State.eccAll_held (hk := ?_) .. | refine State.takePreempt_held (hk := ?_) ..
    | dsimp only)

theorem State.restoreQueues_held {s₀ : State} (s : State) (c : Nat) (saved : Tab Queue)
    (hk : Held s₀ s) : Held s₀ (State.restoreQueues s c saved) := by
  unfold State.restoreQueues
  repeat' (first
    | with_reducible assumption
    | with_reducible first | refine State.modCluster_held (hk := ?_) .. | refine State.release_held (hk := ?_) ..
    | with_reducible refine Held.foldl (fun _ _ _ => ?_) ?_
    | split
    | dsimp only)

theorem State.restoreJob_held {s₀ : State} (s : State) (x : SavedContext)
    (hk : Held s₀ s) : Held s₀ (State.restoreJob s x) := by
  unfold State.restoreJob
  repeat' (first
    | with_reducible assumption
    | with_reducible first | refine State.modClusters_held (hk := ?_) .. | refine State.restoreQueues_held (hk := ?_) ..
    | with_reducible refine Held.foldl (fun _ _ _ => ?_) ?_
    | split
    | with_reducible refine Held.set_saved_hwm_mem_settle_dec (h := ?_) ..
    | dsimp only)

theorem State.resume_held {s₀ : State} (s : State) (d : Desc) (x : SavedContext)
    (hk : Held s₀ s) : Held s₀ (State.resume s d x) := by
  unfold State.resume
  repeat' (first
    | with_reducible assumption
    | with_reducible first | refine State.modHost_held (hk := ?_) .. | refine State.wake_held (hk := ?_) .. | refine State.complete_held (hk := ?_) .. | refine State.reachPoint_held (hk := ?_) .. | refine State.restoreJob_held (hk := ?_) ..
    | with_reducible refine Held.ite ?_ ?_
    | with_reducible refine Held.foldl (fun _ _ _ => ?_) ?_
    | split
    | dsimp only)

theorem State.resumeEnds_held {s₀ : State} (s : State) (d x : Desc)
    (hk : Held s₀ s) : Held s₀ (State.resumeEnds s d x) := by
  unfold State.resumeEnds
  repeat' (first
    | with_reducible assumption
    | with_reducible first | refine State.modHost_held (hk := ?_) .. | refine State.cmdGone_held (hk := ?_) .. | refine State.runEnds_held (hk := ?_) ..
    | with_reducible refine Held.ite ?_ ?_
    | with_reducible refine Held.foldl (fun _ _ _ => ?_) ?_
    | split
    | dsimp only)

theorem execResume_held {s₀ : State} (d : Desc) (ecc : List (Nat × EccResult)) (s : State)
    (hk : Held s₀ s) : Answers (execResume d ecc s) (Held s₀) := by
  unfold execResume
  repeat' (first
    | with_reducible assumption
    | with_reducible refine Answers.next ?_
    | with_reducible refine Answers.ite ?_ ?_
    | with_reducible first | refine State.complete_held (hk := ?_) .. | refine State.eccAll_held (hk := ?_) .. | refine State.resume_held (hk := ?_) .. | refine State.resumeEnds_held (hk := ?_) ..
    | split
    | dsimp only)

theorem execReconcileFence_held {s₀ : State} (d : Desc) (s : State)
    (hk : Held s₀ s) : Answers (execReconcileFence d s) (Held s₀) := by
  unfold execReconcileFence
  repeat' (first
    | with_reducible assumption
    | with_reducible refine Answers.next ?_
    | with_reducible refine Answers.ite ?_ ?_
    | with_reducible first | refine State.modUnit_held (hk := ?_) .. | refine State.complete_held (hk := ?_) .. | refine State.fenceDone_held (hk := ?_) .. | refine State.loseChannel_held (hk := ?_) ..
    | with_reducible refine Held.ite ?_ ?_
    | split
    | dsimp only)

theorem State.dmaToHost_held {s₀ : State} (s : State) (d : Desc) (bs : List Byte) (ps : List Bool)
    (hk : Held s₀ s) : Held s₀ (State.dmaToHost s d bs ps) := by
  unfold State.dmaToHost
  repeat' (first
    | with_reducible assumption
    | with_reducible first | refine State.emit_held (hk := ?_) .. | refine State.complete_held (hk := ?_) .. | refine State.hostPoison_held (hk := ?_) ..
    | with_reducible refine Held.ite ?_ ?_
    | with_reducible refine Held.foldl (fun _ _ _ => ?_) ?_
    | split
    | dsimp only)

theorem State.dmaSend_held {s₀ : State} (s : State) (arr0 : List Packet) (arr1 : Nat)
    (hk : Held s₀ s) : Held s₀ (s.dmaSend arr0 arr1).2.2 := by
  induction arr0 generalizing s arr1 with
  | nil => exact hk
  | cons p ps ih =>
    unfold State.dmaSend
    split
    · exact ih _ _ (Held.pair (by assumption) (State.inject_held _ _ hk))
    · exact Held.pair (by assumption) (State.inject_held _ _ hk)

theorem State.dmaToRemote_held {s₀ : State} (s : State) (d : Desc) (bs : List Byte) (ps : List Bool)
    (hk : Held s₀ s) : Held s₀ (State.dmaToRemote s d bs ps) := by
  unfold State.dmaToRemote
  repeat' (first
    | with_reducible assumption
    | with_reducible first | refine State.modHost_held (hk := ?_) .. | refine State.complete_held (hk := ?_) .. | refine State.dmasDone_held (hk := ?_) .. | refine State.remoteWrite_held (hk := ?_) .. | refine State.dmaSend_held (hk := ?_) ..
    | with_reducible refine Held.ite ?_ ?_
    | with_reducible refine Held.foldl (fun _ _ _ => ?_) ?_
    | with_reducible refine Held.triple (by assumption) ?_
    | split
    | dsimp only)

theorem State.dmaReads_held {s₀ : State} (s : State) (d : Desc) (arr0 : List (Nat × Nat))
    (hk : Held s₀ s) : Held s₀ (s.dmaReads d arr0) := by
  induction arr0 generalizing s with
  | nil => exact hk
  | cons x xs ih =>
    unfold State.dmaReads
    have h := State.sendRead_held s (dmaSrcCoord d) (dmaSrc d + x.1) { handle := 0, bytes := x.2, deadline := 0, dest := 2, unit := d.num, addr := dmaDst d + x.1 } hk
    split
    · exact ih _ (Held.pair (by assumption) h)
    · exact State.dmaEnd_held _ _ _ (Held.pair (by assumption) h)

theorem State.dmaFromRemote_held {s₀ : State} (s : State) (d : Desc)
    (hk : Held s₀ s) : Held s₀ (State.dmaFromRemote s d) := by
  unfold State.dmaFromRemote
  repeat' (first
    | with_reducible assumption
    | with_reducible first | refine State.modHost_held (hk := ?_) .. | refine State.copyMem_held (hk := ?_) .. | refine State.log_held (hk := ?_) .. | refine State.complete_held (hk := ?_) .. | refine State.dmaReads_held (hk := ?_) ..
    | with_reducible refine Held.ite ?_ ?_
    | split
    | dsimp only)

theorem execDmaCopy_held {s₀ : State} (d : Desc) (data : List Byte) (poison : List Nat) (ecc : List (Nat × EccResult)) (s : State)
    (hk : Held s₀ s) : Answers (execDmaCopy d data poison ecc s) (Held s₀) := by
  unfold execDmaCopy
  repeat' (first
    | with_reducible assumption
    | with_reducible refine Answers.next ?_
    | with_reducible refine Answers.ite ?_ ?_
    | with_reducible first | refine State.writeMem_held (hk := ?_) .. | refine State.complete_held (hk := ?_) .. | refine State.eccAll_held (hk := ?_) .. | refine State.dmaToHost_held (hk := ?_) .. | refine State.dmaToRemote_held (hk := ?_) .. | refine State.dmaFromRemote_held (hk := ?_) ..
    | split
    | dsimp only)

theorem execSettleConfigJob_held {s₀ : State} (d : Desc) (data : List Byte) (ecc : List (Nat × EccResult)) (s : State)
    (hk : Held s₀ s) : Answers (execSettleConfigJob d data ecc s) (Held s₀) := by
  unfold execSettleConfigJob
  repeat' (first
    | with_reducible assumption
    | with_reducible refine Answers.next ?_
    | with_reducible refine Answers.ite ?_ ?_
    | with_reducible first | refine State.complete_held (hk := ?_) .. | refine State.eccAll_held (hk := ?_) .. | refine State.cfgEnds_held (hk := ?_) .. | refine State.loadSettings_held (hk := ?_) ..
    | split
    | dsimp only)

theorem State.loadRow_held {s₀ : State} (s : State) (x : Nat × Row)
    (hk : Held s₀ s) : Held s₀ (State.loadRow s x) := by
  unfold State.loadRow
  repeat' (first
    | with_reducible assumption
    | with_reducible first | refine State.modSet_held (hk := ?_) .. | refine State.writeMem_held (hk := ?_) ..
    | with_reducible refine Held.ite ?_ ?_
    | split
    | dsimp only)

theorem execSettleConfigRows_held {s₀ : State} (d : Desc) (data : List Byte) (ecc : List (Nat × EccResult)) (s : State)
    (hk : Held s₀ s) : Answers (execSettleConfigRows d data ecc s) (Held s₀) := by
  unfold execSettleConfigRows
  repeat' (first
    | with_reducible assumption
    | with_reducible refine Answers.next ?_
    | with_reducible refine Answers.ite ?_ ?_
    | with_reducible first | refine State.complete_held (hk := ?_) .. | refine State.eccAll_held (hk := ?_) .. | refine State.cfgEnds_held (hk := ?_) .. | refine State.loadRow_held (hk := ?_) ..
    | with_reducible refine Held.foldl (fun _ _ _ => ?_) ?_
    | split
    | dsimp only)

theorem execSettleConfigInvalidate_held {s₀ : State} (d : Desc) (s : State)
    (hk : Held s₀ s) : Answers (execSettleConfigInvalidate d s) (Held s₀) := by
  unfold execSettleConfigInvalidate
  repeat' (first
    | with_reducible assumption
    | with_reducible refine Answers.next ?_
    | with_reducible refine Answers.ite ?_ ?_
    | with_reducible first | refine State.complete_held (hk := ?_) .. | refine State.cfgEnds_held (hk := ?_) .. | refine State.invalidate_held (hk := ?_) ..
    | with_reducible refine Held.foldl (fun _ _ _ => ?_) ?_
    | split
    | dsimp only)

theorem State.refreshBlock_held {s₀ : State} (s : State) (r : Row) (i : Nat)
    (hk : Held s₀ s) : Held s₀ (State.refreshBlock s r i) := by
  unfold State.refreshBlock
  repeat' (first
    | with_reducible assumption
    | with_reducible refine State.writeWc_held (hk := ?_) ..
    | split
    | dsimp only)

theorem execSettleConfigRefresh_held {s₀ : State} (d : Desc) (ecc : List (Nat × EccResult)) (s : State)
    (hk : Held s₀ s) : Answers (execSettleConfigRefresh d ecc s) (Held s₀) := by
  unfold execSettleConfigRefresh
  repeat' (first
    | with_reducible assumption
    | with_reducible refine Answers.next ?_
    | with_reducible refine Answers.ite ?_ ?_
    | with_reducible first | refine State.complete_held (hk := ?_) .. | refine State.eccAll_held (hk := ?_) .. | refine State.refreshBlock_held (hk := ?_) .. | refine State.cfgEnds_held (hk := ?_) ..
    | with_reducible refine Held.foldl (fun _ _ _ => ?_) ?_
    | split
    | dsimp only)

theorem execCollectivePlan_held {s₀ : State} (d : Desc) (data : List Byte) (ecc : List (Nat × EccResult)) (s : State)
    (hk : Held s₀ s) : Answers (execCollectivePlan d data ecc s) (Held s₀) := by
  unfold execCollectivePlan
  repeat' (first
    | with_reducible assumption
    | with_reducible refine Answers.next ?_
    | with_reducible refine Answers.ite ?_ ?_
    | with_reducible first | refine State.modCol_held (hk := ?_) .. | refine State.complete_held (hk := ?_) .. | refine State.eccAll_held (hk := ?_) ..
    | split
    | dsimp only)

theorem State.querySend_held {s₀ : State} (s : State) (d : Desc) (dest : Coord)
    (hk : Held s₀ s) : Held s₀ (State.querySend s d dest) := by
  unfold State.querySend
  repeat' (first
    | with_reducible assumption
    | with_reducible first | refine State.modRtr_held (hk := ?_) .. | refine State.inject_held (hk := ?_) .. | refine State.complete_held (hk := ?_) ..
    | with_reducible refine Held.pair (by assumption) ?_
    | split
    | dsimp only)

theorem execQuery_held {s₀ : State} (d : Desc) (s : State)
    (hk : Held s₀ s) : Answers (execQuery d s) (Held s₀) := by
  unfold execQuery
  repeat' (first
    | with_reducible assumption
    | with_reducible refine Answers.next ?_
    | with_reducible refine Answers.ite ?_ ?_
    | with_reducible first | refine State.complete_held (hk := ?_) .. | refine State.queryRecord_held (hk := ?_) .. | refine State.queryWrite_held (hk := ?_) .. | refine State.querySend_held (hk := ?_) ..
    | split
    | dsimp only)

theorem execProxyRequest_held {s₀ : State} (p : Packet) (s : State)
    (hk : Held s₀ s) : Answers (execProxyRequest p s) (Held s₀) := by
  unfold execProxyRequest
  repeat' (first
    | with_reducible assumption
    | with_reducible refine Answers.next ?_
    | with_reducible refine Answers.ite ?_ ?_
    | with_reducible first | refine State.inject_held (hk := ?_) .. | refine State.consumed_held (hk := ?_) .. | refine State.queryRecord_held (hk := ?_) ..
    | split
    | dsimp only)

theorem execLedgerCounters_held {s₀ : State} (fails : Nat) (s : State)
    (hk : Held s₀ s) : Answers (execLedgerCounters fails s) (Held s₀) := by
  unfold execLedgerCounters
  repeat' (first
    | with_reducible assumption
    | with_reducible refine Answers.next ?_
    | with_reducible refine Answers.ite ?_ ?_
    | with_reducible first | refine State.ledgerAppend_held (hk := ?_) .. | refine State.reachLife_held (hk := ?_) ..
    | dsimp only)

theorem execLedgerDaily_held {s₀ : State} (fails : Nat) (s : State)
    (hk : Held s₀ s) : Answers (execLedgerDaily fails s) (Held s₀) := by
  unfold execLedgerDaily
  repeat' (first
    | with_reducible assumption
    | with_reducible refine Answers.next ?_
    | with_reducible refine Answers.ite ?_ ?_
    | with_reducible first | refine State.ledgerAppend_held (hk := ?_) .. | refine State.reachLife_held (hk := ?_) ..
    | with_reducible refine Held.set_tel (h := ?_) ..
    | dsimp only)

theorem State.setPermission_held {s₀ : State} (s : State) (u : UnitName) (p : Perm) (hold : Bool)
    (hk : Held s₀ s) : Held s₀ (State.setPermission s u p hold).2 := by
  unfold State.setPermission
  repeat' (first
    | with_reducible assumption
    | with_reducible first | refine State.modUnit_held (hk := ?_) .. | refine State.log_held (hk := ?_) .. | refine State.loseChannel_held (hk := ?_) ..
    | with_reducible refine Held.ite ?_ ?_
    | split
    | dsimp only)

theorem execSetPermission_held {s₀ : State} (b waiting : Nat) (body : List Byte) (s : State)
    (hk : Held s₀ s) : Answers (execSetPermission b waiting body s) (Held s₀) := by
  unfold execSetPermission
  repeat' (first
    | with_reducible assumption
    | with_reducible first | refine State.vendor_held (hk := ?_) (hf := ?_) .. | refine State.setPermission_held (hk := ?_) ..
    | intro _ _
    | split
    | dsimp only)

theorem execSetPowerLimit_held {s₀ : State} (b waiting : Nat) (body : List Byte) (s : State)
    (hk : Held s₀ s) : Answers (execSetPowerLimit b waiting body s) (Held s₀) := by
  unfold execSetPowerLimit
  repeat' (first
    | with_reducible assumption
    | with_reducible first | refine State.modPwr_held (hf := fun _ => Held.kept) (hk := ?_) .. | refine State.log_held (hk := ?_) .. | refine State.vendor_held (hk := ?_) (hf := ?_) ..
    | intro _ _
    | split
    | dsimp only)

theorem State.planSet_held {s₀ : State} (s : State) (p : List Byte)
    (hk : Held s₀ s) : Held s₀ (State.planSet s p) := by
  unfold State.planSet
  repeat' (first
    | with_reducible assumption
    | with_reducible first | refine State.modDev_held (hf := fun _ => Held.kept) (hk := ?_) .. | refine State.ledgerAppend_held (hk := ?_) .. | refine State.placeTime_held (hk := ?_) .. | refine State.reidentifyAll_held (hk := ?_) .. | refine State.setSlot_held (hk := ?_) ..
    | split
    | dsimp only)

theorem execPlanWrite_held {s₀ : State} (b waiting : Nat) (body : List Byte) (s : State)
    (hk : Held s₀ s) : Answers (execPlanWrite b waiting body s) (Held s₀) := by
  unfold execPlanWrite
  repeat' (first
    | with_reducible assumption
    | with_reducible first | refine State.vendor_held (hk := ?_) (hf := ?_) .. | refine State.planSet_held (hk := ?_) ..
    | intro _ _
    | split
    | dsimp only)

theorem State.leavePorts_held {s₀ : State} (s : State)
    (hk : Held s₀ s) : Held s₀ (State.leavePorts s) := by
  unfold State.leavePorts
  repeat' (first
    | with_reducible assumption
    | with_reducible first | refine State.modDisc_held (hk := ?_) .. | refine State.leftActive_held (hk := ?_) ..
    | with_reducible refine Held.foldl (fun _ _ _ => ?_) ?_
    | split
    | dsimp only)

theorem State.planLeave_held {s₀ : State} (s : State)
    (hk : Held s₀ s) : Held s₀ (State.planLeave s) := by
  unfold State.planLeave
  repeat' (first
    | with_reducible assumption
    | with_reducible first | refine State.modDev_held (hf := fun _ => Held.kept) (hk := ?_) .. | refine State.ledgerAppend_held (hk := ?_) .. | refine State.placeTime_held (hk := ?_) .. | refine State.leavePorts_held (hk := ?_) .. | refine State.reidentifyAll_held (hk := ?_) .. | refine State.setSlot_held (hk := ?_) ..
    | split
    | dsimp only)

theorem execPlanRetire_held {s₀ : State} (b waiting : Nat) (body : List Byte) (s : State)
    (hk : Held s₀ s) : Answers (execPlanRetire b waiting body s) (Held s₀) := by
  unfold execPlanRetire
  repeat' (first
    | with_reducible assumption
    | with_reducible first | refine State.vendor_held (hk := ?_) (hf := ?_) .. | refine State.planLeave_held (hk := ?_) ..
    | intro _ _
    | split
    | dsimp only)

theorem execRegRead_held {s₀ : State} (b waiting : Nat) (body : List Byte) (s : State)
    (hk : Held s₀ s) : Answers (execRegRead b waiting body s) (Held s₀) := by
  unfold execRegRead
  repeat' (first
    | with_reducible assumption
    | with_reducible first | refine State.readReg_held (hk := ?_) .. | refine State.vendor_held (hk := ?_) (hf := ?_) ..
    | intro _ _
    | split
    | dsimp only)

theorem execVerifyComplete_held {s₀ : State} (b waiting : Nat) (image : FwCopy) (s : State)
    (hk : Held s₀ s) : Answers (execVerifyComplete b waiting image s) (Held s₀) := by
  unfold execVerifyComplete
  repeat' (first
    | with_reducible assumption
    | with_reducible refine Answers.next ?_
    | with_reducible first | refine State.modMgmt_held (hk := ?_) .. | refine State.emit_held (hk := ?_) .. | refine State.log_held (hk := ?_) .. | refine State.updateRequest_held (hk := ?_) (hf := ?_) ..
    | with_reducible refine Held.ite ?_ ?_
    | intro _ _
    | split
    | with_reducible refine Held.set_flash (h := ?_) ..
    | dsimp only)

theorem State.activate_held {s₀ : State} (s : State) (cls : Nat)
    (hk : Held s₀ s) : Held s₀ (State.activate s cls) := by
  unfold State.activate
  repeat' (first
    | with_reducible assumption
    | with_reducible first | refine State.modMgmt_held (hk := ?_) .. | refine State.ledgerAppend_held (hk := ?_) .. | refine State.log_held (hk := ?_) .. | refine State.setSlot_held (hk := ?_) ..
    | with_reducible refine Held.ite ?_ ?_
    | split
    | with_reducible refine Held.set_flash (h := ?_) ..
    | dsimp only)

theorem execActivateFirmware_held {s₀ : State} (b waiting : Nat) (s : State)
    (hk : Held s₀ s) : Answers (execActivateFirmware b waiting s) (Held s₀) := by
  unfold execActivateFirmware
  repeat' (first
    | with_reducible assumption
    | with_reducible refine Answers.next ?_
    | with_reducible first | refine State.modMgmt_held (hk := ?_) .. | refine State.emit_held (hk := ?_) .. | refine State.updateRequest_held (hk := ?_) (hf := ?_) .. | refine State.activate_held (hk := ?_) ..
    | with_reducible refine Held.foldl (fun _ _ _ => ?_) ?_
    | intro _ _
    | split
    | dsimp only)

theorem State.blockIdentity_held {s₀ : State} (s : State)
    (hk : Held s₀ s) : Held s₀ (State.blockIdentity s) := by
  unfold State.blockIdentity
  repeat' (first
    | with_reducible assumption
    | with_reducible first | refine State.modSec_held (hf := fun _ => Held.kept) (hk := ?_) .. | refine State.log_held (hk := ?_) ..
    | with_reducible refine Held.ite ?_ ?_
    | split
    | dsimp only)

theorem State.takeLeaf_held {s₀ : State} (s : State)
    (hk : Held s₀ s) : Held s₀ (State.takeLeaf s).2 := by
  unfold State.takeLeaf
  repeat' (first
    | with_reducible assumption
    | with_reducible first | refine State.modSec_held (hf := fun _ => Held.kept) (hk := ?_) .. | refine State.ledgerAppend_held (hk := ?_) .. | refine State.blockIdentity_held (hk := ?_) ..
    | with_reducible refine Held.ite ?_ ?_
    | with_reducible refine Held.ite2 ?_ ?_
    | split
    | dsimp only)

theorem State.attest_held {s₀ : State} (s : State) (b : Nat) (body : List Byte)
    (hk : Held s₀ s) : Held s₀ (State.attest s b body) := by
  unfold State.attest
  repeat' (first
    | with_reducible assumption
    | with_reducible first | refine State.respond_held (hk := ?_) .. | refine State.takeLeaf_held (hk := ?_) ..
    | with_reducible refine Held.pair (by assumption) ?_
    | split
    | dsimp only)

theorem execAttestGet_held {s₀ : State} (b waiting : Nat) (body : List Byte) (s : State)
    (hk : Held s₀ s) : Answers (execAttestGet b waiting body s) (Held s₀) := by
  unfold execAttestGet
  repeat' (first
    | with_reducible assumption
    | with_reducible refine Answers.next ?_
    | with_reducible first | refine State.modSec_held (hf := fun _ => Held.kept) (hk := ?_) .. | refine State.request_held (hk := ?_) (hf := ?_) .. | refine State.respond_held (hk := ?_) .. | refine State.attest_held (hk := ?_) ..
    | with_reducible refine Held.ite ?_ ?_
    | intro _ _
    | split
    | dsimp only)

theorem execTreeBuildDone_held {s₀ : State} (s : State)
    (hk : Held s₀ s) : Answers (execTreeBuildDone s) (Held s₀) := by
  unfold execTreeBuildDone
  repeat' (first
    | with_reducible assumption
    | with_reducible refine Answers.next ?_
    | with_reducible first | refine State.modSec_held (hf := fun _ => Held.kept) (hk := ?_) .. | refine State.attest_held (hk := ?_) ..
    | with_reducible refine Held.foldl (fun _ _ _ => ?_) ?_
    | split
    | dsimp only)

theorem execChallenge_held {s₀ : State} (b waiting : Nat) (s : State)
    (hk : Held s₀ s) : Answers (execChallenge b waiting s) (Held s₀) := by
  unfold execChallenge
  repeat' (first
    | with_reducible assumption
    | with_reducible refine Answers.next ?_
    | with_reducible first | refine State.modSec_held (hf := fun _ => Held.kept) (hk := ?_) .. | refine State.fresh_held (hk := ?_) .. | refine State.request_held (hk := ?_) (hf := ?_) .. | refine State.respond_held (hk := ?_) ..
    | intro _ _
    | split
    | dsimp only)

theorem State.grant_held {s₀ : State} (s : State) (t : List Byte)
    (hk : Held s₀ s) : Held s₀ (State.grant s t) := by
  unfold State.grant
  repeat' (first
    | with_reducible assumption
    | with_reducible first | refine State.modSec_held (hf := fun _ => Held.kept) (hk := ?_) .. | refine State.log_held (hk := ?_) .. | refine State.extendSlot_held (hk := ?_) ..
    | with_reducible refine Held.ite ?_ ?_
    | split
    | dsimp only)

theorem execPresent_held {s₀ : State} (b waiting : Nat) (token key sig : List Byte) (s : State)
    (hk : Held s₀ s) : Answers (execPresent b waiting token key sig s) (Held s₀) := by
  unfold execPresent
  repeat' (first
    | with_reducible assumption
    | with_reducible refine Answers.next ?_
    | with_reducible first | refine State.modSec_held (hf := fun _ => Held.kept) (hk := ?_) .. | refine State.log_held (hk := ?_) .. | refine State.request_held (hk := ?_) (hf := ?_) .. | refine State.respond_held (hk := ?_) .. | refine State.grant_held (hk := ?_) ..
    | with_reducible refine Held.ite ?_ ?_
    | intro _ _
    | split
    | dsimp only)

theorem execRelinquish_held {s₀ : State} (b waiting : Nat) (s : State)
    (hk : Held s₀ s) : Answers (execRelinquish b waiting s) (Held s₀) := by
  unfold execRelinquish
  repeat' (first
    | with_reducible assumption
    | with_reducible refine Answers.next ?_
    | with_reducible first | refine State.endRights_held (hk := ?_) .. | refine State.request_held (hk := ?_) (hf := ?_) .. | refine State.respond_held (hk := ?_) ..
    | intro _ _
    | split
    | dsimp only)

theorem execNonceExpiry_held {s₀ : State} (s : State)
    (hk : Held s₀ s) : Answers (execNonceExpiry s) (Held s₀) := by
  unfold execNonceExpiry
  repeat' (first
    | with_reducible assumption
    | with_reducible refine Answers.next ?_
    | with_reducible first | refine State.modSec_held (hf := fun _ => Held.kept) (hk := ?_) .. | refine State.reach_held (hk := ?_) ..
    | split
    | dsimp only)

theorem execRightExpiry_held {s₀ : State} (maintenance : Bool) (s : State)
    (hk : Held s₀ s) : Answers (execRightExpiry maintenance s) (Held s₀) := by
  unfold execRightExpiry
  repeat' (first
    | with_reducible assumption
    | with_reducible refine Answers.next ?_
    | with_reducible refine Answers.ite ?_ ?_
    | with_reducible first | refine State.modSec_held (hf := fun _ => Held.kept) (hk := ?_) .. | refine State.reach_held (hk := ?_) .. | refine State.leaveMaintenance_held (hk := ?_) ..
    | split
    | dsimp only)

theorem State.railsDone_held {s₀ : State} (s : State)
    (hk : Held s₀ s) : Held s₀ (State.railsDone s) := by
  unfold State.railsDone
  repeat' (first
    | with_reducible assumption
    | with_reducible first | refine State.modDev_held (hf := fun _ => Held.kept) (hk := ?_) .. | refine State.pcieCheck_held (hk := ?_) ..
    | split)

theorem execRailPowerGood_held {s₀ : State} (r : Nat) (s : State)
    (hk : Held s₀ s) : Answers (execRailPowerGood r s) (Held s₀) := by
  unfold execRailPowerGood
  repeat' (first
    | with_reducible assumption
    | with_reducible refine Answers.next ?_
    | with_reducible refine Answers.ite ?_ ?_
    | with_reducible first | refine State.modClock_held (hk := ?_) .. | refine State.enableRail_held (hk := ?_) .. | refine State.railsDone_held (hk := ?_) ..
    | with_reducible refine Held.ite ?_ ?_
    | split
    | with_reducible refine Held.set_rails (h := ?_) ..
    | dsimp only)

theorem execRailEnableTimeout_held {s₀ : State} (r : Nat) (s : State)
    (hk : Held s₀ s) : Answers (execRailEnableTimeout r s) (Held s₀) := by
  unfold execRailEnableTimeout
  repeat' (first
    | with_reducible assumption
    | with_reducible refine Answers.next ?_
    | with_reducible refine Answers.ite ?_ ?_
    | with_reducible first | refine State.modDev_held (hf := fun _ => Held.kept) (hk := ?_) .. | refine State.log_held (hk := ?_) ..
    | split
    | dsimp only)

theorem execRefclkCheck_held {s₀ : State} (ref : Nat) (present : Bool) (s : State)
    (hk : Held s₀ s) : Answers (execRefclkCheck ref present s) (Held s₀) := by
  unfold execRefclkCheck
  repeat' (first
    | with_reducible assumption
    | with_reducible refine Answers.next ?_
    | with_reducible refine Answers.ite ?_ ?_
    | with_reducible first | refine State.modDev_held (hf := fun _ => Held.kept) (hk := ?_) .. | refine State.enableRail_held (hk := ?_) .. | refine State.pcieCheck_held (hk := ?_) ..
    | with_reducible refine Held.ite ?_ ?_
    | split
    | dsimp only)

theorem execPllLock_held {s₀ : State} (s : State)
    (hk : Held s₀ s) : Answers (execPllLock s) (Held s₀) := by
  unfold execPllLock
  repeat' (first
    | with_reducible assumption
    | with_reducible refine Answers.next ?_
    | with_reducible refine Answers.ite ?_ ?_
    | with_reducible first | refine State.modClusters_held (hk := ?_) .. | refine State.modDev_held (hf := fun _ => Held.kept) (hk := ?_) ..
    | split
    | with_reducible refine Held.set_mem (h := ?_) ..
    | dsimp only)

theorem State.judgeModule_held {s₀ : State} (s : State) (ref : Option Module) (n : Nat) (m : Module)
    (hk : Held s₀ s) : Held s₀ (State.judgeModule s ref n m) := by
  unfold State.judgeModule
  repeat' (first
    | with_reducible assumption
    | with_reducible refine State.log_held (hk := ?_) ..
    | with_reducible refine Held.ite ?_ ?_
    | split)

theorem State.fixDram_held {s₀ : State} (s : State) (xs : List (Nat × Module))
    (hk : Held s₀ s) : Held s₀ (State.fixDram s xs) := by
  unfold State.fixDram
  repeat' (first
    | with_reducible assumption
    | with_reducible first | refine State.modChannel_held (hk := ?_) .. | refine State.log_held (hk := ?_) .. | refine State.judgeModule_held (hk := ?_) ..
    | with_reducible refine Held.ite ?_ ?_
    | with_reducible refine Held.foldl (fun _ _ _ => ?_) ?_
    | split
    | with_reducible refine Held.set_dram (hd := Held.kept) (h := ?_) ..
    | dsimp only)

theorem execDramTrainingDone_held {s₀ : State} (xs : List (Nat × Module)) (s : State)
    (hk : Held s₀ s) : Answers (execDramTrainingDone xs s) (Held s₀) := by
  unfold execDramTrainingDone
  repeat' (first
    | with_reducible assumption
    | with_reducible refine Answers.next ?_
    | with_reducible refine Answers.ite ?_ ?_
    | with_reducible first | refine State.modDev_held (hf := fun _ => Held.kept) (hk := ?_) .. | refine State.log_held (hk := ?_) .. | refine State.fixDram_held (hk := ?_) ..
    | with_reducible refine Held.ite ?_ ?_
    | split
    | dsimp only)

theorem execDramZeroDone_held {s₀ : State} (s : State)
    (hk : Held s₀ s) : Answers (execDramZeroDone s) (Held s₀) := by
  unfold execDramZeroDone
  repeat' (first
    | with_reducible assumption
    | with_reducible refine Answers.next ?_
    | with_reducible refine Answers.ite ?_ ?_
    | with_reducible refine State.modDev_held (hf := fun _ => Held.kept) (hk := ?_) ..
    | split
    | with_reducible refine Held.set_mem (h := ?_) ..
    | dsimp only)

theorem execDeviceReady_held {s₀ : State} (s : State) (hk : Held s₀ s) : Answers (execDeviceReady s) (Held s₀) := by
  unfold execDeviceReady
  extract_lets s₁ ms d s₂ s₃ s₄
  have h₃ : Held s₀ s₃ := State.modPwr_held (hf := fun _ => Held.kept) (hk := State.modClusters_held (hk :=
    State.modDev_held (hf := fun _ => Held.kept) (hk := State.reach_held (hk := hk) ..) ..) ..) ..
  have h₄ : Held s₀ s₄ := State.log_held (hk := State.modPwr_held (hf := fun _ => Bool.le_true _) (hk := h₃) ..) ..
  exact .ite (.next (State.resetEvent_held (hk := h₄) ..)) (.next hk)

theorem execRollbackFuseBlow_held {s₀ : State} (cls : Nat) (s : State)
    (hk : Held s₀ s) : Answers (execRollbackFuseBlow cls s) (Held s₀) := by
  unfold execRollbackFuseBlow
  repeat' (first
    | with_reducible assumption
    | with_reducible refine Answers.next ?_
    | with_reducible refine Answers.ite ?_ ?_
    | with_reducible refine State.log_held (hk := ?_) ..
    | with_reducible refine Held.ite ?_ ?_
    | with_reducible refine Held.set_fuses (h := ?_) ..
    | dsimp only)

theorem State.refMissing_held {s₀ : State} (s : State) (ref : Nat)
    (hk : Held s₀ s) : Held s₀ (State.refMissing s ref) := by
  unfold State.refMissing
  repeat' (first
    | with_reducible assumption
    | with_reducible first | refine State.modDev_held (hf := fun _ => Held.kept) (hk := ?_) .. | refine State.log_held (hk := ?_) ..
    | split)

theorem execPerstDeassert_held {s₀ : State} (pcieRef : Bool) (s : State)
    (hk : Held s₀ s) : Answers (execPerstDeassert pcieRef s) (Held s₀) := by
  unfold execPerstDeassert
  repeat' (first
    | with_reducible assumption
    | with_reducible refine Answers.next ?_
    | with_reducible refine Answers.ite ?_ ?_
    | with_reducible first | refine State.modDev_held (hf := fun _ => Held.kept) (hk := ?_) .. | refine State.refMissing_held (hk := ?_) .. | refine State.pcieCheck_held (hk := ?_) ..
    | split
    | dsimp only)

theorem State.flr_held {s₀ : State} (s : State)
    (hk : Held s₀ s) : Held s₀ (State.flr s) := by
  unfold State.flr
  repeat' (first
    | with_reducible assumption
    | with_reducible first | refine State.modClusters_held (hk := ?_) .. | refine State.modRtr_held (hk := ?_) .. | refine State.modDev_held (hf := fun _ => Held.kept) (hk := ?_) .. | refine State.freeKept_held (hk := ?_) .. | refine State.ownerReset_held (hk := ?_) .. | refine State.endWindow_held (hk := ?_) .. | refine State.flushCrossings_held (hk := ?_) .. | refine State.resetEvent_held (hk := ?_) .. | refine State.extendSlot_held (hk := ?_) .. | refine State.clearJob_held (hk := ?_) .. | refine State.scrub_held (hk := ?_) .. | refine State.unfault_held (hk := ?_) .. | refine State.clearCores_held (hk := ?_) .. | refine State.waitPass_held (hk := ?_) ..
    | with_reducible refine Held.foldl (fun _ _ _ => ?_) ?_
    | with_reducible refine Held.foldl2 (fun _ _ _ => ?_) ?_
    | split
    | with_reducible refine Held.set_units (h := ?_) ..
    | with_reducible refine Held.set_host_preempts (h := ?_) ..
    | dsimp only)

theorem execFunctionLevelReset_held {s₀ : State} (s : State)
    (hk : Held s₀ s) : Answers (execFunctionLevelReset s) (Held s₀) := by
  unfold execFunctionLevelReset
  repeat' (first
    | with_reducible assumption
    | with_reducible refine Answers.next ?_
    | with_reducible refine Answers.ite ?_ ?_
    | with_reducible refine State.flr_held (hk := ?_) ..
    | dsimp only)

theorem execFlrScrubDone_held {s₀ : State} (s : State)
    (hk : Held s₀ s) : Answers (execFlrScrubDone s) (Held s₀) := by
  unfold execFlrScrubDone
  repeat' (first
    | with_reducible assumption
    | with_reducible refine Answers.next ?_
    | with_reducible refine Answers.ite ?_ ?_
    | with_reducible refine State.modDev_held (hf := fun _ => Held.kept) (hk := ?_) ..
    | split
    | with_reducible refine Held.set_mem (h := ?_) ..
    | dsimp only)

theorem State.sliceResetHere_held {s₀ : State} (s : State)
    (hk : Held s₀ s) : Held s₀ (State.sliceResetHere s) := by
  unfold State.sliceResetHere
  repeat' (first
    | with_reducible assumption
    | with_reducible first | refine State.modSlice_held (hk := ?_) .. | refine State.sendNotice_held (hk := ?_) .. | refine State.sliceReset_held (hk := ?_) ..
    | with_reducible refine Held.ite ?_ ?_
    | split
    | dsimp only)

theorem execSliceReset_held {s₀ : State} (s : State)
    (hk : Held s₀ s) : Answers (execSliceReset s) (Held s₀) := by
  unfold execSliceReset
  repeat' (first
    | with_reducible assumption
    | with_reducible refine Answers.next ?_
    | with_reducible refine Answers.ite ?_ ?_
    | with_reducible refine State.sliceResetHere_held (hk := ?_) ..
    | dsimp only)

theorem execClusterReset_held {s₀ : State} (c : Nat) (s : State)
    (hk : Held s₀ s) : Answers (execClusterReset c s) (Held s₀) := by
  unfold execClusterReset
  repeat' (first
    | with_reducible assumption
    | with_reducible refine Answers.next ?_
    | with_reducible refine Answers.ite ?_ ?_
    | with_reducible refine State.clusterReset_held (hk := ?_) ..
    | dsimp only)

theorem execCoreReset_held {s₀ : State} (p : Nat) (s : State)
    (hk : Held s₀ s) : Answers (execCoreReset p s) (Held s₀) := by
  unfold execCoreReset
  repeat' (first
    | with_reducible assumption
    | with_reducible refine Answers.next ?_
    | with_reducible refine Answers.ite ?_ ?_
    | with_reducible refine State.coreReset_held (hk := ?_) ..
    | dsimp only)

theorem State.portReset_held {s₀ : State} (s : State) (n : Nat)
    (hk : Held s₀ s) : Held s₀ (State.portReset s n) := by
  unfold State.portReset
  repeat' (first
    | with_reducible assumption
    | with_reducible first | refine State.modLink_held (hk := ?_) .. | refine State.modDisc_held (hk := ?_) .. | refine State.modUnit_held (hk := ?_) .. | refine State.resetEvent_held (hk := ?_) .. | refine State.retrain_held (hk := ?_) ..
    | with_reducible refine Held.ite ?_ ?_
    | split
    | dsimp only)

theorem execPortReset_held {s₀ : State} (n : Nat) (s : State)
    (hk : Held s₀ s) : Answers (execPortReset n s) (Held s₀) := by
  unfold execPortReset
  repeat' (first
    | with_reducible assumption
    | with_reducible refine Answers.next ?_
    | with_reducible refine Answers.ite ?_ ?_
    | with_reducible refine State.portReset_held (hk := ?_) ..
    | dsimp only)

theorem State.enablePort_held {s₀ : State} (s : State) (p : Nat) (v : Bool)
    (hk : Held s₀ s) : Held s₀ (State.enablePort s p v) := by
  unfold State.enablePort
  repeat' (first
    | with_reducible assumption
    | with_reducible first | refine State.modLink_held (hk := ?_) .. | refine State.linkLeaves_held (hk := ?_) ..
    | with_reducible refine Held.ite ?_ ?_
    | split
    | dsimp only)

theorem State.writePort_held {s₀ : State} (s : State) (p n hit : Nat)
    (hk : Held s₀ s) : Held s₀ (State.writePort s p n hit) := by
  unfold State.writePort
  repeat' (first
    | with_reducible assumption
    | with_reducible first | refine State.modLink_held (hk := ?_) .. | refine State.retrain_held (hk := ?_) .. | refine State.enablePort_held (hk := ?_) .. | refine State.setForceKa_held (hk := ?_) ..
    | with_reducible refine Held.ite ?_ ?_
    | split
    | dsimp only)

theorem State.writePwrCtrl_held {s₀ : State} (s : State) (n : Nat)
    (hk : Held s₀ s) : Held s₀ (State.writePwrCtrl s n) := by
  unfold State.writePwrCtrl
  repeat' (first
    | with_reducible assumption
    | with_reducible refine State.modPwr_held (hf := fun _ => Held.kept) (hk := ?_) ..
    | split)

theorem State.writeTherm_held {s₀ : State} (s : State) (n hit : Nat) (hk : Held s₀ s) : Held s₀ (State.writeTherm s n hit) := by
  unfold State.writeTherm
  refine State.modPwr_held (hf := fun _ => Held.or_left _ _) (hk := ?_) ..
  exact .ite hk (State.modPwr_held (hf := fun _ => Held.kept) (hk := hk) ..)

theorem State.writeDdrCtrl_held {s₀ : State} (s : State) (n : Nat)
    (hk : Held s₀ s) : Held s₀ (State.writeDdrCtrl s n) := by
  unfold State.writeDdrCtrl
  repeat' (first
    | with_reducible assumption
    | with_reducible refine Held.ite ?_ ?_
    | with_reducible refine Held.set_dram (hd := Held.kept) (h := ?_) ..)

theorem State.writeErrStatus_held {s₀ : State} (s : State) (hit : Nat)
    (hk : Held s₀ s) : Held s₀ (State.writeErrStatus s hit) := by
  unfold State.writeErrStatus
  repeat' (first
    | with_reducible assumption
    | with_reducible refine State.modErr_held (hf := fun _ => ⟨Held.kept, Held.kept⟩) (hk := ?_) ..
    | split)

theorem State.writeErrCtrl_held {s₀ : State} (s : State) (n hit : Nat) (hk : Held s₀ s) : Held s₀ (State.writeErrCtrl s n hit) := by
  unfold State.writeErrCtrl
  refine State.modErr_held (hf := fun _ => ⟨Held.or_left _ _, Held.kept⟩) (hk := ?_) ..
  exact .ite hk (State.modErr_held (hf := fun _ => ⟨Held.kept, Held.kept⟩) (hk := hk) ..)

theorem State.measurePolicy_held {s₀ : State} (s : State)
    (hk : Held s₀ s) : Held s₀ (State.measurePolicy s) := by
  unfold State.measurePolicy
  repeat' (first
    | with_reducible assumption
    | with_reducible refine State.setSlot_held (hk := ?_) ..)

theorem State.writePolicy_held {s₀ : State} (s : State) (n hit : Nat) (hk : Held s₀ s) : Held s₀ (State.writePolicy s n hit) := by
  unfold State.writePolicy
  extract_lets s₁
  have h₁ : Held s₀ s₁ := State.modSec_held (hf := fun _ => Held.kept) (hk := hk) ..
  exact .ite hk (.ite (State.measurePolicy_held (hk := State.modSec_held (hf := fun _ => Bool.le_true _) (hk := h₁) ..) ..) h₁)

theorem State.seqStore_held {s₀ : State} (s : State) (c a n v : Nat)
    (hk : Held s₀ s) : Held s₀ (State.seqStore s c a n v) := by
  unfold State.seqStore
  repeat' (first
    | with_reducible assumption
    | with_reducible first | refine State.modCluster_held (hk := ?_) .. | refine State.modSeq_held (hk := ?_) .. | refine State.haltSeq_held (hk := ?_) .. | refine State.clearReport_held (hk := ?_) .. | refine State.writeHazMode_held (hk := ?_) ..
    | with_reducible refine Held.ite ?_ ?_
    | split
    | dsimp only)

/-! ### Register writes (R12, R580) -/

/-- Without its WARM bit a write of RESET_CTRL resets parts of the device only. -/
theorem State.writeResetCtrl_held {s₀ : State} (s : State) (hit : Nat) (hwarm : bit hit 0 = false) (hk : Held s₀ s) :
    Held s₀ (State.writeResetCtrl s hit) := by
  rw [State.writeResetCtrl, if_neg (Bool.eq_false_iff.1 hwarm)]
  refine .ite hk (.foldl (fun t p ht => State.portReset_held (hk := ht) ..) (.ite (State.coreReset_held (hk := ?_) ..) ?_)) <;>
    exact .foldl (fun t c ht => State.clusterReset_held (hk := ht) ..) (.ite (State.sliceResetHere_held (hk := hk) ..) hk)

theorem State.writeWord_held {s₀ : State} (s : State) (r : Reg) (w n hit : Nat) (hwarm : r = .resetCtrl → bit hit 0 = false)
    (hk : Held s₀ s) : Held s₀ (State.writeWord s r w n hit) := by
  unfold State.writeWord
  repeat' (first
    | with_reducible assumption
    | with_reducible first | refine State.modCluster_held (hk := ?_) .. | refine State.modPurse_held (hk := ?_) .. | refine State.modHost_held (hk := ?_) .. | refine State.modCol_held (hk := ?_) .. | refine State.modRtr_held (hk := ?_) .. | refine State.modPwr_held (hf := fun _ => Held.kept) (hk := ?_) .. | refine State.modSec_held (hf := fun _ => Held.kept) (hk := ?_) .. | refine State.modDev_held (hf := fun _ => Held.or_left _ _) (hk := ?_) .. | refine State.reidentify_held (hk := ?_) .. | refine State.setDrain_held (hk := ?_) .. | refine State.writeDetour_held (hk := ?_) .. | refine State.writeInjCtrl_held (hk := ?_) .. | refine State.writeInjAddr_held (hk := ?_) .. | refine State.writeRingCtrl_held (hk := ?_) .. | refine State.writeBase_held (hk := ?_) .. | refine State.writeWatch_held (hk := ?_) .. | refine State.writeMsixMod_held (hk := ?_) .. | refine State.writeMsixEntry_held (hk := ?_) .. | refine State.writeResetCtrl_held (hwarm := hwarm rfl) (hk := ?_) .. | refine State.writePort_held (hk := ?_) .. | refine State.writeGuardCtrl_held (hk := ?_) .. | refine State.writeSpikeParam_held (hk := ?_) .. | refine State.writePwrCtrl_held (hk := ?_) .. | refine State.writeTherm_held (hk := ?_) .. | refine State.writeClusterCtrl_held (hk := ?_) .. | refine State.clearReport_held (hk := ?_) .. | refine State.writeHazMode_held (hk := ?_) .. | refine State.debugWrite_held (hk := ?_) .. | refine State.writeDdrCtrl_held (hk := ?_) .. | refine State.writeErrStatus_held (hk := ?_) .. | refine State.writeErrCtrl_held (hk := ?_) .. | refine State.writePolicy_held (hk := ?_) ..
    | with_reducible refine Held.ite ?_ ?_
    | with_reducible refine Held.foldl (fun _ _ _ => ?_) ?_
    | split
    | with_reducible refine Held.set_dram (hd := Held.or_left _ _) (h := ?_) ..
    | dsimp only)

theorem State.writeReg_held {s₀ : State} (s : State) (off n v : Nat)
    (hwarm : resetsDevice (.registerWrite .host off n v) = false) (hk : Held s₀ s) : Held s₀ (State.writeReg s off n v) := by
  rw [State.writeReg]
  refine .ite hk ?_
  dsimp only
  cases hr : regAt (off - off % 8) with
  | none => exact hk
  | some x =>
    refine .ite (State.crosses_held (hk := hk) ..) (State.writeWord_held (hwarm := fun hreset => ?_) (hk := hk) ..)
    have hreg : regAt (off - off % 8) = some (.resetCtrl, x.2) := by rw [hr, ← hreset]
    rw [resetsDevice, hreg] at hwarm
    exact hwarm

theorem execRegisterWrite_held {s₀ : State} (by' : Accessor) (a n v : Nat) (s : State)
    (hwarm : resetsDevice (.registerWrite by' a n v) = false) (hk : Held s₀ s) : Answers (execRegisterWrite by' a n v s) (Held s₀) := by
  cases by' with
  | host => exact .next (State.writeReg_held (hwarm := hwarm) (hk := hk) ..)
  | seq c t w =>
    exact .next (State.onSeq_held (hf := fun u hu => State.seqStore_held (hk := hu) ..) (hk := hk) ..)

/-! ### Every command -/

/-- No command but a reset of the device takes a lock back. -/
theorem exec_held {c : Instr} (s : State) (h : resetsDevice c = false) : Answers (exec c s) (Held s) :=
  match c with
  | .coldReset .. => nomatch h
  | .railPowerGood .. => execRailPowerGood_held (hk := .refl s) ..
  | .railEnableTimeout .. => execRailEnableTimeout_held (hk := .refl s) ..
  | .pllLock => execPllLock_held (hk := .refl s) ..
  | .refclkCheck .. => execRefclkCheck_held (hk := .refl s) ..
  | .dramTrainingDone .. => execDramTrainingDone_held (hk := .refl s) ..
  | .dramZeroDone => execDramZeroDone_held (hk := .refl s) ..
  | .deviceReady => execDeviceReady_held (hk := .refl s) ..
  | .rollbackFuseBlow .. => execRollbackFuseBlow_held (hk := .refl s) ..
  | .perstDeassert .. => execPerstDeassert_held (hk := .refl s) ..
  | .warmReset .. => nomatch h
  | .functionLevelReset => execFunctionLevelReset_held (hk := .refl s) ..
  | .flrScrubDone => execFlrScrubDone_held (hk := .refl s) ..
  | .sliceReset => execSliceReset_held (hk := .refl s) ..
  | .clusterReset .. => execClusterReset_held (hk := .refl s) ..
  | .coreReset .. => execCoreReset_held (hk := .refl s) ..
  | .portReset .. => execPortReset_held (hk := .refl s) ..
  | .doorbellPoll .. => execDoorbellPoll_held (hk := .refl s) ..
  | .lnMessage .. => execLnMessage_held (hk := .refl s) ..
  | .descriptorFetch .. => execDescriptorFetch_held (hk := .refl s) ..
  | .dispatch .. => execDispatch_held (hk := .refl s) ..
  | .msixAgeExpiry .. => execMsixAgeExpiry_held (hk := .refl s) ..
  | .ringEnable .. => execRingEnable_held (hk := .refl s) ..
  | .ringReset .. => execRingReset_held (hk := .refl s) ..
  | .bar2Read .. => execBar2Read_held (hk := .refl s) ..
  | .bar2Write .. => execBar2Write_held (hk := .refl s) ..
  | .registerWrite .. => execRegisterWrite_held (hwarm := h) (hk := .refl s) ..
  | .jobLoad .. => execJobLoad_held (hk := .refl s) ..
  | .jobUnload .. => execJobUnload_held (hk := .refl s) ..
  | .sliceSet .. => execSliceSet_held (hk := .refl s) ..
  | .runStep .. => execRunStep_held (hk := .refl s) ..
  | .runLayers .. => execRunLayers_held (hk := .refl s) ..
  | .dmaCopy .. => execDmaCopy_held (hk := .refl s) ..
  | .settleConfigJob .. => execSettleConfigJob_held (hk := .refl s) ..
  | .settleConfigRows .. => execSettleConfigRows_held (hk := .refl s) ..
  | .settleConfigInvalidate .. => execSettleConfigInvalidate_held (hk := .refl s) ..
  | .settleConfigRefresh .. => execSettleConfigRefresh_held (hk := .refl s) ..
  | .collectivePlan .. => execCollectivePlan_held (hk := .refl s) ..
  | .fence .. => execFence_held (hk := .refl s) ..
  | .preempt .. => execPreempt_held (hk := .refl s) ..
  | .preemptTakeEffect .. => execPreemptTakeEffect_held (hk := .refl s) ..
  | .resume .. => execResume_held (hk := .refl s) ..
  | .reconcileAccept .. => execReconcileAccept_held (hk := .refl s) ..
  | .reconcileFence .. => execReconcileFence_held (hk := .refl s) ..
  | .reconcileEnable .. => execReconcileEnable_held (hk := .refl s) ..
  | .query .. => execQuery_held (hk := .refl s) ..
  | .statementReq .. => execStatementReq_held (hk := .refl s) ..
  | .proxyRequest .. => execProxyRequest_held (hk := .refl s) ..
  | .proxyResponse .. => execProxyResponse_held (hk := .refl s) ..
  | .lcbStore .. => execLcbStore_held (hk := .refl s) ..
  | .layerStart .. => execLayerStart_held (hk := .refl s) ..
  | .layerWait .. => execLayerWait_held (hk := .refl s) ..
  | .mxeIssue .. => execMxeIssue_held (hk := .refl s) ..
  | .finishedTileDrain .. => execFinishedTileDrain_held (hk := .refl s) ..
  | .tileOperation .. => execTileOperation_held (hk := .refl s) ..
  | .loadLand .. => execLoadLand_held (hk := .refl s) ..
  | .layerComplete .. => execLayerComplete_held (hk := .refl s) ..
  | .hwmClear .. => execHwmClear_held (hk := .refl s) ..
  | .seqTableWrite .. => execSeqTableWrite_held (hk := .refl s) ..
  | .seqTableCommit .. => execSeqTableCommit_held (hk := .refl s) ..
  | .lossRead .. => execLossRead_held (hk := .refl s) ..
  | .lossClear .. => execLossClear_held (hk := .refl s) ..
  | .timerWait .. => execTimerWait_held (hk := .refl s) ..
  | .timerExpiry .. => execTimerExpiry_held (hk := .refl s) ..
  | .seqCompletion .. => execSeqCompletion_held (hk := .refl s) ..
  | .programNote .. => execProgramNote_held (hk := .refl s) ..
  | .seqAddressFault .. => execSeqAddressFault_held (hk := .refl s) ..
  | .seqInstructionFault .. => execSeqInstructionFault_held (hk := .refl s) ..
  | .debugHalt .. => execDebugHalt_held (hk := .refl s) ..
  | .debugResume .. => execDebugResume_held (hk := .refl s) ..
  | .deposit .. => execDeposit_held (hk := .refl s) ..
  | .take .. => execTake_held (hk := .refl s) ..
  | .takeNArm .. => execTakeNArm_held (hk := .refl s) ..
  | .takeN .. => execTakeN_held (hk := .refl s) ..
  | .peek .. => execPeek_held (hk := .refl s) ..
  | .bell .. => execBell_held (hk := .refl s) ..
  | .remoteCoinGo .. => execRemoteCoinGo_held (hk := .refl s) ..
  | .coinPacket .. => execCoinPacket_held (hk := .refl s) ..
  | .coinReply .. => execCoinReply_held (hk := .refl s) ..
  | .coinWaitTimeout .. => execCoinWaitTimeout_held (hk := .refl s) ..
  | .coinGuardExpiry .. => execCoinGuardExpiry_held (hk := .refl s) ..
  | .sealDeposit .. => execSealDeposit_held (hk := .refl s) ..
  | .vaultScrub .. => execVaultScrub_held (hk := .refl s) ..
  | .vaultSpareDone .. => execVaultSpareDone_held (hk := .refl s) ..
  | .dramPatrolScrub .. => execDramPatrolScrub_held (hk := .refl s) ..
  | .dramTrackingUpdate .. => execDramTrackingUpdate_held (hk := .refl s) ..
  | .softPpr .. => execSoftPpr_held (hk := .refl s) ..
  | .remoteWrite .. => execRemoteWrite_held (hk := .refl s) ..
  | .readReq .. => execReadReq_held (hk := .refl s) ..
  | .readRsp .. => execReadRsp_held (hk := .refl s) ..
  | .readErr .. => execReadErr_held (hk := .refl s) ..
  | .readTimeout .. => execReadTimeout_held (hk := .refl s) ..
  | .landing .. => execLanding_held (hk := .refl s) ..
  | .settleContribution .. => execSettleContribution_held (hk := .refl s) ..
  | .settleWalkEnd .. => execSettleWalkEnd_held (hk := .refl s) ..
  | .stmtTimeout => execStmtTimeout_held (hk := .refl s) ..
  | .spikeReset => execSpikeReset_held (hk := .refl s) ..
  | .collectiveStart .. => execCollectiveStart_held (hk := .refl s) ..
  | .reduceSegment .. => execReduceSegment_held (hk := .refl s) ..
  | .gatherSegment .. => execGatherSegment_held (hk := .refl s) ..
  | .collectiveEnd .. => execCollectiveEnd_held (hk := .refl s) ..
  | .statementCombine .. => execStatementCombine_held (hk := .refl s) ..
  | .statementBroadcast .. => execStatementBroadcast_held (hk := .refl s) ..
  | .pointBarrierCombine .. => execPointBarrierCombine_held (hk := .refl s) ..
  | .pointBarrierBroadcast .. => execPointBarrierBroadcast_held (hk := .refl s) ..
  | .packetFrame .. => execPacketFrame_held (hk := .refl s) ..
  | .ack .. => execAck_held (hk := .refl s) ..
  | .nak .. => execNak_held (hk := .refl s) ..
  | .ackTimeout .. => execAckTimeout_held (hk := .refl s) ..
  | .credit .. => execCredit_held (hk := .refl s) ..
  | .creditQuery .. => execCreditQuery_held (hk := .refl s) ..
  | .creditLate .. => execCreditLate_held (hk := .refl s) ..
  | .keepalive .. => execKeepalive_held (hk := .refl s) ..
  | .keepaliveSend .. => execKeepaliveSend_held (hk := .refl s) ..
  | .linkPartnerLost .. => execLinkPartnerLost_held (hk := .refl s) ..
  | .signalDetect .. => execSignalDetect_held (hk := .refl s) ..
  | .linkUp .. => execLinkUp_held (hk := .refl s) ..
  | .trainingTimeout .. => execTrainingTimeout_held (hk := .refl s) ..
  | .trainingRetry .. => execTrainingRetry_held (hk := .refl s) ..
  | .retrain .. => execRetrain_held (hk := .refl s) ..
  | .forceKeepalive .. => execForceKeepalive_held (hk := .refl s) ..
  | .keepaliveIdle .. => execKeepaliveIdle_held (hk := .refl s) ..
  | .power .. => execPower_held (hk := .refl s) ..
  | .keepaliveExit .. => execKeepaliveExit_held (hk := .refl s) ..
  | .laneSample .. => execLaneSample_held (hk := .refl s) ..
  | .laneFail .. => execLaneFail_held (hk := .refl s) ..
  | .spareReq .. => execSpareReq_held (hk := .refl s) ..
  | .spareAck .. => execSpareAck_held (hk := .refl s) ..
  | .spareSwitch .. => execSpareSwitch_held (hk := .refl s) ..
  | .sparingDone .. => execSparingDone_held (hk := .refl s) ..
  | .sparingTimeout .. => execSparingTimeout_held (hk := .refl s) ..
  | .width .. => execWidth_held (hk := .refl s) ..
  | .eq .. => execEq_held (hk := .refl s) ..
  | .eqStep .. => execEqStep_held (hk := .refl s) ..
  | .timeExchange .. => execTimeExchange_held (hk := .refl s) ..
  | .timeReq .. => execTimeReq_held (hk := .refl s) ..
  | .timeRsp .. => execTimeRsp_held (hk := .refl s) ..
  | .identity .. => execIdentity_held (hk := .refl s) ..
  | .identityRepeat .. => execIdentityRepeat_held (hk := .refl s) ..
  | .identityTimeout .. => execIdentityTimeout_held (hk := .refl s) ..
  | .reidentify .. => execReidentify_held (hk := .refl s) ..
  | .partnerMissing .. => execPartnerMissing_held (hk := .refl s) ..
  | .sliceNotice .. => execSliceNotice_held (hk := .refl s) ..
  | .routeStall .. => execRouteStall_held (hk := .refl s) ..
  | .drain .. => execDrain_held (hk := .refl s) ..
  | .detourWrite .. => execDetourWrite_held (hk := .refl s) ..
  | .purseRefillTick => execPurseRefillTick_held (hk := .refl s) ..
  | .rateRecompute => execRateRecompute_held (hk := .refl s) ..
  | .thermalSample .. => execThermalSample_held (hk := .refl s) ..
  | .paceRound => execPaceRound_held (hk := .refl s) ..
  | .paceCombine .. => execPaceCombine_held (hk := .refl s) ..
  | .paceBroadcast .. => execPaceBroadcast_held (hk := .refl s) ..
  | .powerBrake => execPowerBrake_held (hk := .refl s) ..
  | .powerBrakeRelease => execPowerBrakeRelease_held (hk := .refl s) ..
  | .clockGate .. => execClockGate_held (hk := .refl s) ..
  | .powerGate .. => execPowerGate_held (hk := .refl s) ..
  | .clusterWake .. => execClusterWake_held (hk := .refl s) ..
  | .holdRun .. => execHoldRun_held (hk := .refl s) ..
  | .deepIdleEntry => execDeepIdleEntry_held (hk := .refl s) ..
  | .deepIdleExit => execDeepIdleExit_held (hk := .refl s) ..
  | .avsUpdate .. => execAvsUpdate_held (hk := .refl s) ..
  | .droopDetect .. => execDroopDetect_held (hk := .refl s) ..
  | .regulatorRead .. => execRegulatorRead_held (hk := .refl s) ..
  | .railUndervoltage .. => execRailUndervoltage_held (hk := .refl s) ..
  | .railFault .. => execRailFault_held (hk := .refl s) ..
  | .cdcTimeout .. => execCdcTimeout_held (hk := .refl s) ..
  | .stateCompare => execStateCompare_held (hk := .refl s) ..
  | .coreWatchdog .. => execCoreWatchdog_held (hk := .refl s) ..
  | .seqWatchdog .. => execSeqWatchdog_held (hk := .refl s) ..
  | .bucelRestart => execBucelRestart_held (hk := .refl s) ..
  | .securityAlarm .. => execSecurityAlarm_held (hk := .refl s) ..
  | .injectArm .. => execInjectArm_held (hk := .refl s) ..
  | .statementTake => execStatementTake_held (hk := .refl s) ..
  | .ledgerCounters .. => execLedgerCounters_held (hk := .refl s) ..
  | .ledgerDaily .. => execLedgerDaily_held (hk := .refl s) ..
  | .setEndpointId .. => execSetEndpointId_held (hk := .refl s) ..
  | .dynamicAddressAssign .. => execDynamicAddressAssign_held (hk := .refl s) ..
  | .statementGet .. => execStatementGet_held (hk := .refl s) ..
  | .daybookRead .. => execDaybookRead_held (hk := .refl s) ..
  | .ledgerRead .. => execLedgerRead_held (hk := .refl s) ..
  | .ledgerStatus .. => execLedgerStatus_held (hk := .refl s) ..
  | .unitStateRead .. => execUnitStateRead_held (hk := .refl s) ..
  | .setPermission .. => execSetPermission_held (hk := .refl s) ..
  | .setPowerLimit .. => execSetPowerLimit_held (hk := .refl s) ..
  | .setPurseDepth .. => execSetPurseDepth_held (hk := .refl s) ..
  | .planWrite .. => execPlanWrite_held (hk := .refl s) ..
  | .planRetire .. => execPlanRetire_held (hk := .refl s) ..
  | .regRead .. => execRegRead_held (hk := .refl s) ..
  | .attestGet .. => execAttestGet_held (hk := .refl s) ..
  | .treeBuildDone => execTreeBuildDone_held (hk := .refl s) ..
  | .challenge .. => execChallenge_held (hk := .refl s) ..
  | .present .. => execPresent_held (hk := .refl s) ..
  | .relinquish .. => execRelinquish_held (hk := .refl s) ..
  | .nonceExpiry => execNonceExpiry_held (hk := .refl s) ..
  | .rightExpiry .. => execRightExpiry_held (hk := .refl s) ..
  | .setEventReceiver .. => execSetEventReceiver_held (hk := .refl s) ..
  | .platformEventRetry .. => execPlatformEventRetry_held (hk := .refl s) ..
  | .getSensorReading .. => execGetSensorReading_held (hk := .refl s) ..
  | .requestUpdate .. => execRequestUpdate_held (hk := .refl s) ..
  | .verifyComplete .. => execVerifyComplete_held (hk := .refl s) ..
  | .activateFirmware .. => execActivateFirmware_held (hk := .refl s) ..
  | .aoPowerLoss .. => nomatch h
  | .railRecovery .. => execRailRecovery_held (hk := .refl s) ..
  | .seqMemUncorrected .. => execSeqMemUncorrected_held (hk := .refl s) ..
  | .bucelRestartComplete => execBucelRestartComplete_held (hk := .refl s) ..
  | .widthSwitch .. => execWidthSwitch_held (hk := .refl s) ..
  | .registerRead .. => execRegisterRead_held (hk := .refl s) ..
  | .msixVectorUnmask .. => execMsixVectorUnmask_held (hk := .refl s) ..
  | .platformEventAck .. => execPlatformEventAck_held (hk := .refl s) ..
  | .hostLinkError .. => execHostLinkError_held (hk := .refl s) ..

/-- Settles O8: every write of a lock bit sets it or leaves it, and nothing else but a reset of the device writes one. -/
theorem locksHoldUntilReset : Obligations.LocksHoldUntilReset := by
  unfold Obligations.LocksHoldUntilReset
  exact fun c s h => (exec_held s h).imp fun t ht => ⟨ht.dram, ht.link, ht.power, ht.error, ht.security⟩

end Sys2Proof.Machine
end

