-- ==== Sys2Proof/Proofs/Power.lean ====
section
/-!
PROOFS. The commands of power and clocks (15_power_and_clocks.md): purses and RATEs, heat and pacing, the states of clusters and of the
device, and rails.
-/
set_option autoImplicit false
namespace Sys2Proof.Machine

/-- Logging leaves the power registers. -/
@[simp] theorem State.pwr_log (s : State) (c : EventClass) (source : Nat) (data : List (Nat × Nat)) : (s.log c source data).pwr = s.pwr :=
  (State.log_only (hm := Nat.and_self _) (hk := .refl _ s) ..).pwr rfl

theorem State.clusters_reach (s : State) (t : Nat) : (s.reach t).clusters = s.clusters :=
  (State.reach_only (hm := Nat.and_self _) (hk := .refl _ s) ..).clusters rfl

theorem State.pwr_reach (s : State) (t : Nat) : (s.reach t).pwr = s.pwr :=
  (State.reach_only (hm := Nat.and_self _) (hk := .refl _ s) ..).pwr rfl

/-- A cluster is the same where the clusters are. -/
theorem State.cluster_of_clusters {s t : State} (h : t.clusters = s.clusters) (c : Nat) : t.cluster c = s.cluster c :=
  congrArg (fun cs : Tab Cluster => tget cs {} c) h

/-! ### Purses and RATEs (R467, R470) -/

/-- One purse after another is changed, each by its own number alone. -/
theorem State.cluster_foldl_modPurse {g : Nat → Purse → Purse} {l : List Nat} (hl : l.Nodup) (s : State) (k : Nat) :
    (l.foldl (fun s c => s.modPurse c (g c)) s).cluster k =
      if k ∈ l then { s.cluster k with purse := g k (s.cluster k).purse } else s.cluster k := by
  induction l generalizing s with
  | nil => rfl
  | cons c l ih =>
    obtain ⟨hc, hl⟩ := List.nodup_cons.1 hl
    rw [List.foldl_cons, ih hl, State.cluster_modPurse]
    by_cases hk : k = c
    · subst hk
      simp [hc]
    · simp [hk]

/-- The RATEs of the clusters with the q in use (R470, R472). -/
def State.rateOf (s : State) (q c : Nat) (u : Purse) : Purse := { u with rate := if s.clusterOn c then u.share * q / 1024 else 0 }

/-- The q in use: the slice's where it is held, limited by the local one (R470, R472). -/
def State.qNow (s : State) : Nat := if s.pwr.qHeld then min s.pwr.qSlice s.qLocalNow else s.qLocalNow

/-- RATEs do not change which clusters are ENABLED, so each is computed as in the state before. -/
theorem State.rateRecompute_eq (s : State) :
    s.rateRecompute = (List.range 8).foldl (fun t c => t.modPurse c (s.rateOf s.qNow c))
      (s.modPwr (fun p => { p with qLocal := s.qLocalNow, qUsed := s.qNow })) := by
  have hfold : ∀ (l : List Nat) (t : State), (∀ c, t.clusterOn c = s.clusterOn c) →
      l.foldl (fun t c => t.modPurse c (t.rateOf s.qNow c)) t = l.foldl (fun t c => t.modPurse c (s.rateOf s.qNow c)) t := by
    intro l
    induction l with
    | nil => exact fun _ _ => rfl
    | cons c l ih =>
      intro t ht
      have hrate : t.rateOf s.qNow c = s.rateOf s.qNow c := funext fun u => by rw [State.rateOf, State.rateOf, ht c]
      simp only [List.foldl_cons, hrate]
      exact ih _ (fun k => ht k)
  exact hfold _ _ (fun _ => rfl)

theorem State.cluster_rateRecompute (s : State) {c : Nat} (hc : c < 8) :
    (s.rateRecompute).cluster c = { s.cluster c with purse := s.rateOf s.qNow c (s.cluster c).purse } := by
  rw [State.rateRecompute_eq, State.cluster_foldl_modPurse List.nodup_range, if_pos (List.mem_range.2 hc)]
  rfl

theorem State.pwr_rateRecompute (s : State) : s.rateRecompute.pwr = { s.pwr with qLocal := s.qLocalNow, qUsed := s.qNow } := by
  rw [State.rateRecompute_eq]
  have hfold : ∀ (l : List Nat) (t : State), (l.foldl (fun t c => t.modPurse c (s.rateOf s.qNow c)) t).pwr = t.pwr := by
    intro l
    induction l with
    | nil => exact fun _ => rfl
    | cons c l ih => exact fun t => ih _
  exact hfold _ _

/-- Purses that no sequencer waits for are only refilled (R467). -/
theorem State.retryStarts_none {l : List Nat} {s : State} (h : ∀ c ∈ l, (s.cluster c).seq.waitOn ≠ .purse) :
    l.foldl (fun s c => if (s.cluster c).seq.waitOn = .purse then s.retryStart c else s) s = s := by
  induction l with
  | nil => rfl
  | cons c l ih =>
    rw [List.foldl_cons, if_neg (h c List.mem_cons_self)]
    exact ih fun k hk => h k (List.mem_cons_of_mem _ hk)

theorem execPurseRefillTick_refills {s : State} (hfree : ∀ c, c < 8 → (s.cluster c).seq.waitOn ≠ .purse) :
    Answers (execPurseRefillTick s) (fun t => t.aoNs = (s.aoNs / 1000 + 1) * 1000 ∧ t.pwr.qNext = none ∧
      ∀ c, c < 8 → (t.cluster c).purse.balance = (s.cluster c).purse.tick.balance ∧ (t.cluster c).purse.due = (s.cluster c).purse.tick.due) := by
  unfold execPurseRefillTick
  extract_lets s₁ s₂ s₃
  have hao : s₁.aoNs = (s.aoNs / 1000 + 1) * 1000 := (s.aoNs_reach _).trans (Nat.max_eq_right (by omega))
  have h₂ : ∀ c, c < 8 → s₂.cluster c = { s.cluster c with purse := (s.cluster c).purse.tick } := fun c hc =>
    (State.cluster_modClusters _ _ c hc).trans (by rw [State.cluster_of_clusters (s.clusters_reach _) c])
  have h₃ : s₃.aoNs = s₁.aoNs ∧ s₃.pwr.qNext = none ∧ ∀ c, c < 8 → (s₃.cluster c).seq = (s.cluster c).seq ∧
      (s₃.cluster c).purse.balance = (s.cluster c).purse.tick.balance ∧ (s₃.cluster c).purse.due = (s.cluster c).purse.tick.due := by
    simp only [s₃]
    split
    · refine ⟨(State.rateRecompute_only (hm := Nat.and_self _) (hk := .refl _ _) ..).aoNs rfl, ?_, fun c hc => ?_⟩
      · rw [State.pwr_rateRecompute]
        rfl
      · rw [State.cluster_rateRecompute _ hc, State.cluster_modPwr, h₂ c hc]
        exact ⟨rfl, rfl, rfl⟩
    next hq =>
      refine ⟨rfl, Option.not_isSome_iff_eq_none.1 hq, fun c hc => ?_⟩
      rw [h₂ c hc]
      exact ⟨rfl, rfl, rfl⟩
  obtain ⟨hao₃, hq, hpurse⟩ := h₃
  rw [State.retryStarts_none fun c hc => by rw [(hpurse c (List.mem_range.1 hc)).1]; exact hfree c (List.mem_range.1 hc)]
  exact Answers.next ⟨hao₃.trans hao, hq, fun c hc => (hpurse c hc).2⟩

theorem execRateRecompute_rates {s : State} (hgood : ∀ c, c < 8 → s.clusterOn c = true → s.rails.good.contains (3 + c) = true)
    (hstage : 2 ≤ s.dev.stage) :
    Answers (execRateRecompute s) (fun t => t.pwr.qLocal = s.qLocalNow ∧
      t.pwr.qUsed = (if s.pwr.qHeld then min s.pwr.qSlice s.qLocalNow else s.qLocalNow) ∧
      ∀ c, c < 8 → (t.cluster c).purse.rate = if s.clusterOn c then (s.cluster c).purse.share * t.pwr.qUsed / 1024 else 0) := by
  have hall : (List.range 8).all (fun c => s.rails.good.contains (3 + c) || !s.clusterOn c) = true := by
    refine List.all_eq_true.2 fun c hc => ?_
    cases hon : s.clusterOn c with
    | false => simp
    | true => rw [hgood c (List.mem_range.1 hc) hon]; rfl
  rw [execRateRecompute, if_pos ⟨hall, hstage⟩]
  refine Answers.next ⟨?_, ?_, fun c hc => ?_⟩
  · rw [State.pwr_rateRecompute]
  · rw [State.pwr_rateRecompute]
    rfl
  · rw [State.pwr_rateRecompute, State.cluster_rateRecompute s hc]
    rfl

theorem execDroopDetect_counts {s : State} {c : Nat} (hc : c < 8) (hrun : (s.cluster c).clock.cstate = 0) :
    Answers (execDroopDetect c s) (fun t => (t.cluster c).clock.stretches = satAdd 0xFFFF (s.cluster c).clock.stretches 1) := by
  rw [execDroopDetect, if_pos ⟨hc, hrun⟩]
  refine Answers.next ?_
  have hclock := State.cluster_modClock s c (fun k => { k with stretches := satAdd 0xFFFF k.stretches 1 }) c
  rw [if_pos rfl] at hclock
  exact congrArg (·.clock.stretches) hclock

theorem State.clock_modClock_self (s : State) (c : Nat) (f : ClockSt → ClockSt) : ((s.modClock c f).cluster c).clock = f (s.cluster c).clock := by
  rw [State.cluster_modClock, if_pos rfl]

/-- The set point that an update asks for (R475). -/
def State.avsNext (s : State) (c : Nat) (up : Option Bool) : Nat :=
  (s.cluster c).clock.avsPend.getD (max (s.vmin2 c) (min (s.vmax2 c)
    (if up = some true then (s.cluster c).clock.volt2 + 5 else if up = some false then (s.cluster c).clock.volt2 - 5 else (s.cluster c).clock.volt2)))

/-- The margin of an update is recorded whatever the loop does. -/
def State.avsMargin (s : State) (c margin : Nat) : State := (s.modClock c (fun k => { k with marginPs := margin % 65536 })).spanMin (ctClu c 10) margin

theorem State.clock_avsMargin (s : State) (c margin : Nat) :
    ((s.avsMargin c margin).cluster c).clock = { (s.cluster c).clock with marginPs := margin % 65536 } :=
  s.clock_modClock_self c (fun k => { k with marginPs := margin % 65536 })

/-- The update by cases: held, written, not written, and not written for the hundredth time (R475, R476). -/
theorem execAvsUpdate_eq {s : State} {c : Nat} (hc : c < 8) (hrun : (s.cluster c).clock.cstate = 0) (up : Option Bool) (margin : Nat) (ok : Bool) :
    execAvsUpdate c up margin ok s = .next (
      if (s.cluster c).clock.avsHeld then s.avsMargin c margin
      else if ok then
        ((s.avsMargin c margin).modClock c (fun k => { k with volt2 := s.avsNext c up, avsFails := 0, avsPend := none })).emit (.avs c (s.avsNext c up / 2))
      else
        let u := (s.avsMargin c margin).modClock c (fun k => { k with avsFails := k.avsFails + 1, avsPend := some (s.avsNext c up) })
        if (s.cluster c).clock.avsFails = 99 then (u.modClock c (fun k => { k with avsHeld := true })).log .avsFail (srcRail (3 + c)) [] else u) := by
  unfold execAvsUpdate
  extract_lets k want next s₁ s₂
  have hnext : next = s.avsNext c up := by
    obtain _ | _ | _ := up <;> rfl
  have hfails : (s₂.cluster c).clock.avsFails = (s.cluster c).clock.avsFails + 1 := by
    simp only [s₂, State.clock_modClock_self]
    exact congrArg (·.avsFails + 1) (s.clock_avsMargin c margin)
  rw [if_pos ⟨hc, hrun⟩, hfails]
  simp only [s₂, hnext, Nat.reduceEqDiff]
  split
  · rfl
  · split
    · rfl
    · split <;> rfl

theorem State.clusters_log (s : State) (c : EventClass) (source : Nat) (data : List (Nat × Nat)) : (s.log c source data).clusters = s.clusters :=
  (State.log_only (hm := Nat.and_self _) (hk := .refl _ s) ..).clusters rfl

/-- The margin is recorded; then the loop holds, moves the set point, or keeps what failed to be repeated (R475, R476). -/
theorem execAvsUpdate_moves {s : State} {c margin : Nat} {up : Option Bool} {ok : Bool} (hc : c < 8) (hrun : (s.cluster c).clock.cstate = 0) :
    Answers (execAvsUpdate c up margin ok s) (fun t => (t.cluster c).clock.marginPs = margin % 65536 ∧
      ((s.cluster c).clock.avsHeld = true → (t.cluster c).clock.volt2 = (s.cluster c).clock.volt2 ∧ t.out = s.out) ∧
      ((s.cluster c).clock.avsHeld = false → ok = false → (t.cluster c).clock.volt2 = (s.cluster c).clock.volt2 ∧
        (t.cluster c).clock.avsPend = some (s.avsNext c up) ∧ (t.cluster c).clock.avsFails = (s.cluster c).clock.avsFails + 1 ∧
        ((t.cluster c).clock.avsHeld = true ↔ (s.cluster c).clock.avsFails = 99)) ∧
      ((s.cluster c).clock.avsHeld = false → ok = true → (t.cluster c).clock.volt2 = s.avsNext c up ∧ (t.cluster c).clock.avsPend = none ∧
        (t.cluster c).clock.avsFails = 0 ∧ t.out = s.out ++ [.avs c (s.avsNext c up / 2)])) := by
  rw [execAvsUpdate_eq hc hrun]
  refine Answers.next ?_
  have hmargin := s.clock_avsMargin c margin
  cases hheld : (s.cluster c).clock.avsHeld with
  | true =>
    rw [if_pos rfl, hmargin]
    exact ⟨rfl, fun _ => ⟨rfl, rfl⟩, nofun, nofun⟩
  | false =>
    rw [if_neg Bool.false_ne_true]
    cases ok with
    | true =>
      have hclock := (s.avsMargin c margin).clock_modClock_self c (fun k => { k with volt2 := s.avsNext c up, avsFails := 0, avsPend := none })
      rw [if_pos rfl, State.cluster_emit, hclock, hmargin]
      exact ⟨rfl, nofun, nofun, fun _ _ => ⟨rfl, rfl, rfl, rfl⟩⟩
    | false =>
      rw [if_neg Bool.false_ne_true]
      dsimp only
      generalize hu : (s.avsMargin c margin).modClock c (fun k => { k with avsFails := k.avsFails + 1, avsPend := some (s.avsNext c up) }) = u
      have hclock : (u.cluster c).clock = { (s.cluster c).clock with
          marginPs := margin % 65536, avsFails := (s.cluster c).clock.avsFails + 1, avsPend := some (s.avsNext c up) } := by
        rw [← hu, State.clock_modClock_self, hmargin]
      by_cases h99 : (s.cluster c).clock.avsFails = 99
      · rw [if_pos h99, State.cluster_of_clusters (State.clusters_log ..), State.clock_modClock_self, hclock]
        exact ⟨rfl, nofun, fun _ _ => ⟨rfl, rfl, rfl, iff_of_true rfl h99⟩, nofun⟩
      · rw [if_neg h99, hclock]
        exact ⟨rfl, nofun, fun _ _ => ⟨rfl, rfl, rfl, iff_of_false (by simp [hheld]) h99⟩, nofun⟩

/-- Settles O47: nothing that a tick or a recomputation does to a purse depends on another cluster's purse. -/
theorem pursesFill : Obligations.PursesFill := by
  unfold Obligations.PursesFill
  refine ⟨fun s => execPurseRefillTick_refills, fun s => execRateRecompute_rates, fun c s => execDroopDetect_counts,
    fun c margin up ok s hc hrun => (execAvsUpdate_moves hc hrun).imp fun t ht next hnext => ?_⟩
  rw [hnext]
  exact ht

end Sys2Proof.Machine
end

