-- ==== Sys2Proof/Proofs/HeatAndPace.lean ====
section
/-!
PROOFS. Thermal control, the pacing rounds of a slice, and the brake (15_power_and_clocks.md, R471, R477 to R479).
-/
set_option autoImplicit false
namespace Sys2Proof.Machine

/-! ### Heat (R477) -/

/-- P_therm after a reading: down by 2 % at THROTTLE_C, up by 1 % below THROTTLE_C − 3, at most the board's power (R477). -/
def State.thermNext (s : State) (t : Int) : Nat :=
  if 16 * (s.pwr.throttleC : Int) ≤ t then s.pwr.thermMw * 98 / 100
  else if t < 16 * ((s.pwr.throttleC : Int) - 3) then min (s.pwr.thermMw * 101 / 100) (s.pwr.boardW * 1000)
  else s.pwr.thermMw

theorem State.pwr_thermStep (s : State) (t : Int) :
    ∃ throttled : Bool, (s.thermStep t).pwr = { s.pwr with thermMw := s.thermNext t, throttled := throttled } := by
  unfold State.thermStep
  extract_lets board p next s₁
  split
  · exact ⟨true, State.pwr_log ..⟩
  · split
    · exact ⟨false, rfl⟩
    · exact ⟨s.pwr.throttled, rfl⟩

/-- No sensor that was below TRIP_C trips the device at once (R477, R478). -/
theorem execThermalSample_steps {ts : List Int} {s : State} (hlen : ts.length = 64) (hstage : 1 ≤ s.dev.stage) (hcool : s.pwr.overTrip = []) :
    Answers (execThermalSample ts s) (fun t => t.pwr.tmax = (max (hottest ts).1 0).toNat / 16 % 256 ∧ t.pwr.tmaxSensor = (hottest ts).2 ∧
      t.pwr.thermMw = s.thermNext (hottest ts).1) := by
  rw [execThermalSample, if_pos ⟨hlen, hstage⟩]
  generalize hottest ts = hot
  obtain ⟨t, i⟩ := hot
  dsimp only
  obtain ⟨throttled, hpwr⟩ := State.pwr_thermStep (State.modPwr { s with tel := { s.tel with temps := ts.zip (List.range 64) |>.map (fun x => (x.2, x.1)) } }
    (fun w => { w with tmax := (max t 0).toNat / 16 % 256, tmaxSensor := i })) t
  have htrip : ∀ l : List Nat, l.filter (fun k => (([] : List Nat).contains k)) = [] := fun l => by simp
  rw [hpwr, State.modPwr_pwr]
  dsimp only
  rw [hcool, htrip]
  refine Answers.next ?_
  rw [State.modPwr_pwr, hpwr]
  exact ⟨rfl, rfl, rfl⟩

/-! ### Pacing (R471 to R473) -/

theorem State.pwr_streamSend (s : State) (n : Nat) (p : Packet) : (s.streamSend n p).2.pwr = s.pwr :=
  (State.streamSend_only (hm := Nat.and_self _) (hk := .refl _ s) ..).pwr rfl

/-- A pacing broadcast settles the power registers as if it went no further down the tree (R471). -/
theorem State.pwr_paceFinal (s : State) (q round demand : Nat) :
    (s.paceFinal q round demand).pwr = { s.pwr with
      qSlice := q, qHeld := true, demand := demand, qNext := some q
      roundOpen := s.pwr.roundOpen && round % 2 ^ 32 != s.pwr.round % 2 ^ 32
      paceOwn := if round % 2 ^ 32 != s.pwr.round % 2 ^ 32 then s.pwr.paceOwn else none
      paceKids := s.pwr.paceKids.filter (fun k => round % 2 ^ 32 != s.pwr.round % 2 ^ 32 && k.2.2.1 == s.pwr.round % 2 ^ 32) } := by
  unfold State.paceFinal
  extract_lets s₁ old
  have h₁ : s₁.pwr = s.pwr :=
    (Only.foldl (m := 620758672) (fun t k ht => State.streamSend_only (hm := rfl) (hk := ht) ..) (.refl _ s)).pwr rfl
  have hold : old = (round % 2 ^ 32 != s.pwr.round % 2 ^ 32) := by simp only [old, h₁]
  rw [State.modPwr_pwr, h₁, hold]

/-- Without the device's own statement nothing goes up. -/
theorem State.paceAdvance_idle {s : State} (h : s.pwr.paceOwn = none) : s.paceAdvance = s := by
  rw [State.paceAdvance, h]

/-- What goes up or down ends the round or leaves it open, but counts nothing. -/
theorem State.pwr_paceAdvance (s : State) : s.paceAdvance.pwr.round = s.pwr.round ∧ s.paceAdvance.pwr.missed = s.pwr.missed := by
  unfold State.paceAdvance
  split
  · exact ⟨rfl, rfl⟩
  · dsimp only
    split
    · exact ⟨rfl, rfl⟩
    · split
      · rw [State.pwr_paceFinal]
        exact ⟨rfl, rfl⟩
      · rw [State.modPwr_pwr, State.pwr_streamSend]
        exact ⟨rfl, rfl⟩

/-- A round that no broadcast ended is counted (R472). -/
theorem State.missed_roundMissed (s : State) :
    s.roundMissed.pwr.missed = if s.pwr.roundOpen then satAdd 0xFFFF s.pwr.missed 1 else s.pwr.missed := by
  rw [State.roundMissed]
  split
  · rw [(State.logLimited_only (hm := Nat.and_self _) (hk := .refl _ _) ..).pwr rfl]
    rfl
  · rfl

theorem State.paceEn_roundMissed (s : State) : s.roundMissed.pwr.paceEn = s.pwr.paceEn := by
  rw [State.roundMissed]
  split
  · rw [(State.logLimited_only (hm := Nat.and_self _) (hk := .refl _ _) ..).pwr rfl]
    rfl
  · rfl

/-- Device time depends on the clocks alone. -/
theorem State.now_congr {s t : State} (hao : t.aoNs = s.aoNs) (hoff : t.devOff = s.devOff) (htime : t.time = s.time) : t.now = s.now := by
  rw [State.now, State.now, State.timeAt, State.timeAt, hao, hoff, htime]

theorem execPaceRound_starts {s : State} (hpaces : s.paces = true) :
    Answers (execPaceRound s) (fun t => t.pwr.round = s.now / 100000 ∧
      t.pwr.missed = (if s.pwr.roundOpen then satAdd 0xFFFF s.pwr.missed 1 else s.pwr.missed) ∧
      ∀ c, c < 8 → (t.cluster c).purse.demand = (s.cluster c).demandNow) := by
  have hmissed := s.missed_roundMissed
  have hen := s.paceEn_roundMissed
  have hrest := State.roundMissed_only (hm := Nat.and_self _) (hk := .refl _ s)
  unfold execPaceRound
  generalize s.roundMissed = r at hmissed hen hrest ⊢
  extract_lets demand s₁ round s₂
  have hpaces₁ : s₁.paces = true := by
    rw [State.paces, State.placed, State.modClusters_pwr, State.modClusters_rtr, State.modClusters_dev, hen, hrest.rtr rfl, hrest.dev rfl]
    exact hpaces
  have hround : round = s.now / 100000 := by
    simp only [round]
    rw [State.now_congr (s := s)] <;> simp only [s₁, State.modClusters_aoNs, State.modClusters_devOff, State.modClusters_time]
    · exact hrest.aoNs rfl
    · exact hrest.devOff rfl
    · exact hrest.time rfl
  have hclusters : s₂.paceAdvance.clusters = s₂.clusters :=
    (State.paceAdvance_only (hm := Nat.and_self _) (hk := .refl _ s₂) ..).clusters rfl
  rw [if_pos hpaces₁]
  obtain ⟨hr, hm⟩ := s₂.pwr_paceAdvance
  have hmissed₂ : s₂.pwr.missed = r.pwr.missed := by rw [State.modPwr_pwr, State.modClusters_pwr]
  refine Answers.next ⟨hr.trans hround, (hm.trans hmissed₂).trans hmissed, fun c hc => ?_⟩
  rw [State.cluster_of_clusters hclusters, State.cluster_modPwr, State.cluster_modClusters _ _ c hc,
    State.cluster_of_clusters (hrest.clusters rfl)]

/-- The tree of a slice is that of the plan, the position and the slice in force. -/
theorem State.treeKids_congr {s t : State} (hdev : t.dev = s.dev) (hslice : t.rtr.slice = s.rtr.slice) (a : Nat) : t.treeKids a = s.treeKids a := by
  have hlen : t.len = s.len := funext fun a => by rw [State.len, State.len, hdev]
  have hwraps : t.wraps = s.wraps := funext fun a => by rw [State.wraps, State.wraps, hdev]
  have hhere : t.here = s.here := by rw [State.here, State.here, hdev]
  have hext : t.ext = s.ext := funext fun a => by rw [State.ext, State.ext, hslice]
  have hring : t.sliceRing = s.sliceRing := funext fun a => by rw [State.sliceRing, State.sliceRing, hslice, hlen, hwraps]
  have hpos : t.ringPos = s.ringPos := funext fun a => by rw [State.ringPos, State.ringPos, State.slicePos, State.slicePos, hslice, hlen, hhere]
  have hcoord : t.coordAt = s.coordAt := funext fun a => funext fun i => by rw [State.coordAt, State.coordAt, hslice, hlen]
  rw [State.treeKids, State.treeKids, hext, hpos, hring, hhere, hcoord]

theorem State.srcAxis_congr {s t : State} (hdev : t.dev = s.dev) (c : Coord) : t.srcAxis c = s.srcAxis c := by
  rw [State.srcAxis, State.srcAxis, State.here, State.here, hdev]

theorem State.fromPlus_congr {s t : State} (hdev : t.dev = s.dev) (hslice : t.rtr.slice = s.rtr.slice) (a : Nat) (c : Coord) :
    t.fromPlus a c = s.fromPlus a c := by
  rw [State.fromPlus, State.fromPlus, State.treeKids_congr hdev hslice]

theorem State.paceOk_congr {s t : State} (hslice : t.rtr.slice = s.rtr.slice) (p : Packet) (bc : Bool) : t.paceOk p bc = s.paceOk p bc := by
  rw [State.paceOk, State.paceOk, State.hasSlice, State.hasSlice, hslice]

theorem execPaceCombine_recorded {p : Packet} {s : State} (hturn : s.inTurn p = true) (hkind : p.kind = 1) (hok : s.paceOk p false = true)
    (hchild : (s.treeKids (s.srcAxis p.src)).any (fun k => k.2 == p.src) = true) (hown : s.pwr.paceOwn = none) :
    Answers (execPaceCombine p s) (fun t => t.pwr.paceKids.getLast? =
      some (s.srcAxis p.src, s.fromPlus (s.srcAxis p.src) p.src, leAt p.payload 4 4, fld (leAt p.payload 0 4) 0 11, leAt p.payload 8 4)) := by
  have hconsumed := State.consumed_only s p (hm := Nat.and_self _) (hk := .refl _ s)
  have hdev : (s.consumed p).dev = s.dev := hconsumed.dev rfl
  have hpwr : (s.consumed p).pwr = s.pwr := hconsumed.pwr rfl
  have hslice : (s.consumed p).rtr.slice = s.rtr.slice := (State.consumed_routing (hk := .refl s) ..).slice
  rw [execPaceCombine, if_neg (by simp [hturn, hkind])]
  dsimp only
  rw [State.paceOk_congr hslice, State.srcAxis_congr hdev, State.treeKids_congr hdev hslice, State.fromPlus_congr hdev hslice,
    if_neg (by simp [hok, hchild]), State.paceAdvance_idle (by rw [State.modPwr_pwr, hpwr]; exact hown)]
  exact Answers.next (List.getLast?_concat ..)

theorem execPaceBroadcast_rate {p : Packet} {s : State} (hturn : s.inTurn p = true) (hkind : p.kind = 1) (hok : s.paceOk p true = true)
    (hpaces : s.paces = true) :
    Answers (execPaceBroadcast p s) (fun t => t.pwr.qSlice = fld (leAt p.payload 0 4) 0 11 ∧ t.pwr.qHeld = true ∧
      t.pwr.qNext = some (fld (leAt p.payload 0 4) 0 11) ∧ t.pwr.demand = leAt p.payload 8 4 ∧
      t.pwr.roundOpen = (s.pwr.roundOpen && leAt p.payload 4 4 % 2 ^ 32 != s.pwr.round % 2 ^ 32)) := by
  have hconsumed := State.consumed_only s p (hm := Nat.and_self _) (hk := .refl _ s)
  have hdev : (s.consumed p).dev = s.dev := hconsumed.dev rfl
  have hpwr : (s.consumed p).pwr = s.pwr := hconsumed.pwr rfl
  have hslice : (s.consumed p).rtr.slice = s.rtr.slice := (State.consumed_routing (hk := .refl s) ..).slice
  have hpaces₁ : (s.consumed p).paces = true := by
    rw [State.paces, State.placed, hpwr, hslice, hdev]
    exact hpaces
  rw [execPaceBroadcast, if_neg (by simp [hturn, hkind])]
  dsimp only
  rw [State.paceOk_congr hslice, if_neg (not_not_intro hok), if_neg (not_not_intro hpaces₁)]
  refine Answers.next ?_
  rw [State.pwr_paceFinal, hpwr]
  exact ⟨rfl, rfl, rfl, rfl, rfl⟩

/-! ### The brake (R479) -/

theorem execPowerBrake_brakes {s : State} (hfree : s.pwr.brake = false) :
    Answers (execPowerBrake s) (fun t => t.pwr.brake = true ∧ (∀ c, c < 8 → (t.cluster c).clock.braked = true) ∧
      Logged s t .powerBrake (srcBlock 7)) := by
  unfold execPowerBrake
  extract_lets s₁
  have hpwr := s₁.pwr_log .powerBrake (srcBlock 7) []
  have hclusters := s₁.clusters_log .powerBrake (srcBlock 7) []
  have hlog := Logged.log s₁ .powerBrake (srcBlock 7) [] (by simp [severityOf, Severity.code])
  rw [if_neg (Bool.eq_false_iff.1 hfree)]
  generalize s₁.log .powerBrake (srcBlock 7) [] = u at hpwr hclusters hlog ⊢
  refine Answers.next ⟨?_, fun c hc => ?_, ?_⟩
  · rw [State.total_pwr, hpwr, State.modClusters_pwr]
    rfl
  · rw [State.cluster_total, State.cluster_of_clusters hclusters, State.cluster_modClusters _ _ c hc]
  · exact (hlog.before (by rw [State.modClusters_err, State.modPwr_err])).after (State.total_err ..)

/-- Settles O48: what a packet or a round changes of the power registers does not depend on where the statements go. -/
theorem heatAndPace : Obligations.HeatAndPace := by
  unfold Obligations.HeatAndPace
  exact ⟨fun ts s => execThermalSample_steps, fun s => execPaceRound_starts, fun p s => execPaceCombine_recorded,
    fun p s => execPaceBroadcast_rate, fun s => execPowerBrake_brakes, fun s => Answers.next rfl⟩

end Sys2Proof.Machine
end

