-- ==== Sys2Proof/Proofs/ClusterStates.lean ====
section
/-!
PROOFS. The states of clusters and of the device (15_power_and_clocks.md, R464 to R466).
-/
set_option autoImplicit false
namespace Sys2Proof.Machine

theorem State.cluster_reach (s : State) (t c : Nat) : (s.reach t).cluster c = s.cluster c :=
  State.cluster_of_clusters (s.clusters_reach t) c

/-- A gated cluster returns to RUN, and one that runs stays there (R465). -/
theorem State.cstate_wake {s : State} {c : Nat} (h : (s.cluster c).clock.cstate ≤ 2) : ((s.wake c).cluster c).clock.cstate = 0 := by
  unfold State.wake
  extract_lets t s₁
  split
  next ht =>
    rw [State.using, State.clock_modClock_self]
    have hrun : (s.cluster c).clock.cstate ≠ 1 ∧ (s.cluster c).clock.cstate ≠ 2 := by
      constructor <;> intro hc <;> simp [t, hc] at ht
    dsimp only
    omega
  · rw [State.clock_modClock_self]

theorem State.holdRun_wake (s : State) (c : Nat) : ((s.wake c).cluster c).clock.holdRun = (s.cluster c).clock.holdRun := by
  unfold State.wake
  extract_lets t s₁
  split
  · rw [State.using, State.clock_modClock_self]
  · rw [State.clock_modClock_self, State.cluster_reach]

/-- The clock of a cluster as HOLD_RUN is written, before the cluster wakes. -/
def ClockSt.withHold (k : ClockSt) (v : Bool) (t : Nat) : ClockSt := { k with holdRun := v, used := t }

theorem State.setHoldRun_eq (s : State) (c : Nat) (v : Bool) :
    ∃ t : State, (t.cluster c).clock = (s.cluster c).clock.withHold v s.aoNs ∧ t.canWake c = s.canWake c ∧
      s.setHoldRun c v = if v ∧ t.canWake c then t.wake c else t := by
  refine ⟨(s.modClock c (fun k => { k with holdRun := v })).using c, ?_, ?_, rfl⟩
  · rw [State.using, State.clock_modClock_self, State.clock_modClock_self]
    rfl
  · rw [State.canWake, State.canWake, State.using, State.clock_modClock_self, State.clock_modClock_self]
    rfl

theorem execClockGate_gates {s : State} {c : Nat} (hc : c < 8) (hrun : (s.cluster c).clock.cstate = 0) (hquiet : s.clusterQuiet c = true) :
    Answers (execClockGate c s) (fun t => (t.cluster c).clock.cstate = 1 ∧ (t.cluster c).clock.div = 3 ∧
      t.aoNs = max s.aoNs (max (s.cluster c).clock.since (s.cluster c).clock.used + s.pwr.cgDelay * 1000)) := by
  rw [execClockGate, if_pos ⟨hc, hrun, hquiet⟩]
  refine Answers.next ?_
  rw [State.clock_modClock_self]
  exact ⟨rfl, rfl, s.aoNs_reach _⟩

theorem execPowerGate_gates {s : State} {c : Nat} (hc : c < 8) (hgated : (s.cluster c).clock.cstate = 1) (hen : s.pwr.pgEn = true)
    (hready : s.dev.ready = true) :
    Answers (execPowerGate c s) (fun t => (t.cluster c).clock.cstate = 2 ∧
      t.aoNs = max s.aoNs ((s.cluster c).clock.since + s.pwr.pgDelay * 1000)) := by
  rw [execPowerGate, if_pos ⟨hc, hgated, hen, hready⟩]
  refine Answers.next ?_
  rw [State.clock_modClock_self]
  exact ⟨rfl, s.aoNs_reach _⟩

theorem execHoldRun_sets {s : State} {c : Nat} (v : Bool) (hc : c < 8) :
    Answers (execHoldRun c v s) (fun t => (t.cluster c).clock.holdRun = v) := by
  rw [execHoldRun, if_pos hc]
  obtain ⟨t, hclock, -, heq⟩ := s.setHoldRun_eq c v
  refine Answers.next ?_
  rw [heq]
  split
  · rw [State.holdRun_wake, hclock]
    rfl
  · rw [hclock]
    rfl

theorem execHoldRun_wakes {s : State} {c : Nat} (hc : c < 8) (hwake : s.canWake c = true) (hstate : (s.cluster c).clock.cstate ≤ 2) :
    Answers (execHoldRun c true s) (fun t => (t.cluster c).clock.cstate = 0) := by
  rw [execHoldRun, if_pos hc]
  obtain ⟨t, hclock, hcan, heq⟩ := s.setHoldRun_eq c true
  refine Answers.next ?_
  rw [heq, if_pos ⟨rfl, hcan.trans hwake⟩]
  exact State.cstate_wake (by rw [hclock]; exact hstate)

theorem execDeepIdleEntry_enters {s : State} (hen : s.pwr.deepEn = true) (hready : s.dev.ready = true) (hout : s.pwr.deepIdle = false)
    (hidle : s.commandRuns = false) (hgated : ∀ c, c < 8 → (s.cluster c).clock.cstate = 2) (hlinks : s.sliceLinks.any s.active = false) :
    Answers (execDeepIdleEntry s) (fun t => t.pwr.deepIdle = true ∧ t.dram.selfRefresh = true ∧
      t.aoNs = max s.aoNs (s.pwr.idleFrom + s.pwr.deepDelay * 1000000)) := by
  have hall : (List.range 8).all (fun c => (s.cluster c).clock.cstate == 2) = true :=
    List.all_eq_true.2 fun c hc => beq_iff_eq.2 (hgated c (List.mem_range.1 hc))
  rw [execDeepIdleEntry, if_pos ⟨hen, hready, by simp [hout], by simp [hidle], hall, by simp [hlinks]⟩]
  exact Answers.next ⟨rfl, rfl, s.aoNs_reach _⟩

theorem execDeepIdleExit_leaves {s : State} (hin : s.pwr.deepIdle = true) :
    Answers (execDeepIdleExit s) (fun t => t.pwr.deepIdle = false ∧ t.dram.selfRefresh = false ∧ t.aoNs = s.aoNs + 60000) := by
  rw [execDeepIdleExit, State.deepExit, if_pos hin]
  exact Answers.next ⟨rfl, rfl, (s.aoNs_reach _).trans (Nat.max_eq_right (Nat.le_add_right ..))⟩

/-- Settles O49: each state is entered after its delay, and a request brings a cluster back to RUN. -/
theorem clusterStates : Obligations.ClusterStates := by
  unfold Obligations.ClusterStates
  refine ⟨fun c s => execClockGate_gates, fun c s => execPowerGate_gates, fun c s hc hwake hstate => ⟨?_, execHoldRun_wakes hc hwake hstate⟩,
    fun c v s => execHoldRun_sets v, fun s => execDeepIdleEntry_enters, fun s => execDeepIdleExit_leaves⟩
  rw [show exec (.clusterWake c) s = execClusterWake c s from rfl, execClusterWake, if_pos ⟨hc, hwake⟩]
  exact Answers.next (State.cstate_wake hstate)

end Sys2Proof.Machine
end

