-- ==== Sys2Proof/Proofs/UnitOrders.lean ====
section
/-!
PROOFS. What the resets of cores and clusters leave of the permissions that management and containment gave the units
(R26, R422, R492, R526).
-/
set_option autoImplicit false
namespace Sys2Proof.Machine

/-- The permission and the HOLD of each unit. -/
def State.orders (s : State) : Nat → Perm × Bool := fun k => ((s.unit k).perm, (s.unit k).hold)

/-- Every unit has the same permission and HOLD in t as in s. -/
def SameOrders (s t : State) : Prop := t.orders = s.orders

namespace SameOrders

variable {s t u : State}

theorem refl (s : State) : SameOrders s s := rfl
theorem trans (h : SameOrders s t) (k : SameOrders t u) : SameOrders s u := Eq.trans k h

/-- The mask has every bit but that of the field. -/
theorem only (h : Only 8589803519 t u) (hk : SameOrders s t) : SameOrders s u := by
  exact (funext fun k => by rw [State.orders, State.orders, State.unit_of_units (h.units rfl)] : u.orders = t.orders).trans hk

theorem ite {c : Prop} [Decidable c] (h : SameOrders s t) (k : SameOrders s u) : SameOrders s (if c then t else u) := by
  split
  · exact h
  · exact k

theorem ite2 {α : Type} {c : Prop} [Decidable c] {p q : α × State} (h : SameOrders s p.2) (k : SameOrders s q.2) :
    SameOrders s (if c then p else q).2 := by
  split
  · exact h
  · exact k

theorem pair {α : Type} {p : α × State} {a : α} (h : p = (a, t)) (hp : SameOrders s p.2) : SameOrders s t := by
  subst h
  exact hp

theorem foldl {α : Type} {f : State → α → State} {l : List α} (h : ∀ t x, SameOrders s t → SameOrders s (f t x))
    (h0 : SameOrders s t) : SameOrders s (l.foldl f t) := by
  induction l generalizing t with
  | nil => exact h0
  | cons x l ih => exact ih (h _ _ h0)

theorem perm (h : SameOrders s t) (k : Nat) : (t.unit k).perm = (s.unit k).perm := congrArg (·.1) (congrFun h k)

end SameOrders

theorem State.modUnit_sameOrders {s₀ : State} (s : State) (c : Nat) (f : UnitWords → UnitWords)
    (hf : ∀ w, ((f w).perm, (f w).hold) = (w.perm, w.hold)) (hk : SameOrders s₀ s) : SameOrders s₀ (s.modUnit c f) := by
  refine (funext fun k => ?_ : (s.modUnit c f).orders = s.orders).trans hk
  rw [State.orders, State.orders, State.unit_modUnit]
  split
  next h => rw [hf, h]
  · rfl

/-! ### Operations that leave the units alone -/

theorem State.complete_sameOrders {s₀ : State} (s : State) (d : Desc) (st : Status) (result : Nat) (detail : Nat) (guard : Nat) (cluster : Nat)
    (hk : SameOrders s₀ s) : SameOrders s₀ (State.complete s d st result detail guard cluster) :=
  .only (State.complete_only (hm := by decide) (hk := .refl _ _) ..) hk

theorem State.stopAt_sameOrders {s₀ : State} (s : State) (c : Nat)
    (hk : SameOrders s₀ s) : SameOrders s₀ (State.stopAt s c) :=
  .only (State.stopAt_only (hm := by decide) (hk := .refl _ _) ..) hk

theorem State.haltSeq_sameOrders {s₀ : State} (s : State) (c : Nat) (st : Status) (cause : Nat)
    (hk : SameOrders s₀ s) : SameOrders s₀ (State.haltSeq s c st cause) :=
  .only (State.haltSeq_only (hm := by decide) (hk := .refl _ _) ..) hk

theorem State.beginLayer_sameOrders {s₀ : State} (s : State) (p : Nat)
    (hk : SameOrders s₀ s) : SameOrders s₀ (State.beginLayer s p) :=
  .only (State.beginLayer_only (hm := by decide) (hk := .refl _ _) ..) hk

theorem State.retryStart_sameOrders {s₀ : State} (s : State) (c : Nat)
    (hk : SameOrders s₀ s) : SameOrders s₀ (State.retryStart s c) :=
  .only (State.retryStart_only (hm := by decide) (hk := .refl _ _) ..) hk

theorem State.serviceLayers_sameOrders {s₀ : State} (s : State) (c : Nat)
    (hk : SameOrders s₀ s) : SameOrders s₀ (State.serviceLayers s c) :=
  .only (State.serviceLayers_only (hm := by decide) (hk := .refl _ _) ..) hk

theorem State.modCore_sameOrders {s₀ : State} (s : State) (p : Nat) (f : Core → Core)
    (hk : SameOrders s₀ s) : SameOrders s₀ (State.modCore s p f) :=
  .only (State.modCore_only (hm := by decide) (hk := .refl _ _) ..) hk

theorem State.releaseBuffers_sameOrders {s₀ : State} (s : State) (c : Nat) (bs : List Nat)
    (hk : SameOrders s₀ s) : SameOrders s₀ (State.releaseBuffers s c bs) :=
  .only (State.releaseBuffers_only (hm := by decide) (hk := .refl _ _) ..) hk

theorem State.retireLayer_sameOrders {s₀ : State} (s : State) (p : Nat) (st : Status)
    (hk : SameOrders s₀ s) : SameOrders s₀ (State.retireLayer s p st) :=
  .only (State.retireLayer_only (hm := by decide) (hk := .refl _ _) ..) hk

theorem State.resetEvent_sameOrders {s₀ : State} (s : State) (kind source : Nat) (interrupted : Bool) (entries coins flushed : Nat)
    (hk : SameOrders s₀ s) : SameOrders s₀ (State.resetEvent s kind source interrupted entries coins flushed) :=
  .only (State.resetEvent_only (hm := by decide) (hk := .refl _ _) ..) hk

theorem State.modSeq_sameOrders {s₀ : State} (s : State) (c : Nat) (f : Sequencer → Sequencer)
    (hk : SameOrders s₀ s) : SameOrders s₀ (State.modSeq s c f) :=
  .only (State.modSeq_only (hm := by decide) (hk := .refl _ _) ..) hk

theorem State.ownerReset_sameOrders {s₀ : State} (s : State) (c : Nat) (wake : Bool)
    (hk : SameOrders s₀ s) : SameOrders s₀ (State.ownerReset s c wake).2 :=
  .only (State.ownerReset_only (hm := by decide) (hk := .refl _ _) ..) hk

theorem State.endWindow_sameOrders {s₀ : State} (s : State) (c : Nat)
    (hk : SameOrders s₀ s) : SameOrders s₀ (State.endWindow s c) :=
  .only (State.endWindow_only (hm := by decide) (hk := .refl _ _) ..) hk

theorem State.wake_sameOrders {s₀ : State} (s : State) (c : Nat)
    (hk : SameOrders s₀ s) : SameOrders s₀ (State.wake s c) :=
  .only (State.wake_only (hm := by decide) (hk := .refl _ _) ..) hk

theorem State.flushCrossings_sameOrders {s₀ : State} (s : State) (hit : Nat → Bool)
    (hk : SameOrders s₀ s) : SameOrders s₀ (State.flushCrossings s hit).2 :=
  .only (State.flushCrossings_only (hm := by decide) (hk := .refl _ _) ..) hk

theorem State.closeWindow_sameOrders {s₀ : State} (s : State) (c : EventClass) (source : Nat)
    (hk : SameOrders s₀ s) : SameOrders s₀ (State.closeWindow s c source) :=
  .only (State.closeWindow_only (hm := by decide) (hk := .refl _ _) ..) hk

theorem State.detect_sameOrders {s₀ : State} (s : State) (c : EventClass) (source : Nat) (data : List (Nat × Nat))
    (hk : SameOrders s₀ s) : SameOrders s₀ (State.detect s c source data) :=
  .only (State.detect_only (hm := by decide) (hk := .refl _ _) ..) hk

/-! ### Fences that end, and resets -/

theorem State.fenceDone_sameOrders {s₀ : State} (s : State) (u : UnitName)
    (hk : SameOrders s₀ s) : SameOrders s₀ (State.fenceDone s u) := by
  unfold State.fenceDone
  repeat' (first
    | with_reducible assumption
    | with_reducible first | refine State.modUnit_sameOrders (hf := fun _ => rfl) (hk := ?_) .. | refine State.complete_sameOrders (hk := ?_) ..
    | with_reducible refine SameOrders.ite ?_ ?_
    | split)

theorem State.fencesDone_sameOrders {s₀ : State} (s : State)
    (hk : SameOrders s₀ s) : SameOrders s₀ (State.fencesDone s) := by
  unfold State.fencesDone
  repeat' (first
    | with_reducible assumption
    | with_reducible refine State.fenceDone_sameOrders (hk := ?_) ..
    | with_reducible refine SameOrders.foldl (fun _ _ _ => ?_) ?_
    | split)

theorem State.afterLayer_sameOrders {s₀ : State} (s : State) (p : Nat) (st : Status)
    (hk : SameOrders s₀ s) : SameOrders s₀ (State.afterLayer s p st) := by
  unfold State.afterLayer
  repeat' (first
    | with_reducible assumption
    | with_reducible first | refine State.fencesDone_sameOrders (hk := ?_) .. | refine State.stopAt_sameOrders (hk := ?_) .. | refine State.haltSeq_sameOrders (hk := ?_) .. | refine State.beginLayer_sameOrders (hk := ?_) .. | refine State.retryStart_sameOrders (hk := ?_) .. | refine State.serviceLayers_sameOrders (hk := ?_) ..
    | with_reducible refine SameOrders.ite ?_ ?_
    | dsimp only)

theorem State.resetCore_sameOrders {s₀ : State} (s : State) (p : Nat)
    (hk : SameOrders s₀ s) : SameOrders s₀ (State.resetCore s p).2 := by
  unfold State.resetCore
  repeat' (first
    | with_reducible assumption
    | with_reducible first | refine State.modCore_sameOrders (hk := ?_) .. | refine State.modUnit_sameOrders (hf := fun _ => rfl) (hk := ?_) .. | refine State.releaseBuffers_sameOrders (hk := ?_) .. | refine State.retireLayer_sameOrders (hk := ?_) .. | refine State.afterLayer_sameOrders (hk := ?_) ..
    | with_reducible refine SameOrders.ite ?_ ?_
    | split
    | dsimp only)

theorem State.coreReset_sameOrders {s₀ : State} (s : State) (p : Nat)
    (hk : SameOrders s₀ s) : SameOrders s₀ (State.coreReset s p) := by
  unfold State.coreReset
  repeat' (first
    | with_reducible assumption
    | with_reducible first | refine State.resetEvent_sameOrders (hk := ?_) .. | refine State.resetCore_sameOrders (hk := ?_) ..
    | split
    | dsimp only)

theorem State.resetCluster_sameOrders {s₀ : State} (s : State) (c : Nat) (wake : Bool)
    (hk : SameOrders s₀ s) : SameOrders s₀ (State.resetCluster s c wake).2.2 := by
  unfold State.resetCluster
  repeat' (first
    | with_reducible assumption
    | with_reducible first | refine State.modSeq_sameOrders (hk := ?_) .. | refine State.modCore_sameOrders (hk := ?_) .. | refine State.modUnit_sameOrders (hf := fun _ => rfl) (hk := ?_) .. | refine State.ownerReset_sameOrders (hk := ?_) .. | refine State.endWindow_sameOrders (hk := ?_) .. | refine State.fencesDone_sameOrders (hk := ?_) .. | refine State.releaseBuffers_sameOrders (hk := ?_) .. | refine State.haltSeq_sameOrders (hk := ?_) .. | refine State.retireLayer_sameOrders (hk := ?_) ..
    | with_reducible refine SameOrders.foldl (fun _ _ _ => ?_) ?_
    | split
    | dsimp only)

theorem State.clusterReset_sameOrders {s₀ : State} (s : State) (c : Nat)
    (hk : SameOrders s₀ s) : SameOrders s₀ (State.clusterReset s c) := by
  unfold State.clusterReset
  repeat' (first
    | with_reducible assumption
    | with_reducible first | refine State.wake_sameOrders (hk := ?_) .. | refine State.flushCrossings_sameOrders (hk := ?_) .. | refine State.resetEvent_sameOrders (hk := ?_) .. | refine State.resetCluster_sameOrders (hk := ?_) ..
    | split
    | dsimp only)

end Sys2Proof.Machine
end

