-- ==== Sys2Proof/Proofs/Rails.lean ====
section
/-!
PROOFS. Regulator readings, rails out of range, and accesses of stopped domains (15_power_and_clocks.md, R476, R482; R494, R499).
-/
set_option autoImplicit false
namespace Sys2Proof.Machine

/-! ### Readings (R476) -/

theorem State.fixedMw_set (s : State) :
    (s.modPwr (fun p => { p with fixedMw := s.fixedNow })).pwr.fixedMw = (s.modPwr (fun p => { p with fixedMw := s.fixedNow })).fixedNow := rfl

/-- What the device makes of its readings leaves the rails and settles P_fixed by them (R470). -/
theorem State.rails_powerRead (s : State) : s.powerRead.rails = s.rails ∧ s.powerRead.pwr.fixedMw = s.powerRead.fixedNow := by
  refine ⟨(State.powerRead_only (hm := Nat.and_self _) (hk := .refl _ s) ..).rails rfl, ?_⟩
  rw [State.powerRead]
  exact State.fixedMw_set _

theorem State.railReads_one {s : State} {r : Nat} (hr : r < 18) (x : Option (Nat × Nat)) : s.railReads [(r, x)] = s.railRead (r, x) := by
  rw [State.railReads, List.filter_cons_of_pos (by simpa using hr)]
  rfl

theorem State.rails_railRead_some (s : State) (r mv da : Nat) :
    (s.railRead (r, some (mv, da))).rails = { s.rails with
      silent := tset s.rails.silent 0 r 0, mv := tset s.rails.mv 0 r mv, da := tset s.rails.da 0 r da } := rfl

theorem State.rails_railRead_none (s : State) (r : Nat) :
    (s.railRead (r, none)).rails = { s.rails with silent := tset s.rails.silent 0 r (satAdd 0xFFFF (tget s.rails.silent 0 r) 1) } := by
  unfold State.railRead
  dsimp only
  split
  · exact (State.log_only (hm := Nat.and_self _) (hk := .refl _ _) ..).rails rfl
  · rfl

theorem execRegulatorRead_reads {s : State} {r : Nat} (mv da : Nat) (hr : r < 18) :
    Answers (execRegulatorRead [(r, some (mv, da))] s) (fun t => tget t.rails.mv 0 r = mv ∧ tget t.rails.da 0 r = da ∧
      tget t.rails.silent 0 r = 0 ∧ t.pwr.fixedMw = t.fixedNow) := by
  rw [execRegulatorRead, State.railReads_one hr]
  obtain ⟨hrails, hfixed⟩ := (s.railRead (r, some (mv, da))).rails_powerRead
  refine Answers.next ⟨?_, ?_, ?_, hfixed⟩ <;> rw [hrails, State.rails_railRead_some, tget_tset, if_pos rfl]

theorem execRegulatorRead_silent {s : State} {r : Nat} (hr : r < 18) :
    Answers (execRegulatorRead [(r, none)] s) (fun t => tget t.rails.silent 0 r = satAdd 0xFFFF (tget s.rails.silent 0 r) 1) := by
  rw [execRegulatorRead, State.railReads_one hr]
  refine Answers.next ?_
  rw [(State.rails_powerRead _).1, State.rails_railRead_none, tget_tset, if_pos rfl]

/-! ### Rails out of range (R494, R499) -/

theorem contains_filter_ne (l : List Nat) (r : Nat) : (l.filter (· != r)).contains r = false := by
  rw [Bool.eq_false_iff, ne_eq, List.contains_iff_mem, List.mem_filter]
  simp

theorem State.rails_detect (s : State) (c : EventClass) (source : Nat) (data : List (Nat × Nat)) : (s.detect c source data).rails = s.rails :=
  (State.detect_only (hm := Nat.and_self _) (hk := .refl _ s) ..).rails rfl

theorem execRailUndervoltage_low {s : State} {r : Nat} (hr : r < 14) (hen : s.rails.enabled.contains r = true)
    (hok : s.rails.low.contains r = false) :
    Answers (execRailUndervoltage r s) (fun t => t.rails.low = s.rails.low ++ [r] ∧
      (isClusterRail r = true → (t.cluster (r - 3)).clock.stopped = true)) := by
  rw [execRailUndervoltage, if_pos ⟨hr, hen, by rw [hok]; exact Bool.false_ne_true⟩]
  dsimp only
  by_cases hcluster : isClusterRail r = true
  · rw [if_pos hcluster]
    refine Answers.next ⟨?_, fun _ => ?_⟩
    · rw [State.modClock_rails, State.span_rails, State.rails_detect]
    · rw [State.clock_modClock_self]
  · rw [if_neg hcluster]
    exact Answers.next ⟨rfl, fun h => absurd h hcluster⟩

theorem execRailRecovery_recovers {s : State} {r : Nat} (hlow : s.rails.low.contains r = true) :
    Answers (execRailRecovery r s) (fun t => t.rails.low.contains r = false ∧
      (isClusterRail r = true → s.err.fatal = false → (t.cluster (r - 3)).clock.stopped = false)) := by
  rw [execRailRecovery, if_pos hlow]
  dsimp only
  split
  · refine Answers.next ⟨contains_filter_ne _ _, fun _ _ => ?_⟩
    rw [State.clock_modClock_self]
  next h => exact Answers.next ⟨contains_filter_ne _ _, fun hcluster hfatal => absurd ⟨hcluster, by rw [Bool.not_eq_true]; exact hfatal⟩ h⟩

/-- The fatal state is entered for good (R497). -/
theorem State.fatal_enterFatal (s : State) : s.enterFatal.err.fatal = true := by
  by_cases h : s.err.fatal = true
  · rw [State.enterFatal, if_pos h]
    exact h
  · unfold State.enterFatal
    extract_lets s₁ s₂ d s₃
    rw [if_neg h]
    have h₃ : Held s₁ (s₃.stopRings) := State.stopRings_held (hk := .set_dram (hd := Held.kept) (h := State.modClusters_held (hk := .refl s₁) ..) ..) ..
    have hall : Held s₁ ((List.range 8).foldl (fun s n => if (s.port n).link.st = .down then s else s.linkLeaves n .down) s₃.stopRings) :=
      .foldl (fun t n ht => .ite ht (State.linkLeaves_held (hk := ht) ..)) h₃
    have hset : s₁.err.fatal = true := rfl
    exact hall.fatal hset

/-- A cluster that loses its power is ordered off, and its clock stands (R499, R525). -/
theorem State.clusterOff_off (s : State) (c : Nat) :
    ((s.clusterOff c).unit (clusterName c).code).perm = .powerOff ∧ ((s.clusterOff c).cluster c).clock.stopped = true := by
  unfold State.clusterOff
  extract_lets s₁ s₂ good s₃
  constructor
  · rw [(State.fencesDone_sameOrders (hk := .refl _) ..).perm]
    have hunit : (s₂.unit (clusterName c).code) = { s₁.unit (clusterName c).code with perm := .powerOff } := by
      rw [State.unit_modUnit, if_pos rfl]
    exact congrArg (·.perm) hunit
  · rw [State.cluster_of_clusters ((State.fencesDone_only (hm := Nat.and_self _) (hk := .refl _ _) ..).clusters rfl), State.clock_modClock_self]

theorem State.low_clusterOff (s : State) (c : Nat) : (s.clusterOff c).rails.low = s.rails.low := by
  unfold State.clusterOff
  extract_lets s₁ s₂ good s₃
  have h₁ : s₁.rails = s.rails := by
    rw [(State.clearCores_only (hm := Nat.and_self _) (hk := .refl _ _) ..).rails rfl,
      (State.haltSeq_only (hm := Nat.and_self _) (hk := .refl _ _) ..).rails rfl]
  rw [(State.fencesDone_only (hm := Nat.and_self _) (hk := .refl _ _) ..).rails rfl]
  rw [State.modClock_rails]
  exact (show s₃.rails.low = s₁.rails.low from rfl).trans (congrArg Rails.low h₁)

theorem execRailFault_off {s : State} {r : Nat} (hr : r < 14) (hlow : s.rails.low.contains r = true) :
    Answers (execRailFault r false s) (fun t => t.rails.low.contains r = false ∧
      (isClusterRail r = true → (t.unit (clusterName (r - 3)).code).perm = .powerOff ∧ (t.cluster (r - 3)).clock.stopped = true) ∧
      (isClusterRail r = false → t.err.fatal = true)) := by
  unfold execRailFault
  extract_lets low s₁ s₂ s₃ s₄
  have hlow₃ : s₃.rails.low = s.rails.low.filter (· != r) := congrArg Rails.low (State.rails_detect ..)
  rw [if_pos ⟨hr, Or.inl hlow⟩]
  cases hcluster : isClusterRail r with
  | true =>
    have h₄ : s₄ = s₃.clusterOff (r - 3) := if_pos hcluster
    obtain ⟨hperm, hstop⟩ := s₃.clusterOff_off (r - 3)
    refine Answers.next ⟨?_, fun _ => ⟨?_, ?_⟩, nofun⟩
    · rw [State.closeWindow, State.modErr_rails, h₄, State.low_clusterOff, hlow₃]
      exact contains_filter_ne _ _
    · rw [State.closeWindow, State.unit_modErr, h₄, hperm]
    · rw [State.closeWindow, State.cluster_modErr, h₄, hstop]
  | false =>
    have h₄ : s₄ = s₃.enterFatal := if_neg (Bool.eq_false_iff.1 hcluster)
    refine Answers.next ⟨?_, nofun, fun _ => ?_⟩
    · rw [State.closeWindow, State.modErr_rails, h₄, (State.enterFatal_only (hm := Nat.and_self _) (hk := .refl _ s₃) ..).rails rfl, hlow₃]
      exact contains_filter_ne _ _
    · rw [State.closeWindow, State.modErr_err, h₄]
      exact s₃.fatal_enterFatal

/-! ### Stopped domains (R482) -/

/-- A stopped domain is counted, and nothing else of the rails or of time is touched. -/
theorem State.cdcTimeout_counts (s : State) (domain addr : Nat) :
    (s.cdcTimeout domain addr).rails = { s.rails with cdcTimeouts := satAdd 0xFFFF s.rails.cdcTimeouts 1 } ∧
      (s.cdcTimeout domain addr).aoNs = s.aoNs := by
  have hlog := State.detectLimited_only (({ s with rails := { s.rails with cdcTimeouts := satAdd 0xFFFF s.rails.cdcTimeouts 1 } } : State).span (ctDev 7) 1)
    .cdcTimeout domain (srcBlock 7) [(1, domain), (8, addr)] (hm := Nat.and_self _) (hk := .refl _ _)
  exact ⟨hlog.rails rfl, hlog.aoNs rfl⟩

theorem State.rails_reach (s : State) (t : Nat) : (s.reach t).rails = s.rails :=
  (State.reach_only (hm := Nat.and_self _) (hk := .refl _ s) ..).rails rfl

theorem execCdcTimeout_command {s : State} {domain addr : Nat}
    (hnone : s.rails.crossing.find? (fun x => x.domain == domain && x.addr == addr) = none) :
    Answers (execCdcTimeout domain addr none s) (fun t => t.rails.cdcTimeouts = satAdd 0xFFFF s.rails.cdcTimeouts 1 ∧ t.aoNs = s.aoNs + 4000) := by
  rw [execCdcTimeout, hnone]
  obtain ⟨hrails, hao⟩ := (s.reach (s.aoNs + 4000)).cdcTimeout_counts domain addr
  refine Answers.next ⟨?_, ?_⟩
  · dsimp only
    rw [hrails, State.rails_reach]
  · dsimp only
    rw [hao, State.aoNs_reach, Nat.max_eq_right (Nat.le_add_right ..)]

theorem execCdcTimeout_crossing {s : State} {domain addr : Nat} {cmd : Option Desc} {x : Crossing}
    (hx : s.rails.crossing.find? (fun x => x.domain == domain && x.addr == addr) = some x) :
    Answers (execCdcTimeout domain addr cmd s) (fun t => t.rails.cdcTimeouts = satAdd 0xFFFF s.rails.cdcTimeouts 1 ∧
      t.aoNs = max s.aoNs x.deadline ∧ t.rails.crossing = s.rails.crossing.erase x ∧
      (x.bytes ≠ 0 → ∃ before, t.out = before ++ [.readData (2 ^ (8 * x.bytes) - 1) false])) := by
  rw [execCdcTimeout, hx]
  dsimp only
  generalize hu : ({ s.reach x.deadline with rails := { (s.reach x.deadline).rails with crossing := (s.reach x.deadline).rails.crossing.erase x } } : State) = u
  have hurails : u.rails = { s.rails with crossing := s.rails.crossing.erase x } := by rw [← hu, ← State.rails_reach s x.deadline]
  have huao : u.aoNs = max s.aoNs x.deadline := by rw [← hu, ← State.aoNs_reach]
  obtain ⟨hrails, hao⟩ := u.cdcTimeout_counts x.domain x.addr
  rw [hurails] at hrails
  rw [State.crossed]
  split
  next hzero => exact Answers.next ⟨by rw [hrails], hao.trans huao, by rw [hrails], fun h => absurd hzero h⟩
  · refine Answers.next ⟨?_, hao.trans huao, ?_, fun _ => ⟨_, rfl⟩⟩ <;> rw [State.emit_rails, hrails]

/-- Settles O50: what a rail or a crossing changes stays as the events around it are logged. -/
theorem railEvents : Obligations.RailEvents := by
  unfold Obligations.RailEvents
  exact ⟨fun r mv da s hr => ⟨execRegulatorRead_reads mv da hr, execRegulatorRead_silent hr⟩, fun r s => execRailUndervoltage_low,
    fun r s => execRailRecovery_recovers, fun r s => execRailFault_off, fun domain addr s => execCdcTimeout_command,
    fun domain addr cmd x s => execCdcTimeout_crossing⟩

end Sys2Proof.Machine
end

