-- ==== Sys2Proof/Proofs/CoreStores.lean ====
section
/-!
PROOFS. What the end of a layer leaves of the configuration stores of the cores: the LCB of every core stays until a store lands
or the core is reset, and its tally counts its own layers alone (05_program_model.md, R164, R178, R422).
-/
set_option autoImplicit false
namespace Sys2Proof.Machine

/-- What the end of a layer leaves on a core once it is retired: its LCB, the status of its last layer, and how many have ended. -/
def Core.record (k : Core) : List Byte × Status × Nat := (k.lcb, k.lastStatus, k.layers)

/-- The record of each core. -/
def State.stores (s : State) : Nat → List Byte × Status × Nat := fun p => (s.core p).record

/-- Every core has the same LCB and the same tally of its layers in t as in s. -/
def SameStores (s t : State) : Prop := t.stores = s.stores

namespace SameStores

variable {s t u : State}

theorem refl (s : State) : SameStores s s := rfl
theorem trans (h : SameStores s t) (k : SameStores t u) : SameStores s u := Eq.trans k h

/-- The mask has every bit but that of the field. -/
theorem only (h : Only 8589869055 t u) (hk : SameStores s t) : SameStores s u := by
  exact (funext fun p => by rw [State.stores, State.stores, State.core, State.core, h.cores rfl] : u.stores = t.stores).trans hk

theorem ite {c : Prop} [Decidable c] (h : SameStores s t) (k : SameStores s u) : SameStores s (if c then t else u) := by
  split
  · exact h
  · exact k

theorem ite2 {α : Type} {c : Prop} [Decidable c] {p q : α × State} (h : SameStores s p.2) (k : SameStores s q.2) :
    SameStores s (if c then p else q).2 := by
  split
  · exact h
  · exact k

theorem pair {α : Type} {p : α × State} {a : α} (h : p = (a, t)) (hp : SameStores s p.2) : SameStores s t := by
  subst h
  exact hp

theorem foldl {α : Type} {f : State → α → State} {l : List α} (h : ∀ t x, SameStores s t → SameStores s (f t x))
    (h0 : SameStores s t) : SameStores s (l.foldl f t) := by
  induction l generalizing t with
  | nil => exact h0
  | cons x l ih => exact ih (h _ _ h0)

theorem lcb (h : SameStores s t) (p : Nat) : (t.core p).lcb = (s.core p).lcb := congrArg (·.1) (congrFun h p)
theorem tally (h : SameStores s t) (p : Nat) : (t.core p).lastStatus = (s.core p).lastStatus ∧ (t.core p).layers = (s.core p).layers :=
  ⟨congrArg (·.2.1) (congrFun h p), congrArg (·.2.2) (congrFun h p)⟩

end SameStores

theorem State.modCore_sameStores {s₀ : State} (s : State) (p : Nat) (f : Core → Core) (hf : ∀ k, (f k).record = k.record)
    (hk : SameStores s₀ s) : SameStores s₀ (s.modCore p f) := by
  refine (funext fun k => ?_ : (s.modCore p f).stores = s.stores).trans hk
  rw [State.stores, State.stores, State.core_modCore]
  split
  next h => rw [hf, h]
  · rfl

theorem Core.record_select (k : Core) (i : Nat) : (k.select i).record = k.record := by
  rw [Core.select]
  split
  · rfl
  · split <;> rfl

theorem Core.record_unstall (k : Core) (i : Nat) : (k.unstall i).record = k.record := by
  rw [Core.unstall]
  split
  · exact Core.record_select ..
  · rfl

/-! ### Operations that leave the cores alone -/

theorem State.modLb_sameStores {s₀ : State} (s : State) (c b : Nat) (f : LandingBuf → LandingBuf)
    (hk : SameStores s₀ s) : SameStores s₀ (State.modLb s c b f) :=
  .only (State.modLb_only (hm := by decide) (hk := .refl _ _) ..) hk

theorem State.modRtr_sameStores {s₀ : State} (s : State) (f : Router → Router)
    (hk : SameStores s₀ s) : SameStores s₀ (State.modRtr s f) :=
  .only (State.modRtr_only (hm := by decide) (hk := .refl _ _) ..) hk

theorem State.modCol_sameStores {s₀ : State} (s : State) (f : Collect → Collect)
    (hk : SameStores s₀ s) : SameStores s₀ (State.modCol s f) :=
  .only (State.modCol_only (hm := by decide) (hk := .refl _ _) ..) hk

theorem State.toSequencer_sameStores {s₀ : State} (s : State) (c : Nat) (via : Via) (r : CoinResult)
    (hk : SameStores s₀ s) : SameStores s₀ (State.toSequencer s c via r) :=
  .only (State.toSequencer_only (hm := by decide) (hk := .refl _ _) ..) hk

theorem State.modCluster_sameStores {s₀ : State} (s : State) (c : Nat) (f : Cluster → Cluster)
    (hk : SameStores s₀ s) : SameStores s₀ (State.modCluster s c f) :=
  .only (State.modCluster_only (hm := by decide) (hk := .refl _ _) ..) hk

theorem State.log_sameStores {s₀ : State} (s : State) (c : EventClass) (source : Nat) (data : List (Nat × Nat))
    (hk : SameStores s₀ s) : SameStores s₀ (State.log s c source data) :=
  .only (State.log_only (hm := by decide) (hk := .refl _ _) ..) hk

theorem State.inject_sameStores {s₀ : State} (s : State) (p : Packet)
    (hk : SameStores s₀ s) : SameStores s₀ (State.inject s p).2 :=
  .only (State.inject_only (hm := by decide) (hk := .refl _ _) ..) hk

theorem State.modQueue_sameStores {s₀ : State} (s : State) (c q : Nat) (f : Queue → Queue)
    (hk : SameStores s₀ s) : SameStores s₀ (State.modQueue s c q f) :=
  .only (State.modQueue_only (hm := by decide) (hk := .refl _ _) ..) hk

theorem State.modSeq_sameStores {s₀ : State} (s : State) (c : Nat) (f : Sequencer → Sequencer)
    (hk : SameStores s₀ s) : SameStores s₀ (State.modSeq s c f) :=
  .only (State.modSeq_only (hm := by decide) (hk := .refl _ _) ..) hk

theorem State.modPwr_sameStores {s₀ : State} (s : State) (f : Power → Power)
    (hk : SameStores s₀ s) : SameStores s₀ (State.modPwr s f) :=
  .only (State.modPwr_only (hm := by decide) (hk := .refl _ _) ..) hk

theorem State.using_sameStores {s₀ : State} (s : State) (c : Nat)
    (hk : SameStores s₀ s) : SameStores s₀ (State.using s c) :=
  .only (State.using_only (hm := by decide) (hk := .refl _ _) ..) hk

theorem State.copyMem_sameStores {s₀ : State} (s : State) (src dst n : Nat)
    (hk : SameStores s₀ s) : SameStores s₀ (State.copyMem s src dst n) :=
  .only (State.copyMem_only (hm := by decide) (hk := .refl _ _) ..) hk

theorem State.sendRead_sameStores {s₀ : State} (s : State) (dest : Coord) (src : Nat) (w : ReadWait)
    (hk : SameStores s₀ s) : SameStores s₀ (State.sendRead s dest src w).2 :=
  .only (State.sendRead_only (hm := by decide) (hk := .refl _ _) ..) hk

theorem State.modPurse_sameStores {s₀ : State} (s : State) (c : Nat) (f : Purse → Purse)
    (hk : SameStores s₀ s) : SameStores s₀ (State.modPurse s c f) :=
  .only (State.modPurse_only (hm := by decide) (hk := .refl _ _) ..) hk

theorem State.span_sameStores {s₀ : State} (s : State) (key n : Nat)
    (hk : SameStores s₀ s) : SameStores s₀ (State.span s key n) :=
  .only (State.span_only (hm := by decide) (hk := .refl _ _) ..) hk

theorem State.fencesDone_sameStores {s₀ : State} (s : State)
    (hk : SameStores s₀ s) : SameStores s₀ (State.fencesDone s) :=
  .only (State.fencesDone_only (hm := by decide) (hk := .refl _ _) ..) hk

theorem State.closeWindow_sameStores {s₀ : State} (s : State) (c : EventClass) (source : Nat)
    (hk : SameStores s₀ s) : SameStores s₀ (State.closeWindow s c source) :=
  .only (State.closeWindow_only (hm := by decide) (hk := .refl _ _) ..) hk

theorem State.resetEvent_sameStores {s₀ : State} (s : State) (kind source : Nat) (interrupted : Bool) (entries coins flushed : Nat)
    (hk : SameStores s₀ s) : SameStores s₀ (State.resetEvent s kind source interrupted entries coins flushed) :=
  .only (State.resetEvent_only (hm := by decide) (hk := .refl _ _) ..) hk

theorem State.modUnit_sameStores {s₀ : State} (s : State) (u : Nat) (f : UnitWords → UnitWords)
    (hk : SameStores s₀ s) : SameStores s₀ (State.modUnit s u f) :=
  .only (State.modUnit_only (hm := by decide) (hk := .refl _ _) ..) hk

/-! ### What follows a layer -/

theorem State.wakeBuffer_sameStores {s₀ : State} (s : State) (c b : Nat)
    (hk : SameStores s₀ s) : SameStores s₀ (State.wakeBuffer s c b) := by
  unfold State.wakeBuffer
  repeat' (first
    | with_reducible assumption
    | with_reducible refine State.modCore_sameStores (hf := fun _ => Core.record_unstall _ _) (hk := ?_) ..
    | with_reducible refine SameStores.foldl (fun _ _ _ => ?_) ?_
    | split
    | dsimp only)

theorem State.emptyBuffer_sameStores {s₀ : State} (s : State) (c b : Nat)
    (hk : SameStores s₀ s) : SameStores s₀ (State.emptyBuffer s c b) := by
  unfold State.emptyBuffer
  repeat' (first
    | with_reducible assumption
    | with_reducible first | refine State.modLb_sameStores (hk := ?_) .. | refine State.wakeBuffer_sameStores (hk := ?_) ..
    | split)

theorem State.cancelBuffer_sameStores {s₀ : State} (s : State) (c b : Nat)
    (hk : SameStores s₀ s) : SameStores s₀ (State.cancelBuffer s c b) := by
  unfold State.cancelBuffer
  repeat' (first
    | with_reducible assumption
    | with_reducible first | refine State.modRtr_sameStores (hk := ?_) .. | refine State.emptyBuffer_sameStores (hk := ?_) ..
    | split)

theorem State.cancelFills_sameStores {s₀ : State} (s : State) (c : Nat)
    (hk : SameStores s₀ s) : SameStores s₀ (State.cancelFills s c) := by
  unfold State.cancelFills
  repeat' (first
    | with_reducible assumption
    | with_reducible first | refine State.modCol_sameStores (hk := ?_) .. | refine State.cancelBuffer_sameStores (hk := ?_) ..
    | with_reducible refine SameStores.foldl (fun _ _ _ => ?_) ?_
    | split
    | dsimp only)

theorem State.spoil_sameStores {s₀ : State} (s : State) (p : Nat) (st : Status)
    (hk : SameStores s₀ s) : SameStores s₀ (State.spoil s p st) := by
  unfold State.spoil
  repeat' (first
    | with_reducible assumption
    | with_reducible refine State.modCore_sameStores (hf := fun _ => rfl) (hk := ?_) ..
    | split)

theorem State.toContext_sameStores {s₀ : State} (s : State) (p i : Nat) (r : CoinResult)
    (hk : SameStores s₀ s) : SameStores s₀ (State.toContext s p i r) := by
  unfold State.toContext
  repeat' (first
    | with_reducible assumption
    | with_reducible first | refine State.modCore_sameStores (hf := fun _ => Core.record_unstall _ _) (hk := ?_) .. | refine State.spoil_sameStores (hk := ?_) ..
    | with_reducible refine SameStores.ite ?_ ?_
    | split
    | dsimp only)

theorem State.toRequester_sameStores {s₀ : State} (s : State) (c : Nat) (who : Requester) (via : Via) (r : CoinResult)
    (hk : SameStores s₀ s) : SameStores s₀ (State.toRequester s c who via r) := by
  unfold State.toRequester
  repeat' (first
    | with_reducible assumption
    | with_reducible first | refine State.toSequencer_sameStores (hk := ?_) .. | refine State.toContext_sameStores (hk := ?_) ..
    | split)

theorem State.replyIn_sameStores {s₀ : State} (s : State) (src : Coord) (q c tag : Nat) (r : CoinResult)
    (hk : SameStores s₀ s) : SameStores s₀ (State.replyIn s src q c tag r) := by
  unfold State.replyIn
  repeat' (first
    | with_reducible assumption
    | with_reducible first | refine State.modCluster_sameStores (hk := ?_) .. | refine State.modRtr_sameStores (hk := ?_) .. | refine State.log_sameStores (hk := ?_) .. | refine State.toRequester_sameStores (hk := ?_) ..
    | split
    | dsimp only)

theorem State.answer_sameStores {s₀ : State} (s : State) (c q : Nat) (who : Requester) (r : CoinResult)
    (hk : SameStores s₀ s) : SameStores s₀ (State.answer s c q who r) := by
  unfold State.answer
  repeat' (first
    | with_reducible assumption
    | with_reducible first | refine State.inject_sameStores (hk := ?_) .. | refine State.toRequester_sameStores (hk := ?_) .. | refine State.replyIn_sameStores (hk := ?_) ..
    | with_reducible refine SameStores.ite ?_ ?_
    | split
    | dsimp only)

theorem State.release_sameStores {s₀ : State} (s : State) (c q : Nat)
    (hk : SameStores s₀ s) : SameStores s₀ (State.release s c q) := by
  unfold State.release
  repeat' (first
    | with_reducible assumption
    | with_reducible first | refine State.answer_sameStores (hk := ?_) .. | refine State.modQueue_sameStores (hk := ?_) ..
    | with_reducible refine SameStores.foldl (fun _ _ _ => ?_) ?_
    | split
    | dsimp only)

theorem State.dropSeqWaits_sameStores {s₀ : State} (s : State) (c : Nat)
    (hk : SameStores s₀ s) : SameStores s₀ (State.dropSeqWaits s c) := by
  unfold State.dropSeqWaits
  repeat' (first
    | with_reducible assumption
    | with_reducible first | refine State.modCluster_sameStores (hk := ?_) .. | refine State.modRtr_sameStores (hk := ?_) .. | refine State.modQueue_sameStores (hk := ?_) .. | refine State.release_sameStores (hk := ?_) ..
    | with_reducible refine SameStores.foldl (fun _ _ _ => ?_) ?_
    | split
    | dsimp only)

theorem State.releaseBuffers_sameStores {s₀ : State} (s : State) (c : Nat) (bs : List Nat)
    (hk : SameStores s₀ s) : SameStores s₀ (State.releaseBuffers s c bs) := by
  unfold State.releaseBuffers
  repeat' (first
    | with_reducible assumption
    | with_reducible refine State.cancelBuffer_sameStores (hk := ?_) ..
    | with_reducible refine SameStores.foldl (fun _ _ _ => ?_) ?_
    | split
    | dsimp only)

theorem State.dropPending_sameStores {s₀ : State} (s : State) (c : Nat)
    (hk : SameStores s₀ s) : SameStores s₀ (State.dropPending s c) := by
  unfold State.dropPending
  repeat' (first
    | with_reducible assumption
    | with_reducible first | refine State.modCore_sameStores (hf := fun _ => rfl) (hk := ?_) .. | refine State.releaseBuffers_sameStores (hk := ?_) ..
    | with_reducible refine SameStores.ite ?_ ?_
    | with_reducible refine SameStores.foldl (fun _ _ _ => ?_) ?_
    | split
    | dsimp only)

theorem State.endOn_sameStores {s₀ : State} (s : State) (c : Nat) (st : Status) (cause : Nat) (reported : Bool) (word : W32)
    (hk : SameStores s₀ s) : SameStores s₀ (State.endOn s c st cause reported word) := by
  unfold State.endOn
  repeat' (first
    | with_reducible assumption
    | with_reducible first | refine State.modSeq_sameStores (hk := ?_) .. | refine State.modPwr_sameStores (hk := ?_) .. | refine State.using_sameStores (hk := ?_) .. | refine State.cancelFills_sameStores (hk := ?_) .. | refine State.dropSeqWaits_sameStores (hk := ?_) .. | refine State.dropPending_sameStores (hk := ?_) ..
    | split
    | dsimp only)

theorem State.stopAt_sameStores {s₀ : State} (s : State) (c : Nat)
    (hk : SameStores s₀ s) : SameStores s₀ (State.stopAt s c) := by
  unfold State.stopAt
  repeat' (first
    | with_reducible assumption
    | with_reducible refine State.endOn_sameStores (hk := ?_) ..
    | with_reducible refine SameStores.ite ?_ ?_)

theorem State.haltSeq_sameStores {s₀ : State} (s : State) (c : Nat) (st : Status) (cause : Nat)
    (hk : SameStores s₀ s) : SameStores s₀ (State.haltSeq s c st cause) := by
  unfold State.haltSeq
  repeat' (first
    | with_reducible assumption
    | with_reducible first | refine State.modSeq_sameStores (hk := ?_) .. | refine State.dropSeqWaits_sameStores (hk := ?_) .. | refine State.dropPending_sameStores (hk := ?_) .. | refine State.endOn_sameStores (hk := ?_) .. | refine State.stopAt_sameStores (hk := ?_) ..
    | with_reducible refine SameStores.ite ?_ ?_
    | with_reducible refine SameStores.foldl (fun _ _ _ => ?_) ?_
    | split
    | dsimp only)

theorem State.beginLayer_sameStores {s₀ : State} (s : State) (p : Nat)
    (hk : SameStores s₀ s) : SameStores s₀ (State.beginLayer s p) := by
  unfold State.beginLayer
  repeat' (first
    | with_reducible assumption
    | with_reducible first | refine State.modCluster_sameStores (hk := ?_) .. | refine State.modCore_sameStores (hf := fun _ => rfl) (hk := ?_) ..
    | with_reducible refine SameStores.ite ?_ ?_
    | split
    | dsimp only)

theorem State.fillFailed_sameStores {s₀ : State} (s : State) (c b : Nat) (st : Status)
    (hk : SameStores s₀ s) : SameStores s₀ (State.fillFailed s c b st) := by
  unfold State.fillFailed
  repeat' (first
    | with_reducible assumption
    | with_reducible first | refine State.modCore_sameStores (hf := fun _ => rfl) (hk := ?_) .. | refine State.modRtr_sameStores (hk := ?_) .. | refine State.modLb_sameStores (hk := ?_) ..
    | with_reducible refine SameStores.foldl (fun _ _ _ => ?_) ?_
    | split
    | dsimp only)

theorem State.filled_sameStores {s₀ : State} (s : State) (c b n : Nat)
    (hk : SameStores s₀ s) : SameStores s₀ (State.filled s c b n) := by
  unfold State.filled
  repeat' (first
    | with_reducible assumption
    | with_reducible first | refine State.using_sameStores (hk := ?_) .. | refine State.modLb_sameStores (hk := ?_) .. | refine State.wakeBuffer_sameStores (hk := ?_) ..
    | with_reducible refine SameStores.ite ?_ ?_
    | split
    | dsimp only)

theorem State.fillPiece_sameStores {s₀ : State} (s : State) (c b : Nat) (dest : Coord) (src dst n : Nat)
    (hk : SameStores s₀ s) : SameStores s₀ (State.fillPiece s c b dest src dst n) := by
  unfold State.fillPiece
  repeat' (first
    | with_reducible assumption
    | with_reducible first | refine State.copyMem_sameStores (hk := ?_) .. | refine State.log_sameStores (hk := ?_) .. | refine State.sendRead_sameStores (hk := ?_) .. | refine State.filled_sameStores (hk := ?_) .. | refine State.fillFailed_sameStores (hk := ?_) ..
    | with_reducible refine SameStores.ite ?_ ?_
    | with_reducible refine SameStores.pair (by assumption) ?_
    | split)

theorem State.issueFill_sameStores {s₀ : State} (s : State) (i : Nat)
    (hk : SameStores s₀ s) : SameStores s₀ (State.issueFill s i) := by
  unfold State.issueFill
  repeat' (first
    | with_reducible assumption
    | with_reducible first | refine State.modCol_sameStores (hk := ?_) .. | refine State.modLb_sameStores (hk := ?_) .. | refine State.fillFailed_sameStores (hk := ?_) .. | refine State.fillPiece_sameStores (hk := ?_) .. | refine State.cancelBuffer_sameStores (hk := ?_) ..
    | with_reducible refine SameStores.ite ?_ ?_
    | with_reducible refine SameStores.foldl (fun _ _ _ => ?_) ?_
    | split
    | dsimp only)

theorem State.runAhead_sameStores {s₀ : State} (s : State) (ahead : List (Nat × Nat))
    (hk : SameStores s₀ s) : SameStores s₀ (State.runAhead s ahead) := by
  unfold State.runAhead
  repeat' (first
    | with_reducible assumption
    | with_reducible refine State.issueFill_sameStores (hk := ?_) ..
    | with_reducible refine SameStores.foldl (fun _ _ _ => ?_) ?_
    | split)

theorem State.place_sameStores {s₀ : State} (s : State) (c : Nat) (w : WaitingStart) (div : Nat)
    (hk : SameStores s₀ s) : SameStores s₀ (State.place s c w div) := by
  unfold State.place
  repeat' (first
    | with_reducible assumption
    | with_reducible first | refine State.modCluster_sameStores (hk := ?_) .. | refine State.modCore_sameStores (hf := fun _ => rfl) (hk := ?_) .. | refine State.modLb_sameStores (hk := ?_) .. | refine State.runAhead_sameStores (hk := ?_) .. | refine State.beginLayer_sameStores (hk := ?_) ..
    | with_reducible refine SameStores.foldl (fun _ _ _ => ?_) ?_
    | split
    | dsimp only)

theorem State.tryStart_sameStores {s₀ : State} (s : State) (c : Nat) (w : WaitingStart)
    (hk : SameStores s₀ s) : SameStores s₀ (State.tryStart s c w).2 := by
  unfold State.tryStart
  repeat' (first
    | with_reducible assumption
    | with_reducible first | refine State.modSeq_sameStores (hk := ?_) .. | refine State.modPurse_sameStores (hk := ?_) .. | refine State.span_sameStores (hk := ?_) .. | refine State.place_sameStores (hk := ?_) ..
    | with_reducible refine SameStores.ite2 ?_ ?_
    | split
    | dsimp only)

theorem State.retryStart_sameStores {s₀ : State} (s : State) (c : Nat)
    (hk : SameStores s₀ s) : SameStores s₀ (State.retryStart s c) := by
  unfold State.retryStart
  repeat' (first
    | with_reducible assumption
    | with_reducible refine State.tryStart_sameStores (hk := ?_) ..
    | with_reducible refine SameStores.ite ?_ ?_
    | split)

theorem State.serviceLayers_sameStores {s₀ : State} (s : State) (c : Nat)
    (hk : SameStores s₀ s) : SameStores s₀ (State.serviceLayers s c) := by
  unfold State.serviceLayers
  repeat' (first
    | with_reducible assumption
    | with_reducible first | refine State.modSeq_sameStores (hk := ?_) .. | refine State.endOn_sameStores (hk := ?_) ..
    | with_reducible refine SameStores.ite ?_ ?_
    | split
    | dsimp only)

theorem State.afterLayer_sameStores {s₀ : State} (s : State) (p : Nat) (st : Status)
    (hk : SameStores s₀ s) : SameStores s₀ (State.afterLayer s p st) := by
  unfold State.afterLayer
  repeat' (first
    | with_reducible assumption
    | with_reducible first | refine State.fencesDone_sameStores (hk := ?_) .. | refine State.stopAt_sameStores (hk := ?_) .. | refine State.haltSeq_sameStores (hk := ?_) .. | refine State.beginLayer_sameStores (hk := ?_) .. | refine State.retryStart_sameStores (hk := ?_) .. | refine State.serviceLayers_sameStores (hk := ?_) ..
    | with_reducible refine SameStores.ite ?_ ?_
    | dsimp only)

end Sys2Proof.Machine
end

