-- ==== Sys2Proof/Proofs/Errors.lean ====
section
/-!
PROOFS. The comparator of the state words, watchdogs, the controller's restart, alarms and injections (16_errors_and_day_book.md).
-/
set_option autoImplicit false
namespace Sys2Proof.Machine

/-! ### What logging leaves -/

/-- An entry touches what left the device, the ledger, the error registers, the rings and the controller, and nothing else. -/
theorem Only.logged_eq {s t : State} (h : Only 536872592 s t) :
    t = { s with out := t.out, ledger := t.ledger, err := t.err, host := t.host, mgmt := t.mgmt } := by
  obtain ⟨hpending, haoNs, hdevOff, hfree, -, hfuses, hflash, -, hdev, -, -, hjob, hsaved, hpreempt, hpreempts, hclusters, hcores, hunits,
    hhwm, hmem, hdram, hsettle, hdec, hcol, hports, htime, hrtr, hpwr, hrails, -, htel, hsec, hlatches⟩ := h
  rw [← hpending rfl, ← haoNs rfl, ← hdevOff rfl, ← hfree rfl, ← hfuses rfl, ← hflash rfl, ← hdev rfl, ← hjob rfl, ← hsaved rfl,
    ← hpreempt rfl, ← hpreempts rfl, ← hclusters rfl, ← hcores rfl, ← hunits rfl, ← hhwm rfl, ← hmem rfl, ← hdram rfl, ← hsettle rfl,
    ← hdec rfl, ← hcol rfl, ← hports rfl, ← htime rfl, ← hrtr rfl, ← hpwr rfl, ← hrails rfl, ← htel rfl, ← hsec rfl, ← hlatches rfl]

theorem State.log_eq (s : State) (c : EventClass) (source : Nat) (data : List (Nat × Nat)) :
    s.log c source data = { s with
      out := (s.log c source data).out, ledger := (s.log c source data).ledger, err := (s.log c source data).err
      host := (s.log c source data).host, mgmt := (s.log c source data).mgmt } :=
  Only.logged_eq (State.log_only (hm := Nat.and_self _) (hk := .refl _ s) ..)

/-! ### The comparator (R26, R27) -/

/-- Both words of each unit. -/
def State.words (s : State) : UnitName → Perm × ExecWord := fun u => (s.permWord u, s.execWord u)

/-- A unit's execution word does not depend on the other fields of its state words. -/
theorem State.execWord_modUnit {s : State} {k : Nat} {f : UnitWords → UnitWords} (hf : ∀ w, (f w).faulted = w.faulted) (u : UnitName) :
    (s.modUnit k f).execWord u = s.execWord u := by
  have hfaulted : ((s.modUnit k f).unit u.code).faulted = (s.unit u.code).faulted := by
    rw [State.unit_modUnit]
    split
    next hj => rw [hf, hj]
    · rfl
  rw [State.execWord, State.execWord, hfaulted]
  rfl

theorem State.words_log (s : State) (c : EventClass) (source : Nat) (data : List (Nat × Nat)) : (s.log c source data).words = s.words := by
  rw [State.log_eq]
  rfl

/-- A comparison changes no word. -/
theorem State.words_compareUnit (s : State) (u : UnitName) : (s.compareUnit u).words = s.words := by
  rw [State.compareUnit]
  split
  · rfl
  · rw [State.words_log]
    exact funext fun v => Prod.ext (State.permWord_modUnit (f := fun w => { w with mismatch := true }) (fun _ => rfl) v)
      (State.execWord_modUnit (f := fun w => { w with mismatch := true }) (fun _ => rfl) v)

theorem State.units_log (s : State) (c : EventClass) (source : Nat) (data : List (Nat × Nat)) : (s.log c source data).units = s.units :=
  (State.log_only (hm := Nat.and_self _) (hk := .refl _ s) ..).units rfl

/-- A comparison takes no mismatch back. -/
theorem State.mismatch_compareUnit {s : State} {k : Nat} (u : UnitName) (h : (s.unit k).mismatch = true) :
    ((s.compareUnit u).unit k).mismatch = true := by
  rw [State.compareUnit]
  split
  · exact h
  · rw [State.unit_of_units (State.units_log ..), State.unit_modUnit]
    split
    · rfl
    · exact h

theorem State.mismatch_compareUnit_self {s : State} {u : UnitName} (h : consistent (s.permWord u) (s.execWord u) = false) :
    ((s.compareUnit u).unit u.code).mismatch = true := by
  rw [State.compareUnit]
  split
  next hc => exact hc.resolve_left (by rw [h]; exact Bool.false_ne_true)
  · rw [State.unit_of_units (State.units_log ..), State.unit_modUnit, if_pos rfl]

theorem State.mismatch_compareUnits {l : List UnitName} {s : State} {k : Nat} (h : (s.unit k).mismatch = true) :
    ((l.foldl State.compareUnit s).unit k).mismatch = true := by
  induction l generalizing s with
  | nil => exact h
  | cons v l ih => exact ih (State.mismatch_compareUnit v h)

/-- Every unit of the list whose words disagree is found, since no comparison changes a word. -/
theorem State.mismatch_found {l : List UnitName} {s : State} {u : UnitName} (hu : u ∈ l)
    (h : consistent (s.permWord u) (s.execWord u) = false) : ((l.foldl State.compareUnit s).unit u.code).mismatch = true := by
  induction l generalizing s with
  | nil => cases hu
  | cons v l ih =>
    rw [List.foldl_cons]
    obtain rfl | hu := List.mem_cons.1 hu
    · exact State.mismatch_compareUnits (State.mismatch_compareUnit_self h)
    · have hwords := congrFun (s.words_compareUnit v) u
      have hperm : (s.compareUnit v).permWord u = s.permWord u := congrArg (·.1) hwords
      have hexec : (s.compareUnit v).execWord u = s.execWord u := congrArg (·.2) hwords
      exact ih hu (by rw [hperm, hexec]; exact h)

/-! ### Watchdogs (R422, R500) -/

theorem State.perm_contain {s : State} {u : UnitName} (hu : u.kind ≠ .port) : ((s.contain u).unit u.code).perm = .fenced := by
  rw [State.contain, State.unit_modUnit, if_pos rfl, if_neg hu]

/-- A core that is reset has no stores left: nothing that follows its layer writes one. -/
theorem State.lcb_resetCore (s : State) (p : Nat) : (((s.resetCore p).2).core p).lcb = List.replicate 512 0 := by
  unfold State.resetCore
  extract_lets n ran bs s₁ s₂ s₃ s₄
  have h₄ : (s₄.core p).lcb = List.replicate 512 0 := by
    rw [State.core_modUnit, State.core_modUnit, State.core_modCore, if_pos rfl]
    rfl
  dsimp only
  split
  · rw [(State.afterLayer_sameStores (hk := .refl s₄) ..).lcb, h₄]
  · exact h₄

theorem State.lcb_coreReset (s : State) (p : Nat) : ((s.coreReset p).core p).lcb = List.replicate 512 0 := by
  rw [State.coreReset]
  dsimp only
  rw [(State.resetEvent_sameStores (hk := .refl _) ..).lcb, State.lcb_resetCore]

theorem execCoreWatchdog_fences {p : Nat} {s : State} (hp : p < 96) (hrun : (s.core p).running.isSome = true)
    (hwait : (s.core p).timedWait = false) :
    Answers (execCoreWatchdog p s) (fun t => (t.unit (coreName p).code).perm = .fenced ∧ (t.core p).lcb = List.replicate 512 0) := by
  rw [execCoreWatchdog, if_pos ⟨hp, hrun, by rw [hwait]; exact Bool.false_ne_true⟩]
  refine Answers.next ⟨?_, ?_⟩
  · rw [(State.closeWindow_sameOrders (hk := .refl _) ..).perm, (State.coreReset_sameOrders (hk := .refl _) ..).perm,
      State.perm_contain UnitKind.noConfusion]
  · rw [(State.closeWindow_sameStores (hk := .refl _) ..).lcb, State.lcb_coreReset]

/-- The end of the window in which operations were dropped leaves the sequencers. -/
theorem State.seq_endWindow (s : State) (c k : Nat) : ((s.endWindow c).cluster k).seq = (s.cluster k).seq := by
  unfold State.endWindow
  extract_lets q s₁
  have h₁ : (s₁.cluster k).seq = (s.cluster k).seq := by
    rw [State.cluster_modCluster]
    split
    next h => rw [h]
    · rfl
  split
  · split
    · exact h₁
    · rw [State.cluster_of_clusters (State.clusters_log ..), h₁]
  · rfl

/-- A cluster that is reset has an idle sequencer (R576). -/
theorem State.idle_resetCluster (s : State) (c : Nat) (wake : Bool) : (((s.resetCluster c wake).2.2).cluster c).seq.st = .idle := by
  rw [State.resetCluster]
  dsimp only
  rw [State.cluster_of_clusters ((State.fencesDone_only (hm := Nat.and_self _) (hk := .refl _ _) ..).clusters rfl), State.seq_endWindow,
    State.cluster_modSeq, if_pos rfl]

theorem State.clusters_resetEvent (s : State) (kind source : Nat) (interrupted : Bool) (entries coins flushed : Nat) :
    (s.resetEvent kind source interrupted entries coins flushed).clusters = s.clusters :=
  (State.resetEvent_only (hm := Nat.and_self _) (hk := .refl _ s) ..).clusters rfl

theorem State.idle_clusterReset (s : State) (c : Nat) : ((s.clusterReset c).cluster c).seq.st = .idle := by
  rw [State.clusterReset]
  dsimp only
  rw [State.cluster_of_clusters (State.clusters_resetEvent ..), State.idle_resetCluster]

theorem execSeqWatchdog_fences {c : Nat} {s : State} (hc : c < 8) (hrun : (s.cluster c).seq.st = .running) :
    Answers (execSeqWatchdog c s) (fun t => (t.unit (clusterName c).code).perm = .fenced ∧ (t.cluster c).seq.st = .idle) := by
  rw [execSeqWatchdog, if_pos ⟨hc, hrun⟩]
  refine Answers.next ⟨?_, ?_⟩
  · rw [(State.closeWindow_sameOrders (hk := .refl _) ..).perm, (State.clusterReset_sameOrders (hk := .refl _) ..).perm,
      State.perm_contain UnitKind.noConfusion]
  · rw [State.closeWindow, State.cluster_modErr, State.idle_clusterReset]

/-! ### Restarts, alarms and injections (R506, R515, R561) -/

theorem SameMgmt.ledgerAppends {s t : State} (l : List (Nat × List Byte)) (h : SameMgmt s t) :
    SameMgmt s (l.foldl (fun s r => s.ledgerAppend r.1 r.2) t) :=
  .foldl (fun _ _ h => State.ledgerAppend_sameMgmt (hk := h) ..) h

theorem execBucelRestart_down (s : State) : Answers (execBucelRestart s) (fun t => t.mgmt.bucelDown = true) :=
  Answers.next (State.detect_sameMgmt (hk := .refl _) ..).bucelDown

theorem execBucelRestartComplete_up {s : State} (hdown : s.mgmt.bucelDown = true) :
    Answers (execBucelRestartComplete s) (fun t => t.mgmt.bucelDown = false) := by
  rw [execBucelRestartComplete, if_pos hdown]
  exact Answers.next (SameMgmt.ledgerAppends _ (.refl _)).bucelDown

/-- An alarm drops the nonce, the requests that wait and both rights, and enters the fatal state (R497, R561). -/
theorem execSecurityAlarm_ends (x : Nat) (s : State) :
    Answers (execSecurityAlarm x s) (fun t => t.err.fatal = true ∧ t.sec.nonce = none ∧ t.sec.treeWait = [] ∧ t.sec.debugEnd = none ∧
      t.sec.maintEnd = none) := by
  unfold execSecurityAlarm
  extract_lets s₁
  have hsec : ((s₁.detect .securityAlarm (srcBlock 5) [(1, x)]).enterFatal).sec = s₁.sec := by
    rw [(State.enterFatal_only (hm := Nat.and_self _) (hk := .refl _ _) ..).sec rfl,
      (State.detect_only (hm := Nat.and_self _) (hk := .refl _ _) ..).sec rfl]
  have hrights : s₁.sec = { s.sec with nonce := none, treeWait := [], debugEnd := none, maintEnd := none } :=
    State.sec_leaveMaintenance _
  refine Answers.next ⟨State.fatal_enterFatal _, ?_⟩
  rw [hsec, hrights]
  exact ⟨rfl, rfl, rfl, rfl⟩

theorem execInjectArm_arms (ctrl : Nat) (addr : W64) {s : State} (hmaint : s.sec.maintEnd.isSome = true) :
    Answers (execInjectArm ctrl addr s) (fun t => t.err.injAddr = addr ∧ t.err.injCls = fld ctrl 0 16 ∧ t.err.injUnit = fld ctrl 16 16 ∧
      t.err.injArm = bit ctrl 32 ∧ t.err.injCont = bit ctrl 33 ∧ t.err.injBits = fld ctrl 40 8 ∧ (bit ctrl 34 = true → t.err.injFired = false)) := by
  have hopen : ∀ t : State, t.sec = s.sec → t.maintenance = true := fun t ht => by rw [State.maintenance, ht, hmaint]
  rw [execInjectArm, State.writeInjAddr, if_pos (hopen s rfl), State.writeInjCtrl, if_pos (hopen _ (State.modErr_sec ..))]
  refine Answers.next ⟨rfl, rfl, rfl, rfl, rfl, rfl, fun hw => ?_⟩
  rw [State.modErr_err, hw]
  exact Bool.and_false _

theorem execHostLinkError_corrected (s : State) :
    Answers (execHostLinkError true s) (fun t => Logged s t .hostLinkCorrected (srcBlock 2) ∧
      tget t.tel.span 0 (ctDev 3) = tget s.tel.span 0 (ctDev 3) + 1) := by
  rw [execHostLinkError, if_pos rfl]
  refine Answers.next ⟨?_, ?_⟩
  · exact (Logged.detect s (c := .hostLinkCorrected) (srcBlock 2) [] rfl (show Severity.corrected.code < 3 by decide)).after rfl
  · have htel := (State.detect_only s .hostLinkCorrected (srcBlock 2) [] (hm := Nat.and_self _) (hk := .refl _ s)).tel rfl
    exact (tget_tmod ..).trans ((if_pos rfl).trans (congrArg (fun x : Telemetry => tget x.span 0 (ctDev 3) + 1) htel))

/-- Settles O29: a comparison changes no word, and what a reset undoes comes before all that follows it. -/
theorem errorCommands : Obligations.ErrorCommands := by
  unfold Obligations.ErrorCommands
  exact ⟨fun u s hu h => Answers.next (State.mismatch_found hu h), fun p s => execCoreWatchdog_fences, fun c s => execSeqWatchdog_fences,
    execBucelRestart_down, fun s => execBucelRestartComplete_up, execSecurityAlarm_ends, fun ctrl addr s => execInjectArm_arms ctrl addr,
    execHostLinkError_corrected⟩

end Sys2Proof.Machine
end

