-- ==== Sys2Proof/Proofs/HostFrames.lean ====
section
/-!
PROOFS. What interrupts, entries of the Day Book and settings of the clock leave of the host interface: the submission rings, the
descriptors in flight and the control fields (14_host_interface.md).
-/
set_option autoImplicit false
namespace Sys2Proof.Machine

/-- The host interface besides its vectors and the rings that the device alone writes. -/
def HostIf.core (h : HostIf) : HostIf := { h with vectors := [], evt := {}, stm := {} }

/-- The submission rings, the descriptors in flight and the control fields are the same in t as in s. -/
def SameHost (s t : State) : Prop := t.host.core = s.host.core

namespace SameHost

variable {s t u : State}

theorem refl (s : State) : SameHost s s := rfl
theorem trans (h : SameHost s t) (k : SameHost t u) : SameHost s u := Eq.trans k h

/-- The mask has every bit but that of the field. -/
theorem only (h : Only 8589933567 t u) (hk : SameHost s t) : SameHost s u := by
  rw [SameHost, h.host (by decide)]
  exact hk

theorem ite {c : Prop} [Decidable c] (h : SameHost s t) (k : SameHost s u) : SameHost s (if c then t else u) := by
  split
  · exact h
  · exact k

theorem ite2 {α : Type} {c : Prop} [Decidable c] {p q : α × State} (h : SameHost s p.2) (k : SameHost s q.2) :
    SameHost s (if c then p else q).2 := by
  split
  · exact h
  · exact k

theorem pair {α : Type} {p : α × State} {a : α} (h : p = (a, t)) (hp : SameHost s p.2) : SameHost s t := by
  subst h
  exact hp

theorem foldl {α : Type} {f : State → α → State} {l : List α} (h : ∀ t x, SameHost s t → SameHost s (f t x))
    (h0 : SameHost s t) : SameHost s (l.foldl f t) := by
  induction l generalizing t with
  | nil => exact h0
  | cons x l ih => exact ih (h _ _ h0)

theorem set_devOff (devOff : Int) (h : SameHost s t) : SameHost s { t with devOff := devOff } := h
theorem set_ledger (ledger : Ledger) (h : SameHost s t) : SameHost s { t with ledger := ledger } := h

theorem rings (h : SameHost s t) : t.host.rings = s.host.rings := congrArg (·.rings) h
theorem ring (h : SameHost s t) (n : Nat) : t.ring n = s.ring n := congrArg (fun rs : Tab Ring => tget rs {} n) h.rings
theorem inflight (h : SameHost s t) : t.host.inflight = s.host.inflight := congrArg (·.inflight) h
theorem dmas (h : SameHost s t) : t.host.dmas = s.host.dmas := congrArg (·.dmas) h
theorem endedOn (h : SameHost s t) : t.host.endedOn = s.host.endedOn := congrArg (·.endedOn) h
theorem bar2Gib (h : SameHost s t) : t.host.bar2Gib = s.host.bar2Gib := congrArg (·.bar2Gib) h

end SameHost

theorem State.modHost_sameHost {s₀ : State} (s : State) (f : HostIf → HostIf) (hf : ∀ h, (f h).core = h.core)
    (hk : SameHost s₀ s) : SameHost s₀ (s.modHost f) := (hf s.host).trans hk

/-! ### Operations that leave the host interface alone -/

theorem State.emit_sameHost {s₀ : State} (s : State) (o : Out)
    (hk : SameHost s₀ s) : SameHost s₀ (State.emit s o) :=
  .only (State.emit_only (hm := by decide) (hk := .refl _ _) ..) hk

theorem State.modErr_sameHost {s₀ : State} (s : State) (f : Errors → Errors)
    (hk : SameHost s₀ s) : SameHost s₀ (State.modErr s f) :=
  .only (State.modErr_only (hm := by decide) (hk := .refl _ _) ..) hk

theorem State.pldmEvent_sameHost {s₀ : State} (s : State) (e : Event)
    (hk : SameHost s₀ s) : SameHost s₀ (State.pldmEvent s e) :=
  .only (State.pldmEvent_only (hm := by decide) (hk := .refl _ _) ..) hk

theorem State.ledgerDrop_sameHost {s₀ : State} (s : State)
    (hk : SameHost s₀ s) : SameHost s₀ (State.ledgerDrop s) :=
  .only (State.ledgerDrop_only (hm := by decide) (hk := .refl _ _) ..) hk

theorem State.ledgerPut_sameHost {s₀ : State} (s : State) (kind : Nat) (payload : List Byte) (off : Nat) (live : Bool)
    (hk : SameHost s₀ s) : SameHost s₀ (State.ledgerPut s kind payload off live) :=
  .only (State.ledgerPut_only (hm := by decide) (hk := .refl _ _) ..) hk

theorem State.injection_sameHost {s₀ : State} (s : State) (c : EventClass) (unit : Nat)
    (hk : SameHost s₀ s) : SameHost s₀ (State.injection s c unit).2 :=
  .only (State.injection_only (hm := by decide) (hk := .refl _ _) ..) hk

theorem State.modMgmt_sameHost {s₀ : State} (s : State) (f : Mgmt → Mgmt)
    (hk : SameHost s₀ s) : SameHost s₀ (State.modMgmt s f) :=
  .only (State.modMgmt_only (hm := by decide) (hk := .refl _ _) ..) hk

theorem State.modTime_sameHost {s₀ : State} (s : State) (f : TimeBase → TimeBase)
    (hk : SameHost s₀ s) : SameHost s₀ (State.modTime s f) :=
  .only (State.modTime_only (hm := by decide) (hk := .refl _ _) ..) hk

theorem State.closeWindow_sameHost {s₀ : State} (s : State) (c : EventClass) (source : Nat)
    (hk : SameHost s₀ s) : SameHost s₀ (State.closeWindow s c source) :=
  .only (State.closeWindow_only (hm := by decide) (hk := .refl _ _) ..) hk

theorem State.reach_sameHost {s₀ : State} (s : State) (t : Nat)
    (hk : SameHost s₀ s) : SameHost s₀ (State.reach s t) :=
  .only (State.reach_only (hm := by decide) (hk := .refl _ _) ..) hk

theorem State.deepExit_sameHost {s₀ : State} (s : State)
    (hk : SameHost s₀ s) : SameHost s₀ (State.deepExit s) :=
  .only (State.deepExit_only (hm := by decide) (hk := .refl _ _) ..) hk

/-! ### Interrupts, entries and the clock -/

theorem State.fire_sameHost {s₀ : State} (s : State) (v : Nat)
    (hk : SameHost s₀ s) : SameHost s₀ (State.fire s v) := by
  unfold State.fire
  repeat' (first
    | with_reducible assumption
    | with_reducible first | refine State.modHost_sameHost (hf := fun _ => rfl) (hk := ?_) .. | refine State.emit_sameHost (hk := ?_) ..
    | with_reducible refine SameHost.ite ?_ ?_
    | split
    | dsimp only)

theorem State.signal_sameHost {s₀ : State} (s : State) (v : Nat) (atOnce : Bool)
    (hk : SameHost s₀ s) : SameHost s₀ (State.signal s v atOnce) := by
  unfold State.signal
  repeat' (first
    | with_reducible assumption
    | with_reducible first | refine State.modHost_sameHost (hf := fun _ => rfl) (hk := ?_) .. | refine State.fire_sameHost (hk := ?_) ..
    | with_reducible refine SameHost.ite ?_ ?_
    | split
    | dsimp only)

theorem State.eventRing_sameHost {s₀ : State} (s : State) (e : Event)
    (hk : SameHost s₀ s) : SameHost s₀ (State.eventRing s e) := by
  unfold State.eventRing
  repeat' (first
    | with_reducible assumption
    | with_reducible first | refine State.modHost_sameHost (hf := fun _ => rfl) (hk := ?_) .. | refine State.emit_sameHost (hk := ?_) .. | refine State.signal_sameHost (hk := ?_) ..
    | with_reducible refine SameHost.ite ?_ ?_
    | split
    | dsimp only)

theorem State.logEntry_sameHost {s₀ : State} (s : State) (c : EventClass) (source : Nat) (data : List Byte) (sev : Severity) (nested injected : Bool)
    (hk : SameHost s₀ s) : SameHost s₀ (State.logEntry s c source data sev nested injected) := by
  unfold State.logEntry
  repeat' (first
    | with_reducible assumption
    | with_reducible first | refine State.modErr_sameHost (hk := ?_) .. | refine State.pldmEvent_sameHost (hk := ?_) .. | refine State.eventRing_sameHost (hk := ?_) ..
    | split
    | dsimp only)

theorem State.ledgerNoRoom_sameHost {s₀ : State} (s : State) (kind : Nat)
    (hk : SameHost s₀ s) : SameHost s₀ (State.ledgerNoRoom s kind) := by
  unfold State.ledgerNoRoom
  repeat' (first
    | with_reducible assumption
    | with_reducible first | refine State.logEntry_sameHost (hk := ?_) .. | refine State.ledgerDrop_sameHost (hk := ?_) ..
    | with_reducible refine SameHost.ite ?_ ?_
    | with_reducible refine SameHost.set_ledger (h := ?_) ..
    | dsimp only)

theorem State.ledgerRetry_sameHost {s₀ : State} (s : State) (kind : Nat) (payload : List Byte) (injected : Bool) (arr0 : Nat)
    (hk : SameHost s₀ s) : SameHost s₀ (s.ledgerRetry kind payload injected arr0) := by
  induction arr0 generalizing s with
  | zero => exact hk
  | succ n ih =>
    unfold State.ledgerRetry
    split
    · exact hk
    · refine ih _ (State.logEntry_sameHost _ _ _ _ _ _ _ ?_)
      exact SameHost.set_ledger _ (State.ledgerPut_sameHost s kind payload _ false hk)

theorem State.ledgerWrite_sameHost {s₀ : State} (s : State) (kind : Nat) (payload : List Byte) (fails : Nat)
    (hk : SameHost s₀ s) : SameHost s₀ (State.ledgerWrite s kind payload fails) := by
  unfold State.ledgerWrite
  repeat' (first
    | with_reducible assumption
    | with_reducible first | refine State.ledgerPut_sameHost (hk := ?_) .. | refine State.ledgerNoRoom_sameHost (hk := ?_) .. | refine State.ledgerRetry_sameHost (hk := ?_) .. | refine State.injection_sameHost (hk := ?_) ..
    | with_reducible refine SameHost.pair (by assumption) ?_
    | split
    | with_reducible refine SameHost.set_ledger (h := ?_) ..
    | dsimp only)

theorem State.ledgerAppend_sameHost {s₀ : State} (s : State) (kind : Nat) (payload : List Byte) (fails : Nat)
    (hk : SameHost s₀ s) : SameHost s₀ (State.ledgerAppend s kind payload fails) := by
  unfold State.ledgerAppend
  repeat' (first
    | with_reducible assumption
    | with_reducible first | refine State.ledgerDrop_sameHost (hk := ?_) .. | refine State.ledgerWrite_sameHost (hk := ?_) ..
    | with_reducible refine SameHost.ite ?_ ?_
    | with_reducible refine SameHost.set_ledger (h := ?_) ..)

theorem State.logAs_sameHost {s₀ : State} (s : State) (c : EventClass) (source : Nat) (data : List Byte) (sev : Severity) (nested injected : Bool)
    (hk : SameHost s₀ s) : SameHost s₀ (State.logAs s c source data sev nested injected) := by
  unfold State.logAs
  repeat' (first
    | with_reducible assumption
    | with_reducible first | refine State.modMgmt_sameHost (hk := ?_) .. | refine State.logEntry_sameHost (hk := ?_) .. | refine State.ledgerAppend_sameHost (hk := ?_) ..
    | with_reducible refine SameHost.ite ?_ ?_
    | split
    | dsimp only)

theorem State.log_sameHost {s₀ : State} (s : State) (c : EventClass) (source : Nat) (data : List (Nat × Nat))
    (hk : SameHost s₀ s) : SameHost s₀ (State.log s c source data) := by
  unfold State.log
  repeat' (first
    | with_reducible assumption
    | with_reducible refine State.logAs_sameHost (hk := ?_) ..)

theorem State.detectWith_sameHost {s₀ : State} (s : State) (c : EventClass) (source : Nat) (data : List Byte)
    (hk : SameHost s₀ s) : SameHost s₀ (State.detectWith s c source data) := by
  unfold State.detectWith
  repeat' (first
    | with_reducible assumption
    | with_reducible first | refine State.modErr_sameHost (hk := ?_) .. | refine State.injection_sameHost (hk := ?_) .. | refine State.logAs_sameHost (hk := ?_) ..
    | with_reducible refine SameHost.ite ?_ ?_
    | split
    | dsimp only)

theorem State.detect_sameHost {s₀ : State} (s : State) (c : EventClass) (source : Nat) (data : List (Nat × Nat))
    (hk : SameHost s₀ s) : SameHost s₀ (State.detect s c source data) := by
  unfold State.detect
  repeat' (first
    | with_reducible assumption
    | with_reducible refine State.detectWith_sameHost (hk := ?_) ..)

theorem State.logLimited_sameHost {s₀ : State} (s : State) (c : EventClass) (key period : Nat) (source : Nat) (data : List (Nat × Nat))
    (hk : SameHost s₀ s) : SameHost s₀ (State.logLimited s c key period source data) := by
  unfold State.logLimited
  repeat' (first
    | with_reducible assumption
    | with_reducible first | refine State.modErr_sameHost (hk := ?_) .. | refine State.log_sameHost (hk := ?_) ..
    | with_reducible refine SameHost.ite ?_ ?_
    | split
    | dsimp only)

theorem State.setTime_sameHost {s₀ : State} (s : State) (step : Int)
    (hk : SameHost s₀ s) : SameHost s₀ (State.setTime s step) := by
  unfold State.setTime
  repeat' (first
    | with_reducible assumption
    | with_reducible first | refine State.modTime_sameHost (hk := ?_) .. | refine State.log_sameHost (hk := ?_) ..
    | split
    | with_reducible refine SameHost.set_devOff (h := ?_) ..)

theorem State.timeSettles_sameHost {s₀ : State} (s : State)
    (hk : SameHost s₀ s) : SameHost s₀ (State.timeSettles s) := by
  unfold State.timeSettles
  repeat' (first
    | with_reducible assumption
    | with_reducible refine State.setTime_sameHost (hk := ?_) ..
    | with_reducible refine SameHost.ite ?_ ?_
    | split)

end Sys2Proof.Machine
end

