-- ==== Sys2Proof/Proofs/Rings.lean ====
section
/-!
PROOFS. Doorbells, fetches, dispatches, vectors and the control of rings (14_host_interface.md).
-/
set_option autoImplicit false
namespace Sys2Proof.Machine

/-! ### The ring watcher (R436, R440) -/

/-- Every submission ring has in t the indices that it had in s. -/
def SameIndices (s t : State) : Prop := ∀ n, (t.ring n).lastPi = (s.ring n).lastPi ∧ (t.ring n).lastCi = (s.ring n).lastCi

theorem SameIndices.refl (s : State) : SameIndices s s := fun _ => ⟨rfl, rfl⟩

theorem SameIndices.of_sameHost {s t u : State} (h : SameIndices s t) (k : SameHost t u) : SameIndices s u := fun n => by
  rw [k.ring n]
  exact h n

theorem SameIndices.modRing {s t : State} (h : SameIndices s t) (n : Nat) {f : Ring → Ring} (hpi : ∀ r, (f r).lastPi = r.lastPi)
    (hci : ∀ r, (f r).lastCi = r.lastCi) : SameIndices s (t.modRing n f) := fun k => by
  rw [State.ring_modRing]
  split
  next hk => rw [hpi, hci, ← hk]; exact h k
  next => exact h k

theorem SameIndices.settleRing {s t : State} (h : SameIndices s t) (n : Nat) : SameIndices s (t.settleRing n) := by
  rw [State.settleRing]
  split
  · exact h.modRing n (fun _ => rfl) (fun _ => rfl)
  · exact h

theorem SameIndices.writeEntry {s t : State} (h : SameIndices s t) (n : Nat) (c : Completion) : SameIndices s (t.writeEntry n c) :=
  .of_sameHost (SameIndices.modRing (t := t.emit _) (f := Ring.wrote) h n (fun _ => rfl) (fun _ => rfl))
    (State.signal_sameHost _ _ _ (hk := .refl _))

theorem SameIndices.flushHeld {s t : State} (h : SameIndices s t) (n k : Nat) : SameIndices s (t.flushHeld n k) := by
  induction k generalizing t with
  | zero => exact h.settleRing n
  | succ k ih =>
    rw [State.flushHeld]
    split
    next => exact h.settleRing n
    next c held _ =>
      split
      · exact h
      · exact ih (.writeEntry (h.modRing n (f := fun x => { x with heldComps := held }) (fun _ => rfl) (fun _ => rfl)) n c)

/-- An index within the bounds of a running ring is taken (R436). -/
theorem State.judgeSq_takes {s : State} {n pi : Nat} (hen : (s.ring n).enable = true) (hrun : (s.ring n).st = .running)
    (hfwd : countSub pi (s.ring n).lastPi < 2 ^ 31) (hroom : countSub pi (s.ring n).fetched ≤ entries (s.ring n).logSq) :
    s.judgeSq n pi = s.modRing n (fun r => { r with lastPi := pi % 2 ^ 32 }) := by
  rw [State.judgeSq]
  rw [if_neg (by simp [hen, hrun]), if_neg (not_or.2 ⟨Nat.not_le.2 hfwd, Nat.not_lt.2 hroom⟩)]

/-- A consumer index within the bounds of a ring is taken, and then held completions leave (R436, R437). -/
theorem State.judgeCq_takes {s : State} {n ci : Nat} (hfwd : countSub ci (s.ring n).lastCi < 2 ^ 31)
    (hmax : countSub ci (s.ring n).lastCi ≤ (s.ring n).unconsumed) :
    ∃ k, s.judgeCq (.sub n) ci = (s.modRing n (fun r => { r with lastCi := ci % 2 ^ 32 })).flushHeld n k := by
  rw [State.judgeCq]
  exact ⟨_, if_pos ⟨hfwd, hmax⟩⟩

/-- Polling changes only the interval and the count of empty reads. -/
theorem Ring.polled_eq (r : Ring) (h : HostIf) (changed : Bool) : ∃ i e, r.polled h changed = { r with interval := i, empties := e } := by
  rw [Ring.polled]
  split
  · exact ⟨_, _, rfl⟩
  · split <;> exact ⟨_, _, rfl⟩

/-- A line that holds indices within the bounds of a running ring: both are taken (R436). -/
theorem State.lineRead_takes {s : State} {n pi ci : Nat} (hen : (s.ring n).enable = true) (hrun : (s.ring n).st = .running)
    (hpi : pi < 2 ^ 32) (hci : ci < 2 ^ 32) (hpiFwd : countSub pi (s.ring n).lastPi < 2 ^ 31)
    (hroom : countSub pi (s.ring n).fetched ≤ entries (s.ring n).logSq) (hciFwd : countSub ci (s.ring n).lastCi < 2 ^ 31)
    (hciMax : countSub ci (s.ring n).lastCi ≤ (s.ring n).unconsumed) :
    ((s.lineRead (.sub n) pi ci).ring n).lastPi = pi ∧ ((s.lineRead (.sub n) pi ci).ring n).lastCi = ci := by
  obtain ⟨changed, hread⟩ : ∃ changed, s.lineRead (.sub n) pi ci =
      ((s.modRing n (fun r => r.polled s.host changed)).judgeSq n pi).judgeCq (.sub n) ci := ⟨_, rfl⟩
  obtain ⟨i, e, hpolled⟩ := (s.ring n).polled_eq s.host changed
  have hring : (s.modRing n (fun r => r.polled s.host changed)).ring n = { s.ring n with interval := i, empties := e } := by
    rw [State.ring_modRing, if_pos rfl, hpolled]
  rw [hread]
  generalize s.modRing n (fun r => r.polled s.host changed) = u at hring ⊢
  rw [State.judgeSq_takes (by rw [hring]; exact hen) (by rw [hring]; exact hrun) (by rw [hring]; exact hpiFwd) (by rw [hring]; exact hroom)]
  have hringPi : (u.modRing n (fun r => { r with lastPi := pi % 2 ^ 32 })).ring n =
      { s.ring n with interval := i, empties := e, lastPi := pi } := by
    rw [State.ring_modRing, if_pos rfl, hring, Nat.mod_eq_of_lt hpi]
  generalize u.modRing n (fun r => { r with lastPi := pi % 2 ^ 32 }) = v at hringPi ⊢
  obtain ⟨k, htaken⟩ := State.judgeCq_takes (s := v) (n := n) (ci := ci) (by rw [hringPi]; exact hciFwd) (by rw [hringPi]; exact hciMax)
  have hkept := (SameIndices.refl (v.modRing n (fun r => { r with lastCi := ci % 2 ^ 32 }))).flushHeld n k n
  rw [← htaken, State.ring_modRing, if_pos rfl, hringPi, Nat.mod_eq_of_lt hci] at hkept
  exact hkept

/-! ### Fetch and dispatch (R441) -/

theorem execDescriptorFetch_fetches {n : Nat} (raw : List Byte) {s : State} (hturn : s.fetchTurn n = true) :
    Answers (execDescriptorFetch n raw s) (fun t => (t.ring n).fetched = ((s.ring n).fetched + 1) % 2 ^ 32 ∧
      (t.ring n).waiting = (s.ring n).waiting ++ [{ ring := n, num := s.host.fetchNum, raw := padTo 64 raw }] ∧
      t.host.fetchNum = s.host.fetchNum + 1 ∧ t.host.fetchFrom = (n + 1) % 32) := by
  have hhost : s.deepExit.host = s.host := (State.deepExit_only (hm := Nat.and_self _) (hk := .refl _ s) ..).host rfl
  rw [execDescriptorFetch, if_pos hturn]
  refine Answers.next ?_
  dsimp only
  rw [State.ring_modRing, if_pos rfl, State.ring, State.modHost, hhost]
  exact ⟨rfl, rfl, rfl, rfl⟩

theorem State.runRefused_modHost (s : State) (f : HostIf → HostIf) (d : Desc) : (s.modHost f).runRefused d = s.runRefused d := rfl
theorem State.runRefused_modRing (s : State) (n : Nat) (f : Ring → Ring) (d : Desc) : (s.modRing n f).runRefused d = s.runRefused d := rfl

/-- A setting of the clock refuses and admits no command (R27, R443). -/
theorem State.runRefused_timeSettles (s : State) (d : Desc) : s.timeSettles.runRefused d = s.runRefused d := by
  rw [State.timeSettles]
  split
  · split
    · rfl
    · rw [State.setTime, State.log_eq]
      rfl
  · rfl

/-- What a command needs of a sequencer to be at its beginning: it runs d from address 0 with its step (R158). -/
def State.Begun (s : State) (d : Desc) (c : Nat) : Prop :=
  (s.cluster c).seq.st = .running ∧ (s.cluster c).seq.cmd = some d ∧ (s.cluster c).seq.pc = 0 ∧
  (s.cluster c).seq.step = BitVec.ofNat 64 d.step

theorem State.seq_wake (s : State) (c k : Nat) : ((s.wake c).cluster k).seq = (s.cluster k).seq := by
  have hclock (u : State) (f : ClockSt → ClockSt) : ((u.modClock c f).cluster k).seq = (u.cluster k).seq := by
    rw [State.cluster_modClock]
    split
    next h => rw [h]
    next => rfl
  unfold State.wake
  extract_lets t u
  split
  · exact hclock ..
  · rw [hclock, State.cluster_reach]

theorem State.begun_beginOn (s : State) (d : Desc) (c : Nat) : (s.beginOn d c).Begun d c := by
  rw [State.Begun, State.beginOn]
  dsimp only
  rw [State.cluster_modSeq, if_pos rfl]
  exact ⟨rfl, rfl, rfl, rfl⟩

/-- A command that begins on a cluster leaves the sequencer of another. -/
theorem State.seq_beginOn_of_ne {k c : Nat} (h : k ≠ c) (s : State) (d : Desc) :
    ((s.beginOn d c).cluster k).seq = (s.cluster k).seq := by
  unfold State.beginOn
  extract_lets s₁ q s₂ s₃ s₄ s₅
  have hended : s₂.cluster k = s₁.cluster k := by
    simp only [s₂]
    split <;> rfl
  have hcores : s₄.cluster k = s₃.cluster k :=
    Only.cluster_eq (m := 65536) (Only.foldl (fun t p ht => State.modCore_only t p _ rfl ht) (.refl _ _)) rfl k
  have hpurse : s₅.cluster k = s₄.cluster k := by rw [State.cluster_modPurse, if_neg h]
  rw [State.cluster_modSeq, if_neg h, hpurse, hcores, State.cluster_advance, State.cluster_modSeq, if_neg h, hended, State.seq_wake]

theorem State.begun_foldl {d : Desc} {c : Nat} (l : List Nat) {s : State} (h : c ∈ l ∨ s.Begun d c) :
    (l.foldl (fun s c => s.beginOn d c) s).Begun d c := by
  induction l generalizing s with
  | nil => exact h.resolve_left List.not_mem_nil
  | cons k l ih =>
    rw [List.foldl_cons]
    apply ih
    by_cases hk : c = k
    · rw [hk]
      exact .inr (s.begun_beginOn d k)
    · refine h.imp (fun hc => (List.mem_cons.1 hc).resolve_left hk) fun hs => ?_
      rw [State.Begun, State.seq_beginOn_of_ne hk]
      exact hs

/-- The descriptor moves from its ring into flight; what then begins depends on it (R441). -/
theorem execDispatch_of_ready {n : Nat} {d : Desc} {ds : List Desc} {s : State} (hn : n < 32) (hfirst : (s.ring n).waiting = d :: ds)
    (hready : s.dispatchable d = true) (hlower : s.lowerRingFirst n d = false) (hlegal : d.reserved = false) :
    ∃ u : State, (u.ring n).waiting = ds ∧ u.host.inflight = s.host.inflight ++ [d] ∧ u.runRefused d = s.runRefused d ∧
      (d.isRun = false → execDispatch n s = .next u) ∧
      (d.isRun = true → s.runRefused d = none → execDispatch n s = .next ((maskList 8 d.mask).foldl (fun s c => s.beginOn d c) u)) := by
  refine ⟨(s.timeSettles.modRing n (fun r => { r with waiting := ds })).modHost (fun h => { h with inflight := h.inflight ++ [d] }),
    ?_, ?_, s.runRefused_timeSettles d, fun hrun => ?_, fun hrun hadmit => ?_⟩
  · have hring := s.timeSettles.ring_modRing n (fun r => { r with waiting := ds }) n
    rw [if_pos rfl] at hring
    exact congrArg Ring.waiting hring
  · exact congrArg (· ++ [d]) (State.timeSettles_sameHost s (hk := .refl s)).inflight
  · rw [execDispatch, hfirst]
    dsimp only
    rw [if_pos ⟨hn, hready, by simp [hlower]⟩, if_neg (by simp [hlegal]), if_neg (by simp [hrun])]
  · rw [execDispatch, hfirst]
    dsimp only
    rw [if_pos ⟨hn, hready, by simp [hlower]⟩, if_neg (by simp [hlegal]), if_pos hrun]
    rw [State.runRefused_modHost, State.runRefused_modRing, State.runRefused_timeSettles, hadmit]

/-! ### Interrupts (R453) -/

theorem execMsixAgeExpiry_fires {v : Nat} {s : State} (hv : v < 64) (htime : (tget s.host.vectors {} v).timeUs ≠ 0)
    (hpending : (tget s.host.vectors {} v).pending ≠ 0) :
    Answers (execMsixAgeExpiry v s) (fun t => (tget t.host.vectors {} v).pending = 0 ∧
      ((tget s.host.vectors {} v).masked = false → t.out = s.out ++ [.msix v]) ∧
      ((tget s.host.vectors {} v).masked = true → (tget t.host.vectors {} v).pba = true)) := by
  have hhost (t : Nat) : (s.reach t).host = s.host := (State.reach_only (hm := Nat.and_self _) (hk := .refl _ s) ..).host rfl
  have hout (t : Nat) : (s.reach t).out = s.out := (State.reach_only (hm := Nat.and_self _) (hk := .refl _ s) ..).out rfl
  rw [execMsixAgeExpiry]
  rw [if_pos ⟨hv, htime, hpending⟩, State.fire]
  refine Answers.next ?_
  rw [hhost]
  split
  next hmask =>
    refine ⟨by simp [hhost], fun h => absurd (hmask.symm.trans h) Bool.noConfusion, fun _ => ?_⟩
    rw [State.modHost_host, hhost, tget_tset, if_pos rfl, hmask]
    exact Bool.or_true _
  next hmask => exact ⟨by simp [hhost], fun _ => by simp [hout], fun h => absurd h hmask⟩

theorem execMsixVectorUnmask_unmasks {v : Nat} {s : State} (hv : v < 64) :
    Answers (execMsixVectorUnmask v s) (fun t => (tget t.host.vectors {} v).masked = false ∧ (tget t.host.vectors {} v).pba = false ∧
      ((tget s.host.vectors {} v).pba = true → t.out = s.out ++ [.msix v])) := by
  rw [execMsixVectorUnmask, if_pos hv, State.maskVector]
  refine Answers.next ?_
  split
  next => exact ⟨by simp, by simp, fun _ => rfl⟩
  next h => exact ⟨by simp, by simp, fun hpba => absurd ⟨hpba, Bool.false_ne_true⟩ h⟩

/-! ### Ring control (R438, R458) -/

/-- A change of a ring is what is read of it then. -/
theorem State.ringOf_modRingOf (s : State) (x : RingName) (f : Ring → Ring) : (s.modRingOf x f).ringOf x = f (s.ringOf x) := by
  cases x with
  | sub n => exact (State.ring_modRing ..).trans (if_pos rfl)
  | evt => rfl
  | stm => rfl

theorem execRingEnable_starts {x : RingName} {s : State} (hx : x.ok = true) (hoff : (s.ringOf x).enable = false)
    (hst : (s.ringOf x).st = .disabled) (hfault : (s.ringOf x).faulted = false) (hfatal : s.err.fatal = false)
    (hsizes : (s.ringOf x).sizesOk x = true) :
    Answers (execRingEnable x true s) (fun t => (t.ringOf x).enable = true ∧ (t.ringOf x).st = .running) := by
  have hring (u : State) (h : u.ringOf x = (s.modRingOf x (fun r =>
        { r with enable := true, st := if r.st = .disabled then (if r.faulted || s.err.fatal then .stopped else .running) else r.st,
                 interval := s.host.pollNs, empties := 0, lnRegistered := s.host.lnEn })).ringOf x) :
      (u.ringOf x).enable = true ∧ (u.ringOf x).st = .running := by
    rw [h, State.ringOf_modRingOf, hst, hfault, hfatal]
    exact ⟨rfl, rfl⟩
  rw [execRingEnable, if_pos hx, State.writeEnable]
  dsimp only
  rw [if_pos rfl, if_neg (by simp [hoff, hsizes])]
  refine Answers.next ?_
  split
  · exact hring _ (by cases x <;> rfl)
  · exact hring _ rfl

theorem State.disabled_settleRingOf {s : State} {x : RingName} (hoff : (s.ringOf x).enable = false)
    (hidle : ∀ n, x = .sub n → s.ringBusy n = false) :
    ((s.settleRingOf x).ringOf x).enable = false ∧ ((s.settleRingOf x).ringOf x).st = .disabled := by
  have hset : s.settleRingOf x = s.modRingOf x (fun r => { r with st := .disabled }) := by
    cases x with
    | sub n => exact if_pos ⟨Bool.eq_false_iff.1 hoff, Bool.eq_false_iff.1 (hidle n rfl)⟩
    | evt => exact if_neg (Bool.eq_false_iff.1 hoff)
    | stm => exact if_neg (Bool.eq_false_iff.1 hoff)
  rw [hset, State.ringOf_modRingOf]
  exact ⟨hoff, rfl⟩

theorem execRingEnable_ends {x : RingName} {s : State} (hx : x.ok = true) (hidle : ∀ n, x = .sub n → s.ringBusy n = false) :
    Answers (execRingEnable x false s) (fun t => (t.ringOf x).enable = false ∧ (t.ringOf x).st = .disabled) := by
  rw [execRingEnable, if_pos hx, State.writeEnable]
  refine Answers.next (State.disabled_settleRingOf ?_ fun n hn => ?_)
  · rw [State.ringOf_modRingOf]
  · subst hn
    rw [← hidle n rfl, State.ringBusy, State.ringBusy, State.modRingOf, State.ring_modRing, if_pos rfl]
    rfl

theorem execRingReset_clears {x : RingName} {s : State} (hx : x.ok = true) (hst : (s.ringOf x).st = .disabled) :
    Answers (execRingReset x s) (fun t => (t.ringOf x).fetched = 0 ∧ (t.ringOf x).written = 0 ∧ (t.ringOf x).lastPi = 0 ∧
      (t.ringOf x).lastCi = 0 ∧ (t.ringOf x).faulted = false) := by
  rw [execRingReset, if_pos hx, State.writeRingReset]
  refine Answers.next ?_
  rw [State.ringOf_modRingOf, if_pos hst]
  exact ⟨rfl, rfl, rfl, rfl, rfl⟩

/-- Settles O30: after an index is taken nothing changes the indices of a ring, and a command begins on each cluster of its mask
without the others. -/
theorem ringCommands : Obligations.RingCommands := by
  unfold Obligations.RingCommands
  refine ⟨fun n pi ci s hn hen hrun hpi hci hpiFwd hroom hciFwd hciMax => ?_, fun n raw s => execDescriptorFetch_fetches raw,
    fun n d ds s hn hfirst hready hlower hlegal => ?_, fun v s => execMsixAgeExpiry_fires, fun v s => execMsixVectorUnmask_unmasks,
    fun x s => execRingEnable_starts, fun x s => execRingEnable_ends, fun x s => execRingReset_clears⟩
  · have htaken := State.lineRead_takes hen hrun hpi hci hpiFwd hroom hciFwd hciMax
    have hwatched : (s.ringOf (.sub n)).watched = true := by simp [Ring.watched, State.ringOf, hen]
    refine ⟨?_, fun hln hreg => ?_⟩
    · rw [show exec (.doorbellPoll (.sub n) pi ci) s = execDoorbellPoll (.sub n) pi ci s from rfl, execDoorbellPoll,
        if_pos ⟨decide_eq_true hn, hwatched⟩]
      exact Answers.next htaken
    · rw [show exec (.lnMessage (.sub n) pi ci) s = execLnMessage (.sub n) pi ci s from rfl, execLnMessage,
        if_pos ⟨decide_eq_true hn, hln, hwatched, hreg⟩]
      refine Answers.next ⟨?_, ?_, _, rfl⟩
      · rw [State.ring_emit]; exact htaken.1
      · rw [State.ring_emit]; exact htaken.2
  · obtain ⟨u, hwaiting, hinflight, -, hunit, hrun⟩ := execDispatch_of_ready hn hfirst hready hlower hlegal
    refine ⟨fun h => ?_, fun h hadmit => ?_⟩
    · rw [show exec (.dispatch n) s = execDispatch n s from rfl, hunit h]
      exact Answers.next ⟨hwaiting, hinflight⟩
    · rw [show exec (.dispatch n) s = execDispatch n s from rfl, hrun h hadmit]
      exact Answers.next fun c hc => State.begun_foldl _ (.inl hc)

end Sys2Proof.Machine
end

