-- ==== Sys2Proof/Proofs/MemoryWrites.lean ====
section
/-!
PROOFS. What a write at a local address leaves in memory: its bytes where no channel is lost, and every other byte as it was
(06_memory.md).
-/
set_option autoImplicit false
namespace Sys2Proof.Machine

/-- Channels are lost in t as in s, and the interleave is the same. -/
def SameLost (s t : State) : Prop := t.dram.used = s.dram.used ∧ ∀ n, ((t.channel n).st == 3) = ((s.channel n).st == 3)

theorem SameLost.refl (s : State) : SameLost s s := ⟨rfl, fun _ => rfl⟩

theorem SameLost.lostAt {s t : State} (h : SameLost s t) (a : Nat) : t.lostAt a = s.lostAt a := by
  obtain ⟨hused, hst⟩ := h
  rw [State.lostAt, State.lostAt, Dram.locate, Dram.locate, hused]
  exact congrArg (decide (a < dramWindow) && ·) (hst _)

theorem SameLost.of_dram {s t : State} (h : t.dram = s.dram) : SameLost s t :=
  ⟨congrArg (·.used) h, fun n => congrArg (fun d : Dram => (tget d.channels {} n).st == 3) h⟩

theorem SameLost.trans {s t u : State} (h : SameLost s t) (k : SameLost t u) : SameLost s u :=
  ⟨k.1.trans h.1, fun n => (k.2 n).trans (h.2 n)⟩

/-! ### What reads of an unchanged memory answer -/

theorem SameLost.byteAt {s t : State} (h : SameLost s t) (hmem : t.mem = s.mem) (a : Nat) : t.byteAt a = s.byteAt a := by
  rw [State.byteAt, State.byteAt, h.lostAt, hmem]

theorem SameLost.readMem {s t : State} (h : SameLost s t) (hmem : t.mem = s.mem) (a n : Nat) : t.readMem a n = s.readMem a n :=
  List.map_congr_left fun i _ => h.byteAt hmem (a + i)

theorem SameLost.poisonIn {s t : State} (h : SameLost s t) (hmem : t.mem = s.mem) (a n : Nat) : t.poisonIn a n = s.poisonIn a n := by
  simp only [State.poisonIn, State.poisonAt, h.lostAt, hmem]

theorem State.byteAt_of_not_lost {s : State} {a : Nat} (h : s.lostAt a = false) : s.byteAt a = s.mem.byte a := by
  rw [State.byteAt, h]
  exact if_neg Bool.false_ne_true

/-! ### One piece -/

theorem SameLost.storePiece {s t : State} (h : SameLost s t) (p : Nat × List Byte) (src : Nat → Bool) : SameLost s (t.storePiece p src) := by
  rw [State.storePiece]
  split
  · refine ⟨h.1, fun n => ?_⟩
    rw [State.channel_modChannel]
    split
    next hn => subst hn; exact h.2 _
    next => exact h.2 n
  · exact h

/-- A byte outside a piece is as it was. -/
theorem State.mem_storePiece_out {s : State} {p : Nat × List Byte} {k : Nat} (src : Nat → Bool) (h : k < p.1 ∨ p.1 + p.2.length ≤ k) :
    (s.storePiece p src).mem.byte k = s.mem.byte k := by
  rw [State.storePiece]
  split
  · rfl
  · exact Memory.byte_store_out _ _ _ _ _ h

/-- The part of the write of bs at a that unit u takes. -/
def pieceOf (a : Nat) (bs : List Byte) (u : Nat) : Nat × List Byte :=
  (max a (u * 64), (bs.drop (max a (u * 64) - a)).take (u * 64 + 64 - max a (u * 64)))

theorem pieces_eq (a : Nat) (bs : List Byte) : pieces a bs = (unitsOf a bs.length).map (pieceOf a bs) := rfl

theorem length_pieceOf (a : Nat) (bs : List Byte) (u : Nat) :
    (pieceOf a bs u).2.length = min (u * 64 + 64 - max a (u * 64)) (bs.length - (max a (u * 64) - a)) := by
  rw [pieceOf, List.length_take, List.length_drop]

/-- A byte of another unit, or outside the write, is outside the piece. -/
theorem pieceOf_out {a k u : Nat} {bs : List Byte} (h : k / 64 ≠ u ∨ k < a ∨ a + bs.length ≤ k) :
    k < (pieceOf a bs u).1 ∨ (pieceOf a bs u).1 + (pieceOf a bs u).2.length ≤ k := by
  rw [length_pieceOf, pieceOf]
  dsimp only
  omega

/-- A byte of the write stands in the piece of its unit. -/
theorem State.mem_storePiece_in {s : State} {a i : Nat} {bs : List Byte} (src : Nat → Bool) (hi : i < bs.length)
    (hlost : s.lostAt (pieceOf a bs ((a + i) / 64)).1 = false) :
    (s.storePiece (pieceOf a bs ((a + i) / 64)) src).mem.byte (a + i) = bs[i] := by
  have hlen := length_pieceOf a bs ((a + i) / 64)
  rw [State.storePiece, hlost, if_neg Bool.false_ne_true]
  obtain ⟨j, hj⟩ : ∃ j, a + i = (pieceOf a bs ((a + i) / 64)).1 + j :=
    ⟨a + i - max a ((a + i) / 64 * 64), by rw [pieceOf]; dsimp only; omega⟩
  have hin : j < (pieceOf a bs ((a + i) / 64)).2.length := by
    rw [hlen]
    rw [pieceOf] at hj
    dsimp only at hj
    omega
  have hbyte : (pieceOf a bs ((a + i) / 64)).2[j] = bs[i] := by
    simp only [pieceOf, List.getElem_take, List.getElem_drop]
    rw [pieceOf] at hj
    dsimp only at hj
    congr 1
    omega
  have hstored := s.mem.byte_store_in (pieceOf a bs ((a + i) / 64)).1 j _ src hin
  rw [← hj, hbyte] at hstored
  exact hstored

/-! ### A whole write (R186, R200) -/

theorem SameLost.storePieces {s t : State} (h : SameLost s t) (ps : List (Nat × List Byte)) (src : Nat → Bool) :
    SameLost s (ps.foldl (fun s p => s.storePiece p src) t) := by
  induction ps generalizing t with
  | nil => exact h
  | cons p ps ih => exact ih (h.storePiece p src)

theorem SameLost.writeMem (s : State) (a : Nat) (bs : List Byte) (src : Nat → Bool) : SameLost s (s.writeMem a bs src) :=
  (SameLost.refl s).storePieces _ _

theorem State.lostAt_writeMem (s : State) (a : Nat) (bs : List Byte) (src : Nat → Bool) (k : Nat) :
    (s.writeMem a bs src).lostAt k = s.lostAt k := (SameLost.writeMem s a bs src).lostAt k

theorem State.mem_pieces_out {a k : Nat} {bs : List Byte} (src : Nat → Bool) (h : k < a ∨ a + bs.length ≤ k) (us : List Nat) (s : State) :
    ((us.map (pieceOf a bs)).foldl (fun s p => s.storePiece p src) s).mem.byte k = s.mem.byte k := by
  induction us generalizing s with
  | nil => rfl
  | cons u us ih => exact (ih _).trans (State.mem_storePiece_out src (pieceOf_out (.inr h)))

theorem State.mem_pieces_in {a i : Nat} {bs : List Byte} (src : Nat → Bool) (hi : i < bs.length) (us : List Nat) {s : State}
    (hlost : s.lostAt (pieceOf a bs ((a + i) / 64)).1 = false) (h : (a + i) / 64 ∈ us ∨ s.mem.byte (a + i) = bs[i]) :
    ((us.map (pieceOf a bs)).foldl (fun s p => s.storePiece p src) s).mem.byte (a + i) = bs[i] := by
  induction us generalizing s with
  | nil => exact h.resolve_left List.not_mem_nil
  | cons u us ih =>
    rw [List.map_cons, List.foldl_cons]
    apply ih
    · rw [((SameLost.refl s).storePiece _ src).lostAt, hlost]
    · by_cases hu : (a + i) / 64 = u
      · rw [← hu]
        exact .inr (State.mem_storePiece_in src hi hlost)
      · refine h.imp (fun hm => (List.mem_cons.1 hm).resolve_left hu) fun hbyte => ?_
        rw [State.mem_storePiece_out src (pieceOf_out (.inl hu)), hbyte]

theorem mem_unitsOf {a n k : Nat} (hlo : a ≤ k) (hhi : k < a + n) : k / 64 ∈ unitsOf a n := by
  rw [unitsOf, if_neg (by omega)]
  exact List.mem_map.2 ⟨k / 64 - a / 64, List.mem_range.2 (by omega), by omega⟩

/-- The bytes of a write to channels that work stand in memory. -/
theorem State.byteAt_writeMem_in {s : State} {a : Nat} {bs : List Byte} (src : Nat → Bool)
    (hlost : ∀ k, a ≤ k → k < a + bs.length → s.lostAt k = false) (i : Nat) (hi : i < bs.length) :
    (s.writeMem a bs src).byteAt (a + i) = bs[i] := by
  have hpiece : s.lostAt (pieceOf a bs ((a + i) / 64)).1 = false := by
    apply hlost <;> rw [pieceOf] <;> dsimp only <;> omega
  rw [State.byteAt_of_not_lost ((State.lostAt_writeMem ..).trans (hlost _ (by omega) (by omega)))]
  rw [State.writeMem, pieces_eq]
  exact State.mem_pieces_in src hi _ hpiece (.inl (mem_unitsOf (by omega) (by omega)))

/-- A byte outside a write is as it was. -/
theorem State.byteAt_writeMem_out {s : State} {a : Nat} {bs : List Byte} (src : Nat → Bool) {k : Nat}
    (h : k < a ∨ a + bs.length ≤ k) : (s.writeMem a bs src).byteAt k = s.byteAt k := by
  rw [State.byteAt, State.byteAt, State.lostAt_writeMem, State.writeMem, pieces_eq, State.mem_pieces_out src h]

/-- A write is read back. -/
theorem State.readMem_writeMem {s : State} {a : Nat} {bs : List Byte} (src : Nat → Bool)
    (hlost : ∀ k, a ≤ k → k < a + bs.length → s.lostAt k = false) : (s.writeMem a bs src).readMem a bs.length = bs := by
  refine List.ext_getElem (by simp [State.readMem]) fun i h hi => ?_
  simp only [State.readMem, List.getElem_map, List.getElem_range]
  exact State.byteAt_writeMem_in src hlost i hi

/-- A read that a write does not touch is as it was. -/
theorem State.readMem_writeMem_out {s : State} {a : Nat} {bs : List Byte} (src : Nat → Bool) {b n : Nat}
    (h : b + n ≤ a ∨ a + bs.length ≤ b) : (s.writeMem a bs src).readMem b n = s.readMem b n :=
  List.map_congr_left fun i hi => State.byteAt_writeMem_out src (by have := List.mem_range.1 hi; omega)

end Sys2Proof.Machine
end

