-- ==== Sys2Proof/Proofs/Accesses.lean ====
section
/-!
PROOFS. What the host reaches through BAR2 and BAR0, and a sequencer in its data memory (14_host_interface.md, 21_register_map.md,
05_program_model.md).
-/
set_option autoImplicit false
namespace Sys2Proof.Machine

/-! ### BAR2 (R431) -/

/-- Leaving deep idle loses no channel and changes no byte. -/
theorem State.deepExit_sameLost (s : State) : SameLost s s.deepExit := by
  have hreach : (s.reach (s.aoNs + 60000)).dram = s.dram := (State.reach_only (hm := Nat.and_self _) (hk := .refl _ s) ..).dram rfl
  rw [State.deepExit]
  split
  · rw [SameLost]
    dsimp only [State.modPwr, State.channel]
    rw [hreach]
    exact ⟨rfl, fun _ => rfl⟩
  · exact .refl s

theorem State.mem_deepExit (s : State) : s.deepExit.mem = s.mem := (State.deepExit_only (hm := Nat.and_self _) (hk := .refl _ s) ..).mem rfl

/-- An entry of the Day Book loses no channel and changes no byte. -/
theorem State.log_sameLost (s : State) (c : EventClass) (source : Nat) (data : List (Nat × Nat)) : SameLost s (s.log c source data) :=
  .of_dram ((State.log_only (hm := Nat.and_self _) (hk := .refl _ s) ..).dram rfl)

theorem State.mem_log (s : State) (c : EventClass) (source : Nat) (data : List (Nat × Nat)) : (s.log c source data).mem = s.mem :=
  (State.log_only (hm := Nat.and_self _) (hk := .refl _ s) ..).mem rfl

theorem execBar2Read_answers {off n : Nat} {s : State} (hbar : off + n ≤ bar2Size) (hready : s.dev.ready = true) (hfatal : s.err.fatal = false)
    (htop : s.host.bar2Gib * 2 ^ 30 + off + n ≤ s.dram.top) :
    Answers (execBar2Read off n [] s) (fun t => (∃ before, t.out = before ++
        [.readData (leNat (s.readMem (s.host.bar2Gib * 2 ^ 30 + off) n)) (s.poisonIn (s.host.bar2Gib * 2 ^ 30 + off) n)]) ∧ t.mem = s.mem) := by
  have hpoison := s.deepExit_sameLost.poisonIn s.mem_deepExit (s.host.bar2Gib * 2 ^ 30 + off) n
  have hread (u : State) (hlost : SameLost s.deepExit u) (hmem : u.mem = s.deepExit.mem) :
      u.readMem (s.host.bar2Gib * 2 ^ 30 + off) n = s.readMem (s.host.bar2Gib * 2 ^ 30 + off) n :=
    (s.deepExit_sameLost.trans hlost).readMem (hmem.trans s.mem_deepExit) _ _
  rw [execBar2Read, if_neg (Nat.not_lt.2 hbar), if_neg (not_not_intro hready), if_neg (Bool.eq_false_iff.1 hfatal)]
  dsimp only
  rw [if_neg (Nat.not_lt.2 htop), List.filter_nil, show s.deepExit.eccAll [] = s.deepExit from rfl, hpoison]
  refine Answers.next ⟨⟨_, congrArg (fun x => _ ++ [Out.readData (leNat x) _]) (hread _ (.refl _) rfl)⟩, ?_⟩
  rw [State.emit_mem]
  split
  · exact (State.mem_log ..).trans s.mem_deepExit
  · exact s.mem_deepExit

theorem execBar2Write_stores {off : Nat} {data : List Byte} (p : Bool) {s : State} (hbar : off + data.length ≤ bar2Size)
    (hready : s.dev.ready = true) (hfatal : s.err.fatal = false) (htop : s.host.bar2Gib * 2 ^ 30 + off + data.length ≤ s.dram.top) :
    Answers (execBar2Write off data p s) (fun t =>
      ((∀ k, s.host.bar2Gib * 2 ^ 30 + off ≤ k → k < s.host.bar2Gib * 2 ^ 30 + off + data.length → s.lostAt k = false) →
        ∀ (i : Nat) (hi : i < data.length), t.byteAt (s.host.bar2Gib * 2 ^ 30 + off + i) = data[i]) ∧
      (∀ k, (k < s.host.bar2Gib * 2 ^ 30 + off ∨ s.host.bar2Gib * 2 ^ 30 + off + data.length ≤ k) → t.byteAt k = s.byteAt k)) := by
  have hwrite (u : State) (hlost : SameLost s u) (hmem : u.mem = s.mem) (a : Nat) :
      ((∀ k, a ≤ k → k < a + data.length → s.lostAt k = false) →
        ∀ (i : Nat) (hi : i < data.length), (u.writeMem a data (fun _ => p)).byteAt (a + i) = data[i]) ∧
      (∀ k, (k < a ∨ a + data.length ≤ k) → (u.writeMem a data (fun _ => p)).byteAt k = s.byteAt k) :=
    ⟨fun hworks => State.byteAt_writeMem_in _ fun k hlo hhi => (hlost.lostAt k).trans (hworks k hlo hhi),
      fun k hk => (State.byteAt_writeMem_out _ hk).trans (hlost.byteAt hmem k)⟩
  rw [execBar2Write]
  dsimp only
  rw [if_neg (by simp [hready, hfatal, hbar]), if_neg (Nat.not_lt.2 htop)]
  refine Answers.next ?_
  split
  · exact hwrite _ (s.deepExit_sameLost.trans (State.log_sameLost ..)) ((State.mem_log ..).trans s.mem_deepExit) _
  · exact hwrite _ s.deepExit_sameLost s.mem_deepExit _

/-! ### BAR0 (R12, R482, R596) -/

theorem State.writeReg_of_illegal {a n : Nat} (v : Nat) (s : State) (h : accessOk a n = false ∨ regAt (a - a % 8) = none) :
    s.writeReg a n v = s := by
  rw [State.writeReg]
  split
  · rfl
  next hok =>
    have hnone := h.resolve_left fun hbad => hok (Bool.eq_false_iff.1 hbad)
    dsimp only
    rw [hnone]

/-- A read that meets a stopped clock waits in the crossing (R482). -/
theorem exec_registerRead_asleep {a w : Nat} {r : Reg} {s : State} (hok : accessOk a 8 = true) (hreg : regAt (a - a % 8) = some (r, w))
    (hasleep : s.regAsleep r = true) : exec (.registerRead .host a 8) s = .next (s.crosses r.domain a 8) := by
  have hstop : s.stoppedAt a 8 = some r.domain := by simp [State.stoppedAt, hreg, hok, hasleep]
  rw [show exec (.registerRead .host a 8) s = execRegisterRead .host a 8 s from rfl, execRegisterRead]
  dsimp only
  rw [hstop]

/-! ### A sequencer's own data memory (R160) -/

theorem State.seqWord_dmem {c a : Nat} (s : State) (ha : a < 0x80000) :
    s.seqWord c a = some (leNat ((List.range 8).map (fun i => tget (s.cluster c).seq.dmem 0 (a + i)))) := by
  rw [State.seqWord]
  exact if_pos ha

theorem State.seqStore_dmem {c a n : Nat} (v : Nat) (s : State) (hn : 0 < n) (hmax : n ≤ 8) (halign : a % n = 0) (hin : a + n ≤ 0x80000)
    (i : Nat) (hi : i < (leBytes n v).length) : tget ((s.seqStore c a n v).cluster c).seq.dmem 0 (a + i) = (leBytes n v)[i] := by
  rw [State.seqStore, if_neg (by omega), if_pos (by omega), State.cluster_modSeq, if_pos rfl]
  exact cellsPut_in _ _ _ _ hi

/-- Addresses below the end of DMEM have no effect of their own when they are read (R160). -/
theorem State.seqClear_dmem {c a n : Nat} (s : State) (ha : a < 0x80000) : s.seqClear c a n = s := by
  rw [State.seqClear]
  dsimp only
  rw [if_neg (by omega), if_neg (by omega), if_neg (by omega), if_neg (by omega), if_neg (by omega)]

theorem State.seqLoad_dmem {c g a n : Nat} {s : State} (hn : 0 < n) (hmax : n ≤ 8) (halign : a % n = 0) (hin : a + n ≤ 0x80000)
    (hclean : (s.cluster c).seq.dmemBad.contains (a / 64) = false) :
    tget ((s.seqLoad c g a n).cluster c).seq.g 0 (g % 32) =
      BitVec.ofNat 64 (fld (leNat ((List.range 8).map (fun i => tget (s.cluster c).seq.dmem 0 (a - a % 8 + i)))) (8 * (a % 8)) (8 * n)) := by
  have htake : takesCoin (a - a % 8) = false := by
    rw [takesCoin, decide_eq_false (by omega)]
    rfl
  rw [State.seqLoad, htake, if_neg Bool.false_ne_true, if_neg (by omega), if_neg (by omega), State.seqWord_dmem s (by omega)]
  dsimp only
  rw [if_neg (by simp only [hclean]; simp), State.seqClear_dmem _ (by omega), State.seqStale, if_neg (by omega), State.cluster_modSeq,
    if_pos rfl, tget_tset, if_pos rfl]

/-- A tick of a sequencer leaves its data memory. -/
theorem State.dmem_tick (s : State) (c : Nat) (t : Tick) :
    ((s.tick c t).cluster c).seq.dmem = (s.cluster c).seq.dmem ∧ ((s.tick c t).cluster c).seq.dmemBad = (s.cluster c).seq.dmemBad := by
  rw [State.cluster_tick, State.cluster_modSeq, if_pos rfl, State.cluster_advance, State.cluster_modSeq, if_pos rfl]
  exact ⟨rfl, rfl⟩

/-- Settles O31: a host access of a whole slot reaches one word of one register, and a tick leaves the data memory to the access. -/
theorem hostAccesses : Obligations.HostAccesses := by
  unfold Obligations.HostAccesses
  have hslot {a : Nat} {x : Option (Reg × Nat)} (hok : accessOk a 8 = true) (hreg : regAt (a - a % 8) = x) : regAt a = x := by
    rw [← hreg, mod_eight_of_accessOk hok, Nat.sub_zero]
  refine ⟨fun off n s => execBar2Read_answers, fun off data p s => execBar2Write_stores p,
    fun a n v s h => congrArg _ (State.writeReg_of_illegal v s h), fun a v c s _ hok hreg => ?_, fun a v k s hok hreg => ?_,
    fun c a n v g t s hissues hn hmax halign hin => ?_, fun a r w s hok hreg hnarrow hawake => ?_, fun a r w s hok hreg hasleep => ?_⟩
  · rw [exec_registerWrite_host_word v s hok (hslot hok hreg) (s.regAsleep_of_needs_none rfl)]
    refine Answers.next ?_
    rw [State.writeWord, State.cluster_modPurse, if_pos rfl]
    exact (fld_zero _ _).trans (Nat.mod_mod_of_dvd v (by decide))
  · rw [exec_registerWrite_host_word v s hok (hslot hok hreg) (s.regAsleep_of_needs_none rfl)]
    refine ⟨fun hlock => congrArg _ (State.writeWord_ownerKey_locked _ _ _ _ hlock), fun hfree => Answers.next ?_⟩
    rw [State.writeWord_ownerKey_unlocked _ _ _ _ hfree]
    dsimp only
    rw [tget_tset, if_pos rfl, BitVec.toNat_ofNat, Nat.mod_mod]
  · obtain ⟨hmem, hbad⟩ := s.dmem_tick c t
    refine ⟨?_, fun hclean => ?_⟩
    · rw [show exec (.registerWrite (.seq c t g) a n v) s = .next (s.onSeq c t (fun s => s.seqStore c a n v)) from rfl,
        State.onSeq_of_seqIssues _ hissues]
      exact Answers.next (State.seqStore_dmem v _ hn hmax halign hin)
    · rw [show exec (.registerRead (.seq c t g) a n) s = .next (s.onSeq c t (fun s => s.seqLoad c g a n)) from rfl,
        State.onSeq_of_seqIssues _ hissues, ← hmem]
      exact Answers.next (State.seqLoad_dmem hn hmax halign hin (by rw [hbad, hclean]))
  · rw [exec_registerRead_host_word s hok (hslot hok hreg) hawake hnarrow]
    exact Answers.next ⟨_, rfl⟩
  · rw [exec_registerRead_asleep hok hreg hasleep]
    exact Answers.next ⟨rfl, rfl⟩

end Sys2Proof.Machine
end

