-- ==== Sys2Proof/Proofs/Completions.lean ====
section
/-!
PROOFS. What the completion of a descriptor does, and what it leaves (14_host_interface.md).
-/
set_option autoImplicit false
namespace Sys2Proof.Machine

/-- A completion touches the host interface and what left the device, and nothing else. -/
theorem Only.completed_eq {s t : State} (h : Only 1040 s t) : t = { s with out := t.out, host := t.host } := by
  obtain ⟨hpending, haoNs, hdevOff, hfree, -, hfuses, hflash, hledger, hdev, herr, -, hjob, hsaved, hpreempt, hpreempts, hclusters, hcores,
    hunits, hhwm, hmem, hdram, hsettle, hdec, hcol, hports, htime, hrtr, hpwr, hrails, hmgmt, htel, hsec, hlatches⟩ := h
  rw [← hpending rfl, ← haoNs rfl, ← hdevOff rfl, ← hfree rfl, ← hfuses rfl, ← hflash rfl, ← hledger rfl, ← hdev rfl, ← herr rfl, ← hjob rfl,
    ← hsaved rfl, ← hpreempt rfl, ← hpreempts rfl, ← hclusters rfl, ← hcores rfl, ← hunits rfl, ← hhwm rfl, ← hmem rfl, ← hdram rfl,
    ← hsettle rfl, ← hdec rfl, ← hcol rfl, ← hports rfl, ← htime rfl, ← hrtr rfl, ← hpwr rfl, ← hrails rfl, ← hmgmt rfl, ← htel rfl,
    ← hsec rfl, ← hlatches rfl]

theorem State.complete_eq (s : State) (d : Desc) (st : Status) (result detail guard cluster : Nat) :
    s.complete d st result detail guard cluster = { s with
      out := (s.complete d st result detail guard cluster).out, host := (s.complete d st result detail guard cluster).host } :=
  Only.completed_eq (State.complete_only (hm := Nat.and_self _) (hk := .refl _ s) ..)

/-- A ring that is settled keeps every other descriptor and the held completions. -/
theorem State.settleRing_kept (s : State) (n : Nat) :
    (s.settleRing n).host.inflight = s.host.inflight ∧ (s.settleRing n).out = s.out := by
  rw [State.settleRing]
  split <;> exact ⟨rfl, rfl⟩

/-- An entry goes to its slot of host memory, before what its vector sends (R449, R453). -/
theorem State.writeEntry_writes (s : State) (n : Nat) (c : Completion) :
    (s.writeEntry n c).host.inflight = s.host.inflight ∧ ∃ after, (s.writeEntry n c).out =
      s.out ++ .hostWrite ((s.ring n).slot 32) (c.bytes (s.ring n).fetched (s.ring n).phase) false :: after := by
  unfold State.writeEntry
  extract_lets r s₁ s₂
  have hhost := State.signal_sameHost s₂ r.vector c.irq (hk := .refl s₂)
  obtain ⟨after, hafter⟩ := (State.signal_keeps (kb := true) s₂ r.vector c.irq (.refl true s₂)).outPrefix
  refine ⟨hhost.inflight.trans rfl, after, ?_⟩
  rw [← hafter]
  exact List.append_assoc ..

/-- A descriptor that completes leaves flight, and its entry goes to its ring (R437, R441, R448). -/
theorem Completed.of_complete {s t : State} {d : Desc} (st : Status) (result detail guard cluster : Nat) (hout : t.out = s.out)
    (hring : t.ring d.ring = s.ring d.ring) (hinflight : t.host.inflight = s.host.inflight) :
    Completed s (t.complete d st result detail guard cluster) d st result detail := by
  unfold State.complete
  extract_lets u c
  have huring : u.ring d.ring = s.ring d.ring := hring
  have huinflight : u.host.inflight = s.host.inflight.erase d := congrArg (List.erase · d) hinflight
  have huout : u.out = s.out := hout
  refine ⟨c, rfl, rfl, rfl, rfl, rfl, ?_⟩
  rw [State.postEntry, huring]
  split
  · refine ⟨huinflight, ?_, huout⟩
    rw [State.ring_modRing, if_pos rfl, huring]
  · obtain ⟨hwinflight, after, hwout⟩ := u.writeEntry_writes d.ring c
    obtain ⟨hsinflight, hsout⟩ := (u.writeEntry d.ring c).settleRing_kept d.ring
    refine ⟨hsinflight.trans (hwinflight.trans huinflight), after, ?_⟩
    rw [hsout, hwout, huring, huout]

/-- As `Completed.of_complete`, after a change that leaves the host interface and what left the device. -/
theorem Completed.of_same {s t : State} (d : Desc) (st : Status) (result detail guard cluster : Nat) (hout : t.out = s.out)
    (hhost : t.host = s.host) : Completed s (t.complete d st result detail guard cluster) d st result detail :=
  .of_complete st result detail guard cluster hout (congrArg (fun h : HostIf => tget h.rings {} d.ring) hhost) (congrArg (·.inflight) hhost)


end Sys2Proof.Machine
end

