-- ==== Sys2Proof/Proofs/Reconcile.lean ====
section
/-!
PROOFS. RECONCILE and STATEMENT_REQ (14_host_interface.md, 17_management_and_life_ledger.md).
-/
set_option autoImplicit false
namespace Sys2Proof.Machine

theorem State.units_complete (s : State) (d : Desc) (st : Status) (result detail guard cluster : Nat) :
    (s.complete d st result detail guard cluster).units = s.units := by
  rw [State.complete_eq]

theorem State.mgmt_complete (s : State) (d : Desc) (st : Status) (result detail guard cluster : Nat) :
    (s.complete d st result detail guard cluster).mgmt = s.mgmt := by
  rw [State.complete_eq]

/-! ### RECONCILE (R447, R526) -/

theorem execReconcileAccept_clears {d : Desc} {u : UnitName} {s : State} (hheld : s.holds d 0x0C = true) (haction : d.at 0x0A 2 = 0)
    (hname : s.reconcileUnit d = .inl u) (hmismatch : (s.unit u.code).mismatch = true)
    (hagree : consistent (s.permWord u) (s.execWord u) = true) :
    Answers (execReconcileAccept d s) (fun t => Completed s t d .ok 0 0 ∧ (t.unit u.code).mismatch = false ∧
      (t.unit u.code).perm = (s.unit u.code).perm) := by
  rw [execReconcileAccept, if_pos ⟨hheld, haction⟩, hname]
  dsimp only
  rw [if_neg (not_not_intro hmismatch), if_pos hagree]
  refine Answers.next ⟨.of_same d _ _ _ _ _ rfl rfl, ?_⟩
  rw [State.unit_of_units (State.units_complete ..), State.unit_modUnit, if_pos rfl]
  exact ⟨rfl, rfl⟩

theorem execReconcileAccept_refuses {d : Desc} {u : UnitName} {s : State} (hheld : s.holds d 0x0C = true) (haction : d.at 0x0A 2 = 0)
    (hname : s.reconcileUnit d = .inl u) (hmismatch : (s.unit u.code).mismatch = true)
    (hdisagree : consistent (s.permWord u) (s.execWord u) = false) :
    Answers (execReconcileAccept d s) (fun t => Completed s t d .stateMismatch 0 0 ∧ t.units = s.units) := by
  rw [execReconcileAccept, if_pos ⟨hheld, haction⟩, hname]
  dsimp only
  rw [if_neg (not_not_intro hmismatch), if_neg (Bool.eq_false_iff.1 hdisagree)]
  exact Answers.next ⟨.of_same d _ _ _ _ _ rfl rfl, State.units_complete ..⟩

/-- Containment takes no fence away. -/
theorem State.fenced_contain {s : State} {k : Nat} (v : UnitName) (h : (s.unit k).perm = .fenced) :
    ((s.contain v).unit k).perm = .fenced := by
  rw [State.contain, State.unit_modUnit]
  split
  next hk =>
    dsimp only
    rw [← hk]
    split
    · exact h
    · rfl
  next => exact h

/-- The loss of a channel takes no fence away (R492). -/
theorem State.fenced_loseChannel {s : State} {k : Nat} (n : Nat) (h : (s.unit k).perm = .fenced) :
    ((s.loseChannel n).unit k).perm = .fenced := by
  have hkeep (u : State) : ((u.closeWindow .dramChannelLost (srcDdr n)).unit k).perm = (u.unit k).perm :=
    (State.closeWindow_sameOrders (hk := .refl u) ..).perm k
  unfold State.loseChannel
  split
  · rw [hkeep]
    refine State.fenced_contain _ (State.fenced_contain _ ?_)
    rw [State.unit_modChannel, (State.detect_sameOrders (hk := .refl s) ..).perm k]
    exact h
  · exact h

theorem execReconcileFence_fences {d : Desc} {u : UnitName} {s : State} (hheld : s.holds d 0x0C = true) (haction : d.at 0x0A 2 = 1)
    (hname : s.reconcileUnit d = .inl u) (hfree : (s.unit u.code).fencing = none) :
    Answers (execReconcileFence d s) (fun t => (t.unit u.code).perm = .fenced) := by
  rw [execReconcileFence, if_pos ⟨hheld, haction⟩, hname]
  dsimp only
  rw [hfree, if_neg (fun h => h.1 rfl)]
  have hfenced : (((s.modUnit u.code (fun x => { x with perm := .fenced, fencing := some d })).unit u.code)).perm = .fenced := by
    rw [State.unit_modUnit, if_pos rfl]
  refine Answers.next ?_
  rw [(State.fenceDone_sameOrders (hk := .refl _) ..).perm]
  split
  · exact State.fenced_loseChannel _ hfenced
  · exact hfenced

theorem execReconcileEnable_enables {d : Desc} {u : UnitName} {s : State} (hheld : s.holds d 0x0C = true) (haction : d.at 0x0A 2 = 2)
    (hname : s.reconcileUnit d = .inl u) (hfree : s.withheld u = false) :
    Answers (execReconcileEnable d s) (fun t => Completed s t d .ok 0 0 ∧ (t.unit u.code).perm = .enabled ∧
      (t.unit u.code).mismatch = false) := by
  rw [execReconcileEnable, if_pos ⟨hheld, haction⟩, hname]
  dsimp only
  rw [if_neg (Bool.eq_false_iff.1 hfree)]
  refine Answers.next ⟨.of_same d _ _ _ _ _ rfl rfl, ?_⟩
  rw [State.unit_of_units (State.units_complete ..), State.unit_modUnit, if_pos rfl]
  exact ⟨rfl, rfl⟩

/-! ### STATEMENT_REQ (R528) -/

theorem execStatementReq_plans {d : Desc} {s : State} (hheld : s.holds d 0x0E = true) (hlater : bit (d.at 8 1) 0 = false)
    (hperiod : d.at 0x0C 4 = 0 ∨ (1000 ≤ d.at 0x0C 4 ∧ d.at 0x0C 4 ≤ 1000000)) :
    Answers (execStatementReq d s) (fun t => Completed s t d .ok 0 0 ∧
      t.mgmt.nextPeriod = if d.at 0x0C 4 = 0 then s.mgmt.nextPeriod else some (d.at 0x0C 4)) := by
  rw [execStatementReq, if_pos hheld]
  dsimp only
  rw [if_neg (by omega), show (if ¬ bit (d.at 8 1) 0 = true then s else s.stmtNow) = s from if_pos (Bool.eq_false_iff.1 hlater)]
  split
  · exact Answers.next ⟨.of_same d _ _ _ _ _ rfl rfl, congrArg (·.nextPeriod) (State.mgmt_complete ..)⟩
  · refine Answers.next ⟨.of_same d _ _ _ _ _ rfl rfl, ?_⟩
    rw [State.mgmt_complete]
    rfl

/-- Settles O33: nothing that follows an order to a unit takes the order back. -/
theorem reconcileAndRequest : Obligations.ReconcileAndRequest := by
  unfold Obligations.ReconcileAndRequest
  exact ⟨fun d u s => execReconcileAccept_clears, fun d u s => execReconcileAccept_refuses, fun d u s => execReconcileFence_fences,
    fun d u s => execReconcileEnable_enables, fun d s => execStatementReq_plans⟩

end Sys2Proof.Machine
end

