-- ==== Sys2Proof/Proofs/JobDescriptors.lean ====
section
/-!
PROOFS. The descriptors that load and unload a job, set the slice, run commands, pre-empt and resume them (14_host_interface.md).
-/
set_option autoImplicit false
namespace Sys2Proof.Machine

/-! ### JOB_LOAD (R174) -/

/-- An image in host memory is judged once the reports have taken effect (R174, R443). -/
theorem execJobLoad_of_host {d : Desc} {image : List Byte} {ecc : List (Nat × EccResult)} {s u : State} (hu : u = s.eccAll ecc)
    (hheld : s.holds d 1 = true) (hhost : bit (d.at 0x24 1) 0 = false) :
    execJobLoad d image ecc s = .next (u.jobLoad d (image.take (d.at 0x10 8)) none) := by
  rw [execJobLoad, if_pos hheld]
  dsimp only
  rw [if_neg (Bool.eq_false_iff.1 hhost), ← hu]

/-- A good image is loaded (R174). -/
theorem State.jobLoad_good {d : Desc} {img : List Byte} {u : State} (hnone : u.job.loaded = false) (hidle : u.commandRuns = false)
    (hdebug : u.sec.debugEnd = none) (halign : d.at 8 8 % 64 = 0) (hctx : u.contextOk (d.at 0x18 8) = true)
    (hgood : u.imgCheck img = none) (hmatch : u.imgMismatch img = false) :
    u.jobLoad d img none = (u.loadImage d img none).complete d .ok (imgLoaded img) := by
  rw [State.jobLoad, if_neg (by simp [hnone, hidle, hdebug]), if_neg (by simp [halign, hctx]), hgood]
  exact if_neg (by simp [hmatch])

/-- An image that fails a row other than the signature's is refused, and nothing is logged (R174). -/
theorem State.jobLoad_bad {d : Desc} {img : List Byte} {row ix : Nat} {st : Status} {u : State} (hnone : u.job.loaded = false)
    (hidle : u.commandRuns = false) (hdebug : u.sec.debugEnd = none) (halign : d.at 8 8 % 64 = 0) (hctx : u.contextOk (d.at 0x18 8) = true)
    (hbad : u.imgCheck img = some (row, ix, st)) (hrow : row ≠ 5) : u.jobLoad d img none = u.complete d st 0 (detailOf row ix) := by
  rw [State.jobLoad, if_neg (by simp [hnone, hidle, hdebug]), if_neg (by simp [halign, hctx]), hbad]
  exact congrArg (fun v : State => v.complete d st 0 (detailOf row ix)) (if_neg fun h => hrow h.1)

/-- A loaded image is the job, and slots 9 and 10 measure it (R174, R553). -/
theorem State.job_loadImage (s : State) (d : Desc) (img : List Byte) (src : Option Nat) :
    (s.loadImage d img src).job.loaded = true ∧ (s.loadImage d img src).job.id = d.at 0x20 4 ∧
    (s.loadImage d img src).job.ctxAddr = d.at 0x18 8 ∧ (s.loadImage d img src).job.hash = imgContentHash img ∧
    (s.loadImage d img src).sec.slot 9 = imgContentHash img := by
  rw [State.loadImage, State.slot_extendSlot, if_neg (by decide), State.slot_setSlot, if_pos rfl]
  exact ⟨rfl, rfl, rfl, rfl, rfl⟩

theorem execJobLoad_loads {d : Desc} {image : List Byte} {ecc : List (Nat × EccResult)} {s u : State} (hu : u = s.eccAll ecc)
    (hheld : s.holds d 1 = true) (hhost : bit (d.at 0x24 1) 0 = false) (hnone : u.job.loaded = false) (hidle : u.commandRuns = false)
    (hdebug : u.sec.debugEnd = none) (halign : d.at 8 8 % 64 = 0) (hctx : u.contextOk (d.at 0x18 8) = true)
    (hgood : u.imgCheck (image.take (d.at 0x10 8)) = none) (hmatch : u.imgMismatch (image.take (d.at 0x10 8)) = false) :
    Answers (execJobLoad d image ecc s) (fun t => Completed u t d .ok (imgLoaded (image.take (d.at 0x10 8))) 0 ∧ t.job.loaded = true ∧
      t.job.id = d.at 0x20 4 ∧ t.job.ctxAddr = d.at 0x18 8 ∧ t.job.hash = imgContentHash (image.take (d.at 0x10 8)) ∧
      t.sec.slot 9 = imgContentHash (image.take (d.at 0x10 8))) := by
  have hsame := State.loadImage_only u d (image.take (d.at 0x10 8)) none (hm := Nat.and_self _) (hk := .refl _ u)
  have hjob := u.job_loadImage d (image.take (d.at 0x10 8)) none
  rw [execJobLoad_of_host hu hheld hhost, State.jobLoad_good hnone hidle hdebug halign hctx hgood hmatch]
  refine Answers.next ⟨.of_same d _ _ _ _ _ (hsame.out rfl) (hsame.host rfl), ?_⟩
  rw [State.complete_eq]
  generalize u.loadImage d (image.take (d.at 0x10 8)) none = v at hjob
  exact hjob

theorem execJobLoad_refuses {d : Desc} {image : List Byte} {ecc : List (Nat × EccResult)} {row ix : Nat} {st : Status} {s u : State}
    (hu : u = s.eccAll ecc) (hheld : s.holds d 1 = true) (hhost : bit (d.at 0x24 1) 0 = false) (hnone : u.job.loaded = false)
    (hidle : u.commandRuns = false) (hdebug : u.sec.debugEnd = none) (halign : d.at 8 8 % 64 = 0) (hctx : u.contextOk (d.at 0x18 8) = true)
    (hbad : u.imgCheck (image.take (d.at 0x10 8)) = some (row, ix, st)) (hrow : row ≠ 5) :
    Answers (execJobLoad d image ecc s) (fun t => Completed u t d st 0 (detailOf row ix) ∧ t.job = u.job ∧ t.mem = u.mem ∧
      t.clusters = u.clusters) := by
  rw [execJobLoad_of_host hu hheld hhost, State.jobLoad_bad hnone hidle hdebug halign hctx hbad hrow]
  refine Answers.next ⟨.of_same d _ _ _ _ _ rfl rfl, ?_⟩
  rw [State.complete_eq]
  exact ⟨rfl, rfl, rfl⟩

/-! ### JOB_UNLOAD (R446, R552) -/

/-- What the clearing of a job leaves of the parts that hold it (R446). -/
theorem State.clearJob_parts (s : State) : s.clearJob.clusters = (s.modClusters (fun _ k => k.clearJob)).clusters ∧
    s.clearJob.job.loaded = false ∧ s.clearJob.saved = none ∧ s.clearJob.col.plan = [] ∧ s.clearJob.settle.rows = [] ∧
    s.clearJob.out = (s.modClusters (fun _ k => k.clearJob)).out ∧ s.clearJob.host = (s.modClusters (fun _ k => k.clearJob)).host := by
  rw [State.clearJob]
  generalize s.modClusters (fun _ k => k.clearJob) = u
  exact ⟨rfl, rfl, rfl, rfl, rfl, rfl, rfl⟩

/-- A scrub after a job is cleared leaves nothing of the job in a cluster. -/
theorem State.cluster_scrub_clearJob {c : Nat} (s : State) (n : Nat) (hc : c < 8) :
    ((s.clearJob.scrub n).cluster c).queues = [] ∧ ((s.clearJob.scrub n).cluster c).slots = [] ∧
    ((s.clearJob.scrub n).cluster c).seq.imem = [] ∧ ((s.clearJob.scrub n).cluster c).seq.dmem = [] := by
  have hcleared : s.clearJob.cluster c = (s.cluster c).clearJob :=
    (State.cluster_of_clusters s.clearJob_parts.1 c).trans (State.cluster_modClusters s _ c hc)
  by_cases hn : 1 ≤ n
  · rw [State.cluster_of_clusters (State.scrub_clusters s.clearJob hn), State.cluster_modClusters _ _ _ hc, hcleared]
    exact ⟨rfl, rfl, rfl, rfl⟩
  · rw [show n = 0 by omega, State.scrub_zero, hcleared]
    exact ⟨rfl, rfl, rfl, rfl⟩

/-- What SCRUB names is zero (R446). -/
theorem State.byte_scrub {n : Nat} (s : State) :
    (1 ≤ n → ∀ a, dramWindow ≤ a → a < 2 ^ 48 → (s.scrub n).mem.byte a = 0) ∧ (n = 2 → ∀ a, a < dramWindow → (s.scrub n).mem.byte a = 0) := by
  refine ⟨fun hn a hlo hhi => ?_, fun hn a ha => ?_⟩
  · rw [State.scrub_mem s hn]
    split
    · rw [Memory.byte_zero, if_neg (by omega), Memory.byte_zero, if_pos ⟨hlo, hhi⟩]
    · rw [Memory.byte_zero, if_pos ⟨hlo, hhi⟩]
  · rw [State.scrub_mem s (by omega), if_pos hn, Memory.byte_zero, if_pos ⟨Nat.zero_le a, ha⟩]

theorem exec_jobUnload_clears {d : Desc} {n : Nat} {s : State} (hheld : s.holds d 2 = true) (hidle : s.commandRuns = false)
    (hfield : fld (d.at 8 1) 0 2 ≠ 3) (hn : n = max (fld (d.at 8 1) 0 2) s.sec.minScrub) :
    Answers (exec (.jobUnload d) s) (fun t => Completed s t d .ok 0 0 ∧ t.job.loaded = false ∧ t.saved = none ∧ t.col.plan = [] ∧
      t.settle.rows = [] ∧ (∀ c, c < 8 → (t.cluster c).queues = [] ∧ (t.cluster c).slots = [] ∧ (t.cluster c).seq.imem = [] ∧
        (t.cluster c).seq.dmem = []) ∧ (1 ≤ n → ∀ a, dramWindow ≤ a → a < 2 ^ 48 → t.mem.byte a = 0) ∧
      (n = 2 → ∀ a, a < dramWindow → t.mem.byte a = 0)) := by
  have hscrub := State.scrub_only s.clearJob n (hm := Nat.and_self _) (hk := .refl _ _)
  obtain ⟨-, hjob, hsaved, hplan, hrows, hout, hhost⟩ := s.clearJob_parts
  rw [exec_jobUnload hheld hidle hfield hn]
  refine Answers.next ⟨.of_same d _ _ _ _ _ ((hscrub.out rfl).trans (hout.trans (State.modClusters_out ..)))
    ((hscrub.host rfl).trans (hhost.trans (State.modClusters_host ..))), ?_⟩
  rw [State.complete_eq]
  exact ⟨(congrArg (·.loaded) (hscrub.job rfl)).trans hjob, (hscrub.saved rfl).trans hsaved, (congrArg (·.plan) (hscrub.col rfl)).trans hplan,
    (congrArg (·.rows) (hscrub.settle rfl)).trans hrows, fun c => State.cluster_scrub_clearJob s n, State.byte_scrub _⟩

/-! ### SLICE_SET (R355) -/

theorem State.forgetSlice_kept (s : State) : s.forgetSlice.rtr = s.rtr ∧ s.forgetSlice.out = s.out ∧ s.forgetSlice.host = s.host :=
  ⟨rfl, rfl, rfl⟩

theorem execSliceSet_leaves {d : Desc} {s : State} (hheld : s.holds d 3 = true) (hrow : s.sliceRow (bytesCoord d 0x0C) (bytesCoord d 0x10) = 3) :
    Answers (execSliceSet d s) (fun t => Completed s t d .ok 0 0 ∧ t.hasSlice = false) := by
  obtain ⟨-, hout, hhost⟩ := s.forgetSlice_kept
  have hexec : execSliceSet d s = .next ((s.forgetSlice.modSlice (fun x => { resetNo := x.resetNo })).complete d .ok) := by
    simp only [execSliceSet, hheld, hrow, if_true]
  rw [hexec]
  refine Answers.next ⟨.of_same d _ _ _ _ _ hout hhost, ?_⟩
  rw [State.complete_eq, State.hasSlice, State.modSlice_rtr]
  rfl

/-- A slice is in force with what its command names and the resets counted before (R355). -/
theorem State.slice_sliceInForce (s : State) (id : Nat) (o e : Coord) :
    ∃ st axes, st ≠ 0 ∧ s.sliceInForce id o e = s.forgetSlice.modSlice (fun x =>
      { st := st, id := id, origin := o, extent := e, axes := axes, resetNo := x.resetNo }) := by
  unfold State.sliceInForce
  extract_lets u bad
  split
  · exact ⟨1, _, by decide, rfl⟩
  · exact ⟨2, _, by decide, rfl⟩

theorem execSliceSet_sets {d : Desc} {s : State} (hheld : s.holds d 3 = true) (hrow : s.sliceRow (bytesCoord d 0x0C) (bytesCoord d 0x10) = 7) :
    Answers (execSliceSet d s) (fun t => Completed s t d .ok 0 0 ∧ t.hasSlice = true ∧ t.rtr.slice.id = d.at 8 4 ∧
      t.rtr.slice.origin = bytesCoord d 0x0C ∧ t.rtr.slice.extent = bytesCoord d 0x10 ∧ t.rtr.slice.resetNo = s.rtr.slice.resetNo) := by
  obtain ⟨hrtr, hout, hhost⟩ := s.forgetSlice_kept
  obtain ⟨st, axes, hst, hset⟩ := s.slice_sliceInForce (d.at 8 4) (bytesCoord d 0x0C) (bytesCoord d 0x10)
  have hexec : execSliceSet d s = .next ((s.sliceInForce (d.at 8 4) (bytesCoord d 0x0C) (bytesCoord d 0x10)).complete d .ok) := by
    simp only [execSliceSet, hheld, hrow, if_true]
  rw [hexec, hset]
  refine Answers.next ⟨.of_same d _ _ _ _ _ hout hhost, ?_⟩
  rw [State.complete_eq, State.hasSlice, State.modSlice_rtr, hrtr]
  exact ⟨bne_iff_ne.2 hst, rfl, rfl, rfl, rfl⟩

/-! ### RUN_STEP and RUN_LAYERS (R165, R451) -/

/-- The command leaves the sequencer of a cluster. -/
def Sequencer.leave (d : Desc) (q : Sequencer) : Sequencer :=
  if q.cmd = some d then { q with cmd := none, ended := none, reported := false } else q

theorem Sequencer.cmd_leave (d : Desc) (q : Sequencer) : (q.leave d).cmd ≠ some d := by
  rw [Sequencer.leave]
  split
  · exact nofun
  next h => exact h

theorem State.cmd_foldl_leave {d : Desc} {c : Nat} (l : List Nat) {s : State} (h : c ∈ l ∨ (s.cluster c).seq.cmd ≠ some d) :
    ((l.foldl (fun s c => s.modSeq c (Sequencer.leave d)) s).cluster c).seq.cmd ≠ some d := by
  induction l generalizing s with
  | nil => exact h.resolve_left List.not_mem_nil
  | cons k l ih =>
    rw [List.foldl_cons]
    apply ih
    rw [State.cluster_modSeq]
    by_cases hk : c = k
    · rw [if_pos hk]
      exact .inr (Sequencer.cmd_leave d _)
    · rw [if_neg hk]
      exact h.imp_left fun hc => (List.mem_cons.1 hc).resolve_left hk

/-- A command that is gone stands on no cluster of its mask. -/
theorem State.cmd_cmdGone {d : Desc} {c : Nat} (s : State) (hc : c ∈ maskList 8 d.mask) : ((s.cmdGone d).cluster c).seq.cmd ≠ some d := by
  have hleft : (((maskList 8 d.mask).foldl (fun s c => s.modSeq c (Sequencer.leave d)) s).cluster c).seq.cmd ≠ some d :=
    State.cmd_foldl_leave _ (.inl hc)
  have hkept : Only 574621332 ((maskList 8 d.mask).foldl (fun s c => s.modSeq c (Sequencer.leave d)) s) (s.cmdGone d) := by
    unfold State.cmdGone
    extract_lets u v w
    have hw : Only 574621332 u w := .ite (State.modDec_only (hm := rfl) (hk := State.modHost_only (hm := rfl) (hk := .refl _ u) ..) ..)
      (State.modHost_only (hm := rfl) (hk := .refl _ u) ..)
    exact State.timeSettles_only (hm := rfl) (hk := .ite hw (State.modDec_only (hm := rfl) (hk := hw) ..)) ..
  rw [hkept.cluster_eq rfl]
  exact hleft

/-- A command completes after it has left its clusters (R165, R451, R452). -/
theorem State.finishRun_completes {d : Desc} (s : State) :
    Completed (s.cmdGone d) (s.finishRun d d 0) d (s.cmdStatus d (d.opcode == 4)).1 (s.cmdResult d) 0 ∧
    ∀ c, c ∈ maskList 8 d.mask → ((s.finishRun d d 0).cluster c).seq.cmd ≠ some d := by
  unfold State.finishRun
  extract_lets step st word guard
  refine ⟨.of_same d _ _ _ _ _ rfl rfl, fun c hc => ?_⟩
  rw [State.complete_eq]
  exact s.cmd_cmdGone hc

theorem State.opcode_of_holds {s : State} {d : Desc} {op : Nat} (h : s.holds d op = true) : d.opcode = op :=
  beq_iff_eq.1 (Bool.and_eq_true_iff.1 h).2

theorem execRunStep_completes {d : Desc} {s : State} (hheld : s.holds d 4 = true) (hended : s.cmdEnded d = true)
    (hopen : s.stepOpen d = false) :
    Answers (execRunStep d s) (fun t => Completed ((s.stepFails d).cmdGone d) t d ((s.stepFails d).cmdStatus d true).1
      ((s.stepFails d).cmdResult d) 0 ∧ ∀ c, c ∈ maskList 8 d.mask → (t.cluster c).seq.cmd ≠ some d) := by
  have hop := State.opcode_of_holds hheld
  have hfinish := (s.stepFails d).finishRun_completes (d := d)
  rw [hop] at hfinish
  rw [execRunStep, if_pos hheld, State.runEnds, if_neg (by simp [hended, hopen]), if_pos hop]
  exact Answers.next hfinish

theorem execRunLayers_completes {d : Desc} {s : State} (hheld : s.holds d 5 = true) (hended : s.cmdEnded d = true) :
    Answers (execRunLayers d s) (fun t => Completed (s.cmdGone d) t d (s.cmdStatus d false).1 (s.cmdResult d) 0 ∧
      ∀ c, c ∈ maskList 8 d.mask → (t.cluster c).seq.cmd ≠ some d) := by
  have hop := State.opcode_of_holds hheld
  have hfinish := s.finishRun_completes (d := d)
  rw [hop] at hfinish
  rw [execRunLayers, if_pos hheld, State.runEnds, if_neg (by simp [hended, hop]), if_neg (by simp [hop])]
  exact Answers.next hfinish

/-! ### FENCE, PREEMPT and RESUME (R441, R456, R457) -/

theorem execFence_completes {d : Desc} {s : State} (hheld : s.holds d 9 = true) :
    Answers (execFence d s) (fun t => Completed s t d .ok 0 0) := by
  rw [execFence, if_pos hheld]
  exact Answers.next (.of_same d _ _ _ _ _ rfl rfl)

theorem execPreempt_waits {d : Desc} {s : State} (hheld : s.holds d 0x0A = true) (hnone : s.saved = none) :
    Answers (execPreempt d s) (fun t => t.preempts = s.preempts ++ [d] ∧ t.host.inflight = s.host.inflight.erase d ∧ t.out = s.out) := by
  rw [execPreempt, if_pos hheld, if_neg (by simp [hnone])]
  dsimp only
  split <;> exact Answers.next ⟨rfl, rfl, rfl⟩

/-- A save holds a context (R424, R456). -/
theorem State.saved_saveJob (s : State) (point : Nat) : (s.saveJob point).saved.isSome = true := by
  unfold State.saveJob
  extract_lets ctx
  have hqueues := Only.foldl (m := 32768) (l := List.range 8)
    (fun t c ht => State.saveQueues_only (hm := rfl) (hk := ht) (s := t) (c := c)) (.refl _ { s with saved := some ctx })
  rw [hqueues.saved rfl]
  rfl

/-- Commands that complete, one after another, touch only the host interface and what left the device. -/
theorem Only.completes {s t : State} (l : List Desc) (st : Status) (h : Only 1040 s t) :
    Only 1040 s (l.foldl (fun s d => s.complete d st) t) :=
  .foldl (fun _ _ ht => State.complete_only (hm := rfl) (hk := ht) ..) h

/-- A pre-emption that takes effect leaves none pending, and what it saves stands (R456). -/
theorem State.takePreempt_parts (s : State) : s.takePreempt.preempts = [] ∧ s.takePreempt.preempt = false ∧
    s.takePreempt.col.pointStop = false ∧ s.takePreempt.col.pointWait = false ∧ (s.hasContext = true → s.takePreempt.saved.isSome) ∧
    (s.hasContext = false → s.takePreempt.saved = s.saved) := by
  unfold State.takePreempt
  extract_lets point cmds ok s₁ s₂ ds s₃ s₄
  have hend := Only.completes ds (if ok then .ok else .denied) (.refl _ s₄)
  have hstopped := State.stopCommand_only s₁ (hm := Nat.and_self _) (hk := .refl _ s₁)
  have hcmds := Only.foldl (l := cmds) (fun t d ht => State.preempted_only t point d (hm := Nat.and_self _) (hk := ht)) (.refl _ s₁.stopCommand)
  have hsaved : (ds.foldl (fun s d => s.complete d (if ok then .ok else .denied)) s₄).saved = s₁.saved :=
    (hend.saved rfl).trans ((hcmds.saved rfl).trans (hstopped.saved rfl))
  refine ⟨hend.preempts rfl, hend.preempt rfl, congrArg (·.pointStop) (hend.col rfl), congrArg (·.pointWait) (hend.col rfl),
    fun hctx => ?_, fun hctx => ?_⟩
  · rw [hsaved, show s₁ = s.saveJob point from if_pos hctx]
    exact s.saved_saveJob point
  · rw [hsaved, show s₁ = s.log .preemptNoContext (srcBlock 3) [] from if_neg (Bool.eq_false_iff.1 hctx)]
    exact (State.log_only (hm := Nat.and_self _) (hk := .refl _ s) ..).saved rfl

theorem execPreemptTakeEffect_takes (ecc : List (Nat × EccResult)) {s : State} (hdue : s.preemptDue = true) :
    Answers (execPreemptTakeEffect ecc s) (fun t => t.preempts = [] ∧ t.preempt = false ∧ t.col.pointStop = false ∧ t.col.pointWait = false ∧
      ((s.eccAll ecc).hasContext = true → t.saved.isSome) ∧ ((s.eccAll ecc).hasContext = false → t.saved = (s.eccAll ecc).saved)) := by
  rw [execPreemptTakeEffect, if_pos hdue]
  exact Answers.next (s.eccAll ecc).takePreempt_parts

/-- A context that is restored is held no more, and its settings but for the guards' are the job's (R278, R457). -/
theorem State.restoreJob_parts (s : State) (x : SavedContext) : (s.restoreJob x).saved = none ∧ (s.restoreJob x).hwm = x.hwm ∧
    (s.restoreJob x).settle.rows = x.settle.rows ∧ (s.restoreJob x).settle.setStep = x.settle.setStep ∧
    (s.restoreJob x).settle.spikeEn = s.settle.spikeEn := by
  unfold State.restoreJob
  extract_lets t kept settings u v
  have hqueues := Only.foldl (l := List.range 8)
    (fun t c ht => State.restoreQueues_only t c (tget x.clusters {} c).queues (hm := Nat.and_self _) (hk := ht)) (.refl _ v)
  have hv : v.saved = u.saved ∧ v.hwm = u.hwm ∧ v.settle = u.settle :=
    ⟨State.modClusters_saved .., State.modClusters_hwm .., State.modClusters_settle ..⟩
  rw [hqueues.saved rfl, hqueues.hwm rfl, hqueues.settle rfl, hv.1, hv.2.1, hv.2.2]
  exact ⟨rfl, rfl, rfl, rfl, rfl⟩

theorem execResume_restores {d : Desc} {x : SavedContext} (ecc : List (Nat × EccResult)) {s : State} (hheld : s.holds d 0x0B = true)
    (hnone : s.host.resumed = none) (hsaved : s.saved = some x) (hmay : s.mayResume x = true) (hcmd : x.cmd = none) :
    Answers (execResume d ecc s) (fun t => Completed ((s.eccAll ecc).restoreJob x) t d .ok 0 0 ∧ t.saved = none ∧ t.hwm = x.hwm ∧
      t.settle.rows = x.settle.rows ∧ t.settle.setStep = x.settle.setStep ∧ t.settle.spikeEn = (s.eccAll ecc).settle.spikeEn) := by
  have hparts := (s.eccAll ecc).restoreJob_parts x
  rw [execResume, if_pos hheld, hnone, hsaved]
  dsimp only
  rw [if_pos hmay, State.resume, hcmd]
  refine Answers.next ⟨.of_same d _ _ _ _ _ rfl rfl, ?_⟩
  rw [State.complete_eq]
  generalize (s.eccAll ecc).restoreJob x = u at hparts
  exact hparts

/-- Settles O32: each descriptor completes last, so that its entry alone follows what it changed. -/
theorem jobLifecycle : Obligations.JobLifecycle := by
  unfold Obligations.JobLifecycle
  refine ⟨fun d image ecc s u => execJobLoad_loads, fun d image ecc row ix st s u => execJobLoad_refuses, fun d n s => exec_jobUnload_clears,
    fun d s => execSliceSet_leaves, fun d s => execSliceSet_sets, fun d s u hheld hended hopen hu => ?_, fun d s u hheld hended hu => ?_,
    fun d s => execFence_completes, fun d s => execPreempt_waits, fun ecc s => execPreemptTakeEffect_takes ecc,
    fun d x ecc s u hheld hnone hsaved hmay hcmd hu => ?_⟩
  · subst hu
    exact execRunStep_completes hheld hended hopen
  · subst hu
    exact execRunLayers_completes hheld hended
  · subst hu
    exact execResume_restores ecc hheld hnone hsaved hmay hcmd

end Sys2Proof.Machine
end

