-- ==== Sys2Proof/Proofs/StorageEvents.lean ====
section
/-!
PROOFS. Scrubs, spare banks, tracking and repair (06_memory.md).
-/
set_option autoImplicit false
namespace Sys2Proof.Machine

/-! ### Vaults (R190, R191) -/

theorem State.vault_modVault (s : State) (v : VaultName) (f : VaultState → VaultState) : (s.modVault v f).vault v = f (s.vault v) := by
  cases v with
  | core p => exact congrArg (·.vault) ((State.core_modCore ..).trans (if_pos rfl))
  | cluster c => exact congrArg (·.vault) ((State.cluster_modCluster ..).trans (if_pos rfl))

theorem State.mem_modVault (s : State) (v : VaultName) (f : VaultState → VaultState) : (s.modVault v f).mem = s.mem := by
  cases v <;> rfl

theorem execVaultScrub_forgets (v : VaultName) (rs : List (Nat × EccResult)) (s : State) :
    Answers (execVaultScrub v rs s) (fun t => (t.vault v).corrected = []) :=
  Answers.next (congrArg (·.corrected) (State.vault_modVault ..))

theorem Memory.byte_marks (l : List Nat) (m : Memory) (k : Nat) : (l.foldl (fun (m : Memory) a => m.mark a) m).byte k = m.byte k := by
  induction l generalizing m with
  | nil => rfl
  | cons a l ih => exact (ih _).trans (Memory.byte_mark ..)

/-- Marks poison exactly their units. -/
theorem Memory.poisoned_marks (l : List Nat) (m : Memory) (k : Nat) :
    (l.foldl (fun (m : Memory) a => m.mark a) m).poisoned k = (m.poisoned k || l.any (fun a => a / 64 == k / 64)) := by
  induction l generalizing m with
  | nil => exact (Bool.or_false _).symm
  | cons a l ih =>
    rw [List.foldl_cons, ih, Memory.poisoned_mark, List.any_cons]
    by_cases h : k / 64 = a / 64
    · simp [h]
    · rw [if_neg h, beq_false_of_ne (Ne.symm h), Bool.false_or]

theorem execVaultSpareDone_ends {v : VaultName} {b : Nat} (bad : List Nat) {s : State} (hcopy : (s.vault v).copying = some b) :
    Answers (execVaultSpareDone v bad s) (fun t => (t.vault v).copying = none ∧ (t.vault v).spared = (s.vault v).spared ∧
      (∀ k, t.mem.byte k = s.mem.byte k) ∧
      ∀ k, t.mem.poisoned k = (s.mem.poisoned k || bad.any (fun a => s.inVault v a && v.bank a == b && a / 64 == k / 64))) := by
  have hclosed (u : State) := State.closeWindow_only u .vaultBankSpared v.unit.code (hm := Nat.and_self _) (hk := .refl _ u)
  have hvault (u : State) : (u.closeWindow .vaultBankSpared v.unit.code).vault v = u.vault v := by
    cases v with
    | core p => exact congrArg (fun x : Tab Core => (tget x {} p).vault) ((hclosed u).cores rfl)
    | cluster c => exact congrArg (·.vault) ((hclosed u).cluster_eq rfl c)
  have hmarked (m : Memory) : ({ s with mem := m } : State).vault v = s.vault v := by cases v <;> rfl
  rw [execVaultSpareDone, hcopy]
  refine Answers.next ?_
  rw [hvault, State.vault_modVault, hmarked, (hclosed _).mem rfl, State.mem_modVault]
  refine ⟨rfl, rfl, Memory.byte_marks _ _, fun k => ?_⟩
  rw [Memory.poisoned_marks, List.any_filter]

/-! ### DRAM (R208, R210, R214) -/

theorem execDramPatrolScrub_advances {n lines : Nat} {s : State} (hworks : s.channelWorks n = true) (hon : s.dram.scrubHours ≠ 0)
    (hawake : s.dram.selfRefresh = false) :
    Answers (execDramPatrolScrub n lines [] s) (fun t =>
      if s.dram.moduleBytes / 64 ≤ (s.channel n).patrol + lines then (t.channel n).patrol = 0 ∧ (t.channel n).corrected = [] ∧ (t.channel n).rowErrs = []
      else (t.channel n).patrol = (s.channel n).patrol + lines ∧ (t.channel n).corrected = (s.channel n).corrected) := by
  rw [execDramPatrolScrub, if_pos ⟨hworks, hon, Bool.eq_false_iff.1 hawake⟩, List.filter_nil]
  dsimp only
  rw [show s.eccAll [] = s from rfl]
  refine Answers.next ?_
  rw [State.channel_modChannel, if_pos rfl]
  split
  · exact ⟨rfl, rfl, rfl⟩
  · exact ⟨rfl, rfl⟩

theorem execDramTrackingUpdate_records {n : Nat} (margins : List Nat) {low : Bool} {s : State} (hworks : s.channelWorks n = true)
    (hawake : s.dram.selfRefresh = false) :
    Answers (execDramTrackingUpdate n margins low true s) (fun t => (t.channel n).marginLow = low ∧ (t.channel n).st = (s.channel n).st) := by
  have hspans (l : List (Nat × Nat)) : Only 1073741824 s (l.foldl (fun (s : State) x => s.spanMin (ctDimm n x.2) x.1) s) :=
    .foldl (fun _ _ ht => State.spanMin_only (hm := rfl) (hk := ht) ..) (.refl _ s)
  have hlog (u : State) : (u.log .dramMarginLow (srcDdr n) [(1, n)]).dram = u.dram :=
    (State.log_only (hm := Nat.and_self _) (hk := .refl _ u) ..).dram rfl
  have hset (u : State) (hu : u.dram = s.dram) : ((u.modChannel n (fun c => { c with marginLow := low })).channel n).marginLow = low ∧
      ((u.modChannel n (fun c => { c with marginLow := low })).channel n).st = (s.channel n).st := by
    rw [State.channel_modChannel, if_pos rfl]
    exact ⟨rfl, congrArg (fun d : Dram => (tget d.channels {} n).st) hu⟩
  rw [execDramTrackingUpdate, if_neg (by simp [hworks, hawake]), if_neg (not_not_intro rfl)]
  refine Answers.next (hset _ ?_)
  split
  · exact (hlog _).trans ((hspans _).dram rfl)
  · exact (hspans _).dram rfl

/-- Rows that are repaired or passed over one after another: those that are repaired are added in order. -/
theorem State.hardRepairs_foldl {n : Nat} {f : State → Nat → State} {p : Nat → Bool}
    (hf : ∀ t r, ((f t r).channel n).hardRepairs = (t.channel n).hardRepairs ++ if p r then [r] else []) (l : List Nat) (s : State) :
    ((l.foldl f s).channel n).hardRepairs = (s.channel n).hardRepairs ++ l.filter p := by
  induction l generalizing s with
  | nil => exact (List.append_nil _).symm
  | cons r l ih =>
    rw [List.foldl_cons, ih, hf, List.append_assoc, List.filter_cons]
    split <;> rfl

theorem execSoftPpr_repairs {n : Nat} (exhausted : List Nat) (left : Nat) {s : State} (hidle : s.job.loaded = false)
    (hworks : s.channelWorks n = true) (hrows : (s.channel n).pprList ≠ []) :
    Answers (execSoftPpr n exhausted left s) (fun t => (t.channel n).pprList = [] ∧ (t.channel n).pprLeft = left ∧
      (t.channel n).hardRepairs = (s.channel n).hardRepairs ++ (s.channel n).pprList.filter (fun r => !exhausted.contains r)) := by
  have hlog (u : State) (c : EventClass) : ((u.log c (srcDdr n) [(1, n)]).channel n) = u.channel n :=
    congrArg (fun d : Dram => tget d.channels {} n) ((State.log_only (hm := Nat.and_self _) (hk := .refl _ u) ..).dram rfl)
  have hrecord (u : State) (r : Nat) : (u.ledgerAppend 0x0008 (repairBytes 2 (srcDdr n) (r % 2 ^ 32) 0)).channel n = u.channel n :=
    congrArg (fun d : Dram => tget d.channels {} n) ((State.ledgerAppend_only (hm := Nat.and_self _) (hk := .refl _ u) ..).dram rfl)
  rw [execSoftPpr, if_neg (by simp [hidle, hworks, hrows])]
  refine Answers.next ?_
  rw [State.channel_modChannel, if_pos rfl]
  refine ⟨rfl, rfl, State.hardRepairs_foldl (fun t r => ?_) _ _⟩
  dsimp only
  cases exhausted.contains r with
  | true => rw [if_pos rfl, hlog]; exact (List.append_nil _).symm
  | false =>
    rw [if_neg Bool.false_ne_true, State.channel_modChannel, if_pos rfl]
    refine congrArg (fun c : Channel => c.hardRepairs ++ [r]) ?_
    exact (hlog _ .pprApplied).trans (hrecord t r)

/-- Settles O34: what is logged and recorded beside a repair leaves the storage as it is. -/
theorem storageEvents : Obligations.StorageEvents := by
  unfold Obligations.StorageEvents
  exact ⟨execVaultScrub_forgets, fun v b bad s => execVaultSpareDone_ends bad, fun n lines s => execDramPatrolScrub_advances,
    fun n margins low s => execDramTrackingUpdate_records margins, fun n exhausted left s => execSoftPpr_repairs exhausted left⟩

end Sys2Proof.Machine
end

