-- ==== Sys2Proof/Proofs/RemoteAccesses.lean ====
section
/-!
PROOFS. Remote writes and reads, and how a read that waits ends (06_memory.md, 11_routing_and_slices.md).
-/
set_option autoImplicit false
namespace Sys2Proof.Machine

/-! ### Packets that are applied to memory (R220) -/

theorem State.sameLost_consumed (s : State) (p : Packet) : SameLost s (s.consumed p) :=
  .of_dram ((State.consumed_only (hm := Nat.and_self _) (hk := .refl _ s) ..).dram rfl)

theorem State.mem_consumed (s : State) (p : Packet) : (s.consumed p).mem = s.mem :=
  (State.consumed_only (hm := Nat.and_self _) (hk := .refl _ s) ..).mem rfl

theorem State.servable_consumed (s : State) (p : Packet) (a n : Nat) : (s.consumed p).servable a n = s.servable a n := by
  rw [State.servable, State.servable, (State.consumed_only (hm := Nat.and_self _) (hk := .refl _ s) ..).dram rfl]

theorem State.sameLost_wakeAt (s : State) (a : Nat) : SameLost s (s.wakeAt a) :=
  .of_dram ((State.wakeAt_only (hm := Nat.and_self _) (hk := .refl _ s) ..).dram rfl)

theorem State.mem_wakeAt (s : State) (a : Nat) : (s.wakeAt a).mem = s.mem :=
  (State.wakeAt_only (hm := Nat.and_self _) (hk := .refl _ s) ..).mem rfl

/-- An accepted payload leaves memory as it is. -/
theorem State.byteAt_accepted (s : State) (p : Packet) (k : Nat) : (s.accepted p).byteAt k = s.byteAt k := by
  rw [State.accepted]
  split <;> rfl

/-- A write into t stores exactly its bytes over the memory of s, whose channels and bytes t has. -/
theorem State.writes_of_same {s t : State} (hlost : SameLost s t) (hmem : t.mem = s.mem) {a : Nat} {bs : List Byte} (src : Nat → Bool)
    (hworks : ∀ k, a ≤ k → k < a + bs.length → s.lostAt k = false) :
    (∀ i (h : i < bs.length), (t.writeMem a bs src).byteAt (a + i) = bs[i]) ∧
    ∀ k, k < a ∨ a + bs.length ≤ k → (t.writeMem a bs src).byteAt k = s.byteAt k :=
  ⟨State.byteAt_writeMem_in src fun k hlo hhi => (hlost.lostAt k).trans (hworks k hlo hhi),
    fun k hk => (State.byteAt_writeMem_out src hk).trans (hlost.byteAt hmem k)⟩

theorem execRemoteWrite_stores {p : Packet} {s : State} (hkind : p.kind = 6) (hturn : s.inTurn p = true)
    (hserve : s.servable p.addr p.payload.length = true) (hworks : ∀ k, p.addr ≤ k → k < p.addr + p.payload.length → s.lostAt k = false) :
    Answers (execRemoteWrite p s) (fun t => (∀ i (h : i < p.payload.length), t.byteAt (p.addr + i) = p.payload[i]) ∧
      ∀ k, k < p.addr ∨ p.addr + p.payload.length ≤ k → t.byteAt k = s.byteAt k) := by
  rw [execRemoteWrite, if_pos ⟨hkind, hturn⟩, State.remoteWrite, if_pos ((s.servable_consumed ..).trans hserve)]
  refine Answers.next ?_
  simp only [State.byteAt_accepted]
  exact State.writes_of_same ((s.sameLost_consumed p).trans (State.sameLost_wakeAt ..)) ((State.mem_wakeAt ..).trans (s.mem_consumed p)) _ hworks

theorem execReadReq_answers {p : Packet} {s : State} (hkind : p.kind = 7) (hok : readReqOk p = true) (hturn : s.inTurn p = true)
    (hserve : s.servable p.addr (fld (leAt p.payload 8 2) 0 14) = true) :
    Answers (execReadReq p [] s) (fun t => ∃ (u : State) (r : Packet), t = (u.inject r).2 ∧ u.mem = s.mem ∧ r.kind = 8 ∧ r.dest = p.src ∧
      r.addr = leAt p.payload 0 6 ∧ r.payload = s.readMem p.addr (fld (leAt p.payload 8 2) 0 14)) := by
  have hmem : ((s.consumed p).wakeAt p.addr).mem = s.mem := (State.mem_wakeAt ..).trans (s.mem_consumed p)
  have hlost : SameLost s ((s.consumed p).wakeAt p.addr) := (s.sameLost_consumed p).trans (State.sameLost_wakeAt ..)
  rw [execReadReq, if_pos ⟨hkind, hok, hturn⟩]
  dsimp only
  rw [if_pos ((s.servable_consumed ..).trans hserve), List.filter_nil]
  exact Answers.next ⟨(s.consumed p).wakeAt p.addr, _, rfl, hmem, rfl, rfl, rfl, hlost.readMem hmem _ _⟩

/-! ### Reads that end (R353, R610) -/

theorem execReadRsp_lands {p : Packet} {w : ReadWait} {s : State} (hkind : p.kind = 8) (hturn : s.inTurn p = true)
    (hfor : (s.consumed p).readFor p = some w) (hdest : w.dest = 0)
    (hworks : ∀ k, w.addr ≤ k → k < w.addr + p.payload.length → s.lostAt k = false) :
    Answers (execReadRsp p s) (fun t => t.rtr.reads = (s.consumed p).rtr.reads.erase w ∧
      (∀ i (h : i < p.payload.length), t.byteAt (w.addr + i) = p.payload[i]) ∧
      ∀ k, k < w.addr ∨ w.addr + p.payload.length ≤ k → t.byteAt k = s.byteAt k) := by
  have hreads (u : State) : (u.accepted p).rtr.reads = u.rtr.reads := by
    rw [State.accepted]
    split <;> rfl
  have hfilled (u : State) := State.filled_only u w.cluster w.unit w.bytes (hm := Nat.and_self _) (hk := .refl _ u)
  have hbytes (u : State) (k : Nat) : (u.filled w.cluster w.unit w.bytes).byteAt k = u.byteAt k :=
    (SameLost.of_dram ((hfilled u).dram rfl)).byteAt ((hfilled u).mem rfl) k
  have hwritten (u : State) (a : Nat) (bs : List Byte) (src : Nat → Bool) : (u.writeMem a bs src).rtr = u.rtr :=
    (State.writeMem_only u a bs src (hm := Nat.and_self _) (hk := .refl _ u)).rtr rfl
  rw [execReadRsp, if_pos ⟨hkind, hturn⟩]
  dsimp only
  rw [hfor]
  dsimp only
  rw [if_neg (by omega), State.readLanded, hdest]
  refine Answers.next ?_
  simp only [State.byteAt_accepted, hbytes]
  refine ⟨?_, State.writes_of_same (t := (s.consumed p).readGone w) (s.sameLost_consumed p) (s.mem_consumed p) _ hworks⟩
  rw [hreads, (hfilled _).rtr rfl, hwritten]
  rfl

theorem Core.running_unstall (k : Core) (i : Nat) : (k.unstall i).running = k.running := by
  have hselect (k : Core) (j : Nat) : (k.select j).running = k.running := by
    rw [Core.select]
    split
    · rfl
    · split <;> rfl
  rw [Core.unstall]
  split
  · exact hselect ..
  · rfl

theorem State.running_loadDone (s : State) (p i : Nat) (l : LoadReq) : ((s.loadDone p i l).core p).running = (s.core p).running := by
  rw [State.loadDone, State.core_modCore, if_pos rfl]
  dsimp only
  split
  · exact Core.running_unstall ..
  · rfl

/-- A layer's read that fails gives the layer its status, unless it has one (R165, R353). -/
theorem State.readFailed_layer {w : ReadWait} {ly : Layer} {s : State} (st : Status) (hdest : w.dest = 1)
    (hrun : (s.core (w.unit / 48)).running = some ly) (hok : ly.status = .ok) :
    (s.readFailed w st).rtr.reads = s.rtr.reads.erase w ∧ (s.readFailed w st).aoNs = s.aoNs ∧
    ∃ ly', ((s.readFailed w st).core (w.unit / 48)).running = some ly' ∧ ly'.lcb = ly.lcb ∧ ly'.status = st := by
  have hspoiled : (((s.readGone w).spoil (w.unit / 48) st).core (w.unit / 48)).running = some { ly with status := st } := by
    rw [State.spoil, State.core_modCore, if_pos rfl]
    change ((s.core (w.unit / 48)).running).map _ = _
    rw [hrun, Option.map_some, if_pos hok]
  simp only [State.readFailed, hdest]
  cases ((s.readGone w).spoil (w.unit / 48) st).loadOf w with
  | some l =>
    have hdone := State.loadDone_only ((s.readGone w).spoil (w.unit / 48) st) (w.unit / 48) (w.unit % 48) l (hm := Nat.and_self _) (hk := .refl _ _)
    refine ⟨congrArg (·.reads) (hdone.rtr rfl), hdone.aoNs rfl, _, (State.running_loadDone ..).trans hspoiled, rfl, rfl⟩
  | none => exact ⟨rfl, rfl, _, hspoiled, rfl, rfl⟩

theorem execReadErr_ends {p : Packet} {w : ReadWait} {ly : Layer} {s : State} (hkind : p.kind = 9) (hturn : s.inTurn p = true)
    (hfor : (s.consumed p).readFor p = some w) (hdest : w.dest = 1) (hrun : (s.core (w.unit / 48)).running = some ly) (hok : ly.status = .ok) :
    Answers (execReadErr p s) (fun t => t.rtr.reads = (s.consumed p).rtr.reads.erase w ∧
      ∃ ly', (t.core (w.unit / 48)).running = some ly' ∧ ly'.lcb = ly.lcb ∧
        ly'.status = (match leAt p.payload 0 1 with | 1 => .malformed | 2 => .denied | _ => .linkAbsent)) := by
  have hcore : (s.consumed p).core (w.unit / 48) = s.core (w.unit / 48) :=
    congrArg (fun x : Tab Core => tget x {} (w.unit / 48)) ((State.consumed_only (hm := Nat.and_self _) (hk := .refl _ s) ..).cores rfl)
  have hfailed (st : Status) := State.readFailed_layer (s := s.consumed p) st hdest (by rw [hcore, hrun]) hok
  rw [execReadErr, if_pos ⟨hkind, hturn⟩]
  dsimp only
  rw [hfor]
  obtain ⟨hreads, -, hlayer⟩ := hfailed (match leAt p.payload 0 1 with | 1 => .malformed | 2 => .denied | _ => .linkAbsent)
  exact Answers.next ⟨hreads, hlayer⟩

theorem execReadTimeout_ends {h : Nat} {w : ReadWait} {ly : Layer} {s : State} (hfind : s.rtr.reads.find? (fun w => w.handle == h) = some w)
    (hdest : w.dest = 1) (hrun : (s.core (w.unit / 48)).running = some ly) (hok : ly.status = .ok) :
    Answers (execReadTimeout h s) (fun t => t.rtr.reads = s.rtr.reads.erase w ∧ t.aoNs = max s.aoNs w.deadline ∧
      ∃ ly', (t.core (w.unit / 48)).running = some ly' ∧ ly'.lcb = ly.lcb ∧ ly'.status = .linkAbsent) := by
  have hreach := State.reach_only s w.deadline (hm := Nat.and_self _) (hk := .refl _ s)
  have hcore : (s.reach w.deadline).core (w.unit / 48) = s.core (w.unit / 48) :=
    congrArg (fun x : Tab Core => tget x {} (w.unit / 48)) (hreach.cores rfl)
  obtain ⟨hreads, htime, hlayer⟩ := State.readFailed_layer (s := s.reach w.deadline) .linkAbsent hdest (by rw [hcore, hrun]) hok
  rw [execReadTimeout, hfind]
  exact Answers.next ⟨hreads.trans (congrArg (fun r : Router => r.reads.erase w) (hreach.rtr rfl)), htime.trans (s.aoNs_reach _), hlayer⟩

/-- Settles O35: taking a packet from the router and waking a cluster change no byte, and a read's end changes one layer. -/
theorem remoteAccesses : Obligations.RemoteAccesses := by
  unfold Obligations.RemoteAccesses
  exact ⟨fun p s => execRemoteWrite_stores, fun p s => execReadReq_answers, fun p w s => execReadRsp_lands,
    fun p w ly s => execReadErr_ends, fun h w ly s => execReadTimeout_ends⟩

end Sys2Proof.Machine
end

