-- ==== Sys2Proof/Proofs/HostCopies.lean ====
section
/-!
PROOFS. DMA_COPY between host and local memory (14_host_interface.md).
-/
set_option autoImplicit false
namespace Sys2Proof.Machine

theorem State.mem_complete (s : State) (d : Desc) (st : Status) (result detail guard cluster : Nat) :
    (s.complete d st result detail guard cluster).mem = s.mem := by
  rw [State.complete_eq]

theorem State.dram_complete (s : State) (d : Desc) (st : Status) (result detail guard cluster : Nat) :
    (s.complete d st result detail guard cluster).dram = s.dram := by
  rw [State.complete_eq]

/-- A completion changes no byte. -/
theorem State.byteAt_complete (s : State) (d : Desc) (st : Status) (result detail guard cluster k : Nat) :
    (s.complete d st result detail guard cluster).byteAt k = s.byteAt k :=
  (SameLost.of_dram (State.dram_complete ..)).byteAt (State.mem_complete ..) k

theorem State.readMem_complete (s : State) (d : Desc) (st : Status) (result detail guard cluster a n : Nat) :
    (s.complete d st result detail guard cluster).readMem a n = s.readMem a n :=
  (SameLost.of_dram (State.dram_complete ..)).readMem (State.mem_complete ..) a n

/-- The units of a copy leave for the host one after another. -/
theorem State.emit_foldl {α : Type} (f : α → Out) (l : List α) (s : State) :
    l.foldl (fun s i => s.emit (f i)) s = { s with out := s.out ++ l.map f } := by
  induction l generalizing s with
  | nil => rw [List.map_nil, List.append_nil]; rfl
  | cons i l ih =>
    rw [List.foldl_cons, ih, List.map_cons, State.emit_out, List.append_assoc]
    rfl

theorem getD_of_any_id {l : List Bool} (h : l.any id = false) (i : Nat) : (l[i]?).getD false = false := by
  rcases hi : l[i]? with - | b
  · rfl
  · exact Bool.eq_false_iff.2 (List.any_eq_false.1 h b (List.mem_of_getElem? hi))

theorem execDmaCopy_stores {d : Desc} {data : List Byte} (poison : List Nat) {ecc : List (Nat × EccResult)} {s u : State}
    (hu : u = s.eccAll ecc) (hheld : s.holds d 6 = true) (hnew : s.host.dmas.any (fun x => x.desc == d) = false) (hgood : s.dmaBad d = false)
    (hmatch : s.dramMismatch (dmaDst d) (dmaLen d) = false) (hphase : s.settle.phase = .idle) (hfrom : dmaFrom d = 0) (hto : dmaTo d = 1)
    (hworks : ∀ k, u.lostAt k = false) :
    Answers (execDmaCopy d data poison ecc s) (fun t => Completed u t d .ok (dmaLen d % 2 ^ 32) 0 ∧
      t.readMem (dmaDst d) (dmaLen d) = padTo (dmaLen d) data ∧ ∀ k, k < dmaDst d ∨ dmaDst d + dmaLen d ≤ k → t.byteAt k = u.byteAt k) := by
  have hlen : (padTo (dmaLen d) data).length = dmaLen d := padTo_length ..
  have hsrc : s.dmaHereFrom d = false := by simp [State.dmaHereFrom, hfrom]
  rw [execDmaCopy, if_neg (by simp [hheld, hnew]), if_neg (Bool.eq_false_iff.1 hgood), if_neg (by simp [hsrc, hmatch]),
    if_neg (by simp [hphase]), ← hu]
  dsimp only
  rw [if_neg (by omega), State.dmaData, if_pos hfrom]
  dsimp only
  rw [if_neg (by omega), if_neg (by omega), hlen]
  have hsame (bs : List Byte) (src : Nat → Bool) := State.writeMem_only u (dmaDst d) bs src (hm := Nat.and_self _) (hk := .refl _ u)
  refine Answers.next ⟨.of_same d _ _ _ _ _ ((hsame ..).out rfl) ((hsame ..).host rfl), ?_, fun k hk => ?_⟩
  · have hread := State.readMem_writeMem (s := u) (a := dmaDst d) (bs := padTo (dmaLen d) data)
      (poisonFrom (dmaDst d) ((List.range ((dmaLen d + 63) / 64)).map poison.contains)) fun k _ _ => hworks k
    rw [hlen] at hread
    rw [State.readMem_complete]
    exact hread
  · rw [State.byteAt_complete]
    exact State.byteAt_writeMem_out _ (by rw [hlen]; exact hk)

theorem execDmaCopy_emits {d : Desc} (data : List Byte) (poison : List Nat) {ecc : List (Nat × EccResult)} {s v u : State}
    (hv : v = s.eccAll ecc) (hheld : s.holds d 6 = true) (hnew : s.host.dmas.any (fun x => x.desc == d) = false) (hgood : s.dmaBad d = false)
    (hmatch : s.dramMismatch (dmaSrc d) (dmaLen d) = false) (hfrom : dmaFrom d = 1) (hto : dmaTo d = 0)
    (hclean : (v.poisonList (dmaSrc d) (dmaLen d)).any id = false)
    (hu : u = { v with out := v.out ++ (List.range ((dmaLen d + 63) / 64)).map (fun i => .hostWrite (dmaDst d + 64 * i)
      (((v.readMem (dmaSrc d) (dmaLen d)).drop (64 * i)).take 64) false) }) :
    Answers (execDmaCopy d data poison ecc s) (fun t => Completed u t d .ok (dmaLen d % 2 ^ 32) 0) := by
  have hlen : (v.readMem (dmaSrc d) (dmaLen d)).length = dmaLen d := by simp [State.readMem]
  have hdst : s.dmaHereTo d = false := by simp [State.dmaHereTo, hto]
  rw [execDmaCopy, if_neg (by simp [hheld, hnew]), if_neg (Bool.eq_false_iff.1 hgood), if_neg (by simp [hdst, hmatch]),
    if_neg (by simp [hdst]), ← hv]
  dsimp only
  rw [if_neg (show ¬ dmaFrom d = 2 by omega), State.dmaData, if_neg (show ¬ dmaFrom d = 0 by omega), if_pos hto, State.dmaToHost, hclean, if_neg Bool.false_ne_true, hlen, State.emit_foldl]
  simp only [getD_of_any_id hclean]
  rw [← hu]
  exact Answers.next (.of_same d _ _ _ _ _ rfl rfl)

/-- Settles O36: the reports come first and the completion last, so the bytes between them alone change. -/
theorem hostCopies : Obligations.HostCopies := by
  unfold Obligations.HostCopies
  refine ⟨fun d data poison ecc s u => execDmaCopy_stores poison, fun d data poison ecc s v u => execDmaCopy_emits data poison,
    fun d data poison ecc s hheld hnew hgood hmismatch => ?_⟩
  rw [show exec (.dmaCopy d data poison ecc) s = execDmaCopy d data poison ecc s from rfl, execDmaCopy, if_neg (by simp [hheld, hnew]),
    if_neg (Bool.eq_false_iff.1 hgood), if_pos hmismatch]
  exact Answers.next ⟨.of_same d _ _ _ _ _ rfl rfl, State.mem_complete ..⟩

end Sys2Proof.Machine
end

