-- ==== Sys2Proof/Proofs/SettleSettings.lean ====
section
/-!
PROOFS. SETTLE_CONFIG: the job block, the rows and the working copy of a group (07_settlement_engine.md).
-/
set_option autoImplicit false
namespace Sys2Proof.Machine

/-- What each step of a fold keeps, and the step of x brings about, holds at the end of a fold over a list with x. -/
theorem foldl_reaches {α β : Type} {f : α → β → α} {I P : α → Prop} {x : β} {l : List β} {s : α} (hx : x ∈ l) (h0 : I s)
    (hI : ∀ t y, I t → I (f t y)) (hstep : ∀ t, I t → P (f t x)) (hkeep : ∀ t y, I t → P t → P (f t y)) : P (l.foldl f s) := by
  have hstays (l : List β) : ∀ t, I t → P t → P (l.foldl f t) := by
    induction l with
    | nil => exact fun t _ hP => hP
    | cons y l ih => exact fun t hIt hP => ih _ (hI t y hIt) (hkeep t y hIt hP)
  induction l generalizing s with
  | nil => exact absurd hx List.not_mem_nil
  | cons y l ih =>
    rw [List.foldl_cons]
    rcases List.mem_cons.1 hx with hxy | hxl
    · subst hxy
      exact hstays l _ (hI s x h0) (hstep s h0)
    · exact ih hxl (hI s y h0)

/-! ### JOB (R229) -/

theorem execSettleConfigJob_takes {d : Desc} {data b : List Byte} {ecc : List (Nat × EccResult)} {s u : State} (hu : u = s.eccAll ecc)
    (hnow : s.cfgNow d 0 = true) (hdata : u.cfgData d 64 data = some b) (hgood : u.jobCheck b = none) :
    Answers (execSettleConfigJob d data ecc s) (fun v => ∃ t : State, v = t.cfgEnds ∧ Completed u t d .ok 0 0 ∧
      t.settle.mode = fld (leAt b 0 4) 0 1 ∧ t.settle.accum = leAt b 4 4 ∧
      t.settle.clipNorm = BitVec.ofNat 32 (leAt b 8 4) ∧ t.settle.setStep = leAt b 0x10 8 ∧ t.settle.skipNonfinite = 0 ∧ t.settle.skipSkew = 0 ∧ t.settle.spikes = 0 ∧
      t.settle.interrupted = false ∧ t.dec.hist = [] ∧ t.settle.rows = u.settle.rows) := by
  rw [execSettleConfigJob, if_pos hnow, ← hu]
  dsimp only
  rw [hdata]
  dsimp only
  rw [hgood]
  refine Answers.next ⟨_, rfl, .of_same d _ _ _ _ _ rfl rfl, ?_⟩
  rw [State.complete_eq]
  exact ⟨rfl, rfl, rfl, rfl, rfl, rfl, rfl, rfl, rfl, rfl⟩

/-! ### ROWS (R230) -/

theorem State.row_loadRow (s : State) (x : Nat × Row) (g : Nat) : (s.loadRow x).row g = if g = x.1 then x.2 else s.row g := by
  have hset (t : State) : (t.modSet (fun t => { t with rows := tset t.rows [] x.1 x.2 })).row g = if g = x.1 then x.2 else t.row g :=
    tget_tset ..
  have hwrite (t : State) (a : Nat) (bs : List Byte) : (t.writeMem a bs).settle = t.settle :=
    (State.writeMem_only t a bs _ (hm := Nat.and_self _) (hk := .refl _ t)).settle rfl
  rw [← hset, State.loadRow]
  split
  · rw [State.row, State.row, State.modSet_settle, hwrite]
  · rfl

/-- A group that no loaded row names keeps its row. -/
theorem State.row_foldl_loadRow_of_not_mem {g : Nat} (l : List (Nat × Row)) (s : State) (h : g ∉ l.map (·.1)) :
    (l.foldl State.loadRow s).row g = s.row g := by
  induction l generalizing s with
  | nil => rfl
  | cons y l ih =>
    obtain ⟨hy, hl⟩ := not_or.1 (fun hg => h (List.mem_cons.2 hg))
    rw [List.foldl_cons, ih _ hl, State.row_loadRow, if_neg hy]

/-- Loaded rows stand in the table, where no two name one group. -/
theorem State.row_foldl_loadRow {x : Nat × Row} (l : List (Nat × Row)) (s : State) (hdistinct : (l.map (·.1)).Nodup) (hx : x ∈ l) :
    (l.foldl State.loadRow s).row x.1 = x.2 := by
  induction l generalizing s with
  | nil => exact absurd hx List.not_mem_nil
  | cons y l ih =>
    obtain ⟨hy, hl⟩ := List.nodup_cons.1 hdistinct
    rw [List.foldl_cons]
    rcases List.mem_cons.1 hx with hxy | hxl
    · rw [hxy, State.row_foldl_loadRow_of_not_mem l _ hy, State.row_loadRow, if_pos rfl]
    · exact ih _ hl hxl

/-- The counters and presence bits of a group are clear, and its row is valid. -/
def State.Fresh (s : State) (x : Nat × Row) : Prop :=
  tget s.settle.counts {} x.1 = {} ∧ tget s.settle.guards {} x.1 = {} ∧ ∀ i, i < (rowCount x.2 + 7) / 8 → s.byteAt (rowPres x.2 + i) = 0

/-- Bytes written as zero, and bytes that were zero beside them, are zero. -/
theorem State.byteAt_writeMem_zero {s : State} (hworks : ∀ k, s.lostAt k = false) (a n k : Nat) (h : (a ≤ k ∧ k < a + n) ∨ s.byteAt k = 0) :
    (s.writeMem a (List.replicate n 0)).byteAt k = 0 := by
  by_cases hin : a ≤ k ∧ k < a + n
  · have hbyte := State.byteAt_writeMem_in (s := s) (a := a) (bs := List.replicate n 0) (fun _ => false) (fun k _ _ => hworks k) (k - a)
      (by rw [List.length_replicate]; omega)
    rw [Nat.add_sub_cancel' hin.1, List.getElem_replicate] at hbyte
    exact hbyte
  · rw [State.byteAt_writeMem_out _ (by rw [List.length_replicate]; omega)]
    exact h.resolve_left hin

theorem State.lostAt_loadRow (s : State) (x : Nat × Row) (k : Nat) : (s.loadRow x).lostAt k = s.lostAt k := by
  rw [State.loadRow]
  split
  · exact State.lostAt_writeMem ..
  · rfl

/-- The records of a group that a valid row replaces, and its presence bits. -/
theorem State.loadRow_valid {y : Nat × Row} (s : State) (hvalid : rowValid y.2 = true) :
    (s.loadRow y).settle.counts = tset s.settle.counts {} y.1 {} ∧ (s.loadRow y).settle.guards = tset s.settle.guards {} y.1 {} ∧
    ∀ k, (s.loadRow y).byteAt k = ((s.modSet (fun t => { t with rows := tset t.rows [] y.1 y.2 })).writeMem (rowPres y.2)
      (List.replicate ((rowCount y.2 + 7) / 8) 0)).byteAt k := by
  have hwrite (t : State) (a : Nat) (bs : List Byte) : (t.writeMem a bs).settle = t.settle :=
    (State.writeMem_only t a bs _ (hm := Nat.and_self _) (hk := .refl _ t)).settle rfl
  rw [State.loadRow, if_pos hvalid, State.modSet_settle, hwrite]
  exact ⟨rfl, rfl, fun _ => rfl⟩

theorem State.loadRow_invalid {y : Nat × Row} (s : State) (hvalid : rowValid y.2 = false) :
    s.loadRow y = s.modSet (fun t => { t with rows := tset t.rows [] y.1 y.2 }) := by
  rw [State.loadRow]
  exact if_neg (Bool.eq_false_iff.1 hvalid)

/-- A valid row that is loaded clears its group's counters and presence bits, and no other row sets them (R230, R256, R258). -/
theorem State.fresh_loadRow {s : State} {x y : Nat × Row} (hworks : ∀ k, s.lostAt k = false)
    (h : (x = y ∧ rowValid x.2 = true) ∨ s.Fresh x) : (s.loadRow y).Fresh x := by
  by_cases hvalid : rowValid y.2 = true
  · obtain ⟨hcounts, hguards, hbytes⟩ := s.loadRow_valid hvalid
    have hset (k : Nat) : (s.modSet (fun t => { t with rows := tset t.rows [] y.1 y.2 })).lostAt k = false := hworks k
    rw [State.Fresh, hcounts, hguards, tget_tset, tget_tset]
    simp only [hbytes]
    rcases h with ⟨hxy, -⟩ | ⟨hc, hg, hz⟩
    · subst hxy
      exact ⟨if_pos rfl, if_pos rfl, fun i hi => State.byteAt_writeMem_zero hset _ _ _ (.inl (by omega))⟩
    · refine ⟨?_, ?_, fun i hi => State.byteAt_writeMem_zero hset _ _ _ (.inr (hz i hi))⟩
      · rw [hc, ite_self]
      · rw [hg, ite_self]
  · rw [s.loadRow_invalid (Bool.eq_false_iff.2 hvalid)]
    exact h.resolve_left fun ⟨hxy, hx⟩ => hvalid (hxy ▸ hx)

theorem cfgRows_groups (d : Desc) (b : List Byte) : (cfgRows d b).map (·.1) = cfgGroups d := by
  rw [cfgRows]
  exact List.map_fst_zip (by simp [cfgGroups])

theorem cfgGroups_nodup (d : Desc) : (cfgGroups d).Nodup :=
  List.Pairwise.map _ (fun _ _ hne h => hne (Nat.add_left_cancel h)) List.nodup_range

theorem execSettleConfigRows_loads {d : Desc} {data b : List Byte} {ecc : List (Nat × EccResult)} {s u : State} (hu : u = s.eccAll ecc)
    (hnow : s.cfgNow d 1 = true) (hrange : cfgRange d false = none) (hdata : u.cfgData d (256 * min (cfgCount d) 4096) data = some b)
    (hgood : u.rowsCheck d b = none) (hworks : ∀ k, u.lostAt k = false) :
    Answers (execSettleConfigRows d data ecc s) (fun v => ∃ t : State, v = t.cfgEnds ∧ Completed u t d .ok 0 0 ∧
      (∀ x ∈ cfgRows d b, t.row x.1 = x.2 ∧ (rowValid x.2 = true →
        tget t.settle.counts {} x.1 = {} ∧ tget t.settle.guards {} x.1 = {} ∧ ∀ i, i < (rowCount x.2 + 7) / 8 → t.byteAt (rowPres x.2 + i) = 0)) ∧
      ∀ g, g ∉ cfgGroups d → t.row g = u.row g) := by
  have hsame := Only.foldl (l := cfgRows d b) (fun t x ht => State.loadRow_only t x (hm := Nat.and_self _) (hk := ht)) (.refl _ u)
  have hkeys := cfgRows_groups d b
  rw [execSettleConfigRows, if_pos hnow, ← hu]
  dsimp only
  rw [hrange, hdata]
  dsimp only
  rw [hgood]
  refine Answers.next ⟨_, rfl, .of_same d _ _ _ _ _ (hsame.out rfl) (hsame.host rfl), fun x hx => ⟨?_, fun hvalid => ?_⟩, fun g hg => ?_⟩
  · rw [State.row, State.complete_eq]
    exact State.row_foldl_loadRow _ u (hkeys ▸ cfgGroups_nodup d) hx
  · have hfresh : ((cfgRows d b).foldl State.loadRow u).Fresh x :=
      foldl_reaches (I := fun t : State => ∀ k, t.lostAt k = false) hx hworks (fun t y h k => (t.lostAt_loadRow y k).trans (h k))
        (fun t h => State.fresh_loadRow h (.inl ⟨rfl, hvalid⟩)) (fun t y h hP => State.fresh_loadRow h (.inr hP))
    simp only [State.byteAt_complete]
    rw [State.complete_eq]
    exact hfresh
  · rw [State.row, State.complete_eq]
    exact State.row_foldl_loadRow_of_not_mem _ u (hkeys ▸ hg)

/-! ### INVALIDATE (R230) -/

theorem bit_zero_iff (x : Nat) : bit x 0 = true ↔ x % 2 = 1 := beq_iff_eq

theorem rowCtrl_storeAt (r : Row) (v : Nat) : rowCtrl (storeAt r 0x60 (leBytes 8 v)) = v % 2 ^ 64 := by
  rw [rowCtrl, storeAt, List.append_assoc, leAt_middle _ _ _ _ _ (padTo_length ..) (leBytes_length ..), leNat_leBytes,
    show 256 ^ 8 = 2 ^ 64 from rfl]

/-- A valid row whose CTRL is counted down by one has VALID 0. -/
theorem rowValid_cleared {r : Row} (h : rowValid r = true) : rowValid (storeAt r 0x60 (leBytes 8 (rowCtrl r - 1))) = false := by
  have hodd := (bit_zero_iff _).1 h
  rw [rowValid, rowCtrl_storeAt, ← Bool.not_eq_true, bit_zero_iff]
  omega

theorem State.row_invalidate (s : State) (g k : Nat) : ((s.invalidate g).row k = s.row k ∧ (k = g → rowValid (s.row g) = false)) ∨
    (k = g ∧ rowValid ((s.invalidate g).row k) = false) := by
  unfold State.invalidate
  extract_lets r
  split
  next hvalid =>
    have hset : (s.modSet (fun t => { t with rows := tset t.rows [] g (storeAt r 0x60 (leBytes 8 (rowCtrl r - 1))) })).row k =
      if k = g then storeAt r 0x60 (leBytes 8 (rowCtrl r - 1)) else s.row k := tget_tset ..
    rw [hset]
    by_cases hk : k = g
    · rw [if_pos hk]
      exact .inr ⟨hk, rowValid_cleared hvalid⟩
    · rw [if_neg hk]
      exact .inl ⟨rfl, fun h => absurd h hk⟩
  next hvalid => exact .inl ⟨rfl, fun _ => Bool.eq_false_iff.2 hvalid⟩

theorem State.row_foldl_invalidate_of_not_mem {k : Nat} (l : List Nat) (s : State) (h : k ∉ l) : (l.foldl State.invalidate s).row k = s.row k := by
  induction l generalizing s with
  | nil => rfl
  | cons g l ih =>
    obtain ⟨hg, hl⟩ := not_or.1 (fun hk => h (List.mem_cons.2 hk))
    rw [List.foldl_cons, ih _ hl]
    exact ((s.row_invalidate g k).resolve_right fun hk => hg hk.1).1

/-- A row is not valid once its group has been invalidated, and then no other group's makes it so. -/
theorem State.invalid_invalidate (s : State) {k g : Nat} (h : k = g ∨ rowValid (s.row k) = false) : rowValid ((s.invalidate g).row k) = false := by
  rcases s.row_invalidate g k with ⟨hsame, hinvalid⟩ | ⟨-, hinvalid⟩
  · rw [hsame]
    exact h.elim (fun hk => hk ▸ hinvalid hk) id
  · exact hinvalid

theorem execSettleConfigInvalidate_clears {d : Desc} {s : State} (hnow : s.cfgNow d 2 = true) (hrange : cfgRange d false = none) :
    Answers (execSettleConfigInvalidate d s) (fun v => ∃ t : State, v = t.cfgEnds ∧ Completed s t d .ok 0 0 ∧
      (∀ g ∈ cfgGroups d, rowValid (t.row g) = false) ∧ ∀ g, g ∉ cfgGroups d → t.row g = s.row g) := by
  have hsame := Only.foldl (l := cfgGroups d) (fun t g ht => State.invalidate_only t g (hm := Nat.and_self _) (hk := ht)) (.refl _ s)
  rw [execSettleConfigInvalidate, if_pos hnow, hrange]
  refine Answers.next ⟨_, rfl, .of_same d _ _ _ _ _ (hsame.out rfl) (hsame.host rfl), fun g hg => ?_, fun g hg => ?_⟩
  · rw [State.row, State.complete_eq]
    exact foldl_reaches (I := fun _ : State => True) (P := fun t : State => rowValid (t.row g) = false) hg trivial (fun _ _ _ => trivial)
      (fun t _ => t.invalid_invalidate (.inl rfl)) (fun t _ _ h => t.invalid_invalidate (.inr h))
  · rw [State.row, State.complete_eq]
    exact State.row_foldl_invalidate_of_not_mem _ s hg

/-! ### REFRESH (R247, R249) -/

theorem execSettleConfigRefresh_rewrites {d : Desc} {r : Row} {code : List Nat × Nat × Nat} {b : List Byte} {ecc : List (Nat × EccResult)}
    {s u : State} (hu : u = s.eccAll ecc) (hnow : s.cfgNow d 3 = true) (hrange : cfgRange d true = none) (hr : r = s.row (cfgFirst d))
    (hvalid : rowValid r = true) (hcount : rowCount r = 1) (hmatch : s.engineMismatch = false)
    (hcode : code = wcConvert r (fun _ => none) (u.weights r 0)) (hb : b = code.1.flatMap (leBytes (rowWcBytes r)))
    (hworks : ∀ k, u.lostAt k = false) (happart : rowWcScaled r = true → rowWcs r < rowWc r ∨ rowWc r + b.length ≤ rowWcs r) :
    Answers (execSettleConfigRefresh d ecc s) (fun v => ∃ t : State, v = t.cfgEnds ∧ Completed u t d .ok 0 0 ∧ t.readMem (rowWc r) b.length = b ∧
      (rowWcScaled r = true → t.byteAt (rowWcs r) = BitVec.ofNat 8 code.2.1) ∧ t.settle = u.settle) := by
  have hblock : (List.range (rowCount r)).foldl (fun s i => s.refreshBlock r i) u = u.refreshBlock r 0 := by
    rw [hcount]
    rfl
  have hsame := State.refreshBlock_only u r 0 (hm := Nat.and_self _) (hk := .refl _ u)
  have hwrites : ∃ p : Bool, u.refreshBlock r 0 = if rowWcScaled r then (u.writeMem (rowWc r) b (fun _ => p)).writeMem (rowWcs r) (leBytes 1 code.2.1)
      else u.writeMem (rowWc r) b (fun _ => p) := by
    refine ⟨u.poisonIn (rowRec r + 0 * rowSize r + 16) (6 * rowN r), ?_⟩
    rw [State.refreshBlock, State.writeWc, ← hcode, ← hb, Nat.zero_mul, Nat.add_zero, Nat.add_zero]
    rfl
  obtain ⟨p, hwrites⟩ := hwrites
  have hcopy := State.readMem_writeMem (s := u) (a := rowWc r) (bs := b) (fun _ => p) fun k _ _ => hworks k
  rw [execSettleConfigRefresh, if_pos hnow, hrange, ← hr, ← hu]
  dsimp only
  rw [if_neg (not_not_intro hvalid), if_neg (Bool.eq_false_iff.1 hmatch), hblock]
  refine Answers.next ⟨_, rfl, .of_same d _ _ _ _ _ (hsame.out rfl) (hsame.host rfl), ?_, fun hscaled => ?_, ?_⟩
  · rw [State.readMem_complete, hwrites]
    split
    next hscaled =>
      rw [State.readMem_writeMem_out _ (by rw [leBytes_length]; have := happart hscaled; omega)]
      exact hcopy
    next => exact hcopy
  · rw [State.byteAt_complete, hwrites, if_pos hscaled]
    exact State.byteAt_writeMem_in (bs := leBytes 1 code.2.1) _ (fun k _ _ => (State.lostAt_writeMem ..).trans (hworks k)) 0
      (by rw [leBytes_length]; decide)
  · rw [State.complete_eq]
    exact hsame.settle rfl

/-- Settles O37: each action changes what it names and then completes; the held landings follow only after that. -/
theorem settleSettings : Obligations.SettleSettings := by
  unfold Obligations.SettleSettings
  refine ⟨fun d data b ecc s u => execSettleConfigJob_takes, fun d data b ecc s u => execSettleConfigRows_loads,
    fun d s => execSettleConfigInvalidate_clears, fun d r code b ecc s u => execSettleConfigRefresh_rewrites, fun s h => ?_⟩
  rw [State.cfgEnds, if_neg (fun hdue => Bool.eq_false_iff.1 h hdue.1)]

end Sys2Proof.Machine
end

