-- ==== Sys2Proof/Proofs/PlansAndQueries.lean ====
section
/-!
PROOFS. Collective plans, queries and their proxies (12_collectives.md, 14_host_interface.md).
-/
set_option autoImplicit false
namespace Sys2Proof.Machine

/-! ### COLLECTIVE_PLAN (R381) -/

/-- A plan from host memory is judged where no collective runs and no landing buffer fills (R381, R443). -/
theorem execCollectivePlan_judges {d : Desc} {data : List Byte} {ecc : List (Nat × EccResult)} {s u : State} (hu : u = s.eccAll ecc)
    (hheld : s.holds d 8 = true) (hnone : u.col.running = [])
    (hfilled : (List.range 8).any (fun c => (u.cluster c).lbs.any (fun x => x.2.st == .filling)) = false)
    (hmax : d.at 0x10 8 ≤ 1024) (halign : d.at 8 8 % 64 = 0) (hhost : bit (d.at 0x18 1) 0 = false) :
    (firstBad u.planRow (planEntries (d.at 0x10 8) data) = none → execCollectivePlan d data ecc s =
      .next ((u.modCol (fun c => { c with plan := planEntries (d.at 0x10 8) data, loaded := d.at 0x10 8 != 0 })).complete d .ok)) ∧
    ∀ i row, firstBad u.planRow (planEntries (d.at 0x10 8) data) = some (i, row) →
      execCollectivePlan d data ecc s = .next (u.complete d .malformed 0 (detailOf row i)) := by
  have hjudge (good : Bool) (hgood : good = true) : ¬ (1024 < d.at 0x10 8 ∨ ¬ good = true) := by
    simp [hgood, hmax]
  rw [execCollectivePlan, if_pos hheld, ← hu]
  dsimp only
  rw [if_neg (by simp only [hnone, hfilled]; simp), if_neg (hjudge _ (by simp [halign, hhost])), hhost, if_neg Bool.false_ne_true]
  exact ⟨fun h => by rw [h], fun i row h => by rw [h]⟩

/-! ### QUERY (R445) -/

/-- Only the statement selector changes anything (R445, R528). -/
theorem State.queryRecord_state {sel : Nat} (s : State) (ix : Nat) (h : sel ≠ 7) : (s.queryRecord sel ix).2 = s := by
  unfold State.queryRecord
  split
  case h_7 => exact absurd rfl h
  all_goals rfl

theorem execQuery_answers {d : Desc} {b : List Byte} {s u : State} (hheld : s.holds d 0x0D = true)
    (hnew : s.rtr.proxies.any (fun x => x.2.1 == d) = false) (hok : queryOk (querySel d) (queryIx d) = true) (halign : d.at 0x10 8 % 64 = 0)
    (hlocal : bit (d.at 0x1C 1) 0 = false) (hsel : querySel d ≠ 7) (hb : b = (s.queryRecord (querySel d) (queryIx d)).1)
    (hroom : b.length ≤ d.at 0x18 4) (hu : u = { s with out := s.out ++ [.hostWrite (d.at 0x10 8) b false] }) :
    Answers (execQuery d s) (fun t => Completed u t d .ok b.length 0) := by
  rw [execQuery, if_neg (by simp [hheld, hnew]), if_neg (by simp [hok, halign])]
  dsimp only
  rw [if_neg (by simp [hlocal]), ← hb, s.queryRecord_state _ hsel, if_neg (by simp [hlocal, hroom]), State.queryWrite, if_neg (Nat.not_lt.2 hroom)]
  subst hu
  exact Answers.next (.of_same d _ _ _ _ _ rfl rfl)

/-! ### Proxies (R339, R445) -/

/-- The fields of a proxy's address that its requester reads. -/
theorem proxyAddr_fields (sel ix st tag : Nat) (response : Bool) : fld (proxyAddr sel ix st tag response) 33 15 = tag % 32768 ∧
    fld (proxyAddr sel ix st tag response) 24 8 = st % 256 ∧ bit (proxyAddr sel ix st tag response) 32 = response := by
  have hflag : bnum response 32 = response.toNat * 2 ^ 32 := by cases response <;> rfl
  have hlt := Bool.toNat_lt response
  have hbit : response = (response.toNat == 1) := by cases response <;> rfl
  rw [proxyAddr, hflag, fld, fld, bit, Nat.shiftRight_eq_div_pow, Nat.shiftRight_eq_div_pow, Nat.shiftRight_eq_div_pow]
  generalize response.toNat = f at hlt hbit ⊢
  refine ⟨by omega, by omega, ?_⟩
  rw [hbit]
  congr 1
  omega

theorem execProxyRequest_answers {p : Packet} {s : State} (hkind : p.kind = 10) (hchannel : p.channel = 7) (hturn : s.inTurn p = true)
    (hok : queryOk (fld p.addr 0 8) (fld p.addr 8 16) = true) (hsel : fld p.addr 0 8 ≠ 7)
    (hroom : ((s.consumed p).queryRecord (fld p.addr 0 8) (fld p.addr 8 16)).1.length ≤ 8192) :
    Answers (execProxyRequest p s) (fun t => ∃ (u : State) (r : Packet), t = (u.inject r).2 ∧ r.kind = 10 ∧ r.channel = 6 ∧ r.dest = p.src ∧
      fld r.addr 33 15 = fld p.addr 33 15 ∧ fld r.addr 24 8 = Status.ok.code ∧ bit r.addr 32 = true ∧
      r.payload = ((s.consumed p).queryRecord (fld p.addr 0 8) (fld p.addr 8 16)).1) := by
  obtain ⟨htag, hstatus, hresponse⟩ := proxyAddr_fields (fld p.addr 0 8) (fld p.addr 8 16) Status.ok.code (fld p.addr 33 15) true
  have htagMax : fld p.addr 33 15 % 32768 = fld p.addr 33 15 := Nat.mod_mod _ _
  rw [execProxyRequest, if_pos ⟨hkind, hchannel, hturn⟩]
  dsimp only
  rw [if_pos hok, hok, decide_eq_false (Nat.not_lt.2 hroom)]
  exact Answers.next ⟨_, _, rfl, rfl, rfl, rfl, htag.trans htagMax, hstatus, hresponse, rfl⟩

theorem execProxyResponse_timeout {tag : Nat} {d : Desc} {due : Nat} {s : State}
    (hfind : s.rtr.proxies.find? (fun x => x.1 == tag) = some (tag, d, due)) :
    Answers (execProxyResponse tag none s) (fun t => Completed (s.reach due) t d .linkAbsent 0 0 ∧ t.aoNs = max s.aoNs due ∧
      ∀ x ∈ t.rtr.proxies, x.2.1 ≠ d) := by
  simp only [execProxyResponse, hfind]
  refine Answers.next ⟨.of_same d _ _ _ _ _ rfl rfl, ?_⟩
  rw [State.complete_eq]
  exact ⟨s.aoNs_reach due, fun x hx => bne_iff_ne.1 (List.mem_filter.1 hx).2⟩

theorem execProxyResponse_answered {tag : Nat} {d : Desc} {due : Nat} {p : Packet} {s u : State} (hkind : p.kind = 10) (hchannel : p.channel = 6)
    (htag : fld p.addr 33 15 = tag) (hturn : s.inTurn p = true) (hstatus : fld p.addr 24 8 = 0) (hclean : p.poison = [])
    (hfind : (s.consumed p).rtr.proxies.find? (fun x => x.1 == tag) = some (tag, d, due)) (hroom : p.payload.length ≤ d.at 0x18 4)
    (hu : u = { s.consumed p with out := (s.consumed p).out ++ [.hostWrite (d.at 0x10 8) p.payload false] }) :
    Answers (execProxyResponse tag (some p) s) (fun t => Completed u t d .ok p.payload.length 0 ∧ ∀ x ∈ t.rtr.proxies, x.2.1 ≠ d) := by
  rw [execProxyResponse]
  dsimp only
  rw [if_pos ⟨hkind, hchannel, htag, hturn⟩, hfind]
  dsimp only
  rw [hstatus, if_pos (show Status.ofCode 0 = .ok by decide), State.queryWrite, if_neg (Nat.not_lt.2 hroom), hclean]
  refine Answers.next ⟨?_, ?_⟩
  · subst hu
    exact .of_same d _ _ _ _ _ rfl rfl
  · rw [State.complete_eq]
    exact fun x hx => bne_iff_ne.1 (List.mem_filter.1 hx).2

/-- Settles O38: a record is read before anything of its query changes. -/
theorem plansAndQueries : Obligations.PlansAndQueries := by
  unfold Obligations.PlansAndQueries
  refine ⟨fun d data ecc s u hu hheld hnone hfilled hmax halign hhost hgood => ?_,
    fun d data i row ecc s u hu hheld hnone hfilled hmax halign hhost hbad => ?_, fun d b s u => execQuery_answers,
    fun p s => execProxyRequest_answers, fun tag d due s u hfind hu => ?_, fun tag d due p s u => execProxyResponse_answered⟩
  · rw [show exec (.collectivePlan d data ecc) s = execCollectivePlan d data ecc s from rfl,
      (execCollectivePlan_judges hu hheld hnone hfilled hmax halign hhost).1 hgood]
    refine Answers.next ⟨.of_same d _ _ _ _ _ rfl rfl, ?_⟩
    rw [State.complete_eq]
    exact ⟨rfl, rfl⟩
  · rw [show exec (.collectivePlan d data ecc) s = execCollectivePlan d data ecc s from rfl,
      (execCollectivePlan_judges hu hheld hnone hfilled hmax halign hhost).2 i row hbad]
    refine Answers.next ⟨.of_same d _ _ _ _ _ rfl rfl, ?_⟩
    rw [State.complete_eq]
  · subst hu
    exact execProxyResponse_timeout hfind

end Sys2Proof.Machine
end

