-- ==== Sys2Proof/Proofs/PointBarriers.lean ====
section
/-!
PROOFS. Point barriers go up the combining tree and come down it (14_host_interface.md, 12_collectives.md).
-/
set_option autoImplicit false
namespace Sys2Proof.Machine

/-! ### The combining tree (R392) -/

/-- The value of one stage of a tree while no child's has come. -/
theorem combineStage_none {α : Type} (op : α → α → α) (kids : List (Bool × Coord)) (v : Option α) (h : v = none ∨ kids ≠ []) :
    kids.foldl (fun v (_ : Bool × Coord) => match v, (none : Option α) with | some x, some y => some (op x y) | _, _ => none) v = none := by
  induction kids generalizing v with
  | nil => exact h.resolve_right (fun hne => hne rfl)
  | cons k kids ih =>
    rw [List.foldl_cons]
    exact ih _ (.inl (by cases v <;> rfl))

/-- Nothing is combined while a stage has a child and no child's value is held. -/
theorem combineTree_none {α : Type} {s : State} {a : Nat} (op : α → α → α) (own : α) (haxis : a ∈ s.treeAxes) (hkids : s.treeKids a ≠ []) :
    combineTree s op (fun _ _ => none) own = none := by
  have hstages (l : List Nat) (v : Option α) (h : v = none ∨ a ∈ l) : l.foldl (fun v a => (s.treeKids a).foldl
      (fun v (_ : Bool × Coord) => match v, (none : Option α) with | some x, some y => some (op x y) | _, _ => none) v) v = none := by
    induction l generalizing v with
    | nil => exact h.resolve_right List.not_mem_nil
    | cons b l ih =>
      rw [List.foldl_cons]
      rcases h with hv | hal
      · exact ih _ (.inl (combineStage_none op _ v (.inl hv)))
      · rcases List.mem_cons.1 hal with hab | hal
        · exact ih _ (.inl (combineStage_none op _ v (.inr (hab ▸ hkids))))
        · exact ih _ (.inr hal)
  exact hstages _ _ (.inr haxis)

/-! ### The barrier (R455, R456) -/

/-- The end of a barrier is recorded after its broadcast went on. -/
theorem State.col_pointFinal (s : State) (n : Nat) (pending : Bool) : (s.pointFinal n pending).col =
    { s.col with points := [], pointOwn := false, pointWait := false, pointNo := n, pointStop := s.col.pointStop || pending } := by
  unfold State.pointFinal
  extract_lets u
  have hsent : u.col = s.col := (Only.foldl (l := s.treeDown) (fun t k ht => State.streamSend_only t k.2.1
    (t.packet 0 1 k.2.2 (pointAddr true t.rtr.slice.id) (pointBytes n pending)) (hm := Nat.and_self _) (hk := ht)) (.refl _ s)).col rfl
  rw [State.modCol_col, hsent]

theorem State.reachPoint_runs {s : State} (hcmd : s.commandRuns = true) (hnew : s.col.pointWait = false)
    (hidle : ∀ c, c < 8 → s.layersLeft c = false) : ¬ (¬ s.commandRuns ∨ s.col.pointWait ∨ (List.range 8).any (fun c => s.layersLeft c)) := by
  have hnone : (List.range 8).any (fun c => s.layersLeft c) = false :=
    List.any_eq_false.2 fun c hc => Bool.eq_false_iff.1 (hidle c (List.mem_range.1 hc))
  simp [hcmd, hnew, hnone]

/-- The clusters stand at point n, and wait for its barrier (R455). -/
def State.atPoint (s : State) (n : Nat) : State :=
  s.modCol (fun c => { c with pointOwn := true, pointWait := true, pointNo := n, pointAt := s.aoNs })

theorem State.reachPoint_alone {n : Nat} {s : State} (hruns : ¬ (¬ s.commandRuns ∨ s.col.pointWait ∨ (List.range 8).any (fun c => s.layersLeft c)))
    (hslice : s.hasSlice = false) : s.reachPoint n = (s.atPoint n).pointFinal n s.preempt := by
  rw [State.reachPoint, if_neg hruns]
  exact if_pos (Bool.eq_false_iff.1 hslice)

theorem State.reachPoint_combines {n : Nat} {s : State}
    (hruns : ¬ (¬ s.commandRuns ∨ s.col.pointWait ∨ (List.range 8).any (fun c => s.layersLeft c)))
    (hslice : s.hasSlice = true) (hsound : s.rtr.slice.st ≠ 2) : s.reachPoint n = (s.atPoint n).pointAdvance := by
  rw [State.reachPoint, if_neg hruns]
  exact (if_neg (not_not_intro hslice)).trans (if_neg hsound)

/-- A barrier waits while a child is missing and none has come. -/
theorem State.pointAdvance_waits {a : Nat} {s : State} (hown : s.col.pointOwn = true) (hnone : s.col.points = []) (haxis : a ∈ s.treeAxes)
    (hkids : s.treeKids a ≠ []) : s.pointAdvance = s := by
  rw [State.pointAdvance, if_neg (not_not_intro hown), hnone]
  simp only [List.find?_nil, Option.map_none]
  rw [combineTree_none or s.preempt haxis hkids]

theorem execPointBarrierCombine_alone {n : Nat} {s : State} (hcmd : s.commandRuns = true) (hnew : s.col.pointWait = false)
    (hidle : ∀ c, c < 8 → s.layersLeft c = false) (hslice : s.hasSlice = false) :
    Answers (execPointBarrierCombine n none s) (fun t => t.col.pointWait = false ∧ t.col.pointNo = n ∧
      t.col.pointStop = (s.col.pointStop || s.preempt)) := by
  rw [execPointBarrierCombine, State.reachPoint_alone (State.reachPoint_runs hcmd hnew hidle) hslice]
  refine Answers.next ?_
  rw [State.col_pointFinal]
  exact ⟨rfl, rfl, rfl⟩

theorem execPointBarrierCombine_waits {n a : Nat} {k : Bool × Coord} {s : State} (hcmd : s.commandRuns = true) (hnew : s.col.pointWait = false)
    (hidle : ∀ c, c < 8 → s.layersLeft c = false) (hslice : s.hasSlice = true) (hsound : s.rtr.slice.st ≠ 2) (haxis : a ∈ s.treeAxes)
    (hkid : k ∈ s.treeKids a) (hpoints : s.col.points = []) :
    Answers (execPointBarrierCombine n none s) (fun t => t.col.pointWait = true ∧ t.col.pointOwn = true ∧ t.col.pointNo = n ∧
      t.col.pointAt = s.aoNs ∧ t.out = s.out) := by
  rw [execPointBarrierCombine, State.reachPoint_combines (State.reachPoint_runs hcmd hnew hidle) hslice hsound,
    State.pointAdvance_waits (s := s.atPoint n) rfl hpoints haxis (List.ne_nil_of_mem hkid)]
  exact Answers.next ⟨rfl, rfl, rfl, rfl, rfl⟩

theorem execPointBarrierCombine_recorded (n : Nat) {p : Packet} {s : State} (hturn : s.inTurn p = true) (hkind : p.kind = 1)
    (hok : (s.consumed p).pointOk p false = true) (hown : s.col.pointOwn = false)
    (hchild : ((s.consumed p).treeKids ((s.consumed p).srcAxis p.src)).any (fun k => k.2 == p.src) = true) :
    Answers (execPointBarrierCombine n (some p) s) (fun t => t.col.points = s.col.points ++
      [((s.consumed p).srcAxis p.src, (s.consumed p).fromPlus ((s.consumed p).srcAxis p.src) p.src, leAt p.payload 0 4, bit (leAt p.payload 4 1) 0)]) := by
  have hcol := (State.consumed_only s p (hm := Nat.and_self _) (hk := .refl _ s)).col rfl
  have hstays (u : State) (hown : u.col.pointOwn = false) : u.pointAdvance = u := by
    rw [State.pointAdvance, hown]
    rfl
  rw [execPointBarrierCombine]
  dsimp only
  rw [if_neg (by simp [hturn, hkind]), if_neg (by simp only [hok, hchild]; simp)]
  refine Answers.next ?_
  rw [hstays _ (by rw [State.modCol_col, hcol]; exact hown), State.modCol_col, hcol]

theorem execPointBarrierBroadcast_ends {p : Packet} {s : State} (hturn : s.inTurn p = true) (hkind : p.kind = 1)
    (hok : (s.consumed p).pointOk p true = true) (hwait : s.col.pointWait = true) (hno : leAt p.payload 0 4 = s.col.pointNo) :
    Answers (execPointBarrierBroadcast p s) (fun t => t.col.pointWait = false ∧ t.col.pointOwn = false ∧ t.col.points = [] ∧
      t.col.pointStop = (s.col.pointStop || bit (leAt p.payload 4 1) 0)) := by
  have hcol := (State.consumed_only s p (hm := Nat.and_self _) (hk := .refl _ s)).col rfl
  rw [execPointBarrierBroadcast, if_neg (by simp [hturn, hkind])]
  dsimp only
  rw [if_neg (by simp only [hok, hcol, hwait, hno]; simp)]
  refine Answers.next ?_
  rw [State.col_pointFinal, hcol]
  exact ⟨rfl, rfl, rfl, rfl⟩

/-- Settles O41: no value is combined while a child's is missing, and what is sent changes nothing of the barrier. -/
theorem pointBarriers : Obligations.PointBarriers := by
  unfold Obligations.PointBarriers
  exact ⟨fun n s => execPointBarrierCombine_alone, fun n a k s => execPointBarrierCombine_waits, fun n p s => execPointBarrierCombine_recorded n,
    fun p s => execPointBarrierBroadcast_ends⟩

end Sys2Proof.Machine
end

