-- ==== Sys2Proof/Proofs/SettlementStage.lean ====
section
/-!
PROOFS. What the parts of a step's decision leave of the settlement's stage: the phase, the step number, the statements and the
rows (07_settlement_engine.md).
-/
set_option autoImplicit false
namespace Sys2Proof.Machine

/-- The phase, the step number, both statements, whether the last step was aborted, and the rows. -/
def Settle.stage (t : Settle) : Settle :=
  { phase := t.phase, setStep := t.setStep, lastAborted := t.lastAborted, rows := t.rows, own := t.own, final := t.final }

/-- The stage of the settlement is the same in t as in s. -/
def SameStage (s t : State) : Prop := t.settle.stage = s.settle.stage

namespace SameStage

variable {s t u : State}

theorem refl (s : State) : SameStage s s := rfl
theorem trans (h : SameStage s t) (k : SameStage t u) : SameStage s u := Eq.trans k h

/-- The mask has every bit but that of the field. -/
theorem only (h : Only 8587837439 t u) (hk : SameStage s t) : SameStage s u := by
  rw [SameStage, h.settle (by decide)]
  exact hk

theorem ite {c : Prop} [Decidable c] (h : SameStage s t) (k : SameStage s u) : SameStage s (if c then t else u) := by
  split
  · exact h
  · exact k

theorem ite2 {α : Type} {c : Prop} [Decidable c] {p q : α × State} (h : SameStage s p.2) (k : SameStage s q.2) :
    SameStage s (if c then p else q).2 := by
  split
  · exact h
  · exact k

theorem pair {α : Type} {p : α × State} {a : α} (h : p = (a, t)) (hp : SameStage s p.2) : SameStage s t := by
  subst h
  exact hp

theorem foldl {α : Type} {f : State → α → State} {l : List α} (h : ∀ t x, SameStage s t → SameStage s (f t x))
    (h0 : SameStage s t) : SameStage s (l.foldl f t) := by
  induction l generalizing t with
  | nil => exact h0
  | cons x l ih => exact ih (h _ _ h0)

theorem set_hwm (hwm : Tab Nat) (h : SameStage s t) : SameStage s { t with hwm := hwm } := h

theorem foldl2 {α β : Type} {f : β × State → α → β × State} {l : List α} {p : β × State}
    (h : ∀ q x, SameStage s q.2 → SameStage s (f q x).2) (h0 : SameStage s p.2) : SameStage s (l.foldl f p).2 := by
  induction l generalizing p with
  | nil => exact h0
  | cons x l ih => exact ih (h _ _ h0)

theorem foldl3 {α β γ : Type} {f : β × γ × State → α → β × γ × State} {l : List α} {p : β × γ × State}
    (h : ∀ q x, SameStage s q.2.2 → SameStage s (f q x).2.2) (h0 : SameStage s p.2.2) : SameStage s (l.foldl f p).2.2 := by
  induction l generalizing p with
  | nil => exact h0
  | cons x l ih => exact ih (h _ _ h0)

theorem phase (h : SameStage s t) : t.settle.phase = s.settle.phase := congrArg (·.phase) h
theorem setStep (h : SameStage s t) : t.settle.setStep = s.settle.setStep := congrArg (·.setStep) h
theorem lastAborted (h : SameStage s t) : t.settle.lastAborted = s.settle.lastAborted := congrArg (·.lastAborted) h
theorem rows (h : SameStage s t) : t.settle.rows = s.settle.rows := congrArg (·.rows) h
theorem row (h : SameStage s t) (g : Nat) : t.row g = s.row g := congrArg (fun rs : Tab Row => tget rs [] g) h.rows
theorem own (h : SameStage s t) : t.settle.own = s.settle.own := congrArg (·.own) h
theorem final (h : SameStage s t) : t.settle.final = s.settle.final := congrArg (·.final) h

end SameStage

theorem State.modSet_sameStage {s₀ : State} (s : State) (f : Settle → Settle) (hf : ∀ t, (f t).stage = t.stage)
    (hk : SameStage s₀ s) : SameStage s₀ (s.modSet f) := (hf s.settle).trans hk

/-! ### Operations that leave the settlement alone -/

theorem State.modDec_sameStage {s₀ : State} (s : State) (f : Decision → Decision)
    (hk : SameStage s₀ s) : SameStage s₀ (State.modDec s f) :=
  .only (State.modDec_only (hm := by decide) (hk := .refl _ _) ..) hk

theorem State.log_sameStage {s₀ : State} (s : State) (c : EventClass) (source : Nat) (data : List (Nat × Nat))
    (hk : SameStage s₀ s) : SameStage s₀ (State.log s c source data) :=
  .only (State.log_only (hm := by decide) (hk := .refl _ _) ..) hk

theorem State.writeMem_sameStage {s₀ : State} (s : State) (a : Nat) (bs : List Byte) (src : Nat → Bool)
    (hk : SameStage s₀ s) : SameStage s₀ (State.writeMem s a bs src) :=
  .only (State.writeMem_only (hm := by decide) (hk := .refl _ _) ..) hk

theorem State.setPresent_sameStage {s₀ : State} (s : State) (r : Row) (i : Nat) (b : Bool)
    (hk : SameStage s₀ s) : SameStage s₀ (State.setPresent s r i b) :=
  .only (State.setPresent_only (hm := by decide) (hk := .refl _ _) ..) hk

theorem State.writeWc_sameStage {s₀ : State} (s : State) (r : Row) (i : Nat) (c : List Nat × Nat × Nat) (pois : Bool)
    (hk : SameStage s₀ s) : SameStage s₀ (State.writeWc s r i c pois) :=
  .only (State.writeWc_only (hm := by decide) (hk := .refl _ _) ..) hk

theorem State.clearPresence_sameStage {s₀ : State} (s : State)
    (hk : SameStage s₀ s) : SameStage s₀ (State.clearPresence s) :=
  .only (State.clearPresence_only (hm := by decide) (hk := .refl _ _) ..) hk

theorem State.modCol_sameStage {s₀ : State} (s : State) (f : Collect → Collect)
    (hk : SameStage s₀ s) : SameStage s₀ (State.modCol s f) :=
  .only (State.modCol_only (hm := by decide) (hk := .refl _ _) ..) hk

theorem State.total_sameStage {s₀ : State} (s : State) (i n : Nat)
    (hk : SameStage s₀ s) : SameStage s₀ (State.total s i n) :=
  .only (State.total_only (hm := by decide) (hk := .refl _ _) ..) hk

theorem State.engineFault_sameStage {s₀ : State} (s : State) (n : Nat)
    (hk : SameStage s₀ s) : SameStage s₀ (State.engineFault s n) :=
  .only (State.engineFault_only (hm := by decide) (hk := .refl _ _) ..) hk

theorem State.streamSend_sameStage {s₀ : State} (s : State) (n : Nat) (p : Packet)
    (hk : SameStage s₀ s) : SameStage s₀ (State.streamSend s n p).2 :=
  .only (State.streamSend_only (hm := by decide) (hk := .refl _ _) ..) hk

/-! ### Shares, records and passes -/

theorem State.modGuard_sameStage {s₀ : State} (s : State) (g : Nat) (f : GroupGuard → GroupGuard)
    (hk : SameStage s₀ s) : SameStage s₀ (State.modGuard s g f) := by
  unfold State.modGuard
  repeat' (first
    | with_reducible assumption
    | with_reducible refine State.modSet_sameStage (hf := fun _ => rfl) (hk := ?_) ..
    | split)

theorem State.setShare_sameStage {s₀ : State} (s : State) (g i : Nat) (n : BlockShare)
    (hk : SameStage s₀ s) : SameStage s₀ (State.setShare s g i n) := by
  unfold State.setShare
  repeat' (first
    | with_reducible assumption
    | with_reducible first | refine State.modSet_sameStage (hf := fun _ => rfl) (hk := ?_) .. | refine State.modGuard_sameStage (hk := ?_) ..
    | split
    | dsimp only)

theorem State.dropShare_sameStage {s₀ : State} (s : State) (g i : Nat)
    (hk : SameStage s₀ s) : SameStage s₀ (State.dropShare s g i) := by
  unfold State.dropShare
  repeat' (first
    | with_reducible assumption
    | with_reducible refine State.setShare_sameStage (hk := ?_) ..
    | with_reducible refine SameStage.ite ?_ ?_)

theorem State.dropShares_sameStage {s₀ : State} (s : State)
    (hk : SameStage s₀ s) : SameStage s₀ (State.dropShares s) := by
  unfold State.dropShares
  repeat' (first
    | with_reducible assumption
    | with_reducible refine State.dropShare_sameStage (hk := ?_) ..
    | with_reducible refine SameStage.foldl (fun _ _ _ => ?_) ?_
    | split)

theorem State.guardsAtContribution_sameStage {s₀ : State} (s : State)
    (hk : SameStage s₀ s) : SameStage s₀ (State.guardsAtContribution s) := by
  unfold State.guardsAtContribution
  repeat' (first
    | with_reducible assumption
    | with_reducible refine State.modGuard_sameStage (hk := ?_) ..
    | with_reducible refine SameStage.foldl (fun _ _ _ => ?_) ?_
    | split)

theorem State.modCounts_sameStage {s₀ : State} (s : State) (g : Nat) (f : GroupCounts → GroupCounts)
    (hk : SameStage s₀ s) : SameStage s₀ (State.modCounts s g f) := by
  unfold State.modCounts
  repeat' (first
    | with_reducible assumption
    | with_reducible refine State.modSet_sameStage (hf := fun _ => rfl) (hk := ?_) ..
    | split)

theorem State.judgeDormant_sameStage {s₀ : State} (s : State) (g : Nat) (live : Bool)
    (hk : SameStage s₀ s) : SameStage s₀ (State.judgeDormant s g live) := by
  unfold State.judgeDormant
  repeat' (first
    | with_reducible assumption
    | with_reducible first | refine State.modDec_sameStage (hk := ?_) .. | refine State.log_sameStage (hk := ?_) .. | refine State.modGuard_sameStage (hk := ?_) ..
    | with_reducible refine SameStage.ite ?_ ?_
    | split
    | dsimp only)

theorem State.lossSample_sameStage {s₀ : State} (s : State)
    (hk : SameStage s₀ s) : SameStage s₀ (State.lossSample s) := by
  unfold State.lossSample
  repeat' (first
    | with_reducible assumption
    | with_reducible first | refine State.modSet_sameStage (hf := fun _ => rfl) (hk := ?_) .. | refine State.modDec_sameStage (hk := ?_) .. | refine State.log_sameStage (hk := ?_) ..
    | with_reducible refine SameStage.ite ?_ ?_
    | split
    | dsimp only)

theorem State.clearTotals_sameStage {s₀ : State} (s : State)
    (hk : SameStage s₀ s) : SameStage s₀ (State.clearTotals s) := by
  unfold State.clearTotals
  repeat' (first
    | with_reducible assumption
    | with_reducible refine State.modSet_sameStage (hf := fun _ => rfl) (hk := ?_) ..
    | split)

theorem State.settleBlock_sameStage {s₀ : State} (s : State) (g : Nat) (r : Row) (k : StepConst) (step i : Nat) (absent : Bool)
    (hk : SameStage s₀ s) : SameStage s₀ (State.settleBlock s g r k step i absent).2 := by
  unfold State.settleBlock
  repeat' (first
    | with_reducible assumption
    | with_reducible first | refine State.writeMem_sameStage (hk := ?_) .. | refine State.modGuard_sameStage (hk := ?_) .. | refine State.setPresent_sameStage (hk := ?_) .. | refine State.writeWc_sameStage (hk := ?_) ..
    | with_reducible refine SameStage.ite ?_ ?_
    | with_reducible refine SameStage.ite2 ?_ ?_
    | split
    | with_reducible refine SameStage.set_hwm (h := ?_) ..
    | dsimp only)

theorem State.passGroup_sameStage {s₀ : State} (s : State) (g : Nat) (k : StepConst) (step : Nat)
    (hk : SameStage s₀ s) : SameStage s₀ (State.passGroup s g k step).2.2 := by
  unfold State.passGroup
  repeat' (first
    | with_reducible assumption
    | with_reducible first | refine State.log_sameStage (hk := ?_) .. | refine State.modCounts_sameStage (hk := ?_) .. | refine State.settleBlock_sameStage (hk := ?_) ..
    | with_reducible refine SameStage.foldl (fun _ _ _ => ?_) ?_
    | with_reducible refine SameStage.foldl2 (fun _ _ _ => ?_) ?_
    | split
    | dsimp only)

theorem State.settlePass_sameStage {s₀ : State} (s : State) (c : W32) (step : Nat)
    (hk : SameStage s₀ s) : SameStage s₀ (State.settlePass s c step) := by
  unfold State.settlePass
  repeat' (first
    | with_reducible assumption
    | with_reducible first | refine State.modDec_sameStage (hk := ?_) .. | refine State.passGroup_sameStage (hk := ?_) ..
    | with_reducible refine SameStage.foldl3 (fun _ _ _ => ?_) ?_
    | split
    | dsimp only)

end Sys2Proof.Machine
end

