-- ==== Sys2Proof/Proofs/Landings.lean ====
section
/-!
PROOFS. A gradient block that lands: its bytes, its scale and its presence bit (07_settlement_engine.md).
-/
set_option autoImplicit false
namespace Sys2Proof.Machine

/-- A bit that is written as 1 reads 1 (R227). -/
theorem bit_putf_one (x i : Nat) : bit (putf x i 1 1) i = true := by
  have hpos : 0 < 2 ^ i := Nat.two_pow_pos i
  have hsplit : x - x / 2 ^ i % 2 * 2 ^ i + 2 ^ i = x % 2 ^ i + (x / 2 ^ i - x / 2 ^ i % 2 + 1) * 2 ^ i := by
    have hx := Nat.div_add_mod x (2 ^ i)
    have hle : x / 2 ^ i % 2 ≤ x / 2 ^ i := Nat.mod_le ..
    rw [Nat.add_mul, Nat.sub_mul, Nat.one_mul, Nat.mul_comm (x / 2 ^ i)]
    have := Nat.mul_le_mul_right (2 ^ i) hle
    rw [Nat.mul_comm (x / 2 ^ i)] at this
    omega
  rw [bit, putf, fld, Nat.pow_one, Nat.shiftRight_eq_div_pow, Nat.shiftRight_eq_div_pow, Nat.shiftLeft_eq, Nat.shiftLeft_eq, beq_iff_eq,
    show 1 % 2 * 2 ^ i = 2 ^ i from Nat.one_mul _, hsplit, Nat.add_mul_div_right _ _ hpos, Nat.div_eq_of_lt (Nat.mod_lt _ hpos)]
  omega

theorem flatMap_leBytes_two (l : List (BitVec 16)) : (l.map BitVec.toNat).flatMap (leBytes 2) = l.flatMap (fun e => leBytes 2 e.toNat) :=
  List.flatMap_map ..

theorem length_flatMap_leBytes (l : List (BitVec 16)) : (l.flatMap (fun e => leBytes 2 e.toNat)).length = 2 * l.length := by
  induction l with
  | nil => rfl
  | cons e l ih => rw [List.flatMap_cons, List.length_append, ih, leBytes_length, List.length_cons]; omega

/-! ### What a landing writes (R226, R227, R234) -/

/-- The record of the micro-steps that have landed, and the phase that follows the first landing. -/
def Settle.land (t : Settle) (l : Land) : Settle :=
  { t with landed := tmod t.landed 0 (slotKey l.group l.block) (fun m => putf m l.micro 1 1), phase := if t.phase = .idle then .landing else t.phase }

/-- What shares of a settlement are recorded leaves its stage and the landings. -/
theorem State.landed_setShare (s : State) (g i : Nat) (n : BlockShare) : (s.setShare g i n).settle.landed = s.settle.landed := rfl

theorem State.landed_dropShare (s : State) (g i : Nat) : (s.dropShare g i).settle.landed = s.settle.landed := by
  rw [State.dropShare]
  split
  · exact State.landed_setShare ..
  · rfl

/-- Memory after a block has come into an empty slot: its elements, its scale and its presence bit. -/
def State.landed (s : State) (l : Land) : State :=
  (((s.modSet (·.land l)).writeMem (rowG (s.row l.group) + l.block * 2 * rowN (s.row l.group))
      (l.elems.flatMap (fun e => leBytes 2 e.toNat)) (fun _ => l.poison)).writeMem (rowGs (s.row l.group) + l.block)
    (leBytes 1 l.scale.toNat)).setPresent (s.row l.group) l.block true

/-- A block that lands in an empty slot is stored as it came; what follows records its share. -/
theorem State.applyLanding_empty {l : Land} {s : State} (hempty : s.presentBit (s.row l.group) l.block = false) :
    ∃ n, s.applyLanding l = (s.landed l).setShare l.group l.block n ∨
      ∃ k, s.applyLanding l = ((s.landed l).setShare l.group l.block n).dropShare l.group k := by
  rw [State.landed, ← flatMap_leBytes_two]
  unfold State.applyLanding
  extract_lets r i u had codes
  have hhad : had = false := hempty
  clear_value had
  subst hhad
  generalize u.gradSlot r i = slot
  obtain ⟨old, oldScale, oldPois⟩ := slot
  dsimp only
  rw [Bool.false_and, Bool.or_false, if_neg Bool.false_ne_true, if_neg Bool.false_ne_true, if_neg Bool.false_ne_true]
  split
  next k _ => exact ⟨_, .inr ⟨k, rfl⟩⟩
  next => exact ⟨_, .inl rfl⟩

/-- The share of a block is recorded beside its bytes, the stage and the landings. -/
theorem State.applyLanding_parts {l : Land} {s : State} (hempty : s.presentBit (s.row l.group) l.block = false) :
    (s.applyLanding l).mem = (s.landed l).mem ∧ (s.applyLanding l).dram = (s.landed l).dram ∧ SameStage (s.landed l) (s.applyLanding l) ∧
    (s.applyLanding l).settle.landed = (s.landed l).settle.landed := by
  obtain ⟨n, hshare | ⟨k, hshare⟩⟩ := State.applyLanding_empty hempty
  · rw [hshare]
    generalize s.landed l = v
    exact ⟨rfl, rfl, State.setShare_sameStage (hk := .refl _) .., rfl⟩
  · rw [hshare]
    generalize s.landed l = v
    have hdrop := State.dropShare_only (v.setShare l.group l.block n) l.group k (hm := Nat.and_self _) (hk := .refl _ _)
    exact ⟨hdrop.mem rfl, hdrop.dram rfl, State.dropShare_sameStage (hk := State.setShare_sameStage (hk := .refl _) ..) ..,
      State.landed_dropShare ..⟩

theorem State.settle_writeMem (s : State) (a : Nat) (bs : List Byte) (src : Nat → Bool) : (s.writeMem a bs src).settle = s.settle :=
  (State.writeMem_only (hm := Nat.and_self _) (hk := .refl _ s) ..).settle rfl

theorem State.settle_landed (s : State) (l : Land) : (s.landed l).settle = s.settle.land l := by
  rw [State.landed, State.setPresent, State.settle_writeMem, State.settle_writeMem, State.settle_writeMem]
  rfl

theorem State.lostAt_landed (s : State) (l : Land) (k : Nat) : (s.landed l).lostAt k = s.lostAt k := by
  rw [State.landed, State.setPresent, State.lostAt_writeMem, State.lostAt_writeMem, State.lostAt_writeMem]
  rfl

theorem State.presentBit_setPresent {s : State} (hworks : ∀ k, s.lostAt k = false) (r : Row) (i : Nat) :
    (s.setPresent r i true).presentBit r i = true := by
  have hbyte := State.byteAt_writeMem_in (s := s) (a := rowPres r + i / 8)
    (bs := [BitVec.ofNat 8 (putf (s.byteAt (rowPres r + i / 8)).toNat (i % 8) 1 (bnum true))]) (fun _ => false) (fun k _ _ => hworks k) 0
    Nat.one_pos
  rw [State.presentBit, State.setPresent]
  rw [Nat.add_zero, List.getElem_cons_zero] at hbyte
  rw [hbyte, BitVec.toNat_ofNat, bit_mod_two_pow _ (Nat.mod_lt _ (by decide))]
  exact bit_putf_one ..

/-- A block in an empty slot, whose slot, scale and presence byte lie apart, stands there as it came (R226, R227, R234). -/
theorem State.bytes_landed {l : Land} {s : State} {r : Row} (hr : r = s.row l.group) (hlen : l.elems.length = rowN r)
    (hworks : ∀ k, s.lostAt k = false)
    (hapart : ∀ k, rowG r + l.block * 2 * rowN r ≤ k → k < rowG r + (l.block + 1) * 2 * rowN r →
      k ≠ rowGs r + l.block ∧ k ≠ rowPres r + l.block / 8 ∧ rowGs r + l.block ≠ rowPres r + l.block / 8) :
    (s.landed l).presentBit r l.block = true ∧
    (s.landed l).readMem (rowG r + l.block * 2 * rowN r) (2 * rowN r) = l.elems.flatMap (fun e => leBytes 2 e.toNat) ∧
    (0 < rowN r → (s.landed l).byteAt (rowGs r + l.block) = l.scale) := by
  have hbytes : (l.elems.flatMap (fun e => leBytes 2 e.toNat)).length = 2 * rowN r := by rw [length_flatMap_leBytes, hlen]
  have hend : rowG r + (l.block + 1) * 2 * rowN r = rowG r + l.block * 2 * rowN r + 2 * rowN r := by
    rw [Nat.add_mul, Nat.one_mul, Nat.add_mul, Nat.add_assoc]
  rw [hend] at hapart
  have hworks' : ∀ k, (s.modSet (·.land l)).lostAt k = false := hworks
  rw [State.landed, ← hr]
  generalize s.modSet (·.land l) = u at hworks'
  have hworks₁ (k : Nat) : (u.writeMem (rowG r + l.block * 2 * rowN r) (l.elems.flatMap (fun e => leBytes 2 e.toNat)) (fun _ => l.poison)).lostAt k =
    false := (State.lostAt_writeMem ..).trans (hworks' k)
  have hblock := State.readMem_writeMem (s := u) (a := rowG r + l.block * 2 * rowN r) (bs := l.elems.flatMap (fun e => leBytes 2 e.toNat))
    (fun _ => l.poison) fun k _ _ => hworks' k
  generalize u.writeMem (rowG r + l.block * 2 * rowN r) (l.elems.flatMap (fun e => leBytes 2 e.toNat)) (fun _ => l.poison) = v at hworks₁ hblock ⊢
  have hworks₂ (k : Nat) : (v.writeMem (rowGs r + l.block) (leBytes 1 l.scale.toNat)).lostAt k = false :=
    (State.lostAt_writeMem ..).trans (hworks₁ k)
  have hscale := State.byteAt_writeMem_in (s := v) (a := rowGs r + l.block) (bs := leBytes 1 l.scale.toNat) (fun _ => false)
    (fun k _ _ => hworks₁ k) 0 (by rw [leBytes_length]; exact Nat.one_pos)
  refine ⟨State.presentBit_setPresent hworks₂ r l.block, ?_, fun hn => ?_⟩
  · have hkeep : ∀ k, rowG r + l.block * 2 * rowN r ≤ k → k < rowG r + l.block * 2 * rowN r + 2 * rowN r →
        ((v.writeMem (rowGs r + l.block) (leBytes 1 l.scale.toNat)).setPresent r l.block true).byteAt k = v.byteAt k := fun k hlo hhi => by
      obtain ⟨hgs, hpres, -⟩ := hapart k hlo hhi
      rw [State.setPresent, State.byteAt_writeMem_out _ (by rw [List.length_singleton]; omega),
        State.byteAt_writeMem_out _ (by rw [leBytes_length]; omega)]
    rw [hbytes] at hblock
    rw [← hblock]
    exact List.map_congr_left fun i hi => hkeep (rowG r + l.block * 2 * rowN r + i) (Nat.le_add_right ..)
      (Nat.add_lt_add_left (List.mem_range.1 hi) _)
  · obtain ⟨-, -, hpres⟩ := hapart _ (Nat.le_refl _) (by omega)
    rw [State.setPresent, State.byteAt_writeMem_out _ (by rw [List.length_singleton]; omega)]
    rw [Nat.add_zero] at hscale
    rw [hscale]
    exact BitVec.eq_of_toNat_eq (by simp [leBytes])

end Sys2Proof.Machine
end

