-- ==== Sys2Proof/Proofs/Settlement.lean ====
section
/-!
PROOFS. The decision of a step: the contribution, the statement, the pass and the walk (07_settlement_engine.md,
12_collectives.md, The fused settlement reduction).
-/
set_option autoImplicit false
namespace Sys2Proof.Machine

/-! ### The decision on a broadcast statement (R238, R239, R271) -/

/-- A settlement that has taken statement st, and is in its pass, as the decision on st in s leaves it. -/
def State.Judged (s : State) (st : Stmt) (t : State) : Prop :=
  t.settle.phase = .pass ∧ t.settle.setStep = (s.settle.setStep + 1) % 2 ^ 64 ∧ t.settle.lastAborted = decide (st.row ≤ 4) ∧
  t.settle.own = s.settle.own ∧ t.settle.final = some st

theorem SameStage.judged {s t u : State} {st : Stmt} (h : SameStage t u) (hj : s.Judged st t) : s.Judged st u := by
  obtain ⟨hphase, hstep, habort, hown, hfinal⟩ := hj
  exact ⟨h.phase.trans hphase, h.setStep.trans hstep, h.lastAborted.trans habort, h.own.trans hown, h.final.trans hfinal⟩

theorem State.judged_of_modSet {s t : State} {st : Stmt} (h : SameStage s t) :
    s.Judged st (t.modSet (fun x => { x with final := some st, phase := .pass, lastAborted := decide (st.row ≤ 4), setStep := (x.setStep + 1) % 2 ^ 64 })) :=
  ⟨rfl, congrArg (fun n => (n + 1) % 2 ^ 64) h.setStep, rfl, h.own, rfl⟩

theorem State.judgeStmt_judged (s : State) (st : Stmt) : s.Judged st (s.judgeStmt st) := by
  unfold State.judgeStmt
  extract_lets _ row _ _ _ _ _ abort _ _ s₁ s₂ s₃ s₄ s₅ s₆
  have h₁ : SameStage s s₁ := State.modDec_sameStage s _ (.refl s)
  clear_value s₁
  have h₂ : SameStage s s₂ := by
    unfold s₂
    clear_value row
    split
    iterate 4 exact State.log_sameStage s₁ _ _ _ h₁
    exact .ite (State.log_sameStage s₁ _ _ _ h₁) h₁
  have h₃ : s.Judged st s₃ := State.judged_of_modSet h₂
  clear_value s₃
  have h₆ : s.Judged st s₆ := by
    unfold s₆
    split
    · refine (State.modSet_sameStage s₄ _ (fun t => ?_) (State.modDec_sameStage _ _ (State.clearPresence_sameStage s₃ (.refl s₃)))).judged h₃
      split <;> rfl
    · exact (State.settlePass_sameStage s₅ _ _ (.refl s₅)).judged h₃
  clear_value s₆
  exact (State.total_sameStage _ _ _ (State.modCol_sameStage _ _ (State.clearTotals_sameStage s₆ (.refl s₆)))).judged h₆

/-! ### The contribution (R237) -/

/-- A contribution is formed: the device decides, on its own statement so far. -/
theorem State.contribute_parts (s : State) :
    s.contribute.settle.phase = .deciding ∧ s.contribute.settle.setStep = s.settle.setStep ∧ s.contribute.settle.own.isSome ∧
      s.contribute.settle.final = none := by
  unfold State.contribute
  extract_lets s₁ s₂ s₃ norms s₄ s₅ s₆ total nf dorm st
  have h₄ : SameStage s s₄ :=
    .foldl (fun t x ht => State.modCounts_sameStage t _ _ ht)
      (State.guardsAtContribution_sameStage _ (State.modDec_sameStage _ _ (State.dropShares_sameStage s (.refl s))))
  have h₅ : SameStage s s₅ := .foldl (fun t x ht => State.judgeDormant_sameStage t _ _ ht) h₄
  have h₆ : SameStage s s₆ := State.lossSample_sameStage s₅ h₅
  exact ⟨rfl, h₆.setStep, rfl, rfl⟩

/-! ### The walk that ends (R244, R252), and held segments (R376) -/

/-- With nothing held, the segments that are offered again change nothing but the buffers that are freed. -/
theorem State.releaseSegs_nil {s : State} (h : s.col.heldSegs = []) : s.releaseSegs = s.freeKept := by
  have hnil : s.modCol (fun c => { c with heldSegs := [] }) = s :=
    congrArg (fun l => s.modCol (fun c => { c with heldSegs := l })) h.symm
  rw [State.releaseSegs, State.offerSegs, h]
  simp only [List.foldl_nil, hnil, h, if_true]

theorem State.freeKept_frame (s : State) : s.freeKept.settle = s.settle ∧ s.freeKept.col = s.col ∧ s.freeKept.mem = s.mem := by
  have h : Only _ s s.freeKept := State.freeKept_only s (hm := Nat.and_self _) (hk := .refl _ s)
  exact ⟨h.settle rfl, h.col rfl, h.mem rfl⟩

/-- The walk ends with nothing held. -/
theorem State.endWalk_idle {s : State} (h : s.settle.heldLands = []) :
    s.endWalk.settle.phase = .idle ∧ s.endWalk.settle.own = none ∧ s.endWalk.col = s.col ∧ s.endWalk.mem = s.mem := by
  rw [State.endWalk]
  dsimp only
  generalize hu : s.modSet (fun t => { t.passCounts with phase := .idle, own := none }) = u
  have hidle : u.settle.phase = .idle ∧ u.settle.own = none ∧ u.col = s.col ∧ u.mem = s.mem ∧ u.settle.heldLands = [] := by
    subst hu
    exact ⟨rfl, rfl, rfl, rfl, h⟩
  obtain ⟨hphase, hown, hcol, hmem, hheld⟩ := hidle
  split
  · exact ⟨hphase, hown, hcol, hmem⟩
  · rw [State.releaseLands, hheld, List.foldl_nil]
    obtain ⟨hset, hcol', hmem'⟩ := State.freeKept_frame (u.modSet (fun t => { t with heldLands := [] }))
    rw [hset, hcol', hmem']
    exact ⟨hphase, hown, hcol, hmem⟩

/-- The failed reduction ends in a walk with the failure's status, and its step does not count (R395). -/
theorem State.stmtFail_parts (s : State) (st : Status) :
    (s.stmtFail st).settle.phase = .pass ∧ (s.stmtFail st).dec.status = some st ∧ (s.stmtFail st).settle.setStep = s.settle.setStep ∧
      (s.stmtFail st).aoNs = s.aoNs := by
  rw [State.stmtFail]
  generalize hu : s.modDec (fun d => { d with stmtState := 3, status := some st, children := [] }) = u
  have hu' : u.dec.status = some st ∧ SameStage s u ∧ u.aoNs = s.aoNs := by
    subst hu
    exact ⟨rfl, State.modDec_sameStage _ _ (.refl s), rfl⟩
  obtain ⟨hstatus, hstage, hao⟩ := hu'
  generalize hv : u.log .settleStatementFailed (srcBlock 4) [] = v
  have hstage' : SameStage s v := hv ▸ State.log_sameStage _ _ _ _ hstage
  have hlog : Only _ u v := hv ▸ State.log_only u _ _ _ (hm := Nat.and_self _) (hk := .refl _ u)
  rw [State.failWalk]
  have hwalk : Only _ v v.clearPresence := State.clearPresence_only v (hm := Nat.and_self _) (hk := .refl _ v)
  have htotals := State.clearTotals_only v.clearPresence (hm := Nat.and_self _) (hk := .refl _ v.clearPresence)
  have hstage₂ : SameStage s v.clearPresence.clearTotals := State.clearTotals_sameStage _ (State.clearPresence_sameStage v hstage')
  exact ⟨rfl, (congrArg (·.status) ((htotals.dec rfl).trans ((hwalk.dec rfl).trans (hlog.dec rfl)))).trans hstatus, hstage₂.setStep,
    (htotals.aoNs rfl).trans ((hwalk.aoNs rfl).trans ((hlog.aoNs rfl).trans hao))⟩

/-- The statement that is broadcast is decided on (R393). -/
theorem State.stmtFinal_judged {s u : State} (h : SameStage s u) (bs : List Byte) : s.Judged (Stmt.ofBytes bs) (u.stmtFinal bs) := by
  rw [State.stmtFinal]
  generalize hv : u.treeDown.foldl (fun s k => (s.streamSend k.2.1 (s.packet 1 3 k.2.2 (stmtAddr true k.1 s.rtr.slice.id) bs)).2) u = v
  have hv' : SameStage s v := hv ▸ .foldl (fun t x ht => State.streamSend_sameStage t _ _ ht) h
  have hw : SameStage s (v.modDec (fun d => { d with children := [] })) := State.modDec_sameStage _ _ hv'
  obtain ⟨hphase, hstep, habort, hown, hfinal⟩ := State.judgeStmt_judged (v.modDec (fun d => { d with children := [] })) (Stmt.ofBytes bs)
  exact ⟨hphase, hstep.trans (congrArg (fun n => (n + 1) % 2 ^ 64) hw.setStep), habort, hown.trans hw.own, hfinal⟩

/-! ### Landings (R233, R234, R236) -/

theorem State.settle_eccAll (s : State) (ecc : List (Nat × EccResult)) : (s.eccAll ecc).settle = s.settle :=
  (State.eccAll_only s ecc (hm := Nat.and_self _) (hk := .refl _ s)).settle rfl

theorem State.dec_eccAll (s : State) (ecc : List (Nat × EccResult)) : (s.eccAll ecc).dec = s.dec :=
  (State.eccAll_only s ecc (hm := Nat.and_self _) (hk := .refl _ s)).dec rfl

/-- A block of the length of its group's rows lands as it is. -/
theorem exec_landing {l : Land} {s : State} (ecc : List (Nat × EccResult)) (h : l.elems.length = rowN (s.row l.group)) :
    exec (.landing l ecc) s = .next ((s.eccAll ecc).land l) := by
  have htake : (l.elems ++ List.replicate (rowN (s.row l.group)) 0).take (rowN (s.row l.group)) = l.elems := List.take_left' h
  show execLanding l ecc s = _
  rw [execLanding]
  rw [htake]

theorem State.landHeld_eccAll (s : State) (ecc : List (Nat × EccResult)) (l : Land) : (s.eccAll ecc).landHeld l = s.landHeld l := by
  rw [State.landHeld, State.landHeld, State.settle_eccAll]

theorem State.row_eccAll (s : State) (ecc : List (Nat × EccResult)) (g : Nat) : (s.eccAll ecc).row g = s.row g := by
  rw [State.row, State.row, State.settle_eccAll]

theorem bit_land (t : Settle) (l : Land) : bit (tget (t.land l).landed 0 (slotKey l.group l.block)) l.micro = true := by
  rw [Settle.land]
  dsimp only
  rw [tget_tmod, if_pos rfl]
  exact bit_putf_one ..

theorem Settle.phase_land {t : Settle} (l : Land) (h : t.phase = .idle ∨ t.phase = .landing) : (t.land l).phase = .landing := by
  rw [Settle.land]
  obtain hidle | hlanding := h
  · exact if_pos hidle
  · exact (if_neg (by rw [hlanding]; decide)).trans hlanding

theorem settlement_landing (l : Land) (ecc : List (Nat × EccResult)) (s u : State) (hu : u = s.eccAll ecc) (hlen : l.elems.length = rowN (s.row l.group))
    (hheld : s.landHeld l = false) (hdrop : u.landDrop l = none) (hempty : u.presentBit (s.row l.group) l.block = false)
    (hworks : ∀ k, u.lostAt k = false)
    (hapart : ∀ r, r = s.row l.group → ∀ k, rowG r + l.block * 2 * rowN r ≤ k → k < rowG r + (l.block + 1) * 2 * rowN r →
      k ≠ rowGs r + l.block ∧ k ≠ rowPres r + l.block / 8 ∧ rowGs r + l.block ≠ rowPres r + l.block / 8) :
    Answers (exec (.landing l ecc) s) (fun t => (s.settle.phase = .idle ∨ s.settle.phase = .landing → t.settle.phase = .landing) ∧
      bit (tget t.settle.landed 0 (l.group * 2 ^ 40 + l.block)) l.micro = true ∧
      ∀ r, r = s.row l.group → t.row l.group = r ∧ t.presentBit r l.block = true ∧
        t.readMem (rowG r + l.block * 2 * rowN r) (2 * rowN r) = l.elems.flatMap (fun e => leBytes 2 e.toNat) ∧
        (0 < rowN r → t.byteAt (rowGs r + l.block) = l.scale)) := by
  rw [exec_landing ecc hlen, ← hu]
  refine Answers.next ?_
  have hrow : u.row l.group = s.row l.group := hu ▸ State.row_eccAll ..
  have hset : u.settle = s.settle := hu ▸ State.settle_eccAll ..
  have hland : u.land l = u.applyLanding l := by
    rw [State.land, if_neg (by rw [hu, State.landHeld_eccAll, hheld]; decide), hdrop]
  rw [hland]
  obtain ⟨hmem, hdram, hstage, hlanded⟩ := State.applyLanding_parts (s := u) (l := l) (by rw [hrow]; exact hempty)
  generalize u.applyLanding l = t at hmem hdram hstage hlanded
  have hlands : (u.landed l).settle = s.settle.land l := (State.settle_landed ..).trans (congrArg (·.land l) hset)
  refine ⟨fun hphase => ?_, ?_, fun r hr => ?_⟩
  · rw [hstage.phase, hlands]
    exact Settle.phase_land l hphase
  · rw [hlanded, hlands]
    exact bit_land ..
  · obtain ⟨hpres, hblock, hscale⟩ := State.bytes_landed (s := u) (l := l) (r := r) (hr.trans hrow.symm) (hr ▸ hlen) hworks (hapart r hr)
    have hlost : SameLost (u.landed l) t := .of_dram hdram
    have hbyte (k : Nat) : t.byteAt k = (u.landed l).byteAt k := hlost.byteAt hmem k
    refine ⟨?_, ?_, ?_, fun hn => (hbyte _).trans (hscale hn)⟩
    · rw [hstage.row, State.row, hlands, hr]
      rfl
    · rw [State.presentBit, hbyte]
      exact hpres
    · exact (hlost.readMem hmem _ _).trans hblock

theorem settlement_landingHeld (l : Land) (ecc : List (Nat × EccResult)) (s : State) (hlen : l.elems.length = rowN (s.row l.group))
    (hheld : s.landHeld l = true) :
    Answers (exec (.landing l ecc) s) (fun t => t.settle.heldLands = s.settle.heldLands ++ [l] ∧ t.mem = (s.eccAll ecc).mem) := by
  rw [exec_landing ecc hlen, State.land, if_pos ((State.landHeld_eccAll ..).trans hheld)]
  refine Answers.next ⟨?_, rfl⟩
  exact congrArg (fun t : Settle => t.heldLands ++ [l]) (State.settle_eccAll ..)

/-! ### The settlement -/

theorem settlement_contribution (ecc : List (Nat × EccResult)) (s : State) (hdeciding : s.settle.phase ≠ .deciding) (hpass : s.settle.phase ≠ .pass)
    (hown : s.settle.own = none) (hmicros : s.microsDone = true) (hfailed : s.commandFailed = false)
    (hposted : s.dec.status = none ∨ s.stepHeld = false) (hslice : (s.eccAll ecc).hasSlice = false) :
    Answers (exec (.settleContribution [] ecc) s) (fun t => t.settle.phase = .pass ∧ t.settle.setStep = (s.settle.setStep + 1) % 2 ^ 64 ∧
      t.settle.own.isSome ∧ t.settle.final = t.settle.own) := by
  show Answers (execSettleContribution [] ecc s) _
  rw [execSettleContribution, if_pos ⟨hdeciding, hpass, hown, hmicros, Bool.eq_false_iff.1 hfailed, hposted.imp_right Bool.eq_false_iff.1⟩]
  refine Answers.next ?_
  obtain ⟨hphase, hstep, hsome, hfinal⟩ := State.contribute_parts (s.eccAll ecc)
  have hslice' : (s.eccAll ecc).contribute.hasSlice = false := by
    have hrtr := (State.contribute_only (s.eccAll ecc) (hm := Nat.and_self _) (hk := .refl _ _)).rtr rfl
    rw [State.hasSlice, hrtr]
    exact hslice
  rw [State.settle_eccAll] at hstep
  rw [State.each, List.foldl_nil]
  generalize (s.eccAll ecc).contribute = u at hphase hstep hsome hfinal hslice'
  obtain ⟨own, hsome⟩ := Option.isSome_iff_exists.1 hsome
  rw [State.stmtStart, hsome]
  dsimp only
  rw [if_pos (Bool.eq_false_iff.1 hslice')]
  obtain ⟨hphase', hstep', -, hown', hfinal'⟩ := State.judgeStmt_judged u own
  rw [hphase', hstep', hown', hfinal', hsome, hstep]
  exact ⟨rfl, rfl, rfl, rfl⟩

theorem settlement_walkEnd (ecc : List (Nat × EccResult)) (s : State) (hphase : s.settle.phase = .pass) (hlands : s.settle.heldLands = [])
    (hsegs : (s.eccAll ecc).col.heldSegs = []) :
    Answers (exec (.settleWalkEnd ecc) s) (fun t => t.settle.phase = .idle ∧ t.settle.own = none ∧ t.mem = (s.eccAll ecc).mem) := by
  show Answers (execSettleWalkEnd ecc s) _
  rw [execSettleWalkEnd, if_pos hphase]
  obtain ⟨hidle, hown, hcol, hmem⟩ := State.endWalk_idle (s := s.eccAll ecc) (by rw [State.settle_eccAll]; exact hlands)
  obtain ⟨hset, -, hmem'⟩ := State.freeKept_frame (s.eccAll ecc).endWalk
  rw [State.releaseSegs_nil (by rw [hcol]; exact hsegs)]
  refine Answers.next ⟨?_, ?_, hmem'.trans hmem⟩
  · rw [hset]; exact hidle
  · rw [hset]; exact hown

theorem settlement_timeout (s : State) (hphase : s.settle.phase = .deciding) (hown : s.settle.own.isSome) :
    Answers (exec .stmtTimeout s) (fun t => t.settle.phase = .pass ∧ t.dec.status = some .waitTimeout ∧ t.settle.setStep = s.settle.setStep ∧
      t.aoNs = max s.aoNs (s.dec.formedAt + s.col.stmtTimeout * 1000000)) := by
  show Answers (execStmtTimeout s) _
  rw [execStmtTimeout, if_pos ⟨hphase, hown⟩]
  obtain ⟨hphase', hstatus, hstep, hao⟩ := State.stmtFail_parts (s.reach (s.dec.formedAt + s.col.stmtTimeout * 1000000)) .waitTimeout
  have hset : (s.reach (s.dec.formedAt + s.col.stmtTimeout * 1000000)).settle = s.settle :=
    (State.reach_only s _ (hm := Nat.and_self _) (hk := .refl _ s)).settle rfl
  exact Answers.next ⟨hphase', hstatus, hstep.trans (congrArg (·.setStep) hset), hao.trans (State.aoNs_reach ..)⟩

theorem settlement_combine (p : Packet) (faults : List Nat) (ecc : List (Nat × EccResult)) (s : State) (hturn : s.inTurn p = true) (hkind : p.kind = 3)
    (hok : (s.consumed p).stmtOk p false = true) (hphase : s.settle.phase ≠ .deciding) (hstate : s.dec.stmtState ≠ 3)
    (hkid : (((s.consumed p).treeKids (fld p.addr 1 2)).any (fun k => k.2 == p.src)) = true) :
    Answers (exec (.statementCombine p faults ecc) s)
      (fun t => (fld p.addr 1 2, (s.consumed p).fromPlus (fld p.addr 1 2) p.src, Stmt.ofBytes p.payload) ∈ t.dec.children) := by
  show Answers (execStatementCombine p faults ecc s) _
  have hused := State.consumed_only s p (hm := Nat.and_self _) (hk := .refl _ s)
  have hset : (s.consumed p).settle = s.settle := hused.settle rfl
  have hdec : (s.consumed p).dec = s.dec := hused.dec rfl
  rw [execStatementCombine, if_neg (not_or.2 ⟨not_not_intro hturn, not_not_intro hkind⟩)]
  dsimp only
  rw [if_neg (by
    rw [not_or, not_or]
    exact ⟨not_not_intro hok, fun h => hstate (hdec ▸ h.1), not_not_intro hkid⟩)]
  generalize s.consumed p = u at hset
  split
  next hd => exact absurd hd (hset ▸ hphase)
  next => exact Answers.next (List.mem_append_right _ (List.mem_singleton_self _))

theorem settlement_broadcast (p : Packet) (faults : List Nat) (ecc : List (Nat × EccResult)) (s : State) (hturn : s.inTurn p = true) (hkind : p.kind = 3)
    (hok : (s.consumed p).stmtOk p true = true) (hphase : s.settle.phase = .deciding) (hsent : s.dec.sentUp = true) :
    Answers (exec (.statementBroadcast p faults ecc) s) (fun t => t.settle.phase = .pass ∧ t.settle.final = some (Stmt.ofBytes p.payload) ∧
      t.settle.setStep = (s.settle.setStep + 1) % 2 ^ 64 ∧ (t.settle.lastAborted = true ↔ (Stmt.ofBytes p.payload).row ≤ 4)) := by
  show Answers (execStatementBroadcast p faults ecc s) _
  have hused := State.consumed_only s p (hm := Nat.and_self _) (hk := .refl _ s)
  have hset : (s.consumed p).settle = s.settle := hused.settle rfl
  have hdec : (s.consumed p).dec = s.dec := hused.dec rfl
  rw [execStatementBroadcast, if_neg (not_or.2 ⟨not_not_intro hturn, not_not_intro hkind⟩)]
  dsimp only
  rw [if_neg (by
    rw [not_or, not_or]
    exact ⟨not_not_intro hok, not_not_intro (hset ▸ hphase), not_not_intro (hdec ▸ hsent)⟩)]
  refine Answers.next ?_
  generalize s.consumed p = u at hset
  have hstage : SameStage s (u.eccAll ecc) := congrArg Settle.stage ((State.settle_eccAll ..).trans hset)
  have hfaults : SameStage s ((u.eccAll ecc).each faults State.engineFault) := .foldl (fun t x ht => State.engineFault_sameStage t _ ht) hstage
  obtain ⟨hphase', hstep, habort, -, hfinal⟩ := State.stmtFinal_judged hfaults p.payload
  exact ⟨hphase', hfinal, hstep, by rw [habort, decide_eq_true_iff]⟩

/-- Settles O39, clause by clause: the landing by the bytes that it writes, the decision by the stage that each of its parts leaves. -/
theorem settlement : Obligations.Settlement := by
  unfold Obligations.Settlement
  exact ⟨settlement_landing, settlement_landingHeld, settlement_contribution, settlement_walkEnd, settlement_timeout,
    fun s => Answers.next ⟨rfl, rfl, rfl, rfl⟩, settlement_combine, settlement_broadcast⟩

end Sys2Proof.Machine
end

