-- ==== Sys2Proof/Proofs/CoinQueues.lean ====
section
/-!
PROOFS. The queue unit: what leaves every queue as it is, what an operation makes of its queue, and what its requester gets
(13_coin_queues.md, Queues and Operations).
-/
set_option autoImplicit false
namespace Sys2Proof.Machine

/-! ### What leaves the queues alone -/

/-- In every cluster the queues, the reset window and the save are the same in t as in s. -/
structure SameQueues (s t : State) : Prop where
  cluster : ∀ k, (t.cluster k).queues = (s.cluster k).queues ∧ (t.cluster k).resetWindow = (s.cluster k).resetWindow ∧
    (t.cluster k).saved = (s.cluster k).saved

namespace SameQueues

variable {s t u : State}

theorem refl (s : State) : SameQueues s s := ⟨fun _ => ⟨rfl, rfl, rfl⟩⟩

theorem trans (h : SameQueues s t) (k : SameQueues t u) : SameQueues s u := ⟨fun c => by
  obtain ⟨hq, hr, hs⟩ := h.cluster c
  obtain ⟨kq, kr, ks⟩ := k.cluster c
  exact ⟨kq.trans hq, kr.trans hr, ks.trans hs⟩⟩

theorem of_clusters (h : ∀ k, t.cluster k = s.cluster k) : SameQueues s t := ⟨fun c => by
  rw [h c]
  exact ⟨rfl, rfl, rfl⟩⟩

/-- The mask has every bit but that of the clusters. -/
theorem only (h : Only 8589901823 s t) : SameQueues s t := of_clusters fun k => h.cluster_eq (by decide) k

theorem modCluster (s : State) (c : Nat) (f : Cluster → Cluster)
    (hf : ∀ x, (f x).queues = x.queues ∧ (f x).resetWindow = x.resetWindow ∧ (f x).saved = x.saved) : SameQueues s (s.modCluster c f) := ⟨fun k => by
  rw [State.cluster_modCluster]
  split
  next heq => exact heq ▸ hf _
  next => exact ⟨rfl, rfl, rfl⟩⟩

theorem modSeq (s : State) (c : Nat) (f : Sequencer → Sequencer) : SameQueues s (s.modSeq c f) :=
  modCluster s c (fun x => { x with seq := f x.seq }) fun _ => ⟨rfl, rfl, rfl⟩

theorem modClock (s : State) (c : Nat) (f : ClockSt → ClockSt) : SameQueues s (s.modClock c f) :=
  modCluster s c (fun x => { x with clock := f x.clock }) fun _ => ⟨rfl, rfl, rfl⟩

theorem queue (h : SameQueues s t) (c q : Nat) : t.queue c q = s.queue c q := congrArg (fun qs : Tab Queue => tget qs {} q) (h.cluster c).1

theorem queuesOpen (h : SameQueues s t) {c : Nat} (hopen : QueuesOpen s c) : QueuesOpen t c :=
  by
  obtain ⟨-, hwindow, hsaved⟩ := h.cluster c
  exact ⟨hwindow.trans hopen.1, hsaved.trans hopen.2⟩

end SameQueues

theorem State.advance_sameQueues (s : State) (c dt : Nat) : SameQueues s (s.advance c dt) :=
  (SameQueues.modSeq s c _).trans (.of_clusters (State.cluster_advance s c dt))

theorem State.tick_sameQueues (s : State) (c : Nat) (t : Tick) : SameQueues s (s.tick c t) :=
  (State.advance_sameQueues s c t.cclk).trans ((SameQueues.modSeq _ c _).trans (.of_clusters (State.cluster_tick s c t)))

theorem State.reqTick_sameQueues (s : State) (c : Nat) (who : Requester) (t : Tick) : SameQueues s (s.reqTick c who t) := by
  cases who with
  | sequencer => exact State.tick_sameQueues ..
  | context pos i => exact State.advance_sameQueues ..
  | outside _ _ _ => exact .refl s

theorem State.wake_sameQueues (s : State) (c : Nat) : SameQueues s (s.wake c) := by
  unfold State.wake
  extract_lets t u
  split
  · exact .modClock s c _
  · exact .trans (.of_clusters fun k => State.cluster_reach s _ k) (.modClock u c _)

theorem State.waitCoin_sameQueues (s : State) (c : Nat) (who : Requester) : SameQueues s (s.waitCoin c who) := by
  cases who with
  | sequencer => exact .modSeq s c (fun q => { q with st := .waiting, waitOn := .coin })
  | context pos i => exact .of_clusters fun _ => rfl
  | outside _ _ _ => exact .refl s

theorem State.toRequester_sameQueues (s : State) (c : Nat) (who : Requester) (via : Via) (r : CoinResult) :
    SameQueues s (s.toRequester c who via r) := by
  cases who with
  | sequencer => exact SameQueues.modCluster s c _ fun _ => ⟨rfl, rfl, rfl⟩
  | context pos i =>
    show SameQueues s (s.toContext (c * 12 + pos) i r)
    rw [State.toContext]
    split
    · exact .of_clusters fun _ => rfl
    · exact .of_clusters fun _ => rfl
  | outside _ _ _ => exact .refl s

theorem State.log_sameQueues (s : State) (c : EventClass) (src : Nat) (data : List (Nat × Nat)) : SameQueues s (s.log c src data) :=
  .only (State.log_only (hm := by decide) (hk := .refl _ s) ..)

theorem State.replyIn_sameQueues (s : State) (src : Coord) (q c tag : Nat) (r : CoinResult) : SameQueues s (s.replyIn src q c tag r) := by
  unfold State.replyIn
  generalize ofTag tag = x
  obtain ⟨rc, who⟩ := x
  dsimp only
  split
  next w _ =>
    refine .trans ?_ (State.toRequester_sameQueues ..)
    exact .of_clusters fun _ => rfl
  next =>
    refine .trans ?_ (State.log_sameQueues ..)
    exact SameQueues.modCluster s rc _ fun _ => ⟨rfl, rfl, rfl⟩

/-- An answer changes no queue. -/
theorem State.answer_sameQueues (s : State) (c q : Nat) (who : Requester) (r : CoinResult) : SameQueues s (s.answer c q who r) := by
  cases who with
  | sequencer => exact State.toRequester_sameQueues s c .sequencer (.here q) r
  | context pos i => exact State.toRequester_sameQueues s c (.context pos i) (.here q) r
  | outside src d tag =>
    rw [State.answer]
    split
    · exact State.replyIn_sameQueues ..
    · exact .only (State.inject_only _ _ (hm := by decide) (hk := .refl _ s))

/-! ### What an operation makes of its queue (R407, R409) -/

theorem State.queue_modQueue (s : State) (c q : Nat) (f : Queue → Queue) : (s.modQueue c q f).queue c q = f (s.queue c q) := by
  rw [State.queue, State.modQueue, State.cluster_modCluster, if_pos rfl]
  dsimp only
  rw [tget_tmod, if_pos rfl]
  rfl

theorem State.queue_release (s : State) (c q : Nat) : (s.release c q).queue c q = ((s.queue c q).release (s.queue c q).waiters.length).2 := by
  rw [State.release]
  generalize (s.queue c q).release (s.queue c q).waiters.length = x
  have hkeep (l : List (Waiter × CoinResult)) (t : State) : SameQueues t (l.foldl (fun s r => s.answer c q r.1.who r.2) t) := by
    induction l generalizing t with
    | nil => exact .refl t
    | cons r l ih => exact (State.answer_sameQueues t c q r.1.who r.2).trans (ih _)
  rw [(hkeep x.1 _).queue, State.queue_modQueue]

theorem State.logLimited_sameQueues (s : State) (c : EventClass) (key period src : Nat) (data : List (Nat × Nat)) :
    SameQueues s (s.logLimited c key period src data) :=
  .only (State.logLimited_only (hm := by decide) (hk := .refl _ s) ..)

/-- Coins are appended as one operation (R407, R409). -/
theorem State.queue_putCoins (s : State) (c q : Nat) (coins : List W32) : (s.putCoins c q coins).queue c q = (s.queue c q).put coins := by
  rw [State.putCoins]
  dsimp only
  have hreleased := State.queue_release (s.modQueue c q (fun x => { x with coins := x.coins ++ coins })) c q
  rw [State.queue_modQueue] at hreleased
  generalize (s.modQueue c q (fun x => { x with coins := x.coins ++ coins })).release c q = u at hreleased
  rw [Queue.put]
  dsimp only at hreleased ⊢
  rw [← hreleased]
  split
  next hfew => rw [List.take_of_length_le (by omega)]
  next =>
    rw [(State.logLimited_sameQueues ..).queue, (SameQueues.modCluster _ _ _ ?_).queue, State.queue_modQueue]
    exact fun _ => ⟨rfl, rfl, rfl⟩

/-- A legal operation on queues that are open, at the awake cluster (R404, R409). -/
def State.coinServed (s : State) (c q : Nat) (who : Requester) : CoinOp → State
  | .deposit v => s.putCoins c q [v]
  | .bell v n => s.putCoins c q (List.replicate n v)
  | .take => s.joinQueue c q who none
  | .takeN n => s.joinQueue c q who (some n)
  | .peek => s.answer c q who (s.queue c q).peek

theorem State.coinApply_open {s : State} {c : Nat} (hopen : QueuesOpen s c) (q : Nat) (who : Requester) {op : CoinOp} (hlegal : op.legal = true) :
    s.coinApply c q who op = (s.wake c).coinServed c q who op := by
  obtain ⟨hwindow, hsaved⟩ := (State.wake_sameQueues s c).queuesOpen hopen
  unfold State.coinApply
  extract_lets u k
  rw [if_neg (not_not_intro hlegal), if_neg (Bool.eq_false_iff.1 hwindow), if_neg (Bool.eq_false_iff.1 hsaved)]
  cases op <;> rfl

/-- A DEPOSIT on open queues appends its coin (R407). -/
theorem State.queue_coinApply_deposit {s : State} {c : Nat} (hopen : QueuesOpen s c) (q : Nat) (who : Requester) (v : W32) :
    (s.coinApply c q who (.deposit v)).queue c q = (s.queue c q).put [v] := by
  rw [State.coinApply_open hopen q who rfl, ← (State.wake_sameQueues s c).queue c q]
  generalize s.wake c = u
  exact State.queue_putCoins u c q [v]

/-- A BELL on open queues appends its coins (R407). -/
theorem State.queue_coinApply_bell {s : State} {c : Nat} (hopen : QueuesOpen s c) (q : Nat) (who : Requester) (v : W32) {n : Nat}
    (h1 : 1 ≤ n) (h64 : n ≤ 64) : (s.coinApply c q who (.bell v n)).queue c q = (s.queue c q).put (List.replicate n v) := by
  rw [State.coinApply_open hopen q who (op := .bell v n) (decide_eq_true ⟨h1, h64⟩), ← (State.wake_sameQueues s c).queue c q]
  generalize s.wake c = u
  exact State.queue_putCoins u c q (List.replicate n v)

/-! ### What a requester gets (R411) -/

/-- Another context's selection changes no result. -/
theorem Core.coin_select (k : Core) (i j : Nat) : (tget (k.select i).ctxs {} j).coin = (tget k.ctxs {} j).coin := by
  rw [Core.select]
  split
  · rfl
  split
  · rw [Core.modCtx]
    dsimp only
    rw [tget_tmod]
    split
    next h => rw [h]
    next => rfl
  · rfl

theorem Core.coin_unstall (k : Core) (i j : Nat) : (tget (k.unstall i).ctxs {} j).coin = (tget k.ctxs {} j).coin := by
  rw [Core.unstall]
  split
  · rw [Core.coin_select, Core.modCtx]
    dsimp only
    rw [tget_tmod]
    split
    next h => rw [h]
    next => rfl
  · rfl

/-- An own requester gets the result of its operation on a queue of its cluster, if the status is OK. -/
theorem State.coinResult_answer (s : State) (c q : Nat) {who : Requester} (hown : who.isOutside = false) {r : CoinResult} (hok : r.status = .ok) :
    (s.answer c q who r).coinResult c who = r := by
  cases who with
  | sequencer =>
    show ((s.toSequencer c (.here q) r).cluster c).coin.result = r
    rw [State.toSequencer, State.cluster_modCluster, if_pos rfl]
  | context pos i =>
    show (tget ((s.toContext (c * 12 + pos) i r).core (c * 12 + pos)).ctxs {} i).coin = r
    rw [State.toContext, if_pos hok, State.core_modCore, if_pos rfl, Core.coin_unstall, Core.modCtx]
    dsimp only
    rw [tget_tmod, if_pos rfl]
  | outside _ _ _ => cases hown

/-- A wait that joins an empty list waits if the queue lacks its coins, and else gets the oldest coins at once (R406, R409). -/
theorem State.joinQueue_single {s : State} {c q : Nat} {who : Requester} (hown : who.isOutside = false) (n : Option Nat) {vs : List W32}
    (hq : s.queue c q = ⟨vs, []⟩) :
    (vs.length < n.getD 1 → ∃ w, (s.joinQueue c q who n).queue c q = ⟨vs, [w]⟩ ∧ w.who = who ∧ w.n = n) ∧
    (n.getD 1 ≤ vs.length → (s.joinQueue c q who n).queue c q = ⟨vs.drop (n.getD 1), []⟩ ∧
      (s.joinQueue c q who n).coinResult c who = takenResult ⟨who, n, s.coinDeadline c⟩ (vs.take (n.getD 1)) (vs.drop (n.getD 1)).length) := by
  have hnot : ¬ (who.isOutside = true ∧ 447 ≤ s.outsideWaits c) := fun h => Bool.noConfusion (hown.symm.trans h.1)
  rw [State.joinQueue, if_neg hnot]
  generalize hw : (⟨who, n, s.coinDeadline c⟩ : Waiter) = w
  have hwho : w.who = who := hw ▸ rfl
  have hn : w.n = n := hw ▸ rfl
  have hjoined : (s.modQueue c q (fun x => { x with waiters := x.waiters ++ [w] })).queue c q = ⟨vs, [w]⟩ := by
    rw [State.queue_modQueue, hq]
    rfl
  generalize s.modQueue c q (fun x => { x with waiters := x.waiters ++ [w] }) = u at hjoined
  have hneed : w.need = n.getD 1 := by rw [Waiter.need, hn]
  refine ⟨fun hfew => ⟨w, ?_, hwho, hn⟩, fun hmany => ⟨?_, ?_⟩⟩
  · rw [State.queue_release, hjoined, List.length_singleton, Queue.release]
    dsimp only
    rw [if_neg (by rw [hneed]; omega)]
  · rw [State.queue_release, hjoined, List.length_singleton, Queue.release]
    dsimp only
    rw [if_pos (by rw [hneed]; exact hmany), hneed]
    rfl
  · rw [State.release, hjoined, List.length_singleton, Queue.release]
    dsimp only
    rw [if_pos (by rw [hneed]; exact hmany), hneed, Queue.release, List.foldl_cons, List.foldl_nil]
    dsimp only
    rw [hwho]
    refine State.coinResult_answer _ c q hown ?_
    rw [takenResult]
    cases w.n <;> rfl

end Sys2Proof.Machine
end

