-- ==== Sys2Proof/Proofs/Coins.lean ====
section
/-!
PROOFS. Coin operations as sequencers and contexts issue them, the packets of other clusters, deadlines and seals
(13_coin_queues.md).
-/
set_option autoImplicit false
namespace Sys2Proof.Machine

/-! ### Operations on the cluster's own queues (R404, R405, R411) -/

/-- A requester that takes coins waits from then on (R405). -/
def State.coinPlace (s : State) (c : Nat) (who : Requester) : CoinOp → State
  | .take | .takeN _ => s.waitCoin c who
  | _ => s

theorem State.coinPlace_sameQueues (s : State) (c : Nat) (who : Requester) (op : CoinOp) : SameQueues s (s.coinPlace c who op) := by
  cases op with
  | take => exact State.waitCoin_sameQueues ..
  | takeN n => exact State.waitCoin_sameQueues ..
  | deposit v => exact .refl s
  | bell v n => exact .refl s
  | peek => exact .refl s

theorem State.coinLocal_issues {s : State} {c q : Nat} {who : Requester} {op : CoinOp} (hc : c < 8) (hq : q < 256) (hissue : s.canIssue c who = true)
    (hlegal : op.legal = true) : s.coinLocal c q who op = (s.coinPlace c who op).coinApply c q who op := by
  unfold State.coinLocal
  rw [if_pos (by rw [hissue, decide_eq_true hc, decide_eq_true hq]; rfl)]
  cases op with
  | takeN n => exact if_pos hlegal
  | take => rfl
  | deposit v => rfl
  | bell v n => rfl
  | peek => rfl

/-- The state in which the queue unit gets an own operation. -/
def State.coinReaches (s : State) (c : Nat) (who : Requester) (t : Tick) (op : CoinOp) : State := (s.reqTick c who t).coinPlace c who op

theorem State.coinReaches_sameQueues (s : State) (c : Nat) (who : Requester) (t : Tick) (op : CoinOp) :
    SameQueues s (s.coinReaches c who t op) :=
  (State.reqTick_sameQueues s c who t).trans (State.coinPlace_sameQueues ..)

theorem ReqIssues.cluster_lt {s : State} {c : Nat} {who : Requester} {t : Tick} (h : ReqIssues s c who t) : c < 8 := by
  have hown := h.1
  simp only [State.ownIssues, Bool.and_eq_true, decide_eq_true_iff] at hown
  exact hown.1.1.1.1

theorem ReqIssues.own {s : State} {c : Nat} {who : Requester} {t : Tick} (h : ReqIssues s c who t) : who.isOutside = false := by
  have hown := h.1
  simp only [State.ownIssues, Bool.and_eq_true, Bool.not_eq_true'] at hown
  exact hown.1.1.1.2

/-- An operation that is issued reaches the queue unit. -/
theorem State.ownCoin_issues {s : State} {c q : Nat} {who : Requester} {t : Tick} {op : CoinOp} (h : ReqIssues s c who t) (hq : q < 256)
    (hissue : (s.reqTick c who t).canIssue c who = true) (hlegal : op.legal = true) :
    s.ownCoin c who t q op = (s.coinReaches c who t op).coinApply c q who op := by
  obtain ⟨hown, hclean⟩ := h
  have hfetched : ¬ (who = .sequencer ∧ (s.reqTick c who t).fetchLost c = true) := fun ⟨hwho, hlost⟩ => by
    subst hwho
    exact Bool.noConfusion ((hclean rfl).symm.trans ((State.tick_fetchLost s c t).symm.trans hlost))
  rw [State.ownCoin, if_pos hown]
  dsimp only
  rw [if_neg hfetched]
  exact State.coinLocal_issues (ReqIssues.cluster_lt ⟨hown, hclean⟩) hq hissue hlegal

/-- Coins that are there are taken at once, and the requester gets what they give (R407). -/
theorem State.coinApply_takes {s : State} {c q : Nat} {who : Requester} {op : CoinOp} {n : Option Nat} {vs : List W32} (hown : who.isOutside = false)
    (hopen : QueuesOpen s c) (hlegal : op.legal = true) (hjoin : ∀ u : State, u.coinServed c q who op = u.joinQueue c q who n)
    (hq : s.queue c q = ⟨vs, []⟩) (hmany : n.getD 1 ≤ vs.length) :
    (s.coinApply c q who op).queue c q = ⟨vs.drop (n.getD 1), []⟩ ∧
    ∃ w : Waiter, w.n = n ∧ (s.coinApply c q who op).coinResult c who = takenResult w (vs.take (n.getD 1)) (vs.length - n.getD 1) := by
  rw [State.coinApply_open hopen q who hlegal, hjoin]
  obtain ⟨hqueue, hresult⟩ := (State.joinQueue_single hown n (((State.wake_sameQueues s c).queue c q).trans hq)).2 hmany
  rw [List.length_drop] at hresult
  exact ⟨hqueue, _, rfl, hresult⟩

theorem localCoins_deposit (c q : Nat) (who : Requester) (t : Tick) (v : W32) (s : State) (h : ReqIssues s c who t) (hq : q < 256)
    (hissue : (s.reqTick c who t).canIssue c who = true) (hopen : QueuesOpen s c) :
    Answers (exec (.deposit c who t q v) s) (fun u => u.queue c q = (s.queue c q).put [v]) := by
  show Answers (.next (s.ownCoin c who t q (.deposit v))) _
  have hsame := State.coinReaches_sameQueues s c who t (.deposit v)
  rw [State.ownCoin_issues h hq hissue rfl]
  refine Answers.next ?_
  rw [State.queue_coinApply_deposit (hsame.queuesOpen hopen), hsame.queue]

theorem localCoins_bell (c q n : Nat) (who : Requester) (t : Tick) (v : W32) (s : State) (h : ReqIssues s c who t) (hq : q < 256)
    (h1 : 1 ≤ n) (h64 : n ≤ 64) (hissue : (s.reqTick c who t).canIssue c who = true) (hopen : QueuesOpen s c) :
    Answers (exec (.bell c who t q v n) s) (fun u => u.queue c q = (s.queue c q).put (List.replicate n v)) := by
  show Answers (.next (s.ownCoin c who t q (.bell v n))) _
  have hsame := State.coinReaches_sameQueues s c who t (.bell v n)
  rw [State.ownCoin_issues h hq hissue (op := .bell v n) (decide_eq_true ⟨h1, h64⟩)]
  refine Answers.next ?_
  rw [State.queue_coinApply_bell (hsame.queuesOpen hopen) q who v h1 h64, hsame.queue]

theorem localCoins_take (c q : Nat) (who : Requester) (t : Tick) (v : W32) (vs : List W32) (s : State) (h : ReqIssues s c who t) (hq : q < 256)
    (hissue : (s.reqTick c who t).canIssue c who = true) (hopen : QueuesOpen s c) (hqueue : s.queue c q = ⟨v :: vs, []⟩) :
    Answers (exec (.take c who t q) s) (fun u => u.queue c q = ⟨vs, []⟩ ∧ u.coinResult c who = { first := v, count := vs.length }) := by
  show Answers (.next (s.ownCoin c who t q .take)) _
  have hsame := State.coinReaches_sameQueues s c who t .take
  rw [State.ownCoin_issues h hq hissue rfl]
  obtain ⟨hleft, w, hn, hresult⟩ := State.coinApply_takes (op := .take) (n := none) h.own (hsame.queuesOpen hopen) rfl (fun u => rfl)
    ((hsame.queue c q).trans hqueue) (Nat.le_add_left ..)
  refine Answers.next ⟨hleft, hresult.trans ?_⟩
  rw [takenResult, hn]
  rfl

theorem localCoins_takeEmpty (c q : Nat) (who : Requester) (t : Tick) (s : State) (h : ReqIssues s c who t) (hq : q < 256)
    (hissue : (s.reqTick c who t).canIssue c who = true) (hopen : QueuesOpen s c) (hqueue : s.queue c q = {}) :
    Answers (exec (.take c who t q) s) (fun u => ∃ w, u.queue c q = ⟨[], [w]⟩ ∧ w.who = who ∧ w.n = none) := by
  show Answers (.next (s.ownCoin c who t q .take)) _
  have hsame := State.coinReaches_sameQueues s c who t .take
  rw [State.ownCoin_issues h hq hissue rfl, State.coinApply_open (hsame.queuesOpen hopen) q who rfl]
  exact Answers.next ((State.joinQueue_single h.own none
    (((State.wake_sameQueues ..).queue c q).trans ((hsame.queue c q).trans hqueue))).1 Nat.one_pos)

theorem localCoins_peek (c q : Nat) (who : Requester) (t : Tick) (s : State) (h : ReqIssues s c who t) (hq : q < 256)
    (hissue : (s.reqTick c who t).canIssue c who = true) (hopen : QueuesOpen s c) :
    Answers (exec (.peek c who t q) s) (fun u => u.queue c q = s.queue c q ∧ u.coinResult c who = (s.queue c q).peek) := by
  show Answers (.next (s.ownCoin c who t q .peek)) _
  have hsame := State.coinReaches_sameQueues s c who t .peek
  rw [State.ownCoin_issues h hq hissue rfl, State.coinApply_open (hsame.queuesOpen hopen) q who rfl]
  have hsame' := hsame.trans (State.wake_sameQueues _ c)
  generalize (s.coinReaches c who t .peek).wake c = u at hsame'
  rw [← hsame'.queue c q]
  exact Answers.next ⟨(State.answer_sameQueues ..).queue c q, State.coinResult_answer u c q h.own rfl⟩

theorem localCoins_arm (c q n : Nat) (t : Tick) (s : State) (h : SeqIssues s c t) (hq : q < 256) :
    Answers (exec (.takeNArm c t q n) s) (fun u => tget (u.cluster c).coin.arm 0 q = n % 128 + 1) := by
  show Answers (execTakeNArm c t q n s) _
  rw [execTakeNArm, State.onSeq_of_seqIssues _ h, if_pos hq]
  refine Answers.next ?_
  rw [State.cluster_modCluster, if_pos rfl]
  dsimp only
  rw [tget_tset, if_pos rfl]

/-- The result of a TAKE_N (R407). -/
theorem takenResult_some {w : Waiter} {n : Nat} (hn : w.n = some n) (h1 : 1 ≤ n) (vs : List W32) :
    takenResult w (vs.take n) (vs.length - n) =
      { first := vs.headD 0, last := ((vs.take n).getLast?).getD 0, all := (vs.take n).foldl (· ||| ·) 0, count := vs.length - n, many := true } := by
  obtain ⟨m, rfl⟩ : ∃ m, n = m + 1 := ⟨n - 1, by omega⟩
  rw [takenResult, hn]
  cases vs <;> rfl

theorem localCoins_takeN (c q n pos i : Nat) (t : Tick) (vs : List W32) (s : State) (h : ReqIssues s c (.context pos i) t) (hq : q < 256)
    (h1 : 1 ≤ n) (h64 : n ≤ 64) (hissue : (s.reqTick c (.context pos i) t).canIssue c (.context pos i) = true) (hopen : QueuesOpen s c)
    (hqueue : s.queue c q = ⟨vs, []⟩) (hmany : n ≤ vs.length) :
    Answers (exec (.takeN c (.context pos i) t q n) s) (fun u => u.queue c q = ⟨vs.drop n, []⟩ ∧ u.coinResult c (.context pos i) =
      { first := vs.headD 0, last := ((vs.take n).getLast?).getD 0, all := (vs.take n).foldl (· ||| ·) 0, count := vs.length - n, many := true }) := by
  show Answers (.next (s.ownCoin c (.context pos i) t q (.takeN n))) _
  have hsame := State.coinReaches_sameQueues s c (.context pos i) t (.takeN n)
  have hlegal : (CoinOp.takeN n).legal = true := decide_eq_true ⟨h1, h64⟩
  rw [State.ownCoin_issues h hq hissue hlegal]
  obtain ⟨hleft, w, hn, hresult⟩ := State.coinApply_takes (op := .takeN n) (n := some n) h.own (hsame.queuesOpen hopen) hlegal (fun u => rfl)
    ((hsame.queue c q).trans hqueue) hmany
  exact Answers.next ⟨hleft, hresult.trans (takenResult_some hn h1 vs)⟩

theorem localCoins_takeNArmed (c q k n : Nat) (t : Tick) (vs : List W32) (s : State) (h : SeqIssues s c t) (hq : q < 256)
    (harm : tget ((s.tick c t).cluster c).coin.arm 0 q = k + 1) (h1 : 1 ≤ k) (h64 : k ≤ 64) (hissue : (s.tick c t).canIssue c .sequencer = true)
    (hopen : QueuesOpen s c) (hqueue : s.queue c q = ⟨vs, []⟩) (hmany : k ≤ vs.length) :
    Answers (exec (.takeN c .sequencer t q n) s) (fun u => u.queue c q = ⟨vs.drop k, []⟩ ∧ u.coinResult c .sequencer =
      { first := vs.headD 0, last := ((vs.take k).getLast?).getD 0, all := (vs.take k).foldl (· ||| ·) 0, count := vs.length - k, many := true }) := by
  show Answers (execTakeN c .sequencer t q n s) _
  rw [execTakeN, State.onSeq_of_seqIssues _ h, harm]
  dsimp only
  have hticked := State.tick_sameQueues s c t
  generalize s.tick c t = u at hissue hticked
  have hused : SameQueues u (u.modCluster c (fun x => { x with coin := { x.coin with arm := tset x.coin.arm 0 q 0 } })) :=
    SameQueues.modCluster u c _ fun _ => ⟨rfl, rfl, rfl⟩
  have hissue' : (u.modCluster c (fun x => { x with coin := { x.coin with arm := tset x.coin.arm 0 q 0 } })).canIssue c .sequencer = true := by
    rw [State.canIssue, State.cluster_modCluster, if_pos rfl]
    exact hissue
  generalize u.modCluster c (fun x => { x with coin := { x.coin with arm := tset x.coin.arm 0 q 0 } }) = v at hissue' hused
  have hlegal : (CoinOp.takeN k).legal = true := decide_eq_true ⟨h1, h64⟩
  rw [State.coinLocal_issues h.1 hq hissue' hlegal]
  have hsame := hticked.trans (hused.trans (State.coinPlace_sameQueues v c .sequencer (.takeN k)))
  obtain ⟨hleft, w, hn, hresult⟩ := State.coinApply_takes (who := .sequencer) (op := .takeN k) (n := some k) rfl (hsame.queuesOpen hopen) hlegal
    (fun u => rfl) ((hsame.queue c q).trans hqueue) hmany
  exact Answers.next ⟨hleft, hresult.trans (takenResult_some hn h1 vs)⟩

/-- Settles O42: each operation reaches the queue unit as it was issued, which serves it on open queues. -/
theorem localCoins : Obligations.LocalCoins := by
  unfold Obligations.LocalCoins
  exact ⟨localCoins_deposit, localCoins_bell, localCoins_take, localCoins_takeEmpty, localCoins_peek, localCoins_arm, localCoins_takeN,
    localCoins_takeNArmed⟩

/-! ### Packets of other clusters (R412 to R415) -/

theorem State.consumed_sameQueues (s : State) (p : Packet) : SameQueues s (s.consumed p) :=
  .only (State.consumed_only s p (hm := by decide) (hk := .refl _ s))

theorem State.here_of_dev {s t : State} (h : t.dev = s.dev) : t.here = s.here := congrArg (fun d : Device => Coord.ofNat d.position) h

/-- A deposit that GO sends to the device itself is applied at once, and its requester is done (R412). -/
theorem State.goRemote_deposit {s : State} {c : Nat} {target : W64} (hop : (targetFields target).2.2.1 = 0)
    (hhere : Coord.ofNat target.toNat = s.here) (v : W32) :
    s.goRemote c .sequencer target v =
      (s.coinApply (targetFields target).1 (targetFields target).2.1 (.outside s.here c (tagOf c .sequencer)) (.deposit v)).toRequester c .sequencer
        .remote {} := by
  rw [State.goRemote]
  generalize targetFields target = x at hop
  obtain ⟨tc, q, o, n⟩ := x
  subst hop
  show s.coinRemote c .sequencer (Coord.ofNat target.toNat) tc q (.deposit v) = _
  unfold State.coinRemote
  extract_lets tag wait s₁ s₂
  rw [if_neg (show ¬ ¬ (CoinOp.deposit v).legal = true from not_not_intro rfl), if_pos hhere]
  rfl

theorem remoteCoins_go (c : Nat) (t : Tick) (target : W64) (v : W32) (s : State) (h : ReqIssues s c .sequencer t)
    (hfree : ((s.tick c t).cluster c).coin.outstanding = false) (hop : (targetFields target).2.2.1 = 0) (hhere : Coord.ofNat target.toNat = s.here)
    (hopen : QueuesOpen s (targetFields target).1) :
    Answers (exec (.remoteCoinGo c .sequencer t target v false) s) (fun u =>
      u.queue (targetFields target).1 (targetFields target).2.1 = (s.queue (targetFields target).1 (targetFields target).2.1).put [v] ∧
      (u.cluster c).coin.outstanding = false ∧ (u.cluster c).coin.remote = {}) := by
  show Answers (execRemoteCoinGo c .sequencer t target v false s) _
  have hfetched : (s.tick c t).fetchLost c = false := (State.tick_fetchLost s c t).trans (h.2 rfl)
  have hticked := State.tick_sameQueues s c t
  have hdev : (s.tick c t).dev = s.dev := (State.tick_only s c t (hm := Nat.and_self _) (hk := .refl _ s)).dev rfl
  rw [execRemoteCoinGo, if_pos h.1]
  dsimp only
  rw [show s.reqTick c .sequencer t = s.tick c t from rfl, if_neg (Bool.eq_false_iff.1 hfetched), if_neg (Bool.eq_false_iff.1 hfree)]
  generalize s.tick c t = u at hticked hdev
  have hstored : SameQueues u (u.modCluster c (fun k => { k with coin := { k.coin with
      target := target, coin := BitVec.ofNat 64 v.toNat, outstanding := true } })) := SameQueues.modCluster u c _ fun _ => ⟨rfl, rfl, rfl⟩
  have hdev' : (u.modCluster c (fun k => { k with coin := { k.coin with
      target := target, coin := BitVec.ofNat 64 v.toNat, outstanding := true } })).dev = s.dev := hdev
  generalize u.modCluster c (fun k => { k with coin := { k.coin with
    target := target, coin := BitVec.ofNat 64 v.toNat, outstanding := true } }) = w at hstored hdev'
  have hsame := hticked.trans hstored
  rw [if_neg (show ¬ (false && _) = true from Bool.false_ne_true), State.goRemote_deposit hop (hhere.trans (State.here_of_dev hdev').symm)]
  refine Answers.next ⟨?_, ?_⟩
  · rw [(State.toRequester_sameQueues ..).queue, State.queue_coinApply_deposit (hsame.queuesOpen hopen), hsame.queue]
  · generalize w.coinApply (targetFields target).1 (targetFields target).2.1 (.outside w.here c (tagOf c .sequencer)) (.deposit v) = x
    show ((x.toSequencer c .remote {}).cluster c).coin.outstanding = false ∧ ((x.toSequencer c .remote {}).cluster c).coin.remote = {}
    rw [State.toSequencer, State.cluster_modCluster, if_pos rfl]
    exact ⟨rfl, rfl⟩

theorem remoteCoins_packet (p : Packet) (s : State) (hok : coinPacketOk p = true) (hkind : p.kind = 2) (hchannel : p.channel = 1)
    (hturn : s.inTurn p = true) (hop : fld p.addr 12 4 = 0) (hopen : QueuesOpen s (fld p.addr 8 3)) :
    Answers (exec (.coinPacket p) s) (fun u => u.queue (fld p.addr 8 3) (fld p.addr 0 8) =
      (s.queue (fld p.addr 8 3) (fld p.addr 0 8)).put [BitVec.ofNat 32 (leAt p.payload 0 4)]) := by
  show Answers (execCoinPacket p s) _
  have hsame := State.consumed_sameQueues s p
  rw [execCoinPacket, if_pos ⟨hkind, hchannel, hturn⟩, State.coinRequest, if_pos hok, hop]
  refine Answers.next ?_
  rw [← hsame.queue]
  exact State.queue_coinApply_deposit (hsame.queuesOpen hopen) ..

/-- A result that came from afar reaches its requester: a sequencer holds it, and has no operation outstanding. -/
theorem State.toRequester_remote (s : State) (c : Nat) (r : CoinResult) :
    ((s.toRequester c .sequencer .remote r).cluster c).coin.remote = r ∧ ((s.toRequester c .sequencer .remote r).cluster c).coin.outstanding = false := by
  show ((s.toSequencer c .remote r).cluster c).coin.remote = r ∧ ((s.toSequencer c .remote r).cluster c).coin.outstanding = false
  rw [State.toSequencer, State.cluster_modCluster, if_pos rfl]
  exact ⟨rfl, rfl⟩

theorem State.rtr_toRequester (s : State) (c : Nat) (who : Requester) (via : Via) (r : CoinResult) : (s.toRequester c who via r).rtr = s.rtr :=
  (State.toRequester_only s c who via r (hm := Nat.and_self _) (hk := .refl _ s)).rtr rfl

theorem State.aoNs_toRequester (s : State) (c : Nat) (who : Requester) (via : Via) (r : CoinResult) : (s.toRequester c who via r).aoNs = s.aoNs :=
  (State.toRequester_only s c who via r (hm := Nat.and_self _) (hk := .refl _ s)).aoNs rfl

theorem remoteCoins_reply (p : Packet) (w : CoinWait) (s : State) (hok : replyOk p = true) (hkind : p.kind = 2) (hchannel : p.channel = 6)
    (hturn : s.inTurn p = true)
    (hfind : (s.consumed p).rtr.coinWaits.find? (fun w => w.cluster == (ofTag (leAt p.payload 12 2)).1 && w.who == (ofTag (leAt p.payload 12 2)).2 &&
      w.target == p.src && w.tcluster == fld p.addr 8 3 && w.queue == fld p.addr 0 8) = some w) :
    Answers (exec (.coinReply p) s) (fun u => u.rtr.coinWaits = (s.consumed p).rtr.coinWaits.erase w ∧
      (w.who = .sequencer → (u.cluster w.cluster).coin.remote = replyResult p.payload ∧ (u.cluster w.cluster).coin.outstanding = false)) := by
  show Answers (execCoinReply p s) _
  rw [execCoinReply, if_neg (not_not_intro ⟨hkind, hchannel, hturn⟩)]
  rw [if_pos hok, State.replyIn]
  have hmatch := List.find?_some hfind
  generalize ofTag (leAt p.payload 12 2) = x at hfind hmatch
  obtain ⟨rc, who⟩ := x
  simp only [Bool.and_eq_true, beq_iff_eq] at hmatch
  obtain ⟨⟨⟨⟨hcluster, hwho⟩, -⟩, -⟩, -⟩ := hmatch
  dsimp only at hfind ⊢
  rw [hfind]
  refine Answers.next ⟨by rw [State.rtr_toRequester]; rfl, fun hseq => ?_⟩
  rw [hcluster, ← hwho, hseq]
  exact State.toRequester_remote ..

/-! ### Deadlines (R421) -/

/-- The count and the log of a deadline change time alone among what a wait depends on. -/
theorem State.lateWait_parts (s : State) (c key due : Nat) (data : List (Nat × Nat)) (t : State)
    (ht : t = ((s.reach due).modCluster c (fun k => { k with counts := { k.counts with timeouts := satAdd 0xFFFF k.counts.timeouts 1 } })).logLimited
      .coinWaitTimeout key second (srcCluster c) data) :
    t.aoNs = max s.aoNs due ∧ SameQueues s t ∧ t.rtr = s.rtr := by
  have hreach := State.reach_only s due (hm := Nat.and_self _) (hk := .refl _ s)
  have haoNs : (s.reach due).aoNs = max s.aoNs due := State.aoNs_reach ..
  have hqueues : SameQueues s (s.reach due) := .of_clusters fun k => State.cluster_reach s due k
  have hrtr : (s.reach due).rtr = s.rtr := hreach.rtr rfl
  generalize s.reach due = u at ht haoNs hqueues hrtr
  have hcount : SameQueues u (u.modCluster c (fun k => { k with counts := { k.counts with timeouts := satAdd 0xFFFF k.counts.timeouts 1 } })) :=
    SameQueues.modCluster u c _ fun _ => ⟨rfl, rfl, rfl⟩
  have hlog := State.logLimited_only (u.modCluster c (fun k => { k with counts := { k.counts with timeouts := satAdd 0xFFFF k.counts.timeouts 1 } }))
    .coinWaitTimeout key second (srcCluster c) data (hm := Nat.and_self _) (hk := .refl _ _)
  subst ht
  exact ⟨(hlog.aoNs rfl).trans haoNs, hqueues.trans (hcount.trans (State.logLimited_sameQueues ..)), (hlog.rtr rfl).trans hrtr⟩

theorem remoteCoins_timeout (c q j : Nat) (w : Waiter) (s : State) (hw : (s.queue c q).waiters[j]? = some w) (hruns : s.deadlineStopped c w = false) :
    Answers (exec (.coinWaitTimeout c q j) s) (fun u => u.aoNs = max s.aoNs w.deadline ∧
      u.queue c q = ({ s.queue c q with waiters := (s.queue c q).waiters.erase w }.release ((s.queue c q).waiters.erase w).length).2) := by
  show Answers (execCoinWaitTimeout c q j s) _
  rw [execCoinWaitTimeout, hw]
  dsimp only
  rw [if_neg (Bool.eq_false_iff.1 hruns)]
  unfold State.coinTimedOut
  extract_lets s₁ s₂ s₃
  obtain ⟨haoNs, hqueues, -⟩ := State.lateWait_parts s c _ w.deadline _ s₃ rfl
  clear_value s₃
  dsimp only
  have herased : (s₃.modQueue c q (fun x => { x with waiters := x.waiters.erase w })).queue c q =
      { s.queue c q with waiters := (s.queue c q).waiters.erase w } := by rw [State.queue_modQueue, hqueues.queue]
  have hanswer := State.answer_only (s₃.modQueue c q (fun x => { x with waiters := x.waiters.erase w })) c q w.who (.bad .waitTimeout w.n.isSome)
    (hm := Nat.and_self _) (hk := .refl _ _)
  have hsame := State.answer_sameQueues (s₃.modQueue c q (fun x => { x with waiters := x.waiters.erase w })) c q w.who (.bad .waitTimeout w.n.isSome)
  have herased' := (hsame.queue c q).trans herased
  have haoNs' := (hanswer.aoNs rfl).trans haoNs
  generalize (s₃.modQueue c q (fun x => { x with waiters := x.waiters.erase w })).answer c q w.who (.bad .waitTimeout w.n.isSome) = v at herased' haoNs'
  refine Answers.next ⟨?_, ?_⟩
  · exact ((State.release_only v c q (hm := Nat.and_self _) (hk := .refl _ v)).aoNs rfl).trans haoNs'
  · rw [State.queue_release, herased']

theorem remoteCoins_guard (j : Nat) (w : CoinWait) (s : State) (hw : s.rtr.coinWaits[j]? = some w) :
    Answers (exec (.coinGuardExpiry j) s) (fun u => u.rtr.coinWaits = s.rtr.coinWaits.erase w ∧ u.aoNs = max s.aoNs w.guard ∧
      (w.who = .sequencer → (u.cluster w.cluster).coin.remote = .bad .waitTimeout ∧ (u.cluster w.cluster).coin.outstanding = false)) := by
  show Answers (execCoinGuardExpiry j s) _
  rw [execCoinGuardExpiry, hw]
  dsimp only
  generalize hu : s.modRtr (fun r => { r with coinWaits := r.coinWaits.erase w }) = u
  have hwaits : u.rtr.coinWaits = s.rtr.coinWaits.erase w ∧ u.aoNs = s.aoNs := hu ▸ ⟨rfl, rfl⟩
  unfold State.coinTimedOut
  extract_lets s₁ s₂ s₃
  obtain ⟨haoNs, -, hrtr⟩ := State.lateWait_parts u w.cluster _ w.guard _ s₃ rfl
  clear_value s₃
  refine Answers.next ⟨?_, ?_, fun hseq => ?_⟩
  · rw [State.rtr_toRequester, hrtr]
    exact hwaits.1
  · rw [State.aoNs_toRequester, haoNs, hwaits.2]
  · rw [hseq]
    exact State.toRequester_remote ..

/-! ### Seals (R417 to R419) -/

theorem remoteCoins_seal (src : Coord) (ch coin q c : Nat) (p : Packet) (s : State)
    (hfind : s.rtr.seals.find? (fun p => p.src == src && p.channel == ch) = some p) (hheld : s.sealHeld src ch = false)
    (hseal : p.sealExt = some (coin, q, c)) (hopen : QueuesOpen s (c % 8)) :
    Answers (exec (.sealDeposit src ch) s) (fun u => u.queue (c % 8) (q % 256) = (s.queue (c % 8) (q % 256)).put [BitVec.ofNat 32 coin]) := by
  show Answers (execSealDeposit src ch s) _
  rw [execSealDeposit, hfind]
  dsimp only
  rw [if_neg (Bool.eq_false_iff.1 hheld), hseal]
  dsimp only
  have hsame : SameQueues s (s.modRtr (fun r => { r with seals := r.seals.erase p })) := .of_clusters fun _ => rfl
  generalize s.modRtr (fun r => { r with seals := r.seals.erase p }) = u at hsame
  rw [← hsame.queue]
  exact Answers.next (State.queue_coinApply_deposit (hsame.queuesOpen hopen) ..)

/-- Settles O43: a packet, a reply, a deadline and a seal each act by one operation of the queue unit or one answer. -/
theorem remoteCoins : Obligations.RemoteCoins := by
  unfold Obligations.RemoteCoins
  exact ⟨remoteCoins_go, remoteCoins_packet, remoteCoins_reply, remoteCoins_timeout, remoteCoins_guard, remoteCoins_seal⟩

end Sys2Proof.Machine
end

