-- ==== Sys2Proof/Proofs/SequencerFrames.lean ====
section
/-!
PROOFS. What the end of a command, a hazard and the release of waits leave of the sequencers (05_program_model.md, The sequencer and
Starting layers).
-/
set_option autoImplicit false
namespace Sys2Proof.Machine

/-- A sequencer but for what the end of a coin wait changes: of its state, whether it is idle. -/
def Sequencer.calm (q : Sequencer) : Sequencer :=
  { q with st := if q.st = .idle then .idle else .running, waitOn := .none, resume := .idle, remainder := 0 }

/-- What π reads of each cluster's calm sequencer is the same in t as in s. -/
def SeqKept {α : Type} (π : Nat → Sequencer → α) (s t : State) : Prop :=
  ∀ k, π k (t.cluster k).seq.calm = π k (s.cluster k).seq.calm

section
variable {α : Type} {π : Nat → Sequencer → α}

namespace SeqKept

variable {s t u : State}

theorem refl (s : State) : SeqKept π s s := fun _ => rfl
theorem trans (h : SeqKept π s t) (k : SeqKept π t u) : SeqKept π s u := fun c => (k c).trans (h c)

/-- The mask has every bit but that of the clusters. -/
theorem only (h : Only 8589901823 t u) (hk : SeqKept π s t) : SeqKept π s u := fun k => by
  rw [h.cluster_eq (by decide) k]
  exact hk k

theorem ite {c : Prop} [Decidable c] (h : SeqKept π s t) (k : SeqKept π s u) : SeqKept π s (if c then t else u) := by
  split
  · exact h
  · exact k

theorem foldl {β : Type} {f : State → β → State} {l : List β} (h : ∀ t x, SeqKept π s t → SeqKept π s (f t x))
    (h0 : SeqKept π s t) : SeqKept π s (l.foldl f t) := by
  induction l generalizing t with
  | nil => exact h0
  | cons x l ih => exact ih (h _ _ h0)

theorem foldl_mem {β : Type} {f : State → β → State} {l : List β} (h : ∀ t, ∀ x ∈ l, SeqKept π s t → SeqKept π s (f t x))
    (h0 : SeqKept π s t) : SeqKept π s (l.foldl f t) := by
  induction l generalizing t with
  | nil => exact h0
  | cons x l ih => exact ih (fun t y hy => h t y (List.mem_cons_of_mem x hy)) (h _ x List.mem_cons_self h0)

end SeqKept

theorem State.modCluster_seqKept {s₀ : State} (s : State) (c : Nat) (f : Cluster → Cluster) (hf : ∀ x, (f x).seq = x.seq)
    (hk : SeqKept π s₀ s) : SeqKept π s₀ (s.modCluster c f) := fun k => by
  rw [State.cluster_modCluster]
  split
  next heq => rw [hf, heq]; exact hk c
  next => exact hk k

theorem State.modClock_seqKept {s₀ : State} (s : State) (c : Nat) (f : ClockSt → ClockSt)
    (hk : SeqKept π s₀ s) : SeqKept π s₀ (s.modClock c f) :=
  State.modCluster_seqKept s c (fun x => { x with clock := f x.clock }) (fun _ => rfl) hk

theorem State.modSeq_seqKept {s₀ : State} (s : State) (c : Nat) (f : Sequencer → Sequencer) (hf : ∀ q, π c (f q).calm = π c q.calm)
    (hk : SeqKept π s₀ s) : SeqKept π s₀ (s.modSeq c f) := fun k => by
  rw [State.cluster_modSeq]
  split
  next heq => rw [heq]; exact (hf _).trans (hk c)
  next => exact hk k

/-- A result that reaches a sequencer ends its wait at most. -/
theorem State.toSequencer_seqKept {s₀ : State} (s : State) (c : Nat) (via : Via) (r : CoinResult) (hk : SeqKept π s₀ s) :
    SeqKept π s₀ (s.toSequencer c via r) := fun k => by
  rw [State.toSequencer, State.cluster_modCluster]
  split
  next heq =>
    rw [heq]
    refine Eq.trans ?_ (hk c)
    refine congrArg (π c) ?_
    dsimp only
    generalize (s.cluster c).seq = q
    split
    · cases hst : q.st <;> simp [Sequencer.calm, hst]
    · rfl
  next => exact hk k

/-! ### Operations that leave the sequencers alone -/

theorem State.toContext_seqKept {s₀ : State} (s : State) (p i : Nat) (r : CoinResult)
    (hk : SeqKept π s₀ s) : SeqKept π s₀ (State.toContext s p i r) :=
  .only (State.toContext_only (hm := by decide) (hk := .refl _ _) ..) hk

theorem State.modRtr_seqKept {s₀ : State} (s : State) (f : Router → Router)
    (hk : SeqKept π s₀ s) : SeqKept π s₀ (State.modRtr s f) :=
  .only (State.modRtr_only (hm := by decide) (hk := .refl _ _) ..) hk

theorem State.log_seqKept {s₀ : State} (s : State) (c : EventClass) (source : Nat) (data : List (Nat × Nat))
    (hk : SeqKept π s₀ s) : SeqKept π s₀ (State.log s c source data) :=
  .only (State.log_only (hm := by decide) (hk := .refl _ _) ..) hk

theorem State.inject_seqKept {s₀ : State} (s : State) (p : Packet)
    (hk : SeqKept π s₀ s) : SeqKept π s₀ (State.inject s p).2 :=
  .only (State.inject_only (hm := by decide) (hk := .refl _ _) ..) hk

theorem State.wakeBuffer_seqKept {s₀ : State} (s : State) (c b : Nat)
    (hk : SeqKept π s₀ s) : SeqKept π s₀ (State.wakeBuffer s c b) :=
  .only (State.wakeBuffer_only (hm := by decide) (hk := .refl _ _) ..) hk

theorem State.modCore_seqKept {s₀ : State} (s : State) (p : Nat) (f : Core → Core)
    (hk : SeqKept π s₀ s) : SeqKept π s₀ (State.modCore s p f) :=
  .only (State.modCore_only (hm := by decide) (hk := .refl _ _) ..) hk

theorem State.modCol_seqKept {s₀ : State} (s : State) (f : Collect → Collect)
    (hk : SeqKept π s₀ s) : SeqKept π s₀ (State.modCol s f) :=
  .only (State.modCol_only (hm := by decide) (hk := .refl _ _) ..) hk

theorem State.span_seqKept {s₀ : State} (s : State) (key n : Nat)
    (hk : SeqKept π s₀ s) : SeqKept π s₀ (State.span s key n) :=
  .only (State.span_only (hm := by decide) (hk := .refl _ _) ..) hk

theorem State.logAs_seqKept {s₀ : State} (s : State) (c : EventClass) (source : Nat) (data : List Byte) (sev : Severity) (nested injected : Bool)
    (hk : SeqKept π s₀ s) : SeqKept π s₀ (State.logAs s c source data sev nested injected) :=
  .only (State.logAs_only (hm := by decide) (hk := .refl _ _) ..) hk

theorem State.modPwr_seqKept {s₀ : State} (s : State) (f : Power → Power)
    (hk : SeqKept π s₀ s) : SeqKept π s₀ (State.modPwr s f) :=
  .only (State.modPwr_only (hm := by decide) (hk := .refl _ _) ..) hk

/-! ### Answers, landing buffers and fills -/

theorem State.modQueue_seqKept {s₀ : State} (s : State) (c q : Nat) (f : Queue → Queue)
    (hk : SeqKept π s₀ s) : SeqKept π s₀ (State.modQueue s c q f) := by
  unfold State.modQueue
  repeat' (first
    | with_reducible assumption
    | with_reducible refine State.modCluster_seqKept (hf := fun _ => rfl) (hk := ?_) ..
    | split)

theorem State.toRequester_seqKept {s₀ : State} (s : State) (c : Nat) (who : Requester) (via : Via) (r : CoinResult)
    (hk : SeqKept π s₀ s) : SeqKept π s₀ (State.toRequester s c who via r) := by
  unfold State.toRequester
  repeat' (first
    | with_reducible assumption
    | with_reducible first | refine State.toSequencer_seqKept (hk := ?_) .. | refine State.toContext_seqKept (hk := ?_) ..
    | split)

theorem State.replyIn_seqKept {s₀ : State} (s : State) (src : Coord) (q c tag : Nat) (r : CoinResult)
    (hk : SeqKept π s₀ s) : SeqKept π s₀ (State.replyIn s src q c tag r) := by
  unfold State.replyIn
  repeat' (first
    | with_reducible assumption
    | with_reducible first | refine State.modCluster_seqKept (hf := fun _ => rfl) (hk := ?_) .. | refine State.modRtr_seqKept (hk := ?_) .. | refine State.log_seqKept (hk := ?_) .. | refine State.toRequester_seqKept (hk := ?_) ..
    | split
    | dsimp only)

theorem State.answer_seqKept {s₀ : State} (s : State) (c q : Nat) (who : Requester) (r : CoinResult)
    (hk : SeqKept π s₀ s) : SeqKept π s₀ (State.answer s c q who r) := by
  unfold State.answer
  repeat' (first
    | with_reducible assumption
    | with_reducible first | refine State.inject_seqKept (hk := ?_) .. | refine State.toRequester_seqKept (hk := ?_) .. | refine State.replyIn_seqKept (hk := ?_) ..
    | with_reducible refine SeqKept.ite ?_ ?_
    | split
    | dsimp only)

theorem State.release_seqKept {s₀ : State} (s : State) (c q : Nat)
    (hk : SeqKept π s₀ s) : SeqKept π s₀ (State.release s c q) := by
  unfold State.release
  repeat' (first
    | with_reducible assumption
    | with_reducible first | refine State.answer_seqKept (hk := ?_) .. | refine State.modQueue_seqKept (hk := ?_) ..
    | with_reducible refine SeqKept.foldl (fun _ _ _ => ?_) ?_
    | split
    | dsimp only)

theorem State.dropSeqWaits_seqKept {s₀ : State} (s : State) (c : Nat)
    (hk : SeqKept π s₀ s) : SeqKept π s₀ (State.dropSeqWaits s c) := by
  unfold State.dropSeqWaits
  repeat' (first
    | with_reducible assumption
    | with_reducible first | refine State.modCluster_seqKept (hf := fun _ => rfl) (hk := ?_) .. | refine State.modRtr_seqKept (hk := ?_) .. | refine State.modQueue_seqKept (hk := ?_) .. | refine State.release_seqKept (hk := ?_) ..
    | with_reducible refine SeqKept.foldl (fun _ _ _ => ?_) ?_
    | split
    | dsimp only)

theorem State.modLb_seqKept {s₀ : State} (s : State) (c b : Nat) (f : LandingBuf → LandingBuf)
    (hk : SeqKept π s₀ s) : SeqKept π s₀ (State.modLb s c b f) := by
  unfold State.modLb
  repeat' (first
    | with_reducible assumption
    | with_reducible refine State.modCluster_seqKept (hf := fun _ => rfl) (hk := ?_) ..
    | split)

theorem State.emptyBuffer_seqKept {s₀ : State} (s : State) (c b : Nat)
    (hk : SeqKept π s₀ s) : SeqKept π s₀ (State.emptyBuffer s c b) := by
  unfold State.emptyBuffer
  repeat' (first
    | with_reducible assumption
    | with_reducible first | refine State.modLb_seqKept (hk := ?_) .. | refine State.wakeBuffer_seqKept (hk := ?_) ..
    | split)

theorem State.cancelBuffer_seqKept {s₀ : State} (s : State) (c b : Nat)
    (hk : SeqKept π s₀ s) : SeqKept π s₀ (State.cancelBuffer s c b) := by
  unfold State.cancelBuffer
  repeat' (first
    | with_reducible assumption
    | with_reducible first | refine State.modRtr_seqKept (hk := ?_) .. | refine State.emptyBuffer_seqKept (hk := ?_) ..
    | split)

theorem State.releaseBuffers_seqKept {s₀ : State} (s : State) (c : Nat) (bs : List Nat)
    (hk : SeqKept π s₀ s) : SeqKept π s₀ (State.releaseBuffers s c bs) := by
  unfold State.releaseBuffers
  repeat' (first
    | with_reducible assumption
    | with_reducible refine State.cancelBuffer_seqKept (hk := ?_) ..
    | with_reducible refine SeqKept.foldl (fun _ _ _ => ?_) ?_
    | split
    | dsimp only)

theorem State.dropPending_seqKept {s₀ : State} (s : State) (c : Nat)
    (hk : SeqKept π s₀ s) : SeqKept π s₀ (State.dropPending s c) := by
  unfold State.dropPending
  repeat' (first
    | with_reducible assumption
    | with_reducible first | refine State.modCore_seqKept (hk := ?_) .. | refine State.releaseBuffers_seqKept (hk := ?_) ..
    | with_reducible refine SeqKept.ite ?_ ?_
    | with_reducible refine SeqKept.foldl (fun _ _ _ => ?_) ?_
    | split
    | dsimp only)

theorem State.using_seqKept {s₀ : State} (s : State) (c : Nat)
    (hk : SeqKept π s₀ s) : SeqKept π s₀ (State.using s c) := by
  unfold State.using
  repeat' (first
    | with_reducible assumption
    | with_reducible refine State.modClock_seqKept (hk := ?_) ..
    | split)

theorem State.cancelFills_seqKept {s₀ : State} (s : State) (c : Nat)
    (hk : SeqKept π s₀ s) : SeqKept π s₀ (State.cancelFills s c) := by
  unfold State.cancelFills
  repeat' (first
    | with_reducible assumption
    | with_reducible first | refine State.modCol_seqKept (hk := ?_) .. | refine State.cancelBuffer_seqKept (hk := ?_) ..
    | with_reducible refine SeqKept.foldl (fun _ _ _ => ?_) ?_
    | split
    | dsimp only)

theorem State.stopCores_seqKept {s₀ : State} (s : State) (c : Nat)
    (hk : SeqKept π s₀ s) : SeqKept π s₀ (State.stopCores s c) := by
  unfold State.stopCores
  repeat' (first
    | with_reducible assumption
    | with_reducible first | refine State.modCore_seqKept (hk := ?_) .. | refine State.releaseBuffers_seqKept (hk := ?_) ..
    | with_reducible refine SeqKept.foldl (fun _ _ _ => ?_) ?_
    | split
    | dsimp only)

/-! ### The end of a command (R165) -/

theorem State.endOn_seqKept {s₀ : State} (s : State) (c : Nat) (st : Status) (cause : Nat) (reported : Bool) (word : W32)
    (hπ : ∀ q r : Sequencer, r.cfg = q.cfg → π c r = π c q) (hk : SeqKept π s₀ s) : SeqKept π s₀ (s.endOn c st cause reported word) := by
  rw [State.endOn]
  refine State.cancelFills_seqKept _ _ (State.dropPending_seqKept _ _ ?_)
  refine State.modSeq_seqKept _ c _ (fun q => ?_) (State.dropSeqWaits_seqKept _ _ (State.modPwr_seqKept _ _ (State.using_seqKept s c hk)))
  exact hπ _ _ rfl

theorem State.stopAt_seqKept {s₀ : State} (s : State) (c : Nat) (hπ : ∀ q r : Sequencer, r.cfg = q.cfg → π c r = π c q) (hk : SeqKept π s₀ s) :
    SeqKept π s₀ (s.stopAt c) := by
  rw [State.stopAt]
  exact .ite (State.endOn_seqKept s c _ _ _ _ hπ hk) hk

/-- The command is stopped on cluster d, which another cluster's end asks for (R165). -/
def State.stopOther (s : State) (d : Nat) : State :=
  (((s.dropSeqWaits d).modSeq d (fun q =>
    { q with stop := true, waitingStart := none, timerOn := none,
             st := if q.st = .waiting then .running else q.st, waitOn := .none })).dropPending d).stopAt d

theorem State.stopOther_seqKept {s₀ : State} (s : State) (d : Nat) (hπ : ∀ q r : Sequencer, r.cfg = q.cfg → π d r = π d q) (hk : SeqKept π s₀ s) :
    SeqKept π s₀ (s.stopOther d) :=
  State.stopAt_seqKept _ d hπ (State.dropPending_seqKept _ _ (State.modSeq_seqKept _ _ _ (fun q => hπ _ _ rfl) (State.dropSeqWaits_seqKept s d hk)))

/-- The clusters that run the command of cluster c besides it (R165). -/
def State.others (s : State) (c : Nat) : List Nat := (List.range 8).filter (fun d => d != c && (s.cluster d).seq.active && s.sameCmd c d)

theorem State.haltSeq_active {s : State} {c : Nat} (h : (s.cluster c).seq.active = true) (st : Status) (cause : Nat) :
    s.haltSeq c st cause = (s.others c).foldl State.stopOther (s.endOn c st cause true 0) := if_pos h

theorem State.haltSeq_seqKept {s₀ : State} (s : State) (c : Nat) (st : Status) (cause : Nat)
    (hπ : ∀ d, ∀ q r : Sequencer, r.cfg = q.cfg → π d r = π d q) (hk : SeqKept π s₀ s) : SeqKept π s₀ (s.haltSeq c st cause) := by
  by_cases h : (s.cluster c).seq.active = true
  · rw [State.haltSeq_active h]
    exact .foldl (fun t d ht => State.stopOther_seqKept t d (hπ d) ht) (State.endOn_seqKept s c _ _ _ _ (hπ c) hk)
  · rw [State.haltSeq, if_neg h]
    exact hk

theorem State.hazard_seqKept {s₀ : State} (s : State) (c kind p reg dist retire ctx : Nat)
    (hπ : ∀ d, ∀ q r : Sequencer, r.cfg = q.cfg → π d r = π d q) (hk : SeqKept π s₀ s) :
    SeqKept π s₀ (s.hazard c kind p reg dist retire ctx) := by
  unfold State.hazard State.hazardAt
  extract_lets k r h cur better keep u
  split
  · exact hk
  have hu : SeqKept π s₀ u := State.span_seqKept _ _ _ (State.modCluster_seqKept _ _ _ (fun _ => rfl) hk)
  split
  · exact State.haltSeq_seqKept _ _ _ _ hπ (State.stopCores_seqKept _ _ (State.logAs_seqKept _ _ _ _ _ _ _ hu))
  · exact hu

end

/-! ### What stays of a command that has ended -/

/-- What is read of cluster c alone. -/
def atCluster (c k : Nat) (q : Sequencer) : Option Sequencer := if k = c then some q else none

theorem SeqKept.calm {c : Nat} {s t : State} (h : SeqKept (atCluster c) s t) : (t.cluster c).seq.calm = (s.cluster c).seq.calm := by
  have hc := h c
  rw [atCluster, atCluster, if_pos rfl, if_pos rfl] at hc
  exact Option.some.inj hc

theorem SeqKept.cfg {s t : State} (h : SeqKept (fun _ q => q.cfg) s t) (c : Nat) : (t.cluster c).seq.cfg = (s.cluster c).seq.cfg := h c

/-- The end of a command as cluster c records it (R165). -/
def Sequencer.Ended (q : Sequencer) (st : Status) (cause : Nat) (word : W32) : Prop :=
  q.active = false ∧ q.ended = some st ∧ q.haltCause = cause ∧ q.result = word ∧ q.st = .idle

theorem Sequencer.ended_of_calm {q r : Sequencer} {st : Status} {cause : Nat} {word : W32} (h : r.calm = q.calm) (hq : q.Ended st cause word) :
    r.Ended st cause word := by
  obtain ⟨hactive, hended, hcause, hword, hst⟩ := hq
  have hidle : (if r.st = .idle then SeqSt.idle else .running) = if q.st = .idle then SeqSt.idle else .running := congrArg Sequencer.st h
  refine ⟨(congrArg Sequencer.active h).trans hactive, (congrArg Sequencer.ended h).trans hended, (congrArg Sequencer.haltCause h).trans hcause,
    (congrArg Sequencer.result h).trans hword, ?_⟩
  rw [hst, if_pos rfl] at hidle
  refine Decidable.byContradiction fun hne => ?_
  rw [if_neg hne] at hidle
  cases hidle

theorem State.endOn_ended (s : State) (c : Nat) (st : Status) (cause : Nat) (reported : Bool) (word : W32) :
    ((s.endOn c st cause reported word).cluster c).seq.Ended st cause word := by
  rw [State.endOn]
  generalize ((s.using c).modPwr (fun p => { p with idleFrom := s.aoNs })).dropSeqWaits c = u
  refine Sequencer.ended_of_calm (SeqKept.calm (State.cancelFills_seqKept _ c (State.dropPending_seqKept _ c (.refl _)))) ?_
  rw [State.cluster_modSeq, if_pos rfl]
  exact ⟨rfl, rfl, rfl, rfl, rfl⟩

/-- A halt ends the command of a cluster that runs one, and the stop of the others leaves that end (R165). -/
theorem State.haltSeq_ended {s : State} {c : Nat} (h : (s.cluster c).seq.active = true) (st : Status) (cause : Nat) :
    ((s.haltSeq c st cause).cluster c).seq.Ended st cause 0 := by
  rw [State.haltSeq_active h]
  refine Sequencer.ended_of_calm (SeqKept.calm (.foldl_mem (fun t d hd ht => State.stopOther_seqKept t d (fun q r _ => ?_) ht) (.refl _)))
    (State.endOn_ended s c st cause true 0)
  have hne : d ≠ c := by
    have := (List.mem_filter.1 hd).2
    simp only [Bool.and_eq_true, bne_iff_ne] at this
    exact this.1.1
  rw [atCluster, atCluster, if_neg hne, if_neg hne]

end Sys2Proof.Machine
end

