-- ==== Sys2Proof/Proofs/SequencerTables.lean ====
section
/-!
PROOFS. Stores of a sequencer to configuration registers, high-water registers, the sequence table and the loss service
(05_program_model.md, 04_tile_engine.md, The sequence table).
-/
set_option autoImplicit false
namespace Sys2Proof.Machine

theorem State.modSeq_beside (s : State) (c : Nat) (f : Sequencer → Sequencer) (k : Nat) :
    ∃ q, (s.modSeq c f).cluster k = { s.cluster k with seq := q } := by
  rw [State.cluster_modSeq]
  split
  next heq => exact heq ▸ ⟨f (s.cluster k).seq, rfl⟩
  next => exact ⟨(s.cluster k).seq, rfl⟩

/-- Everything of a cluster but its sequencer is the same after a tick. -/
theorem State.tick_beside (s : State) (c : Nat) (t : Tick) (k : Nat) : ∃ q, (s.tick c t).cluster k = { s.cluster k with seq := q } := by
  rw [State.cluster_tick]
  obtain ⟨q, hq⟩ := State.modSeq_beside (s.advance c t.cclk) c (fun q => { q with retired := q.retired + t.instrs, pc := t.pc % 2 ^ 18 }) k
  rw [hq, State.cluster_advance]
  obtain ⟨r, hr⟩ := State.modSeq_beside s c (fun q => { q with
    cycles := (s.cluster c).seq.cycles + t.cclk, cfg := q.cfg.filter (fun w => decide ((s.cluster c).seq.cycles + t.cclk < w.land)) }) k
  rw [hr]
  exact ⟨q, rfl⟩

theorem State.cycles_tick (s : State) (c : Nat) (t : Tick) : ((s.tick c t).cluster c).seq.cycles = (s.cluster c).seq.cycles + t.cclk := by
  rw [State.cluster_tick, State.cluster_modSeq, if_pos rfl, State.cluster_advance, State.cluster_modSeq, if_pos rfl]

/-- A store to a configuration register is on its way, whatever hazard it makes (R162, R178). -/
theorem State.mem_sendCfg (s : State) (c p word : Nat) (v : W64) :
    ({ land := (s.cluster c).seq.cycles + 6, issue := (s.cluster c).seq.cycles, core := p, word := word, val := v } : CfgWrite) ∈
      ((s.sendCfg c p word v).cluster c).seq.cfg := by
  unfold State.sendCfg
  extract_lets now hit u
  have hu : ({ land := now + 6, issue := now, core := p, word := word, val := v } : CfgWrite) ∈ (u.cluster c).seq.cfg := by
    show _ ∈ ((s.modSeq c _).cluster c).seq.cfg
    rw [State.cluster_modSeq, if_pos rfl]
    exact List.mem_append_right _ (List.mem_singleton_self _)
  split
  · rw [SeqKept.cfg (State.hazard_seqKept u c 2 p (0x40 + word) 0 6 0 (fun _ _ _ h => h) (.refl u)) c]
    exact hu
  · exact hu

theorem sequencerTables_store (c pos word : Nat) (t : Tick) (v : W64) (s : State) (h : SeqIssues s c t) (hpos : pos < 12) (hword : word < 64) :
    Answers (exec (.lcbStore c t (.core pos) word v) s) (fun u => ∀ w : CfgWrite, w.core = c * 12 + pos → w.word = word → w.val = v →
      w.issue = (s.cluster c).seq.cycles + t.cclk → w.land = w.issue + 6 → w ∈ (u.cluster c).seq.cfg) := by
  show Answers (execLcbStore c t (.core pos) word v s) _
  rw [execLcbStore, State.onSeq_of_seqIssues _ h, if_pos hword, State.addressed, if_pos hpos, List.foldl_cons, List.foldl_nil]
  refine Answers.next fun w hcore hw hval hissue hland => ?_
  have hmem := State.mem_sendCfg (s.tick c t) c (c * 12 + pos) word v
  rw [State.cycles_tick] at hmem
  obtain ⟨land, issue, core, word', val⟩ := w
  dsimp only at hcore hw hval hissue hland
  subst hcore hw hval hland hissue
  exact hmem

theorem sequencerTables_hwm (c i : Nat) (t : Tick) (v : W64) (s : State) (h : SeqIssues s c t) (hi : i < 1024) :
    Answers (exec (.hwmClear c t i v) s) (fun u => tget u.hwm 0 i = if bit v.toNat 63 then 0 else tget s.hwm 0 i) := by
  show Answers (execHwmClear c t i v s) _
  rw [execHwmClear, State.onSeq_of_seqIssues _ h]
  refine Answers.next ?_
  have hhwm : (s.tick c t).hwm = s.hwm := (State.tick_only s c t (hm := Nat.and_self _) (hk := .refl _ s)).hwm rfl
  by_cases hv : bit v.toNat 63 = true
  · rw [if_pos ⟨hi, hv⟩, if_pos hv]
    dsimp only
    rw [tget_tset, if_pos rfl]
  · rw [if_neg (fun hc => hv hc.2), if_neg hv, hhwm]

theorem sequencerTables_write (c slot : Nat) (high : Bool) (t : Tick) (v : W64) (s : State) (h : SeqIssues s c t) (hslot : slot < 256) :
    Answers (exec (.seqTableWrite c t slot high v) s) (fun u => ∀ k, k < 8 →
      tget (u.cluster k).shadow 0 slot = slotStore (tget (s.cluster k).shadow 0 slot) high v) := by
  show Answers (execSeqTableWrite c t slot high v s) _
  rw [execSeqTableWrite, State.onSeq_of_seqIssues _ h, if_pos hslot]
  refine Answers.next fun k hk => ?_
  obtain ⟨q, hq⟩ := State.tick_beside s c t k
  rw [State.cluster_modClusters _ _ _ hk, hq]
  dsimp only
  rw [tget_tmod, if_pos rfl]

theorem sequencerTables_commit (c : Nat) (t : Tick) (v : W64) (s : State) (h : SeqIssues s c t) (hv : bit v.toNat 0 = true) :
    Answers (exec (.seqTableCommit c t v) s) (fun u => (u.cluster c).seq.commitDone = true ∧
      (firstBadSlot (s.cluster c).shadow [] = none → (u.cluster c).seq.commitStatus = .ok ∧
        ∀ k, k < 8 → (u.cluster k).commitPending = true ∧ (u.cluster k).pendingBank = (s.cluster k).shadow) ∧
      (firstBadSlot (s.cluster c).shadow [] ≠ none → (u.cluster c).seq.commitStatus = .malformed ∧
        ∀ k, (u.cluster k).commitPending = (s.cluster k).commitPending ∧ (u.cluster k).slots = (s.cluster k).slots)) := by
  show Answers (execSeqTableCommit c t v s) _
  have hbeside := State.tick_beside s c t
  rw [execSeqTableCommit, State.onSeq_of_seqIssues _ h, if_neg (not_not_intro hv)]
  generalize s.tick c t = u at hbeside
  obtain ⟨q, hq⟩ := hbeside c
  have hshadow : (u.cluster c).shadow = (s.cluster c).shadow := by rw [hq]
  rw [hshadow]
  cases hbad : firstBadSlot (s.cluster c).shadow [] with
  | some i =>
    dsimp only
    have hlog (k : Nat) := (State.log_only (u.modSeq c (fun q => { q with commitDone := true, commitStatus := .malformed })) .malformed
      (srcCluster c) [(2, i)] (hm := Nat.and_self _) (hk := .refl _ _)).cluster_eq rfl k
    refine Answers.next ⟨?_, fun hnone => (Option.some_ne_none i hnone).elim, fun _ => ⟨?_, fun k => ?_⟩⟩
    · rw [hlog, State.cluster_modSeq, if_pos rfl]
    · rw [hlog, State.cluster_modSeq, if_pos rfl]
    · obtain ⟨r, hr⟩ := hbeside k
      rw [hlog, State.cluster_modSeq]
      split
      next heq => rw [← heq, hr]; exact ⟨rfl, rfl⟩
      next => rw [hr]; exact ⟨rfl, rfl⟩
  | none =>
    dsimp only
    refine Answers.next ⟨?_, fun _ => ⟨?_, fun k hk => ?_⟩, fun hsome => (hsome rfl).elim⟩
    · rw [State.cluster_modSeq, if_pos rfl]
    · rw [State.cluster_modSeq, if_pos rfl]
    · obtain ⟨r, hr⟩ := hbeside k
      rw [State.cluster_modSeq]
      split
      next heq => rw [← heq, State.cluster_modClusters _ _ _ hk, hr]; exact ⟨rfl, rfl⟩
      next => rw [State.cluster_modClusters _ _ _ hk, hr]; exact ⟨rfl, rfl⟩

theorem State.lossTotal_tick (s : State) (c : Nat) (t : Tick) (slot : Nat) : (s.tick c t).lossTotal slot = s.lossTotal slot := by
  have hloss (k : Nat) : ((s.tick c t).cluster k).loss = (s.cluster k).loss := by
    obtain ⟨q, hq⟩ := State.tick_beside s c t k
    rw [hq]
  simp only [State.lossTotal, hloss]

theorem sequencerTables_lossRead (c slot : Nat) (t : Tick) (s : State) (h : SeqIssues s c t) (hslot : slot < 256) :
    Answers (exec (.lossRead c t slot) s) (fun u => (u.cluster c).seq.lossF32 = (s.lossTotal slot).1 ∧
      (u.cluster c).seq.lossTokens = (s.lossTotal slot).2.1 ∧ (u.cluster c).seq.lossBits = (s.lossTotal slot).2.2) := by
  show Answers (execLossRead c t slot s) _
  rw [execLossRead, State.onSeq_of_seqIssues _ h, if_pos hslot]
  dsimp only
  rw [State.lossTotal_tick]
  generalize s.lossTotal slot = x
  refine Answers.next ?_
  rw [State.cluster_modSeq, if_pos rfl]
  exact ⟨rfl, rfl, rfl⟩

theorem sequencerTables_lossClear (c slot : Nat) (t : Tick) (v : W64) (s : State) (h : SeqIssues s c t) (hslot : slot < 256)
    (hv : bit v.toNat 63 = true) :
    Answers (exec (.lossClear c t slot v) s) (fun u => ∀ k, k < 8 → tget (u.cluster k).loss {} slot = {}) := by
  show Answers (execLossClear c t slot v s) _
  rw [execLossClear, State.onSeq_of_seqIssues _ h, if_pos ⟨hslot, hv⟩]
  refine Answers.next fun k hk => ?_
  rw [State.cluster_modClusters _ _ _ hk]
  dsimp only
  rw [tget_tset, if_pos rfl]

/-- Settles O45: every store acts on the state after the tick, which changes of the clusters only the sequencer that issues. -/
theorem sequencerTables : Obligations.SequencerTables := by
  unfold Obligations.SequencerTables
  exact ⟨sequencerTables_store, sequencerTables_hwm, sequencerTables_write, sequencerTables_commit, sequencerTables_lossRead,
    sequencerTables_lossClear⟩

end Sys2Proof.Machine
end

