-- ==== Sys2Proof/Proofs/LayerStarts.lean ====
section
/-!
PROOFS. A start on one core: its checks, the purse, and the layer that begins (05_program_model.md, Starting layers).
-/
set_option autoImplicit false
namespace Sys2Proof.Machine

/-! ### What holds a start back (R24, R165, R456) -/

theorem State.holdsStarts_congr {s t : State} (hpreempts : t.preempts = s.preempts) (hrtr : t.rtr = s.rtr)
    (hseq : ∀ k, (t.cluster k).seq.active = (s.cluster k).seq.active ∧ (t.cluster k).seq.stop = (s.cluster k).seq.stop) (c : Nat) :
    t.holdsStarts c = s.holdsStarts c := by
  simp only [State.holdsStarts, State.stopsDevice, State.hasSlice, hpreempts, hrtr, hseq]

/-! ### The layer begins (R163, R164) -/

/-- A pending start begins on an idle core that nothing holds back, and its cluster's purse stays. -/
theorem State.beginLayer_runs {s : State} {p : Nat} {ly : Layer} (hidle : (s.core p).running = none) (hpending : (s.core p).pending = some ly)
    (hholds : s.holdsStarts (p / 12) = false) :
    (∃ r, ((s.beginLayer p).core p).running = some r ∧ r.lcb = ly.lcb ∧ r.n = ly.n ∧ r.div = ly.div ∧ r.pc = ly.pc) ∧
    ((s.beginLayer p).cluster (p / 12)).purse = (s.cluster (p / 12)).purse := by
  unfold State.beginLayer
  extract_lets c
  rw [hidle, hpending]
  dsimp only
  rw [if_neg (Bool.eq_false_iff.1 hholds)]
  refine ⟨?_, ?_⟩
  · rw [State.core_modCore, if_pos rfl]
    exact ⟨_, rfl, rfl, rfl, rfl, rfl⟩
  · rw [State.cluster_modCore, State.cluster_modCluster, if_pos rfl]

/-- Landing buffers that a layer commits are beside the cores and the purses. -/
theorem State.commit_beside (bs : List Nat) (s : State) (c : Nat) :
    (bs.foldl (fun s b => s.modLb c b (·.committed)) s).cores = s.cores ∧
    ((bs.foldl (fun s b => s.modLb c b (·.committed)) s).cluster c).purse = (s.cluster c).purse := by
  induction bs generalizing s with
  | nil => exact ⟨rfl, rfl⟩
  | cons b bs ih =>
    obtain ⟨hcores, hpurse⟩ := ih (s.modLb c b (·.committed))
    refine ⟨hcores, hpurse.trans ?_⟩
    rw [State.modLb, State.cluster_modCluster, if_pos rfl]

/-- The layer that a start on one core places there. -/
def State.layerOf (s : State) (c : Nat) (w : WaitingStart) (l : List Byte) (div : Nat) : Layer :=
  { lcb := l, j := 0, n := w.cores.length, share := s.shareOf c w 0, pc := w.pc, step := (s.cluster c).seq.step
    status := ((w.buffers.filterMap (fun b => (tget (s.cluster c).lbs {} b).fault)).head?).getD .ok, buffers := w.buffers, div := div }

/-- A start is placed on its one core, where it begins (R163 step 6). -/
theorem State.place_single {s : State} {c p div : Nat} {w : WaitingStart} {l : List Byte} (hp : p / 12 = c) (hcores : w.cores = [p]) (hlcbs : w.lcbs = [l])
    (hahead : w.ahead = []) (hidle : (s.core p).running = none) (hholds : s.holdsStarts c = false) :
    (∃ r, ((s.place c w div).core p).running = some r ∧ r.lcb = l ∧ r.n = 1 ∧ r.div = div ∧ r.pc = w.pc) ∧
    ((s.place c w div).cluster c).purse = (s.cluster c).purse := by
  unfold State.place
  extract_lets n step fault l0 u v x
  rw [hahead, State.runAhead, List.filter_nil, List.foldl_nil]
  obtain ⟨hcore, hpurse⟩ := State.commit_beside w.buffers v c
  have hn : n = 1 := congrArg List.length hcores
  have hu : u = (s.modCore p (fun k => { k with pending := some (s.layerOf c w l div) })).beginLayer p := by
    have hzip : w.cores.zip (w.lcbs.zip (List.range n)) = [(p, l, 0)] := by
      rw [hcores, hlcbs, hn]
      rfl
    show (w.cores.zip (w.lcbs.zip (List.range n))).foldl _ s = _
    rw [hzip]
    rfl
  subst hp
  obtain ⟨⟨r, hr, hlcb, hrn, hrdiv, hrpc⟩, hbegun⟩ := State.beginLayer_runs (p := p)
    (s := s.modCore p (fun k => { k with pending := some (s.layerOf (p / 12) w l div) })) (ly := s.layerOf (p / 12) w l div) (by rw [State.core_modCore, if_pos rfl]; exact hidle) (by rw [State.core_modCore, if_pos rfl]) hholds
  rw [← hu] at hr hbegun
  clear_value u
  refine ⟨⟨r, ?_, hlcb, hrn.trans hn, hrdiv, hrpc⟩, ?_⟩
  · exact (congrArg (fun cs : Tab Core => (tget cs {} p).running) hcore).trans hr
  · refine hpurse.trans (Eq.trans ?_ hbegun)
    rw [State.cluster_modCluster, if_pos rfl]

/-! ### The purse admits (R468, R469) -/

/-- A start that the purse admits pays, and its layer begins with the divider of the admission. -/
theorem State.tryStart_pays {s : State} {c p : Nat} {w : WaitingStart} {l : List Byte} {q : Purse} {red : Bool} (hp : p / 12 = c)
    (hcores : w.cores = [p]) (hlcbs : w.lcbs = [l]) (hahead : w.ahead = []) (hidle : (s.core p).running = none) (hslot : (s.core p).pending = none)
    (hholds : s.holdsStarts c = false)
    (hadmits : (s.cluster c).purse.admits ((s.cluster c).purse.cost l 1).1 ((s.cluster c).purse.cost l 1).2 = some (q, red)) :
    (∃ r, (((s.tryStart c w).2).core p).running = some r ∧ r.lcb = l ∧ r.n = 1 ∧ r.div = (if red = true then q.div else 3) ∧ r.pc = w.pc) ∧
    (((s.tryStart c w).2).cluster c).purse.balance = q.balance ∧ (((s.tryStart c w).2).cluster c).purse.due = q.due := by
  have hfree : ¬ (w.cores.any (fun p => (s.core p).pending.isSome) = true) := by
    rw [hcores, List.any_cons, hslot]
    exact Bool.false_ne_true
  have hhead : w.lcbs.headD [] = l := by rw [hlcbs]; rfl
  have hone : w.cores.length = 1 := by rw [hcores]; rfl
  rw [State.tryStart, if_neg hfree]
  dsimp only
  rw [hhead, hone, hadmits]
  dsimp only
  generalize hpaid : s.modPurse c _ = paid
  have hbeside : (paid.cluster c).purse.balance = q.balance ∧ (paid.cluster c).purse.due = q.due ∧ paid.core p = s.core p ∧
      paid.holdsStarts c = s.holdsStarts c := by
    subst hpaid
    refine ⟨?_, ?_, rfl, ?_⟩
    · rw [State.cluster_modPurse, if_pos rfl]
    · rw [State.cluster_modPurse, if_pos rfl]
    · refine State.holdsStarts_congr (by rfl) (by rfl) (fun k => ?_) c
      rw [State.cluster_modPurse]
      split
      next heq => rw [heq]; exact ⟨rfl, rfl⟩
      next => exact ⟨rfl, rfl⟩
  obtain ⟨hbalance, hdue, hcore, hholds'⟩ := hbeside
  generalize hcounted : (paid.span (ctClu c 1) _).span (ctClu c 9) _ = counted
  have hspans : counted.core p = paid.core p ∧ counted.cluster c = paid.cluster c ∧ counted.holdsStarts c = paid.holdsStarts c := by
    subst hcounted
    exact ⟨rfl, rfl, rfl⟩
  obtain ⟨hcore', hcluster, hholds''⟩ := hspans
  clear hcounted hpaid
  generalize hgo : counted.modSeq c (fun q => { q with st := .running, waitOn := .none, waitingStart := none }) = v
  have hv : v.core p = counted.core p ∧ (v.cluster c).purse = (counted.cluster c).purse ∧ v.holdsStarts c = counted.holdsStarts c := by
    subst hgo
    refine ⟨rfl, ?_, ?_⟩
    · rw [State.cluster_modSeq, if_pos rfl]
    · refine State.holdsStarts_congr (by rfl) (by rfl) (fun k => ?_) c
      rw [State.cluster_modSeq]
      split
      next heq => rw [heq]; exact ⟨rfl, rfl⟩
      next => exact ⟨rfl, rfl⟩
  obtain ⟨hcore'', hpurse, hholds'''⟩ := hv
  obtain ⟨hruns, hkept⟩ := State.place_single (s := v) (div := if red = true then q.div else 3) hp hcores hlcbs hahead
    (by rw [hcore'', hcore', hcore]; exact hidle) (hholds'''.trans (hholds''.trans (hholds'.trans hholds)))
  refine ⟨hruns, ?_, ?_⟩
  · rw [hkept, hpurse, hcluster]; exact hbalance
  · rw [hkept, hpurse, hcluster]; exact hdue

/-! ### The instruction (R163, R178) -/

/-- With no store on its way, GO reads no register that has not retired. -/
theorem State.goReads_of_nil {s : State} {c : Nat} (h : (s.cluster c).seq.cfg = []) (p : Nat) : s.goReads c p = s := by
  unfold State.goReads
  extract_lets now late
  have hlate : late = [] := by
    show ((s.cluster c).seq.cfg.filter _).mergeSort _ = []
    rw [h, List.filter_nil, List.mergeSort_nil]
  rw [hlate]
  rfl

/-- A start on core p alone, as its checks let it go on. -/
def State.startOf (s : State) (c p : Nat) (buffers : List Nat) : WaitingStart :=
  { cores := [p], broadcast := false, pc := (s.cluster c).seq.pc, lcbs := [s.latched p], buffers := buffers, ahead := [] }

theorem State.startOn_single {s : State} {c p : Nat} (hload : lcbCheck s c p (s.latched p) = none) (hpermit : s.permitCore p (s.latched p) = none)
    (buffers : List Nat) : s.startOn c false [p] buffers [] = (s.tryStart c (s.startOf c p buffers)).2 := by
  have hchecked : s.firstRefused c [p] = none := by
    rw [State.firstRefused, List.findSome?_cons, hload]
    rfl
  rw [State.startOn, hchecked]
  dsimp only
  rw [if_neg Bool.false_ne_true, hpermit]
  rfl

theorem sequencerControl_start (c pos : Nat) (t : Tick) (bs : List Nat) (q : Purse) (red : Bool) (s : State) (h : SeqIssues s c t) (hpos : pos < 12)
    (hstart : ∀ u, u = s.tick c t →
      (u.cluster c).seq.active = true ∧ (u.cluster c).seq.stop = false ∧ u.stopsDevice = false ∧ (u.cluster c).seq.cfg = [] ∧
      lcbCheck u c (c * 12 + pos) (u.core (c * 12 + pos)).lcb = none ∧ u.permitCore (c * 12 + pos) (u.core (c * 12 + pos)).lcb = none ∧
      (u.core (c * 12 + pos)).pending = none ∧ (u.core (c * 12 + pos)).running = none ∧
      (u.cluster c).purse.admits ((u.cluster c).purse.cost (u.core (c * 12 + pos)).lcb 1).1 ((u.cluster c).purse.cost (u.core (c * 12 + pos)).lcb 1).2 =
        some (q, red)) :
    Answers (exec (.layerStart c t (.core pos) bs [] []) s) (fun u =>
      (∃ ly, (u.core (c * 12 + pos)).running = some ly ∧ ly.lcb = ((s.tick c t).core (c * 12 + pos)).lcb ∧ ly.n = 1 ∧
        ly.div = (if red = true then q.div else 3) ∧ ly.pc = ((s.tick c t).cluster c).seq.pc) ∧
      (u.cluster c).purse.balance = q.balance ∧ (u.cluster c).purse.due = q.due) := by
  show Answers (execLayerStart c t (.core pos) bs [] [] s) _
  rw [execLayerStart, State.onSeq_of_seqIssues _ h]
  have hu := hstart _ rfl
  generalize s.tick c t = u at hu ⊢
  obtain ⟨hactive, hstop, hdevice, hcfg, hload, hpermit, hslot, hidle, hadmits⟩ := hu
  have hp : (c * 12 + pos) / 12 = c := by omega
  have haddressed : u.addressed c (.core pos) = [c * 12 + pos] := if_pos hpos
  have hreads : (u.addressed c (.core pos)).foldl (fun s p => s.goReads c p) (u.eccAll []) = u := by
    rw [haddressed]
    exact State.goReads_of_nil hcfg _
  have hreached : u.reached c (.core pos) = [c * 12 + pos] := haddressed
  dsimp only
  rw [hreads, if_neg (not_or.2 ⟨not_not_intro hactive, Bool.eq_false_iff.1 hstop⟩), hreached]
  dsimp only
  rw [show Target.isBroadcast (.core pos) = false from rfl, State.startOn_single hload hpermit]
  refine Answers.next ?_
  exact State.tryStart_pays (w := u.startOf c (c * 12 + pos) bs) hp rfl rfl rfl hidle hslot
    (by rw [State.holdsStarts, hdevice, hstop, Bool.and_false]; rfl) hadmits

end Sys2Proof.Machine
end

