-- ==== Sys2Proof/Proofs/SequencerControl.lean ====
section
/-!
PROOFS. Waits, timers, completion, notes, faults and the debug halt of a sequencer (05_program_model.md, The sequencer).
-/
set_option autoImplicit false
namespace Sys2Proof.Machine

theorem State.active_modSeq (s : State) (c : Nat) {f : Sequencer → Sequencer} (hf : ∀ q, (f q).active = q.active) (k : Nat) :
    ((s.modSeq c f).cluster k).seq.active = (s.cluster k).seq.active := by
  rw [State.cluster_modSeq]
  split
  next heq => rw [heq]; exact hf _
  next => rfl

theorem State.active_tick (s : State) (c : Nat) (t : Tick) (k : Nat) : ((s.tick c t).cluster k).seq.active = (s.cluster k).seq.active := by
  rw [State.cluster_tick, State.active_modSeq (hf := ?_), State.cluster_advance, State.active_modSeq (hf := ?_)]
  · exact fun _ => rfl
  · exact fun _ => rfl

/-- A logical core that the grade does not have ends the command (R107, R110). -/
theorem sequencerControl_absent (c n : Nat) (t : Tick) (bs : List Nat) (ahead : List (Nat × Nat)) (s : State) (h : SeqIssues s c t)
    (hnone : (s.tick c t).physOf n = none) (hactive : (s.cluster c).seq.active = true) (hstop : ((s.tick c t).cluster c).seq.stop = false) :
    Answers (exec (.layerStart c t (.logical n) bs ahead []) s) (fun u => (u.cluster c).seq.active = false ∧
      (u.cluster c).seq.ended = some .unitAbsent ∧ (u.cluster c).seq.haltCause = 6) := by
  show Answers (execLayerStart c t (.logical n) bs ahead [] s) _
  rw [execLayerStart, State.onSeq_of_seqIssues _ h]
  have hactive' : ((s.tick c t).cluster c).seq.active = true := (State.active_tick s c t c).trans hactive
  generalize s.tick c t = u at hnone hstop hactive'
  have hreads : (u.addressed c (.logical n)).foldl (fun s p => s.goReads c p) (u.eccAll []) = u := by
    rw [State.addressed, hnone]
    rfl
  dsimp only
  rw [hreads, if_neg (not_or.2 ⟨not_not_intro hactive', Bool.eq_false_iff.1 hstop⟩), hnone]
  show Answers (.next (u.refuseLogical c n)) _
  have hlog : (u.absentEvent c n false).clusters = u.clusters := State.clusters_log ..
  obtain ⟨hended, hst, hcause, -, -⟩ := State.haltSeq_ended (s := u.absentEvent c n false) (c := c)
    (by rw [State.cluster_of_clusters hlog]; exact hactive') .unitAbsent 6
  exact Answers.next ⟨hended, hst, hcause⟩

theorem sequencerControl_wait (c mask : Nat) (t : Tick) (s : State) (h : SeqIssues s c t) :
    Answers (exec (.layerWait c t mask) s) (fun u => (u.cluster c).seq.layerMask = mask % 4096 ∧
      ((s.tick c t).idleMask c (mask % 4096) = false → (u.cluster c).seq.st = .waiting ∧ (u.cluster c).seq.waitOn = .layers)) := by
  show Answers (execLayerWait c t mask s) _
  rw [execLayerWait, State.onSeq_of_seqIssues _ h]
  generalize s.tick c t = u
  dsimp only
  rw [show (u.modSeq c (fun q => { q with layerMask := mask % 4096 })).idleMask c (mask % 4096) = u.idleMask c (mask % 4096) from rfl]
  refine Answers.next ?_
  split
  next hidle =>
    rw [State.cluster_modSeq, if_pos rfl]
    exact ⟨rfl, fun hbusy => Bool.noConfusion (hidle.symm.trans hbusy)⟩
  next =>
    rw [State.cluster_modSeq, if_pos rfl, State.cluster_modSeq, if_pos rfl]
    exact ⟨rfl, fun _ => ⟨rfl, rfl⟩⟩

/-! ### A layer that completes (R164, R165) -/

theorem Core.layers_landWrites (k : Core) (t : Nat) : (k.landWrites t).layers = k.layers := by
  rw [Core.landWrites]
  dsimp only
  generalize k.writes.filter (fun w => decide (w.land ≤ t)) = due
  induction due generalizing k with
  | nil => rfl
  | cons w ws ih =>
    rw [List.foldl_cons, ih]
    split
    · rfl
    · rfl

/-- A layer that retires leaves its status and one more layer (R164). -/
theorem State.retireLayer_tally {s : State} {p : Nat} {ly : Layer} (hrun : (s.core p).running = some ly) (st : Status) :
    ((s.retireLayer p st).core p).lastStatus = st ∧ ((s.retireLayer p st).core p).layers = ((s.core p).layers + 1) % 65536 := by
  unfold State.retireLayer
  extract_lets c s₁ s₂ s₃
  rw [hrun]
  have h₁ : (s₁.core p).lastStatus = st ∧ (s₁.core p).layers = ((s.core p).layers + 1) % 65536 := by
    show ((s.modCore p _).core p).lastStatus = st ∧ ((s.modCore p _).core p).layers = _
    rw [State.core_modCore, if_pos rfl]
    exact ⟨rfl, congrArg (fun n => (n + 1) % 65536) (Core.layers_landWrites ..)⟩
  have h₃ : s₃.core p = s₁.core p := rfl
  clear_value s₁ s₃
  obtain ⟨hstatus, hlayers⟩ := (State.releaseBuffers_sameStores s₃ c ly.buffers (hk := .refl s₃)).tally p
  show ((s₃.releaseBuffers c ly.buffers).core p).lastStatus = st ∧ ((s₃.releaseBuffers c ly.buffers).core p).layers = _
  rw [hstatus, hlayers, h₃]
  exact h₁

theorem sequencerControl_complete (p : Nat) (ly : Layer) (s : State) (hp : p < 96) (hrun : (s.core p).running = some ly)
    (hends : (s.core p).canComplete = true) :
    Answers (exec (.layerComplete p) s) (fun t => (t.core p).lastStatus = ly.status ∧ (t.core p).layers = ((s.core p).layers + 1) % 65536) := by
  show Answers (execLayerComplete p s) _
  rw [execLayerComplete, hrun]
  dsimp only
  rw [if_pos ⟨hp, hends⟩]
  generalize hu : (if s.overran p ly = true then s.span (ctClu (p / 12) 6) 1 else s) = u
  have hcores : u.cores = s.cores := by subst hu; split <;> rfl
  have hcore : u.core p = s.core p := congrArg (fun cs : Tab Core => tget cs {} p) hcores
  obtain ⟨hstatus, hlayers⟩ := State.retireLayer_tally (s := u) (p := p) (ly := ly) (by rw [hcore]; exact hrun) ly.status
  obtain ⟨hstatus', hlayers'⟩ := (State.afterLayer_sameStores (u.retireLayer p ly.status) p ly.status (hk := .refl _)).tally p
  rw [hcore] at hlayers
  exact Answers.next ⟨hstatus'.trans hstatus, hlayers'.trans hlayers⟩

/-! ### Timers (R164) -/

theorem sequencerControl_timer (c n : Nat) (t : Tick) (v : W64) (s : State) (h : SeqIssues s c t) (hn : n < 4) :
    Answers (exec (.timerWait c t n v) s) (fun u => tget (u.cluster c).seq.timers 0 n = v ∧
      (s.now < v.toNat → (u.cluster c).seq.st = .waiting ∧ (u.cluster c).seq.waitOn = .timer ∧ (u.cluster c).seq.timerOn = some n)) := by
  show Answers (execTimerWait c t n v s) _
  rw [execTimerWait, State.onSeq_of_seqIssues _ h, if_pos hn]
  have hticked := State.tick_only s c t (hm := Nat.and_self _) (hk := .refl _ s)
  have hnow : (s.tick c t).now = s.now := State.now_congr (hticked.aoNs rfl) (hticked.devOff rfl) (hticked.time rfl)
  generalize s.tick c t = u at hnow
  dsimp only
  rw [show (u.modSeq c (fun q => { q with timers := tset q.timers 0 n v })).now = u.now from rfl, hnow]
  refine Answers.next ?_
  split
  next hpast =>
    rw [State.cluster_modSeq, if_pos rfl]
    exact ⟨by dsimp only; rw [tget_tset, if_pos rfl], fun hfuture => absurd hpast (Nat.not_le.2 hfuture)⟩
  next =>
    rw [State.cluster_modSeq, if_pos rfl, State.cluster_modSeq, if_pos rfl]
    exact ⟨by dsimp only; rw [tget_tset, if_pos rfl], fun _ => ⟨rfl, rfl, rfl⟩⟩

theorem sequencerControl_expiry (c n : Nat) (s : State) (htimer : (s.cluster c).seq.timerOn = some n) (hwait : (s.cluster c).seq.st = .waiting) :
    Answers (exec (.timerExpiry c) s) (fun t => (t.cluster c).seq.st = .running ∧ (t.cluster c).seq.timerOn = none) := by
  show Answers (execTimerExpiry c s) _
  rw [execTimerExpiry, htimer]
  have hclusters := (State.atDevice_only s (tget (s.cluster c).seq.timers 0 n).toNat (hm := Nat.and_self _) (hk := .refl _ s)).clusters rfl
  refine Answers.next ?_
  rw [State.cluster_modSeq, if_pos rfl, State.cluster_of_clusters hclusters, Sequencer.goOn, hwait]
  exact ⟨rfl, rfl⟩

/-! ### Completion, notes and faults (R159, R164, R165, R503) -/

theorem sequencerControl_completion (c : Nat) (t : Tick) (w : W64) (s : State) (h : SeqIssues s c t) :
    ((s.tick c t).layersLeft c = false → Answers (exec (.seqCompletion c t w) s) (fun u => (u.cluster c).seq.active = false ∧
      (u.cluster c).seq.ended = some (Status.ofCode (fld w.toNat 0 8)) ∧ (u.cluster c).seq.result = BitVec.ofNat 32 (fld w.toNat 32 32))) ∧
    ((s.tick c t).layersLeft c = true → Answers (exec (.seqCompletion c t w) s) (fun u => (u.cluster c).seq.st = .waiting ∧
      (u.cluster c).seq.finish = some (Status.ofCode (fld w.toNat 0 8), BitVec.ofNat 32 (fld w.toNat 32 32)))) := by
  have hexec : exec (.seqCompletion c t w) s = execSeqCompletion c t w s := rfl
  rw [hexec, execSeqCompletion, State.onSeq_of_seqIssues _ h]
  generalize s.tick c t = u
  dsimp only
  refine ⟨fun hnone => ?_, fun hleft => ?_⟩
  · rw [if_neg (Bool.eq_false_iff.1 hnone)]
    obtain ⟨hactive, hended, -, hword, -⟩ := State.endOn_ended u c (Status.ofCode (fld w.toNat 0 8)) 0 false (BitVec.ofNat 32 (fld w.toNat 32 32))
    exact Answers.next ⟨hactive, hended, hword⟩
  · rw [if_pos hleft]
    refine Answers.next ?_
    rw [State.cluster_modSeq, if_pos rfl]
    exact ⟨rfl, rfl⟩

theorem sequencerControl_note (c : Nat) (t : Tick) (bs : List Byte) (s : State) (h : SeqIssues s c t) :
    Answers (exec (.programNote c t bs) s) (fun u => Logged (s.tick c t) u .programNote (srcCluster c)) := by
  show Answers (execProgramNote c t bs s) _
  rw [execProgramNote, State.onSeq_of_seqIssues _ h]
  exact Answers.next (Logged.logAs _ _ _ _ _ _ (by decide))

theorem sequencerControl_faults (c : Nat) (t : Tick) (s : State) (h : SeqIssues s c t) (hactive : (s.cluster c).seq.active = true) :
    Answers (exec (.seqAddressFault c t) s) (fun u => (u.cluster c).seq.active = false ∧ (u.cluster c).seq.ended = some .malformed ∧
      (u.cluster c).seq.haltCause = 3) ∧
    Answers (exec (.seqInstructionFault c t) s) (fun u => (u.cluster c).seq.active = false ∧ (u.cluster c).seq.ended = some .malformed ∧
      (u.cluster c).seq.haltCause = 4) := by
  have hactive' : ((s.tick c t).cluster c).seq.active = true := (State.active_tick s c t c).trans hactive
  have haddress : exec (.seqAddressFault c t) s = execSeqAddressFault c t s := rfl
  have hinstruction : exec (.seqInstructionFault c t) s = execSeqInstructionFault c t s := rfl
  rw [haddress, hinstruction, execSeqAddressFault, execSeqInstructionFault, State.onSeq_of_seqIssues _ h, State.onSeq_of_seqIssues _ h]
  obtain ⟨hoff, hended, hcause, -, -⟩ := State.haltSeq_ended hactive' .malformed 3
  obtain ⟨hoff', hended', hcause', -, -⟩ := State.haltSeq_ended hactive' .malformed 4
  exact ⟨Answers.next ⟨hoff, hended, hcause⟩, Answers.next ⟨hoff', hended', hcause'⟩⟩

/-- An uncorrectable word of a sequencer's memory fences its cluster and leaves it idle (R159, R492, R499). -/
theorem State.seqMemLost_fences (s : State) (c : Nat) :
    ((s.seqMemLost c).unit (clusterName c).code).perm = .fenced ∧ ((s.seqMemLost c).cluster c).seq.st = .idle := by
  unfold State.seqMemLost
  extract_lets s₁ s₂
  have hfenced : (s₂.unit (clusterName c).code).perm = .fenced := State.perm_contain UnitKind.noConfusion
  clear_value s₂
  have horders := State.flushCrossings_sameOrders s₂ (· == c) (hk := .refl s₂)
  generalize s₂.flushCrossings (· == c) = x at horders
  obtain ⟨flushed, s₃⟩ := x
  dsimp only at horders ⊢
  have horders' := State.resetCluster_sameOrders s₃ c true (hk := horders)
  have hidle := State.idle_resetCluster s₃ c true
  generalize s₃.resetCluster c true = y at horders' hidle
  obtain ⟨entries, coins, s₄⟩ := y
  dsimp only at horders' hidle ⊢
  refine ⟨?_, ?_⟩
  · rw [(State.closeWindow_sameOrders (hk := .refl _) ..).perm, (State.resetEvent_sameOrders (hk := .refl _) ..).perm, horders'.perm, hfenced]
  · rw [State.closeWindow, State.cluster_modErr, State.cluster_of_clusters (State.clusters_resetEvent ..), hidle]

theorem sequencerControl_memory (c : Nat) (s : State) (hc : c < 8) :
    Answers (exec (.seqMemUncorrected c) s) (fun t => (t.unit (clusterName c).code).perm = .fenced ∧ (t.cluster c).seq.st = .idle) := by
  show Answers (execSeqMemUncorrected c s) _
  rw [execSeqMemUncorrected, if_pos hc]
  exact Answers.next (State.seqMemLost_fences s c)

/-- A poisoned instruction does what the error of its memory does, whatever it was (R159, R213). -/
theorem State.onSeq_lost {s : State} {c : Nat} {x : Tick} (hc : c < 8) (hrun : (s.cluster c).seq.st = .running) (hpoint : s.col.pointWait = false)
    (hclock : (s.cluster c).clock.stopped = false) (hstops : s.stopsDevice = false)
    (hlost : (s.cluster c).seq.imemBad.contains (x.pc % 2 ^ 18 / 64) = true) (f : State → State) :
    (.next (s.onSeq c x f) : Result) = exec (.seqMemUncorrected c) (s.tick c x) := by
  have hexec : exec (.seqMemUncorrected c) (s.tick c x) = execSeqMemUncorrected c (s.tick c x) := rfl
  rw [hexec, execSeqMemUncorrected, if_pos hc, State.onSeq,
    if_pos ⟨hc, hrun, Bool.eq_false_iff.1 hpoint, Bool.eq_false_iff.1 hclock, fun hd => Bool.noConfusion (hstops.symm.trans hd.1)⟩,
    if_pos ((State.tick_fetchLost s c x).trans hlost)]

theorem sequencerControl_poisoned (c : Nat) (x : Tick) (n : Nat) (v : W64) (bs : List Byte) (s : State) (hc : c < 8)
    (hrun : (s.cluster c).seq.st = .running) (hpoint : s.col.pointWait = false) (hclock : (s.cluster c).clock.stopped = false)
    (hstops : s.stopsDevice = false) (hlost : (s.cluster c).seq.imemBad.contains (x.pc % 2 ^ 18 / 64) = true) :
    let lost := exec (.seqMemUncorrected c) (s.tick c x)
    exec (.programNote c x bs) s = lost ∧ exec (.lossRead c x n) s = lost ∧ exec (.hwmClear c x n v) s = lost ∧
    exec (.timerWait c x n v) s = lost ∧ exec (.layerWait c x n) s = lost ∧ exec (.seqCompletion c x v) s = lost := by
  have hall := State.onSeq_lost hc hrun hpoint hclock hstops hlost
  exact ⟨hall _, hall _, hall _, hall _, hall _, hall _⟩

/-! ### Debug (R157, R428, R560) -/

theorem sequencerControl_halt (c : Nat) (s : State) (hc : c < 8) (hdebug : s.sec.debugEnd.isSome = true)
    (hst : (s.cluster c).seq.st = .running ∨ (s.cluster c).seq.st = .waiting) :
    Answers (exec (.debugHalt c) s) (fun t => (t.cluster c).seq.st = .halted ∧ (t.cluster c).seq.haltCause = 1 ∧
      (t.cluster c).seq.resume = (s.cluster c).seq.st) := by
  show Answers (execDebugHalt c s) _
  rw [execDebugHalt, if_pos ⟨hc, hdebug, hst⟩]
  refine Answers.next ?_
  rw [State.cluster_modSeq, if_pos rfl]
  exact ⟨rfl, rfl, rfl⟩

theorem sequencerControl_resume (c : Nat) (s : State) (hc : c < 8) (hst : (s.cluster c).seq.st = .halted)
    (hstart : (s.cluster c).seq.waitingStart = none) :
    Answers (exec (.debugResume c) s) (fun t => (t.cluster c).seq.st = (s.cluster c).seq.resume ∧ (t.cluster c).seq.haltCause = 0) := by
  show Answers (execDebugResume c s) _
  rw [execDebugResume, if_pos ⟨hc, hst⟩]
  dsimp only
  generalize hu : s.modSeqWaits c _ = u
  have hseq : (u.cluster c).seq = (s.cluster c).seq := by
    subst hu
    rw [State.modSeqWaits, State.cluster_modCluster, if_pos rfl]
  generalize hv : u.modSeq c _ = v
  have hresumed : (v.cluster c).seq.st = (s.cluster c).seq.resume ∧ (v.cluster c).seq.haltCause = 0 ∧ (v.cluster c).seq.waitingStart = none := by
    subst hv
    rw [State.cluster_modSeq, if_pos rfl]
    dsimp only
    rw [hseq]
    exact ⟨rfl, rfl, hstart⟩
  obtain ⟨hst', hcause, hnone⟩ := hresumed
  rw [State.retryStart, hnone]
  exact Answers.next ⟨hst', hcause⟩

/-- Settles O46, clause by clause: an instruction acts on the state after the tick, and a halt's end of the command survives the stop of
the other clusters. -/
theorem sequencerControl : Obligations.SequencerControl := by
  unfold Obligations.SequencerControl
  exact ⟨sequencerControl_start, sequencerControl_absent, sequencerControl_wait, sequencerControl_complete, sequencerControl_timer,
    sequencerControl_expiry, sequencerControl_completion, sequencerControl_note, sequencerControl_faults, sequencerControl_memory,
    sequencerControl_poisoned, sequencerControl_halt, sequencerControl_resume⟩

end Sys2Proof.Machine
end

