-- ==== Sys2Proof/Proofs/BringUp.lean ====
section
/-!
PROOFS. Cold bring-up, stage by stage (19_start_up.md, Cold bring-up; 18_security.md, Firmware images and Boot flow).
-/
set_option autoImplicit false
namespace Sys2Proof.Machine

/-! ### Cold reset (R316, R317, R547, R568) -/

/-- Legal levels on every pin give the position that they spell (R317). -/
theorem State.position_readStraps (s : State) {pins : List (List Nat)} {ls : Nat → Nat}
    (h : ∀ i, i < 16 → pinLevel (pins.getD i []) = some (ls i)) :
    (s.readStraps pins).dev.position = (List.range 16).foldl (fun a i => a + ls i * 4 ^ i) 0 := by
  have hlevels (i : Nat) (hi : i < 16) : ((List.range 16).map (fun i => pinLevel (pins.getD i []))).getD i none = some (ls i) := by
    rw [List.getD_eq_getElem?_getD, List.getElem?_map, List.getElem?_range hi]
    exact h i hi
  have hlegal : (List.range 16).find? (fun i => (((List.range 16).map (fun i => pinLevel (pins.getD i []))).getD i none).isNone) = none := by
    refine List.find?_eq_none.2 fun i hi => ?_
    rw [hlevels i (List.mem_range.1 hi)]
    exact Bool.false_ne_true
  have hsum (l : List Nat) (hl : ∀ i ∈ l, i < 16) (a : Nat) :
      l.foldl (fun a i => a + ((((List.range 16).map (fun i => pinLevel (pins.getD i []))).getD i none).getD 0) * 4 ^ i) a =
        l.foldl (fun a i => a + ls i * 4 ^ i) a := by
    induction l generalizing a with
    | nil => rfl
    | cons i l ih =>
      rw [List.foldl_cons, List.foldl_cons, hlevels i (hl i List.mem_cons_self), ih fun j hj => hl j (List.mem_cons_of_mem i hj)]
      rfl
  rw [State.readStraps, hlegal]
  exact hsum _ (fun i hi => List.mem_range.1 hi) 0

/-- The position check writes the state of the position, not the position (R321). -/
theorem State.position_checkPosition (s : State) : s.checkPosition.dev.position = s.dev.position := by
  have hlog (t : State) (c : EventClass) (src : Nat) (data : List (Nat × Nat)) : (t.log c src data).dev = t.dev :=
    (State.log_only t c src data (hm := Nat.and_self _) (hk := .refl _ t)).dev rfl
  unfold State.checkPosition
  extract_lets u plan v
  have hv : v.dev.position = s.dev.position := by
    show u.dev.position = s.dev.position
    unfold u
    split
    · rw [hlog]
    · rfl
  clear_value v plan
  split
  · rw [hlog]; exact hv
  split
  · exact hv
  split
  · rw [hlog]; exact hv
  · exact hv

theorem State.dev_enableRail (s : State) (r : Nat) : (s.enableRail r).dev = s.dev :=
  (State.enableRail_only s r (hm := Nat.and_self _) (hk := .refl _ s)).dev rfl

/-- Stage 2 begins, with its first rail or with a missing reference (R567, R568). -/
theorem State.startRails_dev (s : State) (linkRef : Bool) :
    (s.startRails linkRef).dev.stage = 2 ∧ (s.startRails linkRef).dev.position = s.dev.position := by
  rw [State.startRails]
  split
  · rw [State.dev_enableRail]
    exact ⟨rfl, rfl⟩
  · rw [State.refMissing, (State.log_only _ _ _ _ (hm := Nat.and_self _) (hk := .refl _ _)).dev rfl]
    exact ⟨rfl, rfl⟩

/-- What the start of a cold bring-up keeps: the fuses and the straps' position, with no unit's words and no job. -/
def State.Started (s₀ s : State) (fuses : Fuses) : Prop :=
  s.fuses = fuses ∧ s.units = [] ∧ s.job = {} ∧ s.dev.position = s₀.dev.position

/-- The mask of the operations that touch neither fuses, units, job nor the device's own block. -/
theorem State.Started.only {s₀ s t : State} {fuses : Fuses} (hs : s₀.Started s fuses) (h : Only 8589801183 s t) : s₀.Started t fuses := by
  obtain ⟨hfuses, hunits, hjob, hposition⟩ := hs
  exact ⟨(h.fuses rfl).trans hfuses, (h.units rfl).trans hunits, (h.job rfl).trans hjob, (congrArg (·.position) (h.dev rfl)).trans hposition⟩

theorem bringUp_cold (pins : List (List Nat)) (ref : Bool) (alt : List Nat) (s : State) :
    Answers (exec (.coldReset pins ref alt) s) (fun t => t.fuses = s.fuses ∧ t.units = [] ∧ t.job = {} ∧ (t.sec.halt = true ∨ t.dev.stage = 2) ∧
      (∀ ls : Nat → Nat, (∀ i, i < 16 → pinLevel (pins.getD i []) = some (ls i)) →
        t.dev.position = (List.range 16).foldl (fun a i => a + ls i * 4 ^ i) 0)) := by
  show Answers (execColdReset pins ref alt s) _
  have hread : (s.powerLoss.readStraps pins).Started (s.powerLoss.readStraps pins) s.fuses := by
    have hstraps := State.readStraps_only s.powerLoss pins (hm := Nat.and_self _) (hk := .refl _ _)
    exact ⟨hstraps.fuses rfl, hstraps.units rfl, hstraps.job rfl, rfl⟩
  have hspell (ls : Nat → Nat) (h : ∀ i, i < 16 → pinLevel (pins.getD i []) = some (ls i)) := State.position_readStraps s.powerLoss h
  unfold execColdReset
  extract_lets v settle w
  have hv : (s.powerLoss.readStraps pins).Started v s.fuses := hread.only (State.total_only _ 2 1 (hm := by decide) (hk := .refl _ _))
  have hw : (s.powerLoss.readStraps pins).Started w s.fuses := hv
  clear_value w
  have hboot : (s.powerLoss.readStraps pins).Started w.boot.2 s.fuses := hw.only (State.boot_only w (hm := by decide) (hk := .refl _ w))
  generalize s.powerLoss.readStraps pins = u at hboot hspell
  generalize w.boot = x at hboot
  obtain ⟨fell, y⟩ := x
  dsimp only at hboot ⊢
  have hended (t : State) (ht : u.Started t s.fuses) (hstage : t.sec.halt = true ∨ t.dev.stage = 2) : t.fuses = s.fuses ∧ t.units = [] ∧ t.job = {} ∧
      (t.sec.halt = true ∨ t.dev.stage = 2) ∧ (∀ ls : Nat → Nat, (∀ i, i < 16 → pinLevel (pins.getD i []) = some (ls i)) →
        t.dev.position = (List.range 16).foldl (fun a i => a + ls i * 4 ^ i) 0) := by
    obtain ⟨hfuses, hunits, hjob, hposition⟩ := ht
    exact ⟨hfuses, hunits, hjob, hstage, fun ls hls => hposition.trans (hspell ls hls)⟩
  split
  next hhalt => exact Answers.next (hended y hboot (.inl hhalt))
  next =>
    generalize hz₁ : fell.foldl _ y = z₁
    have h₁ : u.Started z₁ s.fuses :=
      hboot.only (hz₁ ▸ Only.foldl (fun t x ht => State.log_only t _ _ _ (hm := by decide) (hk := ht)) (.refl _ y))
    clear hz₁
    generalize hz₂ : (z₁.modDev (fun d => { d with stage := 1 })).scan = z₂
    have hstaged : u.Started (z₁.modDev (fun d => { d with stage := 1 })) s.fuses := h₁
    have h₂ : u.Started z₂ s.fuses := hstaged.only (hz₂ ▸ State.scan_only _ (hm := by decide) (hk := .refl _ _))
    clear hz₂
    generalize hz₃ : z₂.modSec _ = z₃
    have h₃ : u.Started z₃ s.fuses := hz₃ ▸ h₂
    clear hz₃
    generalize hz₄ : z₃.ledgerAppend 2 _ = z₄
    have h₄ : u.Started z₄ s.fuses := h₃.only (hz₄ ▸ State.ledgerAppend_only z₃ 2 _ 0 (hm := by decide) (hk := .refl _ z₃))
    clear hz₄
    have h₅ : u.Started z₄.checkPosition s.fuses := by
      have hcheck := State.checkPosition_only z₄ (hm := Nat.and_self _) (hk := .refl _ z₄)
      obtain ⟨hfuses, hunits, hjob, hposition⟩ := h₄
      exact ⟨(hcheck.fuses rfl).trans hfuses, (hcheck.units rfl).trans hunits, (hcheck.job rfl).trans hjob,
        (State.position_checkPosition z₄).trans hposition⟩
    generalize z₄.checkPosition = z₅ at h₅
    generalize hz₆ : ((z₅.setSlot 6 (planHash z₅.dev.plan)).placeTime).reidentifyAll = z₆
    have h₆ : u.Started z₆ s.fuses :=
      h₅.only (hz₆ ▸ State.reidentifyAll_only _ (hm := by decide) (hk := State.placeTime_only _ (hm := by decide) (hk :=
        State.setSlot_only _ _ _ (hm := by decide) (hk := .refl _ z₅))))
    clear hz₆
    obtain ⟨hstage, hposition⟩ := State.startRails_dev z₆ ref
    have hrails := State.startRails_only z₆ ref (hm := Nat.and_self _) (hk := .refl _ z₆)
    obtain ⟨hfuses, hunits, hjob, hposition'⟩ := h₆
    exact Answers.next (hended _ ⟨(hrails.fuses rfl).trans hfuses, (hrails.units rfl).trans hunits, (hrails.job rfl).trans hjob,
      hposition.trans hposition'⟩ (.inr hstage))

/-! ### Rails and references (R567 to R569) -/

theorem State.good_enableRail (s : State) (r : Nat) :
    (s.enableRail r).rails.good = s.rails.good ∧ (s.enableRail r).rails.enabled = s.rails.enabled ++ [r] := by
  rw [State.enableRail]
  dsimp only
  split <;> exact ⟨rfl, rfl⟩

theorem State.railsDone_parts (s : State) : s.railsDone.rails = s.rails ∧ s.railsDone.dev.stage = 3 := by
  rw [State.railsDone, State.pcieCheck]
  split <;> exact ⟨rfl, rfl⟩

theorem bringUp_rail (r : Nat) (s : State) (hstage : s.dev.stage = 2) (hok : s.dev.railFailed = false) (hlast : s.rails.enabled.getLast? = some r)
    (hgood : s.rails.good.contains r = false) (hlow : s.rails.low.contains r = false) :
    Answers (exec (.railPowerGood r) s) (fun t => t.rails.good = s.rails.good ++ [r] ∧
      (∀ x, railOrder.find? (fun x => !s.rails.enabled.contains x) = some x → t.rails.enabled = s.rails.enabled ++ [x]) ∧
      (railOrder.all s.rails.enabled.contains = true → t.dev.stage = 3)) ∧
    Answers (exec (.railEnableTimeout r) s) (fun t => t.dev.railFailed = true ∧ t.dev.stage = 2 ∧ Logged s t .railEnableFail (srcRail r)) := by
  have hgoodExec : exec (.railPowerGood r) s = execRailPowerGood r s := rfl
  have htimeout : exec (.railEnableTimeout r) s = execRailEnableTimeout r s := rfl
  have hwaits : s.dev.stage = 2 ∧ ¬ s.dev.railFailed = true ∧ s.rails.enabled.getLast? = some r ∧ ¬ s.rails.good.contains r = true :=
    ⟨hstage, Bool.eq_false_iff.1 hok, hlast, Bool.eq_false_iff.1 hgood⟩
  rw [hgoodExec, htimeout, execRailPowerGood, execRailEnableTimeout, if_neg (Bool.eq_false_iff.1 hlow), if_pos hwaits, if_pos hwaits]
  refine ⟨?_, ?_⟩
  · dsimp only
    generalize hu : ({ s with rails := { s.rails with good := s.rails.good ++ [r] } } : State) = u
    have hrails : u.rails.good = s.rails.good ++ [r] ∧ u.rails.enabled = s.rails.enabled := hu ▸ ⟨rfl, rfl⟩
    obtain ⟨hg, he⟩ := hrails
    clear hu
    cases hnext : railOrder.find? (fun x => !s.rails.enabled.contains x) with
    | some x =>
      obtain ⟨hg', he'⟩ := State.good_enableRail u x
      refine Answers.next ⟨hg'.trans hg, fun y hy => ?_, fun hall => ?_⟩
      · cases hy
        rw [he', he]
      · have hx := List.find?_some hnext
        have hx' := List.all_eq_true.1 hall x (List.mem_of_find?_eq_some hnext)
        rw [hx'] at hx
        cases hx
    | none =>
      obtain ⟨hr, hs3⟩ := State.railsDone_parts u
      refine Answers.next ?_
      dsimp only
      rw [hr]
      exact ⟨hg, (fun y hy => absurd hy (Option.some_ne_none y).symm), fun _ => hs3⟩
  · have hlog := State.log_only (s.modDev (fun d => { d with railFailed := true, stalled := true })) .railEnableFail (srcRail r) [(1, r)]
      (hm := Nat.and_self _) (hk := .refl _ _)
    refine Answers.next ⟨?_, ?_, ?_⟩
    · rw [hlog.dev rfl]
      rfl
    · rw [hlog.dev rfl]
      exact hstage
    · exact (Logged.log _ .railEnableFail (srcRail r) _ (by show Severity.info.code < 3; decide)).before rfl

theorem bringUp_clusterRail (r : Nat) (s : State) (hstage : 3 ≤ s.dev.stage) (hcluster : isClusterRail r = true) (henabled : s.rails.enabled.contains r = true)
    (hgood : s.rails.good.contains r = false) (hlow : s.rails.low.contains r = false) :
    Answers (exec (.railPowerGood r) s) (fun t => t.rails.good = s.rails.good ++ [r] ∧
      (s.err.fatal = false → (t.cluster (r - 3)).clock.stopped = false)) := by
  show Answers (execRailPowerGood r s) _
  rw [execRailPowerGood, if_neg (Bool.eq_false_iff.1 hlow), if_neg (fun h => by omega),
    if_pos ⟨hstage, hcluster, henabled, Bool.eq_false_iff.1 hgood⟩]
  refine Answers.next ⟨?_, fun hrunning => ?_⟩
  · dsimp only
    split <;> rfl
  · dsimp only
    rw [if_neg (Bool.eq_false_iff.1 hrunning), State.cluster_modClock, if_pos rfl]

theorem bringUp_reference (ref : Nat) (s : State) (hmissing : s.dev.refMissing.contains ref = true) :
    Answers (exec (.refclkCheck ref true) s) (fun t => t.dev.refMissing.contains ref = false) := by
  show Answers (execRefclkCheck ref true s) _
  rw [execRefclkCheck, if_pos ⟨rfl, hmissing⟩]
  refine Answers.next ?_
  dsimp only
  generalize hu : s.modDev _ = u
  have hleft : u.dev.refMissing.contains ref = false := by
    subst hu
    show (s.dev.refMissing.filter (· != ref)).contains ref = false
    rw [List.contains_eq_any_beq, List.any_eq_false]
    intro x hx
    have hne := (List.mem_filter.1 hx).2
    rw [bne_iff_ne] at hne
    rw [beq_iff_eq]
    exact fun h => hne h.symm
  split
  · rw [State.dev_enableRail]
    exact hleft
  · rw [State.pcieCheck]
    split <;> exact hleft

/-! ### Memories (R192, R196 to R202) -/

theorem bringUp_plls (s : State) (hstage : s.dev.stage = 3) (hfirmware : s.sec.phyRingBad = false) :
    Answers (exec .pllLock s) (fun t => t.dev.stage = 4 ∧ (∀ c, c < 8 → (t.cluster c).seq.imem = [] ∧ (t.cluster c).seq.dmem = []) ∧
      (∀ a, dramWindow ≤ a → a < 2 ^ 48 → t.mem.byte a = 0)) := by
  show Answers (execPllLock s) _
  rw [execPllLock, if_pos ⟨hstage, Bool.eq_false_iff.1 hfirmware⟩]
  refine Answers.next ⟨rfl, fun c hc => ?_, fun a hlo hhi => ?_⟩
  · rw [State.cluster_modDev, State.cluster_modClusters _ _ _ hc]
    exact ⟨rfl, rfl⟩
  · exact (Memory.byte_zero ..).trans (if_pos ⟨hlo, hhi⟩)

/-- A channel that training leaves in use holds a module that is supported and trains (R196, R197). -/
theorem usedChannels_trained {ref : Option Module} {xs : List (Nat × Module)} {n : Nat} (h : (usedChannels ref xs).contains n = true) :
    ∃ m, (n, m) ∈ xs ∧ m.supported = true ∧ m.trains = true := by
  rw [usedChannels, List.contains_iff_mem, List.mem_filter, List.any_eq_true] at h
  obtain ⟨-, ⟨k, m⟩, hmem, hm⟩ := h
  simp only [Bool.and_eq_true, beq_iff_eq] at hm
  obtain ⟨⟨⟨hk, hsupported⟩, htrains⟩, -⟩ := hm
  exact ⟨m, hk ▸ hmem, hsupported, htrains⟩

theorem State.fixDram_parts (s : State) (xs : List (Nat × Module)) :
    (s.fixDram xs).dram.selfRefresh = false ∧ ∃ ref, (s.fixDram xs).dram.used = usedChannels ref xs := by
  unfold State.fixDram
  extract_lets ref u used fast v gb d w
  have hw : w.dram.selfRefresh = false ∧ w.dram.used = usedChannels ref xs := ⟨rfl, rfl⟩
  clear_value w
  split
  · rw [(State.log_only w _ _ _ (hm := Nat.and_self _) (hk := .refl _ w)).dram rfl]
    exact ⟨hw.1, ref, hw.2⟩
  · exact ⟨hw.1, ref, hw.2⟩

theorem bringUp_training (xs : List (Nat × Module)) (s : State) (hstage : s.dev.stage = 4) :
    Answers (exec (.dramTrainingDone xs) s) (fun t => t.dev.stage = 5 ∧ t.dram.selfRefresh = false ∧
      (∀ n, t.dram.used.contains n = true → ∃ m, (n, m) ∈ xs ∧ m.supported = true ∧ m.trains = true)) := by
  show Answers (execDramTrainingDone xs s) _
  unfold execDramTrainingDone
  rw [if_pos hstage]
  obtain ⟨hrefresh, ref, hused⟩ := State.fixDram_parts s xs
  generalize s.fixDram xs = u at hrefresh hused
  extract_lets fixed same v
  have hdram : v.dram = u.dram := by
    unfold v
    split
    · exact (State.log_only u _ _ _ (hm := Nat.and_self _) (hk := .refl _ u)).dram rfl
    · rfl
  clear_value v same
  refine Answers.next ⟨rfl, (congrArg (·.selfRefresh) hdram).trans hrefresh, fun n hn => ?_⟩
  have hn' : v.dram.used.contains n = true := hn
  rw [hdram, hused] at hn'
  exact usedChannels_trained hn'

theorem bringUp_zero (s : State) (hstage : s.dev.stage = 5) (hzero : s.dev.zeroed = false) :
    Answers (exec .dramZeroDone s) (fun t => t.dev.zeroed = true ∧ ∀ a, a < dramWindow → t.mem.byte a = 0) := by
  show Answers (execDramZeroDone s) _
  rw [execDramZeroDone, if_pos ⟨hstage, Bool.eq_false_iff.1 hzero⟩]
  exact Answers.next ⟨rfl, fun a ha => (Memory.byte_zero ..).trans (if_pos ⟨Nat.zero_le a, ha⟩)⟩

/-! ### READY, fuses and PERST# (R543, R546, R567, R568, R572) -/

theorem State.dev_resetEvent (s : State) (kind source : Nat) (interrupted : Bool) (entries coins flushed : Nat) (hkind : kind ≤ 4) :
    (s.resetEvent kind source interrupted entries coins flushed).dev = { s.dev with lastReset := kind } := by
  rw [State.resetEvent, if_pos hkind]
  exact (State.logAs_only (hm := Nat.and_self _) (hk := .refl _ _) ..).dev rfl

theorem bringUp_ready (s : State) (hstage : s.dev.stage = 5) (hzero : s.dev.zeroed = true) (hnot : s.dev.ready = false) :
    Answers (exec .deviceReady s) (fun t => t.dev.ready = true ∧ t.dev.stage = 6 ∧ t.aoNs = s.aoNs + 10000 ∧
      t.dev.lastReset = (if s.dev.warm then 2 else 1)) := by
  show Answers (execDeviceReady s) _
  unfold execDeviceReady
  rw [if_pos ⟨hstage, hzero, Bool.eq_false_iff.1 hnot⟩]
  have hdev : (s.reach (s.aoNs + 10000)).dev = s.dev := (State.reach_only s _ (hm := Nat.and_self _) (hk := .refl _ s)).dev rfl
  have haoNs : (s.reach (s.aoNs + 10000)).aoNs = s.aoNs + 10000 := (State.aoNs_reach ..).trans (Nat.max_eq_right (Nat.le_add_right ..))
  generalize s.reach (s.aoNs + 10000) = u at hdev haoNs
  extract_lets late ms d v w x
  have hx : x.dev = v.dev ∧ x.aoNs = s.aoNs + 10000 := by
    have hlog := State.log_only (w.modPwr (fun p => { p with lock := true })) .deviceReady (srcBlock 7) [(4, ms)] (hm := Nat.and_self _) (hk := .refl _ _)
    exact ⟨hlog.dev rfl, (hlog.aoNs rfl).trans haoNs⟩
  obtain ⟨hxdev, hxns⟩ := hx
  have hready : x.dev.ready = true ∧ x.dev.stage = 6 := by rw [hxdev]; exact ⟨rfl, rfl⟩
  have hkind : (if d.warm = true then 2 else 1) = (if s.dev.warm = true then 2 else 1) := by unfold d; rw [hdev]
  clear_value x d
  rw [hkind]
  have hreset := State.dev_resetEvent x (if s.dev.warm = true then 2 else 1) (srcBlock 7) d.passInterrupted d.tally.1 d.tally.2.1 d.tally.2.2
    (by split <;> decide)
  refine Answers.next ⟨?_, ?_, ?_, ?_⟩
  · rw [hreset]; exact hready.1
  · rw [hreset]; exact hready.2
  · exact ((State.resetEvent_only x _ _ _ _ _ _ (hm := Nat.and_self _) (hk := .refl _ x)).aoNs rfl).trans hxns
  · rw [hreset]

theorem bringUp_fuses (cls : Nat) (s : State) (hready : s.dev.ready = true) (hbooted : tget s.sec.booted [] cls ≠ []) :
    Answers (exec (.rollbackFuseBlow cls) s) (fun t => t.fuses.svn cls = max (s.fuses.svn cls) (leAt (tget s.sec.booted [] cls) 6 1) ∧
      t.fuses.revoke0 = (s.fuses.revoke0 || bit (leAt (tget s.sec.booted [] cls) 7 1) 0)) := by
  show Answers (execRollbackFuseBlow cls s) _
  unfold execRollbackFuseBlow
  extract_lets h svn _ u
  rw [if_pos ⟨hready, hbooted⟩]
  have hu : u.fuses.svn cls = s.fuses.svn cls ∧ u.fuses.revoke0 = (s.fuses.revoke0 || bit (leAt h 7 1) 0) := by
    unfold u
    split
    next hrevoke => exact ⟨rfl, by rw [hrevoke, Bool.or_true]⟩
    next hkept => exact ⟨rfl, by rw [Bool.eq_false_iff.2 hkept, Bool.or_false]⟩
  obtain ⟨hsvn, hrevoke⟩ := hu
  clear_value u
  split
  next hrise =>
    refine Answers.next ?_
    rw [(State.log_only _ _ _ _ (hm := Nat.and_self _) (hk := .refl _ _)).fuses rfl]
    refine ⟨?_, hrevoke⟩
    rw [hsvn] at hrise
    rw [Fuses.svn, tget_tset, if_pos rfl, Nat.max_eq_right (Nat.le_of_lt hrise)]
  next hsame =>
    rw [hsvn] at hsame
    exact Answers.next ⟨hsvn.trans (Nat.max_eq_left (Nat.le_of_not_lt hsame)).symm, hrevoke⟩

theorem bringUp_perst (s : State) :
    Answers (exec (.perstDeassert true) s) (fun t => t.dev.perst = false ∧
      (s.railsUp = true → s.dev.refMissing.contains 1 = false → t.host.pcieUp = true)) := by
  show Answers (execPerstDeassert true s) _
  rw [execPerstDeassert]
  refine Answers.next ?_
  rw [State.pcieCheck]
  split
  next => exact ⟨rfl, fun _ _ => rfl⟩
  next hnot =>
    refine ⟨rfl, fun hup hpresent => absurd ?_ hnot⟩
    exact ⟨Bool.false_ne_true, hup, Bool.eq_false_iff.1 hpresent⟩

/-- Settles O58: each stage's command leaves the stage, the memories and the fuses as the bring-up table gives them. -/
theorem bringUp : Obligations.BringUp := by
  unfold Obligations.BringUp
  exact ⟨bringUp_cold, bringUp_rail, bringUp_clusterRail, bringUp_reference, bringUp_plls, bringUp_training, bringUp_zero, bringUp_ready,
    bringUp_fuses, bringUp_perst⟩

end Sys2Proof.Machine
end

