-- ==== Sys2Proof/Proofs/Resets.lean ====
section
/-!
PROOFS. What each reset clears and what it keeps (19_start_up.md, Resets; 13_coin_queues.md, Owner reset).
-/
set_option autoImplicit false
namespace Sys2Proof.Machine

theorem SameRouting.foldl2 {s t : State} {α β : Type} {f : α × State → β → α × State} {l : List β} {a : α}
    (h : ∀ p x, SameRouting s p.2 → SameRouting s (f p x).2) (h0 : SameRouting s t) : SameRouting s (l.foldl f (a, t)).2 := by
  induction l generalizing a t with
  | nil => exact h0
  | cons x l ih => exact ih (a := (f (a, t) x).1) (h (a, t) x h0)

/-! ### Operations of a reset that leave the router alone -/

theorem State.emptyBuffer_routing {s₀ : State} (s : State) (c b : Nat)
    (hk : SameRouting s₀ s) : SameRouting s₀ (State.emptyBuffer s c b) :=
  .only (State.emptyBuffer_only (hm := by decide) (hk := .refl _ _) ..) hk

theorem State.modSeq_routing {s₀ : State} (s : State) (c : Nat) (f : Sequencer → Sequencer)
    (hk : SameRouting s₀ s) : SameRouting s₀ (State.modSeq s c f) :=
  .only (State.modSeq_only (hm := by decide) (hk := .refl _ _) ..) hk

theorem State.modPwr_routing {s₀ : State} (s : State) (f : Power → Power)
    (hk : SameRouting s₀ s) : SameRouting s₀ (State.modPwr s f) :=
  .only (State.modPwr_only (hm := by decide) (hk := .refl _ _) ..) hk

theorem State.using_routing {s₀ : State} (s : State) (c : Nat)
    (hk : SameRouting s₀ s) : SameRouting s₀ (State.using s c) :=
  .only (State.using_only (hm := by decide) (hk := .refl _ _) ..) hk

theorem State.modSet_routing {s₀ : State} (s : State) (f : Settle → Settle)
    (hk : SameRouting s₀ s) : SameRouting s₀ (State.modSet s f) :=
  .only (State.modSet_only (hm := by decide) (hk := .refl _ _) ..) hk

theorem State.land_routing {s₀ : State} (s : State) (l : Land)
    (hk : SameRouting s₀ s) : SameRouting s₀ (State.land s l) :=
  .only (State.land_only (hm := by decide) (hk := .refl _ _) ..) hk

theorem State.endWindow_routing {s₀ : State} (s : State) (c : Nat)
    (hk : SameRouting s₀ s) : SameRouting s₀ (State.endWindow s c) :=
  .only (State.endWindow_only (hm := by decide) (hk := .refl _ _) ..) hk

theorem State.fencesDone_routing {s₀ : State} (s : State)
    (hk : SameRouting s₀ s) : SameRouting s₀ (State.fencesDone s) :=
  .only (State.fencesDone_only (hm := by decide) (hk := .refl _ _) ..) hk

theorem State.flushCrossings_routing {s₀ : State} (s : State) (hit : Nat → Bool)
    (hk : SameRouting s₀ s) : SameRouting s₀ (State.flushCrossings s hit).2 :=
  .only (State.flushCrossings_only (hm := by decide) (hk := .refl _ _) ..) hk

theorem State.resetEvent_routing {s₀ : State} (s : State) (kind source : Nat) (interrupted : Bool) (entries coins flushed : Nat)
    (hk : SameRouting s₀ s) : SameRouting s₀ (State.resetEvent s kind source interrupted entries coins flushed) :=
  .only (State.resetEvent_only (hm := by decide) (hk := .refl _ _) ..) hk

theorem State.clearTotals_routing {s₀ : State} (s : State)
    (hk : SameRouting s₀ s) : SameRouting s₀ (State.clearTotals s) :=
  .only (State.clearTotals_only (hm := by decide) (hk := .refl _ _) ..) hk

theorem State.clearPresence_routing {s₀ : State} (s : State)
    (hk : SameRouting s₀ s) : SameRouting s₀ (State.clearPresence s) :=
  .only (State.clearPresence_only (hm := by decide) (hk := .refl _ _) ..) hk

theorem State.unfault_routing {s₀ : State} (s : State) (ks : List UnitKind)
    (hk : SameRouting s₀ s) : SameRouting s₀ (State.unfault s ks) :=
  .only (State.unfault_only (hm := by decide) (hk := .refl _ _) ..) hk

/-! ### Waits, buffers and layers -/

theorem State.dropOwnWaits_routing {s₀ : State} (s : State) (c : Nat)
    (hk : SameRouting s₀ s) : SameRouting s₀ (State.dropOwnWaits s c) := by
  unfold State.dropOwnWaits
  repeat' (first
    | with_reducible assumption
    | with_reducible refine State.modCluster_routing (hk := ?_) ..
    | with_reducible refine State.modRtr_routing (hf := fun _ => rfl) (hk := ?_) ..
    | split)

theorem State.ownerReset_routing {s₀ : State} (s : State) (c : Nat) (wake : Bool)
    (hk : SameRouting s₀ s) : SameRouting s₀ (State.ownerReset s c wake).2 := by
  unfold State.ownerReset
  repeat' (first
    | with_reducible assumption
    | with_reducible refine State.modCluster_routing (hk := ?_) ..
    | with_reducible refine State.answer_routing (hk := ?_) ..
    | with_reducible refine State.dropOwnWaits_routing (hk := ?_) ..
    | with_reducible refine SameRouting.ite ?_ ?_
    | with_reducible refine SameRouting.foldl (fun _ _ _ => ?_) ?_
    | split
    | dsimp only)

theorem State.dropSeqWaits_routing {s₀ : State} (s : State) (c : Nat)
    (hk : SameRouting s₀ s) : SameRouting s₀ (State.dropSeqWaits s c) := by
  unfold State.dropSeqWaits
  repeat' (first
    | with_reducible assumption
    | with_reducible refine State.modCluster_routing (hk := ?_) ..
    | with_reducible refine State.modRtr_routing (hf := fun _ => rfl) (hk := ?_) ..
    | with_reducible refine State.modQueue_routing (hk := ?_) ..
    | with_reducible refine State.release_routing (hk := ?_) ..
    | with_reducible refine SameRouting.foldl (fun _ _ _ => ?_) ?_
    | split
    | dsimp only)

theorem State.cancelBuffer_routing {s₀ : State} (s : State) (c b : Nat)
    (hk : SameRouting s₀ s) : SameRouting s₀ (State.cancelBuffer s c b) := by
  unfold State.cancelBuffer
  repeat' (first
    | with_reducible assumption
    | with_reducible refine State.modRtr_routing (hf := fun _ => rfl) (hk := ?_) ..
    | with_reducible refine State.emptyBuffer_routing (hk := ?_) ..
    | split)

theorem State.releaseBuffers_routing {s₀ : State} (s : State) (c : Nat) (bs : List Nat)
    (hk : SameRouting s₀ s) : SameRouting s₀ (State.releaseBuffers s c bs) := by
  unfold State.releaseBuffers
  repeat' (first
    | with_reducible assumption
    | with_reducible refine State.cancelBuffer_routing (hk := ?_) ..
    | with_reducible refine SameRouting.foldl (fun _ _ _ => ?_) ?_
    | split
    | dsimp only)

theorem State.dropPending_routing {s₀ : State} (s : State) (c : Nat)
    (hk : SameRouting s₀ s) : SameRouting s₀ (State.dropPending s c) := by
  unfold State.dropPending
  repeat' (first
    | with_reducible assumption
    | with_reducible refine State.modCore_routing (hk := ?_) ..
    | with_reducible refine State.releaseBuffers_routing (hk := ?_) ..
    | with_reducible refine SameRouting.ite ?_ ?_
    | with_reducible refine SameRouting.foldl (fun _ _ _ => ?_) ?_
    | split
    | dsimp only)

theorem State.cancelFills_routing {s₀ : State} (s : State) (c : Nat)
    (hk : SameRouting s₀ s) : SameRouting s₀ (State.cancelFills s c) := by
  unfold State.cancelFills
  repeat' (first
    | with_reducible assumption
    | with_reducible refine State.modCol_routing (hk := ?_) ..
    | with_reducible refine State.cancelBuffer_routing (hk := ?_) ..
    | with_reducible refine SameRouting.foldl (fun _ _ _ => ?_) ?_
    | split
    | dsimp only)

theorem State.endOn_routing {s₀ : State} (s : State) (c : Nat) (st : Status) (cause : Nat) (reported : Bool) (word : W32)
    (hk : SameRouting s₀ s) : SameRouting s₀ (State.endOn s c st cause reported word) := by
  unfold State.endOn
  repeat' (first
    | with_reducible assumption
    | with_reducible refine State.modSeq_routing (hk := ?_) ..
    | with_reducible refine State.modPwr_routing (hk := ?_) ..
    | with_reducible refine State.using_routing (hk := ?_) ..
    | with_reducible refine State.cancelFills_routing (hk := ?_) ..
    | with_reducible refine State.dropSeqWaits_routing (hk := ?_) ..
    | with_reducible refine State.dropPending_routing (hk := ?_) ..
    | split
    | dsimp only)

theorem State.stopAt_routing {s₀ : State} (s : State) (c : Nat)
    (hk : SameRouting s₀ s) : SameRouting s₀ (State.stopAt s c) := by
  unfold State.stopAt
  repeat' (first
    | with_reducible assumption
    | with_reducible refine State.endOn_routing (hk := ?_) ..
    | with_reducible refine SameRouting.ite ?_ ?_)

theorem State.haltSeq_routing {s₀ : State} (s : State) (c : Nat) (st : Status) (cause : Nat)
    (hk : SameRouting s₀ s) : SameRouting s₀ (State.haltSeq s c st cause) := by
  unfold State.haltSeq
  repeat' (first
    | with_reducible assumption
    | with_reducible refine State.modSeq_routing (hk := ?_) ..
    | with_reducible refine State.dropSeqWaits_routing (hk := ?_) ..
    | with_reducible refine State.dropPending_routing (hk := ?_) ..
    | with_reducible refine State.endOn_routing (hk := ?_) ..
    | with_reducible refine State.stopAt_routing (hk := ?_) ..
    | with_reducible refine SameRouting.ite ?_ ?_
    | with_reducible refine SameRouting.foldl (fun _ _ _ => ?_) ?_
    | split
    | dsimp only)

theorem State.retireLayer_routing {s₀ : State} (s : State) (p : Nat) (st : Status)
    (hk : SameRouting s₀ s) : SameRouting s₀ (State.retireLayer s p st) := by
  unfold State.retireLayer
  repeat' (first
    | with_reducible assumption
    | with_reducible refine State.modCluster_routing (hk := ?_) ..
    | with_reducible refine State.modCore_routing (hk := ?_) ..
    | with_reducible refine State.modRtr_routing (hf := fun _ => rfl) (hk := ?_) ..
    | with_reducible refine State.releaseBuffers_routing (hk := ?_) ..
    | split
    | dsimp only)

theorem State.clearCores_routing {s₀ : State} (s : State) (c : Nat)
    (hk : SameRouting s₀ s) : SameRouting s₀ (State.clearCores s c) := by
  unfold State.clearCores
  repeat' (first
    | with_reducible assumption
    | with_reducible refine State.modCore_routing (hk := ?_) ..
    | with_reducible refine State.releaseBuffers_routing (hk := ?_) ..
    | with_reducible refine State.retireLayer_routing (hk := ?_) ..
    | with_reducible refine SameRouting.foldl (fun _ _ _ => ?_) ?_
    | split
    | dsimp only)

theorem State.releaseLands_routing {s₀ : State} (s : State)
    (hk : SameRouting s₀ s) : SameRouting s₀ (State.releaseLands s) := by
  unfold State.releaseLands
  repeat' (first
    | with_reducible assumption
    | with_reducible refine State.modSet_routing (hk := ?_) ..
    | with_reducible refine State.freeKept_routing (hk := ?_) ..
    | with_reducible refine State.land_routing (hk := ?_) ..
    | with_reducible refine SameRouting.foldl (fun _ _ _ => ?_) ?_
    | split
    | dsimp only)

theorem State.endWalk_routing {s₀ : State} (s : State)
    (hk : SameRouting s₀ s) : SameRouting s₀ (State.endWalk s) := by
  unfold State.endWalk
  repeat' (first
    | with_reducible assumption
    | with_reducible refine State.modSet_routing (hk := ?_) ..
    | with_reducible refine State.releaseLands_routing (hk := ?_) ..
    | with_reducible refine SameRouting.ite ?_ ?_
    | split
    | dsimp only)

theorem State.waitPass_routing {s₀ : State} (s : State)
    (hk : SameRouting s₀ s) : SameRouting s₀ (State.waitPass s) := by
  unfold State.waitPass
  repeat' (first
    | with_reducible assumption
    | with_reducible refine State.endWalk_routing (hk := ?_) ..
    | with_reducible refine SameRouting.ite ?_ ?_)

theorem State.sliceReset_routing {s₀ : State} (s : State)
    (hk : SameRouting s₀ s) : SameRouting s₀ (State.sliceReset s) := by
  unfold State.sliceReset
  repeat' (first
    | with_reducible assumption
    | with_reducible refine State.modSet_routing (hk := ?_) ..
    | with_reducible refine State.modDec_routing (hk := ?_) ..
    | with_reducible refine State.modCol_routing (hk := ?_) ..
    | with_reducible refine State.freeKept_routing (hk := ?_) ..
    | with_reducible refine State.ownerReset_routing (hk := ?_) ..
    | with_reducible refine State.endWindow_routing (hk := ?_) ..
    | with_reducible refine State.fencesDone_routing (hk := ?_) ..
    | with_reducible refine State.haltSeq_routing (hk := ?_) ..
    | with_reducible refine State.flushCrossings_routing (hk := ?_) ..
    | with_reducible refine State.resetEvent_routing (hk := ?_) ..
    | with_reducible refine State.clearTotals_routing (hk := ?_) ..
    | with_reducible refine State.clearPresence_routing (hk := ?_) ..
    | with_reducible refine State.unfault_routing (hk := ?_) ..
    | with_reducible refine State.clearCores_routing (hk := ?_) ..
    | with_reducible refine State.waitPass_routing (hk := ?_) ..
    | with_reducible refine SameRouting.foldl (fun _ _ _ => ?_) ?_
    | with_reducible refine SameRouting.foldl2 (fun _ _ _ => ?_) ?_
    | split
    | dsimp only)

/-! ### Power loss and the warm reset (R573, R577) -/

theorem resets_powerLoss (s : State) :
    Answers (exec (.aoPowerLoss false) s) (fun t => t.fuses = s.fuses ∧ t.flash = s.flash ∧ t.ledger.records = s.ledger.records ∧
      t.clusters = [] ∧ t.cores = [] ∧ t.units = [] ∧ t.ports = [] ∧ t.mem = {} ∧ t.job = {} ∧ t.host = {} ∧ t.sec = {} ∧ t.err = {}) := by
  show Answers (execAoPowerLoss false s) _
  rw [execAoPowerLoss, if_neg Bool.false_ne_true]
  exact Answers.next ⟨rfl, rfl, rfl, rfl, rfl, rfl, rfl, rfl, rfl, rfl, rfl, rfl⟩

/-- What the default and every entry of a table have, each read of it has. -/
theorem tget_of_forall {α : Type} {P : α → Prop} {d : α} (hd : P d) {t : Tab α} (h : ∀ x ∈ t, P x.2) (k : Nat) : P (tget t d k) := by
  induction t with
  | nil => exact hd
  | cons x t ih =>
    obtain ⟨j, v⟩ := x
    rw [tget]
    split
    · exact h (j, v) List.mem_cons_self
    · exact ih fun y hy => h y (List.mem_cons_of_mem _ hy)

theorem State.warmReset_clears (s : State) (hbegun : s.coldBringUp = false) (hstage : 3 ≤ s.dev.stage) :
    Answers (.next s.warmReset) (fun t => t.dev.stage = 3 ∧ t.dev.ready = false ∧ t.dev.lastReset = 2 ∧ (∀ p, t.core p = { vault := (t.core p).vault }) ∧
      t.job = {} ∧ t.err.fatal = false ∧ t.aoNs = s.aoNs + 1000000 ∧ t.rails.crossing = [] ∧ (∀ a, a < dramWindow → t.mem.byte a = s.mem.byte a) ∧
      (∀ a, dramWindow ≤ a → t.mem.byte a = 0)) := by
  have hflush := State.flushCrossings_only s (fun _ => true) (hm := Nat.and_self _) (hk := .refl _ s)
  have hns := hflush.aoNs rfl
  have hmem := hflush.mem rfl
  clear hflush
  unfold State.warmReset
  rw [if_neg (not_or.2 ⟨Bool.eq_false_iff.1 hbegun, Nat.not_lt.2 hstage⟩)]
  generalize s.flushCrossings (fun _ => true) = x at hns hmem
  obtain ⟨flushed, u⟩ := x
  dsimp only at hns hmem
  dsimp -zeta only
  extract_lets pass tally v
  have hv := State.total_only (M := 537001348 ||| 1 <<< 2 ||| 1 <<< 4 ||| 1 <<< 7 ||| 1 <<< 9 ||| 1 <<< 10 ||| 1 <<< 25 ||| 1 <<< 29 ||| 1 <<< 31) _ 3 1
    (hm := by decide) (hk := State.slewAt_only _ 0 (hm := by decide) (hk := State.timeDrops_only _ (hm := by decide)
      (hk := State.leaveMaintenance_only u (hm := by decide) (hk := .refl _ u))))
  have hvns : v.aoNs = s.aoNs := (hv.aoNs (by decide)).trans hns
  have hvmem : v.mem = s.mem := (hv.mem (by decide)).trans hmem
  clear_value v tally pass
  refine Answers.next ⟨rfl, rfl, rfl, fun p => ?_, rfl, rfl, congrArg (· + 1000000) hvns, rfl, fun a ha => ?_, fun a ha => ?_⟩
  · refine tget_of_forall (P := fun k : Core => k = { vault := k.vault }) rfl (fun x hx => ?_) p
    obtain ⟨y, -, rfl⟩ := List.mem_map.1 (List.mem_filter.1 hx).1
    rfl
  · refine (tget_filter_index (fun i => decide (i < dramWindow)) 0 v.mem.cells a).trans ?_
    rw [if_pos (decide_eq_true ha), ← hvmem]
    rfl
  · refine (tget_filter_index (fun i => decide (i < dramWindow)) 0 v.mem.cells a).trans ?_
    rw [if_neg fun h => absurd (of_decide_eq_true h) (Nat.not_lt.2 ha)]

theorem resets_warm (p : Bool) (s : State) (hbegun : s.coldBringUp = false) (hstage : 3 ≤ s.dev.stage) :
    Answers (exec (.warmReset p) s) (fun t => t.dev.stage = 3 ∧ t.dev.ready = false ∧ t.dev.lastReset = 2 ∧ (∀ p, t.core p = { vault := (t.core p).vault }) ∧ t.job = {} ∧
      t.err.fatal = false ∧ t.aoNs = s.aoNs + 1000000 ∧ t.rails.crossing = [] ∧ (∀ a, a < dramWindow → t.mem.byte a = s.mem.byte a) ∧ (∀ a, dramWindow ≤ a → t.mem.byte a = 0)) := by
  show Answers (execWarmReset p s) _
  rw [execWarmReset]
  split
  · exact State.warmReset_clears ((s.modDev (fun d => { d with perst := true })).modHost (fun h => { h with pcieUp := false })) hbegun hstage
  · exact State.warmReset_clears s hbegun hstage

/-! ### The function-level reset (R446, R574) -/

theorem resets_scrubDone (s : State) (hscrub : s.dev.scrubbing = true) :
    Answers (exec .flrScrubDone s) (fun t => t.dev.ready = true ∧ t.dev.scrubbing = false ∧ ∀ a, a < dramWindow → t.mem.byte a = 0) := by
  show Answers (execFlrScrubDone s) _
  rw [execFlrScrubDone, if_pos hscrub]
  exact Answers.next ⟨rfl, rfl, fun a ha => (Memory.byte_zero ..).trans (if_pos ⟨Nat.zero_le a, ha⟩)⟩

theorem State.job_clearJob (s : State) : s.clearJob.job = {} := by
  rw [State.clearJob, (State.setSlot_only _ _ _ (hm := Nat.and_self _) (hk := .refl _ _)).job rfl]
  rfl

theorem resets_function (s : State) (hready : s.dev.ready = true) :
    Answers (exec .functionLevelReset s) (fun t => t.job = {} ∧ t.rtr.slice = {} ∧ t.preempts = [] ∧ (s.sec.minScrub = 2 → t.dev.ready = false) ∧
      t.dev.scrubbing = (s.sec.minScrub == 2) ∧ t.dev.lastReset = 3) := by
  show Answers (execFunctionLevelReset s) _
  rw [execFunctionLevelReset, if_pos (.inl hready)]
  have hsec := (State.flushCrossings_only s (fun _ => true) (hm := Nat.and_self _) (hk := .refl _ s)).sec rfl
  unfold State.flr
  generalize s.flushCrossings (fun _ => true) = x at hsec
  obtain ⟨flushed, u⟩ := x
  dsimp only at hsec
  dsimp -zeta only
  extract_lets level entries v w run x y z a b c d
  have hlevel : level = s.sec.minScrub := congrArg (·.minScrub) hsec
  have hx : x.job = {} := by
    show (run.2.modClusters (fun _ k => k.afterFlr)).clearJob.freeKept.job = {}
    rw [(State.freeKept_only _ (hm := Nat.and_self _) (hk := .refl _ _)).job rfl, State.job_clearJob]
  have hy : y.job = {} := by
    show ((x.scrub (min level 1)).extendSlot 10 (leBytes 1 level)).job = {}
    rw [(State.extendSlot_only _ _ _ (hm := Nat.and_self _) (hk := .refl _ _)).job rfl,
      (State.scrub_only x _ (hm := Nat.and_self _) (hk := .refl _ x)).job rfl, hx]
  clear_value level y run entries
  have hb := State.unfault_only a [.core, .array, .cluster, .engine, .ddr, .port] (hm := Nat.and_self _) (hk := .refl _ a)
  have hd : d.job = {} ∧ d.rtr.slice = {} ∧ d.preempts = [] ∧ d.dev.scrubbing = (s.sec.minScrub == 2) ∧ (s.sec.minScrub = 2 → d.dev.ready = false) := by
    rw [← hlevel]
    exact ⟨(hb.job rfl).trans hy, congrArg (·.slice) (hb.rtr rfl), hb.preempts rfl, rfl, fun h => if_pos h⟩
  clear_value d
  obtain ⟨hjob, hslice, hpreempts, hscrubbing, hnotReady⟩ := hd
  have hreset := State.resetEvent_only d 3 (srcBlock 7) false entries run.1 flushed (hm := Nat.and_self _) (hk := .refl _ d)
  have hdev := State.dev_resetEvent d 3 (srcBlock 7) false entries run.1 flushed (by decide)
  refine Answers.next ⟨?_, ?_, ?_, ?_, ?_, ?_⟩
  · exact (hreset.job rfl).trans hjob
  · exact (congrArg (·.slice) (hreset.rtr rfl)).trans hslice
  · exact (hreset.preempts rfl).trans hpreempts
  · rw [hdev]; exact hnotReady
  · rw [hdev]; exact hscrubbing
  · rw [hdev]

/-! ### The narrower resets (R575, R576) -/

/-- A slice reset leaves settlement idle, no statement open and the slice as it was. -/
theorem State.sliceReset_parts (s : State) : s.sliceReset.settle.phase = .idle ∧ s.sliceReset.dec.stmtState = 0 ∧ s.sliceReset.dev.lastReset = 4 ∧
    s.sliceReset.rtr.slice = s.rtr.slice := by
  have hslice : s.sliceReset.rtr.slice = s.rtr.slice := (State.sliceReset_routing s (.refl s)).slice
  suffices h : s.sliceReset.settle.phase = .idle ∧ s.sliceReset.dec.stmtState = 0 ∧ s.sliceReset.dev.lastReset = 4 from
    ⟨h.1, h.2.1, h.2.2, hslice⟩
  clear hslice
  suffices h : Answers (.next s.sliceReset) (fun t => t.settle.phase = .idle ∧ t.dec.stmtState = 0 ∧ t.dev.lastReset = 4) from Answers.of_next h
  unfold State.sliceReset
  generalize s.flushCrossings (fun _ => true) = x
  obtain ⟨flushed, u⟩ := x
  dsimp -zeta only
  extract_lets entries v w x run y z a b c
  have hfreed := State.unfault_only _ [.core, .array, .cluster, .engine] (hm := by decide) (hk := State.freeKept_only
    ((b.modCol (fun c => { c with lastMarked := [] })).modSet (fun t => { t with cfgDue := false })) (hm := by decide) (hk := Only.refl 84017168 _))
  have hphase : c.settle.phase = .idle := congrArg (·.phase) (hfreed.settle rfl)
  have hstmt : c.dec.stmtState = 0 := congrArg (·.stmtState) (hfreed.dec rfl)
  clear_value c run entries
  have hreset := State.resetEvent_only c 4 (srcBlock 7) false entries run.1 flushed (hm := Nat.and_self _) (hk := .refl _ c)
  have hdev := State.dev_resetEvent c 4 (srcBlock 7) false entries run.1 flushed (by decide)
  generalize c.resetEvent 4 (srcBlock 7) false entries run.1 flushed = d at hreset hdev
  have hdone := State.fencesDone_only d (hm := Nat.and_self _) (hk := .refl _ d)
  refine Answers.next ⟨?_, ?_, ?_⟩
  · rw [hdone.settle rfl, hreset.settle rfl, hphase]
  · rw [hdone.dec rfl, hreset.dec rfl, hstmt]
  · rw [hdone.dev rfl, hdev]

theorem resets_slice (s : State) (hready : s.dev.ready = true) :
    Answers (exec .sliceReset s) (fun t => t.settle.phase = .idle ∧ t.dec.stmtState = 0 ∧ t.dev.lastReset = 4 ∧
      (s.hasSlice = true → t.rtr.slice.resetNo = (s.rtr.slice.resetNo + 1) % 65536)) := by
  show Answers (execSliceReset s) _
  rw [execSliceReset, if_pos hready]
  refine Answers.next ?_
  obtain ⟨hphase, hstmt, hlast, hslice⟩ := State.sliceReset_parts s
  unfold State.sliceResetHere
  generalize s.sliceReset = u at hphase hstmt hlast hslice
  extract_lets n _ v
  have hhas : u.hasSlice = s.hasSlice := by
    rw [State.hasSlice, State.hasSlice, hslice]
  split
  · have hnotice := State.sendNotice_only v (noticeBytes v.rtr.slice.id 1 0 0 v.here n) (hm := Nat.and_self _) (hk := .refl _ v)
    rw [hnotice.settle rfl, hnotice.dec rfl, hnotice.dev rfl, hnotice.rtr rfl]
    exact ⟨hphase, hstmt, hlast, fun _ => rfl⟩
  next hnone =>
    exact ⟨hphase, hstmt, hlast, fun h => absurd (hhas.trans h) hnone⟩

theorem resets_cluster (c : Nat) (s : State) (hready : s.dev.ready = true) (hc : c < 8) :
    Answers (exec (.clusterReset c) s) (fun t => (t.cluster c).seq.st = .idle) := by
  show Answers (execClusterReset c s) _
  rw [execClusterReset, if_pos ⟨hready, hc⟩]
  exact Answers.next (State.idle_clusterReset s c)

theorem resets_core (p : Nat) (s : State) (hready : s.dev.ready = true) (hp : p < 96) :
    Answers (exec (.coreReset p) s) (fun t => (t.core p).lcb = List.replicate 512 0) := by
  show Answers (execCoreReset p s) _
  rw [execCoreReset, if_pos ⟨hready, hp⟩]
  exact Answers.next (State.lcb_coreReset s p)

theorem State.link_modLink (s : State) (n : Nat) (f : Link → Link) : ((s.modLink n f).port n).link = f (s.port n).link := by
  rw [State.port_modLink, if_pos rfl]

theorem State.disc_modDisc (s : State) (n : Nat) (f : Disc → Disc) :
    ((s.modDisc n f).port n).link = (s.port n).link ∧ ((s.modDisc n f).port n).disc = f (s.port n).disc := by
  rw [State.port_modDisc, if_pos rfl]
  exact ⟨rfl, rfl⟩

theorem State.port_of_ports {s t : State} (h : t.ports = s.ports) (n : Nat) : t.port n = s.port n := by
  rw [State.port, State.port, h]

theorem resets_port (n : Nat) (s : State) (hready : s.dev.ready = true) (hn : n < 8) :
    Answers (exec (.portReset n) s) (fun t => (t.port n).link.spareTx = false ∧ (t.port n).link.spareRx = false ∧ (t.port n).disc.cause = 0 ∧
      (t.unit (UnitName.code ⟨.port, n⟩)).faulted = false) := by
  show Answers (execPortReset n s) _
  rw [execPortReset, if_pos ⟨hready, hn⟩]
  refine Answers.next ?_
  unfold State.portReset
  extract_lets u v w x
  have hlink : (v.port n).link = { (u.port n).link with spareTx := false, spareRx := false, sparedLane := 0 } :=
    u.link_modLink n (fun k => { k with spareTx := false, spareRx := false, sparedLane := 0 })
  clear_value v
  have hv : (v.port n).link.spareTx = false ∧ (v.port n).link.spareRx = false := by rw [hlink]; exact ⟨rfl, rfl⟩
  have hw : (w.port n).link = (v.port n).link ∧ (w.port n).disc.cause = 0 := by
    obtain ⟨hkept, hdisc⟩ := v.disc_modDisc n
      (fun d => { d with cause := 0, lowered := false, pos := 0, pport := 0, seen := false, serial := none, quarDropped := 0 })
    exact ⟨hkept, congrArg (·.cause) hdisc⟩
  clear_value w
  have hunit : (x.unit (UnitName.code ⟨.port, n⟩)).faulted = false :=
    congrArg (·.faulted) ((State.unit_modUnit w (UnitName.code ⟨.port, n⟩) (fun w => { w with faulted := false }) (UnitName.code ⟨.port, n⟩)).trans (if_pos rfl))
  have hport : x.port n = w.port n := rfl
  clear_value x
  have hreset := State.resetEvent_only x 7 (srcPort n) false 0 0 0 (hm := Nat.and_self _) (hk := .refl _ x)
  rw [State.unit_of_units (hreset.units rfl), State.port_of_ports (hreset.ports rfl), hport, hw.1]
  exact ⟨hv.1, hv.2, hw.2, hunit⟩

/-- Settles O59: each reset's clears and its frames, one lemma per reset. -/
theorem resets : Obligations.Resets := by
  unfold Obligations.Resets
  exact ⟨resets_powerLoss, resets_warm, resets_function, resets_scrubDone, resets_slice, resets_cluster, resets_core, resets_port⟩

end Sys2Proof.Machine
end

