-- ==== Sys2Proof/Proofs/TileCommands.lean ====
section
/-!
PROOFS. Matrix issues, tile drains, tile operations and loads (03_matrix_engine.md; 04_tile_engine.md; 05_program_model.md, Tile contexts
and latency hiding, The no-interlock contract).
-/
set_option autoImplicit false
namespace Sys2Proof.Machine

/-! ### What the passing of time leaves of a core -/

/-- A core but for its contexts and what a landing write changes: its registers and their writes, its flags and its configuration. -/
def Core.matrix (k : Core) : Core :=
  { k with lcb := [], teFlags := {}, nowFlags := {}, regs := [], owners := [], writes := [], ctxs := [], landed := [], raisedAt := 0, raisedNow := {} }

theorem Core.landWrites_parts (k : Core) (t : Nat) : (k.landWrites t).matrix = k.matrix ∧ (k.landWrites t).ctxs = k.ctxs := by
  rw [Core.landWrites]
  dsimp only [Core.matrix]
  generalize k.writes.filter (fun w => decide (w.land ≤ t)) = due
  suffices h : ∀ k : Core, ((due.foldl (fun (k : Core) w => if w.raised.any then k.raise w.land w.raised else k) k).matrix = k.matrix) ∧
      (due.foldl (fun (k : Core) w => if w.raised.any then k.raise w.land w.raised else k) k).ctxs = k.ctxs from h k
  intro k
  induction due generalizing k with
  | nil => exact ⟨rfl, rfl⟩
  | cons w ws ih =>
    obtain ⟨hmatrix, hctxs⟩ := ih (if w.raised.any then k.raise w.land w.raised else k)
    rw [List.foldl_cons, hmatrix, hctxs]
    split
    · exact ⟨rfl, rfl⟩
    · exact ⟨rfl, rfl⟩

/-- Every core has the same matrix engine and the same contexts in t as in s. -/
def SameContexts (s t : State) : Prop := ∀ p, (t.core p).matrix = (s.core p).matrix ∧ (t.core p).ctxs = (s.core p).ctxs

theorem State.modCore_sameContexts {s₀ : State} (s : State) (p : Nat) (f : Core → Core) (hf : ∀ k, (f k).matrix = k.matrix ∧ (f k).ctxs = k.ctxs)
    (hk : SameContexts s₀ s) : SameContexts s₀ (s.modCore p f) := fun q => by
  rw [State.core_modCore]
  split
  next heq =>
    subst heq
    exact ⟨(hf _).1.trans (hk _).1, (hf _).2.trans (hk _).2⟩
  next => exact hk q

theorem foldl_sameContexts {β : Type} {s₀ s : State} {f : State → β → State} {l : List β} (h : ∀ t x, SameContexts s₀ t → SameContexts s₀ (f t x))
    (h0 : SameContexts s₀ s) : SameContexts s₀ (l.foldl f s) := by
  induction l generalizing s with
  | nil => exact h0
  | cons x l ih => exact ih (h _ _ h0)

/-- Time on a cluster lands writes and configuration stores, and no more of a core (R162, R178). -/
theorem State.advance_sameContexts (s : State) (c dt : Nat) : SameContexts s (s.advance c dt) := by
  unfold State.advance
  extract_lets t due u v w
  have hu : SameContexts s u := fun _ => ⟨rfl, rfl⟩
  clear_value u
  have hv : SameContexts s v :=
    foldl_sameContexts (fun t x ht => State.modCore_sameContexts t x.core (fun k => landCfg k x) (fun _ => ⟨rfl, rfl⟩) ht) hu
  clear_value v
  have hw : SameContexts s w := by
    refine foldl_sameContexts (fun t x ht => ?_) hv
    split
    · exact ht
    · exact State.modCore_sameContexts t _ _ (fun k => Core.landWrites_parts k _) ht
  clear_value w
  exact fun p => hw p

theorem State.haz_advance (s : State) (c dt k : Nat) : ((s.advance c dt).cluster k).haz = (s.cluster k).haz := by
  rw [State.cluster_advance, State.cluster_modSeq]
  split
  next heq => rw [heq]
  next => rfl

/-- A core that works runs a layer. -/
theorem State.works_parts {s : State} {p : Nat} (h : s.works p = true) : p < 96 ∧ ∃ ly, (s.core p).running = some ly := by
  rw [State.works, Bool.and_eq_true, Bool.and_eq_true, decide_eq_true_eq] at h
  obtain ⟨⟨hp, -⟩, hrun⟩ := h
  cases hly : (s.core p).running with
  | some ly => exact ⟨hp, ly, rfl⟩
  | none =>
    rw [hly] at hrun
    cases hrun

/-! ### Contexts that wake -/

/-- The choice of a context changes only contexts. -/
theorem Core.select_eq (k : Core) (i : Nat) : k.select i = { k with ctxs := (k.select i).ctxs } := by
  rw [Core.select]
  split
  · rfl
  · split <;> rfl

theorem Core.unstall_eq (k : Core) (i : Nat) : k.unstall i = { k with ctxs := (k.unstall i).ctxs } := by
  rw [Core.unstall]
  split
  · exact Core.select_eq ..
  · rfl

theorem Core.unstall_parts (k : Core) (i : Nat) : (k.unstall i).matrix = k.matrix := by
  rw [Core.unstall_eq]
  rfl

theorem State.wakeStalled_matrix (s : State) (p : Nat) (on : StallOn) (q : Nat) : ((s.wakeStalled p on).core q).matrix = (s.core q).matrix := by
  rw [State.wakeStalled]
  generalize ((s.core p).ctxs.filter _).map _ = l
  induction l generalizing s with
  | nil => rfl
  | cons i l ih =>
    rw [List.foldl_cons, ih, State.core_modCore]
    split
    next heq => rw [Core.unstall_parts, heq]
    next => rfl

/-! ### The K-steps of an issue (R79, R85 to R89) -/

theorem State.stored_modCore (s : State) (p : Nat) (f : Core → Core) : (s.modCore p f).stored = s.stored := rfl

/-- A K-step reads of its core the staging of a chain and the blocks of its subarray. -/
theorem State.stepOf_modCore {s : State} {p i : Nat} {f : Core → Core} (l : List Byte) (a : AccTile) (hchain : (f (s.core p)).chain = (s.core p).chain)
    (hblock : tget (f (s.core p)).blocks none i = tget (s.core p).blocks none i) (hshadow : tget (f (s.core p)).shadow none i = tget (s.core p).shadow none i) :
    (s.modCore p f).stepOf p l i a = s.stepOf p l i a := by
  have hA : (s.modCore p f).storedA p l = s.storedA p l := by
    funext t e i k
    rw [State.storedA, State.storedA, State.stored_modCore, State.core_modCore, if_pos rfl, hchain]
  have hB : (s.modCore p f).storedB p l = s.storedB p l := rfl
  have hrows : (s.modCore p f).rowsA p l = s.rowsA p l := by
    funext t k
    rw [State.rowsA, State.rowsA, hA]
  have hcols : (s.modCore p f).colsB p l = s.colsB p l := rfl
  have hload : (s.modCore p f).loadBlock p l = s.loadBlock p l := by
    funext t k
    rw [State.loadBlock, State.loadBlock, hrows, hcols]
  have hfor : (s.modCore p f).blockFor p l i a = s.blockFor p l i a := by
    rw [State.blockFor, State.blockFor, State.core_modCore, if_pos rfl, hblock, hshadow, hload]
  rw [State.stepOf, State.stepOf, hrows, hcols, hfor]

/-- The change that the K-step of a subarray makes to its core. -/
theorem State.mxeStep_eq (s : State) (p : Nat) (l : List Byte) (i : Nat) (a : AccTile) : ∃ f : Core → Core, s.mxeStep p l i a = s.modCore p f ∧
    (f (s.core p)).accs = tset (s.core p).accs none i (some (s.stepOf p l i a)) ∧ (f (s.core p)).chain = (s.core p).chain ∧
    (f (s.core p)).dealt = (s.core p).dealt ∧
    ∀ j, j ≠ i → tget (f (s.core p)).blocks none j = tget (s.core p).blocks none j ∧ tget (f (s.core p)).shadow none j = tget (s.core p).shadow none j := by
  rw [State.mxeStep]
  dsimp only
  split
  · exact ⟨_, rfl, rfl, rfl, rfl, fun _ _ => ⟨rfl, rfl⟩⟩
  · refine ⟨_, rfl, rfl, rfl, rfl, fun j hj => ?_⟩
    rw [tget_tset, tget_tset, if_neg hj, if_neg hj]
    exact ⟨rfl, rfl⟩

/-- K-steps of several subarrays: each tile goes one step from where it stood, and the other accumulators stay. -/
theorem State.mxeSteps_accs (p : Nat) (l : List Byte) {work : List (Nat × AccTile)} (hdistinct : work.Pairwise (fun x y => x.1 ≠ y.1)) (s : State) :
    ((work.foldl (fun s x => s.mxeStep p l x.1 x.2) s).core p).dealt = (s.core p).dealt ∧
    (∀ x ∈ work, tget ((work.foldl (fun s x => s.mxeStep p l x.1 x.2) s).core p).accs none x.1 = some (s.stepOf p l x.1 x.2)) ∧
    ∀ i, (∀ x ∈ work, x.1 ≠ i) → tget ((work.foldl (fun s x => s.mxeStep p l x.1 x.2) s).core p).accs none i = tget (s.core p).accs none i := by
  induction work generalizing s with
  | nil => exact ⟨rfl, (fun x hx => absurd hx List.not_mem_nil), fun _ _ => rfl⟩
  | cons x work ih =>
    obtain ⟨j, b⟩ := x
    obtain ⟨hne, hrest⟩ := List.pairwise_cons.1 hdistinct
    obtain ⟨f, hstep, haccs, hchain, hdealt, hothers⟩ := s.mxeStep_eq p l j b
    obtain ⟨hdealt', hin, hout⟩ := ih hrest (s.modCore p f)
    rw [List.foldl_cons, hstep]
    have hcore : (s.modCore p f).core p = f (s.core p) := (State.core_modCore s p f p).trans (if_pos rfl)
    rw [hcore] at hdealt' hout
    refine ⟨hdealt'.trans hdealt, fun y hy => ?_, fun i hi => ?_⟩
    · rcases List.mem_cons.1 hy with rfl | hy'
      · rw [hout j fun z hz => (hne z hz).symm, haccs, tget_tset, if_pos rfl]
      · obtain ⟨hblock, hshadow⟩ := hothers y.1 (hne y hy').symm
        rw [hin y hy', State.stepOf_modCore l y.2 hchain hblock hshadow]
    · rw [hout i fun z hz => hi z (List.mem_cons_of_mem _ hz), haccs, tget_tset, if_neg fun h => hi (j, b) List.mem_cons_self h.symm]

/-- The subarrays whose tile has a K-step left, with that tile. -/
def Core.work (k : Core) (l : List Byte) : List (Nat × AccTile) :=
  (List.range (subarrays l)).filterMap (fun i => match tget k.accs none i with
    | some t => if t.complete l then none else some (i, t)
    | none => none)

theorem Core.mem_work {k : Core} {l : List Byte} {x : Nat × AccTile} :
    x ∈ k.work l ↔ x.1 < subarrays l ∧ tget k.accs none x.1 = some x.2 ∧ x.2.complete l = false := by
  rw [Core.work, List.mem_filterMap]
  constructor
  · rintro ⟨i, hi, hx⟩
    split at hx
    next t ht =>
      split at hx
      · cases hx
      next hopen =>
        cases hx
        exact ⟨List.mem_range.1 hi, ht, Bool.eq_false_iff.2 hopen⟩
    next => cases hx
  · rintro ⟨hi, ht, hopen⟩
    refine ⟨x.1, List.mem_range.2 hi, ?_⟩
    rw [ht]
    dsimp only
    rw [if_neg (Bool.eq_false_iff.1 hopen)]

theorem Core.work_distinct (k : Core) (l : List Byte) : (k.work l).Pairwise (fun x y => x.1 ≠ y.1) := by
  refine List.Pairwise.filterMap _ (fun i j hij x hx y hy => ?_) (List.nodup_range (n := subarrays l))
  have hfirst (i : Nat) (x : Nat × AccTile) (hx : (match tget k.accs none i with
      | some t => if t.complete l then none else some (i, t)
      | none => none) = some x) : x.1 = i := by
    split at hx
    · split at hx
      · cases hx
      · cases hx; rfl
    · cases hx
  rw [hfirst i x hx, hfirst j y hy]
  exact hij

/-- An issue deals tiles, takes each that is not complete one step on, and leaves the queue unless every tile must wait (R79, R81, R104). -/
theorem State.mxeIssue_parts {s u : State} {p : Nat} {ly : Layer} (hrun : (s.core p).running = some ly) (hfoot : (s.core p).held = none)
    (hqueue : (s.core p).issueQ ≠ []) (hu : u = s.modCore p (·.deal ly)) :
    ((s.mxeIssue p).core p).dealt = (u.core p).dealt ∧
      ∀ i a, i < subarrays ly.lcb → tget (u.core p).accs none i = some a →
        tget ((s.mxeIssue p).core p).accs none i = some (if a.complete ly.lcb then a else u.stepOf p ly.lcb i a) ∧
        (a.complete ly.lcb = false → ((s.mxeIssue p).core p).issueQ = (s.core p).issueQ.tail) := by
  have hcore : u.core p = (s.core p).deal ly := hu ▸ (State.core_modCore s p (·.deal ly) p).trans (if_pos rfl)
  obtain ⟨head, rest, hq⟩ := List.exists_cons_of_ne_nil hqueue
  rw [hcore, hq, List.tail_cons]
  unfold State.mxeIssue
  rw [hrun, hfoot, hq]
  dsimp -zeta only
  extract_lets l k work
  have hwork : work = k.work ly.lcb := rfl
  split
  next hnone =>
    -- no tile has a step left: every one dealt is complete
    have hcomplete (i : Nat) (a : AccTile) (hi : i < subarrays ly.lcb) (ha : tget k.accs none i = some a) : a.complete ly.lcb = true := by
      refine Decidable.byContradiction fun hopen => ?_
      have hmem : (i, a) ∈ work := hwork ▸ Core.mem_work.2 ⟨hi, ha, Bool.eq_false_iff.2 hopen⟩
      rw [hnone] at hmem
      exact absurd hmem List.not_mem_nil
    have hkeeps (v : State) (hdealt : (v.core p).dealt = k.dealt) (haccs : (v.core p).accs = k.accs) : (v.core p).dealt = k.dealt ∧
        ∀ i a, i < subarrays ly.lcb → tget k.accs none i = some a →
          tget (v.core p).accs none i = some (if a.complete ly.lcb then a else u.stepOf p ly.lcb i a) ∧
          (a.complete ly.lcb = false → (v.core p).issueQ = rest) := by
      refine ⟨hdealt, fun i a hi ha => ?_⟩
      have hdone := hcomplete i a hi ha
      rw [haccs, if_pos hdone]
      exact ⟨ha, fun hopen => absurd (hdone.symm.trans hopen) (by decide)⟩
    split
    · exact hkeeps _ (by rw [State.core_modCore, if_pos rfl]) (by rw [State.core_modCore, if_pos rfl])
    · exact hkeeps _ (by rw [State.core_modCore, if_pos rfl]) (by rw [State.core_modCore, if_pos rfl])
  next bytes occ v hsome =>
    have hdealing : s.modCore p (fun _ => k) = u := hu ▸ rfl
    obtain ⟨hdealt, hin, hout⟩ := State.mxeSteps_accs p ly.lcb (hwork ▸ Core.work_distinct k ly.lcb) u
    have hv : v = work.foldl (fun s x => s.mxeStep p ly.lcb x.1 x.2) u := by rw [← hdealing]
    rw [← hv] at hdealt hin hout
    clear_value v bytes occ
    generalize hw : ((v.modCore p _).span (ctClu (p / 12) 3) occ).total 5 occ = w
    have hend : (w.core p).dealt = (v.core p).dealt ∧ (w.core p).accs = (v.core p).accs ∧ (w.core p).issueQ = rest := by
      subst hw
      rw [State.core_total, State.core_span, State.core_modCore, if_pos rfl]
      exact ⟨rfl, rfl, rfl⟩
    obtain ⟨hdealt', haccs', hissue'⟩ := hend
    rw [hdealt', hdealt, hcore, haccs']
    refine ⟨rfl, fun i a hi ha => ⟨?_, fun _ => hissue'⟩⟩
    split
    next hdone =>
      refine (hout i fun x hx hxi => ?_).trans ((congrArg (fun c : Core => tget c.accs none i) hcore).trans ha)
      obtain ⟨-, hx, hopen⟩ := Core.mem_work.1 (hwork ▸ hx)
      rw [hxi, ha] at hx
      cases hx
      exact absurd (hdone.symm.trans hopen) (by decide)
    next hopen => exact hin (i, a) (hwork ▸ Core.mem_work.2 ⟨hi, ha, Bool.eq_false_iff.2 hopen⟩)

theorem State.poisonAccs_nil (s : State) (p : Nat) : (s.poisonAccs p []).core p = s.core p := by
  rw [State.poisonAccs, State.core_modCore, if_pos rfl, List.foldl_nil]

theorem tileCommands_issue (p dt : Nat) (ly : Layer) (s : State) (hworks : s.works p = true) (hrun : (s.core p).running = some ly)
    (hfoot : (s.core p).held = none) (hqueue : (s.core p).issueQ ≠ []) :
    Answers (exec (.mxeIssue p dt [] []) s) (fun t => ∀ u, u = (s.advance (p / 12) dt).modCore p (·.deal ly) →
      (t.core p).dealt = (u.core p).dealt ∧
      ∀ i a, i < subarrays ly.lcb → tget (u.core p).accs none i = some a →
        tget (t.core p).accs none i = some (if a.complete ly.lcb then a else u.stepOf p ly.lcb i a) ∧
        (a.complete ly.lcb = false → (t.core p).issueQ = (s.core p).issueQ.tail)) := by
  show Answers (execMxeIssue p dt [] [] s) _
  rw [execMxeIssue, if_pos hworks]
  obtain ⟨hmatrix, -⟩ := State.advance_sameContexts s (p / 12) dt p
  generalize s.advance (p / 12) dt = v at hmatrix
  have hrun' : (v.core p).running = some ly := (congrArg (·.running) hmatrix).trans hrun
  have hfoot' : (v.core p).held = none := (congrArg (·.held) hmatrix).trans hfoot
  have hissue : (v.core p).issueQ = (s.core p).issueQ := congrArg (·.issueQ) hmatrix
  have hparts (u : State) (hu : u = v.modCore p (·.deal ly)) := State.mxeIssue_parts hrun' hfoot' (hissue ▸ hqueue) hu
  rw [hissue] at hparts
  have hecc : v.eccAll [] = v := rfl
  rw [hecc]
  have hparity : ((v.mxeIssue p).poisonAccs p []).tileParity p (([] : List (Nat × Nat)) != []) = (v.mxeIssue p).poisonAccs p [] := rfl
  dsimp only
  rw [hparity]
  refine Answers.next fun u hu => ?_
  obtain ⟨hdealt, haccs⟩ := hparts u hu
  generalize hw : (if (((v.mxeIssue p).poisonAccs p []).core p).issueQ.length < 8 then ((v.mxeIssue p).poisonAccs p []).wakeStalled p .issueQueue
    else (v.mxeIssue p).poisonAccs p []) = w
  have hend : (w.core p).matrix = ((v.mxeIssue p).core p).matrix := by
    subst hw
    split
    · rw [State.wakeStalled_matrix, State.poisonAccs_nil]
    · rw [State.poisonAccs_nil]
  have hdealt' : (w.core p).dealt = ((v.mxeIssue p).core p).dealt := congrArg (·.dealt) hend
  have haccs' : (w.core p).accs = ((v.mxeIssue p).core p).accs := congrArg (·.accs) hend
  have hissue' : (w.core p).issueQ = ((v.mxeIssue p).core p).issueQ := congrArg (·.issueQ) hend
  rw [hdealt', haccs', hissue']
  exact ⟨hdealt, haccs⟩

/-! ### Drains (R68, R86, R94, R119) -/

/-- A drain adds the tile's sub-tiles to the queue, or leaves them at the foot when it is full. -/
theorem State.mxeDrain_eq {s : State} {p i : Nat} {ly : Layer} {a : AccTile} {k : Core} (hrun : (s.core p).running = some ly)
    (hfoot : (s.core p).held = none)
    (hdone : (if mxK ly.lcb = 0 ∧ mxEn ly.lcb then (s.core p).deal ly else s.core p).finished ly.lcb i = some (a, k)) :
    ∃ f : Core → Core, s.mxeDrain p i [] = s.modCore p f ∧
      (∀ q, ftqAdd k.ftq (parityTiles [] (subTiles ly.lcb i a (s.drained p ly.lcb a))) = some q → f (s.core p) = { k with ftq := q }) ∧
      (ftqAdd k.ftq (parityTiles [] (subTiles ly.lcb i a (s.drained p ly.lcb a))) = none →
        f (s.core p) = { k with held := some (parityTiles [] (subTiles ly.lcb i a (s.drained p ly.lcb a)), (s.cluster (p / 12)).seq.cycles) }) := by
  rw [State.mxeDrain, hrun, hfoot]
  dsimp only
  rw [hdone]
  refine ⟨_, rfl, fun q hq => ?_, fun hfull => ?_⟩
  · rw [hq]
  · rw [hfull]

theorem tileCommands_drain (p i : Nat) (ly : Layer) (a : AccTile) (k : Core) (s : State) (hworks : s.works p = true)
    (hrun : (s.core p).running = some ly) (hfoot : (s.core p).held = none)
    (hdone : (if mxK ly.lcb = 0 ∧ mxEn ly.lcb then (s.core p).deal ly else s.core p).finished ly.lcb i = some (a, k)) :
    Answers (exec (.finishedTileDrain p i [] []) s) (fun t => (t.core p).accs = k.accs ∧ (t.core p).draining = k.draining ∧
      ∀ ts, ts = parityTiles [] (subTiles ly.lcb i a (s.drained p ly.lcb a)) → match ftqAdd k.ftq ts with
        | some q => (t.core p).ftq = q ∧ (t.core p).held = k.held
        | none => (t.core p).ftq = k.ftq ∧ (t.core p).held = some (ts, (s.cluster (p / 12)).seq.cycles)) := by
  show Answers (execFinishedTileDrain p i [] [] s) _
  rw [execFinishedTileDrain, if_pos hworks]
  have hecc : s.eccAll [] = s := rfl
  obtain ⟨f, hdrain, hadded, hfull⟩ := State.mxeDrain_eq hrun hfoot hdone
  have hparity : (s.mxeDrain p i []).tileParity p (([] : List (Nat × Nat)) != []) = s.mxeDrain p i [] := rfl
  dsimp only
  rw [hecc, hparity]
  generalize hw : (if ((s.mxeDrain p i []).core p).ftq.isEmpty then s.mxeDrain p i [] else (s.mxeDrain p i []).wakeStalled p .finishedQueue) = w
  have hend : (w.core p).matrix = ((s.mxeDrain p i []).core p).matrix := by
    subst hw
    split
    · rfl
    · rw [State.wakeStalled_matrix]
  rw [hdrain, State.core_modCore, if_pos rfl] at hend
  refine Answers.next ?_
  generalize parityTiles [] (subTiles ly.lcb i a (s.drained p ly.lcb a)) = tiles at hadded hfull
  cases hadd : ftqAdd k.ftq tiles with
  | some q =>
    rw [hadded q hadd] at hend
    refine ⟨congrArg (·.accs) hend, congrArg (·.draining) hend, fun ts hts => ?_⟩
    rw [hts, hadd]
    exact ⟨congrArg (·.ftq) hend, congrArg (·.held) hend⟩
  | none =>
    rw [hfull hadd] at hend
    refine ⟨congrArg (·.accs) hend, congrArg (·.draining) hend, fun ts hts => ?_⟩
    rw [hts, hadd]
    exact ⟨congrArg (·.ftq) hend, congrArg (·.held) hend⟩

/-! ### Operations of contexts (R116, R176 to R180) -/

/-- The state in which an operation of context i issues: its time has come, and the context runs. -/
def State.issuing (s : State) (p i dt : Nat) : State :=
  (s.advance (p / 12) (s.barrierWait p i dt)).modCore p (·.modCtx i (fun x => { x with st := .running, on := .nothing }))

theorem State.core_issuing (s : State) (p i dt : Nat) : (s.issuing p i dt).core p =
    ((s.advance (p / 12) (s.barrierWait p i dt)).core p).modCtx i (fun x => { x with st := .running, on := .nothing }) :=
  (State.core_modCore ..).trans (if_pos rfl)

theorem State.cluster_issuing (s : State) (p i dt : Nat) :
    (s.issuing p i dt).cluster (p / 12) = (s.advance (p / 12) (s.barrierWait p i dt)).cluster (p / 12) := State.cluster_modCore ..

/-- Sources are read from registers and the finished-tile queue. -/
theorem Core.opnd_modCtx (k : Core) (i : Nat) (f : Context → Context) : (k.modCtx i f).opnd = k.opnd := by
  funext x
  cases x with
  | reg n => rfl
  | sub q => rfl

theorem State.opnd_issuing (s : State) (p i dt : Nat) : ((s.issuing p i dt).core p).opnd = ((s.advance (p / 12) (s.barrierWait p i dt)).core p).opnd := by
  rw [State.core_issuing, Core.opnd_modCtx]

theorem State.loads_issuing (s : State) (p i dt : Nat) : (tget ((s.issuing p i dt).core p).ctxs {} i).loads = (tget (s.core p).ctxs {} i).loads := by
  rw [State.core_issuing, Core.modCtx]
  dsimp only
  rw [tget_tmod, if_pos rfl, (State.advance_sameContexts s (p / 12) _ p).2]

/-- An operation that does not stall acts at its issue (R176, R180). -/
theorem execTileOperation_issues {p i dt : Nat} {o : TeOp} {ly : Layer} {s : State} (hworks : s.works p = true) (hi : i < 48) (hlegal : o.legal = true)
    (htakes : (s.core p).takes i = true) (hrun : (s.core p).running = some ly) (hstall : o.stallsOn ((s.issuing p i dt).core p) i = none) :
    execTileOperation p i dt o [] [] s =
      .next ((if o.canStall then (s.issuing p i dt).modCore p (·.barrierAt i) else s.issuing p i dt).teEffect p i ly o []) := by
  have hissues : (s.works p && decide (i < 48) && o.legal && (s.core p).takes i) = true := by
    rw [hworks, decide_eq_true hi, hlegal, htakes]
    rfl
  rw [execTileOperation, hissues, hrun]
  dsimp only
  have hat : ((s.advance (p / 12) (s.barrierWait p i dt)).eccAll []).modCore p (·.modCtx i (fun x => { x with st := .running, on := .nothing })) =
      s.issuing p i dt := rfl
  rw [hat, hstall]

/-- A context without loads waits for none. -/
theorem Context.waitsFor_none {x : Context} (h : x.loads = []) (rs : List Nat) : x.waitsFor rs = false := by
  rw [Context.waitsFor, h]
  rfl

/-- The choice of a context leaves a free one free. -/
theorem Core.free_select {k : Core} {i : Nat} (j : Nat) (h : (tget k.ctxs {} i).st = .free) : (tget (k.select j).ctxs {} i).st = .free := by
  rw [Core.select]
  split
  · exact h
  split
  next n hn =>
    have hready := List.find?_some hn
    rw [Core.modCtx, tget_tmod, if_neg]
    · exact h
    · rintro rfl
      rw [h] at hready
      exact absurd hready (by decide)
  · exact h

theorem tileCommands_free (p i dt : Nat) (s : State) (hworks : s.works p = true) (hi : i < 48) (htakes : (s.core p).takes i = true)
    (hloads : (tget (s.core p).ctxs {} i).loads = []) :
    Answers (exec (.tileOperation p i dt .free [] []) s) (fun t => (tget (t.core p).ctxs {} i).st = .free) := by
  show Answers (execTileOperation p i dt .free [] [] s) _
  obtain ⟨-, ly, hrun⟩ := State.works_parts hworks
  have hempty := (State.loads_issuing s p i dt).trans hloads
  have hstall : TeOp.free.stallsOn ((s.issuing p i dt).core p) i = none := by
    rw [TeOp.stallsOn, Context.waitsFor_none hempty, if_neg Bool.false_ne_true, hempty]
    rfl
  rw [execTileOperation_issues hworks hi rfl htakes hrun hstall, if_pos (show TeOp.free.canStall = true from rfl)]
  refine Answers.next ?_
  generalize (s.issuing p i dt).modCore p (·.barrierAt i) = v
  show (tget ((v.modCore p (fun k => (k.modCtx i (fun _ => {})).select i)).core p).ctxs {} i).st = .free
  rw [State.core_modCore, if_pos rfl]
  refine Core.free_select i ?_
  rw [Core.modCtx, tget_tmod, if_pos rfl]

/-- While the hazard monitor is off, hazards change nothing (R182). -/
theorem State.hazards_off {s : State} {p : Nat} (hoff : (s.cluster (p / 12)).haz.modeInForce = 0) (i : Nat) (hs : List Haz) : s.hazards p i hs = s := by
  rw [State.hazards]
  generalize hs.mergeSort _ = l
  induction l with
  | nil => rfl
  | cons h l ih => rw [List.foldl_cons, State.hazardAt, if_pos hoff, ih]

/-- The results of an operation are a write that lands after its distance (R178). -/
theorem State.mem_writeResults {s : State} {p : Nat} (hoff : (s.cluster (p / 12)).haz.modeInForce = 0) (i dst dist : Nat) (reads : List Nat)
    (early : Bool) (srcFl : Flags) (rs : List (Nat × FV)) (units : List (Nat × Bool)) :
    ({ land := (s.cluster (p / 12)).seq.cycles + dist, issue := (s.cluster (p / 12)).seq.cycles, reg := dst, ctx := i,
       elems := rs.map (fun r => (r.1, r.2.bits)), units := parityUnits units [], fl := srcFl.or (flagsOf (rs.map (·.2.fl))),
       raised := flagsOf (rs.map (·.2.fl)) } : RegWrite) ∈ ((s.writeResults p i dst dist reads early srcFl rs units []).core p).writes := by
  unfold State.writeResults
  extract_lets k t hs fl w u
  have hquiet : ((u.tileParity p (([] : List Nat) != [])).hazards p i hs) = u := State.hazards_off (s := u) hoff i hs
  rw [hquiet]
  show w ∈ ((s.modCore p _).core p).writes
  rw [State.core_modCore, if_pos rfl]
  exact List.mem_append_right _ (List.mem_singleton_self _)

/-- A lane operation writes its results, with the flags that they raise and those of the sources (R116, R128). -/
theorem State.laneOp_writes {s : State} {p : Nat} (hoff : (s.cluster (p / 12)).haz.modeInForce = 0) (i d : Nat) (f : LaneFn) (xs : List TeSrc) (early : Bool) :
    ∃ w, w ∈ ((s.laneOp p i f d xs early []).core p).writes ∧ w.reg = d ∧ w.ctx = i ∧ w.issue = (s.cluster (p / 12)).seq.cycles ∧
      w.land = w.issue + f.distance ∧ w.elems = (laneResults f ((xs.take f.arity).map (s.core p).opnd)).map (fun r => (r.1, r.2.bits)) ∧
      w.raised = flagsOf ((laneResults f ((xs.take f.arity).map (s.core p).opnd)).map (·.2.fl)) ∧
      w.fl = (flagsOf (((xs.take f.arity).map (s.core p).opnd).map (·.fl))).or w.raised := by
  rw [State.laneOp]
  generalize laneResults f _ = rs
  generalize resultUnits _ _ _ = units
  exact ⟨_, State.mem_writeResults hoff i d f.distance (srcRegs xs) early _ rs units, rfl, rfl, rfl, rfl, rfl, rfl, rfl⟩

theorem tileCommands_lane (p i dt d : Nat) (f : LaneFn) (xs : List TeSrc) (early : Bool) (s : State) (hworks : s.works p = true) (hi : i < 48)
    (htakes : (s.core p).takes i = true) (hlegal : (TeOp.lane f d xs early).legal = true) (hloads : (tget (s.core p).ctxs {} i).loads = [])
    (hqueue : usesQueue xs = false) (hoff : (s.cluster (p / 12)).haz.modeInForce = 0) :
    Answers (exec (.tileOperation p i dt (.lane f d xs early) [] []) s) (fun t => ∀ u, u = s.advance (p / 12) (s.barrierWait p i dt) →
      ∃ w, w ∈ (t.core p).writes ∧ w.reg = d ∧ w.ctx = i ∧ w.issue = (u.cluster (p / 12)).seq.cycles ∧ w.land = w.issue + f.distance ∧
        w.elems = (laneResults f ((xs.take f.arity).map (u.core p).opnd)).map (fun r => (r.1, r.2.bits)) ∧
        w.raised = flagsOf ((laneResults f ((xs.take f.arity).map (u.core p).opnd)).map (·.2.fl)) ∧
        w.fl = (flagsOf (((xs.take f.arity).map (u.core p).opnd).map (·.fl))).or w.raised) := by
  show Answers (execTileOperation p i dt (.lane f d xs early) [] [] s) _
  obtain ⟨-, ly, hrun⟩ := State.works_parts hworks
  have hempty := (State.loads_issuing s p i dt).trans hloads
  have hstall : (TeOp.lane f d xs early).stallsOn ((s.issuing p i dt).core p) i = none := by
    rw [TeOp.stallsOn, Context.waitsFor_none hempty, if_neg Bool.false_ne_true, hqueue]
    rfl
  rw [execTileOperation_issues hworks hi hlegal htakes hrun hstall, TeOp.canStall, hqueue, if_neg Bool.false_ne_true]
  refine Answers.next fun u hu => ?_
  have hcluster : (s.issuing p i dt).cluster (p / 12) = u.cluster (p / 12) := hu ▸ State.cluster_issuing s p i dt
  have hoff' : ((s.issuing p i dt).cluster (p / 12)).haz.modeInForce = 0 := by
    rw [hcluster, hu, State.haz_advance, hoff]
  have hopnd : ((s.issuing p i dt).core p).opnd = (u.core p).opnd := hu ▸ State.opnd_issuing s p i dt
  have hwritten := State.laneOp_writes hoff' i d f xs early
  rw [hopnd, hcluster] at hwritten
  rw [State.teEffect]
  exact hwritten

/-! ### Loads that land (R176 to R179) -/

theorem flagsOf_none {l : List Flags} (h : ∀ f ∈ l, f = {}) : flagsOf l = {} := by
  rw [flagsOf]
  induction l with
  | nil => rfl
  | cons f l ih =>
    rw [List.foldl_cons, h f List.mem_cons_self]
    exact ih fun g hg => h g (List.mem_cons_of_mem _ hg)

theorem tget_foldl_tset_of_not_mem {α : Type} [DecidableEq α] {d : α} {xs : List (Nat × α)} {k : Nat} (h : ∀ x ∈ xs, x.1 ≠ k) (t : Tab α) :
    tget (xs.foldl (fun e x => tset e d x.1 x.2) t) d k = tget t d k := by
  induction xs generalizing t with
  | nil => rfl
  | cons x xs ih =>
    rw [List.foldl_cons, ih (fun y hy => h y (List.mem_cons_of_mem _ hy)), tget_tset, if_neg fun hk => h x List.mem_cons_self hk.symm]

/-- Of stores at different places, each holds. -/
theorem tget_foldl_tset {α : Type} [DecidableEq α] {d : α} {xs : List (Nat × α)} (hdistinct : xs.Pairwise (fun x y => x.1 ≠ y.1)) {x : Nat × α} (hx : x ∈ xs)
    (t : Tab α) : tget (xs.foldl (fun e x => tset e d x.1 x.2) t) d x.1 = x.2 := by
  induction xs generalizing t with
  | nil => exact absurd hx List.not_mem_nil
  | cons y xs ih =>
    obtain ⟨hne, hrest⟩ := List.pairwise_cons.1 hdistinct
    rw [List.foldl_cons]
    rcases List.mem_cons.1 hx with rfl | hxs
    · rw [tget_foldl_tset_of_not_mem fun z hz => (hne z hz).symm, tget_tset, if_pos rfl]
    · exact ih hrest hxs _

theorem Core.regs_landWrites (k : Core) (t : Nat) {w : RegWrite} (hwrites : k.writes = [w]) (hlanded : k.landed = []) (hland : w.land = t) :
    (k.landWrites t).regs = tmod k.regs {} w.reg (·.write w) := by
  unfold Core.landWrites
  extract_lets due again order raised
  have hdue : due = [w] := by
    show k.writes.filter _ = _
    rw [hwrites]
    refine List.filter_eq_self.2 fun x hx => decide_eq_true ?_
    exact Nat.le_of_eq (List.mem_singleton.1 hx ▸ hland)
  have horder : order = [w] := by
    have hagain : again = [] := by
      show k.landed.filter _ = _
      rw [hlanded, List.filter_nil]
    show (due ++ again).mergeSort _ = _
    rw [hdue, hagain, List.append_nil, List.mergeSort_singleton]
  have hraised : raised.regs = k.regs := by
    show (due.foldl _ k).regs = _
    rw [hdue, List.foldl_cons, List.foldl_nil]
    split
    · rfl
    · rfl
  show order.foldl _ raised.regs = _
  rw [horder, hraised]
  rfl

theorem Core.ctxs_landWrites (k : Core) (t : Nat) : (k.landWrites t).ctxs = k.ctxs := (k.landWrites_parts t).2

theorem Core.loads_select (k : Core) (i j : Nat) : (tget (k.select i).ctxs {} j).loads = (tget k.ctxs {} j).loads := by
  rw [Core.select]
  split
  · rfl
  split
  · rw [Core.modCtx, tget_tmod]
    split
    next h => rw [h]
    next => rfl
  · rfl

theorem Core.loads_unstall (k : Core) (i j : Nat) : (tget (k.unstall i).ctxs {} j).loads = (tget k.ctxs {} j).loads := by
  rw [Core.unstall]
  split
  · rw [Core.loads_select, Core.modCtx, tget_tmod]
    split
    next h => rw [h]
    next => rfl
  · rfl

/-- A load that is done leaves its context's list, and the registers as they are. -/
theorem State.loadDone_parts (s : State) (p i : Nat) (l : LoadReq) : (tget ((s.loadDone p i l).core p).ctxs {} i).loads = (tget (s.core p).ctxs {} i).loads.erase l ∧
    ((s.loadDone p i l).core p).regs = (s.core p).regs := by
  rw [State.loadDone, State.core_modCore, if_pos rfl]
  dsimp only
  have hdone : (tget ((s.core p).modCtx i (fun x => { x with loads := x.loads.erase l })).ctxs {} i).loads = (tget (s.core p).ctxs {} i).loads.erase l := by
    rw [Core.modCtx, tget_tmod, if_pos rfl]
  split
  · rw [Core.loads_unstall, Core.unstall_eq]
    exact ⟨hdone, rfl⟩
  · exact ⟨hdone, rfl⟩

/-- A load with no fixed distance lands as it is written (R178, R179). -/
theorem State.loadWrite_parts {s : State} {p : Nat} (hoff : (s.cluster (p / 12)).haz.modeInForce = 0) (i : Nat) (l : LoadReq) (x : Loaded) :
    ((s.loadWrite p i 0 l x).core p).ctxs = (s.core p).ctxs ∧
    ((s.core p).writes = [] → (s.core p).landed = [] → ∃ w : RegWrite, w.elems = x.map (fun e => (e.1, e.2.1.bits)) ∧
      w.fl = flagsOf (x.map (·.2.1.fl)) ∧ tget ((s.loadWrite p i 0 l x).core p).regs {} l.reg = (tget (s.core p).regs {} l.reg).write w) := by
  unfold State.loadWrite
  extract_lets k t fl bad w hs u
  have hquiet : u.hazards p i hs = u := State.hazards_off (s := u) hoff i hs
  rw [hquiet]
  have hcore : ∃ k' : Core, u.core p = k'.landWrites t ∧ k'.writes = k.writes ++ [w] ∧ k'.landed = k.landed ∧ k'.regs = k.regs ∧ k'.ctxs = k.ctxs := by
    refine ⟨{ k.own i [l.reg] with writes := k.writes ++ [w] }, ?_, rfl, rfl, rfl, rfl⟩
    show (s.modCore p _).core p = _
    rw [State.core_modCore, if_pos rfl, if_pos rfl]
  obtain ⟨k', hcore, hwrites', hlanded', hregs', hctxs'⟩ := hcore
  rw [hcore]
  refine ⟨(Core.ctxs_landWrites ..).trans hctxs', fun hwrites hlanded => ⟨w, rfl, rfl, ?_⟩⟩
  have hk : k'.writes = [w] := by
    rw [hwrites', show k.writes = [] from hwrites, List.nil_append]
  rw [Core.regs_landWrites (w := w) k' t hk (hlanded'.trans hlanded) rfl, tget_tmod, if_pos rfl, hregs']

theorem State.readMem_of_same {s t : State} (hmem : t.mem = s.mem) (hdram : t.dram = s.dram) (a n : Nat) : t.readMem a n = s.readMem a n := by
  have hbyte (a : Nat) : t.byteAt a = s.byteAt a := by
    rw [State.byteAt, State.byteAt, State.lostAt, State.lostAt, hmem, hdram]
  rw [State.readMem, State.readMem]
  simp only [hbyte]

/-- Bytes that a load brings as they stand raise no flag, and word k of them goes to the k-th element. -/
theorem rawLoad_parts (off : Nat) (bs : List Byte) (ps : Nat → Bool) : flagsOf ((rawLoad off bs ps).map (·.2.1.fl)) = {} ∧
    ((rawLoad off bs ps).map (fun e => (e.1, e.2.1.bits))).Pairwise (fun x y => x.1 ≠ y.1) ∧
    ∀ k, k < bs.length / 4 → (off / 4 + k, BitVec.ofNat 32 (leAt bs (4 * k) 4)) ∈ (rawLoad off bs ps).map (fun e => (e.1, e.2.1.bits)) := by
  rw [rawLoad, List.map_map, List.map_map]
  refine ⟨flagsOf_none fun f hf => ?_, ?_, fun k hk => List.mem_map.2 ⟨k, List.mem_range.2 hk, rfl⟩⟩
  · obtain ⟨j, -, rfl⟩ := List.mem_map.1 hf
    rfl
  · rw [List.pairwise_map]
    exact (List.nodup_range (n := bs.length / 4)).imp fun hne h => hne (Nat.add_left_cancel h)

theorem tileCommands_load (p i dt j : Nat) (l : LoadReq) (s : State) (hworks : s.works p = true) (hl : (tget (s.core p).ctxs {} i).loads[j]? = some l)
    (hhandle : l.handle = none) (hform : l.form = none) (hoff : (s.cluster (p / 12)).haz.modeInForce = 0) :
    Answers (exec (.loadLand p i dt j []) s) (fun t => (tget (t.core p).ctxs {} i).loads = (tget (s.core p).ctxs {} i).loads.erase l ∧
      (((s.advance (p / 12) dt).core p).writes = [] → ((s.advance (p / 12) dt).core p).landed = [] →
        (tget (t.core p).regs {} l.reg).fl = {} ∧ ∀ k, k < l.bytes / 4 →
        tget (tget (t.core p).regs {} l.reg).elems 0 (l.off / 4 + k) = BitVec.ofNat 32 (leAt (s.readMem l.addr l.bytes) (4 * k) 4))) := by
  show Answers (execLoadLand p i dt j [] s) _
  rw [execLoadLand, hl]
  dsimp only
  rw [if_pos ⟨hworks, hhandle⟩]
  have hecc : (s.advance (p / 12) dt).eccAll [] = s.advance (p / 12) dt := rfl
  rw [hecc]
  have hframe := State.advance_only s (p / 12) dt (hm := Nat.and_self _) (hk := .refl _ s)
  have hread := State.readMem_of_same (hframe.mem rfl) (hframe.dram rfl) l.addr l.bytes
  have hctxs := (State.advance_sameContexts s (p / 12) dt p).2
  have hoff' : ((s.advance (p / 12) dt).cluster (p / 12)).haz.modeInForce = 0 := by rw [State.haz_advance, hoff]
  generalize s.advance (p / 12) dt = v at hread hctxs hoff'
  rw [State.loaded, hform]
  dsimp only
  rw [hread]
  generalize (fun j => v.poisonAt (l.addr + j)) = ps
  have hlength : (s.readMem l.addr l.bytes).length = l.bytes := by rw [State.readMem, List.length_map, List.length_range]
  obtain ⟨hflags, hdistinct, hwords⟩ := rawLoad_parts l.off (s.readMem l.addr l.bytes) ps
  rw [hlength] at hwords
  generalize rawLoad l.off (s.readMem l.addr l.bytes) ps = x at hflags hdistinct hwords
  obtain ⟨hctxs', hlands⟩ := State.loadWrite_parts hoff' i l x
  obtain ⟨hdone, hregs⟩ := State.loadDone_parts (v.loadWrite p i 0 l x) p i l
  refine Answers.next ⟨?_, fun hwrites hlanded => ?_⟩
  · rw [hdone, hctxs', hctxs]
  · obtain ⟨w, helems, hfl, hreg⟩ := hlands hwrites hlanded
    rw [hregs, hreg, TileReg.write]
    refine ⟨hfl.trans hflags, fun k hk => ?_⟩
    rw [helems]
    exact tget_foldl_tset hdistinct (hwords k hk) _

/-- Settles O44: by the lemmas above, one for each of the five commands. -/
theorem tileCommands : Obligations.TileCommands := by
  unfold Obligations.TileCommands
  exact ⟨tileCommands_issue, tileCommands_drain, tileCommands_free, tileCommands_lane, tileCommands_load⟩

end Sys2Proof.Machine
end

