-- ==== Sys2Proof/Proofs/Collectives.lean ====
section
/-!
PROOFS. Collectives start, reduce, gather and end (12_collectives.md).
-/
set_option autoImplicit false
namespace Sys2Proof.Machine

/-! ### Running entries -/

/-- The running entry with an index, in a list. -/
theorem find?_map_index {l : List RunEntry} {i : Nat} {f : RunEntry → RunEntry} (hf : ∀ x, (f x).index = x.index) :
    (l.map (fun x => if x.index = i then f x else x)).find? (fun x => x.index == i) = (l.find? (fun x => x.index == i)).map f := by
  induction l with
  | nil => rfl
  | cons x l ih =>
    rw [List.map_cons, List.find?_cons, List.find?_cons]
    by_cases hx : x.index = i
    · rw [if_pos hx, hf, beq_iff_eq.2 hx]
      rfl
    · rw [if_neg hx, beq_eq_false_iff_ne.2 hx]
      exact ih

theorem State.runOf_modRun (s : State) (i : Nat) {f : RunEntry → RunEntry} (hf : ∀ x, (f x).index = x.index) :
    (s.modRun i f).runOf i = (s.runOf i).map f := find?_map_index hf

theorem State.runOf_of_col {s t : State} (h : t.col = s.col) (i : Nat) : t.runOf i = s.runOf i := by
  rw [State.runOf, State.runOf, h]

theorem State.planEntry_of_col {s t : State} (h : t.col = s.col) (i : Nat) : t.planEntry i = s.planEntry i := by
  rw [State.planEntry, State.planEntry, h]

/-! ### Fills (R387 to R390) -/

/-- The fill of an empty buffer counts its bytes as issued. -/
theorem State.issueFill_issued {s : State} {i : Nat} {e : List Byte} (hplan : s.planEntry i = some e) (hop : peOp e = 5)
    (hempty : (s.lb (peLbCluster e) (peLb e)).st = .empty) (hopen : (s.lb (peLbCluster e) (peLb e)).commit = false) :
    (s.issueFill i).col.issued = s.col.issued + s.product (peAxes e) * (peChunk e + peScaleStride e) := by
  have hskip : ¬ (peOp e ≠ 5 ∨ ((s.lb (peLbCluster e) (peLb e)).st ≠ .empty ∧ (s.lb (peLbCluster e) (peLb e)).entry = i) ∨
      (s.lb (peLbCluster e) (peLb e)).commit = true) := by
    rintro (h | ⟨h, -⟩ | h)
    · exact h hop
    · exact h hempty
    · exact absurd (hopen.symm.trans h) (by decide)
  unfold State.issueFill
  rw [hplan]
  dsimp -zeta only
  extract_lets c b size t u v
  rw [if_neg hskip]
  have ht : t = s := if_pos hempty
  have hv : v.col.issued = s.col.issued + size := by
    show t.col.issued + size = _
    rw [ht]
  clear_value v
  split
  next st _ => rw [(State.fillFailed_only v c b st (hm := Nat.and_self _) (hk := .refl _ v)).col rfl, hv]
  next =>
    rw [(Only.foldl (l := v.fillReads e) (fun t x ht => State.fillPiece_only t c b x.1 x.2.1 x.2.2.1 x.2.2.2 (hm := Nat.and_self _) (hk := ht))
      (.refl _ v)).col rfl, hv]

theorem State.col_microEnd (s : State) : s.microEnd.col = s.col :=
  (State.microEnd_only s (hm := Nat.and_self _) (hk := .refl _ s)).col rfl

theorem collectives_fill (c i micro : Nat) (t : Tick) (ecc : List (Nat × EccResult)) (e : List Byte) (s v : State) (h : SeqIssues s c t)
    (hv : v = (s.tick c t).eccAll ecc) (hplan : v.planEntry i = some e) (hop : peOp e = 5) (hempty : (v.lb (peLbCluster e) (peLb e)).st = .empty)
    (hopen : (v.lb (peLbCluster e) (peLb e)).commit = false) :
    Answers (exec (.collectiveStart c t i micro false ecc) s) (fun u => u.col.issued = v.col.issued + v.product (peAxes e) * (peChunk e + peScaleStride e)) := by
  show Answers (execCollectiveStart c t i micro false ecc s) _
  rw [execCollectiveStart, State.onSeq_of_seqIssues _ h, ← hv, State.startEntry, if_neg Bool.false_ne_true]
  dsimp only
  rw [hplan]
  dsimp only
  rw [if_pos hop]
  refine Answers.next ?_
  rw [State.col_microEnd]
  exact State.issueFill_issued hplan hop hempty hopen

/-! ### Reductions of one device (R371 to R373, R376) -/

/-- Entry i runs with some stages left and its micro-step, nothing is held, and its plan entry stands. -/
def State.Running (s : State) (i micro : Nat) (e : List Byte) (stages : List (Bool × Nat)) : Prop :=
  s.planEntry i = some e ∧ (∃ x, s.runOf i = some x ∧ x.stages = stages ∧ x.micro = micro) ∧ s.col.heldSegs = []

theorem State.Running.of_col {s t : State} {i micro : Nat} {e : List Byte} {stages : List (Bool × Nat)} (h : s.Running i micro e stages)
    (hcol : t.col = s.col) : t.Running i micro e stages := by
  obtain ⟨hplan, hrun, hheld⟩ := h
  rw [State.Running, State.planEntry_of_col hcol, State.runOf_of_col hcol, hcol]
  exact ⟨hplan, hrun, hheld⟩

theorem State.Running.modRun {s : State} {i micro : Nat} {e : List Byte} {stages stages' : List (Bool × Nat)} (h : s.Running i micro e stages)
    {f : RunEntry → RunEntry} (hf : ∀ x, (f x).index = x.index ∧ (f x).micro = x.micro) (hstages : ∀ x, x.stages = stages → (f x).stages = stages') :
    (s.modRun i f).Running i micro e stages' := by
  obtain ⟨hplan, ⟨x, hrun, hx, hmicro⟩, hheld⟩ := h
  refine ⟨hplan, ⟨f x, ?_, hstages x hx, (hf x).2.trans hmicro⟩, hheld⟩
  rw [State.runOf_modRun s i fun y => (hf y).1, hrun]
  rfl

theorem State.ext_of_rtr {s t : State} (h : t.rtr = s.rtr) (a : Nat) : t.ext a = s.ext a := by
  rw [State.ext, State.ext, h]

/-- Stages over axes of one device are passed over, one for each unit of fuel. -/
theorem State.nextStage_trivial {i micro : Nat} {e : List Byte} {fuel : Nat} {stages : List (Bool × Nat)} {s : State}
    (h : s.Running i micro e stages) (hfuel : stages.length ≤ fuel) (hext : ∀ y ∈ stages.drop 1, s.ext y.2 ≤ 1) :
    (s.nextStage i fuel).Running i micro e [] := by
  induction fuel generalizing stages s with
  | zero =>
    rw [List.length_eq_zero_iff.1 (Nat.le_zero.1 hfuel)] at h
    exact h
  | succ fuel ih =>
    obtain ⟨hplan, ⟨x, hrun, hx, -⟩, -⟩ := id h
    unfold State.nextStage
    rw [hrun, hplan]
    dsimp -zeta only
    rw [hx]
    cases stages with
    | nil => exact h
    | cons y rest =>
      obtain ⟨red, a⟩ := y
      dsimp -zeta only
      extract_lets t u
      have ht : t.Running i micro e rest := h.modRun (fun _ => ⟨rfl, rfl⟩) fun _ _ => rfl
      have htrtr : t.rtr = s.rtr := rfl
      clear_value t
      have hu : u.Running i micro e rest ∧ u.rtr = s.rtr := by
        unfold u
        split
        · have hstore := State.storeChunk_only t x e x.per (t.composite (peAxes e)) (hm := Nat.and_self _) (hk := .refl _ t)
          exact ⟨ht.of_col (hstore.col rfl), (hstore.rtr rfl).trans htrtr⟩
        · exact ⟨ht, htrtr⟩
      obtain ⟨hu, hurtr⟩ := hu
      clear_value u
      cases rest with
      | nil => exact hu
      | cons z rest =>
        obtain ⟨red', b⟩ := z
        dsimp -zeta only
        extract_lets v
        have hv : v.Running i micro e ((red', b) :: rest) := hu.modRun (fun _ => ⟨rfl, rfl⟩) fun _ hy => hy
        have hvext (a : Nat) : v.ext a = s.ext a := State.ext_of_rtr (t := v) hurtr a
        clear_value v
        rw [if_pos (Nat.le_trans (Nat.le_of_eq (hvext b)) (hext (red', b) List.mem_cons_self))]
        exact ih hv (Nat.le_of_succ_le_succ hfuel) fun w hw => Nat.le_trans (Nat.le_of_eq (hvext w.2)) (hext w (List.mem_cons_of_mem _ hw))

/-- A reduction, a gather or both over axes of one device run with no stage left. -/
theorem State.entryRun_trivial {s : State} {i : Nat} {e : List Byte} (micro : Nat) (last : Bool) (hplan : s.planEntry i = some e) (hop : peOp e ≤ 2)
    (hidle : s.runOf i = none) (haxes : (peAxes e).length ≤ 4) (hext : ∀ a ∈ peAxes e, s.ext a ≤ 1) (hheld : s.col.heldSegs = []) :
    (s.entryRun i micro last e).Running i micro e [] := by
  unfold State.entryRun
  extract_lets axes n own p op chunks work red gat stages x _ u v
  have hstages : stages.length ≤ 8 ∧ ∀ y ∈ stages, y.2 ∈ peAxes e := by
    have hred : red.length ≤ 4 ∧ ∀ y ∈ red, y.2 ∈ peAxes e := by
      refine ⟨Nat.le_trans (Nat.le_of_eq (List.length_map _)) haxes, fun y hy => ?_⟩
      obtain ⟨a, ha, rfl⟩ := List.mem_map.1 hy
      exact ha
    have hgat : gat.length ≤ 4 ∧ ∀ y ∈ gat, y.2 ∈ peAxes e := by
      refine ⟨Nat.le_trans (Nat.le_of_eq (List.length_map _)) haxes, fun y hy => ?_⟩
      obtain ⟨a, ha, rfl⟩ := List.mem_map.1 hy
      exact ha
    have hkind : stages = red ∨ stages = gat ∨ stages = red ++ gat := by
      have hcases : op = 0 ∨ op = 1 ∨ op = 2 := by
        have hop' : op ≤ 2 := hop
        omega
      unfold stages
      rcases hcases with h | h | h
      · rw [h]; exact .inl rfl
      · rw [h]; exact .inr (.inl rfl)
      · rw [h]; exact .inr (.inr rfl)
    rcases hkind with h | h | h
    · rw [h]; exact ⟨by omega, hred.2⟩
    · rw [h]; exact ⟨by omega, hgat.2⟩
    · rw [h, List.length_append]
      exact ⟨by omega, fun y hy => (List.mem_append.1 hy).elim (hred.2 y) (hgat.2 y)⟩
  obtain ⟨hlength, hmem⟩ := hstages
  have hx : x.index = i ∧ x.stages = (false, 9) :: stages ∧ x.micro = micro := ⟨rfl, rfl, rfl⟩
  have hnot : op ≠ 3 := fun h => by
    have hop' : op ≤ 2 := hop
    omega
  rw [if_neg hnot]
  clear_value stages x
  obtain ⟨hindex, hxstages, hmicro⟩ := hx
  have hu : u.Running i micro e ((false, 9) :: stages) := by
    refine ⟨hplan, ⟨x, ?_, hxstages, hmicro⟩, hheld⟩
    show (s.col.running ++ [x]).find? (fun y => y.index == i) = some x
    have hidle' : s.col.running.find? (fun y => y.index == i) = none := hidle
    rw [List.find?_append, hidle', Option.none_or, List.find?_cons, beq_iff_eq.2 hindex]
  have hurtr : u.rtr = s.rtr := rfl
  clear_value u
  have hv : v.Running i micro e ((false, 9) :: stages) ∧ v.rtr = s.rtr := by
    unfold v
    split
    · have hstore : Only 1572864 u ((List.range n).foldl (fun s k => match x.unit (own * n + k) with | some u => s.storeUnit e own k u | none => s) u) := by
        refine Only.foldl (fun t k ht => ?_) (.refl _ u)
        split
        · exact State.storeUnit_only t e own k _ (hm := by decide) (hk := ht)
        · exact ht
      exact ⟨hu.of_col (hstore.col rfl), (hstore.rtr rfl).trans hurtr⟩
    · exact ⟨hu, hurtr⟩
  obtain ⟨hv, hvrtr⟩ := hv
  clear_value v
  have hended : (v.nextStage i 9).Running i micro e [] :=
    State.nextStage_trivial hv (Nat.succ_le_succ hlength) fun y hy => Nat.le_trans (Nat.le_of_eq (State.ext_of_rtr hvrtr y.2)) (hext y.2 (hmem y hy))
  rw [State.releaseSegs_nil hended.2.2]
  exact hended.of_col (State.freeKept_frame _).2.1

/-- An entry whose start is not refused does not run. -/
theorem State.runOf_of_startStatus {s : State} {i : Nat} {e : List Byte} (hplan : s.planEntry i = some e) (h : s.startStatus i = none) : s.runOf i = none := by
  rw [State.startStatus, hplan] at h
  dsimp only at h
  split at h
  · cases h
  next hidle => exact Option.not_isSome_iff_eq_none.1 hidle

theorem collectives_start (c i micro : Nat) (t : Tick) (ecc : List (Nat × EccResult)) (e : List Byte) (s v : State) (h : SeqIssues s c t)
    (hv : v = (s.tick c t).eccAll ecc) (hplan : v.planEntry i = some e) (hop : peOp e ≤ 2) (hstart : v.startStatus i = none)
    (haxes : (peAxes e).length ≤ 4) (hext : ∀ a ∈ peAxes e, v.ext a ≤ 1) (hheld : v.col.heldSegs = []) :
    Answers (exec (.collectiveStart c t i micro false ecc) s) (fun u => (u.runOf i).map (fun x => x.stages) = some [] ∧
      (u.runOf i).map (fun x => x.micro) = some micro) := by
  show Answers (execCollectiveStart c t i micro false ecc s) _
  rw [execCollectiveStart, State.onSeq_of_seqIssues _ h, ← hv, State.startEntry, if_neg Bool.false_ne_true]
  dsimp only
  rw [hplan]
  dsimp only
  rw [if_neg (by omega), hstart]
  dsimp only
  obtain ⟨-, ⟨x, hrun, hstages, hmicro⟩, -⟩ :=
    State.entryRun_trivial micro false hplan hop (State.runOf_of_startStatus hplan hstart) haxes hext hheld
  refine Answers.next ?_
  rw [State.runOf_of_col (State.col_microEnd _), hrun, Option.map_some, Option.map_some, hstages, hmicro]
  exact ⟨rfl, rfl⟩

/-! ### Segments that fit no run (R376, R386) -/

/-- Which entry a segment fits is the same while only the held segments change. -/
theorem State.segFits_held (s : State) (l : List Packet) (p : Packet) : (s.modCol (fun c => { c with heldSegs := l })).segFits p = s.segFits p := rfl

/-- Segments that fit no run are held, in order. -/
theorem State.hold_segments {s : State} {ps : List Packet} (h : ∀ p ∈ ps, s.segFits p = none) :
    ps.foldl (fun s p => s.segmentOne p) s = s.modCol (fun c => { c with heldSegs := c.heldSegs ++ ps }) := by
  suffices hfrom : ∀ l : List Packet, ps.foldl (fun s p => s.segmentOne p) (s.modCol (fun c => { c with heldSegs := l })) =
      s.modCol (fun c => { c with heldSegs := l ++ ps }) from hfrom s.col.heldSegs
  induction ps with
  | nil => exact fun l => by rw [List.foldl_nil, List.append_nil]
  | cons p ps ih =>
    intro l
    have hone : (s.modCol (fun c => { c with heldSegs := l })).segmentOne p = s.modCol (fun c => { c with heldSegs := l ++ [p] }) := by
      rw [State.segmentOne, State.segFits_held, h p List.mem_cons_self]
      rfl
    rw [List.foldl_cons, hone, ih (fun q hq => h q (List.mem_cons_of_mem _ hq)) (l ++ [p]), List.append_assoc, List.singleton_append]

/-- Held segments of which none fits stay held. -/
theorem State.releaseSegs_stuck {s : State} (h : ∀ p ∈ s.col.heldSegs, s.segFits p = none) : s.releaseSegs = s.freeKept := by
  have hsame : s.col.heldSegs.foldl (fun s p => s.segmentOne p) (s.modCol (fun c => { c with heldSegs := [] })) = s :=
    (State.hold_segments (s := s.modCol (fun c => { c with heldSegs := [] })) fun p hp => (State.segFits_held s [] p).trans (h p hp)).trans rfl
  rw [State.releaseSegs, State.offerSegs, hsame, if_pos rfl]

theorem collectives_hold (p q : Packet) (fault : Bool) (ecc : List (Nat × EccResult)) (s u : State) (hkind : p.kind = 4) (hturn : s.inTurn p = true)
    (hq : q = (if fault then p.poisonAll else p))
    (hu : u = (if fault then ((s.takeIn p q).eccAll ecc).detect .collectiveFault (srcBlock 1) [] else (s.takeIn p q).eccAll ecc))
    (hfits : ∀ x ∈ u.col.heldSegs ++ [q], u.segFits x = none) :
    Answers (exec (.reduceSegment p fault ecc) s) (fun t => t.col.heldSegs = u.col.heldSegs ++ [q] ∧ t.mem = u.mem) := by
  show Answers (execReduceSegment p fault ecc s) _
  rw [execReduceSegment, if_pos ⟨hkind, hturn⟩]
  dsimp only
  rw [← hq, ← hu]
  have hheld : u.segmentOne q = u.modCol (fun c => { c with heldSegs := c.heldSegs ++ [q] }) := by
    rw [State.segmentOne, hfits q (List.mem_append_right _ (List.mem_singleton_self q))]
  rw [State.segment, hheld, State.releaseSegs_stuck hfits]
  have haccepted := State.accepted_only ((u.modCol (fun c => { c with heldSegs := c.heldSegs ++ [q] })).freeKept) p (hm := Nat.and_self _) (hk := .refl _ _)
  obtain ⟨-, hcol, hmem⟩ := (u.modCol (fun c => { c with heldSegs := c.heldSegs ++ [q] })).freeKept_frame
  refine Answers.next ⟨?_, ?_⟩
  · rw [haccepted.col rfl, hcol]
    rfl
  · rw [haccepted.mem rfl, hmem]
    rfl

/-! ### A unit that is taken (R372, R374, R376) -/

/-- A segment of one unit that leaves its run in need changes what the unit changes. -/
theorem State.segmentOne_unit {s t : State} {p : Packet} {i : Nat} {e : List Byte} {x z : RunEntry} {y : WorkUnit}
    (hfits : s.segFits p = some (i, e, x)) (hop : peOp e ≤ 2) (htail : tailUnits e x.per x.ub p = [y])
    (ht : s.applyUnits i e (p.kind == 4) (s.srcAxis p.src) [(fld p.addr 10 38, some y)] = t) (hrun : t.runOf i = some z) (hneed : z.need ≠ 0)
    (hsettle : t.settle = s.settle) : s.segmentOne p = t := by
  have htake : s.takeSegment p i e x = t := by
    rw [State.takeSegment]
    dsimp only
    have hone : ([y].zip (List.range [y].length)).map (fun u => (fld p.addr 10 38 + u.2, some u.1)) = [(fld p.addr 10 38, some y)] := rfl
    rw [if_neg (by omega), if_neg (by omega), htail, hone, ht, hrun]
    dsimp only
    rw [if_neg fun h => hneed h.1]
  rw [State.segmentOne, hfits]
  dsimp only
  rw [htake, hsettle, if_neg (Nat.lt_irrefl _)]

/-- A unit at its own device is reduced into the working unit (R372, R374). -/
theorem State.applyUnits_own {s : State} {i a k : Nat} {e : List Byte} {x : RunEntry} {o y : WorkUnit} (hop : peOp e ≤ 2) (hrun : s.runOf i = some x)
    (ho : x.unit k = some o) (hown : s.posOn (peAxes e) a (k / x.per) = s.ringPos a) : ∃ v : State,
      s.applyUnits i e true a [(k, some y)] = v.modRun i (fun x => { x with work := tset x.work none k (some (reduceUnit e y o).1), need := x.need - 1 }) ∧
      v.runOf i = some x ∧ v.settle = s.settle := by
  rw [State.applyUnits, List.foldl_cons, List.foldl_nil, hrun]
  dsimp -zeta only
  extract_lets c k' q plus own v
  have hv : v = some (reduceUnit e y o) := by
    unfold v own
    rw [ho]
  rw [if_pos rfl, hv]
  obtain ⟨w, fl⟩ := reduceUnit e y o
  have hq : q = s.ringPos a := hown
  dsimp only
  rw [if_pos hq, if_neg (by omega)]
  exact ⟨s.modCol (fun c => { c with flags := c.flags.or { fl with dz := false, sat := false } }), rfl, hrun, rfl⟩

/-- A gathered unit whose next hop is the position of its chunk is copied into place and goes no further (R376). -/
theorem State.applyUnits_last {s : State} {i a k : Nat} {e : List Byte} {x : RunEntry} {y : WorkUnit} (hrun : s.runOf i = some x)
    (hlast : (if s.onPlus x.per a (k % x.per) then (s.ringPos a + 1) % s.ext a else (s.ringPos a + s.ext a - 1) % s.ext a) =
      s.posOn (peAxes e) a (k / x.per)) :
    s.applyUnits i e false a [(k, some y)] =
      (s.modRun i (fun x => { x with work := tset x.work none k (some y), need := x.need - 1 })).storeUnit e (k / x.per) (k % x.per) y := by
  rw [State.applyUnits, List.foldl_cons, List.foldl_nil, hrun]
  dsimp only
  rw [if_neg Bool.false_ne_true, if_pos hlast]

/-- What a unit that is taken leaves of its run: the unit, and one fewer to come. -/
theorem State.runOf_taken {v : State} {i k : Nat} {x : RunEntry} (w : WorkUnit) (hrun : v.runOf i = some x) :
    (v.modRun i (fun x => { x with work := tset x.work none k (some w), need := x.need - 1 })).runOf i =
      some { x with work := tset x.work none k (some w), need := x.need - 1 } := by
  refine (State.runOf_modRun v i (f := fun x => { x with work := tset x.work none k (some w), need := x.need - 1 }) fun _ => rfl).trans ?_
  rw [hrun]
  rfl

theorem RunEntry.unit_taken (x : RunEntry) (k : Nat) (w : WorkUnit) :
    ({ x with work := tset x.work none k (some w), need := x.need - 1 } : RunEntry).unit k = some w := by
  rw [RunEntry.unit, tget_tset, if_pos rfl]

theorem collectives_reduce (p q : Packet) (fault : Bool) (ecc : List (Nat × EccResult)) (i k : Nat) (e : List Byte) (x : RunEntry) (o y : WorkUnit)
    (s u : State) (hkind : p.kind = 4) (hturn : s.inTurn p = true) (hq : q = (if fault then p.poisonAll else p))
    (hu : u = (if fault then ((s.takeIn p q).eccAll ecc).detect .collectiveFault (srcBlock 1) [] else (s.takeIn p q).eccAll ecc))
    (hfits : u.segFits q = some (i, e, x)) (hop : peOp e ≤ 2) (hrun : u.runOf i = some x) (hk : k = fld p.addr 10 38)
    (htail : tailUnits e x.per x.ub q = [y]) (ho : x.unit k = some o)
    (hown : u.posOn (peAxes e) (u.srcAxis p.src) (k / x.per) = u.ringPos (u.srcAxis p.src)) (hneed : 2 ≤ x.need) :
    Answers (exec (.reduceSegment p fault ecc) s) (fun t => ∃ v : State, t = v.releaseSegs.accepted p ∧
      (v.runOf i).map (fun x => (x.unit k, x.need)) = some (some (reduceUnit e y o).1, x.need - 1)) := by
  show Answers (execReduceSegment p fault ecc s) _
  rw [execReduceSegment, if_pos ⟨hkind, hturn⟩]
  dsimp only
  rw [← hq, ← hu]
  have hsame : q.kind = 4 ∧ q.addr = p.addr ∧ q.src = p.src := by
    rw [hq]
    split
    · exact ⟨hkind, rfl, rfl⟩
    · exact ⟨hkind, rfl, rfl⟩
  obtain ⟨hqkind, hqaddr, hqsrc⟩ := hsame
  obtain ⟨v, happly, hvrun, hvsettle⟩ := State.applyUnits_own (y := y) hop hrun ho hown
  have htaken := State.runOf_taken (k := k) (reduceUnit e y o).1 hvrun
  rw [← hqsrc, hk, ← hqaddr, ← beq_iff_eq.2 hqkind] at happly
  rw [hk, ← hqaddr] at htaken
  have hmore : x.need - 1 ≠ 0 := by omega
  have hone := State.segmentOne_unit hfits hop htail happly htaken hmore hvsettle
  rw [State.segment, hone]
  refine Answers.next ⟨_, rfl, ?_⟩
  rw [htaken, hk, ← hqaddr]
  exact congrArg (fun r => some (r, x.need - 1)) (x.unit_taken (fld q.addr 10 38) (reduceUnit e y o).1)

theorem State.takeIn_frame (s : State) (p q : Packet) : (s.takeIn p q).dram = s.dram :=
  (State.takeIn_only s p q (hm := Nat.and_self _) (hk := .refl _ s)).dram rfl

theorem collectives_gather (p : Packet) (i k a l : Nat) (e : List Byte) (x : RunEntry) (y : WorkUnit) (s u : State) (hkind : p.kind = 5)
    (hturn : s.inTurn p = true) (hu : u = s.takeIn p p) (hfits : u.segFits p = some (i, e, x)) (hop : peOp e ≤ 2) (hblock : peBlk e = 0)
    (hrun : u.runOf i = some x) (hk : k = fld p.addr 10 38) (htail : tailUnits e x.per x.ub p = [y]) (hworks : ∀ a, s.lostAt a = false)
    (ha : a = u.srcAxis p.src) (hl : l = u.ext a)
    (hlast : (if u.onPlus x.per a (k % x.per) then (u.ringPos a + 1) % l else (u.ringPos a + l - 1) % l) = u.posOn (peAxes e) a (k / x.per))
    (hneed : 2 ≤ x.need) :
    Answers (exec (.gatherSegment p) s) (fun t => ∃ v : State, t = v.releaseSegs.accepted p ∧
      v.readMem (peDst e + k / x.per * peChunk e + k % x.per * peUnit e) y.data.length = y.data ∧
      (v.runOf i).map (fun x => (x.unit k, x.need)) = some (some y, x.need - 1)) := by
  show Answers (execGatherSegment p s) _
  rw [execGatherSegment, if_pos ⟨hkind, hturn⟩, ← hu]
  subst hl ha
  have happly := State.applyUnits_last (y := y) hrun hlast
  have htaken := State.runOf_taken (k := k) y hrun
  have hdram : u.dram = s.dram := hu ▸ State.takeIn_frame s p p
  generalize hw : u.modRun i (fun x => { x with work := tset x.work none k (some y), need := x.need - 1 }) = w at happly htaken
  have hwdram : w.dram = s.dram := hw ▸ hdram
  have hwsettle : w.settle = u.settle := hw ▸ rfl
  have hstore : w.storeUnit e (k / x.per) (k % x.per) y =
      w.writeMem (peDst e + k / x.per * peChunk e + k % x.per * peUnit e) y.data (fun _ => y.poison) := by
    rw [State.storeUnit, if_pos (.inl hblock)]
  rw [hstore] at happly
  have hframe := State.writeMem_only w (peDst e + k / x.per * peChunk e + k % x.per * peUnit e) y.data (fun _ => y.poison) (hm := Nat.and_self _) (hk := .refl _ w)
  have hread := State.readMem_writeMem (s := w) (a := peDst e + k / x.per * peChunk e + k % x.per * peUnit e) (bs := y.data) (fun _ => y.poison)
    fun b _ _ => by rw [State.lostAt, hwdram]; exact hworks b
  generalize w.writeMem (peDst e + k / x.per * peChunk e + k % x.per * peUnit e) y.data (fun _ => y.poison) = v at happly hframe hread
  have hvrun : v.runOf i = some { x with work := tset x.work none k (some y), need := x.need - 1 } :=
    (State.runOf_of_col (hframe.col rfl) i).trans htaken
  have hgather : (p.kind == 4) = false := by rw [hkind]; rfl
  rw [← hgather, hk] at happly
  have hmore : x.need - 1 ≠ 0 := by omega
  have hone := State.segmentOne_unit hfits hop htail happly hvrun hmore ((hframe.settle rfl).trans hwsettle)
  rw [State.segment, hone]
  refine Answers.next ⟨v, rfl, hread, ?_⟩
  rw [hvrun]
  exact congrArg (fun r => some (r, x.need - 1)) (x.unit_taken k y)

/-! ### Entries that end (R380) -/

theorem collectives_held (s : State) (h : s.col.heldSegs = []) : s.releaseSegs.col = s.col ∧ s.releaseSegs.mem = s.mem := by
  rw [State.releaseSegs_nil h]
  exact s.freeKept_frame.2

theorem collectives_end (i : Nat) (ecc : List (Nat × EccResult)) (e : List Byte) (x z : RunEntry) (s u : State) (hz : s.runOf i = some z)
    (hplan : s.planEntry i = some e) (hgrad : peOp e ≠ 4) (hfill : peOp e ≠ 5) (hu : u = s.eccAll ecc) (hrun : u.runOf i = some x)
    (huplan : u.planEntry i = some e) (hstages : x.stages = []) (hneed : x.need = 0) (hgone : u.segsGone i = true) (hdone : peDoneEn e = true)
    (hopen : QueuesOpen u (peDone e)) :
    Answers (exec (.collectiveEnd i ecc) s) (fun t => t.runOf i = none ∧
      t.queue (peDone e) (peQueue e) = (u.queue (peDone e) (peQueue e)).put [BitVec.ofNat 32 (i + Status.ok.code * 2 ^ 24)]) := by
  show Answers (execCollectiveEnd i ecc s) _
  rw [execCollectiveEnd, hz, hplan]
  dsimp only
  rw [if_neg fun h => hgrad h.1, ← hu, hrun]
  dsimp only
  rw [if_pos ⟨hstages, hneed, hgone⟩]
  have hended : u.entryEnd i .ok = (u.modCol (fun c => { c with running := c.running.filter (fun x => x.index != i) })).collectiveCoin
      (peDone e) (peQueue e) (BitVec.ofNat 32 (i + Status.ok.code * 2 ^ 24)) := by
    rw [State.entryEnd, huplan]
    dsimp only
    rw [if_pos ⟨hdone, hfill⟩]
  rw [hended]
  have hgoneRun : (u.modCol (fun c => { c with running := c.running.filter (fun x => x.index != i) })).runOf i = none :=
    List.find?_eq_none.2 fun y hy => by
      have hne := (List.mem_filter.1 hy).2
      rw [bne_iff_ne] at hne
      exact fun h => hne (beq_iff_eq.1 h)
  have hqueue : (u.modCol (fun c => { c with running := c.running.filter (fun x => x.index != i) })).queue (peDone e) (peQueue e) =
      u.queue (peDone e) (peQueue e) := rfl
  have hopen' : QueuesOpen (u.modCol (fun c => { c with running := c.running.filter (fun x => x.index != i) })) (peDone e) := hopen
  generalize u.modCol _ = v at hgoneRun hqueue hopen'
  have hcoin := State.queue_coinApply_deposit hopen' (peQueue e) (.outside v.here (peDone e) 0) (BitVec.ofNat 32 (i + Status.ok.code * 2 ^ 24))
  have hframe := State.coinApply_only v (peDone e) (peQueue e) (.outside v.here (peDone e) 0) (.deposit (BitVec.ofNat 32 (i + Status.ok.code * 2 ^ 24)))
    (hm := Nat.and_self _) (hk := .refl _ v)
  rw [State.collectiveCoin]
  generalize v.coinApply (peDone e) (peQueue e) (.outside v.here (peDone e) 0) (.deposit (BitVec.ofNat 32 (i + Status.ok.code * 2 ^ 24))) = w at hcoin hframe
  have hmicro := State.microEnd_only w (hm := Nat.and_self _) (hk := .refl _ w)
  refine Answers.next ⟨?_, ?_⟩
  · rw [State.runOf_of_col (hmicro.col rfl), State.runOf_of_col (hframe.col rfl), hgoneRun]
  · rw [State.queue, hmicro.cluster_eq rfl, ← State.queue, hcoin, hqueue]

/-- Settles O40: a lemma for each clause, on a start, a segment held or taken, and an end. -/
theorem collectives : Obligations.Collectives := by
  unfold Obligations.Collectives
  exact ⟨collectives_fill, collectives_start, collectives_hold, collectives_reduce, collectives_gather, collectives_held, collectives_end⟩

end Sys2Proof.Machine
end
